-- ==== Sys2Proof/Word.lean ====
section
/-! DEFINITION. Words, bytes and the keys of sparse tables: the plainest types of the model. -/

namespace Sys2Proof

/-- A byte. -/
abbrev Byte := BitVec 8

/-- A register word (R30). -/
abbrev Word := BitVec 32

/-- A 128-bit memory word (spec/12_memory_ecc.md). -/
abbrev Word128 := BitVec 128

/-- A sparse table: key and value pairs, keys rising. An unlisted key reads as the table's default. -/
abbrev SMap (α : Type) := List (Nat × α)

/-- The two builds of the part (R1). -/
inductive Build where
  | S
  | T
deriving DecidableEq, Repr

/-- The access paths, in the order of their origin codes (R51). -/
inductive Origin where
  | usb4 | ethMgmt | chainRelay | jtag | belfry | mirror
deriving DecidableEq, Repr

/-- The origin code of R51. -/
def Origin.code : Origin → Nat
  | .usb4 => 0
  | .ethMgmt => 1
  | .chainRelay => 2
  | .jtag => 3
  | .belfry => 4
  | .mirror => 5

end Sys2Proof
end

