-- ==== Sys2Proof/Types.lean ====
section
/-! DEFINITION. The operand types of the commands: what a command carries in from outside the block (a bus write, a cell, a frame, a sample). -/

namespace Sys2Proof

/-- One write on an access path: origin, byte address in the 24-bit space, size in bytes (1, 2, 4 or 8) and data (R29, R30). -/
structure BusWrite where
  origin : Origin
  addr : Nat
  size : Nat
  data : BitVec 64
deriving DecidableEq, Repr

/-- The apply references of R41. `scanLine n` is the first pixel clock of line `n` of the common scan-out line counter. -/
inductive ApplyRef where
  | scanLine (line : Nat)
  | canvasRelease
  | canvasBegin
  | previewFrame
  | tileBeat
  | bar
deriving DecidableEq, Repr

/-- One received 144-bit word of a cell: data, check bits, word index and cell sequence (R194). -/
structure RawWord where
  data : Word128
  check : BitVec 9
  index : Nat
  cseq : Nat
deriving DecidableEq, Repr

/-- A cell on a link: four words (R194). -/
structure RawCell where
  w0 : RawWord
  w1 : RawWord
  w2 : RawWord
  w3 : RawWord
deriving DecidableEq, Repr

/-- A 64b/66b block on a lane of a chain port: 0 D0, 1 D1, 2 SP; its sync header and its payload as they are on the line (R189). -/
structure LineBlock where
  lane : Nat
  sync : Nat
  payload : Nat
deriving DecidableEq, Repr

/-- A read as a path carries it: its byte address and its size in bytes (R30). -/
structure ReadAcc where
  addr : Nat
  size : Nat
deriving DecidableEq, Repr

/-- What training leaves of the lanes D0, D1 and SP of a receiver: width and height of each eye, and the settings found (R215, R218). -/
structure Training where
  widths : List Nat
  heights : List Nat
  settings : List Word
deriving DecidableEq, Repr

/-- The next lines of a frame of a DP stream: the frame's size, component depth, and the pixels of each line as 0x00RRGGBB or, at 10 bits, R[29:20] G[19:10] B[9:0] (R64, R65). -/
structure DpFrame where
  width : Nat
  height : Nat
  bpc10 : Bool
  lines : List (List Nat)
deriving DecidableEq, Repr

/-- The format of a DP stream offered: size, components, pixel clock, and the lanes of the adapter with their rate in Mbit/s: 1,620, 2,700,
5,400 (HBR2) or 8,100 (HBR3) (R58, R64). -/
structure DpFormat where
  width : Nat
  height : Nat
  bpc : Nat
  rgb444 : Bool
  pixelMHz : Nat
  lanes : Nat
  laneMbps : Nat
deriving DecidableEq, Repr

/-- A frame received on an Ethernet path: its bytes from destination MAC to last payload byte, whether its FCS is right, whether the path's
receive buffer or the write capacity was exhausted when it came (R126), and its arrival in µs (R113, R129). -/
structure EthFrame where
  bytes : List Byte
  fcsOk : Bool
  overrun : Bool
  arrivalUs : Nat
deriving DecidableEq, Repr

/-- The sender of a datagram on an Ethernet path: MAC address, IPv4 address, UDP port, VLAN tag, and the sub-port it came by (R70). -/
structure NetPeer where
  mac : Nat
  ip : Nat
  port : Nat
  vlan : Option Nat
  sub : Nat
deriving DecidableEq, Repr

/-- What a console command line asks of the Belfry (R75): a register read, a register write, or anything else. -/
inductive ConsoleOp where
  | readReg (addr : Nat)
  | writeReg (addr : Nat) (data : Word)
  | other
deriving DecidableEq, Repr

end Sys2Proof
end

