-- ==== Sys2Proof/Syntax.lean ====
section
/-! DEFINITION. The commands of the block, one constructor for each row of spec/opcode_table.json, with the operands a command carries in. -/

namespace Sys2Proof

/-- The commands. Each constructor cites its row's rule. -/
inductive Instr where
  /-- REGISTER_WRITE (R30): A write to a register that has no row of its own: it is checked for alignment, size and address, and live, shadowed or quiesce fields are updated by class. -/
  | registerWrite (w : BusWrite) (same : List BusWrite)
  /-- PAGE_ENABLE (R35): EN is set on a page; the block starts with the Q values present at that instant. -/
  | pageEnable (o : Origin) (page : Nat)
  /-- PAGE_DISABLE (R35): EN is cleared on a page; the block stops as its chapter states. -/
  | pageDisable (o : Origin) (page : Nat)
  /-- COMMIT (R38): COMMIT is set; the page's shadowed fields are marked for transfer at the next apply point, or within 16 cycles if the reference is not running. -/
  | commit (o : Origin) (page : Nat)
  /-- APPLY_POINT (R38): The apply point of a page's reference is reached; a pending commit moves all shadowed fields into use at one edge. -/
  | applyPoint (ref : ApplyRef)
  /-- SRST (R37): A block soft reset returns the datapath to reset, clears EVT_RAW and discards a pending commit. -/
  | srst (o : Origin) (page : Nat)
  /-- SRST_COMPLETE (R37): A block soft reset ends within 64 FAB_CLK cycles and SRST reads 0. -/
  | srstComplete (page : Nat)
  /-- EVT_FORCE (R44): A write of 1 to EVT_FORCE sets the EVT_PEND bit as if the event had occurred. -/
  | evtForce (o : Origin) (page : Nat) (bits : Word)
  /-- VEC_EOI (R45): A vector number is written to VEC_EOI; the message is sent again if the vector's summary is 1. -/
  | vecEoi (o : Origin) (vector : Nat)
  /-- MSIX_UNMASK (R45): A vector is unmasked in the MSI-X table; its message is sent if its summary is 1. -/
  | msixUnmask (o : Origin) (vector : Nat)
  /-- ALERT_N_RELEASE (R55): ALERT_N is released within 1 µs after the last selected summary returns to 0. -/
  | alertNRelease
  /-- CLR_FIRST (R48): ERR_CTRL.CLR_FIRST clears ERR_FIRST and unlocks it. -/
  | clrFirst (o : Origin) (page : Nat)
  /-- CLR_WORST (R48): ERR_CTRL.CLR_WORST clears ERR_WORST. -/
  | clrWorst (o : Origin) (page : Nat)
  /-- CLR_COUNT (R48): ERR_CTRL.CLR_COUNT clears ERR_COUNT including OVERFLOW. -/
  | clrCount (o : Origin) (page : Nat)
  /-- FLIP_ARM (R321): FLIP_ARM arms the page's flip mask for the next write to that bank or port. -/
  | flipArm (o : Origin) (page : Nat)
  /-- USB4_LINK_CHANGE (R56): The USB4 link comes up, changes generation or goes down, and LINK is updated. -/
  | usb4LinkChange (gen lanes : Nat) (pcie dp usb2 : Bool)
  /-- PCIE_ERR (R59): A malformed TLP or an unsupported request is received by the endpoint. -/
  | pcieErr
  /-- DMA_START (R61): START begins the described DMA transfer, or sets ERR for a busy channel or a bad range. -/
  | dmaStart (o : Origin) (channel : Nat)
  /-- DMA_DONE (R61): A DMA transfer completes and DONE is set. -/
  | dmaDone (channel : Nat) (hostData : List Byte)
  /-- DMA_HOST_ERROR (R61): A host completion error stops the transfer at the failing unit and sets ERR code 3. -/
  | dmaHostError (channel units : Nat) (hostData : List Byte)
  /-- DP_STREAM_FRAME (R65): A DP IN frame is written into the DP store ring and LAST_FRAME advances. -/
  | dpStreamFrame (f : DpFrame)
  /-- DP_FORMAT (R64): A DP stream outside the limits is offered and is not written. -/
  | dpFormat (f : DpFormat)
  /-- DP_LOST (R66): The DP stream is lost: LOCK falls and layers sourcing it turn transparent. -/
  | dpLost
  /-- DP_LOCK (R66): The DP stream is within limits again and LOCK rises. -/
  | dpLock (f : DpFormat)
  /-- RECOVERY_BLOCK (R67): In USB 2.0 recovery an image block is received after its offset request. -/
  | recoveryBlock (offset : Nat) (data : List Byte)
  /-- RECOVERY_FINAL (R67): The final recovery request checks the image, programs slot A and restarts, or stalls on failure. -/
  | recoveryFinal
  /-- SRP_REQUEST (R68): An SRP datagram is received; it is validated, its words are accessed in order, and a response is sent. -/
  | srpRequest (path : Nat) (peer : NetPeer) (datagram : List Byte)
  /-- ARP_REQUEST (R70): An ARP request for SRP.IPV4 is answered on the enabled path. -/
  | arpRequest (path : Nat) (peer : NetPeer) (target : Nat)
  /-- RELAY_READ (R72): A host read of the relay window becomes a MGMT read request to the target tile. -/
  | relayRead (o : Origin) (a : ReadAcc)
  /-- RELAY_WRITE (R72): A host write of the relay window is queued and sent in order as a MGMT write request. -/
  | relayWrite (o : Origin) (addr : Nat) (data : Word)
  /-- RELAY_RESPONSE (R72): A MGMT response arrives for the outstanding relay access and completes it. -/
  | relayResponse (cell : Nat)
  /-- RELAY_TIMEOUT (R72): No response arrives within RELAY.TIMEOUT; a read returns all ones and the next queued write is sent. -/
  | relayTimeout
  /-- CONSOLE_COMMAND (R75): A command line arrives on the console UART and is served by the Belfry. -/
  | consoleCommand (op : ConsoleOp)
  /-- JTAG_REGISTER_ACCESS (R76): A JTAG register-access instruction reaches the 24-bit space with origin JTAG. -/
  | jtagRegisterAccess (write : Bool) (addr : Nat) (data : Word)
  /-- WIDE_VALUE_LOW_READ (R79): A read of the lowest word of a wide value latches its upper words for the reading path. -/
  | wideValueLowRead (o : Origin) (a : ReadAcc)
  /-- TIME_WRAP (R80): TIME_NS wraps past 0xFFFF_FFFF and WRAPS increments. -/
  | timeWrap
  /-- TIME_INC_WRITE (R81): TIME_INC is written, limited to ±1,000 ppm, and takes effect at the next tick. -/
  | timeIncWrite (o : Origin) (inc : Word)
  /-- TIME_ADJ (R82): A signed step written to TIME.ADJ is added to TIME_NS at the next tick. -/
  | timeAdj (o : Origin) (adj : Word)
  /-- PTP_TIMESTAMP_CAPTURE (R84): A PTP event message crosses the PCS boundary and its time is pushed to the path FIFO, or discarded if full. -/
  | ptpTimestampCapture (path dir msgType seqId ticks frac : Nat)
  /-- TS_POP (R84): A read of TS_A or TS_B word 0 removes the oldest timestamp and latches word 1. -/
  | tsPop (o : Origin) (path : Nat)
  /-- TS_FLUSH (R84): TS_CTRL.FLUSH empties both timestamp FIFOs. -/
  | tsFlush (o : Origin)
  /-- BAR_START (R91): The generator reaches a bar start, measures the phase error and sets the bar and beat lengths by catch-up. -/
  | barStart
  /-- BEAT_START (R13): The generator reaches the start of a beat other than the first of its bar. -/
  | beatStart
  /-- REF_IN_EDGE (R89): A REF_IN edge is sampled and taken as an ideal bar start if valid. -/
  | refInEdge (ns : Nat)
  /-- REF_IN_LOSS (R90): Three bars pass without a valid REF_IN edge and the generator moves to FALLBACK. -/
  | refInLoss
  /-- DOWNBEAT_LAUNCH (R100): A DOWNBEAT cell for a bar or beat is launched at the first usable cell boundary, pre-empting other cells. -/
  | downbeatLaunch
  /-- MODE_CHANGE_APPLY (R183): A MODE_SEL commit applies: scan-out stops, queued cells are discarded and the new lattice is entered. -/
  | modeChangeApply
  /-- ECHO_SEND (R203): Every 1 ms an enabled port sends an ECHO request to its neighbour. -/
  | echoSend (port : Nat)
  /-- ECHO_FAIL (R203): An ECHO request gets no response within 3 ms. -/
  | echoFail (port : Nat)
  /-- TILE_BEAT_START (R102): WALL_DEPTH − D_in after arrival the tile starts its bar or beat, testing launch entries and choosing the image. -/
  | tileBeatStart
  /-- DB_MISSING (R105): No valid downbeat arrives by 1/16 bar after a bar's expected start; the tile runs on its flywheel. -/
  | dbMissing
  /-- FLY_BARS_EXPIRE (R242): FLY_BARS bars pass on the flywheel and the holding image is shown if valid. -/
  | flyBarsExpire
  /-- LAUNCH_PUSH (R99): An entry is pushed to the launch queue, or dropped if the queue is full or KIND is reserved. -/
  | launchPush (o : Origin) (word : Word)
  /-- LAUNCH_CANCEL_ALL (R97): LAUNCH.CANCEL with ALL removes every pending entry. -/
  | launchCancelAll (o : Origin)
  /-- LAUNCH_CANCEL_TAG (R97): LAUNCH.CANCEL without ALL removes the entries carrying TAG. -/
  | launchCancelTag (o : Origin) (tag : Nat)
  /-- CUE_LOAD_DONE (R155): A CUE load completes, committing every LAYER page, or fails and changes nothing. -/
  | cueLoadDone
  /-- MASTER_DOWNBEAT_ARRIVE (R107): A follower receives a master downbeat on IN_PORT, launches its own and forwards it. -/
  | masterDownbeatArrive (cell ns interval : Nat)
  /-- STACK_MISS (R109): A master downbeat is missed at a follower, which launches from its own extrapolated lattice. -/
  | stackMiss
  /-- ETH_LINK_CHANGE (R110): An Ethernet path or sub-port link comes up or goes down. -/
  | ethLinkChange (path : Nat) (link localFault remoteFault : Bool) (subUp fecLock : Nat)
  /-- ETH_FRAME_RECEIVE (R113): A received Ethernet frame is classified and passed to a flow, SRP or the control ring, or dropped. -/
  | ethFrameReceive (path sub : Nat) (f : EthFrame)
  /-- ETH_FEC_UNCORR (R111): The PCS marks an uncorrectable codeword and its frames fail the FCS. -/
  | ethFecUncorr (path frames : Nat)
  /-- GAP_WAIT_EXPIRE (R124): A gap wait ends with the line incomplete, and the line is concealed from the last frame. -/
  | gapWaitExpire (flow : Nat)
  /-- FLOW_STOP (R130): No valid packet arrives for TIMEOUT; the flow enters STOPPED and its watermark is withdrawn. -/
  | flowStop (flow : Nat)
  /-- PATH_LOSS (R129): A merged flow receives nothing on one path for TIMEOUT. -/
  | pathLoss (flow path : Nat)
  /-- HOLD_EXPIRE (R130): HOLD bars after STOPPED pass and the layers show their fallback colour. -/
  | holdExpire (flow : Nat)
  /-- CTL_TX_GO (R117): GO sends a control frame from DRAM on the path. -/
  | ctlTxGo (o : Origin) (path sub len : Nat)
  /-- CTL_TX_DONE (R117): A control frame has been sent and BUSY clears. -/
  | ctlTxDone (path : Nat)
  /-- CANVAS_RELEASE (R135): A canvas is released; layers bind their source frames and band 0 is dispatched. -/
  | canvasRelease
  /-- BAND_DISPATCH (R133): A band is dispatched and its tasks are offered once any chase or buffer wait is over. -/
  | bandDispatch
  /-- BAND_CHASE_READY (R156): The watermarks of a waiting band's chase layers reach the lines needed and the band is offered. -/
  | bandChaseReady
  /-- CANVAS_BUFFER_FREE (R136): Scan-out finishes reading a feed buffer and a canvas waiting for it may write. -/
  | canvasBufferFree (feed buf : Nat)
  /-- MAP_TASK_COMPLETE (R133): An engine completes a task of 256 pixels and takes the oldest task not yet taken. -/
  | mapTaskComplete (engine : Nat) (upsets : List (Nat × Nat))
  /-- BAND_COMPLETE (R133): All pixels of a band have been written to DRAM. -/
  | bandComplete (ticks : Nat)
  /-- CANVAS_LATE (R157): A canvas or band is not complete by its deadline. -/
  | canvasLate
  /-- MAPCTL_TAB_DATA (R137): A TAB_DATA access writes or reads the engine table shadow at INDEX and advances INDEX. -/
  | mapctlTabData (o : Origin) (write : Option Word)
  /-- LEAD_MIN_CLR (R158): LEAD_MIN.CLR sets LINES to 0x7FFF. -/
  | leadMinClr (o : Origin)
  /-- SCAN_LINE_START (R167): The scan-out line counter reaches the start of a line, which is the apply instant of that line. -/
  | scanLineStart
  /-- SCAN_CANVAS_LINE0 (R179): Line 0 of a canvas begins, at S_m or late once the canvas or band completes. -/
  | scanCanvasLine0
  /-- SCAN_CELL_READ (R174): A ready pixel cell is read from DRAM into its port's egress queue. -/
  | scanCellRead (engine port : Nat)
  /-- SCAN_DATA_RETURN (R181): DRAM data for a queued pixel cell returns, or is discarded if the cell has left. -/
  | scanDataReturn (port : Nat)
  /-- UNDERRUN_WAIT_EXPIRE (R181): A cell's data has not returned UNDERRUN_WAIT after it reaches the queue head; it is sent as HOLD. -/
  | underrunWaitExpire (port : Nat)
  /-- TILETAB_DATA (R171): A TILETAB.DATA access writes or reads the table shadow word at INDEX and advances INDEX. -/
  | tiletabData (o : Origin) (write : Option Word)
  /-- PORT_MARGIN_CLR (R178): PORT_MARGIN.CLR sets the port margin to 0x7FFF. -/
  | portMarginClr (o : Origin) (port : Nat)
  /-- PREVIEW_DONE (R185): The last write of a preview frame is sent and the buffer alternates. -/
  | previewDone
  /-- PREVIEW_ERR (R186): A host completion error ends a preview frame at once. -/
  | previewErr
  /-- CELL_SLOT (R206): A sender fills one cell slot with the first waiting cell type, leaving reserved slots IDLE. -/
  | cellSlot (port : Nat)
  /-- MARKER_SEND (R191): An alignment marker is sent on D0, D1 and SP every 16,384 blocks. -/
  | markerSend (port : Nat)
  /-- MARKER_RECEIVE (R192): A marker is received; lanes align, the cell grid resumes and the lane map may change. `bits` are the 66 of its block, the sync header on top. -/
  | markerReceive (port lane bits : Nat)
  /-- BLOCK_LOCK_CHANGE (R192): A lane gains or loses block lock. -/
  | blockLockChange (port lane : Nat) (blocks : List LineBlock)
  /-- CELL_RECEIVE (R210): A cell arrives at a tile; it is corrected, forwarded with fixed delay and taken if addressed. -/
  | cellReceive (port : Nat) (blocks : List LineBlock) (arrivalPs measured : Nat)
  /-- TILE_CELL_INSERT (R207): A tile inserts one queued cell into an idle or freed slot, at most one per 1,024 slots. -/
  | tileCellInsert (port : Nat)
  /-- MONITOR_RECEIVE (R205): A sender accepts a MONITOR cell into the status table or monitor ring, or discards a second copy. -/
  | monitorReceive (port : Nat) (cell : Nat)
  /-- MONITOR_STATUS_SEND (R204): Every STATUS_BARS bars a tile queues a STATUS cell. -/
  | monitorStatusSend
  /-- MONITOR_IDENTITY_SEND (R204): A tile queues an IDENTITY cell at link-up and every 1 s for 10 s. -/
  | monitorIdentitySend
  /-- DIRECTION_LOST (R213): A ring direction is lost and the tile takes timing from the other direction. -/
  | directionLost (port : Nat)
  /-- CLK_LOSS (R188): A port's forwarded clock is lost; the transmitter moves to REFCLK_A and sources markers with SRC_LOST. -/
  | clkLoss (port : Nat)
  /-- LINK_UP (R22): A port enters UP, SPARED or REDUCED, or its markers return to SRC_LOST 0; the tile renumbers on its numbering port. -/
  | linkUp (port : Nat)
  /-- PORT_TRAIN_START (R215): A port is enabled with a non-zero mode and enters TRAIN. -/
  | portTrainStart (port : Nat)
  /-- PORT_TRAINED (R215): Both directions of a port finish training and it enters UP, SPARED or REDUCED. -/
  | portTrained (port : Nat) (lanes : Training)
  /-- PORT_TRAIN_TIMEOUT (R215): A port is not trained within 100 ms and enters FAILED. -/
  | portTrainTimeout (port : Nat)
  /-- PORT_FAILED_RETRY (R215): A FAILED port returns to TRAIN after 1 s. -/
  | portFailedRetry (port : Nat)
  /-- LANE_CAL_INTERPOLATE (R216): Every 1 ms lane settings are interpolated from the calibration sets at the port's sensor temperature. -/
  | laneCalInterpolate (port : Nat)
  /-- RECAL_PERIOD (R217): PERIOD_S expires and the next lane is recalibrated through the spare. -/
  | recalPeriod (port : Nat)
  /-- RECAL_NOW (R217): RECAL.NOW starts recalibration of the next lane. -/
  | recalNow (o : Origin) (port : Nat)
  /-- RECAL_COMPLETE (R217): A recalibration ends and the logical lane moves back at a marker. -/
  | recalComplete (port width height : Nat) (setting : Word)
  /-- EYE_MEASURE (R218): Every 100 ms the eye monitor measures each lane in use. -/
  | eyeMeasure (port : Nat) (widths heights : List Nat)
  /-- LANE_RETIRE_CMD (R219): LANE_CMD.RETIRE retires the named lane. -/
  | laneRetireCmd (o : Origin) (port lane : Nat)
  /-- LANE_RESTORE (R219): LANE_CMD.RESTORE retrains retired lanes at their next recalibration slot. -/
  | laneRestore (o : Origin) (port : Nat)
  /-- REDUCED (R221): In LINE the chain changes to reduced rate at a marker on NEED_REDUCE or FORCE. -/
  | portReduced (port : Nat)
  /-- FULL_RATE_RESTORE (R221): NEED_REDUCE absent for 10 s with FORCE clear returns the port to full rate. -/
  | fullRateRestore (port : Nat)
  /-- FENCED (R222): In ring modes a link with one usable lane is fenced and the ring heals. -/
  | portFenced (port : Nat)
  /-- TEST_ERR (R223): The pattern checker sees the first error after lock. -/
  | testErr (port lane : Nat) (bits : List Bool)
  /-- PORT_TEST_CLR (R223): PORT.TEST.CLR clears the checker error counters. -/
  | portTestClr (o : Origin) (port : Nat)
  /-- INJECT_ONCE (R224): INJECT.ONCE inverts a burst of bits in the next block. -/
  | injectOnce (o : Origin) (port : Nat)
  /-- INJECT_REPEAT (R224): Every INJECT_EVERY blocks a burst is injected while REPEAT is set. -/
  | injectRepeat (port : Nat)
  /-- PORT_CAL_DATA (R216): A CAL_DATA access reads or writes the stored set at CAL_ADDR and advances it. -/
  | portCalData (o : Origin) (port : Nat) (write : Option Word)
  /-- PIXEL_CELL_PROCESS (R229): Lamp engines take a cell from the receive queue and write corrected levels into its build. -/
  | pixelCellProcess (engine : Nat) (upsets : List (Nat × Nat))
  /-- IMAGE_COMPLETE (R237): The fill of a closed build ends and it becomes the newest complete image of its feed. -/
  | imageComplete (atPs : Nat)
  /-- PASS_BOUNDARY (R257): A pass boundary applies due changes in order and starts the next pass or a wait. -/
  | passBoundary
  /-- PASS_WAIT_END (R239): A waiting pass starts at image completion or at w_max with the previous image. -/
  | passWaitEnd
  /-- TILE_TEMP_FACTOR (R231): Every 1 ms the band temperature factors are recomputed. -/
  | tileTempFactor
  /-- HOLD_IMAGE_PREPARE (R245): The Belfry processes a holding image into a pool buffer, on SHOW, a commit or every 1 s. -/
  | holdImagePrepare
  /-- HOLD_IMAGE_READY (R245): A processed holding image is shown from the next beat boundary. -/
  | holdImageReady
  /-- DOSE_UPDATE (R247): After each bar the lamp engines add the bar's dose to every counter. -/
  | doseUpdate
  /-- DOSE_FLUSH (R248): Hourly the Belfry adds each counter to the flash total and subtracts it atomically. -/
  | doseFlush
  /-- AGEING_GAIN_UPDATE (R249): Daily the Belfry computes gains into the inactive table and commits GAIN_SEL. -/
  | ageingGainUpdate
  /-- EOTF_TAB_DATA (R232): An EOTF.TAB_DATA access writes both engines' shadow or reads at INDEX and advances it. -/
  | eotfTabData (o : Origin) (write : Option Word)
  /-- TC_DATA (R231): A CORRECT.TC_DATA access writes or reads the temperature table at INDEX and advances it. -/
  | tcData (o : Origin) (write : Option Word)
  /-- MARGIN_MIN_CLR (R240): TILERX.MARGIN_MIN.CLR sets US to 0x7FFF. -/
  | marginMinClr (o : Origin)
  /-- ROW_SLOT_START (R255): A row slot starts: clamp, dead time, row gate and pulses, with next on-times sent over the link. -/
  | rowSlotStart (link : List (Nat × Nat)) (volts : List (Nat × Nat))
  /-- NEIGHBOUR_SLOT (R269): Every 64th pass a neighbour slot runs in the slack, or moves on when slack is short. -/
  | neighbourSlot (falls : List (Nat × Nat × Nat × Nat))
  /-- TRIM_MEASURE_DONE (R267): A sink's 256 dead-time measurements end; its residual is stored and the trim sets corrected. -/
  | trimMeasureDone (band : Nat) (r : Int)
  /-- TRIM_INTERPOLATE (R266): Every 1 ms trim codes are interpolated at the band temperature. -/
  | trimInterpolate
  /-- FADE_GO (R263): FADE.GO starts a fade to the targets over BARS bars. -/
  | fadeGo (o : Origin) (word : Word)
  /-- DIAG_CLEAR (R273): DIAG.CLEAR resets every entry and force at the next pass boundary. -/
  | diagClear (o : Origin)
  /-- SPL_DATA (R259): An SPL_DATA access writes or reads the short-pulse LUT and advances the index. -/
  | splData (o : Origin) (write : Option Word)
  /-- TRIM_DATA (R266): A TRIM_DATA access writes or reads a trim code and advances the channel. -/
  | trimData (o : Origin) (band : Nat) (write : Option Word)
  /-- DIAG_TAB_DATA (R270): A read of DIAG.TAB_DATA returns the entry of emitter E and advances E. -/
  | diagTabData (o : Origin)
  /-- CLAP_PEER_CHANGE (R278): The filtered CLAP_PEER input changes. -/
  | clapPeerChange (level : Bool)
  /-- CLAIM (R279): CLAP_PEER deasserted for 20 µs with a claim condition; the unit asserts CLAP_OWN and enters CLAIMING. -/
  | claim
  /-- CLAIM_COMPLETE (R280): The 20 µs claim window ends with CLAP_PEER deasserted. -/
  | claimComplete
  /-- CONTEND_RELEASE (R280): 10 µs after contention the slot 1 unit releases CLAP_OWN. -/
  | contendRelease
  /-- SOLO_ASSERT (R276): A SOLO unit asserts CLAP_OWN after CLAP_PEER reads deasserted for 20 µs. -/
  | soloAssert
  /-- FORCE_RELEASE (R300): FORCE_RELEASE releases CLAP_OWN at once and enters RELEASED. -/
  | forceRelease (o : Origin)
  /-- CLEAR_RELEASE (R300): CLEAR_RELEASE returns a released unit to SYNCING or STANDBY. -/
  | clearRelease (o : Origin)
  /-- TOLL_SEND (R282): Every TOLL_PERIOD a unit sends a heartbeat on the sideband and in TOLL cells. -/
  | tollSend
  /-- HEARTBEAT_RECEIVE (R282): A TOLL frame or cell is taken on a path, restarting its timer. -/
  | heartbeatReceive (ring : Bool) (seq state slot : Nat)
  /-- TOLL_MISS (R283): TOLL_PERIOD passes without a heartbeat on a path; after the limit the path fails. -/
  | tollMiss (ring : Bool)
  /-- SIDEBAND_FRAME_RECEIVE (R284): A TOLL sideband frame is received and checked, or discarded on a bad CRC. -/
  | sidebandFrameReceive (bytes : List Byte) (ns interval measured : Nat)
  /-- BEAT_FRAME_MISS (R286): An expected BEAT frame is missing and handled as a missed master downbeat. -/
  | beatFrameMiss
  /-- SIDEBAND_ECHO_SEND (R285): Every 1 ms an ECHO frame measures the sideband delay. -/
  | sidebandEchoSend
  /-- EPOCH_START (R290): CHANGE_MS after a change or EPOCH_MS after the last, the active unit snapshots and sends an epoch. -/
  | epochStart
  /-- MIRROR_SENT (R290): The active unit commits an epoch. -/
  | mirrorSent
  /-- MIRROR_CMD_FULL (R292): MIRROR.CMD.FULL makes the active send, or the standby request, a full set. -/
  | mirrorCmdFull (o : Origin)
  /-- SET_APPLY (R293): At the next bar boundary the standby applies a complete set. -/
  | setApply
  /-- MIRROR_APPLIED (R293): A set apply ends and the standby sends ACK. -/
  | mirrorApplied
  /-- EPOCH_FRAME_LATE (R294): An epoch's next frame is more than 10 ms late and its set is discarded. -/
  | epochFrameLate
  /-- SRAM_WINDOW_WRITE (R302): A write through the SRAM window replaces whole words or enters the merge buffer, subject to ownership. -/
  | sramWindowWrite (offset : Nat) (bytes : List (Option Byte))
  /-- SRAM_WINDOW_READ (R302): A read through the SRAM window returns checked bytes, marked poisoned where uncorrectable. -/
  | sramWindowRead (o : Origin) (offset n : Nat)
  /-- OWNER_WRITE (R305): A write to BANK.OWNER starts a handover. -/
  | ownerWrite (o : Origin) (bank v : Nat)
  /-- HANDOVER_SWITCH (R305): Within 64 cycles the handover completes and the new owner is served. -/
  | handoverSwitch (bank : Nat)
  /-- ATOMIC (R308): An atomic add or swap reads, computes and writes a word as one locked operation. -/
  | atomicOp (byBelfry add : Bool) (master offset size operand : Nat)
  /-- MERGE_RETIRE (R310): A merge entry is retired by a locked read-modify-write. -/
  | mergeRetire (bank : Nat)
  /-- SCRUB_READ (R317): The scrubber reads its next word and writes it back corrected or poisoned. -/
  | scrubRead (mem : Nat)
  /-- SCRUB_NOW (R317): SCRUB.NOW starts a new pass of every memory. -/
  | scrubNow (o : Origin)
  /-- BANK_REMAP_WRITE (R318): Writing VALID of a word remap entry copies the word to or from its spare. -/
  | bankRemapWrite (o : Origin) (bank entry : Nat) (w : Word)
  /-- DRAM_REMAP_WRITE (R319): Writing VALID of a DRAM remap entry starts a background row copy. -/
  | dramRemapWrite (o : Origin) (w : Word)
  /-- REMAP_DONE (R319): A word or row copy completes and the redirect is made. -/
  | remapDone (dram : Bool) (unit entry : Nat)
  /-- SPLIT_GO (R322): SPLIT.GO stores data or check bits alone, or is refused. -/
  | splitGo (o : Origin) (word : Word)
  /-- SRAM_FILL_DONE (R316): The start-up SRAM fill completes and SRAM_FILLED reads 1. -/
  | sramFillDone
  /-- DRAM_FILL_DONE (R316): The start-up DRAM fill completes and DRAM_FILLED reads 1. -/
  | dramFillDone
  /-- DRAM_READ (R329): A DRAM read checks tag and syndrome and returns data, poisoned where bad. -/
  | dramReadCmd (master : Nat) (bar2 : Bool) (addr len : Nat) (hitsPending : Bool)
  /-- DRAM_WRITE (R330): A DRAM write stores whole words with check slots or merges partial words. -/
  | dramWriteCmd (master : Nat) (bar2 : Bool) (addr : Nat) (bytes : List (Option Byte))
  /-- REFRESH_DUE (R337): A bank's refresh interval passes and its debt grows, forcing refresh at 8. -/
  | refreshDue (port rank chan bank : Nat) (rtRun : Bool)
  /-- MR4_POLL (R336): Every 1 ms MR4 is read and the refresh multiplier updated. -/
  | mr4Poll (port rank chan code : Nat) (hot : Bool)
  /-- POWER_DOWN_ENTRY (R338): A rank idle for PD_TIMER enters power-down. -/
  | powerDownEntry (port rank : Nat)
  /-- DQS_TRACK (R340): Every 100 ms each channel corrects its write DQ delays for drift. -/
  | dqsTrack (port chan : Nat) (drift : Int)
  /-- DRAM_RETRAIN_CMD (R341): DRAM CMD.RETRAIN starts a sliced retraining of the port. -/
  | dramRetrainCmd (o : Origin) (port : Nat)
  /-- DRAM_RETRAIN_SLICE (R341): A retraining slice runs on one channel. -/
  | dramRetrainSlice (port : Nat) (found : Bool)
  /-- ECC_RATE_WINDOW (R343): A 1 s window of corrections ends and may trigger a rate step. -/
  | eccRateWindow (port : Nat)
  /-- DRAM_RATE_STEP (R343): At a bar boundary the port stalls and retrains at the next grade. -/
  | dramRateStep (port : Nat)
  /-- RATE_STEP_DONE (R343): A rate step ends and stalled requests are served. -/
  | rateStepDone (port : Nat) (grade : Option Nat)
  /-- RATE_RESTORE (R343): DRAM CMD.RATE_RESTORE steps the port to RATE_MAX at the next bar boundary. -/
  | rateRestore (o : Origin) (port : Nat)
  /-- DRAM_PORT_FAIL (R344): A port would step below 6400 MT/s or loses training and becomes FAILED. -/
  | dramPortFail (port : Nat)
  /-- DRAM_INIT_TRAIN (R339): At start each port trains, stepping down the grades on timeout. -/
  | dramInitTrain (port ranks rankMib : Nat) (uniform : Bool) (grade : Option Nat)
  /-- DRAM_REF_CLR (R337): DRAM REF.CLR clears DEBT_MAX. -/
  | dramRefClr (o : Origin) (port : Nat)
  /-- LOCKSTEP (R347): A lockstep mismatch restarts the Belfry. -/
  | lockstep
  /-- BELFRY_BUS_ERR (R348): A Belfry load returns poison or addresses nothing. -/
  | belfryBusErr
  /-- KICK (R349): A watchdog kick, with a restart if it arrives early. -/
  | kick (o : Origin) (value : Word) (ms : Nat)
  /-- WATCHDOG_TIMEOUT (R349): No kick arrives within WDOG.TIMEOUT and the Belfry restarts. -/
  | watchdogTimeout
  /-- BELFRY_CMD_RESTART (R350): BELFRY.CMD.RESTART restarts the Belfry with cause 3. -/
  | belfryCmdRestart (o : Origin)
  /-- BELFRY_RESTART (R350): A restarted Belfry image is running. -/
  | belfryRestart
  /-- SENSOR_SAMPLE (R353): Every 1 ms a sensor sample is validated and substitutes and the hottest value are updated. -/
  | sensorSample (raws : List Int)
  /-- THERMAL_MASK_WRITE (R353): Setting or clearing a MASK bit fails or starts recovery of a sensor. -/
  | thermalMaskWrite (o : Origin) (mask : Word)
  /-- THROTTLE_EVALUATE (R357): Every 10 ms each throttle controller sets its level. -/
  | throttleEvaluate
  /-- KNELL_SHUTDOWN (R361): Within 10 µs of the knell transmitters and clocks stop and the sequencer takes the flash. -/
  | knellShutdown
  /-- KNELL_FLASH_END (R361): A flash operation at the knell completes or is aborted, and the knell record is programmed and KNELL latched. -/
  | knellFlashEnd (outcome : Nat)
  /-- KNELL_PRIOR (R363): At start the Belfry copies knell records into the log and erases the slot. -/
  | knellPrior
  /-- VOLTAGE_SAMPLE (R364): Every 100 µs the rail monitors sample and flag LOW or HIGH after 3 samples. -/
  | voltageSample (mvs : List Nat)
  /-- DEBUG_UNLOCK_WRITE (R368): A write of UNLOCK sets it from BELFRY or JTAG or clears it. -/
  | debugUnlockWrite (o : Origin) (value : Bool)
  /-- LOG_FLUSH (R367): At least every 100 ms the Belfry programs gathered records into log pages. -/
  | logFlush
  /-- LOG_READ (R366): A write of READ_SEQ fetches the log record with that SEQ. -/
  | logRead (o : Origin) (seq : Word)
  /-- LOG_READ_DONE (R366): A log fetch completes and READY sets. -/
  | logReadDone
  /-- JOURNAL_WRITE (R371): A journaled copy is erased, programmed, read back and committed. -/
  | journalWrite (area index : Nat) (ok1 ok2 : Bool)
  /-- BOOT_IMAGE_SELECT (R375): The boot ROM checks and chooses the slot to run, or enters recovery. -/
  | bootImageSelect
  /-- OPEN (R376): UPDATE OPEN erases the slot that is not running. -/
  | updateOpen (o : Origin)
  /-- ERASE_DONE (R376): The staging slot is erased and UPDATE enters OPEN. -/
  | eraseDone (flashOk : Bool)
  /-- BLOCK_DATA (R376): A BLOCK_DATA write stores the next 4 bytes of the staging block. -/
  | blockData (o : Origin) (w : Word)
  /-- WRITE (R376): UPDATE WRITE programs the buffered block. -/
  | updateWrite (o : Origin)
  /-- BLOCK_PROGRAMMED (R376): A staging block is programmed and BLOCK_BUSY clears. -/
  | blockProgrammed (flashOk : Bool)
  /-- SEND (R378): UPDATE SEND starts the BULK transmitter. -/
  | bulkSend (o : Origin)
  /-- BULK_CELL_SEND (R378): The BULK transmitter sends its next paced cell on each selected port. -/
  | bulkCellSend
  /-- VERIFY (R379): UPDATE VERIFY reads back and checks the staged slot. -/
  | updateVerify (o : Origin)
  /-- VERIFY_DONE (R379): The check ends, appending STAGED or failing. -/
  | verifyDone (flashOk : Bool)
  /-- ABORT (R379): UPDATE ABORT returns to IDLE. -/
  | updateAbort (o : Origin)
  /-- ACTIVATE (R380): ACTIVATE programs the log, appends TRIAL and restarts the Belfry. -/
  | activate (o : Origin)
  /-- CONFIRM (R382): CONFIRM appends CONFIRMED to the trial slot. -/
  | confirm (o : Origin)
  /-- CONFIRM_TIMEOUT (R382): A trial image is not confirmed in time and rolls back. -/
  | confirmTimeout
  /-- SAVE (R383): SETTINGS SAVE writes a settings copy. -/
  | settingsSave (o : Origin)
  /-- LIST_DATA (R383): A LIST_DATA access writes or reads a save-list entry and advances INDEX. -/
  | listData (o : Origin) (write : Option Word)
  /-- SETTINGS_APPLY (R384): At start the Belfry reads and applies the settings copy, migrating or defaulting. -/
  | settingsApply (timedOut : Bool) (w h : Nat) (image : List Byte)
  /-- POWER_ON_RESET (R390): VDD_AON rises and a power-on reset clears the always-on domain. -/
  | powerOnReset
  /-- POWER_GOOD_TRUE (R386): Power-good becomes true and bring-up begins. -/
  | powerGoodTrue
  /-- DEVICE_RESET (R387): Power-good becomes false or RESET_N falls; outputs go safe within 100 ns. -/
  | deviceReset (cause rail : Nat)
  /-- STRAP_SAMPLE (R388): Straps are sampled 10 µs after power-good. -/
  | strapSample (pos slot boot : Nat)
  /-- RESET_CMD_DEVICE (R390): RESET.CMD.DEVICE starts a device reset within 1 µs. -/
  | resetCmdDevice (o : Origin)
  /-- PCIE_FUNCTION_RESET (R390): A hot reset, FLR or tunnel loss resets the endpoint and DMA channels. -/
  | pcieFunctionReset
  /-- JTAG_RESET (R390): TRST or a TMS sequence resets the TAP. -/
  | jtagReset
  /-- BRINGUP_STEP_END (R391): A bring-up step completes or times out and sets DONE and FAIL bits. -/
  | bringupStepEnd (step : Nat) (timedOut : Bool) (mask : Nat)
  /-- XTAL_PLL_RETRY (R391): The always-on domain retries the XTAL PLL every 10 ms after step 2 fails. -/
  | xtalPllRetry (locked : Bool)
  /-- PWM8_CLEAR (R394): PWM8 clears and full-resolution drive applies at the next pass boundary. -/
  | pwm8Clear
  /-- DEBUGGER_HALT (R349): The debugger halts the Belfry cores through RISC-V debug; HALTED sets and, with WDOG_HOLD and UNLOCK, the watchdog stops counting. -/
  | debuggerHalt
  /-- DEBUGGER_RESUME (R349): The debugger resumes the halted Belfry cores; HALTED clears and the watchdog counts again. -/
  | debuggerResume
  /-- JTAG_DEBUG_RESET (R350): A JTAG debug reset restarts the Belfry with cause 5. -/
  | jtagDebugReset
  /-- JTAG_EXTEST (R423): A boundary-scan EXTEST instruction puts the outputs under the boundary register, sinks held off, as the output-state table gives. -/
  | jtagExtest (clapOwn alertLow : Bool) (cells : List Bool)
deriving DecidableEq, Repr

end Sys2Proof
end

