-- ==== Sys2Proof/Decode.lean ====
section
/-! DEFINITION. The command that a word of the opcode table's bits spells: no row of the table gives bits, so no word spells a command. -/

namespace Sys2Proof

/-- The command spelled by the `nbits` bits of `w`, for the rows of the table that give bits: there are none. -/
def decodeTableWord (_nbits _w : Nat) : Option Instr := none

end Sys2Proof
end

