-- ==== Sys2Proof/Config.lean ====
section
/-! DEFINITION. What the specification leaves to the part, its fuses, straps, settings or adjustments, and the values it leaves open: constants without a body, so that no proof can rest on a value of theirs. -/

namespace Sys2Proof.Config

/-- Fresh open values: the `n`-th value the specification leaves open (assumption log 3). -/
opaque free : Nat → Nat

/-- The unique die identifier of the part, 64 bits (DEVICE.UID_LO and UID_HI, fuses). -/
opaque uid : Nat

/-- The forwarding delay FWD of the part, in picoseconds (R102, R208; BAR.FWD_DELAY is per part). -/
opaque fwdDelayPs : Nat

/-- Bar period, in 1/12 ns, of a reserved mode index: R86 leaves it open. -/
opaque reservedPeriod12 : Nat → Nat

/-- Beats of a reserved mode index: R86 leaves them open. -/
opaque reservedBeats : Nat → Nat

/-- Index of the 2 KiB of rank-local data that a DRAM row holds, by bank and row: the specification does not give how an offset maps to bank, row
and column (R326). -/
opaque dramRow : Nat → Nat → Nat

/-- The bank, of the 16 of a rank, that holds the 2 KiB of rank-local data of an index: the other side of the same mapping (R326). -/
opaque dramBank : Nat → Nat

/-- Word k of a memory whose content a host error of R320 has made unpredictable, by the number of the open value it took: its data in the low
128 bits, its syndrome above them. -/
opaque content : Nat → Nat → Nat

end Sys2Proof.Config
end

