-- ==== Sys2Proof/Machine/Ecc.lean ====
section
/-! DEFINITION. The SECDED(137,128) code of R311 to R314: columns, check bits, syndrome, decode, stored poison. -/

namespace Sys2Proof.Machine

/-- The columns H of data bits 0 to 127 (R311, the table). -/
def eccColumns : List (BitVec 9) :=
  [0x007, 0x00B, 0x00D, 0x00E, 0x013, 0x015, 0x016, 0x019] ++
  [0x01A, 0x01C, 0x023, 0x025, 0x026, 0x029, 0x02A, 0x02C] ++
  [0x031, 0x032, 0x034, 0x038, 0x043, 0x045, 0x046, 0x049] ++
  [0x04A, 0x04C, 0x051, 0x052, 0x054, 0x058, 0x061, 0x062] ++
  [0x064, 0x068, 0x070, 0x083, 0x085, 0x086, 0x089, 0x08A] ++
  [0x08C, 0x091, 0x092, 0x094, 0x098, 0x0A1, 0x0A2, 0x0A4] ++
  [0x0A8, 0x0B0, 0x0C1, 0x0C2, 0x0C4, 0x0C8, 0x0D0, 0x0E0] ++
  [0x103, 0x105, 0x106, 0x109, 0x10A, 0x10C, 0x111, 0x112] ++
  [0x114, 0x118, 0x121, 0x122, 0x124, 0x128, 0x130, 0x141] ++
  [0x142, 0x144, 0x148, 0x150, 0x160, 0x181, 0x182, 0x184] ++
  [0x188, 0x190, 0x1A0, 0x1C0, 0x01F, 0x02F, 0x037, 0x03B] ++
  [0x03D, 0x03E, 0x04F, 0x057, 0x05B, 0x05D, 0x05E, 0x067] ++
  [0x06B, 0x06D, 0x06E, 0x073, 0x075, 0x076, 0x079, 0x07A] ++
  [0x07C, 0x08F, 0x097, 0x09B, 0x09D, 0x09E, 0x0A7, 0x0AB] ++
  [0x0AD, 0x0AE, 0x0B3, 0x0B5, 0x0B6, 0x0B9, 0x0BA, 0x0BC] ++
  [0x0C7, 0x0CB, 0x0CD, 0x0CE, 0x0D3, 0x0D5, 0x0D6, 0x0D9]

/-- XOR of the columns of the set bits of the data, from data bit `j` on. -/
def eccXor : List (BitVec 9) → Nat → Word128 → BitVec 9
  | [], _, _ => 0
  | h :: t, j, d => (if d.getLsbD j then h else 0) ^^^ eccXor t (j + 1) d

/-- The check bits of a written word: the XOR of the columns of its set data bits (R311). -/
def eccCheck (d : Word128) : BitVec 9 := eccXor eccColumns 0 d

/-- The syndrome of a stored word (R311): check bit i has column 1 << i. -/
def eccSyndrome (d : Word128) (check : BitVec 9) : BitVec 9 := eccCheck d ^^^ check

/-- How a reader decodes a word (R312): correct, one bit corrected, stored poison, or uncorrectable. -/
inductive EccRead where
  | clean
  | corrected (data : Word128) (bit : Nat)
  | poison
  | uncorrectable (syndrome : BitVec 9)
deriving DecidableEq, Repr

/-- The position of a column in the list, if it is there. -/
def eccFind : List (BitVec 9) → Nat → BitVec 9 → Option Nat
  | [], _, _ => none
  | h :: t, j, s => if h = s then some j else eccFind t (j + 1) s

/-- The check bit whose column `1 << i` the syndrome is, if one is. -/
def eccFindCheck (s : BitVec 9) : Option Nat :=
  (List.range 9).find? (fun i => s = (1 : BitVec 9) <<< i)

/-- The decode of R312. -/
def eccDecode (d : Word128) (check : BitVec 9) : EccRead :=
  let s := eccSyndrome d check
  if s = 0 then .clean
  else if s = 0x1FF then .poison
  else match eccFind eccColumns 0 s with
    | some j => .corrected (d ^^^ ((1 : Word128) <<< j)) j
    | none =>
      match eccFindCheck s with
      | some i => .corrected d (128 + i)
      | none => .uncorrectable s

/-- The check bits of a word stored as poisoned (R314). -/
def eccPoison (d : Word128) : BitVec 9 := eccCheck d ^^^ 0x1FF

end Sys2Proof.Machine
end

