-- ==== Sys2Proof/Machine/Cell.lean ====
section
/-! DEFINITION. The 512-bit cell of the Susyn Chain: header, CRC-8, payload fields, its coded form on a link (R194 to R205), and marker payloads (R191). -/

namespace Sys2Proof.Machine

/-- CRC-8 with polynomial 0x07 over the bits `n-1` down to 0 of `v`, from `acc` (R191, R197). -/
def crc8 : Nat → Nat → Nat → Nat
  | 0, _, acc => acc
  | n + 1, v, acc =>
    let b := (v / 2 ^ n) % 2
    let top := acc / 128 % 2
    let sh := acc * 2 % 256
    crc8 n v (if (top + b) % 2 = 1 then Nat.xor sh 7 else sh)

/-- CRC-32 of IEEE 802.3, one byte at a time, before the final inversion (R366, R284). -/
def crc32Bits : Nat → Nat → Nat
  | 0, c => c
  | n + 1, c => crc32Bits n (if c % 2 = 1 then Nat.xor (c / 2) 0xEDB88320 else c / 2)

/-- CRC-32 of IEEE 802.3 over bytes. -/
def crc32 (l : List Byte) : Nat :=
  Nat.xor (l.foldl (fun c b => crc32Bits 8 (Nat.xor c b.toNat)) 0xFFFFFFFF) 0xFFFFFFFF

/-- The 512 data bits of a cell, as a number. -/
abbrev CellData := Nat

/-- Cell types (R198). -/
def ctIdle : Nat := 0
def ctPixel : Nat := 1
def ctDownbeat : Nat := 2
def ctMgmt : Nat := 3
def ctBulk : Nat := 4
def ctToll : Nat := 5
def ctEcho : Nat := 6
def ctMonitor : Nat := 7

/-! Header fields (R197). -/

def cellType (c : CellData) : Nat := nbits c 63 61
def cellTile (c : CellData) : Nat := nbits c 60 48
def cellBeat (c : CellData) : Nat := nbits c 47 46
def cellBarLsb (c : CellData) : Nat := nbits c 45 40
def cellFirstLamp (c : CellData) : Nat := nbits c 39 24
def cellActive (c : CellData) : Bool := nbits c 23 23 = 1
def cellLast (c : CellData) : Bool := nbits c 22 22 = 1
def cellHold (c : CellData) : Bool := nbits c 21 21 = 1
def cellSeq (c : CellData) : Nat := nbits c 15 8
def cellCrc (c : CellData) : Nat := nbits c 7 0

/-- The header CRC holds: CRC-8 over bits [63:8] from bit 63 down (R197). -/
def cellCrcOk (c : CellData) : Bool := crc8 56 (nbits c 63 8) 0 = cellCrc c

/-- A header before its CRC (R197). -/
structure Header where
  ctype : Nat
  tile : Nat := 0
  beat : Nat := 0
  barLsb : Nat := 0
  firstLamp : Nat := 0
  active : Bool := false
  last : Bool := false
  hold : Bool := false
  seq : Nat := 0
deriving DecidableEq, Repr

def b2n (b : Bool) : Nat := if b then 1 else 0

/-- The header's 64 bits with its CRC. -/
def Header.bits (h : Header) : Nat :=
  let v := (h.ctype % 8) * 2 ^ 53 + (h.tile % 8192) * 2 ^ 40 + (h.beat % 4) * 2 ^ 38 + (h.barLsb % 64) * 2 ^ 32 +
    (h.firstLamp % 65536) * 2 ^ 16 + b2n h.active * 2 ^ 15 + b2n h.last * 2 ^ 14 + b2n h.hold * 2 ^ 13 + h.seq % 256
  v * 256 + crc8 56 v 0

/-- A cell from its header and its payload bits [511:64]. -/
def mkCell (h : Header) (payload : Nat) : CellData := h.bits + (payload % 2 ^ 448) * 2 ^ 64

/-- A field of a payload, placed at its cell bit (all payload tables number cell bits). -/
def pf (lo v width : Nat) : Nat := (v % 2 ^ width) * 2 ^ (lo - 64)

/-- A cell with a new SEQ and a new header CRC, its other bits kept. -/
def cellWithSeq (c : CellData) (seq : Nat) : CellData :=
  let v := (nbits c 63 16) * 256 + seq % 256
  c / 2 ^ 64 * 2 ^ 64 + (v * 256 + crc8 56 v 0)

/-- A cell with bits [hi:lo] of its payload replaced. -/
def cellWith (c : CellData) (hi lo v : Nat) : CellData :=
  c - nbits c hi lo * 2 ^ lo + (v % 2 ^ (hi + 1 - lo)) * 2 ^ lo

/-- Pixel slot k of a PIXEL cell: 32 bits, P32H (R198). -/
def cellPixel (c : CellData) (k : Nat) : Nat := nbits c (95 + 32 * k) (64 + 32 * k)

/-! DOWNBEAT payload (R199). -/

/-- The fields of a DOWNBEAT cell. -/
structure Downbeat where
  beat : Nat
  pairSlot : Nat
  stackPos : Nat
  launchNs : Nat
  accDelay : Nat
  pixFeed : Nat
  feedMap : Nat
  mode : Nat
  barCount : Nat
  active : Bool
deriving DecidableEq, Repr

def Downbeat.ofCell (c : CellData) : Downbeat :=
  { beat := cellBeat c, pairSlot := nbits c 179 179, stackPos := nbits c 178 176, launchNs := nbits c 175 144,
    accDelay := nbits c 143 120, pixFeed := nbits c 113 112, feedMap := nbits c 111 104, mode := nbits c 100 96,
    barCount := nbits c 95 64, active := cellActive c }

def Downbeat.cell (d : Downbeat) : CellData :=
  mkCell { ctype := ctDownbeat, tile := 0x1FFF, beat := d.beat, barLsb := d.barCount, active := d.active }
    (pf 179 d.pairSlot 1 + pf 176 d.stackPos 3 + pf 144 d.launchNs 32 + pf 120 d.accDelay 24 + pf 112 d.pixFeed 2 +
      pf 104 d.feedMap 8 + pf 96 d.mode 5 + pf 64 d.barCount 32)

/-! MGMT payload (R200). -/

def mgmtData (c : CellData) : Nat := nbits c 143 112
def mgmtAddr (c : CellData) : Nat := nbits c 111 88
def mgmtTag (c : CellData) : Nat := nbits c 87 72
def mgmtIgnored (c : CellData) : Bool := nbits c 66 66 = 1
def mgmtOp (c : CellData) : Nat := nbits c 65 64

def mkMgmt (tile op : Nat) (ignored : Bool) (tag addr data : Nat) (active : Bool) : CellData :=
  mkCell { ctype := ctMgmt, tile := tile, active := active }
    (pf 112 data 32 + pf 88 addr 24 + pf 72 tag 16 + pf 66 (b2n ignored) 1 + pf 64 op 2)

/-! TOLL payload (R202). -/

def tollEpoch (c : CellData) : Nat := nbits c 143 112
def tollSeq (c : CellData) : Nat := nbits c 111 80
def tollState (c : CellData) : Nat := nbits c 75 72
def tollRelayed (c : CellData) : Bool := nbits c 68 68 = 1
def tollStackPos (c : CellData) : Nat := nbits c 67 65
def tollSlot (c : CellData) : Nat := nbits c 64 64

def mkToll (epoch seq state stackPos slot : Nat) (active : Bool) : CellData :=
  mkCell { ctype := ctToll, tile := 0x1FFF, active := active }
    (pf 112 epoch 32 + pf 80 seq 32 + pf 72 state 4 + pf 65 stackPos 3 + pf 64 slot 1)

/-! ECHO payload (R203). -/

def echoTurn (c : CellData) : Nat := nbits c 111 80
def echoSeq (c : CellData) : Nat := nbits c 79 72
def echoResp (c : CellData) : Bool := nbits c 64 64 = 1

def mkEcho (turn seq : Nat) (resp : Bool) : CellData :=
  mkCell { ctype := ctEcho } (pf 80 turn 32 + pf 72 seq 8 + pf 64 (b2n resp) 1)

/-! BULK payload (R201). -/

def bulkByte (c : CellData) (i : Nat) : Byte := BitVec.ofNat 8 (nbits c (135 + 8 * i) (128 + 8 * i))
def bulkSession (c : CellData) : Nat := nbits c 127 112
def bulkOffset (c : CellData) : Nat := nbits c 111 80
def bulkLen (c : CellData) : Nat := nbits c 79 72
def bulkArea (c : CellData) : Nat := nbits c 67 65
def bulkGroup (c : CellData) : Bool := nbits c 64 64 = 1
/-- The LEN data bytes of a BULK cell. -/
def bulkBytes (c : CellData) : List Byte := (List.range (bulkLen c)).map (bulkByte c)

/-! MONITOR payload (R204). -/

def monKind (c : CellData) : Nat := nbits c 67 64

/-! The coded form (R194, R195). -/

/-- The 64 bytes of a cell, bits [7:0] in byte 0 (R205). -/
def cellBytes (c : CellData) : List Byte := leBytes 64 c

/-- The cell that 64 bytes spell. -/
def cellOfBytes (l : List Byte) : CellData := ofLe l

/-- Word w of a cell coded for a link, with its index and cell sequence. -/
def encodeWord (c : CellData) (w cseq : Nat) : RawWord :=
  let d : Word128 := BitVec.ofNat 128 (c / 2 ^ (128 * w))
  { data := d, check := eccCheck d, index := w, cseq := cseq % 32 }

/-- A cell coded for a link with cell sequence `cseq` (R194, R195). -/
def encodeCell (c : CellData) (cseq : Nat) : RawCell :=
  { w0 := encodeWord c 0 cseq, w1 := encodeWord c 1 cseq, w2 := encodeWord c 2 cseq, w3 := encodeWord c 3 cseq }

/-- The four words of a cell. -/
def rawWords (r : RawCell) : List RawWord := [r.w0, r.w1, r.w2, r.w3]

/-- The data of a word after the correction of R195: the corrected data, and whether it is uncorrectable. -/
def wordRead (w : RawWord) : Word128 × Bool :=
  match eccDecode w.data w.check with
  | .clean => (w.data, false)
  | .corrected d _ => (d, false)
  | .poison => (w.data, true)
  | .uncorrectable _ => (w.data, true)

/-- The 512 data bits of a received cell, corrected words corrected. -/
def rawData (r : RawCell) : CellData :=
  (wordRead r.w0).1.toNat + (wordRead r.w1).1.toNat * 2 ^ 128 + (wordRead r.w2).1.toNat * 2 ^ 256 + (wordRead r.w3).1.toNat * 2 ^ 384

/-- A word as R196 forwards it: corrected data with new check bits; an uncorrectable word keeps its data and gets check bits XOR 0x1FF. -/
def wordForward (w : RawWord) : RawWord :=
  let r := wordRead w
  { w with data := r.1, check := if r.2 then eccPoison r.1 else eccCheck r.1 }

/-- A tail is out of step: its word index or cell sequence is not the expected one (R195). -/
def rawSlip (r : RawCell) (expect : Nat) : Bool :=
  !(r.w0.index = 0 && r.w1.index = 1 && r.w2.index = 2 && r.w3.index = 3 &&
    r.w0.cseq = expect && r.w1.cseq = expect && r.w2.cseq = expect && r.w3.cseq = expect)

/-! Markers (R191). -/

def mkCnt (m : Nat) : Nat := nbits m 55 40
def mkSrcLost (m : Nat) : Bool := nbits m 39 39 = 1
def mkHops (m : Nat) : Nat := nbits m 38 32
def mkNeedReduce (m : Nat) : Bool := nbits m 31 31 = 1
def mkRxReq (m : Nat) : Nat := nbits m 30 28
def mkTxMap (m : Nat) : Nat := nbits m 27 25
def mkCellPhase (m : Nat) : Nat := nbits m 24 21
def mkDir (m : Nat) : Nat := nbits m 20 20
def mkTopo (m : Nat) : Nat := nbits m 19 18
def mkPairSlot (m : Nat) : Nat := nbits m 17 17
def mkSenderId (m : Nat) : Nat := nbits m 16 14
def mkPortId (m : Nat) : Nat := nbits m 13 10
def mkLane (m : Nat) : Nat := nbits m 9 8
def mkType (m : Nat) : Nat := nbits m 7 0
/-- The marker's CRC-8 over bits [55:0] holds and its type is 0xD2 (R189, R191). -/
def markerOk (m : Nat) : Bool := crc8 56 (nbits m 55 0) 0 = nbits m 63 56 && mkType m = 0xD2

/-- The marker fields a transmitter sends (R191). -/
structure Marker where
  cnt : Nat
  srcLost : Bool
  hops : Nat
  needReduce : Bool
  rxReq : Nat
  txMap : Nat
  cellPhase : Nat
  dir : Nat
  topo : Nat
  pairSlot : Nat
  senderId : Nat
  portId : Nat
  lane : Nat
deriving DecidableEq, Repr

/-- The 64-bit payload of a marker. -/
def Marker.bits (m : Marker) : Nat :=
  let v := (m.cnt % 65536) * 2 ^ 40 + b2n m.srcLost * 2 ^ 39 + (m.hops % 128) * 2 ^ 32 + b2n m.needReduce * 2 ^ 31 +
    (m.rxReq % 8) * 2 ^ 28 + (m.txMap % 8) * 2 ^ 25 + (m.cellPhase % 16) * 2 ^ 21 + (m.dir % 2) * 2 ^ 20 +
    (m.topo % 4) * 2 ^ 18 + (m.pairSlot % 2) * 2 ^ 17 + (m.senderId % 8) * 2 ^ 14 + (m.portId % 16) * 2 ^ 10 +
    (m.lane % 4) * 2 ^ 8 + 0xD2
  crc8 56 v 0 * 2 ^ 56 + v

end Sys2Proof.Machine
end

