-- ==== Sys2Proof/Machine/RegTable.lean ====
section
/-! DEFINITION. The register map: every register of every page, its fields, their access codes, apply classes and reset values, transcribed from the register tables of the specification (spec/02 to spec/16); and the named fields `F.…`. -/

namespace Sys2Proof.Machine

/-- Access codes of a register field (spec/00_scope.md and R32, R36). `w1cAll` is a W1C count that a 1 in any of its bits clears. -/
inductive Acc where
  | ro | rw | wo | w1c | w1cAll | w1s
deriving DecidableEq, Repr

/-- Apply classes (spec/02_register_pages.md, Apply classes): live, shadowed, quiesce, constant. -/
inductive Cls where
  | l | s | q | c
deriving DecidableEq, Repr

/-- One field of a register: its bits, access, class and reset value in the S and in the T build. -/
structure FieldDef where
  hi : Nat
  lo : Nat
  acc : Acc
  cls : Cls
  resetS : Nat
  resetT : Nat
deriving DecidableEq, Repr

/-- One register or array of registers of a page: first offset, number of entries and their distance, the builds that have it,
whether only the first page of its kind has it, whether its chapter names it a command (R51), and its fields. -/
structure RegDef where
  off : Nat
  count : Nat
  stride : Nat
  inS : Bool
  inT : Bool
  firstOnly : Bool
  command : Bool
  fields : List FieldDef
deriving DecidableEq, Repr

/-- One kind of page: the first page number, how many pages of it each build has, and its block registers. -/
structure PageDef where
  first : Nat
  numS : Nat
  numT : Nat
  regs : List RegDef
deriving DecidableEq, Repr

/-- A named field: its register's address (for page or register arrays, of the first), and its bits. -/
structure Fld where
  addr : Nat
  hi : Nat
  lo : Nat
deriving DecidableEq, Repr

/-- The same field of the page `n` pages further on. -/
def Fld.pg (f : Fld) (n : Nat) : Fld := { f with addr := f.addr + 4096 * n }

/-- The same field of a register `d` bytes further on. -/
def Fld.plus (f : Fld) (d : Nat) : Fld := { f with addr := f.addr + d }

/-- The common page header (spec/02_register_pages.md, Common page header). PAGE_ID is computed, see `pageId`. -/
def headerRegs : List RegDef := [
  ⟨0x000, 1, 0, true, true, false, false, [⟨31, 0, .ro, .c, 0, 0⟩]⟩,
  ⟨0x004, 1, 0, true, true, false, false, [⟨8, 8, .w1s, .l, 0, 0⟩, ⟨3, 2, .rw, .q, 0, 0⟩, ⟨1, 1, .w1s, .l, 0, 0⟩, ⟨0, 0, .rw, .l, 0, 0⟩]⟩,
  ⟨0x008, 1, 0, true, true, false, false, [⟨7, 4, .ro, .l, 0, 0⟩, ⟨3, 3, .ro, .l, 0, 0⟩, ⟨2, 2, .ro, .l, 0, 0⟩, ⟨1, 1, .ro, .l, 0, 0⟩, ⟨0, 0, .ro, .l, 0, 0⟩]⟩,
  ⟨0x00C, 1, 0, true, true, false, false, [⟨15, 0, .rw, .l, 0, 0⟩]⟩,
  ⟨0x010, 1, 0, true, true, false, false, [⟨31, 0, .ro, .l, 0, 0⟩]⟩,
  ⟨0x014, 1, 0, true, true, false, false, [⟨31, 0, .rw, .l, 0, 0⟩]⟩,
  ⟨0x018, 1, 0, true, true, false, false, [⟨31, 0, .w1c, .l, 0, 0⟩]⟩,
  ⟨0x01C, 1, 0, true, true, false, false, [⟨31, 0, .w1s, .l, 0, 0⟩]⟩,
  ⟨0x020, 1, 0, true, true, false, false, [⟨31, 0, .ro, .l, 0, 0⟩]⟩,
  ⟨0x024, 1, 0, true, true, false, false, [⟨31, 0, .ro, .l, 0, 0⟩]⟩,
  ⟨0x028, 1, 0, true, true, false, false, [⟨31, 0, .ro, .l, 0, 0⟩]⟩,
  ⟨0x02C, 1, 0, true, true, false, false, [⟨31, 0, .ro, .l, 0, 0⟩]⟩,
  ⟨0x030, 1, 0, true, true, false, false, [⟨31, 31, .ro, .l, 0, 0⟩, ⟨27, 16, .ro, .l, 0, 0⟩, ⟨15, 0, .ro, .l, 0, 0⟩]⟩,
  ⟨0x034, 1, 0, true, true, false, false, [⟨3, 3, .w1s, .l, 0, 0⟩, ⟨2, 2, .w1s, .l, 0, 0⟩, ⟨1, 1, .w1s, .l, 0, 0⟩, ⟨0, 0, .w1s, .l, 0, 0⟩]⟩]

/-- Block registers of page 0x000 DEVICE (spec/00_scope.md, spec/02_register_pages.md). -/
def regsDEVICE : List RegDef := [
  ⟨0x040, 1, 0, true, true, false, false, [⟨31, 16, .ro, .c, 29712, 29712⟩, ⟨15, 12, .ro, .c, 1, 2⟩, ⟨11, 8, .ro, .c, 11, 11⟩, ⟨7, 4, .ro, .c, 1, 1⟩]⟩,
  ⟨0x044, 1, 0, true, true, false, false, [⟨31, 16, .ro, .c, 65535, 15⟩, ⟨15, 12, .ro, .c, 15, 1⟩, ⟨11, 11, .ro, .c, 1, 0⟩, ⟨10, 10, .ro, .c, 0, 1⟩, ⟨8, 4, .ro, .c, 16, 2⟩]⟩,
  ⟨0x048, 1, 0, true, true, false, false, [⟨7, 6, .ro, .c, 0, 0⟩, ⟨3, 3, .ro, .c, 0, 0⟩, ⟨2, 0, .ro, .c, 0, 0⟩]⟩,
  ⟨0x04C, 1, 0, true, true, false, false, [⟨31, 0, .ro, .c, 0, 0⟩]⟩,
  ⟨0x050, 1, 0, true, true, false, false, [⟨31, 0, .ro, .c, 0, 0⟩]⟩,
  ⟨0x054, 1, 0, true, true, false, false, [⟨2, 0, .ro, .l, 0, 0⟩]⟩,
  ⟨0x058, 1, 0, true, true, false, false, [⟨31, 31, .w1c, .l, 0, 0⟩, ⟨30, 28, .ro, .l, 0, 0⟩, ⟨27, 26, .ro, .l, 0, 0⟩, ⟨23, 0, .ro, .l, 0, 0⟩]⟩,
  ⟨0x05C, 1, 0, true, true, false, false, [⟨31, 0, .w1cAll, .l, 0, 0⟩]⟩,
  ⟨0x060, 1, 0, true, true, false, false, [⟨31, 0, .rw, .l, 0, 0⟩]⟩]

/-- Block registers of page 0x001 EVENTS (spec/02_register_pages.md). -/
def regsEVENTS : List RegDef := [
  ⟨0x040, 8, 4, true, true, false, false, [⟨31, 0, .w1c, .l, 0, 0⟩]⟩,
  ⟨0x060, 1, 0, true, true, false, false, [⟨4, 0, .wo, .l, 0, 0⟩]⟩,
  ⟨0x064, 1, 0, true, true, false, false, [⟨31, 0, .ro, .l, 0, 0⟩]⟩,
  ⟨0x068, 1, 0, true, true, false, false, [⟨31, 0, .rw, .l, 0, 0⟩]⟩]

/-- Block registers of page 0x002 CLOCKS (spec/16_start_up.md). -/
def regsCLOCKS : List RegDef := [
  ⟨0x040, 1, 0, true, true, false, false, [⟨19, 16, .ro, .l, 0, 0⟩, ⟨3, 0, .ro, .l, 0, 0⟩]⟩,
  ⟨0x044, 1, 0, true, true, false, false, [⟨31, 16, .ro, .l, 0, 0⟩, ⟨2, 2, .ro, .l, 0, 0⟩, ⟨1, 1, .ro, .l, 0, 0⟩, ⟨0, 0, .ro, .l, 0, 0⟩]⟩,
  ⟨0x048, 1, 0, true, true, false, false, [⟨6, 0, .ro, .l, 0, 0⟩]⟩]

/-- Block registers of page 0x003 RESET (spec/16_start_up.md). -/
def regsRESET : List RegDef := [
  ⟨0x040, 1, 0, true, true, false, false, [⟨31, 16, .ro, .l, 0, 0⟩, ⟨11, 8, .ro, .l, 0, 0⟩, ⟨1, 0, .ro, .l, 0, 0⟩]⟩,
  ⟨0x044, 1, 0, true, true, false, true, [⟨0, 0, .w1s, .l, 0, 0⟩]⟩,
  ⟨0x048, 1, 0, true, true, false, false, [⟨31, 30, .ro, .l, 0, 0⟩, ⟨1, 1, .rw, .s, 1, 0⟩, ⟨0, 0, .rw, .l, 0, 1⟩]⟩,
  ⟨0x04C, 1, 0, true, true, false, false, [⟨28, 17, .ro, .l, 0, 0⟩, ⟨12, 1, .ro, .l, 0, 0⟩]⟩,
  ⟨0x050, 1, 0, true, true, false, false, [⟨31, 16, .ro, .l, 0, 0⟩, ⟨15, 0, .ro, .l, 0, 0⟩]⟩,
  ⟨0x054, 1, 0, true, false, false, false, [⟨31, 16, .ro, .l, 0, 0⟩, ⟨15, 0, .ro, .l, 0, 0⟩]⟩]

/-- Block registers of page 0x008 BELFRY (spec/14_belfry_thermal.md). -/
def regsBELFRY : List RegDef := [
  ⟨0x040, 1, 0, true, true, false, false, [⟨31, 16, .ro, .l, 0, 0⟩, ⟨3, 0, .ro, .l, 0, 0⟩]⟩,
  ⟨0x044, 1, 0, true, true, false, false, [⟨31, 0, .ro, .l, 0, 0⟩]⟩,
  ⟨0x048, 1, 0, true, true, false, false, [⟨31, 16, .rw, .l, 10, 10⟩, ⟨15, 0, .rw, .l, 1000, 1000⟩]⟩,
  ⟨0x04C, 1, 0, true, true, false, true, [⟨31, 0, .wo, .l, 0, 0⟩]⟩,
  ⟨0x050, 1, 0, true, true, false, true, [⟨0, 0, .w1s, .l, 0, 0⟩]⟩,
  ⟨0x054, 1, 0, true, true, false, false, [⟨31, 0, .w1cAll, .l, 0, 0⟩]⟩]

/-- Block registers of page 0x010 THERMAL (spec/14_belfry_thermal.md). -/
def regsTHERMAL : List RegDef := [
  ⟨0x040, 1, 0, true, true, false, false, [⟨31, 16, .ro, .l, 0, 0⟩, ⟨15, 15, .ro, .l, 0, 0⟩, ⟨12, 8, .ro, .l, 0, 0⟩, ⟨2, 0, .ro, .l, 1, 1⟩]⟩,
  ⟨0x044, 1, 0, true, true, false, false, [⟨31, 24, .rw, .l, 100, 100⟩, ⟨23, 20, .rw, .l, 5, 5⟩, ⟨16, 16, .rw, .l, 0, 0⟩, ⟨15, 8, .rw, .l, 95, 95⟩]⟩,
  ⟨0x048, 1, 0, true, true, false, false, [⟨17, 16, .rw, .l, 0, 0⟩, ⟨5, 4, .ro, .l, 0, 0⟩, ⟨3, 2, .ro, .l, 0, 0⟩, ⟨1, 0, .ro, .l, 0, 0⟩]⟩,
  ⟨0x04C, 1, 0, true, true, false, false, [⟨24, 20, .ro, .l, 0, 0⟩, ⟨19, 0, .ro, .l, 0, 0⟩]⟩,
  ⟨0x050, 1, 0, true, true, false, false, [⟨19, 0, .rw, .l, 0, 0⟩]⟩,
  ⟨0x054, 1, 0, true, true, false, false, [⟨31, 31, .ro, .l, 0, 0⟩, ⟨7, 0, .ro, .l, 0, 0⟩]⟩]

/-- Block registers of page 0x011 THERMAL (spec/14_belfry_thermal.md). -/
def regsTHERMAL_1 : List RegDef := [
  ⟨0x040, 20, 4, true, true, false, false, [⟨31, 16, .ro, .l, 0, 0⟩, ⟨15, 0, .ro, .l, 0, 0⟩]⟩,
  ⟨0x0A0, 20, 4, true, true, false, false, [⟨31, 29, .ro, .l, 1, 1⟩, ⟨4, 0, .rw, .l, 8, 8⟩]⟩]

/-- Block registers of page 0x012 THERMAL (spec/14_belfry_thermal.md). -/
def regsTHERMAL_2 : List RegDef := [
  ⟨0x040, 16, 4, true, true, false, false, [⟨31, 31, .ro, .l, 0, 0⟩, ⟨30, 30, .ro, .l, 0, 0⟩, ⟨15, 0, .ro, .l, 0, 0⟩]⟩,
  ⟨0x080, 16, 4, true, true, false, false, [⟨31, 16, .rw, .l, 0, 0⟩, ⟨15, 0, .rw, .l, 0, 0⟩]⟩,
  ⟨0x0C0, 1, 0, true, true, false, false, [⟨31, 16, .w1c, .l, 0, 0⟩, ⟨15, 0, .w1c, .l, 0, 0⟩]⟩]

/-- Block registers of page 0x020 TIME (spec/04_bars_and_time.md). -/
def regsTIME : List RegDef := [
  ⟨0x040, 1, 0, true, true, false, false, [⟨31, 0, .ro, .l, 0, 0⟩]⟩,
  ⟨0x044, 1, 0, true, true, false, false, [⟨31, 0, .ro, .l, 0, 0⟩]⟩,
  ⟨0x048, 1, 0, true, true, false, false, [⟨31, 0, .rw, .l, 1073741824, 1073741824⟩]⟩,
  ⟨0x04C, 1, 0, true, true, false, true, [⟨31, 0, .wo, .l, 0, 0⟩]⟩,
  ⟨0x050, 1, 0, true, false, false, false, [⟨8, 8, .w1s, .l, 0, 0⟩, ⟨1, 1, .rw, .l, 0, 0⟩, ⟨0, 0, .rw, .l, 0, 0⟩]⟩,
  ⟨0x054, 1, 0, true, false, false, false, [⟨17, 17, .w1c, .l, 0, 0⟩, ⟨16, 16, .w1c, .l, 0, 0⟩, ⟨12, 8, .ro, .l, 0, 0⟩, ⟨4, 0, .ro, .l, 0, 0⟩]⟩,
  ⟨0x058, 1, 0, true, false, false, false, [⟨31, 0, .ro, .l, 0, 0⟩]⟩,
  ⟨0x05C, 1, 0, true, false, false, false, [⟨31, 24, .ro, .l, 0, 0⟩, ⟨23, 23, .ro, .l, 0, 0⟩, ⟨22, 22, .ro, .l, 0, 0⟩, ⟨19, 16, .ro, .l, 0, 0⟩, ⟨15, 0, .ro, .l, 0, 0⟩]⟩,
  ⟨0x060, 1, 0, true, false, false, false, [⟨31, 0, .ro, .l, 0, 0⟩]⟩,
  ⟨0x064, 1, 0, true, false, false, false, [⟨31, 24, .ro, .l, 0, 0⟩, ⟨23, 23, .ro, .l, 0, 0⟩, ⟨22, 22, .ro, .l, 0, 0⟩, ⟨19, 16, .ro, .l, 0, 0⟩, ⟨15, 0, .ro, .l, 0, 0⟩]⟩]

/-- Block registers of page 0x021 LAUNCH (spec/04_bars_and_time.md). -/
def regsLAUNCH : List RegDef := [
  ⟨0x040, 1, 0, true, true, false, false, [⟨31, 0, .rw, .l, 0, 0⟩]⟩,
  ⟨0x044, 1, 0, true, true, false, true, [⟨31, 24, .wo, .l, 0, 0⟩, ⟨13, 4, .wo, .l, 0, 0⟩, ⟨3, 0, .wo, .l, 0, 0⟩]⟩,
  ⟨0x048, 1, 0, true, true, false, true, [⟨8, 8, .wo, .l, 0, 0⟩, ⟨7, 0, .wo, .l, 0, 0⟩]⟩,
  ⟨0x04C, 1, 0, true, true, false, false, [⟨22, 16, .ro, .l, 0, 0⟩, ⟨15, 0, .w1cAll, .l, 0, 0⟩]⟩,
  ⟨0x050, 1, 0, true, true, false, false, [⟨31, 0, .ro, .l, 0, 0⟩]⟩,
  ⟨0x054, 1, 0, true, true, false, false, [⟨31, 0, .ro, .l, 0, 0⟩]⟩,
  ⟨0x058, 1, 0, true, true, false, false, [⟨31, 24, .ro, .l, 0, 0⟩, ⟨13, 4, .ro, .l, 0, 0⟩, ⟨3, 0, .ro, .l, 0, 0⟩]⟩]

/-- Block registers of page 0x022 BAR (spec/04_bars_and_time.md). -/
def regsBAR : List RegDef := [
  ⟨0x040, 1, 0, true, false, false, false, [⟨20, 16, .ro, .l, 9, 0⟩, ⟨4, 0, .rw, .s, 9, 9⟩]⟩,
  ⟨0x040, 1, 0, false, true, false, false, [⟨20, 16, .ro, .l, 9, 0⟩]⟩,
  ⟨0x044, 1, 0, true, false, false, false, [⟨5, 4, .rw, .l, 0, 0⟩, ⟨1, 0, .rw, .l, 0, 0⟩]⟩,
  ⟨0x048, 1, 0, true, false, false, false, [⟨31, 0, .rw, .l, 0, 0⟩]⟩,
  ⟨0x04C, 1, 0, true, false, false, false, [⟨15, 0, .rw, .l, 0, 0⟩]⟩,
  ⟨0x050, 1, 0, true, true, false, false, [⟨13, 0, .rw, .q, 8000, 8000⟩]⟩,
  ⟨0x054, 1, 0, true, true, false, false, [⟨31, 0, .ro, .l, 0, 0⟩]⟩,
  ⟨0x058, 1, 0, true, true, false, false, [⟨31, 31, .ro, .l, 0, 0⟩, ⟨30, 30, .ro, .l, 0, 0⟩, ⟨29, 28, .ro, .l, 0, 0⟩, ⟨27, 26, .ro, .l, 0, 0⟩, ⟨25, 25, .ro, .l, 0, 0⟩]⟩,
  ⟨0x05C, 1, 0, true, false, false, false, [⟨31, 0, .ro, .l, 0, 0⟩]⟩,
  ⟨0x060, 1, 0, true, true, false, false, [⟨31, 0, .ro, .l, 0, 0⟩]⟩,
  ⟨0x064, 1, 0, false, true, false, false, [⟨23, 0, .ro, .l, 0, 0⟩]⟩,
  ⟨0x068, 1, 0, true, false, false, false, [⟨23, 0, .ro, .l, 0, 0⟩]⟩,
  ⟨0x06C, 1, 0, true, true, false, false, [⟨15, 0, .ro, .l, 0, 0⟩]⟩,
  ⟨0x070, 4, 4, true, true, false, false, [⟨23, 0, .ro, .l, 0, 0⟩]⟩]

/-- Block registers of page 0x023 STACK (spec/04_bars_and_time.md). -/
def regsSTACK : List RegDef := [
  ⟨0x040, 1, 0, true, true, false, false, [⟨11, 8, .rw, .q, 15, 15⟩, ⟨7, 4, .rw, .q, 14, 14⟩, ⟨1, 1, .rw, .q, 0, 0⟩, ⟨0, 0, .rw, .q, 0, 0⟩]⟩,
  ⟨0x044, 1, 0, true, true, false, false, [⟨31, 31, .ro, .l, 0, 0⟩, ⟨30, 30, .ro, .c, 0, 0⟩, ⟨23, 0, .ro, .l, 0, 0⟩]⟩]

/-- Block registers of page 0x030 ETH (spec/05_source_ingest.md). -/
def regsETH : List RegDef := [
  ⟨0x040, 1, 0, true, true, false, false, [⟨31, 16, .rw, .q, 1522, 1522⟩, ⟨4, 4, .rw, .q, 0, 0⟩, ⟨1, 0, .rw, .q, 0, 0⟩]⟩,
  ⟨0x044, 1, 0, true, true, false, false, [⟨31, 0, .rw, .q, 0, 0⟩]⟩,
  ⟨0x048, 1, 0, true, true, false, false, [⟨15, 0, .rw, .q, 0, 0⟩]⟩,
  ⟨0x04C, 1, 0, true, true, false, false, [⟨31, 31, .ro, .l, 0, 0⟩, ⟨30, 30, .ro, .l, 0, 0⟩, ⟨29, 29, .ro, .l, 0, 0⟩, ⟨27, 24, .ro, .l, 0, 0⟩, ⟨19, 16, .ro, .l, 0, 0⟩]⟩,
  ⟨0x050, 1, 0, true, true, false, false, [⟨31, 0, .ro, .l, 0, 0⟩]⟩,
  ⟨0x054, 1, 0, true, true, false, false, [⟨31, 0, .ro, .l, 0, 0⟩]⟩,
  ⟨0x058, 1, 0, true, true, false, false, [⟨31, 0, .ro, .l, 0, 0⟩]⟩,
  ⟨0x05C, 1, 0, true, true, false, false, [⟨31, 0, .ro, .l, 0, 0⟩]⟩,
  ⟨0x060, 1, 0, true, true, false, false, [⟨31, 0, .ro, .l, 0, 0⟩]⟩,
  ⟨0x064, 1, 0, true, true, false, false, [⟨31, 0, .ro, .l, 0, 0⟩]⟩,
  ⟨0x068, 1, 0, true, true, false, false, [⟨31, 0, .ro, .l, 0, 0⟩]⟩,
  ⟨0x06C, 1, 0, true, true, false, false, [⟨31, 0, .ro, .l, 0, 0⟩]⟩,
  ⟨0x070, 4, 4, true, true, false, false, [⟨21, 16, .ro, .l, 0, 0⟩, ⟨9, 0, .ro, .l, 0, 0⟩]⟩,
  ⟨0x080, 1, 0, true, true, false, false, [⟨31, 0, .rw, .q, 0, 0⟩]⟩,
  ⟨0x084, 1, 0, true, true, false, false, [⟨12, 0, .rw, .q, 256, 256⟩]⟩,
  ⟨0x088, 1, 0, true, true, false, false, [⟨11, 0, .ro, .l, 0, 0⟩]⟩,
  ⟨0x08C, 1, 0, true, true, false, false, [⟨11, 0, .rw, .l, 0, 0⟩]⟩,
  ⟨0x090, 1, 0, true, true, false, false, [⟨31, 0, .rw, .l, 0, 0⟩]⟩,
  ⟨0x094, 1, 0, true, true, false, true, [⟨31, 31, .ro, .l, 0, 0⟩, ⟨19, 18, .rw, .l, 0, 0⟩, ⟨15, 2, .rw, .l, 0, 0⟩, ⟨0, 0, .w1s, .l, 0, 0⟩]⟩,
  ⟨0x100, 64, 4, true, true, false, false, [⟨31, 0, .rw, .l, 0, 0⟩]⟩]

/-- Block registers of page 0x032 FLOW (spec/05_source_ingest.md). -/
def regsFLOW : List RegDef := [
  ⟨0x040, 1, 0, true, true, false, false, [⟨31, 0, .rw, .q, 0, 0⟩]⟩,
  ⟨0x044, 1, 0, true, true, false, false, [⟨31, 31, .rw, .q, 0, 0⟩, ⟨30, 30, .rw, .q, 1, 1⟩, ⟨29, 29, .rw, .q, 0, 0⟩, ⟨28, 28, .rw, .q, 0, 0⟩, ⟨27, 16, .rw, .q, 0, 0⟩, ⟨15, 0, .rw, .q, 0, 0⟩]⟩,
  ⟨0x048, 1, 0, true, true, false, false, [⟨31, 0, .rw, .q, 0, 0⟩]⟩,
  ⟨0x04C, 1, 0, true, true, false, false, [⟨31, 31, .rw, .q, 0, 0⟩, ⟨30, 24, .rw, .q, 96, 96⟩]⟩,
  ⟨0x050, 1, 0, true, true, false, false, [⟨31, 30, .rw, .q, 0, 0⟩, ⟨29, 29, .rw, .q, 0, 0⟩, ⟨28, 28, .rw, .q, 0, 0⟩, ⟨27, 27, .rw, .q, 0, 0⟩, ⟨26, 25, .rw, .q, 0, 0⟩]⟩,
  ⟨0x054, 1, 0, true, true, false, false, [⟨31, 16, .rw, .q, 2160, 2160⟩, ⟨15, 0, .rw, .q, 3840, 3840⟩]⟩,
  ⟨0x058, 1, 0, true, true, false, false, [⟨31, 0, .rw, .q, 0, 0⟩]⟩,
  ⟨0x05C, 1, 0, true, true, false, false, [⟨17, 16, .rw, .q, 3, 3⟩, ⟨15, 0, .rw, .q, 150, 150⟩]⟩,
  ⟨0x060, 1, 0, true, true, false, false, [⟨31, 16, .rw, .l, 100, 100⟩, ⟨15, 0, .rw, .l, 50, 50⟩]⟩,
  ⟨0x064, 1, 0, true, true, false, false, [⟨15, 0, .rw, .l, 60, 60⟩]⟩,
  ⟨0x068, 1, 0, true, true, false, false, [⟨31, 30, .ro, .l, 0, 0⟩, ⟨29, 28, .ro, .l, 0, 0⟩, ⟨27, 27, .ro, .l, 0, 0⟩, ⟨15, 0, .ro, .l, 0, 0⟩]⟩,
  ⟨0x06C, 1, 0, true, true, false, false, [⟨31, 0, .ro, .l, 0, 0⟩]⟩,
  ⟨0x070, 1, 0, true, true, false, false, [⟨31, 0, .ro, .l, 0, 0⟩]⟩,
  ⟨0x074, 1, 0, true, true, false, false, [⟨15, 0, .ro, .l, 0, 0⟩]⟩,
  ⟨0x078, 1, 0, true, true, false, false, [⟨31, 0, .ro, .l, 0, 0⟩]⟩,
  ⟨0x07C, 1, 0, true, true, false, false, [⟨31, 0, .ro, .l, 0, 0⟩]⟩,
  ⟨0x080, 1, 0, true, true, false, false, [⟨31, 0, .ro, .l, 0, 0⟩]⟩,
  ⟨0x084, 1, 0, true, true, false, false, [⟨31, 0, .ro, .l, 0, 0⟩]⟩,
  ⟨0x088, 1, 0, true, true, false, false, [⟨31, 0, .ro, .l, 0, 0⟩]⟩,
  ⟨0x08C, 1, 0, true, true, false, false, [⟨31, 0, .ro, .l, 0, 0⟩]⟩,
  ⟨0x090, 1, 0, true, true, false, false, [⟨31, 0, .ro, .l, 0, 0⟩]⟩,
  ⟨0x094, 1, 0, true, true, false, false, [⟨31, 0, .ro, .l, 0, 0⟩]⟩]

/-- Block registers of page 0x042 MERGE (spec/05_source_ingest.md). -/
def regsMERGE : List RegDef := [
  ⟨0x040, 1, 0, true, true, false, false, [⟨13, 0, .rw, .l, 10000, 10000⟩]⟩,
  ⟨0x044, 1, 0, true, true, false, false, [⟨31, 0, .ro, .l, 0, 0⟩]⟩,
  ⟨0x048, 1, 0, true, true, false, false, [⟨31, 16, .ro, .l, 0, 0⟩, ⟨15, 0, .ro, .l, 0, 0⟩]⟩,
  ⟨0x04C, 1, 0, true, true, false, false, [⟨15, 0, .w1c, .l, 0, 0⟩]⟩]

/-- Block registers of page 0x048 USB4 (spec/03_host_access.md). -/
def regsUSB4 : List RegDef := [
  ⟨0x040, 1, 0, true, true, false, false, [⟨7, 7, .ro, .l, 0, 0⟩, ⟨6, 6, .ro, .l, 0, 0⟩, ⟨5, 5, .ro, .l, 0, 0⟩, ⟨3, 2, .ro, .l, 0, 0⟩, ⟨1, 0, .ro, .l, 0, 0⟩]⟩,
  ⟨0x080, 2, 32, true, true, false, false, [⟨31, 0, .rw, .l, 0, 0⟩]⟩,
  ⟨0x084, 2, 32, true, true, false, false, [⟨31, 0, .rw, .l, 0, 0⟩]⟩,
  ⟨0x088, 2, 32, true, true, false, false, [⟨31, 0, .rw, .l, 0, 0⟩]⟩,
  ⟨0x08C, 2, 32, true, true, false, false, [⟨20, 0, .rw, .l, 0, 0⟩]⟩,
  ⟨0x090, 2, 32, true, true, false, false, [⟨31, 31, .ro, .l, 0, 0⟩, ⟨30, 30, .w1c, .l, 0, 0⟩, ⟨29, 29, .w1c, .l, 0, 0⟩, ⟨28, 26, .ro, .l, 0, 0⟩, ⟨2, 2, .rw, .l, 0, 0⟩, ⟨1, 1, .rw, .l, 0, 0⟩, ⟨0, 0, .w1s, .l, 0, 0⟩]⟩,
  ⟨0x800, 32, 16, true, true, false, false, [⟨31, 2, .rw, .l, 0, 0⟩]⟩,
  ⟨0x804, 32, 16, true, true, false, false, [⟨31, 0, .rw, .l, 0, 0⟩]⟩,
  ⟨0x808, 32, 16, true, true, false, false, [⟨31, 0, .rw, .l, 0, 0⟩]⟩,
  ⟨0x80C, 32, 16, true, true, false, false, [⟨0, 0, .rw, .l, 1, 1⟩]⟩,
  ⟨0xC00, 2, 4, true, true, false, false, [⟨31, 0, .ro, .l, 0, 0⟩]⟩]

/-- Block registers of page 0x049 DPIN (spec/03_host_access.md). -/
def regsDPIN : List RegDef := [
  ⟨0x040, 1, 0, true, true, false, false, [⟨31, 0, .rw, .q, 0, 0⟩]⟩,
  ⟨0x044, 1, 0, true, true, false, false, [⟨15, 0, .rw, .q, 480, 480⟩]⟩,
  ⟨0x048, 1, 0, true, true, false, false, [⟨31, 31, .rw, .l, 0, 0⟩, ⟨23, 0, .rw, .l, 0, 0⟩]⟩,
  ⟨0x04C, 1, 0, true, true, false, false, [⟨31, 31, .ro, .l, 0, 0⟩, ⟨30, 30, .ro, .l, 0, 0⟩, ⟨29, 28, .ro, .l, 0, 0⟩, ⟨15, 0, .ro, .l, 0, 0⟩]⟩,
  ⟨0x050, 1, 0, true, true, false, false, [⟨31, 16, .ro, .l, 0, 0⟩, ⟨15, 0, .ro, .l, 0, 0⟩]⟩]

/-- Block registers of page 0x04A SRP (spec/03_host_access.md). -/
def regsSRP : List RegDef := [
  ⟨0x040, 1, 0, true, true, false, false, [⟨31, 0, .rw, .q, 0, 0⟩]⟩,
  ⟨0x044, 1, 0, true, true, false, false, [⟨30, 30, .rw, .q, 1, 1⟩, ⟨29, 29, .rw, .q, 1, 1⟩, ⟨28, 28, .rw, .q, 0, 0⟩, ⟨27, 16, .rw, .q, 0, 0⟩, ⟨15, 0, .rw, .q, 47110, 47110⟩]⟩,
  ⟨0x048, 1, 0, true, true, false, false, [⟨31, 16, .w1cAll, .l, 0, 0⟩, ⟨15, 0, .w1cAll, .l, 0, 0⟩]⟩]

/-- Block registers of page 0x050 MAP (spec/06_mapping_engines.md). -/
def regsMAP : List RegDef := [
  ⟨0x040, 1, 0, true, true, false, false, [⟨31, 16, .ro, .l, 0, 0⟩, ⟨1, 1, .ro, .c, 0, 1⟩, ⟨0, 0, .ro, .l, 0, 0⟩]⟩,
  ⟨0x044, 1, 0, true, true, false, false, [⟨31, 0, .ro, .l, 0, 0⟩]⟩]

/-- Block registers of page 0x060 MAPCTL (spec/06_mapping_engines.md). -/
def regsMAPCTL : List RegDef := [
  ⟨0x040, 1, 0, true, false, false, false, [⟨0, 0, .rw, .q, 0, 0⟩]⟩,
  ⟨0x044, 1, 0, true, false, false, false, [⟨31, 16, .rw, .q, 2160, 2160⟩, ⟨15, 0, .rw, .q, 3840, 3840⟩]⟩,
  ⟨0x048, 1, 0, true, false, false, false, [⟨15, 0, .rw, .q, 240, 240⟩]⟩,
  ⟨0x04C, 8, 4, true, false, false, false, [⟨31, 0, .rw, .q, 0, 0⟩]⟩,
  ⟨0x06C, 1, 0, true, false, false, false, [⟨7, 0, .rw, .s, 0, 0⟩]⟩,
  ⟨0x070, 1, 0, true, false, false, false, [⟨29, 20, .rw, .s, 0, 0⟩, ⟨19, 10, .rw, .s, 0, 0⟩, ⟨9, 0, .rw, .s, 0, 0⟩]⟩,
  ⟨0x074, 1, 0, true, false, false, false, [⟨31, 16, .rw, .l, 16, 16⟩, ⟨15, 0, .rw, .l, 500, 500⟩]⟩,
  ⟨0x078, 1, 0, true, false, false, false, [⟨31, 0, .rw, .l, 0, 0⟩]⟩,
  ⟨0x07C, 1, 0, true, false, false, false, [⟨10, 0, .rw, .l, 0, 0⟩]⟩,
  ⟨0x080, 1, 0, true, false, false, false, [⟨31, 31, .rw, .l, 1, 1⟩, ⟨16, 0, .rw, .l, 0, 0⟩]⟩,
  ⟨0x084, 1, 0, true, false, false, false, [⟨19, 0, .rw, .s, 0, 0⟩]⟩,
  ⟨0x088, 1, 0, true, false, false, false, [⟨8, 8, .rw, .l, 0, 0⟩, ⟨3, 0, .rw, .l, 0, 0⟩]⟩,
  ⟨0x08C, 1, 0, true, true, false, false, [⟨31, 16, .ro, .l, 0, 0⟩, ⟨15, 8, .ro, .l, 0, 0⟩, ⟨7, 6, .ro, .l, 0, 0⟩, ⟨5, 5, .ro, .l, 0, 0⟩, ⟨4, 4, .ro, .l, 0, 0⟩, ⟨3, 3, .ro, .l, 0, 0⟩]⟩,
  ⟨0x090, 1, 0, true, false, false, false, [⟨31, 0, .w1cAll, .l, 0, 0⟩]⟩,
  ⟨0x094, 1, 0, true, false, false, false, [⟨31, 31, .w1s, .l, 0, 0⟩, ⟨15, 0, .ro, .l, 32767, 32767⟩]⟩,
  ⟨0x098, 1, 0, true, false, false, false, [⟨31, 0, .ro, .l, 0, 0⟩]⟩,
  ⟨0x09C, 1, 0, true, false, false, false, [⟨31, 31, .ro, .l, 0, 0⟩, ⟨9, 0, .ro, .l, 0, 0⟩]⟩,
  ⟨0x0A0, 1, 0, false, true, false, false, [⟨1, 1, .rw, .s, 1, 1⟩, ⟨0, 0, .rw, .s, 1, 1⟩]⟩]

/-- Block registers of page 0x061 LAYER (spec/06_mapping_engines.md). -/
def regsLAYER : List RegDef := [
  ⟨0x040, 1, 0, true, true, false, false, [⟨31, 28, .rw, .s, 15, 15⟩, ⟨27, 27, .rw, .s, 0, 0⟩, ⟨26, 25, .rw, .s, 0, 0⟩, ⟨23, 22, .rw, .s, 0, 0⟩, ⟨21, 19, .rw, .s, 0, 0⟩, ⟨15, 8, .rw, .s, 255, 255⟩, ⟨4, 0, .rw, .s, 31, 31⟩]⟩,
  ⟨0x044, 1, 0, true, true, false, false, [⟨31, 0, .rw, .s, 0, 0⟩]⟩,
  ⟨0x048, 1, 0, true, true, false, false, [⟨29, 20, .rw, .s, 0, 0⟩, ⟨19, 10, .rw, .s, 0, 0⟩, ⟨9, 0, .rw, .s, 0, 0⟩]⟩,
  ⟨0x04C, 1, 0, true, true, false, false, [⟨27, 16, .rw, .s, 0, 0⟩, ⟨15, 0, .rw, .s, 256, 256⟩]⟩,
  ⟨0x050, 1, 0, true, true, false, false, [⟨31, 0, .rw, .s, 0, 0⟩]⟩,
  ⟨0x054, 1, 0, true, true, false, false, [⟨31, 16, .rw, .s, 1080, 1080⟩, ⟨15, 0, .rw, .s, 1920, 1920⟩]⟩,
  ⟨0x058, 1, 0, true, true, false, false, [⟨31, 31, .rw, .s, 0, 0⟩, ⟨15, 0, .rw, .s, 120, 120⟩]⟩,
  ⟨0x05C, 1, 0, true, true, false, false, [⟨31, 29, .ro, .l, 0, 0⟩, ⟨28, 27, .ro, .l, 0, 0⟩, ⟨26, 26, .ro, .l, 0, 0⟩, ⟨15, 0, .ro, .l, 0, 0⟩]⟩]

/-- Block registers of page 0x070 SCAN (spec/07_canvas_scan_out.md). -/
def regsSCAN : List RegDef := [
  ⟨0x040, 1, 0, true, true, false, false, [⟨31, 0, .rw, .s, 0, 0⟩]⟩,
  ⟨0x044, 1, 0, true, true, false, false, [⟨31, 31, .rw, .s, 0, 0⟩, ⟨17, 16, .rw, .s, 3, 3⟩, ⟨15, 0, .rw, .s, 120, 120⟩]⟩,
  ⟨0x048, 1, 0, true, true, false, false, [⟨31, 0, .ro, .l, 0, 0⟩]⟩,
  ⟨0x04C, 1, 0, true, true, false, false, [⟨31, 0, .ro, .l, 196728, 196728⟩]⟩,
  ⟨0x050, 1, 0, true, true, true, false, [⟨15, 0, .rw, .q, 1920, 1920⟩]⟩,
  ⟨0x054, 1, 0, true, true, false, false, [⟨31, 30, .ro, .l, 0, 0⟩, ⟨29, 29, .ro, .l, 0, 0⟩, ⟨15, 0, .ro, .l, 0, 0⟩]⟩,
  ⟨0x058, 1, 0, true, true, true, false, [⟨31, 0, .ro, .l, 0, 0⟩]⟩,
  ⟨0x05C, 1, 0, true, true, false, false, [⟨15, 0, .rw, .l, 2000, 2000⟩]⟩,
  ⟨0x060, 1, 0, true, true, false, false, [⟨31, 0, .w1cAll, .l, 0, 0⟩]⟩,
  ⟨0x064, 1, 0, true, true, true, false, [⟨31, 0, .w1cAll, .l, 0, 0⟩]⟩,
  ⟨0x068, 1, 0, true, true, true, false, [⟨15, 0, .w1c, .l, 0, 0⟩]⟩,
  ⟨0x080, 16, 4, true, true, true, false, [⟨17, 0, .ro, .l, 0, 0⟩]⟩,
  ⟨0x0C0, 16, 4, true, true, true, false, [⟨31, 31, .w1s, .l, 0, 0⟩, ⟨15, 0, .ro, .l, 32767, 32767⟩]⟩]

/-- Block registers of page 0x072 PREVIEW (spec/07_canvas_scan_out.md). -/
def regsPREVIEW : List RegDef := [
  ⟨0x040, 1, 0, true, true, false, false, [⟨9, 8, .rw, .s, 0, 0⟩, ⟨4, 4, .rw, .s, 0, 0⟩, ⟨2, 0, .rw, .s, 2, 2⟩]⟩,
  ⟨0x044, 1, 0, true, true, false, false, [⟨31, 0, .rw, .s, 0, 0⟩]⟩,
  ⟨0x048, 1, 0, true, true, false, false, [⟨31, 0, .rw, .s, 0, 0⟩]⟩,
  ⟨0x04C, 1, 0, true, true, false, false, [⟨15, 0, .rw, .s, 60, 60⟩]⟩,
  ⟨0x050, 1, 0, true, true, false, false, [⟨31, 0, .rw, .s, 2048, 2048⟩]⟩,
  ⟨0x054, 1, 0, true, true, false, false, [⟨31, 31, .ro, .l, 0, 0⟩, ⟨30, 30, .ro, .l, 0, 0⟩, ⟨29, 29, .ro, .l, 0, 0⟩, ⟨15, 0, .ro, .l, 0, 0⟩]⟩,
  ⟨0x058, 1, 0, true, true, false, false, [⟨31, 16, .ro, .l, 0, 0⟩, ⟨15, 0, .ro, .l, 0, 0⟩]⟩,
  ⟨0x05C, 1, 0, true, true, false, false, [⟨31, 0, .w1cAll, .l, 0, 0⟩]⟩]

/-- Block registers of page 0x073 TILETAB (spec/07_canvas_scan_out.md). -/
def regsTILETAB : List RegDef := [
  ⟨0x040, 1, 0, true, true, false, false, [⟨31, 31, .rw, .l, 1, 1⟩, ⟨11, 0, .rw, .l, 0, 0⟩]⟩,
  ⟨0x044, 1, 0, true, true, false, false, [⟨31, 0, .rw, .s, 0, 0⟩]⟩,
  ⟨0x048, 1, 0, true, true, false, false, [⟨0, 0, .rw, .l, 0, 0⟩]⟩,
  ⟨0x04C, 1, 0, true, true, false, false, [⟨31, 31, .ro, .l, 0, 0⟩, ⟨26, 16, .ro, .l, 0, 0⟩, ⟨9, 0, .ro, .l, 0, 0⟩]⟩]

/-- Block registers of page 0x080 PORT (spec/08_chain_link.md). -/
def regsPORT : List RegDef := [
  ⟨0x040, 1, 0, true, true, false, false, [⟨31, 31, .ro, .l, 0, 0⟩, ⟨30, 30, .ro, .l, 0, 0⟩, ⟨29, 29, .ro, .l, 0, 0⟩, ⟨28, 28, .ro, .l, 0, 0⟩, ⟨27, 25, .ro, .l, 0, 0⟩, ⟨24, 22, .ro, .l, 0, 0⟩, ⟨21, 21, .ro, .l, 0, 0⟩, ⟨20, 20, .ro, .l, 0, 0⟩, ⟨19, 18, .ro, .l, 0, 0⟩, ⟨17, 17, .ro, .l, 0, 0⟩, ⟨16, 14, .ro, .l, 0, 0⟩, ⟨13, 10, .ro, .l, 0, 0⟩, ⟨6, 0, .ro, .l, 0, 0⟩]⟩,
  ⟨0x044, 1, 0, true, true, false, false, [⟨11, 8, .ro, .l, 0, 0⟩, ⟨7, 4, .ro, .l, 0, 0⟩, ⟨3, 0, .ro, .l, 0, 0⟩]⟩,
  ⟨0x048, 3, 4, true, true, false, false, [⟨21, 16, .ro, .l, 0, 0⟩, ⟨9, 0, .ro, .l, 0, 0⟩]⟩,
  ⟨0x054, 1, 0, true, true, false, false, [⟨21, 16, .rw, .l, 16, 16⟩, ⟨9, 0, .rw, .l, 30, 30⟩]⟩,
  ⟨0x058, 3, 4, true, true, false, false, [⟨31, 0, .ro, .l, 0, 0⟩]⟩,
  ⟨0x064, 1, 0, true, true, false, false, [⟨31, 16, .w1cAll, .l, 0, 0⟩, ⟨15, 0, .w1cAll, .l, 0, 0⟩]⟩,
  ⟨0x068, 1, 0, true, true, false, false, [⟨16, 16, .w1c, .l, 0, 0⟩, ⟨15, 15, .w1c, .l, 0, 0⟩, ⟨14, 14, .w1c, .l, 0, 0⟩, ⟨13, 13, .w1c, .l, 0, 0⟩, ⟨12, 12, .w1c, .l, 0, 0⟩, ⟨11, 11, .w1c, .l, 0, 0⟩, ⟨10, 10, .w1c, .l, 0, 0⟩, ⟨9, 9, .w1c, .l, 0, 0⟩, ⟨8, 8, .w1c, .l, 0, 0⟩, ⟨7, 7, .w1c, .l, 0, 0⟩, ⟨6, 6, .w1c, .l, 0, 0⟩, ⟨5, 5, .w1c, .l, 0, 0⟩, ⟨4, 4, .w1c, .l, 0, 0⟩, ⟨3, 3, .w1c, .l, 0, 0⟩, ⟨2, 2, .w1c, .l, 0, 0⟩, ⟨1, 1, .w1c, .l, 0, 0⟩, ⟨0, 0, .w1c, .l, 0, 0⟩]⟩,
  ⟨0x06C, 1, 0, true, true, false, false, [⟨16, 0, .rw, .l, 131071, 131071⟩]⟩,
  ⟨0x070, 1, 0, true, true, false, false, [⟨31, 31, .w1s, .l, 0, 0⟩, ⟨15, 0, .rw, .l, 10, 10⟩]⟩,
  ⟨0x074, 1, 0, true, true, false, true, [⟨8, 8, .w1s, .l, 0, 0⟩, ⟨1, 0, .wo, .l, 0, 0⟩]⟩,
  ⟨0x078, 1, 0, true, true, false, false, [⟨4, 4, .rw, .l, 1, 1⟩, ⟨3, 2, .rw, .l, 0, 0⟩, ⟨1, 0, .rw, .l, 0, 0⟩]⟩,
  ⟨0x07C, 1, 0, true, true, false, false, [⟨31, 28, .rw, .l, 0, 0⟩, ⟨27, 22, .rw, .l, 0, 0⟩, ⟨21, 16, .rw, .l, 0, 0⟩, ⟨15, 12, .rw, .l, 0, 0⟩, ⟨11, 0, .rw, .l, 0, 0⟩]⟩,
  ⟨0x080, 1, 0, true, true, false, false, [⟨31, 28, .rw, .l, 0, 0⟩, ⟨27, 22, .rw, .l, 0, 0⟩, ⟨21, 16, .rw, .l, 0, 0⟩, ⟨15, 12, .rw, .l, 0, 0⟩, ⟨11, 0, .rw, .l, 0, 0⟩]⟩,
  ⟨0x084, 1, 0, true, true, false, false, [⟨15, 0, .ro, .l, 0, 0⟩]⟩,
  ⟨0x088, 1, 0, true, true, false, false, [⟨18, 16, .rw, .q, 0, 0⟩, ⟨14, 12, .rw, .q, 0, 0⟩, ⟨8, 8, .w1s, .l, 0, 0⟩, ⟨2, 0, .rw, .q, 0, 0⟩]⟩,
  ⟨0x08C, 1, 0, true, true, false, false, [⟨31, 0, .rw, .q, 0, 0⟩]⟩,
  ⟨0x090, 1, 0, true, true, false, false, [⟨31, 0, .rw, .q, 0, 0⟩]⟩,
  ⟨0x094, 1, 0, true, true, false, false, [⟨31, 31, .w1s, .l, 0, 0⟩, ⟨30, 30, .rw, .l, 0, 0⟩, ⟨29, 28, .rw, .l, 0, 0⟩, ⟨21, 16, .rw, .l, 0, 0⟩]⟩,
  ⟨0x098, 1, 0, true, true, false, false, [⟨31, 0, .rw, .l, 16384, 16384⟩]⟩,
  ⟨0x0A0, 3, 8, true, true, false, false, [⟨31, 0, .ro, .l, 0, 0⟩]⟩,
  ⟨0x0A4, 3, 8, true, true, false, false, [⟨31, 31, .ro, .l, 0, 0⟩, ⟨15, 0, .ro, .l, 0, 0⟩]⟩]

/-- Block registers of page 0x090 CHAINCTL (spec/08_chain_link.md). -/
def regsCHAINCTL : List RegDef := [
  ⟨0x040, 2, 4, true, false, false, false, [⟨31, 28, .rw, .s, 0, 0⟩, ⟨27, 24, .rw, .s, 0, 0⟩, ⟨23, 20, .rw, .s, 0, 0⟩, ⟨19, 16, .rw, .s, 0, 0⟩, ⟨15, 12, .rw, .s, 0, 0⟩, ⟨11, 8, .rw, .s, 0, 0⟩, ⟨7, 4, .rw, .s, 0, 0⟩, ⟨3, 0, .rw, .s, 0, 0⟩]⟩,
  ⟨0x048, 1, 0, true, false, false, false, [⟨7, 4, .rw, .l, 1, 1⟩]⟩,
  ⟨0x04C, 1, 0, true, false, false, false, [⟨31, 16, .rw, .l, 0, 0⟩, ⟨15, 0, .ro, .l, 0, 0⟩]⟩,
  ⟨0x050, 1, 0, true, false, false, false, [⟨31, 0, .rw, .q, 0, 0⟩]⟩,
  ⟨0x054, 1, 0, true, false, false, false, [⟨31, 0, .rw, .q, 0, 0⟩]⟩,
  ⟨0x058, 1, 0, true, false, false, false, [⟨12, 0, .rw, .q, 256, 256⟩]⟩,
  ⟨0x05C, 1, 0, true, false, false, false, [⟨11, 0, .ro, .l, 0, 0⟩]⟩,
  ⟨0x060, 1, 0, true, false, false, false, [⟨11, 0, .rw, .l, 0, 0⟩]⟩,
  ⟨0x070, 1, 0, false, true, false, false, [⟨31, 31, .ro, .l, 0, 0⟩, ⟨30, 30, .ro, .l, 0, 0⟩, ⟨25, 13, .ro, .l, 0, 0⟩, ⟨12, 0, .ro, .l, 8191, 8191⟩]⟩,
  ⟨0x074, 1, 0, false, true, false, false, [⟨9, 8, .ro, .l, 0, 0⟩, ⟨7, 0, .rw, .l, 1, 1⟩]⟩,
  ⟨0x078, 1, 0, false, true, false, false, [⟨15, 0, .w1cAll, .l, 0, 0⟩]⟩]

/-- Block registers of page 0x091 RELAY (spec/03_host_access.md). -/
def regsRELAY : List RegDef := [
  ⟨0x040, 1, 0, true, true, false, false, [⟨12, 0, .rw, .l, 0, 0⟩]⟩,
  ⟨0x044, 1, 0, true, true, false, false, [⟨15, 0, .rw, .l, 50, 50⟩]⟩,
  ⟨0x048, 1, 0, true, true, false, false, [⟨12, 8, .ro, .l, 0, 0⟩, ⟨2, 0, .ro, .l, 0, 0⟩]⟩,
  ⟨0x04C, 1, 0, true, true, false, false, [⟨31, 0, .w1cAll, .l, 0, 0⟩]⟩]

/-- Block registers of page 0x0A0 TILERX (spec/09_tile_pipeline.md). -/
def regsTILERX : List RegDef := [
  ⟨0x040, 1, 0, true, true, false, false, [⟨11, 0, .rw, .s, 2340, 2340⟩]⟩,
  ⟨0x044, 1, 0, true, true, false, false, [⟨8, 0, .rw, .s, 0, 0⟩]⟩,
  ⟨0x048, 1, 0, true, true, false, false, [⟨31, 31, .rw, .s, 0, 0⟩, ⟨21, 16, .rw, .s, 0, 0⟩, ⟨15, 0, .rw, .l, 65535, 65535⟩]⟩,
  ⟨0x04C, 1, 0, true, true, false, false, [⟨15, 0, .rw, .l, 2000, 2000⟩]⟩,
  ⟨0x050, 1, 0, true, true, false, false, [⟨31, 0, .rw, .q, 0, 0⟩]⟩,
  ⟨0x054, 1, 0, true, true, false, false, [⟨31, 0, .rw, .l, 0, 0⟩]⟩,
  ⟨0x058, 1, 0, true, true, false, false, [⟨31, 0, .rw, .l, 0, 0⟩]⟩,
  ⟨0x05C, 1, 0, true, true, false, false, [⟨31, 31, .ro, .l, 0, 0⟩, ⟨30, 30, .ro, .l, 0, 0⟩, ⟨29, 28, .ro, .l, 0, 0⟩, ⟨27, 26, .ro, .l, 0, 0⟩, ⟨25, 25, .ro, .l, 0, 0⟩, ⟨24, 16, .ro, .l, 0, 0⟩, ⟨1, 0, .ro, .l, 0, 0⟩]⟩,
  ⟨0x060, 1, 0, true, true, false, false, [⟨31, 0, .ro, .l, 0, 0⟩]⟩,
  ⟨0x064, 1, 0, true, true, false, false, [⟨31, 31, .w1s, .l, 0, 0⟩, ⟨15, 0, .ro, .l, 32767, 32767⟩]⟩,
  ⟨0x068, 1, 0, true, true, false, false, [⟨31, 0, .ro, .l, 0, 0⟩]⟩,
  ⟨0x06C, 1, 0, true, true, false, false, [⟨31, 0, .w1cAll, .l, 0, 0⟩]⟩,
  ⟨0x070, 1, 0, true, true, false, false, [⟨31, 0, .w1cAll, .l, 0, 0⟩]⟩,
  ⟨0x074, 1, 0, true, true, false, false, [⟨31, 0, .w1cAll, .l, 0, 0⟩]⟩]

/-- Block registers of page 0x0A1 CORRECT (spec/09_tile_pipeline.md). -/
def regsCORRECT : List RegDef := [
  ⟨0x040, 1, 0, true, true, false, false, [⟨5, 5, .rw, .l, 0, 0⟩, ⟨4, 4, .rw, .l, 0, 0⟩, ⟨2, 2, .rw, .s, 1, 1⟩, ⟨1, 1, .rw, .s, 0, 0⟩, ⟨0, 0, .rw, .s, 0, 0⟩]⟩,
  ⟨0x044, 1, 0, true, true, false, false, [⟨31, 31, .ro, .l, 0, 0⟩, ⟨30, 30, .ro, .l, 0, 0⟩]⟩,
  ⟨0x048, 1, 0, true, true, false, false, [⟨31, 31, .rw, .l, 1, 1⟩, ⟨8, 8, .rw, .l, 0, 0⟩, ⟨5, 0, .rw, .l, 0, 0⟩]⟩,
  ⟨0x04C, 1, 0, true, true, false, false, [⟨15, 0, .rw, .s, 16384, 16384⟩]⟩,
  ⟨0x050, 4, 4, true, true, false, false, [⟨31, 31, .ro, .l, 0, 0⟩, ⟨15, 0, .ro, .l, 0, 0⟩]⟩]

/-- Block registers of page 0x0A2 EOTF (spec/09_tile_pipeline.md). -/
def regsEOTF : List RegDef := [
  ⟨0x040, 1, 0, true, true, false, false, [⟨31, 31, .rw, .l, 1, 1⟩, ⟨16, 16, .rw, .l, 0, 0⟩, ⟨11, 0, .rw, .l, 0, 0⟩]⟩,
  ⟨0x044, 1, 0, true, true, false, false, [⟨19, 0, .rw, .s, 0, 0⟩]⟩]

/-- Block registers of page 0x0A3 DOSE (spec/09_tile_pipeline.md). -/
def regsDOSE : List RegDef := [
  ⟨0x040, 1, 0, true, true, false, false, [⟨31, 31, .rw, .s, 0, 0⟩, ⟨17, 17, .rw, .s, 0, 0⟩, ⟨16, 16, .rw, .l, 1, 1⟩, ⟨12, 0, .rw, .s, 3277, 3277⟩]⟩,
  ⟨0x044, 1, 0, true, true, false, false, [⟨31, 31, .rw, .l, 0, 0⟩, ⟨5, 4, .rw, .l, 0, 0⟩, ⟨3, 0, .rw, .l, 0, 0⟩]⟩,
  ⟨0x048, 1, 0, true, true, false, false, [⟨31, 0, .rw, .l, 0, 0⟩]⟩,
  ⟨0x04C, 1, 0, true, true, false, false, [⟨15, 0, .rw, .l, 0, 0⟩]⟩,
  ⟨0x050, 1, 0, true, true, false, false, [⟨31, 31, .ro, .l, 0, 0⟩, ⟨30, 30, .ro, .l, 0, 0⟩, ⟨15, 0, .ro, .l, 0, 0⟩]⟩,
  ⟨0x054, 1, 0, true, true, false, false, [⟨16, 0, .ro, .l, 59577, 59577⟩]⟩]

/-- Block registers of page 0x0B0 BAND (spec/10_led_drive.md). -/
def regsBAND : List RegDef := [
  ⟨0x040, 1, 0, true, true, false, false, [⟨12, 0, .rw, .s, 500, 500⟩]⟩,
  ⟨0x044, 1, 0, true, true, false, false, [⟨12, 0, .rw, .s, 500, 500⟩]⟩,
  ⟨0x048, 1, 0, true, true, false, false, [⟨12, 0, .rw, .s, 500, 500⟩]⟩,
  ⟨0x04C, 1, 0, true, true, false, false, [⟨4, 0, .rw, .l, 15, 15⟩]⟩,
  ⟨0x050, 1, 0, true, true, false, false, [⟨3, 3, .ro, .l, 0, 0⟩, ⟨2, 0, .ro, .l, 1, 1⟩]⟩,
  ⟨0x054, 1, 0, true, true, false, false, [⟨31, 31, .rw, .l, 1, 1⟩, ⟨15, 15, .rw, .l, 0, 0⟩, ⟨13, 12, .rw, .l, 0, 0⟩, ⟨9, 0, .rw, .l, 0, 0⟩]⟩,
  ⟨0x058, 1, 0, true, true, false, false, [⟨5, 0, .rw, .l, 0, 0⟩]⟩,
  ⟨0x05C, 1, 0, true, true, false, false, [⟨16, 16, .rw, .l, 1, 1⟩, ⟨7, 0, .rw, .l, 5, 5⟩]⟩,
  ⟨0x060, 1, 0, true, true, false, false, [⟨7, 0, .ro, .l, 0, 0⟩]⟩,
  ⟨0x064, 1, 0, true, true, false, false, [⟨25, 16, .ro, .l, 0, 0⟩, ⟨7, 0, .ro, .l, 0, 0⟩]⟩,
  ⟨0x068, 1, 0, true, true, false, false, [⟨31, 0, .ro, .l, 0, 0⟩]⟩]

/-- Block registers of page 0x0B4 DRIVECTL (spec/10_led_drive.md). -/
def regsDRIVECTL : List RegDef := [
  ⟨0x040, 1, 0, true, true, false, false, [⟨17, 16, .rw, .q, 3, 3⟩, ⟨15, 8, .rw, .q, 192, 192⟩, ⟨6, 0, .rw, .q, 48, 48⟩]⟩,
  ⟨0x044, 1, 0, true, true, false, false, [⟨23, 16, .rw, .s, 16, 16⟩, ⟨15, 8, .rw, .s, 32, 32⟩, ⟨7, 0, .rw, .s, 64, 64⟩]⟩,
  ⟨0x048, 1, 0, true, true, false, false, [⟨12, 0, .rw, .q, 500, 500⟩]⟩,
  ⟨0x04C, 1, 0, true, true, false, false, [⟨12, 0, .ro, .l, 500, 500⟩]⟩,
  ⟨0x050, 1, 0, true, true, false, false, [⟨15, 0, .rw, .l, 65535, 65535⟩]⟩,
  ⟨0x054, 1, 0, true, true, false, false, [⟨15, 0, .rw, .l, 65535, 65535⟩]⟩,
  ⟨0x058, 1, 0, true, true, false, false, [⟨15, 0, .rw, .l, 65535, 65535⟩]⟩,
  ⟨0x05C, 1, 0, true, true, false, true, [⟨31, 31, .w1s, .l, 0, 0⟩, ⟨30, 30, .ro, .l, 0, 0⟩, ⟨17, 16, .rw, .l, 0, 0⟩, ⟨15, 0, .rw, .l, 0, 0⟩]⟩,
  ⟨0x060, 1, 0, true, true, false, false, [⟨23, 16, .ro, .l, 255, 255⟩, ⟨15, 0, .ro, .l, 65535, 65535⟩]⟩,
  ⟨0x064, 1, 0, true, true, false, false, [⟨23, 16, .ro, .l, 255, 255⟩, ⟨15, 0, .ro, .l, 65535, 65535⟩]⟩,
  ⟨0x068, 1, 0, true, true, false, false, [⟨23, 16, .ro, .l, 255, 255⟩, ⟨15, 0, .ro, .l, 65535, 65535⟩]⟩,
  ⟨0x06C, 1, 0, true, true, false, false, [⟨15, 0, .rw, .l, 53247, 53247⟩]⟩,
  ⟨0x070, 1, 0, true, true, false, false, [⟨15, 0, .rw, .l, 1000, 1000⟩]⟩,
  ⟨0x074, 1, 0, true, true, false, false, [⟨31, 31, .rw, .l, 1, 1⟩, ⟨8, 8, .rw, .l, 0, 0⟩, ⟨7, 6, .rw, .l, 0, 0⟩, ⟨5, 0, .rw, .l, 0, 0⟩]⟩,
  ⟨0x078, 1, 0, true, true, false, false, [⟨10, 0, .rw, .s, 0, 0⟩]⟩,
  ⟨0x07C, 1, 0, true, true, false, false, [⟨31, 24, .ro, .l, 0, 0⟩, ⟨23, 12, .ro, .l, 0, 0⟩, ⟨11, 0, .ro, .l, 0, 0⟩]⟩,
  ⟨0x080, 1, 0, true, true, false, false, [⟨19, 0, .ro, .l, 0, 0⟩]⟩,
  ⟨0x084, 1, 0, true, true, false, false, [⟨31, 0, .ro, .l, 0, 0⟩]⟩]

/-- Block registers of page 0x0B5 DIAG (spec/10_led_drive.md). -/
def regsDIAG : List RegDef := [
  ⟨0x040, 1, 0, true, true, false, false, [⟨31, 31, .w1s, .l, 0, 0⟩, ⟨9, 9, .rw, .l, 1, 1⟩, ⟨8, 8, .rw, .l, 0, 0⟩, ⟨0, 0, .rw, .l, 1, 1⟩]⟩,
  ⟨0x044, 1, 0, true, true, false, false, [⟨13, 12, .rw, .l, 3, 3⟩, ⟨9, 8, .rw, .l, 1, 1⟩, ⟨5, 4, .rw, .l, 1, 1⟩]⟩,
  ⟨0x048, 1, 0, true, true, false, false, [⟨15, 0, .rw, .l, 36000, 36000⟩]⟩,
  ⟨0x04C, 1, 0, true, true, false, false, [⟨31, 31, .rw, .l, 1, 1⟩, ⟨17, 0, .rw, .l, 0, 0⟩]⟩,
  ⟨0x050, 1, 0, true, true, false, false, [⟨31, 29, .ro, .l, 0, 0⟩, ⟨28, 28, .ro, .l, 0, 0⟩, ⟨27, 26, .ro, .l, 0, 0⟩, ⟨25, 23, .ro, .l, 0, 0⟩, ⟨15, 0, .ro, .l, 0, 0⟩]⟩,
  ⟨0x054, 1, 0, true, true, false, false, [⟨17, 0, .ro, .l, 0, 0⟩]⟩,
  ⟨0x058, 1, 0, true, true, false, false, [⟨17, 0, .ro, .l, 0, 0⟩]⟩,
  ⟨0x05C, 1, 0, true, true, false, false, [⟨11, 0, .ro, .l, 0, 0⟩]⟩,
  ⟨0x060, 1, 0, true, true, false, false, [⟨17, 0, .ro, .l, 0, 0⟩]⟩,
  ⟨0x064, 1, 0, true, true, false, false, [⟨15, 0, .ro, .l, 0, 0⟩]⟩]

/-- Block registers of page 0x0C0 REDUN (spec/11_redundant_operation.md). -/
def regsREDUN : List RegDef := [
  ⟨0x040, 1, 0, true, false, false, false, [⟨31, 31, .rw, .q, 1, 1⟩, ⟨19, 16, .rw, .q, 3, 3⟩, ⟨15, 0, .rw, .q, 1000, 1000⟩]⟩,
  ⟨0x044, 1, 0, true, false, false, true, [⟨1, 1, .w1s, .l, 0, 0⟩, ⟨0, 0, .w1s, .l, 0, 0⟩]⟩,
  ⟨0x048, 1, 0, true, false, false, false, [⟨31, 31, .ro, .l, 0, 0⟩, ⟨30, 30, .ro, .l, 0, 0⟩, ⟨29, 29, .ro, .l, 0, 0⟩, ⟨28, 28, .ro, .l, 0, 0⟩, ⟨27, 27, .ro, .l, 0, 0⟩, ⟨26, 26, .ro, .l, 0, 0⟩, ⟨25, 25, .ro, .l, 0, 0⟩, ⟨24, 24, .ro, .l, 0, 0⟩, ⟨23, 20, .ro, .l, 0, 0⟩]⟩,
  ⟨0x04C, 1, 0, true, false, false, false, [⟨31, 0, .ro, .l, 0, 0⟩]⟩,
  ⟨0x050, 1, 0, true, false, false, false, [⟨23, 0, .ro, .l, 0, 0⟩]⟩,
  ⟨0x054, 1, 0, true, false, false, false, [⟨31, 0, .ro, .l, 0, 0⟩]⟩,
  ⟨0x058, 1, 0, true, false, false, false, [⟨31, 16, .w1cAll, .l, 0, 0⟩, ⟨15, 0, .w1cAll, .l, 0, 0⟩]⟩,
  ⟨0x05C, 1, 0, true, false, false, false, [⟨31, 0, .w1cAll, .l, 0, 0⟩]⟩,
  ⟨0x060, 1, 0, false, true, false, false, [⟨1, 0, .ro, .l, 0, 0⟩]⟩,
  ⟨0x064, 1, 0, false, true, false, false, [⟨31, 0, .w1cAll, .l, 0, 0⟩]⟩]

/-- Block registers of page 0x0C1 MIRROR (spec/11_redundant_operation.md). -/
def regsMIRROR : List RegDef := [
  ⟨0x040, 1, 0, true, true, false, false, [⟨31, 16, .rw, .q, 1000, 1000⟩, ⟨15, 0, .rw, .q, 10, 10⟩]⟩,
  ⟨0x044, 1, 0, true, true, false, false, [⟨31, 0, .rw, .q, 0, 0⟩]⟩,
  ⟨0x048, 1, 0, true, true, false, false, [⟨31, 0, .ro, .l, 0, 0⟩]⟩,
  ⟨0x04C, 1, 0, true, true, false, false, [⟨31, 0, .ro, .l, 0, 0⟩]⟩,
  ⟨0x050, 1, 0, true, true, false, false, [⟨31, 31, .ro, .l, 0, 0⟩, ⟨30, 30, .ro, .l, 0, 0⟩, ⟨29, 29, .ro, .l, 0, 0⟩, ⟨28, 28, .ro, .l, 0, 0⟩, ⟨15, 0, .ro, .l, 0, 0⟩]⟩,
  ⟨0x054, 1, 0, true, true, false, false, [⟨0, 0, .w1s, .l, 0, 0⟩]⟩,
  ⟨0x058, 1, 0, true, true, false, false, [⟨31, 0, .w1cAll, .l, 0, 0⟩]⟩,
  ⟨0x080, 16, 8, true, true, false, false, [⟨31, 0, .rw, .q, 0, 0⟩]⟩,
  ⟨0x084, 16, 8, true, true, false, false, [⟨11, 0, .rw, .q, 0, 0⟩]⟩]

/-- Block registers of page 0x0D0 BANK (spec/12_memory_ecc.md). -/
def regsBANK : List RegDef := [
  ⟨0x040, 1, 0, true, true, false, false, [⟨31, 31, .ro, .l, 0, 0⟩, ⟨2, 0, .rw, .l, 0, 0⟩]⟩,
  ⟨0x044, 1, 0, true, true, false, false, [⟨11, 8, .ro, .l, 0, 0⟩, ⟨7, 0, .ro, .l, 0, 0⟩]⟩,
  ⟨0x048, 1, 0, true, true, false, false, [⟨31, 0, .w1cAll, .l, 0, 0⟩]⟩,
  ⟨0x04C, 1, 0, true, true, false, false, [⟨31, 0, .w1cAll, .l, 0, 0⟩]⟩,
  ⟨0x050, 1, 0, true, true, false, false, [⟨31, 0, .w1cAll, .l, 0, 0⟩]⟩,
  ⟨0x054, 1, 0, true, true, false, false, [⟨31, 0, .w1cAll, .l, 0, 0⟩]⟩,
  ⟨0x058, 1, 0, true, true, false, false, [⟨31, 0, .w1cAll, .l, 0, 0⟩]⟩,
  ⟨0x060, 4, 4, true, true, false, false, [⟨31, 0, .rw, .l, 0, 0⟩]⟩,
  ⟨0x070, 1, 0, true, true, false, false, [⟨8, 0, .rw, .l, 0, 0⟩]⟩,
  ⟨0x080, 8, 4, true, true, false, false, [⟨31, 31, .rw, .l, 0, 0⟩, ⟨30, 30, .ro, .l, 0, 0⟩, ⟨15, 0, .rw, .l, 0, 0⟩]⟩]

/-- Block registers of page 0x0D8 ECC (spec/12_memory_ecc.md). -/
def regsECC : List RegDef := [
  ⟨0x040, 1, 0, true, true, false, false, [⟨31, 31, .rw, .l, 1, 1⟩, ⟨30, 30, .w1s, .l, 0, 0⟩, ⟨7, 0, .rw, .l, 24, 24⟩]⟩,
  ⟨0x044, 1, 0, true, true, false, false, [⟨31, 16, .ro, .l, 0, 0⟩, ⟨6, 0, .ro, .l, 0, 0⟩]⟩,
  ⟨0x048, 1, 0, true, true, false, false, [⟨31, 31, .ro, .l, 0, 0⟩, ⟨30, 30, .ro, .l, 0, 0⟩, ⟨7, 0, .w1c, .l, 0, 0⟩]⟩,
  ⟨0x04C, 1, 0, true, true, false, false, [⟨31, 16, .w1cAll, .l, 0, 0⟩, ⟨6, 0, .ro, .l, 0, 0⟩]⟩,
  ⟨0x050, 1, 0, true, true, false, false, [⟨5, 4, .rw, .l, 0, 0⟩, ⟨3, 0, .rw, .l, 0, 0⟩]⟩,
  ⟨0x054, 1, 0, true, true, false, false, [⟨31, 31, .rw, .l, 0, 0⟩, ⟨30, 30, .ro, .l, 0, 0⟩, ⟨29, 29, .rw, .l, 0, 0⟩, ⟨28, 27, .rw, .l, 0, 0⟩, ⟨26, 23, .rw, .l, 0, 0⟩, ⟨17, 0, .rw, .l, 0, 0⟩]⟩,
  ⟨0x060, 1, 0, true, true, false, true, [⟨31, 31, .w1s, .l, 0, 0⟩, ⟨30, 30, .rw, .l, 0, 0⟩, ⟨29, 28, .rw, .l, 0, 0⟩, ⟨27, 27, .rw, .l, 0, 0⟩]⟩,
  ⟨0x064, 1, 0, true, true, false, false, [⟨31, 0, .rw, .l, 0, 0⟩]⟩,
  ⟨0x068, 4, 4, true, true, false, false, [⟨31, 0, .rw, .l, 0, 0⟩]⟩,
  ⟨0x078, 1, 0, true, true, false, false, [⟨15, 9, .rw, .l, 0, 0⟩, ⟨8, 0, .rw, .l, 0, 0⟩]⟩]

/-- Block registers of page 0x0E0 DRAM (spec/13_dram.md). -/
def regsDRAM : List RegDef := [
  ⟨0x040, 1, 0, true, true, false, false, [⟨31, 31, .ro, .l, 0, 0⟩, ⟨30, 29, .ro, .l, 0, 0⟩, ⟨26, 24, .ro, .l, 1, 1⟩, ⟨23, 20, .ro, .l, 2, 2⟩, ⟨19, 18, .ro, .l, 0, 0⟩, ⟨15, 0, .ro, .l, 0, 0⟩]⟩,
  ⟨0x044, 1, 0, true, true, false, false, [⟨8, 8, .rw, .l, 1, 1⟩, ⟨1, 0, .rw, .q, 0, 0⟩]⟩,
  ⟨0x048, 1, 0, true, true, false, false, [⟨31, 16, .ro, .l, 0, 0⟩, ⟨15, 0, .rw, .l, 1000, 1000⟩]⟩,
  ⟨0x04C, 1, 0, true, true, false, false, [⟨31, 16, .w1cAll, .l, 0, 0⟩, ⟨15, 15, .w1s, .l, 0, 0⟩, ⟨3, 0, .ro, .l, 0, 0⟩]⟩,
  ⟨0x050, 1, 0, true, true, false, false, [⟨31, 31, .ro, .l, 0, 0⟩, ⟨30, 30, .ro, .l, 0, 0⟩, ⟨21, 16, .ro, .l, 0, 0⟩, ⟨15, 0, .ro, .l, 0, 0⟩]⟩,
  ⟨0x054, 1, 0, true, true, false, true, [⟨1, 1, .w1s, .l, 0, 0⟩, ⟨0, 0, .w1s, .l, 0, 0⟩]⟩,
  ⟨0x058, 1, 0, true, true, false, false, [⟨15, 8, .ro, .l, 0, 0⟩, ⟨7, 0, .ro, .l, 0, 0⟩]⟩,
  ⟨0x060, 4, 4, true, true, false, false, [⟨31, 0, .rw, .l, 0, 0⟩]⟩,
  ⟨0x070, 1, 0, true, true, false, false, [⟨8, 0, .rw, .l, 0, 0⟩]⟩]

/-- Block registers of page 0x0E4 DRAMCTL (spec/13_dram.md). -/
def regsDRAMCTL : List RegDef := [
  ⟨0x040, 1, 0, true, true, false, false, [⟨31, 28, .ro, .l, 0, 0⟩, ⟨27, 27, .ro, .c, 0, 1⟩]⟩,
  ⟨0x044, 1, 0, true, true, false, false, [⟨31, 0, .ro, .l, 0, 0⟩]⟩,
  ⟨0x048, 1, 0, true, true, false, false, [⟨23, 0, .rw, .l, 0, 0⟩]⟩,
  ⟨0x04C, 1, 0, true, true, false, false, [⟨17, 0, .rw, .l, 86016, 86016⟩]⟩,
  ⟨0x050, 1, 0, true, true, false, false, [⟨15, 0, .rw, .l, 2000, 2000⟩]⟩,
  ⟨0x054, 1, 0, true, true, false, false, [⟨15, 0, .rw, .l, 4000, 4000⟩]⟩,
  ⟨0x058, 1, 0, true, false, false, false, [⟨31, 16, .ro, .l, 0, 0⟩, ⟨15, 0, .ro, .l, 0, 0⟩]⟩,
  ⟨0x05C, 1, 0, true, true, false, false, [⟨15, 0, .ro, .l, 0, 0⟩]⟩]

/-- Block registers of page 0x0F0 UPDATE (spec/15_update_settings.md). -/
def regsUPDATE : List RegDef := [
  ⟨0x040, 1, 0, true, true, false, true, [⟨6, 6, .w1s, .l, 0, 0⟩, ⟨5, 5, .w1s, .l, 0, 0⟩, ⟨4, 4, .w1s, .l, 0, 0⟩, ⟨3, 3, .w1s, .l, 0, 0⟩, ⟨2, 2, .w1s, .l, 0, 0⟩, ⟨1, 1, .w1s, .l, 0, 0⟩, ⟨0, 0, .w1s, .l, 0, 0⟩]⟩,
  ⟨0x044, 1, 0, true, true, false, false, [⟨31, 31, .ro, .l, 0, 0⟩, ⟨30, 30, .ro, .l, 0, 0⟩, ⟨29, 29, .ro, .l, 0, 0⟩, ⟨28, 28, .ro, .l, 0, 0⟩, ⟨27, 27, .ro, .l, 0, 0⟩, ⟨26, 24, .ro, .l, 0, 0⟩]⟩,
  ⟨0x048, 1, 0, true, true, false, false, [⟨23, 0, .rw, .l, 0, 0⟩]⟩,
  ⟨0x04C, 1, 0, true, true, false, false, [⟨12, 0, .rw, .l, 4096, 4096⟩]⟩,
  ⟨0x050, 1, 0, true, true, false, false, [⟨31, 0, .wo, .l, 0, 0⟩]⟩,
  ⟨0x054, 1, 0, true, true, false, false, [⟨31, 0, .ro, .l, 0, 0⟩]⟩,
  ⟨0x058, 1, 0, true, true, false, false, [⟨31, 0, .ro, .l, 0, 0⟩]⟩,
  ⟨0x05C, 1, 0, true, true, false, false, [⟨31, 16, .ro, .l, 0, 0⟩, ⟨15, 0, .rw, .l, 600, 600⟩]⟩,
  ⟨0x060, 1, 0, true, true, false, false, [⟨15, 0, .rw, .l, 0, 0⟩]⟩,
  ⟨0x064, 1, 0, true, true, false, false, [⟨16, 0, .ro, .l, 0, 0⟩]⟩,
  ⟨0x068, 1, 0, true, true, false, false, [⟨31, 16, .ro, .l, 0, 0⟩, ⟨15, 0, .ro, .l, 0, 0⟩]⟩,
  ⟨0x06C, 1, 0, true, true, false, false, [⟨31, 0, .w1cAll, .l, 0, 0⟩]⟩,
  ⟨0x070, 1, 0, true, false, false, false, [⟨31, 0, .rw, .l, 0, 0⟩]⟩,
  ⟨0x074, 1, 0, true, false, false, false, [⟨24, 0, .rw, .l, 0, 0⟩]⟩,
  ⟨0x078, 1, 0, true, false, false, false, [⟨31, 0, .rw, .l, 0, 0⟩]⟩,
  ⟨0x07C, 1, 0, true, false, false, false, [⟨31, 29, .rw, .l, 0, 0⟩, ⟨28, 28, .rw, .l, 0, 0⟩, ⟨12, 0, .rw, .l, 8191, 8191⟩]⟩,
  ⟨0x080, 1, 0, true, false, false, false, [⟨31, 16, .rw, .l, 0, 0⟩, ⟨15, 0, .rw, .l, 0, 0⟩]⟩,
  ⟨0x084, 1, 0, true, false, false, false, [⟨15, 0, .rw, .l, 256, 256⟩]⟩]

/-- Block registers of page 0x0F1 SETTINGS (spec/15_update_settings.md). -/
def regsSETTINGS : List RegDef := [
  ⟨0x040, 1, 0, true, true, false, true, [⟨0, 0, .w1s, .l, 0, 0⟩]⟩,
  ⟨0x044, 1, 0, true, true, false, false, [⟨31, 31, .ro, .l, 0, 0⟩, ⟨30, 30, .ro, .l, 0, 0⟩, ⟨29, 29, .ro, .l, 0, 0⟩, ⟨28, 28, .ro, .l, 0, 0⟩, ⟨15, 0, .ro, .l, 0, 0⟩]⟩,
  ⟨0x048, 1, 0, true, true, false, false, [⟨31, 0, .ro, .l, 0, 0⟩]⟩,
  ⟨0x04C, 1, 0, true, true, false, false, [⟨31, 31, .rw, .l, 1, 1⟩, ⟨9, 0, .rw, .l, 0, 0⟩]⟩,
  ⟨0x050, 1, 0, true, true, false, false, [⟨23, 0, .rw, .l, 0, 0⟩]⟩]

/-- Block registers of page 0x0F2 LOG (spec/15_update_settings.md). -/
def regsLOG : List RegDef := [
  ⟨0x040, 1, 0, true, true, false, false, [⟨31, 0, .ro, .l, 0, 0⟩]⟩,
  ⟨0x044, 1, 0, true, true, false, false, [⟨31, 0, .ro, .l, 0, 0⟩]⟩,
  ⟨0x048, 1, 0, true, true, false, false, [⟨31, 0, .rw, .l, 0, 0⟩]⟩,
  ⟨0x04C, 1, 0, true, true, false, false, [⟨31, 31, .ro, .l, 0, 0⟩, ⟨30, 30, .ro, .l, 0, 0⟩]⟩,
  ⟨0x050, 8, 4, true, true, false, false, [⟨31, 0, .ro, .l, 0, 0⟩]⟩,
  ⟨0x070, 1, 0, true, true, false, false, [⟨31, 0, .w1cAll, .l, 0, 0⟩]⟩]

/-- Block registers of page 0x0F8 DEBUG (spec/14_belfry_thermal.md). -/
def regsDEBUG : List RegDef := [
  ⟨0x040, 1, 0, true, true, false, false, [⟨31, 31, .rw, .l, 0, 0⟩, ⟨30, 30, .rw, .l, 0, 0⟩, ⟨29, 29, .ro, .l, 0, 0⟩]⟩]

/-- The page index (spec/02_register_pages.md, Page index): every kind of page with its instances per build. The pages 0x009–0x00F and 0x013–0x01F have the header alone (spec/14_belfry_thermal.md). -/
def pageDefs : List PageDef := [
  ⟨0x000, 1, 1, regsDEVICE⟩,
  ⟨0x001, 1, 1, regsEVENTS⟩,
  ⟨0x002, 1, 1, regsCLOCKS⟩,
  ⟨0x003, 1, 1, regsRESET⟩,
  ⟨0x008, 1, 1, regsBELFRY⟩,
  ⟨0x009, 7, 7, []⟩,
  ⟨0x010, 1, 1, regsTHERMAL⟩,
  ⟨0x011, 1, 1, regsTHERMAL_1⟩,
  ⟨0x012, 1, 1, regsTHERMAL_2⟩,
  ⟨0x013, 13, 13, []⟩,
  ⟨0x020, 1, 1, regsTIME⟩,
  ⟨0x021, 1, 1, regsLAUNCH⟩,
  ⟨0x022, 1, 1, regsBAR⟩,
  ⟨0x023, 1, 0, regsSTACK⟩,
  ⟨0x030, 2, 0, regsETH⟩,
  ⟨0x032, 16, 0, regsFLOW⟩,
  ⟨0x042, 1, 0, regsMERGE⟩,
  ⟨0x048, 1, 1, regsUSB4⟩,
  ⟨0x049, 1, 0, regsDPIN⟩,
  ⟨0x04A, 1, 0, regsSRP⟩,
  ⟨0x050, 16, 2, regsMAP⟩,
  ⟨0x060, 1, 1, regsMAPCTL⟩,
  ⟨0x061, 8, 0, regsLAYER⟩,
  ⟨0x070, 2, 0, regsSCAN⟩,
  ⟨0x072, 1, 0, regsPREVIEW⟩,
  ⟨0x073, 1, 0, regsTILETAB⟩,
  ⟨0x080, 16, 4, regsPORT⟩,
  ⟨0x090, 1, 1, regsCHAINCTL⟩,
  ⟨0x091, 1, 0, regsRELAY⟩,
  ⟨0x0A0, 0, 1, regsTILERX⟩,
  ⟨0x0A1, 0, 1, regsCORRECT⟩,
  ⟨0x0A2, 0, 1, regsEOTF⟩,
  ⟨0x0A3, 0, 1, regsDOSE⟩,
  ⟨0x0B0, 0, 4, regsBAND⟩,
  ⟨0x0B4, 0, 1, regsDRIVECTL⟩,
  ⟨0x0B5, 0, 1, regsDIAG⟩,
  ⟨0x0C0, 1, 1, regsREDUN⟩,
  ⟨0x0C1, 1, 0, regsMIRROR⟩,
  ⟨0x0D0, 8, 8, regsBANK⟩,
  ⟨0x0D8, 1, 1, regsECC⟩,
  ⟨0x0E0, 4, 1, regsDRAM⟩,
  ⟨0x0E4, 1, 1, regsDRAMCTL⟩,
  ⟨0x0F0, 1, 1, regsUPDATE⟩,
  ⟨0x0F1, 1, 1, regsSETTINGS⟩,
  ⟨0x0F2, 1, 1, regsLOG⟩,
  ⟨0x0F8, 1, 1, regsDEBUG⟩]

/-- The page kinds as PAGE_ID names them: first page, number of pages in the page index (R31, PAGE_ID.TYPE). -/
def pageKinds : List (Nat × Nat) := [
  (0x000, 1),
  (0x001, 1),
  (0x002, 1),
  (0x003, 1),
  (0x008, 8),
  (0x010, 16),
  (0x020, 1),
  (0x021, 1),
  (0x022, 1),
  (0x023, 1),
  (0x030, 2),
  (0x032, 16),
  (0x042, 1),
  (0x048, 1),
  (0x049, 1),
  (0x04A, 1),
  (0x050, 16),
  (0x060, 1),
  (0x061, 8),
  (0x070, 2),
  (0x072, 1),
  (0x073, 1),
  (0x080, 16),
  (0x090, 1),
  (0x091, 1),
  (0x0A0, 1),
  (0x0A1, 1),
  (0x0A2, 1),
  (0x0A3, 1),
  (0x0B0, 4),
  (0x0B4, 1),
  (0x0B5, 1),
  (0x0C0, 1),
  (0x0C1, 1),
  (0x0D0, 8),
  (0x0D8, 1),
  (0x0E0, 4),
  (0x0E4, 1),
  (0x0F0, 1),
  (0x0F1, 1),
  (0x0F2, 1),
  (0x0F8, 1)]

namespace F

/-! Header fields: addresses within page 0; `.pg page` selects the page. -/
def COMMIT : Fld := ⟨0x004, 8, 8⟩
def APPLY_MODE : Fld := ⟨0x004, 3, 2⟩
def SRST : Fld := ⟨0x004, 1, 1⟩
def EN : Fld := ⟨0x004, 0, 0⟩
def STATE : Fld := ⟨0x008, 7, 4⟩
def FAULT : Fld := ⟨0x008, 3, 3⟩
def BUSY : Fld := ⟨0x008, 1, 1⟩
def RUNNING : Fld := ⟨0x008, 0, 0⟩
def APPLY_LINE : Fld := ⟨0x00C, 15, 0⟩
def EVT_RAW : Fld := ⟨0x010, 31, 0⟩
def EVT_EN : Fld := ⟨0x014, 31, 0⟩
def EVT_PEND : Fld := ⟨0x018, 31, 0⟩
def ERR_FIRST0 : Fld := ⟨0x020, 31, 0⟩
def ERR_FIRST1 : Fld := ⟨0x024, 31, 0⟩
def ERR_WORST0 : Fld := ⟨0x028, 31, 0⟩
def ERR_WORST1 : Fld := ⟨0x02C, 31, 0⟩
def ERR_OVERFLOW : Fld := ⟨0x030, 31, 31⟩
def ERR_UNCORR : Fld := ⟨0x030, 27, 16⟩
def ERR_CORR : Fld := ⟨0x030, 15, 0⟩
def FLIP_ARM : Fld := ⟨0x034, 3, 3⟩

/-! Fields of DEVICE. -/
def DEVICE_IDENT_PART : Fld := ⟨0x000040, 31, 16⟩
def DEVICE_IDENT_BUILD : Fld := ⟨0x000040, 15, 12⟩
def DEVICE_IDENT_STEP_MAJOR : Fld := ⟨0x000040, 11, 8⟩
def DEVICE_IDENT_STEP_MINOR : Fld := ⟨0x000040, 7, 4⟩
def DEVICE_RESOURCES_CHAIN_PORTS : Fld := ⟨0x000044, 31, 16⟩
def DEVICE_RESOURCES_DRAM_PORTS : Fld := ⟨0x000044, 15, 12⟩
def DEVICE_RESOURCES_ETH : Fld := ⟨0x000044, 11, 11⟩
def DEVICE_RESOURCES_DRIVE : Fld := ⟨0x000044, 10, 10⟩
def DEVICE_RESOURCES_ENGINES : Fld := ⟨0x000044, 8, 4⟩
def DEVICE_STRAPS_BOOT_SEL : Fld := ⟨0x000048, 7, 6⟩
def DEVICE_STRAPS_PAIR_SLOT : Fld := ⟨0x000048, 3, 3⟩
def DEVICE_STRAPS_STACK_POS : Fld := ⟨0x000048, 2, 0⟩
def DEVICE_UID_LO_UID_LO : Fld := ⟨0x00004C, 31, 0⟩
def DEVICE_UID_HI_UID_HI : Fld := ⟨0x000050, 31, 0⟩
def DEVICE_ORIGIN_CODE : Fld := ⟨0x000054, 2, 0⟩
def DEVICE_BAD_ADDR_VALID : Fld := ⟨0x000058, 31, 31⟩
def DEVICE_BAD_ADDR_ORIGIN : Fld := ⟨0x000058, 30, 28⟩
def DEVICE_BAD_ADDR_REASON : Fld := ⟨0x000058, 27, 26⟩
def DEVICE_BAD_ADDR_ADDR : Fld := ⟨0x000058, 23, 0⟩
def DEVICE_CHANGE_LOST_COUNT : Fld := ⟨0x00005C, 31, 0⟩
def DEVICE_SCRATCH_VALUE : Fld := ⟨0x000060, 31, 0⟩

/-! Fields of EVENTS. -/
def EVENTS_GLOBAL_ACT_ACT : Fld := ⟨0x001040, 31, 0⟩
def EVENTS_VEC_EOI_VECTOR : Fld := ⟨0x001060, 4, 0⟩
def EVENTS_VEC_SUMMARY_SUMMARY : Fld := ⟨0x001064, 31, 0⟩
def EVENTS_ALERT_MASK_MASK : Fld := ⟨0x001068, 31, 0⟩

/-! Fields of CLOCKS. -/
def CLOCKS_PLL_FAIL : Fld := ⟨0x002040, 19, 16⟩
def CLOCKS_PLL_LOCK : Fld := ⟨0x002040, 3, 0⟩
def CLOCKS_REF_REFA_PPM : Fld := ⟨0x002044, 31, 16⟩
def CLOCKS_REF_XTAL_OK : Fld := ⟨0x002044, 2, 2⟩
def CLOCKS_REF_REFA_OK : Fld := ⟨0x002044, 1, 1⟩
def CLOCKS_REF_REFB_OK : Fld := ⟨0x002044, 0, 0⟩
def CLOCKS_DOMAINS_ON : Fld := ⟨0x002048, 6, 0⟩

/-! Fields of RESET. -/
def RESET_CAUSE_COUNT : Fld := ⟨0x003040, 31, 16⟩
def RESET_CAUSE_RAIL : Fld := ⟨0x003040, 11, 8⟩
def RESET_CAUSE_CAUSE : Fld := ⟨0x003040, 1, 0⟩
def RESET_CMD_DEVICE : Fld := ⟨0x003044, 0, 0⟩
def RESET_SERVICE_LEVEL : Fld := ⟨0x003048, 31, 30⟩
def RESET_SERVICE_SRAM_CANVAS : Fld := ⟨0x003048, 1, 1⟩
def RESET_SERVICE_PWM8 : Fld := ⟨0x003048, 0, 0⟩
def RESET_BRINGUP_FAIL : Fld := ⟨0x00304C, 28, 17⟩
def RESET_BRINGUP_DONE : Fld := ⟨0x00304C, 12, 1⟩
def RESET_TIMES_FULL_MS : Fld := ⟨0x003050, 31, 16⟩
def RESET_TIMES_REDUCED_MS : Fld := ⟨0x003050, 15, 0⟩
def RESET_HOLD_SIZE_H : Fld := ⟨0x003054, 31, 16⟩
def RESET_HOLD_SIZE_W : Fld := ⟨0x003054, 15, 0⟩

/-! Fields of BELFRY. -/
def BELFRY_STATUS_RESTARTS : Fld := ⟨0x008040, 31, 16⟩
def BELFRY_STATUS_CAUSE : Fld := ⟨0x008040, 3, 0⟩
def BELFRY_UPTIME_S : Fld := ⟨0x008044, 31, 0⟩
def BELFRY_WDOG_OPEN : Fld := ⟨0x008048, 31, 16⟩
def BELFRY_WDOG_TIMEOUT : Fld := ⟨0x008048, 15, 0⟩
def BELFRY_KICK_KICK : Fld := ⟨0x00804C, 31, 0⟩
def BELFRY_CMD_RESTART : Fld := ⟨0x008050, 0, 0⟩
def BELFRY_LOCKSTEP_COUNT : Fld := ⟨0x008054, 31, 0⟩

/-! Fields of THERMAL. -/
def THERMAL_HOT_TJ : Fld := ⟨0x010040, 31, 16⟩
def THERMAL_HOT_SUBST : Fld := ⟨0x010040, 15, 15⟩
def THERMAL_HOT_SENSOR : Fld := ⟨0x010040, 12, 8⟩
def THERMAL_HOT_TB : Fld := ⟨0x010040, 2, 0⟩
def THERMAL_THROTTLE_CFG_T_THROTTLE : Fld := ⟨0x010044, 31, 24⟩
def THERMAL_THROTTLE_CFG_HYST : Fld := ⟨0x010044, 23, 20⟩
def THERMAL_THROTTLE_CFG_MODE : Fld := ⟨0x010044, 16, 16⟩
def THERMAL_THROTTLE_CFG_T_WARN : Fld := ⟨0x010044, 15, 8⟩
def THERMAL_THROTTLE_FLOOR : Fld := ⟨0x010048, 17, 16⟩
def THERMAL_THROTTLE_D1 : Fld := ⟨0x010048, 5, 4⟩
def THERMAL_THROTTLE_D0 : Fld := ⟨0x010048, 3, 2⟩
def THERMAL_THROTTLE_DIG : Fld := ⟨0x010048, 1, 0⟩
def THERMAL_FAIL_COUNT : Fld := ⟨0x01004C, 24, 20⟩
def THERMAL_FAIL_FAILED : Fld := ⟨0x01004C, 19, 0⟩
def THERMAL_MASK_MASK : Fld := ⟨0x010050, 19, 0⟩
def THERMAL_KNELL_SLOT_READY : Fld := ⟨0x010054, 31, 31⟩
def THERMAL_KNELL_SLOT_FREE : Fld := ⟨0x010054, 7, 0⟩
def THERMAL_SENSOR_USE : Fld := ⟨0x011040, 31, 16⟩
def THERMAL_SENSOR_RAW : Fld := ⟨0x011040, 15, 0⟩
def THERMAL_SCFG_STATE : Fld := ⟨0x0110A0, 31, 29⟩
def THERMAL_SCFG_OFFSET : Fld := ⟨0x0110A0, 4, 0⟩
def THERMAL_VMON_LOW : Fld := ⟨0x012040, 31, 31⟩
def THERMAL_VMON_HIGH : Fld := ⟨0x012040, 30, 30⟩
def THERMAL_VMON_MV : Fld := ⟨0x012040, 15, 0⟩
def THERMAL_VTHR_HIGH : Fld := ⟨0x012080, 31, 16⟩
def THERMAL_VTHR_LOW : Fld := ⟨0x012080, 15, 0⟩
def THERMAL_VMON_FLAGS_HIGH_SEEN : Fld := ⟨0x0120C0, 31, 16⟩
def THERMAL_VMON_FLAGS_LOW_SEEN : Fld := ⟨0x0120C0, 15, 0⟩

/-! Fields of TIME. -/
def TIME_NS_NS : Fld := ⟨0x020040, 31, 0⟩
def TIME_WRAPS_WRAPS : Fld := ⟨0x020044, 31, 0⟩
def TIME_INC_INC : Fld := ⟨0x020048, 31, 0⟩
def TIME_ADJ_ADJ : Fld := ⟨0x02004C, 31, 0⟩
def TIME_TS_CTRL_FLUSH : Fld := ⟨0x020050, 8, 8⟩
def TIME_TS_CTRL_EN_B : Fld := ⟨0x020050, 1, 1⟩
def TIME_TS_CTRL_EN_A : Fld := ⟨0x020050, 0, 0⟩
def TIME_TS_LEVEL_OVF_B : Fld := ⟨0x020054, 17, 17⟩
def TIME_TS_LEVEL_OVF_A : Fld := ⟨0x020054, 16, 16⟩
def TIME_TS_LEVEL_LEVEL_B : Fld := ⟨0x020054, 12, 8⟩
def TIME_TS_LEVEL_LEVEL_A : Fld := ⟨0x020054, 4, 0⟩
def TIME_TS_A_NS : Fld := ⟨0x020058, 31, 0⟩
def TIME_TS_A1_FRAC : Fld := ⟨0x02005C, 31, 24⟩
def TIME_TS_A1_VALID : Fld := ⟨0x02005C, 23, 23⟩
def TIME_TS_A1_DIR : Fld := ⟨0x02005C, 22, 22⟩
def TIME_TS_A1_MSG_TYPE : Fld := ⟨0x02005C, 19, 16⟩
def TIME_TS_A1_SEQ_ID : Fld := ⟨0x02005C, 15, 0⟩
def TIME_TS_B_NS : Fld := ⟨0x020060, 31, 0⟩
def TIME_TS_B1_FRAC : Fld := ⟨0x020064, 31, 24⟩
def TIME_TS_B1_VALID : Fld := ⟨0x020064, 23, 23⟩
def TIME_TS_B1_DIR : Fld := ⟨0x020064, 22, 22⟩
def TIME_TS_B1_MSG_TYPE : Fld := ⟨0x020064, 19, 16⟩
def TIME_TS_B1_SEQ_ID : Fld := ⟨0x020064, 15, 0⟩

/-! Fields of LAUNCH. -/
def LAUNCH_TIME_TIME : Fld := ⟨0x021040, 31, 0⟩
def LAUNCH_PUSH_TAG : Fld := ⟨0x021044, 31, 24⟩
def LAUNCH_PUSH_ARG : Fld := ⟨0x021044, 13, 4⟩
def LAUNCH_PUSH_KIND : Fld := ⟨0x021044, 3, 0⟩
def LAUNCH_CANCEL_ALL : Fld := ⟨0x021048, 8, 8⟩
def LAUNCH_CANCEL_TAG : Fld := ⟨0x021048, 7, 0⟩
def LAUNCH_STATUS_COUNT : Fld := ⟨0x02104C, 22, 16⟩
def LAUNCH_STATUS_DROPPED : Fld := ⟨0x02104C, 15, 0⟩
def LAUNCH_NEXT_TIME_TIME : Fld := ⟨0x021050, 31, 0⟩
def LAUNCH_LAST_AT_LAST_AT : Fld := ⟨0x021054, 31, 0⟩
def LAUNCH_LAST_ACTION_TAG : Fld := ⟨0x021058, 31, 24⟩
def LAUNCH_LAST_ACTION_ARG : Fld := ⟨0x021058, 13, 4⟩
def LAUNCH_LAST_ACTION_KIND : Fld := ⟨0x021058, 3, 0⟩

/-! Fields of BAR. -/
def BAR_MODE_MODE_IN_USE : Fld := ⟨0x022040, 20, 16⟩
def BAR_MODE_MODE_SEL : Fld := ⟨0x022040, 4, 0⟩
def BAR_SRC_FALLBACK : Fld := ⟨0x022044, 5, 4⟩
def BAR_SRC_SRC : Fld := ⟨0x022044, 1, 0⟩
def BAR_ANCHOR_ANCHOR : Fld := ⟨0x022048, 31, 0⟩
def BAR_REF_OFFSET_OFFSET : Fld := ⟨0x02204C, 15, 0⟩
def BAR_WALL_DEPTH_NS : Fld := ⟨0x022050, 13, 0⟩
def BAR_COUNT_COUNT : Fld := ⟨0x022054, 31, 0⟩
def BAR_STATUS_LOCK : Fld := ⟨0x022058, 31, 31⟩
def BAR_STATUS_SLEWING : Fld := ⟨0x022058, 30, 30⟩
def BAR_STATUS_SRC_IN_USE : Fld := ⟨0x022058, 29, 28⟩
def BAR_STATUS_BEAT : Fld := ⟨0x022058, 27, 26⟩
def BAR_STATUS_DIR_B : Fld := ⟨0x022058, 25, 25⟩
def BAR_PHASE_ERR_E : Fld := ⟨0x02205C, 31, 0⟩
def BAR_LAST_START_TIME : Fld := ⟨0x022060, 31, 0⟩
def BAR_DB_DELAY_PS : Fld := ⟨0x022064, 23, 0⟩
def BAR_DEPTH_SEEN_PS : Fld := ⟨0x022068, 23, 0⟩
def BAR_FWD_DELAY_PS2 : Fld := ⟨0x02206C, 15, 0⟩
def BAR_LINK_DELAY_PS : Fld := ⟨0x022070, 23, 0⟩

/-! Fields of STACK. -/
def STACK_CONFIG_OUT_PORT : Fld := ⟨0x023040, 11, 8⟩
def STACK_CONFIG_IN_PORT : Fld := ⟨0x023040, 7, 4⟩
def STACK_CONFIG_OUT_EN : Fld := ⟨0x023040, 1, 1⟩
def STACK_CONFIG_IN_EN : Fld := ⟨0x023040, 0, 0⟩
def STACK_STATUS_LOCK : Fld := ⟨0x023044, 31, 31⟩
def STACK_STATUS_MASTER : Fld := ⟨0x023044, 30, 30⟩
def STACK_STATUS_DELAY_PS : Fld := ⟨0x023044, 23, 0⟩

/-! Fields of ETH. -/
def ETH_CONFIG_MAX_FRAME : Fld := ⟨0x030040, 31, 16⟩
def ETH_CONFIG_CTL_EN : Fld := ⟨0x030040, 4, 4⟩
def ETH_CONFIG_MODE : Fld := ⟨0x030040, 1, 0⟩
def ETH_MAC_LO_MAC_LO : Fld := ⟨0x030044, 31, 0⟩
def ETH_MAC_HI_MAC_HI : Fld := ⟨0x030048, 15, 0⟩
def ETH_STATUS_LINK : Fld := ⟨0x03004C, 31, 31⟩
def ETH_STATUS_LOCAL_FAULT : Fld := ⟨0x03004C, 30, 30⟩
def ETH_STATUS_REMOTE_FAULT : Fld := ⟨0x03004C, 29, 29⟩
def ETH_STATUS_SUB_UP : Fld := ⟨0x03004C, 27, 24⟩
def ETH_STATUS_FEC_LOCK : Fld := ⟨0x03004C, 19, 16⟩
def ETH_RX_OK_COUNT : Fld := ⟨0x030050, 31, 0⟩
def ETH_RX_FCS_COUNT : Fld := ⟨0x030054, 31, 0⟩
def ETH_RX_DROP_COUNT : Fld := ⟨0x030058, 31, 0⟩
def ETH_FEC_CORR_COUNT : Fld := ⟨0x03005C, 31, 0⟩
def ETH_FEC_UNCORR_COUNT : Fld := ⟨0x030060, 31, 0⟩
def ETH_OVERRUN_COUNT : Fld := ⟨0x030064, 31, 0⟩
def ETH_CTL_RX_COUNT : Fld := ⟨0x030068, 31, 0⟩
def ETH_CTL_TX_COUNT : Fld := ⟨0x03006C, 31, 0⟩
def ETH_LANE_EYE_WIDTH : Fld := ⟨0x030070, 21, 16⟩
def ETH_LANE_EYE_HEIGHT : Fld := ⟨0x030070, 9, 0⟩
def ETH_CTL_RX_BASE_BASE : Fld := ⟨0x030080, 31, 0⟩
def ETH_CTL_RX_SLOTS_SLOTS : Fld := ⟨0x030084, 12, 0⟩
def ETH_CTL_RX_HEAD_HEAD : Fld := ⟨0x030088, 11, 0⟩
def ETH_CTL_RX_TAIL_TAIL : Fld := ⟨0x03008C, 11, 0⟩
def ETH_CTL_TX_ADDR_ADDR : Fld := ⟨0x030090, 31, 0⟩
def ETH_CTL_TX_CTRL_BUSY : Fld := ⟨0x030094, 31, 31⟩
def ETH_CTL_TX_CTRL_SUBPORT : Fld := ⟨0x030094, 19, 18⟩
def ETH_CTL_TX_CTRL_LEN : Fld := ⟨0x030094, 15, 2⟩
def ETH_CTL_TX_CTRL_GO : Fld := ⟨0x030094, 0, 0⟩
def ETH_MCAST_GROUP : Fld := ⟨0x030100, 31, 0⟩

/-! Fields of FLOW. -/
def FLOW_DST_DST : Fld := ⟨0x032040, 31, 0⟩
def FLOW_PORTS_PATH_B_EN : Fld := ⟨0x032044, 31, 31⟩
def FLOW_PORTS_PATH_A_EN : Fld := ⟨0x032044, 30, 30⟩
def FLOW_PORTS_VLAN_EN : Fld := ⟨0x032044, 29, 29⟩
def FLOW_PORTS_SRC_EN : Fld := ⟨0x032044, 28, 28⟩
def FLOW_PORTS_VLAN_ID : Fld := ⟨0x032044, 27, 16⟩
def FLOW_PORTS_UDP : Fld := ⟨0x032044, 15, 0⟩
def FLOW_SRC_SRC : Fld := ⟨0x032048, 31, 0⟩
def FLOW_RTP_PT_EN : Fld := ⟨0x03204C, 31, 31⟩
def FLOW_RTP_PT : Fld := ⟨0x03204C, 30, 24⟩
def FLOW_FORMAT_SAMPLING : Fld := ⟨0x032050, 31, 30⟩
def FLOW_FORMAT_DEPTH12 : Fld := ⟨0x032050, 29, 29⟩
def FLOW_FORMAT_BT2020 : Fld := ⟨0x032050, 28, 28⟩
def FLOW_FORMAT_FULL_RANGE : Fld := ⟨0x032050, 27, 27⟩
def FLOW_FORMAT_TRANSFER : Fld := ⟨0x032050, 26, 25⟩
def FLOW_SIZE_HEIGHT : Fld := ⟨0x032054, 31, 16⟩
def FLOW_SIZE_WIDTH : Fld := ⟨0x032054, 15, 0⟩
def FLOW_STORE_BASE_BASE : Fld := ⟨0x032058, 31, 0⟩
def FLOW_STORE_CFG_FRAMES : Fld := ⟨0x03205C, 17, 16⟩
def FLOW_STORE_CFG_STRIDE : Fld := ⟨0x03205C, 15, 0⟩
def FLOW_TIMING_GAP_WAIT : Fld := ⟨0x032060, 31, 16⟩
def FLOW_TIMING_TIMEOUT : Fld := ⟨0x032060, 15, 0⟩
def FLOW_HOLD_BARS : Fld := ⟨0x032064, 15, 0⟩
def FLOW_WATERMARK_WRITE_SLOT : Fld := ⟨0x032068, 31, 30⟩
def FLOW_WATERMARK_LAST_FRAME : Fld := ⟨0x032068, 29, 28⟩
def FLOW_WATERMARK_LAST_VALID : Fld := ⟨0x032068, 27, 27⟩
def FLOW_WATERMARK_LINES : Fld := ⟨0x032068, 15, 0⟩
def FLOW_LAST_RTP_RTP : Fld := ⟨0x03206C, 31, 0⟩
def FLOW_LAST_TIME_TIME : Fld := ⟨0x032070, 31, 0⟩
def FLOW_SKEW_SKEW : Fld := ⟨0x032074, 15, 0⟩
def FLOW_FRAME_COUNT_COUNT : Fld := ⟨0x032078, 31, 0⟩
def FLOW_CONCEALED_COUNT : Fld := ⟨0x03207C, 31, 0⟩
def FLOW_PKT_A_COUNT : Fld := ⟨0x032080, 31, 0⟩
def FLOW_PKT_B_COUNT : Fld := ⟨0x032084, 31, 0⟩
def FLOW_DUP_COUNT : Fld := ⟨0x032088, 31, 0⟩
def FLOW_LATE_COUNT : Fld := ⟨0x03208C, 31, 0⟩
def FLOW_MALFORMED_COUNT : Fld := ⟨0x032090, 31, 0⟩
def FLOW_LOST_LINES_COUNT : Fld := ⟨0x032094, 31, 0⟩

/-! Fields of MERGE. -/
def MERGE_WINDOW_US : Fld := ⟨0x042040, 13, 0⟩
def MERGE_FLOW_STATE_STATE : Fld := ⟨0x042044, 31, 0⟩
def MERGE_PATH_LOSS_B_SILENT : Fld := ⟨0x042048, 31, 16⟩
def MERGE_PATH_LOSS_A_SILENT : Fld := ⟨0x042048, 15, 0⟩
def MERGE_EVT_FLOWS_FLOWS : Fld := ⟨0x04204C, 15, 0⟩

/-! Fields of USB4. -/
def USB4_LINK_USB2_UP : Fld := ⟨0x048040, 7, 7⟩
def USB4_LINK_DP_UP : Fld := ⟨0x048040, 6, 6⟩
def USB4_LINK_PCIE_UP : Fld := ⟨0x048040, 5, 5⟩
def USB4_LINK_LANES : Fld := ⟨0x048040, 3, 2⟩
def USB4_LINK_GEN : Fld := ⟨0x048040, 1, 0⟩
def USB4_DMA_HOST_LO : Fld := ⟨0x048080, 31, 0⟩
def USB4_DMA_HOST_HI : Fld := ⟨0x048084, 31, 0⟩
def USB4_DMA_DEV : Fld := ⟨0x048088, 31, 0⟩
def USB4_DMA_LEN : Fld := ⟨0x04808C, 20, 0⟩
def USB4_DMA_CTRL_BUSY : Fld := ⟨0x048090, 31, 31⟩
def USB4_DMA_CTRL_DONE : Fld := ⟨0x048090, 30, 30⟩
def USB4_DMA_CTRL_ERR : Fld := ⟨0x048090, 29, 29⟩
def USB4_DMA_CTRL_ERR_CODE : Fld := ⟨0x048090, 28, 26⟩
def USB4_DMA_CTRL_SPACE : Fld := ⟨0x048090, 2, 2⟩
def USB4_DMA_CTRL_DIR : Fld := ⟨0x048090, 1, 1⟩
def USB4_DMA_CTRL_START : Fld := ⟨0x048090, 0, 0⟩
/-- Mask bit of MSI-X vector 0; vector v is 16v bytes on (R60, the PCIe format). -/
def USB4_MSIX_MASK : Fld := ⟨0x04880C, 0, 0⟩
/-- Pending-bit array, low word (R60). -/
def USB4_PBA : Fld := ⟨0x048C00, 31, 0⟩

/-! Fields of DPIN. -/
def DPIN_STORE_BASE_BASE : Fld := ⟨0x049040, 31, 0⟩
def DPIN_STRIDE_STRIDE : Fld := ⟨0x049044, 15, 0⟩
def DPIN_KEY_KEY_EN : Fld := ⟨0x049048, 31, 31⟩
def DPIN_KEY_KEY_RGB : Fld := ⟨0x049048, 23, 0⟩
def DPIN_STATUS_LOCK : Fld := ⟨0x04904C, 31, 31⟩
def DPIN_STATUS_BPC10 : Fld := ⟨0x04904C, 30, 30⟩
def DPIN_STATUS_LAST_FRAME : Fld := ⟨0x04904C, 29, 28⟩
def DPIN_STATUS_FRAME_COUNT : Fld := ⟨0x04904C, 15, 0⟩
def DPIN_SIZE_HEIGHT : Fld := ⟨0x049050, 31, 16⟩
def DPIN_SIZE_WIDTH : Fld := ⟨0x049050, 15, 0⟩

/-! Fields of SRP. -/
def SRP_IPV4_ADDR : Fld := ⟨0x04A040, 31, 0⟩
def SRP_PORT_PATH_B : Fld := ⟨0x04A044, 30, 30⟩
def SRP_PORT_PATH_A : Fld := ⟨0x04A044, 29, 29⟩
def SRP_PORT_VLAN_EN : Fld := ⟨0x04A044, 28, 28⟩
def SRP_PORT_VLAN_ID : Fld := ⟨0x04A044, 27, 16⟩
def SRP_PORT_UDP : Fld := ⟨0x04A044, 15, 0⟩
def SRP_COUNT_MALFORMED : Fld := ⟨0x04A048, 31, 16⟩
def SRP_COUNT_EXECUTED : Fld := ⟨0x04A048, 15, 0⟩

/-! Fields of MAP. -/
def MAP_STATUS_TASKS : Fld := ⟨0x050040, 31, 16⟩
def MAP_STATUS_LAMP : Fld := ⟨0x050040, 1, 1⟩
def MAP_STATUS_ACTIVE : Fld := ⟨0x050040, 0, 0⟩
def MAP_SAMPLES_COUNT : Fld := ⟨0x050044, 31, 0⟩

/-! Fields of MAPCTL. -/
def MAPCTL_CTRL_CHASE_EN : Fld := ⟨0x060040, 0, 0⟩
def MAPCTL_CANVAS_SIZE_HEIGHT : Fld := ⟨0x060044, 31, 16⟩
def MAPCTL_CANVAS_SIZE_WIDTH : Fld := ⟨0x060044, 15, 0⟩
def MAPCTL_CANVAS_STRIDE_STRIDE : Fld := ⟨0x060048, 15, 0⟩
def MAPCTL_CANVAS_BUF_BASE : Fld := ⟨0x06004C, 31, 0⟩
def MAPCTL_FEED_MAP_MAP : Fld := ⟨0x06006C, 7, 0⟩
def MAPCTL_BG_R : Fld := ⟨0x060070, 29, 20⟩
def MAPCTL_BG_G : Fld := ⟨0x060070, 19, 10⟩
def MAPCTL_BG_B : Fld := ⟨0x060070, 9, 0⟩
def MAPCTL_CHASE_LEAD_LINES : Fld := ⟨0x060074, 31, 16⟩
def MAPCTL_CHASE_BIND_LEAD : Fld := ⟨0x060074, 15, 0⟩
def MAPCTL_SET_BASE_BASE : Fld := ⟨0x060078, 31, 0⟩
def MAPCTL_SET_COUNT_COUNT : Fld := ⟨0x06007C, 10, 0⟩
def MAPCTL_TAB_ADDR_AUTO_INC : Fld := ⟨0x060080, 31, 31⟩
def MAPCTL_TAB_ADDR_INDEX : Fld := ⟨0x060080, 16, 0⟩
def MAPCTL_TAB_DATA_DATA : Fld := ⟨0x060084, 19, 0⟩
def MAPCTL_TAB_RD_IN_USE : Fld := ⟨0x060088, 8, 8⟩
def MAPCTL_TAB_RD_ENGINE : Fld := ⟨0x060088, 3, 0⟩
def MAPCTL_STATUS_CANVAS_SEQ : Fld := ⟨0x06008C, 31, 16⟩
def MAPCTL_STATUS_BAND : Fld := ⟨0x06008C, 15, 8⟩
def MAPCTL_STATUS_FEED : Fld := ⟨0x06008C, 7, 6⟩
def MAPCTL_STATUS_BUF : Fld := ⟨0x06008C, 5, 5⟩
def MAPCTL_STATUS_WAIT_BUF : Fld := ⟨0x06008C, 4, 4⟩
def MAPCTL_STATUS_WAIT_CHASE : Fld := ⟨0x06008C, 3, 3⟩
def MAPCTL_LATE_COUNT_COUNT : Fld := ⟨0x060090, 31, 0⟩
def MAPCTL_LEAD_MIN_CLR : Fld := ⟨0x060094, 31, 31⟩
def MAPCTL_LEAD_MIN_LINES : Fld := ⟨0x060094, 15, 0⟩
def MAPCTL_LOAD_SAMPLES : Fld := ⟨0x060098, 31, 0⟩
def MAPCTL_CUE_STATUS_FAIL : Fld := ⟨0x06009C, 31, 31⟩
def MAPCTL_CUE_STATUS_SET : Fld := ⟨0x06009C, 9, 0⟩
def MAPCTL_LAMP_ENG1 : Fld := ⟨0x0600A0, 1, 1⟩
def MAPCTL_LAMP_ENG0 : Fld := ⟨0x0600A0, 0, 0⟩

/-! Fields of LAYER. -/
def LAYER_CTRL_FEED_MASK : Fld := ⟨0x061040, 31, 28⟩
def LAYER_CTRL_CHASE : Fld := ⟨0x061040, 27, 27⟩
def LAYER_CTRL_KEY_MODE : Fld := ⟨0x061040, 26, 25⟩
def LAYER_CTRL_FILTER_BANK : Fld := ⟨0x061040, 23, 22⟩
def LAYER_CTRL_COLOUR_SET : Fld := ⟨0x061040, 21, 19⟩
def LAYER_CTRL_OPACITY : Fld := ⟨0x061040, 15, 8⟩
def LAYER_CTRL_SOURCE : Fld := ⟨0x061040, 4, 0⟩
def LAYER_MESH_BASE_BASE : Fld := ⟨0x061044, 31, 0⟩
def LAYER_FALLBACK_R : Fld := ⟨0x061048, 29, 20⟩
def LAYER_FALLBACK_G : Fld := ⟨0x061048, 19, 10⟩
def LAYER_FALLBACK_B : Fld := ⟨0x061048, 9, 0⟩
def LAYER_KEY_LOW : Fld := ⟨0x06104C, 27, 16⟩
def LAYER_KEY_GAIN : Fld := ⟨0x06104C, 15, 0⟩
def LAYER_STILL_BASE_BASE : Fld := ⟨0x061050, 31, 0⟩
def LAYER_STILL_SIZE_HEIGHT : Fld := ⟨0x061054, 31, 16⟩
def LAYER_STILL_SIZE_WIDTH : Fld := ⟨0x061054, 15, 0⟩
def LAYER_STILL_FMT_P32H : Fld := ⟨0x061058, 31, 31⟩
def LAYER_STILL_FMT_STRIDE : Fld := ⟨0x061058, 15, 0⟩
def LAYER_STATUS_STATE : Fld := ⟨0x06105C, 31, 29⟩
def LAYER_STATUS_BOUND_SLOT : Fld := ⟨0x06105C, 28, 27⟩
def LAYER_STATUS_REPEAT : Fld := ⟨0x06105C, 26, 26⟩
def LAYER_STATUS_HOLD_LEFT : Fld := ⟨0x06105C, 15, 0⟩

/-! Fields of SCAN. -/
def SCAN_FRAME_ADDR_BASE : Fld := ⟨0x070040, 31, 0⟩
def SCAN_FRAME_FMT_SOURCE : Fld := ⟨0x070044, 31, 31⟩
def SCAN_FRAME_FMT_FORMAT : Fld := ⟨0x070044, 17, 16⟩
def SCAN_FRAME_FMT_STRIDE : Fld := ⟨0x070044, 15, 0⟩
def SCAN_FRAME_ADDR_ACTIVE_BASE : Fld := ⟨0x070048, 31, 0⟩
def SCAN_FMT_ACTIVE_FMT : Fld := ⟨0x07004C, 31, 0⟩
def SCAN_SPLIT_SPLIT_X : Fld := ⟨0x070050, 15, 0⟩
def SCAN_LINE_BEAT : Fld := ⟨0x070054, 31, 30⟩
def SCAN_LINE_BLANK : Fld := ⟨0x070054, 29, 29⟩
def SCAN_LINE_LINE : Fld := ⟨0x070054, 15, 0⟩
def SCAN_LAG_NS : Fld := ⟨0x070058, 31, 0⟩
def SCAN_UNDERRUN_WAIT_NS : Fld := ⟨0x07005C, 15, 0⟩
def SCAN_HOLD_CELLS_HOLD_CELLS : Fld := ⟨0x070060, 31, 0⟩
def SCAN_LATE_COUNT_LATE_COUNT : Fld := ⟨0x070064, 31, 0⟩
def SCAN_PORT_LATE_PORTS : Fld := ⟨0x070068, 15, 0⟩
def SCAN_PORT_CELLS_CELLS : Fld := ⟨0x070080, 17, 0⟩
def SCAN_PORT_MARGIN_CLR : Fld := ⟨0x0700C0, 31, 31⟩
def SCAN_PORT_MARGIN_US : Fld := ⟨0x0700C0, 15, 0⟩

/-! Fields of PREVIEW. -/
def PREVIEW_CTRL_FEED : Fld := ⟨0x072040, 9, 8⟩
def PREVIEW_CTRL_P32A : Fld := ⟨0x072040, 4, 4⟩
def PREVIEW_CTRL_DIV : Fld := ⟨0x072040, 2, 0⟩
def PREVIEW_HOST_LO_HOST_LO : Fld := ⟨0x072044, 31, 0⟩
def PREVIEW_HOST_HI_HOST_HI : Fld := ⟨0x072048, 31, 0⟩
def PREVIEW_STRIDE_STRIDE : Fld := ⟨0x07204C, 15, 0⟩
def PREVIEW_BUF_OFFSET_BUF_OFFSET : Fld := ⟨0x072050, 31, 0⟩
def PREVIEW_STATUS_BUSY : Fld := ⟨0x072054, 31, 31⟩
def PREVIEW_STATUS_LAST_BUF : Fld := ⟨0x072054, 30, 30⟩
def PREVIEW_STATUS_MIXED : Fld := ⟨0x072054, 29, 29⟩
def PREVIEW_STATUS_FRAME_COUNT : Fld := ⟨0x072054, 15, 0⟩
def PREVIEW_OUT_SIZE_HO : Fld := ⟨0x072058, 31, 16⟩
def PREVIEW_OUT_SIZE_WO : Fld := ⟨0x072058, 15, 0⟩
def PREVIEW_SKIP_COUNT_SKIP_COUNT : Fld := ⟨0x07205C, 31, 0⟩

/-! Fields of TILETAB. -/
def TILETAB_INDEX_AUTO_INC : Fld := ⟨0x073040, 31, 31⟩
def TILETAB_INDEX_INDEX : Fld := ⟨0x073040, 11, 0⟩
def TILETAB_DATA_DATA : Fld := ⟨0x073044, 31, 0⟩
def TILETAB_CTRL_RD_IN_USE : Fld := ⟨0x073048, 0, 0⟩
def TILETAB_STATUS_SKIP_VALID : Fld := ⟨0x07304C, 31, 31⟩
def TILETAB_STATUS_ENTRIES : Fld := ⟨0x07304C, 26, 16⟩
def TILETAB_STATUS_SKIP_FIRST : Fld := ⟨0x07304C, 9, 0⟩

/-! Fields of PORT. -/
def PORT_LINK_CLK_OK : Fld := ⟨0x080040, 31, 31⟩
def PORT_LINK_ALIGNED : Fld := ⟨0x080040, 30, 30⟩
def PORT_LINK_SRC_LOST : Fld := ⟨0x080040, 29, 29⟩
def PORT_LINK_DIR : Fld := ⟨0x080040, 28, 28⟩
def PORT_LINK_TX_MAP : Fld := ⟨0x080040, 27, 25⟩
def PORT_LINK_RX_MAP : Fld := ⟨0x080040, 24, 22⟩
def PORT_LINK_REDUCED : Fld := ⟨0x080040, 21, 21⟩
def PORT_LINK_NEED_REDUCE : Fld := ⟨0x080040, 20, 20⟩
def PORT_LINK_TOPO : Fld := ⟨0x080040, 19, 18⟩
def PORT_LINK_PAIR_SLOT : Fld := ⟨0x080040, 17, 17⟩
def PORT_LINK_SENDER_ID : Fld := ⟨0x080040, 16, 14⟩
def PORT_LINK_PORT_ID : Fld := ⟨0x080040, 13, 10⟩
def PORT_LINK_HOPS : Fld := ⟨0x080040, 6, 0⟩
def PORT_LANES_SP : Fld := ⟨0x080044, 11, 8⟩
def PORT_LANES_D1 : Fld := ⟨0x080044, 7, 4⟩
def PORT_LANES_D0 : Fld := ⟨0x080044, 3, 0⟩
def PORT_EYE_WIDTH : Fld := ⟨0x080048, 21, 16⟩
def PORT_EYE_HEIGHT : Fld := ⟨0x080048, 9, 0⟩
def PORT_EYE_MIN_WIDTH : Fld := ⟨0x080054, 21, 16⟩
def PORT_EYE_MIN_HEIGHT : Fld := ⟨0x080054, 9, 0⟩
def PORT_CORR_COUNT : Fld := ⟨0x080058, 31, 0⟩
def PORT_CELL_ERR_CRC_FAIL : Fld := ⟨0x080064, 31, 16⟩
def PORT_CELL_ERR_SLIP : Fld := ⟨0x080064, 15, 0⟩
def PORT_CAUSE_TEST_ERR : Fld := ⟨0x080068, 16, 16⟩
def PORT_CAUSE_MON_LOST : Fld := ⟨0x080068, 15, 15⟩
def PORT_CAUSE_TILE_JOIN : Fld := ⟨0x080068, 14, 14⟩
def PORT_CAUSE_MON_EVENT : Fld := ⟨0x080068, 13, 13⟩
def PORT_CAUSE_ECHO_FAIL : Fld := ⟨0x080068, 12, 12⟩
def PORT_CAUSE_STRAY : Fld := ⟨0x080068, 11, 11⟩
def PORT_CAUSE_ID_MISMATCH : Fld := ⟨0x080068, 10, 10⟩
def PORT_CAUSE_UNNUMBERED : Fld := ⟨0x080068, 9, 9⟩
def PORT_CAUSE_RECAL_NOFIT : Fld := ⟨0x080068, 8, 8⟩
def PORT_CAUSE_FENCED : Fld := ⟨0x080068, 7, 7⟩
def PORT_CAUSE_REDUCED : Fld := ⟨0x080068, 6, 6⟩
def PORT_CAUSE_LANE_RETIRED : Fld := ⟨0x080068, 5, 5⟩
def PORT_CAUSE_DIR_LOST : Fld := ⟨0x080068, 4, 4⟩
def PORT_CAUSE_AM_ERR : Fld := ⟨0x080068, 3, 3⟩
def PORT_CAUSE_SLIP : Fld := ⟨0x080068, 2, 2⟩
def PORT_CAUSE_HDR_CRC : Fld := ⟨0x080068, 1, 1⟩
def PORT_CAUSE_UE : Fld := ⟨0x080068, 0, 0⟩
def PORT_CAUSE_EN_EN : Fld := ⟨0x08006C, 16, 0⟩
def PORT_RECAL_NOW : Fld := ⟨0x080070, 31, 31⟩
def PORT_RECAL_PERIOD_S : Fld := ⟨0x080070, 15, 0⟩
def PORT_LANE_CMD_RESTORE : Fld := ⟨0x080074, 8, 8⟩
def PORT_LANE_CMD_RETIRE : Fld := ⟨0x080074, 1, 0⟩
def PORT_CAL_ADDR_AUTO_INC : Fld := ⟨0x080078, 4, 4⟩
def PORT_CAL_ADDR_SET : Fld := ⟨0x080078, 3, 2⟩
def PORT_CAL_ADDR_LANE : Fld := ⟨0x080078, 1, 0⟩
def PORT_CAL_DATA_VREF_OFS : Fld := ⟨0x08007C, 31, 28⟩
def PORT_CAL_DATA_DFE_H2 : Fld := ⟨0x08007C, 27, 22⟩
def PORT_CAL_DATA_DFE_H1 : Fld := ⟨0x08007C, 21, 16⟩
def PORT_CAL_DATA_CTLE : Fld := ⟨0x08007C, 15, 12⟩
def PORT_CAL_DATA_PHASE : Fld := ⟨0x08007C, 11, 0⟩
def PORT_CAL_USE_VREF_OFS : Fld := ⟨0x080080, 31, 28⟩
def PORT_CAL_USE_DFE_H2 : Fld := ⟨0x080080, 27, 22⟩
def PORT_CAL_USE_DFE_H1 : Fld := ⟨0x080080, 21, 16⟩
def PORT_CAL_USE_CTLE : Fld := ⟨0x080080, 15, 12⟩
def PORT_CAL_USE_PHASE : Fld := ⟨0x080080, 11, 0⟩
def PORT_CAL_TEMP_TJ : Fld := ⟨0x080084, 15, 0⟩
def PORT_TEST_CHK_LANES : Fld := ⟨0x080088, 18, 16⟩
def PORT_TEST_GEN_LANES : Fld := ⟨0x080088, 14, 12⟩
def PORT_TEST_CLR : Fld := ⟨0x080088, 8, 8⟩
def PORT_TEST_PATTERN : Fld := ⟨0x080088, 2, 0⟩
def PORT_USER_LO_USER_LO : Fld := ⟨0x08008C, 31, 0⟩
def PORT_USER_HI_USER_HI : Fld := ⟨0x080090, 31, 0⟩
def PORT_INJECT_ONCE : Fld := ⟨0x080094, 31, 31⟩
def PORT_INJECT_REPEAT : Fld := ⟨0x080094, 30, 30⟩
def PORT_INJECT_LANE : Fld := ⟨0x080094, 29, 28⟩
def PORT_INJECT_BITS : Fld := ⟨0x080094, 21, 16⟩
def PORT_INJECT_EVERY_BLOCKS : Fld := ⟨0x080098, 31, 0⟩
def PORT_TEST_ERR_ERR_LO : Fld := ⟨0x0800A0, 31, 0⟩
def PORT_TEST_ERR1_LOCK : Fld := ⟨0x0800A4, 31, 31⟩
def PORT_TEST_ERR1_ERR_HI : Fld := ⟨0x0800A4, 15, 0⟩

/-! Fields of CHAINCTL. -/
def CHAINCTL_MODE_P7 : Fld := ⟨0x090040, 31, 28⟩
def CHAINCTL_MODE_P6 : Fld := ⟨0x090040, 27, 24⟩
def CHAINCTL_MODE_P5 : Fld := ⟨0x090040, 23, 20⟩
def CHAINCTL_MODE_P4 : Fld := ⟨0x090040, 19, 16⟩
def CHAINCTL_MODE_P3 : Fld := ⟨0x090040, 15, 12⟩
def CHAINCTL_MODE_P2 : Fld := ⟨0x090040, 11, 8⟩
def CHAINCTL_MODE_P1 : Fld := ⟨0x090040, 7, 4⟩
def CHAINCTL_MODE_P0 : Fld := ⟨0x090040, 3, 0⟩
def CHAINCTL_SHARE_BULK : Fld := ⟨0x090048, 7, 4⟩
def CHAINCTL_REDUCE_FORCE : Fld := ⟨0x09004C, 31, 16⟩
def CHAINCTL_REDUCE_REDUCED : Fld := ⟨0x09004C, 15, 0⟩
def CHAINCTL_STATUS_BASE_STATUS_BASE : Fld := ⟨0x090050, 31, 0⟩
def CHAINCTL_MON_BASE_MON_BASE : Fld := ⟨0x090054, 31, 0⟩
def CHAINCTL_MON_SLOTS_SLOTS : Fld := ⟨0x090058, 12, 0⟩
def CHAINCTL_MON_HEAD_HEAD : Fld := ⟨0x09005C, 11, 0⟩
def CHAINCTL_MON_TAIL_TAIL : Fld := ⟨0x090060, 11, 0⟩
def CHAINCTL_TILE_ID_VALID : Fld := ⟨0x090070, 31, 31⟩
def CHAINCTL_TILE_ID_MISMATCH : Fld := ⟨0x090070, 30, 30⟩
def CHAINCTL_TILE_ID_ID_S : Fld := ⟨0x090070, 25, 13⟩
def CHAINCTL_TILE_ID_ID : Fld := ⟨0x090070, 12, 0⟩
def CHAINCTL_TILE_CFG_TOPO : Fld := ⟨0x090074, 9, 8⟩
def CHAINCTL_TILE_CFG_STATUS_BARS : Fld := ⟨0x090074, 7, 0⟩
def CHAINCTL_MON_LOST_COUNT : Fld := ⟨0x090078, 15, 0⟩

/-! Fields of RELAY. -/
def RELAY_TARGET_TILE_ID : Fld := ⟨0x091040, 12, 0⟩
def RELAY_TIMEOUT_US : Fld := ⟨0x091044, 15, 0⟩
def RELAY_STATUS_WR_PENDING : Fld := ⟨0x091048, 12, 8⟩
def RELAY_STATUS_LAST_RESULT : Fld := ⟨0x091048, 2, 0⟩
def RELAY_FAIL_COUNT_COUNT : Fld := ⟨0x09104C, 31, 0⟩

/-! Fields of TILERX. -/
def TILERX_BEAT_MAP_MAP : Fld := ⟨0x0A0040, 11, 0⟩
def TILERX_GAP_US : Fld := ⟨0x0A0044, 8, 0⟩
def TILERX_HOLD_SHOW : Fld := ⟨0x0A0048, 31, 31⟩
def TILERX_HOLD_IMAGE : Fld := ⟨0x0A0048, 21, 16⟩
def TILERX_HOLD_FLY_BARS : Fld := ⟨0x0A0048, 15, 0⟩
def TILERX_SLEW_MAX_US : Fld := ⟨0x0A004C, 15, 0⟩
def TILERX_HOLD_DRAM_BASE_BASE : Fld := ⟨0x0A0050, 31, 0⟩
def TILERX_HOLD_VALID_LO_LO : Fld := ⟨0x0A0054, 31, 0⟩
def TILERX_HOLD_VALID_HI_HI : Fld := ⟨0x0A0058, 31, 0⟩
def TILERX_STATUS_HOLD_SHOWN : Fld := ⟨0x0A005C, 31, 31⟩
def TILERX_STATUS_WAITING : Fld := ⟨0x0A005C, 30, 30⟩
def TILERX_STATUS_FEED : Fld := ⟨0x0A005C, 29, 28⟩
def TILERX_STATUS_BEAT : Fld := ⟨0x0A005C, 27, 26⟩
def TILERX_STATUS_DARK : Fld := ⟨0x0A005C, 25, 25⟩
def TILERX_STATUS_BUF_USED : Fld := ⟨0x0A005C, 24, 16⟩
def TILERX_STATUS_OPEN : Fld := ⟨0x0A005C, 1, 0⟩
def TILERX_OFFSET_STEPS : Fld := ⟨0x0A0060, 31, 0⟩
def TILERX_MARGIN_MIN_CLR : Fld := ⟨0x0A0064, 31, 31⟩
def TILERX_MARGIN_MIN_US : Fld := ⟨0x0A0064, 15, 0⟩
def TILERX_IMAGES_COUNT : Fld := ⟨0x0A0068, 31, 0⟩
def TILERX_LATE_COUNT_COUNT : Fld := ⟨0x0A006C, 31, 0⟩
def TILERX_INCOMPLETE_COUNT : Fld := ⟨0x0A0070, 31, 0⟩
def TILERX_QUEUE_DROP_COUNT : Fld := ⟨0x0A0074, 31, 0⟩

/-! Fields of CORRECT. -/
def CORRECT_CTRL_COEF_VALID_1 : Fld := ⟨0x0A1040, 5, 5⟩
def CORRECT_CTRL_COEF_VALID_0 : Fld := ⟨0x0A1040, 4, 4⟩
def CORRECT_CTRL_TEMP_EN : Fld := ⟨0x0A1040, 2, 2⟩
def CORRECT_CTRL_UNIFORM : Fld := ⟨0x0A1040, 1, 1⟩
def CORRECT_CTRL_COEF_SET : Fld := ⟨0x0A1040, 0, 0⟩
def CORRECT_STATUS_OLD_BUSY : Fld := ⟨0x0A1044, 31, 31⟩
def CORRECT_STATUS_SET_ACTIVE : Fld := ⟨0x0A1044, 30, 30⟩
def CORRECT_TC_ADDR_AUTO_INC : Fld := ⟨0x0A1048, 31, 31⟩
def CORRECT_TC_ADDR_IN_USE : Fld := ⟨0x0A1048, 8, 8⟩
def CORRECT_TC_ADDR_INDEX : Fld := ⟨0x0A1048, 5, 0⟩
def CORRECT_TC_DATA_TG : Fld := ⟨0x0A104C, 15, 0⟩
def CORRECT_BAND_TEMP_SUBST : Fld := ⟨0x0A1050, 31, 31⟩
def CORRECT_BAND_TEMP_TJ : Fld := ⟨0x0A1050, 15, 0⟩

/-! Fields of EOTF. -/
def EOTF_TAB_ADDR_AUTO_INC : Fld := ⟨0x0A2040, 31, 31⟩
def EOTF_TAB_ADDR_IN_USE : Fld := ⟨0x0A2040, 16, 16⟩
def EOTF_TAB_ADDR_INDEX : Fld := ⟨0x0A2040, 11, 0⟩
def EOTF_TAB_DATA_LIN : Fld := ⟨0x0A2044, 19, 0⟩

/-! Fields of DOSE. -/
def DOSE_CTRL_AGE_EN : Fld := ⟨0x0A3040, 31, 31⟩
def DOSE_CTRL_GAIN_SEL : Fld := ⟨0x0A3040, 17, 17⟩
def DOSE_CTRL_DOSE_EN : Fld := ⟨0x0A3040, 16, 16⟩
def DOSE_CTRL_HEADROOM : Fld := ⟨0x0A3040, 12, 0⟩
def DOSE_CURVE_ADDR_AUTO_INC : Fld := ⟨0x0A3044, 31, 31⟩
def DOSE_CURVE_ADDR_COLOUR : Fld := ⟨0x0A3044, 5, 4⟩
def DOSE_CURVE_ADDR_POINT : Fld := ⟨0x0A3044, 3, 0⟩
def DOSE_CURVE_DOSE_DOSE : Fld := ⟨0x0A3048, 31, 0⟩
def DOSE_CURVE_LUM_LUM : Fld := ⟨0x0A304C, 15, 0⟩
def DOSE_STATUS_OLD_BUSY : Fld := ⟨0x0A3050, 31, 31⟩
def DOSE_STATUS_SAT : Fld := ⟨0x0A3050, 30, 30⟩
def DOSE_STATUS_FLUSH_AGE : Fld := ⟨0x0A3050, 15, 0⟩
def DOSE_KH_KH : Fld := ⟨0x0A3054, 16, 0⟩

/-! Fields of BAND. -/
def BAND_IFS_R_UA : Fld := ⟨0x0B0040, 12, 0⟩
def BAND_IFS_G_UA : Fld := ⟨0x0B0044, 12, 0⟩
def BAND_IFS_B_UA : Fld := ⟨0x0B0048, 12, 0⟩
def BAND_CLAMP : Fld := ⟨0x0B004C, 4, 0⟩
def BAND_STATUS_SKIPPED : Fld := ⟨0x0B0050, 3, 3⟩
def BAND_STATUS_TB : Fld := ⟨0x0B0050, 2, 0⟩
def BAND_TRIM_ADDR_AUTO_INC : Fld := ⟨0x0B0054, 31, 31⟩
def BAND_TRIM_ADDR_IN_USE : Fld := ⟨0x0B0054, 15, 15⟩
def BAND_TRIM_ADDR_SET : Fld := ⟨0x0B0054, 13, 12⟩
def BAND_TRIM_ADDR_CH : Fld := ⟨0x0B0054, 9, 0⟩
def BAND_TRIM_DATA_CODE : Fld := ⟨0x0B0058, 5, 0⟩
def BAND_TRIM_CTRL_AUTO : Fld := ⟨0x0B005C, 16, 16⟩
def BAND_TRIM_CTRL_LIMIT : Fld := ⟨0x0B005C, 7, 0⟩
def BAND_RESID_R : Fld := ⟨0x0B0060, 7, 0⟩
def BAND_RESID_WORST_CH : Fld := ⟨0x0B0064, 25, 16⟩
def BAND_RESID_WORST_R : Fld := ⟨0x0B0064, 7, 0⟩
def BAND_SWEEPS_COUNT : Fld := ⟨0x0B0068, 31, 0⟩

/-! Fields of DRIVECTL. -/
def DRIVECTL_GEOMETRY_BANDS : Fld := ⟨0x0B4040, 17, 16⟩
def DRIVECTL_GEOMETRY_COLS : Fld := ⟨0x0B4040, 15, 8⟩
def DRIVECTL_GEOMETRY_ROWS : Fld := ⟨0x0B4040, 6, 0⟩
def DRIVECTL_PASSES_P4 : Fld := ⟨0x0B4044, 23, 16⟩
def DRIVECTL_PASSES_P2 : Fld := ⟨0x0B4044, 15, 8⟩
def DRIVECTL_PASSES_P1 : Fld := ⟨0x0B4044, 7, 0⟩
def DRIVECTL_CEILING_UA : Fld := ⟨0x0B4048, 12, 0⟩
def DRIVECTL_CEILING_ACTIVE_UA : Fld := ⟨0x0B404C, 12, 0⟩
def DRIVECTL_DIM_TARGET_R_B : Fld := ⟨0x0B4050, 15, 0⟩
def DRIVECTL_DIM_TARGET_G_B : Fld := ⟨0x0B4054, 15, 0⟩
def DRIVECTL_DIM_TARGET_B_B : Fld := ⟨0x0B4058, 15, 0⟩
def DRIVECTL_FADE_GO : Fld := ⟨0x0B405C, 31, 31⟩
def DRIVECTL_FADE_BUSY : Fld := ⟨0x0B405C, 30, 30⟩
def DRIVECTL_FADE_CURVE : Fld := ⟨0x0B405C, 17, 16⟩
def DRIVECTL_FADE_BARS : Fld := ⟨0x0B405C, 15, 0⟩
def DRIVECTL_B_NOW_R_DAC : Fld := ⟨0x0B4060, 23, 16⟩
def DRIVECTL_B_NOW_R_B : Fld := ⟨0x0B4060, 15, 0⟩
def DRIVECTL_B_NOW_G_DAC : Fld := ⟨0x0B4064, 23, 16⟩
def DRIVECTL_B_NOW_G_B : Fld := ⟨0x0B4064, 15, 0⟩
def DRIVECTL_B_NOW_B_DAC : Fld := ⟨0x0B4068, 23, 16⟩
def DRIVECTL_B_NOW_B_B : Fld := ⟨0x0B4068, 15, 0⟩
def DRIVECTL_CROSSOVER_BX : Fld := ⟨0x0B406C, 15, 0⟩
def DRIVECTL_PQ_PEAK_NITS : Fld := ⟨0x0B4070, 15, 0⟩
def DRIVECTL_SPL_ADDR_AUTO_INC : Fld := ⟨0x0B4074, 31, 31⟩
def DRIVECTL_SPL_ADDR_IN_USE : Fld := ⟨0x0B4074, 8, 8⟩
def DRIVECTL_SPL_ADDR_COLOUR : Fld := ⟨0x0B4074, 7, 6⟩
def DRIVECTL_SPL_ADDR_ENTRY : Fld := ⟨0x0B4074, 5, 0⟩
def DRIVECTL_SPL_DATA_Y : Fld := ⟨0x0B4078, 10, 0⟩
def DRIVECTL_PLAN_P : Fld := ⟨0x0B407C, 31, 24⟩
def DRIVECTL_PLAN_SLOT : Fld := ⟨0x0B407C, 23, 12⟩
def DRIVECTL_PLAN_W : Fld := ⟨0x0B407C, 11, 0⟩
def DRIVECTL_SLACK_STEPS : Fld := ⟨0x0B4080, 19, 0⟩
def DRIVECTL_PASS_COUNT_COUNT : Fld := ⟨0x0B4084, 31, 0⟩

/-! Fields of DIAG. -/
def DIAG_CTRL_CLEAR : Fld := ⟨0x0B5040, 31, 31⟩
def DIAG_CTRL_NEIGHBOUR_EN : Fld := ⟨0x0B5040, 9, 9⟩
def DIAG_CTRL_DIAG_PULSE : Fld := ⟨0x0B5040, 8, 8⟩
def DIAG_CTRL_DETECT_EN : Fld := ⟨0x0B5040, 0, 0⟩
def DIAG_POLICY_NEIGHBOUR : Fld := ⟨0x0B5044, 13, 12⟩
def DIAG_POLICY_LAMP_SHORT : Fld := ⟨0x0B5044, 9, 8⟩
def DIAG_POLICY_OPEN : Fld := ⟨0x0B5044, 5, 4⟩
def DIAG_STALE_BARS : Fld := ⟨0x0B5048, 15, 0⟩
def DIAG_TAB_ADDR_AUTO_INC : Fld := ⟨0x0B504C, 31, 31⟩
def DIAG_TAB_ADDR_E : Fld := ⟨0x0B504C, 17, 0⟩
def DIAG_TAB_DATA_STATE : Fld := ⟨0x0B5050, 31, 29⟩
def DIAG_TAB_DATA_FORCED : Fld := ⟨0x0B5050, 28, 28⟩
def DIAG_TAB_DATA_RUN : Fld := ⟨0x0B5050, 27, 26⟩
def DIAG_TAB_DATA_PENDING : Fld := ⟨0x0B5050, 25, 23⟩
def DIAG_TAB_DATA_AGE : Fld := ⟨0x0B5050, 15, 0⟩
def DIAG_OPEN_COUNT : Fld := ⟨0x0B5054, 17, 0⟩
def DIAG_LAMP_SHORT_COUNT : Fld := ⟨0x0B5058, 17, 0⟩
def DIAG_NEIGHBOUR_COUNT : Fld := ⟨0x0B505C, 11, 0⟩
def DIAG_UNTESTED_COUNT : Fld := ⟨0x0B5060, 17, 0⟩
def DIAG_OLDEST_AGE : Fld := ⟨0x0B5064, 15, 0⟩

/-! Fields of REDUN. -/
def REDUN_CFG_AUTO_CLAIM : Fld := ⟨0x0C0040, 31, 31⟩
def REDUN_CFG_MISS_LIMIT : Fld := ⟨0x0C0040, 19, 16⟩
def REDUN_CFG_PERIOD_US : Fld := ⟨0x0C0040, 15, 0⟩
def REDUN_CMD_CLEAR_RELEASE : Fld := ⟨0x0C0044, 1, 1⟩
def REDUN_CMD_FORCE_RELEASE : Fld := ⟨0x0C0044, 0, 0⟩
def REDUN_STATUS_ACTIVE : Fld := ⟨0x0C0048, 31, 31⟩
def REDUN_STATUS_OWN : Fld := ⟨0x0C0048, 30, 30⟩
def REDUN_STATUS_PEER : Fld := ⟨0x0C0048, 29, 29⟩
def REDUN_STATUS_PEER_FAIL : Fld := ⟨0x0C0048, 28, 28⟩
def REDUN_STATUS_SB_FAIL : Fld := ⟨0x0C0048, 27, 27⟩
def REDUN_STATUS_RING_FAIL : Fld := ⟨0x0C0048, 26, 26⟩
def REDUN_STATUS_PAIR_LOCK : Fld := ⟨0x0C0048, 25, 25⟩
def REDUN_STATUS_DISAGREE : Fld := ⟨0x0C0048, 24, 24⟩
def REDUN_STATUS_PEER_STATE : Fld := ⟨0x0C0048, 23, 20⟩
def REDUN_PEER_SEQ_SEQ : Fld := ⟨0x0C004C, 31, 0⟩
def REDUN_TOLL_DELAY_PS : Fld := ⟨0x0C0050, 23, 0⟩
def REDUN_LAST_CLAIM_TIME : Fld := ⟨0x0C0054, 31, 0⟩
def REDUN_MISSES_RING : Fld := ⟨0x0C0058, 31, 16⟩
def REDUN_MISSES_SB : Fld := ⟨0x0C0058, 15, 0⟩
def REDUN_TOLL_CRC_COUNT : Fld := ⟨0x0C005C, 31, 0⟩
def REDUN_TILE_OBEY : Fld := ⟨0x0C0060, 1, 0⟩
def REDUN_TILE_SWITCHES_COUNT : Fld := ⟨0x0C0064, 31, 0⟩

/-! Fields of MIRROR. -/
def MIRROR_CFG_EPOCH_MS : Fld := ⟨0x0C1040, 31, 16⟩
def MIRROR_CFG_CHANGE_MS : Fld := ⟨0x0C1040, 15, 0⟩
def MIRROR_STAGE_BASE_BASE : Fld := ⟨0x0C1044, 31, 0⟩
def MIRROR_EPOCH_SENT_SENT : Fld := ⟨0x0C1048, 31, 0⟩
def MIRROR_EPOCH_APPLIED_APPLIED : Fld := ⟨0x0C104C, 31, 0⟩
def MIRROR_STATUS_SYNCED : Fld := ⟨0x0C1050, 31, 31⟩
def MIRROR_STATUS_SENDING : Fld := ⟨0x0C1050, 30, 30⟩
def MIRROR_STATUS_RECEIVING : Fld := ⟨0x0C1050, 29, 29⟩
def MIRROR_STATUS_APPLYING : Fld := ⟨0x0C1050, 28, 28⟩
def MIRROR_STATUS_AGE_MS : Fld := ⟨0x0C1050, 15, 0⟩
def MIRROR_CMD_FULL : Fld := ⟨0x0C1054, 0, 0⟩
def MIRROR_FAIL_COUNT_COUNT : Fld := ⟨0x0C1058, 31, 0⟩
def MIRROR_REGION_BASE_BASE : Fld := ⟨0x0C1080, 31, 0⟩
def MIRROR_REGION_SIZE_BLOCKS : Fld := ⟨0x0C1084, 11, 0⟩

/-! Fields of BANK. -/
def BANK_OWNER_HANDOVER : Fld := ⟨0x0D0040, 31, 31⟩
def BANK_OWNER_OWNER : Fld := ⟨0x0D0040, 2, 0⟩
def BANK_STATUS_MERGE : Fld := ⟨0x0D0044, 11, 8⟩
def BANK_STATUS_REMAP : Fld := ⟨0x0D0044, 7, 0⟩
def BANK_CONF_OWNER_COUNT : Fld := ⟨0x0D0048, 31, 0⟩
def BANK_CONF_SCRUB_COUNT : Fld := ⟨0x0D004C, 31, 0⟩
def BANK_CONF_BELFRY_COUNT : Fld := ⟨0x0D0050, 31, 0⟩
def BANK_CONF_HOST_COUNT : Fld := ⟨0x0D0054, 31, 0⟩
def BANK_DENY_COUNT_COUNT : Fld := ⟨0x0D0058, 31, 0⟩
def BANK_FLIP_MASK_MASK : Fld := ⟨0x0D0060, 31, 0⟩
def BANK_FLIP_MASK_4_CHECK : Fld := ⟨0x0D0070, 8, 0⟩
def BANK_REMAP_VALID : Fld := ⟨0x0D0080, 31, 31⟩
def BANK_REMAP_COPYING : Fld := ⟨0x0D0080, 30, 30⟩
def BANK_REMAP_WORD : Fld := ⟨0x0D0080, 15, 0⟩

/-! Fields of ECC. -/
def ECC_SCRUB_EN : Fld := ⟨0x0D8040, 31, 31⟩
def ECC_SCRUB_NOW : Fld := ⟨0x0D8040, 30, 30⟩
def ECC_SCRUB_PERIOD_H : Fld := ⟨0x0D8040, 7, 0⟩
def ECC_SCRUB_STATUS_PASSES : Fld := ⟨0x0D8044, 31, 16⟩
def ECC_SCRUB_STATUS_PERCENT : Fld := ⟨0x0D8044, 6, 0⟩
def ECC_STATUS_SRAM_FILLED : Fld := ⟨0x0D8048, 31, 31⟩
def ECC_STATUS_DRAM_FILLED : Fld := ⟨0x0D8048, 30, 30⟩
def ECC_STATUS_CE_BANKS : Fld := ⟨0x0D8048, 7, 0⟩
def ECC_EVQ_LOST : Fld := ⟨0x0D804C, 31, 16⟩
def ECC_EVQ_LEVEL : Fld := ⟨0x0D804C, 6, 0⟩
def ECC_DREMAP_ADDR_PORT : Fld := ⟨0x0D8050, 5, 4⟩
def ECC_DREMAP_ADDR_ENTRY : Fld := ⟨0x0D8050, 3, 0⟩
def ECC_DREMAP_DATA_VALID : Fld := ⟨0x0D8054, 31, 31⟩
def ECC_DREMAP_DATA_COPYING : Fld := ⟨0x0D8054, 30, 30⟩
def ECC_DREMAP_DATA_RANK : Fld := ⟨0x0D8054, 29, 29⟩
def ECC_DREMAP_DATA_CHANNEL : Fld := ⟨0x0D8054, 28, 27⟩
def ECC_DREMAP_DATA_BANK : Fld := ⟨0x0D8054, 26, 23⟩
def ECC_DREMAP_DATA_ROW : Fld := ⟨0x0D8054, 17, 0⟩
def ECC_SPLIT_CTRL_GO : Fld := ⟨0x0D8060, 31, 31⟩
def ECC_SPLIT_CTRL_CHECK : Fld := ⟨0x0D8060, 30, 30⟩
def ECC_SPLIT_CTRL_SPACE : Fld := ⟨0x0D8060, 29, 28⟩
def ECC_SPLIT_CTRL_TAG : Fld := ⟨0x0D8060, 27, 27⟩
def ECC_SPLIT_ADDR_WORD : Fld := ⟨0x0D8064, 31, 0⟩
def ECC_SPLIT_DATA_DATA : Fld := ⟨0x0D8068, 31, 0⟩
def ECC_SPLIT_CHECK_TAG : Fld := ⟨0x0D8078, 15, 9⟩
def ECC_SPLIT_CHECK_CHECK : Fld := ⟨0x0D8078, 8, 0⟩

/-! Fields of DRAM. -/
def DRAM_STATUS_POPULATED : Fld := ⟨0x0E0040, 31, 31⟩
def DRAM_STATUS_RANKS : Fld := ⟨0x0E0040, 30, 29⟩
def DRAM_STATUS_TB : Fld := ⟨0x0E0040, 26, 24⟩
def DRAM_STATUS_REF_MULT : Fld := ⟨0x0E0040, 23, 20⟩
def DRAM_STATUS_RATE : Fld := ⟨0x0E0040, 19, 18⟩
def DRAM_STATUS_CAP_MIB : Fld := ⟨0x0E0040, 15, 0⟩
def DRAM_RATE_CFG_STEP_EN : Fld := ⟨0x0E0044, 8, 8⟩
def DRAM_RATE_CFG_RATE_MAX : Fld := ⟨0x0E0044, 1, 0⟩
def DRAM_ECC_RATE_CE_LAST : Fld := ⟨0x0E0048, 31, 16⟩
def DRAM_ECC_RATE_MAX : Fld := ⟨0x0E0048, 15, 0⟩
def DRAM_REF_FORCED : Fld := ⟨0x0E004C, 31, 16⟩
def DRAM_REF_CLR : Fld := ⟨0x0E004C, 15, 15⟩
def DRAM_REF_DEBT_MAX : Fld := ⟨0x0E004C, 3, 0⟩
def DRAM_TRAIN_BUSY : Fld := ⟨0x0E0050, 31, 31⟩
def DRAM_TRAIN_NOFIT : Fld := ⟨0x0E0050, 30, 30⟩
def DRAM_TRAIN_SLICES_LEFT : Fld := ⟨0x0E0050, 21, 16⟩
def DRAM_TRAIN_RETRAINS : Fld := ⟨0x0E0050, 15, 0⟩
def DRAM_CMD_RATE_RESTORE : Fld := ⟨0x0E0054, 1, 1⟩
def DRAM_CMD_RETRAIN : Fld := ⟨0x0E0054, 0, 0⟩
def DRAM_UTIL_BULK : Fld := ⟨0x0E0058, 15, 8⟩
def DRAM_UTIL_RT : Fld := ⟨0x0E0058, 7, 0⟩
def DRAM_FLIP_MASK_MASK : Fld := ⟨0x0E0060, 31, 0⟩
def DRAM_FLIP_MASK_4_CHECK : Fld := ⟨0x0E0070, 8, 0⟩

/-! Fields of DRAMCTL. -/
def DRAMCTL_MAP_PORTS : Fld := ⟨0x0E4040, 31, 28⟩
def DRAMCTL_MAP_CH2 : Fld := ⟨0x0E4040, 27, 27⟩
def DRAMCTL_CAPACITY_MIB : Fld := ⟨0x0E4044, 31, 0⟩
def DRAMCTL_BAR2_BASE_BASE : Fld := ⟨0x0E4048, 23, 0⟩
def DRAMCTL_HINT_HINT : Fld := ⟨0x0E404C, 17, 0⟩
def DRAMCTL_PD_TIMER_NS : Fld := ⟨0x0E4050, 15, 0⟩
def DRAMCTL_BULK_AGE_NS : Fld := ⟨0x0E4054, 15, 0⟩
def DRAMCTL_CANVAS_LIMIT_AFTER_RESTART : Fld := ⟨0x0E4058, 31, 16⟩
def DRAMCTL_CANVAS_LIMIT_NOW : Fld := ⟨0x0E4058, 15, 0⟩
def DRAMCTL_STATUS_INORDER : Fld := ⟨0x0E405C, 15, 0⟩

/-! Fields of UPDATE. -/
def UPDATE_CMD_SEND : Fld := ⟨0x0F0040, 6, 6⟩
def UPDATE_CMD_WRITE : Fld := ⟨0x0F0040, 5, 5⟩
def UPDATE_CMD_CONFIRM : Fld := ⟨0x0F0040, 4, 4⟩
def UPDATE_CMD_ACTIVATE : Fld := ⟨0x0F0040, 3, 3⟩
def UPDATE_CMD_VERIFY : Fld := ⟨0x0F0040, 2, 2⟩
def UPDATE_CMD_ABORT : Fld := ⟨0x0F0040, 1, 1⟩
def UPDATE_CMD_OPEN : Fld := ⟨0x0F0040, 0, 0⟩
def UPDATE_STATUS_TRIAL : Fld := ⟨0x0F0044, 31, 31⟩
def UPDATE_STATUS_ROLLED_BACK : Fld := ⟨0x0F0044, 30, 30⟩
def UPDATE_STATUS_RUN_SLOT : Fld := ⟨0x0F0044, 29, 29⟩
def UPDATE_STATUS_BLOCK_BUSY : Fld := ⟨0x0F0044, 28, 28⟩
def UPDATE_STATUS_BULK_BUSY : Fld := ⟨0x0F0044, 27, 27⟩
def UPDATE_STATUS_FAIL_CODE : Fld := ⟨0x0F0044, 26, 24⟩
def UPDATE_BLOCK_OFFSET_OFFSET : Fld := ⟨0x0F0048, 23, 0⟩
def UPDATE_BLOCK_LEN_LEN : Fld := ⟨0x0F004C, 12, 0⟩
def UPDATE_BLOCK_DATA_DATA : Fld := ⟨0x0F0050, 31, 0⟩
def UPDATE_RUN_VERSION_VERSION : Fld := ⟨0x0F0054, 31, 0⟩
def UPDATE_STAGED_VERSION_VERSION : Fld := ⟨0x0F0058, 31, 0⟩
def UPDATE_CONFIRM_LEFT : Fld := ⟨0x0F005C, 31, 16⟩
def UPDATE_CONFIRM_TIMEOUT_S : Fld := ⟨0x0F005C, 15, 0⟩
def UPDATE_SESSION_SESSION : Fld := ⟨0x0F0060, 15, 0⟩
def UPDATE_PAGES_PAGES : Fld := ⟨0x0F0064, 16, 0⟩
def UPDATE_MISSING_COUNT : Fld := ⟨0x0F0068, 31, 16⟩
def UPDATE_MISSING_FIRST : Fld := ⟨0x0F0068, 15, 0⟩
def UPDATE_DROPPED_DROPPED : Fld := ⟨0x0F006C, 31, 0⟩
def UPDATE_BULK_ADDR : Fld := ⟨0x0F0070, 31, 0⟩
def UPDATE_BULK_LEN : Fld := ⟨0x0F0074, 24, 0⟩
def UPDATE_BULK_OFS : Fld := ⟨0x0F0078, 31, 0⟩
def UPDATE_BULK_DEST_AREA : Fld := ⟨0x0F007C, 31, 29⟩
def UPDATE_BULK_DEST_GROUP : Fld := ⟨0x0F007C, 28, 28⟩
def UPDATE_BULK_DEST_TILE_ID : Fld := ⟨0x0F007C, 12, 0⟩
def UPDATE_BULK_SESSION_SESSION : Fld := ⟨0x0F0080, 31, 16⟩
def UPDATE_BULK_SESSION_PORTS : Fld := ⟨0x0F0080, 15, 0⟩
def UPDATE_BULK_RATE_RATE : Fld := ⟨0x0F0084, 15, 0⟩

/-! Fields of SETTINGS. -/
def SETTINGS_CMD_SAVE : Fld := ⟨0x0F1040, 0, 0⟩
def SETTINGS_STATUS_SAVING : Fld := ⟨0x0F1044, 31, 31⟩
def SETTINGS_STATUS_MIGRATED : Fld := ⟨0x0F1044, 30, 30⟩
def SETTINGS_STATUS_DEFAULTED : Fld := ⟨0x0F1044, 29, 29⟩
def SETTINGS_STATUS_COPY : Fld := ⟨0x0F1044, 28, 28⟩
def SETTINGS_STATUS_FORMAT : Fld := ⟨0x0F1044, 15, 0⟩
def SETTINGS_SEQ_SEQ : Fld := ⟨0x0F1048, 31, 0⟩
def SETTINGS_LIST_ADDR_AUTO_INC : Fld := ⟨0x0F104C, 31, 31⟩
def SETTINGS_LIST_ADDR_INDEX : Fld := ⟨0x0F104C, 9, 0⟩
def SETTINGS_LIST_DATA_ADDR : Fld := ⟨0x0F1050, 23, 0⟩

/-! Fields of LOG. -/
def LOG_NEWEST_SEQ_SEQ : Fld := ⟨0x0F2040, 31, 0⟩
def LOG_OLDEST_SEQ_SEQ : Fld := ⟨0x0F2044, 31, 0⟩
def LOG_READ_SEQ_SEQ : Fld := ⟨0x0F2048, 31, 0⟩
def LOG_READ_STATUS_READY : Fld := ⟨0x0F204C, 31, 31⟩
def LOG_READ_STATUS_FOUND : Fld := ⟨0x0F204C, 30, 30⟩
def LOG_READ_DATA : Fld := ⟨0x0F2050, 31, 0⟩
def LOG_LOST_COUNT : Fld := ⟨0x0F2070, 31, 0⟩

/-! Fields of DEBUG. -/
def DEBUG_CTRL_UNLOCK : Fld := ⟨0x0F8040, 31, 31⟩
def DEBUG_CTRL_WDOG_HOLD : Fld := ⟨0x0F8040, 30, 30⟩
def DEBUG_CTRL_HALTED : Fld := ⟨0x0F8040, 29, 29⟩

end F

end Sys2Proof.Machine
end

