-- ==== Sys2Proof/Machine/EventTable.lean ====
section
/-! DEFINITION. The 256 global events: number, page and local bit of each, from the event tables of the chapters (spec/02 to spec/15; R44 to R47). -/

namespace Sys2Proof.Machine

/-- A global event: its number, its page and its local bit (spec/02_register_pages.md, Events). -/
structure Ev where
  num : Nat
  page : Nat
  bit : Nat
deriving DecidableEq, Repr

namespace E

/-- Event 0, occurrence. -/
def REG_ACCESS : Ev := ⟨0, 0x000, 0⟩
/-- Event 1, occurrence. -/
def CHANGE_LOST : Ev := ⟨1, 0x000, 1⟩
/-- Event 2, occurrence. -/
def BELFRY_RESTART : Ev := ⟨2, 0x008, 0⟩
/-- Event 3, occurrence. -/
def LOCKSTEP : Ev := ⟨3, 0x008, 1⟩
/-- Event 4, occurrence. -/
def BELFRY_BUS_ERR : Ev := ⟨4, 0x008, 2⟩
/-- Event 48, condition. -/
def ETH_A_DOWN : Ev := ⟨48, 0x030, 0⟩
/-- Event 49, occurrence. -/
def ETH_A_FEC : Ev := ⟨49, 0x030, 1⟩
/-- Event 50, occurrence. -/
def ETH_A_DROP : Ev := ⟨50, 0x030, 2⟩
/-- Event 51, condition. -/
def ETH_B_DOWN : Ev := ⟨51, 0x031, 0⟩
/-- Event 52, occurrence. -/
def ETH_B_FEC : Ev := ⟨52, 0x031, 1⟩
/-- Event 53, occurrence. -/
def ETH_B_DROP : Ev := ⟨53, 0x031, 2⟩
/-- Event 54, occurrence. -/
def FLOW_STOP : Ev := ⟨54, 0x042, 0⟩
/-- Event 55, occurrence. -/
def FLOW_START : Ev := ⟨55, 0x042, 1⟩
/-- Event 56, occurrence. -/
def FLOW_MALFORMED : Ev := ⟨56, 0x042, 2⟩
/-- Event 57, occurrence. -/
def FLOW_CONCEAL : Ev := ⟨57, 0x042, 3⟩
/-- Event 58, condition. -/
def PATH_LOSS : Ev := ⟨58, 0x042, 4⟩
/-- Event 59, occurrence. -/
def MERGE_SKEW : Ev := ⟨59, 0x042, 5⟩
/-- Event 64, condition. -/
def USB4_LINK : Ev := ⟨64, 0x048, 0⟩
/-- Event 65, condition. -/
def USB4_GEN2 : Ev := ⟨65, 0x048, 1⟩
/-- Event 66, occurrence. -/
def PCIE_ERR : Ev := ⟨66, 0x048, 2⟩
/-- Event 67, occurrence. -/
def DMA_DONE : Ev := ⟨67, 0x048, 3⟩
/-- Event 68, occurrence. -/
def DMA_ERR : Ev := ⟨68, 0x048, 4⟩
/-- Event 69, condition. -/
def DP_LOCK : Ev := ⟨69, 0x049, 0⟩
/-- Event 70, occurrence. -/
def DP_LOST : Ev := ⟨70, 0x049, 1⟩
/-- Event 71, occurrence. -/
def DP_FORMAT : Ev := ⟨71, 0x049, 2⟩
/-- Event 72, occurrence. -/
def SRP_MALFORMED : Ev := ⟨72, 0x04A, 0⟩
/-- Event 73, occurrence. -/
def RELAY_TIMEOUT : Ev := ⟨73, 0x091, 0⟩
/-- Event 74, occurrence. -/
def RELAY_ERROR : Ev := ⟨74, 0x091, 1⟩
/-- Event 80, occurrence. -/
def TIME_STEP_BACK : Ev := ⟨80, 0x020, 0⟩
/-- Event 81, occurrence. -/
def TS_OVERFLOW : Ev := ⟨81, 0x020, 1⟩
/-- Event 82, occurrence. -/
def LAUNCH_EVENT : Ev := ⟨82, 0x021, 0⟩
/-- Event 83, occurrence. -/
def LAUNCH_FULL : Ev := ⟨83, 0x021, 1⟩
/-- Event 84, occurrence. -/
def LAUNCH_LATE : Ev := ⟨84, 0x021, 2⟩
/-- Event 85, condition. -/
def BAR_LOCK : Ev := ⟨85, 0x022, 0⟩
/-- Event 86, condition. -/
def BAR_SLEW : Ev := ⟨86, 0x022, 1⟩
/-- Event 87, occurrence. -/
def REF_IN_FAULT : Ev := ⟨87, 0x022, 2⟩
/-- Event 88, occurrence. -/
def MODE_CHANGE : Ev := ⟨88, 0x022, 3⟩
/-- Event 89, occurrence. -/
def DB_MISSING : Ev := ⟨89, 0x022, 4⟩
/-- Event 90, occurrence. -/
def DB_RANGE : Ev := ⟨90, 0x022, 5⟩
/-- Event 91, occurrence. -/
def HOP_DRIFT : Ev := ⟨91, 0x022, 6⟩
/-- Event 92, condition. -/
def STACK_LOST : Ev := ⟨92, 0x023, 0⟩
/-- Event 93, occurrence. -/
def STACK_MISMATCH : Ev := ⟨93, 0x023, 1⟩
/-- Event 96, occurrence. -/
def CANVAS_LATE : Ev := ⟨96, 0x060, 0⟩
/-- Event 97, occurrence. -/
def CHASE_REPEAT : Ev := ⟨97, 0x060, 1⟩
/-- Event 98, occurrence. -/
def CHASE_RELEASE : Ev := ⟨98, 0x060, 2⟩
/-- Event 99, occurrence. -/
def CUE_APPLIED : Ev := ⟨99, 0x060, 3⟩
/-- Event 100, occurrence. -/
def CUE_FAIL : Ev := ⟨100, 0x060, 4⟩
/-- Event 101, occurrence. -/
def MAP_POISON : Ev := ⟨101, 0x060, 5⟩
/-- Event 102, occurrence. -/
def MAP_TAB_UE : Ev := ⟨102, 0x060, 6⟩
/-- Event 103, occurrence. -/
def MAP_TAB_CE : Ev := ⟨103, 0x060, 7⟩
/-- Event 128, occurrence. -/
def SCAN_A_LATE : Ev := ⟨128, 0x070, 0⟩
/-- Event 129, occurrence. -/
def SCAN_A_UNDERRUN : Ev := ⟨129, 0x070, 1⟩
/-- Event 130, occurrence. -/
def SCAN_PORT_LATE : Ev := ⟨130, 0x070, 2⟩
/-- Event 131, occurrence. -/
def SCAN_POISON : Ev := ⟨131, 0x070, 3⟩
/-- Event 132, condition. -/
def SCAN_CATCHUP : Ev := ⟨132, 0x070, 4⟩
/-- Event 133, occurrence. -/
def SCAN_B_UNDERRUN : Ev := ⟨133, 0x071, 0⟩
/-- Event 134, occurrence. -/
def TILE_SKIP : Ev := ⟨134, 0x073, 0⟩
/-- Event 135, occurrence. -/
def PREVIEW_DONE : Ev := ⟨135, 0x072, 0⟩
/-- Event 136, occurrence. -/
def PREVIEW_SKIP : Ev := ⟨136, 0x072, 1⟩
/-- Event 137, occurrence. -/
def PREVIEW_ERR : Ev := ⟨137, 0x072, 2⟩
/-- Event 144, occurrence. -/
def IMAGE_LATE : Ev := ⟨144, 0x0A0, 0⟩
/-- Event 145, occurrence. -/
def IMAGE_INCOMPLETE : Ev := ⟨145, 0x0A0, 1⟩
/-- Event 146, condition. -/
def FLYWHEEL : Ev := ⟨146, 0x0A0, 2⟩
/-- Event 147, condition. -/
def SCHED_SLEW : Ev := ⟨147, 0x0A0, 3⟩
/-- Event 148, occurrence. -/
def FLY_JUMP : Ev := ⟨148, 0x0A0, 4⟩
/-- Event 149, occurrence. -/
def CORRECT_UE : Ev := ⟨149, 0x0A1, 0⟩
/-- Event 150, occurrence. -/
def EOTF_UE : Ev := ⟨150, 0x0A2, 0⟩
/-- Event 151, occurrence. -/
def DOSE_FAULT : Ev := ⟨151, 0x0A3, 0⟩
/-- Event 152, condition. -/
def CEILING_HIT : Ev := ⟨152, 0x0B4, 0⟩
/-- Event 153, occurrence. -/
def FADE_DONE : Ev := ⟨153, 0x0B4, 1⟩
/-- Event 154, occurrence. -/
def PASS_PLAN : Ev := ⟨154, 0x0B4, 2⟩
/-- Event 155, occurrence. -/
def DRIVE_LINK : Ev := ⟨155, 0x0B4, 3⟩
/-- Event 156, condition. -/
def DRIVE_OFF : Ev := ⟨156, 0x0B4, 4⟩
/-- Event 165, occurrence. -/
def DIAG_OPEN : Ev := ⟨165, 0x0B5, 0⟩
/-- Event 166, occurrence. -/
def DIAG_LAMP_SHORT : Ev := ⟨166, 0x0B5, 1⟩
/-- Event 167, occurrence. -/
def DIAG_NEIGHBOUR : Ev := ⟨167, 0x0B5, 2⟩
/-- Event 168, occurrence. -/
def DIAG_CLEARED : Ev := ⟨168, 0x0B5, 3⟩
/-- Event 169, condition. -/
def DIAG_UNTESTED : Ev := ⟨169, 0x0B5, 4⟩
/-- Event 170, occurrence. -/
def DIAG_SLOT_SKIP : Ev := ⟨170, 0x0B5, 5⟩
/-- Event 176, occurrence. -/
def CLAP_GAINED : Ev := ⟨176, 0x0C0, 0⟩
/-- Event 177, occurrence. -/
def CLAP_LOST : Ev := ⟨177, 0x0C0, 1⟩
/-- Event 178, condition. -/
def PEER_FAIL : Ev := ⟨178, 0x0C0, 2⟩
/-- Event 179, condition. -/
def TOLL_PATH_FAIL : Ev := ⟨179, 0x0C0, 3⟩
/-- Event 180, condition. -/
def PATH_DISAGREE : Ev := ⟨180, 0x0C0, 4⟩
/-- Event 181, occurrence. -/
def DUAL_ACTIVE : Ev := ⟨181, 0x0C0, 5⟩
/-- Event 182, occurrence. -/
def CLAP_CONTEND : Ev := ⟨182, 0x0C0, 6⟩
/-- Event 183, condition. -/
def PAIR_UNLOCK : Ev := ⟨183, 0x0C0, 7⟩
/-- Event 184, occurrence. -/
def ACTIVE_SWITCH : Ev := ⟨184, 0x0C0, 8⟩
/-- Event 185, condition. -/
def NO_ACTIVE : Ev := ⟨185, 0x0C0, 9⟩
/-- Event 186, occurrence. -/
def MIRROR_SENT : Ev := ⟨186, 0x0C1, 0⟩
/-- Event 187, occurrence. -/
def MIRROR_APPLIED : Ev := ⟨187, 0x0C1, 1⟩
/-- Event 188, occurrence. -/
def MIRROR_FAIL : Ev := ⟨188, 0x0C1, 2⟩
/-- Event 189, occurrence. -/
def MIRROR_STALE : Ev := ⟨189, 0x0C1, 3⟩
/-- Event 200, occurrence. -/
def SRAM_CE : Ev := ⟨200, 0x0D8, 0⟩
/-- Event 201, occurrence. -/
def BANK_DENY : Ev := ⟨201, 0x0D8, 1⟩
/-- Event 202, occurrence. -/
def BELFRY_MEM_CE : Ev := ⟨202, 0x0D8, 2⟩
/-- Event 203, occurrence. -/
def BELFRY_MEM_UE : Ev := ⟨203, 0x0D8, 3⟩
/-- Event 204, occurrence. -/
def SCRUB_DONE : Ev := ⟨204, 0x0D8, 4⟩
/-- Event 205, occurrence. -/
def REMAP_DONE : Ev := ⟨205, 0x0D8, 5⟩
/-- Event 206, occurrence. -/
def EVQ_LOST : Ev := ⟨206, 0x0D8, 6⟩
/-- Event 207, occurrence. -/
def SPLIT_DENY : Ev := ⟨207, 0x0D8, 7⟩
/-- Event 212, occurrence. -/
def DRAM_CE : Ev := ⟨212, 0x0E4, 0⟩
/-- Event 213, occurrence. -/
def DRAM_TRAIN_NOFIT : Ev := ⟨213, 0x0E4, 1⟩
/-- Event 214, occurrence. -/
def DRAM_RATE_STEP : Ev := ⟨214, 0x0E4, 2⟩
/-- Event 215, condition. -/
def DRAM_PORT_FAIL : Ev := ⟨215, 0x0E4, 3⟩
/-- Event 216, occurrence. -/
def REF_FORCED : Ev := ⟨216, 0x0E4, 4⟩
/-- Event 217, condition. -/
def DRAM_HOT : Ev := ⟨217, 0x0E4, 5⟩
/-- Event 218, occurrence. -/
def DRAM_INIT_FAIL : Ev := ⟨218, 0x0E4, 6⟩
/-- Event 219, occurrence. -/
def DRAM_RETRAIN : Ev := ⟨219, 0x0E4, 7⟩
/-- Event 220, occurrence. -/
def DRAM_RANGE : Ev := ⟨220, 0x0E4, 8⟩
/-- Event 224, occurrence. -/
def SENSOR_FAIL : Ev := ⟨224, 0x011, 0⟩
/-- Event 225, occurrence. -/
def SENSOR_RESTORED : Ev := ⟨225, 0x011, 1⟩
/-- Event 226, condition. -/
def SENSOR_SUBST : Ev := ⟨226, 0x011, 2⟩
/-- Event 227, condition. -/
def SENSOR_MANY : Ev := ⟨227, 0x011, 3⟩
/-- Event 228, condition. -/
def THROTTLE : Ev := ⟨228, 0x010, 0⟩
/-- Event 229, condition. -/
def THROTTLE_MAX : Ev := ⟨229, 0x010, 1⟩
/-- Event 230, condition. -/
def TJ_WARN : Ev := ⟨230, 0x010, 2⟩
/-- Event 231, occurrence. -/
def TB_CHANGE : Ev := ⟨231, 0x010, 3⟩
/-- Event 232, occurrence. -/
def KNELL_PRIOR : Ev := ⟨232, 0x010, 4⟩
/-- Event 233, occurrence. -/
def VOLT_LOW : Ev := ⟨233, 0x012, 0⟩
/-- Event 234, occurrence. -/
def VOLT_HIGH : Ev := ⟨234, 0x012, 1⟩
/-- Event 240, occurrence. -/
def UPDATE_READY : Ev := ⟨240, 0x0F0, 0⟩
/-- Event 241, occurrence. -/
def UPDATE_FAIL : Ev := ⟨241, 0x0F0, 1⟩
/-- Event 242, condition. -/
def UPDATE_TRIAL : Ev := ⟨242, 0x0F0, 2⟩
/-- Event 243, occurrence. -/
def ROLLBACK : Ev := ⟨243, 0x0F0, 3⟩
/-- Event 244, occurrence. -/
def TABLE_HOLD : Ev := ⟨244, 0x0F0, 4⟩
/-- Event 245, occurrence. -/
def SETTINGS_MIGRATED : Ev := ⟨245, 0x0F1, 0⟩
/-- Event 246, occurrence. -/
def SETTINGS_FAIL : Ev := ⟨246, 0x0F1, 1⟩
/-- Event 247, occurrence. -/
def JOURNAL_FAIL : Ev := ⟨247, 0x0F1, 2⟩
/-- Event 248, occurrence. -/
def FLASH_ERR : Ev := ⟨248, 0x0F2, 0⟩
/-- Event 249, occurrence. -/
def LOG_LOST : Ev := ⟨249, 0x0F2, 1⟩
/-- Event 252, condition. -/
def DEBUG_UNLOCKED : Ev := ⟨252, 0x0F8, 0⟩
/-- Event 253, condition. -/
def DEBUG_HALT : Ev := ⟨253, 0x0F8, 1⟩

/-- Events 16 + 2p: port p not in UP while enabled. -/
def PORT_STATE (p : Nat) : Ev := ⟨16 + 2 * p, 0x080 + p, 0⟩
/-- Events 17 + 2p: an enabled cause of port p. -/
def PORT_NOTE (p : Nat) : Ev := ⟨17 + 2 * p, 0x080 + p, 1⟩
/-- Events 104 + n: layer n in FALLBACK or TRANSPARENT. -/
def LAYER_FALLBACK (n : Nat) : Ev := ⟨104 + n, 0x061 + n, 0⟩
/-- Events 157 + n: band n changes temperature band. -/
def BAND_TB (n : Nat) : Ev := ⟨157 + n, 0x0B0 + n, 0⟩
/-- Events 161 + n: a residual of band n exceeds LIMIT. -/
def BAND_TRIM (n : Nat) : Ev := ⟨161 + n, 0x0B0 + n, 1⟩
/-- Events 192 + n: an uncorrectable error in SRAM bank n. -/
def BANK_UE (n : Nat) : Ev := ⟨192 + n, 0x0D0 + n, 0⟩
/-- Events 208 + n: an uncorrectable error on DRAM port n. -/
def DRAM_UE (n : Nat) : Ev := ⟨208 + n, 0x0E0 + n, 0⟩

/-- Every event of the device, in the order of the numbers. -/
def all : List Ev :=

  [REG_ACCESS, CHANGE_LOST, BELFRY_RESTART, LOCKSTEP, BELFRY_BUS_ERR] ++
  (List.range 16).flatMap (fun p => [PORT_STATE p, PORT_NOTE p]) ++
  [ETH_A_DOWN, ETH_A_FEC, ETH_A_DROP, ETH_B_DOWN, ETH_B_FEC, ETH_B_DROP, FLOW_STOP, FLOW_START, FLOW_MALFORMED, FLOW_CONCEAL, PATH_LOSS, MERGE_SKEW, USB4_LINK, USB4_GEN2, PCIE_ERR, DMA_DONE, DMA_ERR, DP_LOCK, DP_LOST, DP_FORMAT, SRP_MALFORMED, RELAY_TIMEOUT, RELAY_ERROR] ++
  [TIME_STEP_BACK, TS_OVERFLOW, LAUNCH_EVENT, LAUNCH_FULL, LAUNCH_LATE, BAR_LOCK, BAR_SLEW, REF_IN_FAULT, MODE_CHANGE, DB_MISSING, DB_RANGE, HOP_DRIFT, STACK_LOST, STACK_MISMATCH, CANVAS_LATE, CHASE_REPEAT, CHASE_RELEASE, CUE_APPLIED, CUE_FAIL, MAP_POISON, MAP_TAB_UE, MAP_TAB_CE] ++
  (List.range 8).map LAYER_FALLBACK ++
  [SCAN_A_LATE, SCAN_A_UNDERRUN, SCAN_PORT_LATE, SCAN_POISON, SCAN_CATCHUP, SCAN_B_UNDERRUN, TILE_SKIP, PREVIEW_DONE, PREVIEW_SKIP, PREVIEW_ERR, IMAGE_LATE, IMAGE_INCOMPLETE, FLYWHEEL, SCHED_SLEW, FLY_JUMP, CORRECT_UE, EOTF_UE, DOSE_FAULT, CEILING_HIT, FADE_DONE, PASS_PLAN, DRIVE_LINK, DRIVE_OFF] ++
  (List.range 4).map BAND_TB ++ (List.range 4).map BAND_TRIM ++
  [DIAG_OPEN, DIAG_LAMP_SHORT, DIAG_NEIGHBOUR, DIAG_CLEARED, DIAG_UNTESTED, DIAG_SLOT_SKIP, CLAP_GAINED, CLAP_LOST, PEER_FAIL, TOLL_PATH_FAIL, PATH_DISAGREE, DUAL_ACTIVE, CLAP_CONTEND, PAIR_UNLOCK, ACTIVE_SWITCH, NO_ACTIVE, MIRROR_SENT, MIRROR_APPLIED, MIRROR_FAIL, MIRROR_STALE] ++
  (List.range 8).map BANK_UE ++
  [SRAM_CE, BANK_DENY, BELFRY_MEM_CE, BELFRY_MEM_UE, SCRUB_DONE, REMAP_DONE, EVQ_LOST, SPLIT_DENY] ++
  (List.range 4).map DRAM_UE ++
  [DRAM_CE, DRAM_TRAIN_NOFIT, DRAM_RATE_STEP, DRAM_PORT_FAIL, REF_FORCED, DRAM_HOT, DRAM_INIT_FAIL, DRAM_RETRAIN, DRAM_RANGE, SENSOR_FAIL, SENSOR_RESTORED, SENSOR_SUBST, SENSOR_MANY, THROTTLE, THROTTLE_MAX, TJ_WARN, TB_CHANGE, KNELL_PRIOR, VOLT_LOW, VOLT_HIGH, UPDATE_READY, UPDATE_FAIL, UPDATE_TRIAL, ROLLBACK, TABLE_HOLD, SETTINGS_MIGRATED, SETTINGS_FAIL, JOURNAL_FAIL, FLASH_ERR, LOG_LOST, DEBUG_UNLOCKED, DEBUG_HALT]

end E

end Sys2Proof.Machine
end

