-- ==== Sys2Proof/Machine/Mem.lean ====
section
/-! DEFINITION. Byte memories in one canonical form: (address, byte) pairs, addresses strictly rising, no entry equal to the byte an unlisted address reads as. -/

namespace Sys2Proof.Machine

/-- A byte memory: listed bytes; an unlisted address reads as the memory's fill byte. -/
abbrev Memory := List Host.Cell

/-- The byte at an address. -/
def memGet (fill : Byte) (m : Memory) (a : Nat) : Byte := smGet fill m a

/-- One byte written; writing the fill byte removes the entry. -/
def memPut (fill : Byte) (m : Memory) (a : Nat) (v : Byte) : Memory := smPut fill m a v

/-- The canonical form of a memory. -/
def Memory.wf (fill : Byte) (m : Memory) : Bool := smWf fill m

/-- `n` bytes from an address up. -/
def memRead (fill : Byte) (m : Memory) (a : Nat) : Nat → List Byte
  | 0 => []
  | n + 1 => memGet fill m a :: memRead fill m (a + 1) n

/-- Bytes written from an address up. -/
def memWrite (fill : Byte) (m : Memory) (a : Nat) : List Byte → Memory
  | [] => m
  | b :: t => memWrite fill (memPut fill m a b) (a + 1) t

/-- The 128-bit word at a multiple of 16, bits [7:0] in the lowest byte. -/
def memWord (fill : Byte) (m : Memory) (a : Nat) : Word128 := BitVec.ofNat 128 (ofLe (memRead fill m a 16))

end Sys2Proof.Machine
end

