-- ==== Sys2Proof/Machine/State.lean ====
section
/-! DEFINITION. The state of the block as plain data: everything the specification gives the CZ7410, and the queue of waiting commands; and the state right after reset. -/

namespace Sys2Proof.Machine

/-- Reasons to stop: the specification gives every command an effect, so no command of this block faults. -/
inductive Fault where
  /-- Raised by nobody: an inductive type needs a constructor (safe). -/
  | none
deriving DecidableEq, Repr

/-- Reasons to refuse a command. -/
inductive Refusal where
  /-- A command whose meaning is not written yet; raised by `exec` alone (safe: the run stops). -/
  | notModelled (mnemonic : String)
deriving DecidableEq, Repr

/-- A pulse of a row slot: its sink channel, the step of the slot at which it starts, its length in steps and its current in nA (R255). -/
structure Pulse where
  ch : Nat
  start : Nat
  steps : Nat
  na : Nat
deriving DecidableEq, Repr

/-- The conditions of R422, each governing those before it. -/
inductive OutCond where
  | running | gateLost | deviceReset | extest | knell | unpowered
deriving DecidableEq, Repr

/-- The columns of R422; `serial` is UART_TX and XSPI_. -/
inductive PinGroup where
  | sink | rowGate | lane | clapOwn | alertN | tdo | serial
deriving DecidableEq, Repr

/-- What a group of outputs does: as its block drives it, or one of the states of R422. -/
inductive PinLevel where
  | asBlock | off | deselected | released | low | highZ | boundary | active
deriving DecidableEq, Repr

/-- Balls whose cells of the boundary register drive them in EXTEST: console, flash, DRAM, row gates and the AC-coupled lanes; CLAP_OWN and
ALERT_N have operands of their own (R403, R423). -/
inductive Ball where
  | uartTx
  | xspi (n : Nat)
  | dram (n : Nat)
  | rowGate (band row : Nat)
  | lane (n : Nat)
deriving DecidableEq, Repr

/-- What leaves the block: the record of everything it has sent, oldest first. -/
inductive Output where
  /-- An MSI-X message of a vector (R45). -/
  | msix (vector : Nat)
  /-- The open-drain ALERT_N pin driven low or released (R55). -/
  | alertN (low : Bool)
  /-- A read completed on an access path (R30, R77). -/
  | readData (o : Origin) (addr : Nat) (data : Nat)
  /-- A host read completed with its data and the poisoned bit set (R315). -/
  | readPoison (o : Origin) (addr : Nat) (data : Nat)
  /-- A cell sent on a chain port (R194). -/
  | cell (port : Nat) (c : RawCell)
  /-- The blocks that a chain port has sent on its lanes, scrambled, in the order in which they left (R189 to R191). -/
  | blocks (port : Nat) (l : List LineBlock)
  /-- A test pattern that a lane of a port transmits from now on, with the USER pattern; pattern 0 is its end (R223). -/
  | pattern (port lane kind user : Nat)
  /-- A burst of bits inverted in the next block of a test pattern (R224). -/
  | patternFlip (port lane bits : Nat)
  /-- A marker sent on a lane of a chain port (R191). -/
  | marker (port lane : Nat) (bits : Nat)
  /-- A frame sent on an Ethernet path and sub-port, without FCS (R117, R70). -/
  | frame (path sub : Nat) (bytes : List Byte)
  /-- Bytes written to host memory; `poisoned` when sent with the EP bit (R61, R315). -/
  | hostWrite (addr : Nat) (bytes : List Byte) (poisoned : Bool)
  /-- A write to host memory of a PREVIEW line (R185). -/
  | preview (addr : Nat) (bytes : List Byte)
  /-- A frame on the sideband to the peer unit (R284). -/
  | sideband (bytes : List Byte)
  /-- A stall answered to a recovery request, or the offset request of the next block (R67). -/
  | recovery (stall : Bool) (offset : Nat)
  /-- The CLAP_OWN pin (R276). -/
  | clapOwn (asserted : Bool)
  /-- The outputs of a port: transmitting or off (R388). -/
  | portTx (port : Nat) (on : Bool)
  /-- Data returned to an internal master, and whether any of it is poisoned (R315, R329). -/
  | memData (master addr : Nat) (bytes : List Byte) (poisoned : Bool)
  /-- All outputs forced to their safe levels (R361, R387). -/
  | outputsSafe
  /-- The row of R422 that governs the outputs from now on. -/
  | pins (cond : OutCond)
  /-- A ROWG_ ball of a band, at a step of its row slot: low, its row selected, or at VDD_GATE, deselected (R421). -/
  | gate (band row : Nat) (selected : Bool) (step : Nat)
  /-- Under EXTEST: the balls that the boundary register drives, with their levels (R423). -/
  | scanOut (levels : List (Ball × Bool))
  /-- What the input cells of the SINK_ balls capture, a bit for each ball (R423). -/
  | scanIn (sinks : Nat)
  /-- A row slot of a band: the column clamp to a level in 0.1 V for its steps, the dead time, the row's gate, and the pulses (R255 to R265). -/
  | light (band row clampLevel clampSteps deadSteps : Nat) (pulses : List Pulse)
  /-- A neighbour slot of a band: its clamp level in 0.1 V, and per phase of 512 steps the channel class (ch mod 4) that sinks 50 µA (R269). -/
  | neighbour (band clampLevel : Nat) (classes : List Nat)
deriving DecidableEq, Repr

/-- Outputs that leave by balls of the boundary register: what EXTEST holds (R422, R423). -/
def Output.scanned : Output → Bool
  | .alertN _ | .cell _ _ | .blocks _ _ | .pattern _ _ _ _ | .patternFlip _ _ _ | .marker _ _ _ | .frame _ _ _ | .sideband _ | .clapOwn _ | .portTx _ _ | .light _ _ _ _ _ _ | .neighbour _ _ _ | .gate _ _ _ _ => true
  | .msix _ | .readData _ _ _ | .readPoison _ _ _ | .hostWrite _ _ _ | .preview _ _ | .recovery _ _ | .memData _ _ _ _ | .outputsSafe | .pins _ | .scanOut _ | .scanIn _ => false

/-- An event record on its way to the log (R47, R324, R366). -/
structure EvRec where
  num : Nat
  page : Nat
  time : Nat
  bar : Nat
  detail : Nat
deriving DecidableEq, Repr

/-- A change record on its way to the log (R51, R53). -/
structure ChangeRec where
  time : Nat
  bar : Nat
  addr : Nat
  value : Nat
  origin : Nat
deriving DecidableEq, Repr

/-! ### Host attachment (spec/03_host_access.md) -/

/-- One DMA channel: the transfer that is running (R61). -/
structure DmaSt where
  busy : Bool
  toHost : Bool
  sram : Bool
  host : Nat
  dev : Nat
  len : Nat
deriving DecidableEq, Repr

/-- One SRP session: peer, the last SEQ and the response stored for it (R71). -/
structure SrpSession where
  ip : Nat
  port : Nat
  seq : Nat
  response : List Byte
deriving DecidableEq, Repr

/-- A relay access: target, word address, data, write or read, for a read the first byte and the size asked for (R30), host path, MGMT tag, and
whether an SRP request waits for it (R72, R74). -/
structure RelayReq where
  target : Nat
  addr : Nat
  data : Nat
  write : Bool
  lane : Nat
  size : Nat
  origin : Origin
  tag : Nat
  srp : Bool
deriving DecidableEq, Repr

/-- A valid SRP request: the path and peer it came from, write or read, SEQ, ADDR, COUNT and the words of a write (R68). -/
structure SrpReq where
  path : Nat
  peer : NetPeer
  write : Bool
  seq : Nat
  addr : Nat
  count : Nat
  words : List Nat
deriving DecidableEq, Repr

/-- A request being executed: the word it has come to, and the words read; it waits while a relay read is under way (R70, R72, R77). -/
structure SrpJob where
  req : SrpReq
  next : Nat
  got : List Nat
deriving DecidableEq, Repr

/-- An access that waits on its path: while the relay's queue is full, while the SRAM is not filled, or behind one that waits (R72, R77, R316): a
write or a read with the relay TARGET of the moment it arrived (R74), an access of the SRAM window, or one of the DRAM aperture. -/
inductive HeldAcc where
  | write (w : BusWrite) (target : Nat)
  | read (o : Origin) (addr size target : Nat)
  | sramWrite (ofs : Nat) (bytes : List (Option Byte))
  | sramRead (o : Origin) (ofs n : Nat)
  | aper (master : Nat) (write : Bool) (ofs : Nat) (bytes : List (Option Byte)) (hitsPending : Bool)
deriving DecidableEq, Repr

/-- The path of a waiting access. -/
def HeldAcc.origin : HeldAcc → Origin
  | .write w _ => w.origin
  | .read o _ _ _ => o
  | .sramRead o _ _ => o
  | .sramWrite _ _ => .usb4
  | .aper _ _ _ _ _ => .usb4

/-- A base address register of the PCIe function: its size is 2 to the power `log2`; 64 bits wide; prefetchable (R59). -/
structure PcieBar where
  log2 : Nat
  wide : Bool
  prefetch : Bool
deriving DecidableEq, Repr

/-- The PCIe function that the endpoint presents, constant (R59): device ID, class code, its two BARs, MSI-X vectors, INTx and MSI. -/
structure PcieFn where
  device : Nat
  classCode : Nat
  bar0 : PcieBar
  bar2 : PcieBar
  vectors : Nat
  intx : Bool
  msi : Bool
deriving DecidableEq, Repr

/-- State of the access paths; `usbProduct` is the product ID of the recovery interface (R67). -/
structure HostSt where
  pcie : PcieFn
  usbProduct : Nat
  dma0 : DmaSt
  dma1 : DmaSt
  sessions : List SrpSession
  srpJob : Option SrpJob
  srpQ : List SrpReq
  relayQ : List RelayReq
  relayOut : Option RelayReq
  relayTag : Nat
  held : List HeldAcc
  latches : SMap Nat
  recovery : Bool
  recoveryImage : Memory
  recoveryLen : Nat
  alertLow : Bool
deriving DecidableEq, Repr

/-! ### Time, bars, launch queue (spec/04_bars_and_time.md) -/

/-- A PTP timestamp (R84). -/
structure TsEntry where
  ns : Nat
  frac : Nat
  dir : Nat
  msgType : Nat
  seqId : Nat
deriving DecidableEq, Repr

/-- A launch queue entry (R95, R97). -/
structure LaunchEntry where
  time : Nat
  kind : Nat
  arg : Nat
  tag : Nat
deriving DecidableEq, Repr

/-- The time counter: bar-time ticks in ns × 2^28, and the sum of the TIME.ADJ steps in ns (R80, R82, R87). -/
structure TimeSt where
  ticks28 : Nat
  stepNs : Int
  tsA : List TsEntry
  tsB : List TsEntry
  /-- Type and sequence number of the last received message of each path, where its timestamp was stored and its frame has not ended (R116). -/
  rxA : Option (Nat × Nat)
  rxB : Option (Nat × Nat)
deriving DecidableEq, Repr

/-- The bar generator (S build), and the follower's copy of the master's downbeats (R87 to R93, R107 to R109, R427). Instants ending in 12 are in 1/12 ns; `lattice12`, `refPrev12`, `refNot12` are in extended TIME_NS, `next12` and `start12` in bar time. -/
structure BarSt where
  running : Bool
  waiting : Bool
  next12 : Nat
  nextBeat : Nat
  start12 : Nat
  beatLens : List Nat
  lattice12 : Int
  /-- SRC and FALLBACK as taken at the last bar start or lattice entry (R88), and the source in use. -/
  sel : Nat
  fall : Nat
  src : Nat
  anchor : Nat
  refPrev12 : Option Int
  refNot12 : Int
  refGood : Nat
  refMiss : Nat
  refLost : Bool
  /-- The phase error of the last bar start was at most 100 ns (R92). -/
  near : Bool
  modeNew : Bool
  dbDue : Option Nat
  depths : List (Nat × Nat)
  copying : Bool
  everCopied : Bool
  masterMiss : Nat
  returning : Bool
  feedMap : Nat
  followFeedMap : Nat
  followDelay : Nat
deriving DecidableEq, Repr

/-! ### Ethernet paths and flows (spec/05_source_ingest.md) -/

/-- One flow receiver (R123 to R131). -/
structure FlowSt where
  top : Option Nat
  seen : SMap Bool
  /-- RTP timestamp of the frame being written, or in SYNC of the frame being discarded. -/
  rtp : Option Nat
  /-- The frame named by `rtp` is being written. -/
  writing : Bool
  /-- Pixels written of each line of that frame. -/
  pixels : SMap Nat
  marker : Bool
  concealed : Bool
  /-- The gap line that is waited for, and its wait in µs (R124, R128). -/
  gapWait : Option (Nat × Nat)
  /-- Arrival on B minus arrival on A of the last 1,024 packets received on both paths, in µs (R129). -/
  pairs : List Int
  /-- The skew exceeded the window at the last pair (R129). -/
  skewed : Bool
  /-- Path and arrival in µs of the first copy of each packet of the seen map. -/
  arrival : SMap (Nat × Nat)
  stopBar : Nat
  holdOver : Bool
  lastRtp : Option Nat
deriving DecidableEq, Repr

/-- A control frame being sent on a path: sub-port and bytes (R117). -/
structure CtlTx where
  sub : Nat
  bytes : List Byte
deriving DecidableEq, Repr

/-! ### Susyn Chain ports (spec/08_chain_link.md) -/

/-- The mark of a canvas in its pixel cells: the bar it is lit in, modulo 64, and the beat (R170). -/
def litMark (bar beat : Nat) : Nat := bar % 64 * 4 + beat % 4

/-- One lane of a port: what it receives (R192, R215 to R220), its pattern checker (R223), and the generator of the lane it transmits on (R190). -/
structure LaneSt where
  locked : Bool
  trained : Bool
  retired : Bool
  restore : Bool
  lowEyes : Nat
  missedMarkers : Nat
  /-- Valid sync headers in a row while out of lock; while in lock the last 64 headers, a bit set for an invalid one (R192). -/
  valids : Nat
  heads : Nat
  /-- The count of the last marker; the descrambler; blocks since that marker, and the last one's payload (R190, R217). -/
  mark : Option Nat
  scr : Option Nat
  pos : Nat
  last : Nat
  txScr : Nat
  /-- The pattern checker: its last 64 bits, bits received, bits checked without an error, and whether its first error is raised (R223). -/
  chkHist : Nat
  chkSeen : Nat
  chkRun : Nat
  chkFirst : Bool
deriving DecidableEq, Repr

/-- Where a recalibration is: the copy asked for; the copy compared with the lane; the lane, or an idle one, calibrated; the logical lane to
go back at the next marker (R217). -/
inductive RecalPhase where
  | asked | matching | live | back
deriving DecidableEq, Repr

/-- A recalibration under way. -/
structure Recal where
  lane : Nat
  phase : RecalPhase
deriving DecidableEq, Repr

/-- A pixel cell in a port's egress queue: the cell, the cells of its canvas up to it, whether its data has returned or is replaced, whether any
of it is poisoned, and the poisoned words still to record with their syndromes (R174, R181). -/
structure PixelEntry where
  cell : Nat
  canvas : Nat
  lastOfPort : Bool
  ready : Bool
  engine : Nat
  bad : Bool
  poison : List (Nat × Nat)
deriving DecidableEq, Repr

/-- One chain port: transmit and receive sequence, slots, waiting cells by type, markers, lanes and calibration. -/
structure PortSt where
  txSeq : Nat
  rxSeq : Option Nat
  cellSeq : Nat
  slot : Nat
  sinceInsert : Nat
  bulkSlots : Nat
  qToll : List Nat
  qEcho : List Nat
  qMgmt : List Nat
  qBulk : List Nat
  qPixel : List PixelEntry
  /-- Returns still to come of cells that have left or were discarded (R181). -/
  pixLate : Nat
  /-- When the last pixel cell of a canvas left; and by canvas, when the downbeat that its last cell had to precede went out; in 1/12 ns (R178). -/
  pixLeft : Option Nat
  pixDb : SMap Nat
  insToll : List Nat
  insMgmt : List Nat
  insEcho : List Nat
  insMonitor : List Nat
  markerCnt : Nat
  txMap : Nat
  peerReq : Nat
  /-- Data blocks sent since the last marker, and those that wait for the next one; blocks since the last repeated injection (R191, R224). -/
  txPos : Nat
  txRest : List Nat
  injCnt : Nat
  /-- The count of the marker that the received positions run from, and whether its fields were taken; its CELL_PHASE; data blocks since it;
  blocks to drop before the next cell; the lanes and payloads of the open cell, and invalid headers in it (R192, R213). -/
  rxMarker : Option Nat
  rxTaken : Bool
  rxPhase : Nat
  rxPos : Nat
  rxSkip : Nat
  rxPart : List (Nat × Nat)
  rxBad : Nat
  echoSeq : Nat
  /-- ECHO requests not yet answered, oldest first; and the measurements, twice L in 1/16 UI (R101, R203). -/
  echoOut : List Nat
  echoMeas : List Nat
  lane0 : LaneSt
  lane1 : LaneSt
  lane2 : LaneSt
  spareFor : Option Nat
  recal : Option Recal
  /-- SP has differed from the lane it copies since the last marker (R217). -/
  copyBad : Bool
  nextRecal : Nat
  cal : SMap Word
  calUse : SMap Word
  trained : Bool
  /-- RX_READY has been received from the other end in TRAIN (R215). -/
  peerReady : Bool
  numbered : Bool
  dirLost : Bool
deriving DecidableEq, Repr

/-- Chain state of the device beside its ports: the tile's relay tags and announcements; the SEQ of the last MONITOR cell that the sender accepted, by
tile. -/
structure ChainSt where
  tagsP : List Nat
  tagsS : List Nat
  monAccepted : SMap Nat
  identityLeft : Nat
deriving DecidableEq, Repr

/-! ### Memories (spec/12_memory_ecc.md, spec/13_dram.md) -/

/-- A merge entry: the word it gathers, its bytes and the mask of the bytes written (R310). -/
structure MergeEntry where
  word : Nat
  data : Word128
  mask : Nat
deriving DecidableEq, Repr

/-- A write or atomic of the owner-to-be that stalls while its bank changes hands (R305): its master, the host path it came on, the offset in the
SRAM window, the bytes of a write; for an atomic, whether it adds, its size and its operand. -/
structure SramReq where
  master : Nat
  path : Option Origin
  offset : Nat
  bytes : List (Option Byte)
  atomic : Option (Bool × Nat × Nat)
deriving DecidableEq, Repr

/-- One data bank: the owner served, its merge buffer oldest first, the last uncorrectable error recorded (R315), and requests of the new
owner that stall during a handover. -/
structure BankSt where
  owner : Nat
  merge : List MergeEntry
  lastUe : Option (Nat × Nat)
  stalled : List SramReq
  /-- Number of the open value that the words hold after a host error of R320. -/
  wild : Option Nat
deriving DecidableEq, Repr

/-- A page hint of a DRAM request (R332). -/
inductive PageHint where
  | open_ | close | none_
deriving DecidableEq, Repr

/-- A DRAM request (R332): its master, whether its class is RT, its page hint, address, and the bytes of a write or the length of a read. -/
structure DramReq where
  master : Nat
  rt : Bool
  hint : PageHint
  addr : Nat
  write : Bool
  bytes : List (Option Byte)
deriving DecidableEq, Repr

/-- One DRAM port (R325 to R345): rank-channel size, refresh debts by bank, MR4 multiplier codes, drift corrections by channel, ranks in
power-down, the open row and the in-order mode of each bank, the beat of the last retraining slice, and what is due at the next bar boundary. -/
structure DramPortSt where
  rankMib : Nat
  lastUe : Option (Nat × Nat)
  ceWindow : Nat
  debts : SMap Nat
  mr4 : SMap Nat
  hot : SMap Bool
  dqs : SMap Int
  powerDown : SMap Bool
  rows : SMap Nat
  inOrder : SMap Bool
  sliceBeat : Option Nat
  stepDue : Bool
  restoreDue : Bool
  retrainDue : Bool
  /-- Number of the open value that the words hold after a host error of R320. -/
  wild : Option Nat
deriving DecidableEq, Repr

/-- The memories: bytes of the data banks (spare words after them), of the Belfry SRAM and of DRAM (spare rows from 2^40 up), and the
syndrome of every word whose check bits do not match its data; a DRAM syndrome has the tag difference in [15:9] (R311, R327, R328). -/
structure MemSt where
  sram : Memory
  sramSyn : SMap Nat
  belfry : Memory
  belfrySyn : SMap Nat
  belfryLastUe : Option (Nat × Nat)
  dram : Memory
  dramSyn : SMap Nat
  banks : SMap BankSt
  ports : SMap DramPortSt
  scrubPos : SMap Nat
  scrubDone : List Nat
  remapCopy : SMap Bool
  /-- DRAM requests that stall during a rate step, in order of arrival (R335, R343). -/
  stalled : List DramReq
  /-- Owner codes whose block's output a host error of a handover has made unpredictable (R250, R306). -/
  upset : List Nat
deriving DecidableEq, Repr

/-! ### Mapping (spec/06_mapping_engines.md) -/

/-- The source frame a layer is bound to for a canvas: source, slot, and the frame's serial number (R152). -/
structure LayerBind where
  src : Nat
  slot : Nat
  serial : Nat
deriving DecidableEq, Repr

/-- A canvas that has been released: sequence, the bar and beat it is lit in, feed, buffer, feed map, the instant S_m (1/12 ns of bar time),
what it is made with (the newest and the last complete frame of each flow and of the DP store at its release, the frames bound for the feed's
canvas before it, tables, background, layer registers, bindings), bands dispatched and complete, and its figures (R135 to R137, R152). -/
structure CanvasSt where
  seq : Nat
  litBar : Nat
  litBeat : Nat
  feed : Nat
  buf : Nat
  feedMap : Nat
  sm12 : Nat
  newest : List (Nat × Nat)
  lasts : List (Nat × Nat)
  prev : List (Option (Nat × Nat))
  begun : Bool
  tables : SMap Nat
  bg : Word
  layers : SMap Word
  binds : List LayerBind
  bands : Nat
  done : List Nat
  samples : Nat
  waitBuf : Bool
  late : Bool
  published : Bool
  stale : Bool
deriving DecidableEq, Repr

/-- A band in flight: chase wait, first columns of the tasks not taken, tasks held by engines, and per layer the band entry (ANY, MAX_LINE,
poisoned), the layer state and the frame at its dispatch (R133, R153, R156). -/
structure BandSt where
  seq : Nat
  band : Nat
  waitChase : Bool
  cols : List Nat
  held : Nat
  any : List Bool
  maxLine : List Nat
  poison : List Bool
  states : List Nat
  binds : List LayerBind
deriving DecidableEq, Repr

/-- A task held by an engine: canvas, band and first column. -/
structure MapTask where
  seq : Nat
  band : Nat
  col : Nat
deriving DecidableEq, Repr

/-- The mapping array: canvases and bands in flight, tasks by engine, tables (shadow, in use, and words of an engine that read as 0), next
buffer of each feed, feed map by lit bar, the last lit beat released, the last frame bound by feed and layer, CUEs being loaded with the first
canvas each applies to, and that canvas once the set is loaded (R154). -/
structure MapSt where
  canvases : List CanvasSt
  bands : List BandSt
  engines : SMap MapTask
  shadow : SMap Nat
  tables : SMap Nat
  bad : SMap Bool
  nextBuf : SMap Nat
  seq : Nat
  fmap : SMap Nat
  lastRel : Option (Nat × Nat)
  lastBound : SMap (Nat × Nat)
  cues : List (Nat × Nat)
  cueFrom : Option Nat
deriving DecidableEq, Repr

/-! ### Scan-out and preview (spec/07_canvas_scan_out.md) -/

/-- A generator beat whose canvas is still to begin: its start and length (1/12 ns of bar time), its beat, the bar and beat lit from it, and
whether a canvas is read in it: not in the first beats after a mode change (R94, R183). -/
structure BeatDue where
  s12 : Nat
  len12 : Nat
  beat : Nat
  litBar : Nat
  litBeat : Nat
  reads : Bool
deriving DecidableEq, Repr

/-- A canvas as it is read in two halves: mapping sequence number, the SRAM canvas with its size, or a host frame; base addresses, formats and strides (R163, R165). -/
structure ReadCanvas where
  seq : Option Nat
  sram : Option (Nat × Nat)
  baseA : Nat
  baseB : Nat
  fmtA : Nat
  fmtB : Nat
  strideA : Nat
  strideB : Nat
deriving DecidableEq, Repr

/-- A canvas being read for the tiles: the canvas, the lit bar and beat, the tile table in use, the next cell of each entry, cells read by
port, and the chains that it is not read for any more (R165 to R174, R428). -/
structure ScanJob where
  canvas : ReadCanvas
  litBar : Nat
  litBeat : Nat
  table : SMap Word
  next : SMap Nat
  count : SMap Nat
  ended : List Nat
deriving DecidableEq, Repr

/-- A strip of 16 canvas columns that an engine holds for a chain while it reads a tile of rotation 1 or 3 (R175). -/
structure Strip where
  engine : Nat
  chain : Nat
  entry : Nat
  col : Nat
deriving DecidableEq, Repr

/-- Scan-out: sizes taken at EN, beats waiting to begin, the canvas lines under way (their times are counted from line `fromLine`, which began
at `start12`), the canvas counted as late last, the canvases being read, oldest first, strips held, and the engine whose turn it is by chain. -/
structure ScanSt where
  width : Nat
  height : Nat
  split : Nat
  dues : List BeatDue
  active : Bool
  s12 : Nat
  start12 : Nat
  fromLine : Nat
  len12 : Nat
  line : Nat
  curSeq : Option Nat
  curLit : Nat × Nat
  lateFor : Option (Nat × Nat)
  newMode : Bool
  jobs : List ScanJob
  strips : List Strip
  turn : SMap Nat
  tabShadow : SMap Word
  tabUse : SMap Word
deriving DecidableEq, Repr

/-- The preview frame in progress: the bar it began in, its feed, and the canvas it reads once that is known. -/
structure PreviewSt where
  busy : Bool
  bar : Nat
  feed : Nat
  canvas : Option ReadCanvas
  mixed : Bool
  nextBuf : Nat
deriving DecidableEq, Repr

/-! ### Belfry, thermal protection, log and flash (spec/14_belfry_thermal.md, spec/15_update_settings.md) -/

/-- A record on its way to the log ring: the fields of R366 before its SEQ. -/
structure LogRec where
  typ : Nat
  origin : Nat
  page : Nat
  time : Nat
  bar : Nat
  code : Nat
  detail : Nat
deriving DecidableEq, Repr

/-- One temperature sensor: its last raw sample, how many equal raw codes in a row, passing samples since it failed, and its reading at each
of the last 1,000 samples at which it was VALID (R353, R354). -/
structure SensorSt where
  raw : Option Int
  same : Nat
  good : Nat
  hist : List (Option Int)
deriving DecidableEq, Repr

/-- Thermal protection: sensors; band states (0 to 3 DRAM ports, 4 to 7 drive bands, 8 the device); the timers of the throttle controllers
DIG, D0 and D1 in ms; and the low and high samples in a row of each rail (R352 to R364). -/
structure ThermSt where
  sensors : SMap SensorSt
  bands : SMap Nat
  held : SMap Nat
  below : SMap Nat
  lowRun : SMap Nat
  highRun : SMap Nat
deriving DecidableEq, Repr

/-- What is latched when the knell starts: TIME, BAR_COUNT, the sensor, whether a substitute, its value, and the throttle levels (R361). -/
structure KnellRec where
  time : Nat
  bar : Nat
  sensor : Nat
  subst : Bool
  value : Int
  levels : Nat
deriving DecidableEq, Repr

/-- The always-on domain (R351, R390): the knell, whether clocks have stopped (t2) and KNELL is latched (t5), a flash program or erase in progress
at the knell and whether a sample has reached 125 °C since (R361), device resets and the cause of the last, the cause of the last Belfry
restart, a watchdog restart within 10 s of the start of a trial image (R375), and a rollback to report (R382). -/
structure AonSt where
  knell : Option KnellRec
  stopped : Bool
  latched : Bool
  flashBusy : Bool
  hot125 : Bool
  resets : Nat
  cause : Nat
  rail : Nat
  restart : Nat
  dogEarly : Bool
  rollback : Bool
deriving DecidableEq, Repr

/-- The Belfry: a restart under way with its cause, whether an image runs, the clock at its start, the log buffer, the next SEQ and position
in the log ring, journaled copies waiting to be written (area and index), and the flash. -/
structure BelfrySt where
  down : Option Nat
  running : Bool
  upFrom : Nat
  logBuf : List LogRec
  logSeq : Nat
  logPos : Nat
  journal : List (Nat × Nat)
  /-- A calibration load, and a gain update, that wait for OLD_BUSY to read 0 (R250). -/
  calibDue : Bool
  gainDue : Bool
  /-- Banks 0 to 3 are to go back to the owners of the settings once scan-out has left the SRAM canvas (R396). -/
  banksDue : Bool
  /-- Lane calibration sets have changed since they were last stored, and when they last were (R216). -/
  lanesDirty : Bool
  lanesStored : Option Nat
  /-- A settings copy converted from an older FORMAT waits to be written: the position it was read from and its records (R384). -/
  migrate : Option (Nat × List Byte)
  flash : Memory
deriving DecidableEq, Repr

/-- Bytes of a flash page gathered from BULK cells (R377). -/
structure PageBuf where
  page : Nat
  bytes : SMap Byte
deriving DecidableEq, Repr

/-- Firmware update and settings: the staging block and its write index, pages programmed since OPEN, pages being gathered, the offset of the
BULK transmitter's next cell, the identity of the tables in use, the hold bar (R381), the session of the last calibration replacement, whether
it is still open, its pages, and the save list (R383). -/
structure UpdateSt where
  index : Nat
  block : SMap Word
  /-- The block that WRITE asked to program: its offset, length and words (R376). -/
  writing : Option (Nat × Nat × SMap Word)
  programmed : SMap Bool
  gather : List PageBuf
  bulkOfs : Nat
  tablesId : Nat
  settingsFmt : Nat
  holdBar : Option Nat
  holdDue : Bool
  calSession : Option Nat
  calOpen : Bool
  calGather : List PageBuf
  calPages : SMap Bool
  saveList : SMap Nat
deriving DecidableEq, Repr

/-! ### Tile pixel pipeline (spec/09_tile_pipeline.md). Instants ending in 33 are in 1/33 ps of the tile's own clock: a step is 81,920. -/

/-- The configuration a build latches when it opens (R233). -/
structure TileCfg where
  eotf : SMap Nat
  coefSet : Nat
  uniform : Bool
  tg : List Nat
  gainSel : Nat
  ageEn : Bool
  headroom : Nat
deriving DecidableEq, Repr

/-- A beat image: serial number, feed, lit bar and beat, buffer; phase 0 open, 1 closed and filling, 2 complete; lamps written, cells received,
completion instant, due instant once known, and whether its margin has been taken (R234 to R240). -/
structure ImgSt where
  serial : Nat
  feed : Nat
  litBar : Nat
  litBeat : Nat
  buf : Nat
  phase : Nat
  cfg : TileCfg
  marks : SMap Bool
  cells : SMap Bool
  done33 : Nat
  due33 : Option Nat
  judged : Bool
deriving DecidableEq, Repr

/-- A cell in the receive queue: its data, a mask of its uncorrectable words, and its build (R227). -/
structure RxCell where
  cell : Nat
  bad : Nat
  serial : Nat
deriving DecidableEq, Repr

/-- The holding image in a pool buffer: image number, buffer, whether processed, whether it is shown from the next beat boundary (R245). -/
structure HoldSt where
  image : Nat
  buf : Nat
  ready : Bool
deriving DecidableEq, Repr

/-- A start instant that a validated DOWNBEAT cell defines (R102, R212): direction, port, bar, beat, mode, instant, launch time + WALL_DEPTH. -/
structure DbStart where
  dir : Nat
  port : Nat
  /-- When the cell arrived. -/
  at33 : Nat
  bar : Nat
  beat : Nat
  mode : Nat
  start33 : Nat
  timeNs : Nat
deriving DecidableEq, Repr

/-- The last valid DOWNBEAT of a port: bar, beat, mode, and its ACTIVE bit (R105, R297). -/
structure DbSeen where
  bar : Nat
  beat : Nat
  mode : Nat
  active : Bool
deriving DecidableEq, Repr

/-- The tile's schedule (R15, R241 to R243, R254): the beat being shown and its start as defined, the plan of its passes, the pass in progress
(its index counts from 1; 0 is the blackout gap), rows begun, the wait of a pass, OFFSET, re-entry pending, and flywheel bars. -/
structure SchedSt where
  now33 : Nat
  bar : Nat
  beat : Nat
  mode : Nat
  base33 : Nat
  known : Bool
  time12 : Option Nat
  gapSteps : Nat
  passes : Nat
  passSteps : Nat
  slotSteps : Nat
  window : Nat
  index : Nat
  start33 : Nat
  waited33 : Nat
  row : Nat
  waiting : Bool
  skip : List Bool
  dark : Bool
  feed : Nat
  image : Option Nat
  offset33 : Int
  reentry : Option DbStart
  barNext : Option Nat
  flyBars : Nat
  flyHold : Bool
  heard : Bool
  /-- DB_MISSING has been raised for the bar being shown (R105). -/
  missed : Bool
  good : Nat
  /-- The ring obeyed has changed: the next valid downbeat is taken under R243 (R297). -/
  rejoin : Bool
deriving DecidableEq, Repr

/-- The tile pipeline: images, the two announcements kept (serial numbers), newest complete image by feed, receive queue, holding image and the
one being prepared,
start instants and last downbeats by port, feed maps by bar, the schedule, and the shadow and in-use EOTF and temperature tables. -/
structure TileSt where
  images : List ImgSt
  kept : List Nat
  newest : SMap Nat
  serial : Nat
  rxq : List RxCell
  hold : Option HoldSt
  holdNext : Option HoldSt
  holdLit : Bool
  starts : List DbStart
  seen : SMap DbSeen
  fmaps : SMap Nat
  lastMap : Nat
  /-- The bar count of the last valid downbeat (R204). -/
  lastBar : Nat
  /-- The ring obeyed last, 1 P or 2 S; 0 before the first (R297). -/
  lastRing : Nat
  sched : SchedSt
  eotf : SMap Nat
  eotfUse : SMap Nat
  eotfBad : SMap Bool
  tc : SMap Nat
  tcUse : SMap Nat
  curveDose : SMap Nat
  curveLum : SMap Nat
  tg : SMap Nat
deriving DecidableEq, Repr

/-! ### LED drive (spec/10_led_drive.md) -/

/-- A fade in progress: values at its start and targets by colour, curve; progress `taken` of `total`, what one pass boundary adds to `taken`,
and the pass boundaries of a bar it was laid out for, 0 for a jump at the next one (R263, R264). -/
structure FadeSt where
  from3 : List Nat
  to3 : List Nat
  curve : Nat
  taken : Nat
  total : Nat
  stride : Nat
  perBar : Nat
deriving DecidableEq, Repr

/-- A diagnostic entry: state, pending result, run, and the bar ordinal of its last result (R270). -/
structure DiagEnt where
  st : Nat
  pend : Nat
  run : Nat
  last : Nat
deriving DecidableEq, Repr

/-- One day of the calibration history: totals and gains by emitter (R248). -/
structure DoseDay where
  totals : SMap Nat
  gains : SMap Nat
deriving DecidableEq, Repr

/-- The LED drive: fade, PWM scale of the pass by colour, short-pulse LUT shadow and in use, trim sets, codes
computed and in use, trim sweep position, residuals, diagnostic entries, forces due and in force (emitters and channels), probe row and
passes, neighbour slot moves, dose of the bar in progress and of the bar ended, and SRST's dark pass (R258 to R274, R431). -/
structure DriveSt where
  fade : Option FadeSt
  scale : List Nat
  spl : SMap Nat
  splUse : SMap Nat
  trim : SMap Nat
  trimNext : SMap Nat
  trimUse : SMap Nat
  trimCh : SMap Nat
  resid : SMap Nat
  diag : SMap DiagEnt
  bars : Nat
  zeroBar : Nat
  forceDue : SMap Bool
  force : SMap Bool
  chDue : SMap Bool
  chForce : SMap Bool
  clear : Bool
  /-- By band: the passes that have carried an image, the row to be probed, and the clamp level in use (R255, R271). -/
  probePass : SMap Nat
  probeRow : SMap Nat
  clampUse : SMap Nat
  /-- The trim sets have changed since they were last stored, and when they last were (R267). -/
  trimDirty : Bool
  trimStored : Option Nat
  slotDue : Bool
  slotMoves : Nat
  dose : SMap Nat
  doseEnded : Option (Nat × SMap Nat)
  doseTotals : SMap Nat
  /-- Daily totals and gains by emitter, the oldest first, of at most 365 days (R248). -/
  history : List DoseDay
  rearm : Nat
  pwm8 : Bool
deriving DecidableEq, Repr

/-! ### Redundant operation (spec/11_redundant_operation.md) -/

/-- A toll path: the last TOLL_SEQ taken, misses in a row, whether it has failed, and the peer state it last reported (R282, R283). -/
structure TollPath where
  last : Option Nat
  misses : Nat
  failed : Bool
  peerState : Nat
deriving DecidableEq, Repr

/-- Clapper and tolls: the two lines, the claim window, a complete claim, and whether it was made in
SYNCING (R279 to R281, R294), the next TOLL_SEQ, the paths, toll periods in a
row of the four disagreements and of a doubly active pair (R299, R300), BEAT frames heard (R286), and sideband ECHO (R285). -/
structure RedunSt where
  own : Bool
  peer : Bool
  window : Bool
  claimed : Bool
  fromSync : Bool
  tollSeq : Nat
  sideband : TollPath
  ring : TollPath
  runs : List Nat
  dual : Nat
  beats : Bool
  echoSeq : Nat
  echoOut : Option Nat
  echoMeas : List Nat
deriving DecidableEq, Repr

/-- A complete set in a half of the staging area: its last epoch, half, bytes, whether it is full, and the clock at its snapshot (R293). -/
structure ReadySet where
  num : Nat
  half : Nat
  len : Nat
  full : Bool
  snapshot : Nat
deriving DecidableEq, Repr

/-- Mirror: last epoch sent or taken, a full set due and the blocks of it still to send, marked blocks and tables, an epoch being sent; on
receipt the half in use, bytes of the complete epochs of the set and of the epoch coming in, its number, whether the set is full, complete
sets waiting for a bar boundary; and the clock at the snapshot of the last set applied (R290 to R294). -/
structure MirrorSt where
  epoch : Nat
  fullDue : Bool
  fullLeft : Option (List Nat)
  dirty : SMap Bool
  tabDirty : Bool
  tilesDirty : Bool
  sending : Option Nat
  half : Nat
  setLen : Nat
  rxLen : Nat
  rxNum : Option Nat
  rxBase : Option Nat
  rxFull : Bool
  rxFinal : Bool
  ready : List ReadySet
  applying : Option Nat
  synced : Bool
  snapshot : Nat
  rxSnapshot : Nat
  setFull : Bool
  /-- The apply in progress takes in a full set; and a full set has been applied with no set discarded since (Unit states). -/
  applyFull : Bool
  whole : Bool
  /-- The epoch being discarded with its set, and whether that set is a full one (R294). -/
  rxDrop : Option Nat
  dropFull : Bool
  /-- A set has been applied since the device reset (AGE_MS). -/
  aged : Bool
deriving DecidableEq, Repr

/-! ### Resets (spec/16_start_up.md, spec/17_pins_electrical.md) -/

/-- Device reset held (power-good false), the supplies outside their windows, outputs held by a failed XTAL PLL, and JTAG EXTEST in force with
the boundary register (R386, R391, R422). -/
structure ResetSt where
  held : Bool
  lost : List Nat
  xtalHeld : Bool
  /-- PLL 2 has not locked after step 3: the fabric does not run (R391). -/
  fabricHeld : Bool
  extest : Bool
  bsr : List Bool
deriving DecidableEq, Repr

/-- The DP store: it has a complete frame since LOCK last rose (R66), and the line watermark of the frame being written (R65). -/
structure DpSt where
  usable : Bool
  line : Nat
deriving DecidableEq, Repr

/-- The whole block but its queue of commands. -/
structure Chip where
  build : Build
  /-- DRAM is fitted at port 0 of a T build: a constant of the board (R325, R406). -/
  fitted : Bool
  /-- Register words as last written or shown, where they differ from reset. -/
  regs : SMap Word
  /-- Words of shadowed registers as last taken into use (R34, R38). -/
  inUse : SMap Word
  /-- Number of open values used so far; the model's own counter (assumption log 3). -/
  free : Nat
  /-- Pages whose behaviour a host error has made unpredictable (R35). -/
  unpredictable : List Nat
  out : List Output
  evq : List EvRec
  evqExtra : Option EvRec
  changeQ : List ChangeRec
  host : HostSt
  time : TimeSt
  bar : BarSt
  launchQ : List LaunchEntry
  ctlTxA : Option CtlTx
  ctlTxB : Option CtlTx
  flows : SMap FlowSt
  dp : DpSt
  ports : SMap PortSt
  chain : ChainSt
  mem : MemSt
  /-- The ACTIVE bit of the cells this unit originates (R281). -/
  actBit : Bool
  map : MapSt
  scan : ScanSt
  preview : PreviewSt
  aon : AonSt
  belfry : BelfrySt
  therm : ThermSt
  upd : UpdateSt
  tile : TileSt
  drive : DriveSt
  redun : RedunSt
  mirror : MirrorSt
  rst : ResetSt
deriving DecidableEq, Repr

def DmaSt.init : DmaSt := { busy := false, toHost := false, sram := false, host := 0, dev := 0, len := 0 }

/-- The function of R59. -/
def PcieFn.cz7410 : PcieFn :=
  { device := 0x7410, classCode := 0x048000, bar0 := { log2 := 24, wide := true, prefetch := false },
    bar2 := { log2 := 28, wide := true, prefetch := true }, vectors := 32, intx := false, msi := false }

def HostSt.init : HostSt :=
  { pcie := PcieFn.cz7410, usbProduct := 0x7410, dma0 := DmaSt.init, dma1 := DmaSt.init, sessions := [], srpJob := none, srpQ := [], relayQ := [], relayOut := none, relayTag := 0, held := [], latches := [],
    recovery := false, recoveryImage := [], recoveryLen := 0, alertLow := false }

def TimeSt.init : TimeSt := { ticks28 := 0, stepNs := 0, tsA := [], tsB := [], rxA := none, rxB := none }

def BarSt.init : BarSt :=
  { running := false, waiting := false, next12 := 0, nextBeat := 0, start12 := 0, beatLens := [], lattice12 := 0,
    sel := 0, fall := 0, src := 0, anchor := 0, refPrev12 := none, refNot12 := 0, refGood := 0, refMiss := 0, refLost := false, near := false, modeNew := false,
    dbDue := none, depths := [], copying := false, everCopied := false, masterMiss := 0, returning := false, feedMap := 0, followFeedMap := 0, followDelay := 0 }

def FlowSt.init : FlowSt :=
  { top := none, seen := [], rtp := none, writing := false, pixels := [], marker := false, concealed := false, gapWait := none,
    pairs := [], skewed := false, arrival := [], stopBar := 0, holdOver := false, lastRtp := none }

def LaneSt.init : LaneSt :=
  { locked := false, trained := false, retired := false, restore := false, lowEyes := 0, missedMarkers := 0,
    valids := 0, heads := 0, mark := none, scr := none, pos := 0, last := 0, txScr := 0, chkHist := 0, chkSeen := 0, chkRun := 0,
    chkFirst := false }

def PortSt.init : PortSt :=
  { txSeq := 0, rxSeq := none, cellSeq := 0, slot := 0, sinceInsert := 1024, bulkSlots := 0, qToll := [], qEcho := [],
    qMgmt := [], qBulk := [], qPixel := [], pixLate := 0, pixLeft := none, pixDb := [], insToll := [], insMgmt := [], insEcho := [], insMonitor := [], markerCnt := 0, txMap := 0, peerReq := 0,
    txPos := 0, txRest := [], injCnt := 0, rxMarker := none, rxTaken := false, rxPhase := 0, rxPos := 0, rxSkip := 0, rxPart := [], rxBad := 0,
    echoSeq := 0, echoOut := [], echoMeas := [],
    lane0 := LaneSt.init, lane1 := LaneSt.init, lane2 := LaneSt.init, spareFor := none, recal := none, copyBad := false, nextRecal := 0, cal := [],
    calUse := [], trained := false, peerReady := false, numbered := false, dirLost := false }

def ChainSt.init : ChainSt :=
  { tagsP := [], tagsS := [], monAccepted := [], identityLeft := 0 }

def BankSt.init : BankSt := { owner := 0, merge := [], lastUe := none, stalled := [], wild := none }

def DramPortSt.init : DramPortSt :=
  { rankMib := 0, lastUe := none, ceWindow := 0, debts := [], mr4 := [], hot := [], dqs := [], powerDown := [], rows := [], inOrder := [], sliceBeat := none,
    stepDue := false, restoreDue := false, retrainDue := false, wild := none }

def MemSt.init : MemSt :=
  { sram := [], sramSyn := [], belfry := [], belfrySyn := [], belfryLastUe := none, dram := [], dramSyn := [], banks := [], ports := [],
    scrubPos := [], scrubDone := [], remapCopy := [], stalled := [], upset := [] }

def MapSt.init : MapSt :=
  { canvases := [], bands := [], engines := [], shadow := [], tables := [], bad := [], nextBuf := [], seq := 0, fmap := [],
    lastRel := none, lastBound := [], cues := [], cueFrom := none }

def ScanSt.init : ScanSt :=
  { width := 0, height := 0, split := 0, dues := [], active := false, s12 := 0, start12 := 0, fromLine := 0, len12 := 0, line := 0, curSeq := none,
    curLit := (0, 0), lateFor := none, newMode := false, jobs := [], strips := [], turn := [], tabShadow := [], tabUse := [] }

def PreviewSt.init : PreviewSt := { busy := false, bar := 0, feed := 0, canvas := none, mixed := false, nextBuf := 0 }

def SensorSt.init : SensorSt := { raw := none, same := 0, good := 0, hist := [] }

def ThermSt.init : ThermSt := { sensors := [], bands := [], held := [], below := [], lowRun := [], highRun := [] }

def AonSt.init : AonSt :=
  { knell := none, stopped := false, latched := false, flashBusy := false, hot125 := false, resets := 0, cause := 0, rail := 0, restart := 0, dogEarly := false,
    rollback := false }

def BelfrySt.init : BelfrySt :=
  { down := none, running := false, upFrom := 0, logBuf := [], logSeq := 0, logPos := 0, journal := [], calibDue := false, gainDue := false, banksDue := false, lanesDirty := false,
    lanesStored := none, migrate := none, flash := [] }

def UpdateSt.init : UpdateSt :=
  { index := 0, block := [], writing := none, programmed := [], gather := [], bulkOfs := 0, tablesId := 0, settingsFmt := 0, holdBar := none, holdDue := false,
    calSession := none, calOpen := false, calGather := [], calPages := [], saveList := [] }

def SchedSt.init : SchedSt :=
  { now33 := 0, bar := 0, beat := 0, mode := 9, base33 := 0, known := false, time12 := none, gapSteps := 0, passes := 0, passSteps := 0,
    slotSteps := 0, window := 0, index := 0, start33 := 0, waited33 := 0, row := 0, waiting := false, skip := [], dark := true, feed := 0,
    image := none, offset33 := 0, reentry := none, barNext := none, flyBars := 0, flyHold := false, heard := false, missed := false, good := 0, rejoin := false }

def TileSt.init : TileSt :=
  { images := [], kept := [], newest := [], serial := 0, rxq := [], hold := none, holdNext := none, holdLit := false, starts := [], seen := [], fmaps := [],
    lastMap := 0, lastBar := 0, lastRing := 0, sched := SchedSt.init, eotf := [], eotfUse := [], eotfBad := [], tc := [], tcUse := [], curveDose := [], curveLum := [],
    tg := [] }

def DriveSt.init : DriveSt :=
  { fade := none, scale := [65536, 65536, 65536], spl := [], splUse := [], trim := [], trimNext := [], trimUse := [], trimCh := [], resid := [], diag := [],
    bars := 0, zeroBar := 0, forceDue := [], force := [], chDue := [], chForce := [], clear := false, probePass := [], probeRow := [], clampUse := [], trimDirty := false, trimStored := none,
    slotDue := false, slotMoves := 0, dose := [], doseEnded := none, doseTotals := [], history := [], rearm := 0, pwm8 := true }

def TollPath.init : TollPath := { last := none, misses := 0, failed := false, peerState := 0 }

def RedunSt.init : RedunSt :=
  { own := false, peer := false, window := false, claimed := false, fromSync := false, tollSeq := 1, sideband := TollPath.init, ring := TollPath.init,
    runs := [0, 0, 0, 0], dual := 0, beats := false, echoSeq := 0, echoOut := none, echoMeas := [] }

def MirrorSt.init : MirrorSt :=
  { epoch := 0, fullDue := false, fullLeft := none, dirty := [], tabDirty := false, tilesDirty := false, sending := none,
    half := 0, setLen := 0, rxLen := 0, rxNum := none, rxBase := none, rxFull := false, rxFinal := false, ready := [],
    applying := none, synced := false, snapshot := 0, rxSnapshot := 0, setFull := false, applyFull := false, whole := false,
    rxDrop := none, dropFull := false, aged := false }

def ResetSt.init : ResetSt := { held := false, lost := [], xtalHeld := false, fabricHeld := false, extest := false, bsr := [] }

/-- Registers whose reset value differs on a T build without DRAM: bring-up steps 9 and 10 are done at once, and rails 8 and 9 have no
thresholds (R364, R391, R406). -/
def unfittedRegs (b : Build) (fitted : Bool) : SMap Word :=
  if b = .T && !fitted then [(0x00304C, 0x700), (0x0120A0, 0xFFFF0000), (0x0120A4, 0xFFFF0000)] else []

/-- The block right after reset: no register written, no work in flight. -/
def Chip.init (b : Build) (fitted : Bool := true) : Chip :=
  { build := b, fitted := fitted, regs := unfittedRegs b fitted, inUse := [], free := 0, unpredictable := [], out := [], evq := [], evqExtra := none, changeQ := [],
    host := HostSt.init, time := TimeSt.init, bar := BarSt.init, launchQ := [], ctlTxA := none, ctlTxB := none, flows := [],
    dp := { usable := false, line := 0 }, ports := [], chain := ChainSt.init,
    mem := MemSt.init, actBit := false, map := MapSt.init, scan := ScanSt.init, preview := PreviewSt.init
    , aon := AonSt.init, belfry := BelfrySt.init, therm := ThermSt.init, upd := UpdateSt.init, tile := TileSt.init, drive := DriveSt.init
    , redun := RedunSt.init, mirror := MirrorSt.init, rst := ResetSt.init
  }

end Sys2Proof.Machine

namespace Sys2Proof.Machine

/-- The state of the model: the block, and the commands waiting, first in first out. -/
structure State where
  chip : Chip
  pending : List Instr
deriving DecidableEq, Repr

/-- The state right after reset of a part of the given build. -/
def State.resetOf (b : Build) (fitted : Bool := true) : State := { chip := Chip.init b fitted, pending := [] }

/-- The state right after reset. DESIGN CHOICE (assumption log 1): the part is an S build; the build is a constant of the part. -/
def State.reset : State := State.resetOf .S

end Sys2Proof.Machine
end

