-- ==== Sys2Proof/Machine/Ops.lean ====
section
/-! DEFINITION. The operations every family shares: the register file, open values, events and their messages, error records, change records, the clock. -/

namespace Sys2Proof.Machine

/-! ### Register map look-up -/

/-- The number of pages of a kind that a build has. -/
def PageDef.num (b : Build) (p : PageDef) : Nat := match b with | .S => p.numS | .T => p.numT

/-- The page kind that holds a page number, if a build has that page. -/
def findPage (b : Build) (pg : Nat) : Option PageDef :=
  pageDefs.find? (fun p => p.first ≤ pg && decide (pg < p.first + p.num b))

/-- Some build has this page: an absent page is a page of absent hardware (R31). -/
def pageKnown (pg : Nat) : Bool := pageDefs.any (fun p => p.first ≤ pg && decide (pg < p.first + max p.numS p.numT))

/-- A register definition covers an offset. -/
def RegDef.covers (r : RegDef) (off : Nat) : Bool :=
  if r.count ≤ 1 then off = r.off
  else r.off ≤ off && (off - r.off) % r.stride = 0 && decide ((off - r.off) / r.stride < r.count)

/-- What stands at a register address of a build: nothing (with the REASON of R31), a register of the other build or of the first
page only, which reads 0 and ignores writes, or a register. DESIGN CHOICE (assumption log 108): a register that its chapter marks only as
the other build's counts as such a register, not as a reserved offset, so a write of it raises no REG_ACCESS. -/
inductive RegAt where
  | none (reason : Nat)
  | silent
  | reg (d : RegDef)
deriving DecidableEq, Repr

/-- The register at an address (R29, R31). -/
def regAt (b : Build) (addr : Nat) : RegAt :=
  let pg := addr / 4096
  let off := addr % 4096
  match findPage b pg with
  | none => .none (if pageKnown pg then 2 else 0)
  | some p =>
    match (headerRegs ++ p.regs).find? (fun r => r.covers off) with
    | none => .none 1
    | some r =>
      if (match b with | .S => r.inS | .T => r.inT) && (!r.firstOnly || pg = p.first) then .reg r
      else
        -- a register given once for each build at one offset
        match p.regs.find? (fun r' => r'.covers off && (match b with | .S => r'.inS | .T => r'.inT) && (!r'.firstOnly || pg = p.first)) with
        | some r' => .reg r'
        | none => .silent

/-- PAGE_ID of a page (R31, the header): type, instance and version 0x01. -/
def pageId (b : Build) (pg : Nat) : Word :=
  match findPage b pg with
  | none => 0
  | some _ =>
    match pageKinds.find? (fun k => k.1 ≤ pg && decide (pg < k.1 + k.2)) with
    | none => 0
    | some k => BitVec.ofNat 32 (k.1 * 65536 + (pg - k.1) * 256 + 1)

/-- Nominal rail voltages in mV of the voltage monitors, and so their reset thresholds, are set by index; see `vthrReset`. -/
def fieldReset (b : Build) (f : FieldDef) : Nat := (match b with | .S => f.resetS | .T => f.resetT) * 2 ^ f.lo

/-- The reset value the specification's tables give a register, reset thresholds of the rails excepted. -/
def tableReset (b : Build) (addr : Nat) : Word :=
  if addr % 4096 = 0 then pageId b (addr / 4096)
  else match regAt b addr with
    | .reg r => BitVec.ofNat 32 ((r.fields.map (fieldReset b)).sum)
    | _ => 0

/-- Nominal voltages of the sixteen monitored rails in mV (R364). -/
def railNominal : List Nat := [750, 850, 800, 900, 900, 1200, 900, 1200, 1050, 500, 900, 1800, 3300, 1200, 5000, 3300]

/-- A build powers a rail; rails 8 and 9 of a T build are powered where DRAM is fitted, else `unfittedRegs` holds their thresholds (R364; assumption
log 30). -/
def railPowered (b : Build) (m : Nat) : Bool :=
  match b with
  | .S => m < 13
  | .T => m ≠ 6 && decide (m ≠ 7)

/-- A rail that the part uses, so that power-good asks for it (R405, R406). -/
def railUsed (b : Build) (fitted : Bool) (m : Nat) : Bool := decide (m < 16) && railPowered b m && (b = .S || fitted || (decide (m ≠ 8) && decide (m ≠ 9)))

/-- Reset thresholds of a monitor: nominal ±5 % in whole mV, or 0 and 0xFFFF on an unpowered rail (R364). -/
def vthrReset (b : Build) (m : Nat) : Word :=
  let v := railNominal.getD m 0
  if railPowered b m then BitVec.ofNat 32 ((v * 105 + 50) / 100 * 65536 + (v * 95 + 50) / 100) else 0xFFFF0000

/-- Reset values that the tables give per entry or per part: UID, FWD_DELAY, absent sensors, rail thresholds, the
state SOLO, and the bring-up steps that do not apply to the build. -/
def resetSpecial (b : Build) (addr : Nat) : Option Word :=
  if addr = F.DEVICE_UID_LO_UID_LO.addr then some (BitVec.ofNat 32 Config.uid)
  else if addr = F.DEVICE_UID_HI_UID_HI.addr then some (BitVec.ofNat 32 (Config.uid / 2 ^ 32))
  else if addr = F.BAR_FWD_DELAY_PS2.addr then some (BitVec.ofNat 32 ((Config.fwdDelayPs + 1) / 2 % 65536))
  else if addr = 0x0C0008 && b = .S then some 0x70
  else if addr = F.RESET_BRINGUP_DONE.addr then some (match b with | .S => 0x1800 | .T => 0x0100)
  else if 0x0110D0 ≤ addr && decide (addr ≤ 0x0110EC) && b = .S then some 8
  else if 0x012080 ≤ addr && decide (addr ≤ 0x0120BC) && addr % 4 = 0 then some (vthrReset b ((addr - 0x012080) / 4))
  else none

/-- The reset value of a register word. -/
def resetWord (b : Build) (addr : Nat) : Word := (resetSpecial b addr).getD (tableReset b addr)

/-! ### The register file -/

/-- The word of a register. -/
def Chip.rd (c : Chip) (addr : Nat) : Word := (smFind c.regs addr).getD (resetWord c.build addr)

/-- A register word set. -/
def Chip.wr (c : Chip) (addr : Nat) (w : Word) : Chip := { c with regs := smSet c.regs addr w }

/-- The word in use of a shadowed register (R34). -/
def Chip.rdUse (c : Chip) (addr : Nat) : Word := (smFind c.inUse addr).getD (resetWord c.build addr)

/-- A field's value. -/
def Chip.get (c : Chip) (f : Fld) : Nat := bitsOf (c.rd f.addr) f.hi f.lo

/-- A field set, the rest of its register kept. -/
def Chip.set (c : Chip) (f : Fld) (v : Nat) : Chip := c.wr f.addr (insBits (c.rd f.addr) f.hi f.lo v)

/-- A field's value in use (R34). -/
def Chip.use (c : Chip) (f : Fld) : Nat := bitsOf (c.rdUse f.addr) f.hi f.lo

/-- A field set in the values in use. -/
def Chip.setUse (c : Chip) (f : Fld) (v : Nat) : Chip :=
  { c with inUse := smSet c.inUse f.addr (insBits (c.rdUse f.addr) f.hi f.lo v) }

/-- A one-bit field reads 1. -/
def Chip.on (c : Chip) (f : Fld) : Bool := c.get f = 1

/-- A field advanced by `n`, wrapping. -/
def Chip.bump (c : Chip) (f : Fld) (n : Nat := 1) : Chip := c.set f (c.get f + n)

/-- A field advanced by `n`, saturating at its largest value. -/
def Chip.bumpSat (c : Chip) (f : Fld) (n : Nat := 1) : Chip := c.set f (satAdd (2 ^ (f.hi + 1 - f.lo) - 1) (c.get f) n)

/-- One more thing sent out of the block; under EXTEST the balls of the boundary register are not driven by it (R422). -/
def Chip.emit (c : Chip) (o : Output) : Chip := if c.rst.extest && o.scanned then c else { c with out := c.out ++ [o] }

/-- A page's EN bit. -/
def Chip.en (c : Chip) (pg : Nat) : Bool := c.on (F.EN.pg pg)

/-- Pages whose block uses DRAM: the Ethernet paths, flows, DP store, mapping, scan-out, preview and the mirror (R392). -/
def usesDram (pg : Nat) : Bool :=
  (0x030 ≤ pg && decide (pg ≤ 0x041)) || pg = 0x049 || (0x050 ≤ pg && decide (pg ≤ 0x060)) || (0x070 ≤ pg && decide (pg ≤ 0x072)) || pg = 0x0C1

/-- Pages whose block uses the data banks without DRAM: the tile pipeline and the drive of a T build (R225). -/
def usesSram (pg : Nat) : Bool := pg = 0x0A0 || pg = 0x0B4

/-- The block of a page is out of reset as far as the memories go: one that uses memory waits for the fill of the SRAM (R316). -/
def Chip.memReady (c : Chip) (pg : Nat) : Bool := !(usesDram pg || usesSram pg) || c.on F.ECC_STATUS_SRAM_FILLED

/-- A page's block runs: EN = 1 and its memories are filled; scan-out runs without DRAM while SRAM_CANVAS is in use (R316, R392). -/
def Chip.runs (c : Chip) (pg : Nat) : Bool :=
  c.en pg && c.memReady pg && (c.build = .T || !usesDram pg || c.on F.ECC_STATUS_DRAM_FILLED ||
    ((pg = 0x070 || pg = 0x071) && c.use F.RESET_SERVICE_SRAM_CANVAS = 1))

/-- A page's STATE code. -/
def Chip.state (c : Chip) (pg : Nat) : Nat := c.get (F.STATE.pg pg)

/-! ### Open values -/

/-- An open value of `w` bits, and the block with its counter advanced: nothing constrains it (assumption log 3). -/
def Chip.openValue (c : Chip) (w : Nat) : Nat × Chip := (Config.free c.free % 2 ^ w, { c with free := c.free + 1 })

/-- A field takes an open value. -/
def Chip.setOpen (c : Chip) (f : Fld) : Chip :=
  let r := c.openValue (f.hi + 1 - f.lo)
  r.2.set f r.1

/-! ### The clock (R80, R87) -/

/-- Extended time in ns × 2^28: bar time plus the steps of TIME.ADJ. -/
def Chip.ext28 (c : Chip) : Int := (c.time.ticks28 : Int) + c.time.stepNs * 2 ^ 28

/-- WRAPS × 2³² + TIME_NS, 64 bits (R80). -/
def Chip.time64 (c : Chip) : Nat := unsign 64 (c.ext28 / 2 ^ 28)

/-- TIME_NS (R80). -/
def Chip.timeNs (c : Chip) : Nat := c.time64 % 2 ^ 32

/-- WRAPS (R80). -/
def Chip.wraps (c : Chip) : Nat := c.time64 / 2 ^ 32

/-- TIME_INC as it acts: within 4.0 ns ± 1,000 ppm (R81). -/
def Chip.inc28 (c : Chip) : Nat := max 0x3FEF9DB2 (min 0x4010624E (c.get F.TIME_INC_INC))

/-- The clock `n` ticks later. -/
def Chip.ticks (c : Chip) (n : Nat) : Chip := { c with time := { c.time with ticks28 := c.time.ticks28 + n * c.inc28 } }

/-- Ticks until bar time reaches an exact instant given in 1/12 ns (R87). -/
def Chip.ticksTo (c : Chip) (at12 : Nat) : Nat := ceilDiv (at12 * 2 ^ 28 - 12 * c.time.ticks28) (12 * c.inc28)

/-- The clock advanced to the first tick at which bar time reaches an exact instant in 1/12 ns; never moved back. -/
def Chip.advanceTo (c : Chip) (at12 : Nat) : Chip := c.ticks (c.ticksTo at12)

/-- BAR.COUNT. -/
def Chip.barCount (c : Chip) : Nat := c.get F.BAR_COUNT_COUNT

/-! ### Events (R44 to R47, R55, R204, R324) -/

/-- EVT_PEND of an event. -/
def Chip.pend (c : Chip) (e : Ev) : Bool := (c.rd (e.page * 4096 + 0x18)).getLsbD e.bit

/-- EVT_EN of an event. -/
def Chip.evEn (c : Chip) (e : Ev) : Bool := (c.rd (e.page * 4096 + 0x14)).getLsbD e.bit

/-- EVT_RAW of an event. -/
def Chip.raw (c : Chip) (e : Ev) : Bool := (c.rd (e.page * 4096 + 0x10)).getLsbD e.bit

/-- The page of an event is present in the build. -/
def Chip.hasPage (c : Chip) (pg : Nat) : Bool := (findPage c.build pg).isSome

/-- The summary of a vector (R45). -/
def Chip.summary (c : Chip) (v : Nat) : Bool := E.all.any (fun e => decide (e.num / 8 = v) && c.pend e && c.evEn e)

/-- A vector's message is sent, or, while the vector is masked in the MSI-X table, its pending bit is set (R45, R60). -/
def Chip.sendMsix (c : Chip) (v : Nat) : Chip :=
  if c.on (F.USB4_MSIX_MASK.plus (16 * v)) then
    c.wr F.USB4_PBA.addr (c.rd F.USB4_PBA.addr ||| ((1 : Word) <<< v))
  else c.emit (.msix v)

/-- ALERT_N is driven low while a vector selected in ALERT_MASK has its summary at 1 (R46, R55). -/
def Chip.alertWanted (c : Chip) : Bool :=
  (List.range 32).any (fun v => (c.rd F.EVENTS_ALERT_MASK_MASK.addr).getLsbD v && c.summary v)

/-- ALERT_N falls as soon as it is wanted; its release is a command of its own. -/
def Chip.alertFall (c : Chip) : Chip :=
  if c.alertWanted && !c.host.alertLow then { c with host := { c.host with alertLow := true } }.emit (.alertN true) else c

/-- The record of an event (R47, R366): DETAIL is ERR_FIRST word 0 of its page. -/
def Chip.evRec (c : Chip) (e : Ev) : EvRec :=
  { num := e.num, page := e.page, time := c.time64, bar := c.barCount, detail := (c.rd (e.page * 4096 + 0x20)).toNat }

/-- The events of uncorrectable errors (R324). -/
def ueEvent (n : Nat) : Bool :=
  (192 ≤ n && n ≤ 199) || n = 203 || (208 ≤ n && n ≤ 211) || n = 102 || n = 150 || n = 149 || n = 155

/-- The events of corrected errors (R324). -/
def ceEvent (n : Nat) : Bool := n = 200 || n = 202 || n = 212 || n = 103

/-- The ports whose streams lead towards a sender: 0 in LINE, 0 and 1 in RING, 0 to 3 in DUAL RING (R204). -/
def Chip.reportPorts (c : Chip) : List Nat :=
  match c.get F.CHAINCTL_TILE_CFG_TOPO with
  | 1 => [0, 1]
  | 2 => [0, 1, 2, 3]
  | _ => [0]

/-- A port's state. -/
def Chip.port (c : Chip) (p : Nat) : PortSt := smGet PortSt.init c.ports p

/-- A port's state replaced. -/
def Chip.setPort (c : Chip) (p : Nat) (s : PortSt) : Chip := { c with ports := smSet c.ports p s }

/-- A tile's MONITOR cell joins the queue of every stream towards a sender, with one SEQ for all copies: that of the port or ring of port 0, which
counts it with the tile's other cells there (R197, R204, R207; assumption log 187). -/
def Chip.queueMonitor (c : Chip) (payload : Nat) : Chip :=
  let s := c.port 0
  let cell := mkCell { ctype := ctMonitor, tile := c.get F.CHAINCTL_TILE_ID_ID, seq := s.cellSeq } payload
  let c := c.setPort 0 { s with cellSeq := (s.cellSeq + 1) % 256 }
  c.reportPorts.foldl (fun c p => c.setPort p { c.port p with insMonitor := (c.port p).insMonitor ++ [cell] }) c

/-- EVENT cells waiting on a port. -/
def Chip.monEventsWaiting (c : Chip) : Nat := ((c.port 0).insMonitor.filter (fun x => monKind x = 1)).length

/-- A tile reports an event upstream in an EVENT cell, through a queue of 32 (R46, R204). -/
def Chip.monitorEvent (c : Chip) (e : Ev) : Chip :=
  match c.build with
  | .S => c
  | .T =>
    if c.monEventsWaiting < 32 then
      c.queueMonitor (pf 192 (c.get F.CHAINCTL_MON_LOST_COUNT) 16 +
        pf 128 ((c.rd (e.page * 4096 + 0x20)).toNat + (c.rd (e.page * 4096 + 0x24)).toNat * 2 ^ 32) 64 +
        pf 96 c.barCount 32 + pf 72 e.num 8 + pf 64 1 4)
    else c.bumpSat F.CHAINCTL_MON_LOST_COUNT

/-- EVT_PEND of an event goes to 1: a vector whose summary rises sends its message, and the event's record is pushed; while the bit is pending
an occurrence changes nothing more (R44, R45, R47). -/
def Chip.raiseWith (push : Chip → EvRec → Chip) (c : Chip) (e : Ev) : Chip :=
  if c.pend e || !c.hasPage e.page then c
  else
    let c1 := c.wr (e.page * 4096 + 0x18) (c.rd (e.page * 4096 + 0x18) ||| ((1 : Word) <<< e.bit))
    let c2 := if !c.summary (e.num / 8) && c1.summary (e.num / 8) then c1.sendMsix (e.num / 8) else c1
    ((push c2 (c.evRec e)).monitorEvent e).alertFall

/-- The record of EVQ_LOST takes the place that only it may take (R324). DESIGN CHOICE (assumption log 173): where one still waits there, it is
kept, and the new one is lost and counted. -/
def Chip.evqKeep (c : Chip) (r : EvRec) : Chip :=
  match c.evqExtra with
  | none => { c with evqExtra := some r }
  | some _ => c.bumpSat F.ECC_EVQ_LOST

/-- A record lost from the event queue: LOST counts it and EVQ_LOST is raised, whose own record has a place of its own (R324). -/
def Chip.evqLose (c : Chip) : Chip := (c.bumpSat F.ECC_EVQ_LOST).raiseWith Chip.evqKeep E.EVQ_LOST

/-- An event record joins the queue of 64; the record of an uncorrectable error displaces another when the queue is full, and that of EVQ_LOST
has a place of its own (R324). -/
def Chip.pushEv (c : Chip) (r : EvRec) : Chip :=
  if r.num = E.EVQ_LOST.num then c.evqKeep r
  else if c.evq.length < 64 then { c with evq := c.evq ++ [r] }
  else if ueEvent r.num then
    let k := (c.evq.findIdx? (fun x => ceEvent x.num)).getD 0
    { c with evq := c.evq.eraseIdx k ++ [r] }.evqLose
  else c.evqLose

/-- An event occurs. -/
def Chip.raise (c : Chip) (e : Ev) : Chip := c.raiseWith Chip.pushEv e

/-- The present state of a condition event: EVT_RAW shows it, and its rise is an occurrence (R44). -/
def Chip.cond (c : Chip) (e : Ev) (b : Bool) : Chip :=
  let w := c.rd (e.page * 4096 + 0x10)
  let m := (1 : Word) <<< e.bit
  let was := c.raw e
  let c := if was = b then c else c.wr (e.page * 4096 + 0x10) (if b then w ||| m else w &&& ~~~m)
  if b && !was then c.raise e else c

/-! ### Error records (R48 to R50) -/

/-- An error reported to a page (R48): severity, kind, unit, syndrome and location. -/
structure ErrRec where
  ue : Bool
  kind : Nat
  unit : Nat
  syndrome : Nat
  loc : Nat
deriving DecidableEq, Repr

/-- Word 0 of an error record. -/
def ErrRec.word0 (e : ErrRec) (bar : Nat) : Word :=
  BitVec.ofNat 32 (2 ^ 31 + b2n e.ue * 2 ^ 30 + (e.kind % 4) * 2 ^ 28 + (e.unit % 8) * 2 ^ 25 + (e.syndrome % 512) * 2 ^ 16 + bar % 65536)

/-- One error: ERR_FIRST if unlocked, ERR_WORST by severity, and its counter (R48). -/
def Chip.reportOne (c : Chip) (pg : Nat) (e : ErrRec) : Chip :=
  let b := pg * 4096
  let w0 := e.word0 c.barCount
  let w1 : Word := BitVec.ofNat 32 e.loc
  let c := if (c.rd (b + 0x20)).getLsbD 31 then c else (c.wr (b + 0x20) w0).wr (b + 0x24) w1
  let c := if e.ue || !((c.rd (b + 0x28)).getLsbD 30) then (c.wr (b + 0x28) w0).wr (b + 0x2C) w1 else c
  let f := if e.ue then F.ERR_UNCORR.pg pg else F.ERR_CORR.pg pg
  let full := c.get f = 2 ^ (f.hi + 1 - f.lo) - 1
  if full then c.set (F.ERR_OVERFLOW.pg pg) 1 else c.bump f

/-- Insertion of an error in the order of R49: uncorrectable first, then the lower UNIT. -/
def errInsert (e : ErrRec) : List ErrRec → List ErrRec
  | [] => [e]
  | h :: t => if (e.ue && !h.ue) || (e.ue = h.ue && decide (e.unit < h.unit)) then e :: h :: t else h :: errInsert e t

/-- The errors reported to one page in one cycle, in the order of R49. -/
def errOrder (l : List ErrRec) : List ErrRec := l.foldl (fun a e => errInsert e a) []

/-- Errors reported to one page in one step (R49). -/
def Chip.report (c : Chip) (pg : Nat) (l : List ErrRec) : Chip := (errOrder l).foldl (fun c e => c.reportOne pg e) c

/-! ### Change records (R51, R53) -/

/-- A change record joins its queue of 64; one that finds it full is lost, counted, and raises CHANGE_LOST (R53). -/
def Chip.logChange (c : Chip) (o : Origin) (addr : Nat) (value : Word) : Chip :=
  if c.changeQ.length < 64 then
    { c with changeQ := c.changeQ ++ [{ time := c.time64, bar := c.barCount, addr := addr, value := value.toNat, origin := o.code }] }
  else (c.bumpSat F.DEVICE_CHANGE_LOST_COUNT).raise E.CHANGE_LOST

/-- An ignored access raises REG_ACCESS, and BAD_ADDR captures the first since it was cleared (R31). -/
def Chip.badAccess (c : Chip) (o : Origin) (reason addr : Nat) : Chip :=
  let c := if c.on F.DEVICE_BAD_ADDR_VALID then c
    else c.wr F.DEVICE_BAD_ADDR_VALID.addr (BitVec.ofNat 32 (2 ^ 31 + o.code * 2 ^ 28 + reason * 2 ^ 26 + addr % 2 ^ 24))
  c.raise E.REG_ACCESS

/-! ### Host errors (R35) -/

/-- Offsets of the entries of a register array. -/
def RegDef.offsets (r : RegDef) : List Nat := if r.count ≤ 1 then [r.off] else (List.range r.count).map (fun i => r.off + i * r.stride)

/-- What a host error does not reach: the current ceiling in use (R8, R265), and the bar count and mode in use, on which the timing of other
tiles rests (R35). -/
def scrambleKept : List Nat := [F.DRIVECTL_CEILING_ACTIVE_UA.addr, F.BAR_COUNT_COUNT.addr, F.BAR_MODE_MODE_IN_USE.addr]

/-- The read-only live fields of a page take open values: what a host error leaves unpredictable, confined to its page (R35). -/
def Chip.scramble (c : Chip) (pg : Nat) : Chip :=
  match findPage c.build pg with
  | none => c
  | some p =>
    p.regs.foldl (fun c r =>
      r.offsets.foldl (fun c off =>
        let a := pg * 4096 + off
        if a ∈ scrambleKept then c
        else r.fields.foldl (fun c f => if f.acc = .ro && f.cls = .l then c.setOpen ⟨a, f.hi, f.lo⟩ else c) c) c) c

/-- A host error on a page: the page is unpredictable from here on (R35). -/
def Chip.hostError (c : Chip) (pg : Nat) : Chip :=
  let c := if pg ∈ c.unpredictable then c else { c with unpredictable := c.unpredictable ++ [pg] }
  c.scramble pg

/-! ### Meanings -/

/-- The knell has stopped the clocks or is latched: the block ignores its inputs (R361, R362). -/
def Chip.latched (c : Chip) : Bool := c.aon.latched || c.aon.stopped

/-- The block takes nothing in: latched, or held in device reset while power-good is false (R362, R386). -/
def Chip.deaf (c : Chip) : Bool := c.latched || c.rst.held

/-- Nothing of the block runs: it is deaf, or held for want of its XTAL PLL (R391). -/
def Chip.frozen (c : Chip) : Bool := c.deaf || c.rst.xtalHeld

/-- The fabric does not run: nothing does, or PLL 2 has not locked (R391). -/
def Chip.idle (c : Chip) : Bool := c.frozen || c.rst.fabricHeld

/-- Without PLL 2 only the Belfry, the console and JTAG are served (R391). -/
def Chip.hears (c : Chip) (o : Origin) : Bool := !c.rst.fabricHeld || o = .belfry || o = .jtag

/-- What a meaning answers. -/
abbrev Answer := Host.Outcome State Fault Refusal

/-- A meaning: a change of the block, made while the block runs. -/
def live (s : State) (f : Chip → Chip) : Answer :=
  .next (if s.chip.idle then s else { s with chip := f s.chip })

/-- A change made only where its condition holds. -/
def Chip.when (c : Chip) (b : Bool) (f : Chip → Chip) : Chip := if b then f c else c

/-- A meaning of the Belfry, the console and their flash: it acts without the fabric too (R391). -/
def serve (s : State) (f : Chip → Chip) : Answer :=
  .next (if s.chip.frozen then s else { s with chip := f s.chip })

/-- A meaning asked for by an origin. -/
def serveFor (o : Origin) (s : State) (f : Chip → Chip) : Answer := serve s (fun c => c.when (c.hears o) f)

/-- A meaning of JTAG and of bring-up: it also acts while the XTAL PLL has not locked (R391). -/
def awake (s : State) (f : Chip → Chip) : Answer :=
  .next (if s.chip.deaf then s else { s with chip := f s.chip })

/-- A meaning of the always-on domain and of the TAP: it acts in device reset too, but not once the knell has stopped the clocks (R351, R362). -/
def powered (s : State) (f : Chip → Chip) : Answer :=
  .next (if s.chip.latched then s else { s with chip := f s.chip })


/-- A change of an S build alone. -/
def Chip.inS (c : Chip) (f : Chip → Chip) : Chip := c.when (decide (c.build = .S)) f

/-- A change of a T build alone. -/
def Chip.inT (c : Chip) (f : Chip → Chip) : Chip := c.when (decide (c.build = .T)) f

end Sys2Proof.Machine
end

