-- ==== Sys2Proof/Machine/MemOps.lean ====
section
/-! DEFINITION. Words of the data banks, the Belfry SRAM and the DRAM under the 128-bit code: reads with their records and poison, writes, merge buffer, ownership, atomics, fill, scrub, remap, split write, and the DRAM layout (spec/12_memory_ecc.md, spec/13_dram.md). -/

namespace Sys2Proof.Machine

/-! ### Decoding by syndrome (R312) -/

/-- A word read by its stored data and syndrome: the data to use, and what was found. -/
def eccBySyndrome (d : Word128) (s : Nat) : EccRead :=
  let x : BitVec 9 := BitVec.ofNat 9 s
  if x = 0 then .clean
  else if x = 0x1FF then .poison
  else match eccFind eccColumns 0 x with
    | some j => .corrected (d ^^^ ((1 : Word128) <<< j)) j
    | none =>
      match eccFindCheck x with
      | some i => .corrected d (128 + i)
      | none => .uncorrectable x

/-- The masters of a bank as records name them (R323): 0 owner, 1 scrubber, 2 Belfry, 3 host. -/
def mOwner : Nat := 0
def mScrub : Nat := 1
def mBelfry : Nat := 2
def mHost : Nat := 3

def Chip.bank (c : Chip) (b : Nat) : BankSt := smGet BankSt.init c.mem.banks b
def Chip.setBank (c : Chip) (b : Nat) (s : BankSt) : Chip := { c with mem := { c.mem with banks := smSet c.mem.banks b s } }

/-- The page of a bank. -/
def bankPage (b : Nat) : Nat := 0x0D0 + b

/-- BANK.STATUS shows the merge entries in use. -/
def Chip.showMerge (c : Chip) (b : Nat) : Chip := c.set (F.BANK_STATUS_MERGE.pg b) (c.bank b).merge.length

/-! ### Data banks: stored words

A word is named by its index in the window, bank × 65,536 + word; spare word e of bank b is 524,288 + 8b + e (R301, R318). -/

/-- The bank of a stored word. -/
def bankOf (w : Nat) : Nat := if w < 524288 then w / 65536 else (w - 524288) / 8

/-- A valid remap entry redirects the word to its spare: once copied there, and until copied back (R318). -/
def Chip.sramWord (c : Chip) (w : Nat) : Nat :=
  let b := w / 65536
  match (List.range 8).find? (fun e =>
      let r := c.rd (0x0D0080 + 4096 * b + 4 * e)
      (r.getLsbD 31 != r.getLsbD 30) && decide (bitsOf r 15 0 = w % 65536)) with
  | some e => 524288 + 8 * b + e
  | none => w

/-- The stored data of a word; open in a bank with a host error of R320 (assumption log 165). -/
def Chip.sramData (c : Chip) (k : Nat) : Word128 :=
  match (c.bank (bankOf k)).wild with
  | none => memWord 0 c.mem.sram (16 * k)
  | some n => BitVec.ofNat 128 (Config.content n k)

/-- The syndrome of a stored word. -/
def Chip.sramSyn (c : Chip) (k : Nat) : Nat :=
  match (c.bank (bankOf k)).wild with
  | none => smGet 0 c.mem.sramSyn k
  | some n => Config.content n k / 2 ^ 128 % 512

/-- The content of a bank becomes unpredictable (R320). -/
def Chip.bankWild (c : Chip) (b : Nat) : Chip := { c.setBank b { c.bank b with wild := some c.free } with free := c.free + 1 }

/-- Data and syndrome of a word stored as they are. -/
def Chip.sramPut (c : Chip) (k : Nat) (d : Word128) (syn : Nat) : Chip :=
  { c with mem := { c.mem with sram := memWrite 0 c.mem.sram (16 * k) (leBytes 16 d.toNat), sramSyn := smPut 0 c.mem.sramSyn k syn } }

/-- The flip mask of a page: data bits and check bits (R321). -/
def Chip.flipMask (c : Chip) (pg : Nat) : Word128 × BitVec 9 :=
  let w := fun k => (c.rd (pg * 4096 + 0x60 + 4 * k)).toNat
  (BitVec.ofNat 128 (w 0 + w 1 * 2 ^ 32 + w 2 * 2 ^ 64 + w 3 * 2 ^ 96), BitVec.ofNat 9 (w 4))

/-- A page's FLIP_ARM. -/
def Chip.flipArmed (c : Chip) (pg : Nat) : Bool := c.on (F.FLIP_ARM.pg pg)

/-- A write of a word with a given syndrome; an armed flip mask is applied once (R321). -/
def Chip.sramStore (c : Chip) (k : Nat) (d : Word128) (syn : Nat) : Chip :=
  let pg := bankPage (bankOf k)
  if c.flipArmed pg then
    let m := c.flipMask pg
    let c := c.set (F.FLIP_ARM.pg pg) 0
    c.sramPut k (d ^^^ m.1) (Nat.xor syn (eccCheck m.1 ^^^ m.2).toNat)
  else c.sramPut k d syn

/-- The window address >> 4 of a word, as LOCATION gives it (R323). -/
def sramLoc (w : Nat) : Nat := 0x80000 + w

/-- A corrected error of a bank: record, CE_BANKS, SRAM_CE (R323). -/
def Chip.sramCe (c : Chip) (w unit syn : Nat) : Chip :=
  let b := w / 65536
  let c := c.report (bankPage b) [{ ue := false, kind := 0, unit := unit, syndrome := syn, loc := sramLoc w }]
  let c := c.wr 0x0D8048 (c.rd 0x0D8048 ||| ((1 : Word) <<< b))
  c.raise E.SRAM_CE

/-- An uncorrectable error of a bank, recorded once where its syndrome is new (R315, R323). -/
def Chip.sramUe (c : Chip) (w unit syn : Nat) : Chip :=
  let b := w / 65536
  let s := c.bank b
  if s.lastUe = some (w, syn) then c
  else
    let c := c.setBank b { s with lastUe := some (w, syn) }
    (c.report (bankPage b) [{ ue := true, kind := 0, unit := unit, syndrome := syn, loc := sramLoc w }]).raise (E.BANK_UE b)

/-- A checked read of a word: data to use and whether it is poisoned (R312, R315). -/
def Chip.sramReadWord (c : Chip) (unit w : Nat) : (Word128 × Bool) × Chip :=
  let k := c.sramWord w
  let d := c.sramData k
  let syn := c.sramSyn k
  match eccBySyndrome d syn with
  | .clean => ((d, false), c)
  | .corrected d' _ => ((d', false), c.sramCe w unit syn)
  | .poison => ((d, true), c)
  | .uncorrectable _ => ((d, true), c.sramUe w unit syn)

/-- The syndrome with which a word of the banks is returned poisoned; none where it is returned good (R312, R315). -/
def Chip.sramPoison (c : Chip) (w : Nat) : Option Nat :=
  let k := c.sramWord w
  match eccBySyndrome (c.sramData k) (c.sramSyn k) with
  | .clean | .corrected _ _ => none
  | .poison | .uncorrectable _ => some (c.sramSyn k)

/-! ### Merge buffer (R310) -/

/-- A word with the bytes of a mask replaced. -/
def mergeBytes (old new : Word128) (mask : Nat) : Word128 :=
  BitVec.ofNat 128 (ofLe ((List.range 16).map (fun i =>
    if mask / 2 ^ i % 2 = 1 then new.extractLsb' (8 * i) 8 else old.extractLsb' (8 * i) 8)))

/-- One entry retired by a locked read-modify-write: unwritten bytes from the stored word after correction; a word that is uncorrectable
keeps its poison; all sixteen bytes written need no read (R310, R314). -/
def Chip.retireEntry (c : Chip) (b : Nat) (e : MergeEntry) : Chip :=
  let w := b * 65536 + e.word
  let k := c.sramWord w
  let c := if e.mask = 0xFFFF then c.sramStore k e.data 0
    else
      let r := c.sramReadWord mOwner w
      let d := mergeBytes r.1.1 e.data e.mask
      r.2.sramStore k d (if r.1.2 then 0x1FF else 0)
  c

/-- The entry of a word is retired, if the buffer has one. -/
def Chip.retireWord (c : Chip) (b word : Nat) : Chip :=
  let s := c.bank b
  match s.merge.find? (fun e => e.word = word) with
  | none => c
  | some e => ((c.setBank b { s with merge := s.merge.filter (fun x => x.word ≠ word) }).retireEntry b e).showMerge b

/-- Every entry of a bank is retired (handover, SRST). -/
def Chip.retireAll (c : Chip) (b : Nat) : Chip :=
  let l := (c.bank b).merge
  let c := c.setBank b { c.bank b with merge := [] }
  (l.foldl (fun c e => c.retireEntry b e) c).showMerge b

/-- The oldest entry of a bank is retired. -/
def Chip.retireOldest (c : Chip) (b : Nat) : Chip :=
  match (c.bank b).merge with
  | [] => c
  | e :: t => ((c.setBank b { c.bank b with merge := t }).retireEntry b e).showMerge b

/-- A partial write joins the entry of its word or takes a free one; a ninth word retires the oldest; a full entry is written at once (R310). -/
def Chip.mergeWrite (c : Chip) (b word : Nat) (data : Word128) (mask : Nat) : Chip :=
  let s := c.bank b
  match s.merge.find? (fun e => e.word = word) with
  | some e =>
    let e' : MergeEntry := { e with data := mergeBytes e.data data mask, mask := Nat.lor e.mask mask }
    let c := c.setBank b { s with merge := s.merge.map (fun x => if x.word = word then e' else x) }
    if e'.mask = 0xFFFF then c.retireWord b word else c
  | none =>
    let c := if s.merge.length < 8 then c else c.retireOldest b
    let s := c.bank b
    (c.setBank b { s with merge := s.merge ++ [{ word := word, data := data, mask := mask }] }).showMerge b

/-! ### Ownership (R304 to R306) -/

/-- Owner codes: 7, and the codes of the other build, act as 0. -/
def Chip.ownerCode (c : Chip) (v : Nat) : Nat :=
  match v, c.build with
  | 3, .S => 0
  | 4, .T => 0
  | 5, .T => 0
  | 7, _ => 0
  | v, _ => v

/-- A denied access: counted and raised (R304). -/
def Chip.bankDeny (c : Chip) (b : Nat) : Chip := (c.bumpSat (F.BANK_DENY_COUNT_COUNT.pg b)).raise E.BANK_DENY

/-- Scan-out reads the SRAM canvas, or still holds one that it reads (R395). -/
def Chip.sramScanned (c : Chip) : Bool :=
  c.build = .S && (c.use F.RESET_SERVICE_SRAM_CANVAS = 1 || c.scan.jobs.any (fun j => j.canvas.sram.isSome))

/-- The block of an owner code runs and uses a bank: the tile pipeline its image buffers, the coefficient set and the gain table in use or still
used by an open build, and the dose counters; scan-out the SRAM canvas; the host a DMA transfer of SRAM (R225, R250, R306). -/
def Chip.bankInUse (c : Chip) (b code : Nat) : Bool :=
  match code with
  | 1 => [c.host.dma0, c.host.dma1].any (fun d => d.busy && d.sram && decide (d.dev / 1048576 ≤ b) && decide (b * 1048576 < d.dev + d.len))
  | 3 => c.en 0x0A0 && (match b with
    | 3 => decide (c.use F.CORRECT_CTRL_COEF_SET = 0) || c.on F.CORRECT_STATUS_OLD_BUSY
    | 4 => decide (c.use F.CORRECT_CTRL_COEF_SET = 1) || c.on F.CORRECT_STATUS_OLD_BUSY
    | 5 => c.on F.DOSE_CTRL_DOSE_EN
    | 6 => decide (c.use F.DOSE_CTRL_GAIN_SEL = 0) || c.on F.DOSE_STATUS_OLD_BUSY
    | 7 => decide (c.use F.DOSE_CTRL_GAIN_SEL = 1) || c.on F.DOSE_STATUS_OLD_BUSY
    | _ => true)
  | 5 => c.scan.active && c.sramScanned && decide (b < 4)
  | _ => false

/-- The block of an owner code is busy with the layout of other banks than the one it is given (R306; assumption log 162). -/
def Chip.busyElsewhere (c : Chip) (b code : Nat) : Bool := code = 5 && c.scan.active && c.sramScanned && decide (4 ≤ b)

/-- Output of the block of an owner code, open after a host error of a handover (R306). -/
def Chip.upset (c : Chip) (code : Nat) : Bool := decide (code ∈ c.mem.upset)

/-- The host errors of a handover (R250, R306). -/
def Chip.ownerErrors (c : Chip) (b old new : Nat) : Chip :=
  if old = new then c
  else
    let bad := (if c.bankInUse b old then [old] else []) ++ (if c.busyElsewhere b new then [new] else [])
    { c with mem := { c.mem with upset := c.mem.upset ++ bad.filter (fun x => !c.upset x) } }

/-- A handover starts: the old owner counts as a non-owner at once, its entries are retired, HANDOVER reads 1 (R305, R306). -/
def Chip.ownerWrite (c : Chip) (b v : Nat) : Chip :=
  let c := c.ownerErrors b (c.bank b).owner (c.ownerCode v)
  let c := c.set (F.BANK_OWNER_OWNER.pg b) v
  let c := c.retireAll b
  let c := c.setBank b { c.bank b with owner := 0 }
  c.set (F.BANK_OWNER_HANDOVER.pg b) 1

/-- A master is the owner to be of a bank that changes hands (R305). -/
def Chip.ownerToBe (c : Chip) (b master : Nat) : Bool :=
  c.on (F.BANK_OWNER_HANDOVER.pg b) && decide (c.ownerCode (c.get (F.BANK_OWNER_OWNER.pg b)) = master)

/-- A write or atomic of the owner to be stalls until the switch (R305). -/
def Chip.bankStall (c : Chip) (b : Nat) (r : SramReq) : Chip := c.setBank b { c.bank b with stalled := (c.bank b).stalled ++ [r] }

/-- A master owns a bank. Code 0 owns nothing (R304). -/
def Chip.ownsBank (c : Chip) (b master : Nat) : Bool := master ≠ 0 && decide ((c.bank b).owner = master)

/-- A master's reads are served as the owner's: it owns the bank, or it is the owner to be, whose read inside a command is taken as made after the
switch (R304, R305; assumption log 161). -/
def Chip.readsBank (c : Chip) (b master : Nat) : Bool := c.ownsBank b master || (master ≠ 0 && c.ownerToBe b master)

/-- A master writes one word of a bank: whole words directly, others through the merge buffer; a master that does not own the bank is
denied, and the owner to be of a bank that changes hands stalls (R302, R304, R305). Bytes not to be written are `none`. -/
def Chip.bankWriteWord (c : Chip) (master w : Nat) (bytes : List (Option Byte)) (path : Option Origin := none) : Chip :=
  let b := w / 65536
  if master ≠ 0 && c.ownerToBe b master then c.bankStall b { master := master, path := path, offset := 16 * w, bytes := bytes, atomic := none }
  else if !c.ownsBank b master then c.bankDeny b
  else
    let mask := (List.range 16).foldl (fun m i => match bytes.getD i none with | some _ => m + 2 ^ i | none => m) 0
    let data : Word128 := BitVec.ofNat 128 (ofLe ((List.range 16).map (fun i => (bytes.getD i none).getD 0)))
    if mask = 0 then c
    else if mask = 0xFFFF then
      let c := c.setBank b { c.bank b with merge := (c.bank b).merge.filter (fun e => e.word ≠ w % 65536) }
      (c.sramStore (c.sramWord w) data 0).showMerge b
    else c.mergeWrite b (w % 65536) data mask

/-- A checked read of a word by a master: the owner, and as observers the Belfry and the host, are served, after the retirement of the
word's entry; any other block gets poisoned data and a denial (R304, R310). -/
def Chip.bankReadWord (c : Chip) (master unit w : Nat) : (Word128 × Bool) × Chip :=
  let b := w / 65536
  if c.readsBank b master || unit = mBelfry || unit = mHost then
    (c.retireWord b (w % 65536)).sramReadWord unit w
  else ((0, true), c.bankDeny b)

/-- The byte list of an access cut into words: the word index and its sixteen byte lanes. -/
def wordLanes (offset : Nat) (bytes : List (Option Byte)) : List (Nat × List (Option Byte)) :=
  let first := offset / 16
  let n := if bytes.isEmpty then 0 else (offset + bytes.length - 1) / 16 + 1 - first
  (List.range n).map (fun i =>
    (first + i, (List.range 16).map (fun j =>
      let a := (first + i) * 16 + j
      if a < offset then none else bytes.getD (a - offset) none)))

/-- A window write of any size and byte enables, as the host master, on a path, or by DMA (R302). -/
def Chip.windowWrite (c : Chip) (offset : Nat) (bytes : List (Option Byte)) (path : Option Origin := none) : Chip :=
  (wordLanes offset bytes).foldl (fun c x => if 8 ≤ x.1 / 65536 then c else c.bankWriteWord 1 x.1 x.2 path) c

/-- A window read of any size: checked bytes, and whether any is poisoned (R302). -/
def Chip.windowRead (c : Chip) (offset n : Nat) : (List Byte × Bool) × Chip :=
  let words := (wordLanes offset (List.replicate n (some 0))).map (·.1)
  let r := words.foldl (fun (acc : (List Byte × Bool) × Chip) w =>
    if 8 ≤ w / 65536 then ((acc.1.1 ++ List.replicate 16 0, acc.1.2), acc.2)
    else
      let x := acc.2.bankReadWord 1 mHost w
      ((acc.1.1 ++ leBytes 16 x.1.1.toNat, acc.1.2 || x.1.2), x.2)) (([], false), c)
  ((slice r.1.1 (offset % 16) n, r.1.2), r.2)

/-! ### Atomics (R308, R309) -/

/-- An atomic add or swap of 4 or 8 bytes at a window offset, carried out: the old value, whether it is poisoned, and the block after it. -/
def Chip.atomicNow (c : Chip) (unit : Nat) (add : Bool) (offset size : Nat) (operand : Nat) : (Nat × Bool) × Chip :=
  let w := offset / 16
  let c := c.retireWord (w / 65536) (w % 65536)
  let r := c.sramReadWord unit w
  let lo := 8 * (offset % 16)
  let old := nbits r.1.1.toNat (lo + 8 * size - 1) lo
  let k := r.2.sramWord w
  if r.1.2 then ((old, true), r.2.sramStore k 0 0)
  else
    let new := if add then (old + operand) % 2 ^ (8 * size) else operand % 2 ^ (8 * size)
    let d : Word128 := BitVec.ofNat 128 (r.1.1.toNat - old * 2 ^ lo + new * 2 ^ lo)
    ((old, false), r.2.sramStore k d 0)

/-- An atomic by the owner port (its master code) or the Belfry: the owner and the Belfry are served, any other master is denied (R304). -/
def Chip.atomicAt (c : Chip) (master : Nat) (byBelfry add : Bool) (offset size : Nat) (operand : Nat) : (Nat × Bool) × Chip :=
  let b := offset / 16 / 65536
  if !byBelfry && !c.ownsBank b master then ((0, true), c.bankDeny b)
  else c.atomicNow (if byBelfry then mBelfry else mOwner) add offset size operand

/-- The old value of an atomic goes back to its master (R308). -/
def Chip.atomicReturn (master offset size : Nat) (r : (Nat × Bool) × Chip) : Chip := r.2.emit (.memData master offset (leBytes size r.1.1) r.1.2)

/-- A request that stalled for a handover is judged, at the switch, as the requests of its master then are (R304, R305). -/
def Chip.bankServe (c : Chip) (r : SramReq) : Chip :=
  match r.atomic with
  | none => c.bankWriteWord r.master (r.offset / 16) r.bytes r.path
  | some (add, size, operand) => Chip.atomicReturn r.master r.offset size (c.atomicAt r.master false add r.offset size operand)

/-- The switch of a handover: the last value written takes effect, and stalled requests are served (R305). -/
def Chip.handoverSwitch (c : Chip) (b : Nat) : Chip :=
  if !c.on (F.BANK_OWNER_HANDOVER.pg b) then c
  else
    let s := c.bank b
    let c := c.setBank b { s with owner := c.ownerCode (c.get (F.BANK_OWNER_OWNER.pg b)), stalled := [] }
    let c := c.set (F.BANK_OWNER_HANDOVER.pg b) 0
    s.stalled.foldl Chip.bankServe c

/-- A write of a path stalls in the window, which holds up what the path asks for after it (R77, R305). -/
def Chip.windowStalled (c : Chip) (o : Origin) : Bool := (List.range 8).any (fun b => (c.bank b).stalled.any (fun r => decide (r.path = some o)))

/-! ### Belfry SRAM (R303, R323) -/

def Chip.belfryPut (c : Chip) (k : Nat) (d : Word128) (syn : Nat) : Chip :=
  { c with mem := { c.mem with belfry := memWrite 0 c.mem.belfry (16 * k) (leBytes 16 d.toNat), belfrySyn := smPut 0 c.mem.belfrySyn k syn } }

/-- A checked read of a Belfry SRAM word; its errors go to the ECC page with UNIT 0 (R303). -/
def Chip.belfryReadWord (c : Chip) (k : Nat) : (Word128 × Bool) × Chip :=
  let d := memWord 0 c.mem.belfry (16 * k)
  let syn := smGet 0 c.mem.belfrySyn k
  match eccBySyndrome d syn with
  | .clean => ((d, false), c)
  | .corrected d' _ =>
    ((d', false), (c.report 0x0D8 [{ ue := false, kind := 0, unit := 0, syndrome := syn, loc := k }]).raise E.BELFRY_MEM_CE)
  | .poison => ((d, true), c)
  | .uncorrectable _ =>
    if c.mem.belfryLastUe = some (k, syn) then ((d, true), c)
    else
      let c := { c with mem := { c.mem with belfryLastUe := some (k, syn) } }
      ((d, true), (c.report 0x0D8 [{ ue := true, kind := 0, unit := 0, syndrome := syn, loc := k }]).raise E.BELFRY_MEM_UE)

/-! ### DRAM layout (R326 to R328) -/

def Chip.dramPort (c : Chip) (p : Nat) : DramPortSt := smGet DramPortSt.init c.mem.ports p
def Chip.setDramPort (c : Chip) (p : Nat) (s : DramPortSt) : Chip := { c with mem := { c.mem with ports := smSet c.mem.ports p s } }

/-- The page of a DRAM port. -/
def dramPage (p : Nat) : Nat := 0x0E0 + p

/-- Channels per port: N_c. -/
def Chip.dramNc (c : Chip) : Nat := match c.build with | .S => 4 | .T => 2

/-- The ports in the interleave, in the order of DRAMCTL.MAP.PORTS. -/
def Chip.dramPorts (c : Chip) : List Nat := (List.range 4).filter (fun p => c.get F.DRAMCTL_MAP_PORTS / 2 ^ p % 2 = 1)

/-- The data capacity in bytes. -/
def Chip.capacity (c : Chip) : Nat := c.get F.DRAMCTL_CAPACITY_MIB * 2 ^ 20

/-- Where a data byte address lies (R326): port, channel, rank, rank-local offset. -/
structure DramLoc where
  port : Nat
  chan : Nat
  rank : Nat
  ofs : Nat
deriving DecidableEq, Repr

/-- Data bytes of a rank-channel: D = 7S/8. -/
def Chip.rankData (c : Chip) (p : Nat) : Nat := (c.dramPort p).rankMib * 2 ^ 20 * 7 / 8

def Chip.dramLoc (c : Chip) (a : Nat) : DramLoc :=
  let ps := c.dramPorts
  let np := ps.length
  let nc := c.dramNc
  let g := a / 64
  let p := ps.getD (g / nc % np) 0
  let l := g / (nc * np) * 64 + a % 64
  let d := c.rankData p
  { port := p, chan := g % nc, rank := l / d, ofs := l % d }

/-- The address of a rank-local offset: R326 read backwards. -/
def Chip.dramAddr (c : Chip) (l : DramLoc) : Nat :=
  let ps := c.dramPorts
  let np := ps.length
  let nc := c.dramNc
  let x := l.rank * c.rankData l.port + l.ofs
  let idx := ps.findIdx (fun p => p = l.port)
  ((x / 64 * np + idx) * nc + l.chan) * 64 + x % 64

/-- The address tag of a data byte address (R328). -/
def dramTag (a : Nat) : Nat :=
  (List.range 7).foldl (fun t i =>
    let bit := fun n => if n ≤ 35 then a / 2 ^ n % 2 else 0
    t + ((bit (4 + i) + bit (11 + i) + bit (18 + i) + bit (25 + i) + bit (32 + i)) % 2) * 2 ^ i) 0

/-- A DRAM remap entry as written: VALID, RANK, CHANNEL, BANK and ROW of entry e of port p, kept under its window key (R319). -/
def dremapAddr (p e : Nat) : Nat := 0x1000000 + 64 * p + 4 * e

def Chip.dremap (c : Chip) (p e : Nat) : Word := (smFind c.regs (dremapAddr p e)).getD 0

/-- Bytes of a rank-channel: S. -/
def Chip.rankBytes (c : Chip) (p : Nat) : Nat := (c.dramPort p).rankMib * 2 ^ 20

/-- Rank-local offset of the check slot of the data word at `o`; a slot has 16 bits (R327). -/
def Chip.slotOfs (c : Chip) (p o : Nat) : Nat := c.rankData p + 2 * (o / 16)

/-- Rank-local offset at which spare row e begins in its channel's spare area, in rank 0: the 2 KiB of the replaced row, then its slots (R327). -/
def Chip.spareOfs (c : Chip) (p e : Nat) : Nat := c.rankBytes p - 262144 + 16384 * e

/-- The slot of a word as it lies in memory: check bits in [8:0], address tag in [15:9] (R327, R328). -/
def slotOf (a : Nat) (d : Word128) (syn : Nat) : Nat := Nat.xor (eccCheck d).toNat (syn % 512) + 512 * Nat.xor (dramTag a) (syn / 512 % 128)

/-- The syndrome of a word that lies in memory with a slot; the difference of the tags from bit 9 on (R312, R329). -/
def synOfSlot (a : Nat) (d : Word128) (slot : Nat) : Nat := Nat.xor (eccCheck d).toNat (slot % 512) + 512 * Nat.xor (dramTag a) (slot / 512 % 128)

/-- Rank-local offset at which the row of a remap entry begins: a row is 2 KiB (R327), of the 2²² that bank and row name. -/
def dremapOffset (w : Word) : Nat := 2048 * (Config.dramRow (bitsOf w 26 23) (bitsOf w 17 0) % 4194304)

/-- Entry w names the row that holds a location: 2 KiB of one rank and channel (R319, R327). -/
def dremapHits (w : Word) (l : DramLoc) : Bool :=
  w.getLsbD 31 && decide (bitsOf w 29 29 = l.rank) && decide (bitsOf w 28 27 = l.chan) &&
    decide (dremapOffset w ≤ l.ofs) && decide (l.ofs < dremapOffset w + 2048)

/-- Key of word i of spare row e of a channel of a port: its place in the spare area of the channel, beyond every data address (R327). -/
def Chip.spareKey (c : Chip) (p chan e i : Nat) : Nat := (p * 4 + chan + 1) * 2 ^ 36 + (c.spareOfs p e + 16 * i) / 16

/-- The stored words that an address stands for: the one read, and those a write goes to. A valid entry that has been copied redirects the
row; while it is being copied, reads use the original and writes go to both (R319). -/
def Chip.dramKeys (c : Chip) (a : Nat) : Nat × List Nat :=
  let l := c.dramLoc a
  match (List.range 16).find? (fun e => (c.dremap l.port e).getLsbD 31 && dremapHits (c.dremap l.port e) l) with
  | none => (a / 16, [a / 16])
  | some e =>
    let k := c.spareKey l.port l.chan e ((l.ofs - dremapOffset (c.dremap l.port e)) / 16)
    if smGet false c.mem.remapCopy (dremapAddr l.port e) then (a / 16, [a / 16, k]) else (k, [k])

/-- The port of a stored word, by its key. -/
def Chip.dramKeyPort (c : Chip) (k : Nat) : Nat := if k < 2 ^ 36 then (c.dramLoc (16 * k)).port else (k / 2 ^ 36 - 1) / 4

/-- The stored data and syndrome of a word, the tag's part of the syndrome from bit 9 on; open on a port with a host error of R320 (assumption
log 165). -/
def Chip.dramData (c : Chip) (k : Nat) : Word128 :=
  match (c.dramPort (c.dramKeyPort k)).wild with
  | none => memWord 0 c.mem.dram (16 * k)
  | some n => BitVec.ofNat 128 (Config.content n k)
def Chip.dramSynOf (c : Chip) (k : Nat) : Nat :=
  match (c.dramPort (c.dramKeyPort k)).wild with
  | none => smGet 0 c.mem.dramSyn k
  | some n => Config.content n k / 2 ^ 128 % 2 ^ 16

/-- The content of a port becomes unpredictable (R320). -/
def Chip.dramWild (c : Chip) (p : Nat) : Chip := { c.setDramPort p { c.dramPort p with wild := some c.free } with free := c.free + 1 }

def Chip.dramPut (c : Chip) (k : Nat) (d : Word128) (syn : Nat) : Chip :=
  { c with mem := { c.mem with dram := memWrite 0 c.mem.dram (16 * k) (leBytes 16 d.toNat), dramSyn := smPut 0 c.mem.dramSyn k syn } }

/-- A write to a port, to the stored words of some keys; an armed flip mask of the port is applied once (R321). -/
def Chip.dramPuts (c : Chip) (p : Nat) (keys : List Nat) (d : Word128) (syn : Nat) : Chip :=
  let r := if c.flipArmed (dramPage p) then
      let m := c.flipMask (dramPage p)
      (d ^^^ m.1, Nat.xor syn (eccCheck m.1 ^^^ m.2).toNat, c.set (F.FLIP_ARM.pg (dramPage p)) 0)
    else (d, syn, c)
  keys.foldl (fun c k => c.dramPut k r.1 r.2.1) r.2.2

/-- A stored DRAM word (R319, R321). -/
def Chip.dramStore (c : Chip) (a : Nat) (d : Word128) (syn : Nat) : Chip := c.dramPuts (c.dramLoc a).port (c.dramKeys a).2 d syn

/-- A corrected error of a DRAM port: record, the 1 s count of R343, DRAM_CE. -/
def Chip.dramCe (c : Chip) (p unit syn a : Nat) : Chip :=
  let s := c.dramPort p
  let c := c.setDramPort p { s with ceWindow := s.ceWindow + 1 }
  (c.report (dramPage p) [{ ue := false, kind := 0, unit := unit, syndrome := syn, loc := a / 16 }]).raise E.DRAM_CE

/-- An uncorrectable data or address error of a DRAM port, recorded once where its syndrome is new (R315, R329). -/
def Chip.dramUe (c : Chip) (p unit kind syn a : Nat) : Chip :=
  let s := c.dramPort p
  if s.lastUe = some (a / 16, syn) then c
  else
    let c := c.setDramPort p { s with lastUe := some (a / 16, syn) }
    (c.report (dramPage p) [{ ue := true, kind := kind, unit := unit, syndrome := syn % 512, loc := a / 16 }]).raise (E.DRAM_UE p)

/-! ### Masters, ranks and rows (R332, R335, R338) -/

/-- The masters of R332, by code; the table reads and canvas writes of the mapping array carry hints of their own. -/
def dmFlow : Nat := 0
def dmDp : Nat := 1
def dmScan : Nat := 2
def dmPreview : Nat := 3
def dmMap : Nat := 4
def dmMapTab : Nat := 20
def dmMapCanvas : Nat := 36
def dmHost : Nat := 5
def dmBelfry : Nat := 6
def dmChain : Nat := 7
def dmScrub : Nat := 8

/-- The requester code of a master's records (R329, R331). -/
def unitOf (master : Nat) : Nat := match master % 16 with | 5 => 3 | 6 => 2 | 8 => 1 | _ => 0

/-- A master's class is RT (R332). -/
def dramRt (master : Nat) : Bool := decide (master % 16 < 4)

/-- The hint that a master issues with a read or a write (R332). -/
def dramHint (master : Nat) (write : Bool) : PageHint :=
  if master = dmMapTab || master % 16 = 8 then .close else if master = dmMapCanvas || (master = dmMap && write) then .open_ else .none_

/-- A hint leaves the row open; NONE takes the master's default from DRAMCTL.HINT (R332). -/
def Chip.leavesOpen (c : Chip) (master : Nat) (h : PageHint) : Bool :=
  match h with
  | .open_ => true
  | .close => false
  | .none_ => decide (c.get F.DRAMCTL_HINT_HINT / 4 ^ (master % 16) % 4 ≠ 1)

/-- The key of the bank that holds a location; which bank holds a row is a constant of the part (R326). -/
def bankKey (l : DramLoc) : Nat := (l.rank * 4 + l.chan) * 16 + Config.dramBank (l.ofs / 2048) % 16

/-- A request reaches a location: its rank wakes, and its row is left open or precharged (R332, R338). -/
def Chip.touchRow (c : Chip) (keepOpen : Bool) (a : Nat) : Chip :=
  let l := c.dramLoc a
  let s := c.dramPort l.port
  c.setDramPort l.port { s with
    powerDown := smPut false s.powerDown l.rank false,
    rows := if keepOpen then smSet s.rows (bankKey l) (l.ofs / 2048) else smDel s.rows (bankKey l) }

/-- The addresses of the 64-byte bursts of an access that are within CAPACITY. -/
def Chip.bursts (c : Chip) (a n : Nat) : List Nat :=
  if n = 0 then []
  else ((List.range ((a + n - 1) / 64 + 1 - a / 64)).map (fun i => (a / 64 + i) * 64)).filter (fun x => decide (x < c.capacity))

/-- A request reaches memory. -/
def Chip.dramTouch (c : Chip) (master : Nat) (h : PageHint) (a n : Nat) : Chip :=
  (c.bursts a n).foldl (fun c x => c.touchRow (c.leavesOpen master h) x) c

/-! ### Reads and writes -/

/-- States of a DRAM port (spec/13_dram.md, Port states). -/
def dsAbsent : Nat := 0
def dsTrain : Nat := 1
def dsFill : Nat := 2
def dsRun : Nat := 3
def dsRetrain : Nat := 4
def dsStep : Nat := 5
def dsFailed : Nat := 6

/-- A checked read of the DRAM word at an address: zero and poisoned above CAPACITY or on a FAILED port; the tag is checked first, then
the syndrome (R329, R331, R344). -/
def Chip.dramReadWord (c : Chip) (master a : Nat) : (Word128 × Bool) × Chip :=
  if c.capacity ≤ a then ((0, true), c)
  else
    let p := (c.dramLoc a).port
    if c.state (dramPage p) = dsFailed then ((0, true), c)
    else
      let k := (c.dramKeys a).1
      let d := c.dramData k
      let syn := c.dramSynOf k
      if syn / 512 ≠ 0 then ((d, true), c.dramUe p (unitOf master) 1 syn a)
      else match eccBySyndrome d syn with
        | .clean => ((d, false), c)
        | .corrected d' _ => ((d', false), c.dramCe p (unitOf master) syn a)
        | .poison => ((d, true), c)
        | .uncorrectable _ => ((d, true), c.dramUe p (unitOf master) 0 syn a)

/-- The syndrome with which the DRAM word at an address is returned poisoned; none where it is returned good. A word that is not there, above
CAPACITY or on a FAILED port, counts as stored poison (R329, R331, R344; assumption log 130). -/
def Chip.dramPoison (c : Chip) (a : Nat) : Option Nat :=
  if c.capacity ≤ a || c.state (dramPage (c.dramLoc a).port) = dsFailed then some 0x1FF
  else
    let k := (c.dramKeys a).1
    let syn := c.dramSynOf k
    if syn / 512 ≠ 0 then some (syn % 512)
    else match eccBySyndrome (c.dramData k) syn with
      | .clean | .corrected _ _ => none
      | .poison | .uncorrectable _ => some (syn % 512)

/-- An access with a word at or above CAPACITY: one record, one count, and DRAM_RANGE (R331). -/
def Chip.dramRange (c : Chip) (master a n : Nat) : Chip :=
  if n = 0 || a + n ≤ c.capacity then c
  else
    let first := max (a / 16) (ceilDiv c.capacity 16)
    (c.report 0x0E4 [{ ue := true, kind := 2, unit := unitOf master, syndrome := 0, loc := first }]).raise E.DRAM_RANGE

/-- Bytes read from DRAM by a master, and whether any is poisoned. -/
def Chip.dramRead (c : Chip) (master a n : Nat) : (List Byte × Bool) × Chip :=
  let c := (c.dramTouch master (dramHint master false) a n).dramRange master a n
  let words := (wordLanes a (List.replicate n (some 0))).map (·.1)
  let r := words.foldl (fun (acc : (List Byte × Bool) × Chip) w =>
    let x := acc.2.dramReadWord master (16 * w)
    ((acc.1.1 ++ leBytes 16 x.1.1.toNat, acc.1.2 || x.1.2), x.2)) (([], false), c)
  ((slice r.1.1 (a % 16) n, r.1.2), r.2)

/-- One word written by a master: whole words with their slots, partial ones by read-modify-write that keeps poison; a word out of range
or on a FAILED port is dropped (R330, R331, R344). -/
def Chip.dramWriteWord (c : Chip) (master a : Nat) (bytes : List (Option Byte)) : Chip :=
  if c.capacity ≤ a then c
  else if c.state (dramPage (c.dramLoc a).port) = dsFailed then c
  else
    let mask := (List.range 16).foldl (fun m i => match bytes.getD i none with | some _ => m + 2 ^ i | none => m) 0
    let data : Word128 := BitVec.ofNat 128 (ofLe ((List.range 16).map (fun i => (bytes.getD i none).getD 0)))
    if mask = 0 then c
    else if mask = 0xFFFF then c.dramStore a data 0
    else
      let r := c.dramReadWord master a
      r.2.dramStore a (mergeBytes r.1.1 data mask) (if r.1.2 then 0x1FF else 0)

/-- The mirrored region that holds a 4 KiB block, if one does (R277, R290). -/
def Chip.mirrored (c : Chip) (block : Nat) : Bool :=
  (List.range 16).any (fun r =>
    let b := (c.rd (F.MIRROR_REGION_BASE_BASE.addr + 8 * r)).toNat
    decide (b ≤ block) && decide (block < b + c.get (F.MIRROR_REGION_SIZE_BLOCKS.plus (8 * r))))

/-- Blocks of mirrored regions are marked as they are written, by any master (R290). -/
def Chip.markBlocks (c : Chip) (a n : Nat) : Chip :=
  if c.build = .T || n = 0 then c
  else (List.range ((a + n - 1) / 4096 + 1 - a / 4096)).foldl (fun c i =>
    let b := a / 4096 + i
    if c.mirrored b then { c with mirror := { c.mirror with dirty := smSet c.mirror.dirty b true } } else c) c

/-- Bytes of a request stored; `none` marks a byte not written. -/
def Chip.dramWriteNow (c : Chip) (master : Nat) (h : PageHint) (a : Nat) (bytes : List (Option Byte)) : Chip :=
  let c := (c.markBlocks a bytes.length).dramTouch master h a bytes.length
  (wordLanes a bytes).foldl (fun c x => c.dramWriteWord master (16 * x.1) x.2) (c.dramRange master a bytes.length)

/-! ### Stalls of a rate step (R335, R343) -/

/-- Ports that an access touches. -/
def Chip.portsOf (c : Chip) (a n : Nat) : List Nat := ((c.bursts a n).map (fun x => (c.dramLoc x).port)).eraseDups

/-- An access touches a port in a rate step. -/
def Chip.inStep (c : Chip) (a n : Nat) : Bool :=
  (List.range 4).any (fun p => decide (c.state (dramPage p) = dsStep)) && (c.portsOf a n).any (fun p => decide (c.state (dramPage p) = dsStep))

/-- A request must not pass one that came before it: of the same master, or with a write of bytes that both touch (R335). -/
def DramReq.after (r x : DramReq) : Bool :=
  decide (x.master = r.master) || ((x.write || r.write) && decide (x.addr < r.addr + r.bytes.length) && decide (r.addr < x.addr + x.bytes.length))

/-- A request stalls: a port that it touches is in a rate step, or one before it stalls that it must not pass (R335, R343). -/
def Chip.dramStalls (c : Chip) (r : DramReq) : Bool := c.inStep r.addr r.bytes.length || c.mem.stalled.any (fun x => r.after x)

def Chip.dramStall (c : Chip) (r : DramReq) : Chip := { c with mem := { c.mem with stalled := c.mem.stalled ++ [r] } }

/-- A master's request (R332). -/
def dramReqOf (master : Nat) (write : Bool) (a : Nat) (bytes : List (Option Byte)) : DramReq :=
  { master := master % 16, rt := dramRt master, hint := dramHint master write, addr := a, write := write, bytes := bytes }

/-- A read of an engine would stall: the engine's data does not come yet (R335, R343; assumption log 54). -/
def Chip.readStalls (c : Chip) (master a n : Nat) : Bool := c.dramStalls (dramReqOf master false a (List.replicate n none))

/-- Bytes written to DRAM by an engine: at once, or when the rate step of their port has ended (R343). -/
def Chip.dramWriteOpt (c : Chip) (master a : Nat) (bytes : List (Option Byte)) : Chip :=
  let r := dramReqOf master true a bytes
  if c.dramStalls r then c.dramStall r else c.dramWriteNow master r.hint a bytes

/-- The memories as a read made now finds them once the rate steps that it waits for have ended: the writes that stall before it are done. -/
def Chip.settled (c : Chip) : Chip :=
  (c.mem.stalled.filter (fun r => r.write)).foldl (fun c r => c.dramWriteNow r.master r.hint r.addr r.bytes) { c with mem := { c.mem with stalled := [] } }

/-- Bytes read by a flow or the control transmitter: where the read stalls, those that it then gets (R343; assumption log 54). -/
def Chip.dramFetch (c : Chip) (master a n : Nat) : (List Byte × Bool) × Chip :=
  let r := c.dramRead master a n
  (if c.readStalls master a n then (c.settled.dramRead master a n).1 else r.1, r.2)

/-- Bytes written to DRAM by an internal engine. -/
def Chip.dramWrite (c : Chip) (master a : Nat) (bytes : List Byte) : Chip := c.dramWriteOpt master a (bytes.map some)

/-! ### Figures of the ports in use (R326, R345) -/

/-- The largest power of two not above n. -/
def pow2Below (n : Nat) : Nat := if n ≥ 4 then 4 else if n ≥ 2 then 2 else n

/-- Peak of a grade in units of 0.01 GB/s (R345). -/
def gradePeak (g : Nat) : Nat := match g with | 0 => 7680 | 1 => 6826 | 2 => 6000 | _ => 5120

/-- CANVAS_LIMIT of a set of ports: floor(1,000 × N_p × B_min ÷ 307.2), 0 when one of them is FAILED (R345). -/
def Chip.canvasLimitOf (c : Chip) (ps : List Nat) : Nat :=
  if ps.isEmpty || ps.any (fun p => c.state (dramPage p) = dsFailed) then 0
  else
    let peaks := ps.map (fun p => gradePeak (c.get (F.DRAM_STATUS_RATE.pg p)))
    min 1000 (1000 * ps.length * peaks.foldl min 7680 / 30720)

/-- Ports that would be used at the next start: the largest power of two of those populated and not FAILED (R345). -/
def Chip.nextPorts (c : Chip) : List Nat :=
  let ok := (List.range 4).filter (fun p => c.on (F.DRAM_STATUS_POPULATED.pg p) && decide (c.state (dramPage p) ≠ dsFailed))
  ok.take (pow2Below ok.length)

/-- CANVAS_LIMIT shown (S build; R345). -/
def Chip.showCanvasLimit (c : Chip) : Chip :=
  match c.build with
  | .T => c
  | .S => (c.set F.DRAMCTL_CANVAS_LIMIT_NOW (c.canvasLimitOf c.dramPorts)).set F.DRAMCTL_CANVAS_LIMIT_AFTER_RESTART (c.canvasLimitOf c.nextPorts)

/-- A DRAM port enters a state: STATE, FAULT in STEP, FAILED and while NOFIT = 1, BUSY, and DRAM_PORT_FAIL (R344). -/
def Chip.setDramState (c : Chip) (p st : Nat) : Chip :=
  let c := c.set (F.STATE.pg (dramPage p)) st
  let c := c.set (F.FAULT.pg (dramPage p)) (b2n (decide (st = dsStep) || decide (st = dsFailed) || c.on (F.DRAM_TRAIN_NOFIT.pg p)))
  let c := c.set (F.RUNNING.pg (dramPage p)) (b2n (decide (dsRun ≤ st) && decide (st < dsFailed)))
  let c := c.set (F.DRAM_TRAIN_BUSY.pg p) (b2n (decide (st = dsRetrain) || decide (st = dsStep)))
  c.cond E.DRAM_PORT_FAIL ((List.range 4).any (fun q => c.on (F.DRAM_STATUS_POPULATED.pg q) && decide (c.state (dramPage q) = dsFailed)))

end Sys2Proof.Machine
end

