-- ==== Sys2Proof/Machine/MemCtlOps.lean ====
section
/-! DEFINITION. What is done to the memories by command: fills, scrub, remap and its copies, split writes, DRAM training, refresh, retraining, rate steps and failure (spec/12_memory_ecc.md, spec/13_dram.md). -/

namespace Sys2Proof.Machine

/-! ### Retraining: its start (R341) -/

/-- A retraining starts: eight slices for each channel; one that falls due during another, or before the port runs, follows it (R341). -/
def Chip.retrainStart (c : Chip) (p : Nat) : Chip :=
  let st := c.state (dramPage p)
  if st = dsRun then
    ((c.set (F.DRAM_TRAIN_SLICES_LEFT.pg p) (8 * c.dramNc)).setDramPort p { c.dramPort p with retrainDue := false }).setDramState p dsRetrain
  else if st = dsAbsent || st = dsFailed then c
  else c.setDramPort p { c.dramPort p with retrainDue := true }

/-- A port that runs takes up a retraining that fell due before (R341). -/
def Chip.retrainNext (c : Chip) (p : Nat) : Chip := if (c.dramPort p).retrainDue then c.retrainStart p else c

/-! ### Start-up fills (R316) -/

/-- Every word of the banks, their spares and the Belfry SRAM becomes zero with check bits 0; the fill is a write, so an armed flip mask acts
on the first word it meets in its bank (R316, R321). -/
def Chip.sramFill (c : Chip) : Chip :=
  if c.on F.ECC_STATUS_SRAM_FILLED then c
  else
    let c := { c with mem := { c.mem with sram := [], sramSyn := [], belfry := [], belfrySyn := [] } }
    let c := ((List.range 8).filter (fun b => (c.bank b).wild.isSome)).foldl (fun c b => c.setBank b { c.bank b with wild := none }) c
    let c := (List.range 8).foldl (fun c b => if c.flipArmed (bankPage b) then c.sramStore (b * 65536) 0 0 else c) c
    c.set F.ECC_STATUS_SRAM_FILLED 1

/-- The data capacity of a port if it takes part: N_c × ranks × D in MiB. -/
def Chip.portMib (c : Chip) (p : Nat) : Nat :=
  c.dramNc * c.get (F.DRAM_STATUS_RANKS.pg p) * ((c.dramPort p).rankMib * 7 / 8)

/-- The interleave fixed at start: the largest power-of-two number of ports that trained, the lowest-numbered ones; the smallest of them
gives every port's share (R326). -/
def Chip.interleave (c : Chip) : Chip :=
  let ok := (List.range 4).filter (fun p => let s := c.state (dramPage p); s = dsFill || s = dsRun)
  let ps := ok.take (pow2Below ok.length)
  let least := (ps.map c.portMib).foldl min (c.portMib (ps.getD 0 0))
  (c.set F.DRAMCTL_MAP_PORTS ((ps.map (fun p => 2 ^ p)).sum)).set F.DRAMCTL_CAPACITY_MIB (ps.length * least)

/-- The DRAM fill ends: every populated word and check slot is zero and valid, ports in FILL run, and CAPACITY reads what is in use
(R316, R326, R392). With no port trained, DRAM_FILLED stays 0. -/
def Chip.dramFill (c : Chip) : Chip :=
  let ps := (List.range 4).filter (fun p => c.state (dramPage p) = dsFill)
  if c.on F.ECC_STATUS_DRAM_FILLED || ps.isEmpty then c
  else
    let c := c.interleave
    let c := { c with mem := { c.mem with dram := [], dramSyn := [] } }
    let c := ((List.range 4).filter (fun p => (c.dramPort p).wild.isSome)).foldl (fun c p => c.setDramPort p { c.dramPort p with wild := none }) c
    let c := ps.foldl (fun c p => c.setDramState p dsRun) c
    let c := ps.foldl (fun c p =>
      if c.flipArmed (dramPage p) then c.dramStore (c.dramAddr { port := p, chan := 0, rank := 0, ofs := 0 }) 0 0 else c) c
    ps.foldl Chip.retrainNext (c.set F.ECC_STATUS_DRAM_FILLED 1).showCanvasLimit

/-! ### Scrubbing (R317) -/

/-- Words of a memory: the data banks (0 to 7), the Belfry SRAM (8), the DRAM of port p (9 + p). -/
def Chip.scrubWords (c : Chip) (m : Nat) : Nat :=
  if m < 8 then 65536
  else if m = 8 then 32768
  else if (m - 9) ∈ c.dramPorts then c.capacity / 16 / c.dramPorts.length else 0

/-- The memories that a pass covers. -/
def Chip.scrubMems (c : Chip) : List Nat := (List.range 13).filter (fun m => decide (0 < c.scrubWords m))

/-- The address of the i-th data word of a DRAM port: R326 read backwards. -/
def Chip.scrubAddr (c : Chip) (p i : Nat) : Nat :=
  let nc := c.dramNc
  let np := c.dramPorts.length
  let idx := c.dramPorts.findIdx (fun q => q = p)
  ((i / 4 / nc * np + idx) * nc + i / 4 % nc) * 64 + i % 4 * 16

/-- A bank word read by the scrubber: corrected, or newly uncorrectable and stored as poisoned; words in the merge buffer are skipped. -/
def Chip.scrubSram (c : Chip) (w : Nat) : Chip :=
  let b := w / 65536
  if (c.bank b).merge.any (fun e => e.word = w % 65536) then c
  else
    let k := c.sramWord w
    match eccBySyndrome (c.sramData k) (c.sramSyn k) with
    | .clean => c
    | .poison => c
    | .corrected d _ => (c.sramReadWord mScrub w).2.sramStore k d 0
    | .uncorrectable _ =>
      let new := decide ((c.bank b).lastUe ≠ some (w, c.sramSyn k))
      let c := (c.sramReadWord mScrub w).2
      if new then c.sramStore k (c.sramData k) 0x1FF else c

/-- A Belfry SRAM word read by the scrubber. -/
def Chip.scrubBelfry (c : Chip) (k : Nat) : Chip :=
  let d := memWord 0 c.mem.belfry (16 * k)
  let syn := smGet 0 c.mem.belfrySyn k
  match eccBySyndrome d syn with
  | .clean => c
  | .poison => c
  | .corrected d' _ => (c.belfryReadWord k).2.belfryPut k d' 0
  | .uncorrectable _ =>
    let new := decide (c.mem.belfryLastUe ≠ some (k, syn))
    let c := (c.belfryReadWord k).2
    if new then c.belfryPut k d 0x1FF else c

/-- A DRAM word read by the scrubber; a tag that does not match is rewritten as poison with the word's own tag (R329). -/
def Chip.scrubDram (c : Chip) (a : Nat) : Chip :=
  let c := c.dramTouch dmScrub .close a 16
  let k := (c.dramKeys a).1
  let d := c.dramData k
  let syn := c.dramSynOf k
  let p := (c.dramLoc a).port
  if c.state (dramPage p) = dsFailed then c
  else if syn / 512 ≠ 0 then (c.dramReadWord dmScrub a).2.dramStore a d 0x1FF
  else match eccBySyndrome d syn with
    | .clean => c
    | .poison => c
    | .corrected d' _ => (c.dramReadWord dmScrub a).2.dramStore a d' 0
    | .uncorrectable _ =>
      let new := decide ((c.dramPort p).lastUe ≠ some (a / 16, syn))
      let c := (c.dramReadWord dmScrub a).2
      if new then c.dramStore a d 0x1FF else c

/-- The scrubber's next read of a memory stalls with the rate step of its port (R343). -/
def Chip.scrubStalls (c : Chip) (m : Nat) : Bool := decide (9 ≤ m) && c.readStalls dmScrub (c.scrubAddr (m - 9) (smGet 0 c.mem.scrubPos m)) 16

/-- PERCENT: progress of the slowest memory in the current pass. -/
def Chip.scrubShow (c : Chip) : Chip :=
  let l := c.scrubMems.map (fun m => if m ∈ c.mem.scrubDone then 100 else smGet 0 c.mem.scrubPos m * 100 / c.scrubWords m)
  c.set F.ECC_SCRUB_STATUS_PERCENT (l.foldl min 100)

/-- The scrubber reads its next word of a memory; when the pass of every memory has ended, SCRUB_DONE is raised and PASSES advances (R317). -/
def Chip.scrubRead (c : Chip) (m : Nat) : Chip :=
  if !c.on F.ECC_SCRUB_EN || c.scrubWords m = 0 || m ∈ c.mem.scrubDone || c.scrubStalls m then c
  else
    let i := smGet 0 c.mem.scrubPos m
    let c := if m < 8 then c.scrubSram (m * 65536 + i) else if m = 8 then c.scrubBelfry i else c.scrubDram (c.scrubAddr (m - 9) i)
    let c :=
      if i + 1 < c.scrubWords m then { c with mem := { c.mem with scrubPos := smSet c.mem.scrubPos m (i + 1) } }
      else { c with mem := { c.mem with scrubPos := smSet c.mem.scrubPos m 0, scrubDone := c.mem.scrubDone ++ [m] } }
    let c :=
      if c.scrubMems.all (fun x => x ∈ c.mem.scrubDone) then
        ({ c with mem := { c.mem with scrubDone := [] } }.bump F.ECC_SCRUB_STATUS_PASSES).raise E.SCRUB_DONE
      else c
    c.scrubShow

/-- SCRUB.NOW: a new pass of every memory starts at once (R317). -/
def Chip.scrubNow (c : Chip) : Chip := { c with mem := { c.mem with scrubPos := [], scrubDone := [] } }.scrubShow

/-! ### Remap (R318 to R320) -/

/-- The key of a remap entry of a bank. -/
def bremapAddr (b e : Nat) : Nat := 0x0D0080 + 4096 * b + 4 * e

/-- BANK.STATUS.REMAP shows the valid entries. -/
def Chip.showRemap (c : Chip) (b : Nat) : Chip :=
  c.set (F.BANK_STATUS_REMAP.pg b) ((List.range 8).map (fun e => if (c.rd (bremapAddr b e)).getLsbD 31 then 2 ^ e else 0)).sum

/-- A word copied from one stored place to another: corrected, or stored as poisoned (R318, R319). -/
def Chip.sramCopy (c : Chip) (w src dst : Nat) : Chip :=
  match eccBySyndrome (c.sramData src) (c.sramSyn src) with
  | .clean => c.sramStore dst (c.sramData src) 0
  | .corrected d _ => (c.sramCe w mOwner (c.sramSyn src)).sramStore dst d 0
  | .poison => c.sramStore dst (c.sramData src) 0x1FF
  | .uncorrectable _ => (c.sramUe w mOwner (c.sramSyn src)).sramStore dst (c.sramData src) 0x1FF

/-- The copy of a bank's remap entry completes and the redirect is made (R318). -/
def Chip.bankRemapDone (c : Chip) (b e : Nat) : Chip :=
  let a := bremapAddr b e
  let r := c.rd a
  if !r.getLsbD 30 then c
  else
    let w := b * 65536 + bitsOf r 15 0
    let spare := 524288 + 8 * b + e
    let c := c.retireWord b (bitsOf r 15 0)
    let c := if r.getLsbD 31 then c.sramCopy w w spare else c.sramCopy w spare w
    (c.wr a (r &&& ~~~((1 : Word) <<< 30))).raise E.REMAP_DONE

/-- A remap entry written: setting VALID, or naming another word, copies that word to the spare; clearing VALID copies it back. The copy
stands until it completes; until then the word is served where it was (R318). A write that meets the copy of an earlier one acts when that
copy, one locked operation, is complete (assumption log 47). Two valid entries of one word are a host error: the content of the bank is unpredictable (R320). -/
def Chip.bankRemap (c : Chip) (b e : Nat) (w : Word) : Chip :=
  let c := c.bankRemapDone b e
  let a := bremapAddr b e
  let old := c.rd a
  let valid := w.getLsbD 31
  let word := bitsOf w 15 0
  let copy := if valid then !old.getLsbD 31 || bitsOf old 15 0 ≠ word else old.getLsbD 31
  -- an entry on its way out keeps naming the word it brings back
  let word := if !valid && old.getLsbD 31 then bitsOf old 15 0 else word
  let c := c.wr a (BitVec.ofNat 32 (b2n valid * 2 ^ 31 + b2n copy * 2 ^ 30 + word))
  let c := c.showRemap b
  let twice := valid && (List.range 8).any (fun x => x ≠ e && (c.rd (bremapAddr b x)).getLsbD 31 && bitsOf (c.rd (bremapAddr b x)) 15 0 = word)
  if twice then c.bankWild b else c

/-- A row remap entry written through the window: setting VALID, or naming another row, starts the background copy (R319). Two valid
entries of one row are a host error: the content of the port is unpredictable (R320). -/
def Chip.dramRemap (c : Chip) (p e : Nat) (w : Word) : Chip :=
  let a := dremapAddr p e
  let old := c.dremap p e
  let new := w &&& 0xBF83FFFF
  let same := decide (old &&& 0x3F83FFFF = new &&& 0x3F83FFFF)
  let copying := smGet false c.mem.remapCopy a
  let copy := new.getLsbD 31 && (!old.getLsbD 31 || !same || copying)
  let c := { c.wr a new with mem := { c.mem with remapCopy := smSet c.mem.remapCopy a copy } }
  let twice := new.getLsbD 31 && (List.range 16).any (fun x => x ≠ e && decide (c.dremap p x = new))
  if twice then c.dramWild p else c

/-- One word of a row goes to its spare, corrected or as poison, its tag kept; the copy is a write to the port (R319, R321). -/
def Chip.dramCopyWord (c : Chip) (p a k dst : Nat) : Chip :=
  let d := c.dramData k
  let syn := c.dramSynOf k
  if syn / 512 ≠ 0 then (c.dramUe p mOwner 1 syn a).dramPuts p [dst] d 0x1FF
  else match eccBySyndrome d syn with
    | .clean => c.dramPuts p [dst] d 0
    | .corrected d' _ => (c.dramCe p mOwner syn a).dramPuts p [dst] d' 0
    | .poison => c.dramPuts p [dst] d 0x1FF
    | .uncorrectable _ => (c.dramUe p mOwner 0 syn a).dramPuts p [dst] d 0x1FF

/-- The copy of a row completes and the redirect is made (R319). -/
def Chip.dramRemapDone (c : Chip) (p e : Nat) : Chip :=
  let a := dremapAddr p e
  if !smGet false c.mem.remapCopy a then c
  else
    let w := c.dremap p e
    let o := dremapOffset w
    let c := (List.range 128).foldl (fun c i =>
      let addr := c.dramAddr { port := p, chan := bitsOf w 28 27, rank := bitsOf w 29 29, ofs := o + 16 * i }
      c.dramCopyWord p addr (addr / 16) (c.spareKey p (bitsOf w 28 27) e i)) c
    { c with mem := { c.mem with remapCopy := smSet c.mem.remapCopy a false } }.raise E.REMAP_DONE

/-! ### Split write (R322) -/

/-- The new syndrome of a word when its data or its check bits alone are stored; the old data and syndrome are `d` and `syn`. -/
def splitSyn (check : Bool) (d d' : Word128) (syn : Nat) (chk : BitVec 9) : Nat :=
  if check then (eccCheck d ^^^ chk).toNat
  else Nat.xor (syn % 512) (eccCheck d ^^^ eccCheck d').toNat

/-- SPLIT.GO: by the Belfry or JTAG while DEBUG.UNLOCK is set; otherwise ignored, and SPLIT_DENY (R322). -/
def Chip.splitGo (c : Chip) (o : Origin) : Chip :=
  if !(o = .belfry || o = .jtag) || !c.on F.DEBUG_CTRL_UNLOCK then c.raise E.SPLIT_DENY
  else
    let check := c.on F.ECC_SPLIT_CTRL_CHECK
    let a := (c.rd F.ECC_SPLIT_ADDR_WORD.addr).toNat
    let w := fun k => (c.rd (F.ECC_SPLIT_DATA_DATA.addr + 4 * k)).toNat
    let data : Word128 := BitVec.ofNat 128 (w 0 + w 1 * 2 ^ 32 + w 2 * 2 ^ 64 + w 3 * 2 ^ 96)
    let chk : BitVec 9 := BitVec.ofNat 9 (c.get F.ECC_SPLIT_CHECK_CHECK)
    match c.get F.ECC_SPLIT_CTRL_SPACE with
    | 1 =>
      if c.capacity ≤ 16 * a then c
      else
        let c := c.markBlocks (16 * a) 16
        let k := (c.dramKeys (16 * a)).1
        let d := c.dramData k
        let d' := if check then d else data
        let slot := chk.toNat + 512 * (if c.on F.ECC_SPLIT_CTRL_TAG then c.get F.ECC_SPLIT_CHECK_TAG else dramTag (16 * a))
        (c.dramKeys (16 * a)).2.foldl (fun c k =>
          c.dramPut k d' (synOfSlot (16 * a) d' (if check then slot else slotOf (16 * a) d (c.dramSynOf k)))) c
    | 2 =>
      let k := a % 32768
      let d := memWord 0 c.mem.belfry (16 * k)
      let d' := if check then d else data
      c.belfryPut k d' (splitSyn check d d' (smGet 0 c.mem.belfrySyn k) chk)
    | _ =>
      if a < 0x80000 || 0x100000 ≤ a then c
      else
        let k := c.sramWord (a - 0x80000)
        let d := c.sramData k
        let d' := if check then d else data
        c.sramPut k d' (splitSyn check d d' (c.sramSyn k) chk)

/-! ### DRAM accesses of the masters (R332, R335, R343) -/

/-- The DRAM address of a host access through BAR2 (R29). -/
def Chip.bar2Addr (c : Chip) (ofs : Nat) : Nat := c.get F.DRAMCTL_BAR2_BASE_BASE * 2 ^ 20 + ofs % 2 ^ 28

/-- A request served: read data goes to its master, marked where poisoned; a write is stored (R329 to R331). -/
def Chip.dramServe (c : Chip) (r : DramReq) : Chip :=
  if r.write then c.dramWriteNow r.master r.hint r.addr r.bytes
  else
    let x := c.dramRead r.master r.addr r.bytes.length
    x.2.emit (.memData r.master r.addr x.1.1 x.1.2)

/-- A read that hits the row of a pending write puts its bank into in-order mode, which is counted where the bank enters it; a later access of
the bank that hits none finds the mode ended (R335; assumption log 174). -/
def Chip.orderMode (c : Chip) (r : DramReq) (hits : Bool) : Chip :=
  let l := c.dramLoc r.addr
  let s := c.dramPort l.port
  if c.capacity ≤ r.addr then c
  else if hits && !r.write then
    let c := if smGet false s.inOrder (bankKey l) then c else c.bump F.DRAMCTL_STATUS_INORDER
    c.setDramPort l.port { s with inOrder := smSet s.inOrder (bankKey l) true }
  else c.setDramPort l.port { s with inOrder := smDel s.inOrder (bankKey l) }

/-- A request arrives: during a rate step of a port it touches, or behind a stalled one that it must not pass, it stalls (R335, R343). -/
def Chip.dramRequest (c : Chip) (r : DramReq) (hitsPending : Bool) : Chip :=
  let c := c.orderMode r hitsPending
  if c.dramStalls r then c.dramStall r else c.dramServe r

/-- Stalled requests are served, in order of arrival, but for those whose port is in a step still and those behind them (R335, R343). -/
def Chip.dramUnstall (c : Chip) : Chip :=
  c.mem.stalled.foldl (fun c r => if c.dramStalls r then c.dramStall r else c.dramServe r) { c with mem := { c.mem with stalled := [] } }

/-! ### Training at start (R325, R339) -/

/-- A port has trained at start, or failed: `ranks` and `rankMib` as MR8 gives them, 0 ranks for a port not populated; `uniform` where every
channel carries the same; `grade` the grade at which it trained. -/
def Chip.dramInit (c : Chip) (p ranks rankMib : Nat) (uniform : Bool) (grade : Option Nat) : Chip :=
  let s := c.state (dramPage p)
  if !(c.hasPage (dramPage p) && p < 4) || c.on F.ECC_STATUS_DRAM_FILLED || !(s = dsAbsent || s = dsTrain) then c
  else if ranks = 0 then c.setDramState p dsAbsent
  else
    let c := (c.set (F.DRAM_STATUS_POPULATED.pg p) 1).set (F.DRAM_STATUS_RANKS.pg p) (min 2 ranks)
    let c := c.set (F.DRAM_STATUS_CAP_MIB.pg p) (c.dramNc * min 2 ranks * rankMib)
    let c := c.setDramPort p { c.dramPort p with rankMib := rankMib }
    if !uniform then (c.setDramState p dsFailed).showCanvasLimit
    else match grade with
      | none => ((c.setDramState p dsFailed).raise E.DRAM_INIT_FAIL).showCanvasLimit
      | some g => ((c.set (F.DRAM_STATUS_RATE.pg p) (min 3 (max g (c.get (F.DRAM_RATE_CFG_RATE_MAX.pg p))))).setDramState p dsFill)

/-! ### Refresh (R336, R337) -/

/-- The key of a bank of a rank-channel in the refresh debts. -/
def debtKey (rank chan bank : Nat) : Nat := (rank * 4 + chan) * 16 + bank

/-- A bank's refresh falls due: its debt grows by one; one refresh is issued unless an RT run holds the bank, whose run is split at a debt of
8 (R337). -/
def Chip.refreshDue (c : Chip) (p rank chan bank : Nat) (rtRun : Bool) : Chip :=
  let s := c.dramPort p
  let key := debtKey rank chan bank
  let d := smGet 0 s.debts key + 1
  let c := c.setDramPort p { s with powerDown := smPut false s.powerDown rank false, debts := smPut 0 s.debts key (if !rtRun || decide (8 ≤ d) then d - 1 else d) }
  let c := c.set (F.DRAM_REF_DEBT_MAX.pg p) (max (c.get (F.DRAM_REF_DEBT_MAX.pg p)) (min 8 d))
  if rtRun && decide (8 ≤ d) then (c.bumpSat (F.DRAM_REF_FORCED.pg p)).raise E.REF_FORCED else c

/-- A command slot of every channel: one refresh is issued in each where a bank has a debt; with no command waiting no RT run holds a bank
(R337; assumption log 85). -/
def Chip.refreshSlot (c : Chip) (p : Nat) : Chip :=
  let s := c.dramPort p
  if s.debts.isEmpty then c
  else
    let issue := fun (m : SMap Nat) (ch : Nat) =>
      match m.find? (fun x => decide (x.1 / 16 % 4 = ch)) with
      | some x => smPut 0 m x.1 (x.2 - 1)
      | none => m
    c.setDramPort p { s with debts := (List.range c.dramNc).foldl issue s.debts }

/-- The command slots of one tick of an idle block: refreshes in debt are issued, and every pending write has been (R335, R337). -/
def Chip.dramSlots (c : Chip) : Chip :=
  (c.mem.ports.map (·.1)).foldl (fun c p =>
    let c := c.refreshSlot p
    if (c.dramPort p).inOrder.isEmpty then c else c.setDramPort p { c.dramPort p with inOrder := [] }) c

/-- The multiplier code of a temperature band (R336). -/
def bandMult (tb : Nat) : Nat := if tb ≤ 2 then 2 else if tb = 3 then 3 else 4

/-- REF_MULT: the smaller of the multipliers of MR4 and of the band (R336). -/
def Chip.showMult (c : Chip) (p : Nat) : Chip :=
  let l := (c.dramPort p).mr4.map (·.2)
  c.set (F.DRAM_STATUS_REF_MULT.pg p) (l.foldl max (bandMult (c.get (F.DRAM_STATUS_TB.pg p))))

/-- MR4 of a rank-channel read: its multiplier code, and whether it reports a temperature above the operating range (R336). -/
def Chip.mr4Poll (c : Chip) (p rank chan code : Nat) (hot : Bool) : Chip :=
  let s := c.dramPort p
  let key := rank * 4 + chan
  let c := c.setDramPort p { s with mr4 := smSet s.mr4 key (min 4 code), hot := smSet s.hot key hot }
  (c.showMult p).cond E.DRAM_HOT ((List.range 4).any (fun q => (c.dramPort q).hot.any (·.2)))

/-! ### Retraining and rate steps (R341 to R345) -/

/-- A port's band changes: TB and REF_MULT show it, and the port retrains (R336, R341). -/
def Chip.portBand (c : Chip) (p tb : Nat) : Chip := ((c.set (F.DRAM_STATUS_TB.pg p) tb).showMult p).retrainStart p

/-- The channel of the next slice of a retraining: the channels take their eight slices one after the other (R341; assumption log 175). -/
def Chip.sliceChan (c : Chip) (p : Nat) : Nat := (8 * c.dramNc - c.get (F.DRAM_TRAIN_SLICES_LEFT.pg p)) / 8

/-- A slice may run: no refresh of its channel is forced, and, where scan-out gives `beat`, its start and whether a blanking line has come with
no read pending, it is the first of its beat (R341). -/
def Chip.sliceMay (c : Chip) (p : Nat) (beat : Option (Nat × Bool)) : Bool :=
  let s := c.dramPort p
  !s.debts.any (fun x => decide (8 ≤ x.2) && decide (x.1 / 16 % 4 = c.sliceChan p)) &&
    (match beat with | none => true | some (b, free) => free && decide (s.sliceBeat ≠ some b))

/-- A slice runs; the last one ends the retraining, with or without a setting found (R341, R342). -/
def Chip.retrainSlice (c : Chip) (p : Nat) (beat : Option (Nat × Bool)) (found : Bool) : Chip :=
  let f := F.DRAM_TRAIN_SLICES_LEFT.pg p
  if c.state (dramPage p) ≠ dsRetrain || !c.sliceMay p beat then c
  else
    let c := c.setDramPort p { c.dramPort p with sliceBeat := beat.map (·.1) }
    if 1 < c.get f then c.set f (c.get f - 1)
    else
      let c := (c.set f 0).bump (F.DRAM_TRAIN_RETRAINS.pg p)
      let c := c.set (F.DRAM_TRAIN_NOFIT.pg p) (b2n !found)
      let c := c.setDramState p dsRun
      let c := c.raise E.DRAM_RETRAIN
      let c := if found then c else c.raise E.DRAM_TRAIN_NOFIT
      c.retrainNext p

/-- A window of 1 s ends: CE_LAST, and a step down where NOFIT, STEP_EN and the count ask for it (R343). -/
def Chip.eccWindow (c : Chip) (p : Nat) : Chip :=
  let s := c.dramPort p
  let c := c.set (F.DRAM_ECC_RATE_CE_LAST.pg p) (min 65535 s.ceWindow)
  let st := c.state (dramPage p)
  let due := c.on (F.DRAM_TRAIN_NOFIT.pg p) && c.on (F.DRAM_RATE_CFG_STEP_EN.pg p) && decide (c.get (F.DRAM_ECC_RATE_MAX.pg p) < s.ceWindow) &&
    (st = dsRun || st = dsRetrain)
  c.setDramPort p { s with ceWindow := 0, stepDue := s.stepDue || due }

/-- A port is FAILED: one record of KIND 2, its stalled requests answered, the canvas limit recomputed (R344, R345). -/
def Chip.dramFail (c : Chip) (p : Nat) : Chip :=
  let s := c.state (dramPage p)
  if s = dsAbsent || s = dsFailed then c
  else
    let c := c.setDramPort p { c.dramPort p with stepDue := false, restoreDue := false, retrainDue := false }
    let c := c.set (F.DRAM_TRAIN_SLICES_LEFT.pg p) 0
    let c := c.report (dramPage p) [{ ue := true, kind := 2, unit := 0, syndrome := 0, loc := 0 }]
    ((c.setDramState p dsFailed).dramUnstall).showCanvasLimit

/-- At a bar boundary a due step or restore begins: the port's requests stall; a step below 6400 MT/s fails the port (R343, R344). -/
def Chip.rateStep (c : Chip) (p : Nat) : Chip :=
  let s := c.dramPort p
  let st := c.state (dramPage p)
  if !(s.stepDue || s.restoreDue) || !(st = dsRun || st = dsRetrain) then c
  else if !s.restoreDue && 3 ≤ c.get (F.DRAM_STATUS_RATE.pg p) then c.dramFail p
  else ((c.set (F.DRAM_TRAIN_SLICES_LEFT.pg p) 0).setDramPort p { s with retrainDue := false }).setDramState p dsStep

/-- A rate step ends: the grade at which the port trained, or none (R343, R344). -/
def Chip.stepDone (c : Chip) (p : Nat) (grade : Option Nat) : Chip :=
  if c.state (dramPage p) ≠ dsStep then c
  else
    let s := c.dramPort p
    let low := if s.restoreDue then c.get (F.DRAM_RATE_CFG_RATE_MAX.pg p) else c.get (F.DRAM_STATUS_RATE.pg p) + 1
    match grade with
    | none => c.dramFail p
    | some g =>
      let was := c.get (F.DRAM_STATUS_RATE.pg p)
      let new := min 3 (max low g)
      let c := c.setDramPort p { s with stepDue := false, restoreDue := false }
      let c := ((c.set (F.DRAM_STATUS_RATE.pg p) new).setDramState p dsRun).dramUnstall
      let c := c.showCanvasLimit
      (if new = was then c else c.raise E.DRAM_RATE_STEP).retrainNext p

/-- CMD.RATE_RESTORE: a port below RATE_MAX steps to it at the next bar boundary (R343). -/
def Chip.rateRestore (c : Chip) (p : Nat) : Chip :=
  if c.get (F.DRAM_STATUS_RATE.pg p) > c.get (F.DRAM_RATE_CFG_RATE_MAX.pg p) then c.setDramPort p { c.dramPort p with restoreDue := true } else c

/-- A request that stalls waits for a rank of a port. -/
def Chip.rankAwaited (c : Chip) (p rank : Nat) : Bool :=
  c.mem.stalled.any (fun r => (c.bursts r.addr r.bytes.length).any (fun a => decide ((c.dramLoc a).port = p) && decide ((c.dramLoc a).rank = rank)))

/-- A rank idle for PD_TIMER, with no request queued, enters power-down; PD_TIMER = 0 disables it (R338). -/
def Chip.powerDown (c : Chip) (p rank : Nat) : Chip :=
  if c.get F.DRAMCTL_PD_TIMER_NS = 0 || c.rankAwaited p rank then c
  else c.setDramPort p { c.dramPort p with powerDown := smSet (c.dramPort p).powerDown rank true }

/-- A channel's write DQ delays are corrected by the drift measured (R340). -/
def Chip.dqsTrack (c : Chip) (p chan : Nat) (drift : Int) : Chip :=
  c.setDramPort p { c.dramPort p with dqs := smSet (c.dramPort p).dqs chan (smGet 0 (c.dramPort p).dqs chan + drift) }

end Sys2Proof.Machine
end

