-- ==== Sys2Proof/Machine/BelfryOps.lean ====
section
/-! DEFINITION. The Belfry, the flash and its log ring, temperature sensors, bands, throttle and rail monitors (spec/14_belfry_thermal.md, the log of spec/15_update_settings.md), without what the knell does to other blocks. -/

namespace Sys2Proof.Machine

/-! ### Flash (R369, R370): an erased byte reads 0xFF -/

def Chip.setBelfry (c : Chip) (b : BelfrySt) : Chip := { c with belfry := b }

/-- Bytes of the flash. -/
def Chip.flashRead (c : Chip) (a n : Nat) : List Byte := memRead 0xFF c.belfry.flash a n

/-- Bytes programmed. -/
def Chip.flashProgram (c : Chip) (a : Nat) (bytes : List Byte) : Chip :=
  c.setBelfry { c.belfry with flash := memWrite 0xFF c.belfry.flash a bytes }

/-- An area erased. -/
def Chip.flashErase (c : Chip) (a n : Nat) : Chip :=
  c.setBelfry { c.belfry with flash := c.belfry.flash.filter (fun p => decide (p.1 < a) || decide (a + n ≤ p.1)) }

/-- The Belfry serves: an image runs, no restart is under way and no debugger holds the cores (R349, R350). -/
def Chip.belfryUp (c : Chip) : Bool := c.belfry.running && c.belfry.down.isNone && !c.on F.DEBUG_CTRL_HALTED

/-! ### Log records (R366, R367, R385) -/

def logBase : Nat := 0x02A00000
def logSlots : Nat := 524288

/-- The 32 bytes of a record (R366). -/
def LogRec.encode (r : LogRec) (seq : Nat) : List Byte :=
  let l := [BitVec.ofNat 8 r.typ, BitVec.ofNat 8 r.origin] ++ leBytes 2 r.page ++ leBytes 4 seq ++ leBytes 8 r.time ++ leBytes 4 r.bar ++
    leBytes 2 r.code ++ [0, 0] ++ leBytes 4 r.detail
  l ++ leBytes 4 (crc32 l)

/-- 32 bytes are a valid record. -/
def logValid (l : List Byte) : Bool := decide (l.headD 0xFF ≠ 0xFF) && decide (ofLe (slice l 28 4) = crc32 (l.take 28))

/-- A record joins the buffer of 1,024; one that finds it full is lost and counted (R367). -/
def Chip.logAdd (c : Chip) (r : LogRec) : Chip :=
  if c.belfry.logBuf.length < 1024 then c.setBelfry { c.belfry with logBuf := c.belfry.logBuf ++ [r] }
  else (c.bumpSat F.LOG_LOST_COUNT).raise E.LOG_LOST

/-- An event record as the log holds it (TYPE 1). -/
def EvRec.log (e : EvRec) : LogRec :=
  { typ := 1, origin := 0, page := e.page, time := e.time, bar := e.bar, code := e.num, detail := e.detail }

/-- A change record as the log holds it (TYPE 2); PAGE has ten bits (R366). -/
def ChangeRec.log (r : ChangeRec) : LogRec :=
  { typ := 2, origin := r.origin, page := r.addr / 4096 % 1024, time := r.time, bar := r.bar, code := r.addr % 4096, detail := r.value }

/-- A record of the Belfry's own, at the present instant. -/
def Chip.logNow (c : Chip) (typ page code detail : Nat) : Chip :=
  c.logAdd { typ := typ, origin := 0, page := page, time := c.time64, bar := c.barCount, code := code, detail := detail }

/-- An update or settings record (TYPE 5, R385). -/
def Chip.logUpd (c : Chip) (code detail : Nat) : Chip := c.logNow 5 (if code ≤ 6 then 0x0F0 else 0x0F1) code detail

/-- One record of each queue passes to the log buffer (R53, R324, R367). -/
def Chip.logTake (c : Chip) : Chip :=
  let c := match c.evqExtra, c.evq with
    | some r, [] => { c with evqExtra := none }.logAdd r.log
    | _, r :: t => { c with evq := t }.logAdd r.log
    | none, [] => c
  match c.changeQ with
  | r :: t => { c with changeQ := t }.logAdd r.log
  | [] => c

/-- Both queues pass to the log buffer. -/
def Chip.logDrain (c : Chip) : Chip := (List.range 65).foldl (fun c _ => c.logTake) c

/-- The bytes of a position of the ring. -/
def Chip.logAt (c : Chip) (pos : Nat) : List Byte := c.flashRead (logBase + 32 * (pos % logSlots)) 32

/-- SEQ of the oldest record in the ring: the first of the sector after the erased one, or of the first written (R385). -/
def Chip.logOldest (c : Chip) : Nat :=
  let sector := (c.belfry.logPos + logSlots - 1) % logSlots / 2048
  match (List.range 256).find? (fun k => logValid (c.logAt ((sector + 1 + k) % 256 * 2048))) with
  | some k => ofLe (slice (c.logAt ((sector + 1 + k) % 256 * 2048)) 4 4)
  | none => 0

/-- One record programmed at the next position; entering a sector, the one after it is erased (R385). -/
def Chip.logProgram (c : Chip) (r : LogRec) : Chip :=
  let pos := c.belfry.logPos
  let seq := c.belfry.logSeq
  let c := if pos % 2048 = 0 then c.flashErase (logBase + (pos / 2048 + 1) % 256 * 65536) 65536 else c
  let c := c.flashProgram (logBase + 32 * pos) (r.encode seq)
  let c := c.setBelfry { c.belfry with logPos := (pos + 1) % logSlots, logSeq := (seq + 1) % 2 ^ 32 }
  c.set F.LOG_NEWEST_SEQ_SEQ seq

/-- The gathered records are programmed (R367). -/
def Chip.logFlush (c : Chip) : Chip :=
  let c := c.logDrain
  let l := c.belfry.logBuf
  let c := c.setBelfry { c.belfry with logBuf := [] }
  let c := l.foldl Chip.logProgram c
  if l.isEmpty then c else c.set F.LOG_OLDEST_SEQ_SEQ c.logOldest

/-- a is a later sequence number than b (R371). -/
def seqLater (a b : Nat) : Bool := decide (a ≠ b) && decide ((a + 2 ^ 32 - b) % 2 ^ 32 < 2 ^ 31)

/-- At a start the log resumes after the valid record with the latest SEQ (R385). -/
def Chip.logResume (c : Chip) : Chip :=
  let heads := c.belfry.flash.filter (fun p => decide (logBase ≤ p.1) && decide (p.1 < logBase + 32 * logSlots) && (p.1 - logBase) % 32 = 0)
  let best := heads.foldl (fun (b : Option (Nat × Nat)) p =>
    let pos := (p.1 - logBase) / 32
    let l := c.logAt pos
    if logValid l then
      let s := ofLe (slice l 4 4)
      match b with
      | none => some (pos, s)
      | some (bp, bs) => if seqLater s bs then some (pos, s) else some (bp, bs)
    else b) none
  match best with
  | none => c.setBelfry { c.belfry with logPos := 0, logSeq := 0 }
  | some (pos, s) =>
    let c := c.setBelfry { c.belfry with logPos := (pos + 1) % logSlots, logSeq := (s + 1) % 2 ^ 32 }
    (c.set F.LOG_NEWEST_SEQ_SEQ s).set F.LOG_OLDEST_SEQ_SEQ c.logOldest

/-- A write of READ_SEQ starts a fetch (LOG.READ_SEQ). -/
def Chip.logRead (c : Chip) (w : Word) : Chip :=
  ((c.wr F.LOG_READ_SEQ_SEQ.addr w).set F.LOG_READ_STATUS_READY 0).set F.LOG_READ_STATUS_FOUND 0

/-- The fetch ends: READ_DATA holds the record, where it is present and valid. -/
def Chip.logReadDone (c : Chip) : Chip :=
  let s := c.get F.LOG_READ_SEQ_SEQ
  let back := (c.belfry.logSeq + 2 ^ 32 - s) % 2 ^ 32
  let l := c.logAt ((c.belfry.logPos + logSlots - back % logSlots) % logSlots)
  let found := decide (1 ≤ back) && decide (back ≤ logSlots) && logValid l && decide (ofLe (slice l 4 4) = s)
  let c := (List.range 8).foldl (fun c k =>
    c.set (F.LOG_READ_DATA.plus (4 * k)) (if found then ofLe (slice l (4 * k) 4) else 0)) c
  (c.set F.LOG_READ_STATUS_FOUND (b2n found)).set F.LOG_READ_STATUS_READY 1

/-! ### Knell slot (R363) -/

def knellBase : Nat := 0x03A00000

/-- Erased positions of the knell slot. -/
def Chip.knellFree (c : Chip) : List Nat := (List.range 128).filter (fun i => (c.flashRead (knellBase + 32 * i) 32).all (· = 0xFF))

/-- THERMAL.KNELL_SLOT. -/
def Chip.showKnellSlot (c : Chip) : Chip :=
  let n := c.knellFree.length
  (c.set F.THERMAL_KNELL_SLOT_FREE n).set F.THERMAL_KNELL_SLOT_READY (b2n (decide (n > 0)))

/-- The knell record goes into the lowest erased position; where none is erased none is written (R363). -/
def Chip.knellWrite (c : Chip) (outcome : Nat) : Chip :=
  match c.aon.knell, c.knellFree with
  | some k, i :: _ =>
    let r : LogRec := {
      typ := 3, origin := 0, page := 0x010, time := k.time, bar := k.bar, code := b2n k.subst * 32768 + k.sensor % 32,
      detail := unsign 16 k.value * 65536 + outcome % 4 * 256 + k.levels % 64 * 4 }
    c.flashProgram (knellBase + 32 * i) (r.encode 0)
  | _, _ => c

/-- At a start the records of the slot are copied into the log with new SEQs, KNELL_PRIOR is raised, and the slot is erased once the copies
are programmed (R363). -/
def Chip.knellPrior (c : Chip) : Chip :=
  let l := ((List.range 128).map (fun i => c.flashRead (knellBase + 32 * i) 32)).filter logValid
  let c := if l.isEmpty then c
    else
      let c := l.foldl (fun c b => c.logAdd {
        typ := 3, origin := 0, page := ofLe (slice b 2 2), time := ofLe (slice b 8 8), bar := ofLe (slice b 16 4), code := ofLe (slice b 20 2),
        detail := ofLe (slice b 24 4) }) c
      ((c.raise E.KNELL_PRIOR).logFlush).flashErase knellBase 4096
  c.showKnellSlot

/-! ### Belfry restart, watchdog, debug (R346 to R350, R368) -/

/-- DEBUG.CTRL.UNLOCK with its condition (R368). -/
def Chip.setUnlock (c : Chip) (b : Bool) : Chip := (c.set F.DEBUG_CTRL_UNLOCK (b2n b)).cond E.DEBUG_UNLOCKED b

/-- DEBUG.CTRL.HALTED with its condition. -/
def Chip.setHalted (c : Chip) (b : Bool) : Chip := (c.set F.DEBUG_CTRL_HALTED (b2n b)).cond E.DEBUG_HALT b

/-- The Belfry SRAM is refilled with zeros (R316, R350). -/
def Chip.belfryFill (c : Chip) : Chip := { c with mem := { c.mem with belfry := [], belfrySyn := [] } }

/-- Seconds since the running image started, by the clock of TIME (assumption log 31). -/
def Chip.uptime (c : Chip) : Nat := min (2 ^ 32 - 1) ((c.time.ticks28 - c.belfry.upFrom) / (2 ^ 28 * 1000000000))

/-- The watchdog stops counting (R349). -/
def Chip.dogHeld (c : Chip) : Bool := c.on F.DEBUG_CTRL_UNLOCK && c.on F.DEBUG_CTRL_WDOG_HOLD && c.on F.DEBUG_CTRL_HALTED

/-! ### Temperature sensors (R352 to R355) -/

/-- Sensors present in the build. -/
def Chip.sensors (c : Chip) : List Nat := List.range (match c.build with | .S => 12 | .T => 20)

def Chip.sensor (c : Chip) (n : Nat) : SensorSt := smGet SensorSt.init c.therm.sensors n
def Chip.setSensor (c : Chip) (n : Nat) (s : SensorSt) : Chip := { c with therm := { c.therm with sensors := smSet c.therm.sensors n s } }

def ssValid : Nat := 1
def ssRange : Nat := 2
def ssRate : Nat := 3
def ssStuck : Nat := 4
def ssMasked : Nat := 5
def ssRecovering : Nat := 6

def Chip.sensorState (c : Chip) (n : Nat) : Nat := c.get (F.THERMAL_SCFG_STATE.plus (4 * n))
def Chip.setSensorState (c : Chip) (n st : Nat) : Chip := c.set (F.THERMAL_SCFG_STATE.plus (4 * n)) st
def Chip.sensorValid (c : Chip) (n : Nat) : Bool := c.sensorState n = ssValid

/-- The last raw sample of a sensor. -/
def Chip.sensorRaw (c : Chip) (n : Nat) : Int := signed 16 (c.get (F.THERMAL_SENSOR_RAW.plus (4 * n)))

/-- The value in use of a sensor. -/
def Chip.sensorUse (c : Chip) (n : Nat) : Int := signed 16 (c.get (F.THERMAL_SENSOR_USE.plus (4 * n)))

/-- A sample fails by its range, or by its step from the previous raw sample (R353). -/
def sampleFault (prev : Option Int) (raw : Int) : Option Nat :=
  if raw < -880 ∨ raw > 2400 then some ssRange
  else match prev with
    | some p => if (raw - p).natAbs > 160 then some ssRate else none
    | none => none

/-- Another sensor was VALID at each of the last 1,000 samples and moved by 0.5 °C or more over them (R353). -/
def moved (h : List (Option Int)) : Bool :=
  let v := h.filterMap id
  decide (1000 ≤ v.length) && decide (h.length = v.length) &&
    decide (8 ≤ (v.foldl max (v.headD 0)) - (v.foldl min (v.headD 0)))

/-- A new sample enters a sensor's record: raw code, its run of equal codes, and the reading where the sensor is VALID and passes the range
and rate tests. -/
def Chip.sampleNote (c : Chip) (n : Nat) (raw : Int) : Chip :=
  let s := c.sensor n
  let ok := c.sensorValid n && (sampleFault s.raw raw).isNone
  c.setSensor n { s with
    same := if s.raw = some raw then s.same + 1 else 1, raw := some raw,
    hist := ((if ok then some raw else none) :: s.hist).take 1000 }

/-- A sample's failure, if any: range, rate, then stuck (R353). -/
def Chip.sampleTest (c : Chip) (n : Nat) (prev : Option Int) (raw : Int) : Option Nat :=
  match sampleFault prev raw with
  | some f => some f
  | none =>
    if (c.sensor n).same ≥ 1000 && c.sensors.any (fun m => decide (m ≠ n) && moved (c.sensor m).hist) then some ssStuck else none

/-- A tested sample changes a sensor's state (R353, R354). -/
def Chip.sampleJudge (c : Chip) (n : Nat) (prev : Option Int) (raw : Int) : Chip :=
  let st := c.sensorState n
  if st = ssMasked then c
  else match c.sampleTest n prev raw with
    | some f =>
      let c := (c.setSensorState n f).setSensor n { c.sensor n with good := 0, hist := none :: (c.sensor n).hist.drop 1 }
      if st = ssValid then c.raise E.SENSOR_FAIL else c
    | none =>
      if st = ssValid then c
      else
        let g := (c.sensor n).good + 1
        let c := c.setSensor n { c.sensor n with good := g }
        if g ≥ 1000 then (c.setSensorState n ssValid).raise E.SENSOR_RESTORED else c.setSensorState n ssRecovering

/-- The substitute of a failed sensor: the hottest valid sensor of the build plus its OFFSET; 150 °C with none valid (R354). -/
def Chip.substitute (c : Chip) (n : Nat) : Int :=
  match c.sensors.filter c.sensorValid with
  | [] => 2400
  | m :: t => (t.foldl (fun a k => max a (c.sensorRaw k)) (c.sensorRaw m)) + 16 * (c.get (F.THERMAL_SCFG_OFFSET.plus (4 * n)) : Int)

/-- The values in use of all sensors (R354). -/
def Chip.showUse (c : Chip) : Chip :=
  let vals := c.sensors.map (fun n => (n, if c.sensorValid n then c.sensorRaw n else c.substitute n))
  vals.foldl (fun c p => c.set (F.THERMAL_SENSOR_USE.plus (4 * p.1)) (unsign 16 p.2)) c

/-- The hottest of a list of sensors, the lowest number where equal. -/
def Chip.hottest (c : Chip) (l : List Nat) : Nat × Int :=
  match l with
  | [] => (0, 0)
  | n :: t => t.foldl (fun a m => if a.2 < c.sensorUse m then (m, c.sensorUse m) else a) (n, c.sensorUse n)

/-! ### Temperature bands (R356) -/

/-- Lower bounds of TB0 to TB4 in 1/16 °C. -/
def bandFloor (b : Nat) : Int := [-100000, 0, 640, 1120, 1520].getD b 0

/-- The band that a temperature reaches. -/
def bandReached (t : Int) : Nat := ([1, 2, 3, 4].filter (fun b => decide (bandFloor b ≤ t))).length

/-- The next band of a consumer: up at once, down one at a time below its lower bound minus 2 °C (R356). -/
def bandNext (b : Nat) (t : Int) : Nat :=
  if b < bandReached t then bandReached t else if 0 < b ∧ t < bandFloor b - 32 then b - 1 else b

/-- The band state of a consumer: 0 to 3 DRAM ports, 4 to 7 drive bands, 8 the device; TB1 at reset. -/
def Chip.tband (c : Chip) (k : Nat) : Nat := smGet 1 c.therm.bands k
def Chip.setTband (c : Chip) (k b : Nat) : Chip := { c with therm := { c.therm with bands := smSet c.therm.bands k b } }

/-- Temperature T of a drive band, and whether it is a substitute: the mean of its valid sensors, or the larger substitute (R231, R354). -/
def Chip.bandTemp (c : Chip) (n : Nat) : Int × Bool :=
  let a := 12 + 2 * n
  match c.sensorValid a, c.sensorValid (a + 1) with
  | true, true => ((c.sensorUse a + c.sensorUse (a + 1)) / 2, false)
  | true, false => (c.sensorUse a, false)
  | false, true => (c.sensorUse (a + 1), false)
  | false, false => (max (c.sensorUse a) (c.sensorUse (a + 1)), true)

/-- A DRAM port's band follows its sensor; a change starts its retraining (R341, R356). -/
def Chip.dramBand (c : Chip) (p : Nat) : Chip :=
  let b := bandNext (c.tband p) (c.sensorUse (6 + p))
  if b = c.tband p then c else (c.setTband p b).portBand p b

/-- TJ_WARN: the hottest value is at or above T_WARN (R355). -/
def Chip.judgeWarn (c : Chip) : Chip :=
  c.cond E.TJ_WARN (decide (16 * signed 8 (c.get F.THERMAL_THROTTLE_CFG_T_WARN) ≤ signed 16 (c.get F.THERMAL_HOT_TJ)))

/-- What the values in use show: failed sensors, the hottest value, bands and their events (R353 to R356). -/
def Chip.thermalShow (c : Chip) : Chip :=
  let c := c.showUse
  let failed := c.sensors.filter (fun n => !c.sensorValid n)
  let c := (c.set F.THERMAL_FAIL_COUNT failed.length).set F.THERMAL_FAIL_FAILED ((failed.map (fun n => 2 ^ n)).sum)
  let c := (c.cond E.SENSOR_SUBST (!failed.isEmpty)).cond E.SENSOR_MANY (decide (failed.length > 4))
  let h := c.hottest c.sensors
  let c := (c.set F.THERMAL_HOT_TJ (unsign 16 h.2)).set F.THERMAL_HOT_SENSOR h.1
  let c := c.set F.THERMAL_HOT_SUBST (b2n (!c.sensorValid h.1))
  let c := c.judgeWarn
  let b := bandNext (c.tband 8) h.2
  let c := if b = c.tband 8 then c else ((c.setTband 8 b).set F.THERMAL_HOT_TB b).raise E.TB_CHANGE
  let c := [0, 1, 2, 3].foldl (fun c p => c.dramBand p) c
  match c.build with
  | .S => c
  | .T => [0, 1, 2, 3].foldl (fun c n => c.setTband (4 + n) (bandNext (c.tband (4 + n)) (c.bandTemp n).1)) c

/-- The 1 ms samples of every sensor, raw in 1/16 °C: validated, substituted, shown (R352 to R356). -/
def Chip.sensorSample (c : Chip) (raws : List Int) : Chip :=
  let l := c.sensors.map (fun n => (n, (c.sensor n).raw, raws.getD n 0))
  let c := l.foldl (fun c x => (c.sampleNote x.1 x.2.2).set (F.THERMAL_SENSOR_RAW.plus (4 * x.1)) (unsign 16 x.2.2)) c
  let c := l.foldl (fun c x => c.sampleJudge x.1 x.2.1 x.2.2) c
  c.thermalShow

/-- Samples that reach 125 °C at a valid sensor, judged by their range and step as every sample is (R353, R361). -/
def Chip.reaches125 (c : Chip) (raws : List Int) : Bool :=
  c.sensors.any (fun n => c.sensorValid n && (sampleFault (c.sensor n).raw (raws.getD n 0)).isNone && decide (2000 ≤ raws.getD n 0))

/-- The first sensor whose value in use is at or above 115 °C (R360). -/
def Chip.knellSensor (c : Chip) : Option Nat := c.sensors.find? (fun n => decide (1840 ≤ c.sensorUse n))

/-- THERMAL.MASK written: bits set fail their sensors as MASKED, bits cleared start recovery (R353, R354). -/
def Chip.maskWrite (c : Chip) (mask : Nat) : Chip :=
  let c := c.set F.THERMAL_MASK_MASK mask
  let c := c.sensors.foldl (fun c n =>
    let m := mask / 2 ^ n % 2 = 1
    let st := c.sensorState n
    if m && decide (st ≠ ssMasked) then
      let c := (c.setSensorState n ssMasked).setSensor n { c.sensor n with good := 0 }
      if st = ssValid then c.raise E.SENSOR_FAIL else c
    else if !m && decide (st = ssMasked) then (c.setSensorState n ssRecovering).setSensor n { c.sensor n with good := 0 }
    else c) c
  c.thermalShow

/-! ### Throttle (R357) -/

/-- The sensors of a controller: 0 DIG, 1 D0, 2 D1. -/
def ctrlSensors (k : Nat) : List Nat := match k with | 0 => List.range 12 | 1 => [12, 13, 14, 15] | _ => [16, 17, 18, 19]

def levelFld (k : Nat) : Fld := match k with | 0 => F.THERMAL_THROTTLE_DIG | 1 => F.THERMAL_THROTTLE_D0 | _ => F.THERMAL_THROTTLE_D1

/-- The next level of a controller, its timers already advanced (R357). -/
def throttleNext (tc tth hyst : Int) (own many : Bool) (level held below floor : Nat) : Nat :=
  let below := if decide (tth - hyst ≤ tc) || own then 0 else below
  let new := if many then 3
    else if decide (tth ≤ tc) && decide (level < 3) && (decide (level = 0) || decide (50 ≤ held)) then level + 1
    else if decide (0 < level) && decide (1000 ≤ below) then level - 1
    else level
  max new floor

/-- One controller's evaluation. -/
def Chip.throttleOne (c : Chip) (k : Nat) : Chip :=
  let l := ctrlSensors k
  let tc := (c.hottest l).2
  let tth : Int := 16 * (max 90 (min 105 (c.get F.THERMAL_THROTTLE_CFG_T_THROTTLE)) : Nat)
  let hyst : Int := 16 * (max 1 (c.get F.THERMAL_THROTTLE_CFG_HYST) : Nat)
  let own := l.any (fun n => !c.sensorValid n)
  let held := smGet 0 c.therm.held k + 10
  let below := if decide (tth - hyst ≤ tc) || own then 0 else smGet 0 c.therm.below k + 10
  let level := c.get (levelFld k)
  let new := throttleNext tc tth hyst own (decide (c.get F.THERMAL_FAIL_COUNT > 4)) level held below (c.get F.THERMAL_THROTTLE_FLOOR)
  let t := if new = level then (held, below) else (0, 0)
  let c := { c with therm := { c.therm with held := smSet c.therm.held k t.1, below := smSet c.therm.below k t.2 } }
  c.set (levelFld k) new

/-- The 10 ms evaluation of the controllers of the build (R357). -/
def Chip.throttle (c : Chip) : Chip :=
  let ks := match c.build with | .S => [0] | .T => [0, 1, 2]
  let c := ks.foldl Chip.throttleOne c
  let lv := ks.map (fun k => c.get (levelFld k))
  (c.cond E.THROTTLE (lv.any (fun x => decide (0 < x)))).cond E.THROTTLE_MAX (lv.any (fun x => decide (x = 3)))

/-! ### Rail monitors (R364) -/

/-- One sample of one rail in mV: the third in a row outside a threshold flags it. -/
def Chip.railSample (c : Chip) (m mv : Nat) : Chip :=
  let c := c.set (F.THERMAL_VMON_MV.plus (4 * m)) mv
  let lo := if mv < c.get (F.THERMAL_VTHR_LOW.plus (4 * m)) then smGet 0 c.therm.lowRun m + 1 else 0
  let hi := if c.get (F.THERMAL_VTHR_HIGH.plus (4 * m)) < mv then smGet 0 c.therm.highRun m + 1 else 0
  let wasLo := c.on (F.THERMAL_VMON_LOW.plus (4 * m))
  let wasHi := c.on (F.THERMAL_VMON_HIGH.plus (4 * m))
  let c := { c with therm := { c.therm with lowRun := smPut 0 c.therm.lowRun m lo, highRun := smPut 0 c.therm.highRun m hi } }
  let c := (c.set (F.THERMAL_VMON_LOW.plus (4 * m)) (b2n (decide (3 ≤ lo)))).set (F.THERMAL_VMON_HIGH.plus (4 * m)) (b2n (decide (3 ≤ hi)))
  let c := if 3 ≤ lo && !wasLo then
      (c.set F.THERMAL_VMON_FLAGS_LOW_SEEN (Nat.lor (c.get F.THERMAL_VMON_FLAGS_LOW_SEEN) (2 ^ m))).raise E.VOLT_LOW
    else c
  if 3 ≤ hi && !wasHi then
    (c.set F.THERMAL_VMON_FLAGS_HIGH_SEEN (Nat.lor (c.get F.THERMAL_VMON_FLAGS_HIGH_SEEN) (2 ^ m))).raise E.VOLT_HIGH
  else c

/-- The 100 µs samples of the sixteen rails. -/
def Chip.voltageSample (c : Chip) (mvs : List Nat) : Chip := (List.range 16).foldl (fun c m => c.railSample m (mvs.getD m 0)) c

end Sys2Proof.Machine
end

