-- ==== Sys2Proof/Machine/Block.lean ====
section
/-! DEFINITION. The line of the Susyn Chain: 64b/66b blocks, the PRBS-31 scrambler, the nine blocks of a cell, lane maps, training blocks and the test patterns (R189 to R194, R215, R223, R224). -/

namespace Sys2Proof.Machine

/-! ### Sync headers (R189) -/

/-- The sync header of a data block. -/
def syncData : Nat := 1

/-- The sync header of a control block. -/
def syncControl : Nat := 2

/-- The type of a training block. -/
def typeTraining : Nat := 0x1E

/-- A sync header is valid: a data block, or a control block of one of the two types; `raw` is the payload as it came and `plain` the
descrambled one, where the lane's descrambler runs. A lane that no marker has seeded yet tells no training block apart (R189; assumption log 137). -/
def syncValid (sync raw : Nat) (plain : Option Nat) : Bool :=
  sync = syncData || (sync = syncControl && (raw % 256 = 0xD2 || (match plain with | some x => decide (x % 256 = typeTraining) | none => true)))

/-! ### The scrambler (R190) -/

/-- The bit that the PRBS-31 generator gives in a state. -/
def prbsOut (s : Nat) : Nat := (s / 2 ^ 30 + s / 2 ^ 27) % 2

/-- The state of the generator after one bit. -/
def prbsNext (s : Nat) : Nat := s * 2 % 2 ^ 31 + prbsOut s

/-- The next `n` bits of the generator, the first in bit 0. -/
def keystream : Nat → Nat → Nat
  | 0, _ => 0
  | n + 1, s => prbsOut s + 2 * keystream n (prbsNext s)

/-- The state of the generator after `n` bits. -/
def prbsAfter : Nat → Nat → Nat
  | 0, s => s
  | n + 1, s => prbsAfter n (prbsNext s)

/-- A payload scrambled, or descrambled, from a state of the lane's generator. -/
def scrambleBits (s payload : Nat) : Nat := Nat.xor payload (keystream 64 s)

/-- The seed of a lane's generator at the first block after a marker. -/
def laneSeed (lane cnt : Nat) : Nat := lane % 4 * 2 ^ 29 + 0x1A5A * 2 ^ 16 + cnt % 2 ^ 16

/-! ### Cells and lanes (R191, R194) -/

/-- The tail field of a word: check bits, word index, cell sequence. -/
def tailOf (w : RawWord) : Nat := w.check.toNat + w.index % 4 * 2 ^ 9 + w.cseq % 32 * 2 ^ 11

/-- The payloads of the nine blocks of a cell. -/
def cellBlocks (r : RawCell) : List Nat :=
  let half := fun (w : RawWord) => ([w.data.toNat % 2 ^ 64, w.data.toNat / 2 ^ 64] : List Nat)
  half r.w0 ++ half r.w1 ++ half r.w2 ++ half r.w3 ++
    [tailOf r.w0 + tailOf r.w1 * 2 ^ 16 + tailOf r.w2 * 2 ^ 32 + tailOf r.w3 * 2 ^ 48]

/-- Word w of the cell that nine payloads carry. -/
def joinWord (l : List Nat) (w : Nat) : RawWord :=
  let t := l.getD 8 0 / 2 ^ (16 * w)
  { data := BitVec.ofNat 128 (l.getD (2 * w) 0 % 2 ^ 64 + l.getD (2 * w + 1) 0 * 2 ^ 64), check := BitVec.ofNat 9 t,
    index := nbits t 10 9, cseq := nbits t 15 11 }

/-- The cell that nine payloads carry. -/
def joinBlocks (l : List Nat) : RawCell := { w0 := joinWord l 0, w1 := joinWord l 1, w2 := joinWord l 2, w3 := joinWord l 3 }

/-- A lane map in which one lane carries the whole stream; 3 and 7 act as 0. -/
def mapReduced (map : Nat) : Bool := map = 4 || map = 5 || map = 6

/-- Data blocks of a stream between two markers. -/
def mapPeriod (map : Nat) : Nat := if mapReduced map then 16383 else 32766

/-- A data block of a lane, before scrambling. -/
def dataBlock (lane payload : Nat) : LineBlock := { lane := lane, sync := syncData, payload := payload }

/-- The blocks, before scrambling, that block `pos` of a stream sends: on the lane that carries it; on SP once in each block time, a
copy or an idle block; at reduced rate idle blocks beside it. -/
def laneBlocks (map pos payload : Nat) : List LineBlock :=
  if mapReduced map then [0, 1, 2].map (fun l => dataBlock l (if l = map - 4 then payload else 0))
  else
    let l := pos % 2
    if (map = 1 && l = 0) || (map = 2 && l = 1) then [dataBlock l payload, dataBlock 2 payload]
    else if l = 0 && map ≠ 2 then [dataBlock l payload, dataBlock 2 0]
    else [dataBlock l payload]

/-- A training block before scrambling (R215). -/
def trainingPayload (lane : Nat) (ready : Bool) : Nat :=
  let v := typeTraining + b2n ready * 2 ^ 8 + lane % 4 * 2 ^ 9
  v + crc8 56 v 0 * 2 ^ 56

/-- Sixteen blocks of the training stream of a lane: the training block, then idle blocks (R215; assumption log 139). -/
def trainingBlocks (lane : Nat) (ready : Bool) : List LineBlock :=
  { lane := lane, sync := syncControl, payload := trainingPayload lane ready } :: List.replicate 15 (dataBlock lane 0)

/-! ### Test patterns (R223) -/

/-- The two taps of a PRBS pattern, by code of PATTERN. R223 gives no polynomials: those of ITU-T O.150, PRBS31 as R190 has it (PRESUMED,
assumption log 138). -/
def patternTaps (pattern : Nat) : Option (Nat × Nat) :=
  match pattern with
  | 1 => some (7, 6)
  | 2 => some (15, 14)
  | 3 => some (23, 18)
  | 4 => some (31, 28)
  | _ => none

/-- The bit that follows the last 64 bits of a pattern, the newest in bit 0. -/
def patternNext (pattern hist : Nat) : Nat :=
  match patternTaps pattern with
  | some (a, b) => (hist / 2 ^ (a - 1) + hist / 2 ^ (b - 1)) % 2
  | none => hist / 2 ^ 63 % 2

/-- Bits that a checker must have received before it can predict one. -/
def patternDepth (pattern : Nat) : Nat := match patternTaps pattern with | some (a, _) => a | none => 64

/-- The last 64 bits of the USER pattern, bit 0 sent first, when the bit before was bit `k` of it. -/
def userHist (user k : Nat) : Nat := ((List.range 64).map (fun i => (user / 2 ^ ((k + 64 - i) % 64) % 2) * 2 ^ i)).sum

/-- The last 64 bits are the USER pattern from some place on. -/
def isUser (user hist : Nat) : Bool := (List.range 64).any (fun k => decide (hist = userHist user k))

end Sys2Proof.Machine
end

