-- ==== Sys2Proof/Machine/TimeOps.lean ====
section
/-! DEFINITION. Time, the mode table, the bar generator and its lattice, timestamps and the launch queue (spec/04_bars_and_time.md), without what other chapters do at a bar or beat start. -/

namespace Sys2Proof.Machine

/-! ### The standard mode table (R85) -/

/-- Bar periods of modes 0 to 23 in 1/12 ns. -/
def barPeriods12 : List Nat :=
  [500500000, 500000000, 480000000, 400400000, 400000000, 250250000, 250000000, 240000000, 200200000, 200000000, 120000000, 100100000,
   100000000, 240000000, 200200000, 200000000, 120000000, 100100000, 100000000, 240000000, 200200000, 200000000, 500500000, 480000000]

/-- Bar period of a mode in 1/12 ns; a reserved index has an open period (R86). -/
def period12 (m : Nat) : Nat := if m < 24 then barPeriods12.getD m 0 else Config.reservedPeriod12 m

/-- Beats of a mode (R12, R85). -/
def modeBeats (m : Nat) : Nat :=
  if m ≤ 12 then 1 else if m ≤ 18 then 2 else if m ≤ 23 then 4 else Config.reservedBeats m

/-- Nominal beat period of a mode in 1/12 ns, the remainder left to the last beat (R13). -/
def beatPeriod12 (m : Nat) : Nat := period12 m / max 1 (modeBeats m)

/-- The mode in use. -/
def Chip.mode (c : Chip) : Nat := c.get F.BAR_MODE_MODE_IN_USE

/-- The lengths of the beats of a bar of a given length: equal and truncated, the last takes the remainder (R13, R91). -/
def beatLengths (len beats : Nat) : List Nat :=
  (List.replicate (beats - 1) (len / beats)) ++ [len - (beats - 1) * (len / beats)]

/-- The catch-up limit of R91 and R92, truncated. -/
def catchLim (p : Nat) : Nat := p / 1024

/-- The phase error of an actual start against the lattice, reduced into (−P/2, +P/2] (R91). -/
def phaseError (start12 lattice12 : Int) (p : Nat) : Int :=
  let r := (start12 - lattice12) % (p : Int)
  if r > (p : Int) / 2 then r - p else r

/-- A phase error limited to ±lim. -/
def clampErr (e : Int) (lim : Nat) : Int := max (-(lim : Int)) (min (lim : Int) e)

/-- The length of the bar now starting: late shortens it, early lengthens it (R91). -/
def barLength (p : Nat) (e : Int) : Nat := ((p : Int) - clampErr e (catchLim p)).toNat

/-! ### Instants -/

/-- An instant of bar time, in extended TIME_NS, both in 1/12 ns. -/
def Chip.ext12 (c : Chip) (bar12 : Nat) : Int := (bar12 : Int) + 12 * c.time.stepNs

/-- The present instant in extended TIME_NS, in 1/12 ns, rounded down. -/
def Chip.now12 (c : Chip) : Int := c.ext28 * 12 / 2 ^ 28

/-- An instant of extended TIME_NS in 1/12 ns, in bar time. -/
def Chip.bar12 (c : Chip) (e12 : Int) : Nat := (e12 - 12 * c.time.stepNs).toNat

/-- The first point of a lattice at or after an instant (R88). -/
def firstPoint (lattice12 at12 : Int) (p : Nat) : Int := at12 + (lattice12 - at12) % (p : Int)

/-- BAR.ANCHOR as an instant of extended TIME_NS, in 1/12 ns: the one nearest to the present with those low 32 bits. -/
def Chip.anchor12 (c : Chip) (anchor : Nat) : Int :=
  let now := c.ext28 / 2 ^ 28
  12 * (now + signed 32 (unsign 32 ((anchor : Int) - now)))

/-- Half a millisecond in 1/12 ns (R88). -/
def halfMs12 : Int := 6000000

/-! ### Stack position and source (R107, R108) -/

/-- STACK_POS (DEVICE.STRAPS). -/
def Chip.stackPos (c : Chip) : Nat := c.get F.DEVICE_STRAPS_STACK_POS

/-- The unit is the stack master. -/
def Chip.isMaster (c : Chip) : Bool := c.stackPos = 0

/-- The source that FALLBACK names; 3 acts as 0. DESIGN CHOICE (assumption log 109): where it names REF_IN and REF_IN is itself lost, free run. -/
def Chip.fallback (c : Chip) : Nat := match c.bar.fall with | 1 => 1 | 2 => if c.bar.refLost then 0 else 2 | _ => 0

/-- A standby at STACK_POS 0 that hears BEAT frames follows its peer (R286): START, SYNCING, STANDBY or RELEASED. -/
def Chip.pairFollower (c : Chip) : Bool :=
  c.build = .S && c.isMaster && c.en 0x0C0 && c.redun.beats && (let s := c.state 0x0C0; s = 1 || s = 2 || s = 3 || s = 6)

/-- The generator copies another unit's downbeats: a stack follower, or a standby of the master pair (R107, R286). -/
def Chip.follower (c : Chip) : Bool := (decide (c.bar.sel = 3) && !c.isMaster) || c.pairFollower

/-- SRC and FALLBACK are taken into effect: at a bar start or a lattice entry (R88). -/
def Chip.takeSrc (c : Chip) : Chip := { c with bar := { c.bar with sel := c.get F.BAR_SRC_SRC, fall := c.get F.BAR_SRC_FALLBACK } }

/-- SRC names another source than the stack link: a follower leaves its master at the next bar start (R88). -/
def Chip.leavesMaster (c : Chip) : Bool := !c.pairFollower && decide (c.get F.BAR_SRC_SRC ≠ 3)

/-- The source that acts from a bar start on: SRC, free run for SRC 3 at the master, FALLBACK after a loss of REF_IN or of the stack link
(R88, R90, R108, R109). -/
def Chip.wantedSrc (c : Chip) : Nat :=
  if c.pairFollower then (if c.bar.masterMiss ≥ 3 then c.fallback else 3)
  else match c.bar.sel with
  | 3 => if c.isMaster then 0 else if c.bar.masterMiss ≥ 3 then c.fallback else 3
  | 2 => if c.bar.refLost then c.fallback else 2
  | s => s

/-- REF_IN is selected, or in use as the fallback of a lost stack link (R88, R90, R109). -/
def Chip.refUsed (c : Chip) : Bool := c.bar.sel = 2 || c.bar.src = 2 || (c.bar.sel = 3 && c.bar.fall = 2 && decide (c.bar.masterMiss ≥ 3))

/-- SRC = 3 at the master raises STACK_MISMATCH (R108). -/
def Chip.masterMismatch (c : Chip) : Chip :=
  if c.get F.BAR_SRC_SRC = 3 && c.isMaster then c.raise E.STACK_MISMATCH else c

/-- STATUS.LOCK, with its event (R92). -/
def Chip.setBarLock (c : Chip) (b : Bool) : Chip := (c.set F.BAR_STATUS_LOCK (b2n b)).cond E.BAR_LOCK b

/-- LOCK as R92 defines it: |e| at most 100 ns and the source in use is SRC; cleared by a loss of REF_IN, and at a follower of the stack link
(R90, R109). -/
def Chip.barLocked (c : Chip) : Bool :=
  c.bar.running && c.bar.near && decide (c.bar.src = c.get F.BAR_SRC_SRC) && !(c.bar.refLost && c.refUsed) &&
    (!c.follower || decide (c.bar.masterMiss < 3))

/-- STATUS.LOCK follows (R92). -/
def Chip.showBarLock (c : Chip) : Chip := c.setBarLock c.barLocked

/-- STATUS.SLEWING, with its event (R92). -/
def Chip.setSlewing (c : Chip) (b : Bool) : Chip := (c.set F.BAR_STATUS_SLEWING (b2n b)).cond E.BAR_SLEW b

/-! ### The generator (R87, R88, R91, R427) -/

/-- A lattice entry: the first bar starts at the first ideal point at least 0.5 ms later. With REF_IN it waits for the first valid edge;
a follower runs free until a master downbeat comes (R88, R109, R427). -/
def Chip.latticeEntry (c : Chip) : Chip :=
  let c := c.masterMismatch.takeSrc
  let c := { c with bar := { c.bar with refLost := false, masterMiss := 0 } }
  let src := c.wantedSrc
  let now := c.now12
  let p := period12 c.mode
  let b := { c.bar with
    running := true, waiting := false, nextBeat := 0, beatLens := [], src := src, anchor := c.get F.BAR_ANCHOR_ANCHOR, refPrev12 := none,
    refNot12 := now + halfMs12, refGood := 0, refMiss := 0, dbDue := none, copying := false, everCopied := false, returning := false }
  let b := match src with
    | 1 =>
      let a := c.anchor12 b.anchor
      { b with lattice12 := a, next12 := c.bar12 (firstPoint a (now + halfMs12) p) }
    | 2 => { b with waiting := true }
    | _ => { b with lattice12 := now + halfMs12, next12 := c.bar12 (now + halfMs12) }
  ({ c with bar := b }.set F.BAR_STATUS_SRC_IN_USE src)

/-- The generator stops (BAR EN cleared, or a new mode is awaited). -/
def Chip.generatorStop (c : Chip) : Chip :=
  (({ c with bar := { c.bar with running := false, waiting := false, dbDue := none } }).setBarLock false).setSlewing false

/-- A loss of REF_IN is forgotten once neither SRC nor FALLBACK has it used, and a loss of the stack link once the unit follows no other (R88,
R90, R109). -/
def Chip.forgetLoss (c : Chip) : Chip :=
  let c := if c.refUsed then c else { c with bar := { c.bar with refLost := false, refMiss := 0, refGood := 0, refPrev12 := none } }
  if c.follower || c.bar.masterMiss = 0 then c else { c with bar := { c.bar with masterMiss := 0 } }.cond E.STACK_LOST false

/-- The change of source that a bar start brings into effect; `at12` is its exact instant in bar time (R88, R427). The first edge of REF_IN
after a fallback onto it is valid after 0.5 ms (R89); DESIGN CHOICE (assumption log 110): after a change of SRC to it, from the bar start on. -/
def Chip.sourceChange (c : Chip) (at12 : Nat) : Chip :=
  let c := c.masterMismatch.takeSrc.forgetLoss
  let src := c.wantedSrc
  let anchor := c.get F.BAR_ANCHOR_ANCHOR
  if src = c.bar.src && (src ≠ 1 || anchor = c.bar.anchor) then c
  else
    let b := { c.bar with src := src, anchor := anchor }
    let b := match src with
      | 0 => { b with lattice12 := c.ext12 at12 }
      | 1 => { b with lattice12 := c.anchor12 anchor }
      | 2 => if c.bar.refGood ≥ 3 then { b with lattice12 := (c.bar.refPrev12).getD b.lattice12, refMiss := 0 }
             else { b with refPrev12 := none, refNot12 := c.ext12 at12 + (if c.bar.sel = 2 then 0 else halfMs12), refMiss := 0, refGood := 0 }
      | _ => b
    let b := if src = 3 then b else { b with copying := false, returning := false }
    { c with bar := b }.set F.BAR_STATUS_SRC_IN_USE src

/-- A missed bar downbeat of the stack master or the peer counted; at the third in a row STACK_LOST or PAIR_UNLOCK rises and LOCK clears
(R109, R286). -/
def Chip.stackMissed (c : Chip) : Chip :=
  let n := c.bar.masterMiss + 1
  let c := { c with bar := { c.bar with masterMiss := n, copying := false } }
  let c := c.set F.STACK_STATUS_LOCK 0
  if n ≥ 3 then
    let c := c.showBarLock
    if c.pairFollower then (c.set F.REDUN_STATUS_PAIR_LOCK 0).cond E.PAIR_UNLOCK true else c.cond E.STACK_LOST true
  else c

/-- The phase error within which LOCK reads 1 (R92), in 1/12 ns. -/
def nearLimit12 : Nat := 1200

/-- The generator's part of a bar start at its exact instant: source change, phase error, catch-up, count and beat (R87 to R92). A follower
that slews onto a master that has returned copies it again once its error at a bar start is at most 100 ns, a limit the specification does
not give: DESIGN CHOICE (assumption log 111). DESIGN CHOICE (assumption log 179): the fourth bar start after a loss of REF_IN in which no valid
edge has come forgets the previous edge, so that the next one counts as a first edge. -/
def Chip.barStartAt (c : Chip) (at12 : Nat) : Chip :=
  let c := c.advanceTo at12
  let c := c.sourceChange at12
  let p := period12 c.mode
  let e := phaseError (c.ext12 at12) c.bar.lattice12 p
  let lens := beatLengths (barLength p e) (modeBeats c.mode)
  let follower := c.follower
  let c := { c with bar := { c.bar with
    start12 := at12, beatLens := lens, next12 := at12 + lens.headD 0, nextBeat := if lens.length > 1 then 1 else 0,
    refMiss := if c.refUsed then c.bar.refMiss + 1 else 0, near := decide (e.natAbs ≤ nearLimit12),
    refPrev12 := if c.bar.refLost && decide (c.bar.refMiss ≥ 3) then none else c.bar.refPrev12 } }
  let c := (c.bump F.BAR_COUNT_COUNT).set F.BAR_STATUS_BEAT 0
  let c := c.set F.BAR_PHASE_ERR_E (unsign 32 (Int.tdiv e 12))
  let c := c.setSlewing (decide (e.natAbs > catchLim p))
  let c := c.showBarLock
  let c := if follower && !c.bar.everCopied then c.stackMissed else c
  if follower && c.bar.returning && c.bar.near then
    { c with bar := { c.bar with copying := true, returning := false } }
  else c

/-- The generator's part of a beat start: the beat shown, and the next start (R13, R87). -/
def Chip.beatStartAt (c : Chip) (at12 : Nat) : Chip :=
  let c := c.advanceTo at12
  let b := c.bar.nextBeat
  let last := b + 1 ≥ c.bar.beatLens.length
  let c := { c with bar := { c.bar with next12 := at12 + c.bar.beatLens.getD b 0, nextBeat := if last then 0 else b + 1 } }
  c.set F.BAR_STATUS_BEAT b

/-! ### REF_IN (R89, R90) -/

/-- A valid REF_IN edge is taken as an ideal bar start; the third in a row ends a fallback (R89, R90). DESIGN CHOICE (assumption log 112): where
REF_OFFSET puts the edge that a lattice entry waits for in the past, the first bar starts at the present instant. -/
def Chip.refValid (c : Chip) (edge12 : Int) : Chip :=
  let good := c.bar.refGood + 1
  let c := { c with bar := { c.bar with
    refPrev12 := some edge12, refMiss := 0, refGood := good,
    refLost := c.bar.refLost && decide (good < 3) } }
  if c.bar.src = 2 then
    let b := { c.bar with lattice12 := edge12 }
    let b := if b.waiting then { b with waiting := false, next12 := max (c.bar12 edge12) (c.bar12 c.now12) } else b
    { c with bar := b }
  else c

/-- The test of R89: within ±1 % of one bar period after the previous valid edge; the first one after 0.5 ms. DESIGN CHOICE (assumption log 180):
the distance is taken in extended TIME_NS, so that a step of TIME.ADJ between two edges counts in it. -/
def Chip.refEdgeValid (c : Chip) (edge12 : Int) : Bool :=
  match c.bar.refPrev12 with
  | none => c.bar.refNot12 ≤ edge12
  | some prev => decide ((edge12 - prev - (period12 c.mode : Int)).natAbs * 100 ≤ period12 c.mode)

/-- The sample of the 500 MHz sampler that first sees an edge: every 2 ns of bar time (R89; the phase of the sampler: assumption log 113). -/
def refSample (ns : Nat) : Nat := 2 * ((ns + 1) / 2)

/-- A REF_IN edge at an instant of bar time in ns, the filter delay removed, as the sampler takes it (R89). -/
def Chip.refEdge (c : Chip) (ns : Nat) : Chip :=
  let at12 := 12 * refSample ns
  let c := c.advanceTo at12
  let edge12 := c.ext12 at12 + 12 * signed 16 (c.get F.BAR_REF_OFFSET_OFFSET)
  if !c.bar.running || !c.refUsed then c
  else if c.refEdgeValid edge12 then c.refValid edge12
  else { c with bar := { c.bar with refGood := 0 } }.raise E.REF_IN_FAULT

/-- Three whole bars without a valid edge (four bar starts since the last one): the fallback source acts from the next bar start, LOCK clears; a generator that was still waiting for
its first edge enters the lattice of the fallback (R90). -/
def Chip.refLoss (c : Chip) : Chip :=
  if c.bar.running && c.refUsed && !c.bar.refLost && (decide (c.bar.refMiss ≥ 4) || c.bar.waiting) then
    let now := c.now12
    let wait := c.bar.waiting
    let c := { c with bar := { c.bar with refLost := true, refPrev12 := none, refNot12 := now + halfMs12, refGood := 0, refMiss := 0 } }
    let c := c.showBarLock.raise E.REF_IN_FAULT
    if wait then
      let src := c.wantedSrc
      let lat := if src = 1 then c.anchor12 (c.get F.BAR_ANCHOR_ANCHOR) else now + halfMs12
      let first := firstPoint lat (now + halfMs12) (period12 c.mode)
      { c with bar := { c.bar with
        waiting := false, src := src, lattice12 := lat, next12 := c.bar12 first,
        anchor := c.get F.BAR_ANCHOR_ANCHOR } }.set F.BAR_STATUS_SRC_IN_USE src
    else c
  else c

/-! ### Time counter commands (R81 to R83) -/

/-- A step of TIME.ADJ: added at the next tick beside its increment; a negative one raises TIME_STEP_BACK (R82, R83). -/
def Chip.timeStep (c : Chip) (adj : Word) : Chip :=
  let d := signed 32 adj.toNat
  let c := if d < 0 then c.raise E.TIME_STEP_BACK else c
  let c := c.ticks 1
  { c with time := { c.time with stepNs := c.time.stepNs + d } }

/-- A new TIME_INC acts from the next tick on (R81). -/
def Chip.timeIncSet (c : Chip) (inc : Word) : Chip := (c.set F.TIME_INC_INC inc.toNat).ticks 1

/-- Ticks to the next wrap of TIME_NS. -/
def Chip.ticksToWrap (c : Chip) : Nat :=
  let left := (2 ^ 60 : Int) - c.ext28 % 2 ^ 60
  ceilDiv left.toNat c.inc28

/-! ### PTP timestamps (R84) -/

/-- The FIFO of a path: 0 A, 1 B. -/
def Chip.tsFifo (c : Chip) (path : Nat) : List TsEntry := if path = 0 then c.time.tsA else c.time.tsB

def Chip.setTsFifo (c : Chip) (path : Nat) (l : List TsEntry) : Chip :=
  { c with time := if path = 0 then { c.time with tsA := l } else { c.time with tsB := l } }

/-- TIME_NS in 1/256 ns, `frac` of them after the present tick. -/
def Chip.time256 (c : Chip) (frac : Nat) : Nat := unsign 40 (c.ext28 / 2 ^ 20 + frac)

/-- The received message whose timestamp was stored last on a path. -/
def Chip.rxStamp (c : Chip) (path : Nat) : Option (Nat × Nat) := if path % 2 = 0 then c.time.rxA else c.time.rxB
def Chip.setRxStamp (c : Chip) (path : Nat) (x : Option (Nat × Nat)) : Chip :=
  { c with time := if path % 2 = 0 then { c.time with rxA := x } else { c.time with rxB := x } }

/-- A timestamp is captured, `frac` of 1/256 ns after a tick: PTP event messages on an enabled path only; a full FIFO of 16 discards it and
sets the overflow bit (R84). -/
def Chip.tsCapture (c : Chip) (path dir msgType seqId frac : Nat) : Chip :=
  if !c.on (if path = 0 then F.TIME_TS_CTRL_EN_A else F.TIME_TS_CTRL_EN_B) || msgType > 3 || c.build = .T then c
  else
    let full := decide (16 ≤ (c.tsFifo path).length)
    let c := if dir % 2 = 0 then c.setRxStamp path (if full then none else some (msgType, seqId % 65536)) else c
    if !full then
      let t := c.time256 frac
      c.setTsFifo path (c.tsFifo path ++ [{ ns := t / 256, frac := t % 256, dir := dir % 2, msgType := msgType, seqId := seqId % 65536 }])
    else (c.set (if path = 0 then F.TIME_TS_LEVEL_OVF_A else F.TIME_TS_LEVEL_OVF_B) 1).raise E.TS_OVERFLOW

/-- Word 1 of a timestamp. -/
def TsEntry.word1 (t : TsEntry) : Nat := t.frac * 2 ^ 24 + 2 ^ 23 + t.dir * 2 ^ 22 + t.msgType * 2 ^ 16 + t.seqId

/-! ### Launch queue (R95 to R99) -/

/-- A push: KIND 0 is ignored, a reserved KIND is ignored and raises LAUNCH_FULL, a full queue of 64 drops it, counts it and raises LAUNCH_FULL (R97, R99). -/
def Chip.launchPush (c : Chip) (w : Word) : Chip :=
  let kind := bitsOf w 3 0
  if kind = 0 then c
  else if kind ≥ 5 then c.raise E.LAUNCH_FULL
  else if c.launchQ.length < 64 then
    { c with launchQ := c.launchQ ++ [{ time := c.get F.LAUNCH_TIME_TIME, kind := kind, arg := bitsOf w 13 4, tag := bitsOf w 31 24 }] }
  else (c.bumpSat F.LAUNCH_STATUS_DROPPED).raise E.LAUNCH_FULL

/-- A cancel: every entry, or those carrying TAG (LAUNCH.CANCEL). -/
def Chip.launchCancel (c : Chip) (w : Word) : Chip :=
  if bitsOf w 8 8 = 1 then { c with launchQ := [] }
  else { c with launchQ := c.launchQ.filter (fun e => e.tag ≠ bitsOf w 7 0) }

/-- How long an entry has been due at time t, modulo 2³² (R95). -/
def launchAge (t e : Nat) : Nat := (t + 2 ^ 32 - e % 2 ^ 32) % 2 ^ 32

/-- An entry is due (R95). -/
def launchDue (t : Nat) (e : LaunchEntry) : Bool := launchAge t e.time < 2 ^ 31

/-- Insertion by age, oldest first; equal times keep the order of their pushes (R96). -/
def launchInsert (t : Nat) (e : LaunchEntry) : List LaunchEntry → List LaunchEntry
  | [] => [e]
  | h :: r => if launchAge t h.time < launchAge t e.time then e :: h :: r else h :: launchInsert t e r

/-- The due entries of a queue in the order in which they take effect (R96). -/
def launchOrder (t : Nat) (l : List LaunchEntry) : List LaunchEntry :=
  (l.filter (launchDue t)).foldl (fun a e => launchInsert t e a) []

/-- The pending entry that becomes due first: the one with the largest signed age. -/
def Chip.launchNext (c : Chip) : Nat :=
  match c.launchQ with
  | [] => 0
  | h :: r => (r.foldl (fun m e => if signed 32 (launchAge c.timeNs m.time) < signed 32 (launchAge c.timeNs e.time) then e else m) h).time

end Sys2Proof.Machine
end

