-- ==== Sys2Proof/Machine/ChainOps.lean ====
section
/-! DEFINITION. The chain ports: states, causes, lanes, calibration, markers, queues and slots (spec/08_chain_link.md), without what a received cell does in other chapters. -/

namespace Sys2Proof.Machine

/-! ### Port modes and states -/

/-- The page of a port. -/
def portPage (p : Nat) : Nat := 0x080 + p

/-- Ports of the build. -/
def Chip.numPorts (c : Chip) : Nat := match c.build with | .S => 16 | .T => 4

/-- The mode of a port in use: 0 off, 1 LINE, 2 RING, 3 DUAL RING, 4 STACK; a tile's ports follow the topology of port 0's markers. -/
def Chip.portMode (c : Chip) (p : Nat) : Nat :=
  match c.build with
  | .S =>
    let m := bitsOf (c.rdUse (0x090040 + 4 * (p / 8))) (4 * (p % 8) + 3) (4 * (p % 8))
    if m ≤ 4 then m else 0
  | .T => c.get F.CHAINCTL_TILE_CFG_TOPO + 1

/-- The port is enabled: EN = 1 and, in the S build, a mode other than 0 (R215). -/
def Chip.portEnabled (c : Chip) (p : Nat) : Bool :=
  c.en (portPage p) && (decide (c.build = .T) || decide (c.portMode p ≠ 0))

/-- Port states (R222, PAGE_STAT.STATE). -/
def psOff : Nat := 0
def psTrain : Nat := 1
def psUp : Nat := 2
def psSpared : Nat := 3
def psReduced : Nat := 4
def psFenced : Nat := 5
def psFailed : Nat := 6

/-- The port carries cells: UP, SPARED or REDUCED. -/
def Chip.portCarries (c : Chip) (p : Nat) : Bool :=
  let s := c.state (portPage p)
  s = psUp || s = psSpared || s = psReduced

/-- The port that keeps the SEQ count of a ring: its even port. -/
def Chip.seqPort (c : Chip) (p : Nat) : Nat := if c.portMode p = 2 || c.portMode p = 3 then p - p % 2 else p

/-- A tile port of a sender: LINE, RING or DUAL RING (R19). -/
def Chip.tilePort (c : Chip) (p : Nat) : Bool := let m := c.portMode p; m = 1 || m = 2 || m = 3

/-- The ports of the chain or ring that starts at `p` which carry cells (R175, R428). -/
def Chip.chainPorts (c : Chip) (p : Nat) : List Nat :=
  let q := c.seqPort p
  (if c.portMode p = 1 then [p] else if c.tilePort p then [q, q + 1] else []).filter c.portCarries

/-- No port of a chain carries cells any more: scan-out reads nothing more of the canvases under way for it (R428; assumption log 131). -/
def Chip.endJobs (c : Chip) (p : Nat) : Chip :=
  if (c.chainPorts p).isEmpty then
    let q := c.seqPort p
    { c with scan := { c.scan with
      jobs := c.scan.jobs.map (fun j => { j with ended := q :: j.ended }), strips := c.scan.strips.filter (fun x => x.chain ≠ q) } }
  else c

/-- Queued pixel cells are discarded; the data still to return for them is discarded with them (R181, R428). -/
def PortSt.dropPixels (s : PortSt) : PortSt :=
  { s with
    qPixel := [], pixLate := s.pixLate + (s.qPixel.filter (fun e => !e.ready)).length, pixLeft := none, pixDb := [] }

/-- A port runs at reduced rate, or not: LINK.REDUCED and, in the S build, CHAINCTL.REDUCE show it (R221). -/
def Chip.showReduced (c : Chip) (p : Nat) (reduced : Bool) : Chip :=
  let c := c.set (F.PORT_LINK_REDUCED.pg p) (b2n reduced)
  let m := (1 : Word) <<< p
  if c.build = .S then c.wr 0x09004C (if reduced then c.rd 0x09004C ||| m else c.rd 0x09004C &&& ~~~m) else c

/-- A port enters a state: STATE, FAULT in states 3 to 6, RUNNING, the transmitters, and the PORT_STATE event (R222). -/
def Chip.setPortState (c : Chip) (p st : Nat) : Chip :=
  let pg := portPage p
  let was := c.state pg
  let c := if (was = psReduced) = (st = psReduced) then c else c.showReduced p (decide (st = psReduced))
  let c := c.set (F.STATE.pg pg) st
  let c := c.set (F.FAULT.pg pg) (b2n (decide (3 ≤ st)))
  let c := c.set (F.RUNNING.pg pg) (b2n (decide (st ≠ psOff)))
  let c := if (was = psOff) = (st = psOff) then c else c.emit (.portTx p (decide (st ≠ psOff)))
  let c := if st = psUp || st = psSpared || st = psReduced then c else (c.setPort p (c.port p).dropPixels).endJobs p
  c.cond (E.PORT_STATE p) (c.en pg && decide (st ≠ psUp))

/-- A cause of a port: its bit sets whether enabled or not; an enabled one that goes from 0 to 1 is a NOTE (PORT.CAUSE). -/
def Chip.cause (c : Chip) (p bit : Nat) : Chip :=
  let a := 0x080068 + 4096 * p
  let was := (c.rd a).getLsbD bit
  let c := c.wr a (c.rd a ||| ((1 : Word) <<< bit))
  if !was && (c.rd (a + 4)).getLsbD bit then c.raise (E.PORT_NOTE p) else c

def cUE : Nat := 0
def cHdrCrc : Nat := 1
def cSlip : Nat := 2
def cAmErr : Nat := 3
def cDirLost : Nat := 4
def cLaneRetired : Nat := 5
def cReduced : Nat := 6
def cFenced : Nat := 7
def cRecalNofit : Nat := 8
def cUnnumbered : Nat := 9
def cIdMismatch : Nat := 10
def cStray : Nat := 11
def cEchoFail : Nat := 12
def cMonEvent : Nat := 13
def cTileJoin : Nat := 14
def cMonLost : Nat := 15
def cTestErr : Nat := 16

/-- The partner of a port in a ring or through a tile: i XOR 1 (R188, R17). -/
def partner (p : Nat) : Nat := if p % 2 = 0 then p + 1 else p - 1

/-! ### Lanes (R192, R215 to R222) -/

/-- Codes of PORT.LANES. -/
def lnOff : Nat := 0
def lnTrain : Nat := 1
def lnInUse : Nat := 2
def lnSpare : Nat := 3
def lnCopy : Nat := 4
def lnRecal : Nat := 5
def lnRetired : Nat := 6
def lnFailed : Nat := 7

def PortSt.lane (s : PortSt) (l : Nat) : LaneSt := match l with | 0 => s.lane0 | 1 => s.lane1 | _ => s.lane2

def PortSt.setLane (s : PortSt) (l : Nat) (x : LaneSt) : PortSt :=
  match l with
  | 0 => { s with lane0 := x }
  | 1 => { s with lane1 := x }
  | _ => { s with lane2 := x }

/-- A lane can carry the stream. -/
def LaneSt.usable (l : LaneSt) : Bool := l.trained && !l.retired

/-- Usable lanes among D0, D1 and SP. -/
def PortSt.usable (s : PortSt) : Nat := ([s.lane0, s.lane1, s.lane2].filter LaneSt.usable).length

/-- The field of PORT.LANES of lane l: 0 D0, 1 D1, 2 SP. -/
def laneFld (p l : Nat) : Fld :=
  (match l with | 0 => F.PORT_LANES_D0 | 1 => F.PORT_LANES_D1 | _ => F.PORT_LANES_SP).pg p

/-- A receiver with one usable lane of D0, D1 and SP (R221). -/
def PortSt.needReduce (s : PortSt) : Bool := s.trained && s.usable = 1

/-- The lane map received; 3 and 7 act as 0 (R191). -/
def Chip.rxMap (c : Chip) (p : Nat) : Nat :=
  let m := c.get (F.PORT_LINK_RX_MAP.pg p)
  if m = 3 || m = 7 then 0 else m

/-- A recalibration of lane `l` in one of two phases. -/
def PortSt.recalIn (s : PortSt) (l : Nat) (a b : RecalPhase) : Bool :=
  match s.recal with
  | some r => r.lane = l && (r.phase = a || r.phase = b)
  | none => false

/-- Logical lane `l` is taken from SP: SP carries its copy, and stands in for it, for good or while it is recalibrated (R217, R219). -/
def Chip.onSpare (c : Chip) (p l : Nat) : Bool :=
  let s := c.port p
  c.rxMap p = l + 1 && (s.spareFor = some l || s.recalIn l .live .back)

/-- The lane that carries data block `pos` since the marker of the stream received (R191). -/
def Chip.carrier (c : Chip) (p pos : Nat) : Nat :=
  let m := c.rxMap p
  if mapReduced m then m - 4 else if c.onSpare p (pos % 2) then 2 else pos % 2

/-- A lane carries the stream received. -/
def Chip.laneInUse (c : Chip) (p l : Nat) : Bool :=
  ((c.port p).lane l).usable && (c.carrier p 0 = l || c.carrier p 1 = l)

/-- PORT.LANES shows each lane: failed with its port, retired, in training, recalibrated, carried on SP as well, in use, spare. -/
def Chip.showLane (c : Chip) (p l : Nat) : Chip :=
  let s := c.port p
  let x := s.lane l
  let code :=
    if x.retired then lnRetired
    else if c.state (portPage p) = psFailed then lnFailed
    else if !x.trained then lnTrain
    else if s.recalIn l .live .back then lnRecal
    else if c.laneInUse p l then (if l < 2 && c.rxMap p = l + 1 then lnCopy else lnInUse)
    else lnSpare
  c.set (laneFld p l) code

def Chip.showLanes (c : Chip) (p : Nat) : Chip := ((c.showLane p 0).showLane p 1).showLane p 2

/-- The state that the usable lanes of a trained port give: UP, SPARED, REDUCED in LINE or FENCED in ring modes, FAILED (R219, R221, R222). -/
def Chip.laneState (c : Chip) (p : Nat) : Nat :=
  let s := c.port p
  match s.usable with
  | 0 => psFailed
  | 1 => if c.portMode p = 2 || c.portMode p = 3 then psFenced else psReduced
  | 2 => if s.lane0.usable && s.lane1.usable then psUp else psSpared
  | _ => psUp

/-! ### Links, numbering (R20 to R23, R213, R214) -/

/-- The tile takes its ID from the marker fields of port 0, and in DUAL RING compares the ID that ring S implies (R22, R214). -/
def Chip.renumber (c : Chip) : Chip :=
  let idOf := fun p => c.get (F.PORT_LINK_SENDER_ID.pg p) * 1024 + c.get (F.PORT_LINK_PORT_ID.pg p) * 64 + c.get (F.PORT_LINK_HOPS.pg p) % 64
  let id := idOf 0
  let c := c.set F.CHAINCTL_TILE_CFG_TOPO (c.get F.PORT_LINK_TOPO)
  if c.get F.PORT_LINK_HOPS ≥ 64 || id = 0x1FFF then
    ((c.set F.CHAINCTL_TILE_ID_VALID 0).set F.CHAINCTL_TILE_ID_ID 0x1FFF).cause 0 cUnnumbered
  else (c.set F.CHAINCTL_TILE_ID_VALID 1).set F.CHAINCTL_TILE_ID_ID id

/-- The ID that the markers of direction 0 on port 2 imply, once one has come, and its mismatch; the cause is raised when either ID changes
into a mismatch (R214). -/
def Chip.ringSId (c : Chip) : Chip :=
  if c.get F.CHAINCTL_TILE_CFG_TOPO = 2 && (c.port 2).rxMarker.isSome && c.get (F.PORT_LINK_DIR.pg 2) = 0 && c.get F.CHAINCTL_TILE_ID_VALID = 1 then
    let id := c.get (F.PORT_LINK_SENDER_ID.pg 2) * 1024 + c.get (F.PORT_LINK_PORT_ID.pg 2) * 64 + c.get (F.PORT_LINK_HOPS.pg 2) % 64
    let known := c.on F.CHAINCTL_TILE_ID_MISMATCH && decide (id = c.get F.CHAINCTL_TILE_ID_ID_S)
    let c := c.set F.CHAINCTL_TILE_ID_ID_S id
    if id = c.get F.CHAINCTL_TILE_ID_ID then c.set F.CHAINCTL_TILE_ID_MISMATCH 0
    else if known then c
    else (c.set F.CHAINCTL_TILE_ID_MISMATCH 1).cause 2 cIdMismatch
  else c

/-- Calibration CRC, image version and presence as an IDENTITY cell reports them; kept by the firmware chapter. -/
structure Identity where
  calPresent : Bool
  version : Nat
  calCrc : Nat
deriving DecidableEq, Repr

/-- An IDENTITY cell (R204). -/
def Chip.queueIdentity (c : Chip) (i : Identity) : Chip :=
  c.queueMonitor (pf 224 (b2n i.calPresent) 1 + pf 192 i.version 32 + pf 160 i.calCrc 32 + pf 96 Config.uid 64 + pf 64 2 4)

/-- At a link-up of its numbering port a tile numbers itself, once a marker has come, whatever its SRC_LOST, and starts to send IDENTITY cells, at
once and every second for ten seconds (R22, R204). -/
def Chip.takeId (c : Chip) (i : Identity) (p : Nat) : Chip :=
  match c.build with
  | .S => c
  | .T =>
    let c := if p = 0 && (c.port 0).rxMarker.isSome then
        let c := c.renumber
        let c := c.queueIdentity i
        { c with chain := { c.chain with identityLeft := 10 } }
      else c
    c.ringSId

/-- A link-up of a port: the next downbeat on it is exempt from the sequence test (R105); on its numbering port a tile renumbers (R22). -/
def Chip.linkUp (c : Chip) (i : Identity) (p : Nat) : Chip := (c.setPort p { c.port p with numbered := false, dirLost := false }).takeId i p

/-- The direction of the stream a port receives. -/
def Chip.portDir (c : Chip) (p : Nat) : Nat := c.get (F.PORT_LINK_DIR.pg p)

/-- The ring of a port: P or S. -/
def ringOf (p : Nat) : Nat := p / 2

/-- A port is of the ring that the tile obeys: in DUAL RING the one REDUN.TILE.OBEY names (R212, R297). -/
def Chip.ringInUse (c : Chip) (p : Nat) : Bool := c.portMode p ≠ 3 || decide (c.get F.REDUN_TILE_OBEY = ringOf p + 1)

/-- The other direction of a port's ring is there. -/
def Chip.otherDirection (c : Chip) (p : Nat) : Bool := c.portMode p ≠ 1 && !(c.port (partner p)).dirLost

/-- A direction is lost at a tile: the cause; where it was the one in use, timing is taken from the other direction of the ring (R213). -/
def Chip.directionLost (c : Chip) (p : Nat) : Chip :=
  let c := (c.setPort p { c.port p with dirLost := true }).cause p cDirLost
  if c.otherDirection p && c.ringInUse p && decide (c.get F.BAR_STATUS_DIR_B = c.portDir p) then c.set F.BAR_STATUS_DIR_B (1 - c.portDir p) else c

/-- A tile port that loses its stream (R213); a sender port does not take timing from it. -/
def Chip.streamLost (c : Chip) (p : Nat) : Chip := match c.build with | .S => c | .T => c.directionLost p

/-- A state of a trained port is entered; entry into UP, SPARED or REDUCED from another state is a link-up (R22, R215, R219). -/
def Chip.enterState (c : Chip) (i : Identity) (p st : Nat) : Chip :=
  let carried := c.portCarries p
  let c := c.setPortState p st
  let c := if st = psReduced then c.cause p cReduced else c
  let c := if st = psFenced then (c.cause p cFenced).streamLost p else c
  let c := if st = psFailed then c.streamLost p else c
  let c := c.showLanes p
  if !carried && c.portCarries p then c.linkUp i p else c

/-- The trained state of a port is entered or left as its usable lanes say; a reduced port with two usable lanes stays so until its return to full
rate (R219, R221). -/
def Chip.enterLaneState (c : Chip) (i : Identity) (p : Nat) : Chip :=
  let st := c.laneState p
  c.enterState i p (if c.state (portPage p) = psReduced && (st = psUp || st = psSpared) then psReduced else st)

/-! ### The blocks that a port sends (R189 to R191, R215, R223, R224) -/

/-- The lane that an injection is set for. -/
def Chip.injectLane (c : Chip) (p : Nat) : Nat :=
  let l := c.get (F.PORT_INJECT_LANE.pg p)
  if l = 3 then 0 else l

/-- The bits that an injection inverts in a block: BITS + 1 of them from payload bit 0. -/
def Chip.burstMask (c : Chip) (p : Nat) : Nat := 2 ^ (c.get (F.PORT_INJECT_BITS.pg p) + 1) - 1

/-- The bits inverted in the next block of a lane: ONCE, which is then done, or every INJECT_EVERY-th block of the lane under REPEAT (R224). -/
def Chip.burst (c : Chip) (p lane : Nat) : Nat × Chip :=
  if lane ≠ c.injectLane p then (0, c)
  else
    let s := c.port p
    let rep := c.on (F.PORT_INJECT_REPEAT.pg p)
    let due := rep && decide (max 1 (c.get (F.PORT_INJECT_EVERY_BLOCKS.pg p)) ≤ s.injCnt + 1)
    let c := c.setPort p { s with injCnt := if rep && !due then s.injCnt + 1 else 0 }
    if c.on (F.PORT_INJECT_ONCE.pg p) || due then (c.burstMask p, c.set (F.PORT_INJECT_ONCE.pg p) 0) else (0, c)

/-- A block leaves on its lane: scrambled by the lane's generator, then inverted where an injection falls on it (R190, R224). -/
def Chip.lineBlock (c : Chip) (p : Nat) (b : LineBlock) : LineBlock × Chip :=
  let s := c.port p
  let x := s.lane b.lane
  let r := (c.setPort p (s.setLane b.lane { x with txScr := prbsAfter 64 x.txScr })).burst p b.lane
  ({ b with payload := Nat.xor (scrambleBits x.txScr b.payload) r.1 }, r.2)

/-- Blocks leave, in order. -/
def Chip.lineBlocks (c : Chip) (p : Nat) (l : List LineBlock) : Chip :=
  if l.isEmpty then c
  else
    let r := l.foldl (fun (a : List LineBlock × Chip) b => let x := a.2.lineBlock p b; (a.1 ++ [x.1], x.2)) ([], c)
    r.2.emit (.blocks p r.1)

/-- Data blocks join the stream: those that still fit before the next marker leave, the others wait for it (R191, R192). -/
def Chip.stream (c : Chip) (p : Nat) (payloads : List Nat) : Chip :=
  let s := c.port p
  let all := s.txRest ++ payloads
  let room := mapPeriod s.txMap - s.txPos
  let now := all.take room
  let blocks := (now.zipIdx s.txPos).flatMap (fun x => laneBlocks s.txMap x.2 x.1)
  (c.setPort p { s with txPos := s.txPos + now.length, txRest := all.drop room }).lineBlocks p blocks

/-- The index in its cell of the first data block after a marker sent now (R191). -/
def PortSt.txPhase (s : PortSt) : Nat := (9 - s.txRest.length % 9) % 9

/-- The training stream goes out on the three lanes, with RX_READY (R215). -/
def Chip.trainStream (c : Chip) (p : Nat) (ready : Bool) : Chip := c.lineBlocks p ([0, 1, 2].flatMap (fun l => trainingBlocks l ready))

/-- The pattern that a lane transmits: with EN = 0 and the lane in GEN_LANES; 0 none (R223). -/
def Chip.genPattern (c : Chip) (p l : Nat) : Nat :=
  let k := c.get (F.PORT_TEST_PATTERN.pg p)
  if c.en (portPage p) || c.get (F.PORT_TEST_GEN_LANES.pg p) / 2 ^ l % 2 = 0 || 5 < k then 0 else k

/-- An injection under a test pattern inverts its burst in the next block at once (R224). -/
def Chip.injectPattern (c : Chip) (p : Nat) : Chip :=
  let l := c.injectLane p
  if c.genPattern p l = 0 then c
  else (c.set (F.PORT_INJECT_ONCE.pg p) 0).emit (.patternFlip p l (c.get (F.PORT_INJECT_BITS.pg p) + 1))

/-- The patterns that the lanes of a port transmit from now on; `was` has those that they transmitted before (R223). -/
def Chip.showPatterns (c : Chip) (p : Nat) (was : List Nat) : Chip :=
  let user := c.get (F.PORT_USER_LO_USER_LO.pg p) + c.get (F.PORT_USER_HI_USER_HI.pg p) * 2 ^ 32
  let c := [0, 1, 2].foldl (fun c l =>
    let k := c.genPattern p l
    if k = 0 && was.getD l 0 = 0 then c else c.emit (.pattern p l k user)) c
  if c.on (F.PORT_INJECT_ONCE.pg p) then c.injectPattern p else c

/-- The patterns of the three lanes. -/
def Chip.genPatterns (c : Chip) (p : Nat) : List Nat := [0, 1, 2].map (c.genPattern p)

/-- The pattern checkers of a port start afresh: no lane locked (R223). -/
def Chip.testOff (c : Chip) (p : Nat) : Chip :=
  let s := c.port p
  let fresh := fun (x : LaneSt) => { x with chkHist := 0, chkSeen := 0, chkRun := 0, chkFirst := false }
  let c := c.setPort p { s with lane0 := fresh s.lane0, lane1 := fresh s.lane1, lane2 := fresh s.lane2 }
  [0, 1, 2].foldl (fun c l => c.set ((F.PORT_TEST_ERR1_LOCK.pg p).plus (8 * l)) 0) c

/-! ### Training, retirement and loss (R213, R215, R219) -/

/-- BULK_BUSY reads 0 once the last cell of the transmitter has left, or its port has (R378). -/
def Chip.bulkSettled (c : Chip) : Chip :=
  if c.on F.UPDATE_STATUS_BULK_BUSY && decide (c.get F.UPDATE_BULK_LEN ≤ c.upd.bulkOfs) && (List.range 16).all (fun p => (c.port p).qBulk.isEmpty) then
    c.set F.UPDATE_STATUS_BULK_BUSY 0
  else c

/-- A port leaves every state for OFF, or for TRAIN when it is enabled: no lane trained, nothing queued; a retired lane stays retired. In TRAIN
the training stream goes out, from generator states that the specification does not give; in OFF the test patterns may run (R215, R219, R223).
DESIGN CHOICE (assumption log 181): the measurements of ECHO start afresh, and LINK_DELAY keeps its value until the first of them. -/
def Chip.portRestart (c : Chip) (p : Nat) : Chip :=
  let c := c.testOff p
  let s := c.port p
  let r0 := c.openValue 31
  let r1 := r0.2.openValue 31
  let r2 := r1.2.openValue 31
  let fresh := fun (x : LaneSt) (g : Nat) => { LaneSt.init with retired := x.retired, restore := x.restore, txScr := g }
  let s := { s with
    lane0 := fresh s.lane0 r0.1, lane1 := fresh s.lane1 r1.1, lane2 := fresh s.lane2 r2.1, spareFor := none, recal := none, trained := false, peerReady := false,
    rxSeq := none, rxMarker := none, rxTaken := false, rxPos := 0, rxSkip := 0, rxPart := [], rxBad := 0, txMap := 0, peerReq := 0, txPos := 0,
    txRest := [], injCnt := 0, qToll := [], qEcho := [], qMgmt := [], qBulk := [], echoOut := [], echoMeas := [], dirLost := true }
  let c := (r2.2.setPort p s).bulkSettled
  let st := if c.portEnabled p then psTrain else psOff
  let c := c.setPortState p st
  let c := ((c.set (F.PORT_LINK_CLK_OK.pg p) 0).set (F.PORT_LINK_ALIGNED.pg p) 0).set (F.PORT_LINK_RX_MAP.pg p) 0
  let code := if st = psTrain then lnTrain else lnOff
  let c := [0, 1, 2].foldl (fun c l => c.set (laneFld p l) (if ((c.port p).lane l).retired then lnRetired else code)) c
  if st = psTrain then c.trainStream p false else c.showPatterns p []

/-- The measured eye meets EYE_MIN. -/
def Chip.eyeOk (c : Chip) (p width height : Nat) : Bool :=
  c.get (F.PORT_EYE_MIN_WIDTH.pg p) ≤ width && decide (c.get (F.PORT_EYE_MIN_HEIGHT.pg p) ≤ height)

/-- The eye of a lane as PORT.EYE shows it. -/
def Chip.showEye (c : Chip) (p l width height : Nat) : Chip :=
  c.wr (0x080048 + 4096 * p + 4 * l) (BitVec.ofNat 32 ((width % 64) * 65536 + height % 1024))

/-- A data lane out of service that a usable SP can take over for good, where it stands in for none (R219). -/
def PortSt.assignSpare (s : PortSt) : PortSt :=
  if s.spareFor.isSome || s.recal.isSome || !s.lane2.usable then s
  else if !s.lane0.usable then { s with spareFor := some 0 }
  else if !s.lane1.usable then { s with spareFor := some 1 }
  else s

/-- A port enters its trained state once its receiver has trained and RX_READY has come from the other end, which shows the other direction trained
(R215). -/
def Chip.bothTrained (c : Chip) (i : Identity) (p : Nat) : Chip :=
  let s := c.port p
  if c.state (portPage p) = psTrain && s.trained && s.peerReady then (c.setPort p { s with dirLost := false }).enterLaneState i p else c

/-- The receiver of a port has trained, each lane to a setting with an eye: a lane whose eye stays below EYE_MIN is retired; one retired
before comes back only under RESTORE. RX_READY goes out (R215, R219). -/
def Chip.portTrained (c : Chip) (i : Identity) (p : Nat) (r : Training) : Chip :=
  if c.state (portPage p) ≠ psTrain then c
  else
    let s := c.port p
    let may := fun (l : Nat) => !(s.lane l).retired || (s.lane l).restore
    let ok := fun (l : Nat) => may l && c.eyeOk p (r.widths.getD l 0) (r.heights.getD l 0)
    let lane := fun (l : Nat) =>
      { s.lane l with locked := true, trained := true, retired := !ok l, restore := (s.lane l).restore && !ok l, lowEyes := 0, valids := 0, heads := 0 }
    let lost := [0, 1, 2].any (fun l => may l && !ok l)
    let s := { s with
      lane0 := lane 0, lane1 := lane 1, lane2 := lane 2, trained := true, spareFor := none,
      calUse := [0, 1, 2].foldl (fun m l => smSet m l (r.settings.getD l 0)) s.calUse }
    let c := c.setPort p s.assignSpare
    let c := [0, 1, 2].foldl (fun c l => c.showEye p l (r.widths.getD l 0) (r.heights.getD l 0)) c
    let c := (c.set (F.PORT_LINK_CLK_OK.pg p) 1).trainStream p true
    let c := if lost then c.cause p cLaneRetired else c
    (c.showLanes p).bothTrained i p

/-- A lane is retired: by its eye, by loss of lock, or by command. SP takes a data lane over for good where it can; a recalibration that
uses SP for another lane is abandoned, and that lane goes back at the next marker with its previous settings (R219, R221, R222). -/
def Chip.retireLane (c : Chip) (i : Identity) (p l : Nat) : Chip :=
  let s := c.port p
  if (s.lane l).retired then c
  else if !(s.lane l).trained || c.state (portPage p) = psTrain then
    let s := s.setLane l { s.lane l with retired := true, restore := false }
    ((c.setPort p (if s.trained then { s with spareFor := none }.assignSpare else s)).cause p cLaneRetired).showLane p l
  else
    let s := s.setLane l { s.lane l with retired := true, restore := false, lowEyes := 0 }
    let s := { s with
      recal := match s.recal with
        | some r => if r.lane ≠ l && r.lane < 2 && l < 2 && (r.phase = .live || r.phase = .back) then some { r with phase := .back } else none
        | none => none }
    let s := if l = 2 then { s with spareFor := none }
      else if s.lane2.usable && s.spareFor.isNone then { s with spareFor := some l } else s
    let c := (c.setPort p s).cause p cLaneRetired
    c.enterLaneState i p

/-- A lane loses block lock: it is retired, and where it was in use the lanes are not aligned and a tile loses the direction (R192, R213, R219). -/
def Chip.lockLost (c : Chip) (i : Identity) (p l : Nat) : Chip :=
  let c := if c.laneInUse p l then (c.set (F.PORT_LINK_ALIGNED.pg p) 0).streamLost p else c
  c.retireLane i p l

/-- Bits set in the low `n` bits of a number. -/
def onesOf (n v : Nat) : Nat := (List.range n).countP (fun k => decide (v / 2 ^ k % 2 = 1))

/-- A sync header received on a lane: the 64th valid one in a row gives block lock, the 16th invalid one within 64 takes it (R192). -/
def LaneSt.head (x : LaneSt) (ok : Bool) : LaneSt :=
  if x.locked then
    let h := (x.heads * 2 + b2n (!ok)) % 2 ^ 64
    if !ok && 16 ≤ onesOf 64 h then { x with locked := false, valids := 0, heads := 0 } else { x with heads := h }
  else
    let n := if ok then x.valids + 1 else 0
    if 64 ≤ n then { x with locked := true, valids := 0, heads := 0, missedMarkers := 0 } else { x with valids := n }

/-- A sync header received on a lane of a port. The first lane that locks in TRAIN shows that the forwarded clock is there (R192, R215). -/
def Chip.laneHead (c : Chip) (i : Identity) (p l : Nat) (ok : Bool) : Chip :=
  let s := c.port p
  let x := s.lane l
  let y := x.head ok
  let c := c.setPort p (s.setLane l y)
  if x.locked && !y.locked then c.lockLost i p l
  else if y.locked && !x.locked && decide (c.state (portPage p) = psTrain) then c.set (F.PORT_LINK_CLK_OK.pg p) 1
  else c

/-- The forwarded clock of a port is lost: the port is FAILED, and a tile loses that direction (R187, R188). -/
def Chip.clkLoss (c : Chip) (p : Nat) : Chip :=
  if c.state (portPage p) = psOff then c
  else
    let c := (c.set (F.PORT_LINK_CLK_OK.pg p) 0).set (F.PORT_LINK_ALIGNED.pg p) 0
    let c := c.setPort p { c.port p with trained := false, rxMarker := none }
    ((c.setPortState p psFailed).streamLost p).showLanes p

/-! ### Calibration (R216 to R220) -/

/-- The temperatures of the four sets, in 1/16 °C. -/
def calTemps : List Int := [-320, 320, 880, 1360]

/-- The two sets that bracket a temperature; outside the range, the nearest one twice (R216). -/
def calBracket (t : Int) : Nat × Nat :=
  if t ≤ -320 then (0, 0) else if t < 320 then (0, 1) else if t < 880 then (1, 2) else if t < 1360 then (2, 3) else (3, 3)

/-- Fields of a calibration set: bits, and whether signed. -/
def calFields : List (Nat × Nat × Bool) := [(31, 28, true), (27, 22, true), (21, 16, true), (15, 12, false), (11, 0, false)]

/-- A calibration field's value. -/
def calGet (w : Word) (f : Nat × Nat × Bool) : Int :=
  let v := bitsOf w f.1 f.2.1
  if f.2.2 then signed (f.1 + 1 - f.2.1) v else v

def calSet (w : Word) (f : Nat × Nat × Bool) (v : Int) : Word := insBits w f.1 f.2.1 (unsign (f.1 + 1 - f.2.1) v)

/-- The stored set of a lane. -/
def Chip.calSetOf (c : Chip) (p set lane : Nat) : Word := smGet 0 (c.port p).cal (4 * set + lane)

/-- Linear interpolation of a field between the sets that bracket a temperature (R216). -/
def Chip.calInterp (c : Chip) (p lane : Nat) (t : Int) (f : Nat × Nat × Bool) : Int :=
  let b := calBracket t
  let x := calGet (c.calSetOf p b.1 lane) f
  let y := calGet (c.calSetOf p b.2 lane) f
  if b.1 = b.2 then x
  else
    let t0 := calTemps.getD b.1 0
    let t1 := calTemps.getD b.2 0
    x + (y - x) * (t - t0) / (t1 - t0)

/-- The temperature of the digital-die sensor that serves a port, in 1/16 °C (R216, R352). -/
def Chip.portTemp (c : Chip) (p : Nat) : Int := signed 16 (c.get (F.THERMAL_SENSOR_USE.plus (4 * (p / 4))))

/-- The settings of a lane move towards the interpolated ones, each field by at most one step (R216). -/
def Chip.calStep (c : Chip) (p lane : Nat) : Chip :=
  let t := c.portTemp p
  let w0 := smGet 0 (c.port p).calUse lane
  let w := calFields.foldl (fun w f =>
    let now := calGet w f
    let want := c.calInterp p lane t f
    calSet w f (if now < want then now + 1 else if want < now then now - 1 else now)) w0
  c.setPort p { c.port p with calUse := smSet (c.port p).calUse lane w }

/-- The 1 ms recomputation of the lane settings of a port (R216). -/
def Chip.laneCal (c : Chip) (p : Nat) : Chip :=
  let c := c.set (F.PORT_CAL_TEMP_TJ.pg p) (unsign 16 (c.portTemp p))
  [0, 1, 2].foldl (fun c l => c.calStep p l) c

/-- A recalibration of the next lane begins. An idle lane - SP, one that RESTORE retrains, one not in use at reduced rate - is calibrated
without a copy; a data lane in use is asked for on SP, where SP is free (R217, R219, R222). -/
def Chip.recalStart (c : Chip) (p : Nat) : Chip :=
  let s := c.port p
  if !(c.portCarries p || c.state (portPage p) = psFenced) || s.recal.isSome then c
  else
    let l := s.nextRecal % 3
    let x := s.lane l
    let idle := if x.retired then x.restore else !c.laneInUse p l
    let asks := !x.retired && !idle && l < 2 && !mapReduced (c.rxMap p) && s.lane2.usable && s.spareFor.isNone
    let recal := if idle then some { lane := l, phase := .live } else if asks then some { lane := l, phase := .asked } else none
    (c.setPort p { s with nextRecal := (l + 1) % 3, recal := recal }).showLanes p

/-- The new setting of a lane replaces the one in use, and its difference from the interpolated one is added to both bracketing sets (R217), which the
Belfry is to store (R216). -/
def Chip.calLearn (c : Chip) (p lane : Nat) (new : Word) : Chip :=
  let t := c.portTemp p
  let b := calBracket t
  let add := fun (w : Word) => calFields.foldl (fun w f => calSet w f (calGet w f + (calGet new f - c.calInterp p lane t f))) w
  let s := c.port p
  let w0 := add (c.calSetOf p b.1 lane)
  let w1 := add (c.calSetOf p b.2 lane)
  let cal := smSet (smSet s.cal (4 * b.1 + lane) w0) (4 * b.2 + lane) w1
  { c.setPort p { s with cal := cal, calUse := smSet s.calUse lane new } with belfry := { c.belfry with lanesDirty := true } }

/-- The calibration of a lane ends with a setting and its eye. With an eye of at least EYE_MIN the setting is taken, and a lane that RESTORE
named returns to service; otherwise RECAL_NOFIT, the previous settings stay, and a lane whose measured eye no longer meets EYE_MIN is
retired. A logical lane on SP goes back at the next marker (R217, R219, R220). -/
def Chip.recalComplete (c : Chip) (i : Identity) (p width height : Nat) (new : Word) : Chip :=
  match (c.port p).recal with
  | none => c
  | some r =>
    if r.phase ≠ .live then c
    else
      let l := r.lane
      let back := c.onSpare p l
      let s := c.port p
      let restored := (s.lane l).retired
      let ok := c.eyeOk p width height
      let s := { s with recal := if back && (ok || !restored) then some { r with phase := .back } else none }
      if ok then
        let x := s.lane l
        let s := s.setLane l { x with retired := false, restore := false, trained := true, locked := true, lowEyes := 0, valids := 0, heads := 0 }
        let s := if !back && s.spareFor = some l then { s with spareFor := none } else s
        let c := ((c.setPort p s.assignSpare).calLearn p l new).showEye p l width height
        if restored then c.enterLaneState i p else c.showLanes p
      else
        let c := ((c.setPort p s).cause p cRecalNofit).showLanes p
        let e := 0x080048 + 4096 * p + 4 * l
        if restored || c.eyeOk p (bitsOf (c.rd e) 21 16) (bitsOf (c.rd e) 9 0) then c else c.retireLane i p l

/-- The eye of a lane in use measured: shown, and the third low measurement in a row retires the lane (R218, R219). -/
def Chip.eyeLane (c : Chip) (i : Identity) (p l width height : Nat) : Chip :=
  if !c.laneInUse p l then c
  else
    let c := c.showEye p l width height
    let s := c.port p
    let low := if c.eyeOk p width height then 0 else (s.lane l).lowEyes + 1
    let c := c.setPort p (s.setLane l { s.lane l with lowEyes := low })
    if low ≥ 3 then c.retireLane i p l else c

/-- What a recalibration does at a marker that has announced a lane map: the copy asked for begins; a copy that matched for a whole period
takes over from its lane; a lane calibrated goes back (R217). -/
def PortSt.recalMarker (s : PortSt) (map : Nat) : PortSt :=
  match s.recal with
  | none => s
  | some r =>
    match r.phase with
    | .asked => if map = r.lane + 1 then { s with recal := some { r with phase := .matching }, copyBad := false } else s
    | .matching => { s with recal := if map = r.lane + 1 && !s.copyBad then some { r with phase := .live } else some r, copyBad := false }
    | .live => s
    | .back => { s with recal := none, spareFor := if s.spareFor = some r.lane && !(s.lane r.lane).retired then none else s.spareFor }

/-- SP is compared with the lane it copies, block by block (R217). -/
def PortSt.copyCheck (s : PortSt) (l : Nat) : PortSt :=
  match s.recal with
  | some r =>
    let x := s.lane r.lane
    if r.phase = .matching && (l = 2 || l = r.lane) && x.pos = s.lane2.pos && x.last ≠ s.lane2.last then { s with copyBad := true } else s
  | none => s

/-! ### Markers (R191 to R193) -/

/-- The lane map that a receiver requests: at reduced rate, or needing it in LINE, one of its usable lanes; the copy of the lane that SP stands
in for, or that a recalibration asks for; else NORMAL (R191, R217, R219, R221). -/
def Chip.rxReq (c : Chip) (p : Nat) : Nat :=
  let s := c.port p
  if c.portMode p = 1 && (s.needReduce || c.state (portPage p) = psReduced) then 4 + (([0, 1, 2].find? (fun l => (s.lane l).usable)).getD 0)
  else match s.spareFor, s.recal with
    | some l, _ => l + 1
    | none, some r => if r.lane < 2 && !(s.lane r.lane).retired && !(r.phase = .live && !c.onSpare p r.lane) then r.lane + 1 else 0
    | none, none => 0

/-- A port of a tile has the stream it forwards: it carries cells, a marker has come, and the direction is not lost (R193). -/
def Chip.hasStream (c : Chip) (p : Nat) : Bool := c.portCarries p && !(c.port p).dirLost && (c.port p).rxMarker.isSome

/-- The fields of the marker that a port sends next (R193): a sender's own; at a tile those received on the port whose stream it forwards, or
its own count and grid with SRC_LOST when that has none. NEED_REDUCE joins what both ports of the link have received (assumption log 135). -/
def Chip.markerOf (c : Chip) (p lane : Nat) : Marker :=
  let s := c.port p
  match c.build with
  | .S =>
    let m := c.portMode p
    { cnt := s.markerCnt, srcLost := false, hops := 0, needReduce := s.needReduce, rxReq := c.rxReq p, txMap := s.txMap, cellPhase := s.txPhase,
      dir := if m = 2 || m = 3 then p % 2 else 0, topo := m - 1, pairSlot := c.get F.DEVICE_STRAPS_PAIR_SLOT, senderId := c.stackPos, portId := p,
      lane := lane }
  | .T =>
    let q := partner p
    let r := c.port q
    let has := c.hasStream q
    let endOfLine := p = 0 && c.portMode 0 = 1 && !c.portCarries 1
    let src := if endOfLine then 0 else q
    { cnt := if has then r.rxMarker.getD 0 else s.markerCnt, srcLost := !endOfLine && (!has || c.on (F.PORT_LINK_SRC_LOST.pg q)),
      hops := if endOfLine then 0 else min 127 (c.get (F.PORT_LINK_HOPS.pg q) + 1),
      needReduce := s.needReduce || r.needReduce || c.on (F.PORT_LINK_NEED_REDUCE.pg p) || c.on (F.PORT_LINK_NEED_REDUCE.pg q), rxReq := c.rxReq p,
      txMap := s.txMap, cellPhase := if has then r.rxPhase else s.txPhase,
      dir := if endOfLine then 1 else c.portDir q, topo := c.get (F.PORT_LINK_TOPO.pg src), pairSlot := c.get (F.PORT_LINK_PAIR_SLOT.pg src),
      senderId := c.get (F.PORT_LINK_SENDER_ID.pg src), portId := c.get (F.PORT_LINK_PORT_ID.pg src), lane := lane }

/-- The chain runs at reduced rate on this port: a sender's port is REDUCED; at a tile the stream from the sender, on port 0, is (R221). -/
def Chip.reducedChain (c : Chip) (p : Nat) : Bool :=
  c.portMode p = 1 && (match c.build with
    | .S => decide (c.state (portPage p) = psReduced)
    | .T => mapReduced (c.rxMap 0))

/-- The lane map a transmitter takes: the one its partner's receiver requests, within those a lane map can be (R191, R217, R221). -/
def Chip.nextTxMap (c : Chip) (p : Nat) : Nat :=
  let want := (c.port p).peerReq
  if c.reducedChain p then (if mapReduced want then want else 4) else if want = 1 || want = 2 then want else 0

/-- What asks a LINE port for reduced rate: at a sender NEED_REDUCE received or its own, or REDUCE.FORCE; at a tile the map of the stream
from the sender (R221). -/
def Chip.reduceAsked (c : Chip) (p : Nat) : Bool :=
  match c.build with
  | .S => c.on (F.PORT_LINK_NEED_REDUCE.pg p) || (c.port p).needReduce || (c.rd F.CHAINCTL_REDUCE_FORCE.addr).getLsbD (16 + p)
  | .T => mapReduced (c.rxMap 0)

/-- A LINE port goes to reduced rate where something asks for it (R221). -/
def Chip.reduceNow (c : Chip) (p : Nat) : Chip :=
  let st := c.state (portPage p)
  if c.numPorts ≤ p || c.portMode p ≠ 1 || !c.reduceAsked p || !(st = psUp || st = psSpared) then c
  else ((c.setPortState p psReduced).cause p cReduced).showLanes p

/-- A reduced port returns to full rate: nothing asks for reduced rate any more, and its receiver has two usable lanes (R221). -/
def Chip.fullRate (c : Chip) (i : Identity) (p : Nat) : Chip :=
  if c.numPorts ≤ p || c.state (portPage p) ≠ psReduced || c.reduceAsked p || (c.port p).usable < 2 then c
  else c.enterState i p (c.laneState p)

/-- The marker of one lane leaves; an injection may fall on it (R191, R224). -/
def Chip.markerLane (c : Chip) (p l : Nat) : Chip :=
  let r := c.burst p l
  r.2.emit (.marker p l (Nat.xor (c.markerOf p l).bits r.1))

/-- A marker goes out on the three lanes; the lane map it announces acts from the next block, the generators start from its count, and the
blocks that waited for it follow (R190 to R192). A port in TRAIN sends none (R215). -/
def Chip.markerSend (c : Chip) (p : Nat) : Chip :=
  let st := c.state (portPage p)
  if st = psOff || st = psTrain then c
  else
    let map := c.nextTxMap p
    let c := (c.setPort p { c.port p with txMap := map }).set (F.PORT_LINK_TX_MAP.pg p) map
    let cnt := (c.markerOf p 0).cnt
    let c := [0, 1, 2].foldl (fun c l => c.markerLane p l) c
    let s := c.port p
    let seed := fun (x : LaneSt) (l : Nat) => { x with txScr := laneSeed l cnt }
    (c.setPort p { s with
      lane0 := seed s.lane0 0, lane1 := seed s.lane1 1, lane2 := seed s.lane2 2, markerCnt := (cnt + 1) % 65536, txPos := 0 }).stream p []

/-! ### What a port receives (R190 to R195) -/

/-- A SLIP on a port: counted and its cause raised; a tile loses the direction (R192, R213). -/
def Chip.slip (c : Chip) (p : Nat) : Chip :=
  ((c.bumpSat (F.PORT_CELL_ERR_SLIP.pg p)).cause p cSlip).streamLost p

/-- UNIT of the error records of a port: the lane at reduced rate, 3 where the words travel on two (R196). -/
def Chip.rxUnit (c : Chip) (p : Nat) : Nat := if mapReduced (c.rxMap p) then c.carrier p 0 else 3

/-- The record of a SLIP: the word index and cell sequence received, in LOCATION (R196). -/
def Chip.slipRecord (c : Chip) (p loc : Nat) : ErrRec := { ue := true, kind := 2, unit := c.rxUnit p, syndrome := 0, loc := loc }

/-- The index in its cell of the next data block received. -/
def PortSt.rxIndex (s : PortSt) : Nat := if s.rxSkip = 0 then s.rxPart.length else 9 - s.rxSkip

/-- The grid after a good marker: kept where its CELL_PHASE agrees with the count, else realigned to it (R192). -/
def PortSt.realign (s : PortSt) (phase : Nat) : PortSt :=
  if s.rxMarker.isSome && s.rxIndex = phase then s else { s with rxPart := [], rxBad := 0, rxSkip := (9 - phase) % 9 }

/-- A marker of a period restarts the block positions. One whose fields are good, the first of the period to be so, fixes the lane map and
the grid, moves a recalibration on, and counts a SLIP where the grid disagrees (R191, R192, R217). -/
def Chip.markerGrid (c : Chip) (p m : Nat) : Chip :=
  let s := c.port p
  let bad := s.rxMarker.isSome && decide (s.rxIndex ≠ mkCellPhase m)
  let s := { (s.realign (mkCellPhase m)).recalMarker (mkTxMap m) with
    rxMarker := some (mkCnt m), rxTaken := true, rxPhase := mkCellPhase m, rxPos := if s.rxMarker = some (mkCnt m) then s.rxPos else 0 }
  let c := (c.setPort p s).set (F.PORT_LINK_RX_MAP.pg p) (mkTxMap m)
  let c := c.showLanes p
  if bad then (c.report (portPage p) [c.slipRecord p 0]).slip p else c

/-- The fields of a good marker as PORT.LINK shows them. -/
def Chip.markerFields (c : Chip) (p m : Nat) : Chip :=
  let c := c.set (F.PORT_LINK_SRC_LOST.pg p) (b2n (mkSrcLost m))
  let c := c.set (F.PORT_LINK_DIR.pg p) (mkDir m)
  let c := c.set (F.PORT_LINK_NEED_REDUCE.pg p) (b2n (mkNeedReduce m))
  let c := c.set (F.PORT_LINK_TOPO.pg p) (mkTopo m)
  let c := c.set (F.PORT_LINK_PAIR_SLOT.pg p) (mkPairSlot m)
  let c := c.set (F.PORT_LINK_SENDER_ID.pg p) (mkSenderId m)
  let c := c.set (F.PORT_LINK_PORT_ID.pg p) (mkPortId m)
  c.set (F.PORT_LINK_HOPS.pg p) (mkHops m)

/-- The lanes in use are locked. -/
def Chip.inUseLocked (c : Chip) (p : Nat) : Bool := [0, 1, 2].all (fun l => !c.laneInUse p l || ((c.port p).lane l).locked)

/-- A good marker received on a lane of a port: the lane's descrambler starts from it (R190 to R193, R213, R214). The first one since training numbers
a tile, whatever its SRC_LOST; a direction whose markers carry SRC_LOST is lost; one that was lost is there again with a good marker whose SRC_LOST
is 0 (assumption log 136). -/
def Chip.markerGood (c : Chip) (i : Identity) (p l m : Nat) : Chip :=
  let wasLost := c.on (F.PORT_LINK_SRC_LOST.pg p)
  let s := c.port p
  let first := s.rxMarker.isNone
  let new := s.rxMarker ≠ some (mkCnt m) || !s.rxTaken
  let x := { s.lane l with missedMarkers := 0, mark := some (mkCnt m), scr := some (laneSeed (mkLane m) (mkCnt m)), pos := 0 }
  let c := c.setPort p { s.setLane l x with peerReq := mkRxReq m, dirLost := s.dirLost && !(c.portCarries p && !mkSrcLost m) }
  let c := c.markerFields p m
  let c := if new then c.markerGrid p m else c
  let c := c.set (F.PORT_LINK_ALIGNED.pg p) (b2n (c.inUseLocked p))
  let c := if !mkSrcLost m && wasLost && c.portCarries p then c.linkUp i p else if first && c.portCarries p then c.takeId i p else c
  let c := if mkSrcLost m && !(c.port p).dirLost then c.streamLost p else c
  if new && p = 2 && c.build = .T then c.ringSId else c

/-- A marker that is missing or fails its CRC: AM_ERR; the lane goes on with the count that follows its last marker's, and the second in a row
costs it its lock (R192; assumption log 140). -/
def Chip.markerBad (c : Chip) (i : Identity) (p l : Nat) : Chip :=
  let s := c.port p
  let x := s.lane l
  let next := x.mark.map (fun n => (n + 1) % 65536)
  let n := x.missedMarkers + 1
  let y := { x with missedMarkers := n, mark := next, scr := next.map (laneSeed l), pos := 0, locked := x.locked && decide (n < 2) }
  let s := s.setLane l y
  let s := if next.isSome && s.rxMarker ≠ next then { s with rxMarker := next, rxTaken := false, rxPos := 0 } else s
  let c := (c.setPort p s).cause p cAmErr
  if n ≥ 2 && x.locked then c.lockLost i p l else c

/-- A block received on a lane where a marker is due (R189, R192). -/
def Chip.markerReceive (c : Chip) (i : Identity) (p l sync m : Nat) : Chip :=
  if c.state (portPage p) = psOff then c
  else
    let c := c.laneHead i p l (syncValid sync m (((c.port p).lane l).scr.map (fun s => scrambleBits s m)))
    if sync = syncControl && markerOk m then c.markerGood i p l m else c.markerBad i p l

/-- A block received on a lane: its header counts for the lane's lock, its payload is descrambled (R189, R190, R192, R217). -/
def Chip.laneBlock (c : Chip) (i : Identity) (p : Nat) (b : LineBlock) : Chip :=
  let s := c.port p
  let x := s.lane b.lane
  let plain := x.scr.map (fun g => scrambleBits g b.payload)
  let s := (s.setLane b.lane { x with scr := x.scr.map (prbsAfter 64), pos := x.pos + 1, last := plain.getD 0 }).copyCheck b.lane
  (c.setPort p s).laneHead i p b.lane (syncValid b.sync b.payload plain)

/-- A data block of the stream on the lane that carries it joins the open cell: the nine lanes and payloads of a cell that it completes. The
second invalid header within a cell loses the direction (R191, R192, R213). -/
def Chip.takeBlock (c : Chip) (p l payload : Nat) (bad : Bool) : Option (List (Nat × Nat)) × Chip :=
  let s := c.port p
  if s.rxMarker.isNone || c.carrier p s.rxPos ≠ l then (none, c)
  else
    let s := { s with rxPos := s.rxPos + 1 }
    if 0 < s.rxSkip then (none, c.setPort p { s with rxSkip := s.rxSkip - 1 })
    else
      let part := s.rxPart ++ [(l, payload)]
      let heads := s.rxBad + b2n bad
      let whole := part.length = 9
      let c := c.setPort p { s with rxPart := if whole then [] else part, rxBad := if whole then 0 else heads }
      let c := if bad && heads = 2 then c.streamLost p else c
      (if whole then some part else none, c)

/-- The state of a scrambler that has just scrambled an idle block into a payload: its last 31 bits, the newest in bit 0 (R190). -/
def idleState (payload : Nat) : Nat := ((List.range 31).map (fun k => payload / 2 ^ (63 - k) % 2 * 2 ^ k)).sum

/-- In TRAIN a lane whose descrambler no marker has seeded takes its state from an idle block of the training stream (R190, R215; assumption log
139). -/
def Chip.trainSync (c : Chip) (p : Nat) (b : LineBlock) : Chip :=
  let s := c.port p
  let x := s.lane b.lane
  if c.state (portPage p) = psTrain && x.scr.isNone && decide (b.sync = syncData) then c.setPort p (s.setLane b.lane { x with scr := some (idleState b.payload) })
  else c

/-- A training block received in TRAIN: with RX_READY the other end has trained (R215). -/
def Chip.trainBlock (c : Chip) (i : Identity) (p plain : Nat) : Chip :=
  if c.state (portPage p) = psTrain && decide (plain % 2 ^ 8 = typeTraining) && decide (plain / 2 ^ 56 = crc8 56 (plain % 2 ^ 56) 0) &&
      decide (plain / 2 ^ 8 % 2 = 1) then
    (c.setPort p { c.port p with peerReady := true }).bothTrained i p
  else c

/-- A block received on a port; the cell that it completes, if it does. A control block is none of the stream's data blocks (R189). -/
def Chip.rxBlock (c : Chip) (i : Identity) (p : Nat) (b : LineBlock) : Option (List (Nat × Nat)) × Chip :=
  let plain := ((c.port p).lane b.lane).scr.map (fun g => scrambleBits g b.payload)
  let ok := syncValid b.sync b.payload plain
  let r := if ok && b.sync = syncControl then (none, c) else c.takeBlock p b.lane (plain.getD 0) (!ok)
  let c := (r.2.laneBlock i p b).trainSync p b
  (r.1, if b.sync = syncControl then c.trainBlock i p (plain.getD 0) else c)

/-- Blocks of one lane over a change of its lock; what they carry is lost with the blocks of the other lanes (R192). -/
def Chip.blockLock (c : Chip) (i : Identity) (p l : Nat) (blocks : List LineBlock) : Chip :=
  if c.state (portPage p) = psOff then c else (blocks.filter (fun b => b.lane = l)).foldl (fun c b => c.laneBlock i p b) c

/-! ### Queues and slots of a sender (R206) -/

/-- A cell joins the queue of its type on a port; in RING and DUAL RING the partner port gets the copy with the same SEQ (R197, R206). -/
def PortSt.enqueue (s : PortSt) (cell : Nat) : PortSt :=
  match cellType cell with
  | 3 => { s with qMgmt := s.qMgmt ++ [cell] }
  | 4 => { s with qBulk := s.qBulk ++ [cell] }
  | 5 => { s with qToll := s.qToll ++ [cell] }
  | 6 => { s with qEcho := s.qEcho ++ [cell] }
  | _ => s

/-- A cell given the next SEQ of its port or ring (R197). -/
def Chip.withSeq (c : Chip) (p cell : Nat) : Nat × Chip :=
  let q := c.seqPort p
  let s := c.port q
  (cellWithSeq cell s.cellSeq, c.setPort q { s with cellSeq := (s.cellSeq + 1) % 256 })

/-- A cell is queued on a chain: on the port, and in ring modes on both ports of the ring (R206, R74). -/
def Chip.sendChain (c : Chip) (p cell : Nat) : Chip :=
  let r := c.withSeq p cell
  let c := r.2
  let m := c.portMode p
  let c := c.setPort p ((c.port p).enqueue r.1)
  if (m = 2 || m = 3) && p % 2 = 0 then c.setPort (p + 1) ((c.port (p + 1)).enqueue r.1) else c

/-- The ports of a sender that start a chain: every LINE port, and the even port of every ring. -/
def Chip.chains (c : Chip) : List Nat :=
  (List.range 16).filter (fun p => c.portMode p = 1 || ((c.portMode p = 2 || c.portMode p = 3) && p % 2 = 0))

/-- The ACTIVE field of a cell that a sender originates, as it leaves (R281). -/
def Chip.withActive (c : Chip) (cell : Nat) : Nat :=
  match c.build with
  | .S => if cellActive cell = c.actBit then cell else cellWithSeq (cellWith cell 23 23 (b2n c.actBit)) (cellSeq cell)
  | .T => cell

/-- A coded cell leaves a port: its nine blocks join the stream (R194). -/
def Chip.sendCoded (c : Chip) (p : Nat) (raw : RawCell) : Chip := (c.emit (.cell p raw)).stream p (cellBlocks raw)

/-- A cell leaves a port as it is: coded with the link's cell sequence (R194). -/
def Chip.sendRaw (c : Chip) (p cell : Nat) : Chip :=
  let s := c.port p
  let c := c.setPort p { s with
    txSeq := (s.txSeq + 1) % 32, slot := s.slot + 1, bulkSlots := if s.slot % 16 = 0 then 0 else s.bulkSlots }
  c.sendCoded p (encodeCell cell s.txSeq)

/-- A cell that the unit originates leaves a port, with its ACTIVE bit as it is now (R281). -/
def Chip.sendSlot (c : Chip) (p cell : Nat) : Chip := c.sendRaw p (c.withActive cell)

/-- An IDLE cell (R198). -/
def idleCell : Nat := mkCell { ctype := ctIdle } 0

/-- A cell leaves at the next boundary that does not begin a reserved slot, which stays IDLE (R100, R206). -/
def Chip.sendFree (c : Chip) (p cell : Nat) : Chip :=
  let c := if (c.port p).slot % 16 = 0 then c.sendSlot p idleCell else c
  c.sendSlot p cell

/-- What a sender's slot is filled with (R206): nothing in a reserved slot; else the first type waiting (a
DOWNBEAT goes out at its launch and not from a queue); BULK before PIXEL only where its
share of the sixteen slots needs it. -/
inductive SlotPick where
  | idle | toll | echo | mgmt | pixel | bulk
deriving DecidableEq, Repr

def Chip.slotPick (c : Chip) (p : Nat) : SlotPick :=
  let s := c.port p
  let k := s.slot % 16
  let share := min 8 (c.get F.CHAINCTL_SHARE_BULK)
  let bulkNeeds := !s.qBulk.isEmpty && decide (s.bulkSlots < share) && decide (16 - k ≤ share - s.bulkSlots)
  let pix := match s.qPixel with | e :: _ => e.ready | [] => false
  if k = 0 then .idle
  else if c.portMode p = 4 then (if !s.qEcho.isEmpty then .echo else .idle)
  else if !s.qToll.isEmpty then .toll
  else if !s.qEcho.isEmpty then .echo
  else if !s.qMgmt.isEmpty then .mgmt
  else if pix && !bulkNeeds then .pixel
  else if !s.qBulk.isEmpty then .bulk
  else .idle

/-! ### ECHO (R101, R203) -/

/-- The upstream link delay register that a port's measurements feed: at a tile that of the port, at a sender that of STACK.IN_PORT modulo 4. -/
def Chip.linkDelayFld (c : Chip) (p : Nat) : Option Fld :=
  match c.build with
  | .T => if p < 4 then some (F.BAR_LINK_DELAY_PS.plus (4 * p)) else none
  | .S => if p = c.get F.STACK_CONFIG_IN_PORT then some (F.BAR_LINK_DELAY_PS.plus (4 * (p % 4))) else none

/-- An ECHO request goes out on an enabled port (R203). -/
def Chip.echoSend (c : Chip) (p : Nat) : Chip :=
  if !c.portEnabled p then c
  else
    let s := c.port p
    let cell := mkEcho 0 s.echoSeq false
    let r := (c.setPort p { s with echoOut := s.echoOut ++ [s.echoSeq], echoSeq := (s.echoSeq + 1) % 256 }).withSeq p cell
    let s := r.2.port p
    r.2.setPort p (match c.build with
      | .S => { s with qEcho := s.qEcho ++ [r.1] }
      | .T => { s with insEcho := s.insEcho ++ [r.1] })

/-- L in ps from measurements of twice L in 1/16 UI, 80/33 ps (UI 38.79 ps): their mean (R101). -/
def echoMeanPs (l : List Nat) : Nat := if l.isEmpty then 0 else l.sum * 40 / (l.length * 33)

/-- A measurement differs from the mean of others by more than 100 ps (R101). -/
def echoFar (l : List Nat) (m : Nat) : Bool :=
  !l.isEmpty && (decide (100 * 33 * l.length < (m * l.length - l.sum) * 40) || decide (100 * 33 * l.length < (l.sum - m * l.length) * 40))

/-- A measurement, the round trip less the turnaround: one that differs from the mean by more than 100 ps is discarded and raises HOP_DRIFT; L
is half the mean of the last 16 (R101). -/
def Chip.echoMeasure (c : Chip) (p m : Nat) : Chip :=
  let s := c.port p
  if echoFar s.echoMeas m then c.raise E.HOP_DRIFT
  else
    let l := (s.echoMeas ++ [m])
    let l := l.drop (l.length - 16)
    let c := c.setPort p { s with echoMeas := l }
    match c.linkDelayFld p with
    | some f => c.set f (echoMeanPs l)
    | none => c

/-- L of a port in ps. -/
def Chip.linkDelay (c : Chip) (p : Nat) : Nat := echoMeanPs (c.port p).echoMeas

end Sys2Proof.Machine
end

