-- ==== Sys2Proof/Machine/FlashOps.lean ====
section
/-! DEFINITION. Image slots, staging, activation and rollback, journaled copies, settings and calibration in the flash (spec/15_update_settings.md). -/

namespace Sys2Proof.Machine

def Chip.setUpd (c : Chip) (u : UpdateSt) : Chip := { c with upd := u }

/-! ### Images (R373) -/

/-- Bytes of an image, from an image offset on. -/
abbrev ImageRd := Nat → Nat → List Byte

/-- The image of a slot. -/
def Chip.slotRd (c : Chip) (slot : Nat) : ImageRd := fun ofs n => c.flashRead (slot * 0x1000000 + ofs) n

def imgVersion (r : ImageRd) : Nat := ofLe (r 8 4)
def imgLength (r : ImageRd) : Nat := ofLe (r 12 4)
def imgSettingsFmt (r : ImageRd) : Nat := ofLe (r 16 4)
def imgTablesId (r : ImageRd) : Nat := ofLe (r 20 4)

/-- Block 0, its CRC and the CRC table are right, and the image is for this build and stepping (R373). -/
def imgHeaderOk (b : Build) (r : ImageRd) : Bool :=
  decide (ofLe (r 0 4) = 0x5A43494D) && decide (ofLe (r 4 2) = 1) && decide (ofLe (r 4092 4) = crc32 (r 0 4092)) &&
    decide (ofLe (r 96 4) = crc32 (r 4096 16384)) && decide (ofLe (r 6 1) / (match b with | .S => 1 | .T => 2) % 2 = 1) &&
    decide (ofLe (r 7 1) = 0xB1) && decide (imgLength r % 4096 = 0) && decide (20480 ≤ imgLength r) && decide (imgLength r ≤ 16711680)

/-- Every block matches its table entry (R373). -/
def imgBlocksOk (r : ImageRd) : Bool :=
  (List.range (imgLength r / 4096)).all (fun n => decide (n < 5) || decide (ofLe (r (4096 + 4 * n) 4) = crc32 (r (4096 * n) 4096)))

/-- The digest matches, bytes 64 to 95 taken as 0 (R373). -/
def imgDigestOk (r : ImageRd) : Bool :=
  decide (sha256 (r 0 64 ++ List.replicate 32 0 ++ r 96 (imgLength r - 96)) = r 64 32)

/-- The full check: 0, or the FAIL_CODE (R373, R379). -/
def imgCheck (b : Build) (r : ImageRd) : Nat :=
  if !imgHeaderOk b r then 2 else if !imgBlocksOk r then 3 else if !imgDigestOk r then 4 else 0

/-- The check of the boot ROM: everything but the digest (R373). -/
def imgRomOk (b : Build) (r : ImageRd) : Bool := imgHeaderOk b r && imgBlocksOk r

/-! ### Slot states (R374) -/

def slStaged : Nat := 1
def slTrial : Nat := 2
def slConfirmed : Nat := 3
def slRejected : Nat := 4

/-- Byte offset of a state record. -/
def stateAddr (slot i : Nat) : Nat := slot * 0x1000000 + 0xFF0000 + 32 * i

/-- The valid state records of a slot: STATE and SEQ. -/
def Chip.slotRecords (c : Chip) (slot : Nat) : List (Nat × Nat) :=
  (List.range 2048).filterMap (fun i =>
    let l := c.flashRead (stateAddr slot i) 32
    if ofLe (l.take 4) = 0x534C4F54 && ofLe (slice l 28 4) = crc32 (l.take 28) then some (ofLe (slice l 4 1), ofLe (slice l 8 4)) else none)

/-- The latest of records. -/
def latest (l : List (Nat × Nat)) : Option (Nat × Nat) :=
  l.foldl (fun b r => match b with | none => some r | some x => if seqLater r.2 x.2 then some r else some x) none

/-- The state of a slot with its SEQ; none is EMPTY. -/
def Chip.slotState (c : Chip) (slot : Nat) : Option (Nat × Nat) := latest (c.slotRecords slot)

/-- A state record is appended at the lowest erased position, its SEQ one later than the latest of either slot (R374). -/
def Chip.slotAppend (c : Chip) (slot st : Nat) : Chip :=
  let seq := match latest (c.slotRecords 0 ++ c.slotRecords 1) with | none => 0 | some r => (r.2 + 1) % 2 ^ 32
  match (List.range 2048).find? (fun i => (c.flashRead (stateAddr slot i) 32).all (· = 0xFF)) with
  | none => c.raise E.FLASH_ERR
  | some i =>
    let l := leBytes 4 0x534C4F54 ++ leBytes 4 st ++ leBytes 4 seq ++ leBytes 4 (imgVersion (c.slotRd slot)) ++ List.replicate 12 0
    c.flashProgram (stateAddr slot i) (l ++ leBytes 4 (crc32 l))

/-- The slot that runs, and the other. -/
def Chip.runSlot (c : Chip) : Nat := c.get F.UPDATE_STATUS_RUN_SLOT
def Chip.otherSlot (c : Chip) : Nat := 1 - c.runSlot

/-! ### Boot choice (R375, R389) -/

/-- The slots the boot ROM tries, in order. -/
def Chip.bootOrder (c : Chip) : List Nat :=
  match c.get F.DEVICE_STRAPS_BOOT_SEL with
  | 1 => [0]
  | 2 => [1]
  | 3 => []
  | _ =>
    let may := fun s => match c.slotState s with | some (st, q) => if st = slTrial || st = slConfirmed then some q else none | none => none
    match may 0, may 1 with
    | some a, some b => if seqLater a b then [0, 1] else [1, 0]
    | some _, none => [0]
    | none, some _ => [1]
    | none, none => []

/-- A slot the ROM cannot run: REJECTED where the choice is normal; a rejected trial is a rollback (R375, R389). -/
def Chip.bootReject (c : Chip) (slot : Nat) (trial : Bool) : Chip :=
  if c.get F.DEVICE_STRAPS_BOOT_SEL = 0 then
    let c := c.slotAppend slot slRejected
    if trial then { c with aon := { c.aon with rollback := true } } else c
  else c

/-- The ROM tries slots in order; with none left it enters recovery (R67, R375). A rollback in an image's place holds the change of tables; at a
start after a reset nothing is lit to be held (R382). -/
def Chip.bootTry : List Nat → Chip → Chip
  | [], c =>
    let c := c.setBelfry { c.belfry with running := false }
    { c with host := { c.host with recovery := true, recoveryImage := [], recoveryLen := 0 } }
  | s :: t, c =>
    let normal := decide (c.get F.DEVICE_STRAPS_BOOT_SEL = 0)
    let trial := decide ((c.slotState s).map (·.1) = some slTrial)
    if normal && trial && c.aon.dogEarly then
      Chip.bootTry t ({ c with aon := { c.aon with dogEarly := false } }.bootReject s true)
    else if imgRomOk c.build (c.slotRd s) then
      let c := c.set F.UPDATE_STATUS_RUN_SLOT s
      let c := c.set F.UPDATE_RUN_VERSION_VERSION (imgVersion (c.slotRd s))
      let c := (c.set F.UPDATE_STATUS_TRIAL (b2n (normal && trial))).cond E.UPDATE_TRIAL (normal && trial)
      let c := c.setUpd { c.upd with
        settingsFmt := imgSettingsFmt (c.slotRd s),
        holdDue := c.upd.holdDue || (c.aon.rollback && c.belfry.running && decide (c.upd.tablesId ≠ imgTablesId (c.slotRd s))),
        tablesId := imgTablesId (c.slotRd s) }
      let c := { c with aon := { c.aon with dogEarly := false } }
      let c := { c with host := { c.host with recovery := false } }.set F.USB4_LINK_USB2_UP 0
      c.setBelfry { c.belfry with running := true }
    else Chip.bootTry t (c.bootReject s trial)

def Chip.bootSelect (c : Chip) : Chip := Chip.bootTry c.bootOrder c

/-! ### Journaled copies (R371) -/

def arSettings : Nat := 1
def arCalib : Nat := 2
def arHold : Nat := 3
def arDose : Nat := 4

/-- Where a copy lies, and the size of a copy (R370). -/
def areaSize (area : Nat) : Nat := match area with | 3 => 0x40000 | 4 => 0x200000 | _ => 0x100000
def areaAddr (area index copy : Nat) : Nat :=
  (match area with | 1 => 0x02000000 | 2 => 0x02200000 | 3 => 0x02400000 + index * 0x80000 | _ => 0x02600000) + copy * areaSize area

/-- A valid copy: FORMAT, SEQ and payload length. -/
structure CopyInfo where
  format : Nat
  seq : Nat
  length : Nat
deriving DecidableEq, Repr

/-- The copy of an area, where MAGIC, HCRC, PCRC and COMMIT are all right (R371). -/
def Chip.copyInfo (c : Chip) (area index copy : Nat) : Option CopyInfo :=
  let a := areaAddr area index copy
  let h := c.flashRead a 64
  let len := ofLe (slice h 12 4)
  if ofLe (h.take 4) = 0x4A435059 && ofLe (slice h 60 4) = 0x434F4D54 && ofLe (slice h 20 4) = crc32 (h.take 20) &&
      decide (len ≤ areaSize area - 64) && ofLe (slice h 16 4) = crc32 (c.flashRead (a + 64) len) then
    some { format := ofLe (slice h 6 2), seq := ofLe (slice h 8 4), length := len }
  else none

/-- The newest valid copy of an area. -/
def Chip.newestCopy (c : Chip) (area index : Nat) : Option (Nat × CopyInfo) :=
  match c.copyInfo area index 0, c.copyInfo area index 1 with
  | some a, some b => if seqLater b.seq a.seq then some (1, b) else some (0, a)
  | some a, none => some (0, a)
  | none, some b => some (1, b)
  | none, none => none

/-- The payload of a copy. -/
def Chip.copyPayload (c : Chip) (area index copy : Nat) (i : CopyInfo) : List Byte := c.flashRead (areaAddr area index copy + 64) i.length

/-- A copy that is neither valid nor erased (R372). -/
def Chip.copyBroken (c : Chip) (area index copy : Nat) : Bool :=
  (c.copyInfo area index copy).isNone && c.belfry.flash.any (fun p =>
    decide (areaAddr area index copy ≤ p.1) && decide (p.1 < areaAddr area index copy + areaSize area))

/-- The SEQ of the next copy. -/
def Chip.nextSeq (c : Chip) (area index : Nat) : Nat := match c.newestCopy area index with | some (_, i) => (i.seq + 1) % 2 ^ 32 | none => 0

/-- The copy a write goes to: not the newest valid one; while a migration awaits CONFIRM, settings go to the migrated position (R371, R384). -/
def Chip.targetCopy (c : Chip) (area index : Nat) : Nat :=
  if area = arSettings && c.on F.SETTINGS_STATUS_MIGRATED then c.get F.SETTINGS_STATUS_COPY
  else match c.newestCopy area index with | some (k, _) => 1 - k | none => 0

/-- The header of a copy, bytes 0 to 23 (R371). -/
def copyHeader (area index format seq : Nat) (payload : List Byte) : List Byte :=
  let h := leBytes 4 0x4A435059 ++ leBytes 1 area ++ leBytes 1 index ++ leBytes 2 format ++ leBytes 4 seq ++ leBytes 4 payload.length ++
    leBytes 4 (crc32 payload)
  h ++ leBytes 4 (crc32 h)

/-- The copy is committed, or its read-back has failed. -/
def Chip.commitCopy (c : Chip) (area index copy : Nat) (ok : Bool) : Chip :=
  if ok then c.flashProgram (areaAddr area index copy + 60) (leBytes 4 0x434F4D54) else c.raise E.JOURNAL_FAIL

/-- Steps 2 and 3 of a journaled write: the target is erased; payload and header are programmed (R371). -/
def Chip.layCopy (c : Chip) (area index k format seq : Nat) (payload : List Byte) : Chip :=
  let a := areaAddr area index k
  let c := c.flashErase a (areaSize area)
  (c.flashProgram (a + 64) payload).flashProgram a (copyHeader area index format seq payload ++ List.replicate 36 0)

/-- Steps 4 and 5: read-back and COMMIT; a read-back that fails is retried once into the same copy (R371). -/
def Chip.finishCopy (c : Chip) (area index k : Nat) (lay : Chip → Chip) (ok1 ok2 : Bool) : Chip :=
  let c := c.commitCopy area index k ok1
  if ok1 then c else (lay c).commitCopy area index k ok2

/-- A journaled write into a copy (R371). -/
def Chip.writeCopyTo (c : Chip) (area index k format : Nat) (payload : List Byte) (ok1 ok2 : Bool) : Chip :=
  let seq := c.nextSeq area index
  let lay := fun (c : Chip) => c.layCopy area index k format seq payload
  (lay c).finishCopy area index k lay ok1 ok2

/-- A journaled write, into the copy that R371 chooses. -/
def Chip.writeCopy (c : Chip) (area index format : Nat) (payload : List Byte) (ok1 ok2 : Bool) : Chip :=
  c.writeCopyTo area index (c.targetCopy area index) format payload ok1 ok2

/-! ### Interruptions (R350, R372) -/

/-- A journaled write that is interrupted: its target stays without COMMIT, and is found invalid. DESIGN CHOICE (assumption log 176): of the copy
its header stands, with no payload. -/
def Chip.interruptCopy (c : Chip) (area index k : Nat) : Chip :=
  c.layCopy area index k c.upd.settingsFmt (c.nextSeq area index) []

/-- The block that WRITE named is cut short: an open number of its pages are programmed, and the page in progress is completed, or else holds open
bytes (R361, R372). -/
def Chip.cutBlock (c : Chip) (completed : Bool) : Chip :=
  match c.upd.writing with
  | none => c
  | some (ofs, len, block) =>
    let n := Config.free c.free % max 1 (len / 256)
    let base := c.otherSlot * 0x1000000 + ofs
    let page := fun (i : Nat) => (List.range 64).flatMap (fun k => leBytes 4 (smGet 0 block (64 * i + k)).toNat)
    let prog := fun (c : Chip) (i : Nat) (l : List Byte) => if smGet false c.upd.programmed (ofs / 256 + i) then c else c.flashProgram (base + 256 * i) l
    let c := (List.range n).foldl (fun c i => prog c i (page i)) { c with free := c.free + 2 }
    prog c n (if completed then page n else leBytes 256 (Config.free (c.free - 1)))

/-- The flash program or erase in progress is aborted: the previous copies stay, and what was being gathered is lost (R350, R372). A holding image
or calibration coming in keeps no header, and so no COMMIT. -/
def Chip.interruptFlash (c : Chip) : Chip :=
  let c := c.cutBlock false
  let c := match c.belfry.migrate with
    | some (k, _) => c.interruptCopy arSettings 0 (1 - k)
    | none => if c.on F.SETTINGS_STATUS_SAVING then c.interruptCopy arSettings 0 (c.targetCopy arSettings 0) else c
  let c := if c.belfry.journal.contains (arDose, 0) then c.interruptCopy arDose 0 (c.targetCopy arDose 0) else c
  let c := c.setBelfry { c.belfry with journal := [], migrate := none }
  let c := { c with upd := { c.upd with gather := [], index := 0, writing := none, calSession := none, calOpen := false, calGather := [], calPages := [] } }
  (c.set F.UPDATE_STATUS_BLOCK_BUSY 0).set F.SETTINGS_STATUS_SAVING 0

/-! ### Restarts of the Belfry (R349, R350) -/

/-- A Belfry restart begins: the cores are reset, the Belfry SRAM with its log buffer is refilled, UNLOCK is cleared, a flash program or erase
under way is aborted; the always-on domain latches the cause (R350, R351, R368). -/
def Chip.belfryDown (c : Chip) (cause : Nat) : Chip :=
  let c := (c.setUnlock false).setHalted false
  let c := c.belfryFill.interruptFlash
  let c := c.setBelfry { c.belfry with down := some cause, logBuf := [] }
  let c := { c with aon := { c.aon with restart := cause }, host := { c.host with held := c.host.held.filter (fun h => decide (h.origin ≠ Origin.belfry)) } }
  (c.set F.BELFRY_STATUS_CAUSE cause).bump F.BELFRY_STATUS_RESTARTS

/-- A watchdog restart; one within 10 s of the start of an image on trial is held in the always-on domain (R349, R375). -/
def Chip.dogRestart (c : Chip) : Chip :=
  let early := c.on F.UPDATE_STATUS_TRIAL && decide (c.uptime < 10)
  { c with aon := { c.aon with dogEarly := c.aon.dogEarly || early } }.belfryDown 1

/-! ### UPDATE: its states -/

/-- States of UPDATE (R379). -/
def usIdle : Nat := 0
def usErasing : Nat := 1
def usOpen : Nat := 2
def usVerifying : Nat := 3
def usVerified : Nat := 4
def usFailed : Nat := 5
def usActivating : Nat := 6
def updPage : Nat := 0x0F0

def Chip.setUpdState (c : Chip) (st : Nat) : Chip := c.set (F.STATE.pg updPage) st

/-! ### Commands of UPDATE (R376 to R382) -/

/-- FAIL_CODE is set and UPDATE_FAIL raised. -/
def Chip.updFail (c : Chip) (code : Nat) : Chip := (c.set F.UPDATE_STATUS_FAIL_CODE code).raise E.UPDATE_FAIL

/-- The image on trial. -/
def Chip.onTrial (c : Chip) : Bool := c.on F.UPDATE_STATUS_TRIAL

/-- OPEN: accepted in IDLE, VERIFIED and FAILED, not while the running image is on trial (R376, R379). The slot reads erased from here on: one
whose erase is interrupted is no longer STAGED (R372; assumption log 167). -/
def Chip.updOpen (c : Chip) : Chip :=
  let st := c.state updPage
  if (st = usIdle || st = usVerified || st = usFailed) && !c.onTrial then
    let c := (c.setUpdState usErasing).set F.UPDATE_STAGED_VERSION_VERSION 0
    let c := c.flashErase (c.otherSlot * 0x1000000) 0x1000000
    c.logUpd 1 (c.get F.UPDATE_RUN_VERSION_VERSION)
  else c.updFail 1

/-- The erase ends and UPDATE is OPEN; a flash error fails it (R376, R379). -/
def Chip.updErased (c : Chip) (flashOk : Bool) : Chip :=
  if c.state updPage ≠ usErasing || !c.belfryUp then c
  else if !flashOk then ((c.setUpdState usFailed).raise E.FLASH_ERR).updFail 5
  else
    let c := c.setUpd { c.upd with programmed := [], gather := [], index := 0, block := [], writing := none }
    ((c.set F.UPDATE_PAGES_PAGES 0).wr F.UPDATE_MISSING_COUNT.addr 0).setUpdState usOpen

/-- The next word of the staging block (UPDATE.BLOCK_DATA). -/
def Chip.blockData (c : Chip) (w : Word) : Chip :=
  if c.upd.index < 1024 then c.setUpd { c.upd with block := smSet c.upd.block c.upd.index w, index := c.upd.index + 1 } else c

/-- A page of the staged slot is programmed unless it has been since OPEN (R376). -/
def Chip.stagePage (c : Chip) (page : Nat) (bytes : List Byte) : Chip :=
  if smGet false c.upd.programmed page then c
  else
    let c := c.flashProgram (c.otherSlot * 0x1000000 + 256 * page) bytes
    (c.setUpd { c.upd with programmed := smSet c.upd.programmed page true }).bump F.UPDATE_PAGES_PAGES

/-- MISSING: once block 0 has arrived, the first page below LENGTH not programmed and how many there are (R377). -/
def Chip.showMissing (c : Chip) : Chip :=
  if (List.range 16).all (fun i => smGet false c.upd.programmed i) then
    let len := imgLength (c.slotRd c.otherSlot)
    let miss := (List.range (min 65536 (len / 256))).filter (fun i => !smGet false c.upd.programmed i)
    (c.set F.UPDATE_MISSING_COUNT miss.length).set F.UPDATE_MISSING_FIRST (miss.headD 0)
  else c

/-- WRITE: the block in the buffer is to be programmed; one beyond the image area is refused with FAIL_CODE 6 (R376). -/
def Chip.updWrite (c : Chip) : Chip :=
  if c.state updPage ≠ usOpen || c.on F.UPDATE_STATUS_BLOCK_BUSY then c.updFail 1
  else if 16711680 < c.get F.UPDATE_BLOCK_OFFSET_OFFSET + c.get F.UPDATE_BLOCK_LEN_LEN then c.updFail 6
  else (c.set F.UPDATE_STATUS_BLOCK_BUSY 1).setUpd { c.upd with
    index := 0, writing := some (c.get F.UPDATE_BLOCK_OFFSET_OFFSET, c.get F.UPDATE_BLOCK_LEN_LEN, c.upd.block) }

/-- The block that WRITE named is programmed, page by page; a flash error fails the staging (R376, R379). -/
def Chip.blockDone (c : Chip) (flashOk : Bool) : Chip :=
  if !c.belfryUp then c
  else match c.upd.writing with
    | none => c
    | some (ofs, len, block) =>
      let c := (c.set F.UPDATE_STATUS_BLOCK_BUSY 0).setUpd { c.upd with writing := none }
      if !flashOk then ((c.setUpdState usFailed).raise E.FLASH_ERR).updFail 5
      else
        let c := (List.range (len / 256)).foldl (fun c i =>
          c.stagePage (ofs / 256 + i) ((List.range 64).flatMap (fun k => leBytes 4 (smGet 0 block (64 * i + k)).toNat))) c
        c.showMissing

/-- Bytes gathered into the pages of a buffer; the page of each byte must stand in it or find room. -/
def gatherByte (max : Nat) (l : List PageBuf) (a : Nat) (b : Byte) : Option (List PageBuf) :=
  match l.find? (fun p => p.page = a / 256) with
  | some _ => some (l.map (fun p => if p.page = a / 256 then { p with bytes := smSet p.bytes (a % 256) b } else p))
  | none => if l.length < max then some (l ++ [{ page := a / 256, bytes := [(a % 256, b)] }]) else none

/-- The bytes of a gathered page. -/
def PageBuf.full (p : PageBuf) : Bool := decide (256 ≤ p.bytes.length)
def PageBuf.data (p : PageBuf) : List Byte := p.bytes.map (·.2)

/-- A BULK cell of AREA 0 whose SESSION is the tile's: its bytes are gathered, full pages programmed; outside OPEN, or where a new page finds
no room, it is discarded and counted, as is one that comes while the Belfry does not serve (R350, R377). -/
def Chip.bulkStage (c : Chip) (cell : Nat) : Chip :=
  let ofs := bulkOffset cell
  let bytes := bulkBytes cell
  if bulkSession cell ≠ c.get F.UPDATE_SESSION_SESSION then c
  else if c.state updPage ≠ usOpen || !c.belfryUp || 16711680 < ofs + bytes.length then c.bumpSat F.UPDATE_DROPPED_DROPPED
  else
    let want := (List.range bytes.length).filter (fun i => !smGet false c.upd.programmed ((ofs + i) / 256))
    match want.foldl (fun (l : Option (List PageBuf)) i => l.bind (fun l => gatherByte 1024 l (ofs + i) (bytes.getD i 0))) (some c.upd.gather) with
    | none => c.bumpSat F.UPDATE_DROPPED_DROPPED
    | some l =>
      let c := c.setUpd { c.upd with gather := l.filter (fun p => !p.full) }
      ((l.filter PageBuf.full).foldl (fun c p => c.stagePage p.page p.data) c).showMissing

/-- VERIFY is accepted in OPEN (R379). -/
def Chip.updVerify (c : Chip) : Chip := if c.state updPage = usOpen then c.setUpdState usVerifying else c.updFail 1

/-- The check ends: STAGED and VERIFIED, or FAILED with its code (R379). -/
def Chip.verifyDone (c : Chip) (flashOk : Bool) : Chip :=
  if c.state updPage ≠ usVerifying || !c.belfryUp then c
  else
    let code := if flashOk then imgCheck c.build (c.slotRd c.otherSlot) else 5
    let v := imgVersion (c.slotRd c.otherSlot)
    if code = 0 then
      let c := (c.slotAppend c.otherSlot slStaged).set F.UPDATE_STAGED_VERSION_VERSION v
      (((c.set F.UPDATE_STATUS_FAIL_CODE 0).setUpdState usVerified).logUpd 2 v).raise E.UPDATE_READY
    else
      let c := if code = 5 then c.raise E.FLASH_ERR else c
      ((c.setUpdState usFailed).logUpd 3 v).updFail code

/-- ABORT is accepted in OPEN and FAILED (R379). -/
def Chip.updAbort (c : Chip) : Chip :=
  if c.state updPage = usOpen || c.state updPage = usFailed then
    (c.setUpdState usIdle).setUpd { c.upd with gather := [], index := 0 }
  else c.updFail 1

/-- Bars held after an activation: H = ceil(300 ms ÷ bar period) + 1 (R381). -/
def holdBars (p12 : Nat) : Nat := ceilDiv 3600000000 (max 1 p12) + 1

/-- A hold of table changes begins at a bar: the hold bar is H bars on (R381). -/
def Chip.tableHold (c : Chip) : Chip :=
  c.setUpd { c.upd with holdBar := some ((c.barCount + holdBars (period12 c.mode)) % 2 ^ 32), holdDue := false }

/-- ACTIVATE is accepted in VERIFIED: log, TRIAL, restart with cause 4; a change of tables is held from this bar on (R380, R381). -/
def Chip.updActivate (c : Chip) : Chip :=
  if c.state updPage ≠ usVerified then c.updFail 1
  else
    let slot := c.otherSlot
    let c := c.setUpdState usActivating
    let c := (c.logUpd 4 (imgVersion (c.slotRd slot))).logFlush
    let c := c.slotAppend slot slTrial
    let c := if imgTablesId (c.slotRd slot) = c.upd.tablesId then c else c.tableHold
    c.belfryDown 4

/-- CONFIRM appends CONFIRMED to a slot on trial; it ends a migration (R382, R384). -/
def Chip.updConfirm (c : Chip) : Chip :=
  if !c.onTrial then c
  else
    let c := c.slotAppend c.runSlot slConfirmed
    let c := (c.set F.UPDATE_STATUS_TRIAL 0).cond E.UPDATE_TRIAL false
    (c.set F.SETTINGS_STATUS_MIGRATED 0).logUpd 5 (c.get F.UPDATE_RUN_VERSION_VERSION)

/-- The confirmation timeout as it acts. -/
def Chip.confirmTimeout (c : Chip) : Nat := max 1 (c.get F.UPDATE_CONFIRM_TIMEOUT_S)

/-- UPDATE.CONFIRM.LEFT. -/
def Chip.trialLeft (c : Chip) : Nat := if c.onTrial then c.confirmTimeout - c.uptime else 0

/-- The timeout of a trial: REJECTED, a restart with cause 4, and a hold of the table change at the first bar after it (R382). -/
def Chip.confirmExpire (c : Chip) : Chip :=
  if !c.onTrial || !c.belfryUp then c
  else
    let c := c.slotAppend c.runSlot slRejected
    let c := { c with aon := { c.aon with rollback := true } }
    let c := (c.set F.UPDATE_STATUS_TRIAL 0).cond E.UPDATE_TRIAL false
    c.belfryDown 4

/-- What a bar start does with holds: a hold due is taken, the hold bar raises TABLE_HOLD; it is forgotten when the lit bar after it, whose builds
fill while it lasts, has ended (R381). -/
def Chip.holdAtBar (c : Chip) : Chip :=
  let c := if c.upd.holdDue && c.belfry.down.isNone then c.tableHold else c
  match c.upd.holdBar with
  | none => c
  | some k =>
    if c.barCount = k then c.raise E.TABLE_HOLD
    else if c.barCount ≠ (k + 1) % 2 ^ 32 && decide ((c.barCount + 2 ^ 32 - k) % 2 ^ 32 < 2 ^ 31) then c.setUpd { c.upd with holdBar := none }
    else c

/-- No PIXEL cells are sent in the bar being scanned (R381). -/
def Chip.tableHeld (c : Chip) : Bool := c.upd.holdBar = some c.barCount

/-- A build of this lit bar takes no cells: the tile loads its tables while it is open (R381). -/
def Chip.tableBuild (c : Chip) (litBar : Nat) : Bool := c.upd.holdBar.any (fun k => decide (litBar = (k + 1) % 2 ^ 32))

/-! ### The BULK transmitter (R378) -/

/-- SEND starts the transmitter (S build). -/
def Chip.bulkSend (c : Chip) : Chip :=
  match c.build with
  | .T => c
  | .S =>
    if c.on F.UPDATE_STATUS_BULK_BUSY then c.updFail 1
    else if c.get F.UPDATE_BULK_LEN = 0 then c
    else (c.set F.UPDATE_STATUS_BULK_BUSY 1).setUpd { c.upd with bulkOfs := 0 }

/-- The next cell of the transmitter: up to 48 bytes of DRAM, on every port set in PORTS (R201, R378). -/
def Chip.bulkCell (c : Chip) : Chip :=
  let done := c.upd.bulkOfs
  let n := min 48 (c.get F.UPDATE_BULK_LEN - done)
  let a := c.get F.UPDATE_BULK_ADDR * 16 + done
  if !c.on F.UPDATE_STATUS_BULK_BUSY || decide (c.get F.UPDATE_BULK_LEN ≤ done) || c.readStalls dmChain a n then c
  else
    let r := c.dramRead dmChain a n
    let c := r.2
    let pay := pf 128 (ofLe r.1.1) 384 + pf 112 (c.get F.UPDATE_BULK_SESSION_SESSION) 16 + pf 80 (c.get F.UPDATE_BULK_OFS + done) 32 + pf 72 n 8 +
      pf 65 (c.get F.UPDATE_BULK_DEST_AREA) 3 + pf 64 (c.get F.UPDATE_BULK_DEST_GROUP) 1
    let cell := mkCell { ctype := ctBulk, tile := c.get F.UPDATE_BULK_DEST_TILE_ID, active := c.actBit } pay
    let ports := (List.range 16).filter (fun p => c.get F.UPDATE_BULK_SESSION_PORTS / 2 ^ p % 2 = 1)
    let c := ports.foldl (fun c p =>
      if c.tilePort p && c.portCarries p then
        let x := c.withSeq p cell
        x.2.setPort p { x.2.port p with qBulk := (x.2.port p).qBulk ++ [x.1] }
      else c) c
    (c.setUpd { c.upd with bulkOfs := done + n }).bulkSettled

/-! ### Settings records (R383) -/

/-- A settings record. -/
structure SetRec where
  typ : Nat
  format : Nat
  addr : Nat
  words : List Nat
deriving DecidableEq, Repr

def SetRec.encode (r : SetRec) : List Byte :=
  leBytes 1 r.typ ++ leBytes 1 r.format ++ leBytes 2 r.words.length ++ leBytes 4 r.addr ++ r.words.flatMap (leBytes 4)

/-- The records of a payload. -/
def setDecode : Nat → List Byte → List SetRec
  | 0, _ => []
  | n + 1, l =>
    if l.length < 8 then []
    else
      let k := ofLe (slice l 2 2)
      { typ := ofLe (l.take 1), format := ofLe (slice l 1 1), addr := ofLe (slice l 4 4),
        words := (List.range k).map (fun i => ofLe (slice l (8 + 4 * i) 4)) } :: setDecode n (l.drop (8 + 4 * k))

/-- Registers with a field that the specification loads from the settings. -/
def Chip.settingsRegs (c : Chip) : List Nat :=
  [F.EVENTS_ALERT_MASK_MASK.addr, F.THERMAL_MASK_MASK.addr, F.UPDATE_CONFIRM_TIMEOUT_S.addr] ++
    c.sensors.map (fun n => F.THERMAL_SCFG_OFFSET.addr + 4 * n) ++
    (match c.build with
      | .S => [F.ETH_MAC_LO_MAC_LO.addr, F.ETH_MAC_LO_MAC_LO.addr + 4, F.ETH_MAC_LO_MAC_LO.addr + 4096, F.ETH_MAC_LO_MAC_LO.addr + 4100]
      | .T => [F.TILERX_HOLD_VALID_LO_LO.addr, F.TILERX_HOLD_VALID_HI_HI.addr, F.DRIVECTL_CEILING_UA.addr])

/-- The remap entries that are valid: bank words and DRAM rows (R320, R383). -/
def Chip.remapRecords (c : Chip) (fmt : Nat) : List SetRec :=
  let bank := (List.range 64).filterMap (fun i =>
    let a := 0x0D0080 + 4096 * (i / 8) + 4 * (i % 8)
    if (c.rd a).getLsbD 31 then some { typ := 3, format := fmt, addr := a, words := [(c.rd a).toNat] } else none)
  let dram := (List.range 64).filterMap (fun i =>
    let w := c.dremap (i / 16) (i % 16)
    if w.getLsbD 31 then some { typ := 3, format := fmt, addr := dremapAddr (i / 16) (i % 16), words := [w.toNat] } else none)
  bank ++ dram

/-- Tables behind an address register whose data registers follow it, loaded from the settings: each entry is a run of the address register and its
data, and a last run puts the address register back (R383). -/
def windowRuns (fmt addr back : Nat) (entries : List (Nat × List Nat)) : List SetRec :=
  entries.map (fun x => { typ := 1, format := fmt, addr := addr, words := x.1 :: x.2 }) ++ [{ typ := 1, format := fmt, addr := addr, words := [back] }]

/-- The dose curves and the trim codes of a tile as records of the settings (R249, R266, R383). -/
def Chip.tableRecords (c : Chip) (fmt : Nat) : List SetRec :=
  match c.build with
  | .S => []
  | .T =>
    windowRuns fmt F.DOSE_CURVE_ADDR_COLOUR.addr (c.rd F.DOSE_CURVE_ADDR_COLOUR.addr).toNat
      ((List.range 48).map (fun k => (k, [smGet 0 c.tile.curveDose k, smGet 0 c.tile.curveLum k]))) ++
    (List.range 4).flatMap (fun b =>
      windowRuns fmt (F.BAND_TRIM_ADDR_CH.addr + 4096 * b) (c.rd (F.BAND_TRIM_ADDR_CH.addr + 4096 * b)).toNat
        ((List.range 2304).map (fun i => (i / 576 * 4096 + i % 576, [smGet 0 c.drive.trim (2304 * b + i)]))))

/-- Seconds by the clock of TIME since power-on. -/
def Chip.clockS (c : Chip) : Nat := c.time.ticks28 / (2 ^ 28 * 1000000000)

/-- The lane sets have been stored less than an hour ago (R216). -/
def Chip.lanesWait (c : Chip) : Bool := match c.belfry.lanesStored with | some t => decide (c.clockS < t + 3600) | none => false

/-- The lane calibration sets as records of the settings (R216). -/
def Chip.laneRecords (c : Chip) (fmt : Nat) : List SetRec :=
  (List.range c.numPorts).map (fun p =>
    { typ := 2, format := fmt, addr := 0x08007C + 4096 * p, words := (List.range 12).map (fun i => (smGet 0 (c.port p).cal (4 * (i / 3) + i % 3)).toNat) })

/-- The newest readable settings copy: valid, FORMAT not above the image's (R384). -/
def Chip.readableSettings (c : Chip) : Option (Nat × CopyInfo) :=
  let ok := fun k => (c.copyInfo arSettings 0 k).filter (fun i => decide (i.format ≤ c.upd.settingsFmt))
  match ok 0, ok 1 with
  | some a, some b => if seqLater b.seq a.seq then some (1, b) else some (0, a)
  | some a, none => some (0, a)
  | none, some b => some (1, b)
  | none, none => none

/-- The records of the newest readable copy. -/
def Chip.storedRecords (c : Chip) : List SetRec :=
  match c.readableSettings with
  | none => []
  | some (k, i) => let l := c.copyPayload arSettings 0 k i; setDecode l.length l

/-- The lane sets that a copy gets: those of now, or, where they have changed within an hour of their last storing, those stored (R216). -/
def Chip.lanesToStore (c : Chip) (fmt : Nat) : List SetRec :=
  if c.belfry.lanesDirty && c.lanesWait then c.storedRecords.filter (fun r => r.typ = 2) else c.laneRecords fmt

/-- The settings payload of the present settings (R216, R383). -/
def Chip.settingsPayload (c : Chip) : List Byte :=
  let fmt := c.upd.settingsFmt
  let listed := (c.upd.saveList.map (·.2)).filter (fun a => a ≠ 0)
  let regs := c.settingsRegs ++ listed.filter (fun a => !c.settingsRegs.contains a)
  let recs : List SetRec := c.remapRecords fmt ++ regs.map (fun a => { typ := 1, format := fmt, addr := a, words := [(c.rd a).toNat] }) ++
    c.tableRecords fmt ++ c.lanesToStore fmt ++
    [{ typ := 4, format := fmt, addr := 0, words := (List.range 1024).map (fun i => smGet 0 c.upd.saveList i) }]
  recs.flatMap SetRec.encode

/-- The payload of a copy that brings the lane sets alone up to date: the other records of the copy in use stay (R216). -/
def Chip.lanesPayload (c : Chip) : List Byte :=
  (c.storedRecords.filter (fun r => r.typ ≠ 2) ++ c.laneRecords c.upd.settingsFmt).flatMap SetRec.encode

/-- The copy in use is shown (SETTINGS.STATUS, SEQ). -/
def Chip.showCopy (c : Chip) (k : Nat) (i : CopyInfo) : Chip :=
  ((c.set F.SETTINGS_STATUS_COPY k).set F.SETTINGS_STATUS_FORMAT i.format).set F.SETTINGS_SEQ_SEQ i.seq

/-- What a settings write shows. -/
def Chip.showSettings (c : Chip) : Chip := match c.newestCopy arSettings 0 with | none => c | some (k, i) => c.showCopy k i

/-- SAVE asks for a settings copy (R383). -/
def Chip.settingsSave (c : Chip) : Chip := c.set F.SETTINGS_STATUS_SAVING 1

/-- A settings copy with a payload is written, shown and logged with its SEQ (R371, R383, R385). -/
def Chip.putSettings (c : Chip) (payload : List Byte) (ok1 ok2 : Bool) : Chip :=
  let c := c.writeCopy arSettings 0 c.upd.settingsFmt payload ok1 ok2
  if ok1 || ok2 then
    let c := c.showSettings
    c.logUpd 7 (c.get F.SETTINGS_SEQ_SEQ)
  else c

/-- The lane sets count as stored now, unless a copy keeps the older ones (R216). -/
def Chip.lanesPut (c : Chip) : Chip :=
  if c.belfry.lanesDirty && !c.lanesWait then c.setBelfry { c.belfry with lanesDirty := false, lanesStored := some c.clockS } else c

/-- The copy that SAVE asked for is written. -/
def Chip.writeSettings (c : Chip) (ok1 ok2 : Bool) : Chip := ((c.putSettings c.settingsPayload ok1 ok2).set F.SETTINGS_STATUS_SAVING 0).lanesPut

/-- The Belfry stores lane sets that have changed, once an hour at most (R216). -/
def Chip.writeLanes (c : Chip) (ok1 ok2 : Bool) : Chip :=
  if !c.belfry.lanesDirty || c.lanesWait then c else (c.putSettings c.lanesPayload ok1 ok2).lanesPut

/-- The converted copy of a migration is written to the position it was not read from; until CONFIRM settings go there (R371, R384). -/
def Chip.writeMigrated (c : Chip) (k : Nat) (payload : List Byte) (ok1 ok2 : Bool) : Chip :=
  let c := (c.setBelfry { c.belfry with migrate := none }).writeCopyTo arSettings 0 (1 - k) c.upd.settingsFmt payload ok1 ok2
  let c := c.set F.SETTINGS_STATUS_SAVING 0
  if ok1 || ok2 then
    let c := (c.showSettings).set F.SETTINGS_STATUS_MIGRATED (b2n c.onTrial)
    (c.raise E.SETTINGS_MIGRATED).logUpd 8 (c.get F.SETTINGS_SEQ_SEQ)
  else c

/-- A write of the settings area: a migration first, then what SAVE asked for, else lane sets that have changed. -/
def Chip.writeSetArea (c : Chip) (ok1 ok2 : Bool) : Chip :=
  match c.belfry.migrate with
  | some (k, payload) => c.writeMigrated k payload ok1 ok2
  | none => if c.on F.SETTINGS_STATUS_SAVING then c.writeSettings ok1 ok2 else c.writeLanes ok1 ok2

/-- An access of LIST_DATA: reads or writes the entry, and advances the index (SETTINGS.LIST_ADDR). -/
def Chip.listAdvance (c : Chip) : Chip := if c.on F.SETTINGS_LIST_ADDR_AUTO_INC then c.bump F.SETTINGS_LIST_ADDR_INDEX else c

def Chip.listWrite (c : Chip) (w : Word) : Chip :=
  (c.setUpd { c.upd with saveList := smPut 0 c.upd.saveList (c.get F.SETTINGS_LIST_ADDR_INDEX) (bitsOf w 23 0) }).listAdvance

def Chip.listRead (c : Chip) : Word × Chip := (BitVec.ofNat 32 (smGet 0 c.upd.saveList (c.get F.SETTINGS_LIST_ADDR_INDEX)), c.listAdvance)

/-! ### Starts of an image (R350, R379, R382) -/

/-- A start that follows a rollback: no migration awaits CONFIRM any more and the copy in use is the one this image reads; its record and
ROLLBACK (R382, R384; assumption log 172). -/
def Chip.rolledBack (c : Chip) : Chip :=
  let c := c.set F.SETTINGS_STATUS_MIGRATED 0
  let c := match c.readableSettings with
    | some (k, i) => if c.get F.RESET_BRINGUP_DONE / 32 % 2 = 1 then c.showCopy k i else c
    | none => c
  (c.logUpd 6 (c.get F.UPDATE_RUN_VERSION_VERSION)).raise E.ROLLBACK

/-- An image starts to run: its clock begins, UPDATE is VERIFIED where the other slot is STAGED and passes the check, and a rollback is
reported (R379, R382). -/
def Chip.imageStart (c : Chip) : Chip :=
  if !c.belfry.running then c
  else
    let c := c.setBelfry { c.belfry with upFrom := c.time.ticks28, down := none }
    let staged := decide ((c.slotState c.otherSlot).map (·.1) = some slStaged) && decide (imgCheck c.build (c.slotRd c.otherSlot) = 0)
    let c := c.setUpdState (if staged then usVerified else usIdle)
    let c := c.set F.UPDATE_STAGED_VERSION_VERSION (if staged then imgVersion (c.slotRd c.otherSlot) else 0)
    let back := c.aon.rollback
    let c := { c.set F.UPDATE_STATUS_ROLLED_BACK (b2n back) with aon := { c.aon with rollback := false } }
    if back then c.rolledBack else c

/-- The copies that a start finds neither valid nor erased, each reported once, with its SEQ as stored (R372, R385). -/
def Chip.noteBroken (c : Chip) : Chip :=
  let areas := match c.build with
    | .S => [(arSettings, 0)]
    | .T => [(arSettings, 0), (arCalib, 0), (arHold, 0), (arHold, 1), (arHold, 2), (arHold, 3), (arDose, 0)]
  (areas.flatMap (fun a => [(a, 0), (a, 1)])).foldl (fun c x =>
    if c.copyBroken x.1.1 x.1.2 x.2 then (c.raise E.JOURNAL_FAIL).logUpd 12 (ofLe (c.flashRead (areaAddr x.1.1 x.1.2 x.2 + 8) 4)) else c) c

/-- A restarted image runs: BELFRY_RESTART and its record (R350); copies that the restart left without COMMIT are found (R372). -/
def Chip.belfryBack (c : Chip) : Chip :=
  match c.belfry.down with
  | none => c
  | some cause =>
    if !c.belfry.running then c
    else
      let c := c.imageStart.noteBroken
      (c.logNow 4 0x008 cause (c.get F.UPDATE_RUN_VERSION_VERSION)).raise E.BELFRY_RESTART

/-! ### Calibration and holding images in flash (R244, R384) -/

/-- The CRC-32 that IDENTITY cells report, and whether a calibration copy is present (R204, R384). -/
def Chip.identity (c : Chip) : Identity :=
  match c.newestCopy arCalib 0 with
  | some (k, i) =>
    { calPresent := true, version := c.get F.UPDATE_RUN_VERSION_VERSION, calCrc := crc32 (c.copyPayload arCalib 0 k i) }
  | none => { calPresent := false, version := c.get F.UPDATE_RUN_VERSION_VERSION, calCrc := 0 }

/-- The copy of an area that is not the newest. -/
def Chip.otherCopy (c : Chip) (area index : Nat) : Nat := match c.newestCopy area index with | some (k, _) => 1 - k | none => 0

/-- A calibration copy whose pages have all been programmed waits for its read-back and COMMIT. -/
def Chip.calibWaits (c : Chip) : Bool := c.belfry.journal.contains (arCalib, 0)

/-- A BULK cell of AREA 1: a new SESSION starts a replacement of the non-newest copy; pages are programmed as they fill; when every page below
the LENGTH in the payload's first four bytes is, the header follows, and the copy waits for its COMMIT (R371, R384). Cells of a session that has
ended add nothing. -/
def Chip.bulkCalib (c : Chip) (cell : Nat) : Chip :=
  let s := bulkSession cell
  let new := decide (c.upd.calSession ≠ some s)
  if !c.belfryUp || (!new && !c.upd.calOpen) then c
  else
    let k := c.otherCopy arCalib 0
    let a := areaAddr arCalib 0 k
    let c := if !new then c
      else
        let c := (c.flashErase a (areaSize arCalib)).setUpd { c.upd with calSession := some s, calOpen := true, calGather := [], calPages := [] }
        c.setBelfry { c.belfry with journal := c.belfry.journal.filter (fun x => x ≠ (arCalib, 0)) }
    let ofs := bulkOffset cell
    let bytes := bulkBytes cell
    if areaSize arCalib - 64 < ofs + bytes.length then c
    else
      let want := (List.range bytes.length).filter (fun i => !smGet false c.upd.calPages ((ofs + i) / 256))
      match want.foldl (fun (l : Option (List PageBuf)) i => l.bind (fun l => gatherByte 4096 l (ofs + i) (bytes.getD i 0))) (some c.upd.calGather) with
      | none => c
      | some l =>
        let len := ofLe ((List.range 4).map (fun i => match l.find? (fun p => p.page = 0) with
          | some p => smGet 0 p.bytes i
          | none => (c.flashRead (a + 64) 4).getD i 0))
        let tail := fun (p : PageBuf) => p.full || (decide (p.page = len / 256) && decide (len % 256 ≤ p.bytes.length) && decide (0 < len % 256))
        let full := l.filter tail
        let c := full.foldl (fun c p => c.flashProgram (a + 64 + 256 * p.page) p.data) c
        let pages := full.foldl (fun m p => smSet m p.page true) c.upd.calPages
        let c := c.setUpd { c.upd with calGather := l.filter (fun p => !tail p), calPages := pages }
        if smGet false pages 0 && decide (0 < len) && decide (len ≤ areaSize arCalib - 64) && (List.range (ceilDiv len 256)).all (fun i => smGet false pages i) then
          let payload := c.flashRead (a + 64) len
          let c := c.flashProgram a (copyHeader arCalib 0 c.upd.settingsFmt (c.nextSeq arCalib 0) payload ++ List.replicate 36 0)
          let c := c.setUpd { c.upd with calOpen := false, calGather := [], calPages := [] }
          c.setBelfry { c.belfry with journal := c.belfry.journal ++ [(arCalib, 0)] }
        else c

/-- The replaced calibration copy is read back and committed, retried once where that fails; then the Belfry loads it (R250, R371, R384;
assumption log 142). -/
def Chip.commitCalib (c : Chip) (ok1 ok2 : Bool) : Chip :=
  let k := c.otherCopy arCalib 0
  let a := areaAddr arCalib 0 k
  let seq := c.nextSeq arCalib 0
  let payload := c.flashRead (a + 64) (ofLe (c.flashRead (a + 12) 4))
  let c := c.setBelfry { c.belfry with journal := c.belfry.journal.filter (fun x => x ≠ (arCalib, 0)) }
  let c := c.finishCopy arCalib 0 k (fun c => c.layCopy arCalib 0 k c.upd.settingsFmt seq payload) ok1 ok2
  if ok1 || ok2 then (c.setBelfry { c.belfry with calibDue := true }).logUpd 10 seq else c

/-- Holding image n is marked valid. -/
def Chip.holdValid (c : Chip) (n : Nat) : Bool :=
  if n < 32 then (c.rd F.TILERX_HOLD_VALID_LO_LO.addr).getLsbD n else (c.rd F.TILERX_HOLD_VALID_HI_HI.addr).getLsbD (n - 32)

/-- Base of a DRAM holding image (R244). -/
def Chip.holdBase (c : Chip) (n : Nat) : Nat := c.get F.TILERX_HOLD_DRAM_BASE_BASE * 256 + (n - 4) * 196608

/-- Bytes of a holding image are written from byte `o` of it: images 0 to 3 into the copy being replaced, opened by the first cell after the
valid bit was cleared; images 4 to 63 into DRAM (R244, R384). -/
def Chip.holdStore (c : Chip) (n o : Nat) (bytes : List Byte) : Chip :=
  if bytes.isEmpty then c
  else if n < 4 then
    if !c.belfryUp then c
    else
      let k := c.otherCopy arHold n
      let started := c.belfry.journal.contains (arHold, n)
      if !started && c.holdValid n then c
      else
        let c := if started then c
          else (c.flashErase (areaAddr arHold n k) (areaSize arHold)).setBelfry { c.belfry with
            journal := c.belfry.journal ++ [(arHold, n)], flash := (c.flashErase (areaAddr arHold n k) (areaSize arHold)).belfry.flash }
        c.flashProgram (areaAddr arHold n k + 64 + o) bytes
  else if 64 ≤ n || c.capacity = 0 then c
  else c.dramWrite dmBelfry (c.holdBase n + o) bytes

/-- A BULK cell of AREA 2 writes holding-image bytes; those past the end of an image are bytes of the next (R244). -/
def Chip.bulkHold (c : Chip) (cell : Nat) : Chip :=
  let n := bulkOffset cell / 196608
  let o := bulkOffset cell % 196608
  let l := bulkBytes cell
  (c.holdStore n o (l.take (196608 - o))).holdStore (n + 1) 0 (l.drop (196608 - o))

/-- The replaced copy of a holding image is committed once its valid bit is set (R384). -/
def Chip.writeHold (c : Chip) (n : Nat) (ok1 ok2 : Bool) : Chip :=
  if !c.belfry.journal.contains (arHold, n) || !c.holdValid n then c
  else
    let k := c.otherCopy arHold n
    let payload := c.flashRead (areaAddr arHold n k + 64) 196608
    let c := c.setBelfry { c.belfry with journal := c.belfry.journal.filter (fun x => x ≠ (arHold, n)) }
    c.writeCopy arHold n c.upd.settingsFmt payload ok1 ok2

/-- The bytes of a valid holding image, and whether any is poisoned: none where it has no store (R244). -/
def Chip.holdBytes (c : Chip) (n len : Nat) : Option (List Byte × Bool) × Chip :=
  if !c.holdValid n then (none, c)
  else if n < 4 then
    match c.newestCopy arHold n with
    | some (k, _) => (some (c.flashRead (areaAddr arHold n k + 64) len, false), c)
    | none => (none, c)
  else if c.capacity = 0 then (none, c)
  else
    let r := c.dramFetch dmBelfry (c.holdBase n) len
    (some r.1, r.2)

end Sys2Proof.Machine
end

