-- ==== Sys2Proof/Machine/MapMath.lean ====
section
/-! DEFINITION. The arithmetic of a canvas pixel, bit for bit: mesh, filter, colour, blend and encode (spec/06_mapping_engines.md, R139 to R149). -/

namespace Sys2Proof.Machine

/-- Arithmetic shift right. -/
def asr (x : Int) (n : Nat) : Int := x / 2 ^ n

/-- A value limited to 0 … m. -/
def clampNat (x : Int) (m : Nat) : Nat := (max 0 (min (m : Int) x)).toNat

/-! ### Table words by index (MAPCTL.TAB_ADDR) -/

/-- Where a filter coefficient stands. -/
def tabFilter (bank set phase tap : Nat) : Nat := 0x400 * bank + 0x200 * set + 8 * phase + tap
def tabDecode (set i : Nat) : Nat := 0x10000 + 0x1000 * set + i
def tabMatrix (set k j : Nat) : Nat := 0x18000 + 0x10 * set + 3 * k + j
def tabEncode (i : Nat) : Nat := 0x19000 + i

/-- The kind of a table word: filter, decode, matrix, encode, or reserved (none); its UNIT under R160. -/
def tabKind (i : Nat) : Option Nat :=
  if i < 0x1000 then (if i % 8 < 6 then some 0 else none)
  else if i < 0x10000 then none
  else if i < 0x18000 then some 1
  else if i < 0x18080 then (if i % 16 < 9 then some 2 else none)
  else if i < 0x19000 then none
  else if i < 0x1A000 then some 3
  else none

/-- Data bits of a table word. -/
def tabBits (i : Nat) : Nat := match tabKind i with | some 1 => 20 | some _ => 16 | none => 0

/-! ### Mesh (R139 to R141) -/

/-- Bytes of a vertex row of a canvas of width w. -/
def meshRow (w : Nat) : Nat := ceilDiv (ceilDiv w 32 + 1) 8 * 64

/-- Source position: x, y signed 16.8, and the presence mask. -/
structure Vertex where
  sx : Int
  sy : Int
  mask : Nat
deriving DecidableEq, Repr

def Vertex.ofNat (v : Nat) : Vertex := { sx := signed 24 (v / 2 ^ 40), sy := signed 24 (v / 2 ^ 16), mask := v / 256 % 256 }

/-- Bilinear interpolation in a block (R141). -/
def meshLerp (u v : Nat) (s00 s10 s01 s11 : Int) : Int :=
  let w00 : Int := Int.ofNat ((32 - u) * (32 - v))
  let w10 : Int := Int.ofNat (u * (32 - v))
  let w01 : Int := Int.ofNat ((32 - u) * v)
  let w11 : Int := Int.ofNat (u * v)
  asr (w00 * s00 + w10 * s10 + w01 * s01 + w11 * s11 + 512) 10

/-! ### Filter (R143 to R145) -/

/-- A position lies inside a source of a size (R143). -/
def inSource (s : Int) (size : Nat) : Bool := decide (-128 ≤ s) && decide (s < (size : Int) * 256 - 128)

/-- Index and phase of a position (R144). -/
def indexPhase (s : Int) : Int × Nat :=
  let p := ((s % 256).toNat + 2) / 4
  if p = 64 then (s / 256 + 1, 0) else (s / 256, p)

/-- Taps of an axis: n − 2 to n + 3, those outside taking the nearest edge (R143, R144). -/
def taps (n : Int) (size : Nat) : List Nat := (List.range 6).map (fun i => clampNat (n - 2 + i) (size - 1))

/-- Sum of products. -/
def dot : List Int → List Int → Int
  | a :: s, b :: t => a * b + dot s t
  | _, _ => 0

/-- The separable filter over six columns of six codes each, columns outermost (R144). -/
def filter6 (cv ch : List Int) (cols : List (List Nat)) : Nat :=
  let vt := cols.map (fun col => asr (dot cv (col.map Int.ofNat) + 2048) 12)
  clampNat (asr (dot ch vt + 32768) 16) 4095

/-! ### Colour (R146 to R149) -/

/-- Matrix constants of a YCbCr store: ky, oy, kr_cr, kg_cb, kg_cr, kb_cb. -/
def yccConst (bt2020 full : Bool) : Int × Int × Int × Int × Int × Int :=
  match bt2020, full with
  | false, false => (9574, 256, 14740, -1753, -4381, 17368)
  | false, true => (8192, 0, 12901, -1534, -3835, 15201)
  | true, false => (9574, 256, 13802, -1540, -5348, 17610)
  | true, true => (8192, 0, 12080, -1348, -4681, 15412)

/-- R'G'B' codes of Y, Cb, Cr codes (R146). -/
def yccToRgb (bt2020 full : Bool) (y cb cr : Nat) : List Nat :=
  let k := yccConst bt2020 full
  let yy := k.1 * ((y : Int) - k.2.1)
  let b := (cb : Int) - 2048
  let r := (cr : Int) - 2048
  [clampNat (asr (yy + k.2.2.1 * r + 4096) 13) 4095,
   clampNat (asr (yy + k.2.2.2.1 * b + k.2.2.2.2.1 * r + 4096) 13) 4095,
   clampNat (asr (yy + k.2.2.2.2.2 * b + 4096) 13) 4095]

/-- A component of an RGB flow store in narrow range (R146). -/
def narrowRgb (v : Nat) : Nat := clampNat (asr (9574 * ((v : Int) - 256) + 4096) 13) 4095

/-- Luma of R'G'B' codes (R148). -/
def rgbLuma (r g b : Nat) : Nat := (871 * r + 2929 * g + 296 * b + 2048) / 4096

/-- Linear light in the canvas primaries (R147). -/
def gamut (tab : Nat → Nat) (set : Nat) (code : List Nat) : List Nat :=
  let lin := code.map (fun c => Int.ofNat (tab (tabDecode set c)))
  (List.range 3).map (fun k =>
    clampNat (asr (dot ((List.range 3).map (fun j => signed 16 (tab (tabMatrix set k j)))) lin + 4096) 13) 0xFFFFF)

/-- The key alpha of a luma key (R148). -/
def lumaKey (luma low gain : Nat) : Nat := clampNat (asr (((luma : Int) - low) * gain + 128) 8) 255

/-- The layer's alpha, 0 to 256 (R148). -/
def layerAlpha (op ka : Nat) : Nat := (op + op / 128) * (ka + ka / 128) / 256

/-- The blend of one component (R148). -/
def blend (a g acc : Nat) : Nat := (a * g + (256 - a) * acc + 128) / 256

/-- The canvas code of a component (R149). -/
def encodeCode (tab : Nat → Nat) (acc : Nat) : Nat :=
  let i := acc / 256
  let f := acc % 256
  let e0 := tab (tabEncode i)
  let e1 := tab (tabEncode (min (i + 1) 4095))
  clampNat (asr ((e0 : Int) * 256 + ((e1 : Int) - e0) * f + 8192) 14) 1023

/-! ### Samples as 12-bit codes (R145) -/

def code10 (v : Nat) : Nat := v * 4
def code8 (v : Nat) : Nat := v * 16 + v / 16
def codeP32H (v : Nat) : Nat := v * 4 + v / 256

/-- Component `i` of a pgroup, components of `bits` bits packed from the first byte's top bit down (SMPTE ST 2110-20; assumption log 8). -/
def pgComp (bytes : List Byte) (bits i : Nat) : Nat := ofBe bytes / 2 ^ (8 * bytes.length - bits * (i + 1)) % 2 ^ bits

/-! ### Canvas formats (R163, R164) -/

/-- Bytes of a canvas pixel: P16, P24, P32A, P32H. -/
def fmtBytes (f : Nat) : Nat := match f with | 0 => 2 | 1 => 3 | _ => 4

def exp5 (v : Nat) : Nat := v * 32 + v
def exp6 (v : Nat) : Nat := v * 16 + v / 4
def exp8 (v : Nat) : Nat := v * 4 + v / 64

/-- A canvas pixel as P32H (R164). -/
def toP32H (f v : Nat) : Nat :=
  match f with
  | 0 => exp5 (v / 2048 % 32) * 2 ^ 20 + exp6 (v / 32 % 64) * 2 ^ 10 + exp5 (v % 32)
  | 3 => v % 2 ^ 32
  | _ => exp8 (v / 65536 % 256) * 2 ^ 20 + exp8 (v / 256 % 256) * 2 ^ 10 + exp8 (v % 256)

end Sys2Proof.Machine
end

