-- ==== Sys2Proof/Machine/IngestOps.lean ====
section
/-! DEFINITION. Ethernet paths, the control ring, media flows with their merge, and the DP store (spec/05_source_ingest.md; spec/03_host_access.md R64 to R66). -/

namespace Sys2Proof.Machine

/-! ### Frames -/

/-- The page of an Ethernet path: 0 A, 1 B. -/
def ethPage (path : Nat) : Nat := 0x030 + path % 2

/-- The field of an Ethernet path. -/
def ethF (f : Fld) (path : Nat) : Fld := f.pg (path % 2)

/-- Events of a path. -/
def evDown (path : Nat) : Ev := if path % 2 = 0 then E.ETH_A_DOWN else E.ETH_B_DOWN
def evFec (path : Nat) : Ev := if path % 2 = 0 then E.ETH_A_FEC else E.ETH_B_FEC
def evDrop (path : Nat) : Ev := if path % 2 = 0 then E.ETH_A_DROP else E.ETH_B_DROP

/-- The head of an Ethernet frame: addresses, VLAN identifiers of its tags, EtherType, and what follows. -/
structure EthHead where
  dst : Nat
  src : Nat
  vlans : List Nat
  etype : Nat
  body : List Byte
deriving DecidableEq, Repr

/-- VLAN tags, EtherType and body; at most three tags are looked at. -/
def ethTags : Nat → List Byte → List Nat × Nat × List Byte
  | 0, l => ([], ofBe (l.take 2), l.drop 2)
  | n + 1, l =>
    let t := ofBe (l.take 2)
    if t = 0x8100 || t = 0x88A8 then
      let r := ethTags n (l.drop 4)
      (ofBe (slice l 2 2) % 4096 :: r.1, r.2)
    else ([], t, l.drop 2)

def ethHead (l : List Byte) : EthHead :=
  let r := ethTags 3 (l.drop 12)
  { dst := ofBe (l.take 6), src := ofBe (slice l 6 6), vlans := r.1, etype := r.2.1, body := r.2.2 }

/-- The VLAN of a frame; identifier 0 counts as untagged (R115). -/
def EthHead.vlan (h : EthHead) : Option Nat :=
  match h.vlans with
  | [] => none
  | v :: _ => if v = 0 then none else some v

/-- Multicast MAC address of an IPv4 group. -/
def groupMac (ip : Nat) : Nat := 0x01005E000000 + ip % 2 ^ 23

/-- The IPv4 address is multicast. -/
def isGroup (ip : Nat) : Bool := 0xE0000000 ≤ ip && decide (ip ≤ 0xEFFFFFFF)

/-- The groups of a path's filter table that are used, and 224.0.0.1 (R114). -/
def Chip.groups (c : Chip) (path : Nat) : List Nat :=
  0xE0000001 :: ((List.range 64).map (fun i => c.get ((ethF F.ETH_MCAST_GROUP path).plus (4 * i)))).filter isGroup

/-- The path's MAC address. -/
def Chip.pathMac (c : Chip) (path : Nat) : Nat :=
  c.get (ethF F.ETH_MAC_HI_MAC_HI path) * 2 ^ 32 + c.get (ethF F.ETH_MAC_LO_MAC_LO path)

/-- Sum of the 16-bit words of an IPv4 header, folded to 16 bits. -/
def ipSum (l : List Byte) (words : Nat) : Nat :=
  let s := ((List.range words).map (fun i => ofBe (slice l (2 * i) 2))).sum
  let s := s / 65536 + s % 65536
  s / 65536 + s % 65536

/-- The head of an IPv4 packet. -/
structure IpHead where
  proto : Nat
  src : Nat
  dst : Nat
  payload : List Byte
deriving DecidableEq, Repr

/-- The tests of step 6 of R113; none where one fails. -/
def ipHead (b : List Byte) : Option IpHead :=
  let v := ofBe (b.take 1)
  let ihl := v % 16
  let total := ofBe (slice b 2 2)
  let frag := ofBe (slice b 6 2)
  if v / 16 ≠ 4 || ihl < 5 || b.length < 4 * ihl || ipSum b (2 * ihl) ≠ 0xFFFF || total < 4 * ihl || b.length < total || frag % 16384 ≠ 0 then none
  else some { proto := ofBe (slice b 9 1), src := ofBe (slice b 12 4), dst := ofBe (slice b 16 4), payload := slice b (4 * ihl) (total - 4 * ihl) }

/-- What becomes of a received frame (R113). -/
inductive EthFate where
  | fcs
  | drop
  | arp (peer : NetPeer)
  | srp (peer : NetPeer) (datagram : List Byte)
  | flow (n : Nat) (payload : List Byte)
  | ring
deriving DecidableEq, Repr

/-- SRP is enabled on a path (SRP.PORT, SRP.IPV4). -/
def Chip.srpOn (c : Chip) (path : Nat) : Bool :=
  c.en 0x04A && decide (c.get F.SRP_IPV4_ADDR ≠ 0) && c.on (if path % 2 = 0 then F.SRP_PORT_PATH_A else F.SRP_PORT_PATH_B)

/-- A UDP packet on a path matches a flow (R119). -/
def Chip.flowMatch (c : Chip) (n path : Nat) (vlan : Option Nat) (src dst dport : Nat) : Bool :=
  let f := fun (x : Fld) => c.get (x.pg n)
  c.runs (0x032 + n) && f (if path % 2 = 0 then F.FLOW_PORTS_PATH_A_EN else F.FLOW_PORTS_PATH_B_EN) = 1 &&
    f F.FLOW_DST_DST = dst && f F.FLOW_PORTS_UDP = dport &&
    (if f F.FLOW_PORTS_VLAN_EN = 1 then vlan = some (f F.FLOW_PORTS_VLAN_ID) else vlan = none) &&
    (f F.FLOW_PORTS_SRC_EN ≠ 1 || f F.FLOW_SRC_SRC = src)

/-- Steps 8 to 12 of R113 for an IPv4 packet. -/
def Chip.ipFate (c : Chip) (path sub : Nat) (h : EthHead) (ip : IpHead) : EthFate :=
  let u := ip.payload
  let sport := ofBe (u.take 2)
  let dport := ofBe (slice u 2 2)
  let data := slice u 8 (ofBe (slice u 4 2) - 8)
  if ip.proto = 2 then .ring
  else if ip.proto ≠ 17 || u.length < 8 then .drop
  else if c.srpOn path && ip.dst = c.get F.SRP_IPV4_ADDR && dport = c.get F.SRP_PORT_UDP &&
      (!c.on F.SRP_PORT_VLAN_EN || h.vlan = some (c.get F.SRP_PORT_VLAN_ID)) then
    .srp { mac := h.src, ip := ip.src, port := sport, vlan := h.vlan, sub := sub } data
  else match (List.range 16).find? (fun n => c.flowMatch n path h.vlan ip.src ip.dst dport) with
    | some n => .flow n data
    | none => if dport = 319 || dport = 320 then .ring else .drop

/-- An ARP request: the address it asks for and who asks. -/
def arpAsk (h : EthHead) (sub : Nat) : Option (Nat × NetPeer) :=
  let b := h.body
  if b.length < 28 || ofBe (slice b 6 2) ≠ 1 || ofBe (slice b 2 2) ≠ 0x0800 then none
  else some (ofBe (slice b 24 4), { mac := ofBe (slice b 8 6), ip := ofBe (slice b 14 4), port := 0, vlan := h.vlan, sub := sub })

/-- The classification of R113: the first rule that applies decides. -/
def Chip.ethFate (c : Chip) (path sub : Nat) (f : EthFrame) : EthFate :=
  let h := ethHead f.bytes
  let groups := c.groups path
  if !f.fcsOk then .fcs
  else if f.bytes.length + 4 < 64 || min 9216 (c.get (ethF F.ETH_CONFIG_MAX_FRAME path)) < f.bytes.length + 4 then .drop
  else if h.vlans.length > 1 || !(h.dst = c.pathMac path || h.dst = 0xFFFFFFFFFFFF || (groups.map groupMac).contains h.dst) then .drop
  else if h.etype = 0x0806 then
    match arpAsk h sub with
    | some (ip, peer) => if c.srpOn path && ip = c.get F.SRP_IPV4_ADDR then .arp peer else .ring
    | none => .ring
  else if h.etype ≠ 0x0800 then .drop
  else match ipHead h.body with
    | none => .drop
    | some ip => if isGroup ip.dst && !groups.contains ip.dst then .drop else c.ipFate path sub h ip

/-! ### Control ring (R116) -/

/-- CTL_RX_SLOTS as it acts. -/
def Chip.ringSlots (c : Chip) (path : Nat) : Nat := max 16 (min 4096 (c.get (ethF F.ETH_CTL_RX_SLOTS_SLOTS path)))

/-- A PTP event message of a frame on sub-port 0: its type and sequence number (R84, R112). -/
def ptpEvent (f : EthFrame) : Option (Nat × Nat) :=
  match ipHead (ethHead f.bytes).body with
  | none => none
  | some ip =>
    let u := ip.payload
    if ip.proto = 17 && ofBe (slice u 2 2) = 319 && ofBe (slice u 8 1) % 16 ≤ 3 then some (ofBe (slice u 8 1) % 16, ofBe (slice u 38 2)) else none

/-- The frame is a PTP event message whose timestamp was stored as it came in (R84, R116). -/
def Chip.ptpStamped (c : Chip) (path sub : Nat) (f : EthFrame) : Bool := sub = 0 && (ptpEvent f).isSome && decide (c.rxStamp path = ptpEvent f)

/-- A control frame is written to the ring, or dropped (R116). -/
def Chip.ringWrite (c : Chip) (path sub : Nat) (f : EthFrame) : Chip :=
  let head := c.get (ethF F.ETH_CTL_RX_HEAD_HEAD path)
  let next := (head + 1) % c.ringSlots path
  let en := c.on (ethF F.ETH_CONFIG_CTL_EN path)
  let n := f.bytes.length
  if !en || next = c.get (ethF F.ETH_CTL_RX_TAIL_TAIL path) || n > 2032 then
    let c := c.bump (ethF F.ETH_RX_DROP_COUNT path)
    if en then c.raise (evDrop path) else c
  else
    let slot : List Byte := leBytes 2 n ++ [BitVec.ofNat 8 (path % 2 + 2 * (sub % 4) + 8 * b2n (c.ptpStamped path sub f)), 0] ++ leBytes 4 c.timeNs ++
      List.replicate 8 0 ++ f.bytes
    let c := c.dramWrite dmFlow (c.get (ethF F.ETH_CTL_RX_BASE_BASE path) * 2048 + head * 2048) slot
    let c := c.set (ethF F.ETH_CTL_RX_HEAD_HEAD path) next
    (c.bump (ethF F.ETH_RX_OK_COUNT path)).bump (ethF F.ETH_CTL_RX_COUNT path)

/-! ### Flow receivers (R118 to R131) -/

def Chip.flow (c : Chip) (n : Nat) : FlowSt := smGet FlowSt.init c.flows n
def Chip.setFlow (c : Chip) (n : Nat) (f : FlowSt) : Chip := { c with flows := smSet c.flows n f }
def flowPage (n : Nat) : Nat := 0x032 + n

/-- Flow states (spec/05_source_ingest.md, Flow states). -/
def fsOff : Nat := 0
def fsWait : Nat := 1
def fsSync : Nat := 2
def fsRun : Nat := 3
def fsStop : Nat := 4

/-- A flow's state, in its page and in two-bit form in MERGE.FLOW_STATE. -/
def Chip.setFlowState (c : Chip) (n st : Nat) : Chip :=
  let c := c.set (F.STATE.pg (flowPage n)) st
  c.set ⟨F.MERGE_FLOW_STATE_STATE.addr, 2 * n + 1, 2 * n⟩ (st - 1)

/-- A MERGE event of a flow (MERGE.EVT_FLOWS). -/
def Chip.flowEvent (c : Chip) (n : Nat) (e : Ev) : Chip :=
  (c.wr F.MERGE_EVT_FLOWS_FLOWS.addr (c.rd F.MERGE_EVT_FLOWS_FLOWS.addr ||| ((1 : Word) <<< n))).raise e

/-- Pgroup of a flow: bytes and pixels (R121). -/
def Chip.pgroup (c : Chip) (n : Nat) : Nat × Nat :=
  let d12 := c.on (F.FLOW_FORMAT_DEPTH12.pg n)
  if c.get (F.FLOW_FORMAT_SAMPLING.pg n) = 1 then (if d12 then (9, 2) else (15, 4)) else (if d12 then (6, 2) else (5, 2))

def Chip.flowH (c : Chip) (n : Nat) : Nat := c.get (F.FLOW_SIZE_HEIGHT.pg n)
def Chip.flowW (c : Chip) (n : Nat) : Nat := c.get (F.FLOW_SIZE_WIDTH.pg n)

/-- The size is one that the receivers support; a flow of another size accepts no packet (R118). -/
def Chip.flowSizeOk (c : Chip) (n : Nat) : Bool :=
  2 ≤ c.flowW n && decide (c.flowW n ≤ 7680) && decide (1 ≤ c.flowH n) && decide (c.flowH n ≤ 4320)

def Chip.flowFrames (c : Chip) (n : Nat) : Nat := max 2 (c.get (F.FLOW_STORE_CFG_FRAMES.pg n))
def Chip.flowStride (c : Chip) (n : Nat) : Nat := c.get (F.FLOW_STORE_CFG_STRIDE.pg n) * 64

/-- First byte of a line of a slot in a flow's store, from the store's base (R121). -/
def Chip.flowLine (c : Chip) (n slot line : Nat) : Nat := (slot * c.flowH n + line) * c.flowStride n

/-- Bytes of a line. -/
def Chip.flowLineBytes (c : Chip) (n : Nat) : Nat := c.flowW n / (c.pgroup n).2 * (c.pgroup n).1

/-- Bytes of a flow's store (R122). -/
def Chip.flowSpan (c : Chip) (n : Nat) : Nat := c.flowFrames n * c.flowH n * c.flowStride n
def Chip.flowBase (c : Chip) (n : Nat) : Nat := c.get (F.FLOW_STORE_BASE_BASE.pg n) * 256

/-! ### Allocations of DRAM (R122, R138) -/

/-- The DP store: three frames (R65). -/
def Chip.dpBase (c : Chip) : Nat := c.get F.DPIN_STORE_BASE_BASE * 256
def Chip.dpStride (c : Chip) : Nat := c.get F.DPIN_STRIDE_STRIDE * 64
def Chip.dpSpan (c : Chip) : Nat := 3 * c.get F.DPIN_SIZE_HEIGHT * c.dpStride

/-- Canvas width as it acts: 0 and values above 32,768 act as 32,768. -/
def Chip.canvasW (c : Chip) : Nat :=
  let w := c.get F.MAPCTL_CANVAS_SIZE_WIDTH
  if w = 0 then 32768 else min 32768 w

/-- Canvas height as it acts: 0 acts as 1 and values above 8,192 as 8,192. DESIGN CHOICE for 0 (assumption log 34). -/
def Chip.canvasH (c : Chip) : Nat := max 1 (min 8192 (c.get F.MAPCTL_CANVAS_SIZE_HEIGHT))

/-- Canvas buffer k: its first byte, and its bytes from line 0 to the end of the last line. -/
def Chip.canvasBase (c : Chip) (k : Nat) : Nat := (c.rd (F.MAPCTL_CANVAS_BUF_BASE.addr + 4 * k)).toNat * 256
def Chip.canvasBytes (c : Chip) : Nat := c.canvasH * (c.get F.MAPCTL_CANVAS_STRIDE_STRIDE * 64)

/-- Mapping uses its buffers: it is enabled, or completes canvases. -/
def Chip.mapUses (c : Chip) : Bool := c.en 0x060 || !c.map.canvases.isEmpty

/-- Allocations of an Ethernet path: its control ring and the control frame to send. -/
def Chip.pathAllocations (c : Chip) (path : Nat) : List (Nat × Nat × Nat) :=
  if !c.en (ethPage path) then []
  else
    let f := fun (x : Fld) => c.get (ethF x path)
    (if f F.ETH_CONFIG_CTL_EN = 1 then [(17 + path, f F.ETH_CTL_RX_BASE_BASE * 2048, c.ringSlots path * 2048)] else []) ++
      (if 0 < f F.ETH_CTL_TX_CTRL_LEN then [(24 + path, f F.ETH_CTL_TX_ADDR_ADDR * 16, f F.ETH_CTL_TX_CTRL_LEN)] else [])

/-- Allocations of a layer in use: its mesh and, where it shows one, its still (R139, R151). -/
def Chip.layerAllocations (c : Chip) (l : Nat) : List (Nat × Nat × Nat) :=
  let f := fun (x : Fld) => c.use (x.pg l)
  let src := f F.LAYER_CTRL_SOURCE
  (if src ≤ 18 then [(48 + l, f F.LAYER_MESH_BASE_BASE * 256, 0x800 + (ceilDiv c.canvasH 32 + 1) * meshRow c.canvasW)] else []) ++
    (if src = 17 then [(56 + l, f F.LAYER_STILL_BASE_BASE * 256, f F.LAYER_STILL_FMT_STRIDE * 64 * f F.LAYER_STILL_SIZE_HEIGHT)] else [])

/-- Allocations of the sender's chain pages: status table and monitor ring, the source of a BULK transfer, the mirror's staging area (R204, R293, R379). -/
def Chip.chainAllocations (c : Chip) : List (Nat × Nat × Nat) :=
  (if c.en 0x090 then [(20, c.get F.CHAINCTL_STATUS_BASE_STATUS_BASE * 65536, 65536),
      (21, c.get F.CHAINCTL_MON_BASE_MON_BASE * 64, max 16 (min 4096 (c.get F.CHAINCTL_MON_SLOTS_SLOTS)) * 64)] else []) ++
    (if c.on F.UPDATE_STATUS_BULK_BUSY then [(23, c.get F.UPDATE_BULK_ADDR * 16, c.get F.UPDATE_BULK_LEN)] else []) ++
    (if c.en 0x0C1 then [(22, c.get F.MIRROR_STAGE_BASE_BASE * 1048576, 16777216)] else [])

/-- Allocations of scan-out: the halves of a host frame (R165, R182). -/
def Chip.frameAllocations (c : Chip) : List (Nat × Nat × Nat) :=
  if c.use F.SCAN_FRAME_FMT_SOURCE = 1 then
    (List.range 2).map (fun k => (26 + k, c.use (F.SCAN_FRAME_ADDR_BASE.pg k) * 256, c.use (F.SCAN_FRAME_FMT_STRIDE.pg k) * 64 * c.canvasH))
  else []

/-- The allocations of DRAM that the registers give, each with a key, its first byte and its bytes: stores of enabled flows (0 to 15), the DP store
(16), control rings and frames (17, 18, 24, 25), the layer sets (19), the chain's (20 to 23), host frames (26, 27), the canvas buffers (32 to 39),
meshes (48 to 55) and stills (56 to 63) (R122, R138; assumption log 164). -/
def Chip.allocations (c : Chip) : List (Nat × Nat × Nat) :=
  ((List.range 16).filter (fun n => c.en (flowPage n))).map (fun n => (n, c.flowBase n, c.flowSpan n)) ++
    (if c.en 0x049 then [(16, c.dpBase, c.dpSpan)] else []) ++ c.pathAllocations 0 ++ c.pathAllocations 1 ++ c.chainAllocations ++ c.frameAllocations ++
    (if c.mapUses then (List.range 8).map (fun k => (32 + k, c.canvasBase k, c.canvasBytes)) ++ (List.range 8).flatMap c.layerAllocations ++
      [(19, c.get F.MAPCTL_SET_BASE_BASE * 512, min 1024 (c.get F.MAPCTL_SET_COUNT_COUNT) * 512)] else [])

/-- Other allocations that overlap the one of a key. -/
def Chip.overlaps (c : Chip) (key base bytes : Nat) : List (Nat × Nat × Nat) :=
  c.allocations.filter (fun a => a.1 ≠ key && decide (a.2.1 < base + bytes) && decide (base < a.2.1 + a.2.2))

/-- No other allocation overlaps the one of a key. -/
def Chip.apart (c : Chip) (key base bytes : Nat) : Bool := (c.overlaps key base bytes).isEmpty

/-- A store: its key among the allocations, its first byte, its bytes, its stride, and the bytes of a line. -/
structure Store where
  key : Nat
  base : Nat
  span : Nat
  stride : Nat
  line : Nat
deriving DecidableEq, Repr

def Chip.flowStore (c : Chip) (n : Nat) : Store :=
  { key := n, base := c.flowBase n, span := c.flowSpan n, stride := c.flowStride n, line := c.flowLineBytes n }

def Chip.dpStore (c : Chip) : Store := { key := 16, base := c.dpBase, span := c.dpSpan, stride := c.dpStride, line := 4 * c.get F.DPIN_SIZE_WIDTH }

/-- Two lines of the store hold the byte at an offset: its stride is too small (R122). -/
def Store.shared (s : Store) (p : Nat) : Bool := decide (s.stride < s.line) && decide (s.stride ≤ p) && decide (p % s.stride < s.line - s.stride)

/-- Bytes that reach a store at an offset: as they are; but open where lines or allocations overlap, and nowhere else (R65, R122; assumption
log 164). -/
def Chip.storeBytes (c : Chip) (s : Store) (ofs : Nat) (bytes : List Byte) : List Byte × Chip :=
  let others := c.overlaps s.key s.base s.span
  if s.line ≤ s.stride && others.isEmpty then (bytes, c)
  else
    let r := c.openValue (8 * bytes.length)
    let isOpen := fun (p : Nat) => s.shared p || others.any (fun a => decide (a.2.1 ≤ s.base + p) && decide (s.base + p < a.2.1 + a.2.2))
    (((leBytes bytes.length r.1).zip bytes).zipIdx.map (fun x => if isOpen (ofs + x.2) then x.1.1 else x.1.2), r.2)

/-- A flow writes within its own store span only (R122). -/
def Chip.storeWrite (c : Chip) (n ofs : Nat) (bytes : List Byte) : Chip :=
  let r := c.storeBytes (c.flowStore n) ofs (bytes.take (c.flowSpan n - ofs))
  r.2.dramWrite dmFlow (c.flowBase n + ofs) r.1

/-- A sample row of a packet: row number, pixel offset and bytes. -/
structure SampleRow where
  row : Nat
  offset : Nat
  bytes : List Byte
deriving DecidableEq, Repr

/-- A media packet (R120). -/
structure MediaPkt where
  seq : Nat
  ts : Nat
  marker : Bool
  rows : List SampleRow
deriving DecidableEq, Repr

/-- The sample row data headers: field bit, row, offset and length, chained by the continuation bit; none where they run past the packet. -/
def rowHeads : Nat → List Byte → Option (List (Nat × Nat × Nat × Nat) × List Byte)
  | 0, _ => none
  | n + 1, l =>
    if l.length < 6 then none
    else
      let len := ofBe (l.take 2)
      let row := ofBe (slice l 2 2)
      let ofs := ofBe (slice l 4 2)
      let h := (row / 32768, row % 32768, ofs % 32768, len)
      if ofs / 32768 = 1 then (rowHeads n (l.drop 6)).map (fun r => (h :: r.1, r.2))
      else some ([h], l.drop 6)

/-- The sample rows with their bytes; none where the packet is too short. -/
def rowData : List (Nat × Nat × Nat × Nat) → List Byte → Option (List SampleRow)
  | [], _ => some []
  | h :: t, l =>
    if l.length < h.2.2.2 then none
    else (rowData t (l.drop h.2.2.2)).map (fun r => { row := h.2.1, offset := h.2.2.1, bytes := l.take h.2.2.2 } :: r)

/-- The RTP payload: what follows the fixed header, contributors and extension, less the padding. -/
def rtpPayload (u : List Byte) : List Byte :=
  let b0 := ofBe (u.take 1)
  let cc := 12 + 4 * (b0 % 16)
  let ext := if b0 / 16 % 2 = 1 then 4 + 4 * ofBe (slice u (cc + 2) 2) else 0
  let pad := if b0 / 32 % 2 = 1 then ((u.getLast?).getD 0).toNat else 0
  (u.take (u.length - pad)).drop (cc + ext)

/-- The tests of R120; the second part is the extended sequence number. -/
def Chip.mediaParse (c : Chip) (n : Nat) (u : List Byte) : Option MediaPkt × Nat :=
  let p := rtpPayload u
  let seq := ofBe (p.take 2) * 65536 + ofBe (slice u 2 2)
  let b1 := ofBe (slice u 1 1)
  let pg := c.pgroup n
  let okHead := u.length ≥ 12 && ofBe (u.take 1) / 64 = 2 && (!c.on (F.FLOW_RTP_PT_EN.pg n) || b1 % 128 = c.get (F.FLOW_RTP_PT.pg n))
  match rowHeads p.length (p.drop 2) with
  | none => (none, seq)
  | some (hs, data) =>
    match rowData hs data with
    | none => (none, seq)
    | some rows =>
      if okHead && c.flowSizeOk n && hs.all (fun h => h.1 = 0 && decide (h.2.1 < c.flowH n) && decide (h.2.2.2 % pg.1 = 0) &&
          decide (h.2.2.1 + h.2.2.2 / pg.1 * pg.2 ≤ c.flowW n)) then
        (some { seq := seq, ts := ofBe (slice u 4 4), marker := b1 / 128 = 1, rows := rows }, seq)
      else (none, seq)

/-- The watermark of a flow. -/
def Chip.watermark (c : Chip) (n : Nat) : Nat := c.get (F.FLOW_WATERMARK_LINES.pg n)

/-- A flow with both paths enabled is merged. -/
def Chip.merged (c : Chip) (n : Nat) : Bool := c.on (F.FLOW_PORTS_PATH_A_EN.pg n) && c.on (F.FLOW_PORTS_PATH_B_EN.pg n)

/-- MERGE.WINDOW as it acts. -/
def Chip.mergeWindow (c : Chip) : Nat := max 100 (min 10000 (c.get F.MERGE_WINDOW_US))

/-- The wait before a concealment, in µs (R124, R128). -/
def Chip.gapWaitUs (c : Chip) (n : Nat) : Nat :=
  let g := min 10000 (c.get (F.FLOW_TIMING_GAP_WAIT.pg n))
  if c.merged n then min c.mergeWindow (max g ((signed 16 (c.get (F.FLOW_SKEW_SKEW.pg n))).natAbs + 50)) else g

/-- The frame being written is dropped: nothing of it counts any more. -/
def Chip.dropFrame (c : Chip) (n : Nat) (rtp : Option Nat) : Chip :=
  let c := c.setFlow n { c.flow n with rtp := rtp, writing := false, pixels := [], marker := false, concealed := false, gapWait := none }
  c.set (F.FLOW_WATERMARK_LINES.pg n) 0

/-- A frame is complete: LAST_FRAME takes its slot, and writing moves on; a flow in SYNC enters RUNNING (R125, R130). -/
def Chip.frameComplete (c : Chip) (n : Nat) : Chip :=
  let f := c.flow n
  let slot := c.get (F.FLOW_WATERMARK_WRITE_SLOT.pg n)
  let c := (c.set (F.FLOW_WATERMARK_LAST_FRAME.pg n) slot).set (F.FLOW_WATERMARK_LAST_VALID.pg n) 1
  let c := (c.set (F.FLOW_LAST_RTP_RTP.pg n) (f.rtp.getD 0)).set (F.FLOW_LAST_TIME_TIME.pg n) c.timeNs
  let c := c.bump (F.FLOW_FRAME_COUNT_COUNT.pg n)
  let c := if f.concealed then c.bump (F.FLOW_CONCEALED_COUNT.pg n) else c
  let c := c.set (F.FLOW_WATERMARK_WRITE_SLOT.pg n) ((slot + 1) % c.flowFrames n)
  let c := c.dropFrame n none
  let c := c.setFlow n { c.flow n with lastRtp := f.rtp }
  if c.state (flowPage n) = fsSync then (c.setFlowState n fsRun).flowEvent n E.FLOW_START else c

/-- The watermark of a frame: the lines from line 0 on that are all complete, at most its height. -/
def completeLines : Nat → Nat → SMap Nat → Nat → Nat
  | 0, line, _, _ => line
  | k + 1, line, m, w => if smGet 0 m line ≥ w then completeLines k (line + 1) m w else line

/-- The watermark is published, the frame completed at its end, and a gap found starts its wait (R123, R124, R125). -/
def Chip.publish (c : Chip) (n : Nat) : Chip :=
  let f := c.flow n
  let h := c.flowH n
  let w := completeLines (h - c.watermark n) (c.watermark n) f.pixels (c.flowW n)
  let c := c.set (F.FLOW_WATERMARK_LINES.pg n) w
  if w ≥ h then c.frameComplete n
  else
    let gap := f.marker || f.pixels.any (fun p => decide (w < p.1) && decide (0 < p.2))
    let waiting := match f.gapWait with | some g => decide (g.1 = w) | none => false
    if gap then (if waiting then c else c.setFlow n { f with gapWait := some (w, c.gapWaitUs n) })
    else c.setFlow n { f with gapWait := none }

/-- A line is concealed: the whole line from the last complete frame over it (R124). -/
def Chip.concealLine (c : Chip) (n line : Nat) : Chip :=
  let base := c.get (F.FLOW_STORE_BASE_BASE.pg n) * 256
  let src := c.flowLine n (c.get (F.FLOW_WATERMARK_LAST_FRAME.pg n)) line
  let dst := c.flowLine n (c.get (F.FLOW_WATERMARK_WRITE_SLOT.pg n)) line
  let r := c.dramFetch dmFlow (base + src) (c.flowLineBytes n)
  let c := r.2.storeWrite n dst r.1.1
  let f := c.flow n
  let c := c.setFlow n { f with concealed := true, gapWait := none, pixels := smSet f.pixels line (c.flowW n) }
  (c.bump (F.FLOW_LOST_LINES_COUNT.pg n)).flowEvent n E.FLOW_CONCEAL

/-- Every line of a frame still incomplete is concealed at once (R124). -/
def Chip.concealRest (c : Chip) (n : Nat) : Chip :=
  let w := c.watermark n
  let px := (c.flow n).pixels
  let lines := ((List.range (c.flowH n - w)).map (fun i => w + i)).filter (fun l => smGet 0 px l < c.flowW n)
  (lines.foldl (fun c l => c.concealLine n l) c).publish n

/-- The gap wait of a flow ends: in SYNC the frame is discarded, else its line is concealed (R124, Flow states). -/
def Chip.gapExpire (c : Chip) (n : Nat) : Chip :=
  let f := c.flow n
  match f.gapWait with
  | none => c
  | some g =>
    if c.state (flowPage n) = fsSync then c.dropFrame n f.rtp
    else if c.state (flowPage n) = fsRun && g.1 = c.watermark n then (c.concealLine n g.1).publish n
    else c

/-- The first packet of a new frame: the old one is concealed, or in SYNC discarded (R124, R125). -/
def Chip.newFrame (c : Chip) (n ts : Nat) : Chip :=
  let f := c.flow n
  let c := if f.writing then (if c.state (flowPage n) = fsSync then c.dropFrame n none else c.concealRest n) else c
  let c := c.dropFrame n (some ts)
  c.setFlow n { c.flow n with writing := true }

/-- Its sample rows are written at the positions they name, and counted (R121, R123). DESIGN CHOICE (assumption log 184): a row whose offset is no
multiple of the pixels of a pgroup is written from the start of the pgroup that holds that pixel. -/
def Chip.writeRows (c : Chip) (n : Nat) (rows : List SampleRow) : Chip :=
  rows.foldl (fun c r =>
    let pg := c.pgroup n
    let ofs := c.flowLine n (c.get (F.FLOW_WATERMARK_WRITE_SLOT.pg n)) r.row + r.offset / pg.2 * pg.1
    let c := c.storeWrite n ofs r.bytes
    let f := c.flow n
    c.setFlow n { f with pixels := smSet f.pixels r.row (smGet 0 f.pixels r.row + r.bytes.length / pg.1 * pg.2) }) c

/-- SKEW of the pairs seen: 0 below 1,024 of them; it saturates (R129). DESIGN CHOICE (assumption log 183): the mean is rounded toward zero. -/
def skewOf (pairs : List Int) : Int :=
  if pairs.length < 1024 then 0 else max (-32767) (min 32767 (Int.tdiv pairs.sum 1024))

/-- A packet received on both paths gives a pair, and MERGE_SKEW where the skew comes to exceed the window (R129). -/
def Chip.notePair (c : Chip) (n path us k : Nat) : Chip :=
  let f := c.flow n
  match smFind f.arrival k with
  | none => c
  | some a =>
    if a.1 = path % 2 then c
    else
      let d : Int := if path % 2 = 1 then (us : Int) - a.2 else (a.2 : Int) - us
      let l := (f.pairs ++ [d])
      let l := l.drop (l.length - 1024)
      let s := skewOf l
      let wide := decide (c.mergeWindow < s.natAbs)
      let c := c.setFlow n { f with pairs := l, arrival := smDel f.arrival k, skewed := wide }
      let c := c.set (F.FLOW_SKEW_SKEW.pg n) (unsign 16 s)
      if wide && !f.skewed then c.flowEvent n E.MERGE_SKEW else c

/-- A path of a merged flow delivers again. -/
def Chip.pathHeard (c : Chip) (n path : Nat) : Chip :=
  let f : Fld := if path % 2 = 0 then ⟨F.MERGE_PATH_LOSS_A_SILENT.addr, n, n⟩ else ⟨F.MERGE_PATH_LOSS_A_SILENT.addr, 16 + n, 16 + n⟩
  let c := c.set f 0
  c.cond E.PATH_LOSS (decide (c.rd F.MERGE_PATH_LOSS_A_SILENT.addr ≠ 0))

/-- Entries of the seen map from `lo`, `count` of them, come back into use (R127). -/
def clearSeen {α : Type} (m : SMap α) (lo count : Nat) : SMap α :=
  if count ≥ 262144 then [] else m.filter (fun p => decide ((p.1 + 262144 - lo % 262144) % 262144 ≥ count))

/-- A packet that passed R120 and R127's order tests is written or discarded by its frame (R124, R125). DESIGN CHOICE (assumption log 182): a
packet that SYNC discards enters neither the seen map nor the packet counters. -/
def Chip.placePacket (c : Chip) (n path : Nat) (m : MediaPkt) : Chip :=
  let f := c.flow n
  let late := c.bump (F.FLOW_LATE_COUNT.pg n)
  let written := fun (c : Chip) =>
    if m.rows.any (fun r => decide (r.row < c.watermark n)) then c.bump (F.FLOW_LATE_COUNT.pg n)
    else
      let f := c.flow n
      let c := c.setFlow n { f with seen := smSet f.seen (m.seq % 262144) true, marker := f.marker || m.marker }
      let c := (c.writeRows n m.rows).bump ((if path % 2 = 0 then F.FLOW_PKT_A_COUNT else F.FLOW_PKT_B_COUNT).pg n)
      c.publish n
  let first := decide (c.state (flowPage n) = fsSync) && !f.writing && f.rtp.isNone
  if f.lastRtp = some m.ts then (if first then late.setFlow n { f with rtp := some m.ts } else late)
  else if first then c.setFlow n { f with rtp := some m.ts }
  else if f.rtp = some m.ts then (if f.writing then written c else c)
  else written (c.newFrame n m.ts)

/-- The sequence rule of R127. -/
def Chip.sequencePacket (c : Chip) (n path us : Nat) (m : MediaPkt) : Chip :=
  let f := c.flow n
  let q := m.seq
  let k := q % 262144
  let top := f.top.getD ((q + 2 ^ 32 - 1) % 2 ^ 32)
  let ahead := (q + 2 ^ 32 - top) % 2 ^ 32
  let behind := (top + 2 ^ 32 - q) % 2 ^ 32
  let newer := ahead ≠ 0 && ahead < 2 ^ 31
  if !newer && behind ≥ 262144 then (c.setFlow n { f with top := some top }).bump (F.FLOW_LATE_COUNT.pg n)
  else
    let f := if newer then { f with top := some q, seen := clearSeen f.seen (top + 1) ahead, arrival := clearSeen f.arrival (top + 1) ahead }
      else { f with top := some top }
    let c := c.setFlow n f
    let c := c.notePair n path us k
    if smGet false f.seen k then c.bump (F.FLOW_DUP_COUNT.pg n)
    else
      let f := c.flow n
      let c := c.setFlow n { f with arrival := smSet f.arrival k (path % 2, us) }
      c.placePacket n path m

/-- A flow takes a matched packet: malformed ones are dropped whole and recorded; a good one starts WAIT and STOPPED flows (R120, R130, R131). -/
def Chip.flowPacket (c : Chip) (n path us : Nat) (payload : List Byte) : Chip :=
  match c.mediaParse n payload with
  | (none, seq) =>
    let c := c.bump (F.FLOW_MALFORMED_COUNT.pg n)
    let c := c.report (flowPage n) [{ ue := false, kind := 2, unit := path % 2, syndrome := 0, loc := seq }]
    c.flowEvent n E.FLOW_MALFORMED
  | (some m, _) =>
    let st := c.state (flowPage n)
    let c := c.pathHeard n path
    let c := if st = fsWait || st = fsStop then (c.setFlowState n fsSync).dropFrame n none else c
    c.sequencePacket n path us m

/-- A flow starts: WAIT with the seen map cleared, top unset, LAST_FRAME kept (R127, R131). -/
def Chip.flowStart (c : Chip) (n : Nat) : Chip :=
  let c := c.setFlow n FlowSt.init
  let c := (c.set (F.FLOW_WATERMARK_LINES.pg n) 0).set (F.FLOW_WATERMARK_LAST_VALID.pg n) 0
  (c.set (F.FLOW_SKEW_SKEW.pg n) 0).setFlowState n fsWait

/-- Its bits of MERGE.PATH_LOSS fall. -/
def Chip.pathLossClear (c : Chip) (n : Nat) : Chip := (c.pathHeard n 0).pathHeard n 1

/-- A flow is turned off: writes stop, the watermark is 0 (Flow states). -/
def Chip.flowOff (c : Chip) (n : Nat) : Chip :=
  ((c.dropFrame n none).pathLossClear n).setFlowState n fsOff

/-- No packet for TIMEOUT: a RUNNING flow stops, its frame is abandoned and its watermark withdrawn (R130). -/
def Chip.flowStop (c : Chip) (n : Nat) : Chip :=
  if c.state (flowPage n) ≠ fsRun then c
  else
    let c := c.dropFrame n none
    let c := c.setFlow n { c.flow n with stopBar := c.barCount, holdOver := false }
    (c.setFlowState n fsStop).flowEvent n E.FLOW_STOP

/-- A merged flow has heard nothing on one path for TIMEOUT while the other delivers (R129). -/
def Chip.pathLoss (c : Chip) (n path : Nat) : Chip :=
  let st := c.state (flowPage n)
  if !c.merged n || !(st = fsSync || st = fsRun) then c
  else
    let f : Fld := if path % 2 = 0 then ⟨F.MERGE_PATH_LOSS_A_SILENT.addr, n, n⟩ else ⟨F.MERGE_PATH_LOSS_A_SILENT.addr, 16 + n, 16 + n⟩
    let c := c.set f 1
    let c := c.wr F.MERGE_EVT_FLOWS_FLOWS.addr (c.rd F.MERGE_EVT_FLOWS_FLOWS.addr ||| ((1 : Word) <<< n))
    c.cond E.PATH_LOSS true

/-- The flow is STOPPED, or has left it for SYNC: its layers keep their STOPPED behaviour (R131). -/
def Chip.flowHeld (c : Chip) (n : Nat) : Bool :=
  (decide (c.state (flowPage n) = fsStop) || decide (c.state (flowPage n) = fsSync)) && c.on (F.FLOW_WATERMARK_LAST_VALID.pg n)

/-- HOLD bars after STOPPED have passed, counted from the bar in which it was entered; 0xFFFF holds for good (R130, R131). -/
def Chip.holdExpire (c : Chip) (n : Nat) : Chip :=
  let hold := c.get (F.FLOW_HOLD_BARS.pg n)
  if c.flowHeld n && hold ≠ 0xFFFF && (c.barCount + 2 ^ 32 - (c.flow n).stopBar) % 2 ^ 32 ≥ hold then
    c.setFlow n { c.flow n with holdOver := true }
  else c

/-! ### Ethernet links and control transmission (R110 to R112, R117) -/

/-- A link comes up or goes down: LINK needs alignment, FEC lock on every lane and no fault; with four sub-ports any of them (ETH.STATUS). -/
def Chip.ethLink (c : Chip) (path : Nat) (aligned lf rf : Bool) (subUp fec : Nat) : Chip :=
  let sub := c.get (ethF F.ETH_CONFIG_MODE path) = 1
  let link := if sub then decide (subUp % 16 ≠ 0) else aligned && decide (fec % 16 = 15) && !lf && !rf
  let c := c.set (ethF F.ETH_STATUS_LINK path) (b2n link)
  let c := (c.set (ethF F.ETH_STATUS_LOCAL_FAULT path) (b2n lf)).set (ethF F.ETH_STATUS_REMOTE_FAULT path) (b2n rf)
  let c := (c.set (ethF F.ETH_STATUS_SUB_UP path) (if sub then subUp else 0)).set (ethF F.ETH_STATUS_FEC_LOCK path) fec
  c.cond (evDown path) (c.runs (ethPage path) && !link)

/-- An uncorrectable codeword: the frames it carries fail the FCS (R111). -/
def Chip.fecUncorr (c : Chip) (path frames : Nat) : Chip :=
  ((c.bump (ethF F.ETH_FEC_UNCORR_COUNT path)).bump (ethF F.ETH_RX_FCS_COUNT path) frames).raise (evFec path)

/-- GO starts the transmission of LEN bytes at CTL_TX_ADDR, padded to 60; ignored while BUSY (R117). -/
def Chip.ctlTxStart (c : Chip) (path : Nat) : Chip :=
  if c.on (ethF F.ETH_CTL_TX_CTRL_BUSY path) || !c.runs (ethPage path) then c
  else
    let len := c.get (ethF F.ETH_CTL_TX_CTRL_LEN path)
    let sub := if c.get (ethF F.ETH_CONFIG_MODE path) = 1 then c.get (ethF F.ETH_CTL_TX_CTRL_SUBPORT path) else 0
    let r := c.dramFetch dmFlow (c.get (ethF F.ETH_CTL_TX_ADDR_ADDR path) * 16) len
    let t : CtlTx := { sub := sub, bytes := r.1.1 ++ List.replicate (60 - len) 0 }
    let c := if path % 2 = 0 then { r.2 with ctlTxA := some t } else { r.2 with ctlTxB := some t }
    c.set (ethF F.ETH_CTL_TX_CTRL_BUSY path) 1

/-- The control frame has been sent (R117). -/
def Chip.ctlTxDone (c : Chip) (path : Nat) : Chip :=
  match (if path % 2 = 0 then c.ctlTxA else c.ctlTxB) with
  | none => c
  | some t =>
    let c := if path % 2 = 0 then { c with ctlTxA := none } else { c with ctlTxB := none }
    ((c.emit (.frame (path % 2) t.sub t.bytes)).set (ethF F.ETH_CTL_TX_CTRL_BUSY path) 0).bump (ethF F.ETH_CTL_TX_COUNT path)

/-! ### DP store (R64 to R66) -/

/-- The fastest lanes the adapter offers, in Mbit/s: HBR3, or HBR2 on a Gen 2 link (R58, R64). -/
def Chip.dpLaneMax (c : Chip) : Nat := if c.get F.USB4_LINK_GEN = 2 then 5400 else 8100

/-- The stream is within the limits of R58 and R64: format, size and pixel clock, and a link of at most four lanes at the rate offered that
carries its pixels (a lane of DisplayPort carries 8 bits in 10: assumption log 115). -/
def Chip.dpWithin (c : Chip) (f : DpFormat) : Bool :=
  f.rgb444 && (f.bpc = 8 || f.bpc = 10) && f.width ≤ 7680 && f.height ≤ 4320 && f.pixelMHz ≤ 600 &&
    f.lanes ≤ 4 && f.laneMbps ≤ c.dpLaneMax && 10 * (f.pixelMHz * (3 * f.bpc)) ≤ 8 * (f.lanes * f.laneMbps)

/-- STATUS.LOCK with its condition event; its fall is DP_LOST. -/
def Chip.setDpLock (c : Chip) (b : Bool) : Chip :=
  let was := c.on F.DPIN_STATUS_LOCK
  let c := (c.set F.DPIN_STATUS_LOCK (b2n b)).cond E.DP_LOCK b
  if was && !b then c.raise E.DP_LOST else c

/-- No complete frame since LOCK last rose, and none in progress (R65, R66). -/
def Chip.dpClear (c : Chip) : Chip := { c with dp := { usable := false, line := 0 } }

/-- LOCK rises for a stream within limits; the first complete new frame is awaited (R64, R66). -/
def Chip.dpLock (c : Chip) (f : DpFormat) : Chip :=
  if c.runs 0x049 && c.dpWithin f then
    let c := (c.set F.DPIN_SIZE_WIDTH f.width).set F.DPIN_SIZE_HEIGHT f.height
    ((c.set F.DPIN_STATUS_BPC10 (b2n (decide (f.bpc = 10)))).setDpLock true).dpClear
  else c

/-- A stream outside R64 is not written, and the store is marked not locked. -/
def Chip.dpFormat (c : Chip) (f : DpFormat) : Chip :=
  if c.runs 0x049 && !c.dpWithin f then ((c.setDpLock false).raise E.DP_FORMAT).dpClear else c

/-- The stream is lost (R66). -/
def Chip.dpLost (c : Chip) : Chip := (c.setDpLock false).dpClear

/-- A pixel of a DP stream as it is stored (R65). -/
def Chip.dpPixel (c : Chip) (bpc10 : Bool) (x : Nat) : Nat :=
  if bpc10 then x % 2 ^ 30
  else
    let rgb := x % 2 ^ 24
    if c.on F.DPIN_KEY_KEY_EN && rgb = c.get F.DPIN_KEY_KEY_RGB then rgb else 0xFF000000 + rgb

/-- The frame of the DP store that is written: the one after LAST_FRAME, so frame 1 first after reset. DESIGN CHOICE (assumption log 114): the
specification names no order for the three frames of this store. -/
def Chip.dpSlot (c : Chip) : Nat := (c.get F.DPIN_STATUS_LAST_FRAME + 1) % 3

/-- The next lines of a frame of the stream are written to the store; its line watermark moves on, and with its last line the frame completes
(R65, R125). -/
def Chip.dpFrame (c : Chip) (f : DpFrame) : Chip :=
  if c.runs 0x049 && c.on F.DPIN_STATUS_LOCK && f.width = c.get F.DPIN_SIZE_WIDTH && f.height = c.get F.DPIN_SIZE_HEIGHT &&
      (b2n f.bpc10 = c.get F.DPIN_STATUS_BPC10) && c.dp.line + f.lines.length ≤ f.height && f.lines.all (fun l => decide (l.length = f.width)) then
    let slot := c.dpSlot
    let line := c.dp.line + f.lines.length
    let c := f.lines.zipIdx.foldl (fun c l =>
      let ofs := (slot * f.height + c.dp.line + l.2) * c.dpStride
      let r := c.storeBytes c.dpStore ofs (((l.1.map (fun x => leBytes 4 (c.dpPixel f.bpc10 x))).flatten).take (c.dpSpan - ofs))
      r.2.dramWrite dmDp (c.dpBase + ofs) r.1) c
    if line < f.height then { c with dp := { c.dp with line := line } }
    else { (c.set F.DPIN_STATUS_LAST_FRAME slot).bump F.DPIN_STATUS_FRAME_COUNT with dp := { usable := true, line := 0 } }
  else c

end Sys2Proof.Machine
end

