-- ==== Sys2Proof/Machine/TileOps.lean ====
section
/-! DEFINITION. The tile pipeline: images, cells to levels, what each beat shows, the pass schedule, holding images, dose and ageing (spec/09_tile_pipeline.md). Instants ending in 33 are in 1/33 ps. -/

namespace Sys2Proof.Machine

def pgTilerx : Nat := 0x0A0
def pgCorrect : Nat := 0x0A1
def pgEotf : Nat := 0x0A2
def pgDose : Nat := 0x0A3

/-- A GCLK step of 2,482 ps and 14/33: 81,920 units; 1/64 of it; a picosecond; a microsecond; 1/12 ns (R9, R102). -/
def step33 : Nat := 81920
def ui33 : Nat := 1280
def us33 : Nat := 33000000
def twelfth33 : Nat := 2750

def Chip.setTile (c : Chip) (t : TileSt) : Chip := { c with tile := t }
def Chip.setSched (c : Chip) (s : SchedSt) : Chip := { c with tile := { c.tile with sched := s } }

/-! ### Geometry (R252) -/

def Chip.geoRows (c : Chip) : Nat := max 16 (min 64 (c.get F.DRIVECTL_GEOMETRY_ROWS))
def Chip.geoCols (c : Chip) : Nat :=
  let v := c.get F.DRIVECTL_GEOMETRY_COLS
  if v = 0 || decide (192 < v) then 192 else v
def Chip.geoBands (c : Chip) : Nat := c.get F.DRIVECTL_GEOMETRY_BANDS + 1
def Chip.lamps (c : Chip) : Nat := c.geoBands * c.geoRows * c.geoCols
/-- The band, row and column of a lamp. -/
def Chip.lampBand (c : Chip) (l : Nat) : Nat := l / (c.geoRows * c.geoCols)
def Chip.lampRow (c : Chip) (l : Nat) : Nat := l % (c.geoRows * c.geoCols) / c.geoCols
def Chip.lampCol (c : Chip) (l : Nat) : Nat := l % c.geoCols

/-! ### Tile memory (R225, R226, R232) -/

/-- The master code of the tile pipeline at a bank. -/
def mTile : Nat := 3

/-- Who records an error of a word read: page, unit, and the event of an uncorrectable word; `ce` also records corrected words (R232, R237). -/
structure TileRec where
  page : Nat
  unit : Nat
  ce : Bool
  ev : Option Ev
deriving DecidableEq, Repr

/-- A word of a bank read by the pipeline, with the records of R232 and R237 beside those of the bank. -/
def Chip.tileWord (c : Chip) (w : Nat) (r : TileRec) : (Word128 × Bool) × Chip :=
  let b := w / 65536
  if !c.ownsBank b mTile then ((0, true), c.bankDeny b)
  else
    let c := c.retireWord b (w % 65536)
    let k := c.sramWord w
    let syn := c.sramSyn k
    let fresh := (c.bank b).lastUe ≠ some (w, syn)
    let found := eccBySyndrome (c.sramData k) syn
    let x := c.sramReadWord mOwner w
    let rec? : Option Bool := match found with
      | .corrected _ _ => if r.ce then some false else none
      | .uncorrectable _ => if fresh then some true else none
      | _ => none
    match rec? with
    | none => x
    | some ue =>
      let c2 := x.2.report r.page [{ ue := ue, kind := 0, unit := r.unit, syndrome := syn, loc := sramLoc w }]
      (x.1, match ue, r.ev with | true, some e => c2.raise e | _, _ => c2)

/-- Bytes of a bank read by the pipeline, and whether any comes from a poisoned word. -/
def Chip.tileRead (c : Chip) (bank ofs n : Nat) (r : TileRec) : (List Byte × Bool) × Chip :=
  let o := bank * 1048576 + ofs
  let words := (List.range ((o + n - 1) / 16 + 1 - o / 16)).map (· + o / 16)
  let x := words.foldl (fun (a : (List Byte × Bool) × Chip) w =>
    let y := a.2.tileWord w r
    ((a.1.1 ++ leBytes 16 y.1.1.toNat, a.1.2 || y.1.2), y.2)) (([], false), c)
  ((slice x.1.1 (o % 16) n, x.1.2), x.2)

/-- Bytes of a bank written by the pipeline. -/
def Chip.tileWrite (c : Chip) (bank ofs : Nat) (bytes : List Byte) : Chip :=
  (wordLanes (bank * 1048576 + ofs) (bytes.map some)).foldl (fun c x => c.bankWriteWord mTile x.1 x.2) c

/-- Bank and offset of a beat-image buffer (R225). -/
def bufBank (buf : Nat) : Nat := buf / 3
def bufOfs (buf : Nat) : Nat := buf % 3 * 0x48000

/-- A level as the pipeline gives it: an open value after a host error of a handover (R250, R306). -/
def Chip.levelOut (c : Chip) (v : Nat) : Nat × Chip := if c.upset mTile then c.openValue 16 else (v, c)

/-- The three levels of a lamp written to a buffer (R226). -/
def Chip.putLamp (c : Chip) (buf lamp : Nat) (lev : List Nat) : Chip :=
  let r := lev.foldl (fun (a : List Nat × Chip) v => let x := a.2.levelOut v; (a.1 ++ [x.1], x.2)) (([] : List Nat), c)
  r.2.tileWrite (bufBank buf) (bufOfs buf + 6 * lamp) (r.1.flatMap (fun v => leBytes 2 v))

/-- The record of a poisoned image word: TILERX, UNIT the bank (R237, R429). -/
def imageRec (buf : Nat) : TileRec := { page := pgTilerx, unit := bufBank buf, ce := false, ev := none }

/-- The three levels of a lamp in a buffer, and whether any word was poisoned. -/
def Chip.getLamp (c : Chip) (buf lamp : Nat) : (List Nat × Bool) × Chip :=
  let r := c.tileRead (bufBank buf) (bufOfs buf + 6 * lamp) 6 (imageRec buf)
  (([0, 2, 4].map (fun k => ofLe (slice r.1.1 k 2)), r.1.2), r.2)

/-! ### From cell to level (R228 to R232) -/

/-- Four temperatures of the stored sets in 1/16 °C (R231, R266). -/
def setTemps : List Int := [-320, 320, 880, 1360]

/-- The factor of R231 from four values at a temperature; at exactly 20 and 55 °C the segment below gives it, at 85 °C set 3 (DEDUCED, assumption log
51). -/
def tempFactor (g : Nat → Nat) (t : Int) : Nat :=
  let at_ := fun (i : Nat) => setTemps.getD i 0
  let seg := fun (i : Nat) =>
    ((g i : Int) + Int.tdiv (((g (i + 1) : Int) - g i) * (t - at_ i) + Int.tdiv (at_ (i + 1) - at_ i) 2) (at_ (i + 1) - at_ i)).toNat
  if t ≤ at_ 0 then g 0 else if t ≤ at_ 1 then seg 0 else if t ≤ at_ 2 then seg 1 else if t < at_ 3 then seg 2 else g 3

/-- The band temperature factors recomputed (R231), and the temperatures shown. -/
def Chip.tempFactors (c : Chip) : Chip :=
  (List.range 4).foldl (fun c n =>
    let t := c.bandTemp n
    let c := (c.set (F.CORRECT_BAND_TEMP_TJ.plus (4 * n)) (unsign 16 t.1)).set (F.CORRECT_BAND_TEMP_SUBST.plus (4 * n)) (b2n t.2)
    (List.range 3).foldl (fun c k =>
      c.setTile { c.tile with tg := smSet c.tile.tg (3 * n + k) (tempFactor (fun i => smGet 16384 c.tile.tcUse ((3 * n + k) * 4 + i)) t.1) }) c) c

/-- HEADROOM as it acts (R230). -/
def headroomOf (v : Nat) : Nat := min 8192 v

/-- The headroom factor kh (R229). -/
def khOf (hr : Nat) : Nat := 2 ^ 31 / (32768 + hr)

/-- What a build latches when it opens (R233). -/
def Chip.tileCfg (c : Chip) : TileCfg :=
  { eotf := c.tile.eotfUse, coefSet := c.use F.CORRECT_CTRL_COEF_SET, uniform := c.use F.CORRECT_CTRL_UNIFORM = 1,
    tg := (List.range 12).map (fun i => if c.use F.CORRECT_CTRL_TEMP_EN = 1 then smGet 16384 c.tile.tg i else 16384),
    gainSel := c.use F.DOSE_CTRL_GAIN_SEL, ageEn := c.use F.DOSE_CTRL_AGE_EN = 1, headroom := headroomOf (c.use F.DOSE_CTRL_HEADROOM) }

/-- The arithmetic of R229 for one lamp: components to linear through `lin`, matrix `cm`, temperature factors `tg` and gains `ag`. -/
def lampLevels (f : Nat) (lin : List Nat) (cm : Nat → Nat → Int) (tg ag : Nat → Nat) (ageEn : Bool) (hr : Nat) : List Nat :=
  (List.range 3).map (fun k =>
    if f = 1 then min (lin.getD k 0) 65535
    else
      let sum : Int := (List.range 3).foldl (fun a j => a + cm k j * (lin.getD j 0 : Nat)) 0
      let m := clampNat (asr (sum + 4096) 13) 0xFFFFF
      let t := min ((m * tg k + 8192) / 2 ^ 14) 0xFFFFF
      let a := if ageEn then min (ag k) (32768 + hr) else 32768
      let v := min ((t * a + 16384) / 2 ^ 15) 0xFFFFF
      min ((v * khOf hr + 32768) / 2 ^ 16) 65535)

/-- Uniform coefficients (R232). -/
def uniformCm (k j : Nat) : Int := if k = j then 8192 else 0

/-- The matrix of a lamp: its record, or uniform coefficients while the set is not valid, under UNIFORM, or where it is poisoned (R232). -/
def Chip.lampCm (c : Chip) (cfg : TileCfg) (lamp : Nat) : (Nat → Nat → Int) × Chip :=
  let valid := if cfg.coefSet = 0 then c.on F.CORRECT_CTRL_COEF_VALID_0 else c.on F.CORRECT_CTRL_COEF_VALID_1
  if cfg.uniform || !valid then (uniformCm, c)
  else
    let r := c.tileRead (3 + cfg.coefSet) (18 * lamp) 18 { page := pgCorrect, unit := cfg.coefSet, ce := true, ev := some E.CORRECT_UE }
    if r.1.2 then (uniformCm, r.2) else (fun k j => signed 16 (ofLe (slice r.1.1 (2 * (3 * k + j)) 2)), r.2)

/-- The gains of a lamp; a poisoned word acts as 32,768 (R232). -/
def Chip.lampGains (c : Chip) (cfg : TileCfg) (lamp : Nat) : (Nat → Nat) × Chip :=
  if !cfg.ageEn then (fun _ => 32768, c)
  else
    let one := fun (c : Chip) (k : Nat) =>
      let r := c.tileRead (6 + cfg.gainSel) (6 * lamp + 2 * k) 2 { page := pgDose, unit := cfg.gainSel, ce := true, ev := some E.DOSE_FAULT }
      (if r.1.2 then 32768 else ofLe r.1.1, r.2)
    let a := one c 0
    let b := one a.2 1
    let d := one b.2 2
    (fun k => match k with | 0 => a.1 | 1 => b.1 | _ => d.1, d.2)

/-- The levels of a lamp slot: none for KEEP (R228, R229). `eng` is the engine whose table copy decodes. -/
def Chip.lampValue (c : Chip) (cfg : TileCfg) (eng lamp slot : Nat) : Option (List Nat) × Chip :=
  let f := slot / 2 ^ 30 % 4
  if f = 3 then (none, c)
  else if f = 2 then (some [0, 0, 0], c)
  else
    let lin := (List.range 3).map (fun k =>
      let i := 1024 * k + slot / 2 ^ (10 * (2 - k)) % 1024
      if smGet false c.tile.eotfBad (4096 * eng + i) then 0 else smGet 0 cfg.eotf i)
    if f = 1 then (some (lampLevels 1 lin uniformCm (fun _ => 16384) (fun _ => 32768) false 0), c)
    else
      let m := c.lampCm cfg lamp
      let g := m.2.lampGains cfg lamp
      (some (lampLevels 0 lin m.1 (fun k => cfg.tg.getD (3 * c.lampBand lamp + k) 16384) g.1 cfg.ageEn cfg.headroom), g.2)

/-- An EOTF word of an engine read with a syndrome: corrected in use; or uncorrectable, read as 0 until the next commit, with EOTF_UE. Both are
recorded with UNIT 0 (R232, R312, R313). -/
def Chip.eotfUpset (c : Chip) (eng : Nat) (words : List (Nat × Nat)) : Chip :=
  words.foldl (fun c x =>
    let i := x.1 % 3072
    let key := 4096 * (eng % 2) + i
    let rec? := fun (ue : Bool) => ({ ue := ue, kind := 0, unit := 0, syndrome := x.2 % 512, loc := i } : ErrRec)
    if smGet false c.tile.eotfBad key then c
    else match eccBySyndrome 0 x.2 with
      | .clean => c
      | .corrected _ _ => c.report pgEotf [rec? false]
      | _ => ((c.setTile { c.tile with eotfBad := smSet c.tile.eotfBad key true }).report pgEotf [rec? true]).raise E.EOTF_UE) c

/-! ### Images (R234 to R237) -/

def Chip.image? (c : Chip) (serial : Nat) : Option ImgSt := c.tile.images.find? (fun x => x.serial = serial)
def Chip.setImage (c : Chip) (x : ImgSt) : Chip :=
  c.setTile { c.tile with images := c.tile.images.map (fun y => if y.serial = x.serial then x else y) }

/-- The newest complete image of a feed. -/
def Chip.newestImage (c : Chip) (feed : Nat) : Option ImgSt := (smFind c.tile.newest feed).bind c.image?

/-- An image is in use (R234). -/
def Chip.imageUsed (c : Chip) (x : ImgSt) : Bool :=
  c.tile.sched.image = some x.serial || c.tile.newest.any (fun p => p.2 = x.serial) || c.tile.kept.contains x.serial || x.phase = 1

/-- The buffers in use. -/
def Chip.buffersUsed (c : Chip) : List Nat :=
  (c.tile.images.filter c.imageUsed).map (·.buf) ++ (c.tile.hold.map (·.buf)).toList ++ (c.tile.holdNext.map (·.buf)).toList

/-- Images no longer used are freed, and the status registers follow (R233, R234). -/
def Chip.tileShow (c : Chip) : Chip :=
  let c := c.setTile { c.tile with images := c.tile.images.filter c.imageUsed }
  let opened := c.tile.images.filter (fun x => x.phase = 0)
  let c := c.set F.TILERX_STATUS_BUF_USED (((List.range 9).filter c.buffersUsed.contains).map (2 ^ ·)).sum
  let c := c.set F.TILERX_STATUS_OPEN opened.length
  let c := c.set F.CORRECT_STATUS_OLD_BUSY (b2n (opened.any (fun x => x.cfg.coefSet ≠ c.use F.CORRECT_CTRL_COEF_SET)))
  c.set F.DOSE_STATUS_OLD_BUSY (b2n (opened.any (fun x => x.cfg.gainSel ≠ c.use F.DOSE_CTRL_GAIN_SEL)))

/-- A free buffer of the pool, lowest first. -/
def Chip.freeBuffer (c : Chip) : Option Nat := (List.range 9).find? (fun b => !c.buffersUsed.contains b)

/-- Every lamp of an image is marked. -/
def Chip.allMarked (c : Chip) (x : ImgSt) : Bool := (List.range c.lamps).all (fun l => smGet false x.marks l)

/-- A build closes; displaced, or with an unmarked lamp, it is incomplete (R236). -/
def Chip.closeBuild (c : Chip) (serial : Nat) (displaced : Bool) : Chip :=
  match c.image? serial with
  | none => c
  | some x =>
    if x.phase ≠ 0 then c
    else
      let c := c.setImage { x with phase := 1 }
      if displaced || !c.allMarked x then (c.bumpSat F.TILERX_INCOMPLETE_COUNT).raise E.IMAGE_INCOMPLETE else c

/-- The margin of a complete image against its due instant (R239, R240). -/
def Chip.judgeImage (c : Chip) (x : ImgSt) : Chip :=
  match x.due33 with
  | none => c
  | some due =>
    if x.phase ≠ 2 || x.judged then c
    else
      let m : Int := ((due : Int) - x.done33) / (us33 : Int)
      let c := c.setImage { x with judged := true }
      let c := if m < signed 16 (c.get F.TILERX_MARGIN_MIN_US) then c.set F.TILERX_MARGIN_MIN_US (unsign 16 (max (-32768) m)) else c
      if due < x.done33 then (c.bumpSat F.TILERX_LATE_COUNT_COUNT).raise E.IMAGE_LATE else c

/-- The fill of unmarked lamps from the newest complete image of the feed, level 0 without one or where poisoned (R237). -/
def Chip.fillImage (c : Chip) (x : ImgSt) : Chip :=
  (List.range c.lamps).foldl (fun c l =>
    if smGet false x.marks l then c
    else match c.newestImage x.feed with
      | none => c.putLamp x.buf l [0, 0, 0]
      | some y =>
        let r := c.getLamp y.buf l
        r.2.putLamp x.buf l (if r.1.2 then [0, 0, 0] else r.1.1)) c

/-- A build is complete: its fill has ended, it is counted, and it becomes the newest complete image of its feed (R237, MAPCTL.STATUS). -/
def Chip.finishImage (c : Chip) (serial at33 : Nat) : Chip :=
  match c.image? serial with
  | none => c
  | some x =>
    if x.phase ≠ 1 then c
    else
      let c := c.fillImage x
      let x := { x with phase := 2, done33 := at33 }
      let c := c.setImage x
      let c := c.setTile { c.tile with newest := smSet c.tile.newest x.feed serial }
      (((c.bump F.TILERX_IMAGES_COUNT).bump F.MAPCTL_STATUS_CANVAS_SEQ).judgeImage x).tileShow

/-- The oldest closed build whose queued cells have all been written completes at an instant (R237). -/
def Chip.imageComplete (c : Chip) (ps : Nat) : Chip :=
  let at33 := max c.tile.sched.now33 (33 * ps)
  match c.tile.images.find? (fun x => x.phase = 1 && !c.tile.rxq.any (fun q => q.serial = x.serial)) with
  | none => c
  | some x => (c.setSched { c.tile.sched with now33 := at33 }).finishImage x.serial at33

/-- An announcement opens a build; the older of the two kept is displaced, and closes if it is open. A displaced build that is still filling
completes first: only one can be filling (R211, R234 to R236). -/
def Chip.openBuild (c : Chip) (feed bar beat : Nat) : Chip :=
  let same := c.tile.kept.any (fun s => match c.image? s with | some x => x.litBar = bar && x.litBeat = beat | none => false)
  if same || !c.runs pgTilerx then c
  else
    let out := if 2 ≤ c.tile.kept.length then c.tile.kept.take (c.tile.kept.length - 1) else []
    let c := c.setTile { c.tile with kept := c.tile.kept.drop out.length }
    let c := (c.tile.images.filter (fun x => x.phase = 1 && !c.tile.kept.contains x.serial && !out.contains x.serial)).foldl
      (fun c x => c.finishImage x.serial c.tile.sched.now33) c
    let c := (out.foldl (fun c s => c.closeBuild s true) c).tileShow
    let cfg := c.tileCfg
    let img : ImgSt :=
      { serial := c.tile.serial, feed := feed, litBar := bar, litBeat := beat, buf := c.freeBuffer.getD 0, phase := 0, cfg := cfg, marks := [],
        cells := [], done33 := 0, due33 := none, judged := false }
    let c := c.setTile { c.tile with
      images := c.tile.images ++ [img], kept := c.tile.kept ++ [img.serial], serial := c.tile.serial + 1 }
    ((c.set F.CORRECT_STATUS_SET_ACTIVE cfg.coefSet).set F.DOSE_KH_KH (khOf cfg.headroom)).tileShow

/-- Every open build closes as incomplete (SRST, a change of the ring obeyed; R297). -/
def Chip.closeAll (c : Chip) : Chip :=
  ((c.tile.images.filter (fun x => x.phase = 0)).foldl (fun c x => c.closeBuild x.serial true) c).tileShow

/-! ### Receive queue (R211, R227) -/

/-- The word of a cell that holds a pixel slot (R194). -/
def slotWord (k : Nat) : Nat := (k + 2) / 4

/-- A PIXEL cell addressed to the tile arrives on a port of the ring obeyed; `bad` is the mask of its uncorrectable words
(R211, R227, R296, R297). -/
def Chip.pixelArrive (c : Chip) (p cell bad : Nat) : Chip :=
  if !c.runs pgTilerx || !cellActive cell || !c.ringInUse p then c
  else
    match c.tile.images.find? (fun x => c.tile.kept.contains x.serial && x.phase = 0 && decide (x.litBeat = cellBeat cell) &&
        decide (x.litBar % 64 = cellBarLsb cell)) with
    | none => c.cause p cStray
    | some x =>
      let i := cellFirstLamp cell / 14
      if smGet false x.cells i || c.tableBuild x.litBar then c
      else if 2048 ≤ c.tile.rxq.length then c.bumpSat F.TILERX_QUEUE_DROP_COUNT
      else
        let c := if bad = 0 then c.setImage { x with cells := smSet x.cells i true } else c
        c.setTile { c.tile with rxq := c.tile.rxq ++ [{ cell := cell, bad := bad, serial := x.serial }] }

/-- One lamp slot of a cell is written to its build. -/
def Chip.writeSlot (c : Chip) (serial eng : Nat) (q : RxCell) (k : Nat) : Chip :=
  let lamp := cellFirstLamp q.cell + k
  match c.image? serial with
  | none => c
  | some x =>
    if c.lamps ≤ lamp || q.bad / 2 ^ slotWord k % 2 = 1 then c
    else
      let r := c.lampValue x.cfg eng lamp (cellPixel q.cell k)
      match r.1 with
      | none => r.2
      | some lev =>
        let c := r.2.putLamp x.buf lamp lev
        match c.image? serial with
        | none => c
        | some y => c.setImage { y with marks := smSet y.marks lamp true }

/-- An engine carries the tile pipeline: MAPCTL.LAMP; with both bits 0, engine 0 does (R162). -/
def Chip.lampEngine (c : Chip) (eng : Nat) : Bool :=
  let e0 := c.use F.MAPCTL_LAMP_ENG0 = 1
  let e1 := c.use F.MAPCTL_LAMP_ENG1 = 1
  if eng % 2 = 1 then e1 else e0 || !e1

/-- Lamps that the slots of a cell give an engine to process: those below the lamp count whose words are correct, none in a HOLD cell. -/
def Chip.cellLamps (c : Chip) (q : RxCell) : Nat :=
  if cellHold q.cell then 0
  else ((List.range 14).filter (fun k => decide (cellFirstLamp q.cell + k < c.lamps) && q.bad / 2 ^ slotWord k % 2 = 0)).length

/-- A lamp engine that carries the pipeline takes the cell at the head of the receive queue (R162, R227 to R229); with LAST its build closes
(R236). A cell is its task (assumption log 143). -/
def Chip.pixelProcess (c : Chip) (eng : Nat) (upsets : List (Nat × Nat)) : Chip :=
  if !c.lampEngine eng then c
  else
    let c := c.eotfUpset eng upsets
    match c.tile.rxq with
    | [] => c
    | q :: t =>
      let c := c.setTile { c.tile with rxq := t }
      let c := (c.bump (F.MAP_STATUS_TASKS.pg (eng % 2))).bump (F.MAP_SAMPLES_COUNT.pg (eng % 2)) (c.cellLamps q)
      let c := if cellHold q.cell then c else (List.range 14).foldl (fun c k => c.writeSlot q.serial (eng % 2) q k) c
      if cellLast q.cell then (c.closeBuild q.serial false).tileShow else c

/-! ### Downbeats (R102, R105, R211, R212, R243) -/

def tsOff : Nat := 0
def tsSearch : Nat := 1
def tsLocked : Nat := 2
def tsSlew : Nat := 3
def tsFlywheel : Nat := 4

def Chip.tileState (c : Chip) : Nat := c.state pgTilerx

/-- The state of TILERX, with the FLYWHEEL event (R242). -/
def Chip.setTileState (c : Chip) (s : Nat) : Chip :=
  (c.set (F.STATE.pg pgTilerx) s).cond E.FLYWHEEL (s = tsSearch || s = tsFlywheel)

/-- OFFSET, its event and the states LOCKED and SLEW (R241). -/
def Chip.setOffset (c : Chip) (o : Int) : Chip :=
  let c := c.setSched { c.tile.sched with offset33 := o }
  let c := (c.set F.TILERX_OFFSET_STEPS (unsign 32 (Int.tdiv o step33))).cond E.SCHED_SLEW (decide (o ≠ 0))
  if c.tileState = tsLocked && decide (o ≠ 0) then c.setTileState tsSlew
  else if c.tileState = tsSlew && decide (o = 0) then c.setTileState tsLocked else c

/-- WALL_DEPTH in ps. -/
def Chip.wallDepthPs (c : Chip) : Nat := 1000 * c.get F.BAR_WALL_DEPTH_NS

/-- The sequence test of R105. -/
def Chip.dbSequence (c : Chip) (p : Nat) (d : Downbeat) : Bool :=
  !(c.port p).numbered ||
  (match smFind c.tile.seen p with
   | none => true
   | some l =>
     if l.mode ≠ d.mode then true
     else if d.beat = 0 then decide (d.barCount = (l.bar + 1) % 2 ^ 32) else decide (d.barCount = l.bar) && decide (l.beat < d.beat))

/-- A DOWNBEAT cell with correct CRC and words is valid (R105). -/
def Chip.dbOk (c : Chip) (p : Nat) (d : Downbeat) : Bool :=
  decide (d.mode < 24) && decide (d.beat < modeBeats d.mode) && decide (d.accDelay < c.wallDepthPs) && c.dbSequence p d

/-- Nominal length of a beat of a mode in 1/33 ps; the last of a bar takes the remainder (R13). -/
def beat33 (mode beat : Nat) : Nat := (beatLengths (period12 mode) (max 1 (modeBeats mode))).getD beat (beatPeriod12 mode) * twelfth33

/-- The schedule's actual start of the beat being shown. -/
def SchedSt.actual33 (s : SchedSt) : Int := (s.base33 : Int) + s.offset33

/-- The beat that follows a beat of a mode (R211). -/
def nextBeatOf (mode bar beat : Nat) : Nat × Nat := if beat + 1 < modeBeats mode then (bar, beat + 1) else ((bar + 1) % 2 ^ 32, 0)

/-- A difference reduced into (−P/2, +P/2]. -/
def halfReduce (d : Int) (p : Nat) : Int :=
  let r := d % (p : Int)
  if r * 2 > (p : Int) then r - p else r

/-- The bar start that a start instant defines: its own, or, of a beat mark, the nominal beats left of its bar later. -/
def DbStart.barStart (d : DbStart) : DbStart :=
  if d.beat = 0 then d
  else
    let left := ((List.range (modeBeats d.mode)).filter (fun b => decide (d.beat ≤ b))).map (beat33 d.mode)
    { d with bar := (d.bar + 1) % 2 ^ 32, beat := 0, start33 := d.start33 + left.sum, timeNs := (d.timeNs + left.sum / (12 * twelfth33)) % 2 ^ 32 }

/-- The re-entry of R243 is due at the start defined, or in a new mode at the bar start. -/
def Chip.reenter (c : Chip) (d : DbStart) : Chip :=
  c.setSched { c.tile.sched with reentry := some (if d.mode = c.tile.sched.mode then d else d.barStart) }

/-- The schedule hears a valid downbeat after it had lost its place: the offset is reduced, then slewed or re-entered (R243). -/
def Chip.regain (c : Chip) (d : DbStart) : Chip :=
  let s := c.tile.sched
  if c.tileState = tsSearch || d.mode ≠ s.mode || !s.known then c.reenter d
  else
    let p := period12 s.mode * twelfth33
    -- the schedule's own start of the downbeat's beat in the bar being shown
    let own : Int := s.actual33 + ((List.range d.beat).map (fun b => (beat33 s.mode b : Int))).sum
      - ((List.range s.beat).map (fun b => (beat33 s.mode b : Int))).sum
    let off := halfReduce (own - d.start33) p
    if decide (off.natAbs ≤ c.get F.TILERX_SLEW_MAX_US * us33) then
      let bars : Int := ((d.start33 : Int) + off - own) / (p : Int)
      let k := unsign 32 ((d.bar : Int) + 1 - bars)
      let c := c.setSched { s with base33 := (s.actual33 - off).toNat, barNext := some k, flyBars := 0, flyHold := false, heard := true, rejoin := false }
      let c := if c.tileState = tsFlywheel then c.setTileState (if off = 0 then tsLocked else tsSlew) else c
      c.setOffset off
    else c.reenter d

/-- The preparation time of a start, 500 ns (R102, R212). -/
def prep33 : Nat := 500000 * 33

/-- The start to use for a bar and beat of the mode shown: 500 ns before it, direction 0 where its cell has come by then and its direction is
not lost; otherwise direction 1 (R212, R213). -/
def Chip.bestStart (c : Chip) (mode bar beat : Nat) : Option DbStart :=
  let l := c.tile.starts.filter (fun d => d.bar = bar && d.beat = beat && d.mode = mode)
  match l.find? (fun d => d.dir = 0), l.find? (fun d => d.dir ≠ 0) with
  | some a, some b =>
    if b.start33 < a.at33 + prep33 || ((c.port a.port).dirLost && !(c.port b.port).dirLost) then some b else some a
  | some a, none => some a
  | none, b => b

/-- The bar the schedule shows next after the one being shown. -/
def SchedSt.nextBar (s : SchedSt) : Nat := s.barNext.getD ((s.bar + 1) % 2 ^ 32)

/-- The beat the schedule shows next. -/
def SchedSt.next (s : SchedSt) : Nat × Nat := if s.beat + 1 < modeBeats s.mode then (s.bar, s.beat + 1) else (s.nextBar, 0)

/-- Slack of a pass after R15, before waits and catch-up, in 1/33 ps: the last pass of a beat ends at the start that the downbeats define for
the next, where its cell has been validated, else at the nominal length (R239, R430). -/
def Chip.slack33 (c : Chip) : Nat :=
  let s := c.tile.sched
  let rows := c.geoRows * s.slotSteps * step33
  if s.passes ≤ s.index && s.reentry.isNone then
    let n := s.next
    let defined := if c.tileState = tsFlywheel then none else c.bestStart s.mode n.1 n.2
    let len := match defined with | some d => d.start33 - s.base33 | none => beat33 s.mode s.beat
    len - s.gapSteps * step33 - (s.passes - 1) * s.passSteps * step33 - rows
  else s.passSteps * step33 - rows

/-- DRIVECTL.SLACK shows the slack of the pass in progress. -/
def Chip.showSlack (c : Chip) : Chip := if c.tile.sched.index = 0 then c else c.set F.DRIVECTL_SLACK_STEPS (c.slack33 / step33)

/-- The rows of a pass in 1/33 ps. -/
def Chip.rows33 (c : Chip) : Nat := c.geoRows * c.tile.sched.slotSteps * step33

/-- The end of the pass in progress after catch-up, and the offset left: a late schedule takes the slack left, an early one adds up to the
nominal slack; the last pass ends where the next beat starts, never within its row slots (R241, R430). -/
def Chip.passEnd (c : Chip) : Nat × Int :=
  let s := c.tile.sched
  let rowsEnd : Nat := s.start33 + s.waited33 + c.rows33
  let last := decide (s.passes ≤ s.index) && s.reentry.isNone
  let nominal : Int :=
    if last then
      let n := s.next
      let base : Nat := match c.bestStart s.mode n.1 n.2 with
        | some d => if c.tileState = tsFlywheel then s.base33 + beat33 s.mode s.beat else d.start33
        | none => s.base33 + beat33 s.mode s.beat
      (base : Int) + s.offset33
    else (s.start33 + s.passSteps * step33 : Nat)
  let slack : Int := max 0 (nominal - rowsEnd)
  let d : Int := if 0 < s.offset33 then min s.offset33 slack
    else - min (-s.offset33) ((s.passSteps / 16 * step33 : Nat) : Int)
  let e := nominal - d
  if e < rowsEnd then (rowsEnd, s.offset33 - d + (rowsEnd - e)) else (e.toNat, s.offset33 - d)

/-- The instant from which the schedule may start a beat anew: no pass is in progress then (R243). -/
def Chip.idleFrom33 (c : Chip) : Nat :=
  let s := c.tile.sched
  if s.passes = 0 then 0 else if s.index = 0 then s.start33 else c.passEnd.1

/-- The end of the whole pass that would follow. -/
def Chip.nextPassEnd33 (c : Chip) : Nat :=
  let s := c.tile.sched
  (if s.index = 0 then s.start33 + s.gapSteps * step33 else c.passEnd.1) + s.passSteps * step33

/-- The defined start at which the schedule re-enters: the one noted, or, where the pass in progress completes after it, the first that the
downbeats define from then on (R243; DEDUCED, assumption log 189). -/
def Chip.reentryStart (c : Chip) : Option DbStart :=
  match c.tile.sched.reentry with
  | none => none
  | some d =>
    if c.idleFrom33 ≤ d.start33 then some d
    else
      let l := c.tile.starts.filter (fun x => x.mode = d.mode && (d.mode = c.tile.sched.mode || x.beat = 0) && decide (c.idleFrom33 ≤ x.start33))
      l.foldl (fun (b : Option DbStart) x => match b with | none => some x | some y => if x.start33 < y.start33 then some x else some y) none

/-- A usable start instant joins the schedule (R212, R241, R243, R430). -/
def Chip.hearStart (c : Chip) (d : DbStart) : Chip :=
  let c := c.setTile { c.tile with
    starts := (c.tile.starts.filter (fun x => !(x.port = d.port && x.beat = d.beat && x.bar = d.bar))) ++ [d] }
  let s := c.tile.sched
  if c.tileState = tsFlywheel || c.tileState = tsSearch || d.mode ≠ s.mode || !s.known || s.rejoin then
    -- a re-entry that stands at an earlier start is kept
    if s.reentry.any (fun r => r.mode = d.mode && decide (c.idleFrom33 ≤ r.start33) && decide (r.start33 < d.start33) && decide ((r.bar, r.beat) ≠ (d.bar, d.beat))) then c
    else c.regain d
  else if d.bar = s.bar && d.beat = s.beat then
    if (c.bestStart s.mode s.bar s.beat) = some d then
      let o := s.actual33 - (d.start33 : Int)
      (c.setSched { s with base33 := d.start33, heard := true, time12 := some (12 * d.timeNs) }).setOffset o
    else c
  else if (d.bar, d.beat) = s.next then (c.setSched { s with heard := s.heard || decide (d.bar = s.bar) }).showSlack
  else if c.tile.starts.any (fun x => x.bar = d.bar && x.beat = d.beat && x.port ≠ d.port) then c
  else c.regain d

/-- LOCK of a tile: three bars of valid downbeats without DB_MISSING or DB_RANGE (BAR.STATUS). -/
def Chip.dbBad (c : Chip) : Chip := (c.setSched { c.tile.sched with good := 0 }).setBarLock false

/-- A ring carries ACTIVE downbeats: its last valid one was ACTIVE, its stream is not lost in both directions, and it is not two bars behind
those of the other ring (R297, R298; assumption log 45). -/
def Chip.ringActive (c : Chip) (r : Nat) : Bool :=
  match smFind c.tile.seen (16 + r) with
  | none => false
  | some l =>
    let lost := (c.port (2 * r)).dirLost && (c.get F.CHAINCTL_TILE_CFG_TOPO = 0 || (c.port (2 * r + 1)).dirLost)
    let behind := match smFind c.tile.seen (17 - r) with
      | some o => o.active && (let d := (o.bar + 2 ^ 32 - l.bar) % 2 ^ 32; decide (2 ≤ d) && decide (d < 2 ^ 31))
      | none => false
    l.active && !lost && !behind

/-- The ring a tile obeys, 0 P or 1 S, or none (R297). -/
def Chip.obeyed (c : Chip) : Option Nat :=
  if c.ringActive 0 then some 0 else if c.ringActive 1 then some 1 else none

/-- A DOWNBEAT cell arrives on a port at an instant, its words correct or not: validated, announced, timed; a lost direction gives no timing
while the other is there (R102, R105, R211 to R213, R296, R297). -/
def Chip.tileDownbeat (onRing : Chip → Chip) (c : Chip) (p cell arrival33 : Nat) (words : Bool) : Chip :=
  let d := Downbeat.ofCell cell
  if !words || !c.dbOk p d then
    if d.active then (c.dbBad.raise E.DB_RANGE) else c
  else
    let dIn := d.accDelay + c.linkDelay p
    let seen : DbSeen := { bar := d.barCount, beat := d.beat, mode := d.mode, active := d.active }
    let dual := c.get F.CHAINCTL_TILE_CFG_TOPO = 2
    let ring := if dual then ringOf p else 0
    let c := c.setTile { c.tile with seen := smSet (smSet c.tile.seen p seen) (16 + ring) seen, lastBar := d.barCount }
    let c := (c.setPort p { c.port p with numbered := true }).set F.BAR_DB_DELAY_PS (min 0xFFFFFF dIn)
    let c := onRing c
    if !d.active || c.obeyed ≠ some ring then c
    else
      let short := decide (c.wallDepthPs < dIn + 500000)
      let wait := if short then 500000 else c.wallDepthPs - dIn
      let c := if short then c.dbBad.raise E.DB_RANGE else c
      let c := if d.mode = c.mode then c else c.raise E.MODE_CHANGE
      let c := (c.set F.BAR_COUNT_COUNT d.barCount).set F.BAR_MODE_MODE_IN_USE d.mode
      let st : DbStart :=
        { dir := c.get (F.PORT_LINK_DIR.pg p), port := p, at33 := arrival33, bar := d.barCount, beat := d.beat, mode := d.mode,
          start33 := arrival33 + wait * 33 / ui33 * ui33, timeNs := (d.launchNs + c.get F.BAR_WALL_DEPTH_NS) % 2 ^ 32 }
      -- at the first downbeat of R243 no build opens, nor at its second copy
      let first := (c.tileState = tsFlywheel || c.tileState = tsSearch || c.tile.sched.rejoin) && c.tile.sched.reentry.isNone
      let again := c.tile.starts.any (fun x => x.bar = d.barCount && x.beat = d.beat)
      let c := if d.beat = 0 && !again && !short then
          let g := min 3 (c.tile.sched.good + 1)
          (c.setSched { c.tile.sched with good := g }).setBarLock (decide (3 ≤ g))
        else c
      let c := c.setTile { c.tile with fmaps := smSet c.tile.fmaps d.barCount d.feedMap, lastMap := d.feedMap }
      let c := if (c.port p).dirLost && c.otherDirection p then c else c.hearStart st
      let n := nextBeatOf d.mode d.barCount d.beat
      if first || again then c else c.openBuild d.pixFeed n.1 n.2

/-! ### Missing downbeats and the flywheel (R105, R242) -/

/-- No valid downbeat by 1/16 of a bar after a bar's expected start: once for each bar of the schedule. On the flywheel the schedule goes on as
it runs (R105, R242). -/
def Chip.dbMissing (c : Chip) : Chip :=
  let s := c.tile.sched
  if c.build = .S || !s.known || s.heard || s.missed then c
  else
    let c := c.setSched { s with missed := true }
    let c := ([0, 1, 2, 3] : List Nat).foldl (fun c p => c.setPort p { c.port p with numbered := false }) c
    let c := c.dbBad.raise E.DB_MISSING
    if c.tileState = tsLocked || c.tileState = tsSlew then
      ((c.setTileState tsFlywheel).setSched { c.tile.sched with base33 := c.tile.sched.actual33.toNat }).setOffset 0
    else c

/-- FLY_BARS bars on the flywheel: the holding image is shown if it is valid (R242). -/
def Chip.flyExpire (c : Chip) : Chip :=
  let n := c.get F.TILERX_HOLD_FLY_BARS
  if c.tileState = tsFlywheel && decide (n ≠ 0xFFFF) && decide (n ≤ c.tile.sched.flyBars) then
    c.setSched { c.tile.sched with flyHold := true }
  else c

/-! ### What a beat shows (R238, R239, R245) -/

/-- The feed map of a bar (R238, R242). -/
def Chip.tileFeedMap (c : Chip) (bar : Nat) : Nat :=
  if c.tileState = tsFlywheel then c.tile.lastMap else (smFind c.tile.fmaps bar).getD c.tile.lastMap

/-- The feed of a beat, or dark (R238). -/
def Chip.beatFeed (c : Chip) (bar beat : Nat) : Option Nat :=
  match c.use F.TILERX_BEAT_MAP_MAP / 8 ^ beat % 8 with
  | 0 => some 0
  | 1 => some 1
  | 2 => some 2
  | 3 => some 3
  | 5 => none
  | _ => some (c.tileFeedMap bar / 4 ^ beat % 4)

/-- The holding image is wanted in the coming beat (R242, R245, States). -/
def Chip.holdWanted (c : Chip) : Bool :=
  c.runs pgTilerx && (decide (c.use F.TILERX_HOLD_SHOW = 1) || c.tileState = tsSearch ||
    (c.tileState = tsFlywheel && c.tile.sched.flyHold && c.holdValid (c.use F.TILERX_HOLD_IMAGE)))

/-- The image of a feed built for a lit beat. -/
def Chip.litImage (c : Chip) (feed bar beat : Nat) : Option ImgSt :=
  (c.tile.images.filter (fun x => x.feed = feed && x.litBar = bar && x.litBeat = beat)).getLast?

/-- The image that a pass of the beat being shown starts with, or that it must wait: the one built for the beat; else the newest complete image
of its feed as its first pass finds it, which the beat keeps to its end (R234, R238, R239). -/
def Chip.passImage (c : Chip) : Option Nat × Bool :=
  let s := c.tile.sched
  let before := if s.index = 1 then smFind c.tile.newest s.feed else s.image
  if s.dark || c.tile.holdLit then (none, false)
  else match c.litImage s.feed s.bar s.beat with
    | some x => if x.phase = 2 then (some x.serial, false) else (before, true)
    | none => (before, false)

/-- The buffer lit in the pass under way: none is dark. -/
def Chip.litBuffer (c : Chip) : Option Nat :=
  let s := c.tile.sched
  if s.dark || s.waiting || !c.runs pgTilerx then none
  else if c.tile.holdLit then
    match c.tile.hold with
    | some h => if h.ready && c.holdValid h.image then some h.buf else none
    | none => none
  else (s.image.bind c.image?).map (·.buf)

/-! ### The pass plan (R15, R254) -/

/-- The row slot and window of a pass of `n` steps (R254). -/
def planOf (rows n : Nat) : Nat × Int :=
  let s0 := n / 16
  let slot := min ((n - s0) / rows) 2102
  (slot, (slot : Int) - 54)

/-- The largest pass count not above the programmed one whose window is at least 256 steps, or 1. -/
def fitPasses (rows steps : Nat) : Nat → Nat
  | 0 => 1
  | p + 1 => if 256 ≤ (planOf rows (steps / (p + 1))).2 then p + 1 else fitPasses rows steps p

/-- PASSES for a mode; 0 acts as 1. -/
def Chip.passesWanted (c : Chip) (mode : Nat) : Nat :=
  max 1 (match modeBeats mode with | 1 => c.use F.DRIVECTL_PASSES_P1 | 2 => c.use F.DRIVECTL_PASSES_P2 | _ => c.use F.DRIVECTL_PASSES_P4)

/-- The plan of the beat that starts is laid out, and shown (R14, R15, R254). -/
def Chip.layOut (c : Chip) : Chip :=
  let s := c.tile.sched
  let gap := min 500 (c.use F.TILERX_GAP_US) * us33 / step33
  let steps := beat33 s.mode s.beat / step33 - gap
  let want := c.passesWanted s.mode
  let p := fitPasses c.geoRows steps want
  let n := steps / p
  let pl := planOf c.geoRows n
  let c := c.setSched { s with gapSteps := gap, passes := p, passSteps := n, slotSteps := pl.1, window := pl.2.toNat }
  let c := ((c.set F.DRIVECTL_PLAN_P p).set F.DRIVECTL_PLAN_SLOT pl.1).set F.DRIVECTL_PLAN_W pl.2.toNat
  if p < want || decide (pl.2 < 256) then c.raise E.PASS_PLAN else c

/-! ### Beat and pass boundaries (R15, R239, R241, R430) -/

/-- The next pass starts, or waits for its image (R239). -/
def Chip.startPass (c : Chip) (at33 : Nat) : Chip :=
  let s := c.tile.sched
  let c := c.setSched { s with index := s.index + 1, start33 := at33, now33 := max s.now33 at33, waited33 := 0, row := 0, waiting := false }
  let i := c.passImage
  let c := c.setSched { c.tile.sched with waiting := i.2, image := i.1 }
  let c := ((c.set F.TILERX_STATUS_WAITING (b2n i.2)).showSlack).bump F.DRIVECTL_PASS_COUNT_COUNT
  c.tileShow

/-- A waiting pass starts at completion if that is within its slack, otherwise at the end of the slack with the image shown before (R239). -/
def Chip.waitEnd (c : Chip) : Chip :=
  let s := c.tile.sched
  if !s.waiting then c
  else
    let done := match c.litImage s.feed s.bar s.beat with
      | some x => if x.phase = 2 && decide (x.done33 ≤ s.start33 + c.slack33) then some x else none
      | none => none
    let s := match done with
      | some x => { s with waiting := false, image := some x.serial, waited33 := x.done33 - s.start33, now33 := max s.now33 x.done33 }
      | none => { s with waiting := false, waited33 := c.slack33, now33 := max s.now33 (s.start33 + c.slack33) }
    ((c.setSched s).set F.TILERX_STATUS_WAITING 0).tileShow

/-- A re-entry is due: the pass in progress ends before the defined start, and no further whole pass does (R243). -/
def Chip.reentryDue (c : Chip) : Option DbStart := c.reentryStart.filter (fun d => decide (c.tile.sched.passes = 0) || decide (d.start33 < c.nextPassEnd33))

/-- The row slots of the pass in progress have started, where the drive runs. -/
def Chip.rowsDone (c : Chip) : Bool :=
  let s := c.tile.sched
  decide (s.index = 0) || decide (c.state 0x0B4 ≠ 2) || decide (c.geoRows ≤ s.row)

/-- The next beat's identity and start: bar, beat, mode, base, offset and defining cell. -/
structure BeatNext where
  bar : Nat
  beat : Nat
  mode : Nat
  base33 : Nat
  offset33 : Int
  cell : Option DbStart
  entered : Bool
deriving DecidableEq, Repr

/-- What the next beat start of the schedule is; a re-entry at a beat mark takes the bar count from the next bar (R102, R241 to R243, R430). -/
def Chip.beatNext (c : Chip) : BeatNext :=
  let s := c.tile.sched
  match c.reentryDue with
  | some d =>
    { bar := if d.beat = 0 then d.bar else s.bar, beat := d.beat, mode := d.mode, base33 := d.start33, offset33 := 0, cell := some d, entered := true }
  | none =>
    let n := s.next
    let e := c.passEnd
    let cell := if c.tileState = tsFlywheel || s.reentry.isSome then none else c.bestStart s.mode n.1 n.2
    { bar := n.1, beat := n.2, mode := s.mode, base33 := ((e.1 : Int) - e.2).toNat, offset33 := e.2, cell := cell, entered := false }

/-- A beat of the schedule may start: its passes have run, or a re-entry is due; the pass in progress is complete (R243). -/
def Chip.beatReady (c : Chip) : Bool :=
  let s := c.tile.sched
  c.build = .T && !s.waiting && c.rowsDone && (decide (s.passes ≤ s.index) || c.reentryDue.isSome)

/-- The schedule's part of a beat start: identity, start, launch time and offset (R95, R102, R241, R243). -/
def Chip.beatEnter (c : Chip) : Chip :=
  let n := c.beatNext
  let s := c.tile.sched
  let t := match n.cell with | some d => some (12 * d.timeNs) | none => s.time12.map (fun t => (t + beatPeriod12 s.mode) % (12 * 2 ^ 32))
  let fly := c.tileState = tsFlywheel
  let c := c.setSched { s with
    bar := n.bar, beat := n.beat, mode := n.mode, base33 := n.base33, known := true, time12 := t, index := 0,
    start33 := ((n.base33 : Int) + n.offset33).toNat, now33 := max s.now33 ((n.base33 : Int) + n.offset33).toNat, waited33 := 0, row := 0,
    waiting := false, reentry := if n.entered then none else s.reentry, barNext := if n.beat = 0 then none else if n.entered then n.cell.map (fun d => (d.bar + 1) % 2 ^ 32) else s.barNext,
    flyBars := if n.entered then 0 else if fly && n.beat = 0 then s.flyBars + 1 else s.flyBars,
    flyHold := if n.entered then false else s.flyHold, rejoin := s.rejoin && !n.entered,
    heard := if n.beat = 0 then n.cell.isSome else s.heard, missed := if n.beat = 0 then false else s.missed }
  let c := match n.cell with
    | some d => ((c.set F.BAR_STATUS_DIR_B d.dir).set F.BAR_LAST_START_TIME (if n.beat = 0 then d.timeNs else c.get F.BAR_LAST_START_TIME))
    | none => c
  let c := c.setTile { c.tile with
    starts := c.tile.starts.filter (fun d => !(d.start33 < n.base33) || (d.bar = n.bar && d.beat = n.beat)), fmaps := c.tile.fmaps.filter (fun p => p.1 ≠ (n.bar + 2 ^ 32 - 2) % 2 ^ 32) }
  let c := c.set F.BAR_STATUS_BEAT n.beat
  if n.entered then
    let c := if c.tileState = tsOff then c else c.setTileState tsLocked
    (c.setOffset 0).raise E.FLY_JUMP
  else c.setOffset n.offset33

/-- What the beat shows is chosen, its images become due, and its plan is laid out (R238 to R240, R245, R254). -/
def Chip.beatShow (c : Chip) : Chip :=
  let s := c.tile.sched
  let hold := match c.tile.holdNext with
    | some h => if h.ready then some h else c.tile.hold
    | none => c.tile.hold
  let next := match c.tile.holdNext with | some h => if h.ready then none else some h | none => none
  let want := c.holdWanted && (c.tileState = tsSearch || hold.isSome || !c.holdValid (c.use F.TILERX_HOLD_IMAGE))
  let c := c.setTile { c.tile with
    hold := if c.holdWanted then hold else none, holdNext := next, holdLit := want }
  let feed := c.beatFeed s.bar s.beat
  let c := c.setSched { s with dark := feed.isNone || !c.runs pgTilerx, feed := feed.getD 0, image := none }
  let c := c.layOut
  let due := c.tile.sched.start33 + c.tile.sched.gapSteps * step33
  let c := (c.tile.images.filter (fun x => x.litBar = s.bar && x.litBeat = s.beat)).foldl (fun c x =>
    let x := { x with due33 := some due }
    (c.setImage x).judgeImage x) c
  let c := (c.set F.TILERX_STATUS_FEED (feed.getD 0)).set F.TILERX_STATUS_BEAT s.beat
  let c := c.set F.TILERX_STATUS_DARK (b2n c.tile.sched.dark)
  (c.set F.TILERX_STATUS_HOLD_SHOWN (b2n (want && !c.tile.sched.dark))).tileShow

/-! ### EN and SRST of TILERX (States) -/

/-- EN set: SEARCH. -/
def Chip.tilerxOn (c : Chip) : Chip := c.setTileState tsSearch

/-- EN cleared: open builds are abandoned, every buffer is freed. -/
def Chip.tilerxOff (c : Chip) : Chip :=
  let c := c.setTile { c.tile with images := [], kept := [], newest := [], rxq := [], hold := none, holdNext := none, holdLit := false }
  let c := c.setSched { c.tile.sched with image := none, waiting := false, dark := true, flyHold := false }
  ((c.setTileState tsOff).set F.TILERX_STATUS_DARK 1).tileShow

/-- SRST: open builds close as incomplete, complete images stay, SEARCH. -/
def Chip.tilerxReset (c : Chip) : Chip :=
  let c := c.closeAll
  if c.runs pgTilerx then c.setTileState tsSearch else c

/-! ### Holding images (R245) -/

/-- The Belfry processes the holding image into a pool buffer (R245). KEEP lamps have no previous value here: open levels. -/
def Chip.holdPrepare (c : Chip) : Chip :=
  if !c.runs pgTilerx || !c.belfryUp then c
  else
    let n := c.use F.TILERX_HOLD_IMAGE
    let r := c.holdBytes n (4 * c.lamps)
    match r.1 with
    | none => c.setTile { c.tile with hold := none, holdNext := none } |>.tileShow
    | some (bytes, true) => ignore r.2 bytes
    | some (bytes, false) =>
      let c := r.2
      let buf := match c.tile.holdNext with
        | some h => h.buf
        | none => (c.freeBuffer).getD (match c.tile.hold with | some h => h.buf | none => 0)
      let cfg := c.tileCfg
      let c := (List.range c.lamps).foldl (fun c l =>
        let v := c.lampValue cfg 0 l (ofLe (slice bytes (4 * l) 4))
        match v.1 with
        | some lev => v.2.putLamp buf l lev
        | none =>
          let a := v.2.openValue 16
          let b := a.2.openValue 16
          let d := b.2.openValue 16
          d.2.putLamp buf l [a.1, b.1, d.1]) c
      c.setTile { c.tile with holdNext := some { image := n, buf := buf, ready := false } } |>.tileShow
where
  /-- An image with poisoned bytes is not shown: the Belfry's load is a bus error (R315). -/
  ignore (c : Chip) (_ : List Byte) : Chip := (c.setTile { c.tile with holdNext := none }).raise E.BELFRY_BUS_ERR

/-- A processed holding image is shown from the next beat boundary (R245). -/
def Chip.holdReady (c : Chip) : Chip :=
  c.setTile { c.tile with holdNext := c.tile.holdNext.map (fun h => { h with ready := true }) }

/-! ### Dose and ageing (R246 to R249) -/

/-- The dither of an emitter in a bar (R246). -/
def bitrev8 (v : Nat) : Nat := ((List.range 8).map (fun i => v / 2 ^ i % 2 * 2 ^ (7 - i))).sum
def dither (bar e : Nat) : Nat := bitrev8 ((bar + 157 * e) % 256)

/-- The increment of a dose counter (R247). -/
def doseInc (q d : Nat) : Nat := (q * 2729 + d * 2 ^ 32) / 2 ^ 40

/-- The record of dose counter words. -/
def doseRec : TileRec := { page := pgDose, unit := 2, ce := true, ev := some E.DOSE_FAULT }

/-- After each bar every counter takes the bar's dose (R247). A poisoned counter keeps its word. -/
def Chip.doseUpdate (c : Chip) : Chip :=
  match c.drive.doseEnded with
  | none => c
  | some (bar, dose) =>
    let c := { c with drive := { c.drive with doseEnded := none } }
    if !c.on F.DOSE_CTRL_DOSE_EN then c
    else (List.range (3 * c.lamps)).foldl (fun c e =>
      let r := c.tileRead 5 (4 * e) 4 doseRec
      if r.1.2 then r.2
      else r.2.tileWrite 5 (4 * e) (leBytes 4 (min 0xFFFFFFFF (ofLe r.1.1 + doseInc (smGet 0 dose e) (dither bar e))))) c

/-- One counter is flushed: its word read and recorded; its value added to the total, which bit 63 marks where the counter was saturated, and
subtracted by the bank's atomic add. A poisoned counter is a bus error of the Belfry's load; it is set to 0, its dose lost (R232, R248, R315;
assumption log 43). -/
def Chip.doseFlushOne (c : Chip) (e : Nat) : Chip :=
  let w := 5 * 65536 + e / 4
  let c := c.retireWord 5 (w % 65536)
  let syn := c.sramSyn (c.sramWord w)
  let fresh := (c.bank 5).lastUe ≠ some (w, syn)
  let found := eccBySyndrome (c.sramData (c.sramWord w)) syn
  let r := c.sramReadWord mBelfry w
  let x := nbits r.1.1.toNat (32 * (e % 4) + 31) (32 * (e % 4))
  let ofs := 5 * 1048576 + 4 * e
  let noted := fun (c : Chip) (ue : Bool) => c.report pgDose [{ ue := ue, kind := 0, unit := 2, syndrome := syn, loc := sramLoc w }]
  if r.1.2 then
    let c := (r.2.atomicAt 2 true false ofs 4 0).2
    ((if syn ≠ 0x1FF && fresh then noted c true else c).raise E.DOSE_FAULT).raise E.BELFRY_BUS_ERR
  else
    let c := match found with | .corrected _ _ => noted r.2 false | _ => r.2
    let t := smGet 0 c.drive.doseTotals e % 2 ^ 63 + x
    let mark := decide (x = 0xFFFFFFFF) || decide (2 ^ 63 ≤ smGet 0 c.drive.doseTotals e)
    let c := { c with drive := { c.drive with doseTotals := smSet c.drive.doseTotals e (t % 2 ^ 63 + if mark then 2 ^ 63 else 0) } }
    let c := if x = 0 then c else (c.atomicAt 2 true true ofs 4 (2 ^ 32 - x)).2
    if x = 0xFFFFFFFF then (c.set F.DOSE_STATUS_SAT 1).raise E.DOSE_FAULT else c

/-- The hourly flush of every counter (R248). -/
def Chip.doseFlush (c : Chip) : Chip :=
  if !c.belfryUp then c else ((List.range (3 * c.lamps)).foldl (fun c e => c.doseFlushOne e) c).set F.DOSE_STATUS_FLUSH_AGE 0

/-- The gain of an emitter from its dose, doses in mA·s and luminances of its colour's curve (R249). -/
def ageingGain (dose lum : Nat → Nat) (d : Nat) : Nat :=
  let i := ((List.range 15).takeWhile (fun i => decide (dose (i + 1) ≤ d))).length
  let l : Int := if i = 15 then (lum 15 : Nat)
    else (lum i : Nat) + Int.tdiv (((lum (i + 1) : Nat) : Int) - (lum i : Nat) |> (· * ((d : Int) - (dose i : Nat)))) (((dose (i + 1) : Nat) : Int) - (dose i : Nat))
  let l := l.toNat
  max 32768 (min 40960 ((2 ^ 30 + l / 2) / l))

/-- A curve is lawful: doses ascend, no luminance is 0 (R249). -/
def curveOk (dose lum : Nat → Nat) : Bool :=
  (List.range 15).all (fun i => decide (dose i < dose (i + 1))) && (List.range 16).all (fun i => decide (lum i ≠ 0))

/-- A point of a colour's curve. -/
def Chip.curveD (c : Chip) (k i : Nat) : Nat := smGet 0 c.tile.curveDose (16 * k + i)
def Chip.curveL (c : Chip) (k i : Nat) : Nat := smGet 0 c.tile.curveLum (16 * k + i)

/-- The gain of each emitter: from its total, or, where its colour's curve is unlawful, open within 1.00 to 1.25 (R249). -/
def Chip.gainsOf (c : Chip) : SMap Nat × Chip :=
  (List.range (3 * c.lamps)).foldl (fun (a : SMap Nat × Chip) e =>
    let k := e % 3
    if curveOk (a.2.curveD k) (a.2.curveL k) then
      (a.1 ++ [(e, ageingGain (a.2.curveD k) (a.2.curveL k) (smGet 0 a.2.drive.doseTotals e % 2 ^ 63 / 1000))], a.2)
    else
      let o := a.2.openValue 16
      (a.1 ++ [(e, 32768 + o.1 % 8193)], o.2)) (([] : SMap Nat), c)

/-- The daily gains, written as the bank's owner into the inactive gain table (R249). -/
def Chip.gainsWrite (c : Chip) (gains : SMap Nat) : Chip :=
  let bank := 7 - c.use F.DOSE_CTRL_GAIN_SEL
  gains.foldl (fun c g =>
    (wordLanes (bank * 1048576 + 2 * g.1) ((leBytes 2 g.2).map some)).foldl (fun c x => c.bankWriteWord 2 x.1 x.2) c) c

/-- The day's totals and gains join the calibration history of 365 days, where DRAM is populated (R248; assumption log 141). -/
def Chip.noteDay (c : Chip) (gains : SMap Nat) : Chip :=
  if c.capacity = 0 then c
  else
    let l := c.drive.history ++ [{ totals := c.drive.doseTotals, gains := gains }]
    { c with drive := { c.drive with history := l.drop (l.length - 365) } }

end Sys2Proof.Machine
end

