-- ==== Sys2Proof/Machine/RedunOps.lean ====
section
/-! DEFINITION. Redundant operation: clapper, tolls, the sideband, mirror epochs, and the ring a tile obeys (spec/11_redundant_operation.md). -/

namespace Sys2Proof.Machine

def pgRedun : Nat := 0x0C0
def pgMirror : Nat := 0x0C1

def Chip.setRedun (c : Chip) (r : RedunSt) : Chip := { c with redun := r }
def Chip.setMirror (c : Chip) (m : MirrorSt) : Chip := { c with mirror := m }

/-! ### Unit states -/

def rsStart : Nat := 1
def rsSyncing : Nat := 2
def rsStandby : Nat := 3
def rsClaiming : Nat := 4
def rsActive : Nat := 5
def rsReleased : Nat := 6
def rsSolo : Nat := 7

def Chip.unitState (c : Chip) : Nat := c.state pgRedun

/-- PAIR_SLOT of the unit. -/
def Chip.pairSlot (c : Chip) : Nat := c.get F.DEVICE_STRAPS_PAIR_SLOT

/-! ### Sideband frames (R284) -/

/-- A frame: K28.5, TYPE, LEN, payload, CRC-32 over TYPE to the end of the payload. -/
def sbFrame (typ : Nat) (payload : List Byte) : List Byte :=
  let body := [BitVec.ofNat 8 typ] ++ leBytes 2 payload.length ++ payload
  [0xBC] ++ body ++ leBytes 4 (crc32 body)

/-- The TYPE and payload of a frame that is valid: CRC, TYPE and LEN. -/
def sbParse (l : List Byte) : Option (Nat × List Byte) :=
  let typ := ofLe (slice l 1 1)
  let len := ofLe (slice l 2 2)
  let payload := slice l 4 len
  let lenOk := match typ with
    | 1 => len = 10
    | 2 => len = 15
    | 3 => len = 6
    | 4 => decide (9 ≤ len) && decide (len ≤ 256)
    | 5 => len = 0
    | 6 => len = 4
    | _ => false
  if l.headD 0 = 0xBC && l.length = len + 8 && decide (len ≤ 256) && lenOk && decide (ofLe (slice l (4 + len) 4) = crc32 (slice l 1 (3 + len)))
  then some (typ, payload) else none

/-- REQUEST_FULL is sent while the mirror is enabled (R292, R294). -/
def Chip.requestFull (c : Chip) : Chip := if c.runs pgMirror then c.emit (.sideband (sbFrame 5 [])) else c

/-- CLAP_CONTEND: both lines asserted, or the peer line of a SOLO unit (R276, R280). -/
def Chip.contend (c : Chip) : Chip :=
  if c.redun.peer && (c.redun.own || c.unitState = rsSolo) then c.raise E.CLAP_CONTEND else c

/-- A unit that does not follow its peer has neither PAIR_LOCK nor PAIR_UNLOCK (R286). -/
def Chip.pairShow (c : Chip) : Chip := if c.pairFollower then c else (c.set F.REDUN_STATUS_PAIR_LOCK 0).cond E.PAIR_UNLOCK false

/-- A unit enters a state; SYNCING asks for a full set, and SOLO sees the peer's line (R276). -/
def Chip.setUnitState (c : Chip) (s : Nat) : Chip :=
  let c' := (c.set (F.STATE.pg pgRedun) s).pairShow
  if c.unitState = s then c'
  else if s = rsSyncing then c'.requestFull
  else if s = rsSolo then c'.contend
  else c'

/-- STANDBY once a full set has been applied and none discarded since, otherwise SYNCING; SOLO while EN = 0. -/
def Chip.toStandby (c : Chip) : Chip :=
  if !c.en pgRedun then c.setUnitState rsSolo else c.setUnitState (if c.mirror.whole then rsStandby else rsSyncing)

/-! ### Clapper (R276 to R281) -/

/-- The ACTIVE bit follows the interlock: it falls as soon as CLAP_OWN is not asserted or CLAP_PEER is (R281). -/
def Chip.interlock (c : Chip) : Chip :=
  if c.actBit && !(c.redun.own && !c.redun.peer) then
    let c := ({ c with actBit := false }.set F.REDUN_STATUS_ACTIVE 0).raise E.CLAP_LOST
    let c := (c.setMirror { c.mirror with sending := none, fullLeft := none }).set F.MIRROR_STATUS_SENDING 0
    if c.unitState = rsActive then c.toStandby else c
  else c

/-- CLAP_OWN driven or released (R278). -/
def Chip.setOwn (c : Chip) (b : Bool) : Chip :=
  if c.redun.own = b then c
  else
    let c := (c.setRedun { c.redun with own := b, window := b, claimed := false }).set F.REDUN_STATUS_OWN (b2n b)
    let c := (c.emit (.clapOwn b)).interlock
    if b then c.contend else c

/-- The filtered CLAP_PEER input changes. -/
def Chip.peerLine (c : Chip) (level : Bool) : Chip :=
  if c.build = .T || c.redun.peer = level then c
  else
    let c := ((c.setRedun { c.redun with peer := level }).set F.REDUN_STATUS_PEER (b2n level)).interlock
    if level then c.contend else c

/-- PEER_FAIL: both toll paths have failed. -/
def Chip.peerFail (c : Chip) : Bool := c.redun.sideband.failed && c.redun.ring.failed

/-- The peer's state by its latest heartbeat, the sideband preferred. -/
def Chip.peerState (c : Chip) : Option Nat :=
  let r := c.redun
  if r.sideband.last.isSome && !r.sideband.failed then some r.sideband.peerState
  else if r.ring.last.isSome then some r.ring.peerState
  else if r.sideband.last.isSome then some r.sideband.peerState else none

/-- The conditions of R279, but for the 20 µs of CLAP_PEER. -/
def Chip.mayClaim (c : Chip) : Bool :=
  let s := c.unitState
  let a := c.peerFail && decide (s ≠ rsActive) && decide (s ≠ rsSolo)
  let b := (s = rsStart || s = rsSyncing || s = rsStandby) &&
    (match c.peerState with
     | some p => decide (p ≠ rsActive) && decide (p ≠ rsClaiming) && (c.pairSlot = 0 || p = rsReleased)
     | none => false)
  c.build = .S && c.en pgRedun && c.on F.REDUN_CFG_AUTO_CLAIM && c.en 0x022 && !c.redun.peer && !c.redun.own && c.aon.knell.isNone && (a || b)

/-- The unit asserts CLAP_OWN and enters CLAIMING (R279). -/
def Chip.claim (c : Chip) : Chip :=
  if !c.mayClaim then c
  else
    let sync := decide (c.unitState = rsSyncing)
    let c := c.setUnitState rsClaiming
    (c.setRedun { c.redun with fromSync := sync }).setOwn true

/-- The set in progress is dropped. -/
def Chip.setDrop (c : Chip) : Chip :=
  (c.setMirror { c.mirror with setLen := 0, rxLen := 0, rxNum := none, rxBase := none, setFull := false }).set F.MIRROR_STATUS_RECEIVING 0

/-- SRST of MIRROR: the set in progress is dropped, and frames are taken from the next epoch on (R37). -/
def Chip.mirrorReset (c : Chip) : Chip := c.setDrop.setMirror { c.setDrop.mirror with rxDrop := none, dropFull := false }

/-- A set has been discarded: counted, and MIRROR_FAIL (R294). -/
def Chip.setLost (c : Chip) : Chip := (c.setDrop.bumpSat F.MIRROR_FAIL_COUNT_COUNT).raise E.MIRROR_FAIL

/-- Part of a set has come in. -/
def Chip.setPartial (c : Chip) : Bool := c.mirror.rxNum.isSome || decide (c.mirror.setLen ≠ 0)

/-- The claim window ends with CLAP_PEER deasserted: a set in part is discarded, and with no set applied a claim made in SYNCING raises
MIRROR_STALE (R280, R294). -/
def Chip.claimComplete (c : Chip) : Chip :=
  if !(c.redun.window && c.redun.own && !c.redun.peer) then c
  else
    let c := c.setRedun { c.redun with window := false, claimed := true }
    let c := if c.setPartial then c.setLost else c
    if c.redun.fromSync && !c.mirror.synced then (c.setRedun { c.redun with fromSync := false }).raise E.MIRROR_STALE else c

/-- ACTIVE rises at the first DOWNBEAT launch after the claim is complete and no apply is in progress (R281, R295). -/
def Chip.activeRise (c : Chip) : Chip :=
  if c.actBit || !(c.redun.own && !c.redun.peer && c.redun.claimed && c.mirror.applying.isNone) then c
  else
    let c := ({ c with actBit := true }.set F.REDUN_STATUS_ACTIVE 1).set F.REDUN_LAST_CLAIM_TIME c.timeNs
    let c := if c.en pgRedun && decide (c.unitState ≠ rsReleased) then c.setUnitState rsActive else c
    c.raise E.CLAP_GAINED

/-- The slot 1 unit releases CLAP_OWN 10 µs after contention (R280). -/
def Chip.contendRelease (c : Chip) : Chip :=
  if c.redun.own && c.redun.peer && c.pairSlot = 1 then (c.setOwn false).toStandby else c

/-- A SOLO unit asserts CLAP_OWN after 20 µs of CLAP_PEER deasserted (R276). -/
def Chip.soloAssert (c : Chip) : Chip :=
  if c.build = .S && c.unitState = rsSolo && !c.redun.peer && !c.redun.own && c.aon.knell.isNone then c.setOwn true else c

/-- FORCE_RELEASE (R278, R300). -/
def Chip.forceRelease (c : Chip) : Chip := if c.build = .T then c else (c.setOwn false).setUnitState rsReleased

/-- CLEAR_RELEASE (R300). -/
def Chip.clearRelease (c : Chip) : Chip := if c.unitState = rsReleased then c.toStandby else c

/-! ### Tolls (R282, R283, R299, R300) -/

/-- Conditions and status bits of the toll paths. -/
def Chip.showPaths (c : Chip) : Chip :=
  let c := (c.set F.REDUN_STATUS_SB_FAIL (b2n c.redun.sideband.failed)).set F.REDUN_STATUS_RING_FAIL (b2n c.redun.ring.failed)
  let c := (c.set F.REDUN_STATUS_PEER_FAIL (b2n c.peerFail)).set F.REDUN_STATUS_PEER_STATE (c.peerState.getD 0)
  (c.cond E.PEER_FAIL c.peerFail).cond E.TOLL_PATH_FAIL (c.redun.sideband.failed || c.redun.ring.failed)

/-- REDUN.EN set: START, TOLL_SEQ begins at 1, the paths are listened to anew, what they showed ends, and no set has been applied since
(R282, R283, R294, R299). -/
def Chip.redunOn (c : Chip) : Chip :=
  if c.build = .T then c
  else
    let c := c.setRedun { c.redun with
      tollSeq := 1, sideband := TollPath.init, ring := TollPath.init, runs := [0, 0, 0, 0], dual := 0, beats := false }
    let c := (c.setMirror { c.mirror with synced := false, whole := false }).set F.MIRROR_STATUS_SYNCED 0
    ((c.setUnitState rsStart).showPaths.set F.REDUN_STATUS_DISAGREE 0).cond E.PATH_DISAGREE false

/-- REDUN.EN cleared: SOLO. -/
def Chip.redunOff (c : Chip) : Chip := if c.build = .T then c else c.setUnitState rsSolo

/-- A soft reset of REDUN releases CLAP_OWN and starts the unit anew (R37, R278, R390). -/
def Chip.redunReset (c : Chip) : Chip :=
  if c.build = .T then c
  else
    let c := c.setOwn false
    if c.en pgRedun then c.redunOn else c.redunOff

/-- A value is newer than another in a sequence of 32 bits (R282). -/
def tollNewer (s t : Nat) : Bool := let d := (s + 2 ^ 32 - t) % 2 ^ 32; decide (1 ≤ d) && decide (d ≤ 2 ^ 31 - 1)

/-- A heartbeat is taken on a path (R282). -/
def TollPath.takes (p : TollPath) (seq state : Nat) : Bool :=
  match p.last with
  | none => true
  | some t => tollNewer seq t || p.failed || state = rsStart

/-- A heartbeat of the peer arrives on a path; one of the unit's own slot is discarded (R202, R282). -/
def Chip.heartbeat (c : Chip) (ring : Bool) (seq state slot : Nat) : Chip :=
  if c.build = .T || !c.en pgRedun || slot % 2 = c.pairSlot then c
  else
    let p := if ring then c.redun.ring else c.redun.sideband
    if !p.takes seq state then c
    else
      let p : TollPath := { last := some seq, misses := 0, failed := false, peerState := state }
      let c := c.setRedun (if ring then { c.redun with ring := p } else { c.redun with sideband := p })
      let c := (c.set F.REDUN_PEER_SEQ_SEQ seq).showPaths
      if c.unitState = rsStart && c.peerState = some rsActive then c.setUnitState rsSyncing else c

/-- TOLL_MISS_LIMIT (REDUN.CFG). -/
def Chip.missLimit (c : Chip) : Nat := max 2 (c.get F.REDUN_CFG_MISS_LIMIT)

/-- A toll period passes without a heartbeat on a path (R283). -/
def Chip.tollMiss (c : Chip) (ring : Bool) : Chip :=
  if c.build = .T || !c.en pgRedun then c
  else
    let p := if ring then c.redun.ring else c.redun.sideband
    let p := { p with misses := p.misses + 1, failed := p.failed || decide (c.missLimit ≤ p.misses + 1) }
    let c := c.setRedun (if ring then { c.redun with ring := p } else { c.redun with sideband := p })
    (c.bumpSat (if ring then F.REDUN_MISSES_RING else F.REDUN_MISSES_SB)).showPaths

/-- The disagreements of R299 that hold now. -/
def Chip.disagreements (c : Chip) : List Bool :=
  let r := c.redun
  [r.sideband.failed != r.ring.failed,
   r.sideband.last.isSome && r.ring.last.isSome && decide (r.sideband.peerState ≠ r.ring.peerState),
   decide (c.peerState = some rsActive) && !r.peer,
   (match c.peerState with | some s => decide (s ≠ rsActive) && decide (s ≠ rsClaiming) | none => false) && r.peer]

/-- The tests of R299 and R300, once per toll period. -/
def Chip.tollTests (c : Chip) : Chip :=
  let now := c.disagreements
  let runs := (List.range 4).map (fun i => if now.getD i false then c.redun.runs.getD i 0 + 1 else 0)
  let dual := if c.actBit && c.peerState = some rsActive then c.redun.dual + 1 else 0
  let c := c.setRedun { c.redun with runs := runs, dual := dual }
  let bad := runs.any (fun n => decide (3 ≤ n))
  let c := (c.set F.REDUN_STATUS_DISAGREE (b2n bad)).cond E.PATH_DISAGREE bad
  if dual = 3 then c.raise E.DUAL_ACTIVE else c

/-- EPOCH as a heartbeat carries it: the last epoch committed by the active unit, otherwise the last applied (R282). -/
def Chip.tollEpoch (c : Chip) : Nat := if c.actBit then c.get F.MIRROR_EPOCH_SENT_SENT else c.get F.MIRROR_EPOCH_APPLIED_APPLIED

/-- A heartbeat is sent on the sideband and on every ring (R202, R282). -/
def Chip.tollSend (c : Chip) : Chip :=
  if c.build = .T || !c.en pgRedun then c
  else
    let seq := c.redun.tollSeq
    let st := c.unitState
    let c := c.setRedun { c.redun with tollSeq := (seq + 1) % 2 ^ 32 }
    let c := c.emit (.sideband (sbFrame 1 (leBytes 4 seq ++ leBytes 4 c.tollEpoch ++ leBytes 1 st ++ leBytes 1 c.pairSlot)))
    let cell := mkToll c.tollEpoch seq st c.stackPos c.pairSlot c.actBit
    let c := ((List.range 8).map (2 * ·)).foldl (fun c p => if c.portMode p = 3 then c.sendChain p cell else c) c
    c.tollTests

/-! ### Sideband delay (R285) -/

/-- An ECHO request is sent. -/
def Chip.sbEchoSend (c : Chip) : Chip :=
  if c.build = .T || !c.en pgRedun then c
  else
    let n := c.redun.echoSeq
    let c := c.setRedun { c.redun with echoSeq := (n + 1) % 256, echoOut := some n }
    c.emit (.sideband (sbFrame 3 (leBytes 1 n ++ leBytes 1 0 ++ leBytes 4 0)))

/-- An ECHO frame: a request is answered with the turnaround measured; a response gives a measurement of half the round trip less the
turnaround, in 1/64 UI of 12.5 ps, and one off the mean by more than 100 ps raises HOP_DRIFT (R101, R285). -/
def Chip.sbEcho (c : Chip) (payload : List Byte) (measured : Nat) : Chip :=
  let seq := ofLe (slice payload 0 1)
  let turn := ofLe (slice payload 2 4)
  if ofLe (slice payload 1 1) % 2 = 0 then c.emit (.sideband (sbFrame 3 (leBytes 1 seq ++ leBytes 1 1 ++ leBytes 4 measured)))
  else if c.redun.echoOut ≠ some seq then c
  else
    let l := c.redun.echoMeas
    let m := (measured - turn) / 2
    let c := c.setRedun { c.redun with echoOut := none }
    let off := !l.isEmpty && decide (8 * l.length < ((m * l.length : Nat) - (l.sum : Int)).natAbs)
    if off then c.raise E.HOP_DRIFT
    else
      let l := if l.length < 16 then l ++ [m] else l.drop 1 ++ [m]
      (c.setRedun { c.redun with echoMeas := l }).set F.REDUN_TOLL_DELAY_PS (l.sum * 25 / (2 * l.length))

/-- L_toll in ps. -/
def Chip.tollDelay (c : Chip) : Nat := c.get F.REDUN_TOLL_DELAY_PS

/-! ### Mirror epochs: sending (R290 to R292) -/

/-- The register words mirrored one by one: first address and words (R277). -/
def mirrorRegs : List (Nat × Nat) :=
  [(0x022040, 4), (0x06006C, 5)] ++ (List.range 8).map (fun l => (0x061040 + 4096 * l, 7)) ++
    [(0x07000C, 1), (0x070040, 2), (0x07100C, 1), (0x071040, 2)]

/-- An address holds mirrored register or table state (R277, R290). -/
def mirrorAddr (a : Nat) : Bool :=
  mirrorRegs.any (fun r => decide (r.1 ≤ a) && decide (a < r.1 + 4 * r.2)) || a = F.MAPCTL_TAB_DATA_DATA.addr || a = F.TILETAB_DATA_DATA.addr ||
    a = F.LAUNCH_PUSH_KIND.addr || a = F.LAUNCH_CANCEL_ALL.addr

/-- A write to mirrored state is noted (R290). -/
def Chip.noteMirror (c : Chip) (a : Nat) : Chip :=
  if c.build = .T || !mirrorAddr a then c
  else c.setMirror { c.mirror with
    tabDirty := c.mirror.tabDirty || a = F.MAPCTL_TAB_DATA_DATA.addr, tilesDirty := c.mirror.tilesDirty || a = F.TILETAB_DATA_DATA.addr }

/-- A record (R291). -/
def epochRec (typ count addr : Nat) (payload : List Byte) : List Byte :=
  leBytes 1 typ ++ leBytes 1 0 ++ leBytes 2 count ++ leBytes 4 addr ++ payload

/-- Words as little-endian bytes. -/
def wordsLe (l : List Nat) : List Byte := l.flatMap (leBytes 4)

/-- A table window: a REG record of its index register, then the words. -/
def windowRecs (idxReg idx dataReg : Nat) (words : List Nat) : List Byte :=
  epochRec 1 1 idxReg (leBytes 4 (2 ^ 31 + idx)) ++ epochRec 2 words.length dataReg (wordsLe words)

/-- The register records. -/
def Chip.epochRegs (c : Chip) : List Byte :=
  mirrorRegs.flatMap (fun r => epochRec 1 r.2 r.1 (wordsLe ((List.range r.2).map (fun i => (c.rd (r.1 + 4 * i)).toNat))))

/-- The records of the engine tables: filter banks, decode LUTs, gamut matrices, encode LUT. -/
def Chip.epochTables (c : Chip) : List Byte :=
  let run := fun (i n : Nat) =>
    windowRecs F.MAPCTL_TAB_ADDR_INDEX.addr i F.MAPCTL_TAB_DATA_DATA.addr ((List.range n).map (fun k => smGet 0 c.map.shadow (i + k)))
  ((List.range 512).flatMap (fun k => run (8 * k) 6)) ++ run 0x10000 0x8000 ++ ((List.range 8).flatMap (fun k => run (0x18000 + 16 * k) 9)) ++ run 0x19000 0x1000

/-- The records of the tile rectangle table. -/
def Chip.epochTiles (c : Chip) : List Byte :=
  windowRecs F.TILETAB_INDEX_INDEX.addr 0 F.TILETAB_DATA_DATA.addr ((List.range 4096).map (fun i => (smGet (0 : Word) c.scan.tabShadow i).toNat))

/-- The LAUNCH record. -/
def Chip.epochLaunch (c : Chip) : List Byte :=
  epochRec 4 c.launchQ.length 0 (c.launchQ.flatMap (fun e => leBytes 4 e.time ++ leBytes 4 (e.tag * 2 ^ 24 + e.arg * 16 + e.kind)))

/-- The header of an epoch (R291). -/
def Chip.epochHeader (c : Chip) (full final : Bool) (num base len : Nat) : List Byte :=
  leBytes 2 0x4D52 ++ leBytes 1 1 ++ leBytes 1 (b2n full + 2 * b2n final) ++ leBytes 4 num ++ leBytes 4 base ++ leBytes 4 len ++
    leBytes 4 c.barCount ++ leBytes 4 c.timeNs ++ leBytes 8 0

/-- Every block of the mirrored regions. -/
def Chip.regionBlocks (c : Chip) : List Nat :=
  (List.range 16).flatMap (fun r =>
    (List.range (c.get (F.MIRROR_REGION_SIZE_BLOCKS.plus (8 * r)))).map (fun i => (c.rd (F.MIRROR_REGION_BASE_BASE.addr + 8 * r)).toNat + i))

/-- The DRAM records of blocks. -/
def Chip.epochBlocks (c : Chip) (blocks : List Nat) : List Byte × Chip :=
  blocks.foldl (fun (a : List Byte × Chip) b =>
    let r := a.2.dramFetch dmBelfry (4096 * b) 4096
    (a.1 ++ epochRec 3 1 b r.1.1, r.2)) ([], c)

/-- EPOCH_DATA frames of up to 248 bytes. -/
def epochFrames (num : Nat) (bytes : List Byte) : List (List Byte) :=
  (List.range (ceilDiv bytes.length 248)).map (fun i => sbFrame 4 (leBytes 4 num ++ leBytes 4 (248 * i) ++ slice bytes (248 * i) 248))

/-- An epoch starts: its snapshot is taken and its frames are sent (R290 to R292). A full set that is due starts, or goes on, before
increments. -/
def Chip.epochStart (c : Chip) : Chip :=
  if c.build = .T || !c.runs pgMirror || !c.en pgRedun || !c.actBit || c.mirror.sending.isSome then c
  else
    let m := c.mirror
    let first := m.fullLeft.isNone && m.fullDue
    let full := first || m.fullLeft.isSome
    let body := if first then c.epochRegs ++ c.epochTables ++ c.epochTiles ++ c.epochLaunch
      else if full then []
      else c.epochRegs ++ (if m.tabDirty then c.epochTables else []) ++ (if m.tilesDirty then c.epochTiles else []) ++ c.epochLaunch
    let want := match m.fullLeft with
      | some l => l
      | none => if first then c.regionBlocks else (m.dirty.map (fun (p : Nat × Bool) => p.1)).filter c.mirrored
    let room := (1048576 - 48 - body.length) / 4104
    let now := want.take room
    let left := want.drop room
    let final := !full || left.isEmpty
    let b := c.epochBlocks now
    let c := b.2
    let num := (m.epoch + 1) % 2 ^ 32
    let len := 32 + body.length + b.1.length + 16
    let bytes := c.epochHeader full final num (if first then 0xFFFFFFFF else m.epoch) len ++ body ++ b.1
    let bytes := bytes ++ epochRec 15 0 0 (leBytes 4 num ++ leBytes 4 (crc32 bytes))
    let c := c.setMirror { c.mirror with
      epoch := num, sending := some num, fullDue := m.fullDue && !first, fullLeft := if full && !final then some left else none,
      dirty := c.mirror.dirty.filter (fun (p : Nat × Bool) => !now.contains p.1),
      tabDirty := m.tabDirty && full && !first, tilesDirty := m.tilesDirty && full && !first }
    let c := c.set F.MIRROR_STATUS_SENDING 1
    (epochFrames num bytes).foldl (fun c f => c.emit (.sideband f)) c

/-- The active unit commits the epoch being sent. -/
def Chip.mirrorSent (c : Chip) : Chip :=
  match c.mirror.sending with
  | none => c
  | some n =>
    let c := (c.setMirror { c.mirror with sending := none }).set F.MIRROR_STATUS_SENDING 0
    (c.set F.MIRROR_EPOCH_SENT_SENT n).raise E.MIRROR_SENT

/-- MIRROR.CMD.FULL: the active sends, a standby requests a full set (R292). -/
def Chip.mirrorFull (c : Chip) : Chip :=
  if c.build = .T then c else if c.actBit then c.setMirror { c.mirror with fullDue := true } else c.requestFull

/-! ### Mirror epochs: receiving (R293, R294) -/

/-- Where a half of the staging area stands in DRAM. -/
def Chip.stageAt (c : Chip) (half : Nat) : Nat := (c.rd F.MIRROR_STAGE_BASE_BASE.addr).toNat * 1048576 + half * 8388608

def Chip.stageRead (c : Chip) (half ofs n : Nat) : (List Byte × Bool) × Chip := c.dramFetch dmBelfry (c.stageAt half + ofs) n

/-- A set is discarded with what is still to come of it: MIRROR_FAIL, REQUEST_FULL, STANDBY to SYNCING (R294). -/
def Chip.setFail (c : Chip) (num : Nat) (full : Bool) : Chip :=
  let c := c.setLost
  let c := c.setMirror { c.mirror with whole := false, rxDrop := some num, dropFull := full }
  if c.unitState = rsStandby then c.setUnitState rsSyncing else c.requestFull

/-- An epoch has come in whole: its commit is checked, and with FINAL the set is complete (R292, R293). -/
def Chip.epochWhole (c : Chip) (num : Nat) : Chip :=
  let m := c.mirror
  let r := c.stageRead m.half m.setLen m.rxLen
  let c := r.2
  let l := r.1.1
  let body := l.take (m.rxLen - 16)
  let last := l.drop (m.rxLen - 16)
  let full := m.setFull || m.rxFull
  if r.1.2 || decide (ofLe (slice last 0 1) ≠ 15) || decide (ofLe (slice last 8 4) ≠ num) || decide (ofLe (slice last 12 4) ≠ crc32 body) then
    c.setFail num (full && !m.rxFinal)
  else
    let c := c.setMirror { c.mirror with
      setLen := m.setLen + m.rxLen, rxLen := 0, rxNum := none, rxBase := some num, setFull := full }
    if m.rxFinal then
      let done : ReadySet := { num := num, half := m.half, len := c.mirror.setLen, full := full, snapshot := m.rxSnapshot }
      (c.setMirror { c.mirror with ready := c.mirror.ready ++ [done], half := 1 - m.half }).setDrop
    else c

/-- The clock at a snapshot that a header dates in TIME_NS (R291, R294; assumption log 157). -/
def Chip.snapshotAt (c : Chip) (timeNs : Nat) : Nat := c.time.ticks28 - (signed 32 (unsign 32 ((c.timeNs : Int) - timeNs))).toNat * 2 ^ 28

/-- The last epoch received in the set, received whole, or applied; none before the first set is applied (R293; assumption log 156). -/
def Chip.epochKnown (c : Chip) : Option Nat :=
  let m := c.mirror
  match m.rxBase, m.ready.getLast?, m.applying with
  | some b, _, _ => some b
  | none, some r, _ => some r.num
  | none, none, some n => some n
  | none, none, none => if m.synced then some (c.get F.MIRROR_EPOCH_APPLIED_APPLIED) else none

/-- The header of an epoch, in its first frame, passes the checks of R291 to R293. -/
def Chip.headerOk (c : Chip) (num : Nat) (data : List Byte) : Bool :=
  let m := c.mirror
  let base := ofLe (slice data 8 4)
  let len := ofLe (slice data 12 4)
  let baseOk := if base = 0xFFFFFFFF then ofLe (slice data 3 1) % 2 = 1 && m.setLen = 0 else decide (c.epochKnown = some base)
  decide (32 ≤ data.length) && decide (ofLe (slice data 0 2) = 0x4D52) && decide (ofLe (slice data 2 1) = 1) &&
    decide (ofLe (slice data 4 4) = num) && baseOk && decide (len + m.setLen ≤ 8388608) && decide (len ≤ 1048576) && decide (m.ready.length < 2)

/-- The data of an epoch goes into the staging area; its last byte completes it (R293). -/
def Chip.epochStore (c : Chip) (num ofs : Nat) (data : List Byte) : Chip :=
  let c := c.dramWrite dmBelfry (c.stageAt c.mirror.half + c.mirror.setLen + ofs) data
  let c := (c.setMirror { c.mirror with rxLen := ofs + data.length }).set F.MIRROR_STATUS_RECEIVING 1
  let h := c.stageRead c.mirror.half c.mirror.setLen 32
  let c := h.2
  let len := ofLe (slice h.1.1 12 4)
  if len < c.mirror.rxLen then c.setFail num (c.mirror.setFull || c.mirror.rxFull)
  else if len = c.mirror.rxLen then c.epochWhole num else c

/-- A frame that begins an epoch, or should: what is left of a discarded set is passed over, and an epoch must begin at OFFSET 0 with a header
that passes (R293, R294). -/
def Chip.epochFirst (c : Chip) (num ofs : Nat) (data : List Byte) : Chip :=
  let m := c.mirror
  let flags := ofLe (slice data 3 1)
  let full := flags % 2 = 1
  let final := flags / 2 % 2 = 1
  if decide (ofs ≠ 0) && (m.rxDrop = some num || (m.rxDrop.isSome && m.dropFull)) then c.setMirror { m with rxDrop := some num }
  else if ofs = 0 && m.rxDrop.isSome && m.dropFull && full && decide (ofLe (slice data 8 4) ≠ 0xFFFFFFFF) then
    c.setMirror { m with rxDrop := some num, dropFull := !final }
  else if decide (ofs ≠ 0) || !c.headerOk num data then c.setFail num (ofs = 0 && full && !final)
  else (c.setMirror { m with
    rxNum := some num, rxFull := full, rxFinal := final, rxSnapshot := c.snapshotAt (ofLe (slice data 20 4)), rxDrop := none, dropFull := false }).epochStore num 0 data

/-- An EPOCH_DATA frame at a standby (R293). -/
def Chip.epochData (c : Chip) (payload : List Byte) : Chip :=
  if !c.runs pgMirror || c.actBit || decide (c.unitState = rsSolo) then c
  else
    let num := ofLe (slice payload 0 4)
    let ofs := ofLe (slice payload 4 4)
    let data := payload.drop 8
    let m := c.mirror
    match m.rxNum with
    | none => c.epochFirst num ofs data
    | some n =>
      if n = num && ofs = m.rxLen && decide (m.setLen + ofs + data.length ≤ 8388608) then c.epochStore num ofs data
      else (c.setFail n ((m.setFull || m.rxFull) && !m.rxFinal)).epochFirst num ofs data

/-- The next frame of an epoch, or of a set, is more than 10 ms late (R294). -/
def Chip.epochLate (c : Chip) : Chip :=
  if c.setPartial then
    let m := c.mirror
    c.setFail (m.rxNum.getD ((m.rxBase.getD 0 + 1) % 2 ^ 32)) ((m.setFull || m.rxFull) && !(m.rxNum.isSome && m.rxFinal))
  else c

/-- A record of a set. -/
structure SetItem where
  typ : Nat
  count : Nat
  addr : Nat
  payload : List Byte
deriving DecidableEq, Repr

/-- Bytes of a record's payload (R291). -/
def itemLen (typ count : Nat) : Nat := match typ with | 1 => 4 * count | 2 => 4 * count | 3 => 4096 | 4 => 8 * count | _ => 8

/-- The records of the epochs of a set, in order, commit records and headers left out. -/
def setItems : Nat → List Byte → List SetItem
  | 0, _ => []
  | fuel + 1, l =>
    if l.length < 8 then []
    else if ofLe (slice l 0 2) = 0x4D52 then setItems fuel (l.drop 32)
    else
      let typ := ofLe (slice l 0 1)
      let count := ofLe (slice l 2 2)
      let n := itemLen typ count
      let t := setItems fuel (l.drop (8 + n))
      if typ = 15 then t else { typ := typ, count := count, addr := ofLe (slice l 4 4), payload := slice l 8 n } :: t

/-- The words of a record. -/
def SetItem.words (i : SetItem) : List Nat := (List.range i.count).map (fun k => ofLe (slice i.payload (4 * k) 4))

/-- The entries of a LAUNCH record. -/
def SetItem.entries (i : SetItem) : List LaunchEntry :=
  (List.range i.count).map (fun k =>
    let w := ofLe (slice i.payload (8 * k + 4) 4)
    { time := ofLe (slice i.payload (8 * k) 4), kind := w % 16, arg := w / 16 % 1024, tag := w / 2 ^ 24 })

/-- A set is applied: DRAM records in place, the launch queue replaced but for entries already due; `writes` puts the register records with
origin MIRROR and commits the pages touched (R293). -/
def Chip.applySet (writes : List SetItem → Chip → Chip) (c : Chip) (s : ReadySet) : Chip :=
  let r := c.stageRead s.half 0 s.len
  let items := setItems s.len r.1.1
  let c := writes (items.filter (fun i => i.typ = 1 || i.typ = 2)) r.2
  let c := (items.filter (fun i => i.typ = 3)).foldl (fun c i => c.dramWrite dmBelfry (4096 * i.addr) i.payload) c
  let c := match (items.filter (fun i => i.typ = 4)).getLast? with
    | some i => { c with launchQ := (i.entries.filter (fun e => !launchDue c.timeNs e)).take 64 }
    | none => c
  c.setMirror { c.mirror with epoch := s.num, snapshot := s.snapshot }

/-- The complete sets are applied at a bar boundary of a standby (R293). -/
def Chip.setApply (writes : List SetItem → Chip → Chip) (c : Chip) : Chip :=
  if c.mirror.ready.isEmpty || c.actBit || c.mirror.applying.isSome then c
  else
    let sets := c.mirror.ready
    let c := sets.foldl (fun c s => c.applySet writes s) c
    let c := c.setMirror { c.mirror with
      ready := [], applying := (sets.getLast?).map (·.num), applyFull := sets.any (·.full), synced := true, aged := true }
    c.set F.MIRROR_STATUS_APPLYING 1

/-- An apply ends: ACK, MIRROR_APPLIED, SYNCED, and SYNCING to STANDBY (R293). -/
def Chip.applied (c : Chip) : Chip :=
  match c.mirror.applying with
  | none => c
  | some n =>
    let c := (c.setMirror { c.mirror with
      applying := none, applyFull := false, synced := true, whole := c.mirror.whole || c.mirror.applyFull }).set F.MIRROR_STATUS_APPLYING 0
    let c := (c.set F.MIRROR_EPOCH_APPLIED_APPLIED n).set F.MIRROR_STATUS_SYNCED 1
    let c := (c.emit (.sideband (sbFrame 6 (leBytes 4 n)))).raise E.MIRROR_APPLIED
    if c.unitState = rsSyncing && c.mirror.whole then c.setUnitState rsStandby else c

/-- AGE_MS: ms since the snapshot of the last set applied; 0 while active (R294). -/
def Chip.mirrorAge (c : Chip) : Nat :=
  if c.actBit || !c.mirror.aged then 0 else min 65535 ((c.time.ticks28 - c.mirror.snapshot) / (2 ^ 28 * 1000000))

/-! ### What a tile obeys (R296, R297) -/

/-- What follows a change of the ring obeyed: OBEY, its counter and events; on a change from one ring to the other, by way of none too, the old
ring's builds close, its start instants are left, and the new ring's next downbeat is taken under R243 (R297). -/
def Chip.obeyShow (c : Chip) : Chip :=
  let o := c.obeyed
  let was := c.get F.REDUN_TILE_OBEY
  let now := match o with | none => 0 | some r => r + 1
  let dual := c.get F.CHAINCTL_TILE_CFG_TOPO = 2
  let old := c.tile.lastRing
  let c := (c.set F.REDUN_TILE_OBEY now).cond E.NO_ACTIVE (dual && o.isNone)
  if now = was || now = 0 then c
  else
    let c := (c.setTile { c.tile with lastRing := now }).bumpSat F.REDUN_TILE_SWITCHES_COUNT
    if dual && old ≠ 0 && old ≠ now then
      let c := c.closeAll
      (c.setTile { c.tile with
        kept := [], starts := c.tile.starts.filter (fun d => some (ringOf d.port) = o), sched := { c.tile.sched with rejoin := true } }).raise E.ACTIVE_SWITCH
    else c

/-- A valid downbeat has come: ACTIVE downbeats on both rings raise DUAL_ACTIVE, and the ring obeyed follows (R297). -/
def Chip.obeyChanged (c : Chip) : Chip :=
  (if c.get F.CHAINCTL_TILE_CFG_TOPO = 2 && c.ringActive 0 && c.ringActive 1 then c.raise E.DUAL_ACTIVE else c).obeyShow

/-- After a change that may silence a stream, the ring obeyed follows (R297). -/
def Chip.obeying (f : Chip → Chip) (c : Chip) : Chip := match c.build with | .S => f c | .T => (f c).obeyShow

end Sys2Proof.Machine
end

