-- ==== Sys2Proof/Machine/DriveOps.lean ====
section
/-! DEFINITION. The LED drive: PWM distribution, hybrid dimming and fades, current ceiling, trim, diagnostics, pass boundaries and drive states (spec/10_led_drive.md). -/

namespace Sys2Proof.Machine

def pgDrive : Nat := 0x0B4
def pgDiag : Nat := 0x0B5
def bandPage (n : Nat) : Nat := 0x0B0 + n

def Chip.setDrive (c : Chip) (d : DriveSt) : Chip := { c with drive := d }

def dvOff : Nat := 0
def dvArmed : Nat := 1
def dvRun : Nat := 2
def dvHalt : Nat := 3

def Chip.driveState (c : Chip) : Nat := c.state pgDrive

/-- The drive's state, with DRIVE_OFF: EN = 1 and not RUN (R274). -/
def Chip.setDriveState (c : Chip) (s : Nat) : Chip :=
  (c.set (F.STATE.pg pgDrive) s).cond E.DRIVE_OFF (c.en pgDrive && decide (s ≠ dvRun))

/-! ### Brightness (R261) -/

/-- `2x − 1` raised to 4,096 is at most `2^(69632 − n)`: x is not above 65,536 × 2^(−n/4096) rounded. -/
def bqFits (n x : Nat) : Bool := decide ((2 * x - 1) ^ 4096 ≤ 2 ^ (69632 - n))

/-- The largest x below `lo + 2^k` that fits, by halving. -/
def bqSearch (n : Nat) : Nat → Nat → Nat
  | 0, lo => lo
  | k + 1, lo => if bqFits n (lo + 2 ^ k) then bqSearch n k (lo + 2 ^ k) else bqSearch n k lo

/-- bq = round(65,536 × 2^((B − 65,535)/4,096)), exactly (R261). -/
def bqOf (b : Nat) : Nat := min 65536 (bqSearch (65535 - b) 17 0)

/-- The DAC code and the PWM scale of a colour (R261). -/
def dimOf (b bx : Nat) : Nat × Nat :=
  let bq := bqOf b
  let cx := ceilDiv (255 * bqOf bx) 65536
  let c := max (ceilDiv (255 * bq) 65536) cx
  (c, (255 * bq + c / 2) / c)

/-! ### Fixed-point curves of the fade engine (R263), 128 fraction bits -/

def fx : Nat := 2 ^ 128

/-- Integer square root from bit `n` down. -/
def isqrt (v : Nat) : Nat → Nat → Nat
  | 0, r => r
  | n + 1, r => if (r + 2 ^ n) * (r + 2 ^ n) ≤ v then isqrt v n (r + 2 ^ n) else isqrt v n r

/-- 2^(−x / 2^64) for x below 2^64, by square roots of 1/2: `n` bits of x from bit 63 down, `root` = 2^(−2^−k). -/
def exp2Bits : Nat → Nat → Nat → Nat → Nat
  | 0, _, _, acc => acc
  | n + 1, x, root, acc =>
    let root := isqrt (root * fx) 130 0
    exp2Bits n x root (if x / 2 ^ n % 2 = 1 then acc * root / fx else acc)

/-- 2^(−x / 2^64) as a fraction of `fx`. -/
def exp2neg (x : Nat) : Nat := exp2Bits 64 (x % 2 ^ 64) (fx / 2) fx / 2 ^ (x / 2 ^ 64)

/-- −log2 of a fraction of `fx` in (0, 1], times 2^64, by repeated squaring of the value scaled into (1/2, 1]. -/
def logBits : Nat → Nat → Nat → Nat
  | 0, _, acc => acc
  | n + 1, y, acc =>
    let z := y * y / fx
    if z * 2 ≤ fx then logBits n (z * 2) (2 * acc + 1) else logBits n z (2 * acc)

/-- −log2(y / fx) × 2^64. -/
def log2neg (y : Nat) : Nat :=
  let s := 128 - Nat.log2 (max 1 (y - 1)) - 1
  s * 2 ^ 64 + logBits 64 (y * 2 ^ s) 0

/-- The ST 2084 code of a luminance given as −log2 of its share of 10,000 cd/m², times 2^64, as a fraction of `fx` (PRESUMED constants,
assumption log 44). -/
def pqCode (l : Nat) : Nat :=
  let ym := exp2neg (l * 2610 / 16384)
  let num := 3424 * fx / 4096 + 2413 * 32 * ym / 4096
  let den := fx + 2392 * 32 * ym / 4096
  exp2neg (log2neg (num * fx / den) * (2523 * 128) / 4096)

/-- The curve coordinate of a brightness given in half codes below 65,535; above 10,000 cd/m² the ST 2084 code is 1 (R263). -/
def curveAt (curve nits half : Nat) : Nat :=
  match curve with
  | 1 => exp2neg (half * 5 * 2 ^ 64 / (8192 * 12))
  | 2 => pqCode (if nits ≤ 10000 then half * 2 ^ 64 / 8192 + log2neg (nits * fx / 10000) else half * 2 ^ 64 / 8192 - log2neg (10000 * fx / nits))
  | _ => 131070 - half

/-- The coordinate of a code. -/
def coordOf (curve nits b : Nat) : Nat := curveAt curve nits (2 * (65535 - b))

/-- The largest B below `lo + 2^k` whose lower half code is not above the coordinate `x / n`. -/
def codeSearch (curve nits : Nat) (x : Int) (n : Nat) : Nat → Nat → Nat
  | 0, lo => lo
  | k + 1, lo =>
    let b := lo + 2 ^ k
    if b ≤ 65535 && decide ((curveAt curve nits (2 * (65535 - b) + 1) * n : Nat) ≤ x) then codeSearch curve nits x n k b
    else codeSearch curve nits x n k lo

/-- The B of progress j of n from one value to another, never outside the two (R263). -/
def fadeValue (curve nits a b j n : Nat) : Nat :=
  if n ≤ j then b
  else
    let va := coordOf curve nits a
    let vb := coordOf curve nits b
    max (min a b) (min (max a b) (codeSearch curve nits ((va * n : Nat) + ((vb : Int) - va) * j) n 16 0))

/-! ### The fade engine (R263, R264) -/

def bNowFld (k : Nat) : Fld := F.DRIVECTL_B_NOW_R_B.plus (4 * k)
def dacFld (k : Nat) : Fld := F.DRIVECTL_B_NOW_R_DAC.plus (4 * k)

/-- Pass boundaries of a bar in the mode in use. -/
def Chip.passesPerBar (c : Chip) : Nat :=
  let s := c.tile.sched
  (if s.passes = 0 then c.passesWanted s.mode else s.passes) * max 1 (modeBeats s.mode)

/-- FADE.GO: from the values reached to the targets (R263, R264). -/
def Chip.fadeGo (c : Chip) : Chip :=
  let bars := c.get F.DRIVECTL_FADE_BARS
  let per := c.passesPerBar
  let f : FadeSt :=
    { from3 := [0, 1, 2].map (fun k => c.get (bNowFld k)), to3 := [0, 1, 2].map (fun k => c.get (F.DRIVECTL_DIM_TARGET_R_B.plus (4 * k))),
      curve := c.get F.DRIVECTL_FADE_CURVE % 3, taken := 0, total := if bars = 0 then 1 else bars * per, stride := 1, perBar := if bars = 0 then 0 else per }
  (c.setDrive { c.drive with fade := some f }).set F.DRIVECTL_FADE_BUSY 1

/-- A mode change keeps the fraction taken and spreads the rest over the boundaries of the remaining bars; a jump at the next boundary has none
to be spread over (R263, R264). -/
def Chip.fadeModeChange (c : Chip) : Chip :=
  match c.drive.fade with
  | none => c
  | some f =>
    let per := c.passesPerBar
    if per = f.perBar || f.perBar = 0 then c
    else
      let left := ceilDiv (f.total - f.taken) (max 1 f.stride)
      let left' := max 1 (left * per / max 1 f.perBar)
      c.setDrive { c.drive with fade := some { f with
        taken := f.taken * left', total := f.total * left', stride := f.total - f.taken, perBar := per } }

/-- One fade step at a pass boundary; the last sets the targets, clears BUSY and raises FADE_DONE (R263). -/
def Chip.fadeStep (c : Chip) : Chip :=
  match c.drive.fade with
  | none => c
  | some f =>
    let t := f.taken + f.stride
    let nits := max 1 (c.get F.DRIVECTL_PQ_PEAK_NITS)
    let c := [0, 1, 2].foldl (fun c k => c.set (bNowFld k) (fadeValue f.curve nits (f.from3.getD k 0) (f.to3.getD k 0) t f.total)) c
    if f.total ≤ t then ((c.setDrive { c.drive with fade := none }).set F.DRIVECTL_FADE_BUSY 0).raise E.FADE_DONE
    else c.setDrive { c.drive with fade := some { f with taken := t } }

/-- The DAC codes and PWM scales of the coming pass (R257, R261). -/
def Chip.dimStep (c : Chip) : Chip :=
  let bx := c.get F.DRIVECTL_CROSSOVER_BX
  let d := [0, 1, 2].map (fun k => dimOf (c.get (bNowFld k)) bx)
  let c := [0, 1, 2].foldl (fun c k => c.set (dacFld k) (d.getD k (255, 65536)).1) c
  c.setDrive { c.drive with scale := d.map (·.2) }

/-! ### PWM distribution (R258, R259, R394) -/

/-- The requested on-time of a beat in 1/256 step, after the short-pulse LUT. -/
def pwmTotal (spl : Nat → Nat) (l w p s : Nat) : Nat :=
  let t := l * w * p * s / 16776960
  let m := t / p
  if m < 1024 then
    let i := m / 16
    let f := m % 16
    let y0 := spl i
    let y1 := if i = 63 then 1024 else spl (i + 1)
    (((y0 : Int) * 16 + ((y1 : Int) - y0) * f + 8) / 16).toNat * p
  else t

/-- The on-time of pass `k` of `p` (R258). -/
def pwmOn (spl : Nat → Nat) (l w p s d k : Nat) : Nat :=
  let t := (pwmTotal spl l w p s + d) / 256
  if 2 * p ≤ t then t / p + ((k + 1) * (t % p) / p - k * (t % p) / p)
  else
    let t := if t = 1 then (if 128 ≤ d then 2 else 0) else t
    let n := t / 2
    let on := fun k => 2 * ((k + 1) * n / p - k * n / p)
    let first := (List.range p).find? (fun k => decide (0 < on k))
    on k + (if t % 2 = 1 && first = some k then 1 else 0)

/-! ### Currents (R262, R265, R266) -/

/-- IFS of a band and colour as it acts, µA. -/
def Chip.ifs (c : Chip) (n k : Nat) : Nat := max 500 (min 8000 (c.use ((F.BAND_IFS_R_UA.plus (4 * k)).pg n)))

/-- The DAC code of a colour. -/
def Chip.dac (c : Chip) (k : Nat) : Nat := c.get (dacFld k)

/-- The ceiling in force, µA. -/
def Chip.ceiling (c : Chip) : Nat := c.get F.DRIVECTL_CEILING_ACTIVE_UA

/-- The trim code of a sink in use: 0 while PWM8 acts (R266, R394). -/
def Chip.trimCode (c : Chip) (n ch : Nat) : Int := if c.drive.pwm8 then 0 else signed 6 (smGet 0 c.drive.trimUse (576 * n + ch))

/-- The target current of a sink in nA before the clamp: IFS × c ÷ 255 with its trim of 0.375 % steps (R262, R266). -/
def Chip.sinkTarget (c : Chip) (n ch : Nat) : Nat :=
  let k := ch % 3
  (((c.ifs n k * c.dac k * 1000 : Nat) : Int) * (800 + 3 * c.trimCode n ch) / 204000).toNat

/-- The current of a sink in nA: clamped at 0.985 × CEILING_ACTIVE (R265). -/
def Chip.sinkCurrent (c : Chip) (n ch : Nat) : Nat := min (c.sinkTarget n ch) (985 * c.ceiling)

/-- i_ua of the dose accounting (R262). -/
def Chip.doseUa (c : Chip) (n k : Nat) : Nat := c.ifs n k * c.dac k / 255

/-- CEILING_HIT: a sink of the geometry is limited by the clamp while the drive is enabled (R265). -/
def Chip.ceilingHit (c : Chip) : Bool :=
  c.en pgDrive && (List.range c.geoBands).any (fun n => (List.range (3 * c.geoCols)).any (fun ch => decide (985 * c.ceiling < c.sinkTarget n ch)))

/-! ### Diagnostics (R268 to R273) -/

def dgUntested : Nat := 0
def dgOk : Nat := 1
def dgOpen : Nat := 2
def dgShort : Nat := 3
def dgNeighbour : Nat := 4

def DiagEnt.fresh (last : Nat) : DiagEnt := { st := 0, pend := 0, run := 0, last := last }

def Chip.diagEnt (c : Chip) (e : Nat) : DiagEnt := smGet (DiagEnt.fresh c.drive.zeroBar) c.drive.diag e

/-- AGE of an entry: bars since its last result, saturating (R270). -/
def Chip.diagAge (c : Chip) (e : Nat) : Nat := min 65535 (c.drive.bars - (c.diagEnt e).last)

/-- The emitter of a channel of a band in a row (R252). -/
def Chip.emitterAt (c : Chip) (n row ch : Nat) : Nat := 3 * (n * (c.geoRows * c.geoCols) + row * c.geoCols + ch / 3) + ch % 3

def Chip.emitters (c : Chip) : Nat := 3 * c.lamps

/-- The emitter is forced off, by itself or with its channel (R272). -/
def Chip.forced (c : Chip) (n row ch : Nat) : Bool :=
  smGet false c.drive.force (c.emitterAt n row ch) || smGet false c.drive.chForce (576 * n + ch)

/-- Any entry in a fault state. -/
def Chip.diagFault (c : Chip) : Bool := c.drive.diag.any (fun p => decide (2 ≤ p.2.st) && decide (p.1 < c.emitters))

/-- The emitters of the geometry in a state. -/
def Chip.diagCount (c : Chip) (st : Nat) : Nat := ((List.range c.emitters).filter (fun e => (c.diagEnt e).st = st)).length

/-- The channel pairs in NEIGHBOUR_SHORT: both channels hold the state in some row. -/
def Chip.diagPairs (c : Chip) : Nat :=
  ((List.range (c.geoBands * (3 * c.geoCols - 1))).filter (fun i =>
    let n := i / (3 * c.geoCols - 1)
    let ch := i % (3 * c.geoCols - 1)
    (List.range c.geoRows).any (fun r => (c.diagEnt (c.emitterAt n r ch)).st = 4 && (c.diagEnt (c.emitterAt n r (ch + 1))).st = 4))).length

/-- The largest AGE among UNTESTED emitters. -/
def Chip.diagOldest (c : Chip) : Nat :=
  ((List.range c.emitters).filter (fun e => (c.diagEnt e).st = 0)).foldl (fun m e => max m (c.diagAge e)) 0

/-- The reaction code of a confirmed fault state (R272). -/
def Chip.diagPolicy (c : Chip) (st : Nat) : Nat :=
  match st with
  | 2 => c.get F.DIAG_POLICY_OPEN
  | 3 => c.get F.DIAG_POLICY_LAMP_SHORT
  | 4 => c.get F.DIAG_POLICY_NEIGHBOUR
  | _ => 0

/-- The forces that a confirmed state brings, due at the next pass boundary; `mate` is the other channel of a short pair (R272). -/
def Chip.diagForce (c : Chip) (n row ch st : Nat) (mate : Option Nat) : Chip :=
  match c.diagPolicy st with
  | 0 => c
  | 1 => c.setDrive { c.drive with forceDue := smSet c.drive.forceDue (c.emitterAt n row ch) true }
  | k =>
    let d := smSet c.drive.chDue (576 * n + ch) true
    let d := match k, mate with | 3, some m => smSet d (576 * n + m) true | _, _ => d
    c.setDrive { c.drive with chDue := d }

/-- PAGE_STAT.FAULT of DRIVECTL and the DIAG_UNTESTED condition (R270, R274). -/
def Chip.diagShow (c : Chip) : Chip :=
  let c := c.set (F.FAULT.pg pgDrive) (b2n (c.raw E.CEILING_HIT || c.diagFault))
  c.cond E.DIAG_UNTESTED ((List.range c.emitters).any (fun e => (c.diagEnt e).st = 0))

/-- The event of a state reached. -/
def diagEvent (old new : Nat) : Option Ev :=
  match new with
  | 2 => some E.DIAG_OPEN
  | 3 => some E.DIAG_LAMP_SHORT
  | 4 => some E.DIAG_NEIGHBOUR
  | 1 => if 2 ≤ old then some E.DIAG_CLEARED else none
  | _ => none

/-- FAULT and DIAG_UNTESTED follow the entries that have changed since `was` (R270, R274). -/
def Chip.diagFollow (was : Chip) (c : Chip) : Chip := if c.drive.diag = was.drive.diag then c else c.diagShow

/-- A result is entered for an emitter (R270). -/
def Chip.diagResult (c : Chip) (n row ch res : Nat) (mate : Option Nat := none) : Chip :=
  let e := c.emitterAt n row ch
  let x := c.diagEnt e
  let put := fun (c : Chip) (x : DiagEnt) => c.setDrive { c.drive with diag := smSet c.drive.diag e x }
  if res = x.st then put c { x with pend := 0, run := 0, last := c.drive.bars }
  else
    let run := if x.pend = res then x.run + 1 else 1
    if run < 3 then put c { x with pend := res, run := run, last := c.drive.bars }
    else
      let c := put c { st := res, pend := 0, run := 0, last := c.drive.bars }
      let c := c.diagForce n row ch res mate
      match diagEvent x.st res with
      | some ev => c.raise ev
      | none => c

/-- OK entries older than STALE return to UNTESTED, at a bar start (R270). -/
def Chip.diagStale (c : Chip) : Chip :=
  let lim := c.get F.DIAG_STALE_BARS
  if lim = 0 then c
  else Chip.diagFollow c (c.setDrive { c.drive with diag := c.drive.diag.map (fun p =>
    if p.2.st = 1 && decide (lim < c.drive.bars - p.2.last) then (p.1, { p.2 with st := 0 }) else p) })

/-- DIAG.CLEAR at a pass boundary (R273). -/
def Chip.diagClearNow (c : Chip) : Chip :=
  if !c.drive.clear then c
  else
    (c.setDrive { c.drive with
      diag := [], zeroBar := c.drive.bars, forceDue := [], force := [], chDue := [], chForce := [], clear := false }).set F.DIAG_CTRL_CLEAR 0

/-- The result that a sink voltage in mV gives with its row selected (R268). -/
def voltResult (mv : Nat) : Nat := if mv < 100 then dgOpen else if 1500 < mv then dgShort else dgOk

/-! ### Row slots (R253, R255, R256, R258, R268, R271, R429) -/

/-- The pass under way carries light: RUN, a lit buffer, a window that fits a pulse. -/
def Chip.passLit (c : Chip) : Option Nat :=
  if c.driveState = dvRun && decide (2 ≤ c.tile.sched.window) then c.litBuffer else none

/-- The level of an emitter in the buffer shown; 0 where its word is poisoned (R429); its high byte alone under PWM8 (R394). -/
def Chip.driveLevel (c : Chip) (buf e : Nat) : Nat × Chip :=
  let r := c.tileRead (bufBank buf) (bufOfs buf + 2 * e) 2 (imageRec buf)
  let l := r.2.levelOut (if r.1.2 then 0 else ofLe r.1.1)
  (if c.drive.pwm8 then l.1 / 256 * 256 else l.1, l.2)

/-- A short-pulse LUT value as it acts (R259). -/
def splValue (y : Nat) : Nat := min 2047 y

/-- The short-pulse LUT in use (R259). -/
def Chip.splAt (c : Chip) (k i : Nat) : Nat := smGet (16 * i) c.drive.splUse (64 * k + i)

/-- Steps of the column clamp and of the dead time in a temperature band (R255). -/
def clampDead (tb : Nat) : Nat × Nat := match tb with | 0 => (17, 25) | 1 => (17, 25) | 2 => (17, 25) | 3 => (17, 29) | _ => (21, 33)

/-- The clamp and dead time of a drive band. -/
def Chip.bandClamp (c : Chip) (n : Nat) : Nat × Nat := clampDead (c.get (F.BAND_STATUS_TB.pg n))

/-- The clamp level in use, in 0.1 V: BAND.CLAMP as the last pass boundary found it. -/
def Chip.clampLevel (c : Chip) (n : Nat) : Nat := smGet 15 c.drive.clampUse n

/-- The pass is one of every 64 of the band that carry an image in which its channels are probed (R271). -/
def Chip.probing (c : Chip) (n : Nat) : Bool :=
  let k := smGet 0 c.drive.probePass n
  c.on F.DIAG_CTRL_DIAG_PULSE && decide (k % 64 = 0) && decide (0 < k)

/-- One channel in a row slot of a band: its pulses, its dose, and its diagnostic result. A pulse starts with the window; a probe takes the
window's last 65 steps. Sink voltages outside OK are listed by 576 × band + channel. -/
def Chip.slotChannel (c : Chip) (buf n row ch : Nat) (volts : List (Nat × Nat)) : List Pulse × Chip :=
  let s := c.tile.sched
  let k := ch % 3
  let e := c.emitterAt n row ch
  let off := c.forced n row ch
  let r := c.driveLevel buf e
  let c := r.2
  let d := if c.drive.pwm8 then 0 else dither s.bar e
  let on := if off then 0 else pwmOn (c.splAt k) r.1 s.window s.passes (c.drive.scale.getD k 65536) d ((s.index - 1) % max 1 s.passes)
  let c := if on = 0 then c
    else c.setDrive { c.drive with dose := smSet c.drive.dose e (smGet 0 c.drive.dose e + on * c.doseUa n k) }
  let probe := c.probing n && decide (row = smGet 0 c.drive.probeRow n % c.geoRows) && decide (on < 65) && !off && decide (65 ≤ s.window)
  let mv := ((volts.find? (fun v => v.1 = 576 * n + ch)).map (·.2)).getD 1000
  let c := if c.on F.DIAG_CTRL_DETECT_EN && !off && (decide (65 ≤ on) || probe) then c.diagResult n row ch (voltResult mv) else c
  let t := (c.bandClamp n).1 + (c.bandClamp n).2
  let own : List Pulse := if on = 0 then [] else [{ ch := ch, start := t, steps := on, na := c.sinkCurrent n ch }]
  let test : List Pulse := if probe then [{ ch := ch, start := t + s.window - 65, steps := 65, na := c.sinkCurrent n ch / 16 }] else []
  (own ++ test, c)

/-- The pulses of a row slot of one band; none where its link word was bad (R253). -/
def Chip.slotPulses (c : Chip) (buf row : Nat) (bad : List Nat) (volts : List (Nat × Nat)) (n : Nat) : List Pulse × Chip :=
  if bad.contains n then ([], c)
  else (List.range (3 * c.geoCols)).foldl (fun (a : List Pulse × Chip) ch =>
    let x := a.2.slotChannel buf n row ch volts
    (a.1 ++ x.1, x.2)) (([] : List Pulse), c)

/-- A row slot of one band: clamp, dead time, row gate and pulses; a skipped band stays off. The row is selected when its clamp ends, and
released at the slot's end, step 0 of the slot of the next row (R255, R256, R421). -/
def Chip.slotBand (c : Chip) (buf row : Nat) (bad : List Nat) (volts : List (Nat × Nat)) (n : Nat) : Chip :=
  if c.tile.sched.skip.getD n false then c
  else
    let r := c.slotPulses buf row bad volts n
    let c := r.2.emit (.gate n row true (r.2.bandClamp n).1)
    let c := c.emit (.light n row (c.clampLevel n) (c.bandClamp n).1 (c.bandClamp n).2 r.1)
    c.emit (.gate n row false c.tile.sched.slotSteps)

/-- The bands of a list of link words whose word of this slot is uncorrectable (R253, R313). -/
def linkBad (link : List (Nat × Nat)) : List Nat :=
  (link.filter (fun x => match eccBySyndrome 0 x.2 with | .clean => false | .corrected _ _ => false | _ => true)).map (·.1)

/-- The link words of a row slot are decoded: one corrected or not is recorded, and one not corrected raises DRIVE_LINK (R253, R313). -/
def Chip.linkWords (c : Chip) (link : List (Nat × Nat)) : Chip :=
  link.foldl (fun c x =>
    if c.geoBands ≤ x.1 then c
    else
      let rec? := fun (ue : Bool) => ({ ue := ue, kind := 0, unit := x.1, syndrome := x.2 % 512, loc := 0 } : ErrRec)
      match eccBySyndrome 0 x.2 with
      | .clean => c
      | .corrected _ _ => c.report pgDrive [rec? false]
      | _ => (c.report pgDrive [rec? true]).raise E.DRIVE_LINK) c

/-- The bands whose pass carries the image shown (R256, R271). -/
def Chip.litBands (c : Chip) : List Nat := (List.range c.geoBands).filter (fun n => !c.tile.sched.skip.getD n false)

/-- A lit pass begins: each band that carries it counts it for its probes (R271). -/
def Chip.probeCount (c : Chip) : Chip :=
  c.litBands.foldl (fun c n => c.setDrive { c.drive with probePass := smSet c.drive.probePass n (smGet 0 c.drive.probePass n + 1) }) c

/-- A pass with probes ends: the next one probes the next row (R271). -/
def Chip.probeNext (c : Chip) : Chip :=
  (c.litBands.filter c.probing).foldl (fun c n =>
    c.setDrive { c.drive with probeRow := smSet c.drive.probeRow n ((smGet 0 c.drive.probeRow n + 1) % c.geoRows) }) c

/-- The lit row slot of every band. -/
def Chip.slotLit (c : Chip) (buf row : Nat) (bad : List Nat) (volts : List (Nat × Nat)) : Chip :=
  let c := if row = 0 then c.probeCount else c
  let was := c
  let c := (List.range c.geoBands).foldl (fun c n => c.slotBand buf row bad volts n) c
  let c := if row + 1 = c.geoRows then c.probeNext else c
  Chip.diagFollow was c

/-- The next row slot of the pass starts (R253, R255). -/
def Chip.rowSlot (c : Chip) (link : List (Nat × Nat)) (volts : List (Nat × Nat)) : Chip :=
  let s := c.tile.sched
  if s.waiting || s.index = 0 || decide (c.geoRows ≤ s.row) then c
  else
    let row := s.row
    let c := c.setSched { s with row := row + 1 }
    let c := if c.driveState = dvRun then c.linkWords link else c
    match c.passLit with
    | none => c
    | some buf => c.slotLit buf row (linkBad link) volts

/-! ### Neighbour slot (R269) -/

/-- The slack left after R15, waits and catch-up, in steps. -/
def Chip.slackLeft (c : Chip) : Nat :=
  (c.passEnd.1 - (c.tile.sched.start33 + c.tile.sched.waited33 + c.rows33)) / step33

/-- A short pair: its result is entered into every emitter of both channels (R270). -/
def Chip.neighbourShort (c : Chip) (n ch : Nat) : Chip :=
  (List.range c.geoRows).foldl (fun c r =>
    let one := fun (c : Chip) (a b : Nat) => if c.forced n r a then c else c.diagResult n r a dgNeighbour (some b)
    one (one c ch (ch + 1)) (ch + 1) ch) c

/-- The classes (ch mod 4) that sink 50 µA, in the order of the four phases (R269). -/
def phaseClasses : List Nat := [1, 3, 0, 2]

/-- The phase in which a channel is driven. -/
def drivenIn (ch : Nat) : Nat := match ch % 4 with | 1 => 0 | 3 => 1 | 0 => 2 | _ => 3

/-- A channel not driven in a phase is flagged: its voltage has fallen more than 0.5 V below the clamp voltage. `falls` lists band, phase,
channel and fall in mV; an unlisted one has not fallen (R269). -/
def flagged (falls : List (Nat × Nat × Nat × Nat)) (n phase ch : Nat) : Bool :=
  decide (drivenIn ch ≠ phase) && falls.any (fun x => x.1 = n && x.2.1 = phase && x.2.2.1 = ch && decide (500 < x.2.2.2))

/-- The result of the pair (ch, ch + 1): NEIGHBOUR_SHORT when each was flagged while the other was driven, otherwise OK (R269). -/
def pairResult (falls : List (Nat × Nat × Nat × Nat)) (n ch : Nat) : Nat :=
  if flagged falls n (drivenIn (ch + 1)) ch && flagged falls n (drivenIn ch) (ch + 1) then dgNeighbour else dgOk

/-- The neighbour slot of one band: its phases, and the shorts they show. An OK result of a pair is not entered (assumption log 151). -/
def Chip.neighbourBand (falls : List (Nat × Nat × Nat × Nat)) (c : Chip) (n : Nat) : Chip :=
  ((List.range (3 * c.geoCols - 1)).filter (fun ch => pairResult falls n ch = dgNeighbour)).foldl (fun c ch => c.neighbourShort n ch)
    (c.emit (.neighbour n (c.clampLevel n) phaseClasses))

/-- The slack of a pass is under way: its row slots have run (R14, R256). -/
def Chip.inSlack (c : Chip) : Bool :=
  let s := c.tile.sched
  decide (0 < s.index) && !s.waiting && decide (c.geoRows ≤ s.row)

/-- The neighbour slot that is due runs in the slack, or moves to the next pass (R14, R269). -/
def Chip.neighbourSlot (c : Chip) (falls : List (Nat × Nat × Nat × Nat)) : Chip :=
  if !c.drive.slotDue || c.driveState ≠ dvRun || !c.on F.DIAG_CTRL_NEIGHBOUR_EN || !c.inSlack then c
  else if c.slackLeft < 2048 then
    let m := c.drive.slotMoves + 1
    if m < 64 then c.setDrive { c.drive with slotMoves := m }
    else (c.setDrive { c.drive with slotMoves := 0 }).raise E.DIAG_SLOT_SKIP
  else
    let c := c.setDrive { c.drive with slotDue := false, slotMoves := 0 }
    Chip.diagFollow c ((List.range c.geoBands).foldl (Chip.neighbourBand falls) c)

/-! ### Trim (R266, R267) -/

def trimKey (n set ch : Nat) : Nat := (n * 4 + set) * 576 + ch

/-- A stored trim code. -/
def Chip.trimSet (c : Chip) (n set ch : Nat) : Int := signed 6 (smGet 0 c.drive.trim (trimKey n set ch))

/-- Division rounded to nearest, an exact half away from zero. -/
def roundAway (a : Int) (b : Nat) : Int := if 0 ≤ a then (2 * a + b) / (2 * b) else -((2 * (-a) + b) / (2 * b))

/-- The sets that bracket a temperature (R266). -/
def trimBracket (t : Int) : Nat × Nat :=
  if t ≤ -320 then (0, 0) else if t < 320 then (0, 1) else if t < 880 then (1, 2) else if t < 1360 then (2, 3) else (3, 3)

/-- The interpolated code of a sink. -/
def Chip.trimInterp (c : Chip) (n ch : Nat) (t : Int) : Int :=
  let b := trimBracket t
  let lo := c.trimSet n b.1 ch
  if b.1 = b.2 then lo
  else
    let t0 := setTemps.getD b.1 0
    let t1 := setTemps.getD b.2 0
    roundAway (lo * (t1 - t0) + (c.trimSet n b.2 ch - lo) * (t - t0)) (t1 - t0).toNat

/-- Trim codes computed for the next pass boundary, every 1 ms (R266). -/
def Chip.trimCodes (c : Chip) : Chip :=
  c.setDrive { c.drive with trimNext := (List.range 2304).map (fun i =>
    (i, unsign 6 (c.trimInterp (i / 576) (i % 576) (c.bandTemp (i / 576)).1))) }

/-- A set's code moved, within the 6-bit range; the sets are to be stored again. -/
def Chip.trimAdd (c : Chip) (n set ch : Nat) (d : Int) : Chip :=
  c.setDrive { c.drive with trim := smSet c.drive.trim (trimKey n set ch) (unsign 6 (max (-32) (min 31 (c.trimSet n set ch + d)))), trimDirty := true }

/-- BAND_n_TRIM (R267). -/
def Chip.trimCond (c : Chip) (n : Nat) : Chip :=
  let lim := c.get (F.BAND_TRIM_CTRL_LIMIT.pg n)
  c.cond ⟨161 + n, bandPage n, 1⟩ ((List.range 576).any (fun ch => decide (lim < (signed 8 (smGet 0 c.drive.resid (576 * n + ch))).natAbs)))

/-- A sink's 256 measurements of a band end with error r in 0.1 % units: residual, correction of both bracketing sets, and the next sink;
after the last sink a sweep is complete (R267). -/
def Chip.trimMeasured (c : Chip) (n : Nat) (r : Int) : Chip :=
  if !c.on (F.BAND_TRIM_CTRL_AUTO.pg n) || decide (4 ≤ n) || c.driveState ≠ dvRun then c
  else
    let ch := smGet 0 c.drive.trimCh n
    let c := c.setDrive { c.drive with resid := smSet c.drive.resid (576 * n + ch) (unsign 8 (max (-128) (min 127 r))) }
    let c := if 2 < r.natAbs then
        let d := roundAway (-4 * r) 15
        let b := trimBracket (c.bandTemp n).1
        let c := c.trimAdd n b.1 ch d
        if b.1 = b.2 then c else c.trimAdd n b.2 ch d
      else c
    let c := (c.setDrive { c.drive with trimCh := smSet c.drive.trimCh n ((ch + 1) % 576) }).trimCond n
    if ch = 575 then
      let w := (List.range 576).foldl (fun m i =>
        if (signed 8 (smGet 0 c.drive.resid (576 * n + m))).natAbs < (signed 8 (smGet 0 c.drive.resid (576 * n + i))).natAbs then i else m) 0
      ((c.bump (F.BAND_SWEEPS_COUNT.pg n)).set (F.BAND_RESID_WORST_CH.pg n) w).set (F.BAND_RESID_WORST_R.pg n) (smGet 0 c.drive.resid (576 * n + w))
    else c

/-! ### Pass boundaries (R257) and drive states (R274, R431) -/

/-- Step 1 and the drive states: HALT stays; EN cleared ends in OFF; SRST's dark pass in ARMED; ARMED to RUN. -/
def Chip.driveBoundary (c : Chip) : Chip :=
  let s := c.driveState
  if s = dvHalt then c
  else if !c.en pgDrive then (c.setDrive { c.drive with rearm := 0 }).setDriveState dvOff
  else if s = dvRun && c.drive.rearm = 1 then (c.setDrive { c.drive with rearm := 2 }).setDriveState dvArmed
  else if s = dvArmed then (c.setDrive { c.drive with rearm := 0 }).setDriveState dvRun
  else c

/-- The throttle's skip decision of a band (R359). -/
def Chip.skipBand (c : Chip) (n : Nat) : Bool :=
  let level := c.get (levelFld (n / 2 + 1))
  let k := match level with | 1 => 8 | 2 => 4 | 3 => 2 | _ => 0
  k ≠ 0 && c.get F.DRIVECTL_PASS_COUNT_COUNT % k = k - 1

/-- The row-slot temperature band of a drive band (R255). -/
def Chip.bandTb (c : Chip) (n : Nat) : Chip :=
  let b := c.tband (4 + n)
  if c.get (F.BAND_STATUS_TB.pg n) = b then c else (c.set (F.BAND_STATUS_TB.pg n) b).raise ⟨157 + n, bandPage n, 0⟩

/-- Forces due are in force from here on (R257 step 6). -/
def Chip.forcesNow (c : Chip) : Chip :=
  c.setDrive { c.drive with
    force := c.drive.forceDue.foldl (fun m p => smSet m p.1 true) c.drive.force, forceDue := [],
    chForce := c.drive.chDue.foldl (fun m p => smSet m p.1 true) c.drive.chForce, chDue := [] }

/-- What takes effect together at a pass boundary, in the order of R257, and PWM8 (R394). -/
def Chip.passChanges (c : Chip) : Chip :=
  let c := c.driveBoundary
  let skip := (List.range 4).map (fun n => decide (c.driveState = dvRun) && c.skipBand n)
  let c := c.setSched { c.tile.sched with skip := skip }
  let c := (List.range 4).foldl (fun c n => c.set (F.BAND_STATUS_SKIPPED.pg n) (b2n (skip.getD n false))) c
  let c := c.fadeStep.dimStep
  let c := (List.range 4).foldl (fun c n => c.bandTb n) c
  let c := c.setDrive { c.drive with
    clampUse := (List.range 4).map (fun n => (n, c.get (F.BAND_CLAMP.pg n))), trimUse := if c.drive.trimNext.isEmpty then c.drive.trimUse else c.drive.trimNext, pwm8 := c.on F.RESET_SERVICE_PWM8 }
  let c := c.diagClearNow.forcesNow
  let c := c.cond E.CEILING_HIT c.ceilingHit
  let c := if c.on F.DIAG_CTRL_NEIGHBOUR_EN && c.get F.DRIVECTL_PASS_COUNT_COUNT % 64 = 0 then c.setDrive { c.drive with slotDue := true } else c
  c.diagShow

/-- A pass boundary of the schedule may come: the plan stands, the row slots of a running drive have started, and a pass is left to run. -/
def Chip.passReady (c : Chip) : Bool :=
  let s := c.tile.sched
  c.build = .T && decide (0 < s.passes) && !s.waiting && c.reentryDue.isNone && (decide (s.index < s.passes) || s.reentry.isSome) && c.rowsDone

/-- A pass boundary: changes fall due, the next pass starts or waits (R239, R241, R257). -/
def Chip.passBoundary (c : Chip) : Chip :=
  if !c.passReady then c
  else
    let s := c.tile.sched
    let at33 : Nat := if s.index = 0 then s.start33 + s.gapSteps * step33 else c.passEnd.1
    let off := if s.index = 0 then s.offset33 else c.passEnd.2
    let c := c.setOffset off
    (c.passChanges).startPass at33

/-- The drive's part of a beat start: the bar's dose and the age of entries (R247, R270). -/
def Chip.driveBeat (c : Chip) (was : SchedSt) : Chip :=
  let s := c.tile.sched
  if s.beat = 0 || s.bar ≠ was.bar then
    let c := c.setDrive { c.drive with bars := c.drive.bars + 1, doseEnded := some (was.bar, c.drive.dose), dose := [] }
    c.diagStale
  else c

/-- DRIVECTL.EN set: CEILING_ACTIVE is latched; ARMED, but for a drive in HALT (R265, R274). -/
def Chip.driveOn (c : Chip) : Chip :=
  let c := c.set F.DRIVECTL_CEILING_ACTIVE_UA (max 500 (min 8000 (c.get F.DRIVECTL_CEILING_UA)))
  if c.driveState = dvOff then c.setDriveState dvArmed else c.setDriveState c.driveState

/-- DRIVECTL.EN cleared: RUN ends at the next pass boundary; ARMED goes to OFF at once (R274). -/
def Chip.driveOff (c : Chip) : Chip :=
  if c.driveState = dvArmed then c.setDriveState dvOff else c.setDriveState c.driveState

/-- SRST on DRIVECTL (R431). -/
def Chip.driveReset (c : Chip) : Chip :=
  let c := (c.setDrive { c.drive with fade := none, rearm := if c.driveState = dvRun then 1 else c.drive.rearm }).set F.DRIVECTL_FADE_BUSY 0
  c

/-- The knell: sinks off, row gates released, HALT until a full power cycle (R274). -/
def Chip.driveHalt (c : Chip) : Chip := match c.build with | .S => c | .T => c.setDriveState dvHalt

end Sys2Proof.Machine
end

