-- ==== Sys2Proof/Machine/ResetOps.lean ====
section
/-! DEFINITION. The knell, the kinds of reset, bring-up and the service levels (spec/14_belfry_thermal.md, spec/16_start_up.md). -/

namespace Sys2Proof.Machine

/-! ### The outputs (R422) -/

/-- The row of R422 that governs: the lowest whose condition holds. An output held for want of the XTAL PLL is held as in device reset (R391); there, and from the start of a knell, ALERT_N is low all the same (R351). -/
def Chip.outCond (c : Chip) : OutCond :=
  if c.rst.lost.contains 12 then .unpowered
  else if c.aon.latched then .knell
  else if c.rst.extest then .extest
  else if c.rst.held || c.rst.xtalHeld then .deviceReset
  else if c.build = .T && (c.rst.lost.contains 13 || c.rst.lost.contains 14) then .gateLost
  else .running

/-- The table of R422. -/
def OutCond.pin : OutCond → PinGroup → PinLevel
  | .running, .tdo | .running, .serial => .active
  | .running, _ => .asBlock
  | .gateLost, .sink | .gateLost, .rowGate => .highZ
  | .gateLost, .tdo | .gateLost, .serial => .active
  | .gateLost, _ => .asBlock
  | .deviceReset, .sink | .deviceReset, .lane => .off
  | .deviceReset, .rowGate => .deselected
  | .deviceReset, .clapOwn | .deviceReset, .alertN => .released
  | .deviceReset, .tdo => .active
  | .deviceReset, .serial => .highZ
  | .extest, .sink => .off
  | .extest, _ => .boundary
  | .knell, .sink | .knell, .lane => .off
  | .knell, .rowGate => .deselected
  | .knell, .clapOwn => .released
  | .knell, .alertN => .low
  | .knell, .tdo | .knell, .serial => .highZ
  | .unpowered, _ => .highZ

/-- A change of the governing row is recorded. -/
def Chip.pinsSince (c before : Chip) : Chip := if c.outCond = before.outCond then c else { c with out := c.out ++ [.pins c.outCond] }

/-- CLAP_OWN of a build that has the ball (R403). -/
def Chip.clapPin (c : Chip) (own : Bool) : Chip := match c.build with | .S => c.emit (.clapOwn own) | .T => c

/-! ### The knell (R360 to R363) -/

/-- A flash program or erase is under way: an erase of a slot, a block of an image, or a journaled copy. -/
def Chip.flashWorks (c : Chip) : Bool :=
  decide (c.state updPage = usErasing) || c.upd.writing.isSome || c.on F.SETTINGS_STATUS_SAVING || c.belfry.migrate.isSome ||
    c.belfry.journal.any (fun x => decide (x.1 ≠ arHold) || c.holdValid x.2)

/-- A sample of a sensor has reached 125 °C after the knell started (R361). -/
def Chip.noteHot (c : Chip) (raws : List Int) : Chip :=
  if c.aon.knell.isSome && c.reaches125 raws then { c with aon := { c.aon with hot125 := true } } else c

/-- With the clocks stopped the sensors are still sampled, for the sequencer alone, until the knell is latched (R361). -/
def Chip.hotSample (c : Chip) (raws : List Int) : Chip := c.sensors.foldl (fun c n => c.sampleNote n (raws.getD n 0)) (c.noteHot raws)

/-- ALERT_N driven low or released, whatever ALERT_MASK holds. -/
def Chip.driveAlert (c : Chip) (low : Bool) : Chip :=
  if c.host.alertLow = low then c else { c with host := { c.host with alertLow := low } }.emit (.alertN low)

/-- The knell starts at the end of a sample: once, what R361 names is latched; the drive stops, CLAP_OWN is released, ALERT_N goes low. -/
def Chip.knellStart (c : Chip) : Chip :=
  match c.aon.knell, c.knellSensor with
  | none, some n =>
    let k : KnellRec :=
      { time := c.time64, bar := c.barCount, sensor := n, subst := !c.sensorValid n, value := c.sensorUse n,
        levels := c.get F.THERMAL_THROTTLE_DIG + 4 * c.get F.THERMAL_THROTTLE_D0 + 16 * c.get F.THERMAL_THROTTLE_D1 }
    let c := { c with aon := { c.aon with knell := some k, flashBusy := c.flashWorks, hot125 := false } }
    ((c.driveHalt).setOwn false).driveAlert true
  | _, _ => c

/-- t2: transmitters off, clocks stopped, the cores halted (R361). -/
def Chip.knellStop (c : Chip) : Chip :=
  if c.aon.knell.isNone || c.aon.stopped then c
  else
    let c0 := c
    let was := c.rst.extest
    let c := { c with rst := { c.rst with extest := false, bsr := [] } }
    let c := if was then (c.clapPin false).emit (.alertN true) else c
    let c := (List.range c.numPorts).foldl (fun c p => c.emit (.portTx p false)) c
    (({ c with aon := { c.aon with stopped := true } }).emit .outputsSafe).pinsSince c0

/-- The outcome at t3 (R361, R363): nothing was in progress, or it has completed before any sample reached 125 °C, or it is aborted. -/
def Chip.knellOutcome (c : Chip) (completed : Bool) : Nat :=
  if !c.aon.flashBusy then 0 else if c.aon.hot125 then 3 else if completed then 1 else 2

/-! ### Device reset and power-on reset (R386, R387, R390) -/

/-- Every register and block at reset; the build, the flash, the TAP, the count of open values and what has been sent stay. -/
def Chip.cleared (c : Chip) (aon : AonSt) : Chip :=
  let n := Chip.init c.build c.fitted
  { n with
    out := c.out, free := c.free, aon := aon, belfry := { BelfrySt.init with flash := c.belfry.flash }
    rst := { ResetSt.init with extest := c.rst.extest, bsr := c.rst.bsr, lost := c.rst.lost } }

/-- The outputs go safe: sinks off, gates released, CLAP_OWN released, transmitters off; an ALERT_N that was low is released (R387, R422). A knell
that has started holds HALT and ALERT_N through the reset (R274, R351). -/
def Chip.outputsOff (c : Chip) (wasLow : Bool) : Chip :=
  let c := (c.emit .outputsSafe).clapPin false
  let c := (List.range c.numPorts).foldl (fun c p => c.emit (.portTx p false)) c
  if c.aon.knell.isSome then
    let c := c.driveHalt
    { c with host := { c.host with alertLow := true } }
  else if wasLow then c.emit (.alertN false) else c

/-- RESET.CAUSE, and the cause of the last Belfry restart that the always-on domain holds (R351, R390). -/
def Chip.showCause (c : Chip) : Chip :=
  (((c.set F.RESET_CAUSE_COUNT c.aon.resets).set F.RESET_CAUSE_RAIL c.aon.rail).set F.RESET_CAUSE_CAUSE c.aon.cause).set F.BELFRY_STATUS_CAUSE c.aon.restart

/-- A device reset: the always-on domain stays, its count advances; a flash operation under way is aborted; with a supply or RESET_N as the
cause it lasts until power-good is true again (R372, R386, R390). -/
def Chip.deviceReset (c : Chip) (cause rail : Nat) : Chip :=
  let aon := { c.aon with resets := (c.aon.resets + 1) % 65536, cause := cause % 4, rail := if cause % 4 = 1 then rail % 16 else 0 }
  let d := ((c.interruptFlash.cleared aon).outputsOff c.host.alertLow).showCause
  { d with rst := { d.rst with held := decide (cause % 4 ≠ 3) } }.pinsSince c

/-- A power-on reset clears the always-on domain and the TAP too (R351, R390); a supply out of its limits stays so. -/
def Chip.powerOn (c : Chip) : Chip :=
  let d := (({ c.interruptFlash with rst := { ResetSt.init with lost := c.rst.lost } }.cleared AonSt.init).outputsOff c.host.alertLow).showCause
  { d with rst := { d.rst with held := true } }.pinsSince c

/-- A supply that the build uses leaves its limits, or RESET_N falls: a device reset, but for a part already in one or with the knell latched;
of those the supply is noted for its outputs (R386, R405, R406, R409). -/
def Chip.powerLost (c : Chip) (cause rail : Nat) : Chip :=
  if !(cause = 2 || (cause = 1 && railUsed c.build c.fitted rail)) then c
  else
    let d := if cause = 1 && !c.rst.lost.contains rail then { c with rst := { c.rst with lost := c.rst.lost ++ [rail] } } else c
    if c.latched || c.rst.held then d.pinsSince c
    else d.deviceReset cause rail

def Chip.setStep (c : Chip) (n : Nat) : Chip := c.set F.RESET_BRINGUP_DONE (Nat.lor (c.get F.RESET_BRINGUP_DONE) (2 ^ (n - 1)))

/-- Power-good becomes true: every supply is within its limits, the reset ends and bring-up begins (R386, R391). With the knell latched only the
supplies of the outputs return (R362, R409). -/
def Chip.powerGood (c : Chip) : Chip :=
  { c with rst := { c.rst with lost := [], held := c.rst.held && c.latched } }.pinsSince c

/-- The straps are sampled once after a reset (R388). -/
def Chip.strapSample (c : Chip) (pos slot boot : Nat) : Chip :=
  if c.get F.RESET_BRINGUP_DONE % 2 = 1 then c
  else ((c.set F.DEVICE_STRAPS_STACK_POS pos).set F.DEVICE_STRAPS_PAIR_SLOT slot).set F.DEVICE_STRAPS_BOOT_SEL boot

/-! ### Bring-up (R391, R393, R394, R397) -/

/-- Milliseconds since power-good, by the clock of TIME (assumption log 31), saturating. -/
def Chip.sinceGood (c : Chip) : Nat := min 65535 (c.time.ticks28 / (2 ^ 28 * 1000000))

/-- Level 1 from the instant the drive or scan-out first runs (Reduced service). -/
def Chip.reducedService (c : Chip) : Chip :=
  if c.get F.RESET_SERVICE_LEVEL = 0 then (c.set F.RESET_SERVICE_LEVEL 1).set F.RESET_TIMES_REDUCED_MS c.sinceGood else c

/-- Level 2 once every step has ended, and at a tile PWM8 is 0 (R397). -/
def Chip.fullService (c : Chip) : Chip :=
  if c.get F.RESET_BRINGUP_DONE = 4095 && decide (c.get F.RESET_SERVICE_LEVEL ≠ 2) && !(c.build = .T && c.on F.RESET_SERVICE_PWM8) && !c.rst.xtalHeld then
    ((c.set F.RESET_SERVICE_LEVEL 2).set F.RESET_TIMES_FULL_MS c.sinceGood).set F.CLOCKS_DOMAINS_ON
      (match c.build with
       | .S => 92
       | .T => if (List.range 4).any (fun p => c.on (F.DRAM_STATUS_POPULATED.pg p)) then 38 else 36)
  else c

/-- The XTAL PLL has locked, or has not: while it has not after step 2, every output is held as in device reset and ALERT_N is low (R391). -/
def Chip.xtal (c : Chip) (locked : Bool) : Chip :=
  let c0 := c
  if locked then
    let c := (c.set F.CLOCKS_PLL_LOCK (Nat.lor (c.get F.CLOCKS_PLL_LOCK) 1)).set F.CLOCKS_REF_XTAL_OK 1
    let c := { c with rst := { c.rst with xtalHeld := false } }
    let c := if c.alertWanted || c.aon.knell.isSome then c else c.driveAlert false
    c.pinsSince c0
  else
    let c := c.set F.CLOCKS_PLL_FAIL (Nat.lor (c.get F.CLOCKS_PLL_FAIL) 1)
    (({ c with rst := { c.rst with xtalHeld := true } }.emit .outputsSafe).driveAlert true).pinsSince c0

/-- The PLLs of step 3 that locked, by mask; without PLL 2 the fabric does not run (R391). -/
def Chip.plls (c : Chip) (mask : Nat) : Chip :=
  let m := mask % 16 / 2 * 2
  let c := c.set F.CLOCKS_PLL_LOCK (Nat.lor (c.get F.CLOCKS_PLL_LOCK) m)
  let c := c.set F.CLOCKS_PLL_FAIL (Nat.lor (c.get F.CLOCKS_PLL_FAIL) (14 - m))
  let c := (c.set F.CLOCKS_REF_REFA_OK (mask / 2 % 2)).set F.CLOCKS_REF_REFB_OK (mask / 4 % 2)
  { c with rst := { c.rst with fabricHeld := decide (c.get F.CLOCKS_PLL_LOCK / 4 % 2 = 0) } }

/-- A bring-up step ends, by completion or by timeout (R391). `mask` is the lock mask of the PLLs, used by step 3; while the fabric is held, a
further end of step 3 is a retry of the ROM (assumption log 166). Without the XTAL PLL bring-up waits before step 3. -/
def Chip.stepEnd (c : Chip) (n : Nat) (timedOut : Bool) (mask : Nat) : Chip :=
  if n = 0 || decide (12 < n) || (c.rst.xtalHeld && decide (3 ≤ n)) then c
  else if c.get F.RESET_BRINGUP_DONE / 2 ^ (n - 1) % 2 = 1 then
    (if n = 3 && c.rst.fabricHeld then c.plls (if timedOut then mask else 14) else c)
  else
    let c := c.setStep n
    let c := if timedOut then c.set F.RESET_BRINGUP_FAIL (Nat.lor (c.get F.RESET_BRINGUP_FAIL) (2 ^ (n - 1))) else c
    let c := if n = 2 then c.xtal (!timedOut) else if n = 3 then c.plls (if timedOut then mask else 14) else c
    c.fullService

/-- A retry of the XTAL PLL (R391, R397). -/
def Chip.xtalRetry (c : Chip) (locked : Bool) : Chip := if c.rst.xtalHeld then (c.xtal locked).fullService else c

/-- The Belfry clears PWM8 once step 11 has ended and its calibration does not wait any more (R394, R397). -/
def Chip.pwm8Off (c : Chip) : Chip :=
  if c.build = .T && c.belfryUp && c.get F.RESET_BRINGUP_DONE / 1024 % 2 = 1 && !c.belfry.calibDue then (c.set F.RESET_SERVICE_PWM8 0).fullService
  else c

/-! ### Boundary scan (R390, R422, R423) -/

/-- The balls that cells of the boundary register drive, in the order of the cells of an EXTEST: DESIGN CHOICE (assumption log 190), since the
order is of the part's description file, which the specification does not give (R403, R423). -/
def bsrBalls (b : Build) : List Ball :=
  .uartTx :: (List.range 12).map .xspi ++
    (match b with
     | .S => (List.range 600).map .dram ++ (List.range 73).map .lane
     | .T => (List.range 76).map .dram ++ (List.range 256).map (fun i => .rowGate (i / 64) (i % 64)) ++ (List.range 16).map .lane)

/-- EXTEST: the balls of the boundary register take its cells, CLAP_OWN and ALERT_N among them, and the sinks are off. The cells of the SINK_
balls capture whether each exceeds the lamp-short threshold: open values of the part under test (R423). -/
def Chip.extest (c : Chip) (clapOwn alertLow : Bool) (cells : List Bool) : Chip :=
  let d := { c with rst := { c.rst with extest := true, bsr := cells } }
  let pins := (match c.build with | .S => [Output.clapOwn clapOwn] | .T => []) ++ [.alertN alertLow, .scanOut ((bsrBalls c.build).zip cells)]
  match c.build with
  | .S => { d with out := d.out ++ pins }.pinsSince c
  | .T => { d with free := d.free + 1, out := d.out ++ pins ++ [Output.scanIn (Config.free d.free % 2 ^ 2304)] }.pinsSince c

/-- A reset of the TAP ends EXTEST: the balls are the block's again (R390). -/
def Chip.tapReset (c : Chip) : Chip :=
  if c.rst.extest then
    let d := { c with rst := { c.rst with extest := false, bsr := [] } }
    ((d.clapPin c.redun.own).emit (.alertN c.host.alertLow)).pinsSince c
  else c

end Sys2Proof.Machine
end

