-- ==== Sys2Proof/Machine/MapOps.lean ====
section
/-! DEFINITION. Mapping: release, binding, dispatch, chase waits, engines and tasks, the pixels of a task, band and canvas completion, tables and cues (spec/06_mapping_engines.md). -/

namespace Sys2Proof.Machine

def mapPage (e : Nat) : Nat := 0x050 + e
def mapctl : Nat := 0x060

/-! ### Sizes (R138) -/

/-- Bands of 32 lines (R133). -/
def Chip.numBands (c : Chip) : Nat := ceilDiv c.canvasH 32

/-- Chase mode (R135). -/
def Chip.chaseMode (c : Chip) : Bool := c.on F.MAPCTL_CTRL_CHASE_EN

/-- Lines of a band. -/
def Chip.bandLines (c : Chip) (j : Nat) : Nat := min 32 (c.canvasH - 32 * j)

/-! ### Beats and feed maps (R135, R137) -/

/-- The beat after a beat. -/
def Chip.beatAfter (c : Chip) (b : Nat × Nat) : Nat × Nat :=
  if b.2 + 1 < modeBeats c.mode then (b.1, b.2 + 1) else ((b.1 + 1) % 2 ^ 32, 0)

/-- The generator's bar and beat. -/
def Chip.beatNow (c : Chip) : Nat × Nat := (c.barCount, c.get F.BAR_STATUS_BEAT)

/-- The feed map in use: FEED_MAP, or at a follower the master's. -/
def Chip.feedMapInUse (c : Chip) : Nat := if c.follower then c.bar.followFeedMap else c.use F.MAPCTL_FEED_MAP_MAP

/-- Scan-out reads host frames. -/
def Chip.hostFrames (c : Chip) : Bool := c.use F.SCAN_FRAME_FMT_SOURCE = 1

/-- Scan-out reads the SRAM canvas (R395). -/
def Chip.sramCanvas (c : Chip) : Bool := c.build = .S && c.use F.RESET_SERVICE_SRAM_CANVAS = 1

/-- The feed map of a bar: that of the canvas for its beat 0, else the one in use (R137). -/
def Chip.feedMapOf (c : Chip) (bar : Nat) : Nat :=
  if c.hostFrames then c.feedMapInUse else (smFind c.map.fmap bar).getD c.feedMapInUse

/-- The feed of a beat of a bar. -/
def Chip.feedOf (c : Chip) (bar beat : Nat) : Nat := c.feedMapOf bar / 4 ^ beat % 4

/-! ### Canvases -/

def Chip.setMap (c : Chip) (m : MapSt) : Chip := { c with map := m }

def Chip.canvas? (c : Chip) (seq : Nat) : Option CanvasSt := c.map.canvases.find? (fun x => x.seq = seq)

/-- One canvas replaced. -/
def Chip.setCanvas (c : Chip) (x : CanvasSt) : Chip :=
  c.setMap { c.map with canvases := c.map.canvases.map (fun y => if y.seq = x.seq then x else y) }

/-- One band replaced. -/
def Chip.setBand (c : Chip) (b : BandSt) : Chip :=
  c.setMap { c.map with bands := c.map.bands.map (fun y => if y.seq = b.seq ∧ y.band = b.band then b else y) }

/-! ### Frames of a source: flows 0 to 15, and 16 the DP store -/

/-- Frames completed, modulo the width of the source's counter: a frame's serial number is the count before its completion. -/
def Chip.frameCount (c : Chip) (s : Nat) : Nat := if s = 16 then c.get F.DPIN_STATUS_FRAME_COUNT else c.get (F.FLOW_FRAME_COUNT_COUNT.pg s)

def frameMod (s : Nat) : Nat := if s = 16 then 2 ^ 16 else 2 ^ 32

/-- The last complete frame: slot and serial number. -/
def Chip.lastFrame (c : Chip) (s : Nat) : Nat × Nat :=
  (if s = 16 then c.get F.DPIN_STATUS_LAST_FRAME else c.get (F.FLOW_WATERMARK_LAST_FRAME.pg s), (c.frameCount s + frameMod s - 1) % frameMod s)

/-- The newest frame: the one being written where a packet or line of it has come, else the last complete one (R152). -/
def Chip.newestFrame (c : Chip) (s : Nat) : Nat × Nat :=
  if s = 16 then (if c.on F.DPIN_STATUS_LOCK && decide (0 < c.dp.line) then (c.dpSlot, c.frameCount s) else c.lastFrame s)
  else if (c.flow s).writing && c.state (flowPage s) = fsRun then (c.get (F.FLOW_WATERMARK_WRITE_SLOT.pg s), c.frameCount s)
  else c.lastFrame s

/-- The source has a frame: complete, or being written. -/
def Chip.hasFrame (c : Chip) (s : Nat) : Bool :=
  if s = 16 then c.dp.usable || decide (0 < c.dp.line) else c.on (F.FLOW_WATERMARK_LAST_VALID.pg s) || (c.flow s).writing

/-- The line watermark of a source (R65, R123). -/
def Chip.srcLines (c : Chip) (s : Nat) : Nat := if s = 16 then c.dp.line else c.watermark s

/-- The height of its frames. -/
def Chip.srcHeight (c : Chip) (s : Nat) : Nat := if s = 16 then c.get F.DPIN_SIZE_HEIGHT else c.flowH s

/-- A bound frame is complete. -/
def Chip.frameDone (c : Chip) (b : LayerBind) : Bool := decide (b.src > 16) || decide (b.serial ≠ c.frameCount b.src)

/-! ### Layer states (R153) -/

def lyAbsent : Nat := 0
def lyLive : Nat := 1
def lyHolding : Nat := 2
def lyFallback : Nat := 3
def lyTransparent : Nat := 4

/-- SOURCE as it acts: 19 to 30 act as 31 (R151). -/
def srcCode (s : Nat) : Nat := if s ≤ 18 then s else 31

/-- The state of a layer that selects a source (R130, R131, R153). -/
def Chip.sourceState (c : Chip) (s : Nat) : Nat :=
  if s = 31 then lyAbsent
  else if s ≥ 17 then lyLive
  else if s = 16 then (if c.on F.DPIN_STATUS_LOCK && c.dp.usable then lyLive else lyTransparent)
  else
    let st := c.state (flowPage s)
    let have1 := c.on (F.FLOW_WATERMARK_LAST_VALID.pg s)
    if st = fsRun then lyLive
    else if (st = fsStop || st = fsSync) && have1 then (if (c.flow s).holdOver then lyFallback else lyHolding)
    else lyFallback

/-- The SOURCE in use of a layer. -/
def Chip.layerSrc (c : Chip) (l : Nat) : Nat := srcCode (c.use (F.LAYER_CTRL_SOURCE.pg l))

/-- Bars of HOLDING left (LAYER.STATUS). -/
def Chip.holdLeft (c : Chip) (l : Nat) : Nat :=
  let s := c.layerSrc l
  if c.sourceState s ≠ lyHolding then 0
  else
    let hold := c.get (F.FLOW_HOLD_BARS.pg s)
    if hold = 0xFFFF then 0xFFFF else hold - (c.barCount + 2 ^ 32 - (c.flow s).stopBar) % 2 ^ 32

/-- LAYER.STATUS and the layer events follow the layer states. -/
def Chip.refreshLayers (c : Chip) : Chip :=
  match c.build with
  | .T => c
  | .S => (List.range 8).foldl (fun c l =>
      let st := c.sourceState (c.layerSrc l)
      let c := (c.set (F.LAYER_STATUS_STATE.pg l) st).set (F.LAYER_STATUS_HOLD_LEFT.pg l) (c.holdLeft l)
      c.cond (E.LAYER_FALLBACK l) (decide (st = lyFallback) || decide (st = lyTransparent))) c

/-! ### Registers of a canvas -/

/-- Word `k` of the registers of layer `l` that a canvas was begun with: CTRL, MESH_BASE, FALLBACK, KEY, STILL_BASE, STILL_SIZE, STILL_FMT. -/
def CanvasSt.reg (x : CanvasSt) (l k : Nat) : Word := smGet 0 x.layers (16 * l + k)

def CanvasSt.src (x : CanvasSt) (l : Nat) : Nat := srcCode (bitsOf (x.reg l 0) 4 0)
def CanvasSt.feedOn (x : CanvasSt) (l : Nat) : Bool := (x.reg l 0).getLsbD (28 + x.feed)
def CanvasSt.chase (x : CanvasSt) (l : Nat) : Bool := (x.reg l 0).getLsbD 27
def CanvasSt.mesh (x : CanvasSt) (l : Nat) : Nat := (x.reg l 1).toNat * 256

/-- A layer that binds nothing. -/
def LayerBind.none : LayerBind := { src := 31, slot := 0, serial := 0 }

/-- A layer whose binding waits for a LAYER commit that its canvas takes as it begins. -/
def LayerBind.open_ : LayerBind := { src := 32, slot := 0, serial := 0 }

def CanvasSt.bind (x : CanvasSt) (l : Nat) : LayerBind := x.binds.getD l LayerBind.none
def BandSt.bind (b : BandSt) (l : Nat) : LayerBind := b.binds.getD l LayerBind.none

/-- The layer registers in use. -/
def Chip.layerWords (c : Chip) : SMap Word :=
  (List.range 8).flatMap (fun l => (List.range 7).map (fun k => (16 * l + k, c.rdUse (0x061040 + 4096 * l + 4 * k))))

/-! ### Poison (R159) -/

/-- Poisoned data is not used: it is counted with KIND 0 and raised (R159). -/
def Chip.mapPoison (c : Chip) (addr : Nat) : Chip :=
  (c.report mapctl [{ ue := true, kind := 0, unit := 0, syndrome := (c.dramPoison addr).getD 0x1FF, loc := addr / 16 }]).raise E.MAP_POISON

/-- Little-endian number of bytes read from DRAM by the engines; none where poisoned. -/
def Chip.mapRead (c : Chip) (addr n : Nat) : Option Nat × Chip :=
  let r := c.dramRead dmMapTab addr n
  if r.1.2 then (none, r.2.mapPoison addr) else (some (ofLe r.1.1), r.2)

/-! ### Release, binding and dispatch (R135, R136, R152) -/

/-- The frame a layer of a canvas binds, as it stood at the release, and whether it is the frame of the feed's canvas before it (R152). -/
def Chip.bindLayer (c : Chip) (x : CanvasSt) (l : Nat) : LayerBind × Bool :=
  let s := x.src l
  let chase := c.chaseMode && x.chase l
  let f := if chase then x.newest.getD s (0, 0) else x.lasts.getD s (0, 0)
  if s ≤ 16 then ({ src := s, slot := f.1, serial := f.2 }, chase && decide (x.prev.getD l none = some (s, f.2)))
  else ({ src := s, slot := 0, serial := 0 }, false)

/-- Layers of a canvas are bound, with LAYER.STATUS of the last canvas released and CHASE_REPEAT; a first binding notes the frame that the feed's
canvas before it had (R152). -/
def Chip.bindAll (c : Chip) (x : CanvasSt) (ls : List Nat) : CanvasSt × Chip :=
  ls.foldl (fun (a : CanvasSt × Chip) l =>
    let x := if a.1.bind l = .open_ then { a.1 with prev := a.1.prev.set l (smFind a.2.map.lastBound (8 * a.1.feed + l)) } else a.1
    let b := a.2.bindLayer x l
    let c := if (x.seq + 1) % 65536 = a.2.map.seq then
        (a.2.set (F.LAYER_STATUS_BOUND_SLOT.pg l) b.1.slot).set (F.LAYER_STATUS_REPEAT.pg l) (b2n b.2)
      else a.2
    let c := if b.2 then c.raise E.CHASE_REPEAT else c
    let c := if b.1.src ≤ 16 && c.hasFrame b.1.src then
        c.setMap { c.map with lastBound := smSet c.map.lastBound (8 * x.feed + l) (b.1.src, b.1.serial) } else c
    ({ x with binds := x.binds.set l b.1 }, c)) (x, c)

/-- A commit of a layer is pending, or a CUE that loads all of them (R154). -/
def Chip.layerPending (c : Chip) (l : Nat) : Bool := c.on (F.COMMIT.pg (0x061 + l)) || !c.map.cues.isEmpty

/-- Canvases released whose begin waits: their layers are bound, but for those that a pending commit is to change first (R152). -/
def Chip.bindWaiting (c : Chip) : Chip :=
  let words := c.layerWords
  (c.map.canvases.filter (fun x => !x.begun)).foldl (fun c x =>
    let ls := (List.range 8).filter (fun l => decide (x.bind l = .open_) && !c.layerPending l)
    let layers := words.foldl (fun m p => if ls.contains (p.1 / 16) then smSet m p.1 p.2 else m) x.layers
    let r := c.bindAll { x with layers := layers } ls
    r.2.setCanvas r.1) c

/-- The bar and beat of the canvas released next: the one after the next beat. Before the first bar of a lattice that is known only in chase mode,
whose first canvas is released ahead of its bar, and not to a follower (R107, R135). -/
def Chip.relLit (c : Chip) : Option (Nat × Nat) :=
  if !c.bar.beatLens.isEmpty then some (c.beatAfter (c.beatAfter c.beatNow))
  else if c.chaseMode && !c.follower then some (c.beatAfter ((c.barCount + 1) % 2 ^ 32, 0))
  else none

/-- The next canvas is released: its beat, feed, buffer, and the frames that its layers may bind, are fixed. `ap` takes a pending
MAPCTL commit; after a mode change the first canvas is that of the following bar (R94, R135, R137, R152, R183). -/
def Chip.releaseCanvas (ap : ApplyRef → Chip → Chip) (c : Chip) : Chip :=
  match c.relLit with
  | none => c
  | some lit =>
  if c.build = .T || !c.runs mapctl || !c.bar.running || c.bar.waiting || c.map.lastRel = some lit || (c.scan.newMode && decide (lit.2 ≠ 0)) then c
  else
    let lead := min (beatPeriod12 c.mode) (12000 * max 50 (c.get F.MAPCTL_CHASE_BIND_LEAD))
    let c := if c.chaseMode then c.advanceTo (c.bar.next12 - lead) else c
    let c := if lit.2 = 0 then ap .canvasRelease c else c
    let fm := if lit.2 = 0 then c.feedMapInUse else (smFind c.map.fmap lit.1).getD c.feedMapInUse
    let feed := fm / 4 ^ lit.2 % 4
    let buf := smGet 0 c.map.nextBuf feed
    let x : CanvasSt := {
      seq := c.map.seq, litBar := lit.1, litBeat := lit.2, feed := feed, buf := buf, feedMap := fm, sm12 := c.bar.next12,
      newest := (List.range 17).map c.newestFrame, lasts := (List.range 17).map c.lastFrame,
      prev := List.replicate 8 none,
      begun := false, tables := c.map.tables, bg := c.rdUse F.MAPCTL_BG_R.addr, layers := c.layerWords,
      binds := List.replicate 8 .open_, bands := 0, done := [], samples := 0, waitBuf := false, late := false, published := false, stale := false }
    let fmap := if lit.2 = 0 then smSet (c.map.fmap.drop (c.map.fmap.length - 3)) lit.1 fm else c.map.fmap
    c.setMap { c.map with
      seq := (c.map.seq + 1) % 65536, nextBuf := smSet c.map.nextBuf feed (1 - buf), fmap := fmap, lastRel := some lit,
      canvases := c.map.canvases ++ [x] }

/-- The band entries of a band for each layer: ANY, MAX_LINE, poisoned (R139, R140, R159). -/
def Chip.bandEntries (c : Chip) (x : CanvasSt) (j : Nat) : List (Bool × Nat × Bool) × Chip :=
  (List.range 8).foldl (fun (a : List (Bool × Nat × Bool) × Chip) l =>
    if x.src l = 31 || !x.feedOn l then (a.1 ++ [(false, 0, false)], a.2)
    else
      let r := a.2.mapRead (x.mesh l + 8 * j) 8
      match r.1 with
      | none => (a.1 ++ [(true, 0, true)], r.2)
      | some v => (a.1 ++ [(decide (v / 65536 % 2 = 1), v % 65536, false)], r.2)) ([], c)

/-- A chase layer present in a band is ready when its frame is complete or its watermark has come far enough (R156, R159). -/
def Chip.layerReady (c : Chip) (x : CanvasSt) (b : BandSt) (l : Nat) : Bool :=
  let bd := b.bind l
  !(c.chaseMode && x.chase l && b.any.getD l false) || c.frameDone bd ||
    (!b.poison.getD l false && decide (min (b.maxLine.getD l 0 + 4) (c.srcHeight bd.src) ≤ c.srcLines bd.src))

/-- A canvas's buffer is still held by an earlier canvas of its feed that is published or to be scanned (R136). -/
def Chip.bufferHeld (c : Chip) (x : CanvasSt) : Bool :=
  c.map.canvases.any (fun y => y.seq ≠ x.seq && y.begun && !y.stale && y.feed = x.feed && y.buf = x.buf &&
    decide ((x.seq + 65536 - y.seq) % 65536 < 32768))

/-- MAPCTL.STATUS shows the canvas being dispatched and its waits. -/
def Chip.showDispatch (c : Chip) (x : CanvasSt) : Chip :=
  let c := (c.set F.MAPCTL_STATUS_CANVAS_SEQ x.seq).set F.MAPCTL_STATUS_BAND (x.bands - 1)
  (c.set F.MAPCTL_STATUS_FEED x.feed).set F.MAPCTL_STATUS_BUF x.buf

/-- WAIT_BUF and WAIT_CHASE. -/
def Chip.showWaits (c : Chip) : Chip :=
  (c.set F.MAPCTL_STATUS_WAIT_BUF (b2n (c.map.canvases.any (fun x => x.begun && x.waitBuf)))).set F.MAPCTL_STATUS_WAIT_CHASE
    (b2n (c.map.bands.any (fun b => b.waitChase)))

/-- The reads of mapping, scan-out and preview stall: a port of the interleave is in a rate step; they touch every port, and data comes back in the
order asked for (R335, R343; assumption log 54). -/
def Chip.stepStalls (c : Chip) : Bool := c.dramPorts.any (fun p => decide (c.state (dramPage p) = dsStep))

/-- A band is dispatched: its layer states and frames are fixed and its chase wait begins (R135, R153, R156). -/
def Chip.dispatchBand (c : Chip) (seq : Nat) : Chip :=
  match c.canvas? seq with
  | none => c
  | some x =>
    if c.stepStalls then c
    else
    let j := x.bands
    let r := c.bandEntries x j
    let b : BandSt := {
      seq := seq, band := j, waitChase := false, cols := (List.range (ceilDiv c.canvasW 256)).map (fun k => 256 * k), held := 0,
      any := r.1.map (·.1), maxLine := r.1.map (·.2.1), poison := r.1.map (·.2.2),
      states := (List.range 8).map (fun l => r.2.sourceState (x.src l)), binds := x.binds }
    let b := { b with waitChase := !(List.range 8).all (fun l => r.2.layerReady x b l) }
    let x := { x with bands := j + 1 }
    let c := (r.2.setCanvas x)
    ((c.setMap { c.map with bands := c.map.bands ++ [b] }).showDispatch x).showWaits

/-- Sequence number `a` is `b` or comes before it. -/
def seqLe (a b : Nat) : Bool := (b + 65536 - a) % 65536 < 32768

/-- The first canvas not begun begins, once every earlier one is dispatched and no CUE that it is to apply is loading: LAYER commits are taken,
but those of a CUE not before its first canvas; layers not bound yet, or whose CTRL they change, are bound as the release found the sources; and band 0
is dispatched (R135, R136, R152, R154, R41). -/
def Chip.beginCanvas (ap : ApplyRef → Chip → Chip) (c : Chip) : Chip :=
  match c.map.canvases.find? (fun x => !x.begun) with
  | none => c
  | some x =>
    if c.map.bands.length ≥ 2 || c.map.cues.any (fun q => seqLe q.2 x.seq) || c.map.canvases.any (fun y => y.begun && decide (y.bands < c.numBands)) then c
    else
      let early := c.map.cueFrom.any (fun f => !seqLe f x.seq)
      let c := if early then c else (ap .canvasBegin (c.setMap { c.map with cueFrom := none })).refreshLayers
      let x' := { x with begun := true, layers := c.layerWords, waitBuf := c.bufferHeld x }
      let r := c.bindAll x' ((List.range 8).filter (fun l => decide (x'.reg l 0 ≠ x.reg l 0) || decide (x.bind l = .open_)))
      ((r.2.setCanvas r.1).dispatchBand x.seq).bindWaiting

/-- The next band of the canvas being dispatched, or the next canvas (at most two bands in flight, R133). -/
def Chip.nextBand (ap : ApplyRef → Chip → Chip) (c : Chip) : Chip :=
  if c.map.bands.length ≥ 2 then c
  else match c.map.canvases.find? (fun y => y.begun && decide (y.bands < c.numBands)) with
    | some x => c.dispatchBand x.seq
    | none => c.beginCanvas ap

/-! ### Engines and tasks (R132, R133) -/

/-- A band's tasks are offered: no chase or buffer wait, and every task of the bands before it taken. -/
def Chip.bandOffered (c : Chip) (b : BandSt) : Bool :=
  !b.waitChase && !((c.canvas? b.seq).any (fun x => x.waitBuf)) &&
    (c.map.bands.takeWhile (fun y => ¬(y.seq = b.seq ∧ y.band = b.band))).all (fun y => y.cols.isEmpty)

/-- The preview frame being read is mixed when mapping begins to write its buffer (R186). -/
def Chip.noteMixed (c : Chip) (x : CanvasSt) : Chip :=
  let base := (c.rd (F.MAPCTL_CANVAS_BUF_BASE.addr + 4 * (2 * x.feed + x.buf))).toNat
  match c.preview.canvas with
  | some r => if r.seq.isSome && r.seq ≠ some x.seq && r.baseA = base then { c with preview := { c.preview with mixed := true } } else c
  | none => c

/-- One free engine takes the oldest task not yet taken. -/
def Chip.takeTask (c : Chip) (e : Nat) : Chip :=
  if c.build = .T || !c.runs (mapPage e) || (smFind c.map.engines e).isSome then c
  else match c.map.bands.find? (fun b => c.bandOffered b && !b.cols.isEmpty) with
    | none => c
    | some b =>
      match b.cols with
      | [] => c
      | col :: rest =>
        let c := match c.canvas? b.seq with | some x => c.noteMixed x | none => c
        let c := c.setBand { b with cols := rest, held := b.held + 1 }
        (c.setMap { c.map with engines := smSet c.map.engines e { seq := b.seq, band := b.band, col := col } }).set (F.MAP_STATUS_ACTIVE.pg e) 1

/-- The free engines take tasks, lowest engine first. -/
def Chip.assignTasks (c : Chip) : Chip := (List.range 16).foldl (fun c e => c.takeTask e) c

/-- A table word as an engine reads it: an uncorrectable one reads as 0 (R160). -/
def Chip.engineTab (c : Chip) (x : CanvasSt) (e i : Nat) : Nat :=
  if smGet false c.map.bad (e * 2 ^ 17 + i) then 0 else smGet 0 x.tables i

/-! ### Sources (R121, R145, R151) -/

/-- A source as a layer samples it: kind 0 YCbCr 4:2:2, 1 RGB 4:4:4, 2 P32A, 3 P32H. -/
structure Src where
  kind : Nat
  d12 : Bool
  base : Nat
  stride : Nat
  w : Nat
  h : Nat
  bt2020 : Bool
  full : Bool
deriving DecidableEq, Repr

/-- The source of a layer of a canvas with the frame bound for a band; a solid colour has none. -/
def Chip.srcOf (c : Chip) (x : CanvasSt) (l : Nat) (b : LayerBind) : Option Src :=
  if b.src < 16 then
    let n := b.src
    some {
      kind := if c.get (F.FLOW_FORMAT_SAMPLING.pg n) = 1 then 1 else 0, d12 := c.on (F.FLOW_FORMAT_DEPTH12.pg n),
      base := c.get (F.FLOW_STORE_BASE_BASE.pg n) * 256 + c.flowLine n b.slot 0, stride := c.flowStride n, w := c.flowW n, h := c.flowH n,
      bt2020 := c.on (F.FLOW_FORMAT_BT2020.pg n), full := c.on (F.FLOW_FORMAT_FULL_RANGE.pg n) }
  else if b.src = 16 then
    let h := c.get F.DPIN_SIZE_HEIGHT
    let stride := c.get F.DPIN_STRIDE_STRIDE * 64
    some {
      kind := if c.on F.DPIN_STATUS_BPC10 then 3 else 2, d12 := false, base := c.get F.DPIN_STORE_BASE_BASE * 256 + b.slot * h * stride,
      stride := stride, w := c.get F.DPIN_SIZE_WIDTH, h := h, bt2020 := false, full := true }
  else if b.src = 17 then
    some {
      kind := if (x.reg l 6).getLsbD 31 then 3 else 2, d12 := false, base := (x.reg l 4).toNat * 256, stride := bitsOf (x.reg l 6) 15 0 * 64,
      w := bitsOf (x.reg l 5) 15 0, h := bitsOf (x.reg l 5) 31 16, bt2020 := false, full := true }
  else none

/-- Bytes read from DRAM, or the index of the first poisoned word among them. -/
def Chip.readOr (c : Chip) (addr n : Nat) : Except Nat (List Byte) × Chip :=
  let n1 := min n (16 - addr % 16)
  let r := c.dramRead dmMap addr n1
  let q := r.2.dramRead dmMap (addr + n1) (n - n1)
  (if r.1.2 then .error (addr / 16) else if q.1.2 then .error ((addr + n1) / 16) else .ok (r.1.1 ++ q.1.1), q.2)

/-- One more result after a list of results; the first poison stays. -/
def Except.push {α : Type} (l : Except Nat (List α)) (v : Except Nat α) : Except Nat (List α) :=
  match l, v with
  | .ok l, .ok v => .ok (l ++ [v])
  | .error e, _ => .error e
  | _, .error e => .error e

/-- Components of a pgroup at an address, each `bits` wide and packed from the most significant bit of the first byte on: only the bytes that
hold them are read (R121, R159). -/
def Chip.comps (c : Chip) (addr bits : Nat) (is : List Nat) : Except Nat (List Nat) × Chip :=
  is.foldl (fun (a : Except Nat (List Nat) × Chip) i =>
    let first := bits * i / 8
    let last := (bits * i + bits - 1) / 8
    let r := a.2.readOr (addr + first) (last + 1 - first)
    (Except.push a.1 (r.1.map (fun b => ofBe b / 2 ^ (8 * (last + 1) - bits * (i + 1)) % 2 ^ bits)), r.2)) (.ok [], c)

/-- The component codes at a source position: luma, or both chroma at a chroma column, or R'G'B', or R'G'B'A. -/
def Chip.tap (c : Chip) (s : Src) (chroma : Bool) (col row : Nat) : Except Nat (List Nat) × Chip :=
  let line := s.base + row * s.stride
  let bits := if s.d12 then 12 else 10
  let up := fun (r : Except Nat (List Nat) × Chip) => (r.1.map (fun l => l.map (fun v => if s.d12 then v else code10 v)), r.2)
  match s.kind with
  | 0 =>
    let n := if s.d12 then 6 else 5
    up (if chroma then c.comps (line + n * col) bits [0, 2] else c.comps (line + n * (col / 2)) bits [1 + 2 * (col % 2)])
  | 1 =>
    let n := if s.d12 then 9 else 15
    let k := if s.d12 then 2 else 4
    up (c.comps (line + col / k * n) bits [3 * (col % k), 3 * (col % k) + 1, 3 * (col % k) + 2])
  | 2 =>
    let r := c.readOr (line + 4 * col) 4
    (r.1.map (fun b => let v := ofLe b; [code8 (v / 65536 % 256), code8 (v / 256 % 256), code8 (v % 256), code8 (v / 2 ^ 24)]), r.2)
  | _ =>
    let r := c.readOr (line + 4 * col) 4
    (r.1.map (fun b => let v := ofLe b; [codeP32H (v / 2 ^ 20 % 1024), codeP32H (v / 2 ^ 10 % 1024), codeP32H (v % 1024)]), r.2)

/-- A column of six taps. -/
def Chip.tapColumn (c : Chip) (s : Src) (chroma : Bool) (col : Nat) (rows : List Nat) : Except Nat (List (List Nat)) × Chip :=
  rows.foldl (fun (a : Except Nat (List (List Nat)) × Chip) row =>
    let r := a.2.tap s chroma col row
    (Except.push a.1 r.1, r.2)) (.ok [], c)

/-- The six columns of six taps around a position. -/
def Chip.tapBlock (c : Chip) (s : Src) (chroma : Bool) (cols rows : List Nat) : Except Nat (List (List (List Nat))) × Chip :=
  cols.foldl (fun (a : Except Nat (List (List (List Nat))) × Chip) col =>
    let r := a.2.tapColumn s chroma col rows
    (Except.push a.1 r.1, r.2)) (.ok [], c)

/-- The filtered components of a block of taps (R144). -/
def filterAll (tab : Nat → Nat) (bank px py n : Nat) (blk : List (List (List Nat))) : List Nat :=
  let cv := (List.range 6).map (fun r => signed 16 (tab (tabFilter bank 1 py r)))
  let ch := (List.range 6).map (fun r => signed 16 (tab (tabFilter bank 0 px r)))
  (List.range n).map (fun i => filter6 cv ch (blk.map (fun col => col.map (fun v => v.getD i 0))))

/-- The filtered source at a position: R'G'B' codes, luma code, and alpha code where the source has alpha (R144 to R146, R148). -/
def Chip.sampleSrc (c : Chip) (tab : Nat → Nat) (bank : Nat) (s : Src) (sx sy : Int) : Except Nat (List Nat × Nat × Option Nat) × Chip :=
  let x := indexPhase sx
  let y := indexPhase sy
  let rows := taps y.1 s.h
  match s.kind with
  | 0 =>
    let xc := indexPhase (sx / 2)
    let r := c.tapBlock s false (taps x.1 s.w) rows
    let q := r.2.tapBlock s true (taps xc.1 (s.w / 2)) rows
    match r.1, q.1 with
    | .ok a, .ok b =>
      let yv := (filterAll tab bank x.2 y.2 1 a).getD 0 0
      let cc := filterAll tab bank xc.2 y.2 2 b
      (.ok (yccToRgb s.bt2020 s.full yv (cc.getD 0 0) (cc.getD 1 0), yv, none), q.2)
    | .error e, _ => (.error e, q.2)
    | _, .error e => (.error e, q.2)
  | k =>
    let r := c.tapBlock s false (taps x.1 s.w) rows
    match r.1 with
    | .error e => (.error e, r.2)
    | .ok a =>
      let v := filterAll tab bank x.2 y.2 (if k = 2 then 4 else 3) a
      let rgb := v.take 3
      let rgb := if k = 1 && !s.full then rgb.map narrowRgb else rgb
      (.ok (rgb, rgbLuma (rgb.getD 0 0) (rgb.getD 1 0) (rgb.getD 2 0), if k = 2 then v[3]? else none), r.2)

/-- What a layer gives a pixel: nothing, poison, or alpha and linear components. -/
inductive LayerPix where
  | nothing
  | poison (word : Nat)
  | val (a : Nat) (g : List Nat)
deriving DecidableEq, Repr

/-- The R'G'B' codes of the FALLBACK register of a layer (R153). -/
def CanvasSt.fallback (x : CanvasSt) (l : Nat) : List Nat :=
  let w := x.reg l 2
  [code10 (bitsOf w 29 20), code10 (bitsOf w 19 10), code10 (bitsOf w 9 0)]

/-- One layer-sample (R143 to R148, R151, R153). -/
def Chip.layerPix (c : Chip) (x : CanvasSt) (b : BandSt) (tab : Nat → Nat) (l : Nat) (sx sy : Int) : LayerPix × Chip :=
  let st := b.states.getD l 0
  let ctl := x.reg l 0
  let op := bitsOf ctl 15 8
  let set := bitsOf ctl 21 19
  let key := bitsOf ctl 26 25
  let kaOf := fun (luma : Nat) (alpha : Option Nat) =>
    match key with
    | 1 => (alpha.getD 4095) / 16
    | 2 => lumaKey luma (bitsOf (x.reg l 3) 27 16) (bitsOf (x.reg l 3) 15 0)
    | _ => 255
  let out := fun (rgb : List Nat) (ka : Nat) => LayerPix.val (layerAlpha op ka) (gamut tab set rgb)
  if st = lyAbsent || st = lyTransparent then (.nothing, c)
  else match c.srcOf x l (b.bind l) with
    | none =>
      let f := x.fallback l
      (out f (kaOf (rgbLuma (f.getD 0 0) (f.getD 1 0) (f.getD 2 0)) none), c)
    | some s =>
      if !(inSource sx s.w && inSource sy s.h) then (.nothing, c)
      else if st = lyFallback then (out (x.fallback l) 255, c)
      else
        let r := c.sampleSrc tab (bitsOf ctl 23 22) s sx sy
        match r.1 with
        | .error e => (.poison e, r.2)
        | .ok (rgb, luma, alpha) => (out rgb (kaOf luma alpha), r.2)

/-- The vertices of a block for a layer present in it, by its mesh (R140, R159): none where it is absent. -/
def Chip.blockMesh (c : Chip) (x : CanvasSt) (b : BandSt) (l i : Nat) : Option (List Vertex) × Chip :=
  if !b.any.getD l false then (none, c)
  else
    let j := b.band
    let rs := meshRow c.canvasW
    let at1 := fun (ii jj : Nat) => x.mesh l + 0x800 + jj * rs + ii * 8
    let r := [(i, j), (i + 1, j), (i, j + 1), (i + 1, j + 1)].foldl (fun (a : Option (List Vertex) × Chip) p =>
      let v := a.2.mapRead (at1 p.1 p.2) 8
      match a.1, v.1 with
      | some l, some n => (some (l ++ [Vertex.ofNat n]), v.2)
      | _, _ => (none, v.2)) (some [], c)
    match r.1 with
    | none => (none, r.2)
    | some vs => (if (vs.head?.map (fun v => decide (v.mask / 2 ^ l % 2 = 1))).getD false then some vs else none, r.2)

/-- The layers present in a block with their vertices, bottom first. -/
def Chip.blockLayers (c : Chip) (x : CanvasSt) (b : BandSt) (i : Nat) : List (Nat × List Vertex) × Chip :=
  (List.range 8).foldl (fun (a : List (Nat × List Vertex) × Chip) l =>
    let r := a.2.blockMesh x b l i
    match r.1 with
    | some vs => (a.1 ++ [(l, vs)], r.2)
    | none => (a.1, r.2)) ([], c)

/-- The code of a canvas pixel, or the poisoned source word it needs (R147 to R149, R159). -/
def Chip.pixel (c : Chip) (x : CanvasSt) (b : BandSt) (tab : Nat → Nat) (ls : List (Nat × List Vertex)) (u v : Nat) : Except Nat Nat × Chip :=
  let bg := x.bg
  let acc0 := [bitsOf bg 29 20 * 64, bitsOf bg 19 10 * 64, bitsOf bg 9 0 * 64]
  let r := ls.foldl (fun (a : Except Nat (List Nat) × Chip) p =>
    let vx := fun (k : Nat) => p.2.getD k { sx := 0, sy := 0, mask := 0 }
    let sx := meshLerp u v (vx 0).sx (vx 1).sx (vx 2).sx (vx 3).sx
    let sy := meshLerp u v (vx 0).sy (vx 1).sy (vx 2).sy (vx 3).sy
    let q := a.2.layerPix x b tab p.1 sx sy
    match q.1, a.1 with
    | .poison w, .ok _ => (.error w, q.2)
    | .val al g, .ok acc => (.ok ((acc.zip g).map (fun z => blend al z.2 z.1)), q.2)
    | _, o => (o, q.2)) (.ok acc0, c)
  (r.1.map (fun acc => encodeCode tab (acc.getD 0 0) * 2 ^ 20 + encodeCode tab (acc.getD 1 0) * 2 ^ 10 + encodeCode tab (acc.getD 2 0)), r.2)

/-- Byte address of a canvas pixel in its buffer. -/
def Chip.canvasAddr (c : Chip) (feed buf px py : Nat) : Nat :=
  c.canvasBase (2 * feed + buf) + py * (c.get F.MAPCTL_CANVAS_STRIDE_STRIDE * 64) + 4 * px

/-- The host error of R138 for a canvas in buffer `k`: more than 64 M pixels, a stride too small, or a buffer that overlaps another allocation. -/
def Chip.canvasUnsound (c : Chip) (k : Nat) : Bool :=
  decide (67108864 < c.canvasW * c.canvasH) || decide (c.get F.MAPCTL_CANVAS_STRIDE_STRIDE * 64 < c.canvasW * 4) ||
    !c.apart (32 + k) (c.canvasBase k) c.canvasBytes

/-- Pixels written side by side in one access; none keeps its place's content, and so does a poisoned word that is written in part (R159, R330). -/
def Chip.writeRun (c : Chip) (addr : Nat) (px : List (Option Nat)) : Chip :=
  let bytes := px.flatMap (fun p => match p with | some v => (leBytes 4 v).map some | none => List.replicate 4 none)
  let part := (wordLanes addr bytes).filter (fun x => x.2.any (fun b => b.isSome) && !x.2.all (fun b => b.isSome))
  let bad := part.filter (fun x => (c.dramReadWord dmMapCanvas (16 * x.1)).1.2)
  (bad.foldl (fun c x => c.mapPoison (16 * x.1)) c).dramWriteOpt dmMapCanvas addr bytes

/-- The pixels of a block of a task are computed and written line by line; the block's layer count is returned. A host error of R138 leaves what
is written open. -/
def Chip.doBlock (c : Chip) (x : CanvasSt) (b : BandSt) (e i : Nat) : Nat × Chip :=
  let r := c.blockLayers x b i
  let w := min 32 (c.canvasW - 32 * i)
  let h := c.bandLines b.band
  let tab := fun (k : Nat) => c.engineTab x e k
  let unsound := c.canvasUnsound (2 * x.feed + x.buf)
  let c := (List.range h).foldl (fun c v =>
    let run := (List.range w).foldl (fun (a : List (Option Nat) × Chip) u =>
      let q := a.2.pixel x b tab r.1 u v
      match q.1 with
      | .ok code => (let o := if unsound then q.2.openValue 32 else (code, q.2); (a.1 ++ [some o.1], o.2))
      | .error w => (a.1 ++ [none], q.2.mapPoison (16 * w))) ([], c)
    run.2.writeRun (run.2.canvasAddr x.feed x.buf (32 * i) (32 * b.band + v)) run.1) r.2
  (r.1.length * (w * h), c)

/-- Upsets of table words found by an engine while it worked: corrected, or recorded and read as 0 from then on (R160). DESIGN CHOICE (assumption
log 185): LOCATION is the index of the word as TAB_ADDR has it. -/
def Chip.tabUpset (c : Chip) (e : Nat) (u : Nat × Nat) : Chip :=
  match tabKind u.1 with
  | none => c
  | some unit =>
    let rec0 : ErrRec := { ue := false, kind := 0, unit := unit, syndrome := u.2, loc := u.1 }
    match eccBySyndrome 0 u.2 with
    | .clean => c
    | .corrected _ _ => (c.report (mapPage e) [rec0]).raise E.MAP_TAB_CE
    | _ =>
      let c := c.setMap { c.map with bad := smSet c.map.bad (e * 2 ^ 17 + u.1) true }
      (c.report (mapPage e) [{ rec0 with ue := true }]).raise E.MAP_TAB_UE

/-- An engine completes its task of 256 pixels by the band's lines and takes the oldest task not yet taken (R133). -/
def Chip.taskComplete (c : Chip) (e : Nat) (upsets : List (Nat × Nat)) : Chip :=
  match smFind c.map.engines e with
  | none => c
  | some t =>
    if c.stepStalls then c
    else match c.canvas? t.seq, c.map.bands.find? (fun b => b.seq = t.seq && b.band = t.band) with
    | some x, some b =>
      let c := upsets.foldl (fun c u => c.tabUpset e u) c
      let w := min 256 (c.canvasW - t.col)
      let blocks := (List.range (ceilDiv w 32)).map (fun k => t.col / 32 + k)
      let r := blocks.foldl (fun (a : (Nat × Nat) × Chip) i =>
        let q := a.2.doBlock x b e i
        let px := min 32 (a.2.canvasW - 32 * i) * a.2.bandLines b.band
        ((a.1.1 + q.1, a.1.2 + max q.1 px), q.2)) ((0, 0), c)
      let c := r.2
      let c := (c.bump (F.MAP_STATUS_TASKS.pg e)).bump (F.MAP_SAMPLES_COUNT.pg e) r.1.1
      let c := c.setCanvas { x with samples := x.samples + r.1.2 }
      let c := c.setBand { b with held := b.held - 1 }
      let c := (c.setMap { c.map with engines := smDel c.map.engines e }).set (F.MAP_STATUS_ACTIVE.pg e) 0
      c.assignTasks
    | _, _ => c.setMap { c.map with engines := smDel c.map.engines e }

/-! ### Completion, lateness and margins (R136, R157, R158) -/

/-- The length of the beat that starts at an instant of bar time: of a beat of the bar in progress as it is, catch-up included; of a later bar,
whose length its start decides, the nominal one (R91, R157, R167; assumption log 116). -/
def Chip.beatLen12 (c : Chip) (at12 : Nat) : Nat :=
  let starts := (List.range c.bar.beatLens.length).map (fun k => (c.bar.start12 + (c.bar.beatLens.take k).sum, c.bar.beatLens.getD k 0))
  match starts.find? (fun p => p.1 = at12) with
  | some p => p.2
  | none => beatPeriod12 c.mode

/-- What is left until S_m, in 1/12 ns. -/
def Chip.leadLeft12 (c : Chip) (x : CanvasSt) : Int := (x.sm12 : Int) - (c.bar12 c.now12 : Nat)

/-- Margin of an instant against the start of canvas line `line` of a canvas, in line periods rounded down (R158). -/
def Chip.leadLines (c : Chip) (x : CanvasSt) (line : Nat) : Int :=
  let b := max 1 (c.beatLen12 x.sm12)
  (c.leadLeft12 x * (c.canvasH + 16 : Nat) + (line * b : Nat)) / (b : Int)

/-- LEAD_LINES as it acts. -/
def Chip.chaseLead (c : Chip) : Nat := min 1024 (c.get F.MAPCTL_CHASE_LEAD_LINES)

/-- The deadline of a band of a canvas, or in frame mode of the canvas, has passed (R157). -/
def Chip.pastDeadline (c : Chip) (x : CanvasSt) (j : Nat) : Bool :=
  let b := c.beatLen12 x.sm12
  if c.chaseMode then decide (c.leadLeft12 x * (c.canvasH + 16 : Nat) + (32 * j * b : Nat) < (c.chaseLead * b : Nat))
  else decide (16 * c.leadLeft12 x < b)

/-- A canvas is late, once (R157). -/
def Chip.markLate (c : Chip) (seq : Nat) : Chip :=
  match c.canvas? seq with
  | none => c
  | some x => if x.late then c else ((c.setCanvas { x with late := true }).bumpSat F.MAPCTL_LATE_COUNT_COUNT).raise E.CANVAS_LATE

/-- LEAD_MIN takes a smaller margin. -/
def Chip.noteLead (c : Chip) (m : Int) : Chip :=
  let m := max (-32768) (min 32767 m)
  if m < signed 16 (c.get F.MAPCTL_LEAD_MIN_LINES) then c.set F.MAPCTL_LEAD_MIN_LINES (unsign 16 m) else c

/-- Canvases of mapping go to scan-out, which takes one or passes it by at its line 0; none is due while MAPCTL.EN is 0 (R169). -/
def Chip.scanTakes (c : Chip) : Bool := c.runs 0x070 && c.runs mapctl

/-- Scan-out is reading a canvas. -/
def Chip.scanReads (c : Chip) (x : CanvasSt) : Bool :=
  c.scan.jobs.any (fun j => j.canvas.seq = some x.seq) || (c.scan.active && decide (c.scan.curSeq = some x.seq))

/-- The array keeps these canvases: one that waits for a buffer no longer held waits no more (R136). -/
def Chip.keepCanvases (c : Chip) (l : List CanvasSt) : Chip :=
  let c := c.setMap { c.map with canvases := l }
  let c := c.setMap { c.map with canvases := l.map (fun y => if y.waitBuf then { y with waitBuf := c.bufferHeld y } else y) }
  c.showWaits.assignTasks

/-- A canvas is dropped from the array. -/
def Chip.dropCanvas (c : Chip) (seq : Nat) : Chip := c.keepCanvases (c.map.canvases.filter (fun y => y.seq ≠ seq))

/-- A completed canvas is published (R136); scan-out that takes none frees its buffer at once. -/
def Chip.publishCanvas (c : Chip) (x : CanvasSt) : Chip :=
  let c := c.set F.MAPCTL_LOAD_SAMPLES x.samples
  let c := if c.chaseMode then c else c.noteLead (c.leadLines x 0)
  if x.stale || !c.scanTakes then c.dropCanvas x.seq else c.setCanvas { x with published := true }

/-- All pixels of a band are written: its margin is taken, its lateness is tested, and the canvas completes with its last band (R133, R157, R158). -/
def Chip.bandComplete (ap : ApplyRef → Chip → Chip) (c : Chip) : Chip :=
  match c.map.bands.find? (fun b => b.cols.isEmpty && b.held = 0) with
  | none => c
  | some b =>
    let c := c.setMap { c.map with bands := c.map.bands.filter (fun y => ¬(y.seq = b.seq ∧ y.band = b.band)) }
    match c.canvas? b.seq with
    | none => c
    | some x =>
      let last := decide (x.done.length + 1 ≥ c.numBands)
      let c := c.setCanvas { x with done := b.band :: x.done }
      let c := if c.chaseMode then c.noteLead (c.leadLines x (32 * b.band)) else c
      let c := if (c.chaseMode || last) && c.pastDeadline x b.band then c.markLate x.seq else c
      let c := if last then (match c.canvas? x.seq with | some x => c.publishCanvas x | none => c) else c
      (c.nextBand ap).assignTasks

/-- The canvas is complete. -/
def Chip.canvasDone (c : Chip) (x : CanvasSt) : Bool := decide (x.done.length ≥ c.numBands)

/-- The deadline of a canvas in 1/12 ns of bar time: 1/16 beat before S_m, or in chase mode that of its first band not complete (R157). -/
def Chip.canvasDeadline (c : Chip) (x : CanvasSt) : Nat :=
  let b := c.beatLen12 x.sm12
  if c.chaseMode then
    let j := ((List.range c.numBands).find? (fun j => !x.done.contains j)).getD 0
    (x.sm12 * (c.canvasH + 16) + 32 * j * b - c.chaseLead * b) / (c.canvasH + 16)
  else x.sm12 - b / 16

/-- A canvas or band is not complete by its deadline: the canvas is late, once (R157). -/
def Chip.canvasLate (c : Chip) : Chip :=
  match c.map.canvases.find? (fun x => !x.late && !c.canvasDone x) with
  | none => c
  | some x => (c.advanceTo (c.canvasDeadline x)).markLate x.seq

/-- The canvas is scanned in the next beat, which has not begun. -/
def Chip.litFuture (c : Chip) (x : CanvasSt) : Bool := decide (c.relLit = some (x.litBar, x.litBeat))

/-! ### Chase waits (R156) -/

/-- The oldest waiting band whose chase layers are all ready is offered. -/
def Chip.chaseReady (c : Chip) : Chip :=
  let bands := c.map.bands.map (fun b =>
    match c.canvas? b.seq with
    | some x => if b.waitChase && (List.range 8).all (fun l => c.layerReady x b l) then { b with waitChase := false } else b
    | none => b)
  ((c.setMap { c.map with bands := bands }).showWaits).assignTasks

/-- The released canvases go on with the last complete frame of a source, where they have or may bind one that `p` holds of, from the bands
dispatched next on; bands that wait do so where `waiting` says it (R130, R131). -/
def Chip.rebind (c : Chip) (s : Nat) (waiting : Bool) (p : LayerBind → Bool) : Chip :=
  let f := c.lastFrame s
  let one := fun (b : LayerBind) => if b.src = s && p b then { b with slot := f.1, serial := f.2 } else b
  let snap := fun (l : List (Nat × Nat)) =>
    let x := l.getD s (0, 0)
    let b := one { src := s, slot := x.1, serial := x.2 }
    l.set s (b.slot, b.serial)
  let canvases := c.map.canvases.map (fun x => { x with binds := x.binds.map one, newest := snap x.newest, lasts := snap x.lasts })
  let bands := if waiting then c.map.bands.map (fun b => if b.waitChase then { b with binds := b.binds.map one } else b) else c.map.bands
  let bound := canvases.flatMap (fun x => ((List.range 8).filter (fun l => decide ((x.bind l).src = s))).map (fun l => (8 * x.feed + l, (s, (x.bind l).serial))))
  let c := c.setMap { c.map with canvases := canvases, bands := bands, lastBound := bound.foldl (fun m b => smSet m b.1 b.2) c.map.lastBound }
  match canvases.getLast? with
  | none => c
  | some x => (List.range 8).foldl (fun c l => if (x.bind l).src = s then c.set (F.LAYER_STATUS_BOUND_SLOT.pg l) (x.bind l).slot else c) c

/-- A withdrawn watermark releases the bands that wait on the source; its layers go on with the last complete frame (R130, R156). -/
def Chip.chaseWithdraw (c : Chip) (s : Nat) : Chip :=
  let waits := c.map.bands.any (fun b => b.waitChase &&
    (c.canvas? b.seq).any (fun x => (List.range 8).any (fun l => decide ((b.bind l).src = s) && !c.layerReady x b l)))
  let c := c.rebind s true (fun b => !c.frameDone b)
  let c := if waits then c.raise E.CHASE_RELEASE else c
  c.chaseReady

/-- After a change of the sources: layers of a source that has become usable take its first complete frame from the bands dispatched next
(R66, R131), and LAYER.STATUS follows. -/
def Chip.sourcesMoved (old c : Chip) : Chip :=
  ((List.range 17).foldl (fun c s => if c.sourceState s = lyLive && old.sourceState s ≠ lyLive then c.rebind s false (fun _ => true) else c) c).refreshLayers

/-! ### Tables (MAPCTL.TAB_DATA) and array control (R161) -/

/-- INDEX advances after an access. -/
def Chip.tabAdvance (c : Chip) : Chip :=
  if c.on F.MAPCTL_TAB_ADDR_AUTO_INC then c.bump F.MAPCTL_TAB_ADDR_INDEX else c

/-- A TAB_DATA write: the shadow tables of every engine at INDEX. -/
def Chip.tabWrite (c : Chip) (w : Word) : Chip :=
  let i := c.get F.MAPCTL_TAB_ADDR_INDEX
  let c := if (tabKind i).isSome then c.setMap { c.map with shadow := smPut 0 c.map.shadow i (w.toNat % 2 ^ tabBits i) } else c
  c.tabAdvance

/-- A TAB_DATA read: the shadow, or the in-use word of the engine named. -/
def Chip.tabRead (c : Chip) : Word × Chip :=
  let i := c.get F.MAPCTL_TAB_ADDR_INDEX
  let e := c.get F.MAPCTL_TAB_RD_ENGINE
  let v := if c.on F.MAPCTL_TAB_RD_IN_USE then (if smGet false c.map.bad (e * 2 ^ 17 + i) then 0 else smGet 0 c.map.tables i) else smGet 0 c.map.shadow i
  (BitVec.ofNat 32 v, c.tabAdvance)

/-- The shadow tables go into use with a MAPCTL commit (R137, R160). -/
def Chip.tabCommit (c : Chip) : Chip := c.setMap { c.map with tables := c.map.shadow, bad := [] }

/-- The bars of these canvases have no feed map of their own: their beat-0 canvas is never lit (R137). -/
def Chip.dropFmap (c : Chip) (l : List CanvasSt) : Chip :=
  c.setMap { c.map with fmap := c.map.fmap.filter (fun p => !l.any (fun x => decide (x.litBeat = 0) && decide (x.litBar = p.1))) }

/-- The beat of a canvas begins and scan-out, which reads host frames or the SRAM canvas, does not take it: it is never lit (R137, R169). -/
def Chip.passCanvas (c : Chip) (x : CanvasSt) : Chip :=
  let c := c.dropFmap [x]
  if c.canvasDone x then c.dropCanvas x.seq else c.setCanvas { x with stale := true }

/-- Dispatch state cleared, the canvases in progress being completed: the next canvas of each feed takes buffer 0, and a bar whose beat-0 canvas is
dropped has no feed map of its own (R136, R137, R161). -/
def Chip.mapRestart (c : Chip) : Chip :=
  let c := c.dropFmap (c.map.canvases.filter (fun x => !x.begun))
  c.setMap { c.map with canvases := c.map.canvases.filter (fun x => x.begun), nextBuf := [], lastBound := [] }

/-- MAPCTL.EN cleared: beside that, canvases that scan-out is not reading are never scanned; those in progress are completed (R137, R161, R169). -/
def Chip.mapStop (c : Chip) : Chip :=
  let c := c.mapRestart
  let c := c.dropFmap (c.map.canvases.filter (fun x => !c.scanReads x))
  c.keepCanvases ((c.map.canvases.filter (fun x => c.scanReads x || !x.published)).map (fun x => if c.scanReads x then x else { x with stale := true }))

/-- Canvases not begun to be scanned are never scanned after a mode change (R183). -/
def Chip.mapModeChange (c : Chip) : Chip :=
  let l := (c.map.canvases.filter (fun x => !x.published && x.begun)).map (fun x => { x with stale := true })
  (c.setMap { c.map with lastRel := none, fmap := [] }).keepCanvases l

/-! ### Cues (R154, R155) -/

/-- A CUE begins to load its set, for the first canvas released at or after the boundary: the one released in the beat that has begun, or the
next (R154). -/
def Chip.cueStart (c : Chip) (n : Nat) : Chip :=
  let here := c.relLit.isSome && decide (c.map.lastRel = c.relLit)
  c.setMap { c.map with cues := c.map.cues ++ [(n, if here then (c.map.seq + 65535) % 65536 else c.map.seq)] }

/-- The words of a prepared set; none where the set does not exist or its record is poisoned (R154, R155). -/
def Chip.cueRecord (c : Chip) (n : Nat) : Option (List Byte) × Chip :=
  if n < min 1024 (c.get F.MAPCTL_SET_COUNT_COUNT) then
    let addr := c.get F.MAPCTL_SET_BASE_BASE * 512 + n * 512
    let r := c.dramRead dmMapTab addr 512
    if r.1.2 then (none, r.2.mapPoison addr) else (some r.1.1, r.2)
  else (none, c)

end Sys2Proof.Machine
end

