-- ==== Sys2Proof/Machine/ScanOps.lean ====
section
/-! DEFINITION. Scan-out: line counter, late canvases and catch-up, tile table, pixel cells and their data, port margins, and preview (spec/07_canvas_scan_out.md). -/

namespace Sys2Proof.Machine

def scanPage (e : Nat) : Nat := 0x070 + e

def Chip.setScan (c : Chip) (s : ScanSt) : Chip := { c with scan := s }

/-- Scan-out states (spec/07_canvas_scan_out.md, States). -/
def ssOff : Nat := 0
def ssWait : Nat := 1
def ssScan : Nat := 2
def ssHeld : Nat := 3
def ssCatchup : Nat := 4
def ssFree : Nat := 5

/-- PAGE_STAT.STATE of SCAN_A, mirrored in SCAN_B. -/
def Chip.setScanState (c : Chip) (st : Nat) : Chip := (c.set (F.STATE.pg (scanPage 0)) st).set (F.STATE.pg (scanPage 1)) st

def Chip.scanState (c : Chip) : Nat := c.state (scanPage 0)

/-- A field of both scan pages. -/
def Chip.setBoth (c : Chip) (f : Fld) (v : Nat) : Chip := (c.set f v).set (f.pg 1) v

/-- The line counter runs (R43, R167). -/
def Chip.counterRuns (c : Chip) : Bool := c.runs 0x070 && c.bar.running && !c.bar.waiting && decide (c.scanState ≠ ssWait) && decide (c.scanState ≠ ssOff)

/-- LAG with its condition event (R180). -/
def Chip.setLag (c : Chip) (ns : Nat) : Chip := (c.set F.SCAN_LAG_NS ns).cond E.SCAN_CATCHUP (decide (ns ≠ 0))

/-- Every queued pixel cell of every port is discarded. -/
def Chip.dropAllPixels (c : Chip) : Chip := (List.range 16).foldl (fun c p => c.setPort p (c.port p).dropPixels) c

/-- The line counter stops: no beat is due and no line under way. -/
def Chip.scanHalt (c : Chip) (st : Nat) : Chip :=
  let c := c.setScan { c.scan with dues := [], active := false, line := 0, curSeq := none, lateFor := none }
  (c.setLag 0).setScanState st

/-- Reading stops and the line counter stops: states OFF and WAIT (R183, States). -/
def Chip.scanStop (c : Chip) (st : Nat) : Chip :=
  let c := c.dropAllPixels
  (c.setScan { c.scan with jobs := [], strips := [], turn := [] }).scanHalt st

/-- The bar generator stops, and the line counter with it; cells of canvases begun are still sent (R167, R178; assumption log 132). -/
def Chip.scanWait (c : Chip) : Chip := if c.runs 0x070 then c.scanHalt ssWait else c

/-- SCAN_A.EN set: sizes are taken (R166). -/
def Chip.scanStart (c : Chip) : Chip :=
  let c := c.scanStop ssWait
  c.setScan { c.scan with width := c.canvasW, height := c.canvasH, split := c.get F.SCAN_SPLIT_SPLIT_X }

/-- A generator beat begins: its canvas becomes due; after a mode change canvases are read from that of the following bar on (R94, R169, R179,
R183). -/
def Chip.scanBeat (c : Chip) (s12 len12 : Nat) : Chip :=
  match c.build with
  | .T => c
  | .S =>
    let lit := c.beatAfter c.beatNow
    let reads := !c.scan.newMode || decide (lit.2 = 0)
    let c := c.setScan { c.scan with newMode := !reads }
    if c.runs 0x070 then
      c.setScan { c.scan with
        dues := c.scan.dues ++ [{ s12 := s12, len12 := len12, beat := c.get F.BAR_STATUS_BEAT, litBar := lit.1, litBeat := lit.2, reads := reads }] }
    else c

/-- The canvas due in a beat, if mapping has released it; none is due while MAPCTL.EN is 0 (R169). -/
def Chip.canvasFor (c : Chip) (d : BeatDue) : Option CanvasSt :=
  if d.reads && c.runs mapctl then c.map.canvases.find? (fun x => x.litBar = d.litBar && x.litBeat = d.litBeat && !x.stale) else none

/-- The instant of a line, in 1/12 ns, rounded down to the 0.8 ns scan-out clock (R167). DESIGN CHOICE (assumption log 186): the edges of that clock
stand at whole multiples of 0.8 ns of bar time. -/
def Chip.lineAt (c : Chip) (line : Nat) : Nat :=
  let h := c.scan.height + 16
  (c.scan.start12 * h + (line - c.scan.fromLine) * c.scan.len12) * 5 / (48 * h) * 48 / 5

/-- The counter is delayed for a canvas: SCAN_A_LATE once per canvas, and LATE_COUNT (R179). -/
def Chip.scanLate (c : Chip) (lit : Nat × Nat) : Chip :=
  let c := c.setScanState ssHeld
  if c.scan.lateFor = some lit then c
  else ((c.setScan { c.scan with lateFor := some lit }).bumpSat F.SCAN_LATE_COUNT_LATE_COUNT).raise E.SCAN_A_LATE

/-- The canvas as scan-out reads it: a mapping buffer, or the host frames of the two halves in use (R163, R165). -/
def Chip.readCanvas (c : Chip) (x : Option CanvasSt) : ReadCanvas :=
  match x with
  | some x =>
    let base := (c.rd (F.MAPCTL_CANVAS_BUF_BASE.addr + 4 * (2 * x.feed + x.buf))).toNat
    let stride := c.get F.MAPCTL_CANVAS_STRIDE_STRIDE
    { seq := some x.seq, sram := none, baseA := base, baseB := base, fmtA := 3, fmtB := 3, strideA := stride, strideB := stride }
  | none =>
    { seq := none, sram := if c.sramCanvas then some (c.get F.RESET_HOLD_SIZE_W, c.get F.RESET_HOLD_SIZE_H) else none, baseA := c.use F.SCAN_FRAME_ADDR_BASE, baseB := c.use (F.SCAN_FRAME_ADDR_BASE.pg 1), fmtA := c.use F.SCAN_FRAME_FMT_FORMAT,
      fmtB := c.use (F.SCAN_FRAME_FMT_FORMAT.pg 1), strideA := c.use F.SCAN_FRAME_FMT_STRIDE, strideB := c.use (F.SCAN_FRAME_FMT_STRIDE.pg 1) }

/-- FRAME_ADDR_ACTIVE and FMT_ACTIVE show what is read (R182). -/
def Chip.showActive (c : Chip) (r : ReadCanvas) : Chip :=
  let host := b2n r.seq.isNone
  let c := (c.set F.SCAN_FRAME_ADDR_ACTIVE_BASE r.baseA).set (F.SCAN_FRAME_ADDR_ACTIVE_BASE.pg 1) r.baseB
  (c.set F.SCAN_FMT_ACTIVE_FMT (host * 2 ^ 31 + r.fmtA * 65536 + r.strideA)).set (F.SCAN_FMT_ACTIVE_FMT.pg 1) (r.fmtB * 65536 + r.strideB)

/-! ### Preview frame (R184 to R186) -/

/-- The first canvas of the preview's feed whose line 0 falls in its bar, or the host frame (R184). -/
def Chip.previewTake (c : Chip) (r : ReadCanvas) (feed : Nat) : Chip :=
  let p := c.preview
  if p.busy && p.canvas.isNone && r.sram.isNone && p.bar = c.barCount && (r.seq.isNone || feed = p.feed) then { c with preview := { p with canvas := some r } } else c

/-- A preview frame begins at a bar start, or the bar is skipped (R184). -/
def Chip.previewBar (ap : ApplyRef → Chip → Chip) (c : Chip) : Chip :=
  if c.build = .T || !c.runs 0x072 || c.sramCanvas then c
  else
    let running := c.preview.busy && c.preview.canvas.isSome
    let c' := if running then c else ap .previewFrame c
    let feed := c'.use F.PREVIEW_CTRL_FEED
    let fm := c'.bar.feedMap
    let inMap := c'.hostFrames || (List.range (modeBeats c'.mode)).any (fun b => decide (fm / 4 ^ b % 4 = feed))
    if running || !inMap then
      ((c'.bumpSat F.PREVIEW_SKIP_COUNT_SKIP_COUNT).set F.PREVIEW_STATUS_BUSY (b2n running)).raise E.PREVIEW_SKIP
    else
      let d := match c'.use F.PREVIEW_CTRL_DIV with | 1 => 2 | 3 => 8 | 4 => 16 | _ => 4
      let c := { c' with preview := { c'.preview with busy := true, bar := c'.barCount, feed := feed, canvas := none, mixed := false } }
      ((c.set F.PREVIEW_STATUS_BUSY 1).set F.PREVIEW_OUT_SIZE_WO (c.scan.width / d)).set F.PREVIEW_OUT_SIZE_HO (c.scan.height / d)

/-- The scan-out master of a bank (R395). -/
def mScan : Nat := 5

/-- A canvas pixel as it is read: its value as P32H, and the poisoned words it stands in, by word index with their syndromes. -/
structure PixelRead where
  code : Nat
  bad : List (Nat × Nat)
deriving DecidableEq, Repr

/-- A pixel of the SRAM canvas: the nearest pixel of the holding image, in P32A; black without an image; open after a host error of a handover
(R306, R395). -/
def Chip.sramPixel (c : Chip) (w h cx cy : Nat) : PixelRead × Chip :=
  if w = 0 || h = 0 then ({ code := 0, bad := [] }, c)
  else
    let o := 4 * (cy * h / max 1 c.scan.height * w + cx * w / max 1 c.scan.width)
    let syn := (c.sramPoison (o / 16)).getD 0x1FF
    let r := c.bankReadWord mScan mOwner (o / 16)
    let v := nbits r.1.1.toNat (8 * (o % 16) + 31) (8 * (o % 16))
    let p := if r.2.upset mScan then r.2.openValue 32 else (v, r.2)
    ({ code := toP32H 2 p.1, bad := if r.1.2 then [(o / 16, syn)] else [] }, p.2)

/-- A canvas pixel, read by scan-out or preview (R163 to R165, R395). -/
def Chip.canvasPixel (c : Chip) (master : Nat) (r : ReadCanvas) (cx cy : Nat) : PixelRead × Chip :=
  match r.sram with
  | some (w, h) => c.sramPixel w h cx cy
  | none =>
  let right := decide (c.scan.split ≤ cx)
  let base := if right then r.baseB else r.baseA
  let fmt := if right then r.fmtB else r.fmtA
  let stride := if right then r.strideB else r.strideA
  let col := if right && r.seq.isNone then cx - c.scan.split else cx
  let addr := base * 256 + cy * (stride * 64) + col * fmtBytes fmt
  let words := (List.range ((addr + fmtBytes fmt - 1) / 16 + 1 - addr / 16)).map (fun i => addr / 16 + i)
  let bad := words.filterMap (fun w => (c.dramPoison (16 * w)).map (fun s => (w, s)))
  let q := c.dramRead master addr (fmtBytes fmt)
  ({ code := toP32H fmt (ofLe q.1.1), bad := bad }, q.2)

/-- The code of an output pixel of a preview: the mean of a square of canvas pixels (R185); a pixel that is read poisoned counts as an open value,
for no rule says what PREVIEW makes of it (assumption log 133). -/
def Chip.previewPixel (c : Chip) (r : ReadCanvas) (d i j : Nat) : Nat × Chip :=
  let s := (List.range (d * d)).foldl (fun (a : (Nat × Nat × Nat) × Chip) k =>
    let q := a.2.canvasPixel dmPreview r (d * i + k % d) (d * j + k / d)
    let v := if q.1.bad.isEmpty then (q.1.code, q.2) else q.2.openValue 30
    ((a.1.1 + v.1 / 2 ^ 20 % 1024, a.1.2.1 + v.1 / 2 ^ 10 % 1024, a.1.2.2 + v.1 % 1024), v.2)) ((0, 0, 0), c)
  let m := fun (x : Nat) => (x + d * d / 2) / (d * d)
  let a8 := fun (x : Nat) => min 255 ((x + 2) / 4)
  let p := s.1
  let v := if s.2.use F.PREVIEW_CTRL_P32A = 1 then 0xFF000000 + a8 (m p.1) * 65536 + a8 (m p.2.1) * 256 + a8 (m p.2.2)
    else m p.1 * 2 ^ 20 + m p.2.1 * 2 ^ 10 + m p.2.2
  (v, s.2)

/-- A line of the preview frame is written to the host (R185). -/
def Chip.previewLine (c : Chip) (r : ReadCanvas) (d wo line : Nat) : Chip :=
  let q := (List.range wo).foldl (fun (a : List Byte × Chip) i =>
    let v := a.2.previewPixel r d i line
    (a.1 ++ leBytes 4 v.1, v.2)) ([], c)
  let c := q.2
  let host := c.use F.PREVIEW_HOST_LO_HOST_LO + c.use F.PREVIEW_HOST_HI_HOST_HI * 2 ^ 32
  c.emit (.preview (host + c.preview.nextBuf * c.use F.PREVIEW_BUF_OFFSET_BUF_OFFSET * 4096 + line * c.use F.PREVIEW_STRIDE_STRIDE * 64) q.1)

/-- The canvas of the preview is complete, so that every line of it can be read. -/
def Chip.previewReady (c : Chip) (r : ReadCanvas) : Bool :=
  match r.seq with
  | none => true
  | some s => match c.canvas? s with | some x => c.canvasDone x | none => true

/-- The last write of a preview frame has been sent (R185, R186). -/
def Chip.previewDone (c : Chip) : Chip :=
  match c.preview.canvas with
  | none => c
  | some r =>
    if !c.preview.busy || !c.previewReady r || c.stepStalls then c
    else
      let d := match c.use F.PREVIEW_CTRL_DIV with | 1 => 2 | 3 => 8 | 4 => 16 | _ => 4
      let wo := c.scan.width / d
      let c := (List.range (c.scan.height / d)).foldl (fun c j => c.previewLine r d wo j) c
      let buf := c.preview.nextBuf
      let c := (c.set F.PREVIEW_STATUS_LAST_BUF buf).set F.PREVIEW_STATUS_MIXED (b2n c.preview.mixed)
      let c := (c.bump F.PREVIEW_STATUS_FRAME_COUNT).set F.PREVIEW_STATUS_BUSY 0
      { c with preview := { c.preview with busy := false, canvas := none, nextBuf := 1 - buf } }.raise E.PREVIEW_DONE

/-- A host completion error ends the frame at once (R186). -/
def Chip.previewErr (c : Chip) : Chip :=
  if !c.preview.busy then c
  else ({ c with preview := { c.preview with busy := false, canvas := none } }.set F.PREVIEW_STATUS_BUSY 0).raise E.PREVIEW_ERR

/-! ### Line 0 and the lines after it (R167, R179, R180) -/

/-- The canvas of a due beat is not complete as scan-out needs it: wholly in frame mode, band 0 of it in chase mode. -/
def Chip.notReady0 (c : Chip) (x : CanvasSt) : Bool := if c.chaseMode then !x.done.contains 0 else !c.canvasDone x

/-- Scan-out reads no mapping canvas: host frames, or the SRAM canvas. -/
def Chip.fixedCanvas (c : Chip) : Bool := c.hostFrames || c.sramCanvas

/-- The chains that no cells are read for. -/
def Chip.deadChains (c : Chip) : List Nat := (List.range 16).filter (fun q => (c.chainPorts q).isEmpty)

/-- The counter enters line 0 of a due beat: the apply points of blanking lines not reached and of line 0 are taken, and what is shown changes
(R170, R180, R182). -/
def Chip.enterLine0 (ap : ApplyRef → Chip → Chip) (c : Chip) (d : BeatDue) (at12 : Nat) : Chip :=
  let skipped := if c.scan.active then (List.range (c.scan.height + 15 - c.scan.line)).map (fun i => c.scan.line + 1 + i) else []
  let lag := (at12 - d.s12) / 12
  let c := c.setScan { c.scan with
    dues := c.scan.dues.drop 1, active := true, s12 := d.s12, start12 := at12, fromLine := 0, len12 := d.len12, line := 0,
    curLit := (d.litBar, d.litBeat) }
  let c := (c.setLag lag).setScanState (if lag = 0 then ssScan else ssCatchup)
  let c := (skipped ++ [0]).foldl (fun c y => ap (.scanLine y) c) c
  ((c.setBoth F.SCAN_LINE_LINE 0).setBoth F.SCAN_LINE_BLANK 0).setBoth F.SCAN_LINE_BEAT d.beat

/-- The canvas whose line 0 has begun: it is shown and read, but sends no cells in the bar held for new tables, nor before the bar that follows a mode
change; without a canvas the counter runs free (R169, R182, R183, R381). -/
def Chip.takeCanvas (c : Chip) (d : BeatDue) : Chip :=
  let x := if c.fixedCanvas then none else c.canvasFor d
  if c.fixedCanvas || x.isSome then
    let r := c.readCanvas x
    let c := (c.showActive r).previewTake r ((x.map (fun y => y.feed)).getD 0)
    let job : ScanJob :=
      { canvas := r, litBar := d.litBar, litBeat := d.litBeat, table := c.scan.tabUse, next := [], count := [], ended := c.deadChains }
    c.setScan { c.scan with curSeq := r.seq, jobs := if c.tableHeld || !d.reads then c.scan.jobs else c.scan.jobs ++ [job] }
  else (c.setScan { c.scan with curSeq := none }).setScanState ssFree

/-- The canvas of a beat that scan-out, which reads host frames or the SRAM canvas, does not take (R169). -/
def Chip.passBeat (c : Chip) (d : BeatDue) : Chip :=
  match c.canvasFor d with
  | some x => c.passCanvas x
  | none => c

/-- Line 0 of the next canvas: at S_m, or at the end of line H of the canvas before it, or late once the canvas or band is complete. A commit that
applies at line 0 acts on this canvas, SOURCE too; one of MODE_SEL stops the counter (R167, R179, R180, R182, R183). -/
def Chip.canvasLine0 (ap : ApplyRef → Chip → Chip) (c : Chip) : Chip :=
  match c.scan.dues with
  | [] => c
  | d :: _ =>
    if !c.runs 0x070 || !c.bar.running || c.bar.waiting || (c.scan.active && decide (c.scan.line < c.scan.height)) then c
    else
      let lit := (d.litBar, d.litBeat)
      let t0 := max d.s12 (if c.scan.active then c.lineAt (c.scan.height + 1) else 0)
      let c := c.advanceTo t0
      let e := c.enterLine0 ap d (if c.scan.lateFor = some lit then max t0 (c.bar12 c.now12) else t0)
      if !e.scan.active then e
      else if !e.fixedCanvas && (e.canvasFor d).any (fun x => e.notReady0 x) then c.scanLate lit
      else (if e.fixedCanvas then e.passBeat d else e).takeCanvas d

/-- The canvas being scanned is not complete in a band. -/
def Chip.bandMissing (c : Chip) (j : Nat) : Bool := (c.scan.curSeq.bind c.canvas?).any (fun x => !x.done.contains j)

/-- The counter waits with line 0 of the next canvas (R179). -/
def Chip.heldForLine0 (c : Chip) : Bool := c.scanState = ssHeld && decide (c.scan.height ≤ c.scan.line)

/-- The counter reaches the start of its next line; in chase mode it stops at a band that is not complete (R167, R179). -/
def Chip.lineStart (ap : ApplyRef → Chip → Chip) (c : Chip) : Chip :=
  let y := c.scan.line + 1
  if !c.runs 0x070 || !c.bar.running || c.bar.waiting || !c.scan.active || y > c.scan.height + 15 || c.heldForLine0 then c
  else
    let c := c.advanceTo (c.lineAt y)
    if c.chaseMode && decide (y % 32 = 0) && decide (y < c.scan.height) && c.bandMissing (y / 32) then c.scanLate c.scan.curLit
    else
      let c := if c.scanState = ssHeld then (c.setScan { c.scan with start12 := c.bar12 c.now12, fromLine := y }).setScanState ssCatchup else c
      let c := c.setScan { c.scan with line := y }
      let c := (c.setBoth F.SCAN_LINE_LINE y).setBoth F.SCAN_LINE_BLANK (b2n (decide (c.scan.height ≤ y)))
      ap (.scanLine y) c

/-- A mode change stops reading; queued cells are discarded (R183). -/
def Chip.scanModeChange (c : Chip) : Chip :=
  let c := c.setScan { c.scan with newMode := true }
  if c.runs 0x070 then c.scanStop ssWait else c

/-! ### Tile rectangle table (R171 to R176) -/

/-- An entry of the tile table. -/
structure TileEntry where
  valid : Bool
  reserved : Bool
  rot : Nat
  mirror : Bool
  order : Nat
  tile : Nat
  y0 : Nat
  x0 : Nat
  hr : Nat
  w : Nat
deriving DecidableEq, Repr

def tileEntry (t : SMap Word) (e : Nat) : TileEntry :=
  let a := smGet 0 t (4 * e)
  let b := smGet 0 t (4 * e + 1)
  let d := smGet 0 t (4 * e + 2)
  let clear := bitsOf a 24 13 = 0 ∧ bitsOf d 31 27 = 0 ∧ bitsOf d 15 11 = 0 ∧ smGet 0 t (4 * e + 3) = 0
  { valid := a.getLsbD 31, reserved := !decide clear, rot := bitsOf a 30 29, mirror := a.getLsbD 28, order := bitsOf a 27 25, tile := bitsOf a 12 0, y0 := bitsOf b 31 16,
    x0 := bitsOf b 15 0, hr := bitsOf d 26 16, w := bitsOf d 10 0 }

/-- Lamp columns and rows of the tile. -/
def TileEntry.tw (e : TileEntry) : Nat := if e.rot % 2 = 0 then e.w else e.hr
def TileEntry.th (e : TileEntry) : Nat := if e.rot % 2 = 0 then e.hr else e.w
def TileEntry.lamps (e : TileEntry) : Nat := e.tw * e.th
/-- Pixel cells of the tile per canvas (R173). -/
def TileEntry.cells (e : TileEntry) : Nat := ceilDiv e.lamps 14
/-- The port its ID names (R20). -/
def TileEntry.port (e : TileEntry) : Nat := e.tile / 64 % 16

/-- The canvas pixel of lamp index l (R172). -/
def TileEntry.pixelOf (e : TileEntry) (l : Nat) : Nat × Nat :=
  let tw := e.tw
  let th := e.th
  let ly := l / tw
  let k := l % tw
  let lx := if e.order = 1 && ly % 2 = 1 then tw - 1 - k else k
  let mx := if e.mirror then tw - 1 - lx else lx
  match e.rot with
  | 0 => (e.x0 + mx, e.y0 + ly)
  | 1 => (e.x0 + th - 1 - ly, e.y0 + mx)
  | 2 => (e.x0 + tw - 1 - mx, e.y0 + th - 1 - ly)
  | _ => (e.x0 + ly, e.y0 + tw - 1 - mx)

/-- Two rectangles overlap, or name one tile. -/
def TileEntry.clash (e f : TileEntry) : Bool :=
  e.tile = f.tile || (decide (e.x0 < f.x0 + f.w) && decide (f.x0 < e.x0 + e.w) && decide (e.y0 < f.y0 + f.hr) && decide (f.y0 < e.y0 + e.hr))

/-- The host errors of R176 for an entry of a table: overlap, a rectangle across SPLIT_X or beyond the canvas, a tile named twice, too many lamps,
a reserved field that is not 0. -/
def Chip.entryUnsound (c : Chip) (t : SMap Word) (n : Nat) : Bool :=
  let e := tileEntry t n
  e.reserved || decide (49152 < e.lamps) || (decide (e.x0 < c.scan.split) && decide (c.scan.split < e.x0 + e.w)) ||
    decide (c.scan.width < e.x0 + e.w) || decide (c.scan.height < e.y0 + e.hr) ||
    (List.range 1024).any (fun k => decide (k ≠ n) && (tileEntry t k).valid && e.clash (tileEntry t k))

/-- An entry is skipped (R175). -/
def Chip.entrySkipped (c : Chip) (e : TileEntry) : Bool :=
  !(c.tilePort e.port && (c.rd F.DEVICE_RESOURCES_CHAIN_PORTS.addr).getLsbD (16 + e.port)) || e.tile / 1024 ≠ c.stackPos || e.tile = 0x1FFF

/-- The table goes into use: ENTRIES, and TILE_SKIP once where it skips an entry (R175, R182). -/
def Chip.tileCommit (c : Chip) : Chip :=
  let t := c.scan.tabShadow
  let c := c.setScan { c.scan with tabUse := t }
  let valid := (List.range 1024).filter (fun e => (tileEntry t e).valid)
  let skip := valid.filter (fun e => c.entrySkipped (tileEntry t e))
  let c := (c.set F.TILETAB_STATUS_ENTRIES valid.length).set F.TILETAB_STATUS_SKIP_VALID (b2n (!skip.isEmpty))
  let c := c.set F.TILETAB_STATUS_SKIP_FIRST (skip.headD 0)
  if skip.isEmpty then c else c.raise E.TILE_SKIP

def Chip.tileAdvance (c : Chip) : Chip := if c.on F.TILETAB_INDEX_AUTO_INC then c.bump F.TILETAB_INDEX_INDEX else c

/-- TILETAB.DATA written: the shadow word at INDEX. -/
def Chip.tiletabWrite (c : Chip) (w : Word) : Chip :=
  (c.setScan { c.scan with tabShadow := smPut 0 c.scan.tabShadow (c.get F.TILETAB_INDEX_INDEX) w }).tileAdvance

/-- TILETAB.DATA read. -/
def Chip.tiletabRead (c : Chip) : Word × Chip :=
  (smGet 0 (if c.on F.TILETAB_CTRL_RD_IN_USE then c.scan.tabUse else c.scan.tabShadow) (c.get F.TILETAB_INDEX_INDEX), c.tileAdvance)

/-! ### Pixel cells (R173, R174, R177, R181, R428) -/

/-- The lamps of a cell of a tile. -/
def TileEntry.cellLamps (e : TileEntry) (k : Nat) : List Nat := (List.range (min 14 (e.lamps - 14 * k))).map (fun i => 14 * k + i)

/-- A cell is ready when every canvas line of its lamps is complete (R174). -/
def Chip.cellReady (c : Chip) (r : ReadCanvas) (e : TileEntry) (k : Nat) : Bool :=
  match r.seq with
  | none => true
  | some s =>
    match c.canvas? s with
    | none => true
    | some x => c.canvasDone x || (c.chaseMode && (e.cellLamps k).all (fun l => x.done.contains ((e.pixelOf l).2 / 32)))

/-- The engine of an entry: A for the left half, B for the right (R165). -/
def Chip.entryEngine (c : Chip) (e : TileEntry) : Nat := if e.x0 < c.scan.split then 0 else 1

/-- An entry of a job has cells left to read; nothing is read of the right half while SCAN_B does not run (R167, R175, R428). -/
def Chip.entryLeft (c : Chip) (j : ScanJob) (n : Nat) (e : TileEntry) : Bool :=
  (c.entryEngine e = 0 || c.runs 0x071) && e.valid && !c.entrySkipped e && !j.ended.contains (c.seqPort e.port) && decide (smGet 0 j.next n < e.cells)

/-- The entries of a job with cells left. -/
def Chip.jobLeft (c : Chip) (j : ScanJob) : List (Nat × TileEntry) :=
  ((List.range 1024).map (fun n => (n, tileEntry j.table n))).filter (fun p => c.entryLeft j p.1 p.2)

/-- The entries of a job whose cells go to the chain of port q and are not all read. -/
def Chip.jobEntries (c : Chip) (j : ScanJob) (q : Nat) : List (Nat × TileEntry) := (c.jobLeft j).filter (fun p => decide (c.seqPort p.2.port = q))

/-- Jobs with nothing left to read for any port are over. -/
def Chip.pruneJobs (c : Chip) : Chip := c.setScan { c.scan with jobs := c.scan.jobs.filter (fun j => !(c.jobLeft j).isEmpty) }

/-- A port discards its queued cells of engine B; data still to come for them is discarded when it comes. -/
def PortSt.dropEngineB (s : PortSt) : PortSt :=
  { s with qPixel := s.qPixel.filter (fun e => e.engine ≠ 1), pixLate := s.pixLate + (s.qPixel.filter (fun e => decide (e.engine = 1) && !e.ready)).length }

/-- Engine B stands still: it holds no strip, its queued cells are not sent, and canvases with nothing left but the right half are over (R167). -/
def Chip.engineBStop (c : Chip) : Chip :=
  let c := ((List.range 16).filter (fun p => (c.port p).qPixel.any (fun e => e.engine = 1))).foldl (fun c p => c.setPort p (c.port p).dropEngineB) c
  (c.setScan { c.scan with strips := c.scan.strips.filter (fun x => x.engine ≠ 1) }).pruneJobs

/-- A canvas of which engine B reads nothing more. -/
def Chip.leftOnly (c : Chip) (j : ScanJob) : ScanJob :=
  { j with next := (List.range 1024).foldl (fun m n =>
      let e := tileEntry j.table n
      if e.valid && decide (c.entryEngine e = 1) then smSet m n e.cells else m) j.next }

/-- SRST of engine B: beside that, it reads nothing more of the canvases under way (R37). -/
def Chip.engineBReset (c : Chip) : Chip := (c.setScan { c.scan with jobs := c.scan.jobs.map c.leftOnly }).engineBStop

/-- Order of ready cells on a port: last lamp's canvas line, X0, entry (R174). -/
def cellKey (j : ScanJob) (p : Nat × TileEntry) : Nat × Nat × Nat :=
  let k := smGet 0 j.next p.1
  ((p.2.pixelOf (min (14 * k + 13) (p.2.lamps - 1))).2, p.2.x0, p.1)

def keyLt (a b : Nat × Nat × Nat) : Bool :=
  decide (a.1 < b.1) || (decide (a.1 = b.1) && (decide (a.2.1 < b.2.1) || (decide (a.2.1 = b.2.1) && decide (a.2.2 < b.2.2))))

/-- The entry whose cell an engine reads next for a chain. -/
def Chip.pickEntry (c : Chip) (j : ScanJob) (engine q : Nat) : Option (Nat × TileEntry) :=
  let l := (c.jobEntries j q).filter (fun p => decide (c.entryEngine p.2 = engine) && c.cellReady j.canvas p.2 (smGet 0 j.next p.1))
  l.foldl (fun (a : Option (Nat × TileEntry)) p =>
    match a with
    | none => some p
    | some b => if keyLt (cellKey j p) (cellKey j b) then some p else a) none

/-- The strip of its canvas columns in which the last lamp of a cell of a tile of rotation 1 or 3 stands (R175; assumption log 129). -/
def TileEntry.strip (e : TileEntry) (k : Nat) : Option Nat :=
  if e.rot % 2 = 1 then some (((e.pixelOf (min (14 * k + 13) (e.lamps - 1))).1 - e.x0) / 16) else none

/-- An engine has a strip for the chain, or one free: it holds strips for up to 8 ports (R175). -/
def Chip.stripFree (c : Chip) (engine q : Nat) : Bool :=
  let held := ((c.scan.strips.filter (fun x => x.engine = engine)).map (fun x => x.chain)).dedup
  held.contains q || decide (held.length < 8)

/-- After cell `k` of entry `n` is read, its strip stays held while the next cell needs it too. -/
def Chip.keepStrip (c : Chip) (engine q n : Nat) (e : TileEntry) (k : Nat) : Chip :=
  let l := c.scan.strips.filter (fun x => ¬(x.engine = engine ∧ x.chain = q ∧ x.entry = n))
  let l := match e.strip k with
    | some s => if k + 1 < e.cells && decide (e.strip (k + 1) = some s) then l ++ [{ engine := engine, chain := q, entry := n, col := s }] else l
    | none => l
  c.setScan { c.scan with strips := l }

/-- The payload of a cell and the poisoned words it needs, each once, with their syndromes; a host error of R176 leaves the payload open. -/
def Chip.cellPayload (c : Chip) (j : ScanJob) (n : Nat) (e : TileEntry) (k : Nat) : PixelRead × Chip :=
  if c.entryUnsound j.table n then
    let r := c.openValue (32 * (e.cellLamps k).length)
    ({ code := r.1, bad := [] }, r.2)
  else (e.cellLamps k).foldl (fun (a : PixelRead × Chip) l =>
    let p := e.pixelOf l
    let q := a.2.canvasPixel dmScan j.canvas p.1 p.2
    ({ code := a.1.code + q.1.code * 2 ^ (32 * (l - 14 * k)), bad := a.1.bad ++ q.1.bad.filter (fun w => !a.1.bad.contains w) }, q.2))
    ({ code := 0, bad := [] }, c)

/-- The oldest canvas with cells left for an engine and chain. -/
def Chip.pickJob (c : Chip) (engine q : Nat) : Option (Nat × ScanJob) :=
  (c.scan.jobs.zipIdx.find? (fun p => (c.jobEntries p.1 q).any (fun e => decide (c.entryEngine e.2 = engine)))).map (fun p => (p.2, p.1))

/-- The cell that an engine reads next for a chain: the place of its canvas among those being read, the canvas, and the entry; none while
the engine stands still, or waits for a cell to be ready or for a strip (R167, R174, R175). -/
def Chip.nextCell (c : Chip) (engine q : Nat) : Option (Nat × ScanJob × Nat × TileEntry) :=
  if !c.runs (scanPage engine) || !c.runs 0x070 then none
  else do
    let j ← c.pickJob engine q
    let e ← c.pickEntry j.2 engine q
    if (e.2.strip (smGet 0 j.2.next e.1)).isNone || c.stripFree engine q then some (j.1, j.2, e.1, e.2) else none

/-- It is an engine's turn on a chain: the engines fill its queues cell by cell in turn, while both have a cell, A first
(R177; assumption log 134). -/
def Chip.myTurn (c : Chip) (engine q : Nat) : Bool := smGet 0 c.scan.turn q = engine || (c.nextCell (1 - engine) q).isNone

/-- An engine reads the next ready cell of a chain into its egress queues; in rings both ports get it (R174, R175, R177, R428). -/
def Chip.cellRead (c : Chip) (engine port : Nat) : Chip :=
  let q := c.seqPort port
  let ports := c.chainPorts port
  if c.build = .T || ports.isEmpty || ports.any (fun p => decide (512 ≤ (c.port p).qPixel.length)) || !c.myTurn engine q then c
  else match c.nextCell engine q with
    | none => c
    | some (i, j, n, e) =>
      let k := smGet 0 j.next n
      let r := c.cellPayload j n e k
      let j' := { j with next := smSet j.next n (k + 1), count := smSet j.count q (smGet 0 j.count q + 1) }
      let last := (r.2.jobEntries j' q).isEmpty
      let cell := mkCell {
        ctype := ctPixel, tile := e.tile, beat := j.litBeat, barLsb := j.litBar, firstLamp := 14 * k, active := r.2.actBit,
        last := decide (k + 1 = e.cells) } r.1.code
      let s := r.2.withSeq q cell
      let entry : PixelEntry :=
        { cell := s.1, canvas := smGet 0 j'.count q, lastOfPort := last, ready := false, engine := engine, bad := !r.1.bad.isEmpty, poison := r.1.bad }
      let c := ports.foldl (fun c p => c.setPort p { c.port p with qPixel := (c.port p).qPixel ++ [entry] }) s.2
      let c := c.setScan { c.scan with jobs := c.scan.jobs.set i j', turn := smSet c.scan.turn q (1 - engine) }
      (c.keepStrip engine q n e k).pruneJobs

/-- Scan-out has finished reading a feed buffer: the canvas waiting for it may write (R136). -/
def Chip.bufferFree (c : Chip) (feed buf : Nat) : Chip :=
  let c := c.pruneJobs
  let toScan := fun (x : CanvasSt) => c.scanTakes && (c.litFuture x || c.scan.dues.any (fun d => d.litBar = x.litBar && d.litBeat = x.litBeat))
  match c.map.canvases.find? (fun x => x.published && x.feed = feed && x.buf = buf && !toScan x && !c.scanReads x) with
  | none => c
  | some x => c.dropCanvas x.seq

/-- A pixel cell as a HOLD cell: HOLD set, payload 0 (R181). -/
def holdCell (cell : Nat) : Nat :=
  let v := nbits cell 63 8
  let v := v - nbits cell 21 21 * 2 ^ 13 + 2 ^ 13
  v * 256 + crc8 56 v 0

/-- The first entry of a queue changed. -/
def mapFirst {α : Type} (p : α → Bool) (f : α → α) : List α → List α
  | [] => []
  | h :: t => if p h then f h :: t else h :: mapFirst p f t

/-- The poisoned words of a read are recorded in its engine's page and raised; a cell that a ring sends on both ports was one read, recorded once
(R175, R181). -/
def Chip.recordPoison (c : Chip) (p : Nat) (e : PixelEntry) : Chip :=
  if e.poison.isEmpty then c
  else
    let s := c.port (partner p)
    let c := if c.portMode p = 1 then c else c.setPort (partner p) { s with qPixel := s.qPixel.map (fun x => if x.cell = e.cell then { x with poison := [] } else x) }
    (c.report (scanPage e.engine) (e.poison.map (fun w => { ue := true, kind := 0, unit := 0, syndrome := w.2, loc := w.1 }))).raise E.SCAN_POISON

/-- DRAM data returns for a queued cell: a poisoned one is recorded and sent as HOLD; data whose cell has left is discarded (R181). -/
def Chip.dataReturn (c : Chip) (p : Nat) : Chip :=
  let s := c.port p
  if c.stepStalls && !c.sramScanned then c
  else if s.pixLate > 0 then c.setPort p { s with pixLate := s.pixLate - 1 }
  else match s.qPixel.find? (fun e => !e.ready) with
    | none => c
    | some e =>
      let e' := { e with ready := true, cell := if e.bad then holdCell e.cell else e.cell, poison := [] }
      (c.setPort p { s with qPixel := mapFirst (fun e => !e.ready) (fun _ => e') s.qPixel }).recordPoison p e

/-- A cell at the head of its queue has waited UNDERRUN_WAIT for its data: it is sent as HOLD, and the data is discarded when it comes (R181). -/
def Chip.underrun (c : Chip) (p : Nat) : Chip :=
  let s := c.port p
  match s.qPixel with
  | [] => c
  | e :: t =>
    if e.ready then c
    else c.setPort p { s with qPixel := { e with ready := true, cell := holdCell e.cell, poison := [] } :: t, pixLate := s.pixLate + 1 }

/-- PORT_MARGIN takes a smaller margin, in whole µs (R178). -/
def Chip.noteMargin (c : Chip) (p : Nat) (m : Int) : Chip :=
  let f := F.SCAN_PORT_MARGIN_US.plus (4 * p)
  let m := max (-32768) (min 32767 m)
  if m < signed 16 (c.get f) then c.set f (unsign 16 m) else c

/-- A pixel cell leaves a port: HOLD cells are counted and raised; the last of a canvas closes the port's margin (R178, R181). -/
def Chip.pixelSent (c : Chip) (p : Nat) (e : PixelEntry) : Chip :=
  let c := if cellHold e.cell then
      let c := c.bumpSat (F.SCAN_HOLD_CELLS_HOLD_CELLS.pg e.engine)
      c.raise (if e.engine = 0 then E.SCAN_A_UNDERRUN else E.SCAN_B_UNDERRUN)
    else c
  if e.lastOfPort then
    let now := c.bar12 c.now12
    let mark := cellBarLsb e.cell * 4 + cellBeat e.cell
    let c := c.set (F.SCAN_PORT_CELLS_CELLS.plus (4 * p)) e.canvas
    let s := c.port p
    match smFind s.pixDb mark with
    | some db =>
      let c := c.setPort p { s with pixDb := smDel s.pixDb mark }
      let c := c.noteMargin p (min (-1) (((db : Int) - now) / 12000))
      (c.wr F.SCAN_PORT_LATE_PORTS.addr (c.rd F.SCAN_PORT_LATE_PORTS.addr ||| ((1 : Word) <<< p))).raise E.SCAN_PORT_LATE
    | none => c.setPort p { s with pixLeft := some now }
  else c

/-- A DOWNBEAT of the beat that a mark names goes out on a tile port: the margin of the canvas that has left before it, or the mark against which
a late one is measured (R178). -/
def Chip.downbeatMargin (c : Chip) (p lit : Nat) : Chip :=
  let s := c.port p
  let now := c.bar12 c.now12
  let waiting := s.qPixel.any (fun e => decide (cellBarLsb e.cell * 4 + cellBeat e.cell = lit)) ||
    (c.portCarries p && c.scan.jobs.any (fun j => decide (litMark j.litBar j.litBeat = lit) && !(c.jobEntries j (c.seqPort p)).isEmpty))
  let c := if waiting then c.setPort p { s with pixDb := smSet s.pixDb lit now } else c
  match s.pixLeft with
  | some t => (c.setPort p { c.port p with pixLeft := none }).noteMargin p (((now : Int) - t) / 12000)
  | none => c

end Sys2Proof.Machine
end

