-- ==== Sys2Proof/Machine/PageOps.lean ====
section
/-! DEFINITION. What EN, SRST and COMMIT of the common page header do on each page: starts and stops, resets, apply points and their references (R35, R37 to R43, R44, R45). -/

namespace Sys2Proof.Machine

/-! ### Pages with exceptions to the common header -/

/-- Pages whose EN, SRST, COMMIT and APPLY_MODE read 0 and ignore writes, and whose RUNNING reads 1: DEVICE, EVENTS, MERGE. -/
def ctrlAbsent (pg : Nat) : Bool := pg = 0x000 || pg = 0x001 || pg = 0x042

/-- Pages whose EVT registers read 0: CLOCKS, RESET, FLOW_n, MAP_n. -/
def evtAbsent (pg : Nat) : Bool := pg = 0x002 || pg = 0x003 || (0x032 ≤ pg && decide (pg ≤ 0x041)) || (0x050 ≤ pg && decide (pg ≤ 0x05F))

/-- Pages whose SRST has no effect: their chapters say so. -/
def srstInert (pg : Nat) : Bool :=
  (0x002 ≤ pg && decide (pg ≤ 0x003)) || pg = 0x008 || (0x010 ≤ pg && decide (pg ≤ 0x012)) || (0x061 ≤ pg && decide (pg ≤ 0x068)) || pg = 0x073 ||
    pg = 0x090 || (0x0A1 ≤ pg && decide (pg ≤ 0x0A3)) || (0x0B0 ≤ pg && decide (pg ≤ 0x0B3)) || pg = 0x0B5 ||
    (0x0E0 ≤ pg && decide (pg ≤ 0x0E4)) || (0x0F0 ≤ pg && decide (pg ≤ 0x0F8))

/-- FLIP_ARM acts: bank and DRAM port pages (R321). -/
def flipPage (pg : Nat) : Bool := (0x0D0 ≤ pg && decide (pg ≤ 0x0D7)) || (0x0E0 ≤ pg && decide (pg ≤ 0x0E3))

/-! ### Events of a page (R44, R45) -/

/-- The events of a page. -/
def pageEvents (pg : Nat) : List Ev := E.all.filter (fun e => e.page = pg)

/-- A change of EVT_EN: each vector whose summary rises sends its message, and ALERT_N follows (R45, R46). -/
def Chip.withVectors (c : Chip) (pg : Nat) (f : Chip → Chip) : Chip :=
  let vs := ((pageEvents pg).map (fun e => e.num / 8)).dedup
  let c' := f c
  (vs.foldl (fun x v => if !c.summary v && c'.summary v then x.sendMsix v else x) c').alertFall

/-- EVT_FORCE: each bit written 1 sets its EVT_PEND bit as if the event occurred (R44). -/
def Chip.evtForce (c : Chip) (pg : Nat) (w : Word) : Chip :=
  if evtAbsent pg then c
  else (List.range 32).foldl (fun c b =>
    if w.getLsbD b then
      match (pageEvents pg).find? (fun e => e.bit = b) with
      | some e => c.raise e
      | none => c.wr (pg * 4096 + 0x18) (c.rd (pg * 4096 + 0x18) ||| ((1 : Word) <<< b))
    else c) c

/-- A vector's end of handling: the message is sent again if its summary is 1 (R45). -/
def Chip.vecEoi (c : Chip) (v : Nat) : Chip := if c.summary v then c.sendMsix v else c

/-- The words of the error records cleared (R48). -/
def Chip.errClear (c : Chip) (pg : Nat) (first worst count : Bool) : Chip :=
  let b := pg * 4096
  let c := if first then (c.wr (b + 0x20) 0).wr (b + 0x24) 0 else c
  let c := if worst then (c.wr (b + 0x28) 0).wr (b + 0x2C) 0 else c
  if count then c.wr (b + 0x30) 0 else c

/-! ### Start and stop (R35) -/

/-- A page's block starts: EN is set, or the memory it waited for is filled (R35, R316, R392). DESIGN CHOICE (assumption log 177): the spec gives EN
no meaning on TIME, LAUNCH and STACK, and it has no effect there. -/
def Chip.pageStart (c : Chip) (pg : Nat) : Chip :=
  if pg = 0x022 then (match c.build with | .S => c.latticeEntry | .T => c)
  else if pg = 0x030 || pg = 0x031 then c.cond (evDown (pg - 0x030)) (!c.on (ethF F.ETH_STATUS_LINK (pg - 0x030)))
  else if 0x032 ≤ pg && pg ≤ 0x041 then c.flowStart (pg - 0x032)
  else if pg = 0x060 then { c with map := { c.map with nextBuf := [] } }
  else if pg = 0x070 then c.scanStart
  else if pg = 0x072 then { c with preview := { c.preview with nextBuf := 0 } }
  else if 0x080 ≤ pg && pg ≤ 0x08F then c.portRestart (pg - 0x080)
  else if pg = 0x0A0 then c.tilerxOn
  else if pg = 0x0B4 then c.driveOn
  else if pg = 0x0C0 then c.redunOn
  else c

/-- A page's block stops: EN is cleared (R35 and the chapters). -/
def Chip.pageStop (c : Chip) (pg : Nat) : Chip :=
  if pg = 0x022 then (match c.build with | .S => c.generatorStop.scanWait | .T => c)
  else if pg = 0x030 || pg = 0x031 then c.cond (evDown (pg - 0x030)) false
  else if 0x032 ≤ pg && pg ≤ 0x041 then (c.flowOff (pg - 0x032)).chaseWithdraw (pg - 0x032)
  else if pg = 0x049 then c.dpLost.chaseWithdraw 16
  else if pg = 0x060 then c.mapStop
  else if pg = 0x070 then c.scanStop ssOff
  else if pg = 0x071 then c.engineBStop
  else if pg = 0x072 then { c with preview := { c.preview with busy := false, canvas := none } }.set F.PREVIEW_STATUS_BUSY 0
  else if 0x080 ≤ pg && pg ≤ 0x08F then c.portRestart (pg - 0x080)
  else if pg = 0x0A0 then c.tilerxOff
  else if pg = 0x0B4 then c.driveOff
  else if pg = 0x0C0 then c.redunOff
  else if pg = 0x0C1 then c.setDrop
  else c

/-- The PCIe endpoint's DMA channels reset: transfers end, DONE and ERR stay. -/
def Chip.dmaReset (c : Chip) : Chip :=
  (({ c with host := { c.host with dma0 := DmaSt.init, dma1 := DmaSt.init } }).set F.USB4_DMA_CTRL_BUSY 0).set (F.USB4_DMA_CTRL_BUSY.plus 0x20) 0

/-- The data of a read that no response answers: ones in the bytes asked for. -/
def allOnes (size : Nat) : Nat := 2 ^ (8 * size) - 1

/-- SRST of SRP: no session, no request waiting or in execution; nothing waits for a relay read that a request had asked for (R37). -/
def Chip.srpReset (c : Chip) : Chip :=
  let drop := fun (r : RelayReq) => if r.srp then { r with size := 0 } else r
  { c with host := { c.host with
    sessions := [], srpJob := none, srpQ := [], relayQ := c.host.relayQ.map drop, relayOut := c.host.relayOut.map drop } }

/-- SRST of RELAY: no access is outstanding or queued. DESIGN CHOICE (assumption log 188): a read it discards returns all ones. -/
def Chip.relayReset (c : Chip) : Chip :=
  let reads := (c.host.relayOut.toList ++ c.host.relayQ).filter (fun r => !r.write && decide (0 < r.size))
  let c : Chip := { c with host := { c.host with relayQ := [], relayOut := none } }
  reads.foldl (fun c r =>
    if r.srp then { c with host := { c.host with srpJob := c.host.srpJob.map (fun j => { j with got := j.got ++ [allOnes 4] }) } }
    else c.emit (.readData r.origin (0x400000 + r.addr + r.lane) (allOnes r.size))) c

/-- The datapath of a page returns to its reset state (R37 and the chapters). DESIGN CHOICE (assumption log 178): with EN = 1, SRST of the BAR page
enters the lattice anew. -/
def Chip.pageReset (c : Chip) (pg : Nat) : Chip :=
  if pg = 0x020 then { c with time := { c.time with tsA := [], tsB := [] } }
  else if pg = 0x021 then { c with launchQ := [] }
  else if pg = 0x022 then (match c.build with | .S => let c := c.generatorStop.scanWait; if c.en pg then c.latticeEntry else c | .T => c)
  else if pg = 0x023 then { c with bar := { c.bar with copying := false } }
  else if pg = 0x030 then { c with ctlTxA := none }.set (ethF F.ETH_CTL_TX_CTRL_BUSY 0) 0
  else if pg = 0x031 then { c with ctlTxB := none }.set (ethF F.ETH_CTL_TX_CTRL_BUSY 1) 0
  else if 0x032 ≤ pg && pg ≤ 0x041 then (if c.runs pg then (c.flowStart (pg - 0x032)).chaseWithdraw (pg - 0x032) else c)
  else if pg = 0x048 then c.dmaReset
  else if pg = 0x049 then c.dpLost.chaseWithdraw 16
  else if pg = 0x04A then c.srpReset
  else if pg = 0x060 then c.mapRestart
  else if pg = 0x070 then (if c.runs pg then c.scanStop ssWait else c)
  else if pg = 0x071 then c.engineBReset
  else if pg = 0x072 then { c with preview := PreviewSt.init }.set F.PREVIEW_STATUS_BUSY 0
  else if 0x080 ≤ pg && pg ≤ 0x08F then c.portRestart (pg - 0x080)
  else if pg = 0x091 then c.relayReset
  else if pg = 0x0A0 then c.tilerxReset
  else if pg = 0x0B4 then c.driveReset
  else if pg = 0x0C0 then c.redunReset
  else if pg = 0x0C1 then c.mirrorReset
  else if 0x0D0 ≤ pg && pg ≤ 0x0D7 then c.retireAll (pg - 0x0D0)
  else if pg = 0x0D8 then { c with mem := { c.mem with scrubPos := [], scrubDone := [] } }
  else c

/-- SRST set: the datapath returns to reset, EVT_RAW is cleared and a pending commit discarded; the bit reads 1 until complete. Where SRST has
no effect it only holds its value (R37). -/
def Chip.srst (c : Chip) (pg : Nat) : Chip :=
  if ctrlAbsent pg then c
  else
    let c := c.set (F.SRST.pg pg) 1
    if srstInert pg then c
    else ((c.set (F.COMMIT.pg pg) 0).wr (pg * 4096 + 0x10) 0).pageReset pg

/-! ### Apply points (R38 to R43) -/

/-- The references of R41. -/
inductive PageRef where
  | scan | release | begin | preview | tile | bar
deriving DecidableEq, Repr

/-- The reference of a page (R41). -/
def pageRef (b : Build) (pg : Nat) : PageRef :=
  match b with
  | .S =>
    if pg = 0x070 || pg = 0x071 || pg = 0x073 || pg = 0x022 then .scan
    else if pg = 0x060 then .release
    else if 0x061 ≤ pg && pg ≤ 0x068 then .begin
    else if pg = 0x072 then .preview
    else .bar
  | .T =>
    if (0x0A0 ≤ pg && pg ≤ 0x0A3) || (0x0B0 ≤ pg && pg ≤ 0x0B5) || pg = 0x060 || pg = 0x022 then .tile else .bar

/-- The reference runs (R43). -/
def Chip.refRuns (c : Chip) (r : PageRef) : Bool :=
  match r with
  | .scan => c.counterRuns
  | .release | .begin => c.en 0x060
  | .preview => c.en 0x072
  | .tile => c.en 0x0A0
  | .bar => match c.build with | .S => c.en 0x022 | .T => c.en 0x0A0

/-- The line at which a page of the scan-out reference applies: APPLY_LINE, 0 where it is no line of the beat, or the first blanking line in
CZ5 mode (R41, R42). -/
def Chip.applyLine (c : Chip) (pg : Nat) : Nat :=
  if c.get (F.APPLY_MODE.pg pg) = 1 then c.scan.height
  else
    let l := c.get (F.APPLY_LINE.pg pg)
    if c.scan.height + 16 ≤ l then 0 else l

/-- A register has a shadowed field. -/
def RegDef.shadowed (r : RegDef) : Bool := r.fields.any (fun f => f.cls = .s)

/-- Every shadowed register word of a page goes into use (R38). -/
def Chip.takeShadows (c : Chip) (pg : Nat) : Chip :=
  match findPage c.build pg with
  | none => c
  | some p =>
    let offs := (p.regs.filter (fun r => r.shadowed && (match c.build with | .S => r.inS | .T => r.inT))).flatMap RegDef.offsets
    { c with inUse := offs.foldl (fun m o => smSet m (pg * 4096 + o) (c.rd (pg * 4096 + o))) c.inUse }

/-- A commit of MODE_SEL: while the generator runs, a new mode stops scan-out and enters the new lattice; a reserved index is a host error;
a follower runs in the mode it copies (R86, R108, R183). -/
def Chip.modeCommit (c : Chip) : Chip :=
  let m := c.use F.BAR_MODE_MODE_SEL
  let c := if 24 ≤ m then c.hostError 0x022 else c
  if m = c.mode || (c.follower && c.bar.running && c.bar.copying) then c
  else
    let c := c.set F.BAR_MODE_MODE_IN_USE m
    if c.bar.running then
      let c := ((c.scanModeChange).mapModeChange).latticeEntry
      { c with bar := { c.bar with modeNew := true } }
    else c

/-- Ports whose mode changes restart at TRAIN (CHAINCTL.MODE). -/
def Chip.portModes (c : Chip) (old : List Nat) : Chip :=
  (List.range 16).foldl (fun c p => if old.getD p 0 = c.portMode p then c else c.portRestart p) c

/-- A page's commit is taken: all its shadowed fields go into use together, and COMMIT returns to 0 (R38). -/
def Chip.applyPage (c : Chip) (pg : Nat) : Chip :=
  let old := (List.range 16).map c.portMode
  let c := (c.takeShadows pg).set (F.COMMIT.pg pg) 0
  match c.build with
  | .S =>
    if pg = 0x022 then c.modeCommit
    else if pg = 0x060 then c.tabCommit
    else if pg = 0x073 then c.tileCommit
    else if pg = 0x090 then c.portModes old
    else c
  | .T =>
    if pg = 0x0A1 then (c.setTile { c.tile with tcUse := c.tile.tc }).tempFactors.tileShow
    else if pg = 0x0A3 then c.tileShow
    else if pg = 0x0A2 then c.setTile { c.tile with eotfUse := c.tile.eotf, eotfBad := [] }
    else if pg = 0x0B4 then c.setDrive { c.drive with splUse := c.drive.spl }
    else c

/-- A PAGE_CTRL word with a commit that can be taken: a reset that acts is not in progress, for a commit written with one is registered
when the reset has completed (R37). -/
def ctrlReady (pg : Nat) (w : Word) : Bool := w.getLsbD 8 && !(w.getLsbD 1 && !srstInert pg)

/-- A commit is pending on a page that can take it. -/
def Chip.commitReady (c : Chip) (pg : Nat) : Bool := ctrlReady pg (c.rd (pg * 4096 + 4))

/-- Pages with a commit pending. -/
def Chip.commitPages (c : Chip) : List Nat :=
  ((c.regs.filter (fun (p : Nat × Word) => decide (p.1 % 4096 = 4) && decide (p.1 < 0x400000) && ctrlReady (p.1 / 4096) p.2)).map (fun p => p.1 / 4096))

/-- Commits whose reference is not running are taken: at once, or when the reference stops before the apply point (R43). -/
def Chip.settle (c : Chip) : Chip :=
  c.commitPages.foldl (fun c pg => if c.refRuns (pageRef c.build pg) then c else c.applyPage pg) c

/-- The apply point of a reference: every page whose commit falls at it takes it; BAR is last, for its commit stops the line counter, and with
it the reference of what is still pending. -/
def Chip.applyAt (r : ApplyRef) (c : Chip) : Chip :=
  let due := fun (pg : Nat) => match r, pageRef c.build pg with
    | .scanLine n, .scan => decide (c.applyLine pg = n)
    | .canvasRelease, .release => true
    | .canvasBegin, .begin => true
    | .previewFrame, .preview => true
    | .tileBeat, .tile => true
    | .bar, .bar => true
    | _, _ => false
  let l := c.commitPages.filter due
  ((l.filter (fun pg => pg ≠ 0x022) ++ l.filter (fun pg => pg = 0x022)).foldl (fun c pg => c.applyPage pg) c).settle

/-- SRST completes: the bit reads 0, and a commit registered with it is settled (R37). -/
def Chip.srstDone (c : Chip) (pg : Nat) : Chip := (c.set (F.SRST.pg pg) 0).settle

/-- A memory has been filled: enabled pages that did not run before start; scan-out that runs already from the SRAM canvas goes on (R316, R392). -/
def Chip.startWaiting (c before : Chip) : Chip :=
  ((c.regs.filter (fun (p : Nat × Word) => decide (p.1 % 4096 = 4) && decide (p.1 < 0x400000))).map (fun p => p.1 / 4096)).foldl
    (fun x pg => if c.runs pg && !before.runs pg then x.pageStart pg else x) c

end Sys2Proof.Machine
end

