-- ==== Sys2Proof/Machine/WindowOps.lean ====
section
/-! DEFINITION. Registers whose reads are computed from the state, and the windows that reach tables through an index register: what a read returns and does, and what a write does (R79, R84, R171, R216, R231, R232, R249, R259, R266, R270, R319, R383). -/

namespace Sys2Proof.Machine

/-! ### Windows -/

/-- An index field advanced by one where its AUTO_INC is set. -/
def Chip.autoInc (c : Chip) (auto idx : Fld) : Chip := if c.on auto then c.bump idx else c

/-- CAL_ADDR [3:0]: SET and LANE as one value. -/
def calIdx (p : Nat) : Fld := ({ addr := F.PORT_CAL_ADDR_SET.addr, hi := 3, lo := 0 } : Fld).pg p

/-- The set at CAL_ADDR; lane 3 reads 0 (PORT.CAL_DATA). -/
def Chip.calRead (c : Chip) (p : Nat) : Word :=
  let k := c.get (calIdx p)
  if k % 4 = 3 then 0 else smGet 0 (c.port p).cal k

def Chip.calAdvance (c : Chip) (p : Nat) : Chip := c.autoInc (F.PORT_CAL_ADDR_AUTO_INC.pg p) (calIdx p)

/-- A CAL_DATA write. -/
def Chip.calWrite (c : Chip) (p : Nat) (w : Word) : Chip :=
  let k := c.get (calIdx p)
  let c := if k % 4 = 3 then c else c.setPort p { c.port p with cal := smSet (c.port p).cal k w }
  c.calAdvance p

/-- CORRECT.TC_DATA: 48 entries, reset 16,384 (R231). -/
def Chip.tcRead (c : Chip) : Word :=
  let k := c.get F.CORRECT_TC_ADDR_INDEX
  if 48 ≤ k then 0 else BitVec.ofNat 32 (smGet 16384 (if c.on F.CORRECT_TC_ADDR_IN_USE then c.tile.tcUse else c.tile.tc) k)

def Chip.tcAdvance (c : Chip) : Chip := c.autoInc F.CORRECT_TC_ADDR_AUTO_INC F.CORRECT_TC_ADDR_INDEX

def Chip.tcWrite (c : Chip) (w : Word) : Chip :=
  let k := c.get F.CORRECT_TC_ADDR_INDEX
  let c := if 48 ≤ k then c else c.setTile { c.tile with tc := smSet c.tile.tc k (bitsOf w 15 0) }
  c.tcAdvance

/-- EOTF.TAB_DATA: 3,072 entries; the table in use is that of engine 0 (R232). -/
def Chip.eotfRead (c : Chip) : Word :=
  let k := c.get F.EOTF_TAB_ADDR_INDEX
  if 3072 ≤ k then 0
  else if c.on F.EOTF_TAB_ADDR_IN_USE then (if smGet false c.tile.eotfBad k then 0 else BitVec.ofNat 32 (smGet 0 c.tile.eotfUse k))
  else BitVec.ofNat 32 (smGet 0 c.tile.eotf k)

def Chip.eotfAdvance (c : Chip) : Chip := c.autoInc F.EOTF_TAB_ADDR_AUTO_INC F.EOTF_TAB_ADDR_INDEX

def Chip.eotfWrite (c : Chip) (w : Word) : Chip :=
  let k := c.get F.EOTF_TAB_ADDR_INDEX
  let c := if 3072 ≤ k then c else c.setTile { c.tile with eotf := smSet c.tile.eotf k (bitsOf w 19 0) }
  c.eotfAdvance

/-- CURVE_ADDR [5:0]: COLOUR and POINT as one value. -/
def curveIdx : Fld := { addr := F.DOSE_CURVE_ADDR_COLOUR.addr, hi := 5, lo := 0 }

def Chip.curveAdvance (c : Chip) : Chip := c.autoInc F.DOSE_CURVE_ADDR_AUTO_INC curveIdx

/-- A write of an ageing curve point: its dose, or its luminance, after which the index advances (R249). -/
def Chip.curveWrite (c : Chip) (lum : Bool) (w : Word) : Chip :=
  let k := c.get curveIdx
  let ok := decide (k < 48)
  if lum then (if ok then c.setTile { c.tile with curveLum := smSet c.tile.curveLum k (bitsOf w 15 0) } else c).curveAdvance
  else if ok then c.setTile { c.tile with curveDose := smSet c.tile.curveDose k w.toNat } else c

/-- DRIVECTL.SPL_DATA: COLOUR and ENTRY as one 8-bit index (R259). -/
def splIdx : Fld := { addr := F.DRIVECTL_SPL_ADDR_COLOUR.addr, hi := 7, lo := 0 }

def Chip.splRead (c : Chip) : Word :=
  let k := c.get splIdx
  if 192 ≤ k then 0 else BitVec.ofNat 32 (smGet (16 * (k % 64)) (if c.on F.DRIVECTL_SPL_ADDR_IN_USE then c.drive.splUse else c.drive.spl) k)

def Chip.splAdvance (c : Chip) : Chip := c.autoInc F.DRIVECTL_SPL_ADDR_AUTO_INC splIdx

/-- A value written acts as 2,047 where it is above (R259; assumption log 153). -/
def Chip.splWrite (c : Chip) (w : Word) : Chip :=
  let k := c.get splIdx
  let c := if 192 ≤ k then c else c.setDrive { c.drive with spl := smSet c.drive.spl k (splValue w.toNat) }
  c.splAdvance

/-- BAND.TRIM_DATA: the code of a channel in a set, or in use (R266). -/
def Chip.trimRead (c : Chip) (n : Nat) : Word :=
  let ch := c.get (F.BAND_TRIM_ADDR_CH.pg n)
  if 576 ≤ ch then 0
  else if c.on (F.BAND_TRIM_ADDR_IN_USE.pg n) then BitVec.ofNat 32 (unsign 6 (c.trimCode n ch))
  else BitVec.ofNat 32 (smGet 0 c.drive.trim (trimKey n (c.get (F.BAND_TRIM_ADDR_SET.pg n)) ch) % 64)

def Chip.trimAdvance (c : Chip) (n : Nat) : Chip :=
  if c.on (F.BAND_TRIM_ADDR_AUTO_INC.pg n) then
    let ch := c.get (F.BAND_TRIM_ADDR_CH.pg n)
    c.set (F.BAND_TRIM_ADDR_CH.pg n) (if ch = 575 then 0 else ch + 1)
  else c

def Chip.trimWrite (c : Chip) (n : Nat) (w : Word) : Chip :=
  let ch := c.get (F.BAND_TRIM_ADDR_CH.pg n)
  let c := if 576 ≤ ch || c.on (F.BAND_TRIM_ADDR_IN_USE.pg n) then c
    else c.setDrive { c.drive with trim := smSet c.drive.trim (trimKey n (c.get (F.BAND_TRIM_ADDR_SET.pg n)) ch) (bitsOf w 5 0), trimDirty := true }
  c.trimAdvance n

/-- DIAG.TAB_DATA: the entry of emitter E (R270). -/
def Chip.diagRead (c : Chip) : Word :=
  let e := c.get F.DIAG_TAB_ADDR_E
  if 147456 ≤ e then 0
  else
    let x := c.diagEnt e
    let l := e / 3
    let forced := smGet false c.drive.force e || smGet false c.drive.chForce (576 * c.lampBand l + 3 * c.lampCol l + e % 3)
    BitVec.ofNat 32 (x.st % 8 * 2 ^ 29 + b2n (forced && decide (l < c.lamps)) * 2 ^ 28 + x.run % 4 * 2 ^ 26 + x.pend % 8 * 2 ^ 23 + c.diagAge e)

def Chip.diagAdvance (c : Chip) : Chip := c.autoInc F.DIAG_TAB_ADDR_AUTO_INC F.DIAG_TAB_ADDR_E

/-- ECC.DREMAP_DATA: the entry at DREMAP_ADDR, with COPYING (R319). -/
def Chip.dremapPort (c : Chip) : Nat × Nat := (c.get F.ECC_DREMAP_ADDR_PORT, c.get F.ECC_DREMAP_ADDR_ENTRY)

def Chip.dremapRead (c : Chip) : Word :=
  let k := c.dremapPort
  let w := c.dremap k.1 k.2
  if smGet false c.mem.remapCopy (dremapAddr k.1 k.2) then w ||| ((1 : Word) <<< 30) else w

/-! ### Computed reads -/

/-- Word 1 of the oldest timestamp of a path, 0 of an empty FIFO (R84). -/
def Chip.tsWord (c : Chip) (path word : Nat) : Word :=
  match c.tsFifo path with
  | [] => 0
  | t :: _ => BitVec.ofNat 32 (if word = 0 then t.ns else t.word1)

/-- PAGE_STAT.RUNNING: the block is enabled and its datapath active; ports and DRAM ports show their own, pages without a datapath read 1. -/
def Chip.runningView (c : Chip) (pg : Nat) : Bool :=
  if ctrlAbsent pg then true
  else if (0x080 ≤ pg && pg ≤ 0x08F) || (0x0E0 ≤ pg && pg ≤ 0x0E3) then c.on (F.RUNNING.pg pg)
  else c.runs pg

/-- PAGE_STAT.BUSY: the block has work in flight. -/
def Chip.busyView (c : Chip) (pg : Nat) : Bool :=
  if pg = 0x021 then !c.launchQ.isEmpty
  else if pg = 0x030 then c.ctlTxA.isSome
  else if pg = 0x031 then c.ctlTxB.isSome
  else if 0x032 ≤ pg && pg ≤ 0x041 then (c.flow (pg - 0x032)).writing
  else if pg = 0x048 then c.host.dma0.busy || c.host.dma1.busy
  else if pg = 0x04A then c.host.srpJob.isSome
  else if 0x050 ≤ pg && pg ≤ 0x05F then (smFind c.map.engines (pg - 0x050)).isSome
  else if pg = 0x060 then c.map.canvases.any (fun x => x.begun)
  else if pg = 0x070 then !c.scan.jobs.isEmpty
  else if pg = 0x072 then c.preview.busy
  else if 0x080 ≤ pg && pg ≤ 0x08F then (c.port (pg - 0x080)).recal.isSome
  else if pg = 0x091 then c.host.relayOut.isSome || !c.host.relayQ.isEmpty
  else if pg = 0x0A0 then c.tile.images.any (fun x => decide (x.phase < 2))
  else if pg = 0x0B4 then c.drive.fade.isSome
  else if pg = 0x0B5 then c.drive.clear
  else if pg = 0x0C1 then c.mirror.sending.isSome || c.mirror.applying.isSome || c.mirror.rxNum.isSome
  else if 0x0D0 ≤ pg && pg ≤ 0x0D7 then !(c.bank (pg - 0x0D0)).merge.isEmpty || c.on (F.BANK_OWNER_HANDOVER.pg (pg - 0x0D0))
  else if 0x0E0 ≤ pg && pg ≤ 0x0E3 then c.on (F.DRAM_TRAIN_BUSY.pg (pg - 0x0E0))
  else if pg = 0x0F0 then c.state updPage = usErasing || c.state updPage = usVerifying || c.on F.UPDATE_STATUS_BLOCK_BUSY || c.on F.UPDATE_STATUS_BULK_BUSY
  else if pg = 0x0F1 then c.on F.SETTINGS_STATUS_SAVING
  else false

/-- PAGE_STAT of a page. -/
def Chip.pageStat (c : Chip) (pg : Nat) : Word :=
  let w := c.rd (pg * 4096 + 0x08)
  let w := insBits w 0 0 (b2n (c.runningView pg))
  let w := insBits w 1 1 (b2n (c.busyView pg))
  insBits w 2 2 (b2n (c.commitReady pg))

/-- PAGE_CTRL of a page: a commit written with a reset is registered when the reset has completed (R37). -/
def Chip.pageCtrl (c : Chip) (pg : Nat) : Word := insBits (c.rd (pg * 4096 + 0x04)) 8 8 (b2n (c.commitReady pg))

/-- GLOBAL_ACT word k: EVT_PEND AND EVT_EN of events 32k to 32k + 31. -/
def Chip.globalAct (c : Chip) (k : Nat) : Word :=
  BitVec.ofNat 32 ((E.all.map (fun e => if e.num / 32 = k && c.pend e && c.evEn e then 2 ^ (e.num % 32) else 0)).sum)

def Chip.vecSummary (c : Chip) : Word := BitVec.ofNat 32 (((List.range 32).map (fun v => if c.summary v then 2 ^ v else 0)).sum)

/-- Writes in the relay's queue (R72). -/
def Chip.relayWrites (c : Chip) : Nat := (c.host.relayQ.filter (fun r => r.write)).length

/-- The value a register has at present for a reading path: stored, or computed from the state. -/
def Chip.presentWord (c : Chip) (o : Origin) (addr : Nat) : Word :=
  let pg := addr / 4096
  let off := addr % 4096
  let w := c.rd addr
  if off < 0x40 then
    if off = 0x04 then c.pageCtrl pg
    else if off = 0x08 then c.pageStat pg
    else if evtAbsent pg && 0x10 ≤ off && off ≤ 0x1C then 0
    else w
  else if addr = F.DEVICE_ORIGIN_CODE.addr then BitVec.ofNat 32 o.code
  else if pg = 0x001 then
    if off ≤ 0x5C then c.globalAct ((off - 0x40) / 4) else if off = 0x64 then c.vecSummary else w
  else if pg = 0x008 then (if addr = F.BELFRY_UPTIME_S.addr then BitVec.ofNat 32 c.uptime else w)
  else if pg = 0x020 then
    if off = 0x40 then BitVec.ofNat 32 c.timeNs
    else if off = 0x44 then BitVec.ofNat 32 c.wraps
    else if off = 0x54 then insBits (insBits w 4 0 c.time.tsA.length) 12 8 c.time.tsB.length
    else if off = 0x58 then c.tsWord 0 0
    else if off = 0x5C then c.tsWord 0 1
    else if off = 0x60 then c.tsWord 1 0
    else if off = 0x64 then c.tsWord 1 1
    else w
  else if addr = F.STACK_STATUS_LOCK.addr then
    if c.isMaster then insBits (insBits (insBits w 31 31 1) 30 30 1) 23 0 0 else insBits w 30 30 0
  else if addr = F.LAUNCH_STATUS_COUNT.addr then insBits w 22 16 c.launchQ.length
  else if addr = F.LAUNCH_NEXT_TIME_TIME.addr then BitVec.ofNat 32 c.launchNext
  else if addr = F.MAPCTL_TAB_DATA_DATA.addr then c.tabRead.1
  else if addr = F.TILETAB_DATA_DATA.addr then c.tiletabRead.1
  else if 0x080 ≤ pg && pg ≤ 0x08F then
    let p := pg - 0x080
    if off = 0x7C then c.calRead p
    else if off = 0x80 then (if c.get (calIdx p) % 4 = 3 then 0 else smGet 0 (c.port p).calUse (c.get (calIdx p) % 4))
    else w
  else if addr = F.RELAY_STATUS_WR_PENDING.addr then
    insBits w 12 8 c.relayWrites
  else if addr = F.CORRECT_TC_DATA_TG.addr then c.tcRead
  else if addr = F.EOTF_TAB_DATA_LIN.addr then c.eotfRead
  else if addr = F.DOSE_CURVE_DOSE_DOSE.addr then BitVec.ofNat 32 (smGet 0 c.tile.curveDose (c.get curveIdx))
  else if addr = F.DOSE_CURVE_LUM_LUM.addr then BitVec.ofNat 32 (smGet 0 c.tile.curveLum (c.get curveIdx))
  else if 0x0B0 ≤ pg && pg ≤ 0x0B3 then
    let n := pg - 0x0B0
    if off = 0x58 then c.trimRead n
    else if off = 0x60 then
      let ch := c.get (F.BAND_TRIM_ADDR_CH.pg n)
      if 576 ≤ ch then 0 else BitVec.ofNat 32 (smGet 0 c.drive.resid (576 * n + ch) % 256)
    else w
  else if addr = F.DRIVECTL_SPL_DATA_Y.addr then c.splRead
  else if pg = 0x0B5 then
    if addr = F.DIAG_TAB_DATA_STATE.addr then c.diagRead
    else if addr = F.DIAG_OPEN_COUNT.addr then BitVec.ofNat 32 (c.diagCount dgOpen)
    else if addr = F.DIAG_LAMP_SHORT_COUNT.addr then BitVec.ofNat 32 (c.diagCount dgShort)
    else if addr = F.DIAG_NEIGHBOUR_COUNT.addr then BitVec.ofNat 32 c.diagPairs
    else if addr = F.DIAG_UNTESTED_COUNT.addr then BitVec.ofNat 32 (c.diagCount dgUntested)
    else if addr = F.DIAG_OLDEST_AGE.addr then BitVec.ofNat 32 c.diagOldest
    else w
  else if addr = F.MIRROR_STATUS_AGE_MS.addr then insBits w 15 0 c.mirrorAge
  else if addr = F.ECC_EVQ_LEVEL.addr then insBits w 6 0 (c.evq.length + b2n c.evqExtra.isSome)
  else if addr = F.ECC_DREMAP_DATA_VALID.addr then c.dremapRead
  else if addr = F.UPDATE_CONFIRM_LEFT.addr then insBits w 31 16 c.trialLeft
  else if addr = F.SETTINGS_LIST_DATA_ADDR.addr then c.listRead.1
  else w

/-- What a read changes: windows advance, and a read of TS word 0 removes the entry (R84). -/
def Chip.readEffect (c : Chip) (addr : Nat) : Chip :=
  let pg := addr / 4096
  if addr = F.TIME_TS_A_NS.addr then c.setTsFifo 0 ((c.tsFifo 0).drop 1)
  else if addr = F.TIME_TS_B_NS.addr then c.setTsFifo 1 ((c.tsFifo 1).drop 1)
  else if addr = F.MAPCTL_TAB_DATA_DATA.addr then c.tabRead.2
  else if addr = F.TILETAB_DATA_DATA.addr then c.tiletabRead.2
  else if 0x080 ≤ pg && pg ≤ 0x08F && addr % 4096 = 0x7C then c.calAdvance (pg - 0x080)
  else if addr = F.CORRECT_TC_DATA_TG.addr then c.tcAdvance
  else if addr = F.EOTF_TAB_DATA_LIN.addr then c.eotfAdvance
  else if addr = F.DOSE_CURVE_LUM_LUM.addr then c.curveAdvance
  else if 0x0B0 ≤ pg && pg ≤ 0x0B3 && addr % 4096 = 0x58 then c.trimAdvance (pg - 0x0B0)
  else if addr = F.DRIVECTL_SPL_DATA_Y.addr then c.splAdvance
  else if addr = F.DIAG_TAB_DATA_STATE.addr then c.diagAdvance
  else if addr = F.SETTINGS_LIST_DATA_ADDR.addr then c.listRead.2
  else c

/-! ### Wide values (R79) -/

/-- The upper words of the wide value whose lowest word stands at an address. DESIGN CHOICE (assumption log 118): the two-word error records
and LOG.READ_DATA_0 to 7 are not values wider than 32 bits but registers read one by one, and are not latched. -/
def wideUppers (addr : Nat) : List Nat :=
  let pg := addr / 4096
  let off := addr % 4096
  if addr = F.DEVICE_UID_LO_UID_LO.addr || addr = F.TIME_NS_NS.addr || addr = F.TIME_TS_A_NS.addr || addr = F.TIME_TS_B_NS.addr ||
      addr = F.ETH_MAC_LO_MAC_LO.addr || addr = F.ETH_MAC_LO_MAC_LO.addr + 4096 || addr = F.USB4_DMA_HOST_LO.addr ||
      addr = F.USB4_DMA_HOST_LO.addr + 0x20 || addr = F.PREVIEW_HOST_LO_HOST_LO.addr || addr = F.TILERX_HOLD_VALID_LO_LO.addr then [addr + 4]
  else if 0x080 ≤ pg && pg ≤ 0x08F && (off = 0x8C || off = 0xA0 || off = 0xA8 || off = 0xB0) then [addr + 4]
  else if flipPage pg && off = 0x60 then [addr + 4, addr + 8, addr + 12, addr + 16]
  else if addr = F.ECC_SPLIT_DATA_DATA.addr then [addr + 4, addr + 8, addr + 12]
  else []

/-- The key of a path's latch of a word. -/
def latchKey (o : Origin) (addr : Nat) : Nat := o.code * 2 ^ 24 + addr

/-- A read of a register word by a path: its latched value if it has one, else the present value; the lowest word of a wide value latches the
upper words; a page that a host error has made unpredictable shows open values in its read-only live fields (R35, R79). -/
def Chip.readReg (c : Chip) (o : Origin) (addr : Nat) : Word × Chip :=
  let c := if addr / 4096 ∈ c.unpredictable then c.scramble (addr / 4096) else c
  let v := match smFind c.host.latches (latchKey o addr) with
    | some n => BitVec.ofNat 32 n
    | none => c.presentWord o addr
  let latches := (wideUppers addr).foldl (fun m a => smSet m (latchKey o a) (c.presentWord o a).toNat) c.host.latches
  let c := { c with host := { c.host with latches := latches } }
  (v, c.readEffect addr)

end Sys2Proof.Machine
end

