-- ==== Sys2Proof/Machine/Bus.lean ====
section
/-! DEFINITION. Register accesses: decoding of an address, the classes of fields, commands, change records, the relay window and the SRAM window (R29 to R36, R51 to R54, R61, R72 to R74, R77). -/

namespace Sys2Proof.Machine

/-! ### The relay window of a sender (R72 to R74) -/

/-- The broadcast target. -/
def relayAll : Nat := 0x1FFF

/-- A relay access ends with a result: LAST_RESULT, and for results 1 to 4 FAIL_COUNT and an event. -/
def Chip.relayResult (c : Chip) (r : Nat) : Chip :=
  let c := c.set F.RELAY_STATUS_LAST_RESULT r
  if r = 0 then c
  else (c.bumpSat F.RELAY_FAIL_COUNT_COUNT).raise (if r = 1 then E.RELAY_TIMEOUT else E.RELAY_ERROR)

/-- The port on which a tile's chain starts: ID [12:10] is the stack position, [9:6] the port. -/
def tilePortOf (id : Nat) : Nat := id / 64 % 16

/-- A target that R73 calls unreachable: another stack position, or a port that is no tile port. -/
def Chip.unreachable (c : Chip) (id : Nat) : Bool := id / 1024 % 8 ≠ c.stackPos || !c.tilePort (tilePortOf id)

/-- The MGMT request of a relay access (R200). -/
def Chip.relayCell (c : Chip) (r : RelayReq) : Nat := mkMgmt r.target (if r.write then 1 else 0) false r.tag r.addr r.data c.actBit

/-- Waiting relay accesses leave while none is outstanding: a broadcast write completes when sent, any other access waits for its response
(R72, R73). -/
def Chip.relayGo : Nat → Chip → Chip
  | 0, c => c
  | n + 1, c =>
    if c.host.relayOut.isSome || !c.belfryUp then c
    else match c.host.relayQ with
      | [] => c
      | r :: q =>
        let r := { r with tag := c.host.relayTag }
        let c := { c with host := { c.host with relayQ := q, relayTag := (c.host.relayTag + 1) % 65536 } }
        if r.target = relayAll then
          relayGo n ((c.chains.foldl (fun c p => c.sendChain p (c.relayCell r)) c).relayResult 0)
        else
          let c := c.sendChain (c.seqPort (tilePortOf r.target)) (c.relayCell r)
          { c with host := { c.host with relayOut := some r } }

def Chip.relayNext (c : Chip) : Chip := Chip.relayGo (c.host.relayQ.length) c

/-- The relay's queue of 16 writes is full (R72). -/
def Chip.relayFull (c : Chip) : Bool := decide (c.build = .S) && decide (16 ≤ c.relayWrites)

/-- A write of the relay window: queued with its target, or discarded where it is unreachable (R72 to R74). -/
def Chip.relayWrite (c : Chip) (o : Origin) (t addr : Nat) (w : Word) : Chip :=
  if t ≠ relayAll && c.unreachable t then c.relayResult 2
  else
    let r : RelayReq := { target := t, addr := addr % 2 ^ 22, data := w.toNat, write := true, lane := 0, size := 4, origin := o, tag := 0, srp := false }
    let c : Chip := { c with host := { c.host with relayQ := c.host.relayQ ++ [r] } }
    c.relayNext

/-- A read of `size` bytes from byte `lane` of a word of the relay window: all ones at once from an unreachable or the broadcast target; else it waits for the response (R72, R73). -/
def Chip.relayRead (c : Chip) (o : Origin) (t addr lane size : Nat) (srp : Bool) : Option Word × Chip :=
  if t = relayAll then (some 0xFFFFFFFF, c.relayResult 3)
  else if c.unreachable t then (some 0xFFFFFFFF, c.relayResult 2)
  else
    let r : RelayReq := { target := t, addr := addr % 2 ^ 22, data := 0, write := false, lane := lane, size := size, origin := o, tag := 0, srp := srp }
    let c : Chip := { c with host := { c.host with relayQ := c.host.relayQ ++ [r] } }
    (none, c.relayNext)

/-! ### DMA (R61) -/

/-- The channel's state. -/
def Chip.dma (c : Chip) (n : Nat) : DmaSt := if n = 0 then c.host.dma0 else c.host.dma1
def Chip.setDma (c : Chip) (n : Nat) (d : DmaSt) : Chip :=
  { c with host := if n = 0 then { c.host with dma0 := d } else { c.host with dma1 := d } }

/-- A register field of a DMA channel. -/
def dmaF (f : Fld) (n : Nat) : Fld := f.plus (0x20 * n)

/-- ERR with its code, and the event (R61). -/
def Chip.dmaErr (c : Chip) (n code : Nat) : Chip :=
  ((c.set (dmaF F.USB4_DMA_CTRL_ERR n) 1).set (dmaF F.USB4_DMA_CTRL_ERR_CODE n) code).raise E.DMA_ERR

/-- START: while busy ignored with code 1, a range past DRAM or the window code 2, length 0 done at once; else the transfer runs (R61).
DESIGN CHOICE (assumption log 119): the range is tested before the length, so a transfer of length 0 past the end sets code 2. -/
def Chip.dmaStart (c : Chip) (n : Nat) : Chip :=
  if (c.dma n).busy then c.dmaErr n 1
  else
    let sram := c.on (dmaF F.USB4_DMA_CTRL_SPACE n)
    let dev := c.get (dmaF F.USB4_DMA_DEV n) * 16
    let len := c.get (dmaF F.USB4_DMA_LEN n) * 16
    let top := if sram then 2 ^ 23 else c.capacity
    if top < dev + len then c.dmaErr n 2
    else if len = 0 then (c.set (dmaF F.USB4_DMA_CTRL_DONE n) 1).raise E.DMA_DONE
    else
      let host := c.get (dmaF F.USB4_DMA_HOST_LO n) / 16 * 16 + c.get (dmaF F.USB4_DMA_HOST_HI n) * 2 ^ 32
      let d : DmaSt := { busy := true, toHost := c.on (dmaF F.USB4_DMA_CTRL_DIR n), sram := sram, host := host, dev := dev, len := len }
      (c.setDma n d).set (dmaF F.USB4_DMA_CTRL_BUSY n) 1

/-! ### Writes by class -/

/-- The bits of a field in a word. -/
def FieldDef.mask (f : FieldDef) : Word := BitVec.ofNat 32 ((2 ^ (f.hi + 1 - f.lo) - 1) * 2 ^ f.lo)

/-- The word a register holds after a write: RW fields take the value, W1C bits written 1 clear, the others keep theirs (R32 to R36). -/
def RegDef.store (d : RegDef) (old w : Word) : Word :=
  d.fields.foldl (fun a f =>
    let m := f.mask
    match f.acc, f.cls with
    | _, .c => a
    | .rw, _ => (a &&& ~~~m) ||| (w &&& m)
    | .w1c, _ => a &&& ~~~(w &&& m)
    | .w1cAll, _ => if w &&& m = 0 then a else a &&& ~~~m
    | _, _ => a) old

/-- A quiesce field changes. -/
def RegDef.quiesceChange (d : RegDef) (old w : Word) : Bool :=
  d.fields.any (fun f => f.acc = .rw && f.cls = .q && decide (old &&& f.mask ≠ w &&& f.mask))

/-- A W1S command bit is written 1. -/
def RegDef.commandBit (d : RegDef) (w : Word) : Bool := d.fields.any (fun f => f.acc = .w1s && decide (w &&& f.mask ≠ 0))

/-- Registers whose write goes to a table or an operation and stores no word of its own. -/
def unstored (addr : Nat) : Bool :=
  let pg := addr / 4096
  let off := addr % 4096
  addr = F.MAPCTL_TAB_DATA_DATA.addr || addr = F.TILETAB_DATA_DATA.addr || addr = F.CORRECT_TC_DATA_TG.addr || addr = F.EOTF_TAB_DATA_LIN.addr ||
    addr = F.DOSE_CURVE_DOSE_DOSE.addr || addr = F.DOSE_CURVE_LUM_LUM.addr || addr = F.DRIVECTL_SPL_DATA_Y.addr ||
    addr = F.SETTINGS_LIST_DATA_ADDR.addr || addr = F.ECC_DREMAP_DATA_VALID.addr || addr = F.THERMAL_MASK_MASK.addr ||
    (0x080 ≤ pg && decide (pg ≤ 0x08F) && off = 0x7C) || (0x0B0 ≤ pg && decide (pg ≤ 0x0B3) && off = 0x58) ||
    (0x0D0 ≤ pg && decide (pg ≤ 0x0D7) && (off = 0x40 || (0x80 ≤ off && decide (off ≤ 0x9C))))

/-- DEBUG.CTRL: UNLOCK is written from BELFRY and JTAG only (R368). -/
def Chip.debugWrite (c : Chip) (o : Origin) (w : Word) : Chip :=
  let c := c.set F.DEBUG_CTRL_WDOG_HOLD (bitsOf w 30 30)
  if o = .belfry || o = .jtag then c.setUnlock (w.getLsbD 31) else c

/-- The commands of UPDATE.CMD, lowest bit first (R376 to R382). -/
def Chip.updateCmd (c : Chip) (w : Word) : Chip :=
  let run := fun (b : Nat) (f : Chip → Chip) (c : Chip) => if w.getLsbD b then f c else c
  run 6 Chip.bulkSend (run 5 Chip.updWrite (run 4 Chip.updConfirm (run 3 Chip.updActivate (run 2 Chip.updVerify (run 1 Chip.updAbort
    (run 0 Chip.updOpen c))))))

/-- What a write of a port's register does beside storing its fields. -/
def Chip.portEffect (c : Chip) (p off : Nat) (old w : Word) : Chip :=
  if off = 0x70 then (if w.getLsbD 31 then c.recalStart p else c)
  else if off = 0x74 then
    let s := c.port p
    let mark := fun (l : LaneSt) => { l with restore := l.restore || l.retired }
    let c := if w.getLsbD 8 then c.setPort p { s with lane0 := mark s.lane0, lane1 := mark s.lane1, lane2 := mark s.lane2 } else c
    let l := bitsOf w 1 0
    if l = 0 then c else c.retireLane c.identity p (l - 1)
  else if off = 0x7C then c.calWrite p w
  else if off = 0x88 then
    let c := if bitsOf old 18 16 ≠ bitsOf w 18 16 || bitsOf old 2 0 ≠ bitsOf w 2 0 then c.testOff p else c
    let c := if w.getLsbD 8 then
        [0, 1, 2].foldl (fun c l => (c.set ((F.PORT_TEST_ERR_ERR_LO.pg p).plus (8 * l)) 0).set ((F.PORT_TEST_ERR1_ERR_HI.pg p).plus (8 * l)) 0) c
      else c
    if bitsOf old 14 12 ≠ bitsOf w 14 12 || bitsOf old 2 0 ≠ bitsOf w 2 0 then
      c.showPatterns p ([0, 1, 2].map (fun l => bitsOf old (12 + l) (12 + l))) else c
  else if (off = 0x8C || off = 0x90) && old ≠ w then c.showPatterns p []
  else if off = 0x94 then (if w.getLsbD 31 then (c.set (F.PORT_INJECT_ONCE.pg p) 1).injectPattern p else c)
  else c

/-- What a write of a register does beside storing its fields, page by page. -/
def Chip.writeEffect (c : Chip) (o : Origin) (addr : Nat) (old w : Word) : Chip :=
  let pg := addr / 4096
  let off := addr % 4096
  if addr = F.DEVICE_BAD_ADDR_VALID.addr then (if w.getLsbD 31 then c.wr addr 0 else c)
  else if pg = 0x001 then
    if off ≤ 0x5C then
      (E.all.filter (fun e => decide (e.num / 32 = (off - 0x40) / 4) && w.getLsbD (e.num % 32))).foldl (fun c e =>
        if c.hasPage e.page then c.wr (e.page * 4096 + 0x18) (c.rd (e.page * 4096 + 0x18) &&& ~~~((1 : Word) <<< e.bit)) else c) c
    else if off = 0x60 then c.vecEoi (bitsOf w 4 0)
    else if off = 0x68 then c.alertFall
    else c
  else if addr = F.RESET_SERVICE_PWM8.addr then c.fullService
  else if addr = F.RESET_CMD_DEVICE.addr then (if w.getLsbD 0 then c.deviceReset 3 0 else c)
  else if addr = F.BELFRY_CMD_RESTART.addr then (if w.getLsbD 0 then c.belfryDown 3 else c)
  else if addr = F.BELFRY_KICK_KICK.addr then
    (if o = .belfry || o = .jtag then
      let r := c.openValue 16
      if r.1 < c.get F.BELFRY_WDOG_OPEN then r.2.dogRestart else r.2
    else c)
  else if addr = F.THERMAL_MASK_MASK.addr then c.maskWrite (bitsOf w 19 0)
  else if addr = F.THERMAL_THROTTLE_CFG_T_WARN.addr then c.judgeWarn
  else if addr = F.TIME_INC_INC.addr then c.timeIncSet w
  else if addr = F.TIME_ADJ_ADJ.addr then c.timeStep w
  else if addr = F.TIME_TS_CTRL_FLUSH.addr then
    (if w.getLsbD 8 then { c with time := { c.time with tsA := [], tsB := [] } } else c)
  else if addr = F.BAR_SRC_SRC.addr then (match c.build with | .S => c.showBarLock | .T => c)
  else if addr = F.LAUNCH_PUSH_KIND.addr then c.launchPush w
  else if addr = F.LAUNCH_CANCEL_ALL.addr then c.launchCancel w
  else if pg = 0x030 || pg = 0x031 then
    if off = 0x94 then (if w.getLsbD 0 then c.ctlTxStart (pg - 0x030) else c)
    else if off = 0x8C then (if c.ringSlots (pg - 0x030) ≤ bitsOf w 11 0 then c.setOpen (ethF F.ETH_CTL_RX_HEAD_HEAD (pg - 0x030)) else c)
    else c
  else if pg = 0x048 then
    if off = 0x90 || off = 0xB0 then
      let n := (off - 0x90) / 0x20
      let c := if c.on (dmaF F.USB4_DMA_CTRL_ERR n) then c else c.set (dmaF F.USB4_DMA_CTRL_ERR_CODE n) 0
      if w.getLsbD 0 then c.dmaStart n else c
    else if 0x800 ≤ off && off ≤ 0x9FF && off % 16 = 12 then
      let v := (off - 0x800) / 16
      if old.getLsbD 0 && !w.getLsbD 0 then
        let c := c.wr F.USB4_PBA.addr (c.rd F.USB4_PBA.addr &&& ~~~((1 : Word) <<< v))
        if c.summary v then c.sendMsix v else c
      else c
    else c
  else if addr = F.MAPCTL_TAB_DATA_DATA.addr then c.tabWrite w
  else if addr = F.MAPCTL_LEAD_MIN_CLR.addr then (if w.getLsbD 31 then c.set F.MAPCTL_LEAD_MIN_LINES 0x7FFF else c)
  else if pg = 0x070 && 0xC0 ≤ off && off ≤ 0xFC then
    (if w.getLsbD 31 then c.set (F.SCAN_PORT_MARGIN_US.plus (off - 0xC0)) 0x7FFF else c)
  else if addr = F.TILETAB_DATA_DATA.addr then c.tiletabWrite w
  else if 0x080 ≤ pg && pg ≤ 0x08F then c.portEffect (pg - 0x080) off old w
  else if addr = F.CHAINCTL_MON_TAIL_TAIL.addr then
    (if max 16 (min 4096 (c.get F.CHAINCTL_MON_SLOTS_SLOTS)) ≤ bitsOf w 11 0 then c.setOpen F.CHAINCTL_MON_HEAD_HEAD else c)
  else if addr = F.TILERX_MARGIN_MIN_CLR.addr then (if w.getLsbD 31 then c.set F.TILERX_MARGIN_MIN_US 0x7FFF else c)
  else if addr = F.CORRECT_TC_DATA_TG.addr then c.tcWrite w
  else if addr = F.EOTF_TAB_DATA_LIN.addr then c.eotfWrite w
  else if addr = F.DOSE_CURVE_DOSE_DOSE.addr then c.curveWrite false w
  else if addr = F.DOSE_CURVE_LUM_LUM.addr then c.curveWrite true w
  else if 0x0B0 ≤ pg && pg ≤ 0x0B3 && off = 0x58 then c.trimWrite (pg - 0x0B0) w
  else if 0x0B0 ≤ pg && pg ≤ 0x0B3 && off = 0x5C then c.trimCond (pg - 0x0B0)
  else if addr = F.DRIVECTL_FADE_GO.addr then (if w.getLsbD 31 then c.fadeGo else c)
  else if addr = F.DRIVECTL_SPL_DATA_Y.addr then c.splWrite w
  else if addr = F.DIAG_CTRL_CLEAR.addr then
    (if w.getLsbD 31 then { c.set F.DIAG_CTRL_CLEAR 1 with drive := { c.drive with clear := true } } else c)
  else if addr = F.REDUN_CMD_FORCE_RELEASE.addr then
    let c := if w.getLsbD 0 then c.forceRelease else c
    if w.getLsbD 1 then c.clearRelease else c
  else if addr = F.MIRROR_CMD_FULL.addr then (if w.getLsbD 0 then c.mirrorFull else c)
  else if 0x0D0 ≤ pg && pg ≤ 0x0D7 then
    if off = 0x40 then c.ownerWrite (pg - 0x0D0) (bitsOf w 2 0)
    else if 0x80 ≤ off && off ≤ 0x9C then c.bankRemap (pg - 0x0D0) ((off - 0x80) / 4) w
    else c
  else if addr = F.ECC_SCRUB_NOW.addr then (if w.getLsbD 30 then c.scrubNow else c)
  else if addr = F.ECC_DREMAP_DATA_VALID.addr then c.dramRemap c.dremapPort.1 c.dremapPort.2 w
  else if addr = F.ECC_SPLIT_CTRL_GO.addr then (if w.getLsbD 31 then c.splitGo o else c)
  else if 0x0E0 ≤ pg && pg ≤ 0x0E3 then
    if off = 0x4C then (if w.getLsbD 15 then c.set (F.DRAM_REF_DEBT_MAX.pg (pg - 0x0E0)) 0 else c)
    else if off = 0x54 then
      let c := if w.getLsbD 0 then c.retrainStart (pg - 0x0E0) else c
      if w.getLsbD 1 then c.rateRestore (pg - 0x0E0) else c
    else c
  else if addr = F.UPDATE_CMD_OPEN.addr then c.updateCmd w
  else if addr = F.UPDATE_BLOCK_DATA_DATA.addr then c.blockData w
  else if addr = F.SETTINGS_CMD_SAVE.addr then (if w.getLsbD 0 then c.settingsSave else c)
  else if addr = F.SETTINGS_LIST_DATA_ADDR.addr then c.listWrite w
  else if addr = F.LOG_READ_SEQ_SEQ.addr then c.logRead w
  else c

/-! ### The header of a page -/

/-- PAGE_CTRL written: EN and APPLY_MODE, then the reset, then the commit (R35, R37, R38). A change of APPLY_MODE while EN = 1 is a host error
where the field acts; elsewhere it has no effect (R41). -/
def Chip.ctrlWrite (c : Chip) (o : Origin) (pg : Nat) (w : Word) : Chip :=
  if ctrlAbsent pg then c
  else
    let a := pg * 4096 + 4
    let old := c.rd a
    let en := w.getLsbD 0
    let mode := decide (bitsOf old 3 2 ≠ bitsOf w 3 2)
    let c := if mode || w.getLsbD 1 || w.getLsbD 8 then c.logChange o a w else c
    let ran := c.runs pg
    let c := (c.set (F.EN.pg pg) (b2n en)).set (F.APPLY_MODE.pg pg) (bitsOf w 3 2)
    let c := if old.getLsbD 0 = en then c else if en then (if c.runs pg then c.pageStart pg else c) else (if ran then c.pageStop pg else c)
    let c := if mode && old.getLsbD 0 && en && decide (pageRef c.build pg = .scan) then c.hostError pg else c
    let c := if w.getLsbD 1 then c.srst pg else c
    let c := if w.getLsbD 8 then c.set (F.COMMIT.pg pg) 1 else c
    c.settle

/-- ERR_CTRL written: clears, and FLIP_ARM where the page has a flip mask (R48, R321). -/
def Chip.errCtrlWrite (c : Chip) (o : Origin) (pg : Nat) (w : Word) : Chip :=
  let arm := w.getLsbD 3 && flipPage pg
  let c := if bitsOf w 2 0 ≠ 0 || arm then c.logChange o (pg * 4096 + 0x34) w else c
  let c := c.errClear pg (w.getLsbD 0) (w.getLsbD 1) (w.getLsbD 2)
  if arm then c.set (F.FLIP_ARM.pg pg) 1 else c

/-- A header register written. -/
def Chip.headerWrite (c : Chip) (o : Origin) (pg off : Nat) (w : Word) : Chip :=
  let a := pg * 4096 + off
  if off = 0x04 then c.ctrlWrite o pg w
  else if off = 0x0C then (c.wr a (w &&& 0xFFFF)).noteMirror a
  else if off = 0x14 then (if evtAbsent pg then c else c.withVectors pg (fun c => c.wr a w))
  else if off = 0x18 then (if evtAbsent pg then c else c.wr a (c.rd a &&& ~~~w))
  else if off = 0x1C then
    if evtAbsent pg || w = 0 then c else (c.logChange o a w).evtForce pg w
  else if off = 0x34 then c.errCtrlWrite o pg w
  else c

/-! ### One register word -/

/-- CANVAS_SIZE or SPLIT_X changed while scan-out or mapping is enabled is a host error in both (R166). -/
def Chip.sizeError (c : Chip) (addr : Nat) (changed : Bool) : Chip :=
  if changed && (addr = F.MAPCTL_CANVAS_SIZE_WIDTH.addr || addr = F.SCAN_SPLIT_SPLIT_X.addr) && c.build = .S && (c.en 0x060 || c.en 0x070 || c.en 0x071) then
    (c.hostError 0x060).hostError 0x070
  else c

/-- A write to a register that exists: recorded where R51 says so, stored by class, then its effect; a changed quiesce field of an enabled page
is a host error (R32 to R36, R51). -/
def Chip.blockWrite (c : Chip) (o : Origin) (addr : Nat) (d : RegDef) (w : Word) : Chip :=
  let pg := addr / 4096
  let old := c.rd addr
  let q := d.quiesceChange old w
  let unlock := addr = F.DEBUG_CTRL_UNLOCK.addr && (o = .belfry || o = .jtag) && old.getLsbD 31 != w.getLsbD 31
  let c := if d.shadowed || q || d.commandBit w || d.command || unlock then c.logChange o addr w else c
  let c := if addr = F.DEBUG_CTRL_UNLOCK.addr then c.debugWrite o w
    else if unstored addr then c
    else c.wr addr (d.store old w)
  let c := if q && c.en pg then c.hostError pg else c
  let c := c.sizeError addr q
  ((c.writeEffect o addr old w).noteMirror addr).settle

/-- A 32-bit write of an aligned address of the register pages (R30, R31). -/
def Chip.regWrite (c : Chip) (o : Origin) (addr : Nat) (w : Word) : Chip :=
  match regAt c.build addr with
  | .none r => c.badAccess o r addr
  | .silent => c
  | .reg d => if addr % 4096 < 0x40 then c.headerWrite o (addr / 4096) (addr % 4096) w else c.blockWrite o addr d w

/-! ### Accesses of a path (R29 to R31, R302) -/

/-- The reason for which an access of the register pages or the relay window is not carried out: what stands at its address, then its size and
alignment (R30, R31). -/
def Chip.ignoredReason (c : Chip) (addr size : Nat) : Option Nat :=
  let r := if addr < 0x400000 then (match regAt c.build (addr / 4 * 4) with | .none r => some r | _ => none)
    else match c.build with | .S => none | .T => some 2
  match r with
  | some r => some r
  | none => if size < 4 || addr % size ≠ 0 then some 3 else none

/-- A write carried out: register pages by words, the relay window to the relay, for a target, the SRAM window to the banks. DESIGN CHOICE
(assumption log 120): R52 names every write through the relay window, so the sender records each; the tile records those of the classes of R51. -/
def Chip.busAt (c : Chip) (w : BusWrite) (target : Nat) : Chip :=
  let addr := w.addr % 2 ^ 24
  if 0x800000 ≤ addr then
    c.windowWrite (addr - 0x800000) (((leBytes w.size w.data.toNat).take (2 ^ 24 - addr)).map some) (some w.origin)
  else match c.ignoredReason addr w.size with
    | some r => c.badAccess w.origin r addr
    | none =>
      let d := w.data.truncate 32
      if addr < 0x400000 then c.regWrite w.origin addr d
      else match c.build with
        | .S => (c.logChange w.origin addr d).relayWrite w.origin target addr d
        | .T => c.badAccess w.origin 2 addr

/-- RELAY.TARGET, as an access that arrives on a path finds it: behind the writes of it that wait on that path (R74, R77). -/
def Chip.targetNow (c : Chip) (o : Origin) : Nat :=
  let to_ := fun (h : HeldAcc) => match h with
    | .write w _ => if w.origin = o && w.size = 4 && decide (w.addr % 2 ^ 24 = F.RELAY_TARGET_TILE_ID.addr) then some (bitsOf (w.data.truncate 32) 12 0) else none
    | _ => none
  ((c.host.held.filterMap to_).getLast?).getD (c.get F.RELAY_TARGET_TILE_ID)

/-- A write carried out as it arrives. -/
def Chip.busNow (c : Chip) (w : BusWrite) : Chip := c.busAt w (c.get F.RELAY_TARGET_TILE_ID)

/-! ### Accesses that wait on their path (R72, R77, R316) -/

/-- An access that cannot go while the relay's queue is full: a write of the relay window, and any posted write of USB4, whose credit the
endpoint withholds (R72). -/
def HeldAcc.needsRoom : HeldAcc → Bool
  | .write w _ => decide (w.origin = .usb4) || (0x400000 ≤ w.addr % 2 ^ 24 && decide (w.addr % 2 ^ 24 < 0x800000))
  | .read _ _ _ _ => false
  | .sramWrite _ _ => true
  | .sramRead _ _ _ => false
  | .aper _ w _ _ _ => w

/-- An access of the SRAM window. -/
def HeldAcc.inSram : HeldAcc → Bool
  | .write w _ => decide (0x800000 ≤ w.addr % 2 ^ 24)
  | .read _ addr _ _ => decide (0x800000 ≤ addr % 2 ^ 24)
  | .sramWrite _ _ => true
  | .sramRead _ _ _ => true
  | .aper _ _ _ _ _ => false

/-- An access cannot go: the relay's queue is full, the SRAM is not filled, or a write of its path stalls in the window. -/
def Chip.cannotGo (c : Chip) (h : HeldAcc) : Bool :=
  (c.relayFull && h.needsRoom) || (h.inSram && !c.on F.ECC_STATUS_SRAM_FILLED) || c.windowStalled h.origin

/-- An access waits: it cannot go, or an access of its path waits before it. -/
def Chip.mustWait (c : Chip) (h : HeldAcc) : Bool := c.cannotGo h || c.host.held.any (fun x => decide (x.origin = h.origin))

def Chip.hold (c : Chip) (h : HeldAcc) : Chip := { c with host := { c.host with held := c.host.held ++ [h] } }

/-- No path waits: no access does, none stalls in the SRAM window, and the relay's queue has room. -/
def Chip.pathsOpen (c : Chip) : Bool := c.host.held.isEmpty && !c.relayFull && (List.range 8).all (fun b => (c.bank b).stalled.isEmpty)

/-- The accesses that a write is carried out as: an aligned one of 8 bytes as two of 4 in ascending order (R30). -/
def busWords (w : BusWrite) : List BusWrite :=
  if w.size = 8 && w.addr % 8 = 0 && decide (w.addr % 2 ^ 24 < 0x800000) then
    [{ w with size := 4, data := (w.data.truncate 32).setWidth 64 }, { w with addr := w.addr + 4, size := 4, data := ((w.data >>> 32).truncate 32).setWidth 64 }]
  else [w]

/-- A write on an access path. -/
def Chip.busWrite (c : Chip) (w : BusWrite) : Chip :=
  (busWords w).foldl (fun c w => if c.mustWait (.write w 0) then c.hold (.write w (c.targetNow w.origin)) else c.busNow w) c

/-- A 32-bit write. -/
def Chip.write32 (c : Chip) (o : Origin) (addr : Nat) (w : Word) : Chip :=
  c.busWrite { origin := o, addr := addr, size := 4, data := w.setWidth 64 }

/-- The word that a command writes to keep the rest of a register: read-write fields as they read, command and clear bits 0. -/
def Chip.keepWord (c : Chip) (addr : Nat) : Word :=
  match regAt c.build addr with
  | .reg d => BitVec.ofNat 32 (((d.fields.filter (fun f => f.acc = .rw)).map (fun f => ((c.rd addr) &&& f.mask).toNat)).sum)
  | _ => 0

/-- A field of a register written by a command, the rest of the register kept. -/
def Chip.writeField (c : Chip) (o : Origin) (f : Fld) (v : Nat) : Chip := c.write32 o f.addr (insBits (c.keepWord f.addr) f.hi f.lo v)

/-- PAGE_CTRL of a page written: EN as given, APPLY_MODE kept, and the SRST and COMMIT bits asked for. -/
def Chip.writeCtrl (c : Chip) (o : Origin) (pg : Nat) (en srst commit : Bool) : Chip :=
  if 1024 ≤ pg then c
  else c.write32 o (pg * 4096 + 4) (BitVec.ofNat 32 (b2n en + 2 * b2n srst + 4 * c.get (F.APPLY_MODE.pg pg) + 256 * b2n commit))

/-- COMMIT written to a page. -/
def Chip.writeCommit (c : Chip) (o : Origin) (pg : Nat) : Chip := c.writeCtrl o pg (c.en pg) false true

/-- A read of the word at an address by a path, of which `size` bytes from byte `lane` are asked for, with the relay target of its arrival: the
word and whether it is poisoned, or nothing yet where it waits for the relay (R30, R31, R72, R315). -/
def Chip.read32 (c : Chip) (o : Origin) (target addr : Nat) (lane : Nat := 0) (size : Nat := 4) (srp : Bool := false) : Option (Word × Bool) × Chip :=
  let addr := addr % 2 ^ 24
  if 0x800000 ≤ addr then
    let r := c.windowRead (addr - 0x800000) 4
    (some (BitVec.ofNat 32 (ofLe r.1.1), r.1.2), r.2)
  else if addr % 4 ≠ 0 then (some (0, false), c)
  else if 0x400000 ≤ addr then
    match c.build with
    | .S => let r := c.relayRead o target addr lane size srp; (r.1.map (fun w => (w, false)), r.2)
    | .T => (some (0, false), c)
  else match regAt c.build addr with
    | .reg _ => let r := c.readReg o addr; (some (r.1, false), r.2)
    | _ => (some (0, false), c)

/-- The bytes of a word that a narrower access asks for (R30). -/
def subWord (w lane size : Nat) : Nat := w / 2 ^ (8 * lane) % 2 ^ (8 * size)

/-- Data returned to a path: in a poisoned completion on USB4 where a word is poisoned; a Belfry load of poison, or of an address that holds
nothing, ends in a bus error (R315, R348). -/
def Chip.deliver (c : Chip) (o : Origin) (addr data : Nat) (bad : Bool) : Chip :=
  let absent := if addr < 0x400000 then (match regAt c.build (addr / 4 * 4) with | .none _ => true | _ => false)
    else c.build = .T && decide (addr < 0x800000)
  let c := if o = .belfry && (bad || absent) then c.raise E.BELFRY_BUS_ERR else c
  c.emit (if bad && o = .usb4 then .readPoison o addr data else .readData o addr data)

/-- An aligned read of at most a word: the bytes asked for, sent at once or when the relay answers. -/
def Chip.readPart (c : Chip) (o : Origin) (target addr size : Nat) : Chip :=
  let r := c.read32 o target (addr / 4 * 4) (addr % 4) size
  match r.1 with
  | none => r.2
  | some (w, bad) => r.2.deliver o addr (subWord w.toNat (addr % 4) size) bad

/-- A read carried out: of any size in the SRAM window; of registers and of the relay window a misaligned one returns 0, and an aligned one of 8
bytes is two of 4 in ascending order (R30, R302). -/
def Chip.readNow (c : Chip) (o : Origin) (target addr size : Nat) : Chip :=
  let addr := addr % 2 ^ 24
  if 0x800000 ≤ addr then
    let r := c.windowRead (addr - 0x800000) size
    r.2.deliver o addr (ofLe r.1.1) r.1.2
  else if addr % size ≠ 0 then c.deliver o addr 0 false
  else if size = 8 then (c.readPart o target addr 4).readPart o target (addr + 4) 4
  else c.readPart o target addr size

/-- A read on an access path. -/
def Chip.hostRead (c : Chip) (o : Origin) (addr : Nat) (size : Nat := 4) : Chip :=
  if c.mustWait (.read o addr size 0) then c.hold (.read o addr size (c.targetNow o)) else c.readNow o (c.get F.RELAY_TARGET_TILE_ID) addr size

/-! ### The SRAM window as such (R302) -/

/-- A read of the SRAM window carried out: its bytes, in a poisoned completion on USB4 where a word is poisoned; poison is a bus error of the
Belfry (R302, R315, R348). -/
def Chip.windowSend (c : Chip) (o : Origin) (offset n : Nat) : Chip :=
  let r := c.windowRead offset n
  r.2.deliver o (0x800000 + offset) (ofLe r.1.1) r.1.2

/-- A read of the SRAM window by a path. -/
def Chip.sramRead (c : Chip) (o : Origin) (offset n : Nat) : Chip :=
  if c.mustWait (.sramRead o offset n) then c.hold (.sramRead o offset n) else c.windowSend o offset n

/-- A write of the SRAM window by USB4, with byte enables. -/
def Chip.sramWrite (c : Chip) (offset : Nat) (bytes : List (Option Byte)) : Chip :=
  if c.mustWait (.sramWrite offset bytes) then c.hold (.sramWrite offset bytes) else c.windowWrite offset bytes (some .usb4)

/-! ### The DRAM aperture -/

/-- An access of the DRAM aperture, or of DRAM by another master (R29, R332). -/
def Chip.aperNow (c : Chip) (master : Nat) (write : Bool) (ofs : Nat) (bytes : List (Option Byte)) (hits : Bool) : Chip :=
  c.dramRequest (dramReqOf master write (c.bar2Addr ofs) bytes) hits

def Chip.aperture (c : Chip) (master : Nat) (write : Bool) (ofs : Nat) (bytes : List (Option Byte)) (hits : Bool) : Chip :=
  if c.mustWait (.aper master write ofs bytes hits) then c.hold (.aper master write ofs bytes hits) else c.aperNow master write ofs bytes hits

/-- The first waiting access that can go, with the rest: not behind another of its path (`blocked`). -/
def Chip.heldPick (c : Chip) : List Origin → List HeldAcc → Option (HeldAcc × List HeldAcc)
  | _, [] => none
  | blocked, h :: t =>
    if blocked.contains h.origin || c.cannotGo h then (Chip.heldPick c (h.origin :: blocked) t).map (fun r => (r.1, h :: r.2))
    else some (h, t)

/-- The waiting accesses go on as what they wait for ends (R72, R305, R316). -/
def Chip.heldGo : Nat → Chip → Chip
  | 0, c => c
  | n + 1, c =>
    match c.heldPick [] c.host.held with
    | none => c
    | some (h, rest) =>
      let c := { c with host := { c.host with held := rest } }
      heldGo n (match h with
        | .write w target => c.busAt w target
        | .read o addr size target => c.readNow o target addr size
        | .sramWrite ofs bytes => c.windowWrite ofs bytes (some .usb4)
        | .sramRead o ofs k => c.windowSend o ofs k
        | .aper m w ofs b hits => c.aperNow m w ofs b hits)

def Chip.heldNext (c : Chip) : Chip := Chip.heldGo c.host.held.length c

/-! ### Same-cycle order (R44, R49, R54) -/

/-- The place of a path in the fixed order. -/
def Origin.rank : Origin → Nat
  | .jtag => 0
  | .belfry => 1
  | .mirror => 2
  | .usb4 => 3
  | .ethMgmt => 4
  | .chainRelay => 5

/-- Writes that reach the block in one FAB_CLK cycle, in the order in which they are served. -/
def sameCycle (l : List BusWrite) : List BusWrite :=
  (List.range 6).flatMap (fun k => l.filter (fun w => decide (Origin.rank w.origin = k)))

/-- The address of a write that acts on a register word: of 4 bytes, aligned, on a page of the build. -/
def Chip.wordWritten (c : Chip) (w : BusWrite) : Option Nat :=
  let a := w.addr % 2 ^ 24
  if w.size = 4 && a % 4 = 0 && decide (a < 0x400000) then (match regAt c.build a with | .reg _ => some a | _ => none) else none

/-- The EVT_PEND words that a write clears bits of: a page's own, or those of the events of a GLOBAL_ACT word (R44). -/
def Chip.pendCleared (c : Chip) (w : BusWrite) : List Nat :=
  match c.wordWritten w with
  | none => []
  | some a =>
    if a % 4096 = 0x18 then (if evtAbsent (a / 4096) then [] else [a])
    else if 0x001040 ≤ a && a ≤ 0x00105C then
      ((E.all.filter (fun e => decide (e.num / 32 = (a - 0x001040) / 4) && c.hasPage e.page)).map (fun e => e.page * 4096 + 0x18)).dedup
    else []

/-- The words of error records that a write of ERR_CTRL clears (R48). -/
def Chip.errCleared (c : Chip) (w : BusWrite) : List Nat :=
  match c.wordWritten w with
  | none => []
  | some a =>
    let b := a / 4096 * 4096
    let d := w.data.truncate 32
    if a % 4096 ≠ 0x34 then []
    else (if d.getLsbD 0 then [b + 0x20, b + 0x24] else []) ++ (if d.getLsbD 1 then [b + 0x28, b + 0x2C] else []) ++ (if d.getLsbD 2 then [b + 0x30] else [])

/-- Writes served one after the other, each with whether it goes at once or waits on its path. -/
def Chip.goesNow : List BusWrite → Chip → List (BusWrite × Bool)
  | [], _ => []
  | w :: t, c => (w, !c.mustWait (.write w 0)) :: Chip.goesNow t (c.busWrite w)

/-- Writes served one after the other. -/
def Chip.busWrites (c : Chip) (l : List (BusWrite × Bool)) : Chip := l.foldl (fun c x => c.busWrite x.1) c

/-- The writes of one cycle, in the order of R54. What clears EVT_PEND bits or error records in that cycle does so first: a bit that an occurrence
of the cycle sets ends set, and a record ends holding the error of the cycle (R44, R49). -/
def Chip.cycleWrites (c : Chip) (l : List BusWrite) : Chip :=
  let l := Chip.goesNow (sameCycle (l.flatMap busWords)) c
  let pend := fun (x : BusWrite × Bool) => x.2 && !(c.pendCleared x.1).isEmpty
  let err := fun (x : BusWrite × Bool) => x.2 && !(c.errCleared x.1).isEmpty
  let first := l.filter (fun x => pend x || err x)
  if first.isEmpty || decide (l.length ≤ 1) then c.busWrites l
  else
    let e := (c.busWrites first).busWrites (l.filter (fun x => !(pend x || err x)))
    (first.flatMap (fun x => c.pendCleared x.1 ++ c.errCleared x.1)).foldl (fun d a => d.wr a (e.rd a)) (c.busWrites (l.filter (fun x => !pend x)))

end Sys2Proof.Machine
end

