-- ==== Sys2Proof/Machine/Boundary.lean ====
section
/-! DEFINITION. Bar and beat boundaries: what a sender does at bar and beat starts, downbeat launches and the master's downbeats, the launch queue's test, cue loads, and what a tile does at its beat boundaries (R38, R41, R91 to R109, R154, R155, R183, R286). -/

namespace Sys2Proof.Machine

/-! ### The launch queue at a boundary (R95 to R99) -/

/-- A commit set by the launch queue on a page that has one (R97). -/
def Chip.queueCommit (c : Chip) (pg : Nat) : Chip :=
  if c.hasPage pg && !ctrlAbsent pg then (c.set (F.COMMIT.pg pg) 1).settle else c

/-- A due entry takes effect at a boundary with time t (R97, R99). -/
def Chip.launchTake (c : Chip) (t : Nat) (e : LaunchEntry) : Chip :=
  let c := c.set F.LAUNCH_LAST_AT_LAST_AT t
  let c := ((c.set F.LAUNCH_LAST_ACTION_TAG e.tag).set F.LAUNCH_LAST_ACTION_ARG e.arg).set F.LAUNCH_LAST_ACTION_KIND e.kind
  let c := if beatPeriod12 c.mode < 12 * launchAge t e.time then c.raise E.LAUNCH_LATE else c
  match e.kind with
  | 1 => (match c.build with | .S => c.cueStart e.arg | .T => c)
  | 2 => c.queueCommit e.arg
  | 3 => c.raise E.LAUNCH_EVENT
  | 4 => c.updActivate
  | _ => c

/-- The due entries of the queue in their order; the answer names the pages they committed (R95, R96). -/
def Chip.launchTest (c : Chip) (t : Nat) : List Nat × Chip :=
  let due := launchOrder t c.launchQ
  let c := { c with launchQ := c.launchQ.filter (fun e => !launchDue t e) }
  ((due.filter (fun e => e.kind = 2)).map (fun e => e.arg), due.foldl (fun c e => c.launchTake t e) c)

/-- A commit of the queue counts as before the apply instants of its boundary: the bar's at a bar boundary, that of a preview frame that
begins there, and that of line 0 of the canvas that begins there (R98). -/
def Chip.launchApply (c : Chip) (pages : List Nat) (bar : Bool) : Chip :=
  let start := c.bar.start12 + (c.bar.beatLens.take (c.get F.BAR_STATUS_BEAT)).sum
  pages.foldl (fun c pg =>
    let line0 := c.scan.active && c.scan.line = 0 && c.scan.s12 = start && c.applyLine pg = 0
    let frame := c.preview.busy && decide (c.preview.bar = c.barCount)
    if c.commitReady pg && ((bar && (decide (pageRef c.build pg = .bar) || (frame && decide (pageRef c.build pg = .preview)))) || (pageRef c.build pg = .scan && c.counterRuns && line0)) then (c.applyPage pg).settle
    else c) c

/-! ### Bar and beat starts of a sender (R87 to R93) -/

/-- The next bar start is the one at which a change of SRC takes the unit off its master (R88). -/
def Chip.leavesNext (c : Chip) : Bool := c.bar.nextBeat = 0 && c.leavesMaster

/-- The follower's generator is driven by the master's cells. -/
def Chip.copyingNow (c : Chip) : Bool := c.bar.copying && c.follower && !c.leavesNext

/-- DRAM.UTIL of the last bar: the specification gives it no formula here; open values up to 100 %. -/
def Chip.dramUtil (c : Chip) : Chip :=
  c.dramPorts.foldl (fun c p =>
    let r := c.openValue 7
    let c := r.2.set (F.DRAM_UTIL_RT.pg p) (r.1 % 101)
    let r := c.openValue 7
    r.2.set (F.DRAM_UTIL_BULK.pg p) (r.1 % 101)) c

/-- DEPTH_SEEN: the largest depth reported over the last 64 bars (BAR.DEPTH_SEEN). -/
def Chip.showDepths (c : Chip) : Chip :=
  let l := c.bar.depths.filter (fun d => (c.barCount + 2 ^ 32 - d.1) % 2 ^ 32 < 64)
  let c := { c with bar := { c.bar with depths := l } }
  c.set F.BAR_DEPTH_SEEN_PS ((l.map (fun d => d.2)).foldl max 0)

/-- What a sender does at every bar start besides its generator: the bar's feed map, the canvas due, the bar's apply point, preview, the hold
of tables, layer states, reports (R137, R169, R184, R381). -/
def Chip.barTurn (c : Chip) : Chip :=
  let c : Chip := { c with bar := { c.bar with feedMap := c.feedMapOf c.barCount } }
  let c := c.scanBeat c.bar.start12 (c.bar.beatLens.headD 0)
  let c := (c.applyAt .bar).previewBar (fun r c => c.applyAt r)
  (((c.holdAtBar).refreshLayers).dramUtil).showDepths

/-- The generator reaches a bar start (R87, R91). -/
def Chip.barBegin (c : Chip) : Chip :=
  if c.build = .T || !c.bar.running || c.bar.waiting || decide (c.bar.nextBeat ≠ 0) || c.copyingNow then c
  else
    let c := (c.barStartAt c.bar.next12).barTurn
    { c with bar := { c.bar with dbDue := some 0 } }

/-- The generator reaches the start of a beat other than the first (R13, R87). -/
def Chip.beatBegin (c : Chip) : Chip :=
  if c.build = .T || !c.bar.running || c.bar.waiting || decide (c.bar.nextBeat = 0) || c.copyingNow then c
  else
    let b := c.bar.nextBeat
    let at12 := c.bar.next12
    let c := c.beatStartAt at12
    let c := c.scanBeat at12 (c.bar.beatLens.getD b 0)
    { c with bar := { c.bar with dbDue := some b } }

/-! ### Launching downbeats (R100, R107, R199, R206) -/

/-- The DOWNBEAT of the beat in progress (R199). -/
def Chip.downbeatNow (c : Chip) (accDelay launchNs : Nat) : Downbeat :=
  let n := c.beatNow
  let x := c.beatAfter n
  { beat := n.2, pairSlot := c.pairSlot, stackPos := c.stackPos, launchNs := launchNs, accDelay := min accDelay 0xFFFFFF,
    pixFeed := c.feedOf x.1 x.2, feedMap := c.feedMapOf n.1, mode := c.mode, barCount := n.1, active := c.actBit }

/-- A DOWNBEAT leaves on the ports of a chain that carry cells, with one SEQ. -/
def Chip.launchChain (c : Chip) (cell lit q : Nat) : Chip :=
  let ports := (if c.portMode q = 1 then [q] else [q, q + 1]).filter c.portCarries
  let r := c.withSeq q cell
  ports.foldl (fun c p => (c.sendFree p r.1).downbeatMargin p lit) r.2

/-- The DOWNBEAT cells of a launch on every tile port. -/
def Chip.launchTiles (c : Chip) (d : Downbeat) : Chip :=
  c.chains.foldl (fun c q => c.launchChain d.cell (d.barCount % 64 * 4 + d.beat) q) c

/-- The stack link leads on: OUT_EN, and OUT_PORT carries cells in STACK mode. -/
def Chip.stackOut (c : Chip) : Bool :=
  let p := c.get F.STACK_CONFIG_OUT_PORT
  c.on F.STACK_CONFIG_OUT_EN && decide (c.portMode p = 4) && c.portCarries p

/-- The master's DOWNBEAT of the stack link (R107). -/
def Chip.launchStack (c : Chip) (d : Downbeat) : Chip :=
  let p := c.get F.STACK_CONFIG_OUT_PORT
  if c.stackOut && c.isMaster then
    let r := c.withSeq p d.cell
    r.2.sendFree p r.1
  else c

/-- A follower forwards a DOWNBEAT of IN_PORT cut-through on OUT_PORT: the cell that arrived, its accumulated delay replaced; one whose CRC
fails goes as received (R107, R197, R209). -/
def Chip.stackForward (c : Chip) (cell : Nat) : Chip :=
  let acc := (Downbeat.ofCell cell).accDelay + c.linkDelay (c.get F.STACK_CONFIG_IN_PORT) + Config.fwdDelayPs
  if c.stackOut && !c.isMaster then c.sendRaw (c.get F.STACK_CONFIG_OUT_PORT) (if cellCrcOk cell then cellWith cell 143 120 (min acc 0xFFFFFF) else cell)
  else c

/-- The BEAT frame of the active unit of the master pair; the interval to its departure is open, within the longest frame (R284 to R286). -/
def Chip.beatFrame (c : Chip) (d : Downbeat) : Chip :=
  if c.isMaster && decide (c.unitState = rsActive) then
    let r := c.openValue 21
    r.2.emit (.sideband (sbFrame 2 (leBytes 4 d.barCount ++ leBytes 1 d.beat ++ leBytes 1 d.mode ++ leBytes 1 d.feedMap ++ leBytes 4 d.launchNs ++
      leBytes 4 r.1)))
  else c

/-- The cells of a launch have gone: the bar's start time, MODE_CHANGE with the first one of a new mode, and the queue's test (R94, R95). -/
def Chip.launched (c : Chip) (d : Downbeat) (t : Nat) : Chip :=
  let c := if d.beat = 0 then c.set F.BAR_LAST_START_TIME d.launchNs else c
  let c := if c.bar.modeNew then { c with bar := { c.bar with modeNew := false } }.raise E.MODE_CHANGE else c
  let r := c.launchTest t
  r.2.launchApply r.1 (decide (d.beat = 0))

/-- The launch of the bar or beat that has started (R100, R107, R281). -/
def Chip.downbeatLaunch (c : Chip) : Chip :=
  match c.bar.dbDue with
  | none => c
  | some _ =>
    let c := { c with bar := { c.bar with dbDue := none } }.activeRise
    let t := c.timeNs
    let d := c.downbeatNow (if c.follower then c.bar.followDelay else 0) t
    (((c.launchTiles d).launchStack d).beatFrame d).launched d t

/-! ### Following another unit's downbeats (R107 to R109, R286) -/

/-- The bar and beat of a copied downbeat, from the instant of this unit's own launch. -/
def Chip.copyStart (c : Chip) (d : Downbeat) (at12 : Nat) : Chip :=
  let lens := beatLengths (period12 c.mode) (modeBeats c.mode)
  let past := (lens.take d.beat).sum
  let nb := if d.beat + 1 < modeBeats c.mode then d.beat + 1 else 0
  let c : Chip := { c with bar := { c.bar with
    start12 := at12 - past, beatLens := lens, lattice12 := c.ext12 at12 - past, next12 := at12 + lens.getD d.beat 0, nextBeat := nb,
    everCopied := true, copying := true, returning := false, src := 3, near := true } }
  let c := (c.set F.BAR_COUNT_COUNT d.barCount).set F.BAR_STATUS_BEAT d.beat
  let c := ((c.set F.BAR_STATUS_SRC_IN_USE 3).set F.BAR_PHASE_ERR_E 0).setSlewing false
  let c := c.showBarLock
  if d.beat = 0 then c.barTurn else c.scanBeat at12 (lens.getD d.beat 0)

/-- A downbeat is copied: started, and launched on the tile ports with its delay; a standby of the master pair also sends it to the stack
(R107, R286). -/
def Chip.copyDownbeat (c : Chip) (d : Downbeat) (dIn interval arr12 : Nat) : Chip :=
  let at12 := arr12 + interval * 12 / 1000
  let c := (c.advanceTo at12).copyStart d at12
  let c := c.activeRise
  let t := c.timeNs
  let acc := min (dIn + interval) 0xFFFFFF
  let own := { c.downbeatNow acc d.launchNs with feedMap := d.feedMap }
  let c := { c with bar := { c.bar with followDelay := acc } }.launchTiles own
  let c := if c.pairFollower then (c.launchStack own).set F.REDUN_STATUS_PAIR_LOCK 1
    else (c.set F.STACK_STATUS_LOCK 1).set F.STACK_STATUS_DELAY_PS acc
  c.launched own t

/-- The generator waits for the next bar downbeat of its master, which it will copy. -/
def Chip.expectBar (c : Chip) (d : Downbeat) (arr12 : Nat) : Chip :=
  let lens := beatLengths (period12 d.mode) (max 1 (modeBeats d.mode))
  let left := (lens.drop d.beat).sum
  { c with bar := { c.bar with
    copying := true, everCopied := true, returning := false, nextBeat := 0, beatLens := lens, next12 := arr12 + left,
    lattice12 := c.ext12 (arr12 + left), src := 3 } }.set F.BAR_STATUS_SRC_IN_USE 3

/-- The master's downbeats carry another mode: their arrival is the apply point of a change to it. A unit that has been copying them copies a bar
downbeat of the new mode as any other; one whose master returns so launches the next one first (R107, R109). -/
def Chip.followMode (c : Chip) (d : Downbeat) (dIn interval arr12 : Nat) : Chip :=
  let copying := c.bar.copying && decide (d.beat = 0)
  let c := c.set F.BAR_MODE_MODE_IN_USE d.mode
  let c := (((c.scanModeChange).mapModeChange).latticeEntry).settle
  let c := { c with bar := { c.bar with modeNew := true } }
  if copying then c.copyDownbeat d dIn interval arr12 else c.expectBar d arr12

/-- A valid downbeat of the unit followed is heard; a bar downbeat ends a run of misses (R108, R109). -/
def Chip.hearMaster (c : Chip) (d : Downbeat) : Chip :=
  let c : Chip := { c with bar := { c.bar with masterMiss := if d.beat = 0 then 0 else c.bar.masterMiss, followFeedMap := d.feedMap } }
  let lost := decide (3 ≤ c.bar.masterMiss)
  if c.pairFollower then c.cond E.PAIR_UNLOCK lost
  else
    let c := c.cond E.STACK_LOST lost
    if c.use F.BAR_MODE_MODE_SEL = d.mode then c else c.raise E.STACK_MISMATCH

/-- A valid downbeat of the unit followed arrives (R107 to R109, R286): copied; or, after a loss, the lattice that the generator slews onto;
the first one after a lattice entry, 0.5 ms after it or later, is waited for without a slew (R88). -/
def Chip.followDownbeat (c : Chip) (d : Downbeat) (dIn interval arr12 : Nat) : Chip :=
  if !c.follower || !c.bar.running || (c.bar.copying && c.leavesNext) then c
  else
    let c := (c.advanceTo arr12).hearMaster d
    if d.mode ≠ c.mode then c.followMode d dIn interval arr12
    else if c.bar.copying then
      if c.bar.nextBeat = 0 && decide (d.beat ≠ 0) then c.expectBar d arr12 else c.copyDownbeat d dIn interval arr12
    else if c.bar.beatLens.isEmpty then
      if d.beat = 0 && decide (c.bar.refNot12 ≤ c.ext12 (arr12 + interval * 12 / 1000)) then c.copyDownbeat d dIn interval arr12
      else c.expectBar d arr12
    else if d.beat = 0 then
      let b : BarSt := { c.bar with
        lattice12 := c.ext12 (arr12 + interval * 12 / 1000), returning := true, everCopied := true
        followDelay := min (dIn + interval) 0xFFFFFF }
      { c with bar := b }
    else c

/-- A DOWNBEAT on IN_PORT of a follower: forwarded; used where its header CRC, mode and beat are right (R105, R107). -/
def Chip.masterDownbeat (c : Chip) (cell ns interval : Nat) : Chip :=
  let d := Downbeat.ofCell cell
  let p := c.get F.STACK_CONFIG_IN_PORT
  let ok := cellCrcOk cell && cellType cell = ctDownbeat && decide (d.mode < 24) && decide (d.beat < modeBeats d.mode)
  if c.build = .T || c.isMaster || !c.on F.STACK_CONFIG_IN_EN || decide (c.portMode p ≠ 4) || decide (cellType cell ≠ ctDownbeat) then c
  else if !ok then c.stackForward cell
  else (c.stackForward cell).followDownbeat d (d.accDelay + c.linkDelay p) (max 40000 (min 172000 interval)) (12 * ns)

/-- A BEAT frame from the active peer (R286). -/
def Chip.beatFrameIn (c : Chip) (payload : List Byte) (ns interval : Nat) : Chip :=
  let at_ := fun (o n : Nat) => ofLe (slice payload o n)
  let mode := at_ 5 1
  let beat := at_ 4 1
  if c.build = .T || !c.isMaster || !c.en pgRedun || 24 ≤ mode || modeBeats mode ≤ beat then c
  else
    let was := c.pairFollower
    let c := c.setRedun { c.redun with beats := true }
    if !c.pairFollower then c
    else
      let c : Chip := if was then c else { c with bar := { c.bar with masterMiss := 0 } }
      let d : Downbeat :=
        { beat := beat, pairSlot := 0, stackPos := 0, launchNs := at_ 7 4, accDelay := 0, pixFeed := 0, feedMap := at_ 6 1,
          mode := mode, barCount := at_ 0 4, active := false }
      c.followDownbeat d (at_ 11 4 + c.tollDelay) interval (12 * ns)

/-- An expected downbeat of the unit followed is missed, 1/16 of a bar after its instant: it is not launched, and the generator goes on from
the last lattice (R109, R286). -/
def Chip.missDownbeat (c : Chip) : Chip :=
  if c.build = .T || !c.follower || !c.bar.running || !c.bar.everCopied || (c.bar.copying && c.leavesNext) then c
  else if c.bar.copying then
    let at12 := c.bar.next12
    let b := c.bar.nextBeat
    let c : Chip := { c with bar := { c.bar with copying := false } }
    let c := if b = 0 then (c.barStartAt at12).barTurn else (c.beatStartAt at12).scanBeat at12 (c.bar.beatLens.getD b 0)
    let c := c.advanceTo (at12 + period12 c.mode / 16)
    let c := c.set F.STACK_STATUS_LOCK 0
    let c := if c.pairFollower then c.set F.REDUN_STATUS_PAIR_LOCK 0 else c
    if b = 0 then c.stackMissed else c
  else if c.get F.BAR_STATUS_BEAT = 0 then c.stackMissed else c

/-! ### Mode changes and cues -/

/-- A pending MODE_SEL commit applies (R183). -/
def Chip.modeApply (c : Chip) : Chip := if c.build = .S && c.commitReady 0x022 then (c.applyPage 0x022).settle else c

/-- The words of a prepared set go into the shadows of a LAYER page, and its commit is set (R154). -/
def Chip.cueLayer (c : Chip) (rec : List Byte) (l : Nat) : Chip :=
  let c := (List.range 7).foldl (fun c k =>
    let a := 0x061040 + 4096 * l + 4 * k
    match regAt c.build a with
    | .reg d => c.wr a (d.store (c.rd a) (BitVec.ofNat 32 (ofLe (slice rec (64 * l + 4 * k) 4))))
    | _ => c) c
  c.set (F.COMMIT.pg (0x061 + l)) 1

/-- A CUE load ends: every LAYER page is committed, or the CUE fails and changes nothing (R154, R155). -/
def Chip.cueDone (c : Chip) : Chip :=
  match c.map.cues with
  | [] => c
  | n :: t =>
    if c.stepStalls then c
    else
      let r := (c.setMap { c.map with cues := t, cueFrom := some n.2 }).cueRecord n.1
      match r.1 with
      | none => (({ r.2 with map := { r.2.map with cueFrom := c.map.cueFrom } }).set F.MAPCTL_CUE_STATUS_FAIL 1).raise E.CUE_FAIL
      | some b =>
        let c := ((List.range 8).foldl (fun c l => c.cueLayer b l) r.2).settle
        ((c.set F.MAPCTL_CUE_STATUS_FAIL 0).set F.MAPCTL_CUE_STATUS_SET n.1).raise E.CUE_APPLIED

/-! ### Beat boundaries of a tile (R95, R238 to R243) -/

/-- The tile's bar or beat starts: the schedule moves on, due entries take effect, commits are taken, and what the beat shows is chosen. -/
def Chip.tileBeat (c : Chip) : Chip :=
  if !c.beatReady then c
  else
    let was := c.tile.sched
    let c := c.beatEnter
    let c := match c.tile.sched.time12 with
      | some t => (c.launchTest (t / 12)).2
      | none => c
    let bar := c.tile.sched.beat = 0
    let c := c.applyAt .tileBeat
    let c := if bar then (c.applyAt .bar).holdAtBar else c
    let c := (c.driveBeat was).beatShow
    if c.tile.sched.mode ≠ was.mode then c.fadeModeChange else c

end Sys2Proof.Machine
end

