-- ==== Sys2Proof/Machine/HostPaths.lean ====
section
/-! DEFINITION. The access paths and the network: DMA data, USB4 link and recovery, SRP and ARP, relay responses, received frames, and MONITOR cells at a sender (R56 to R79, R113 to R117, R205). -/

namespace Sys2Proof.Machine

/-! ### USB4 and DMA (R56 to R63) -/

/-- The bytes of a unit of a transfer of SRAM as DMA gives them: open after a host error of a handover (R306). -/
def Chip.unitOut (c : Chip) (sram : Bool) (b : List Byte) : List Byte × Chip :=
  if sram && c.upset 1 then
    let v := c.openValue 128
    (leBytes 16 v.1, v.2)
  else (b, c)

/-- One 16-byte unit of a transfer moves (R61, R62, R315). -/
def Chip.dmaUnit (c : Chip) (d : DmaSt) (data : List Byte) (k : Nat) : Chip :=
  let dev := d.dev + 16 * k
  if d.toHost then
    let r := if d.sram then c.windowRead dev 16 else c.dramFetch dmHost dev 16
    let o := r.2.unitOut d.sram r.1.1
    o.2.emit (.hostWrite (d.host + 16 * k) o.1 r.1.2)
  else
    let o := c.unitOut d.sram (slice data (16 * k) 16)
    let b := o.1
    let c := o.2
    if d.sram then c.windowWrite dev (b.map some) else c.dramWrite dmHost dev b

/-- The first `units` units of a channel's transfer move. -/
def Chip.dmaMove (c : Chip) (n units : Nat) (data : List Byte) : Chip :=
  let d := c.dma n
  (List.range (min units (d.len / 16))).foldl (fun c k => c.dmaUnit d data k) c

/-- The channel is idle again. -/
def Chip.dmaIdle (c : Chip) (n : Nat) : Chip := (c.setDma n DmaSt.init).set (dmaF F.USB4_DMA_CTRL_BUSY n) 0

/-- A transfer of SRAM waits: for the fill, or for the switch of a bank that changes hands (R305, R316). -/
def Chip.dmaWaits (c : Chip) (d : DmaSt) : Bool :=
  d.sram && (!c.on F.ECC_STATUS_SRAM_FILLED ||
    (List.range 8).any (fun b => c.ownerToBe b 1 && decide (d.dev < (b + 1) * 1048576) && decide (b * 1048576 < d.dev + d.len)))

/-- A transfer completes: all of its data has moved, DONE is set (R61). -/
def Chip.dmaDone (c : Chip) (n : Nat) (data : List Byte) : Chip :=
  if !(c.dma n).busy || c.dmaWaits (c.dma n) then c
  else (((c.dmaMove n ((c.dma n).len / 16) data).dmaIdle n).set (dmaF F.USB4_DMA_CTRL_DONE n) 1).raise E.DMA_DONE

/-- A host completion error stops a transfer at a unit: what has moved stays moved, ERR code 3 (R61). -/
def Chip.dmaHostError (c : Chip) (n units : Nat) (data : List Byte) : Chip :=
  if !(c.dma n).busy then c else ((c.dmaMove n (if c.dmaWaits (c.dma n) then 0 else units) data).dmaIdle n).dmaErr n 3

/-- Register words from one address to another return to reset. -/
def Chip.resetWords (c : Chip) (first last : Nat) : Chip :=
  { c with regs := c.regs.filter (fun (p : Nat × Word) => decide (p.1 < first) || decide (last < p.1)) }

/-- The PCIe function resets: MSI-X table, pending bits and DMA channels; a transfer in progress stops as R61 says (R390). -/
def Chip.pcieReset (c : Chip) : Chip :=
  let busy := [0, 1].filter (fun n => (c.dma n).busy)
  let c := (c.dmaReset.resetWords 0x048080 0x0480BC).resetWords 0x048800 0x048C07
  busy.foldl (fun c n => c.dmaErr n 3) c

/-- The USB4 link comes up, changes or goes down (R56, R58): generation 1 is not used, a link that is down carries no tunnel, and the USB 2.0
interface enumerates only in recovery (R67); a T build enumerates no DP adapter (R57); with the PCIe tunnel the function resets (R390). -/
def Chip.usb4Link (c : Chip) (gen lanes : Nat) (pcie dp usb2 : Bool) : Chip :=
  let gen := if gen % 4 = 1 then 0 else gen % 4
  let up := decide (gen ≠ 0)
  let pcie := pcie && up
  let lanes := if up then lanes else 0
  let lost := c.on F.USB4_LINK_PCIE_UP && !pcie
  let c := (c.set F.USB4_LINK_GEN gen).set F.USB4_LINK_LANES lanes
  let c := ((c.set F.USB4_LINK_PCIE_UP (b2n pcie)).set F.USB4_LINK_DP_UP (b2n (dp && up && decide (c.build = .S)))).set F.USB4_LINK_USB2_UP (b2n (usb2 && c.host.recovery))
  let c := if lost then c.pcieReset else c
  (c.cond E.USB4_LINK up).cond E.USB4_GEN2 (decide (gen = 2))

/-! ### USB 2.0 recovery (R67) -/

/-- A block of the image at its offset. -/
def Chip.recoveryBlock (c : Chip) (offset : Nat) (data : List Byte) : Chip :=
  if !c.host.recovery then c
  else
    let b := data.take 4096
    { c with host := { c.host with
      recoveryImage := memWrite 0xFF c.host.recoveryImage offset b, recoveryLen := max c.host.recoveryLen (offset + b.length) } }

/-! ### SRP and ARP (R68 to R71) -/

/-- An Ethernet frame of a path's own MAC address, padded to 60 bytes. -/
def Chip.ethOut (c : Chip) (path : Nat) (peer : NetPeer) (etype : Nat) (body : List Byte) : Chip :=
  let tag := if c.on F.SRP_PORT_VLAN_EN then beBytes 2 0x8100 ++ beBytes 2 (c.get F.SRP_PORT_VLAN_ID) else []
  let l := beBytes 6 peer.mac ++ beBytes 6 (c.pathMac path) ++ tag ++ beBytes 2 etype ++ body
  c.emit (.frame (path % 2) peer.sub (l ++ List.replicate (60 - l.length) 0))

/-- The checksum of 16-bit words. -/
def ipCheck (l : List Byte) (words : Nat) : Nat := 65535 - ipSum l words

/-- A UDP datagram to a peer. The identification and time to live of its IPv4 header are open; the UDP checksum is 0, not used. -/
def Chip.udpOut (c : Chip) (path : Nat) (peer : NetPeer) (data : List Byte) : Chip :=
  let id := c.openValue 16
  let ttl := id.2.openValue 8
  let src := c.get F.SRP_IPV4_ADDR
  let head := fun (sum : Nat) => beBytes 2 0x4500 ++ beBytes 2 (28 + data.length) ++ beBytes 2 id.1 ++ beBytes 2 0 ++ beBytes 1 ttl.1 ++
    beBytes 1 17 ++ beBytes 2 sum ++ beBytes 4 src ++ beBytes 4 peer.ip
  let udp := beBytes 2 (c.get F.SRP_PORT_UDP) ++ beBytes 2 peer.port ++ beBytes 2 (8 + data.length) ++ beBytes 2 0 ++ data
  ttl.2.ethOut path peer 0x0800 (head (ipCheck (head 0) 10) ++ udp)

/-- A response of SRP (R68). -/
def srpResponse (r : SrpReq) (status : Nat) (words : List Nat) : List Byte :=
  beBytes 2 0x5352 ++ beBytes 1 1 ++ beBytes 1 (if r.write then 0x82 else 0x81) ++ beBytes 4 r.seq ++ beBytes 4 r.addr ++ beBytes 2 r.count ++
    beBytes 2 status ++ words.flatMap (beBytes 4)

/-- A stored response sent again, with STATUS 1 (R71). -/
def srpRepeat (l : List Byte) : List Byte := l.take 14 ++ beBytes 2 1 ++ l.drop 16

/-- A datagram as a request; none where R69 drops it. DESIGN CHOICE (assumption log 121): an ADDR that is no multiple of 4 is not in the list of
R69; such a request is executed as misaligned accesses, which read 0 and write nothing, and is answered with STATUS 0. -/
def srpParse (path : Nat) (peer : NetPeer) (l : List Byte) : Option SrpReq :=
  let op := ofBe (slice l 3 1)
  let addr := ofBe (slice l 8 4)
  let count := ofBe (slice l 12 2)
  let ok := 16 ≤ l.length && ofBe (l.take 2) = 0x5352 && ofBe (slice l 2 1) = 1 && (op = 1 || op = 2) && 1 ≤ count && count ≤ 256 &&
    l.length = 16 + (if op = 2 then 4 * count else 0) && addr + 4 * count ≤ 0x1000000
  if ok then
    some { path := path % 2, peer := peer, write := decide (op = 2), seq := ofBe (slice l 4 4), addr := addr, count := count,
           words := (List.range count).map (fun k => ofBe (slice l (16 + 4 * k) 4)) }
  else none

/-- The session of a peer moves to the end of the list, with a new response; of nine the least recently used is dropped (R71). -/
def srpKeep (l : List SrpSession) (s : SrpSession) : List SrpSession :=
  let l := l.filter (fun x => !(x.ip = s.ip && x.port = s.port)) ++ [s]
  l.drop (l.length - 8)

/-- A request has been executed: counted, stored in its session, answered (R70, R71). -/
def Chip.srpAnswer (c : Chip) (j : SrpJob) : Chip :=
  let r := j.req
  let resp := srpResponse r 0 j.got
  let s : SrpSession := { ip := r.peer.ip, port := r.peer.port, seq := r.seq, response := resp }
  let c := { c with host := { c.host with srpJob := none, sessions := srpKeep c.host.sessions s } }
  (c.bump F.SRP_COUNT_EXECUTED).udpOut r.path r.peer resp

/-- The next request is taken up: a repeat of its session's last SEQ is answered from the store, any other is executed (R71). -/
def Chip.srpTake (c : Chip) (r : SrpReq) : Chip :=
  match c.host.sessions.find? (fun s => s.ip = r.peer.ip && s.port = r.peer.port && s.seq = r.seq) with
  | some s => { c with host := { c.host with sessions := srpKeep c.host.sessions s } }.udpOut r.path r.peer (srpRepeat s.response)
  | none => { c with host := { c.host with srpJob := some { req := r, next := 0, got := [] } } }

/-- The request in execution waits for a relay read. -/
def Chip.srpReads (c : Chip) : Bool := (c.host.relayOut.toList ++ c.host.relayQ).any (fun r => r.srp && decide (0 < r.size))

/-- The words of a request in ascending order; a read of the relay window waits for its response, a write for room in the relay's queue
(R70, R72). -/
def Chip.srpWords : Nat → Chip → Chip
  | 0, c => c
  | n + 1, c =>
    match c.host.srpJob with
    | none => c
    | some j =>
      let r := j.req
      let a := r.addr + 4 * j.next
      if c.srpReads then c
      else if r.count ≤ j.next then c.srpAnswer j
      else if c.mustWait (if r.write then .write { origin := .ethMgmt, addr := a, size := 4, data := 0 } 0 else .read .ethMgmt a 4 0) then c
      else
        let c : Chip := { c with host := { c.host with srpJob := some { j with next := j.next + 1 } } }
        if r.write then Chip.srpWords n (c.write32 .ethMgmt a (BitVec.ofNat 32 (r.words.getD j.next 0)))
        else
          let x := c.read32 .ethMgmt (c.get F.RELAY_TARGET_TILE_ID) a 0 4 true
          match x.1 with
          | none => x.2
          | some (w, _) =>
            Chip.srpWords n { x.2 with host := { x.2.host with srpJob := some { j with next := j.next + 1, got := j.got ++ [w.toNat] } } }

/-- Waiting requests are taken up in order of arrival while none is under way (R77). -/
def Chip.srpQueue : Nat → Chip → Chip
  | 0, c => c
  | n + 1, c =>
    let c := c.srpWords 258
    if c.host.srpJob.isSome then c
    else match c.host.srpQ with
      | [] => c
      | r :: q => Chip.srpQueue n ({ c with host := { c.host with srpQ := q } }.srpTake r)

def Chip.srpRun (c : Chip) : Chip := Chip.srpQueue (c.host.srpQ.length + 2) c

/-- A datagram for SRP arrives on a path (R68, R69). -/
def Chip.srpArrive (c : Chip) (path : Nat) (peer : NetPeer) (l : List Byte) : Chip :=
  if !c.srpOn path || c.build = .T || (c.on F.SRP_PORT_VLAN_EN && decide (peer.vlan ≠ some (c.get F.SRP_PORT_VLAN_ID))) then c
  else match srpParse path peer l with
    | none => (c.bumpSat F.SRP_COUNT_MALFORMED).raise E.SRP_MALFORMED
    | some r => { c with host := { c.host with srpQ := c.host.srpQ ++ [r] } }.srpRun

/-- An ARP request for SRP.IPV4 is answered on an enabled path (R70). DESIGN CHOICE (assumption log 122): with VLAN_EN = 1 a request without the
tag is answered too, and the answer carries the tag. -/
def Chip.arpAnswer (c : Chip) (path : Nat) (peer : NetPeer) (target : Nat) : Chip :=
  if !c.srpOn path || c.build = .T || decide (target ≠ c.get F.SRP_IPV4_ADDR) then c
  else c.ethOut path peer 0x0806 (beBytes 2 1 ++ beBytes 2 0x0800 ++ beBytes 1 6 ++ beBytes 1 4 ++ beBytes 2 2 ++ beBytes 6 (c.pathMac path) ++
    beBytes 4 target ++ beBytes 6 peer.mac ++ beBytes 4 peer.ip)

/-! ### Accesses go on -/

/-- What waited goes on: relay accesses, held accesses, the words of a request (R72, R77). -/
def Chip.pathsGo (c : Chip) : Chip := c.relayNext.heldNext.srpRun

/-- BOOT_IMAGE_SELECT (R375, R389): the boot ROM chooses an image, at a start or a restart of the Belfry. -/
def Chip.boot (c : Chip) : Chip :=
  if c.belfry.running && c.belfry.down.isNone then c
  else
    let c := c.bootSelect
    let c := c.when c.belfry.running Chip.logResume
    (c.when c.belfry.down.isNone Chip.imageStart).pathsGo

/-- The final request: the image is checked; it goes into slot A as CONFIRMED and the ROM starts again, or the request stalls (R67, R374). -/
def Chip.recoveryFinal (c : Chip) : Chip :=
  if !c.host.recovery then c
  else
    let rd : ImageRd := fun ofs n => memRead 0xFF c.host.recoveryImage ofs n
    if imgCheck c.build rd = 0 && decide (imgLength rd ≤ c.host.recoveryLen) then
      let c := (c.flashErase 0 0x1000000).flashProgram 0 (rd 0 (imgLength rd))
      let c := c.slotAppend 0 slConfirmed
      ({ c with host := { c.host with recoveryImage := [], recoveryLen := 0 } }.emit (.recovery false 0)).boot
    else c.emit (.recovery true 0)

/-! ### Relay responses (R72) -/

/-- The outstanding relay access ends; a read gives its data to the path or the SRP request that waits for it, and the next access leaves. -/
def Chip.relayEnd (c : Chip) (r : RelayReq) (result : Nat) (data : Nat) : Chip :=
  let c := { c with host := { c.host with relayOut := none } }.relayResult result
  let c := if r.write then c
    else if r.srp then
      match c.host.srpJob with
      | some j => if r.size = 0 then c else { c with host := { c.host with srpJob := some { j with got := j.got ++ [data] } } }
      | none => c
    else c.deliver r.origin (0x400000 + r.addr + r.lane) (subWord data r.lane r.size) false
  c.pathsGo

/-- A MGMT response with the tag of the outstanding access, read by the Belfry while it serves (R72, R200, R350). -/
def Chip.relayResponse (c : Chip) (cell : Nat) : Chip :=
  match c.host.relayOut with
  | none => c
  | some r =>
    let op := mgmtOp cell
    if c.build = .S && c.belfryUp && cellCrcOk cell && cellType cell = ctMgmt && mgmtTag cell = r.tag && cellTile cell = r.target && op = (if r.write then 3 else 2) then
      c.relayEnd r (if mgmtIgnored cell then 4 else 0) (mgmtData cell)
    else c

/-- No response within TIMEOUT: a read returns all ones (R72). While the Belfry does not serve, the access that waits longest times out (R350). -/
def Chip.relayTimeout (c : Chip) : Chip :=
  match c.host.relayOut with
  | some r => c.relayEnd r 1 0xFFFFFFFF
  | none =>
    match c.belfryUp, c.host.relayQ with
    | false, r :: q => { c with host := { c.host with relayQ := q } }.relayEnd r 1 0xFFFFFFFF
    | _, _ => c

/-! ### Received Ethernet frames (R113 to R117, R126) -/

/-- A frame received on a path: counted, and passed where R113 sends it; with its end its timestamp's mark is used up (R116). -/
def Chip.ethFrame (c : Chip) (path sub : Nat) (f : EthFrame) : Chip :=
  let ok := fun (c : Chip) => c.bump (ethF F.ETH_RX_OK_COUNT path)
  let c := if c.build = .T || !c.runs (ethPage path) then c
    else match c.ethFate path sub f with
    | .fcs => c.bump (ethF F.ETH_RX_FCS_COUNT path)
    | .drop => c.bump (ethF F.ETH_RX_DROP_COUNT path)
    | .arp peer => (ok c).arpAnswer path peer (c.get F.SRP_IPV4_ADDR)
    | .srp peer d => (ok c).srpArrive path peer d
    | .flow n d =>
      if f.overrun then (((ok c).bump (ethF F.ETH_OVERRUN_COUNT path)).raise (evDrop path)) else (ok c).flowPacket n path f.arrivalUs d
    | .ring => c.ringWrite path sub f
  if sub = 0 then c.setRxStamp path none else c

/-! ### MONITOR cells at a sender (R204, R205) -/

/-- Slots of the monitor ring. -/
def Chip.monSlots (c : Chip) : Nat := max 16 (min 4096 (c.get F.CHAINCTL_MON_SLOTS_SLOTS))

/-- A cell joins the monitor ring; a full ring drops it and raises MON_LOST on the tile's port. -/
def Chip.monRing (c : Chip) (cell : Nat) : Chip :=
  let head := c.get F.CHAINCTL_MON_HEAD_HEAD
  let next := (head + 1) % c.monSlots
  if next = c.get F.CHAINCTL_MON_TAIL_TAIL then c.cause (tilePortOf (cellTile cell)) cMonLost
  else (c.dramWrite dmChain (c.get F.CHAINCTL_MON_BASE_MON_BASE * 64 + head * 64) (cellBytes cell)).set F.CHAINCTL_MON_HEAD_HEAD next

/-- The entry of a tile in the status table. -/
def Chip.statusAddr (c : Chip) (tile : Nat) : Nat := c.get F.CHAINCTL_STATUS_BASE_STATUS_BASE * 65536 + tile % 1024 * 64

/-- A MONITOR cell that is no second copy (R205). -/
def Chip.monAccept (c : Chip) (cell : Nat) : Chip :=
  let tile := cellTile cell
  let p := tilePortOf tile
  match monKind cell with
  | 0 =>
    let c := c.dramWrite dmChain (c.statusAddr tile) (cellBytes cell)
    { c with bar := { c.bar with depths := c.bar.depths ++ [(c.barCount, nbits cell 95 72)] } }.showDepths
  | 1 => (c.monRing cell).cause p cMonEvent
  | 2 =>
    let r := c.dramFetch dmChain (c.statusAddr tile) 64
    let entry := ofLe r.1.1
    if entry = 0 || decide (nbits entry 255 192 ≠ nbits cell 159 96) then (r.2.monRing cell).cause p cTileJoin else r.2
  | _ => c

/-- A MONITOR cell arrives; a second copy is discarded (R205). -/
def Chip.monReceive (c : Chip) (cell : Nat) : Chip :=
  if c.build = .T || !cellCrcOk cell || cellType cell ≠ ctMonitor then c
  else
    let tile := cellTile cell
    let again := match smFind c.chain.monAccepted tile with
      | some last => decide ((last + 256 - cellSeq cell) % 256 < 128)
      | none => false
    if again then c else { c with chain := { c.chain with monAccepted := smSet c.chain.monAccepted tile (cellSeq cell) } }.monAccept cell

end Sys2Proof.Machine
end

