-- ==== Sys2Proof/Machine/LinkOps.lean ====
section
/-! DEFINITION. Cells received on a port: correction, forwarding and insertion at a tile, use at a tile and at a sender, and the pattern checker (spec/08_chain_link.md, R194 to R212, R223). -/

namespace Sys2Proof.Machine

/-! ### Reception of the four words (R195, R196) -/

/-- The block of word `w` that holds bit `b`: data bits 0 to 127, then check bits (R194). -/
def blockOf (w b : Nat) : Nat := if b < 64 then 2 * w else if b < 128 then 2 * w + 1 else 8

/-- One word received, with the lane of each block of its cell: a correction is counted on the lane that carried the bit; an uncorrectable
word gives its error record (R195, R196). -/
def Chip.rxWord (c : Chip) (p : Nat) (lanes : List Nat) (w : Nat) (x : RawWord) : Chip × List ErrRec :=
  match eccDecode x.data x.check with
  | .clean => (c, [])
  | .corrected _ b => (c.bump ((F.PORT_CORR_COUNT.pg p).plus (4 * lanes.getD (blockOf w b) 0)), [])
  | _ =>
    (c.cause p cUE, [{ ue := true, kind := 0, unit := c.rxUnit p, syndrome := (eccSyndrome x.data x.check).toNat, loc := w * 32 + x.cseq % 32 }])

/-- The cell sequence the receiver expects: any value in a first cell. -/
def PortSt.expects (s : PortSt) (r : RawCell) : Nat := s.rxSeq.getD r.w0.cseq

/-- The word of a slipped cell that is recorded: the first whose tail is not the expected one. -/
def slipWord (r : RawCell) (expect : Nat) : RawWord :=
  ([(0, r.w0), (1, r.w1), (2, r.w2), (3, r.w3)].find? (fun x => decide (x.2.index ≠ x.1 ∨ x.2.cseq ≠ expect))).map (·.2) |>.getD r.w0

/-- The four words of a cell are received: corrections, uncorrectable words, and a slip of its tails (R195, R196). -/
def Chip.rxWords (c : Chip) (p : Nat) (lanes : List Nat) (r : RawCell) : Chip :=
  let expect := (c.port p).expects r
  let f := fun (a : Chip × List ErrRec) (x : Nat × RawWord) => let b := a.1.rxWord p lanes x.1 x.2; (b.1, a.2 ++ b.2)
  let a := [(0, r.w0), (1, r.w1), (2, r.w2), (3, r.w3)].foldl f (c, [])
  let slipped := rawSlip r expect
  let x := slipWord r expect
  let errs := if slipped then a.2 ++ [c.slipRecord p (x.index % 4 * 32 + x.cseq % 32)] else a.2
  let c := a.1.report (portPage p) errs
  let c := c.setPort p { c.port p with rxSeq := some ((r.w0.cseq + 1) % 32) }
  if slipped then c.slip p else c

/-- Words of a cell that are uncorrectable, a bit for each. -/
def badWords (r : RawCell) : Nat :=
  b2n (wordRead r.w0).2 + 2 * b2n (wordRead r.w1).2 + 4 * b2n (wordRead r.w2).2 + 8 * b2n (wordRead r.w3).2

/-! ### Insertion and forwarding at a tile (R207, R208) -/

/-- The first cell waiting for insertion into a stream, and the port without it: relayed TOLL, MGMT responses, ECHO, MONITOR (R207). -/
def PortSt.insertion (s : PortSt) : Option (Nat × PortSt) :=
  match s.insToll with
  | x :: t => some (x, { s with insToll := t })
  | [] =>
    match s.insMgmt with
    | x :: t => some (x, { s with insMgmt := t })
    | [] =>
      match s.insEcho with
      | x :: t => some (x, { s with insEcho := t })
      | [] =>
        match s.insMonitor with
        | x :: t => some (x, { s with insMonitor := t })
        | [] => none

/-- On a fenced link only ECHO cells go on (R222). -/
def PortSt.echoInsertion (s : PortSt) : Option (Nat × PortSt) :=
  match s.insEcho with
  | x :: t => some (x, { s with insEcho := t })
  | [] => none

/-- A slot passes out of a port of a tile: its count advances. -/
def Chip.slotPassed (c : Chip) (q : Nat) (raw : Nat → RawCell) (inserted : Bool) : Chip :=
  let s := c.port q
  let n := if inserted then 1 else min 1024 (s.sinceInsert + 1)
  (c.setPort q { s with txSeq := (s.txSeq + 1) % 32, slot := s.slot + 1, sinceInsert := n }).sendCoded q (raw s.txSeq)

/-- An IDLE or freed slot passes out of a port of a tile: it takes the next insertion if 1,023 slots have passed since the last (R207). -/
def Chip.freeSlot (c : Chip) (q : Nat) (keep : Bool) : Chip :=
  let s := c.port q
  let next := if c.state (portPage q) = psFenced then s.echoInsertion else s.insertion
  match (if s.sinceInsert < 1024 || keep then none else next) with
  | some (x, s') => (c.setPort q s').slotPassed q (encodeCell x) true
  | none => c.slotPassed q (encodeCell idleCell) false

/-- The coded form in which a tile forwards a cell: words as R196 says, with the tail of its own link. -/
def forwardRaw (r : RawCell) (seq : Nat) : RawCell :=
  let f := fun (w : Nat) (x : RawWord) => { wordForward x with index := w, cseq := seq }
  { w0 := f 0 r.w0, w1 := f 1 r.w1, w2 := f 2 r.w2, w3 := f 3 r.w3 }

/-- ACC_DELAY as a DOWNBEAT cell is forwarded: D_in and FWD, saturating (R102). -/
def Chip.forwardDelay (c : Chip) (p cell : Nat) : Nat := min 0xFFFFFF ((Downbeat.ofCell cell).accDelay + c.linkDelay p + Config.fwdDelayPs)

/-- The cell received on a port leaves the partner port, where that one carries cells (R188, R196, R198, R208). -/
def Chip.forwardCell (c : Chip) (p : Nat) (r : RawCell) : Chip :=
  let q := partner p
  let cell := rawData r
  let header := badWords r % 2 = 0 && cellCrcOk cell
  if !c.portCarries q then c
  else if header && (cellType cell = ctEcho || (cellType cell = ctIdle && badWords r = 0)) then c.freeSlot q false
  else if header && badWords r = 0 && decide (cellType cell = ctDownbeat) then
    c.slotPassed q (encodeCell (cellWith cell 143 120 (c.forwardDelay p cell))) false
  else c.slotPassed q (forwardRaw r) false

/-- A tile's port sources its stream itself: the return stream of the last tile of a LINE, or a stream whose input is not there (R188, R193). -/
def Chip.sourcesStream (c : Chip) (q : Nat) : Bool := !c.portCarries (partner q)

/-! ### Management requests (R200) -/

/-- The tags executed on a ring. -/
def Chip.tags (c : Chip) (ring : Nat) : List Nat := if ring = 0 then c.chain.tagsP else c.chain.tagsS

/-- A tag is remembered among the last sixteen of its ring. -/
def Chip.noteTag (c : Chip) (ring tag : Nat) : Chip :=
  let l := c.tags ring ++ [tag]
  let l := l.drop (l.length - 16)
  { c with chain := if ring = 0 then { c.chain with tagsP := l } else { c.chain with tagsS := l } }

/-- The ring on which a cell arrives at a tile: S for ports 2 and 3 in DUAL RING. -/
def Chip.arrivalRing (c : Chip) (p : Nat) : Nat := if c.get F.CHAINCTL_TILE_CFG_TOPO = 2 then ringOf p else 0

/-- The access of a request: whether it is ignored, and the data of the response (R200). -/
def Chip.mgmtAccess (c : Chip) (cell : Nat) : (Bool × Nat) × Chip :=
  let addr := mgmtAddr cell
  if 0x400000 ≤ addr then ((true, 0), c.badAccess .chainRelay 0 addr)
  else if addr % 4 ≠ 0 then ((true, 0), c.badAccess .chainRelay 3 addr)
  else if mgmtOp cell = 0 then
    let r := c.read32 .chainRelay 0 addr
    ((false, (r.1.map (fun x => x.1.toNat)).getD 0), r.2)
  else (((c.ignoredReason addr 4).isSome, mgmtData cell), c.write32 .chainRelay addr (BitVec.ofNat 32 (mgmtData cell)))

/-- A MGMT request at a tile: executed once, and answered unless it is a broadcast (R200, R74). -/
def Chip.tileMgmt (c : Chip) (p cell : Nat) : Chip :=
  let ring := c.arrivalRing p
  if 2 ≤ mgmtOp cell || (c.tags ring).contains (mgmtTag cell) then c
  else
    let r := (c.noteTag ring (mgmtTag cell)).mgmtAccess cell
    if cellTile cell = 0x1FFF then r.2
    else
      let answer := mkMgmt (c.get F.CHAINCTL_TILE_ID_ID) (mgmtOp cell + 2) r.1.1 (mgmtTag cell) (mgmtAddr cell) r.1.2 false
      let x := r.2.withSeq p answer
      x.2.setPort p { x.2.port p with insMgmt := (x.2.port p).insMgmt ++ [x.1] }

/-! ### Use of a cell (R203, R209 to R212) -/

/-- An ECHO cell: a request is answered on the same link with its turnaround; the response to a request that is out gives a measurement (R101, R203). -/
def Chip.echoCell (c : Chip) (p cell measured : Nat) : Chip :=
  if echoResp cell then
    let s := c.port p
    if s.echoOut.contains (echoSeq cell) then
      (c.setPort p { s with echoOut := s.echoOut.erase (echoSeq cell) }).echoMeasure p (measured - echoTurn cell)
    else c
  else
    let x := c.withSeq p (mkEcho measured (echoSeq cell) true)
    let s := x.2.port p
    x.2.setPort p (match c.build with
      | .S => { s with qEcho := s.qEcho ++ [x.1] }
      | .T => { s with insEcho := s.insEcho ++ [x.1] })

/-- The tile at position 0 relays a TOLL cell of one ring into the other (R202). -/
def Chip.tollRelay (c : Chip) (p cell : Nat) : Chip :=
  let q := if p = 0 then 2 else 0
  if c.get F.CHAINCTL_TILE_CFG_TOPO = 2 && c.get F.CHAINCTL_TILE_ID_VALID = 1 && c.get F.CHAINCTL_TILE_ID_ID % 64 = 0 && decide (p = 0 ∨ p = 2) then
    c.setPort q { c.port q with insToll := (c.port q).insToll ++ [cellWith cell 68 68 1] }
  else c

/-- The tile's ID, or the broadcast ID while it has none (R210). -/
def Chip.ownId (c : Chip) : Nat := if c.on F.CHAINCTL_TILE_ID_VALID then c.get F.CHAINCTL_TILE_ID_ID else 0x1FFF

/-- A cell is addressed to the tile (R210, R201). -/
def Chip.addressed (c : Chip) (cell : Nat) : Bool :=
  let t := cellTile cell
  let group := cellType cell = ctBulk && bulkGroup cell
  if group then c.on F.CHAINCTL_TILE_ID_VALID && decide (t / 64 = c.ownId / 64) else t = 0x1FFF || decide (t = c.ownId)

/-- A tile uses a cell whose header is good (R201, R210 to R212, R227); `bad` has a bit for each uncorrectable word. -/
def Chip.tileUse (c : Chip) (p cell bad arrivalPs measured : Nat) : Chip :=
  match cellType cell with
  | 1 => if c.addressed cell then c.pixelArrive p cell bad else c
  | 2 => if c.addressed cell then Chip.tileDownbeat Chip.obeyChanged c p cell (33 * arrivalPs) (decide (bad = 0)) else c
  | 3 => if bad = 0 && c.addressed cell then c.tileMgmt p cell else c
  | 4 =>
    if bad = 0 && c.addressed cell && decide (1 ≤ bulkLen cell) && decide (bulkLen cell ≤ 48) then
      match bulkArea cell with
      | 0 => c.bulkStage cell
      | 1 => c.bulkCalib cell
      | 2 => c.bulkHold cell
      | _ => c
    else c
  | 5 => if bad = 0 then c.tollRelay p cell else c
  | 6 => if bad = 0 then c.echoCell p cell measured else c
  | _ => c

/-- A sender takes a good cell from a tile port (R72, R202, R205). -/
def Chip.senderUse (c : Chip) (p cell measured : Nat) : Chip :=
  match cellType cell with
  | 3 => c.relayResponse cell
  | 5 => if tollSlot cell = c.pairSlot then c else c.heartbeat true (tollSeq cell) (tollState cell) (tollSlot cell)
  | 6 => c.echoCell p cell measured
  | 7 => c.monReceive cell
  | _ => c

/-- A STACK port takes a good cell: DOWNBEAT, ECHO and IDLE; another type is stray (R107, R209). -/
def Chip.stackUse (c : Chip) (p cell arrivalPs measured : Nat) : Chip :=
  match cellType cell with
  | 0 => c
  | 2 =>
    if p = c.get F.STACK_CONFIG_IN_PORT then
      let r := c.openValue 18
      r.2.masterDownbeat cell (arrivalPs / 1000) r.1
    else c
  | 6 => c.echoCell p cell measured
  | _ => c.cause p cStray

/-- The tile's time is not before an arrival. -/
def Chip.tileNow (c : Chip) (at33 : Nat) : Chip := c.setSched { c.tile.sched with now33 := max c.tile.sched.now33 at33 }

/-- A follower forwards a DOWNBEAT of IN_PORT that it cannot use as a tile forwards such a cell: its bad words poisoned, or as received
(R107, R196, R197, R209). -/
def Chip.stackPass (c : Chip) (p : Nat) (r : RawCell) : Chip :=
  if c.build = .S && c.portMode p = 4 && p = c.get F.STACK_CONFIG_IN_PORT && cellType (rawData r) = ctDownbeat && c.stackOut && !c.isMaster then
    let q := c.get F.STACK_CONFIG_OUT_PORT
    let s := c.port q
    (c.setPort q { s with txSeq := (s.txSeq + 1) % 32, slot := s.slot + 1, bulkSlots := if s.slot % 16 = 0 then 0 else s.bulkSlots }).sendCoded q
      (forwardRaw r s.txSeq)
  else c

/-- A cell whose header CRC fails is not used; a tile that finds it a DOWNBEAT counts it out of range (R105, R197). -/
def Chip.badHeader (c : Chip) (p : Nat) (r : RawCell) : Chip :=
  let c := ((c.stackPass p r).bumpSat (F.PORT_CELL_ERR_CRC_FAIL.pg p)).cause p cHdrCrc
  if c.build = .T && cellType (rawData r) = ctDownbeat then c.raise E.DB_RANGE else c

/-- A received cell is used: its words must be correct and its header CRC right (R197, R210). -/
def Chip.useCell (c : Chip) (p : Nat) (r : RawCell) (arrivalPs measured : Nat) : Chip :=
  let cell := rawData r
  let bad := badWords r
  if bad % 2 = 1 then c
  else if !cellCrcOk cell then c.badHeader p r
  else if c.state (portPage p) = psFenced then (if bad = 0 && cellType cell = ctEcho then c.echoCell p cell measured else c)
  else match c.build with
    | .T => (c.tileNow (33 * arrivalPs)).tileUse p cell bad arrivalPs measured
    | .S => if bad ≠ 0 then c.stackPass p r else if c.portMode p = 4 then c.stackUse p cell arrivalPs measured else c.senderUse p cell measured

/-- A cell has arrived on a port, by the lanes given: received, forwarded by a tile, and used (R195, R196, R208, R210). -/
def Chip.cellArrive (c : Chip) (p : Nat) (lanes : List Nat) (r : RawCell) (arrivalPs measured : Nat) : Chip :=
  if !(c.portCarries p || c.state (portPage p) = psFenced) then c
  else
    let slipped := rawSlip r ((c.port p).expects r)
    let c := c.rxWords p lanes r
    let c := match c.build with | .T => c.forwardCell p r | .S => c
    if slipped then c else c.useCell p r arrivalPs measured

/-- Blocks arrive on a port, in the order in which its deskew buffer gives them; a cell that they complete has arrived (R189 to R195). -/
def Chip.cellReceive (c : Chip) (p : Nat) (blocks : List LineBlock) (arrivalPs measured : Nat) : Chip :=
  if c.numPorts ≤ p || c.state (portPage p) = psOff then c
  else blocks.foldl (fun c b =>
    let r := c.rxBlock c.identity p b
    match r.1 with
    | some nine => r.2.cellArrive p (nine.map (·.1)) (joinBlocks (nine.map (·.2))) arrivalPs measured
    | none => r.2) c

/-- The blocks in which payloads arrive on a port: laid on the lanes of the map received and scrambled as the lanes' descramblers expect
them (R190, R191). -/
def Chip.arriving (c : Chip) (p : Nat) (payloads : List Nat) : List LineBlock :=
  let s := c.port p
  let step := fun (a : List LineBlock × PortSt) (b : LineBlock) =>
    let x := a.2.lane b.lane
    let g := x.scr.getD 0
    (a.1 ++ [{ b with payload := scrambleBits g b.payload }], a.2.setLane b.lane { x with scr := x.scr.map (prbsAfter 64) })
  (((payloads.zipIdx s.rxPos).flatMap (fun x => laneBlocks (c.rxMap p) x.2 x.1)).foldl step ([], s)).1

/-- An IDLE cell arrives on a port of a tile (R198). -/
def Chip.idleArrive (c : Chip) (p : Nat) : Chip :=
  c.cellReceive p (c.arriving p (cellBlocks (encodeCell idleCell ((c.port p).rxSeq.getD 0)))) 0 0

/-- A slot in which a tile may insert: one of a stream that it sources, or of a fenced link, where it leaves every 16th IDLE; or an IDLE slot that
arrives on the partner port (R206, R207, R222). -/
def Chip.tileInsert (c : Chip) (q : Nat) : Chip :=
  if c.build = .S || !(c.portCarries q || c.state (portPage q) = psFenced) then c
  else if c.sourcesStream q || c.state (portPage q) = psFenced then c.freeSlot q (decide ((c.port q).slot % 16 = 0))
  else if (c.port (partner q)).rxIndex = 0 then c.idleArrive (partner q)
  else c

/-! ### Slots of a sender (R206) -/

/-- A sender fills one slot of a port; a downbeat that is due goes before everything in the next slot that is not reserved. -/
def Chip.cellSlot (c : Chip) (p : Nat) : Chip :=
  let s := c.port p
  if c.build = .T || 16 ≤ p then c
  else if c.state (portPage p) = psFenced then
    match s.qEcho with
    | x :: t => if s.slot % 16 = 0 then c.sendSlot p idleCell else (c.setPort p { s with qEcho := t }).sendSlot p x
    | [] => c.sendSlot p idleCell
  else if !c.portCarries p then c
  else if c.bar.dbDue.isSome && decide (s.slot % 16 ≠ 0) && (c.tilePort p || (decide (p = c.get F.STACK_CONFIG_OUT_PORT) && c.on F.STACK_CONFIG_OUT_EN)) then c
  else
    match c.slotPick p with
    | .idle => c.sendSlot p idleCell
    | .toll =>
      match s.qToll with
      | x :: t => (c.setPort p { s with qToll := t }).sendSlot p x
      | [] => c
    | .echo =>
      match s.qEcho with
      | x :: t => (c.setPort p { s with qEcho := t }).sendSlot p x
      | [] => c
    | .mgmt =>
      match s.qMgmt with
      | x :: t => (c.setPort p { s with qMgmt := t }).sendSlot p x
      | [] => c
    | .bulk =>
      match s.qBulk with
      | x :: t =>
        let c := (c.setPort p { s with qBulk := t }).sendSlot p x
        (c.setPort p { c.port p with bulkSlots := (c.port p).bulkSlots + 1 }).bulkSettled
      | [] => c
    | .pixel =>
      match s.qPixel with
      | e :: t => ((c.setPort p { s with qPixel := t }).sendSlot p e.cell).pixelSent p e
      | [] => c

/-! ### Test patterns (R223) -/

/-- The checker of a lane runs: EN = 0, the lane in CHK_LANES, and a pattern set. -/
def Chip.checks (c : Chip) (p l : Nat) : Bool :=
  !c.en (portPage p) && decide (c.get (F.PORT_TEST_CHK_LANES.pg p) / 2 ^ l % 2 = 1) && decide (1 ≤ c.get (F.PORT_TEST_PATTERN.pg p)) &&
    decide (c.get (F.PORT_TEST_PATTERN.pg p) ≤ 5)

/-- The LOCK bit of a lane's checker. -/
def lockFld (p l : Nat) : Fld := (F.PORT_TEST_ERR1_LOCK.pg p).plus (8 * l)

/-- A bit error counted: 48 bits, saturating; the first after lock raises TEST_ERR. -/
def Chip.bitError (c : Chip) (p l : Nat) : Chip :=
  let lo := (F.PORT_TEST_ERR_ERR_LO.pg p).plus (8 * l)
  let hi := (F.PORT_TEST_ERR1_ERR_HI.pg p).plus (8 * l)
  let n := min (2 ^ 48 - 1) (c.get hi * 2 ^ 32 + c.get lo + 1)
  let c := (c.set lo (n % 2 ^ 32)).set hi (n / 2 ^ 32)
  let s := c.port p
  let x := s.lane l
  if x.chkFirst then c else (c.setPort p (s.setLane l { x with chkFirst := true })).cause p cTestErr

/-- One bit reaches a checker. Locked, it follows its own pattern and counts a bit that differs; before, it follows the bits received, and
locks after 64 that had no error. -/
def Chip.checkBit (c : Chip) (p l : Nat) (bit : Bool) : Chip :=
  let k := c.get (F.PORT_TEST_PATTERN.pg p)
  let s := c.port p
  let x := s.lane l
  let want := patternNext k x.chkHist
  let hist := fun (b : Nat) => (x.chkHist * 2 + b) % 2 ^ 64
  if c.on (lockFld p l) then
    let c := c.setPort p (s.setLane l { x with chkHist := hist want })
    if b2n bit = want then c else c.bitError p l
  else
    let user := c.get (F.PORT_USER_LO_USER_LO.pg p) + c.get (F.PORT_USER_HI_USER_HI.pg p) * 2 ^ 32
    let good := if k = 5 then isUser user (hist (b2n bit)) else b2n bit = want
    let run := if !good then 0 else if k = 5 then 64 else x.chkRun + 1
    let y := { x with chkHist := hist (b2n bit), chkSeen := min 64 (x.chkSeen + 1), chkRun := if x.chkSeen + b2n (decide (k = 5)) < patternDepth k then 0 else run }
    let c := c.setPort p (s.setLane l y)
    if 64 ≤ y.chkRun then c.set (lockFld p l) 1 else c

/-- Bits reach the pattern checker of a lane (R223). -/
def Chip.testErr (c : Chip) (p l : Nat) (bits : List Bool) : Chip :=
  if c.numPorts ≤ p || 3 ≤ l || !c.checks p l then c else bits.foldl (fun c b => c.checkBit p l b) c

end Sys2Proof.Machine
end

