-- ==== Sys2Proof/Machine/BringupOps.lean ====
section
/-! DEFINITION. What the Belfry does at start: settings and their migration, calibration, dose totals and gains, and the end of each bring-up step (spec/15_update_settings.md, spec/16_start_up.md). -/

namespace Sys2Proof.Machine

/-! ### Banks the Belfry takes to write (R225, R250) -/

/-- The Belfry owns a bank while `f` writes it, and hands it back. -/
def Chip.belfryHolds (c : Chip) (b : Nat) (f : Chip → Chip) : Chip :=
  let was := (c.bank b).owner
  let c := c.retireAll b
  let c := (f (c.setBank b { c.bank b with owner := 2 })).retireAll b
  c.setBank b { c.bank b with owner := was }

/-- Bytes written by the Belfry from a byte of the SRAM window on. -/
def Chip.belfryWrite (c : Chip) (ofs : Nat) (bytes : List Byte) : Chip :=
  (wordLanes ofs (bytes.map some)).foldl (fun c x => c.bankWriteWord 2 x.1 x.2) c

/-! ### Settings (R320, R383, R384) -/

/-- One settings record applied with origin BELFRY: a register run, lane calibration sets, remap entries, or the save list. -/
def Chip.applyRecord (c : Chip) (r : SetRec) : Chip :=
  let at_ := r.words.zipIdx
  match r.typ with
  | 1 => at_.foldl (fun c w => c.write32 .belfry (r.addr + 4 * w.2) (BitVec.ofNat 32 w.1)) c
  | 2 =>
    let p := (r.addr - 0x08007C) / 4096
    if c.numPorts ≤ p then c
    else c.setPort p { c.port p with cal := at_.foldl (fun m w => smSet m (4 * (w.2 / 3) + w.2 % 3) (BitVec.ofNat 32 w.1)) (c.port p).cal }
  | 3 =>
    at_.foldl (fun c w =>
      let a := r.addr + 4 * w.2
      if 0x1000000 ≤ a then c.dramRemap ((a - 0x1000000) / 64 % 4) ((a - 0x1000000) / 4 % 16) (BitVec.ofNat 32 w.1)
      else c.write32 .belfry a (BitVec.ofNat 32 w.1)) c
  | 4 => c.setUpd { c.upd with saveList := at_.foldl (fun m w => smPut 0 m w.2 (w.1 % 2 ^ 24)) c.upd.saveList }
  | _ => c

/-- The device starts with reset values (R384). -/
def Chip.settingsDefault (c : Chip) : Chip :=
  ((c.set F.SETTINGS_STATUS_DEFAULTED 1).raise E.SETTINGS_FAIL).logUpd 9 0

/-- The copy in use was migrated earlier in this trial: the image of the other slot, the confirmed one, cannot read it, but can read the
other copy (R384; assumption log 172). -/
def Chip.migratedBefore (c : Chip) (k : Nat) (i : CopyInfo) : Bool :=
  let fmt := imgSettingsFmt (c.slotRd c.otherSlot)
  decide (fmt < i.format) && (c.copyInfo arSettings 0 (1 - k)).any (fun x => decide (x.format ≤ fmt))

/-- A trial image converts a copy of an older FORMAT, the words of a record staying as they are; the other position gets it by a journaled write.
A migration of an earlier start of the trial awaits CONFIRM still (R371, R384). -/
def Chip.settingsMigrate (c : Chip) (k : Nat) (i : CopyInfo) (recs : List SetRec) : Chip :=
  if !c.onTrial then c
  else if c.upd.settingsFmt ≤ i.format then c.when (c.migratedBefore k i) (fun c => c.set F.SETTINGS_STATUS_MIGRATED 1)
  else
    let payload := recs.flatMap (fun r => { r with format := c.upd.settingsFmt }.encode)
    (c.setBelfry { c.belfry with migrate := some (k, payload) }).set F.SETTINGS_STATUS_SAVING 1

/-- Records that a tile loads with its calibration: the lane sets (R391 step 11). -/
def Chip.lateRecord (c : Chip) (r : SetRec) : Bool := c.build = .T && decide (r.typ = 2)

/-- The newest readable copy is applied: remap entries first, then the other records in order (R384, R320). -/
def Chip.settingsRead (c : Chip) : Chip :=
  match c.readableSettings with
  | none => c.settingsDefault
  | some (k, i) =>
    let payload := c.copyPayload arSettings 0 k i
    let recs := setDecode payload.length payload
    let c := c.showCopy k i
    let c := (recs.filter (fun r => r.typ = 3)).foldl Chip.applyRecord c
    let c := (recs.filter (fun r => r.typ ≠ 3 && !c.lateRecord r)).foldl Chip.applyRecord c
    c.settingsMigrate k i recs

/-- Owners of banks 0 to 3 named in the settings: the last register run that covers BANK.OWNER, else the reset value (R396). -/
def Chip.settingsOwner (c : Chip) (b : Nat) : Nat :=
  let a := F.BANK_OWNER_OWNER.addr + 4096 * b
  match c.readableSettings with
  | none => 0
  | some (k, i) =>
    let payload := c.copyPayload arSettings 0 k i
    let hits := (setDecode payload.length payload).filter (fun r => r.typ = 1 && decide (r.addr ≤ a) && decide (a < r.addr + 4 * r.words.length))
    match hits.getLast? with
    | some r => r.words.getD ((a - r.addr) / 4) 0 % 8
    | none => 0

/-- The banks get their owners at start: at a tile the pipeline (R225); at a sender banks 0 to 3, with the image's holding image, go to
scan-out (R395). -/
def Chip.startBanks (c : Chip) (w h : Nat) (image : List Byte) : Chip :=
  match c.build with
  | .T => (List.range 8).foldl (fun c b => c.writeField .belfry (F.BANK_OWNER_OWNER.pg b) 3) c
  | .S =>
    let n := 4 * w * h
    let ok := decide (w ≤ 1024) && decide (h ≤ 1024) && decide (0 < n) && decide (image.length = n)
    let c := if ok then
        let c := (List.range 4).foldl (fun c b => c.belfryHolds b (fun c => c.belfryWrite (b * 1048576) (slice image (b * 1048576) 1048576))) c
        (c.set F.RESET_HOLD_SIZE_W w).set F.RESET_HOLD_SIZE_H h
      else c
    (List.range 4).foldl (fun c b => c.writeField .belfry (F.BANK_OWNER_OWNER.pg b) 5) c

/-- The settings are applied at start, once after a reset; on timeout the reset values stand (R384, R391 step 6, R395, R398). -/
def Chip.settingsApply (c : Chip) (timedOut : Bool) (w h : Nat) (image : List Byte) : Chip :=
  if !c.belfry.running || c.get F.RESET_BRINGUP_DONE / 32 % 2 = 1 then c
  else
    let c := c.noteBroken
    let c := if timedOut then c.settingsDefault else c.settingsRead
    c.startBanks w h image

/-- With the DRAM filled, scan-out leaves the SRAM canvas: SRAM_CANVAS is cleared with a commit of the RESET page, and banks 0 to 3 are to go
back (R396). -/
def Chip.leaveSramCanvas (c : Chip) : Chip :=
  if c.build = .T || !c.belfryUp || !c.on F.ECC_STATUS_DRAM_FILLED || !c.on F.RESET_SERVICE_SRAM_CANVAS then c
  else
    let c := (c.writeField .belfry F.RESET_SERVICE_SRAM_CANVAS 0).writeCommit .belfry 0x003
    c.setBelfry { c.belfry with banksDue := true }

/-- Once scan-out has left the SRAM canvas, banks 0 to 3 go back to the owners of the settings (R306, R396; assumption log 163). -/
def Chip.banksBack (c : Chip) : Chip :=
  if !c.belfry.banksDue || c.sramScanned then c
  else
    let c := c.setBelfry { c.belfry with banksDue := false }
    (List.range 4).foldl (fun c b => c.writeField .belfry (F.BANK_OWNER_OWNER.pg b) (c.settingsOwner b)) c

/-! ### Calibration (R250, R384, R391 step 11; layout of the payload: assumption log 50) -/

/-- Bytes of the coefficient set in the payload. -/
def calCoef : Nat := 884736

/-- A little-endian table of `n` entries of `w` bytes of a payload, under rising keys. -/
def tableOf (payload : List Byte) (ofs w n : Nat) : SMap Nat := (List.range n).map (fun i => (i, ofLe (slice payload (ofs + w * i) w)))

/-- The newest calibration copy is loaded: the coefficient set into the inactive bank, then committed; temperature tables, trim sets,
short-pulse LUT and dose curves. Without a valid copy coefficients stay uniform and trim codes 0 (R391 step 11). -/
def Chip.calibLoad (c : Chip) : Chip :=
  match c.newestCopy arCalib 0 with
  | none => c.raise E.JOURNAL_FAIL
  | some (k, i) =>
    let l := c.copyPayload arCalib 0 k i
    let set := 1 - c.use F.CORRECT_CTRL_COEF_SET
    let c := c.belfryHolds (3 + set) (fun c => c.belfryWrite ((3 + set) * 1048576) (slice l 4 (18 * c.lamps)))
    let o := 4 + calCoef
    let c := c.setTile { c.tile with
      tc := tableOf l o 2 48
      curveDose := (List.range 48).map (fun n => (n, ofLe (slice l (o + 9696 + 6 * n) 4)))
      curveLum := (List.range 48).map (fun n => (n, ofLe (slice l (o + 9696 + 6 * n + 4) 2))) }
    let c := c.setDrive { c.drive with
      trim := (tableOf l (o + 96) 1 9216).map (fun p => (p.1, p.2 % 64))
      spl := (tableOf l (o + 9312) 2 192).map (fun p => (p.1, splValue p.2)), trimDirty := false }
    let c := c.writeField .belfry (if set = 0 then F.CORRECT_CTRL_COEF_VALID_0 else F.CORRECT_CTRL_COEF_VALID_1) 1
    let c := (c.writeField .belfry F.CORRECT_CTRL_COEF_SET set).writeCommit .belfry pgCorrect
    c.writeCommit .belfry pgDrive

/-- The lane sets of the settings are loaded at a tile (R216, R391 step 11). -/
def Chip.laneSets (c : Chip) : Chip :=
  match c.readableSettings with
  | none => c
  | some (k, i) =>
    let payload := c.copyPayload arSettings 0 k i
    ((setDecode payload.length payload).filter c.lateRecord).foldl Chip.applyRecord c

/-- The calibration is loaded now, or as soon as OLD_BUSY reads 0 (R250). -/
def Chip.calibStart (c : Chip) : Chip := if c.on F.CORRECT_STATUS_OLD_BUSY then c.setBelfry { c.belfry with calibDue := true } else c.calibLoad

/-! ### Dose totals and gains (R248, R249, R391 step 12) -/

/-- The dose totals of the newest dose store copy. -/
def Chip.doseLoad (c : Chip) : Chip :=
  match c.newestCopy arDose 0 with
  | none => c.raise E.JOURNAL_FAIL
  | some (k, i) =>
    let l := c.copyPayload arDose 0 k i
    c.setDrive { c.drive with doseTotals := tableOf l 0 8 (i.length / 8) }

/-- The gain table goes into the inactive bank and is committed (R249, R250). -/
def Chip.gainsCommit (c : Chip) (fill : Chip → Chip) : Chip :=
  let sel := 1 - c.use F.DOSE_CTRL_GAIN_SEL
  let c := c.belfryHolds (6 + sel) fill
  (c.writeField .belfry F.DOSE_CTRL_GAIN_SEL sel).writeCommit .belfry pgDose

/-- The gains of the present totals, written and committed (R249). -/
def Chip.ageingGains (c : Chip) : SMap Nat × Chip :=
  let g := c.gainsOf
  (g.1, g.2.gainsCommit (fun c => c.gainsWrite g.1))

/-- The daily gains, kept in the history (R248, R249). -/
def Chip.dailyGains (c : Chip) : Chip :=
  let g := c.ageingGains
  g.2.noteDay g.1

/-- The daily gains; the Belfry waits while a build still uses the inactive table (R249, R250). -/
def Chip.gainUpdate (c : Chip) : Chip :=
  if c.build = .S || !c.belfryUp then c
  else if c.on F.DOSE_STATUS_OLD_BUSY then c.setBelfry { c.belfry with gainDue := true }
  else c.dailyGains

/-- Loads that waited for OLD_BUSY to read 0 (R250). -/
def Chip.loadsDue (c : Chip) : Chip :=
  if c.build = .S then c
  else if c.belfry.calibDue && !c.on F.CORRECT_STATUS_OLD_BUSY then (c.setBelfry { c.belfry with calibDue := false }).calibLoad
  else if c.belfry.gainDue && !c.on F.DOSE_STATUS_OLD_BUSY then (c.setBelfry { c.belfry with gainDue := false }).dailyGains
  else c

/-- Every gain 32,768 (R391 step 12). -/
def Chip.gainsUniform (c : Chip) : Chip :=
  c.gainsCommit (fun c => c.belfryWrite ((7 - c.use F.DOSE_CTRL_GAIN_SEL) * 1048576) (List.replicate (3 * c.lamps) [0x00, 0x80]).flatten)

/-- The dose store is to be written, in full (R248, R384). -/
def Chip.doseFlushed (c : Chip) : Chip :=
  if c.build = .S || !c.belfryUp then c
  else
    let c := c.doseFlush
    if c.belfry.journal.contains (arDose, 0) then c else c.setBelfry { c.belfry with journal := c.belfry.journal ++ [(arDose, 0)] }

/-- The dose totals as a payload. -/
def Chip.dosePayload (c : Chip) : List Byte := (List.range (3 * c.lamps)).flatMap (fun e => leBytes 8 (smGet 0 c.drive.doseTotals e))

/-- The dose store is written. -/
def Chip.writeDose (c : Chip) (ok1 ok2 : Bool) : Chip :=
  if !c.belfry.journal.contains (arDose, 0) then c
  else
    let seq := c.nextSeq arDose 0
    let payload := c.dosePayload
    let c := c.setBelfry { c.belfry with journal := c.belfry.journal.filter (fun x => x ≠ (arDose, 0)) }
    let c := c.writeCopy arDose 0 c.upd.settingsFmt payload ok1 ok2
    if ok1 || ok2 then c.logUpd 11 seq else c

/-- The trim sets as bytes of the calibration payload, at its byte `calCoef` + 100. -/
def Chip.trimBytes (c : Chip) : List Byte := (List.range 9216).map (fun i => BitVec.ofNat 8 (smGet 0 c.drive.trim i))

/-- Trim sets that have changed are stored in the calibration area, once an hour at most: the newest copy is written anew with their bytes. A
device without a calibration copy, or with a replacement by BULK cells under way, waits (R267, R371, R384; assumption log 152). -/
def Chip.writeTrim (c : Chip) (ok1 ok2 : Bool) : Chip :=
  let wait := match c.drive.trimStored with | some t => decide (c.clockS < t + 3600) | none => false
  if !c.drive.trimDirty || wait || c.upd.calOpen then c
  else match c.newestCopy arCalib 0 with
    | none => c
    | some (k, i) =>
      let l := c.copyPayload arCalib 0 k i
      let seq := c.nextSeq arCalib 0
      let at_ := 4 + calCoef + 96
      let c := c.setDrive { c.drive with trimDirty := false, trimStored := some c.clockS }
      let c := c.writeCopy arCalib 0 i.format (l.take at_ ++ c.trimBytes ++ l.drop (at_ + 9216)) ok1 ok2
      if ok1 || ok2 then c.logUpd 10 seq else c

/-- A journaled copy is written by the Belfry: settings, a calibration whose pages have come or the trim sets of the one in use, a holding image, or
the dose store (R371, R384). -/
def Chip.journalWrite (c : Chip) (area index : Nat) (ok1 ok2 : Bool) : Chip :=
  if !c.belfryUp then c
  else match area, c.build with
    | 1, _ => c.writeSetArea ok1 ok2
    | 2, .T => if c.calibWaits then c.commitCalib ok1 ok2 else c.writeTrim ok1 ok2
    | 3, .T => if index < 4 then c.writeHold index ok1 ok2 else c
    | 4, .T => c.writeDose ok1 ok2
    | _, _ => c

/-! ### The flash at the knell (R361, R363, R372) -/

/-- The COMMIT of the journaled copy under way is programmed. -/
def Chip.knellCommit (c : Chip) : Chip :=
  match c.belfry.migrate with
  | some (k, payload) => (c.setBelfry { c.belfry with migrate := none }).writeCopyTo arSettings 0 (1 - k) c.upd.settingsFmt payload true true
  | none =>
    if c.on F.SETTINGS_STATUS_SAVING then (c.writeCopy arSettings 0 c.upd.settingsFmt c.settingsPayload true true).set F.SETTINGS_STATUS_SAVING 0
    else if c.calibWaits then c.commitCopy arCalib 0 (c.otherCopy arCalib 0) true
    else if c.belfry.journal.contains (arDose, 0) then
      ({ c with belfry := { c.belfry with journal := c.belfry.journal.filter (fun x => x ≠ (arDose, 0)) } }).writeCopy arDose 0 c.upd.settingsFmt c.dosePayload true true
    else c

/-- The flash program or erase in progress at the knell completes, or is aborted; nothing that would follow it is begun. Which program of a
journaled copy is in progress is open: one that is the COMMIT makes the copy valid. -/
def Chip.knellFlash (c : Chip) (outcome : Nat) : Chip :=
  if outcome = 0 then c
  else if outcome ≠ 1 then c.interruptFlash
  else
    let last := c.openValue 1
    let c := last.2.cutBlock true
    let c := { c with upd := { c.upd with writing := none } }
    (if last.1 = 1 then c.knellCommit else c).interruptFlash

/-- t3 to t5: the flash operation has ended, the record is programmed, KNELL is latched (R361, R363). -/
def Chip.knellEnd (c : Chip) (completed : Bool) : Chip :=
  if c.aon.knell.isNone || !c.aon.stopped || c.aon.latched then c
  else
    let o := c.knellOutcome completed
    let d := (c.knellFlash o).knellWrite o
    { d with aon := { d.aon with latched := true } }.pinsSince c

/-! ### Ends of bring-up steps (R391) -/

/-- What the end of a step leaves beside its bits: the calibration at step 11, the gains at step 12; steps of parts the build lacks do not run. -/
def Chip.bringupEnd (c : Chip) (n : Nat) (timedOut : Bool) (mask : Nat) : Chip :=
  let done := n = 0 || decide (12 < n) || c.rst.xtalHeld || c.get F.RESET_BRINGUP_DONE / 2 ^ (n - 1) % 2 = 1
  let c := if done || c.build = .S then c
    else if n = 11 then (if timedOut then c.raise E.JOURNAL_FAIL else c.laneSets.calibStart)
    else if n = 12 then (if timedOut then ((c.raise E.DOSE_FAULT).raise E.JOURNAL_FAIL).gainsUniform else c.doseLoad.ageingGains.2)
    else c
  c.stepEnd n timedOut mask

/-- Level 1 begins when the drive of a tile or scan-out of a sender first runs (Reduced service). -/
def Chip.lightNow (c : Chip) : Chip :=
  let runs := match c.build with
    | .T => decide (c.driveState = dvRun)
    | .S => c.scan.active
  if runs then c.reducedService else c

end Sys2Proof.Machine
end

