-- ==== Sys2Proof/Machine/PageCmds.lean ====
section
/-! DEFINITION. The commands of spec/02_register_pages.md: register writes, page control, commits, soft resets, events and their messages, error records. -/

namespace Sys2Proof.Machine

/-- REGISTER_WRITE (R30, R54): the writes of one cycle, in the fixed order of the paths. -/
def execRegisterWrite (w : BusWrite) (same : List BusWrite) (s : State) : Answer :=
  serve s (fun c => c.cycleWrites ((w :: same).filter (fun x => c.hears x.origin)))

/-- PAGE_ENABLE (R35). -/
def execPageEnable (o : Origin) (page : Nat) (s : State) : Answer := serveFor o s (fun c => c.writeCtrl o page true false false)

/-- PAGE_DISABLE (R35). -/
def execPageDisable (o : Origin) (page : Nat) (s : State) : Answer := serveFor o s (fun c => c.writeCtrl o page false false false)

/-- COMMIT (R38, R43). -/
def execCommit (o : Origin) (page : Nat) (s : State) : Answer := serveFor o s (fun c => c.writeCommit o page)

/-- APPLY_POINT (R38, R41). -/
def execApplyPoint (ref : ApplyRef) (s : State) : Answer := live s (fun c => c.applyAt ref)

/-- SRST (R37). -/
def execSrst (o : Origin) (page : Nat) (s : State) : Answer := serveFor o s (fun c => c.writeCtrl o page (c.en page) true false)

/-- SRST_COMPLETE (R37). -/
def execSrstComplete (page : Nat) (s : State) : Answer := live s (fun c => c.when (decide (page < 1024) && c.on (F.SRST.pg page)) (fun c => (c.srstDone page).heldNext.srpRun))

/-- EVT_FORCE (R44). -/
def execEvtForce (o : Origin) (page : Nat) (bits : Word) (s : State) : Answer :=
  serveFor o s (fun c => c.when (decide (page < 1024)) (fun c => c.write32 o (page * 4096 + 0x1C) bits))

/-- VEC_EOI (R45). -/
def execVecEoi (o : Origin) (vector : Nat) (s : State) : Answer := serveFor o s (fun c => c.write32 o 0x001060 (BitVec.ofNat 32 vector))

/-- MSIX_UNMASK (R45, R60). -/
def execMsixUnmask (o : Origin) (vector : Nat) (s : State) : Answer :=
  serveFor o s (fun c => c.when (decide (vector < 32)) (fun c => c.writeField o (F.USB4_MSIX_MASK.plus (16 * vector)) 0))

/-- ALERT_N_RELEASE (R55). -/
def execAlertNRelease (s : State) : Answer := live s (fun c => c.when (!c.alertWanted && c.aon.knell.isNone) (fun c => c.driveAlert false))

/-- A write of ERR_CTRL. -/
def Chip.errCtrl (c : Chip) (o : Origin) (page bits : Nat) : Chip :=
  c.when (decide (page < 1024)) (fun c => c.write32 o (page * 4096 + 0x34) (BitVec.ofNat 32 bits))

/-- CLR_FIRST (R48). -/
def execClrFirst (o : Origin) (page : Nat) (s : State) : Answer := serveFor o s (fun c => c.errCtrl o page 1)

/-- CLR_WORST (R48). -/
def execClrWorst (o : Origin) (page : Nat) (s : State) : Answer := serveFor o s (fun c => c.errCtrl o page 2)

/-- CLR_COUNT (R48). -/
def execClrCount (o : Origin) (page : Nat) (s : State) : Answer := serveFor o s (fun c => c.errCtrl o page 4)

/-- FLIP_ARM (R321). -/
def execFlipArm (o : Origin) (page : Nat) (s : State) : Answer := serveFor o s (fun c => c.errCtrl o page 8)

end Sys2Proof.Machine
end

