-- ==== Sys2Proof/Machine/BelfryCmds.lean ====
section
/-! DEFINITION. The commands of spec/14_belfry_thermal.md: the Belfry's restarts and watchdog, sensors, throttle, the knell, rail monitors, debug and the log. -/

namespace Sys2Proof.Machine

/-- LOCKSTEP (R347). -/
def execLockstep (s : State) : Answer :=
  serve s (fun c => ((c.raise E.LOCKSTEP).bumpSat F.BELFRY_LOCKSTEP_COUNT).belfryDown 2)

/-- BELFRY_BUS_ERR (R348). -/
def execBelfryBusErr (s : State) : Answer := serve s (fun c => c.when c.belfryUp (fun c => c.raise E.BELFRY_BUS_ERR))

/-- A kick, `ms` nominal oscillator milliseconds after the last kick or restart: one that comes early restarts the Belfry (R349, R51). -/
def Chip.kick (c : Chip) (o : Origin) (value : Word) (ms : Nat) : Chip :=
  let c := c.logChange o F.BELFRY_KICK_KICK.addr value
  c.when ((o = .belfry || o = .jtag) && decide (ms < c.get F.BELFRY_WDOG_OPEN)) Chip.dogRestart

/-- KICK (R349). -/
def execKick (o : Origin) (value : Word) (ms : Nat) (s : State) : Answer := serveFor o s (fun c => c.kick o value ms)

/-- WATCHDOG_TIMEOUT (R349): whatever runs, unless the watchdog has stopped counting. -/
def execWatchdogTimeout (s : State) : Answer :=
  serve s (fun c => c.when (!c.dogHeld) Chip.dogRestart)

/-- BELFRY_CMD_RESTART (R350). -/
def execBelfryCmdRestart (o : Origin) (s : State) : Answer := serveFor o s (fun c => c.writeField o F.BELFRY_CMD_RESTART 1)

/-- BELFRY_RESTART (R350): what waited for the Belfry goes on. -/
def execBelfryRestart (s : State) : Answer := serve s (fun c => c.belfryBack.pathsGo)

/-- SENSOR_SAMPLE (R352 to R356, R360, R361): a sample of every sensor in 1/16 °C, at whose end the knell may start; with the clocks stopped by the
knell only its sequencer takes it. -/
def execSensorSample (raws : List Int) (s : State) : Answer :=
  if s.chip.aon.stopped && !s.chip.aon.latched then .next { s with chip := s.chip.hotSample raws }
  else serve s (fun c => ((c.noteHot raws).sensorSample raws).knellStart)

/-- THERMAL_MASK_WRITE (R353, R354). -/
def execThermalMaskWrite (o : Origin) (mask : Word) (s : State) : Answer := serveFor o s (fun c => c.write32 o F.THERMAL_MASK_MASK.addr mask)

/-- THROTTLE_EVALUATE (R357). -/
def execThrottleEvaluate (s : State) : Answer := serve s Chip.throttle

/-- KNELL_SHUTDOWN (R361). -/
def execKnellShutdown (s : State) : Answer := powered s Chip.knellStop

/-- KNELL_FLASH_END (R361, R363): the flash operation under way at the knell has completed (1), or is aborted. It acts with the clocks stopped. -/
def execKnellFlashEnd (outcome : Nat) (s : State) : Answer := .next { s with chip := s.chip.knellEnd (decide (outcome = 1)) }

/-- KNELL_PRIOR (R363). -/
def execKnellPrior (s : State) : Answer := serve s (fun c => c.when c.belfryUp Chip.knellPrior)

/-- VOLTAGE_SAMPLE (R364): a sample of each of the sixteen rails in mV. -/
def execVoltageSample (mvs : List Nat) (s : State) : Answer := serve s (fun c => c.voltageSample mvs)

/-- DEBUG_UNLOCK_WRITE (R368). -/
def execDebugUnlockWrite (o : Origin) (value : Bool) (s : State) : Answer := serveFor o s (fun c => c.writeField o F.DEBUG_CTRL_UNLOCK (b2n value))

/-- LOG_FLUSH (R367). -/
def execLogFlush (s : State) : Answer := serve s (fun c => c.when c.belfryUp Chip.logFlush)

/-- LOG_READ (R366). -/
def execLogRead (o : Origin) (seq : Word) (s : State) : Answer := serveFor o s (fun c => c.write32 o F.LOG_READ_SEQ_SEQ.addr seq)

/-- LOG_READ_DONE (R366). -/
def execLogReadDone (s : State) : Answer := serve s (fun c => c.when c.belfryUp Chip.logReadDone)

end Sys2Proof.Machine
end

