-- ==== Sys2Proof/Machine/MapCmds.lean ====
section
/-! DEFINITION. The commands of spec/06_mapping_engines.md: canvases, bands, tasks, tables and margins. -/

namespace Sys2Proof.Machine

/-- CANVAS_RELEASE (R135, R137, R152): the canvas is released, the next one to begin begins, and layers that nothing changes first are bound. -/
def execCanvasRelease (s : State) : Answer :=
  live s (fun c => ((c.releaseCanvas Chip.applyAt).beginCanvas Chip.applyAt).bindWaiting.assignTasks)

/-- BAND_DISPATCH (R133). -/
def execBandDispatch (s : State) : Answer := live s (fun c => (c.nextBand Chip.applyAt).assignTasks)

/-- BAND_CHASE_READY (R156). -/
def execBandChaseReady (s : State) : Answer := live s Chip.chaseReady

/-- CANVAS_BUFFER_FREE (R136). -/
def execCanvasBufferFree (feed buf : Nat) (s : State) : Answer := live s (fun c => c.bufferFree feed buf)

/-- MAP_TASK_COMPLETE (R133, R160): the table upsets an engine meets in the task come with it. -/
def execMapTaskComplete (engine : Nat) (upsets : List (Nat × Nat)) (s : State) : Answer := live s (fun c => c.taskComplete engine upsets)

/-- BAND_COMPLETE (R133): `ticks` clock ticks later. -/
def execBandComplete (ticks : Nat) (s : State) : Answer := live s (fun c => (c.ticks ticks).bandComplete Chip.applyAt)

/-- CANVAS_LATE (R157). -/
def execCanvasLate (s : State) : Answer := live s Chip.canvasLate

/-- A window register accessed: written with a word, or read. -/
def Chip.window (c : Chip) (o : Origin) (addr : Nat) (write : Option Word) : Chip :=
  match write with
  | some w => c.write32 o addr w
  | none => c.hostRead o addr

/-- MAPCTL_TAB_DATA (R137). -/
def execMapctlTabData (o : Origin) (write : Option Word) (s : State) : Answer := serveFor o s (fun c => c.window o F.MAPCTL_TAB_DATA_DATA.addr write)

/-- LEAD_MIN_CLR (R158). -/
def execLeadMinClr (o : Origin) (s : State) : Answer := serveFor o s (fun c => c.writeField o F.MAPCTL_LEAD_MIN_CLR 1)

end Sys2Proof.Machine
end

