-- ==== Sys2Proof/Machine/ScanCmds.lean ====
section
/-! DEFINITION. The commands of spec/07_canvas_scan_out.md: lines, cells, the tile table, margins and preview. -/

namespace Sys2Proof.Machine

/-- SCAN_LINE_START (R167). -/
def execScanLineStart (s : State) : Answer := live s (fun c => c.lineStart Chip.applyAt)

/-- SCAN_CANVAS_LINE0 (R179, R180). -/
def execScanCanvasLine0 (s : State) : Answer := live s (fun c => (c.canvasLine0 Chip.applyAt).lightNow)

/-- SCAN_CELL_READ (R174). -/
def execScanCellRead (engine port : Nat) (s : State) : Answer :=
  live s (fun c => c.when (decide (engine < 2) && decide (port < 16)) (fun c => c.cellRead engine port))

/-- SCAN_DATA_RETURN (R181). -/
def execScanDataReturn (port : Nat) (s : State) : Answer := live s (fun c => c.inS (fun c => c.when (decide (port < 16)) (fun c => c.dataReturn port)))

/-- UNDERRUN_WAIT_EXPIRE (R181). -/
def execUnderrunWaitExpire (port : Nat) (s : State) : Answer := live s (fun c => c.inS (fun c => c.when (decide (port < 16)) (fun c => c.underrun port)))

/-- TILETAB_DATA (R171). -/
def execTiletabData (o : Origin) (write : Option Word) (s : State) : Answer := serveFor o s (fun c => c.window o F.TILETAB_DATA_DATA.addr write)

/-- PORT_MARGIN_CLR (R178). -/
def execPortMarginClr (o : Origin) (port : Nat) (s : State) : Answer :=
  serveFor o s (fun c => c.when (decide (port < 16)) (fun c => c.writeField o (F.SCAN_PORT_MARGIN_CLR.plus (4 * port)) 1))

/-- PREVIEW_DONE (R185). -/
def execPreviewDone (s : State) : Answer := live s (fun c => c.inS Chip.previewDone)

/-- PREVIEW_ERR (R186). -/
def execPreviewErr (s : State) : Answer := live s (fun c => c.inS Chip.previewErr)

end Sys2Proof.Machine
end

