-- ==== Sys2Proof/Machine/ChainCmds.lean ====
section
/-! DEFINITION. The commands of spec/08_chain_link.md: slots, markers, received cells, monitor reports, training, lane upkeep, test patterns and injection. -/

namespace Sys2Proof.Machine

/-- A change of one port that the build has. -/
def Chip.onPort (c : Chip) (p : Nat) (f : Chip → Chip) : Chip := c.when (decide (p < c.numPorts)) f

/-- A change of one port after which the ring obeyed may be another (R297). -/
def Chip.onStream (c : Chip) (p : Nat) (f : Chip → Chip) : Chip := c.onPort p (Chip.obeying f)

/-- CELL_SLOT (R206). -/
def execCellSlot (port : Nat) (s : State) : Answer := live s (fun c => c.cellSlot port)

/-- MARKER_SEND (R191). -/
def execMarkerSend (port : Nat) (s : State) : Answer := live s (fun c => c.onPort port (fun c => c.markerSend port))

/-- MARKER_RECEIVE (R191 to R193). -/
def execMarkerReceive (port lane bits : Nat) (s : State) : Answer :=
  live s (fun c => c.onStream port (fun c => c.when (decide (lane < 3)) (fun c => c.markerReceive c.identity port lane (bits / 2 ^ 64) (bits % 2 ^ 64))))

/-- BLOCK_LOCK_CHANGE (R192, R213, R219): the blocks of a lane over the change; the lock follows from their headers. -/
def execBlockLockChange (port lane : Nat) (blocks : List LineBlock) (s : State) : Answer :=
  live s (fun c => c.onStream port (fun c => c.when (decide (lane < 3)) (fun c => c.blockLock c.identity port lane blocks)))

/-- CELL_RECEIVE (R189 to R196, R208, R210): the blocks that bring a cell. -/
def execCellReceive (port : Nat) (blocks : List LineBlock) (arrivalPs measured : Nat) (s : State) : Answer :=
  live s (fun c => c.cellReceive port blocks arrivalPs measured)

/-- TILE_CELL_INSERT (R207). -/
def execTileCellInsert (port : Nat) (s : State) : Answer := live s (fun c => c.onPort port (fun c => c.tileInsert port))

/-- MONITOR_RECEIVE (R205). -/
def execMonitorReceive (port : Nat) (cell : Nat) (s : State) : Answer :=
  live s (fun c => c.onPort port (fun c => c.when (c.tilePort port && c.portCarries port) (fun c => c.monReceive cell)))

/-- The STATUS cell of a tile (R204). -/
def Chip.queueStatus (c : Chip) : Chip :=
  let notUp := ((List.range 4).map (fun p => if c.state (portPage p) = psUp then 0 else 2 ^ p)).sum
  let level := c.get F.THERMAL_THROTTLE_DIG + c.get F.THERMAL_THROTTLE_D0 + c.get F.THERMAL_THROTTLE_D1
  let tj := Int.tdiv (c.hottest c.sensors).2 16
  c.queueMonitor (pf 192 Config.uid 64 + pf 160 c.vecSummary.toNat 32 + pf 128 c.tile.lastBar 32 + pf 127 (c.get F.CHAINCTL_TILE_ID_MISMATCH) 1 +
    pf 126 (b2n (decide (level ≠ 0))) 1 + pf 125 (b2n (decide (c.tileState = tsFlywheel))) 1 + pf 124 (c.get F.BAR_STATUS_DIR_B) 1 + pf 120 notUp 4 +
    pf 112 (unsign 8 tj) 8 + pf 96 (c.get F.BAR_FWD_DELAY_PS2) 16 + pf 72 (c.get F.BAR_DB_DELAY_PS) 24)

/-- MONITOR_STATUS_SEND (R204): none while STATUS_BARS is 0. -/
def execMonitorStatusSend (s : State) : Answer :=
  live s (fun c => c.inT (fun c => c.when (decide (c.get F.CHAINCTL_TILE_CFG_STATUS_BARS ≠ 0)) Chip.queueStatus))

/-- MONITOR_IDENTITY_SEND (R204): ten times after a link-up of the numbering port. -/
def execMonitorIdentitySend (s : State) : Answer :=
  live s (fun c => c.inT (fun c => c.when (decide (0 < c.chain.identityLeft)) (fun c =>
    { c with chain := { c.chain with identityLeft := c.chain.identityLeft - 1 } }.queueIdentity c.identity)))

/-- DIRECTION_LOST (R213). -/
def execDirectionLost (port : Nat) (s : State) : Answer := live s (fun c => c.inT (fun c => c.onStream port (fun c => c.directionLost port)))

/-- CLK_LOSS (R187, R188). -/
def execClkLoss (port : Nat) (s : State) : Answer := live s (fun c => c.onStream port (fun c => c.clkLoss port))

/-- LINK_UP (R22, R204). -/
def execLinkUp (port : Nat) (s : State) : Answer :=
  live s (fun c => c.onPort port (fun c => c.when (c.portCarries port) (fun c => c.linkUp c.identity port)))

/-- PORT_TRAIN_START (R215). -/
def execPortTrainStart (port : Nat) (s : State) : Answer :=
  live s (fun c => c.onPort port (fun c => c.when (c.portEnabled port && decide (c.state (portPage port) = psOff)) (fun c => c.portRestart port)))

/-- PORT_TRAINED (R215): the eyes and settings that training found for D0, D1 and SP. -/
def execPortTrained (port : Nat) (lanes : Training) (s : State) : Answer :=
  live s (fun c => c.onStream port (fun c => c.portTrained c.identity port lanes))

/-- PORT_TRAIN_TIMEOUT (R215). -/
def execPortTrainTimeout (port : Nat) (s : State) : Answer :=
  live s (fun c => c.onStream port (fun c => c.when (decide (c.state (portPage port) = psTrain)) (fun c => c.setPortState port psFailed)))

/-- PORT_FAILED_RETRY (R215). -/
def execPortFailedRetry (port : Nat) (s : State) : Answer :=
  live s (fun c => c.onPort port (fun c => c.when (decide (c.state (portPage port) = psFailed)) (fun c => c.portRestart port)))

/-- LANE_CAL_INTERPOLATE (R216). -/
def execLaneCalInterpolate (port : Nat) (s : State) : Answer :=
  live s (fun c => c.onPort port (fun c => c.when (decide (c.state (portPage port) ≠ psOff)) (fun c => c.laneCal port)))

/-- RECAL_PERIOD (R217): not while PERIOD_S is 0. -/
def execRecalPeriod (port : Nat) (s : State) : Answer :=
  live s (fun c => c.onPort port (fun c => c.when (decide (c.get (F.PORT_RECAL_PERIOD_S.pg port) ≠ 0)) (fun c => c.recalStart port)))

/-- RECAL_NOW (R217). -/
def execRecalNow (o : Origin) (port : Nat) (s : State) : Answer :=
  serveFor o s (fun c => c.onPort port (fun c => c.writeField o (F.PORT_RECAL_NOW.pg port) 1))

/-- RECAL_COMPLETE (R217, R220): the best setting found and its eye. -/
def execRecalComplete (port width height : Nat) (setting : Word) (s : State) : Answer :=
  live s (fun c => c.onPort port (fun c => c.recalComplete c.identity port width height setting))

/-- EYE_MEASURE (R218, R219): widths and heights of D0, D1 and SP. -/
def execEyeMeasure (port : Nat) (widths heights : List Nat) (s : State) : Answer :=
  live s (fun c => c.onPort port (fun c =>
    [0, 1, 2].foldl (fun c l => c.eyeLane c.identity port l (widths.getD l 0) (heights.getD l 0)) c))

/-- LANE_RETIRE_CMD (R219): LANE_CMD.RETIRE names the lane. -/
def execLaneRetireCmd (o : Origin) (port lane : Nat) (s : State) : Answer :=
  serveFor o s (fun c => c.onPort port (fun c => c.when (decide (lane < 3)) (fun c =>
    c.write32 o (F.PORT_LANE_CMD_RETIRE.pg port).addr (BitVec.ofNat 32 (lane + 1)))))

/-- LANE_RESTORE (R219). -/
def execLaneRestore (o : Origin) (port : Nat) (s : State) : Answer :=
  serveFor o s (fun c => c.onPort port (fun c => c.write32 o (F.PORT_LANE_CMD_RETIRE.pg port).addr 0x100))

/-- REDUCED (R221). -/
def execPortReduced (port : Nat) (s : State) : Answer := live s (fun c => c.reduceNow port)

/-- FULL_RATE_RESTORE (R221). -/
def execFullRateRestore (port : Nat) (s : State) : Answer := live s (fun c => c.fullRate c.identity port)

/-- FENCED (R222): a link of a ring whose receiver has one usable lane. -/
def execPortFenced (port : Nat) (s : State) : Answer :=
  live s (fun c => c.onPort port (fun c =>
    c.when ((c.portMode port = 2 || c.portMode port = 3) && decide ((c.port port).usable = 1) && c.portCarries port) (fun c =>
      c.enterLaneState c.identity port)))

/-- TEST_ERR (R223): the bits that reach the checker of a lane. -/
def execTestErr (port lane : Nat) (bits : List Bool) (s : State) : Answer := live s (fun c => c.testErr port lane bits)

/-- PORT_TEST_CLR (R223). -/
def execPortTestClr (o : Origin) (port : Nat) (s : State) : Answer :=
  serveFor o s (fun c => c.onPort port (fun c => c.writeField o (F.PORT_TEST_CLR.pg port) 1))

/-- INJECT_ONCE (R224). -/
def execInjectOnce (o : Origin) (port : Nat) (s : State) : Answer :=
  serveFor o s (fun c => c.onPort port (fun c => c.writeField o (F.PORT_INJECT_ONCE.pg port) 1))

/-- REPEAT's interval ends: its burst falls on the next block of the lane, or of its test pattern (R224). -/
def Chip.injectDue (c : Chip) (p : Nat) : Chip :=
  if !c.on (F.PORT_INJECT_REPEAT.pg p) then c
  else if c.genPattern p (c.injectLane p) ≠ 0 then c.injectPattern p
  else c.setPort p { c.port p with injCnt := c.get (F.PORT_INJECT_EVERY_BLOCKS.pg p) }

/-- INJECT_REPEAT (R224). -/
def execInjectRepeat (port : Nat) (s : State) : Answer := live s (fun c => c.onPort port (fun c => c.injectDue port))

/-- PORT_CAL_DATA (R216). -/
def execPortCalData (o : Origin) (port : Nat) (write : Option Word) (s : State) : Answer :=
  serveFor o s (fun c => c.onPort port (fun c => c.window o (F.PORT_CAL_DATA_PHASE.pg port).addr write))

end Sys2Proof.Machine
end

