-- ==== Sys2Proof/Machine/DramCmds.lean ====
section
/-! DEFINITION. The commands of spec/13_dram.md: accesses, refresh, power-down, retraining, rate steps and training at start. -/

namespace Sys2Proof.Machine

/-- A change of one DRAM port that the build has. -/
def Chip.onDram (c : Chip) (p : Nat) (f : Chip → Chip) : Chip := c.when (decide (p < 4) && c.hasPage (dramPage p)) f

/-- The address of an access: in BAR2, or in DRAM (R29, R332). -/
def Chip.dramTarget (c : Chip) (bar2 : Bool) (addr : Nat) : Nat := if bar2 then c.bar2Addr addr else addr

/-- DRAM_READ (R329, R331, R332, R335): through BAR2 or by another master; `hitsPending` where it hits the row of a pending write. -/
def execDramReadCmd (master : Nat) (bar2 : Bool) (addr len : Nat) (hitsPending : Bool) (s : State) : Answer :=
  live s (fun c =>
    if bar2 then c.aperture master false addr (List.replicate len none) hitsPending
    else c.dramRequest (dramReqOf master false addr (List.replicate len none)) hitsPending)

/-- DRAM_WRITE (R330, R331): through BAR2 or by another master; a byte not enabled is `none`. -/
def execDramWriteCmd (master : Nat) (bar2 : Bool) (addr : Nat) (bytes : List (Option Byte)) (s : State) : Answer :=
  live s (fun c =>
    if bar2 then c.aperture master true addr bytes false
    else c.dramRequest (dramReqOf master true addr bytes) false)

/-- REFRESH_DUE (R336, R337): `rtRun` while a real-time run holds the bank. -/
def execRefreshDue (port rank chan bank : Nat) (rtRun : Bool) (s : State) : Answer :=
  live s (fun c => c.onDram port (fun c => c.refreshDue port rank chan bank rtRun))

/-- MR4_POLL (R336): the multiplier code that MR4 gives, and whether it reports too high a temperature. -/
def execMr4Poll (port rank chan code : Nat) (hot : Bool) (s : State) : Answer := live s (fun c => c.onDram port (fun c => c.mr4Poll port rank chan code hot))

/-- POWER_DOWN_ENTRY (R338). -/
def execPowerDownEntry (port rank : Nat) (s : State) : Answer := live s (fun c => c.onDram port (fun c => c.powerDown port rank))

/-- DQS_TRACK (R340). -/
def execDqsTrack (port chan : Nat) (drift : Int) (s : State) : Answer := live s (fun c => c.onDram port (fun c => c.dqsTrack port chan drift))

/-- DRAM_RETRAIN_CMD (R341). -/
def execDramRetrainCmd (o : Origin) (port : Nat) (s : State) : Answer := serveFor o s (fun c => c.onDram port (fun c => c.writeField o (F.DRAM_CMD_RETRAIN.pg port) 1))

/-- While scan-out runs, the beat it is in and whether a slice may start now: in a blanking line, with no read of it pending (R341). A preview read
is made at once and is never pending. -/
def Chip.sliceWindow (c : Chip) : Option (Nat × Bool) :=
  if c.build = .S && (c.scanState = ssScan || c.scanState = ssHeld || c.scanState = ssCatchup) then
    some (c.scan.s12, decide (c.scan.height ≤ c.scan.line) && !(List.range 16).any (fun p => (c.port p).qPixel.any (fun e => !e.ready)))
  else none

/-- DRAM_RETRAIN_SLICE (R341, R342): `found` where the last slice leaves a setting that fits. -/
def execDramRetrainSlice (port : Nat) (found : Bool) (s : State) : Answer :=
  live s (fun c => c.onDram port (fun c => c.retrainSlice port c.sliceWindow found))

/-- ECC_RATE_WINDOW (R343). -/
def execEccRateWindow (port : Nat) (s : State) : Answer := live s (fun c => c.onDram port (fun c => c.eccWindow port))

/-- DRAM_RATE_STEP (R343, R344). -/
def execDramRateStep (port : Nat) (s : State) : Answer := live s (fun c => c.onDram port (fun c => c.rateStep port))

/-- RATE_STEP_DONE (R343, R344): the grade at which the port trained, or none. -/
def execRateStepDone (port : Nat) (grade : Option Nat) (s : State) : Answer := live s (fun c => c.onDram port (fun c => c.stepDone port grade))

/-- RATE_RESTORE (R343). -/
def execRateRestore (o : Origin) (port : Nat) (s : State) : Answer := serveFor o s (fun c => c.onDram port (fun c => c.writeField o (F.DRAM_CMD_RATE_RESTORE.pg port) 1))

/-- DRAM_PORT_FAIL (R344, R345). -/
def execDramPortFail (port : Nat) (s : State) : Answer := live s (fun c => c.onDram port (fun c => c.dramFail port))

/-- DRAM_INIT_TRAIN (R325, R339): what MR8 gives, and the grade at which the port trained. -/
def execDramInitTrain (port ranks rankMib : Nat) (uniform : Bool) (grade : Option Nat) (s : State) : Answer :=
  live s (fun c => c.onDram port (fun c => c.dramInit port ranks rankMib uniform grade))

/-- DRAM_REF_CLR (R337). -/
def execDramRefClr (o : Origin) (port : Nat) (s : State) : Answer := serveFor o s (fun c => c.onDram port (fun c => c.writeField o (F.DRAM_REF_CLR.pg port) 1))

end Sys2Proof.Machine
end

