-- ==== Sys2Proof/Machine/DriveCmds.lean ====
section
/-! DEFINITION. The commands of spec/10_led_drive.md: row slots, measurements, trim, fades, diagnostics and the tables of the drive. -/

namespace Sys2Proof.Machine

/-- ROW_SLOT_START (R253 to R265, R268, R271): the syndromes of the link words that serve this slot, by band, and the sink voltages of the
comparators in mV. -/
def execRowSlotStart (link : List (Nat × Nat)) (volts : List (Nat × Nat)) (s : State) : Answer :=
  live s (fun c => c.inT (fun c => c.rowSlot link volts))

/-- NEIGHBOUR_SLOT (R269): how far below the clamp voltage channels have fallen: band, phase, channel and mV. -/
def execNeighbourSlot (falls : List (Nat × Nat × Nat × Nat)) (s : State) : Answer := live s (fun c => c.inT (fun c => c.neighbourSlot falls))

/-- TRIM_MEASURE_DONE (R267): the residual that the band's measurements give. -/
def execTrimMeasureDone (band : Nat) (r : Int) (s : State) : Answer :=
  live s (fun c => c.inT (fun c => c.when (decide (band < 4)) (fun c => c.trimMeasured band r)))

/-- TRIM_INTERPOLATE (R266). -/
def execTrimInterpolate (s : State) : Answer := live s (fun c => c.inT Chip.trimCodes)

/-- FADE_GO (R262): the word of DRIVECTL.FADE with GO set. -/
def execFadeGo (o : Origin) (word : Word) (s : State) : Answer := serveFor o s (fun c => c.write32 o F.DRIVECTL_FADE_GO.addr (word ||| 0x80000000))

/-- DIAG_CLEAR (R274). -/
def execDiagClear (o : Origin) (s : State) : Answer := serveFor o s (fun c => c.writeField o F.DIAG_CTRL_CLEAR 1)

/-- SPL_DATA (DRIVECTL.SPL_DATA). -/
def execSplData (o : Origin) (write : Option Word) (s : State) : Answer := serveFor o s (fun c => c.window o F.DRIVECTL_SPL_DATA_Y.addr write)

/-- TRIM_DATA (BAND.TRIM_DATA). -/
def execTrimData (o : Origin) (band : Nat) (write : Option Word) (s : State) : Answer :=
  serveFor o s (fun c => c.when (decide (band < 4)) (fun c => c.window o (0x0B0058 + 4096 * band) write))

/-- DIAG_TAB_DATA (DIAG.TAB_DATA). -/
def execDiagTabData (o : Origin) (s : State) : Answer := serveFor o s (fun c => c.hostRead o F.DIAG_TAB_DATA_STATE.addr)

end Sys2Proof.Machine
end

