-- ==== Sys2Proof/Machine/HostCmds.lean ====
section
/-! DEFINITION. The commands of spec/03_host_access.md: USB4, DMA, DP, recovery, SRP, the relay, console and JTAG. -/

namespace Sys2Proof.Machine

/-- USB4_LINK_CHANGE (R56). -/
def execUsb4LinkChange (gen lanes : Nat) (pcie dp usb2 : Bool) (s : State) : Answer := live s (fun c => c.usb4Link gen lanes pcie dp usb2)

/-- PCIE_ERR (R59). -/
def execPcieErr (s : State) : Answer := live s (fun c => c.raise E.PCIE_ERR)

/-- DMA_START (R61). -/
def execDmaStart (o : Origin) (channel : Nat) (s : State) : Answer :=
  serveFor o s (fun c => c.when (decide (channel < 2)) (fun c => c.writeField o (dmaF F.USB4_DMA_CTRL_START channel) 1))

/-- DMA_DONE (R61). -/
def execDmaDone (channel : Nat) (hostData : List Byte) (s : State) : Answer :=
  live s (fun c => c.when (decide (channel < 2)) (fun c => c.dmaDone channel hostData))

/-- DMA_HOST_ERROR (R61). -/
def execDmaHostError (channel units : Nat) (hostData : List Byte) (s : State) : Answer :=
  live s (fun c => c.when (decide (channel < 2)) (fun c => c.dmaHostError channel units hostData))

/-- DP_STREAM_FRAME (R65). -/
def execDpStreamFrame (f : DpFrame) (s : State) : Answer := live s (fun c => c.inS (fun c => c.sourcesMoved (c.dpFrame f)))

/-- DP_FORMAT (R64). -/
def execDpFormat (f : DpFormat) (s : State) : Answer := live s (fun c => c.inS (fun c => ((c.dpFormat f).when (!(c.dpFormat f).on F.DPIN_STATUS_LOCK) (fun c => c.chaseWithdraw 16)).refreshLayers))

/-- DP_LOST (R66). -/
def execDpLost (s : State) : Answer := live s (fun c => c.inS (fun c => (c.dpLost.chaseWithdraw 16).refreshLayers))

/-- DP_LOCK (R66). -/
def execDpLock (f : DpFormat) (s : State) : Answer := live s (fun c => c.inS (fun c => (c.dpLock f).refreshLayers))

/-- RECOVERY_BLOCK (R67). -/
def execRecoveryBlock (offset : Nat) (data : List Byte) (s : State) : Answer := serve s (fun c => c.recoveryBlock offset data)

/-- RECOVERY_FINAL (R67). -/
def execRecoveryFinal (s : State) : Answer := serve s Chip.recoveryFinal

/-- SRP_REQUEST (R68 to R71). -/
def execSrpRequest (path : Nat) (peer : NetPeer) (datagram : List Byte) (s : State) : Answer :=
  live s (fun c => c.inS (fun c => c.when (decide (path < 2)) (fun c => c.srpArrive path peer datagram)))

/-- ARP_REQUEST (R70). -/
def execArpRequest (path : Nat) (peer : NetPeer) (target : Nat) (s : State) : Answer :=
  live s (fun c => c.inS (fun c => c.when (decide (path < 2)) (fun c => c.arpAnswer path peer target)))

/-- RELAY_READ (R30, R72 to R74): a read of `size` bytes in the relay window. -/
def execRelayRead (o : Origin) (a : ReadAcc) (s : State) : Answer := serveFor o s (fun c => c.hostRead o (0x400000 + a.addr % 0x400000) a.size)

/-- RELAY_WRITE (R72 to R74): a write in the relay window. -/
def execRelayWrite (o : Origin) (addr : Nat) (data : Word) (s : State) : Answer := serveFor o s (fun c => c.write32 o (0x400000 + addr % 0x400000) data)

/-- RELAY_RESPONSE (R72, R200). -/
def execRelayResponse (cell : Nat) (s : State) : Answer := live s (fun c => c.relayResponse cell)

/-- RELAY_TIMEOUT (R72). -/
def execRelayTimeout (s : State) : Answer := live s Chip.relayTimeout

/-- CONSOLE_COMMAND (R75): served while the Belfry runs, with origin BELFRY. -/
def execConsoleCommand (op : ConsoleOp) (s : State) : Answer :=
  serve s (fun c => c.when c.belfryUp (fun c =>
    match op with
    | .readReg a => c.hostRead .belfry a
    | .writeReg a d => c.write32 .belfry a d
    | .other => c))

/-- JTAG_REGISTER_ACCESS (R76). -/
def execJtagRegisterAccess (write : Bool) (addr : Nat) (data : Word) (s : State) : Answer :=
  awake s (fun c => if write then c.write32 .jtag addr data else c.hostRead .jtag addr)

/-- WIDE_VALUE_LOW_READ (R30, R79): a read of `size` bytes at an address. -/
def execWideValueLowRead (o : Origin) (a : ReadAcc) (s : State) : Answer := serveFor o s (fun c => c.hostRead o a.addr a.size)

end Sys2Proof.Machine
end

