-- ==== Sys2Proof/Machine/IngestCmds.lean ====
section
/-! DEFINITION. The commands of spec/05_source_ingest.md: Ethernet links and frames, flows and their waits, control frames. -/

namespace Sys2Proof.Machine

/-- A change of one Ethernet path of a sender. -/
def Chip.onPath (c : Chip) (path : Nat) (f : Chip → Chip) : Chip := c.inS (fun c => c.when (decide (path < 2)) f)

/-- A change of one flow of a sender. -/
def Chip.onFlow (c : Chip) (flow : Nat) (f : Chip → Chip) : Chip := c.inS (fun c => c.when (decide (flow < 16)) f)

/-- ETH_LINK_CHANGE (R110, R112). -/
def execEthLinkChange (path : Nat) (link localFault remoteFault : Bool) (subUp fecLock : Nat) (s : State) : Answer :=
  live s (fun c => c.onPath path (fun c => c.ethLink path link localFault remoteFault subUp fecLock))

/-- ETH_FRAME_RECEIVE (R113). -/
def execEthFrameReceive (path sub : Nat) (f : EthFrame) (s : State) : Answer :=
  live s (fun c => c.onPath path (fun c => c.sourcesMoved (c.ethFrame path sub f)))

/-- ETH_FEC_UNCORR (R111). -/
def execEthFecUncorr (path frames : Nat) (s : State) : Answer := live s (fun c => c.onPath path (fun c => c.fecUncorr path frames))

/-- GAP_WAIT_EXPIRE (R124, R128). -/
def execGapWaitExpire (flow : Nat) (s : State) : Answer := live s (fun c => c.onFlow flow (fun c => c.gapExpire flow))

/-- FLOW_STOP (R130, R156): the watermark is withdrawn, and bands that wait on it are released. -/
def execFlowStop (flow : Nat) (s : State) : Answer :=
  live s (fun c => c.onFlow flow (fun c => c.when (decide (c.state (flowPage flow) = fsRun)) (fun c => ((c.flowStop flow).chaseWithdraw flow).refreshLayers)))

/-- PATH_LOSS (R129). -/
def execPathLoss (flow path : Nat) (s : State) : Answer :=
  live s (fun c => c.onFlow flow (fun c => c.when (decide (path < 2)) (fun c => c.pathLoss flow path)))

/-- HOLD_EXPIRE (R130). -/
def execHoldExpire (flow : Nat) (s : State) : Answer := live s (fun c => c.onFlow flow (fun c => (c.holdExpire flow).refreshLayers))

/-- CTL_TX_GO (R117): CTL_TX_CTRL written with GO. -/
def execCtlTxGo (o : Origin) (path sub len : Nat) (s : State) : Answer :=
  serveFor o s (fun c => c.onPath path (fun c =>
    c.write32 o (F.ETH_CTL_TX_CTRL_BUSY.addr + 4096 * path) (BitVec.ofNat 32 (sub % 4 * 2 ^ 18 + len % 16384 * 4 + 1))))

/-- CTL_TX_DONE (R117). -/
def execCtlTxDone (path : Nat) (s : State) : Answer := live s (fun c => c.onPath path (fun c => c.ctlTxDone path))

end Sys2Proof.Machine
end

