-- ==== Sys2Proof/Machine/MemoryCmds.lean ====
section
/-! DEFINITION. The commands of spec/12_memory_ecc.md: the SRAM window, ownership, atomics, the merge buffer, scrubbing, remapping and the start-up fill. -/

namespace Sys2Proof.Machine

/-- SRAM_WINDOW_WRITE (R72, R77, R302, R304, R305): bytes from an offset of the window on; a byte not enabled is `none`. -/
def execSramWindowWrite (offset : Nat) (bytes : List (Option Byte)) (s : State) : Answer := live s (fun c => c.sramWrite offset bytes)

/-- SRAM_WINDOW_READ (R77, R302, R315). -/
def execSramWindowRead (o : Origin) (offset n : Nat) (s : State) : Answer := serveFor o s (fun c => c.sramRead o offset n)

/-- OWNER_WRITE (R305). -/
def execOwnerWrite (o : Origin) (bank v : Nat) (s : State) : Answer :=
  serveFor o s (fun c => c.when (decide (bank < 8)) (fun c => c.write32 o (F.BANK_OWNER_OWNER.pg bank).addr (BitVec.ofNat 32 v)))

/-- HANDOVER_SWITCH (R77, R305): what a path asked for behind a write that stalled goes on. -/
def execHandoverSwitch (bank : Nat) (s : State) : Answer := live s (fun c => c.when (decide (bank < 8)) (fun c => (c.handoverSwitch bank).pathsGo))

/-- ATOMIC (R304, R305, R308, R309, R316): 4 or 8 bytes, aligned to their size; the old value goes back to the master. That of the owner to be of a
bank that changes hands stalls until the switch; before the fill of the SRAM no master is served. -/
def Chip.atomicOp (c : Chip) (byBelfry add : Bool) (master offset size operand : Nat) : Chip :=
  if !((size = 4 || size = 8) && decide (offset % size = 0) && decide (offset < 0x800000)) || !c.on F.ECC_STATUS_SRAM_FILLED then c
  else if !byBelfry && master ≠ 0 && c.ownerToBe (offset / 1048576) master then
    c.bankStall (offset / 1048576) { master := master, path := none, offset := offset, bytes := [], atomic := some (add, size, operand) }
  else
    let r := c.atomicAt master byBelfry add offset size operand
    let c := if r.1.2 && byBelfry then r.2.raise E.BELFRY_BUS_ERR else r.2
    c.emit (.memData (if byBelfry then 2 else master) offset (leBytes size r.1.1) r.1.2)

/-- ATOMIC (R308). -/
def execAtomicOp (byBelfry add : Bool) (master offset size operand : Nat) (s : State) : Answer :=
  live s (fun c => c.atomicOp byBelfry add master offset size operand)

/-- MERGE_RETIRE (R310). -/
def execMergeRetire (bank : Nat) (s : State) : Answer := live s (fun c => c.when (decide (bank < 8)) (fun c => c.retireOldest bank))

/-- SCRUB_READ (R317). -/
def execScrubRead (mem : Nat) (s : State) : Answer := live s (fun c => c.scrubRead mem)

/-- SCRUB_NOW (R317). -/
def execScrubNow (o : Origin) (s : State) : Answer := serveFor o s (fun c => c.writeField o F.ECC_SCRUB_NOW 1)

/-- BANK_REMAP_WRITE (R318). -/
def execBankRemapWrite (o : Origin) (bank entry : Nat) (w : Word) (s : State) : Answer :=
  serveFor o s (fun c => c.when (decide (bank < 8) && decide (entry < 8)) (fun c => c.write32 o (bremapAddr bank entry) w))

/-- DRAM_REMAP_WRITE (R319): the entry that DREMAP_ADDR names. -/
def execDramRemapWrite (o : Origin) (w : Word) (s : State) : Answer := serveFor o s (fun c => c.write32 o F.ECC_DREMAP_DATA_VALID.addr w)

/-- REMAP_DONE (R318, R319): of a bank's word, or of a DRAM port's row. -/
def execRemapDone (dram : Bool) (unit entry : Nat) (s : State) : Answer :=
  live s (fun c =>
    if dram then c.when (decide (unit < 4) && decide (entry < 16)) (fun c => c.dramRemapDone unit entry)
    else c.when (decide (unit < 8) && decide (entry < 8)) (fun c => c.bankRemapDone unit entry))

/-- SPLIT_GO (R322): the word of SPLIT_CTRL with GO set. -/
def execSplitGo (o : Origin) (word : Word) (s : State) : Answer := serveFor o s (fun c => c.write32 o F.ECC_SPLIT_CTRL_GO.addr (word ||| 0x80000000))

/-- The SRAM fill ends: blocks that waited for it alone start, and accesses that waited go on (R316). -/
def Chip.sramFilled (c : Chip) : Chip := (c.sramFill.startWaiting c).pathsGo

/-- SRAM_FILL_DONE (R316). -/
def execSramFillDone (s : State) : Answer := live s Chip.sramFilled

/-- The DRAM fill ends, blocks that waited for it start, and scan-out leaves the SRAM canvas (R316, R392, R396). -/
def Chip.dramFilled (c : Chip) : Chip :=
  if c.on F.ECC_STATUS_DRAM_FILLED then c
  else
    let f := c.dramFill
    f.when (f.on F.ECC_STATUS_DRAM_FILLED) (fun f => (f.startWaiting c).leaveSramCanvas)

/-- DRAM_FILL_DONE (R316, R392). -/
def execDramFillDone (s : State) : Answer := live s Chip.dramFilled

end Sys2Proof.Machine
end

