-- ==== Sys2Proof/Machine/RedunCmds.lean ====
section
/-! DEFINITION. The commands of spec/11_redundant_operation.md: the clapper, tolls, the sideband and the mirror. -/

namespace Sys2Proof.Machine

/-- CLAP_PEER_CHANGE (R278, R281). -/
def execClapPeerChange (level : Bool) (s : State) : Answer := live s (fun c => c.peerLine level)

/-- CLAIM (R279): CLAP_PEER has been deasserted for 20 µs. -/
def execClaim (s : State) : Answer := live s Chip.claim

/-- CLAIM_COMPLETE (R280). -/
def execClaimComplete (s : State) : Answer := live s (fun c => c.inS Chip.claimComplete)

/-- CONTEND_RELEASE (R280). -/
def execContendRelease (s : State) : Answer := live s (fun c => c.inS Chip.contendRelease)

/-- SOLO_ASSERT (R276). -/
def execSoloAssert (s : State) : Answer := live s Chip.soloAssert

/-- FORCE_RELEASE (R278, R300). -/
def execForceRelease (o : Origin) (s : State) : Answer := serveFor o s (fun c => c.writeField o F.REDUN_CMD_FORCE_RELEASE 1)

/-- CLEAR_RELEASE (R300). -/
def execClearRelease (o : Origin) (s : State) : Answer := serveFor o s (fun c => c.writeField o F.REDUN_CMD_CLEAR_RELEASE 1)

/-- TOLL_SEND (R202, R282). -/
def execTollSend (s : State) : Answer := live s Chip.tollSend

/-- HEARTBEAT_RECEIVE (R202, R282): on a ring, or on the sideband. -/
def execHeartbeatReceive (ring : Bool) (seq state slot : Nat) (s : State) : Answer := live s (fun c => c.heartbeat ring seq state slot)

/-- TOLL_MISS (R283). -/
def execTollMiss (ring : Bool) (s : State) : Answer := live s (fun c => c.tollMiss ring)

/-- A frame of the sideband by its type (R284). -/
def Chip.sideband (c : Chip) (typ : Nat) (payload : List Byte) (ns interval measured : Nat) : Chip :=
  match typ with
  | 1 => c.heartbeat false (ofLe (slice payload 0 4)) (ofLe (slice payload 8 1)) (ofLe (slice payload 9 1) % 2)
  | 2 => c.beatFrameIn payload ns interval
  | 3 => c.sbEcho payload measured
  | 4 => c.epochData payload
  | 5 => if c.actBit then c.setMirror { c.mirror with fullDue := true } else c
  | _ => c

/-- SIDEBAND_FRAME_RECEIVE (R284): its arrival in ns, the interval a BEAT frame gives, and the measurement an ECHO frame gives. -/
def execSidebandFrameReceive (bytes : List Byte) (ns interval measured : Nat) (s : State) : Answer :=
  live s (fun c => c.inS (fun c =>
    match sbParse bytes with
    | none => c.bumpSat F.REDUN_TOLL_CRC_COUNT
    | some (typ, payload) => c.sideband typ payload ns interval measured))

/-- BEAT_FRAME_MISS (R286). -/
def execBeatFrameMiss (s : State) : Answer := live s (fun c => c.when c.pairFollower Chip.missDownbeat)

/-- SIDEBAND_ECHO_SEND (R285). -/
def execSidebandEchoSend (s : State) : Answer := live s Chip.sbEchoSend

/-- EPOCH_START (R290). -/
def execEpochStart (s : State) : Answer := live s Chip.epochStart

/-- MIRROR_SENT (R290). -/
def execMirrorSent (s : State) : Answer := live s Chip.mirrorSent

/-- MIRROR_CMD_FULL (R292). -/
def execMirrorCmdFull (o : Origin) (s : State) : Answer := serveFor o s (fun c => c.writeField o F.MIRROR_CMD_FULL 1)

/-- The address of word `i` of a record: a run of registers, or all at one window register (R291). -/
def SetItem.wordAddr (x : SetItem) (i : Nat) : Nat := if x.typ = 1 then x.addr + 4 * i else x.addr

/-- The register records of a set written with origin MIRROR, and the pages they touch committed (R293). -/
def Chip.mirrorWrites (items : List SetItem) (c : Chip) : Chip :=
  let c := items.foldl (fun c x => x.words.zipIdx.foldl (fun c w => c.write32 .mirror (x.wordAddr w.2) (BitVec.ofNat 32 w.1)) c) c
  ((items.flatMap (fun x => x.words.zipIdx.map (fun w => x.wordAddr w.2 / 4096))).eraseDups).foldl (fun c pg => c.writeCommit .mirror pg) c

/-- SET_APPLY (R293). -/
def execSetApply (s : State) : Answer := live s (fun c => c.inS (fun c => c.setApply Chip.mirrorWrites))

/-- MIRROR_APPLIED (R293). -/
def execMirrorApplied (s : State) : Answer := live s (fun c => c.inS Chip.applied)

/-- EPOCH_FRAME_LATE (R294). -/
def execEpochFrameLate (s : State) : Answer := live s (fun c => c.inS Chip.epochLate)

end Sys2Proof.Machine
end

