-- ==== Sys2Proof/Machine/ResetCmds.lean ====
section
/-! DEFINITION. The commands of spec/16_start_up.md and of the debugger: the kinds of reset, bring-up and boundary scan. -/

namespace Sys2Proof.Machine

/-- POWER_ON_RESET (R351, R386, R390): nothing holds it off, the latched knell included. -/
def execPowerOnReset (s : State) : Answer := .next { s with chip := s.chip.powerOn }

/-- POWER_GOOD_TRUE (R386). -/
def execPowerGoodTrue (s : State) : Answer := .next { s with chip := s.chip.powerGood }

/-- DEVICE_RESET (R386, R387, R390, R409): cause 1 with the monitor number of the supply, or 2 for RESET_N. -/
def execDeviceReset (cause rail : Nat) (s : State) : Answer := .next { s with chip := s.chip.powerLost cause rail }

/-- STRAP_SAMPLE (R388). -/
def execStrapSample (pos slot boot : Nat) (s : State) : Answer := awake s (fun c => c.strapSample pos slot boot)

/-- RESET_CMD_DEVICE (R390). -/
def execResetCmdDevice (o : Origin) (s : State) : Answer := serveFor o s (fun c => c.writeField o F.RESET_CMD_DEVICE 1)

/-- PCIE_FUNCTION_RESET (R60, R390). -/
def execPcieFunctionReset (s : State) : Answer := live s Chip.pcieReset

/-- JTAG_RESET (R390). -/
def execJtagReset (s : State) : Answer := powered s Chip.tapReset

/-- BRINGUP_STEP_END (R391): by completion or by timeout, with the lock mask of the PLLs. -/
def execBringupStepEnd (step : Nat) (timedOut : Bool) (mask : Nat) (s : State) : Answer := awake s (fun c => c.bringupEnd step timedOut mask)

/-- XTAL_PLL_RETRY (R391). -/
def execXtalPllRetry (locked : Bool) (s : State) : Answer := awake s (fun c => c.xtalRetry locked)

/-- PWM8_CLEAR (R394, R397). -/
def execPwm8Clear (s : State) : Answer := serve s Chip.pwm8Off

/-- DEBUGGER_HALT (R349). -/
def execDebuggerHalt (s : State) : Answer := serve s (fun c => c.setHalted true)

/-- DEBUGGER_RESUME (R349). -/
def execDebuggerResume (s : State) : Answer := serve s (fun c => c.setHalted false)

/-- JTAG_DEBUG_RESET (R350). -/
def execJtagDebugReset (s : State) : Answer := serve s (fun c => c.belfryDown 5)

/-- JTAG_EXTEST (R422, R423): CLAP_OWN, ALERT_N and the other cells of the boundary register. -/
def execJtagExtest (clapOwn alertLow : Bool) (cells : List Bool) (s : State) : Answer := powered s (fun c => c.extest clapOwn alertLow cells)

end Sys2Proof.Machine
end

