-- ==== Sys2Proof/Machine/TileCmds.lean ====
section
/-! DEFINITION. The commands of spec/09_tile_pipeline.md: lamp engines, images, passes, holding images, dose and gains, and the tables of the tile. -/

namespace Sys2Proof.Machine

/-- PIXEL_CELL_PROCESS (R228 to R231): the table upsets the engine meets in the cell come with it. -/
def execPixelCellProcess (engine : Nat) (upsets : List (Nat × Nat)) (s : State) : Answer := live s (fun c => c.inT (fun c => c.pixelProcess engine upsets))

/-- IMAGE_COMPLETE (R236, R237): the instant, in ps of the tile's time base. -/
def execImageComplete (atPs : Nat) (s : State) : Answer := live s (fun c => c.inT (fun c => c.imageComplete atPs))

/-- PASS_BOUNDARY (R238, R251, R252, R262, R394). -/
def execPassBoundary (s : State) : Answer := live s (fun c => c.inT (fun c => c.passBoundary.lightNow))

/-- PASS_WAIT_END (R252). -/
def execPassWaitEnd (s : State) : Answer := live s (fun c => c.inT Chip.waitEnd)

/-- TILE_TEMP_FACTOR (R233). -/
def execTileTempFactor (s : State) : Answer := live s (fun c => c.inT Chip.tempFactors)

/-- HOLD_IMAGE_PREPARE (R245). -/
def execHoldImagePrepare (s : State) : Answer := live s (fun c => c.inT (fun c => c.when c.belfryUp Chip.holdPrepare))

/-- HOLD_IMAGE_READY (R245). -/
def execHoldImageReady (s : State) : Answer := live s (fun c => c.inT Chip.holdReady)

/-- DOSE_UPDATE (R247). -/
def execDoseUpdate (s : State) : Answer := live s (fun c => c.inT Chip.doseUpdate)

/-- DOSE_FLUSH (R248). -/
def execDoseFlush (s : State) : Answer := live s (fun c => c.inT Chip.doseFlushed)

/-- AGEING_GAIN_UPDATE (R249, R250). -/
def execAgeingGainUpdate (s : State) : Answer := live s (fun c => c.inT Chip.gainUpdate)

/-- EOTF_TAB_DATA (EOTF.TAB_DATA). -/
def execEotfTabData (o : Origin) (write : Option Word) (s : State) : Answer := serveFor o s (fun c => c.window o F.EOTF_TAB_DATA_LIN.addr write)

/-- TC_DATA (CORRECT.TC_DATA). -/
def execTcData (o : Origin) (write : Option Word) (s : State) : Answer := serveFor o s (fun c => c.window o F.CORRECT_TC_DATA_TG.addr write)

/-- MARGIN_MIN_CLR (R237). -/
def execMarginMinClr (o : Origin) (s : State) : Answer := serveFor o s (fun c => c.writeField o F.TILERX_MARGIN_MIN_CLR 1)

end Sys2Proof.Machine
end

