-- ==== Sys2Proof/Machine/TimeCmds.lean ====
section
/-! DEFINITION. The commands of spec/04_bars_and_time.md: the time counter, bars and beats, REF_IN, downbeats, stack followers and the launch queue. -/

namespace Sys2Proof.Machine

/-- TIME_WRAP (R80). -/
def execTimeWrap (s : State) : Answer := live s (fun c => c.ticks c.ticksToWrap)

/-- TIME_INC_WRITE (R81). -/
def execTimeIncWrite (o : Origin) (inc : Word) (s : State) : Answer := serveFor o s (fun c => c.write32 o F.TIME_INC_INC.addr inc)

/-- TIME_ADJ (R82, R83). -/
def execTimeAdj (o : Origin) (adj : Word) (s : State) : Answer := serveFor o s (fun c => c.write32 o F.TIME_ADJ_ADJ.addr adj)

/-- PTP_TIMESTAMP_CAPTURE (R84): `ticks` clock ticks later. -/
def execPtpTimestampCapture (path dir msgType seqId ticks frac : Nat) (s : State) : Answer :=
  live s (fun c => (c.ticks ticks).when (decide (path < 2)) (fun c => c.tsCapture path dir msgType seqId frac))

/-- TS_POP (R84). -/
def execTsPop (o : Origin) (path : Nat) (s : State) : Answer :=
  serveFor o s (fun c => c.when (decide (path < 2)) (fun c => c.hostRead o (F.TIME_TS_A_NS.addr + 8 * path)))

/-- TS_FLUSH (R84). -/
def execTsFlush (o : Origin) (s : State) : Answer := serveFor o s (fun c => c.writeField o F.TIME_TS_CTRL_FLUSH 1)

/-- BAR_START (R87, R91). -/
def execBarStart (s : State) : Answer := live s Chip.barBegin

/-- BEAT_START (R13, R87). -/
def execBeatStart (s : State) : Answer := live s Chip.beatBegin

/-- REF_IN_EDGE (R89). -/
def execRefInEdge (ns : Nat) (s : State) : Answer := live s (fun c => c.inS (fun c => c.refEdge ns))

/-- REF_IN_LOSS (R90). -/
def execRefInLoss (s : State) : Answer := live s (fun c => c.inS Chip.refLoss)

/-- DOWNBEAT_LAUNCH (R100, R206). -/
def execDownbeatLaunch (s : State) : Answer := live s (fun c => c.inS Chip.downbeatLaunch)

/-- MODE_CHANGE_APPLY (R183). -/
def execModeChangeApply (s : State) : Answer := live s Chip.modeApply

/-- ECHO_SEND (R203). -/
def execEchoSend (port : Nat) (s : State) : Answer := live s (fun c => c.when (decide (port < c.numPorts)) (fun c => c.echoSend port))

/-- ECHO_FAIL (R203): the oldest request that is out gets no response; the mean stays. -/
def execEchoFail (port : Nat) (s : State) : Answer :=
  live s (fun c => c.when (decide (port < c.numPorts) && !(c.port port).echoOut.isEmpty) (fun c =>
    (c.setPort port { c.port port with echoOut := (c.port port).echoOut.drop 1 }).cause port cEchoFail))

/-- TILE_BEAT_START (R102, R238). -/
def execTileBeatStart (s : State) : Answer := live s (fun c => c.inT (fun c => c.tileBeat.lightNow))

/-- DB_MISSING (R105, R242). -/
def execDbMissing (s : State) : Answer := live s (Chip.obeying Chip.dbMissing)

/-- FLY_BARS_EXPIRE (R242). -/
def execFlyBarsExpire (s : State) : Answer := live s (fun c => c.inT Chip.flyExpire)

/-- LAUNCH_PUSH (R97, R99). -/
def execLaunchPush (o : Origin) (word : Word) (s : State) : Answer := serveFor o s (fun c => c.write32 o F.LAUNCH_PUSH_KIND.addr word)

/-- LAUNCH_CANCEL_ALL (R97). -/
def execLaunchCancelAll (o : Origin) (s : State) : Answer := serveFor o s (fun c => c.write32 o F.LAUNCH_CANCEL_ALL.addr 0x100)

/-- LAUNCH_CANCEL_TAG (R97). -/
def execLaunchCancelTag (o : Origin) (tag : Nat) (s : State) : Answer :=
  serveFor o s (fun c => c.write32 o F.LAUNCH_CANCEL_ALL.addr (BitVec.ofNat 32 (tag % 256)))

/-- CUE_LOAD_DONE (R154, R155). -/
def execCueLoadDone (s : State) : Answer := live s (fun c => c.inS Chip.cueDone)

/-- MASTER_DOWNBEAT_ARRIVE (R107). -/
def execMasterDownbeatArrive (cell ns interval : Nat) (s : State) : Answer := live s (fun c => c.masterDownbeat cell ns interval)

/-- STACK_MISS (R109): a follower of a stack master misses the downbeat it expects. -/
def execStackMiss (s : State) : Answer := live s (fun c => c.when (!c.pairFollower) Chip.missDownbeat)

end Sys2Proof.Machine
end

