-- ==== Sys2Proof/Machine/UpdateCmds.lean ====
section
/-! DEFINITION. The commands of spec/15_update_settings.md: journaled copies, boot, staging, BULK, activation and settings. -/

namespace Sys2Proof.Machine

/-- JOURNAL_WRITE (R371): the area and index of the copy, and whether its first and second attempts read back right. -/
def execJournalWrite (area index : Nat) (ok1 ok2 : Bool) (s : State) : Answer := serve s (fun c => c.journalWrite area index ok1 ok2)

/-- BOOT_IMAGE_SELECT (R375). -/
def execBootImageSelect (s : State) : Answer := serve s Chip.boot

/-- OPEN (R376). -/
def execUpdateOpen (o : Origin) (s : State) : Answer := serveFor o s (fun c => c.writeField o F.UPDATE_CMD_OPEN 1)

/-- ERASE_DONE (R376). -/
def execEraseDone (flashOk : Bool) (s : State) : Answer := serve s (fun c => c.updErased flashOk)

/-- BLOCK_DATA (R376). -/
def execBlockData (o : Origin) (w : Word) (s : State) : Answer := serveFor o s (fun c => c.write32 o F.UPDATE_BLOCK_DATA_DATA.addr w)

/-- WRITE (R376). -/
def execUpdateWrite (o : Origin) (s : State) : Answer := serveFor o s (fun c => c.writeField o F.UPDATE_CMD_WRITE 1)

/-- BLOCK_PROGRAMMED (R376). -/
def execBlockProgrammed (flashOk : Bool) (s : State) : Answer := serve s (fun c => c.blockDone flashOk)

/-- SEND (R378). -/
def execBulkSend (o : Origin) (s : State) : Answer := serveFor o s (fun c => c.writeField o F.UPDATE_CMD_SEND 1)

/-- BULK_CELL_SEND (R201, R378). -/
def execBulkCellSend (s : State) : Answer := live s (fun c => c.inS Chip.bulkCell)

/-- VERIFY (R379). -/
def execUpdateVerify (o : Origin) (s : State) : Answer := serveFor o s (fun c => c.writeField o F.UPDATE_CMD_VERIFY 1)

/-- VERIFY_DONE (R379). -/
def execVerifyDone (flashOk : Bool) (s : State) : Answer := serve s (fun c => c.verifyDone flashOk)

/-- ABORT (R379). -/
def execUpdateAbort (o : Origin) (s : State) : Answer := serveFor o s (fun c => c.writeField o F.UPDATE_CMD_ABORT 1)

/-- ACTIVATE (R380, R381). -/
def execActivate (o : Origin) (s : State) : Answer := serveFor o s (fun c => c.writeField o F.UPDATE_CMD_ACTIVATE 1)

/-- CONFIRM (R382). -/
def execConfirm (o : Origin) (s : State) : Answer := serveFor o s (fun c => c.writeField o F.UPDATE_CMD_CONFIRM 1)

/-- CONFIRM_TIMEOUT (R382). -/
def execConfirmTimeout (s : State) : Answer := serve s Chip.confirmExpire

/-- SAVE (R383). -/
def execSettingsSave (o : Origin) (s : State) : Answer := serveFor o s (fun c => c.writeField o F.SETTINGS_CMD_SAVE 1)

/-- LIST_DATA (R383). -/
def execListData (o : Origin) (write : Option Word) (s : State) : Answer := serveFor o s (fun c => c.window o F.SETTINGS_LIST_DATA_ADDR.addr write)

/-- SETTINGS_APPLY (R384, R391, R395): the holding image of the running image's tables comes with it. -/
def execSettingsApply (timedOut : Bool) (w h : Nat) (image : List Byte) (s : State) : Answer := serve s (fun c => c.settingsApply timedOut w h image)

end Sys2Proof.Machine
end

