-- ==== Sys2Proof/Machine/Dispatch.lean ====
section
/-! DEFINITION. The dispatch of the commands: one arm for each constructor of Instr, each a direct call of its meaning. -/

namespace Sys2Proof.Machine

/-- The effect of a command on everything but the queue. -/
def exec (i : Instr) (s : State) : Host.Outcome State Fault Refusal :=
  match i with
  | .registerWrite w same => Sys2Proof.Machine.execRegisterWrite w same s
  | .pageEnable o page => Sys2Proof.Machine.execPageEnable o page s
  | .pageDisable o page => Sys2Proof.Machine.execPageDisable o page s
  | .commit o page => Sys2Proof.Machine.execCommit o page s
  | .applyPoint ref => Sys2Proof.Machine.execApplyPoint ref s
  | .srst o page => Sys2Proof.Machine.execSrst o page s
  | .srstComplete page => Sys2Proof.Machine.execSrstComplete page s
  | .evtForce o page bits => Sys2Proof.Machine.execEvtForce o page bits s
  | .vecEoi o vector => Sys2Proof.Machine.execVecEoi o vector s
  | .msixUnmask o vector => Sys2Proof.Machine.execMsixUnmask o vector s
  | .alertNRelease => Sys2Proof.Machine.execAlertNRelease s
  | .clrFirst o page => Sys2Proof.Machine.execClrFirst o page s
  | .clrWorst o page => Sys2Proof.Machine.execClrWorst o page s
  | .clrCount o page => Sys2Proof.Machine.execClrCount o page s
  | .flipArm o page => Sys2Proof.Machine.execFlipArm o page s
  | .usb4LinkChange gen lanes pcie dp usb2 => Sys2Proof.Machine.execUsb4LinkChange gen lanes pcie dp usb2 s
  | .pcieErr => Sys2Proof.Machine.execPcieErr s
  | .dmaStart o channel => Sys2Proof.Machine.execDmaStart o channel s
  | .dmaDone channel hostData => Sys2Proof.Machine.execDmaDone channel hostData s
  | .dmaHostError channel units hostData => Sys2Proof.Machine.execDmaHostError channel units hostData s
  | .dpStreamFrame f => Sys2Proof.Machine.execDpStreamFrame f s
  | .dpFormat f => Sys2Proof.Machine.execDpFormat f s
  | .dpLost => Sys2Proof.Machine.execDpLost s
  | .dpLock f => Sys2Proof.Machine.execDpLock f s
  | .recoveryBlock offset data => Sys2Proof.Machine.execRecoveryBlock offset data s
  | .recoveryFinal => Sys2Proof.Machine.execRecoveryFinal s
  | .srpRequest path peer datagram => Sys2Proof.Machine.execSrpRequest path peer datagram s
  | .arpRequest path peer target => Sys2Proof.Machine.execArpRequest path peer target s
  | .relayRead o a => Sys2Proof.Machine.execRelayRead o a s
  | .relayWrite o addr data => Sys2Proof.Machine.execRelayWrite o addr data s
  | .relayResponse cell => Sys2Proof.Machine.execRelayResponse cell s
  | .relayTimeout => Sys2Proof.Machine.execRelayTimeout s
  | .consoleCommand op => Sys2Proof.Machine.execConsoleCommand op s
  | .jtagRegisterAccess write addr data => Sys2Proof.Machine.execJtagRegisterAccess write addr data s
  | .wideValueLowRead o a => Sys2Proof.Machine.execWideValueLowRead o a s
  | .timeWrap => Sys2Proof.Machine.execTimeWrap s
  | .timeIncWrite o inc => Sys2Proof.Machine.execTimeIncWrite o inc s
  | .timeAdj o adj => Sys2Proof.Machine.execTimeAdj o adj s
  | .ptpTimestampCapture path dir msgType seqId ticks frac => Sys2Proof.Machine.execPtpTimestampCapture path dir msgType seqId ticks frac s
  | .tsPop o path => Sys2Proof.Machine.execTsPop o path s
  | .tsFlush o => Sys2Proof.Machine.execTsFlush o s
  | .barStart => Sys2Proof.Machine.execBarStart s
  | .beatStart => Sys2Proof.Machine.execBeatStart s
  | .refInEdge ns => Sys2Proof.Machine.execRefInEdge ns s
  | .refInLoss => Sys2Proof.Machine.execRefInLoss s
  | .downbeatLaunch => Sys2Proof.Machine.execDownbeatLaunch s
  | .modeChangeApply => Sys2Proof.Machine.execModeChangeApply s
  | .echoSend port => Sys2Proof.Machine.execEchoSend port s
  | .echoFail port => Sys2Proof.Machine.execEchoFail port s
  | .tileBeatStart => Sys2Proof.Machine.execTileBeatStart s
  | .dbMissing => Sys2Proof.Machine.execDbMissing s
  | .flyBarsExpire => Sys2Proof.Machine.execFlyBarsExpire s
  | .launchPush o word => Sys2Proof.Machine.execLaunchPush o word s
  | .launchCancelAll o => Sys2Proof.Machine.execLaunchCancelAll o s
  | .launchCancelTag o tag => Sys2Proof.Machine.execLaunchCancelTag o tag s
  | .cueLoadDone => Sys2Proof.Machine.execCueLoadDone s
  | .masterDownbeatArrive cell ns interval => Sys2Proof.Machine.execMasterDownbeatArrive cell ns interval s
  | .stackMiss => Sys2Proof.Machine.execStackMiss s
  | .ethLinkChange path link localFault remoteFault subUp fecLock => Sys2Proof.Machine.execEthLinkChange path link localFault remoteFault subUp fecLock s
  | .ethFrameReceive path sub f => Sys2Proof.Machine.execEthFrameReceive path sub f s
  | .ethFecUncorr path frames => Sys2Proof.Machine.execEthFecUncorr path frames s
  | .gapWaitExpire flow => Sys2Proof.Machine.execGapWaitExpire flow s
  | .flowStop flow => Sys2Proof.Machine.execFlowStop flow s
  | .pathLoss flow path => Sys2Proof.Machine.execPathLoss flow path s
  | .holdExpire flow => Sys2Proof.Machine.execHoldExpire flow s
  | .ctlTxGo o path sub len => Sys2Proof.Machine.execCtlTxGo o path sub len s
  | .ctlTxDone path => Sys2Proof.Machine.execCtlTxDone path s
  | .canvasRelease => Sys2Proof.Machine.execCanvasRelease s
  | .bandDispatch => Sys2Proof.Machine.execBandDispatch s
  | .bandChaseReady => Sys2Proof.Machine.execBandChaseReady s
  | .canvasBufferFree feed buf => Sys2Proof.Machine.execCanvasBufferFree feed buf s
  | .mapTaskComplete engine upsets => Sys2Proof.Machine.execMapTaskComplete engine upsets s
  | .bandComplete ticks => Sys2Proof.Machine.execBandComplete ticks s
  | .canvasLate => Sys2Proof.Machine.execCanvasLate s
  | .mapctlTabData o write => Sys2Proof.Machine.execMapctlTabData o write s
  | .leadMinClr o => Sys2Proof.Machine.execLeadMinClr o s
  | .scanLineStart => Sys2Proof.Machine.execScanLineStart s
  | .scanCanvasLine0 => Sys2Proof.Machine.execScanCanvasLine0 s
  | .scanCellRead engine port => Sys2Proof.Machine.execScanCellRead engine port s
  | .scanDataReturn port => Sys2Proof.Machine.execScanDataReturn port s
  | .underrunWaitExpire port => Sys2Proof.Machine.execUnderrunWaitExpire port s
  | .tiletabData o write => Sys2Proof.Machine.execTiletabData o write s
  | .portMarginClr o port => Sys2Proof.Machine.execPortMarginClr o port s
  | .previewDone => Sys2Proof.Machine.execPreviewDone s
  | .previewErr => Sys2Proof.Machine.execPreviewErr s
  | .cellSlot port => Sys2Proof.Machine.execCellSlot port s
  | .markerSend port => Sys2Proof.Machine.execMarkerSend port s
  | .markerReceive port lane bits => Sys2Proof.Machine.execMarkerReceive port lane bits s
  | .blockLockChange port lane blocks => Sys2Proof.Machine.execBlockLockChange port lane blocks s
  | .cellReceive port blocks arrivalPs measured => Sys2Proof.Machine.execCellReceive port blocks arrivalPs measured s
  | .tileCellInsert port => Sys2Proof.Machine.execTileCellInsert port s
  | .monitorReceive port cell => Sys2Proof.Machine.execMonitorReceive port cell s
  | .monitorStatusSend => Sys2Proof.Machine.execMonitorStatusSend s
  | .monitorIdentitySend => Sys2Proof.Machine.execMonitorIdentitySend s
  | .directionLost port => Sys2Proof.Machine.execDirectionLost port s
  | .clkLoss port => Sys2Proof.Machine.execClkLoss port s
  | .linkUp port => Sys2Proof.Machine.execLinkUp port s
  | .portTrainStart port => Sys2Proof.Machine.execPortTrainStart port s
  | .portTrained port lanes => Sys2Proof.Machine.execPortTrained port lanes s
  | .portTrainTimeout port => Sys2Proof.Machine.execPortTrainTimeout port s
  | .portFailedRetry port => Sys2Proof.Machine.execPortFailedRetry port s
  | .laneCalInterpolate port => Sys2Proof.Machine.execLaneCalInterpolate port s
  | .recalPeriod port => Sys2Proof.Machine.execRecalPeriod port s
  | .recalNow o port => Sys2Proof.Machine.execRecalNow o port s
  | .recalComplete port width height setting => Sys2Proof.Machine.execRecalComplete port width height setting s
  | .eyeMeasure port widths heights => Sys2Proof.Machine.execEyeMeasure port widths heights s
  | .laneRetireCmd o port lane => Sys2Proof.Machine.execLaneRetireCmd o port lane s
  | .laneRestore o port => Sys2Proof.Machine.execLaneRestore o port s
  | .portReduced port => Sys2Proof.Machine.execPortReduced port s
  | .fullRateRestore port => Sys2Proof.Machine.execFullRateRestore port s
  | .portFenced port => Sys2Proof.Machine.execPortFenced port s
  | .testErr port lane bits => Sys2Proof.Machine.execTestErr port lane bits s
  | .portTestClr o port => Sys2Proof.Machine.execPortTestClr o port s
  | .injectOnce o port => Sys2Proof.Machine.execInjectOnce o port s
  | .injectRepeat port => Sys2Proof.Machine.execInjectRepeat port s
  | .portCalData o port write => Sys2Proof.Machine.execPortCalData o port write s
  | .pixelCellProcess engine upsets => Sys2Proof.Machine.execPixelCellProcess engine upsets s
  | .imageComplete atPs => Sys2Proof.Machine.execImageComplete atPs s
  | .passBoundary => Sys2Proof.Machine.execPassBoundary s
  | .passWaitEnd => Sys2Proof.Machine.execPassWaitEnd s
  | .tileTempFactor => Sys2Proof.Machine.execTileTempFactor s
  | .holdImagePrepare => Sys2Proof.Machine.execHoldImagePrepare s
  | .holdImageReady => Sys2Proof.Machine.execHoldImageReady s
  | .doseUpdate => Sys2Proof.Machine.execDoseUpdate s
  | .doseFlush => Sys2Proof.Machine.execDoseFlush s
  | .ageingGainUpdate => Sys2Proof.Machine.execAgeingGainUpdate s
  | .eotfTabData o write => Sys2Proof.Machine.execEotfTabData o write s
  | .tcData o write => Sys2Proof.Machine.execTcData o write s
  | .marginMinClr o => Sys2Proof.Machine.execMarginMinClr o s
  | .rowSlotStart link volts => Sys2Proof.Machine.execRowSlotStart link volts s
  | .neighbourSlot falls => Sys2Proof.Machine.execNeighbourSlot falls s
  | .trimMeasureDone band r => Sys2Proof.Machine.execTrimMeasureDone band r s
  | .trimInterpolate => Sys2Proof.Machine.execTrimInterpolate s
  | .fadeGo o word => Sys2Proof.Machine.execFadeGo o word s
  | .diagClear o => Sys2Proof.Machine.execDiagClear o s
  | .splData o write => Sys2Proof.Machine.execSplData o write s
  | .trimData o band write => Sys2Proof.Machine.execTrimData o band write s
  | .diagTabData o => Sys2Proof.Machine.execDiagTabData o s
  | .clapPeerChange level => Sys2Proof.Machine.execClapPeerChange level s
  | .claim => Sys2Proof.Machine.execClaim s
  | .claimComplete => Sys2Proof.Machine.execClaimComplete s
  | .contendRelease => Sys2Proof.Machine.execContendRelease s
  | .soloAssert => Sys2Proof.Machine.execSoloAssert s
  | .forceRelease o => Sys2Proof.Machine.execForceRelease o s
  | .clearRelease o => Sys2Proof.Machine.execClearRelease o s
  | .tollSend => Sys2Proof.Machine.execTollSend s
  | .heartbeatReceive ring seq state slot => Sys2Proof.Machine.execHeartbeatReceive ring seq state slot s
  | .tollMiss ring => Sys2Proof.Machine.execTollMiss ring s
  | .sidebandFrameReceive bytes ns interval measured => Sys2Proof.Machine.execSidebandFrameReceive bytes ns interval measured s
  | .beatFrameMiss => Sys2Proof.Machine.execBeatFrameMiss s
  | .sidebandEchoSend => Sys2Proof.Machine.execSidebandEchoSend s
  | .epochStart => Sys2Proof.Machine.execEpochStart s
  | .mirrorSent => Sys2Proof.Machine.execMirrorSent s
  | .mirrorCmdFull o => Sys2Proof.Machine.execMirrorCmdFull o s
  | .setApply => Sys2Proof.Machine.execSetApply s
  | .mirrorApplied => Sys2Proof.Machine.execMirrorApplied s
  | .epochFrameLate => Sys2Proof.Machine.execEpochFrameLate s
  | .sramWindowWrite offset bytes => Sys2Proof.Machine.execSramWindowWrite offset bytes s
  | .sramWindowRead o offset n => Sys2Proof.Machine.execSramWindowRead o offset n s
  | .ownerWrite o bank v => Sys2Proof.Machine.execOwnerWrite o bank v s
  | .handoverSwitch bank => Sys2Proof.Machine.execHandoverSwitch bank s
  | .atomicOp byBelfry add master offset size operand => Sys2Proof.Machine.execAtomicOp byBelfry add master offset size operand s
  | .mergeRetire bank => Sys2Proof.Machine.execMergeRetire bank s
  | .scrubRead mem => Sys2Proof.Machine.execScrubRead mem s
  | .scrubNow o => Sys2Proof.Machine.execScrubNow o s
  | .bankRemapWrite o bank entry w => Sys2Proof.Machine.execBankRemapWrite o bank entry w s
  | .dramRemapWrite o w => Sys2Proof.Machine.execDramRemapWrite o w s
  | .remapDone dram unit entry => Sys2Proof.Machine.execRemapDone dram unit entry s
  | .splitGo o word => Sys2Proof.Machine.execSplitGo o word s
  | .sramFillDone => Sys2Proof.Machine.execSramFillDone s
  | .dramFillDone => Sys2Proof.Machine.execDramFillDone s
  | .dramReadCmd master bar2 addr len hitsPending => Sys2Proof.Machine.execDramReadCmd master bar2 addr len hitsPending s
  | .dramWriteCmd master bar2 addr bytes => Sys2Proof.Machine.execDramWriteCmd master bar2 addr bytes s
  | .refreshDue port rank chan bank rtRun => Sys2Proof.Machine.execRefreshDue port rank chan bank rtRun s
  | .mr4Poll port rank chan code hot => Sys2Proof.Machine.execMr4Poll port rank chan code hot s
  | .powerDownEntry port rank => Sys2Proof.Machine.execPowerDownEntry port rank s
  | .dqsTrack port chan drift => Sys2Proof.Machine.execDqsTrack port chan drift s
  | .dramRetrainCmd o port => Sys2Proof.Machine.execDramRetrainCmd o port s
  | .dramRetrainSlice port found => Sys2Proof.Machine.execDramRetrainSlice port found s
  | .eccRateWindow port => Sys2Proof.Machine.execEccRateWindow port s
  | .dramRateStep port => Sys2Proof.Machine.execDramRateStep port s
  | .rateStepDone port grade => Sys2Proof.Machine.execRateStepDone port grade s
  | .rateRestore o port => Sys2Proof.Machine.execRateRestore o port s
  | .dramPortFail port => Sys2Proof.Machine.execDramPortFail port s
  | .dramInitTrain port ranks rankMib uniform grade => Sys2Proof.Machine.execDramInitTrain port ranks rankMib uniform grade s
  | .dramRefClr o port => Sys2Proof.Machine.execDramRefClr o port s
  | .lockstep => Sys2Proof.Machine.execLockstep s
  | .belfryBusErr => Sys2Proof.Machine.execBelfryBusErr s
  | .kick o value ms => Sys2Proof.Machine.execKick o value ms s
  | .watchdogTimeout => Sys2Proof.Machine.execWatchdogTimeout s
  | .belfryCmdRestart o => Sys2Proof.Machine.execBelfryCmdRestart o s
  | .belfryRestart => Sys2Proof.Machine.execBelfryRestart s
  | .sensorSample raws => Sys2Proof.Machine.execSensorSample raws s
  | .thermalMaskWrite o mask => Sys2Proof.Machine.execThermalMaskWrite o mask s
  | .throttleEvaluate => Sys2Proof.Machine.execThrottleEvaluate s
  | .knellShutdown => Sys2Proof.Machine.execKnellShutdown s
  | .knellFlashEnd outcome => Sys2Proof.Machine.execKnellFlashEnd outcome s
  | .knellPrior => Sys2Proof.Machine.execKnellPrior s
  | .voltageSample mvs => Sys2Proof.Machine.execVoltageSample mvs s
  | .debugUnlockWrite o value => Sys2Proof.Machine.execDebugUnlockWrite o value s
  | .logFlush => Sys2Proof.Machine.execLogFlush s
  | .logRead o seq => Sys2Proof.Machine.execLogRead o seq s
  | .logReadDone => Sys2Proof.Machine.execLogReadDone s
  | .journalWrite area index ok1 ok2 => Sys2Proof.Machine.execJournalWrite area index ok1 ok2 s
  | .bootImageSelect => Sys2Proof.Machine.execBootImageSelect s
  | .updateOpen o => Sys2Proof.Machine.execUpdateOpen o s
  | .eraseDone flashOk => Sys2Proof.Machine.execEraseDone flashOk s
  | .blockData o w => Sys2Proof.Machine.execBlockData o w s
  | .updateWrite o => Sys2Proof.Machine.execUpdateWrite o s
  | .blockProgrammed flashOk => Sys2Proof.Machine.execBlockProgrammed flashOk s
  | .bulkSend o => Sys2Proof.Machine.execBulkSend o s
  | .bulkCellSend => Sys2Proof.Machine.execBulkCellSend s
  | .updateVerify o => Sys2Proof.Machine.execUpdateVerify o s
  | .verifyDone flashOk => Sys2Proof.Machine.execVerifyDone flashOk s
  | .updateAbort o => Sys2Proof.Machine.execUpdateAbort o s
  | .activate o => Sys2Proof.Machine.execActivate o s
  | .confirm o => Sys2Proof.Machine.execConfirm o s
  | .confirmTimeout => Sys2Proof.Machine.execConfirmTimeout s
  | .settingsSave o => Sys2Proof.Machine.execSettingsSave o s
  | .listData o write => Sys2Proof.Machine.execListData o write s
  | .settingsApply timedOut w h image => Sys2Proof.Machine.execSettingsApply timedOut w h image s
  | .powerOnReset => Sys2Proof.Machine.execPowerOnReset s
  | .powerGoodTrue => Sys2Proof.Machine.execPowerGoodTrue s
  | .deviceReset cause rail => Sys2Proof.Machine.execDeviceReset cause rail s
  | .strapSample pos slot boot => Sys2Proof.Machine.execStrapSample pos slot boot s
  | .resetCmdDevice o => Sys2Proof.Machine.execResetCmdDevice o s
  | .pcieFunctionReset => Sys2Proof.Machine.execPcieFunctionReset s
  | .jtagReset => Sys2Proof.Machine.execJtagReset s
  | .bringupStepEnd step timedOut mask => Sys2Proof.Machine.execBringupStepEnd step timedOut mask s
  | .xtalPllRetry locked => Sys2Proof.Machine.execXtalPllRetry locked s
  | .pwm8Clear => Sys2Proof.Machine.execPwm8Clear s
  | .debuggerHalt => Sys2Proof.Machine.execDebuggerHalt s
  | .debuggerResume => Sys2Proof.Machine.execDebuggerResume s
  | .jtagDebugReset => Sys2Proof.Machine.execJtagDebugReset s
  | .jtagExtest clapOwn alertLow cells => Sys2Proof.Machine.execJtagExtest clapOwn alertLow cells s

end Sys2Proof.Machine
end

