-- ==== Sys2Proof/Machine/IdleOps.lean ====
section
/-! DEFINITION. What the block does while no command waits: its time counter ticks, and the Belfry takes one record off its queues. -/

namespace Sys2Proof.Machine

/-- One tick of the 250 MHz time counter (R80) with the DRAM command slots in it (R337), and the Belfry's own work: a load that waits (R250), scan-out
to leave the SRAM canvas and banks to be handed back (R396), and one record taken (R53, R324, R367): what a step does on an empty queue (DESIGN
CHOICE, assumption log 2). -/
def Chip.idleStep (c : Chip) : Chip := (c.ticks 1).dramSlots.when c.belfryUp (fun c => c.loadsDue.leaveSramCanvas.banksBack.logTake)

/-- A step with no command waiting. -/
def idleAnswer (s : State) : Answer := serve s Chip.idleStep

end Sys2Proof.Machine
end

