-- ==== Sys2Proof/Safety.lean ====
section
/-! DEFINITION. The terms in which claims are made: a block that runs, that has no commit waiting, that differs from another only by reports; memories in canonical form; and sinks within the current ceiling. -/

namespace Sys2Proof.Machine

/-! ### A block that runs -/

/-- The block runs: neither the knell nor device reset nor a missing PLL holds it (R362, R386, R391). -/
abbrev Runs (s : State) : Prop := s.chip.idle = false

/-- Nothing waits: no commit to be taken (R43), and no access on a path, the relay's queue having room (R72). -/
abbrev Calm (c : Chip) : Prop := c.commitPages = [] ∧ c.pathsOpen = true

/-! ### Reports: events, error records, change records, messages -/

/-- The block without what reports write: registers, what is sent, the event and change queues, ALERT_N and MONITOR cells. -/
def Chip.still (c : Chip) : Chip :=
  { c with regs := [], out := [], evq := [], evqExtra := none, changeQ := [], host := { c.host with alertLow := false }, ports := [], chain := ChainSt.init }

/-- A register that no event, error record or change record writes: not one of the event and error registers of a page header, nor the
pending bits of MSI-X, the counts of lost reports, or BAD_ADDR. -/
def quietReg (a : Nat) : Bool :=
  (decide (a % 4096 < 0x10) || decide (0x38 ≤ a % 4096)) && decide (a ≠ F.USB4_PBA.addr) && decide (a ≠ F.ECC_EVQ_LOST.addr) &&
    decide (a ≠ F.CHAINCTL_MON_LOST_COUNT.addr) && decide (a ≠ F.DEVICE_CHANGE_LOST_COUNT.addr) && decide (a ≠ F.DEVICE_BAD_ADDR_VALID.addr)

/-- The page control words of the register file. -/
def Chip.ctrls (c : Chip) : SMap Word := c.regs.filter (fun (p : Nat × Word) => decide (p.1 % 4096 = 4))

/-- One block is another but for reports: registers that reports write, what is sent, queues of reports, ALERT_N and MONITOR cells. -/
def Quiet (c d : Chip) : Prop := d.still = c.still ∧ d.ctrls = c.ctrls ∧ ∀ a, quietReg a = true → d.rd a = c.rd a

/-- As `Quiet`, but that the registers of a list may differ too. -/
def QuietBut (l : List Nat) (c d : Chip) : Prop := d.still = c.still ∧ ∀ a, quietReg a = true → a ∉ l → d.rd a = c.rd a

/-- Nothing of the block differs but the registers of a list. -/
def OnlyRegs (l : List Nat) (c d : Chip) : Prop := { d with regs := c.regs } = c ∧ ∀ a, a ∉ l → d.rd a = c.rd a

/-- The Ethernet frames that the block has sent. -/
def Chip.frames (c : Chip) : List Output := c.out.filter (fun x => match x with | .frame _ _ _ => true | _ => false)

/-! ### Completion -/

/-- The command completes: its answer is a next state, in which the queue stands as it stood and of whose block `P` holds. -/
def Completes (i : Instr) (s : State) (P : Chip → Prop) : Prop := ∃ t, exec i s = .next t ∧ t.pending = s.pending ∧ P t.chip

/-! ### Memories in canonical form -/

/-- Every memory of the block is in canonical form: addresses rising, no entry equal to what an unlisted address reads as. -/
def Chip.memOk (c : Chip) : Bool :=
  Memory.wf 0 c.mem.sram && smWf 0 c.mem.sramSyn && Memory.wf 0 c.mem.belfry && smWf 0 c.mem.belfrySyn && Memory.wf 0 c.mem.dram &&
    smWf 0 c.mem.dramSyn && Memory.wf 0xFF c.belfry.flash

/-! ### Sinks within the ceiling (R8, R265) -/

/-- Every sink of every row slot sent is within the ceiling of its moment, in nA. -/
def lightWithin (limit : Nat) (o : Output) : Bool :=
  match o with
  | .light _ _ _ _ _ l => l.all (fun x => decide (x.na ≤ limit))
  | _ => true

end Sys2Proof.Machine
end

