-- ==== Sys2Proof/WellFormed.lean ====
section
/-! DEFINITION. Well-formed commands: operands within the ranges the specification gives the thing they name. -/

namespace Sys2Proof

/-- The sizes of an access in bytes (R30). -/
def accessSize (n : Nat) : Bool := n = 1 || n = 2 || n = 4 || n = 8

/-- A write within the 24-bit space (R29, R30). -/
def BusWrite.ok (w : BusWrite) : Bool := accessSize w.size && w.addr < 2 ^ 24

/-- A block of a lane: a two-bit sync header and a 64-bit payload (R189). -/
def LineBlock.ok (b : LineBlock) : Bool := b.lane < 3 && b.sync < 4 && b.payload < 2 ^ 64

/-- Every operand names something that some build has: a page of 1,024, a chain port of 16, a DRAM port of 4, a vector of 32, a bank of 8,
a band of 4, a lane of 3, a path of 2, a flow of 16. -/
def Instr.wf (i : Instr) : Bool :=
  match i with
  | .registerWrite w same => w.ok && same.all BusWrite.ok
  | .pageEnable _ page => page < 1024
  | .pageDisable _ page => page < 1024
  | .commit _ page => page < 1024
  | .applyPoint _ => true
  | .srst _ page => page < 1024
  | .srstComplete page => page < 1024
  | .evtForce _ page _ => page < 1024
  | .vecEoi _ vector => vector < 32
  | .msixUnmask _ vector => vector < 32
  | .alertNRelease => true
  | .clrFirst _ page => page < 1024
  | .clrWorst _ page => page < 1024
  | .clrCount _ page => page < 1024
  | .flipArm _ page => page < 1024
  | .usb4LinkChange gen lanes _ _ _ => gen < 4 && lanes < 4
  | .pcieErr => true
  | .dmaStart _ channel => channel < 2
  | .dmaDone channel _ => channel < 2
  | .dmaHostError channel _ _ => channel < 2
  | .dpStreamFrame _ => true
  | .dpFormat _ => true
  | .dpLost => true
  | .dpLock _ => true
  | .recoveryBlock _ data => data.length ≤ 4096
  | .recoveryFinal => true
  | .srpRequest path _ _ => path < 2
  | .arpRequest path _ target => path < 2 && target < 2 ^ 32
  | .relayRead _ a => a.addr < 0x400000 && accessSize a.size
  | .relayWrite _ addr _ => addr < 0x400000
  | .relayResponse cell => cell < 2 ^ 512
  | .relayTimeout => true
  | .consoleCommand _ => true
  | .jtagRegisterAccess _ addr _ => addr < 2 ^ 24
  | .wideValueLowRead _ a => a.addr < 2 ^ 24 && accessSize a.size
  | .timeWrap => true
  | .timeIncWrite _ _ => true
  | .timeAdj _ _ => true
  | .ptpTimestampCapture path dir msgType seqId _ frac => path < 2 && dir < 2 && msgType < 16 && seqId < 65536 && frac < 1026
  | .tsPop _ path => path < 2
  | .tsFlush _ => true
  | .barStart => true
  | .beatStart => true
  | .refInEdge _ => true
  | .refInLoss => true
  | .downbeatLaunch => true
  | .modeChangeApply => true
  | .echoSend port => port < 16
  | .echoFail port => port < 16
  | .tileBeatStart => true
  | .dbMissing => true
  | .flyBarsExpire => true
  | .launchPush _ _ => true
  | .launchCancelAll _ => true
  | .launchCancelTag _ tag => tag < 256
  | .cueLoadDone => true
  | .masterDownbeatArrive cell _ _ => cell < 2 ^ 512
  | .stackMiss => true
  | .ethLinkChange path _ _ _ subUp fecLock => path < 2 && subUp < 16 && fecLock < 16
  | .ethFrameReceive path sub _ => path < 2 && sub < 4
  | .ethFecUncorr path _ => path < 2
  | .gapWaitExpire flow => flow < 16
  | .flowStop flow => flow < 16
  | .pathLoss flow path => flow < 16 && path < 2
  | .holdExpire flow => flow < 16
  | .ctlTxGo _ path sub len => path < 2 && sub < 4 && len < 16384
  | .ctlTxDone path => path < 2
  | .canvasRelease => true
  | .bandDispatch => true
  | .bandChaseReady => true
  | .canvasBufferFree feed _ => feed < 8
  | .mapTaskComplete engine _ => engine < 16
  | .bandComplete _ => true
  | .canvasLate => true
  | .mapctlTabData _ _ => true
  | .leadMinClr _ => true
  | .scanLineStart => true
  | .scanCanvasLine0 => true
  | .scanCellRead engine port => engine < 2 && port < 16
  | .scanDataReturn port => port < 16
  | .underrunWaitExpire port => port < 16
  | .tiletabData _ _ => true
  | .portMarginClr _ port => port < 16
  | .previewDone => true
  | .previewErr => true
  | .cellSlot port => port < 16
  | .markerSend port => port < 16
  | .markerReceive port lane bits => port < 16 && lane < 3 && bits < 2 ^ 66
  | .blockLockChange port lane blocks => port < 16 && lane < 3 && blocks.all (fun b => b.ok && b.lane = lane)
  | .cellReceive port blocks _ _ => port < 16 && blocks.all LineBlock.ok
  | .tileCellInsert port => port < 16
  | .monitorReceive port cell => port < 16 && cell < 2 ^ 512
  | .monitorStatusSend => true
  | .monitorIdentitySend => true
  | .directionLost port => port < 16
  | .clkLoss port => port < 16
  | .linkUp port => port < 16
  | .portTrainStart port => port < 16
  | .portTrained port lanes => port < 16 && lanes.widths.length = 3 && lanes.heights.length = 3 && lanes.settings.length = 3
  | .portTrainTimeout port => port < 16
  | .portFailedRetry port => port < 16
  | .laneCalInterpolate port => port < 16
  | .recalPeriod port => port < 16
  | .recalNow _ port => port < 16
  | .recalComplete port _ _ _ => port < 16
  | .eyeMeasure port widths heights => port < 16 && widths.length = 3 && heights.length = 3
  | .laneRetireCmd _ port lane => port < 16 && lane < 3
  | .laneRestore _ port => port < 16
  | .portReduced port => port < 16
  | .fullRateRestore port => port < 16
  | .portFenced port => port < 16
  | .testErr port lane _ => port < 16 && lane < 3
  | .portTestClr _ port => port < 16
  | .injectOnce _ port => port < 16
  | .injectRepeat port => port < 16
  | .portCalData _ port _ => port < 16
  | .pixelCellProcess _ _ => true
  | .imageComplete _ => true
  | .passBoundary => true
  | .passWaitEnd => true
  | .tileTempFactor => true
  | .holdImagePrepare => true
  | .holdImageReady => true
  | .doseUpdate => true
  | .doseFlush => true
  | .ageingGainUpdate => true
  | .eotfTabData _ _ => true
  | .tcData _ _ => true
  | .marginMinClr _ => true
  | .rowSlotStart link _ => link.all (fun x => decide (x.2 < 512))
  | .neighbourSlot falls => falls.all (fun x => decide (x.2.1 < 4))
  | .trimMeasureDone band _ => band < 4
  | .trimInterpolate => true
  | .fadeGo _ _ => true
  | .diagClear _ => true
  | .splData _ _ => true
  | .trimData _ band _ => band < 4
  | .diagTabData _ => true
  | .clapPeerChange _ => true
  | .claim => true
  | .claimComplete => true
  | .contendRelease => true
  | .soloAssert => true
  | .forceRelease _ => true
  | .clearRelease _ => true
  | .tollSend => true
  | .heartbeatReceive _ seq state slot => seq < 2 ^ 32 && state < 8 && slot < 2
  | .tollMiss _ => true
  | .sidebandFrameReceive _ _ _ _ => true
  | .beatFrameMiss => true
  | .sidebandEchoSend => true
  | .epochStart => true
  | .mirrorSent => true
  | .mirrorCmdFull _ => true
  | .setApply => true
  | .mirrorApplied => true
  | .epochFrameLate => true
  | .sramWindowWrite offset bytes => offset + bytes.length ≤ 0x800000
  | .sramWindowRead _ offset n => offset + n ≤ 0x800000
  | .ownerWrite _ bank v => bank < 8 && v < 8
  | .handoverSwitch bank => bank < 8
  | .atomicOp _ _ _ offset size operand => (size = 4 || size = 8) && offset % size = 0 && offset < 0x800000 && operand < 2 ^ (8 * size)
  | .mergeRetire bank => bank < 8
  | .scrubRead mem => mem < 13
  | .scrubNow _ => true
  | .bankRemapWrite _ bank entry _ => bank < 8 && entry < 8
  | .dramRemapWrite _ _ => true
  | .remapDone dram unit entry => if dram then unit < 4 && entry < 16 else unit < 8 && entry < 8
  | .splitGo _ _ => true
  | .sramFillDone => true
  | .dramFillDone => true
  | .dramReadCmd _ _ _ _ _ => true
  | .dramWriteCmd _ _ _ _ => true
  | .refreshDue port rank chan bank _ => port < 4 && rank < 2 && chan < 4 && bank < 16
  | .mr4Poll port rank chan code _ => port < 4 && rank < 2 && chan < 4 && code < 8
  | .powerDownEntry port rank => port < 4 && rank < 2
  | .dqsTrack port chan _ => port < 4 && chan < 4
  | .dramRetrainCmd _ port => port < 4
  | .dramRetrainSlice port _ => port < 4
  | .eccRateWindow port => port < 4
  | .dramRateStep port => port < 4
  | .rateStepDone port _ => port < 4
  | .rateRestore _ port => port < 4
  | .dramPortFail port => port < 4
  | .dramInitTrain port ranks _ _ _ => port < 4 && ranks ≤ 2
  | .dramRefClr _ port => port < 4
  | .lockstep => true
  | .belfryBusErr => true
  | .kick _ _ _ => true
  | .watchdogTimeout => true
  | .belfryCmdRestart _ => true
  | .belfryRestart => true
  | .sensorSample raws => raws.length = 12 || raws.length = 20
  | .thermalMaskWrite _ _ => true
  | .throttleEvaluate => true
  | .knellShutdown => true
  | .knellFlashEnd outcome => outcome < 4
  | .knellPrior => true
  | .voltageSample mvs => mvs.length = 16
  | .debugUnlockWrite _ _ => true
  | .logFlush => true
  | .logRead _ _ => true
  | .logReadDone => true
  | .journalWrite area index _ _ => (area = 1 || area = 3 || area = 4) && index < 4
  | .bootImageSelect => true
  | .updateOpen _ => true
  | .eraseDone _ => true
  | .blockData _ _ => true
  | .updateWrite _ => true
  | .blockProgrammed _ => true
  | .bulkSend _ => true
  | .bulkCellSend => true
  | .updateVerify _ => true
  | .verifyDone _ => true
  | .updateAbort _ => true
  | .activate _ => true
  | .confirm _ => true
  | .confirmTimeout => true
  | .settingsSave _ => true
  | .listData _ _ => true
  | .settingsApply _ w h image => image.length = 0 || image.length = 4 * w * h
  | .powerOnReset => true
  | .powerGoodTrue => true
  | .deviceReset cause rail => (cause = 1 || cause = 2) && rail < 16
  | .strapSample pos slot boot => pos < 8 && slot < 2 && boot < 4
  | .resetCmdDevice _ => true
  | .pcieFunctionReset => true
  | .jtagReset => true
  | .bringupStepEnd step _ mask => 1 ≤ step && step ≤ 12 && mask < 16
  | .xtalPllRetry _ => true
  | .pwm8Clear => true
  | .debuggerHalt => true
  | .debuggerResume => true
  | .jtagDebugReset => true
  | .jtagExtest _ _ _ => true

/-- A well-formed command. -/
abbrev Instr.WellFormed (i : Instr) : Prop := i.wf = true

end Sys2Proof
end

