-- ==== Sys2Proof/Certificates/Slice0/Obligations.lean ====
section
/-! DEFINITION. The statements about the block, by chapter of the specification. -/

open Sys2Proof Sys2Proof.Machine

/-! ### The whole block -/

/-- A step takes the command at the front of the queue and runs it on the block with the rest of the queue. -/
def Obligations.StepRunsTheFrontCommand : Prop :=
  ∀ (i : Instr) (rest : List Instr) (s : State), step { s with pending := i :: rest } = exec i { s with pending := rest }

/-- Every command of the table answers a next state, and none touches the queue; with no command waiting the block runs on. -/
def Obligations.EveryCommandAnswers : Prop :=
  (∀ (i : Instr) (s : State), ∃ t, exec i s = .next t ∧ t.pending = s.pending) ∧
  (∀ s : State, s.pending = [] → ∃ t, step s = .next t ∧ t.pending = [])

/-- Reset leaves every page disabled with no commit waiting, the counts at 0, TIME_INC at 4.0 ns, no event pending, the memories in canonical form,
and an empty queue. That the part is an S build is the model's choice (assumption log 1). -/
def Obligations.ResetState : Prop :=
  State.reset.pending = [] ∧ Runs State.reset ∧ Calm State.reset.chip ∧ State.reset.chip.memOk = true ∧
  State.reset.chip.build = .S ∧
  (∀ pg, pg < 1024 → State.reset.chip.en pg = false ∧ State.reset.chip.get (F.COMMIT.pg pg) = 0) ∧
  (∀ e ∈ E.all, State.reset.chip.pend e = false ∧ State.reset.chip.evEn e = false) ∧
  State.reset.chip.barCount = 0 ∧ State.reset.chip.time64 = 0 ∧ State.reset.chip.get F.TIME_INC_INC = 0x40000000 ∧
  State.reset.chip.launchQ = [] ∧ State.reset.chip.get F.SRP_PORT_UDP = 47110 ∧ State.reset.chip.get F.RELAY_TIMEOUT_US = 50

/-- While the knell is latched nothing acts but the power going and coming back: whatever is commanded, resets and JTAG among it, and for however
many steps, every step answers and the block stays as it is until a POWER_ON_RESET, which clears the latch (R362); only the supplies that a
DEVICE_RESET takes, and what the outputs without them do, are noted (R409). Shown to complete: powerOnReset. -/
def Obligations.LatchedKnellIgnoresEverything : Prop :=
  (∀ (n : Nat) (s : State), s.chip.aon.latched = true → (∀ i ∈ s.pending, i ≠ .powerOnReset) →
    ∃ t, Host.Core.run Sys2Proof.core n s = .next t ∧
      { t.chip with out := s.chip.out, rst := { t.chip.rst with lost := s.chip.rst.lost } } = s.chip ∧ t.pending = s.pending.drop n) ∧
  (∀ (s : State) (i : Instr), s.chip.aon.latched = true → i ≠ .powerOnReset → i ≠ .powerGoodTrue → (∀ cause rail, i ≠ .deviceReset cause rail) →
    exec i s = .next s) ∧
  (∀ s : State, Completes .powerOnReset s (fun t => t.aon.latched = false ∧ t.aon.knell = none))

/-! ### Register pages (spec/02_register_pages.md) -/

/-- A write of 1, 2 or 4 bytes in the register pages that finds no register, or is narrow or misaligned, has no effect but REG_ACCESS and, if it is
the first since BAD_ADDR was cleared, its record there. Shown to complete: registerWrite. -/
def Obligations.IgnoredWriteIsReported : Prop :=
  ∀ (s : State) (w : BusWrite) (r : Nat), Runs s → s.chip.pathsOpen = true → w.addr < 0x400000 → (w.size = 1 ∨ w.size = 2 ∨ w.size = 4) →
    (regAt s.chip.build (w.addr / 4 * 4) = .none r ∨
      (r = 3 ∧ (∀ n, regAt s.chip.build (w.addr / 4 * 4) ≠ .none n) ∧ (w.size < 4 ∨ w.addr % w.size ≠ 0))) →
    Completes (.registerWrite w []) s (fun t => Quiet s.chip t ∧ t.pend E.REG_ACCESS = true ∧
      (s.chip.on F.DEVICE_BAD_ADDR_VALID = false →
        t.get F.DEVICE_BAD_ADDR_VALID = 1 ∧ t.get F.DEVICE_BAD_ADDR_ORIGIN = w.origin.code ∧ t.get F.DEVICE_BAD_ADDR_REASON = r ∧
          t.get F.DEVICE_BAD_ADDR_ADDR = w.addr) ∧
      (s.chip.on F.DEVICE_BAD_ADDR_VALID = true → t.rd F.DEVICE_BAD_ADDR_VALID.addr = s.chip.rd F.DEVICE_BAD_ADDR_VALID.addr))

/-- A write of SCRATCH is there at once and touches nothing else; an aligned 64-bit access below the SRAM window is the two 32-bit accesses in
ascending order; and of two writes in one cycle the path of the fixed order decides, not the order of arrival. Shown to complete: registerWrite. -/
def Obligations.WritesTakeEffectInOrder : Prop :=
  (∀ (s : State) (o : Origin) (w : Word), Runs s → Calm s.chip →
    Completes (.registerWrite { origin := o, addr := F.DEVICE_SCRATCH_VALUE.addr, size := 4, data := w.setWidth 64 } []) s (fun t =>
      t.rd F.DEVICE_SCRATCH_VALUE.addr = w ∧ OnlyRegs [F.DEVICE_SCRATCH_VALUE.addr] s.chip t)) ∧
  (∀ (s : State) (o : Origin) (a : Nat) (d : BitVec 64), a % 8 = 0 → a < 0x800000 →
    exec (.registerWrite { origin := o, addr := a, size := 8, data := d } []) s =
      exec (.registerWrite { origin := o, addr := a, size := 4, data := (d.truncate 32).setWidth 64 }
        [{ origin := o, addr := a + 4, size := 4, data := ((d >>> 32).truncate 32).setWidth 64 }]) s) ∧
  (∀ (s : State) (v w : BusWrite), Origin.rank v.origin ≠ Origin.rank w.origin →
    exec (.registerWrite v [w]) s = exec (.registerWrite w [v]) s) ∧
  (∀ (s : State) (v w : Word) (o p : Origin), Runs s → Calm s.chip → Origin.rank o < Origin.rank p →
    Completes (.registerWrite { origin := p, addr := F.DEVICE_SCRATCH_VALUE.addr, size := 4, data := w.setWidth 64 }
      [{ origin := o, addr := F.DEVICE_SCRATCH_VALUE.addr, size := 4, data := v.setWidth 64 }]) s (fun t => t.rd F.DEVICE_SCRATCH_VALUE.addr = w))

/-- A write of a shadowed register of any page changes its shadow alone: what is in use stays, and the write is recorded with its origin; only
RESET.SERVICE has an effect of its own at the write (R397). Shown to complete: registerWrite. -/
def Obligations.ShadowWriteWaitsForACommit : Prop :=
  ∀ (s : State) (o : Origin) (a : Nat) (w : Word) (d : RegDef), Runs s → Calm s.chip → 0x40 ≤ a % 4096 → a % 4 = 0 →
    regAt s.chip.build a = .reg d → d.shadowed = true → unstored a = false → s.chip.changeQ.length < 64 →
    Completes (.registerWrite { origin := o, addr := a, size := 4, data := w.setWidth 64 } []) s (fun t =>
      t.inUse = s.chip.inUse ∧
      t.changeQ = s.chip.changeQ ++ [{ time := s.chip.time64, bar := s.chip.barCount, addr := a, value := w.toNat, origin := o.code }] ∧
      if a = F.RESET_SERVICE_PWM8.addr then t.get F.RESET_SERVICE_PWM8 = bitsOf w F.RESET_SERVICE_PWM8.hi F.RESET_SERVICE_PWM8.lo
      else t.rd a = d.store (s.chip.rd a) w ∧ ∀ b, b ≠ a → t.rd b = s.chip.rd b)

/-- A commit of a page waits for the page's reference while that runs, and is taken at once while it does not; at an apply point every page of that
reference with a commit takes all of its shadows together and COMMIT returns to 0, and no page without a commit changes what is in use. Shown to
complete: commit, applyPoint. -/
def Obligations.CommitAndApplyPoint : Prop :=
  (∀ (s : State) (o : Origin) (pg : Nat), Runs s → Calm s.chip → s.chip.hasPage pg = true → ctrlAbsent pg = false →
    (s.chip.on (F.SRST.pg pg) = false ∨ srstInert pg = true) →
    Completes (.commit o pg) s (fun t =>
      if s.chip.refRuns (pageRef s.chip.build pg) then t.get (F.COMMIT.pg pg) = 1 ∧ t.inUse = s.chip.inUse
      else t.get (F.COMMIT.pg pg) = 0 ∧
        ∀ off d, off < 4096 → regAt s.chip.build (4096 * pg + off) = .reg d → d.shadowed = true →
          t.rdUse (4096 * pg + off) = s.chip.rd (4096 * pg + off))) ∧
  (∀ (s : State) (r : ApplyRef), Runs s →
    Completes (.applyPoint r) s (fun t =>
      (∀ pg, s.chip.hasPage pg = true → s.chip.commitReady pg = true →
        ((r = .scanLine (s.chip.applyLine pg) ∧ pageRef s.chip.build pg = .scan) ∨ (r = .canvasRelease ∧ pageRef s.chip.build pg = .release) ∨
          (r = .canvasBegin ∧ pageRef s.chip.build pg = .begin) ∨ (r = .previewFrame ∧ pageRef s.chip.build pg = .preview) ∨
          (r = .tileBeat ∧ pageRef s.chip.build pg = .tile) ∨ (r = .bar ∧ pageRef s.chip.build pg = .bar)) →
        t.get (F.COMMIT.pg pg) = 0 ∧
        ∀ off d, off < 4096 → regAt s.chip.build (4096 * pg + off) = .reg d → d.shadowed = true →
          t.rdUse (4096 * pg + off) = s.chip.rd (4096 * pg + off)) ∧
      (∀ pg, pg ∉ s.chip.commitPages → ∀ off, off < 4096 → t.rdUse (4096 * pg + off) = s.chip.rdUse (4096 * pg + off))))

/-- EN is set and cleared by its commands, APPLY_MODE kept, on every page whose control is not absent; SRST discards a commit and reads 1 until its
completion, at which a commit written with it is taken where its reference does not run; where SRST acts on the LAUNCH page it empties the queue
and clears EVT_RAW. On a page whose control is absent the three commands do nothing. Shown to complete: pageEnable, pageDisable, srst,
srstComplete. -/
def Obligations.PageControl : Prop :=
  (∀ (s : State) (o : Origin) (pg : Nat), Runs s → Calm s.chip → s.chip.hasPage pg = true →
    (ctrlAbsent pg = true →
      Completes (.pageEnable o pg) s (fun t => t = s.chip) ∧ Completes (.pageDisable o pg) s (fun t => t = s.chip) ∧
        Completes (.srst o pg) s (fun t => t = s.chip)) ∧
    (ctrlAbsent pg = false →
      Completes (.pageEnable o pg) s (fun t => t.get (F.EN.pg pg) = 1 ∧ t.get (F.APPLY_MODE.pg pg) = s.chip.get (F.APPLY_MODE.pg pg)) ∧
      Completes (.pageDisable o pg) s (fun t => t.get (F.EN.pg pg) = 0 ∧ t.get (F.APPLY_MODE.pg pg) = s.chip.get (F.APPLY_MODE.pg pg)) ∧
      Completes (.srst o pg) s (fun t => t.get (F.SRST.pg pg) = 1 ∧ t.get (F.EN.pg pg) = s.chip.get (F.EN.pg pg) ∧
        (srstInert pg = false → t.get (F.COMMIT.pg pg) = 0)))) ∧
  (∀ (s : State) (o : Origin), Runs s → Calm s.chip →
    Completes (.srst o 0x021) s (fun t => t.launchQ = [] ∧ t.rd (0x021 * 4096 + 0x10) = 0 ∧
      t.rd (0x021 * 4096 + 0x18) = s.chip.rd (0x021 * 4096 + 0x18) ∧ t.rd F.LAUNCH_TIME_TIME.addr = s.chip.rd F.LAUNCH_TIME_TIME.addr)) ∧
  (∀ (s : State) (pg : Nat), Runs s → Calm s.chip → pg < 1024 → s.chip.on (F.SRST.pg pg) = true → s.chip.host.srpJob = none → s.chip.host.srpQ = [] →
    Completes (.srstComplete pg) s (fun t => t.get (F.SRST.pg pg) = 0 ∧
      (s.chip.on (F.COMMIT.pg pg) = false → OnlyRegs [F.SRST.addr + 4096 * pg] s.chip t) ∧
      (s.chip.on (F.COMMIT.pg pg) = true → srstInert pg = false → s.chip.refRuns (pageRef s.chip.build pg) = false → t.get (F.COMMIT.pg pg) = 0)))

/-- EVT_FORCE sets every pending bit it names; VEC_EOI and the unmasking of a vector send its message while its summary is 1 and not otherwise;
ALERT_N is released once no selected vector has its summary at 1. Shown to complete: evtForce, vecEoi, msixUnmask, alertNRelease. -/
def Obligations.EventsAndMessages : Prop :=
  (∀ (s : State) (o : Origin) (e : Ev) (bits : Word), Runs s → Calm s.chip → e ∈ E.all → s.chip.hasPage e.page = true → evtAbsent e.page = false →
    bits.getLsbD e.bit = true →
    Completes (.evtForce o e.page bits) s (fun t => t.pend e = true ∧ QuietBut [] s.chip t)) ∧
  (∀ (s : State) (o : Origin) (v : Nat), Runs s → Calm s.chip → v < 32 → s.chip.get (F.USB4_MSIX_MASK.plus (16 * v)) = 0 →
    Completes (.vecEoi o v) s (fun t =>
      t.out = (if s.chip.summary v then s.chip.out ++ [.msix v] else s.chip.out) ∧ QuietBut [] s.chip t)) ∧
  (∀ (s : State) (o : Origin) (v : Nat), Runs s → Calm s.chip → v < 32 → s.chip.on (F.USB4_MSIX_MASK.plus (16 * v)) = true →
    Completes (.msixUnmask o v) s (fun t => t.get (F.USB4_MSIX_MASK.plus (16 * v)) = 0 ∧
      t.out = (if s.chip.summary v then s.chip.out ++ [.msix v] else s.chip.out))) ∧
  (∀ s : State, Runs s → s.chip.aon.knell = none → s.chip.rst.extest = false →
    Completes .alertNRelease s (fun t =>
      if s.chip.alertWanted then t = s.chip
      else t.host.alertLow = false ∧ t.out = (if s.chip.host.alertLow then s.chip.out ++ [.alertN false] else s.chip.out)))

/-- The clears of ERR_CTRL empty the record or counter they name and keep the others; FLIP_ARM is held where the page has a flip mask. Shown to
complete: clrFirst, clrWorst, clrCount, flipArm. -/
def Obligations.ErrorRecordsClear : Prop :=
  ∀ (s : State) (o : Origin) (pg : Nat), Runs s → s.chip.pathsOpen = true → s.chip.hasPage pg = true →
    Completes (.clrFirst o pg) s (fun t => t.rd (pg * 4096 + 0x20) = 0 ∧ t.rd (pg * 4096 + 0x24) = 0 ∧
      (∀ k ∈ [0x28, 0x2C, 0x30], t.rd (pg * 4096 + k) = s.chip.rd (pg * 4096 + k)) ∧ Quiet s.chip t) ∧
    Completes (.clrWorst o pg) s (fun t => t.rd (pg * 4096 + 0x28) = 0 ∧ t.rd (pg * 4096 + 0x2C) = 0 ∧
      (∀ k ∈ [0x20, 0x24, 0x30], t.rd (pg * 4096 + k) = s.chip.rd (pg * 4096 + k)) ∧ Quiet s.chip t) ∧
    Completes (.clrCount o pg) s (fun t => t.rd (pg * 4096 + 0x30) = 0 ∧
      (∀ k ∈ [0x20, 0x24, 0x28, 0x2C], t.rd (pg * 4096 + k) = s.chip.rd (pg * 4096 + k)) ∧ Quiet s.chip t) ∧
    Completes (.flipArm o pg) s (fun t => (flipPage pg = true → t.get (F.FLIP_ARM.pg pg) = 1) ∧ Quiet s.chip t)

/-! ### Host attachment and access paths (spec/03_host_access.md) -/

/-- A link change shows in LINK and in the two link events: generation 1 is not used, a link that is down has no lanes and no tunnel, a T build
takes no DP, and the USB 2.0 interface enumerates only in recovery (R56, R58, R67); the fall of the PCIe tunnel ends both DMA channels; a bad TLP
raises PCIE_ERR. Shown to complete: usb4LinkChange, pcieErr, pcieFunctionReset. -/
def Obligations.Usb4LinkAndErrors : Prop :=
  ∀ (s : State), Runs s →
    (∀ (gen lanes : Nat) (pcie dp usb2 : Bool), gen < 4 → lanes < 4 →
      Completes (.usb4LinkChange gen lanes pcie dp usb2) s (fun t =>
        let up := decide (2 ≤ gen)
        t.get F.USB4_LINK_GEN = (if up then gen else 0) ∧ t.get F.USB4_LINK_LANES = (if up then lanes else 0) ∧
        t.on F.USB4_LINK_PCIE_UP = (pcie && up) ∧ t.on F.USB4_LINK_DP_UP = (dp && up && decide (s.chip.build = .S)) ∧
        t.on F.USB4_LINK_USB2_UP = (usb2 && s.chip.host.recovery) ∧
        t.raw E.USB4_LINK = up ∧ t.raw E.USB4_GEN2 = decide (gen = 2) ∧
        (s.chip.on F.USB4_LINK_PCIE_UP = true → (pcie && up) = false → (t.dma 0).busy = false ∧ (t.dma 1).busy = false))) ∧
    Completes .pcieErr s (fun t => t.pend E.PCIE_ERR = true ∧ Quiet s.chip t) ∧
    Completes .pcieFunctionReset s (fun t => (t.dma 0).busy = false ∧ (t.dma 1).busy = false ∧
      (∀ n < 2, (s.chip.dma n).busy = true → t.get (dmaF F.USB4_DMA_CTRL_ERR n) = 1 ∧ t.get (dmaF F.USB4_DMA_CTRL_ERR_CODE n) = 3))

/-- START on a busy channel, past the device range, with length 0, and otherwise; the end of a transfer, which one of the SRAM does not reach while
the fill or the handover of a bank is awaited (R305, R316); and its abort by the host. Shown to complete: dmaStart, dmaDone, dmaHostError. -/
def Obligations.DmaTransfers : Prop :=
  ∀ (s : State) (n : Nat), Runs s → n < 2 →
    (∀ o : Origin, Calm s.chip →
      let c := s.chip
      let sram := c.on (dmaF F.USB4_DMA_CTRL_SPACE n)
      let dev := c.get (dmaF F.USB4_DMA_DEV n) * 16
      let len := c.get (dmaF F.USB4_DMA_LEN n) * 16
      let top := if sram then 2 ^ 23 else c.capacity
      Completes (.dmaStart o n) s (fun t =>
        if (c.dma n).busy then
          t.dma n = c.dma n ∧ t.get (dmaF F.USB4_DMA_CTRL_ERR n) = 1 ∧ t.get (dmaF F.USB4_DMA_CTRL_ERR_CODE n) = 1 ∧ t.pend E.DMA_ERR = true
        else if top < dev + len then
          t.dma n = c.dma n ∧ t.get (dmaF F.USB4_DMA_CTRL_ERR n) = 1 ∧ t.get (dmaF F.USB4_DMA_CTRL_ERR_CODE n) = 2 ∧ t.pend E.DMA_ERR = true
        else if len = 0 then t.dma n = c.dma n ∧ t.get (dmaF F.USB4_DMA_CTRL_DONE n) = 1 ∧ t.pend E.DMA_DONE = true
        else
          t.get (dmaF F.USB4_DMA_CTRL_BUSY n) = 1 ∧ (t.dma n).busy = true ∧ (t.dma n).dev = dev ∧ (t.dma n).len = len ∧ (t.dma n).sram = sram ∧
            (t.dma n).toHost = c.on (dmaF F.USB4_DMA_CTRL_DIR n) ∧
            (t.dma n).host = c.get (dmaF F.USB4_DMA_HOST_LO n) / 16 * 16 + c.get (dmaF F.USB4_DMA_HOST_HI n) * 2 ^ 32)) ∧
    (∀ l : List Byte, (s.chip.dma n).busy = true →
      Completes (.dmaDone n l) s (fun t =>
        if s.chip.dmaWaits (s.chip.dma n) then t = s.chip
        else t.dma n = DmaSt.init ∧ t.get (dmaF F.USB4_DMA_CTRL_BUSY n) = 0 ∧ t.get (dmaF F.USB4_DMA_CTRL_DONE n) = 1 ∧ t.pend E.DMA_DONE = true)) ∧
    (∀ (k : Nat) (l : List Byte), (s.chip.dma n).busy = true →
      Completes (.dmaHostError n k l) s (fun t => t.dma n = DmaSt.init ∧ t.get (dmaF F.USB4_DMA_CTRL_BUSY n) = 0 ∧
        t.get (dmaF F.USB4_DMA_CTRL_ERR n) = 1 ∧ t.get (dmaF F.USB4_DMA_CTRL_ERR_CODE n) = 3 ∧ t.pend E.DMA_ERR = true))

/-- A DP stream within the limits locks; one outside them, or lost, unlocks the store, and every layer that sources it shows transparent; the line
watermark follows the lines written, and a complete frame is named by LAST_FRAME, the next of the three (the model's choice, assumption log 114).
Shown to complete: dpLock, dpFormat, dpLost, dpStreamFrame. -/
def Obligations.DpStream : Prop :=
  ∀ (s : State), Runs s → s.chip.build = .S →
    (∀ f : DpFormat, s.chip.runs 0x049 = true → s.chip.dpWithin f = true → f.width < 65536 → f.height < 65536 →
      Completes (.dpLock f) s (fun t => t.on F.DPIN_STATUS_LOCK = true ∧ t.get F.DPIN_SIZE_WIDTH = f.width ∧ t.get F.DPIN_SIZE_HEIGHT = f.height ∧
        t.on F.DPIN_STATUS_BPC10 = decide (f.bpc = 10) ∧ t.raw E.DP_LOCK = true ∧ t.dp = { usable := false, line := 0 })) ∧
    (∀ f : DpFormat, s.chip.runs 0x049 = true → s.chip.dpWithin f = false →
      Completes (.dpFormat f) s (fun t => t.on F.DPIN_STATUS_LOCK = false ∧ t.pend E.DP_FORMAT = true ∧ t.mem = s.chip.mem ∧ t.dp.usable = false)) ∧
    (s.chip.on F.DPIN_STATUS_LOCK = true →
      Completes .dpLost s (fun t => t.on F.DPIN_STATUS_LOCK = false ∧ t.pend E.DP_LOST = true ∧ t.raw E.DP_LOCK = false ∧
        ∀ l < 8, s.chip.layerSrc l = 16 → t.get (F.LAYER_STATUS_STATE.pg l) = lyTransparent)) ∧
    (∀ f : DpFrame, s.chip.runs 0x049 = true → s.chip.on F.DPIN_STATUS_LOCK = true → f.width = s.chip.get F.DPIN_SIZE_WIDTH →
      f.height = s.chip.get F.DPIN_SIZE_HEIGHT → f.bpc10 = s.chip.on F.DPIN_STATUS_BPC10 → s.chip.dp.line + f.lines.length ≤ f.height →
      (∀ l ∈ f.lines, l.length = f.width) →
      Completes (.dpStreamFrame f) s (fun t =>
        if s.chip.dp.line + f.lines.length < f.height then
          t.dp = { s.chip.dp with line := s.chip.dp.line + f.lines.length } ∧ t.get F.DPIN_STATUS_LAST_FRAME = s.chip.get F.DPIN_STATUS_LAST_FRAME
        else t.get F.DPIN_STATUS_LAST_FRAME = (s.chip.get F.DPIN_STATUS_LAST_FRAME + 1) % 3 ∧ t.dp = { usable := true, line := 0 }))

/-- In recovery a block of up to 4 KiB joins the image and a failed check stalls the final request and keeps the device in recovery; a good image
is programmed into slot A as CONFIRMED and the ROM starts again, with that image where it is the one to choose (R67, R375, R389). Outside recovery
neither does anything. Shown to complete: recoveryBlock, recoveryFinal. -/
def Obligations.UsbRecovery : Prop :=
  ∀ (s : State), Runs s →
    (s.chip.host.recovery = true →
      let rd : ImageRd := fun o n => memRead 0xFF s.chip.host.recoveryImage o n
      (∀ (ofs : Nat) (l : List Byte),
        Completes (.recoveryBlock ofs l) s (fun t =>
          t.host.recoveryImage = memWrite 0xFF s.chip.host.recoveryImage ofs (l.take 4096) ∧
            t.host.recoveryLen = max s.chip.host.recoveryLen (ofs + min l.length 4096))) ∧
      Completes .recoveryFinal s (fun t =>
        if imgCheck s.chip.build rd = 0 ∧ imgLength rd ≤ s.chip.host.recoveryLen then
          .recovery false 0 ∈ t.out ∧ t.host.recoveryImage = [] ∧
          (s.chip.host.held = [] → s.chip.host.srpJob = none → s.chip.host.srpQ = [] →
            t.slotRd 0 0 (imgLength rd) = rd 0 (imgLength rd) ∧ (t.slotState 0).map (·.1) = some slConfirmed) ∧
          (s.chip.belfry.running = false → s.chip.host.held = [] → s.chip.host.srpJob = none → s.chip.host.srpQ = [] →
            s.chip.get F.DEVICE_STRAPS_BOOT_SEL = 1 ∨ (s.chip.get F.DEVICE_STRAPS_BOOT_SEL = 0 ∧ s.chip.slotRecords 1 = []) →
            t.belfry.running = true ∧ t.get F.UPDATE_STATUS_RUN_SLOT = 0 ∧ t.host.recovery = false)
        else t.host = s.chip.host ∧ t.mem = s.chip.mem ∧ t.belfry = s.chip.belfry ∧ t.out = s.chip.out ++ [.recovery true 0])) ∧
    (s.chip.host.recovery = false →
      (∀ (ofs : Nat) (l : List Byte), Completes (.recoveryBlock ofs l) s (fun t => t = s.chip)) ∧
      Completes .recoveryFinal s (fun t => t = s.chip))

/-- A malformed SRP request is counted and raises SRP_MALFORMED, and nothing is sent for it; a repeat of the last SEQ of its session is answered
with the stored response and STATUS 1 and not executed; a write or a read of one word is executed, counted, answered and kept for its session. An
ARP request for SRP.IPV4 is answered with the path's own MAC address, no other is. On a path without SRP, or with another VLAN tag, nothing
happens. Shown to complete: srpRequest, arpRequest. -/
def Obligations.EthernetRegisterProtocol : Prop :=
  ∀ (s : State) (path : Nat) (peer : NetPeer) (l : List Byte), Runs s → s.chip.build = .S → path < 2 →
    (s.chip.srpOn path = false ∨ (s.chip.on F.SRP_PORT_VLAN_EN = true ∧ peer.vlan ≠ some (s.chip.get F.SRP_PORT_VLAN_ID)) →
      Completes (.srpRequest path peer l) s (fun t => t = s.chip)) ∧
    (s.chip.srpOn path = true → (s.chip.on F.SRP_PORT_VLAN_EN = true → peer.vlan = some (s.chip.get F.SRP_PORT_VLAN_ID)) →
      (srpParse path peer l = none →
        Completes (.srpRequest path peer l) s (fun t => t.pend E.SRP_MALFORMED = true ∧
          t.get F.SRP_COUNT_MALFORMED = min 65535 (s.chip.get F.SRP_COUNT_MALFORMED + 1) ∧ t.frames = s.chip.frames ∧
          QuietBut [F.SRP_COUNT_EXECUTED.addr] s.chip t)) ∧
      (∀ r : SrpReq, srpParse path peer l = some r → s.chip.host.srpJob = none → s.chip.host.srpQ = [] →
        let asked := fun (y : SrpSession) => y.ip = peer.ip && y.port = peer.port && decide (y.seq = r.seq)
        (∀ x : SrpSession, s.chip.host.sessions.find? asked = some x →
          Completes (.srpRequest path peer l) s (fun t =>
            t = { s.chip with host := { s.chip.host with sessions := srpKeep s.chip.host.sessions x } }.udpOut path peer
              (x.response.take 14 ++ beBytes 2 1 ++ x.response.drop 16))) ∧
        (s.chip.host.sessions.find? asked = none → Calm s.chip → r.count = 1 → r.addr = F.DEVICE_SCRATCH_VALUE.addr →
          (∀ w : Nat, r.write = true → r.words = [w] →
            Completes (.srpRequest path peer l) s (fun t => t.rd F.DEVICE_SCRATCH_VALUE.addr = BitVec.ofNat 32 w ∧
              t.out = (s.chip.udpOut path peer (srpResponse r 0 [])).out ∧
              t.get F.SRP_COUNT_EXECUTED = (s.chip.get F.SRP_COUNT_EXECUTED + 1) % 65536 ∧
              t.host = { s.chip.host with
                sessions := srpKeep s.chip.host.sessions { ip := peer.ip, port := peer.port, seq := r.seq, response := srpResponse r 0 [] } } ∧
              OnlyRegs [F.DEVICE_SCRATCH_VALUE.addr, F.SRP_COUNT_EXECUTED.addr] { s.chip with out := t.out, host := t.host, free := t.free } t)) ∧
          (r.write = false → s.chip.host.latches = [] → 0x000 ∉ s.chip.unpredictable →
            let answer := srpResponse r 0 [(s.chip.rd F.DEVICE_SCRATCH_VALUE.addr).toNat]
            Completes (.srpRequest path peer l) s (fun t => t.out = (s.chip.udpOut path peer answer).out ∧
              t.get F.SRP_COUNT_EXECUTED = (s.chip.get F.SRP_COUNT_EXECUTED + 1) % 65536 ∧
              t.host = { s.chip.host with
                sessions := srpKeep s.chip.host.sessions { ip := peer.ip, port := peer.port, seq := r.seq, response := answer } } ∧
              OnlyRegs [F.SRP_COUNT_EXECUTED.addr] { s.chip with out := t.out, host := t.host, free := t.free } t))))) ∧
    (∀ target : Nat,
      Completes (.arpRequest path peer target) s (fun t =>
        t = if s.chip.srpOn path = true ∧ target = s.chip.get F.SRP_IPV4_ADDR then
          s.chip.ethOut path peer 0x0806 (beBytes 2 1 ++ beBytes 2 0x0800 ++ beBytes 1 6 ++ beBytes 1 4 ++ beBytes 2 2 ++
            beBytes 6 (s.chip.pathMac path) ++ beBytes 4 target ++ beBytes 6 peer.mac ++ beBytes 4 peer.ip)
        else s.chip))

/-- Relay accesses: an unreachable or broadcast read is answered with all ones at once and an unreachable write is dropped, each with its result
and RELAY_ERROR; a reachable access is sent with the TARGET of this moment, or waits while another is out; a broadcast write completes as it is
sent; its response, or its timeout, ends an access, and while the Belfry does not serve the access that waits longest times out. Shown to complete:
relayRead, relayWrite, relayTimeout, relayResponse. -/
def Obligations.RelayWindow : Prop :=
  ∀ (s : State), Runs s → s.chip.build = .S → s.chip.pathsOpen = true →
    (∀ (o : Origin) (a size : Nat), a < 0x400000 → size = 1 ∨ size = 2 ∨ size = 4 → a % size = 0 →
      let id := s.chip.get F.RELAY_TARGET_TILE_ID
      let r : RelayReq := { target := id, addr := a / 4 * 4, data := 0, write := false, lane := a % 4, size := size, origin := o, tag := 0, srp := false }
      Completes (.relayRead o { addr := a, size := size }) s (fun t =>
        if id = 0x1FFF ∨ s.chip.unreachable id = true then
          .readData o (0x400000 + a) (2 ^ (8 * size) - 1) ∈ t.out ∧ t.pend E.RELAY_ERROR = true ∧ t.host.relayQ = s.chip.host.relayQ ∧
            t.get F.RELAY_STATUS_LAST_RESULT = (if id = 0x1FFF then 3 else 2)
        else
          (s.chip.host.relayOut = none → s.chip.host.relayQ = [] → s.chip.belfryUp = true →
            t.host.relayOut = some { r with tag := s.chip.host.relayTag } ∧ t.host.relayQ = []) ∧
          (s.chip.host.relayOut.isSome = true ∨ s.chip.belfryUp = false → t = { s.chip with host := { s.chip.host with relayQ := s.chip.host.relayQ ++ [r] } }))) ∧
    (∀ (o : Origin) (a : Nat) (w : Word), a < 0x400000 → a % 4 = 0 →
      let id := s.chip.get F.RELAY_TARGET_TILE_ID
      let r : RelayReq := { target := id, addr := a, data := w.toNat, write := true, lane := 0, size := 4, origin := o, tag := 0, srp := false }
      Completes (.relayWrite o a w) s (fun t =>
        if id ≠ 0x1FFF ∧ s.chip.unreachable id = true then
          t.pend E.RELAY_ERROR = true ∧ t.host.relayQ = s.chip.host.relayQ ∧ t.get F.RELAY_STATUS_LAST_RESULT = 2
        else
          (s.chip.host.relayOut = none → s.chip.host.relayQ = [] → s.chip.belfryUp = true →
            t.host.relayQ = [] ∧ (if id = 0x1FFF then t.host.relayOut = none ∧ t.get F.RELAY_STATUS_LAST_RESULT = 0
              else t.host.relayOut = some { r with tag := s.chip.host.relayTag })) ∧
          (s.chip.host.relayOut.isSome = true ∨ s.chip.belfryUp = false → t.host.relayQ = s.chip.host.relayQ ++ [r] ∧ t.host.relayOut = s.chip.host.relayOut))) ∧
    (∀ (r : RelayReq) (cell : Nat), s.chip.host.relayOut = some r → s.chip.host.relayQ = [] → r.srp = false → s.chip.host.srpJob = none →
      s.chip.host.srpQ = [] →
      Completes .relayTimeout s (fun t => t.host.relayOut = none ∧ t.get F.RELAY_STATUS_LAST_RESULT = 1 ∧ t.pend E.RELAY_TIMEOUT = true ∧
        t.get F.RELAY_FAIL_COUNT_COUNT = min 0xFFFFFFFF (s.chip.get F.RELAY_FAIL_COUNT_COUNT + 1) ∧
        (r.write = false → .readData r.origin (0x400000 + r.addr + r.lane) (subWord 0xFFFFFFFF r.lane r.size) ∈ t.out)) ∧
      (s.chip.belfryUp = true → cellCrcOk cell = true → cellType cell = ctMgmt → mgmtTag cell = r.tag → cellTile cell = r.target → mgmtOp cell = (if r.write then 3 else 2) →
        Completes (.relayResponse cell) s (fun t => t.host.relayOut = none ∧
          t.get F.RELAY_STATUS_LAST_RESULT = (if mgmtIgnored cell then 4 else 0) ∧
          (r.write = false → .readData r.origin (0x400000 + r.addr + r.lane) (subWord (mgmtData cell) r.lane r.size) ∈ t.out)))) ∧
    (∀ (r : RelayReq) (q : List RelayReq), s.chip.host.relayOut = none → s.chip.host.relayQ = r :: q → s.chip.belfryUp = false → r.srp = false →
      s.chip.host.srpJob = none → s.chip.host.srpQ = [] →
      Completes .relayTimeout s (fun t => t.host.relayOut = none ∧ t.host.relayQ = q ∧ t.get F.RELAY_STATUS_LAST_RESULT = 1 ∧
        t.pend E.RELAY_TIMEOUT = true))

/-- The console and JTAG reach the registers as paths of their own; the read of the lowest word of a wide value latches its upper words for the
path that reads. Shown to complete: consoleCommand, jtagRegisterAccess, wideValueLowRead. -/
def Obligations.OtherPaths : Prop :=
  (∀ (s : State) (a : Nat) (w : Word), s.chip.belfryUp = true →
    exec (.consoleCommand (.writeReg a w)) s = exec (.registerWrite { origin := .belfry, addr := a, size := 4, data := w.setWidth 64 } []) s) ∧
  (∀ (s : State) (a : Nat) (w : Word), Runs s →
    exec (.jtagRegisterAccess true a w) s = exec (.registerWrite { origin := .jtag, addr := a, size := 4, data := w.setWidth 64 } []) s) ∧
  (∀ (s : State) (w : Word), Runs s → s.chip.pathsOpen = true → s.chip.belfryUp = true → s.chip.host.latches = [] →
    Completes (.consoleCommand (.readReg F.DEVICE_ORIGIN_CODE.addr)) s (fun t => .readData .belfry F.DEVICE_ORIGIN_CODE.addr 4 ∈ t.out) ∧
    Completes (.jtagRegisterAccess false F.DEVICE_ORIGIN_CODE.addr w) s (fun t => .readData .jtag F.DEVICE_ORIGIN_CODE.addr 3 ∈ t.out)) ∧
  (∀ (s : State) (o : Origin), Runs s → s.chip.pathsOpen = true → 0x020 ∉ s.chip.unpredictable →
    smFind s.chip.host.latches (latchKey o F.TIME_NS_NS.addr) = none →
    Completes (.wideValueLowRead o { addr := F.TIME_NS_NS.addr, size := 4 }) s (fun t =>
      .readData o F.TIME_NS_NS.addr s.chip.timeNs ∈ t.out ∧
      smFind t.host.latches (latchKey o F.TIME_WRAPS_WRAPS.addr) = some s.chip.wraps ∧
      ∀ p : Origin, p ≠ o → ∀ a < 2 ^ 24, smFind t.host.latches (latchKey p a) = smFind s.chip.host.latches (latchKey p a)))

/-! ### Time, bars and frame lock (spec/04_bars_and_time.md) -/

/-- TIME_NS wraps into WRAPS; TIME_INC acts within ±1,000 ppm from the next tick on; TIME.ADJ steps the extended time and never bar time, and a
negative step raises TIME_STEP_BACK. Shown to complete: timeWrap, timeIncWrite, timeAdj. -/
def Obligations.TimeCounter : Prop :=
  ∀ (s : State), Runs s →
    Completes .timeWrap s (fun t => t.timeNs < 5 ∧ t.wraps = (s.chip.wraps + 1) % 2 ^ 32) ∧
    (∀ (o : Origin) (w : Word), Calm s.chip →
      Completes (.timeIncWrite o w) s (fun t => t.rd F.TIME_INC_INC.addr = w ∧
        t.time.ticks28 = s.chip.time.ticks28 + max 0x3FEF9DB2 (min 0x4010624E w.toNat) ∧ t.time.stepNs = s.chip.time.stepNs)) ∧
    (∀ (o : Origin) (w : Word), Calm s.chip →
      Completes (.timeAdj o w) s (fun t => t.time.ticks28 = s.chip.time.ticks28 + s.chip.inc28 ∧ t.time.stepNs = s.chip.time.stepNs + w.toInt ∧
        (w.toInt < 0 → t.pend E.TIME_STEP_BACK = true)))

/-- A PTP event message on an enabled path leaves its timestamp, in 1/256 ns, in the path's FIFO, or in a full one OVF and TS_OVERFLOW; any other
message leaves none; a read of word 0 gives and removes the oldest; FLUSH empties both. Shown to complete: ptpTimestampCapture, tsPop, tsFlush. -/
def Obligations.PtpTimestamps : Prop :=
  ∀ (s : State), Runs s → s.chip.build = .S →
    (∀ path dir typ seqId ticks frac : Nat, path < 2 →
      let enabled := s.chip.on (if path = 0 then F.TIME_TS_CTRL_EN_A else F.TIME_TS_CTRL_EN_B)
      Completes (.ptpTimestampCapture path dir typ seqId ticks frac) s (fun t =>
        t.time.ticks28 = s.chip.time.ticks28 + ticks * s.chip.inc28 ∧
        if enabled = false ∨ 3 < typ then t.tsFifo path = s.chip.tsFifo path
        else if (s.chip.tsFifo path).length < 16 then
          t.tsFifo path = s.chip.tsFifo path ++
            [{ ns := t.time256 frac / 256, frac := t.time256 frac % 256, dir := dir % 2, msgType := typ, seqId := seqId % 65536 }]
        else t.tsFifo path = s.chip.tsFifo path ∧ t.pend E.TS_OVERFLOW = true ∧
          t.get (if path = 0 then F.TIME_TS_LEVEL_OVF_A else F.TIME_TS_LEVEL_OVF_B) = 1)) ∧
    (∀ (o : Origin) (path : Nat) (x : TsEntry) (l : List TsEntry), path < 2 → s.chip.tsFifo path = x :: l → x.ns < 2 ^ 32 → 0x020 ∉ s.chip.unpredictable →
      s.chip.pathsOpen = true → smFind s.chip.host.latches (latchKey o (F.TIME_TS_A_NS.addr + 8 * path)) = none →
      Completes (.tsPop o path) s (fun t => t.tsFifo path = l ∧ t.tsFifo (1 - path) = s.chip.tsFifo (1 - path) ∧
        .readData o (F.TIME_TS_A_NS.addr + 8 * path) x.ns ∈ t.out)) ∧
    (∀ o : Origin, Calm s.chip → Completes (.tsFlush o) s (fun t => t.tsFifo 0 = [] ∧ t.tsFifo 1 = []))

/-- A bar start of a generator that no other unit's cells drive: COUNT advances, BEAT is 0, the bar starts at its exact instant; the start of a
later beat shows it and moves on by its length; a pending commit of MODE_SEL changes the mode in use to the mode selected and returns COMMIT to 0.
Shown to complete: barStart, beatStart, downbeatLaunch, modeChangeApply. -/
def Obligations.BarsAndBeats : Prop :=
  ∀ (s : State), Runs s → s.chip.build = .S →
    (Calm s.chip → s.chip.bar.running = true → s.chip.bar.waiting = false → s.chip.copyingNow = false →
      (s.chip.bar.nextBeat = 0 →
        Completes .barStart s (fun t => t.barCount = (s.chip.barCount + 1) % 2 ^ 32 ∧ t.get F.BAR_STATUS_BEAT = 0 ∧ t.bar.start12 = s.chip.bar.next12 ∧
          t.bar.dbDue = some 0)) ∧
      (s.chip.bar.nextBeat ≠ 0 → s.chip.bar.nextBeat < 4 →
        Completes .beatStart s (fun t => t.barCount = s.chip.barCount ∧ t.get F.BAR_STATUS_BEAT = s.chip.bar.nextBeat ∧
          t.bar.next12 = s.chip.bar.next12 + s.chip.bar.beatLens.getD s.chip.bar.nextBeat 0 ∧ t.bar.dbDue = some s.chip.bar.nextBeat)) ∧
      (s.chip.bar.dbDue = some (s.chip.get F.BAR_STATUS_BEAT) → s.chip.launchQ = [] →
        Completes .downbeatLaunch s (fun t => t.bar.dbDue = none ∧ t.launchQ = [] ∧
          (s.chip.get F.BAR_STATUS_BEAT = 0 → t.get F.BAR_LAST_START_TIME = s.chip.timeNs)))) ∧
    (s.chip.commitReady 0x022 = true → s.chip.get F.BAR_MODE_MODE_SEL < 24 → (s.chip.bar.copying = false ∨ s.chip.follower = false) →
      Completes .modeChangeApply s (fun t => t.mode = s.chip.get F.BAR_MODE_MODE_SEL ∧ t.get (F.COMMIT.pg 0x022) = 0))

/-- A REF_IN edge, as the sampler takes it, within ±1 % of its period is taken, one outside raises REF_IN_FAULT; three bars without one, or a
generator that still waits for its first, are a loss: LOCK clears, REF_IN_FAULT. Shown to complete: refInEdge, refInLoss. -/
def Obligations.ReferenceInput : Prop :=
  ∀ (s : State), Runs s → s.chip.build = .S → s.chip.bar.running = true → s.chip.refUsed = true →
    (∀ ns : Nat,
      let edge : Int := 12 * refSample ns + 12 * s.chip.time.stepNs + 12 * (signed 16 (s.chip.get F.BAR_REF_OFFSET_OFFSET))
      Completes (.refInEdge ns) s (fun t =>
        if s.chip.refEdgeValid edge then t.bar.refPrev12 = some edge ∧ t.bar.refMiss = 0 ∧ t.bar.refGood = s.chip.bar.refGood + 1 ∧
          (s.chip.bar.src = 2 → t.bar.lattice12 = edge ∧ t.bar.waiting = false)
        else t.pend E.REF_IN_FAULT = true ∧ t.bar.refGood = 0 ∧ t.bar.lattice12 = s.chip.bar.lattice12)) ∧
    (s.chip.bar.refLost = false → 4 ≤ s.chip.bar.refMiss ∨ s.chip.bar.waiting = true →
      Completes .refInLoss s (fun t => t.bar.refLost = true ∧ t.on F.BAR_STATUS_LOCK = false ∧ t.pend E.REF_IN_FAULT = true ∧ t.bar.refGood = 0 ∧
        t.bar.waiting = false))

/-- A push of a KIND the queue knows joins it while there are fewer than 64 entries; a reserved KIND or a full queue raises LAUNCH_FULL; KIND 0 is
ignored. CANCEL removes every entry, or those of one TAG. Shown to complete: launchPush, launchCancelAll, launchCancelTag. -/
def Obligations.LaunchQueue : Prop :=
  ∀ (s : State) (o : Origin), Runs s → Calm s.chip →
    (∀ w : Word, Completes (.launchPush o w) s (fun t =>
      if bitsOf w 3 0 = 0 then t.launchQ = s.chip.launchQ
      else if 5 ≤ bitsOf w 3 0 then t.launchQ = s.chip.launchQ ∧ t.pend E.LAUNCH_FULL = true
      else if s.chip.launchQ.length < 64 then
        t.launchQ = s.chip.launchQ ++ [{ time := s.chip.get F.LAUNCH_TIME_TIME, kind := bitsOf w 3 0, arg := bitsOf w 13 4, tag := bitsOf w 31 24 }]
      else t.launchQ = s.chip.launchQ ∧ t.pend E.LAUNCH_FULL = true ∧
        t.get F.LAUNCH_STATUS_DROPPED = min 65535 (s.chip.get F.LAUNCH_STATUS_DROPPED + 1))) ∧
    Completes (.launchCancelAll o) s (fun t => t.launchQ = []) ∧
    (∀ tag : Nat, tag < 256 → Completes (.launchCancelTag o tag) s (fun t => t.launchQ = s.chip.launchQ.filter (fun e => e.tag ≠ tag)))

/-- An ECHO request is out until its response or ECHO_FAIL; a CUE of a set that exists commits every layer, and one of a set that does not fails
and changes no layer; the downbeat that a follower copies gives its bar and beat; an expected one that does not come ends the copying, and a third
bar downbeat missed in a row its lock. Shown to complete: echoSend, echoFail, cueLoadDone, masterDownbeatArrive, stackMiss. -/
def Obligations.FollowersAndCues : Prop :=
  ∀ (s : State), Runs s →
    (∀ p, p < s.chip.numPorts → s.chip.portEnabled p = true →
      Completes (.echoSend p) s (fun t => (t.port p).echoOut = (s.chip.port p).echoOut ++ [(s.chip.port p).echoSeq] ∧
        (t.port p).echoSeq = ((s.chip.port p).echoSeq + 1) % 256)) ∧
    (∀ p x l, p < s.chip.numPorts → (s.chip.port p).echoOut = x :: l →
      Completes (.echoFail p) s (fun t => (t.port p).echoOut = l ∧ t.get (F.PORT_CAUSE_ECHO_FAIL.pg p) = 1 ∧
        (t.port p).echoMeas = (s.chip.port p).echoMeas)) ∧
    (∀ n l, s.chip.build = .S → s.chip.map.cues = n :: l → s.chip.stepStalls = false →
      (min 1024 (s.chip.get F.MAPCTL_SET_COUNT_COUNT) ≤ n.1 →
        Completes .cueLoadDone s (fun t => t.map = { s.chip.map with cues := l } ∧ t.get F.MAPCTL_CUE_STATUS_FAIL = 1 ∧ t.pend E.CUE_FAIL = true ∧
          QuietBut [F.MAPCTL_CUE_STATUS_FAIL.addr] { s.chip with map := t.map } t)) ∧
      (Calm s.chip → ((s.chip.setMap { s.chip.map with cues := l, cueFrom := some n.2 }).cueRecord n.1).1.isSome = true →
        Completes .cueLoadDone s (fun t => t.map.cues = l ∧ t.get F.MAPCTL_CUE_STATUS_FAIL = 0 ∧ t.get F.MAPCTL_CUE_STATUS_SET = n.1 ∧
          t.pend E.CUE_APPLIED = true ∧ ∀ k, k < 8 → t.get (F.COMMIT.pg (0x061 + k)) = b2n (s.chip.en 0x060)))) ∧
    (∀ cell ns interval : Nat,
      let d := Downbeat.ofCell cell
      s.chip.build = .S → Calm s.chip → s.chip.isMaster = false → s.chip.bar.sel = 3 → s.chip.get F.BAR_SRC_SRC = 3 →
      s.chip.on F.STACK_CONFIG_IN_EN = true → s.chip.portMode (s.chip.get F.STACK_CONFIG_IN_PORT) = 4 → cellCrcOk cell = true →
      cellType cell = ctDownbeat → d.mode < 24 → d.beat < modeBeats d.mode → s.chip.bar.running = true → s.chip.bar.copying = true →
      d.mode = s.chip.mode → (s.chip.bar.nextBeat ≠ 0 ∨ d.beat = 0) → s.chip.launchQ = [] →
      Completes (.masterDownbeatArrive cell ns interval) s (fun t => t.barCount = d.barCount ∧ t.get F.BAR_STATUS_BEAT = d.beat ∧
        t.get F.BAR_STATUS_SRC_IN_USE = 3 ∧ t.bar.copying = true)) ∧
    (s.chip.build = .S → s.chip.isMaster = false → s.chip.bar.sel = 3 → s.chip.bar.running = true → s.chip.bar.everCopied = true →
      (s.chip.bar.copying = false → s.chip.get F.BAR_STATUS_BEAT = 0 →
        Completes .stackMiss s (fun t => t.bar.masterMiss = s.chip.bar.masterMiss + 1 ∧ t.on F.STACK_STATUS_LOCK = false ∧
          (2 ≤ s.chip.bar.masterMiss → t.raw E.STACK_LOST = true ∧ t.on F.BAR_STATUS_LOCK = false))) ∧
      (Calm s.chip → s.chip.bar.copying = true → s.chip.get F.BAR_SRC_SRC = 3 → s.chip.bar.nextBeat = 0 →
        Completes .stackMiss s (fun t => t.bar.copying = false ∧ t.bar.masterMiss = s.chip.bar.masterMiss + 1 ∧ t.on F.STACK_STATUS_LOCK = false ∧
          t.barCount = (s.chip.barCount + 1) % 2 ^ 32)))

/-! ### Source ingest (spec/05_source_ingest.md) -/

/-- A link change shows in STATUS and in the down event of an enabled path; a frame that fails its FCS or is too short is counted and goes no
further; an uncorrectable codeword is counted with the frames it carries; a control frame is sent once, and BUSY says that it is under way. Shown
to complete: ethLinkChange, ethFrameReceive, ethFecUncorr, ctlTxGo, ctlTxDone. -/
def Obligations.EthernetPaths : Prop :=
  ∀ (s : State) (path : Nat), Runs s → s.chip.build = .S → path < 2 →
    (∀ (link lf rf : Bool) (sub fec : Nat), sub < 16 → fec < 16 →
      Completes (.ethLinkChange path link lf rf sub fec) s (fun t =>
        t.on (ethF F.ETH_STATUS_LINK path) = (if s.chip.get (ethF F.ETH_CONFIG_MODE path) = 1 then decide (sub ≠ 0) else link && decide (fec = 15) && !lf && !rf) ∧
        t.on (ethF F.ETH_STATUS_LOCAL_FAULT path) = lf ∧ t.on (ethF F.ETH_STATUS_REMOTE_FAULT path) = rf ∧ t.get (ethF F.ETH_STATUS_FEC_LOCK path) = fec ∧
        t.raw (evDown path) = (s.chip.runs (ethPage path) && !t.on (ethF F.ETH_STATUS_LINK path)))) ∧
    (∀ (sub : Nat) (f : EthFrame), s.chip.runs (ethPage path) = true →
      Completes (.ethFrameReceive path sub f) s (fun t =>
        (f.fcsOk = false → t.get (ethF F.ETH_RX_FCS_COUNT path) = (s.chip.get (ethF F.ETH_RX_FCS_COUNT path) + 1) % 2 ^ 32 ∧ t.mem = s.chip.mem ∧
          t.flows = s.chip.flows ∧ t.host.srpQ = s.chip.host.srpQ) ∧
        (f.fcsOk = true → f.bytes.length + 4 < 64 →
          t.get (ethF F.ETH_RX_DROP_COUNT path) = (s.chip.get (ethF F.ETH_RX_DROP_COUNT path) + 1) % 2 ^ 32 ∧ t.mem = s.chip.mem ∧
            t.flows = s.chip.flows) ∧
        (s.chip.ethFate path sub f = .ring → s.chip.on (ethF F.ETH_CONFIG_CTL_EN path) = true → f.bytes.length ≤ 2032 →
          (s.chip.get (ethF F.ETH_CTL_RX_HEAD_HEAD path) + 1) % s.chip.ringSlots path ≠ s.chip.get (ethF F.ETH_CTL_RX_TAIL_TAIL path) →
          t.get (ethF F.ETH_CTL_RX_HEAD_HEAD path) = (s.chip.get (ethF F.ETH_CTL_RX_HEAD_HEAD path) + 1) % s.chip.ringSlots path))) ∧
    (∀ frames : Nat, Completes (.ethFecUncorr path frames) s (fun t =>
      t.get (ethF F.ETH_FEC_UNCORR_COUNT path) = (s.chip.get (ethF F.ETH_FEC_UNCORR_COUNT path) + 1) % 2 ^ 32 ∧
        t.get (ethF F.ETH_RX_FCS_COUNT path) = (s.chip.get (ethF F.ETH_RX_FCS_COUNT path) + frames) % 2 ^ 32 ∧ t.pend (evFec path) = true)) ∧
    (∀ (o : Origin) (sub len : Nat), sub < 4 → len ≤ 9600 → Calm s.chip → s.chip.runs (ethPage path) = true →
      s.chip.on (ethF F.ETH_CTL_TX_CTRL_BUSY path) = false →
      Completes (.ctlTxGo o path sub len) s (fun t => t.get (ethF F.ETH_CTL_TX_CTRL_BUSY path) = 1 ∧
        ∃ x, (if path = 0 then t.ctlTxA else t.ctlTxB) = some x ∧ x.sub = (if s.chip.get (ethF F.ETH_CONFIG_MODE path) = 1 then sub else 0))) ∧
    (∀ x : CtlTx, s.chip.rst.extest = false → (if path = 0 then s.chip.ctlTxA else s.chip.ctlTxB) = some x →
      Completes (.ctlTxDone path) s (fun t => t.out = s.chip.out ++ [.frame path x.sub x.bytes] ∧ t.get (ethF F.ETH_CTL_TX_CTRL_BUSY path) = 0 ∧
        (if path = 0 then t.ctlTxA else t.ctlTxB) = none))

/-- The waits of a flow: the gap wait conceals a line of a running flow and drops the frame of one in SYNC; TIMEOUT stops a running flow and
withdraws its watermark; a silent path of a merged flow is marked; HOLD ends the hold of a stopped one, and never where it reads 0xFFFF. Shown to
complete: gapWaitExpire, flowStop, pathLoss, holdExpire. -/
def Obligations.FlowWaits : Prop :=
  ∀ (s : State) (n : Nat), Runs s → s.chip.build = .S → n < 16 →
    (∀ g : Nat × Nat, (s.chip.flow n).gapWait = some g →
      (s.chip.state (flowPage n) = fsSync →
        Completes (.gapWaitExpire n) s (fun t => (t.flow n).writing = false ∧ (t.flow n).pixels = [] ∧ t.watermark n = 0 ∧ t.mem = s.chip.mem)) ∧
      (s.chip.state (flowPage n) = fsRun → g.1 = s.chip.watermark n → Completes (.gapWaitExpire n) s (fun t => t.pend E.FLOW_CONCEAL = true))) ∧
    (s.chip.state (flowPage n) = fsRun →
      Completes (.flowStop n) s (fun t => t.state (flowPage n) = fsStop ∧ t.watermark n = 0 ∧ t.pend E.FLOW_STOP = true ∧
        (t.flow n).stopBar = s.chip.barCount)) ∧
    (∀ path, path < 2 → s.chip.merged n = true → s.chip.state (flowPage n) = fsRun ∨ s.chip.state (flowPage n) = fsSync →
      Completes (.pathLoss n path) s (fun t =>
        (t.rd F.MERGE_PATH_LOSS_A_SILENT.addr).getLsbD (16 * path + n) = true ∧ t.raw E.PATH_LOSS = true)) ∧
    (s.chip.flowHeld n = true →
      Completes (.holdExpire n) s (fun t =>
        (t.flow n).holdOver = ((s.chip.flow n).holdOver ||
          (decide (s.chip.get (F.FLOW_HOLD_BARS.pg n) ≠ 0xFFFF) &&
            decide (s.chip.get (F.FLOW_HOLD_BARS.pg n) ≤ (s.chip.barCount + 2 ^ 32 - (s.chip.flow n).stopBar) % 2 ^ 32)))))

/-! ### Mapping (spec/06_mapping_engines.md) -/

/-- A canvas is released for the beat two beats on; the next band of the canvas in work is dispatched; a band whose layers are ready stops waiting;
scan-out's last read frees a buffer; an engine that completes its task gives it up. Shown to complete: canvasRelease, bandDispatch, bandChaseReady,
canvasBufferFree, mapTaskComplete. -/
def Obligations.CanvasesAndBands : Prop :=
  ∀ (s : State), Runs s → s.chip.build = .S → Calm s.chip →
    (∀ lit, s.chip.relLit = some lit → s.chip.runs mapctl = true → s.chip.bar.running = true → s.chip.bar.waiting = false →
      s.chip.map.lastRel ≠ some lit → (s.chip.scan.newMode = true → lit.2 = 0) →
      Completes .canvasRelease s (fun t => t.map.lastRel = some lit ∧ t.map.seq = (s.chip.map.seq + 1) % 65536 ∧
        ∃ x ∈ t.map.canvases, x.seq = s.chip.map.seq ∧ x.litBar = lit.1 ∧ x.litBeat = lit.2)) ∧
    (∀ x, s.chip.map.canvases = [x] → x.begun = true → x.bands < s.chip.numBands → s.chip.map.bands.length < 2 → s.chip.stepStalls = false →
      Completes .bandDispatch s (fun t => t.map.bands.length = s.chip.map.bands.length + 1 ∧ ∃ b ∈ t.map.bands, b.seq = x.seq ∧ b.band = x.bands)) ∧
    (∀ x b, s.chip.map.canvases = [x] → s.chip.map.bands = [b] → b.seq = x.seq → (∀ l < 8, s.chip.layerReady x b l = true) →
      Completes .bandChaseReady s (fun t => ∃ d, t.map.bands = [d] ∧ d.waitChase = false ∧ d.band = b.band)) ∧
    (∀ x, s.chip.map.canvases = [x] → x.published = true → s.chip.litFuture x = false → s.chip.scan.dues = [] → s.chip.scan.jobs = [] →
      s.chip.scan.active = false →
      Completes (.canvasBufferFree x.feed x.buf) s (fun t => t.map.canvases = [])) ∧
    (∀ e k x b u, smFind s.chip.map.engines e = some k → s.chip.map.canvases = [x] → s.chip.map.bands = [b] → k.seq = x.seq → b.seq = x.seq →
      k.band = b.band → b.cols = [] → e < 16 → s.chip.stepStalls = false →
      Completes (.mapTaskComplete e u) s (fun t => smFind t.map.engines e = none ∧ t.get (F.MAP_STATUS_ACTIVE.pg e) = 0 ∧
        ∃ d, t.map.bands = [d] ∧ d.held = b.held - 1))

/-- A band with no task left completes; a canvas not complete by its deadline is late once; the tables are written through their window; LEAD_MIN
is cleared. Shown to complete: bandComplete, canvasLate, mapctlTabData, leadMinClr. -/
def Obligations.BandsAndTables : Prop :=
  ∀ (s : State), Runs s → s.chip.build = .S → Calm s.chip →
    (∀ x b k, s.chip.map.canvases = [x] → s.chip.map.bands = [b] → b.seq = x.seq → b.cols = [] → b.held = 0 → x.begun = true →
      x.done.length + 1 < s.chip.numBands →
      Completes (.bandComplete k) s (fun t => ∃ y ∈ t.map.canvases, y.seq = x.seq ∧ y.done = b.band :: x.done)) ∧
    (∀ x, s.chip.map.canvases = [x] → x.late = false → s.chip.canvasDone x = false →
      Completes .canvasLate s (fun t => t.map.canvases = [{ x with late := true }] ∧ t.pend E.CANVAS_LATE = true ∧
        t.get F.MAPCTL_LATE_COUNT_COUNT = min 0xFFFFFFFF (s.chip.get F.MAPCTL_LATE_COUNT_COUNT + 1))) ∧
    (∀ (o : Origin) (w : Word), (tabKind (s.chip.get F.MAPCTL_TAB_ADDR_INDEX)).isSome = true →
      let next := (s.chip.get F.MAPCTL_TAB_ADDR_INDEX + b2n (s.chip.on F.MAPCTL_TAB_ADDR_AUTO_INC)) % 2 ^ 17
      Completes (.mapctlTabData o (some w)) s (fun t =>
        smGet 0 t.map.shadow (s.chip.get F.MAPCTL_TAB_ADDR_INDEX) = w.toNat % 2 ^ tabBits (s.chip.get F.MAPCTL_TAB_ADDR_INDEX) ∧
        t.map.tables = s.chip.map.tables ∧ t.get F.MAPCTL_TAB_ADDR_INDEX = next) ∧
      Completes (.mapctlTabData o none) s (fun t => t.map = s.chip.map ∧ t.get F.MAPCTL_TAB_ADDR_INDEX = next)) ∧
    (∀ o : Origin, Completes (.leadMinClr o) s (fun t => t.get F.MAPCTL_LEAD_MIN_LINES = 0x7FFF))

/-! ### Scan-out and preview (spec/07_canvas_scan_out.md) -/

/-- In frame mode each line starts in its turn and shows in both engines; line 0 begins for a complete canvas and raises SCAN_A_LATE once for one
that is not; host frames need no canvas. Shown to complete: scanLineStart, scanCanvasLine0. -/
def Obligations.ScanOutLines : Prop :=
  ∀ (s : State), Runs s → s.chip.build = .S → Calm s.chip → s.chip.runs 0x070 = true → s.chip.chaseMode = false → s.chip.bar.running = true →
    s.chip.bar.waiting = false →
    (s.chip.scan.active = true → s.chip.scan.line < s.chip.scan.height + 15 → s.chip.scan.height ≤ 8192 → s.chip.heldForLine0 = false →
      Completes .scanLineStart s (fun t => t.scan.line = s.chip.scan.line + 1 ∧ t.get F.SCAN_LINE_LINE = s.chip.scan.line + 1 ∧
        t.get (F.SCAN_LINE_LINE.pg 1) = s.chip.scan.line + 1 ∧ t.on F.SCAN_LINE_BLANK = decide (s.chip.scan.height ≤ s.chip.scan.line + 1))) ∧
    (∀ d l, s.chip.scan.active = false → s.chip.scan.dues = d :: l → s.chip.hostFrames = true →
      Completes .scanCanvasLine0 s (fun t => t.scan.dues = l ∧ t.scan.active = true ∧ t.scan.line = 0 ∧ t.get F.SCAN_LINE_LINE = 0 ∧
        t.scan.curLit = (d.litBar, d.litBeat) ∧
        t.scan.jobs.length = s.chip.scan.jobs.length + b2n (!s.chip.tableHeld && d.reads))) ∧
    (∀ d l x, s.chip.scan.active = false → s.chip.scan.dues = d :: l → s.chip.fixedCanvas = false → s.chip.canvasFor d = some x →
      (s.chip.canvasDone x = true →
        Completes .scanCanvasLine0 s (fun t => t.scan.dues = l ∧ t.scan.active = true ∧ t.scan.line = 0 ∧ t.scan.curSeq = some x.seq)) ∧
      (s.chip.canvasDone x = false →
        Completes .scanCanvasLine0 s (fun t => t.scan.dues = d :: l ∧ t.scan.lateFor = some (d.litBar, d.litBeat) ∧ t.scanState = ssHeld ∧
          (s.chip.scan.lateFor ≠ some (d.litBar, d.litBeat) → t.pend E.SCAN_A_LATE = true))))

/-- A cell that is read joins the queue of every port of its chain; its data makes it ready, or, poisoned, a HOLD cell of it, and its wait too; the
tile table is written and read through its window, PORT_MARGIN is cleared, and a preview frame ends with its last write or with a host error. Shown
to complete: scanCellRead, scanDataReturn, underrunWaitExpire, tiletabData, portMarginClr, previewDone, previewErr. -/
def Obligations.PixelCellsAndPreview : Prop :=
  ∀ (s : State), Runs s → s.chip.build = .S →
    (∀ e p, e < 2 → p < 16 → s.chip.chainPorts p ≠ [] → (∀ q ∈ s.chip.chainPorts p, (s.chip.port q).qPixel.length < 512) →
      (s.chip.nextCell e (s.chip.seqPort p)).isSome = true → s.chip.myTurn e (s.chip.seqPort p) = true →
      Completes (.scanCellRead e p) s (fun t => ∀ q ∈ s.chip.chainPorts p, (t.port q).qPixel.length = (s.chip.port q).qPixel.length + 1)) ∧
    (∀ p c l, p < 16 → (s.chip.port p).pixLate = 0 → (s.chip.port p).qPixel = c :: l → c.ready = false → s.chip.stepStalls = false →
      (c.bad = false → c.poison = [] →
        Completes (.scanDataReturn p) s (fun t => (t.port p).qPixel = { c with ready := true } :: l ∧ QuietBut [] s.chip t)) ∧
      (c.bad = true → c.poison ≠ [] →
        Completes (.scanDataReturn p) s (fun t =>
          (t.port p).qPixel = { c with ready := true, cell := holdCell c.cell, poison := [] } :: l ∧ t.pend E.SCAN_POISON = true)) ∧
      Completes (.underrunWaitExpire p) s (fun t => (t.port p).pixLate = 1 ∧
        ∃ d, (t.port p).qPixel = d :: l ∧ d.ready = true ∧ cellHold d.cell = true ∧ QuietBut [] s.chip t)) ∧
    (∀ (o : Origin) (w : Word), Calm s.chip →
      let next := (s.chip.get F.TILETAB_INDEX_INDEX + b2n (s.chip.on F.TILETAB_INDEX_AUTO_INC)) % 4096
      Completes (.tiletabData o (some w)) s (fun t => smGet 0 t.scan.tabShadow (s.chip.get F.TILETAB_INDEX_INDEX) = w ∧ t.scan.tabUse = s.chip.scan.tabUse ∧
        t.get F.TILETAB_INDEX_INDEX = next) ∧
      Completes (.tiletabData o none) s (fun t => t.scan = s.chip.scan ∧ t.get F.TILETAB_INDEX_INDEX = next)) ∧
    (∀ (o : Origin) (p : Nat), Calm s.chip → p < 16 → Completes (.portMarginClr o p) s (fun t => t.get (F.SCAN_PORT_MARGIN_US.plus (4 * p)) = 0x7FFF)) ∧
    (∀ r, s.chip.preview.busy = true → s.chip.preview.canvas = some r → s.chip.previewReady r = true → s.chip.stepStalls = false →
      Completes .previewDone s (fun t => t.get F.PREVIEW_STATUS_BUSY = 0 ∧ t.preview.busy = false ∧ t.get F.PREVIEW_STATUS_LAST_BUF = s.chip.preview.nextBuf % 2 ∧
        t.preview.nextBuf = 1 - s.chip.preview.nextBuf ∧ t.pend E.PREVIEW_DONE = true)) ∧
    (s.chip.preview.busy = true → Completes .previewErr s (fun t => t.get F.PREVIEW_STATUS_BUSY = 0 ∧ t.preview.busy = false ∧ t.pend E.PREVIEW_ERR = true ∧
      t.preview.nextBuf = s.chip.preview.nextBuf))

/-! ### The Susyn Chain (spec/08_chain_link.md) -/

/-- Scrambling twice from one state gives the payload back, and the nine payloads of a cell join to that cell (R190, R194). A reserved slot stays
IDLE and a waiting TOLL cell goes before every other type; a marker goes out on the three lanes, with the fields of R193, the lane map it announces
and the bits that an injection inverts, and counts; a good marker shows its source in LINK, and the second bad one in a row costs a locked lane its
lock; 64 valid sync headers in a row lock a lane, and sixteen invalid ones within 64 unlock it. Shown to complete: cellSlot, markerSend,
markerReceive, blockLockChange. -/
def Obligations.SlotsAndMarkers : Prop :=
  (∀ g x : Nat, scrambleBits g (scrambleBits g x) = x) ∧
  (∀ r : RawCell, (∀ w ∈ [r.w0, r.w1, r.w2, r.w3], w.index < 4 ∧ w.cseq < 32) → joinBlocks (cellBlocks r) = r) ∧
  ∀ (s : State) (p : Nat), Runs s → s.chip.rst.extest = false → p < s.chip.numPorts →
    (s.chip.build = .S → s.chip.portCarries p = true → (s.chip.port p).slot % 16 = 0 →
      Completes (.cellSlot p) s (fun t =>
        (∃ l, t.out = s.chip.out ++ .cell p (encodeCell (s.chip.withActive idleCell) (s.chip.port p).txSeq) :: l) ∧
        (t.port p).slot = (s.chip.port p).slot + 1 ∧ (t.port p).txSeq = ((s.chip.port p).txSeq + 1) % 32 ∧
        (t.port p).qToll = (s.chip.port p).qToll ∧ (t.port p).qPixel = (s.chip.port p).qPixel)) ∧
    (∀ x k, s.chip.build = .S → s.chip.portCarries p = true → (s.chip.port p).slot % 16 ≠ 0 → s.chip.portMode p ≠ 4 → s.chip.bar.dbDue = none →
      (s.chip.port p).qToll = x :: k →
      Completes (.cellSlot p) s (fun t =>
        (∃ l, t.out = s.chip.out ++ .cell p (encodeCell (s.chip.withActive x) (s.chip.port p).txSeq) :: l) ∧
        (t.port p).slot = (s.chip.port p).slot + 1 ∧ (t.port p).qToll = k ∧ (t.port p).qEcho = (s.chip.port p).qEcho ∧
        (t.port p).qMgmt = (s.chip.port p).qMgmt)) ∧
    (s.chip.state (portPage p) ≠ psOff → s.chip.state (portPage p) ≠ psTrain →
      let bits := fun (l : Nat) => Nat.xor ({ s.chip.markerOf p l with txMap := s.chip.nextTxMap p } : Marker).bits (s.chip.burst p l).1
      Completes (.markerSend p) s (fun t => (∃ l, t.out = s.chip.out ++ .marker p 0 (bits 0) :: .marker p 1 (bits 1) :: .marker p 2 (bits 2) :: l) ∧
        (t.port p).markerCnt = ((s.chip.markerOf p 0).cnt + 1) % 65536 ∧ (t.port p).txMap = s.chip.nextTxMap p ∧
        t.get (F.PORT_LINK_TX_MAP.pg p) = (t.port p).txMap % 8)) ∧
    (∀ l bits, l < 3 → s.chip.state (portPage p) ≠ psOff →
      let m := bits % 2 ^ 64
      Completes (.markerReceive p l bits) s (fun t =>
        if bits / 2 ^ 64 = syncControl ∧ markerOk m = true then
          t.get (F.PORT_LINK_HOPS.pg p) = mkHops m ∧ t.get (F.PORT_LINK_DIR.pg p) = mkDir m ∧
          t.get (F.PORT_LINK_PORT_ID.pg p) = mkPortId m ∧ t.get (F.PORT_LINK_SENDER_ID.pg p) = mkSenderId m ∧
          ((t.port p).lane l).missedMarkers = 0 ∧ ((t.port p).lane l).scr = some (laneSeed (mkLane m) (mkCnt m))
        else t.get (F.PORT_CAUSE_AM_ERR.pg p) = 1 ∧
          (((s.chip.port p).lane l).locked = true → 1 ≤ ((s.chip.port p).lane l).missedMarkers → ((t.port p).lane l).locked = false))) ∧
    (∀ l blocks, l < 3 → s.chip.state (portPage p) ≠ psOff →
      (((s.chip.port p).lane l).locked = false → 64 ≤ ((s.chip.port p).lane l).valids + blocks.length →
        (∀ b ∈ blocks, b.lane = l ∧ b.sync = syncData) →
        Completes (.blockLockChange p l blocks) s (fun t => ((t.port p).lane l).locked = true)) ∧
      (((s.chip.port p).lane l).locked = true → 16 ≤ blocks.length → (∀ b ∈ blocks, b.lane = l ∧ (b.sync = 0 ∨ b.sync = 3)) →
        Completes (.blockLockChange p l blocks) s (fun t => ((t.port p).lane l).locked = false)))

/-- Blocks are received one by one, and a cell arrives with the block that completes it; a slipped cell is counted and not used, one whose header
CRC fails is counted, an ECHO request is answered; a tile inserts a waiting response into a free slot of a stream it sources; a sender takes the
first copy of a MONITOR cell only; a tile's reports go to every stream towards a sender. Shown to complete: cellReceive, tileCellInsert,
monitorReceive, monitorStatusSend, monitorIdentitySend. -/
def Obligations.CellsReceivedAndInserted : Prop :=
  ∀ (s : State) (p : Nat), Runs s → p < s.chip.numPorts →
    (∀ b a m, s.chip.state (portPage p) ≠ psOff →
      let r := s.chip.rxBlock s.chip.identity p b
      (r.1 = none → Completes (.cellReceive p [b] a m) s (fun t => t = r.2)) ∧
      (∀ l u, exec (.cellReceive p [b] a m) s = .next u → Runs u → p < u.chip.numPorts → u.chip.state (portPage p) ≠ psOff →
        exec (.cellReceive p (b :: l) a m) s = exec (.cellReceive p l a m) u) ∧
      (∀ nine, r.1 = some nine → s.chip.build = .S → r.2.build = .S → r.2.portCarries p = true →
        let c := r.2
        let raw := joinBlocks (nine.map (·.2))
        (rawSlip raw ((c.port p).expects raw) = true →
          Completes (.cellReceive p [b] a m) s (fun t => t.get (F.PORT_CAUSE_SLIP.pg p) = 1 ∧ (t.port p).rxSeq = some ((raw.w0.cseq + 1) % 32) ∧
            t.host.relayOut = c.host.relayOut ∧ t.redun = c.redun)) ∧
        (rawSlip raw ((c.port p).expects raw) = false → badWords raw = 0 → cellCrcOk (rawData raw) = false →
          Completes (.cellReceive p [b] a m) s (fun t => t.get (F.PORT_CAUSE_HDR_CRC.pg p) = 1 ∧ t.host.relayOut = c.host.relayOut ∧
            t.redun = c.redun)) ∧
        (rawSlip raw ((c.port p).expects raw) = false → badWords raw = 0 → cellCrcOk (rawData raw) = true → cellType (rawData raw) = ctEcho →
          echoResp (rawData raw) = false →
          Completes (.cellReceive p [b] a m) s (fun t => (t.port p).qEcho.length = (c.port p).qEcho.length + 1 ∧
            (t.port p).rxSeq = some ((raw.w0.cseq + 1) % 32))))) ∧
    (∀ x k, s.chip.build = .T → s.chip.rst.extest = false → s.chip.portCarries p = true → s.chip.portCarries (partner p) = false →
      (s.chip.port p).slot % 16 ≠ 0 → 1024 ≤ (s.chip.port p).sinceInsert → (s.chip.port p).insToll = [] → (s.chip.port p).insMgmt = x :: k →
      Completes (.tileCellInsert p) s (fun t => (t.port p).insMgmt = k ∧ (t.port p).sinceInsert = 1 ∧
        ∃ l, t.out = s.chip.out ++ .cell p (encodeCell x (s.chip.port p).txSeq) :: l)) ∧
    (∀ cell, s.chip.build = .S → s.chip.tilePort p = true → s.chip.portCarries p = true → cellCrcOk cell = true → cellType cell = ctMonitor →
      Completes (.monitorReceive p cell) s (fun t =>
        if (smFind s.chip.chain.monAccepted (cellTile cell)).any (fun k => decide ((k + 256 - cellSeq cell) % 256 < 128)) then t = s.chip
        else smFind t.chain.monAccepted (cellTile cell) = some (cellSeq cell))) ∧
    (s.chip.build = .T → s.chip.get F.CHAINCTL_TILE_CFG_STATUS_BARS ≠ 0 →
      Completes .monitorStatusSend s (fun t => (t.port 0).cellSeq = ((s.chip.port 0).cellSeq + 1) % 256 ∧
        ∃ cell, cellSeq cell = (s.chip.port 0).cellSeq % 256 ∧ ∀ q ∈ s.chip.reportPorts, (t.port q).insMonitor = (s.chip.port q).insMonitor ++ [cell])) ∧
    (s.chip.build = .T → 0 < s.chip.chain.identityLeft →
      Completes .monitorIdentitySend s (fun t => t.chain.identityLeft = s.chip.chain.identityLeft - 1 ∧
        ∀ q ∈ s.chip.reportPorts, (t.port q).insMonitor.length = (s.chip.port q).insMonitor.length + 1))

/-- The states of a port: it trains when enabled, stays in TRAIN until the other end has trained too, comes UP with three good lanes, fails on a
timeout or without its clock, and tries again; a ring link with one usable lane is fenced, a LINE goes to reduced rate and back; a lost direction
is noted, and a link-up numbers the tile. Shown to complete: portTrainStart, portTrained, portTrainTimeout, portFailedRetry, clkLoss, portFenced,
portReduced, fullRateRestore, directionLost, linkUp. -/
def Obligations.PortStates : Prop :=
  ∀ (s : State) (p : Nat), Runs s → p < s.chip.numPorts →
    (s.chip.portEnabled p = true → s.chip.state (portPage p) = psOff → Completes (.portTrainStart p) s (fun t => t.state (portPage p) = psTrain)) ∧
    (s.chip.state (portPage p) = psTrain →
      (∀ r : Training, (s.chip.port p).peerReady = false →
        Completes (.portTrained p r) s (fun t => t.state (portPage p) = psTrain ∧ (t.port p).trained = true ∧ t.get (F.PORT_LINK_CLK_OK.pg p) = 1)) ∧
      (∀ r : Training, (s.chip.port p).peerReady = true → s.chip.rxMap p = 0 → (s.chip.port p).recal = none →
        (∀ l < 3, (((s.chip.port p).lane l).retired = false ∨ ((s.chip.port p).lane l).restore = true) ∧
          s.chip.eyeOk p (r.widths.getD l 0) (r.heights.getD l 0) = true) →
        Completes (.portTrained p r) s (fun t => t.state (portPage p) = psUp ∧ t.get (laneFld p 0) = lnInUse ∧
          t.get (laneFld p 1) = lnInUse ∧ t.get (laneFld p 2) = lnSpare ∧ t.get (F.PORT_LINK_CLK_OK.pg p) = 1 ∧
          ∀ l < 3, smGet 0 (t.port p).calUse l = r.settings.getD l 0)) ∧
      Completes (.portTrainTimeout p) s (fun t => t.state (portPage p) = psFailed ∧ t.get (F.FAULT.pg (portPage p)) = 1)) ∧
    (s.chip.state (portPage p) = psFailed →
      Completes (.portFailedRetry p) s (fun t => t.state (portPage p) = if s.chip.portEnabled p then psTrain else psOff)) ∧
    (s.chip.state (portPage p) ≠ psOff →
      Completes (.clkLoss p) s (fun t => t.state (portPage p) = psFailed ∧ t.get (F.PORT_LINK_CLK_OK.pg p) = 0 ∧ (t.port p).trained = false)) ∧
    (s.chip.portMode p = 2 ∨ s.chip.portMode p = 3 → (s.chip.port p).usable = 1 → s.chip.portCarries p = true →
      Completes (.portFenced p) s (fun t => t.state (portPage p) = psFenced ∧ t.get (F.PORT_CAUSE_FENCED.pg p) = 1)) ∧
    (s.chip.portMode p = 1 → s.chip.reduceAsked p = true → s.chip.state (portPage p) = psUp ∨ s.chip.state (portPage p) = psSpared →
      Completes (.portReduced p) s (fun t => t.state (portPage p) = psReduced ∧ t.get (F.PORT_LINK_REDUCED.pg p) = 1 ∧
        t.get (F.PORT_CAUSE_REDUCED.pg p) = 1 ∧ (s.chip.build = .S → (t.rd 0x09004C).getLsbD p = true))) ∧
    (s.chip.state (portPage p) = psReduced → s.chip.reduceAsked p = false → 2 ≤ (s.chip.port p).usable →
      Completes (.fullRateRestore p) s (fun t => t.state (portPage p) = s.chip.laneState p ∧ t.get (F.PORT_LINK_REDUCED.pg p) = 0 ∧
        (s.chip.build = .S → (t.rd 0x09004C).getLsbD p = false))) ∧
    (s.chip.build = .T → Completes (.directionLost p) s (fun t => (t.port p).dirLost = true ∧ t.get (F.PORT_CAUSE_DIR_LOST.pg p) = 1)) ∧
    (s.chip.portCarries p = true →
      Completes (.linkUp p) s (fun t => (t.port p).dirLost = false ∧ (t.port p).numbered = false ∧
        (s.chip.build = .T → p = 0 → (s.chip.port 0).rxMarker.isSome = true → s.chip.get F.PORT_LINK_HOPS < 64 → s.chip.get F.PORT_LINK_SENDER_ID < 7 →
          t.get F.CHAINCTL_TILE_ID_VALID = 1 ∧ t.get F.CHAINCTL_TILE_ID_ID =
            s.chip.get F.PORT_LINK_SENDER_ID * 1024 + s.chip.get F.PORT_LINK_PORT_ID * 64 + s.chip.get F.PORT_LINK_HOPS)))

/-- The upkeep of a port's lanes: settings follow the temperature; a recalibration of the next lane begins, at once on an idle lane, and with a
copy on SP asked for on a data lane in use; its good result is taken into use, a bad one is RECAL_NOFIT; measured eyes are shown; a lane is retired
and marked for restoring by command. Shown to complete: laneCalInterpolate, recalPeriod, recalNow, recalComplete, eyeMeasure, laneRetireCmd,
laneRestore. -/
def Obligations.LaneUpkeep : Prop :=
  ∀ (s : State) (p : Nat), Runs s → p < s.chip.numPorts →
    (s.chip.state (portPage p) ≠ psOff →
      Completes (.laneCalInterpolate p) s (fun t => t.get (F.PORT_CAL_TEMP_TJ.pg p) = s.chip.get (F.THERMAL_SENSOR_USE.plus (4 * (p / 4))))) ∧
    (let l := (s.chip.port p).nextRecal % 3
     let x := (s.chip.port p).lane l
     let begun : Chip → Prop := fun t => (t.port p).nextRecal = (l + 1) % 3 ∧
       (x.retired = true → x.restore = true → (t.port p).recal = some { lane := l, phase := .live }) ∧
       (x.retired = false → s.chip.laneInUse p l = false → (t.port p).recal = some { lane := l, phase := .live }) ∧
       (x.retired = false → s.chip.laneInUse p l = true → l < 2 → mapReduced (s.chip.rxMap p) = false → (s.chip.port p).lane2.usable = true →
         (s.chip.port p).spareFor = none → (t.port p).recal = some { lane := l, phase := .asked })
     s.chip.portCarries p = true ∨ s.chip.state (portPage p) = psFenced → (s.chip.port p).recal = none →
      (s.chip.get (F.PORT_RECAL_PERIOD_S.pg p) ≠ 0 → Completes (.recalPeriod p) s begun) ∧
      (∀ o, Calm s.chip → Completes (.recalNow o p) s begun)) ∧
    (∀ r w h set, (s.chip.port p).recal = some r → r.phase = .live → r.lane < 3 →
      Completes (.recalComplete p w h set) s (fun t =>
        if s.chip.eyeOk p w h then smGet 0 (t.port p).calUse r.lane = set ∧ ((t.port p).lane r.lane).retired = false
        else t.get (F.PORT_CAUSE_RECAL_NOFIT.pg p) = 1 ∧ (t.port p).calUse = (s.chip.port p).calUse)) ∧
    (∀ ws hs : List Nat, (∀ l < 3, s.chip.laneInUse p l = true → s.chip.eyeOk p (ws.getD l 0) (hs.getD l 0) = true) →
      Completes (.eyeMeasure p ws hs) s (fun t => (t.port p).usable = (s.chip.port p).usable ∧
        ∀ l < 3, if s.chip.laneInUse p l then
          t.rd (0x080048 + 4096 * p + 4 * l) = BitVec.ofNat 32 (ws.getD l 0 % 64 * 65536 + hs.getD l 0 % 1024) ∧ ((t.port p).lane l).lowEyes = 0
        else t.rd (0x080048 + 4096 * p + 4 * l) = s.chip.rd (0x080048 + 4096 * p + 4 * l))) ∧
    (∀ o l, l < 3 → Calm s.chip → ((s.chip.port p).lane l).retired = false →
      Completes (.laneRetireCmd o p l) s (fun t => ((t.port p).lane l).retired = true ∧ t.get (F.PORT_CAUSE_LANE_RETIRED.pg p) = 1)) ∧
    (∀ o, Calm s.chip → Completes (.laneRestore o p) s (fun t =>
      ∀ l < 3, ((t.port p).lane l).restore = (((s.chip.port p).lane l).restore || ((s.chip.port p).lane l).retired)))

/-- The pattern checker takes bits one by one, locks after 64 without an error, and counts each error from then on; TEST.CLR clears its counters;
an injection is armed for the next block, falls due on the next block, or inverts a test pattern at once; the calibration sets are written and read
through their window. Shown to complete: testErr, portTestClr, injectOnce, portCalData, injectRepeat. -/
def Obligations.TestAndInjection : Prop :=
  ∀ (s : State) (p : Nat), Runs s → p < s.chip.numPorts →
    (∀ l b, l < 3 → s.chip.checks p l = true →
      let lo := (F.PORT_TEST_ERR_ERR_LO.pg p).plus (8 * l)
      let hi := (F.PORT_TEST_ERR1_ERR_HI.pg p).plus (8 * l)
      let x := (s.chip.port p).lane l
      let want := patternNext (s.chip.get (F.PORT_TEST_PATTERN.pg p)) x.chkHist
      (s.chip.on (lockFld p l) = true →
        Completes (.testErr p l [b]) s (fun t => t.on (lockFld p l) = true ∧ ((t.port p).lane l).chkHist = (x.chkHist * 2 + want) % 2 ^ 64 ∧
          t.get hi * 2 ^ 32 + t.get lo =
            (if b2n b = want then s.chip.get hi * 2 ^ 32 + s.chip.get lo else min (2 ^ 48 - 1) (s.chip.get hi * 2 ^ 32 + s.chip.get lo + 1)) ∧
          (b2n b ≠ want → x.chkFirst = false → t.get (F.PORT_CAUSE_TEST_ERR.pg p) = 1))) ∧
      (s.chip.on (lockFld p l) = false → s.chip.get (F.PORT_TEST_PATTERN.pg p) ≠ 5 →
        patternDepth (s.chip.get (F.PORT_TEST_PATTERN.pg p)) ≤ x.chkSeen →
        Completes (.testErr p l [b]) s (fun t => t.on (lockFld p l) = (decide (b2n b = want) && decide (63 ≤ x.chkRun)) ∧
          ((t.port p).lane l).chkRun = (if b2n b = want then x.chkRun + 1 else 0))) ∧
      (∀ k u, exec (.testErr p l [b]) s = .next u → Runs u → p < u.chip.numPorts → u.chip.checks p l = true →
        exec (.testErr p l (b :: k)) s = exec (.testErr p l k) u)) ∧
    (∀ o, Calm s.chip →
      Completes (.portTestClr o p) s (fun t => ∀ l < 3, t.get ((F.PORT_TEST_ERR_ERR_LO.pg p).plus (8 * l)) = 0 ∧
        t.get ((F.PORT_TEST_ERR1_ERR_HI.pg p).plus (8 * l)) = 0) ∧
      Completes (.injectOnce o p) s (fun t => t.get (F.PORT_INJECT_LANE.pg p) = s.chip.get (F.PORT_INJECT_LANE.pg p) ∧
        if s.chip.genPattern p (s.chip.injectLane p) = 0 then t.get (F.PORT_INJECT_ONCE.pg p) = 1
        else t.get (F.PORT_INJECT_ONCE.pg p) = 0 ∧ (s.chip.rst.extest = false →
          .patternFlip p (s.chip.injectLane p) (s.chip.get (F.PORT_INJECT_BITS.pg p) + 1) ∈ t.out)) ∧
      (let next := (s.chip.get (calIdx p) + b2n (s.chip.on (F.PORT_CAL_ADDR_AUTO_INC.pg p))) % 16
       (∀ w, s.chip.get (calIdx p) % 4 ≠ 3 →
        Completes (.portCalData o p (some w)) s (fun t => smGet 0 (t.port p).cal (s.chip.get (calIdx p)) = w ∧ t.get (calIdx p) = next)) ∧
        Completes (.portCalData o p none) s (fun t => (t.port p).cal = (s.chip.port p).cal ∧ t.get (calIdx p) = next))) ∧
    Completes (.injectRepeat p) s (fun t =>
      if s.chip.on (F.PORT_INJECT_REPEAT.pg p) = false then t = s.chip
      else if s.chip.genPattern p (s.chip.injectLane p) = 0 then
        (t.port p).injCnt = s.chip.get (F.PORT_INJECT_EVERY_BLOCKS.pg p) ∧ QuietBut [] s.chip t
      else t.get (F.PORT_INJECT_ONCE.pg p) = 0 ∧ (s.chip.rst.extest = false →
        .patternFlip p (s.chip.injectLane p) (s.chip.get (F.PORT_INJECT_BITS.pg p) + 1) ∈ t.out))

/-! ### The tile: beats, images and levels (spec/09_tile_pipeline.md, spec/04_bars_and_time.md) -/

/-- A tile's beat start moves its schedule to the next beat; a bar without a valid downbeat raises DB_MISSING once and puts a locked tile on its
flywheel, whose count goes on from the schedule's own start; after FLY_BARS bars there the holding image is due. Shown to complete: tileBeatStart,
dbMissing, flyBarsExpire. -/
def Obligations.TileBeatsAndFlywheel : Prop :=
  ∀ (s : State), Runs s → s.chip.build = .T →
    (s.chip.beatReady = true → Calm s.chip → s.chip.launchQ = [] →
      Completes .tileBeatStart s (fun t => t.tile.sched.bar = s.chip.beatNext.bar ∧ t.tile.sched.beat = s.chip.beatNext.beat ∧
        t.tile.sched.mode = s.chip.beatNext.mode ∧ t.tile.sched.index = 0 ∧ t.get F.BAR_STATUS_BEAT = s.chip.beatNext.beat % 4)) ∧
    (s.chip.tile.sched.known = true → s.chip.tile.sched.heard = false → s.chip.tile.sched.missed = false →
      Completes .dbMissing s (fun t => t.pend E.DB_MISSING = true ∧ t.tile.sched.missed = true ∧ t.tile.sched.good = 0 ∧
        t.on F.BAR_STATUS_LOCK = false ∧
        (s.chip.tileState = tsLocked ∨ s.chip.tileState = tsSlew → t.tileState = tsFlywheel ∧ t.raw E.FLYWHEEL = true ∧
          t.tile.sched.offset33 = 0 ∧ t.tile.sched.base33 = s.chip.tile.sched.actual33.toNat))) ∧
    (s.chip.tileState = tsFlywheel → s.chip.get F.TILERX_HOLD_FLY_BARS ≠ 0xFFFF → s.chip.get F.TILERX_HOLD_FLY_BARS ≤ s.chip.tile.sched.flyBars →
      Completes .flyBarsExpire s (fun t => t = s.chip.setSched { s.chip.tile.sched with flyHold := true }))

/-- The arithmetic of light: a lamp's levels and what its flag selects, the level of a new emitter at full output, the temperature factor within
its stored values, gains within 1.00 to 1.25, a dither that takes each value once in 256 bars, the share of every run of passes, a full-scale level
that fills every window, and a PWM scale never above 1.0. -/
def Obligations.ArithmeticOfLight : Prop :=
  (∀ (f : Nat) (lin : List Nat) (cm : Nat → Nat → Int) (tg ag : Nat → Nat) (ageEn : Bool) (hr : Nat),
    (lampLevels f lin cm tg ag ageEn hr).length = 3 ∧ ∀ v ∈ lampLevels f lin cm tg ag ageEn hr, v ≤ 65535) ∧
  (∀ hr : Nat, hr ≤ 8192 →
    lampLevels 0 [65536, 65536, 65536] uniformCm (fun _ => 16384) (fun _ => 32768) true hr = List.replicate 3 (min (khOf hr) 65535)) ∧
  (∀ (c : Chip) (cfg : TileCfg) (eng lamp slot : Nat),
    (slot / 2 ^ 30 % 4 = 3 → c.lampValue cfg eng lamp slot = (none, c)) ∧ (slot / 2 ^ 30 % 4 = 2 → c.lampValue cfg eng lamp slot = (some [0, 0, 0], c))) ∧
  (∀ (g : Nat → Nat) (t : Int), (t ≤ -320 → tempFactor g t = g 0) ∧ (1360 ≤ t → tempFactor g t = g 3) ∧
    ∀ a b : Nat, (∀ i, i < 4 → a ≤ g i ∧ g i ≤ b) → a ≤ tempFactor g t ∧ tempFactor g t ≤ b) ∧
  (∀ (dose lum : Nat → Nat) (d : Nat), 32768 ≤ ageingGain dose lum d ∧ ageingGain dose lum d ≤ 40960) ∧
  (∀ b e d : Nat, d < 256 → ∃ i, i < 256 ∧ dither (b + i) e = d ∧ ∀ j, j < 256 → dither (b + j) e = d → j = i) ∧
  (∀ (spl : Nat → Nat) (l w p sc d a k : Nat), 0 < p → a + k ≤ p →
    let t := (pwmTotal spl l w p sc + d) / 256
    let sum := ((List.range k).map (fun i => pwmOn spl l w p sc d (a + i))).sum
    2 * p ≤ t → p * sum < k * t + p ∧ k * t < p * sum + p) ∧
  (∀ (spl : Nat → Nat) (w p d k : Nat), 4 ≤ w → 0 < p → d < 256 → k < p → pwmOn spl 65535 w p 65536 d k = w) ∧
  (∀ b bx : Nat, (dimOf b bx).2 ≤ 65536)

/-- An engine that carries lamps takes the head of the receive queue and counts it, the other takes nothing; an image whose cells are written
completes and is the newest of its feed; a pass begins, and one that waited goes on with the image in time or with the one shown before. Shown to
complete: pixelCellProcess, imageComplete, passBoundary, passWaitEnd. -/
def Obligations.ImagesAndPasses : Prop :=
  ∀ (s : State), Runs s → s.chip.build = .T →
    (∀ e u q l, s.chip.tile.rxq = q :: l →
      Completes (.pixelCellProcess e u) s (fun t =>
        if s.chip.lampEngine e = false then t = s.chip
        else t.tile.rxq = l ∧ t.tile.newest = s.chip.tile.newest ∧
          t.get (F.MAP_STATUS_TASKS.pg (e % 2)) = (s.chip.get (F.MAP_STATUS_TASKS.pg (e % 2)) + 1) % 65536 ∧
          t.get (F.MAP_SAMPLES_COUNT.pg (e % 2)) = (s.chip.get (F.MAP_SAMPLES_COUNT.pg (e % 2)) + s.chip.cellLamps q) % 2 ^ 32 ∧
          (u = [] → cellHold q.cell = true → cellLast q.cell = false → t.tile = { s.chip.tile with rxq := l } ∧ t.mem = s.chip.mem))) ∧
    (∀ ps x, s.chip.tile.images = [x] → x.phase = 1 → s.chip.tile.rxq = [] →
      Completes (.imageComplete ps) s (fun t => smFind t.tile.newest x.feed = some x.serial ∧
        (∃ y, t.tile.images = [y] ∧ y.serial = x.serial ∧ y.phase = 2 ∧ y.done33 = max s.chip.tile.sched.now33 (33 * ps)) ∧
        t.get F.TILERX_IMAGES_COUNT = (s.chip.get F.TILERX_IMAGES_COUNT + 1) % 2 ^ 32)) ∧
    (s.chip.passReady = true →
      Completes .passBoundary s (fun t => t.tile.sched.index = s.chip.tile.sched.index + 1 ∧ t.tile.sched.row = 0 ∧
        t.get F.DRIVECTL_PASS_COUNT_COUNT = (s.chip.get F.DRIVECTL_PASS_COUNT_COUNT + 1) % 2 ^ 32 ∧
        (s.chip.tile.sched.index = 0 → t.tile.sched.start33 = s.chip.tile.sched.start33 + s.chip.tile.sched.gapSteps * step33) ∧
        t.on F.TILERX_STATUS_WAITING = t.tile.sched.waiting)) ∧
    (s.chip.tile.sched.waiting = true →
      Completes .passWaitEnd s (fun t => t.tile.sched.waiting = false ∧ t.on F.TILERX_STATUS_WAITING = false ∧
        let lit := s.chip.litImage s.chip.tile.sched.feed s.chip.tile.sched.bar s.chip.tile.sched.beat
        if lit.any (fun x => decide (x.phase = 2) && decide (x.done33 ≤ s.chip.tile.sched.start33 + s.chip.slack33)) then
          t.tile.sched.image = lit.map (·.serial)
        else t.tile.sched.image = s.chip.tile.sched.image ∧ t.tile.sched.waited33 = s.chip.slack33))

/-- Temperature factors follow the band temperatures; a holding image is prepared and shown from the next beat; the ended bar's dose is taken once,
added to every counter of a good bank with its dither (R247), saturating; flushed counters go to the dose store; the gain table changes over, or
waits for a build that uses it; the tables are written and read through their windows, MARGIN_MIN is cleared. Shown to complete: tileTempFactor,
holdImagePrepare, holdImageReady, doseUpdate, doseFlush, ageingGainUpdate, eotfTabData, tcData, marginMinClr. -/
def Obligations.TileTables : Prop :=
  ∀ (s : State), Runs s → s.chip.build = .T →
    Completes .tileTempFactor s (fun t => ∀ n k, n < 4 → k < 3 →
      smGet 16384 t.tile.tg (3 * n + k) = tempFactor (fun i => smGet 16384 s.chip.tile.tcUse ((3 * n + k) * 4 + i)) (s.chip.bandTemp n).1 ∧
      t.get (F.CORRECT_BAND_TEMP_TJ.plus (4 * n)) = unsign 16 (s.chip.bandTemp n).1) ∧
    (s.chip.runs pgTilerx = true → s.chip.belfryUp = true →
      Completes .holdImagePrepare s (fun t =>
        let r := (s.chip.holdBytes (s.chip.use F.TILERX_HOLD_IMAGE) (4 * s.chip.lamps)).1
        if r.isNone then t.tile.hold = none ∧ t.tile.holdNext = none
        else if r.any (·.2) then t.tile.holdNext = none
        else ∃ b, t.tile.holdNext = some { image := s.chip.use F.TILERX_HOLD_IMAGE, buf := b, ready := false })) ∧
    (∀ h, s.chip.tile.holdNext = some h →
      Completes .holdImageReady s (fun t => t = s.chip.setTile { s.chip.tile with holdNext := some { h with ready := true } })) ∧
    (∀ x, s.chip.drive.doseEnded = some x →
      Completes .doseUpdate s (fun t => t.drive.doseEnded = none ∧ (s.chip.on F.DOSE_CTRL_DOSE_EN = false → t.mem = s.chip.mem ∧ t.regs = s.chip.regs) ∧
        (s.chip.on F.DOSE_CTRL_DOSE_EN = true → s.chip.ownsBank 5 mTile = true → s.chip.ownerToBe 5 mTile = false → s.chip.flipArmed (bankPage 5) = false →
          (s.chip.bank 5).wild = none → (s.chip.bank 5).merge = [] → (∀ k, bankOf k = 5 → s.chip.sramSyn k = 0) →
          ∀ e, e < 3 * s.chip.lamps →
            (t.tileRead 5 (4 * e) 4 doseRec).1 =
              (leBytes 4 (min 0xFFFFFFFF (ofLe (s.chip.tileRead 5 (4 * e) 4 doseRec).1.1 + doseInc (smGet 0 x.2 e) (dither x.1 e))), false)))) ∧
    (s.chip.belfryUp = true →
      Completes .doseFlush s (fun t => t.get F.DOSE_STATUS_FLUSH_AGE = 0 ∧ (arDose, 0) ∈ t.belfry.journal) ∧
      (s.chip.on F.DOSE_STATUS_OLD_BUSY = false → Calm s.chip →
        Completes .ageingGainUpdate s (fun t => t.get F.DOSE_CTRL_GAIN_SEL = 1 - s.chip.use F.DOSE_CTRL_GAIN_SEL)) ∧
      (s.chip.on F.DOSE_STATUS_OLD_BUSY = true →
        Completes .ageingGainUpdate s (fun t => t = s.chip.setBelfry { s.chip.belfry with gainDue := true }))) ∧
    (∀ (o : Origin) (w : Word), Calm s.chip →
      (s.chip.get F.EOTF_TAB_ADDR_INDEX < 3072 →
        Completes (.eotfTabData o (some w)) s (fun t => smGet 0 t.tile.eotf (s.chip.get F.EOTF_TAB_ADDR_INDEX) = bitsOf w 19 0 ∧
          t.tile.eotfUse = s.chip.tile.eotfUse ∧
          t.get F.EOTF_TAB_ADDR_INDEX = s.chip.get F.EOTF_TAB_ADDR_INDEX + b2n (s.chip.on F.EOTF_TAB_ADDR_AUTO_INC))) ∧
      Completes (.eotfTabData o none) s (fun t => t.tile = s.chip.tile ∧
        t.get F.EOTF_TAB_ADDR_INDEX = (s.chip.get F.EOTF_TAB_ADDR_INDEX + b2n (s.chip.on F.EOTF_TAB_ADDR_AUTO_INC)) % 4096) ∧
      (s.chip.get F.CORRECT_TC_ADDR_INDEX < 48 →
        Completes (.tcData o (some w)) s (fun t => smGet 16384 t.tile.tc (s.chip.get F.CORRECT_TC_ADDR_INDEX) = bitsOf w 15 0 ∧
          t.tile.tcUse = s.chip.tile.tcUse ∧
          t.get F.CORRECT_TC_ADDR_INDEX = s.chip.get F.CORRECT_TC_ADDR_INDEX + b2n (s.chip.on F.CORRECT_TC_ADDR_AUTO_INC))) ∧
      Completes (.tcData o none) s (fun t => t.tile = s.chip.tile ∧
        t.get F.CORRECT_TC_ADDR_INDEX = (s.chip.get F.CORRECT_TC_ADDR_INDEX + b2n (s.chip.on F.CORRECT_TC_ADDR_AUTO_INC)) % 64) ∧
      Completes (.marginMinClr o) s (fun t => t.get F.TILERX_MARGIN_MIN_US = 0x7FFF))

/-! ### LED drive (spec/10_led_drive.md) -/

/-- A row slot lights the next row of the pass in every band that carries it, clamp and dead time first, the row selected when its clamp ends and
released at the slot's end, and no sink goes above 0.985 of the current ceiling; a drive that does not run only counts the row; a band whose link
word is bad sinks nothing and is reported. Shown to complete: rowSlotStart. -/
def Obligations.RowSlotsWithinTheCeiling : Prop :=
  ∀ (s : State) (link volts : List (Nat × Nat)), Runs s → s.chip.build = .T →
    Completes (.rowSlotStart link volts) s (fun t =>
      (∃ l, t.out = s.chip.out ++ l ∧ ∀ o ∈ l, lightWithin (985 * s.chip.ceiling) o = true) ∧ t.ceiling = s.chip.ceiling ∧
      (s.chip.tile.sched.waiting = false → s.chip.tile.sched.index ≠ 0 → s.chip.tile.sched.row < s.chip.geoRows →
        t.tile.sched.row = s.chip.tile.sched.row + 1 ∧
        (s.chip.driveState ≠ dvRun → t = s.chip.setSched { s.chip.tile.sched with row := s.chip.tile.sched.row + 1 }) ∧
        (s.chip.driveState = dvRun → ∀ n ∈ linkBad link, n < s.chip.geoBands →
          t.pend E.DRIVE_LINK = true ∧ ∀ l o, t.out = s.chip.out ++ l → o ∈ l → ∀ r cl cs ds ps, o = .light n r cl cs ds ps → ps = []) ∧
        (s.chip.passLit ≠ none → s.chip.rst.extest = false → ∀ n, n < s.chip.geoBands → s.chip.tile.sched.skip.getD n false = false →
          ∃ ps, .light n s.chip.tile.sched.row (s.chip.clampLevel n) (s.chip.bandClamp n).1 (s.chip.bandClamp n).2 ps ∈ t.out ∧
            .gate n s.chip.tile.sched.row true (s.chip.bandClamp n).1 ∈ t.out ∧ .gate n s.chip.tile.sched.row false s.chip.tile.sched.slotSteps ∈ t.out)))

/-- A neighbour slot runs in the slack of a pass, where that is long enough, or moves on; a sink's measurement is kept and the next sink is
measured; codes in use are interpolated; FADE.GO takes the targets, DIAG.CLEAR is due, and the windows of the drive read and write their tables.
Shown to complete: neighbourSlot, trimMeasureDone, trimInterpolate, fadeGo, diagClear, splData, trimData, diagTabData. -/
def Obligations.DriveUpkeep : Prop :=
  ∀ (s : State), Runs s → s.chip.build = .T →
    (∀ falls, s.chip.drive.slotDue = true → s.chip.driveState = dvRun → s.chip.on F.DIAG_CTRL_NEIGHBOUR_EN = true →
      Completes (.neighbourSlot falls) s (fun t =>
        if s.chip.inSlack = false then t = s.chip
        else if 2048 ≤ s.chip.slackLeft then t.drive.slotDue = false ∧ t.drive.slotMoves = 0 ∧
          (s.chip.rst.extest = false → ∀ n, n < s.chip.geoBands → .neighbour n (s.chip.clampLevel n) [1, 3, 0, 2] ∈ t.out)
        else if s.chip.drive.slotMoves < 63 then t = s.chip.setDrive { s.chip.drive with slotMoves := s.chip.drive.slotMoves + 1 }
        else t.drive.slotMoves = 0 ∧ t.drive.slotDue = true ∧ t.pend E.DIAG_SLOT_SKIP = true)) ∧
    (∀ n r, n < 4 → s.chip.on (F.BAND_TRIM_CTRL_AUTO.pg n) = true → s.chip.driveState = dvRun →
      let ch := smGet 0 s.chip.drive.trimCh n
      Completes (.trimMeasureDone n r) s (fun t => smGet 0 t.drive.resid (576 * n + ch) = unsign 8 (max (-128) (min 127 r)) ∧
        smGet 0 t.drive.trimCh n = (ch + 1) % 576 ∧ (-2 ≤ r → r ≤ 2 → t.drive.trim = s.chip.drive.trim) ∧ t.drive.trimUse = s.chip.drive.trimUse)) ∧
    Completes .trimInterpolate s (fun t => t.drive.trimUse = s.chip.drive.trimUse ∧ ∀ n ch, n < 4 → ch < 576 →
      smGet 0 t.drive.trimNext (576 * n + ch) = unsign 6 (s.chip.trimInterp n ch (s.chip.bandTemp n).1)) ∧
    (∀ (o : Origin) (w : Word), Calm s.chip →
      Completes (.fadeGo o w) s (fun t => t.get F.DRIVECTL_FADE_BUSY = 1 ∧ ∃ f, t.drive.fade = some f ∧ f.taken = 0 ∧
        f.total = (if bitsOf w 15 0 = 0 then 1 else bitsOf w 15 0 * s.chip.passesPerBar) ∧ f.curve = bitsOf w 17 16 % 3 ∧
        f.from3 = [0, 1, 2].map (fun k => s.chip.get (bNowFld k)) ∧
        f.to3 = [0, 1, 2].map (fun k => s.chip.get (F.DRIVECTL_DIM_TARGET_R_B.plus (4 * k)))) ∧
      Completes (.diagClear o) s (fun t => t.drive.clear = true ∧ t.get F.DIAG_CTRL_CLEAR = 1 ∧ t.drive.diag = s.chip.drive.diag) ∧
      (s.chip.get splIdx < 192 →
        Completes (.splData o (some w)) s (fun t => smGet 0 t.drive.spl (s.chip.get splIdx) = min 2047 w.toNat ∧ t.drive.splUse = s.chip.drive.splUse ∧
          t.get splIdx = s.chip.get splIdx + b2n (s.chip.on F.DRIVECTL_SPL_ADDR_AUTO_INC))) ∧
      Completes (.splData o none) s (fun t => t.drive = s.chip.drive ∧
        t.get splIdx = (s.chip.get splIdx + b2n (s.chip.on F.DRIVECTL_SPL_ADDR_AUTO_INC)) % 256) ∧
      (∀ n, n < 4 → s.chip.get (F.BAND_TRIM_ADDR_CH.pg n) < 576 → s.chip.on (F.BAND_TRIM_ADDR_IN_USE.pg n) = false →
        Completes (.trimData o n (some w)) s (fun t =>
          smGet 0 t.drive.trim (trimKey n (s.chip.get (F.BAND_TRIM_ADDR_SET.pg n)) (s.chip.get (F.BAND_TRIM_ADDR_CH.pg n))) = bitsOf w 5 0 ∧
          t.drive.trimUse = s.chip.drive.trimUse)) ∧
      (∀ n, n < 4 → Completes (.trimData o n none) s (fun t => t.drive = s.chip.drive ∧
        let ch := s.chip.get (F.BAND_TRIM_ADDR_CH.pg n)
        t.get (F.BAND_TRIM_ADDR_CH.pg n) =
          (if s.chip.on (F.BAND_TRIM_ADDR_AUTO_INC.pg n) then (if ch = 575 then 0 else ch + 1) % 1024 else ch)))) ∧
    (∀ (o : Origin), s.chip.pathsOpen = true → pgDiag ∉ s.chip.unpredictable → smFind s.chip.host.latches (latchKey o F.DIAG_TAB_DATA_STATE.addr) = none →
      Completes (.diagTabData o) s (fun t => .readData o F.DIAG_TAB_DATA_STATE.addr s.chip.diagRead.toNat ∈ t.out ∧
        t.get F.DIAG_TAB_ADDR_E = (s.chip.get F.DIAG_TAB_ADDR_E + b2n (s.chip.on F.DIAG_TAB_ADDR_AUTO_INC)) % 2 ^ 18 ∧ t.drive = s.chip.drive))

/-! ### Redundant operation (spec/11_redundant_operation.md) -/

/-- The clapper: a unit that loses the interlock is no longer ACTIVE; it claims when it may; the claim window ends, and with it a set in part;
contention is left by slot 1; a SOLO unit asserts its line; RELEASED is entered and left by command. Shown to complete: clapPeerChange, claim,
claimComplete, contendRelease, soloAssert, forceRelease, clearRelease. -/
def Obligations.ClapperAndUnitStates : Prop :=
  ∀ (s : State), Runs s → s.chip.build = .S →
    (∀ level : Bool, Completes (.clapPeerChange level) s (fun t => t.redun.peer = level ∧
      (s.chip.redun.peer ≠ level → t.on F.REDUN_STATUS_PEER = level ∧
        (level = true → t.actBit = false ∧ (s.chip.actBit = true → t.pend E.CLAP_LOST = true ∧ t.on F.REDUN_STATUS_ACTIVE = false) ∧
          (s.chip.redun.own = true → t.pend E.CLAP_CONTEND = true))))) ∧
    (s.chip.mayClaim = true →
      Completes .claim s (fun t => t.unitState = rsClaiming ∧ t.redun.own = true ∧ t.redun.window = true ∧ t.redun.claimed = false ∧
        (s.chip.rst.extest = false → t.out = s.chip.out ++ [.clapOwn true]))) ∧
    (s.chip.redun.window = true → s.chip.redun.own = true → s.chip.redun.peer = false →
      Completes .claimComplete s (fun t => t.redun.window = false ∧ t.redun.claimed = true ∧ t.setPartial = false ∧
        (s.chip.setPartial = true → t.pend E.MIRROR_FAIL = true) ∧
        (s.chip.redun.fromSync = true → s.chip.mirror.synced = false → t.pend E.MIRROR_STALE = true))) ∧
    (s.chip.redun.own = true → s.chip.redun.peer = true → s.chip.pairSlot = 1 →
      Completes .contendRelease s (fun t => t.redun.own = false ∧ t.on F.REDUN_STATUS_OWN = false ∧ t.actBit = false ∧
        t.unitState = (if s.chip.en pgRedun then (if s.chip.mirror.whole then rsStandby else rsSyncing) else rsSolo))) ∧
    (s.chip.unitState = rsSolo → s.chip.redun.peer = false → s.chip.redun.own = false → s.chip.aon.knell = none →
      Completes .soloAssert s (fun t => t.redun.own = true ∧ t.on F.REDUN_STATUS_OWN = true ∧ t.unitState = rsSolo)) ∧
    (∀ o : Origin, Calm s.chip →
      Completes (.forceRelease o) s (fun t => t.redun.own = false ∧ t.unitState = rsReleased) ∧
      (s.chip.unitState = rsReleased →
        Completes (.clearRelease o) s (fun t => t.redun.own = s.chip.redun.own ∧
          t.unitState = (if s.chip.en pgRedun then (if s.chip.mirror.whole then rsStandby else rsSyncing) else rsSolo))))

/-- Tolls and the sideband: heartbeats are numbered, taken when newer and missed into failure; a frame that is not valid is counted; BEAT frames
missed end the copying; an ECHO request is out until it is answered. Shown to complete: sidebandFrameReceive, beatFrameMiss, tollSend,
heartbeatReceive, tollMiss, sidebandEchoSend. -/
def Obligations.TollsAndSideband : Prop :=
  ∀ (s : State), Runs s → s.chip.build = .S →
    (∀ (bytes : List Byte) (ns interval measured : Nat),
      (sbParse bytes = none →
        Completes (.sidebandFrameReceive bytes ns interval measured) s (fun t =>
          t.get F.REDUN_TOLL_CRC_COUNT = min 0xFFFFFFFF (s.chip.get F.REDUN_TOLL_CRC_COUNT + 1) ∧ OnlyRegs [F.REDUN_TOLL_CRC_COUNT.addr] s.chip t)) ∧
      (∀ payload, sbParse bytes = some (1, payload) →
        exec (.sidebandFrameReceive bytes ns interval measured) s =
          exec (.heartbeatReceive false (ofLe (slice payload 0 4)) (ofLe (slice payload 8 1)) (ofLe (slice payload 9 1) % 2)) s) ∧
      (∀ payload, sbParse bytes = some (5, payload) → s.chip.actBit = true →
        Completes (.sidebandFrameReceive bytes ns interval measured) s (fun t => t = s.chip.setMirror { s.chip.mirror with fullDue := true }))) ∧
    (s.chip.pairFollower = true → s.chip.bar.running = true → s.chip.bar.everCopied = true → s.chip.bar.copying = true → Calm s.chip →
      Completes .beatFrameMiss s (fun t => t.bar.copying = false ∧ t.on F.STACK_STATUS_LOCK = false ∧ t.on F.REDUN_STATUS_PAIR_LOCK = false)) ∧
    (s.chip.en pgRedun = true →
      Completes .tollSend s (fun t => t.redun.tollSeq = (s.chip.redun.tollSeq + 1) % 2 ^ 32 ∧
        (s.chip.rst.extest = false →
          .sideband (sbFrame 1 (leBytes 4 s.chip.redun.tollSeq ++ leBytes 4 s.chip.tollEpoch ++ leBytes 1 s.chip.unitState ++ leBytes 1 s.chip.pairSlot)) ∈ t.out)) ∧
      (∀ (ring : Bool) (seq state slot : Nat), seq < 2 ^ 32 →
        let p := if ring then s.chip.redun.ring else s.chip.redun.sideband
        Completes (.heartbeatReceive ring seq state slot) s (fun t =>
          if slot % 2 ≠ s.chip.pairSlot ∧ p.takes seq state = true then
            (if ring then t.redun.ring else t.redun.sideband) = { last := some seq, misses := 0, failed := false, peerState := state } ∧
              t.get F.REDUN_PEER_SEQ_SEQ = seq
          else t = s.chip)) ∧
      (∀ ring : Bool,
        let p := if ring then s.chip.redun.ring else s.chip.redun.sideband
        Completes (.tollMiss ring) s (fun t =>
          (if ring then t.redun.ring else t.redun.sideband) = { p with misses := p.misses + 1, failed := p.failed || decide (s.chip.missLimit ≤ p.misses + 1) } ∧
          (if ring then t.redun.sideband = s.chip.redun.sideband else t.redun.ring = s.chip.redun.ring) ∧
          t.raw E.PEER_FAIL = (t.redun.sideband.failed && t.redun.ring.failed))) ∧
      Completes .sidebandEchoSend s (fun t => t.redun.echoOut = some s.chip.redun.echoSeq ∧ t.redun.echoSeq = (s.chip.redun.echoSeq + 1) % 256 ∧
        (s.chip.rst.extest = false → t.out = s.chip.out ++ [.sideband (sbFrame 3 (leBytes 1 s.chip.redun.echoSeq ++ leBytes 1 0 ++ leBytes 4 0))])))

/-- Mirror epochs: one starts with the next number while none is being sent, and is committed when it has gone; complete sets are applied together
by a unit that is not active, in their order: the register records are written with origin MIRROR and the pages they touch committed, the DRAM
records copied into place, and the launch queue replaced but for entries already due (R293). A REG record of shadowed registers stands in their
shadows, and its page's commit waits for its reference or is taken. The apply is acknowledged by a frame of type 6 (R284). An epoch whose first
frame is lost, or a frame too late, discards the set in progress. Shown to complete: epochStart, mirrorSent, mirrorCmdFull, setApply,
mirrorApplied, sidebandFrameReceive, epochFrameLate. -/
def Obligations.MirrorEpochs : Prop :=
  ∀ (s : State), Runs s → s.chip.build = .S →
    (s.chip.runs pgMirror = true → s.chip.en pgRedun = true → s.chip.actBit = true → s.chip.mirror.sending = none →
      Completes .epochStart s (fun t => t.mirror.epoch = (s.chip.mirror.epoch + 1) % 2 ^ 32 ∧ t.mirror.sending = some t.mirror.epoch ∧
        t.get F.MIRROR_STATUS_SENDING = 1)) ∧
    (∀ n, s.chip.mirror.sending = some n →
      Completes .mirrorSent s (fun t => t.mirror.sending = none ∧ t.get F.MIRROR_EPOCH_SENT_SENT = n % 2 ^ 32 ∧ t.get F.MIRROR_STATUS_SENDING = 0 ∧
        t.pend E.MIRROR_SENT = true)) ∧
    (∀ o : Origin, Calm s.chip →
      Completes (.mirrorCmdFull o) s (fun t =>
        if s.chip.actBit then t.mirror = { s.chip.mirror with fullDue := true }
        else t.mirror = s.chip.mirror ∧ (s.chip.runs pgMirror = true → s.chip.rst.extest = false → .sideband (sbFrame 5 []) ∈ t.out))) ∧
    (∀ l x, s.chip.mirror.ready = l ++ [x] → s.chip.actBit = false → s.chip.mirror.applying = none →
      Completes .setApply s (fun t => t.mirror.ready = [] ∧ t.mirror.applying = some x.num ∧ t.mirror.applyFull = (l ++ [x]).any (·.full) ∧
        t.mirror.synced = true ∧ t.get F.MIRROR_STATUS_APPLYING = 1 ∧ t.mirror.epoch = x.num ∧ t.mirror.snapshot = x.snapshot ∧
        (let c := (l ++ [x]).foldl (fun c y => c.applySet Chip.mirrorWrites y) s.chip
         t.mem = c.mem ∧ t.launchQ = c.launchQ ∧ t.inUse = c.inUse ∧ ∀ a, a ≠ F.MIRROR_STATUS_APPLYING.addr → t.rd a = c.rd a) ∧
        ∀ bytes, l = [] → s.chip.stageRead x.half 0 x.len = ((bytes, false), s.chip) →
          let items := setItems x.len bytes
          let w := Chip.mirrorWrites (items.filter (fun i => i.typ = 1 || i.typ = 2)) s.chip
          t.mem = ((items.filter (fun i => i.typ = 3)).foldl (fun c i => c.dramWrite dmBelfry (4096 * i.addr) i.payload) w).mem ∧
          t.launchQ = (match (items.filter (fun i => i.typ = 4)).getLast? with
            | some i => (i.entries.filter (fun e => !launchDue w.timeNs e)).take 64
            | none => w.launchQ) ∧
          (∀ r pg, Calm s.chip → (∀ i ∈ items, i.typ ≠ 3) → items.filter (fun i => i.typ = 1 || i.typ = 2) = [r] → r.typ = 1 → 0 < r.count →
            s.chip.hasPage pg = true → ctrlAbsent pg = false → (s.chip.on (F.SRST.pg pg) = false ∨ srstInert pg = true) →
            (∀ k, k < r.count → (r.addr + 4 * k) % 4 = 0 ∧ 0x40 ≤ (r.addr + 4 * k) % 4096 ∧ (r.addr + 4 * k) / 4096 = pg ∧
              unstored (r.addr + 4 * k) = false ∧ r.addr + 4 * k ≠ F.RESET_SERVICE_PWM8.addr ∧ ∃ d, regAt .S (r.addr + 4 * k) = .reg d ∧ d.shadowed = true) →
            let waits := s.chip.refRuns (pageRef .S pg)
            t.get (F.COMMIT.pg pg) = b2n waits ∧ (waits = true → t.inUse = s.chip.inUse) ∧
            ∀ k d, k < r.count → regAt .S (r.addr + 4 * k) = .reg d →
              (if waits then t.rd (r.addr + 4 * k) else t.rdUse (r.addr + 4 * k)) =
                d.store (s.chip.rd (r.addr + 4 * k)) (BitVec.ofNat 32 (ofLe (slice r.payload (4 * k) 4)))))) ∧
    (∀ n, s.chip.mirror.applying = some n →
      Completes .mirrorApplied s (fun t => t.mirror.applying = none ∧ t.get F.MIRROR_EPOCH_APPLIED_APPLIED = n % 2 ^ 32 ∧
        t.on F.MIRROR_STATUS_SYNCED = true ∧ t.mirror.synced = true ∧ t.mirror.whole = (s.chip.mirror.whole || s.chip.mirror.applyFull) ∧
        t.get F.MIRROR_STATUS_APPLYING = 0 ∧ t.pend E.MIRROR_APPLIED = true ∧
        (s.chip.rst.extest = false → .sideband (sbFrame 6 (leBytes 4 n)) ∈ t.out) ∧ t.launchQ = s.chip.launchQ ∧ t.mem = s.chip.mem ∧
        t.unitState = (if s.chip.unitState = rsSyncing ∧ (s.chip.mirror.whole || s.chip.mirror.applyFull) = true then rsStandby else s.chip.unitState))) ∧
    (∀ (bytes payload : List Byte) (ns interval measured : Nat), sbParse bytes = some (4, payload) → s.chip.runs pgMirror = true → s.chip.actBit = false →
      s.chip.unitState ≠ rsSolo → s.chip.mirror.rxNum = none → s.chip.mirror.rxDrop = none → ofLe (slice payload 4 4) ≠ 0 →
      Completes (.sidebandFrameReceive bytes ns interval measured) s (fun t => t.mirror.setLen = 0 ∧ t.mirror.rxDrop = some (ofLe (slice payload 0 4)) ∧
        t.pend E.MIRROR_FAIL = true)) ∧
    (s.chip.setPartial = true →
      Completes .epochFrameLate s (fun t => t.mirror.rxNum = none ∧ t.mirror.setLen = 0 ∧ t.mirror.ready = s.chip.mirror.ready ∧ t.pend E.MIRROR_FAIL = true ∧
        t.get F.MIRROR_FAIL_COUNT_COUNT = min 0xFFFFFFFF (s.chip.get F.MIRROR_FAIL_COUNT_COUNT + 1) ∧
        (s.chip.unitState = rsStandby → t.unitState = rsSyncing)))

/-! ### On-chip memory and the 128-bit code (spec/12_memory_ecc.md) -/

/-- The code of the memories (R311): the columns of the data bits are the nine-bit values of weight 3 and the first of weight 5, in ascending
order; check bits and syndrome are the XOR of columns; a reader decodes the syndrome by them. So a word as written is clean, one bit in error of
the 137 is corrected, two are found and never corrected into another word, and a word stored as poisoned is poison. -/
def Obligations.MemoryCode : Prop :=
  (let weight := fun n : Nat => (List.range 9).countP (fun i => n.testBit i)
   eccColumns.map BitVec.toNat = (List.range 512).filter (fun n => weight n = 3) ++ ((List.range 512).filter (fun n => weight n = 5)).take 44) ∧
  (∀ (d : Word128) (i : Nat), i < 9 →
    (eccCheck d).getLsbD i = decide ((List.range 128).countP (fun j => d.getLsbD j && (eccColumns.getD j 0).getLsbD i) % 2 = 1)) ∧
  (∀ (d : Word128) (check : BitVec 9),
    let s := eccSyndrome d check
    s = eccCheck d ^^^ check ∧
    (s = 0 → eccDecode d check = .clean) ∧ (s = 0x1FF → eccDecode d check = .poison) ∧
    (∀ j, j < 128 → s = eccColumns.getD j 0 → eccDecode d check = .corrected (d ^^^ ((1 : Word128) <<< j)) j) ∧
    (∀ i, i < 9 → s = (1 : BitVec 9) <<< i → eccDecode d check = .corrected d (128 + i)) ∧
    (s ≠ 0 → s ≠ 0x1FF → s ∉ eccColumns → (∀ i, i < 9 → s ≠ (1 : BitVec 9) <<< i) → eccDecode d check = .uncorrectable s)) ∧
  (∀ d : Word128,
    eccDecode d (eccCheck d) = .clean ∧ eccDecode d (eccPoison d) = .poison ∧
    (∀ i, i < 128 → eccDecode (d ^^^ ((1 : Word128) <<< i)) (eccCheck d) = .corrected d i) ∧
    (∀ i, i < 9 → eccDecode d (eccCheck d ^^^ ((1 : BitVec 9) <<< i)) = .corrected d (128 + i)) ∧
    (∀ i j, i < j → j < 128 → ∃ x, eccDecode (d ^^^ ((1 : Word128) <<< i) ^^^ ((1 : Word128) <<< j)) (eccCheck d) = .uncorrectable x) ∧
    (∀ i j, i < 128 → j < 9 → ∃ x, eccDecode (d ^^^ ((1 : Word128) <<< i)) (eccCheck d ^^^ ((1 : BitVec 9) <<< j)) = .uncorrectable x) ∧
    (∀ i j, i < j → j < 9 → ∃ x, eccDecode d (eccCheck d ^^^ ((1 : BitVec 9) <<< i) ^^^ ((1 : BitVec 9) <<< j)) = .uncorrectable x))

/-- A whole word written through the window by the owner is stored clean, and every other stored word stays; a partial write joins the merge
buffer, and a read of the word retires it first: the bytes written over the stored ones, with check bits of the new word (R310, R314). A master
that does not own the bank is denied; a host that is to own it stalls until the switch. A clean word reads as stored; poison is returned as poison
to USB4, and ends a load of the Belfry in a bus error. Shown to complete: sramWindowWrite, sramWindowRead. -/
def Obligations.SramWindow : Prop :=
  ∀ (s : State) (w : Nat), Runs s → w < 524288 → s.chip.on F.ECC_STATUS_SRAM_FILLED = true → s.chip.pathsOpen = true →
    (s.chip.bank (w / 65536)).wild = none →
    let b := w / 65536
    let k := s.chip.sramWord w
    (∀ bytes : List Byte, bytes.length = 16 →
      (s.chip.on (F.BANK_OWNER_HANDOVER.pg b) = false → (s.chip.bank b).owner = 1 → s.chip.flipArmed (bankPage (bankOf k)) = false →
        Completes (.sramWindowWrite (16 * w) (bytes.map some)) s (fun t =>
          t.sramData k = BitVec.ofNat 128 (ofLe bytes) ∧ t.sramSyn k = 0 ∧ t.sramWord w = k ∧
          (∀ j, j ≠ k → t.sramData j = s.chip.sramData j ∧ t.sramSyn j = s.chip.sramSyn j) ∧
          t.mem.belfry = s.chip.mem.belfry ∧ t.mem.dram = s.chip.mem.dram)) ∧
      (s.chip.on (F.BANK_OWNER_HANDOVER.pg b) = false → (s.chip.bank b).owner ≠ 1 →
        Completes (.sramWindowWrite (16 * w) (bytes.map some)) s (fun t => t.mem = s.chip.mem ∧ t.pend E.BANK_DENY = true)) ∧
      (s.chip.ownerToBe b 1 = true →
        Completes (.sramWindowWrite (16 * w) (bytes.map some)) s (fun t => t.mem.sram = s.chip.mem.sram ∧
          (t.bank b).stalled = (s.chip.bank b).stalled ++
            [{ master := 1, path := some .usb4, offset := 16 * w, bytes := bytes.map some, atomic := none }]))) ∧
    (∀ bytes : List (Option Byte), bytes.length = 16 → (∃ x ∈ bytes, x.isSome = true) → (∃ x ∈ bytes, x.isSome = false) →
      s.chip.on (F.BANK_OWNER_HANDOVER.pg b) = false → (s.chip.bank b).owner = 1 → (s.chip.bank b).merge = [] →
      Completes (.sramWindowWrite (16 * w) bytes) s (fun t => t.mem.sram = s.chip.mem.sram ∧ t.mem.sramSyn = s.chip.mem.sramSyn ∧
        t.get (F.BANK_STATUS_MERGE.pg b) = 1 ∧
        ∃ e, (t.bank b).merge = [e] ∧ e.word = w % 65536 ∧
          ∀ i, i < 16 → e.mask.testBit i = (bytes.getD i none).isSome ∧ ∀ v, bytes.getD i none = some v → e.data.extractLsb' (8 * i) 8 = v)) ∧
    (∀ o : Origin, s.chip.sramSyn k = 0 →
      ((s.chip.bank b).merge = [] →
        Completes (.sramWindowRead o (16 * w) 16) s (fun t =>
          t = { s.chip with out := s.chip.out ++ [.readData o (0x800000 + 16 * w) (ofLe (leBytes 16 (s.chip.sramData k).toNat))] })) ∧
      (∀ e, (s.chip.bank b).merge = [e] → e.word = w % 65536 → s.chip.flipArmed (bankPage (bankOf k)) = false →
        Completes (.sramWindowRead o (16 * w) 16) s (fun t => (t.bank b).merge = [] ∧
          t.sramData k = mergeBytes (s.chip.sramData k) e.data e.mask ∧ t.sramSyn k = 0 ∧
          .readData o (0x800000 + 16 * w) (ofLe (leBytes 16 (mergeBytes (s.chip.sramData k) e.data e.mask).toNat)) ∈ t.out))) ∧
    ((s.chip.bank b).merge = [] → s.chip.sramSyn k = 0x1FF →
      let data := ofLe (leBytes 16 (s.chip.sramData k).toNat)
      Completes (.sramWindowRead .usb4 (16 * w) 16) s (fun t => t = { s.chip with out := s.chip.out ++ [.readPoison .usb4 (0x800000 + 16 * w) data] }) ∧
      Completes (.sramWindowRead .belfry (16 * w) 16) s (fun t => t.pend E.BELFRY_BUS_ERR = true ∧
        .readData .belfry (0x800000 + 16 * w) data ∈ t.out ∧ t.mem = s.chip.mem))

/-- An owner write starts a handover, which takes the bank from its owner at once, and the switch gives it to the last owner written and serves
what stalled for it, as the requests of its master then are; an atomic of the owner or of the Belfry answers the old value and stores the new one,
one of another port is denied, one of the owner to be stalls; the oldest merge entry is retired into its word, corrected first, and a word that is
poison keeps its poison. Shown to complete: ownerWrite, handoverSwitch, atomicOp, mergeRetire. -/
def Obligations.BankOwnership : Prop :=
  ∀ (s : State) (b : Nat), Runs s → b < 8 →
    (∀ (o : Origin) (v : Nat), v < 8 → Calm s.chip → (∀ e ∈ (s.chip.bank b).merge, e.word < 65536) →
      Completes (.ownerWrite o b v) s (fun t => t.get (F.BANK_OWNER_OWNER.pg b) = v ∧ t.get (F.BANK_OWNER_HANDOVER.pg b) = 1 ∧
        (t.bank b).owner = 0 ∧ (t.bank b).merge = [] ∧ ∀ n, n ≠ b → t.bank n = s.chip.bank n)) ∧
    (s.chip.on (F.BANK_OWNER_HANDOVER.pg b) = true → s.chip.host.held = [] → s.chip.host.srpJob = none → s.chip.host.srpQ = [] →
      let new := s.chip.ownerCode (s.chip.get (F.BANK_OWNER_OWNER.pg b))
      Completes (.handoverSwitch b) s (fun t => (t.bank b).owner = new ∧ t.get (F.BANK_OWNER_HANDOVER.pg b) = 0 ∧ (t.bank b).stalled = [] ∧
        ((s.chip.bank b).stalled = [] → t.mem.sram = s.chip.mem.sram ∧ t.mem.sramSyn = s.chip.mem.sramSyn) ∧
        ∀ (r : SramReq) (w : Nat) (bytes : List Byte), (s.chip.bank b).stalled = [r] → bytes.length = 16 → w / 65536 = b → r.offset = 16 * w →
          r.bytes = bytes.map some → r.atomic = none → r.master ≠ 0 → (s.chip.bank b).wild = none → s.chip.flipArmed (bankPage b) = false →
          if r.master = new then t.sramData (s.chip.sramWord w) = BitVec.ofNat 128 (ofLe bytes) ∧ t.sramSyn (s.chip.sramWord w) = 0
          else t.mem.sram = s.chip.mem.sram ∧ t.pend E.BANK_DENY = true)) ∧
    (∀ (add : Bool) (offset size operand : Nat), size = 4 ∨ size = 8 → offset % size = 0 → offset / 1048576 = b →
      s.chip.on F.ECC_STATUS_SRAM_FILLED = true →
      let k := s.chip.sramWord (offset / 16)
      let lo := 8 * (offset % 16)
      let old := nbits (s.chip.sramData k).toNat (lo + 8 * size - 1) lo
      (∀ master, master ≠ (s.chip.bank b).owner ∨ master = 0 → s.chip.on (F.BANK_OWNER_HANDOVER.pg b) = false →
        Completes (.atomicOp false add master offset size operand) s (fun t => t.mem = s.chip.mem ∧ t.pend E.BANK_DENY = true ∧
          .memData master offset (leBytes size 0) true ∈ t.out)) ∧
      (∀ master, master ≠ 0 → s.chip.ownerToBe b master = true →
        Completes (.atomicOp false add master offset size operand) s (fun t => t.mem.sram = s.chip.mem.sram ∧ t.out = s.chip.out ∧
          (t.bank b).stalled = (s.chip.bank b).stalled ++
            [{ master := master, path := none, offset := offset, bytes := [], atomic := some (add, size, operand) }])) ∧
      (∀ (belfry : Bool) (master : Nat),
        belfry = true ∨ (master ≠ 0 ∧ (s.chip.bank b).owner = master ∧ s.chip.on (F.BANK_OWNER_HANDOVER.pg b) = false) →
        (s.chip.bank b).wild = none → (s.chip.bank b).merge = [] → s.chip.sramSyn k = 0 → s.chip.flipArmed (bankPage (bankOf k)) = false →
        Completes (.atomicOp belfry add master offset size operand) s (fun t =>
          t.out = s.chip.out ++ [.memData (if belfry then 2 else master) offset (leBytes size old) false] ∧
          nbits (t.sramData k).toNat (lo + 8 * size - 1) lo = (if add then (old + operand) % 2 ^ (8 * size) else operand % 2 ^ (8 * size)) ∧
          t.sramSyn k = 0 ∧ ∀ j, j ≠ k → t.sramData j = s.chip.sramData j))) ∧
    (∀ e l, (s.chip.bank b).merge = e :: l → e.word < 65536 → l.length < 8 → (s.chip.bank b).wild = none →
      let k := s.chip.sramWord (b * 65536 + e.word)
      s.chip.flipArmed (bankPage (bankOf k)) = false →
        Completes (.mergeRetire b) s (fun t => (t.bank b).merge = l ∧ t.get (F.BANK_STATUS_MERGE.pg b) = l.length ∧
          match eccBySyndrome (s.chip.sramData k) (s.chip.sramSyn k) with
          | .clean => t.sramData k = mergeBytes (s.chip.sramData k) e.data e.mask ∧ t.sramSyn k = 0
          | .corrected d _ => t.sramData k = mergeBytes d e.data e.mask ∧ t.sramSyn k = 0
          | _ => t.sramSyn k = if e.mask = 0xFFFF then 0 else 0x1FF))

/-- The scrubber corrects the word it reads, in a bank, in the Belfry SRAM or in DRAM; a new pass starts by command; a remap entry written is
copied before it redirects, one written while its copy is under way finds that copy done, so that no data is lost, and a second one of the same
word leaves its bank's content open; the copies of a word and of a row leave the spare what the original held; a split write needs the unlocked
debug path and stores data or check bits alone in each of the three memories; the fills leave the memories zero. Shown to complete: scrubRead,
scrubNow, bankRemapWrite, remapDone, dramRemapWrite, splitGo, sramFillDone, dramFillDone. -/
def Obligations.ScrubRemapAndFill : Prop :=
  ∀ (s : State), Runs s →
    (s.chip.on F.ECC_SCRUB_EN = true →
      (∀ m d x, m < 8 → m ∉ s.chip.mem.scrubDone →
        let i := smGet 0 s.chip.mem.scrubPos m
        let w := m * 65536 + i
        let k := s.chip.sramWord w
        i < 65536 → (s.chip.bank m).wild = none → (s.chip.bank m).merge = [] → s.chip.flipArmed (bankPage (bankOf k)) = false →
        eccBySyndrome (s.chip.sramData k) (s.chip.sramSyn k) = .corrected d x →
          Completes (.scrubRead m) s (fun t => t.sramData k = d ∧ t.sramSyn k = 0 ∧ t.pend E.SRAM_CE = true)) ∧
      (∀ d x, 8 ∉ s.chip.mem.scrubDone →
        let k := smGet 0 s.chip.mem.scrubPos 8
        k < 32768 → eccBySyndrome (memWord 0 s.chip.mem.belfry (16 * k)) (smGet 0 s.chip.mem.belfrySyn k) = .corrected d x →
          Completes (.scrubRead 8) s (fun t => memWord 0 t.mem.belfry (16 * k) = d ∧ smGet 0 t.mem.belfrySyn k = 0 ∧ t.pend E.BELFRY_MEM_CE = true)) ∧
      (∀ p d x, p < 4 → (9 + p) ∉ s.chip.mem.scrubDone → s.chip.scrubStalls (9 + p) = false → 0 < s.chip.scrubWords (9 + p) →
        let a := s.chip.scrubAddr p (smGet 0 s.chip.mem.scrubPos (9 + p))
        let k := (s.chip.dramKeys a).1
        a < s.chip.capacity → s.chip.state (dramPage (s.chip.dramLoc a).port) ≠ dsFailed → s.chip.flipArmed (dramPage (s.chip.dramLoc a).port) = false →
        (s.chip.dramKeys a).2 = [k] → (s.chip.dramPort (s.chip.dramKeyPort k)).wild = none → s.chip.dramSynOf k < 512 →
        eccBySyndrome (s.chip.dramData k) (s.chip.dramSynOf k) = .corrected d x →
          Completes (.scrubRead (9 + p)) s (fun t => t.dramData k = d ∧ t.dramSynOf k = 0 ∧ t.pend E.DRAM_CE = true))) ∧
    (∀ o : Origin, Calm s.chip → Completes (.scrubNow o) s (fun t => t.mem.scrubPos = [] ∧ t.mem.scrubDone = [] ∧ t.mem.sram = s.chip.mem.sram)) ∧
    (∀ (o : Origin) (b e : Nat) (w : Word), b < 8 → e < 8 → Calm s.chip →
      let r := s.chip.rd (bremapAddr b e)
      let word := b * 65536 + bitsOf r 15 0
      let spare := 524288 + 8 * b + e
      (r.getLsbD 30 = false → w.getLsbD 31 = true → r.getLsbD 31 = false →
        (∀ x, x < 8 → x ≠ e → (s.chip.rd (bremapAddr b x)).getLsbD 31 = false) →
        Completes (.bankRemapWrite o b e w) s (fun t => t.rd (bremapAddr b e) = BitVec.ofNat 32 (3 * 2 ^ 30 + bitsOf w 15 0) ∧ t.mem = s.chip.mem ∧
          t.get (F.BANK_STATUS_REMAP.pg b) = 2 ^ e)) ∧
      (r.getLsbD 30 = false → w.getLsbD 31 = false → r.getLsbD 31 = true →
        Completes (.bankRemapWrite o b e w) s (fun t => t.rd (bremapAddr b e) = BitVec.ofNat 32 (2 ^ 30 + bitsOf r 15 0) ∧ t.mem = s.chip.mem)) ∧
      (r.getLsbD 30 = true → w.getLsbD 31 = false → r.getLsbD 31 = true →
        (∀ x, x < 8 → x ≠ e → (s.chip.rd (bremapAddr b x)).getLsbD 31 = false ∧ (s.chip.rd (bremapAddr b x)).getLsbD 30 = false) →
        (s.chip.bank b).wild = none → (s.chip.bank b).merge = [] → s.chip.sramSyn word = 0 → s.chip.flipArmed (bankPage b) = false →
        Completes (.bankRemapWrite o b e w) s (fun t => t.rd (bremapAddr b e) = BitVec.ofNat 32 (2 ^ 30 + bitsOf r 15 0) ∧ t.sramWord word = spare ∧
          t.sramData spare = s.chip.sramData word ∧ t.sramSyn spare = 0)) ∧
      (∀ x, x < 8 → x ≠ e → r.getLsbD 30 = false → w.getLsbD 31 = true → (s.chip.rd (bremapAddr b x)).getLsbD 31 = true →
        bitsOf (s.chip.rd (bremapAddr b x)) 15 0 = bitsOf w 15 0 →
        Completes (.bankRemapWrite o b e w) s (fun t => (t.bank b).wild.isSome = true ∧ t.mem.sram = s.chip.mem.sram))) ∧
    (∀ b e, b < 8 → e < 8 →
      let r := s.chip.rd (bremapAddr b e)
      let w := b * 65536 + bitsOf r 15 0
      let spare := 524288 + 8 * b + e
      let src := if r.getLsbD 31 then w else spare
      let dst := if r.getLsbD 31 then spare else w
      r.getLsbD 30 = true → (s.chip.bank b).wild = none → (s.chip.bank b).merge = [] → s.chip.sramSyn src = 0 → s.chip.flipArmed (bankPage b) = false →
        Completes (.remapDone false b e) s (fun t => (t.rd (bremapAddr b e)).getLsbD 30 = false ∧
          (t.rd (bremapAddr b e)).getLsbD 31 = r.getLsbD 31 ∧ t.sramData dst = s.chip.sramData src ∧ t.sramSyn dst = 0 ∧ t.pend E.REMAP_DONE = true)) ∧
    (∀ p e, p < 4 → e < 16 → smGet false s.chip.mem.remapCopy (dremapAddr p e) = true →
      let w := s.chip.dremap p e
      let chan := bitsOf w 28 27
      let src := fun (i : Nat) => s.chip.dramAddr { port := p, chan := chan, rank := bitsOf w 29 29, ofs := dremapOffset w + 16 * i } / 16
      (∀ q, (s.chip.dramPort q).wild = none) → s.chip.flipArmed (dramPage p) = false →
      (∀ i, i < 128 → src i < 2 ^ 36 ∧ s.chip.dramSynOf (src i) = 0) →
        Completes (.remapDone true p e) s (fun t => smGet false t.mem.remapCopy (dremapAddr p e) = false ∧ t.pend E.REMAP_DONE = true ∧
          ∀ i, i < 128 → t.dramData (s.chip.spareKey p chan e i) = s.chip.dramData (src i) ∧ t.dramSynOf (s.chip.spareKey p chan e i) = 0)) ∧
    (∀ (o : Origin) (w : Word), Calm s.chip →
      let p := s.chip.dremapPort.1
      let e := s.chip.dremapPort.2
      w.getLsbD 31 = true → (s.chip.dremap p e).getLsbD 31 = false → (∀ x, x < 16 → x ≠ e → (s.chip.dremap p x).getLsbD 31 = false) →
      Completes (.dramRemapWrite o w) s (fun t => t.dremap p e = w &&& 0xBF83FFFF ∧ smGet false t.mem.remapCopy (dremapAddr p e) = true ∧
        t.mem.dram = s.chip.mem.dram)) ∧
    (∀ (o : Origin) (word : Word), Calm s.chip →
      ((o = .usb4 ∨ s.chip.on F.DEBUG_CTRL_UNLOCK = false) →
        Completes (.splitGo o word) s (fun t => t.pend E.SPLIT_DENY = true ∧ t.mem = s.chip.mem)) ∧
      (o = .belfry ∨ o = .jtag → s.chip.on F.DEBUG_CTRL_UNLOCK = true →
        let a := (s.chip.rd F.ECC_SPLIT_ADDR_WORD.addr).toNat
        let v := fun (n : Nat) => (s.chip.rd (F.ECC_SPLIT_DATA_DATA.addr + 4 * n)).toNat
        let data : Word128 := BitVec.ofNat 128 (v 0 + v 1 * 2 ^ 32 + v 2 * 2 ^ 64 + v 3 * 2 ^ 96)
        let check := word.getLsbD 30
        let chk := s.chip.get F.ECC_SPLIT_CHECK_CHECK
        (∀ x, x < 524288 → a = 0x80000 + x → bitsOf word 29 28 = 0 → (s.chip.bank (x / 65536)).wild = none →
          let k := s.chip.sramWord x
          Completes (.splitGo o word) s (fun t =>
            t.sramData k = (if check then s.chip.sramData k else data) ∧
            (eccCheck (t.sramData k)).toNat ^^^ t.sramSyn k =
              (if check then chk else (eccCheck (s.chip.sramData k)).toNat ^^^ (s.chip.sramSyn k % 512)) ∧
            ∀ j, j ≠ k → t.sramData j = s.chip.sramData j ∧ t.sramSyn j = s.chip.sramSyn j)) ∧
        (bitsOf word 29 28 = 2 →
          let k := a % 32768
          let was := memWord 0 s.chip.mem.belfry (16 * k)
          Completes (.splitGo o word) s (fun t =>
            memWord 0 t.mem.belfry (16 * k) = (if check then was else data) ∧
            (eccCheck (memWord 0 t.mem.belfry (16 * k))).toNat ^^^ smGet 0 t.mem.belfrySyn k =
              (if check then chk else (eccCheck was).toNat ^^^ (smGet 0 s.chip.mem.belfrySyn k % 512)) ∧
            t.mem.sram = s.chip.mem.sram)) ∧
        (bitsOf word 29 28 = 1 → 16 * a < s.chip.capacity →
          let k := (s.chip.dramKeys (16 * a)).1
          (s.chip.dramKeys (16 * a)).2 = [k] → (s.chip.dramPort (s.chip.dramKeyPort k)).wild = none →
          Completes (.splitGo o word) s (fun t =>
            t.dramData k = (if check then s.chip.dramData k else data) ∧
            slotOf (16 * a) (t.dramData k) (t.dramSynOf k) =
              (if check then chk + 512 * (if word.getLsbD 27 then s.chip.get F.ECC_SPLIT_CHECK_TAG else dramTag (16 * a))
               else slotOf (16 * a) (s.chip.dramData k) (s.chip.dramSynOf k)) ∧
            t.mem.sram = s.chip.mem.sram)))) ∧
    (s.chip.on F.ECC_STATUS_SRAM_FILLED = false → (∀ b, b < 8 → s.chip.flipArmed (bankPage b) = false) →
      s.chip.host.held = [] → s.chip.host.srpJob = none → s.chip.host.srpQ = [] →
      Completes .sramFillDone s (fun t => t.get F.ECC_STATUS_SRAM_FILLED = 1 ∧ (∀ k, bankOf k < 8 → t.sramData k = 0 ∧ t.sramSyn k = 0) ∧
        t.mem.belfry = [] ∧ t.mem.belfrySyn = [])) ∧
    (∀ p, p < 4 → s.chip.on F.ECC_STATUS_DRAM_FILLED = false → s.chip.state (dramPage p) = dsFill → (s.chip.dramPort p).retrainDue = false →
      Completes .dramFillDone s (fun t => t.get F.ECC_STATUS_DRAM_FILLED = 1 ∧ t.state (dramPage p) = dsRun ∧
        ((∀ q, q < 4 → s.chip.flipArmed (dramPage q) = false) → ∀ k, t.dramKeyPort k < 4 → t.dramData k = 0 ∧ t.dramSynOf k = 0)))

/-- Every command keeps every memory of the block in canonical form, and so does every step, an idle tick too; at reset they are so. -/
def Obligations.MemoriesStayCanonical : Prop :=
  (∀ (i : Instr) (s t : State), s.chip.memOk = true → exec i s = .next t → t.chip.memOk = true) ∧
  (∀ s t : State, s.chip.memOk = true → step s = .next t → t.chip.memOk = true) ∧
  State.reset.chip.memOk = true

/-! ### DRAM (spec/13_dram.md) -/

/-- A whole word written to DRAM, through BAR2 or directly, is stored clean and reads back; its rank wakes, its row is left as the hint says, and a
read that hits the row of a pending write puts its bank into in-order mode (R332, R335, R338); an access above CAPACITY changes no memory, reads as
poison and raises DRAM_RANGE; during a rate step of its port, or behind a stalled request of its master, an access waits in order. The address tag
is the XOR of R328. Shown to complete: dramWriteCmd, dramReadCmd. -/
def Obligations.DramAccesses : Prop :=
  (∀ a i : Nat, i < 7 →
    let bit := fun n : Nat => (a % 2 ^ 36).testBit n
    dramTag a < 128 ∧ (dramTag a).testBit i = ((((bit (4 + i)).xor (bit (11 + i))).xor (bit (18 + i))).xor (bit (25 + i))).xor (bit (32 + i))) ∧
  ∀ (s : State) (master : Nat) (bar2 : Bool) (addr : Nat), Runs s → (bar2 = true → s.chip.pathsOpen = true) →
    let a := s.chip.dramTarget bar2 addr
    let l := s.chip.dramLoc a
    let p := l.port
    let k := (s.chip.dramKeys a).1
    let req := fun (write : Bool) (bytes : List (Option Byte)) => dramReqOf master write a bytes
    a % 16 = 0 →
    (a + 16 ≤ s.chip.capacity → s.chip.state (dramPage p) ≠ dsFailed →
      (∀ bytes : List Byte, bytes.length = 16 → s.chip.dramStalls (req true (bytes.map some)) = false →
        s.chip.flipArmed (dramPage p) = false → (s.chip.dramKeys a).2 = [k] → (s.chip.dramPort (s.chip.dramKeyPort k)).wild = none →
        Completes (.dramWriteCmd master bar2 addr (bytes.map some)) s (fun t =>
          t.dramData k = BitVec.ofNat 128 (ofLe bytes) ∧ t.dramSynOf k = 0 ∧
          (∀ j, j ≠ k → t.dramData j = s.chip.dramData j ∧ t.dramSynOf j = s.chip.dramSynOf j) ∧ t.mem.sram = s.chip.mem.sram ∧ t.regs = s.chip.regs)) ∧
      (∀ hits : Bool, s.chip.dramSynOf k = 0 → s.chip.dramStalls (req false (List.replicate 16 none)) = false →
        Completes (.dramReadCmd master bar2 addr 16 hits) s (fun t =>
          t.out = s.chip.out ++ [.memData (master % 16) a (leBytes 16 (s.chip.dramData k).toNat) false] ∧ t.mem.dram = s.chip.mem.dram ∧
          smGet false (t.dramPort p).powerDown l.rank = false ∧ smGet false (t.dramPort p).inOrder (bankKey l) = hits ∧
          (master < 16 → smFind (t.dramPort p).rows (bankKey l) =
            if s.chip.leavesOpen master (dramHint master false) then some (l.ofs / 2048) else none) ∧
          (hits = true → smGet false (s.chip.dramPort p).inOrder (bankKey l) = false →
            t.get F.DRAMCTL_STATUS_INORDER = (s.chip.get F.DRAMCTL_STATUS_INORDER + 1) % 65536) ∧
          (hits = false → t.regs = s.chip.regs)))) ∧
    (s.chip.capacity ≤ a →
      (∀ bytes : List Byte, bytes.length = 16 → s.chip.dramStalls (req true (bytes.map some)) = false →
        Completes (.dramWriteCmd master bar2 addr (bytes.map some)) s (fun t => t.mem.dram = s.chip.mem.dram ∧ t.mem.sram = s.chip.mem.sram ∧
          t.pend E.DRAM_RANGE = true)) ∧
      (s.chip.dramStalls (req false (List.replicate 16 none)) = false →
        Completes (.dramReadCmd master bar2 addr 16 false) s (fun t => .memData (master % 16) a (leBytes 16 0) true ∈ t.out ∧
          t.mem.dram = s.chip.mem.dram ∧ t.pend E.DRAM_RANGE = true))) ∧
    (∀ bytes : List Byte, bytes.length = 16 →
      (s.chip.state (dramPage p) = dsStep ∧ a + 16 ≤ s.chip.capacity) ∨ (∃ x ∈ s.chip.mem.stalled, x.master = master % 16) →
      Completes (.dramWriteCmd master bar2 addr (bytes.map some)) s (fun t =>
        t.mem.stalled = s.chip.mem.stalled ++ [req true (bytes.map some)] ∧ t.mem.dram = s.chip.mem.dram) ∧
      Completes (.dramReadCmd master bar2 addr 16 false) s (fun t =>
        t.mem.stalled = s.chip.mem.stalled ++ [req false (List.replicate 16 none)] ∧ t.out = s.chip.out))

/-- The upkeep of a DRAM port: refresh debts, of which an issue takes one off, MR4, power-down of a rank that no request awaits, write DQ tracking,
and the largest debt cleared. Shown to complete: refreshDue, mr4Poll, powerDownEntry, dqsTrack, dramRefClr. -/
def Obligations.DramUpkeep : Prop :=
  ∀ (s : State) (p : Nat), Runs s → p < 4 → s.chip.hasPage (dramPage p) = true →
    (∀ rank chan bank rtRun,
      let key := (rank * 4 + chan) * 16 + bank
      let d := smGet 0 (s.chip.dramPort p).debts key + 1
      Completes (.refreshDue p rank chan bank rtRun) s (fun t =>
        smGet 0 (t.dramPort p).debts key = (if rtRun = false ∨ 8 ≤ d then d - 1 else d) ∧
        smGet false (t.dramPort p).powerDown rank = false ∧
        t.get (F.DRAM_REF_DEBT_MAX.pg p) = max (s.chip.get (F.DRAM_REF_DEBT_MAX.pg p)) (min 8 d) ∧
        (rtRun = true → 8 ≤ d → t.pend E.REF_FORCED = true))) ∧
    (∀ rank chan code hot,
      Completes (.mr4Poll p rank chan code hot) s (fun t => smFind (t.dramPort p).mr4 (rank * 4 + chan) = some (min 4 code) ∧
        ((∀ x ∈ (s.chip.dramPort p).mr4, x.2 ≤ 4) →
          bandMult (s.chip.get (F.DRAM_STATUS_TB.pg p)) ≤ t.get (F.DRAM_STATUS_REF_MULT.pg p) ∧ min 4 code ≤ t.get (F.DRAM_STATUS_REF_MULT.pg p)) ∧
        (hot = true → t.raw E.DRAM_HOT = true))) ∧
    (∀ rank, Completes (.powerDownEntry p rank) s (fun t =>
      if s.chip.get F.DRAMCTL_PD_TIMER_NS = 0 ∨ s.chip.rankAwaited p rank = true then t = s.chip else smGet false (t.dramPort p).powerDown rank = true)) ∧
    (∀ chan drift, Completes (.dqsTrack p chan drift) s (fun t => smGet 0 (t.dramPort p).dqs chan = smGet 0 (s.chip.dramPort p).dqs chan + drift ∧
      t.regs = s.chip.regs)) ∧
    (∀ o : Origin, Calm s.chip → Completes (.dramRefClr o p) s (fun t => t.get (F.DRAM_REF_DEBT_MAX.pg p) = 0 ∧
      t.get (F.DRAM_REF_FORCED.pg p) = s.chip.get (F.DRAM_REF_FORCED.pg p)))

/-- The states of a DRAM port: a retraining of eight slices for each channel, each where it may run (R341), and its end; the window of corrected
errors; a step down and its end, which serves what stalled; a restore; failure; and training at start. Shown to complete: dramRetrainCmd,
rateRestore, dramRetrainSlice, eccRateWindow, dramRateStep, rateStepDone, dramPortFail, dramInitTrain. -/
def Obligations.DramPortStates : Prop :=
  ∀ (s : State) (p : Nat), Runs s → p < 4 → s.chip.hasPage (dramPage p) = true →
    (∀ o : Origin, Calm s.chip →
      (s.chip.state (dramPage p) = dsRun →
        Completes (.dramRetrainCmd o p) s (fun t => t.state (dramPage p) = dsRetrain ∧ t.get (F.DRAM_TRAIN_SLICES_LEFT.pg p) = 8 * s.chip.dramNc ∧
          t.get (F.DRAM_TRAIN_BUSY.pg p) = 1)) ∧
      Completes (.rateRestore o p) s (fun t => (t.dramPort p).restoreDue =
        ((s.chip.dramPort p).restoreDue || decide (s.chip.get (F.DRAM_RATE_CFG_RATE_MAX.pg p) < s.chip.get (F.DRAM_STATUS_RATE.pg p))))) ∧
    (∀ found : Bool, s.chip.sliceMay p s.chip.sliceWindow = false → Completes (.dramRetrainSlice p found) s (fun t => t = s.chip)) ∧
    (∀ found : Bool, s.chip.state (dramPage p) = dsRetrain → s.chip.sliceMay p s.chip.sliceWindow = true →
      (1 < s.chip.get (F.DRAM_TRAIN_SLICES_LEFT.pg p) →
        Completes (.dramRetrainSlice p found) s (fun t => t.get (F.DRAM_TRAIN_SLICES_LEFT.pg p) = s.chip.get (F.DRAM_TRAIN_SLICES_LEFT.pg p) - 1 ∧
          t.state (dramPage p) = dsRetrain)) ∧
      (s.chip.get (F.DRAM_TRAIN_SLICES_LEFT.pg p) ≤ 1 → (s.chip.dramPort p).retrainDue = false →
        Completes (.dramRetrainSlice p found) s (fun t => t.state (dramPage p) = dsRun ∧ t.on (F.DRAM_TRAIN_NOFIT.pg p) = !found ∧
          t.pend E.DRAM_RETRAIN = true ∧ (found = false → t.pend E.DRAM_TRAIN_NOFIT = true) ∧
          t.get (F.DRAM_TRAIN_RETRAINS.pg p) = (s.chip.get (F.DRAM_TRAIN_RETRAINS.pg p) + 1) % 65536))) ∧
    Completes (.eccRateWindow p) s (fun t => t.get (F.DRAM_ECC_RATE_CE_LAST.pg p) = min 65535 (s.chip.dramPort p).ceWindow ∧
      (t.dramPort p).ceWindow = 0 ∧
      (t.dramPort p).stepDue = ((s.chip.dramPort p).stepDue || (s.chip.on (F.DRAM_TRAIN_NOFIT.pg p) && s.chip.on (F.DRAM_RATE_CFG_STEP_EN.pg p) &&
        decide (s.chip.get (F.DRAM_ECC_RATE_MAX.pg p) < (s.chip.dramPort p).ceWindow) &&
        decide (s.chip.state (dramPage p) = dsRun ∨ s.chip.state (dramPage p) = dsRetrain)))) ∧
    ((s.chip.dramPort p).stepDue = true → s.chip.state (dramPage p) = dsRun → s.chip.get (F.DRAM_STATUS_RATE.pg p) < 3 →
      Completes (.dramRateStep p) s (fun t => t.state (dramPage p) = dsStep ∧ t.get (F.FAULT.pg (dramPage p)) = 1)) ∧
    (∀ g, s.chip.state (dramPage p) = dsStep → (s.chip.dramPort p).restoreDue = false → (s.chip.dramPort p).retrainDue = false →
      Completes (.rateStepDone p (some g)) s (fun t => t.state (dramPage p) = dsRun ∧ (t.dramPort p).stepDue = false ∧
        t.get (F.DRAM_STATUS_RATE.pg p) = min 3 (max (s.chip.get (F.DRAM_STATUS_RATE.pg p) + 1) g) ∧
        ((∀ q, q < 4 → q ≠ p → s.chip.state (dramPage q) ≠ dsStep) → t.mem.stalled = [] ∧
          ∀ (master a : Nat) (bytes : List Byte), s.chip.mem.stalled = [dramReqOf master true a (bytes.map some)] → bytes.length = 16 → a % 16 = 0 →
            let k := (s.chip.dramKeys a).1
            let q := (s.chip.dramLoc a).port
            a + 16 ≤ s.chip.capacity → s.chip.state (dramPage q) ≠ dsFailed → s.chip.flipArmed (dramPage q) = false →
            (s.chip.dramKeys a).2 = [k] → (s.chip.dramPort (s.chip.dramKeyPort k)).wild = none →
            t.dramData k = BitVec.ofNat 128 (ofLe bytes) ∧ t.dramSynOf k = 0))) ∧
    (s.chip.state (dramPage p) ≠ dsAbsent → s.chip.state (dramPage p) ≠ dsFailed → s.chip.on (F.DRAM_STATUS_POPULATED.pg p) = true →
      Completes (.dramPortFail p) s (fun t => t.state (dramPage p) = dsFailed ∧ t.get (F.FAULT.pg (dramPage p)) = 1 ∧ t.raw E.DRAM_PORT_FAIL = true)) ∧
    (∀ ranks mib g, 0 < ranks → s.chip.on F.ECC_STATUS_DRAM_FILLED = false → (s.chip.state (dramPage p) = dsAbsent ∨ s.chip.state (dramPage p) = dsTrain) →
      Completes (.dramInitTrain p ranks mib true (some g)) s (fun t => t.state (dramPage p) = dsFill ∧ t.get (F.DRAM_STATUS_POPULATED.pg p) = 1 ∧
        t.get (F.DRAM_STATUS_RATE.pg p) = min 3 (max g (s.chip.get (F.DRAM_RATE_CFG_RATE_MAX.pg p))) ∧ (t.dramPort p).rankMib = mib))

/-! ### Belfry management and thermal protection (spec/14_belfry_thermal.md) -/

/-- What restarts the Belfry, and its return: lockstep, an early kick, the watchdog, CMD.RESTART and the debugger, each with its cause, and with
what was being programmed aborted; the watchdog stops counting while held by the debugger; a bus error is reported; a debugger holds the cores.
Shown to complete: lockstep, watchdogTimeout, belfryBusErr, kick, belfryCmdRestart, jtagDebugReset, belfryRestart, debuggerHalt, debuggerResume. -/
def Obligations.BelfryRestarts : Prop :=
  ∀ (s : State), Runs s →
    let up := s.chip.belfry.running && s.chip.belfry.down.isNone
    let restarted : Nat → Chip → Prop := fun k t => t.belfry.down = some k ∧ t.get F.BELFRY_STATUS_CAUSE = k ∧ t.belfry.logBuf = [] ∧
      t.mem.belfry = [] ∧ t.belfry.journal = [] ∧ t.upd.writing = none ∧ t.aon.restart = k ∧ t.on F.DEBUG_CTRL_UNLOCK = false ∧
      t.get F.BELFRY_STATUS_RESTARTS = (s.chip.get F.BELFRY_STATUS_RESTARTS + 1) % 65536
    Completes .lockstep s (fun t => restarted 2 t ∧ t.pend E.LOCKSTEP = true ∧
      t.get F.BELFRY_LOCKSTEP_COUNT = min 0xFFFFFFFF (s.chip.get F.BELFRY_LOCKSTEP_COUNT + 1)) ∧
    Completes .watchdogTimeout s (fun t => if s.chip.dogHeld then t = s.chip else restarted 1 t) ∧
    (s.chip.belfryUp = true → Completes .belfryBusErr s (fun t => t.pend E.BELFRY_BUS_ERR = true ∧ Quiet s.chip t)) ∧
    (∀ (o : Origin) (w : Word) (ms : Nat), s.chip.changeQ.length < 64 →
      Completes (.kick o w ms) s (fun t =>
        (((o = .belfry ∨ o = .jtag) ∧ ms < s.chip.get F.BELFRY_WDOG_OPEN) → restarted 1 t) ∧
        ((o ≠ .belfry ∧ o ≠ .jtag) ∨ s.chip.get F.BELFRY_WDOG_OPEN ≤ ms → t.belfry = s.chip.belfry ∧ t.regs = s.chip.regs ∧
          t.changeQ.length = s.chip.changeQ.length + 1))) ∧
    (∀ o : Origin, Calm s.chip → Completes (.belfryCmdRestart o) s (restarted 3)) ∧
    Completes .jtagDebugReset s (fun t => restarted 5 t ∧ t.on F.DEBUG_CTRL_HALTED = false) ∧
    (∀ k, s.chip.belfry.down = some k → s.chip.belfry.running = true → s.chip.host.srpQ = [] → s.chip.host.srpJob = none → s.chip.host.relayQ = [] → s.chip.host.held = [] →
      Completes .belfryRestart s (fun t => t.belfry.down = none ∧ t.belfry.running = true ∧ t.pend E.BELFRY_RESTART = true)) ∧
    Completes .debuggerHalt s (fun t => t.get F.DEBUG_CTRL_HALTED = 1 ∧ t.raw E.DEBUG_HALT = true ∧ t.belfryUp = false) ∧
    Completes .debuggerResume s (fun t => t.get F.DEBUG_CTRL_HALTED = 0 ∧ t.raw E.DEBUG_HALT = false ∧ t.belfryUp = up)

/-- A sample shows in every sensor of the build, one out of range fails its sensor, and a value in use of 115 °C or more (in 1/16 °C) starts the
knell, with its record latched, ALERT_N low, CLAP_OWN released and the drive halted (R360, R361); a mask fails its sensors; more than four failed
ask for level 3, and a level rises by one at most otherwise; the third low sample of a rail flags it. Shown to complete: sensorSample,
thermalMaskWrite, throttleEvaluate, voltageSample. -/
def Obligations.SensorsThrottleAndRails : Prop :=
  ∀ (s : State), Runs s →
    (∀ raws : List Int,
      Completes (.sensorSample raws) s (fun t =>
        t.aon.knell.isSome = (s.chip.aon.knell.isSome || s.chip.sensors.any (fun n => decide (115 * 16 ≤ t.sensorUse n))) ∧
        (∀ k, s.chip.aon.knell = some k → t.aon.knell = some k) ∧
        (∀ k, s.chip.aon.knell = none → t.aon.knell = some k →
          k.sensor ∈ s.chip.sensors ∧ k.value = t.sensorUse k.sensor ∧ 115 * 16 ≤ k.value ∧ k.subst = !t.sensorValid k.sensor ∧
            k.time = s.chip.time64 ∧ t.redun.own = false ∧ t.host.alertLow = true ∧ (s.chip.build = .T → t.driveState = dvHalt)) ∧
        ∀ n ∈ s.chip.sensors, t.get (F.THERMAL_SENSOR_RAW.plus (4 * n)) = unsign 16 (raws.getD n 0) ∧
          (raws.getD n 0 < -880 ∨ 2400 < raws.getD n 0 → s.chip.sensorState n ≠ ssMasked → t.sensorState n = ssRange))) ∧
    (∀ (o : Origin) (w : Word), Calm s.chip →
      Completes (.thermalMaskWrite o w) s (fun t => t.get F.THERMAL_MASK_MASK = bitsOf w 19 0 ∧
        ∀ n ∈ s.chip.sensors, w.getLsbD n = true → t.sensorState n = ssMasked)) ∧
    (s.chip.build = .S →
      Completes .throttleEvaluate s (fun t => t.raw E.THROTTLE = decide (0 < t.get F.THERMAL_THROTTLE_DIG) ∧
        t.raw E.THROTTLE_MAX = decide (t.get F.THERMAL_THROTTLE_DIG = 3) ∧
        s.chip.get F.THERMAL_THROTTLE_FLOOR ≤ t.get F.THERMAL_THROTTLE_DIG ∧
        (4 < s.chip.get F.THERMAL_FAIL_COUNT → t.get F.THERMAL_THROTTLE_DIG = 3) ∧
        (s.chip.get F.THERMAL_FAIL_COUNT ≤ 4 →
          t.get F.THERMAL_THROTTLE_DIG ≤ max (s.chip.get F.THERMAL_THROTTLE_DIG + 1) (s.chip.get F.THERMAL_THROTTLE_FLOOR)))) ∧
    (∀ mvs : List Nat,
      Completes (.voltageSample mvs) s (fun t => ∀ m, m < 16 → t.get (F.THERMAL_VMON_MV.plus (4 * m)) = mvs.getD m 0 % 65536 ∧
        (smGet 0 s.chip.therm.lowRun m = 2 → mvs.getD m 0 < s.chip.get (F.THERMAL_VTHR_LOW.plus (4 * m)) →
          s.chip.on (F.THERMAL_VMON_LOW.plus (4 * m)) = false →
          t.on (F.THERMAL_VMON_LOW.plus (4 * m)) = true ∧ t.pend E.VOLT_LOW = true ∧ t.get F.THERMAL_VMON_FLAGS_LOW_SEEN / 2 ^ m % 2 = 1)))

/-- After the knell the transmitters are off and the clocks stop; the end of the flash operation, or 125 °C, leaves the record of R363 in the first
erased position, with the outcome of the flash, and latches it; at the next start the records are reported and the slot is erased. Shown to
complete: knellShutdown, knellFlashEnd, knellPrior. -/
def Obligations.KnellSequence : Prop :=
  (∀ (s : State) (k : KnellRec), s.chip.aon.latched = false → s.chip.aon.stopped = false → s.chip.aon.knell = some k →
    Completes .knellShutdown s (fun t => t.aon.stopped = true ∧ t.aon.knell = some k ∧ .outputsSafe ∈ t.out ∧
      ∀ p, p < s.chip.numPorts → .portTx p false ∈ t.out)) ∧
  (∀ (s : State) (k : KnellRec) (ended i : Nat) (l : List Nat), s.chip.aon.latched = false → s.chip.aon.stopped = true → s.chip.aon.knell = some k →
    s.chip.knellFree = i :: l →
    (∀ ofs len block, s.chip.upd.writing = some (ofs, len, block) → ofs + len ≤ 16711680) →
    s.chip.settingsPayload.length ≤ areaSize arSettings - 64 →
    (∀ j payload, s.chip.belfry.migrate = some (j, payload) → j < 2 ∧ payload.length ≤ areaSize arSettings - 64) →
    let outcome := if s.chip.aon.flashBusy = false then 0 else if s.chip.aon.hot125 then 3 else if ended = 1 then 1 else 2
    Completes (.knellFlashEnd ended) s (fun t => t.aon.latched = true ∧
      (let r := t.flashRead (knellBase + 32 * i) 32
       slice r 0 2 = [3, 0] ∧ ofLe (slice r 2 2) = 0x010 ∧ ofLe (slice r 4 4) = 0 ∧ ofLe (slice r 8 8) = k.time % 2 ^ 64 ∧
       ofLe (slice r 16 4) = k.bar % 2 ^ 32 ∧ ofLe (slice r 20 2) = b2n k.subst * 2 ^ 15 + k.sensor % 32 ∧ slice r 22 2 = [0, 0] ∧
       ofLe (slice r 24 4) = unsign 16 k.value * 2 ^ 16 + outcome * 2 ^ 8 + k.levels % 64 * 2 ^ 2 ∧ logValid r = true) ∧
      (∀ j, j < 128 → j ≠ i → t.flashRead (knellBase + 32 * j) 32 = s.chip.flashRead (knellBase + 32 * j) 32) ∧
      (outcome = 0 → t.regs = s.chip.regs ∧ ∀ a, a < knellBase + 32 * i ∨ knellBase + 32 * i + 32 ≤ a → t.flashRead a 1 = s.chip.flashRead a 1) ∧
      (outcome ≠ 0 → t.upd.writing = none ∧ t.belfry.journal = [] ∧ t.belfry.migrate = none))) ∧
  (∀ (s : State) (i : Nat), Runs s → s.chip.belfryUp = true → i < 128 → logValid (s.chip.flashRead (knellBase + 32 * i) 32) = true →
    Completes .knellPrior s (fun t => t.pend E.KNELL_PRIOR = true ∧ t.get F.THERMAL_KNELL_SLOT_FREE = 128 ∧ t.get F.THERMAL_KNELL_SLOT_READY = 1))

/-- UNLOCK obeys the Belfry and JTAG alone; a flush programs what has gathered, each record at its place of the ring with the next number; a fetch
gives the record of a number, where the ring holds it, or zeros. Shown to complete: debugUnlockWrite, logFlush, logRead, logReadDone. -/
def Obligations.LogAndUnlock : Prop :=
  ∀ (s : State), Runs s →
    (∀ (o : Origin) (v : Bool), Calm s.chip →
      Completes (.debugUnlockWrite o v) s (fun t =>
        if o = .belfry ∨ o = .jtag then t.on F.DEBUG_CTRL_UNLOCK = v ∧ t.raw E.DEBUG_UNLOCKED = v
        else t.on F.DEBUG_CTRL_UNLOCK = s.chip.on F.DEBUG_CTRL_UNLOCK ∧ t.raw E.DEBUG_UNLOCKED = s.chip.raw E.DEBUG_UNLOCKED)) ∧
    (s.chip.belfryUp = true → s.chip.evq.length ≤ 64 → s.chip.evqExtra = none → s.chip.changeQ.length ≤ 64 → s.chip.belfry.logBuf.length ≤ 800 →
      s.chip.belfry.logSeq < 2 ^ 32 → s.chip.belfry.logPos < logSlots →
      let n := s.chip.belfry.logBuf.length + s.chip.evq.length + s.chip.changeQ.length
      let l := s.chip.logDrain.belfry.logBuf
      l.length = n ∧ l.take s.chip.belfry.logBuf.length = s.chip.belfry.logBuf ∧ (∀ e ∈ s.chip.evq, e.log ∈ l) ∧ (∀ r ∈ s.chip.changeQ, r.log ∈ l) ∧
      Completes .logFlush s (fun t => t.evq = [] ∧ t.changeQ = [] ∧ t.belfry.logBuf = [] ∧
        t.belfry.logSeq = (s.chip.belfry.logSeq + n) % 2 ^ 32 ∧ t.belfry.logPos = (s.chip.belfry.logPos + n) % logSlots ∧
        (0 < n → t.get F.LOG_NEWEST_SEQ_SEQ = (s.chip.belfry.logSeq + n - 1) % 2 ^ 32) ∧
        ∀ j r, l[j]? = some r →
          t.flashRead (logBase + 32 * ((s.chip.belfry.logPos + j) % logSlots)) 32 = r.encode ((s.chip.belfry.logSeq + j) % 2 ^ 32))) ∧
    (∀ (o : Origin) (w : Word), Calm s.chip →
      Completes (.logRead o w) s (fun t => t.rd F.LOG_READ_SEQ_SEQ.addr = w ∧ t.get F.LOG_READ_STATUS_READY = 0 ∧ t.get F.LOG_READ_STATUS_FOUND = 0)) ∧
    (s.chip.belfryUp = true → s.chip.belfry.logSeq < 2 ^ 32 →
      let q := s.chip.get F.LOG_READ_SEQ_SEQ
      let back := (s.chip.belfry.logSeq + 2 ^ 32 - q) % 2 ^ 32
      let rec_ := s.chip.logAt (s.chip.belfry.logPos + logSlots - back % logSlots)
      let found := decide (1 ≤ back) && decide (back ≤ logSlots) && logValid rec_ && decide (ofLe (slice rec_ 4 4) = q)
      Completes .logReadDone s (fun t => t.get F.LOG_READ_STATUS_READY = 1 ∧ t.belfry = s.chip.belfry ∧
        t.get F.LOG_READ_STATUS_FOUND = b2n found ∧
        ∀ k, k < 8 → t.get (F.LOG_READ_DATA.plus (4 * k)) = if found then ofLe (slice rec_ (4 * k) 4) else 0))

/-! ### Firmware, settings and flash (spec/15_update_settings.md) -/

/-- The session of an update by its states: boot, OPEN and its erase, blocks, VERIFY and its answer, ABORT, ACTIVATE, CONFIRM and its timeout, and
the BULK transmitter. Shown to complete: bootImageSelect, updateOpen, blockData, updateWrite, updateVerify, updateAbort, activate, confirm,
bulkSend, bulkCellSend, eraseDone, blockProgrammed, verifyDone, confirmTimeout. -/
def Obligations.UpdateSession : Prop :=
  ∀ (s : State), Runs s →
    let st := s.chip.state updPage
    (∀ (sl : Nat) (l : List Nat), s.chip.belfry.running = false → s.chip.bootOrder = sl :: l → s.chip.aon.dogEarly = false →
      s.chip.host.held = [] → s.chip.host.srpJob = none → s.chip.host.srpQ = [] →
      Completes .bootImageSelect s (fun t =>
        if imgRomOk s.chip.build (s.chip.slotRd sl) = true then
          t.belfry.running = true ∧ t.get F.UPDATE_STATUS_RUN_SLOT = sl ∧ t.host.recovery = false
        else l = [] → t.belfry.running = false ∧ t.host.recovery = true)) ∧
    (s.chip.belfry.running = false → s.chip.bootOrder = [] → s.chip.host.held = [] → s.chip.host.srpJob = none → s.chip.host.srpQ = [] →
      Completes .bootImageSelect s (fun t => t.belfry.running = false ∧ t.host.recovery = true)) ∧
    (∀ o : Origin, Calm s.chip →
      Completes (.updateOpen o) s (fun t =>
        if (st = usIdle ∨ st = usVerified ∨ st = usFailed) ∧ s.chip.onTrial = false then
          t.state updPage = usErasing ∧ t.get F.UPDATE_STAGED_VERSION_VERSION = 0 ∧
            ∀ k, k < 0x1000000 → t.flashRead (s.chip.otherSlot * 0x1000000 + k) 1 = [0xFF]
        else t.state updPage = st ∧ t.get F.UPDATE_STATUS_FAIL_CODE = 1 ∧ t.pend E.UPDATE_FAIL = true) ∧
      (∀ w : Word, s.chip.upd.index < 1024 →
        Completes (.blockData o w) s (fun t => smGet 0 t.upd.block s.chip.upd.index = w ∧ t.upd.index = s.chip.upd.index + 1)) ∧
      Completes (.updateWrite o) s (fun t =>
        if st ≠ usOpen ∨ s.chip.on F.UPDATE_STATUS_BLOCK_BUSY = true then t.get F.UPDATE_STATUS_FAIL_CODE = 1 ∧ t.upd = s.chip.upd
        else if 16711680 < s.chip.get F.UPDATE_BLOCK_OFFSET_OFFSET + s.chip.get F.UPDATE_BLOCK_LEN_LEN then
          t.get F.UPDATE_STATUS_FAIL_CODE = 6 ∧ t.upd = s.chip.upd
        else t.get F.UPDATE_STATUS_BLOCK_BUSY = 1 ∧ t.upd.index = 0 ∧
          t.upd.writing = some (s.chip.get F.UPDATE_BLOCK_OFFSET_OFFSET, s.chip.get F.UPDATE_BLOCK_LEN_LEN, s.chip.upd.block)) ∧
      Completes (.updateVerify o) s (fun t => if st = usOpen then t.state updPage = usVerifying else t.state updPage = st ∧ t.get F.UPDATE_STATUS_FAIL_CODE = 1) ∧
      Completes (.updateAbort o) s (fun t =>
        if st = usOpen ∨ st = usFailed then t.state updPage = usIdle else t.state updPage = st ∧ t.get F.UPDATE_STATUS_FAIL_CODE = 1) ∧
      Completes (.activate o) s (fun t =>
        if st = usVerified then t.state updPage = usActivating ∧ t.belfry.down = some 4
        else t.state updPage = st ∧ t.get F.UPDATE_STATUS_FAIL_CODE = 1 ∧ t.belfry.down = s.chip.belfry.down) ∧
      Completes (.confirm o) s (fun t => t.onTrial = false ∧ (s.chip.onTrial = true → t.raw E.UPDATE_TRIAL = false)) ∧
      (s.chip.build = .S → s.chip.on F.UPDATE_STATUS_BULK_BUSY = false → s.chip.get F.UPDATE_BULK_LEN ≠ 0 →
        Completes (.bulkSend o) s (fun t => t.get F.UPDATE_STATUS_BULK_BUSY = 1 ∧ t.upd.bulkOfs = 0))) ∧
    (s.chip.build = .S → s.chip.on F.UPDATE_STATUS_BULK_BUSY = true → s.chip.upd.bulkOfs < s.chip.get F.UPDATE_BULK_LEN →
      s.chip.readStalls dmChain (s.chip.get F.UPDATE_BULK_ADDR * 16 + s.chip.upd.bulkOfs) (min 48 (s.chip.get F.UPDATE_BULK_LEN - s.chip.upd.bulkOfs)) = false →
      Completes .bulkCellSend s (fun t => t.upd.bulkOfs = s.chip.upd.bulkOfs + min 48 (s.chip.get F.UPDATE_BULK_LEN - s.chip.upd.bulkOfs) ∧
        (t.on F.UPDATE_STATUS_BULK_BUSY = true ↔
          t.upd.bulkOfs < s.chip.get F.UPDATE_BULK_LEN ∨ ∃ p, p < 16 ∧ (t.port p).qBulk ≠ []))) ∧
    (s.chip.belfryUp = true →
      (st = usErasing →
        Completes (.eraseDone true) s (fun t => t.state updPage = usOpen ∧ t.upd.programmed = [] ∧ t.get F.UPDATE_PAGES_PAGES = 0 ∧
          t.belfry.flash = s.chip.belfry.flash) ∧
        Completes (.eraseDone false) s (fun t => t.state updPage = usFailed ∧ t.get F.UPDATE_STATUS_FAIL_CODE = 5 ∧ t.pend E.FLASH_ERR = true ∧
          t.belfry.flash = s.chip.belfry.flash)) ∧
      (∀ ofs len block, s.chip.upd.writing = some (ofs, len, block) →
        Completes (.blockProgrammed true) s (fun t => t.on F.UPDATE_STATUS_BLOCK_BUSY = false ∧ t.state updPage = st ∧ t.upd.writing = none ∧
          (256 ≤ len → smGet false s.chip.upd.programmed (ofs / 256) = false →
            smGet false t.upd.programmed (ofs / 256) = true ∧
            t.flashRead (s.chip.otherSlot * 0x1000000 + 256 * (ofs / 256)) 256 =
              (List.range 64).flatMap (fun k => leBytes 4 (smGet 0 block k).toNat))) ∧
        Completes (.blockProgrammed false) s (fun t => t.on F.UPDATE_STATUS_BLOCK_BUSY = false ∧ t.state updPage = usFailed ∧
          t.get F.UPDATE_STATUS_FAIL_CODE = 5 ∧ t.belfry.flash = s.chip.belfry.flash)) ∧
      (∀ ok : Bool, st = usVerifying →
        Completes (.verifyDone ok) s (fun t =>
          let code := if ok then imgCheck s.chip.build (s.chip.slotRd s.chip.otherSlot) else 5
          t.get F.UPDATE_STATUS_FAIL_CODE = code ∧ t.state updPage = (if code = 0 then usVerified else usFailed) ∧
            (code = 0 → t.pend E.UPDATE_READY = true) ∧ (code ≠ 0 → t.pend E.UPDATE_FAIL = true))) ∧
      (s.chip.onTrial = true →
        Completes .confirmTimeout s (fun t => t.onTrial = false ∧ t.aon.rollback = true ∧ t.belfry.down = some 4)))

/-- A settings copy that SAVE asked for reads back valid with the next number, and the copy it does not replace is untouched; one whose two
read-backs fail is no copy, and JOURNAL_FAIL; SAVE and LIST_DATA; settings that do not come, or cannot be read, leave the registers as the reset
left them; of a readable copy the registers it names hold the words of their records. Shown to complete: journalWrite, settingsSave, listData,
settingsApply. -/
def Obligations.SettingsCopies : Prop :=
  ∀ (s : State), Runs s →
    (s.chip.belfryUp = true → s.chip.belfry.migrate = none → s.chip.on F.SETTINGS_STATUS_SAVING = true → s.chip.settingsPayload.length ≤ areaSize arSettings - 64 → s.chip.upd.settingsFmt < 65536 →
      let k := s.chip.targetCopy arSettings 0
      (∀ ok2 : Bool, Completes (.journalWrite 1 0 true ok2) s (fun t => t.get F.SETTINGS_STATUS_SAVING = 0 ∧
        t.copyInfo arSettings 0 k = some { format := s.chip.upd.settingsFmt, seq := s.chip.nextSeq arSettings 0, length := s.chip.settingsPayload.length } ∧
        t.copyPayload arSettings 0 k { format := s.chip.upd.settingsFmt, seq := s.chip.nextSeq arSettings 0, length := s.chip.settingsPayload.length } =
          s.chip.settingsPayload ∧
        t.copyInfo arSettings 0 (1 - k) = s.chip.copyInfo arSettings 0 (1 - k))) ∧
      Completes (.journalWrite 1 0 false false) s (fun t => t.pend E.JOURNAL_FAIL = true ∧ t.copyInfo arSettings 0 k = none ∧
        t.copyInfo arSettings 0 (1 - k) = s.chip.copyInfo arSettings 0 (1 - k))) ∧
    (∀ o : Origin, Calm s.chip →
      Completes (.settingsSave o) s (fun t => t.get F.SETTINGS_STATUS_SAVING = 1 ∧ t.belfry.flash = s.chip.belfry.flash) ∧
      (∀ w : Word, Completes (.listData o (some w)) s (fun t => smGet 0 t.upd.saveList (s.chip.get F.SETTINGS_LIST_ADDR_INDEX) = bitsOf w 23 0 ∧
        t.get F.SETTINGS_LIST_ADDR_INDEX =
          (s.chip.get F.SETTINGS_LIST_ADDR_INDEX + b2n (s.chip.on F.SETTINGS_LIST_ADDR_AUTO_INC)) % 1024)) ∧
      Completes (.listData o none) s (fun t => t.upd = s.chip.upd ∧ t.get F.SETTINGS_LIST_ADDR_INDEX =
        (s.chip.get F.SETTINGS_LIST_ADDR_INDEX + b2n (s.chip.on F.SETTINGS_LIST_ADDR_AUTO_INC)) % 1024)) ∧
    (∀ (timedOut : Bool) (w h : Nat) (image : List Byte), s.chip.belfry.running = true → s.chip.get F.RESET_BRINGUP_DONE / 32 % 2 = 0 →
      timedOut = true ∨ s.chip.readableSettings = none →
      Completes (.settingsApply timedOut w h image) s (fun t => t.get F.SETTINGS_STATUS_DEFAULTED = 1 ∧ t.pend E.SETTINGS_FAIL = true ∧
        (∀ a ∈ s.chip.settingsRegs, t.rd a = s.chip.rd a ∧
          (s.chip.rd a = (Chip.init s.chip.build s.chip.fitted).rd a → t.rd a = (Chip.init s.chip.build s.chip.fitted).rd a)) ∧
        ((∃ k, k < 2 ∧ s.chip.copyBroken arSettings 0 k = true) → t.pend E.JOURNAL_FAIL = true))) ∧
    (∀ (w h : Nat) (image : List Byte) (k : Nat) (i : CopyInfo), s.chip.belfry.running = true → s.chip.get F.RESET_BRINGUP_DONE / 32 % 2 = 0 →
      s.chip.readableSettings = some (k, i) → Calm s.chip → (∀ pg, pg < 1024 → s.chip.en pg = false) →
      let payload := s.chip.copyPayload arSettings 0 k i
      let recs := setDecode payload.length payload
      (∀ r ∈ recs, r.typ = 1 ∧ r.words.length = 1 ∧ r.addr ∈ s.chip.settingsRegs ∧ r.addr ≠ F.THERMAL_MASK_MASK.addr) → (recs.map (·.addr)).Nodup →
      Completes (.settingsApply false w h image) s (fun t => t.get F.SETTINGS_STATUS_COPY = k ∧ t.get F.SETTINGS_SEQ_SEQ = i.seq ∧
        ∀ r ∈ recs, ∀ d, regAt s.chip.build r.addr = .reg d → t.rd r.addr = d.store (s.chip.rd r.addr) (BitVec.ofNat 32 (r.words.getD 0 0))))

/-! ### Start-up and debug (spec/16_start_up.md, spec/17_pins_electrical.md) -/

/-- The kinds of reset: what each clears, and what it keeps: the flash but for the operation it aborts (R372), the always-on domain with the cause
of the last Belfry restart (R351), and the halt and ALERT_N of a knell (R274). A supply that the part does not use resets nothing (R405, R406). The
TAP gives the balls of the boundary register their cells in EXTEST, and a reset of it gives them back (R422, R423). Shown to complete:
powerOnReset, deviceReset, resetCmdDevice, powerGoodTrue, jtagReset, jtagExtest. -/
def Obligations.KindsOfReset : Prop :=
  (∀ s : State, Completes .powerOnReset s (fun t => t.rst.held = true ∧ t.aon = AonSt.init ∧ t.build = s.chip.build ∧
    t.belfry.flash = s.chip.interruptFlash.belfry.flash ∧ (s.chip.flashWorks = false → t.belfry.flash = s.chip.belfry.flash) ∧
    t.get F.RESET_CAUSE_CAUSE = 0 ∧ t.get F.RESET_CAUSE_COUNT = 0 ∧ (∀ pg, pg < 1024 → t.en pg = false) ∧ .outputsSafe ∈ t.out)) ∧
  (∀ (s : State) (cause rail : Nat), s.chip.latched = false → s.chip.rst.held = false →
    cause = 2 ∨ (cause = 1 ∧ railUsed s.chip.build s.chip.fitted rail = true) → s.chip.aon.restart < 8 →
    Completes (.deviceReset cause rail) s (fun t => t.rst.held = true ∧ t.get F.RESET_CAUSE_CAUSE = cause ∧
      t.get F.RESET_CAUSE_RAIL = (if cause = 1 then rail else 0) ∧ t.get F.RESET_CAUSE_COUNT = (s.chip.aon.resets + 1) % 65536 ∧
      t.get F.BELFRY_STATUS_CAUSE = s.chip.aon.restart ∧ (cause = 1 → rail ∈ t.rst.lost) ∧
      t.belfry.flash = s.chip.interruptFlash.belfry.flash ∧ (s.chip.flashWorks = false → t.belfry.flash = s.chip.belfry.flash) ∧
      t.aon.knell = s.chip.aon.knell ∧ (∀ pg, pg < 1024 → t.en pg = false) ∧ .outputsSafe ∈ t.out ∧
      (s.chip.aon.knell.isSome = true → t.host.alertLow = true ∧ (s.chip.build = .T → t.driveState = dvHalt)))) ∧
  (∀ (s : State) (cause rail : Nat), cause ≠ 2 → (cause ≠ 1 ∨ railUsed s.chip.build s.chip.fitted rail = false) →
    Completes (.deviceReset cause rail) s (fun t => t = s.chip)) ∧
  (∀ (s : State) (o : Origin), Runs s → Calm s.chip → s.chip.aon.restart < 8 →
    Completes (.resetCmdDevice o) s (fun t => t.rst.held = false ∧ t.get F.RESET_CAUSE_CAUSE = 3 ∧
      t.get F.RESET_CAUSE_COUNT = (s.chip.aon.resets + 1) % 65536 ∧ t.get F.BELFRY_STATUS_CAUSE = s.chip.aon.restart ∧
      (s.chip.flashWorks = false → t.belfry.flash = s.chip.belfry.flash) ∧ (∀ pg, pg < 1024 → t.en pg = false) ∧
      t.aon.knell = s.chip.aon.knell ∧ (s.chip.aon.knell.isSome = true → t.host.alertLow = true ∧ (s.chip.build = .T → t.driveState = dvHalt)))) ∧
  (∀ s : State, Completes .powerGoodTrue s (fun t =>
    t = { s.chip with rst := { s.chip.rst with lost := [], held := s.chip.rst.held && s.chip.latched }, out := t.out } ∧
      t.out = s.chip.out ++ (if t.outCond = s.chip.outCond then [] else [.pins t.outCond]))) ∧
  (∀ s : State, s.chip.latched = false → s.chip.rst.extest = true →
    Completes .jtagReset s (fun t => t = { s.chip with rst := { s.chip.rst with extest := false, bsr := [] }, out := t.out } ∧
      .alertN s.chip.host.alertLow ∈ t.out ∧ (s.chip.build = .S → .clapOwn s.chip.redun.own ∈ t.out))) ∧
  (∀ (s : State) (own low : Bool) (cells : List Bool), s.chip.latched = false →
    Completes (.jtagExtest own low cells) s (fun t => t.rst.extest = true ∧ t.rst.bsr = cells ∧ t.regs = s.chip.regs ∧
      .alertN low ∈ t.out ∧ .scanOut ((bsrBalls s.chip.build).zip cells) ∈ t.out ∧ (s.chip.build = .S → .clapOwn own ∈ t.out) ∧
      (s.chip.build = .T → ∃ v, .scanIn v ∈ t.out)))

/-- Bring-up: the straps are sampled once; each step ends once, by completion or by timeout, none after the second without the XTAL PLL; without
PLL 2 the fabric is held until it locks; the XTAL PLL that locks at a retry releases the block, and full service follows where every step has
ended; a tile leaves PWM8 once step 11 has ended. Shown to complete: strapSample, bringupStepEnd, xtalPllRetry, pwm8Clear. -/
def Obligations.BringUp : Prop :=
  (∀ (s : State) (pos slot boot : Nat), s.chip.deaf = false → s.chip.get F.RESET_BRINGUP_DONE % 2 = 0 → pos < 8 → slot < 2 → boot < 4 →
    Completes (.strapSample pos slot boot) s (fun t => t.get F.DEVICE_STRAPS_STACK_POS = pos ∧ t.get F.DEVICE_STRAPS_PAIR_SLOT = slot ∧
      t.get F.DEVICE_STRAPS_BOOT_SEL = boot)) ∧
  (∀ (s : State) (n : Nat) (timedOut : Bool) (mask : Nat), s.chip.deaf = false → 1 ≤ n → n ≤ 12 → (3 ≤ n → s.chip.rst.xtalHeld = false) →
    s.chip.get F.RESET_BRINGUP_DONE / 2 ^ (n - 1) % 2 = 0 →
    Completes (.bringupStepEnd n timedOut mask) s (fun t => t.get F.RESET_BRINGUP_DONE = s.chip.get F.RESET_BRINGUP_DONE + 2 ^ (n - 1) ∧
      (timedOut = true → t.get F.RESET_BRINGUP_FAIL / 2 ^ (n - 1) % 2 = 1) ∧
      (timedOut = false → t.get F.RESET_BRINGUP_FAIL = s.chip.get F.RESET_BRINGUP_FAIL) ∧
      (s.chip.build = .T → timedOut = true → (n = 11 ∨ n = 12 → t.pend E.JOURNAL_FAIL = true) ∧ (n = 12 → t.pend E.DOSE_FAULT = true)))) ∧
  (∀ (s : State) (n : Nat) (timedOut : Bool) (mask : Nat), s.chip.deaf = false → 3 ≤ n → s.chip.rst.xtalHeld = true →
    Completes (.bringupStepEnd n timedOut mask) s (fun t => t = s.chip)) ∧
  (∀ s : State, s.chip.deaf = false → s.chip.rst.xtalHeld = true →
    Completes (.xtalPllRetry true) s (fun t => t.rst.xtalHeld = false ∧ t.get F.CLOCKS_REF_XTAL_OK = 1 ∧ t.frozen = false ∧
      t.idle = s.chip.rst.fabricHeld ∧
      (s.chip.get F.RESET_BRINGUP_DONE = 4095 → (s.chip.build = .T → s.chip.on F.RESET_SERVICE_PWM8 = false) → t.get F.RESET_SERVICE_LEVEL = 2))) ∧
  (∀ (s : State) (mask : Nat), s.chip.deaf = false → s.chip.rst.xtalHeld = false →
    (s.chip.get F.RESET_BRINGUP_DONE / 4 % 2 = 0 → s.chip.get F.CLOCKS_PLL_LOCK / 4 % 2 = 0 → mask / 4 % 2 = 0 →
      Completes (.bringupStepEnd 3 true mask) s (fun t => t.rst.fabricHeld = true ∧ t.idle = true)) ∧
    (s.chip.get F.RESET_BRINGUP_DONE / 4 % 2 = 1 → s.chip.rst.fabricHeld = true →
      Completes (.bringupStepEnd 3 false mask) s (fun t => t.rst.fabricHeld = false ∧ t.get F.RESET_BRINGUP_DONE = s.chip.get F.RESET_BRINGUP_DONE))) ∧
  (∀ s : State, Runs s → s.chip.build = .T → s.chip.belfryUp = true → s.chip.get F.RESET_BRINGUP_DONE / 1024 % 2 = 1 → s.chip.belfry.calibDue = false →
    Completes .pwm8Clear s (fun t => t.get F.RESET_SERVICE_PWM8 = 0))
end

