-- ==== Sys2Proof/Laws/SMap.lean ====
section
/-! SUPPORT. Sparse tables: what a read finds after a write, and that writes keep the canonical form. -/

namespace Sys2Proof.Machine

variable {α : Type}

@[simp] theorem smFind_smSet (m : SMap α) (k j : Nat) (v : α) : smFind (smSet m k v) j = if j = k then some v else smFind m j := by
  induction m with
  | nil => simp [smSet, smFind]
  | cons p t ih =>
    obtain ⟨i, w⟩ := p
    simp only [smSet]
    split
    · simp [smFind]
    · split
      · subst_vars; simp only [smFind]; split <;> simp_all
      · simp only [smFind, ih]; split <;> split <;> simp_all

@[simp] theorem smFind_smDel (m : SMap α) (k j : Nat) : smFind (smDel m k) j = if j = k then none else smFind m j := by
  induction m with
  | nil => simp [smDel, smFind]
  | cons p t ih =>
    obtain ⟨i, w⟩ := p
    by_cases h : i = k
    · subst h
      have e : smDel ((i, w) :: t) i = smDel t i := by simp [smDel]
      rw [e, ih]; simp only [smFind]; split <;> simp_all
    · have e : smDel ((i, w) :: t) k = (i, w) :: smDel t k := by simp [smDel, h]
      rw [e]; simp only [smFind, ih]; split <;> split <;> simp_all

@[simp] theorem smGet_smSet (d : α) (m : SMap α) (k j : Nat) (v : α) : smGet d (smSet m k v) j = if j = k then v else smGet d m j := by
  unfold smGet; rw [smFind_smSet]; split <;> simp

@[simp] theorem smGet_smPut [DecidableEq α] (d : α) (m : SMap α) (k j : Nat) (v : α) :
    smGet d (smPut d m k v) j = if j = k then v else smGet d m j := by
  unfold smPut; split
  · subst_vars; unfold smGet; rw [smFind_smDel]; split <;> simp
  · simp

@[simp] theorem smGet_nil (d : α) (k : Nat) : smGet d ([] : SMap α) k = d := rfl

theorem smSet_mem (m : SMap α) (k : Nat) (v : α) (p : Nat × α) : p ∈ smSet m k v → p = (k, v) ∨ p ∈ m := by
  induction m with
  | nil => simp [smSet]
  | cons q t ih =>
    obtain ⟨i, w⟩ := q
    simp only [smSet]
    split
    · simp
    · split
      · simp only [List.mem_cons]; tauto
      · simp only [List.mem_cons]; intro h; rcases h with h | h
        · tauto
        · rcases ih h with h | h <;> tauto

theorem smSet_sorted (m : SMap α) (k : Nat) (v : α) (h : List.Pairwise (fun p q => p.1 < q.1) m) :
    List.Pairwise (fun p q => p.1 < q.1) (smSet m k v) := by
  induction m with
  | nil => simp [smSet]
  | cons q t ih =>
    obtain ⟨i, w⟩ := q
    rw [List.pairwise_cons] at h
    simp only [smSet]
    split
    · rename_i hk
      rw [List.pairwise_cons, List.pairwise_cons]
      refine ⟨?_, h⟩
      intro p hp
      rcases List.mem_cons.1 hp with rfl | hp
      · exact hk
      · exact Nat.lt_trans hk (h.1 p hp)
    · split
      · subst_vars; exact List.pairwise_cons.2 h
      · rename_i h1 h2
        rw [List.pairwise_cons]
        refine ⟨?_, ih h.2⟩
        intro p hp
        rcases smSet_mem t k v p hp with rfl | hp
        · show i < k; omega
        · exact h.1 p hp

/-- A write keeps the canonical form. -/
theorem smPut_wf [DecidableEq α] (d : α) (m : SMap α) (k : Nat) (v : α) (h : smWf d m = true) : smWf d (smPut d m k v) = true := by
  simp only [smWf, Bool.and_eq_true, decide_eq_true_eq, List.all_eq_true] at h ⊢
  unfold smPut
  split
  · exact ⟨h.1.filter _, fun p hp => h.2 p (List.mem_filter.1 hp).1⟩
  · refine ⟨smSet_sorted m k v h.1, ?_⟩
    intro p hp
    rcases smSet_mem m k v p hp with rfl | hp
    · assumption
    · exact h.2 p hp

@[simp] theorem smWf_nil [DecidableEq α] (d : α) : smWf d ([] : SMap α) = true := rfl

/-! ### Bit fields -/

theorem bitsOf_lt (w : Word) (hi lo : Nat) : bitsOf w hi lo < 2 ^ (hi + 1 - lo) := Nat.mod_lt _ (Nat.two_pow_pos _)

end Sys2Proof.Machine
end

