-- ==== Sys2Proof/Laws/Regs.lean ====
section
/-! SUPPORT. The register file: a field read after a field written, and what leaves a register alone. -/

namespace Sys2Proof.Machine

/-! ### Bit fields -/

theorem ins_parts (w A K q b r n : Nat) (hw : w = A * (K * q + b) + r) : w - b * A + n * A = A * (K * q + n) + r := by
  subst hw
  have e : A * (K * q + b) + r = A * (K * q) + r + b * A := by ring
  rw [e, Nat.add_sub_cancel]; ring

/-- What `insBits` builds, before it is cut to 32 bits. -/
theorem ins_nat (w : Word) (hi lo n : Nat) :
    ∃ q r, r < 2 ^ lo ∧ w.toNat = 2 ^ lo * (2 ^ (hi + 1 - lo) * q + bitsOf w hi lo) + r ∧
      w.toNat - bitsOf w hi lo * 2 ^ lo + n % 2 ^ (hi + 1 - lo) * 2 ^ lo = 2 ^ lo * (2 ^ (hi + 1 - lo) * q + n % 2 ^ (hi + 1 - lo)) + r := by
  refine ⟨w.toNat / 2 ^ lo / 2 ^ (hi + 1 - lo), w.toNat % 2 ^ lo, Nat.mod_lt _ (Nat.two_pow_pos _), ?_, ?_⟩
  · unfold bitsOf; rw [Nat.div_add_mod, Nat.div_add_mod]
  · apply ins_parts; unfold bitsOf; rw [Nat.div_add_mod, Nat.div_add_mod]

theorem ins_lt (w : Word) (hi lo n : Nat) (h1 : lo ≤ hi) (h2 : hi < 32) :
    w.toNat - bitsOf w hi lo * 2 ^ lo + n % 2 ^ (hi + 1 - lo) * 2 ^ lo < 2 ^ 32 := by
  obtain ⟨q, r, hr, hw, e⟩ := ins_nat w hi lo n
  rw [e]
  have hlt : w.toNat < 2 ^ 32 := w.isLt
  have hk : (2 : Nat) ^ 32 = 2 ^ lo * (2 ^ (hi + 1 - lo) * 2 ^ (31 - hi)) := by rw [← Nat.pow_add, ← Nat.pow_add]; congr 1; omega
  have hq : q < 2 ^ (31 - hi) := by
    by_contra hc
    have hc := Nat.le_of_not_lt hc
    have : 2 ^ 32 ≤ w.toNat := by
      rw [hk, hw]
      calc 2 ^ lo * (2 ^ (hi + 1 - lo) * 2 ^ (31 - hi)) ≤ 2 ^ lo * (2 ^ (hi + 1 - lo) * q) := by gcongr
        _ ≤ _ := by rw [Nat.mul_add]; omega
    omega
  have hn : n % 2 ^ (hi + 1 - lo) < 2 ^ (hi + 1 - lo) := Nat.mod_lt _ (Nat.two_pow_pos _)
  have h3 : 2 ^ (hi + 1 - lo) * q + n % 2 ^ (hi + 1 - lo) + 1 ≤ 2 ^ (hi + 1 - lo) * 2 ^ (31 - hi) := by
    calc 2 ^ (hi + 1 - lo) * q + n % 2 ^ (hi + 1 - lo) + 1 ≤ 2 ^ (hi + 1 - lo) * q + 2 ^ (hi + 1 - lo) := by omega
      _ = 2 ^ (hi + 1 - lo) * (q + 1) := by ring
      _ ≤ _ := by gcongr; omega
  rw [hk]
  calc 2 ^ lo * (2 ^ (hi + 1 - lo) * q + n % 2 ^ (hi + 1 - lo)) + r < 2 ^ lo * (2 ^ (hi + 1 - lo) * q + n % 2 ^ (hi + 1 - lo)) + 2 ^ lo := by omega
    _ = 2 ^ lo * (2 ^ (hi + 1 - lo) * q + n % 2 ^ (hi + 1 - lo) + 1) := by ring
    _ ≤ _ := by gcongr

theorem insBits_toNat (w : Word) (hi lo n : Nat) (h1 : lo ≤ hi) (h2 : hi < 32) :
    (insBits w hi lo n).toNat = w.toNat - bitsOf w hi lo * 2 ^ lo + n % 2 ^ (hi + 1 - lo) * 2 ^ lo := by
  unfold insBits; rw [BitVec.toNat_ofNat]; exact Nat.mod_eq_of_lt (ins_lt w hi lo n h1 h2)

/-- The bits just inserted. -/
theorem bitsOf_insBits (w : Word) (hi lo n : Nat) (h1 : lo ≤ hi) (h2 : hi < 32) : bitsOf (insBits w hi lo n) hi lo = n % 2 ^ (hi + 1 - lo) := by
  obtain ⟨q, r, hr, hw, e⟩ := ins_nat w hi lo n
  unfold bitsOf
  rw [insBits_toNat w hi lo n h1 h2, e, Nat.mul_add_div (Nat.two_pow_pos _), Nat.div_eq_of_lt hr, Nat.add_zero, Nat.mul_add_mod,
    Nat.mod_eq_of_lt (Nat.mod_lt _ (Nat.two_pow_pos _))]

theorem bits_low (x y l m : Nat) (h : x % 2 ^ (l + m) = y % 2 ^ (l + m)) : x / 2 ^ l % 2 ^ m = y / 2 ^ l % 2 ^ m := by
  rw [Nat.pow_add] at h
  rw [← Nat.mod_mul_right_div_self, ← Nat.mod_mul_right_div_self, h]

/-- Bits outside those inserted. -/
theorem bitsOf_insBits_ne (w : Word) (hi lo n h l : Nat) (h1 : lo ≤ hi) (h2 : hi < 32) (hl : l ≤ h) (hd : h < lo ∨ hi < l) :
    bitsOf (insBits w hi lo n) h l = bitsOf w h l := by
  obtain ⟨q, r, hr, hw, e⟩ := ins_nat w hi lo n
  unfold bitsOf at *
  rw [insBits_toNat w hi lo n h1 h2]
  unfold bitsOf
  rw [e]
  rcases hd with hd | hd
  · apply bits_low
    rw [hw]
    have e2 : l + (h + 1 - l) = h + 1 := by omega
    have e3 : lo = (h + 1) + (lo - (h + 1)) := by omega
    rw [e2]
    have : (2 : Nat) ^ lo = 2 ^ (h + 1) * 2 ^ (lo - (h + 1)) := by rw [← Nat.pow_add]; congr 1
    rw [this, Nat.mul_assoc, Nat.mul_add_mod, Nat.mul_assoc, Nat.mul_add_mod]
  · have e2 : l = lo + ((hi + 1 - lo) + (l - (hi + 1))) := by omega
    have e3 : (2 : Nat) ^ l = 2 ^ lo * (2 ^ (hi + 1 - lo) * 2 ^ (l - (hi + 1))) := by rw [← Nat.pow_add, ← Nat.pow_add]; congr 1
    have key : ∀ b, b < 2 ^ (hi + 1 - lo) → (2 ^ lo * (2 ^ (hi + 1 - lo) * q + b) + r) / 2 ^ l = q / 2 ^ (l - (hi + 1)) := by
      intro b hb
      rw [e3, ← Nat.div_div_eq_div_mul, Nat.mul_add_div (Nat.two_pow_pos _), Nat.div_eq_of_lt hr, Nat.add_zero, ← Nat.div_div_eq_div_mul,
        Nat.mul_add_div (Nat.two_pow_pos _), Nat.div_eq_of_lt hb, Nat.add_zero]
    rw [hw, key _ (Nat.mod_lt _ (Nat.two_pow_pos _)), key _ (Nat.mod_lt _ (Nat.two_pow_pos _))]

/-! ### Registers and fields -/

@[simp] theorem Chip.rd_wr (c : Chip) (a b : Nat) (w : Word) : (c.wr a w).rd b = if b = a then w else c.rd b := by
  unfold Chip.rd Chip.wr; dsimp only; rw [smFind_smSet]; split <;> simp

theorem Chip.rd_set (c : Chip) (f : Fld) (v b : Nat) : (c.set f v).rd b = if b = f.addr then insBits (c.rd f.addr) f.hi f.lo v else c.rd b := by
  unfold Chip.set; rw [Chip.rd_wr]

/-- A register other than the one set. -/
theorem Chip.rd_set_ne (c : Chip) (f : Fld) (v b : Nat) (h : b ≠ f.addr) : (c.set f v).rd b = c.rd b := by rw [Chip.rd_set, if_neg h]

/-- A field just set. -/
theorem Chip.get_set (c : Chip) (f : Fld) (v : Nat) (h1 : f.lo ≤ f.hi) (h2 : f.hi < 32) : (c.set f v).get f = v % 2 ^ (f.hi + 1 - f.lo) := by
  unfold Chip.get; rw [Chip.rd_set, if_pos rfl]; exact bitsOf_insBits _ _ _ _ h1 h2

/-- A field of another register. -/
theorem Chip.get_set_ne (c : Chip) (f g : Fld) (v : Nat) (h : g.addr ≠ f.addr) : (c.set f v).get g = c.get g := by
  unfold Chip.get; rw [Chip.rd_set_ne _ _ _ _ h]

/-- Another field of the same register. -/
theorem Chip.get_set_field (c : Chip) (f g : Fld) (v : Nat) (h1 : f.lo ≤ f.hi) (h2 : f.hi < 32) (h3 : g.lo ≤ g.hi) (h : g.hi < f.lo ∨ f.hi < g.lo) :
    (c.set f v).get g = c.get g := by
  unfold Chip.get; rw [Chip.rd_set]; split
  · rename_i e; rw [e]; exact bitsOf_insBits_ne _ _ _ _ _ _ h1 h2 h3 h
  · rfl

theorem Chip.get_lt (c : Chip) (f : Fld) : c.get f < 2 ^ (f.hi + 1 - f.lo) := bitsOf_lt _ _ _

theorem Chip.get_wr_ne (c : Chip) (f : Fld) (a : Nat) (w : Word) (h : f.addr ≠ a) : (c.wr a w).get f = c.get f := by
  unfold Chip.get; rw [Chip.rd_wr, if_neg h]

end Sys2Proof.Machine
end

