-- ==== Sys2Proof/Laws/State.lean ====
section
/-! SUPPORT. What each update of the block leaves alone: one lemma for each part of the state and each update, true by rfl. -/

namespace Sys2Proof.Machine

/-! ### `wr` -/

@[simp] theorem Chip.wr_build (c : Chip) (a : Nat) (w : Word) : (c.wr a w).build = c.build := rfl
@[simp] theorem Chip.wr_inUse (c : Chip) (a : Nat) (w : Word) : (c.wr a w).inUse = c.inUse := rfl
@[simp] theorem Chip.wr_free (c : Chip) (a : Nat) (w : Word) : (c.wr a w).free = c.free := rfl
@[simp] theorem Chip.wr_unpredictable (c : Chip) (a : Nat) (w : Word) : (c.wr a w).unpredictable = c.unpredictable := rfl
@[simp] theorem Chip.wr_out (c : Chip) (a : Nat) (w : Word) : (c.wr a w).out = c.out := rfl
@[simp] theorem Chip.wr_evq (c : Chip) (a : Nat) (w : Word) : (c.wr a w).evq = c.evq := rfl
@[simp] theorem Chip.wr_evqExtra (c : Chip) (a : Nat) (w : Word) : (c.wr a w).evqExtra = c.evqExtra := rfl
@[simp] theorem Chip.wr_changeQ (c : Chip) (a : Nat) (w : Word) : (c.wr a w).changeQ = c.changeQ := rfl
@[simp] theorem Chip.wr_host (c : Chip) (a : Nat) (w : Word) : (c.wr a w).host = c.host := rfl
@[simp] theorem Chip.wr_time (c : Chip) (a : Nat) (w : Word) : (c.wr a w).time = c.time := rfl
@[simp] theorem Chip.wr_bar (c : Chip) (a : Nat) (w : Word) : (c.wr a w).bar = c.bar := rfl
@[simp] theorem Chip.wr_launchQ (c : Chip) (a : Nat) (w : Word) : (c.wr a w).launchQ = c.launchQ := rfl
@[simp] theorem Chip.wr_ctlTxA (c : Chip) (a : Nat) (w : Word) : (c.wr a w).ctlTxA = c.ctlTxA := rfl
@[simp] theorem Chip.wr_ctlTxB (c : Chip) (a : Nat) (w : Word) : (c.wr a w).ctlTxB = c.ctlTxB := rfl
@[simp] theorem Chip.wr_flows (c : Chip) (a : Nat) (w : Word) : (c.wr a w).flows = c.flows := rfl
@[simp] theorem Chip.wr_dp (c : Chip) (a : Nat) (w : Word) : (c.wr a w).dp = c.dp := rfl
@[simp] theorem Chip.wr_ports (c : Chip) (a : Nat) (w : Word) : (c.wr a w).ports = c.ports := rfl
@[simp] theorem Chip.wr_chain (c : Chip) (a : Nat) (w : Word) : (c.wr a w).chain = c.chain := rfl
@[simp] theorem Chip.wr_mem (c : Chip) (a : Nat) (w : Word) : (c.wr a w).mem = c.mem := rfl
@[simp] theorem Chip.wr_actBit (c : Chip) (a : Nat) (w : Word) : (c.wr a w).actBit = c.actBit := rfl
@[simp] theorem Chip.wr_map (c : Chip) (a : Nat) (w : Word) : (c.wr a w).map = c.map := rfl
@[simp] theorem Chip.wr_scan (c : Chip) (a : Nat) (w : Word) : (c.wr a w).scan = c.scan := rfl
@[simp] theorem Chip.wr_preview (c : Chip) (a : Nat) (w : Word) : (c.wr a w).preview = c.preview := rfl
@[simp] theorem Chip.wr_aon (c : Chip) (a : Nat) (w : Word) : (c.wr a w).aon = c.aon := rfl
@[simp] theorem Chip.wr_belfry (c : Chip) (a : Nat) (w : Word) : (c.wr a w).belfry = c.belfry := rfl
@[simp] theorem Chip.wr_therm (c : Chip) (a : Nat) (w : Word) : (c.wr a w).therm = c.therm := rfl
@[simp] theorem Chip.wr_upd (c : Chip) (a : Nat) (w : Word) : (c.wr a w).upd = c.upd := rfl
@[simp] theorem Chip.wr_tile (c : Chip) (a : Nat) (w : Word) : (c.wr a w).tile = c.tile := rfl
@[simp] theorem Chip.wr_drive (c : Chip) (a : Nat) (w : Word) : (c.wr a w).drive = c.drive := rfl
@[simp] theorem Chip.wr_redun (c : Chip) (a : Nat) (w : Word) : (c.wr a w).redun = c.redun := rfl
@[simp] theorem Chip.wr_mirror (c : Chip) (a : Nat) (w : Word) : (c.wr a w).mirror = c.mirror := rfl
@[simp] theorem Chip.wr_rst (c : Chip) (a : Nat) (w : Word) : (c.wr a w).rst = c.rst := rfl

/-! ### `set` -/

@[simp] theorem Chip.set_build (c : Chip) (f : Fld) (v : Nat) : (c.set f v).build = c.build := rfl
@[simp] theorem Chip.set_inUse (c : Chip) (f : Fld) (v : Nat) : (c.set f v).inUse = c.inUse := rfl
@[simp] theorem Chip.set_free (c : Chip) (f : Fld) (v : Nat) : (c.set f v).free = c.free := rfl
@[simp] theorem Chip.set_unpredictable (c : Chip) (f : Fld) (v : Nat) : (c.set f v).unpredictable = c.unpredictable := rfl
@[simp] theorem Chip.set_out (c : Chip) (f : Fld) (v : Nat) : (c.set f v).out = c.out := rfl
@[simp] theorem Chip.set_evq (c : Chip) (f : Fld) (v : Nat) : (c.set f v).evq = c.evq := rfl
@[simp] theorem Chip.set_evqExtra (c : Chip) (f : Fld) (v : Nat) : (c.set f v).evqExtra = c.evqExtra := rfl
@[simp] theorem Chip.set_changeQ (c : Chip) (f : Fld) (v : Nat) : (c.set f v).changeQ = c.changeQ := rfl
@[simp] theorem Chip.set_host (c : Chip) (f : Fld) (v : Nat) : (c.set f v).host = c.host := rfl
@[simp] theorem Chip.set_time (c : Chip) (f : Fld) (v : Nat) : (c.set f v).time = c.time := rfl
@[simp] theorem Chip.set_bar (c : Chip) (f : Fld) (v : Nat) : (c.set f v).bar = c.bar := rfl
@[simp] theorem Chip.set_launchQ (c : Chip) (f : Fld) (v : Nat) : (c.set f v).launchQ = c.launchQ := rfl
@[simp] theorem Chip.set_ctlTxA (c : Chip) (f : Fld) (v : Nat) : (c.set f v).ctlTxA = c.ctlTxA := rfl
@[simp] theorem Chip.set_ctlTxB (c : Chip) (f : Fld) (v : Nat) : (c.set f v).ctlTxB = c.ctlTxB := rfl
@[simp] theorem Chip.set_flows (c : Chip) (f : Fld) (v : Nat) : (c.set f v).flows = c.flows := rfl
@[simp] theorem Chip.set_dp (c : Chip) (f : Fld) (v : Nat) : (c.set f v).dp = c.dp := rfl
@[simp] theorem Chip.set_ports (c : Chip) (f : Fld) (v : Nat) : (c.set f v).ports = c.ports := rfl
@[simp] theorem Chip.set_chain (c : Chip) (f : Fld) (v : Nat) : (c.set f v).chain = c.chain := rfl
@[simp] theorem Chip.set_mem (c : Chip) (f : Fld) (v : Nat) : (c.set f v).mem = c.mem := rfl
@[simp] theorem Chip.set_actBit (c : Chip) (f : Fld) (v : Nat) : (c.set f v).actBit = c.actBit := rfl
@[simp] theorem Chip.set_map (c : Chip) (f : Fld) (v : Nat) : (c.set f v).map = c.map := rfl
@[simp] theorem Chip.set_scan (c : Chip) (f : Fld) (v : Nat) : (c.set f v).scan = c.scan := rfl
@[simp] theorem Chip.set_preview (c : Chip) (f : Fld) (v : Nat) : (c.set f v).preview = c.preview := rfl
@[simp] theorem Chip.set_aon (c : Chip) (f : Fld) (v : Nat) : (c.set f v).aon = c.aon := rfl
@[simp] theorem Chip.set_belfry (c : Chip) (f : Fld) (v : Nat) : (c.set f v).belfry = c.belfry := rfl
@[simp] theorem Chip.set_therm (c : Chip) (f : Fld) (v : Nat) : (c.set f v).therm = c.therm := rfl
@[simp] theorem Chip.set_upd (c : Chip) (f : Fld) (v : Nat) : (c.set f v).upd = c.upd := rfl
@[simp] theorem Chip.set_tile (c : Chip) (f : Fld) (v : Nat) : (c.set f v).tile = c.tile := rfl
@[simp] theorem Chip.set_drive (c : Chip) (f : Fld) (v : Nat) : (c.set f v).drive = c.drive := rfl
@[simp] theorem Chip.set_redun (c : Chip) (f : Fld) (v : Nat) : (c.set f v).redun = c.redun := rfl
@[simp] theorem Chip.set_mirror (c : Chip) (f : Fld) (v : Nat) : (c.set f v).mirror = c.mirror := rfl
@[simp] theorem Chip.set_rst (c : Chip) (f : Fld) (v : Nat) : (c.set f v).rst = c.rst := rfl

/-! ### `setUse` -/

@[simp] theorem Chip.setUse_build (c : Chip) (f : Fld) (v : Nat) : (c.setUse f v).build = c.build := rfl
@[simp] theorem Chip.setUse_regs (c : Chip) (f : Fld) (v : Nat) : (c.setUse f v).regs = c.regs := rfl
@[simp] theorem Chip.setUse_free (c : Chip) (f : Fld) (v : Nat) : (c.setUse f v).free = c.free := rfl
@[simp] theorem Chip.setUse_unpredictable (c : Chip) (f : Fld) (v : Nat) : (c.setUse f v).unpredictable = c.unpredictable := rfl
@[simp] theorem Chip.setUse_out (c : Chip) (f : Fld) (v : Nat) : (c.setUse f v).out = c.out := rfl
@[simp] theorem Chip.setUse_evq (c : Chip) (f : Fld) (v : Nat) : (c.setUse f v).evq = c.evq := rfl
@[simp] theorem Chip.setUse_evqExtra (c : Chip) (f : Fld) (v : Nat) : (c.setUse f v).evqExtra = c.evqExtra := rfl
@[simp] theorem Chip.setUse_changeQ (c : Chip) (f : Fld) (v : Nat) : (c.setUse f v).changeQ = c.changeQ := rfl
@[simp] theorem Chip.setUse_host (c : Chip) (f : Fld) (v : Nat) : (c.setUse f v).host = c.host := rfl
@[simp] theorem Chip.setUse_time (c : Chip) (f : Fld) (v : Nat) : (c.setUse f v).time = c.time := rfl
@[simp] theorem Chip.setUse_bar (c : Chip) (f : Fld) (v : Nat) : (c.setUse f v).bar = c.bar := rfl
@[simp] theorem Chip.setUse_launchQ (c : Chip) (f : Fld) (v : Nat) : (c.setUse f v).launchQ = c.launchQ := rfl
@[simp] theorem Chip.setUse_ctlTxA (c : Chip) (f : Fld) (v : Nat) : (c.setUse f v).ctlTxA = c.ctlTxA := rfl
@[simp] theorem Chip.setUse_ctlTxB (c : Chip) (f : Fld) (v : Nat) : (c.setUse f v).ctlTxB = c.ctlTxB := rfl
@[simp] theorem Chip.setUse_flows (c : Chip) (f : Fld) (v : Nat) : (c.setUse f v).flows = c.flows := rfl
@[simp] theorem Chip.setUse_dp (c : Chip) (f : Fld) (v : Nat) : (c.setUse f v).dp = c.dp := rfl
@[simp] theorem Chip.setUse_ports (c : Chip) (f : Fld) (v : Nat) : (c.setUse f v).ports = c.ports := rfl
@[simp] theorem Chip.setUse_chain (c : Chip) (f : Fld) (v : Nat) : (c.setUse f v).chain = c.chain := rfl
@[simp] theorem Chip.setUse_mem (c : Chip) (f : Fld) (v : Nat) : (c.setUse f v).mem = c.mem := rfl
@[simp] theorem Chip.setUse_actBit (c : Chip) (f : Fld) (v : Nat) : (c.setUse f v).actBit = c.actBit := rfl
@[simp] theorem Chip.setUse_map (c : Chip) (f : Fld) (v : Nat) : (c.setUse f v).map = c.map := rfl
@[simp] theorem Chip.setUse_scan (c : Chip) (f : Fld) (v : Nat) : (c.setUse f v).scan = c.scan := rfl
@[simp] theorem Chip.setUse_preview (c : Chip) (f : Fld) (v : Nat) : (c.setUse f v).preview = c.preview := rfl
@[simp] theorem Chip.setUse_aon (c : Chip) (f : Fld) (v : Nat) : (c.setUse f v).aon = c.aon := rfl
@[simp] theorem Chip.setUse_belfry (c : Chip) (f : Fld) (v : Nat) : (c.setUse f v).belfry = c.belfry := rfl
@[simp] theorem Chip.setUse_therm (c : Chip) (f : Fld) (v : Nat) : (c.setUse f v).therm = c.therm := rfl
@[simp] theorem Chip.setUse_upd (c : Chip) (f : Fld) (v : Nat) : (c.setUse f v).upd = c.upd := rfl
@[simp] theorem Chip.setUse_tile (c : Chip) (f : Fld) (v : Nat) : (c.setUse f v).tile = c.tile := rfl
@[simp] theorem Chip.setUse_drive (c : Chip) (f : Fld) (v : Nat) : (c.setUse f v).drive = c.drive := rfl
@[simp] theorem Chip.setUse_redun (c : Chip) (f : Fld) (v : Nat) : (c.setUse f v).redun = c.redun := rfl
@[simp] theorem Chip.setUse_mirror (c : Chip) (f : Fld) (v : Nat) : (c.setUse f v).mirror = c.mirror := rfl
@[simp] theorem Chip.setUse_rst (c : Chip) (f : Fld) (v : Nat) : (c.setUse f v).rst = c.rst := rfl

/-! ### `ticks` -/

@[simp] theorem Chip.ticks_build (c : Chip) (n : Nat) : (c.ticks n).build = c.build := rfl
@[simp] theorem Chip.ticks_regs (c : Chip) (n : Nat) : (c.ticks n).regs = c.regs := rfl
@[simp] theorem Chip.ticks_inUse (c : Chip) (n : Nat) : (c.ticks n).inUse = c.inUse := rfl
@[simp] theorem Chip.ticks_free (c : Chip) (n : Nat) : (c.ticks n).free = c.free := rfl
@[simp] theorem Chip.ticks_unpredictable (c : Chip) (n : Nat) : (c.ticks n).unpredictable = c.unpredictable := rfl
@[simp] theorem Chip.ticks_out (c : Chip) (n : Nat) : (c.ticks n).out = c.out := rfl
@[simp] theorem Chip.ticks_evq (c : Chip) (n : Nat) : (c.ticks n).evq = c.evq := rfl
@[simp] theorem Chip.ticks_evqExtra (c : Chip) (n : Nat) : (c.ticks n).evqExtra = c.evqExtra := rfl
@[simp] theorem Chip.ticks_changeQ (c : Chip) (n : Nat) : (c.ticks n).changeQ = c.changeQ := rfl
@[simp] theorem Chip.ticks_host (c : Chip) (n : Nat) : (c.ticks n).host = c.host := rfl
@[simp] theorem Chip.ticks_bar (c : Chip) (n : Nat) : (c.ticks n).bar = c.bar := rfl
@[simp] theorem Chip.ticks_launchQ (c : Chip) (n : Nat) : (c.ticks n).launchQ = c.launchQ := rfl
@[simp] theorem Chip.ticks_ctlTxA (c : Chip) (n : Nat) : (c.ticks n).ctlTxA = c.ctlTxA := rfl
@[simp] theorem Chip.ticks_ctlTxB (c : Chip) (n : Nat) : (c.ticks n).ctlTxB = c.ctlTxB := rfl
@[simp] theorem Chip.ticks_flows (c : Chip) (n : Nat) : (c.ticks n).flows = c.flows := rfl
@[simp] theorem Chip.ticks_dp (c : Chip) (n : Nat) : (c.ticks n).dp = c.dp := rfl
@[simp] theorem Chip.ticks_ports (c : Chip) (n : Nat) : (c.ticks n).ports = c.ports := rfl
@[simp] theorem Chip.ticks_chain (c : Chip) (n : Nat) : (c.ticks n).chain = c.chain := rfl
@[simp] theorem Chip.ticks_mem (c : Chip) (n : Nat) : (c.ticks n).mem = c.mem := rfl
@[simp] theorem Chip.ticks_actBit (c : Chip) (n : Nat) : (c.ticks n).actBit = c.actBit := rfl
@[simp] theorem Chip.ticks_map (c : Chip) (n : Nat) : (c.ticks n).map = c.map := rfl
@[simp] theorem Chip.ticks_scan (c : Chip) (n : Nat) : (c.ticks n).scan = c.scan := rfl
@[simp] theorem Chip.ticks_preview (c : Chip) (n : Nat) : (c.ticks n).preview = c.preview := rfl
@[simp] theorem Chip.ticks_aon (c : Chip) (n : Nat) : (c.ticks n).aon = c.aon := rfl
@[simp] theorem Chip.ticks_belfry (c : Chip) (n : Nat) : (c.ticks n).belfry = c.belfry := rfl
@[simp] theorem Chip.ticks_therm (c : Chip) (n : Nat) : (c.ticks n).therm = c.therm := rfl
@[simp] theorem Chip.ticks_upd (c : Chip) (n : Nat) : (c.ticks n).upd = c.upd := rfl
@[simp] theorem Chip.ticks_tile (c : Chip) (n : Nat) : (c.ticks n).tile = c.tile := rfl
@[simp] theorem Chip.ticks_drive (c : Chip) (n : Nat) : (c.ticks n).drive = c.drive := rfl
@[simp] theorem Chip.ticks_redun (c : Chip) (n : Nat) : (c.ticks n).redun = c.redun := rfl
@[simp] theorem Chip.ticks_mirror (c : Chip) (n : Nat) : (c.ticks n).mirror = c.mirror := rfl
@[simp] theorem Chip.ticks_rst (c : Chip) (n : Nat) : (c.ticks n).rst = c.rst := rfl

/-! ### `setPort` -/

@[simp] theorem Chip.setPort_build (c : Chip) (p : Nat) (s : PortSt) : (c.setPort p s).build = c.build := rfl
@[simp] theorem Chip.setPort_regs (c : Chip) (p : Nat) (s : PortSt) : (c.setPort p s).regs = c.regs := rfl
@[simp] theorem Chip.setPort_inUse (c : Chip) (p : Nat) (s : PortSt) : (c.setPort p s).inUse = c.inUse := rfl
@[simp] theorem Chip.setPort_free (c : Chip) (p : Nat) (s : PortSt) : (c.setPort p s).free = c.free := rfl
@[simp] theorem Chip.setPort_unpredictable (c : Chip) (p : Nat) (s : PortSt) : (c.setPort p s).unpredictable = c.unpredictable := rfl
@[simp] theorem Chip.setPort_out (c : Chip) (p : Nat) (s : PortSt) : (c.setPort p s).out = c.out := rfl
@[simp] theorem Chip.setPort_evq (c : Chip) (p : Nat) (s : PortSt) : (c.setPort p s).evq = c.evq := rfl
@[simp] theorem Chip.setPort_evqExtra (c : Chip) (p : Nat) (s : PortSt) : (c.setPort p s).evqExtra = c.evqExtra := rfl
@[simp] theorem Chip.setPort_changeQ (c : Chip) (p : Nat) (s : PortSt) : (c.setPort p s).changeQ = c.changeQ := rfl
@[simp] theorem Chip.setPort_host (c : Chip) (p : Nat) (s : PortSt) : (c.setPort p s).host = c.host := rfl
@[simp] theorem Chip.setPort_time (c : Chip) (p : Nat) (s : PortSt) : (c.setPort p s).time = c.time := rfl
@[simp] theorem Chip.setPort_bar (c : Chip) (p : Nat) (s : PortSt) : (c.setPort p s).bar = c.bar := rfl
@[simp] theorem Chip.setPort_launchQ (c : Chip) (p : Nat) (s : PortSt) : (c.setPort p s).launchQ = c.launchQ := rfl
@[simp] theorem Chip.setPort_ctlTxA (c : Chip) (p : Nat) (s : PortSt) : (c.setPort p s).ctlTxA = c.ctlTxA := rfl
@[simp] theorem Chip.setPort_ctlTxB (c : Chip) (p : Nat) (s : PortSt) : (c.setPort p s).ctlTxB = c.ctlTxB := rfl
@[simp] theorem Chip.setPort_flows (c : Chip) (p : Nat) (s : PortSt) : (c.setPort p s).flows = c.flows := rfl
@[simp] theorem Chip.setPort_dp (c : Chip) (p : Nat) (s : PortSt) : (c.setPort p s).dp = c.dp := rfl
@[simp] theorem Chip.setPort_chain (c : Chip) (p : Nat) (s : PortSt) : (c.setPort p s).chain = c.chain := rfl
@[simp] theorem Chip.setPort_mem (c : Chip) (p : Nat) (s : PortSt) : (c.setPort p s).mem = c.mem := rfl
@[simp] theorem Chip.setPort_actBit (c : Chip) (p : Nat) (s : PortSt) : (c.setPort p s).actBit = c.actBit := rfl
@[simp] theorem Chip.setPort_map (c : Chip) (p : Nat) (s : PortSt) : (c.setPort p s).map = c.map := rfl
@[simp] theorem Chip.setPort_scan (c : Chip) (p : Nat) (s : PortSt) : (c.setPort p s).scan = c.scan := rfl
@[simp] theorem Chip.setPort_preview (c : Chip) (p : Nat) (s : PortSt) : (c.setPort p s).preview = c.preview := rfl
@[simp] theorem Chip.setPort_aon (c : Chip) (p : Nat) (s : PortSt) : (c.setPort p s).aon = c.aon := rfl
@[simp] theorem Chip.setPort_belfry (c : Chip) (p : Nat) (s : PortSt) : (c.setPort p s).belfry = c.belfry := rfl
@[simp] theorem Chip.setPort_therm (c : Chip) (p : Nat) (s : PortSt) : (c.setPort p s).therm = c.therm := rfl
@[simp] theorem Chip.setPort_upd (c : Chip) (p : Nat) (s : PortSt) : (c.setPort p s).upd = c.upd := rfl
@[simp] theorem Chip.setPort_tile (c : Chip) (p : Nat) (s : PortSt) : (c.setPort p s).tile = c.tile := rfl
@[simp] theorem Chip.setPort_drive (c : Chip) (p : Nat) (s : PortSt) : (c.setPort p s).drive = c.drive := rfl
@[simp] theorem Chip.setPort_redun (c : Chip) (p : Nat) (s : PortSt) : (c.setPort p s).redun = c.redun := rfl
@[simp] theorem Chip.setPort_mirror (c : Chip) (p : Nat) (s : PortSt) : (c.setPort p s).mirror = c.mirror := rfl
@[simp] theorem Chip.setPort_rst (c : Chip) (p : Nat) (s : PortSt) : (c.setPort p s).rst = c.rst := rfl

/-! ### `setBank` -/

@[simp] theorem Chip.setBank_build (c : Chip) (b : Nat) (s : BankSt) : (c.setBank b s).build = c.build := rfl
@[simp] theorem Chip.setBank_regs (c : Chip) (b : Nat) (s : BankSt) : (c.setBank b s).regs = c.regs := rfl
@[simp] theorem Chip.setBank_inUse (c : Chip) (b : Nat) (s : BankSt) : (c.setBank b s).inUse = c.inUse := rfl
@[simp] theorem Chip.setBank_free (c : Chip) (b : Nat) (s : BankSt) : (c.setBank b s).free = c.free := rfl
@[simp] theorem Chip.setBank_unpredictable (c : Chip) (b : Nat) (s : BankSt) : (c.setBank b s).unpredictable = c.unpredictable := rfl
@[simp] theorem Chip.setBank_out (c : Chip) (b : Nat) (s : BankSt) : (c.setBank b s).out = c.out := rfl
@[simp] theorem Chip.setBank_evq (c : Chip) (b : Nat) (s : BankSt) : (c.setBank b s).evq = c.evq := rfl
@[simp] theorem Chip.setBank_evqExtra (c : Chip) (b : Nat) (s : BankSt) : (c.setBank b s).evqExtra = c.evqExtra := rfl
@[simp] theorem Chip.setBank_changeQ (c : Chip) (b : Nat) (s : BankSt) : (c.setBank b s).changeQ = c.changeQ := rfl
@[simp] theorem Chip.setBank_host (c : Chip) (b : Nat) (s : BankSt) : (c.setBank b s).host = c.host := rfl
@[simp] theorem Chip.setBank_time (c : Chip) (b : Nat) (s : BankSt) : (c.setBank b s).time = c.time := rfl
@[simp] theorem Chip.setBank_bar (c : Chip) (b : Nat) (s : BankSt) : (c.setBank b s).bar = c.bar := rfl
@[simp] theorem Chip.setBank_launchQ (c : Chip) (b : Nat) (s : BankSt) : (c.setBank b s).launchQ = c.launchQ := rfl
@[simp] theorem Chip.setBank_ctlTxA (c : Chip) (b : Nat) (s : BankSt) : (c.setBank b s).ctlTxA = c.ctlTxA := rfl
@[simp] theorem Chip.setBank_ctlTxB (c : Chip) (b : Nat) (s : BankSt) : (c.setBank b s).ctlTxB = c.ctlTxB := rfl
@[simp] theorem Chip.setBank_flows (c : Chip) (b : Nat) (s : BankSt) : (c.setBank b s).flows = c.flows := rfl
@[simp] theorem Chip.setBank_dp (c : Chip) (b : Nat) (s : BankSt) : (c.setBank b s).dp = c.dp := rfl
@[simp] theorem Chip.setBank_ports (c : Chip) (b : Nat) (s : BankSt) : (c.setBank b s).ports = c.ports := rfl
@[simp] theorem Chip.setBank_chain (c : Chip) (b : Nat) (s : BankSt) : (c.setBank b s).chain = c.chain := rfl
@[simp] theorem Chip.setBank_actBit (c : Chip) (b : Nat) (s : BankSt) : (c.setBank b s).actBit = c.actBit := rfl
@[simp] theorem Chip.setBank_map (c : Chip) (b : Nat) (s : BankSt) : (c.setBank b s).map = c.map := rfl
@[simp] theorem Chip.setBank_scan (c : Chip) (b : Nat) (s : BankSt) : (c.setBank b s).scan = c.scan := rfl
@[simp] theorem Chip.setBank_preview (c : Chip) (b : Nat) (s : BankSt) : (c.setBank b s).preview = c.preview := rfl
@[simp] theorem Chip.setBank_aon (c : Chip) (b : Nat) (s : BankSt) : (c.setBank b s).aon = c.aon := rfl
@[simp] theorem Chip.setBank_belfry (c : Chip) (b : Nat) (s : BankSt) : (c.setBank b s).belfry = c.belfry := rfl
@[simp] theorem Chip.setBank_therm (c : Chip) (b : Nat) (s : BankSt) : (c.setBank b s).therm = c.therm := rfl
@[simp] theorem Chip.setBank_upd (c : Chip) (b : Nat) (s : BankSt) : (c.setBank b s).upd = c.upd := rfl
@[simp] theorem Chip.setBank_tile (c : Chip) (b : Nat) (s : BankSt) : (c.setBank b s).tile = c.tile := rfl
@[simp] theorem Chip.setBank_drive (c : Chip) (b : Nat) (s : BankSt) : (c.setBank b s).drive = c.drive := rfl
@[simp] theorem Chip.setBank_redun (c : Chip) (b : Nat) (s : BankSt) : (c.setBank b s).redun = c.redun := rfl
@[simp] theorem Chip.setBank_mirror (c : Chip) (b : Nat) (s : BankSt) : (c.setBank b s).mirror = c.mirror := rfl
@[simp] theorem Chip.setBank_rst (c : Chip) (b : Nat) (s : BankSt) : (c.setBank b s).rst = c.rst := rfl

/-! ### `setDramPort` -/

@[simp] theorem Chip.setDramPort_build (c : Chip) (p : Nat) (s : DramPortSt) : (c.setDramPort p s).build = c.build := rfl
@[simp] theorem Chip.setDramPort_regs (c : Chip) (p : Nat) (s : DramPortSt) : (c.setDramPort p s).regs = c.regs := rfl
@[simp] theorem Chip.setDramPort_inUse (c : Chip) (p : Nat) (s : DramPortSt) : (c.setDramPort p s).inUse = c.inUse := rfl
@[simp] theorem Chip.setDramPort_free (c : Chip) (p : Nat) (s : DramPortSt) : (c.setDramPort p s).free = c.free := rfl
@[simp] theorem Chip.setDramPort_unpredictable (c : Chip) (p : Nat) (s : DramPortSt) : (c.setDramPort p s).unpredictable = c.unpredictable := rfl
@[simp] theorem Chip.setDramPort_out (c : Chip) (p : Nat) (s : DramPortSt) : (c.setDramPort p s).out = c.out := rfl
@[simp] theorem Chip.setDramPort_evq (c : Chip) (p : Nat) (s : DramPortSt) : (c.setDramPort p s).evq = c.evq := rfl
@[simp] theorem Chip.setDramPort_evqExtra (c : Chip) (p : Nat) (s : DramPortSt) : (c.setDramPort p s).evqExtra = c.evqExtra := rfl
@[simp] theorem Chip.setDramPort_changeQ (c : Chip) (p : Nat) (s : DramPortSt) : (c.setDramPort p s).changeQ = c.changeQ := rfl
@[simp] theorem Chip.setDramPort_host (c : Chip) (p : Nat) (s : DramPortSt) : (c.setDramPort p s).host = c.host := rfl
@[simp] theorem Chip.setDramPort_time (c : Chip) (p : Nat) (s : DramPortSt) : (c.setDramPort p s).time = c.time := rfl
@[simp] theorem Chip.setDramPort_bar (c : Chip) (p : Nat) (s : DramPortSt) : (c.setDramPort p s).bar = c.bar := rfl
@[simp] theorem Chip.setDramPort_launchQ (c : Chip) (p : Nat) (s : DramPortSt) : (c.setDramPort p s).launchQ = c.launchQ := rfl
@[simp] theorem Chip.setDramPort_ctlTxA (c : Chip) (p : Nat) (s : DramPortSt) : (c.setDramPort p s).ctlTxA = c.ctlTxA := rfl
@[simp] theorem Chip.setDramPort_ctlTxB (c : Chip) (p : Nat) (s : DramPortSt) : (c.setDramPort p s).ctlTxB = c.ctlTxB := rfl
@[simp] theorem Chip.setDramPort_flows (c : Chip) (p : Nat) (s : DramPortSt) : (c.setDramPort p s).flows = c.flows := rfl
@[simp] theorem Chip.setDramPort_dp (c : Chip) (p : Nat) (s : DramPortSt) : (c.setDramPort p s).dp = c.dp := rfl
@[simp] theorem Chip.setDramPort_ports (c : Chip) (p : Nat) (s : DramPortSt) : (c.setDramPort p s).ports = c.ports := rfl
@[simp] theorem Chip.setDramPort_chain (c : Chip) (p : Nat) (s : DramPortSt) : (c.setDramPort p s).chain = c.chain := rfl
@[simp] theorem Chip.setDramPort_actBit (c : Chip) (p : Nat) (s : DramPortSt) : (c.setDramPort p s).actBit = c.actBit := rfl
@[simp] theorem Chip.setDramPort_map (c : Chip) (p : Nat) (s : DramPortSt) : (c.setDramPort p s).map = c.map := rfl
@[simp] theorem Chip.setDramPort_scan (c : Chip) (p : Nat) (s : DramPortSt) : (c.setDramPort p s).scan = c.scan := rfl
@[simp] theorem Chip.setDramPort_preview (c : Chip) (p : Nat) (s : DramPortSt) : (c.setDramPort p s).preview = c.preview := rfl
@[simp] theorem Chip.setDramPort_aon (c : Chip) (p : Nat) (s : DramPortSt) : (c.setDramPort p s).aon = c.aon := rfl
@[simp] theorem Chip.setDramPort_belfry (c : Chip) (p : Nat) (s : DramPortSt) : (c.setDramPort p s).belfry = c.belfry := rfl
@[simp] theorem Chip.setDramPort_therm (c : Chip) (p : Nat) (s : DramPortSt) : (c.setDramPort p s).therm = c.therm := rfl
@[simp] theorem Chip.setDramPort_upd (c : Chip) (p : Nat) (s : DramPortSt) : (c.setDramPort p s).upd = c.upd := rfl
@[simp] theorem Chip.setDramPort_tile (c : Chip) (p : Nat) (s : DramPortSt) : (c.setDramPort p s).tile = c.tile := rfl
@[simp] theorem Chip.setDramPort_drive (c : Chip) (p : Nat) (s : DramPortSt) : (c.setDramPort p s).drive = c.drive := rfl
@[simp] theorem Chip.setDramPort_redun (c : Chip) (p : Nat) (s : DramPortSt) : (c.setDramPort p s).redun = c.redun := rfl
@[simp] theorem Chip.setDramPort_mirror (c : Chip) (p : Nat) (s : DramPortSt) : (c.setDramPort p s).mirror = c.mirror := rfl
@[simp] theorem Chip.setDramPort_rst (c : Chip) (p : Nat) (s : DramPortSt) : (c.setDramPort p s).rst = c.rst := rfl

/-! ### `setTile` -/

@[simp] theorem Chip.setTile_build (c : Chip) (t : TileSt) : (c.setTile t).build = c.build := rfl
@[simp] theorem Chip.setTile_regs (c : Chip) (t : TileSt) : (c.setTile t).regs = c.regs := rfl
@[simp] theorem Chip.setTile_inUse (c : Chip) (t : TileSt) : (c.setTile t).inUse = c.inUse := rfl
@[simp] theorem Chip.setTile_free (c : Chip) (t : TileSt) : (c.setTile t).free = c.free := rfl
@[simp] theorem Chip.setTile_unpredictable (c : Chip) (t : TileSt) : (c.setTile t).unpredictable = c.unpredictable := rfl
@[simp] theorem Chip.setTile_out (c : Chip) (t : TileSt) : (c.setTile t).out = c.out := rfl
@[simp] theorem Chip.setTile_evq (c : Chip) (t : TileSt) : (c.setTile t).evq = c.evq := rfl
@[simp] theorem Chip.setTile_evqExtra (c : Chip) (t : TileSt) : (c.setTile t).evqExtra = c.evqExtra := rfl
@[simp] theorem Chip.setTile_changeQ (c : Chip) (t : TileSt) : (c.setTile t).changeQ = c.changeQ := rfl
@[simp] theorem Chip.setTile_host (c : Chip) (t : TileSt) : (c.setTile t).host = c.host := rfl
@[simp] theorem Chip.setTile_time (c : Chip) (t : TileSt) : (c.setTile t).time = c.time := rfl
@[simp] theorem Chip.setTile_bar (c : Chip) (t : TileSt) : (c.setTile t).bar = c.bar := rfl
@[simp] theorem Chip.setTile_launchQ (c : Chip) (t : TileSt) : (c.setTile t).launchQ = c.launchQ := rfl
@[simp] theorem Chip.setTile_ctlTxA (c : Chip) (t : TileSt) : (c.setTile t).ctlTxA = c.ctlTxA := rfl
@[simp] theorem Chip.setTile_ctlTxB (c : Chip) (t : TileSt) : (c.setTile t).ctlTxB = c.ctlTxB := rfl
@[simp] theorem Chip.setTile_flows (c : Chip) (t : TileSt) : (c.setTile t).flows = c.flows := rfl
@[simp] theorem Chip.setTile_dp (c : Chip) (t : TileSt) : (c.setTile t).dp = c.dp := rfl
@[simp] theorem Chip.setTile_ports (c : Chip) (t : TileSt) : (c.setTile t).ports = c.ports := rfl
@[simp] theorem Chip.setTile_chain (c : Chip) (t : TileSt) : (c.setTile t).chain = c.chain := rfl
@[simp] theorem Chip.setTile_mem (c : Chip) (t : TileSt) : (c.setTile t).mem = c.mem := rfl
@[simp] theorem Chip.setTile_actBit (c : Chip) (t : TileSt) : (c.setTile t).actBit = c.actBit := rfl
@[simp] theorem Chip.setTile_map (c : Chip) (t : TileSt) : (c.setTile t).map = c.map := rfl
@[simp] theorem Chip.setTile_scan (c : Chip) (t : TileSt) : (c.setTile t).scan = c.scan := rfl
@[simp] theorem Chip.setTile_preview (c : Chip) (t : TileSt) : (c.setTile t).preview = c.preview := rfl
@[simp] theorem Chip.setTile_aon (c : Chip) (t : TileSt) : (c.setTile t).aon = c.aon := rfl
@[simp] theorem Chip.setTile_belfry (c : Chip) (t : TileSt) : (c.setTile t).belfry = c.belfry := rfl
@[simp] theorem Chip.setTile_therm (c : Chip) (t : TileSt) : (c.setTile t).therm = c.therm := rfl
@[simp] theorem Chip.setTile_upd (c : Chip) (t : TileSt) : (c.setTile t).upd = c.upd := rfl
@[simp] theorem Chip.setTile_tile (c : Chip) (t : TileSt) : (c.setTile t).tile = t := rfl
@[simp] theorem Chip.setTile_drive (c : Chip) (t : TileSt) : (c.setTile t).drive = c.drive := rfl
@[simp] theorem Chip.setTile_redun (c : Chip) (t : TileSt) : (c.setTile t).redun = c.redun := rfl
@[simp] theorem Chip.setTile_mirror (c : Chip) (t : TileSt) : (c.setTile t).mirror = c.mirror := rfl
@[simp] theorem Chip.setTile_rst (c : Chip) (t : TileSt) : (c.setTile t).rst = c.rst := rfl

/-! ### `setSched` -/

@[simp] theorem Chip.setSched_build (c : Chip) (t : SchedSt) : (c.setSched t).build = c.build := rfl
@[simp] theorem Chip.setSched_regs (c : Chip) (t : SchedSt) : (c.setSched t).regs = c.regs := rfl
@[simp] theorem Chip.setSched_inUse (c : Chip) (t : SchedSt) : (c.setSched t).inUse = c.inUse := rfl
@[simp] theorem Chip.setSched_free (c : Chip) (t : SchedSt) : (c.setSched t).free = c.free := rfl
@[simp] theorem Chip.setSched_unpredictable (c : Chip) (t : SchedSt) : (c.setSched t).unpredictable = c.unpredictable := rfl
@[simp] theorem Chip.setSched_out (c : Chip) (t : SchedSt) : (c.setSched t).out = c.out := rfl
@[simp] theorem Chip.setSched_evq (c : Chip) (t : SchedSt) : (c.setSched t).evq = c.evq := rfl
@[simp] theorem Chip.setSched_evqExtra (c : Chip) (t : SchedSt) : (c.setSched t).evqExtra = c.evqExtra := rfl
@[simp] theorem Chip.setSched_changeQ (c : Chip) (t : SchedSt) : (c.setSched t).changeQ = c.changeQ := rfl
@[simp] theorem Chip.setSched_host (c : Chip) (t : SchedSt) : (c.setSched t).host = c.host := rfl
@[simp] theorem Chip.setSched_time (c : Chip) (t : SchedSt) : (c.setSched t).time = c.time := rfl
@[simp] theorem Chip.setSched_bar (c : Chip) (t : SchedSt) : (c.setSched t).bar = c.bar := rfl
@[simp] theorem Chip.setSched_launchQ (c : Chip) (t : SchedSt) : (c.setSched t).launchQ = c.launchQ := rfl
@[simp] theorem Chip.setSched_ctlTxA (c : Chip) (t : SchedSt) : (c.setSched t).ctlTxA = c.ctlTxA := rfl
@[simp] theorem Chip.setSched_ctlTxB (c : Chip) (t : SchedSt) : (c.setSched t).ctlTxB = c.ctlTxB := rfl
@[simp] theorem Chip.setSched_flows (c : Chip) (t : SchedSt) : (c.setSched t).flows = c.flows := rfl
@[simp] theorem Chip.setSched_dp (c : Chip) (t : SchedSt) : (c.setSched t).dp = c.dp := rfl
@[simp] theorem Chip.setSched_ports (c : Chip) (t : SchedSt) : (c.setSched t).ports = c.ports := rfl
@[simp] theorem Chip.setSched_chain (c : Chip) (t : SchedSt) : (c.setSched t).chain = c.chain := rfl
@[simp] theorem Chip.setSched_mem (c : Chip) (t : SchedSt) : (c.setSched t).mem = c.mem := rfl
@[simp] theorem Chip.setSched_actBit (c : Chip) (t : SchedSt) : (c.setSched t).actBit = c.actBit := rfl
@[simp] theorem Chip.setSched_map (c : Chip) (t : SchedSt) : (c.setSched t).map = c.map := rfl
@[simp] theorem Chip.setSched_scan (c : Chip) (t : SchedSt) : (c.setSched t).scan = c.scan := rfl
@[simp] theorem Chip.setSched_preview (c : Chip) (t : SchedSt) : (c.setSched t).preview = c.preview := rfl
@[simp] theorem Chip.setSched_aon (c : Chip) (t : SchedSt) : (c.setSched t).aon = c.aon := rfl
@[simp] theorem Chip.setSched_belfry (c : Chip) (t : SchedSt) : (c.setSched t).belfry = c.belfry := rfl
@[simp] theorem Chip.setSched_therm (c : Chip) (t : SchedSt) : (c.setSched t).therm = c.therm := rfl
@[simp] theorem Chip.setSched_upd (c : Chip) (t : SchedSt) : (c.setSched t).upd = c.upd := rfl
@[simp] theorem Chip.setSched_drive (c : Chip) (t : SchedSt) : (c.setSched t).drive = c.drive := rfl
@[simp] theorem Chip.setSched_redun (c : Chip) (t : SchedSt) : (c.setSched t).redun = c.redun := rfl
@[simp] theorem Chip.setSched_mirror (c : Chip) (t : SchedSt) : (c.setSched t).mirror = c.mirror := rfl
@[simp] theorem Chip.setSched_rst (c : Chip) (t : SchedSt) : (c.setSched t).rst = c.rst := rfl

/-! ### `setDrive` -/

@[simp] theorem Chip.setDrive_build (c : Chip) (d : DriveSt) : (c.setDrive d).build = c.build := rfl
@[simp] theorem Chip.setDrive_regs (c : Chip) (d : DriveSt) : (c.setDrive d).regs = c.regs := rfl
@[simp] theorem Chip.setDrive_inUse (c : Chip) (d : DriveSt) : (c.setDrive d).inUse = c.inUse := rfl
@[simp] theorem Chip.setDrive_free (c : Chip) (d : DriveSt) : (c.setDrive d).free = c.free := rfl
@[simp] theorem Chip.setDrive_unpredictable (c : Chip) (d : DriveSt) : (c.setDrive d).unpredictable = c.unpredictable := rfl
@[simp] theorem Chip.setDrive_out (c : Chip) (d : DriveSt) : (c.setDrive d).out = c.out := rfl
@[simp] theorem Chip.setDrive_evq (c : Chip) (d : DriveSt) : (c.setDrive d).evq = c.evq := rfl
@[simp] theorem Chip.setDrive_evqExtra (c : Chip) (d : DriveSt) : (c.setDrive d).evqExtra = c.evqExtra := rfl
@[simp] theorem Chip.setDrive_changeQ (c : Chip) (d : DriveSt) : (c.setDrive d).changeQ = c.changeQ := rfl
@[simp] theorem Chip.setDrive_host (c : Chip) (d : DriveSt) : (c.setDrive d).host = c.host := rfl
@[simp] theorem Chip.setDrive_time (c : Chip) (d : DriveSt) : (c.setDrive d).time = c.time := rfl
@[simp] theorem Chip.setDrive_bar (c : Chip) (d : DriveSt) : (c.setDrive d).bar = c.bar := rfl
@[simp] theorem Chip.setDrive_launchQ (c : Chip) (d : DriveSt) : (c.setDrive d).launchQ = c.launchQ := rfl
@[simp] theorem Chip.setDrive_ctlTxA (c : Chip) (d : DriveSt) : (c.setDrive d).ctlTxA = c.ctlTxA := rfl
@[simp] theorem Chip.setDrive_ctlTxB (c : Chip) (d : DriveSt) : (c.setDrive d).ctlTxB = c.ctlTxB := rfl
@[simp] theorem Chip.setDrive_flows (c : Chip) (d : DriveSt) : (c.setDrive d).flows = c.flows := rfl
@[simp] theorem Chip.setDrive_dp (c : Chip) (d : DriveSt) : (c.setDrive d).dp = c.dp := rfl
@[simp] theorem Chip.setDrive_ports (c : Chip) (d : DriveSt) : (c.setDrive d).ports = c.ports := rfl
@[simp] theorem Chip.setDrive_chain (c : Chip) (d : DriveSt) : (c.setDrive d).chain = c.chain := rfl
@[simp] theorem Chip.setDrive_mem (c : Chip) (d : DriveSt) : (c.setDrive d).mem = c.mem := rfl
@[simp] theorem Chip.setDrive_actBit (c : Chip) (d : DriveSt) : (c.setDrive d).actBit = c.actBit := rfl
@[simp] theorem Chip.setDrive_map (c : Chip) (d : DriveSt) : (c.setDrive d).map = c.map := rfl
@[simp] theorem Chip.setDrive_scan (c : Chip) (d : DriveSt) : (c.setDrive d).scan = c.scan := rfl
@[simp] theorem Chip.setDrive_preview (c : Chip) (d : DriveSt) : (c.setDrive d).preview = c.preview := rfl
@[simp] theorem Chip.setDrive_aon (c : Chip) (d : DriveSt) : (c.setDrive d).aon = c.aon := rfl
@[simp] theorem Chip.setDrive_belfry (c : Chip) (d : DriveSt) : (c.setDrive d).belfry = c.belfry := rfl
@[simp] theorem Chip.setDrive_therm (c : Chip) (d : DriveSt) : (c.setDrive d).therm = c.therm := rfl
@[simp] theorem Chip.setDrive_upd (c : Chip) (d : DriveSt) : (c.setDrive d).upd = c.upd := rfl
@[simp] theorem Chip.setDrive_tile (c : Chip) (d : DriveSt) : (c.setDrive d).tile = c.tile := rfl
@[simp] theorem Chip.setDrive_drive (c : Chip) (d : DriveSt) : (c.setDrive d).drive = d := rfl
@[simp] theorem Chip.setDrive_redun (c : Chip) (d : DriveSt) : (c.setDrive d).redun = c.redun := rfl
@[simp] theorem Chip.setDrive_mirror (c : Chip) (d : DriveSt) : (c.setDrive d).mirror = c.mirror := rfl
@[simp] theorem Chip.setDrive_rst (c : Chip) (d : DriveSt) : (c.setDrive d).rst = c.rst := rfl

/-! ### `setRedun` -/

@[simp] theorem Chip.setRedun_build (c : Chip) (r : RedunSt) : (c.setRedun r).build = c.build := rfl
@[simp] theorem Chip.setRedun_regs (c : Chip) (r : RedunSt) : (c.setRedun r).regs = c.regs := rfl
@[simp] theorem Chip.setRedun_inUse (c : Chip) (r : RedunSt) : (c.setRedun r).inUse = c.inUse := rfl
@[simp] theorem Chip.setRedun_free (c : Chip) (r : RedunSt) : (c.setRedun r).free = c.free := rfl
@[simp] theorem Chip.setRedun_unpredictable (c : Chip) (r : RedunSt) : (c.setRedun r).unpredictable = c.unpredictable := rfl
@[simp] theorem Chip.setRedun_out (c : Chip) (r : RedunSt) : (c.setRedun r).out = c.out := rfl
@[simp] theorem Chip.setRedun_evq (c : Chip) (r : RedunSt) : (c.setRedun r).evq = c.evq := rfl
@[simp] theorem Chip.setRedun_evqExtra (c : Chip) (r : RedunSt) : (c.setRedun r).evqExtra = c.evqExtra := rfl
@[simp] theorem Chip.setRedun_changeQ (c : Chip) (r : RedunSt) : (c.setRedun r).changeQ = c.changeQ := rfl
@[simp] theorem Chip.setRedun_host (c : Chip) (r : RedunSt) : (c.setRedun r).host = c.host := rfl
@[simp] theorem Chip.setRedun_time (c : Chip) (r : RedunSt) : (c.setRedun r).time = c.time := rfl
@[simp] theorem Chip.setRedun_bar (c : Chip) (r : RedunSt) : (c.setRedun r).bar = c.bar := rfl
@[simp] theorem Chip.setRedun_launchQ (c : Chip) (r : RedunSt) : (c.setRedun r).launchQ = c.launchQ := rfl
@[simp] theorem Chip.setRedun_ctlTxA (c : Chip) (r : RedunSt) : (c.setRedun r).ctlTxA = c.ctlTxA := rfl
@[simp] theorem Chip.setRedun_ctlTxB (c : Chip) (r : RedunSt) : (c.setRedun r).ctlTxB = c.ctlTxB := rfl
@[simp] theorem Chip.setRedun_flows (c : Chip) (r : RedunSt) : (c.setRedun r).flows = c.flows := rfl
@[simp] theorem Chip.setRedun_dp (c : Chip) (r : RedunSt) : (c.setRedun r).dp = c.dp := rfl
@[simp] theorem Chip.setRedun_ports (c : Chip) (r : RedunSt) : (c.setRedun r).ports = c.ports := rfl
@[simp] theorem Chip.setRedun_chain (c : Chip) (r : RedunSt) : (c.setRedun r).chain = c.chain := rfl
@[simp] theorem Chip.setRedun_mem (c : Chip) (r : RedunSt) : (c.setRedun r).mem = c.mem := rfl
@[simp] theorem Chip.setRedun_actBit (c : Chip) (r : RedunSt) : (c.setRedun r).actBit = c.actBit := rfl
@[simp] theorem Chip.setRedun_map (c : Chip) (r : RedunSt) : (c.setRedun r).map = c.map := rfl
@[simp] theorem Chip.setRedun_scan (c : Chip) (r : RedunSt) : (c.setRedun r).scan = c.scan := rfl
@[simp] theorem Chip.setRedun_preview (c : Chip) (r : RedunSt) : (c.setRedun r).preview = c.preview := rfl
@[simp] theorem Chip.setRedun_aon (c : Chip) (r : RedunSt) : (c.setRedun r).aon = c.aon := rfl
@[simp] theorem Chip.setRedun_belfry (c : Chip) (r : RedunSt) : (c.setRedun r).belfry = c.belfry := rfl
@[simp] theorem Chip.setRedun_therm (c : Chip) (r : RedunSt) : (c.setRedun r).therm = c.therm := rfl
@[simp] theorem Chip.setRedun_upd (c : Chip) (r : RedunSt) : (c.setRedun r).upd = c.upd := rfl
@[simp] theorem Chip.setRedun_tile (c : Chip) (r : RedunSt) : (c.setRedun r).tile = c.tile := rfl
@[simp] theorem Chip.setRedun_drive (c : Chip) (r : RedunSt) : (c.setRedun r).drive = c.drive := rfl
@[simp] theorem Chip.setRedun_redun (c : Chip) (r : RedunSt) : (c.setRedun r).redun = r := rfl
@[simp] theorem Chip.setRedun_mirror (c : Chip) (r : RedunSt) : (c.setRedun r).mirror = c.mirror := rfl
@[simp] theorem Chip.setRedun_rst (c : Chip) (r : RedunSt) : (c.setRedun r).rst = c.rst := rfl

/-! ### `setMirror` -/

@[simp] theorem Chip.setMirror_build (c : Chip) (m : MirrorSt) : (c.setMirror m).build = c.build := rfl
@[simp] theorem Chip.setMirror_regs (c : Chip) (m : MirrorSt) : (c.setMirror m).regs = c.regs := rfl
@[simp] theorem Chip.setMirror_inUse (c : Chip) (m : MirrorSt) : (c.setMirror m).inUse = c.inUse := rfl
@[simp] theorem Chip.setMirror_free (c : Chip) (m : MirrorSt) : (c.setMirror m).free = c.free := rfl
@[simp] theorem Chip.setMirror_unpredictable (c : Chip) (m : MirrorSt) : (c.setMirror m).unpredictable = c.unpredictable := rfl
@[simp] theorem Chip.setMirror_out (c : Chip) (m : MirrorSt) : (c.setMirror m).out = c.out := rfl
@[simp] theorem Chip.setMirror_evq (c : Chip) (m : MirrorSt) : (c.setMirror m).evq = c.evq := rfl
@[simp] theorem Chip.setMirror_evqExtra (c : Chip) (m : MirrorSt) : (c.setMirror m).evqExtra = c.evqExtra := rfl
@[simp] theorem Chip.setMirror_changeQ (c : Chip) (m : MirrorSt) : (c.setMirror m).changeQ = c.changeQ := rfl
@[simp] theorem Chip.setMirror_host (c : Chip) (m : MirrorSt) : (c.setMirror m).host = c.host := rfl
@[simp] theorem Chip.setMirror_time (c : Chip) (m : MirrorSt) : (c.setMirror m).time = c.time := rfl
@[simp] theorem Chip.setMirror_bar (c : Chip) (m : MirrorSt) : (c.setMirror m).bar = c.bar := rfl
@[simp] theorem Chip.setMirror_launchQ (c : Chip) (m : MirrorSt) : (c.setMirror m).launchQ = c.launchQ := rfl
@[simp] theorem Chip.setMirror_ctlTxA (c : Chip) (m : MirrorSt) : (c.setMirror m).ctlTxA = c.ctlTxA := rfl
@[simp] theorem Chip.setMirror_ctlTxB (c : Chip) (m : MirrorSt) : (c.setMirror m).ctlTxB = c.ctlTxB := rfl
@[simp] theorem Chip.setMirror_flows (c : Chip) (m : MirrorSt) : (c.setMirror m).flows = c.flows := rfl
@[simp] theorem Chip.setMirror_dp (c : Chip) (m : MirrorSt) : (c.setMirror m).dp = c.dp := rfl
@[simp] theorem Chip.setMirror_ports (c : Chip) (m : MirrorSt) : (c.setMirror m).ports = c.ports := rfl
@[simp] theorem Chip.setMirror_chain (c : Chip) (m : MirrorSt) : (c.setMirror m).chain = c.chain := rfl
@[simp] theorem Chip.setMirror_mem (c : Chip) (m : MirrorSt) : (c.setMirror m).mem = c.mem := rfl
@[simp] theorem Chip.setMirror_actBit (c : Chip) (m : MirrorSt) : (c.setMirror m).actBit = c.actBit := rfl
@[simp] theorem Chip.setMirror_map (c : Chip) (m : MirrorSt) : (c.setMirror m).map = c.map := rfl
@[simp] theorem Chip.setMirror_scan (c : Chip) (m : MirrorSt) : (c.setMirror m).scan = c.scan := rfl
@[simp] theorem Chip.setMirror_preview (c : Chip) (m : MirrorSt) : (c.setMirror m).preview = c.preview := rfl
@[simp] theorem Chip.setMirror_aon (c : Chip) (m : MirrorSt) : (c.setMirror m).aon = c.aon := rfl
@[simp] theorem Chip.setMirror_belfry (c : Chip) (m : MirrorSt) : (c.setMirror m).belfry = c.belfry := rfl
@[simp] theorem Chip.setMirror_therm (c : Chip) (m : MirrorSt) : (c.setMirror m).therm = c.therm := rfl
@[simp] theorem Chip.setMirror_upd (c : Chip) (m : MirrorSt) : (c.setMirror m).upd = c.upd := rfl
@[simp] theorem Chip.setMirror_tile (c : Chip) (m : MirrorSt) : (c.setMirror m).tile = c.tile := rfl
@[simp] theorem Chip.setMirror_drive (c : Chip) (m : MirrorSt) : (c.setMirror m).drive = c.drive := rfl
@[simp] theorem Chip.setMirror_redun (c : Chip) (m : MirrorSt) : (c.setMirror m).redun = c.redun := rfl
@[simp] theorem Chip.setMirror_mirror (c : Chip) (m : MirrorSt) : (c.setMirror m).mirror = m := rfl
@[simp] theorem Chip.setMirror_rst (c : Chip) (m : MirrorSt) : (c.setMirror m).rst = c.rst := rfl

/-! ### `setBelfry` -/

@[simp] theorem Chip.setBelfry_build (c : Chip) (b : BelfrySt) : (c.setBelfry b).build = c.build := rfl
@[simp] theorem Chip.setBelfry_regs (c : Chip) (b : BelfrySt) : (c.setBelfry b).regs = c.regs := rfl
@[simp] theorem Chip.setBelfry_inUse (c : Chip) (b : BelfrySt) : (c.setBelfry b).inUse = c.inUse := rfl
@[simp] theorem Chip.setBelfry_free (c : Chip) (b : BelfrySt) : (c.setBelfry b).free = c.free := rfl
@[simp] theorem Chip.setBelfry_unpredictable (c : Chip) (b : BelfrySt) : (c.setBelfry b).unpredictable = c.unpredictable := rfl
@[simp] theorem Chip.setBelfry_out (c : Chip) (b : BelfrySt) : (c.setBelfry b).out = c.out := rfl
@[simp] theorem Chip.setBelfry_evq (c : Chip) (b : BelfrySt) : (c.setBelfry b).evq = c.evq := rfl
@[simp] theorem Chip.setBelfry_evqExtra (c : Chip) (b : BelfrySt) : (c.setBelfry b).evqExtra = c.evqExtra := rfl
@[simp] theorem Chip.setBelfry_changeQ (c : Chip) (b : BelfrySt) : (c.setBelfry b).changeQ = c.changeQ := rfl
@[simp] theorem Chip.setBelfry_host (c : Chip) (b : BelfrySt) : (c.setBelfry b).host = c.host := rfl
@[simp] theorem Chip.setBelfry_time (c : Chip) (b : BelfrySt) : (c.setBelfry b).time = c.time := rfl
@[simp] theorem Chip.setBelfry_bar (c : Chip) (b : BelfrySt) : (c.setBelfry b).bar = c.bar := rfl
@[simp] theorem Chip.setBelfry_launchQ (c : Chip) (b : BelfrySt) : (c.setBelfry b).launchQ = c.launchQ := rfl
@[simp] theorem Chip.setBelfry_ctlTxA (c : Chip) (b : BelfrySt) : (c.setBelfry b).ctlTxA = c.ctlTxA := rfl
@[simp] theorem Chip.setBelfry_ctlTxB (c : Chip) (b : BelfrySt) : (c.setBelfry b).ctlTxB = c.ctlTxB := rfl
@[simp] theorem Chip.setBelfry_flows (c : Chip) (b : BelfrySt) : (c.setBelfry b).flows = c.flows := rfl
@[simp] theorem Chip.setBelfry_dp (c : Chip) (b : BelfrySt) : (c.setBelfry b).dp = c.dp := rfl
@[simp] theorem Chip.setBelfry_ports (c : Chip) (b : BelfrySt) : (c.setBelfry b).ports = c.ports := rfl
@[simp] theorem Chip.setBelfry_chain (c : Chip) (b : BelfrySt) : (c.setBelfry b).chain = c.chain := rfl
@[simp] theorem Chip.setBelfry_mem (c : Chip) (b : BelfrySt) : (c.setBelfry b).mem = c.mem := rfl
@[simp] theorem Chip.setBelfry_actBit (c : Chip) (b : BelfrySt) : (c.setBelfry b).actBit = c.actBit := rfl
@[simp] theorem Chip.setBelfry_map (c : Chip) (b : BelfrySt) : (c.setBelfry b).map = c.map := rfl
@[simp] theorem Chip.setBelfry_scan (c : Chip) (b : BelfrySt) : (c.setBelfry b).scan = c.scan := rfl
@[simp] theorem Chip.setBelfry_preview (c : Chip) (b : BelfrySt) : (c.setBelfry b).preview = c.preview := rfl
@[simp] theorem Chip.setBelfry_aon (c : Chip) (b : BelfrySt) : (c.setBelfry b).aon = c.aon := rfl
@[simp] theorem Chip.setBelfry_belfry (c : Chip) (b : BelfrySt) : (c.setBelfry b).belfry = b := rfl
@[simp] theorem Chip.setBelfry_therm (c : Chip) (b : BelfrySt) : (c.setBelfry b).therm = c.therm := rfl
@[simp] theorem Chip.setBelfry_upd (c : Chip) (b : BelfrySt) : (c.setBelfry b).upd = c.upd := rfl
@[simp] theorem Chip.setBelfry_tile (c : Chip) (b : BelfrySt) : (c.setBelfry b).tile = c.tile := rfl
@[simp] theorem Chip.setBelfry_drive (c : Chip) (b : BelfrySt) : (c.setBelfry b).drive = c.drive := rfl
@[simp] theorem Chip.setBelfry_redun (c : Chip) (b : BelfrySt) : (c.setBelfry b).redun = c.redun := rfl
@[simp] theorem Chip.setBelfry_mirror (c : Chip) (b : BelfrySt) : (c.setBelfry b).mirror = c.mirror := rfl
@[simp] theorem Chip.setBelfry_rst (c : Chip) (b : BelfrySt) : (c.setBelfry b).rst = c.rst := rfl

/-! ### `setUpd` -/

@[simp] theorem Chip.setUpd_build (c : Chip) (u : UpdateSt) : (c.setUpd u).build = c.build := rfl
@[simp] theorem Chip.setUpd_regs (c : Chip) (u : UpdateSt) : (c.setUpd u).regs = c.regs := rfl
@[simp] theorem Chip.setUpd_inUse (c : Chip) (u : UpdateSt) : (c.setUpd u).inUse = c.inUse := rfl
@[simp] theorem Chip.setUpd_free (c : Chip) (u : UpdateSt) : (c.setUpd u).free = c.free := rfl
@[simp] theorem Chip.setUpd_unpredictable (c : Chip) (u : UpdateSt) : (c.setUpd u).unpredictable = c.unpredictable := rfl
@[simp] theorem Chip.setUpd_out (c : Chip) (u : UpdateSt) : (c.setUpd u).out = c.out := rfl
@[simp] theorem Chip.setUpd_evq (c : Chip) (u : UpdateSt) : (c.setUpd u).evq = c.evq := rfl
@[simp] theorem Chip.setUpd_evqExtra (c : Chip) (u : UpdateSt) : (c.setUpd u).evqExtra = c.evqExtra := rfl
@[simp] theorem Chip.setUpd_changeQ (c : Chip) (u : UpdateSt) : (c.setUpd u).changeQ = c.changeQ := rfl
@[simp] theorem Chip.setUpd_host (c : Chip) (u : UpdateSt) : (c.setUpd u).host = c.host := rfl
@[simp] theorem Chip.setUpd_time (c : Chip) (u : UpdateSt) : (c.setUpd u).time = c.time := rfl
@[simp] theorem Chip.setUpd_bar (c : Chip) (u : UpdateSt) : (c.setUpd u).bar = c.bar := rfl
@[simp] theorem Chip.setUpd_launchQ (c : Chip) (u : UpdateSt) : (c.setUpd u).launchQ = c.launchQ := rfl
@[simp] theorem Chip.setUpd_ctlTxA (c : Chip) (u : UpdateSt) : (c.setUpd u).ctlTxA = c.ctlTxA := rfl
@[simp] theorem Chip.setUpd_ctlTxB (c : Chip) (u : UpdateSt) : (c.setUpd u).ctlTxB = c.ctlTxB := rfl
@[simp] theorem Chip.setUpd_flows (c : Chip) (u : UpdateSt) : (c.setUpd u).flows = c.flows := rfl
@[simp] theorem Chip.setUpd_dp (c : Chip) (u : UpdateSt) : (c.setUpd u).dp = c.dp := rfl
@[simp] theorem Chip.setUpd_ports (c : Chip) (u : UpdateSt) : (c.setUpd u).ports = c.ports := rfl
@[simp] theorem Chip.setUpd_chain (c : Chip) (u : UpdateSt) : (c.setUpd u).chain = c.chain := rfl
@[simp] theorem Chip.setUpd_mem (c : Chip) (u : UpdateSt) : (c.setUpd u).mem = c.mem := rfl
@[simp] theorem Chip.setUpd_actBit (c : Chip) (u : UpdateSt) : (c.setUpd u).actBit = c.actBit := rfl
@[simp] theorem Chip.setUpd_map (c : Chip) (u : UpdateSt) : (c.setUpd u).map = c.map := rfl
@[simp] theorem Chip.setUpd_scan (c : Chip) (u : UpdateSt) : (c.setUpd u).scan = c.scan := rfl
@[simp] theorem Chip.setUpd_preview (c : Chip) (u : UpdateSt) : (c.setUpd u).preview = c.preview := rfl
@[simp] theorem Chip.setUpd_aon (c : Chip) (u : UpdateSt) : (c.setUpd u).aon = c.aon := rfl
@[simp] theorem Chip.setUpd_belfry (c : Chip) (u : UpdateSt) : (c.setUpd u).belfry = c.belfry := rfl
@[simp] theorem Chip.setUpd_therm (c : Chip) (u : UpdateSt) : (c.setUpd u).therm = c.therm := rfl
@[simp] theorem Chip.setUpd_upd (c : Chip) (u : UpdateSt) : (c.setUpd u).upd = u := rfl
@[simp] theorem Chip.setUpd_tile (c : Chip) (u : UpdateSt) : (c.setUpd u).tile = c.tile := rfl
@[simp] theorem Chip.setUpd_drive (c : Chip) (u : UpdateSt) : (c.setUpd u).drive = c.drive := rfl
@[simp] theorem Chip.setUpd_redun (c : Chip) (u : UpdateSt) : (c.setUpd u).redun = c.redun := rfl
@[simp] theorem Chip.setUpd_mirror (c : Chip) (u : UpdateSt) : (c.setUpd u).mirror = c.mirror := rfl
@[simp] theorem Chip.setUpd_rst (c : Chip) (u : UpdateSt) : (c.setUpd u).rst = c.rst := rfl

/-! ### `setSensor` -/

@[simp] theorem Chip.setSensor_build (c : Chip) (n : Nat) (s : SensorSt) : (c.setSensor n s).build = c.build := rfl
@[simp] theorem Chip.setSensor_regs (c : Chip) (n : Nat) (s : SensorSt) : (c.setSensor n s).regs = c.regs := rfl
@[simp] theorem Chip.setSensor_inUse (c : Chip) (n : Nat) (s : SensorSt) : (c.setSensor n s).inUse = c.inUse := rfl
@[simp] theorem Chip.setSensor_free (c : Chip) (n : Nat) (s : SensorSt) : (c.setSensor n s).free = c.free := rfl
@[simp] theorem Chip.setSensor_unpredictable (c : Chip) (n : Nat) (s : SensorSt) : (c.setSensor n s).unpredictable = c.unpredictable := rfl
@[simp] theorem Chip.setSensor_out (c : Chip) (n : Nat) (s : SensorSt) : (c.setSensor n s).out = c.out := rfl
@[simp] theorem Chip.setSensor_evq (c : Chip) (n : Nat) (s : SensorSt) : (c.setSensor n s).evq = c.evq := rfl
@[simp] theorem Chip.setSensor_evqExtra (c : Chip) (n : Nat) (s : SensorSt) : (c.setSensor n s).evqExtra = c.evqExtra := rfl
@[simp] theorem Chip.setSensor_changeQ (c : Chip) (n : Nat) (s : SensorSt) : (c.setSensor n s).changeQ = c.changeQ := rfl
@[simp] theorem Chip.setSensor_host (c : Chip) (n : Nat) (s : SensorSt) : (c.setSensor n s).host = c.host := rfl
@[simp] theorem Chip.setSensor_time (c : Chip) (n : Nat) (s : SensorSt) : (c.setSensor n s).time = c.time := rfl
@[simp] theorem Chip.setSensor_bar (c : Chip) (n : Nat) (s : SensorSt) : (c.setSensor n s).bar = c.bar := rfl
@[simp] theorem Chip.setSensor_launchQ (c : Chip) (n : Nat) (s : SensorSt) : (c.setSensor n s).launchQ = c.launchQ := rfl
@[simp] theorem Chip.setSensor_ctlTxA (c : Chip) (n : Nat) (s : SensorSt) : (c.setSensor n s).ctlTxA = c.ctlTxA := rfl
@[simp] theorem Chip.setSensor_ctlTxB (c : Chip) (n : Nat) (s : SensorSt) : (c.setSensor n s).ctlTxB = c.ctlTxB := rfl
@[simp] theorem Chip.setSensor_flows (c : Chip) (n : Nat) (s : SensorSt) : (c.setSensor n s).flows = c.flows := rfl
@[simp] theorem Chip.setSensor_dp (c : Chip) (n : Nat) (s : SensorSt) : (c.setSensor n s).dp = c.dp := rfl
@[simp] theorem Chip.setSensor_ports (c : Chip) (n : Nat) (s : SensorSt) : (c.setSensor n s).ports = c.ports := rfl
@[simp] theorem Chip.setSensor_chain (c : Chip) (n : Nat) (s : SensorSt) : (c.setSensor n s).chain = c.chain := rfl
@[simp] theorem Chip.setSensor_mem (c : Chip) (n : Nat) (s : SensorSt) : (c.setSensor n s).mem = c.mem := rfl
@[simp] theorem Chip.setSensor_actBit (c : Chip) (n : Nat) (s : SensorSt) : (c.setSensor n s).actBit = c.actBit := rfl
@[simp] theorem Chip.setSensor_map (c : Chip) (n : Nat) (s : SensorSt) : (c.setSensor n s).map = c.map := rfl
@[simp] theorem Chip.setSensor_scan (c : Chip) (n : Nat) (s : SensorSt) : (c.setSensor n s).scan = c.scan := rfl
@[simp] theorem Chip.setSensor_preview (c : Chip) (n : Nat) (s : SensorSt) : (c.setSensor n s).preview = c.preview := rfl
@[simp] theorem Chip.setSensor_aon (c : Chip) (n : Nat) (s : SensorSt) : (c.setSensor n s).aon = c.aon := rfl
@[simp] theorem Chip.setSensor_belfry (c : Chip) (n : Nat) (s : SensorSt) : (c.setSensor n s).belfry = c.belfry := rfl
@[simp] theorem Chip.setSensor_upd (c : Chip) (n : Nat) (s : SensorSt) : (c.setSensor n s).upd = c.upd := rfl
@[simp] theorem Chip.setSensor_tile (c : Chip) (n : Nat) (s : SensorSt) : (c.setSensor n s).tile = c.tile := rfl
@[simp] theorem Chip.setSensor_drive (c : Chip) (n : Nat) (s : SensorSt) : (c.setSensor n s).drive = c.drive := rfl
@[simp] theorem Chip.setSensor_redun (c : Chip) (n : Nat) (s : SensorSt) : (c.setSensor n s).redun = c.redun := rfl
@[simp] theorem Chip.setSensor_mirror (c : Chip) (n : Nat) (s : SensorSt) : (c.setSensor n s).mirror = c.mirror := rfl
@[simp] theorem Chip.setSensor_rst (c : Chip) (n : Nat) (s : SensorSt) : (c.setSensor n s).rst = c.rst := rfl

/-! ### `setTband` -/

@[simp] theorem Chip.setTband_build (c : Chip) (k b : Nat) : (c.setTband k b).build = c.build := rfl
@[simp] theorem Chip.setTband_regs (c : Chip) (k b : Nat) : (c.setTband k b).regs = c.regs := rfl
@[simp] theorem Chip.setTband_inUse (c : Chip) (k b : Nat) : (c.setTband k b).inUse = c.inUse := rfl
@[simp] theorem Chip.setTband_free (c : Chip) (k b : Nat) : (c.setTband k b).free = c.free := rfl
@[simp] theorem Chip.setTband_unpredictable (c : Chip) (k b : Nat) : (c.setTband k b).unpredictable = c.unpredictable := rfl
@[simp] theorem Chip.setTband_out (c : Chip) (k b : Nat) : (c.setTband k b).out = c.out := rfl
@[simp] theorem Chip.setTband_evq (c : Chip) (k b : Nat) : (c.setTband k b).evq = c.evq := rfl
@[simp] theorem Chip.setTband_evqExtra (c : Chip) (k b : Nat) : (c.setTband k b).evqExtra = c.evqExtra := rfl
@[simp] theorem Chip.setTband_changeQ (c : Chip) (k b : Nat) : (c.setTband k b).changeQ = c.changeQ := rfl
@[simp] theorem Chip.setTband_host (c : Chip) (k b : Nat) : (c.setTband k b).host = c.host := rfl
@[simp] theorem Chip.setTband_time (c : Chip) (k b : Nat) : (c.setTband k b).time = c.time := rfl
@[simp] theorem Chip.setTband_bar (c : Chip) (k b : Nat) : (c.setTband k b).bar = c.bar := rfl
@[simp] theorem Chip.setTband_launchQ (c : Chip) (k b : Nat) : (c.setTband k b).launchQ = c.launchQ := rfl
@[simp] theorem Chip.setTband_ctlTxA (c : Chip) (k b : Nat) : (c.setTband k b).ctlTxA = c.ctlTxA := rfl
@[simp] theorem Chip.setTband_ctlTxB (c : Chip) (k b : Nat) : (c.setTband k b).ctlTxB = c.ctlTxB := rfl
@[simp] theorem Chip.setTband_flows (c : Chip) (k b : Nat) : (c.setTband k b).flows = c.flows := rfl
@[simp] theorem Chip.setTband_dp (c : Chip) (k b : Nat) : (c.setTband k b).dp = c.dp := rfl
@[simp] theorem Chip.setTband_ports (c : Chip) (k b : Nat) : (c.setTband k b).ports = c.ports := rfl
@[simp] theorem Chip.setTband_chain (c : Chip) (k b : Nat) : (c.setTband k b).chain = c.chain := rfl
@[simp] theorem Chip.setTband_mem (c : Chip) (k b : Nat) : (c.setTband k b).mem = c.mem := rfl
@[simp] theorem Chip.setTband_actBit (c : Chip) (k b : Nat) : (c.setTband k b).actBit = c.actBit := rfl
@[simp] theorem Chip.setTband_map (c : Chip) (k b : Nat) : (c.setTband k b).map = c.map := rfl
@[simp] theorem Chip.setTband_scan (c : Chip) (k b : Nat) : (c.setTband k b).scan = c.scan := rfl
@[simp] theorem Chip.setTband_preview (c : Chip) (k b : Nat) : (c.setTband k b).preview = c.preview := rfl
@[simp] theorem Chip.setTband_aon (c : Chip) (k b : Nat) : (c.setTband k b).aon = c.aon := rfl
@[simp] theorem Chip.setTband_belfry (c : Chip) (k b : Nat) : (c.setTband k b).belfry = c.belfry := rfl
@[simp] theorem Chip.setTband_upd (c : Chip) (k b : Nat) : (c.setTband k b).upd = c.upd := rfl
@[simp] theorem Chip.setTband_tile (c : Chip) (k b : Nat) : (c.setTband k b).tile = c.tile := rfl
@[simp] theorem Chip.setTband_drive (c : Chip) (k b : Nat) : (c.setTband k b).drive = c.drive := rfl
@[simp] theorem Chip.setTband_redun (c : Chip) (k b : Nat) : (c.setTband k b).redun = c.redun := rfl
@[simp] theorem Chip.setTband_mirror (c : Chip) (k b : Nat) : (c.setTband k b).mirror = c.mirror := rfl
@[simp] theorem Chip.setTband_rst (c : Chip) (k b : Nat) : (c.setTband k b).rst = c.rst := rfl

/-! ### Reads after updates of other parts -/

@[simp] theorem Chip.setUse_rd (c : Chip) (f : Fld) (v : Nat) (a : Nat) : (c.setUse f v).rd a = c.rd a := rfl
@[simp] theorem Chip.setUse_get (c : Chip) (f : Fld) (v : Nat) (g : Fld) : (c.setUse f v).get g = c.get g := rfl
@[simp] theorem Chip.ticks_rd (c : Chip) (n : Nat) (a : Nat) : (c.ticks n).rd a = c.rd a := rfl
@[simp] theorem Chip.ticks_get (c : Chip) (n : Nat) (g : Fld) : (c.ticks n).get g = c.get g := rfl
@[simp] theorem Chip.setPort_rd (c : Chip) (p : Nat) (s : PortSt) (a : Nat) : (c.setPort p s).rd a = c.rd a := rfl
@[simp] theorem Chip.setPort_get (c : Chip) (p : Nat) (s : PortSt) (g : Fld) : (c.setPort p s).get g = c.get g := rfl
@[simp] theorem Chip.setBank_rd (c : Chip) (b : Nat) (s : BankSt) (a : Nat) : (c.setBank b s).rd a = c.rd a := rfl
@[simp] theorem Chip.setBank_get (c : Chip) (b : Nat) (s : BankSt) (g : Fld) : (c.setBank b s).get g = c.get g := rfl
@[simp] theorem Chip.setDramPort_rd (c : Chip) (p : Nat) (s : DramPortSt) (a : Nat) : (c.setDramPort p s).rd a = c.rd a := rfl
@[simp] theorem Chip.setDramPort_get (c : Chip) (p : Nat) (s : DramPortSt) (g : Fld) : (c.setDramPort p s).get g = c.get g := rfl
@[simp] theorem Chip.setTile_rd (c : Chip) (t : TileSt) (a : Nat) : (c.setTile t).rd a = c.rd a := rfl
@[simp] theorem Chip.setTile_get (c : Chip) (t : TileSt) (g : Fld) : (c.setTile t).get g = c.get g := rfl
@[simp] theorem Chip.setSched_rd (c : Chip) (t : SchedSt) (a : Nat) : (c.setSched t).rd a = c.rd a := rfl
@[simp] theorem Chip.setSched_get (c : Chip) (t : SchedSt) (g : Fld) : (c.setSched t).get g = c.get g := rfl
@[simp] theorem Chip.setDrive_rd (c : Chip) (d : DriveSt) (a : Nat) : (c.setDrive d).rd a = c.rd a := rfl
@[simp] theorem Chip.setDrive_get (c : Chip) (d : DriveSt) (g : Fld) : (c.setDrive d).get g = c.get g := rfl
@[simp] theorem Chip.setRedun_rd (c : Chip) (r : RedunSt) (a : Nat) : (c.setRedun r).rd a = c.rd a := rfl
@[simp] theorem Chip.setRedun_get (c : Chip) (r : RedunSt) (g : Fld) : (c.setRedun r).get g = c.get g := rfl
@[simp] theorem Chip.setMirror_rd (c : Chip) (m : MirrorSt) (a : Nat) : (c.setMirror m).rd a = c.rd a := rfl
@[simp] theorem Chip.setMirror_get (c : Chip) (m : MirrorSt) (g : Fld) : (c.setMirror m).get g = c.get g := rfl
@[simp] theorem Chip.setBelfry_rd (c : Chip) (b : BelfrySt) (a : Nat) : (c.setBelfry b).rd a = c.rd a := rfl
@[simp] theorem Chip.setBelfry_get (c : Chip) (b : BelfrySt) (g : Fld) : (c.setBelfry b).get g = c.get g := rfl
@[simp] theorem Chip.setUpd_rd (c : Chip) (u : UpdateSt) (a : Nat) : (c.setUpd u).rd a = c.rd a := rfl
@[simp] theorem Chip.setUpd_get (c : Chip) (u : UpdateSt) (g : Fld) : (c.setUpd u).get g = c.get g := rfl
@[simp] theorem Chip.setSensor_rd (c : Chip) (n : Nat) (s : SensorSt) (a : Nat) : (c.setSensor n s).rd a = c.rd a := rfl
@[simp] theorem Chip.setSensor_get (c : Chip) (n : Nat) (s : SensorSt) (g : Fld) : (c.setSensor n s).get g = c.get g := rfl
@[simp] theorem Chip.setTband_rd (c : Chip) (k b : Nat) (a : Nat) : (c.setTband k b).rd a = c.rd a := rfl
@[simp] theorem Chip.setTband_get (c : Chip) (k b : Nat) (g : Fld) : (c.setTband k b).get g = c.get g := rfl

end Sys2Proof.Machine
end

