-- ==== Sys2Proof/Laws/Events.lean ====
section
/-! SUPPORT. What sending, an event and an error record do: the parts of the block they leave alone, the registers they do not touch, and the pending bit an event sets. -/

namespace Sys2Proof.Machine

theorem quietReg_iff (a : Nat) : quietReg a = true ↔ (a % 4096 < 0x10 ∨ 0x38 ≤ a % 4096) ∧ a ≠ F.USB4_PBA.addr ∧ a ≠ F.ECC_EVQ_LOST.addr ∧
    a ≠ F.CHAINCTL_MON_LOST_COUNT.addr ∧ a ≠ F.DEVICE_CHANGE_LOST_COUNT.addr ∧ a ≠ F.DEVICE_BAD_ADDR_VALID.addr := by
  simp [quietReg, and_assoc]

theorem filter_smSet {α : Type} (q : Nat → Bool) (m : SMap α) (k : Nat) (v : α) (h : q k = false) :
    (smSet m k v).filter (fun p => q p.1) = m.filter (fun p => q p.1) := by
  induction m with
  | nil => simp [smSet, h]
  | cons p t ih =>
    obtain ⟨i, w⟩ := p
    simp only [smSet]
    split
    · simp [h]
    · split
      · subst_vars; simp [h]
      · simp only [List.filter_cons, ih]

theorem Chip.ctrls_wr (c : Chip) (a : Nat) (w : Word) (h : a % 4096 ≠ 4) : (c.wr a w).ctrls = c.ctrls :=
  filter_smSet (fun k => decide (k % 4096 = 4)) c.regs a w (by simp [h])

theorem Quiet.refl (c : Chip) : Quiet c c := ⟨rfl, rfl, fun _ _ => rfl⟩
theorem Quiet.trans {c d e : Chip} (h : Quiet c d) (k : Quiet d e) : Quiet c e :=
  ⟨k.1.trans h.1, k.2.1.trans h.2.1, fun a ha => (k.2.2 a ha).trans (h.2.2 a ha)⟩
theorem Quiet.get {c d : Chip} (h : Quiet c d) (f : Fld) (hf : quietReg f.addr = true) : d.get f = c.get f := by unfold Chip.get; rw [h.2.2 _ hf]

theorem Chip.rd_congr {c d : Chip} (hr : c.regs = d.regs) (hb : c.build = d.build) (a : Nat) : c.rd a = d.rd a := by
  unfold Chip.rd; rw [hr, hb]

/-- A change that touches no register and nothing but what reports write. -/
theorem Quiet.ofRegs {c d : Chip} (h : d.still = c.still) (hr : d.regs = c.regs) : Quiet c d :=
  ⟨h, by unfold Chip.ctrls; rw [hr], fun a _ => Chip.rd_congr hr (by have h' := congrArg Chip.build h; exact h') a⟩

/-! ### Sending -/

@[simp] theorem Chip.emit_regs (c : Chip) (o : Output) : (c.emit o).regs = c.regs := by unfold Chip.emit; split <;> rfl
@[simp] theorem Chip.emit_still (c : Chip) (o : Output) : (c.emit o).still = c.still := by unfold Chip.emit; split <;> rfl
@[simp] theorem Chip.emit_rd (c : Chip) (o : Output) (a : Nat) : (c.emit o).rd a = c.rd a := by unfold Chip.emit; split <;> rfl
@[simp] theorem Chip.emit_get (c : Chip) (o : Output) (f : Fld) : (c.emit o).get f = c.get f := by unfold Chip.emit; split <;> rfl

theorem Chip.quiet_emit (c : Chip) (o : Output) : Quiet c (c.emit o) := Quiet.ofRegs (c.emit_still o) (c.emit_regs o)

/-- A register that reports write, written. -/
theorem Chip.quiet_wr (c : Chip) (a : Nat) (w : Word) (h : quietReg a = false) : Quiet c (c.wr a w) :=
  ⟨rfl, Chip.ctrls_wr c a w (fun e => by
    have : quietReg a = true := by
      refine (quietReg_iff a).2 ⟨Or.inl (by omega), ?_, ?_, ?_, ?_, ?_⟩ <;> (intro x; subst x; exact absurd e (by decide))
    rw [h] at this; exact absurd this (by decide)),
    fun b hb => by rw [Chip.rd_wr, if_neg]; intro e; subst e; rw [h] at hb; exact absurd hb (by decide)⟩

theorem Chip.quiet_set (c : Chip) (f : Fld) (v : Nat) (h : quietReg f.addr = false) : Quiet c (c.set f v) := c.quiet_wr _ _ h

theorem quietReg_header (pg k : Nat) (h1 : 0x10 ≤ k) (h2 : k < 0x38) : quietReg (pg * 4096 + k) = false := by
  have : (pg * 4096 + k) % 4096 = k := by omega
  unfold quietReg; rw [this]
  have a1 : ¬ (k < 0x10) := by omega
  have a2 : ¬ (0x38 ≤ k) := by omega
  simp [a1, a2]

/-! ### Messages and monitor cells -/

theorem Chip.quiet_queueMonitor (c : Chip) (x : Nat) : Quiet c (c.queueMonitor x) := by
  unfold Chip.queueMonitor
  have key : ∀ (cell : CellData) (l : List Nat) (d : Chip),
      Quiet d (l.foldl (fun c p => c.setPort p { c.port p with insMonitor := (c.port p).insMonitor ++ [cell] }) d) := by
    intro cell l
    induction l with
    | nil => intro d; exact Quiet.refl d
    | cons p t ih => intro d; exact (Quiet.ofRegs rfl rfl).trans (ih _)
  exact (Quiet.ofRegs (c := c) (d := c.setPort 0 { c.port 0 with cellSeq := ((c.port 0).cellSeq + 1) % 256 }) rfl rfl).trans (key _ _ _)

theorem Chip.quiet_monitorEvent (c : Chip) (e : Ev) : Quiet c (c.monitorEvent e) := by
  unfold Chip.monitorEvent; split
  · exact Quiet.refl c
  · split
    · exact c.quiet_queueMonitor _
    · exact c.quiet_set F.CHAINCTL_MON_LOST_COUNT _ (by decide)

theorem Chip.quiet_sendMsix (c : Chip) (v : Nat) : Quiet c (c.sendMsix v) := by
  unfold Chip.sendMsix; split
  · exact c.quiet_wr _ _ (by decide)
  · exact c.quiet_emit _

theorem Chip.quiet_alertFall (c : Chip) : Quiet c c.alertFall := by
  unfold Chip.alertFall; split
  · exact (Quiet.ofRegs (c := c) rfl rfl).trans (Chip.quiet_emit _ _)
  · exact Quiet.refl c

@[simp] theorem Chip.alertFall_rd (c : Chip) (a : Nat) : c.alertFall.rd a = c.rd a := by
  unfold Chip.alertFall; split
  · rw [Chip.emit_rd]; rfl
  · rfl

theorem Chip.sendMsix_rd (c : Chip) (v a : Nat) (h : a ≠ F.USB4_PBA.addr) : (c.sendMsix v).rd a = c.rd a := by
  unfold Chip.sendMsix; split
  · rw [Chip.rd_wr, if_neg h]
  · simp

theorem Chip.queueMonitor_rd (c : Chip) (x a : Nat) : (c.queueMonitor x).rd a = c.rd a := by
  unfold Chip.queueMonitor
  have key : ∀ (cell : CellData) (l : List Nat) (d : Chip),
      (l.foldl (fun c p => c.setPort p { c.port p with insMonitor := (c.port p).insMonitor ++ [cell] }) d).rd a = d.rd a := by
    intro cell l
    induction l with
    | nil => intro d; rfl
    | cons p t ih => intro d; simp only [List.foldl_cons]; rw [ih]; rfl
  simp only
  rw [key]; rfl

theorem Chip.monitorEvent_rd (c : Chip) (e : Ev) (a : Nat) (h : a ≠ F.CHAINCTL_MON_LOST_COUNT.addr) : (c.monitorEvent e).rd a = c.rd a := by
  unfold Chip.monitorEvent; split
  · rfl
  · split
    · exact c.queueMonitor_rd _ a
    · exact Chip.rd_set_ne _ _ _ _ h

theorem Chip.bumpSat_rd_ne (c : Chip) (f : Fld) (n a : Nat) (h : a ≠ f.addr) : (c.bumpSat f n).rd a = c.rd a := Chip.rd_set_ne _ _ _ _ h

/-! ### Events -/

/-- An event is a report, whatever pushes its record. -/
theorem Chip.quiet_raiseWith (push : Chip → EvRec → Chip) (hp : ∀ c r, Quiet c (push c r)) (c : Chip) (e : Ev) : Quiet c (Chip.raiseWith push c e) := by
  have hm : ∀ (b : Bool) (d : Chip), Quiet d (if b then d.sendMsix (e.num / 8) else d) := by
    intro b d; split
    · exact d.quiet_sendMsix _
    · exact Quiet.refl d
  unfold Chip.raiseWith; split
  · exact Quiet.refl c
  · simp only []
    have h := c.quiet_wr (e.page * 4096 + 0x18) (c.rd (e.page * 4096 + 0x18) ||| ((1 : Word) <<< e.bit)) (quietReg_header _ _ (by decide) (by decide))
    exact (((h.trans (hm _ _)).trans (hp _ _)).trans (Chip.quiet_monitorEvent _ e)).trans (Chip.quiet_alertFall _)

theorem Chip.quiet_evqKeep (c : Chip) (r : EvRec) : Quiet c (c.evqKeep r) := by
  unfold Chip.evqKeep; split
  · exact Quiet.ofRegs rfl rfl
  · exact c.quiet_set F.ECC_EVQ_LOST _ (by decide)

theorem Chip.quiet_evqLose (c : Chip) : Quiet c c.evqLose :=
  (c.quiet_set F.ECC_EVQ_LOST _ (by decide)).trans (Chip.quiet_raiseWith _ Chip.quiet_evqKeep _ E.EVQ_LOST)

theorem Chip.quiet_pushEv (c : Chip) (r : EvRec) : Quiet c (c.pushEv r) := by
  unfold Chip.pushEv; split
  · exact c.quiet_evqKeep r
  · split
    · exact Quiet.ofRegs rfl rfl
    · split
      · exact (Quiet.ofRegs (c := c) rfl rfl).trans (Chip.quiet_evqLose _)
      · exact c.quiet_evqLose

/-- An event is a report: it leaves everything but registers that reports write, what is sent, the event queue, ALERT_N and MONITOR cells. -/
theorem Chip.quiet_raise (c : Chip) (e : Ev) : Quiet c (c.raise e) := Chip.quiet_raiseWith _ Chip.quiet_pushEv c e

theorem Chip.raise_rd (c : Chip) (e : Ev) (a : Nat) (h : quietReg a = true) : (c.raise e).rd a = c.rd a := (c.quiet_raise e).2.2 a h
theorem Chip.raise_get (c : Chip) (e : Ev) (f : Fld) (h : quietReg f.addr = true) : (c.raise e).get f = c.get f := (c.quiet_raise e).get f h

/-! ### Error records, change records, ignored accesses -/

theorem Chip.quiet_when (c : Chip) (b : Bool) (f : Chip → Chip) (h : Quiet c (f c)) : Quiet c (c.when b f) := by
  unfold Chip.when; split
  · exact h
  · exact Quiet.refl c

theorem Chip.quiet_cond (c : Chip) (e : Ev) (b : Bool) : Quiet c (c.cond e b) := by
  unfold Chip.cond
  simp only []
  have key : ∀ w, Quiet c (if c.raw e = b then c else c.wr (e.page * 4096 + 0x10) w) := by
    intro w; split
    · exact Quiet.refl c
    · exact c.quiet_wr _ _ (quietReg_header _ _ (by decide) (by decide))
  split
  · exact (key _).trans (Chip.quiet_raise _ e)
  · exact key _

theorem Chip.quiet_logChange (c : Chip) (o : Origin) (a : Nat) (w : Word) : Quiet c (c.logChange o a w) := by
  unfold Chip.logChange; split
  · exact Quiet.ofRegs rfl rfl
  · exact (c.quiet_set F.DEVICE_CHANGE_LOST_COUNT _ (by decide)).trans (Chip.quiet_raise _ _)

theorem Chip.quiet_badAccess (c : Chip) (o : Origin) (r a : Nat) : Quiet c (c.badAccess o r a) := by
  unfold Chip.badAccess
  simp only []
  refine Quiet.trans ?_ (Chip.quiet_raise _ _)
  split
  · exact Quiet.refl c
  · exact c.quiet_wr _ _ (by decide)

theorem Chip.quiet_reportOne (c : Chip) (pg : Nat) (e : ErrRec) : Quiet c (c.reportOne pg e) := by
  unfold Chip.reportOne
  simp only []
  have h : ∀ k w (d : Chip), 0x10 ≤ k → k < 0x38 → Quiet d (d.wr (pg * 4096 + k) w) := fun k w d h1 h2 => d.quiet_wr _ _ (quietReg_header pg k h1 h2)
  have hs : ∀ (f : Fld) (v : Nat) (d : Chip) (k : Nat), f.addr = 4096 * pg + k → 0x10 ≤ k → k < 0x38 → Quiet d (d.set f v) := by
    intro f v d k e h1 h2; refine d.quiet_set f v ?_; rw [e, Nat.mul_comm]; exact quietReg_header pg k h1 h2
  have q1 : ∀ d : Chip, Quiet d (if (d.rd (pg * 4096 + 0x20)).getLsbD 31 then d else (d.wr (pg * 4096 + 0x20) (e.word0 d.barCount)).wr (pg * 4096 + 0x24) (BitVec.ofNat 32 e.loc)) := by
    intro d; split
    · exact Quiet.refl d
    · exact (h _ _ d (by decide) (by decide)).trans (h _ _ _ (by decide) (by decide))
  have q2 : ∀ (d : Chip) (w : Word), Quiet d (if e.ue || !((d.rd (pg * 4096 + 0x28)).getLsbD 30) then (d.wr (pg * 4096 + 0x28) w).wr (pg * 4096 + 0x2C) (BitVec.ofNat 32 e.loc) else d) := by
    intro d w; split
    · exact (h _ _ d (by decide) (by decide)).trans (h _ _ _ (by decide) (by decide))
    · exact Quiet.refl d
  refine (q1 c).trans ((q2 _ (e.word0 c.barCount)).trans ?_)
  have qf : ∀ (g : Fld) (d : Chip), g = F.ERR_UNCORR.pg pg ∨ g = F.ERR_CORR.pg pg →
      Quiet d (if d.get g = 2 ^ (g.hi + 1 - g.lo) - 1 then d.set (F.ERR_OVERFLOW.pg pg) 1 else d.bump g) := by
    intro g d hg
    have e : g.addr = 4096 * pg + 0x30 := by rcases hg with rfl | rfl <;> exact Nat.add_comm _ _
    split
    · exact hs _ _ _ 0x30 (Nat.add_comm _ _) (by decide) (by decide)
    · exact hs _ _ _ 0x30 e (by decide) (by decide)
  refine qf _ _ ?_
  split <;> simp

theorem Chip.quiet_report (c : Chip) (pg : Nat) (l : List ErrRec) : Quiet c (c.report pg l) := by
  unfold Chip.report
  generalize errOrder l = m
  induction m generalizing c with
  | nil => exact Quiet.refl c
  | cons e t ih => exact (c.quiet_reportOne pg e).trans (ih _)

/-! ### The parts of the block that reports leave -/

theorem Quiet.build {c d : Chip} (h : Quiet c d) : d.build = c.build := by have h' := congrArg Chip.build h.1; exact h'
theorem Quiet.inUse {c d : Chip} (h : Quiet c d) : d.inUse = c.inUse := by have h' := congrArg Chip.inUse h.1; exact h'
theorem Quiet.free {c d : Chip} (h : Quiet c d) : d.free = c.free := by have h' := congrArg Chip.free h.1; exact h'
theorem Quiet.unpredictable {c d : Chip} (h : Quiet c d) : d.unpredictable = c.unpredictable := by have h' := congrArg Chip.unpredictable h.1; exact h'
theorem Quiet.time {c d : Chip} (h : Quiet c d) : d.time = c.time := by have h' := congrArg Chip.time h.1; exact h'
theorem Quiet.bar {c d : Chip} (h : Quiet c d) : d.bar = c.bar := by have h' := congrArg Chip.bar h.1; exact h'
theorem Quiet.launchQ {c d : Chip} (h : Quiet c d) : d.launchQ = c.launchQ := by have h' := congrArg Chip.launchQ h.1; exact h'
theorem Quiet.ctlTxA {c d : Chip} (h : Quiet c d) : d.ctlTxA = c.ctlTxA := by have h' := congrArg Chip.ctlTxA h.1; exact h'
theorem Quiet.ctlTxB {c d : Chip} (h : Quiet c d) : d.ctlTxB = c.ctlTxB := by have h' := congrArg Chip.ctlTxB h.1; exact h'
theorem Quiet.flows {c d : Chip} (h : Quiet c d) : d.flows = c.flows := by have h' := congrArg Chip.flows h.1; exact h'
theorem Quiet.dp {c d : Chip} (h : Quiet c d) : d.dp = c.dp := by have h' := congrArg Chip.dp h.1; exact h'
theorem Quiet.mem {c d : Chip} (h : Quiet c d) : d.mem = c.mem := by have h' := congrArg Chip.mem h.1; exact h'
theorem Quiet.actBit {c d : Chip} (h : Quiet c d) : d.actBit = c.actBit := by have h' := congrArg Chip.actBit h.1; exact h'
theorem Quiet.map {c d : Chip} (h : Quiet c d) : d.map = c.map := by have h' := congrArg Chip.map h.1; exact h'
theorem Quiet.scan {c d : Chip} (h : Quiet c d) : d.scan = c.scan := by have h' := congrArg Chip.scan h.1; exact h'
theorem Quiet.preview {c d : Chip} (h : Quiet c d) : d.preview = c.preview := by have h' := congrArg Chip.preview h.1; exact h'
theorem Quiet.aon {c d : Chip} (h : Quiet c d) : d.aon = c.aon := by have h' := congrArg Chip.aon h.1; exact h'
theorem Quiet.belfry {c d : Chip} (h : Quiet c d) : d.belfry = c.belfry := by have h' := congrArg Chip.belfry h.1; exact h'
theorem Quiet.therm {c d : Chip} (h : Quiet c d) : d.therm = c.therm := by have h' := congrArg Chip.therm h.1; exact h'
theorem Quiet.upd {c d : Chip} (h : Quiet c d) : d.upd = c.upd := by have h' := congrArg Chip.upd h.1; exact h'
theorem Quiet.tile {c d : Chip} (h : Quiet c d) : d.tile = c.tile := by have h' := congrArg Chip.tile h.1; exact h'
theorem Quiet.drive {c d : Chip} (h : Quiet c d) : d.drive = c.drive := by have h' := congrArg Chip.drive h.1; exact h'
theorem Quiet.redun {c d : Chip} (h : Quiet c d) : d.redun = c.redun := by have h' := congrArg Chip.redun h.1; exact h'
theorem Quiet.mirror {c d : Chip} (h : Quiet c d) : d.mirror = c.mirror := by have h' := congrArg Chip.mirror h.1; exact h'
theorem Quiet.rst {c d : Chip} (h : Quiet c d) : d.rst = c.rst := by have h' := congrArg Chip.rst h.1; exact h'

/-! ### Pending bits -/

/-- A bit of a pending register stays at 1. -/
def KeepsPend (f : Chip → Chip) : Prop := ∀ c a b, a % 4096 = 0x18 → (c.rd a).getLsbD b = true → ((f c).rd a).getLsbD b = true

theorem pbaNe (a : Nat) (h : a % 4096 = 0x18) : a ≠ F.USB4_PBA.addr ∧ a ≠ F.ECC_EVQ_LOST.addr ∧ a ≠ F.CHAINCTL_MON_LOST_COUNT.addr := by
  refine ⟨?_, ?_, ?_⟩ <;> (intro e; subst e; exact absurd h (by decide))

/-- Everything after the pending bit is set keeps pending bits. -/
theorem Chip.raiseTail_keeps (push : Chip → EvRec → Chip) (hp : ∀ r, KeepsPend (fun c => push c r)) (e : Ev) (c1 : Chip) (r : EvRec) (q : Bool)
    (a b : Nat) (ha : a % 4096 = 0x18) (h : (c1.rd a).getLsbD b = true) :
    ((((push (if q then c1.sendMsix (e.num / 8) else c1) r).monitorEvent e).alertFall).rd a).getLsbD b = true := by
  have hn := pbaNe a ha
  rw [Chip.alertFall_rd, Chip.monitorEvent_rd _ _ _ hn.2.2]
  refine hp r _ a b ha ?_
  split
  · rw [Chip.sendMsix_rd _ _ _ hn.1]; exact h
  · exact h

theorem setBit_keeps (c : Chip) (x : Nat) (k : Nat) (a b : Nat) (h : (c.rd a).getLsbD b = true) :
    ((c.wr x (c.rd x ||| ((1 : Word) <<< k))).rd a).getLsbD b = true := by
  rw [Chip.rd_wr]; split
  · subst_vars; simp [h]
  · exact h

theorem Chip.raiseWith_keeps (push : Chip → EvRec → Chip) (hp : ∀ r, KeepsPend (fun c => push c r)) (e : Ev) : KeepsPend (fun c => Chip.raiseWith push c e) := by
  intro c a b ha h
  simp only [Chip.raiseWith]
  split
  · exact h
  · exact Chip.raiseTail_keeps push hp e _ _ _ a b ha (setBit_keeps c _ _ a b h)

theorem Chip.evqKeep_keeps (r : EvRec) : KeepsPend (fun c => c.evqKeep r) := by
  intro c a b ha h
  simp only [Chip.evqKeep]
  split
  · exact h
  · rw [Chip.bumpSat_rd_ne _ _ _ _ (pbaNe a ha).2.1]; exact h

theorem Chip.evqLose_keeps : KeepsPend Chip.evqLose := by
  intro c a b ha h
  refine Chip.raiseWith_keeps _ Chip.evqKeep_keeps E.EVQ_LOST _ a b ha ?_
  rw [Chip.bumpSat_rd_ne _ _ _ _ (pbaNe a ha).2.1]; exact h

theorem Chip.pushEv_keeps (r : EvRec) : KeepsPend (fun c => c.pushEv r) := by
  intro c a b ha h
  simp only [Chip.pushEv]
  split
  · exact Chip.evqKeep_keeps r c a b ha h
  · split
    · exact h
    · split
      · exact Chip.evqLose_keeps _ a b ha h
      · exact Chip.evqLose_keeps c a b ha h

/-- No event clears a pending bit. -/
theorem Chip.raise_keeps (e : Ev) : KeepsPend (fun c => c.raise e) := Chip.raiseWith_keeps _ Chip.pushEv_keeps e

/-- An event sets its pending bit, on a page that the build has (R44). -/
theorem Chip.raise_pend (c : Chip) (e : Ev) (hpage : c.hasPage e.page = true) (hb : e.bit < 32) : (c.raise e).pend e = true := by
  by_cases h : c.pend e = true
  · exact Chip.raise_keeps e c _ _ (by omega) h
  · have h : c.pend e = false := by simpa using h
    unfold Chip.pend
    simp only [Chip.raise, Chip.raiseWith, h, hpage, Bool.not_true, Bool.or_self, Bool.false_eq_true, if_false]
    refine Chip.raiseTail_keeps _ Chip.pushEv_keeps e _ _ _ _ _ (by omega) ?_
    rw [Chip.rd_wr, if_pos rfl]
    simp [hb]

/-- An event leaves the pending bits of the others alone where they stood at 1. -/
theorem Chip.pend_raise (c : Chip) (e f : Ev) (h : c.pend f = true) : (c.raise e).pend f = true := Chip.raise_keeps e c _ _ (by omega) h

end Sys2Proof.Machine
end

