-- ==== Sys2Proof/Laws/Bus.lean ====
section
/-! SUPPORT. Writes of the access paths: a 32-bit write of a register reaches its block, and commits are settled only where one waits. -/

namespace Sys2Proof.Machine

theorem Chip.commitPages_ctrls (c : Chip) :
    c.commitPages =
      ((c.ctrls.filter (fun (p : Nat × Word) => decide (p.1 < 0x400000) && ctrlReady (p.1 / 4096) p.2)).map (fun p => p.1 / 4096)) := by
  unfold Chip.commitPages Chip.ctrls
  rw [List.filter_filter]
  congr 2
  funext p
  ac_rfl

theorem Chip.commitPages_congr {c d : Chip} (h : d.ctrls = c.ctrls) : d.commitPages = c.commitPages := by
  rw [Chip.commitPages_ctrls, Chip.commitPages_ctrls, h]

/-- A report changes of the host's part only ALERT_N. -/
theorem Quiet.host {c d : Chip} (h : Quiet c d) : d.host = { c.host with alertLow := d.host.alertLow } := by
  have h' := congrArg Chip.host h.1
  show d.host = _
  have e : d.host = { ({ d.host with alertLow := false } : HostSt) with alertLow := d.host.alertLow } := rfl
  rw [e]; exact congrArg (fun x : HostSt => { x with alertLow := d.host.alertLow }) h'

theorem Chip.pathsOpen_congr {c d : Chip} (hb : d.build = c.build) (h : d.host = { c.host with alertLow := d.host.alertLow }) (hm : d.mem = c.mem) :
    d.pathsOpen = c.pathsOpen := by
  unfold Chip.pathsOpen Chip.relayFull Chip.relayWrites Chip.bank; rw [hb, h, hm]

theorem Quiet.calm {c d : Chip} (h : Quiet c d) (k : Calm c) : Calm d :=
  ⟨(Chip.commitPages_congr h.2.1).trans k.1, (Chip.pathsOpen_congr h.build h.host h.mem).trans k.2⟩

theorem Calm.settle {c : Chip} (h : Calm c) : c.settle = c := by unfold Chip.settle; rw [h.1]; rfl

/-- Where no path waits, an access outside the SRAM window does not, nor one in it once the SRAM is filled. -/
theorem Chip.mustWait_false {c : Chip} (h : c.pathsOpen = true) (x : HeldAcc) (hs : x.inSram = false ∨ c.on F.ECC_STATUS_SRAM_FILLED = true) :
    c.mustWait x = false := by
  unfold Chip.pathsOpen at h
  simp only [Bool.and_eq_true, Bool.not_eq_true', List.isEmpty_iff, List.all_eq_true] at h
  obtain ⟨⟨h1, h2⟩, h3⟩ := h
  have h4 : c.windowStalled x.origin = false := by
    unfold Chip.windowStalled
    rw [List.any_eq_false]
    intro b hb; rw [h3 b hb]; simp
  unfold Chip.mustWait Chip.cannotGo
  rw [h1, h2, h4]
  rcases hs with e | e <;> simp [e]

theorem Chip.ctrls_set (c : Chip) (f : Fld) (v : Nat) (h : f.addr % 4096 ≠ 4) : (c.set f v).ctrls = c.ctrls := c.ctrls_wr _ _ h

@[simp] theorem Chip.noteMirror_rd (c : Chip) (a b : Nat) : (c.noteMirror a).rd b = c.rd b := by unfold Chip.noteMirror; split <;> rfl
@[simp] theorem Chip.noteMirror_get (c : Chip) (a : Nat) (f : Fld) : (c.noteMirror a).get f = c.get f := by unfold Chip.noteMirror; split <;> rfl
@[simp] theorem Chip.noteMirror_ctrls (c : Chip) (a : Nat) : (c.noteMirror a).ctrls = c.ctrls := by unfold Chip.noteMirror; split <;> rfl
theorem Chip.noteMirror_other (c : Chip) (a : Nat) (h : mirrorAddr a = false) : c.noteMirror a = c := by unfold Chip.noteMirror; simp [h]

theorem mod_quarter (a : Nat) (h : a % 4 = 0) : a / 4 * 4 = a := by omega

/-- A 32-bit write of a register of the pages is a write of that register (R30). -/
theorem Chip.write32_reg (c : Chip) (o : Origin) (a : Nat) (w : Word) (d : RegDef) (ha : a < 0x400000) (h4 : a % 4 = 0) (hr : regAt c.build a = .reg d)
    (hp : c.pathsOpen = true) : c.write32 o a w = c.regWrite o a w := by
  have e1 : a % 2 ^ 24 = a := Nat.mod_eq_of_lt (by omega)
  have e2 : ¬ 0x800000 ≤ a := by omega
  have hw : (HeldAcc.write { origin := o, addr := a, size := 4, data := w.setWidth 64 } 0).inSram = false := by
    show decide (0x800000 ≤ a % 2 ^ 24) = false
    rw [e1]; simpa using e2
  unfold Chip.write32 Chip.busWrite busWords
  simp only [show ((4 : Nat) = 8) = False by decide, decide_false, Bool.false_and, Bool.false_eq_true, if_false, List.foldl_cons, List.foldl_nil,
    Chip.mustWait_false hp _ (Or.inl hw)]
  unfold Chip.busNow Chip.busAt Chip.ignoredReason
  simp only [e1, e2, if_false, ha, if_true, mod_quarter a h4, hr, h4]
  simp

/-- A write of a block register. -/
theorem Chip.write32_block (c : Chip) (o : Origin) (a : Nat) (w : Word) (d : RegDef) (ha : a < 0x400000) (h4 : a % 4 = 0) (hh : 0x40 ≤ a % 4096)
    (hr : regAt c.build a = .reg d) (hp : c.pathsOpen = true) : c.write32 o a w = c.blockWrite o a d w := by
  rw [Chip.write32_reg c o a w d ha h4 hr hp]
  unfold Chip.regWrite
  rw [hr]
  have : ¬ a % 4096 < 0x40 := by omega
  simp only [this, if_false]

/-- A write of a header register. -/
theorem Chip.write32_header (c : Chip) (o : Origin) (a : Nat) (w : Word) (d : RegDef) (ha : a < 0x400000) (h4 : a % 4 = 0) (hh : a % 4096 < 0x40)
    (hr : regAt c.build a = .reg d) (hp : c.pathsOpen = true) : c.write32 o a w = c.headerWrite o (a / 4096) (a % 4096) w := by
  rw [Chip.write32_reg c o a w d ha h4 hr hp]
  unfold Chip.regWrite
  rw [hr]
  simp only [hh, if_true]

/-- What a write of a block register does where it changes no quiesce field: a report of it, the word stored, its effect, and what waits to be
settled (R32 to R36, R51). -/
theorem Chip.blockWrite_cases (c : Chip) (o : Origin) (a : Nat) (d : RegDef) (w : Word) (hq : d.quiesceChange (c.rd a) w = false)
    (hd : a ≠ F.DEBUG_CTRL_UNLOCK.addr) :
    ∃ c1, Quiet c c1 ∧ (c.changeQ.length < 64 → c1.regs = c.regs ∧ c1.out = c.out ∧ c1.ports = c.ports ∧ c1.host = c.host ∧ c1.chain = c.chain) ∧
      c.blockWrite o a d w =
        (((if unstored a then c1 else c1.wr a (d.store (c.rd a) w)).writeEffect o a (c.rd a) w).noteMirror a).settle := by
  refine ⟨if d.shadowed || d.commandBit w || d.command then c.logChange o a w else c, ?_, ?_, ?_⟩
  · split
    · exact c.quiet_logChange _ _ _
    · exact Quiet.refl c
  · intro hl
    split
    · unfold Chip.logChange; rw [if_pos hl]; exact ⟨rfl, rfl, rfl, rfl, rfl⟩
    · exact ⟨rfl, rfl, rfl, rfl, rfl⟩
  · unfold Chip.blockWrite Chip.sizeError
    simp only [hq, hd, decide_false, Bool.false_and, Bool.or_false, Bool.false_eq_true, if_false]

end Sys2Proof.Machine
end

