-- ==== Sys2Proof/Laws/Complete.lean ====
section
/-! SUPPORT. When a command completes: the block runs, and what its meaning makes of the block has the property asked for. -/

namespace Sys2Proof.Machine

theorem Runs.notFrozen {s : State} (h : Runs s) : s.chip.frozen = false := by
  unfold Runs Chip.idle at h; simp at h; exact h.1

theorem Runs.hears {s : State} (h : Runs s) (o : Origin) : s.chip.hears o = true := by
  unfold Runs Chip.idle at h; simp at h; unfold Chip.hears; rw [h.2]; rfl

theorem Runs.notDeaf {s : State} (h : Runs s) : s.chip.deaf = false := by
  have := h.notFrozen; unfold Chip.frozen at this; simp at this; exact this.1

theorem Runs.notLatched {s : State} (h : Runs s) : s.chip.latched = false := by
  have := h.notDeaf; unfold Chip.deaf at this; simp at this; exact this.1

theorem Completes.live {i : Instr} {s : State} {P : Chip → Prop} (f : Chip → Chip) (he : exec i s = live s f) (h : Runs s) (hp : P (f s.chip)) :
    Completes i s P := by
  unfold Runs at h
  refine ⟨{ s with chip := f s.chip }, ?_, rfl, hp⟩
  rw [he]; unfold Machine.live; rw [h]; rfl

theorem Completes.serve {i : Instr} {s : State} {P : Chip → Prop} (f : Chip → Chip) (he : exec i s = serve s f) (h : s.chip.frozen = false)
    (hp : P (f s.chip)) : Completes i s P := by
  refine ⟨{ s with chip := f s.chip }, ?_, rfl, hp⟩
  rw [he]; unfold Machine.serve; rw [h]; rfl

theorem Completes.serveFor {i : Instr} {s : State} {P : Chip → Prop} (o : Origin) (f : Chip → Chip) (he : exec i s = serveFor o s f) (h : Runs s)
    (hp : P (f s.chip)) : Completes i s P :=
  Completes.serve (fun c => c.when (c.hears o) f) he h.notFrozen (by unfold Chip.when; rw [h.hears o]; exact hp)

theorem Completes.awake {i : Instr} {s : State} {P : Chip → Prop} (f : Chip → Chip) (he : exec i s = awake s f) (h : s.chip.deaf = false)
    (hp : P (f s.chip)) : Completes i s P := by
  refine ⟨{ s with chip := f s.chip }, ?_, rfl, hp⟩
  rw [he]; unfold Machine.awake; rw [h]; rfl

theorem Completes.powered {i : Instr} {s : State} {P : Chip → Prop} (f : Chip → Chip) (he : exec i s = powered s f) (h : s.chip.latched = false)
    (hp : P (f s.chip)) : Completes i s P := by
  refine ⟨{ s with chip := f s.chip }, ?_, rfl, hp⟩
  rw [he]; unfold Machine.powered; rw [h]; rfl

end Sys2Proof.Machine
end

