-- ==== Sys2Proof/Laws/Memory.lean ====
section
/-! SUPPORT. Byte memories: a read after a write, and that every memory operation keeps the canonical form. -/

namespace Sys2Proof.Machine

/-- A byte written is read back; every other byte stays. -/
@[simp] theorem memGet_memPut (fill : Byte) (m : Memory) (a b : Nat) (v : Byte) :
    memGet fill (memPut fill m a v) b = if b = a then v else memGet fill m b := smGet_smPut fill m a b v

/-- One byte written keeps the canonical form. -/
theorem memPut_wf (fill : Byte) (m : Memory) (a : Nat) (v : Byte) (h : Memory.wf fill m = true) : Memory.wf fill (memPut fill m a v) = true :=
  smPut_wf fill m a v h

/-- Bytes written keep the canonical form. -/
theorem memWrite_wf (fill : Byte) (m : Memory) (a : Nat) (l : List Byte) (h : Memory.wf fill m = true) : Memory.wf fill (memWrite fill m a l) = true := by
  induction l generalizing m a with
  | nil => exact h
  | cons b t ih => exact ih _ _ (memPut_wf fill m a b h)

/-- A byte outside the bytes written stays; a byte within them is the one written. -/
theorem memGet_memWrite (fill : Byte) (m : Memory) (a b : Nat) (l : List Byte) :
    memGet fill (memWrite fill m a l) b = if a ≤ b ∧ b < a + l.length then l.getD (b - a) 0 else memGet fill m b := by
  induction l generalizing m a with
  | nil => simp only [memWrite, List.length_nil]; rw [if_neg (by omega)]
  | cons x t ih =>
    simp only [memWrite, ih, memGet_memPut, List.length_cons]
    by_cases h1 : b = a
    · subst h1
      have e1 : ¬(b + 1 ≤ b ∧ b < b + 1 + t.length) := by omega
      have e2 : b ≤ b ∧ b < b + (t.length + 1) := by omega
      simp [e2]
    · by_cases h2 : a + 1 ≤ b ∧ b < a + 1 + t.length
      · have e2 : a ≤ b ∧ b < a + (t.length + 1) := by omega
        have e : b - a = (b - (a + 1)) + 1 := by omega
        simp only [h2, e2, and_self, if_true]
        rw [e]; simp
      · have e2 : ¬(a ≤ b ∧ b < a + (t.length + 1)) := by omega
        simp only [h2, e2, h1, if_false]

@[simp] theorem memWf_nil (fill : Byte) : Memory.wf fill [] = true := rfl

end Sys2Proof.Machine
end

