-- ==== Sys2Proof/Tests/Slice0.lean ====
section
/-! SUPPORT. Tests: states that meet the hypotheses of the statements, ill-formed commands, and effects worked out by hand from the specification. -/

set_option Elab.async false

namespace Sys2Proof.Tests
open Sys2Proof.Machine

/-! ### Building states -/

/-- A freshly reset part of a build, changed in what a test is about. -/
def mk (b : Build) (f : Chip → Chip) : State := { chip := f (Chip.init b), pending := [] }

/-- EN of a page. -/
def en (pg : Nat) (c : Chip) : Chip := c.set (F.EN.pg pg) 1

/-- STATE of a page. -/
def st (pg v : Nat) (c : Chip) : Chip := c.set (F.STATE.pg pg) v

def filled (c : Chip) : Chip := (c.set F.ECC_STATUS_DRAM_FILLED 1).set F.ECC_STATUS_SRAM_FILLED 1

def belfry (c : Chip) : Chip := { c with belfry := { c.belfry with running := true } }

def bar (f : BarSt → BarSt) (c : Chip) : Chip := { c with bar := f c.bar }
def host (f : HostSt → HostSt) (c : Chip) : Chip := { c with host := f c.host }
def map (f : MapSt → MapSt) (c : Chip) : Chip := { c with map := f c.map }
def scan (f : ScanSt → ScanSt) (c : Chip) : Chip := { c with scan := f c.scan }
def tile (f : TileSt → TileSt) (c : Chip) : Chip := { c with tile := f c.tile }
def sched (f : SchedSt → SchedSt) (c : Chip) : Chip := tile (fun t => { t with sched := f t.sched }) c
def drive (f : DriveSt → DriveSt) (c : Chip) : Chip := { c with drive := f c.drive }
def redun (f : RedunSt → RedunSt) (c : Chip) : Chip := { c with redun := f c.redun }
def mirror (f : MirrorSt → MirrorSt) (c : Chip) : Chip := { c with mirror := f c.mirror }
def port (p : Nat) (f : PortSt → PortSt) (c : Chip) : Chip := c.setPort p (f (c.port p))

/-- The mode of every sender port in use. -/
def portModes (m : Nat) (c : Chip) : Chip :=
  let w := BitVec.ofNat 32 (m * 0x11111111)
  { c with inUse := smSet (smSet c.inUse 0x090040 w) 0x090044 w }

def laneGood : LaneSt := { LaneSt.init with locked := true, trained := true }

/-- A port that carries traffic on three good lanes. -/
def up (p : Nat) (c : Chip) : Chip :=
  port p (fun x => { x with lane0 := laneGood, lane1 := laneGood, lane2 := laneGood, trained := true }) (st (0x080 + p) 2 (en (0x080 + p) c))

/-! ### States of the whole block, the pages and the access paths -/

def sKnell : KnellRec := { time := 5, bar := 1, sensor := 3, subst := false, value := 1840, levels := 7 }
def sLatched : State := mk .S (fun c => { c with aon := { c.aon with knell := some sKnell, stopped := true, latched := true } })
def sStopped : State := mk .S (fun c => { c with aon := { c.aon with knell := some sKnell, stopped := true } })
def sShock : State := mk .S (fun c => { c with aon := { c.aon with knell := some sKnell } })
def sBadAddr : State := mk .S (fun c => c.set F.DEVICE_BAD_ADDR_VALID 1)
def sMapOn : State := mk .S (en 0x060)
def sCommitWaits : State := mk .S (fun c => ((en 0x060 c).set (F.COMMIT.pg 0x061) 1).set (F.COMMIT.pg 0x068) 1)
/-- A commit waits on a page of every apply reference. -/
def withCommits (l : List Nat) (c : Chip) : Chip := l.foldl (fun c pg => c.set (F.COMMIT.pg pg) 1) c
def sCommits : State := mk .S (withCommits [0x022, 0x060, 0x068, 0x072, 0x0C0])
def tCommits : State := mk .T (withCommits [0x0A0, 0x090])
def sSrst : State := mk .S (fun c => (c.set (F.SRST.pg 0x0C0) 1).set (F.SRST.pg 0x068) 1)
/-- SRST and COMMIT written together on the PREVIEW page, whose reference does not run. -/
def sSrstCommit : State := mk .S (fun c => (c.set (F.SRST.pg 0x072) 1).set (F.COMMIT.pg 0x072) 1)
def sEvents : State := mk .S (fun c =>
  host (fun h => { h with alertLow := true })
    (((List.range 32).foldl (fun c v => c.set (F.USB4_MSIX_MASK.plus (16 * v)) 0)
      (((c.wr 0x020014 0xFFFFFFFF).wr 0x020018 3).wr 0x008014 0xFFFFFFFF))))
def sErrRecs : State := mk .S (fun c => [0x020, 0x030, 0x0D0, 0x0E0].foldl (fun c pg =>
  [0x20, 0x24, 0x28, 0x2C, 0x30].foldl (fun c k => c.wr (pg * 4096 + k) 0xFFFFFFFF) c) c)
def sDma : State := mk .S (fun c =>
  (((c.set F.DRAMCTL_CAPACITY_MIB 1).set (dmaF F.USB4_DMA_LEN 0) 4).set (dmaF F.USB4_DMA_LEN 1) 4).set (dmaF F.USB4_DMA_DEV 1) 0x3FFFF)
def sDmaBusy : State := mk .S (fun c =>
  host (fun h => { h with dma0 := { busy := true, toHost := true, sram := false, host := 0x1000, dev := 0, len := 32 }, dma1 := { busy := true, toHost := false, sram := true, host := 0x1000, dev := 64, len := 16 } })
    ((((c.set F.DRAMCTL_CAPACITY_MIB 1).set F.USB4_LINK_PCIE_UP 1).set (dmaF F.USB4_DMA_CTRL_BUSY 0) 1).set (dmaF F.USB4_DMA_CTRL_BUSY 1) 1))
def sDp : State := mk .S (fun c => filled (en 0x049 c))
def sDpLocked : State := mk .S (fun c =>
  (((filled (en 0x049 c)).set F.DPIN_STATUS_LOCK 1).set F.DPIN_SIZE_WIDTH 2).set F.DPIN_SIZE_HEIGHT 2 |> (fun c => c.setUse (F.LAYER_CTRL_SOURCE.pg 7) 16))
def sRecovery : State := mk .S (host (fun h => { h with recovery := true }))
/-- Recovery after a restart whose ROM found no image, the straps asking for slot A. -/
def sRecoveryA : State := mk .S (fun c => host (fun h => { h with recovery := true }) (c.set F.DEVICE_STRAPS_BOOT_SEL 1))
def srpChip (c : Chip) : Chip := ((en 0x04A c).set F.SRP_IPV4_ADDR 0x0A000001).set F.SRP_PORT_PATH_A 1 |> (fun c => c.set F.SRP_PORT_PATH_B 1)
def peer : NetPeer := { mac := 0x020000000001, ip := 0x0A000002, port := 5000, vlan := none, sub := 0 }
def sSrp : State := mk .S srpChip
def sSrpSeen : State := mk .S (fun c => host (fun h => { h with sessions := [{ ip := 0x0A000002, port := 5000, seq := 7, response := [] }] }) (srpChip c))
/-- A datagram that writes one word of SCRATCH. -/
def srpWrite : List Byte := [0x53, 0x52, 1, 2, 0, 0, 0, 7, 0, 0, 0, 0x60, 0, 1, 0, 0, 0x12, 0x34, 0x56, 0x78].map (BitVec.ofNat 8)
/-- A datagram that reads it. -/
def srpRead : List Byte := [0x53, 0x52, 1, 1, 0, 0, 0, 7, 0, 0, 0, 0x60, 0, 1, 0, 0].map (BitVec.ofNat 8)
def sRelay : State := mk .S (fun c => belfry (up 0 (portModes 1 c)))
def relayReq (write : Bool) : RelayReq := { target := 2, addr := 0x80, data := 5, write := write, lane := 0, size := 4, origin := .usb4, tag := 9, srp := false }
def sRelayOut (write : Bool) : State := mk .S (fun c =>
  host (fun h => { h with relayOut := some (relayReq write), relayTag := 10 }) (belfry (up 0 (portModes 1 c))))
/-- The Belfry is down and an access waits. -/
def sRelayWaits : State := mk .S (host (fun h => { h with relayQ := [relayReq true, relayReq false] }))
def relayAnswer (write ignored : Bool) : Nat := mkMgmt 2 (if write then 3 else 2) ignored 9 0x80 77 false

/-! ### States of time, bars and frame lock -/

def sNearWrap : State := mk .S (fun c => { c with time := { c.time with ticks28 := (2 ^ 32 - 3) * 2 ^ 28, stepNs := 5 } })
def tsEntry : TsEntry := { ns := 17, frac := 3, dir := 1, msgType := 0, seqId := 9 }
def sPtp (n : Nat) : State := mk .S (fun c =>
  { (c.set F.TIME_TS_CTRL_EN_A 1).set F.TIME_TS_CTRL_EN_B 1 with time := { c.time with tsA := List.replicate n tsEntry, tsB := List.replicate n tsEntry } })
/-- A running generator in mode 19 (four beats), with the given next beat. -/
def sBar (nb : Nat) : State := mk .S (fun c =>
  bar (fun b => { b with running := true, nextBeat := nb, next12 := 240000, beatLens := [100000000, 100000000, 100000000, 100000000], dbDue := if nb = 1 then some 0 else none })
    ((en 0x022 c).set F.BAR_MODE_MODE_IN_USE 19))
def sModeCommit : State := mk .S (fun c => ((en 0x022 c).set F.BAR_MODE_MODE_SEL 23).set (F.COMMIT.pg 0x022) 1)
def sRef (prev : Option Int) : State := mk .S (fun c =>
  bar (fun b => { b with running := true, sel := 2, src := 2, refPrev12 := prev, refMiss := 4 }) ((en 0x022 c).set F.BAR_SRC_SRC 2))
def launchEntry (tag : Nat) : LaunchEntry := { time := 100, kind := 1, arg := 3, tag := tag }
def sLaunch (n : Nat) : State := mk .S (fun c => { c with launchQ := (List.range n).map launchEntry })
def sEcho : State := mk .S (fun c => port 1 (fun x => { x with echoOut := [4] }) (up 1 (up 0 (portModes 1 c))))
def sCue (n : Nat) : State := mk .S (fun c => map (fun m => { m with cues := [(n, 0)] }) (c.set F.MAPCTL_SET_COUNT_COUNT 4))
def sFollow : State := mk .S (fun c =>
  bar (fun b => { b with running := true, sel := 3, copying := true, everCopied := true })
    (up 0 (portModes 4 (((((en 0x022 c).set F.DEVICE_STRAPS_STACK_POS 1).set F.BAR_SRC_SRC 3).set F.STACK_CONFIG_IN_EN 1).set F.BAR_MODE_MODE_IN_USE 5))))
def masterDb : Nat := ({ beat := 0, pairSlot := 0, stackPos := 0, launchNs := 50, accDelay := 600, pixFeed := 0, feedMap := 0, mode := 5, barCount := 12, active := true } : Downbeat).cell
def sMissed (n : Nat) : State := mk .S (fun c =>
  bar (fun b => { b with running := true, sel := 3, everCopied := true, masterMiss := n })
    ((((en 0x022 c).set F.DEVICE_STRAPS_STACK_POS 1).set F.BAR_SRC_SRC 3).set F.STACK_STATUS_LOCK 1))

/-! ### States of source ingest -/

def sEth : State := mk .S (fun c =>
  filled ((((en 0x031 (en 0x030 c)).set (ethF F.ETH_CONFIG_CTL_EN 0) 1).set (ethF F.ETH_CONFIG_CTL_EN 1) 1).set (ethF F.ETH_MAC_LO_MAC_LO 0) 0x11223344))
def sEthTx : State := mk .S (fun c => { en 0x030 c with ctlTxA := some { sub := 0, bytes := [1, 2] }, ctlTxB := some { sub := 3, bytes := [] } })
/-- A broadcast ARP frame that asks for nothing. -/
def ethOther (fcs : Bool) (n : Nat) : EthFrame :=
  { bytes := List.replicate 6 0xFF ++ [2, 0, 0, 0, 0, 1, 0x08, 0x06] ++ List.replicate (n - 14) 0, fcsOk := fcs, overrun := false, arrivalUs := 1 }
/-- A flow in a state, waiting for its line 0. -/
def sFlow (v : Nat) : State := mk .S (fun c =>
  let c := ((st (flowPage 15) v (filled (en 0x042 (en (flowPage 15) (en 0x030 (en 0x031 c)))))).set (F.FLOW_PORTS_PATH_A_EN.pg 15) 1).set (F.FLOW_PORTS_PATH_B_EN.pg 15) 1
  let c := (c.set (F.FLOW_SIZE_WIDTH.pg 15) 16).set (F.FLOW_SIZE_HEIGHT.pg 15) 8
  { c with flows := smSet c.flows 15 { FlowSt.init with rtp := some 5, writing := true, gapWait := some (0, 10) } }
    |> (fun c => c.set (F.FLOW_WATERMARK_LAST_VALID.pg 15) 1))

/-! ### States of mapping, scan-out and preview -/

def canvas0 : CanvasSt :=
  { seq := 3, litBar := 5, litBeat := 0, feed := 0, buf := 1, feedMap := 0, sm12 := 0, newest := [], lasts := [], prev := [], begun := true, tables := [], bg := 0, layers := [],
    binds := [], bands := 0, done := [], samples := 0, waitBuf := false, late := false, published := false, stale := false }
def band0 : BandSt :=
  { seq := 3, band := 0, waitChase := true, cols := [], held := 0, any := [], maxLine := [], poison := [], states := [], binds := [] }
/-- Mapping with one canvas of two bands of 64 columns. -/
def sMap (x : CanvasSt) (l : List BandSt) (e : SMap MapTask) : State := mk .S (fun c =>
  map (fun m => { m with canvases := [x], bands := l, engines := e })
    (bar (fun b => { b with running := true, beatLens := [200000000] }) (((filled (en 0x022 (en 0x060 c))).set F.MAPCTL_CANVAS_SIZE_WIDTH 64).set F.MAPCTL_CANVAS_SIZE_HEIGHT 64)))
/-- Scan-out of a canvas of 64 lines. -/
def sScan (f : Chip → Chip) : State := mk .S (fun c =>
  f (bar (fun b => { b with running := true }) (scan (fun x => { x with width := 64, height := 64, split := 32 }) (filled (en 0x071 (en 0x070 (en 0x022 c)))))))
def due0 : BeatDue := { s12 := 0, len12 := 200000000, beat := 0, litBar := 5, litBeat := 0, reads := true }
/-- One tile of 16 by 16 lamps at the top left, on port 0, its canvas being read. -/
def tileTable : SMap Word := [(0, 0x80000000), (1, 0), (2, 0x00100010)]
def readHost : ReadCanvas := { seq := none, sram := none, baseA := 0, baseB := 0, fmtA := 0, fmtB := 0, strideA := 256, strideB := 256 }
def job0 : ScanJob := { canvas := readHost, litBar := 5, litBeat := 0, table := tileTable, next := [], count := [], ended := [] }
/-- A cell with one poisoned word. -/
def pixBad : PixelEntry := { cell := mkCell { ctype := ctPixel } 0, canvas := 0, lastOfPort := false, ready := false, engine := 0, bad := true, poison := [(64, 0x1FF)] }
def pix0 (ready : Bool) : PixelEntry := { cell := mkCell { ctype := ctPixel } 0, canvas := 0, lastOfPort := false, ready := ready, engine := 0, bad := false, poison := [] }
def sPixel : State := sScan (fun c => port 15 (fun x => { x with qPixel := [pix0 false, pix0 true] }) (up 0 (portModes 1 (scan (fun x => { x with jobs := [job0], active := true }) c))))
def sPixelBad : State := sScan (port 15 (fun x => { x with qPixel := [pixBad] }))
def sPreview : State := mk .S (fun c => { (filled (en 0x073 c)).set F.PREVIEW_STATUS_BUSY 1 with preview := { c.preview with busy := true, canvas := some readHost } })

/-! ### States of the Susyn Chain -/

/-- Ports 0 and 15 of a sender carry cells, in a port mode. -/
def sUp (mode : Nat) (f : PortSt → PortSt) : State := mk .S (fun c => port 15 f (port 0 f (up 15 (up 0 (portModes mode c)))))
/-- Ports 0 and 3 of a tile carry cells. -/
def tUp (f : PortSt → PortSt) : State := mk .T (fun c => port 3 f (port 0 f (up 3 (up 0 c))))
/-- Ports 0 and 15 enabled, in a state. -/
def sPortState (v : Nat) : State := mk .S (fun c => [0, 15].foldl (fun c p => st (0x080 + p) v (en (0x080 + p) c)) (portModes 1 c))
def tPortState (v : Nat) : State := mk .T (fun c => [0, 3].foldl (fun c p => st (0x080 + p) v (en (0x080 + p) c)) c)
/-- A marker with all its fields set, and one with its CRC broken. -/
def marker1 : Nat :=
  ({ cnt := 7, srcLost := false, hops := 5, needReduce := false, rxReq := 0, txMap := 0, cellPhase := 0, dir := 0, topo := 0, pairSlot := 0, senderId := 1, portId := 2, lane := 0 } : Marker).bits
/-- The received form of a cell with no bit in error. -/
def rawOf (cell seq : Nat) : RawCell :=
  let w := fun (k : Nat) => let d : Word128 := BitVec.ofNat 128 (nbits cell (128 * k + 127) (128 * k)); ({ data := d, check := eccCheck d, index := k, cseq := seq } : RawWord)
  { w0 := w 0, w1 := w 1, w2 := w 2, w3 := w 3 }
def monitorCell (seq : Nat) : Nat := mkCell { ctype := ctMonitor, tile := 2, seq := seq } 0
def echoCell : Nat := mkCell { ctype := ctEcho, tile := 2 } 0
def badCell : Nat := echoCell + 1

/-! ### States of the tile -/

def cfg0 : TileCfg := { eotf := [], coefSet := 0, uniform := true, tg := List.replicate 12 16384, gainSel := 0, ageEn := false, headroom := 0 }
def img0 (phase : Nat) : ImgSt :=
  { serial := 4, feed := 0, litBar := 8, litBeat := 0, buf := 1, phase := phase, cfg := cfg0, marks := [], cells := [], done33 := 1000, due33 := none, judged := false }
def holdCell : RxCell := { cell := mkCell { ctype := ctPixel, tile := 0, hold := true } 0, bad := 0, serial := 9 }
/-- A tile of four bands of 16 rows and 4 columns of lamps. -/
def geo (c : Chip) : Chip := ((c.set F.DRIVECTL_GEOMETRY_BANDS 3).set F.DRIVECTL_GEOMETRY_ROWS 16).set F.DRIVECTL_GEOMETRY_COLS 4
/-- A tile in mode 5 whose schedule stands in pass `index` of 8. -/
def tSched (f : SchedSt → SchedSt) (g : Chip → Chip) : State := mk .T (fun c =>
  g (sched (fun s => f { s with mode := 5, known := true, passes := 8, passSteps := 16000, slotSteps := 200, window := 180, start33 := 5000000000, base33 := 5000000000, bar := 8 })
    ((((filled (en 0x022 (en 0x0A0 c))).set F.BAR_MODE_MODE_IN_USE 5).set (F.STATE.pg 0x0A0) 2).set F.BAR_STATUS_LOCK 1 |> geo)))
/-- A tile that drives a lit image with light in it. -/
def tLit (f : Chip → Chip) : State := tSched (fun s => { s with index := 1, row := 0, dark := false, image := some 4 }) (fun c =>
  f (drive (fun d => { d with pwm8 := false }) (tile (fun t => { t with images := [img0 2], newest := [(0, 4)] })
    { st 0x0B4 2 (en 0x0B4 c) with mem := { c.mem with sram := memWrite 0 [] (bufBank 1 * 2 ^ 20 + bufOfs 1) (List.replicate 64 0xC0) } })))

/-! ### States of redundant operation -/

/-- A unit of a pair, in a state, with the generator enabled. -/
def sPair (v : Nat) (f : Chip → Chip) : State := mk .S (fun c => f (st 0x0C0 v (en 0x0C1 (en 0x0C0 (en 0x022 (filled c))))))
/-- A heartbeat as a sideband frame, and a request for a full set. -/
def heartbeat : List Byte := sbFrame 1 (leBytes 4 7 ++ leBytes 4 1 ++ leBytes 1 3 ++ leBytes 1 1)
def askFull : List Byte := sbFrame 5 []
def set0 (n : Nat) : ReadySet := { num := n, half := 0, len := 0, full := false, snapshot := 0 }
/-- A REG record of one shadowed register of layer 0, and a set that holds it, in staging half 0. -/
def regRecord : List Byte := leBytes 1 1 ++ leBytes 1 0 ++ leBytes 2 1 ++ leBytes 4 0x061040 ++ leBytes 4 5
def regSet : ReadySet := { num := 4, half := 0, len := 12, full := false, snapshot := 9 }
def regItem : SetItem := { typ := 1, count := 1, addr := 0x061040, payload := leBytes 4 5 }

/-! ### States of the memories -/

def bank (b : Nat) (x : BankSt) (c : Chip) : Chip := { c with mem := { c.mem with banks := smSet c.mem.banks b x } }
def bytes16 : List Byte := (List.range 16).map (BitVec.ofNat 8)
/-- A clean word at the start of every bank, and one with bit 5 in error behind it. -/
def sSram (f : Chip → Chip) : State := mk .S (fun c =>
  let m := (List.range 8).foldl (fun m b => memWrite 0 m (b * 2 ^ 20) bytes16) c.mem.sram
  let c := c.set F.ECC_STATUS_SRAM_FILLED 1
  f { c with mem := { c.mem with sram := m } })

/-- DRAM of four ports of one rank of 1,024 MiB a channel, all in a state. -/
def dramChip (v : Nat) (f : DramPortSt → DramPortSt) (c : Chip) : Chip :=
  let c := [0, 1, 2, 3].foldl (fun c p => ((st (dramPage p) v c).set (F.DRAM_STATUS_POPULATED.pg p) 1).set (F.DRAM_STATUS_RATE.pg p) 1) c
  let c := ((c.set F.DRAMCTL_CAPACITY_MIB 14336).set F.DRAMCTL_MAP_PORTS 15).set F.ECC_STATUS_DRAM_FILLED 1
  { c with mem := { c.mem with dram := memWrite 0 [] 64 bytes16, ports := [0, 1, 2, 3].map (fun p => (p, f { DramPortSt.init with rankMib := 1024 })) } }
def sCueSet : State := mk .S (fun c => map (fun m => { m with cues := [(0, 7), (3, 8)] }) ((dramChip 4 id c).set F.MAPCTL_SET_COUNT_COUNT 4))
def sDram (v : Nat) (f : DramPortSt → DramPortSt) : State := mk .S (dramChip v f)

/-! ### States of the Belfry, the log, the flash and the resets -/

def sBelfry (f : Chip → Chip) : State := mk .S (fun c => f (belfry c))
def flash (f : Memory → Memory) (c : Chip) : Chip := { c with belfry := { c.belfry with flash := f c.belfry.flash } }
/-- Room in slot A of an update session in a state. -/
def sUpdate (v : Nat) (f : Chip → Chip) : State := sBelfry (fun c => f (st updPage v c))

/-! ### Witnesses: the hypotheses of each statement, clause by clause, at boundary values -/

theorem witness_LatchedKnellIgnoresEverything :
    sLatched.chip.aon.latched = true ∧ (∀ i ∈ [Instr.barStart, .powerGoodTrue], i ≠ .powerOnReset) ∧
      Host.Core.run Sys2Proof.core 0 sLatched = .next sLatched := ⟨by decide +kernel, by decide +kernel, rfl⟩

theorem witness_IgnoredWriteIsReported :
    Runs State.reset ∧ State.reset.chip.pathsOpen = true ∧ sBadAddr.chip.pathsOpen = true ∧ (0x3FFFFF : Nat) < 0x400000 ∧ regAt .S (0x3FFFFF / 4 * 4) = .none 0 ∧ (2 : Nat) < 4 ∧ Runs sBadAddr ∧ sBadAddr.chip.on F.DEVICE_BAD_ADDR_VALID = true ∧
      (∀ n, regAt .S 0x60 ≠ .none n) := by
  refine ⟨by decide +kernel, by decide +kernel, by decide +kernel, by decide +kernel, by decide +kernel, by decide +kernel, by decide +kernel, by decide +kernel, ?_⟩
  intro n h
  cases h

theorem witness_WritesTakeEffectInOrder :
    Runs State.reset ∧ Calm State.reset.chip ∧ (0x7FFFF8 : Nat) % 8 = 0 ∧ (0x7FFFF8 : Nat) < 0x800000 ∧
      Origin.rank .usb4 ≠ Origin.rank .jtag ∧ (Origin.rank .usb4 < Origin.rank .jtag ∨ Origin.rank .jtag < Origin.rank .usb4) := by decide +kernel

theorem witness_ShadowWriteWaitsForACommit :
    Runs State.reset ∧ Calm State.reset.chip ∧ State.reset.chip.build = .S ∧
      (∃ d, regAt .S (0x061000 + 4096 * 7 + 0x40) = .reg d ∧ d.shadowed = true) ∧ (∃ d, regAt .S F.RESET_SERVICE_PWM8.addr = .reg d ∧ d.shadowed = true) ∧
      (∃ d, regAt .T F.TILERX_HOLD_IMAGE.addr = .reg d ∧ d.shadowed = true) ∧
      (∀ a ∈ [0x061000 + 4096 * 7 + 0x40, F.RESET_SERVICE_PWM8.addr, F.TILERX_HOLD_IMAGE.addr], unstored a = false ∧ 0x40 ≤ a % 4096 ∧ a % 4 = 0) ∧
      State.reset.chip.changeQ.length < 64 := by
  exact ⟨by decide +kernel, by decide +kernel, rfl, ⟨_, rfl, by decide +kernel⟩, ⟨_, rfl, by decide +kernel⟩, ⟨_, rfl, by decide +kernel⟩, by decide +kernel,
    by decide⟩

theorem witness_CommitAndApplyPoint :
    (Runs sMapOn ∧ Calm sMapOn.chip ∧ sMapOn.chip.build = .S ∧ sMapOn.chip.on (F.SRST.pg (0x061 + 7)) = false ∧ sMapOn.chip.en 0x060 = true) ∧
      (Runs sCommitWaits ∧ sCommitWaits.chip.build = .S ∧ sCommitWaits.chip.commitReady (0x061 + 7) = true ∧
        sCommitWaits.chip.commitReady (0x061 + 1) = false) ∧
      (Runs sCommits ∧ (∀ pg ∈ [0x022, 0x060, 0x068, 0x072, 0x0C0], sCommits.chip.hasPage pg = true ∧ sCommits.chip.commitReady pg = true) ∧
        [0x022, 0x060, 0x068, 0x072, 0x0C0].map (pageRef .S) = [.scan, .release, .begin, .preview, .bar] ∧ 0x061 ∉ sCommits.chip.commitPages) ∧
      (Runs tCommits ∧ (∀ pg ∈ [0x0A0, 0x090], tCommits.chip.hasPage pg = true ∧ tCommits.chip.commitReady pg = true) ∧
        [0x0A0, 0x090].map (pageRef .T) = [.tile, .bar]) := by decide +kernel

theorem witness_PageControl :
    (Runs State.reset ∧ Calm State.reset.chip ∧ State.reset.chip.hasPage 0x0F0 = true ∧ ctrlAbsent 0x0F0 = false ∧
      State.reset.chip.hasPage 0x042 = true ∧ ctrlAbsent 0x042 = true ∧ srstInert 0x072 = false) ∧
      (Runs sSrst ∧ Calm sSrst.chip ∧ sSrst.chip.on (F.SRST.pg 0x0C0) = true ∧ sSrst.chip.on (F.COMMIT.pg 0x0C0) = false ∧
        sSrst.chip.host.srpJob = none ∧ sSrst.chip.host.srpQ = []) ∧
      (Runs sSrstCommit ∧ Calm sSrstCommit.chip ∧ sSrstCommit.chip.on (F.SRST.pg 0x072) = true ∧ sSrstCommit.chip.on (F.COMMIT.pg 0x072) = true ∧
        sSrstCommit.chip.refRuns (pageRef sSrstCommit.chip.build 0x072) = false ∧ sSrstCommit.chip.host.srpJob = none) := by decide +kernel

theorem witness_EventsAndMessages :
    (Runs sEvents ∧ Calm sEvents.chip ∧ E.TIME_STEP_BACK ∈ E.all ∧ sEvents.chip.hasPage E.TIME_STEP_BACK.page = true ∧
      evtAbsent E.TIME_STEP_BACK.page = false ∧ (1 : Word).getLsbD E.TIME_STEP_BACK.bit = true) ∧
      (sEvents.chip.get (F.USB4_MSIX_MASK.plus (16 * 31)) = 0 ∧ sEvents.chip.summary 10 = true) ∧
      (Runs State.reset ∧ State.reset.chip.on (F.USB4_MSIX_MASK.plus (16 * 31)) = true) ∧
      (sEvents.chip.aon.knell = none ∧ sEvents.chip.rst.extest = false) := by decide +kernel

theorem witness_ErrorRecordsClear : Runs sErrRecs ∧ sErrRecs.chip.pathsOpen = true ∧ sErrRecs.chip.hasPage 0x0D0 = true ∧ flipPage 0x0D0 = true := by decide +kernel

theorem witness_Usb4LinkAndErrors :
    Runs sDmaBusy ∧ sDmaBusy.chip.on F.USB4_LINK_PCIE_UP = true ∧ (sDmaBusy.chip.dma 0).busy = true ∧ (sDmaBusy.chip.dma 1).busy = true := by decide +kernel

theorem witness_DmaTransfers :
    (Runs sDma ∧ Calm sDma.chip ∧ (sDma.chip.dma 1).busy = false ∧ sDma.chip.get (dmaF F.USB4_DMA_LEN 1) = 4) ∧
      (Runs sDmaBusy ∧ (sDmaBusy.chip.dma 0).busy = true ∧ (sDmaBusy.chip.dma 1).busy = true) := by decide +kernel

def dpMax : DpFormat := { width := 7680, height := 4320, bpc := 10, rgb444 := true, pixelMHz := 600, lanes := 4, laneMbps := 8100 }
def dpFrame (l : List (List Nat)) : DpFrame := { width := 2, height := 2, bpc10 := false, lines := l }

theorem witness_DpStream :
    (Runs sDp ∧ sDp.chip.build = .S ∧ sDp.chip.runs 0x049 = true ∧ sDp.chip.dpWithin dpMax = true ∧ sDp.chip.dpWithin { dpMax with width := 7681 } = false ∧
      sDp.chip.dpWithin { dpMax with laneMbps := 5400 } = false) ∧
      (Runs sDpLocked ∧ sDpLocked.chip.on F.DPIN_STATUS_LOCK = true ∧ sDpLocked.chip.layerSrc 7 = 16 ∧ sDpLocked.chip.runs 0x049 = true ∧
        ∀ x ∈ [dpFrame [[1, 2]], dpFrame [[1, 2], [3, 4]]], x.width = sDpLocked.chip.get F.DPIN_SIZE_WIDTH ∧ x.height = sDpLocked.chip.get F.DPIN_SIZE_HEIGHT ∧
          x.bpc10 = sDpLocked.chip.on F.DPIN_STATUS_BPC10 ∧ sDpLocked.chip.dp.line + x.lines.length ≤ x.height ∧ ∀ l ∈ x.lines, l.length = x.width) := by
  decide +kernel

theorem witness_UsbRecovery :
    (Runs sRecovery ∧ sRecovery.chip.host.recovery = true) ∧ (Runs State.reset ∧ State.reset.chip.host.recovery = false) ∧
      (Runs sRecoveryA ∧ sRecoveryA.chip.host.recovery = true ∧ sRecoveryA.chip.belfry.running = false ∧ sRecoveryA.chip.get F.DEVICE_STRAPS_BOOT_SEL = 1) := by
  decide +kernel

theorem witness_EthernetRegisterProtocol :
    (Runs sSrp ∧ sSrp.chip.build = .S ∧ sSrp.chip.rst.extest = false ∧ sSrp.chip.srpOn 1 = true ∧ sSrp.chip.on F.SRP_PORT_VLAN_EN = false) ∧
      srpParse 1 peer [1, 2, 3] = none ∧
      (sSrp.chip.host.srpJob = none ∧ sSrp.chip.host.srpQ = [] ∧ Calm sSrp.chip ∧ sSrp.chip.host.sessions = [] ∧
        srpParse 1 peer srpWrite =
          some { path := 1, peer := peer, write := true, seq := 7, addr := F.DEVICE_SCRATCH_VALUE.addr, count := 1, words := [0x12345678] }) ∧
      (Runs sSrpSeen ∧ sSrpSeen.chip.srpOn 0 = true ∧ sSrpSeen.chip.host.srpJob = none ∧ sSrpSeen.chip.host.srpQ = [] ∧
        (sSrpSeen.chip.host.sessions.find? (fun y => y.ip = peer.ip && y.port = peer.port && y.seq = 7)).isSome = true) ∧
      (srpParse 1 peer srpRead = some { path := 1, peer := peer, write := false, seq := 7, addr := F.DEVICE_SCRATCH_VALUE.addr, count := 1, words := [0] } ∧
        sSrp.chip.host.latches = [] ∧ 0x000 ∉ sSrp.chip.unpredictable) ∧
      sSrp.chip.get F.SRP_IPV4_ADDR = 0x0A000001 := by decide +kernel

theorem witness_RelayWindow :
    (Runs sRelay ∧ sRelay.chip.build = .S ∧ sRelay.chip.pathsOpen = true ∧ (0x3FFFFC : Nat) < 0x400000 ∧ (0x3FFFFC : Nat) % 4 = 0 ∧
      sRelay.chip.unreachable (sRelay.chip.get F.RELAY_TARGET_TILE_ID) = false ∧ sRelay.chip.host.relayOut = none ∧ sRelay.chip.host.relayQ = [] ∧
      sRelay.chip.belfryUp = true) ∧
      (State.reset.chip.unreachable (State.reset.chip.get F.RELAY_TARGET_TILE_ID) = true) ∧
      (Runs (sRelayOut true) ∧ (sRelayOut true).chip.host.relayOut = some (relayReq true) ∧ (sRelayOut true).chip.host.relayQ = [] ∧
        (relayReq true).srp = false ∧ (sRelayOut true).chip.host.srpJob = none ∧ (sRelayOut true).chip.host.srpQ = [] ∧
        cellCrcOk (relayAnswer true true) = true ∧ cellType (relayAnswer true true) = ctMgmt ∧ mgmtTag (relayAnswer true true) = (relayReq true).tag ∧
        cellTile (relayAnswer true true) = (relayReq true).target ∧ mgmtOp (relayAnswer true true) = 3) ∧
      (Runs sRelayWaits ∧ sRelayWaits.chip.pathsOpen = true ∧ sRelayWaits.chip.host.relayOut = none ∧
        sRelayWaits.chip.host.relayQ = relayReq true :: [relayReq false] ∧ sRelayWaits.chip.belfryUp = false ∧ sRelayWaits.chip.host.srpJob = none ∧
        sRelayWaits.chip.host.srpQ = []) ∧
      ((sRelayOut true).chip.pathsOpen = true ∧ (sRelayOut true).chip.belfryUp = true ∧ (sRelayOut false).chip.host.relayOut = some (relayReq false) ∧ mgmtOp (relayAnswer false false) = 2 ∧
        mgmtIgnored (relayAnswer false false) = false) := by decide +kernel

theorem witness_OtherPaths :
    Runs sRelay ∧ sRelay.chip.pathsOpen = true ∧ sRelay.chip.belfryUp = true ∧ sRelay.chip.host.latches = [] ∧ 0x020 ∉ sRelay.chip.unpredictable ∧
      smFind sRelay.chip.host.latches (latchKey .usb4 F.TIME_NS_NS.addr) = none := by decide +kernel

theorem witness_TimeCounter : Runs sNearWrap ∧ Calm sNearWrap.chip ∧ (0xFFFFFFFF : Word).toInt < 0 := by decide +kernel

theorem witness_PtpTimestamps :
    (Runs (sPtp 16) ∧ (sPtp 16).chip.build = .S ∧ (sPtp 16).chip.on F.TIME_TS_CTRL_EN_A = true ∧ (sPtp 16).chip.on F.TIME_TS_CTRL_EN_B = true ∧
      ((sPtp 16).chip.tsFifo 1).length = 16 ∧ ((sPtp 15).chip.tsFifo 1).length < 16) ∧
      (Runs (sPtp 1) ∧ (sPtp 1).chip.tsFifo 1 = tsEntry :: [] ∧ tsEntry.ns < 2 ^ 32 ∧ (sPtp 1).chip.pathsOpen = true ∧ 0x020 ∉ (sPtp 1).chip.unpredictable ∧
        smFind (sPtp 1).chip.host.latches (latchKey .usb4 (F.TIME_TS_A_NS.addr + 8 * 1)) = none ∧ Calm (sPtp 1).chip) := by decide +kernel

theorem witness_BarsAndBeats :
    (∀ n ∈ [0, 1, 3], Runs (sBar n) ∧ (sBar n).chip.build = .S ∧ Calm (sBar n).chip ∧ (sBar n).chip.bar.running = true ∧
      (sBar n).chip.bar.waiting = false ∧ (sBar n).chip.copyingNow = false ∧ (sBar n).chip.bar.nextBeat = n) ∧
      ((sBar 1).chip.bar.dbDue = some ((sBar 1).chip.get F.BAR_STATUS_BEAT) ∧ (sBar 1).chip.launchQ = []) ∧
      (Runs sModeCommit ∧ sModeCommit.chip.commitReady 0x022 = true ∧ sModeCommit.chip.get F.BAR_MODE_MODE_SEL = 23 ∧
        sModeCommit.chip.bar.copying = false) := by decide +kernel

theorem witness_ReferenceInput :
    Runs (sRef none) ∧ (sRef none).chip.build = .S ∧ (sRef none).chip.bar.running = true ∧ (sRef none).chip.refUsed = true ∧ (sRef none).chip.refEdgeValid 0 = true ∧ (sRef (some 1000000)).chip.refEdgeValid 0 = false ∧
      (sRef none).chip.bar.refLost = false ∧ 4 ≤ (sRef none).chip.bar.refMiss := by decide +kernel

theorem witness_LaunchQueue :
    Runs (sLaunch 64) ∧ Calm (sLaunch 64).chip ∧ (sLaunch 64).chip.launchQ.length = 64 ∧ (sLaunch 63).chip.launchQ.length < 64 ∧
      bitsOf (0x25 : Word) 3 0 = 5 ∧ bitsOf (0x24 : Word) 3 0 = 4 := by decide +kernel

theorem witness_FollowersAndCues :
    (Runs sEcho ∧ 1 < sEcho.chip.numPorts ∧ sEcho.chip.portEnabled 1 = true ∧ (sEcho.chip.port 1).echoOut = 4 :: []) ∧
      (Runs (sCue 4) ∧ (sCue 4).chip.build = .S ∧ (sCue 4).chip.stepStalls = false ∧ sCueSet.chip.stepStalls = false ∧ (sCue 4).chip.map.cues = (4, 0) :: [] ∧ min 1024 ((sCue 4).chip.get F.MAPCTL_SET_COUNT_COUNT) ≤ 4) ∧
      (Runs sCueSet ∧ Calm sCueSet.chip ∧ sCueSet.chip.map.cues = (0, 7) :: [(3, 8)] ∧
        ((sCueSet.chip.setMap { sCueSet.chip.map with cues := [(3, 8)], cueFrom := some 7 }).cueRecord 0).1.isSome = true) ∧
      (Runs sFollow ∧ sFollow.chip.build = .S ∧ Calm sFollow.chip ∧ sFollow.chip.isMaster = false ∧ sFollow.chip.bar.sel = 3 ∧ sFollow.chip.get F.BAR_SRC_SRC = 3 ∧
        sFollow.chip.on F.STACK_CONFIG_IN_EN = true ∧ sFollow.chip.portMode (sFollow.chip.get F.STACK_CONFIG_IN_PORT) = 4 ∧ cellCrcOk masterDb = true ∧
        cellType masterDb = ctDownbeat ∧ (Downbeat.ofCell masterDb).mode = 5 ∧ (Downbeat.ofCell masterDb).beat = 0 ∧ modeBeats 5 = 1 ∧
        sFollow.chip.bar.running = true ∧ sFollow.chip.bar.copying = true ∧ sFollow.chip.mode = 5 ∧ sFollow.chip.launchQ = [] ∧ sFollow.chip.bar.everCopied = true ∧
        sFollow.chip.bar.nextBeat = 0) ∧
      (Runs (sMissed 2) ∧ (sMissed 2).chip.isMaster = false ∧ (sMissed 2).chip.bar.sel = 3 ∧ (sMissed 2).chip.bar.running = true ∧
        (sMissed 2).chip.bar.everCopied = true ∧ (sMissed 2).chip.bar.copying = false ∧ (sMissed 2).chip.get F.BAR_STATUS_BEAT = 0 ∧
        2 ≤ (sMissed 2).chip.bar.masterMiss) := by decide +kernel

theorem witness_EthernetPaths :
    (Runs sEth ∧ sEth.chip.build = .S ∧ sEth.chip.runs (ethPage 1) = true ∧ (ethOther false 60).fcsOk = false ∧ (ethOther true 59).bytes.length + 4 < 64 ∧
      sEth.chip.ethFate 1 0 (ethOther true 60) = .ring ∧ sEth.chip.on (ethF F.ETH_CONFIG_CTL_EN 1) = true ∧
      (sEth.chip.get (ethF F.ETH_CTL_RX_HEAD_HEAD 1) + 1) % sEth.chip.ringSlots 1 ≠ sEth.chip.get (ethF F.ETH_CTL_RX_TAIL_TAIL 1)) ∧
      (Calm sEth.chip ∧ sEth.chip.on (ethF F.ETH_CTL_TX_CTRL_BUSY 1) = false ∧ (9600 : Nat) ≤ 9600) ∧
      (Runs sEthTx ∧ sEthTx.chip.rst.extest = false ∧ sEthTx.chip.ctlTxB = some { sub := 3, bytes := [] }) := by decide +kernel

theorem witness_FlowWaits :
    (∀ v ∈ [fsSync, fsRun, fsStop], Runs (sFlow v) ∧ (sFlow v).chip.build = .S ∧ (sFlow v).chip.state (flowPage 15) = v ∧
      ((sFlow v).chip.flow 15).gapWait = some (0, 10) ∧ (v = fsRun ∨ (sFlow v).chip.flowHeld 15 = true) ∧ (sFlow v).chip.watermark 15 = 0 ∧ (sFlow v).chip.merged 15 = true) := by decide +kernel

/-- The canvas of the statements' witnesses, with bands dispatched and its light passed. -/
def canvasPast : CanvasSt := { canvas0 with published := true, litBar := 0 }
def engineTasks : SMap MapTask := [(15, { seq := 3, band := 0, col := 32 })]

theorem witness_CanvasesAndBands :
    (let s := sMap { canvas0 with bands := 1 } [band0] []
     Runs s ∧ s.chip.build = .S ∧ Calm s.chip ∧ s.chip.runs mapctl = true ∧ s.chip.bar.running = true ∧ s.chip.bar.waiting = false ∧
      s.chip.relLit.isSome = true ∧ s.chip.map.lastRel = none ∧ s.chip.scan.newMode = false ∧ s.chip.map.canvases = [{ canvas0 with bands := 1 }] ∧
      canvas0.begun = true ∧ s.chip.stepStalls = false ∧ 1 < s.chip.numBands ∧ s.chip.map.bands.length < 2) ∧
      (let s := sMap canvas0 [band0] []
       s.chip.map.canvases = [canvas0] ∧ s.chip.map.bands = [band0] ∧ band0.seq = canvas0.seq ∧ ∀ l < 8, s.chip.layerReady canvas0 band0 l = true) ∧
      (let s := sMap canvasPast [] []
       s.chip.map.canvases = [canvasPast] ∧ s.chip.litFuture canvasPast = false ∧ s.chip.scan.dues = [] ∧ s.chip.scan.jobs = [] ∧ s.chip.scan.active = false) ∧
      (let s := sMap canvas0 [{ band0 with held := 1 }] engineTasks
       s.chip.stepStalls = false ∧ smFind s.chip.map.engines 15 = some { seq := 3, band := 0, col := 32 } ∧ s.chip.map.bands = [{ band0 with held := 1 }] ∧ band0.cols = []) := by
  decide +kernel

theorem witness_BandsAndTables :
    let s := sMap canvas0 [band0] []
    (Runs s ∧ s.chip.build = .S ∧ Calm s.chip ∧ s.chip.map.canvases = [canvas0] ∧ s.chip.map.bands = [band0] ∧ band0.seq = canvas0.seq ∧ band0.cols = [] ∧
      band0.held = 0 ∧ canvas0.begun = true ∧ canvas0.done.length + 1 < s.chip.numBands) ∧
      (canvas0.late = false ∧ s.chip.canvasDone canvas0 = false) ∧ (tabKind (s.chip.get F.MAPCTL_TAB_ADDR_INDEX)).isSome = true := by decide +kernel

def sScanHost : State := sScan (fun c => scan (fun x => { x with dues := [due0, due0] }) (c.setUse F.SCAN_FRAME_FMT_SOURCE 1))
/-- A canvas of 64 lines, both bands complete. -/
def canvasReady : CanvasSt := { canvas0 with bands := 2, done := [1, 0] }
def sScanCanvas (x : CanvasSt) : State := sScan (fun c =>
  map (fun m => { m with canvases := [x] })
    (((scan (fun x => { x with dues := [due0] }) c |> en 0x060).set F.MAPCTL_CANVAS_SIZE_HEIGHT 64).setUse F.RESET_SERVICE_SRAM_CANVAS 0))
def sScanLate : State := sScanCanvas canvas0
def sScanReady : State := sScanCanvas canvasReady
def sScanLine : State := sScan (scan (fun x => { x with active := true, line := 78 }))

theorem witness_ScanOutLines :
    (Runs sScanLine ∧ sScanLine.chip.build = .S ∧ Calm sScanLine.chip ∧ sScanLine.chip.runs 0x070 = true ∧ sScanLine.chip.chaseMode = false ∧
      sScanLine.chip.scan.active = true ∧ sScanLine.chip.scan.line < sScanLine.chip.scan.height + 15 ∧ sScanLine.chip.scan.height ≤ 8192 ∧
      sScanLine.chip.heldForLine0 = false ∧ sScanLine.chip.bar.running = true ∧ sScanLine.chip.bar.waiting = false) ∧
      (Runs sScanHost ∧ Calm sScanHost.chip ∧ sScanHost.chip.runs 0x070 = true ∧ sScanHost.chip.chaseMode = false ∧ sScanHost.chip.scan.active = false ∧
        sScanHost.chip.scan.dues = due0 :: [due0] ∧ sScanHost.chip.hostFrames = true ∧ sScanHost.chip.tableHeld = false) ∧
      (Runs sScanLate ∧ Calm sScanLate.chip ∧ sScanLate.chip.runs 0x070 = true ∧ sScanLate.chip.chaseMode = false ∧ sScanLate.chip.scan.active = false ∧
        sScanLate.chip.scan.dues = due0 :: [] ∧ sScanLate.chip.hostFrames = false ∧ sScanLate.chip.sramCanvas = false ∧
        sScanLate.chip.canvasFor due0 = some canvas0 ∧ sScanLate.chip.canvasDone canvas0 = false ∧ sScanLate.chip.scan.lateFor = none ∧
        sScanLate.chip.fixedCanvas = false) ∧
      (sScanReady.chip.canvasFor due0 = some canvasReady ∧ sScanReady.chip.canvasDone canvasReady = true ∧ sScanReady.chip.fixedCanvas = false ∧
        sScanReady.chip.scan.dues = due0 :: []) := by
  decide +kernel

theorem witness_PixelCellsAndPreview :
    (Runs sPixel ∧ sPixel.chip.build = .S ∧ Calm sPixel.chip ∧ sPixel.chip.runs 0x070 = true ∧ sPixel.chip.chainPorts 0 ≠ [] ∧
      (∀ q ∈ sPixel.chip.chainPorts 0, (sPixel.chip.port q).qPixel.length < 512) ∧ sPixel.chip.nextCell 0 (sPixel.chip.seqPort 0) = some (0, job0, 0, tileEntry tileTable 0) ∧ sPixel.chip.stepStalls = false ∧
      sPixel.chip.myTurn 0 (sPixel.chip.seqPort 0) = true) ∧
      ((sPixel.chip.port 15).pixLate = 0 ∧ (sPixel.chip.port 15).qPixel = pix0 false :: [pix0 true] ∧ (pix0 false).ready = false ∧ (pix0 false).bad = false ∧
        (pix0 false).poison = []) ∧
      (sPixelBad.chip.stepStalls = false ∧ (sPixelBad.chip.port 15).qPixel = pixBad :: [] ∧ (sPixelBad.chip.port 15).pixLate = 0) ∧
      (Runs sPreview ∧ sPreview.chip.build = .S ∧ sPreview.chip.preview.busy = true ∧ sPreview.chip.preview.canvas = some readHost ∧
        sPreview.chip.previewReady readHost = true ∧ sPreview.chip.stepStalls = false) := by decide +kernel

/-! Witnesses of the chain. -/

def sToll : State := sUp 1 (fun x => { x with slot := 15, qToll := [echoCell, masterDb] })
def sReserved : State := sUp 1 (fun x => { x with slot := 16, qToll := [echoCell] })

/-- Sixty-four data blocks, and as many with a bad sync header, of lane 2. -/
def blocks64 (sync : Nat) : List LineBlock := List.replicate 64 { lane := 2, sync := sync, payload := 5 }
def sUnlocked : State := sUp 1 (fun x => { x with lane2 := LaneSt.init, lane0 := { laneGood with missedMarkers := 1 } })

theorem witness_SlotsAndMarkers :
    (∀ w ∈ [(rawOf echoCell 31).w0, (rawOf echoCell 31).w1, (rawOf echoCell 31).w2, (rawOf echoCell 31).w3], w.index < 4 ∧ w.cseq < 32) ∧
      (Runs sReserved ∧ sReserved.chip.rst.extest = false ∧ 15 < sReserved.chip.numPorts ∧ sReserved.chip.build = .S ∧
        sReserved.chip.portCarries 15 = true ∧ (sReserved.chip.port 15).slot % 16 = 0 ∧ sReserved.chip.state (portPage 15) ≠ psOff ∧
        sReserved.chip.state (portPage 15) ≠ psTrain) ∧
      (Runs sToll ∧ sToll.chip.portCarries 15 = true ∧ (sToll.chip.port 15).slot % 16 ≠ 0 ∧ sToll.chip.portMode 15 ≠ 4 ∧ sToll.chip.bar.dbDue = none ∧
        (sToll.chip.port 15).qToll = echoCell :: [masterDb]) ∧
      (markerOk marker1 = true ∧ markerOk (marker1 + 1) = false ∧ ((sUnlocked.chip.port 15).lane 0).locked = true ∧
        1 ≤ ((sUnlocked.chip.port 15).lane 0).missedMarkers) ∧
      (((sUnlocked.chip.port 15).lane 2).locked = false ∧ 64 ≤ ((sUnlocked.chip.port 15).lane 2).valids + (blocks64 syncData).length ∧
        (∀ b ∈ blocks64 syncData, b.lane = 2 ∧ b.sync = syncData)) ∧
      (((sUp 1 id).chip.port 15).lane2.locked = true ∧ 16 ≤ (blocks64 3).length ∧ ∀ b ∈ blocks64 3, b.lane = 2 ∧ (b.sync = 0 ∨ b.sync = 3)) := by
  decide +kernel

def tInsert : State := tUp (fun x => { x with slot := 1, insMgmt := [echoCell, masterDb] })
def tIdentity : State :=
  { tUp id with chip := { (tUp id).chip with chain := { (tUp id).chip.chain with identityLeft := 3 } } }
def sMon : State := { sUp 1 id with chip := { (sUp 1 id).chip with chain := { (sUp 1 id).chip.chain with monAccepted := [(2, 250)] } } }

/-- Eight blocks of a cell have come, whose keystream is zero, and the ninth. -/
def sNine (raw : RawCell) (expect : Option Nat) : State := sUp 1 (fun x =>
  { x with rxMarker := some 0, rxPos := 8, rxSeq := expect, rxPart := (List.range 8).map (fun k => (k % 2, (cellBlocks raw).getD k 0)),
           lane0 := { laneGood with scr := some 0 } })
def ninth (raw : RawCell) : LineBlock := dataBlock 0 ((cellBlocks raw).getD 8 0)
/-- The cell that the ninth block completes is the one sent, on a port that carries cells. -/
def completes (raw : RawCell) (expect : Option Nat) : Prop :=
  let s := sNine raw expect
  let r := s.chip.rxBlock s.chip.identity 15 (ninth raw)
  Runs s ∧ s.chip.build = .S ∧ s.chip.state (portPage 15) ≠ psOff ∧ r.2.build = .S ∧ r.2.portCarries 15 = true ∧
    r.1.map (fun nine => joinBlocks (nine.map (·.2))) = some raw ∧ (r.2.port 15).expects raw = expect.getD raw.w0.cseq

theorem completes_slipped : completes (rawOf echoCell 9) (some 8) := by unfold completes; decide +kernel
theorem completes_broken : completes (rawOf badCell 31) none := by unfold completes; decide +kernel
theorem completes_echo : completes (rawOf echoCell 31) none := by unfold completes; decide +kernel

theorem witness_CellsReceivedAndInserted :
    completes (rawOf echoCell 9) (some 8) ∧ completes (rawOf badCell 31) none ∧ completes (rawOf echoCell 31) none ∧
      (rawSlip (rawOf echoCell 9) 8 = true ∧ rawSlip (rawOf badCell 31) 31 = false ∧ badWords (rawOf badCell 31) = 0 ∧
        cellCrcOk (rawData (rawOf badCell 31)) = false) ∧
      (rawSlip (rawOf echoCell 31) 31 = false ∧ badWords (rawOf echoCell 31) = 0 ∧ cellCrcOk (rawData (rawOf echoCell 31)) = true ∧
        cellType (rawData (rawOf echoCell 31)) = ctEcho ∧ echoResp (rawData (rawOf echoCell 31)) = false) ∧
      (((sUp 1 id).chip.rxBlock (sUp 1 id).chip.identity 15 (dataBlock 0 0)).1 = none) ∧
      (Runs tInsert ∧ 3 < tInsert.chip.numPorts ∧ tInsert.chip.build = .T ∧ tInsert.chip.rst.extest = false ∧ tInsert.chip.portCarries 3 = true ∧
        tInsert.chip.portCarries (partner 3) = false ∧ (tInsert.chip.port 3).slot % 16 ≠ 0 ∧ 1024 ≤ (tInsert.chip.port 3).sinceInsert ∧
        (tInsert.chip.port 3).insToll = [] ∧ (tInsert.chip.port 3).insMgmt = echoCell :: [masterDb]) ∧
      (Runs sMon ∧ sMon.chip.tilePort 15 = true ∧ sMon.chip.portCarries 15 = true ∧ cellCrcOk (monitorCell 3) = true ∧ cellType (monitorCell 3) = ctMonitor ∧
        smFind sMon.chip.chain.monAccepted (cellTile (monitorCell 3)) = some 250) ∧
      (Runs tIdentity ∧ tIdentity.chip.get F.CHAINCTL_TILE_CFG_STATUS_BARS ≠ 0 ∧ 0 < tIdentity.chip.chain.identityLeft) := by
  refine ⟨completes_slipped, completes_broken, completes_echo, ?_⟩
  decide +kernel

def laneOut : LaneSt := { laneGood with retired := true }
def sReduce : State := sUp 1 (fun x => { x with lane0 := laneOut, lane1 := laneOut })
def sReduced : State :=
  { sPortState psReduced with chip := port 15 (fun x => { x with lane0 := laneGood, lane1 := laneGood, trained := true }) (sPortState psReduced).chip }
def sRing : State := sUp 2 (fun x => { x with lane0 := laneOut, lane1 := laneOut })
def tNumber : State := mk .T (fun c =>
  port 0 (fun x => { x with rxMarker := some 7 }) (up 0 (((c.set F.PORT_LINK_HOPS 63).set F.PORT_LINK_SENDER_ID 6).set F.PORT_LINK_PORT_ID 15)))

/-- The training of the other end has come to its end; lane 1 of this one is retired and to be restored. -/
def sPeerReady (x : LaneSt) : State :=
  { sPortState psTrain with chip := port 15 (fun p => { p with peerReady := true, lane1 := x }) (sPortState psTrain).chip }

theorem witness_PortStates :
    (∀ v ∈ [psOff, psTrain, psFailed], Runs (sPortState v) ∧ 15 < (sPortState v).chip.numPorts ∧ (sPortState v).chip.portEnabled 15 = true ∧
      (sPortState v).chip.state (portPage 15) = v) ∧
      ((sPortState psTrain).chip.port 15).peerReady = false ∧
      (∀ x ∈ [laneGood, { laneOut with restore := true }], let s := sPeerReady x
       Runs s ∧ s.chip.state (portPage 15) = psTrain ∧ (s.chip.port 15).peerReady = true ∧ s.chip.rxMap 15 = 0 ∧ (s.chip.port 15).recal = none ∧
        s.chip.eyeOk 15 63 1023 = true ∧ ∀ l < 3, ((s.chip.port 15).lane l).retired = false ∨ ((s.chip.port 15).lane l).restore = true) ∧
      (Runs sRing ∧ (sRing.chip.portMode 15 = 2 ∨ sRing.chip.portMode 15 = 3) ∧ (sRing.chip.port 15).usable = 1 ∧ sRing.chip.portCarries 15 = true) ∧
      (Runs sReduce ∧ sReduce.chip.build = .S ∧ sReduce.chip.portMode 15 = 1 ∧ sReduce.chip.reduceAsked 15 = true ∧ sReduce.chip.state (portPage 15) = psUp) ∧
      (Runs sReduced ∧ sReduced.chip.state (portPage 15) = psReduced ∧ sReduced.chip.reduceAsked 15 = false ∧ (sReduced.chip.port 15).usable = 2) ∧
      (Runs tNumber ∧ tNumber.chip.build = .T ∧ tNumber.chip.portCarries 0 = true ∧ (tNumber.chip.port 0).rxMarker.isSome = true ∧
        tNumber.chip.get F.PORT_LINK_HOPS = 63 ∧ tNumber.chip.get F.PORT_LINK_SENDER_ID = 6) := by decide +kernel

def sRecal : State := sUp 1 (fun x => { x with recal := some { lane := 2, phase := .live } })
def sFenced : State := sPortState psFenced
def sRecalLane (n : Nat) (x : LaneSt) : State := sUp 1 (fun s => { s with nextRecal := n, lane1 := x })

theorem witness_LaneUpkeep :
    (∀ n ∈ [1, 2], Runs (sRecalLane n laneGood) ∧ Calm (sRecalLane n laneGood).chip ∧ (sRecalLane n laneGood).chip.state (portPage 15) ≠ psOff ∧
      (sRecalLane n laneGood).chip.portCarries 15 = true ∧ ((sRecalLane n laneGood).chip.port 15).recal = none ∧
      (sRecalLane n laneGood).chip.get (F.PORT_RECAL_PERIOD_S.pg 15) ≠ 0) ∧
      ((sRecalLane 1 laneGood).chip.laneInUse 15 1 = true ∧ mapReduced ((sRecalLane 1 laneGood).chip.rxMap 15) = false ∧
        ((sRecalLane 1 laneGood).chip.port 15).lane2.usable = true ∧ ((sRecalLane 1 laneGood).chip.port 15).spareFor = none) ∧
      ((sRecalLane 2 laneGood).chip.laneInUse 15 2 = false ∧ (((sRecalLane 2 laneGood).chip.port 15).lane 2).retired = false) ∧
      ((((sRecalLane 1 { laneOut with restore := true }).chip.port 15).lane 1).retired = true ∧
        (((sRecalLane 1 { laneOut with restore := true }).chip.port 15).lane 1).restore = true ∧ (sRecalLane 1 { laneOut with restore := true }).chip.portCarries 15 = true) ∧
      ((sUp 1 id).chip.eyeOk 15 63 1023 = true ∧ (((sUp 1 id).chip.port 15).lane 2).retired = false ∧ (((sUp 1 id).chip.port 15).lane 2).trained = true) ∧
      (Runs sFenced ∧ sFenced.chip.state (portPage 15) = psFenced ∧ (sFenced.chip.port 15).recal = none ∧ sFenced.chip.get (F.PORT_RECAL_PERIOD_S.pg 15) ≠ 0) ∧
      (Runs sRecal ∧ (sRecal.chip.port 15).recal = some { lane := 2, phase := .live }) := by decide +kernel

/-- The checkers of port 15 run a pattern: the one of lane 1 is locked, those of the others have seen 64 bits. -/
def sTest (k : Nat) : State := mk .S (fun c =>
  port 15 (fun x => { x with lane0 := { LaneSt.init with chkSeen := 64 }, lane2 := { LaneSt.init with chkSeen := 64, chkRun := 63 } })
    ((((c.set (F.PORT_TEST_CHK_LANES.pg 15) 7).set (F.PORT_TEST_PATTERN.pg 15) k).set ((F.PORT_TEST_ERR1_ERR_HI.pg 15).plus 8) 65535).set (lockFld 15 1) 1))

theorem witness_TestAndInjection :
    (∀ k ∈ [1, 5], Runs (sTest k) ∧ Calm (sTest k).chip ∧ 15 < (sTest k).chip.numPorts ∧ (sTest k).chip.checks 15 1 = true ∧ (sTest k).chip.checks 15 2 = true ∧
      (sTest k).chip.on (lockFld 15 1) = true ∧ (sTest k).chip.on (lockFld 15 2) = false ∧ (((sTest k).chip.port 15).lane 1).chkFirst = false) ∧
      ((sTest 1).chip.get (F.PORT_TEST_PATTERN.pg 15) ≠ 5 ∧
        patternDepth ((sTest 1).chip.get (F.PORT_TEST_PATTERN.pg 15)) ≤ (((sTest 1).chip.port 15).lane 2).chkSeen) ∧
      (sTest 1).chip.get (calIdx 15) % 4 ≠ 3 ∧ (sTest 1).chip.rst.extest = false := by decide +kernel

/-! Witnesses of the tile. -/

def tBeatEnd : State := tSched (fun s => { s with index := 8, row := 64 }) id
def tFly : State := tSched (fun s => { s with flyBars := 5 }) (fun c => (st 0x0A0 4 c).set F.TILERX_HOLD_FLY_BARS 5)

theorem witness_TileBeatsAndFlywheel :
    (Runs tBeatEnd ∧ tBeatEnd.chip.build = .T ∧ tBeatEnd.chip.beatReady = true ∧ Calm tBeatEnd.chip ∧ tBeatEnd.chip.launchQ = [] ∧
      tBeatEnd.chip.tile.sched.known = true ∧ tBeatEnd.chip.tile.sched.heard = false ∧ tBeatEnd.chip.tile.sched.missed = false ∧ tBeatEnd.chip.tileState = tsLocked) ∧
      (Runs tFly ∧ tFly.chip.tileState = tsFlywheel ∧ tFly.chip.get F.TILERX_HOLD_FLY_BARS = 5 ∧
        tFly.chip.get F.TILERX_HOLD_FLY_BARS ≤ tFly.chip.tile.sched.flyBars) := by decide +kernel

theorem witness_ArithmeticOfLight :
    (8192 : Nat) ≤ 8192 ∧ (3 * 2 ^ 30 : Nat) / 2 ^ 30 % 4 = 3 ∧ (2 ^ 31 : Nat) / 2 ^ 30 % 4 = 2 ∧
      2 * 17 ≤ (pwmTotal (fun i => 16 * i) 65535 100 17 65536 + 255) / 256 ∧ (4 : Nat) ≤ 4 := by decide +kernel

def tRx : State := tSched id (tile (fun t => { t with rxq := [holdCell, holdCell] }))
/-- MAPCTL.LAMP selects engine 0 alone. -/
def tRxOne : State := tSched id (fun c => tile (fun t => { t with rxq := [holdCell] }) (c.setUse F.MAPCTL_LAMP_ENG1 0))
def tImage : State := tSched id (tile (fun t => { t with images := [img0 1] }))
/-- A pass that waits, with an image of its beat complete, or still being built. -/
def tWait (phase : Nat) : State :=
  tSched (fun s => { s with index := 1, waiting := true }) (tile (fun t => { t with images := [img0 phase], newest := [(0, 4)] }))

theorem witness_ImagesAndPasses :
    (Runs tRx ∧ tRx.chip.build = .T ∧ tRx.chip.tile.rxq = holdCell :: [holdCell] ∧ cellHold holdCell.cell = true ∧ cellLast holdCell.cell = false) ∧
      (Runs tImage ∧ tImage.chip.tile.images = [img0 1] ∧ (img0 1).phase = 1 ∧ tImage.chip.tile.rxq = []) ∧
      (tImage.chip.passReady = true ∧ tImage.chip.tile.sched.index = 0) ∧
      (∀ phase ∈ [1, 2], Runs (tWait phase) ∧ (tWait phase).chip.tile.sched.waiting = true ∧
        (tWait phase).chip.litImage (tWait phase).chip.tile.sched.feed (tWait phase).chip.tile.sched.bar (tWait phase).chip.tile.sched.beat =
          some (img0 phase)) ∧
      (tRx.chip.lampEngine 0 = true ∧ tRx.chip.lampEngine 1 = true ∧ (tRxOne.chip.tile.rxq = holdCell :: []) ∧ tRxOne.chip.lampEngine 1 = false) := by decide +kernel

def holdNext0 : HoldSt := { image := 2, buf := 3, ready := false }
def tHold : State := tSched id (fun c => belfry (tile (fun t => { t with holdNext := some holdNext0 }) c))
def tOld : State := tSched id (fun c => belfry (c.set F.DOSE_STATUS_OLD_BUSY 1))
/-- The bar's doses are due, into a clean bank that the tile owns. -/
def tDoseOn : State := tSched id (fun c => drive (fun d => { d with doseEnded := some (3, [(5, 1000)]) })
  { c.set F.DOSE_CTRL_DOSE_EN 1 with mem := { c.mem with banks := smSet c.mem.banks 5 { BankSt.init with owner := mTile } } })
def tDose : State := tSched id (fun c => drive (fun d => { d with doseEnded := some (3, [(5, 1000)]) }) (c.set F.DOSE_CTRL_DOSE_EN 0))

theorem witness_TileTables :
    (Runs tHold ∧ tHold.chip.build = .T ∧ tHold.chip.runs pgTilerx = true ∧ tHold.chip.belfryUp = true ∧ tHold.chip.tile.holdNext = some holdNext0 ∧
      tHold.chip.on F.DOSE_STATUS_OLD_BUSY = false ∧ Calm tHold.chip ∧ tHold.chip.get F.EOTF_TAB_ADDR_INDEX < 3072 ∧
      tHold.chip.get F.CORRECT_TC_ADDR_INDEX < 48) ∧
      (Runs tOld ∧ tOld.chip.belfryUp = true ∧ tOld.chip.on F.DOSE_STATUS_OLD_BUSY = true) ∧
      (Runs tDose ∧ tDose.chip.drive.doseEnded = some (3, [(5, 1000)]) ∧ tDose.chip.on F.DOSE_CTRL_DOSE_EN = false) ∧
      (Runs tDoseOn ∧ tDoseOn.chip.drive.doseEnded = some (3, [(5, 1000)]) ∧ tDoseOn.chip.on F.DOSE_CTRL_DOSE_EN = true ∧
        tDoseOn.chip.ownsBank 5 mTile = true ∧ tDoseOn.chip.ownerToBe 5 mTile = false ∧ tDoseOn.chip.flipArmed (bankPage 5) = false ∧
        (tDoseOn.chip.bank 5).wild = none ∧ (tDoseOn.chip.bank 5).merge = [] ∧ tDoseOn.chip.mem.sramSyn = [] ∧ 5 < 3 * tDoseOn.chip.lamps) := by decide +kernel

theorem witness_RowSlotsWithinTheCeiling :
    Runs (tLit id) ∧ (tLit id).chip.build = .T ∧ (tLit id).chip.tile.sched.waiting = false ∧ (tLit id).chip.tile.sched.index ≠ 0 ∧
      (tLit id).chip.tile.sched.row < (tLit id).chip.geoRows ∧ (tLit id).chip.passLit = some 1 ∧ 3 < (tLit id).chip.geoBands ∧
      (tLit id).chip.driveState = dvRun ∧ (tLit id).chip.rst.extest = false ∧ (tLit id).chip.tile.sched.skip.getD 3 false = false ∧
      3 ∈ linkBad [(3, 0x1FE)] ∧ (tSched id id).chip.driveState ≠ dvRun := by decide +kernel

def tSlot : State := tLit (fun c =>
  drive (fun d => { d with slotDue := true, slotMoves := 62 }) (sched (fun s => { s with index := 8, row := 64 }) (c.set F.DIAG_CTRL_NEIGHBOUR_EN 1)))
def tTrim : State := tLit (fun c => drive (fun d => { d with trimCh := [(3, 575)] }) (c.set (F.BAND_TRIM_CTRL_AUTO.pg 3) 1))

theorem witness_DriveUpkeep :
    (Runs tSlot ∧ tSlot.chip.build = .T ∧ tSlot.chip.drive.slotDue = true ∧ tSlot.chip.driveState = dvRun ∧ tSlot.chip.inSlack = true ∧
      tSlot.chip.on F.DIAG_CTRL_NEIGHBOUR_EN = true) ∧
      (Runs tTrim ∧ tTrim.chip.on (F.BAND_TRIM_CTRL_AUTO.pg 3) = true ∧ tTrim.chip.driveState = dvRun) ∧
      (Calm tTrim.chip ∧ tTrim.chip.get splIdx < 192 ∧ tTrim.chip.get (F.BAND_TRIM_ADDR_CH.pg 3) < 576 ∧
        tTrim.chip.on (F.BAND_TRIM_ADDR_IN_USE.pg 3) = false ∧ tTrim.chip.pathsOpen = true ∧ pgDiag ∉ tTrim.chip.unpredictable ∧
        smFind tTrim.chip.host.latches (latchKey .usb4 F.DIAG_TAB_DATA_STATE.addr) = none) := by decide +kernel

/-! Witnesses of redundant operation. -/

def tollLate : TollPath := { last := some 9, misses := 2, failed := true, peerState := 5 }
def sFailedPeer : State := sPair rsStandby (redun (fun r => { r with sideband := tollLate, ring := tollLate }))
def sMayClaim : State := sPair rsStart (fun c =>
  redun (fun r => { r with sideband := { last := some 9, misses := 0, failed := false, peerState := 6 } }) (c.set F.REDUN_CFG_AUTO_CLAIM 1))
def sClaimed : State := sPair rsClaiming (fun c => mirror (fun m => { m with setLen := 9 }) (redun (fun r => { r with own := true, window := true, fromSync := true }) c))
def sContend : State := sPair rsStandby (fun c => redun (fun r => { r with peer := true, own := true }) (c.set F.DEVICE_STRAPS_PAIR_SLOT 1))
def sActive : State := sPair rsActive (fun c => { redun (fun r => { r with own := true, claimed := true }) c with actBit := true })

theorem witness_ClapperAndUnitStates :
    (Runs sActive ∧ sActive.chip.build = .S ∧ sActive.chip.redun.peer ≠ true ∧ sActive.chip.actBit = true ∧ sActive.chip.redun.own = true) ∧
      (Runs sMayClaim ∧ sMayClaim.chip.mayClaim = true ∧ sMayClaim.chip.rst.extest = false) ∧
      (Runs sClaimed ∧ sClaimed.chip.redun.window = true ∧ sClaimed.chip.redun.own = true ∧ sClaimed.chip.redun.peer = false ∧
        sClaimed.chip.redun.fromSync = true ∧ sClaimed.chip.mirror.synced = false ∧ sClaimed.chip.setPartial = true) ∧
      (Runs sContend ∧ sContend.chip.redun.own = true ∧ sContend.chip.redun.peer = true ∧ sContend.chip.pairSlot = 1 ∧ sContend.chip.en pgRedun = true) ∧
      (Runs (mk .S (st 0x0C0 rsSolo)) ∧ (mk .S (st 0x0C0 rsSolo)).chip.unitState = rsSolo ∧ (mk .S (st 0x0C0 rsSolo)).chip.redun.peer = false ∧
        (mk .S (st 0x0C0 rsSolo)).chip.redun.own = false ∧ (mk .S (st 0x0C0 rsSolo)).chip.aon.knell = none) ∧
      (Runs (sPair rsReleased id) ∧ Calm (sPair rsReleased id).chip ∧ (sPair rsReleased id).chip.unitState = rsReleased) := by decide +kernel

def heartbeatPayload : List Byte := leBytes 4 7 ++ leBytes 4 1 ++ leBytes 1 3 ++ leBytes 1 1
def sBeats : State := sPair rsStandby (fun c => redun (fun r => { r with beats := true }) (bar (fun b => { b with running := true, everCopied := true, copying := true }) c))

theorem witness_TollsAndSideband :
    sbParse [1, 2, 3, 4] = none ∧ sbParse heartbeat = some (1, heartbeatPayload) ∧ sbParse askFull = some (5, []) ∧
      (Runs sActive ∧ sActive.chip.build = .S ∧ sActive.chip.actBit = true) ∧
      (Runs sBeats ∧ sBeats.chip.pairFollower = true ∧ sBeats.chip.bar.running = true ∧ sBeats.chip.bar.everCopied = true ∧
        sBeats.chip.bar.copying = true ∧ Calm sBeats.chip) ∧
      (Runs sFailedPeer ∧ sFailedPeer.chip.en pgRedun = true ∧ sFailedPeer.chip.rst.extest = false ∧ 1 % 2 ≠ sFailedPeer.chip.pairSlot ∧
        sFailedPeer.chip.redun.sideband.takes 10 0 = true ∧ (2 ^ 32 - 1 : Nat) < 2 ^ 32) := by decide +kernel

def sSending : State := sPair rsActive (fun c => { mirror (fun m => { m with sending := some 8 }) c with actBit := true })
def sReady : State := sPair rsSyncing (mirror (fun m => { m with synced := true, ready := [set0 4, set0 5] }))
/-- One set waits, in a staging area that reads clean; the Belfry's rows are closed after each access. -/
def sReadyOne (f : Chip → Chip) : State := sPair rsSyncing (fun c =>
  let c := (f (dramChip dsRun id c)).set F.DRAMCTL_HINT_HINT 4096
  mirror (fun m => { m with synced := true, ready := [regSet] }) { c with mem := { c.mem with dram := memWrite 0 [] (c.stageAt 0) regRecord } })
def sApplying : State := sPair rsSyncing (mirror (fun m => { m with synced := true, applyFull := true, applying := some 5 }))
def sTaking : State := sPair rsStandby (mirror (fun m => { m with rxNum := some 5, setLen := 9 }))

/-- The payload of a second frame of an epoch. -/
def lostFirst : List Byte := leBytes 4 6 ++ leBytes 4 1024 ++ leBytes 56 7

theorem witness_MirrorEpochs :
    (Runs sActive ∧ sActive.chip.build = .S ∧ sActive.chip.runs pgMirror = true ∧ sActive.chip.en pgRedun = true ∧ sActive.chip.actBit = true ∧
      sActive.chip.mirror.sending = none) ∧
      (Runs sSending ∧ sSending.chip.mirror.sending = some 8) ∧
      (Runs sReady ∧ Calm sReady.chip ∧ sReady.chip.actBit = false ∧ sReady.chip.runs pgMirror = true ∧ sReady.chip.rst.extest = false ∧
        sReady.chip.mirror.ready = [set0 4] ++ [set0 5] ∧ sReady.chip.mirror.applying = none) ∧
      (∀ on ∈ [false, true], let s := sReadyOne (if on then en 0x060 else id)
       Runs s ∧ Calm s.chip ∧ s.chip.actBit = false ∧ s.chip.runs pgMirror = true ∧ s.chip.mirror.applying = none ∧ s.chip.mirror.ready = [] ++ [regSet] ∧
        s.chip.stageRead regSet.half 0 regSet.len = ((regRecord, false), s.chip) ∧ setItems regSet.len regRecord = [regItem] ∧
        s.chip.hasPage 0x061 = true ∧ ctrlAbsent 0x061 = false ∧ srstInert 0x061 = true ∧ s.chip.refRuns (pageRef .S 0x061) = on) ∧
      (∃ d, regAt .S (regItem.addr + 4 * 0) = .reg d ∧ d.shadowed = true) ∧ unstored regItem.addr = false ∧ regItem.addr % 4 = 0 ∧
        0x40 ≤ regItem.addr % 4096 ∧ regItem.addr / 4096 = 0x061 ∧ regItem.addr ≠ F.RESET_SERVICE_PWM8.addr ∧
      (Runs sApplying ∧ sApplying.chip.mirror.applying = some 5 ∧ sApplying.chip.unitState = rsSyncing ∧ (sApplying.chip.mirror.whole || sApplying.chip.mirror.applyFull) = true) ∧
      (Runs (sPair rsStandby id) ∧ (sPair rsStandby id).chip.runs pgMirror = true ∧ (sPair rsStandby id).chip.actBit = false ∧
        (sPair rsStandby id).chip.unitState ≠ rsSolo ∧ (sPair rsStandby id).chip.mirror.rxNum = none ∧ (sPair rsStandby id).chip.mirror.rxDrop = none ∧
        sbParse (sbFrame 4 lostFirst) = some (4, lostFirst) ∧ ofLe (slice lostFirst 4 4) ≠ 0) ∧
      (Runs sTaking ∧ sTaking.chip.setPartial = true ∧ sTaking.chip.unitState = rsStandby) := by
  refine ⟨by decide +kernel, by decide +kernel, by decide +kernel, by decide +kernel, ⟨_, rfl, by decide +kernel⟩, by decide +kernel, by decide +kernel,
    by decide +kernel, by decide +kernel, by decide +kernel, by decide +kernel, by decide +kernel, by decide +kernel⟩

/-! Witnesses of the memories. -/

def sOwner : State := sSram (fun c => (List.range 8).foldl (fun c b => bank b { BankSt.init with owner := 1 } c) c)

theorem witness_MemoryCode : (127 : Nat) < 128 ∧ (8 : Nat) < 9 ∧ (126 : Nat) < 127 := by decide

/-- Bank 7 belongs to the host, with one byte of its last word merged, or with that word poisoned. -/
def mergeTop : MergeEntry := { word := 65535, data := 0x55, mask := 1 }
def sMergeHost : State := sSram (bank 7 { BankSt.init with owner := 1, merge := [mergeTop] })
def sPoison : State := sSram (fun c => bank 7 { BankSt.init with owner := 1 } { c with mem := { c.mem with sramSyn := [(524287, 0x1FF)] } })
/-- Bank 7 changes to a new owner. -/
def sHandTo (owner : Nat) (l : List SramReq) : State :=
  sSram (fun c => bank 7 { BankSt.init with stalled := l } ((c.set (F.BANK_OWNER_HANDOVER.pg 7) 1).set (F.BANK_OWNER_OWNER.pg 7) owner))
/-- One byte of a word. -/
def oneByte : List (Option Byte) := some 0x55 :: List.replicate 15 none

theorem witness_SramWindow :
    (Runs sOwner ∧ sOwner.chip.on F.ECC_STATUS_SRAM_FILLED = true ∧ sOwner.chip.pathsOpen = true ∧ (524287 : Nat) < 524288 ∧ bytes16.length = 16 ∧ sOwner.chip.on (F.BANK_OWNER_HANDOVER.pg (524287 / 65536)) = false ∧
      (sOwner.chip.bank (524287 / 65536)).owner = 1 ∧ (sOwner.chip.bank (524287 / 65536)).wild = none ∧ sOwner.chip.flipArmed (bankPage (bankOf (sOwner.chip.sramWord 524287))) = false) ∧
      (Runs (sSram id) ∧ ((sSram id).chip.bank 7).owner ≠ 1 ∧ ((sSram id).chip.bank 7).wild = none ∧ (sSram id).chip.on (F.BANK_OWNER_HANDOVER.pg 7) = false ∧ ((sSram id).chip.bank 7).merge = [] ∧
        (sSram id).chip.sramSyn ((sSram id).chip.sramWord 524287) = 0) ∧
      (oneByte.length = 16 ∧ (∃ x ∈ oneByte, x.isSome = true) ∧ (∃ x ∈ oneByte, x.isSome = false) ∧ (sOwner.chip.bank 7).merge = []) ∧
      (let s := sHandTo 1 []
       Runs s ∧ s.chip.on F.ECC_STATUS_SRAM_FILLED = true ∧ s.chip.pathsOpen = true ∧ (s.chip.bank 7).wild = none ∧ s.chip.ownerToBe 7 1 = true) ∧
      (Runs sMergeHost ∧ sMergeHost.chip.pathsOpen = true ∧ (sMergeHost.chip.bank 7).wild = none ∧ (sMergeHost.chip.bank 7).merge = [mergeTop] ∧
        mergeTop.word = 524287 % 65536 ∧ sMergeHost.chip.sramSyn (sMergeHost.chip.sramWord 524287) = 0 ∧
        sMergeHost.chip.flipArmed (bankPage (bankOf (sMergeHost.chip.sramWord 524287))) = false) ∧
      (Runs sPoison ∧ sPoison.chip.pathsOpen = true ∧ (sPoison.chip.bank 7).wild = none ∧ (sPoison.chip.bank 7).merge = [] ∧
        sPoison.chip.sramSyn (sPoison.chip.sramWord 524287) = 0x1FF) := by decide +kernel

/-- A word of bank 7 that the host asked to write before the switch. -/
def heldWrite : SramReq := { master := 1, path := some .usb4, offset := 16 * 524287, bytes := bytes16.map some, atomic := none }
def sMerge : State := sSram (bank 7 { BankSt.init with owner := 5, merge := [mergeTop] })
def sHandover : State := sSram (fun c => (c.set (F.BANK_OWNER_HANDOVER.pg 7) 1).set (F.BANK_OWNER_OWNER.pg 7) 7)

theorem witness_BankOwnership :
    (Runs (sSram id) ∧ Calm (sSram id).chip ∧ (7 : Nat) < 8) ∧
      (Calm sMerge.chip ∧ ∀ x ∈ (sMerge.chip.bank 7).merge, x.word < 65536) ∧
      ((sOwner.chip.bank 7).owner ≠ 0 ∧ (sOwner.chip.bank 7).wild = none ∧ (sOwner.chip.bank 7).merge = [] ∧ (2 : Nat) ≠ (sOwner.chip.bank 7).owner ∧
        sOwner.chip.on (F.BANK_OWNER_HANDOVER.pg 7) = false ∧ sOwner.chip.sramSyn (sOwner.chip.sramWord (8388600 / 16)) = 0 ∧
        sOwner.chip.flipArmed (bankPage (bankOf (sOwner.chip.sramWord (8388600 / 16)))) = false) ∧
      (Runs sHandover ∧ sHandover.chip.on (F.BANK_OWNER_HANDOVER.pg 7) = true ∧ sHandover.chip.host.held = [] ∧ sHandover.chip.host.srpJob = none ∧
        sHandover.chip.host.srpQ = [] ∧ (sHandover.chip.bank 7).stalled = []) ∧
      (∀ owner ∈ [1, 5], let s := sHandTo owner [heldWrite]
       Runs s ∧ s.chip.on (F.BANK_OWNER_HANDOVER.pg 7) = true ∧ s.chip.host.held = [] ∧ (s.chip.bank 7).stalled = [heldWrite] ∧ (s.chip.bank 7).wild = none ∧
        s.chip.flipArmed (bankPage 7) = false ∧ heldWrite.offset = 16 * 524287 ∧ (524287 : Nat) / 65536 = 7 ∧
        (heldWrite.master = s.chip.ownerCode (s.chip.get (F.BANK_OWNER_OWNER.pg 7)) ↔ owner = 1)) ∧
      (Runs (sHandTo 5 []) ∧ (sHandTo 5 []).chip.on F.ECC_STATUS_SRAM_FILLED = true ∧ (sHandTo 5 []).chip.ownerToBe 7 5 = true) ∧
      (Runs sOwner ∧ sOwner.chip.on F.ECC_STATUS_SRAM_FILLED = true ∧ (sOwner.chip.bank 7).owner = 1) ∧
      ((8388600 : Nat) % 8 = 0 ∧ (8388600 : Nat) / 1048576 = 7 ∧ ((sSram id).chip.bank 7).merge = [] ∧
        (sSram id).chip.sramSyn ((sSram id).chip.sramWord (8388600 / 16)) = 0 ∧
        (sSram id).chip.flipArmed (bankPage (bankOf ((sSram id).chip.sramWord (8388600 / 16)))) = false) ∧
      (Runs sMerge ∧ (sMerge.chip.bank 7).wild = none ∧ (sMerge.chip.bank 7).merge = mergeTop :: [] ∧ mergeTop.word < 65536 ∧ ([] : List MergeEntry).length < 8 ∧
        sMerge.chip.sramSyn (sMerge.chip.sramWord (7 * 65536 + mergeTop.word)) = 0 ∧
        sMerge.chip.flipArmed (bankPage (bankOf (sMerge.chip.sramWord (7 * 65536 + mergeTop.word)))) = false) := by decide +kernel

/-- The word at the start of bank 0 has bit 5 in error. -/
def sScrub : State := sSram (fun c =>
  { c.set F.ECC_SCRUB_EN 1 with mem := { c.mem with sramSyn := [(0, (eccCheck 0 ^^^ eccCheck 32).toNat)], scrubPos := [(7, 65535)] } })
/-- The first word of the Belfry SRAM, and the first word of DRAM port 3, have bit 5 in error. -/
def sScrubs : State := sSram (fun c =>
  let c := (dramChip dsRun id c).set F.ECC_SCRUB_EN 1
  { c with mem := { c.mem with belfrySyn := [(0, (eccCheck 0 ^^^ eccCheck 32).toNat)], dramSyn := [(c.scrubAddr 3 0 / 16, (eccCheck 0 ^^^ eccCheck 32).toNat)] } })
/-- An entry of bank 7 in a state of its VALID and COPYING, and another entry of the bank for the same word, or none. -/
def sEntry (v other : Word) : State := sSram (fun c => (c.wr (bremapAddr 7 7) v).wr (bremapAddr 7 0) other)
/-- A row of DRAM port 3 is being copied to its spare row 15. -/
def sRowCopy : State := mk .S (fun c =>
  let c := dramChip dsRun id c
  { c with regs := smSet c.regs (dremapAddr 3 15) 0x98000001, mem := { c.mem with remapCopy := [(dremapAddr 3 15, true)] } })
def sSplitDram : State := mk .S (fun c => ((dramChip dsRun id c).set F.DEBUG_CTRL_UNLOCK 1).wr F.ECC_SPLIT_ADDR_WORD.addr 4)
def sRemap : State := sSram (fun c => c.wr (bremapAddr 7 7) 0xC000FFFF)
def sSplit : State := sSram (fun c => (c.set F.DEBUG_CTRL_UNLOCK 1).wr F.ECC_SPLIT_ADDR_WORD.addr 0xFFFFF)
def sFilling : State := mk .S (st 0x0E3 dsFill)

theorem rowCopy_ports (q : Nat) : (sRowCopy.chip.dramPort q).wild = none :=
  match q with
  | 0 => rfl
  | 1 => rfl
  | 2 => rfl
  | 3 => rfl
  | _ + 4 => rfl

/-- Every word of the row that is copied is a clean word of DRAM. -/
theorem rowCopy_sources (i : Nat) (hi : i < 128) :
    let w := sRowCopy.chip.dremap 3 15
    let src := sRowCopy.chip.dramAddr { port := 3, chan := bitsOf w 28 27, rank := bitsOf w 29 29, ofs := dremapOffset w + 16 * i } / 16
    src < 2 ^ 36 ∧ sRowCopy.chip.dramSynOf src = 0 := by
  have hw : sRowCopy.chip.dremap 3 15 = 0x98000001 := by decide +kernel
  have hr : sRowCopy.chip.dramPorts = [0, 1, 2, 3] := by decide +kernel
  have hc : sRowCopy.chip.dramNc = 4 := by decide +kernel
  have hd : sRowCopy.chip.rankData 3 = 939524096 := by decide +kernel
  have hi' : [0, 1, 2, 3].findIdx (fun p => decide (p = 3)) = 3 := by decide
  have hm : Config.dramRow (bitsOf (0x98000001 : Word) 26 23) (bitsOf (0x98000001 : Word) 17 0) % 4194304 < 4194304 := Nat.mod_lt _ (by decide)
  have hlt : sRowCopy.chip.dramAddr { port := 3, chan := bitsOf (0x98000001 : Word) 28 27, rank := bitsOf (0x98000001 : Word) 29 29, ofs := dremapOffset 0x98000001 + 16 * i } / 16 < 2 ^ 36 := by
    have h28 : bitsOf (0x98000001 : Word) 28 27 = 3 := by decide +kernel
    have h29 : bitsOf (0x98000001 : Word) 29 29 = 0 := by decide +kernel
    simp only [Chip.dramAddr, hr, hc, hd, h28, h29, dremapOffset, hi', List.length_cons, List.length_nil]
    omega
  rw [hw]
  refine ⟨hlt, ?_⟩
  have hn : ∀ k, k < 2 ^ 36 → sRowCopy.chip.dramSynOf k = 0 := by
    intro k _
    have hp : ∀ q, (sRowCopy.chip.dramPort q).wild = none := rowCopy_ports
    simp only [Chip.dramSynOf, hp]
    rfl
  exact hn _ hlt

theorem witness_ScrubRemapAndFill :
    (Runs sScrub ∧ sScrub.chip.on F.ECC_SCRUB_EN = true ∧ 0 ∉ sScrub.chip.mem.scrubDone ∧ smGet 0 sScrub.chip.mem.scrubPos 0 < 65536 ∧
      (sScrub.chip.bank 0).wild = none ∧ (sScrub.chip.bank 0).merge = [] ∧ sScrub.chip.flipArmed (bankPage (bankOf (sScrub.chip.sramWord 0))) = false ∧
      eccBySyndrome (sScrub.chip.sramData 0) (sScrub.chip.sramSyn 0) = .corrected (sScrub.chip.sramData 0 ^^^ 32) 5 ∧
      smGet 0 sScrub.chip.mem.scrubPos 7 < 65536) ∧
      (Calm sScrub.chip ∧ (0x80000003 : Word).getLsbD 31 = true ∧ ∀ x, x < 8 → (sScrub.chip.rd (bremapAddr 7 x)).getLsbD 31 = false) ∧
      (Runs sRemap ∧ (sRemap.chip.rd (bremapAddr 7 7)).getLsbD 31 = true ∧ (sRemap.chip.rd (bremapAddr 7 7)).getLsbD 30 = true ∧
        (sRemap.chip.bank 7).wild = none ∧ (sRemap.chip.bank 7).merge = [] ∧ Calm sRemap.chip ∧
        bitsOf (sRemap.chip.rd (bremapAddr 7 7)) 15 0 = bitsOf (0x8000FFFF : Word) 15 0 ∧ sRemap.chip.sramSyn (7 * 65536 + bitsOf (sRemap.chip.rd (bremapAddr 7 7)) 15 0) = 0 ∧
        sRemap.chip.flipArmed (bankPage 7) = false) ∧
      (∀ x, x < 16 → (sScrub.chip.dremap sScrub.chip.dremapPort.1 x).getLsbD 31 = false) ∧
      (Runs sScrubs ∧ sScrubs.chip.on F.ECC_SCRUB_EN = true ∧ 8 ∉ sScrubs.chip.mem.scrubDone ∧ smGet 0 sScrubs.chip.mem.scrubPos 8 < 32768 ∧
        eccBySyndrome (memWord 0 sScrubs.chip.mem.belfry (16 * 0)) (smGet 0 sScrubs.chip.mem.belfrySyn 0) = .corrected 32 5 ∧
        (9 + 3) ∉ sScrubs.chip.mem.scrubDone ∧ sScrubs.chip.scrubStalls (9 + 3) = false ∧ 0 < sScrubs.chip.scrubWords (9 + 3) ∧
        let a := sScrubs.chip.scrubAddr 3 (smGet 0 sScrubs.chip.mem.scrubPos (9 + 3))
        let k := (sScrubs.chip.dramKeys a).1
        a < sScrubs.chip.capacity ∧ sScrubs.chip.state (dramPage (sScrubs.chip.dramLoc a).port) ≠ dsFailed ∧
        sScrubs.chip.flipArmed (dramPage (sScrubs.chip.dramLoc a).port) = false ∧ (sScrubs.chip.dramKeys a).2 = [k] ∧
        (sScrubs.chip.dramPort (sScrubs.chip.dramKeyPort k)).wild = none ∧ sScrubs.chip.dramSynOf k < 512 ∧
        eccBySyndrome (sScrubs.chip.dramData k) (sScrubs.chip.dramSynOf k) = .corrected 32 5) ∧
      (let s := sEntry 0x8000FFFF 0
       Runs s ∧ (s.chip.rd (bremapAddr 7 7)).getLsbD 30 = false ∧ (s.chip.rd (bremapAddr 7 7)).getLsbD 31 = true ∧ Calm s.chip) ∧
      (let s := sEntry 0xC000FFFF 0
       Runs s ∧ Calm s.chip ∧ (s.chip.rd (bremapAddr 7 7)).getLsbD 30 = true ∧ (s.chip.rd (bremapAddr 7 7)).getLsbD 31 = true ∧
        (∀ x, x < 8 → x ≠ 7 → (s.chip.rd (bremapAddr 7 x)).getLsbD 31 = false ∧ (s.chip.rd (bremapAddr 7 x)).getLsbD 30 = false) ∧
        (s.chip.bank 7).wild = none ∧ (s.chip.bank 7).merge = [] ∧ s.chip.sramSyn (7 * 65536 + 65535) = 0 ∧ s.chip.flipArmed (bankPage 7) = false) ∧
      (let s := sEntry 0 0x80000003
       Runs s ∧ Calm s.chip ∧ (s.chip.rd (bremapAddr 7 7)).getLsbD 30 = false ∧ (s.chip.rd (bremapAddr 7 0)).getLsbD 31 = true ∧
        bitsOf (s.chip.rd (bremapAddr 7 0)) 15 0 = bitsOf (0x80000003 : Word) 15 0) ∧
      (Runs sRowCopy ∧ smGet false sRowCopy.chip.mem.remapCopy (dremapAddr 3 15) = true ∧ sRowCopy.chip.flipArmed (dramPage 3) = false) ∧
      (Runs sSplitDram ∧ Calm sSplitDram.chip ∧ sSplitDram.chip.on F.DEBUG_CTRL_UNLOCK = true ∧ bitsOf (0x10000000 : Word) 29 28 = 1 ∧
        bitsOf (0x20000000 : Word) 29 28 = 2 ∧ (0x48000000 : Word).getLsbD 30 = true ∧ (0x48000000 : Word).getLsbD 27 = true ∧
        let a := (sSplitDram.chip.rd F.ECC_SPLIT_ADDR_WORD.addr).toNat
        let k := (sSplitDram.chip.dramKeys (16 * a)).1
        16 * a < sSplitDram.chip.capacity ∧ (sSplitDram.chip.dramKeys (16 * a)).2 = [k] ∧
          (sSplitDram.chip.dramPort (sSplitDram.chip.dramKeyPort k)).wild = none) ∧
      (Runs sSplit ∧ Calm sSplit.chip ∧ sSplit.chip.on F.DEBUG_CTRL_UNLOCK = true ∧ (sSplit.chip.bank (524287 / 65536)).wild = none ∧ sScrub.chip.on F.DEBUG_CTRL_UNLOCK = false ∧ bitsOf (0 : Word) 30 30 = 0 ∧ bitsOf (0 : Word) 29 28 = 0 ∧
        (sSplit.chip.rd F.ECC_SPLIT_ADDR_WORD.addr).toNat = 0x80000 + 524287) ∧
      (Runs sFilling ∧ sFilling.chip.on F.ECC_STATUS_SRAM_FILLED = false ∧ (∀ b, b < 8 → sFilling.chip.flipArmed (bankPage b) = false) ∧
        sFilling.chip.on F.ECC_STATUS_DRAM_FILLED = false ∧ sFilling.chip.state (dramPage 3) = dsFill ∧ (sFilling.chip.dramPort 3).retrainDue = false ∧
        sFilling.chip.host.held = [] ∧ sFilling.chip.host.srpJob = none ∧ sFilling.chip.host.srpQ = [] ∧
        ∀ q, q < 4 → sFilling.chip.flipArmed (dramPage q) = false) := by
  refine ⟨?_, ?_, ?_, ?_, ?_, ?_, ?_, ?_, ?_, ?_, ?_, ?_⟩ <;> decide +kernel

theorem witness_MemoriesStayCanonical : sOwner.chip.memOk = true ∧ (sDram dsRun id).chip.memOk = true := by decide +kernel

/-- A request of the mapping array stalls. -/
def sBehind : State := mk .S (fun c =>
  let c := dramChip dsRun id c
  { c with mem := { c.mem with stalled := [dramReqOf 5 true 64 (bytes16.map some)] } })

theorem witness_DramAccesses :
    (let s := sDram dsRun id
     let a := s.chip.dramTarget false 15032385520
     Runs s ∧ s.chip.pathsOpen = true ∧ (s.chip.dramPort (s.chip.dramKeyPort (s.chip.dramKeys a).1)).wild = none ∧ a % 16 = 0 ∧ a + 16 ≤ s.chip.capacity ∧ s.chip.state (dramPage (s.chip.dramLoc a).port) ≠ dsStep ∧
      s.chip.state (dramPage (s.chip.dramLoc a).port) ≠ dsFailed ∧ s.chip.flipArmed (dramPage (s.chip.dramLoc a).port) = false ∧
      (s.chip.dramKeys a).2 = [(s.chip.dramKeys a).1] ∧ s.chip.dramSynOf (s.chip.dramKeys a).1 = 0 ∧
      s.chip.capacity ≤ s.chip.dramTarget false 15032385536 ∧ ∀ q, q < 4 → s.chip.state (dramPage q) ≠ dsStep) ∧
      (let s := sDram dsStep id
       let a := s.chip.dramTarget true 64
       Runs s ∧ s.chip.pathsOpen = true ∧ a % 16 = 0 ∧ s.chip.state (dramPage (s.chip.dramLoc a).port) = dsStep ∧ a + 16 ≤ s.chip.capacity) ∧
      (∃ x ∈ sBehind.chip.mem.stalled, x.master = 21 % 16) ∧ Runs sBehind ∧
      (∀ bar2 ∈ [false, true], ∀ addr ∈ [0, 64, 15032385520, 15032385536], ∀ write ∈ [false, true], let s := sDram dsRun id
       s.chip.dramStalls (dramReqOf 21 write (s.chip.dramTarget bar2 addr) (bytes16.map some)) = false) ∧
      smGet false ((sDram dsRun id).chip.dramPort 3).inOrder 0 = false := by decide +kernel

theorem witness_DramUpkeep :
    Runs (sDram dsRun id) ∧ Calm (sDram dsRun id).chip ∧ (sDram dsRun id).chip.hasPage (dramPage 3) = true ∧
      (∀ x ∈ ((sDram dsRun id).chip.dramPort 3).mr4, x.2 ≤ 4) ∧
      8 ≤ smGet 0 ((sDram dsRun (fun x => { x with debts := [(0, 7)] })).chip.dramPort 3).debts 0 + 1 := by decide +kernel

def port3Debts (c : Chip) : Chip := c.setDramPort 3 { c.dramPort 3 with debts := [(48, 8)] }
def sSlices : State := { sDram dsRetrain id with chip := (sDram dsRetrain id).chip.set (F.DRAM_TRAIN_SLICES_LEFT.pg 3) 2 }
/-- Port 3 alone is in its rate step, and a write to it stalls. -/
def sOneStep : State := mk .S (fun c =>
  let c := st (dramPage 3) dsStep (dramChip dsRun id c)
  { c with mem := { c.mem with stalled := [dramReqOf 6 true (256 * 3) (bytes16.map some)] } })
def sAbsent : State := { sDram dsAbsent id with chip := (sDram dsAbsent id).chip.set F.ECC_STATUS_DRAM_FILLED 0 }

theorem witness_DramPortStates :
    (Runs (sDram dsRun id) ∧ Calm (sDram dsRun id).chip ∧ (sDram dsRun id).chip.hasPage (dramPage 3) = true ∧
      (sDram dsRun id).chip.state (dramPage 3) = dsRun ∧ (sDram dsRun id).chip.mem.stalled = [] ∧
      (sDram dsRun id).chip.on (F.DRAM_STATUS_POPULATED.pg 3) = true ∧
      ((sDram dsRun (fun x => { x with stepDue := true })).chip.dramPort 3).stepDue = true ∧ (sDram dsRun id).chip.get (F.DRAM_STATUS_RATE.pg 3) < 3) ∧
      (Runs sSlices ∧ sSlices.chip.sliceMay 3 sSlices.chip.sliceWindow = true ∧ sSlices.chip.sliceMay 2 sSlices.chip.sliceWindow = true ∧
        (port3Debts sSlices.chip).sliceMay 3 sSlices.chip.sliceWindow = false ∧
        sSlices.chip.state (dramPage 2) = dsRetrain ∧ sSlices.chip.state (dramPage 3) = dsRetrain ∧ 1 < sSlices.chip.get (F.DRAM_TRAIN_SLICES_LEFT.pg 3) ∧
        sSlices.chip.get (F.DRAM_TRAIN_SLICES_LEFT.pg 2) ≤ 1 ∧ (sSlices.chip.dramPort 2).retrainDue = false) ∧
      (Runs (sDram dsStep id) ∧ (sDram dsStep id).chip.state (dramPage 3) = dsStep ∧ (sDram dsStep id).chip.mem.stalled = [] ∧
        ((sDram dsStep id).chip.dramPort 3).restoreDue = false ∧ ((sDram dsStep id).chip.dramPort 3).retrainDue = false) ∧
      (Runs sOneStep ∧ sOneStep.chip.state (dramPage 3) = dsStep ∧ (sOneStep.chip.dramPort 3).restoreDue = false ∧
        (sOneStep.chip.dramPort 3).retrainDue = false ∧ (∀ q, q < 4 → q ≠ 3 → sOneStep.chip.state (dramPage q) ≠ dsStep) ∧
        sOneStep.chip.mem.stalled = [dramReqOf 6 true (256 * 3) (bytes16.map some)] ∧
        let k := (sOneStep.chip.dramKeys (256 * 3)).1
        let q := (sOneStep.chip.dramLoc (256 * 3)).port
        q = 3 ∧ 256 * 3 + 16 ≤ sOneStep.chip.capacity ∧ sOneStep.chip.state (dramPage q) ≠ dsFailed ∧ sOneStep.chip.flipArmed (dramPage q) = false ∧
          (sOneStep.chip.dramKeys (256 * 3)).2 = [k] ∧ (sOneStep.chip.dramPort (sOneStep.chip.dramKeyPort k)).wild = none) ∧
      (Runs sAbsent ∧ sAbsent.chip.on F.ECC_STATUS_DRAM_FILLED = false ∧ sAbsent.chip.state (dramPage 3) = dsAbsent) := by decide +kernel

/-! Witnesses of the Belfry, the log, the flash and the resets. -/

def sDogHeld : State := sBelfry (fun c => ((c.set F.DEBUG_CTRL_HALTED 1).set F.DEBUG_CTRL_WDOG_HOLD 1).set F.DEBUG_CTRL_UNLOCK 1)
def sDown : State := sBelfry (fun c => { c with belfry := { c.belfry with down := some 3 } })

theorem witness_BelfryRestarts :
    (Runs (sBelfry id) ∧ Calm (sBelfry id).chip ∧ ((sBelfry id).chip.belfry.running && (sBelfry id).chip.belfry.down.isNone) = true ∧
      (sBelfry id).chip.dogHeld = false ∧ (sBelfry id).chip.belfryUp = true ∧ (sBelfry id).chip.changeQ.length < 64 ∧
      0 < (sBelfry id).chip.get F.BELFRY_WDOG_OPEN) ∧
      (Runs sDown ∧ sDown.chip.belfry.down = some 3 ∧ sDown.chip.belfry.running = true ∧ sDown.chip.host.srpQ = [] ∧ sDown.chip.host.srpJob = none ∧
        sDown.chip.host.relayQ = [] ∧ sDown.chip.host.held = []) ∧
      (Runs sDogHeld ∧ sDogHeld.chip.dogHeld = true) := by decide +kernel

def sVolt : State := mk .S (fun c => { c.set (F.THERMAL_VTHR_LOW.plus 60) 3000 with therm := { c.therm with lowRun := [(15, 2)] } })

theorem witness_SensorsThrottleAndRails :
    (Runs State.reset ∧ State.reset.chip.build = .S ∧ 0 ∈ State.reset.chip.sensors ∧ (-881 : Int) < -880 ∧ (2400 : Int) < 2401 ∧
      State.reset.chip.sensorState 0 ≠ ssMasked ∧ Calm State.reset.chip ∧ (1 : Word).getLsbD 0 = true) ∧
      (4 < (mk .S (fun c => c.set F.THERMAL_FAIL_COUNT 5)).chip.get F.THERMAL_FAIL_COUNT) ∧
      (Runs sVolt ∧ smGet 0 sVolt.chip.therm.lowRun 15 = 2 ∧ 2999 < sVolt.chip.get (F.THERMAL_VTHR_LOW.plus 60) ∧
        sVolt.chip.on (F.THERMAL_VMON_LOW.plus 60) = false) := by decide +kernel

/-- A knell record in the last position of the slot. -/
def sPrior : State := sBelfry (flash (fun f => memWrite 0xFF f (knellBase + 32 * 127) (leBytes 28 77 ++ leBytes 4 (crc32 (leBytes 28 77)))))

/-- The clocks are stopped with a page program in progress or none, and a sample has reached 125 °C or none has. -/
def sKnellFlash (busy hot : Bool) : State := mk .S (fun c => { c with
  aon := { c.aon with knell := some sKnell, stopped := true, flashBusy := busy, hot125 := hot },
  upd := { c.upd with writing := if busy then some (4096, 256, [(0, 5)]) else none } })

theorem witness_KnellSequence :
    (sShock.chip.aon.latched = false ∧ sShock.chip.aon.stopped = false ∧ sShock.chip.aon.knell = some sKnell ∧ 15 < sShock.chip.numPorts) ∧
      (sStopped.chip.aon.latched = false ∧ sStopped.chip.aon.stopped = true ∧ sStopped.chip.aon.knell = some sKnell ∧
        sStopped.chip.knellFree = 0 :: (List.range 128).tail) ∧
      (∀ x ∈ [(false, false), (false, true), (true, false), (true, true)], let s := sKnellFlash x.1 x.2
       s.chip.aon.latched = false ∧ s.chip.aon.stopped = true ∧ s.chip.aon.knell = some sKnell ∧ s.chip.knellFree = 0 :: (List.range 128).tail ∧
        (s.chip.upd.writing = none ∨ s.chip.upd.writing = some (4096, 256, [(0, 5)])) ∧ (4096 + 256 : Nat) ≤ 16711680 ∧
        s.chip.settingsPayload.length ≤ areaSize arSettings - 64 ∧ s.chip.belfry.migrate = none) ∧
      (Runs sPrior ∧ sPrior.chip.belfryUp = true ∧ logValid (sPrior.chip.flashRead (knellBase + 32 * 127) 32) = true) := by
  refine ⟨by decide +kernel, by decide +kernel, ?_, by decide +kernel⟩
  simp only [List.forall_mem_cons]
  refine ⟨?_, ?_, ?_, ?_, fun x h => absurd h List.not_mem_nil⟩ <;> decide +kernel

/-- The ring holds the record of SEQ 6 at its first place, and a host asks for it. -/
def sLogged : State := sBelfry (fun c =>
  let r := leBytes 4 3 ++ leBytes 4 6 ++ leBytes 20 9
  flash (fun f => memWrite 0xFF f logBase (r ++ leBytes 4 (crc32 r)))
    ({ c with belfry := { c.belfry with logSeq := 7, logPos := 1 } }.set F.LOG_READ_SEQ_SEQ 6))

theorem witness_LogAndUnlock :
    Runs (sBelfry id) ∧ Calm (sBelfry id).chip ∧ (sBelfry id).chip.belfryUp = true ∧ (sBelfry id).chip.evq.length ≤ 64 ∧
      (sBelfry id).chip.evqExtra = none ∧ (sBelfry id).chip.changeQ.length ≤ 64 ∧ (sBelfry id).chip.belfry.logBuf.length ≤ 800 ∧
      (sBelfry id).chip.belfry.logSeq < 2 ^ 32 ∧ (sBelfry id).chip.belfry.logPos < logSlots ∧
      (Runs sLogged ∧ sLogged.chip.belfryUp = true ∧ sLogged.chip.belfry.logSeq < 2 ^ 32 ∧ logValid (sLogged.chip.logAt 0) = true ∧
        sLogged.chip.get F.LOG_READ_SEQ_SEQ = 6 ∧ ofLe (slice (sLogged.chip.logAt 0) 4 4) = 6) := by decide +kernel

def sOpenBusy : State := sUpdate usOpen (fun c =>
  { c with upd := { c.upd with writing := some (4096, 256, [(0, 5)]) } } |> fun c => ((c.set F.UPDATE_STATUS_BLOCK_BUSY 1).set F.UPDATE_BLOCK_OFFSET_OFFSET 4096).set F.UPDATE_BLOCK_LEN_LEN 4096)
def sBulk : State := sUpdate usIdle (fun c => (c.set F.UPDATE_BULK_LEN 100).set F.UPDATE_STATUS_BULK_BUSY 1)
def sTrial : State := sUpdate usIdle (fun c => c.set F.UPDATE_STATUS_TRIAL 1)
def sNoSlot : State := mk .S (fun c => c.set F.DEVICE_STRAPS_BOOT_SEL 3)

theorem witness_UpdateSession :
    (Runs sNoSlot ∧ sNoSlot.chip.belfry.running = false ∧ sNoSlot.chip.bootOrder = [] ∧
      (mk .S (fun c => c.set F.DEVICE_STRAPS_BOOT_SEL 1)).chip.bootOrder = 0 :: [] ∧ sNoSlot.chip.aon.dogEarly = false ∧ sNoSlot.chip.host.held = [] ∧
      sNoSlot.chip.host.srpJob = none ∧ sNoSlot.chip.host.srpQ = [] ∧ sBulk.chip.readStalls dmChain 0 48 = false) ∧
      (∀ v ∈ [usIdle, usErasing, usOpen, usVerifying, usVerified, usFailed], Runs (sUpdate v id) ∧ Calm (sUpdate v id).chip ∧
        (sUpdate v id).chip.state updPage = v ∧ (sUpdate v id).chip.belfryUp = true ∧ (sUpdate v id).chip.upd.index < 1024 ∧
        (sUpdate v id).chip.onTrial = false) ∧
      (sBulk.chip.build = .S ∧ sBulk.chip.on F.UPDATE_STATUS_BULK_BUSY = true ∧ sBulk.chip.upd.bulkOfs < sBulk.chip.get F.UPDATE_BULK_LEN ∧ (sUpdate 0 (fun c => c.set F.UPDATE_BULK_LEN 1)).chip.get F.UPDATE_BULK_LEN ≠ 0) ∧
      (Runs sOpenBusy ∧ sOpenBusy.chip.on F.UPDATE_STATUS_BLOCK_BUSY = true ∧ sOpenBusy.chip.belfryUp = true ∧
        sOpenBusy.chip.upd.writing = some (4096, 256, [(0, 5)]) ∧ smGet false sOpenBusy.chip.upd.programmed (4096 / 256) = false) ∧
      (Runs sTrial ∧ sTrial.chip.onTrial = true) := by decide +kernel

def sSaving : State := sBelfry (fun c => c.set F.SETTINGS_STATUS_SAVING 1)
/-- A settings copy of one record, at position 1. -/
def alertRecord : SetRec := { typ := 1, format := 0, addr := F.EVENTS_ALERT_MASK_MASK.addr, words := [5] }
def sReadable : State := sBelfry (fun c => c.writeCopyTo arSettings 0 1 0 alertRecord.encode true true)

theorem witness_SettingsCopies :
    Runs (sBelfry id) ∧ Calm (sBelfry id).chip ∧ (sBelfry id).chip.belfryUp = true ∧
      (sBelfry id).chip.settingsPayload.length ≤ areaSize arSettings - 64 ∧ (sBelfry id).chip.upd.settingsFmt < 65536 ∧
      (sBelfry id).chip.belfry.running = true ∧ (sBelfry id).chip.get F.RESET_BRINGUP_DONE / 32 % 2 = 0 ∧ (sBelfry id).chip.readableSettings = none ∧
      (Runs sSaving ∧ sSaving.chip.belfryUp = true ∧ sSaving.chip.belfry.migrate = none ∧ sSaving.chip.on F.SETTINGS_STATUS_SAVING = true ∧
        sSaving.chip.settingsPayload.length ≤ areaSize arSettings - 64 ∧ sSaving.chip.upd.settingsFmt < 65536) ∧
      (Runs sReadable ∧ Calm sReadable.chip ∧ sReadable.chip.belfry.running = true ∧ sReadable.chip.get F.RESET_BRINGUP_DONE / 32 % 2 = 0 ∧
        sReadable.chip.readableSettings = some (1, { format := 0, seq := 0, length := 12 }) ∧ (∀ pg, pg < 1024 → sReadable.chip.en pg = false) ∧
        let payload := sReadable.chip.copyPayload arSettings 0 1 { format := 0, seq := 0, length := 12 }
        setDecode payload.length payload = [alertRecord] ∧ alertRecord.addr ∈ sReadable.chip.settingsRegs ∧ alertRecord.addr ≠ F.THERMAL_MASK_MASK.addr) := by
  decide +kernel

def sHeld : State := mk .S (fun c => { c with rst := { c.rst with held := true } })
def sExtest : State := mk .S (fun c => { c with rst := { c.rst with extest := true } })
/-- Step 3 ended without PLL 2, and is tried again. -/
def sNoPll : State := mk .S (fun c => { c.set F.RESET_BRINGUP_DONE 4 with rst := { c.rst with fabricHeld := true } })
/-- The Belfry runs and step 11 has ended. -/
def tStep11 : State := mk .T (fun c => { c.set F.RESET_BRINGUP_DONE 1024 with belfry := { c.belfry with running := true } })
def tNoXtal : State := mk .T (fun c => { c with rst := { c.rst with xtalHeld := true } })

/-- Every step has ended but the XTAL PLL has not locked. -/
def tAllDone : State := mk .T (fun c =>
  { (c.set F.RESET_BRINGUP_DONE 4095).set F.RESET_SERVICE_PWM8 0 with rst := { c.rst with xtalHeld := true } })

theorem witness_KindsOfReset :
    (State.reset.chip.latched = false ∧ State.reset.chip.rst.held = false ∧ (15 : Nat) < 16) ∧ (Runs State.reset ∧ Calm State.reset.chip) ∧
      (railUsed .S false 12 = true ∧ railUsed .T false 15 = true ∧ railUsed .S false 13 = false ∧ railUsed .T false 8 = false ∧ State.reset.chip.aon.restart < 8 ∧
        State.reset.chip.flashWorks = false) ∧
      (sShock.chip.latched = false ∧ sShock.chip.rst.held = false ∧ Runs sShock ∧ Calm sShock.chip ∧ sShock.chip.aon.knell.isSome = true ∧
        sShock.chip.aon.restart < 8) ∧
      (sHeld.chip.latched = false ∧ sHeld.chip.rst.held = true) ∧ (sExtest.chip.latched = false ∧ sExtest.chip.rst.extest = true) := by decide +kernel

theorem witness_BringUp :
    (State.reset.chip.deaf = false ∧ State.reset.chip.get F.RESET_BRINGUP_DONE % 2 = 0 ∧ State.reset.chip.get F.RESET_BRINGUP_DONE / 2 ^ (10 - 1) % 2 = 0 ∧
      (State.resetOf .T).chip.get F.RESET_BRINGUP_DONE / 2 ^ (12 - 1) % 2 = 0) ∧
      (tNoXtal.chip.deaf = false ∧ tNoXtal.chip.rst.xtalHeld = true ∧ State.reset.chip.rst.xtalHeld = false ∧ (State.resetOf .T).chip.rst.xtalHeld = false) ∧
      (tAllDone.chip.deaf = false ∧ tAllDone.chip.rst.xtalHeld = true ∧ tAllDone.chip.get F.RESET_BRINGUP_DONE = 4095 ∧
        tAllDone.chip.on F.RESET_SERVICE_PWM8 = false) ∧
      (State.reset.chip.get F.RESET_BRINGUP_DONE / 4 % 2 = 0 ∧ State.reset.chip.get F.CLOCKS_PLL_LOCK / 4 % 2 = 0 ∧ (3 : Nat) / 4 % 2 = 0) ∧
      (sNoPll.chip.deaf = false ∧ sNoPll.chip.get F.RESET_BRINGUP_DONE / 4 % 2 = 1 ∧ sNoPll.chip.rst.fabricHeld = true) ∧ (Runs tStep11 ∧ tStep11.chip.build = .T ∧ tStep11.chip.belfryUp = true ∧
        tStep11.chip.get F.RESET_BRINGUP_DONE / 1024 % 2 = 1 ∧ tStep11.chip.belfry.calibDue = false) := by decide +kernel

/-! ### Ill-formed commands -/

def readAcc (addr size : Nat) : ReadAcc := { addr := addr, size := size }

def lanes3 : Training := { widths := [1, 2, 3], heights := [1, 2, 3], settings := [1, 2, 3] }

def illFormed0 : List Instr :=
  [.registerWrite { origin := .usb4, addr := 0, size := 3, data := 0 } [], .registerWrite { origin := .usb4, addr := 0, size := 4, data := 0 } [{ origin := .usb4, addr := 0, size := 3, data := 0 }], .registerWrite { origin := .usb4, addr := 2 ^ 24, size := 4, data := 0 } [],
   .registerWrite { origin := .usb4, addr := 0, size := 4, data := 0 } [{ origin := .usb4, addr := 2 ^ 24, size := 4, data := 0 }], .pageEnable .usb4 1024, .pageDisable .usb4 1024,
   .commit .usb4 1024, .srst .usb4 1024, .srstComplete 1024,
   .evtForce .usb4 1024 0, .vecEoi .usb4 32, .msixUnmask .usb4 32,
   .clrFirst .usb4 1024, .clrWorst .usb4 1024, .clrCount .usb4 1024,
   .flipArm .usb4 1024, .usb4LinkChange 4 0 false false false, .usb4LinkChange 0 4 false false false,
   .dmaStart .usb4 2, .dmaDone 2 [], .dmaHostError 2 0 [],
   .recoveryBlock 0 (List.replicate 4097 0), .srpRequest 2 peer [], .arpRequest 2 peer 0,
   .arpRequest 0 peer (2 ^ 32), .relayRead .usb4 (readAcc 0x400000 4), .relayRead .usb4 (readAcc 0 3), .relayWrite .usb4 0x400000 0,
   .relayResponse (2 ^ 512), .jtagRegisterAccess false (2 ^ 24) 0, .wideValueLowRead .usb4 (readAcc (2 ^ 24) 4),
   .wideValueLowRead .usb4 (readAcc 0 5)]

def illFormed1 : List Instr :=
  [.ptpTimestampCapture 2 0 0 0 0 0, .ptpTimestampCapture 0 2 0 0 0 0, .ptpTimestampCapture 0 0 16 0 0 0,
   .ptpTimestampCapture 0 0 0 65536 0 0, .ptpTimestampCapture 0 0 0 0 0 1026, .tsPop .usb4 2,
   .echoSend 16, .echoFail 16, .launchCancelTag .usb4 256,
   .masterDownbeatArrive (2 ^ 512) 0 0, .ethLinkChange 2 false false false 0 0, .ethLinkChange 0 false false false 16 0,
   .ethLinkChange 0 false false false 0 16, .ethFrameReceive 2 0 (ethOther true 60), .ethFrameReceive 0 4 (ethOther true 60),
   .ethFecUncorr 2 0, .gapWaitExpire 16, .flowStop 16,
   .pathLoss 16 0, .pathLoss 0 2, .holdExpire 16,
   .ctlTxGo .usb4 2 0 0, .ctlTxGo .usb4 0 4 0, .ctlTxGo .usb4 0 0 16384,
   .ctlTxDone 2, .canvasBufferFree 8 0, .mapTaskComplete 16 [],
   .scanCellRead 2 0, .scanCellRead 0 16, .scanDataReturn 16]

def illFormed2 : List Instr :=
  [.underrunWaitExpire 16, .portMarginClr .usb4 16, .cellSlot 16,
   .markerSend 16, .markerReceive 16 0 0, .markerReceive 0 3 0, .markerReceive 0 0 (2 ^ 66),
   .blockLockChange 16 0 [], .blockLockChange 0 3 [], .blockLockChange 0 1 (blocks64 1), .cellReceive 16 [] 0 0,
   .cellReceive 0 [{ lane := 3, sync := 1, payload := 0 }] 0 0, .cellReceive 0 [{ lane := 0, sync := 4, payload := 0 }] 0 0,
   .cellReceive 0 [{ lane := 0, sync := 1, payload := 2 ^ 64 }] 0 0,
   .tileCellInsert 16, .monitorReceive 16 0, .monitorReceive 0 (2 ^ 512),
   .directionLost 16, .clkLoss 16, .linkUp 16,
   .portTrainStart 16, .portTrained 16 lanes3, .portTrained 0 { lanes3 with widths := [1, 2] }, .portTrained 0 { lanes3 with heights := [] },
   .portTrained 0 { lanes3 with settings := [1] },
   .portTrainTimeout 16, .portFailedRetry 16, .laneCalInterpolate 16,
   .recalPeriod 16, .recalNow .usb4 16, .recalComplete 16 0 0 0,
   .eyeMeasure 16 [1, 2, 3] [1, 2, 3], .eyeMeasure 0 (List.replicate 2 0) [1, 2, 3], .eyeMeasure 0 [1, 2, 3] (List.replicate 2 0),
   .laneRetireCmd .usb4 16 0, .laneRetireCmd .usb4 0 3, .laneRestore .usb4 16]

def illFormed3 : List Instr :=
  [.portReduced 16, .fullRateRestore 16, .portFenced 16,
   .testErr 16 0 [], .testErr 0 3 [], .rowSlotStart [(0, 0), (1, 512)] [], .neighbourSlot [(0, 4, 0, 0)], .portTestClr .usb4 16,
   .injectOnce .usb4 16, .injectRepeat 16, .portCalData .usb4 16 none,
   .trimMeasureDone 4 0, .trimData .usb4 4 none, .heartbeatReceive false (2 ^ 32) 0 0,
   .heartbeatReceive false 0 8 0, .heartbeatReceive false 0 0 2, .sramWindowWrite 0x800000 [some 0],
   .sramWindowRead .usb4 0x7FFFFF 2, .ownerWrite .usb4 8 0, .ownerWrite .usb4 0 8,
   .handoverSwitch 8, .atomicOp false false 0 0 2 0, .atomicOp false false 0 2 4 0,
   .atomicOp false false 0 0x800000 8 0, .atomicOp false false 0 0 4 (2 ^ 32), .atomicOp false false 0 0 8 (2 ^ 64),
   .mergeRetire 8, .scrubRead 13, .bankRemapWrite .usb4 8 0 0,
   .bankRemapWrite .usb4 0 8 0, .remapDone true 4 0, .remapDone true 0 16]

def illFormed4 : List Instr :=
  [.remapDone false 8 0, .remapDone false 0 8, .refreshDue 4 0 0 0 false,
   .refreshDue 0 2 0 0 false, .refreshDue 0 0 4 0 false, .refreshDue 0 0 0 16 false,
   .mr4Poll 4 0 0 0 false, .mr4Poll 0 2 0 0 false, .mr4Poll 0 0 4 0 false,
   .mr4Poll 0 0 0 8 false, .powerDownEntry 4 0, .powerDownEntry 0 2,
   .dqsTrack 4 0 0, .dqsTrack 0 4 0, .dramRetrainCmd .usb4 4,
   .dramRetrainSlice 4 false, .eccRateWindow 4, .dramRateStep 4,
   .rateStepDone 4 none, .rateRestore .usb4 4, .dramPortFail 4,
   .dramInitTrain 4 0 0 false none, .dramInitTrain 0 3 0 false none, .dramRefClr .usb4 4,
   .sensorSample (List.replicate 13 0), .knellFlashEnd 4, .voltageSample (List.replicate 15 0),
   .journalWrite 2 0 false false, .journalWrite 1 4 false false, .settingsApply false 1 1 [0]]

def illFormed5 : List Instr :=
  [.deviceReset 0 0, .deviceReset 3 0, .deviceReset 1 16,
   .strapSample 8 0 0, .strapSample 0 2 0, .strapSample 0 0 4,
   .bringupStepEnd 0 false 0, .bringupStepEnd 13 false 0, .bringupStepEnd 1 false 16]

/-- An operand out of its range is refused: one command for each check of each constructor, at the first value past the range. -/
theorem test_illFormed : (illFormed0 ++ illFormed1 ++ illFormed2 ++ illFormed3 ++ illFormed4 ++ illFormed5).all (fun i => !i.wf) = true := by decide +kernel

def wellFormed0 : List Instr :=
  [.registerWrite { origin := .usb4, addr := 0, size := 4, data := 0 } [], .pageEnable .usb4 0, .pageDisable .usb4 0,
   .commit .usb4 0, .srst .usb4 0, .srstComplete 0,
   .evtForce .usb4 0 0, .vecEoi .usb4 0, .msixUnmask .usb4 0,
   .clrFirst .usb4 0, .clrWorst .usb4 0, .clrCount .usb4 0,
   .flipArm .usb4 0, .usb4LinkChange 0 0 false false false, .dmaStart .usb4 0,
   .dmaDone 0 [], .dmaHostError 0 0 [], .recoveryBlock 0 [],
   .srpRequest 0 peer [], .arpRequest 0 peer 0, .relayRead .usb4 (readAcc 0 4),
   .relayWrite .usb4 0 0, .relayResponse 0, .jtagRegisterAccess false 0 0,
   .wideValueLowRead .usb4 (readAcc 0 4), .ptpTimestampCapture 0 0 0 0 0 0, .tsPop .usb4 0,
   .echoSend 0, .echoFail 0, .launchCancelTag .usb4 0]

def wellFormed1 : List Instr :=
  [.masterDownbeatArrive 0 0 0, .ethLinkChange 0 false false false 0 0, .ethFrameReceive 0 0 (ethOther true 60),
   .ethFecUncorr 0 0, .gapWaitExpire 0, .flowStop 0,
   .pathLoss 0 0, .holdExpire 0, .ctlTxGo .usb4 0 0 0,
   .ctlTxDone 0, .canvasBufferFree 0 0, .mapTaskComplete 0 [],
   .scanCellRead 0 0, .scanDataReturn 0, .underrunWaitExpire 0,
   .portMarginClr .usb4 0, .cellSlot 0, .markerSend 0,
   .markerReceive 0 0 0, .blockLockChange 0 2 (blocks64 1), .cellReceive 0 (blocks64 1) 0 0,
   .tileCellInsert 0, .monitorReceive 0 0, .directionLost 0,
   .clkLoss 0, .linkUp 0, .portTrainStart 0,
   .portTrained 0 lanes3, .portTrainTimeout 0, .portFailedRetry 0]

def wellFormed2 : List Instr :=
  [.laneCalInterpolate 0, .recalPeriod 0, .recalNow .usb4 0,
   .recalComplete 0 0 0 0, .eyeMeasure 0 [1, 2, 3] [1, 2, 3], .laneRetireCmd .usb4 0 0,
   .laneRestore .usb4 0, .portReduced 0, .fullRateRestore 0,
   .portFenced 0, .testErr 0 0 [true], .rowSlotStart [(0, 511)] [], .neighbourSlot [(0, 3, 0, 0)], .portTestClr .usb4 0,
   .injectOnce .usb4 0, .injectRepeat 0, .portCalData .usb4 0 none,
   .trimMeasureDone 0 0, .trimData .usb4 0 none, .heartbeatReceive false 0 0 0,
   .sramWindowWrite 0 [], .sramWindowRead .usb4 0 0, .ownerWrite .usb4 0 0,
   .handoverSwitch 0, .atomicOp false false 0 0 8 0, .mergeRetire 0,
   .scrubRead 0, .bankRemapWrite .usb4 0 0 0, .remapDone false 0 0,
   .refreshDue 0 0 0 0 false, .mr4Poll 0 0 0 0 false, .powerDownEntry 0 0]

def wellFormed3 : List Instr :=
  [.dqsTrack 0 0 0, .dramRetrainCmd .usb4 0, .dramRetrainSlice 0 false,
   .eccRateWindow 0, .dramRateStep 0, .rateStepDone 0 none,
   .rateRestore .usb4 0, .dramPortFail 0, .dramInitTrain 0 0 0 false none,
   .dramRefClr .usb4 0, .sensorSample (List.replicate 12 0), .knellFlashEnd 0,
   .voltageSample (List.replicate 16 0), .journalWrite 1 0 false false, .settingsApply false 0 0 [],
   .deviceReset 1 0, .strapSample 0 0 0, .bringupStepEnd 1 false 0]

/-- Every constructor with a check admits a command. -/
theorem test_wellFormed : (wellFormed0 ++ wellFormed1 ++ wellFormed2 ++ wellFormed3).all (fun i => i.wf) = true := by decide +kernel

/-! ### Worked examples of the specification -/

/-- R311's example: bits 0 and 127 set give check bits 0x0DE. -/
theorem test_check_bits : eccCheck 0x80000000000000000000000000000001 = 0x0DE := by decide +kernel

/-- R321's example: data bits 0 and 1 inverted give syndrome 0x00C, uncorrectable. -/
theorem test_flip_two_bits : eccSyndrome (0x55 ^^^ 3) (eccCheck 0x55) = 0x00C ∧ eccDecode (0x55 ^^^ 3) (eccCheck 0x55) = .uncorrectable 0x00C := by
  decide +kernel

/-- R328's example: the tag of 0x1_2345_6780 is 0x15. -/
theorem test_dram_tag : dramTag 0x123456780 = 0x15 := by decide +kernel

/-- R172's example: lamp 200 of a 192 by 192 tile turned by 90 degrees lies at (6,334, 392). -/
theorem test_lamp_of_turned_tile :
    TileEntry.pixelOf { valid := true, rot := 1, mirror := false, order := 0, tile := 0, y0 := 384, x0 := 6144, hr := 192, w := 192, reserved := false } 200 = (6334, 392) := by
  decide +kernel

/-- R254's example: a pass of 104,904 steps over 48 rows has slots of 2,048 steps and windows of 1,994. -/
theorem test_pass_plan : planOf 48 104904 = (2048, 1994) := by decide +kernel

/-- R231's example: 47.5 °C between 16,384 at 20 °C and 16,960 at 55 °C gives 16,837. -/
theorem test_temperature_factor : tempFactor (fun i => [16000, 16384, 16960, 17000].getD i 0) 760 = 16837 := by decide +kernel

/-- R229's example: the red level is 31,666. -/
theorem test_lamp_level :
    (lampLevels 0 [32831, 32831, 32831] (fun _ j => [7700, 310, 45].getD j 0) (fun _ => 16837) (fun _ => 34406) true 3277).headD 0 = 31666 := by
  decide +kernel

/-- R249's example: the gain after 1,911,000 mA·s is 34,411. -/
theorem test_ageing_gain :
    ageingGain (fun i => 2000000 * i) (fun i => if i = 0 then 32768 else 31130) 1911000 = 34411 := by decide +kernel

/-- R258's example: 61,664 steps in the bars with d ≥ 243, else 61,663; pass 2 receives 964 and pass 3 receives 963. -/
theorem test_pwm_total :
    pwmTotal (fun i => 16 * i) 31666 1994 64 65536 = 15785741 ∧
      ((List.range 64).map (pwmOn (fun i => 16 * i) 31666 1994 64 65536 243)).sum = 61664 ∧
      ((List.range 64).map (pwmOn (fun i => 16 * i) 31666 1994 64 65536 242)).sum = 61663 ∧
      pwmOn (fun i => 16 * i) 31666 1994 64 65536 242 2 = 964 ∧ pwmOn (fun i => 16 * i) 31666 1994 64 65536 242 3 = 963 := by decide +kernel

/-- R261's table: DAC code and PWM scale at CROSSOVER 53,247. -/
theorem test_dimming :
    [65535, 57343, 53247, 49151].map (fun b => dimOf b 53247) = [(255, 65536), (64, 65280), (32, 65280), (32, 32640)] := by decide +kernel

/-- The example of spec/01_roles_and_dataflow.md: tile 0x0945 is on the chain of port 5 at stack position 2. -/
theorem test_tile_of_port : tilePortOf 0x0945 = 5 ∧ 0x0945 / 1024 % 8 = 2 := by decide +kernel

/-- No two events share a number, nor a bit of a page (R47). -/
theorem test_events_distinct :
    (E.all.map (·.num)).Nodup ∧ (E.all.map (fun e => (e.page, e.bit))).Nodup := by decide +kernel

/-! ### Effects of single commands -/

def after (i : Instr) (s : State) : Chip :=
  match exec i s with
  | .next t => t.chip
  | _ => s.chip

/-- A write of one register of the reset part. -/
def wr32 (a : Nat) (v : BitVec 64) : Instr := .registerWrite { origin := .usb4, addr := a, size := 4, data := v } []

/-- R30: a 16-bit write of SCRATCH has no effect but REG_ACCESS and BAD_ADDR. -/
theorem test_narrow_write :
    let c := after (.registerWrite { origin := .jtag, addr := 0x60, size := 2, data := 7 } []) State.reset
    c.rd 0x60 = State.reset.chip.rd 0x60 ∧ c.pend E.REG_ACCESS = true ∧ c.get F.DEVICE_BAD_ADDR_REASON = 3 := by decide +kernel

/-- R30: a register is written whole. -/
theorem test_scratch_write : (after (wr32 0x60 0xA5A55A5A) State.reset).rd 0x60 = 0xA5A55A5A := by decide +kernel

/-- R82: a step back of one ms raises TIME_STEP_BACK. -/
theorem test_time_adj : (after (.timeAdj .usb4 0xFFF0BDC0) sNearWrap).pend E.TIME_STEP_BACK = true := by decide +kernel

/-- R99: KIND 5 is reserved. -/
theorem test_launch_reserved : (after (.launchPush .usb4 5) (sLaunch 3)).pend E.LAUNCH_FULL = true := by decide +kernel

/-- R61: a transfer past the capacity is refused with ERR code 2. -/
theorem test_dma_range : (after (.dmaStart .usb4 1) sDma).get (dmaF F.USB4_DMA_CTRL_ERR_CODE 1) = 2 := by decide +kernel

/-- R362: a block whose knell is latched ignores a reset of its power rails. -/
theorem test_latched_reset :
    let c := after (.deviceReset 1 3) sLatched
    c.regs = sLatched.chip.regs ∧ c.aon = sLatched.chip.aon ∧ c.rst.held = false ∧ c.rst.lost = [3] := by decide +kernel

end Sys2Proof.Tests
end

