-- ==== Sys2Proof/Proofs/TimeCounter.lean ====
section
/-! PROOF. The time counter: the wrap of TIME_NS, and what writes of TIME_INC and TIME.ADJ do (R80 to R83). -/

namespace Sys2Proof.Machine

/-! ### The wrap (R80) -/

theorem Chip.inc28_bounds (c : Chip) : 0x3FEF9DB2 ≤ c.inc28 ∧ c.inc28 ≤ 0x4010624E := by unfold Chip.inc28; omega

/-- Rounding up to whole steps overshoots by less than one step. -/
theorem ceilDiv_mul (a b : Nat) (hb : 0 < b) : a ≤ ceilDiv a b * b ∧ ceilDiv a b * b < a + b := by
  unfold ceilDiv
  have h1 := Nat.div_add_mod (a + b - 1) b
  have h2 := Nat.mod_lt (a + b - 1) hb
  rw [Nat.mul_comm] at h1
  omega

theorem Chip.ticks_ext28 (c : Chip) (n : Nat) : (c.ticks n).ext28 = c.ext28 + (n * c.inc28 : Nat) := by
  unfold Chip.ext28 Chip.ticks; push_cast; ring

/-- The tick at which TIME_NS wraps is the first one past the next multiple of 2³² ns. -/
theorem Chip.wrap_ext28 (c : Chip) : ∃ r : Nat, r < c.inc28 ∧ (c.ticks c.ticksToWrap).ext28 = (c.ext28 / 2 ^ 60 + 1) * 2 ^ 60 + r := by
  have hi := c.inc28_bounds
  have hm : 0 ≤ c.ext28 % 2 ^ 60 ∧ c.ext28 % 2 ^ 60 < 2 ^ 60 := ⟨Int.emod_nonneg _ (by decide), Int.emod_lt_of_pos _ (by decide)⟩
  have hd := Int.mul_ediv_add_emod c.ext28 (2 ^ 60)
  have hc := ceilDiv_mul ((2 ^ 60 : Int) - c.ext28 % 2 ^ 60).toNat c.inc28 (by omega)
  have hn : c.ticksToWrap = ceilDiv ((2 ^ 60 : Int) - c.ext28 % 2 ^ 60).toNat c.inc28 := rfl
  rw [← hn] at hc
  refine ⟨c.ticksToWrap * c.inc28 - ((2 ^ 60 : Int) - c.ext28 % 2 ^ 60).toNat, by omega, ?_⟩
  rw [Chip.ticks_ext28]
  generalize c.ticksToWrap * c.inc28 = x at *
  omega

theorem Chip.timeNs_wrap (c : Chip) : (c.ticks c.ticksToWrap).timeNs < 5 := by
  obtain ⟨r, hr, he⟩ := c.wrap_ext28
  have hi := c.inc28_bounds
  unfold Chip.timeNs Chip.time64 unsign
  rw [he]
  omega

theorem Chip.wraps_wrap (c : Chip) : (c.ticks c.ticksToWrap).wraps = (c.wraps + 1) % 2 ^ 32 := by
  obtain ⟨r, hr, he⟩ := c.wrap_ext28
  have hi := c.inc28_bounds
  unfold Chip.wraps Chip.time64 unsign
  rw [he]
  omega

/-! ### TIME_INC and TIME.ADJ (R81 to R83) -/

/-- TIME_INC: one live read-write field. -/
def defTimeInc : RegDef := ⟨0x048, 1, 0, true, true, false, false, [⟨31, 0, .rw, .l, 1073741824, 1073741824⟩]⟩

/-- TIME.ADJ: one write-only command field. -/
def defTimeAdj : RegDef := ⟨0x04C, 1, 0, true, true, false, true, [⟨31, 0, .wo, .l, 0, 0⟩]⟩

theorem regAt_timeInc (b : Build) : regAt b F.TIME_INC_INC.addr = .reg defTimeInc := by cases b <;> decide +kernel
theorem regAt_timeAdj (b : Build) : regAt b F.TIME_ADJ_ADJ.addr = .reg defTimeAdj := by cases b <;> decide +kernel

theorem time_hasPage (c : Chip) : c.hasPage 0x020 = true := by unfold Chip.hasPage; cases c.build <;> decide +kernel

theorem Calm.of_ctrls {c d : Chip} (h : Calm c) (hb : d.build = c.build) (hc : d.ctrls = c.ctrls) (hh : d.host = c.host) (hm : d.mem = c.mem) : Calm d :=
  ⟨(Chip.commitPages_congr hc).trans h.1, (Chip.pathsOpen_congr hb (by rw [hh]) hm).trans h.2⟩

theorem Calm.wr {c : Chip} (h : Calm c) (a : Nat) (w : Word) (ha : a % 4096 ≠ 4) : Calm (c.wr a w) := h.of_ctrls rfl (c.ctrls_wr a w ha) rfl rfl

/-- The step of a 32-bit field that spans its whole register replaces it. -/
theorem insBits_full (w : Word) (v : Nat) : insBits w 31 0 v = BitVec.ofNat 32 v := by
  apply BitVec.eq_of_toNat_eq
  rw [insBits_toNat w 31 0 v (by decide) (by decide), BitVec.toNat_ofNat]
  have hw := w.isLt
  unfold bitsOf
  omega

/-- A write of a register of TIME without quiesce fields: a report, the word stored, its effect. -/
theorem Chip.write32_time (c : Chip) (o : Origin) (a : Nat) (w : Word) (d : RegDef) (ha : a = F.TIME_INC_INC.addr ∨ a = F.TIME_ADJ_ADJ.addr)
    (hr : regAt c.build a = .reg d) (hq : d.quiesceChange (c.rd a) w = false) (hc : Calm c) :
    ∃ c1, Quiet c c1 ∧ c.write32 o a w = ((c1.wr a (d.store (c.rd a) w)).writeEffect o a (c.rd a) w).settle := by
  have hu : unstored a = false ∧ mirrorAddr a = false ∧ a < 0x400000 ∧ a % 4 = 0 ∧ 0x40 ≤ a % 4096 ∧ a ≠ F.DEBUG_CTRL_UNLOCK.addr := by
    rcases ha with rfl | rfl <;> decide +kernel
  obtain ⟨hu, hm, h1, h2, h3, h4⟩ := hu
  obtain ⟨c1, hc1, -, e⟩ := c.blockWrite_cases o a d w hq h4
  refine ⟨c1, hc1, ?_⟩
  rw [Chip.write32_block c o a w d h1 h2 h3 hr hc.2, e, hu, Chip.noteMirror_other _ _ hm]
  rfl

theorem timeInc_effect (c : Chip) (o : Origin) (old w : Word) : c.writeEffect o F.TIME_INC_INC.addr old w = c.timeIncSet w := rfl
theorem timeAdj_effect (c : Chip) (o : Origin) (old w : Word) : c.writeEffect o F.TIME_ADJ_ADJ.addr old w = c.timeStep w := rfl

theorem Chip.timeIncSet_rd (c : Chip) (w : Word) : (c.timeIncSet w).rd F.TIME_INC_INC.addr = w := by
  unfold Chip.timeIncSet
  rw [Chip.ticks_rd, Chip.rd_set, if_pos rfl]
  exact (insBits_full _ _).trans (by simp)

theorem Chip.inc28_of_rd (c : Chip) : c.inc28 = max 0x3FEF9DB2 (min 0x4010624E (c.rd F.TIME_INC_INC.addr).toNat) := by
  have hw := (c.rd F.TIME_INC_INC.addr).isLt
  have : c.get F.TIME_INC_INC = (c.rd F.TIME_INC_INC.addr).toNat := by
    show (c.rd F.TIME_INC_INC.addr).toNat / 2 ^ 0 % 2 ^ (31 + 1 - 0) = _
    omega
  unfold Chip.inc28; rw [this]

/-- A write of TIME_INC: the word is kept, and the tick after it has the new increment within its limits. -/
theorem Chip.write32_timeInc (c : Chip) (o : Origin) (w : Word) (hc : Calm c) :
    let t := c.write32 o F.TIME_INC_INC.addr w
    t.rd F.TIME_INC_INC.addr = w ∧ t.time.ticks28 = c.time.ticks28 + max 0x3FEF9DB2 (min 0x4010624E w.toNat) ∧ t.time.stepNs = c.time.stepNs := by
  obtain ⟨c1, hq, e⟩ := c.write32_time o _ w _ (Or.inl rfl) (regAt_timeInc c.build) rfl hc
  rw [e, timeInc_effect]
  have hc2 := (hq.calm hc).wr F.TIME_INC_INC.addr (defTimeInc.store (c.rd F.TIME_INC_INC.addr) w) (by decide)
  generalize hc2e : c1.wr F.TIME_INC_INC.addr (defTimeInc.store (c.rd F.TIME_INC_INC.addr) w) = c2 at hc2 ⊢
  have ht : c2.time = c.time := by rw [← hc2e]; exact hq.time
  have hcalm : Calm (c2.timeIncSet w) :=
    hc2.of_ctrls rfl (Chip.ctrls_set c2 F.TIME_INC_INC w.toNat (by decide)) rfl rfl
  rw [hcalm.settle]
  have hi : (c2.set F.TIME_INC_INC w.toNat).inc28 = max 0x3FEF9DB2 (min 0x4010624E w.toNat) := by
    rw [Chip.inc28_of_rd]; exact congrArg (fun x : Word => max 0x3FEF9DB2 (min 0x4010624E x.toNat)) (c2.timeIncSet_rd w)
  refine ⟨c2.timeIncSet_rd w, ?_, ?_⟩
  · show c2.time.ticks28 + 1 * (c2.set F.TIME_INC_INC w.toNat).inc28 = _
    rw [hi, ht, Nat.one_mul]
  · show c2.time.stepNs = _
    rw [ht]

theorem signed_toNat (w : Word) : signed 32 w.toNat = w.toInt := by
  have hw := w.isLt
  rw [BitVec.toInt_eq_toNat_cond]
  unfold signed
  split <;> split <;> omega

/-- The step itself: one tick on, the steps' sum moved, and the event of a step back (R82, R83). -/
theorem Chip.timeStep_spec (c : Chip) (w : Word) :
    ∃ d, Quiet c d ∧ (w.toInt < 0 → d.pend E.TIME_STEP_BACK = true) ∧
      c.timeStep w = { d with time := { c.time with ticks28 := c.time.ticks28 + c.inc28, stepNs := c.time.stepNs + w.toInt } } := by
  have shape : ∀ d : Chip, Quiet c d → (c.timeStep w = { d.ticks 1 with time := { (d.ticks 1).time with stepNs := (d.ticks 1).time.stepNs + w.toInt } }) →
      c.timeStep w = { d with time := { c.time with ticks28 := c.time.ticks28 + c.inc28, stepNs := c.time.stepNs + w.toInt } } := by
    intro d hq e
    have hi : d.inc28 = c.inc28 := by unfold Chip.inc28; rw [hq.get F.TIME_INC_INC (by decide)]
    rw [e]
    unfold Chip.ticks
    simp only [hq.time, hi, Nat.one_mul]
  by_cases h : w.toInt < 0
  · refine ⟨c.raise E.TIME_STEP_BACK, c.quiet_raise _, fun _ => c.raise_pend _ (time_hasPage c) (by decide), shape _ (c.quiet_raise _) ?_⟩
    unfold Chip.timeStep
    simp only [signed_toNat, h, if_true]
  · refine ⟨c, Quiet.refl c, fun k => absurd k h, shape c (Quiet.refl c) ?_⟩
    unfold Chip.timeStep
    simp only [signed_toNat, h, if_false]

/-- A write of TIME.ADJ: the next tick adds its increment to bar time and the step to the extended time alone. -/
theorem Chip.write32_timeAdj (c : Chip) (o : Origin) (w : Word) (hc : Calm c) :
    let t := c.write32 o F.TIME_ADJ_ADJ.addr w
    t.time.ticks28 = c.time.ticks28 + c.inc28 ∧ t.time.stepNs = c.time.stepNs + w.toInt ∧ (w.toInt < 0 → t.pend E.TIME_STEP_BACK = true) := by
  obtain ⟨c1, hq, e⟩ := c.write32_time o _ w _ (Or.inr rfl) (regAt_timeAdj c.build) rfl hc
  rw [e, timeAdj_effect]
  have hc2 := (hq.calm hc).wr F.TIME_ADJ_ADJ.addr (defTimeAdj.store (c.rd F.TIME_ADJ_ADJ.addr) w) (by decide)
  generalize hc2e : c1.wr F.TIME_ADJ_ADJ.addr (defTimeAdj.store (c.rd F.TIME_ADJ_ADJ.addr) w) = c2 at hc2 ⊢
  have ht : c2.time = c.time := by rw [← hc2e]; exact hq.time
  have hi : c2.inc28 = c.inc28 := by
    unfold Chip.inc28; rw [← hc2e, Chip.get_wr_ne _ _ _ _ (by decide), hq.get F.TIME_INC_INC (by decide)]
  obtain ⟨d, hd, hp, e2⟩ := c2.timeStep_spec w
  have hcalm : Calm (c2.timeStep w) := by rw [e2]; exact (hd.calm hc2).of_ctrls rfl rfl rfl rfl
  rw [hcalm.settle, e2, ← ht, ← hi]
  exact ⟨rfl, rfl, hp⟩

/-- Settles O19: the wrap by the arithmetic of the first tick past a multiple of 2³² ns, the two writes by the rule for a register write. -/
theorem timeCounter : Obligations.TimeCounter := by
  intro s hr
  refine ⟨?_, fun o w hc => ?_, fun o w hc => ?_⟩
  · exact Completes.live (fun c => c.ticks c.ticksToWrap) rfl hr ⟨s.chip.timeNs_wrap, s.chip.wraps_wrap⟩
  · exact Completes.serveFor o (fun c => c.write32 o F.TIME_INC_INC.addr w) rfl hr (s.chip.write32_timeInc o w hc)
  · exact Completes.serveFor o (fun c => c.write32 o F.TIME_ADJ_ADJ.addr w) rfl hr (s.chip.write32_timeAdj o w hc)

end Sys2Proof.Machine
end

