-- ==== Sys2Proof/Proofs/Frames.lean ====
section
/-! PROOF. What the operations of scan-out, mapping, preview, ports and reports leave alone of the bar generator: its registers, its state, the
time and the launch queue. -/

namespace Sys2Proof.Machine

/-! ### Folds -/

/-- A relation between blocks that every step of a fold has, the whole fold has. -/
theorem foldl_rel {α β : Type} (R : Chip → Chip → Prop) (hrefl : ∀ c, R c c) (htrans : ∀ {c d e}, R c d → R d e → R c e) (π : β → Chip)
    (f : β → α → β) (l : List α) (h : ∀ b, ∀ x ∈ l, R (π b) (π (f b x))) (b : β) : R (π b) (π (l.foldl f b)) := by
  induction l generalizing b with
  | nil => exact hrefl _
  | cons x t ih => exact htrans (h b x (by simp)) (ih (fun b y hy => h b y (by simp [hy])) (f b x))

/-! ### Registers of the generator -/

/-- The registers by which the generator is seen: DEVICE.STRAPS, which tells the master; PAGE_CTRL, MODE, SRC, COUNT, STATUS and LAST_START of BAR. -/
def barRegs : List Nat := [0x000048, 0x022004, 0x022040, 0x022044, 0x022054, 0x022058, 0x022060]

theorem barRegs_quiet {a : Nat} (h : a ∈ barRegs) : quietReg a = true := by
  have : ∀ a ∈ barRegs, quietReg a = true := by decide
  exact this a h

theorem barRegs_lt {a : Nat} (h : a ∈ barRegs) : a < 0x024000 := by
  have : ∀ a ∈ barRegs, a < 0x024000 := by decide
  exact this a h

/-- One block has the build, the page control words and the generator's registers of another. -/
structure SameRegs (c d : Chip) : Prop where
  build : d.build = c.build
  ctrls : d.ctrls = c.ctrls
  rd : ∀ a ∈ barRegs, d.rd a = c.rd a

/-- Beside that, time, the launch queue and the generator's own state, but for the feed map of its bar and the depths reported. -/
structure SameTime (c d : Chip) : Prop extends SameRegs c d where
  time : d.time = c.time
  launchQ : d.launchQ = c.launchQ
  bar : d.bar = { c.bar with feedMap := d.bar.feedMap, depths := d.bar.depths }

theorem SameRegs.refl (c : Chip) : SameRegs c c := ⟨rfl, rfl, fun _ _ => rfl⟩
theorem SameRegs.trans {c d e : Chip} (h : SameRegs c d) (k : SameRegs d e) : SameRegs c e :=
  ⟨k.build.trans h.build, k.ctrls.trans h.ctrls, fun a ha => (k.rd a ha).trans (h.rd a ha)⟩
theorem SameRegs.get {c d : Chip} (h : SameRegs c d) (f : Fld) (hf : f.addr ∈ barRegs) : d.get f = c.get f := by unfold Chip.get; rw [h.rd _ hf]
theorem SameRegs.commitPages {c d : Chip} (h : SameRegs c d) : d.commitPages = c.commitPages := Chip.commitPages_congr h.ctrls

theorem SameTime.refl (c : Chip) : SameTime c c := ⟨SameRegs.refl c, rfl, rfl, rfl⟩
theorem SameTime.trans {c d e : Chip} (h : SameTime c d) (k : SameTime d e) : SameTime c e :=
  ⟨h.toSameRegs.trans k.toSameRegs, k.time.trans h.time, k.launchQ.trans h.launchQ, by rw [k.bar, h.bar]⟩

theorem Quiet.sameTime {c d : Chip} (h : Quiet c d) : SameTime c d :=
  ⟨⟨h.build, h.2.1, fun a ha => h.2.2 a (barRegs_quiet ha)⟩, h.time, h.launchQ, by rw [h.bar]⟩

/-- Parts of the block besides its registers, time, launch queue and generator changed. -/
theorem SameTime.of_regs {c d : Chip} (hb : d.build = c.build) (hr : d.regs = c.regs) (ht : d.time = c.time) (hl : d.launchQ = c.launchQ)
    (hg : d.bar = c.bar) : SameTime c d :=
  ⟨⟨hb, by unfold Chip.ctrls; rw [hr], fun a _ => Chip.rd_congr hr hb a⟩, ht, hl, by rw [hg]⟩

/-- A register outside the generator's written. -/
theorem SameTime.wr (c : Chip) (a : Nat) (w : Word) (h4 : a % 4096 ≠ 4) (ha : a ∉ barRegs) : SameTime c (c.wr a w) :=
  ⟨⟨rfl, c.ctrls_wr a w h4, fun b hb => by rw [Chip.rd_wr, if_neg]; rintro rfl; exact ha hb⟩, rfl, rfl, rfl⟩

theorem SameTime.set (c : Chip) (f : Fld) (v : Nat) (h4 : f.addr % 4096 ≠ 4) (ha : f.addr ∉ barRegs) : SameTime c (c.set f v) :=
  SameTime.wr c _ _ h4 ha

/-- A field of a page from 0x024 on. -/
theorem SameTime.set_hi (c : Chip) (f : Fld) (v : Nat) (ha : 0x024000 ≤ f.addr) (h4 : f.addr % 4096 ≠ 4) : SameTime c (c.set f v) :=
  SameTime.set c f v h4 (fun h => absurd (barRegs_lt h) (by omega))

/-- A field of the n-th page of its kind, from page 0x024 on. -/
theorem SameTime.set_pg (c : Chip) (f : Fld) (n v : Nat) (ha : 0x024000 ≤ f.addr) (h4 : f.addr % 4096 ≠ 4) : SameTime c (c.set (f.pg n) v) :=
  SameTime.set_hi c (f.pg n) v (Nat.le_trans ha (Nat.le_add_right _ _)) (by show (f.addr + 4096 * n) % 4096 ≠ 4; omega)

theorem SameTime.emit (c : Chip) (o : Output) : SameTime c (c.emit o) := (c.quiet_emit o).sameTime
theorem SameTime.raise (c : Chip) (e : Ev) : SameTime c (c.raise e) := (c.quiet_raise e).sameTime
theorem SameTime.cond (c : Chip) (e : Ev) (b : Bool) : SameTime c (c.cond e b) := (c.quiet_cond e b).sameTime
theorem SameTime.setPort (c : Chip) (p : Nat) (s : PortSt) : SameTime c (c.setPort p s) := SameTime.of_regs rfl rfl rfl rfl rfl
theorem SameTime.setScan (c : Chip) (s : ScanSt) : SameTime c (c.setScan s) := SameTime.of_regs rfl rfl rfl rfl rfl
theorem SameTime.setMap (c : Chip) (m : MapSt) : SameTime c (c.setMap m) := SameTime.of_regs rfl rfl rfl rfl rfl
theorem SameTime.openValue (c : Chip) (w : Nat) : SameTime c (c.openValue w).2 := SameTime.of_regs rfl rfl rfl rfl rfl

theorem SameTime.foldl {α β : Type} (π : β → Chip) (f : β → α → β) (l : List α) (h : ∀ b, ∀ x ∈ l, SameTime (π b) (π (f b x))) (b : β) :
    SameTime (π b) (π (l.foldl f b)) := foldl_rel SameTime SameTime.refl SameTime.trans π f l h b

/-- A fold over the block itself. -/
theorem SameTime.fold {α : Type} (f : Chip → α → Chip) (l : List α) (h : ∀ c, ∀ x ∈ l, SameTime c (f c x)) (c : Chip) : SameTime c (l.foldl f c) :=
  SameTime.foldl (fun c => c) f l h c

theorem SameTime.ite {c d e : Chip} {p : Prop} [Decidable p] (h : SameTime c d) (k : SameTime c e) : SameTime c (if p then d else e) := by
  split
  · exact h
  · exact k

/-! ### Bar starts: scan-out, preview, holds, layers, figures -/

theorem Chip.sameTime_scanBeat (c : Chip) (s12 len12 : Nat) : SameTime c (c.scanBeat s12 len12) := by
  unfold Chip.scanBeat
  split
  · exact SameTime.refl c
  · exact SameTime.ite ((SameTime.setScan c _).trans (SameTime.setScan _ _)) (SameTime.setScan c _)

/-- With no commit pending, nothing is taken at an apply point. -/
theorem Chip.applyAt_none (c : Chip) (r : ApplyRef) (h : c.commitPages = []) : c.applyAt r = c := by
  unfold Chip.applyAt Chip.settle; simp [h]

theorem Chip.sameTime_previewBar (c : Chip) (h : c.commitPages = []) : SameTime c (c.previewBar (fun r c => c.applyAt r)) := by
  unfold Chip.previewBar
  refine SameTime.ite (SameTime.refl c) ?_
  simp only [c.applyAt_none _ h, ite_self]
  refine SameTime.ite ?_ ?_
  · exact ((SameTime.set_hi c F.PREVIEW_SKIP_COUNT_SKIP_COUNT _ (by decide) (by decide)).trans
      (SameTime.set_hi _ F.PREVIEW_STATUS_BUSY _ (by decide) (by decide))).trans (SameTime.raise _ _)
  · refine SameTime.trans ?_ (SameTime.set_hi _ F.PREVIEW_OUT_SIZE_HO _ (by decide) (by decide))
    refine SameTime.trans ?_ (SameTime.set_hi _ F.PREVIEW_OUT_SIZE_WO _ (by decide) (by decide))
    refine SameTime.trans ?_ (SameTime.set_hi _ F.PREVIEW_STATUS_BUSY _ (by decide) (by decide))
    exact SameTime.of_regs rfl rfl rfl rfl rfl

theorem Chip.sameTime_holdAtBar (c : Chip) : SameTime c c.holdAtBar := by
  have hu : ∀ (d : Chip) (u : UpdateSt), SameTime d (d.setUpd u) := fun d u => SameTime.of_regs rfl rfl rfl rfl rfl
  unfold Chip.holdAtBar
  refine SameTime.trans (SameTime.ite (p := (c.upd.holdDue && c.belfry.down.isNone) = true) (d := c.tableHold) (hu c _) (SameTime.refl c)) ?_
  generalize (if (c.upd.holdDue && c.belfry.down.isNone) = true then c.tableHold else c) = d
  dsimp only
  split
  · exact SameTime.refl d
  · exact SameTime.ite (SameTime.raise d _) (SameTime.ite (hu d _) (SameTime.refl d))

theorem Chip.sameTime_refreshLayers (c : Chip) : SameTime c c.refreshLayers := by
  unfold Chip.refreshLayers
  split
  · exact SameTime.refl c
  · exact SameTime.fold _ _ (fun d l _ => ((SameTime.set_pg d F.LAYER_STATUS_STATE l _ (by decide) (by decide)).trans
      (SameTime.set_pg _ F.LAYER_STATUS_HOLD_LEFT l _ (by decide) (by decide))).trans (SameTime.cond _ _ _)) c

theorem Chip.sameTime_dramUtil (c : Chip) : SameTime c c.dramUtil :=
  SameTime.fold _ _ (fun d p _ => (((SameTime.openValue d 7).trans (SameTime.set_pg _ F.DRAM_UTIL_RT p _ (by decide) (by decide))).trans
    (SameTime.openValue _ 7)).trans (SameTime.set_pg _ F.DRAM_UTIL_BULK p _ (by decide) (by decide))) c

theorem Chip.sameTime_showDepths (c : Chip) : SameTime c c.showDepths := by
  unfold Chip.showDepths
  refine SameTime.trans ?_ (SameTime.set _ F.BAR_DEPTH_SEEN_PS _ (by decide) (by decide))
  exact ⟨⟨rfl, rfl, fun _ _ => rfl⟩, rfl, rfl, rfl⟩

/-- What a sender does at a bar start besides its generator leaves the generator alone, where no commit is pending. -/
theorem Chip.sameTime_barTurn (c : Chip) (h : c.commitPages = []) : SameTime c c.barTurn := by
  have h1 : SameTime c { c with bar := { c.bar with feedMap := c.feedMapOf c.barCount } } := ⟨⟨rfl, rfl, fun _ _ => rfl⟩, rfl, rfl, rfl⟩
  have h2 := h1.trans (Chip.sameTime_scanBeat _ c.bar.start12 (c.bar.beatLens.headD 0))
  have hn := h2.toSameRegs.commitPages.trans h
  have h3 := h2.trans (Chip.sameTime_previewBar _ hn)
  have h4 := (((h3.trans (Chip.sameTime_holdAtBar _)).trans (Chip.sameTime_refreshLayers _)).trans (Chip.sameTime_dramUtil _)).trans
    (Chip.sameTime_showDepths _)
  unfold Chip.barTurn
  simp only []
  rw [Chip.applyAt_none _ _ hn]
  exact h4

/-! ### Cells that leave on ports -/

theorem Chip.sameTime_burst (c : Chip) (p l : Nat) : SameTime c (c.burst p l).2 := by
  unfold Chip.burst
  rw [apply_ite Prod.snd]
  refine SameTime.ite (SameTime.refl c) ?_
  dsimp only
  rw [apply_ite Prod.snd]
  exact (SameTime.setPort c p _).trans (SameTime.ite (SameTime.set_pg _ F.PORT_INJECT_ONCE p _ (by decide) (by decide)) (SameTime.refl _))

theorem Chip.sameTime_lineBlocks (c : Chip) (p : Nat) (l : List LineBlock) : SameTime c (c.lineBlocks p l) := by
  unfold Chip.lineBlocks
  refine SameTime.ite (SameTime.refl c) (SameTime.trans ?_ (SameTime.emit _ _))
  exact SameTime.foldl (fun a : List LineBlock × Chip => a.2) _ l (fun a b _ => (SameTime.setPort a.2 p _).trans (Chip.sameTime_burst _ p b.lane)) ([], c)

theorem Chip.sameTime_sendRaw (c : Chip) (p cell : Nat) : SameTime c (c.sendRaw p cell) := by
  unfold Chip.sendRaw Chip.sendCoded Chip.stream
  exact (((SameTime.setPort c p _).trans (SameTime.emit _ _)).trans (SameTime.setPort _ p _)).trans (Chip.sameTime_lineBlocks _ p _)

theorem Chip.sameTime_sendFree (c : Chip) (p cell : Nat) : SameTime c (c.sendFree p cell) := by
  unfold Chip.sendFree
  exact SameTime.trans (SameTime.ite (Chip.sameTime_sendRaw c p _) (SameTime.refl c)) (Chip.sameTime_sendRaw _ p _)

theorem Chip.sameTime_withSeq (c : Chip) (p cell : Nat) : SameTime c (c.withSeq p cell).2 := SameTime.setPort c _ _

theorem Chip.sameTime_noteMargin (c : Chip) (p : Nat) (m : Int) (hp : p ≤ 16) : SameTime c (c.noteMargin p m) := by
  unfold Chip.noteMargin
  have ha : (F.SCAN_PORT_MARGIN_US.plus (4 * p)).addr = 0x0700C0 + 4 * p := rfl
  exact SameTime.ite (SameTime.set_hi c _ _ (by rw [ha]; omega) (by rw [ha]; omega)) (SameTime.refl c)

theorem Chip.sameTime_downbeatMargin (c : Chip) (p lit : Nat) (hp : p ≤ 16) : SameTime c (c.downbeatMargin p lit) := by
  unfold Chip.downbeatMargin
  simp only []
  split
  · exact ((SameTime.ite (SameTime.setPort c p _) (SameTime.refl c)).trans (SameTime.setPort _ p _)).trans (Chip.sameTime_noteMargin _ p _ hp)
  · exact SameTime.ite (SameTime.setPort c p _) (SameTime.refl c)

theorem Chip.sameTime_launchChain (c : Chip) (cell lit q : Nat) (hq : q < 16) : SameTime c (c.launchChain cell lit q) := by
  unfold Chip.launchChain
  refine (c.sameTime_withSeq q cell).trans (SameTime.fold _ _ (fun d p hp => ?_) _)
  have hp16 : p ≤ 16 := by
    have hm := (List.mem_filter.1 hp).1
    split at hm <;> simp at hm <;> omega
  exact (d.sameTime_sendFree p _).trans (Chip.sameTime_downbeatMargin _ p lit hp16)

theorem Chip.sameTime_launchTiles (c : Chip) (d : Downbeat) : SameTime c (c.launchTiles d) :=
  SameTime.fold _ _ (fun e q hq => e.sameTime_launchChain _ _ q (List.mem_range.1 (List.mem_filter.1 hq).1)) c

theorem Chip.sameTime_launchStack (c : Chip) (d : Downbeat) : SameTime c (c.launchStack d) := by
  unfold Chip.launchStack
  exact SameTime.ite ((c.sameTime_withSeq _ _).trans (Chip.sameTime_sendFree _ _ _)) (SameTime.refl c)

theorem Chip.sameTime_beatFrame (c : Chip) (d : Downbeat) : SameTime c (c.beatFrame d) := by
  unfold Chip.beatFrame
  exact SameTime.ite ((SameTime.openValue c 21).trans (SameTime.emit _ _)) (SameTime.refl c)

theorem Chip.sameTime_stackForward (c : Chip) (cell : Nat) : SameTime c (c.stackForward cell) := by
  unfold Chip.stackForward
  exact SameTime.ite (c.sameTime_sendRaw _ _) (SameTime.refl c)

/-! ### ACTIVE rises at a launch -/

theorem Chip.sameTime_pairShow (c : Chip) : SameTime c c.pairShow := by
  unfold Chip.pairShow
  exact SameTime.ite (SameTime.refl c) ((SameTime.set_hi c F.REDUN_STATUS_PAIR_LOCK _ (by decide) (by decide)).trans (SameTime.cond _ _ _))

theorem Chip.sameTime_setActive (c : Chip) : SameTime c (c.setUnitState rsActive) := by
  have h : SameTime c (c.set (F.STATE.pg pgRedun) rsActive).pairShow :=
    (SameTime.set_hi c (F.STATE.pg pgRedun) rsActive (by decide) (by decide)).trans (Chip.sameTime_pairShow _)
  unfold Chip.setUnitState
  simp only [show ¬ rsActive = rsSyncing by decide, show ¬ rsActive = rsSolo by decide, if_false, ite_self]
  exact h

theorem Chip.sameTime_activeRise (c : Chip) : SameTime c c.activeRise := by
  unfold Chip.activeRise
  refine SameTime.ite (SameTime.refl c) (SameTime.trans ?_ (SameTime.raise _ _))
  have h : SameTime c (({ c with actBit := true }.set F.REDUN_STATUS_ACTIVE 1).set F.REDUN_LAST_CLAIM_TIME c.timeNs) :=
    ((SameTime.of_regs (c := c) (d := { c with actBit := true }) rfl rfl rfl rfl rfl).trans
      (SameTime.set_hi _ F.REDUN_STATUS_ACTIVE _ (by decide) (by decide))).trans (SameTime.set_hi _ F.REDUN_LAST_CLAIM_TIME _ (by decide) (by decide))
  exact SameTime.ite (h.trans (Chip.sameTime_setActive _)) h

end Sys2Proof.Machine
end

