-- ==== Sys2Proof/Proofs/BarStarts.lean ====
section
/-! PROOF. The generator at bar and beat starts: what its count and beat show, and what a launch leaves (R13, R87 to R95). -/

namespace Sys2Proof.Machine

/-! ### What shows the bar and the beat -/

/-- One block has the build, page control words, launch queue, bar count and beat of another. -/
structure SameBeat (c d : Chip) : Prop where
  build : d.build = c.build
  ctrls : d.ctrls = c.ctrls
  launchQ : d.launchQ = c.launchQ
  count : d.barCount = c.barCount
  beat : d.get F.BAR_STATUS_BEAT = c.get F.BAR_STATUS_BEAT

theorem SameBeat.refl (c : Chip) : SameBeat c c := ⟨rfl, rfl, rfl, rfl, rfl⟩
theorem SameBeat.trans {c d e : Chip} (h : SameBeat c d) (k : SameBeat d e) : SameBeat c e :=
  ⟨k.build.trans h.build, k.ctrls.trans h.ctrls, k.launchQ.trans h.launchQ, k.count.trans h.count, k.beat.trans h.beat⟩
theorem SameBeat.ite {c d e : Chip} {p : Prop} [Decidable p] (h : SameBeat c d) (k : SameBeat c e) : SameBeat c (if p then d else e) := by
  split
  · exact h
  · exact k

theorem SameTime.sameBeat {c d : Chip} (h : SameTime c d) : SameBeat c d :=
  ⟨h.build, h.ctrls, h.launchQ, h.get F.BAR_COUNT_COUNT (by decide), h.get F.BAR_STATUS_BEAT (by decide)⟩

theorem Quiet.sameBeat {c d : Chip} (h : Quiet c d) : SameBeat c d := h.sameTime.sameBeat

/-- The generator's state changed, not its registers. -/
theorem SameBeat.withBar (c : Chip) (b : BarSt) : SameBeat c { c with bar := b } := ⟨rfl, rfl, rfl, rfl, rfl⟩

theorem SameBeat.ticks (c : Chip) (n : Nat) : SameBeat c (c.ticks n) where
  build := c.ticks_build n
  ctrls := by unfold Chip.ctrls; rw [c.ticks_regs n]
  launchQ := c.ticks_launchQ n
  count := c.ticks_get n _
  beat := c.ticks_get n _

theorem SameBeat.advanceTo (c : Chip) (at12 : Nat) : SameBeat c (c.advanceTo at12) := SameBeat.ticks c _

/-- A field of a register other than COUNT and STATUS. -/
theorem SameBeat.set (c : Chip) (f : Fld) (v : Nat) (h4 : f.addr % 4096 ≠ 4) (h1 : F.BAR_COUNT_COUNT.addr ≠ f.addr) (h2 : F.BAR_STATUS_BEAT.addr ≠ f.addr) :
    SameBeat c (c.set f v) :=
  ⟨rfl, c.ctrls_set f v h4, rfl, c.get_set_ne f _ v h1, c.get_set_ne f _ v h2⟩

/-- A field of STATUS beside BEAT. -/
theorem SameBeat.set_status (c : Chip) (f : Fld) (v : Nat) (ha : f.addr = F.BAR_STATUS_BEAT.addr) (hl : f.lo ≤ f.hi) (hh : f.hi < 32)
    (hd : 27 < f.lo ∨ f.hi < 26) : SameBeat c (c.set f v) :=
  ⟨rfl, c.ctrls_set f v (by rw [ha]; decide), rfl, c.get_set_ne f _ v (by rw [ha]; decide), c.get_set_field f _ v hl hh (by decide) hd⟩

theorem Chip.sameBeat_setBarLock (c : Chip) (b : Bool) : SameBeat c (c.setBarLock b) :=
  (SameBeat.set_status c F.BAR_STATUS_LOCK _ rfl (by decide) (by decide) (by decide)).trans (Chip.quiet_cond _ _ _).sameBeat

theorem Chip.sameBeat_setSlewing (c : Chip) (b : Bool) : SameBeat c (c.setSlewing b) :=
  (SameBeat.set_status c F.BAR_STATUS_SLEWING _ rfl (by decide) (by decide) (by decide)).trans (Chip.quiet_cond _ _ _).sameBeat

theorem Chip.sameBeat_srcInUse (c : Chip) (v : Nat) : SameBeat c (c.set F.BAR_STATUS_SRC_IN_USE v) :=
  SameBeat.set_status c F.BAR_STATUS_SRC_IN_USE v rfl (by decide) (by decide) (by decide)

@[simp] theorem Chip.cond_bar (c : Chip) (e : Ev) (b : Bool) : (c.cond e b).bar = c.bar := (c.quiet_cond e b).bar
@[simp] theorem Chip.raise_bar (c : Chip) (e : Ev) : (c.raise e).bar = c.bar := (c.quiet_raise e).bar
@[simp] theorem Chip.setBarLock_bar (c : Chip) (b : Bool) : (c.setBarLock b).bar = c.bar := Chip.cond_bar _ _ _
@[simp] theorem Chip.showBarLock_bar (c : Chip) : c.showBarLock.bar = c.bar := Chip.setBarLock_bar _ _
@[simp] theorem Chip.setSlewing_bar (c : Chip) (b : Bool) : (c.setSlewing b).bar = c.bar := Chip.cond_bar _ _ _

/-! ### Missed downbeats, and the change of source -/

theorem Chip.sameBeat_stackMissed (c : Chip) : SameBeat c c.stackMissed := by
  unfold Chip.stackMissed
  have h : SameBeat c ({ c with bar := { c.bar with masterMiss := c.bar.masterMiss + 1, copying := false } }.set F.STACK_STATUS_LOCK 0) :=
    (SameBeat.withBar c _).trans (SameBeat.set _ F.STACK_STATUS_LOCK _ (by decide) (by decide) (by decide))
  refine SameBeat.ite ((h.trans (Chip.sameBeat_setBarLock _ _)).trans (SameBeat.ite ?_ (Chip.quiet_cond _ _ _).sameBeat)) h
  exact (SameBeat.set _ F.REDUN_STATUS_PAIR_LOCK _ (by decide) (by decide) (by decide)).trans (Chip.quiet_cond _ _ _).sameBeat

/-- A bar downbeat missed is counted once, and ends the copying. -/
theorem Chip.stackMissed_bar (c : Chip) : c.stackMissed.bar = { c.bar with masterMiss := c.bar.masterMiss + 1, copying := false } := by
  unfold Chip.stackMissed
  dsimp only
  split
  · split <;> simp
  · rfl

theorem Chip.sameBeat_masterMismatch (c : Chip) : SameBeat c c.masterMismatch := by
  unfold Chip.masterMismatch
  exact SameBeat.ite (c.quiet_raise _).sameBeat (SameBeat.refl c)

theorem Chip.sameBeat_forgetLoss (c : Chip) : SameBeat c c.forgetLoss := by
  have h : SameBeat c (if c.refUsed then c else { c with bar := { c.bar with refLost := false, refMiss := 0, refGood := 0, refPrev12 := none } }) :=
    SameBeat.ite (SameBeat.refl c) (SameBeat.withBar c _)
  unfold Chip.forgetLoss
  exact SameBeat.ite h (h.trans ((SameBeat.withBar _ _).trans (Chip.quiet_cond _ _ _).sameBeat))

theorem Chip.sameBeat_sourceChange (c : Chip) (at12 : Nat) : SameBeat c (c.sourceChange at12) := by
  have h : SameBeat c c.masterMismatch.takeSrc.forgetLoss :=
    (c.sameBeat_masterMismatch.trans (SameBeat.withBar _ _)).trans (Chip.sameBeat_forgetLoss _)
  unfold Chip.sourceChange
  exact SameBeat.ite h (h.trans ((SameBeat.withBar _ _).trans (Chip.sameBeat_srcInUse _ _)))

/-! ### Bar starts (R87, R91) -/

/-- A bar has started at an instant: it is counted, and its beat is 0. -/
structure BarBegun (c : Chip) (at12 : Nat) (d : Chip) : Prop where
  build : d.build = c.build
  ctrls : d.ctrls = c.ctrls
  launchQ : d.launchQ = c.launchQ
  count : d.barCount = (c.barCount + 1) % 2 ^ 32
  beat : d.get F.BAR_STATUS_BEAT = 0
  start : d.bar.start12 = at12

theorem BarBegun.keep {c d e : Chip} {at12 : Nat} (h : BarBegun c at12 d) (k : SameBeat d e) (hs : e.bar.start12 = d.bar.start12) : BarBegun c at12 e :=
  ⟨k.build.trans h.build, k.ctrls.trans h.ctrls, k.launchQ.trans h.launchQ, k.count.trans h.count, k.beat.trans h.beat, hs.trans h.start⟩

/-- Where a condition holds, the generator's state is changed beside the bar's start. -/
theorem BarBegun.orBar {c d : Chip} {at12 : Nat} (h : BarBegun c at12 d) (p : Prop) [Decidable p] (b : BarSt) (hs : b.start12 = d.bar.start12) :
    BarBegun c at12 (if p then { d with bar := b } else d) := by
  split
  · exact h.keep (SameBeat.withBar d b) hs
  · exact h

theorem BarBegun.orMissed {c d : Chip} {at12 : Nat} (h : BarBegun c at12 d) (p : Prop) [Decidable p] : BarBegun c at12 (if p then d.stackMissed else d) := by
  split
  · exact h.keep d.sameBeat_stackMissed (by rw [Chip.stackMissed_bar])
  · exact h

/-- COUNT advanced and BEAT set to 0. -/
theorem BarBegun.count_up {c d : Chip} {at12 : Nat} (h : SameBeat c d) (hs : d.bar.start12 = at12) :
    BarBegun c at12 ((d.bump F.BAR_COUNT_COUNT).set F.BAR_STATUS_BEAT 0) where
  build := h.build
  ctrls := (Chip.ctrls_set _ _ _ (by decide)).trans ((Chip.ctrls_set _ _ _ (by decide)).trans h.ctrls)
  launchQ := h.launchQ
  count := by
    rw [← h.count]
    exact (Chip.get_set_ne _ _ _ _ (by decide)).trans (Chip.get_set _ _ _ (by decide) (by decide))
  beat := Chip.get_set _ _ _ (by decide) (by decide)
  start := hs

/-- The generator's part of a bar start. -/
theorem Chip.barBegun_barStartAt (c : Chip) (at12 : Nat) : BarBegun c at12 (c.barStartAt at12) := by
  have hs := (SameBeat.advanceTo c at12).trans (Chip.sameBeat_sourceChange _ at12)
  unfold Chip.barStartAt
  refine BarBegun.orBar (BarBegun.orMissed ?_ _) _ _ rfl
  refine BarBegun.keep (BarBegun.count_up (hs.trans (SameBeat.withBar _ _)) rfl) ?_ (by rw [Chip.showBarLock_bar, Chip.setSlewing_bar, Chip.set_bar])
  exact ((SameBeat.set _ F.BAR_PHASE_ERR_E _ (by decide) (by decide) (by decide)).trans (Chip.sameBeat_setSlewing _ _)).trans (Chip.sameBeat_setBarLock _ _)

/-- The generator reaches a bar start: the bar has begun, and the cells of its launch are due. -/
theorem Chip.barBegin_spec (c : Chip) (hb : c.build = .S) (hc : c.commitPages = []) (hr : c.bar.running = true) (hw : c.bar.waiting = false)
    (hn : c.bar.nextBeat = 0) (hcopy : c.copyingNow = false) : BarBegun c c.bar.next12 c.barBegin ∧ c.barBegin.bar.dbDue = some 0 := by
  have hs := c.barBegun_barStartAt c.bar.next12
  have ht := Chip.sameTime_barTurn _ ((Chip.commitPages_congr hs.ctrls).trans hc)
  have e : c.barBegin = { (c.barStartAt c.bar.next12).barTurn with bar := { (c.barStartAt c.bar.next12).barTurn.bar with dbDue := some 0 } } := by
    unfold Chip.barBegin; simp [hb, hr, hw, hn, hcopy]
  rw [e]
  exact ⟨(hs.keep ht.sameBeat (by rw [ht.bar])).keep (SameBeat.withBar _ _) rfl, rfl⟩

/-! ### Beat starts (R13, R87) -/

/-- The generator's part of a beat start: COUNT stays, the beat is shown, and the next start is a beat later. -/
theorem Chip.beatStartAt_spec (c : Chip) (at12 : Nat) (hn : c.bar.nextBeat < 4) :
    let d := c.beatStartAt at12
    d.barCount = c.barCount ∧ d.get F.BAR_STATUS_BEAT = c.bar.nextBeat ∧
      d.bar = { c.bar with
        next12 := at12 + c.bar.beatLens.getD c.bar.nextBeat 0
        nextBeat := if c.bar.nextBeat + 1 ≥ c.bar.beatLens.length then 0 else c.bar.nextBeat + 1 } := by
  have hs := SameBeat.advanceTo c at12
  have hb : (c.advanceTo at12).bar = c.bar := c.ticks_bar _
  unfold Chip.beatStartAt
  dsimp only
  generalize c.advanceTo at12 = c1 at hs hb ⊢
  rw [hb]
  refine ⟨(Chip.get_set_ne _ _ _ _ (by decide)).trans (hs.trans (SameBeat.withBar c1 _)).count, ?_, rfl⟩
  exact (Chip.get_set _ _ _ (by decide) (by decide)).trans (Nat.mod_eq_of_lt hn)

/-- The generator reaches the start of a beat other than the first. -/
theorem Chip.beatBegin_spec (c : Chip) (hb : c.build = .S) (hr : c.bar.running = true) (hw : c.bar.waiting = false) (hn : c.bar.nextBeat ≠ 0)
    (h4 : c.bar.nextBeat < 4) (hcopy : c.copyingNow = false) :
    c.beatBegin.barCount = c.barCount ∧ c.beatBegin.get F.BAR_STATUS_BEAT = c.bar.nextBeat ∧
      c.beatBegin.bar.next12 = c.bar.next12 + c.bar.beatLens.getD c.bar.nextBeat 0 ∧ c.beatBegin.bar.dbDue = some c.bar.nextBeat := by
  obtain ⟨hcount, hbeat, hbar⟩ := c.beatStartAt_spec c.bar.next12 h4
  have ht := (c.beatStartAt c.bar.next12).sameTime_scanBeat c.bar.next12 ((c.beatStartAt c.bar.next12).bar.beatLens.getD c.bar.nextBeat 0)
  have e : c.beatBegin = { (c.beatStartAt c.bar.next12).scanBeat c.bar.next12 ((c.beatStartAt c.bar.next12).bar.beatLens.getD c.bar.nextBeat 0) with
      bar := { ((c.beatStartAt c.bar.next12).scanBeat c.bar.next12 ((c.beatStartAt c.bar.next12).bar.beatLens.getD c.bar.nextBeat 0)).bar with
        dbDue := some c.bar.nextBeat } } := by
    unfold Chip.beatBegin; simp [hb, hr, hw, hn, hcopy]
  rw [e]
  refine ⟨ht.sameBeat.count.trans hcount, ht.sameBeat.beat.trans hbeat, ?_, rfl⟩
  exact (congrArg BarSt.next12 ht.bar).trans (congrArg BarSt.next12 hbar)

/-! ### Launches (R94, R95, R100) -/

/-- With an empty queue, the test after a launch takes no entry and applies no commit. -/
theorem Chip.launchTest_none (c : Chip) (t : Nat) (bar : Bool) (h : c.launchQ = []) : (c.launchTest t).2.launchApply (c.launchTest t).1 bar = c := by
  have e : c.launchTest t = ([], { c with launchQ := [] }) := by unfold Chip.launchTest launchOrder; simp [h]
  rw [e]
  show ({ c with launchQ := [] } : Chip) = c
  rw [← h]

/-- The cells of a launch have gone, with an empty queue: of the generator, LAST_START takes the instant of a bar's launch, and MODE_CHANGE is told
once. -/
theorem Chip.launched_spec (c : Chip) (d : Downbeat) (t : Nat) (h : c.launchQ = []) :
    let e := c.launched d t
    e.launchQ = [] ∧ e.bar = { c.bar with modeNew := false } ∧ (∀ a ∈ barRegs, a ≠ F.BAR_LAST_START_TIME.addr → e.rd a = c.rd a) ∧
      (d.beat = 0 → e.get F.BAR_LAST_START_TIME = d.launchNs % 2 ^ 32) := by
  have key : ∀ c1 : Chip, c1.launchQ = [] →
      ∃ c2, SameRegs c1 c2 ∧ c2.launchQ = [] ∧ c2.bar = { c1.bar with modeNew := false } ∧
        (if c1.bar.modeNew then { c1 with bar := { c1.bar with modeNew := false } }.raise E.MODE_CHANGE else c1) = c2 := by
    intro c1 h1
    refine ⟨_, ?_, ?_, ?_, rfl⟩ <;> split
    · exact (SameRegs.trans (d := { c1 with bar := { c1.bar with modeNew := false } }) ⟨rfl, rfl, fun _ _ => rfl⟩ (SameTime.raise _ _).toSameRegs)
    · exact SameRegs.refl c1
    · exact (SameTime.raise _ _).launchQ.trans h1
    · exact h1
    · simp
    · rename_i hm
      cases hb : c1.bar; simp_all
  obtain ⟨c2, hs, hq, hbar, e2⟩ := key (if d.beat = 0 then c.set F.BAR_LAST_START_TIME d.launchNs else c) (by split <;> exact h)
  have e : c.launched d t = c2 := by
    unfold Chip.launched
    simp only [e2]
    exact c2.launchTest_none t _ hq
  rw [e]
  refine ⟨hq, ?_, fun a ha hne => ?_, fun h0 => ?_⟩
  · rw [hbar]; split <;> rfl
  · rw [hs.rd a ha]
    split
    · exact Chip.rd_set_ne _ _ _ _ hne
    · rfl
  · rw [hs.get _ (by decide), if_pos h0]
    exact Chip.get_set _ _ _ (by decide) (by decide)

/-- The launch of the bar or beat that has started, with an empty queue: nothing stays due, and LAST_START of a bar is its instant. -/
theorem Chip.downbeatLaunch_spec (c : Chip) (b : Nat) (hd : c.bar.dbDue = some b) (hq : c.launchQ = []) :
    let t := c.downbeatLaunch
    t.bar.dbDue = none ∧ t.launchQ = [] ∧ (c.get F.BAR_STATUS_BEAT = 0 → t.get F.BAR_LAST_START_TIME = c.timeNs) := by
  have h0 : SameBeat c ({ c with bar := { c.bar with dbDue := none } } : Chip) := SameBeat.withBar c _
  have h1 := Chip.sameTime_activeRise { c with bar := { c.bar with dbDue := none } }
  unfold Chip.downbeatLaunch
  rw [hd]
  dsimp only
  generalize ({ c with bar := { c.bar with dbDue := none } } : Chip).activeRise = c1 at h1 ⊢
  generalize hdb : c1.downbeatNow (if c1.follower = true then c1.bar.followDelay else 0) c1.timeNs = db
  have h2 := h1.trans (((c1.sameTime_launchTiles db).trans (Chip.sameTime_launchStack _ db)).trans (Chip.sameTime_beatFrame _ db))
  obtain ⟨hl, hb, -, hs⟩ := Chip.launched_spec _ db c1.timeNs (h2.launchQ.trans hq)
  refine ⟨?_, hl, fun hbeat => ?_⟩
  · rw [hb, h2.bar]
  · have htime : c1.timeNs = c.timeNs := by unfold Chip.timeNs Chip.time64 Chip.ext28; rw [h1.time]
    have hbeat1 : db.beat = 0 := by rw [← hdb]; exact h1.sameBeat.beat.trans hbeat
    rw [hs hbeat1, ← hdb]
    show c1.timeNs % 2 ^ 32 = c.timeNs
    rw [htime]
    exact Nat.mod_mod _ _

end Sys2Proof.Machine
end

