-- ==== Sys2Proof/Proofs/ModeChange.lean ====
section
/-! PROOF. The apply point of MODE_SEL: the mode in use becomes the mode selected, and what the other pages' commits do leaves it (R38, R43, R86,
R183). -/

namespace Sys2Proof.Machine

/-! ### What stops reading at a mode change -/

theorem Chip.sameTime_setScanState (c : Chip) (st : Nat) : SameTime c (c.setScanState st) :=
  (SameTime.set_hi c (F.STATE.pg (scanPage 0)) st (by decide) (by decide)).trans (SameTime.set_hi _ (F.STATE.pg (scanPage 1)) st (by decide) (by decide))

theorem Chip.sameTime_scanHalt (c : Chip) (st : Nat) : SameTime c (c.scanHalt st) :=
  (((SameTime.setScan c _).trans (SameTime.set_hi _ F.SCAN_LAG_NS 0 (by decide) (by decide))).trans (SameTime.cond _ _ _)).trans
    (Chip.sameTime_setScanState _ st)

theorem Chip.sameTime_scanStop (c : Chip) (st : Nat) : SameTime c (c.scanStop st) :=
  ((SameTime.fold (fun c p => c.setPort p (c.port p).dropPixels) (List.range 16) (fun d p _ => SameTime.setPort d p _) c).trans
    (SameTime.setScan _ _)).trans (Chip.sameTime_scanHalt _ st)

theorem Chip.sameTime_scanModeChange (c : Chip) : SameTime c c.scanModeChange :=
  (SameTime.setScan c _).trans (SameTime.ite (Chip.sameTime_scanStop _ ssWait) (SameTime.refl _))

theorem Chip.sameTime_noteMixed (c : Chip) (x : CanvasSt) : SameTime c (c.noteMixed x) := by
  unfold Chip.noteMixed
  dsimp only
  split
  · exact SameTime.ite (SameTime.of_regs rfl rfl rfl rfl rfl) (SameTime.refl c)
  · exact SameTime.refl c

theorem Chip.sameTime_takeTask (c : Chip) (e : Nat) : SameTime c (c.takeTask e) := by
  unfold Chip.takeTask
  refine SameTime.ite (SameTime.refl c) ?_
  split
  · exact SameTime.refl c
  · rename_i b _
    split
    · exact SameTime.refl c
    · refine SameTime.trans (d := match c.canvas? b.seq with | some x => c.noteMixed x | none => c) ?_
        (((SameTime.setMap _ _).trans (SameTime.setMap _ _)).trans (SameTime.set_pg _ F.MAP_STATUS_ACTIVE e _ (by decide) (by decide)))
      split
      · exact c.sameTime_noteMixed _
      · exact SameTime.refl c

theorem Chip.sameTime_showWaits (c : Chip) : SameTime c c.showWaits :=
  (SameTime.set_hi c F.MAPCTL_STATUS_WAIT_BUF _ (by decide) (by decide)).trans (SameTime.set_hi _ F.MAPCTL_STATUS_WAIT_CHASE _ (by decide) (by decide))

theorem Chip.sameTime_assignTasks (c : Chip) : SameTime c c.assignTasks := SameTime.fold _ _ (fun d e _ => d.sameTime_takeTask e) c

theorem Chip.sameTime_keepCanvases (c : Chip) (l : List CanvasSt) : SameTime c (c.keepCanvases l) := by
  unfold Chip.keepCanvases
  exact (((SameTime.setMap c _).trans (SameTime.setMap _ _)).trans (Chip.sameTime_showWaits _)).trans (Chip.sameTime_assignTasks _)

theorem Chip.sameTime_mapModeChange (c : Chip) : SameTime c c.mapModeChange := (SameTime.setMap c _).trans (Chip.sameTime_keepCanvases _ _)

/-! ### Ports that restart -/

theorem Chip.sameTime_testOff (c : Chip) (p : Nat) : SameTime c (c.testOff p) := by
  unfold Chip.testOff
  refine (SameTime.setPort c p _).trans (SameTime.fold _ _ (fun d l hl => ?_) _)
  have ha : ((F.PORT_TEST_ERR1_LOCK.pg p).plus (8 * l)).addr = 0x0800A4 + 4096 * p + 8 * l := rfl
  have hl : l ≤ 2 := by simp at hl; omega
  exact SameTime.set_hi d _ 0 (by rw [ha]; omega) (by rw [ha]; omega)

theorem Chip.sameTime_bulkSettled (c : Chip) : SameTime c c.bulkSettled :=
  SameTime.ite (SameTime.set_hi c F.UPDATE_STATUS_BULK_BUSY 0 (by decide) (by decide)) (SameTime.refl c)

theorem Chip.sameTime_showReduced (c : Chip) (p : Nat) (b : Bool) : SameTime c (c.showReduced p b) :=
  (SameTime.set_pg c F.PORT_LINK_REDUCED p _ (by decide) (by decide)).trans
    (SameTime.ite (SameTime.wr _ 0x09004C _ (by decide) (by decide)) (SameTime.refl _))

theorem Chip.sameTime_endJobs (c : Chip) (p : Nat) : SameTime c (c.endJobs p) :=
  SameTime.ite (SameTime.of_regs rfl rfl rfl rfl rfl) (SameTime.refl c)

/-- A header field, other than those of PAGE_CTRL, of a port's page. -/
theorem SameTime.set_portHeader (c : Chip) (f : Fld) (p v : Nat) (h : f.addr % 4096 ≠ 4) : SameTime c (c.set (f.pg (portPage p)) v) :=
  SameTime.set_hi c _ v (by show 0x024000 ≤ f.addr + 4096 * (0x080 + p); omega) (by show (f.addr + 4096 * (0x080 + p)) % 4096 ≠ 4; omega)

theorem Chip.sameTime_setPortState (c : Chip) (p st : Nat) : SameTime c (c.setPortState p st) := by
  unfold Chip.setPortState
  refine SameTime.trans ?_ (SameTime.cond _ _ _)
  refine SameTime.trans ?_ (SameTime.ite (SameTime.refl _) ((SameTime.setPort _ p _).trans (Chip.sameTime_endJobs _ p)))
  refine SameTime.trans ?_ (SameTime.ite (SameTime.refl _) (SameTime.emit _ _))
  refine SameTime.trans ?_ (SameTime.set_portHeader _ F.RUNNING p _ (by decide))
  refine SameTime.trans ?_ (SameTime.set_portHeader _ F.FAULT p _ (by decide))
  refine SameTime.trans ?_ (SameTime.set_portHeader _ F.STATE p _ (by decide))
  exact SameTime.ite (SameTime.refl c) (c.sameTime_showReduced p _)

theorem SameTime.set_lane (c : Chip) (p l v : Nat) : SameTime c (c.set (laneFld p l) v) := by
  unfold laneFld
  split <;> exact SameTime.set_pg c _ p v (by decide) (by decide)

theorem Chip.sameTime_injectPattern (c : Chip) (p : Nat) : SameTime c (c.injectPattern p) :=
  SameTime.ite (SameTime.refl c) ((SameTime.set_pg c F.PORT_INJECT_ONCE p 0 (by decide) (by decide)).trans (SameTime.emit _ _))

theorem Chip.sameTime_showPatterns (c : Chip) (p : Nat) (was : List Nat) : SameTime c (c.showPatterns p was) :=
  (SameTime.fold _ [0, 1, 2] (fun d _ _ => SameTime.ite (SameTime.refl d) (SameTime.emit d _)) c).trans
    (SameTime.ite (Chip.sameTime_injectPattern _ p) (SameTime.refl _))

theorem Chip.sameTime_portRestart (c : Chip) (p : Nat) : SameTime c (c.portRestart p) := by
  unfold Chip.portRestart
  refine SameTime.trans ?_ (SameTime.ite (Chip.sameTime_lineBlocks _ p _) (Chip.sameTime_showPatterns _ p []))
  refine SameTime.trans ?_ (SameTime.fold _ [0, 1, 2] (fun d l _ => SameTime.set_lane d p l _) _)
  refine SameTime.trans ?_ (SameTime.set_pg _ F.PORT_LINK_RX_MAP p 0 (by decide) (by decide))
  refine SameTime.trans ?_ (SameTime.set_pg _ F.PORT_LINK_ALIGNED p 0 (by decide) (by decide))
  refine SameTime.trans ?_ (SameTime.set_pg _ F.PORT_LINK_CLK_OK p 0 (by decide) (by decide))
  refine SameTime.trans ?_ (Chip.sameTime_setPortState _ p _)
  refine SameTime.trans ?_ (Chip.sameTime_bulkSettled _)
  refine SameTime.trans ?_ (SameTime.setPort _ p _)
  exact (((c.sameTime_testOff p).trans (SameTime.openValue _ 31)).trans (SameTime.openValue _ 31)).trans (SameTime.openValue _ 31)

theorem Chip.sameTime_portModes (c : Chip) (old : List Nat) : SameTime c (c.portModes old) :=
  SameTime.fold _ (List.range 16) (fun d p _ => SameTime.ite (SameTime.refl d) (d.sameTime_portRestart p)) c

/-! ### The other tables -/

theorem Chip.sameTime_tileCommit (c : Chip) : SameTime c c.tileCommit := by
  unfold Chip.tileCommit
  refine SameTime.trans ?_ (SameTime.ite (SameTime.refl _) (SameTime.raise _ _))
  refine SameTime.trans ?_ (SameTime.set_hi _ F.TILETAB_STATUS_SKIP_FIRST _ (by decide) (by decide))
  refine SameTime.trans ?_ (SameTime.set_hi _ F.TILETAB_STATUS_SKIP_VALID _ (by decide) (by decide))
  exact (SameTime.setScan c _).trans (SameTime.set_hi _ F.TILETAB_STATUS_ENTRIES _ (by decide) (by decide))

/-! ### The registers of a mode change -/

/-- One block has the build, the MODE register and the page control word of BAR of another. -/
structure SameMode (c d : Chip) : Prop where
  build : d.build = c.build
  mode : d.rd F.BAR_MODE_MODE_SEL.addr = c.rd F.BAR_MODE_MODE_SEL.addr
  ctrl : d.rd (F.COMMIT.pg 0x022).addr = c.rd (F.COMMIT.pg 0x022).addr

theorem SameTime.sameMode {c d : Chip} (h : SameTime c d) : SameMode c d := ⟨h.build, h.rd _ (by decide), h.rd _ (by decide)⟩
theorem SameMode.trans {c d e : Chip} (h : SameMode c d) (k : SameMode d e) : SameMode c e :=
  ⟨k.build.trans h.build, k.mode.trans h.mode, k.ctrl.trans h.ctrl⟩
theorem SameMode.refl (c : Chip) : SameMode c c := ⟨rfl, rfl, rfl⟩

theorem SameMode.withBar (c : Chip) (b : BarSt) : SameMode c { c with bar := b } := ⟨rfl, rfl, rfl⟩

theorem SameMode.set (c : Chip) (f : Fld) (v : Nat) (h1 : F.BAR_MODE_MODE_SEL.addr ≠ f.addr) (h2 : (F.COMMIT.pg 0x022).addr ≠ f.addr) :
    SameMode c (c.set f v) := ⟨rfl, Chip.rd_set_ne _ _ _ _ h1, Chip.rd_set_ne _ _ _ _ h2⟩

theorem Chip.sameMode_latticeEntry (c : Chip) : SameMode c c.latticeEntry := by
  have h : SameMode c c.masterMismatch := by
    unfold Chip.masterMismatch
    split
    · exact (SameTime.raise c _).sameMode
    · exact SameMode.refl c
  unfold Chip.latticeEntry
  refine SameMode.trans ?_ (SameMode.set _ F.BAR_STATUS_SRC_IN_USE _ (by decide) (by decide))
  exact (((h.trans (SameMode.withBar _ _)).trans (SameMode.withBar _ _)).trans (SameMode.withBar _ _))

theorem Chip.mode_of_rd {c d : Chip} (h : SameMode c d) : d.mode = c.mode := by unfold Chip.mode Chip.get; exact congrArg (fun w => bitsOf w 20 16) h.mode

/-! ### Commits of one page -/

/-- The mode in use is the one selected, `m`, of the table, and no commit of BAR is pending. -/
structure ModeSettled (m : Nat) (c : Chip) : Prop where
  build : c.build = .S
  lt : m < 24
  mode : c.mode = m
  sel : c.get F.BAR_MODE_MODE_SEL = m
  commit : c.get (F.COMMIT.pg 0x022) = 0

theorem ModeSettled.keep {m : Nat} {c d : Chip} (h : ModeSettled m c) (k : SameMode c d) : ModeSettled m d where
  build := k.build.trans h.build
  lt := h.lt
  mode := (Chip.mode_of_rd k).trans h.mode
  sel := by rw [← h.sel]; unfold Chip.get; rw [k.mode]
  commit := by rw [← h.commit]; unfold Chip.get; rw [k.ctrl]

/-- The shadowed register of BAR is MODE. -/
theorem Chip.takeShadows_bar (c : Chip) (hb : c.build = .S) :
    c.takeShadows 0x022 = { c with inUse := smSet c.inUse F.BAR_MODE_MODE_SEL.addr (c.rd F.BAR_MODE_MODE_SEL.addr) } := by
  have h : ∃ p, findPage .S 0x022 = some p ∧ (p.regs.filter (fun r => r.shadowed && r.inS)).flatMap RegDef.offsets = [0x040] := by decide +kernel
  obtain ⟨p, hp, ho⟩ := h
  unfold Chip.takeShadows
  rw [hb]
  simp only [hp, ho]
  rfl

/-- With MODE_SEL in use, the commit of BAR has nothing to change where the mode in use is already that mode. -/
theorem Chip.modeCommit_same (c : Chip) (m : Nat) (hm : m < 24) (hu : c.use F.BAR_MODE_MODE_SEL = m) (hi : c.mode = m) : c.modeCommit = c := by
  unfold Chip.modeCommit
  have : ¬ 24 ≤ m := by omega
  simp [hu, this, hi]

/-- The commit of BAR before its change of mode: MODE in use, and COMMIT back at 0. -/
def Chip.barCommitted (c : Chip) : Chip := (c.takeShadows 0x022).set (F.COMMIT.pg 0x022) 0

theorem Chip.applyPage_bar (c : Chip) (hb : c.build = .S) : c.applyPage 0x022 = c.barCommitted.modeCommit := by
  have hb2 : c.barCommitted.build = .S := by
    unfold Chip.barCommitted; rw [c.takeShadows_bar hb]; exact hb
  unfold Chip.applyPage
  show (match c.barCommitted.build with | .S => _ | .T => _) = _
  rw [hb2]
  rfl

theorem Chip.barCommitted_use (c : Chip) (hb : c.build = .S) : c.barCommitted.use F.BAR_MODE_MODE_SEL = c.get F.BAR_MODE_MODE_SEL := by
  unfold Chip.barCommitted; rw [c.takeShadows_bar hb]
  unfold Chip.use Chip.rdUse Chip.get
  simp only [Chip.set_inUse, smFind_smSet, if_true, Option.getD_some]

theorem Chip.barCommitted_mode (c : Chip) (hb : c.build = .S) : c.barCommitted.rd F.BAR_MODE_MODE_SEL.addr = c.rd F.BAR_MODE_MODE_SEL.addr := by
  unfold Chip.barCommitted; rw [c.takeShadows_bar hb]
  exact Chip.rd_set_ne _ _ _ _ (by decide)

theorem Chip.barCommitted_commit (c : Chip) : c.barCommitted.get (F.COMMIT.pg 0x022) = 0 :=
  Chip.get_set _ _ _ (by decide) (by decide)

theorem Chip.barCommitted_bar (c : Chip) (hb : c.build = .S) : c.barCommitted.bar = c.bar := by
  unfold Chip.barCommitted; rw [c.takeShadows_bar hb]; rfl

theorem Chip.barCommitted_follower (c : Chip) (hb : c.build = .S) : c.barCommitted.follower = c.follower := by
  unfold Chip.barCommitted; rw [c.takeShadows_bar hb]
  unfold Chip.follower Chip.pairFollower Chip.isMaster Chip.stackPos Chip.en Chip.on Chip.state
  rw [Chip.get_set_ne _ _ F.DEVICE_STRAPS_STACK_POS _ (by decide), Chip.get_set_ne _ _ (F.EN.pg 0x0C0) _ (by decide),
    Chip.get_set_ne _ _ (F.STATE.pg 0x0C0) _ (by decide)]
  rfl

/-- The commit of MODE_SEL, at a unit that copies no other: the mode in use becomes the one selected. -/
theorem Chip.applyPage_bar_settles (c : Chip) (hb : c.build = .S) (hm : c.get F.BAR_MODE_MODE_SEL < 24) (hf : c.bar.copying = false ∨ c.follower = false) :
    ModeSettled (c.get F.BAR_MODE_MODE_SEL) (c.applyPage 0x022) := by
  rw [c.applyPage_bar hb]
  have hbuild : c.barCommitted.build = .S := by unfold Chip.barCommitted; rw [c.takeShadows_bar hb]; exact hb
  have huse := c.barCommitted_use hb
  have hsel : c.barCommitted.get F.BAR_MODE_MODE_SEL = c.get F.BAR_MODE_MODE_SEL := by unfold Chip.get; rw [c.barCommitted_mode hb]
  have hcommit := c.barCommitted_commit
  have hcopy : (c.barCommitted.follower && c.barCommitted.bar.running && c.barCommitted.bar.copying) = false := by
    rw [c.barCommitted_follower hb, c.barCommitted_bar hb]
    rcases hf with h | h <;> simp [h]
  generalize c.get F.BAR_MODE_MODE_SEL = m at *
  generalize c.barCommitted = d at *
  by_cases hsame : d.mode = m
  · rw [d.modeCommit_same m hm huse hsame]
    exact ⟨hbuild, hm, hsame, hsel, hcommit⟩
  · have hset : ModeSettled m (d.set F.BAR_MODE_MODE_IN_USE m) :=
      ⟨hbuild, hm, (Chip.get_set _ _ _ (by decide) (by decide)).trans (Nat.mod_eq_of_lt (by show m < 32; omega)),
        (Chip.get_set_field _ _ _ _ (by decide) (by decide) (by decide) (by decide)).trans hsel, (Chip.get_set_ne _ _ _ _ (by decide)).trans hcommit⟩
    have e : d.modeCommit = if (d.set F.BAR_MODE_MODE_IN_USE m).bar.running then
        { (((d.set F.BAR_MODE_MODE_IN_USE m).scanModeChange).mapModeChange).latticeEntry with
          bar := { (((d.set F.BAR_MODE_MODE_IN_USE m).scanModeChange).mapModeChange).latticeEntry.bar with modeNew := true } }
        else d.set F.BAR_MODE_MODE_IN_USE m := by
      have h24 : ¬ 24 ≤ m := by omega
      have hne : ¬ m = d.mode := fun h => hsame h.symm
      unfold Chip.modeCommit
      simp only [huse, h24, if_false, hcopy, hne, decide_false, Bool.or_self, Bool.false_eq_true]
    rw [e]
    split
    · exact hset.keep (((((Chip.sameTime_scanModeChange _).trans (Chip.sameTime_mapModeChange _)).sameMode).trans (Chip.sameMode_latticeEntry _)).trans
        (SameMode.withBar _ _))
    · exact hset

/-- A commit of any page leaves a settled mode settled. -/
theorem ModeSettled.applyPage {m : Nat} {c : Chip} (h : ModeSettled m c) (pg : Nat) : ModeSettled m (c.applyPage pg) := by
  by_cases hpg : pg = 0x022
  · subst hpg
    have hm : c.get F.BAR_MODE_MODE_SEL = m := h.sel
    have hi : c.barCommitted.mode = m := by
      rw [← h.mode]; unfold Chip.mode Chip.get; exact congrArg (fun w => bitsOf w 20 16) (c.barCommitted_mode h.build)
    rw [c.applyPage_bar h.build, Chip.modeCommit_same _ m h.lt ((c.barCommitted_use h.build).trans hm) hi]
    refine ⟨?_, h.lt, hi, ?_, c.barCommitted_commit⟩
    · unfold Chip.barCommitted; rw [c.takeShadows_bar h.build]; exact h.build
    · rw [← hm]; unfold Chip.get; rw [c.barCommitted_mode h.build]
  · have h0 : SameMode c (c.takeShadows pg) := by
      unfold Chip.takeShadows
      split
      · exact SameMode.refl c
      · exact ⟨rfl, rfl, rfl⟩
    have hk : (F.COMMIT.pg pg).addr = 4 + 4096 * pg := rfl
    have h1 : ModeSettled m ((c.takeShadows pg).set (F.COMMIT.pg pg) 0) :=
      h.keep (h0.trans (SameMode.set _ _ _ (by rw [hk]; show 0x022040 ≠ _; omega) (by rw [hk]; show 4 + 4096 * 0x022 ≠ _; omega)))
    unfold Chip.applyPage
    generalize (c.takeShadows pg).set (F.COMMIT.pg pg) 0 = d at h1 ⊢
    simp only [h1.build, hpg, if_false]
    split
    · exact h1.keep (SameTime.setMap d _).sameMode
    · split
      · exact h1.keep d.sameTime_tileCommit.sameMode
      · split
        · exact h1.keep (d.sameTime_portModes _).sameMode
        · exact h1

theorem ModeSettled.settle {m : Nat} {c : Chip} (h : ModeSettled m c) : ModeSettled m c.settle := by
  unfold Chip.settle
  generalize c.commitPages = l
  induction l generalizing c with
  | nil => exact h
  | cons pg t ih =>
    refine ih (c := if c.refRuns (pageRef c.build pg) then c else c.applyPage pg) ?_
    split
    · exact h
    · exact h.applyPage pg

/-- A pending commit of MODE_SEL at its apply point. -/
theorem Chip.modeApply_settles (c : Chip) (hb : c.build = .S) (hc : c.commitReady 0x022 = true) (hm : c.get F.BAR_MODE_MODE_SEL < 24)
    (hf : c.bar.copying = false ∨ c.follower = false) : ModeSettled (c.get F.BAR_MODE_MODE_SEL) c.modeApply := by
  unfold Chip.modeApply
  simp only [hb, hc, decide_true, Bool.and_self, if_true]
  exact (c.applyPage_bar_settles hb hm hf).settle

/-- Settles O21: the bar and beat starts by what the generator's part shows and what the rest of a start leaves alone, the mode change by an
invariant that every commit keeps. -/
theorem barsAndBeats : Obligations.BarsAndBeats := by
  intro s hr hb
  refine ⟨fun hc hrun hwait hcopy => ⟨fun hn => ?_, fun hn h4 => ?_, fun hd hq => ?_⟩, fun hc hm hf => ?_⟩
  · obtain ⟨h, hdue⟩ := s.chip.barBegin_spec hb hc.1 hrun hwait hn hcopy
    exact Completes.live Chip.barBegin rfl hr ⟨h.count, h.beat, h.start, hdue⟩
  · exact Completes.live Chip.beatBegin rfl hr (s.chip.beatBegin_spec hb hrun hwait hn h4 hcopy)
  · refine Completes.live (fun c => c.inS Chip.downbeatLaunch) rfl hr ?_
    have e : s.chip.inS Chip.downbeatLaunch = s.chip.downbeatLaunch := by unfold Chip.inS Chip.when; simp [hb]
    rw [e]
    exact s.chip.downbeatLaunch_spec _ hd hq
  · have h := s.chip.modeApply_settles hb hc hm hf
    exact Completes.live Chip.modeApply rfl hr ⟨h.mode, h.commit⟩

end Sys2Proof.Machine
end

