-- ==== Sys2Proof/Proofs/Followers.lean ====
section
/-! PROOF. ECHO requests and followers: requests out and failed, downbeats copied and missed (R101, R107 to R109, R203). -/

namespace Sys2Proof.Machine

/-! ### What an event can write -/

/-- A relation between blocks that every write of an event's report keeps: its pending bit, the MSI-X pending bits and the counts of lost reports,
what is sent, the event queue, ALERT_N, and MONITOR cells. -/
structure ReportRel (R : Chip → Chip → Prop) : Prop where
  refl : ∀ c, R c c
  trans : ∀ {c d e}, R c d → R d e → R c e
  wr : ∀ c a w, a % 4096 = 0x18 ∨ a ∈ [F.USB4_PBA.addr, F.ECC_EVQ_LOST.addr, F.CHAINCTL_MON_LOST_COUNT.addr] → R c (c.wr a w)
  emit : ∀ c o, R c (c.emit o)
  evq : ∀ (c : Chip) q, R c { c with evq := q }
  evqExtra : ∀ (c : Chip) x, R c { c with evqExtra := x }
  host : ∀ (c : Chip) h, R c { c with host := h }
  monitor : ∀ (c : Chip) p s, s.echoOut = (c.port p).echoOut → s.echoMeas = (c.port p).echoMeas → R c (c.setPort p s)

section
variable {R : Chip → Chip → Prop}

theorem ReportRel.ite (_ : ReportRel R) {c d e : Chip} {p : Prop} [Decidable p] (hd : R c d) (he : R c e) : R c (if p then d else e) := by
  split
  · exact hd
  · exact he

variable (h : ReportRel R)
include h

theorem ReportRel.sendMsix (c : Chip) (v : Nat) : R c (c.sendMsix v) := h.ite (h.wr c _ _ (by decide)) (h.emit c _)

theorem ReportRel.alertFall (c : Chip) : R c c.alertFall := h.ite (h.trans (h.host c _) (h.emit _ _)) (h.refl c)

theorem ReportRel.queueMonitor (c : Chip) (x : Nat) : R c (c.queueMonitor x) := by
  unfold Chip.queueMonitor
  refine h.trans (h.monitor c 0 _ ?_ ?_) (foldl_rel R h.refl h.trans (fun c => c) _ _ (fun d p _ => h.monitor d p _ ?_ ?_) _) <;> rfl

theorem ReportRel.monitorEvent (c : Chip) (e : Ev) : R c (c.monitorEvent e) := by
  unfold Chip.monitorEvent
  split
  · exact h.refl c
  · exact h.ite (h.queueMonitor c _) (h.wr c _ _ (by decide))

theorem ReportRel.raiseWith (push : Chip → EvRec → Chip) (hp : ∀ c r, R c (push c r)) (c : Chip) (e : Ev) : R c (Chip.raiseWith push c e) := by
  unfold Chip.raiseWith
  refine h.ite (h.refl c) ?_
  refine h.trans ?_ (h.alertFall _)
  refine h.trans ?_ (h.monitorEvent _ e)
  refine h.trans ?_ (hp _ _)
  exact h.trans (h.wr c _ _ (Or.inl (by omega))) (h.ite (h.sendMsix _ _) (h.refl _))

theorem ReportRel.evqKeep (c : Chip) (r : EvRec) : R c (c.evqKeep r) := by
  unfold Chip.evqKeep
  split
  · exact h.evqExtra c _
  · exact h.wr c _ _ (by decide)

theorem ReportRel.evqLose (c : Chip) : R c c.evqLose := h.trans (h.wr c _ _ (by decide)) (h.raiseWith _ h.evqKeep _ E.EVQ_LOST)

theorem ReportRel.pushEv (c : Chip) (r : EvRec) : R c (c.pushEv r) :=
  h.ite (h.evqKeep c r) (h.ite (h.evq c _) (h.ite (h.trans (h.evq c _) (h.evqLose _)) (h.evqLose c)))

/-- An event keeps it. -/
theorem ReportRel.raise (c : Chip) (e : Ev) : R c (c.raise e) := h.raiseWith _ h.pushEv c e

end

/-! ### Present states of condition events (R44) -/

/-- The registers of present states read the same. -/
def SameRaw (c d : Chip) : Prop := ∀ a, a % 4096 = 0x10 → d.rd a = c.rd a

theorem reportRel_sameRaw : ReportRel SameRaw where
  refl _ _ _ := rfl
  trans h k a ha := (k a ha).trans (h a ha)
  wr c a w hw b hb := by
    rw [Chip.rd_wr, if_neg]
    rintro rfl
    rcases hw with h18 | hmem
    · omega
    · have : ∀ x ∈ [F.USB4_PBA.addr, F.ECC_EVQ_LOST.addr, F.CHAINCTL_MON_LOST_COUNT.addr], x % 4096 ≠ 0x10 := by decide
      exact this _ hmem hb
  emit c o a _ := c.emit_rd o a
  evq _ _ _ _ := rfl
  evqExtra _ _ _ _ := rfl
  host _ _ _ _ := rfl
  monitor _ _ _ _ _ _ _ := rfl

/-- A condition that holds is shown. -/
theorem Chip.cond_raw (c : Chip) (e : Ev) (hb : e.bit < 32) : (c.cond e true).raw e = true := by
  by_cases hw : c.raw e = true
  · unfold Chip.cond; simp [hw]
  · have hw : c.raw e = false := by simpa using hw
    have hk := reportRel_sameRaw.raise (c.wr (e.page * 4096 + 0x10) (c.rd (e.page * 4096 + 0x10) ||| ((1 : Word) <<< e.bit))) e
      (e.page * 4096 + 0x10) (by omega)
    unfold Chip.cond
    simp only [hw, Bool.false_eq_true, if_false, if_true, Bool.not_false, Bool.and_self]
    unfold Chip.raw
    rw [hk, Chip.rd_wr, if_pos rfl]
    simp [hb]

/-! ### ECHO (R101, R203) -/

@[simp] theorem Chip.port_setPort (c : Chip) (p q : Nat) (s : PortSt) : (c.setPort p s).port q = if q = p then s else c.port q :=
  smGet_smSet PortSt.init c.ports p q s

/-- Requests that are out and measurements are those of another block. -/
def SameEcho (c d : Chip) : Prop := ∀ q, (d.port q).echoOut = (c.port q).echoOut ∧ (d.port q).echoMeas = (c.port q).echoMeas

theorem reportRel_sameEcho : ReportRel SameEcho where
  refl _ _ := ⟨rfl, rfl⟩
  trans h k q := ⟨(k q).1.trans (h q).1, (k q).2.trans (h q).2⟩
  wr _ _ _ _ _ := ⟨rfl, rfl⟩
  emit c o q := by unfold Chip.emit; split <;> exact ⟨rfl, rfl⟩
  evq _ _ _ := ⟨rfl, rfl⟩
  evqExtra _ _ _ := ⟨rfl, rfl⟩
  host _ _ _ := ⟨rfl, rfl⟩
  monitor c p s ho hm q := by
    rw [Chip.port_setPort]
    split
    · rename_i e; rw [e]; exact ⟨ho, hm⟩
    · exact ⟨rfl, rfl⟩

/-- The next SEQ of a chain changes nothing of ECHO. -/
theorem Chip.withSeq_echo (c : Chip) (p cell q : Nat) :
    ((c.withSeq p cell).2.port q).echoOut = (c.port q).echoOut ∧ ((c.withSeq p cell).2.port q).echoSeq = (c.port q).echoSeq := by
  unfold Chip.withSeq
  dsimp only
  rw [Chip.port_setPort]
  split
  · rename_i e; rw [e]; exact ⟨rfl, rfl⟩
  · exact ⟨rfl, rfl⟩

/-- A request on an enabled port is out under the next sequence number. -/
theorem Chip.echoSend_spec (c : Chip) (p : Nat) (h : c.portEnabled p = true) :
    ((c.echoSend p).port p).echoOut = (c.port p).echoOut ++ [(c.port p).echoSeq] ∧
      ((c.echoSend p).port p).echoSeq = ((c.port p).echoSeq + 1) % 256 := by
  obtain ⟨ho, hs⟩ := Chip.withSeq_echo
    (c.setPort p { c.port p with echoOut := (c.port p).echoOut ++ [(c.port p).echoSeq], echoSeq := ((c.port p).echoSeq + 1) % 256 }) p
    (mkEcho 0 (c.port p).echoSeq false) p
  rw [Chip.port_setPort, if_pos rfl] at ho hs
  unfold Chip.echoSend
  simp only [h, Bool.not_true, Bool.false_eq_true, if_false, Chip.port_setPort, if_true]
  split
  · exact ⟨ho, hs⟩
  · exact ⟨ho, hs⟩

/-- A field of one bit is that bit. -/
theorem bitsOf_bit (w : Word) (k : Nat) : bitsOf w k k = (w.getLsbD k).toNat := by
  unfold bitsOf BitVec.getLsbD
  rw [Nat.toNat_testBit, Nat.add_sub_cancel_left, Nat.pow_one]

/-- A cause is shown, whether it is enabled or not. -/
theorem Chip.cause_echoFail (c : Chip) (p : Nat) (hp : p < 16) : (c.cause p cEchoFail).get (F.PORT_CAUSE_ECHO_FAIL.pg p) = 1 := by
  have ha : (F.PORT_CAUSE_ECHO_FAIL.pg p).addr = 0x080068 + 4096 * p := rfl
  have hq : quietReg (0x080068 + 4096 * p) = true := by
    rw [quietReg_iff]
    refine ⟨Or.inr (by omega), ?_, ?_, ?_, ?_, ?_⟩
    · show _ ≠ 0x048C00; omega
    · show _ ≠ 0x0D804C; omega
    · show _ ≠ 0x090078; omega
    · show _ ≠ 0x00005C; omega
    · show _ ≠ 0x000058; omega
  have hbit : ∀ w : Word, bitsOf (w ||| ((1 : Word) <<< cEchoFail)) 12 12 = 1 := by
    intro w
    rw [bitsOf_bit]
    simp [cEchoFail]
  have hset : (c.wr (0x080068 + 4096 * p) (c.rd (0x080068 + 4096 * p) ||| ((1 : Word) <<< cEchoFail))).get (F.PORT_CAUSE_ECHO_FAIL.pg p) = 1 := by
    unfold Chip.get
    rw [ha, Chip.rd_wr, if_pos rfl]
    exact hbit _
  unfold Chip.cause
  dsimp only
  split
  · rw [Chip.raise_get _ _ _ (by rw [ha]; exact hq)]
    exact hset
  · exact hset

theorem Chip.cause_sameEcho (c : Chip) (p bit : Nat) : SameEcho c (c.cause p bit) := by
  unfold Chip.cause
  dsimp only
  split
  · exact reportRel_sameEcho.trans (d := c.wr _ _) (fun _ => ⟨rfl, rfl⟩) (reportRel_sameEcho.raise _ _)
  · exact fun _ => ⟨rfl, rfl⟩

/-! ### Missed downbeats (R109) -/

theorem Chip.follower_of_stack (c : Chip) (hm : c.isMaster = false) (hs : c.bar.sel = 3) : c.follower = true := by
  unfold Chip.follower; simp [hm, hs]

theorem Chip.pairFollower_of_follower (c : Chip) (hm : c.isMaster = false) : c.pairFollower = false := by unfold Chip.pairFollower; simp [hm]

/-- The lock of the stack is lost with a missed bar downbeat. -/
theorem Chip.stackMissed_lock (c : Chip) : c.stackMissed.on F.STACK_STATUS_LOCK = false := by
  have h0 : ∀ d : Chip, (d.set F.STACK_STATUS_LOCK 0).get F.STACK_STATUS_LOCK = 0 := fun d => Chip.get_set _ _ _ (by decide) (by decide)
  have hb : ∀ (d : Chip) (b : Bool), (d.setBarLock b).get F.STACK_STATUS_LOCK = d.get F.STACK_STATUS_LOCK := fun d b =>
    ((Chip.quiet_cond _ _ _).get _ (by decide)).trans (Chip.get_set_ne _ _ _ _ (by decide))
  have key : c.stackMissed.get F.STACK_STATUS_LOCK = 0 := by
    unfold Chip.stackMissed
    dsimp only
    split
    · split
      · rw [(Chip.quiet_cond _ _ _).get _ (by decide), Chip.get_set_ne _ _ _ _ (by decide)]
        exact (hb _ _).trans (h0 _)
      · rw [(Chip.quiet_cond _ _ _).get _ (by decide)]
        exact (hb _ _).trans (h0 _)
    · exact h0 _
  unfold Chip.on
  rw [key]
  rfl

/-- The third bar downbeat missed in a row raises STACK_LOST and clears LOCK. -/
theorem Chip.stackMissed_third (c : Chip) (hm : c.isMaster = false) (hs : c.bar.sel = 3) (h2 : 2 ≤ c.bar.masterMiss) :
    c.stackMissed.raw E.STACK_LOST = true ∧ c.stackMissed.on F.BAR_STATUS_LOCK = false := by
  obtain ⟨d, hd, hdm, hds, hdn⟩ : ∃ d : Chip, d = { c with bar := { c.bar with masterMiss := c.bar.masterMiss + 1, copying := false } }.set F.STACK_STATUS_LOCK 0 ∧
      d.isMaster = false ∧ d.bar.sel = 3 ∧ d.bar.masterMiss = c.bar.masterMiss + 1 := by
    refine ⟨_, rfl, ?_, hs, rfl⟩
    rw [← hm]; unfold Chip.isMaster Chip.stackPos
    rw [Chip.get_set_ne _ _ _ _ (by decide)]; rfl
  have hlock : d.barLocked = false := by
    have hlt : ¬ d.bar.masterMiss < 3 := by omega
    unfold Chip.barLocked; rw [d.follower_of_stack hdm hds]; simp [hlt]
  have hpair : d.showBarLock.pairFollower = false := by
    refine Chip.pairFollower_of_follower _ ?_
    rw [← hdm]; unfold Chip.isMaster Chip.stackPos Chip.showBarLock Chip.setBarLock
    rw [(Chip.quiet_cond _ _ _).get _ (by decide), Chip.get_set_ne _ _ _ _ (by decide)]
  have e : c.stackMissed = d.showBarLock.cond E.STACK_LOST true := by
    have h3 : 3 ≤ c.bar.masterMiss + 1 := by omega
    unfold Chip.stackMissed
    simp only [ge_iff_le, h3, if_true, ← hd, hpair, Bool.false_eq_true, if_false]
  rw [e]
  refine ⟨Chip.cond_raw _ _ (by decide), ?_⟩
  have hget : d.showBarLock.get F.BAR_STATUS_LOCK = 0 := by
    unfold Chip.showBarLock Chip.setBarLock
    rw [hlock, (Chip.quiet_cond _ _ _).get _ (by decide), Chip.get_set _ _ _ (by decide) (by decide)]
    rfl
  unfold Chip.on
  rw [(Chip.quiet_cond _ _ _).get _ (by decide), hget]
  rfl

/-- A follower whose SRC stays with the stack keeps its count of misses through the change of source at a bar start. -/
theorem Chip.sourceChange_follower (c : Chip) (at12 : Nat) (hm : c.isMaster = false) (hs : c.get F.BAR_SRC_SRC = 3) :
    (c.sourceChange at12).bar.masterMiss = c.bar.masterMiss ∧ (c.sourceChange at12).bar.everCopied = c.bar.everCopied := by
  have h1 : c.masterMismatch = c := by unfold Chip.masterMismatch; simp [hm]
  obtain ⟨d, hd, hdb⟩ : ∃ d : Chip, c.takeSrc.forgetLoss = d ∧ d.bar.masterMiss = c.bar.masterMiss ∧ d.bar.everCopied = c.bar.everCopied := by
    refine ⟨_, rfl, ?_⟩
    have hf : (if c.takeSrc.refUsed then c.takeSrc else
        { c.takeSrc with bar := { c.takeSrc.bar with refLost := false, refMiss := 0, refGood := 0, refPrev12 := none } }).follower = true := by
      split <;> exact Chip.follower_of_stack _ hm hs
    unfold Chip.forgetLoss
    simp only [hf, Bool.true_or, if_true]
    split <;> exact ⟨rfl, rfl⟩
  unfold Chip.sourceChange
  rw [h1, hd]
  dsimp only
  generalize d.wantedSrc = src
  split
  · exact hdb
  · rw [Chip.set_bar]
    match src with
    | 0 => exact hdb
    | 1 => exact hdb
    | 2 => by_cases hg : 3 ≤ d.bar.refGood <;> simp [hg, hdb]
    | 3 => exact hdb
    | n + 4 => exact hdb

end Sys2Proof.Machine
end

