-- ==== Sys2Proof/Proofs/CopiedDownbeats.lean ====
section
/-! PROOF. A follower copies the downbeats of its master, and goes on by itself where one does not come (R107 to R109). -/

namespace Sys2Proof.Machine

/-! ### A downbeat that does not come (R109) -/

/-- The bar that a follower begins by itself leaves its count of misses to the miss alone. -/
theorem Chip.barStartAt_masterMiss (c : Chip) (at12 : Nat) (hm : c.isMaster = false) (hs : c.get F.BAR_SRC_SRC = 3) (he : c.bar.everCopied = true) :
    (c.barStartAt at12).bar.masterMiss = c.bar.masterMiss := by
  obtain ⟨h1, h2⟩ := Chip.sourceChange_follower (c.advanceTo at12) at12 ((congrArg (fun n => decide (n = 0)) (c.ticks_get _ _)).trans hm)
    ((c.ticks_get _ _).trans hs)
  have hb : (c.advanceTo at12).bar = c.bar := c.ticks_bar _
  rw [hb] at h1 h2
  unfold Chip.barStartAt
  dsimp only
  generalize (c.advanceTo at12).sourceChange at12 = c1 at h1 h2 ⊢
  simp only [Chip.showBarLock_bar, Chip.setSlewing_bar, Chip.set_bar, Chip.bump, h2, he, Bool.not_true, Bool.and_false, Bool.false_eq_true, if_false]
  split
  · exact h1
  · simp only [Chip.showBarLock_bar, Chip.setSlewing_bar, Chip.set_bar]
    exact h1

/-- A follower that no longer copies counts the bar downbeat it misses. -/
theorem Chip.missDownbeat_alone (c : Chip) (hb : c.build = .S) (hm : c.isMaster = false) (hs : c.bar.sel = 3) (hr : c.bar.running = true)
    (he : c.bar.everCopied = true) (hcopy : c.bar.copying = false) (h0 : c.get F.BAR_STATUS_BEAT = 0) : c.missDownbeat = c.stackMissed := by
  unfold Chip.missDownbeat
  simp [hb, c.follower_of_stack hm hs, hr, he, hcopy, h0]

/-- A follower that misses the bar downbeat it was to copy begins the bar by itself, and copies no more. -/
theorem Chip.missDownbeat_copying (c : Chip) (hb : c.build = .S) (hc : c.commitPages = []) (hm : c.isMaster = false) (hs : c.bar.sel = 3)
    (hr : c.bar.running = true) (he : c.bar.everCopied = true) (hcopy : c.bar.copying = true) (hsrc : c.get F.BAR_SRC_SRC = 3)
    (hn : c.bar.nextBeat = 0) :
    let t := c.missDownbeat
    t.bar.copying = false ∧ t.bar.masterMiss = c.bar.masterMiss + 1 ∧ t.on F.STACK_STATUS_LOCK = false ∧ t.barCount = (c.barCount + 1) % 2 ^ 32 := by
  obtain ⟨c0, hc0⟩ : ∃ c0 : Chip, c0 = { c with bar := { c.bar with copying := false } } := ⟨_, rfl⟩
  have h0 : SameBeat c c0 := by rw [hc0]; exact SameBeat.withBar c _
  have hmiss : (c0.barStartAt c.bar.next12).bar.masterMiss = c.bar.masterMiss := by
    have := c0.barStartAt_masterMiss c.bar.next12 (by rw [hc0]; exact hm) (by rw [hc0]; exact hsrc) (by rw [hc0]; exact he)
    rw [this, hc0]
  have hbegun := c0.barBegun_barStartAt c.bar.next12
  have hturn := Chip.sameTime_barTurn _ ((Chip.commitPages_congr (hbegun.ctrls.trans h0.ctrls)).trans hc)
  obtain ⟨d, hd, hdb, hdm⟩ : ∃ d : Chip, c.missDownbeat = d.stackMissed ∧ SameBeat (c0.barStartAt c.bar.next12) d ∧
      d.bar.masterMiss = c.bar.masterMiss := by
    have hleave : c.leavesNext = false := by unfold Chip.leavesNext Chip.leavesMaster; simp [hsrc]
    have e : c.missDownbeat = Chip.stackMissed
        (if (((c0.barStartAt c.bar.next12).barTurn.advanceTo
            (c.bar.next12 + period12 (c0.barStartAt c.bar.next12).barTurn.mode / 16)).set F.STACK_STATUS_LOCK 0).pairFollower = true then
          (((c0.barStartAt c.bar.next12).barTurn.advanceTo
            (c.bar.next12 + period12 (c0.barStartAt c.bar.next12).barTurn.mode / 16)).set F.STACK_STATUS_LOCK 0).set F.REDUN_STATUS_PAIR_LOCK 0
        else ((c0.barStartAt c.bar.next12).barTurn.advanceTo
            (c.bar.next12 + period12 (c0.barStartAt c.bar.next12).barTurn.mode / 16)).set F.STACK_STATUS_LOCK 0) := by
      unfold Chip.missDownbeat
      simp [hb, c.follower_of_stack hm hs, hr, he, hcopy, hleave, hn, hc0]
    have hl := (hturn.sameBeat.trans (SameBeat.advanceTo _ (c.bar.next12 + period12 (c0.barStartAt c.bar.next12).barTurn.mode / 16))).trans
      (SameBeat.set _ F.STACK_STATUS_LOCK 0 (by decide) (by decide) (by decide))
    refine ⟨_, e, SameBeat.ite (hl.trans (SameBeat.set _ F.REDUN_STATUS_PAIR_LOCK 0 (by decide) (by decide) (by decide))) hl, ?_⟩
    have ht : (c0.barStartAt c.bar.next12).barTurn.bar.masterMiss = c.bar.masterMiss := by rw [hturn.bar]; exact hmiss
    rw [apply_ite Chip.bar, Chip.set_bar, Chip.set_bar, ite_self]
    exact (congrArg BarSt.masterMiss (Chip.ticks_bar _ _)).trans ht
  rw [hd]
  refine ⟨by rw [Chip.stackMissed_bar], by rw [Chip.stackMissed_bar]; exact congrArg (· + 1) hdm, d.stackMissed_lock, ?_⟩
  rw [(d.sameBeat_stackMissed).count, hdb.count, hbegun.count, h0.count]

/-! ### A downbeat copied (R107) -/

/-- The block shows the bar and beat of a downbeat, from the stack, and copies. -/
structure CopyShown (d : Downbeat) (c : Chip) : Prop where
  count : c.barCount = d.barCount
  beat : c.get F.BAR_STATUS_BEAT = d.beat
  src : c.get F.BAR_STATUS_SRC_IN_USE = 3
  copying : c.bar.copying = true
  launchQ : c.launchQ = []

theorem CopyShown.of_regs {d : Downbeat} {c e : Chip} (h : CopyShown d c) (hr : e.rd F.BAR_STATUS_BEAT.addr = c.rd F.BAR_STATUS_BEAT.addr)
    (hc : e.rd F.BAR_COUNT_COUNT.addr = c.rd F.BAR_COUNT_COUNT.addr) (hb : e.bar.copying = c.bar.copying) (hl : e.launchQ = c.launchQ) : CopyShown d e where
  count := (congrArg (fun w => bitsOf w 31 0) hc).trans h.count
  beat := (congrArg (fun w => bitsOf w 27 26) hr).trans h.beat
  src := (congrArg (fun w => bitsOf w 29 28) hr).trans h.src
  copying := hb.trans h.copying
  launchQ := hl.trans h.launchQ

theorem CopyShown.keep {d : Downbeat} {c e : Chip} (h : CopyShown d c) (k : SameTime c e) : CopyShown d e :=
  h.of_regs (k.rd _ (by decide)) (k.rd _ (by decide)) (by rw [k.bar]) k.launchQ

theorem CopyShown.set {d : Downbeat} {c : Chip} (h : CopyShown d c) (f : Fld) (v : Nat) (h1 : F.BAR_STATUS_BEAT.addr ≠ f.addr)
    (h2 : F.BAR_COUNT_COUNT.addr ≠ f.addr) : CopyShown d (c.set f v) :=
  h.of_regs (Chip.rd_set_ne _ _ _ _ h1) (Chip.rd_set_ne _ _ _ _ h2) rfl rfl

/-- A field of STATUS beside BEAT and SRC_IN_USE. -/
theorem CopyShown.set_status {d : Downbeat} {c : Chip} (h : CopyShown d c) (f : Fld) (v : Nat) (ha : f.addr = F.BAR_STATUS_BEAT.addr) (hl : f.lo ≤ f.hi)
    (hh : f.hi < 32) (hd : 29 < f.lo) : CopyShown d (c.set f v) where
  count := (Chip.get_set_ne _ _ _ _ (by rw [ha]; decide)).trans h.count
  beat := (Chip.get_set_field _ _ _ _ hl hh (by decide) (Or.inl (Nat.lt_trans (by decide : 27 < 29) hd))).trans h.beat
  src := (Chip.get_set_field _ _ _ _ hl hh (by decide) (Or.inl hd)).trans h.src
  copying := h.copying
  launchQ := h.launchQ

theorem CopyShown.slewing {d : Downbeat} {c : Chip} (h : CopyShown d c) (b : Bool) : CopyShown d (c.setSlewing b) :=
  (h.set_status F.BAR_STATUS_SLEWING _ rfl (by decide) (by decide) (by decide)).keep (SameTime.cond _ _ _)

theorem CopyShown.locked {d : Downbeat} {c : Chip} (h : CopyShown d c) : CopyShown d c.showBarLock :=
  (h.set_status F.BAR_STATUS_LOCK _ rfl (by decide) (by decide) (by decide)).keep (SameTime.cond _ _ _)

/-- COUNT, BEAT and SRC_IN_USE as a copied downbeat sets them. -/
theorem CopyShown.shown (d : Downbeat) (c : Chip) (hcount : d.barCount < 2 ^ 32) (hbeat : d.beat < 4) (hcopy : c.bar.copying = true) (hq : c.launchQ = []) :
    CopyShown d (((c.set F.BAR_COUNT_COUNT d.barCount).set F.BAR_STATUS_BEAT d.beat).set F.BAR_STATUS_SRC_IN_USE 3) where
  count := (Chip.get_set_ne _ _ _ _ (by decide)).trans ((Chip.get_set_ne _ _ _ _ (by decide)).trans
    ((Chip.get_set _ _ _ (by decide) (by decide)).trans (Nat.mod_eq_of_lt hcount)))
  beat := (Chip.get_set_field _ _ _ _ (by decide) (by decide) (by decide) (by decide)).trans
    ((Chip.get_set _ _ _ (by decide) (by decide)).trans (Nat.mod_eq_of_lt hbeat))
  src := Chip.get_set _ _ _ (by decide) (by decide)
  copying := hcopy
  launchQ := hq

theorem Chip.sameBeat_copyLock (c : Chip) (b : Bool) : SameBeat c ((c.set F.BAR_PHASE_ERR_E 0).setSlewing b).showBarLock :=
  ((SameBeat.set c F.BAR_PHASE_ERR_E 0 (by decide) (by decide) (by decide)).trans (Chip.sameBeat_setSlewing _ b)).trans (Chip.sameBeat_setBarLock _ _)

/-- The bar or beat of a copied downbeat begins. -/
theorem Chip.copyStart_shown (c : Chip) (d : Downbeat) (at12 : Nat) (hc : c.commitPages = []) (hq : c.launchQ = []) (hcount : d.barCount < 2 ^ 32)
    (hbeat : d.beat < 4) : CopyShown d (c.copyStart d at12) := by
  have key : ∀ b : BarSt, b.copying = true →
      CopyShown d (((((({ c with bar := b }.set F.BAR_COUNT_COUNT d.barCount).set F.BAR_STATUS_BEAT d.beat).set F.BAR_STATUS_SRC_IN_USE 3).set
        F.BAR_PHASE_ERR_E 0).setSlewing false).showBarLock) ∧
      (((((({ c with bar := b }.set F.BAR_COUNT_COUNT d.barCount).set F.BAR_STATUS_BEAT d.beat).set F.BAR_STATUS_SRC_IN_USE 3).set
        F.BAR_PHASE_ERR_E 0).setSlewing false).showBarLock).commitPages = [] := by
    intro b hb
    refine ⟨((((CopyShown.shown d { c with bar := b } hcount hbeat hb hq).set F.BAR_PHASE_ERR_E 0 (by decide) (by decide)).slewing false).locked), ?_⟩
    rw [Chip.commitPages_congr (Chip.sameBeat_copyLock _ false).ctrls, Chip.commitPages_congr (Chip.ctrls_set _ _ _ (by decide)),
      Chip.commitPages_congr (Chip.ctrls_set _ _ _ (by decide)), Chip.commitPages_congr (Chip.ctrls_set _ _ _ (by decide))]
    exact hc
  unfold Chip.copyStart
  dsimp only
  split
  · exact (key _ rfl).1.keep (Chip.sameTime_barTurn _ (key _ rfl).2)
  · exact (key _ rfl).1.keep (Chip.sameTime_scanBeat _ _ _)

/-- What a launch leaves of a copied downbeat. -/
theorem CopyShown.launched {d : Downbeat} {c : Chip} (h : CopyShown d c) (x : Downbeat) (t : Nat) : CopyShown d (c.launched x t) := by
  obtain ⟨hl, hb, hr, -⟩ := c.launched_spec x t h.launchQ
  exact h.of_regs (hr _ (by decide) (by decide)) (hr _ (by decide) (by decide)) (by rw [hb]) (hl.trans h.launchQ.symm)

/-- A downbeat copied and launched on. -/
theorem Chip.copyDownbeat_shown (c : Chip) (d : Downbeat) (dIn interval arr12 : Nat) (hc : c.commitPages = []) (hq : c.launchQ = [])
    (hcount : d.barCount < 2 ^ 32) (hbeat : d.beat < 4) : CopyShown d (c.copyDownbeat d dIn interval arr12) := by
  unfold Chip.copyDownbeat
  dsimp only
  have hadv := SameBeat.advanceTo c (arr12 + interval * 12 / 1000)
  generalize c.advanceTo (arr12 + interval * 12 / 1000) = c1 at hadv ⊢
  have h1 := (c1.copyStart_shown d (arr12 + interval * 12 / 1000) ((Chip.commitPages_congr hadv.ctrls).trans hc) (hadv.launchQ.trans hq) hcount hbeat).keep
    (Chip.sameTime_activeRise _)
  generalize (c1.copyStart d (arr12 + interval * 12 / 1000)).activeRise = c2 at h1 ⊢
  have h2 : ∀ (acc : Nat) (own : Downbeat), CopyShown d (({ c2 with bar := { c2.bar with followDelay := acc } } : Chip).launchTiles own) := fun acc own =>
    (CopyShown.of_regs (e := { c2 with bar := { c2.bar with followDelay := acc } }) h1 rfl rfl rfl rfl).keep (Chip.sameTime_launchTiles _ own)
  refine CopyShown.launched ?_ _ _
  split
  · exact ((h2 _ _).keep (Chip.sameTime_launchStack _ _)).set F.REDUN_STATUS_PAIR_LOCK 1 (by decide) (by decide)
  · exact ((h2 _ _).set F.STACK_STATUS_LOCK 1 (by decide) (by decide)).set F.STACK_STATUS_DELAY_PS _ (by decide) (by decide)

/-- Hearing the master changes of the generator only what tells of the master. -/
theorem Chip.hearMaster_spec (c : Chip) (d : Downbeat) :
    SameRegs c (c.hearMaster d) ∧ (c.hearMaster d).launchQ = c.launchQ ∧ (c.hearMaster d).bar.copying = c.bar.copying ∧
      (c.hearMaster d).bar.nextBeat = c.bar.nextBeat := by
  obtain ⟨c0, hc0⟩ : ∃ c0 : Chip, c0 = { c with bar := { c.bar with masterMiss := if d.beat = 0 then 0 else c.bar.masterMiss, followFeedMap := d.feedMap } } :=
    ⟨_, rfl⟩
  have h0 : SameRegs c c0 := by rw [hc0]; exact ⟨rfl, rfl, fun _ _ => rfl⟩
  have ht : SameTime c0 (c.hearMaster d) := by
    unfold Chip.hearMaster
    rw [← hc0]
    exact SameTime.ite (SameTime.cond _ _ _) ((SameTime.cond _ _ _).trans (SameTime.ite (SameTime.refl _) (SameTime.raise _ _)))
  refine ⟨h0.trans ht.toSameRegs, ht.launchQ.trans (by rw [hc0]), ?_, ?_⟩
  · rw [ht.bar, hc0]
  · rw [ht.bar, hc0]

/-- A follower that copies takes the next downbeat of its mode, if it is the one it expects. -/
theorem Chip.followDownbeat_shown (c : Chip) (d : Downbeat) (dIn interval arr12 : Nat) (hc : c.commitPages = []) (hq : c.launchQ = [])
    (hf : c.follower = true) (hr : c.bar.running = true) (hcopy : c.bar.copying = true) (hl : c.leavesNext = false) (hmode : d.mode = c.mode)
    (hn : c.bar.nextBeat ≠ 0 ∨ d.beat = 0) (hcount : d.barCount < 2 ^ 32) (hbeat : d.beat < 4) :
    CopyShown d (c.followDownbeat d dIn interval arr12) := by
  have hadv := SameBeat.advanceTo c arr12
  have hadvb : (c.advanceTo arr12).bar = c.bar := c.ticks_bar _
  have hadvm : (c.advanceTo arr12).mode = c.mode := c.ticks_get _ _
  obtain ⟨hs, hhq, hhc, hhn⟩ := (c.advanceTo arr12).hearMaster_spec d
  have hm : ((c.advanceTo arr12).hearMaster d).mode = c.mode := (hs.get F.BAR_MODE_MODE_IN_USE (by decide)).trans hadvm
  have e : c.followDownbeat d dIn interval arr12 = ((c.advanceTo arr12).hearMaster d).copyDownbeat d dIn interval arr12 := by
    unfold Chip.followDownbeat
    have hnb : (decide (c.bar.nextBeat = 0) && decide (d.beat ≠ 0)) = false := by rcases hn with h | h <;> simp [h]
    simp only [hf, hr, hl, Bool.not_true, Bool.or_self, Bool.and_false, Bool.false_eq_true, if_false, hm, hmode, ne_eq, not_true, hhc, hhn, hadvb, hcopy,
      if_true]
    simp only [ne_eq] at hnb
    rw [hnb]
    rfl
  rw [e]
  exact Chip.copyDownbeat_shown _ d dIn interval arr12 (hs.commitPages.trans ((Chip.commitPages_congr hadv.ctrls).trans hc))
    (hhq.trans (hadv.launchQ.trans hq)) hcount hbeat

theorem nbits_lt (v hi lo : Nat) : nbits v hi lo < 2 ^ (hi + 1 - lo) := Nat.mod_lt _ (Nat.two_pow_pos _)

/-- A good downbeat on IN_PORT of a follower that copies. -/
theorem Chip.masterDownbeat_shown (c : Chip) (cell ns interval : Nat) (hb : c.build = .S) (hc : c.commitPages = []) (hq : c.launchQ = [])
    (hm : c.isMaster = false) (hs : c.bar.sel = 3) (hsrc : c.get F.BAR_SRC_SRC = 3) (hin : c.on F.STACK_CONFIG_IN_EN = true)
    (hp : c.portMode (c.get F.STACK_CONFIG_IN_PORT) = 4) (hcrc : cellCrcOk cell = true) (ht : cellType cell = ctDownbeat)
    (hmode : (Downbeat.ofCell cell).mode < 24) (hbeat : (Downbeat.ofCell cell).beat < modeBeats (Downbeat.ofCell cell).mode)
    (hr : c.bar.running = true) (hcopy : c.bar.copying = true) (he : (Downbeat.ofCell cell).mode = c.mode)
    (hn : c.bar.nextBeat ≠ 0 ∨ (Downbeat.ofCell cell).beat = 0) : CopyShown (Downbeat.ofCell cell) (c.masterDownbeat cell ns interval) := by
  have hf := c.sameTime_stackForward cell
  have hfm : (c.stackForward cell).isMaster = false := (congrArg (fun n => decide (n = 0)) (hf.get F.DEVICE_STRAPS_STACK_POS (by decide))).trans hm
  have hfs : (c.stackForward cell).bar.sel = 3 := by rw [hf.bar]; exact hs
  have hfl : (c.stackForward cell).leavesNext = false := by
    unfold Chip.leavesNext Chip.leavesMaster
    rw [hf.get F.BAR_SRC_SRC (by decide), hsrc]
    simp
  have e : c.masterDownbeat cell ns interval = (c.stackForward cell).followDownbeat (Downbeat.ofCell cell)
      ((Downbeat.ofCell cell).accDelay + c.linkDelay (c.get F.STACK_CONFIG_IN_PORT)) (max 40000 (min 172000 interval)) (12 * ns) := by
    unfold Chip.masterDownbeat
    simp [hb, hm, hin, hp, ht, hcrc, hmode, hbeat]
  rw [e]
  refine Chip.followDownbeat_shown _ _ _ _ _ (hf.commitPages.trans hc) (hf.launchQ.trans hq) (Chip.follower_of_stack _ hfm hfs) ?_ ?_ hfl
    (he.trans (hf.get F.BAR_MODE_MODE_IN_USE (by decide)).symm) ?_ (nbits_lt cell 95 64) ?_
  · rw [hf.bar]; exact hr
  · rw [hf.bar]; exact hcopy
  · rw [hf.bar]; exact hn
  · unfold modeBeats at hbeat; split_ifs at hbeat <;> omega

end Sys2Proof.Machine
end

