-- ==== Sys2Proof/Proofs/Cues.lean ====
section
/-! PROOF. A CUE load ends: every LAYER page is committed, or nothing changes (R43, R154, R155). -/

namespace Sys2Proof.Machine

/-! ### The read of a set -/

/-- One block has the build, the page control words, the mapping state and the registers of another that reports do not write. -/
structure SameControl (c d : Chip) : Prop where
  build : d.build = c.build
  ctrls : d.ctrls = c.ctrls
  map : d.map = c.map
  rd : ∀ a, quietReg a = true → d.rd a = c.rd a

theorem SameControl.refl (c : Chip) : SameControl c c := ⟨rfl, rfl, rfl, fun _ _ => rfl⟩
theorem SameControl.trans {c d e : Chip} (h : SameControl c d) (k : SameControl d e) : SameControl c e :=
  ⟨k.build.trans h.build, k.ctrls.trans h.ctrls, k.map.trans h.map, fun a ha => (k.rd a ha).trans (h.rd a ha)⟩
theorem SameControl.ite {c d e : Chip} {p : Prop} [Decidable p] (h : SameControl c d) (k : SameControl c e) : SameControl c (if p then d else e) := by
  split
  · exact h
  · exact k
theorem SameControl.pair {α : Type} {c d : Chip} (x : α) (h : SameControl c d) : SameControl c (x, d).2 := h
theorem SameControl.en {c d : Chip} (h : SameControl c d) (pg : Nat) (hq : quietReg (F.EN.pg pg).addr = true) : d.en pg = c.en pg := by
  unfold Chip.en Chip.on Chip.get; rw [h.rd _ hq]

theorem Quiet.sameControl {c d : Chip} (h : Quiet c d) : SameControl c d := ⟨h.build, h.2.1, h.map, h.2.2⟩

theorem SameControl.setDramPort (c : Chip) (p : Nat) (s : DramPortSt) : SameControl c (c.setDramPort p s) := ⟨rfl, rfl, rfl, fun _ _ => rfl⟩

theorem SameControl.reported (c : Chip) (pg : Nat) (l : List ErrRec) (e : Ev) : SameControl c ((c.report pg l).raise e) :=
  ((c.quiet_report pg l).trans (Chip.quiet_raise _ e)).sameControl

theorem Chip.sameControl_dramTouch (c : Chip) (m : Nat) (h : PageHint) (a n : Nat) : SameControl c (c.dramTouch m h a n) :=
  foldl_rel SameControl SameControl.refl SameControl.trans (fun c => c) _ _ (fun d _ _ => SameControl.setDramPort d _ _) c

theorem Chip.sameControl_dramUe (c : Chip) (p u k s a : Nat) : SameControl c (c.dramUe p u k s a) :=
  SameControl.ite (SameControl.refl c) ((SameControl.setDramPort c p _).trans (SameControl.reported _ _ _ _))

theorem Chip.sameControl_dramCe (c : Chip) (p u s a : Nat) : SameControl c (c.dramCe p u s a) :=
  (SameControl.setDramPort c p _).trans (SameControl.reported _ _ _ _)

theorem Chip.sameControl_dramReadWord (c : Chip) (m a : Nat) : SameControl c (c.dramReadWord m a).2 := by
  unfold Chip.dramReadWord
  dsimp only
  split
  · exact SameControl.refl c
  · split
    · exact SameControl.refl c
    · split
      · exact c.sameControl_dramUe _ _ _ _ _
      · split
        · exact SameControl.refl c
        · exact c.sameControl_dramCe _ _ _ _
        · exact SameControl.refl c
        · exact c.sameControl_dramUe _ _ _ _ _

theorem Chip.sameControl_dramRange (c : Chip) (m a n : Nat) : SameControl c (c.dramRange m a n) :=
  SameControl.ite (SameControl.refl c) (SameControl.reported c _ _ _)

theorem Chip.sameControl_dramTouchedRange (c : Chip) (m : Nat) (h : PageHint) (a n : Nat) : SameControl c ((c.dramTouch m h a n).dramRange m a n) := by
  have hr := (c.dramTouch m h a n).sameControl_dramRange m a n
  exact (c.sameControl_dramTouch m h a n).trans hr

/-- A read of DRAM changes what it reports and the state of the ports. -/
theorem Chip.sameControl_dramRead (c : Chip) (m a n : Nat) : SameControl c (c.dramRead m a n).2 := by
  unfold Chip.dramRead
  dsimp only
  have hr := c.sameControl_dramTouchedRange m (dramHint m false) a n
  generalize (c.dramTouch m (dramHint m false) a n).dramRange m a n = d at hr ⊢
  generalize (wordLanes a (List.replicate n (some 0))).map (·.1) = ws
  refine hr.trans (foldl_rel SameControl SameControl.refl SameControl.trans Prod.snd _ ws (fun r w _ => ?_) (([], false), d))
  exact SameControl.pair _ (r.2.sameControl_dramReadWord m (16 * w))

/-- A set that is read exists, and its read leaves control alone. -/
theorem Chip.cueRecord_some (c : Chip) (n : Nat) (h : (c.cueRecord n).1.isSome = true) :
    n < 1024 ∧ SameControl c (c.cueRecord n).2 := by
  unfold Chip.cueRecord at h ⊢
  by_cases hn : n < min 1024 (c.get F.MAPCTL_SET_COUNT_COUNT)
  · refine ⟨by omega, ?_⟩
    rw [if_pos hn, apply_ite Prod.snd]
    exact SameControl.ite ((c.sameControl_dramRead _ _ _).trans (SameControl.reported _ _ _ _)) (c.sameControl_dramRead _ _ _)
  · rw [if_neg hn] at h; simp at h

theorem Chip.cueRecord_absent (c : Chip) (n : Nat) (h : min 1024 (c.get F.MAPCTL_SET_COUNT_COUNT) ≤ n) : c.cueRecord n = (none, c) := by
  unfold Chip.cueRecord
  rw [if_neg (by omega)]

/-! ### The commits of the layers -/

/-- A LAYER page. -/
abbrev LayerPage (pg : Nat) : Prop := 0x061 ≤ pg ∧ pg ≤ 0x068

theorem smFind_mem {α : Type} (m : SMap α) (k : Nat) (v : α) (h : smFind m k = some v) : (k, v) ∈ m := by
  induction m with
  | nil => simp [smFind] at h
  | cons p t ih =>
    obtain ⟨j, w⟩ := p
    simp only [smFind] at h
    split at h
    · rename_i e; simp at h; simp [e, h]
    · exact List.mem_cons_of_mem _ (ih h)

/-- The pages with a commit pending are those of the listed words that ask for one. -/
theorem Chip.mem_commitPages (c : Chip) (pg : Nat) :
    pg ∈ c.commitPages ↔ ∃ p ∈ c.regs, p.1 % 4096 = 4 ∧ p.1 < 0x400000 ∧ ctrlReady (p.1 / 4096) p.2 = true ∧ p.1 / 4096 = pg := by
  simp only [Chip.commitPages, List.mem_map, List.mem_filter, Bool.and_eq_true, decide_eq_true_eq]
  constructor
  · rintro ⟨p, ⟨hp, ⟨h1, h2⟩, h3⟩, h4⟩; exact ⟨p, hp, h1, h2, h3, h4⟩
  · rintro ⟨p, hp, h1, h2, h3, h4⟩; exact ⟨p, ⟨hp, ⟨h1, h2⟩, h3⟩, h4⟩

/-- The commit of layer `k` set. -/
theorem Chip.commitPages_setLayer (c : Chip) (k : Nat) (hk : k < 8) (h : ∀ pg ∈ c.commitPages, LayerPage pg) :
    ∀ pg ∈ (c.set (F.COMMIT.pg (0x061 + k)) 1).commitPages, LayerPage pg := by
  intro pg hpg
  obtain ⟨p, hp, h1, h2, h3, h4⟩ := (Chip.mem_commitPages _ _).1 hpg
  rcases smSet_mem _ _ _ _ hp with rfl | hold
  · have ha : (F.COMMIT.pg (0x061 + k)).addr = 4 + 4096 * (0x061 + k) := rfl
    dsimp only at h4
    rw [ha] at h4
    constructor <;> omega
  · exact h pg ((Chip.mem_commitPages _ _).2 ⟨p, hold, h1, h2, h3, h4⟩)

/-- The layers below `n` have a commit pending, no page but LAYER pages has one, and the rest of control is as in another block. -/
structure LayersCommitted (n : Nat) (c d : Chip) : Prop where
  build : d.build = c.build
  map : d.map = c.map
  en : d.en 0x060 = c.en 0x060
  only : ∀ pg ∈ d.commitPages, LayerPage pg
  set : ∀ k < n, (smFind d.regs (F.COMMIT.pg (0x061 + k)).addr).isSome = true ∧ d.get (F.COMMIT.pg (0x061 + k)) = 1

theorem LayersCommitted.wr {n : Nat} {c d : Chip} (h : LayersCommitted n c d) (a : Nat) (w : Word) (ha : a % 4096 ≠ 4) : LayersCommitted n c (d.wr a w) where
  build := h.build
  map := h.map
  en := by
    rw [← h.en]; unfold Chip.en Chip.on
    rw [Chip.get_wr_ne _ _ _ _ (by show 0 + 4 + 4096 * 0x060 ≠ a; omega)]
  only := by rw [Chip.commitPages_congr (d.ctrls_wr a w ha)]; exact h.only
  set k hk := by
    have hne : (F.COMMIT.pg (0x061 + k)).addr ≠ a := by show 4 + 4096 * (0x061 + k) ≠ a; omega
    obtain ⟨h1, h2⟩ := h.set k hk
    refine ⟨?_, (Chip.get_wr_ne _ _ _ _ hne).trans h2⟩
    unfold Chip.wr
    rw [smFind_smSet, if_neg hne]
    exact h1

/-- One layer takes the words of its part of the set, and its commit is set. -/
theorem LayersCommitted.cueLayer {n : Nat} {c d : Chip} (h : LayersCommitted n c d) (rec : List Byte) (hn : n < 8) : LayersCommitted (n + 1) c (d.cueLayer rec n) := by
  have hw : LayersCommitted n c ((List.range 7).foldl (fun c k =>
      let a := 0x061040 + 4096 * n + 4 * k
      match regAt c.build a with
      | .reg x => c.wr a (x.store (c.rd a) (BitVec.ofNat 32 (ofLe (slice rec (64 * n + 4 * k) 4))))
      | _ => c) d) := by
    have hl : ∀ k ∈ List.range 7, k < 7 := fun k hk => List.mem_range.1 hk
    generalize List.range 7 = l at hl ⊢
    induction l generalizing d with
    | nil => exact h
    | cons k t ih =>
      refine ih ?_ (fun k hk => hl k (List.mem_cons_of_mem _ hk))
      have hk := hl k (List.mem_cons_self ..)
      dsimp only
      split
      · exact h.wr _ _ (by omega)
      · exact h
  unfold Chip.cueLayer
  generalize (List.range 7).foldl _ d = e at hw ⊢
  have ha : ∀ k, (F.COMMIT.pg (0x061 + k)).addr = 4 + 4096 * (0x061 + k) := fun _ => rfl
  refine ⟨hw.build, hw.map, ?_, e.commitPages_setLayer n hn hw.only, fun k hk => ?_⟩
  · rw [← hw.en]; unfold Chip.en Chip.on
    rw [Chip.get_set_ne _ _ _ _ (by rw [ha]; show 4 + 4096 * 0x060 ≠ _; omega)]
  · unfold Chip.set Chip.wr
    by_cases hkn : k = n
    · subst hkn
      exact ⟨by simp, Chip.get_set e _ 1 (by decide : (8 : Nat) ≤ 8) (by decide : (8 : Nat) < 32)⟩
    · have hne : (F.COMMIT.pg (0x061 + k)).addr ≠ (F.COMMIT.pg (0x061 + n)).addr := by rw [ha, ha]; omega
      obtain ⟨h1, h2⟩ := hw.set k (by omega)
      refine ⟨?_, (Chip.get_set_ne e _ _ 1 hne).trans h2⟩
      dsimp only
      rw [smFind_smSet, if_neg hne]
      exact h1

theorem layersCommitted_range (rec : List Byte) (c : Chip) (hc : c.commitPages = []) (n : Nat) (hn : n ≤ 8) :
    LayersCommitted n c ((List.range n).foldl (fun c l => c.cueLayer rec l) c) := by
  induction n with
  | zero => exact ⟨rfl, rfl, rfl, by rw [List.range_zero, List.foldl_nil, hc]; simp, by simp⟩
  | succ n ih =>
    rw [List.range_succ, List.foldl_append]
    exact (ih (by omega)).cueLayer rec (by omega)

/-- A layer whose commit reads 1 is among the pages with a commit pending. -/
theorem LayersCommitted.mem {n : Nat} {c d : Chip} (h : LayersCommitted n c d) (k : Nat) (hk : k < n) (hn : n ≤ 8) : 0x061 + k ∈ d.commitPages := by
  obtain ⟨hsome, hget⟩ := h.set k hk
  obtain ⟨w, hw⟩ := Option.isSome_iff_exists.1 hsome
  have ha : (F.COMMIT.pg (0x061 + k)).addr = 4 + 4096 * (0x061 + k) := rfl
  have hbit : w.getLsbD 8 = true := by
    have h1 : bitsOf w 8 8 = 1 := by
      rw [← hget]; unfold Chip.get Chip.rd
      rw [hw]; rfl
    rw [bitsOf_bit] at h1
    cases hb : w.getLsbD 8
    · rw [hb] at h1; simp at h1
    · rfl
  have hpage : (4 + 4096 * (0x061 + k)) / 4096 = 0x061 + k := by omega
  have hinert : srstInert (0x061 + k) = true := by
    unfold srstInert
    have h1 : 0x061 ≤ 0x061 + k := by omega
    have h2 : 0x061 + k ≤ 0x068 := by omega
    simp [h1, h2]
  refine (Chip.mem_commitPages _ _).2 ⟨_, smFind_mem _ _ _ hw, ?_, ?_, ?_, ?_⟩
  · rw [ha]; dsimp only; omega
  · rw [ha]; dsimp only; omega
  · rw [ha]; dsimp only
    rw [hpage]
    unfold ctrlReady
    rw [hbit, hinert]
    simp
  · rw [ha]; exact hpage

/-- The commit of a LAYER page, taken. -/
theorem Chip.applyPage_layer (c : Chip) (hb : c.build = .S) (pg : Nat) (h : LayerPage pg) : c.applyPage pg = (c.takeShadows pg).set (F.COMMIT.pg pg) 0 := by
  have h0 : (c.takeShadows pg).build = c.build := by unfold Chip.takeShadows; split <;> rfl
  have hb2 : ((c.takeShadows pg).set (F.COMMIT.pg pg) 0).build = .S := h0.trans hb
  have n1 : ¬ pg = 0x022 := by omega
  have n2 : ¬ pg = 0x060 := by omega
  have n3 : ¬ pg = 0x073 := by omega
  have n4 : ¬ pg = 0x090 := by omega
  unfold Chip.applyPage
  simp only [hb2, n1, n2, n3, n4, if_false]

theorem pageRef_layer (pg : Nat) (h : LayerPage pg) : pageRef .S pg = .begin := by
  have n1 : ¬ pg = 0x022 := by omega
  have n2 : ¬ pg = 0x060 := by omega
  have n3 : ¬ pg = 0x073 := by omega
  have n4 : ¬ pg = 0x070 := by omega
  have n5 : ¬ pg = 0x071 := by omega
  simp [pageRef, n1, n2, n3, n4, n5, h.1, h.2]

/-- Commits of LAYER pages taken: COMMIT of each reads 0, and the mapping state, EN of MAPCTL and a COMMIT that read 0 stay. -/
structure LayersTaken (l : List Nat) (c d : Chip) : Prop where
  build : d.build = c.build
  map : d.map = c.map
  en : d.en 0x060 = c.en 0x060
  commit : ∀ pg, pg ∈ l ∨ c.get (F.COMMIT.pg pg) = 0 → d.get (F.COMMIT.pg pg) = 0

theorem Chip.layersTaken_applyPage (c : Chip) (hb : c.build = .S) (pg : Nat) (h : LayerPage pg) : LayersTaken [pg] c (c.applyPage pg) := by
  obtain ⟨u, hu⟩ : ∃ u, c.takeShadows pg = { c with inUse := u } := by unfold Chip.takeShadows; split <;> exact ⟨_, rfl⟩
  have ha : ∀ k, (F.COMMIT.pg k).addr = 4 + 4096 * k := fun _ => rfl
  rw [c.applyPage_layer hb pg h, hu]
  refine ⟨rfl, rfl, ?_, fun k hk => ?_⟩
  · unfold Chip.en Chip.on
    rw [Chip.get_set_ne _ _ _ _ (by rw [ha]; show 4 + 4096 * 0x060 ≠ _; omega)]
    rfl
  · by_cases e : k = pg
    · subst e; exact Chip.get_set _ _ _ (by decide : (8 : Nat) ≤ 8) (by decide : (8 : Nat) < 32)
    · rw [Chip.get_set_ne _ _ _ _ (by rw [ha, ha]; omega)]
      rcases hk with hk | hk
      · exact absurd (List.mem_singleton.1 hk) e
      · exact hk

/-- With no canvas running (EN of MAPCTL at 0), the commits of a list of LAYER pages are all taken at once (R43). -/
theorem Chip.layersTaken_settle (l : List Nat) (hl : ∀ pg ∈ l, LayerPage pg) (c : Chip) (hb : c.build = .S) (he : c.en 0x060 = false) :
    LayersTaken l c (l.foldl (fun c pg => if c.refRuns (pageRef c.build pg) then c else c.applyPage pg) c) := by
  induction l generalizing c with
  | nil => exact ⟨rfl, rfl, rfl, fun pg h => h.resolve_left (by simp)⟩
  | cons pg t ih =>
    have hp := hl pg (List.mem_cons_self ..)
    have hstep := c.layersTaken_applyPage hb pg hp
    have hrest := ih (fun x hx => hl x (List.mem_cons_of_mem _ hx)) (c.applyPage pg) (hstep.build.trans hb) (hstep.en.trans he)
    have hruns : c.refRuns (pageRef c.build pg) = false := by rw [hb, pageRef_layer pg hp]; exact he
    rw [List.foldl_cons, hruns]
    refine ⟨hrest.build.trans hstep.build, hrest.map.trans hstep.map, hrest.en.trans hstep.en, fun k hk => hrest.commit k ?_⟩
    rcases hk with hk | hk
    · rcases List.mem_cons.1 hk with rfl | hk
      · exact Or.inr (hstep.commit _ (Or.inl (by simp)))
      · exact Or.inl hk
    · exact Or.inr (hstep.commit _ (Or.inr hk))

/-- With MAPCTL running, commits of LAYER pages wait for the next canvas. -/
theorem Chip.layersWait_settle (l : List Nat) (hl : ∀ pg ∈ l, LayerPage pg) (c : Chip) (hb : c.build = .S) (he : c.en 0x060 = true) :
    l.foldl (fun c pg => if c.refRuns (pageRef c.build pg) then c else c.applyPage pg) c = c := by
  induction l with
  | nil => rfl
  | cons pg t ih =>
    have hruns : c.refRuns (pageRef c.build pg) = true := by rw [hb, pageRef_layer pg (hl pg (List.mem_cons_self ..))]; exact he
    rw [List.foldl_cons, hruns]
    exact ih (fun x hx => hl x (List.mem_cons_of_mem _ hx))

/-- After the commits of all eight layers are settled, COMMIT reads 1 where MAPCTL runs and 0 where it does not. -/
theorem LayersCommitted.settle {c d : Chip} (h : LayersCommitted 8 c d) (hb : c.build = .S) :
    d.settle.build = .S ∧ d.settle.map = c.map ∧ ∀ k, k < 8 → d.settle.get (F.COMMIT.pg (0x061 + k)) = b2n (c.en 0x060) := by
  have hbd := h.build.trans hb
  cases he : c.en 0x060
  · have ht := Chip.layersTaken_settle _ h.only d hbd (h.en.trans he)
    exact ⟨ht.build.trans hbd, ht.map.trans h.map, fun k hk => ht.commit _ (Or.inl (h.mem k hk (by omega)))⟩
  · have hw : d.settle = d := Chip.layersWait_settle _ h.only d hbd (h.en.trans he)
    rw [hw]
    exact ⟨hbd, h.map, fun k hk => (h.set k hk).2⟩

/-! ### The end of a load -/

theorem mapctl_hasPage (c : Chip) : c.hasPage 0x060 = true := by unfold Chip.hasPage; cases c.build <;> decide +kernel

/-- A CUE of a set that does not exist fails and changes nothing else. -/
theorem Chip.cueDone_absent (c : Chip) (n : Nat × Nat) (l : List (Nat × Nat)) (hcues : c.map.cues = n :: l) (hs : c.stepStalls = false)
    (hn : min 1024 (c.get F.MAPCTL_SET_COUNT_COUNT) ≤ n.1) :
    let t := c.cueDone
    t.map = { c.map with cues := l } ∧ t.get F.MAPCTL_CUE_STATUS_FAIL = 1 ∧ t.pend E.CUE_FAIL = true ∧
      QuietBut [F.MAPCTL_CUE_STATUS_FAIL.addr] { c with map := t.map } t := by
  obtain ⟨d, hd⟩ : ∃ d : Chip, d = { c with map := { c.map with cues := l } } := ⟨_, rfl⟩
  have e : c.cueDone = (d.set F.MAPCTL_CUE_STATUS_FAIL 1).raise E.CUE_FAIL := by
    unfold Chip.cueDone
    rw [hcues]
    dsimp only
    rw [hs, Chip.cueRecord_absent (c.setMap { c.map with cues := l, cueFrom := some n.2 }) n.1 hn, hd]
    rfl
  have hq := (d.set F.MAPCTL_CUE_STATUS_FAIL 1).quiet_raise E.CUE_FAIL
  have hmap : c.cueDone.map = { c.map with cues := l } := by rw [e, hq.map]; exact congrArg Chip.map hd
  refine ⟨hmap, ?_, ?_, ?_⟩
  · rw [e, hq.get _ (by decide)]
    exact Chip.get_set _ _ _ (by decide) (by decide)
  · rw [e]
    exact Chip.raise_pend _ _ (mapctl_hasPage _) (by decide)
  · rw [hmap, ← hd, e]
    refine ⟨hq.1, fun a ha hne => (hq.2.2 a ha).trans (Chip.rd_set_ne _ _ _ _ ?_)⟩
    simpa using hne

/-- A CUE of a set that exists commits every layer. -/
theorem Chip.cueDone_exists (c : Chip) (n : Nat × Nat) (l : List (Nat × Nat)) (hb : c.build = .S) (hc : c.commitPages = [])
    (hcues : c.map.cues = n :: l) (hs : c.stepStalls = false)
    (hset : ((c.setMap { c.map with cues := l, cueFrom := some n.2 }).cueRecord n.1).1.isSome = true) :
    let t := c.cueDone
    t.map.cues = l ∧ t.get F.MAPCTL_CUE_STATUS_FAIL = 0 ∧ t.get F.MAPCTL_CUE_STATUS_SET = n.1 ∧ t.pend E.CUE_APPLIED = true ∧
      ∀ k, k < 8 → t.get (F.COMMIT.pg (0x061 + k)) = b2n (c.en 0x060) := by
  obtain ⟨rec, hrec⟩ := Option.isSome_iff_exists.1 hset
  obtain ⟨hn, hctl⟩ := Chip.cueRecord_some _ _ hset
  have hl := layersCommitted_range rec _ ((Chip.commitPages_congr hctl.ctrls).trans hc) 8 (by omega)
  obtain ⟨hsb, hsm, hsc⟩ := hl.settle (hctl.build.trans hb)
  have e : c.cueDone = ((((List.range 8).foldl (fun c l => c.cueLayer rec l)
      ((c.setMap { c.map with cues := l, cueFrom := some n.2 }).cueRecord n.1).2).settle.set F.MAPCTL_CUE_STATUS_FAIL 0).set
        F.MAPCTL_CUE_STATUS_SET n.1).raise E.CUE_APPLIED := by
    unfold Chip.cueDone
    rw [hcues]
    dsimp only
    rw [hs, hrec]
    rfl
  rw [hctl.map] at hsm
  rw [hctl.en 0x060 (by decide)] at hsc
  rw [e]
  generalize ((List.range 8).foldl (fun c l => c.cueLayer rec l)
    ((c.setMap { c.map with cues := l, cueFrom := some n.2 }).cueRecord n.1).2).settle = d at hsb hsm hsc ⊢
  have hq := ((d.set F.MAPCTL_CUE_STATUS_FAIL 0).set F.MAPCTL_CUE_STATUS_SET n.1).quiet_raise E.CUE_APPLIED
  refine ⟨?_, ?_, ?_, Chip.raise_pend _ _ (mapctl_hasPage _) (by decide), fun k hk => ?_⟩
  · rw [hq.map]
    exact congrArg MapSt.cues hsm
  · rw [hq.get _ (by decide)]
    exact (Chip.get_set_field _ _ _ _ (by decide) (by decide) (by decide) (by decide)).trans (Chip.get_set _ _ _ (by decide) (by decide))
  · rw [hq.get _ (by decide)]
    exact (Chip.get_set _ _ _ (by decide) (by decide)).trans (Nat.mod_eq_of_lt hn)
  · have ha : (F.COMMIT.pg (0x061 + k)).addr = 4 + 4096 * (0x061 + k) := rfl
    have h1 : ∀ k < 8, quietReg (F.COMMIT.pg (0x061 + k)).addr = true := by decide
    have hne : ∀ f : Fld, f.addr = 0x06009C → (F.COMMIT.pg (0x061 + k)).addr ≠ f.addr := fun f hf => by rw [ha, hf]; omega
    rw [hq.get _ (h1 k hk), Chip.get_set_ne _ _ _ _ (hne _ rfl), Chip.get_set_ne _ _ _ _ (hne _ rfl)]
    exact hsc k hk

/-- Settles O24: requests and causes by what a port's update leaves, cues by the commits of the eight layers settled, downbeats by what a copied
bar shows through everything that follows its start, misses by the one count that a missed bar adds. -/
theorem followersAndCues : Obligations.FollowersAndCues := by
  intro s hr
  refine ⟨fun p hp he => ?_, fun p x l hp ho => ?_, fun n l hb hcues hs => ⟨fun hn => ?_, fun hc hset => ?_⟩, ?_, ?_⟩
  · refine Completes.live (fun c => c.when (decide (p < c.numPorts)) (fun c => c.echoSend p)) rfl hr ?_
    have e : s.chip.when (decide (p < s.chip.numPorts)) (fun c => c.echoSend p) = s.chip.echoSend p := by unfold Chip.when; simp [hp]
    rw [e]
    exact s.chip.echoSend_spec p he
  · refine Completes.live (fun c => c.when (decide (p < c.numPorts) && !(c.port p).echoOut.isEmpty) (fun c =>
      (c.setPort p { c.port p with echoOut := (c.port p).echoOut.drop 1 }).cause p cEchoFail)) rfl hr ?_
    have e : s.chip.when (decide (p < s.chip.numPorts) && !(s.chip.port p).echoOut.isEmpty) (fun c =>
        (c.setPort p { c.port p with echoOut := (c.port p).echoOut.drop 1 }).cause p cEchoFail) =
        (s.chip.setPort p { s.chip.port p with echoOut := l }).cause p cEchoFail := by unfold Chip.when; simp [hp, ho]
    have hp16 : p < 16 := by unfold Chip.numPorts at hp; split at hp <;> omega
    obtain ⟨h1, h2⟩ := Chip.cause_sameEcho (s.chip.setPort p { s.chip.port p with echoOut := l }) p cEchoFail p
    rw [Chip.port_setPort, if_pos rfl] at h1 h2
    rw [e]
    exact ⟨h1, Chip.cause_echoFail _ p hp16, h2⟩
  · have e : s.chip.inS Chip.cueDone = s.chip.cueDone := by unfold Chip.inS Chip.when; simp [hb]
    refine Completes.live (fun c => c.inS Chip.cueDone) rfl hr ?_
    rw [e]
    exact s.chip.cueDone_absent n l hcues hs hn
  · have e : s.chip.inS Chip.cueDone = s.chip.cueDone := by unfold Chip.inS Chip.when; simp [hb]
    refine Completes.live (fun c => c.inS Chip.cueDone) rfl hr ?_
    rw [e]
    exact s.chip.cueDone_exists n l hb hc.1 hcues hs hset
  · intro cell ns interval d hb hc hm hsel hsrc hin hp hcrc ht hmode hbeat hrun hcopy he hn hq
    have h := s.chip.masterDownbeat_shown cell ns interval hb hc.1 hq hm hsel hsrc hin hp hcrc ht hmode hbeat hrun hcopy he hn
    exact Completes.live (fun c => c.masterDownbeat cell ns interval) rfl hr ⟨h.count, h.beat, h.src, h.copying⟩
  · intro hb hm hsel hrun hever
    have e : s.chip.when (!s.chip.pairFollower) Chip.missDownbeat = s.chip.missDownbeat := by
      unfold Chip.when; simp [s.chip.pairFollower_of_follower hm]
    refine ⟨fun hcopy h0 => ?_, fun hc hcopy hsrc hn => ?_⟩
    · refine Completes.live (fun c => c.when (!c.pairFollower) Chip.missDownbeat) rfl hr ?_
      rw [e, s.chip.missDownbeat_alone hb hm hsel hrun hever hcopy h0]
      exact ⟨by rw [Chip.stackMissed_bar], s.chip.stackMissed_lock, s.chip.stackMissed_third hm hsel⟩
    · refine Completes.live (fun c => c.when (!c.pairFollower) Chip.missDownbeat) rfl hr ?_
      rw [e]
      exact s.chip.missDownbeat_copying hb hc.1 hm hsel hrun hever hcopy hsrc hn

end Sys2Proof.Machine
end

