-- ==== Sys2Proof/Proofs/CanvasNumbers.lean ====
section
/-! PROOF. A canvas released under a number that a waiting canvas still has is lost when that one begins: the array finds and replaces its canvases
by number alone (R135, R136). -/

namespace Sys2Proof.Machine

/-- What CANVAS_RELEASE answers while the block runs. -/
theorem Runs.chip_canvasRelease {s t : State} (h : Runs s) (e : exec .canvasRelease s = .next t) :
    t.chip = ((s.chip.releaseCanvas Chip.applyAt).beginCanvas Chip.applyAt).bindWaiting.assignTasks := by
  change execCanvasRelease s = .next t at e
  unfold execCanvasRelease live at e
  rw [h, if_neg Bool.false_ne_true] at e
  rw [← Host.Outcome.next.inj e]

/-- A canvas number 0 for beat 0 of bar 1, released and not begun. -/
def waitingCanvas : CanvasSt :=
  { seq := 0, litBar := 1, litBeat := 0, feed := 0, buf := 0, feedMap := 0, sm12 := 0, newest := [], lasts := [], prev := [], begun := false,
    tables := [], bg := 0, layers := [], binds := [], bands := 0, done := [], samples := 0, waitBuf := false, late := false, published := false,
    stale := false }

/-- An S build after reset, its memories filled and MAPCTL enabled, in the single beat of bar 0: a canvas number 0 waits to begin, and 0 is also the
number of the next release. -/
def numberTaken : State :=
  let c := (((Chip.init .S).set F.ECC_STATUS_SRAM_FILLED 1).set F.ECC_STATUS_DRAM_FILLED 1).set (F.EN.pg mapctl) 1
  { chip := { c with bar := { c.bar with running := true, beatLens := [200000000] }, map := { c.map with canvases := [waitingCanvas] } }
    pending := [] }

theorem runs_numberTaken : Runs numberTaken := by decide +kernel

theorem build_numberTaken : numberTaken.chip.build = .S := by decide +kernel

theorem calm_numberTaken : Calm numberTaken.chip := by decide +kernel

/-- The release is due, for beat 0 of bar 2. -/
theorem releaseDue_numberTaken :
    numberTaken.chip.relLit = some (2, 0) ∧ numberTaken.chip.runs mapctl = true ∧ numberTaken.chip.bar.running = true ∧
      numberTaken.chip.bar.waiting = false ∧ numberTaken.chip.map.lastRel ≠ some (2, 0) := by decide +kernel

/-- The waiting canvas begins in the same command, and takes the place of the canvas just released as well: no canvas for bar 2 is left. -/
theorem canvasRelease_numberTaken :
    ∀ x ∈ (((numberTaken.chip.releaseCanvas Chip.applyAt).beginCanvas Chip.applyAt).bindWaiting.assignTasks).map.canvases, x.litBar = 1 := by
  decide +kernel

/-- Refutes O27: its first clause asks for the released canvas in the array, and nothing in the statement keeps the next number apart from those of
the canvases there. -/
theorem not_canvasesAndBands : ¬ Obligations.CanvasesAndBands := by
  unfold Obligations.CanvasesAndBands
  intro h
  obtain ⟨hrelease, -⟩ := h numberTaken runs_numberTaken build_numberTaken calm_numberTaken
  obtain ⟨hlit, hruns, hrunning, hwaiting, hlast⟩ := releaseDue_numberTaken
  obtain ⟨t, hexec, -, -, -, x, hx, -, hbar, -⟩ := hrelease (2, 0) hlit hruns hrunning hwaiting hlast (fun _ => rfl)
  rw [runs_numberTaken.chip_canvasRelease hexec] at hx
  have hlost : x.litBar = 1 := canvasRelease_numberTaken x hx
  omega

end Sys2Proof.Machine
end

