-- ==== Sys2Proof/Proofs/MemoryCode.lean ====
section
/-! PROOF. The code of the memories: its columns, and what a reader finds in a word as written, with one bit or two bits in error, and stored as
poisoned (R311, R312, R314). -/

namespace Sys2Proof.Machine

/-! ### Check bits as a linear map -/

/-- Bit `i` of the XOR of columns is the parity of the set data bits whose column has bit `i` set. -/
theorem eccXor_getLsbD (l : List (BitVec 9)) (j : Nat) (d : Word128) (i : Nat) :
    (eccXor l j d).getLsbD i =
      decide ((List.range l.length).countP (fun k => d.getLsbD (j + k) && (l.getD k 0).getLsbD i) % 2 = 1) := by
  induction l generalizing j with
  | nil => simp [eccXor]
  | cons h t ih =>
    have hbit : (if d.getLsbD j then h else 0).getLsbD i = (d.getLsbD j && h.getLsbD i) := by
      cases d.getLsbD j <;> simp
    have htail : (fun k => d.getLsbD (j + k) && ((h :: t).getD k 0).getLsbD i) ∘ Nat.succ =
        fun k => d.getLsbD (j + 1 + k) && (t.getD k 0).getLsbD i := by
      funext k
      simp only [Function.comp_apply, Nat.succ_eq_add_one, List.getD_cons_succ, Nat.add_right_comm j 1 k, Nat.add_assoc]
    rw [eccXor, BitVec.getLsbD_xor, hbit, ih, List.length_cons, List.range_succ_eq_map, List.countP_cons, List.countP_map, htail,
      Nat.add_zero, List.getD_cons_zero]
    generalize (List.range t.length).countP _ = n
    cases d.getLsbD j && h.getLsbD i
    · simp
    · rw [Bool.eq_iff_iff]
      simp
      omega

theorem eccXor_xor (l : List (BitVec 9)) (j : Nat) (a b : Word128) : eccXor l j (a ^^^ b) = eccXor l j a ^^^ eccXor l j b := by
  induction l generalizing j with
  | nil => simp [eccXor]
  | cons h t ih =>
    have hcol : ∀ x y : Bool, (if x ^^ y then h else 0) = (if x then h else 0) ^^^ if y then h else 0 := by
      rintro (_ | _) (_ | _) <;> simp
    rw [eccXor, eccXor, eccXor, ih, BitVec.getLsbD_xor, hcol]
    ac_rfl

theorem eccXor_bit (l : List (BitVec 9)) (j i : Nat) (hi : i < 128) :
    eccXor l j ((1 : Word128) <<< i) = if j ≤ i then l.getD (i - j) 0 else 0 := by
  induction l generalizing j with
  | nil => simp [eccXor]
  | cons h t ih =>
    have hbit : ((1 : Word128) <<< i).getLsbD j = decide (j = i) := by
      rw [show (1 : Word128) <<< i = BitVec.twoPow 128 i from rfl, BitVec.getLsbD_twoPow]
      simp [hi, eq_comm]
    rw [eccXor, hbit, ih]
    rcases lt_trichotomy j i with hj | rfl | hj
    · have hsub : i - j = i - (j + 1) + 1 := by omega
      simp [hj.ne, hj.le, Nat.succ_le_of_lt hj, hsub]
    · simp
    · have h1 : ¬ j + 1 ≤ i := by omega
      simp [hj.ne', hj.not_ge, h1]

theorem eccColumns_length : eccColumns.length = 128 := by decide +kernel

theorem eccCheck_getLsbD (d : Word128) (i : Nat) : (eccCheck d).getLsbD i =
    decide ((List.range 128).countP (fun j => d.getLsbD j && (eccColumns.getD j 0).getLsbD i) % 2 = 1) := by
  rw [eccCheck, eccXor_getLsbD, eccColumns_length]
  simp only [Nat.zero_add]

theorem eccCheck_xor (a b : Word128) : eccCheck (a ^^^ b) = eccCheck a ^^^ eccCheck b := eccXor_xor eccColumns 0 a b

/-- The check bits of a single data bit are its column. -/
theorem eccCheck_bit (i : Nat) (hi : i < 128) : eccCheck ((1 : Word128) <<< i) = eccColumns.getD i 0 := by
  rw [eccCheck, eccXor_bit eccColumns 0 i hi, if_pos (Nat.zero_le i), Nat.sub_zero]

/-! ### The columns -/

/-- The weight of a nine-bit value. -/
def eccWeight (n : Nat) : Nat := (List.range 9).countP (fun i => n.testBit i)

/-- The table of columns is the list that R311 describes. -/
theorem eccColumns_map_toNat : eccColumns.map BitVec.toNat =
    (List.range 512).filter (fun n => eccWeight n = 3) ++ ((List.range 512).filter (fun n => eccWeight n = 5)).take 44 := by
  decide +kernel

theorem eccColumns_weight (c : BitVec 9) (hc : c ∈ eccColumns) : eccWeight c.toNat = 3 ∨ eccWeight c.toNat = 5 := by
  have hmem : c.toNat ∈ eccColumns.map BitVec.toNat := List.mem_map_of_mem hc
  rw [eccColumns_map_toNat, List.mem_append] at hmem
  rcases hmem with h | h
  · exact Or.inl (by simpa using List.of_mem_filter h)
  · exact Or.inr (by simpa using List.of_mem_filter (List.mem_of_mem_take h))

/-- The values of weight 3 are different from those of weight 5, and from each other. -/
theorem eccColumns_nodup : eccColumns.Nodup := by
  refine List.Nodup.of_map BitVec.toNat ?_
  rw [eccColumns_map_toNat]
  refine List.Nodup.append (List.nodup_range.filter _) ((List.nodup_range.filter _).sublist (List.take_sublist _ _)) fun n h3 h5 => ?_
  have w3 : eccWeight n = 3 := by simpa using List.of_mem_filter h3
  have w5 : eccWeight n = 5 := by simpa using List.of_mem_filter (List.mem_of_mem_take h5)
  omega

theorem checkColumn_weight (i : Nat) (hi : i < 9) : eccWeight ((1 : BitVec 9) <<< i).toNat = 1 := by
  have h : ∀ i < 9, eccWeight ((1 : BitVec 9) <<< i).toNat = 1 := by decide
  exact h i hi

theorem eccColumns_getD (i : Nat) (hi : i < 128) : eccColumns.getD i 0 = eccColumns[i]'(eccColumns_length ▸ hi) :=
  List.getD_eq_getElem _ _ _

theorem eccColumns_getD_mem (i : Nat) (hi : i < 128) : eccColumns.getD i 0 ∈ eccColumns := by
  rw [eccColumns_getD i hi]
  exact List.getElem_mem _

theorem eccColumns_getD_ne (i j : Nat) (hij : i < j) (hj : j < 128) : eccColumns.getD i 0 ≠ eccColumns.getD j 0 := by
  rw [eccColumns_getD i (hij.trans hj), eccColumns_getD j hj]
  exact fun h => hij.ne (eccColumns_nodup.getElem_inj_iff.1 h)

theorem checkColumn_notMem (i : Nat) (hi : i < 9) : (1 : BitVec 9) <<< i ∉ eccColumns := by
  intro h
  have h1 := checkColumn_weight i hi
  have h35 := eccColumns_weight _ h
  omega

theorem checkColumn_ne (i j : Nat) (hij : i < j) (hj : j < 9) : (1 : BitVec 9) <<< i ≠ (1 : BitVec 9) <<< j := by
  have h : ∀ j < 9, ∀ i < j, (1 : BitVec 9) <<< i ≠ (1 : BitVec 9) <<< j := by decide
  exact h j hj i hij

/-! ### The decode of a syndrome -/

/-- The search finds the first place of the syndrome in the list. -/
theorem eccFind_eq (l : List (BitVec 9)) (j : Nat) (s : BitVec 9) : eccFind l j s = if s ∈ l then some (j + l.idxOf s) else none := by
  induction l generalizing j with
  | nil => simp [eccFind]
  | cons h t ih =>
    by_cases hs : h = s
    · simp [eccFind, hs]
    · rw [eccFind, if_neg hs, ih, List.idxOf_cons_ne _ hs]
      simp only [List.mem_cons, Ne.symm hs, false_or]
      split
      · congr 1; omega
      · rfl

theorem eccFind_column (j : Nat) (hj : j < 128) : eccFind eccColumns 0 (eccColumns.getD j 0) = some j := by
  rw [eccFind_eq, if_pos (eccColumns_getD_mem j hj), eccColumns_getD j hj, eccColumns_nodup.idxOf_getElem, Nat.zero_add]

theorem eccFind_eq_none (s : BitVec 9) (hs : s ∉ eccColumns) : eccFind eccColumns 0 s = none := by
  rw [eccFind_eq, if_neg hs]

theorem eccFindCheck_checkColumn (i : Nat) (hi : i < 9) : eccFindCheck ((1 : BitVec 9) <<< i) = some i := by
  have h : ∀ i < 9, eccFindCheck ((1 : BitVec 9) <<< i) = some i := by decide
  exact h i hi

theorem eccFindCheck_eq_none (s : BitVec 9) (hs : ∀ i, i < 9 → s ≠ (1 : BitVec 9) <<< i) : eccFindCheck s = none := by
  simpa [eccFindCheck] using hs

section
variable {d : Word128} {check s : BitVec 9} (h : eccSyndrome d check = s)
include h

theorem eccDecode_clean (hs : s = 0) : eccDecode d check = .clean := by
  simp [eccDecode, h, hs]

theorem eccDecode_poison (hs : s = 0x1FF) : eccDecode d check = .poison := by
  simp [eccDecode, h, hs]

theorem eccDecode_data (j : Nat) (hj : j < 128) (hs : s = eccColumns.getD j 0) :
    eccDecode d check = .corrected (d ^^^ ((1 : Word128) <<< j)) j := by
  have hw := eccColumns_weight s (hs ▸ eccColumns_getD_mem j hj)
  have h0 : s ≠ 0 := by rintro rfl; revert hw; decide
  have h1 : s ≠ 0x1FF := by rintro rfl; revert hw; decide
  have hf : eccFind eccColumns 0 s = some j := hs ▸ eccFind_column j hj
  simp only [eccDecode, h, if_neg h0, if_neg h1, hf]

theorem eccDecode_check (i : Nat) (hi : i < 9) (hs : s = (1 : BitVec 9) <<< i) : eccDecode d check = .corrected d (128 + i) := by
  have hne : ∀ i < 9, (1 : BitVec 9) <<< i ≠ 0 ∧ (1 : BitVec 9) <<< i ≠ 0x1FF := by decide
  obtain ⟨h0, h1⟩ := hne i hi
  rw [← hs] at h0 h1
  have hf : eccFind eccColumns 0 s = none := eccFind_eq_none s (hs ▸ checkColumn_notMem i hi)
  have hc : eccFindCheck s = some i := hs ▸ eccFindCheck_checkColumn i hi
  simp only [eccDecode, h, if_neg h0, if_neg h1, hf, hc]

theorem eccDecode_uncorrectable (h0 : s ≠ 0) (h1 : s ≠ 0x1FF) (hd : s ∉ eccColumns) (hc : ∀ i, i < 9 → s ≠ (1 : BitVec 9) <<< i) :
    eccDecode d check = .uncorrectable s := by
  simp only [eccDecode, h, if_neg h0, if_neg h1, eccFind_eq_none s hd, eccFindCheck_eq_none s hc]

end

/-! ### Odd weight: two bits in error are never the column of a third -/

theorem countP_xor_mod_two (l : List Nat) (p q : Nat → Bool) :
    l.countP (fun i => p i ^^ q i) % 2 = (l.countP p + l.countP q) % 2 := by
  induction l with
  | nil => rfl
  | cons i t ih =>
    simp only [List.countP_cons]
    cases p i <;> cases q i <;> simp <;> omega

/-- A nine-bit value of odd weight, as the column of every bit of a stored word is. -/
def OddWeight (s : BitVec 9) : Prop := eccWeight s.toNat % 2 = 1

theorem not_oddWeight_xor {a b : BitVec 9} (ha : OddWeight a) (hb : OddWeight b) : ¬ OddWeight (a ^^^ b) := by
  have hsum : eccWeight (a ^^^ b).toNat % 2 = (eccWeight a.toNat + eccWeight b.toNat) % 2 := by
    simpa [eccWeight] using countP_xor_mod_two (List.range 9) a.toNat.testBit b.toNat.testBit
  unfold OddWeight at *
  omega

theorem oddWeight_column (c : BitVec 9) (hc : c ∈ eccColumns) : OddWeight c := by
  unfold OddWeight
  rcases eccColumns_weight c hc with h | h <;> rw [h]

theorem oddWeight_checkColumn (i : Nat) (hi : i < 9) : OddWeight ((1 : BitVec 9) <<< i) := by
  rw [OddWeight, checkColumn_weight i hi]

theorem oddWeight_poison : OddWeight 0x1FF := by unfold OddWeight; decide

/-- The XOR of two different columns is no column, and not the syndrome of stored poison. -/
theorem eccDecode_twoColumns {d : Word128} {check a b : BitVec 9} (h : eccSyndrome d check = a ^^^ b)
    (ha : OddWeight a) (hb : OddWeight b) (hab : a ≠ b) : ∃ x, eccDecode d check = .uncorrectable x := by
  have hne : ∀ c, OddWeight c → a ^^^ b ≠ c := fun c hc e => not_oddWeight_xor ha hb (e ▸ hc)
  exact ⟨a ^^^ b, eccDecode_uncorrectable h (fun e => hab (BitVec.xor_eq_zero_iff.1 e)) (hne _ oddWeight_poison)
    (fun hm => hne _ (oddWeight_column _ hm) rfl) (fun i hi => hne _ (oddWeight_checkColumn i hi))⟩

/-! ### The syndrome of a word with bits in error -/

/-- The data is inverted in the bits of `e`, the check bits in those of `c`: the word written drops out of the syndrome. -/
theorem eccSyndrome_xor (d e : Word128) (c : BitVec 9) : eccSyndrome (d ^^^ e) (eccCheck d ^^^ c) = eccCheck e ^^^ c := by
  calc eccSyndrome (d ^^^ e) (eccCheck d ^^^ c)
    _ = (eccCheck d ^^^ eccCheck d) ^^^ (eccCheck e ^^^ c) := by rw [eccSyndrome, eccCheck_xor]; ac_rfl
    _ = eccCheck e ^^^ c := by rw [BitVec.xor_self, BitVec.zero_xor]

theorem eccSyndrome_check_xor (d : Word128) (c : BitVec 9) : eccSyndrome d (eccCheck d ^^^ c) = c := by
  simp [eccSyndrome]

theorem eccSyndrome_data_xor (d e : Word128) : eccSyndrome (d ^^^ e) (eccCheck d) = eccCheck e := by
  simpa using eccSyndrome_xor d e 0

/-- Settles O45: check bits are linear in the data, so a syndrome is the XOR of the columns of the bits in error; all 137 columns are different and of
odd weight, so two of them never add up to a third. -/
theorem memoryCode : Obligations.MemoryCode := by
  unfold Obligations.MemoryCode
  refine ⟨eccColumns_map_toNat, fun d i _ => eccCheck_getLsbD d i, fun d check => ?_, fun d => ⟨?_, ?_, fun i hi => ?_, fun i hi => ?_,
    fun i j hij hj => ?_, fun i j hi hj => ?_, fun i j hij hj => ?_⟩⟩
  · exact ⟨rfl, eccDecode_clean rfl, eccDecode_poison rfl, eccDecode_data rfl, eccDecode_check rfl, eccDecode_uncorrectable rfl⟩
  · exact eccDecode_clean rfl BitVec.xor_self
  · exact eccDecode_poison (eccSyndrome_check_xor d _) rfl
  · simpa [BitVec.xor_assoc] using eccDecode_data (eccSyndrome_data_xor d _) i hi (eccCheck_bit i hi)
  · exact eccDecode_check (eccSyndrome_check_xor d _) i hi rfl
  · have hs := eccSyndrome_data_xor d ((1 : Word128) <<< i ^^^ (1 : Word128) <<< j)
    rw [eccCheck_xor, eccCheck_bit i (hij.trans hj), eccCheck_bit j hj, ← BitVec.xor_assoc] at hs
    exact eccDecode_twoColumns hs (oddWeight_column _ (eccColumns_getD_mem i (hij.trans hj))) (oddWeight_column _ (eccColumns_getD_mem j hj))
      (eccColumns_getD_ne i j hij hj)
  · have hs := eccSyndrome_xor d ((1 : Word128) <<< i) ((1 : BitVec 9) <<< j)
    rw [eccCheck_bit i hi] at hs
    exact eccDecode_twoColumns hs (oddWeight_column _ (eccColumns_getD_mem i hi)) (oddWeight_checkColumn j hj)
      (fun e => checkColumn_notMem j hj (e ▸ eccColumns_getD_mem i hi))
  · have hs := eccSyndrome_check_xor d ((1 : BitVec 9) <<< i ^^^ (1 : BitVec 9) <<< j)
    rw [← BitVec.xor_assoc] at hs
    exact eccDecode_twoColumns hs (oddWeight_checkColumn i (hij.trans hj)) (oddWeight_checkColumn j hj) (checkColumn_ne i j hij hj)

end Sys2Proof.Machine
end

