-- ==== Sys2Proof/Proofs/DramWords.lean ====
section
/-! PROOF. Stored DRAM words: what a word written reads back as, where a word lies, and the address tag (R326 to R328). -/

namespace Sys2Proof.Machine

/-! ### The bytes of a word -/

@[simp] theorem leBytes_length (n v : Nat) : (leBytes n v).length = n := by
  induction n generalizing v with
  | zero => rfl
  | succ n ih => simp [leBytes, ih]

theorem ofLe_leBytes (n v : Nat) : ofLe (leBytes n v) = v % 256 ^ n := by
  induction n generalizing v with
  | zero => simp [leBytes, ofLe, Nat.mod_one]
  | succ n ih =>
    have h : v % 256 ^ (n + 1) = v % 256 + 256 * (v / 256 % 256 ^ n) := by rw [Nat.pow_succ', Nat.mod_mul]
    rw [leBytes, ofLe, ih, BitVec.toNat_ofNat, h]

theorem memRead_eq_map (fill : Byte) (m : Memory) (a n : Nat) : memRead fill m a n = (List.range n).map (fun i => memGet fill m (a + i)) := by
  induction n generalizing a with
  | zero => rfl
  | succ n ih =>
    rw [memRead, ih, List.range_succ_eq_map, List.map_cons, List.map_map]
    refine congrArg₂ _ rfl (List.map_congr_left fun i _ => ?_)
    simp only [Function.comp_apply, Nat.succ_eq_add_one]
    congr 1; omega

/-- What was written is read. -/
theorem memRead_memWrite_same (fill : Byte) (m : Memory) (a : Nat) (l : List Byte) : memRead fill (memWrite fill m a l) a l.length = l := by
  rw [memRead_eq_map]
  refine List.ext_getElem (by simp) fun i h1 h2 => ?_
  simp [memGet_memWrite, h2]

/-- What lies apart from the bytes written is read as before. -/
theorem memRead_memWrite_apart (fill : Byte) (m : Memory) (a b n : Nat) (l : List Byte) (h : b + n ≤ a ∨ a + l.length ≤ b) :
    memRead fill (memWrite fill m a l) b n = memRead fill m b n := by
  rw [memRead_eq_map, memRead_eq_map]
  refine List.map_congr_left fun i hi => ?_
  have hi := List.mem_range.1 hi
  rw [memGet_memWrite, if_neg (by omega)]

/-- A word written is read back; every other word stays. -/
theorem memWord_memWrite (fill : Byte) (m : Memory) (k j : Nat) (d : Word128) :
    memWord fill (memWrite fill m (16 * k) (leBytes 16 d.toNat)) (16 * j) = if j = k then d else memWord fill m (16 * j) := by
  unfold memWord
  split
  · next hj =>
    have h := memRead_memWrite_same fill m (16 * k) (leBytes 16 d.toNat)
    rw [leBytes_length] at h
    rw [hj, h, ofLe_leBytes, show 256 ^ 16 = 2 ^ 128 by decide, Nat.mod_eq_of_lt d.isLt, BitVec.ofNat_toNat, BitVec.setWidth_eq]
  · rw [memRead_memWrite_apart _ _ _ _ _ _ (by rw [leBytes_length]; omega)]

/-! ### Accesses of one whole word -/

/-- The bytes of an aligned access of 16 bytes lie in one word. -/
theorem wordLanes_word (a : Nat) (l : List (Option Byte)) (ha : a % 16 = 0) (hl : l.length = 16) : wordLanes a l = [(a / 16, l)] := by
  have hne : l.isEmpty = false := by cases l with
    | nil => simp at hl
    | cons _ _ => rfl
  have hn : (a + l.length - 1) / 16 + 1 - a / 16 = 1 := by omega
  unfold wordLanes
  simp only [hne, Bool.false_eq_true, if_false, hn, List.range_one, List.map_cons, List.map_nil, Nat.add_zero, List.cons.injEq, Prod.mk.injEq,
    true_and, and_true]
  refine List.ext_getElem (by simp [hl]) fun i h1 h2 => ?_
  have hi : a / 16 * 16 + i - a = i := by omega
  have hge : ¬ a / 16 * 16 + i < a := by omega
  simp [hge, hi, h2]

/-- A whole word written to a port that serves it is stored clean. -/
theorem Chip.dramWriteWord_whole (c : Chip) (master a : Nat) (bytes : List Byte) (hl : bytes.length = 16) (hc : a < c.capacity)
    (hf : c.state (dramPage (c.dramLoc a).port) ≠ dsFailed) :
    c.dramWriteWord master a (bytes.map some) = c.dramStore a (BitVec.ofNat 128 (ofLe bytes)) 0 := by
  have hget : ∀ i, i < 16 → (bytes.map some).getD i none = some (bytes.getD i 0) := fun i hi => by simp [hl, hi]
  have hmask : (List.range 16).foldl (fun m i => match (bytes.map some).getD i none with | some _ => m + 2 ^ i | none => m) 0 = 0xFFFF := by
    rw [List.foldl_ext _ (fun m i => m + 2 ^ i) 0 fun m i hi => by rw [hget i (List.mem_range.1 hi)]]
    rfl
  have hdata : (List.range 16).map (fun i => ((bytes.map some).getD i none).getD 0) = bytes := by
    refine List.ext_getElem (by simp [hl]) fun i h1 h2 => ?_
    simp [h2]
  unfold Chip.dramWriteWord
  rw [if_neg (by omega), if_neg hf]
  dsimp only
  rw [hdata]
  generalize hm : List.foldl _ 0 (List.range 16) = mask
  have : mask = 0xFFFF := hm.symm.trans hmask
  simp [this]

/-- A clean word of a port that serves it is read as it is stored, and nothing changes. -/
theorem Chip.dramReadWord_clean (c : Chip) (master a : Nat) (hc : a < c.capacity) (hf : c.state (dramPage (c.dramLoc a).port) ≠ dsFailed)
    (hs : c.dramSynOf (c.dramKeys a).1 = 0) : c.dramReadWord master a = ((c.dramData (c.dramKeys a).1, false), c) := by
  unfold Chip.dramReadWord
  rw [if_neg (by omega), if_neg hf]
  simp [hs, eccBySyndrome]

/-- A word above CAPACITY reads as zero and poisoned (R331). -/
theorem Chip.dramReadWord_range (c : Chip) (master a : Nat) (hc : c.capacity ≤ a) : c.dramReadWord master a = ((0, true), c) := by
  unfold Chip.dramReadWord; rw [if_pos hc]

theorem Chip.dramWriteWord_range (c : Chip) (master a : Nat) (l : List (Option Byte)) (hc : c.capacity ≤ a) : c.dramWriteWord master a l = c := by
  unfold Chip.dramWriteWord; rw [if_pos hc]

/-- A word read into what a read of several has gathered: its bytes, and whether one is poisoned. -/
def readStep (master : Nat) (acc : (List Byte × Bool) × Chip) (w : Nat) : (List Byte × Bool) × Chip :=
  let x := acc.2.dramReadWord master (16 * w)
  ((acc.1.1 ++ leBytes 16 x.1.1.toNat, acc.1.2 || x.1.2), x.2)

/-- The bytes asked for of the words gathered. -/
def readSlice (a n : Nat) (r : (List Byte × Bool) × Chip) : (List Byte × Bool) × Chip := ((slice r.1.1 (a % 16) n, r.1.2), r.2)

theorem Chip.dramRead_eq (c : Chip) (master a n : Nat) :
    c.dramRead master a n = readSlice a n (((wordLanes a (List.replicate n (some 0))).map (·.1)).foldl (readStep master)
      (([], false), (c.dramTouch master (dramHint master false) a n).dramRange master a n)) := rfl

/-- A read of one whole word is the checked read of that word. -/
theorem Chip.dramRead_word (c : Chip) (master a : Nat) (ha : a % 16 = 0) (r : (Word128 × Bool) × Chip)
    (hr : ((c.dramTouch master (dramHint master false) a 16).dramRange master a 16).dramReadWord master a = r) :
    c.dramRead master a 16 = ((leBytes 16 r.1.1.toNat, r.1.2), r.2) := by
  have h16 : 16 * (a / 16) = a := by omega
  have hstep : ∀ d : Chip, d.dramReadWord master a = r → readStep master (([], false), d) (a / 16) = ((leBytes 16 r.1.1.toNat, r.1.2), r.2) := by
    intro d hd
    unfold readStep
    rw [h16, hd]
    simp
  rw [Chip.dramRead_eq, wordLanes_word a _ ha List.length_replicate, List.map_cons, List.map_nil, List.foldl_cons, List.foldl_nil, hstep _ hr]
  unfold readSlice
  rw [ha, slice, List.drop_zero, List.take_of_length_le (by rw [leBytes_length])]

theorem Chip.dramWriteNow_eq (c : Chip) (master a : Nat) (h : PageHint) (l : List (Option Byte)) :
    c.dramWriteNow master h a l = (wordLanes a l).foldl (fun c x => c.dramWriteWord master (16 * x.1) x.2)
      (((c.markBlocks a l.length).dramTouch master h a l.length).dramRange master a l.length) := rfl

/-- A write of one whole word is the write of that word. -/
theorem Chip.dramWriteNow_word (c : Chip) (master a : Nat) (h : PageHint) (l : List (Option Byte)) (ha : a % 16 = 0) (hl : l.length = 16) :
    c.dramWriteNow master h a l = (((c.markBlocks a 16).dramTouch master h a 16).dramRange master a 16).dramWriteWord master a l := by
  have h16 : 16 * (a / 16) = a := by omega
  rw [Chip.dramWriteNow_eq, wordLanes_word a l ha hl, hl, List.foldl_cons, List.foldl_nil]
  simp only [h16]

/-! ### The word stored -/

/-- Stored data and syndrome after one word is put. -/
theorem Chip.dramData_dramPut (c : Chip) (k j : Nat) (d : Word128) (syn : Nat) (hw : (c.dramPort (c.dramKeyPort k)).wild = none) :
    (c.dramPut k d syn).dramData j = if j = k then d else c.dramData j := by
  have hmem : memWord 0 (c.dramPut k d syn).mem.dram (16 * j) = if j = k then d else memWord 0 c.mem.dram (16 * j) := memWord_memWrite ..
  have hport : (c.dramPut k d syn).dramPort ((c.dramPut k d syn).dramKeyPort j) = c.dramPort (c.dramKeyPort j) := rfl
  unfold Chip.dramData
  rw [hport, hmem]
  by_cases hj : j = k
  · rw [hj, hw, if_pos rfl]
  · rw [if_neg hj, if_neg hj]

theorem Chip.dramSynOf_dramPut (c : Chip) (k j : Nat) (d : Word128) (syn : Nat) (hw : (c.dramPort (c.dramKeyPort k)).wild = none) :
    (c.dramPut k d syn).dramSynOf j = if j = k then syn else c.dramSynOf j := by
  have hmem : smGet 0 (c.dramPut k d syn).mem.dramSyn j = if j = k then syn else smGet 0 c.mem.dramSyn j := smGet_smPut ..
  have hport : (c.dramPut k d syn).dramPort ((c.dramPut k d syn).dramKeyPort j) = c.dramPort (c.dramKeyPort j) := rfl
  unfold Chip.dramSynOf
  rw [hport, hmem]
  by_cases hj : j = k
  · rw [hj, hw, if_pos rfl]
  · rw [if_neg hj, if_neg hj]

/-- With no flip mask armed and no remapped copy, a store puts one word. -/
theorem Chip.dramStore_one (c : Chip) (a k : Nat) (d : Word128) (syn : Nat) (hf : c.flipArmed (dramPage (c.dramLoc a).port) = false)
    (hk : (c.dramKeys a).2 = [k]) : c.dramStore a d syn = c.dramPut k d syn := by
  unfold Chip.dramStore Chip.dramPuts
  simp [hf, hk]

/-! ### Where a word lies (R326) -/

theorem Chip.dramLoc_port_lt (c : Chip) (a : Nat) : (c.dramLoc a).port < 4 := by
  have hmem : ∀ p ∈ c.dramPorts, p < 4 := fun p hp => List.mem_range.1 (List.mem_filter.1 hp).1
  show c.dramPorts.getD _ 0 < 4
  rw [List.getD_eq_getElem?_getD]
  cases h : c.dramPorts[a / 64 / c.dramNc % c.dramPorts.length]? with
  | none => decide
  | some p => exact hmem p (List.mem_of_getElem? h)

/-- Ranks are whole bursts of 64 bytes. -/
theorem Chip.rankData_eq (c : Chip) (p : Nat) : c.rankData p = 64 * ((c.dramPort p).rankMib * 14336) := by
  unfold Chip.rankData; omega

/-- The burst that holds an address lies in its rank, at its offset rounded down. -/
theorem Chip.dramLoc_burst (c : Chip) (a : Nat) : c.dramLoc (a / 64 * 64) = { c.dramLoc a with ofs := (c.dramLoc a).ofs / 64 * 64 } := by
  have hg : a / 64 * 64 / 64 = a / 64 := by omega
  have hr : a / 64 * 64 % 64 = 0 := by omega
  have hlt : a % 64 < 64 := Nat.mod_lt _ (by decide)
  have hmod : ∀ x r e, r < 64 → (x * 64 + r) % (64 * e) = r + 64 * (x % e) := fun x r e h => by
    rw [Nat.mod_mul, show (x * 64 + r) % 64 = r by omega, show (x * 64 + r) / 64 = x by omega]
  have hdiv : ∀ x r e, r < 64 → (x * 64 + r) / (64 * e) = x / e := fun x r e h => by
    rw [← Nat.div_div_eq_div_mul, show (x * 64 + r) / 64 = x by omega]
  unfold Chip.dramLoc
  simp only [hg, hr, Chip.rankData_eq, hmod _ _ _ hlt, hmod _ 0 _ (by decide), hdiv _ _ _ hlt, hdiv _ 0 _ (by decide), DramLoc.mk.injEq, true_and]
  omega

/-- A row holds whole bursts. -/
theorem bankKey_burst (l : DramLoc) : bankKey { l with ofs := l.ofs / 64 * 64 } = bankKey l := by
  unfold bankKey
  rw [show l.ofs / 64 * 64 / 2048 = l.ofs / 2048 by omega]

/-- An aligned access of 16 bytes is in one burst, there where the address is within CAPACITY. -/
theorem Chip.bursts_word (c : Chip) (a : Nat) (ha : a % 16 = 0) : c.bursts a 16 = if a < c.capacity then [a / 64 * 64] else [] := by
  have hn : (a + 16 - 1) / 64 + 1 - a / 64 = 1 := by omega
  have hcap : a / 64 * 64 < c.capacity ↔ a < c.capacity := by unfold Chip.capacity; omega
  unfold Chip.bursts
  rw [if_neg (by decide), hn]
  simp [hcap, List.filter_cons]

/-! ### The address tag (R328) -/

/-- The number with bits `f 0` to `f (n - 1)`. -/
def bitSum (f : Nat → Bool) (n : Nat) : Nat := (List.range n).foldl (fun t i => t + (f i).toNat * 2 ^ i) 0

theorem bitSum_succ (f : Nat → Bool) (n : Nat) : bitSum f (n + 1) = 2 ^ n * (f n).toNat + bitSum f n := by
  unfold bitSum; rw [List.range_succ, List.foldl_append]; simp only [List.foldl_cons, List.foldl_nil]; ring

theorem bitSum_lt (f : Nat → Bool) (n : Nat) : bitSum f n < 2 ^ n := by
  induction n with
  | zero => exact Nat.one_pos
  | succ n ih =>
    rw [bitSum_succ, Nat.pow_succ]
    have hb : 2 ^ n * (f n).toNat ≤ 2 ^ n * 1 := Nat.mul_le_mul_left _ (Bool.toNat_le _)
    omega

theorem bitSum_testBit (f : Nat → Bool) (n i : Nat) (hi : i < n) : (bitSum f n).testBit i = f i := by
  induction n with
  | zero => omega
  | succ n ih =>
    rw [bitSum_succ, Nat.testBit_two_pow_mul_add _ (bitSum_lt f n)]
    split
    · exact ih ‹_›
    · obtain rfl : i = n := by omega
      cases f i <;> simp

/-- Bit i of the tag of an address: the XOR of every seventh bit from 4 + i up, of the 36 of the address. -/
def tagBit (a i : Nat) : Bool :=
  let bit := fun n : Nat => (a % 2 ^ 36).testBit n
  ((((bit (4 + i)).xor (bit (11 + i))).xor (bit (18 + i))).xor (bit (25 + i))).xor (bit (32 + i))

theorem bool_sum_mod_two (p q r s t : Bool) : (p.toNat + q.toNat + r.toNat + s.toNat + t.toNat) % 2 = ((((p.xor q).xor r).xor s).xor t).toNat := by
  revert p q r s t; decide

theorem addressBit_toNat (a n : Nat) : (if n ≤ 35 then a / 2 ^ n % 2 else 0) = ((a % 2 ^ 36).testBit n).toNat := by
  rw [Nat.testBit_mod_two_pow]
  split
  · rw [decide_eq_true (by omega), Bool.true_and, Nat.toNat_testBit]
  · rw [decide_eq_false (by omega)]; rfl

theorem dramTag_eq_bitSum (a : Nat) : dramTag a = bitSum (tagBit a) 7 := by
  unfold dramTag bitSum tagBit
  simp only [addressBit_toNat, bool_sum_mod_two]

/-- The tag's bits are the XORs of R328. -/
theorem dramTag_spec (a i : Nat) (hi : i < 7) : dramTag a < 128 ∧ (dramTag a).testBit i = tagBit a i := by
  rw [dramTag_eq_bitSum]
  exact ⟨bitSum_lt _ 7, bitSum_testBit _ 7 i hi⟩

end Sys2Proof.Machine
end

