-- ==== Sys2Proof/Proofs/DramAccesses.lean ====
section
/-! PROOF. DRAM accesses of the masters: served, out of range, or stalled (R328 to R338, R343). -/

namespace Sys2Proof.Machine

@[simp] theorem Chip.dramPort_setDramPort (c : Chip) (p q : Nat) (s : DramPortSt) :
    (c.setDramPort p s).dramPort q = if q = p then s else c.dramPort q := smGet_smSet _ _ _ _ _

/-! ### What an access leaves of the words stored -/

/-- One block has the stored words of another, where they lie and what they read as, the requests that stall and what has been sent: of the
registers the count of in-order entries may differ, of a port its rows, ranks in power-down and banks in order. -/
structure SameWords (c d : Chip) : Prop where
  build : d.build = c.build
  regs : ∀ a, a ≠ F.DRAMCTL_STATUS_INORDER.addr → smFind d.regs a = smFind c.regs a
  mem : { d.mem with ports := c.mem.ports } = c.mem
  rankMib : ∀ p, (d.dramPort p).rankMib = (c.dramPort p).rankMib
  wild : ∀ p, (d.dramPort p).wild = (c.dramPort p).wild
  out : d.out = c.out

namespace SameWords

theorem refl (c : Chip) : SameWords c c := ⟨rfl, fun _ _ => rfl, rfl, fun _ => rfl, fun _ => rfl, rfl⟩

theorem trans {c d e : Chip} (h : SameWords c d) (k : SameWords d e) : SameWords c e where
  build := k.build.trans h.build
  regs a ha := (k.regs a ha).trans (h.regs a ha)
  mem := by rw [← h.mem, ← k.mem]
  rankMib p := (k.rankMib p).trans (h.rankMib p)
  wild p := (k.wild p).trans (h.wild p)
  out := k.out.trans h.out

theorem setDramPort (c : Chip) (p : Nat) (s : DramPortSt) (hr : s.rankMib = (c.dramPort p).rankMib) (hw : s.wild = (c.dramPort p).wild) :
    SameWords c (c.setDramPort p s) where
  build := rfl
  regs _ _ := rfl
  mem := rfl
  rankMib q := by rw [Chip.dramPort_setDramPort]; split <;> simp [*]
  wild q := by rw [Chip.dramPort_setDramPort]; split <;> simp [*]
  out := rfl

theorem bump_inOrder (c : Chip) : SameWords c (c.bump F.DRAMCTL_STATUS_INORDER) where
  build := rfl
  regs a ha := by
    show smFind (smSet c.regs _ _) a = _
    rw [smFind_smSet, if_neg ha]
  mem := rfl
  rankMib _ := rfl
  wild _ := rfl
  out := rfl

variable {c d : Chip} (h : SameWords c d)
include h

theorem rd (a : Nat) (ha : a ≠ F.DRAMCTL_STATUS_INORDER.addr) : d.rd a = c.rd a := by unfold Chip.rd; rw [h.regs a ha, h.build]
theorem get (f : Fld) (hf : f.addr ≠ F.DRAMCTL_STATUS_INORDER.addr) : d.get f = c.get f := by unfold Chip.get; rw [h.rd _ hf]
theorem capacity : d.capacity = c.capacity := by unfold Chip.capacity; rw [h.get _ (by decide)]
theorem get_pg (f : Fld) (n : Nat) (hf : f.addr % 4096 ≠ 0x05C) : d.get (f.pg n) = c.get (f.pg n) :=
  h.get _ (by show f.addr + 4096 * n ≠ 0x0E405C; omega)
theorem state (pg : Nat) : d.state pg = c.state pg := h.get_pg F.STATE pg (by decide)
theorem flipArmed (pg : Nat) : d.flipArmed pg = c.flipArmed pg := by unfold Chip.flipArmed Chip.on; rw [h.get_pg _ _ (by decide)]
theorem dramLoc (a : Nat) : d.dramLoc a = c.dramLoc a := by
  unfold Chip.dramLoc Chip.dramPorts Chip.dramNc Chip.rankData
  rw [h.build, h.get _ (by decide)]
  simp only [h.rankMib]
theorem dramSyn : d.mem.dramSyn = c.mem.dramSyn := by have e := congrArg MemSt.dramSyn h.mem; exact e
theorem dram : d.mem.dram = c.mem.dram := by have e := congrArg MemSt.dram h.mem; exact e
theorem sram : d.mem.sram = c.mem.sram := by have e := congrArg MemSt.sram h.mem; exact e
theorem stalled : d.mem.stalled = c.mem.stalled := by have e := congrArg MemSt.stalled h.mem; exact e
theorem remapCopy : d.mem.remapCopy = c.mem.remapCopy := by have e := congrArg MemSt.remapCopy h.mem; exact e

theorem dremap (p e : Nat) : d.dremap p e = c.dremap p e := by
  unfold Chip.dremap
  rw [h.regs _ (by show 0x1000000 + 64 * p + 4 * e ≠ 0x0E405C; omega)]

theorem dramKeys (a : Nat) : d.dramKeys a = c.dramKeys a := by
  unfold Chip.dramKeys Chip.spareKey Chip.spareOfs Chip.rankBytes
  simp only [h.dramLoc, h.dremap, h.rankMib, h.remapCopy]

theorem dramKeyPort (k : Nat) : d.dramKeyPort k = c.dramKeyPort k := by unfold Chip.dramKeyPort; rw [h.dramLoc]

theorem dramData (k : Nat) : d.dramData k = c.dramData k := by unfold Chip.dramData; rw [h.dramKeyPort, h.wild, h.dram]
theorem dramSynOf (k : Nat) : d.dramSynOf k = c.dramSynOf k := by unfold Chip.dramSynOf; rw [h.dramKeyPort, h.wild, h.dramSyn]

theorem dramStalls (r : DramReq) : d.dramStalls r = c.dramStalls r := by
  unfold Chip.dramStalls Chip.inStep Chip.portsOf Chip.bursts
  simp only [h.state, h.capacity, h.dramLoc, h.stalled]

theorem leavesOpen (master : Nat) (x : PageHint) : d.leavesOpen master x = c.leavesOpen master x := by
  unfold Chip.leavesOpen; rw [h.get _ (by decide)]

end SameWords

/-! ### The steps of an access -/

/-- A write of a mirrored block marks it and changes nothing else (R290). -/
theorem Chip.markBlocks_eq (c : Chip) (a n : Nat) : ∃ m, c.markBlocks a n = { c with mirror := m } := by
  unfold Chip.markBlocks
  split
  · exact ⟨c.mirror, rfl⟩
  · refine foldl_rel (fun c d : Chip => ∃ m, d = { c with mirror := m }) (fun c => ⟨c.mirror, rfl⟩) ?_ (fun c => c) _ _ (fun d i _ => ?_) c
    · rintro c d e ⟨m, rfl⟩ ⟨n, rfl⟩; exact ⟨n, rfl⟩
    · dsimp only
      split
      · exact ⟨_, rfl⟩
      · exact ⟨d.mirror, rfl⟩

theorem Chip.sameWords_markBlocks (c : Chip) (a n : Nat) : SameWords c (c.markBlocks a n) := by
  obtain ⟨m, e⟩ := c.markBlocks_eq a n
  rw [e]
  exact ⟨rfl, fun _ _ => rfl, rfl, fun _ => rfl, fun _ => rfl, rfl⟩

theorem Chip.markBlocks_regs (c : Chip) (a n : Nat) : (c.markBlocks a n).regs = c.regs := by
  obtain ⟨m, e⟩ := c.markBlocks_eq a n
  rw [e]

theorem Chip.sameWords_dramTouch (c : Chip) (master : Nat) (x : PageHint) (a n : Nat) : SameWords c (c.dramTouch master x a n) :=
  foldl_rel SameWords SameWords.refl SameWords.trans (fun c => c) (fun c y => c.touchRow (c.leavesOpen master x) y) _
    (fun d _ _ => SameWords.setDramPort d _ _ rfl rfl) c

theorem Chip.dramTouch_regs (c : Chip) (master : Nat) (x : PageHint) (a n : Nat) : (c.dramTouch master x a n).regs = c.regs :=
  foldl_rel (fun c d => d.regs = c.regs) (fun _ => rfl) (fun h k => k.trans h) (fun c => c) (fun c y => c.touchRow (c.leavesOpen master x) y) _
    (fun _ _ _ => rfl) c

theorem Chip.touchRow_inOrder (c : Chip) (keep : Bool) (a p : Nat) : ((c.touchRow keep a).dramPort p).inOrder = (c.dramPort p).inOrder := by
  unfold Chip.touchRow
  rw [Chip.dramPort_setDramPort]
  split
  · next hp => rw [hp]
  · rfl

theorem Chip.dramTouch_inOrder (c : Chip) (master : Nat) (x : PageHint) (a n p : Nat) :
    ((c.dramTouch master x a n).dramPort p).inOrder = (c.dramPort p).inOrder :=
  foldl_rel (fun c d => (d.dramPort p).inOrder = (c.dramPort p).inOrder) (fun _ => rfl) (fun h k => k.trans h) (fun c => c)
    (fun c y => c.touchRow (c.leavesOpen master x) y) _ (fun d y _ => d.touchRow_inOrder _ y p) c

theorem Chip.sameWords_orderMode (c : Chip) (r : DramReq) (hits : Bool) : SameWords c (c.orderMode r hits) := by
  unfold Chip.orderMode
  dsimp only
  split
  · exact SameWords.refl c
  · split
    · split
      · exact SameWords.setDramPort c _ _ rfl rfl
      · exact (SameWords.bump_inOrder c).trans (SameWords.setDramPort _ _ _ rfl rfl)
    · exact SameWords.setDramPort c _ _ rfl rfl

/-- An access above CAPACITY has no bank. -/
theorem Chip.orderMode_range (c : Chip) (r : DramReq) (hits : Bool) (hc : c.capacity ≤ r.addr) : c.orderMode r hits = c := by
  unfold Chip.orderMode; simp only [hc, if_true]

/-- An access that hits no pending write changes no register. -/
theorem Chip.orderMode_regs (c : Chip) (r : DramReq) : (c.orderMode r false).regs = c.regs := by
  unfold Chip.orderMode
  simp only [Bool.false_and, Bool.false_eq_true, if_false]
  split <;> rfl

/-- The bank of a read is in in-order mode where the read hits a pending write (R335). -/
theorem Chip.orderMode_inOrder (c : Chip) (r : DramReq) (hits : Bool) (a : Nat) (ha : r.addr = a) (hc : a < c.capacity) (hr : r.write = false) :
    smGet false ((c.orderMode r hits).dramPort (c.dramLoc a).port).inOrder (bankKey (c.dramLoc a)) = hits := by
  subst ha
  unfold Chip.orderMode
  dsimp only
  rw [if_neg (by omega), hr]
  cases hits with
  | false => simp [smGet]
  | true => simp

/-- A bank that enters in-order mode is counted (R335). -/
theorem Chip.orderMode_count (c : Chip) (r : DramReq) (a : Nat) (ha : r.addr = a) (hc : a < c.capacity) (hr : r.write = false)
    (hm : smGet false (c.dramPort (c.dramLoc a).port).inOrder (bankKey (c.dramLoc a)) = false) :
    (c.orderMode r true).get F.DRAMCTL_STATUS_INORDER = (c.get F.DRAMCTL_STATUS_INORDER + 1) % 65536 := by
  subst ha
  unfold Chip.orderMode
  dsimp only
  rw [if_neg (by omega), hr, hm]
  exact Chip.get_set c F.DRAMCTL_STATUS_INORDER _ (by decide) (by decide)

/-- What a port shows once an aligned access of 16 bytes within CAPACITY has reached its row. -/
theorem Chip.dramTouch_port (c : Chip) (master a : Nat) (x : PageHint) (ha : a % 16 = 0) (hc : a < c.capacity) :
    let l := c.dramLoc a
    (c.dramTouch master x a 16).dramPort l.port = { c.dramPort l.port with
      powerDown := smPut false (c.dramPort l.port).powerDown l.rank false
      rows := if c.leavesOpen master x then smSet (c.dramPort l.port).rows (bankKey l) (l.ofs / 2048) else smDel (c.dramPort l.port).rows (bankKey l) } := by
  have hrow : (c.dramLoc a).ofs / 64 * 64 / 2048 = (c.dramLoc a).ofs / 2048 := by omega
  unfold Chip.dramTouch
  rw [c.bursts_word a ha, if_pos hc, List.foldl_cons, List.foldl_nil]
  unfold Chip.touchRow
  simp only [Chip.dramLoc_burst, bankKey_burst, hrow, Chip.dramPort_setDramPort, if_true]

theorem Chip.dramTouch_range (c : Chip) (master a : Nat) (x : PageHint) (ha : a % 16 = 0) (hc : c.capacity ≤ a) : c.dramTouch master x a 16 = c := by
  unfold Chip.dramTouch
  rw [c.bursts_word a ha, if_neg (by omega)]
  rfl

theorem Chip.dramRange_within (c : Chip) (master a n : Nat) (hc : a + n ≤ c.capacity) : c.dramRange master a n = c := by
  unfold Chip.dramRange; simp [hc]

theorem Quiet.capacity {c d : Chip} (h : Quiet c d) : d.capacity = c.capacity := by unfold Chip.capacity; rw [h.get _ (by decide)]

theorem dramctl_hasPage (c : Chip) : c.hasPage 0x0E4 = true := by unfold Chip.hasPage; cases c.build <;> decide +kernel

/-- An access above CAPACITY reports, and raises DRAM_RANGE (R331). -/
theorem Chip.dramRange_above (c : Chip) (master a n : Nat) (hn : n ≠ 0) (hc : c.capacity ≤ a) :
    Quiet c (c.dramRange master a n) ∧ (c.dramRange master a n).pend E.DRAM_RANGE = true := by
  unfold Chip.dramRange
  rw [if_neg (by simp [hn]; omega)]
  exact ⟨(c.quiet_report _ _).trans (Chip.quiet_raise _ _), Chip.raise_pend _ _ (dramctl_hasPage _) (by decide)⟩

/-! ### A request served -/

@[simp] theorem Chip.emit_memData (c : Chip) (m a : Nat) (l : List Byte) (bad : Bool) :
    c.emit (.memData m a l bad) = { c with out := c.out ++ [.memData m a l bad] } := by
  simp [Chip.emit, Output.scanned]

theorem Chip.dramServe_of_dramRead {c d : Chip} {master a : Nat} {l : List Byte} {bad : Bool} (h : c.dramRead (master % 16) a 16 = ((l, bad), d)) :
    c.dramServe (dramReqOf master false a (List.replicate 16 none)) = d.emit (.memData (master % 16) a l bad) := by
  show (c.dramRead (master % 16) a 16).2.emit (.memData (master % 16) a (c.dramRead (master % 16) a 16).1.1 (c.dramRead (master % 16) a 16).1.2) = _
  rw [h]

/-- A read of a clean word within CAPACITY is answered with it, its row touched. -/
theorem Chip.dramServe_read (c : Chip) (master a : Nat) (ha : a % 16 = 0) (hc : a + 16 ≤ c.capacity)
    (hf : c.state (dramPage (c.dramLoc a).port) ≠ dsFailed) (hs : c.dramSynOf (c.dramKeys a).1 = 0) :
    c.dramServe (dramReqOf master false a (List.replicate 16 none)) =
      (c.dramTouch (master % 16) (dramHint (master % 16) false) a 16).emit
        (.memData (master % 16) a (leBytes 16 (c.dramData (c.dramKeys a).1).toNat) false) := by
  have hw := c.sameWords_dramTouch (master % 16) (dramHint (master % 16) false) a 16
  have hread := c.dramRead_word (master % 16) a ha _ (by
    rw [Chip.dramRange_within _ _ _ _ (by rw [hw.capacity]; exact hc),
      Chip.dramReadWord_clean _ _ _ (by rw [hw.capacity]; omega) (by rw [hw.state, hw.dramLoc]; exact hf)
        (by rw [hw.dramSynOf, hw.dramKeys]; exact hs),
      hw.dramData, hw.dramKeys])
  exact Chip.dramServe_of_dramRead hread

/-- A whole word written within CAPACITY is put clean, its row touched. -/
theorem Chip.dramServe_write (c : Chip) (master a : Nat) (bytes : List Byte) (hl : bytes.length = 16) (ha : a % 16 = 0) (hc : a + 16 ≤ c.capacity)
    (hf : c.state (dramPage (c.dramLoc a).port) ≠ dsFailed) (hflip : c.flipArmed (dramPage (c.dramLoc a).port) = false) (k : Nat)
    (hk : (c.dramKeys a).2 = [k]) :
    c.dramServe (dramReqOf master true a (bytes.map some)) =
      ((c.markBlocks a 16).dramTouch (master % 16) (dramHint master true) a 16).dramPut k (BitVec.ofNat 128 (ofLe bytes)) 0 := by
  have hw := (c.sameWords_markBlocks a 16).trans (Chip.sameWords_dramTouch _ (master % 16) (dramHint master true) a 16)
  show c.dramWriteNow (master % 16) (dramHint master true) a (bytes.map some) = _
  rw [Chip.dramWriteNow_word _ _ _ _ _ ha (by simpa using hl), Chip.dramRange_within _ _ _ _ (by rw [hw.capacity]; exact hc),
    Chip.dramWriteWord_whole _ _ _ _ hl (by rw [hw.capacity]; omega) (by rw [hw.state, hw.dramLoc]; exact hf),
    Chip.dramStore_one _ _ k _ _ (by rw [hw.flipArmed, hw.dramLoc]; exact hflip) (by rw [hw.dramKeys]; exact hk)]

/-- A read above CAPACITY is reported, and answered with poison (R331). -/
theorem Chip.dramServe_read_above (c : Chip) (master a : Nat) (ha : a % 16 = 0) (hc : c.capacity ≤ a) :
    ∃ d, Quiet c d ∧ d.pend E.DRAM_RANGE = true ∧ c.dramServe (dramReqOf master false a (List.replicate 16 none)) =
      { d with out := d.out ++ [.memData (master % 16) a (leBytes 16 0) true] } := by
  obtain ⟨hq, hp⟩ := c.dramRange_above (master % 16) a 16 (by decide) hc
  have hread := c.dramRead_word (master % 16) a ha _ (by
    rw [Chip.dramTouch_range _ _ _ _ ha hc, Chip.dramReadWord_range _ _ _ (by rw [hq.capacity]; exact hc)])
  refine ⟨c.dramRange (master % 16) a 16, hq, hp, ?_⟩
  rw [Chip.dramServe_of_dramRead hread, Chip.emit_memData, show ((0 : Word128).toNat) = 0 from rfl]

/-- A write above CAPACITY is reported, and dropped (R331). -/
theorem Chip.dramServe_write_above (c : Chip) (master a : Nat) (l : List (Option Byte)) (hl : l.length = 16) (ha : a % 16 = 0) (hc : c.capacity ≤ a) :
    Quiet (c.markBlocks a 16) (c.dramServe (dramReqOf master true a l)) ∧ (c.dramServe (dramReqOf master true a l)).pend E.DRAM_RANGE = true := by
  have hm : (c.markBlocks a 16).capacity ≤ a := by rw [(c.sameWords_markBlocks a 16).capacity]; exact hc
  have hr := (c.markBlocks a 16).dramRange_above (master % 16) a 16 (by decide) hm
  have e : c.dramServe (dramReqOf master true a l) = (c.markBlocks a 16).dramRange (master % 16) a 16 := by
    show c.dramWriteNow (master % 16) (dramHint master true) a l = _
    rw [Chip.dramWriteNow_word _ _ _ _ _ ha hl, Chip.dramTouch_range _ _ _ _ ha hm,
      Chip.dramWriteWord_range _ _ _ _ (by rw [hr.1.capacity]; exact hm)]
  rw [e]
  exact hr

/-! ### A request that arrives -/

theorem Chip.dramRequest_served (c : Chip) (r : DramReq) (hits : Bool) (h : c.dramStalls r = false) :
    c.dramRequest r hits = (c.orderMode r hits).dramServe r := by
  have hs : (c.orderMode r hits).dramStalls r = false := ((c.sameWords_orderMode r hits).dramStalls r).trans h
  unfold Chip.dramRequest
  simp [hs]

@[simp] theorem Chip.dramStall_stalled (c : Chip) (r : DramReq) : (c.dramStall r).mem.stalled = c.mem.stalled ++ [r] := rfl
@[simp] theorem Chip.dramStall_dram (c : Chip) (r : DramReq) : (c.dramStall r).mem.dram = c.mem.dram := rfl
@[simp] theorem Chip.dramStall_out (c : Chip) (r : DramReq) : (c.dramStall r).out = c.out := rfl

/-- A request that stalls waits behind those that do already: nothing is stored or sent. -/
theorem Chip.dramRequest_stalled (c : Chip) (r : DramReq) (hits : Bool) (h : c.dramStalls r = true) :
    (c.dramRequest r hits).mem.stalled = c.mem.stalled ++ [r] ∧ (c.dramRequest r hits).mem.dram = c.mem.dram ∧ (c.dramRequest r hits).out = c.out := by
  have hw := c.sameWords_orderMode r hits
  have e : c.dramRequest r hits = (c.orderMode r hits).dramStall r := by
    have hs : (c.orderMode r hits).dramStalls r = true := (hw.dramStalls r).trans h
    unfold Chip.dramRequest
    simp [hs]
  rw [e, Chip.dramStall_stalled, Chip.dramStall_dram, Chip.dramStall_out, hw.stalled]
  exact ⟨rfl, hw.dram, hw.out⟩

/-- A word of a port in a rate step stalls (R343), and a request behind one of its master that does (R335). -/
theorem Chip.dramStalls_of (c : Chip) (master a : Nat) (write : Bool) (l : List (Option Byte)) (hl : l.length = 16) (ha : a % 16 = 0)
    (h : (c.state (dramPage (c.dramLoc a).port) = dsStep ∧ a + 16 ≤ c.capacity) ∨ ∃ x ∈ c.mem.stalled, x.master = master % 16) :
    c.dramStalls (dramReqOf master write a l) = true := by
  unfold Chip.dramStalls
  rw [Bool.or_eq_true]
  rcases h with ⟨hstep, hc⟩ | ⟨x, hx, hm⟩
  · refine Or.inl ?_
    have hports : (c.dramLoc a).port ∈ c.portsOf a 16 := by
      unfold Chip.portsOf
      rw [c.bursts_word a ha, if_pos (by omega), List.mem_eraseDups]
      simp [Chip.dramLoc_burst]
    show c.inStep a l.length = true
    rw [hl]
    unfold Chip.inStep
    rw [Bool.and_eq_true, List.any_eq_true, List.any_eq_true]
    exact ⟨⟨_, List.mem_range.2 (c.dramLoc_port_lt a), decide_eq_true hstep⟩, ⟨_, hports, decide_eq_true hstep⟩⟩
  · refine Or.inr (List.any_eq_true.2 ⟨x, hx, ?_⟩)
    unfold DramReq.after
    rw [decide_eq_true (p := x.master = (dramReqOf master write a l).master) hm, Bool.true_or]

/-! ### What a request does -/

/-- A whole word written within CAPACITY is put clean into a block whose words and registers are as they were (R330). -/
theorem Chip.dramRequest_write (c : Chip) (master a : Nat) (bytes : List Byte) (hl : bytes.length = 16) (ha : a % 16 = 0) (hc : a + 16 ≤ c.capacity)
    (hf : c.state (dramPage (c.dramLoc a).port) ≠ dsFailed) (hst : c.dramStalls (dramReqOf master true a (bytes.map some)) = false)
    (hflip : c.flipArmed (dramPage (c.dramLoc a).port) = false) (k : Nat) (hk : (c.dramKeys a).2 = [k]) :
    ∃ d, SameWords c d ∧ d.regs = c.regs ∧
      c.dramRequest (dramReqOf master true a (bytes.map some)) false = d.dramPut k (BitVec.ofNat 128 (ofLe bytes)) 0 := by
  have ho := c.sameWords_orderMode (dramReqOf master true a (bytes.map some)) false
  have hor := c.orderMode_regs (dramReqOf master true a (bytes.map some))
  rw [c.dramRequest_served _ _ hst]
  generalize c.orderMode (dramReqOf master true a (bytes.map some)) false = d at ho hor ⊢
  have hregs : ((d.markBlocks a 16).dramTouch (master % 16) (dramHint master true) a 16).regs = c.regs := by
    rw [Chip.dramTouch_regs, Chip.markBlocks_regs, hor]
  exact ⟨_, (ho.trans (d.sameWords_markBlocks a 16)).trans (Chip.sameWords_dramTouch _ _ _ a 16), hregs,
    d.dramServe_write master a bytes hl ha (by rw [ho.capacity]; exact hc) (by rw [ho.state, ho.dramLoc]; exact hf)
      (by rw [ho.flipArmed, ho.dramLoc]; exact hflip) k (by rw [ho.dramKeys]; exact hk)⟩

/-- A word put clean into a block with the words and registers of another: it reads back, and no other word or register differs. -/
theorem SameWords.dramPut_spec {c d : Chip} (h : SameWords c d) (hregs : d.regs = c.regs) (k : Nat) (w : Word128)
    (hwild : (c.dramPort (c.dramKeyPort k)).wild = none) :
    (d.dramPut k w 0).dramData k = w ∧ (d.dramPut k w 0).dramSynOf k = 0 ∧
      (∀ j, j ≠ k → (d.dramPut k w 0).dramData j = c.dramData j ∧ (d.dramPut k w 0).dramSynOf j = c.dramSynOf j) ∧
      (d.dramPut k w 0).mem.sram = c.mem.sram ∧ (d.dramPut k w 0).regs = c.regs := by
  have hw : (d.dramPort (d.dramKeyPort k)).wild = none := by rw [h.wild, h.dramKeyPort]; exact hwild
  refine ⟨?_, ?_, fun j hj => ⟨?_, ?_⟩, h.sram, hregs⟩
  · rw [Chip.dramData_dramPut _ _ _ _ _ hw, if_pos rfl]
  · rw [Chip.dramSynOf_dramPut _ _ _ _ _ hw, if_pos rfl]
  · rw [Chip.dramData_dramPut _ _ _ _ _ hw, if_neg hj, h.dramData]
  · rw [Chip.dramSynOf_dramPut _ _ _ _ _ hw, if_neg hj, h.dramSynOf]

/-- What the block shows of a read that reached its row: the rank awake, the bank's order, the row as the hint leaves it, and the count of banks
that entered in-order mode (R332, R335, R338). -/
structure ReadShown (c : Chip) (master a : Nat) (hits : Bool) (d : Chip) : Prop where
  awake : smGet false (d.dramPort (c.dramLoc a).port).powerDown (c.dramLoc a).rank = false
  order : smGet false (d.dramPort (c.dramLoc a).port).inOrder (bankKey (c.dramLoc a)) = hits
  row : master < 16 → smFind (d.dramPort (c.dramLoc a).port).rows (bankKey (c.dramLoc a)) =
    if c.leavesOpen master (dramHint master false) then some ((c.dramLoc a).ofs / 2048) else none
  count : hits = true → smGet false (c.dramPort (c.dramLoc a).port).inOrder (bankKey (c.dramLoc a)) = false →
    d.get F.DRAMCTL_STATUS_INORDER = (c.get F.DRAMCTL_STATUS_INORDER + 1) % 65536
  regs : hits = false → d.regs = c.regs

theorem Chip.get_congr {c d : Chip} (hr : c.regs = d.regs) (hb : c.build = d.build) (f : Fld) : c.get f = d.get f := by
  unfold Chip.get; rw [Chip.rd_congr hr hb]

theorem Chip.readShown_touch (c : Chip) (master a : Nat) (hits : Bool) (r : DramReq) (hra : r.addr = a) (hrw : r.write = false) (ha : a % 16 = 0)
    (hc : a < c.capacity) : ReadShown c master a hits ((c.orderMode r hits).dramTouch (master % 16) (dramHint (master % 16) false) a 16) := by
  have ho := c.sameWords_orderMode r hits
  have hin := c.orderMode_inOrder r hits a hra hc hrw
  have hp := Chip.dramTouch_port _ (master % 16) a (dramHint (master % 16) false) ha (by rw [ho.capacity]; exact hc)
  have htr := (c.orderMode r hits).dramTouch_regs (master % 16) (dramHint (master % 16) false) a 16
  have hb := ((c.orderMode r hits).sameWords_dramTouch (master % 16) (dramHint (master % 16) false) a 16).build
  simp only [ho.dramLoc, ho.leavesOpen] at hp
  refine ⟨?_, ?_, fun hm => ?_, fun h1 h2 => ?_, fun h => ?_⟩
  · rw [hp]; simp
  · rw [Chip.dramTouch_inOrder]; exact hin
  · rw [hp, Nat.mod_eq_of_lt hm]
    dsimp only
    split <;> simp
  · subst h1
    rw [Chip.get_congr htr hb, c.orderMode_count r a hra hc hrw h2]
  · subst h
    rw [htr, c.orderMode_regs r]

/-- A clean word read within CAPACITY is sent to its master by a block whose words are as they were and whose port shows the access. -/
theorem Chip.dramRequest_read (c : Chip) (master a : Nat) (hits : Bool) (ha : a % 16 = 0) (hc : a + 16 ≤ c.capacity)
    (hf : c.state (dramPage (c.dramLoc a).port) ≠ dsFailed) (hs : c.dramSynOf (c.dramKeys a).1 = 0)
    (hst : c.dramStalls (dramReqOf master false a (List.replicate 16 none)) = false) :
    ∃ d, SameWords c d ∧ ReadShown c master a hits d ∧
      c.dramRequest (dramReqOf master false a (List.replicate 16 none)) hits =
        { d with out := d.out ++ [.memData (master % 16) a (leBytes 16 (c.dramData (c.dramKeys a).1).toNat) false] } := by
  have ho := c.sameWords_orderMode (dramReqOf master false a (List.replicate 16 none)) hits
  have hshown := c.readShown_touch master a hits (dramReqOf master false a (List.replicate 16 none)) rfl rfl ha (by omega)
  rw [c.dramRequest_served _ _ hst]
  generalize c.orderMode (dramReqOf master false a (List.replicate 16 none)) hits = d at ho hshown ⊢
  refine ⟨_, ho.trans (d.sameWords_dramTouch _ _ a 16), hshown, ?_⟩
  rw [d.dramServe_read master a ha (by rw [ho.capacity]; exact hc) (by rw [ho.state, ho.dramLoc]; exact hf)
    (by rw [ho.dramSynOf, ho.dramKeys]; exact hs), Chip.emit_memData, ho.dramData, ho.dramKeys]

/-- A write above CAPACITY changes no memory and raises DRAM_RANGE. -/
theorem Chip.dramRequest_write_above (c : Chip) (master a : Nat) (l : List (Option Byte)) (hl : l.length = 16) (ha : a % 16 = 0) (hc : c.capacity ≤ a)
    (hst : c.dramStalls (dramReqOf master true a l) = false) :
    (c.dramRequest (dramReqOf master true a l) false).mem.dram = c.mem.dram ∧ (c.dramRequest (dramReqOf master true a l) false).mem.sram = c.mem.sram ∧
      (c.dramRequest (dramReqOf master true a l) false).pend E.DRAM_RANGE = true := by
  have hw := c.sameWords_markBlocks a 16
  obtain ⟨hq, hp⟩ := c.dramServe_write_above master a l hl ha hc
  rw [c.dramRequest_served _ _ hst, c.orderMode_range _ _ hc, hq.mem, hw.dram, hw.sram]
  exact ⟨rfl, rfl, hp⟩

/-- A read above CAPACITY is a report and poison sent. -/
theorem Chip.dramRequest_read_above (c : Chip) (master a : Nat) (ha : a % 16 = 0) (hc : c.capacity ≤ a)
    (hst : c.dramStalls (dramReqOf master false a (List.replicate 16 none)) = false) :
    ∃ d, Quiet c d ∧ d.pend E.DRAM_RANGE = true ∧ c.dramRequest (dramReqOf master false a (List.replicate 16 none)) false =
      { d with out := d.out ++ [.memData (master % 16) a (leBytes 16 0) true] } := by
  rw [c.dramRequest_served _ _ hst, c.orderMode_range _ _ hc]
  exact c.dramServe_read_above master a ha hc

/-! ### The commands -/

/-- Where no path waits, an access is the request of its master at its address, through BAR2 too (R29). -/
theorem Chip.dramAccess_open (c : Chip) (master : Nat) (bar2 write : Bool) (addr : Nat) (l : List (Option Byte)) (hits : Bool)
    (h : bar2 = true → c.pathsOpen = true) :
    (if bar2 then c.aperture master write addr l hits else c.dramRequest (dramReqOf master write addr l) hits) =
      c.dramRequest (dramReqOf master write (c.dramTarget bar2 addr) l) hits := by
  unfold Chip.dramTarget
  cases bar2 with
  | false => simp only [Bool.false_eq_true, if_false]
  | true =>
    unfold Chip.aperture Chip.aperNow
    simp only [c.mustWait_false (h rfl) (.aper master write addr l hits) (Or.inl rfl), Bool.false_eq_true, if_false, if_true]

theorem Completes.dramRead {s : State} {P : Chip → Prop} (master : Nat) (bar2 : Bool) (addr len : Nat) (hits : Bool) (hr : Runs s)
    (hopen : bar2 = true → s.chip.pathsOpen = true)
    (hp : P (s.chip.dramRequest (dramReqOf master false (s.chip.dramTarget bar2 addr) (List.replicate len none)) hits)) :
    Completes (.dramReadCmd master bar2 addr len hits) s P :=
  Completes.live (fun c => if bar2 then c.aperture master false addr (List.replicate len none) hits
    else c.dramRequest (dramReqOf master false addr (List.replicate len none)) hits) rfl hr
    (by rw [Chip.dramAccess_open _ _ _ _ _ _ _ hopen]; exact hp)

theorem Completes.dramWrite {s : State} {P : Chip → Prop} (master : Nat) (bar2 : Bool) (addr : Nat) (l : List (Option Byte)) (hr : Runs s)
    (hopen : bar2 = true → s.chip.pathsOpen = true) (hp : P (s.chip.dramRequest (dramReqOf master true (s.chip.dramTarget bar2 addr) l) false)) :
    Completes (.dramWriteCmd master bar2 addr l) s P :=
  Completes.live (fun c => if bar2 then c.aperture master true addr l false else c.dramRequest (dramReqOf master true addr l) false) rfl hr
    (by rw [Chip.dramAccess_open _ _ _ _ _ _ _ hopen]; exact hp)

/-- Settles O50: a command is the request of its master, which is served within CAPACITY, served above it, or stalls; the steps before the word
itself leave where words lie and what they hold. -/
theorem dramAccesses : Obligations.DramAccesses := by
  refine ⟨fun a i hi => dramTag_spec a i hi, fun s master bar2 addr hr hopen => ?_⟩
  intro a l p k req ha
  refine ⟨fun hc hf => ⟨fun bytes hl hst hflip hk hwild => ?_, fun hits hs hst => ?_⟩, fun hc => ⟨fun bytes hl hst => ?_, fun hst => ?_⟩,
    fun bytes hl h => ⟨?_, ?_⟩⟩
  · obtain ⟨d, hw, hregs, e⟩ := s.chip.dramRequest_write master a bytes hl ha hc hf hst hflip k hk
    exact Completes.dramWrite _ _ _ _ hr hopen (e ▸ hw.dramPut_spec hregs k _ hwild)
  · obtain ⟨d, hw, hd, e⟩ := s.chip.dramRequest_read master a hits ha hc hf hs hst
    refine Completes.dramRead _ _ _ _ _ hr hopen ?_
    rw [e]
    exact ⟨congrArg (· ++ _) hw.out, hw.dram, hd.awake, hd.order, hd.row, hd.count, hd.regs⟩
  · exact Completes.dramWrite _ _ _ _ hr hopen (s.chip.dramRequest_write_above master a _ (by simpa using hl) ha hc hst)
  · obtain ⟨d, hq, hp, e⟩ := s.chip.dramRequest_read_above master a ha hc hst
    refine Completes.dramRead _ _ _ _ _ hr hopen ?_
    rw [e]
    exact ⟨List.mem_append_right _ (List.mem_singleton_self _), congrArg MemSt.dram hq.mem, hp⟩
  · obtain ⟨hstalled, hdram, -⟩ := s.chip.dramRequest_stalled (req true (bytes.map some)) false
      (s.chip.dramStalls_of master a true _ (by simpa using hl) ha h)
    exact Completes.dramWrite _ _ _ _ hr hopen ⟨hstalled, hdram⟩
  · obtain ⟨hstalled, -, hout⟩ := s.chip.dramRequest_stalled (req false (List.replicate 16 none)) false
      (s.chip.dramStalls_of master a false _ List.length_replicate ha h)
    exact Completes.dramRead _ _ _ _ _ hr hopen ⟨hstalled, hout⟩

end Sys2Proof.Machine
end

