-- ==== Sys2Proof/Proofs/KnellLatch.lean ====
section
/-! PROOF. The latched knell: no command but the power passes the gate of its meaning, and of the power only POWER_ON_RESET ends the latch
(R351, R362, R386, R409). -/

namespace Sys2Proof.Machine

/-! ### Commands that find the gate of their meaning shut (R362) -/

/-- Every gate of a meaning, from the always-on domain down to the fabric, is shut while the knell is latched. -/
theorem Chip.shut_of_knellLatched {c : Chip} (h : c.aon.latched = true) : c.latched = true ∧ c.deaf = true ∧ c.frozen = true ∧ c.idle = true := by
  have hlatched : c.latched = true := by unfold Chip.latched; rw [h]; rfl
  have hdeaf : c.deaf = true := by unfold Chip.deaf; rw [hlatched]; rfl
  have hfrozen : c.frozen = true := by unfold Chip.frozen; rw [hdeaf]; rfl
  have hidle : c.idle = true := by unfold Chip.idle; rw [hfrozen]; rfl
  exact ⟨hlatched, hdeaf, hfrozen, hidle⟩

/-- The common form of `live`, `serve`, `awake` and `powered`: behind a shut gate nothing changes. -/
theorem next_of_shut {s : State} {d : Chip} {shut : Bool} (h : shut = true) :
    (.next (if shut then s else { s with chip := d }) : Answer) = .next s := by rw [if_pos h]

/-- The samples of the stopped sequencer end with the latch, so that a sample finds the gate of `serve`. -/
theorem execSensorSample_of_knellLatched {s : State} (raws : List Int) (h : s.chip.aon.latched = true) : execSensorSample raws s = .next s := by
  obtain ⟨-, -, hfrozen, -⟩ := Chip.shut_of_knellLatched h
  unfold execSensorSample
  rw [h, Bool.not_true, Bool.and_false, if_neg Bool.false_ne_true]
  exact next_of_shut hfrozen

/-- The knell record is programmed once (R363). -/
theorem Chip.knellEnd_of_knellLatched {c : Chip} (completed : Bool) (h : c.aon.latched = true) : c.knellEnd completed = c := by
  unfold Chip.knellEnd
  rw [h, Bool.or_true, if_pos rfl]

/-- A command other than the power's answers the state as it stands. Beside the two commands of the knell's own sequencer each meaning is one of the
four gates, which says which of the four facts it asks for. -/
theorem exec_of_knellLatched {s : State} (i : Instr) (h : s.chip.aon.latched = true) (hpor : i ≠ .powerOnReset) (hgood : i ≠ .powerGoodTrue)
    (hlost : ∀ cause rail, i ≠ .deviceReset cause rail) : exec i s = .next s := by
  obtain ⟨hlatched, hdeaf, hfrozen, hidle⟩ := Chip.shut_of_knellLatched h
  cases i with
  | powerOnReset => exact absurd rfl hpor
  | powerGoodTrue => exact absurd rfl hgood
  | deviceReset cause rail => exact absurd rfl (hlost cause rail)
  | sensorSample raws => exact execSensorSample_of_knellLatched raws h
  | knellFlashEnd outcome =>
    show Host.Outcome.next { s with chip := s.chip.knellEnd (decide (outcome = 1)) } = .next s
    rw [Chip.knellEnd_of_knellLatched _ h]
  | _ => exact next_of_shut (by assumption)

/-! ### The supplies (R386, R409) -/

/-- A block, but for the outputs sent and the supplies noted as lost, which are another's. -/
def Chip.suppliedAs (d c : Chip) : Chip := { d with out := c.out, rst := { d.rst with lost := c.rst.lost } }

theorem Chip.suppliedAs_self (c : Chip) : c.suppliedAs c = c := rfl

theorem Chip.suppliedAs_trans {c d e : Chip} (hd : d.suppliedAs c = c) (he : e.suppliedAs d = d) : e.suppliedAs c = c :=
  calc e.suppliedAs c
    _ = (e.suppliedAs d).suppliedAs c := rfl
    _ = c := by rw [he, hd]

/-- What is left but for outputs and supplies is latched still. -/
theorem Chip.knellLatched_of_suppliedAs {c d : Chip} (hd : d.suppliedAs c = c) (h : c.aon.latched = true) : d.aon.latched = true :=
  (congrArg (fun x => x.aon.latched) hd).trans h

theorem Chip.pinsSince_suppliedAs (d before c : Chip) : (d.pinsSince before).suppliedAs c = d.suppliedAs c := by
  unfold Chip.pinsSince
  split <;> rfl

/-- With the knell latched a supply that leaves its limits is noted and resets nothing. -/
theorem Chip.powerLost_of_knellLatched {c : Chip} (cause rail : Nat) (h : c.aon.latched = true) : (c.powerLost cause rail).suppliedAs c = c := by
  obtain ⟨hlatched, -, -, -⟩ := Chip.shut_of_knellLatched h
  unfold Chip.powerLost
  split
  · exact c.suppliedAs_self
  · rw [hlatched, Bool.true_or, if_pos rfl, Chip.pinsSince_suppliedAs]
    split <;> rfl

/-- With the knell latched power-good brings the supplies back and ends no reset. -/
theorem Chip.powerGood_of_knellLatched {c : Chip} (h : c.aon.latched = true) : c.powerGood.suppliedAs c = c := by
  obtain ⟨hlatched, -, -, -⟩ := Chip.shut_of_knellLatched h
  unfold Chip.powerGood
  rw [hlatched, Bool.and_true, Chip.pinsSince_suppliedAs]
  rfl

/-! ### Steps (R362) -/

/-- A command other than POWER_ON_RESET leaves the block but for its supplies. -/
theorem exec_suppliedAs_of_knellLatched {s : State} (i : Instr) (h : s.chip.aon.latched = true) (hpor : i ≠ .powerOnReset) :
    ∃ t, exec i s = .next t ∧ t.chip.suppliedAs s.chip = s.chip ∧ t.pending = s.pending := by
  by_cases hgood : i = .powerGoodTrue
  · subst hgood
    exact ⟨{ s with chip := s.chip.powerGood }, rfl, Chip.powerGood_of_knellLatched h, rfl⟩
  · by_cases hlost : ∃ cause rail, i = .deviceReset cause rail
    · obtain ⟨cause, rail, rfl⟩ := hlost
      exact ⟨{ s with chip := s.chip.powerLost cause rail }, rfl, Chip.powerLost_of_knellLatched cause rail h, rfl⟩
    · exact ⟨s, exec_of_knellLatched i h hpor hgood (fun cause rail e => hlost ⟨cause, rail, e⟩), s.chip.suppliedAs_self, rfl⟩

/-- A step takes the front command off the queue, if there is one; time stands still (R361). -/
theorem step_of_knellLatched {s : State} (h : s.chip.aon.latched = true) (hpor : ∀ i ∈ s.pending, i ≠ .powerOnReset) :
    ∃ t, step s = .next t ∧ t.chip.suppliedAs s.chip = s.chip ∧ t.pending = s.pending.drop 1 := by
  obtain ⟨c, pending⟩ := s
  cases pending with
  | nil =>
    obtain ⟨-, -, hfrozen, -⟩ := Chip.shut_of_knellLatched h
    exact ⟨⟨c, []⟩, next_of_shut hfrozen, c.suppliedAs_self, rfl⟩
  | cons i rest => exact exec_suppliedAs_of_knellLatched (s := ⟨c, rest⟩) i h (hpor i List.mem_cons_self)

theorem run_succ_of_step {s t : State} (n : Nat) (h : step s = .next t) :
    Host.Core.run Sys2Proof.core (n + 1) s = Host.Core.run Sys2Proof.core n t := by
  simp only [Host.Core.run, show Sys2Proof.core.step s = .next t from h]

theorem run_of_knellLatched (n : Nat) {s : State} (h : s.chip.aon.latched = true) (hpor : ∀ i ∈ s.pending, i ≠ .powerOnReset) :
    ∃ t, Host.Core.run Sys2Proof.core n s = .next t ∧ t.chip.suppliedAs s.chip = s.chip ∧ t.pending = s.pending.drop n := by
  induction n generalizing s with
  | zero => exact ⟨s, rfl, s.chip.suppliedAs_self, rfl⟩
  | succ n ih =>
    obtain ⟨u, hstep, hu, hrest⟩ := step_of_knellLatched h hpor
    obtain ⟨t, hrun, ht, hdrop⟩ := ih (Chip.knellLatched_of_suppliedAs hu h) (fun i hi => hpor i (List.mem_of_mem_drop (hrest ▸ hi)))
    exact ⟨t, (run_succ_of_step n hstep).trans hrun, Chip.suppliedAs_trans hu ht, by rw [hdrop, hrest, List.drop_drop, Nat.add_comm]⟩

/-! ### POWER_ON_RESET (R351, R390) -/

@[simp] theorem Chip.emit_aon (c : Chip) (o : Output) : (c.emit o).aon = c.aon := (c.quiet_emit o).aon

@[simp] theorem Chip.clapPin_aon (c : Chip) (own : Bool) : (c.clapPin own).aon = c.aon := by
  unfold Chip.clapPin
  split <;> simp

@[simp] theorem Chip.showCause_aon (c : Chip) : c.showCause.aon = c.aon := by simp [Chip.showCause]

@[simp] theorem Chip.pinsSince_aon (c before : Chip) : (c.pinsSince before).aon = c.aon := by
  unfold Chip.pinsSince
  split <;> rfl

theorem Chip.portsOff_aon (l : List Nat) (c : Chip) : (l.foldl (fun c p => c.emit (.portTx p false)) c).aon = c.aon :=
  foldl_rel (fun c d : Chip => d.aon = c.aon) (fun _ => rfl) (fun h h' => h'.trans h) id _ l (fun c p _ => c.emit_aon (.portTx p false)) c

/-- Without a knell to hold, outputs that go safe leave the always-on domain. -/
theorem Chip.outputsOff_aon {c : Chip} (wasLow : Bool) (h : c.aon.knell = none) : (c.outputsOff wasLow).aon = c.aon := by
  unfold Chip.outputsOff
  simp only [Chip.portsOff_aon, Chip.clapPin_aon, Chip.emit_aon, h, Option.isSome_none, Bool.false_eq_true, if_false]
  split <;> simp only [Chip.portsOff_aon, Chip.clapPin_aon, Chip.emit_aon]

theorem Chip.powerOn_aon (c : Chip) : c.powerOn.aon = AonSt.init := by
  unfold Chip.powerOn
  simp only [Chip.pinsSince_aon, Chip.showCause_aon]
  exact Chip.outputsOff_aon _ rfl

/-- Settles O4: the gates of the meanings are shut, what is noted of the supplies leaves the latch, by induction on the steps, and a power-on reset
begins the always-on domain anew. -/
theorem latchedKnellIgnoresEverything : Obligations.LatchedKnellIgnoresEverything := by
  refine ⟨fun n s h hpor => run_of_knellLatched n h hpor, fun s i h hpor hgood hlost => exec_of_knellLatched i h hpor hgood hlost, fun s => ?_⟩
  exact ⟨{ s with chip := s.chip.powerOn }, rfl, rfl, by simp [Chip.powerOn_aon, AonSt.init]⟩

end Sys2Proof.Machine
end

