-- ==== Sys2Proof/Proofs/MemForm.lean ====
section
/-! PROOF. The canonical form of the memories (Chip.memOk) as a property that operations keep: it looks at seven fields alone, and branches, pairs
and folds
keep it where their parts do. -/

namespace Sys2Proof.Machine

/-- The memories of `c` are in canonical form. -/
abbrev MemOk (c : Chip) : Prop := c.memOk = true

theorem memOk_iff (c : Chip) : MemOk c ↔
    Memory.wf 0 c.mem.sram = true ∧ smWf 0 c.mem.sramSyn = true ∧ Memory.wf 0 c.mem.belfry = true ∧ smWf 0 c.mem.belfrySyn = true ∧
      Memory.wf 0 c.mem.dram = true ∧ smWf 0 c.mem.dramSyn = true ∧ Memory.wf 0xFF c.belfry.flash = true := by
  unfold MemOk Chip.memOk
  simp only [Bool.and_eq_true, and_assoc]

theorem smWf_filter {α : Type} [DecidableEq α] {d : α} {m : SMap α} (p : Nat × α → Bool) (h : smWf d m = true) : smWf d (m.filter p) = true := by
  simp only [smWf, Bool.and_eq_true, decide_eq_true_eq, List.all_eq_true] at h ⊢
  exact ⟨h.1.filter _, fun x hx => h.2 x (List.mem_filter.1 hx).1⟩

/-! ### What leaves the memories alone -/

theorem MemOk.parts {c d : Chip} (h : MemOk c) (hsram : d.mem.sram = c.mem.sram) (hsramSyn : d.mem.sramSyn = c.mem.sramSyn)
    (hbelfry : d.mem.belfry = c.mem.belfry) (hbelfrySyn : d.mem.belfrySyn = c.mem.belfrySyn) (hdram : d.mem.dram = c.mem.dram)
    (hdramSyn : d.mem.dramSyn = c.mem.dramSyn) (hflash : d.belfry.flash = c.belfry.flash) : MemOk d := by
  rw [memOk_iff] at h ⊢
  rwa [hsram, hsramSyn, hbelfry, hbelfrySyn, hdram, hdramSyn, hflash]

theorem MemOk.same {c d : Chip} (h : MemOk c) (hmem : d.mem = c.mem) (hflash : d.belfry.flash = c.belfry.flash) : MemOk d := by
  rw [memOk_iff] at h ⊢
  rwa [hmem, hflash]

/-! ### Branches, pairs and folds -/

theorem MemOk.ite {c d : Chip} {p : Prop} [Decidable p] (h : MemOk c) (k : MemOk d) : MemOk (if p then c else d) := by split <;> assumption

theorem MemOk.ite_snd {α : Type} {c d : α × Chip} {p : Prop} [Decidable p] (h : MemOk c.2) (k : MemOk d.2) : MemOk (if p then c else d).2 := by
  split <;> assumption

theorem MemOk.pair {α : Type} {a : α} {d : Chip} (h : MemOk d) : MemOk (a, d).2 := h

theorem MemOk.pair_fst {α : Type} {a : α} {d : Chip} (h : MemOk d) : MemOk (d, a).1 := h

theorem MemOk.triple {α β : Type} {a : α} {b : β} {d : Chip} (h : MemOk d) : MemOk (a, b, d).2.2 := h

theorem MemOk.foldl {α : Type} {f : Chip → α → Chip} {l : List α} {c : Chip} (hf : ∀ d x, MemOk d → MemOk (f d x)) (h : MemOk c) :
    MemOk (l.foldl f c) := by
  induction l generalizing c with
  | nil => exact h
  | cons x t ih => exact ih (hf c x h)

theorem MemOk.foldl_snd {α β : Type} {f : β × Chip → α → β × Chip} {l : List α} {b : β × Chip} (hf : ∀ b x, MemOk b.2 → MemOk (f b x).2)
    (h : MemOk b.2) : MemOk (l.foldl f b).2 := by
  induction l generalizing b with
  | nil => exact h
  | cons x t ih => exact ih (hf b x h)

theorem MemOk.foldl_fst {α β : Type} {f : Chip × β → α → Chip × β} {l : List α} {b : Chip × β} (hf : ∀ b x, MemOk b.1 → MemOk (f b x).1)
    (h : MemOk b.1) : MemOk (l.foldl f b).1 := by
  induction l generalizing b with
  | nil => exact h
  | cons x t ih => exact ih (hf b x h)

end Sys2Proof.Machine
end

