-- ==== Sys2Proof/Proofs/MemFormBlock.lean ====
section
/-! PROOF. Every operation keeps the memories in canonical form, one lemma for each, in the order of the model: the block's registers and events,
its memories, the Belfry, time and the chain. -/

namespace Sys2Proof.Machine

/-! ### Machine/Ops -/

theorem Chip.memOk_wr {c : Chip} {addr : Nat} {w : Word} (h : MemOk c) : MemOk (c.wr addr w) := MemOk.same h rfl rfl

theorem Chip.memOk_set {c : Chip} {f : Fld} {v : Nat} (h : MemOk c) : MemOk (c.set f v) := Chip.memOk_wr h

theorem Chip.memOk_setUse {c : Chip} {f : Fld} {v : Nat} (h : MemOk c) : MemOk (c.setUse f v) := MemOk.same h rfl rfl

theorem Chip.memOk_bump {c : Chip} {f : Fld} {n : Nat} (h : MemOk c) : MemOk (c.bump f n) := Chip.memOk_set h

theorem Chip.memOk_bumpSat {c : Chip} {f : Fld} {n : Nat} (h : MemOk c) : MemOk (c.bumpSat f n) := Chip.memOk_set h

theorem Chip.memOk_emit {c : Chip} {o : Output} (h : MemOk c) : MemOk (c.emit o) := MemOk.ite h (MemOk.same h rfl rfl)

theorem Chip.memOk_openValue {c : Chip} {w : Nat} (h : MemOk c) : MemOk (c.openValue w).2 := MemOk.pair (MemOk.same h rfl rfl)

theorem Chip.memOk_setOpen {c : Chip} {f : Fld} (h : MemOk c) : MemOk (c.setOpen f) := by
  unfold Chip.setOpen
  extract_lets r1
  have h2 : MemOk r1.2 := Chip.memOk_openValue h
  exact Chip.memOk_set h2

theorem Chip.memOk_ticks {c : Chip} {n : Nat} (h : MemOk c) : MemOk (c.ticks n) := MemOk.same h rfl rfl

theorem Chip.memOk_advanceTo {c : Chip} {at12 : Nat} (h : MemOk c) : MemOk (c.advanceTo at12) := Chip.memOk_ticks h

theorem Chip.memOk_sendMsix {c : Chip} {v : Nat} (h : MemOk c) : MemOk (c.sendMsix v) := MemOk.ite (Chip.memOk_wr h) (Chip.memOk_emit h)

theorem Chip.memOk_alertFall {c : Chip} (h : MemOk c) : MemOk c.alertFall := MemOk.ite (Chip.memOk_emit (MemOk.same h rfl rfl)) h

theorem Chip.memOk_setPort {c : Chip} {p : Nat} {s : PortSt} (h : MemOk c) : MemOk (c.setPort p s) := MemOk.same h rfl rfl

theorem Chip.memOk_queueMonitor {c : Chip} {payload : Nat} (h : MemOk c) : MemOk (c.queueMonitor payload) := by
  unfold Chip.queueMonitor
  extract_lets _ _ c1
  have h2 : MemOk c1 := Chip.memOk_setPort h
  exact MemOk.foldl (fun _ _ h3 => Chip.memOk_setPort h3) h2

theorem Chip.memOk_monitorEvent {c : Chip} {e : Ev} (h : MemOk c) : MemOk (c.monitorEvent e) := by
  unfold Chip.monitorEvent
  split
  · exact h
  · exact MemOk.ite (Chip.memOk_queueMonitor h) (Chip.memOk_bumpSat h)

theorem Chip.memOk_raiseWith {push : Chip → EvRec → Chip} {c : Chip} {e : Ev} (hpush : ∀ x0 x1, MemOk x0 → MemOk (push x0 x1)) (h : MemOk c) :
    MemOk (Chip.raiseWith push c e) := by
  unfold Chip.raiseWith
  refine MemOk.ite h ?_
  extract_lets c1 c2
  have h3 : MemOk c1 := Chip.memOk_wr h
  have h4 : MemOk c2 := MemOk.ite (Chip.memOk_sendMsix h3) h3
  exact Chip.memOk_alertFall (Chip.memOk_monitorEvent (hpush _ _ h4))

theorem Chip.memOk_evqKeep {c : Chip} {r : EvRec} (h : MemOk c) : MemOk (c.evqKeep r) := by
  unfold Chip.evqKeep
  split
  · exact MemOk.same h rfl rfl
  · exact Chip.memOk_bumpSat h

theorem Chip.memOk_evqLose {c : Chip} (h : MemOk c) : MemOk c.evqLose :=
  Chip.memOk_raiseWith (fun _ _ h1 => Chip.memOk_evqKeep h1) (Chip.memOk_bumpSat h)

theorem Chip.memOk_pushEv {c : Chip} {r : EvRec} (h : MemOk c) : MemOk (c.pushEv r) := by
  unfold Chip.pushEv
  refine MemOk.ite (Chip.memOk_evqKeep h) (MemOk.ite (MemOk.same h rfl rfl) (MemOk.ite ?_ (Chip.memOk_evqLose h)))
  extract_lets _
  exact Chip.memOk_evqLose (MemOk.same h rfl rfl)

theorem Chip.memOk_raise {c : Chip} {e : Ev} (h : MemOk c) : MemOk (c.raise e) := Chip.memOk_raiseWith (fun _ _ h1 => Chip.memOk_pushEv h1) h

theorem Chip.memOk_cond {c : Chip} {e : Ev} {b : Bool} (h : MemOk c) : MemOk (c.cond e b) := by
  unfold Chip.cond
  extract_lets _ _ _ c1
  have h2 : MemOk c1 := MemOk.ite h (Chip.memOk_wr h)
  exact MemOk.ite (Chip.memOk_raise h2) h2

theorem Chip.memOk_reportOne {c : Chip} {pg : Nat} {e : ErrRec} (h : MemOk c) : MemOk (c.reportOne pg e) := by
  unfold Chip.reportOne
  extract_lets _ _ _ c1 c2 _ _
  have h3 : MemOk c1 := MemOk.ite h (Chip.memOk_wr (Chip.memOk_wr h))
  have h4 : MemOk c2 := MemOk.ite (Chip.memOk_wr (Chip.memOk_wr h3)) h3
  exact MemOk.ite (Chip.memOk_set h4) (Chip.memOk_bump h4)

theorem Chip.memOk_report {c : Chip} {pg : Nat} {l : List ErrRec} (h : MemOk c) : MemOk (c.report pg l) :=
  MemOk.foldl (fun _ _ h1 => Chip.memOk_reportOne h1) h

theorem Chip.memOk_logChange {c : Chip} {o : Origin} {addr : Nat} {value : Word} (h : MemOk c) : MemOk (c.logChange o addr value) :=
  MemOk.ite (MemOk.same h rfl rfl) (Chip.memOk_raise (Chip.memOk_bumpSat h))

theorem Chip.memOk_badAccess {c : Chip} {o : Origin} {reason addr : Nat} (h : MemOk c) : MemOk (c.badAccess o reason addr) := by
  unfold Chip.badAccess
  extract_lets c1
  have h2 : MemOk c1 := MemOk.ite h (Chip.memOk_wr h)
  exact Chip.memOk_raise h2

theorem Chip.memOk_scramble {c : Chip} {pg : Nat} (h : MemOk c) : MemOk (c.scramble pg) := by
  unfold Chip.scramble
  split
  · exact h
  · refine MemOk.foldl (fun _ _ h1 => (MemOk.foldl (fun _ _ h2 => ?_) h1)) h
    extract_lets _
    exact MemOk.ite h2 (MemOk.foldl (fun _ _ h3 => (MemOk.ite (Chip.memOk_setOpen h3) h3)) h2)

theorem Chip.memOk_hostError {c : Chip} {pg : Nat} (h : MemOk c) : MemOk (c.hostError pg) := by
  unfold Chip.hostError
  extract_lets c1
  have h2 : MemOk c1 := MemOk.ite h (MemOk.same h rfl rfl)
  exact Chip.memOk_scramble h2

theorem Chip.memOk_when {c : Chip} {b : Bool} {f : Chip → Chip} (h : MemOk c) (hf : ∀ x0, MemOk x0 → MemOk (f x0)) : MemOk (c.when b f) :=
  MemOk.ite (hf _ h) h

theorem Chip.memOk_inS {c : Chip} {f : Chip → Chip} (h : MemOk c) (hf : ∀ x0, MemOk x0 → MemOk (f x0)) : MemOk (c.inS f) := Chip.memOk_when h hf

theorem Chip.memOk_inT {c : Chip} {f : Chip → Chip} (h : MemOk c) (hf : ∀ x0, MemOk x0 → MemOk (f x0)) : MemOk (c.inT f) := Chip.memOk_when h hf

/-! ### Machine/MemOps -/

theorem Chip.memOk_setBank {c : Chip} {b : Nat} {s : BankSt} (h : MemOk c) : MemOk (c.setBank b s) := MemOk.parts h rfl rfl rfl rfl rfl rfl rfl

theorem Chip.memOk_showMerge {c : Chip} {b : Nat} (h : MemOk c) : MemOk (c.showMerge b) := Chip.memOk_set h

theorem Chip.memOk_bankWild {c : Chip} {b : Nat} (h : MemOk c) : MemOk (c.bankWild b) := by
  unfold Chip.bankWild
  extract_lets _ x1
  have h2 : MemOk x1 := Chip.memOk_setBank h
  exact MemOk.same h2 rfl rfl

theorem Chip.memOk_sramPut {c : Chip} {k : Nat} {d : Word128} {syn : Nat} (h : MemOk c) : MemOk (c.sramPut k d syn) := by
  obtain ⟨hs, hss, hrest⟩ := (memOk_iff c).1 h
  exact (memOk_iff _).2 ⟨memWrite_wf 0 _ _ _ hs, smPut_wf 0 _ _ _ hss, hrest⟩

theorem Chip.memOk_sramStore {c : Chip} {k : Nat} {d : Word128} {syn : Nat} (h : MemOk c) : MemOk (c.sramStore k d syn) := by
  unfold Chip.sramStore
  extract_lets _ _ c1
  have h2 : MemOk c1 := Chip.memOk_set h
  exact MemOk.ite (Chip.memOk_sramPut h2) (Chip.memOk_sramPut h)

theorem Chip.memOk_sramCe {c : Chip} {w unit syn : Nat} (h : MemOk c) : MemOk (c.sramCe w unit syn) := by
  unfold Chip.sramCe
  extract_lets _ c1 c2
  have h3 : MemOk c1 := Chip.memOk_report h
  have h4 : MemOk c2 := Chip.memOk_wr h3
  exact Chip.memOk_raise h4

theorem Chip.memOk_sramUe {c : Chip} {w unit syn : Nat} (h : MemOk c) : MemOk (c.sramUe w unit syn) := by
  unfold Chip.sramUe
  extract_lets _ _ c1
  have h2 : MemOk c1 := Chip.memOk_setBank h
  exact MemOk.ite h (Chip.memOk_raise (Chip.memOk_report h2))

theorem Chip.memOk_sramReadWord {c : Chip} {unit w : Nat} (h : MemOk c) : MemOk (c.sramReadWord unit w).2 := by
  unfold Chip.sramReadWord
  extract_lets _ _ _
  split
  · exact MemOk.pair h
  · exact MemOk.pair (Chip.memOk_sramCe h)
  · exact MemOk.pair h
  · exact MemOk.pair (Chip.memOk_sramUe h)

theorem Chip.memOk_retireEntry {c : Chip} {b : Nat} {e : MergeEntry} (h : MemOk c) : MemOk (c.retireEntry b e) := by
  unfold Chip.retireEntry
  extract_lets _ _ r1 _ c2
  have h3 : MemOk r1.2 := Chip.memOk_sramReadWord h
  exact MemOk.ite (Chip.memOk_sramStore h) (Chip.memOk_sramStore h3)

theorem Chip.memOk_retireWord {c : Chip} {b word : Nat} (h : MemOk c) : MemOk (c.retireWord b word) := by
  unfold Chip.retireWord
  extract_lets _
  split
  · exact h
  · exact Chip.memOk_showMerge (Chip.memOk_retireEntry (Chip.memOk_setBank h))

theorem Chip.memOk_retireAll {c : Chip} {b : Nat} (h : MemOk c) : MemOk (c.retireAll b) := by
  unfold Chip.retireAll
  extract_lets _ _ c1
  have h2 : MemOk c1 := Chip.memOk_setBank h
  exact Chip.memOk_showMerge (MemOk.foldl (fun _ _ h3 => Chip.memOk_retireEntry h3) h2)

theorem Chip.memOk_retireOldest {c : Chip} {b : Nat} (h : MemOk c) : MemOk (c.retireOldest b) := by
  unfold Chip.retireOldest
  split
  · exact h
  · exact Chip.memOk_showMerge (Chip.memOk_retireEntry (Chip.memOk_setBank h))

theorem Chip.memOk_mergeWrite {c : Chip} {b word : Nat} {data : Word128} {mask : Nat} (h : MemOk c) : MemOk (c.mergeWrite b word data mask) := by
  unfold Chip.mergeWrite
  extract_lets _ c1 _
  have h2 : MemOk c1 := MemOk.ite h (Chip.memOk_retireOldest h)
  split
  · extract_lets _ c3
    have h4 : MemOk c3 := Chip.memOk_setBank h
    exact MemOk.ite (Chip.memOk_retireWord h4) h4
  · exact Chip.memOk_showMerge (Chip.memOk_setBank h2)

theorem Chip.memOk_bankDeny {c : Chip} {b : Nat} (h : MemOk c) : MemOk (c.bankDeny b) := Chip.memOk_raise (Chip.memOk_bumpSat h)

theorem Chip.memOk_ownerErrors {c : Chip} {b old new : Nat} (h : MemOk c) : MemOk (c.ownerErrors b old new) := by
  unfold Chip.ownerErrors
  refine MemOk.ite h ?_
  extract_lets _ _
  exact MemOk.parts h rfl rfl rfl rfl rfl rfl rfl

theorem Chip.memOk_ownerWrite {c : Chip} {b v : Nat} (h : MemOk c) : MemOk (c.ownerWrite b v) := by
  unfold Chip.ownerWrite
  extract_lets c1 c2 c3 _ c4
  have h5 : MemOk c1 := Chip.memOk_ownerErrors h
  have h6 : MemOk c2 := Chip.memOk_set h5
  have h7 : MemOk c3 := Chip.memOk_retireAll h6
  have h8 : MemOk c4 := Chip.memOk_setBank h7
  exact Chip.memOk_set h8

theorem Chip.memOk_bankStall {c : Chip} {b : Nat} {r : SramReq} (h : MemOk c) : MemOk (c.bankStall b r) := Chip.memOk_setBank h

theorem Chip.memOk_bankWriteWord {c : Chip} {master w : Nat} {bytes : List (Option Byte)} {path : Option Origin} (h : MemOk c) :
    MemOk (c.bankWriteWord master w bytes path) := by
  unfold Chip.bankWriteWord
  extract_lets _ _ _ _ c1
  have h2 : MemOk c1 := Chip.memOk_setBank h
  exact MemOk.ite (Chip.memOk_bankStall h) (MemOk.ite (Chip.memOk_bankDeny h) (MemOk.ite h (MemOk.ite (Chip.memOk_showMerge
    (Chip.memOk_sramStore h2)) (Chip.memOk_mergeWrite h))))

theorem Chip.memOk_bankReadWord {c : Chip} {master unit w : Nat} (h : MemOk c) : MemOk (c.bankReadWord master unit w).2 := by
  unfold Chip.bankReadWord
  extract_lets _
  exact MemOk.ite_snd (Chip.memOk_sramReadWord (Chip.memOk_retireWord h)) (MemOk.pair (Chip.memOk_bankDeny h))

theorem Chip.memOk_windowWrite {c : Chip} {offset : Nat} {bytes : List (Option Byte)} {path : Option Origin} (h : MemOk c) :
    MemOk (c.windowWrite offset bytes path) :=
  MemOk.foldl (fun _ _ h1 => (MemOk.ite h1 (Chip.memOk_bankWriteWord h1))) h

theorem Chip.memOk_windowRead {c : Chip} {offset n : Nat} (h : MemOk c) : MemOk (c.windowRead offset n).2 := by
  unfold Chip.windowRead
  extract_lets _ r1
  have h2 : MemOk r1.2 := by
    refine MemOk.foldl_snd (fun _ _ h3 => (MemOk.ite_snd (MemOk.pair h3) ?_)) (MemOk.pair h)
    extract_lets x4
    have h5 : MemOk x4.2 := Chip.memOk_bankReadWord h3
    exact MemOk.pair h5
  exact MemOk.pair h2

theorem Chip.memOk_atomicNow {c : Chip} {unit : Nat} {add : Bool} {offset size : Nat} {operand : Nat} (h : MemOk c) :
    MemOk (c.atomicNow unit add offset size operand).2 := by
  unfold Chip.atomicNow
  extract_lets _ c1 r2 _ _ _ _ _
  have h3 : MemOk c1 := Chip.memOk_retireWord h
  have h4 : MemOk r2.2 := Chip.memOk_sramReadWord h3
  exact MemOk.ite_snd (MemOk.pair (Chip.memOk_sramStore h4)) (MemOk.pair (Chip.memOk_sramStore h4))

theorem Chip.memOk_atomicAt {c : Chip} {master : Nat} {byBelfry add : Bool} {offset size : Nat} {operand : Nat} (h : MemOk c) :
    MemOk (c.atomicAt master byBelfry add offset size operand).2 := by
  unfold Chip.atomicAt
  extract_lets _
  exact MemOk.ite_snd (MemOk.pair (Chip.memOk_bankDeny h)) (Chip.memOk_atomicNow h)

theorem Chip.memOk_atomicReturn {master offset size : Nat} {r : (Nat × Bool) × Chip} (hr : MemOk r.2) :
    MemOk (Chip.atomicReturn master offset size r) :=
  Chip.memOk_emit hr

theorem Chip.memOk_bankServe {c : Chip} {r : SramReq} (h : MemOk c) : MemOk (c.bankServe r) := by
  unfold Chip.bankServe
  split
  · exact Chip.memOk_bankWriteWord h
  · exact Chip.memOk_atomicReturn (Chip.memOk_atomicAt h)

theorem Chip.memOk_handoverSwitch {c : Chip} {b : Nat} (h : MemOk c) : MemOk (c.handoverSwitch b) := by
  unfold Chip.handoverSwitch
  refine MemOk.ite h ?_
  extract_lets _ c1 c2
  have h3 : MemOk c1 := Chip.memOk_setBank h
  have h4 : MemOk c2 := Chip.memOk_set h3
  exact MemOk.foldl (fun _ _ h5 => Chip.memOk_bankServe h5) h4

theorem Chip.memOk_belfryPut {c : Chip} {k : Nat} {d : Word128} {syn : Nat} (h : MemOk c) : MemOk (c.belfryPut k d syn) := by
  obtain ⟨hs, hss, hb, hbs, hrest⟩ := (memOk_iff c).1 h
  exact (memOk_iff _).2 ⟨hs, hss, memWrite_wf 0 _ _ _ hb, smPut_wf 0 _ _ _ hbs, hrest⟩

theorem Chip.memOk_belfryReadWord {c : Chip} {k : Nat} (h : MemOk c) : MemOk (c.belfryReadWord k).2 := by
  unfold Chip.belfryReadWord
  extract_lets _ _ _ c1
  have h2 : MemOk c1 := MemOk.parts h rfl rfl rfl rfl rfl rfl rfl
  split
  · exact MemOk.pair h
  · exact MemOk.pair (Chip.memOk_raise (Chip.memOk_report h))
  · exact MemOk.pair h
  · exact MemOk.ite_snd (MemOk.pair h) (MemOk.pair (Chip.memOk_raise (Chip.memOk_report h2)))

theorem Chip.memOk_setDramPort {c : Chip} {p : Nat} {s : DramPortSt} (h : MemOk c) : MemOk (c.setDramPort p s) :=
  MemOk.parts h rfl rfl rfl rfl rfl rfl rfl

theorem Chip.memOk_dramWild {c : Chip} {p : Nat} (h : MemOk c) : MemOk (c.dramWild p) := by
  unfold Chip.dramWild
  extract_lets _ x1
  have h2 : MemOk x1 := Chip.memOk_setDramPort h
  exact MemOk.same h2 rfl rfl

theorem Chip.memOk_dramPut {c : Chip} {k : Nat} {d : Word128} {syn : Nat} (h : MemOk c) : MemOk (c.dramPut k d syn) := by
  obtain ⟨hs, hss, hb, hbs, hd, hds, hf⟩ := (memOk_iff c).1 h
  exact (memOk_iff _).2 ⟨hs, hss, hb, hbs, memWrite_wf 0 _ _ _ hd, smPut_wf 0 _ _ _ hds, hf⟩

theorem Chip.memOk_dramPuts {c : Chip} {p : Nat} {keys : List Nat} {d : Word128} {syn : Nat} (h : MemOk c) : MemOk (c.dramPuts p keys d syn) := by
  unfold Chip.dramPuts
  extract_lets _ r1
  have h2 : MemOk r1.2.2 := by
    unfold r1
    split
    · exact MemOk.triple (Chip.memOk_set h)
    · exact MemOk.triple h
  exact MemOk.foldl (fun _ _ h3 => Chip.memOk_dramPut h3) h2

theorem Chip.memOk_dramStore {c : Chip} {a : Nat} {d : Word128} {syn : Nat} (h : MemOk c) : MemOk (c.dramStore a d syn) := Chip.memOk_dramPuts h

theorem Chip.memOk_dramCe {c : Chip} {p unit syn a : Nat} (h : MemOk c) : MemOk (c.dramCe p unit syn a) := by
  unfold Chip.dramCe
  extract_lets _ c1
  have h2 : MemOk c1 := Chip.memOk_setDramPort h
  exact Chip.memOk_raise (Chip.memOk_report h2)

theorem Chip.memOk_dramUe {c : Chip} {p unit kind syn a : Nat} (h : MemOk c) : MemOk (c.dramUe p unit kind syn a) := by
  unfold Chip.dramUe
  extract_lets _ c1
  have h2 : MemOk c1 := Chip.memOk_setDramPort h
  exact MemOk.ite h (Chip.memOk_raise (Chip.memOk_report h2))

theorem Chip.memOk_touchRow {c : Chip} {keepOpen : Bool} {a : Nat} (h : MemOk c) : MemOk (c.touchRow keepOpen a) := by
  unfold Chip.touchRow
  extract_lets _ _
  exact Chip.memOk_setDramPort h

theorem Chip.memOk_dramTouch {c : Chip} {master : Nat} {h : PageHint} {a n : Nat} (hc : MemOk c) : MemOk (c.dramTouch master h a n) :=
  MemOk.foldl (fun _ _ h1 => Chip.memOk_touchRow h1) hc

theorem Chip.memOk_dramReadWord {c : Chip} {master a : Nat} (h : MemOk c) : MemOk (c.dramReadWord master a).2 := by
  unfold Chip.dramReadWord
  refine MemOk.ite_snd (MemOk.pair h) ?_
  extract_lets _ _ _ _
  refine MemOk.ite_snd (MemOk.pair h) (MemOk.ite_snd (MemOk.pair (Chip.memOk_dramUe h)) ?_)
  split
  · exact MemOk.pair h
  · exact MemOk.pair (Chip.memOk_dramCe h)
  · exact MemOk.pair h
  · exact MemOk.pair (Chip.memOk_dramUe h)

theorem Chip.memOk_dramRange {c : Chip} {master a n : Nat} (h : MemOk c) : MemOk (c.dramRange master a n) := by
  unfold Chip.dramRange
  refine MemOk.ite h ?_
  extract_lets _
  exact Chip.memOk_raise (Chip.memOk_report h)

theorem Chip.memOk_dramRead {c : Chip} {master a n : Nat} (h : MemOk c) : MemOk (c.dramRead master a n).2 :=
  MemOk.pair (MemOk.foldl_snd (fun _ _ h => MemOk.pair (Chip.memOk_dramReadWord h)) (MemOk.pair (Chip.memOk_dramRange (Chip.memOk_dramTouch h))))

theorem Chip.memOk_dramWriteWord {c : Chip} {master a : Nat} {bytes : List (Option Byte)} (h : MemOk c) : MemOk (c.dramWriteWord master a bytes) :=
  MemOk.ite h (MemOk.ite h (MemOk.ite h (MemOk.ite (Chip.memOk_dramStore h) (Chip.memOk_dramStore (Chip.memOk_dramReadWord h)))))

theorem Chip.memOk_markBlocks {c : Chip} {a n : Nat} (h : MemOk c) : MemOk (c.markBlocks a n) := by
  unfold Chip.markBlocks
  refine MemOk.ite h (MemOk.foldl (fun _ _ h1 => ?_) h)
  extract_lets _ _
  exact MemOk.ite (MemOk.same h1 rfl rfl) h1

theorem Chip.memOk_dramWriteNow {c : Chip} {master : Nat} {h : PageHint} {a : Nat} {bytes : List (Option Byte)} (hc : MemOk c) :
    MemOk (c.dramWriteNow master h a bytes) := by
  unfold Chip.dramWriteNow
  extract_lets c1
  have h2 : MemOk c1 := Chip.memOk_dramTouch (Chip.memOk_markBlocks hc)
  exact MemOk.foldl (fun _ _ h3 => Chip.memOk_dramWriteWord h3) (Chip.memOk_dramRange h2)

theorem Chip.memOk_dramStall {c : Chip} {r : DramReq} (h : MemOk c) : MemOk (c.dramStall r) := MemOk.parts h rfl rfl rfl rfl rfl rfl rfl

theorem Chip.memOk_dramWriteOpt {c : Chip} {master a : Nat} {bytes : List (Option Byte)} (h : MemOk c) : MemOk (c.dramWriteOpt master a bytes) := by
  unfold Chip.dramWriteOpt
  extract_lets _
  exact MemOk.ite (Chip.memOk_dramStall h) (Chip.memOk_dramWriteNow h)

theorem Chip.memOk_settled {c : Chip} (h : MemOk c) : MemOk c.settled :=
  MemOk.foldl (fun _ _ h1 => Chip.memOk_dramWriteNow h1) (MemOk.parts h rfl rfl rfl rfl rfl rfl rfl)

theorem Chip.memOk_dramFetch {c : Chip} {master a n : Nat} (h : MemOk c) : MemOk (c.dramFetch master a n).2 := by
  unfold Chip.dramFetch
  extract_lets r1
  have h2 : MemOk r1.2 := Chip.memOk_dramRead h
  exact MemOk.pair h2

theorem Chip.memOk_dramWrite {c : Chip} {master a : Nat} {bytes : List Byte} (h : MemOk c) : MemOk (c.dramWrite master a bytes) :=
  Chip.memOk_dramWriteOpt h

theorem Chip.memOk_showCanvasLimit {c : Chip} (h : MemOk c) : MemOk c.showCanvasLimit := by
  unfold Chip.showCanvasLimit
  split
  · exact h
  · exact Chip.memOk_set (Chip.memOk_set h)

theorem Chip.memOk_setDramState {c : Chip} {p st : Nat} (h : MemOk c) : MemOk (c.setDramState p st) := by
  unfold Chip.setDramState
  extract_lets c1 c2 c3 c4
  have h5 : MemOk c1 := Chip.memOk_set h
  have h6 : MemOk c2 := Chip.memOk_set h5
  have h7 : MemOk c3 := Chip.memOk_set h6
  have h8 : MemOk c4 := Chip.memOk_set h7
  exact Chip.memOk_cond h8

/-! ### Machine/MemCtlOps -/

theorem Chip.memOk_retrainStart {c : Chip} {p : Nat} (h : MemOk c) : MemOk (c.retrainStart p) := by
  unfold Chip.retrainStart
  extract_lets _ _
  exact MemOk.ite (Chip.memOk_setDramState (Chip.memOk_setDramPort (Chip.memOk_set h))) (MemOk.ite h (Chip.memOk_setDramPort h))

theorem Chip.memOk_retrainNext {c : Chip} {p : Nat} (h : MemOk c) : MemOk (c.retrainNext p) := MemOk.ite (Chip.memOk_retrainStart h) h

theorem Chip.memOk_sramFill {c : Chip} (h : MemOk c) : MemOk c.sramFill := by
  obtain ⟨-, -, -, -, hrest⟩ := (memOk_iff c).1 h
  have empty : MemOk { c with mem := { c.mem with sram := [], sramSyn := [], belfry := [], belfrySyn := [] } } :=
    (memOk_iff _).2 ⟨rfl, rfl, rfl, rfl, hrest⟩
  exact MemOk.ite h (Chip.memOk_set (MemOk.foldl (fun _ _ h => MemOk.ite (Chip.memOk_sramStore h) h)
    (MemOk.foldl (fun _ _ h => Chip.memOk_setBank h) empty)))

theorem Chip.memOk_interleave {c : Chip} (h : MemOk c) : MemOk c.interleave := by
  unfold Chip.interleave
  extract_lets _ _ _
  exact Chip.memOk_set (Chip.memOk_set h)

theorem Chip.memOk_dramFill {c : Chip} (h : MemOk c) : MemOk c.dramFill := by
  have empty : ∀ d : Chip, MemOk d → MemOk { d with mem := { d.mem with dram := [], dramSyn := [] } } := fun d hd => by
    obtain ⟨hs, hss, hb, hbs, -, -, hf⟩ := (memOk_iff d).1 hd
    exact (memOk_iff _).2 ⟨hs, hss, hb, hbs, rfl, rfl, hf⟩
  refine MemOk.ite h (MemOk.foldl (fun _ _ => Chip.memOk_retrainNext) (Chip.memOk_showCanvasLimit (Chip.memOk_set ?_)))
  exact MemOk.foldl (fun _ _ h => MemOk.ite (Chip.memOk_dramStore h) h) (MemOk.foldl (fun _ _ => Chip.memOk_setDramState)
    (MemOk.foldl (fun _ _ => Chip.memOk_setDramPort) (empty _ (Chip.memOk_interleave h))))

theorem Chip.memOk_scrubSram {c : Chip} {w : Nat} (h : MemOk c) : MemOk (c.scrubSram w) := by
  unfold Chip.scrubSram
  extract_lets _ _ _ c1
  have h2 : MemOk c1 := Chip.memOk_sramReadWord h
  refine MemOk.ite h ?_
  split
  · exact h
  · exact h
  · exact Chip.memOk_sramStore h2
  · exact MemOk.ite (Chip.memOk_sramStore h2) h2

theorem Chip.memOk_scrubBelfry {c : Chip} {k : Nat} (h : MemOk c) : MemOk (c.scrubBelfry k) := by
  unfold Chip.scrubBelfry
  extract_lets _ _ _ c1
  have h2 : MemOk c1 := Chip.memOk_belfryReadWord h
  split
  · exact h
  · exact h
  · exact Chip.memOk_belfryPut h2
  · exact MemOk.ite (Chip.memOk_belfryPut h2) h2

theorem Chip.memOk_scrubDram {c : Chip} {a : Nat} (h : MemOk c) : MemOk (c.scrubDram a) := by
  unfold Chip.scrubDram
  extract_lets c1 _ _ _ _ _ c2
  have h3 : MemOk c1 := Chip.memOk_dramTouch h
  have h4 : MemOk c2 := Chip.memOk_dramReadWord h3
  refine MemOk.ite h3 (MemOk.ite (Chip.memOk_dramStore h4) ?_)
  split
  · exact h3
  · exact h3
  · exact Chip.memOk_dramStore h4
  · exact MemOk.ite (Chip.memOk_dramStore h4) h4

theorem Chip.memOk_scrubShow {c : Chip} (h : MemOk c) : MemOk c.scrubShow := by
  unfold Chip.scrubShow
  extract_lets _
  exact Chip.memOk_set h

theorem Chip.memOk_scrubRead {c : Chip} {m : Nat} (h : MemOk c) : MemOk (c.scrubRead m) := by
  unfold Chip.scrubRead
  refine MemOk.ite h ?_
  extract_lets _ c1 _ c2 _ c3
  have h4 : MemOk c1 := MemOk.ite (Chip.memOk_scrubSram h) (MemOk.ite (Chip.memOk_scrubBelfry h) (Chip.memOk_scrubDram h))
  have h5 : MemOk c2 := MemOk.ite (MemOk.parts h4 rfl rfl rfl rfl rfl rfl rfl) (MemOk.parts h4 rfl rfl rfl rfl rfl rfl rfl)
  have h6 : MemOk c3 := by
    unfold c3
    split
    · exact Chip.memOk_raise (Chip.memOk_bump (MemOk.parts h5 rfl rfl rfl rfl rfl rfl rfl))
    · exact h5
  exact Chip.memOk_scrubShow h6

theorem Chip.memOk_scrubNow {c : Chip} (h : MemOk c) : MemOk c.scrubNow := Chip.memOk_scrubShow (MemOk.parts h rfl rfl rfl rfl rfl rfl rfl)

theorem Chip.memOk_showRemap {c : Chip} {b : Nat} (h : MemOk c) : MemOk (c.showRemap b) := Chip.memOk_set h

theorem Chip.memOk_sramCopy {c : Chip} {w src dst : Nat} (h : MemOk c) : MemOk (c.sramCopy w src dst) := by
  unfold Chip.sramCopy
  split
  · exact Chip.memOk_sramStore h
  · exact Chip.memOk_sramStore (Chip.memOk_sramCe h)
  · exact Chip.memOk_sramStore h
  · exact Chip.memOk_sramStore (Chip.memOk_sramUe h)

theorem Chip.memOk_bankRemapDone {c : Chip} {b e : Nat} (h : MemOk c) : MemOk (c.bankRemapDone b e) := by
  unfold Chip.bankRemapDone
  extract_lets _ _ _ _ c1 c2
  have h3 : MemOk c1 := Chip.memOk_retireWord h
  have h4 : MemOk c2 := MemOk.ite (Chip.memOk_sramCopy h3) (Chip.memOk_sramCopy h3)
  exact MemOk.ite h (Chip.memOk_raise (Chip.memOk_wr h4))

theorem Chip.memOk_bankRemap {c : Chip} {b e : Nat} {w : Word} (h : MemOk c) : MemOk (c.bankRemap b e w) := by
  unfold Chip.bankRemap
  extract_lets c1 _ _ _ _ _ _ c2 c3 _
  have h4 : MemOk c1 := Chip.memOk_bankRemapDone h
  have h5 : MemOk c2 := Chip.memOk_wr h4
  have h6 : MemOk c3 := Chip.memOk_showRemap h5
  exact MemOk.ite (Chip.memOk_bankWild h6) h6

theorem Chip.memOk_dramRemap {c : Chip} {p e : Nat} {w : Word} (h : MemOk c) : MemOk (c.dramRemap p e w) := by
  have noted : ∀ a b, MemOk { c.wr (dremapAddr p e) a with mem := { c.mem with remapCopy := b } } := fun _ _ => MemOk.parts h rfl rfl rfl rfl rfl
    rfl rfl
  exact MemOk.ite (Chip.memOk_dramWild (noted _ _)) (noted _ _)

theorem Chip.memOk_dramCopyWord {c : Chip} {p a k dst : Nat} (h : MemOk c) : MemOk (c.dramCopyWord p a k dst) := by
  unfold Chip.dramCopyWord
  extract_lets _ _
  refine MemOk.ite (Chip.memOk_dramPuts (Chip.memOk_dramUe h)) ?_
  split
  · exact Chip.memOk_dramPuts h
  · exact Chip.memOk_dramPuts (Chip.memOk_dramCe h)
  · exact Chip.memOk_dramPuts h
  · exact Chip.memOk_dramPuts (Chip.memOk_dramUe h)

theorem Chip.memOk_dramRemapDone {c : Chip} {p e : Nat} (h : MemOk c) : MemOk (c.dramRemapDone p e) := by
  unfold Chip.dramRemapDone
  extract_lets _ _ _ c1 _
  have h2 : MemOk c1 := by
    refine MemOk.foldl (fun _ _ h3 => ?_) h
    extract_lets _
    exact Chip.memOk_dramCopyWord h3
  exact MemOk.ite h (Chip.memOk_raise (MemOk.parts h2 rfl rfl rfl rfl rfl rfl rfl))

theorem Chip.memOk_splitGo {c : Chip} {o : Origin} (h : MemOk c) : MemOk (c.splitGo o) := by
  unfold Chip.splitGo
  refine MemOk.ite (Chip.memOk_raise h) ?_
  extract_lets _ _ _ _ _ c1 _ _ _ _ _ _ _ _ _ _
  have h2 : MemOk c1 := Chip.memOk_markBlocks h
  split
  · exact MemOk.ite h (MemOk.foldl (fun _ _ h3 => Chip.memOk_dramPut h3) h2)
  · exact Chip.memOk_belfryPut h
  · exact MemOk.ite h (Chip.memOk_sramPut h)

theorem Chip.memOk_dramServe {c : Chip} {r : DramReq} (h : MemOk c) : MemOk (c.dramServe r) := by
  unfold Chip.dramServe
  refine MemOk.ite (Chip.memOk_dramWriteNow h) ?_
  extract_lets x1
  have h2 : MemOk x1.2 := Chip.memOk_dramRead h
  exact Chip.memOk_emit h2

theorem Chip.memOk_orderMode {c : Chip} {r : DramReq} {hits : Bool} (h : MemOk c) : MemOk (c.orderMode r hits) := by
  unfold Chip.orderMode
  extract_lets _ _ c1
  have h2 : MemOk c1 := MemOk.ite h (Chip.memOk_bump h)
  exact MemOk.ite h (MemOk.ite (Chip.memOk_setDramPort h2) (Chip.memOk_setDramPort h))

theorem Chip.memOk_dramRequest {c : Chip} {r : DramReq} {hitsPending : Bool} (h : MemOk c) : MemOk (c.dramRequest r hitsPending) := by
  unfold Chip.dramRequest
  extract_lets c1
  have h2 : MemOk c1 := Chip.memOk_orderMode h
  exact MemOk.ite (Chip.memOk_dramStall h2) (Chip.memOk_dramServe h2)

theorem Chip.memOk_dramUnstall {c : Chip} (h : MemOk c) : MemOk c.dramUnstall :=
  MemOk.foldl (fun _ _ h1 => (MemOk.ite (Chip.memOk_dramStall h1) (Chip.memOk_dramServe h1))) (MemOk.parts h rfl rfl rfl rfl rfl rfl rfl)

theorem Chip.memOk_dramInit {c : Chip} {p ranks rankMib : Nat} {uniform : Bool} {grade : Option Nat} (h : MemOk c) :
    MemOk (c.dramInit p ranks rankMib uniform grade) := by
  unfold Chip.dramInit
  extract_lets _ c1 c2 _ c3
  have h4 : MemOk c1 := Chip.memOk_set (Chip.memOk_set h)
  have h5 : MemOk c2 := Chip.memOk_set h4
  have h6 : MemOk c3 := Chip.memOk_setDramPort h5
  refine MemOk.ite h (MemOk.ite (Chip.memOk_setDramState h) (MemOk.ite (Chip.memOk_showCanvasLimit (Chip.memOk_setDramState h6)) ?_))
  split
  · exact Chip.memOk_showCanvasLimit (Chip.memOk_raise (Chip.memOk_setDramState h6))
  · exact Chip.memOk_setDramState (Chip.memOk_set h6)

theorem Chip.memOk_refreshDue {c : Chip} {p rank chan bank : Nat} {rtRun : Bool} (h : MemOk c) : MemOk (c.refreshDue p rank chan bank rtRun) := by
  unfold Chip.refreshDue
  extract_lets _ _ _ c1 c2
  have h3 : MemOk c1 := Chip.memOk_setDramPort h
  have h4 : MemOk c2 := Chip.memOk_set h3
  exact MemOk.ite (Chip.memOk_raise (Chip.memOk_bumpSat h4)) h4

theorem Chip.memOk_refreshSlot {c : Chip} {p : Nat} (h : MemOk c) : MemOk (c.refreshSlot p) := by
  unfold Chip.refreshSlot
  extract_lets _ _
  exact MemOk.ite h (Chip.memOk_setDramPort h)

theorem Chip.memOk_dramSlots {c : Chip} (h : MemOk c) : MemOk c.dramSlots := by
  unfold Chip.dramSlots
  refine MemOk.foldl (fun _ _ h1 => ?_) h
  extract_lets c2 _
  have h3 : MemOk c2 := Chip.memOk_refreshSlot h1
  exact MemOk.ite h3 (Chip.memOk_setDramPort h3)

theorem Chip.memOk_showMult {c : Chip} {p : Nat} (h : MemOk c) : MemOk (c.showMult p) := by
  unfold Chip.showMult
  extract_lets _
  exact Chip.memOk_set h

theorem Chip.memOk_mr4Poll {c : Chip} {p rank chan code : Nat} {hot : Bool} (h : MemOk c) : MemOk (c.mr4Poll p rank chan code hot) := by
  unfold Chip.mr4Poll
  extract_lets _ _ c1
  have h2 : MemOk c1 := Chip.memOk_setDramPort h
  exact Chip.memOk_cond (Chip.memOk_showMult h2)

theorem Chip.memOk_portBand {c : Chip} {p tb : Nat} (h : MemOk c) : MemOk (c.portBand p tb) :=
  Chip.memOk_retrainStart (Chip.memOk_showMult (Chip.memOk_set h))

theorem Chip.memOk_retrainSlice {c : Chip} {p : Nat} {beat : Option (Nat × Bool)} {found : Bool} (h : MemOk c) :
    MemOk (c.retrainSlice p beat found) := by
  unfold Chip.retrainSlice
  extract_lets _ _ c1 c2 c3 c4 c5 c6
  have h7 : MemOk c1 := Chip.memOk_setDramPort h
  have h8 : MemOk c2 := Chip.memOk_bump (Chip.memOk_set h7)
  have h9 : MemOk c3 := Chip.memOk_set h8
  have h10 : MemOk c4 := Chip.memOk_setDramState h9
  have h11 : MemOk c5 := Chip.memOk_raise h10
  have h12 : MemOk c6 := MemOk.ite h11 (Chip.memOk_raise h11)
  exact MemOk.ite h (MemOk.ite (Chip.memOk_set h7) (Chip.memOk_retrainNext h12))

theorem Chip.memOk_eccWindow {c : Chip} {p : Nat} (h : MemOk c) : MemOk (c.eccWindow p) := by
  unfold Chip.eccWindow
  extract_lets _ c1 _ _
  have h2 : MemOk c1 := Chip.memOk_set h
  exact Chip.memOk_setDramPort h2

theorem Chip.memOk_dramFail {c : Chip} {p : Nat} (h : MemOk c) : MemOk (c.dramFail p) := by
  unfold Chip.dramFail
  extract_lets _ _ c1 c2 c3
  have h4 : MemOk c1 := Chip.memOk_setDramPort h
  have h5 : MemOk c2 := Chip.memOk_set h4
  have h6 : MemOk c3 := Chip.memOk_report h5
  exact MemOk.ite h (Chip.memOk_showCanvasLimit (Chip.memOk_dramUnstall (Chip.memOk_setDramState h6)))

theorem Chip.memOk_rateStep {c : Chip} {p : Nat} (h : MemOk c) : MemOk (c.rateStep p) := by
  unfold Chip.rateStep
  extract_lets _ _
  exact MemOk.ite h (MemOk.ite (Chip.memOk_dramFail h) (Chip.memOk_setDramState (Chip.memOk_setDramPort (Chip.memOk_set h))))

theorem Chip.memOk_stepDone {c : Chip} {p : Nat} {grade : Option Nat} (h : MemOk c) : MemOk (c.stepDone p grade) := by
  unfold Chip.stepDone
  refine MemOk.ite h ?_
  extract_lets _ _ _ c1
  have h2 : MemOk c1 := Chip.memOk_setDramPort h
  split
  · exact Chip.memOk_dramFail h
  · extract_lets _ c3 c4
    have h5 : MemOk c3 := Chip.memOk_dramUnstall (Chip.memOk_setDramState (Chip.memOk_set h2))
    have h6 : MemOk c4 := Chip.memOk_showCanvasLimit h5
    exact Chip.memOk_retrainNext (MemOk.ite h6 (Chip.memOk_raise h6))

theorem Chip.memOk_rateRestore {c : Chip} {p : Nat} (h : MemOk c) : MemOk (c.rateRestore p) := MemOk.ite (Chip.memOk_setDramPort h) h

theorem Chip.memOk_powerDown {c : Chip} {p rank : Nat} (h : MemOk c) : MemOk (c.powerDown p rank) := MemOk.ite h (Chip.memOk_setDramPort h)

theorem Chip.memOk_dqsTrack {c : Chip} {p chan : Nat} {drift : Int} (h : MemOk c) : MemOk (c.dqsTrack p chan drift) := Chip.memOk_setDramPort h

/-! ### Machine/BelfryOps -/

theorem Chip.memOk_setBelfry {c : Chip} {b : BelfrySt} (h : MemOk c) (hf : b.flash = c.belfry.flash) : MemOk (c.setBelfry b) :=
  MemOk.same h rfl hf

theorem Chip.memOk_flashProgram {c : Chip} {a : Nat} {bytes : List Byte} (h : MemOk c) : MemOk (c.flashProgram a bytes) := by
  obtain ⟨hs, hss, hb, hbs, hd, hds, hf⟩ := (memOk_iff c).1 h
  exact (memOk_iff _).2 ⟨hs, hss, hb, hbs, hd, hds, memWrite_wf 0xFF _ _ _ hf⟩

theorem Chip.memOk_flashErase {c : Chip} {a n : Nat} (h : MemOk c) : MemOk (c.flashErase a n) := by
  obtain ⟨hs, hss, hb, hbs, hd, hds, hf⟩ := (memOk_iff c).1 h
  exact (memOk_iff _).2 ⟨hs, hss, hb, hbs, hd, hds, smWf_filter _ hf⟩

theorem Chip.memOk_logAdd {c : Chip} {r : LogRec} (h : MemOk c) : MemOk (c.logAdd r) :=
  MemOk.ite (Chip.memOk_setBelfry h rfl) (Chip.memOk_raise (Chip.memOk_bumpSat h))

theorem Chip.memOk_logNow {c : Chip} {typ page code detail : Nat} (h : MemOk c) : MemOk (c.logNow typ page code detail) := Chip.memOk_logAdd h

theorem Chip.memOk_logUpd {c : Chip} {code detail : Nat} (h : MemOk c) : MemOk (c.logUpd code detail) := Chip.memOk_logNow h

theorem Chip.memOk_logTake {c : Chip} (h : MemOk c) : MemOk c.logTake := by
  unfold Chip.logTake
  extract_lets c1
  have h2 : MemOk c1 := by
    unfold c1
    split
    · exact Chip.memOk_logAdd (MemOk.same h rfl rfl)
    · exact Chip.memOk_logAdd (MemOk.same h rfl rfl)
    · exact h
  split
  · exact Chip.memOk_logAdd (MemOk.same h2 rfl rfl)
  · exact h2

theorem Chip.memOk_logDrain {c : Chip} (h : MemOk c) : MemOk c.logDrain := MemOk.foldl (fun _ _ h1 => Chip.memOk_logTake h1) h

theorem Chip.memOk_logProgram {c : Chip} {r : LogRec} (h : MemOk c) : MemOk (c.logProgram r) := by
  unfold Chip.logProgram
  extract_lets _ _ c1 c2 _ c3
  have h4 : MemOk c1 := MemOk.ite (Chip.memOk_flashErase h) h
  have h5 : MemOk c2 := Chip.memOk_flashProgram h4
  have h6 : MemOk c3 := Chip.memOk_setBelfry h5 rfl
  exact Chip.memOk_set h6

theorem Chip.memOk_logFlush {c : Chip} (h : MemOk c) : MemOk c.logFlush := by
  unfold Chip.logFlush
  extract_lets c1 l _ c2 c3
  have h1 : MemOk c1 := Chip.memOk_logDrain h
  clear_value c1
  have h2 : MemOk c2 := Chip.memOk_setBelfry h1 rfl
  have h3 : MemOk c3 := MemOk.foldl (fun _ _ => Chip.memOk_logProgram) h2
  exact MemOk.ite h3 (Chip.memOk_set h3)

theorem Chip.memOk_logResume {c : Chip} (h : MemOk c) : MemOk c.logResume := by
  unfold Chip.logResume
  extract_lets heads best
  clear_value best
  split
  · exact Chip.memOk_setBelfry h rfl
  · extract_lets c1
    have h1 : MemOk c1 := Chip.memOk_setBelfry h rfl
    exact Chip.memOk_set (Chip.memOk_set h1)

theorem Chip.memOk_logRead {c : Chip} {w : Word} (h : MemOk c) : MemOk (c.logRead w) := Chip.memOk_set (Chip.memOk_set (Chip.memOk_wr h))

theorem Chip.memOk_logReadDone {c : Chip} (h : MemOk c) : MemOk c.logReadDone := by
  unfold Chip.logReadDone
  extract_lets _ _ _ _ c1
  have h2 : MemOk c1 := MemOk.foldl (fun _ _ h3 => Chip.memOk_set h3) h
  exact Chip.memOk_set (Chip.memOk_set h2)

theorem Chip.memOk_showKnellSlot {c : Chip} (h : MemOk c) : MemOk c.showKnellSlot := by
  unfold Chip.showKnellSlot
  extract_lets _
  exact Chip.memOk_set (Chip.memOk_set h)

theorem Chip.memOk_knellWrite {c : Chip} {outcome : Nat} (h : MemOk c) : MemOk (c.knellWrite outcome) := by
  unfold Chip.knellWrite
  split
  · extract_lets _
    exact Chip.memOk_flashProgram h
  · exact h

theorem Chip.memOk_knellPrior {c : Chip} (h : MemOk c) : MemOk c.knellPrior := by
  unfold Chip.knellPrior
  extract_lets _ c1 c2
  have h3 : MemOk c1 := MemOk.foldl (fun _ _ h4 => Chip.memOk_logAdd h4) h
  have h5 : MemOk c2 := MemOk.ite h (Chip.memOk_flashErase (Chip.memOk_logFlush (Chip.memOk_raise h3)))
  exact Chip.memOk_showKnellSlot h5

theorem Chip.memOk_setUnlock {c : Chip} {b : Bool} (h : MemOk c) : MemOk (c.setUnlock b) := Chip.memOk_cond (Chip.memOk_set h)

theorem Chip.memOk_setHalted {c : Chip} {b : Bool} (h : MemOk c) : MemOk (c.setHalted b) := Chip.memOk_cond (Chip.memOk_set h)

theorem Chip.memOk_belfryFill {c : Chip} (h : MemOk c) : MemOk c.belfryFill := by
  obtain ⟨hs, hss, -, -, hrest⟩ := (memOk_iff c).1 h
  exact (memOk_iff _).2 ⟨hs, hss, rfl, rfl, hrest⟩

theorem Chip.memOk_setSensor {c : Chip} {n : Nat} {s : SensorSt} (h : MemOk c) : MemOk (c.setSensor n s) := MemOk.same h rfl rfl

theorem Chip.memOk_setSensorState {c : Chip} {n st : Nat} (h : MemOk c) : MemOk (c.setSensorState n st) := Chip.memOk_set h

theorem Chip.memOk_sampleNote {c : Chip} {n : Nat} {raw : Int} (h : MemOk c) : MemOk (c.sampleNote n raw) := by
  unfold Chip.sampleNote
  extract_lets _ _
  exact Chip.memOk_setSensor h

theorem Chip.memOk_sampleJudge {c : Chip} {n : Nat} {prev : Option Int} {raw : Int} (h : MemOk c) : MemOk (c.sampleJudge n prev raw) := by
  unfold Chip.sampleJudge
  extract_lets _ _ _ c1
  have h2 : MemOk c1 := Chip.memOk_setSensor h
  refine MemOk.ite h ?_
  split
  · extract_lets c3
    have h4 : MemOk c3 := Chip.memOk_setSensor (Chip.memOk_setSensorState h)
    exact MemOk.ite (Chip.memOk_raise h4) h4
  · exact MemOk.ite h (MemOk.ite (Chip.memOk_raise (Chip.memOk_setSensorState h2)) (Chip.memOk_setSensorState h2))

theorem Chip.memOk_showUse {c : Chip} (h : MemOk c) : MemOk c.showUse := by
  unfold Chip.showUse
  extract_lets _
  exact MemOk.foldl (fun _ _ h1 => Chip.memOk_set h1) h

theorem Chip.memOk_setTband {c : Chip} {k b : Nat} (h : MemOk c) : MemOk (c.setTband k b) := MemOk.same h rfl rfl

theorem Chip.memOk_dramBand {c : Chip} {p : Nat} (h : MemOk c) : MemOk (c.dramBand p) := by
  unfold Chip.dramBand
  extract_lets _
  exact MemOk.ite h (Chip.memOk_portBand (Chip.memOk_setTband h))

theorem Chip.memOk_judgeWarn {c : Chip} (h : MemOk c) : MemOk c.judgeWarn := Chip.memOk_cond h

theorem Chip.memOk_thermalShow {c : Chip} (h : MemOk c) : MemOk c.thermalShow := by
  unfold Chip.thermalShow
  extract_lets c1 _ c2 c3 _ c4 c5 c6 _ c7 c8
  have h9 : MemOk c1 := Chip.memOk_showUse h
  have h10 : MemOk c2 := Chip.memOk_set (Chip.memOk_set h9)
  have h11 : MemOk c3 := Chip.memOk_cond (Chip.memOk_cond h10)
  have h12 : MemOk c4 := Chip.memOk_set (Chip.memOk_set h11)
  have h13 : MemOk c5 := Chip.memOk_set h12
  have h14 : MemOk c6 := Chip.memOk_judgeWarn h13
  have h15 : MemOk c7 := MemOk.ite h14 (Chip.memOk_raise (Chip.memOk_set (Chip.memOk_setTband h14)))
  have h16 : MemOk c8 := MemOk.foldl (fun _ _ h17 => Chip.memOk_dramBand h17) h15
  split
  · exact h16
  · exact MemOk.foldl (fun _ _ h18 => Chip.memOk_setTband h18) h16

theorem Chip.memOk_sensorSample {c : Chip} {raws : List Int} (h : MemOk c) : MemOk (c.sensorSample raws) := by
  unfold Chip.sensorSample
  extract_lets _ c1 c2
  have h3 : MemOk c1 := MemOk.foldl (fun _ _ h4 => (Chip.memOk_set (Chip.memOk_sampleNote h4))) h
  have h5 : MemOk c2 := MemOk.foldl (fun _ _ h6 => Chip.memOk_sampleJudge h6) h3
  exact Chip.memOk_thermalShow h5

theorem Chip.memOk_maskWrite {c : Chip} {mask : Nat} (h : MemOk c) : MemOk (c.maskWrite mask) := by
  unfold Chip.maskWrite
  extract_lets c1 c2
  have h3 : MemOk c1 := Chip.memOk_set h
  have h4 : MemOk c2 := by
    refine MemOk.foldl (fun _ _ h5 => ?_) h3
    extract_lets _ _ _ c6
    have h7 : MemOk c6 := Chip.memOk_setSensor (Chip.memOk_setSensorState h5)
    exact MemOk.ite (MemOk.ite (Chip.memOk_raise h7) h7) (MemOk.ite (Chip.memOk_setSensor (Chip.memOk_setSensorState h5)) h5)
  exact Chip.memOk_thermalShow h4

theorem Chip.memOk_throttleOne {c : Chip} {k : Nat} (h : MemOk c) : MemOk (c.throttleOne k) := by
  unfold Chip.throttleOne
  extract_lets _ _ _ _ _ _ _ _ _ _ _ c1
  have h2 : MemOk c1 := MemOk.same h rfl rfl
  exact Chip.memOk_set h2

theorem Chip.memOk_throttle {c : Chip} (h : MemOk c) : MemOk c.throttle := by
  unfold Chip.throttle
  extract_lets _ c1 _
  have h2 : MemOk c1 := MemOk.foldl (fun _ _ h3 => Chip.memOk_throttleOne h3) h
  exact Chip.memOk_cond (Chip.memOk_cond h2)

theorem Chip.memOk_railSample {c : Chip} {m mv : Nat} (h : MemOk c) : MemOk (c.railSample m mv) := by
  unfold Chip.railSample
  extract_lets c1 _ _ _ _ _ c2 c3 c4
  have h5 : MemOk c1 := Chip.memOk_set h
  have h6 : MemOk c2 := MemOk.same h5 rfl rfl
  have h7 : MemOk c3 := Chip.memOk_set (Chip.memOk_set h6)
  have h8 : MemOk c4 := MemOk.ite (Chip.memOk_raise (Chip.memOk_set h7)) h7
  exact MemOk.ite (Chip.memOk_raise (Chip.memOk_set h8)) h8

theorem Chip.memOk_voltageSample {c : Chip} {mvs : List Nat} (h : MemOk c) : MemOk (c.voltageSample mvs) :=
  MemOk.foldl (fun _ _ h1 => Chip.memOk_railSample h1) h

/-! ### Machine/TimeOps -/

theorem Chip.memOk_takeSrc {c : Chip} (h : MemOk c) : MemOk c.takeSrc := MemOk.same h rfl rfl

theorem Chip.memOk_masterMismatch {c : Chip} (h : MemOk c) : MemOk c.masterMismatch := MemOk.ite (Chip.memOk_raise h) h

theorem Chip.memOk_setBarLock {c : Chip} {b : Bool} (h : MemOk c) : MemOk (c.setBarLock b) := Chip.memOk_cond (Chip.memOk_set h)

theorem Chip.memOk_showBarLock {c : Chip} (h : MemOk c) : MemOk c.showBarLock := Chip.memOk_setBarLock h

theorem Chip.memOk_setSlewing {c : Chip} {b : Bool} (h : MemOk c) : MemOk (c.setSlewing b) := Chip.memOk_cond (Chip.memOk_set h)

theorem Chip.memOk_latticeEntry {c : Chip} (h : MemOk c) : MemOk c.latticeEntry := by
  unfold Chip.latticeEntry
  extract_lets c1 _ c2 _ _ _ _ _ _ _
  have h3 : MemOk c1 := Chip.memOk_takeSrc (Chip.memOk_masterMismatch h)
  have h4 : MemOk c2 := MemOk.same h3 rfl rfl
  exact Chip.memOk_set (MemOk.same h4 rfl rfl)

theorem Chip.memOk_generatorStop {c : Chip} (h : MemOk c) : MemOk c.generatorStop :=
  Chip.memOk_setSlewing (Chip.memOk_setBarLock (MemOk.same h rfl rfl))

theorem Chip.memOk_forgetLoss {c : Chip} (h : MemOk c) : MemOk c.forgetLoss := by
  unfold Chip.forgetLoss
  extract_lets _ c1 _
  have h2 : MemOk c1 := MemOk.ite h (MemOk.same h rfl rfl)
  exact MemOk.ite h2 (Chip.memOk_cond (MemOk.same h2 rfl rfl))

theorem Chip.memOk_sourceChange {c : Chip} {at12 : Nat} (h : MemOk c) : MemOk (c.sourceChange at12) := by
  unfold Chip.sourceChange
  extract_lets c1 _ _ _ _ _ _
  have h2 : MemOk c1 := Chip.memOk_forgetLoss (Chip.memOk_takeSrc (Chip.memOk_masterMismatch h))
  exact MemOk.ite h2 (Chip.memOk_set (MemOk.same h2 rfl rfl))

theorem Chip.memOk_stackMissed {c : Chip} (h : MemOk c) : MemOk c.stackMissed := by
  unfold Chip.stackMissed
  extract_lets _ _ c1 c2 c3
  have h4 : MemOk c1 := MemOk.same h rfl rfl
  have h5 : MemOk c2 := Chip.memOk_set h4
  have h6 : MemOk c3 := Chip.memOk_showBarLock h5
  exact MemOk.ite (MemOk.ite (Chip.memOk_cond (Chip.memOk_set h6)) (Chip.memOk_cond h6)) h5

theorem Chip.memOk_barStartAt {c : Chip} {at12 : Nat} (h : MemOk c) : MemOk (c.barStartAt at12) := by
  unfold Chip.barStartAt
  extract_lets c1 c2 _ _ _ _ _ c3 c4 c5 c6 c7 c8 _
  have h9 : MemOk c1 := Chip.memOk_advanceTo h
  have h10 : MemOk c2 := Chip.memOk_sourceChange h9
  have h11 : MemOk c3 := MemOk.same h10 rfl rfl
  have h12 : MemOk c4 := Chip.memOk_set (Chip.memOk_bump h11)
  have h13 : MemOk c5 := Chip.memOk_set h12
  have h14 : MemOk c6 := Chip.memOk_setSlewing h13
  have h15 : MemOk c7 := Chip.memOk_showBarLock h14
  have h16 : MemOk c8 := MemOk.ite (Chip.memOk_stackMissed h15) h15
  exact MemOk.ite (MemOk.same h16 rfl rfl) h16

theorem Chip.memOk_beatStartAt {c : Chip} {at12 : Nat} (h : MemOk c) : MemOk (c.beatStartAt at12) := by
  unfold Chip.beatStartAt
  extract_lets c1 _ _ _ c2
  have h3 : MemOk c1 := Chip.memOk_advanceTo h
  have h4 : MemOk c2 := MemOk.same h3 rfl rfl
  exact Chip.memOk_set h4

theorem Chip.memOk_refValid {c : Chip} {edge12 : Int} (h : MemOk c) : MemOk (c.refValid edge12) := by
  unfold Chip.refValid
  extract_lets _ _ c1 _ _ _
  have h2 : MemOk c1 := MemOk.same h rfl rfl
  exact MemOk.ite (MemOk.same h2 rfl rfl) h2

theorem Chip.memOk_refEdge {c : Chip} {ns : Nat} (h : MemOk c) : MemOk (c.refEdge ns) := by
  unfold Chip.refEdge
  extract_lets _ c1 _ _
  have h2 : MemOk c1 := Chip.memOk_advanceTo h
  exact MemOk.ite h2 (MemOk.ite (Chip.memOk_refValid h2) (Chip.memOk_raise (MemOk.same h2 rfl rfl)))

theorem Chip.memOk_refLoss {c : Chip} (h : MemOk c) : MemOk c.refLoss := by
  unfold Chip.refLoss
  refine MemOk.ite ?_ h
  extract_lets _ _ _ c1 c2 _ _ _ _
  have h3 : MemOk c1 := MemOk.same h rfl rfl
  have h4 : MemOk c2 := Chip.memOk_raise (Chip.memOk_showBarLock h3)
  exact MemOk.ite (Chip.memOk_set (MemOk.same h4 rfl rfl)) h4

theorem Chip.memOk_timeStep {c : Chip} {adj : Word} (h : MemOk c) : MemOk (c.timeStep adj) := by
  unfold Chip.timeStep
  extract_lets _ c1 c2 _
  have h3 : MemOk c1 := MemOk.ite (Chip.memOk_raise h) h
  have h4 : MemOk c2 := Chip.memOk_ticks h3
  exact MemOk.same h4 rfl rfl

theorem Chip.memOk_timeIncSet {c : Chip} {inc : Word} (h : MemOk c) : MemOk (c.timeIncSet inc) := Chip.memOk_ticks (Chip.memOk_set h)

theorem Chip.memOk_setTsFifo {c : Chip} {path : Nat} {l : List TsEntry} (h : MemOk c) : MemOk (c.setTsFifo path l) := MemOk.same h rfl rfl

theorem Chip.memOk_setRxStamp {c : Chip} {path : Nat} {x : Option (Nat × Nat)} (h : MemOk c) : MemOk (c.setRxStamp path x) := MemOk.same h rfl rfl

theorem Chip.memOk_tsCapture {c : Chip} {path dir msgType seqId frac : Nat} (h : MemOk c) : MemOk (c.tsCapture path dir msgType seqId frac) := by
  unfold Chip.tsCapture
  refine MemOk.ite h ?_
  extract_lets _ c1 _
  have h2 : MemOk c1 := MemOk.ite (Chip.memOk_setRxStamp h) h
  exact MemOk.ite (Chip.memOk_setTsFifo h2) (Chip.memOk_raise (Chip.memOk_set h2))

theorem Chip.memOk_launchPush {c : Chip} {w : Word} (h : MemOk c) : MemOk (c.launchPush w) := by
  unfold Chip.launchPush
  extract_lets _
  exact MemOk.ite h (MemOk.ite (Chip.memOk_raise h) (MemOk.ite (MemOk.same h rfl rfl) (Chip.memOk_raise (Chip.memOk_bumpSat h))))

theorem Chip.memOk_launchCancel {c : Chip} {w : Word} (h : MemOk c) : MemOk (c.launchCancel w) :=
  MemOk.ite (MemOk.same h rfl rfl) (MemOk.same h rfl rfl)

/-! ### Machine/ChainOps -/

theorem Chip.memOk_endJobs {c : Chip} {p : Nat} (h : MemOk c) : MemOk (c.endJobs p) := by
  unfold Chip.endJobs
  refine MemOk.ite ?_ h
  extract_lets _ _
  exact MemOk.same h rfl rfl

theorem Chip.memOk_showReduced {c : Chip} {p : Nat} {reduced : Bool} (h : MemOk c) : MemOk (c.showReduced p reduced) := by
  unfold Chip.showReduced
  extract_lets c1 _
  have h2 : MemOk c1 := Chip.memOk_set h
  exact MemOk.ite (Chip.memOk_wr h2) h2

theorem Chip.memOk_setPortState {c : Chip} {p st : Nat} (h : MemOk c) : MemOk (c.setPortState p st) := by
  unfold Chip.setPortState
  extract_lets _ _ c1 c2 c3 c4 c5 c6
  have h7 : MemOk c1 := MemOk.ite h (Chip.memOk_showReduced h)
  have h8 : MemOk c2 := Chip.memOk_set h7
  have h9 : MemOk c3 := Chip.memOk_set h8
  have h10 : MemOk c4 := Chip.memOk_set h9
  have h11 : MemOk c5 := MemOk.ite h10 (Chip.memOk_emit h10)
  have h12 : MemOk c6 := MemOk.ite h11 (Chip.memOk_endJobs (Chip.memOk_setPort h11))
  exact Chip.memOk_cond h12

theorem Chip.memOk_cause {c : Chip} {p bit : Nat} (h : MemOk c) : MemOk (c.cause p bit) := by
  unfold Chip.cause
  extract_lets _ _ c1
  have h2 : MemOk c1 := Chip.memOk_wr h
  exact MemOk.ite (Chip.memOk_raise h2) h2

theorem Chip.memOk_showLane {c : Chip} {p l : Nat} (h : MemOk c) : MemOk (c.showLane p l) := by
  unfold Chip.showLane
  extract_lets _ _ _
  exact Chip.memOk_set h

theorem Chip.memOk_showLanes {c : Chip} {p : Nat} (h : MemOk c) : MemOk (c.showLanes p) :=
  Chip.memOk_showLane (Chip.memOk_showLane (Chip.memOk_showLane h))

theorem Chip.memOk_renumber {c : Chip} (h : MemOk c) : MemOk c.renumber := by
  unfold Chip.renumber
  extract_lets _ _ c1
  have h2 : MemOk c1 := Chip.memOk_set h
  exact MemOk.ite (Chip.memOk_cause (Chip.memOk_set (Chip.memOk_set h2))) (Chip.memOk_set (Chip.memOk_set h2))

theorem Chip.memOk_ringSId {c : Chip} (h : MemOk c) : MemOk c.ringSId := by
  unfold Chip.ringSId
  refine MemOk.ite ?_ h
  extract_lets _ _ c1
  have h2 : MemOk c1 := Chip.memOk_set h
  exact MemOk.ite (Chip.memOk_set h2) (MemOk.ite h2 (Chip.memOk_cause (Chip.memOk_set h2)))

theorem Chip.memOk_queueIdentity {c : Chip} {i : Identity} (h : MemOk c) : MemOk (c.queueIdentity i) := Chip.memOk_queueMonitor h

theorem Chip.memOk_takeId {c : Chip} {i : Identity} {p : Nat} (h : MemOk c) : MemOk (c.takeId i p) := by
  unfold Chip.takeId
  split
  · exact h
  · extract_lets c1 c2 _ c3
    have h4 : MemOk c1 := Chip.memOk_renumber h
    have h5 : MemOk c2 := Chip.memOk_queueIdentity h4
    have h6 : MemOk c3 := MemOk.ite (MemOk.same h5 rfl rfl) h
    exact Chip.memOk_ringSId h6

theorem Chip.memOk_linkUp {c : Chip} {i : Identity} {p : Nat} (h : MemOk c) : MemOk (c.linkUp i p) := Chip.memOk_takeId (Chip.memOk_setPort h)

theorem Chip.memOk_directionLost {c : Chip} {p : Nat} (h : MemOk c) : MemOk (c.directionLost p) := by
  unfold Chip.directionLost
  extract_lets _ c1
  have h2 : MemOk c1 := Chip.memOk_cause (Chip.memOk_setPort h)
  exact MemOk.ite (Chip.memOk_set h2) h2

theorem Chip.memOk_streamLost {c : Chip} {p : Nat} (h : MemOk c) : MemOk (c.streamLost p) := by
  unfold Chip.streamLost
  split
  · exact h
  · exact Chip.memOk_directionLost h

theorem Chip.memOk_enterState {c : Chip} {i : Identity} {p st : Nat} (h : MemOk c) : MemOk (c.enterState i p st) := by
  unfold Chip.enterState
  extract_lets _ c1 c2 c3 c4 c5
  have h6 : MemOk c1 := Chip.memOk_setPortState h
  have h7 : MemOk c2 := MemOk.ite (Chip.memOk_cause h6) h6
  have h8 : MemOk c3 := MemOk.ite (Chip.memOk_streamLost (Chip.memOk_cause h7)) h7
  have h9 : MemOk c4 := MemOk.ite (Chip.memOk_streamLost h8) h8
  have h10 : MemOk c5 := Chip.memOk_showLanes h9
  exact MemOk.ite (Chip.memOk_linkUp h10) h10

theorem Chip.memOk_enterLaneState {c : Chip} {i : Identity} {p : Nat} (h : MemOk c) : MemOk (c.enterLaneState i p) := by
  unfold Chip.enterLaneState
  extract_lets _
  exact Chip.memOk_enterState h

theorem Chip.memOk_burst {c : Chip} {p lane : Nat} (h : MemOk c) : MemOk (c.burst p lane).2 := by
  unfold Chip.burst
  refine MemOk.ite_snd (MemOk.pair h) ?_
  extract_lets _ _ _ c1
  have h2 : MemOk c1 := Chip.memOk_setPort h
  exact MemOk.ite_snd (MemOk.pair (Chip.memOk_set h2)) (MemOk.pair h2)

theorem Chip.memOk_lineBlock {c : Chip} {p : Nat} {b : LineBlock} (h : MemOk c) : MemOk (c.lineBlock p b).2 := by
  unfold Chip.lineBlock
  extract_lets _ _ r1
  have h2 : MemOk r1.2 := Chip.memOk_burst (Chip.memOk_setPort h)
  exact MemOk.pair h2

theorem Chip.memOk_lineBlocks {c : Chip} {p : Nat} {l : List LineBlock} (h : MemOk c) : MemOk (c.lineBlocks p l) := by
  unfold Chip.lineBlocks
  refine MemOk.ite h ?_
  extract_lets r1
  have h2 : MemOk r1.2 := by
    refine MemOk.foldl_snd (fun _ _ h3 => ?_) (MemOk.pair h)
    extract_lets x4
    have h5 : MemOk x4.2 := Chip.memOk_lineBlock h3
    exact MemOk.pair h5
  exact Chip.memOk_emit h2

theorem Chip.memOk_stream {c : Chip} {p : Nat} {payloads : List Nat} (h : MemOk c) : MemOk (c.stream p payloads) := by
  unfold Chip.stream
  extract_lets _ _ _ _ _
  exact Chip.memOk_lineBlocks (Chip.memOk_setPort h)

theorem Chip.memOk_trainStream {c : Chip} {p : Nat} {ready : Bool} (h : MemOk c) : MemOk (c.trainStream p ready) := Chip.memOk_lineBlocks h

theorem Chip.memOk_injectPattern {c : Chip} {p : Nat} (h : MemOk c) : MemOk (c.injectPattern p) := by
  unfold Chip.injectPattern
  extract_lets _
  exact MemOk.ite h (Chip.memOk_emit (Chip.memOk_set h))

theorem Chip.memOk_showPatterns {c : Chip} {p : Nat} {was : List Nat} (h : MemOk c) : MemOk (c.showPatterns p was) := by
  unfold Chip.showPatterns
  extract_lets _ c1
  have h2 : MemOk c1 := by
    refine MemOk.foldl (fun _ _ h3 => ?_) h
    extract_lets _
    exact MemOk.ite h3 (Chip.memOk_emit h3)
  exact MemOk.ite (Chip.memOk_injectPattern h2) h2

theorem Chip.memOk_testOff {c : Chip} {p : Nat} (h : MemOk c) : MemOk (c.testOff p) := by
  unfold Chip.testOff
  extract_lets _ _ c1
  have h2 : MemOk c1 := Chip.memOk_setPort h
  exact MemOk.foldl (fun _ _ h3 => Chip.memOk_set h3) h2

theorem Chip.memOk_bulkSettled {c : Chip} (h : MemOk c) : MemOk c.bulkSettled := MemOk.ite (Chip.memOk_set h) h

theorem Chip.memOk_portRestart {c : Chip} {p : Nat} (h : MemOk c) : MemOk (c.portRestart p) := by
  unfold Chip.portRestart
  extract_lets c1 _ r2 r3 r4 _ _ _ c5 _ c6 c7 _ c8
  have h9 : MemOk c1 := Chip.memOk_testOff h
  have h10 : MemOk r2.2 := Chip.memOk_openValue h9
  have h11 : MemOk r3.2 := Chip.memOk_openValue h10
  have h12 : MemOk r4.2 := Chip.memOk_openValue h11
  have h13 : MemOk c5 := Chip.memOk_bulkSettled (Chip.memOk_setPort h12)
  have h14 : MemOk c6 := Chip.memOk_setPortState h13
  have h15 : MemOk c7 := Chip.memOk_set (Chip.memOk_set (Chip.memOk_set h14))
  have h16 : MemOk c8 := MemOk.foldl (fun _ _ h17 => Chip.memOk_set h17) h15
  exact MemOk.ite (Chip.memOk_trainStream h16) (Chip.memOk_showPatterns h16)

theorem Chip.memOk_showEye {c : Chip} {p l width height : Nat} (h : MemOk c) : MemOk (c.showEye p l width height) := Chip.memOk_wr h

theorem Chip.memOk_bothTrained {c : Chip} {i : Identity} {p : Nat} (h : MemOk c) : MemOk (c.bothTrained i p) := by
  unfold Chip.bothTrained
  extract_lets _
  exact MemOk.ite (Chip.memOk_enterLaneState (Chip.memOk_setPort h)) h

theorem Chip.memOk_portTrained {c : Chip} {i : Identity} {p : Nat} {r : Training} (h : MemOk c) : MemOk (c.portTrained i p r) := by
  unfold Chip.portTrained
  refine MemOk.ite h ?_
  extract_lets _ _ _ _ _ _ c1 c2 c3 c4
  have h5 : MemOk c1 := Chip.memOk_setPort h
  have h6 : MemOk c2 := MemOk.foldl (fun _ _ h7 => Chip.memOk_showEye h7) h5
  have h8 : MemOk c3 := Chip.memOk_trainStream (Chip.memOk_set h6)
  have h9 : MemOk c4 := MemOk.ite (Chip.memOk_cause h8) h8
  exact Chip.memOk_bothTrained (Chip.memOk_showLanes h9)

theorem Chip.memOk_retireLane {c : Chip} {i : Identity} {p l : Nat} (h : MemOk c) : MemOk (c.retireLane i p l) := by
  unfold Chip.retireLane
  extract_lets _ _ _ _ _ _ c1
  have h2 : MemOk c1 := Chip.memOk_cause (Chip.memOk_setPort h)
  exact MemOk.ite h (MemOk.ite (Chip.memOk_showLane (Chip.memOk_cause (Chip.memOk_setPort h))) (Chip.memOk_enterLaneState h2))

theorem Chip.memOk_lockLost {c : Chip} {i : Identity} {p l : Nat} (h : MemOk c) : MemOk (c.lockLost i p l) := by
  unfold Chip.lockLost
  extract_lets c1
  have h2 : MemOk c1 := MemOk.ite (Chip.memOk_streamLost (Chip.memOk_set h)) h
  exact Chip.memOk_retireLane h2

theorem Chip.memOk_laneHead {c : Chip} {i : Identity} {p l : Nat} {ok : Bool} (h : MemOk c) : MemOk (c.laneHead i p l ok) := by
  unfold Chip.laneHead
  extract_lets _ _ _ c1
  have h2 : MemOk c1 := Chip.memOk_setPort h
  exact MemOk.ite (Chip.memOk_lockLost h2) (MemOk.ite (Chip.memOk_set h2) h2)

theorem Chip.memOk_clkLoss {c : Chip} {p : Nat} (h : MemOk c) : MemOk (c.clkLoss p) := by
  unfold Chip.clkLoss
  refine MemOk.ite h ?_
  extract_lets c1 _ c2
  have h3 : MemOk c1 := Chip.memOk_set (Chip.memOk_set h)
  have h4 : MemOk c2 := Chip.memOk_setPort h3
  exact Chip.memOk_showLanes (Chip.memOk_streamLost (Chip.memOk_setPortState h4))

theorem Chip.memOk_calStep {c : Chip} {p lane : Nat} (h : MemOk c) : MemOk (c.calStep p lane) := by
  unfold Chip.calStep
  extract_lets _ _ _ _
  exact Chip.memOk_setPort h

theorem Chip.memOk_laneCal {c : Chip} {p : Nat} (h : MemOk c) : MemOk (c.laneCal p) := by
  unfold Chip.laneCal
  extract_lets c1
  have h2 : MemOk c1 := Chip.memOk_set h
  exact MemOk.foldl (fun _ _ h3 => Chip.memOk_calStep h3) h2

theorem Chip.memOk_recalStart {c : Chip} {p : Nat} (h : MemOk c) : MemOk (c.recalStart p) := by
  unfold Chip.recalStart
  extract_lets _ _ _ _ _ _
  exact MemOk.ite h (Chip.memOk_showLanes (Chip.memOk_setPort h))

theorem Chip.memOk_calLearn {c : Chip} {p lane : Nat} {new : Word} (h : MemOk c) : MemOk (c.calLearn p lane new) :=
  MemOk.same h rfl rfl

theorem Chip.memOk_recalComplete {c : Chip} {i : Identity} {p width height : Nat} {new : Word} (h : MemOk c) :
    MemOk (c.recalComplete i p width height new) := by
  unfold Chip.recalComplete
  split
  · exact h
  · refine MemOk.ite h ?_
    extract_lets _ _ _ _ _ _ _ _ _ c1 c2 _
    have h3 : MemOk c1 := Chip.memOk_showEye (Chip.memOk_calLearn (Chip.memOk_setPort h))
    have h4 : MemOk c2 := Chip.memOk_showLanes (Chip.memOk_cause (Chip.memOk_setPort h))
    exact MemOk.ite (MemOk.ite (Chip.memOk_enterLaneState h3) (Chip.memOk_showLanes h3)) (MemOk.ite h4 (Chip.memOk_retireLane h4))

theorem Chip.memOk_eyeLane {c : Chip} {i : Identity} {p l width height : Nat} (h : MemOk c) : MemOk (c.eyeLane i p l width height) := by
  unfold Chip.eyeLane
  refine MemOk.ite h ?_
  extract_lets c1 _ _ _ c2
  have h3 : MemOk c1 := Chip.memOk_showEye h
  have h4 : MemOk c2 := Chip.memOk_setPort h3
  exact MemOk.ite (Chip.memOk_retireLane h4) h4

theorem Chip.memOk_reduceNow {c : Chip} {p : Nat} (h : MemOk c) : MemOk (c.reduceNow p) := by
  unfold Chip.reduceNow
  extract_lets _
  exact MemOk.ite h (Chip.memOk_showLanes (Chip.memOk_cause (Chip.memOk_setPortState h)))

theorem Chip.memOk_fullRate {c : Chip} {i : Identity} {p : Nat} (h : MemOk c) : MemOk (c.fullRate i p) := MemOk.ite h (Chip.memOk_enterState h)

theorem Chip.memOk_markerLane {c : Chip} {p l : Nat} (h : MemOk c) : MemOk (c.markerLane p l) := by
  unfold Chip.markerLane
  extract_lets r1
  have h2 : MemOk r1.2 := Chip.memOk_burst h
  exact Chip.memOk_emit h2

theorem Chip.memOk_markerSend {c : Chip} {p : Nat} (h : MemOk c) : MemOk (c.markerSend p) := by
  unfold Chip.markerSend
  extract_lets _ _ _ c1 _ c2 _ _
  have h3 : MemOk c1 := Chip.memOk_set (Chip.memOk_setPort h)
  have h4 : MemOk c2 := MemOk.foldl (fun _ _ h5 => Chip.memOk_markerLane h5) h3
  exact MemOk.ite h (Chip.memOk_stream (Chip.memOk_setPort h4))

theorem Chip.memOk_slip {c : Chip} {p : Nat} (h : MemOk c) : MemOk (c.slip p) := Chip.memOk_streamLost (Chip.memOk_cause (Chip.memOk_bumpSat h))

theorem Chip.memOk_markerGrid {c : Chip} {p m : Nat} (h : MemOk c) : MemOk (c.markerGrid p m) := by
  unfold Chip.markerGrid
  extract_lets _ _ _ _ c1 c2
  have h3 : MemOk c1 := Chip.memOk_set (Chip.memOk_setPort h)
  have h4 : MemOk c2 := Chip.memOk_showLanes h3
  exact MemOk.ite (Chip.memOk_slip (Chip.memOk_report h4)) h4

theorem Chip.memOk_markerFields {c : Chip} {p m : Nat} (h : MemOk c) : MemOk (c.markerFields p m) := by
  unfold Chip.markerFields
  extract_lets c1 c2 c3 c4 c5 c6 c7
  have h8 : MemOk c1 := Chip.memOk_set h
  have h9 : MemOk c2 := Chip.memOk_set h8
  have h10 : MemOk c3 := Chip.memOk_set h9
  have h11 : MemOk c4 := Chip.memOk_set h10
  have h12 : MemOk c5 := Chip.memOk_set h11
  have h13 : MemOk c6 := Chip.memOk_set h12
  have h14 : MemOk c7 := Chip.memOk_set h13
  exact Chip.memOk_set h14

theorem Chip.memOk_markerGood {c : Chip} {i : Identity} {p l m : Nat} (h : MemOk c) : MemOk (c.markerGood i p l m) := by
  unfold Chip.markerGood
  extract_lets _ _ _ _ _ _ _ c1 c2 c3 c4 c5 c6
  have h7 : MemOk c1 := Chip.memOk_setPort h
  have h8 : MemOk c2 := Chip.memOk_markerFields h7
  have h9 : MemOk c3 := MemOk.ite (Chip.memOk_markerGrid h8) h8
  have h10 : MemOk c4 := Chip.memOk_set h9
  have h11 : MemOk c5 := MemOk.ite (Chip.memOk_linkUp h10) (MemOk.ite (Chip.memOk_takeId h10) h10)
  have h12 : MemOk c6 := MemOk.ite (Chip.memOk_streamLost h11) h11
  exact MemOk.ite (Chip.memOk_ringSId h12) h12

theorem Chip.memOk_markerBad {c : Chip} {i : Identity} {p l : Nat} (h : MemOk c) : MemOk (c.markerBad i p l) := by
  unfold Chip.markerBad
  extract_lets _ _ _ _ _ _ _ c1
  have h2 : MemOk c1 := Chip.memOk_cause (Chip.memOk_setPort h)
  exact MemOk.ite (Chip.memOk_lockLost h2) h2

theorem Chip.memOk_markerReceive {c : Chip} {i : Identity} {p l sync m : Nat} (h : MemOk c) : MemOk (c.markerReceive i p l sync m) := by
  unfold Chip.markerReceive
  refine MemOk.ite h ?_
  extract_lets c1
  have h2 : MemOk c1 := Chip.memOk_laneHead h
  exact MemOk.ite (Chip.memOk_markerGood h2) (Chip.memOk_markerBad h2)

theorem Chip.memOk_laneBlock {c : Chip} {i : Identity} {p : Nat} {b : LineBlock} (h : MemOk c) : MemOk (c.laneBlock i p b) := by
  unfold Chip.laneBlock
  extract_lets _ _ _ _
  exact Chip.memOk_laneHead (Chip.memOk_setPort h)

theorem Chip.memOk_takeBlock {c : Chip} {p l payload : Nat} {bad : Bool} (h : MemOk c) : MemOk (c.takeBlock p l payload bad).2 := by
  unfold Chip.takeBlock
  extract_lets _ _ _ _ _ c1 c2
  have h3 : MemOk c1 := Chip.memOk_setPort h
  have h4 : MemOk c2 := MemOk.ite (Chip.memOk_streamLost h3) h3
  exact MemOk.ite_snd (MemOk.pair h) (MemOk.ite_snd (MemOk.pair (Chip.memOk_setPort h)) (MemOk.pair h4))

theorem Chip.memOk_trainSync {c : Chip} {p : Nat} {b : LineBlock} (h : MemOk c) : MemOk (c.trainSync p b) := by
  unfold Chip.trainSync
  extract_lets _ _
  exact MemOk.ite (Chip.memOk_setPort h) h

theorem Chip.memOk_trainBlock {c : Chip} {i : Identity} {p plain : Nat} (h : MemOk c) : MemOk (c.trainBlock i p plain) :=
  MemOk.ite (Chip.memOk_bothTrained (Chip.memOk_setPort h)) h

theorem Chip.memOk_rxBlock {c : Chip} {i : Identity} {p : Nat} {b : LineBlock} (h : MemOk c) : MemOk (c.rxBlock i p b).2 := by
  unfold Chip.rxBlock
  extract_lets _ _ r1 c2
  have h3 : MemOk r1.2 := MemOk.ite_snd (MemOk.pair h) (Chip.memOk_takeBlock h)
  have h4 : MemOk c2 := Chip.memOk_trainSync (Chip.memOk_laneBlock h3)
  exact MemOk.pair (MemOk.ite (Chip.memOk_trainBlock h4) h4)

theorem Chip.memOk_blockLock {c : Chip} {i : Identity} {p l : Nat} {blocks : List LineBlock} (h : MemOk c) : MemOk (c.blockLock i p l blocks) :=
  MemOk.ite h (MemOk.foldl (fun _ _ h1 => Chip.memOk_laneBlock h1) h)

theorem Chip.memOk_withSeq {c : Chip} {p cell : Nat} (h : MemOk c) : MemOk (c.withSeq p cell).2 := by
  unfold Chip.withSeq
  extract_lets _ _
  exact MemOk.pair (Chip.memOk_setPort h)

theorem Chip.memOk_sendChain {c : Chip} {p cell : Nat} (h : MemOk c) : MemOk (c.sendChain p cell) := by
  unfold Chip.sendChain
  extract_lets r1 c2 _ c3
  have h4 : MemOk r1.2 := Chip.memOk_withSeq h
  have h5 : MemOk c2 := h4
  have h6 : MemOk c3 := Chip.memOk_setPort h4
  exact MemOk.ite (Chip.memOk_setPort h6) h6

theorem Chip.memOk_sendCoded {c : Chip} {p : Nat} {raw : RawCell} (h : MemOk c) : MemOk (c.sendCoded p raw) := Chip.memOk_stream (Chip.memOk_emit h)

theorem Chip.memOk_sendRaw {c : Chip} {p cell : Nat} (h : MemOk c) : MemOk (c.sendRaw p cell) := by
  unfold Chip.sendRaw
  extract_lets _ c1
  have h2 : MemOk c1 := Chip.memOk_setPort h
  exact Chip.memOk_sendCoded h2

theorem Chip.memOk_sendSlot {c : Chip} {p cell : Nat} (h : MemOk c) : MemOk (c.sendSlot p cell) := Chip.memOk_sendRaw h

theorem Chip.memOk_sendFree {c : Chip} {p cell : Nat} (h : MemOk c) : MemOk (c.sendFree p cell) := by
  unfold Chip.sendFree
  extract_lets c1
  have h2 : MemOk c1 := MemOk.ite (Chip.memOk_sendSlot h) h
  exact Chip.memOk_sendSlot h2

theorem Chip.memOk_echoSend {c : Chip} {p : Nat} (h : MemOk c) : MemOk (c.echoSend p) := by
  unfold Chip.echoSend
  refine MemOk.ite h ?_
  extract_lets _ _ r1 _
  have h2 : MemOk r1.2 := Chip.memOk_withSeq (Chip.memOk_setPort h)
  exact Chip.memOk_setPort h2

theorem Chip.memOk_echoMeasure {c : Chip} {p m : Nat} (h : MemOk c) : MemOk (c.echoMeasure p m) := by
  unfold Chip.echoMeasure
  extract_lets _ _ _ c1
  have h2 : MemOk c1 := Chip.memOk_setPort h
  refine MemOk.ite (Chip.memOk_raise h) ?_
  split
  · exact Chip.memOk_set h2
  · exact h2

end Sys2Proof.Machine
end

