-- ==== Sys2Proof/Proofs/MemFormPictures.lean ====
section
/-! PROOF. Every operation keeps the memories in canonical form, one lemma for each, in the order of the model: the flash and its settings, ingest,
tiles, redundancy, drive, reset, mapping and scan-out. -/

namespace Sys2Proof.Machine

/-! ### Machine/FlashOps -/

theorem Chip.memOk_setUpd {c : Chip} {u : UpdateSt} (h : MemOk c) : MemOk (c.setUpd u) := MemOk.same h rfl rfl

theorem Chip.memOk_slotAppend {c : Chip} {slot st : Nat} (h : MemOk c) : MemOk (c.slotAppend slot st) := by
  unfold Chip.slotAppend
  extract_lets _ _
  split
  · exact Chip.memOk_raise h
  · exact Chip.memOk_flashProgram h

theorem Chip.memOk_bootReject {c : Chip} {slot : Nat} {trial : Bool} (h : MemOk c) : MemOk (c.bootReject slot trial) := by
  unfold Chip.bootReject
  extract_lets c1 _
  have h1 : MemOk c1 := Chip.memOk_slotAppend h
  clear_value c1
  exact MemOk.ite (MemOk.ite (MemOk.same h1 rfl rfl) h1) h

theorem Chip.memOk_bootTry {l : List Nat} {c : Chip} (h : MemOk c) : MemOk (Chip.bootTry l c) := by
  induction l generalizing c with
  | nil => exact MemOk.same (Chip.memOk_setBelfry h rfl) rfl rfl
  | cons s t ih =>
    unfold Chip.bootTry
    extract_lets normal trial _ c1 c2 c3 _ c4 _ c5 _ c6 _
    have h0 : MemOk { c with aon := _ } := MemOk.same h rfl rfl
    have h3 : MemOk c3 := Chip.memOk_cond (Chip.memOk_set (Chip.memOk_set (Chip.memOk_set h)))
    clear_value c3
    have h4 : MemOk c4 := Chip.memOk_setUpd h3
    clear_value c4
    have h5 : MemOk c5 := MemOk.same h4 rfl rfl
    have h6 : MemOk c6 := MemOk.same h5 rfl rfl
    exact MemOk.ite (ih (Chip.memOk_bootReject h0)) (MemOk.ite (Chip.memOk_setBelfry (Chip.memOk_set h6) rfl) (ih (Chip.memOk_bootReject h)))

theorem Chip.memOk_bootSelect {c : Chip} (h : MemOk c) : MemOk c.bootSelect := Chip.memOk_bootTry h

theorem Chip.memOk_commitCopy {c : Chip} {area index copy : Nat} {ok : Bool} (h : MemOk c) : MemOk (c.commitCopy area index copy ok) :=
  MemOk.ite (Chip.memOk_flashProgram h) (Chip.memOk_raise h)

theorem Chip.memOk_layCopy {c : Chip} {area index k format seq : Nat} {payload : List Byte} (h : MemOk c) :
    MemOk (c.layCopy area index k format seq payload) := by
  unfold Chip.layCopy
  extract_lets _ c1
  have h2 : MemOk c1 := Chip.memOk_flashErase h
  exact Chip.memOk_flashProgram (Chip.memOk_flashProgram h2)

theorem Chip.memOk_finishCopy {c : Chip} {area index k : Nat} {lay : Chip → Chip} {ok1 ok2 : Bool} (h :
    MemOk c) (hlay : ∀ x0, MemOk x0 → MemOk (lay x0)) : MemOk (c.finishCopy area index k lay ok1 ok2) := by
  unfold Chip.finishCopy
  extract_lets c1
  have h2 : MemOk c1 := Chip.memOk_commitCopy h
  exact MemOk.ite h2 (Chip.memOk_commitCopy (hlay _ h2))

theorem Chip.memOk_writeCopyTo {c : Chip} {area index k format : Nat} {payload : List Byte} {ok1 ok2 : Bool} (h : MemOk c) :
    MemOk (c.writeCopyTo area index k format payload ok1 ok2) := by
  unfold Chip.writeCopyTo
  extract_lets seq lay
  have hlay : ∀ d, MemOk d → MemOk (lay d) := fun _ => Chip.memOk_layCopy
  exact Chip.memOk_finishCopy (hlay _ h) hlay

theorem Chip.memOk_writeCopy {c : Chip} {area index format : Nat} {payload : List Byte} {ok1 ok2 : Bool} (h : MemOk c) :
    MemOk (c.writeCopy area index format payload ok1 ok2) :=
  Chip.memOk_writeCopyTo h

theorem Chip.memOk_interruptCopy {c : Chip} {area index k : Nat} (h : MemOk c) : MemOk (c.interruptCopy area index k) := Chip.memOk_layCopy h

theorem Chip.memOk_cutBlock {c : Chip} {completed : Bool} (h : MemOk c) : MemOk (c.cutBlock completed) := by
  unfold Chip.cutBlock
  split
  · exact h
  · exact MemOk.ite (MemOk.foldl (fun _ _ h => MemOk.ite h (Chip.memOk_flashProgram h)) (MemOk.same h rfl rfl))
      (Chip.memOk_flashProgram (MemOk.foldl (fun _ _ h => MemOk.ite h (Chip.memOk_flashProgram h)) (MemOk.same h rfl rfl)))

theorem Chip.memOk_interruptFlash {c : Chip} (h : MemOk c) : MemOk c.interruptFlash := by
  unfold Chip.interruptFlash
  extract_lets c1 c2 c3 _ c4 _ c5
  have h6 : MemOk c1 := Chip.memOk_cutBlock h
  have h7 : MemOk c2 := by
    unfold c2
    split
    · exact Chip.memOk_interruptCopy h6
    · exact MemOk.ite (Chip.memOk_interruptCopy h6) h6
  have h8 : MemOk c3 := by
    unfold c3
    split
    · exact Chip.memOk_interruptCopy h7
    · exact h7
  have h9 : MemOk c4 := Chip.memOk_setBelfry h8 rfl
  have h10 : MemOk c5 := MemOk.same h9 rfl rfl
  exact Chip.memOk_set (Chip.memOk_set h10)

theorem Chip.memOk_belfryDown {c : Chip} {cause : Nat} (h : MemOk c) : MemOk (c.belfryDown cause) := by
  unfold Chip.belfryDown
  extract_lets c1 c2 _ c3 _ _ c4
  have h5 : MemOk c1 := Chip.memOk_setHalted (Chip.memOk_setUnlock h)
  have h6 : MemOk c2 := Chip.memOk_interruptFlash (Chip.memOk_belfryFill h5)
  have h7 : MemOk c3 := Chip.memOk_setBelfry h6 rfl
  have h8 : MemOk c4 := MemOk.same h7 rfl rfl
  exact Chip.memOk_bump (Chip.memOk_set h8)

theorem Chip.memOk_dogRestart {c : Chip} (h : MemOk c) : MemOk c.dogRestart := by
  unfold Chip.dogRestart
  extract_lets _ _
  exact Chip.memOk_belfryDown (MemOk.same h rfl rfl)

theorem Chip.memOk_setUpdState {c : Chip} {st : Nat} (h : MemOk c) : MemOk (c.setUpdState st) := Chip.memOk_set h

theorem Chip.memOk_updFail {c : Chip} {code : Nat} (h : MemOk c) : MemOk (c.updFail code) := Chip.memOk_raise (Chip.memOk_set h)

theorem Chip.memOk_updOpen {c : Chip} (h : MemOk c) : MemOk c.updOpen := by
  unfold Chip.updOpen
  extract_lets _ c1 c2
  have h3 : MemOk c1 := Chip.memOk_set (Chip.memOk_setUpdState h)
  have h4 : MemOk c2 := Chip.memOk_flashErase h3
  exact MemOk.ite (Chip.memOk_logUpd h4) (Chip.memOk_updFail h)

theorem Chip.memOk_updErased {c : Chip} {flashOk : Bool} (h : MemOk c) : MemOk (c.updErased flashOk) := by
  unfold Chip.updErased
  refine MemOk.ite h (MemOk.ite (Chip.memOk_updFail (Chip.memOk_raise (Chip.memOk_setUpdState h))) ?_)
  extract_lets _ c1
  have h2 : MemOk c1 := Chip.memOk_setUpd h
  exact Chip.memOk_setUpdState (Chip.memOk_wr (Chip.memOk_set h2))

theorem Chip.memOk_blockData {c : Chip} {w : Word} (h : MemOk c) : MemOk (c.blockData w) := MemOk.ite (Chip.memOk_setUpd h) h

theorem Chip.memOk_stagePage {c : Chip} {page : Nat} {bytes : List Byte} (h : MemOk c) : MemOk (c.stagePage page bytes) := by
  unfold Chip.stagePage
  refine MemOk.ite h ?_
  extract_lets c1 _
  have h2 : MemOk c1 := Chip.memOk_flashProgram h
  exact Chip.memOk_bump (Chip.memOk_setUpd h2)

theorem Chip.memOk_showMissing {c : Chip} (h : MemOk c) : MemOk c.showMissing := by
  unfold Chip.showMissing
  refine MemOk.ite ?_ h
  extract_lets _ _
  exact Chip.memOk_set (Chip.memOk_set h)

theorem Chip.memOk_updWrite {c : Chip} (h : MemOk c) : MemOk c.updWrite :=
  MemOk.ite (Chip.memOk_updFail h) (MemOk.ite (Chip.memOk_updFail h) (Chip.memOk_setUpd (Chip.memOk_set h)))

theorem Chip.memOk_blockDone {c : Chip} {flashOk : Bool} (h : MemOk c) : MemOk (c.blockDone flashOk) := by
  unfold Chip.blockDone
  refine MemOk.ite h ?_
  split
  · exact h
  · extract_lets _ c1 c2
    have h3 : MemOk c1 := Chip.memOk_setUpd (Chip.memOk_set h)
    have h4 : MemOk c2 := MemOk.foldl (fun _ _ h5 => Chip.memOk_stagePage h5) h3
    exact MemOk.ite (Chip.memOk_updFail (Chip.memOk_raise (Chip.memOk_setUpdState h3))) (Chip.memOk_showMissing h4)

theorem Chip.memOk_bulkStage {c : Chip} {cell : Nat} (h : MemOk c) : MemOk (c.bulkStage cell) := by
  unfold Chip.bulkStage
  extract_lets _ _ _ _
  refine MemOk.ite h (MemOk.ite (Chip.memOk_bumpSat h) ?_)
  split
  · exact Chip.memOk_bumpSat h
  · extract_lets c1
    have h2 : MemOk c1 := Chip.memOk_setUpd h
    exact Chip.memOk_showMissing (MemOk.foldl (fun _ _ h3 => Chip.memOk_stagePage h3) h2)

theorem Chip.memOk_updVerify {c : Chip} (h : MemOk c) : MemOk c.updVerify := MemOk.ite (Chip.memOk_setUpdState h) (Chip.memOk_updFail h)

theorem Chip.memOk_verifyDone {c : Chip} {flashOk : Bool} (h : MemOk c) : MemOk (c.verifyDone flashOk) := by
  unfold Chip.verifyDone
  refine MemOk.ite h ?_
  extract_lets _ _ c1 c2
  have h3 : MemOk c1 := Chip.memOk_set (Chip.memOk_slotAppend h)
  have h4 : MemOk c2 := MemOk.ite (Chip.memOk_raise h) h
  exact MemOk.ite (Chip.memOk_raise (Chip.memOk_logUpd (Chip.memOk_setUpdState (Chip.memOk_set h3)))) (Chip.memOk_updFail (Chip.memOk_logUpd
    (Chip.memOk_setUpdState h4)))

theorem Chip.memOk_updAbort {c : Chip} (h : MemOk c) : MemOk c.updAbort :=
  MemOk.ite (Chip.memOk_setUpd (Chip.memOk_setUpdState h)) (Chip.memOk_updFail h)

theorem Chip.memOk_tableHold {c : Chip} (h : MemOk c) : MemOk c.tableHold := Chip.memOk_setUpd h

theorem Chip.memOk_updActivate {c : Chip} (h : MemOk c) : MemOk c.updActivate := by
  unfold Chip.updActivate
  refine MemOk.ite (Chip.memOk_updFail h) ?_
  extract_lets _ c1 c2 c3 c4
  have h5 : MemOk c1 := Chip.memOk_setUpdState h
  have h6 : MemOk c2 := Chip.memOk_logFlush (Chip.memOk_logUpd h5)
  have h7 : MemOk c3 := Chip.memOk_slotAppend h6
  have h8 : MemOk c4 := MemOk.ite h7 (Chip.memOk_tableHold h7)
  exact Chip.memOk_belfryDown h8

theorem Chip.memOk_updConfirm {c : Chip} (h : MemOk c) : MemOk c.updConfirm := by
  unfold Chip.updConfirm
  refine MemOk.ite h ?_
  extract_lets c1 c2
  have h3 : MemOk c1 := Chip.memOk_slotAppend h
  have h4 : MemOk c2 := Chip.memOk_cond (Chip.memOk_set h3)
  exact Chip.memOk_logUpd (Chip.memOk_set h4)

theorem Chip.memOk_confirmExpire {c : Chip} (h : MemOk c) : MemOk c.confirmExpire := by
  unfold Chip.confirmExpire
  extract_lets c1 _ c2 c3
  have h1 : MemOk c1 := Chip.memOk_slotAppend h
  clear_value c1
  have h2 : MemOk c2 := MemOk.same h1 rfl rfl
  have h3 : MemOk c3 := Chip.memOk_cond (Chip.memOk_set h2)
  exact MemOk.ite h (Chip.memOk_belfryDown h3)

theorem Chip.memOk_holdAtBar {c : Chip} (h : MemOk c) : MemOk c.holdAtBar := by
  unfold Chip.holdAtBar
  extract_lets c1 _
  have h2 : MemOk c1 := MemOk.ite (Chip.memOk_tableHold h) h
  split
  · exact h2
  · exact MemOk.ite (Chip.memOk_raise h2) (MemOk.ite (Chip.memOk_setUpd h2) h2)

theorem Chip.memOk_bulkSend {c : Chip} (h : MemOk c) : MemOk c.bulkSend := by
  unfold Chip.bulkSend
  split
  · exact h
  · exact MemOk.ite (Chip.memOk_updFail h) (MemOk.ite h (Chip.memOk_setUpd (Chip.memOk_set h)))

theorem Chip.memOk_bulkCell {c : Chip} (h : MemOk c) : MemOk c.bulkCell := by
  unfold Chip.bulkCell
  extract_lets _ _ _ r1 c2 _ _ _ c3 _
  have h4 : MemOk r1.2 := Chip.memOk_dramRead h
  have h5 : MemOk c2 := h4
  have h6 : MemOk c3 := by
    refine MemOk.foldl (fun _ _ h7 => (MemOk.ite ?_ h7)) h4
    extract_lets x8 _
    have h9 : MemOk x8.2 := Chip.memOk_withSeq h7
    exact Chip.memOk_setPort h9
  exact MemOk.ite h (Chip.memOk_bulkSettled (Chip.memOk_setUpd h6))

theorem Chip.memOk_showCopy {c : Chip} {k : Nat} {i : CopyInfo} (h : MemOk c) : MemOk (c.showCopy k i) :=
  Chip.memOk_set (Chip.memOk_set (Chip.memOk_set h))

theorem Chip.memOk_showSettings {c : Chip} (h : MemOk c) : MemOk c.showSettings := by
  unfold Chip.showSettings
  split
  · exact h
  · exact Chip.memOk_showCopy h

theorem Chip.memOk_settingsSave {c : Chip} (h : MemOk c) : MemOk c.settingsSave := Chip.memOk_set h

theorem Chip.memOk_putSettings {c : Chip} {payload : List Byte} {ok1 ok2 : Bool} (h : MemOk c) : MemOk (c.putSettings payload ok1 ok2) := by
  unfold Chip.putSettings
  extract_lets c1 c2
  have h3 : MemOk c1 := Chip.memOk_writeCopy h
  have h4 : MemOk c2 := Chip.memOk_showSettings h3
  exact MemOk.ite (Chip.memOk_logUpd h4) h3

theorem Chip.memOk_lanesPut {c : Chip} (h : MemOk c) : MemOk c.lanesPut := MemOk.ite (Chip.memOk_setBelfry h rfl) h

theorem Chip.memOk_writeSettings {c : Chip} {ok1 ok2 : Bool} (h : MemOk c) : MemOk (c.writeSettings ok1 ok2) :=
  Chip.memOk_lanesPut (Chip.memOk_set (Chip.memOk_putSettings h))

theorem Chip.memOk_writeLanes {c : Chip} {ok1 ok2 : Bool} (h : MemOk c) : MemOk (c.writeLanes ok1 ok2) :=
  MemOk.ite h (Chip.memOk_lanesPut (Chip.memOk_putSettings h))

theorem Chip.memOk_writeMigrated {c : Chip} {k : Nat} {payload : List Byte} {ok1 ok2 : Bool} (h : MemOk c) :
    MemOk (c.writeMigrated k payload ok1 ok2) := by
  unfold Chip.writeMigrated
  extract_lets _ c1 c2 c3
  have h4 : MemOk c1 := Chip.memOk_writeCopyTo (Chip.memOk_setBelfry h rfl)
  have h5 : MemOk c2 := Chip.memOk_set h4
  have h6 : MemOk c3 := Chip.memOk_set (Chip.memOk_showSettings h5)
  exact MemOk.ite (Chip.memOk_logUpd (Chip.memOk_raise h6)) h5

theorem Chip.memOk_writeSetArea {c : Chip} {ok1 ok2 : Bool} (h : MemOk c) : MemOk (c.writeSetArea ok1 ok2) := by
  unfold Chip.writeSetArea
  split
  · exact Chip.memOk_writeMigrated h
  · exact MemOk.ite (Chip.memOk_writeSettings h) (Chip.memOk_writeLanes h)

theorem Chip.memOk_listAdvance {c : Chip} (h : MemOk c) : MemOk c.listAdvance := MemOk.ite (Chip.memOk_bump h) h

theorem Chip.memOk_listWrite {c : Chip} {w : Word} (h : MemOk c) : MemOk (c.listWrite w) := Chip.memOk_listAdvance (Chip.memOk_setUpd h)

theorem Chip.memOk_listRead {c : Chip} (h : MemOk c) : MemOk c.listRead.2 := MemOk.pair (Chip.memOk_listAdvance h)

theorem Chip.memOk_rolledBack {c : Chip} (h : MemOk c) : MemOk c.rolledBack := by
  unfold Chip.rolledBack
  extract_lets c1 c2
  have h3 : MemOk c1 := Chip.memOk_set h
  have h4 : MemOk c2 := by
    unfold c2
    split
    · exact MemOk.ite (Chip.memOk_showCopy h3) h3
    · exact h3
  exact Chip.memOk_raise (Chip.memOk_logUpd h4)

theorem Chip.memOk_imageStart {c : Chip} (h : MemOk c) : MemOk c.imageStart := by
  unfold Chip.imageStart
  refine MemOk.ite h ?_
  extract_lets _ c1 _ c2 c3 _ x4 _ c5
  have h6 : MemOk c1 := Chip.memOk_setBelfry h rfl
  have h7 : MemOk c2 := Chip.memOk_setUpdState h6
  have h8 : MemOk c3 := Chip.memOk_set h7
  have h9 : MemOk x4 := Chip.memOk_set h8
  have h10 : MemOk c5 := MemOk.same h9 rfl rfl
  exact MemOk.ite (Chip.memOk_rolledBack h10) h10

theorem Chip.memOk_noteBroken {c : Chip} (h : MemOk c) : MemOk c.noteBroken := by
  unfold Chip.noteBroken
  extract_lets _
  exact MemOk.foldl (fun _ _ h1 => (MemOk.ite (Chip.memOk_logUpd (Chip.memOk_raise h1)) h1)) h

theorem Chip.memOk_belfryBack {c : Chip} (h : MemOk c) : MemOk c.belfryBack := by
  unfold Chip.belfryBack
  split
  · exact h
  · refine MemOk.ite h ?_
    extract_lets c1
    have h2 : MemOk c1 := Chip.memOk_noteBroken (Chip.memOk_imageStart h)
    exact Chip.memOk_raise (Chip.memOk_logNow h2)

theorem Chip.memOk_bulkCalib {c : Chip} {cell : Nat} (h : MemOk c) : MemOk (c.bulkCalib cell) := by
  unfold Chip.bulkCalib
  extract_lets s new k a _ c1 _ c2 ofs bytes want
  have h1 : MemOk c1 := Chip.memOk_setUpd (Chip.memOk_flashErase h)
  clear_value c1
  have h2 : MemOk c2 := MemOk.ite h (Chip.memOk_setBelfry h1 rfl)
  refine MemOk.ite h (MemOk.ite h2 ?_)
  split
  · exact h2
  · extract_lets len tail full c3 pages _ c4 payload c5 _ c6 _
    have h3 : MemOk c3 := MemOk.foldl (fun _ _ => Chip.memOk_flashProgram) h2
    clear_value c3
    have h4 : MemOk c4 := Chip.memOk_setUpd h3
    clear_value c4
    have h6 : MemOk c6 := Chip.memOk_setUpd (Chip.memOk_flashProgram h4)
    clear_value c6
    exact MemOk.ite (Chip.memOk_setBelfry h6 rfl) h4

theorem Chip.memOk_commitCalib {c : Chip} {ok1 ok2 : Bool} (h : MemOk c) : MemOk (c.commitCalib ok1 ok2) := by
  unfold Chip.commitCalib
  extract_lets _ _ _ _ _ c1 c2 _
  have h3 : MemOk c1 := Chip.memOk_setBelfry h rfl
  have h4 : MemOk c2 := Chip.memOk_finishCopy h3 (fun _ h5 => Chip.memOk_layCopy h5)
  exact MemOk.ite (Chip.memOk_logUpd (Chip.memOk_setBelfry h4 rfl)) h4

theorem Chip.memOk_holdStore {c : Chip} {n o : Nat} {bytes : List Byte} (h : MemOk c) : MemOk (c.holdStore n o bytes) := by
  unfold Chip.holdStore
  refine MemOk.ite h (MemOk.ite (MemOk.ite h ?_) (MemOk.ite h (Chip.memOk_dramWrite h)))
  extract_lets _ _ _ c1
  have h2 : MemOk c1 := MemOk.ite h (Chip.memOk_setBelfry (Chip.memOk_flashErase h) rfl)
  exact MemOk.ite h (Chip.memOk_flashProgram h2)

theorem Chip.memOk_bulkHold {c : Chip} {cell : Nat} (h : MemOk c) : MemOk (c.bulkHold cell) := by
  unfold Chip.bulkHold
  extract_lets _ _ _
  exact Chip.memOk_holdStore (Chip.memOk_holdStore h)

theorem Chip.memOk_writeHold {c : Chip} {n : Nat} {ok1 ok2 : Bool} (h : MemOk c) : MemOk (c.writeHold n ok1 ok2) := by
  unfold Chip.writeHold
  refine MemOk.ite h ?_
  extract_lets _ _ _ c1
  have h2 : MemOk c1 := Chip.memOk_setBelfry h rfl
  exact Chip.memOk_writeCopy h2

theorem Chip.memOk_holdBytes {c : Chip} {n len : Nat} (h : MemOk c) : MemOk (c.holdBytes n len).2 := by
  unfold Chip.holdBytes
  refine MemOk.ite_snd (MemOk.pair h) (MemOk.ite_snd ?_ (MemOk.ite_snd (MemOk.pair h) ?_))
  · split
    · exact MemOk.pair h
    · exact MemOk.pair h
  · extract_lets r1
    have h2 : MemOk r1.2 := Chip.memOk_dramFetch h
    exact MemOk.pair h2

/-! ### Machine/IngestOps -/

theorem Chip.memOk_ringWrite {c : Chip} {path sub : Nat} {f : EthFrame} (h : MemOk c) : MemOk (c.ringWrite path sub f) := by
  unfold Chip.ringWrite
  extract_lets _ _ _ _ c1 _ c2 c3
  have h4 : MemOk c1 := Chip.memOk_bump h
  have h5 : MemOk c2 := Chip.memOk_dramWrite h
  have h6 : MemOk c3 := Chip.memOk_set h5
  exact MemOk.ite (MemOk.ite (Chip.memOk_raise h4) h4) (Chip.memOk_bump (Chip.memOk_bump h6))

theorem Chip.memOk_setFlow {c : Chip} {n : Nat} {f : FlowSt} (h : MemOk c) : MemOk (c.setFlow n f) := MemOk.same h rfl rfl

theorem Chip.memOk_setFlowState {c : Chip} {n st : Nat} (h : MemOk c) : MemOk (c.setFlowState n st) := by
  unfold Chip.setFlowState
  extract_lets c1
  have h2 : MemOk c1 := Chip.memOk_set h
  exact Chip.memOk_set h2

theorem Chip.memOk_flowEvent {c : Chip} {n : Nat} {e : Ev} (h : MemOk c) : MemOk (c.flowEvent n e) := Chip.memOk_raise (Chip.memOk_wr h)

theorem Chip.memOk_storeBytes {c : Chip} {s : Store} {ofs : Nat} {bytes : List Byte} (h : MemOk c) : MemOk (c.storeBytes s ofs bytes).2 := by
  unfold Chip.storeBytes
  extract_lets _ r1 _
  have h2 : MemOk r1.2 := Chip.memOk_openValue h
  exact MemOk.ite_snd (MemOk.pair h) (MemOk.pair h2)

theorem Chip.memOk_storeWrite {c : Chip} {n ofs : Nat} {bytes : List Byte} (h : MemOk c) : MemOk (c.storeWrite n ofs bytes) := by
  unfold Chip.storeWrite
  extract_lets r1
  have h2 : MemOk r1.2 := Chip.memOk_storeBytes h
  exact Chip.memOk_dramWrite h2

theorem Chip.memOk_dropFrame {c : Chip} {n : Nat} {rtp : Option Nat} (h : MemOk c) : MemOk (c.dropFrame n rtp) := by
  unfold Chip.dropFrame
  extract_lets _ c1
  have h2 : MemOk c1 := Chip.memOk_setFlow h
  exact Chip.memOk_set h2

theorem Chip.memOk_frameComplete {c : Chip} {n : Nat} (h : MemOk c) : MemOk (c.frameComplete n) := by
  unfold Chip.frameComplete
  extract_lets _ _ c1 c2 c3 c4 c5 c6 _ c7
  have h8 : MemOk c1 := Chip.memOk_set (Chip.memOk_set h)
  have h9 : MemOk c2 := Chip.memOk_set (Chip.memOk_set h8)
  have h10 : MemOk c3 := Chip.memOk_bump h9
  have h11 : MemOk c4 := MemOk.ite (Chip.memOk_bump h10) h10
  have h12 : MemOk c5 := Chip.memOk_set h11
  have h13 : MemOk c6 := Chip.memOk_dropFrame h12
  have h14 : MemOk c7 := Chip.memOk_setFlow h13
  exact MemOk.ite (Chip.memOk_flowEvent (Chip.memOk_setFlowState h14)) h14

theorem Chip.memOk_publish {c : Chip} {n : Nat} (h : MemOk c) : MemOk (c.publish n) := by
  unfold Chip.publish
  extract_lets _ _ _ c1 _ _
  have h2 : MemOk c1 := Chip.memOk_set h
  exact MemOk.ite (Chip.memOk_frameComplete h2) (MemOk.ite (MemOk.ite h2 (Chip.memOk_setFlow h2)) (Chip.memOk_setFlow h2))

theorem Chip.memOk_concealLine {c : Chip} {n line : Nat} (h : MemOk c) : MemOk (c.concealLine n line) := by
  unfold Chip.concealLine
  extract_lets _ _ _ r1 c2 _ c3
  have h4 : MemOk r1.2 := Chip.memOk_dramFetch h
  have h5 : MemOk c2 := Chip.memOk_storeWrite h4
  have h6 : MemOk c3 := Chip.memOk_setFlow h5
  exact Chip.memOk_flowEvent (Chip.memOk_bump h6)

theorem Chip.memOk_concealRest {c : Chip} {n : Nat} (h : MemOk c) : MemOk (c.concealRest n) := by
  unfold Chip.concealRest
  extract_lets _ _ _
  exact Chip.memOk_publish (MemOk.foldl (fun _ _ h1 => Chip.memOk_concealLine h1) h)

theorem Chip.memOk_gapExpire {c : Chip} {n : Nat} (h : MemOk c) : MemOk (c.gapExpire n) := by
  unfold Chip.gapExpire
  extract_lets _
  split
  · exact h
  · exact MemOk.ite (Chip.memOk_dropFrame h) (MemOk.ite (Chip.memOk_publish (Chip.memOk_concealLine h)) h)

theorem Chip.memOk_newFrame {c : Chip} {n ts : Nat} (h : MemOk c) : MemOk (c.newFrame n ts) := by
  unfold Chip.newFrame
  extract_lets _ c1 c2 _
  have h3 : MemOk c1 := MemOk.ite (MemOk.ite (Chip.memOk_dropFrame h) (Chip.memOk_concealRest h)) h
  have h4 : MemOk c2 := Chip.memOk_dropFrame h3
  exact Chip.memOk_setFlow h4

theorem Chip.memOk_writeRows {c : Chip} {n : Nat} {rows : List SampleRow} (h : MemOk c) : MemOk (c.writeRows n rows) := by
  unfold Chip.writeRows
  refine MemOk.foldl (fun _ _ h1 => ?_) h
  extract_lets _ _ c2 _
  have h3 : MemOk c2 := Chip.memOk_storeWrite h1
  exact Chip.memOk_setFlow h3

theorem Chip.memOk_notePair {c : Chip} {n path us k : Nat} (h : MemOk c) : MemOk (c.notePair n path us k) := by
  unfold Chip.notePair
  extract_lets _
  split
  · exact h
  · refine MemOk.ite h ?_
    extract_lets _ _ _ _ _ c1 c2
    have h3 : MemOk c1 := Chip.memOk_setFlow h
    have h4 : MemOk c2 := Chip.memOk_set h3
    exact MemOk.ite (Chip.memOk_flowEvent h4) h4

theorem Chip.memOk_pathHeard {c : Chip} {n path : Nat} (h : MemOk c) : MemOk (c.pathHeard n path) := by
  unfold Chip.pathHeard
  extract_lets _ c1
  have h2 : MemOk c1 := Chip.memOk_set h
  exact Chip.memOk_cond h2

theorem Chip.memOk_placePacket {c : Chip} {n path : Nat} {m : MediaPkt} (h : MemOk c) : MemOk (c.placePacket n path m) := by
  unfold Chip.placePacket
  extract_lets _ late written _
  have hlate : MemOk late := Chip.memOk_bump h
  have hwritten : ∀ d, MemOk d → MemOk (written d) := fun d hd =>
    MemOk.ite (Chip.memOk_bump hd) (Chip.memOk_publish (Chip.memOk_bump (Chip.memOk_writeRows (Chip.memOk_setFlow hd))))
  exact MemOk.ite (MemOk.ite (Chip.memOk_setFlow hlate) hlate) (MemOk.ite (Chip.memOk_setFlow h)
    (MemOk.ite (MemOk.ite (hwritten _ h) h) (hwritten _ (Chip.memOk_newFrame h))))

theorem Chip.memOk_sequencePacket {c : Chip} {n path us : Nat} {m : MediaPkt} (h : MemOk c) : MemOk (c.sequencePacket n path us m) := by
  unfold Chip.sequencePacket
  extract_lets _ _ _ _ _ _ _ _ c1 c2 _ c3
  have h4 : MemOk c1 := Chip.memOk_setFlow h
  have h5 : MemOk c2 := Chip.memOk_notePair h4
  have h6 : MemOk c3 := Chip.memOk_setFlow h5
  exact MemOk.ite (Chip.memOk_bump (Chip.memOk_setFlow h)) (MemOk.ite (Chip.memOk_bump h5) (Chip.memOk_placePacket h6))

theorem Chip.memOk_flowPacket {c : Chip} {n path us : Nat} {payload : List Byte} (h : MemOk c) : MemOk (c.flowPacket n path us payload) := by
  unfold Chip.flowPacket
  split
  · extract_lets c1 c2
    have h3 : MemOk c1 := Chip.memOk_bump h
    have h4 : MemOk c2 := Chip.memOk_report h3
    exact Chip.memOk_flowEvent h4
  · extract_lets _ c5 c6
    have h7 : MemOk c5 := Chip.memOk_pathHeard h
    have h8 : MemOk c6 := MemOk.ite (Chip.memOk_dropFrame (Chip.memOk_setFlowState h7)) h7
    exact Chip.memOk_sequencePacket h8

theorem Chip.memOk_flowStart {c : Chip} {n : Nat} (h : MemOk c) : MemOk (c.flowStart n) := by
  unfold Chip.flowStart
  extract_lets c1 c2
  have h3 : MemOk c1 := Chip.memOk_setFlow h
  have h4 : MemOk c2 := Chip.memOk_set (Chip.memOk_set h3)
  exact Chip.memOk_setFlowState (Chip.memOk_set h4)

theorem Chip.memOk_pathLossClear {c : Chip} {n : Nat} (h : MemOk c) : MemOk (c.pathLossClear n) := Chip.memOk_pathHeard (Chip.memOk_pathHeard h)

theorem Chip.memOk_flowOff {c : Chip} {n : Nat} (h : MemOk c) : MemOk (c.flowOff n) :=
  Chip.memOk_setFlowState (Chip.memOk_pathLossClear (Chip.memOk_dropFrame h))

theorem Chip.memOk_flowStop {c : Chip} {n : Nat} (h : MemOk c) : MemOk (c.flowStop n) := by
  unfold Chip.flowStop
  refine MemOk.ite h ?_
  extract_lets c1 _ c2
  have h3 : MemOk c1 := Chip.memOk_dropFrame h
  have h4 : MemOk c2 := Chip.memOk_setFlow h3
  exact Chip.memOk_flowEvent (Chip.memOk_setFlowState h4)

theorem Chip.memOk_pathLoss {c : Chip} {n path : Nat} (h : MemOk c) : MemOk (c.pathLoss n path) := by
  unfold Chip.pathLoss
  extract_lets _ _ c1 c2
  have h3 : MemOk c1 := Chip.memOk_set h
  have h4 : MemOk c2 := Chip.memOk_wr h3
  exact MemOk.ite h (Chip.memOk_cond h4)

theorem Chip.memOk_holdExpire {c : Chip} {n : Nat} (h : MemOk c) : MemOk (c.holdExpire n) := by
  unfold Chip.holdExpire
  extract_lets _ _
  exact MemOk.ite (Chip.memOk_setFlow h) h

theorem Chip.memOk_ethLink {c : Chip} {path : Nat} {aligned lf rf : Bool} {subUp fec : Nat} (h : MemOk c) :
    MemOk (c.ethLink path aligned lf rf subUp fec) := by
  unfold Chip.ethLink
  extract_lets _ _ c1 c2 c3
  have h4 : MemOk c1 := Chip.memOk_set h
  have h5 : MemOk c2 := Chip.memOk_set (Chip.memOk_set h4)
  have h6 : MemOk c3 := Chip.memOk_set (Chip.memOk_set h5)
  exact Chip.memOk_cond h6

theorem Chip.memOk_fecUncorr {c : Chip} {path frames : Nat} (h : MemOk c) : MemOk (c.fecUncorr path frames) :=
  Chip.memOk_raise (Chip.memOk_bump (Chip.memOk_bump h))

theorem Chip.memOk_ctlTxStart {c : Chip} {path : Nat} (h : MemOk c) : MemOk (c.ctlTxStart path) := by
  unfold Chip.ctlTxStart
  refine MemOk.ite h ?_
  extract_lets _ _ r1 _ x2 c3
  have h4 : MemOk r1.2 := Chip.memOk_dramFetch h
  have h5 : MemOk x2 := h4
  have h6 : MemOk c3 := MemOk.ite (MemOk.same h4 rfl rfl) (MemOk.same h4 rfl rfl)
  exact Chip.memOk_set h6

theorem Chip.memOk_ctlTxDone {c : Chip} {path : Nat} (h : MemOk c) : MemOk (c.ctlTxDone path) := by
  unfold Chip.ctlTxDone
  split
  · exact h
  · extract_lets c1
    have h2 : MemOk c1 := MemOk.ite (MemOk.same h rfl rfl) (MemOk.same h rfl rfl)
    exact Chip.memOk_bump (Chip.memOk_set (Chip.memOk_emit h2))

theorem Chip.memOk_setDpLock {c : Chip} {b : Bool} (h : MemOk c) : MemOk (c.setDpLock b) := by
  unfold Chip.setDpLock
  extract_lets _ c1
  have h2 : MemOk c1 := Chip.memOk_cond (Chip.memOk_set h)
  exact MemOk.ite (Chip.memOk_raise h2) h2

theorem Chip.memOk_dpClear {c : Chip} (h : MemOk c) : MemOk c.dpClear := MemOk.same h rfl rfl

theorem Chip.memOk_dpLock {c : Chip} {f : DpFormat} (h : MemOk c) : MemOk (c.dpLock f) := by
  unfold Chip.dpLock
  refine MemOk.ite ?_ h
  extract_lets c1
  have h2 : MemOk c1 := Chip.memOk_set (Chip.memOk_set h)
  exact Chip.memOk_dpClear (Chip.memOk_setDpLock (Chip.memOk_set h2))

theorem Chip.memOk_dpFormat {c : Chip} {f : DpFormat} (h : MemOk c) : MemOk (c.dpFormat f) :=
  MemOk.ite (Chip.memOk_dpClear (Chip.memOk_raise (Chip.memOk_setDpLock h))) h

theorem Chip.memOk_dpLost {c : Chip} (h : MemOk c) : MemOk c.dpLost := Chip.memOk_dpClear (Chip.memOk_setDpLock h)

theorem Chip.memOk_dpFrame {c : Chip} {f : DpFrame} (h : MemOk c) : MemOk (c.dpFrame f) := by
  unfold Chip.dpFrame
  refine MemOk.ite ?_ h
  extract_lets _ _ c1 _ x2
  have h3 : MemOk c1 := by
    refine MemOk.foldl (fun _ _ h4 => ?_) h
    extract_lets _ r5
    have h6 : MemOk r5.2 := Chip.memOk_storeBytes h4
    exact Chip.memOk_dramWrite h6
  have h7 : MemOk x2 := Chip.memOk_bump (Chip.memOk_set h3)
  exact MemOk.ite (MemOk.same h3 rfl rfl) (MemOk.same h7 rfl rfl)

/-! ### Machine/TileOps -/

theorem Chip.memOk_setTile {c : Chip} {t : TileSt} (h : MemOk c) : MemOk (c.setTile t) := MemOk.same h rfl rfl

theorem Chip.memOk_setSched {c : Chip} {s : SchedSt} (h : MemOk c) : MemOk (c.setSched s) := MemOk.same h rfl rfl

theorem Chip.memOk_tileWord {c : Chip} {w : Nat} {r : TileRec} (h : MemOk c) : MemOk (c.tileWord w r).2 := by
  unfold Chip.tileWord
  extract_lets b c1 k syn fresh found x rec?
  have hx : MemOk x.2 := Chip.memOk_sramReadWord (Chip.memOk_retireWord h)
  refine MemOk.ite_snd (MemOk.pair (Chip.memOk_bankDeny h)) ?_
  clear_value rec?
  split
  · exact hx
  · refine MemOk.pair ?_
    split
    · exact Chip.memOk_raise (Chip.memOk_report hx)
    · exact Chip.memOk_report hx

theorem Chip.memOk_tileRead {c : Chip} {bank ofs n : Nat} {r : TileRec} (h : MemOk c) : MemOk (c.tileRead bank ofs n r).2 :=
  MemOk.pair (MemOk.foldl_snd (fun _ _ h => MemOk.pair (Chip.memOk_tileWord h)) (MemOk.pair h))

theorem Chip.memOk_tileWrite {c : Chip} {bank ofs : Nat} {bytes : List Byte} (h : MemOk c) : MemOk (c.tileWrite bank ofs bytes) :=
  MemOk.foldl (fun _ _ h1 => Chip.memOk_bankWriteWord h1) h

theorem Chip.memOk_levelOut {c : Chip} {v : Nat} (h : MemOk c) : MemOk (c.levelOut v).2 := MemOk.ite_snd (Chip.memOk_openValue h) (MemOk.pair h)

theorem Chip.memOk_putLamp {c : Chip} {buf lamp : Nat} {lev : List Nat} (h : MemOk c) : MemOk (c.putLamp buf lamp lev) := by
  unfold Chip.putLamp
  extract_lets r1
  have h2 : MemOk r1.2 := by
    refine MemOk.foldl_snd (fun _ _ h3 => ?_) (MemOk.pair h)
    extract_lets x4
    have h5 : MemOk x4.2 := Chip.memOk_levelOut h3
    exact MemOk.pair h5
  exact Chip.memOk_tileWrite h2

theorem Chip.memOk_getLamp {c : Chip} {buf lamp : Nat} (h : MemOk c) : MemOk (c.getLamp buf lamp).2 := by
  unfold Chip.getLamp
  extract_lets r1
  have h2 : MemOk r1.2 := Chip.memOk_tileRead h
  exact MemOk.pair h2

theorem Chip.memOk_tempFactors {c : Chip} (h : MemOk c) : MemOk c.tempFactors := by
  unfold Chip.tempFactors
  refine MemOk.foldl (fun _ _ h1 => ?_) h
  extract_lets _ c2
  have h3 : MemOk c2 := Chip.memOk_set (Chip.memOk_set h1)
  exact MemOk.foldl (fun _ _ h4 => Chip.memOk_setTile h4) h3

theorem Chip.memOk_lampCm {c : Chip} {cfg : TileCfg} {lamp : Nat} (h : MemOk c) : MemOk (c.lampCm cfg lamp).2 := by
  unfold Chip.lampCm
  extract_lets _ r1
  have h2 : MemOk r1.2 := Chip.memOk_tileRead h
  exact MemOk.ite_snd (MemOk.pair h) (MemOk.ite_snd (MemOk.pair h2) (MemOk.pair h2))

theorem Chip.memOk_lampGains {c : Chip} {cfg : TileCfg} {lamp : Nat} (h : MemOk c) : MemOk (c.lampGains cfg lamp).2 :=
  MemOk.ite_snd (MemOk.pair h) (MemOk.pair (MemOk.pair (Chip.memOk_tileRead (MemOk.pair (Chip.memOk_tileRead (MemOk.pair (Chip.memOk_tileRead h)))))))

theorem Chip.memOk_lampValue {c : Chip} {cfg : TileCfg} {eng lamp slot : Nat} (h : MemOk c) : MemOk (c.lampValue cfg eng lamp slot).2 := by
  unfold Chip.lampValue
  extract_lets _ _ m1 g2
  have h3 : MemOk m1.2 := Chip.memOk_lampCm h
  have h4 : MemOk g2.2 := Chip.memOk_lampGains h3
  exact MemOk.ite_snd (MemOk.pair h) (MemOk.ite_snd (MemOk.pair h) (MemOk.ite_snd (MemOk.pair h) (MemOk.pair h4)))

theorem Chip.memOk_eotfUpset {c : Chip} {eng : Nat} {words : List (Nat × Nat)} (h : MemOk c) : MemOk (c.eotfUpset eng words) := by
  unfold Chip.eotfUpset
  refine MemOk.foldl (fun _ _ h1 => ?_) h
  extract_lets _ _ _ _
  refine MemOk.ite h1 ?_
  split
  · exact h1
  · exact Chip.memOk_report h1
  · exact Chip.memOk_raise (Chip.memOk_report (Chip.memOk_setTile h1))

theorem Chip.memOk_setImage {c : Chip} {x : ImgSt} (h : MemOk c) : MemOk (c.setImage x) := Chip.memOk_setTile h

theorem Chip.memOk_tileShow {c : Chip} (h : MemOk c) : MemOk c.tileShow := by
  unfold Chip.tileShow
  extract_lets _ c1 _ c2 c3 c4
  have h5 : MemOk c1 := Chip.memOk_setTile h
  have h6 : MemOk c2 := Chip.memOk_set h5
  have h7 : MemOk c3 := Chip.memOk_set h6
  have h8 : MemOk c4 := Chip.memOk_set h7
  exact Chip.memOk_set h8

theorem Chip.memOk_closeBuild {c : Chip} {serial : Nat} {displaced : Bool} (h : MemOk c) : MemOk (c.closeBuild serial displaced) := by
  unfold Chip.closeBuild
  split
  · exact h
  · refine MemOk.ite h ?_
    extract_lets c1
    have h2 : MemOk c1 := Chip.memOk_setImage h
    exact MemOk.ite (Chip.memOk_raise (Chip.memOk_bumpSat h2)) h2

theorem Chip.memOk_judgeImage {c : Chip} {x : ImgSt} (h : MemOk c) : MemOk (c.judgeImage x) := by
  unfold Chip.judgeImage
  split
  · exact h
  · refine MemOk.ite h ?_
    extract_lets _ c1 c2
    have h3 : MemOk c1 := Chip.memOk_setImage h
    have h4 : MemOk c2 := MemOk.ite (Chip.memOk_set h3) h3
    exact MemOk.ite (Chip.memOk_raise (Chip.memOk_bumpSat h4)) h4

theorem Chip.memOk_fillImage {c : Chip} {x : ImgSt} (h : MemOk c) : MemOk (c.fillImage x) := by
  unfold Chip.fillImage
  refine MemOk.foldl (fun _ _ h1 => (MemOk.ite h1 ?_)) h
  split
  · exact Chip.memOk_putLamp h1
  · extract_lets r2
    have h3 : MemOk r2.2 := Chip.memOk_getLamp h1
    exact Chip.memOk_putLamp h3

theorem Chip.memOk_finishImage {c : Chip} {serial at33 : Nat} (h : MemOk c) : MemOk (c.finishImage serial at33) := by
  unfold Chip.finishImage
  split
  · exact h
  · refine MemOk.ite h ?_
    extract_lets c1 _ c2 _ c3
    have h4 : MemOk c1 := Chip.memOk_fillImage h
    have h5 : MemOk c2 := Chip.memOk_setImage h4
    have h6 : MemOk c3 := Chip.memOk_setTile h5
    exact Chip.memOk_tileShow (Chip.memOk_judgeImage (Chip.memOk_bump (Chip.memOk_bump h6)))

theorem Chip.memOk_imageComplete {c : Chip} {ps : Nat} (h : MemOk c) : MemOk (c.imageComplete ps) := by
  unfold Chip.imageComplete
  extract_lets _ _
  split
  · exact h
  · exact Chip.memOk_finishImage (Chip.memOk_setSched h)

theorem Chip.memOk_openBuild {c : Chip} {feed bar beat : Nat} (h : MemOk c) : MemOk (c.openBuild feed bar beat) := by
  unfold Chip.openBuild
  extract_lets _ _ _ c1 c2 c3 _ _ _ c4
  have h5 : MemOk c1 := Chip.memOk_setTile h
  have h6 : MemOk c2 := MemOk.foldl (fun _ _ h7 => Chip.memOk_finishImage h7) h5
  have h8 : MemOk c3 := Chip.memOk_tileShow (MemOk.foldl (fun _ _ h9 => Chip.memOk_closeBuild h9) h6)
  have h10 : MemOk c4 := Chip.memOk_setTile h8
  exact MemOk.ite h (Chip.memOk_tileShow (Chip.memOk_set (Chip.memOk_set h10)))

theorem Chip.memOk_closeAll {c : Chip} (h : MemOk c) : MemOk c.closeAll :=
  Chip.memOk_tileShow (MemOk.foldl (fun _ _ h1 => Chip.memOk_closeBuild h1) h)

theorem Chip.memOk_pixelArrive {c : Chip} {p cell bad : Nat} (h : MemOk c) : MemOk (c.pixelArrive p cell bad) := by
  unfold Chip.pixelArrive
  refine MemOk.ite h ?_
  split
  · exact Chip.memOk_cause h
  · extract_lets _ c1 _
    have h2 : MemOk c1 := MemOk.ite (Chip.memOk_setImage h) h
    exact MemOk.ite h (MemOk.ite (Chip.memOk_bumpSat h) (Chip.memOk_setTile h2))

theorem Chip.memOk_writeSlot {c : Chip} {serial eng : Nat} {q : RxCell} {k : Nat} (h : MemOk c) : MemOk (c.writeSlot serial eng q k) := by
  unfold Chip.writeSlot
  extract_lets _
  split
  · exact h
  · refine MemOk.ite h ?_
    extract_lets r1
    have h2 : MemOk r1.2 := Chip.memOk_lampValue h
    split
    · exact h2
    · extract_lets c3
      have h4 : MemOk c3 := Chip.memOk_putLamp h2
      split
      · exact h4
      · exact Chip.memOk_setImage h4

theorem Chip.memOk_pixelProcess {c : Chip} {eng : Nat} {upsets : List (Nat × Nat)} (h : MemOk c) : MemOk (c.pixelProcess eng upsets) := by
  unfold Chip.pixelProcess
  refine MemOk.ite h ?_
  extract_lets c1 _
  have h2 : MemOk c1 := Chip.memOk_eotfUpset h
  split
  · exact h2
  · extract_lets c3 c4 c5
    have h6 : MemOk c3 := Chip.memOk_setTile h2
    have h7 : MemOk c4 := Chip.memOk_bump (Chip.memOk_bump h6)
    have h8 : MemOk c5 := MemOk.ite h7 (MemOk.foldl (fun _ _ h9 => Chip.memOk_writeSlot h9) h7)
    exact MemOk.ite (Chip.memOk_tileShow (Chip.memOk_closeBuild h8)) h8

theorem Chip.memOk_setTileState {c : Chip} {s : Nat} (h : MemOk c) : MemOk (c.setTileState s) := Chip.memOk_cond (Chip.memOk_set h)

theorem Chip.memOk_setOffset {c : Chip} {o : Int} (h : MemOk c) : MemOk (c.setOffset o) := by
  unfold Chip.setOffset
  extract_lets _ c1 c2
  have h3 : MemOk c1 := Chip.memOk_setSched h
  have h4 : MemOk c2 := Chip.memOk_cond (Chip.memOk_set h3)
  exact MemOk.ite (Chip.memOk_setTileState h4) (MemOk.ite (Chip.memOk_setTileState h4) h4)

theorem Chip.memOk_reenter {c : Chip} {d : DbStart} (h : MemOk c) : MemOk (c.reenter d) := Chip.memOk_setSched h

theorem Chip.memOk_regain {c : Chip} {d : DbStart} (h : MemOk c) : MemOk (c.regain d) := by
  unfold Chip.regain
  extract_lets _ _ _ _ _ _ c1 c2
  have h3 : MemOk c1 := Chip.memOk_setSched h
  have h4 : MemOk c2 := MemOk.ite (Chip.memOk_setTileState h3) h3
  exact MemOk.ite (Chip.memOk_reenter h) (MemOk.ite (Chip.memOk_setOffset h4) (Chip.memOk_reenter h))

theorem Chip.memOk_showSlack {c : Chip} (h : MemOk c) : MemOk c.showSlack := MemOk.ite h (Chip.memOk_set h)

theorem Chip.memOk_hearStart {c : Chip} {d : DbStart} (h : MemOk c) : MemOk (c.hearStart d) := by
  unfold Chip.hearStart
  extract_lets _ c1 _ _
  have h2 : MemOk c1 := Chip.memOk_setTile h
  exact MemOk.ite (MemOk.ite h2 (Chip.memOk_regain h2)) (MemOk.ite (MemOk.ite (Chip.memOk_setOffset (Chip.memOk_setSched h2)) h2) (MemOk.ite
    (Chip.memOk_showSlack (Chip.memOk_setSched h2)) (MemOk.ite h2 (Chip.memOk_regain h2))))

theorem Chip.memOk_dbBad {c : Chip} (h : MemOk c) : MemOk c.dbBad := Chip.memOk_setBarLock (Chip.memOk_setSched h)

theorem Chip.memOk_tileDownbeat {onRing : Chip → Chip} {c : Chip} {p cell arrival33 : Nat} {words : Bool} (honRing : ∀ x0, MemOk x0 → MemOk
    (onRing x0)) (h : MemOk c) : MemOk (Chip.tileDownbeat onRing c p cell arrival33 words) := by
  unfold Chip.tileDownbeat
  extract_lets _ _ _ _ _ _ c1 _ c2 c3 _ _ c4 c5 c6 _ _ _ _ _ c7 _ c8 c9 _
  have h10 : MemOk c1 := Chip.memOk_setTile h
  have h11 : MemOk c2 := Chip.memOk_set (Chip.memOk_setPort h10)
  have h12 : MemOk c3 := honRing _ h11
  have h13 : MemOk c4 := MemOk.ite (Chip.memOk_raise (Chip.memOk_dbBad h12)) h12
  have h14 : MemOk c5 := MemOk.ite h13 (Chip.memOk_raise h13)
  have h15 : MemOk c6 := Chip.memOk_set (Chip.memOk_set h14)
  have h16 : MemOk c7 := MemOk.ite (Chip.memOk_setBarLock (Chip.memOk_setSched h15)) h15
  have h17 : MemOk c8 := Chip.memOk_setTile h16
  have h18 : MemOk c9 := MemOk.ite h17 (Chip.memOk_hearStart h17)
  exact MemOk.ite (MemOk.ite (Chip.memOk_raise (Chip.memOk_dbBad h)) h) (MemOk.ite h12 (MemOk.ite h18 (Chip.memOk_openBuild h18)))

theorem Chip.memOk_dbMissing {c : Chip} (h : MemOk c) : MemOk c.dbMissing := by
  unfold Chip.dbMissing
  extract_lets _ c1 c2 c3 _
  have h4 : MemOk c1 := Chip.memOk_setSched h
  have h5 : MemOk c2 := MemOk.foldl (fun _ _ h6 => Chip.memOk_setPort h6) h4
  have h7 : MemOk c3 := Chip.memOk_raise (Chip.memOk_dbBad h5)
  exact MemOk.ite h (MemOk.ite (Chip.memOk_setOffset (Chip.memOk_setSched (Chip.memOk_setTileState h7))) h7)

theorem Chip.memOk_flyExpire {c : Chip} (h : MemOk c) : MemOk c.flyExpire := by
  unfold Chip.flyExpire
  extract_lets _ _
  exact MemOk.ite (Chip.memOk_setSched h) h

theorem Chip.memOk_layOut {c : Chip} (h : MemOk c) : MemOk c.layOut := by
  unfold Chip.layOut
  extract_lets _ _ _ _ _ _ _ c1 c2
  have h3 : MemOk c1 := Chip.memOk_setSched h
  have h4 : MemOk c2 := Chip.memOk_set (Chip.memOk_set (Chip.memOk_set h3))
  exact MemOk.ite (Chip.memOk_raise h4) h4

theorem Chip.memOk_startPass {c : Chip} {at33 : Nat} (h : MemOk c) : MemOk (c.startPass at33) := by
  unfold Chip.startPass
  extract_lets _ c1 _ _ c2 c3
  have h4 : MemOk c1 := Chip.memOk_setSched h
  have h5 : MemOk c2 := Chip.memOk_setSched h4
  have h6 : MemOk c3 := Chip.memOk_bump (Chip.memOk_showSlack (Chip.memOk_set h5))
  exact Chip.memOk_tileShow h6

theorem Chip.memOk_waitEnd {c : Chip} (h : MemOk c) : MemOk c.waitEnd := by
  unfold Chip.waitEnd
  extract_lets _ _ _
  exact MemOk.ite h (Chip.memOk_tileShow (Chip.memOk_set (Chip.memOk_setSched h)))

theorem Chip.memOk_beatEnter {c : Chip} (h : MemOk c) : MemOk c.beatEnter := by
  unfold Chip.beatEnter
  extract_lets _ _ _ _ c1 c2 _ c3 c4 c5
  have h6 : MemOk c1 := Chip.memOk_setSched h
  have h7 : MemOk c2 := by
    unfold c2
    split
    · exact Chip.memOk_set (Chip.memOk_set h6)
    · exact h6
  have h8 : MemOk c3 := Chip.memOk_setTile h7
  have h9 : MemOk c4 := Chip.memOk_set h8
  have h10 : MemOk c5 := MemOk.ite h9 (Chip.memOk_setTileState h9)
  exact MemOk.ite (Chip.memOk_raise (Chip.memOk_setOffset h10)) (Chip.memOk_setOffset h9)

theorem Chip.memOk_beatShow {c : Chip} (h : MemOk c) : MemOk c.beatShow := by
  unfold Chip.beatShow
  extract_lets _ _ _ _ _ c1 _ c2 c3 _ c4 c5 c6
  have h7 : MemOk c1 := Chip.memOk_setTile h
  have h8 : MemOk c2 := Chip.memOk_setSched h7
  have h9 : MemOk c3 := Chip.memOk_layOut h8
  have h10 : MemOk c4 := by
    refine MemOk.foldl (fun _ _ h11 => ?_) h9
    extract_lets _
    exact Chip.memOk_judgeImage (Chip.memOk_setImage h11)
  have h12 : MemOk c5 := Chip.memOk_set (Chip.memOk_set h10)
  have h13 : MemOk c6 := Chip.memOk_set h12
  exact Chip.memOk_tileShow (Chip.memOk_set h13)

theorem Chip.memOk_tilerxOn {c : Chip} (h : MemOk c) : MemOk c.tilerxOn := Chip.memOk_setTileState h

theorem Chip.memOk_tilerxOff {c : Chip} (h : MemOk c) : MemOk c.tilerxOff := by
  unfold Chip.tilerxOff
  extract_lets _ c1 _ c2
  have h3 : MemOk c1 := Chip.memOk_setTile h
  have h4 : MemOk c2 := Chip.memOk_setSched h3
  exact Chip.memOk_tileShow (Chip.memOk_set (Chip.memOk_setTileState h4))

theorem Chip.memOk_tilerxReset {c : Chip} (h : MemOk c) : MemOk c.tilerxReset := by
  unfold Chip.tilerxReset
  extract_lets c1
  have h2 : MemOk c1 := Chip.memOk_closeAll h
  exact MemOk.ite (Chip.memOk_setTileState h2) h2

theorem Chip.memOk_holdPrepare {c : Chip} (h : MemOk c) : MemOk c.holdPrepare := by
  unfold Chip.holdPrepare
  refine MemOk.ite h ?_
  extract_lets n r
  have hr : MemOk r.2 := Chip.memOk_holdBytes h
  split
  · exact Chip.memOk_tileShow (Chip.memOk_setTile h)
  · exact Chip.memOk_raise (Chip.memOk_setTile hr)
  · refine Chip.memOk_tileShow (Chip.memOk_setTile (MemOk.foldl (fun d l hd => ?_) hr))
    extract_lets v
    have hv : MemOk v.2 := Chip.memOk_lampValue hd
    split
    · exact Chip.memOk_putLamp hv
    · exact Chip.memOk_putLamp (Chip.memOk_openValue (Chip.memOk_openValue (Chip.memOk_openValue hv)))

theorem Chip.memOk_holdReady {c : Chip} (h : MemOk c) : MemOk c.holdReady := Chip.memOk_setTile h

theorem Chip.memOk_doseUpdate {c : Chip} (h : MemOk c) : MemOk c.doseUpdate := by
  unfold Chip.doseUpdate
  split
  · exact h
  · extract_lets _ c1
    have h2 : MemOk c1 := MemOk.same h rfl rfl
    refine MemOk.ite h2 (MemOk.foldl (fun _ _ h3 => ?_) h2)
    extract_lets r4
    have h5 : MemOk r4.2 := Chip.memOk_tileRead h3
    exact MemOk.ite h5 (Chip.memOk_tileWrite h5)

theorem Chip.memOk_doseFlushOne {c : Chip} {e : Nat} (h : MemOk c) : MemOk (c.doseFlushOne e) := by
  unfold Chip.doseFlushOne
  extract_lets w c1 syn fresh found r x ofs noted _ c2 t mark _ c3 c4
  have hr : MemOk r.2 := Chip.memOk_sramReadWord (Chip.memOk_retireWord h)
  have hnoted : ∀ d b, MemOk d → MemOk (noted d b) := fun _ _ => Chip.memOk_report
  refine MemOk.ite (Chip.memOk_raise (Chip.memOk_raise (MemOk.ite (hnoted _ _ (Chip.memOk_atomicAt hr)) (Chip.memOk_atomicAt hr)))) ?_
  have h2 : MemOk c2 := by
    unfold c2 found
    split
    · exact hnoted _ _ hr
    · exact hr
  have h3 : MemOk c3 := MemOk.same h2 rfl rfl
  have h4 : MemOk c4 := MemOk.ite h3 (Chip.memOk_atomicAt h3)
  exact MemOk.ite (Chip.memOk_raise (Chip.memOk_set h4)) h4

theorem Chip.memOk_doseFlush {c : Chip} (h : MemOk c) : MemOk c.doseFlush :=
  MemOk.ite h (Chip.memOk_set (MemOk.foldl (fun _ _ h1 => Chip.memOk_doseFlushOne h1) h))

theorem Chip.memOk_gainsOf {c : Chip} (h : MemOk c) : MemOk c.gainsOf.2 := by
  unfold Chip.gainsOf
  refine MemOk.foldl_snd (fun _ _ h1 => ?_) (MemOk.pair h)
  extract_lets _ o2
  have h3 : MemOk o2.2 := Chip.memOk_openValue h1
  exact MemOk.ite_snd (MemOk.pair h1) (MemOk.pair h3)

theorem Chip.memOk_gainsWrite {c : Chip} {gains : SMap Nat} (h : MemOk c) : MemOk (c.gainsWrite gains) := by
  unfold Chip.gainsWrite
  extract_lets _
  exact MemOk.foldl (fun _ _ h1 => (MemOk.foldl (fun _ _ h2 => Chip.memOk_bankWriteWord h2) h1)) h

theorem Chip.memOk_noteDay {c : Chip} {gains : SMap Nat} (h : MemOk c) : MemOk (c.noteDay gains) := by
  unfold Chip.noteDay
  refine MemOk.ite h ?_
  extract_lets _ _
  exact MemOk.same h rfl rfl

/-! ### Machine/RedunOps -/

theorem Chip.memOk_setRedun {c : Chip} {r : RedunSt} (h : MemOk c) : MemOk (c.setRedun r) := MemOk.same h rfl rfl

theorem Chip.memOk_setMirror {c : Chip} {m : MirrorSt} (h : MemOk c) : MemOk (c.setMirror m) := MemOk.same h rfl rfl

theorem Chip.memOk_requestFull {c : Chip} (h : MemOk c) : MemOk c.requestFull := MemOk.ite (Chip.memOk_emit h) h

theorem Chip.memOk_contend {c : Chip} (h : MemOk c) : MemOk c.contend := MemOk.ite (Chip.memOk_raise h) h

theorem Chip.memOk_pairShow {c : Chip} (h : MemOk c) : MemOk c.pairShow := MemOk.ite h (Chip.memOk_cond (Chip.memOk_set h))

theorem Chip.memOk_setUnitState {c : Chip} {s : Nat} (h : MemOk c) : MemOk (c.setUnitState s) := by
  unfold Chip.setUnitState
  extract_lets c1
  have h2 : MemOk c1 := Chip.memOk_pairShow (Chip.memOk_set h)
  exact MemOk.ite h2 (MemOk.ite (Chip.memOk_requestFull h2) (MemOk.ite (Chip.memOk_contend h2) h2))

theorem Chip.memOk_toStandby {c : Chip} (h : MemOk c) : MemOk c.toStandby := MemOk.ite (Chip.memOk_setUnitState h) (Chip.memOk_setUnitState h)

theorem Chip.memOk_interlock {c : Chip} (h : MemOk c) : MemOk c.interlock := by
  unfold Chip.interlock
  refine MemOk.ite ?_ h
  extract_lets c1 _ c2
  have h3 : MemOk c1 := Chip.memOk_raise (Chip.memOk_set (MemOk.same h rfl rfl))
  have h4 : MemOk c2 := Chip.memOk_set (Chip.memOk_setMirror h3)
  exact MemOk.ite (Chip.memOk_toStandby h4) h4

theorem Chip.memOk_setOwn {c : Chip} {b : Bool} (h : MemOk c) : MemOk (c.setOwn b) := by
  unfold Chip.setOwn
  refine MemOk.ite h ?_
  extract_lets _ c1 c2
  have h3 : MemOk c1 := Chip.memOk_set (Chip.memOk_setRedun h)
  have h4 : MemOk c2 := Chip.memOk_interlock (Chip.memOk_emit h3)
  exact MemOk.ite (Chip.memOk_contend h4) h4

theorem Chip.memOk_peerLine {c : Chip} {level : Bool} (h : MemOk c) : MemOk (c.peerLine level) := by
  unfold Chip.peerLine
  refine MemOk.ite h ?_
  extract_lets _ c1
  have h2 : MemOk c1 := Chip.memOk_interlock (Chip.memOk_set (Chip.memOk_setRedun h))
  exact MemOk.ite (Chip.memOk_contend h2) h2

theorem Chip.memOk_claim {c : Chip} (h : MemOk c) : MemOk c.claim := by
  unfold Chip.claim
  refine MemOk.ite h ?_
  extract_lets _ c1 _
  have h2 : MemOk c1 := Chip.memOk_setUnitState h
  exact Chip.memOk_setOwn (Chip.memOk_setRedun h2)

theorem Chip.memOk_setDrop {c : Chip} (h : MemOk c) : MemOk c.setDrop := Chip.memOk_set (Chip.memOk_setMirror h)

theorem Chip.memOk_mirrorReset {c : Chip} (h : MemOk c) : MemOk c.mirrorReset := Chip.memOk_setMirror (Chip.memOk_setDrop h)

theorem Chip.memOk_setLost {c : Chip} (h : MemOk c) : MemOk c.setLost := Chip.memOk_raise (Chip.memOk_bumpSat (Chip.memOk_setDrop h))

theorem Chip.memOk_claimComplete {c : Chip} (h : MemOk c) : MemOk c.claimComplete := by
  unfold Chip.claimComplete
  refine MemOk.ite h ?_
  extract_lets _ c1 c2 _
  have h3 : MemOk c1 := Chip.memOk_setRedun h
  have h4 : MemOk c2 := MemOk.ite (Chip.memOk_setLost h3) h3
  exact MemOk.ite (Chip.memOk_raise (Chip.memOk_setRedun h4)) h4

theorem Chip.memOk_activeRise {c : Chip} (h : MemOk c) : MemOk c.activeRise := by
  unfold Chip.activeRise
  refine MemOk.ite h ?_
  extract_lets c1 c2
  have h3 : MemOk c1 := Chip.memOk_set (Chip.memOk_set (MemOk.same h rfl rfl))
  have h4 : MemOk c2 := MemOk.ite (Chip.memOk_setUnitState h3) h3
  exact Chip.memOk_raise h4

theorem Chip.memOk_contendRelease {c : Chip} (h : MemOk c) : MemOk c.contendRelease := MemOk.ite (Chip.memOk_toStandby (Chip.memOk_setOwn h)) h

theorem Chip.memOk_soloAssert {c : Chip} (h : MemOk c) : MemOk c.soloAssert := MemOk.ite (Chip.memOk_setOwn h) h

theorem Chip.memOk_forceRelease {c : Chip} (h : MemOk c) : MemOk c.forceRelease := MemOk.ite h (Chip.memOk_setUnitState (Chip.memOk_setOwn h))

theorem Chip.memOk_clearRelease {c : Chip} (h : MemOk c) : MemOk c.clearRelease := MemOk.ite (Chip.memOk_toStandby h) h

theorem Chip.memOk_showPaths {c : Chip} (h : MemOk c) : MemOk c.showPaths := by
  unfold Chip.showPaths
  extract_lets c1 c2
  have h3 : MemOk c1 := Chip.memOk_set (Chip.memOk_set h)
  have h4 : MemOk c2 := Chip.memOk_set (Chip.memOk_set h3)
  exact Chip.memOk_cond (Chip.memOk_cond h4)

theorem Chip.memOk_redunOn {c : Chip} (h : MemOk c) : MemOk c.redunOn := by
  unfold Chip.redunOn
  refine MemOk.ite h ?_
  extract_lets _ c1 _ c2
  have h3 : MemOk c1 := Chip.memOk_setRedun h
  have h4 : MemOk c2 := Chip.memOk_set (Chip.memOk_setMirror h3)
  exact Chip.memOk_cond (Chip.memOk_set (Chip.memOk_showPaths (Chip.memOk_setUnitState h4)))

theorem Chip.memOk_redunOff {c : Chip} (h : MemOk c) : MemOk c.redunOff := MemOk.ite h (Chip.memOk_setUnitState h)

theorem Chip.memOk_redunReset {c : Chip} (h : MemOk c) : MemOk c.redunReset := by
  unfold Chip.redunReset
  refine MemOk.ite h ?_
  extract_lets c1
  have h2 : MemOk c1 := Chip.memOk_setOwn h
  exact MemOk.ite (Chip.memOk_redunOn h2) (Chip.memOk_redunOff h2)

theorem Chip.memOk_heartbeat {c : Chip} {ring : Bool} {seq state slot : Nat} (h : MemOk c) : MemOk (c.heartbeat ring seq state slot) := by
  unfold Chip.heartbeat
  refine MemOk.ite h ?_
  extract_lets _ _ _ c1 c2
  have h3 : MemOk c1 := Chip.memOk_setRedun h
  have h4 : MemOk c2 := Chip.memOk_showPaths (Chip.memOk_set h3)
  exact MemOk.ite h (MemOk.ite (Chip.memOk_setUnitState h4) h4)

theorem Chip.memOk_tollMiss {c : Chip} {ring : Bool} (h : MemOk c) : MemOk (c.tollMiss ring) := by
  unfold Chip.tollMiss
  refine MemOk.ite h ?_
  extract_lets _ _ _ c1
  have h2 : MemOk c1 := Chip.memOk_setRedun h
  exact Chip.memOk_showPaths (Chip.memOk_bumpSat h2)

theorem Chip.memOk_tollTests {c : Chip} (h : MemOk c) : MemOk c.tollTests := by
  unfold Chip.tollTests
  extract_lets _ _ _ _ c1 _ c2
  have h3 : MemOk c1 := Chip.memOk_setRedun h
  have h4 : MemOk c2 := Chip.memOk_cond (Chip.memOk_set h3)
  exact MemOk.ite (Chip.memOk_raise h4) h4

theorem Chip.memOk_tollSend {c : Chip} (h : MemOk c) : MemOk c.tollSend := by
  unfold Chip.tollSend
  refine MemOk.ite h ?_
  extract_lets _ _ _ c1 c2 _ c3
  have h4 : MemOk c1 := Chip.memOk_setRedun h
  have h5 : MemOk c2 := Chip.memOk_emit h4
  have h6 : MemOk c3 := MemOk.foldl (fun _ _ h7 => (MemOk.ite (Chip.memOk_sendChain h7) h7)) h5
  exact Chip.memOk_tollTests h6

theorem Chip.memOk_sbEchoSend {c : Chip} (h : MemOk c) : MemOk c.sbEchoSend := by
  unfold Chip.sbEchoSend
  refine MemOk.ite h ?_
  extract_lets _ _ c1
  have h2 : MemOk c1 := Chip.memOk_setRedun h
  exact Chip.memOk_emit h2

theorem Chip.memOk_sbEcho {c : Chip} {payload : List Byte} {measured : Nat} (h : MemOk c) : MemOk (c.sbEcho payload measured) := by
  unfold Chip.sbEcho
  extract_lets _ _ _ _ _ c1 _ _ _
  have h2 : MemOk c1 := Chip.memOk_setRedun h
  exact MemOk.ite (Chip.memOk_emit h) (MemOk.ite h (MemOk.ite (Chip.memOk_raise h2) (Chip.memOk_set (Chip.memOk_setRedun h2))))

theorem Chip.memOk_noteMirror {c : Chip} {a : Nat} (h : MemOk c) : MemOk (c.noteMirror a) := MemOk.ite h (Chip.memOk_setMirror h)

theorem Chip.memOk_epochBlocks {c : Chip} {blocks : List Nat} (h : MemOk c) : MemOk (c.epochBlocks blocks).2 := by
  unfold Chip.epochBlocks
  refine MemOk.foldl_snd (fun _ _ h1 => ?_) (MemOk.pair h)
  extract_lets r2
  have h3 : MemOk r2.2 := Chip.memOk_dramFetch h1
  exact MemOk.pair h3

theorem Chip.memOk_epochStart {c : Chip} (h : MemOk c) : MemOk c.epochStart := by
  unfold Chip.epochStart
  refine MemOk.ite h ?_
  extract_lets _ _ _ _ _ _ _ _ _ b1 c2 _ _ _ _ _ c3 c4
  have h5 : MemOk b1.2 := Chip.memOk_epochBlocks h
  have h6 : MemOk c2 := h5
  have h7 : MemOk c3 := Chip.memOk_setMirror h5
  have h8 : MemOk c4 := Chip.memOk_set h7
  exact MemOk.foldl (fun _ _ h9 => Chip.memOk_emit h9) h8

theorem Chip.memOk_mirrorSent {c : Chip} (h : MemOk c) : MemOk c.mirrorSent := by
  unfold Chip.mirrorSent
  split
  · exact h
  · extract_lets _ c1
    have h2 : MemOk c1 := Chip.memOk_set (Chip.memOk_setMirror h)
    exact Chip.memOk_raise (Chip.memOk_set h2)

theorem Chip.memOk_mirrorFull {c : Chip} (h : MemOk c) : MemOk c.mirrorFull :=
  MemOk.ite h (MemOk.ite (Chip.memOk_setMirror h) (Chip.memOk_requestFull h))

theorem Chip.memOk_stageRead {c : Chip} {half ofs n : Nat} (h : MemOk c) : MemOk (c.stageRead half ofs n).2 := Chip.memOk_dramFetch h

theorem Chip.memOk_setFail {c : Chip} {num : Nat} {full : Bool} (h : MemOk c) : MemOk (c.setFail num full) := by
  unfold Chip.setFail
  extract_lets c1 _ c2
  have h3 : MemOk c1 := Chip.memOk_setLost h
  have h4 : MemOk c2 := Chip.memOk_setMirror h3
  exact MemOk.ite (Chip.memOk_setUnitState h4) (Chip.memOk_requestFull h4)

theorem Chip.memOk_epochWhole {c : Chip} {num : Nat} (h : MemOk c) : MemOk (c.epochWhole num) := by
  unfold Chip.epochWhole
  extract_lets _ r1 c2 _ _ _ _ _ c3 _ _
  have h4 : MemOk r1.2 := Chip.memOk_stageRead h
  have h5 : MemOk c2 := h4
  have h6 : MemOk c3 := Chip.memOk_setMirror h4
  exact MemOk.ite (Chip.memOk_setFail h4) (MemOk.ite (Chip.memOk_setDrop (Chip.memOk_setMirror h6)) h6)

theorem Chip.memOk_epochStore {c : Chip} {num ofs : Nat} {data : List Byte} (h : MemOk c) : MemOk (c.epochStore num ofs data) := by
  unfold Chip.epochStore
  extract_lets c1 _ c2 h3 c4 _
  have h5 : MemOk c1 := Chip.memOk_dramWrite h
  have h6 : MemOk c2 := Chip.memOk_set (Chip.memOk_setMirror h5)
  have h7 : MemOk h3.2 := Chip.memOk_stageRead h6
  have h8 : MemOk c4 := h7
  exact MemOk.ite (Chip.memOk_setFail h7) (MemOk.ite (Chip.memOk_epochWhole h7) h7)

theorem Chip.memOk_epochFirst {c : Chip} {num ofs : Nat} {data : List Byte} (h : MemOk c) : MemOk (c.epochFirst num ofs data) := by
  unfold Chip.epochFirst
  extract_lets _ _ _ _
  exact MemOk.ite (Chip.memOk_setMirror h) (MemOk.ite (Chip.memOk_setMirror h) (MemOk.ite (Chip.memOk_setFail h) (Chip.memOk_epochStore
    (Chip.memOk_setMirror h))))

theorem Chip.memOk_epochData {c : Chip} {payload : List Byte} (h : MemOk c) : MemOk (c.epochData payload) := by
  unfold Chip.epochData
  refine MemOk.ite h ?_
  extract_lets _ _ _ _
  split
  · exact Chip.memOk_epochFirst h
  · exact MemOk.ite (Chip.memOk_epochStore h) (Chip.memOk_epochFirst (Chip.memOk_setFail h))

theorem Chip.memOk_epochLate {c : Chip} (h : MemOk c) : MemOk c.epochLate := by
  unfold Chip.epochLate
  refine MemOk.ite ?_ h
  extract_lets _
  exact Chip.memOk_setFail h

theorem Chip.memOk_applySet {writes : List SetItem → Chip → Chip} {c : Chip} {s : ReadySet} (hwrites : ∀ x0 x1, MemOk x1 → MemOk (writes x0 x1))
    (h : MemOk c) : MemOk (Chip.applySet writes c s) := by
  unfold Chip.applySet
  extract_lets r1 _ c2 c3 c4 _
  have h5 : MemOk r1.2 := Chip.memOk_stageRead h
  have h6 : MemOk c2 := hwrites _ _ h5
  have h7 : MemOk c3 := MemOk.foldl (fun _ _ h8 => Chip.memOk_dramWrite h8) h6
  have h9 : MemOk c4 := by
    unfold c4
    split
    · exact MemOk.same h7 rfl rfl
    · exact h7
  exact Chip.memOk_setMirror h9

theorem Chip.memOk_setApply {writes : List SetItem → Chip → Chip} {c : Chip} (hwrites : ∀ x0 x1, MemOk x1 → MemOk (writes x0 x1)) (h :
    MemOk c) : MemOk (Chip.setApply writes c) := by
  unfold Chip.setApply
  refine MemOk.ite h ?_
  extract_lets _ c1 _ c2
  have h3 : MemOk c1 := MemOk.foldl (fun _ _ h4 => (Chip.memOk_applySet hwrites h4)) h
  have h5 : MemOk c2 := Chip.memOk_setMirror h3
  exact Chip.memOk_set h5

theorem Chip.memOk_applied {c : Chip} (h : MemOk c) : MemOk c.applied := by
  unfold Chip.applied
  split
  · exact h
  · extract_lets _ c1 c2 c3
    have h4 : MemOk c1 := Chip.memOk_set (Chip.memOk_setMirror h)
    have h5 : MemOk c2 := Chip.memOk_set (Chip.memOk_set h4)
    have h6 : MemOk c3 := Chip.memOk_raise (Chip.memOk_emit h5)
    exact MemOk.ite (Chip.memOk_setUnitState h6) h6

theorem Chip.memOk_obeyShow {c : Chip} (h : MemOk c) : MemOk c.obeyShow := by
  unfold Chip.obeyShow
  extract_lets _ _ _ _ _ c1 _ c2 c3 _ _
  have h4 : MemOk c1 := Chip.memOk_cond (Chip.memOk_set h)
  have h5 : MemOk c2 := Chip.memOk_bumpSat (Chip.memOk_setTile h4)
  have h6 : MemOk c3 := Chip.memOk_closeAll h5
  exact MemOk.ite h4 (MemOk.ite (Chip.memOk_raise (Chip.memOk_setTile h6)) h5)

theorem Chip.memOk_obeyChanged {c : Chip} (h : MemOk c) : MemOk c.obeyChanged := Chip.memOk_obeyShow (MemOk.ite (Chip.memOk_raise h) h)

theorem Chip.memOk_obeying {f : Chip → Chip} {c : Chip} (hf : ∀ x0, MemOk x0 → MemOk (f x0)) (h : MemOk c) : MemOk (Chip.obeying f c) := by
  unfold Chip.obeying
  split
  · exact hf _ h
  · exact Chip.memOk_obeyShow (hf _ h)

/-! ### Machine/DriveOps -/

theorem Chip.memOk_setDrive {c : Chip} {d : DriveSt} (h : MemOk c) : MemOk (c.setDrive d) := MemOk.same h rfl rfl

theorem Chip.memOk_setDriveState {c : Chip} {s : Nat} (h : MemOk c) : MemOk (c.setDriveState s) := Chip.memOk_cond (Chip.memOk_set h)

theorem Chip.memOk_fadeGo {c : Chip} (h : MemOk c) : MemOk c.fadeGo := by
  unfold Chip.fadeGo
  extract_lets _ _ _ _
  exact Chip.memOk_set (Chip.memOk_setDrive h)

theorem Chip.memOk_fadeModeChange {c : Chip} (h : MemOk c) : MemOk c.fadeModeChange := by
  unfold Chip.fadeModeChange
  split
  · exact h
  · extract_lets _ _ _ _
    exact MemOk.ite h (Chip.memOk_setDrive h)

theorem Chip.memOk_fadeStep {c : Chip} (h : MemOk c) : MemOk c.fadeStep := by
  unfold Chip.fadeStep
  split
  · exact h
  · extract_lets _ _ c1 _
    have h2 : MemOk c1 := MemOk.foldl (fun _ _ h3 => Chip.memOk_set h3) h
    exact MemOk.ite (Chip.memOk_raise (Chip.memOk_set (Chip.memOk_setDrive h2))) (Chip.memOk_setDrive h2)

theorem Chip.memOk_dimStep {c : Chip} (h : MemOk c) : MemOk c.dimStep := by
  unfold Chip.dimStep
  extract_lets _ _ c1 _
  have h2 : MemOk c1 := MemOk.foldl (fun _ _ h3 => Chip.memOk_set h3) h
  exact Chip.memOk_setDrive h2

theorem Chip.memOk_diagForce {c : Chip} {n row ch st : Nat} {mate : Option Nat} (h : MemOk c) : MemOk (c.diagForce n row ch st mate) := by
  unfold Chip.diagForce
  split
  · exact h
  · exact Chip.memOk_setDrive h
  · extract_lets _ _ _
    exact Chip.memOk_setDrive h

theorem Chip.memOk_diagShow {c : Chip} (h : MemOk c) : MemOk c.diagShow := by
  unfold Chip.diagShow
  extract_lets c1
  have h2 : MemOk c1 := Chip.memOk_set h
  exact Chip.memOk_cond h2

theorem Chip.memOk_diagFollow {was : Chip} {c : Chip} (h : MemOk c) : MemOk (Chip.diagFollow was c) :=
  MemOk.ite h (Chip.memOk_diagShow h)

theorem Chip.memOk_diagResult {c : Chip} {n row ch res : Nat} {mate : Option Nat} (h : MemOk c) : MemOk (c.diagResult n row ch res mate) := by
  unfold Chip.diagResult
  extract_lets e x put run c1 c2
  have hput : ∀ d y, MemOk d → MemOk (put d y) := fun _ _ => Chip.memOk_setDrive
  refine MemOk.ite (hput _ _ h) (MemOk.ite (hput _ _ h) ?_)
  have h2 : MemOk c2 := Chip.memOk_diagForce (hput _ _ h)
  split
  · exact Chip.memOk_raise h2
  · exact h2

theorem Chip.memOk_diagStale {c : Chip} (h : MemOk c) : MemOk c.diagStale := by
  unfold Chip.diagStale
  extract_lets _ _
  exact MemOk.ite h (Chip.memOk_diagFollow (Chip.memOk_setDrive h))

theorem Chip.memOk_diagClearNow {c : Chip} (h : MemOk c) : MemOk c.diagClearNow := MemOk.ite h (Chip.memOk_set (Chip.memOk_setDrive h))

theorem Chip.memOk_driveLevel {c : Chip} {buf e : Nat} (h : MemOk c) : MemOk (c.driveLevel buf e).2 :=
  MemOk.pair (Chip.memOk_levelOut (Chip.memOk_tileRead h))

theorem Chip.memOk_slotChannel {c : Chip} {buf n row ch : Nat} {volts : List (Nat × Nat)} (h : MemOk c) :
    MemOk (c.slotChannel buf n row ch volts).2 := by
  unfold Chip.slotChannel
  extract_lets _ _ _ _ r1 c2 _ _ _ c3 _ _ c4 _ _ _
  have h5 : MemOk r1.2 := Chip.memOk_driveLevel h
  have h6 : MemOk c2 := h5
  have h7 : MemOk c3 := MemOk.ite h5 (Chip.memOk_setDrive h5)
  have h8 : MemOk c4 := MemOk.ite (Chip.memOk_diagResult h7) h7
  exact MemOk.pair h8

theorem Chip.memOk_slotPulses {c : Chip} {buf row : Nat} {bad : List Nat} {volts : List (Nat × Nat)} {n : Nat} (h : MemOk c) :
    MemOk (c.slotPulses buf row bad volts n).2 := by
  unfold Chip.slotPulses
  refine MemOk.ite_snd (MemOk.pair h) (MemOk.foldl_snd (fun _ _ h1 => ?_) (MemOk.pair h))
  extract_lets x2
  have h3 : MemOk x2.2 := Chip.memOk_slotChannel h1
  exact MemOk.pair h3

theorem Chip.memOk_slotBand {c : Chip} {buf row : Nat} {bad : List Nat} {volts : List (Nat × Nat)} {n : Nat} (h : MemOk c) :
    MemOk (c.slotBand buf row bad volts n) := by
  unfold Chip.slotBand
  refine MemOk.ite h ?_
  extract_lets r1 c2 c3
  have h4 : MemOk r1.2 := Chip.memOk_slotPulses h
  have h5 : MemOk c2 := Chip.memOk_emit h4
  have h6 : MemOk c3 := Chip.memOk_emit h5
  exact Chip.memOk_emit h6

theorem Chip.memOk_linkWords {c : Chip} {link : List (Nat × Nat)} (h : MemOk c) : MemOk (c.linkWords link) := by
  unfold Chip.linkWords
  refine MemOk.foldl (fun _ _ h1 => (MemOk.ite h1 ?_)) h
  extract_lets _
  split
  · exact h1
  · exact Chip.memOk_report h1
  · exact Chip.memOk_raise (Chip.memOk_report h1)

theorem Chip.memOk_probeCount {c : Chip} (h : MemOk c) : MemOk c.probeCount := MemOk.foldl (fun _ _ h1 => Chip.memOk_setDrive h1) h

theorem Chip.memOk_probeNext {c : Chip} (h : MemOk c) : MemOk c.probeNext := MemOk.foldl (fun _ _ h1 => Chip.memOk_setDrive h1) h

theorem Chip.memOk_slotLit {c : Chip} {buf row : Nat} {bad : List Nat} {volts : List (Nat × Nat)} (h : MemOk c) :
    MemOk (c.slotLit buf row bad volts) := by
  unfold Chip.slotLit
  extract_lets c1 was2 c3 c4
  have h5 : MemOk c1 := MemOk.ite (Chip.memOk_probeCount h) h
  have h6 : MemOk was2 := h5
  have h7 : MemOk c3 := MemOk.foldl (fun _ _ h8 => Chip.memOk_slotBand h8) h5
  have h9 : MemOk c4 := MemOk.ite (Chip.memOk_probeNext h7) h7
  exact Chip.memOk_diagFollow h9

theorem Chip.memOk_rowSlot {c : Chip} {link : List (Nat × Nat)} {volts : List (Nat × Nat)} (h : MemOk c) : MemOk (c.rowSlot link volts) := by
  unfold Chip.rowSlot
  extract_lets _ _ c1 c2
  have h3 : MemOk c1 := Chip.memOk_setSched h
  have h4 : MemOk c2 := MemOk.ite (Chip.memOk_linkWords h3) h3
  refine MemOk.ite h ?_
  split
  · exact h4
  · exact Chip.memOk_slotLit h4

theorem Chip.memOk_neighbourShort {c : Chip} {n ch : Nat} (h : MemOk c) : MemOk (c.neighbourShort n ch) := by
  refine MemOk.foldl (fun d r hd => ?_) h
  have one : ∀ (d : Chip) (a b : Nat), MemOk d → MemOk (if d.forced n r a then d else d.diagResult n r a dgNeighbour (some b)) :=
    fun _ _ _ hd => MemOk.ite hd (Chip.memOk_diagResult hd)
  exact one _ _ _ (one _ _ _ hd)

theorem Chip.memOk_neighbourBand {falls : List (Nat × Nat × Nat × Nat)} {c : Chip} {n : Nat} (h : MemOk c) : MemOk (Chip.neighbourBand falls c n) :=
  MemOk.foldl (fun _ _ h1 => Chip.memOk_neighbourShort h1) (Chip.memOk_emit h)

theorem Chip.memOk_neighbourSlot {c : Chip} {falls : List (Nat × Nat × Nat × Nat)} (h : MemOk c) : MemOk (c.neighbourSlot falls) := by
  unfold Chip.neighbourSlot
  refine MemOk.ite h (MemOk.ite ?_ ?_)
  · extract_lets _ _
    exact MemOk.ite (Chip.memOk_setDrive h) (Chip.memOk_raise (Chip.memOk_setDrive h))
  · extract_lets _ c1
    have h2 : MemOk c1 := Chip.memOk_setDrive h
    exact Chip.memOk_diagFollow (MemOk.foldl (fun _ _ h3 => Chip.memOk_neighbourBand h3) h2)

theorem Chip.memOk_trimCodes {c : Chip} (h : MemOk c) : MemOk c.trimCodes := Chip.memOk_setDrive h

theorem Chip.memOk_trimAdd {c : Chip} {n set ch : Nat} {d : Int} (h : MemOk c) : MemOk (c.trimAdd n set ch d) := Chip.memOk_setDrive h

theorem Chip.memOk_trimCond {c : Chip} {n : Nat} (h : MemOk c) : MemOk (c.trimCond n) := by
  unfold Chip.trimCond
  extract_lets _
  exact Chip.memOk_cond h

theorem Chip.memOk_trimMeasured {c : Chip} {n : Nat} {r : Int} (h : MemOk c) : MemOk (c.trimMeasured n r) := by
  unfold Chip.trimMeasured
  refine MemOk.ite h ?_
  extract_lets _ _ c1 _ _ c2 c3 _ c4 _
  have h5 : MemOk c1 := Chip.memOk_setDrive h
  have h6 : MemOk c2 := Chip.memOk_trimAdd h5
  have h7 : MemOk c3 := MemOk.ite (MemOk.ite h6 (Chip.memOk_trimAdd h6)) h5
  have h8 : MemOk c4 := Chip.memOk_trimCond (Chip.memOk_setDrive h7)
  exact MemOk.ite (Chip.memOk_set (Chip.memOk_set (Chip.memOk_bump h8))) h8

theorem Chip.memOk_driveBoundary {c : Chip} (h : MemOk c) : MemOk c.driveBoundary := by
  unfold Chip.driveBoundary
  extract_lets _ _
  exact MemOk.ite h (MemOk.ite (Chip.memOk_setDriveState (Chip.memOk_setDrive h)) (MemOk.ite (Chip.memOk_setDriveState (Chip.memOk_setDrive h))
    (MemOk.ite (Chip.memOk_setDriveState (Chip.memOk_setDrive h)) h)))

theorem Chip.memOk_bandTb {c : Chip} {n : Nat} (h : MemOk c) : MemOk (c.bandTb n) := by
  unfold Chip.bandTb
  extract_lets _
  exact MemOk.ite h (Chip.memOk_raise (Chip.memOk_set h))

theorem Chip.memOk_forcesNow {c : Chip} (h : MemOk c) : MemOk c.forcesNow := Chip.memOk_setDrive h

theorem Chip.memOk_passChanges {c : Chip} (h : MemOk c) : MemOk c.passChanges := by
  unfold Chip.passChanges
  extract_lets c1 _ _ c2 c3 c4 c5 _ c6 c7 c8 _ c9
  have h10 : MemOk c1 := Chip.memOk_driveBoundary h
  have h11 : MemOk c2 := Chip.memOk_setSched h10
  have h12 : MemOk c3 := MemOk.foldl (fun _ _ h13 => Chip.memOk_set h13) h11
  have h14 : MemOk c4 := Chip.memOk_dimStep (Chip.memOk_fadeStep h12)
  have h15 : MemOk c5 := MemOk.foldl (fun _ _ h16 => Chip.memOk_bandTb h16) h14
  have h17 : MemOk c6 := Chip.memOk_setDrive h15
  have h18 : MemOk c7 := Chip.memOk_forcesNow (Chip.memOk_diagClearNow h17)
  have h19 : MemOk c8 := Chip.memOk_cond h18
  have h20 : MemOk c9 := MemOk.ite (Chip.memOk_setDrive h19) h19
  exact Chip.memOk_diagShow h20

theorem Chip.memOk_passBoundary {c : Chip} (h : MemOk c) : MemOk c.passBoundary := by
  unfold Chip.passBoundary
  refine MemOk.ite h ?_
  extract_lets _ _ _ c1
  have h2 : MemOk c1 := Chip.memOk_setOffset h
  exact Chip.memOk_startPass (Chip.memOk_passChanges h2)

theorem Chip.memOk_driveBeat {c : Chip} {was : SchedSt} (h : MemOk c) : MemOk (c.driveBeat was) := by
  unfold Chip.driveBeat
  extract_lets _ _ c1
  have h2 : MemOk c1 := Chip.memOk_setDrive h
  exact MemOk.ite (Chip.memOk_diagStale h2) h

theorem Chip.memOk_driveOn {c : Chip} (h : MemOk c) : MemOk c.driveOn := by
  unfold Chip.driveOn
  extract_lets c1
  have h2 : MemOk c1 := Chip.memOk_set h
  exact MemOk.ite (Chip.memOk_setDriveState h2) (Chip.memOk_setDriveState h2)

theorem Chip.memOk_driveOff {c : Chip} (h : MemOk c) : MemOk c.driveOff := MemOk.ite (Chip.memOk_setDriveState h) (Chip.memOk_setDriveState h)

theorem Chip.memOk_driveReset {c : Chip} (h : MemOk c) : MemOk c.driveReset := by
  unfold Chip.driveReset
  extract_lets _ c1
  exact Chip.memOk_set (Chip.memOk_setDrive h)

theorem Chip.memOk_driveHalt {c : Chip} (h : MemOk c) : MemOk c.driveHalt := by
  unfold Chip.driveHalt
  split
  · exact h
  · exact Chip.memOk_setDriveState h

/-! ### Machine/ResetOps -/

theorem Chip.memOk_pinsSince {c before : Chip} (h : MemOk c) : MemOk (c.pinsSince before) :=
  MemOk.ite h (MemOk.same h rfl rfl)

theorem Chip.memOk_clapPin {c : Chip} {own : Bool} (h : MemOk c) : MemOk (c.clapPin own) := by
  unfold Chip.clapPin
  split
  · exact Chip.memOk_emit h
  · exact h

theorem Chip.memOk_noteHot {c : Chip} {raws : List Int} (h : MemOk c) : MemOk (c.noteHot raws) := MemOk.ite (MemOk.same h rfl rfl) h

theorem Chip.memOk_hotSample {c : Chip} {raws : List Int} (h : MemOk c) : MemOk (c.hotSample raws) :=
  MemOk.foldl (fun _ _ h1 => Chip.memOk_sampleNote h1) (Chip.memOk_noteHot h)

theorem Chip.memOk_driveAlert {c : Chip} {low : Bool} (h : MemOk c) : MemOk (c.driveAlert low) := MemOk.ite h (Chip.memOk_emit (MemOk.same h rfl rfl))

theorem Chip.memOk_knellStart {c : Chip} (h : MemOk c) : MemOk c.knellStart := by
  unfold Chip.knellStart
  split
  · extract_lets _ _ c1
    have h2 : MemOk c1 := MemOk.same h rfl rfl
    exact Chip.memOk_driveAlert (Chip.memOk_setOwn (Chip.memOk_driveHalt h2))
  · exact h

theorem Chip.memOk_knellStop {c : Chip} (h : MemOk c) : MemOk c.knellStop := by
  unfold Chip.knellStop
  refine MemOk.ite h ?_
  extract_lets c1 _ _ c2 c3 c4 _
  have h5 : MemOk c1 := h
  have h6 : MemOk c2 := MemOk.same h rfl rfl
  have h7 : MemOk c3 := MemOk.ite (Chip.memOk_emit (Chip.memOk_clapPin h6)) h6
  have h8 : MemOk c4 := MemOk.foldl (fun _ _ h9 => Chip.memOk_emit h9) h7
  exact Chip.memOk_pinsSince (Chip.memOk_emit (MemOk.same h8 rfl rfl))

theorem Chip.memOk_cleared {c : Chip} {aon : AonSt} (h : MemOk c) : MemOk (c.cleared aon) := by
  obtain ⟨-, -, -, -, -, -, hf⟩ := (memOk_iff c).1 h
  exact (memOk_iff _).2 ⟨rfl, rfl, rfl, rfl, rfl, rfl, hf⟩

theorem Chip.memOk_outputsOff {c : Chip} {wasLow : Bool} (h : MemOk c) : MemOk (c.outputsOff wasLow) := by
  unfold Chip.outputsOff
  extract_lets c1 c2 c3 _
  have h4 : MemOk c1 := Chip.memOk_clapPin (Chip.memOk_emit h)
  have h5 : MemOk c2 := MemOk.foldl (fun _ _ h6 => Chip.memOk_emit h6) h4
  have h7 : MemOk c3 := Chip.memOk_driveHalt h5
  exact MemOk.ite (MemOk.same h7 rfl rfl) (MemOk.ite (Chip.memOk_emit h5) h5)

theorem Chip.memOk_showCause {c : Chip} (h : MemOk c) : MemOk c.showCause := Chip.memOk_set (Chip.memOk_set (Chip.memOk_set (Chip.memOk_set h)))

theorem Chip.memOk_deviceReset {c : Chip} {cause rail : Nat} (h : MemOk c) : MemOk (c.deviceReset cause rail) := by
  unfold Chip.deviceReset
  extract_lets _ _ d1 _
  have h2 : MemOk d1 := Chip.memOk_showCause (Chip.memOk_outputsOff (Chip.memOk_cleared (Chip.memOk_interruptFlash h)))
  exact Chip.memOk_pinsSince (MemOk.same h2 rfl rfl)

theorem Chip.memOk_powerOn {c : Chip} (h : MemOk c) : MemOk c.powerOn := by
  unfold Chip.powerOn
  extract_lets x1 _ d2 _
  have h3 : MemOk x1 := Chip.memOk_interruptFlash h
  have h4 : MemOk d2 := Chip.memOk_showCause (Chip.memOk_outputsOff (Chip.memOk_cleared (MemOk.same h3 rfl rfl)))
  exact Chip.memOk_pinsSince (MemOk.same h4 rfl rfl)

theorem Chip.memOk_powerLost {c : Chip} {cause rail : Nat} (h : MemOk c) : MemOk (c.powerLost cause rail) := by
  unfold Chip.powerLost
  refine MemOk.ite h ?_
  extract_lets _ d1
  have h2 : MemOk d1 := MemOk.ite (MemOk.same h rfl rfl) h
  exact MemOk.ite (Chip.memOk_pinsSince h2) (Chip.memOk_deviceReset h2)

theorem Chip.memOk_setStep {c : Chip} {n : Nat} (h : MemOk c) : MemOk (c.setStep n) := Chip.memOk_set h

theorem Chip.memOk_powerGood {c : Chip} (h : MemOk c) : MemOk c.powerGood := Chip.memOk_pinsSince (MemOk.same h rfl rfl)

theorem Chip.memOk_strapSample {c : Chip} {pos slot boot : Nat} (h : MemOk c) : MemOk (c.strapSample pos slot boot) :=
  MemOk.ite h (Chip.memOk_set (Chip.memOk_set (Chip.memOk_set h)))

theorem Chip.memOk_reducedService {c : Chip} (h : MemOk c) : MemOk c.reducedService := MemOk.ite (Chip.memOk_set (Chip.memOk_set h)) h

theorem Chip.memOk_fullService {c : Chip} (h : MemOk c) : MemOk c.fullService := MemOk.ite (Chip.memOk_set (Chip.memOk_set (Chip.memOk_set h))) h

theorem Chip.memOk_xtal {c : Chip} {locked : Bool} (h : MemOk c) : MemOk (c.xtal locked) := by
  unfold Chip.xtal
  extract_lets c1 c2 _ c3 c4 c5 _
  have h6 : MemOk c1 := h
  have h7 : MemOk c2 := Chip.memOk_set (Chip.memOk_set h)
  have h8 : MemOk c3 := MemOk.same h7 rfl rfl
  have h9 : MemOk c4 := MemOk.ite h8 (Chip.memOk_driveAlert h8)
  have h10 : MemOk c5 := Chip.memOk_set h
  exact MemOk.ite (Chip.memOk_pinsSince h9) (Chip.memOk_pinsSince (Chip.memOk_driveAlert (Chip.memOk_emit (MemOk.same h10 rfl rfl))))

theorem Chip.memOk_plls {c : Chip} {mask : Nat} (h : MemOk c) : MemOk (c.plls mask) := by
  unfold Chip.plls
  extract_lets _ c1 c2 c3 _
  have h4 : MemOk c1 := Chip.memOk_set h
  have h5 : MemOk c2 := Chip.memOk_set h4
  have h6 : MemOk c3 := Chip.memOk_set (Chip.memOk_set h5)
  exact MemOk.same h6 rfl rfl

theorem Chip.memOk_stepEnd {c : Chip} {n : Nat} {timedOut : Bool} {mask : Nat} (h : MemOk c) : MemOk (c.stepEnd n timedOut mask) := by
  unfold Chip.stepEnd
  refine MemOk.ite h (MemOk.ite (MemOk.ite (Chip.memOk_plls h) h) ?_)
  extract_lets c1 c2 c3
  have h4 : MemOk c1 := Chip.memOk_setStep h
  have h5 : MemOk c2 := MemOk.ite (Chip.memOk_set h4) h4
  have h6 : MemOk c3 := MemOk.ite (Chip.memOk_xtal h5) (MemOk.ite (Chip.memOk_plls h5) h5)
  exact Chip.memOk_fullService h6

theorem Chip.memOk_xtalRetry {c : Chip} {locked : Bool} (h : MemOk c) : MemOk (c.xtalRetry locked) :=
  MemOk.ite (Chip.memOk_fullService (Chip.memOk_xtal h)) h

theorem Chip.memOk_pwm8Off {c : Chip} (h : MemOk c) : MemOk c.pwm8Off := MemOk.ite (Chip.memOk_fullService (Chip.memOk_set h)) h

theorem Chip.memOk_extest {c : Chip} {clapOwn alertLow : Bool} {cells : List Bool} (h : MemOk c) : MemOk (c.extest clapOwn alertLow cells) := by
  unfold Chip.extest
  extract_lets _ d1 _
  have h2 : MemOk d1 := MemOk.same h rfl rfl
  split
  · exact Chip.memOk_pinsSince (MemOk.same h2 rfl rfl)
  · exact Chip.memOk_pinsSince (MemOk.same h2 rfl rfl)

theorem Chip.memOk_tapReset {c : Chip} (h : MemOk c) : MemOk c.tapReset := by
  unfold Chip.tapReset
  refine MemOk.ite ?_ h
  extract_lets _ d1
  have h2 : MemOk d1 := MemOk.same h rfl rfl
  exact Chip.memOk_pinsSince (Chip.memOk_emit (Chip.memOk_clapPin h2))

/-! ### Machine/MapOps -/

theorem Chip.memOk_setMap {c : Chip} {m : MapSt} (h : MemOk c) : MemOk (c.setMap m) := MemOk.same h rfl rfl

theorem Chip.memOk_setCanvas {c : Chip} {x : CanvasSt} (h : MemOk c) : MemOk (c.setCanvas x) := Chip.memOk_setMap h

theorem Chip.memOk_setBand {c : Chip} {b : BandSt} (h : MemOk c) : MemOk (c.setBand b) := Chip.memOk_setMap h

theorem Chip.memOk_refreshLayers {c : Chip} (h : MemOk c) : MemOk c.refreshLayers := by
  unfold Chip.refreshLayers
  split
  · exact h
  · refine MemOk.foldl (fun _ _ h1 => ?_) h
    extract_lets _ c2
    have h3 : MemOk c2 := Chip.memOk_set (Chip.memOk_set h1)
    exact Chip.memOk_cond h3

theorem Chip.memOk_mapPoison {c : Chip} {addr : Nat} (h : MemOk c) : MemOk (c.mapPoison addr) := Chip.memOk_raise (Chip.memOk_report h)

theorem Chip.memOk_mapRead {c : Chip} {addr n : Nat} (h : MemOk c) : MemOk (c.mapRead addr n).2 := by
  unfold Chip.mapRead
  extract_lets r1
  have h2 : MemOk r1.2 := Chip.memOk_dramRead h
  exact MemOk.ite_snd (MemOk.pair (Chip.memOk_mapPoison h2)) (MemOk.pair h2)

theorem Chip.memOk_bindAll {c : Chip} {x : CanvasSt} {ls : List Nat} (h : MemOk c) : MemOk (c.bindAll x ls).2 := by
  unfold Chip.bindAll
  refine MemOk.foldl_snd (fun _ _ h1 => ?_) (MemOk.pair h)
  extract_lets _ _ _ c2 c3 _ c4
  have h5 : MemOk c2 := MemOk.ite (Chip.memOk_set (Chip.memOk_set h1)) h1
  have h6 : MemOk c3 := MemOk.ite (Chip.memOk_raise h5) h5
  have h7 : MemOk c4 := MemOk.ite (Chip.memOk_setMap h6) h6
  exact MemOk.pair h7

theorem Chip.memOk_bindWaiting {c : Chip} (h : MemOk c) : MemOk c.bindWaiting := by
  unfold Chip.bindWaiting
  extract_lets _
  refine MemOk.foldl (fun _ _ h1 => ?_) h
  extract_lets _ _ r2
  have h3 : MemOk r2.2 := Chip.memOk_bindAll h1
  exact Chip.memOk_setCanvas h3

theorem Chip.memOk_releaseCanvas {ap : ApplyRef → Chip → Chip} {c : Chip} (hap : ∀ x0 x1, MemOk x1 → MemOk (ap x0 x1)) (h : MemOk c) :
    MemOk (Chip.releaseCanvas ap c) := by
  unfold Chip.releaseCanvas
  split
  · exact h
  · refine MemOk.ite h ?_
    extract_lets _ c1 c2 _ _ _ _ _ _
    have h3 : MemOk c1 := MemOk.ite (Chip.memOk_advanceTo h) h
    have h4 : MemOk c2 := MemOk.ite (hap _ _ h3) h3
    exact Chip.memOk_setMap h4

theorem Chip.memOk_bandEntries {c : Chip} {x : CanvasSt} {j : Nat} (h : MemOk c) : MemOk (c.bandEntries x j).2 := by
  unfold Chip.bandEntries
  refine MemOk.foldl_snd (fun _ _ h1 => (MemOk.ite_snd (MemOk.pair h1) ?_)) (MemOk.pair h)
  extract_lets r2
  have h3 : MemOk r2.2 := Chip.memOk_mapRead h1
  split
  · exact MemOk.pair h3
  · exact MemOk.pair h3

theorem Chip.memOk_showDispatch {c : Chip} {x : CanvasSt} (h : MemOk c) : MemOk (c.showDispatch x) := by
  unfold Chip.showDispatch
  extract_lets c1
  have h2 : MemOk c1 := Chip.memOk_set (Chip.memOk_set h)
  exact Chip.memOk_set (Chip.memOk_set h2)

theorem Chip.memOk_showWaits {c : Chip} (h : MemOk c) : MemOk c.showWaits := Chip.memOk_set (Chip.memOk_set h)

theorem Chip.memOk_dispatchBand {c : Chip} {seq : Nat} (h : MemOk c) : MemOk (c.dispatchBand seq) := by
  unfold Chip.dispatchBand
  split
  · exact h
  · refine MemOk.ite h ?_
    extract_lets _ r1 _ _ _ c2 _
    have h3 : MemOk r1.2 := Chip.memOk_bandEntries h
    have h4 : MemOk c2 := Chip.memOk_setCanvas h3
    exact Chip.memOk_showWaits (Chip.memOk_showDispatch (Chip.memOk_setMap h4))

theorem Chip.memOk_beginCanvas {ap : ApplyRef → Chip → Chip} {c : Chip} (hap : ∀ x0 x1, MemOk x1 → MemOk (ap x0 x1)) (h : MemOk c) :
    MemOk (Chip.beginCanvas ap c) := by
  unfold Chip.beginCanvas
  split
  · exact h
  · refine MemOk.ite h ?_
    extract_lets _ _ c1 _ r2
    have h3 : MemOk c1 := MemOk.ite h (Chip.memOk_refreshLayers (hap _ _ (Chip.memOk_setMap h)))
    have h4 : MemOk r2.2 := Chip.memOk_bindAll h3
    exact Chip.memOk_bindWaiting (Chip.memOk_dispatchBand (Chip.memOk_setCanvas h4))

theorem Chip.memOk_nextBand {ap : ApplyRef → Chip → Chip} {c : Chip} (hap : ∀ x0 x1, MemOk x1 → MemOk (ap x0 x1)) (h : MemOk c) :
    MemOk (Chip.nextBand ap c) := by
  unfold Chip.nextBand
  refine MemOk.ite h ?_
  split
  · exact Chip.memOk_dispatchBand h
  · exact Chip.memOk_beginCanvas hap h

theorem Chip.memOk_noteMixed {c : Chip} {x : CanvasSt} (h : MemOk c) : MemOk (c.noteMixed x) := by
  unfold Chip.noteMixed
  extract_lets _ _
  split
  · exact MemOk.ite (MemOk.same h rfl rfl) h
  · exact h

theorem Chip.memOk_takeTask {c : Chip} {e : Nat} (h : MemOk c) : MemOk (c.takeTask e) := by
  unfold Chip.takeTask
  refine MemOk.ite h ?_
  split
  · exact h
  · split
    · exact h
    · extract_lets c1 c2 _
      have h3 : MemOk c1 := by
        unfold c1
        split
        · exact Chip.memOk_noteMixed h
        · exact h
      have h4 : MemOk c2 := Chip.memOk_setBand h3
      exact Chip.memOk_set (Chip.memOk_setMap h4)

theorem Chip.memOk_assignTasks {c : Chip} (h : MemOk c) : MemOk c.assignTasks := MemOk.foldl (fun _ _ h1 => Chip.memOk_takeTask h1) h

theorem Chip.memOk_readOr {c : Chip} {addr n : Nat} (h : MemOk c) : MemOk (c.readOr addr n).2 := by
  unfold Chip.readOr
  extract_lets _ r1 q2
  have h3 : MemOk r1.2 := Chip.memOk_dramRead h
  have h4 : MemOk q2.2 := Chip.memOk_dramRead h3
  exact MemOk.pair h4

theorem Chip.memOk_comps {c : Chip} {addr bits : Nat} {is : List Nat} (h : MemOk c) : MemOk (c.comps addr bits is).2 := by
  unfold Chip.comps
  refine MemOk.foldl_snd (fun _ _ h1 => ?_) (MemOk.pair h)
  extract_lets _ _ r2
  have h3 : MemOk r2.2 := Chip.memOk_readOr h1
  exact MemOk.pair h3

theorem Chip.memOk_tap {c : Chip} {s : Src} {chroma : Bool} {col row : Nat} (h : MemOk c) : MemOk (c.tap s chroma col row).2 := by
  unfold Chip.tap
  extract_lets line bits up
  split
  · exact MemOk.ite_snd (Chip.memOk_comps h) (Chip.memOk_comps h)
  · exact Chip.memOk_comps h
  · exact Chip.memOk_readOr h
  · exact Chip.memOk_readOr h

theorem Chip.memOk_tapColumn {c : Chip} {s : Src} {chroma : Bool} {col : Nat} {rows : List Nat} (h : MemOk c) :
    MemOk (c.tapColumn s chroma col rows).2 := by
  unfold Chip.tapColumn
  refine MemOk.foldl_snd (fun _ _ h1 => ?_) (MemOk.pair h)
  extract_lets r2
  have h3 : MemOk r2.2 := Chip.memOk_tap h1
  exact MemOk.pair h3

theorem Chip.memOk_tapBlock {c : Chip} {s : Src} {chroma : Bool} {cols rows : List Nat} (h : MemOk c) : MemOk (c.tapBlock s chroma cols rows).2 := by
  unfold Chip.tapBlock
  refine MemOk.foldl_snd (fun _ _ h1 => ?_) (MemOk.pair h)
  extract_lets r2
  have h3 : MemOk r2.2 := Chip.memOk_tapColumn h1
  exact MemOk.pair h3

theorem Chip.memOk_sampleSrc {c : Chip} {tab : Nat → Nat} {bank : Nat} {s : Src} {sx sy : Int} (h : MemOk c) :
    MemOk (c.sampleSrc tab bank s sx sy).2 := by
  unfold Chip.sampleSrc
  extract_lets _ _ _ _ r1 q2
  have h3 : MemOk r1.2 := Chip.memOk_tapBlock h
  have h4 : MemOk q2.2 := Chip.memOk_tapBlock h3
  split
  · split
    · extract_lets _ _
      exact MemOk.pair h4
    · exact MemOk.pair h4
    · exact MemOk.pair h4
  · split
    · exact MemOk.pair h3
    · extract_lets _ _ _
      exact MemOk.pair h3

theorem Chip.memOk_layerPix {c : Chip} {x : CanvasSt} {b : BandSt} {tab : Nat → Nat} {l : Nat} {sx sy : Int} (h : MemOk c) :
    MemOk (c.layerPix x b tab l sx sy).2 := by
  unfold Chip.layerPix
  extract_lets _ _ _ _ _ _ _ _
  refine MemOk.ite_snd (MemOk.pair h) ?_
  split
  · exact MemOk.pair h
  · refine MemOk.ite_snd (MemOk.pair h) (MemOk.ite_snd (MemOk.pair h) ?_)
    extract_lets r1
    have h2 : MemOk r1.2 := Chip.memOk_sampleSrc h
    split
    · exact MemOk.pair h2
    · exact MemOk.pair h2

theorem Chip.memOk_blockMesh {c : Chip} {x : CanvasSt} {b : BandSt} {l i : Nat} (h : MemOk c) : MemOk (c.blockMesh x b l i).2 := by
  unfold Chip.blockMesh
  refine MemOk.ite_snd (MemOk.pair h) ?_
  extract_lets _ _ _ r1
  have h2 : MemOk r1.2 := by
    refine MemOk.foldl_snd (fun _ _ h3 => ?_) (MemOk.pair h)
    extract_lets v4
    have h5 : MemOk v4.2 := Chip.memOk_mapRead h3
    split
    · exact MemOk.pair h5
    · exact MemOk.pair h5
  split
  · exact MemOk.pair h2
  · exact MemOk.pair h2

theorem Chip.memOk_blockLayers {c : Chip} {x : CanvasSt} {b : BandSt} {i : Nat} (h : MemOk c) : MemOk (c.blockLayers x b i).2 := by
  unfold Chip.blockLayers
  refine MemOk.foldl_snd (fun _ _ h1 => ?_) (MemOk.pair h)
  extract_lets r2
  have h3 : MemOk r2.2 := Chip.memOk_blockMesh h1
  split
  · exact MemOk.pair h3
  · exact MemOk.pair h3

theorem Chip.memOk_pixel {c : Chip} {x : CanvasSt} {b : BandSt} {tab : Nat → Nat} {ls : List (Nat × List Vertex)} {u v : Nat} (h : MemOk c) :
    MemOk (c.pixel x b tab ls u v).2 := by
  unfold Chip.pixel
  extract_lets _ _ r1
  have h2 : MemOk r1.2 := by
    refine MemOk.foldl_snd (fun _ _ h3 => ?_) (MemOk.pair h)
    extract_lets _ _ _ q4
    have h5 : MemOk q4.2 := Chip.memOk_layerPix h3
    split
    · exact MemOk.pair h5
    · exact MemOk.pair h5
    · exact MemOk.pair h5
  exact MemOk.pair h2

theorem Chip.memOk_writeRun {c : Chip} {addr : Nat} {px : List (Option Nat)} (h : MemOk c) : MemOk (c.writeRun addr px) := by
  unfold Chip.writeRun
  extract_lets _ _ _
  exact Chip.memOk_dramWriteOpt (MemOk.foldl (fun _ _ h1 => Chip.memOk_mapPoison h1) h)

theorem Chip.memOk_doBlock {c : Chip} {x : CanvasSt} {b : BandSt} {e i : Nat} (h : MemOk c) : MemOk (c.doBlock x b e i).2 := by
  unfold Chip.doBlock
  extract_lets r1 _ _ _ _ c2
  have h3 : MemOk r1.2 := Chip.memOk_blockLayers h
  have h4 : MemOk c2 := by
    refine MemOk.foldl (fun _ _ h5 => ?_) h3
    extract_lets run6
    have h7 : MemOk run6.2 := by
      refine MemOk.foldl_snd (fun _ _ h8 => ?_) (MemOk.pair h5)
      extract_lets q9
      have h10 : MemOk q9.2 := Chip.memOk_pixel h8
      split
      · extract_lets o11
        have h12 : MemOk o11.2 := MemOk.ite_snd (Chip.memOk_openValue h10) (MemOk.pair h10)
        exact MemOk.pair h12
      · exact MemOk.pair (Chip.memOk_mapPoison h10)
    exact Chip.memOk_writeRun h7
  exact MemOk.pair h4

theorem Chip.memOk_tabUpset {c : Chip} {e : Nat} {u : Nat × Nat} (h : MemOk c) : MemOk (c.tabUpset e u) := by
  unfold Chip.tabUpset
  split
  · exact h
  · extract_lets _ _ c1
    have h2 : MemOk c1 := Chip.memOk_setMap h
    split
    · exact h
    · exact Chip.memOk_raise (Chip.memOk_report h)
    · exact Chip.memOk_raise (Chip.memOk_report h2)

theorem Chip.memOk_taskComplete {c : Chip} {e : Nat} {upsets : List (Nat × Nat)} (h : MemOk c) : MemOk (c.taskComplete e upsets) := by
  unfold Chip.taskComplete
  split
  · exact h
  · refine MemOk.ite h ?_
    split
    · extract_lets c1 _ _ r2 c3 c4 c5 c6 _ c7
      have h8 : MemOk c1 := MemOk.foldl (fun _ _ h9 => Chip.memOk_tabUpset h9) h
      have h10 : MemOk r2.2 := by
        refine MemOk.foldl_snd (fun _ _ h11 => ?_) (MemOk.pair h8)
        extract_lets q12 _
        have h13 : MemOk q12.2 := Chip.memOk_doBlock h11
        exact MemOk.pair h13
      have h14 : MemOk c3 := h10
      have h15 : MemOk c4 := Chip.memOk_bump (Chip.memOk_bump h10)
      have h16 : MemOk c5 := Chip.memOk_setCanvas h15
      have h17 : MemOk c6 := Chip.memOk_setBand h16
      have h18 : MemOk c7 := Chip.memOk_set (Chip.memOk_setMap h17)
      exact Chip.memOk_assignTasks h18
    · exact Chip.memOk_setMap h

theorem Chip.memOk_markLate {c : Chip} {seq : Nat} (h : MemOk c) : MemOk (c.markLate seq) := by
  unfold Chip.markLate
  split
  · exact h
  · exact MemOk.ite h (Chip.memOk_raise (Chip.memOk_bumpSat (Chip.memOk_setCanvas h)))

theorem Chip.memOk_noteLead {c : Chip} {m : Int} (h : MemOk c) : MemOk (c.noteLead m) := by
  unfold Chip.noteLead
  extract_lets _
  exact MemOk.ite (Chip.memOk_set h) h

theorem Chip.memOk_keepCanvases {c : Chip} {l : List CanvasSt} (h : MemOk c) : MemOk (c.keepCanvases l) := by
  unfold Chip.keepCanvases
  extract_lets _ c1 _ c2
  have h3 : MemOk c1 := Chip.memOk_setMap h
  have h4 : MemOk c2 := Chip.memOk_setMap h3
  exact Chip.memOk_assignTasks (Chip.memOk_showWaits h4)

theorem Chip.memOk_dropCanvas {c : Chip} {seq : Nat} (h : MemOk c) : MemOk (c.dropCanvas seq) := Chip.memOk_keepCanvases h

theorem Chip.memOk_publishCanvas {c : Chip} {x : CanvasSt} (h : MemOk c) : MemOk (c.publishCanvas x) := by
  unfold Chip.publishCanvas
  extract_lets c1 c2
  have h3 : MemOk c1 := Chip.memOk_set h
  have h4 : MemOk c2 := MemOk.ite h3 (Chip.memOk_noteLead h3)
  exact MemOk.ite (Chip.memOk_dropCanvas h4) (Chip.memOk_setCanvas h4)

theorem Chip.memOk_bandComplete {ap : ApplyRef → Chip → Chip} {c : Chip} (hap : ∀ x0 x1, MemOk x1 → MemOk (ap x0 x1)) (h : MemOk c) :
    MemOk (Chip.bandComplete ap c) := by
  unfold Chip.bandComplete
  split
  · exact h
  · extract_lets _ c1
    have h2 : MemOk c1 := Chip.memOk_setMap h
    split
    · exact h2
    · extract_lets _ c3 c4 c5 c6
      have h7 : MemOk c3 := Chip.memOk_setCanvas h2
      have h8 : MemOk c4 := MemOk.ite (Chip.memOk_noteLead h7) h7
      have h9 : MemOk c5 := MemOk.ite (Chip.memOk_markLate h8) h8
      have h10 : MemOk c6 := by
        refine MemOk.ite ?_ h9
        split
        · exact Chip.memOk_publishCanvas h9
        · exact h9
      exact Chip.memOk_assignTasks (Chip.memOk_nextBand hap h10)

theorem Chip.memOk_canvasLate {c : Chip} (h : MemOk c) : MemOk c.canvasLate := by
  unfold Chip.canvasLate
  split
  · exact h
  · exact Chip.memOk_markLate (Chip.memOk_advanceTo h)

theorem Chip.memOk_chaseReady {c : Chip} (h : MemOk c) : MemOk c.chaseReady := by
  unfold Chip.chaseReady
  extract_lets _ _
  exact Chip.memOk_assignTasks (Chip.memOk_showWaits (Chip.memOk_setMap h))

theorem Chip.memOk_rebind {c : Chip} {s : Nat} {waiting : Bool} {p : LayerBind → Bool} (h : MemOk c) : MemOk (c.rebind s waiting p) := by
  unfold Chip.rebind
  extract_lets _ _ _ _ _ _ _ c1
  have h2 : MemOk c1 := Chip.memOk_setMap h
  split
  · exact h2
  · exact MemOk.foldl (fun _ _ h3 => (MemOk.ite (Chip.memOk_set h3) h3)) h2

theorem Chip.memOk_chaseWithdraw {c : Chip} {s : Nat} (h : MemOk c) : MemOk (c.chaseWithdraw s) := by
  unfold Chip.chaseWithdraw
  extract_lets _ c1 c2
  have h3 : MemOk c1 := Chip.memOk_rebind h
  have h4 : MemOk c2 := MemOk.ite (Chip.memOk_raise h3) h3
  exact Chip.memOk_chaseReady h4

theorem Chip.memOk_sourcesMoved {old c : Chip} (h : MemOk c) : MemOk (Chip.sourcesMoved old c) :=
  Chip.memOk_refreshLayers (MemOk.foldl (fun _ _ h1 => (MemOk.ite (Chip.memOk_rebind h1) h1)) h)

theorem Chip.memOk_tabAdvance {c : Chip} (h : MemOk c) : MemOk c.tabAdvance := MemOk.ite (Chip.memOk_bump h) h

theorem Chip.memOk_tabWrite {c : Chip} {w : Word} (h : MemOk c) : MemOk (c.tabWrite w) := by
  unfold Chip.tabWrite
  extract_lets _ _ c1
  have h2 : MemOk c1 := MemOk.ite (Chip.memOk_setMap h) h
  exact Chip.memOk_tabAdvance h2

theorem Chip.memOk_tabRead {c : Chip} (h : MemOk c) : MemOk c.tabRead.2 := by
  unfold Chip.tabRead
  extract_lets _ _ _
  exact MemOk.pair (Chip.memOk_tabAdvance h)

theorem Chip.memOk_tabCommit {c : Chip} (h : MemOk c) : MemOk c.tabCommit := Chip.memOk_setMap h

theorem Chip.memOk_dropFmap {c : Chip} {l : List CanvasSt} (h : MemOk c) : MemOk (c.dropFmap l) := Chip.memOk_setMap h

theorem Chip.memOk_passCanvas {c : Chip} {x : CanvasSt} (h : MemOk c) : MemOk (c.passCanvas x) := by
  unfold Chip.passCanvas
  extract_lets c1
  have h2 : MemOk c1 := Chip.memOk_dropFmap h
  exact MemOk.ite (Chip.memOk_dropCanvas h2) (Chip.memOk_setCanvas h2)

theorem Chip.memOk_mapRestart {c : Chip} (h : MemOk c) : MemOk c.mapRestart := by
  unfold Chip.mapRestart
  extract_lets c1 _
  have h2 : MemOk c1 := Chip.memOk_dropFmap h
  exact Chip.memOk_setMap h2

theorem Chip.memOk_mapStop {c : Chip} (h : MemOk c) : MemOk c.mapStop := by
  unfold Chip.mapStop
  extract_lets c1 c2
  have h3 : MemOk c1 := Chip.memOk_mapRestart h
  have h4 : MemOk c2 := Chip.memOk_dropFmap h3
  exact Chip.memOk_keepCanvases h4

theorem Chip.memOk_mapModeChange {c : Chip} (h : MemOk c) : MemOk c.mapModeChange := by
  unfold Chip.mapModeChange
  extract_lets _ _
  exact Chip.memOk_keepCanvases (Chip.memOk_setMap h)

theorem Chip.memOk_cueStart {c : Chip} {n : Nat} (h : MemOk c) : MemOk (c.cueStart n) := by
  unfold Chip.cueStart
  extract_lets _ _
  exact Chip.memOk_setMap h

theorem Chip.memOk_cueRecord {c : Chip} {n : Nat} (h : MemOk c) : MemOk (c.cueRecord n).2 := by
  unfold Chip.cueRecord
  refine MemOk.ite_snd ?_ (MemOk.pair h)
  extract_lets _ r1
  have h2 : MemOk r1.2 := Chip.memOk_dramRead h
  exact MemOk.ite_snd (MemOk.pair (Chip.memOk_mapPoison h2)) (MemOk.pair h2)

/-! ### Machine/ScanOps -/

theorem Chip.memOk_setScan {c : Chip} {s : ScanSt} (h : MemOk c) : MemOk (c.setScan s) := MemOk.same h rfl rfl

theorem Chip.memOk_setScanState {c : Chip} {st : Nat} (h : MemOk c) : MemOk (c.setScanState st) := Chip.memOk_set (Chip.memOk_set h)

theorem Chip.memOk_setBoth {c : Chip} {f : Fld} {v : Nat} (h : MemOk c) : MemOk (c.setBoth f v) := Chip.memOk_set (Chip.memOk_set h)

theorem Chip.memOk_setLag {c : Chip} {ns : Nat} (h : MemOk c) : MemOk (c.setLag ns) := Chip.memOk_cond (Chip.memOk_set h)

theorem Chip.memOk_dropAllPixels {c : Chip} (h : MemOk c) : MemOk c.dropAllPixels := MemOk.foldl (fun _ _ h1 => Chip.memOk_setPort h1) h

theorem Chip.memOk_scanHalt {c : Chip} {st : Nat} (h : MemOk c) : MemOk (c.scanHalt st) := by
  unfold Chip.scanHalt
  extract_lets _ c1
  have h2 : MemOk c1 := Chip.memOk_setScan h
  exact Chip.memOk_setScanState (Chip.memOk_setLag h2)

theorem Chip.memOk_scanStop {c : Chip} {st : Nat} (h : MemOk c) : MemOk (c.scanStop st) := by
  unfold Chip.scanStop
  extract_lets c1 _
  have h2 : MemOk c1 := Chip.memOk_dropAllPixels h
  exact Chip.memOk_scanHalt (Chip.memOk_setScan h2)

theorem Chip.memOk_scanWait {c : Chip} (h : MemOk c) : MemOk c.scanWait := MemOk.ite (Chip.memOk_scanHalt h) h

theorem Chip.memOk_scanStart {c : Chip} (h : MemOk c) : MemOk c.scanStart := by
  unfold Chip.scanStart
  extract_lets c1 _
  have h2 : MemOk c1 := Chip.memOk_scanStop h
  exact Chip.memOk_setScan h2

theorem Chip.memOk_scanBeat {c : Chip} {s12 len12 : Nat} (h : MemOk c) : MemOk (c.scanBeat s12 len12) := by
  unfold Chip.scanBeat
  split
  · exact h
  · extract_lets _ _ _ c1 _
    have h2 : MemOk c1 := Chip.memOk_setScan h
    exact MemOk.ite (Chip.memOk_setScan h2) h2

theorem Chip.memOk_scanLate {c : Chip} {lit : Nat × Nat} (h : MemOk c) : MemOk (c.scanLate lit) := by
  unfold Chip.scanLate
  extract_lets c1 _
  have h2 : MemOk c1 := Chip.memOk_setScanState h
  exact MemOk.ite h2 (Chip.memOk_raise (Chip.memOk_bumpSat (Chip.memOk_setScan h2)))

theorem Chip.memOk_showActive {c : Chip} {r : ReadCanvas} (h : MemOk c) : MemOk (c.showActive r) := by
  unfold Chip.showActive
  extract_lets _ c1
  have h2 : MemOk c1 := Chip.memOk_set (Chip.memOk_set h)
  exact Chip.memOk_set (Chip.memOk_set h2)

theorem Chip.memOk_previewTake {c : Chip} {r : ReadCanvas} {feed : Nat} (h : MemOk c) : MemOk (c.previewTake r feed) := by
  unfold Chip.previewTake
  extract_lets _
  exact MemOk.ite (MemOk.same h rfl rfl) h

theorem Chip.memOk_previewBar {ap : ApplyRef → Chip → Chip} {c : Chip} (hap : ∀ x0 x1, MemOk x1 → MemOk (ap x0 x1)) (h : MemOk c) :
    MemOk (Chip.previewBar ap c) := by
  unfold Chip.previewBar
  refine MemOk.ite h ?_
  extract_lets _ c1 _ _ _ _ _ c2
  have h3 : MemOk c1 := MemOk.ite h (hap _ _ h)
  have h4 : MemOk c2 := MemOk.same h3 rfl rfl
  exact MemOk.ite (Chip.memOk_raise (Chip.memOk_set (Chip.memOk_bumpSat h3))) (Chip.memOk_set (Chip.memOk_set (Chip.memOk_set h4)))

theorem Chip.memOk_sramPixel {c : Chip} {w h cx cy : Nat} (hc : MemOk c) : MemOk (c.sramPixel w h cx cy).2 := by
  unfold Chip.sramPixel
  refine MemOk.ite_snd (MemOk.pair hc) ?_
  extract_lets _ _ r1 _ p2
  have h3 : MemOk r1.2 := Chip.memOk_bankReadWord hc
  have h4 : MemOk p2.2 := MemOk.ite_snd (Chip.memOk_openValue h3) (MemOk.pair h3)
  exact MemOk.pair h4

theorem Chip.memOk_canvasPixel {c : Chip} {master : Nat} {r : ReadCanvas} {cx cy : Nat} (h : MemOk c) : MemOk (c.canvasPixel master r cx cy).2 := by
  unfold Chip.canvasPixel
  split
  · exact Chip.memOk_sramPixel h
  · extract_lets _ _ _ _ _ _ _ _ q1
    have h2 : MemOk q1.2 := Chip.memOk_dramRead h
    exact MemOk.pair h2

theorem Chip.memOk_previewPixel {c : Chip} {r : ReadCanvas} {d i j : Nat} (h : MemOk c) : MemOk (c.previewPixel r d i j).2 := by
  unfold Chip.previewPixel
  extract_lets s1 _ _ _ _
  have h2 : MemOk s1.2 := by
    refine MemOk.foldl_snd (fun _ _ h3 => ?_) (MemOk.pair h)
    extract_lets q4 v5
    have h6 : MemOk q4.2 := Chip.memOk_canvasPixel h3
    have h7 : MemOk v5.2 := MemOk.ite_snd (MemOk.pair h6) (Chip.memOk_openValue h6)
    exact MemOk.pair h7
  exact MemOk.pair h2

theorem Chip.memOk_previewLine {c : Chip} {r : ReadCanvas} {d wo line : Nat} (h : MemOk c) : MemOk (c.previewLine r d wo line) := by
  unfold Chip.previewLine
  extract_lets q1 c2 _
  have h3 : MemOk q1.2 := by
    refine MemOk.foldl_snd (fun _ _ h4 => ?_) (MemOk.pair h)
    extract_lets v5
    have h6 : MemOk v5.2 := Chip.memOk_previewPixel h4
    exact MemOk.pair h6
  have h7 : MemOk c2 := h3
  exact Chip.memOk_emit h3

theorem Chip.memOk_previewDone {c : Chip} (h : MemOk c) : MemOk c.previewDone := by
  unfold Chip.previewDone
  split
  · exact h
  · refine MemOk.ite h ?_
    extract_lets _ _ c1 _ c2 c3 _
    have h4 : MemOk c1 := MemOk.foldl (fun _ _ h5 => Chip.memOk_previewLine h5) h
    have h6 : MemOk c2 := Chip.memOk_set (Chip.memOk_set h4)
    have h7 : MemOk c3 := Chip.memOk_set (Chip.memOk_bump h6)
    exact Chip.memOk_raise (MemOk.same h7 rfl rfl)

theorem Chip.memOk_previewErr {c : Chip} (h : MemOk c) : MemOk c.previewErr := MemOk.ite h (Chip.memOk_raise (Chip.memOk_set (MemOk.same h rfl rfl)))

theorem Chip.memOk_enterLine0 {ap : ApplyRef → Chip → Chip} {c : Chip} {d : BeatDue} {at12 : Nat} (hap : ∀ x0 x1, MemOk x1 → MemOk (ap x0 x1))
    (h : MemOk c) : MemOk (Chip.enterLine0 ap c d at12) := by
  unfold Chip.enterLine0
  extract_lets _ _ _ c1 c2 c3
  have h4 : MemOk c1 := Chip.memOk_setScan h
  have h5 : MemOk c2 := Chip.memOk_setScanState (Chip.memOk_setLag h4)
  have h6 : MemOk c3 := MemOk.foldl (fun _ _ h7 => (hap _ _ h7)) h5
  exact Chip.memOk_setBoth (Chip.memOk_setBoth (Chip.memOk_setBoth h6))

theorem Chip.memOk_takeCanvas {c : Chip} {d : BeatDue} (h : MemOk c) : MemOk (c.takeCanvas d) := by
  unfold Chip.takeCanvas
  extract_lets _ _ c1 _ _ _
  have h2 : MemOk c1 := Chip.memOk_previewTake (Chip.memOk_showActive h)
  exact MemOk.ite (Chip.memOk_setScan h2) (Chip.memOk_setScanState (Chip.memOk_setScan h))

theorem Chip.memOk_passBeat {c : Chip} {d : BeatDue} (h : MemOk c) : MemOk (c.passBeat d) := by
  unfold Chip.passBeat
  split
  · exact Chip.memOk_passCanvas h
  · exact h

theorem Chip.memOk_canvasLine0 {ap : ApplyRef → Chip → Chip} {c : Chip} (hap : ∀ x0 x1, MemOk x1 → MemOk (ap x0 x1)) (h : MemOk c) :
    MemOk (Chip.canvasLine0 ap c) := by
  unfold Chip.canvasLine0
  split
  · exact h
  · refine MemOk.ite h ?_
    extract_lets _ _ c1 e2
    have h3 : MemOk c1 := Chip.memOk_advanceTo h
    have h4 : MemOk e2 := Chip.memOk_enterLine0 hap h3
    exact MemOk.ite h4 (MemOk.ite (Chip.memOk_scanLate h3) (Chip.memOk_takeCanvas (MemOk.ite (Chip.memOk_passBeat h4) h4)))

theorem Chip.memOk_lineStart {ap : ApplyRef → Chip → Chip} {c : Chip} (hap : ∀ x0 x1, MemOk x1 → MemOk (ap x0 x1)) (h : MemOk c) :
    MemOk (Chip.lineStart ap c) := by
  unfold Chip.lineStart
  extract_lets _ c1 _ c2 _ c3 c4
  have h5 : MemOk c1 := Chip.memOk_advanceTo h
  have h6 : MemOk c2 := MemOk.ite (Chip.memOk_setScanState (Chip.memOk_setScan h5)) h5
  have h7 : MemOk c3 := Chip.memOk_setScan h6
  have h8 : MemOk c4 := Chip.memOk_setBoth (Chip.memOk_setBoth h7)
  exact MemOk.ite h (MemOk.ite (Chip.memOk_scanLate h5) (hap _ _ h8))

theorem Chip.memOk_scanModeChange {c : Chip} (h : MemOk c) : MemOk c.scanModeChange := by
  unfold Chip.scanModeChange
  extract_lets _ c1
  have h2 : MemOk c1 := Chip.memOk_setScan h
  exact MemOk.ite (Chip.memOk_scanStop h2) h2

theorem Chip.memOk_tileCommit {c : Chip} (h : MemOk c) : MemOk c.tileCommit := by
  unfold Chip.tileCommit
  extract_lets _ _ c1 _ _ c2 c3
  have h4 : MemOk c1 := Chip.memOk_setScan h
  have h5 : MemOk c2 := Chip.memOk_set (Chip.memOk_set h4)
  have h6 : MemOk c3 := Chip.memOk_set h5
  exact MemOk.ite h6 (Chip.memOk_raise h6)

theorem Chip.memOk_tileAdvance {c : Chip} (h : MemOk c) : MemOk c.tileAdvance := MemOk.ite (Chip.memOk_bump h) h

theorem Chip.memOk_tiletabWrite {c : Chip} {w : Word} (h : MemOk c) : MemOk (c.tiletabWrite w) := Chip.memOk_tileAdvance (Chip.memOk_setScan h)

theorem Chip.memOk_tiletabRead {c : Chip} (h : MemOk c) : MemOk c.tiletabRead.2 := MemOk.pair (Chip.memOk_tileAdvance h)

theorem Chip.memOk_pruneJobs {c : Chip} (h : MemOk c) : MemOk c.pruneJobs := Chip.memOk_setScan h

theorem Chip.memOk_engineBStop {c : Chip} (h : MemOk c) : MemOk c.engineBStop := by
  unfold Chip.engineBStop
  extract_lets c1 _
  have h2 : MemOk c1 := MemOk.foldl (fun _ _ h3 => Chip.memOk_setPort h3) h
  exact Chip.memOk_pruneJobs (Chip.memOk_setScan h2)

theorem Chip.memOk_engineBReset {c : Chip} (h : MemOk c) : MemOk c.engineBReset := Chip.memOk_engineBStop (Chip.memOk_setScan h)

theorem Chip.memOk_keepStrip {c : Chip} {engine q n : Nat} {e : TileEntry} {k : Nat} (h : MemOk c) : MemOk (c.keepStrip engine q n e k) := by
  unfold Chip.keepStrip
  extract_lets _ _ _
  exact Chip.memOk_setScan h

theorem Chip.memOk_cellPayload {c : Chip} {j : ScanJob} {n : Nat} {e : TileEntry} {k : Nat} (h : MemOk c) : MemOk (c.cellPayload j n e k).2 := by
  unfold Chip.cellPayload
  refine MemOk.ite_snd ?_ (MemOk.foldl_snd (fun _ _ h1 => ?_) (MemOk.pair h))
  · extract_lets r2
    have h3 : MemOk r2.2 := Chip.memOk_openValue h
    exact MemOk.pair h3
  · extract_lets _ q4
    have h5 : MemOk q4.2 := Chip.memOk_canvasPixel h1
    exact MemOk.pair h5

theorem Chip.memOk_cellRead {c : Chip} {engine port : Nat} (h : MemOk c) : MemOk (c.cellRead engine port) := by
  unfold Chip.cellRead
  extract_lets _ _
  refine MemOk.ite h ?_
  split
  · exact h
  · extract_lets _ r1 _ _ _ s2 _ c3 _ c4
    have h5 : MemOk r1.2 := Chip.memOk_cellPayload h
    have h6 : MemOk s2.2 := Chip.memOk_withSeq h5
    have h7 : MemOk c3 := MemOk.foldl (fun _ _ h8 => Chip.memOk_setPort h8) h6
    have h9 : MemOk c4 := Chip.memOk_setScan h7
    exact Chip.memOk_pruneJobs (Chip.memOk_keepStrip h9)

theorem Chip.memOk_bufferFree {c : Chip} {feed buf : Nat} (h : MemOk c) : MemOk (c.bufferFree feed buf) := by
  unfold Chip.bufferFree
  extract_lets c1 _
  have h2 : MemOk c1 := Chip.memOk_pruneJobs h
  split
  · exact h2
  · exact Chip.memOk_dropCanvas h2

theorem Chip.memOk_recordPoison {c : Chip} {p : Nat} {e : PixelEntry} (h : MemOk c) : MemOk (c.recordPoison p e) := by
  unfold Chip.recordPoison
  refine MemOk.ite h ?_
  extract_lets _ c1
  have h2 : MemOk c1 := MemOk.ite h (Chip.memOk_setPort h)
  exact Chip.memOk_raise (Chip.memOk_report h2)

theorem Chip.memOk_dataReturn {c : Chip} {p : Nat} (h : MemOk c) : MemOk (c.dataReturn p) := by
  unfold Chip.dataReturn
  extract_lets _
  refine MemOk.ite h (MemOk.ite (Chip.memOk_setPort h) ?_)
  split
  · exact h
  · extract_lets _
    exact Chip.memOk_recordPoison (Chip.memOk_setPort h)

theorem Chip.memOk_underrun {c : Chip} {p : Nat} (h : MemOk c) : MemOk (c.underrun p) := by
  unfold Chip.underrun
  extract_lets _
  split
  · exact h
  · exact MemOk.ite h (Chip.memOk_setPort h)

theorem Chip.memOk_noteMargin {c : Chip} {p : Nat} {m : Int} (h : MemOk c) : MemOk (c.noteMargin p m) := by
  unfold Chip.noteMargin
  extract_lets _ _
  exact MemOk.ite (Chip.memOk_set h) h

theorem Chip.memOk_pixelSent {c : Chip} {p : Nat} {e : PixelEntry} (h : MemOk c) : MemOk (c.pixelSent p e) := by
  unfold Chip.pixelSent
  extract_lets c1 c2 _ _ c3 _ c4
  have h5 : MemOk c1 := Chip.memOk_bumpSat h
  have h6 : MemOk c2 := MemOk.ite (Chip.memOk_raise h5) h
  have h7 : MemOk c3 := Chip.memOk_set h6
  have h8 : MemOk c4 := Chip.memOk_setPort h7
  refine MemOk.ite ?_ h6
  split
  · extract_lets c9
    have h10 : MemOk c9 := Chip.memOk_noteMargin h8
    exact Chip.memOk_raise (Chip.memOk_wr h10)
  · exact Chip.memOk_setPort h7

theorem Chip.memOk_downbeatMargin {c : Chip} {p lit : Nat} (h : MemOk c) : MemOk (c.downbeatMargin p lit) := by
  unfold Chip.downbeatMargin
  extract_lets _ _ _ c1 _
  have h2 : MemOk c1 := MemOk.ite (Chip.memOk_setPort h) h
  split
  · exact Chip.memOk_noteMargin (Chip.memOk_setPort h2)
  · exact h2

end Sys2Proof.Machine
end

