-- ==== Sys2Proof/Proofs/MemFormPaths.lean ====
section
/-! PROOF. Every operation keeps the memories in canonical form, one lemma for each, in the order of the model: register writes, windows, the bus
and the paths to it, the links and bring-up. -/

namespace Sys2Proof.Machine

/-! ### Machine/PageOps -/

theorem Chip.memOk_withVectors {c : Chip} {pg : Nat} {f : Chip → Chip} (h : MemOk c) (hf : ∀ x0, MemOk x0 → MemOk (f x0)) :
    MemOk (c.withVectors pg f) := by
  unfold Chip.withVectors
  extract_lets _ c1
  have h2 : MemOk c1 := hf _ h
  exact Chip.memOk_alertFall (MemOk.foldl (fun _ _ h3 => (MemOk.ite (Chip.memOk_sendMsix h3) h3)) h2)

theorem Chip.memOk_evtForce {c : Chip} {pg : Nat} {w : Word} (h : MemOk c) : MemOk (c.evtForce pg w) := by
  unfold Chip.evtForce
  refine MemOk.ite h (MemOk.foldl (fun _ _ h1 => (MemOk.ite ?_ h1)) h)
  split
  · exact Chip.memOk_raise h1
  · exact Chip.memOk_wr h1

theorem Chip.memOk_vecEoi {c : Chip} {v : Nat} (h : MemOk c) : MemOk (c.vecEoi v) := MemOk.ite (Chip.memOk_sendMsix h) h

theorem Chip.memOk_errClear {c : Chip} {pg : Nat} {first worst count : Bool} (h : MemOk c) : MemOk (c.errClear pg first worst count) := by
  unfold Chip.errClear
  extract_lets _ c1 c2
  have h3 : MemOk c1 := MemOk.ite (Chip.memOk_wr (Chip.memOk_wr h)) h
  have h4 : MemOk c2 := MemOk.ite (Chip.memOk_wr (Chip.memOk_wr h3)) h3
  exact MemOk.ite (Chip.memOk_wr h4) h4

theorem Chip.memOk_pageStart {c : Chip} {pg : Nat} (h : MemOk c) : MemOk (c.pageStart pg) := by
  unfold Chip.pageStart
  refine MemOk.ite ?_ (MemOk.ite (Chip.memOk_cond h) (MemOk.ite (Chip.memOk_flowStart h) (MemOk.ite (MemOk.same h rfl rfl) (MemOk.ite
    (Chip.memOk_scanStart h) (MemOk.ite (MemOk.same h rfl rfl) (MemOk.ite (Chip.memOk_portRestart h) (MemOk.ite (Chip.memOk_tilerxOn h) (MemOk.ite
    (Chip.memOk_driveOn h) (MemOk.ite (Chip.memOk_redunOn h) h)))))))))
  split
  · exact Chip.memOk_latticeEntry h
  · exact h

theorem Chip.memOk_pageStop {c : Chip} {pg : Nat} (h : MemOk c) : MemOk (c.pageStop pg) := by
  unfold Chip.pageStop
  refine MemOk.ite ?_ (MemOk.ite (Chip.memOk_cond h) (MemOk.ite (Chip.memOk_chaseWithdraw (Chip.memOk_flowOff h)) (MemOk.ite
    (Chip.memOk_chaseWithdraw (Chip.memOk_dpLost h)) (MemOk.ite (Chip.memOk_mapStop h) (MemOk.ite (Chip.memOk_scanStop h) (MemOk.ite
    (Chip.memOk_engineBStop h) (MemOk.ite (Chip.memOk_set (MemOk.same h rfl rfl)) (MemOk.ite (Chip.memOk_portRestart h) (MemOk.ite
    (Chip.memOk_tilerxOff h) (MemOk.ite (Chip.memOk_driveOff h) (MemOk.ite (Chip.memOk_redunOff h) (MemOk.ite (Chip.memOk_setDrop h) h))))))))))))
  split
  · exact Chip.memOk_scanWait (Chip.memOk_generatorStop h)
  · exact h

theorem Chip.memOk_dmaReset {c : Chip} (h : MemOk c) : MemOk c.dmaReset := Chip.memOk_set (Chip.memOk_set (MemOk.same h rfl rfl))

theorem Chip.memOk_srpReset {c : Chip} (h : MemOk c) : MemOk c.srpReset := by
  unfold Chip.srpReset
  extract_lets _ _
  exact MemOk.same h rfl rfl

theorem Chip.memOk_relayReset {c : Chip} (h : MemOk c) : MemOk c.relayReset := by
  unfold Chip.relayReset
  extract_lets _ _ c1
  have h2 : MemOk c1 := MemOk.same h rfl rfl
  exact MemOk.foldl (fun _ _ h3 => (MemOk.ite (MemOk.same h3 rfl rfl) (Chip.memOk_emit h3))) h2

theorem Chip.memOk_pageReset {c : Chip} {pg : Nat} (h : MemOk c) : MemOk (c.pageReset pg) := by
  unfold Chip.pageReset
  refine MemOk.ite (MemOk.same h rfl rfl) (MemOk.ite (MemOk.same h rfl rfl) (MemOk.ite ?_ (MemOk.ite (MemOk.same h rfl rfl) (MemOk.ite
    (Chip.memOk_set (MemOk.same h rfl rfl)) (MemOk.ite (Chip.memOk_set (MemOk.same h rfl rfl)) (MemOk.ite (MemOk.ite (Chip.memOk_chaseWithdraw
    (Chip.memOk_flowStart h)) h) (MemOk.ite (Chip.memOk_dmaReset h) (MemOk.ite (Chip.memOk_chaseWithdraw (Chip.memOk_dpLost h)) (MemOk.ite
    (Chip.memOk_srpReset h) (MemOk.ite (Chip.memOk_mapRestart h) (MemOk.ite (MemOk.ite (Chip.memOk_scanStop h) h) (MemOk.ite
    (Chip.memOk_engineBReset h) (MemOk.ite (Chip.memOk_set (MemOk.same h rfl rfl)) (MemOk.ite (Chip.memOk_portRestart h) (MemOk.ite
    (Chip.memOk_relayReset h) (MemOk.ite (Chip.memOk_tilerxReset h) (MemOk.ite (Chip.memOk_driveReset h) (MemOk.ite (Chip.memOk_redunReset h)
    (MemOk.ite (Chip.memOk_mirrorReset h) (MemOk.ite (Chip.memOk_retireAll h) (MemOk.ite (MemOk.parts h rfl rfl rfl rfl rfl rfl rfl)
    h)))))))))))))))))))))
  split
  · extract_lets c1
    have h2 : MemOk c1 := Chip.memOk_scanWait (Chip.memOk_generatorStop h)
    exact MemOk.ite (Chip.memOk_latticeEntry h2) h2
  · exact h

theorem Chip.memOk_srst {c : Chip} {pg : Nat} (h : MemOk c) : MemOk (c.srst pg) := by
  unfold Chip.srst
  refine MemOk.ite h ?_
  extract_lets c1
  have h2 : MemOk c1 := Chip.memOk_set h
  exact MemOk.ite h2 (Chip.memOk_pageReset (Chip.memOk_wr (Chip.memOk_set h2)))

theorem Chip.memOk_takeShadows {c : Chip} {pg : Nat} (h : MemOk c) : MemOk (c.takeShadows pg) := by
  unfold Chip.takeShadows
  split
  · exact h
  · extract_lets _
    exact MemOk.same h rfl rfl

theorem Chip.memOk_modeCommit {c : Chip} (h : MemOk c) : MemOk c.modeCommit := by
  unfold Chip.modeCommit
  extract_lets _ c1 c2 c3 _
  have h4 : MemOk c1 := MemOk.ite (Chip.memOk_hostError h) h
  have h5 : MemOk c2 := Chip.memOk_set h4
  have h6 : MemOk c3 := Chip.memOk_latticeEntry (Chip.memOk_mapModeChange (Chip.memOk_scanModeChange h5))
  exact MemOk.ite h4 (MemOk.ite (MemOk.same h6 rfl rfl) h5)

theorem Chip.memOk_portModes {c : Chip} {old : List Nat} (h : MemOk c) : MemOk (c.portModes old) :=
  MemOk.foldl (fun _ _ h1 => (MemOk.ite h1 (Chip.memOk_portRestart h1))) h

theorem Chip.memOk_applyPage {c : Chip} {pg : Nat} (h : MemOk c) : MemOk (c.applyPage pg) := by
  unfold Chip.applyPage
  extract_lets _ c1 _ _
  have h2 : MemOk c1 := Chip.memOk_set (Chip.memOk_takeShadows h)
  split
  · exact MemOk.ite (Chip.memOk_modeCommit h2) (MemOk.ite (Chip.memOk_tabCommit h2) (MemOk.ite (Chip.memOk_tileCommit h2) (MemOk.ite
      (Chip.memOk_portModes h2) h2)))
  · exact MemOk.ite (Chip.memOk_tileShow (Chip.memOk_tempFactors (Chip.memOk_setTile h2))) (MemOk.ite (Chip.memOk_tileShow h2) (MemOk.ite
      (Chip.memOk_setTile h2) (MemOk.ite (Chip.memOk_setDrive h2) h2)))

theorem Chip.memOk_settle {c : Chip} (h : MemOk c) : MemOk c.settle := MemOk.foldl (fun _ _ h1 => (MemOk.ite h1 (Chip.memOk_applyPage h1))) h

theorem Chip.memOk_applyAt {r : ApplyRef} {c : Chip} (h : MemOk c) : MemOk (Chip.applyAt r c) := by
  unfold Chip.applyAt
  extract_lets _ _
  exact Chip.memOk_settle (MemOk.foldl (fun _ _ h1 => Chip.memOk_applyPage h1) h)

theorem Chip.memOk_srstDone {c : Chip} {pg : Nat} (h : MemOk c) : MemOk (c.srstDone pg) := Chip.memOk_settle (Chip.memOk_set h)

theorem Chip.memOk_startWaiting {c before : Chip} (h : MemOk c) : MemOk (c.startWaiting before) :=
  MemOk.foldl (fun _ _ h1 => (MemOk.ite (Chip.memOk_pageStart h1) h1)) h

/-! ### Machine/WindowOps -/

theorem Chip.memOk_autoInc {c : Chip} {auto idx : Fld} (h : MemOk c) : MemOk (c.autoInc auto idx) := MemOk.ite (Chip.memOk_bump h) h

theorem Chip.memOk_calAdvance {c : Chip} {p : Nat} (h : MemOk c) : MemOk (c.calAdvance p) := Chip.memOk_autoInc h

theorem Chip.memOk_calWrite {c : Chip} {p : Nat} {w : Word} (h : MemOk c) : MemOk (c.calWrite p w) := by
  unfold Chip.calWrite
  extract_lets _ _ c1
  have h2 : MemOk c1 := MemOk.ite h (Chip.memOk_setPort h)
  exact Chip.memOk_calAdvance h2

theorem Chip.memOk_tcAdvance {c : Chip} (h : MemOk c) : MemOk c.tcAdvance := Chip.memOk_autoInc h

theorem Chip.memOk_tcWrite {c : Chip} {w : Word} (h : MemOk c) : MemOk (c.tcWrite w) := by
  unfold Chip.tcWrite
  extract_lets _ _ c1
  have h2 : MemOk c1 := MemOk.ite h (Chip.memOk_setTile h)
  exact Chip.memOk_tcAdvance h2

theorem Chip.memOk_eotfAdvance {c : Chip} (h : MemOk c) : MemOk c.eotfAdvance := Chip.memOk_autoInc h

theorem Chip.memOk_eotfWrite {c : Chip} {w : Word} (h : MemOk c) : MemOk (c.eotfWrite w) := by
  unfold Chip.eotfWrite
  extract_lets _ _ c1
  have h2 : MemOk c1 := MemOk.ite h (Chip.memOk_setTile h)
  exact Chip.memOk_eotfAdvance h2

theorem Chip.memOk_curveAdvance {c : Chip} (h : MemOk c) : MemOk c.curveAdvance := Chip.memOk_autoInc h

theorem Chip.memOk_curveWrite {c : Chip} {lum : Bool} {w : Word} (h : MemOk c) : MemOk (c.curveWrite lum w) := by
  unfold Chip.curveWrite
  extract_lets _ _ _
  exact MemOk.ite (Chip.memOk_curveAdvance (MemOk.ite (Chip.memOk_setTile h) h)) (MemOk.ite (Chip.memOk_setTile h) h)

theorem Chip.memOk_splAdvance {c : Chip} (h : MemOk c) : MemOk c.splAdvance := Chip.memOk_autoInc h

theorem Chip.memOk_splWrite {c : Chip} {w : Word} (h : MemOk c) : MemOk (c.splWrite w) := by
  unfold Chip.splWrite
  extract_lets _ _ c1
  have h2 : MemOk c1 := MemOk.ite h (Chip.memOk_setDrive h)
  exact Chip.memOk_splAdvance h2

theorem Chip.memOk_trimAdvance {c : Chip} {n : Nat} (h : MemOk c) : MemOk (c.trimAdvance n) := by
  unfold Chip.trimAdvance
  refine MemOk.ite ?_ h
  extract_lets _
  exact Chip.memOk_set h

theorem Chip.memOk_trimWrite {c : Chip} {n : Nat} {w : Word} (h : MemOk c) : MemOk (c.trimWrite n w) := by
  unfold Chip.trimWrite
  extract_lets _ _ c1
  have h2 : MemOk c1 := MemOk.ite h (Chip.memOk_setDrive h)
  exact Chip.memOk_trimAdvance h2

theorem Chip.memOk_diagAdvance {c : Chip} (h : MemOk c) : MemOk c.diagAdvance := Chip.memOk_autoInc h

theorem Chip.memOk_readEffect {c : Chip} {addr : Nat} (h : MemOk c) : MemOk (c.readEffect addr) := by
  unfold Chip.readEffect
  extract_lets _
  exact MemOk.ite (Chip.memOk_setTsFifo h) (MemOk.ite (Chip.memOk_setTsFifo h) (MemOk.ite (Chip.memOk_tabRead h) (MemOk.ite
    (Chip.memOk_tiletabRead h) (MemOk.ite (Chip.memOk_calAdvance h) (MemOk.ite (Chip.memOk_tcAdvance h) (MemOk.ite (Chip.memOk_eotfAdvance h)
    (MemOk.ite (Chip.memOk_curveAdvance h) (MemOk.ite (Chip.memOk_trimAdvance h) (MemOk.ite (Chip.memOk_splAdvance h) (MemOk.ite
    (Chip.memOk_diagAdvance h) (MemOk.ite (Chip.memOk_listRead h) h)))))))))))

theorem Chip.memOk_readReg {c : Chip} {o : Origin} {addr : Nat} (h : MemOk c) : MemOk (c.readReg o addr).2 := by
  unfold Chip.readReg
  extract_lets c1 _ _ _ c2
  have h3 : MemOk c1 := MemOk.ite (Chip.memOk_scramble h) h
  have h4 : MemOk c2 := MemOk.same h3 rfl rfl
  exact MemOk.pair (Chip.memOk_readEffect h4)

/-! ### Machine/Bus -/

theorem Chip.memOk_relayResult {c : Chip} {r : Nat} (h : MemOk c) : MemOk (c.relayResult r) := by
  unfold Chip.relayResult
  extract_lets c1
  have h2 : MemOk c1 := Chip.memOk_set h
  exact MemOk.ite h2 (Chip.memOk_raise (Chip.memOk_bumpSat h2))

theorem Chip.memOk_relayGo {n : Nat} {c : Chip} (h : MemOk c) : MemOk (Chip.relayGo n c) := by
  induction n generalizing c with
  | zero => exact h
  | succ n ih =>
    unfold Chip.relayGo
    refine MemOk.ite h ?_
    split
    · exact h
    · extract_lets r _ c1 c2
      have h1 : MemOk c1 := MemOk.same h rfl rfl
      have h2 : MemOk c2 := Chip.memOk_sendChain h1
      exact MemOk.ite (ih (Chip.memOk_relayResult (MemOk.foldl (fun _ _ => Chip.memOk_sendChain) h1))) (MemOk.same h2 rfl rfl)

theorem Chip.memOk_relayNext {c : Chip} (h : MemOk c) : MemOk c.relayNext := Chip.memOk_relayGo h

theorem Chip.memOk_relayWrite {c : Chip} {o : Origin} {t addr : Nat} {w : Word} (h : MemOk c) : MemOk (c.relayWrite o t addr w) := by
  unfold Chip.relayWrite
  refine MemOk.ite (Chip.memOk_relayResult h) ?_
  extract_lets _ _ c1
  have h2 : MemOk c1 := MemOk.same h rfl rfl
  exact Chip.memOk_relayNext h2

theorem Chip.memOk_relayRead {c : Chip} {o : Origin} {t addr lane size : Nat} {srp : Bool} (h : MemOk c) :
    MemOk (c.relayRead o t addr lane size srp).2 := by
  unfold Chip.relayRead
  refine MemOk.ite_snd (MemOk.pair (Chip.memOk_relayResult h)) (MemOk.ite_snd (MemOk.pair (Chip.memOk_relayResult h)) ?_)
  extract_lets _ _ c1
  have h2 : MemOk c1 := MemOk.same h rfl rfl
  exact MemOk.pair (Chip.memOk_relayNext h2)

theorem Chip.memOk_setDma {c : Chip} {n : Nat} {d : DmaSt} (h : MemOk c) : MemOk (c.setDma n d) := MemOk.same h rfl rfl

theorem Chip.memOk_dmaErr {c : Chip} {n code : Nat} (h : MemOk c) : MemOk (c.dmaErr n code) := Chip.memOk_raise (Chip.memOk_set (Chip.memOk_set h))

theorem Chip.memOk_dmaStart {c : Chip} {n : Nat} (h : MemOk c) : MemOk (c.dmaStart n) := by
  unfold Chip.dmaStart
  refine MemOk.ite (Chip.memOk_dmaErr h) ?_
  extract_lets _ _ _ _ _ _
  exact MemOk.ite (Chip.memOk_dmaErr h) (MemOk.ite (Chip.memOk_raise (Chip.memOk_set h)) (Chip.memOk_set (Chip.memOk_setDma h)))

theorem Chip.memOk_debugWrite {c : Chip} {o : Origin} {w : Word} (h : MemOk c) : MemOk (c.debugWrite o w) := by
  unfold Chip.debugWrite
  extract_lets c1
  have h2 : MemOk c1 := Chip.memOk_set h
  exact MemOk.ite (Chip.memOk_setUnlock h2) h2

theorem Chip.memOk_updateCmd {c : Chip} {w : Word} (h : MemOk c) : MemOk (c.updateCmd w) := by
  have run : ∀ (b : Bool) (f : Chip → Chip), (∀ d, MemOk d → MemOk (f d)) → ∀ d, MemOk d → MemOk (if b then f d else d) :=
    fun _ f hf d hd => MemOk.ite (hf d hd) hd
  exact run _ _ (fun _ => Chip.memOk_bulkSend) _ (run _ _ (fun _ => Chip.memOk_updWrite) _ (run _ _ (fun _ => Chip.memOk_updConfirm) _
    (run _ _ (fun _ => Chip.memOk_updActivate) _ (run _ _ (fun _ => Chip.memOk_updVerify) _ (run _ _ (fun _ => Chip.memOk_updAbort) _
      (run _ _ (fun _ => Chip.memOk_updOpen) _ h))))))

theorem Chip.memOk_portEffect {c : Chip} {p off : Nat} {old w : Word} (h : MemOk c) : MemOk (c.portEffect p off old w) := by
  unfold Chip.portEffect
  refine MemOk.ite (MemOk.ite (Chip.memOk_recalStart h) h) (MemOk.ite ?_ (MemOk.ite (Chip.memOk_calWrite h) (MemOk.ite ?_ (MemOk.ite
    (Chip.memOk_showPatterns h) (MemOk.ite (MemOk.ite (Chip.memOk_injectPattern (Chip.memOk_set h)) h) h)))))
  · extract_lets _ _ c1 _
    have h2 : MemOk c1 := MemOk.ite (Chip.memOk_setPort h) h
    exact MemOk.ite h2 (Chip.memOk_retireLane h2)
  · extract_lets c3 c4
    have h5 : MemOk c3 := MemOk.ite (Chip.memOk_testOff h) h
    have h6 : MemOk c4 := MemOk.ite (MemOk.foldl (fun _ _ h7 => (Chip.memOk_set (Chip.memOk_set h7))) h5) h5
    exact MemOk.ite (Chip.memOk_showPatterns h6) h6

theorem Chip.memOk_writeEffect {c : Chip} {o : Origin} {addr : Nat} {old w : Word} (h : MemOk c) : MemOk (c.writeEffect o addr old w) := by
  unfold Chip.writeEffect
  extract_lets _ _ r1 _ _ c2 _ c3 x4 _ c5 c6
  have h7 : MemOk r1.2 := Chip.memOk_openValue h
  have h8 : MemOk c2 := MemOk.ite h (Chip.memOk_set h)
  have h9 : MemOk c3 := Chip.memOk_wr h
  have h10 : MemOk x4 := Chip.memOk_set h
  have h11 : MemOk c5 := MemOk.ite (Chip.memOk_forceRelease h) h
  have h12 : MemOk c6 := MemOk.ite (Chip.memOk_retrainStart h) h
  refine MemOk.ite (MemOk.ite (Chip.memOk_wr h) h) (MemOk.ite (MemOk.ite (MemOk.foldl (fun _ _ h13 => (MemOk.ite (Chip.memOk_wr h13) h13)) h)
    (MemOk.ite (Chip.memOk_vecEoi h) (MemOk.ite (Chip.memOk_alertFall h) h))) (MemOk.ite (Chip.memOk_fullService h) (MemOk.ite (MemOk.ite
    (Chip.memOk_deviceReset h) h) (MemOk.ite (MemOk.ite (Chip.memOk_belfryDown h) h) (MemOk.ite (MemOk.ite (MemOk.ite
    (Chip.memOk_dogRestart h7) h7) h) (MemOk.ite (Chip.memOk_maskWrite h) (MemOk.ite (Chip.memOk_judgeWarn h) (MemOk.ite (Chip.memOk_timeIncSet h)
    (MemOk.ite (Chip.memOk_timeStep h) (MemOk.ite (MemOk.ite (MemOk.same h rfl rfl) h) (MemOk.ite ?_ (MemOk.ite (Chip.memOk_launchPush h)
    (MemOk.ite (Chip.memOk_launchCancel h) (MemOk.ite (MemOk.ite (MemOk.ite (Chip.memOk_ctlTxStart h) h) (MemOk.ite (MemOk.ite
    (Chip.memOk_setOpen h) h) h)) (MemOk.ite (MemOk.ite (MemOk.ite (Chip.memOk_dmaStart h8) h8) (MemOk.ite (MemOk.ite (MemOk.ite
    (Chip.memOk_sendMsix h9) h9) h) h)) (MemOk.ite (Chip.memOk_tabWrite h) (MemOk.ite (MemOk.ite (Chip.memOk_set h) h) (MemOk.ite (MemOk.ite
    (Chip.memOk_set h) h) (MemOk.ite (Chip.memOk_tiletabWrite h) (MemOk.ite (Chip.memOk_portEffect h) (MemOk.ite (MemOk.ite
    (Chip.memOk_setOpen h) h) (MemOk.ite (MemOk.ite (Chip.memOk_set h) h) (MemOk.ite (Chip.memOk_tcWrite h) (MemOk.ite (Chip.memOk_eotfWrite h)
    (MemOk.ite (Chip.memOk_curveWrite h) (MemOk.ite (Chip.memOk_curveWrite h) (MemOk.ite (Chip.memOk_trimWrite h) (MemOk.ite
    (Chip.memOk_trimCond h) (MemOk.ite (MemOk.ite (Chip.memOk_fadeGo h) h) (MemOk.ite (Chip.memOk_splWrite h) (MemOk.ite (MemOk.ite
    (MemOk.same h10 rfl rfl) h) (MemOk.ite (MemOk.ite (Chip.memOk_clearRelease h11) h11) (MemOk.ite (MemOk.ite (Chip.memOk_mirrorFull h) h)
    (MemOk.ite (MemOk.ite (Chip.memOk_ownerWrite h) (MemOk.ite (Chip.memOk_bankRemap h) h)) (MemOk.ite (MemOk.ite (Chip.memOk_scrubNow h) h)
    (MemOk.ite (Chip.memOk_dramRemap h) (MemOk.ite (MemOk.ite (Chip.memOk_splitGo h) h) (MemOk.ite (MemOk.ite (MemOk.ite (Chip.memOk_set h) h)
    (MemOk.ite (MemOk.ite (Chip.memOk_rateRestore h12) h12) h)) (MemOk.ite (Chip.memOk_updateCmd h) (MemOk.ite (Chip.memOk_blockData h) (MemOk.ite
    (MemOk.ite (Chip.memOk_settingsSave h) h) (MemOk.ite (Chip.memOk_listWrite h) (MemOk.ite (Chip.memOk_logRead h)
    h)))))))))))))))))))))))))))))))))))))))))))
  split
  · exact Chip.memOk_showBarLock h
  · exact h

theorem Chip.memOk_ctrlWrite {c : Chip} {o : Origin} {pg : Nat} {w : Word} (h : MemOk c) : MemOk (c.ctrlWrite o pg w) := by
  unfold Chip.ctrlWrite
  refine MemOk.ite h ?_
  extract_lets _ _ _ _ c1 _ c2 c3 c4 c5 c6
  have h7 : MemOk c1 := MemOk.ite (Chip.memOk_logChange h) h
  have h8 : MemOk c2 := Chip.memOk_set (Chip.memOk_set h7)
  have h9 : MemOk c3 := MemOk.ite h8 (MemOk.ite (MemOk.ite (Chip.memOk_pageStart h8) h8) (MemOk.ite (Chip.memOk_pageStop h8) h8))
  have h10 : MemOk c4 := MemOk.ite (Chip.memOk_hostError h9) h9
  have h11 : MemOk c5 := MemOk.ite (Chip.memOk_srst h10) h10
  have h12 : MemOk c6 := MemOk.ite (Chip.memOk_set h11) h11
  exact Chip.memOk_settle h12

theorem Chip.memOk_errCtrlWrite {c : Chip} {o : Origin} {pg : Nat} {w : Word} (h : MemOk c) : MemOk (c.errCtrlWrite o pg w) := by
  unfold Chip.errCtrlWrite
  extract_lets _ c1 c2
  have h3 : MemOk c1 := MemOk.ite (Chip.memOk_logChange h) h
  have h4 : MemOk c2 := Chip.memOk_errClear h3
  exact MemOk.ite (Chip.memOk_set h4) h4

theorem Chip.memOk_headerWrite {c : Chip} {o : Origin} {pg off : Nat} {w : Word} (h : MemOk c) : MemOk (c.headerWrite o pg off w) := by
  unfold Chip.headerWrite
  extract_lets _
  exact MemOk.ite (Chip.memOk_ctrlWrite h) (MemOk.ite (Chip.memOk_noteMirror (Chip.memOk_wr h)) (MemOk.ite (MemOk.ite h (Chip.memOk_withVectors h
    (fun _ h1 => Chip.memOk_wr h1))) (MemOk.ite (MemOk.ite h (Chip.memOk_wr h)) (MemOk.ite (MemOk.ite h (Chip.memOk_evtForce
    (Chip.memOk_logChange h))) (MemOk.ite (Chip.memOk_errCtrlWrite h) h)))))

theorem Chip.memOk_sizeError {c : Chip} {addr : Nat} {changed : Bool} (h : MemOk c) : MemOk (c.sizeError addr changed) :=
  MemOk.ite (Chip.memOk_hostError (Chip.memOk_hostError h)) h

theorem Chip.memOk_blockWrite {c : Chip} {o : Origin} {addr : Nat} {d : RegDef} {w : Word} (h : MemOk c) : MemOk (c.blockWrite o addr d w) := by
  unfold Chip.blockWrite
  extract_lets _ _ _ _ c1 c2 c3 c4
  have h5 : MemOk c1 := MemOk.ite (Chip.memOk_logChange h) h
  have h6 : MemOk c2 := MemOk.ite (Chip.memOk_debugWrite h5) (MemOk.ite h5 (Chip.memOk_wr h5))
  have h7 : MemOk c3 := MemOk.ite (Chip.memOk_hostError h6) h6
  have h8 : MemOk c4 := Chip.memOk_sizeError h7
  exact Chip.memOk_settle (Chip.memOk_noteMirror (Chip.memOk_writeEffect h8))

theorem Chip.memOk_regWrite {c : Chip} {o : Origin} {addr : Nat} {w : Word} (h : MemOk c) : MemOk (c.regWrite o addr w) := by
  unfold Chip.regWrite
  split
  · exact Chip.memOk_badAccess h
  · exact h
  · exact MemOk.ite (Chip.memOk_headerWrite h) (Chip.memOk_blockWrite h)

theorem Chip.memOk_busAt {c : Chip} {w : BusWrite} {target : Nat} (h : MemOk c) : MemOk (c.busAt w target) := by
  unfold Chip.busAt
  extract_lets _ _
  refine MemOk.ite (Chip.memOk_windowWrite h) ?_
  split
  · exact Chip.memOk_badAccess h
  · refine MemOk.ite (Chip.memOk_regWrite h) ?_
    split
    · exact Chip.memOk_relayWrite (Chip.memOk_logChange h)
    · exact Chip.memOk_badAccess h

theorem Chip.memOk_busNow {c : Chip} {w : BusWrite} (h : MemOk c) : MemOk (c.busNow w) := Chip.memOk_busAt h

theorem Chip.memOk_hold {c : Chip} {h : HeldAcc} (hc : MemOk c) : MemOk (c.hold h) := MemOk.same hc rfl rfl

theorem Chip.memOk_busWrite {c : Chip} {w : BusWrite} (h : MemOk c) : MemOk (c.busWrite w) :=
  MemOk.foldl (fun _ _ h1 => (MemOk.ite (Chip.memOk_hold h1) (Chip.memOk_busNow h1))) h

theorem Chip.memOk_write32 {c : Chip} {o : Origin} {addr : Nat} {w : Word} (h : MemOk c) : MemOk (c.write32 o addr w) := Chip.memOk_busWrite h

theorem Chip.memOk_writeField {c : Chip} {o : Origin} {f : Fld} {v : Nat} (h : MemOk c) : MemOk (c.writeField o f v) := Chip.memOk_write32 h

theorem Chip.memOk_writeCtrl {c : Chip} {o : Origin} {pg : Nat} {en srst commit : Bool} (h : MemOk c) : MemOk (c.writeCtrl o pg en srst commit) :=
  MemOk.ite h (Chip.memOk_write32 h)

theorem Chip.memOk_writeCommit {c : Chip} {o : Origin} {pg : Nat} (h : MemOk c) : MemOk (c.writeCommit o pg) := Chip.memOk_writeCtrl h

theorem Chip.memOk_read32 {c : Chip} {o : Origin} {target addr : Nat} {lane : Nat} {size : Nat} {srp : Bool} (h : MemOk c) :
    MemOk (c.read32 o target addr lane size srp).2 := by
  unfold Chip.read32
  extract_lets _ r1 r2 r3
  have h4 : MemOk r1.2 := Chip.memOk_windowRead h
  have h5 : MemOk r2.2 := Chip.memOk_relayRead h
  have h6 : MemOk r3.2 := Chip.memOk_readReg h
  refine MemOk.ite_snd (MemOk.pair h4) (MemOk.ite_snd (MemOk.pair h) (MemOk.ite_snd ?_ ?_))
  · split
    · exact MemOk.pair h5
    · exact MemOk.pair h
  · split
    · exact MemOk.pair h6
    · exact MemOk.pair h

theorem Chip.memOk_deliver {c : Chip} {o : Origin} {addr data : Nat} {bad : Bool} (h : MemOk c) : MemOk (c.deliver o addr data bad) := by
  unfold Chip.deliver
  extract_lets _ c1
  have h2 : MemOk c1 := MemOk.ite (Chip.memOk_raise h) h
  exact Chip.memOk_emit h2

theorem Chip.memOk_readPart {c : Chip} {o : Origin} {target addr size : Nat} (h : MemOk c) : MemOk (c.readPart o target addr size) := by
  unfold Chip.readPart
  extract_lets r1
  have h2 : MemOk r1.2 := Chip.memOk_read32 h
  split
  · exact h2
  · exact Chip.memOk_deliver h2

theorem Chip.memOk_readNow {c : Chip} {o : Origin} {target addr size : Nat} (h : MemOk c) : MemOk (c.readNow o target addr size) := by
  unfold Chip.readNow
  extract_lets _ r1
  have h2 : MemOk r1.2 := Chip.memOk_windowRead h
  exact MemOk.ite (Chip.memOk_deliver h2) (MemOk.ite (Chip.memOk_deliver h) (MemOk.ite (Chip.memOk_readPart (Chip.memOk_readPart h))
    (Chip.memOk_readPart h)))

theorem Chip.memOk_hostRead {c : Chip} {o : Origin} {addr : Nat} {size : Nat} (h : MemOk c) : MemOk (c.hostRead o addr size) :=
  MemOk.ite (Chip.memOk_hold h) (Chip.memOk_readNow h)

theorem Chip.memOk_windowSend {c : Chip} {o : Origin} {offset n : Nat} (h : MemOk c) : MemOk (c.windowSend o offset n) := by
  unfold Chip.windowSend
  extract_lets r1
  have h2 : MemOk r1.2 := Chip.memOk_windowRead h
  exact Chip.memOk_deliver h2

theorem Chip.memOk_sramRead {c : Chip} {o : Origin} {offset n : Nat} (h : MemOk c) : MemOk (c.sramRead o offset n) :=
  MemOk.ite (Chip.memOk_hold h) (Chip.memOk_windowSend h)

theorem Chip.memOk_sramWrite {c : Chip} {offset : Nat} {bytes : List (Option Byte)} (h : MemOk c) : MemOk (c.sramWrite offset bytes) :=
  MemOk.ite (Chip.memOk_hold h) (Chip.memOk_windowWrite h)

theorem Chip.memOk_aperNow {c : Chip} {master : Nat} {write : Bool} {ofs : Nat} {bytes : List (Option Byte)} {hits : Bool} (h : MemOk c) :
    MemOk (c.aperNow master write ofs bytes hits) :=
  Chip.memOk_dramRequest h

theorem Chip.memOk_aperture {c : Chip} {master : Nat} {write : Bool} {ofs : Nat} {bytes : List (Option Byte)} {hits : Bool} (h : MemOk c) :
    MemOk (c.aperture master write ofs bytes hits) :=
  MemOk.ite (Chip.memOk_hold h) (Chip.memOk_aperNow h)

theorem Chip.memOk_heldGo {n : Nat} {c : Chip} (h : MemOk c) : MemOk (Chip.heldGo n c) := by
  induction n generalizing c with
  | zero => exact h
  | succ n ih =>
    unfold Chip.heldGo
    split
    · exact h
    · have h' : MemOk { c with host := { c.host with held := _ } } := MemOk.same h rfl rfl
      refine ih ?_
      split
      · exact Chip.memOk_busAt h'
      · exact Chip.memOk_readNow h'
      · exact Chip.memOk_windowWrite h'
      · exact Chip.memOk_windowSend h'
      · exact Chip.memOk_aperNow h'

theorem Chip.memOk_heldNext {c : Chip} (h : MemOk c) : MemOk c.heldNext := Chip.memOk_heldGo h

theorem Chip.memOk_busWrites {c : Chip} {l : List (BusWrite × Bool)} (h : MemOk c) : MemOk (c.busWrites l) :=
  MemOk.foldl (fun _ _ h1 => Chip.memOk_busWrite h1) h

theorem Chip.memOk_cycleWrites {c : Chip} {l : List BusWrite} (h : MemOk c) : MemOk (c.cycleWrites l) := by
  unfold Chip.cycleWrites
  extract_lets _ _ _ _ e1
  have h2 : MemOk e1 := Chip.memOk_busWrites (Chip.memOk_busWrites h)
  exact MemOk.ite (Chip.memOk_busWrites h) (MemOk.foldl (fun _ _ h3 => Chip.memOk_wr h3) (Chip.memOk_busWrites h))

/-! ### Machine/Boundary -/

theorem Chip.memOk_queueCommit {c : Chip} {pg : Nat} (h : MemOk c) : MemOk (c.queueCommit pg) := MemOk.ite (Chip.memOk_settle (Chip.memOk_set h)) h

theorem Chip.memOk_launchTake {c : Chip} {t : Nat} {e : LaunchEntry} (h : MemOk c) : MemOk (c.launchTake t e) := by
  unfold Chip.launchTake
  extract_lets c1 c2 c3
  have h4 : MemOk c1 := Chip.memOk_set h
  have h5 : MemOk c2 := Chip.memOk_set (Chip.memOk_set (Chip.memOk_set h4))
  have h6 : MemOk c3 := MemOk.ite (Chip.memOk_raise h5) h5
  split
  · split
    · exact Chip.memOk_cueStart h6
    · exact h6
  · exact Chip.memOk_queueCommit h6
  · exact Chip.memOk_raise h6
  · exact Chip.memOk_updActivate h6
  · exact h6

theorem Chip.memOk_launchTest {c : Chip} {t : Nat} (h : MemOk c) : MemOk (c.launchTest t).2 := by
  unfold Chip.launchTest
  extract_lets _ c1
  have h2 : MemOk c1 := MemOk.same h rfl rfl
  exact MemOk.pair (MemOk.foldl (fun _ _ h3 => Chip.memOk_launchTake h3) h2)

theorem Chip.memOk_launchApply {c : Chip} {pages : List Nat} {bar : Bool} (h : MemOk c) : MemOk (c.launchApply pages bar) := by
  unfold Chip.launchApply
  extract_lets _
  refine MemOk.foldl (fun _ _ h1 => ?_) h
  extract_lets _ _
  exact MemOk.ite (Chip.memOk_settle (Chip.memOk_applyPage h1)) h1

theorem Chip.memOk_dramUtil {c : Chip} (h : MemOk c) : MemOk c.dramUtil := by
  unfold Chip.dramUtil
  refine MemOk.foldl (fun _ _ h1 => ?_) h
  extract_lets r2 c3 r4
  have h5 : MemOk r2.2 := Chip.memOk_openValue h1
  have h6 : MemOk c3 := Chip.memOk_set h5
  have h7 : MemOk r4.2 := Chip.memOk_openValue h6
  exact Chip.memOk_set h7

theorem Chip.memOk_showDepths {c : Chip} (h : MemOk c) : MemOk c.showDepths := by
  unfold Chip.showDepths
  extract_lets _ _ c1
  have h2 : MemOk c1 := MemOk.same h rfl rfl
  exact Chip.memOk_set h2

theorem Chip.memOk_barTurn {c : Chip} (h : MemOk c) : MemOk c.barTurn := by
  unfold Chip.barTurn
  extract_lets _ c1 c2 c3
  have h4 : MemOk c1 := MemOk.same h rfl rfl
  have h5 : MemOk c2 := Chip.memOk_scanBeat h4
  have h6 : MemOk c3 := Chip.memOk_previewBar (fun _ _ h7 => Chip.memOk_applyAt h7) (Chip.memOk_applyAt h5)
  exact Chip.memOk_showDepths (Chip.memOk_dramUtil (Chip.memOk_refreshLayers (Chip.memOk_holdAtBar h6)))

theorem Chip.memOk_barBegin {c : Chip} (h : MemOk c) : MemOk c.barBegin := by
  unfold Chip.barBegin
  refine MemOk.ite h ?_
  extract_lets c1 _
  have h2 : MemOk c1 := Chip.memOk_barTurn (Chip.memOk_barStartAt h)
  exact MemOk.same h2 rfl rfl

theorem Chip.memOk_beatBegin {c : Chip} (h : MemOk c) : MemOk c.beatBegin := by
  unfold Chip.beatBegin
  refine MemOk.ite h ?_
  extract_lets _ _ c1 c2 _
  have h3 : MemOk c1 := Chip.memOk_beatStartAt h
  have h4 : MemOk c2 := Chip.memOk_scanBeat h3
  exact MemOk.same h4 rfl rfl

theorem Chip.memOk_launchChain {c : Chip} {cell lit q : Nat} (h : MemOk c) : MemOk (c.launchChain cell lit q) := by
  unfold Chip.launchChain
  extract_lets _ r1
  have h2 : MemOk r1.2 := Chip.memOk_withSeq h
  exact MemOk.foldl (fun _ _ h3 => (Chip.memOk_downbeatMargin (Chip.memOk_sendFree h3))) h2

theorem Chip.memOk_launchTiles {c : Chip} {d : Downbeat} (h : MemOk c) : MemOk (c.launchTiles d) :=
  MemOk.foldl (fun _ _ h1 => Chip.memOk_launchChain h1) h

theorem Chip.memOk_launchStack {c : Chip} {d : Downbeat} (h : MemOk c) : MemOk (c.launchStack d) := by
  unfold Chip.launchStack
  extract_lets _ r1
  have h2 : MemOk r1.2 := Chip.memOk_withSeq h
  exact MemOk.ite (Chip.memOk_sendFree h2) h

theorem Chip.memOk_stackForward {c : Chip} {cell : Nat} (h : MemOk c) : MemOk (c.stackForward cell) := by
  unfold Chip.stackForward
  extract_lets _
  exact MemOk.ite (Chip.memOk_sendRaw h) h

theorem Chip.memOk_beatFrame {c : Chip} {d : Downbeat} (h : MemOk c) : MemOk (c.beatFrame d) := by
  unfold Chip.beatFrame
  refine MemOk.ite ?_ h
  extract_lets r1
  have h2 : MemOk r1.2 := Chip.memOk_openValue h
  exact Chip.memOk_emit h2

theorem Chip.memOk_launched {c : Chip} {d : Downbeat} {t : Nat} (h : MemOk c) : MemOk (c.launched d t) := by
  unfold Chip.launched
  extract_lets c1 _ c2 r3
  have h4 : MemOk c1 := MemOk.ite (Chip.memOk_set h) h
  have h5 : MemOk c2 := MemOk.ite (Chip.memOk_raise (MemOk.same h4 rfl rfl)) h4
  have h6 : MemOk r3.2 := Chip.memOk_launchTest h5
  exact Chip.memOk_launchApply h6

theorem Chip.memOk_downbeatLaunch {c : Chip} (h : MemOk c) : MemOk c.downbeatLaunch := by
  unfold Chip.downbeatLaunch
  split
  · exact h
  · extract_lets _ c1 _ _
    have h2 : MemOk c1 := Chip.memOk_activeRise (MemOk.same h rfl rfl)
    exact Chip.memOk_launched (Chip.memOk_beatFrame (Chip.memOk_launchStack (Chip.memOk_launchTiles h2)))

theorem Chip.memOk_copyStart {c : Chip} {d : Downbeat} {at12 : Nat} (h : MemOk c) : MemOk (c.copyStart d at12) := by
  unfold Chip.copyStart
  extract_lets _ _ _ _ c1 c2 c3 c4
  have h5 : MemOk c1 := MemOk.same h rfl rfl
  have h6 : MemOk c2 := Chip.memOk_set (Chip.memOk_set h5)
  have h7 : MemOk c3 := Chip.memOk_setSlewing (Chip.memOk_set (Chip.memOk_set h6))
  have h8 : MemOk c4 := Chip.memOk_showBarLock h7
  exact MemOk.ite (Chip.memOk_barTurn h8) (Chip.memOk_scanBeat h8)

theorem Chip.memOk_copyDownbeat {c : Chip} {d : Downbeat} {dIn interval arr12 : Nat} (h : MemOk c) : MemOk (c.copyDownbeat d dIn interval arr12) := by
  unfold Chip.copyDownbeat
  extract_lets _ c1 c2 _ _ _ _ _ c3 c4
  have h5 : MemOk c1 := Chip.memOk_copyStart (Chip.memOk_advanceTo h)
  have h6 : MemOk c2 := Chip.memOk_activeRise h5
  have h7 : MemOk c3 := Chip.memOk_launchTiles (MemOk.same h6 rfl rfl)
  have h8 : MemOk c4 := by
    unfold c4
    split
    · exact Chip.memOk_set (Chip.memOk_launchStack h7)
    · exact Chip.memOk_set (Chip.memOk_set h7)
  exact Chip.memOk_launched h8

theorem Chip.memOk_expectBar {c : Chip} {d : Downbeat} {arr12 : Nat} (h : MemOk c) : MemOk (c.expectBar d arr12) := by
  unfold Chip.expectBar
  extract_lets _ _ _
  exact Chip.memOk_set (MemOk.same h rfl rfl)

theorem Chip.memOk_followMode {c : Chip} {d : Downbeat} {dIn interval arr12 : Nat} (h : MemOk c) : MemOk (c.followMode d dIn interval arr12) := by
  unfold Chip.followMode
  extract_lets _ c1 c2 _ c3
  have h4 : MemOk c1 := Chip.memOk_set h
  have h5 : MemOk c2 := Chip.memOk_settle (Chip.memOk_latticeEntry (Chip.memOk_mapModeChange (Chip.memOk_scanModeChange h4)))
  have h6 : MemOk c3 := MemOk.same h5 rfl rfl
  exact MemOk.ite (Chip.memOk_copyDownbeat h6) (Chip.memOk_expectBar h6)

theorem Chip.memOk_hearMaster {c : Chip} {d : Downbeat} (h : MemOk c) : MemOk (c.hearMaster d) := by
  unfold Chip.hearMaster
  extract_lets _ c1 _ c2
  have h3 : MemOk c1 := MemOk.same h rfl rfl
  have h4 : MemOk c2 := Chip.memOk_cond h3
  exact MemOk.ite (Chip.memOk_cond h3) (MemOk.ite h4 (Chip.memOk_raise h4))

theorem Chip.memOk_followDownbeat {c : Chip} {d : Downbeat} {dIn interval arr12 : Nat} (h : MemOk c) :
    MemOk (c.followDownbeat d dIn interval arr12) := by
  unfold Chip.followDownbeat
  refine MemOk.ite h ?_
  extract_lets c1 _ _
  have h2 : MemOk c1 := Chip.memOk_hearMaster (Chip.memOk_advanceTo h)
  exact MemOk.ite (Chip.memOk_followMode h2) (MemOk.ite (MemOk.ite (Chip.memOk_expectBar h2) (Chip.memOk_copyDownbeat h2)) (MemOk.ite (MemOk.ite
    (Chip.memOk_copyDownbeat h2) (Chip.memOk_expectBar h2)) (MemOk.ite (MemOk.same h2 rfl rfl) h2)))

theorem Chip.memOk_masterDownbeat {c : Chip} {cell ns interval : Nat} (h : MemOk c) : MemOk (c.masterDownbeat cell ns interval) := by
  unfold Chip.masterDownbeat
  extract_lets _ _ _
  exact MemOk.ite h (MemOk.ite (Chip.memOk_stackForward h) (Chip.memOk_followDownbeat (Chip.memOk_stackForward h)))

theorem Chip.memOk_beatFrameIn {c : Chip} {payload : List Byte} {ns interval : Nat} (h : MemOk c) : MemOk (c.beatFrameIn payload ns interval) := by
  unfold Chip.beatFrameIn
  extract_lets _ _ _ _ _ c1 _ c2 _
  have h3 : MemOk c1 := Chip.memOk_setRedun h
  have h4 : MemOk c2 := MemOk.ite h3 (MemOk.same h3 rfl rfl)
  exact MemOk.ite h (MemOk.ite h3 (Chip.memOk_followDownbeat h4))

theorem Chip.memOk_missDownbeat {c : Chip} (h : MemOk c) : MemOk c.missDownbeat := by
  unfold Chip.missDownbeat
  refine MemOk.ite h (MemOk.ite ?_ (MemOk.ite (Chip.memOk_stackMissed h) h))
  extract_lets _ _ _ c1 c2 c3 c4 c5
  have h6 : MemOk c1 := MemOk.same h rfl rfl
  have h7 : MemOk c2 := MemOk.ite (Chip.memOk_barTurn (Chip.memOk_barStartAt h6)) (Chip.memOk_scanBeat (Chip.memOk_beatStartAt h6))
  have h8 : MemOk c3 := Chip.memOk_advanceTo h7
  have h9 : MemOk c4 := Chip.memOk_set h8
  have h10 : MemOk c5 := MemOk.ite (Chip.memOk_set h9) h9
  exact MemOk.ite (Chip.memOk_stackMissed h10) h10

theorem Chip.memOk_modeApply {c : Chip} (h : MemOk c) : MemOk c.modeApply := MemOk.ite (Chip.memOk_settle (Chip.memOk_applyPage h)) h

theorem Chip.memOk_cueLayer {c : Chip} {rec : List Byte} {l : Nat} (h : MemOk c) : MemOk (c.cueLayer rec l) := by
  unfold Chip.cueLayer
  extract_lets c1
  have h2 : MemOk c1 := by
    refine MemOk.foldl (fun _ _ h3 => ?_) h
    extract_lets _
    split
    · exact Chip.memOk_wr h3
    · exact h3
  exact Chip.memOk_set h2

theorem Chip.memOk_cueDone {c : Chip} (h : MemOk c) : MemOk c.cueDone := by
  unfold Chip.cueDone
  split
  · exact h
  · refine MemOk.ite h ?_
    extract_lets _ r1 x2 _
    have h3 : MemOk r1.2 := Chip.memOk_cueRecord (Chip.memOk_setMap h)
    have h4 : MemOk x2 := h3
    split
    · exact Chip.memOk_raise (Chip.memOk_set (MemOk.same h3 rfl rfl))
    · extract_lets c5
      have h6 : MemOk c5 := Chip.memOk_settle (MemOk.foldl (fun _ _ h7 => Chip.memOk_cueLayer h7) h3)
      exact Chip.memOk_raise (Chip.memOk_set (Chip.memOk_set h6))

theorem Chip.memOk_tileBeat {c : Chip} (h : MemOk c) : MemOk c.tileBeat := by
  unfold Chip.tileBeat
  refine MemOk.ite h ?_
  extract_lets _ c1 c2 _ c3 c4 c5
  have h6 : MemOk c1 := Chip.memOk_beatEnter h
  have h7 : MemOk c2 := by
    unfold c2
    split
    · exact Chip.memOk_launchTest h6
    · exact h6
  have h8 : MemOk c3 := Chip.memOk_applyAt h7
  have h9 : MemOk c4 := MemOk.ite (Chip.memOk_holdAtBar (Chip.memOk_applyAt h8)) h8
  have h10 : MemOk c5 := Chip.memOk_beatShow (Chip.memOk_driveBeat h9)
  exact MemOk.ite (Chip.memOk_fadeModeChange h10) h10

/-! ### Machine/HostPaths -/

theorem Chip.memOk_unitOut {c : Chip} {sram : Bool} {b : List Byte} (h : MemOk c) : MemOk (c.unitOut sram b).2 := by
  unfold Chip.unitOut
  refine MemOk.ite_snd ?_ (MemOk.pair h)
  extract_lets v1
  have h2 : MemOk v1.2 := Chip.memOk_openValue h
  exact MemOk.pair h2

theorem Chip.memOk_dmaUnit {c : Chip} {d : DmaSt} {data : List Byte} {k : Nat} (h : MemOk c) : MemOk (c.dmaUnit d data k) := by
  unfold Chip.dmaUnit
  extract_lets _ r1 o2 o3 _ c4
  have h5 : MemOk r1.2 := MemOk.ite_snd (Chip.memOk_windowRead h) (Chip.memOk_dramFetch h)
  have h6 : MemOk o2.2 := Chip.memOk_unitOut h5
  have h7 : MemOk o3.2 := Chip.memOk_unitOut h
  have h8 : MemOk c4 := h7
  exact MemOk.ite (Chip.memOk_emit h6) (MemOk.ite (Chip.memOk_windowWrite h7) (Chip.memOk_dramWrite h7))

theorem Chip.memOk_dmaMove {c : Chip} {n units : Nat} {data : List Byte} (h : MemOk c) : MemOk (c.dmaMove n units data) := by
  unfold Chip.dmaMove
  extract_lets _
  exact MemOk.foldl (fun _ _ h1 => Chip.memOk_dmaUnit h1) h

theorem Chip.memOk_dmaIdle {c : Chip} {n : Nat} (h : MemOk c) : MemOk (c.dmaIdle n) := Chip.memOk_set (Chip.memOk_setDma h)

theorem Chip.memOk_dmaDone {c : Chip} {n : Nat} {data : List Byte} (h : MemOk c) : MemOk (c.dmaDone n data) :=
  MemOk.ite h (Chip.memOk_raise (Chip.memOk_set (Chip.memOk_dmaIdle (Chip.memOk_dmaMove h))))

theorem Chip.memOk_dmaHostError {c : Chip} {n units : Nat} {data : List Byte} (h : MemOk c) : MemOk (c.dmaHostError n units data) :=
  MemOk.ite h (Chip.memOk_dmaErr (Chip.memOk_dmaIdle (Chip.memOk_dmaMove h)))

theorem Chip.memOk_resetWords {c : Chip} {first last : Nat} (h : MemOk c) : MemOk (c.resetWords first last) := MemOk.same h rfl rfl

theorem Chip.memOk_pcieReset {c : Chip} (h : MemOk c) : MemOk c.pcieReset := by
  unfold Chip.pcieReset
  extract_lets _ c1
  have h2 : MemOk c1 := Chip.memOk_resetWords (Chip.memOk_resetWords (Chip.memOk_dmaReset h))
  exact MemOk.foldl (fun _ _ h3 => Chip.memOk_dmaErr h3) h2

theorem Chip.memOk_usb4Link {c : Chip} {gen lanes : Nat} {pcie dp usb2 : Bool} (h : MemOk c) : MemOk (c.usb4Link gen lanes pcie dp usb2) := by
  unfold Chip.usb4Link
  extract_lets _ _ _ _ _ c1 c2 c3
  have h4 : MemOk c1 := Chip.memOk_set (Chip.memOk_set h)
  have h5 : MemOk c2 := Chip.memOk_set (Chip.memOk_set (Chip.memOk_set h4))
  have h6 : MemOk c3 := MemOk.ite (Chip.memOk_pcieReset h5) h5
  exact Chip.memOk_cond (Chip.memOk_cond h6)

theorem Chip.memOk_recoveryBlock {c : Chip} {offset : Nat} {data : List Byte} (h : MemOk c) : MemOk (c.recoveryBlock offset data) := by
  unfold Chip.recoveryBlock
  refine MemOk.ite h ?_
  extract_lets _ _
  exact MemOk.same h rfl rfl

theorem Chip.memOk_ethOut {c : Chip} {path : Nat} {peer : NetPeer} {etype : Nat} {body : List Byte} (h : MemOk c) :
    MemOk (c.ethOut path peer etype body) := by
  unfold Chip.ethOut
  extract_lets _ _
  exact Chip.memOk_emit h

theorem Chip.memOk_udpOut {c : Chip} {path : Nat} {peer : NetPeer} {data : List Byte} (h : MemOk c) : MemOk (c.udpOut path peer data) := by
  unfold Chip.udpOut
  extract_lets id1 ttl2 _ _ _
  have h3 : MemOk id1.2 := Chip.memOk_openValue h
  have h4 : MemOk ttl2.2 := Chip.memOk_openValue h3
  exact Chip.memOk_ethOut h4

theorem Chip.memOk_srpAnswer {c : Chip} {j : SrpJob} (h : MemOk c) : MemOk (c.srpAnswer j) := by
  unfold Chip.srpAnswer
  extract_lets _ _ _ _ c1
  have h2 : MemOk c1 := MemOk.same h rfl rfl
  exact Chip.memOk_udpOut (Chip.memOk_bump h2)

theorem Chip.memOk_srpTake {c : Chip} {r : SrpReq} (h : MemOk c) : MemOk (c.srpTake r) := by
  unfold Chip.srpTake
  split
  · exact Chip.memOk_udpOut (MemOk.same h rfl rfl)
  · exact MemOk.same h rfl rfl

theorem Chip.memOk_srpWords {n : Nat} {c : Chip} (h : MemOk c) : MemOk (Chip.srpWords n c) := by
  induction n generalizing c with
  | zero => exact h
  | succ n ih =>
    unfold Chip.srpWords
    split
    · exact h
    · extract_lets r a _ c1 x
      have h1 : MemOk c1 := MemOk.same h rfl rfl
      have hx : MemOk x.2 := Chip.memOk_read32 h1
      refine MemOk.ite h (MemOk.ite (Chip.memOk_srpAnswer h) (MemOk.ite h (MemOk.ite (ih (Chip.memOk_write32 h1)) ?_)))
      split
      · exact hx
      · exact ih (MemOk.same hx rfl rfl)

theorem Chip.memOk_srpQueue {n : Nat} {c : Chip} (h : MemOk c) : MemOk (Chip.srpQueue n c) := by
  induction n generalizing c with
  | zero => exact h
  | succ n ih =>
    unfold Chip.srpQueue
    refine MemOk.ite (Chip.memOk_srpWords h) ?_
    split
    · exact Chip.memOk_srpWords h
    · exact ih (Chip.memOk_srpTake (MemOk.same (Chip.memOk_srpWords h) rfl rfl))

theorem Chip.memOk_srpRun {c : Chip} (h : MemOk c) : MemOk c.srpRun := Chip.memOk_srpQueue h

theorem Chip.memOk_srpArrive {c : Chip} {path : Nat} {peer : NetPeer} {l : List Byte} (h : MemOk c) : MemOk (c.srpArrive path peer l) := by
  unfold Chip.srpArrive
  refine MemOk.ite h ?_
  split
  · exact Chip.memOk_raise (Chip.memOk_bumpSat h)
  · exact Chip.memOk_srpRun (MemOk.same h rfl rfl)

theorem Chip.memOk_arpAnswer {c : Chip} {path : Nat} {peer : NetPeer} {target : Nat} (h : MemOk c) : MemOk (c.arpAnswer path peer target) :=
  MemOk.ite h (Chip.memOk_ethOut h)

theorem Chip.memOk_pathsGo {c : Chip} (h : MemOk c) : MemOk c.pathsGo := Chip.memOk_srpRun (Chip.memOk_heldNext (Chip.memOk_relayNext h))

theorem Chip.memOk_boot {c : Chip} (h : MemOk c) : MemOk c.boot := by
  unfold Chip.boot
  refine MemOk.ite h ?_
  extract_lets c1 c2
  have h3 : MemOk c1 := Chip.memOk_bootSelect h
  have h4 : MemOk c2 := Chip.memOk_when h3 (fun _ h5 => Chip.memOk_logResume h5)
  exact Chip.memOk_pathsGo (Chip.memOk_when h4 (fun _ h6 => Chip.memOk_imageStart h6))

theorem Chip.memOk_recoveryFinal {c : Chip} (h : MemOk c) : MemOk c.recoveryFinal := by
  unfold Chip.recoveryFinal
  extract_lets rd c1 c2 _
  have h2 : MemOk c2 := Chip.memOk_slotAppend (Chip.memOk_flashProgram (Chip.memOk_flashErase h))
  clear_value c2
  have h3 : MemOk { c2 with host := _ } := MemOk.same h2 rfl rfl
  exact MemOk.ite h (MemOk.ite (Chip.memOk_boot (Chip.memOk_emit h3)) (Chip.memOk_emit h))

theorem Chip.memOk_relayEnd {c : Chip} {r : RelayReq} {result : Nat} {data : Nat} (h : MemOk c) : MemOk (c.relayEnd r result data) := by
  unfold Chip.relayEnd
  extract_lets _ c1 _ c2
  have h3 : MemOk c1 := Chip.memOk_relayResult (MemOk.same h rfl rfl)
  have h4 : MemOk c2 := by
    refine MemOk.ite h3 (MemOk.ite ?_ (Chip.memOk_deliver h3))
    split
    · exact MemOk.ite h3 (MemOk.same h3 rfl rfl)
    · exact h3
  exact Chip.memOk_pathsGo h4

theorem Chip.memOk_relayResponse {c : Chip} {cell : Nat} (h : MemOk c) : MemOk (c.relayResponse cell) := by
  unfold Chip.relayResponse
  split
  · exact h
  · extract_lets _
    exact MemOk.ite (Chip.memOk_relayEnd h) h

theorem Chip.memOk_relayTimeout {c : Chip} (h : MemOk c) : MemOk c.relayTimeout := by
  unfold Chip.relayTimeout
  split
  · exact Chip.memOk_relayEnd h
  · split
    · exact Chip.memOk_relayEnd (MemOk.same h rfl rfl)
    · exact h

theorem Chip.memOk_ethFrame {c : Chip} {path sub : Nat} {f : EthFrame} (h : MemOk c) : MemOk (c.ethFrame path sub f) := by
  have ok : MemOk (c.bump (ethF F.ETH_RX_OK_COUNT path)) := Chip.memOk_bump h
  unfold Chip.ethFrame
  extract_lets counted c1
  have h1 : MemOk c1 := by
    refine MemOk.ite h ?_
    split
    · exact Chip.memOk_bump h
    · exact Chip.memOk_bump h
    · exact Chip.memOk_arpAnswer ok
    · exact Chip.memOk_srpArrive ok
    · exact MemOk.ite (Chip.memOk_raise (Chip.memOk_bump ok)) (Chip.memOk_flowPacket ok)
    · exact Chip.memOk_ringWrite h
  exact MemOk.ite (Chip.memOk_setRxStamp h1) h1

theorem Chip.memOk_monRing {c : Chip} {cell : Nat} (h : MemOk c) : MemOk (c.monRing cell) := by
  unfold Chip.monRing
  extract_lets _ _
  exact MemOk.ite (Chip.memOk_cause h) (Chip.memOk_set (Chip.memOk_dramWrite h))

theorem Chip.memOk_monAccept {c : Chip} {cell : Nat} (h : MemOk c) : MemOk (c.monAccept cell) := by
  unfold Chip.monAccept
  extract_lets _ _ c1 _ r2 _
  have h3 : MemOk c1 := Chip.memOk_dramWrite h
  have h4 : MemOk r2.2 := Chip.memOk_dramFetch h
  split
  · exact Chip.memOk_showDepths (MemOk.same h3 rfl rfl)
  · exact Chip.memOk_cause (Chip.memOk_monRing h)
  · exact MemOk.ite (Chip.memOk_cause (Chip.memOk_monRing h4)) h4
  · exact h

theorem Chip.memOk_monReceive {c : Chip} {cell : Nat} (h : MemOk c) : MemOk (c.monReceive cell) := by
  unfold Chip.monReceive
  refine MemOk.ite h ?_
  extract_lets _ _ _
  split
  · exact h
  · exact Chip.memOk_monAccept (MemOk.same h rfl rfl)

/-! ### Machine/LinkOps -/

theorem Chip.memOk_rxWord {c : Chip} {p : Nat} {lanes : List Nat} {w : Nat} {x : RawWord} (h : MemOk c) : MemOk (c.rxWord p lanes w x).1 := by
  unfold Chip.rxWord
  split
  · exact MemOk.pair_fst h
  · exact MemOk.pair_fst (Chip.memOk_bump h)
  · exact MemOk.pair_fst (Chip.memOk_cause h)

theorem Chip.memOk_rxWords {c : Chip} {p : Nat} {lanes : List Nat} {r : RawCell} (h : MemOk c) : MemOk (c.rxWords p lanes r) := by
  unfold Chip.rxWords
  extract_lets expect f a slipped x errs c1 _ c2
  have ha : MemOk a.1 := MemOk.foldl_fst (fun _ _ h => Chip.memOk_rxWord h) h
  have h2 : MemOk c2 := Chip.memOk_setPort (Chip.memOk_report ha)
  exact MemOk.ite (Chip.memOk_slip h2) h2

theorem Chip.memOk_slotPassed {c : Chip} {q : Nat} {raw : Nat → RawCell} {inserted : Bool} (h : MemOk c) : MemOk (c.slotPassed q raw inserted) := by
  unfold Chip.slotPassed
  extract_lets _ _
  exact Chip.memOk_sendCoded (Chip.memOk_setPort h)

theorem Chip.memOk_freeSlot {c : Chip} {q : Nat} {keep : Bool} (h : MemOk c) : MemOk (c.freeSlot q keep) := by
  unfold Chip.freeSlot
  extract_lets _ _
  split
  · exact Chip.memOk_slotPassed (Chip.memOk_setPort h)
  · exact Chip.memOk_slotPassed h

theorem Chip.memOk_forwardCell {c : Chip} {p : Nat} {r : RawCell} (h : MemOk c) : MemOk (c.forwardCell p r) := by
  unfold Chip.forwardCell
  extract_lets _ _ _
  exact MemOk.ite h (MemOk.ite (Chip.memOk_freeSlot h) (MemOk.ite (Chip.memOk_slotPassed h) (Chip.memOk_slotPassed h)))

theorem Chip.memOk_noteTag {c : Chip} {ring tag : Nat} (h : MemOk c) : MemOk (c.noteTag ring tag) := by
  unfold Chip.noteTag
  extract_lets _ _ _
  exact MemOk.same h rfl rfl

theorem Chip.memOk_mgmtAccess {c : Chip} {cell : Nat} (h : MemOk c) : MemOk (c.mgmtAccess cell).2 := by
  unfold Chip.mgmtAccess
  extract_lets _ r1
  have h2 : MemOk r1.2 := Chip.memOk_read32 h
  exact MemOk.ite_snd (MemOk.pair (Chip.memOk_badAccess h)) (MemOk.ite_snd (MemOk.pair (Chip.memOk_badAccess h)) (MemOk.ite_snd (MemOk.pair h2)
    (MemOk.pair (Chip.memOk_write32 h))))

theorem Chip.memOk_tileMgmt {c : Chip} {p cell : Nat} (h : MemOk c) : MemOk (c.tileMgmt p cell) := by
  unfold Chip.tileMgmt
  extract_lets _ r1 _ x2 _
  have h3 : MemOk r1.2 := Chip.memOk_mgmtAccess (Chip.memOk_noteTag h)
  have h4 : MemOk x2.2 := Chip.memOk_withSeq h3
  exact MemOk.ite h (MemOk.ite h3 (Chip.memOk_setPort h4))

theorem Chip.memOk_echoCell {c : Chip} {p cell measured : Nat} (h : MemOk c) : MemOk (c.echoCell p cell measured) := by
  unfold Chip.echoCell
  refine MemOk.ite ?_ ?_
  · extract_lets _
    exact MemOk.ite (Chip.memOk_echoMeasure (Chip.memOk_setPort h)) h
  · extract_lets x1 _
    have h2 : MemOk x1.2 := Chip.memOk_withSeq h
    exact Chip.memOk_setPort h2

theorem Chip.memOk_tollRelay {c : Chip} {p cell : Nat} (h : MemOk c) : MemOk (c.tollRelay p cell) := by
  unfold Chip.tollRelay
  extract_lets _ _
  exact MemOk.ite (Chip.memOk_setPort h) h

theorem Chip.memOk_tileUse {c : Chip} {p cell bad arrivalPs measured : Nat} (h : MemOk c) : MemOk (c.tileUse p cell bad arrivalPs measured) := by
  unfold Chip.tileUse
  split
  · exact MemOk.ite (Chip.memOk_pixelArrive h) h
  · exact MemOk.ite (Chip.memOk_tileDownbeat (fun _ h1 => Chip.memOk_obeyChanged h1) h) h
  · exact MemOk.ite (Chip.memOk_tileMgmt h) h
  · refine MemOk.ite ?_ h
    split
    · exact Chip.memOk_bulkStage h
    · exact Chip.memOk_bulkCalib h
    · exact Chip.memOk_bulkHold h
    · exact h
  · exact MemOk.ite (Chip.memOk_tollRelay h) h
  · exact MemOk.ite (Chip.memOk_echoCell h) h
  · exact h

theorem Chip.memOk_senderUse {c : Chip} {p cell measured : Nat} (h : MemOk c) : MemOk (c.senderUse p cell measured) := by
  unfold Chip.senderUse
  split
  · exact Chip.memOk_relayResponse h
  · exact MemOk.ite h (Chip.memOk_heartbeat h)
  · exact Chip.memOk_echoCell h
  · exact Chip.memOk_monReceive h
  · exact h

theorem Chip.memOk_stackUse {c : Chip} {p cell arrivalPs measured : Nat} (h : MemOk c) : MemOk (c.stackUse p cell arrivalPs measured) := by
  unfold Chip.stackUse
  split
  · exact h
  · refine MemOk.ite ?_ h
    extract_lets r1
    have h2 : MemOk r1.2 := Chip.memOk_openValue h
    exact Chip.memOk_masterDownbeat h2
  · exact Chip.memOk_echoCell h
  · exact Chip.memOk_cause h

theorem Chip.memOk_tileNow {c : Chip} {at33 : Nat} (h : MemOk c) : MemOk (c.tileNow at33) := Chip.memOk_setSched h

theorem Chip.memOk_stackPass {c : Chip} {p : Nat} {r : RawCell} (h : MemOk c) : MemOk (c.stackPass p r) := by
  unfold Chip.stackPass
  refine MemOk.ite ?_ h
  extract_lets _ _
  exact Chip.memOk_sendCoded (Chip.memOk_setPort h)

theorem Chip.memOk_badHeader {c : Chip} {p : Nat} {r : RawCell} (h : MemOk c) : MemOk (c.badHeader p r) := by
  unfold Chip.badHeader
  extract_lets c1
  have h2 : MemOk c1 := Chip.memOk_cause (Chip.memOk_bumpSat (Chip.memOk_stackPass h))
  exact MemOk.ite (Chip.memOk_raise h2) h2

theorem Chip.memOk_useCell {c : Chip} {p : Nat} {r : RawCell} {arrivalPs measured : Nat} (h : MemOk c) :
    MemOk (c.useCell p r arrivalPs measured) := by
  unfold Chip.useCell
  extract_lets _ _
  refine MemOk.ite h (MemOk.ite (Chip.memOk_badHeader h) (MemOk.ite (MemOk.ite (Chip.memOk_echoCell h) h) ?_))
  split
  · exact Chip.memOk_tileUse (Chip.memOk_tileNow h)
  · exact MemOk.ite (Chip.memOk_stackPass h) (MemOk.ite (Chip.memOk_stackUse h) (Chip.memOk_senderUse h))

theorem Chip.memOk_cellArrive {c : Chip} {p : Nat} {lanes : List Nat} {r : RawCell} {arrivalPs measured : Nat} (h : MemOk c) :
    MemOk (c.cellArrive p lanes r arrivalPs measured) := by
  unfold Chip.cellArrive
  refine MemOk.ite h ?_
  extract_lets _ c1 c2
  have h3 : MemOk c1 := Chip.memOk_rxWords h
  have h4 : MemOk c2 := by
    unfold c2
    split
    · exact Chip.memOk_forwardCell h3
    · exact h3
  exact MemOk.ite h4 (Chip.memOk_useCell h4)

theorem Chip.memOk_cellReceive {c : Chip} {p : Nat} {blocks : List LineBlock} {arrivalPs measured : Nat} (h : MemOk c) :
    MemOk (c.cellReceive p blocks arrivalPs measured) := by
  unfold Chip.cellReceive
  refine MemOk.ite h (MemOk.foldl (fun _ _ h1 => ?_) h)
  extract_lets r2
  have h3 : MemOk r2.2 := Chip.memOk_rxBlock h1
  split
  · exact Chip.memOk_cellArrive h3
  · exact h3

theorem Chip.memOk_idleArrive {c : Chip} {p : Nat} (h : MemOk c) : MemOk (c.idleArrive p) := Chip.memOk_cellReceive h

theorem Chip.memOk_tileInsert {c : Chip} {q : Nat} (h : MemOk c) : MemOk (c.tileInsert q) :=
  MemOk.ite h (MemOk.ite (Chip.memOk_freeSlot h) (MemOk.ite (Chip.memOk_idleArrive h) h))

theorem Chip.memOk_cellSlot {c : Chip} {p : Nat} (h : MemOk c) : MemOk (c.cellSlot p) := by
  unfold Chip.cellSlot
  extract_lets _
  refine MemOk.ite h (MemOk.ite ?_ (MemOk.ite h (MemOk.ite h ?_)))
  · split
    · exact MemOk.ite (Chip.memOk_sendSlot h) (Chip.memOk_sendSlot (Chip.memOk_setPort h))
    · exact Chip.memOk_sendSlot h
  · split
    · exact Chip.memOk_sendSlot h
    · split
      · exact Chip.memOk_sendSlot (Chip.memOk_setPort h)
      · exact h
    · split
      · exact Chip.memOk_sendSlot (Chip.memOk_setPort h)
      · exact h
    · split
      · exact Chip.memOk_sendSlot (Chip.memOk_setPort h)
      · exact h
    · split
      · extract_lets c1 _
        have h2 : MemOk c1 := Chip.memOk_sendSlot (Chip.memOk_setPort h)
        exact Chip.memOk_bulkSettled (Chip.memOk_setPort h2)
      · exact h
    · split
      · exact Chip.memOk_pixelSent (Chip.memOk_sendSlot (Chip.memOk_setPort h))
      · exact h

theorem Chip.memOk_bitError {c : Chip} {p l : Nat} (h : MemOk c) : MemOk (c.bitError p l) := by
  unfold Chip.bitError
  extract_lets _ _ _ c1 _ _
  have h2 : MemOk c1 := Chip.memOk_set (Chip.memOk_set h)
  exact MemOk.ite h2 (Chip.memOk_cause (Chip.memOk_setPort h2))

theorem Chip.memOk_checkBit {c : Chip} {p l : Nat} {bit : Bool} (h : MemOk c) : MemOk (c.checkBit p l bit) := by
  unfold Chip.checkBit
  extract_lets _ _ _ _ _ c1 _ _ _ _ c2
  have h3 : MemOk c1 := Chip.memOk_setPort h
  have h4 : MemOk c2 := Chip.memOk_setPort h
  exact MemOk.ite (MemOk.ite h3 (Chip.memOk_bitError h3)) (MemOk.ite (Chip.memOk_set h4) h4)

theorem Chip.memOk_testErr {c : Chip} {p l : Nat} {bits : List Bool} (h : MemOk c) : MemOk (c.testErr p l bits) :=
  MemOk.ite h (MemOk.foldl (fun _ _ h1 => Chip.memOk_checkBit h1) h)

/-! ### Machine/BringupOps -/

theorem Chip.memOk_belfryHolds {c : Chip} {b : Nat} {f : Chip → Chip} (h : MemOk c) (hf : ∀ x0, MemOk x0 → MemOk (f x0)) :
    MemOk (c.belfryHolds b f) := by
  unfold Chip.belfryHolds
  extract_lets _ c1 _ c2 _
  have h3 : MemOk c1 := Chip.memOk_retireAll h
  have h4 : MemOk c2 := Chip.memOk_retireAll (hf _ (Chip.memOk_setBank h3))
  exact Chip.memOk_setBank h4

theorem Chip.memOk_belfryWrite {c : Chip} {ofs : Nat} {bytes : List Byte} (h : MemOk c) : MemOk (c.belfryWrite ofs bytes) :=
  MemOk.foldl (fun _ _ h1 => Chip.memOk_bankWriteWord h1) h

theorem Chip.memOk_applyRecord {c : Chip} {r : SetRec} (h : MemOk c) : MemOk (c.applyRecord r) := by
  unfold Chip.applyRecord
  extract_lets _ _ _ _
  split
  · exact MemOk.foldl (fun _ _ h1 => Chip.memOk_write32 h1) h
  · exact MemOk.ite h (Chip.memOk_setPort h)
  · refine MemOk.foldl (fun _ _ h2 => ?_) h
    extract_lets _
    exact MemOk.ite (Chip.memOk_dramRemap h2) (Chip.memOk_write32 h2)
  · exact Chip.memOk_setUpd h
  · exact h

theorem Chip.memOk_settingsDefault {c : Chip} (h : MemOk c) : MemOk c.settingsDefault := Chip.memOk_logUpd (Chip.memOk_raise (Chip.memOk_set h))

theorem Chip.memOk_settingsMigrate {c : Chip} {k : Nat} {i : CopyInfo} {recs : List SetRec} (h : MemOk c) : MemOk (c.settingsMigrate k i recs) := by
  unfold Chip.settingsMigrate
  refine MemOk.ite h (MemOk.ite (Chip.memOk_when h (fun _ h1 => Chip.memOk_set h1)) ?_)
  extract_lets _ _
  exact Chip.memOk_set (Chip.memOk_setBelfry h rfl)

theorem Chip.memOk_settingsRead {c : Chip} (h : MemOk c) : MemOk c.settingsRead := by
  unfold Chip.settingsRead
  split
  · exact Chip.memOk_settingsDefault h
  · extract_lets _ _ c1 c2 c3
    have h4 : MemOk c1 := Chip.memOk_showCopy h
    have h5 : MemOk c2 := MemOk.foldl (fun _ _ h6 => Chip.memOk_applyRecord h6) h4
    have h7 : MemOk c3 := MemOk.foldl (fun _ _ h8 => Chip.memOk_applyRecord h8) h5
    exact Chip.memOk_settingsMigrate h7

theorem Chip.memOk_startBanks {c : Chip} {w h : Nat} {image : List Byte} (hc : MemOk c) : MemOk (c.startBanks w h image) := by
  unfold Chip.startBanks
  split
  · exact MemOk.foldl (fun _ _ h1 => Chip.memOk_writeField h1) hc
  · extract_lets _ _ c2 c3
    have h4 : MemOk c2 := MemOk.foldl (fun _ _ h5 => (Chip.memOk_belfryHolds h5 (fun _ h6 => Chip.memOk_belfryWrite h6))) hc
    have h7 : MemOk c3 := MemOk.ite (Chip.memOk_set (Chip.memOk_set h4)) hc
    exact MemOk.foldl (fun _ _ h8 => Chip.memOk_writeField h8) h7

theorem Chip.memOk_settingsApply {c : Chip} {timedOut : Bool} {w h : Nat} {image : List Byte} (hc : MemOk c) :
    MemOk (c.settingsApply timedOut w h image) := by
  unfold Chip.settingsApply
  refine MemOk.ite hc ?_
  extract_lets c1 c2
  have h3 : MemOk c1 := Chip.memOk_noteBroken hc
  have h4 : MemOk c2 := MemOk.ite (Chip.memOk_settingsDefault h3) (Chip.memOk_settingsRead h3)
  exact Chip.memOk_startBanks h4

theorem Chip.memOk_leaveSramCanvas {c : Chip} (h : MemOk c) : MemOk c.leaveSramCanvas := by
  unfold Chip.leaveSramCanvas
  refine MemOk.ite h ?_
  extract_lets c1 _
  have h2 : MemOk c1 := Chip.memOk_writeCommit (Chip.memOk_writeField h)
  exact Chip.memOk_setBelfry h2 rfl

theorem Chip.memOk_banksBack {c : Chip} (h : MemOk c) : MemOk c.banksBack := by
  unfold Chip.banksBack
  refine MemOk.ite h ?_
  extract_lets _ c1
  have h2 : MemOk c1 := Chip.memOk_setBelfry h rfl
  exact MemOk.foldl (fun _ _ h3 => Chip.memOk_writeField h3) h2

theorem Chip.memOk_calibLoad {c : Chip} (h : MemOk c) : MemOk c.calibLoad := by
  unfold Chip.calibLoad
  split
  · exact Chip.memOk_raise h
  · extract_lets _ _ c1 _ _ c2 _ c3 c4 c5
    have h6 : MemOk c1 := Chip.memOk_belfryHolds h (fun _ h7 => Chip.memOk_belfryWrite h7)
    have h8 : MemOk c2 := Chip.memOk_setTile h6
    have h9 : MemOk c3 := Chip.memOk_setDrive h8
    have h10 : MemOk c4 := Chip.memOk_writeField h9
    have h11 : MemOk c5 := Chip.memOk_writeCommit (Chip.memOk_writeField h10)
    exact Chip.memOk_writeCommit h11

theorem Chip.memOk_laneSets {c : Chip} (h : MemOk c) : MemOk c.laneSets := by
  unfold Chip.laneSets
  split
  · exact h
  · extract_lets _
    exact MemOk.foldl (fun _ _ h1 => Chip.memOk_applyRecord h1) h

theorem Chip.memOk_calibStart {c : Chip} (h : MemOk c) : MemOk c.calibStart := MemOk.ite (Chip.memOk_setBelfry h rfl) (Chip.memOk_calibLoad h)

theorem Chip.memOk_doseLoad {c : Chip} (h : MemOk c) : MemOk c.doseLoad := by
  unfold Chip.doseLoad
  split
  · exact Chip.memOk_raise h
  · extract_lets _ _
    exact Chip.memOk_setDrive h

theorem Chip.memOk_gainsCommit {c : Chip} {fill : Chip → Chip} (h : MemOk c) (hfill : ∀ x0, MemOk x0 → MemOk (fill x0)) :
    MemOk (c.gainsCommit fill) := by
  unfold Chip.gainsCommit
  extract_lets _ c1
  have h2 : MemOk c1 := Chip.memOk_belfryHolds h hfill
  exact Chip.memOk_writeCommit (Chip.memOk_writeField h2)

theorem Chip.memOk_ageingGains {c : Chip} (h : MemOk c) : MemOk c.ageingGains.2 := by
  unfold Chip.ageingGains
  extract_lets g1
  have h2 : MemOk g1.2 := Chip.memOk_gainsOf h
  exact MemOk.pair (Chip.memOk_gainsCommit h2 (fun _ h3 => Chip.memOk_gainsWrite h3))

theorem Chip.memOk_dailyGains {c : Chip} (h : MemOk c) : MemOk c.dailyGains := by
  unfold Chip.dailyGains
  extract_lets g1
  have h2 : MemOk g1.2 := Chip.memOk_ageingGains h
  exact Chip.memOk_noteDay h2

theorem Chip.memOk_gainUpdate {c : Chip} (h : MemOk c) : MemOk c.gainUpdate :=
  MemOk.ite h (MemOk.ite (Chip.memOk_setBelfry h rfl) (Chip.memOk_dailyGains h))

theorem Chip.memOk_loadsDue {c : Chip} (h : MemOk c) : MemOk c.loadsDue :=
  MemOk.ite h (MemOk.ite (Chip.memOk_calibLoad (Chip.memOk_setBelfry h rfl)) (MemOk.ite (Chip.memOk_dailyGains (Chip.memOk_setBelfry h rfl)) h))

theorem Chip.memOk_gainsUniform {c : Chip} (h : MemOk c) : MemOk c.gainsUniform := Chip.memOk_gainsCommit h (fun _ h1 => Chip.memOk_belfryWrite h1)

theorem Chip.memOk_doseFlushed {c : Chip} (h : MemOk c) : MemOk c.doseFlushed := by
  unfold Chip.doseFlushed
  refine MemOk.ite h ?_
  extract_lets c1 _
  have h2 : MemOk c1 := Chip.memOk_doseFlush h
  exact MemOk.ite h2 (Chip.memOk_setBelfry h2 rfl)

theorem Chip.memOk_writeDose {c : Chip} {ok1 ok2 : Bool} (h : MemOk c) : MemOk (c.writeDose ok1 ok2) := by
  unfold Chip.writeDose
  refine MemOk.ite h ?_
  extract_lets _ _ _ c1 c2
  have h3 : MemOk c1 := Chip.memOk_setBelfry h rfl
  have h4 : MemOk c2 := Chip.memOk_writeCopy h3
  exact MemOk.ite (Chip.memOk_logUpd h4) h4

theorem Chip.memOk_writeTrim {c : Chip} {ok1 ok2 : Bool} (h : MemOk c) : MemOk (c.writeTrim ok1 ok2) := by
  unfold Chip.writeTrim
  extract_lets _ _ _ _ c1
  have h2 : MemOk c1 := Chip.memOk_setDrive h
  refine MemOk.ite h ?_
  split
  · exact h
  · extract_lets _ c3
    have h4 : MemOk c3 := Chip.memOk_writeCopy h2
    exact MemOk.ite (Chip.memOk_logUpd h4) h4

theorem Chip.memOk_journalWrite {c : Chip} {area index : Nat} {ok1 ok2 : Bool} (h : MemOk c) : MemOk (c.journalWrite area index ok1 ok2) := by
  unfold Chip.journalWrite
  refine MemOk.ite h ?_
  split
  · exact Chip.memOk_writeSetArea h
  · exact MemOk.ite (Chip.memOk_commitCalib h) (Chip.memOk_writeTrim h)
  · exact MemOk.ite (Chip.memOk_writeHold h) h
  · exact Chip.memOk_writeDose h
  · exact h

theorem Chip.memOk_knellCommit {c : Chip} (h : MemOk c) : MemOk c.knellCommit := by
  unfold Chip.knellCommit
  split
  · exact Chip.memOk_writeCopyTo (Chip.memOk_setBelfry h rfl)
  · exact MemOk.ite (Chip.memOk_set (Chip.memOk_writeCopy h)) (MemOk.ite (Chip.memOk_commitCopy h) (MemOk.ite (Chip.memOk_writeCopy
      (MemOk.same h rfl rfl)) h))

theorem Chip.memOk_knellFlash {c : Chip} {outcome : Nat} (h : MemOk c) : MemOk (c.knellFlash outcome) := by
  unfold Chip.knellFlash
  refine MemOk.ite h (MemOk.ite (Chip.memOk_interruptFlash h) ?_)
  extract_lets last1 c2 _ c3
  have h4 : MemOk last1.2 := Chip.memOk_openValue h
  have h5 : MemOk c2 := Chip.memOk_cutBlock h4
  have h6 : MemOk c3 := MemOk.same h5 rfl rfl
  exact Chip.memOk_interruptFlash (MemOk.ite (Chip.memOk_knellCommit h6) h6)

theorem Chip.memOk_knellEnd {c : Chip} {completed : Bool} (h : MemOk c) : MemOk (c.knellEnd completed) := by
  unfold Chip.knellEnd
  refine MemOk.ite h ?_
  extract_lets _ d1 _
  have h2 : MemOk d1 := Chip.memOk_knellWrite (Chip.memOk_knellFlash h)
  exact Chip.memOk_pinsSince (MemOk.same h2 rfl rfl)

theorem Chip.memOk_bringupEnd {c : Chip} {n : Nat} {timedOut : Bool} {mask : Nat} (h : MemOk c) : MemOk (c.bringupEnd n timedOut mask) := by
  unfold Chip.bringupEnd
  extract_lets _ c1
  have h2 : MemOk c1 := MemOk.ite h (MemOk.ite (MemOk.ite (Chip.memOk_raise h) (Chip.memOk_calibStart (Chip.memOk_laneSets h))) (MemOk.ite
    (MemOk.ite (Chip.memOk_gainsUniform (Chip.memOk_raise (Chip.memOk_raise h))) (Chip.memOk_ageingGains (Chip.memOk_doseLoad h))) h))
  exact Chip.memOk_stepEnd h2

theorem Chip.memOk_lightNow {c : Chip} (h : MemOk c) : MemOk c.lightNow := by
  unfold Chip.lightNow
  extract_lets _
  split
  · exact Chip.memOk_reducedService h
  · exact h

/-! ### Machine/PageCmds -/

theorem Chip.memOk_errCtrl {c : Chip} {o : Origin} {page bits : Nat} (h : MemOk c) : MemOk (c.errCtrl o page bits) :=
  Chip.memOk_when h (fun _ h1 => Chip.memOk_write32 h1)

/-! ### Machine/BelfryCmds -/

theorem Chip.memOk_kick {c : Chip} {o : Origin} {value : Word} {ms : Nat} (h : MemOk c) : MemOk (c.kick o value ms) := by
  unfold Chip.kick
  extract_lets c1
  have h2 : MemOk c1 := Chip.memOk_logChange h
  exact Chip.memOk_when h2 (fun _ h3 => Chip.memOk_dogRestart h3)

/-! ### Machine/MapCmds -/

theorem Chip.memOk_window {c : Chip} {o : Origin} {addr : Nat} {write : Option Word} (h : MemOk c) : MemOk (c.window o addr write) := by
  unfold Chip.window
  split
  · exact Chip.memOk_write32 h
  · exact Chip.memOk_hostRead h

/-! ### Machine/ChainCmds -/

theorem Chip.memOk_onPort {c : Chip} {p : Nat} {f : Chip → Chip} (h : MemOk c) (hf : ∀ x0, MemOk x0 → MemOk (f x0)) : MemOk (c.onPort p f) :=
  Chip.memOk_when h hf

theorem Chip.memOk_onStream {c : Chip} {p : Nat} {f : Chip → Chip} (h : MemOk c) (hf : ∀ x0, MemOk x0 → MemOk (f x0)) : MemOk (c.onStream p f) :=
  Chip.memOk_onPort h (fun _ h1 => (Chip.memOk_obeying hf h1))

theorem Chip.memOk_queueStatus {c : Chip} (h : MemOk c) : MemOk c.queueStatus := by
  unfold Chip.queueStatus
  extract_lets _ _ _
  exact Chip.memOk_queueMonitor h

theorem Chip.memOk_injectDue {c : Chip} {p : Nat} (h : MemOk c) : MemOk (c.injectDue p) :=
  MemOk.ite h (MemOk.ite (Chip.memOk_injectPattern h) (Chip.memOk_setPort h))

/-! ### Machine/DramCmds -/

theorem Chip.memOk_onDram {c : Chip} {p : Nat} {f : Chip → Chip} (h : MemOk c) (hf : ∀ x0, MemOk x0 → MemOk (f x0)) : MemOk (c.onDram p f) :=
  Chip.memOk_when h hf

/-! ### Machine/IngestCmds -/

theorem Chip.memOk_onPath {c : Chip} {path : Nat} {f : Chip → Chip} (h : MemOk c) (hf : ∀ x0, MemOk x0 → MemOk (f x0)) : MemOk (c.onPath path f) :=
  Chip.memOk_inS h (fun _ h1 => (Chip.memOk_when h1 hf))

theorem Chip.memOk_onFlow {c : Chip} {flow : Nat} {f : Chip → Chip} (h : MemOk c) (hf : ∀ x0, MemOk x0 → MemOk (f x0)) : MemOk (c.onFlow flow f) :=
  Chip.memOk_inS h (fun _ h1 => (Chip.memOk_when h1 hf))

/-! ### Machine/MemoryCmds -/

theorem Chip.memOk_atomicOp {c : Chip} {byBelfry add : Bool} {master offset size operand : Nat} (h : MemOk c) :
    MemOk (c.atomicOp byBelfry add master offset size operand) := by
  unfold Chip.atomicOp
  refine MemOk.ite h (MemOk.ite (Chip.memOk_bankStall h) ?_)
  extract_lets r1 c2
  have h3 : MemOk r1.2 := Chip.memOk_atomicAt h
  have h4 : MemOk c2 := MemOk.ite (Chip.memOk_raise h3) h3
  exact Chip.memOk_emit h4

theorem Chip.memOk_sramFilled {c : Chip} (h : MemOk c) : MemOk c.sramFilled := Chip.memOk_pathsGo (Chip.memOk_startWaiting (Chip.memOk_sramFill h))

theorem Chip.memOk_dramFilled {c : Chip} (h : MemOk c) : MemOk c.dramFilled := by
  unfold Chip.dramFilled
  refine MemOk.ite h ?_
  extract_lets f1
  have h2 : MemOk f1 := Chip.memOk_dramFill h
  exact Chip.memOk_when h2 (fun _ h3 => (Chip.memOk_leaveSramCanvas (Chip.memOk_startWaiting h3)))

/-! ### Machine/RedunCmds -/

theorem Chip.memOk_sideband {c : Chip} {typ : Nat} {payload : List Byte} {ns interval measured : Nat} (h : MemOk c) :
    MemOk (c.sideband typ payload ns interval measured) := by
  unfold Chip.sideband
  split
  · exact Chip.memOk_heartbeat h
  · exact Chip.memOk_beatFrameIn h
  · exact Chip.memOk_sbEcho h
  · exact Chip.memOk_epochData h
  · exact MemOk.ite (Chip.memOk_setMirror h) h
  · exact h

theorem Chip.memOk_mirrorWrites {items : List SetItem} {c : Chip} (h : MemOk c) : MemOk (Chip.mirrorWrites items c) := by
  unfold Chip.mirrorWrites
  extract_lets c1
  have h2 : MemOk c1 := MemOk.foldl (fun _ _ h3 => (MemOk.foldl (fun _ _ h4 => Chip.memOk_write32 h4) h3)) h
  exact MemOk.foldl (fun _ _ h5 => Chip.memOk_writeCommit h5) h2

/-! ### Machine/IdleOps -/

theorem Chip.memOk_idleStep {c : Chip} (h : MemOk c) : MemOk c.idleStep :=
  Chip.memOk_when (Chip.memOk_dramSlots (Chip.memOk_ticks h)) (fun _ h1 => (Chip.memOk_logTake (Chip.memOk_banksBack (Chip.memOk_leaveSramCanvas
    (Chip.memOk_loadsDue h1)))))

end Sys2Proof.Machine
end

