-- ==== Sys2Proof/Proofs/MemFormCommands.lean ====
section
/-! PROOF. Every command answers, leaves the queue and keeps the memories in canonical form: one lemma over the constructors of Instr. -/

namespace Sys2Proof.Machine

/-- The answer is a next state with the same queue, whose memories are in canonical form where those of `s` are. -/
def KeepsMem (s : State) (a : Answer) : Prop := ∃ t, a = .next t ∧ t.pending = s.pending ∧ (MemOk s.chip → MemOk t.chip)

theorem KeepsMem.next {s : State} {c : Chip} (h : MemOk s.chip → MemOk c) : KeepsMem s (.next { s with chip := c }) := ⟨_, rfl, rfl, h⟩

theorem KeepsMem.unless {s : State} {f : Chip → Chip} (b : Bool) (hf : ∀ c, MemOk c → MemOk (f c)) :
    KeepsMem s (.next (if b then s else { s with chip := f s.chip })) := by
  cases b with
  | true => exact ⟨s, rfl, rfl, id⟩
  | false => exact KeepsMem.next (hf s.chip)

theorem KeepsMem.live {s : State} {f : Chip → Chip} (hf : ∀ c, MemOk c → MemOk (f c)) : KeepsMem s (live s f) := KeepsMem.unless _ hf

theorem KeepsMem.serve {s : State} {f : Chip → Chip} (hf : ∀ c, MemOk c → MemOk (f c)) : KeepsMem s (serve s f) := KeepsMem.unless _ hf

theorem KeepsMem.serveFor {s : State} {o : Origin} {f : Chip → Chip} (hf : ∀ c, MemOk c → MemOk (f c)) : KeepsMem s (serveFor o s f) :=
  KeepsMem.serve (fun _ h => Chip.memOk_when h hf)

theorem KeepsMem.awake {s : State} {f : Chip → Chip} (hf : ∀ c, MemOk c → MemOk (f c)) : KeepsMem s (awake s f) := KeepsMem.unless _ hf

theorem KeepsMem.powered {s : State} {f : Chip → Chip} (hf : ∀ c, MemOk c → MemOk (f c)) : KeepsMem s (powered s f) := KeepsMem.unless _ hf

/-! ### The commands -/

/-- With the clocks stopped the sample goes to the knell's sequencer, else to the sensors. -/
theorem keepsMem_execSensorSample {raws : List Int} (s : State) : KeepsMem s (execSensorSample raws s) := by
  unfold execSensorSample
  split
  · exact KeepsMem.next Chip.memOk_hotSample
  · exact KeepsMem.serve (fun _ h => Chip.memOk_knellStart (Chip.memOk_sensorSample (Chip.memOk_noteHot h)))

theorem keepsMem_execConsoleCommand {op : ConsoleOp} (s : State) : KeepsMem s (execConsoleCommand op s) :=
  KeepsMem.serve (fun _ h => Chip.memOk_when h (fun _ h1 => by
    cases op with
    | readReg a => exact Chip.memOk_hostRead h1
    | writeReg a d => exact Chip.memOk_write32 h1
    | other => exact h1))

theorem keepsMem_execSidebandFrameReceive {bytes : List Byte} {ns interval measured : Nat} (s : State) :
    KeepsMem s (execSidebandFrameReceive bytes ns interval measured s) :=
  KeepsMem.live (fun _ h => Chip.memOk_inS h (fun _ h1 => by
    split
    · exact Chip.memOk_bumpSat h1
    · exact Chip.memOk_sideband h1))

theorem keepsMem_execRegisterWrite {w : BusWrite} {same : List BusWrite} (s : State) : KeepsMem s (execRegisterWrite w same s) :=
  KeepsMem.serve (fun _ h => Chip.memOk_cycleWrites h)

theorem keepsMem_execPageEnable {o : Origin} {page : Nat} (s : State) : KeepsMem s (execPageEnable o page s) :=
  KeepsMem.serveFor (fun _ h => Chip.memOk_writeCtrl h)

theorem keepsMem_execPageDisable {o : Origin} {page : Nat} (s : State) : KeepsMem s (execPageDisable o page s) :=
  KeepsMem.serveFor (fun _ h => Chip.memOk_writeCtrl h)

theorem keepsMem_execCommit {o : Origin} {page : Nat} (s : State) : KeepsMem s (execCommit o page s) :=
  KeepsMem.serveFor (fun _ h => Chip.memOk_writeCommit h)

theorem keepsMem_execApplyPoint {ref : ApplyRef} (s : State) : KeepsMem s (execApplyPoint ref s) := KeepsMem.live (fun _ h => Chip.memOk_applyAt h)

theorem keepsMem_execSrst {o : Origin} {page : Nat} (s : State) : KeepsMem s (execSrst o page s) :=
  KeepsMem.serveFor (fun _ h => Chip.memOk_writeCtrl h)

theorem keepsMem_execSrstComplete {page : Nat} (s : State) : KeepsMem s (execSrstComplete page s) :=
  KeepsMem.live (fun _ h => Chip.memOk_when h (fun _ h1 => (Chip.memOk_srpRun (Chip.memOk_heldNext (Chip.memOk_srstDone h1)))))

theorem keepsMem_execEvtForce {o : Origin} {page : Nat} {bits : Word} (s : State) : KeepsMem s (execEvtForce o page bits s) :=
  KeepsMem.serveFor (fun _ h => Chip.memOk_when h (fun _ h1 => (Chip.memOk_write32 h1)))

theorem keepsMem_execVecEoi {o : Origin} {vector : Nat} (s : State) : KeepsMem s (execVecEoi o vector s) :=
  KeepsMem.serveFor (fun _ h => Chip.memOk_write32 h)

theorem keepsMem_execMsixUnmask {o : Origin} {vector : Nat} (s : State) : KeepsMem s (execMsixUnmask o vector s) :=
  KeepsMem.serveFor (fun _ h => Chip.memOk_when h (fun _ h1 => (Chip.memOk_writeField h1)))

theorem keepsMem_execAlertNRelease (s : State) : KeepsMem s (execAlertNRelease s) :=
  KeepsMem.live (fun _ h => Chip.memOk_when h (fun _ h1 => (Chip.memOk_driveAlert h1)))

theorem keepsMem_execClrFirst {o : Origin} {page : Nat} (s : State) : KeepsMem s (execClrFirst o page s) :=
  KeepsMem.serveFor (fun _ h => Chip.memOk_errCtrl h)

theorem keepsMem_execClrWorst {o : Origin} {page : Nat} (s : State) : KeepsMem s (execClrWorst o page s) :=
  KeepsMem.serveFor (fun _ h => Chip.memOk_errCtrl h)

theorem keepsMem_execClrCount {o : Origin} {page : Nat} (s : State) : KeepsMem s (execClrCount o page s) :=
  KeepsMem.serveFor (fun _ h => Chip.memOk_errCtrl h)

theorem keepsMem_execFlipArm {o : Origin} {page : Nat} (s : State) : KeepsMem s (execFlipArm o page s) :=
  KeepsMem.serveFor (fun _ h => Chip.memOk_errCtrl h)

theorem keepsMem_execUsb4LinkChange {gen lanes : Nat} {pcie dp usb2 : Bool} (s : State) : KeepsMem s (execUsb4LinkChange gen lanes pcie dp usb2 s) :=
  KeepsMem.live (fun _ h => Chip.memOk_usb4Link h)

theorem keepsMem_execPcieErr (s : State) : KeepsMem s (execPcieErr s) := KeepsMem.live (fun _ h => Chip.memOk_raise h)

theorem keepsMem_execDmaStart {o : Origin} {channel : Nat} (s : State) : KeepsMem s (execDmaStart o channel s) :=
  KeepsMem.serveFor (fun _ h => Chip.memOk_when h (fun _ h1 => (Chip.memOk_writeField h1)))

theorem keepsMem_execDmaDone {channel : Nat} {hostData : List Byte} (s : State) : KeepsMem s (execDmaDone channel hostData s) :=
  KeepsMem.live (fun _ h => Chip.memOk_when h (fun _ h1 => (Chip.memOk_dmaDone h1)))

theorem keepsMem_execDmaHostError {channel units : Nat} {hostData : List Byte} (s : State) : KeepsMem s (execDmaHostError channel units hostData s) :=
  KeepsMem.live (fun _ h => Chip.memOk_when h (fun _ h1 => (Chip.memOk_dmaHostError h1)))

theorem keepsMem_execDpStreamFrame {f : DpFrame} (s : State) : KeepsMem s (execDpStreamFrame f s) :=
  KeepsMem.live (fun _ h => Chip.memOk_inS h (fun _ h1 => (Chip.memOk_sourcesMoved (Chip.memOk_dpFrame h1))))

theorem keepsMem_execDpFormat {f : DpFormat} (s : State) : KeepsMem s (execDpFormat f s) :=
  KeepsMem.live (fun _ h => Chip.memOk_inS h (fun _ h1 => (Chip.memOk_refreshLayers (Chip.memOk_when (Chip.memOk_dpFormat h1) (fun _ h2 =>
    (Chip.memOk_chaseWithdraw h2))))))

theorem keepsMem_execDpLost (s : State) : KeepsMem s (execDpLost s) :=
  KeepsMem.live (fun _ h => Chip.memOk_inS h (fun _ h1 => (Chip.memOk_refreshLayers (Chip.memOk_chaseWithdraw (Chip.memOk_dpLost h1)))))

theorem keepsMem_execDpLock {f : DpFormat} (s : State) : KeepsMem s (execDpLock f s) :=
  KeepsMem.live (fun _ h => Chip.memOk_inS h (fun _ h1 => (Chip.memOk_refreshLayers (Chip.memOk_dpLock h1))))

theorem keepsMem_execRecoveryBlock {offset : Nat} {data : List Byte} (s : State) : KeepsMem s (execRecoveryBlock offset data s) :=
  KeepsMem.serve (fun _ h => Chip.memOk_recoveryBlock h)

theorem keepsMem_execRecoveryFinal (s : State) : KeepsMem s (execRecoveryFinal s) := KeepsMem.serve (fun _ h => Chip.memOk_recoveryFinal h)

theorem keepsMem_execSrpRequest {path : Nat} {peer : NetPeer} {datagram : List Byte} (s : State) : KeepsMem s (execSrpRequest path peer datagram s) :=
  KeepsMem.live (fun _ h => Chip.memOk_inS h (fun _ h1 => (Chip.memOk_when h1 (fun _ h2 => (Chip.memOk_srpArrive h2)))))

theorem keepsMem_execArpRequest {path : Nat} {peer : NetPeer} {target : Nat} (s : State) : KeepsMem s (execArpRequest path peer target s) :=
  KeepsMem.live (fun _ h => Chip.memOk_inS h (fun _ h1 => (Chip.memOk_when h1 (fun _ h2 => (Chip.memOk_arpAnswer h2)))))

theorem keepsMem_execRelayRead {o : Origin} {a : ReadAcc} (s : State) : KeepsMem s (execRelayRead o a s) :=
  KeepsMem.serveFor (fun _ h => Chip.memOk_hostRead h)

theorem keepsMem_execRelayWrite {o : Origin} {addr : Nat} {data : Word} (s : State) : KeepsMem s (execRelayWrite o addr data s) :=
  KeepsMem.serveFor (fun _ h => Chip.memOk_write32 h)

theorem keepsMem_execRelayResponse {cell : Nat} (s : State) : KeepsMem s (execRelayResponse cell s) :=
  KeepsMem.live (fun _ h => Chip.memOk_relayResponse h)

theorem keepsMem_execRelayTimeout (s : State) : KeepsMem s (execRelayTimeout s) := KeepsMem.live (fun _ h => Chip.memOk_relayTimeout h)

theorem keepsMem_execJtagRegisterAccess {write : Bool} {addr : Nat} {data : Word} (s : State) : KeepsMem s (execJtagRegisterAccess write addr data
    s) :=
  KeepsMem.awake (fun _ h => MemOk.ite (Chip.memOk_write32 h) (Chip.memOk_hostRead h))

theorem keepsMem_execWideValueLowRead {o : Origin} {a : ReadAcc} (s : State) : KeepsMem s (execWideValueLowRead o a s) :=
  KeepsMem.serveFor (fun _ h => Chip.memOk_hostRead h)

theorem keepsMem_execTimeWrap (s : State) : KeepsMem s (execTimeWrap s) := KeepsMem.live (fun _ h => Chip.memOk_ticks h)

theorem keepsMem_execTimeIncWrite {o : Origin} {inc : Word} (s : State) : KeepsMem s (execTimeIncWrite o inc s) :=
  KeepsMem.serveFor (fun _ h => Chip.memOk_write32 h)

theorem keepsMem_execTimeAdj {o : Origin} {adj : Word} (s : State) : KeepsMem s (execTimeAdj o adj s) :=
  KeepsMem.serveFor (fun _ h => Chip.memOk_write32 h)

theorem keepsMem_execPtpTimestampCapture {path dir msgType seqId ticks frac : Nat} (s : State) : KeepsMem s (execPtpTimestampCapture path dir
    msgType seqId ticks frac s) :=
  KeepsMem.live (fun _ h => Chip.memOk_when (Chip.memOk_ticks h) (fun _ h1 => (Chip.memOk_tsCapture h1)))

theorem keepsMem_execTsPop {o : Origin} {path : Nat} (s : State) : KeepsMem s (execTsPop o path s) :=
  KeepsMem.serveFor (fun _ h => Chip.memOk_when h (fun _ h1 => (Chip.memOk_hostRead h1)))

theorem keepsMem_execTsFlush {o : Origin} (s : State) : KeepsMem s (execTsFlush o s) := KeepsMem.serveFor (fun _ h => Chip.memOk_writeField h)

theorem keepsMem_execBarStart (s : State) : KeepsMem s (execBarStart s) := KeepsMem.live (fun _ h => Chip.memOk_barBegin h)

theorem keepsMem_execBeatStart (s : State) : KeepsMem s (execBeatStart s) := KeepsMem.live (fun _ h => Chip.memOk_beatBegin h)

theorem keepsMem_execRefInEdge {ns : Nat} (s : State) : KeepsMem s (execRefInEdge ns s) :=
  KeepsMem.live (fun _ h => Chip.memOk_inS h (fun _ h1 => (Chip.memOk_refEdge h1)))

theorem keepsMem_execRefInLoss (s : State) : KeepsMem s (execRefInLoss s) :=
  KeepsMem.live (fun _ h => Chip.memOk_inS h (fun _ h1 => (Chip.memOk_refLoss h1)))

theorem keepsMem_execDownbeatLaunch (s : State) : KeepsMem s (execDownbeatLaunch s) :=
  KeepsMem.live (fun _ h => Chip.memOk_inS h (fun _ h1 => (Chip.memOk_downbeatLaunch h1)))

theorem keepsMem_execModeChangeApply (s : State) : KeepsMem s (execModeChangeApply s) := KeepsMem.live (fun _ h => Chip.memOk_modeApply h)

theorem keepsMem_execEchoSend {port : Nat} (s : State) : KeepsMem s (execEchoSend port s) :=
  KeepsMem.live (fun _ h => Chip.memOk_when h (fun _ h1 => (Chip.memOk_echoSend h1)))

theorem keepsMem_execEchoFail {port : Nat} (s : State) : KeepsMem s (execEchoFail port s) :=
  KeepsMem.live (fun _ h => Chip.memOk_when h (fun _ h1 => (Chip.memOk_cause (Chip.memOk_setPort h1))))

theorem keepsMem_execTileBeatStart (s : State) : KeepsMem s (execTileBeatStart s) :=
  KeepsMem.live (fun _ h => Chip.memOk_inT h (fun _ h1 => (Chip.memOk_lightNow (Chip.memOk_tileBeat h1))))

theorem keepsMem_execDbMissing (s : State) : KeepsMem s (execDbMissing s) :=
  KeepsMem.live (fun _ h => Chip.memOk_obeying (fun _ h1 => (Chip.memOk_dbMissing h1)) h)

theorem keepsMem_execFlyBarsExpire (s : State) : KeepsMem s (execFlyBarsExpire s) :=
  KeepsMem.live (fun _ h => Chip.memOk_inT h (fun _ h1 => (Chip.memOk_flyExpire h1)))

theorem keepsMem_execLaunchPush {o : Origin} {word : Word} (s : State) : KeepsMem s (execLaunchPush o word s) :=
  KeepsMem.serveFor (fun _ h => Chip.memOk_write32 h)

theorem keepsMem_execLaunchCancelAll {o : Origin} (s : State) : KeepsMem s (execLaunchCancelAll o s) :=
  KeepsMem.serveFor (fun _ h => Chip.memOk_write32 h)

theorem keepsMem_execLaunchCancelTag {o : Origin} {tag : Nat} (s : State) : KeepsMem s (execLaunchCancelTag o tag s) :=
  KeepsMem.serveFor (fun _ h => Chip.memOk_write32 h)

theorem keepsMem_execCueLoadDone (s : State) : KeepsMem s (execCueLoadDone s) :=
  KeepsMem.live (fun _ h => Chip.memOk_inS h (fun _ h1 => (Chip.memOk_cueDone h1)))

theorem keepsMem_execMasterDownbeatArrive {cell ns interval : Nat} (s : State) : KeepsMem s (execMasterDownbeatArrive cell ns interval s) :=
  KeepsMem.live (fun _ h => Chip.memOk_masterDownbeat h)

theorem keepsMem_execStackMiss (s : State) : KeepsMem s (execStackMiss s) :=
  KeepsMem.live (fun _ h => Chip.memOk_when h (fun _ h1 => (Chip.memOk_missDownbeat h1)))

theorem keepsMem_execEthLinkChange {path : Nat} {link localFault remoteFault : Bool} {subUp fecLock : Nat} (s : State) : KeepsMem s
    (execEthLinkChange path link localFault remoteFault subUp fecLock s) :=
  KeepsMem.live (fun _ h => Chip.memOk_onPath h (fun _ h1 => (Chip.memOk_ethLink h1)))

theorem keepsMem_execEthFrameReceive {path sub : Nat} {f : EthFrame} (s : State) : KeepsMem s (execEthFrameReceive path sub f s) :=
  KeepsMem.live (fun _ h => Chip.memOk_onPath h (fun _ h1 => (Chip.memOk_sourcesMoved (Chip.memOk_ethFrame h1))))

theorem keepsMem_execEthFecUncorr {path frames : Nat} (s : State) : KeepsMem s (execEthFecUncorr path frames s) :=
  KeepsMem.live (fun _ h => Chip.memOk_onPath h (fun _ h1 => (Chip.memOk_fecUncorr h1)))

theorem keepsMem_execGapWaitExpire {flow : Nat} (s : State) : KeepsMem s (execGapWaitExpire flow s) :=
  KeepsMem.live (fun _ h => Chip.memOk_onFlow h (fun _ h1 => (Chip.memOk_gapExpire h1)))

theorem keepsMem_execFlowStop {flow : Nat} (s : State) : KeepsMem s (execFlowStop flow s) :=
  KeepsMem.live (fun _ h => Chip.memOk_onFlow h (fun _ h1 => (Chip.memOk_when h1 (fun _ h2 => (Chip.memOk_refreshLayers (Chip.memOk_chaseWithdraw
    (Chip.memOk_flowStop h2)))))))

theorem keepsMem_execPathLoss {flow path : Nat} (s : State) : KeepsMem s (execPathLoss flow path s) :=
  KeepsMem.live (fun _ h => Chip.memOk_onFlow h (fun _ h1 => (Chip.memOk_when h1 (fun _ h2 => (Chip.memOk_pathLoss h2)))))

theorem keepsMem_execHoldExpire {flow : Nat} (s : State) : KeepsMem s (execHoldExpire flow s) :=
  KeepsMem.live (fun _ h => Chip.memOk_onFlow h (fun _ h1 => (Chip.memOk_refreshLayers (Chip.memOk_holdExpire h1))))

theorem keepsMem_execCtlTxGo {o : Origin} {path sub len : Nat} (s : State) : KeepsMem s (execCtlTxGo o path sub len s) :=
  KeepsMem.serveFor (fun _ h => Chip.memOk_onPath h (fun _ h1 => (Chip.memOk_write32 h1)))

theorem keepsMem_execCtlTxDone {path : Nat} (s : State) : KeepsMem s (execCtlTxDone path s) :=
  KeepsMem.live (fun _ h => Chip.memOk_onPath h (fun _ h1 => (Chip.memOk_ctlTxDone h1)))

theorem keepsMem_execCanvasRelease (s : State) : KeepsMem s (execCanvasRelease s) :=
  KeepsMem.live (fun _ h => Chip.memOk_assignTasks (Chip.memOk_bindWaiting (Chip.memOk_beginCanvas (fun _ _ h1 => (Chip.memOk_applyAt h1))
    (Chip.memOk_releaseCanvas (fun _ _ h2 => (Chip.memOk_applyAt h2)) h))))

theorem keepsMem_execBandDispatch (s : State) : KeepsMem s (execBandDispatch s) :=
  KeepsMem.live (fun _ h => Chip.memOk_assignTasks (Chip.memOk_nextBand (fun _ _ h1 => (Chip.memOk_applyAt h1)) h))

theorem keepsMem_execBandChaseReady (s : State) : KeepsMem s (execBandChaseReady s) := KeepsMem.live (fun _ h => Chip.memOk_chaseReady h)

theorem keepsMem_execCanvasBufferFree {feed buf : Nat} (s : State) : KeepsMem s (execCanvasBufferFree feed buf s) :=
  KeepsMem.live (fun _ h => Chip.memOk_bufferFree h)

theorem keepsMem_execMapTaskComplete {engine : Nat} {upsets : List (Nat × Nat)} (s : State) : KeepsMem s (execMapTaskComplete engine upsets s) :=
  KeepsMem.live (fun _ h => Chip.memOk_taskComplete h)

theorem keepsMem_execBandComplete {ticks : Nat} (s : State) : KeepsMem s (execBandComplete ticks s) :=
  KeepsMem.live (fun _ h => Chip.memOk_bandComplete (fun _ _ h1 => (Chip.memOk_applyAt h1)) (Chip.memOk_ticks h))

theorem keepsMem_execCanvasLate (s : State) : KeepsMem s (execCanvasLate s) := KeepsMem.live (fun _ h => Chip.memOk_canvasLate h)

theorem keepsMem_execMapctlTabData {o : Origin} {write : Option Word} (s : State) : KeepsMem s (execMapctlTabData o write s) :=
  KeepsMem.serveFor (fun _ h => Chip.memOk_window h)

theorem keepsMem_execLeadMinClr {o : Origin} (s : State) : KeepsMem s (execLeadMinClr o s) := KeepsMem.serveFor (fun _ h => Chip.memOk_writeField h)

theorem keepsMem_execScanLineStart (s : State) : KeepsMem s (execScanLineStart s) :=
  KeepsMem.live (fun _ h => Chip.memOk_lineStart (fun _ _ h1 => (Chip.memOk_applyAt h1)) h)

theorem keepsMem_execScanCanvasLine0 (s : State) : KeepsMem s (execScanCanvasLine0 s) :=
  KeepsMem.live (fun _ h => Chip.memOk_lightNow (Chip.memOk_canvasLine0 (fun _ _ h1 => (Chip.memOk_applyAt h1)) h))

theorem keepsMem_execScanCellRead {engine port : Nat} (s : State) : KeepsMem s (execScanCellRead engine port s) :=
  KeepsMem.live (fun _ h => Chip.memOk_when h (fun _ h1 => (Chip.memOk_cellRead h1)))

theorem keepsMem_execScanDataReturn {port : Nat} (s : State) : KeepsMem s (execScanDataReturn port s) :=
  KeepsMem.live (fun _ h => Chip.memOk_inS h (fun _ h1 => (Chip.memOk_when h1 (fun _ h2 => (Chip.memOk_dataReturn h2)))))

theorem keepsMem_execUnderrunWaitExpire {port : Nat} (s : State) : KeepsMem s (execUnderrunWaitExpire port s) :=
  KeepsMem.live (fun _ h => Chip.memOk_inS h (fun _ h1 => (Chip.memOk_when h1 (fun _ h2 => (Chip.memOk_underrun h2)))))

theorem keepsMem_execTiletabData {o : Origin} {write : Option Word} (s : State) : KeepsMem s (execTiletabData o write s) :=
  KeepsMem.serveFor (fun _ h => Chip.memOk_window h)

theorem keepsMem_execPortMarginClr {o : Origin} {port : Nat} (s : State) : KeepsMem s (execPortMarginClr o port s) :=
  KeepsMem.serveFor (fun _ h => Chip.memOk_when h (fun _ h1 => (Chip.memOk_writeField h1)))

theorem keepsMem_execPreviewDone (s : State) : KeepsMem s (execPreviewDone s) :=
  KeepsMem.live (fun _ h => Chip.memOk_inS h (fun _ h1 => (Chip.memOk_previewDone h1)))

theorem keepsMem_execPreviewErr (s : State) : KeepsMem s (execPreviewErr s) :=
  KeepsMem.live (fun _ h => Chip.memOk_inS h (fun _ h1 => (Chip.memOk_previewErr h1)))

theorem keepsMem_execCellSlot {port : Nat} (s : State) : KeepsMem s (execCellSlot port s) := KeepsMem.live (fun _ h => Chip.memOk_cellSlot h)

theorem keepsMem_execMarkerSend {port : Nat} (s : State) : KeepsMem s (execMarkerSend port s) :=
  KeepsMem.live (fun _ h => Chip.memOk_onPort h (fun _ h1 => (Chip.memOk_markerSend h1)))

theorem keepsMem_execMarkerReceive {port lane bits : Nat} (s : State) : KeepsMem s (execMarkerReceive port lane bits s) :=
  KeepsMem.live (fun _ h => Chip.memOk_onStream h (fun _ h1 => (Chip.memOk_when h1 (fun _ h2 => (Chip.memOk_markerReceive h2)))))

theorem keepsMem_execBlockLockChange {port lane : Nat} {blocks : List LineBlock} (s : State) : KeepsMem s (execBlockLockChange port lane blocks s) :=
  KeepsMem.live (fun _ h => Chip.memOk_onStream h (fun _ h1 => (Chip.memOk_when h1 (fun _ h2 => (Chip.memOk_blockLock h2)))))

theorem keepsMem_execCellReceive {port : Nat} {blocks : List LineBlock} {arrivalPs measured : Nat} (s : State) : KeepsMem s
    (execCellReceive port blocks arrivalPs measured s) :=
  KeepsMem.live (fun _ h => Chip.memOk_cellReceive h)

theorem keepsMem_execTileCellInsert {port : Nat} (s : State) : KeepsMem s (execTileCellInsert port s) :=
  KeepsMem.live (fun _ h => Chip.memOk_onPort h (fun _ h1 => (Chip.memOk_tileInsert h1)))

theorem keepsMem_execMonitorReceive {port : Nat} {cell : Nat} (s : State) : KeepsMem s (execMonitorReceive port cell s) :=
  KeepsMem.live (fun _ h => Chip.memOk_onPort h (fun _ h1 => (Chip.memOk_when h1 (fun _ h2 => (Chip.memOk_monReceive h2)))))

theorem keepsMem_execMonitorStatusSend (s : State) : KeepsMem s (execMonitorStatusSend s) :=
  KeepsMem.live (fun _ h => Chip.memOk_inT h (fun _ h1 => (Chip.memOk_when h1 (fun _ h2 => (Chip.memOk_queueStatus h2)))))

theorem keepsMem_execMonitorIdentitySend (s : State) : KeepsMem s (execMonitorIdentitySend s) :=
  KeepsMem.live (fun _ h => Chip.memOk_inT h (fun _ h1 => (Chip.memOk_when h1 (fun _ h2 => (Chip.memOk_queueIdentity (MemOk.same h2 rfl rfl))))))

theorem keepsMem_execDirectionLost {port : Nat} (s : State) : KeepsMem s (execDirectionLost port s) :=
  KeepsMem.live (fun _ h => Chip.memOk_inT h (fun _ h1 => (Chip.memOk_onStream h1 (fun _ h2 => (Chip.memOk_directionLost h2)))))

theorem keepsMem_execClkLoss {port : Nat} (s : State) : KeepsMem s (execClkLoss port s) :=
  KeepsMem.live (fun _ h => Chip.memOk_onStream h (fun _ h1 => (Chip.memOk_clkLoss h1)))

theorem keepsMem_execLinkUp {port : Nat} (s : State) : KeepsMem s (execLinkUp port s) :=
  KeepsMem.live (fun _ h => Chip.memOk_onPort h (fun _ h1 => (Chip.memOk_when h1 (fun _ h2 => (Chip.memOk_linkUp h2)))))

theorem keepsMem_execPortTrainStart {port : Nat} (s : State) : KeepsMem s (execPortTrainStart port s) :=
  KeepsMem.live (fun _ h => Chip.memOk_onPort h (fun _ h1 => (Chip.memOk_when h1 (fun _ h2 => (Chip.memOk_portRestart h2)))))

theorem keepsMem_execPortTrained {port : Nat} {lanes : Training} (s : State) : KeepsMem s (execPortTrained port lanes s) :=
  KeepsMem.live (fun _ h => Chip.memOk_onStream h (fun _ h1 => (Chip.memOk_portTrained h1)))

theorem keepsMem_execPortTrainTimeout {port : Nat} (s : State) : KeepsMem s (execPortTrainTimeout port s) :=
  KeepsMem.live (fun _ h => Chip.memOk_onStream h (fun _ h1 => (Chip.memOk_when h1 (fun _ h2 => (Chip.memOk_setPortState h2)))))

theorem keepsMem_execPortFailedRetry {port : Nat} (s : State) : KeepsMem s (execPortFailedRetry port s) :=
  KeepsMem.live (fun _ h => Chip.memOk_onPort h (fun _ h1 => (Chip.memOk_when h1 (fun _ h2 => (Chip.memOk_portRestart h2)))))

theorem keepsMem_execLaneCalInterpolate {port : Nat} (s : State) : KeepsMem s (execLaneCalInterpolate port s) :=
  KeepsMem.live (fun _ h => Chip.memOk_onPort h (fun _ h1 => (Chip.memOk_when h1 (fun _ h2 => (Chip.memOk_laneCal h2)))))

theorem keepsMem_execRecalPeriod {port : Nat} (s : State) : KeepsMem s (execRecalPeriod port s) :=
  KeepsMem.live (fun _ h => Chip.memOk_onPort h (fun _ h1 => (Chip.memOk_when h1 (fun _ h2 => (Chip.memOk_recalStart h2)))))

theorem keepsMem_execRecalNow {o : Origin} {port : Nat} (s : State) : KeepsMem s (execRecalNow o port s) :=
  KeepsMem.serveFor (fun _ h => Chip.memOk_onPort h (fun _ h1 => (Chip.memOk_writeField h1)))

theorem keepsMem_execRecalComplete {port width height : Nat} {setting : Word} (s : State) : KeepsMem s (execRecalComplete port width height setting
    s) :=
  KeepsMem.live (fun _ h => Chip.memOk_onPort h (fun _ h1 => (Chip.memOk_recalComplete h1)))

theorem keepsMem_execEyeMeasure {port : Nat} {widths heights : List Nat} (s : State) : KeepsMem s (execEyeMeasure port widths heights s) :=
  KeepsMem.live (fun _ h => Chip.memOk_onPort h (fun _ h1 => (MemOk.foldl (fun _ _ h2 => (Chip.memOk_eyeLane h2)) h1)))

theorem keepsMem_execLaneRetireCmd {o : Origin} {port lane : Nat} (s : State) : KeepsMem s (execLaneRetireCmd o port lane s) :=
  KeepsMem.serveFor (fun _ h => Chip.memOk_onPort h (fun _ h1 => (Chip.memOk_when h1 (fun _ h2 => (Chip.memOk_write32 h2)))))

theorem keepsMem_execLaneRestore {o : Origin} {port : Nat} (s : State) : KeepsMem s (execLaneRestore o port s) :=
  KeepsMem.serveFor (fun _ h => Chip.memOk_onPort h (fun _ h1 => (Chip.memOk_write32 h1)))

theorem keepsMem_execPortReduced {port : Nat} (s : State) : KeepsMem s (execPortReduced port s) := KeepsMem.live (fun _ h => Chip.memOk_reduceNow h)

theorem keepsMem_execFullRateRestore {port : Nat} (s : State) : KeepsMem s (execFullRateRestore port s) :=
  KeepsMem.live (fun _ h => Chip.memOk_fullRate h)

theorem keepsMem_execPortFenced {port : Nat} (s : State) : KeepsMem s (execPortFenced port s) :=
  KeepsMem.live (fun _ h => Chip.memOk_onPort h (fun _ h1 => (Chip.memOk_when h1 (fun _ h2 => (Chip.memOk_enterLaneState h2)))))

theorem keepsMem_execTestErr {port lane : Nat} {bits : List Bool} (s : State) : KeepsMem s (execTestErr port lane bits s) :=
  KeepsMem.live (fun _ h => Chip.memOk_testErr h)

theorem keepsMem_execPortTestClr {o : Origin} {port : Nat} (s : State) : KeepsMem s (execPortTestClr o port s) :=
  KeepsMem.serveFor (fun _ h => Chip.memOk_onPort h (fun _ h1 => (Chip.memOk_writeField h1)))

theorem keepsMem_execInjectOnce {o : Origin} {port : Nat} (s : State) : KeepsMem s (execInjectOnce o port s) :=
  KeepsMem.serveFor (fun _ h => Chip.memOk_onPort h (fun _ h1 => (Chip.memOk_writeField h1)))

theorem keepsMem_execInjectRepeat {port : Nat} (s : State) : KeepsMem s (execInjectRepeat port s) :=
  KeepsMem.live (fun _ h => Chip.memOk_onPort h (fun _ h1 => (Chip.memOk_injectDue h1)))

theorem keepsMem_execPortCalData {o : Origin} {port : Nat} {write : Option Word} (s : State) : KeepsMem s (execPortCalData o port write s) :=
  KeepsMem.serveFor (fun _ h => Chip.memOk_onPort h (fun _ h1 => (Chip.memOk_window h1)))

theorem keepsMem_execPixelCellProcess {engine : Nat} {upsets : List (Nat × Nat)} (s : State) : KeepsMem s (execPixelCellProcess engine upsets s) :=
  KeepsMem.live (fun _ h => Chip.memOk_inT h (fun _ h1 => (Chip.memOk_pixelProcess h1)))

theorem keepsMem_execImageComplete {atPs : Nat} (s : State) : KeepsMem s (execImageComplete atPs s) :=
  KeepsMem.live (fun _ h => Chip.memOk_inT h (fun _ h1 => (Chip.memOk_imageComplete h1)))

theorem keepsMem_execPassBoundary (s : State) : KeepsMem s (execPassBoundary s) :=
  KeepsMem.live (fun _ h => Chip.memOk_inT h (fun _ h1 => (Chip.memOk_lightNow (Chip.memOk_passBoundary h1))))

theorem keepsMem_execPassWaitEnd (s : State) : KeepsMem s (execPassWaitEnd s) :=
  KeepsMem.live (fun _ h => Chip.memOk_inT h (fun _ h1 => (Chip.memOk_waitEnd h1)))

theorem keepsMem_execTileTempFactor (s : State) : KeepsMem s (execTileTempFactor s) :=
  KeepsMem.live (fun _ h => Chip.memOk_inT h (fun _ h1 => (Chip.memOk_tempFactors h1)))

theorem keepsMem_execHoldImagePrepare (s : State) : KeepsMem s (execHoldImagePrepare s) :=
  KeepsMem.live (fun _ h => Chip.memOk_inT h (fun _ h1 => (Chip.memOk_when h1 (fun _ h2 => (Chip.memOk_holdPrepare h2)))))

theorem keepsMem_execHoldImageReady (s : State) : KeepsMem s (execHoldImageReady s) :=
  KeepsMem.live (fun _ h => Chip.memOk_inT h (fun _ h1 => (Chip.memOk_holdReady h1)))

theorem keepsMem_execDoseUpdate (s : State) : KeepsMem s (execDoseUpdate s) :=
  KeepsMem.live (fun _ h => Chip.memOk_inT h (fun _ h1 => (Chip.memOk_doseUpdate h1)))

theorem keepsMem_execDoseFlush (s : State) : KeepsMem s (execDoseFlush s) :=
  KeepsMem.live (fun _ h => Chip.memOk_inT h (fun _ h1 => (Chip.memOk_doseFlushed h1)))

theorem keepsMem_execAgeingGainUpdate (s : State) : KeepsMem s (execAgeingGainUpdate s) :=
  KeepsMem.live (fun _ h => Chip.memOk_inT h (fun _ h1 => (Chip.memOk_gainUpdate h1)))

theorem keepsMem_execEotfTabData {o : Origin} {write : Option Word} (s : State) : KeepsMem s (execEotfTabData o write s) :=
  KeepsMem.serveFor (fun _ h => Chip.memOk_window h)

theorem keepsMem_execTcData {o : Origin} {write : Option Word} (s : State) : KeepsMem s (execTcData o write s) :=
  KeepsMem.serveFor (fun _ h => Chip.memOk_window h)

theorem keepsMem_execMarginMinClr {o : Origin} (s : State) : KeepsMem s (execMarginMinClr o s) :=
  KeepsMem.serveFor (fun _ h => Chip.memOk_writeField h)

theorem keepsMem_execRowSlotStart {link : List (Nat × Nat)} {volts : List (Nat × Nat)} (s : State) : KeepsMem s (execRowSlotStart link volts s) :=
  KeepsMem.live (fun _ h => Chip.memOk_inT h (fun _ h1 => (Chip.memOk_rowSlot h1)))

theorem keepsMem_execNeighbourSlot {falls : List (Nat × Nat × Nat × Nat)} (s : State) : KeepsMem s (execNeighbourSlot falls s) :=
  KeepsMem.live (fun _ h => Chip.memOk_inT h (fun _ h1 => (Chip.memOk_neighbourSlot h1)))

theorem keepsMem_execTrimMeasureDone {band : Nat} {r : Int} (s : State) : KeepsMem s (execTrimMeasureDone band r s) :=
  KeepsMem.live (fun _ h => Chip.memOk_inT h (fun _ h1 => (Chip.memOk_when h1 (fun _ h2 => (Chip.memOk_trimMeasured h2)))))

theorem keepsMem_execTrimInterpolate (s : State) : KeepsMem s (execTrimInterpolate s) :=
  KeepsMem.live (fun _ h => Chip.memOk_inT h (fun _ h1 => (Chip.memOk_trimCodes h1)))

theorem keepsMem_execFadeGo {o : Origin} {word : Word} (s : State) : KeepsMem s (execFadeGo o word s) :=
  KeepsMem.serveFor (fun _ h => Chip.memOk_write32 h)

theorem keepsMem_execDiagClear {o : Origin} (s : State) : KeepsMem s (execDiagClear o s) := KeepsMem.serveFor (fun _ h => Chip.memOk_writeField h)

theorem keepsMem_execSplData {o : Origin} {write : Option Word} (s : State) : KeepsMem s (execSplData o write s) :=
  KeepsMem.serveFor (fun _ h => Chip.memOk_window h)

theorem keepsMem_execTrimData {o : Origin} {band : Nat} {write : Option Word} (s : State) : KeepsMem s (execTrimData o band write s) :=
  KeepsMem.serveFor (fun _ h => Chip.memOk_when h (fun _ h1 => (Chip.memOk_window h1)))

theorem keepsMem_execDiagTabData {o : Origin} (s : State) : KeepsMem s (execDiagTabData o s) := KeepsMem.serveFor (fun _ h => Chip.memOk_hostRead h)

theorem keepsMem_execClapPeerChange {level : Bool} (s : State) : KeepsMem s (execClapPeerChange level s) :=
  KeepsMem.live (fun _ h => Chip.memOk_peerLine h)

theorem keepsMem_execClaim (s : State) : KeepsMem s (execClaim s) := KeepsMem.live (fun _ h => Chip.memOk_claim h)

theorem keepsMem_execClaimComplete (s : State) : KeepsMem s (execClaimComplete s) :=
  KeepsMem.live (fun _ h => Chip.memOk_inS h (fun _ h1 => (Chip.memOk_claimComplete h1)))

theorem keepsMem_execContendRelease (s : State) : KeepsMem s (execContendRelease s) :=
  KeepsMem.live (fun _ h => Chip.memOk_inS h (fun _ h1 => (Chip.memOk_contendRelease h1)))

theorem keepsMem_execSoloAssert (s : State) : KeepsMem s (execSoloAssert s) := KeepsMem.live (fun _ h => Chip.memOk_soloAssert h)

theorem keepsMem_execForceRelease {o : Origin} (s : State) : KeepsMem s (execForceRelease o s) :=
  KeepsMem.serveFor (fun _ h => Chip.memOk_writeField h)

theorem keepsMem_execClearRelease {o : Origin} (s : State) : KeepsMem s (execClearRelease o s) :=
  KeepsMem.serveFor (fun _ h => Chip.memOk_writeField h)

theorem keepsMem_execTollSend (s : State) : KeepsMem s (execTollSend s) := KeepsMem.live (fun _ h => Chip.memOk_tollSend h)

theorem keepsMem_execHeartbeatReceive {ring : Bool} {seq state slot : Nat} (s : State) : KeepsMem s (execHeartbeatReceive ring seq state slot s) :=
  KeepsMem.live (fun _ h => Chip.memOk_heartbeat h)

theorem keepsMem_execTollMiss {ring : Bool} (s : State) : KeepsMem s (execTollMiss ring s) := KeepsMem.live (fun _ h => Chip.memOk_tollMiss h)

theorem keepsMem_execBeatFrameMiss (s : State) : KeepsMem s (execBeatFrameMiss s) :=
  KeepsMem.live (fun _ h => Chip.memOk_when h (fun _ h1 => (Chip.memOk_missDownbeat h1)))

theorem keepsMem_execSidebandEchoSend (s : State) : KeepsMem s (execSidebandEchoSend s) := KeepsMem.live (fun _ h => Chip.memOk_sbEchoSend h)

theorem keepsMem_execEpochStart (s : State) : KeepsMem s (execEpochStart s) := KeepsMem.live (fun _ h => Chip.memOk_epochStart h)

theorem keepsMem_execMirrorSent (s : State) : KeepsMem s (execMirrorSent s) := KeepsMem.live (fun _ h => Chip.memOk_mirrorSent h)

theorem keepsMem_execMirrorCmdFull {o : Origin} (s : State) : KeepsMem s (execMirrorCmdFull o s) :=
  KeepsMem.serveFor (fun _ h => Chip.memOk_writeField h)

theorem keepsMem_execSetApply (s : State) : KeepsMem s (execSetApply s) :=
  KeepsMem.live (fun _ h => Chip.memOk_inS h (fun _ h1 => (Chip.memOk_setApply (fun _ _ h2 => (Chip.memOk_mirrorWrites h2)) h1)))

theorem keepsMem_execMirrorApplied (s : State) : KeepsMem s (execMirrorApplied s) :=
  KeepsMem.live (fun _ h => Chip.memOk_inS h (fun _ h1 => (Chip.memOk_applied h1)))

theorem keepsMem_execEpochFrameLate (s : State) : KeepsMem s (execEpochFrameLate s) :=
  KeepsMem.live (fun _ h => Chip.memOk_inS h (fun _ h1 => (Chip.memOk_epochLate h1)))

theorem keepsMem_execSramWindowWrite {offset : Nat} {bytes : List (Option Byte)} (s : State) : KeepsMem s (execSramWindowWrite offset bytes s) :=
  KeepsMem.live (fun _ h => Chip.memOk_sramWrite h)

theorem keepsMem_execSramWindowRead {o : Origin} {offset n : Nat} (s : State) : KeepsMem s (execSramWindowRead o offset n s) :=
  KeepsMem.serveFor (fun _ h => Chip.memOk_sramRead h)

theorem keepsMem_execOwnerWrite {o : Origin} {bank v : Nat} (s : State) : KeepsMem s (execOwnerWrite o bank v s) :=
  KeepsMem.serveFor (fun _ h => Chip.memOk_when h (fun _ h1 => (Chip.memOk_write32 h1)))

theorem keepsMem_execHandoverSwitch {bank : Nat} (s : State) : KeepsMem s (execHandoverSwitch bank s) :=
  KeepsMem.live (fun _ h => Chip.memOk_when h (fun _ h1 => (Chip.memOk_pathsGo (Chip.memOk_handoverSwitch h1))))

theorem keepsMem_execAtomicOp {byBelfry add : Bool} {master offset size operand : Nat} (s : State) : KeepsMem s
    (execAtomicOp byBelfry add master offset size operand s) :=
  KeepsMem.live (fun _ h => Chip.memOk_atomicOp h)

theorem keepsMem_execMergeRetire {bank : Nat} (s : State) : KeepsMem s (execMergeRetire bank s) :=
  KeepsMem.live (fun _ h => Chip.memOk_when h (fun _ h1 => (Chip.memOk_retireOldest h1)))

theorem keepsMem_execScrubRead {mem : Nat} (s : State) : KeepsMem s (execScrubRead mem s) := KeepsMem.live (fun _ h => Chip.memOk_scrubRead h)

theorem keepsMem_execScrubNow {o : Origin} (s : State) : KeepsMem s (execScrubNow o s) := KeepsMem.serveFor (fun _ h => Chip.memOk_writeField h)

theorem keepsMem_execBankRemapWrite {o : Origin} {bank entry : Nat} {w : Word} (s : State) : KeepsMem s (execBankRemapWrite o bank entry w s) :=
  KeepsMem.serveFor (fun _ h => Chip.memOk_when h (fun _ h1 => (Chip.memOk_write32 h1)))

theorem keepsMem_execDramRemapWrite {o : Origin} {w : Word} (s : State) : KeepsMem s (execDramRemapWrite o w s) :=
  KeepsMem.serveFor (fun _ h => Chip.memOk_write32 h)

theorem keepsMem_execRemapDone {dram : Bool} {unit entry : Nat} (s : State) : KeepsMem s (execRemapDone dram unit entry s) :=
  KeepsMem.live (fun _ h => MemOk.ite (Chip.memOk_when h (fun _ h1 => (Chip.memOk_dramRemapDone h1))) (Chip.memOk_when h (fun _ h2 =>
    (Chip.memOk_bankRemapDone h2))))

theorem keepsMem_execSplitGo {o : Origin} {word : Word} (s : State) : KeepsMem s (execSplitGo o word s) :=
  KeepsMem.serveFor (fun _ h => Chip.memOk_write32 h)

theorem keepsMem_execSramFillDone (s : State) : KeepsMem s (execSramFillDone s) := KeepsMem.live (fun _ h => Chip.memOk_sramFilled h)

theorem keepsMem_execDramFillDone (s : State) : KeepsMem s (execDramFillDone s) := KeepsMem.live (fun _ h => Chip.memOk_dramFilled h)

theorem keepsMem_execDramReadCmd {master : Nat} {bar2 : Bool} {addr len : Nat} {hitsPending : Bool} (s : State) : KeepsMem s
    (execDramReadCmd master bar2 addr len hitsPending s) :=
  KeepsMem.live (fun _ h => MemOk.ite (Chip.memOk_aperture h) (Chip.memOk_dramRequest h))

theorem keepsMem_execDramWriteCmd {master : Nat} {bar2 : Bool} {addr : Nat} {bytes : List (Option Byte)} (s : State) : KeepsMem s
    (execDramWriteCmd master bar2 addr bytes s) :=
  KeepsMem.live (fun _ h => MemOk.ite (Chip.memOk_aperture h) (Chip.memOk_dramRequest h))

theorem keepsMem_execRefreshDue {port rank chan bank : Nat} {rtRun : Bool} (s : State) : KeepsMem s (execRefreshDue port rank chan bank rtRun s) :=
  KeepsMem.live (fun _ h => Chip.memOk_onDram h (fun _ h1 => (Chip.memOk_refreshDue h1)))

theorem keepsMem_execMr4Poll {port rank chan code : Nat} {hot : Bool} (s : State) : KeepsMem s (execMr4Poll port rank chan code hot s) :=
  KeepsMem.live (fun _ h => Chip.memOk_onDram h (fun _ h1 => (Chip.memOk_mr4Poll h1)))

theorem keepsMem_execPowerDownEntry {port rank : Nat} (s : State) : KeepsMem s (execPowerDownEntry port rank s) :=
  KeepsMem.live (fun _ h => Chip.memOk_onDram h (fun _ h1 => (Chip.memOk_powerDown h1)))

theorem keepsMem_execDqsTrack {port chan : Nat} {drift : Int} (s : State) : KeepsMem s (execDqsTrack port chan drift s) :=
  KeepsMem.live (fun _ h => Chip.memOk_onDram h (fun _ h1 => (Chip.memOk_dqsTrack h1)))

theorem keepsMem_execDramRetrainCmd {o : Origin} {port : Nat} (s : State) : KeepsMem s (execDramRetrainCmd o port s) :=
  KeepsMem.serveFor (fun _ h => Chip.memOk_onDram h (fun _ h1 => (Chip.memOk_writeField h1)))

theorem keepsMem_execDramRetrainSlice {port : Nat} {found : Bool} (s : State) : KeepsMem s (execDramRetrainSlice port found s) :=
  KeepsMem.live (fun _ h => Chip.memOk_onDram h (fun _ h1 => (Chip.memOk_retrainSlice h1)))

theorem keepsMem_execEccRateWindow {port : Nat} (s : State) : KeepsMem s (execEccRateWindow port s) :=
  KeepsMem.live (fun _ h => Chip.memOk_onDram h (fun _ h1 => (Chip.memOk_eccWindow h1)))

theorem keepsMem_execDramRateStep {port : Nat} (s : State) : KeepsMem s (execDramRateStep port s) :=
  KeepsMem.live (fun _ h => Chip.memOk_onDram h (fun _ h1 => (Chip.memOk_rateStep h1)))

theorem keepsMem_execRateStepDone {port : Nat} {grade : Option Nat} (s : State) : KeepsMem s (execRateStepDone port grade s) :=
  KeepsMem.live (fun _ h => Chip.memOk_onDram h (fun _ h1 => (Chip.memOk_stepDone h1)))

theorem keepsMem_execRateRestore {o : Origin} {port : Nat} (s : State) : KeepsMem s (execRateRestore o port s) :=
  KeepsMem.serveFor (fun _ h => Chip.memOk_onDram h (fun _ h1 => (Chip.memOk_writeField h1)))

theorem keepsMem_execDramPortFail {port : Nat} (s : State) : KeepsMem s (execDramPortFail port s) :=
  KeepsMem.live (fun _ h => Chip.memOk_onDram h (fun _ h1 => (Chip.memOk_dramFail h1)))

theorem keepsMem_execDramInitTrain {port ranks rankMib : Nat} {uniform : Bool} {grade : Option Nat} (s : State) : KeepsMem s
    (execDramInitTrain port ranks rankMib uniform grade s) :=
  KeepsMem.live (fun _ h => Chip.memOk_onDram h (fun _ h1 => (Chip.memOk_dramInit h1)))

theorem keepsMem_execDramRefClr {o : Origin} {port : Nat} (s : State) : KeepsMem s (execDramRefClr o port s) :=
  KeepsMem.serveFor (fun _ h => Chip.memOk_onDram h (fun _ h1 => (Chip.memOk_writeField h1)))

theorem keepsMem_execLockstep (s : State) : KeepsMem s (execLockstep s) :=
  KeepsMem.serve (fun _ h => Chip.memOk_belfryDown (Chip.memOk_bumpSat (Chip.memOk_raise h)))

theorem keepsMem_execBelfryBusErr (s : State) : KeepsMem s (execBelfryBusErr s) :=
  KeepsMem.serve (fun _ h => Chip.memOk_when h (fun _ h1 => (Chip.memOk_raise h1)))

theorem keepsMem_execKick {o : Origin} {value : Word} {ms : Nat} (s : State) : KeepsMem s (execKick o value ms s) :=
  KeepsMem.serveFor (fun _ h => Chip.memOk_kick h)

theorem keepsMem_execWatchdogTimeout (s : State) : KeepsMem s (execWatchdogTimeout s) :=
  KeepsMem.serve (fun _ h => Chip.memOk_when h (fun _ h1 => (Chip.memOk_dogRestart h1)))

theorem keepsMem_execBelfryCmdRestart {o : Origin} (s : State) : KeepsMem s (execBelfryCmdRestart o s) :=
  KeepsMem.serveFor (fun _ h => Chip.memOk_writeField h)

theorem keepsMem_execBelfryRestart (s : State) : KeepsMem s (execBelfryRestart s) :=
  KeepsMem.serve (fun _ h => Chip.memOk_pathsGo (Chip.memOk_belfryBack h))

theorem keepsMem_execThermalMaskWrite {o : Origin} {mask : Word} (s : State) : KeepsMem s (execThermalMaskWrite o mask s) :=
  KeepsMem.serveFor (fun _ h => Chip.memOk_write32 h)

theorem keepsMem_execThrottleEvaluate (s : State) : KeepsMem s (execThrottleEvaluate s) := KeepsMem.serve (fun _ h => Chip.memOk_throttle h)

theorem keepsMem_execKnellShutdown (s : State) : KeepsMem s (execKnellShutdown s) := KeepsMem.powered (fun _ h => Chip.memOk_knellStop h)

theorem keepsMem_execKnellFlashEnd {outcome : Nat} (s : State) : KeepsMem s (execKnellFlashEnd outcome s) :=
  KeepsMem.next (fun h => Chip.memOk_knellEnd h)

theorem keepsMem_execKnellPrior (s : State) : KeepsMem s (execKnellPrior s) :=
  KeepsMem.serve (fun _ h => Chip.memOk_when h (fun _ h1 => (Chip.memOk_knellPrior h1)))

theorem keepsMem_execVoltageSample {mvs : List Nat} (s : State) : KeepsMem s (execVoltageSample mvs s) :=
  KeepsMem.serve (fun _ h => Chip.memOk_voltageSample h)

theorem keepsMem_execDebugUnlockWrite {o : Origin} {value : Bool} (s : State) : KeepsMem s (execDebugUnlockWrite o value s) :=
  KeepsMem.serveFor (fun _ h => Chip.memOk_writeField h)

theorem keepsMem_execLogFlush (s : State) : KeepsMem s (execLogFlush s) :=
  KeepsMem.serve (fun _ h => Chip.memOk_when h (fun _ h1 => (Chip.memOk_logFlush h1)))

theorem keepsMem_execLogRead {o : Origin} {seq : Word} (s : State) : KeepsMem s (execLogRead o seq s) :=
  KeepsMem.serveFor (fun _ h => Chip.memOk_write32 h)

theorem keepsMem_execLogReadDone (s : State) : KeepsMem s (execLogReadDone s) :=
  KeepsMem.serve (fun _ h => Chip.memOk_when h (fun _ h1 => (Chip.memOk_logReadDone h1)))

theorem keepsMem_execJournalWrite {area index : Nat} {ok1 ok2 : Bool} (s : State) : KeepsMem s (execJournalWrite area index ok1 ok2 s) :=
  KeepsMem.serve (fun _ h => Chip.memOk_journalWrite h)

theorem keepsMem_execBootImageSelect (s : State) : KeepsMem s (execBootImageSelect s) := KeepsMem.serve (fun _ h => Chip.memOk_boot h)

theorem keepsMem_execUpdateOpen {o : Origin} (s : State) : KeepsMem s (execUpdateOpen o s) := KeepsMem.serveFor (fun _ h => Chip.memOk_writeField h)

theorem keepsMem_execEraseDone {flashOk : Bool} (s : State) : KeepsMem s (execEraseDone flashOk s) :=
  KeepsMem.serve (fun _ h => Chip.memOk_updErased h)

theorem keepsMem_execBlockData {o : Origin} {w : Word} (s : State) : KeepsMem s (execBlockData o w s) :=
  KeepsMem.serveFor (fun _ h => Chip.memOk_write32 h)

theorem keepsMem_execUpdateWrite {o : Origin} (s : State) : KeepsMem s (execUpdateWrite o s) := KeepsMem.serveFor (fun _ h => Chip.memOk_writeField h)

theorem keepsMem_execBlockProgrammed {flashOk : Bool} (s : State) : KeepsMem s (execBlockProgrammed flashOk s) :=
  KeepsMem.serve (fun _ h => Chip.memOk_blockDone h)

theorem keepsMem_execBulkSend {o : Origin} (s : State) : KeepsMem s (execBulkSend o s) := KeepsMem.serveFor (fun _ h => Chip.memOk_writeField h)

theorem keepsMem_execBulkCellSend (s : State) : KeepsMem s (execBulkCellSend s) :=
  KeepsMem.live (fun _ h => Chip.memOk_inS h (fun _ h1 => (Chip.memOk_bulkCell h1)))

theorem keepsMem_execUpdateVerify {o : Origin} (s : State) : KeepsMem s (execUpdateVerify o s) :=
  KeepsMem.serveFor (fun _ h => Chip.memOk_writeField h)

theorem keepsMem_execVerifyDone {flashOk : Bool} (s : State) : KeepsMem s (execVerifyDone flashOk s) :=
  KeepsMem.serve (fun _ h => Chip.memOk_verifyDone h)

theorem keepsMem_execUpdateAbort {o : Origin} (s : State) : KeepsMem s (execUpdateAbort o s) := KeepsMem.serveFor (fun _ h => Chip.memOk_writeField h)

theorem keepsMem_execActivate {o : Origin} (s : State) : KeepsMem s (execActivate o s) := KeepsMem.serveFor (fun _ h => Chip.memOk_writeField h)

theorem keepsMem_execConfirm {o : Origin} (s : State) : KeepsMem s (execConfirm o s) := KeepsMem.serveFor (fun _ h => Chip.memOk_writeField h)

theorem keepsMem_execConfirmTimeout (s : State) : KeepsMem s (execConfirmTimeout s) := KeepsMem.serve (fun _ h => Chip.memOk_confirmExpire h)

theorem keepsMem_execSettingsSave {o : Origin} (s : State) : KeepsMem s (execSettingsSave o s) :=
  KeepsMem.serveFor (fun _ h => Chip.memOk_writeField h)

theorem keepsMem_execListData {o : Origin} {write : Option Word} (s : State) : KeepsMem s (execListData o write s) :=
  KeepsMem.serveFor (fun _ h => Chip.memOk_window h)

theorem keepsMem_execSettingsApply {timedOut : Bool} {w h : Nat} {image : List Byte} (s : State) : KeepsMem s (execSettingsApply timedOut w h image
    s) :=
  KeepsMem.serve (fun _ h => Chip.memOk_settingsApply h)

theorem keepsMem_execPowerOnReset (s : State) : KeepsMem s (execPowerOnReset s) := KeepsMem.next (fun h => Chip.memOk_powerOn h)

theorem keepsMem_execPowerGoodTrue (s : State) : KeepsMem s (execPowerGoodTrue s) := KeepsMem.next (fun h => Chip.memOk_powerGood h)

theorem keepsMem_execDeviceReset {cause rail : Nat} (s : State) : KeepsMem s (execDeviceReset cause rail s) :=
  KeepsMem.next (fun h => Chip.memOk_powerLost h)

theorem keepsMem_execStrapSample {pos slot boot : Nat} (s : State) : KeepsMem s (execStrapSample pos slot boot s) :=
  KeepsMem.awake (fun _ h => Chip.memOk_strapSample h)

theorem keepsMem_execResetCmdDevice {o : Origin} (s : State) : KeepsMem s (execResetCmdDevice o s) :=
  KeepsMem.serveFor (fun _ h => Chip.memOk_writeField h)

theorem keepsMem_execPcieFunctionReset (s : State) : KeepsMem s (execPcieFunctionReset s) := KeepsMem.live (fun _ h => Chip.memOk_pcieReset h)

theorem keepsMem_execJtagReset (s : State) : KeepsMem s (execJtagReset s) := KeepsMem.powered (fun _ h => Chip.memOk_tapReset h)

theorem keepsMem_execBringupStepEnd {step : Nat} {timedOut : Bool} {mask : Nat} (s : State) : KeepsMem s (execBringupStepEnd step timedOut mask s) :=
  KeepsMem.awake (fun _ h => Chip.memOk_bringupEnd h)

theorem keepsMem_execXtalPllRetry {locked : Bool} (s : State) : KeepsMem s (execXtalPllRetry locked s) :=
  KeepsMem.awake (fun _ h => Chip.memOk_xtalRetry h)

theorem keepsMem_execPwm8Clear (s : State) : KeepsMem s (execPwm8Clear s) := KeepsMem.serve (fun _ h => Chip.memOk_pwm8Off h)

theorem keepsMem_execDebuggerHalt (s : State) : KeepsMem s (execDebuggerHalt s) := KeepsMem.serve (fun _ h => Chip.memOk_setHalted h)

theorem keepsMem_execDebuggerResume (s : State) : KeepsMem s (execDebuggerResume s) := KeepsMem.serve (fun _ h => Chip.memOk_setHalted h)

theorem keepsMem_execJtagDebugReset (s : State) : KeepsMem s (execJtagDebugReset s) := KeepsMem.serve (fun _ h => Chip.memOk_belfryDown h)

theorem keepsMem_execJtagExtest {clapOwn alertLow : Bool} {cells : List Bool} (s : State) : KeepsMem s (execJtagExtest clapOwn alertLow cells s) :=
  KeepsMem.powered (fun _ h => Chip.memOk_extest h)

/-- A case for each constructor of Instr. -/
theorem exec_keepsMem (i : Instr) (s : State) : KeepsMem s (exec i s) :=
  match i with
  | .registerWrite _ _ => keepsMem_execRegisterWrite s
  | .pageEnable _ _ => keepsMem_execPageEnable s
  | .pageDisable _ _ => keepsMem_execPageDisable s
  | .commit _ _ => keepsMem_execCommit s
  | .applyPoint _ => keepsMem_execApplyPoint s
  | .srst _ _ => keepsMem_execSrst s
  | .srstComplete _ => keepsMem_execSrstComplete s
  | .evtForce _ _ _ => keepsMem_execEvtForce s
  | .vecEoi _ _ => keepsMem_execVecEoi s
  | .msixUnmask _ _ => keepsMem_execMsixUnmask s
  | .alertNRelease => keepsMem_execAlertNRelease s
  | .clrFirst _ _ => keepsMem_execClrFirst s
  | .clrWorst _ _ => keepsMem_execClrWorst s
  | .clrCount _ _ => keepsMem_execClrCount s
  | .flipArm _ _ => keepsMem_execFlipArm s
  | .usb4LinkChange _ _ _ _ _ => keepsMem_execUsb4LinkChange s
  | .pcieErr => keepsMem_execPcieErr s
  | .dmaStart _ _ => keepsMem_execDmaStart s
  | .dmaDone _ _ => keepsMem_execDmaDone s
  | .dmaHostError _ _ _ => keepsMem_execDmaHostError s
  | .dpStreamFrame _ => keepsMem_execDpStreamFrame s
  | .dpFormat _ => keepsMem_execDpFormat s
  | .dpLost => keepsMem_execDpLost s
  | .dpLock _ => keepsMem_execDpLock s
  | .recoveryBlock _ _ => keepsMem_execRecoveryBlock s
  | .recoveryFinal => keepsMem_execRecoveryFinal s
  | .srpRequest _ _ _ => keepsMem_execSrpRequest s
  | .arpRequest _ _ _ => keepsMem_execArpRequest s
  | .relayRead _ _ => keepsMem_execRelayRead s
  | .relayWrite _ _ _ => keepsMem_execRelayWrite s
  | .relayResponse _ => keepsMem_execRelayResponse s
  | .relayTimeout => keepsMem_execRelayTimeout s
  | .consoleCommand _ => keepsMem_execConsoleCommand s
  | .jtagRegisterAccess _ _ _ => keepsMem_execJtagRegisterAccess s
  | .wideValueLowRead _ _ => keepsMem_execWideValueLowRead s
  | .timeWrap => keepsMem_execTimeWrap s
  | .timeIncWrite _ _ => keepsMem_execTimeIncWrite s
  | .timeAdj _ _ => keepsMem_execTimeAdj s
  | .ptpTimestampCapture _ _ _ _ _ _ => keepsMem_execPtpTimestampCapture s
  | .tsPop _ _ => keepsMem_execTsPop s
  | .tsFlush _ => keepsMem_execTsFlush s
  | .barStart => keepsMem_execBarStart s
  | .beatStart => keepsMem_execBeatStart s
  | .refInEdge _ => keepsMem_execRefInEdge s
  | .refInLoss => keepsMem_execRefInLoss s
  | .downbeatLaunch => keepsMem_execDownbeatLaunch s
  | .modeChangeApply => keepsMem_execModeChangeApply s
  | .echoSend _ => keepsMem_execEchoSend s
  | .echoFail _ => keepsMem_execEchoFail s
  | .tileBeatStart => keepsMem_execTileBeatStart s
  | .dbMissing => keepsMem_execDbMissing s
  | .flyBarsExpire => keepsMem_execFlyBarsExpire s
  | .launchPush _ _ => keepsMem_execLaunchPush s
  | .launchCancelAll _ => keepsMem_execLaunchCancelAll s
  | .launchCancelTag _ _ => keepsMem_execLaunchCancelTag s
  | .cueLoadDone => keepsMem_execCueLoadDone s
  | .masterDownbeatArrive _ _ _ => keepsMem_execMasterDownbeatArrive s
  | .stackMiss => keepsMem_execStackMiss s
  | .ethLinkChange _ _ _ _ _ _ => keepsMem_execEthLinkChange s
  | .ethFrameReceive _ _ _ => keepsMem_execEthFrameReceive s
  | .ethFecUncorr _ _ => keepsMem_execEthFecUncorr s
  | .gapWaitExpire _ => keepsMem_execGapWaitExpire s
  | .flowStop _ => keepsMem_execFlowStop s
  | .pathLoss _ _ => keepsMem_execPathLoss s
  | .holdExpire _ => keepsMem_execHoldExpire s
  | .ctlTxGo _ _ _ _ => keepsMem_execCtlTxGo s
  | .ctlTxDone _ => keepsMem_execCtlTxDone s
  | .canvasRelease => keepsMem_execCanvasRelease s
  | .bandDispatch => keepsMem_execBandDispatch s
  | .bandChaseReady => keepsMem_execBandChaseReady s
  | .canvasBufferFree _ _ => keepsMem_execCanvasBufferFree s
  | .mapTaskComplete _ _ => keepsMem_execMapTaskComplete s
  | .bandComplete _ => keepsMem_execBandComplete s
  | .canvasLate => keepsMem_execCanvasLate s
  | .mapctlTabData _ _ => keepsMem_execMapctlTabData s
  | .leadMinClr _ => keepsMem_execLeadMinClr s
  | .scanLineStart => keepsMem_execScanLineStart s
  | .scanCanvasLine0 => keepsMem_execScanCanvasLine0 s
  | .scanCellRead _ _ => keepsMem_execScanCellRead s
  | .scanDataReturn _ => keepsMem_execScanDataReturn s
  | .underrunWaitExpire _ => keepsMem_execUnderrunWaitExpire s
  | .tiletabData _ _ => keepsMem_execTiletabData s
  | .portMarginClr _ _ => keepsMem_execPortMarginClr s
  | .previewDone => keepsMem_execPreviewDone s
  | .previewErr => keepsMem_execPreviewErr s
  | .cellSlot _ => keepsMem_execCellSlot s
  | .markerSend _ => keepsMem_execMarkerSend s
  | .markerReceive _ _ _ => keepsMem_execMarkerReceive s
  | .blockLockChange _ _ _ => keepsMem_execBlockLockChange s
  | .cellReceive _ _ _ _ => keepsMem_execCellReceive s
  | .tileCellInsert _ => keepsMem_execTileCellInsert s
  | .monitorReceive _ _ => keepsMem_execMonitorReceive s
  | .monitorStatusSend => keepsMem_execMonitorStatusSend s
  | .monitorIdentitySend => keepsMem_execMonitorIdentitySend s
  | .directionLost _ => keepsMem_execDirectionLost s
  | .clkLoss _ => keepsMem_execClkLoss s
  | .linkUp _ => keepsMem_execLinkUp s
  | .portTrainStart _ => keepsMem_execPortTrainStart s
  | .portTrained _ _ => keepsMem_execPortTrained s
  | .portTrainTimeout _ => keepsMem_execPortTrainTimeout s
  | .portFailedRetry _ => keepsMem_execPortFailedRetry s
  | .laneCalInterpolate _ => keepsMem_execLaneCalInterpolate s
  | .recalPeriod _ => keepsMem_execRecalPeriod s
  | .recalNow _ _ => keepsMem_execRecalNow s
  | .recalComplete _ _ _ _ => keepsMem_execRecalComplete s
  | .eyeMeasure _ _ _ => keepsMem_execEyeMeasure s
  | .laneRetireCmd _ _ _ => keepsMem_execLaneRetireCmd s
  | .laneRestore _ _ => keepsMem_execLaneRestore s
  | .portReduced _ => keepsMem_execPortReduced s
  | .fullRateRestore _ => keepsMem_execFullRateRestore s
  | .portFenced _ => keepsMem_execPortFenced s
  | .testErr _ _ _ => keepsMem_execTestErr s
  | .portTestClr _ _ => keepsMem_execPortTestClr s
  | .injectOnce _ _ => keepsMem_execInjectOnce s
  | .injectRepeat _ => keepsMem_execInjectRepeat s
  | .portCalData _ _ _ => keepsMem_execPortCalData s
  | .pixelCellProcess _ _ => keepsMem_execPixelCellProcess s
  | .imageComplete _ => keepsMem_execImageComplete s
  | .passBoundary => keepsMem_execPassBoundary s
  | .passWaitEnd => keepsMem_execPassWaitEnd s
  | .tileTempFactor => keepsMem_execTileTempFactor s
  | .holdImagePrepare => keepsMem_execHoldImagePrepare s
  | .holdImageReady => keepsMem_execHoldImageReady s
  | .doseUpdate => keepsMem_execDoseUpdate s
  | .doseFlush => keepsMem_execDoseFlush s
  | .ageingGainUpdate => keepsMem_execAgeingGainUpdate s
  | .eotfTabData _ _ => keepsMem_execEotfTabData s
  | .tcData _ _ => keepsMem_execTcData s
  | .marginMinClr _ => keepsMem_execMarginMinClr s
  | .rowSlotStart _ _ => keepsMem_execRowSlotStart s
  | .neighbourSlot _ => keepsMem_execNeighbourSlot s
  | .trimMeasureDone _ _ => keepsMem_execTrimMeasureDone s
  | .trimInterpolate => keepsMem_execTrimInterpolate s
  | .fadeGo _ _ => keepsMem_execFadeGo s
  | .diagClear _ => keepsMem_execDiagClear s
  | .splData _ _ => keepsMem_execSplData s
  | .trimData _ _ _ => keepsMem_execTrimData s
  | .diagTabData _ => keepsMem_execDiagTabData s
  | .clapPeerChange _ => keepsMem_execClapPeerChange s
  | .claim => keepsMem_execClaim s
  | .claimComplete => keepsMem_execClaimComplete s
  | .contendRelease => keepsMem_execContendRelease s
  | .soloAssert => keepsMem_execSoloAssert s
  | .forceRelease _ => keepsMem_execForceRelease s
  | .clearRelease _ => keepsMem_execClearRelease s
  | .tollSend => keepsMem_execTollSend s
  | .heartbeatReceive _ _ _ _ => keepsMem_execHeartbeatReceive s
  | .tollMiss _ => keepsMem_execTollMiss s
  | .sidebandFrameReceive _ _ _ _ => keepsMem_execSidebandFrameReceive s
  | .beatFrameMiss => keepsMem_execBeatFrameMiss s
  | .sidebandEchoSend => keepsMem_execSidebandEchoSend s
  | .epochStart => keepsMem_execEpochStart s
  | .mirrorSent => keepsMem_execMirrorSent s
  | .mirrorCmdFull _ => keepsMem_execMirrorCmdFull s
  | .setApply => keepsMem_execSetApply s
  | .mirrorApplied => keepsMem_execMirrorApplied s
  | .epochFrameLate => keepsMem_execEpochFrameLate s
  | .sramWindowWrite _ _ => keepsMem_execSramWindowWrite s
  | .sramWindowRead _ _ _ => keepsMem_execSramWindowRead s
  | .ownerWrite _ _ _ => keepsMem_execOwnerWrite s
  | .handoverSwitch _ => keepsMem_execHandoverSwitch s
  | .atomicOp _ _ _ _ _ _ => keepsMem_execAtomicOp s
  | .mergeRetire _ => keepsMem_execMergeRetire s
  | .scrubRead _ => keepsMem_execScrubRead s
  | .scrubNow _ => keepsMem_execScrubNow s
  | .bankRemapWrite _ _ _ _ => keepsMem_execBankRemapWrite s
  | .dramRemapWrite _ _ => keepsMem_execDramRemapWrite s
  | .remapDone _ _ _ => keepsMem_execRemapDone s
  | .splitGo _ _ => keepsMem_execSplitGo s
  | .sramFillDone => keepsMem_execSramFillDone s
  | .dramFillDone => keepsMem_execDramFillDone s
  | .dramReadCmd _ _ _ _ _ => keepsMem_execDramReadCmd s
  | .dramWriteCmd _ _ _ _ => keepsMem_execDramWriteCmd s
  | .refreshDue _ _ _ _ _ => keepsMem_execRefreshDue s
  | .mr4Poll _ _ _ _ _ => keepsMem_execMr4Poll s
  | .powerDownEntry _ _ => keepsMem_execPowerDownEntry s
  | .dqsTrack _ _ _ => keepsMem_execDqsTrack s
  | .dramRetrainCmd _ _ => keepsMem_execDramRetrainCmd s
  | .dramRetrainSlice _ _ => keepsMem_execDramRetrainSlice s
  | .eccRateWindow _ => keepsMem_execEccRateWindow s
  | .dramRateStep _ => keepsMem_execDramRateStep s
  | .rateStepDone _ _ => keepsMem_execRateStepDone s
  | .rateRestore _ _ => keepsMem_execRateRestore s
  | .dramPortFail _ => keepsMem_execDramPortFail s
  | .dramInitTrain _ _ _ _ _ => keepsMem_execDramInitTrain s
  | .dramRefClr _ _ => keepsMem_execDramRefClr s
  | .lockstep => keepsMem_execLockstep s
  | .belfryBusErr => keepsMem_execBelfryBusErr s
  | .kick _ _ _ => keepsMem_execKick s
  | .watchdogTimeout => keepsMem_execWatchdogTimeout s
  | .belfryCmdRestart _ => keepsMem_execBelfryCmdRestart s
  | .belfryRestart => keepsMem_execBelfryRestart s
  | .sensorSample _ => keepsMem_execSensorSample s
  | .thermalMaskWrite _ _ => keepsMem_execThermalMaskWrite s
  | .throttleEvaluate => keepsMem_execThrottleEvaluate s
  | .knellShutdown => keepsMem_execKnellShutdown s
  | .knellFlashEnd _ => keepsMem_execKnellFlashEnd s
  | .knellPrior => keepsMem_execKnellPrior s
  | .voltageSample _ => keepsMem_execVoltageSample s
  | .debugUnlockWrite _ _ => keepsMem_execDebugUnlockWrite s
  | .logFlush => keepsMem_execLogFlush s
  | .logRead _ _ => keepsMem_execLogRead s
  | .logReadDone => keepsMem_execLogReadDone s
  | .journalWrite _ _ _ _ => keepsMem_execJournalWrite s
  | .bootImageSelect => keepsMem_execBootImageSelect s
  | .updateOpen _ => keepsMem_execUpdateOpen s
  | .eraseDone _ => keepsMem_execEraseDone s
  | .blockData _ _ => keepsMem_execBlockData s
  | .updateWrite _ => keepsMem_execUpdateWrite s
  | .blockProgrammed _ => keepsMem_execBlockProgrammed s
  | .bulkSend _ => keepsMem_execBulkSend s
  | .bulkCellSend => keepsMem_execBulkCellSend s
  | .updateVerify _ => keepsMem_execUpdateVerify s
  | .verifyDone _ => keepsMem_execVerifyDone s
  | .updateAbort _ => keepsMem_execUpdateAbort s
  | .activate _ => keepsMem_execActivate s
  | .confirm _ => keepsMem_execConfirm s
  | .confirmTimeout => keepsMem_execConfirmTimeout s
  | .settingsSave _ => keepsMem_execSettingsSave s
  | .listData _ _ => keepsMem_execListData s
  | .settingsApply _ _ _ _ => keepsMem_execSettingsApply s
  | .powerOnReset => keepsMem_execPowerOnReset s
  | .powerGoodTrue => keepsMem_execPowerGoodTrue s
  | .deviceReset _ _ => keepsMem_execDeviceReset s
  | .strapSample _ _ _ => keepsMem_execStrapSample s
  | .resetCmdDevice _ => keepsMem_execResetCmdDevice s
  | .pcieFunctionReset => keepsMem_execPcieFunctionReset s
  | .jtagReset => keepsMem_execJtagReset s
  | .bringupStepEnd _ _ _ => keepsMem_execBringupStepEnd s
  | .xtalPllRetry _ => keepsMem_execXtalPllRetry s
  | .pwm8Clear => keepsMem_execPwm8Clear s
  | .debuggerHalt => keepsMem_execDebuggerHalt s
  | .debuggerResume => keepsMem_execDebuggerResume s
  | .jtagDebugReset => keepsMem_execJtagDebugReset s
  | .jtagExtest _ _ _ => keepsMem_execJtagExtest s

/-! ### Steps -/

theorem idleAnswer_keepsMem (s : State) : KeepsMem s (idleAnswer s) := KeepsMem.serve (fun _ h => Chip.memOk_idleStep h)

/-- A step runs the front command, or idles; what it answers is a next state. -/
theorem step_keepsMem (s : State) : ∃ t, step s = .next t ∧ t.pending = s.pending.tail ∧ (MemOk s.chip → MemOk t.chip) := by
  obtain ⟨chip, q⟩ := s
  cases q with
  | nil => exact idleAnswer_keepsMem ⟨chip, []⟩
  | cons i rest => exact exec_keepsMem i ⟨chip, rest⟩

/-- Settles O2: every constructor's meaning answers a next state with its queue, and so does the idle step. -/
theorem everyCommandAnswers : Obligations.EveryCommandAnswers := by
  refine ⟨fun i s => ?_, fun s hs => ?_⟩
  · obtain ⟨t, ht, hq, -⟩ := exec_keepsMem i s
    exact ⟨t, ht, hq⟩
  · obtain ⟨t, ht, hq, -⟩ := step_keepsMem s
    exact ⟨t, ht, by rw [hq, hs]; rfl⟩

/-- Settles O49: every operation of the model keeps the canonical form, so every command and every step does. -/
theorem memoriesStayCanonical : Obligations.MemoriesStayCanonical := by
  refine ⟨fun i s t hs ht => ?_, fun s t hs ht => ?_, by decide⟩
  · obtain ⟨u, hu, -, hm⟩ := exec_keepsMem i s
    cases hu.symm.trans ht
    exact hm hs
  · obtain ⟨u, hu, -, hm⟩ := step_keepsMem s
    cases hu.symm.trans ht
    exact hm hs

/-- Settles O1: the definition of a step, at a queue with a command in front. -/
theorem stepRunsTheFrontCommand : Obligations.StepRunsTheFrontCommand := by
  intro i rest s
  rfl

end Sys2Proof.Machine
end

