-- ==== Sys2Proof/Proofs/ResetValues.lean ====
section
/-! PROOF. The reset state: CTRL is 0 on every page. -/

namespace Sys2Proof.Machine

/-- Every page's registers begin with the header's, whose CTRL both builds have, with reset value 0. -/
theorem find_ctrl (l : List RegDef) : ∃ r, (headerRegs ++ l).find? (fun r => r.covers 4) = some r ∧ r.inS = true ∧ r.inT = true ∧
    r.firstOnly = false ∧
    (r.fields.map (fieldReset .S)).sum = 0 ∧ (r.fields.map (fieldReset .T)).sum = 0 := ⟨_, rfl, rfl, rfl, rfl, rfl, rfl⟩

/-- CTRL resets to 0 on every page (the header). -/
theorem tableReset_ctrl (b : Build) (pg : Nat) : tableReset b (4 + 4096 * pg) = 0 := by
  obtain ⟨hpg, hofs⟩ : (4 + 4096 * pg) / 4096 = pg ∧ (4 + 4096 * pg) % 4096 = 4 := by omega
  simp only [tableReset, regAt, hpg, hofs]
  cases findPage b pg with
  | none => rfl
  | some p =>
    obtain ⟨r, hr, hS, hT, hf, h0, h1⟩ := find_ctrl p.regs
    cases b <;> simp [hr, hS, hT, hf, h0, h1]

/-- No special reset value falls on a CTRL. -/
theorem resetSpecial_ctrl (b : Build) (pg : Nat) : resetSpecial b (4 + 4096 * pg) = none := by
  have hne (n : Nat) (hn : n % 4096 ≠ 4) : 4 + 4096 * pg ≠ n := by omega
  have hid : ¬(4 + 4096 * pg = 0x0C0008 && b = .S) = true := by simpa using fun h => absurd h (hne 0x0C0008 (by decide))
  unfold resetSpecial
  rw [if_neg (hne _ (by decide)), if_neg (hne _ (by decide)), if_neg (hne _ (by decide)), if_neg hid, if_neg (hne _ (by decide)),
    if_neg, if_neg]
  all_goals
    simp only [Bool.and_eq_true, decide_eq_true_eq]
    omega

theorem rd_ctrl_reset (pg : Nat) : State.reset.chip.rd (4 + 4096 * pg) = 0 := by
  show resetWord .S _ = 0
  rw [resetWord, resetSpecial_ctrl]
  exact tableReset_ctrl .S pg

/-- Settles O3: what is not a page's CTRL is read off the reset state; CTRL is 0 on every page. -/
theorem resetState : Obligations.ResetState := by
  have hctrl (f : Fld) (hf : f.addr = 4) (pg : Nat) : State.reset.chip.get (f.pg pg) = bitsOf 0 f.hi f.lo := by
    rw [Chip.get, Fld.pg, hf, rd_ctrl_reset]
  refine ⟨rfl, by decide, ⟨by decide, by decide⟩, by decide, rfl, fun pg _ => ⟨?_, hctrl F.COMMIT rfl pg⟩, by decide +kernel, by decide +kernel,
    by decide +kernel,
    by decide +kernel, rfl, by decide +kernel, by decide +kernel⟩
  rw [Chip.en, Chip.on, hctrl F.EN rfl]
  rfl

end Sys2Proof.Machine
end

