-- ==== Sys2Proof/Proofs/EventFrames.lean ====
section
-- One proof at a time: proofs that wait for the kernel side by side hold more memory than the check allows.
set_option Elab.async false
/-! PROOF. What an event and a condition event leave alone, present states and pending bits through other operations, and fields read after they are
set. -/

namespace Sys2Proof.Machine

/-! ### Registers that an event writes -/

/-- The registers that an event may write: pending bits, the MSI-X pending bits and the counts of lost reports. -/
def eventReg (a : Nat) : Bool :=
  decide (a % 4096 = 0x18) || decide (a ∈ [F.USB4_PBA.addr, F.ECC_EVQ_LOST.addr, F.CHAINCTL_MON_LOST_COUNT.addr])

/-- Nothing differs but registers that an event may write, the event queue, what is sent, the host's part and the ports. -/
structure EventOnly (c d : Chip) : Prop where
  rd : ∀ a, eventReg a = false → d.rd a = c.rd a
  changeQ : d.changeQ = c.changeQ
  chain : d.chain = c.chain

theorem reportRel_eventOnly : ReportRel EventOnly where
  refl _ := ⟨fun _ _ => rfl, rfl, rfl⟩
  trans h k := ⟨fun a ha => (k.rd a ha).trans (h.rd a ha), k.changeQ.trans h.changeQ, k.chain.trans h.chain⟩
  wr c a w hw := ⟨fun b hb => by
    rw [Chip.rd_wr, if_neg]
    rintro rfl
    simp only [eventReg, Bool.or_eq_false_iff, decide_eq_false_iff_not] at hb
    exact hw.elim hb.1 hb.2, rfl, rfl⟩
  emit c o := ⟨fun a _ => c.emit_rd o a, by unfold Chip.emit; split <;> rfl, by unfold Chip.emit; split <;> rfl⟩
  evq _ _ := ⟨fun _ _ => rfl, rfl, rfl⟩
  evqExtra _ _ := ⟨fun _ _ => rfl, rfl, rfl⟩
  host _ _ := ⟨fun _ _ => rfl, rfl, rfl⟩
  monitor _ _ _ _ _ := ⟨fun _ _ => rfl, rfl, rfl⟩

theorem Chip.eventOnly_raise (c : Chip) (e : Ev) : EventOnly c (c.raise e) := reportRel_eventOnly.raise c e

/-- A register that events leave alone. -/
theorem Chip.raise_rd_of (c : Chip) (e : Ev) (a : Nat) (h : eventReg a = false) : (c.raise e).rd a = c.rd a := (c.eventOnly_raise e).rd a h

theorem Chip.raise_get_of (c : Chip) (e : Ev) (f : Fld) (h : eventReg f.addr = false) : (c.raise e).get f = c.get f := by
  rw [Chip.get, Chip.get, Chip.raise_rd_of c e _ h]

@[simp] theorem Chip.raise_changeQ (c : Chip) (e : Ev) : (c.raise e).changeQ = c.changeQ := (c.eventOnly_raise e).changeQ
@[simp] theorem Chip.raise_chain (c : Chip) (e : Ev) : (c.raise e).chain = c.chain := (c.eventOnly_raise e).chain

/-- A condition event is its present state written, and an event where it rises. -/
theorem Chip.cond_eq (c : Chip) (e : Ev) (b : Bool) : ∃ w, c.cond e b = c ∨ c.cond e b = c.wr (e.page * 4096 + 0x10) w ∨
    c.cond e b = (c.wr (e.page * 4096 + 0x10) w).raise e := by
  unfold Chip.cond
  by_cases h : c.raw e = b
  · refine ⟨0, Or.inl ?_⟩
    cases b <;> simp [h]
  · cases b
    · exact ⟨_, Or.inr (Or.inl (by simp [h]; rfl))⟩
    · exact ⟨_, Or.inr (Or.inr (by simp [h]; rfl))⟩

theorem Chip.cond_rd_of (c : Chip) (e : Ev) (b : Bool) (a : Nat) (h : eventReg a = false) (h10 : a % 4096 ≠ 0x10) : (c.cond e b).rd a = c.rd a := by
  have hw : ∀ w, (c.wr (e.page * 4096 + 0x10) w).rd a = c.rd a := fun w => by rw [Chip.rd_wr, if_neg (by omega)]
  obtain ⟨w, e1 | e1 | e1⟩ := c.cond_eq e b <;> rw [e1]
  · exact hw w
  · rw [Chip.raise_rd_of _ _ _ h, hw]

theorem Chip.cond_get_of (c : Chip) (e : Ev) (b : Bool) (f : Fld) (h : eventReg f.addr = false) (h10 : f.addr % 4096 ≠ 0x10) :
    (c.cond e b).get f = c.get f := by rw [Chip.get, Chip.get, Chip.cond_rd_of c e b _ h h10]

@[simp] theorem Chip.cond_changeQ (c : Chip) (e : Ev) (b : Bool) : (c.cond e b).changeQ = c.changeQ := by
  obtain ⟨w, e1 | e1 | e1⟩ := c.cond_eq e b <;> rw [e1] <;> simp

@[simp] theorem Chip.cond_chain (c : Chip) (e : Ev) (b : Bool) : (c.cond e b).chain = c.chain := by
  obtain ⟨w, e1 | e1 | e1⟩ := c.cond_eq e b <;> rw [e1] <;> simp

/-! ### Present states through events -/

/-- An event changes no present state. -/
@[simp] theorem Chip.raise_raw (c : Chip) (e f : Ev) : (c.raise e).raw f = c.raw f := by
  unfold Chip.raw
  rw [reportRel_sameRaw.raise c e _ (by omega)]

/-- A condition event shows its state. -/
theorem Chip.cond_raw_self (c : Chip) (e : Ev) (b : Bool) (hb : e.bit < 32) : (c.cond e b).raw e = b := by
  cases b
  · by_cases h : c.raw e = true
    · unfold Chip.cond
      simp only [h, Bool.true_eq_false, Bool.false_eq_true, if_false, Bool.false_and]
      rw [Chip.raw, Chip.rd_wr, if_pos rfl]
      simp [hb]
    · have h : c.raw e = false := by simpa using h
      unfold Chip.cond
      simp [h]
  · exact c.cond_raw e hb

/-- The state of another condition event. -/
theorem Chip.cond_raw_ne (c : Chip) (e f : Ev) (b : Bool) (hb : e.bit < 32) (h : f.page ≠ e.page ∨ f.bit ≠ e.bit) : (c.cond e b).raw f = c.raw f := by
  have key : ∀ (d : Chip) (w : Word), (∀ k, k ≠ e.bit → w.getLsbD k = (c.rd (e.page * 4096 + 0x10)).getLsbD k) →
      d = c.wr (e.page * 4096 + 0x10) w → d.raw f = c.raw f := by
    rintro d w hw rfl
    unfold Chip.raw
    rw [Chip.rd_wr]
    split
    · rename_i hp
      have hp : f.page = e.page := by omega
      rw [hp]
      exact hw _ (h.resolve_left (fun hn => hn hp))
    · rfl
  have hbit : ∀ (w : Word) (k : Nat), k ≠ e.bit → (w ||| (1 : Word) <<< e.bit).getLsbD k = w.getLsbD k ∧
      (w &&& ~~~((1 : Word) <<< e.bit)).getLsbD k = w.getLsbD k := by
    intro w k hk
    have h1 : ((1 : Word) <<< e.bit).getLsbD k = false := by
      simp
      omega
    constructor
    · simp only [BitVec.getLsbD_or, h1, Bool.or_false]
    · by_cases hk32 : k < 32
      · simp only [BitVec.getLsbD_and, BitVec.getLsbD_not, h1, hk32, decide_true, Bool.not_false, Bool.and_self, Bool.and_true]
      · rw [BitVec.getLsbD_of_ge _ _ (by omega), BitVec.getLsbD_of_ge _ _ (by omega)]
  unfold Chip.cond
  by_cases hw : c.raw e = b
  · cases b <;> simp [hw]
  · cases b
    · simp only [hw, if_false, Bool.false_and, Bool.false_eq_true]
      exact key _ _ (fun k hk => (hbit _ k hk).2) rfl
    · have hf : c.raw e = false := by simpa using hw
      simp only [hf, if_true, Bool.not_false, Bool.and_self, Bool.false_eq_true, if_false, Chip.raise_raw]
      exact key _ _ (fun k hk => (hbit _ k hk).1) rfl

theorem Chip.set_raw (c : Chip) (f : Fld) (v : Nat) (e : Ev) (h : f.addr % 4096 ≠ 0x10) : (c.set f v).raw e = c.raw e := by
  unfold Chip.raw
  rw [Chip.rd_set_ne _ _ _ _ (by omega)]

@[simp] theorem Chip.emit_raw (c : Chip) (o : Output) (e : Ev) : (c.emit o).raw e = c.raw e := by rw [Chip.raw, Chip.emit_rd, Chip.raw]

/-! ### Pending bits -/

theorem Chip.set_pend (c : Chip) (f : Fld) (v : Nat) (e : Ev) (h : f.addr % 4096 ≠ 0x18) : (c.set f v).pend e = c.pend e := by
  unfold Chip.pend
  rw [Chip.rd_set_ne _ _ _ _ (by omega)]

@[simp] theorem Chip.emit_pend (c : Chip) (o : Output) (e : Ev) : (c.emit o).pend e = c.pend e := by rw [Chip.pend, Chip.emit_rd, Chip.pend]

theorem Chip.pend_cond (c : Chip) (e f : Ev) (b : Bool) (h : c.pend f = true) : (c.cond e b).pend f = true := by
  have hw : ∀ w, (c.wr (e.page * 4096 + 0x10) w).pend f = true := fun w => by
    unfold Chip.pend
    rw [Chip.rd_wr, if_neg (by omega)]
    exact h
  obtain ⟨w, e1 | e1 | e1⟩ := c.cond_eq e b <;> rw [e1]
  · exact h
  · exact hw w
  · exact Chip.pend_raise _ _ _ (hw w)

/-! ### Fields set and read -/

theorem Chip.on_eq (c : Chip) (f : Fld) : c.on f = decide (c.get f = 1) := rfl

/-- A one-bit field just set to a truth value. -/
theorem Chip.on_set_b2n (c : Chip) (f : Fld) (b : Bool) (h : f.lo ≤ f.hi) (h2 : f.hi < 32) : (c.set f (b2n b)).on f = b := by
  rw [Chip.on, Chip.get_set c f _ h h2]
  have h1 : 1 < 2 ^ (f.hi + 1 - f.lo) := Nat.one_lt_two_pow (by omega)
  cases b <;> simp [b2n, Nat.mod_eq_of_lt h1]

theorem Chip.get_bumpSat (c : Chip) (f : Fld) (n : Nat) (h : f.lo ≤ f.hi) (h2 : f.hi < 32) :
    (c.bumpSat f n).get f = min (2 ^ (f.hi + 1 - f.lo) - 1) (c.get f + n) := by
  rw [Chip.bumpSat, Chip.get_set c f _ h h2, satAdd]
  have := Nat.two_pow_pos (f.hi + 1 - f.lo)
  exact Nat.mod_eq_of_lt (by omega)

theorem Chip.get_bumpSat_ne (c : Chip) (f g : Fld) (n : Nat) (h : g.addr ≠ f.addr) : (c.bumpSat f n).get g = c.get g := Chip.get_set_ne c f g _ h

/-! ### Parts of the block through events and sending -/

@[simp] theorem Chip.raise_build (c : Chip) (e : Ev) : (c.raise e).build = c.build := (c.quiet_raise e).build
@[simp] theorem Chip.raise_inUse (c : Chip) (e : Ev) : (c.raise e).inUse = c.inUse := (c.quiet_raise e).inUse
@[simp] theorem Chip.raise_free (c : Chip) (e : Ev) : (c.raise e).free = c.free := (c.quiet_raise e).free
@[simp] theorem Chip.raise_unpredictable (c : Chip) (e : Ev) : (c.raise e).unpredictable = c.unpredictable := (c.quiet_raise e).unpredictable
@[simp] theorem Chip.raise_time (c : Chip) (e : Ev) : (c.raise e).time = c.time := (c.quiet_raise e).time
@[simp] theorem Chip.raise_launchQ (c : Chip) (e : Ev) : (c.raise e).launchQ = c.launchQ := (c.quiet_raise e).launchQ
@[simp] theorem Chip.raise_ctlTxA (c : Chip) (e : Ev) : (c.raise e).ctlTxA = c.ctlTxA := (c.quiet_raise e).ctlTxA
@[simp] theorem Chip.raise_ctlTxB (c : Chip) (e : Ev) : (c.raise e).ctlTxB = c.ctlTxB := (c.quiet_raise e).ctlTxB
@[simp] theorem Chip.raise_flows (c : Chip) (e : Ev) : (c.raise e).flows = c.flows := (c.quiet_raise e).flows
@[simp] theorem Chip.raise_dp (c : Chip) (e : Ev) : (c.raise e).dp = c.dp := (c.quiet_raise e).dp
@[simp] theorem Chip.raise_mem (c : Chip) (e : Ev) : (c.raise e).mem = c.mem := (c.quiet_raise e).mem
@[simp] theorem Chip.raise_actBit (c : Chip) (e : Ev) : (c.raise e).actBit = c.actBit := (c.quiet_raise e).actBit
@[simp] theorem Chip.raise_map (c : Chip) (e : Ev) : (c.raise e).map = c.map := (c.quiet_raise e).map
@[simp] theorem Chip.raise_scan (c : Chip) (e : Ev) : (c.raise e).scan = c.scan := (c.quiet_raise e).scan
@[simp] theorem Chip.raise_preview (c : Chip) (e : Ev) : (c.raise e).preview = c.preview := (c.quiet_raise e).preview
@[simp] theorem Chip.raise_aon (c : Chip) (e : Ev) : (c.raise e).aon = c.aon := (c.quiet_raise e).aon
@[simp] theorem Chip.raise_belfry (c : Chip) (e : Ev) : (c.raise e).belfry = c.belfry := (c.quiet_raise e).belfry
@[simp] theorem Chip.raise_therm (c : Chip) (e : Ev) : (c.raise e).therm = c.therm := (c.quiet_raise e).therm
@[simp] theorem Chip.raise_upd (c : Chip) (e : Ev) : (c.raise e).upd = c.upd := (c.quiet_raise e).upd
@[simp] theorem Chip.raise_tile (c : Chip) (e : Ev) : (c.raise e).tile = c.tile := (c.quiet_raise e).tile
@[simp] theorem Chip.raise_drive (c : Chip) (e : Ev) : (c.raise e).drive = c.drive := (c.quiet_raise e).drive
@[simp] theorem Chip.raise_redun (c : Chip) (e : Ev) : (c.raise e).redun = c.redun := (c.quiet_raise e).redun
@[simp] theorem Chip.raise_mirror (c : Chip) (e : Ev) : (c.raise e).mirror = c.mirror := (c.quiet_raise e).mirror
@[simp] theorem Chip.raise_rst (c : Chip) (e : Ev) : (c.raise e).rst = c.rst := (c.quiet_raise e).rst

@[simp] theorem Chip.cond_build (c : Chip) (e : Ev) (b : Bool) : (c.cond e b).build = c.build := (c.quiet_cond e b).build
@[simp] theorem Chip.cond_inUse (c : Chip) (e : Ev) (b : Bool) : (c.cond e b).inUse = c.inUse := (c.quiet_cond e b).inUse
@[simp] theorem Chip.cond_free (c : Chip) (e : Ev) (b : Bool) : (c.cond e b).free = c.free := (c.quiet_cond e b).free
@[simp] theorem Chip.cond_unpredictable (c : Chip) (e : Ev) (b : Bool) : (c.cond e b).unpredictable = c.unpredictable :=
  (c.quiet_cond e b).unpredictable

@[simp] theorem Chip.cond_time (c : Chip) (e : Ev) (b : Bool) : (c.cond e b).time = c.time := (c.quiet_cond e b).time
@[simp] theorem Chip.cond_launchQ (c : Chip) (e : Ev) (b : Bool) : (c.cond e b).launchQ = c.launchQ := (c.quiet_cond e b).launchQ
@[simp] theorem Chip.cond_ctlTxA (c : Chip) (e : Ev) (b : Bool) : (c.cond e b).ctlTxA = c.ctlTxA := (c.quiet_cond e b).ctlTxA
@[simp] theorem Chip.cond_ctlTxB (c : Chip) (e : Ev) (b : Bool) : (c.cond e b).ctlTxB = c.ctlTxB := (c.quiet_cond e b).ctlTxB
@[simp] theorem Chip.cond_flows (c : Chip) (e : Ev) (b : Bool) : (c.cond e b).flows = c.flows := (c.quiet_cond e b).flows
@[simp] theorem Chip.cond_dp (c : Chip) (e : Ev) (b : Bool) : (c.cond e b).dp = c.dp := (c.quiet_cond e b).dp
@[simp] theorem Chip.cond_mem (c : Chip) (e : Ev) (b : Bool) : (c.cond e b).mem = c.mem := (c.quiet_cond e b).mem
@[simp] theorem Chip.cond_actBit (c : Chip) (e : Ev) (b : Bool) : (c.cond e b).actBit = c.actBit := (c.quiet_cond e b).actBit
@[simp] theorem Chip.cond_map (c : Chip) (e : Ev) (b : Bool) : (c.cond e b).map = c.map := (c.quiet_cond e b).map
@[simp] theorem Chip.cond_scan (c : Chip) (e : Ev) (b : Bool) : (c.cond e b).scan = c.scan := (c.quiet_cond e b).scan
@[simp] theorem Chip.cond_preview (c : Chip) (e : Ev) (b : Bool) : (c.cond e b).preview = c.preview := (c.quiet_cond e b).preview
@[simp] theorem Chip.cond_aon (c : Chip) (e : Ev) (b : Bool) : (c.cond e b).aon = c.aon := (c.quiet_cond e b).aon
@[simp] theorem Chip.cond_belfry (c : Chip) (e : Ev) (b : Bool) : (c.cond e b).belfry = c.belfry := (c.quiet_cond e b).belfry
@[simp] theorem Chip.cond_therm (c : Chip) (e : Ev) (b : Bool) : (c.cond e b).therm = c.therm := (c.quiet_cond e b).therm
@[simp] theorem Chip.cond_upd (c : Chip) (e : Ev) (b : Bool) : (c.cond e b).upd = c.upd := (c.quiet_cond e b).upd
@[simp] theorem Chip.cond_tile (c : Chip) (e : Ev) (b : Bool) : (c.cond e b).tile = c.tile := (c.quiet_cond e b).tile
@[simp] theorem Chip.cond_drive (c : Chip) (e : Ev) (b : Bool) : (c.cond e b).drive = c.drive := (c.quiet_cond e b).drive
@[simp] theorem Chip.cond_redun (c : Chip) (e : Ev) (b : Bool) : (c.cond e b).redun = c.redun := (c.quiet_cond e b).redun
@[simp] theorem Chip.cond_mirror (c : Chip) (e : Ev) (b : Bool) : (c.cond e b).mirror = c.mirror := (c.quiet_cond e b).mirror
@[simp] theorem Chip.cond_rst (c : Chip) (e : Ev) (b : Bool) : (c.cond e b).rst = c.rst := (c.quiet_cond e b).rst

@[simp] theorem Chip.emit_build (c : Chip) (o : Output) : (c.emit o).build = c.build := (c.quiet_emit o).build
@[simp] theorem Chip.emit_inUse (c : Chip) (o : Output) : (c.emit o).inUse = c.inUse := (c.quiet_emit o).inUse
@[simp] theorem Chip.emit_free (c : Chip) (o : Output) : (c.emit o).free = c.free := (c.quiet_emit o).free
@[simp] theorem Chip.emit_unpredictable (c : Chip) (o : Output) : (c.emit o).unpredictable = c.unpredictable := (c.quiet_emit o).unpredictable
@[simp] theorem Chip.emit_time (c : Chip) (o : Output) : (c.emit o).time = c.time := (c.quiet_emit o).time
@[simp] theorem Chip.emit_bar (c : Chip) (o : Output) : (c.emit o).bar = c.bar := (c.quiet_emit o).bar
@[simp] theorem Chip.emit_launchQ (c : Chip) (o : Output) : (c.emit o).launchQ = c.launchQ := (c.quiet_emit o).launchQ
@[simp] theorem Chip.emit_ctlTxA (c : Chip) (o : Output) : (c.emit o).ctlTxA = c.ctlTxA := (c.quiet_emit o).ctlTxA
@[simp] theorem Chip.emit_ctlTxB (c : Chip) (o : Output) : (c.emit o).ctlTxB = c.ctlTxB := (c.quiet_emit o).ctlTxB
@[simp] theorem Chip.emit_flows (c : Chip) (o : Output) : (c.emit o).flows = c.flows := (c.quiet_emit o).flows
@[simp] theorem Chip.emit_dp (c : Chip) (o : Output) : (c.emit o).dp = c.dp := (c.quiet_emit o).dp
@[simp] theorem Chip.emit_mem (c : Chip) (o : Output) : (c.emit o).mem = c.mem := (c.quiet_emit o).mem
@[simp] theorem Chip.emit_actBit (c : Chip) (o : Output) : (c.emit o).actBit = c.actBit := (c.quiet_emit o).actBit
@[simp] theorem Chip.emit_map (c : Chip) (o : Output) : (c.emit o).map = c.map := (c.quiet_emit o).map
@[simp] theorem Chip.emit_scan (c : Chip) (o : Output) : (c.emit o).scan = c.scan := (c.quiet_emit o).scan
@[simp] theorem Chip.emit_preview (c : Chip) (o : Output) : (c.emit o).preview = c.preview := (c.quiet_emit o).preview
@[simp] theorem Chip.emit_belfry (c : Chip) (o : Output) : (c.emit o).belfry = c.belfry := (c.quiet_emit o).belfry
@[simp] theorem Chip.emit_therm (c : Chip) (o : Output) : (c.emit o).therm = c.therm := (c.quiet_emit o).therm
@[simp] theorem Chip.emit_upd (c : Chip) (o : Output) : (c.emit o).upd = c.upd := (c.quiet_emit o).upd
@[simp] theorem Chip.emit_tile (c : Chip) (o : Output) : (c.emit o).tile = c.tile := (c.quiet_emit o).tile
@[simp] theorem Chip.emit_drive (c : Chip) (o : Output) : (c.emit o).drive = c.drive := (c.quiet_emit o).drive
@[simp] theorem Chip.emit_redun (c : Chip) (o : Output) : (c.emit o).redun = c.redun := (c.quiet_emit o).redun
@[simp] theorem Chip.emit_mirror (c : Chip) (o : Output) : (c.emit o).mirror = c.mirror := (c.quiet_emit o).mirror
@[simp] theorem Chip.emit_rst (c : Chip) (o : Output) : (c.emit o).rst = c.rst := (c.quiet_emit o).rst

end Sys2Proof.Machine
end

