-- ==== Sys2Proof/Proofs/RegisterWrites.lean ====
section
-- One proof at a time: proofs that wait for the kernel side by side hold more memory than the check allows.
set_option Elab.async false
/-! PROOF. Register writes of the paths: accesses not carried out, the order of a cycle, shadowed registers (R30, R31, R34, R51, R54). -/

namespace Sys2Proof.Machine

/-! ### The writes of one cycle -/

theorem busWords_small (w : BusWrite) (h : w.size ≠ 8) : busWords w = [w] := by
  unfold busWords
  simp [h]

/-- A write alone in its cycle is a write of its path. -/
theorem sameCycle_one (w : BusWrite) : sameCycle [w] = [w] := by
  unfold sameCycle
  cases w with
  | mk o a n d => cases o <;> rfl

theorem Chip.cycleWrites_one (c : Chip) (w : BusWrite) (h : w.size ≠ 8) : c.cycleWrites [w] = c.busWrite w := by
  unfold Chip.cycleWrites
  simp [busWords_small w h, sameCycle_one, Chip.goesNow, Chip.busWrites]

/-- A REGISTER_WRITE of one write. -/
theorem Completes.registerWrite {s : State} {w : BusWrite} {P : Chip → Prop} (hr : Runs s) (hw : w.size ≠ 8) (hp : P (s.chip.busWrite w)) :
    Completes (.registerWrite w []) s P := by
  refine Completes.serve (fun c => c.cycleWrites ([w].filter (fun x => c.hears x.origin))) rfl hr.notFrozen ?_
  simpa [hr.hears, Chip.cycleWrites_one _ _ hw] using hp

/-! ### Accesses that are not carried out (R30, R31) -/

/-- The reasons that the register map gives. -/
theorem regAt_none_lt {b : Build} {a r : Nat} (h : regAt b a = .none r) : r < 3 := by
  revert h
  unfold regAt
  dsimp only
  repeat' split
  all_goals
    intro h
    cases h <;> decide

/-- A write of the register pages that is not carried out is reported. -/
theorem Chip.busWrite_ignored (c : Chip) (w : BusWrite) (r : Nat) (hp : c.pathsOpen = true) (ha : w.addr < 0x400000) (hs : w.size ≠ 8)
    (hr : c.ignoredReason w.addr w.size = some r) : c.busWrite w = c.badAccess w.origin r w.addr := by
  have e : w.addr % 2 ^ 24 = w.addr := Nat.mod_eq_of_lt (by omega)
  have hn : ¬ 0x800000 ≤ w.addr := by omega
  unfold Chip.busWrite
  rw [busWords_small w hs, List.foldl_cons, List.foldl_nil, Chip.mustWait_false hp _ (Or.inl (by simp [HeldAcc.inSram, e]; omega))]
  simp only [Bool.false_eq_true, if_false, Chip.busNow, Chip.busAt, e, hn, hr]

theorem Chip.ignoredReason_none {c : Chip} {a n r : Nat} (ha : a < 0x400000) (hr : regAt c.build (a / 4 * 4) = .none r) :
    c.ignoredReason a n = some r := by
  simp [Chip.ignoredReason, ha, hr]

theorem Chip.ignoredReason_size {c : Chip} {a n : Nat} (ha : a < 0x400000) (hr : ∀ r, regAt c.build (a / 4 * 4) ≠ .none r)
    (hs : n < 4 ∨ a % n ≠ 0) : c.ignoredReason a n = some 3 := by
  unfold Chip.ignoredReason
  simp only [ha, if_true]
  cases h : regAt c.build (a / 4 * 4) with
  | none r => exact absurd h (hr r)
  | silent => simp [hs]
  | reg d => simp [hs]

/-- The word of BAD_ADDR (the DEVICE page). -/
theorem Chip.badAccess_rd (c : Chip) (o : Origin) (r a : Nat) :
    (c.badAccess o r a).rd F.DEVICE_BAD_ADDR_VALID.addr =
      if c.on F.DEVICE_BAD_ADDR_VALID then c.rd F.DEVICE_BAD_ADDR_VALID.addr
      else BitVec.ofNat 32 (2 ^ 31 + o.code * 2 ^ 28 + r * 2 ^ 26 + a % 2 ^ 24) := by
  unfold Chip.badAccess
  rw [Chip.raise_rd_of _ _ _ (by decide)]
  split
  · rfl
  · rw [Chip.rd_wr, if_pos rfl]

theorem device_hasPage (c : Chip) : c.hasPage 0x000 = true := by unfold Chip.hasPage; cases c.build <;> decide +kernel

/-- Settles O5: an access that is not carried out is `badAccess`, whose report and record are those of R31. -/
theorem ignoredWriteIsReported : Obligations.IgnoredWriteIsReported := by
  intro s w r hrun hopen ha hs hr
  have hlt : r < 4 := by
    rcases hr with hr | ⟨rfl, -⟩
    · exact Nat.lt_succ_of_lt (regAt_none_lt hr)
    · decide
  have hreason : s.chip.ignoredReason w.addr w.size = some r := by
    rcases hr with hr | ⟨rfl, hn, hsz⟩
    · exact Chip.ignoredReason_none ha hr
    · exact Chip.ignoredReason_size ha hn hsz
  refine Completes.registerWrite hrun (by omega) ?_
  rw [Chip.busWrite_ignored s.chip w r hopen ha (by omega) hreason]
  have hcode : w.origin.code < 6 := by cases w.origin <;> decide
  refine ⟨Chip.quiet_badAccess _ _ _ _, Chip.raise_pend _ E.REG_ACCESS (device_hasPage _) (by decide), fun hv => ?_, fun hv => ?_⟩
  · simp only [Chip.get, F.DEVICE_BAD_ADDR_ORIGIN, F.DEVICE_BAD_ADDR_REASON, F.DEVICE_BAD_ADDR_ADDR]
    rw [show (0x000058 : Nat) = F.DEVICE_BAD_ADDR_VALID.addr from rfl, Chip.badAccess_rd, hv]
    simp only [Bool.false_eq_true, if_false, bitsOf, BitVec.toNat_ofNat, F.DEVICE_BAD_ADDR_VALID]
    omega
  · rw [Chip.badAccess_rd, hv, if_pos rfl]

/-! ### SCRATCH -/

def defScratch : RegDef := ⟨0x060, 1, 0, true, true, false, false, [⟨31, 0, .rw, .l, 0, 0⟩]⟩

theorem regAt_scratch (b : Build) : regAt b F.DEVICE_SCRATCH_VALUE.addr = .reg defScratch := by cases b <;> decide +kernel

theorem defScratch_store (old w : Word) : defScratch.store old w = w := by
  have hm : (⟨31, 0, .rw, .l, 0, 0⟩ : FieldDef).mask = BitVec.allOnes 32 := by decide
  simp only [RegDef.store, defScratch, List.foldl_cons, List.foldl_nil, hm, BitVec.not_allOnes, BitVec.and_zero, BitVec.zero_or, BitVec.and_allOnes]

/-- A write of SCRATCH is the word written. -/
theorem Chip.write32_scratch (c : Chip) (o : Origin) (w : Word) (h : Calm c) :
    c.write32 o F.DEVICE_SCRATCH_VALUE.addr w = c.wr F.DEVICE_SCRATCH_VALUE.addr w := by
  have hm : mirrorAddr F.DEVICE_SCRATCH_VALUE.addr = false := by decide +kernel
  rw [Chip.write32_block c o _ w _ (by decide) (by decide) (by decide) (regAt_scratch c.build) h.2]
  show (Chip.noteMirror (c.wr _ (defScratch.store _ w)) _).settle = _
  rw [Chip.noteMirror_other _ _ hm, defScratch_store]
  exact (h.wr _ w (by decide)).settle

/-! ### The fixed order of the paths (R54) -/

theorem busWords_origin {v w : BusWrite} (h : v ∈ busWords w) : v.origin = w.origin := by
  unfold busWords at h
  split at h
  · simp only [List.mem_cons, List.not_mem_nil, or_false] at h
    rcases h with rfl | rfl <;> rfl
  · rw [List.mem_singleton.1 h]

/-- The order in which the writes of a cycle arrive does not matter between paths of different places. -/
theorem sameCycle_comm (l m : List BusWrite) (h : ∀ v ∈ l, ∀ w ∈ m, Origin.rank v.origin ≠ Origin.rank w.origin) :
    sameCycle (l ++ m) = sameCycle (m ++ l) := by
  unfold sameCycle
  congr 1
  funext k
  rw [List.filter_append, List.filter_append]
  by_cases hl : l.filter (fun w => decide (Origin.rank w.origin = k)) = []
  · rw [hl, List.nil_append, List.append_nil]
  · obtain ⟨v, hv⟩ := List.exists_mem_of_ne_nil _ hl
    have hv := List.mem_filter.1 hv
    have hm : m.filter (fun w => decide (Origin.rank w.origin = k)) = [] := by
      rw [List.filter_eq_nil_iff]
      intro w hw he
      exact h v hv.1 w hw ((of_decide_eq_true hv.2).trans (of_decide_eq_true he).symm)
    rw [hm, List.nil_append, List.append_nil]

theorem Chip.cycleWrites_comm (c : Chip) (v w : BusWrite) (h : Origin.rank v.origin ≠ Origin.rank w.origin) :
    c.cycleWrites [v, w] = c.cycleWrites [w, v] := by
  have hs : sameCycle ([v, w].flatMap busWords) = sameCycle ([w, v].flatMap busWords) := by
    simp only [List.flatMap_cons, List.flatMap_nil, List.append_nil]
    refine sameCycle_comm _ _ (fun x hx y hy => ?_)
    rw [busWords_origin hx, busWords_origin hy]
    exact h
  unfold Chip.cycleWrites
  rw [hs]

/-- Writes of one cycle that clear neither pending bits nor error records are served one after the other. -/
theorem Chip.cycleWrites_two (c : Chip) (v w : BusWrite) (hv : v.size ≠ 8) (hw : w.size ≠ 8) (h : sameCycle [v, w] = [w, v])
    (pv : c.pendCleared v = [] ∧ c.errCleared v = []) (pw : c.pendCleared w = [] ∧ c.errCleared w = []) :
    c.cycleWrites [v, w] = (c.busWrite w).busWrite v := by
  unfold Chip.cycleWrites
  simp [busWords_small v hv, busWords_small w hw, h, Chip.goesNow, Chip.busWrites, pv, pw]

/-- A write of SCRATCH clears neither. -/
theorem Chip.cleared_scratch (c : Chip) (o : Origin) (d : BitVec 64) :
    c.pendCleared ⟨o, F.DEVICE_SCRATCH_VALUE.addr, 4, d⟩ = [] ∧ c.errCleared ⟨o, F.DEVICE_SCRATCH_VALUE.addr, 4, d⟩ = [] := by
  have h : c.wordWritten ⟨o, F.DEVICE_SCRATCH_VALUE.addr, 4, d⟩ = some F.DEVICE_SCRATCH_VALUE.addr := by
    unfold Chip.wordWritten
    dsimp only
    rw [show F.DEVICE_SCRATCH_VALUE.addr % 2 ^ 24 = F.DEVICE_SCRATCH_VALUE.addr from rfl, regAt_scratch]
    rfl
  unfold Chip.pendCleared Chip.errCleared
  rw [h]
  exact ⟨rfl, rfl⟩

/-- Of two writes, the one whose path comes first is served first. -/
theorem sameCycle_lower (v w : BusWrite) (h : Origin.rank w.origin < Origin.rank v.origin) : sameCycle [v, w] = [w, v] := by
  have hl : ∀ k, [v, w].filter (fun x => decide (Origin.rank x.origin = k)) =
      (if Origin.rank w.origin = k then [w] else []) ++ (if Origin.rank v.origin = k then [v] else []) := by
    intro k
    by_cases h1 : Origin.rank v.origin = k
    · simp [List.filter_cons, h1, show Origin.rank w.origin ≠ k by omega]
    · simp [List.filter_cons, h1]
  unfold sameCycle
  simp only [hl]
  cases hv : v.origin <;> cases hw : w.origin <;> simp [hv, hw, Origin.rank] at h <;> rfl

theorem exec_registerWrite (w : BusWrite) (same : List BusWrite) (s : State) :
    exec (.registerWrite w same) s = Machine.serve s (fun c => c.cycleWrites ((w :: same).filter (fun x => c.hears x.origin))) := rfl

/-- An aligned 64-bit write is its two halves in ascending order, alone in its cycle. -/
theorem Chip.cycleWrites_wide (c : Chip) (o : Origin) (a : Nat) (d : BitVec 64) (h8 : a % 8 = 0) (ha : a < 0x800000) :
    c.cycleWrites [⟨o, a, 8, d⟩] =
      c.cycleWrites [⟨o, a, 4, (d.truncate 32).setWidth 64⟩, ⟨o, a + 4, 4, ((d >>> 32).truncate 32).setWidth 64⟩] := by
  have e : a % 2 ^ 24 = a := Nat.mod_eq_of_lt (by omega)
  have hw : busWords ⟨o, a, 8, d⟩ = [⟨o, a, 4, (d.truncate 32).setWidth 64⟩, ⟨o, a + 4, 4, ((d >>> 32).truncate 32).setWidth 64⟩] := by
    simp only [busWords, h8, e, ha, decide_true, Bool.and_self, if_true]
  have hl : ∀ x y : BusWrite, x.size ≠ 8 → y.size ≠ 8 → [x, y].flatMap busWords = [x, y] := fun x y hx hy => by
    simp [busWords_small x hx, busWords_small y hy]
  unfold Chip.cycleWrites
  rw [hl _ _ (by simp) (by simp), List.flatMap_cons, List.flatMap_nil, List.append_nil, hw]

/-- Settles O6: SCRATCH by its write, 64-bit accesses by their words, and the order of a cycle by the ranks of its paths. -/
theorem writesTakeEffectInOrder : Obligations.WritesTakeEffectInOrder := by
  refine ⟨fun s o w hr hc => ?_, fun s o a d h8 ha => ?_, fun s v w h => ?_, fun s v w o p hr hc h => ?_⟩
  · refine Completes.registerWrite hr (by simp) ?_
    change (s.chip.write32 o F.DEVICE_SCRATCH_VALUE.addr w).rd _ = w ∧ OnlyRegs _ _ (s.chip.write32 o F.DEVICE_SCRATCH_VALUE.addr w)
    rw [Chip.write32_scratch _ _ _ hc]
    refine ⟨by rw [Chip.rd_wr, if_pos rfl], rfl, fun a ha => ?_⟩
    rw [Chip.rd_wr, if_neg (by simpa using ha)]
  · rw [exec_registerWrite, exec_registerWrite]
    congr 1
    funext c
    by_cases ho : c.hears o = true
    · simpa [List.filter_cons, ho] using c.cycleWrites_wide o a d h8 ha
    · simp [List.filter_cons, ho]
  · rw [exec_registerWrite, exec_registerWrite]
    congr 1
    funext c
    by_cases hv : c.hears v.origin = true <;> by_cases hw : c.hears w.origin = true <;> simp [List.filter_cons, hv, hw]
    exact c.cycleWrites_comm v w h
  · refine Completes.serve _ (exec_registerWrite _ _ s) hr.notFrozen ?_
    have hs := sameCycle_lower ⟨p, F.DEVICE_SCRATCH_VALUE.addr, 4, w.setWidth 64⟩ ⟨o, F.DEVICE_SCRATCH_VALUE.addr, 4, v.setWidth 64⟩ h
    simp only [List.filter_cons, hr.hears, if_true, List.filter_nil]
    rw [Chip.cycleWrites_two _ _ _ (by simp) (by simp) hs (Chip.cleared_scratch _ _ _) (Chip.cleared_scratch _ _ _)]
    change ((s.chip.write32 o _ v).write32 p _ w).rd _ = w
    rw [Chip.write32_scratch _ o v hc, Chip.write32_scratch _ p w (hc.wr _ v (by decide)), Chip.rd_wr, if_pos rfl]

/-! ### Registers whose write does no more than store -/

/-- The registers, one by one, whose write does more than store its fields. -/
def effectRegs : List Nat :=
  [F.DEVICE_BAD_ADDR_VALID, F.RESET_SERVICE_PWM8, F.RESET_CMD_DEVICE, F.BELFRY_CMD_RESTART, F.BELFRY_KICK_KICK, F.THERMAL_MASK_MASK,
    F.THERMAL_THROTTLE_CFG_T_WARN, F.TIME_INC_INC, F.TIME_ADJ_ADJ, F.TIME_TS_CTRL_FLUSH, F.BAR_SRC_SRC, F.LAUNCH_PUSH_KIND, F.LAUNCH_CANCEL_ALL,
    F.MAPCTL_TAB_DATA_DATA, F.MAPCTL_LEAD_MIN_CLR, F.TILETAB_DATA_DATA, F.CHAINCTL_MON_TAIL_TAIL, F.TILERX_MARGIN_MIN_CLR, F.CORRECT_TC_DATA_TG,
    F.EOTF_TAB_DATA_LIN, F.DOSE_CURVE_DOSE_DOSE, F.DOSE_CURVE_LUM_LUM, F.DRIVECTL_FADE_GO, F.DRIVECTL_SPL_DATA_Y, F.DIAG_CTRL_CLEAR,
    F.REDUN_CMD_FORCE_RELEASE, F.MIRROR_CMD_FULL, F.ECC_SCRUB_NOW, F.ECC_DREMAP_DATA_VALID, F.ECC_SPLIT_CTRL_GO, F.UPDATE_CMD_OPEN,
    F.UPDATE_BLOCK_DATA_DATA, F.SETTINGS_CMD_SAVE, F.SETTINGS_LIST_DATA_ADDR, F.LOG_READ_SEQ_SEQ].map Fld.addr

/-- The pages with registers whose write does more: EVENTS, the Ethernet paths, USB4, the ports, the banks and the DRAM ports. -/
def effectPage (pg : Nat) : Bool :=
  pg = 0x001 || pg = 0x030 || pg = 0x031 || pg = 0x048 || (0x080 ≤ pg && decide (pg ≤ 0x08F)) || (0x0D0 ≤ pg && decide (pg ≤ 0x0D7)) ||
    (0x0E0 ≤ pg && decide (pg ≤ 0x0E3))

/-- A write of this register may do more than store: one of the registers above, one of those pages, a port's margin or a band's trim window. -/
def mayAct (a : Nat) : Bool :=
  decide (a ∈ effectRegs) || effectPage (a / 4096) || (a / 4096 = 0x070 && 0xC0 ≤ a % 4096) ||
    (0x0B0 ≤ a / 4096 && decide (a / 4096 ≤ 0x0B3) && decide (0x58 ≤ a % 4096))

theorem Chip.writeEffect_none (c : Chip) (o : Origin) (a : Nat) (old w : Word) (h : mayAct a = false) : c.writeEffect o a old w = c := by
  simp only [mayAct, effectPage, effectRegs, List.map_cons, List.map_nil, List.mem_cons, List.not_mem_nil, Bool.or_eq_false_iff,
    decide_eq_false_iff_not, not_or, Bool.and_eq_false_iff] at h
  unfold Chip.writeEffect
  simp [h]
  grind

/-! ### Shadowed registers -/

/-- The addresses of the shadowed registers of a build. -/
def shadowAddrs (b : Build) : List Nat :=
  pageDefs.flatMap (fun p => (List.range (p.num b)).flatMap (fun i =>
    (p.regs.filter RegDef.shadowed).flatMap (fun r => r.offsets.map (fun off => (p.first + i) * 4096 + off))))

theorem RegDef.mem_offsets_of_covers {r : RegDef} {off : Nat} (h : r.covers off = true) : off ∈ r.offsets := by
  unfold RegDef.covers at h
  unfold RegDef.offsets
  split at h
  · rename_i hc
    simpa [hc] using h
  · rename_i hc
    simp only [Bool.and_eq_true, decide_eq_true_eq] at h
    obtain ⟨⟨h1, h2⟩, h3⟩ := h
    rw [if_neg hc, List.mem_map]
    refine ⟨(off - r.off) / r.stride, List.mem_range.2 h3, ?_⟩
    have := Nat.div_add_mod (off - r.off) r.stride
    rw [Nat.mul_comm] at this
    omega

/-- A page that a build has is one of the pages of a definition. -/
theorem findPage_some {b : Build} {pg : Nat} {p : PageDef} (h : findPage b pg = some p) : p ∈ pageDefs ∧ ∃ i < p.num b, pg = p.first + i := by
  have h2 := List.find?_some h
  simp only [Bool.and_eq_true, decide_eq_true_eq] at h2
  exact ⟨List.mem_of_find?_eq_some h, pg - p.first, by omega, by omega⟩

/-- A register stands in the header or in the registers of its page, at an offset that it covers. -/
theorem regAt_reg {b : Build} {a : Nat} {d : RegDef} (h : regAt b a = .reg d) :
    ∃ p, findPage b (a / 4096) = some p ∧ d ∈ headerRegs ++ p.regs ∧ d.covers (a % 4096) = true := by
  cases hp : findPage b (a / 4096) with
  | none => simp [regAt, hp] at h
  | some p =>
    refine ⟨p, rfl, ?_⟩
    cases hf : (headerRegs ++ p.regs).find? (fun r => r.covers (a % 4096)) with
    | none => simp [regAt, hp, hf] at h
    | some r =>
      have hr := List.mem_of_find?_eq_some hf
      have hc := List.find?_some hf
      cases b
      all_goals
        simp only [regAt, hp, hf] at h
        split at h
        · cases h
          exact ⟨hr, hc⟩
        · split at h
          · rename_i r' hf'
            cases h
            have hc' := List.find?_some hf'
            simp only [Bool.and_eq_true] at hc'
            exact ⟨List.mem_append_right _ (List.mem_of_find?_eq_some hf'), hc'.1.1⟩
          · cases h

theorem mem_shadowAddrs {b : Build} {a : Nat} {d : RegDef} (h : regAt b a = .reg d) (hs : d.shadowed = true) : a ∈ shadowAddrs b := by
  obtain ⟨p, hp, hd, hc⟩ := regAt_reg h
  obtain ⟨hpd, i, hi, hpg⟩ := findPage_some hp
  have hd : d ∈ p.regs := by
    refine (List.mem_append.1 hd).resolve_left (fun hh => ?_)
    have : ∀ r ∈ headerRegs, r.shadowed = false := by decide
    rw [this d hh] at hs
    cases hs
  simp only [shadowAddrs, List.mem_flatMap, List.mem_range, List.mem_map, List.mem_filter]
  exact ⟨p, hpd, i, hi, d, ⟨hd, hs⟩, a % 4096, RegDef.mem_offsets_of_covers hc, by omega⟩

/-- What the register map says of the shadowed registers: they lie in the pages, and a write of one that is stored does no more than store it, but
for RESET.SERVICE. -/
theorem shadowAddrs_plain (b : Build) : ∀ a ∈ shadowAddrs b, a < 0x400000 ∧ a ≠ F.DEBUG_CTRL_UNLOCK.addr ∧
    (unstored a = true ∨ a = F.RESET_SERVICE_PWM8.addr ∨ mayAct a = false) := by
  cases b <;> decide +kernel

/-- No shadowed register has a quiesce field. -/
theorem shadowed_quiesce {b : Build} {a : Nat} {d : RegDef} (h : regAt b a = .reg d) (hs : d.shadowed = true) (old w : Word) :
    d.quiesceChange old w = false := by
  obtain ⟨p, hp, hd, -⟩ := regAt_reg h
  have hq : ∀ p ∈ pageDefs, ∀ r ∈ headerRegs ++ p.regs, r.shadowed = true → ∀ f ∈ r.fields, f.cls ≠ .q := by decide +kernel
  have hq := hq p (findPage_some hp).1 d hd hs
  unfold RegDef.quiesceChange
  rw [List.any_eq_false]
  intro f hf
  simp [hq f hf]

/-- A write of a stored shadowed register: its record, the word stored, and what RESET.SERVICE does. -/
theorem Chip.write32_shadowed (c : Chip) (o : Origin) (a : Nat) (w : Word) (d : RegDef) (hc : Calm c) (h40 : 0x40 ≤ a % 4096) (h4 : a % 4 = 0)
    (hr : regAt c.build a = .reg d) (hs : d.shadowed = true) (hu : unstored a = false) :
    c.write32 o a w =
      ((((c.logChange o a w).wr a (d.store (c.rd a) w)).writeEffect o a (c.rd a) w).noteMirror a).settle := by
  obtain ⟨ha, hdbg, -⟩ := shadowAddrs_plain c.build a (mem_shadowAddrs hr hs)
  rw [Chip.write32_block c o a w d ha h4 h40 hr hc.2]
  unfold Chip.blockWrite Chip.sizeError
  simp only [shadowed_quiesce hr hs, hdbg, hs, hu, decide_false, Bool.false_and, Bool.true_or, Bool.or_false, Bool.false_eq_true, if_false, if_true]

theorem Chip.logChange_room (c : Chip) (o : Origin) (a : Nat) (w : Word) (h : c.changeQ.length < 64) :
    c.logChange o a w =
      { c with changeQ := c.changeQ ++ [{ time := c.time64, bar := c.barCount, addr := a, value := w.toNat, origin := o.code }] } := by
  unfold Chip.logChange
  rw [if_pos h]

/-! ### RESET.SERVICE -/

def defService : RegDef := ⟨0x048, 1, 0, true, true, false, false, [⟨31, 30, .ro, .l, 0, 0⟩, ⟨1, 1, .rw, .s, 1, 0⟩, ⟨0, 0, .rw, .l, 0, 1⟩]⟩

theorem regAt_service (b : Build) : regAt b F.RESET_SERVICE_PWM8.addr = .reg defService := by cases b <;> decide +kernel

theorem defService_pwm8 (old w : Word) : bitsOf (defService.store old w) 0 0 = bitsOf w 0 0 := by
  have h1 : (⟨1, 1, .rw, .s, 1, 0⟩ : FieldDef).mask = 2 := by decide
  have h0 : (⟨0, 0, .rw, .l, 0, 1⟩ : FieldDef).mask = 1 := by decide
  simp only [RegDef.store, defService, List.foldl_cons, List.foldl_nil, h1, h0, bitsOf]
  have hb : ∀ x : Word, x.toNat / 2 ^ 0 % 2 ^ (0 + 1 - 0) = (x &&& 1).toNat := by
    intro x
    simp [Nat.and_one_is_mod]
  rw [hb, hb]
  congr 1
  ext i hi
  simp only [BitVec.getElem_and, BitVec.getElem_or, BitVec.getElem_not]
  generalize (1 : Word)[i] = q
  cases q <;> simp

@[simp] theorem Chip.noteMirror_inUse (c : Chip) (a : Nat) : (c.noteMirror a).inUse = c.inUse := by unfold Chip.noteMirror; split <;> rfl
@[simp] theorem Chip.noteMirror_changeQ (c : Chip) (a : Nat) : (c.noteMirror a).changeQ = c.changeQ := by unfold Chip.noteMirror; split <;> rfl
@[simp] theorem Chip.noteMirror_build (c : Chip) (a : Nat) : (c.noteMirror a).build = c.build := by unfold Chip.noteMirror; split <;> rfl
@[simp] theorem Chip.noteMirror_host (c : Chip) (a : Nat) : (c.noteMirror a).host = c.host := by unfold Chip.noteMirror; split <;> rfl
@[simp] theorem Chip.noteMirror_mem (c : Chip) (a : Nat) : (c.noteMirror a).mem = c.mem := by unfold Chip.noteMirror; split <;> rfl
@[simp] theorem Chip.noteMirror_out (c : Chip) (a : Nat) : (c.noteMirror a).out = c.out := by unfold Chip.noteMirror; split <;> rfl

theorem Calm.noteMirror {c : Chip} (h : Calm c) (a : Nat) : Calm (c.noteMirror a) := h.of_ctrls (by simp) (by simp) (by simp) (by simp)

theorem Calm.set {c : Chip} (h : Calm c) (f : Fld) (v : Nat) (hf : f.addr % 4096 ≠ 4) : Calm (c.set f v) := h.wr _ _ hf

/-- Full service of the part changes only LEVEL, the time of it and the domains that are on. -/
theorem Chip.fullService_cases (c : Chip) :
    c.fullService = c ∨ ∃ t n, c.fullService = ((c.set F.RESET_SERVICE_LEVEL 2).set F.RESET_TIMES_FULL_MS t).set F.CLOCKS_DOMAINS_ON n := by
  unfold Chip.fullService
  split
  · exact Or.inr ⟨_, _, rfl⟩
  · exact Or.inl rfl

theorem Calm.fullService {c : Chip} (h : Calm c) : Calm c.fullService := by
  rcases c.fullService_cases with e | ⟨t, n, e⟩ <;> rw [e]
  · exact h
  · exact ((h.set _ _ (by decide)).set _ _ (by decide)).set _ _ (by decide)

theorem Chip.fullService_inUse (c : Chip) : c.fullService.inUse = c.inUse := by
  rcases c.fullService_cases with e | ⟨t, n, e⟩ <;> rw [e] <;> rfl

theorem Chip.fullService_changeQ (c : Chip) : c.fullService.changeQ = c.changeQ := by
  rcases c.fullService_cases with e | ⟨t, n, e⟩ <;> rw [e] <;> rfl

theorem Chip.fullService_pwm8 (c : Chip) : c.fullService.get F.RESET_SERVICE_PWM8 = c.get F.RESET_SERVICE_PWM8 := by
  rcases c.fullService_cases with e | ⟨t, n, e⟩ <;> rw [e]
  rw [Chip.get_set_ne _ _ _ _ (by decide), Chip.get_set_ne _ _ _ _ (by decide),
    Chip.get_set_field _ _ _ _ (by decide) (by decide) (by decide) (by decide)]

theorem Completes.registerWrite32 {s : State} {o : Origin} {a : Nat} {w : Word} {P : Chip → Prop} (hr : Runs s) (hp : P (s.chip.write32 o a w)) :
    Completes (.registerWrite { origin := o, addr := a, size := 4, data := w.setWidth 64 } []) s P :=
  Completes.registerWrite hr (by simp) hp

/-- Settles O7: the word is stored beside its record; of the shadowed registers only RESET.SERVICE acts at its write. -/
theorem shadowWriteWaitsForACommit : Obligations.ShadowWriteWaitsForACommit := by
  intro s o a w d hrun hc h40 h4 hr hs hu hlen
  obtain ⟨-, -, hact⟩ := shadowAddrs_plain s.chip.build a (mem_shadowAddrs hr hs)
  refine Completes.registerWrite32 hrun ?_
  rw [Chip.write32_shadowed s.chip o a w d hc h40 h4 hr hs hu, Chip.logChange_room _ _ _ _ hlen]
  set q := s.chip.changeQ ++ [{ time := s.chip.time64, bar := s.chip.barCount, addr := a, value := w.toNat, origin := o.code }] with hq
  set x := Chip.wr { s.chip with changeQ := q } a (d.store (s.chip.rd a) w) with hx
  have hcx : Calm x := Calm.wr (hc.of_ctrls rfl rfl rfl rfl) a _ (by omega)
  have hxa : x.rd a = d.store (s.chip.rd a) w := by rw [hx, Chip.rd_wr, if_pos rfl]
  by_cases ha : a = F.RESET_SERVICE_PWM8.addr
  · subst ha
    have he : x.writeEffect o F.RESET_SERVICE_PWM8.addr (s.chip.rd F.RESET_SERVICE_PWM8.addr) w = x.fullService := rfl
    have hd : d = defService := by
      rw [regAt_service] at hr
      injection hr with hr
      exact hr.symm
    rw [he, (hcx.fullService.noteMirror _).settle, if_pos rfl]
    refine ⟨?_, ?_, ?_⟩
    · rw [Chip.noteMirror_inUse, Chip.fullService_inUse]
      rfl
    · rw [Chip.noteMirror_changeQ, Chip.fullService_changeQ]
      rfl
    · rw [Chip.noteMirror_get, Chip.fullService_pwm8, Chip.get, hxa, hd]
      exact defService_pwm8 _ w
  · have hact : mayAct a = false := by
      rcases hact with h | h | h
      · rw [hu] at h
        cases h
      · exact absurd h ha
      · exact h
    rw [Chip.writeEffect_none _ _ _ _ _ hact, (hcx.noteMirror _).settle, if_neg ha]
    refine ⟨by rw [Chip.noteMirror_inUse]; rfl, by rw [Chip.noteMirror_changeQ]; rfl, by rw [Chip.noteMirror_rd, hxa], fun b hb => ?_⟩
    rw [Chip.noteMirror_rd, hx, Chip.rd_wr, if_neg hb]
    rfl

end Sys2Proof.Machine
end

