-- ==== Sys2Proof/Proofs/PageHeaders.lean ====
section
-- One proof at a time: proofs that wait for the kernel side by side hold more memory than the check allows.
set_option Elab.async false
/-! PROOF. The header of a page and writes of its block registers: error records, forced events and messages (R44, R45, R48, R55, R60, R321). -/

namespace Sys2Proof.Machine

/-! ### The header of a page -/

/-- Every register of the header is found first, and both builds have it on every page. -/
theorem find_header (l : List RegDef) : ∀ off ∈ headerRegs.map RegDef.off,
    ∃ r, (headerRegs ++ l).find? (fun r => r.covers off) = some r ∧ r.inS = true ∧ r.inT = true ∧ r.firstOnly = false := by
  intro off h
  simp only [headerRegs, List.map_cons, List.map_nil] at h
  fin_cases h <;> exact ⟨_, rfl, rfl, rfl, rfl⟩

theorem regAt_header {c : Chip} {pg off : Nat} (hp : c.hasPage pg = true) (ho : off ∈ headerRegs.map RegDef.off) :
    ∃ d, regAt c.build (pg * 4096 + off) = .reg d := by
  have hlt : off < 4096 := by
    have : ∀ x ∈ headerRegs.map RegDef.off, x < 4096 := by decide
    exact this off ho
  obtain ⟨hpg, hoff⟩ : (pg * 4096 + off) / 4096 = pg ∧ (pg * 4096 + off) % 4096 = off := by omega
  obtain ⟨p, hp⟩ := Option.isSome_iff_exists.1 hp
  obtain ⟨r, hr, hS, hT, hf⟩ := find_header p.regs off ho
  refine ⟨r, ?_⟩
  simp only [regAt, hpg, hoff, hp, hr, hf]
  cases c.build <;> simp [hS, hT]

theorem pageDefs_lt : ∀ p ∈ pageDefs, p.first + p.numS ≤ 1024 ∧ p.first + p.numT ≤ 1024 := by decide

theorem Chip.hasPage_lt {c : Chip} {pg : Nat} (h : c.hasPage pg = true) : pg < 1024 := by
  obtain ⟨p, hp⟩ := Option.isSome_iff_exists.1 h
  obtain ⟨hpd, i, hi, rfl⟩ := findPage_some hp
  have := pageDefs_lt p hpd
  cases hb : c.build <;> simp only [hb, PageDef.num] at hi <;> omega

/-- A write of a header register of a page that the build has. -/
theorem Chip.write32_page (c : Chip) (o : Origin) (pg off : Nat) (w : Word) (hp : c.hasPage pg = true) (ho : off ∈ headerRegs.map RegDef.off)
    (hopen : c.pathsOpen = true) : c.write32 o (pg * 4096 + off) w = c.headerWrite o pg off w := by
  obtain ⟨d, hd⟩ := regAt_header hp ho
  have hlt := Chip.hasPage_lt hp
  have hoff : off < 0x40 ∧ off % 4 = 0 := by
    have : ∀ x ∈ headerRegs.map RegDef.off, x < 0x40 ∧ x % 4 = 0 := by decide
    exact this off ho
  rw [Chip.write32_header c o _ w d (by omega) (by omega) (by omega) hd hopen]
  rw [show (pg * 4096 + off) / 4096 = pg by omega, show (pg * 4096 + off) % 4096 = off by omega]

/-- A field of a page just set. -/
theorem Chip.get_set_pg (c : Chip) (f : Fld) (pg v : Nat) (h1 : f.lo ≤ f.hi) (h2 : f.hi < 32) :
    (c.set (f.pg pg) v).get (f.pg pg) = v % 2 ^ (f.hi + 1 - f.lo) := c.get_set (f.pg pg) v h1 h2

/-! ### Error records (R48, R321) -/

theorem Chip.logChange_rd (c : Chip) (o : Origin) (a b : Nat) (w : Word) (h : eventReg b = false) (hb : b ≠ F.DEVICE_CHANGE_LOST_COUNT.addr) :
    (c.logChange o a w).rd b = c.rd b := by
  unfold Chip.logChange
  split
  · rfl
  · rw [Chip.raise_rd_of _ _ _ h, Chip.bumpSat_rd_ne _ _ _ _ hb]

/-- A register of a header that neither events nor change records write. -/
theorem eventReg_header (pg k : Nat) (hk : k < 0x38) (h18 : k ≠ 0x18) :
    eventReg (pg * 4096 + k) = false ∧ pg * 4096 + k ≠ F.DEVICE_CHANGE_LOST_COUNT.addr := by
  have hm : (pg * 4096 + k) % 4096 = k := by omega
  have hne : ∀ x, 0x38 ≤ x % 4096 → pg * 4096 + k ≠ x := fun x hx => by omega
  refine ⟨?_, hne _ (by decide)⟩
  simp only [eventReg, hm, h18, List.mem_cons, List.not_mem_nil, hne _ (show 0x38 ≤ F.USB4_PBA.addr % 4096 by decide),
    hne _ (show 0x38 ≤ F.ECC_EVQ_LOST.addr % 4096 by decide), hne _ (show 0x38 ≤ F.CHAINCTL_MON_LOST_COUNT.addr % 4096 by decide), or_self,
    decide_false, Bool.or_self]

/-- ERR_CTRL written: its change record, what is cleared, and the arming. -/
theorem Chip.errCtrl_eq (c : Chip) (o : Origin) (pg bits : Nat) (hp : c.hasPage pg = true) (hopen : c.pathsOpen = true) :
    c.errCtrl o pg bits = c.errCtrlWrite o pg (BitVec.ofNat 32 bits) := by
  unfold Chip.errCtrl Chip.when
  rw [if_pos (by simpa using Chip.hasPage_lt hp)]
  exact Chip.write32_page c o pg 0x34 _ hp (by decide) hopen

/-- What the clears leave in the words of a page's records. -/
theorem Chip.errClear_rd (c : Chip) (pg k : Nat) (first worst count : Bool) :
    (c.errClear pg first worst count).rd (pg * 4096 + k) =
      if (first && (k = 0x20 || k = 0x24)) || (worst && (k = 0x28 || k = 0x2C)) || (count && k = 0x30) then 0 else c.rd (pg * 4096 + k) := by
  have hw : ∀ (d : Chip) (j : Nat), (d.wr (pg * 4096 + j) 0).rd (pg * 4096 + k) = if k = j then 0 else d.rd (pg * 4096 + k) := fun d j => by
    rw [Chip.rd_wr]
    simp
  unfold Chip.errClear
  cases first <;> cases worst <;> cases count <;> simp only [hw, if_true, if_false, Bool.false_eq_true, Bool.true_and, Bool.false_and, Bool.or_false,
    Bool.false_or, Bool.or_eq_true, decide_eq_true_eq] <;> grind

theorem Chip.quiet_header (c : Chip) (pg k : Nat) (w : Word) (h1 : 0x10 ≤ k) (h2 : k < 0x38) : Quiet c (c.wr (pg * 4096 + k) w) :=
  c.quiet_wr _ _ (quietReg_header pg k h1 h2)

theorem Chip.quiet_errClear (c : Chip) (pg : Nat) (first worst count : Bool) : Quiet c (c.errClear pg first worst count) := by
  have h1 : ∀ d : Chip, Quiet d (if first then (d.wr (pg * 4096 + 0x20) 0).wr (pg * 4096 + 0x24) 0 else d) := fun d => by
    split
    · exact (d.quiet_header pg _ 0 (by decide) (by decide)).trans (Chip.quiet_header _ pg _ 0 (by decide) (by decide))
    · exact Quiet.refl d
  have h2 : ∀ d : Chip, Quiet d (if worst then (d.wr (pg * 4096 + 0x28) 0).wr (pg * 4096 + 0x2C) 0 else d) := fun d => by
    split
    · exact (d.quiet_header pg _ 0 (by decide) (by decide)).trans (Chip.quiet_header _ pg _ 0 (by decide) (by decide))
    · exact Quiet.refl d
  have h3 : ∀ d : Chip, Quiet d (if count then d.wr (pg * 4096 + 0x30) 0 else d) := fun d => by
    split
    · exact d.quiet_header pg _ 0 (by decide) (by decide)
    · exact Quiet.refl d
  exact ((h1 c).trans (h2 _)).trans (h3 _)

/-- A write of ERR_CTRL is a report; it leaves of the records what it does not clear. -/
theorem Chip.errCtrlWrite_spec (c : Chip) (o : Origin) (pg : Nat) (w : Word) :
    Quiet c (c.errCtrlWrite o pg w) ∧
      (∀ k, k < 0x34 → k ≠ 0x18 → (c.errCtrlWrite o pg w).rd (pg * 4096 + k) =
        if (w.getLsbD 0 && (k = 0x20 || k = 0x24)) || (w.getLsbD 1 && (k = 0x28 || k = 0x2C)) || (w.getLsbD 2 && k = 0x30) then 0
        else c.rd (pg * 4096 + k)) ∧
      ((w.getLsbD 3 && flipPage pg) = true → (c.errCtrlWrite o pg w).get (F.FLIP_ARM.pg pg) = 1) := by
  have harm : (F.FLIP_ARM.pg pg).addr = pg * 4096 + 0x34 := by
    show 0x34 + 4096 * pg = _
    omega
  have hq : ∀ b : Bool, Quiet c (if b then c.logChange o (pg * 4096 + 0x34) w else c) := fun b => by
    split
    · exact c.quiet_logChange _ _ _
    · exact Quiet.refl c
  have hrd : ∀ b : Bool, ∀ k, k < 0x34 → k ≠ 0x18 →
      (if b then c.logChange o (pg * 4096 + 0x34) w else c).rd (pg * 4096 + k) = c.rd (pg * 4096 + k) := fun b k hk h18 => by
    split
    · exact c.logChange_rd o _ _ w (eventReg_header pg k (by omega) h18).1 (eventReg_header pg k (by omega) h18).2
    · rfl
  unfold Chip.errCtrlWrite
  dsimp only
  refine ⟨?_, fun k hk h18 => ?_, fun ha => ?_⟩
  · have hclear := (hq (decide (bitsOf w 2 0 ≠ 0) || (w.getLsbD 3 && flipPage pg))).trans
      (Chip.quiet_errClear _ pg (w.getLsbD 0) (w.getLsbD 1) (w.getLsbD 2))
    split
    · exact hclear.trans (Chip.quiet_set _ _ _ (by rw [harm]; exact quietReg_header pg _ (by decide) (by decide)))
    · exact hclear
  · rw [← hrd _ k hk h18, ← Chip.errClear_rd]
    split
    · exact Chip.rd_set_ne _ _ _ _ (by omega)
    · rfl
  · rw [if_pos ha]
    exact Chip.get_set_pg _ F.FLIP_ARM pg _ (by decide) (by decide)

/-- Settles O11: each clear is a write of ERR_CTRL with its bit. -/
theorem errorRecordsClear : Obligations.ErrorRecordsClear := by
  intro s o pg hr hopen hp
  have hw := s.chip.errCtrlWrite_spec o pg
  have he := fun bits => s.chip.errCtrl_eq o pg bits hp hopen
  refine ⟨?_, ?_, ?_, ?_⟩
  · obtain ⟨hq, hrd, -⟩ := hw 1
    refine Completes.serveFor o (fun c => c.errCtrl o pg 1) rfl hr ?_
    rw [he]
    exact ⟨hrd 0x20 (by decide) (by decide), hrd 0x24 (by decide) (by decide),
      fun k hk => by fin_cases hk <;> exact hrd _ (by decide) (by decide), hq⟩
  · obtain ⟨hq, hrd, -⟩ := hw 2
    refine Completes.serveFor o (fun c => c.errCtrl o pg 2) rfl hr ?_
    rw [he]
    exact ⟨hrd 0x28 (by decide) (by decide), hrd 0x2C (by decide) (by decide),
      fun k hk => by fin_cases hk <;> exact hrd _ (by decide) (by decide), hq⟩
  · obtain ⟨hq, hrd, -⟩ := hw 4
    refine Completes.serveFor o (fun c => c.errCtrl o pg 4) rfl hr ?_
    rw [he]
    exact ⟨hrd 0x30 (by decide) (by decide), fun k hk => by fin_cases hk <;> exact hrd _ (by decide) (by decide), hq⟩
  · obtain ⟨hq, -, harm⟩ := hw 8
    refine Completes.serveFor o (fun c => c.errCtrl o pg 8) rfl hr ?_
    rw [he]
    exact ⟨fun hf => harm (by rw [hf]; rfl), hq⟩

/-! ### Block registers -/

/-- The change record of a write, where R51 asks for one. -/
def Chip.logged (c : Chip) (o : Origin) (a : Nat) (d : RegDef) (w : Word) : Chip :=
  if d.shadowed || d.commandBit w || d.command then c.logChange o a w else c

theorem Chip.quiet_logged (c : Chip) (o : Origin) (a : Nat) (d : RegDef) (w : Word) : Quiet c (c.logged o a d w) := by
  unfold Chip.logged
  split
  · exact c.quiet_logChange _ _ _
  · exact Quiet.refl c

theorem Chip.logged_rd (c : Chip) (o : Origin) (a b : Nat) (d : RegDef) (w : Word) (h : eventReg b = false)
    (hb : b ≠ F.DEVICE_CHANGE_LOST_COUNT.addr) : (c.logged o a d w).rd b = c.rd b := by
  unfold Chip.logged
  split
  · exact c.logChange_rd o a b w h hb
  · rfl

/-- A write of a block register that keeps its quiesce fields: its record, the word stored, its effect, and what waits to be settled. -/
theorem Chip.write32_stored {c : Chip} {o : Origin} {a : Nat} {w : Word} {d : RegDef} (hr : regAt c.build a = .reg d)
    (ha : a < 0x400000 ∧ a % 4 = 0 ∧ 0x40 ≤ a % 4096 ∧ a ≠ F.DEBUG_CTRL_UNLOCK.addr ∧ unstored a = false)
    (hq : d.quiesceChange (c.rd a) w = false) (hopen : c.pathsOpen = true) :
    c.write32 o a w = ((((c.logged o a d w).wr a (d.store (c.rd a) w)).writeEffect o a (c.rd a) w).noteMirror a).settle := by
  obtain ⟨h1, h2, h3, hdbg, hu⟩ := ha
  rw [Chip.write32_block c o a w d h1 h2 h3 hr hopen]
  unfold Chip.blockWrite Chip.sizeError Chip.logged
  simp only [hq, hdbg, hu, decide_false, Bool.false_and, Bool.or_false, Bool.false_eq_true, if_false]

/-- A write of a register that goes to a table or an operation. -/
theorem Chip.write32_unstored {c : Chip} {o : Origin} {a : Nat} {w : Word} {d : RegDef} (hr : regAt c.build a = .reg d)
    (ha : a < 0x400000 ∧ a % 4 = 0 ∧ 0x40 ≤ a % 4096 ∧ a ≠ F.DEBUG_CTRL_UNLOCK.addr ∧ unstored a = true)
    (hq : d.quiesceChange (c.rd a) w = false) (hopen : c.pathsOpen = true) :
    c.write32 o a w = (((c.logged o a d w).writeEffect o a (c.rd a) w).noteMirror a).settle := by
  obtain ⟨h1, h2, h3, hdbg, hu⟩ := ha
  rw [Chip.write32_block c o a w d h1 h2 h3 hr hopen]
  unfold Chip.blockWrite Chip.sizeError Chip.logged
  simp only [hq, hdbg, hu, decide_false, Bool.false_and, Bool.or_false, Bool.false_eq_true, if_false, if_true]

/-! ### Forced events (R44) -/

theorem event_bit_lt : ∀ e ∈ E.all, e.bit < 32 := by decide +kernel

/-- One bit of EVT_FORCE: an event of the page, or a bit with none. -/
def Chip.forceBit (pg : Nat) (c : Chip) (b : Nat) : Chip :=
  match (pageEvents pg).find? (fun e => e.bit = b) with
  | some e => c.raise e
  | none => c.wr (pg * 4096 + 0x18) (c.rd (pg * 4096 + 0x18) ||| ((1 : Word) <<< b))

theorem Chip.evtForce_eq (c : Chip) (pg : Nat) (w : Word) (h : evtAbsent pg = false) :
    c.evtForce pg w = (List.range 32).foldl (fun c b => if w.getLsbD b then c.forceBit pg b else c) c := by
  unfold Chip.evtForce Chip.forceBit
  rw [h]
  rfl

theorem Chip.quiet_forceBit (pg : Nat) (c : Chip) (b : Nat) : Quiet c (c.forceBit pg b) := by
  unfold Chip.forceBit
  split
  · exact c.quiet_raise _
  · exact c.quiet_header pg 0x18 _ (by decide) (by decide)

theorem Chip.forceBit_keeps (pg b : Nat) : KeepsPend (fun c => c.forceBit pg b) := by
  intro c a k ha h
  dsimp only [Chip.forceBit]
  split
  · exact Chip.raise_keeps _ c a k ha h
  · exact setBit_keeps c _ b a k h

/-- The bit forced is pending. -/
theorem Chip.forceBit_pend (c : Chip) (e : Ev) (he : e ∈ E.all) (hp : c.hasPage e.page = true) : (c.forceBit e.page e.bit).pend e = true := by
  unfold Chip.forceBit
  split
  · rename_i x hx
    have hmem := List.mem_of_find?_eq_some hx
    have hbit : x.bit = e.bit := by simpa using List.find?_some hx
    simp only [pageEvents, List.mem_filter, decide_eq_true_eq] at hmem
    obtain ⟨hall, hpage⟩ := hmem
    have := c.raise_pend x (by rw [hpage]; exact hp) (event_bit_lt x hall)
    rwa [Chip.pend, hpage, hbit] at this
  · have := event_bit_lt e he
    rw [Chip.pend, Chip.rd_wr, if_pos rfl]
    simp [this]

theorem Chip.evtForce_spec (c : Chip) (e : Ev) (w : Word) (he : e ∈ E.all) (hp : c.hasPage e.page = true) (ha : evtAbsent e.page = false)
    (hw : w.getLsbD e.bit = true) : (c.evtForce e.page w).pend e = true ∧ Quiet c (c.evtForce e.page w) := by
  have hq : ∀ (l : List Nat) (d : Chip), Quiet d (l.foldl (fun c b => if w.getLsbD b then c.forceBit e.page b else c) d) := fun l d =>
    foldl_rel Quiet Quiet.refl Quiet.trans (fun c => c) _ l (fun d b _ => by
      split
      · exact d.quiet_forceBit _ _
      · exact Quiet.refl d) d
  have hk : ∀ (l : List Nat) (d : Chip), d.pend e = true → (l.foldl (fun c b => if w.getLsbD b then c.forceBit e.page b else c) d).pend e = true := by
    intro l
    induction l with
    | nil => exact fun d h => h
    | cons b t ih =>
      intro d h
      refine ih _ ?_
      dsimp only
      split
      · exact Chip.forceBit_keeps _ _ d _ _ (by omega) h
      · exact h
  rw [Chip.evtForce_eq c _ w ha]
  refine ⟨?_, hq _ c⟩
  have hsplit : List.range 32 = List.range e.bit ++ (e.bit :: (List.range 32).drop (e.bit + 1)) := by
    have hb := event_bit_lt e he
    interval_cases e.bit <;> rfl
  rw [hsplit, List.foldl_append, List.foldl_cons, if_pos hw]
  exact hk _ _ (Chip.forceBit_pend _ e he (by unfold Chip.hasPage; rw [(hq _ c).build]; exact hp))

theorem Quiet.but {c d : Chip} (h : Quiet c d) (l : List Nat) : QuietBut l c d := ⟨h.1, fun a ha _ => h.2.2 a ha⟩

/-! ### Messages (R45, R60) -/

/-- Summaries are those of the pending and enabling words. -/
theorem Chip.summary_congr {c d : Chip} (h : ∀ a, a % 4096 = 0x18 ∨ a % 4096 = 0x14 → d.rd a = c.rd a) (v : Nat) : d.summary v = c.summary v := by
  unfold Chip.summary Chip.pend Chip.evEn
  congr 1
  funext e
  rw [h _ (Or.inl (by omega)), h _ (Or.inr (by omega))]

theorem Chip.sendMsix_out (c : Chip) (v : Nat) (h : c.on (F.USB4_MSIX_MASK.plus (16 * v)) = false) :
    c.sendMsix v = { c with out := c.out ++ [.msix v] } := by
  unfold Chip.sendMsix Chip.emit
  simp [h, Output.scanned]

def defVecEoi : RegDef := ⟨0x060, 1, 0, true, true, false, false, [⟨4, 0, .wo, .l, 0, 0⟩]⟩

def defMsixMask : RegDef := ⟨0x80C, 32, 16, true, true, false, false, [⟨0, 0, .rw, .l, 1, 1⟩]⟩

theorem regAt_vecEoi (b : Build) : regAt b 0x001060 = .reg defVecEoi := by cases b <;> decide +kernel

theorem regAt_msixMask (b : Build) : ∀ v < 32, regAt b (0x04880C + 16 * v) = .reg defMsixMask := by cases b <;> decide +kernel

/-- VEC_EOI stores nothing and ends the handling of its vector. -/
theorem Chip.write32_vecEoi (c : Chip) (o : Origin) (v : Nat) (hv : v < 32) (hc : Calm c) :
    c.write32 o 0x001060 (BitVec.ofNat 32 v) = ((c.wr 0x001060 (c.rd 0x001060)).vecEoi v).settle := by
  have hm : mirrorAddr 0x001060 = false := by decide +kernel
  have hb : bitsOf (BitVec.ofNat 32 v) 4 0 = v := by
    unfold bitsOf
    rw [BitVec.toNat_ofNat]
    omega
  rw [Chip.write32_block c o _ _ _ (by decide) (by decide) (by decide) (regAt_vecEoi c.build) hc.2]
  show (Chip.noteMirror (Chip.vecEoi (c.wr _ (c.rd _)) (bitsOf _ 4 0)) _).settle = _
  rw [Chip.noteMirror_other _ _ hm, hb]

theorem Chip.rd_wr_self (c : Chip) (a b : Nat) : (c.wr a (c.rd a)).rd b = c.rd b := by
  rw [Chip.rd_wr]
  split
  · rename_i h
    rw [h]
  · rfl

theorem Chip.vecEoi_spec (c : Chip) (v : Nat) (h : c.on (F.USB4_MSIX_MASK.plus (16 * v)) = false) :
    c.vecEoi v = { c with out := if c.summary v then c.out ++ [.msix v] else c.out } := by
  unfold Chip.vecEoi
  split
  · exact c.sendMsix_out v h
  · rfl

theorem getLsbD_zero_iff (w : Word) : w.getLsbD 0 = decide (bitsOf w 0 0 = 1) := by
  rw [← BitVec.testBit_toNat, Nat.testBit_zero, bitsOf]
  simp

/-- What the mask bit of a vector holds after a write. -/
theorem defMsixMask_store (old w : Word) : bitsOf (defMsixMask.store old w) 0 0 = bitsOf w 0 0 := by
  have h0 : (⟨0, 0, .rw, .l, 1, 1⟩ : FieldDef).mask = 1 := by decide
  have hb : ∀ x : Word, bitsOf x 0 0 = (x &&& 1).toNat := by
    intro x
    simp [bitsOf, Nat.and_one_is_mod]
  simp only [RegDef.store, defMsixMask, List.foldl_cons, List.foldl_nil, h0, hb]
  congr 1
  ext i hi
  simp only [BitVec.getElem_and, BitVec.getElem_or, BitVec.getElem_not]
  generalize (1 : Word)[i] = q
  cases q <;> simp

/-- A write of the MSI-X mask of a vector that unmasks it takes its pending bit and sends its message where its summary is 1. -/
theorem msixMask_effect (c : Chip) (o : Origin) (old w : Word) (v : Nat) (hv : v < 32) (ho : old.getLsbD 0 = true) (hw : w.getLsbD 0 = false) :
    c.writeEffect o (0x04880C + 16 * v) old w =
      (c.wr F.USB4_PBA.addr (c.rd F.USB4_PBA.addr &&& ~~~((1 : Word) <<< v))).vecEoi v := by
  have h : ∀ d : Chip, d.writeEffect o (0x04880C + 16 * v) old w = if old.getLsbD 0 && !w.getLsbD 0 then
      (d.wr F.USB4_PBA.addr (d.rd F.USB4_PBA.addr &&& ~~~((1 : Word) <<< v))).vecEoi v else d := by
    intro d
    interval_cases v <;> rfl
  rw [h, ho, hw]
  rfl

theorem Chip.writeField_unmask (c : Chip) (o : Origin) (v : Nat) (hv : v < 32) (hon : c.on (F.USB4_MSIX_MASK.plus (16 * v)) = true) (hc : Calm c) :
    ∃ w x, bitsOf w 0 0 = 0 ∧ c.writeField o (F.USB4_MSIX_MASK.plus (16 * v)) 0 =
      (((c.wr (0x04880C + 16 * v) w).wr F.USB4_PBA.addr x).vecEoi v).settle := by
  have hm : ∀ v < 32, mirrorAddr (0x04880C + 16 * v) = false ∧ unstored (0x04880C + 16 * v) = false := by decide +kernel
  obtain ⟨hm, hu⟩ := hm v hv
  have ho : (c.rd (0x04880C + 16 * v)).getLsbD 0 = true := by
    rw [getLsbD_zero_iff]
    exact hon
  set w := insBits (c.keepWord (0x04880C + 16 * v)) 0 0 0 with hwd
  have hw0 : bitsOf w 0 0 = 0 := bitsOf_insBits _ 0 0 0 (by decide) (by decide)
  have hw : w.getLsbD 0 = false := by rw [getLsbD_zero_iff, hw0]; rfl
  have hdbg : 0x04880C + 16 * v ≠ F.DEBUG_CTRL_UNLOCK.addr := by
    show _ ≠ 0xF8040
    omega
  have he : c.writeField o (F.USB4_MSIX_MASK.plus (16 * v)) 0 = c.write32 o (0x04880C + 16 * v) w := rfl
  rw [Chip.write32_stored (regAt_msixMask c.build v hv) ⟨by omega, by omega, by omega, hdbg, hu⟩ (by simp [RegDef.quiesceChange, defMsixMask]) hc.2,
    msixMask_effect _ _ _ _ v hv ho hw, Chip.noteMirror_other _ _ hm] at he
  exact ⟨_, _, (defMsixMask_store _ _).trans hw0, he⟩

theorem Calm.vecEoi {c : Chip} (h : Calm c) (v : Nat) : Calm (c.vecEoi v) := by
  unfold Chip.vecEoi
  split
  · exact (c.quiet_sendMsix v).calm h
  · exact h

/-- Settles O10: EVT_FORCE by its 32 bits, VEC_EOI and an unmasking by the message they send, ALERT_N by its release. -/
theorem eventsAndMessages : Obligations.EventsAndMessages := by
  refine ⟨fun s o e bits hr hc he hp ha hb => ?_, fun s o v hr hc hv hm => ?_, fun s o v hr hc hv hm => ?_, fun s hr hk hx => ?_⟩
  · refine Completes.serveFor o (fun c => c.when (decide (e.page < 1024)) (fun c => c.write32 o (e.page * 4096 + 0x1C) bits)) rfl hr ?_
    rw [Chip.when, if_pos (by simpa using Chip.hasPage_lt hp), Chip.write32_page _ _ _ _ _ hp (by decide) hc.2]
    have hne : bits ≠ 0 := by
      rintro rfl
      simp at hb
    have hq := s.chip.quiet_logChange o (e.page * 4096 + 0x1C) bits
    have := (s.chip.logChange o (e.page * 4096 + 0x1C) bits).evtForce_spec e bits he (by unfold Chip.hasPage; rw [hq.build]; exact hp) ha hb
    have hw : s.chip.headerWrite o e.page 0x1C bits = (s.chip.logChange o (e.page * 4096 + 0x1C) bits).evtForce e.page bits := by
      show (if evtAbsent e.page || bits = 0 then _ else _) = _
      rw [if_neg (by simpa [ha] using hne)]
    rw [hw]
    exact ⟨this.1, (hq.trans this.2).but []⟩
  · refine Completes.serveFor o (fun c => c.write32 o 0x001060 (BitVec.ofNat 32 v)) rfl hr ?_
    rw [Chip.write32_vecEoi _ _ _ hv hc, ((hc.wr _ _ (by decide)).vecEoi v).settle]
    have hmask : (s.chip.wr 0x001060 (s.chip.rd 0x001060)).on (F.USB4_MSIX_MASK.plus (16 * v)) = false := by
      unfold Chip.on Chip.get
      rw [Chip.rd_wr_self, ← Chip.get, hm]
      rfl
    rw [Chip.vecEoi_spec _ _ hmask, Chip.summary_congr (fun a _ => s.chip.rd_wr_self 0x001060 a)]
    exact ⟨rfl, rfl, fun a _ _ => s.chip.rd_wr_self 0x001060 a⟩
  · obtain ⟨w, x, hw, he⟩ := s.chip.writeField_unmask o v hv hm hc
    refine Completes.serveFor o (fun c => c.when (decide (v < 32)) (fun c => c.writeField o (F.USB4_MSIX_MASK.plus (16 * v)) 0)) rfl hr ?_
    rw [Chip.when, if_pos (by simpa using hv), he, (((hc.wr _ _ (by omega)).wr _ _ (by decide)).vecEoi v).settle]
    have hget : ((s.chip.wr (0x04880C + 16 * v) w).wr F.USB4_PBA.addr x).get (F.USB4_MSIX_MASK.plus (16 * v)) = 0 := by
      have hne : 0x04880C + 16 * v ≠ F.USB4_PBA.addr := by
        show _ ≠ 0x048C00
        omega
      show bitsOf (Chip.rd _ (0x04880C + 16 * v)) 0 0 = 0
      rw [Chip.rd_wr, if_neg hne, Chip.rd_wr, if_pos rfl, hw]
    have hsum : ((s.chip.wr (0x04880C + 16 * v) w).wr F.USB4_PBA.addr x).summary v = s.chip.summary v := by
      refine Chip.summary_congr (fun a ha => ?_) v
      have hpba : F.USB4_PBA.addr % 4096 = 0xC00 := rfl
      rw [Chip.rd_wr, if_neg (by rintro rfl; omega), Chip.rd_wr, if_neg (by rintro rfl; omega)]
    rw [Chip.vecEoi_spec _ _ (by rw [Chip.on, hget]; rfl), hsum]
    exact ⟨hget, rfl⟩
  · refine Completes.live (fun c => c.when (!c.alertWanted && c.aon.knell.isNone) (fun c => c.driveAlert false)) rfl hr ?_
    unfold Chip.when
    by_cases hw : s.chip.alertWanted = true
    · simp [hw]
    · by_cases hl : s.chip.host.alertLow = true <;> simp [hw, hk, Chip.driveAlert, hl, Chip.emit, hx]

end Sys2Proof.Machine
end

