-- ==== Sys2Proof/Proofs/Usb4Link.lean ====
section
-- One proof at a time: proofs that wait for the kernel side by side hold more memory than the check allows.
set_option Elab.async false
/-! PROOF. The USB4 link, the PCIe function and DMA transfers (R56 to R61, R67, R390). -/

namespace Sys2Proof.Machine

/-! ### DMA channels through other operations -/

theorem Quiet.dma {c d : Chip} (h : Quiet c d) (n : Nat) : d.dma n = c.dma n := by
  unfold Chip.dma
  rw [h.host]

@[simp] theorem Chip.set_dma (c : Chip) (f : Fld) (v n : Nat) : (c.set f v).dma n = c.dma n := rfl
@[simp] theorem Chip.raise_dma (c : Chip) (e : Ev) (n : Nat) : (c.raise e).dma n = c.dma n := (c.quiet_raise e).dma n
@[simp] theorem Chip.cond_dma (c : Chip) (e : Ev) (b : Bool) (n : Nat) : (c.cond e b).dma n = c.dma n := (c.quiet_cond e b).dma n

theorem Chip.dmaErr_dma (c : Chip) (n code m : Nat) : (c.dmaErr n code).dma m = c.dma m := by
  unfold Chip.dmaErr
  simp

/-- ERR and its code of a channel that has just met an error. -/
theorem Chip.dmaErr_fields (c : Chip) (n code : Nat) (hn : n < 2) (hcode : code < 8) :
    (c.dmaErr n code).get (dmaF F.USB4_DMA_CTRL_ERR n) = 1 ∧ (c.dmaErr n code).get (dmaF F.USB4_DMA_CTRL_ERR_CODE n) = code := by
  unfold Chip.dmaErr
  interval_cases n <;> simp (disch := decide) only [Chip.raise_get_of, Chip.get_set_field, Chip.get_set] <;> exact ⟨rfl, Nat.mod_eq_of_lt hcode⟩

/-- A register that belongs to no event and is not the control word of the channel. -/
theorem Chip.dmaErr_get (c : Chip) (n code : Nat) (f : Fld) (h : eventReg f.addr = false) (hf : f.addr ≠ F.USB4_DMA_CTRL_ERR.addr + 0x20 * n) :
    (c.dmaErr n code).get f = c.get f := by
  rw [Chip.dmaErr, Chip.raise_get_of _ _ _ h, Chip.get_set_ne _ (dmaF F.USB4_DMA_CTRL_ERR_CODE n) _ _ hf,
    Chip.get_set_ne _ (dmaF F.USB4_DMA_CTRL_ERR n) _ _ hf]

theorem dmaF_quiet (f : Fld) (n : Nat) (h : f.addr = F.USB4_DMA_CTRL_ERR.addr) (hn : n < 2) : eventReg (dmaF f n).addr = false := by
  show eventReg (f.addr + 0x20 * n) = false
  rw [h]
  interval_cases n <;> decide

/-! ### Words that return to reset -/

theorem smFind_filter {α : Type} (q : Nat → Bool) (m : SMap α) (k : Nat) :
    smFind (m.filter (fun p => q p.1)) k = if q k then smFind m k else none := by
  induction m with
  | nil => simp [smFind]
  | cons p t ih =>
    obtain ⟨i, v⟩ := p
    by_cases hi : q i = true
    · simp only [List.filter_cons, hi, if_true, smFind, ih]
      split
      · rename_i hk
        rw [hk, if_pos hi]
      · rfl
    · simp only [List.filter_cons, hi, if_false, ih, smFind, Bool.false_eq_true]
      by_cases hk : k = i
      · rw [hk, if_neg hi, if_neg hi]
      · rw [if_neg hk]

theorem Chip.resetWords_rd (c : Chip) (first last a : Nat) :
    (c.resetWords first last).rd a = if a < first ∨ last < a then c.rd a else resetWord c.build a := by
  show (smFind (c.regs.filter _) a).getD (resetWord c.build a) = _
  rw [smFind_filter (fun k => decide (k < first) || decide (last < k))]
  by_cases h : a < first ∨ last < a
  · rw [if_pos h, if_pos (by simpa using h)]
    rfl
  · rw [if_neg h, if_neg (by simpa using h)]
    rfl

/-- A register outside what returns to reset. -/
theorem Chip.resetWords_get (c : Chip) (first last : Nat) (f : Fld) (h : f.addr < first ∨ last < f.addr) :
    (c.resetWords first last).get f = c.get f := by
  rw [Chip.get, Chip.resetWords_rd, if_pos h, Chip.get]

/-! ### The reset of the PCIe function (R390) -/

/-- The function after its reset, before the errors of the transfers that it ends. -/
def Chip.pcieCleared (c : Chip) : Chip := (c.dmaReset.resetWords 0x048080 0x0480BC).resetWords 0x048800 0x048C07

theorem Chip.pcieReset_eq (c : Chip) :
    c.pcieReset = [0, 1].foldl (fun d n => if (c.dma n).busy then d.dmaErr n 3 else d) c.pcieCleared := by
  unfold Chip.pcieReset Chip.pcieCleared
  by_cases h0 : (c.dma 0).busy = true <;> by_cases h1 : (c.dma 1).busy = true <;> simp [h0, h1]

theorem Chip.pcieReset_idle (c : Chip) (n : Nat) : (c.pcieReset.dma n).busy = false := by
  have h : (c.pcieReset).dma n = c.pcieCleared.dma n := by
    rw [Chip.pcieReset_eq]
    by_cases h0 : (c.dma 0).busy = true <;> by_cases h1 : (c.dma 1).busy = true <;> simp [h0, h1, Chip.dmaErr_dma]
  rw [h]
  unfold Chip.dma
  split <;> rfl

/-- LINK does not belong to the function. -/
theorem Chip.pcieReset_link (c : Chip) (f : Fld) (hf : f.addr = F.USB4_LINK_GEN.addr) : c.pcieReset.get f = c.get f := by
  have he : ∀ (d : Chip) (n : Nat), (d.dmaErr n 3).get f = d.get f := fun d n =>
    d.dmaErr_get n 3 f (by rw [hf]; decide) (by rw [hf]; show 0x048040 ≠ 0x048090 + 0x20 * n; omega)
  have hc : c.pcieCleared.get f = c.get f := by
    rw [Chip.pcieCleared, Chip.resetWords_get _ _ _ _ (by rw [hf]; decide), Chip.resetWords_get _ _ _ _ (by rw [hf]; decide), Chip.dmaReset,
      Chip.get_set_ne _ _ _ _ (by rw [hf]; decide), Chip.get_set_ne _ _ _ _ (by rw [hf]; decide)]
    rfl
  rw [Chip.pcieReset_eq]
  by_cases h0 : (c.dma 0).busy = true <;> by_cases h1 : (c.dma 1).busy = true <;> simp [h0, h1, he, hc]

/-- A transfer that the reset ends is one that has met an error of the host (R61; assumption log 11). -/
theorem Chip.pcieReset_err (c : Chip) (n : Nat) (hn : n < 2) (hb : (c.dma n).busy = true) :
    c.pcieReset.get (dmaF F.USB4_DMA_CTRL_ERR n) = 1 ∧ c.pcieReset.get (dmaF F.USB4_DMA_CTRL_ERR_CODE n) = 3 := by
  rw [Chip.pcieReset_eq]
  interval_cases n
  · have h := fun d : Chip => d.dmaErr_fields 0 3 (by decide) (by decide)
    by_cases h1 : (c.dma 1).busy = true
    · simp only [List.foldl_cons, List.foldl_nil, hb, h1, if_true]
      rw [Chip.dmaErr_get _ 1 3 _ (by decide) (by decide), Chip.dmaErr_get _ 1 3 _ (by decide) (by decide)]
      exact h _
    · simp only [List.foldl_cons, List.foldl_nil, hb, h1, if_true, Bool.false_eq_true, if_false]
      exact h _
  · simp only [List.foldl_cons, List.foldl_nil, hb, if_true]
    exact Chip.dmaErr_fields _ 1 3 (by decide) (by decide)

theorem usb4_hasPage (c : Chip) : c.hasPage 0x048 = true := by unfold Chip.hasPage; cases c.build <;> decide +kernel

/-! ### The link (R56, R58, R67) -/

/-- LINK as a change of the link leaves it, before the reset of the function and the events. -/
def Chip.linkShown (c : Chip) (gen lanes : Nat) (pcie dp usb2 : Bool) : Chip :=
  ((((c.set F.USB4_LINK_GEN gen).set F.USB4_LINK_LANES lanes).set F.USB4_LINK_PCIE_UP (b2n pcie)).set F.USB4_LINK_DP_UP (b2n dp)).set
    F.USB4_LINK_USB2_UP (b2n usb2)

theorem Chip.linkShown_fields (c : Chip) (gen lanes : Nat) (pcie dp usb2 : Bool) (hg : gen < 4) (hl : lanes < 4) :
    let t := c.linkShown gen lanes pcie dp usb2
    t.get F.USB4_LINK_GEN = gen ∧ t.get F.USB4_LINK_LANES = lanes ∧ t.on F.USB4_LINK_PCIE_UP = pcie ∧ t.on F.USB4_LINK_DP_UP = dp ∧
      t.on F.USB4_LINK_USB2_UP = usb2 := by
  have hon : ∀ {d : Chip} {f : Fld} {b : Bool}, d.get f = b2n b → d.on f = b := by
    intro d f b h
    rw [Chip.on, h]
    cases b <;> rfl
  unfold Chip.linkShown
  refine ⟨?_, ?_, hon ?_, hon ?_, hon ?_⟩
  · simp (disch := decide) only [Chip.get_set_field, Chip.get_set]
    exact Nat.mod_eq_of_lt hg
  · simp (disch := decide) only [Chip.get_set_field, Chip.get_set]
    exact Nat.mod_eq_of_lt hl
  all_goals
    simp (disch := decide) only [Chip.get_set_field, Chip.get_set]
  · cases pcie <;> rfl
  · cases dp <;> rfl
  · cases usb2 <;> rfl

/-- Settles O12: LINK and the link events from the link's state; the reset of the function from `pcieReset`. -/
theorem usb4LinkAndErrors : Obligations.Usb4LinkAndErrors := by
  intro s hr
  refine ⟨fun gen lanes pcie dp usb2 hgen hlanes => ?_, ?_, ?_⟩
  · refine Completes.live (fun c => c.usb4Link gen lanes pcie dp usb2) rfl hr ?_
    have hg : (if gen % 4 = 1 then 0 else gen % 4) = if 2 ≤ gen then gen else 0 := by interval_cases gen <;> rfl
    have hup : decide ((if 2 ≤ gen then gen else 0) ≠ 0) = decide (2 ≤ gen) := by interval_cases gen <;> rfl
    have h2 : decide ((if 2 ≤ gen then gen else 0) = 2) = decide (gen = 2) := by interval_cases gen <;> rfl
    set up := decide (2 ≤ gen) with hupd
    set x := s.chip.linkShown (if 2 ≤ gen then gen else 0) (if up then lanes else 0) (pcie && up) (dp && up && decide (s.chip.build = .S))
      (usb2 && s.chip.host.recovery) with hx
    set lost := s.chip.on F.USB4_LINK_PCIE_UP && !(pcie && up) with hlost
    set y := if lost then x.pcieReset else x with hy
    have ht : s.chip.usb4Link gen lanes pcie dp usb2 = (y.cond E.USB4_LINK up).cond E.USB4_GEN2 (decide (gen = 2)) := by
      unfold Chip.usb4Link
      simp only [hg, hup, h2]
      rfl
    have hlink : ∀ f : Fld, f.addr = F.USB4_LINK_GEN.addr → ((y.cond E.USB4_LINK up).cond E.USB4_GEN2 (decide (gen = 2))).get f = x.get f := by
      intro f hf
      have hye : y.get f = x.get f := by
        rw [hy]
        split
        · exact x.pcieReset_link f hf
        · rfl
      rw [Chip.cond_get_of _ _ _ _ (by rw [hf]; decide) (by rw [hf]; decide), Chip.cond_get_of _ _ _ _ (by rw [hf]; decide) (by rw [hf]; decide), hye]
    obtain ⟨f1, f2, f3, f4, f5⟩ := s.chip.linkShown_fields (if 2 ≤ gen then gen else 0) (if up then lanes else 0) (pcie && up)
      (dp && up && decide (s.chip.build = .S)) (usb2 && s.chip.host.recovery) (by split <;> omega) (by split <;> omega)
    rw [ht]
    refine ⟨?_, ?_, ?_, ?_, ?_, ?_, ?_, fun hon hoff => ?_⟩
    · rw [hlink _ rfl, f1]
      simp [hupd]
    · rw [hlink F.USB4_LINK_LANES rfl, f2]
    · rw [Chip.on, hlink F.USB4_LINK_PCIE_UP rfl]
      exact f3
    · rw [Chip.on, hlink F.USB4_LINK_DP_UP rfl]
      exact f4
    · rw [Chip.on, hlink F.USB4_LINK_USB2_UP rfl]
      exact f5
    · rw [Chip.cond_raw_ne _ _ _ _ (by decide) (by decide), Chip.cond_raw_self _ _ _ (by decide)]
    · exact Chip.cond_raw_self _ _ _ (by decide)
    · have hl : lost = true := by rw [hlost, hon, hoff]; rfl
      simp only [Chip.cond_dma, hy, hl, if_true]
      exact ⟨Chip.pcieReset_idle _ 0, Chip.pcieReset_idle _ 1⟩
  · exact Completes.live (fun c => c.raise E.PCIE_ERR) rfl hr ⟨Chip.raise_pend _ _ (usb4_hasPage _) (by decide), Chip.quiet_raise _ _⟩
  · exact Completes.live Chip.pcieReset rfl hr ⟨Chip.pcieReset_idle _ 0, Chip.pcieReset_idle _ 1, fun n hn hb => Chip.pcieReset_err _ n hn hb⟩

end Sys2Proof.Machine
end

