-- ==== Sys2Proof/Proofs/DmaTransfers.lean ====
section
-- One proof at a time: proofs that wait for the kernel side by side hold more memory than the check allows.
set_option Elab.async false
/-! PROOF. DMA transfers: START, its cases and the end of a transfer (R61, R305, R316). -/

namespace Sys2Proof.Machine

/-! ### START (R61) -/

theorem bitsOf_bit_iff (w : Word) (k : Nat) : bitsOf w k k = if w.getLsbD k then 1 else 0 := by
  rw [bitsOf, Nat.add_sub_cancel_left, Nat.pow_one, ← BitVec.testBit_toNat, ← Nat.shiftRight_eq_div_pow, Nat.testBit, Nat.and_comm,
    Nat.and_one_is_mod]
  rcases Nat.mod_two_eq_zero_or_one (w.toNat >>> k) with h | h <;> simp [h]

/-- A one-bit field reads as its bit. -/
theorem Chip.on_bit (c : Chip) (f : Fld) (h : f.hi = f.lo) : c.on f = (c.rd f.addr).getLsbD f.lo := by
  rw [Chip.on, Chip.get, h, bitsOf_bit_iff]
  cases (c.rd f.addr).getLsbD f.lo <;> rfl

def defDmaCtrl : RegDef := ⟨0x090, 2, 32, true, true, false, false, [⟨31, 31, .ro, .l, 0, 0⟩, ⟨30, 30, .w1c, .l, 0, 0⟩, ⟨29, 29, .w1c, .l, 0, 0⟩,
  ⟨28, 26, .ro, .l, 0, 0⟩, ⟨2, 2, .rw, .l, 0, 0⟩, ⟨1, 1, .rw, .l, 0, 0⟩, ⟨0, 0, .w1s, .l, 0, 0⟩]⟩

theorem regAt_dmaCtrl (b : Build) : ∀ n < 2, regAt b (F.USB4_DMA_CTRL_START.addr + 0x20 * n) = .reg defDmaCtrl := by cases b <;> decide +kernel

/-- A word and one bit of it. -/
theorem and_oneBit (w : Word) (k : Nat) (hk : k < 32) : w &&& (1#32 <<< k) = if w.getLsbD k then 1#32 <<< k else 0 := by
  ext i hi
  by_cases h : i = k
  · subst h
    cases hb : w.getLsbD i <;> simp [← BitVec.getLsbD_eq_getElem, hb, hi]
  · have : (1#32 <<< k).getLsbD i = false := by
      simp
      omega
    rw [← BitVec.getLsbD_eq_getElem, BitVec.getLsbD_and, this, Bool.and_false, ← BitVec.getLsbD_eq_getElem]
    split
    · exact this.symm
    · simp

/-- The word that START writes: the direction and the space as they read, and the command. -/
def dmaStartWord (old : Word) : Word := insBits (BitVec.ofNat 32 ((old &&& 4).toNat + (old &&& 2).toNat)) 0 0 1

theorem dmaStartWord_cases (old : Word) : dmaStartWord old = (if old.getLsbD 2 then 4 else 0) + (if old.getLsbD 1 then 2 else 0) + 1 := by
  have h4 : old &&& 4 = if old.getLsbD 2 then 4 else 0 := and_oneBit old 2 (by decide)
  have h2 : old &&& 2 = if old.getLsbD 1 then 2 else 0 := and_oneBit old 1 (by decide)
  unfold dmaStartWord
  rw [h4, h2]
  cases old.getLsbD 2 <;> cases old.getLsbD 1 <;> decide

theorem defDmaCtrl_store (old : Word) (k : Nat) (hk : k = 1 ∨ k = 2) :
    (defDmaCtrl.store old (dmaStartWord old)).getLsbD k = old.getLsbD k := by
  have m30 : (⟨30, 30, .w1c, .l, 0, 0⟩ : FieldDef).mask = 1#32 <<< 30 := by decide
  have m29 : (⟨29, 29, .w1c, .l, 0, 0⟩ : FieldDef).mask = 1#32 <<< 29 := by decide
  have m2 : (⟨2, 2, .rw, .l, 0, 0⟩ : FieldDef).mask = 4 := by decide
  have m1 : (⟨1, 1, .rw, .l, 0, 0⟩ : FieldDef).mask = 2 := by decide
  have hw : (dmaStartWord old).getLsbD k = old.getLsbD k := by
    rw [dmaStartWord_cases]
    rcases hk with rfl | rfl <;> cases old.getLsbD 2 <;> cases old.getLsbD 1 <;> decide
  simp only [RegDef.store, defDmaCtrl, List.foldl_cons, List.foldl_nil, m30, m29, m2, m1]
  rcases hk with rfl | rfl
  · simpa using hw
  · simpa using hw

theorem Chip.keepWord_dmaCtrl (c : Chip) (n : Nat) (hn : n < 2) :
    insBits (c.keepWord (F.USB4_DMA_CTRL_START.addr + 0x20 * n)) 0 0 1 = dmaStartWord (c.rd (F.USB4_DMA_CTRL_START.addr + 0x20 * n)) := by
  have m2 : (⟨2, 2, .rw, .l, 0, 0⟩ : FieldDef).mask = 4 := by decide
  have m1 : (⟨1, 1, .rw, .l, 0, 0⟩ : FieldDef).mask = 2 := by decide
  unfold Chip.keepWord dmaStartWord
  rw [regAt_dmaCtrl c.build n hn]
  simp [defDmaCtrl, m2, m1]

/-- What START finds: the block but for its change record, the control word of the channel and what a lost record writes. -/
structure StartsFrom (c : Chip) (n : Nat) (d : Chip) : Prop where
  quiet : ∀ a, eventReg a = false → a ≠ F.DEVICE_CHANGE_LOST_COUNT.addr → a ≠ F.USB4_DMA_CTRL_START.addr + 0x20 * n → d.rd a = c.rd a
  bits : ∀ k, k = 1 ∨ k = 2 → (d.rd (F.USB4_DMA_CTRL_START.addr + 0x20 * n)).getLsbD k = (c.rd (F.USB4_DMA_CTRL_START.addr + 0x20 * n)).getLsbD k
  dma : ∀ m, d.dma m = c.dma m
  calm : Calm d

theorem StartsFrom.get {c d : Chip} {n : Nat} (h : StartsFrom c n d) (f : Fld) (hf : eventReg f.addr = false)
    (hl : f.addr ≠ F.DEVICE_CHANGE_LOST_COUNT.addr) (hn : f.addr ≠ F.USB4_DMA_CTRL_START.addr + 0x20 * n) : d.get f = c.get f := by
  rw [Chip.get, h.quiet _ hf hl hn, Chip.get]

theorem dmaCtrl_effect (c : Chip) (o : Origin) (old w : Word) (n : Nat) (hn : n < 2) (hw : w.getLsbD 0 = true) :
    c.writeEffect o (F.USB4_DMA_CTRL_START.addr + 0x20 * n) old w =
      (if c.on (dmaF F.USB4_DMA_CTRL_ERR n) then c else c.set (dmaF F.USB4_DMA_CTRL_ERR_CODE n) 0).dmaStart n := by
  have h : ∀ d : Chip, d.writeEffect o (F.USB4_DMA_CTRL_START.addr + 0x20 * n) old w =
      if w.getLsbD 0 then (if d.on (dmaF F.USB4_DMA_CTRL_ERR n) then d else d.set (dmaF F.USB4_DMA_CTRL_ERR_CODE n) 0).dmaStart n
      else if d.on (dmaF F.USB4_DMA_CTRL_ERR n) then d else d.set (dmaF F.USB4_DMA_CTRL_ERR_CODE n) 0 := by
    intro d
    interval_cases n <;> rfl
  rw [h, hw]
  rfl

/-- Where the range of a channel may end. -/
def Chip.dmaTop (c : Chip) (n : Nat) : Nat := if c.on (dmaF F.USB4_DMA_CTRL_SPACE n) then 2 ^ 23 else c.capacity

/-- The transfer that the registers of a channel describe. -/
def Chip.dmaTransfer (c : Chip) (n : Nat) : DmaSt :=
  { busy := true
    toHost := c.on (dmaF F.USB4_DMA_CTRL_DIR n)
    sram := c.on (dmaF F.USB4_DMA_CTRL_SPACE n)
    host := c.get (dmaF F.USB4_DMA_HOST_LO n) / 16 * 16 + c.get (dmaF F.USB4_DMA_HOST_HI n) * 2 ^ 32
    dev := c.get (dmaF F.USB4_DMA_DEV n) * 16
    len := c.get (dmaF F.USB4_DMA_LEN n) * 16 }

theorem Chip.dmaStart_eq (c : Chip) (n : Nat) : c.dmaStart n =
    if (c.dma n).busy then c.dmaErr n 1
    else if c.dmaTop n < c.get (dmaF F.USB4_DMA_DEV n) * 16 + c.get (dmaF F.USB4_DMA_LEN n) * 16 then c.dmaErr n 2
    else if c.get (dmaF F.USB4_DMA_LEN n) * 16 = 0 then (c.set (dmaF F.USB4_DMA_CTRL_DONE n) 1).raise E.DMA_DONE
    else (c.setDma n (c.dmaTransfer n)).set (dmaF F.USB4_DMA_CTRL_BUSY n) 1 := rfl

theorem Calm.setDma {c : Chip} (h : Calm c) (n : Nat) (d : DmaSt) : Calm (c.setDma n d) := by
  unfold Chip.setDma
  split <;> exact h

theorem Calm.dmaStart {c : Chip} (h : Calm c) (n : Nat) (hn : n < 2) : Calm (c.dmaStart n) := by
  have hset : ∀ {d : Chip} (f : Fld) (v : Nat), Calm d → f.addr = F.USB4_DMA_CTRL_START.addr → Calm (d.set (dmaF f n) v) := by
    intro d f v hd hf
    refine hd.set _ _ ?_
    show (f.addr + 0x20 * n) % 4096 ≠ 4
    rw [hf]
    interval_cases n <;> decide
  have herr : ∀ code, Calm (c.dmaErr n code) := fun code =>
    (Chip.quiet_raise _ _).calm (hset F.USB4_DMA_CTRL_ERR_CODE code (hset F.USB4_DMA_CTRL_ERR 1 h rfl) rfl)
  rw [Chip.dmaStart_eq]
  split
  · exact herr 1
  · split
    · exact herr 2
    · split
      · exact (Chip.quiet_raise _ _).calm (hset F.USB4_DMA_CTRL_DONE 1 h rfl)
      · exact hset F.USB4_DMA_CTRL_BUSY 1 (h.setDma n _) rfl

theorem dmaCtrl_addr : ∀ n < 2, let a := F.USB4_DMA_CTRL_START.addr + 0x20 * n
    a < 0x400000 ∧ a % 4 = 0 ∧ 0x40 ≤ a % 4096 ∧ a ≠ F.DEBUG_CTRL_UNLOCK.addr ∧ unstored a = false ∧ a % 4096 ≠ 4 ∧ mirrorAddr a = false := by
  decide +kernel

/-- START written: the transfer starts, from the block with the record of the write. -/
theorem Chip.writeField_dmaStart (c : Chip) (o : Origin) (n : Nat) (hn : n < 2) (hc : Calm c) :
    ∃ d, StartsFrom c n d ∧ c.writeField o (dmaF F.USB4_DMA_CTRL_START n) 1 = d.dmaStart n := by
  set a := F.USB4_DMA_CTRL_START.addr + 0x20 * n with ha
  obtain ⟨h1, h2, h3, h4, h5, h6, hm⟩ := dmaCtrl_addr n hn
  set w := dmaStartWord (c.rd a) with hw
  have hw0 : w.getLsbD 0 = true := by
    rw [hw, dmaStartWord_cases]
    cases (c.rd a).getLsbD 2 <;> cases (c.rd a).getLsbD 1 <;> decide
  have he : c.writeField o (dmaF F.USB4_DMA_CTRL_START n) 1 = c.write32 o a w := by
    rw [hw, ← c.keepWord_dmaCtrl n hn]
    rfl
  set x := (c.logged o a defDmaCtrl w).wr a (defDmaCtrl.store (c.rd a) w) with hx
  set y := if x.on (dmaF F.USB4_DMA_CTRL_ERR n) then x else x.set (dmaF F.USB4_DMA_CTRL_ERR_CODE n) 0 with hy
  have hq := c.quiet_logged o a defDmaCtrl w
  have hcy : Calm y := by
    have hcx : Calm x := (hq.calm hc).wr a _ h6
    rw [hy]
    split
    · exact hcx
    · exact hcx.set _ _ h6
  have hyr : ∀ b, b ≠ a → y.rd b = x.rd b := by
    intro b hb
    rw [hy]
    split
    · rfl
    · exact Chip.rd_set_ne _ _ _ _ hb
  refine ⟨y, ⟨fun b hb hl hba => ?_, fun k hk => ?_, fun m => ?_, hcy⟩, ?_⟩
  · rw [hyr b hba, hx, Chip.rd_wr, if_neg hba, Chip.logged_rd _ _ _ _ _ _ hb hl]
  · have hstore : (x.rd a).getLsbD k = (c.rd a).getLsbD k := by
      rw [hx, Chip.rd_wr, if_pos rfl]
      exact defDmaCtrl_store _ k hk
    rw [← hstore, hy]
    split
    · rfl
    · have hf : ∀ f : Fld, f.addr = a → f.hi = f.lo → f.hi < 26 →
          (x.set (dmaF F.USB4_DMA_CTRL_ERR_CODE n) 0).on f = x.on f := by
        intro f hfa hfl hf
        rw [Chip.on, Chip.get_set_field _ _ _ _ (show 26 ≤ 28 by decide) (show 28 < 32 by decide) (by omega) (Or.inl hf), Chip.on]
      have h := hf ⟨a, k, k⟩ rfl rfl (by show k < 26; omega)
      rwa [Chip.on_bit _ _ rfl, Chip.on_bit _ _ rfl] at h
  · rw [hy]
    split
    · exact hq.dma m
    · exact hq.dma m
  · rw [he, Chip.write32_stored (regAt_dmaCtrl c.build n hn) ⟨h1, h2, h3, h4, h5⟩ (by simp [RegDef.quiesceChange, defDmaCtrl]) hc.2,
      dmaCtrl_effect _ _ _ _ n hn hw0, Chip.noteMirror_other _ _ hm]
    exact (hcy.dmaStart n hn).settle

/-! ### The cases of START, and the end of a transfer -/

theorem Chip.dma_setDma (c : Chip) (n : Nat) (hn : n < 2) (d : DmaSt) : (c.setDma n d).dma n = d := by interval_cases n <;> rfl

/-- An error of a channel shows its code. -/
theorem Chip.dmaErr_spec (c : Chip) (n code : Nat) (hn : n < 2) (hcode : code < 8) :
    (c.dmaErr n code).dma n = c.dma n ∧ (c.dmaErr n code).get (dmaF F.USB4_DMA_CTRL_ERR n) = 1 ∧
      (c.dmaErr n code).get (dmaF F.USB4_DMA_CTRL_ERR_CODE n) = code ∧ (c.dmaErr n code).pend E.DMA_ERR = true := by
  obtain ⟨h1, h2⟩ := c.dmaErr_fields n code hn hcode
  exact ⟨c.dmaErr_dma n code n, h1, h2, Chip.raise_pend _ _ (usb4_hasPage _) (by decide)⟩

/-- The word of a channel's control register that a transfer ended with: idle, done, reported. -/
theorem Chip.dmaEnd_spec (c : Chip) (n : Nat) (hn : n < 2) :
    let t := ((c.dmaIdle n).set (dmaF F.USB4_DMA_CTRL_DONE n) 1).raise E.DMA_DONE
    t.dma n = DmaSt.init ∧ t.get (dmaF F.USB4_DMA_CTRL_BUSY n) = 0 ∧ t.get (dmaF F.USB4_DMA_CTRL_DONE n) = 1 ∧ t.pend E.DMA_DONE = true := by
  refine ⟨?_, ?_, ?_, Chip.raise_pend _ _ (usb4_hasPage _) (by decide)⟩
  · rw [Chip.raise_dma, Chip.set_dma]
    exact c.dma_setDma n hn _
  all_goals
    unfold Chip.dmaIdle
    interval_cases n <;> simp (disch := decide) only [Chip.raise_get_of, Chip.get_set_field, Chip.get_set] <;> rfl

theorem Chip.dmaFail_spec (c : Chip) (n : Nat) (hn : n < 2) :
    let t := (c.dmaIdle n).dmaErr n 3
    t.dma n = DmaSt.init ∧ t.get (dmaF F.USB4_DMA_CTRL_BUSY n) = 0 ∧ t.get (dmaF F.USB4_DMA_CTRL_ERR n) = 1 ∧
      t.get (dmaF F.USB4_DMA_CTRL_ERR_CODE n) = 3 ∧ t.pend E.DMA_ERR = true := by
  obtain ⟨h1, h2, h3, h4⟩ := (c.dmaIdle n).dmaErr_spec n 3 hn (by decide)
  refine ⟨h1.trans (c.dma_setDma n hn _), ?_, h2, h3, h4⟩
  unfold Chip.dmaErr Chip.dmaIdle
  interval_cases n <;> simp (disch := decide) only [Chip.raise_get_of, Chip.get_set_field, Chip.get_set] <;> rfl

/-- A field of a channel but its control word, and the capacity, are as START was given. -/
theorem StartsFrom.transfer {c d : Chip} {n : Nat} (h : StartsFrom c n d) (hn : n < 2) :
    d.dmaTransfer n = c.dmaTransfer n ∧ d.dmaTop n = c.dmaTop n := by
  have hget : ∀ f ∈ [F.USB4_DMA_DEV, F.USB4_DMA_LEN, F.USB4_DMA_HOST_LO, F.USB4_DMA_HOST_HI], d.get (dmaF f n) = c.get (dmaF f n) := by
    intro f hf
    have ha : ∀ n < 2, ∀ f ∈ [F.USB4_DMA_DEV, F.USB4_DMA_LEN, F.USB4_DMA_HOST_LO, F.USB4_DMA_HOST_HI],
        eventReg (dmaF f n).addr = false ∧ (dmaF f n).addr ≠ F.DEVICE_CHANGE_LOST_COUNT.addr ∧
          (dmaF f n).addr ≠ F.USB4_DMA_CTRL_START.addr + 0x20 * n := by decide
    obtain ⟨h1, h2, h3⟩ := ha n hn f hf
    exact h.get _ h1 h2 h3
  have hcap : d.capacity = c.capacity := by
    unfold Chip.capacity
    rw [h.get F.DRAMCTL_CAPACITY_MIB (by decide) (by decide)
      (by interval_cases n <;> decide)]
  have hdir : d.on (dmaF F.USB4_DMA_CTRL_DIR n) = c.on (dmaF F.USB4_DMA_CTRL_DIR n) := by
    rw [Chip.on_bit _ _ rfl, Chip.on_bit _ _ rfl]
    exact h.bits 1 (Or.inl rfl)
  have hspace : d.on (dmaF F.USB4_DMA_CTRL_SPACE n) = c.on (dmaF F.USB4_DMA_CTRL_SPACE n) := by
    rw [Chip.on_bit _ _ rfl, Chip.on_bit _ _ rfl]
    exact h.bits 2 (Or.inr rfl)
  constructor
  · unfold Chip.dmaTransfer
    rw [hdir, hspace, hget _ (by simp), hget _ (by simp), hget _ (by simp), hget _ (by simp)]
  · unfold Chip.dmaTop
    rw [hspace, hcap]

/-- Settles O13: START runs as `dmaStart_eq` says, from the block with the record of the write. -/
theorem dmaTransfers : Obligations.DmaTransfers := by
  intro s n hr hn
  refine ⟨fun o hc => ?_, fun l hb => ?_, fun k l hb => ?_⟩
  · obtain ⟨d, hd, he⟩ := s.chip.writeField_dmaStart o n hn hc
    refine Completes.serveFor o (fun c => c.when (decide (n < 2)) (fun c => c.writeField o (dmaF F.USB4_DMA_CTRL_START n) 1)) rfl hr ?_
    simp only [Chip.when, hn, decide_true, if_true, he]
    obtain ⟨ht, htop⟩ := hd.transfer hn
    have hdev : d.get (dmaF F.USB4_DMA_DEV n) * 16 = s.chip.get (dmaF F.USB4_DMA_DEV n) * 16 := congrArg DmaSt.dev ht
    have hlen : d.get (dmaF F.USB4_DMA_LEN n) * 16 = s.chip.get (dmaF F.USB4_DMA_LEN n) * 16 := congrArg DmaSt.len ht
    rw [Chip.dmaStart_eq, hd.dma, htop, hdev, hlen, ht, ← hd.dma n]
    split
    · exact d.dmaErr_spec n 1 hn (by decide)
    · change if s.chip.dmaTop n < _ then _ else _
      split
      · exact d.dmaErr_spec n 2 hn (by decide)
      · split
        · refine ⟨by simp, ?_, Chip.raise_pend _ _ (usb4_hasPage _) (by decide)⟩
          interval_cases n <;> simp (disch := decide) only [Chip.raise_get_of, Chip.get_set] <;> rfl
        · rw [Chip.set_dma, Chip.dma_setDma _ _ hn]
          refine ⟨?_, rfl, rfl, rfl, rfl, rfl, rfl⟩
          interval_cases n <;> exact Chip.get_set _ _ _ (by decide) (by decide)
  · refine Completes.live (fun c => c.when (decide (n < 2)) (fun c => c.dmaDone n l)) rfl hr ?_
    simp only [Chip.when, hn, decide_true, if_true, Chip.dmaDone, hb, Bool.not_true, Bool.false_or]
    split
    · rfl
    · exact Chip.dmaEnd_spec _ n hn
  · refine Completes.live (fun c => c.when (decide (n < 2)) (fun c => c.dmaHostError n k l)) rfl hr ?_
    simp only [Chip.when, hn, decide_true, if_true, Chip.dmaHostError, hb, Bool.not_true, Bool.false_eq_true, if_false]
    exact Chip.dmaFail_spec _ n hn

end Sys2Proof.Machine
end

