-- ==== Sys2Proof/Proofs/PathReads.lean ====
section
-- One proof at a time: proofs that wait for the kernel side by side hold more memory than the check allows.
set_option Elab.async false
/-! PROOF. Reads of registers by a path, and writes whose effect is one operation: the console and JTAG, wide values, the launch queue, PTP
timestamps and the reference input (R75, R76, R79, R84, R89, R90, R97, R99). -/

namespace Sys2Proof.Machine

/-! ### Reads of the register pages -/

/-- A read of the register pages goes at once where no path waits. -/
theorem Chip.hostRead_open (c : Chip) (o : Origin) (a size : Nat) (hp : c.pathsOpen = true) (ha : a < 0x400000) :
    c.hostRead o a size = c.readNow o (c.get F.RELAY_TARGET_TILE_ID) a size := by
  have hs : (HeldAcc.read o a size 0).inSram = false := by
    simp only [HeldAcc.inSram, decide_eq_false_iff_not]
    omega
  rw [Chip.hostRead, c.mustWait_false hp _ (Or.inl hs)]
  simp

/-- A read of a whole register. -/
theorem Chip.readNow_reg (c : Chip) (o : Origin) (tgt a : Nat) (d : RegDef) (ha : a < 0x400000) (h4 : a % 4 = 0) (hr : regAt c.build a = .reg d) :
    c.readNow o tgt a 4 = (c.readReg o a).2.deliver o a (c.readReg o a).1.toNat false := by
  have h24 : a % 2 ^ 24 = a := Nat.mod_eq_of_lt (by omega)
  have h1 : ¬0x800000 ≤ a := by omega
  have h2 : ¬0x400000 ≤ a := by omega
  have h3 : a / 4 * 4 = a := by omega
  have hlt : (c.readReg o a).1.toNat % 2 ^ 32 = (c.readReg o a).1.toNat := Nat.mod_eq_of_lt (c.readReg o a).1.isLt
  simp only [Chip.readNow, Chip.readPart, Chip.read32, h24, h1, h2, h3, h4, hr, if_false, ne_eq, not_true_eq_false, subWord, Nat.mul_zero,
    Nat.pow_zero, Nat.div_one, hlt]
  rfl

/-- A read of a register, where no path waits. -/
theorem Chip.hostRead_reg (c : Chip) (o : Origin) (a : Nat) (d : RegDef) (hp : c.pathsOpen = true) (ha : a < 0x400000) (h4 : a % 4 = 0)
    (hr : regAt c.build a = .reg d) : c.hostRead o a 4 = (c.readReg o a).2.deliver o a (c.readReg o a).1.toNat false := by
  rw [c.hostRead_open o a 4 hp ha, c.readNow_reg o _ a d ha h4 hr]

/-- Good data of a register reaches its path, and nothing else changes. -/
theorem Chip.deliver_reg (c : Chip) (o : Origin) (a v : Nat) (d : RegDef) (ha : a < 0x400000) (h4 : a % 4 = 0) (hr : regAt c.build a = .reg d) :
    c.deliver o a v false = c.emit (.readData o a v) := by
  have h3 : a / 4 * 4 = a := by omega
  simp [Chip.deliver, ha, h3, hr]

/-- What is sent to a path is no ball of the boundary register. -/
theorem Chip.emit_readData (c : Chip) (o : Origin) (a v : Nat) : c.emit (.readData o a v) = { c with out := c.out ++ [.readData o a v] } := by
  simp [Chip.emit, Output.scanned]

/-- Nothing differs but register words and the open values drawn. -/
def OpenOnly (c d : Chip) : Prop := d = { c with regs := d.regs, free := d.free }

theorem OpenOnly.trans {c d e : Chip} (h : OpenOnly c d) (k : OpenOnly d e) : OpenOnly c e := by
  unfold OpenOnly at *
  rw [k, h]

/-- Open values are drawn for registers and change nothing else. -/
theorem Chip.scramble_openOnly (c : Chip) (pg : Nat) : OpenOnly c (c.scramble pg) := by
  unfold Chip.scramble
  split
  · rfl
  · refine foldl_rel OpenOnly (fun _ => rfl) OpenOnly.trans id _ _ (fun c r _ => ?_) c
    refine foldl_rel OpenOnly (fun _ => rfl) OpenOnly.trans id _ _ (fun c off _ => ?_) c
    dsimp only
    split
    · rfl
    · refine foldl_rel OpenOnly (fun _ => rfl) OpenOnly.trans id _ _ (fun c f _ => ?_) c
      split <;> rfl

theorem Chip.scramble_host (c : Chip) (pg : Nat) : (c.scramble pg).host = c.host := by rw [c.scramble_openOnly pg]

theorem Chip.scramble_build (c : Chip) (pg : Nat) : (c.scramble pg).build = c.build := by rw [c.scramble_openOnly pg]

/-- What a path without a latch of it reads at a register of a page that is as it was written. -/
theorem Chip.readReg_present (c : Chip) (o : Origin) (a : Nat) (hu : a / 4096 ∉ c.unpredictable)
    (hl : smFind c.host.latches (latchKey o a) = none) : (c.readReg o a).1 = c.presentWord o a := by
  simp [Chip.readReg, hu, hl]

/-- The upper words of a wide value, kept for the path that reads its lowest one. -/
def Chip.keptUppers (c : Chip) (o : Origin) (a : Nat) : Chip :=
  { c with host := { c.host with latches := (wideUppers a).foldl (fun m b => smSet m (latchKey o b) (c.presentWord o b).toNat) c.host.latches } }

theorem Chip.readReg_snd (c : Chip) (o : Origin) (a : Nat) (hu : a / 4096 ∉ c.unpredictable) : (c.readReg o a).2 = (c.keptUppers o a).readEffect a := by
  simp only [Chip.readReg, hu, if_false]
  rfl

/-- Keys of different paths differ. -/
theorem latchKey_inj {o p : Origin} {a b : Nat} (ha : a < 2 ^ 24) (hb : b < 2 ^ 24) (h : latchKey o a = latchKey p b) : o = p ∧ a = b := by
  unfold latchKey at h
  have hc : o.code = p.code := by omega
  refine ⟨?_, by omega⟩
  revert hc
  cases o <;> cases p <;> decide

/-! ### The console, JTAG and wide values (R75, R76, R79) -/

theorem regAt_originCode (b : Build) : ∃ d, regAt b F.DEVICE_ORIGIN_CODE.addr = .reg d := by cases b <;> exact ⟨_, rfl⟩

theorem regAt_timeNs (b : Build) : ∃ d, regAt b F.TIME_NS_NS.addr = .reg d := by cases b <;> exact ⟨_, rfl⟩

/-- The read of ORIGIN tells the path its own code. -/
theorem Chip.hostRead_originCode (c : Chip) (o : Origin) (hp : c.pathsOpen = true) (hl : c.host.latches = []) :
    .readData o F.DEVICE_ORIGIN_CODE.addr o.code ∈ (c.hostRead o F.DEVICE_ORIGIN_CODE.addr 4).out := by
  obtain ⟨d, hd⟩ := regAt_originCode c.build
  have hv : (c.readReg o F.DEVICE_ORIGIN_CODE.addr).1 = BitVec.ofNat 32 o.code := by
    have hs : ∀ x : Chip, x.presentWord o F.DEVICE_ORIGIN_CODE.addr = BitVec.ofNat 32 o.code := fun x => rfl
    unfold Chip.readReg
    split <;> simp [hs, Chip.scramble_host, hl, smFind]
  rw [c.hostRead_reg o _ d hp (by decide) (by decide) hd, hv]
  have hb : (c.readReg o F.DEVICE_ORIGIN_CODE.addr).2.build = c.build := by
    unfold Chip.readReg
    split
    · exact c.scramble_build _
    · rfl
  rw [Chip.deliver_reg _ _ _ _ d (by decide) (by decide) (hb ▸ hd), Chip.emit_readData]
  refine List.mem_append_right _ ?_
  cases o <;> decide

/-- The read of TIME_NS tells the time and keeps WRAPS for the path that read it. -/
theorem Chip.hostRead_timeNs (c : Chip) (o : Origin) (hp : c.pathsOpen = true) (hu : 0x020 ∉ c.unpredictable)
    (hl : smFind c.host.latches (latchKey o F.TIME_NS_NS.addr) = none) :
    .readData o F.TIME_NS_NS.addr c.timeNs ∈ (c.hostRead o F.TIME_NS_NS.addr 4).out ∧
      (c.hostRead o F.TIME_NS_NS.addr 4).host.latches = smSet c.host.latches (latchKey o F.TIME_WRAPS_WRAPS.addr) (c.presentWord o F.TIME_WRAPS_WRAPS.addr).toNat := by
  obtain ⟨d, hd⟩ := regAt_timeNs c.build
  have hv : (c.readReg o F.TIME_NS_NS.addr).1 = BitVec.ofNat 32 c.timeNs := c.readReg_present o _ hu hl
  have hr : (c.readReg o F.TIME_NS_NS.addr).2 = c.keptUppers o F.TIME_NS_NS.addr := by
    rw [c.readReg_snd o F.TIME_NS_NS.addr hu]
    rfl
  have hd' : regAt (c.keptUppers o F.TIME_NS_NS.addr).build F.TIME_NS_NS.addr = .reg d := hd
  have hlt : (BitVec.ofNat 32 c.timeNs).toNat = c.timeNs := by
    rw [BitVec.toNat_ofNat]
    exact Nat.mod_eq_of_lt (Nat.mod_lt _ (by decide))
  rw [c.hostRead_reg o _ d hp (by decide) (by decide) hd, hv, hr, Chip.deliver_reg _ _ _ _ d (by decide) (by decide) hd', Chip.emit_readData, hlt]
  exact ⟨List.mem_append_right _ (List.mem_singleton.mpr rfl), rfl⟩

theorem Chip.wraps_lt (c : Chip) : c.wraps < 2 ^ 32 := by
  have h : c.time64 < 2 ^ 64 := by
    unfold Chip.time64 unsign
    omega
  unfold Chip.wraps
  omega

/-- Settles O18: writes of the console and of JTAG are register writes of their paths; reads from `hostRead_originCode` and `hostRead_timeNs`. -/
theorem otherPaths : Obligations.OtherPaths := by
  refine ⟨fun s a w hb => ?_, fun s a w hr => ?_, fun s w hr hp hb hl => ⟨?_, ?_⟩, fun s o hr hp hu hl => ?_⟩
  · change serve s (fun c => c.when c.belfryUp (fun c => c.write32 .belfry a w)) = serve s (fun c => c.cycleWrites ([_].filter (fun x => c.hears x.origin)))
    unfold Machine.serve Chip.when
    simp [hb, Chip.hears, Chip.cycleWrites_one, Chip.write32]
  · change awake s (fun c => c.write32 .jtag a w) = serve s (fun c => c.cycleWrites ([_].filter (fun x => c.hears x.origin)))
    unfold Machine.serve Machine.awake
    simp [hr.notFrozen, hr.notDeaf, Chip.hears, Chip.cycleWrites_one, Chip.write32]
  · refine Completes.serve (fun c => c.when c.belfryUp (fun c => c.hostRead .belfry F.DEVICE_ORIGIN_CODE.addr)) rfl hr.notFrozen ?_
    rw [Chip.when, if_pos hb]
    exact s.chip.hostRead_originCode .belfry hp hl
  · exact Completes.awake (fun c => c.hostRead .jtag F.DEVICE_ORIGIN_CODE.addr) rfl hr.notDeaf (s.chip.hostRead_originCode .jtag hp hl)
  · refine Completes.serveFor o (fun c => c.hostRead o F.TIME_NS_NS.addr 4) rfl hr ?_
    obtain ⟨h1, h2⟩ := s.chip.hostRead_timeNs o hp hu hl
    refine ⟨h1, ?_, fun p hpo a ha => ?_⟩
    · have hlt : (BitVec.ofNat 32 s.chip.wraps).toNat = s.chip.wraps := by
        rw [BitVec.toNat_ofNat]
        exact Nat.mod_eq_of_lt s.chip.wraps_lt
      rw [h2, smFind_smSet, if_pos rfl]
      exact congrArg some hlt
    · rw [h2, smFind_smSet, if_neg]
      exact fun h => hpo (latchKey_inj ha (by decide) h).1

/-! ### The block that the effect of a write finds -/

/-- A block with the record of a write in it: its registers are as they were, but the one written and what a lost record writes. -/
structure Recorded (c : Chip) (a : Nat) (x : Chip) : Prop where
  rd : ∀ b, b ≠ a → eventReg b = false → b ≠ F.DEVICE_CHANGE_LOST_COUNT.addr → x.rd b = c.rd b
  still : x.still = c.still
  calm : Calm x

theorem Recorded.get {c x : Chip} {a : Nat} (h : Recorded c a x) (f : Fld) (ha : f.addr ≠ a) (he : eventReg f.addr = false)
    (hl : f.addr ≠ F.DEVICE_CHANGE_LOST_COUNT.addr) : x.get f = c.get f := by rw [Chip.get, h.rd _ ha he hl, Chip.get]

theorem Recorded.launchQ {c x : Chip} {a : Nat} (h : Recorded c a x) : x.launchQ = c.launchQ := by have h' := congrArg Chip.launchQ h.still; exact h'

theorem Recorded.time {c x : Chip} {a : Nat} (h : Recorded c a x) : x.time = c.time := by have h' := congrArg Chip.time h.still; exact h'

theorem Chip.noteMirror_cases (c : Chip) (a : Nat) : c.noteMirror a = c ∨ ∃ m, c.noteMirror a = c.setMirror m := by
  unfold Chip.noteMirror
  split
  · exact Or.inl rfl
  · exact Or.inr ⟨_, rfl⟩

@[simp] theorem Chip.noteMirror_launchQ (c : Chip) (a : Nat) : (c.noteMirror a).launchQ = c.launchQ := by
  rcases c.noteMirror_cases a with h | ⟨m, h⟩ <;> rw [h]
  rfl

@[simp] theorem Chip.noteMirror_time (c : Chip) (a : Nat) : (c.noteMirror a).time = c.time := by
  rcases c.noteMirror_cases a with h | ⟨m, h⟩ <;> rw [h]
  rfl

@[simp] theorem Chip.noteMirror_pend (c : Chip) (a : Nat) (e : Ev) : (c.noteMirror a).pend e = c.pend e := by
  unfold Chip.pend
  rw [Chip.noteMirror_rd]

/-- A write of a stored register without quiesce fields, whose effect writes no page control: the effect, on the block with the record. -/
theorem Chip.write32_recorded {c : Chip} {o : Origin} {a : Nat} {w : Word} {d : RegDef} (hr : regAt c.build a = .reg d)
    (ha : a < 0x400000 ∧ a % 4 = 0 ∧ 0x40 ≤ a % 4096 ∧ a ≠ F.DEBUG_CTRL_UNLOCK.addr ∧ unstored a = false) (hq : d.quiesceChange (c.rd a) w = false)
    (hc : Calm c) (he : ∀ x, Calm x → Calm (x.writeEffect o a (c.rd a) w)) :
    ∃ x, Recorded c a x ∧ x.rd a = d.store (c.rd a) w ∧ c.write32 o a w = (x.writeEffect o a (c.rd a) w).noteMirror a := by
  have h4 : a % 4096 ≠ 4 := by
    obtain ⟨_, _, h, _⟩ := ha
    omega
  have hl := c.quiet_logged o a d w
  have hcx : Calm ((c.logged o a d w).wr a (d.store (c.rd a) w)) := (hl.calm hc).wr _ _ h4
  refine ⟨(c.logged o a d w).wr a (d.store (c.rd a) w), ⟨fun b hb h1 h2 => ?_, hl.1, hcx⟩, ?_, ?_⟩
  · rw [Chip.rd_wr, if_neg hb, c.logged_rd o a b d w h1 h2]
  · rw [Chip.rd_wr, if_pos rfl]
  · rw [Chip.write32_stored hr ha hq hc.2]
    exact ((he _ hcx).noteMirror a).settle

/-! ### The launch queue (R97, R99) -/

theorem launch_hasPage (c : Chip) : c.hasPage 0x021 = true := by unfold Chip.hasPage; cases c.build <;> decide +kernel

theorem regAt_launchPush (b : Build) : ∃ d, regAt b F.LAUNCH_PUSH_KIND.addr = .reg d ∧ ∀ v w, d.quiesceChange v w = false := by
  cases b <;> exact ⟨_, rfl, fun _ _ => rfl⟩

theorem regAt_launchCancel (b : Build) : ∃ d, regAt b F.LAUNCH_CANCEL_ALL.addr = .reg d ∧ ∀ v w, d.quiesceChange v w = false := by
  cases b <;> exact ⟨_, rfl, fun _ _ => rfl⟩

theorem Calm.launchPush {c : Chip} (h : Calm c) (w : Word) : Calm (c.launchPush w) := by
  unfold Chip.launchPush
  dsimp only
  split
  · exact h
  · split
    · exact (c.quiet_raise _).calm h
    · split
      · exact h
      · exact (Chip.quiet_raise _ _).calm (h.set _ _ (by decide))

/-- What a push does in each case. -/
theorem Chip.launchPush_spec (c : Chip) (w : Word) :
    if bitsOf w 3 0 = 0 then (c.launchPush w).launchQ = c.launchQ
    else if 5 ≤ bitsOf w 3 0 then (c.launchPush w).launchQ = c.launchQ ∧ (c.launchPush w).pend E.LAUNCH_FULL = true
    else if c.launchQ.length < 64 then
      (c.launchPush w).launchQ = c.launchQ ++ [{ time := c.get F.LAUNCH_TIME_TIME, kind := bitsOf w 3 0, arg := bitsOf w 13 4, tag := bitsOf w 31 24 }]
    else (c.launchPush w).launchQ = c.launchQ ∧ (c.launchPush w).pend E.LAUNCH_FULL = true ∧
      (c.launchPush w).get F.LAUNCH_STATUS_DROPPED = min 65535 (c.get F.LAUNCH_STATUS_DROPPED + 1) := by
  unfold Chip.launchPush
  dsimp only
  split
  · rfl
  · split
    · exact ⟨(c.quiet_raise _).launchQ, c.raise_pend _ (launch_hasPage _) (by decide)⟩
    · split
      · rfl
      · refine ⟨(Chip.quiet_raise _ _).launchQ, Chip.raise_pend _ _ (launch_hasPage _) (by decide), ?_⟩
        rw [Chip.raise_get_of _ _ _ (by decide), Chip.get_bumpSat _ _ _ (by decide) (by decide)]
        rfl

theorem Calm.launchCancel {c : Chip} (h : Calm c) (w : Word) : Calm (c.launchCancel w) := by
  unfold Chip.launchCancel
  split <;> exact h

/-- CANCEL written with a word. -/
theorem Chip.write32_cancel (c : Chip) (o : Origin) (w : Word) (hc : Calm c) :
    (c.write32 o F.LAUNCH_CANCEL_ALL.addr w).launchQ = if bitsOf w 8 8 = 1 then [] else c.launchQ.filter (fun e => e.tag ≠ bitsOf w 7 0) := by
  obtain ⟨d, hd, hq⟩ := regAt_launchCancel c.build
  obtain ⟨x, hx, -, he⟩ := Chip.write32_recorded (o := o) (w := w) hd (by decide) (hq _ _) hc (fun x h => h.launchCancel w)
  rw [he, Chip.noteMirror_launchQ, ← hx.launchQ]
  change (x.launchCancel w).launchQ = _
  unfold Chip.launchCancel
  split <;> rfl

/-- Settles O23: PUSH and CANCEL act on the block with the record of their write. -/
theorem launchQueue : Obligations.LaunchQueue := by
  intro s o hr hc
  refine ⟨fun w => ?_, ?_, fun tag ht => ?_⟩
  · refine Completes.serveFor o (fun c => c.write32 o F.LAUNCH_PUSH_KIND.addr w) rfl hr ?_
    obtain ⟨d, hd, hq⟩ := regAt_launchPush s.chip.build
    obtain ⟨x, hx, -, he⟩ := Chip.write32_recorded (o := o) (w := w) hd (by decide) (hq _ _) hc (fun x h => h.launchPush w)
    have hp := x.launchPush_spec w
    rw [hx.launchQ, hx.get F.LAUNCH_TIME_TIME (by decide) (by decide) (by decide),
      hx.get F.LAUNCH_STATUS_DROPPED (by decide) (by decide) (by decide)] at hp
    simp only [he, Chip.noteMirror_launchQ, Chip.noteMirror_pend, Chip.noteMirror_get]
    exact hp
  · refine Completes.serveFor o (fun c => c.write32 o F.LAUNCH_CANCEL_ALL.addr 0x100) rfl hr ?_
    rw [Chip.write32_cancel _ _ _ hc]
    rfl
  · refine Completes.serveFor o (fun c => c.write32 o F.LAUNCH_CANCEL_ALL.addr (BitVec.ofNat 32 (tag % 256))) rfl hr ?_
    have h8 : bitsOf (BitVec.ofNat 32 (tag % 256)) 8 8 = 0 := by
      simp only [bitsOf, BitVec.toNat_ofNat]
      omega
    have h7 : bitsOf (BitVec.ofNat 32 (tag % 256)) 7 0 = tag := by
      simp only [bitsOf, BitVec.toNat_ofNat]
      omega
    rw [Chip.write32_cancel _ _ _ hc, h8, h7]
    rfl

/-! ### The reference input (R89, R90) -/

theorem bar_hasPage {c : Chip} (h : c.build = .S) : c.hasPage 0x022 = true := by unfold Chip.hasPage; rw [h]; decide +kernel

/-- A valid edge is taken, and starts a generator that waits. -/
theorem Chip.refValid_bar (c : Chip) (e : Int) : (c.refValid e).bar.refPrev12 = some e ∧ (c.refValid e).bar.refMiss = 0 ∧
    (c.refValid e).bar.refGood = c.bar.refGood + 1 ∧ (c.bar.src = 2 → (c.refValid e).bar.lattice12 = e ∧ (c.refValid e).bar.waiting = false) := by
  unfold Chip.refValid
  by_cases hs : c.bar.src = 2 <;> by_cases hw : c.bar.waiting = true <;> simp [hs, hw]

/-- A lost reference that is used shows no lock. -/
theorem Chip.showBarLock_lost (c : Chip) (hl : c.bar.refLost = true) (hu : c.refUsed = true) : c.showBarLock.get F.BAR_STATUS_LOCK = 0 := by
  have h : c.barLocked = false := by simp [Chip.barLocked, hl, hu]
  rw [Chip.showBarLock, h, Chip.setBarLock, Chip.cond_get_of _ _ _ _ (by decide) (by decide), Chip.get_set _ _ _ (by decide) (by decide)]
  rfl

/-- The generator at the loss of its reference. -/
def Chip.refGone (c : Chip) : Chip :=
  { c with bar := { c.bar with refLost := true, refPrev12 := none, refNot12 := c.now12 + halfMs12, refGood := 0, refMiss := 0 } }

theorem Chip.refLoss_spec (c : Chip) (hb : c.build = .S) (hrun : c.bar.running = true) (hu : c.refUsed = true) (hl : c.bar.refLost = false)
    (hm : 4 ≤ c.bar.refMiss ∨ c.bar.waiting = true) :
    c.refLoss.bar.refLost = true ∧ c.refLoss.on F.BAR_STATUS_LOCK = false ∧ c.refLoss.pend E.REF_IN_FAULT = true ∧ c.refLoss.bar.refGood = 0 ∧
      c.refLoss.bar.waiting = false := by
  set d := c.refGone.showBarLock.raise E.REF_IN_FAULT with hd
  have hdb : d.bar = c.refGone.bar := by rw [hd, (Chip.quiet_raise _ _).bar, Chip.showBarLock_bar]
  have hlock : d.get F.BAR_STATUS_LOCK = 0 := by
    rw [hd, Chip.raise_get_of _ _ _ (by decide)]
    exact c.refGone.showBarLock_lost rfl hu
  have hpend : d.pend E.REF_IN_FAULT = true := by
    refine Chip.raise_pend _ _ (bar_hasPage ?_) (by decide)
    exact ((Chip.quiet_cond _ _ _).build).trans hb
  have hcond : (c.bar.running && c.refUsed && !c.bar.refLost && (decide (c.bar.refMiss ≥ 4) || c.bar.waiting)) = true := by
    rcases hm with h | h <;> simp [hrun, hu, hl, h]
  by_cases hw : c.bar.waiting = true
  · have e : c.refLoss = { d with bar := c.refLoss.bar }.set F.BAR_STATUS_SRC_IN_USE d.wantedSrc := by
      unfold Chip.refLoss
      rw [if_pos hcond, if_pos hw]
      rfl
    have hbar : c.refLoss.bar.refLost = d.bar.refLost ∧ c.refLoss.bar.refGood = d.bar.refGood ∧ c.refLoss.bar.waiting = false := by
      unfold Chip.refLoss
      rw [if_pos hcond, if_pos hw]
      exact ⟨rfl, rfl, rfl⟩
    obtain ⟨h1, h2, h3⟩ := hbar
    refine ⟨?_, ?_, ?_, ?_, h3⟩
    · rw [h1, hdb]
      rfl
    · have h0 : c.refLoss.get F.BAR_STATUS_LOCK = 0 := by
        rw [e, Chip.get_set_field _ _ _ _ (by decide) (by decide) (by decide) (by decide)]
        exact hlock
      rw [Chip.on, h0]
      rfl
    · rw [e, Chip.set_pend _ _ _ _ (by decide)]
      exact hpend
    · rw [h2, hdb]
      rfl
  · have e : c.refLoss = d := by
      unfold Chip.refLoss
      rw [if_pos hcond, if_neg hw]
      rfl
    rw [e, hdb, Chip.on, hlock]
    exact ⟨rfl, rfl, hpend, rfl, Bool.eq_false_iff.mpr hw⟩

theorem Chip.ticks_refUsed (c : Chip) (n : Nat) : (c.ticks n).refUsed = c.refUsed := by
  unfold Chip.refUsed
  rw [Chip.ticks_bar]

theorem Chip.ticks_refEdgeValid (c : Chip) (n : Nat) (e : Int) : (c.ticks n).refEdgeValid e = c.refEdgeValid e := by
  have hm : (c.ticks n).mode = c.mode := Chip.ticks_get _ _ _
  unfold Chip.refEdgeValid
  rw [Chip.ticks_bar, hm]

theorem Chip.ticks_ext12 (c : Chip) (n a : Nat) : (c.ticks n).ext12 a = a + 12 * c.time.stepNs := rfl

/-- An edge of a reference that is used, at the tick that sees it. -/
theorem Chip.refEdge_eq (c : Chip) (ns : Nat) (hrun : c.bar.running = true) (hu : c.refUsed = true) (edge : Int)
    (he : edge = 12 * refSample ns + 12 * c.time.stepNs + 12 * signed 16 (c.get F.BAR_REF_OFFSET_OFFSET)) :
    ∃ n, c.refEdge ns = if c.refEdgeValid edge then (c.ticks n).refValid edge
      else { c.ticks n with bar := { c.bar with refGood := 0 } }.raise E.REF_IN_FAULT := by
  have hn : (!c.bar.running || !c.refUsed) = false := by
    rw [hrun, hu]
    rfl
  have hcast : ((12 * refSample ns : Nat) : Int) = 12 * refSample ns := by push_cast; rfl
  refine ⟨c.ticksTo (12 * refSample ns), ?_⟩
  unfold Chip.refEdge Chip.advanceTo
  dsimp only
  generalize c.ticksTo (12 * refSample ns) = n
  rw [Chip.ticks_ext12, Chip.ticks_get, Chip.ticks_refUsed, Chip.ticks_refEdgeValid, Chip.ticks_bar, hn, hcast, ← he]
  rfl

/-- Settles O22: an edge as `refEdge_eq` judges it, a loss from `refLoss_spec`. -/
theorem referenceInput : Obligations.ReferenceInput := by
  intro s hr hb hrun hu
  refine ⟨fun ns => ?_, fun hl hm => ?_⟩
  · intro edge
    refine Completes.live (fun c => c.inS (fun c => c.refEdge ns)) rfl hr ?_
    obtain ⟨n, he⟩ := s.chip.refEdge_eq ns hrun hu edge rfl
    simp only [Chip.inS, Chip.when, hb, decide_true, if_true, he]
    by_cases hv : s.chip.refEdgeValid edge = true
    · simp only [hv, if_true]
      exact Chip.refValid_bar _ _
    · simp only [hv, Bool.false_eq_true, if_false]
      refine ⟨Chip.raise_pend _ _ (bar_hasPage hb) (by decide), ?_, ?_⟩ <;> rw [Chip.raise_bar]
  · refine Completes.live (fun c => c.inS Chip.refLoss) rfl hr ?_
    simp only [Chip.inS, Chip.when, hb, decide_true, if_true]
    exact s.chip.refLoss_spec hb hrun hu hl hm

/-! ### PTP timestamps (R84) -/

theorem Chip.tsFifo_setTsFifo (c : Chip) (path : Nat) (l : List TsEntry) : (c.setTsFifo path l).tsFifo path = l := by
  unfold Chip.setTsFifo Chip.tsFifo
  by_cases h : path = 0 <;> simp [h]

theorem Chip.tsFifo_setRxStamp (c : Chip) (p path : Nat) (x : Option (Nat × Nat)) : (c.setRxStamp p x).tsFifo path = c.tsFifo path := by
  unfold Chip.setRxStamp Chip.tsFifo
  by_cases h : p % 2 = 0 <;> simp [h]

theorem Quiet.tsFifo {c d : Chip} (h : Quiet c d) (path : Nat) : d.tsFifo path = c.tsFifo path := by
  unfold Chip.tsFifo
  rw [h.time]

/-- The block that a message leaves, before the FIFO of its path: the receive stamp of a message received. -/
def Chip.rxNoted (c : Chip) (path dir : Nat) (x : Option (Nat × Nat)) : Chip := if dir % 2 = 0 then c.setRxStamp path x else c

theorem Chip.rxNoted_tsFifo (c : Chip) (path dir : Nat) (x : Option (Nat × Nat)) : (c.rxNoted path dir x).tsFifo path = c.tsFifo path := by
  unfold Chip.rxNoted
  split
  · exact c.tsFifo_setRxStamp path path x
  · rfl

theorem Chip.setRxStamp_clock (c : Chip) (p : Nat) (x : Option (Nat × Nat)) :
    (c.setRxStamp p x).time.ticks28 = c.time.ticks28 ∧ ∀ frac, (c.setRxStamp p x).time256 frac = c.time256 frac := by
  unfold Chip.setRxStamp Chip.time256 Chip.ext28
  by_cases h : p % 2 = 0 <;> simp [h]

theorem Chip.rxNoted_clock (c : Chip) (path dir : Nat) (x : Option (Nat × Nat)) :
    (c.rxNoted path dir x).time.ticks28 = c.time.ticks28 ∧ ∀ frac, (c.rxNoted path dir x).time256 frac = c.time256 frac := by
  unfold Chip.rxNoted
  split
  · exact c.setRxStamp_clock path x
  · exact ⟨rfl, fun _ => rfl⟩

theorem Chip.setTsFifo_clock (c : Chip) (p : Nat) (l : List TsEntry) :
    (c.setTsFifo p l).time.ticks28 = c.time.ticks28 ∧ ∀ frac, (c.setTsFifo p l).time256 frac = c.time256 frac := by
  unfold Chip.setTsFifo Chip.time256 Chip.ext28
  by_cases h : p = 0 <;> simp [h]

theorem Chip.tsCapture_off (c : Chip) (path dir typ seqId frac : Nat)
    (h : c.on (if path = 0 then F.TIME_TS_CTRL_EN_A else F.TIME_TS_CTRL_EN_B) = false ∨ 3 < typ) : c.tsCapture path dir typ seqId frac = c := by
  unfold Chip.tsCapture
  rcases h with h | h <;> simp [h]

/-- A message of an enabled path. -/
theorem Chip.tsCapture_eq (c : Chip) (path dir typ seqId frac : Nat) (hb : c.build = .S)
    (h : ¬(c.on (if path = 0 then F.TIME_TS_CTRL_EN_A else F.TIME_TS_CTRL_EN_B) = false ∨ 3 < typ)) :
    c.tsCapture path dir typ seqId frac =
      if (c.tsFifo path).length < 16 then
        (c.rxNoted path dir (some (typ, seqId % 65536))).setTsFifo path (c.tsFifo path ++
          [{ ns := c.time256 frac / 256, frac := c.time256 frac % 256, dir := dir % 2, msgType := typ, seqId := seqId % 65536 }])
      else ((c.rxNoted path dir none).set (if path = 0 then F.TIME_TS_LEVEL_OVF_A else F.TIME_TS_LEVEL_OVF_B) 1).raise E.TS_OVERFLOW := by
  have hon : (!c.on (if path = 0 then F.TIME_TS_CTRL_EN_A else F.TIME_TS_CTRL_EN_B) || decide (typ > 3) || decide (c.build = .T)) = false := by
    rw [not_or, Bool.not_eq_false] at h
    simp [h.1, Nat.not_lt.mp h.2, hb]
  by_cases hl : (c.tsFifo path).length < 16
  · have hf : decide (16 ≤ (c.tsFifo path).length) = false := by simpa using hl
    have ht := (c.rxNoted_clock path dir (some (typ, seqId % 65536))).2 frac
    have hq := c.rxNoted_tsFifo path dir (some (typ, seqId % 65536))
    unfold Chip.rxNoted at ht hq
    simp only [Chip.tsCapture, hon, hf, hl, Bool.false_eq_true, if_false, Bool.not_false, if_true, Chip.rxNoted, ht, hq]
  · have hf : decide (16 ≤ (c.tsFifo path).length) = true := by simpa using hl
    simp only [Chip.tsCapture, hon, hf, hl, Bool.false_eq_true, if_false, Bool.not_true, if_true, Chip.rxNoted]

/-- What a message leaves in the FIFO of its path. -/
theorem Chip.tsCapture_spec (c : Chip) (path dir typ seqId frac : Nat) (hp : path < 2) (hb : c.build = .S) :
    let t := c.tsCapture path dir typ seqId frac
    t.time.ticks28 = c.time.ticks28 ∧
      if c.on (if path = 0 then F.TIME_TS_CTRL_EN_A else F.TIME_TS_CTRL_EN_B) = false ∨ 3 < typ then t.tsFifo path = c.tsFifo path
      else if (c.tsFifo path).length < 16 then
        t.tsFifo path = c.tsFifo path ++
          [{ ns := t.time256 frac / 256, frac := t.time256 frac % 256, dir := dir % 2, msgType := typ, seqId := seqId % 65536 }]
      else t.tsFifo path = c.tsFifo path ∧ t.pend E.TS_OVERFLOW = true ∧
        t.get (if path = 0 then F.TIME_TS_LEVEL_OVF_A else F.TIME_TS_LEVEL_OVF_B) = 1 := by
  dsimp only
  by_cases hoff : c.on (if path = 0 then F.TIME_TS_CTRL_EN_A else F.TIME_TS_CTRL_EN_B) = false ∨ 3 < typ
  · rw [if_pos hoff, c.tsCapture_off path dir typ seqId frac hoff]
    exact ⟨rfl, rfl⟩
  · rw [if_neg hoff, c.tsCapture_eq path dir typ seqId frac hb hoff]
    by_cases hl : (c.tsFifo path).length < 16
    · rw [if_pos hl, if_pos hl]
      obtain ⟨h1, h2⟩ := c.rxNoted_clock path dir (some (typ, seqId % 65536))
      refine ⟨(Chip.setTsFifo_clock _ _ _).1.trans h1, ?_⟩
      rw [Chip.tsFifo_setTsFifo, (Chip.setTsFifo_clock _ _ _).2, h2]
    · rw [if_neg hl, if_neg hl]
      have hq := Chip.quiet_raise ((c.rxNoted path dir none).set (if path = 0 then F.TIME_TS_LEVEL_OVF_A else F.TIME_TS_LEVEL_OVF_B) 1) E.TS_OVERFLOW
      refine ⟨?_, ?_, Chip.raise_pend _ _ (time_hasPage _) (by decide), ?_⟩
      · rw [hq.time]
        exact (c.rxNoted_clock path dir none).1
      · rw [hq.tsFifo]
        exact c.rxNoted_tsFifo path dir none
      · interval_cases path <;> exact (Chip.raise_get_of _ _ _ (by decide)).trans (Chip.get_set _ _ _ (by decide) (by decide))

theorem regAt_ts (path : Nat) (hp : path < 2) : ∃ d, regAt .S (F.TIME_TS_A_NS.addr + 8 * path) = .reg d := by
  interval_cases path <;> exact ⟨_, rfl⟩

theorem regAt_tsFlush : ∃ d, regAt .S F.TIME_TS_CTRL_FLUSH.addr = .reg d ∧ ∀ v w, d.quiesceChange v w = false :=
  ⟨_, rfl, fun _ _ => by simp [RegDef.quiesceChange]⟩

/-- Word 0 of the oldest timestamp reaches the path that reads it, and the entry leaves the FIFO. -/
theorem Chip.hostRead_ts (c : Chip) (o : Origin) (path : Nat) (x : TsEntry) (l : List TsEntry) (hb : c.build = .S) (hp : path < 2) (hx : c.tsFifo path = x :: l)
    (hn : x.ns < 2 ^ 32) (hu : 0x020 ∉ c.unpredictable) (hopen : c.pathsOpen = true)
    (hl : smFind c.host.latches (latchKey o (F.TIME_TS_A_NS.addr + 8 * path)) = none) :
    c.hostRead o (F.TIME_TS_A_NS.addr + 8 * path) 4 =
      ((c.keptUppers o (F.TIME_TS_A_NS.addr + 8 * path)).setTsFifo path l).emit (.readData o (F.TIME_TS_A_NS.addr + 8 * path) x.ns) := by
  obtain ⟨d, hd⟩ := regAt_ts path hp
  rw [← hb] at hd
  have hpage : (F.TIME_TS_A_NS.addr + 8 * path) / 4096 = 0x020 := by interval_cases path <;> rfl
  have hlt : F.TIME_TS_A_NS.addr + 8 * path < 0x400000 := by interval_cases path <;> decide
  have h4 : (F.TIME_TS_A_NS.addr + 8 * path) % 4 = 0 := by interval_cases path <;> decide
  have hw : c.presentWord o (F.TIME_TS_A_NS.addr + 8 * path) = BitVec.ofNat 32 x.ns := by
    have h : c.presentWord o (F.TIME_TS_A_NS.addr + 8 * path) = c.tsWord path 0 := by interval_cases path <;> rfl
    rw [h, Chip.tsWord, hx]
    rfl
  have hv : (c.readReg o (F.TIME_TS_A_NS.addr + 8 * path)).1.toNat = x.ns := by
    rw [c.readReg_present o _ (hpage ▸ hu) hl, hw, BitVec.toNat_ofNat]
    exact Nat.mod_eq_of_lt hn
  have hr : (c.readReg o (F.TIME_TS_A_NS.addr + 8 * path)).2 = (c.keptUppers o (F.TIME_TS_A_NS.addr + 8 * path)).setTsFifo path l := by
    have hd1 : (c.tsFifo path).drop 1 = l := by rw [hx]; rfl
    rw [c.readReg_snd o _ (hpage ▸ hu), ← hd1]
    interval_cases path <;> rfl
  rw [c.hostRead_reg o _ d hopen hlt h4 hd, hv, hr]
  exact Chip.deliver_reg _ _ _ _ d hlt h4 hd

/-- Settles O20: captures from `tsCapture_spec`, a pop from `hostRead_ts`, FLUSH as the effect of its write. -/
theorem ptpTimestamps : Obligations.PtpTimestamps := by
  intro s hr hb
  refine ⟨fun path dir typ seqId ticks frac hp => ?_, fun o path x l hp hx hn hu hopen hl => ?_, fun o hc => ?_⟩
  · refine Completes.live (fun c => (c.ticks ticks).when (decide (path < 2)) (fun c => c.tsCapture path dir typ seqId frac)) rfl hr ?_
    simp only [Chip.when, hp, decide_true, if_true]
    exact (s.chip.ticks ticks).tsCapture_spec path dir typ seqId frac hp hb
  · refine Completes.serveFor o (fun c => c.when (decide (path < 2)) (fun c => c.hostRead o (F.TIME_TS_A_NS.addr + 8 * path))) rfl hr ?_
    simp only [Chip.when, hp, decide_true, if_true]
    rw [s.chip.hostRead_ts o path x l hb hp hx hn hu hopen hl, Chip.emit_readData]
    refine ⟨Chip.tsFifo_setTsFifo _ _ _, ?_, List.mem_append_right _ (List.mem_singleton.mpr rfl)⟩
    interval_cases path <;> rfl
  · refine Completes.serveFor o (fun c => c.writeField o F.TIME_TS_CTRL_FLUSH 1) rfl hr ?_
    obtain ⟨d, hd, hq⟩ := regAt_tsFlush
    rw [← hb] at hd
    set w := insBits (s.chip.keepWord F.TIME_TS_CTRL_FLUSH.addr) 8 8 1 with hw
    have h8 : w.getLsbD 8 = true := by
      have h := bitsOf_insBits (s.chip.keepWord F.TIME_TS_CTRL_FLUSH.addr) 8 8 1 (by decide) (by decide)
      rw [← hw, bitsOf_bit_iff] at h
      by_contra hne
      rw [if_neg hne] at h
      exact absurd h (by decide)
    have hact : ∀ x : Chip, x.writeEffect o F.TIME_TS_CTRL_FLUSH.addr (s.chip.rd F.TIME_TS_CTRL_FLUSH.addr) w =
        if w.getLsbD 8 then { x with time := { x.time with tsA := [], tsB := [] } } else x := fun x => rfl
    simp only [h8, if_true] at hact
    obtain ⟨x, -, -, he⟩ := Chip.write32_recorded (o := o) (w := w) hd (by decide) (hq _ _) hc (fun x h => by rw [hact]; exact h)
    rw [hact] at he
    change (s.chip.write32 o F.TIME_TS_CTRL_FLUSH.addr w).tsFifo 0 = [] ∧ (s.chip.write32 o F.TIME_TS_CTRL_FLUSH.addr w).tsFifo 1 = []
    unfold Chip.tsFifo
    rw [he, Chip.noteMirror_time]
    exact ⟨rfl, rfl⟩

end Sys2Proof.Machine
end

