-- ==== Sys2Proof/Proofs/BandsAndScan.lean ====
section
-- One proof at a time: proofs that wait for the kernel side by side hold more memory than the check allows.
set_option Elab.async false
/-! PROOF. Windows and command bits, the completion of bands and the mapping tables, and the lines of scan-out (R157, R158, R160, R167, R169, R179).
-/

namespace Sys2Proof.Machine

/-! ### Windows: writes that go to a table, and reads of an unpredictable page -/

/-- A write of a register that goes to a table, whose effect writes no page control: the effect, on the block with the record. -/
theorem Chip.write32_tabled {c : Chip} {o : Origin} {a : Nat} {w : Word} {d : RegDef} (hr : regAt c.build a = .reg d)
    (ha : a < 0x400000 ∧ a % 4 = 0 ∧ 0x40 ≤ a % 4096 ∧ a ≠ F.DEBUG_CTRL_UNLOCK.addr ∧ unstored a = true) (hq : d.quiesceChange (c.rd a) w = false)
    (hc : Calm c) (he : ∀ x, Calm x → Calm (x.writeEffect o a (c.rd a) w)) :
    ∃ x, Recorded c a x ∧ c.write32 o a w = (x.writeEffect o a (c.rd a) w).noteMirror a := by
  have hl := c.quiet_logged o a d w
  refine ⟨c.logged o a d w, ⟨fun b hb h1 h2 => c.logged_rd o a b d w h1 h2, hl.1, hl.calm hc⟩, ?_⟩
  rw [Chip.write32_unstored hr ha hq hc.2]
  exact ((he _ (hl.calm hc)).noteMirror a).settle

theorem Recorded.part {c x : Chip} {a : Nat} (h : Recorded c a x) {α : Type} (f : Chip → α) (hf : ∀ y : Chip, f y.still = f y) : f x = f c := by
  rw [← hf x, h.still, hf c]

theorem Chip.noteMirror_part (c : Chip) (a : Nat) {α : Type} (f : Chip → α) (hf : ∀ (y : Chip) (m : MirrorSt), f (y.setMirror m) = f y) :
    f (c.noteMirror a) = f c := by
  rcases c.noteMirror_cases a with h | ⟨m, h⟩ <;> rw [h]
  exact hf c m

/-- A host error can leave an open value in the register at an address. -/
def opensAt (b : Build) (a : Nat) : Bool :=
  (findPage b (a / 4096)).any (fun p => p.regs.any (fun r => r.offsets.any (fun off =>
    decide (a / 4096 * 4096 + off = a) && r.fields.any (fun f => f.acc = .ro && f.cls = .l))))

/-- A register without read-only live fields is not scrambled. -/
theorem Chip.scramble_rd (c : Chip) (a : Nat) (h : opensAt c.build a = false) : (c.scramble (a / 4096)).rd a = c.rd a := by
  unfold Chip.scramble
  split
  · rfl
  · next p hp =>
    have hno : ∀ r ∈ p.regs, ∀ off ∈ r.offsets, a / 4096 * 4096 + off = a → ∀ f ∈ r.fields, (decide (f.acc = .ro) && decide (f.cls = .l)) = false := by
      simp only [opensAt, hp, Option.any_some, List.any_eq_false, Bool.and_eq_true, decide_eq_true_eq, not_and, List.any_eq_true, not_exists] at h
      intro r hr off ho ha f hf
      simpa using h r hr off ho ha f hf
    refine foldl_rel (fun c d => d.rd a = c.rd a) (fun _ => rfl) (fun h k => k.trans h) id _ _ (fun c r hr => ?_) c
    refine foldl_rel (fun c d => d.rd a = c.rd a) (fun _ => rfl) (fun h k => k.trans h) id _ _ (fun c off ho => ?_) c
    dsimp only
    split
    · rfl
    · refine foldl_rel (fun c d => d.rd a = c.rd a) (fun _ => rfl) (fun h k => k.trans h) id _ _ (fun c f hf => ?_) c
      by_cases ha : a / 4096 * 4096 + off = a
      · rw [hno r hr off ho ha f hf]
        rfl
      · dsimp only [id]
        split
        · exact Chip.rd_set_ne _ _ _ _ (Ne.symm ha)
        · rfl

theorem Chip.scramble_get (c : Chip) (f : Fld) (pg : Nat) (hpg : f.addr / 4096 = pg) (h : opensAt c.build f.addr = false) :
    (c.scramble pg).get f = c.get f := by
  rw [Chip.get, ← hpg, c.scramble_rd f.addr h, Chip.get]

/-- The block that a read's effect finds: open values may stand in read-only live fields of the page, and words are latched. -/
structure Opened (c : Chip) (pg : Nat) (x : Chip) : Prop where
  rd : ∀ a, a / 4096 = pg → opensAt c.build a = false → x.rd a = c.rd a
  rest : x = { c with regs := x.regs, free := x.free, host := x.host }

theorem Opened.get {c x : Chip} {pg : Nat} (h : Opened c pg x) (f : Fld) (hp : f.addr / 4096 = pg) (ho : opensAt c.build f.addr = false) :
    x.get f = c.get f := by rw [Chip.get, h.rd _ hp ho, Chip.get]

theorem Opened.on {c x : Chip} {pg : Nat} (h : Opened c pg x) (f : Fld) (hp : f.addr / 4096 = pg) (ho : opensAt c.build f.addr = false) :
    x.on f = c.on f := by rw [Chip.on, h.get f hp ho, Chip.on]

theorem Opened.part {c x : Chip} {pg : Nat} (h : Opened c pg x) {α : Type} (f : Chip → α)
    (hf : ∀ (y : Chip) r n g, f { y with regs := r, free := n, host := g } = f y) : f x = f c := by
  rw [h.rest]
  exact hf _ _ _ _

/-- A read of a register, where no path waits: its effect, and the data that reaches the path. -/
theorem Chip.hostRead_opened (c : Chip) (o : Origin) (a : Nat) (d : RegDef) (hp : c.pathsOpen = true) (ha : a < 0x400000) (h4 : a % 4 = 0)
    (hr : regAt c.build a = .reg d) (hb : ∀ x : Chip, (x.readEffect a).build = x.build) :
    ∃ x v, Opened c (a / 4096) x ∧ c.hostRead o a 4 = { x.readEffect a with out := (x.readEffect a).out ++ [.readData o a v] } := by
  have hopen : Opened c (a / 4096) (if a / 4096 ∈ c.unpredictable then c.scramble (a / 4096) else c) := by
    split
    · refine ⟨fun b hb ho => ?_, ?_⟩
      · rw [← hb]
        exact c.scramble_rd b ho
      · exact c.scramble_openOnly _ ▸ rfl
    · exact ⟨fun _ _ _ => rfl, rfl⟩
  set y := if a / 4096 ∈ c.unpredictable then c.scramble (a / 4096) else c with hy
  obtain ⟨x, hx, hxr⟩ : ∃ x, x = y.keptUppers o a ∧ (c.readReg o a).2 = x.readEffect a := ⟨_, rfl, rfl⟩
  have hxo : Opened c (a / 4096) x := by
    refine ⟨fun b hb ho => ?_, ?_⟩
    · rw [hx]
      exact hopen.rd b hb ho
    · rw [hx, Chip.keptUppers, hopen.rest]
  have hd : regAt (x.readEffect a).build a = .reg d := by rw [hb, hxo.rest, ← hr]
  refine ⟨x, (c.readReg o a).1.toNat, hxo, ?_⟩
  rw [c.hostRead_reg o a d hp ha h4 hr, hxr, Chip.deliver_reg _ _ _ _ d ha h4 hd, Chip.emit_readData]

/-- A one-bit field that is inserted as 1 is set. -/
theorem insBits_bit_one (w : Word) (k : Nat) (hk : k < 32) : (insBits w k k 1).getLsbD k = true := by
  have h := bitsOf_insBits w k k 1 (by omega) hk
  rw [bitsOf_bit_iff, Nat.add_sub_cancel_left] at h
  by_contra hne
  rw [if_neg hne] at h
  exact absurd h (by decide)

/-- A command bit written, whose effect writes no page control: the effect, on the block with the record. -/
theorem Chip.writeField_command {c : Chip} {o : Origin} {f : Fld} {d : RegDef} (g : Chip → Chip) (hf : f.hi = f.lo) (h32 : f.lo < 32)
    (hr : regAt c.build f.addr = .reg d)
    (ha : f.addr < 0x400000 ∧ f.addr % 4 = 0 ∧ 0x40 ≤ f.addr % 4096 ∧ f.addr ≠ F.DEBUG_CTRL_UNLOCK.addr ∧ unstored f.addr = false)
    (hq : ∀ v w, d.quiesceChange v w = false) (hc : Calm c)
    (hact : ∀ (x : Chip) (old w : Word), w.getLsbD f.lo = true → x.writeEffect o f.addr old w = g x) (hg : ∀ x, Calm x → Calm (g x)) :
    ∃ x, Recorded c f.addr x ∧ c.writeField o f 1 = (g x).noteMirror f.addr := by
  set w := insBits (c.keepWord f.addr) f.hi f.lo 1 with hw
  have hbit : w.getLsbD f.lo = true := by
    rw [hw, hf]
    exact insBits_bit_one _ _ h32
  have he : ∀ x : Chip, x.writeEffect o f.addr (c.rd f.addr) w = g x := fun x => hact x _ w hbit
  obtain ⟨x, hx, -, h⟩ := Chip.write32_recorded (o := o) (w := w) hr ha (hq _ _) hc (fun x h => by rw [he]; exact hg x h)
  exact ⟨x, hx, by rw [Chip.writeField, ← hw, h, he]⟩

/-! ### The tables of MAPCTL and LEAD_MIN (R158, R160) -/

theorem regAt_tabData : ∃ d, regAt .S F.MAPCTL_TAB_DATA_DATA.addr = .reg d ∧ ∀ v w, d.quiesceChange v w = false :=
  ⟨_, rfl, fun _ _ => by simp [RegDef.quiesceChange]⟩

theorem regAt_leadMin : ∃ d, regAt .S F.MAPCTL_LEAD_MIN_CLR.addr = .reg d ∧ ∀ v w, d.quiesceChange v w = false :=
  ⟨_, rfl, fun _ _ => by simp [RegDef.quiesceChange]⟩

/-- The index of the table window after an access. -/
def Chip.tabNext (c : Chip) : Nat := (c.get F.MAPCTL_TAB_ADDR_INDEX + b2n (c.on F.MAPCTL_TAB_ADDR_AUTO_INC)) % 2 ^ 17

theorem Chip.tabAdvance_spec (c : Chip) : c.tabAdvance.map = c.map ∧ c.tabAdvance.get F.MAPCTL_TAB_ADDR_INDEX = c.tabNext := by
  unfold Chip.tabAdvance Chip.tabNext
  by_cases h : c.on F.MAPCTL_TAB_ADDR_AUTO_INC = true
  · simp only [h, if_true]
    exact ⟨rfl, Chip.get_set _ _ _ (by decide) (by decide)⟩
  · have hlt : c.get F.MAPCTL_TAB_ADDR_INDEX < 2 ^ 17 := Nat.mod_lt _ (by decide)
    simp only [h, Bool.false_eq_true, if_false]
    exact ⟨trivial, (Nat.mod_eq_of_lt hlt).symm⟩

theorem Calm.tabAdvance {c : Chip} (h : Calm c) : Calm c.tabAdvance := by
  unfold Chip.tabAdvance
  split
  · exact h.set _ _ (by decide)
  · exact h

theorem Calm.tabWrite {c : Chip} (h : Calm c) (w : Word) : Calm (c.tabWrite w) := by
  unfold Chip.tabWrite
  dsimp only
  split
  · exact Calm.tabAdvance (h.of_ctrls rfl rfl rfl rfl)
  · exact h.tabAdvance

/-- A word written through the window of the tables. -/
theorem Chip.write32_tab (c : Chip) (o : Origin) (w : Word) (hb : c.build = .S) (hc : Calm c)
    (hk : (tabKind (c.get F.MAPCTL_TAB_ADDR_INDEX)).isSome = true) :
    let t := c.write32 o F.MAPCTL_TAB_DATA_DATA.addr w
    smGet 0 t.map.shadow (c.get F.MAPCTL_TAB_ADDR_INDEX) = w.toNat % 2 ^ tabBits (c.get F.MAPCTL_TAB_ADDR_INDEX) ∧
      t.map.tables = c.map.tables ∧ t.get F.MAPCTL_TAB_ADDR_INDEX = c.tabNext := by
  obtain ⟨d, hd, hq⟩ := regAt_tabData
  rw [← hb] at hd
  obtain ⟨x, hx, he⟩ := Chip.write32_tabled (o := o) (w := w) hd (by decide) (hq _ _) hc (fun x h => h.tabWrite w)
  change c.write32 o F.MAPCTL_TAB_DATA_DATA.addr w = (x.tabWrite w).noteMirror _ at he
  have hi : x.get F.MAPCTL_TAB_ADDR_INDEX = c.get F.MAPCTL_TAB_ADDR_INDEX := hx.get _ (by decide) (by decide) (by decide)
  have hn : x.tabNext = c.tabNext := by
    unfold Chip.tabNext Chip.on
    rw [hi, hx.get F.MAPCTL_TAB_ADDR_AUTO_INC (by decide) (by decide) (by decide)]
  have hm : x.map = c.map := hx.part Chip.map (fun _ => rfl)
  have hw : x.tabWrite w = (x.setMap { x.map with
      shadow := smPut 0 x.map.shadow (x.get F.MAPCTL_TAB_ADDR_INDEX) (w.toNat % 2 ^ tabBits (x.get F.MAPCTL_TAB_ADDR_INDEX)) }).tabAdvance := by
    have hk' : (tabKind (x.get F.MAPCTL_TAB_ADDR_INDEX)).isSome = true := hi ▸ hk
    simp only [Chip.tabWrite, hk', if_true]
  obtain ⟨h1, h2⟩ := Chip.tabAdvance_spec (x.setMap { x.map with
    shadow := smPut 0 x.map.shadow (x.get F.MAPCTL_TAB_ADDR_INDEX) (w.toNat % 2 ^ tabBits (x.get F.MAPCTL_TAB_ADDR_INDEX)) })
  dsimp only
  rw [he, Chip.noteMirror_get, Chip.noteMirror_part _ _ Chip.map (fun _ _ => rfl), hw, h1, h2]
  refine ⟨?_, ?_, hn⟩
  · rw [hi]
    simp [Chip.setMap]
  · change x.map.tables = c.map.tables
    rw [hm]

/-- A word read through the window of the tables. -/
theorem Chip.hostRead_tab (c : Chip) (o : Origin) (hb : c.build = .S) (hp : c.pathsOpen = true) :
    let t := c.hostRead o F.MAPCTL_TAB_DATA_DATA.addr 4
    t.map = c.map ∧ t.get F.MAPCTL_TAB_ADDR_INDEX = c.tabNext := by
  obtain ⟨d, hd, -⟩ := regAt_tabData
  rw [← hb] at hd
  have hbuild : ∀ x : Chip, (x.readEffect F.MAPCTL_TAB_DATA_DATA.addr).build = x.build := by
    intro x
    change x.tabAdvance.build = x.build
    unfold Chip.tabAdvance
    split <;> rfl
  obtain ⟨x, v, hx, he⟩ := c.hostRead_opened o _ d hp (by decide) (by decide) hd hbuild
  have ho : opensAt c.build F.MAPCTL_TAB_ADDR_INDEX.addr = false := by
    rw [hb]
    decide +kernel
  have hn : x.tabNext = c.tabNext := by
    unfold Chip.tabNext
    rw [hx.get F.MAPCTL_TAB_ADDR_INDEX rfl ho, hx.on F.MAPCTL_TAB_ADDR_AUTO_INC rfl ho]
  obtain ⟨h1, h2⟩ := x.tabAdvance_spec
  dsimp only
  rw [he]
  exact ⟨h1.trans (hx.part Chip.map (fun _ _ _ _ => rfl)), h2.trans hn⟩

/-- LEAD_MIN returns to its largest value. -/
theorem Chip.writeField_leadMin (c : Chip) (o : Origin) (hb : c.build = .S) (hc : Calm c) :
    (c.writeField o F.MAPCTL_LEAD_MIN_CLR 1).get F.MAPCTL_LEAD_MIN_LINES = 0x7FFF := by
  obtain ⟨d, hd, hq⟩ := regAt_leadMin
  rw [← hb] at hd
  obtain ⟨x, -, he⟩ := Chip.writeField_command (o := o) (fun x => x.set F.MAPCTL_LEAD_MIN_LINES 0x7FFF) rfl (by decide) hd (by decide) hq hc
    (fun x old w h => (if_pos h : (if w.getLsbD 31 = true then x.set F.MAPCTL_LEAD_MIN_LINES 0x7FFF else x) = _)) (fun x h => h.set _ _ (by decide))
  rw [he, Chip.noteMirror_get, Chip.get_set _ _ _ (by decide) (by decide)]
  rfl

/-! ### The only canvas through the work of mapping -/

/-- One canvas, begun, of a number and with these bands done. -/
def OneCanvas (seq : Nat) (done : List Nat) (c : Chip) : Prop := ∃ y, c.map.canvases = [y] ∧ y.seq = seq ∧ y.done = done ∧ y.begun = true

theorem OneCanvas.congr {seq : Nat} {done : List Nat} {c d : Chip} (h : OneCanvas seq done c) (hm : d.map.canvases = c.map.canvases) :
    OneCanvas seq done d := by
  unfold OneCanvas
  rw [hm]
  exact h

theorem OneCanvas.ite {seq : Nat} {done : List Nat} {c d : Chip} (p : Bool) (h : OneCanvas seq done c) (k : OneCanvas seq done d) :
    OneCanvas seq done (if p then c else d) := by
  cases p
  · exact k
  · exact h

theorem OneCanvas.noteLead {seq : Nat} {done : List Nat} {c : Chip} (h : OneCanvas seq done c) (m : Int) : OneCanvas seq done (c.noteLead m) := by
  refine h.congr ?_
  unfold Chip.noteLead
  dsimp only
  split <;> rfl

theorem OneCanvas.setCanvas {seq : Nat} {done : List Nat} {c : Chip} (h : OneCanvas seq done c) (x : CanvasSt) (hs : x.seq = seq) (hd : x.done = done)
    (hb : x.begun = true) : OneCanvas seq done (c.setCanvas x) := by
  obtain ⟨y, hy, hys, -, -⟩ := h
  refine ⟨x, ?_, hs, hd, hb⟩
  simp [Chip.setCanvas, Chip.setMap, hy, hys, hs]

theorem OneCanvas.find {seq : Nat} {done : List Nat} {c : Chip} (h : OneCanvas seq done c) (k : Nat) {x : CanvasSt} (hx : c.canvas? k = some x) :
    x.seq = seq ∧ x.done = done ∧ x.begun = true := by
  obtain ⟨y, hy, h1, h2, h3⟩ := h
  rw [Chip.canvas?, hy] at hx
  have hm := List.mem_singleton.mp (List.mem_of_find?_eq_some hx)
  rw [hm]
  exact ⟨h1, h2, h3⟩

theorem OneCanvas.markLate {seq : Nat} {done : List Nat} {c : Chip} (h : OneCanvas seq done c) (k : Nat) : OneCanvas seq done (c.markLate k) := by
  unfold Chip.markLate
  split
  · exact h
  · next x hx =>
    obtain ⟨h1, h2, h3⟩ := h.find k hx
    split
    · exact h
    · refine (h.setCanvas { x with late := true } h1 h2 h3).congr ?_
      rw [(Chip.quiet_raise _ _).map]
      rfl

theorem Chip.mapRead_map (c : Chip) (addr n : Nat) : (c.mapRead addr n).2.map = c.map := by
  have h := (c.sameControl_dramRead dmMapTab addr n).map
  unfold Chip.mapRead
  dsimp only
  split
  · exact ((Chip.quiet_report _ _ _).trans (Chip.quiet_raise _ _)).map.trans h
  · exact h

theorem Chip.bandEntries_map (c : Chip) (x : CanvasSt) (j : Nat) : (c.bandEntries x j).2.map = c.map := by
  unfold Chip.bandEntries
  refine foldl_rel (fun c d => d.map = c.map) (fun _ => rfl) (fun h k => k.trans h) Prod.snd _ _ (fun a l _ => ?_) ([], c)
  dsimp only
  split
  · rfl
  · split <;> exact Chip.mapRead_map _ _ _

theorem OneCanvas.dispatchBand {seq : Nat} {done : List Nat} {c : Chip} (h : OneCanvas seq done c) (k : Nat) : OneCanvas seq done (c.dispatchBand k) := by
  unfold Chip.dispatchBand
  split
  · exact h
  · next x hx =>
    obtain ⟨h1, h2, h3⟩ := h.find k hx
    split
    · exact h
    · dsimp only
      have hr : OneCanvas seq done (c.bandEntries x x.bands).2 := h.congr (by rw [Chip.bandEntries_map])
      exact (hr.setCanvas { x with bands := x.bands + 1 } h1 h2 h3).congr rfl

/-- A canvas that has begun is not begun again. -/
theorem OneCanvas.nextBand {seq : Nat} {done : List Nat} {c : Chip} (h : OneCanvas seq done c) (ap : ApplyRef → Chip → Chip) :
    OneCanvas seq done (c.nextBand ap) := by
  unfold Chip.nextBand
  split
  · exact h
  · split
    · exact h.dispatchBand _
    · unfold Chip.beginCanvas
      obtain ⟨y, hy, -, -, hb⟩ := id h
      rw [hy]
      simp only [List.find?_cons, List.find?_nil, hb, Bool.not_true]
      exact h

theorem OneCanvas.takeTask {seq : Nat} {done : List Nat} {c : Chip} (h : OneCanvas seq done c) (e : Nat) : OneCanvas seq done (c.takeTask e) := by
  refine h.congr ?_
  unfold Chip.takeTask
  split
  · rfl
  · split
    · rfl
    · split
      · rfl
      · dsimp only
        have hmix : ∀ x : CanvasSt, (c.noteMixed x).map = c.map := by
          intro x
          unfold Chip.noteMixed
          dsimp only
          split
          · split <;> rfl
          · rfl
        split
        · next x _ =>
          change (c.noteMixed x).map.canvases = c.map.canvases
          rw [hmix]
        · rfl

theorem OneCanvas.assignTasks {seq : Nat} {done : List Nat} {c : Chip} (h : OneCanvas seq done c) : OneCanvas seq done c.assignTasks := by
  unfold Chip.assignTasks
  generalize List.range 16 = l
  induction l generalizing c with
  | nil => exact h
  | cons e t ih => exact ih (h.takeTask e)

/-- A band of the only canvas completes, and it is not the last. -/
theorem Chip.bandComplete_one (c : Chip) (ap : ApplyRef → Chip → Chip) (x : CanvasSt) (b : BandSt) (hx : c.map.canvases = [x]) (hbs : c.map.bands = [b])
    (hseq : b.seq = x.seq) (hcols : b.cols = []) (hheld : b.held = 0) (hbegun : x.begun = true) (hlen : x.done.length + 1 < c.numBands) :
    OneCanvas x.seq (b.band :: x.done) (c.bandComplete ap) := by
  have hfind : c.map.bands.find? (fun b => b.cols.isEmpty && decide (b.held = 0)) = some b := by simp [hbs, hcols, hheld]
  have hcan : ∀ m : List BandSt, (c.setMap { c.map with bands := m }).canvas? b.seq = some x := by
    intro m
    change c.map.canvases.find? _ = _
    simp [hx, hseq]
  have hl : ∀ m, decide (x.done.length + 1 ≥ (c.setMap m).numBands) = false := fun m => by
    change decide (x.done.length + 1 ≥ c.numBands) = false
    exact decide_eq_false (by omega)
  unfold Chip.bandComplete
  rw [hfind]
  dsimp only
  rw [hcan]
  dsimp only
  rw [hl]
  simp only [Bool.or_false, Bool.false_eq_true, if_false]
  refine (OneCanvas.nextBand ?_ _).assignTasks
  have h0 : ∀ m : List BandSt, OneCanvas x.seq (b.band :: x.done) ((c.setMap { c.map with bands := m }).setCanvas { x with done := b.band :: x.done }) := by
    intro m
    refine ⟨{ x with done := b.band :: x.done }, ?_, rfl, rfl, hbegun⟩
    change c.map.canvases.map _ = _
    simp [hx]
  have h1 := fun (m : List BandSt) (p : Bool) (k : Int) => OneCanvas.ite p ((h0 m).noteLead k) (h0 m)
  exact OneCanvas.ite _ ((h1 _ _ _).markLate _) (h1 _ _ _)

/-- The only canvas becomes late. -/
theorem Chip.markLate_one (c : Chip) (x : CanvasSt) (hx : c.map.canvases = [x]) (hl : x.late = false) :
    let t := c.markLate x.seq
    t.map.canvases = [{ x with late := true }] ∧ t.pend E.CANVAS_LATE = true ∧
      t.get F.MAPCTL_LATE_COUNT_COUNT = min 0xFFFFFFFF (c.get F.MAPCTL_LATE_COUNT_COUNT + 1) := by
  have hcan : c.canvas? x.seq = some x := by simp [Chip.canvas?, hx]
  have e : c.markLate x.seq = ((c.setCanvas { x with late := true }).bumpSat F.MAPCTL_LATE_COUNT_COUNT).raise E.CANVAS_LATE := by
    simp only [Chip.markLate, hcan, hl, Bool.false_eq_true, if_false]
  dsimp only
  rw [e]
  refine ⟨?_, Chip.raise_pend _ _ (mapctl_hasPage _) (by decide), ?_⟩
  · rw [(Chip.quiet_raise _ _).map]
    change c.map.canvases.map _ = _
    simp [hx]
  · rw [Chip.raise_get_of _ _ _ (by decide), Chip.get_bumpSat _ _ _ (by decide) (by decide)]
    rfl

/-- Settles O28: a band completes in the only canvas (`OneCanvas`), the window of the tables, and LEAD_MIN. -/
theorem bandsAndTables : Obligations.BandsAndTables := by
  intro s hr hb hc
  refine ⟨fun x b k hx hbs hseq hcols hheld hbegun hlen => ?_, fun x hx hlate hdone => ?_, fun o w hk => ⟨?_, ?_⟩, fun o => ?_⟩
  · refine Completes.live (fun c => (c.ticks k).bandComplete Chip.applyAt) rfl hr ?_
    obtain ⟨y, hy, h1, h2, -⟩ := (s.chip.ticks k).bandComplete_one Chip.applyAt x b hx hbs hseq hcols hheld hbegun hlen
    exact ⟨y, by rw [hy]; exact List.mem_singleton.mpr rfl, h1, h2⟩
  · refine Completes.live Chip.canvasLate rfl hr ?_
    obtain ⟨n, e⟩ : ∃ n, s.chip.canvasLate = (s.chip.ticks n).markLate x.seq := by
      refine ⟨s.chip.ticksTo (s.chip.canvasDeadline x), ?_⟩
      unfold Chip.canvasLate Chip.advanceTo
      simp only [hx, List.find?_cons, hlate, hdone, Bool.not_false, Bool.and_self]
    rw [e]
    exact (s.chip.ticks n).markLate_one x hx hlate
  · exact Completes.serveFor o (fun c => c.window o F.MAPCTL_TAB_DATA_DATA.addr (some w)) rfl hr (s.chip.write32_tab o w hb hc hk)
  · exact Completes.serveFor o (fun c => c.window o F.MAPCTL_TAB_DATA_DATA.addr none) rfl hr (s.chip.hostRead_tab o hb hc.2)
  · exact Completes.serveFor o (fun c => c.writeField o F.MAPCTL_LEAD_MIN_CLR 1) rfl hr (s.chip.writeField_leadMin o hb hc)

/-! ### What scan-out leaves alone -/

/-- Nothing differs but registers of the scan-out pages, registers of events, time, scan-out's state and the preview. -/
structure ScanOnly (c d : Chip) : Prop where
  rd : ∀ a, quietReg a = true → a / 4096 ≠ 0x070 → a / 4096 ≠ 0x071 → d.rd a = c.rd a
  build : d.build = c.build
  ctrls : d.ctrls = c.ctrls
  inUse : d.inUse = c.inUse
  map : d.map = c.map
  upd : d.upd = c.upd

theorem ScanOnly.refl (c : Chip) : ScanOnly c c := ⟨fun _ _ _ _ => rfl, rfl, rfl, rfl, rfl, rfl⟩

theorem ScanOnly.trans {c d e : Chip} (h : ScanOnly c d) (k : ScanOnly d e) : ScanOnly c e :=
  ⟨fun a ha h1 h2 => (k.rd a ha h1 h2).trans (h.rd a ha h1 h2), k.build.trans h.build, k.ctrls.trans h.ctrls, k.inUse.trans h.inUse, k.map.trans h.map,
    k.upd.trans h.upd⟩

theorem Quiet.scanOnly {c d : Chip} (h : Quiet c d) : ScanOnly c d := ⟨fun a ha _ _ => h.2.2 a ha, h.build, h.2.1, h.inUse, h.map, h.upd⟩

theorem ScanOnly.ticks (c : Chip) (n : Nat) : ScanOnly c (c.ticks n) := ⟨fun _ _ _ _ => rfl, rfl, rfl, rfl, rfl, rfl⟩

theorem ScanOnly.setScan (c : Chip) (s : ScanSt) : ScanOnly c (c.setScan s) := ⟨fun _ _ _ _ => rfl, rfl, rfl, rfl, rfl, rfl⟩

theorem ScanOnly.set (c : Chip) (f : Fld) (v : Nat) (h : f.addr / 4096 = 0x070 ∨ f.addr / 4096 = 0x071) (h4 : f.addr % 4096 ≠ 4) :
    ScanOnly c (c.set f v) := by
  refine ⟨fun a _ h1 h2 => Chip.rd_set_ne _ _ _ _ ?_, rfl, c.ctrls_set f v h4, rfl, rfl, rfl⟩
  rintro rfl
  exact h.elim h1 h2

theorem ScanOnly.setScanState (c : Chip) (st : Nat) : ScanOnly c (c.setScanState st) :=
  (ScanOnly.set c _ _ (Or.inl rfl) (by decide)).trans (ScanOnly.set _ _ _ (Or.inr rfl) (by decide))

theorem ScanOnly.setBoth (c : Chip) (f : Fld) (v : Nat) (h : f.addr / 4096 = 0x070) (h4 : f.addr % 4096 ≠ 4) : ScanOnly c (c.setBoth f v) := by
  refine (ScanOnly.set c _ _ (Or.inl h) h4).trans (ScanOnly.set _ _ _ (Or.inr ?_) ?_)
  · show (f.addr + 4096 * 1) / 4096 = 0x071
    omega
  · show (f.addr + 4096 * 1) % 4096 ≠ 4
    omega

theorem ScanOnly.setLag (c : Chip) (n : Nat) : ScanOnly c (c.setLag n) :=
  (ScanOnly.set c F.SCAN_LAG_NS n (Or.inl rfl) (by decide)).trans (Chip.quiet_cond _ _ _).scanOnly

theorem ScanOnly.get {c d : Chip} (h : ScanOnly c d) (f : Fld) (hq : quietReg f.addr = true) (h1 : f.addr / 4096 ≠ 0x070) (h2 : f.addr / 4096 ≠ 0x071) :
    d.get f = c.get f := by rw [Chip.get, h.rd _ hq h1 h2, Chip.get]

theorem ScanOnly.calm {c d : Chip} (h : ScanOnly c d) (hc : c.commitPages = []) : d.commitPages = [] := (Chip.commitPages_congr h.ctrls).trans hc

theorem ScanOnly.use {c d : Chip} (h : ScanOnly c d) (f : Fld) : d.use f = c.use f := by
  unfold Chip.use Chip.rdUse
  rw [h.inUse, h.build]

theorem ScanOnly.fixedCanvas {c d : Chip} (h : ScanOnly c d) : d.fixedCanvas = c.fixedCanvas := by
  unfold Chip.fixedCanvas Chip.hostFrames Chip.sramCanvas
  rw [h.use, h.use, h.build]

theorem ScanOnly.chaseMode {c d : Chip} (h : ScanOnly c d) : d.chaseMode = c.chaseMode := by
  unfold Chip.chaseMode Chip.on
  rw [h.get _ (by decide) (by decide) (by decide)]

theorem ScanOnly.canvasDone {c d : Chip} (h : ScanOnly c d) (x : CanvasSt) : d.canvasDone x = c.canvasDone x := by
  unfold Chip.canvasDone Chip.numBands Chip.canvasH
  rw [h.get _ (by decide) (by decide) (by decide)]

theorem ScanOnly.runs_mapctl {c d : Chip} (h : ScanOnly c d) : d.runs mapctl = c.runs mapctl := by
  unfold Chip.runs Chip.en Chip.memReady Chip.on
  rw [h.get (F.EN.pg mapctl) (by decide) (by decide) (by decide), h.get F.ECC_STATUS_DRAM_FILLED (by decide) (by decide) (by decide),
    h.get F.ECC_STATUS_SRAM_FILLED (by decide) (by decide) (by decide), h.use, h.build]

theorem ScanOnly.canvasFor {c d : Chip} (h : ScanOnly c d) (x : BeatDue) : d.canvasFor x = c.canvasFor x := by
  unfold Chip.canvasFor
  rw [h.runs_mapctl, h.map]

theorem ScanOnly.tableHeld {c d : Chip} (h : ScanOnly c d) : d.tableHeld = c.tableHeld := by
  unfold Chip.tableHeld Chip.barCount
  rw [h.upd, h.get _ (by decide) (by decide) (by decide)]

/-- What mapping leaves alone when it gives a canvas up: scan-out, its line, the bar count, and what is in use. -/
structure PassOnly (c d : Chip) : Prop where
  line : d.rd F.SCAN_LINE_LINE.addr = c.rd F.SCAN_LINE_LINE.addr
  count : d.rd F.BAR_COUNT_COUNT.addr = c.rd F.BAR_COUNT_COUNT.addr
  scan : d.scan = c.scan
  upd : d.upd = c.upd
  inUse : d.inUse = c.inUse
  build : d.build = c.build

theorem PassOnly.refl (c : Chip) : PassOnly c c := ⟨rfl, rfl, rfl, rfl, rfl, rfl⟩

theorem PassOnly.trans {c d e : Chip} (h : PassOnly c d) (k : PassOnly d e) : PassOnly c e :=
  ⟨k.line.trans h.line, k.count.trans h.count, k.scan.trans h.scan, k.upd.trans h.upd, k.inUse.trans h.inUse, k.build.trans h.build⟩

theorem PassOnly.setMap (c : Chip) (m : MapSt) : PassOnly c (c.setMap m) := ⟨rfl, rfl, rfl, rfl, rfl, rfl⟩

theorem PassOnly.set (c : Chip) (f : Fld) (v : Nat) (h1 : f.addr ≠ F.SCAN_LINE_LINE.addr) (h2 : f.addr ≠ F.BAR_COUNT_COUNT.addr) : PassOnly c (c.set f v) :=
  ⟨Chip.rd_set_ne _ _ _ _ h1.symm, Chip.rd_set_ne _ _ _ _ h2.symm, rfl, rfl, rfl, rfl⟩

theorem PassOnly.showWaits (c : Chip) : PassOnly c c.showWaits :=
  (PassOnly.set c _ _ (by decide) (by decide)).trans (PassOnly.set _ _ _ (by decide) (by decide))

theorem PassOnly.takeTask (c : Chip) (e : Nat) : PassOnly c (c.takeTask e) := by
  have hmix : ∀ x : CanvasSt, PassOnly c (c.noteMixed x) := by
    intro x
    unfold Chip.noteMixed
    dsimp only
    split
    · split
      · exact ⟨rfl, rfl, rfl, rfl, rfl, rfl⟩
      · exact PassOnly.refl c
    · exact PassOnly.refl c
  have hset : ∀ (d : Chip) (v : Nat), PassOnly d (d.set (F.MAP_STATUS_ACTIVE.pg e) v) := by
    intro d v
    refine PassOnly.set d _ v ?_ ?_ <;>
    · show F.MAP_STATUS_ACTIVE.addr + 4096 * e ≠ _
      simp only [F.MAP_STATUS_ACTIVE, F.SCAN_LINE_LINE, F.BAR_COUNT_COUNT]
      omega
  unfold Chip.takeTask
  split
  · exact PassOnly.refl c
  · split
    · exact PassOnly.refl c
    · split
      · exact PassOnly.refl c
      · dsimp only
        refine PassOnly.trans ?_ (((PassOnly.setMap _ _).trans (PassOnly.setMap _ _)).trans (hset _ _))
        split
        · exact hmix _
        · exact PassOnly.refl c

theorem PassOnly.assignTasks (c : Chip) : PassOnly c c.assignTasks :=
  foldl_rel PassOnly PassOnly.refl PassOnly.trans id _ _ (fun c e _ => PassOnly.takeTask c e) c

theorem PassOnly.keepCanvases (c : Chip) (l : List CanvasSt) : PassOnly c (c.keepCanvases l) := by
  unfold Chip.keepCanvases
  exact ((PassOnly.setMap c _).trans (PassOnly.setMap _ _)).trans ((PassOnly.showWaits _).trans (PassOnly.assignTasks _))

theorem PassOnly.passBeat (c : Chip) (d : BeatDue) : PassOnly c (c.passBeat d) := by
  unfold Chip.passBeat
  split
  · unfold Chip.passCanvas Chip.dropFmap Chip.dropCanvas Chip.setCanvas
    dsimp only
    split
    · exact (PassOnly.setMap c _).trans (PassOnly.keepCanvases _ _)
    · exact (PassOnly.setMap c _).trans (PassOnly.setMap _ _)
  · exact PassOnly.refl c

/-! ### Line 0 and the lines after it (R167, R169, R179) -/

theorem scan_hasPage {c : Chip} (h : c.build = .S) : c.hasPage 0x070 = true := by unfold Chip.hasPage; rw [h]; decide +kernel

/-- Reduced service says so in RESET only. -/
theorem Chip.lightNow_cases (c : Chip) : ∃ n, c.lightNow = c ∨ c.lightNow = (c.set F.RESET_SERVICE_LEVEL 1).set F.RESET_TIMES_REDUCED_MS n := by
  obtain ⟨r, hr⟩ : ∃ r : Bool, c.lightNow = if r then c.reducedService else c := ⟨_, rfl⟩
  refine ⟨c.sinceGood, ?_⟩
  rw [hr, Chip.reducedService]
  cases r
  · exact Or.inl rfl
  · by_cases h : c.get F.RESET_SERVICE_LEVEL = 0
    · simp [h]
    · simp [h]

theorem Chip.lightNow_scan (c : Chip) : c.lightNow.scan = c.scan := by
  obtain ⟨n, h | h⟩ := c.lightNow_cases <;> rw [h]
  rfl

theorem Chip.lightNow_get (c : Chip) (f : Fld) (h1 : f.addr ≠ F.RESET_SERVICE_LEVEL.addr) (h2 : f.addr ≠ F.RESET_TIMES_REDUCED_MS.addr) :
    c.lightNow.get f = c.get f := by
  obtain ⟨n, h | h⟩ := c.lightNow_cases <;> rw [h]
  rw [Chip.get_set_ne _ _ _ _ h2, Chip.get_set_ne _ _ _ _ h1]

theorem Chip.setLag_scan (c : Chip) (n : Nat) : (c.setLag n).scan = c.scan := (Chip.quiet_cond (c.set F.SCAN_LAG_NS n) _ _).scan

theorem Chip.setScanState_scan (c : Chip) (n : Nat) : (c.setScanState n).scan = c.scan := rfl

theorem Chip.setBoth_scan (c : Chip) (f : Fld) (n : Nat) : (c.setBoth f n).scan = c.scan := rfl

theorem Chip.lightNow_pend (c : Chip) (e : Ev) : c.lightNow.pend e = c.pend e := by
  obtain ⟨n, h | h⟩ := c.lightNow_cases <;> rw [h]
  rw [Chip.set_pend _ _ _ _ (by decide), Chip.set_pend _ _ _ _ (by decide)]

/-- Scan-out waits for a beat's canvas, and says once that it is late. -/
theorem Chip.scanLate_spec (c : Chip) (lit : Nat × Nat) (hb : c.build = .S) :
    let t := c.scanLate lit
    t.scan.dues = c.scan.dues ∧ t.scan.lateFor = some lit ∧ t.scanState = ssHeld ∧ (c.scan.lateFor ≠ some lit → t.pend E.SCAN_A_LATE = true) := by
  have hst : (c.setScanState ssHeld).get (F.STATE.pg (scanPage 0)) = ssHeld := by
    unfold Chip.setScanState
    rw [Chip.get_set_ne _ _ _ _ (by decide), Chip.get_set _ _ _ (by decide) (by decide)]
    rfl
  dsimp only
  unfold Chip.scanLate
  by_cases h : c.scan.lateFor = some lit
  · have h' : (c.setScanState ssHeld).scan.lateFor = some lit := h
    rw [if_pos h']
    exact ⟨rfl, h, hst, fun hn => absurd h hn⟩
  · have h' : ¬(c.setScanState ssHeld).scan.lateFor = some lit := h
    simp only [h', if_false, (Chip.quiet_raise _ _).scan]
    refine ⟨rfl, rfl, ?_, fun _ => Chip.raise_pend _ _ (scan_hasPage hb) (by decide)⟩
    rw [Chip.scanState, Chip.state, Chip.raise_get_of _ _ _ (by decide), Chip.bumpSat, Chip.get_set_ne _ _ _ _ (by decide)]
    exact hst

/-- The counter at line 0 of a due beat. -/
def ScanSt.begun (s : ScanSt) (d : BeatDue) (at12 : Nat) : ScanSt :=
  { s with
    dues := s.dues.drop 1
    active := true
    s12 := d.s12
    start12 := at12
    fromLine := 0
    len12 := d.len12
    line := 0
    curLit := (d.litBar, d.litBeat) }

/-- Line 0 of a due beat begins: the counter, and what shows it. -/
theorem Chip.enterLine0_spec (c : Chip) (d : BeatDue) (at12 : Nat) (hc : c.commitPages = []) (ha : c.scan.active = false) :
    let e := c.enterLine0 Chip.applyAt d at12
    ScanOnly c e ∧ e.scan = c.scan.begun d at12 ∧ e.get F.SCAN_LINE_LINE = 0 := by
  set x := (c.setScan (c.scan.begun d at12)).setLag ((at12 - d.s12) / 12) with hx
  set y := x.setScanState (if (at12 - d.s12) / 12 = 0 then ssScan else ssCatchup) with hy
  have hxs : ScanOnly c y := ((ScanOnly.setScan c _).trans (ScanOnly.setLag _ _)).trans (ScanOnly.setScanState _ _)
  have hap : y.applyAt (.scanLine 0) = y := Chip.applyAt_none _ _ (hxs.calm hc)
  have he : c.enterLine0 Chip.applyAt d at12 =
      ((y.setBoth F.SCAN_LINE_LINE 0).setBoth F.SCAN_LINE_BLANK 0).setBoth F.SCAN_LINE_BEAT d.beat := by
    rw [← hap]
    unfold Chip.enterLine0
    simp only [ha, Bool.false_eq_true, if_false, List.nil_append, List.foldl_cons, List.foldl_nil]
    rfl
  dsimp only
  rw [he]
  refine ⟨hxs.trans (((ScanOnly.setBoth _ _ _ rfl (by decide)).trans (ScanOnly.setBoth _ _ _ rfl (by decide))).trans
    (ScanOnly.setBoth _ _ _ rfl (by decide))), ?_, ?_⟩
  · rw [Chip.setBoth_scan, Chip.setBoth_scan, Chip.setBoth_scan, hy, Chip.setScanState_scan, hx, Chip.setLag_scan]
    rfl
  · unfold Chip.setBoth
    generalize y = z
    simp (disch := decide) only [Chip.get_set_ne, Chip.get_set_field, Chip.get_set]
    rfl

/-- A canvas that begins is read, and sends its cells where the tables are not held. -/
theorem Chip.takeCanvas_spec (c : Chip) (d : BeatDue) (h : c.fixedCanvas = true ∨ (c.canvasFor d).isSome = true) :
    let t := c.takeCanvas d
    t.scan.dues = c.scan.dues ∧ t.scan.active = c.scan.active ∧ t.scan.line = c.scan.line ∧ t.scan.curLit = c.scan.curLit ∧
      t.get F.SCAN_LINE_LINE = c.get F.SCAN_LINE_LINE ∧
      t.scan.curSeq = (if c.fixedCanvas then none else c.canvasFor d).map (fun x => x.seq) ∧
      t.scan.jobs.length = c.scan.jobs.length + b2n (!c.tableHeld && d.reads) := by
  have hyes : (c.fixedCanvas || (if c.fixedCanvas then none else c.canvasFor d).isSome) = true := by
    by_cases hf : c.fixedCanvas = true
    · simp [hf]
    · simpa [hf] using h
  set x := if c.fixedCanvas then none else c.canvasFor d with hx
  set y := (c.showActive (c.readCanvas x)).previewTake (c.readCanvas x) ((x.map (fun y => y.feed)).getD 0) with hy
  have hys : y.scan = c.scan ∧ y.upd = c.upd ∧ y.barCount = c.barCount ∧ y.get F.SCAN_LINE_LINE = c.get F.SCAN_LINE_LINE := by
    have hp : ∀ (z : Chip) r n, (z.previewTake r n).scan = z.scan ∧ (z.previewTake r n).upd = z.upd ∧ ∀ f, (z.previewTake r n).get f = z.get f := by
      intro z r n
      unfold Chip.previewTake
      dsimp only
      split <;> exact ⟨rfl, rfl, fun _ => rfl⟩
    obtain ⟨h1, h2, h3⟩ := hp (c.showActive (c.readCanvas x)) (c.readCanvas x) ((x.map (fun y => y.feed)).getD 0)
    refine ⟨h1, h2, ?_, ?_⟩
    · rw [Chip.barCount, h3]
      unfold Chip.showActive
      simp (disch := decide) only [Chip.get_set_ne]
      rfl
    · rw [h3]
      unfold Chip.showActive
      simp (disch := decide) only [Chip.get_set_ne]
  obtain ⟨hsc, hup, hbc, hln⟩ := hys
  have hheld : y.tableHeld = c.tableHeld := by
    unfold Chip.tableHeld
    rw [hup, hbc]
  have hseq : (c.readCanvas x).seq = x.map (fun x => x.seq) := by cases x <;> rfl
  have he : ∃ job, c.takeCanvas d = y.setScan { y.scan with
      curSeq := (c.readCanvas x).seq, jobs := if y.tableHeld || !d.reads then y.scan.jobs else y.scan.jobs ++ [job] } := by
    refine ⟨⟨c.readCanvas x, d.litBar, d.litBeat, y.scan.tabUse, [], [], y.deadChains⟩, ?_⟩
    unfold Chip.takeCanvas
    dsimp only
    rw [← hx, if_pos hyes]
  obtain ⟨job, he⟩ := he
  dsimp only
  rw [he, hheld, hseq, hsc]
  refine ⟨rfl, rfl, rfl, rfl, hln, rfl, ?_⟩
  change (if c.tableHeld || !d.reads then c.scan.jobs else c.scan.jobs ++ [job]).length = _
  cases c.tableHeld <;> cases d.reads <;> simp [b2n]

/-- Time alone moves on. -/
theorem Chip.atTick (c : Chip) (n : Nat) : ScanOnly c (c.ticks n) ∧ (c.ticks n).scan = c.scan := ⟨ScanOnly.ticks c n, rfl⟩

/-- A counter that was held goes on, as a catch-up. -/
def Chip.lineResumed (c : Chip) (y : Nat) : Chip :=
  if c.scanState = ssHeld then (c.setScan { c.scan with start12 := c.bar12 c.now12, fromLine := y }).setScanState ssCatchup else c

theorem Chip.lineResumed_spec (c : Chip) (y : Nat) : ScanOnly c (c.lineResumed y) ∧ (c.lineResumed y).scan.height = c.scan.height := by
  unfold Chip.lineResumed
  split
  · exact ⟨(ScanOnly.setScan _ _).trans (ScanOnly.setScanState _ _), rfl⟩
  · exact ⟨ScanOnly.refl c, rfl⟩

/-- A line that starts shows in both engines. -/
theorem Chip.showLine_spec (x : Chip) (y : Nat) (hc : x.commitPages = []) (hy : y < 65536) :
    let t := (((x.setScan { x.scan with line := y }).setBoth F.SCAN_LINE_LINE y).setBoth F.SCAN_LINE_BLANK
      (b2n (decide (x.scan.height ≤ y)))).applyAt (.scanLine y)
    t.scan.line = y ∧ t.get F.SCAN_LINE_LINE = y ∧ t.get (F.SCAN_LINE_LINE.pg 1) = y ∧ t.on F.SCAN_LINE_BLANK = decide (x.scan.height ≤ y) := by
  have hs : ScanOnly x (((x.setScan { x.scan with line := y }).setBoth F.SCAN_LINE_LINE y).setBoth F.SCAN_LINE_BLANK
      (b2n (decide (x.scan.height ≤ y)))) :=
    ((ScanOnly.setScan x _).trans (ScanOnly.setBoth _ _ _ rfl (by decide))).trans (ScanOnly.setBoth _ _ _ rfl (by decide))
  dsimp only
  rw [Chip.applyAt_none _ _ (hs.calm hc)]
  refine ⟨rfl, ?_, ?_, ?_⟩
  · unfold Chip.setBoth
    simp (disch := decide) only [Chip.get_set_ne, Chip.get_set_field, Chip.get_set]
    exact Nat.mod_eq_of_lt hy
  · unfold Chip.setBoth
    simp (disch := decide) only [Chip.get_set_ne, Chip.get_set_field, Chip.get_set]
    exact Nat.mod_eq_of_lt hy
  · unfold Chip.setBoth
    rw [Chip.on, Chip.get_set_ne _ (F.SCAN_LINE_BLANK.pg 1) F.SCAN_LINE_BLANK _ (by decide), Chip.get_set _ _ _ (by decide) (by decide)]
    cases decide (x.scan.height ≤ y) <;> rfl

theorem Chip.lineStart_spec (c : Chip) (hc : c.commitPages = []) (hr : c.runs 0x070 = true) (hm : c.chaseMode = false) (hbar : c.bar.running = true)
    (hw : c.bar.waiting = false) (ha : c.scan.active = true) (hl : c.scan.line < c.scan.height + 15) (hh : c.scan.height ≤ 8192)
    (h0 : c.heldForLine0 = false) :
    let t := c.lineStart Chip.applyAt
    t.scan.line = c.scan.line + 1 ∧ t.get F.SCAN_LINE_LINE = c.scan.line + 1 ∧ t.get (F.SCAN_LINE_LINE.pg 1) = c.scan.line + 1 ∧
      t.on F.SCAN_LINE_BLANK = decide (c.scan.height ≤ c.scan.line + 1) := by
  have hguard : (!c.runs 0x070 || !c.bar.running || c.bar.waiting || !c.scan.active || decide (c.scan.line + 1 > c.scan.height + 15) ||
      c.heldForLine0) = false := by
    rw [hr, hbar, hw, ha, h0, decide_eq_false (by omega)]
    rfl
  obtain ⟨x, hx, hxh, he⟩ : ∃ x, ScanOnly c x ∧ x.scan.height = c.scan.height ∧ c.lineStart Chip.applyAt =
      (((x.setScan { x.scan with line := c.scan.line + 1 }).setBoth F.SCAN_LINE_LINE (c.scan.line + 1)).setBoth F.SCAN_LINE_BLANK
        (b2n (decide (x.scan.height ≤ c.scan.line + 1)))).applyAt (.scanLine (c.scan.line + 1)) := by
    unfold Chip.lineStart Chip.advanceTo
    dsimp only
    rw [hguard]
    obtain ⟨hs, hsc⟩ := c.atTick (c.ticksTo (c.lineAt (c.scan.line + 1)))
    generalize c.ticks (c.ticksTo (c.lineAt (c.scan.line + 1))) = c1 at hs hsc
    rw [hs.chaseMode, hm]
    simp only [Bool.false_and, Bool.false_eq_true, if_false]
    obtain ⟨h1, h2⟩ := c1.lineResumed_spec (c.scan.line + 1)
    exact ⟨c1.lineResumed (c.scan.line + 1), hs.trans h1, h2.trans (by rw [hsc]), by unfold Chip.lineResumed; rfl⟩
  have h := x.showLine_spec (c.scan.line + 1) (hx.calm hc) (by omega)
  dsimp only
  rw [he, ← hxh]
  exact h

/-- Line 0 of the first due beat, the counter not running: the block at its instant, and what follows there. -/
theorem Chip.canvasLine0_eq (c : Chip) (d : BeatDue) (l : List BeatDue) (hc : c.commitPages = []) (hr : c.runs 0x070 = true) (hm : c.chaseMode = false)
    (hbar : c.bar.running = true) (hw : c.bar.waiting = false) (ha : c.scan.active = false) (hd : c.scan.dues = d :: l) :
    ∃ c1 e : Chip, (c1.scan = c.scan ∧ c1.build = c.build) ∧ ScanOnly c e ∧ (∃ a, e.scan = c.scan.begun d a) ∧ e.get F.SCAN_LINE_LINE = 0 ∧
      c.canvasLine0 Chip.applyAt =
        if !c.fixedCanvas && (c.canvasFor d).any (fun x => !c.canvasDone x) then c1.scanLate (d.litBar, d.litBeat)
        else (if c.fixedCanvas then e.passBeat d else e).takeCanvas d := by
  have hguard : (!c.runs 0x070 || !c.bar.running || c.bar.waiting || (c.scan.active && decide (c.scan.line < c.scan.height))) = false := by
    rw [hr, hbar, hw, ha]
    rfl
  unfold Chip.canvasLine0 Chip.advanceTo
  rw [hd]
  dsimp only
  rw [hguard]
  generalize max d.s12 (if c.scan.active then c.lineAt (c.scan.height + 1) else 0) = t0
  obtain ⟨hs, hsc⟩ := c.atTick (c.ticksTo t0)
  generalize c.ticks (c.ticksTo t0) = c1 at hs hsc
  generalize (if c1.scan.lateFor = some (d.litBar, d.litBeat) then max t0 (c1.bar12 c1.now12) else t0) = at12
  obtain ⟨h1, h2, h3⟩ := c1.enterLine0_spec d at12 (hs.calm hc) (by rw [hsc]; exact ha)
  generalize c1.enterLine0 Chip.applyAt d at12 = e at h1 h2 h3
  have he := hs.trans h1
  have hready : (fun x => e.notReady0 x) = fun x => !c.canvasDone x := by
    funext x
    rw [Chip.notReady0, he.chaseMode, hm, he.canvasDone]
    rfl
  have hact : (!e.scan.active) = false := by rw [h2]; rfl
  refine ⟨c1, e, ⟨hsc, hs.build⟩, he, ⟨at12, by rw [h2, hsc]⟩, h3, ?_⟩
  rw [hact, he.fixedCanvas, he.canvasFor, hready]
  simp only [Bool.false_eq_true, if_false]

/-- Settles O29: lines from `lineStart_spec`, line 0 from the cases of `canvasLine0_eq`. -/
theorem scanOutLines : Obligations.ScanOutLines := by
  intro s hr hb hc hruns hm hbar hw
  refine ⟨fun ha hl hh h0 => ?_, fun d l ha hd hhost => ?_, fun d l x ha hd hfix hcan => ⟨fun hdone => ?_, fun hdone => ?_⟩⟩
  · exact Completes.live (fun c => c.lineStart Chip.applyAt) rfl hr (s.chip.lineStart_spec hc.1 hruns hm hbar hw ha hl hh h0)
  all_goals
    refine Completes.live (fun c => (c.canvasLine0 Chip.applyAt).lightNow) rfl hr ?_
    obtain ⟨c1, e, ⟨hsc, hsb⟩, hs, ⟨a, hscan⟩, hline, he⟩ := s.chip.canvasLine0_eq d l hc.1 hruns hm hbar hw ha hd
    rw [he]
  · have hfix : s.chip.fixedCanvas = true := by
      unfold Chip.fixedCanvas
      rw [hhost]
      rfl
    have hp := PassOnly.passBeat e d
    have hpfix : (e.passBeat d).fixedCanvas = true := by
      have h : (e.passBeat d).fixedCanvas = e.fixedCanvas := by
        unfold Chip.fixedCanvas Chip.hostFrames Chip.sramCanvas Chip.use Chip.rdUse
        rw [hp.inUse, hp.build]
      rw [h, hs.fixedCanvas, hfix]
    have hheld : (e.passBeat d).tableHeld = s.chip.tableHeld := by
      rw [← hs.tableHeld]
      unfold Chip.tableHeld Chip.barCount Chip.get
      rw [hp.upd, hp.count]
    obtain ⟨t1, t2, t3, t4, t5, -, t7⟩ := (e.passBeat d).takeCanvas_spec d (Or.inl hpfix)
    simp only [hfix, Bool.not_true, Bool.false_and, Bool.false_eq_true, if_false, if_true, Chip.lightNow_scan]
    rw [Chip.lightNow_get _ _ (by decide) (by decide), t1, t2, t3, t4, t5, t7, hp.scan, hscan, hheld]
    refine ⟨by rw [ScanSt.begun, hd]; rfl, rfl, rfl, ?_, rfl, rfl⟩
    rw [Chip.get, hp.line]
    exact hline
  · have hany : (s.chip.canvasFor d).any (fun x => !s.chip.canvasDone x) = false := by rw [hcan]; simp [hdone]
    obtain ⟨t1, t2, t3, -, -, t6, -⟩ := e.takeCanvas_spec d (Or.inr (by rw [hs.canvasFor, hcan]; rfl))
    simp only [hfix, hany, Bool.and_false, Bool.false_eq_true, if_false, Chip.lightNow_scan]
    rw [t1, t2, t3, t6, hscan, hs.fixedCanvas, hs.canvasFor, hfix, hcan]
    exact ⟨by rw [ScanSt.begun, hd]; rfl, rfl, rfl, rfl⟩
  · have hany : (s.chip.canvasFor d).any (fun x => !s.chip.canvasDone x) = true := by rw [hcan]; simp [hdone]
    obtain ⟨h1, h2, h3, h4⟩ := c1.scanLate_spec (d.litBar, d.litBeat) (hsb.trans hb)
    simp only [hfix, hany, Bool.not_false, Bool.and_self, if_true, Chip.lightNow_scan, Chip.lightNow_pend]
    rw [hsc] at h1 h4
    refine ⟨h1.trans hd, h2, ?_, h4⟩
    exact (Chip.lightNow_get _ _ (by decide) (by decide)).trans h3

end Sys2Proof.Machine
end

