-- ==== Sys2Proof/Proofs/DramFrames.lean ====
section
-- One proof at a time: proofs that wait for the kernel side by side hold more memory than the check allows.
set_option Elab.async false
/-! PROOF. Pending events that stay pending, what a DRAM access of an engine leaves alone, and the waits of a flow (R48, R124, R128 to R131). -/

namespace Sys2Proof.Machine

/-! ### Pending events that stay pending -/

/-- Every event that was pending still is. -/
def PendUp (c d : Chip) : Prop := ∀ e, c.pend e = true → d.pend e = true

theorem PendUp.refl (c : Chip) : PendUp c c := fun _ h => h

theorem PendUp.trans {c d e : Chip} (h : PendUp c d) (k : PendUp d e) : PendUp c e := fun x hx => k x (h x hx)

theorem PendUp.raise (c : Chip) (e : Ev) : PendUp c (c.raise e) := fun f h => c.pend_raise e f h

theorem PendUp.cond (c : Chip) (e : Ev) (b : Bool) : PendUp c (c.cond e b) := fun f h => c.pend_cond e f b h

theorem PendUp.set (c : Chip) (f : Fld) (v : Nat) (h : f.addr % 4096 ≠ 0x18) : PendUp c (c.set f v) := fun e he => (c.set_pend f v e h).trans he

theorem PendUp.setPg (c : Chip) (f : Fld) (n v : Nat) (h : f.addr % 4096 ≠ 0x18) : PendUp c (c.set (f.pg n) v) := by
  refine PendUp.set c _ v ?_
  show (f.addr + 4096 * n) % 4096 ≠ 0x18
  omega

theorem PendUp.ite {c d e : Chip} {p : Prop} [Decidable p] (h : PendUp c d) (k : PendUp c e) : PendUp c (if p then d else e) := by
  split
  · exact h
  · exact k

theorem Chip.pend_congr {c d : Chip} (e : Ev) (h : d.rd (e.page * 4096 + 0x18) = c.rd (e.page * 4096 + 0x18)) : d.pend e = c.pend e := by
  unfold Chip.pend
  rw [h]

/-- A report writes no EVT_PEND word. -/
theorem Chip.report_pend (c : Chip) (pg : Nat) (l : List ErrRec) (e : Ev) : (c.report pg l).pend e = c.pend e := by
  refine foldl_rel (fun c d => d.pend e = c.pend e) (fun _ => rfl) (fun h k => k.trans h) id _ _ (fun d r _ => ?_) c
  have hw : ∀ (x : Chip) (off : Nat) (w : Word), off < 0x38 → off ≠ 0x18 → (x.wr (pg * 4096 + off) w).pend e = x.pend e := by
    intro x off w h1 h2
    exact Chip.pend_congr e (by rw [Chip.rd_wr, if_neg (by omega)])
  have hite : ∀ (p : Prop) [Decidable p] (x y : Chip), x.pend e = d.pend e → y.pend e = d.pend e → (if p then x else y).pend e = d.pend e := by
    intro p _ x y hx hy
    split
    · exact hx
    · exact hy
  have hset : ∀ (x : Chip) (f : Fld) (v : Nat), f.addr % 4096 ≠ 0x18 → (x.set (f.pg pg) v).pend e = x.pend e := by
    intro x f v h
    refine x.set_pend _ v e ?_
    show (f.addr + 4096 * pg) % 4096 ≠ 0x18
    omega
  have h2 : ∀ x : Chip, ∀ w0 w1 : Word, ((x.wr (pg * 4096 + 0x28) w0).wr (pg * 4096 + 0x2C) w1).pend e = x.pend e := fun x w0 w1 =>
    (hw _ _ _ (by decide) (by decide)).trans (hw _ _ _ (by decide) (by decide))
  have h0 : ∀ x : Chip, ∀ w0 w1 : Word, ((x.wr (pg * 4096 + 0x20) w0).wr (pg * 4096 + 0x24) w1).pend e = x.pend e := fun x w0 w1 =>
    (hw _ _ _ (by decide) (by decide)).trans (hw _ _ _ (by decide) (by decide))
  dsimp only [id]
  unfold Chip.reportOne
  dsimp only
  have hb : ∀ x : Chip, x.pend e = d.pend e → ∀ f : Fld, (f = F.ERR_UNCORR.pg pg ∨ f = F.ERR_CORR.pg pg) →
      (if x.get f = 2 ^ (f.hi + 1 - f.lo) - 1 then x.set (F.ERR_OVERFLOW.pg pg) 1 else x.bump f).pend e = d.pend e := by
    intro x hx f hf
    refine hite _ _ _ ((hset x F.ERR_OVERFLOW 1 (by decide)).trans hx) (Eq.trans ?_ hx)
    rcases hf with rfl | rfl
    · exact hset x F.ERR_UNCORR _ (by decide)
    · exact hset x F.ERR_CORR _ (by decide)
  refine hb _ (hite _ _ _ ((h2 _ _ _).trans ?_) ?_) _ ?_
  · exact hite _ _ _ rfl (h0 _ _ _)
  · exact hite _ _ _ rfl (h0 _ _ _)
  · split
    · exact Or.inl rfl
    · exact Or.inr rfl

theorem PendUp.report (c : Chip) (pg : Nat) (l : List ErrRec) : PendUp c (c.report pg l) := fun e h => (c.report_pend pg l e).trans h

/-! ### What a DRAM access of an engine leaves alone -/

/-- Nothing differs but the memories, the blocks that the mirror has to copy, the open values drawn, and what is reported. -/
structure DramOnly (c d : Chip) : Prop where
  still : d.still = { c.still with mem := d.mem, mirror := d.mirror, free := d.free }
  ctrls : d.ctrls = c.ctrls
  rd : ∀ a, quietReg a = true → d.rd a = c.rd a
  pend : PendUp c d

theorem DramOnly.refl (c : Chip) : DramOnly c c := ⟨rfl, rfl, fun _ _ => rfl, PendUp.refl c⟩

theorem DramOnly.trans {c d e : Chip} (h : DramOnly c d) (k : DramOnly d e) : DramOnly c e :=
  ⟨by rw [k.still, h.still], k.ctrls.trans h.ctrls, fun a ha => (k.rd a ha).trans (h.rd a ha), h.pend.trans k.pend⟩

theorem DramOnly.ite {c d e : Chip} {p : Prop} [Decidable p] (h : DramOnly c d) (k : DramOnly c e) : DramOnly c (if p then d else e) := by
  split
  · exact h
  · exact k

theorem DramOnly.setMem (c : Chip) (m : MemSt) : DramOnly c { c with mem := m } := ⟨rfl, rfl, fun _ _ => rfl, fun _ h => h⟩

theorem Quiet.dramOnly {c d : Chip} (h : Quiet c d) (hp : PendUp c d) : DramOnly c d := by
  refine ⟨?_, h.2.1, h.2.2, hp⟩
  rw [h.1, h.mem, h.mirror, h.free]
  rfl

theorem DramOnly.reported (c : Chip) (pg : Nat) (l : List ErrRec) (e : Ev) : DramOnly c ((c.report pg l).raise e) :=
  ((c.quiet_report pg l).trans (Chip.quiet_raise _ e)).dramOnly ((PendUp.report c pg l).trans (PendUp.raise _ e))

theorem DramOnly.foldl {α : Type} (f : Chip → α → Chip) (l : List α) (h : ∀ c x, DramOnly c (f c x)) (c : Chip) : DramOnly c (l.foldl f c) :=
  foldl_rel DramOnly DramOnly.refl DramOnly.trans id f l (fun c x _ => h c x) c

theorem DramOnly.dramTouch (c : Chip) (m : Nat) (h : PageHint) (a n : Nat) : DramOnly c (c.dramTouch m h a n) :=
  DramOnly.foldl _ _ (fun d _ => DramOnly.setMem d _) c

theorem DramOnly.dramRange (c : Chip) (m a n : Nat) : DramOnly c (c.dramRange m a n) :=
  DramOnly.ite (DramOnly.refl c) (DramOnly.reported c _ _ _)

theorem DramOnly.dramUe (c : Chip) (p u k s a : Nat) : DramOnly c (c.dramUe p u k s a) :=
  DramOnly.ite (DramOnly.refl c) ((DramOnly.setMem c _).trans (DramOnly.reported _ _ _ _))

theorem DramOnly.dramCe (c : Chip) (p u s a : Nat) : DramOnly c (c.dramCe p u s a) := (DramOnly.setMem c _).trans (DramOnly.reported _ _ _ _)

theorem DramOnly.dramReadWord (c : Chip) (m a : Nat) : DramOnly c (c.dramReadWord m a).2 := by
  unfold Chip.dramReadWord
  dsimp only
  split
  · exact DramOnly.refl c
  · split
    · exact DramOnly.refl c
    · split
      · exact DramOnly.dramUe c _ _ _ _ _
      · split
        · exact DramOnly.refl c
        · exact DramOnly.dramCe c _ _ _ _
        · exact DramOnly.refl c
        · exact DramOnly.dramUe c _ _ _ _ _

theorem DramOnly.pair {α : Type} {c d : Chip} (x : α) (h : DramOnly c d) : DramOnly c (x, d).2 := h

theorem DramOnly.dramRead (c : Chip) (m a n : Nat) : DramOnly c (c.dramRead m a n).2 := by
  unfold Chip.dramRead
  dsimp only
  have hr := (DramOnly.dramTouch c m (dramHint m false) a n).trans (DramOnly.dramRange (c.dramTouch m (dramHint m false) a n) m a n)
  generalize (c.dramTouch m (dramHint m false) a n).dramRange m a n = d at hr ⊢
  generalize (wordLanes a (List.replicate n (some 0))).map (·.1) = ws
  refine hr.trans (foldl_rel DramOnly DramOnly.refl DramOnly.trans Prod.snd _ ws (fun r w _ => ?_) (([], false), d))
  exact DramOnly.pair _ (DramOnly.dramReadWord r.2 m (16 * w))

theorem DramOnly.set_armed (c : Chip) (pg : Nat) : DramOnly c (c.set (F.FLIP_ARM.pg pg) 0) := by
  have ha : (F.FLIP_ARM.pg pg).addr = 0x34 + 4096 * pg := rfl
  refine ⟨rfl, c.ctrls_set _ _ (by omega), fun a hq => Chip.rd_set_ne _ _ _ _ ?_, PendUp.set _ _ _ (by omega)⟩
  rintro rfl
  rw [ha] at hq
  simp only [quietReg, Bool.and_eq_true, Bool.or_eq_true, decide_eq_true_eq] at hq
  omega

theorem DramOnly.dramStore (c : Chip) (a : Nat) (w : Word128) (syn : Nat) : DramOnly c (c.dramStore a w syn) := by
  unfold Chip.dramStore Chip.dramPuts
  dsimp only
  have hput : ∀ (x : Chip) (l : List Nat) (v : Word128) (s : Nat), DramOnly x (l.foldl (fun c k => c.dramPut k v s) x) := fun x l v s =>
    DramOnly.foldl _ _ (fun d _ => DramOnly.setMem d _) x
  split
  · exact (DramOnly.set_armed c _).trans (hput _ _ _ _)
  · exact hput _ _ _ _

theorem DramOnly.dramWriteWord (c : Chip) (m a : Nat) (l : List (Option Byte)) : DramOnly c (c.dramWriteWord m a l) := by
  unfold Chip.dramWriteWord
  dsimp only
  split
  · exact DramOnly.refl c
  · split
    · exact DramOnly.refl c
    · split
      · exact DramOnly.refl c
      · split
        · exact DramOnly.dramStore c _ _ _
        · exact (DramOnly.dramReadWord c m a).trans (DramOnly.dramStore _ _ _ _)

theorem DramOnly.markBlocks (c : Chip) (a n : Nat) : DramOnly c (c.markBlocks a n) := by
  unfold Chip.markBlocks
  split
  · exact DramOnly.refl c
  · refine DramOnly.foldl _ _ (fun d i => ?_) c
    dsimp only
    split
    · exact ⟨rfl, rfl, fun _ _ => rfl, fun _ h => h⟩
    · exact DramOnly.refl d

theorem DramOnly.dramWriteNow (c : Chip) (m : Nat) (h : PageHint) (a : Nat) (l : List (Option Byte)) : DramOnly c (c.dramWriteNow m h a l) := by
  rw [Chip.dramWriteNow_eq]
  exact ((DramOnly.markBlocks c a _).trans (DramOnly.dramTouch _ m h a _)).trans ((DramOnly.dramRange _ m a _).trans
    (DramOnly.foldl _ _ (fun d x => DramOnly.dramWriteWord d m _ _) _))

/-- A write of DRAM by an engine. -/
theorem DramOnly.dramWrite (c : Chip) (m a : Nat) (l : List Byte) : DramOnly c (c.dramWrite m a l) :=
  DramOnly.ite (DramOnly.setMem c _) (DramOnly.dramWriteNow c _ _ _ _)

theorem DramOnly.dramFetch (c : Chip) (m a n : Nat) : DramOnly c (c.dramFetch m a n).2 := DramOnly.dramRead c m a n

section
variable {c d : Chip} (h : DramOnly c d)
include h

theorem DramOnly.get (f : Fld) (hq : quietReg f.addr = true) : d.get f = c.get f := by rw [Chip.get, h.rd _ hq, Chip.get]

/-- A part of the block that is neither memory nor mirror. -/
theorem DramOnly.part {α : Type} (f : Chip → α) (hf : ∀ (x : Chip) m r n, f { x.still with mem := m, mirror := r, free := n } = f x) : f d = f c := by
  have h1 := hf d d.mem d.mirror d.free
  have h2 : d.still = { d.still with mem := d.mem, mirror := d.mirror, free := d.free } := rfl
  rw [← h1, ← h2, h.still, hf c]

theorem DramOnly.build : d.build = c.build := h.part Chip.build (fun _ _ _ _ => rfl)

theorem DramOnly.flows : d.flows = c.flows := h.part Chip.flows (fun _ _ _ _ => rfl)

theorem DramOnly.inUse : d.inUse = c.inUse := h.part Chip.inUse (fun _ _ _ _ => rfl)

theorem DramOnly.dp : d.dp = c.dp := h.part Chip.dp (fun _ _ _ _ => rfl)

theorem DramOnly.tile : d.tile = c.tile := h.part Chip.tile (fun _ _ _ _ => rfl)

theorem DramOnly.scan : d.scan = c.scan := h.part Chip.scan (fun _ _ _ _ => rfl)

theorem DramOnly.drive : d.drive = c.drive := h.part Chip.drive (fun _ _ _ _ => rfl)

theorem DramOnly.map : d.map = c.map := h.part Chip.map (fun _ _ _ _ => rfl)

end

/-! ### What the layers of mapping leave alone of the sources -/

/-- Nothing of the flows differs: their registers, their state and the stores. -/
structure FlowsKept (c d : Chip) : Prop where
  rd : ∀ a, 0x032 ≤ a / 4096 → a / 4096 ≤ 0x042 → quietReg a = true → d.rd a = c.rd a
  flows : d.flows = c.flows
  mem : d.mem = c.mem
  pend : PendUp c d

theorem FlowsKept.refl (c : Chip) : FlowsKept c c := ⟨fun _ _ _ _ => rfl, rfl, rfl, PendUp.refl c⟩

theorem FlowsKept.trans {c d e : Chip} (h : FlowsKept c d) (k : FlowsKept d e) : FlowsKept c e :=
  ⟨fun a h1 h2 h3 => (k.rd a h1 h2 h3).trans (h.rd a h1 h2 h3), k.flows.trans h.flows, k.mem.trans h.mem, h.pend.trans k.pend⟩

theorem FlowsKept.setMap (c : Chip) (m : MapSt) : FlowsKept c (c.setMap m) := ⟨fun _ _ _ _ => rfl, rfl, rfl, fun _ h => h⟩

theorem FlowsKept.set (c : Chip) (f : Fld) (v : Nat) (hp : f.addr / 4096 < 0x032 ∨ 0x042 < f.addr / 4096) (h18 : f.addr % 4096 ≠ 0x18) :
    FlowsKept c (c.set f v) := by
  refine ⟨fun a h1 h2 _ => Chip.rd_set_ne _ _ _ _ ?_, rfl, rfl, PendUp.set c f v h18⟩
  rintro rfl
  omega

theorem FlowsKept.setPg (c : Chip) (f : Fld) (n v : Nat) (hp : 0x042 < f.addr / 4096) (h18 : f.addr % 4096 ≠ 0x18) :
    FlowsKept c (c.set (f.pg n) v) := by
  have ha : (f.pg n).addr = f.addr + 4096 * n := rfl
  exact FlowsKept.set c _ v (Or.inr (by omega)) (by omega)

theorem FlowsKept.raise (c : Chip) (e : Ev) : FlowsKept c (c.raise e) :=
  ⟨fun a _ _ hq => (c.quiet_raise e).2.2 a hq, (c.quiet_raise e).flows, (c.quiet_raise e).mem, PendUp.raise c e⟩

theorem FlowsKept.cond (c : Chip) (e : Ev) (b : Bool) : FlowsKept c (c.cond e b) :=
  ⟨fun a _ _ hq => (c.quiet_cond e b).2.2 a hq, (c.quiet_cond e b).flows, (c.quiet_cond e b).mem, PendUp.cond c e b⟩

theorem FlowsKept.foldl {α : Type} (f : Chip → α → Chip) (l : List α) (h : ∀ c x, FlowsKept c (f c x)) (c : Chip) : FlowsKept c (l.foldl f c) :=
  foldl_rel FlowsKept FlowsKept.refl FlowsKept.trans id f l (fun c x _ => h c x) c

theorem FlowsKept.get {c d : Chip} (h : FlowsKept c d) (f : Fld) (h1 : 0x032 ≤ f.addr / 4096) (h2 : f.addr / 4096 ≤ 0x042)
    (hq : quietReg f.addr = true) : d.get f = c.get f := by rw [Chip.get, h.rd _ h1 h2 hq, Chip.get]

theorem FlowsKept.flow {c d : Chip} (h : FlowsKept c d) (n : Nat) : d.flow n = c.flow n := by unfold Chip.flow; rw [h.flows]

/-- LAYER.STATUS follows the layers, and no flow changes. -/
theorem FlowsKept.refreshLayers (c : Chip) : FlowsKept c c.refreshLayers := by
  unfold Chip.refreshLayers
  split
  · exact FlowsKept.refl c
  · refine FlowsKept.foldl _ _ (fun d l => ?_) c
    dsimp only
    exact ((FlowsKept.setPg d F.LAYER_STATUS_STATE l _ (by decide) (by decide)).trans
      (FlowsKept.setPg _ F.LAYER_STATUS_HOLD_LEFT l _ (by decide) (by decide))).trans (FlowsKept.cond _ _ _)

theorem FlowsKept.takeTask (c : Chip) (e : Nat) : FlowsKept c (c.takeTask e) := by
  have hmix : ∀ x : CanvasSt, FlowsKept c (c.noteMixed x) := by
    intro x
    unfold Chip.noteMixed
    dsimp only
    split
    · split
      · exact ⟨fun _ _ _ _ => rfl, rfl, rfl, fun _ h => h⟩
      · exact FlowsKept.refl c
    · exact FlowsKept.refl c
  unfold Chip.takeTask
  split
  · exact FlowsKept.refl c
  · split
    · exact FlowsKept.refl c
    · split
      · exact FlowsKept.refl c
      · dsimp only
        refine FlowsKept.trans ?_ (((FlowsKept.setMap _ _).trans (FlowsKept.setMap _ _)).trans (FlowsKept.setPg _ _ _ _ (by decide) (by decide)))
        split
        · exact hmix _
        · exact FlowsKept.refl c

theorem FlowsKept.showWaits (c : Chip) : FlowsKept c c.showWaits :=
  (FlowsKept.set c _ _ (Or.inr (by decide)) (by decide)).trans (FlowsKept.set _ _ _ (Or.inr (by decide)) (by decide))

theorem FlowsKept.assignTasks (c : Chip) : FlowsKept c c.assignTasks := FlowsKept.foldl _ _ FlowsKept.takeTask c

theorem FlowsKept.chaseReady (c : Chip) : FlowsKept c c.chaseReady := by
  have h : ∀ m : MapSt, FlowsKept c ((c.setMap m).showWaits.assignTasks) := fun m =>
    ((FlowsKept.setMap c m).trans (FlowsKept.showWaits (c.setMap m))).trans (FlowsKept.assignTasks (c.setMap m).showWaits)
  exact h _

theorem FlowsKept.rebind (c : Chip) (s : Nat) (w : Bool) (p : LayerBind → Bool) : FlowsKept c (c.rebind s w p) := by
  unfold Chip.rebind
  dsimp only
  split
  · exact FlowsKept.setMap c _
  · refine (FlowsKept.setMap c _).trans (FlowsKept.foldl _ _ (fun d l => ?_) _)
    split
    · exact FlowsKept.setPg _ _ _ _ (by decide) (by decide)
    · exact FlowsKept.refl d

/-- A withdrawn watermark changes bands, and no flow. -/
theorem FlowsKept.chaseWithdraw (c : Chip) (s : Nat) : FlowsKept c (c.chaseWithdraw s) := by
  obtain ⟨w, e⟩ : ∃ w : Bool, c.chaseWithdraw s = (if w then (c.rebind s true (fun b => !c.frameDone b)).raise E.CHASE_RELEASE
      else c.rebind s true (fun b => !c.frameDone b)).chaseReady := ⟨_, rfl⟩
  have h := FlowsKept.rebind c s true (fun b => !c.frameDone b)
  have hw : FlowsKept c (if w then (c.rebind s true (fun b => !c.frameDone b)).raise E.CHASE_RELEASE
      else c.rebind s true (fun b => !c.frameDone b)) := by
    split
    · exact h.trans (FlowsKept.raise _ _)
    · exact h
  rw [e]
  exact hw.trans (FlowsKept.chaseReady _)

/-! ### The waits of a flow (R124, R128 to R131) -/

theorem merge_hasPage {c : Chip} (h : c.build = .S) : c.hasPage 0x042 = true := by unfold Chip.hasPage; rw [h]; decide +kernel

theorem Chip.flow_setFlow (c : Chip) (n : Nat) (f : FlowSt) : (c.setFlow n f).flow n = f := by simp [Chip.setFlow, Chip.flow]

/-- The frame of a flow is dropped. -/
theorem Chip.dropFrame_spec (c : Chip) (n : Nat) (rtp : Option Nat) :
    ((c.dropFrame n rtp).flow n).writing = false ∧ ((c.dropFrame n rtp).flow n).pixels = [] ∧ (c.dropFrame n rtp).watermark n = 0 ∧
      (c.dropFrame n rtp).mem = c.mem := by
  have hf : (c.dropFrame n rtp).flow n = { c.flow n with rtp := rtp, writing := false, pixels := [], marker := false, concealed := false, gapWait := none } :=
    Chip.flow_setFlow c n _
  rw [hf]
  exact ⟨rfl, rfl, Chip.get_set _ _ _ (show 0 ≤ 15 by decide) (show 15 < 32 by decide), rfl⟩

theorem PendUp.flowEvent (c : Chip) (n : Nat) (e : Ev) : PendUp c (c.flowEvent n e) := by
  refine PendUp.trans ?_ (PendUp.raise _ e)
  intro f hf
  rw [Chip.pend, Chip.rd_wr, if_neg (by show f.page * 4096 + 0x18 ≠ 0x04204C; omega)]
  exact hf

theorem PendUp.setFlow (c : Chip) (n : Nat) (f : FlowSt) : PendUp c (c.setFlow n f) := fun _ h => h

theorem PendUp.dropFrame (c : Chip) (n : Nat) (rtp : Option Nat) : PendUp c (c.dropFrame n rtp) := PendUp.setPg (c.setFlow n _) _ n _ (by decide)

theorem PendUp.setFlowState (c : Chip) (n st : Nat) : PendUp c (c.setFlowState n st) :=
  (PendUp.setPg c _ _ _ (by decide)).trans (PendUp.set _ _ _ (show F.MERGE_FLOW_STATE_STATE.addr % 4096 ≠ 0x18 by decide))

theorem PendUp.frameComplete (c : Chip) (n : Nat) : PendUp c (c.frameComplete n) := by
  have hb : ∀ (d : Chip) (f : Fld) (k : Nat), f.addr % 4096 ≠ 0x18 → PendUp d (d.bump (f.pg n) k) := fun d f k h => PendUp.setPg d f n _ h
  unfold Chip.frameComplete
  dsimp only
  refine PendUp.trans (?_ : PendUp c _) (PendUp.ite ((PendUp.setFlowState _ _ _).trans (PendUp.flowEvent _ _ _)) (PendUp.refl _))
  refine PendUp.trans ?_ ((PendUp.dropFrame _ _ _).trans (PendUp.setFlow _ _ _))
  refine PendUp.trans ?_ (PendUp.setPg _ _ _ _ (by decide))
  refine PendUp.trans ?_ (PendUp.ite (hb _ _ _ (by decide)) (PendUp.refl _))
  refine PendUp.trans ?_ (hb _ _ _ (by decide))
  exact ((PendUp.setPg c _ _ _ (by decide)).trans (PendUp.setPg _ _ _ _ (by decide))).trans
    ((PendUp.setPg _ _ _ _ (by decide)).trans (PendUp.setPg _ _ _ _ (by decide)))

theorem PendUp.publish (c : Chip) (n : Nat) : PendUp c (c.publish n) := by
  unfold Chip.publish
  dsimp only
  have h := fun w => PendUp.setPg c F.FLOW_WATERMARK_LINES n w (by decide)
  exact PendUp.ite ((h _).trans (PendUp.frameComplete _ _))
    (PendUp.ite (PendUp.ite (h _) ((h _).trans (PendUp.setFlow _ _ _))) ((h _).trans (PendUp.setFlow _ _ _)))

theorem DramOnly.storeWrite (c : Chip) (n ofs : Nat) (l : List Byte) : DramOnly c (c.storeWrite n ofs l) := by
  unfold Chip.storeWrite Chip.storeBytes
  dsimp only
  split
  · exact DramOnly.dramWrite c _ _ _
  · refine DramOnly.trans ?_ (DramOnly.dramWrite _ _ _ _)
    exact ⟨rfl, rfl, fun _ _ => rfl, fun _ h => h⟩

theorem Chip.concealLine_pend (c : Chip) (n line : Nat) (hb : c.build = .S) : (c.concealLine n line).pend E.FLOW_CONCEAL = true := by
  unfold Chip.concealLine Chip.flowEvent
  dsimp only
  refine Chip.raise_pend _ _ (merge_hasPage ?_) (by decide)
  exact ((DramOnly.dramFetch c _ _ _).trans (DramOnly.storeWrite _ _ _ _)).build.trans hb

theorem flow_quiet : ∀ n < 16, quietReg (F.STATE.pg (flowPage n)).addr = true ∧ quietReg (F.FLOW_WATERMARK_LINES.pg n).addr = true := by
  decide +kernel

/-- STATE of a flow just set, and its watermark, which is another register. -/
theorem Chip.setFlowState_spec (c : Chip) (n st : Nat) (hs : st < 16) :
    (c.setFlowState n st).state (flowPage n) = st ∧ (c.setFlowState n st).watermark n = c.watermark n ∨ 16 ≤ n := by
  by_cases hn : 16 ≤ n
  · exact Or.inr hn
  · have hst : (F.STATE.pg (flowPage n)).addr = 8 + 4096 * (0x032 + n) := rfl
    have hw : (F.FLOW_WATERMARK_LINES.pg n).addr = 0x032068 + 4096 * n := rfl
    have hm : F.MERGE_FLOW_STATE_STATE.addr = 0x042044 := rfl
    refine Or.inl ⟨?_, ?_⟩
    · rw [Chip.state, Chip.setFlowState, Chip.get_set_ne _ _ _ _ (by show _ ≠ F.MERGE_FLOW_STATE_STATE.addr; omega),
        Chip.get_set _ _ _ (by show 4 ≤ 7; decide) (by show 7 < 32; decide)]
      exact Nat.mod_eq_of_lt hs
    · rw [Chip.watermark, Chip.setFlowState, Chip.get_set_ne _ _ _ _ (by show _ ≠ F.MERGE_FLOW_STATE_STATE.addr; omega),
        Chip.get_set_ne _ _ _ _ (by omega), Chip.watermark]

theorem Chip.flowEvent_spec (c : Chip) (n : Nat) (e : Ev) (f : Fld) (hf : eventReg f.addr = false) (hm : f.addr ≠ F.MERGE_EVT_FLOWS_FLOWS.addr) :
    (c.flowEvent n e).get f = c.get f := by
  rw [Chip.flowEvent, Chip.raise_get_of _ _ _ hf, Chip.get, Chip.rd_wr, if_neg hm, Chip.get]

/-- A running flow stops: its state, its watermark, its event, and the bar from which its HOLD counts. -/
theorem Chip.flowStop_spec (c : Chip) (n : Nat) (hb : c.build = .S) (hn : n < 16) (hs : c.state (flowPage n) = fsRun) :
    (c.flowStop n).state (flowPage n) = fsStop ∧ (c.flowStop n).watermark n = 0 ∧ (c.flowStop n).pend E.FLOW_STOP = true ∧
      ((c.flowStop n).flow n).stopBar = c.barCount := by
  set x := (c.dropFrame n none).setFlow n { (c.dropFrame n none).flow n with stopBar := (c.dropFrame n none).barCount, holdOver := false } with hx
  have he : c.flowStop n = (x.setFlowState n fsStop).flowEvent n E.FLOW_STOP := by
    unfold Chip.flowStop
    rw [if_neg (fun h => h hs)]
  have hev : ∀ n < 16, eventReg (F.STATE.pg (flowPage n)).addr = false ∧ eventReg (F.FLOW_WATERMARK_LINES.pg n).addr = false ∧
      (F.STATE.pg (flowPage n)).addr ≠ F.MERGE_EVT_FLOWS_FLOWS.addr ∧ (F.FLOW_WATERMARK_LINES.pg n).addr ≠ F.MERGE_EVT_FLOWS_FLOWS.addr := by
    decide +kernel
  obtain ⟨e1, e2, e3, e4⟩ := hev n hn
  obtain ⟨h1, h2⟩ := (x.setFlowState_spec n fsStop (by decide)).resolve_right (by omega)
  rw [he]
  refine ⟨?_, ?_, ?_, ?_⟩
  · rw [Chip.state, Chip.flowEvent_spec _ _ _ _ e1 e3]
    exact h1
  · rw [Chip.watermark, Chip.flowEvent_spec _ _ _ _ e2 e4]
    exact h2.trans (c.dropFrame_spec n none).2.2.1
  · exact Chip.raise_pend _ _ (merge_hasPage hb) (by decide)
  · have hf : ((x.setFlowState n fsStop).flowEvent n E.FLOW_STOP).flow n = x.flow n := by
      unfold Chip.flow
      rw [Chip.flowEvent, (Chip.quiet_raise _ _).flows]
      rfl
    rw [hf, hx, Chip.flow_setFlow]
    have hw : (F.FLOW_WATERMARK_LINES.pg n).addr = 0x032068 + 4096 * n := rfl
    exact Chip.get_set_ne _ _ F.BAR_COUNT_COUNT _ (by rw [hw]; show 0x022054 ≠ _; omega)

/-- A silent path of a merged flow is marked. -/
theorem Chip.pathLoss_spec (c : Chip) (n path : Nat) (hn : n < 16) (hp : path < 2) (hm : c.merged n = true)
    (hs : c.state (flowPage n) = fsRun ∨ c.state (flowPage n) = fsSync) :
    ((c.pathLoss n path).rd F.MERGE_PATH_LOSS_A_SILENT.addr).getLsbD (16 * path + n) = true ∧ (c.pathLoss n path).raw E.PATH_LOSS = true := by
  set f : Fld := ⟨F.MERGE_PATH_LOSS_A_SILENT.addr, 16 * path + n, 16 * path + n⟩ with hf
  set x := (c.set f 1).wr F.MERGE_EVT_FLOWS_FLOWS.addr ((c.set f 1).rd F.MERGE_EVT_FLOWS_FLOWS.addr ||| ((1 : Word) <<< n)) with hx
  have hg : (!c.merged n || !(decide (c.state (flowPage n) = fsSync) || decide (c.state (flowPage n) = fsRun))) = false := by
    rcases hs with h | h <;> simp [hm, h]
  have he : c.pathLoss n path = x.cond E.PATH_LOSS true := by
    unfold Chip.pathLoss
    dsimp only
    rw [hg]
    interval_cases path
    · simp [hx, hf]
    · simp [hx, hf]
  rw [he]
  refine ⟨?_, Chip.cond_raw_self _ _ _ (by decide)⟩
  rw [Chip.cond_rd_of _ _ _ _ (by decide) (by decide), hx, Chip.rd_wr, if_neg (by decide), Chip.rd_set, if_pos (by rfl)]
  exact insBits_bit_one _ (16 * path + n) (by omega)

/-- Settles O26: each wait as its operation, through which the layers of mapping leave the flows alone. -/
theorem flowWaits : Obligations.FlowWaits := by
  intro s n hr hb hn
  have hflow : ∀ f : Chip → Chip, s.chip.onFlow n f = f s.chip := by
    intro f
    simp [Chip.onFlow, Chip.inS, Chip.when, hb, hn]
  obtain ⟨q1, q2⟩ := flow_quiet n hn
  have hpg : (F.STATE.pg (flowPage n)).addr / 4096 = 0x032 + n := by show (8 + 4096 * (0x032 + n)) / 4096 = _; omega
  have hpw : (F.FLOW_WATERMARK_LINES.pg n).addr / 4096 = 0x032 + n := by show (0x032068 + 4096 * n) / 4096 = _; omega
  refine ⟨fun g hg => ⟨fun hs => ?_, fun hs hl => ?_⟩, fun hs => ?_, fun path hp hm hs => ?_, fun hh => ?_⟩
  · refine Completes.live (fun c => c.onFlow n (fun c => c.gapExpire n)) rfl hr ?_
    have he : s.chip.gapExpire n = s.chip.dropFrame n (s.chip.flow n).rtp := by
      unfold Chip.gapExpire
      simp only [hg, hs, if_true]
    simp only [hflow, he]
    exact s.chip.dropFrame_spec n _
  · refine Completes.live (fun c => c.onFlow n (fun c => c.gapExpire n)) rfl hr ?_
    have he : s.chip.gapExpire n = (s.chip.concealLine n g.1).publish n := by
      unfold Chip.gapExpire
      dsimp only
      rw [hg]
      dsimp only
      rw [if_neg (by rw [hs]; decide), if_pos (by simp [hs, hl])]
    simp only [hflow, he]
    exact PendUp.publish _ n _ (s.chip.concealLine_pend n g.1 hb)
  · refine Completes.live (fun c => c.onFlow n (fun c => c.when (decide (c.state (flowPage n) = fsRun)) (fun c =>
      ((c.flowStop n).chaseWithdraw n).refreshLayers))) rfl hr ?_
    have hk := (FlowsKept.chaseWithdraw (s.chip.flowStop n) n).trans (FlowsKept.refreshLayers _)
    obtain ⟨h1, h2, h3, h4⟩ := s.chip.flowStop_spec n hb hn hs
    simp only [hflow, Chip.when, hs, decide_true, if_true]
    refine ⟨?_, ?_, hk.pend _ h3, ?_⟩
    · rw [Chip.state, hk.get _ (by omega) (by omega) q1]
      exact h1
    · rw [Chip.watermark, hk.get _ (by omega) (by omega) q2]
      exact h2
    · rw [hk.flow]
      exact h4
  · refine Completes.live (fun c => c.onFlow n (fun c => c.when (decide (path < 2)) (fun c => c.pathLoss n path))) rfl hr ?_
    simp only [hflow, Chip.when, hp, decide_true, if_true]
    exact s.chip.pathLoss_spec n path hn hp hm hs
  · refine Completes.live (fun c => c.onFlow n (fun c => (c.holdExpire n).refreshLayers)) rfl hr ?_
    simp only [hflow]
    rw [(FlowsKept.refreshLayers _).flow, Chip.holdExpire]
    dsimp only
    rw [hh, Bool.true_and]
    split
    · next h =>
      rw [Chip.flow_setFlow, h, Bool.or_true]
    · next h =>
      rw [Bool.eq_false_iff.mpr h, Bool.or_false]

end Sys2Proof.Machine
end

