-- ==== Sys2Proof/Proofs/TileBeats.lean ====
section
-- One proof at a time: proofs that wait for the kernel side by side hold more memory than the check allows.
set_option Elab.async false
/-! PROOF. The beats of a tile: the next beat of the schedule, a bar without a downbeat and the flywheel (R105, R242, R243). -/

namespace Sys2Proof.Machine

/-! ### A tile's schedule through its upkeep -/

theorem barT_hasPage (c : Chip) : c.hasPage 0x022 = true := by unfold Chip.hasPage; cases c.build <;> decide +kernel

/-- The schedule stands at the same beat, and BAR.STATUS, the commits and the launch queue are as they were. -/
structure BeatKept (c d : Chip) : Prop where
  at_ : (d.tile.sched.bar, d.tile.sched.beat, d.tile.sched.mode, d.tile.sched.index) =
    (c.tile.sched.bar, c.tile.sched.beat, c.tile.sched.mode, c.tile.sched.index)
  status : d.rd F.BAR_STATUS_BEAT.addr = c.rd F.BAR_STATUS_BEAT.addr
  ctrls : d.ctrls = c.ctrls
  launchQ : d.launchQ = c.launchQ

theorem BeatKept.refl (c : Chip) : BeatKept c c := ⟨rfl, rfl, rfl, rfl⟩

theorem BeatKept.trans {c d e : Chip} (h : BeatKept c d) (k : BeatKept d e) : BeatKept c e :=
  ⟨k.at_.trans h.at_, k.status.trans h.status, k.ctrls.trans h.ctrls, k.launchQ.trans h.launchQ⟩

theorem BeatKept.ite {c d e : Chip} {p : Prop} [Decidable p] (h : BeatKept c d) (k : BeatKept c e) : BeatKept c (if p then d else e) := by
  split
  · exact h
  · exact k

theorem Quiet.beatKept {c d : Chip} (h : Quiet c d) : BeatKept c d := ⟨by rw [h.tile], h.2.2 _ (by decide), h.2.1, h.launchQ⟩

theorem BeatKept.set (c : Chip) (f : Fld) (v : Nat) (h : f.addr ≠ F.BAR_STATUS_BEAT.addr) (h4 : f.addr % 4096 ≠ 4) : BeatKept c (c.set f v) :=
  ⟨rfl, Chip.rd_set_ne _ _ _ _ h.symm, c.ctrls_set f v h4, rfl⟩

theorem BeatKept.raise (c : Chip) (e : Ev) : BeatKept c (c.raise e) := (c.quiet_raise e).beatKept

theorem BeatKept.setDrive (c : Chip) (s : DriveSt) : BeatKept c (c.setDrive s) := ⟨rfl, rfl, rfl, rfl⟩

theorem BeatKept.setUpd (c : Chip) (s : UpdateSt) : BeatKept c (c.setUpd s) := ⟨rfl, rfl, rfl, rfl⟩

theorem BeatKept.setTile (c : Chip) (t : TileSt) (h : t.sched = c.tile.sched) : BeatKept c (c.setTile t) := ⟨by rw [← h]; rfl, rfl, rfl, rfl⟩

theorem BeatKept.setImage (c : Chip) (x : ImgSt) : BeatKept c (c.setImage x) := BeatKept.setTile c _ rfl

theorem BeatKept.tileShow (c : Chip) : BeatKept c c.tileShow := by
  unfold Chip.tileShow
  dsimp only
  refine BeatKept.trans ?_ (BeatKept.set _ _ _ (by decide) (by decide))
  refine BeatKept.trans ?_ (BeatKept.set _ _ _ (by decide) (by decide))
  refine BeatKept.trans ?_ (BeatKept.set _ _ _ (by decide) (by decide))
  refine BeatKept.trans ?_ (BeatKept.set _ _ _ (by decide) (by decide))
  exact BeatKept.setTile c _ rfl

theorem BeatKept.judgeImage (c : Chip) (x : ImgSt) : BeatKept c (c.judgeImage x) := by
  unfold Chip.judgeImage
  split
  · exact BeatKept.refl c
  · split
    · exact BeatKept.refl c
    · dsimp only
      have h1 : ∀ (p : Prop) [Decidable p] (v : Nat), BeatKept c (if p then (c.setImage { x with judged := true }).set F.TILERX_MARGIN_MIN_US v
          else c.setImage { x with judged := true }) := fun p _ v =>
        BeatKept.ite ((BeatKept.setImage c _).trans (BeatKept.set _ _ _ (by decide) (by decide))) (BeatKept.setImage c _)
      exact BeatKept.ite ((h1 _ _).trans ((BeatKept.set _ F.TILERX_LATE_COUNT_COUNT _ (by decide) (by decide)).trans (BeatKept.raise _ _))) (h1 _ _)

theorem BeatKept.holdAtBar (c : Chip) : BeatKept c c.holdAtBar := by
  have h0 : BeatKept c (if c.upd.holdDue && c.belfry.down.isNone then c.tableHold else c) := BeatKept.ite (BeatKept.setUpd c _) (BeatKept.refl c)
  unfold Chip.holdAtBar
  dsimp only
  generalize (if (c.upd.holdDue && c.belfry.down.isNone) = true then c.tableHold else c) = d at h0
  refine h0.trans ?_
  split
  · exact BeatKept.refl d
  · exact BeatKept.ite (BeatKept.raise d _) (BeatKept.ite (BeatKept.setUpd d _) (BeatKept.refl d))

theorem BeatKept.layOut (c : Chip) : BeatKept c c.layOut := by
  unfold Chip.layOut
  dsimp only
  have h : ∀ (s : SchedSt) (a b w : Nat), (s.bar, s.beat, s.mode, s.index) =
        (c.tile.sched.bar, c.tile.sched.beat, c.tile.sched.mode, c.tile.sched.index) →
      BeatKept c ((((c.setSched s).set F.DRIVECTL_PLAN_P a).set F.DRIVECTL_PLAN_SLOT b).set F.DRIVECTL_PLAN_W w) := by
    intro s a b w hs
    have h0 : BeatKept c (c.setSched s) := ⟨hs, rfl, rfl, rfl⟩
    exact ((h0.trans (BeatKept.set _ _ _ (by decide) (by decide))).trans (BeatKept.set _ _ _ (by decide) (by decide))).trans
      (BeatKept.set _ _ _ (by decide) (by decide))
  refine BeatKept.ite ((h _ _ _ _ ?_).trans (BeatKept.raise _ _)) (h _ _ _ _ ?_)
  · rfl
  · rfl

theorem BeatKept.foldl {α : Type} (f : Chip → α → Chip) (l : List α) (h : ∀ c x, BeatKept c (f c x)) (c : Chip) : BeatKept c (l.foldl f c) :=
  foldl_rel BeatKept BeatKept.refl BeatKept.trans id f l (fun c x _ => h c x) c

theorem BeatKept.beatShow (c : Chip) : BeatKept c c.beatShow := by
  unfold Chip.beatShow
  dsimp only
  refine BeatKept.trans ?_ (BeatKept.tileShow _)
  refine BeatKept.trans ?_ (BeatKept.set _ _ _ (by decide) (by decide))
  refine BeatKept.trans ?_ (BeatKept.set _ _ _ (by decide) (by decide))
  refine BeatKept.trans ?_ (BeatKept.set _ _ _ (by decide) (by decide))
  refine BeatKept.trans ?_ (BeatKept.set _ _ _ (by decide) (by decide))
  refine BeatKept.trans ?_ (BeatKept.foldl _ _ (fun d x => (BeatKept.setImage d _).trans (BeatKept.judgeImage _ _)) _)
  refine BeatKept.trans ?_ (BeatKept.layOut _)
  exact (BeatKept.setTile c _ rfl).trans ⟨rfl, rfl, rfl, rfl⟩

theorem BeatKept.setTileState (c : Chip) (n : Nat) : BeatKept c (c.setTileState n) :=
  (BeatKept.set c _ _ (by decide) (by decide)).trans (Chip.quiet_cond _ _ _).beatKept

theorem BeatKept.setOffset (c : Chip) (o : Int) : BeatKept c (c.setOffset o) := by
  unfold Chip.setOffset
  dsimp only
  have h : ∀ v b, BeatKept c (((c.setSched { c.tile.sched with offset33 := o }).set F.TILERX_OFFSET_STEPS v).cond E.SCHED_SLEW b) := by
    intro v b
    have h0 : BeatKept c (c.setSched { c.tile.sched with offset33 := o }) := ⟨rfl, rfl, rfl, rfl⟩
    exact (h0.trans (BeatKept.set _ _ _ (by decide) (by decide))).trans (Chip.quiet_cond _ _ _).beatKept
  exact BeatKept.ite ((h _ _).trans (BeatKept.setTileState _ _)) (BeatKept.ite ((h _ _).trans (BeatKept.setTileState _ _)) (h _ _))

theorem BeatKept.driveBeat (c : Chip) (was : SchedSt) : BeatKept c (c.driveBeat was) := by
  have hshow : ∀ d : Chip, BeatKept d d.diagShow := fun d =>
    (BeatKept.set d (F.FAULT.pg pgDrive) _ (by decide) (by decide)).trans (Chip.quiet_cond _ _ _).beatKept
  have hst : ∀ d : Chip, BeatKept d d.diagStale := by
    intro d
    unfold Chip.diagStale Chip.diagFollow
    dsimp only
    exact BeatKept.ite (BeatKept.refl d) (BeatKept.ite (BeatKept.setDrive d _) ((BeatKept.setDrive d _).trans (hshow _)))
  unfold Chip.driveBeat
  dsimp only
  exact BeatKept.ite ((BeatKept.setDrive c _).trans (hst _)) (BeatKept.refl c)

theorem BeatKept.fadeModeChange (c : Chip) : BeatKept c c.fadeModeChange := by
  unfold Chip.fadeModeChange
  split
  · exact BeatKept.refl c
  · exact BeatKept.ite (BeatKept.refl c) (BeatKept.setDrive c _)

/-- The schedule at the start of its next beat, before what BAR.STATUS shows and its offset. -/
def Chip.beatSched (c : Chip) : SchedSt :=
  let n := c.beatNext
  let s := c.tile.sched
  { s with
    bar := n.bar
    beat := n.beat
    mode := n.mode
    base33 := n.base33
    known := true
    time12 := match n.cell with
      | some d => some (12 * d.timeNs)
      | none => s.time12.map (fun t => (t + beatPeriod12 s.mode) % (12 * 2 ^ 32))
    index := 0
    start33 := ((n.base33 : Int) + n.offset33).toNat
    now33 := max s.now33 ((n.base33 : Int) + n.offset33).toNat
    waited33 := 0
    row := 0
    waiting := false
    reentry := if n.entered then none else s.reentry
    barNext := if n.beat = 0 then none else if n.entered then n.cell.map (fun d => (d.bar + 1) % 2 ^ 32) else s.barNext
    flyBars := if n.entered then 0 else if decide (c.tileState = tsFlywheel) && n.beat = 0 then s.flyBars + 1 else s.flyBars
    flyHold := if n.entered then false else s.flyHold
    rejoin := s.rejoin && !n.entered
    heard := if n.beat = 0 then n.cell.isSome else s.heard
    missed := if n.beat = 0 then false else s.missed }

theorem Chip.beatSched_at (c : Chip) : (c.beatSched.bar, c.beatSched.beat, c.beatSched.mode, c.beatSched.index) = (c.beatNext.bar, c.beatNext.beat, c.beatNext.mode, 0) := by
  unfold Chip.beatSched
  rfl

/-- What is left of the starts and feed maps that a tile holds, once its schedule is at a beat. -/
def Chip.trimmed (c : Chip) (n : BeatNext) : Chip :=
  c.setTile { c.tile with
    starts := c.tile.starts.filter (fun d => !(d.start33 < n.base33) || (d.bar = n.bar && d.beat = n.beat)), fmaps := c.tile.fmaps.filter (fun p => p.1 ≠ (n.bar + 2 ^ 32 - 2) % 2 ^ 32) }

theorem BeatKept.trimmed (c : Chip) (n : BeatNext) : BeatKept c (c.trimmed n) := by
  unfold Chip.trimmed
  exact BeatKept.setTile c _ rfl

/-- What the tile shows of the cell that its new beat comes from. -/
def Chip.cellShown (c : Chip) (n : BeatNext) : Chip :=
  match n.cell with
  | some d => ((c.set F.BAR_STATUS_DIR_B d.dir).set F.BAR_LAST_START_TIME (if n.beat = 0 then d.timeNs else c.get F.BAR_LAST_START_TIME))
  | none => c

theorem Chip.cellShown_spec (c : Chip) (n : BeatNext) :
    (c.cellShown n).tile = c.tile ∧ (c.cellShown n).ctrls = c.ctrls ∧ (c.cellShown n).launchQ = c.launchQ := by
  unfold Chip.cellShown
  split
  · exact ⟨rfl, (Chip.ctrls_set _ _ _ (by decide)).trans (Chip.ctrls_set _ _ _ (by decide)), rfl⟩
  · exact ⟨rfl, rfl, rfl⟩

/-- The block at its next beat, before its state and its offset follow. -/
def Chip.beatMoved (c : Chip) : Chip :=
  (((c.setSched c.beatSched).cellShown c.beatNext).trimmed c.beatNext).set F.BAR_STATUS_BEAT c.beatNext.beat

theorem Chip.beatEnter_eq (c : Chip) :
    c.beatEnter = if c.beatNext.entered then
        ((if c.beatMoved.tileState = tsOff then c.beatMoved else c.beatMoved.setTileState tsLocked).setOffset 0).raise E.FLY_JUMP
      else c.beatMoved.setOffset c.beatNext.offset33 := by
  cases h : c.beatNext.cell <;> simp only [Chip.beatEnter, Chip.beatMoved, Chip.trimmed, Chip.cellShown, Chip.beatSched, h]

theorem Chip.beatMoved_spec (c : Chip) :
    (c.beatMoved.tile.sched.bar, c.beatMoved.tile.sched.beat, c.beatMoved.tile.sched.mode, c.beatMoved.tile.sched.index) =
      (c.beatNext.bar, c.beatNext.beat, c.beatNext.mode, 0) ∧
    c.beatMoved.get F.BAR_STATUS_BEAT = c.beatNext.beat % 4 ∧ c.beatMoved.ctrls = c.ctrls ∧ c.beatMoved.launchQ = c.launchQ := by
  obtain ⟨htile, hctrls, hlaunch⟩ := (c.setSched c.beatSched).cellShown_spec c.beatNext
  have ht := BeatKept.trimmed ((c.setSched c.beatSched).cellShown c.beatNext) c.beatNext
  refine ⟨?_, Chip.get_set _ F.BAR_STATUS_BEAT _ (by decide) (by decide), ?_, ht.launchQ.trans hlaunch⟩
  · refine ht.at_.trans ?_
    rw [htile]
    exact c.beatSched_at
  · exact (Chip.ctrls_set _ _ _ (by decide)).trans (ht.ctrls.trans hctrls)

/-- The beat that the schedule enters. -/
theorem Chip.beatEnter_kept (c : Chip) : BeatKept c.beatMoved c.beatEnter := by
  rw [c.beatEnter_eq]
  refine BeatKept.ite (BeatKept.trans ?_ (BeatKept.raise _ _)) (BeatKept.setOffset _ _)
  exact (BeatKept.ite (BeatKept.refl _) (BeatKept.setTileState _ _)).trans (BeatKept.setOffset _ _)

/-- A launch of an empty queue leaves the block as it is. -/
theorem Chip.launchTest_empty (c : Chip) (t : Nat) (h : c.launchQ = []) : (c.launchTest t).2 = c := by
  unfold Chip.launchTest launchOrder
  simp only [h, List.filter_nil, List.mergeSort_nil, List.foldl_nil]
  rw [← h]

/-- A ready tile goes to its next beat: after the entry of the beat only the beat's own work follows, where no page has a commit. -/
theorem Chip.tileBeat_kept (c : Chip) (hr : c.beatReady = true) (hc : c.commitPages = []) (hq : c.launchQ = []) : BeatKept c.beatMoved c.tileBeat := by
  have hk := c.beatEnter_kept
  obtain ⟨-, -, hctrls, hlaunch⟩ := c.beatMoved_spec
  have h0 : c.beatEnter.commitPages = [] := (Chip.commitPages_congr (hk.ctrls.trans hctrls)).trans hc
  have hq0 : c.beatEnter.launchQ = [] := hk.launchQ.trans (hlaunch.trans hq)
  unfold Chip.tileBeat
  generalize c.beatEnter = x at hk h0 hq0
  generalize c.beatMoved = m at hk
  dsimp only
  have hb : BeatKept m (if x.tile.sched.beat = 0 then x.holdAtBar else x) :=
    BeatKept.ite (hk.trans (BeatKept.holdAtBar _)) hk
  cases x.tile.sched.time12 <;>
    simp only [hr, Chip.launchTest_empty _ _ hq0, Chip.applyAt_none _ _ h0, Bool.not_true, Bool.false_eq_true, if_false]
  all_goals
    generalize (if x.tile.sched.beat = 0 then x.holdAtBar else x) = y at hb
    have hd : BeatKept m (y.driveBeat c.tile.sched).beatShow := (hb.trans (BeatKept.driveBeat _ c.tile.sched)).trans (BeatKept.beatShow _)
    exact BeatKept.ite (hd.trans (BeatKept.fadeModeChange _)) hd

/-! ### A bar without a valid downbeat -/

/-- A step that keeps where the schedule stands, its lock and state as shown, and every pending event; what it obeys, and its images, may change. -/
structure FlyKept (c d : Chip) : Prop where
  at_ : (d.tile.sched.missed, d.tile.sched.good, d.tile.sched.offset33, d.tile.sched.base33) =
    (c.tile.sched.missed, c.tile.sched.good, c.tile.sched.offset33, c.tile.sched.base33)
  lock : d.rd F.BAR_STATUS_LOCK.addr = c.rd F.BAR_STATUS_LOCK.addr
  state : d.rd (F.STATE.pg pgTilerx).addr = c.rd (F.STATE.pg pgTilerx).addr
  raw : d.raw E.FLYWHEEL = c.raw E.FLYWHEEL
  pend : PendUp c d

theorem FlyKept.refl (c : Chip) : FlyKept c c := ⟨rfl, rfl, rfl, rfl, PendUp.refl c⟩

theorem FlyKept.trans {c d e : Chip} (h : FlyKept c d) (k : FlyKept d e) : FlyKept c e :=
  ⟨k.at_.trans h.at_, k.lock.trans h.lock, k.state.trans h.state, k.raw.trans h.raw, h.pend.trans k.pend⟩

theorem FlyKept.ite {c d e : Chip} {p : Prop} [Decidable p] (h : FlyKept c d) (k : FlyKept c e) : FlyKept c (if p then d else e) := by
  split
  · exact h
  · exact k

theorem FlyKept.set (c : Chip) (f : Fld) (v : Nat) (h1 : f.addr ≠ F.BAR_STATUS_LOCK.addr) (h2 : f.addr ≠ (F.STATE.pg pgTilerx).addr)
    (h3 : f.addr ≠ E.FLYWHEEL.page * 4096 + 0x10) (h4 : f.addr % 4096 ≠ 0x18) : FlyKept c (c.set f v) := by
  refine ⟨rfl, Chip.rd_set_ne _ _ _ _ h1.symm, Chip.rd_set_ne _ _ _ _ h2.symm, ?_, PendUp.set c f v h4⟩
  rw [Chip.raw, Chip.rd_set_ne _ _ _ _ h3.symm, Chip.raw]

theorem FlyKept.raise (c : Chip) (e : Ev) : FlyKept c (c.raise e) :=
  ⟨by rw [(c.quiet_raise e).tile], Chip.raise_rd_of c e _ (by decide), Chip.raise_rd_of c e _ (by decide), Chip.raise_raw c e _, PendUp.raise c e⟩

theorem FlyKept.cond (c : Chip) (e : Ev) (b : Bool) (hb : e.bit < 32) (h : E.FLYWHEEL.page ≠ e.page ∨ E.FLYWHEEL.bit ≠ e.bit) :
    FlyKept c (c.cond e b) :=
  ⟨by rw [(c.quiet_cond e b).tile], Chip.cond_rd_of c e b _ (by decide) (by decide), Chip.cond_rd_of c e b _ (by decide) (by decide),
    Chip.cond_raw_ne c e _ b hb h, PendUp.cond c e b⟩

theorem FlyKept.setTile (c : Chip) (t : TileSt) (h : (t.sched.missed, t.sched.good, t.sched.offset33, t.sched.base33) =
    (c.tile.sched.missed, c.tile.sched.good, c.tile.sched.offset33, c.tile.sched.base33)) : FlyKept c (c.setTile t) :=
  ⟨h, rfl, rfl, rfl, PendUp.refl c⟩

theorem FlyKept.closeBuild (c : Chip) (serial : Nat) (displaced : Bool) : FlyKept c (c.closeBuild serial displaced) := by
  unfold Chip.closeBuild
  split
  · exact FlyKept.refl c
  · next x hx =>
    have h : FlyKept c (c.setImage { x with phase := 1 }) := FlyKept.setTile c _ rfl
    refine FlyKept.ite (FlyKept.refl c) (FlyKept.ite ?_ h)
    exact (h.trans (FlyKept.set _ F.TILERX_INCOMPLETE_COUNT _ (by decide) (by decide) (by decide) (by decide))).trans (FlyKept.raise _ _)

theorem FlyKept.tileShow (c : Chip) : FlyKept c c.tileShow := by
  have hs : ∀ (d : Chip) (a b e f : Nat),
      FlyKept d ((((d.set F.TILERX_STATUS_BUF_USED a).set F.TILERX_STATUS_OPEN b).set F.CORRECT_STATUS_OLD_BUSY e).set F.DOSE_STATUS_OLD_BUSY f) :=
    fun d a b e f =>
      (((FlyKept.set d F.TILERX_STATUS_BUF_USED a (by decide) (by decide) (by decide) (by decide)).trans
        (FlyKept.set _ F.TILERX_STATUS_OPEN b (by decide) (by decide) (by decide) (by decide))).trans
        (FlyKept.set _ F.CORRECT_STATUS_OLD_BUSY e (by decide) (by decide) (by decide) (by decide))).trans
        (FlyKept.set _ F.DOSE_STATUS_OLD_BUSY f (by decide) (by decide) (by decide) (by decide))
  unfold Chip.tileShow
  exact (FlyKept.setTile c { c.tile with images := c.tile.images.filter c.imageUsed } rfl).trans (hs _ _ _ _ _)

theorem FlyKept.closeAll (c : Chip) : FlyKept c c.closeAll := by
  unfold Chip.closeAll
  refine FlyKept.trans ?_ (FlyKept.tileShow _)
  exact foldl_rel FlyKept FlyKept.refl FlyKept.trans id (fun (c : Chip) (x : ImgSt) => c.closeBuild x.serial true) _ (fun d x _ => FlyKept.closeBuild d _ _) c

theorem FlyKept.obeyShow (c : Chip) : FlyKept c c.obeyShow := by
  unfold Chip.obeyShow
  extract_lets o was now dual old c1 t1 c2
  have h1 : FlyKept c c1 :=
    (FlyKept.set c F.REDUN_TILE_OBEY now (by decide) (by decide) (by decide) (by decide)).trans
      (FlyKept.cond _ E.NO_ACTIVE _ (by decide) (by decide))
  have h2 : FlyKept c1 c2 := (FlyKept.setTile c1 { t1 with lastRing := now } rfl).trans
    (FlyKept.set _ F.REDUN_TILE_SWITCHES_COUNT _ (by decide) (by decide) (by decide) (by decide))
  refine FlyKept.ite h1 (FlyKept.ite ?_ (h1.trans h2))
  refine FlyKept.trans ?_ (FlyKept.raise _ _)
  refine (h1.trans (h2.trans (FlyKept.closeAll c2))).trans (FlyKept.setTile _ _ ?_)
  rfl

/-- The port that the tile is numbered by is open again. -/
def Chip.unnumbered (c : Chip) : Chip := ([0, 1, 2, 3] : List Nat).foldl (fun c p => c.setPort p { c.port p with numbered := false }) c

theorem Chip.unnumbered_spec (c : Chip) : c.unnumbered.tile = c.tile ∧ ∀ a, c.unnumbered.rd a = c.rd a := ⟨rfl, fun _ => rfl⟩

/-- A tile that has lost its downbeats, before its flywheel. -/
def Chip.dbLost (c : Chip) : Chip := (c.setSched { c.tile.sched with missed := true }).unnumbered.dbBad.raise E.DB_MISSING

/-- A schedule without good downbeats has no lock, and stands where it stood. -/
theorem Chip.dbBad_spec (c : Chip) :
    c.dbBad.tile.sched = { c.tile.sched with good := 0 } ∧ c.dbBad.on F.BAR_STATUS_LOCK = false ∧ c.dbBad.tileState = c.tileState := by
  unfold Chip.dbBad Chip.setBarLock
  have hr : ∀ a, (c.setSched { c.tile.sched with good := 0 }).rd a = c.rd a := fun _ => rfl
  have h1 : (c.setSched { c.tile.sched with good := 0 }).tile.sched = { c.tile.sched with good := 0 } := rfl
  generalize c.setSched { c.tile.sched with good := 0 } = x at hr h1
  refine ⟨?_, ?_, ?_⟩
  · rw [(Chip.quiet_cond _ _ _).tile]
    exact h1
  · rw [Chip.on, Chip.get, Chip.cond_rd_of _ _ _ _ (by decide) (by decide), ← Chip.get, Chip.get_set x F.BAR_STATUS_LOCK _ (by decide) (by decide)]
    rfl
  · rw [Chip.tileState, Chip.state, Chip.get, Chip.cond_rd_of _ _ _ _ (by decide) (by decide), Chip.rd_set_ne _ _ _ _ (by decide), hr]
    rfl

theorem Chip.dbLost_spec (c : Chip) :
    c.dbLost.tile.sched = { c.tile.sched with missed := true, good := 0 } ∧ c.dbLost.pend E.DB_MISSING = true ∧
      c.dbLost.on F.BAR_STATUS_LOCK = false ∧ c.dbLost.tileState = c.tileState := by
  unfold Chip.dbLost
  obtain ⟨htile, hr⟩ := (c.setSched { c.tile.sched with missed := true }).unnumbered_spec
  generalize (c.setSched { c.tile.sched with missed := true }).unnumbered = x at htile hr
  obtain ⟨hsched, hlock, hstate⟩ := x.dbBad_spec
  have hk := FlyKept.raise x.dbBad E.DB_MISSING
  refine ⟨?_, Chip.raise_pend _ _ (barT_hasPage _) (by decide), ?_, ?_⟩
  · rw [(Chip.quiet_raise _ _).tile, hsched, htile]
    rfl
  · rw [Chip.on, Chip.get, hk.lock]
    exact hlock
  · rw [Chip.tileState, Chip.state, Chip.get, hk.state]
    refine hstate.trans ?_
    rw [Chip.tileState, Chip.state, Chip.get, hr]
    rfl

/-- A schedule without offset, of a tile on its flywheel, shows no slew. -/
theorem Chip.setOffset_fly (c : Chip) (h : c.tileState = tsFlywheel) :
    (c.setOffset 0).tile.sched = { c.tile.sched with offset33 := 0 } ∧ (c.setOffset 0).rd F.BAR_STATUS_LOCK.addr = c.rd F.BAR_STATUS_LOCK.addr ∧
      (c.setOffset 0).tileState = tsFlywheel ∧ (c.setOffset 0).raw E.FLYWHEEL = c.raw E.FLYWHEEL ∧ PendUp c (c.setOffset 0) := by
  unfold Chip.setOffset
  have hr : ∀ a, (c.setSched { c.tile.sched with offset33 := 0 }).rd a = c.rd a := fun _ => rfl
  have h1 : (c.setSched { c.tile.sched with offset33 := 0 }).tile.sched = { c.tile.sched with offset33 := 0 } := rfl
  have h2 : PendUp c (c.setSched { c.tile.sched with offset33 := 0 }) := fun _ he => he
  generalize c.setSched { c.tile.sched with offset33 := 0 } = x at hr h1 h2
  dsimp only
  generalize unsign 32 (Int.tdiv 0 step33) = v
  have hk : FlyKept x ((x.set F.TILERX_OFFSET_STEPS v).cond E.SCHED_SLEW (decide ((0 : Int) ≠ 0))) :=
    (FlyKept.set x F.TILERX_OFFSET_STEPS v (by decide) (by decide) (by decide) (by decide)).trans
      (FlyKept.cond _ E.SCHED_SLEW _ (by decide) (by decide))
  have ht : ((x.set F.TILERX_OFFSET_STEPS v).cond E.SCHED_SLEW (decide ((0 : Int) ≠ 0))).tile.sched = { c.tile.sched with offset33 := 0 } := by
    rw [(Chip.quiet_cond _ _ _).tile]
    exact h1
  generalize (x.set F.TILERX_OFFSET_STEPS v).cond E.SCHED_SLEW (decide ((0 : Int) ≠ 0)) = y at hk ht
  have hst : y.tileState = tsFlywheel := by
    rw [Chip.tileState, Chip.state, Chip.get, hk.state, hr]
    exact h
  have hraw : x.raw E.FLYWHEEL = c.raw E.FLYWHEEL := by rw [Chip.raw, hr, Chip.raw]
  simp only [hst, show decide (tsFlywheel = tsLocked) = false from rfl, show decide (tsFlywheel = tsSlew) = false from rfl, Bool.false_and,
    Bool.false_eq_true, if_false]
  exact ⟨ht, hk.lock.trans (hr _), trivial, hk.raw.trans hraw, h2.trans hk.pend⟩

/-- A tile that enters its flywheel. -/
theorem Chip.setTileState_fly (c : Chip) :
    (c.setTileState tsFlywheel).tile = c.tile ∧ (c.setTileState tsFlywheel).rd F.BAR_STATUS_LOCK.addr = c.rd F.BAR_STATUS_LOCK.addr ∧
      (c.setTileState tsFlywheel).tileState = tsFlywheel ∧ (c.setTileState tsFlywheel).raw E.FLYWHEEL = true ∧
      PendUp c (c.setTileState tsFlywheel) := by
  unfold Chip.setTileState
  refine ⟨(Chip.quiet_cond _ _ _).tile, ?_, ?_, ?_, (PendUp.set c _ _ (by decide)).trans (PendUp.cond _ _ _)⟩
  · rw [Chip.cond_rd_of _ _ _ _ (by decide) (by decide), Chip.rd_set_ne _ _ _ _ (by decide)]
  · rw [Chip.tileState, Chip.state, Chip.get, Chip.cond_rd_of _ _ _ _ (by decide) (by decide), ← Chip.get]
    exact Chip.get_set c (F.STATE.pg pgTilerx) _ (by decide) (by decide)
  · exact Chip.cond_raw_self _ _ _ (by decide)

/-- The flywheel of a tile starts from where its schedule stood, with no offset. -/
def Chip.flyStart (c : Chip) : Chip := ((c.setTileState tsFlywheel).setSched { c.tile.sched with base33 := c.tile.sched.actual33.toNat }).setOffset 0

theorem Chip.flyStart_spec (c : Chip) :
    PendUp c c.flyStart ∧ c.flyStart.on F.BAR_STATUS_LOCK = c.on F.BAR_STATUS_LOCK ∧ c.flyStart.tileState = tsFlywheel ∧
      c.flyStart.raw E.FLYWHEEL = true ∧ c.flyStart.tile.sched = { c.tile.sched with base33 := c.tile.sched.actual33.toNat, offset33 := 0 } := by
  obtain ⟨-, hlock, hstate, hraw, hpend⟩ := c.setTileState_fly
  unfold Chip.flyStart
  generalize c.setTileState tsFlywheel = x at hlock hstate hraw hpend
  obtain ⟨osched, olock, ostate, oraw, opend⟩ :=
    (x.setSched { c.tile.sched with base33 := c.tile.sched.actual33.toNat }).setOffset_fly hstate
  refine ⟨hpend.trans opend, ?_, ostate, oraw.trans hraw, osched⟩
  rw [Chip.on, Chip.get, olock, Chip.on, Chip.get, ← hlock]
  rfl

/-- Where a tile that has lost its downbeats stands: its event, its counts, no lock, and, of one that was locked, its flywheel. -/
theorem Chip.dbMissing_spec (c : Chip) (hb : c.build = .T) (hk : c.tile.sched.known = true) (hh : c.tile.sched.heard = false)
    (hm : c.tile.sched.missed = false) :
    let d := c.dbMissing
    d.pend E.DB_MISSING = true ∧ d.tile.sched.missed = true ∧ d.tile.sched.good = 0 ∧ d.on F.BAR_STATUS_LOCK = false ∧
      (c.tileState = tsLocked ∨ c.tileState = tsSlew → d.tileState = tsFlywheel ∧ d.raw E.FLYWHEEL = true ∧
        d.tile.sched.offset33 = 0 ∧ d.tile.sched.base33 = c.tile.sched.actual33.toNat) := by
  obtain ⟨hsched, hpend, hlock, hstate⟩ := c.dbLost_spec
  obtain ⟨fpend, flock, fstate, fraw, fsched⟩ := c.dbLost.flyStart_spec
  have he : c.dbMissing = if c.dbLost.tileState = tsLocked || c.dbLost.tileState = tsSlew then c.dbLost.flyStart else c.dbLost := by
    unfold Chip.dbMissing
    rw [if_neg (by simp [hb, hk, hh, hm])]
    rfl
  dsimp only
  by_cases hl : c.tileState = tsLocked ∨ c.tileState = tsSlew
  · rw [he, if_pos (by simpa [hstate] using hl), fsched, flock, hsched]
    exact ⟨fpend _ hpend, rfl, rfl, hlock, fun _ => ⟨fstate, fraw, rfl, rfl⟩⟩
  · rw [he, if_neg (by simpa [hstate] using hl), hsched]
    exact ⟨hpend, rfl, rfl, hlock, fun h => absurd h hl⟩

theorem Chip.lightNow_tile (c : Chip) : c.lightNow.tile = c.tile := by
  obtain ⟨n, h | h⟩ := c.lightNow_cases <;> rw [h]
  rfl

/-- Settles O36: a ready tile enters its next beat, a bar without a downbeat is missing once, and FLY_BARS ends on the flywheel. -/
theorem tileBeatsAndFlywheel : Obligations.TileBeatsAndFlywheel := by
  intro s hs hb
  have hin : ∀ f : Chip → Chip, s.chip.inT f = f s.chip := fun f => by rw [Chip.inT, Chip.when, hb]; rfl
  refine ⟨fun hr hcalm hq => ?_, fun hk hh hm => ?_, fun hf h1 h2 => ?_⟩
  · refine Completes.live (fun c => c.inT (fun c => c.tileBeat.lightNow)) rfl hs ?_
    rw [hin]
    have hk := s.chip.tileBeat_kept hr hcalm.1 hq
    obtain ⟨hat, hshown, -, -⟩ := s.chip.beatMoved_spec
    have h := hk.at_.trans hat
    simp only [Prod.mk.injEq] at h
    obtain ⟨hbar, hbeat, hmode, hindex⟩ := h
    rw [Chip.lightNow_get _ _ (by decide) (by decide), Chip.get, hk.status, ← Chip.get, Chip.lightNow_tile]
    exact ⟨hbar, hbeat, hmode, hindex, hshown⟩
  · refine Completes.live (Chip.obeying Chip.dbMissing) rfl hs ?_
    have hk2 := FlyKept.obeyShow s.chip.dbMissing
    obtain ⟨hpend, hmissed, hgood, hlock, hfly⟩ := s.chip.dbMissing_spec hb hk hh hm
    have hob : Chip.obeying Chip.dbMissing s.chip = s.chip.dbMissing.obeyShow := by rw [Chip.obeying, hb]
    rw [hob]
    have h := hk2.at_
    simp only [Prod.mk.injEq] at h
    obtain ⟨h1, h2, h3, h4⟩ := h
    have hst : s.chip.dbMissing.obeyShow.tileState = s.chip.dbMissing.tileState := by
      rw [Chip.tileState, Chip.state, Chip.get, hk2.state]; rfl
    refine ⟨hk2.pend _ hpend, h1.trans hmissed, h2.trans hgood, ?_, fun hl => ?_⟩
    · rw [Chip.on, Chip.get, hk2.lock]; exact hlock
    · obtain ⟨a, b, e, f⟩ := hfly hl
      exact ⟨hst.trans a, hk2.raw.trans b, h3.trans e, h4.trans f⟩
  · refine Completes.live (fun c => c.inT Chip.flyExpire) rfl hs ?_
    dsimp only
    rw [hin]
    simp [Chip.flyExpire, hf, h1, h2]

end Sys2Proof.Machine
end

