-- ==== Sys2Proof/Proofs/OperationFrames.lean ====
section
-- One proof at a time: proofs that wait for the kernel side by side hold more memory than the check allows.
set_option Elab.async false
/-! PROOF. What an operation keeps of the block, and the restarts of the Belfry (R347 to R351, R368, R372). -/

namespace Sys2Proof.Machine

/-! ### What an operation keeps

Most operations touch a few registers and one part of the state. `Keeps ρ A R` names what one leaves alone: the part `ρ` of the block, the registers
`A`, the present states `R`, the page controls and every pending event. -/

/-- A register that is no page control and no EVT_RAW or EVT_PEND. -/
def plainReg (a : Nat) : Bool := decide (a % 4096 ≠ 4) && decide (a % 4096 ≠ 0x10) && decide (a % 4096 ≠ 0x18)

/-- A register that neither an event nor a present state is written to. -/
def calmReg (a : Nat) : Bool := !eventReg a && decide (a % 4096 ≠ 0x10)

theorem plainReg_pg (f : Fld) (n : Nat) : plainReg (f.pg n).addr = plainReg f.addr := by
  have h : (f.pg n).addr % 4096 = f.addr % 4096 := by
    show (f.addr + 4096 * n) % 4096 = _
    omega
  rw [plainReg, h, plainReg]

structure Keeps {α : Type} (ρ : Chip → α) (A : List Nat) (R : List Ev) (c d : Chip) : Prop where
  view : ρ d.still = ρ c.still
  build : d.build = c.build
  rd : ∀ a ∈ A, d.rd a = c.rd a
  raw : ∀ e ∈ R, d.raw e = c.raw e
  ctrls : d.ctrls = c.ctrls
  pend : PendUp c d

namespace Keeps
variable {α : Type} {ρ : Chip → α} {A : List Nat} {R : List Ev} {c d e : Chip}

theorem refl : Keeps ρ A R c c := ⟨rfl, rfl, fun _ _ => rfl, fun _ _ => rfl, rfl, PendUp.refl c⟩

theorem trans (h : Keeps ρ A R c d) (k : Keeps ρ A R d e) : Keeps ρ A R c e :=
  ⟨k.view.trans h.view, k.build.trans h.build, fun a ha => (k.rd a ha).trans (h.rd a ha), fun a ha => (k.raw a ha).trans (h.raw a ha),
    k.ctrls.trans h.ctrls, h.pend.trans k.pend⟩

theorem ite {p : Prop} [Decidable p] (h : Keeps ρ A R c d) (k : Keeps ρ A R c e) : Keeps ρ A R c (if p then d else e) := by
  split
  · exact h
  · exact k

/-- A step that writes no register. -/
theorem of (h : Keeps ρ A R c d) (hv : ρ e.still = ρ d.still) (hr : e.regs = d.regs) (hb : e.build = d.build) : Keeps ρ A R c e := by
  have hrd : ∀ a, e.rd a = d.rd a := fun a => by rw [Chip.rd, Chip.rd, hr, hb]
  refine h.trans ⟨hv, hb, fun a _ => hrd a, fun x _ => ?_, ?_, fun x hx => ?_⟩
  · rw [Chip.raw, hrd, Chip.raw]
  · rw [Chip.ctrls, hr, Chip.ctrls]
  · rw [Chip.pend, hrd]
    exact hx

theorem wr {a : Nat} {w : Word} (h : Keeps ρ A R c d) (hA : a ∉ A := by decide) (hf : plainReg a = true := by decide) :
    Keeps ρ A R c (d.wr a w) := by
  simp only [plainReg, Bool.and_eq_true, decide_eq_true_eq] at hf
  obtain ⟨⟨h4, h10⟩, h18⟩ := hf
  have hrd : ∀ b, b ≠ a → (d.wr a w).rd b = d.rd b := fun b hb => by rw [Chip.rd_wr, if_neg hb]
  refine h.trans ⟨rfl, rfl, fun b hb => hrd b (fun h => hA (h ▸ hb)), fun e he => ?_, d.ctrls_wr a w h4, fun e he => ?_⟩
  · rw [Chip.raw, hrd _ (by omega), Chip.raw]
  · rw [Chip.pend, hrd _ (by omega)]
    exact he

theorem set {f : Fld} {v : Nat} (h : Keeps ρ A R c d) (hA : f.addr ∉ A := by decide) (hf : plainReg f.addr = true := by decide) :
    Keeps ρ A R c (d.set f v) := h.wr hA hf

theorem bump {f : Fld} {n : Nat} (h : Keeps ρ A R c d) (hA : f.addr ∉ A := by decide) (hf : plainReg f.addr = true := by decide) :
    Keeps ρ A R c (d.bump f n) := h.set hA hf

theorem bumpSat {f : Fld} {n : Nat} (h : Keeps ρ A R c d) (hA : f.addr ∉ A := by decide) (hf : plainReg f.addr = true := by decide) :
    Keeps ρ A R c (d.bumpSat f n) := h.set hA hf

theorem raise {x : Ev} (h : Keeps ρ A R c d) (hA : A.all calmReg = true := by decide) : Keeps ρ A R c (d.raise x) := by
  refine h.trans ⟨by rw [(d.quiet_raise x).1], (d.quiet_raise x).build, fun a ha => ?_, fun e _ => d.raise_raw x e, (d.quiet_raise x).2.1, PendUp.raise d x⟩
  have hc := List.all_eq_true.1 hA a ha
  simp only [calmReg, Bool.and_eq_true, Bool.not_eq_true'] at hc
  exact Chip.raise_rd_of d x a hc.1

theorem cond {x : Ev} {b : Bool} (h : Keeps ρ A R c d) (hA : A.all calmReg = true := by decide)
    (hR : R.all (fun e => decide (e.page ≠ x.page) || decide (e.bit ≠ x.bit)) = true := by decide) (hx : x.bit < 32 := by decide) :
    Keeps ρ A R c (d.cond x b) := by
  refine h.trans ⟨by rw [(d.quiet_cond x b).1], (d.quiet_cond x b).build, fun a ha => ?_, fun e he => ?_, (d.quiet_cond x b).2.1, PendUp.cond d x b⟩
  · have hc := List.all_eq_true.1 hA a ha
    simp only [calmReg, Bool.and_eq_true, Bool.not_eq_true', decide_eq_true_eq] at hc
    exact Chip.cond_rd_of d x b a hc.1 hc.2
  · have hc := List.all_eq_true.1 hR e he
    simp only [Bool.or_eq_true, decide_eq_true_eq] at hc
    exact Chip.cond_raw_ne d x e b hx hc

theorem foldl {β : Type} {f : Chip → β → Chip} {l : List β} (h : Keeps ρ A R c d) (hf : ∀ x b, b ∈ l → Keeps ρ A R x (f x b)) :
    Keeps ρ A R c (l.foldl f d) :=
  h.trans (foldl_rel (Keeps ρ A R) (fun _ => refl) trans id f l (fun x b hb => hf x b hb) d)

/-- Less of the block, fewer registers and fewer present states. -/
theorem mono {β : Type} {ρ' : Chip → β} {A' : List Nat} {R' : List Ev} (h : Keeps ρ A R c d) (hv : ρ' d.still = ρ' c.still := by rfl)
    (hA : A' ⊆ A := by decide) (hR : R' ⊆ R := by decide) : Keeps ρ' A' R' c d :=
  ⟨hv, h.build, fun a ha => h.rd a (hA ha), fun e he => h.raw e (hR he), h.ctrls, h.pend⟩

theorem get (h : Keeps ρ A R c d) (f : Fld) (hf : f.addr ∈ A := by decide) : d.get f = c.get f := by rw [Chip.get, h.rd _ hf, Chip.get]

theorem on (h : Keeps ρ A R c d) (f : Fld) (hf : f.addr ∈ A := by decide) : d.on f = c.on f := by rw [Chip.on, h.get f hf, Chip.on]

theorem setTile {s : TileSt} (h : Keeps ρ A R c d) (hv : ρ (d.setTile s).still = ρ d.still := by rfl) : Keeps ρ A R c (d.setTile s) := h.of hv rfl rfl

theorem setSched {s : SchedSt} (h : Keeps ρ A R c d) (hv : ρ (d.setSched s).still = ρ d.still := by rfl) : Keeps ρ A R c (d.setSched s) := h.of hv rfl rfl

theorem setBelfry {s : BelfrySt} (h : Keeps ρ A R c d) (hv : ρ (d.setBelfry s).still = ρ d.still := by rfl) : Keeps ρ A R c (d.setBelfry s) := h.of hv rfl rfl

theorem setUpd {s : UpdateSt} (h : Keeps ρ A R c d) (hv : ρ (d.setUpd s).still = ρ d.still := by rfl) : Keeps ρ A R c (d.setUpd s) := h.of hv rfl rfl

theorem setDrive {s : DriveSt} (h : Keeps ρ A R c d) (hv : ρ (d.setDrive s).still = ρ d.still := by rfl) : Keeps ρ A R c (d.setDrive s) := h.of hv rfl rfl

theorem setRedun {s : RedunSt} (h : Keeps ρ A R c d) (hv : ρ (d.setRedun s).still = ρ d.still := by rfl) : Keeps ρ A R c (d.setRedun s) := h.of hv rfl rfl

theorem setMirror {s : MirrorSt} (h : Keeps ρ A R c d) (hv : ρ (d.setMirror s).still = ρ d.still := by rfl) : Keeps ρ A R c (d.setMirror s) := h.of hv rfl rfl

theorem setMap {s : MapSt} (h : Keeps ρ A R c d) (hv : ρ (d.setMap s).still = ρ d.still := by rfl) : Keeps ρ A R c (d.setMap s) := h.of hv rfl rfl

theorem setScan {s : ScanSt} (h : Keeps ρ A R c d) (hv : ρ (d.setScan s).still = ρ d.still := by rfl) : Keeps ρ A R c (d.setScan s) := h.of hv rfl rfl

theorem setDramPort {p : Nat} {s : DramPortSt} (h : Keeps ρ A R c d) (hv : ρ (d.setDramPort p s).still = ρ d.still := by rfl) : Keeps ρ A R c (d.setDramPort p s) := h.of hv rfl rfl

theorem setPort {p : Nat} {s : PortSt} (h : Keeps ρ A R c d) : Keeps ρ A R c (d.setPort p s) := h.of rfl rfl rfl

theorem setFlow {p : Nat} {s : FlowSt} (h : Keeps ρ A R c d) (hv : ρ (d.setFlow p s).still = ρ d.still := by rfl) : Keeps ρ A R c (d.setFlow p s) := h.of hv rfl rfl

theorem emit {o : Output} (h : Keeps ρ A R c d) : Keeps ρ A R c (d.emit o) :=
  h.of (by rw [Chip.emit_still]) (Chip.emit_regs _ _) (by unfold Chip.emit; split <;> rfl)

theorem report {pg : Nat} {l : List ErrRec} (h : Keeps ρ A R c d) (hA : A.all quietReg = true := by decide) (hR : R = [] := by rfl) :
    Keeps ρ A R c (d.report pg l) :=
  h.trans ⟨by rw [(d.quiet_report pg l).1], (d.quiet_report pg l).build, fun a ha => (d.quiet_report pg l).2.2 a (List.all_eq_true.1 hA a ha),
    fun e he => absurd (hR ▸ he) (List.not_mem_nil), (d.quiet_report pg l).2.1, PendUp.report d pg l⟩

end Keeps

theorem belfry_hasPage (c : Chip) : c.hasPage 0x008 = true := by unfold Chip.hasPage; cases c.build <;> decide +kernel

/-! ### Flash operations that are cut short (R350, R361, R372) -/

/-- Nothing differs but the flash and the open values drawn. -/
def FlashOnly (c d : Chip) : Prop := ∃ fl n, d = { c with belfry := { c.belfry with flash := fl }, free := n }

namespace FlashOnly
variable {c d e : Chip}

theorem refl : FlashOnly c c := ⟨_, _, rfl⟩

theorem trans (h : FlashOnly c d) (k : FlashOnly d e) : FlashOnly c e := by
  obtain ⟨fl, n, rfl⟩ := h
  obtain ⟨fl', n', rfl⟩ := k
  exact ⟨fl', n', rfl⟩

theorem ite {p : Prop} [Decidable p] (h : FlashOnly c d) (k : FlashOnly c e) : FlashOnly c (if p then d else e) := by
  split
  · exact h
  · exact k

theorem program {a : Nat} {l : List Byte} (h : FlashOnly c d) : FlashOnly c (d.flashProgram a l) := h.trans ⟨_, _, rfl⟩

theorem erase {a n : Nat} (h : FlashOnly c d) : FlashOnly c (d.flashErase a n) := h.trans ⟨_, _, rfl⟩

theorem interruptCopy {area index k : Nat} (h : FlashOnly c d) : FlashOnly c (d.interruptCopy area index k) := h.erase.program.program

theorem cutBlock {b : Bool} (h : FlashOnly c d) : FlashOnly c (d.cutBlock b) := by
  refine h.trans ?_
  unfold Chip.cutBlock
  split
  · exact refl
  · dsimp only
    have hx := fun (f : Chip → Nat → Chip) (hf : ∀ x i, FlashOnly x (f x i)) l => FlashOnly.trans (c := d) ⟨d.belfry.flash, d.free + 2, rfl⟩
      (foldl_rel FlashOnly (fun _ => refl) trans id f l (fun x i _ => hf x i) _)
    exact ite (hx _ (fun x i => ite refl refl.program) _) (hx _ (fun x i => ite refl refl.program) _).program

/-- What the flash alone differs in keeps every register and every other part of the block. -/
theorem keeps {α : Type} {ρ : Chip → α} {A : List Nat} {R : List Ev} (h : FlashOnly c d)
    (hρ : ∀ (x : Chip) fl n, ρ { x with belfry := { x.belfry with flash := fl }, free := n } = ρ x := by exact fun _ _ _ => rfl) : Keeps ρ A R c d := by
  obtain ⟨fl, n, rfl⟩ := h
  exact Keeps.refl.of (hρ c.still fl n) rfl rfl

end FlashOnly

/-- What the Belfry's own account of its work leaves alone. -/
def belfryView (x : Chip) : MemSt × AonSt × HostSt × List LogRec × Option Nat × Bool :=
  (x.mem, x.aon, x.host, x.belfry.logBuf, x.belfry.down, x.belfry.running)

theorem belfryView_mem {A : List Nat} {R : List Ev} {c d : Chip} (h : Keeps belfryView A R c d) : d.mem = c.mem := congrArg Prod.fst h.view

def belfryRegs : List Nat := [F.BELFRY_STATUS_CAUSE.addr, F.BELFRY_LOCKSTEP_COUNT.addr, F.DEBUG_CTRL_UNLOCK.addr]

/-- What was being programmed is gone, and with it the record of it. -/
theorem Chip.interruptFlash_spec (c : Chip) :
    c.interruptFlash.upd.writing = none ∧ c.interruptFlash.belfry.journal = [] ∧
      Keeps belfryView belfryRegs [] c c.interruptFlash := by
  have key : ∀ x : Chip, FlashOnly c x →
      let y := ((({ x.setBelfry { x.belfry with journal := [], migrate := none } with upd := { x.upd with gather := [], index := 0, writing := none, calSession := none, calOpen := false, calGather := [], calPages := [] } } : Chip).set
        F.UPDATE_STATUS_BLOCK_BUSY 0).set F.SETTINGS_STATUS_SAVING 0)
      y.upd.writing = none ∧ y.belfry.journal = [] ∧ Keeps belfryView belfryRegs [] c y := by
    intro x hx
    have h : Keeps belfryView belfryRegs [] c x := hx.keeps
    exact ⟨rfl, rfl, .set (.set (h.of rfl rfl rfl))⟩
  unfold Chip.interruptFlash
  refine key _ (FlashOnly.ite (FlashOnly.interruptCopy ?_) ?_)
  all_goals
    split
    · exact FlashOnly.refl.cutBlock.interruptCopy
    · exact FlashOnly.ite FlashOnly.refl.cutBlock.interruptCopy FlashOnly.refl.cutBlock

/-- The Belfry is down, for its cause. -/
def Chip.belfryCut (c : Chip) (k : Nat) : Chip :=
  let d := c.setBelfry { c.belfry with down := some k, logBuf := [] }
  { d with aon := { d.aon with restart := k }, host := { d.host with held := d.host.held.filter (fun h => decide (h.origin ≠ Origin.belfry)) } }

theorem Chip.belfryDown_eq (c : Chip) (k : Nat) :
    c.belfryDown k = ((((c.setUnlock false).setHalted false).belfryFill.interruptFlash.belfryCut k).set F.BELFRY_STATUS_CAUSE k).bump
      F.BELFRY_STATUS_RESTARTS := rfl

/-- A restart of the Belfry: its cause, its count, and what is lost with it (R350). -/
theorem Chip.belfryDown_spec (c : Chip) (k : Nat) (hk : k < 16) :
    let t := c.belfryDown k
    (t.belfry.down = some k ∧ t.get F.BELFRY_STATUS_CAUSE = k ∧ t.belfry.logBuf = [] ∧
      t.mem.belfry = [] ∧ t.belfry.journal = [] ∧ t.upd.writing = none ∧ t.aon.restart = k ∧ t.on F.DEBUG_CTRL_UNLOCK = false ∧
      t.get F.BELFRY_STATUS_RESTARTS = (c.get F.BELFRY_STATUS_RESTARTS + 1) % 65536) ∧
    t.on F.DEBUG_CTRL_HALTED = false ∧ Keeps (fun _ => ()) [F.BELFRY_LOCKSTEP_COUNT.addr] [] c t := by
  dsimp only
  rw [Chip.belfryDown_eq]
  have hx : ((c.setUnlock false).setHalted false).on F.DEBUG_CTRL_UNLOCK = false ∧
      ((c.setUnlock false).setHalted false).on F.DEBUG_CTRL_HALTED = false := by
    unfold Chip.setUnlock Chip.setHalted Chip.on
    simp (disch := decide) only [Chip.cond_get_of, Chip.get_set_field, Chip.get_set]
    exact ⟨by decide, by decide⟩
  have kx : Keeps (fun _ => ()) [F.BELFRY_LOCKSTEP_COUNT.addr, F.BELFRY_STATUS_CAUSE.addr] [] c ((c.setUnlock false).setHalted false) :=
    .cond (.set (.cond (.set .refl)))
  generalize (c.setUnlock false).setHalted false = x at hx kx
  obtain ⟨hw, hj, ky⟩ := x.belfryFill.interruptFlash_spec
  have kf : Keeps (fun _ => ()) belfryRegs [] x x.belfryFill := Keeps.refl.of rfl rfl rfl
  have hm : x.belfryFill.interruptFlash.mem = x.belfryFill.mem := belfryView_mem ky
  have hz : x.belfryFill.interruptFlash.get F.BELFRY_STATUS_RESTARTS = c.get F.BELFRY_STATUS_RESTARTS := by
    rw [ky.get _ (by decide), kf.get _ (by decide), kx.get _ (by decide)]
  have hu : ∀ f : Fld, f.addr = F.DEBUG_CTRL_UNLOCK.addr → x.belfryFill.interruptFlash.on f = x.on f := fun f hf => by
    rw [ky.on _ (by rw [hf]; decide), kf.on _ (by rw [hf]; decide)]
  have kc : Keeps (fun _ => ()) [F.BELFRY_LOCKSTEP_COUNT.addr] [] c x.belfryFill.interruptFlash :=
    kx.mono.trans (kf.mono.trans ky.mono)
  generalize x.belfryFill.interruptFlash = y at hw hj hm hz hu kc
  have hug : ∀ f, (y.belfryCut k).get f = y.get f := fun _ => rfl
  have hk' : k % 2 ^ 4 = k := Nat.mod_eq_of_lt hk
  have kt : Keeps (fun _ => ()) [F.BELFRY_LOCKSTEP_COUNT.addr, F.DEBUG_CTRL_UNLOCK.addr] [] (y.belfryCut k) (((y.belfryCut k).set F.BELFRY_STATUS_CAUSE k).bump F.BELFRY_STATUS_RESTARTS) :=
    .bump (.set .refl)
  have hon : ∀ f : Fld, f.addr = F.DEBUG_CTRL_UNLOCK.addr → x.on f = false → (((y.belfryCut k).set F.BELFRY_STATUS_CAUSE k).bump F.BELFRY_STATUS_RESTARTS).on f = false :=
    fun f hf h0 => (kt.on f (by rw [hf]; decide)).trans ((hu f hf).trans h0)
  refine ⟨⟨rfl, ?_, rfl, ?_, ?_, ?_, rfl, hon _ rfl hx.1, ?_⟩, hon _ rfl hx.2, ?_⟩
  · unfold Chip.bump
    simp (disch := decide) only [Chip.get_set_field, Chip.get_set]
    exact hk'
  · rw [Chip.bump, Chip.set_mem, Chip.set_mem]
    exact (congrArg MemSt.belfry hm).trans rfl
  · rw [Chip.bump, Chip.set_belfry, Chip.set_belfry]
    exact hj
  · rw [Chip.bump, Chip.set_upd, Chip.set_upd]
    exact hw
  · unfold Chip.bump
    simp (disch := decide) only [Chip.get_set_field, Chip.get_set]
    rw [hug, hz]
    rfl
  · exact (kc.of (e := y.belfryCut k) rfl rfl rfl).trans kt.mono

/-- Whether a path is open hangs on the accesses held, on the relay's writes and on what waits for a bank. -/
theorem Chip.pathsOpen_of {c d : Chip} (hb : d.build = c.build) (hh : d.host.held = []) (hw : d.relayWrites = c.relayWrites)
    (hm : d.mem.banks = c.mem.banks) (h : c.pathsOpen = true) : d.pathsOpen = true := by
  unfold Chip.pathsOpen Chip.relayFull Chip.bank at h ⊢
  simp only [Bool.and_eq_true] at h
  obtain ⟨⟨-, h1⟩, h2⟩ := h
  rw [hb, hh, hw, hm, h1, h2]
  rfl

theorem belfryView_host {A : List Nat} {R : List Ev} {c d : Chip} (h : Keeps belfryView A R c d) :
    d.host.held = c.host.held ∧ d.relayWrites = c.relayWrites := by
  have e : d.still.host = c.still.host := congrArg (fun x => x.2.2.1) h.view
  have e1 : d.still.host.held = c.still.host.held := by rw [e]
  have e2 : d.still.host.relayQ = c.still.host.relayQ := by rw [e]
  exact ⟨e1, by rw [Chip.relayWrites, Chip.relayWrites]; exact congrArg (fun q => (q.filter (fun r => r.write)).length) e2⟩

/-- What waits on a path waits on through a restart of the Belfry, and no page control changes. -/
theorem Calm.belfryDown {c : Chip} (h : Calm c) (k : Nat) : Calm (c.belfryDown k) := by
  obtain ⟨hc, hp⟩ := h
  rw [Chip.belfryDown_eq]
  have kx : Keeps belfryView [] [] c ((c.setUnlock false).setHalted false) := .cond (.set (.cond (.set .refl)))
  generalize (c.setUnlock false).setHalted false = x at kx
  obtain ⟨-, -, ky⟩ := x.belfryFill.interruptFlash_spec
  generalize x.belfryFill.interruptFlash = y at ky
  have hb : y.build = c.build := ky.build.trans kx.build
  have hct : y.ctrls = c.ctrls := ky.ctrls.trans kx.ctrls
  have hm : y.mem.banks = c.mem.banks := (congrArg MemSt.banks (belfryView_mem ky)).trans (show x.mem.banks = c.mem.banks by rw [belfryView_mem kx])
  obtain ⟨h1, h2⟩ := belfryView_host ky
  obtain ⟨h3, h4⟩ := belfryView_host kx
  have hheld : c.host.held = [] := by
    unfold Chip.pathsOpen at hp
    simp only [Bool.and_eq_true, List.isEmpty_iff] at hp
    exact hp.1.1
  have hcut : Calm (y.belfryCut k) := by
    refine ⟨(Chip.commitPages_congr (c := c) hct).trans hc, Chip.pathsOpen_of (c := c) hb ?_ (h2.trans h4) hm hp⟩
    show (y.host.held.filter _) = []
    rw [h1.trans (h3.trans hheld)]
    rfl
  exact (hcut.set _ _ (by decide)).set _ _ (by decide)

/-! ### The return of the Belfry (R350) -/

/-- What the return of the Belfry leaves alone once it is up: the paths, and that it runs. -/
def backView (x : Chip) : HostSt × Bool × Option Nat := (x.host, x.belfry.running, x.belfry.down)

theorem Keeps.logAdd {c d : Chip} {r : LogRec} (h : Keeps backView [] [] c d) : Keeps backView [] [] c (d.logAdd r) := by
  unfold Chip.logAdd
  exact .ite (.setBelfry h) (.raise (.bumpSat h))

theorem Keeps.logUpd {c d : Chip} {code detail : Nat} (h : Keeps backView [] [] c d) : Keeps backView [] [] c (d.logUpd code detail) := h.logAdd

theorem Keeps.logNow {c d : Chip} (h : Keeps backView [] [] c d) (typ page code detail : Nat) :
    Keeps backView [] [] c (d.logNow typ page code detail) := h.logAdd

theorem Keeps.rolledBack {c d : Chip} (h : Keeps backView [] [] c d) : Keeps backView [] [] c d.rolledBack := by
  unfold Chip.rolledBack
  dsimp only
  have h0 : Keeps backView [] [] c (d.set F.SETTINGS_STATUS_MIGRATED 0) := .set h
  generalize d.set F.SETTINGS_STATUS_MIGRATED 0 = x at h0
  refine .raise (.logUpd ?_)
  split
  · exact .ite (.set (.set (.set h0))) h0
  · exact h0

theorem Keeps.setUpdState {c d : Chip} {v : Nat} (h : Keeps backView [] [] c d) : Keeps backView [] [] c (d.setUpdState v) := .set h (by decide) (by decide)

theorem Keeps.withAon {c d : Chip} (h : Keeps backView [] [] c d) (a : AonSt) : Keeps backView [] [] c { d with aon := a } := h.of rfl rfl rfl

/-- The image of a Belfry that runs starts: no restart is open. -/
theorem Chip.imageStart_spec (c : Chip) (hr : c.belfry.running = true) :
    ∃ n, Keeps backView [] [] (c.setBelfry { c.belfry with upFrom := n, down := none }) c.imageStart := by
  refine ⟨c.time.ticks28, ?_⟩
  unfold Chip.imageStart
  rw [if_neg (by simp [hr])]
  generalize c.setBelfry { c.belfry with upFrom := c.time.ticks28, down := none } = x
  extract_lets d staged y z back u a e
  have hu : Keeps backView [] [] x u := .set (.set (.setUpdState .refl))
  have he : Keeps backView [] [] x e := hu.withAon _
  exact .ite he.rolledBack he

theorem Keeps.noteBroken {c d : Chip} (h : Keeps backView [] [] c d) : Keeps backView [] [] c d.noteBroken := by
  unfold Chip.noteBroken
  exact .foldl h (fun x b _ => .ite (.logUpd (.raise .refl)) .refl)

/-- A restart that ends: the Belfry runs, the paths are as they were, and the event of it is pending. -/
theorem Chip.belfryBack_spec (c : Chip) (k : Nat) (hd : c.belfry.down = some k) (hr : c.belfry.running = true) :
    let t := c.belfryBack
    (t.still.host, t.belfry.running, t.belfry.down) = (c.still.host, true, none) ∧ t.pend E.BELFRY_RESTART = true := by
  unfold Chip.belfryBack
  simp only [hd, hr, Bool.not_true, Bool.false_eq_true, if_false]
  obtain ⟨n, hi⟩ := c.imageStart_spec hr
  have h := Keeps.raise (x := E.BELFRY_RESTART) (hi.noteBroken.logNow 4 0x008 k (c.imageStart.noteBroken.get F.UPDATE_RUN_VERSION_VERSION))
  refine ⟨h.view.trans ?_, Chip.raise_pend _ _ (belfry_hasPage _) (by decide)⟩
  show (c.still.host, c.belfry.running, none) = _
  rw [hr]

/-- Paths on which nothing waits have nothing to do when the Belfry is back. -/
theorem Chip.pathsGo_idle (c : Chip) (h1 : c.host.relayQ = []) (h2 : c.host.held = []) (h3 : c.host.srpQ = []) (h4 : c.host.srpJob = none) :
    c.pathsGo = c := by
  have e1 : c.relayNext = c := by rw [Chip.relayNext, h1]; rfl
  have e2 : c.heldNext = c := by rw [Chip.heldNext, h2]; rfl
  have e3 : c.srpRun = c := by
    rw [Chip.srpRun, h3]
    simp [Chip.srpQueue, Chip.srpWords, h3, h4]
  rw [Chip.pathsGo, e1, e2, e3]

/-! ### What restarts the Belfry (R347 to R351, R368) -/

theorem regAt_belfryCmd (b : Build) : ∃ d, regAt b F.BELFRY_CMD_RESTART.addr = .reg d ∧ ∀ v w, d.quiesceChange v w = false := by
  cases b <;> exact ⟨_, rfl, fun _ _ => by simp [RegDef.quiesceChange]⟩

/-- The debugger holds the cores, or lets them go. -/
theorem Chip.setHalted_spec (c : Chip) (b : Bool) :
    (c.setHalted b).get F.DEBUG_CTRL_HALTED = b2n b ∧ (c.setHalted b).raw E.DEBUG_HALT = b ∧ (c.setHalted b).belfry = c.belfry := by
  unfold Chip.setHalted
  refine ⟨?_, Chip.cond_raw_self _ _ _ (by decide), (Chip.quiet_cond _ _ _).belfry⟩
  rw [Chip.cond_get_of _ _ _ _ (by decide) (by decide), Chip.get_set _ _ _ (by decide) (by decide)]
  cases b <;> rfl

theorem Chip.belfryUp_setHalted (c : Chip) (b : Bool) :
    (c.setHalted b).belfryUp = (c.belfry.running && c.belfry.down.isNone && !b) := by
  obtain ⟨h1, -, h2⟩ := c.setHalted_spec b
  rw [Chip.belfryUp, Chip.on, h1, h2]
  cases b <;> rfl

/-- What a restart of the Belfry leaves, of its cause and of the count that it found. -/
abbrev Chip.restarted (t : Chip) (k n : Nat) : Prop :=
  t.belfry.down = some k ∧ t.get F.BELFRY_STATUS_CAUSE = k ∧ t.belfry.logBuf = [] ∧
    t.mem.belfry = [] ∧ t.belfry.journal = [] ∧ t.upd.writing = none ∧ t.aon.restart = k ∧ t.on F.DEBUG_CTRL_UNLOCK = false ∧
    t.get F.BELFRY_STATUS_RESTARTS = (n + 1) % 65536

theorem Chip.dogRestart_spec (c : Chip) : c.dogRestart.restarted 1 (c.get F.BELFRY_STATUS_RESTARTS) := by
  have hg : ∀ a : AonSt, ({ c with aon := a } : Chip).get F.BELFRY_STATUS_RESTARTS = c.get F.BELFRY_STATUS_RESTARTS := fun _ => rfl
  unfold Chip.dogRestart
  dsimp only
  rw [← hg]
  exact (Chip.belfryDown_spec _ 1 (by decide)).1

/-- The watchdog's kick: recorded, and a restart where it comes too early from a port that may kick. -/
theorem Chip.kick_spec (c : Chip) (o : Origin) (w : Word) (ms : Nat) (hq : c.changeQ.length < 64) :
    (((o = .belfry ∨ o = .jtag) ∧ ms < c.get F.BELFRY_WDOG_OPEN) → (c.kick o w ms).restarted 1 (c.get F.BELFRY_STATUS_RESTARTS)) ∧
    ((o ≠ .belfry ∧ o ≠ .jtag) ∨ c.get F.BELFRY_WDOG_OPEN ≤ ms → (c.kick o w ms).belfry = c.belfry ∧ (c.kick o w ms).regs = c.regs ∧
      (c.kick o w ms).changeQ.length = c.changeQ.length + 1) := by
  obtain ⟨x, hx, hg, hb, hr, hl⟩ : ∃ x, c.logChange o F.BELFRY_KICK_KICK.addr w = x ∧ (∀ f, x.get f = c.get f) ∧ x.belfry = c.belfry ∧
      x.regs = c.regs ∧ x.changeQ.length = c.changeQ.length + 1 := by
    refine ⟨_, rfl, ?_⟩
    unfold Chip.logChange
    rw [if_pos hq]
    exact ⟨fun _ => rfl, rfl, rfl, List.length_append⟩
  unfold Chip.kick Chip.when
  simp only [hx, hg, Bool.and_eq_true, Bool.or_eq_true, decide_eq_true_eq]
  constructor
  · intro h
    rw [if_pos h, ← hg]
    exact x.dogRestart_spec
  · intro h
    rw [if_neg]
    · exact ⟨hb, hr, hl⟩
    · rintro ⟨ho, hms⟩
      rcases h with ⟨h1, h2⟩ | h
      · exact ho.elim h1 h2
      · omega

/-- Settles O53: each cause restarts the Belfry and is recorded, the Belfry comes back, and a debugger holds it. -/
theorem belfryRestarts : Obligations.BelfryRestarts := by
  intro s hs up restarted
  have hf : s.chip.frozen = false := hs.notFrozen
  refine ⟨?_, ?_, fun hup => ?_, fun o w ms hq => ?_, fun o hc => ?_, ?_, fun k hd hr h1 h2 h3 h4 => ?_, ?_, ?_⟩
  · refine Completes.serve (fun c => ((c.raise E.LOCKSTEP).bumpSat F.BELFRY_LOCKSTEP_COUNT).belfryDown 2) rfl hf ?_
    set x := (s.chip.raise E.LOCKSTEP).bumpSat F.BELFRY_LOCKSTEP_COUNT with hx
    have hn : x.get F.BELFRY_STATUS_RESTARTS = s.chip.get F.BELFRY_STATUS_RESTARTS := by
      rw [hx, Chip.bumpSat, Chip.get_set_ne _ _ _ _ (by decide), Chip.raise_get_of _ _ _ (by decide)]
    obtain ⟨hr, -, hk⟩ := x.belfryDown_spec 2 (by decide)
    have hp : x.pend E.LOCKSTEP = true := PendUp.set _ _ _ (by decide) _ (Chip.raise_pend _ _ (belfry_hasPage _) (by decide))
    refine ⟨?_, hk.pend _ hp, ?_⟩
    · simp only [restarted]
      rw [← hn]
      exact hr
    · rw [hk.get F.BELFRY_LOCKSTEP_COUNT, hx, Chip.get_bumpSat _ _ _ (by decide) (by decide), Chip.raise_get_of _ _ _ (by decide)]
      rfl
  · refine Completes.serve (fun c => c.when (!c.dogHeld) Chip.dogRestart) rfl hf ?_
    cases h : s.chip.dogHeld
    · simp only [Chip.when, h]
      exact s.chip.dogRestart_spec
    · simp [Chip.when, h]
  · refine Completes.serve (fun c => c.when c.belfryUp (fun c => c.raise E.BELFRY_BUS_ERR)) rfl hf ?_
    simp only [Chip.when, hup, if_true]
    exact ⟨Chip.raise_pend _ _ (belfry_hasPage _) (by decide), s.chip.quiet_raise _⟩
  · exact Completes.serveFor o (fun c => c.kick o w ms) rfl hs (s.chip.kick_spec o w ms hq)
  · refine Completes.serveFor o (fun c => c.writeField o F.BELFRY_CMD_RESTART 1) rfl hs ?_
    obtain ⟨d, hd, hq⟩ := regAt_belfryCmd s.chip.build
    obtain ⟨x, hx, he⟩ := Chip.writeField_command (o := o) (fun x => x.belfryDown 3) rfl (by decide) hd (by decide) hq hc
      (fun x old w hw => (if_pos hw : (if w.getLsbD 0 = true then x.belfryDown 3 else x) = _)) (fun x hx => hx.belfryDown 3)
    rw [he, Chip.noteMirror_other _ _ (by decide)]
    have hn : x.get F.BELFRY_STATUS_RESTARTS = s.chip.get F.BELFRY_STATUS_RESTARTS := hx.get _ (by decide) (by decide) (by decide)
    show (x.belfryDown 3).restarted 3 _
    rw [← hn]
    exact (x.belfryDown_spec 3 (by decide)).1
  · refine Completes.serve (fun c => c.belfryDown 5) rfl hf ?_
    obtain ⟨hr, hh, -⟩ := s.chip.belfryDown_spec 5 (by decide)
    exact ⟨hr, hh⟩
  · refine Completes.serve (fun c => c.belfryBack.pathsGo) rfl hf ?_
    obtain ⟨hv, hp⟩ := s.chip.belfryBack_spec k hd hr
    simp only [Prod.mk.injEq] at hv
    obtain ⟨hv, hrun, hdown⟩ := hv
    have hh : ∀ {β : Type} (g : HostSt → β), g s.chip.belfryBack.still.host = g s.chip.still.host := fun g => congrArg g hv
    rw [Chip.pathsGo_idle s.chip.belfryBack ((hh HostSt.relayQ).trans h3) ((hh HostSt.held).trans h4) ((hh HostSt.srpQ).trans h1) ((hh HostSt.srpJob).trans h2)]
    exact ⟨hdown, hrun, hp⟩
  · refine Completes.serve (fun c => c.setHalted true) rfl hf ?_
    obtain ⟨hg, hw, -⟩ := s.chip.setHalted_spec true
    refine ⟨hg, hw, ?_⟩
    rw [Chip.belfryUp_setHalted]
    simp
  · refine Completes.serve (fun c => c.setHalted false) rfl hf ?_
    obtain ⟨hg, hw, -⟩ := s.chip.setHalted_spec false
    refine ⟨hg, hw, ?_⟩
    rw [Chip.belfryUp_setHalted]
    simp [up]

end Sys2Proof.Machine
end

