-- ==== Sys2Proof/Proofs/LogAndFlash.lean ====
section
-- One proof at a time: proofs that wait for the kernel side by side hold more memory than the check allows.
set_option Elab.async false
/-! PROOF. UNLOCK, the flash read after it is programmed and erased, and the log ring (R53, R366, R367, R369, R385). -/

namespace Sys2Proof.Machine

/-! ### UNLOCK (R366) -/

theorem Keeps.logChange {α : Type} {ρ : Chip → α} {A : List Nat} {R : List Ev} {c d : Chip} {o : Origin} {a : Nat} {w : Word} (h : Keeps ρ A R c d)
    (hA : F.DEVICE_CHANGE_LOST_COUNT.addr ∉ A := by decide) (hA' : A.all calmReg = true := by decide) : Keeps ρ A R c (d.logChange o a w) := by
  unfold Chip.logChange
  exact .ite (h.of rfl rfl rfl) (.raise (.bumpSat h hA) hA')

theorem regAt_debugCtrl (b : Build) : ∃ d, regAt b F.DEBUG_CTRL_UNLOCK.addr = .reg d ∧ ∀ v w, d.quiesceChange v w = false := by
  cases b <;> exact ⟨_, rfl, fun _ _ => by simp [RegDef.quiesceChange]⟩

/-- A write of DEBUG.CTRL: recorded or not, and then the write of its fields. -/
theorem Chip.write32_debugCtrl (c : Chip) (o : Origin) (w : Word) (hc : Calm c) :
    ∃ x, (x = c ∨ x = c.logChange o F.DEBUG_CTRL_UNLOCK.addr w) ∧ c.write32 o F.DEBUG_CTRL_UNLOCK.addr w = x.debugWrite o w := by
  obtain ⟨d, hd, hq⟩ := regAt_debugCtrl c.build
  rw [Chip.write32_block c o _ w d (by decide) (by decide) (by decide) hd hc.2]
  obtain ⟨x, hx, he⟩ : ∃ x, (x = c ∨ x = c.logChange o F.DEBUG_CTRL_UNLOCK.addr w) ∧ c.blockWrite o F.DEBUG_CTRL_UNLOCK.addr d w =
      (((x.debugWrite o w).writeEffect o F.DEBUG_CTRL_UNLOCK.addr (c.rd F.DEBUG_CTRL_UNLOCK.addr) w).noteMirror F.DEBUG_CTRL_UNLOCK.addr).settle := by
    unfold Chip.blockWrite Chip.sizeError
    simp only [hq, Bool.false_and, Bool.or_false, Bool.false_eq_true, if_false, if_true]
    exact ⟨_, (ite_eq_or_eq _ _ _).symm, rfl⟩
  refine ⟨x, hx, ?_⟩
  have hcalm : Calm (x.debugWrite o w) := by
    have hx' : Calm x := by
      rcases hx with rfl | rfl
      · exact hc
      · exact (c.quiet_logChange _ _ _).calm hc
    unfold Chip.debugWrite
    dsimp only
    split
    · exact (Chip.quiet_cond _ _ _).calm ((hx'.set _ _ (by decide)).set _ _ (by decide))
    · exact hx'.set _ _ (by decide)
  rw [he, show (x.debugWrite o w).writeEffect o F.DEBUG_CTRL_UNLOCK.addr (c.rd F.DEBUG_CTRL_UNLOCK.addr) w = x.debugWrite o w from rfl,
    Chip.noteMirror_other _ _ (by decide)]
  exact hcalm.settle

/-- UNLOCK and its present state, written by a path that may write it, and kept by a write of any other. -/
theorem Chip.debugWrite_spec (c : Chip) (o : Origin) (w : Word) :
    if o = .belfry ∨ o = .jtag then (c.debugWrite o w).on F.DEBUG_CTRL_UNLOCK = w.getLsbD 31 ∧ (c.debugWrite o w).raw E.DEBUG_UNLOCKED = w.getLsbD 31
    else (c.debugWrite o w).on F.DEBUG_CTRL_UNLOCK = c.on F.DEBUG_CTRL_UNLOCK ∧ (c.debugWrite o w).raw E.DEBUG_UNLOCKED = c.raw E.DEBUG_UNLOCKED := by
  unfold Chip.debugWrite Chip.setUnlock
  simp only [Bool.or_eq_true, decide_eq_true_eq]
  split
  · refine ⟨?_, Chip.cond_raw_self _ _ _ (by decide)⟩
    rw [Chip.on, Chip.cond_get_of _ _ _ _ (by decide) (by decide), Chip.get_set _ _ _ (by decide) (by decide)]
    cases w.getLsbD 31 <;> rfl
  · have hk : Keeps (fun _ => ()) [] [E.DEBUG_UNLOCKED] c (c.set F.DEBUG_CTRL_WDOG_HOLD (bitsOf w 30 30)) := .set .refl
    refine ⟨?_, hk.raw _ (by decide)⟩
    rw [Chip.on, Chip.get_set_field _ _ _ _ (by decide) (by decide) (by decide) (by decide)]
    rfl

/-! ### The flash, read after it is programmed and erased (R369) -/

theorem Chip.flashRead_program_same (c : Chip) (a n : Nat) (l : List Byte) (hn : l.length = n) : (c.flashProgram a l).flashRead a n = l := by
  rw [← hn]
  exact memRead_memWrite_same _ _ _ _

theorem Chip.flashRead_program_apart (c : Chip) (a b n : Nat) (l : List Byte) (h : b + n ≤ a ∨ a + l.length ≤ b) :
    (c.flashProgram a l).flashRead b n = c.flashRead b n := memRead_memWrite_apart _ _ _ _ _ _ h

theorem Chip.flashRead_erase_apart (c : Chip) (a len b n : Nat) (h : b + n ≤ a ∨ a + len ≤ b) :
    (c.flashErase a len).flashRead b n = c.flashRead b n := by
  show memRead _ (c.belfry.flash.filter _) b n = memRead _ c.belfry.flash b n
  rw [memRead_eq_map, memRead_eq_map]
  refine List.map_congr_left fun i hi => ?_
  have hi := List.mem_range.1 hi
  rw [memGet, memGet, smGet, smGet, smFind_filter (fun k => decide (k < a) || decide (a + len ≤ k)), if_pos (by simp only [Bool.or_eq_true, decide_eq_true_eq]; omega)]

/-! ### The log: the queues gathered, and the records programmed (R53, R367, R385) -/

/-- The record at the front of a queue, as the log holds it. -/
@[simp] def frontEv : List EvRec → List LogRec
  | [] => []
  | e :: _ => [e.log]

/-- The change record at the front, as the log holds it. -/
@[simp] def frontChange : List ChangeRec → List LogRec
  | [] => []
  | r :: _ => [r.log]

/-- The records that the two queues give, in the order in which they are taken. -/
def drained : List EvRec → List ChangeRec → List LogRec
  | [], rs => rs.map ChangeRec.log
  | e :: es, rs => e.log :: (frontChange rs ++ drained es rs.tail)

theorem drained_step (es : List EvRec) (rs : List ChangeRec) : drained es rs = frontEv es ++ frontChange rs ++ drained es.tail rs.tail := by
  cases es with
  | nil => cases rs <;> simp [drained]
  | cons e es => simp [drained]

theorem drained_length (es : List EvRec) (rs : List ChangeRec) : (drained es rs).length = es.length + rs.length := by
  induction es generalizing rs with
  | nil => simp [drained]
  | cons e es ih => cases rs <;> simp [drained, ih] <;> omega

theorem mem_drained_event (es : List EvRec) (rs : List ChangeRec) (x : EvRec) (h : x ∈ es) : x.log ∈ drained es rs := by
  induction es generalizing rs with
  | nil => simp at h
  | cons e es ih =>
    rcases List.mem_cons.1 h with rfl | h
    · simp [drained]
    · simp [drained, ih rs.tail h]

theorem mem_drained_change (es : List EvRec) (rs : List ChangeRec) (x : ChangeRec) (h : x ∈ rs) : x.log ∈ drained es rs := by
  induction es generalizing rs with
  | nil => exact List.mem_map_of_mem h
  | cons e es ih =>
    cases rs with
    | nil => simp at h
    | cons r rs =>
      rcases List.mem_cons.1 h with rfl | h
      · simp [drained]
      · simp [drained, ih rs h]

/-- The block with its queues empty and what they held in the log buffer. -/
def Chip.gathered (c : Chip) (es : List EvRec) (rs : List ChangeRec) (l : List LogRec) : Chip :=
  { c with evq := es, changeQ := rs, belfry := { c.belfry with logBuf := c.belfry.logBuf ++ l } }

theorem Chip.logAdd_room (c : Chip) (r : LogRec) (h : c.belfry.logBuf.length < 1024) :
    c.logAdd r = { c with belfry := { c.belfry with logBuf := c.belfry.logBuf ++ [r] } } := by
  unfold Chip.logAdd
  rw [if_pos h]
  rfl

/-- One round takes the front of each queue. -/
theorem Chip.logTake_room (c : Chip) (hx : c.evqExtra = none) (h : c.belfry.logBuf.length + 2 ≤ 1024) :
    c.logTake = c.gathered c.evq.tail c.changeQ.tail (frontEv c.evq ++ frontChange c.changeQ) := by
  unfold Chip.logTake
  cases he : c.evq with
  | nil =>
    simp only [hx]
    cases hq : c.changeQ with
    | nil =>
      simp only [Chip.gathered, List.tail_nil, frontEv, frontChange, List.append_nil]
      rw [← he, ← hq]
    | cons r rs =>
      dsimp only
      rw [Chip.logAdd_room _ _ (by dsimp only; omega)]
      simp [Chip.gathered, he, hx]
  | cons e es =>
    simp only [hx]
    rw [Chip.logAdd_room _ _ (by dsimp only; omega)]
    cases hq : c.changeQ with
    | nil =>
      simp only [Chip.gathered, List.tail_nil, List.tail_cons, frontEv, frontChange, List.append_nil]
      rw [← hq, hx]
    | cons r rs =>
      dsimp only
      rw [Chip.logAdd_room _ _ (by simp only [List.length_append, List.length_singleton]; omega)]
      simp [Chip.gathered, hx]

/-- Both queues gathered by rounds that are enough for each, into a buffer with room. -/
theorem Chip.logTake_all (l : List Nat) : ∀ (c : Chip), c.evqExtra = none → c.evq.length ≤ l.length → c.changeQ.length ≤ l.length →
    c.belfry.logBuf.length + 2 * l.length ≤ 1024 →
    l.foldl (fun c _ => c.logTake) c = c.gathered [] [] (drained c.evq c.changeQ) := by
  induction l with
  | nil =>
    intro c hx h1 h2 h3
    have e1 : c.evq = [] := List.length_eq_zero_iff.1 (Nat.le_zero.1 h1)
    have e2 : c.changeQ = [] := List.length_eq_zero_iff.1 (Nat.le_zero.1 h2)
    rw [List.foldl_nil, Chip.gathered, e1, e2, drained, List.map_nil, List.append_nil, ← e1, ← e2]
  | cons x l ih =>
    intro c hx h1 h2 h3
    simp only [List.length_cons] at h1 h2 h3
    have hb : (frontEv c.evq ++ frontChange c.changeQ).length ≤ 2 := by
      cases c.evq <;> cases c.changeQ <;> simp
    rw [List.foldl_cons, c.logTake_room hx (by omega), ih (c.gathered c.evq.tail c.changeQ.tail (frontEv c.evq ++ frontChange c.changeQ)) hx
      (by simp only [Chip.gathered, List.length_tail]; omega)
      (by simp only [Chip.gathered, List.length_tail]; omega) (by simp only [Chip.gathered, List.length_append] at hb ⊢; omega)]
    simp only [Chip.gathered, List.append_assoc, drained_step c.evq c.changeQ]

theorem LogRec.encode_length (r : LogRec) (seq : Nat) : (r.encode seq).length = 32 := by simp [LogRec.encode]

/-- Entering a sector of the ring, the one after it is erased. -/
def Chip.sectorEntered (c : Chip) : Chip :=
  if c.belfry.logPos % 2048 = 0 then c.flashErase (logBase + (c.belfry.logPos / 2048 + 1) % 256 * 65536) 65536 else c

theorem Chip.sectorEntered_read (c : Chip) (hpos : c.belfry.logPos < logSlots) (q : Nat) (hq : q < logSlots)
    (hd : ∃ d, 1 ≤ d ∧ d ≤ 1024 ∧ (q + d) % logSlots = c.belfry.logPos) :
    c.sectorEntered.flashRead (logBase + 32 * q) 32 = c.flashRead (logBase + 32 * q) 32 := by
  obtain ⟨d, h1, h2, h3⟩ := hd
  unfold Chip.sectorEntered
  split
  · refine c.flashRead_erase_apart _ _ _ _ ?_
    generalize c.belfry.logPos = pos at *
    unfold logSlots at *
    have hs : q / 2048 ≠ (pos / 2048 + 1) % 256 := by omega
    have h4 : (pos / 2048 + 1) % 256 * 65536 + 65536 ≤ 32 * q ∨ 32 * q + 32 ≤ (pos / 2048 + 1) % 256 * 65536 := by omega
    omega
  · rfl

/-- A record at a position of the ring, and the position and number of the next. -/
def Chip.recordLaid (c : Chip) (pos seq : Nat) (r : LogRec) : Chip :=
  let d := c.flashProgram (logBase + 32 * pos) (r.encode seq)
  d.setBelfry { d.belfry with logPos := (pos + 1) % logSlots, logSeq := (seq + 1) % 2 ^ 32 }

theorem Chip.recordLaid_flash (c : Chip) (pos seq : Nat) (r : LogRec) (a n : Nat) :
    (c.recordLaid pos seq r).flashRead a n = (c.flashProgram (logBase + 32 * pos) (r.encode seq)).flashRead a n := rfl

theorem Chip.recordLaid_next (c : Chip) (pos seq : Nat) (r : LogRec) :
    (c.recordLaid pos seq r).belfry.logPos = (pos + 1) % logSlots ∧ (c.recordLaid pos seq r).belfry.logSeq = (seq + 1) % 2 ^ 32 ∧
      ((c.recordLaid pos seq r).evq, (c.recordLaid pos seq r).changeQ, (c.recordLaid pos seq r).belfry.logBuf) =
        (c.evq, c.changeQ, c.belfry.logBuf) := by
  simp only [Chip.recordLaid, Chip.setBelfry, Chip.flashProgram, true_and]

theorem Chip.logProgram_eq (c : Chip) (r : LogRec) :
    c.logProgram r = (c.sectorEntered.recordLaid c.belfry.logPos c.belfry.logSeq r).set F.LOG_NEWEST_SEQ_SEQ c.belfry.logSeq := rfl

theorem Chip.sectorEntered_same (c : Chip) : ∃ fl, c.sectorEntered = c.setBelfry { c.belfry with flash := fl } := by
  unfold Chip.sectorEntered
  split
  · exact ⟨_, rfl⟩
  · exact ⟨c.belfry.flash, rfl⟩

/-- One record programmed: the record stands at the position, the next follows, and the records of up to 1,024 positions before it stay. -/
theorem Chip.logProgram_spec (c : Chip) (r : LogRec) (hpos : c.belfry.logPos < logSlots) :
    let t := c.logProgram r
    t.belfry.logPos = (c.belfry.logPos + 1) % logSlots ∧ t.belfry.logSeq = (c.belfry.logSeq + 1) % 2 ^ 32 ∧
      t.flashRead (logBase + 32 * c.belfry.logPos) 32 = r.encode c.belfry.logSeq ∧
      (∀ q, q < logSlots → (∃ d, 1 ≤ d ∧ d ≤ 1024 ∧ (q + d) % logSlots = c.belfry.logPos) →
        t.flashRead (logBase + 32 * q) 32 = c.flashRead (logBase + 32 * q) 32) ∧
      t.get F.LOG_NEWEST_SEQ_SEQ = c.belfry.logSeq % 2 ^ 32 ∧ (t.evq, t.changeQ, t.belfry.logBuf) = (c.evq, c.changeQ, c.belfry.logBuf) := by
  have hread := c.sectorEntered_read hpos
  obtain ⟨fl, he⟩ := c.sectorEntered_same
  have hq : (c.sectorEntered.evq, c.sectorEntered.changeQ, c.sectorEntered.belfry.logBuf) = (c.evq, c.changeQ, c.belfry.logBuf) := by rw [he]; rfl
  obtain ⟨hp, hs, hl⟩ := c.sectorEntered.recordLaid_next c.belfry.logPos c.belfry.logSeq r
  have hflash := fun a n => c.sectorEntered.recordLaid_flash c.belfry.logPos c.belfry.logSeq r a n
  have hset : ∀ (y : Chip) v a n, (y.set F.LOG_NEWEST_SEQ_SEQ v).flashRead a n = y.flashRead a n := fun _ _ _ _ => rfl
  dsimp only
  rw [c.logProgram_eq]
  generalize c.sectorEntered.recordLaid c.belfry.logPos c.belfry.logSeq r = y at *
  simp only [Chip.set_belfry, Chip.set_evq, Chip.set_changeQ, hset, hflash, hp, hs, hl, hq, true_and]
  refine ⟨Chip.flashRead_program_same _ _ _ _ (r.encode_length _), fun q hql hd => ?_, Chip.get_set _ _ _ (by decide) (by decide), trivial⟩
  rw [Chip.flashRead_program_apart _ _ _ _ _ ?_]
  · exact hread q hql hd
  · rw [r.encode_length]
    obtain ⟨d, h1, h2, h3⟩ := hd
    unfold logSlots at *
    omega

/-- Records programmed one after another: each stands at its place with its number. -/
theorem Chip.logProgram_all (c : Chip) (hpos : c.belfry.logPos < logSlots) (hseq : c.belfry.logSeq < 2 ^ 32) (l : List LogRec) (hl : l.length ≤ 1024) :
    let t := l.foldl Chip.logProgram c
    t.belfry.logPos = (c.belfry.logPos + l.length) % logSlots ∧ t.belfry.logSeq = (c.belfry.logSeq + l.length) % 2 ^ 32 ∧
      (t.evq, t.changeQ, t.belfry.logBuf) = (c.evq, c.changeQ, c.belfry.logBuf) ∧
      (0 < l.length → t.get F.LOG_NEWEST_SEQ_SEQ = (c.belfry.logSeq + l.length - 1) % 2 ^ 32) ∧
      ∀ j r, l[j]? = some r →
        t.flashRead (logBase + 32 * ((c.belfry.logPos + j) % logSlots)) 32 = r.encode ((c.belfry.logSeq + j) % 2 ^ 32) := by
  dsimp only
  induction l using List.reverseRecOn with
  | nil => exact ⟨(Nat.mod_eq_of_lt hpos).symm, (Nat.mod_eq_of_lt hseq).symm, rfl, fun h => absurd h (Nat.lt_irrefl 0), fun j r h => by simp at h⟩
  | append_singleton l x ih =>
    rw [List.length_append, List.length_singleton] at hl ⊢
    obtain ⟨hp, hs, hq, -, hr⟩ := ih (by omega)
    rw [List.foldl_append, List.foldl_cons, List.foldl_nil]
    generalize l.foldl Chip.logProgram c = y at *
    have hS : 0 < logSlots := by decide
    obtain ⟨tp, ts, tsame, tkeep, tnew, tq⟩ := y.logProgram_spec x (hp ▸ Nat.mod_lt _ hS)
    refine ⟨?_, ?_, tq.trans hq, fun _ => ?_, fun j r hj => ?_⟩
    · rw [tp, hp, Nat.mod_add_mod, Nat.add_assoc]
    · rw [ts, hs, Nat.mod_add_mod, Nat.add_assoc]
    · rw [tnew, hs, Nat.mod_mod, ← Nat.add_assoc, Nat.add_sub_cancel]
    · rcases Nat.lt_or_ge j l.length with h | h
      · rw [List.getElem?_append_left h] at hj
        rw [tkeep _ (Nat.mod_lt _ hS) ⟨l.length - j, by omega, by omega, ?_⟩, hr j r hj]
        rw [hp, Nat.mod_add_mod]
        congr 1
        omega
      · rw [List.getElem?_append_right h] at hj
        have hj0 : j = l.length := by
          by_contra hne
          rw [List.getElem?_eq_none (by simp; omega)] at hj
          simp at hj
        subst hj0
        simp only [Nat.sub_self, List.getElem?_cons_zero, Option.some.injEq] at hj
        rw [← hj, ← hp, tsame, hs]

/-- The gathered records programmed, and the queues empty. -/
theorem Chip.logFlush_spec (c : Chip) (hx : c.evqExtra = none) (he : c.evq.length ≤ 64) (hq : c.changeQ.length ≤ 64) (hl : c.belfry.logBuf.length ≤ 800)
    (hseq : c.belfry.logSeq < 2 ^ 32) (hpos : c.belfry.logPos < logSlots) :
    let l := c.belfry.logBuf ++ drained c.evq c.changeQ
    let t := c.logFlush
    c.logDrain.belfry.logBuf = l ∧ t.evq = [] ∧ t.changeQ = [] ∧ t.belfry.logBuf = [] ∧
      t.belfry.logSeq = (c.belfry.logSeq + l.length) % 2 ^ 32 ∧ t.belfry.logPos = (c.belfry.logPos + l.length) % logSlots ∧
      (0 < l.length → t.get F.LOG_NEWEST_SEQ_SEQ = (c.belfry.logSeq + l.length - 1) % 2 ^ 32) ∧
      ∀ j r, l[j]? = some r →
        t.flashRead (logBase + 32 * ((c.belfry.logPos + j) % logSlots)) 32 = r.encode ((c.belfry.logSeq + j) % 2 ^ 32) := by
  have hd : c.logDrain = c.gathered [] [] (drained c.evq c.changeQ) :=
    c.logTake_all (List.range 65) hx (by simp; omega) (by simp; omega) (by simp; omega)
  have hlen : (c.belfry.logBuf ++ drained c.evq c.changeQ).length ≤ 1024 := by rw [List.length_append, drained_length]; omega
  have hset : ∀ (y : Chip) v a n, (y.set F.LOG_OLDEST_SEQ_SEQ v).flashRead a n = y.flashRead a n := fun _ _ _ _ => rfl
  have hb : (c.gathered [] [] (drained c.evq c.changeQ)).belfry.logBuf = c.belfry.logBuf ++ drained c.evq c.changeQ := rfl
  unfold Chip.logFlush
  rw [hd]
  dsimp only
  rw [hb]
  generalize c.belfry.logBuf ++ drained c.evq c.changeQ = l at *
  set z := (c.gathered [] [] (drained c.evq c.changeQ)).setBelfry
    { (c.gathered [] [] (drained c.evq c.changeQ)).belfry with logBuf := [] } with hz
  have hp : z.belfry.logPos = c.belfry.logPos := by rw [hz]; rfl
  have hs : z.belfry.logSeq = c.belfry.logSeq := by rw [hz]; rfl
  have hzq : (z.evq, z.changeQ, z.belfry.logBuf) = ([], [], []) := by rw [hz]; rfl
  obtain ⟨tp, ts, tq, tn, tr⟩ := z.logProgram_all (hp ▸ hpos) (hs ▸ hseq) l hlen
  rw [hzq] at tq
  simp only [Prod.mk.injEq] at tq
  obtain ⟨q1, q2, q3⟩ := tq
  rw [hp] at tp tr
  rw [hs] at ts tn tr
  generalize l.foldl Chip.logProgram z = t at *
  split
  · exact ⟨rfl, q1, q2, q3, ts, tp, tn, tr⟩
  · simp only [Chip.set_evq, Chip.set_changeQ, Chip.set_belfry, hset]
    exact ⟨trivial, q1, q2, q3, ts, tp, fun h => by rw [Chip.get_set_ne _ _ _ _ (by decide), tn h], tr⟩

theorem regAt_logRead (b : Build) : ∃ d, regAt b F.LOG_READ_SEQ_SEQ.addr = .reg d ∧ ∀ v w, d.quiesceChange v w = false := by
  cases b <;> exact ⟨_, rfl, fun _ _ => by simp [RegDef.quiesceChange]⟩

/-- A write of READ_SEQ starts a fetch. -/
theorem Chip.write32_logRead (c : Chip) (o : Origin) (w : Word) (hc : Calm c) :
    let t := c.write32 o F.LOG_READ_SEQ_SEQ.addr w
    t.rd F.LOG_READ_SEQ_SEQ.addr = w ∧ t.get F.LOG_READ_STATUS_READY = 0 ∧ t.get F.LOG_READ_STATUS_FOUND = 0 := by
  obtain ⟨d, hd, hq⟩ := regAt_logRead c.build
  have hg : ∀ x : Chip, Calm x → Calm (x.logRead w) := fun x h => ((h.wr _ _ (by decide)).set _ _ (by decide)).set _ _ (by decide)
  obtain ⟨x, -, -, he⟩ := Chip.write32_recorded (o := o) (w := w) hd (by decide) (hq _ _) hc (fun x h => hg x h)
  have hx : (c.write32 o F.LOG_READ_SEQ_SEQ.addr w) = (x.logRead w).noteMirror F.LOG_READ_SEQ_SEQ.addr := he
  dsimp only
  rw [hx, Chip.noteMirror_rd, Chip.noteMirror_get, Chip.noteMirror_get, Chip.logRead]
  refine ⟨?_, ?_, ?_⟩
  · rw [Chip.rd_set_ne _ _ _ _ (by decide), Chip.rd_set_ne _ _ _ _ (by decide), Chip.rd_wr, if_pos rfl]
  · rw [Chip.get_set_field _ _ _ _ (by decide) (by decide) (by decide) (by decide), Chip.get_set _ _ _ (by decide) (by decide)]
    rfl
  · rw [Chip.get_set _ _ _ (by decide) (by decide)]
    rfl

theorem ofLe_lt (l : List Byte) : ofLe l < 256 ^ l.length := by
  induction l with
  | nil => simp [ofLe]
  | cons b l ih =>
    have hb := b.isLt
    rw [ofLe, List.length_cons, Nat.pow_succ']
    omega

theorem ofLe_slice_lt (l : List Byte) (k : Nat) : ofLe (slice l k 4) < 2 ^ 32 :=
  (ofLe_lt _).trans_le (Nat.pow_le_pow_right (by decide) (List.length_take_le 4 (l.drop k)))

/-- A row of registers written one after another: each holds its value, and every other register what it held. -/
theorem Chip.setRow_spec (c : Chip) (f : Fld) (v : Nat → Nat) (n : Nat) (h1 : f.lo ≤ f.hi) (h2 : f.hi < 32) :
    (∀ k, k < n → ((List.range n).foldl (fun c k => c.set (f.plus (4 * k)) (v k)) c).get (f.plus (4 * k)) = v k % 2 ^ (f.hi + 1 - f.lo)) ∧
      ((List.range n).foldl (fun c k => c.set (f.plus (4 * k)) (v k)) c).belfry = c.belfry := by
  induction n with
  | zero => exact ⟨fun k h => absurd h (Nat.not_lt_zero k), rfl⟩
  | succ n ih =>
    obtain ⟨hget, hbel⟩ := ih
    rw [List.range_succ, List.foldl_append, List.foldl_cons, List.foldl_nil]
    refine ⟨fun k hk => ?_, by rw [Chip.set_belfry, hbel]⟩
    rcases Nat.lt_or_ge k n with h | h
    · rw [Chip.get_set_ne]
      · exact hget k h
      · show f.addr + 4 * k ≠ f.addr + 4 * n
        omega
    · obtain rfl : k = n := by omega
      exact Chip.get_set _ (f.plus (4 * k)) _ h1 h2

/-- A fetch ends with the record of the number asked for, where the ring holds it, or with zeros. -/
theorem Chip.logReadDone_spec (c : Chip) :
    let q := c.get F.LOG_READ_SEQ_SEQ
    let back := (c.belfry.logSeq + 2 ^ 32 - q) % 2 ^ 32
    let rec_ := c.logAt (c.belfry.logPos + logSlots - back % logSlots)
    let found := decide (1 ≤ back) && decide (back ≤ logSlots) && logValid rec_ && decide (ofLe (slice rec_ 4 4) = q)
    let t := c.logReadDone
    t.get F.LOG_READ_STATUS_READY = 1 ∧ t.belfry = c.belfry ∧ t.get F.LOG_READ_STATUS_FOUND = b2n found ∧
      ∀ k, k < 8 → t.get (F.LOG_READ_DATA.plus (4 * k)) = if found then ofLe (slice rec_ (4 * k) 4) else 0 := by
  have hat : ∀ n, c.logAt (n % logSlots) = c.logAt n := fun n => by rw [Chip.logAt, Nat.mod_mod, Chip.logAt]
  unfold Chip.logReadDone
  dsimp only
  generalize (c.belfry.logSeq + 2 ^ 32 - c.get F.LOG_READ_SEQ_SEQ) % 2 ^ 32 = back
  rw [hat]
  generalize c.logAt _ = rec_
  generalize (_ && decide (ofLe (slice rec_ 4 4) = _)) = found
  obtain ⟨hget, hbel⟩ := c.setRow_spec F.LOG_READ_DATA (fun k => if found = true then ofLe (slice rec_ (4 * k) 4) else 0) 8 (by decide) (by decide)
  generalize (List.range 8).foldl _ c = x at *
  refine ⟨Chip.get_set _ F.LOG_READ_STATUS_READY _ (by decide) (by decide), by rw [Chip.set_belfry, Chip.set_belfry, hbel], ?_, fun k hk => ?_⟩
  · rw [Chip.get_set_field _ _ _ _ (by decide) (by decide) (by decide) (by decide), Chip.get_set _ _ _ (by decide) (by decide)]
    cases found <;> rfl
  · have hne : (F.LOG_READ_DATA.plus (4 * k)).addr ≠ F.LOG_READ_STATUS_READY.addr := by
      show 0x0F2050 + 4 * k ≠ 0x0F204C
      omega
    rw [Chip.get_set_ne _ F.LOG_READ_STATUS_READY _ _ hne, Chip.get_set_ne _ F.LOG_READ_STATUS_FOUND _ _ hne, hget k hk]
    refine Nat.mod_eq_of_lt ?_
    split
    · exact ofLe_slice_lt _ _
    · decide

/-- A one-bit field holds the bit inserted. -/
theorem insBits_bit (w : Word) (k : Nat) {v : Bool} (hk : k < 32) : (insBits w k k (b2n v)).getLsbD k = v := by
  have h := bitsOf_insBits w k k (b2n v) (by omega) hk
  rw [bitsOf_bit_iff, Nat.add_sub_cancel_left] at h
  cases v
  · by_contra hne
    rw [if_pos (by simpa using hne)] at h
    exact absurd h (by decide)
  · by_contra hne
    rw [if_neg hne] at h
    exact absurd h (by decide)

/-- Settles O56: UNLOCK obeys its two paths, a flush programs what the queues gave in order, and a fetch reads the ring. -/
theorem logAndUnlock : Obligations.LogAndUnlock := by
  intro s hs
  have hf : s.chip.frozen = false := hs.notFrozen
  refine ⟨fun o v hc => ?_, fun hup he hx hq hl hseq hpos => ?_, fun o w hc => ?_, fun hup hseq => ?_⟩
  · refine Completes.serveFor o (fun c => c.writeField o F.DEBUG_CTRL_UNLOCK (b2n v)) rfl hs ?_
    obtain ⟨x, hx, he⟩ := s.chip.write32_debugCtrl o (insBits (s.chip.keepWord F.DEBUG_CTRL_UNLOCK.addr) 31 31 (b2n v)) hc
    have hk : Keeps (fun _ => ()) [F.DEBUG_CTRL_UNLOCK.addr] [E.DEBUG_UNLOCKED] s.chip x := by
      rcases hx with rfl | rfl
      · exact .refl
      · exact .logChange .refl
    have h := x.debugWrite_spec o (insBits (s.chip.keepWord F.DEBUG_CTRL_UNLOCK.addr) 31 31 (b2n v))
    rw [insBits_bit _ _ (by decide), hk.on _, hk.raw _ (by decide), ← he] at h
    exact h
  · obtain ⟨hd, h1, h2, h3, h4, h5, h6, h7⟩ := s.chip.logFlush_spec hx he hq hl hseq hpos
    have hn : (s.chip.belfry.logBuf ++ drained s.chip.evq s.chip.changeQ).length = s.chip.belfry.logBuf.length + s.chip.evq.length + s.chip.changeQ.length := by
      rw [List.length_append, drained_length, Nat.add_assoc]
    dsimp only
    rw [hd]
    rw [hn] at h4 h5 h6
    refine ⟨hn, List.take_left' rfl, fun e hmem => List.mem_append_right _ (mem_drained_event _ _ e hmem),
      fun r hmem => List.mem_append_right _ (mem_drained_change _ _ r hmem), ?_⟩
    refine Completes.serve (fun c => c.when c.belfryUp Chip.logFlush) rfl hf ?_
    simp only [Chip.when, hup, if_true]
    exact ⟨h1, h2, h3, h4, h5, h6, h7⟩
  · exact Completes.serveFor o (fun c => c.write32 o F.LOG_READ_SEQ_SEQ.addr w) rfl hs (s.chip.write32_logRead o w hc)
  · refine Completes.serve (fun c => c.when c.belfryUp Chip.logReadDone) rfl hf ?_
    simp only [Chip.when, hup, if_true]
    exact s.chip.logReadDone_spec

end Sys2Proof.Machine
end

