-- ==== Sys2Proof/Proofs/LightArithmetic.lean ====
section
-- One proof at a time: proofs that wait for the kernel side by side hold more memory than the check allows.
set_option Elab.async false
/-! PROOF. The arithmetic of light: levels, factors, dither, the share of passes and the PWM scale (R227 to R231, R245, R249, R258, R263). -/

namespace Sys2Proof.Machine

/-! ### Levels and factors (R227 to R231, R249) -/

theorem lampLevels_bound (f : Nat) (lin : List Nat) (cm : Nat → Nat → Int) (tg ag : Nat → Nat) (ageEn : Bool) (hr : Nat) :
    (lampLevels f lin cm tg ag ageEn hr).length = 3 ∧ ∀ v ∈ lampLevels f lin cm tg ag ageEn hr, v ≤ 65535 := by
  unfold lampLevels
  refine ⟨by simp, fun v hv => ?_⟩
  obtain ⟨k, -, rfl⟩ := List.mem_map.1 hv
  split
  · exact Nat.min_le_right _ _
  · exact Nat.min_le_right _ _

/-- A new emitter at full output, with its unit gains, has the level of its headroom. -/
theorem lampLevels_new (hr : Nat) (h : hr ≤ 8192) :
    lampLevels 0 [65536, 65536, 65536] uniformCm (fun _ => 16384) (fun _ => 32768) true hr = List.replicate 3 (min (khOf hr) 65535) := by
  have hk : ∀ k, k < 3 → clampNat (asr ((List.range 3).foldl (fun a j => a + uniformCm k j * (([65536, 65536, 65536].getD j 0 : Nat) : Int)) 0 + 4096) 13) 0xFFFFF = 65536 := by
    decide
  have hlev : min ((min ((min ((65536 * 16384 + 8192) / 2 ^ 14) 0xFFFFF * min 32768 (32768 + hr) + 16384) / 2 ^ 15) 0xFFFFF * khOf hr + 32768) / 2 ^ 16) 65535 =
      min (khOf hr) 65535 := by
    rw [Nat.min_eq_left (Nat.le_add_right 32768 hr)]
    have : (65536 * khOf hr + 32768) / 65536 = khOf hr := by omega
    exact congrArg (min · 65535) this
  refine List.ext_getElem (by simp [lampLevels]) fun i h1 h2 => ?_
  have hi : i < 3 := by simpa using h2
  unfold lampLevels
  simp only [List.getElem_map, List.getElem_range, if_neg (show ¬ (0 = 1) by decide), hk i hi, List.getElem_replicate, if_true]
  exact hlev

/-- A quotient that rounds towards zero stays within integers around it. -/
theorem tdiv_bounds (N D m M : Int) (hD : 0 < D) (hm : m ≤ 0) (hM : 0 ≤ M) (h1 : m * D ≤ N) (h2 : N < (M + 1) * D) :
    m ≤ N.tdiv D ∧ N.tdiv D ≤ M := by
  rcases Int.lt_or_le N 0 with h | h
  · obtain ⟨n, rfl⟩ : ∃ n, N = -n := ⟨-N, by omega⟩
    rw [Int.neg_tdiv, Int.tdiv_eq_ediv_of_nonneg (by omega)]
    have h3 : n / D ≤ -m := (Int.ediv_le_ediv hD (show n ≤ -m * D by rw [Int.neg_mul]; omega)).trans_eq (Int.mul_ediv_cancel _ (by omega))
    have h4 : 0 ≤ n / D := Int.ediv_nonneg (by omega) (by omega)
    omega
  · rw [Int.tdiv_eq_ediv_of_nonneg h]
    have h3 : N / D < M + 1 := Int.ediv_lt_of_lt_mul hD h2
    have h4 : 0 ≤ N / D := Int.ediv_nonneg h (by omega)
    omega

/-- The factor between two stored ones lies between them. -/
theorem tempSegment_bounds (a b g h : Nat) (x D : Int) (hD : 0 < D) (h0 : 0 ≤ x) (h1 : x ≤ D) (hg : a ≤ g ∧ g ≤ b) (hh : a ≤ h ∧ h ≤ b) :
    a ≤ ((g : Int) + Int.tdiv (((h : Int) - g) * x + Int.tdiv D 2) D).toNat ∧ ((g : Int) + Int.tdiv (((h : Int) - g) * x + Int.tdiv D 2) D).toNat ≤ b := by
  obtain ⟨e, he, he0, he1⟩ : ∃ e, Int.tdiv D 2 = e ∧ 0 ≤ e ∧ e < D := ⟨_, rfl, by rw [Int.tdiv_eq_ediv_of_nonneg] <;> omega, by rw [Int.tdiv_eq_ediv_of_nonneg] <;> omega⟩
  rw [he]
  have key : min ((h : Int) - g) 0 ≤ Int.tdiv (((h : Int) - g) * x + e) D ∧ Int.tdiv (((h : Int) - g) * x + e) D ≤ max ((h : Int) - g) 0 := by
    refine tdiv_bounds _ _ _ _ hD (Int.min_le_right _ _) (Int.le_max_right _ _) ?_ ?_
    · rcases Int.le_total ((h : Int) - g) 0 with hs | hs
      · rw [Int.min_eq_left hs]
        nlinarith
      · rw [Int.min_eq_right hs]
        nlinarith
    · rcases Int.le_total ((h : Int) - g) 0 with hs | hs
      · rw [Int.max_eq_right hs]
        nlinarith
      · rw [Int.max_eq_left hs]
        nlinarith
  omega

theorem tempFactor_spec (g : Nat → Nat) (t : Int) :
    (t ≤ -320 → tempFactor g t = g 0) ∧ (1360 ≤ t → tempFactor g t = g 3) ∧
      ∀ a b : Nat, (∀ i, i < 4 → a ≤ g i ∧ g i ≤ b) → a ≤ tempFactor g t ∧ tempFactor g t ≤ b := by
  have e0 : setTemps.getD 0 0 = -320 := rfl
  have e1 : setTemps.getD 1 0 = 320 := rfl
  have e2 : setTemps.getD 2 0 = 880 := rfl
  have e3 : setTemps.getD 3 0 = 1360 := rfl
  unfold tempFactor
  simp only [Nat.zero_add, Nat.reduceAdd, e0, e1, e2, e3]
  refine ⟨fun h => if_pos h, fun h => ?_, fun a b hb => ?_⟩
  · rw [if_neg (by omega), if_neg (by omega), if_neg (by omega), if_neg (by omega)]
  · split
    · exact hb 0 (by decide)
    · split
      · exact tempSegment_bounds a b _ _ _ _ (by decide) (by omega) (by omega) (hb 0 (by decide)) (hb 1 (by decide))
      · split
        · exact tempSegment_bounds a b _ _ _ _ (by decide) (by omega) (by omega) (hb 1 (by decide)) (hb 2 (by decide))
        · split
          · exact tempSegment_bounds a b _ _ _ _ (by decide) (by omega) (by omega) (hb 2 (by decide)) (hb 3 (by decide))
          · exact hb 3 (by decide)

theorem ageingGain_bounds (dose lum : Nat → Nat) (d : Nat) : 32768 ≤ ageingGain dose lum d ∧ ageingGain dose lum d ≤ 40960 := by
  unfold ageingGain
  exact ⟨Nat.le_max_left _ _, Nat.max_le.2 ⟨by decide, Nat.min_le_left _ _⟩⟩

/-! ### Dither (R258) -/

theorem bitrev8_bitrev8 : ∀ v, v < 256 → bitrev8 (bitrev8 v) = v ∧ bitrev8 v < 256 := by decide +kernel

/-- In 256 bars running an emitter's dither takes each value once. -/
theorem dither_once (b e d : Nat) (hd : d < 256) :
    ∃ i, i < 256 ∧ dither (b + i) e = d ∧ ∀ j, j < 256 → dither (b + j) e = d → j = i := by
  have hrev := bitrev8_bitrev8
  have hval : ∀ j, dither (b + j) e = d ↔ (b + j + 157 * e) % 256 = bitrev8 d := by
    intro j
    have hlt : (b + j + 157 * e) % 256 < 256 := Nat.mod_lt _ (by decide)
    unfold dither
    constructor
    · intro h
      rw [← (hrev _ hlt).1, h]
    · intro h
      rw [h, (hrev d hd).1]
  have hr := (hrev d hd).2
  refine ⟨(bitrev8 d + 256 - (b + 157 * e) % 256) % 256, Nat.mod_lt _ (by decide), (hval _).2 (by omega), fun j hj h => ?_⟩
  have := (hval j).1 h
  omega

/-! ### Passes and the PWM scale (R245, R263) -/

/-- A full level at a full scale asks for every count of every window. -/
theorem pwmTotal_full (spl : Nat → Nat) (w p : Nat) (hw : 4 ≤ w) (hp : 0 < p) : pwmTotal spl 65535 w p 65536 = 256 * (w * p) := by
  have ht : 65535 * w * p * 65536 / 16776960 = 256 * (w * p) := by
    rw [show 65535 * w * p * 65536 = 16776960 * (256 * (w * p)) by ring, Nat.mul_div_cancel_left _ (by decide)]
  have hm : 256 * (w * p) / p = 256 * w := by
    rw [← Nat.mul_assoc, Nat.mul_div_cancel _ hp]
  unfold pwmTotal
  dsimp only
  rw [ht, hm, if_neg (by omega)]

theorem pwmOn_full (spl : Nat → Nat) (w p d k : Nat) (hw : 4 ≤ w) (hp : 0 < p) (hd : d < 256) : pwmOn spl 65535 w p 65536 d k = w := by
  have ht : (256 * (w * p) + d) / 256 = w * p := by omega
  unfold pwmOn
  dsimp only
  rw [pwmTotal_full spl w p hw hp, ht, if_pos (Nat.mul_le_mul_right p (by omega)), Nat.mul_div_cancel _ hp, Nat.mul_mod_left]
  simp

theorem dimOf_le (b bx : Nat) : (dimOf b bx).2 ≤ 65536 := by
  unfold dimOf
  dsimp only
  generalize 255 * bqOf b = q
  generalize ceilDiv (255 * bqOf bx) 65536 = cx
  have hc : q ≤ 65536 * max (ceilDiv q 65536) cx := by
    unfold ceilDiv
    omega
  generalize max (ceilDiv q 65536) cx = c at hc
  rcases Nat.eq_zero_or_pos c with rfl | h
  · simp
  · have : (q + c / 2) / c < 65537 := (Nat.div_lt_iff_lt_mul h).2 (by omega)
    omega

/-- The counts of a run of passes add up to its share of the total, within one count. -/
theorem sum_spread (t p a k : Nat) (f : Nat → Nat) (hp : 0 < p) (hf : ∀ i, f i = t / p + ((i + 1) * (t % p) / p - i * (t % p) / p)) :
    ((List.range k).map (fun i => f (a + i))).sum + a * (t % p) / p = k * (t / p) + (a + k) * (t % p) / p := by
  induction k with
  | zero => simp
  | succ k ih =>
    have hmono : (a + k) * (t % p) / p ≤ (a + k + 1) * (t % p) / p := Nat.div_le_div_right (Nat.mul_le_mul_right _ (Nat.le_succ _))
    rw [List.range_succ, List.map_append, List.sum_append, List.map_singleton, List.sum_singleton, hf (a + k), Nat.add_mul k 1, Nat.one_mul,
      ← Nat.add_assoc a k 1]
    omega

/-- The share that a run of passes has of the total. -/
theorem pwmOn_share (spl : Nat → Nat) (l w p sc d a k : Nat) (hp : 0 < p) (h2 : 2 * p ≤ (pwmTotal spl l w p sc + d) / 256) :
    let t := (pwmTotal spl l w p sc + d) / 256
    let sum := ((List.range k).map (fun i => pwmOn spl l w p sc d (a + i))).sum
    p * sum < k * t + p ∧ k * t < p * sum + p := by
  have hf : ∀ i, pwmOn spl l w p sc d i = (pwmTotal spl l w p sc + d) / 256 / p +
      ((i + 1) * ((pwmTotal spl l w p sc + d) / 256 % p) / p - i * ((pwmTotal spl l w p sc + d) / 256 % p) / p) := fun i => by
    unfold pwmOn
    exact if_pos h2
  dsimp only
  have hs := sum_spread _ p a k _ hp hf
  generalize (pwmTotal spl l w p sc + d) / 256 = t at *
  generalize ((List.range k).map (fun i => pwmOn spl l w p sc d (a + i))).sum = sum at *
  have ht := Nat.div_add_mod t p
  generalize t % p = r at *
  generalize t / p = q at *
  subst ht
  have h1 := Nat.div_add_mod (a * r) p
  have h3 := Nat.div_add_mod ((a + k) * r) p
  have h4 := Nat.mod_lt (a * r) hp
  have h5 := Nat.mod_lt ((a + k) * r) hp
  generalize a * r / p = x at *
  generalize (a + k) * r / p = y at *
  have e : p * sum + p * x = p * (k * q) + p * y := by rw [← Nat.mul_add, hs, Nat.mul_add]
  have e2 : (a + k) * r = a * r + k * r := Nat.add_mul a k r
  have e3 : k * (p * q + r) = p * (k * q) + k * r := by ring
  omega

/-- Settles O37: the bounds and sums of the arithmetic, clause by clause. -/
theorem arithmeticOfLight : Obligations.ArithmeticOfLight := by
  refine ⟨lampLevels_bound, lampLevels_new, fun c cfg eng lamp slot => ⟨fun h => ?_, fun h => ?_⟩, tempFactor_spec, ageingGain_bounds, dither_once,
    fun spl l w p sc d a k hp _ => fun h2 => pwmOn_share spl l w p sc d a k hp h2, fun spl w p d k hw hp hd _ => pwmOn_full spl w p d k hw hp hd, dimOf_le⟩
  · unfold Chip.lampValue
    exact if_pos h
  · unfold Chip.lampValue
    dsimp only
    rw [if_neg (by omega), if_pos h]

end Sys2Proof.Machine
end

