-- ==== Sys2Proof/Proofs/ClapperUnits.lean ====
section
-- One proof at a time: proofs that wait for the kernel side by side hold more memory than the check allows.
set_option Elab.async false
/-! PROOF. What an operation holds field by field, and the clapper and unit states (R276 to R281, R300). -/

namespace Sys2Proof.Machine

/-! ### What an operation holds, field by field

`Keeps` follows whole registers. Where an operation writes one field of a status register and another is asked for, `Holds ρ Fs` follows the fields `Fs`. -/

/-- A field lies apart from another, in another register or at other bits. -/
def Fld.apart (g f : Fld) : Bool :=
  decide (g.addr ≠ f.addr) || (decide (f.lo ≤ f.hi) && decide (f.hi < 32) && decide (g.lo ≤ g.hi) && (decide (g.hi < f.lo) || decide (f.hi < g.lo)))

theorem Chip.get_set_apart (c : Chip) (f g : Fld) (v : Nat) (h : g.apart f = true) : (c.set f v).get g = c.get g := by
  simp only [Fld.apart, Bool.or_eq_true, Bool.and_eq_true, decide_eq_true_eq] at h
  rcases h with h | ⟨⟨⟨h1, h2⟩, h3⟩, h4⟩
  · exact Chip.get_set_ne _ _ _ _ h
  · exact Chip.get_set_field _ _ _ _ h1 h2 h3 h4

structure Holds {α : Type} (ρ : Chip → α) (Fs : List Fld) (c d : Chip) : Prop where
  view : ρ d.still = ρ c.still
  build : d.build = c.build
  gets : ∀ f ∈ Fs, d.get f = c.get f
  ctrls : d.ctrls = c.ctrls
  pend : PendUp c d

/-- Fields that no event writes to. -/
def calmFields (Fs : List Fld) : Bool := Fs.all (fun f => calmReg f.addr)

namespace Holds
variable {α : Type} {ρ : Chip → α} {Fs : List Fld} {c d e : Chip}

theorem refl : Holds ρ Fs c c := ⟨rfl, rfl, fun _ _ => rfl, rfl, PendUp.refl c⟩

theorem trans (h : Holds ρ Fs c d) (k : Holds ρ Fs d e) : Holds ρ Fs c e :=
  ⟨k.view.trans h.view, k.build.trans h.build, fun f hf => (k.gets f hf).trans (h.gets f hf), k.ctrls.trans h.ctrls, h.pend.trans k.pend⟩

theorem ite {p : Prop} [Decidable p] (h : Holds ρ Fs c d) (k : Holds ρ Fs c e) : Holds ρ Fs c (if p then d else e) := by
  split
  · exact h
  · exact k

theorem of (h : Holds ρ Fs c d) (hv : ρ e.still = ρ d.still) (hr : e.regs = d.regs) (hb : e.build = d.build) : Holds ρ Fs c e := by
  have k : Keeps ρ (Fs.map Fld.addr) [] d e := Keeps.refl.of hv hr hb
  exact h.trans ⟨hv, hb, fun f hf => k.get f (List.mem_map_of_mem hf), k.ctrls, k.pend⟩

theorem set {f : Fld} {v : Nat} (h : Holds ρ Fs c d) (hF : Fs.all (fun g => g.apart f) = true := by decide) (hf : plainReg f.addr = true := by decide) :
    Holds ρ Fs c (d.set f v) := by
  have k : Keeps ρ [] [] d (d.set f v) := Keeps.refl.set (by simp) hf
  exact h.trans ⟨rfl, rfl, fun g hg => Chip.get_set_apart _ _ _ _ (List.all_eq_true.1 hF g hg), k.ctrls, k.pend⟩

theorem bump {f : Fld} {n : Nat} (h : Holds ρ Fs c d) (hF : Fs.all (fun g => g.apart f) = true := by decide) (hf : plainReg f.addr = true := by decide) :
    Holds ρ Fs c (d.bump f n) := h.set hF hf

theorem bumpSat {f : Fld} {n : Nat} (h : Holds ρ Fs c d) (hF : Fs.all (fun g => g.apart f) = true := by decide) (hf : plainReg f.addr = true := by decide) :
    Holds ρ Fs c (d.bumpSat f n) := h.set hF hf

theorem calm_addr (h : calmFields Fs = true) : (Fs.map Fld.addr).all calmReg = true := by
  simp only [calmFields, List.all_eq_true] at h
  simp only [List.all_map, List.all_eq_true]
  exact h

theorem raise {x : Ev} (h : Holds ρ Fs c d) (hF : calmFields Fs = true := by decide) : Holds ρ Fs c (d.raise x) := by
  have k : Keeps ρ (Fs.map Fld.addr) [] d (d.raise x) := Keeps.refl.raise (calm_addr hF)
  exact h.trans ⟨k.view, k.build, fun f hf => k.get f (List.mem_map_of_mem hf), k.ctrls, k.pend⟩

theorem cond {x : Ev} {b : Bool} (h : Holds ρ Fs c d) (hF : calmFields Fs = true := by decide) (hx : x.bit < 32 := by decide) :
    Holds ρ Fs c (d.cond x b) := by
  have k : Keeps ρ (Fs.map Fld.addr) [] d (d.cond x b) := Keeps.refl.cond (calm_addr hF) rfl hx
  exact h.trans ⟨k.view, k.build, fun f hf => k.get f (List.mem_map_of_mem hf), k.ctrls, k.pend⟩

theorem emit {o : Output} (h : Holds ρ Fs c d) : Holds ρ Fs c (d.emit o) :=
  h.of (by rw [Chip.emit_still]) (Chip.emit_regs _ _) (by unfold Chip.emit; split <;> rfl)

theorem setRedun {r : RedunSt} (h : Holds ρ Fs c d) (hv : ρ (d.setRedun r).still = ρ d.still := by rfl) : Holds ρ Fs c (d.setRedun r) := h.of hv rfl rfl

theorem setMirror {r : MirrorSt} (h : Holds ρ Fs c d) (hv : ρ (d.setMirror r).still = ρ d.still := by rfl) : Holds ρ Fs c (d.setMirror r) := h.of hv rfl rfl

/-- Less of the block, and fewer fields. -/
theorem weaken {β : Type} {ρ' : Chip → β} {Fs' : List Fld} (g : α → β) (h : Holds ρ Fs c d) (hg : ∀ x, ρ' x = g (ρ x) := by exact fun _ => rfl)
    (hF : Fs' ⊆ Fs := by decide) : Holds ρ' Fs' c d :=
  ⟨by rw [hg, hg, h.view], h.build, fun f hf => h.gets f (hF hf), h.ctrls, h.pend⟩

theorem get (h : Holds ρ Fs c d) (f : Fld) (hf : f ∈ Fs := by decide) : d.get f = c.get f := h.gets f hf

theorem on (h : Holds ρ Fs c d) (f : Fld) (hf : f ∈ Fs := by decide) : d.on f = c.on f := by rw [Chip.on, h.get f hf, Chip.on]

end Holds

/-- The accesses that wait on the paths, and the memories. -/
def pathView (c : Chip) : HostSt × MemSt := (c.host, c.mem)

theorem Holds.calm {Fs : List Fld} {c d : Chip} (h : Holds pathView Fs c d) (k : Calm c) : Calm d := by
  have e : d.still.host = c.still.host := congrArg Prod.fst h.view
  have hh : d.host = { c.host with alertLow := d.host.alertLow } :=
    (show d.host = { d.still.host with alertLow := d.host.alertLow } from rfl).trans (by rw [e]; rfl)
  exact ⟨(Chip.commitPages_congr h.ctrls).trans k.1, (Chip.pathsOpen_congr h.build hh (congrArg Prod.snd h.view)).trans k.2⟩

/-! ### Unit states (R276) -/

theorem redun_hasPage {c : Chip} (h : c.build = .S) : c.hasPage 0x0C0 = true := by unfold Chip.hasPage; rw [h]; decide +kernel

theorem mirror_hasPage {c : Chip} (h : c.build = .S) : c.hasPage 0x0C1 = true := by unfold Chip.hasPage; rw [h]; decide +kernel

/-- What a change of the unit's state leaves alone. -/
def unitView (c : Chip) : RedunSt × MirrorSt × Bool × AonSt × ResetSt := (c.redun, c.mirror, c.actBit, c.aon, c.rst)

/-- The bits of REDUN.STATUS that the lines show, and EN. -/
def lineFields : List Fld := [F.REDUN_STATUS_ACTIVE, F.REDUN_STATUS_OWN, F.REDUN_STATUS_PEER, F.EN.pg pgRedun]

theorem Holds.pairShow {α : Type} {ρ : Chip → α} {c d : Chip} {Fs : List Fld} (h : Holds ρ Fs c d)
    (hF : Fs.all (fun g => g.apart F.REDUN_STATUS_PAIR_LOCK) = true := by decide) (hc : calmFields Fs = true := by decide) :
    Holds ρ Fs c d.pairShow := .ite h (.cond (.set h hF) hc)

theorem Holds.requestFull {α : Type} {ρ : Chip → α} {c d : Chip} {Fs : List Fld} (h : Holds ρ Fs c d) : Holds ρ Fs c d.requestFull := .ite (.emit h) h

theorem Holds.contend {α : Type} {ρ : Chip → α} {c d : Chip} {Fs : List Fld} (h : Holds ρ Fs c d) (hc : calmFields Fs = true := by decide) :
    Holds ρ Fs c d.contend := .ite (.raise h hc) h

/-- What follows the write of a unit's new state. -/
theorem Holds.unitStateShown {α : Type} {ρ : Chip → α} {c d : Chip} {Fs : List Fld} {n : Nat} (h : Holds ρ Fs c (d.set (F.STATE.pg pgRedun) n))
    (hF : Fs.all (fun g => g.apart F.REDUN_STATUS_PAIR_LOCK) = true := by decide) (hc : calmFields Fs = true := by decide) :
    Holds ρ Fs c (d.setUnitState n) := by
  have h0 := h.pairShow hF hc
  unfold Chip.setUnitState
  extract_lets x
  exact .ite h0 (.ite h0.requestFull (.ite (h0.contend hc) h0))

/-- A unit that has entered a state: what its lines show stays. -/
theorem Holds.setUnitState {c d : Chip} {n : Nat} (h : Holds unitView lineFields c d) : Holds unitView lineFields c (d.setUnitState n) := by
  exact .unitStateShown (.set h)

theorem Chip.setUnitState_state (c : Chip) (n : Nat) (hn : n < 16) : (c.setUnitState n).unitState = n := by
  have h : Holds (fun _ => ()) [F.STATE.pg pgRedun] (c.set (F.STATE.pg pgRedun) n) (c.setUnitState n) := .unitStateShown .refl
  rw [Chip.unitState, Chip.state, h.get (F.STATE.pg pgRedun), Chip.get_set _ _ _ (by decide) (by decide)]
  exact Nat.mod_eq_of_lt hn

/-- The state that a unit goes to where it is not active. -/
def Chip.idleState (c : Chip) : Nat := if c.en pgRedun then (if c.mirror.whole then rsStandby else rsSyncing) else rsSolo

theorem Chip.toStandby_eq (c : Chip) : c.toStandby = c.setUnitState c.idleState := by
  unfold Chip.toStandby Chip.idleState
  by_cases h : c.en pgRedun = true <;> simp [h]

theorem Chip.idleState_lt (c : Chip) : c.idleState < 16 := by
  unfold Chip.idleState
  split
  · split <;> decide
  · decide

theorem Holds.toStandby {c d : Chip} (h : Holds unitView lineFields c d) : Holds unitView lineFields c d.toStandby := by
  rw [Chip.toStandby_eq]
  exact h.setUnitState

/-! ### The interlock (R278, R281) -/

/-- What the interlock leaves alone: the lines, what they show, and whether a full set has been applied. -/
def clapView (c : Chip) : RedunSt × Bool × Bool × AonSt × ResetSt := (c.redun, c.mirror.whole, c.mirror.synced, c.aon, c.rst)

def clapFields : List Fld := [F.REDUN_STATUS_OWN, F.REDUN_STATUS_PEER, F.EN.pg pgRedun]

/-- A unit that is ACTIVE no more: its event, and what it was sending. -/
def Chip.activeFallen (c : Chip) : Chip :=
  let d := ({ c with actBit := false }.set F.REDUN_STATUS_ACTIVE 0).raise E.CLAP_LOST
  (d.setMirror { d.mirror with sending := none, fullLeft := none }).set F.MIRROR_STATUS_SENDING 0

theorem Chip.activeFallen_spec (c : Chip) (hb : c.build = .S) :
    Holds clapView clapFields c c.activeFallen ∧ c.activeFallen.actBit = false ∧ c.activeFallen.pend E.CLAP_LOST = true ∧
      c.activeFallen.on F.REDUN_STATUS_ACTIVE = false := by
  unfold Chip.activeFallen
  have h0 : Holds clapView clapFields c (({ c with actBit := false } : Chip).set F.REDUN_STATUS_ACTIVE 0) := .set (Holds.refl.of rfl rfl rfl)
  have ha : (({ c with actBit := false } : Chip).set F.REDUN_STATUS_ACTIVE 0).get F.REDUN_STATUS_ACTIVE = 0 :=
    Chip.get_set _ F.REDUN_STATUS_ACTIVE 0 (by decide) (by decide)
  have h1 : (({ c with actBit := false } : Chip).set F.REDUN_STATUS_ACTIVE 0).actBit = false := rfl
  generalize ({ c with actBit := false } : Chip).set F.REDUN_STATUS_ACTIVE 0 = x at *
  have hp : (x.raise E.CLAP_LOST).pend E.CLAP_LOST = true := x.raise_pend _ (redun_hasPage (h0.build.trans hb)) (by decide)
  have hq : (x.raise E.CLAP_LOST).actBit = false := (x.quiet_raise _).actBit.trans h1
  have hk : Holds clapView clapFields x (x.raise E.CLAP_LOST) := .raise .refl
  have hg := Chip.raise_get_of x E.CLAP_LOST F.REDUN_STATUS_ACTIVE (by decide)
  dsimp only
  generalize x.raise E.CLAP_LOST = y at *
  have hm : Holds (fun c => c.actBit) [F.REDUN_STATUS_ACTIVE] y
      ((y.setMirror { y.mirror with sending := none, fullLeft := none }).set F.MIRROR_STATUS_SENDING 0) := .set (.setMirror .refl)
  refine ⟨(h0.trans hk).trans (.set (.setMirror .refl)), hm.view.trans hq, hm.pend _ hp, ?_⟩
  rw [hm.on F.REDUN_STATUS_ACTIVE, Chip.on, hg, ha]
  rfl

/-- An ACTIVE unit that the interlock does not hold any more falls, and says so. -/
theorem Chip.interlock_spec (c : Chip) (hb : c.build = .S) :
    Holds clapView clapFields c c.interlock ∧
      ((c.redun.own && !c.redun.peer) = false → c.interlock.actBit = false ∧
        (c.actBit = true → c.interlock.pend E.CLAP_LOST = true ∧ c.interlock.on F.REDUN_STATUS_ACTIVE = false)) ∧
      ((c.redun.own && !c.redun.peer) = true → c.interlock = c) := by
  have he : c.interlock = if c.actBit && !(c.redun.own && !c.redun.peer) then
      (if c.activeFallen.unitState = rsActive then c.activeFallen.toStandby else c.activeFallen) else c := rfl
  rw [he]
  obtain ⟨h0, h1, h2, h3⟩ := c.activeFallen_spec hb
  generalize c.activeFallen = x at *
  have hk : Holds unitView lineFields x (if x.unitState = rsActive then x.toStandby else x) := .ite (.toStandby .refl) .refl
  generalize (if x.unitState = rsActive then x.toStandby else x) = y at *
  have hact : y.actBit = x.actBit := congrArg (fun v => v.2.2.1) hk.view
  refine ⟨.ite (h0.trans (hk.weaken (fun v => (v.1, v.2.1.whole, v.2.1.synced, v.2.2.2)))) .refl, fun h => ?_, fun h => ?_⟩
  · rw [h]
    cases ha : c.actBit
    · exact ⟨ha, fun h => absurd h (by decide)⟩
    · exact ⟨hact.trans h1, fun _ => ⟨hk.pend _ h2, (hk.on _).trans h3⟩⟩
  · rw [h]
    simp

/-! ### The lines (R276 to R281, R300) -/

theorem Chip.contend_pend (c : Chip) (hb : c.build = .S) (h : (c.redun.peer && (c.redun.own || c.unitState = rsSolo)) = true) :
    c.contend.pend E.CLAP_CONTEND = true := by
  unfold Chip.contend
  rw [if_pos h]
  exact c.raise_pend _ (redun_hasPage hb) (by decide)

/-- CLAP_PEER changes: what it shows, and, asserted, the end of ACTIVE and a contention. -/
theorem Chip.peerLine_spec (c : Chip) (level : Bool) (hb : c.build = .S) :
    (c.peerLine level).redun.peer = level ∧ (c.redun.peer ≠ level → (c.peerLine level).on F.REDUN_STATUS_PEER = level ∧
      (level = true → (c.peerLine level).actBit = false ∧
        (c.actBit = true → (c.peerLine level).pend E.CLAP_LOST = true ∧ (c.peerLine level).on F.REDUN_STATUS_ACTIVE = false) ∧
        (c.redun.own = true → (c.peerLine level).pend E.CLAP_CONTEND = true))) := by
  by_cases hp : c.redun.peer = level
  · have he : c.peerLine level = c := by simp [Chip.peerLine, hp]
    rw [he]
    exact ⟨hp, fun h => absurd hp h⟩
  have hx : ∃ x, x = (c.setRedun { c.redun with peer := level }).set F.REDUN_STATUS_PEER (b2n level) := ⟨_, rfl⟩
  obtain ⟨x, hx⟩ := hx
  have he : c.peerLine level = if level then x.interlock.contend else x.interlock := by
    rw [hx]
    unfold Chip.peerLine
    rw [if_neg (by simp [hb, hp])]
  have x1 : x.redun.peer = level ∧ x.redun.own = c.redun.own := by rw [hx]; exact ⟨rfl, rfl⟩
  have x2 : x.build = .S := by rw [hx]; exact hb
  have x3 : x.actBit = c.actBit := by rw [hx]; rfl
  have x4 : x.on F.REDUN_STATUS_PEER = level := by
    rw [hx, Chip.on, Chip.get_set _ _ _ (by decide) (by decide)]
    cases level <;> rfl
  clear hx
  obtain ⟨hk, hoff, -⟩ := x.interlock_spec x2
  rw [he]
  generalize x.interlock = y at *
  have hr : y.redun = x.redun := congrArg Prod.fst hk.view
  cases level
  · simp only [Bool.false_eq_true, if_false]
    exact ⟨by rw [hr, x1.1], fun _ => ⟨(hk.on _).trans x4, fun h => absurd h (by decide)⟩⟩
  · simp only [if_true]
    have hc : Holds (fun c => (c.redun, c.actBit)) [F.REDUN_STATUS_PEER, F.REDUN_STATUS_ACTIVE] y y.contend := Holds.refl.contend
    have hcr : y.contend.redun = y.redun := congrArg Prod.fst hc.view
    have hca : y.contend.actBit = y.actBit := congrArg Prod.snd hc.view
    obtain ⟨h1, h2⟩ := hoff (by rw [x1.1]; cases x.redun.own <;> rfl)
    refine ⟨by rw [hcr, hr, x1.1], fun _ => ⟨(hc.on _).trans ((hk.on _).trans x4), fun _ => ⟨hca.trans h1, fun ha => ?_, fun ho => ?_⟩⟩⟩
    · obtain ⟨h3, h4⟩ := h2 (x3.trans ha)
      exact ⟨hc.pend _ h3, (hc.on _).trans h4⟩
    · exact y.contend_pend (hk.build.trans x2) (by rw [hr, x1.1, x1.2, ho]; rfl)

/-- CLAP_OWN as the unit drives it, before what follows of it. -/
def Chip.ownDriven (c : Chip) (b : Bool) : Chip :=
  ((c.setRedun { c.redun with own := b, window := b, claimed := false }).set F.REDUN_STATUS_OWN (b2n b)).emit (.clapOwn b)

theorem Chip.ownDriven_spec (c : Chip) (b : Bool) :
    (c.ownDriven b).redun = { c.redun with own := b, window := b, claimed := false } ∧ (c.ownDriven b).on F.REDUN_STATUS_OWN = b ∧
      (c.rst.extest = false → (c.ownDriven b).out = c.out ++ [.clapOwn b]) ∧
      Holds (fun c => (c.mirror, c.actBit, c.aon)) [F.EN.pg pgRedun, F.STATE.pg pgRedun] c (c.ownDriven b) := by
  unfold Chip.ownDriven
  have hk : Holds (fun c => (c.mirror, c.actBit, c.aon)) [F.EN.pg pgRedun, F.STATE.pg pgRedun] c
      ((c.setRedun { c.redun with own := b, window := b, claimed := false }).set F.REDUN_STATUS_OWN (b2n b)) := .set (.setRedun .refl)
  have hr : ((c.setRedun { c.redun with own := b, window := b, claimed := false }).set F.REDUN_STATUS_OWN (b2n b)).redun =
      { c.redun with own := b, window := b, claimed := false } := rfl
  have ho : ((c.setRedun { c.redun with own := b, window := b, claimed := false }).set F.REDUN_STATUS_OWN (b2n b)).get F.REDUN_STATUS_OWN = b2n b := by
    rw [Chip.get_set _ _ _ (by decide) (by decide)]
    cases b <;> rfl
  have hout : ((c.setRedun { c.redun with own := b, window := b, claimed := false }).set F.REDUN_STATUS_OWN (b2n b)).out = c.out := rfl
  have hx : ((c.setRedun { c.redun with own := b, window := b, claimed := false }).set F.REDUN_STATUS_OWN (b2n b)).rst = c.rst := rfl
  generalize (c.setRedun { c.redun with own := b, window := b, claimed := false }).set F.REDUN_STATUS_OWN (b2n b) = x at *
  refine ⟨?_, ?_, fun h => ?_, .emit hk⟩
  · rw [← hr]
    unfold Chip.emit
    split <;> rfl
  · rw [Chip.on, Chip.get, Chip.emit_rd, ← Chip.get, ho]
    cases b <;> rfl
  · unfold Chip.emit
    rw [hx, h, hout]
    rfl

theorem Chip.setOwn_eq (c : Chip) (b : Bool) (h : c.redun.own ≠ b) :
    c.setOwn b = if b then (c.ownDriven b).interlock.contend else (c.ownDriven b).interlock := by
  unfold Chip.setOwn
  rw [if_neg h]
  rfl

/-- CLAP_OWN driven by a unit whose peer does not drive its own. -/
theorem Chip.setOwn_alone (c : Chip) (hb : c.build = .S) (hp : c.redun.peer = false) (ho : c.redun.own = false) : c.setOwn true = c.ownDriven true := by
  obtain ⟨hr, -, -, hk⟩ := c.ownDriven_spec true
  rw [c.setOwn_eq true (by rw [ho]; decide), if_pos rfl]
  generalize c.ownDriven true = x at *
  obtain ⟨-, -, hi⟩ := x.interlock_spec (hk.build.trans hb)
  have hp' : x.redun.peer = false := by rw [hr]; exact hp
  have ho' : x.redun.own = true := by rw [hr]
  rw [hi (by rw [hp', ho']; rfl), Chip.contend, hp']
  rfl

/-- CLAP_OWN released: a unit that was ACTIVE is not any more. -/
theorem Chip.setOwn_released (c : Chip) (hb : c.build = .S) (ho : c.redun.own = true) :
    (c.setOwn false).redun.own = false ∧ (c.setOwn false).on F.REDUN_STATUS_OWN = false ∧ (c.setOwn false).actBit = false ∧
      Holds (fun c => c.mirror.whole) [F.EN.pg pgRedun] c (c.setOwn false) := by
  obtain ⟨hr, hon, -, hk⟩ := c.ownDriven_spec false
  rw [c.setOwn_eq false (by rw [ho]; decide), if_neg (by decide)]
  generalize c.ownDriven false = x at *
  obtain ⟨hi, hoff, -⟩ := x.interlock_spec (hk.build.trans hb)
  have ho' : x.redun.own = false := by rw [hr]
  generalize x.interlock = y at *
  have hyr : y.redun = x.redun := congrArg Prod.fst hi.view
  exact ⟨by rw [hyr, ho'], (hi.on _).trans hon, (hoff (by rw [ho']; rfl)).1,
    (hk.weaken (fun v => v.1.whole)).trans (hi.weaken (fun v => v.2.1))⟩

/-- A release of CLAP_OWN, whether the unit drives it or not. -/
theorem Chip.setOwn_false (c : Chip) (hb : c.build = .S) :
    (c.setOwn false).redun.own = false ∧ Holds (fun c => c.mirror.whole) [F.EN.pg pgRedun] c (c.setOwn false) := by
  cases ho : c.redun.own
  · have he : c.setOwn false = c := by rw [Chip.setOwn, if_pos ho]
    rw [he]
    exact ⟨ho, .refl⟩
  · obtain ⟨h1, -, -, h2⟩ := c.setOwn_released hb ho
    exact ⟨h1, h2⟩

/-- A state is entered without a word on the outside where the unit asks for nothing and sees no contention. -/
theorem Chip.setUnitState_claiming_out (c : Chip) : (c.setUnitState rsClaiming).out = c.out := by
  have hp : ∀ x : Chip, x.pairShow.out = x.out := fun x => by
    unfold Chip.pairShow
    split
    · rfl
    · unfold Chip.cond
      simp
      split <;> rfl
  unfold Chip.setUnitState
  dsimp only
  rw [if_neg (show ¬ rsClaiming = rsSyncing by decide), if_neg (show ¬ rsClaiming = rsSolo by decide), ite_self, hp]
  rfl

/-- A claim: the state, the line and the window of it. -/
theorem Chip.claim_spec (c : Chip) (hm : c.mayClaim = true) :
    c.claim.unitState = rsClaiming ∧ c.claim.redun.own = true ∧ c.claim.redun.window = true ∧ c.claim.redun.claimed = false ∧
      (c.rst.extest = false → c.claim.out = c.out ++ [.clapOwn true]) := by
  obtain ⟨hb, hp, ho⟩ : c.build = .S ∧ c.redun.peer = false ∧ c.redun.own = false := by
    unfold Chip.mayClaim at hm
    simp only [Bool.and_eq_true, Bool.not_eq_true', decide_eq_true_eq] at hm
    obtain ⟨⟨⟨⟨⟨⟨⟨h1, -⟩, -⟩, -⟩, h2⟩, h3⟩, -⟩, -⟩ := hm
    exact ⟨h1, h2, h3⟩
  have hk : Holds unitView lineFields c (c.setUnitState rsClaiming) := Holds.refl.setUnitState
  have hs := c.setUnitState_state rsClaiming (by decide)
  have hout := c.setUnitState_claiming_out
  unfold Chip.claim
  rw [if_neg (by rw [hm]; decide)]
  dsimp only
  generalize c.setUnitState rsClaiming = x at *
  have hr : x.redun = c.redun := congrArg Prod.fst hk.view
  have hx : x.rst = c.rst := congrArg (fun v => v.2.2.2.2) hk.view
  have hy : ∃ y, y = x.setRedun { x.redun with fromSync := decide (c.unitState = rsSyncing) } := ⟨_, rfl⟩
  obtain ⟨y, hy⟩ := hy
  have y1 : y.redun.peer = false := by rw [hy]; exact hr ▸ hp
  have y2 : y.redun.own = false := by rw [hy]; exact hr ▸ ho
  have y3 : y.unitState = rsClaiming := by rw [hy]; exact hs
  have y4 : y.out = x.out ∧ y.rst = x.rst ∧ y.build = x.build := by rw [hy]; exact ⟨rfl, rfl, rfl⟩
  rw [← hy, y.setOwn_alone (y4.2.2.trans (hk.build.trans hb)) y1 y2]
  obtain ⟨hor, -, hoo, hok⟩ := y.ownDriven_spec true
  refine ⟨?_, by rw [hor], by rw [hor], by rw [hor], fun h => ?_⟩
  · rw [Chip.unitState, Chip.state, hok.get (F.STATE.pg pgRedun)]
    exact y3
  · rw [hoo (by rw [y4.2.1, hx, h]), y4.1, hout]

/-- A set given up: nothing of it is left, and it is reported. -/
theorem Chip.setLost_spec (c : Chip) (hb : c.build = .S) :
    c.setLost.redun = c.redun ∧ c.setLost.mirror.synced = c.mirror.synced ∧ c.setLost.setPartial = false ∧ c.setLost.pend E.MIRROR_FAIL = true ∧
      c.setLost.build = .S := by
  have hy : ∃ y, y = c.setDrop.bumpSat F.MIRROR_FAIL_COUNT_COUNT := ⟨_, rfl⟩
  obtain ⟨y, hy⟩ := hy
  have y1 : y.redun = c.redun ∧ y.mirror.synced = c.mirror.synced ∧ y.mirror.rxNum = none ∧ y.mirror.setLen = 0 ∧ y.build = c.build := by
    rw [hy, Chip.bumpSat, Chip.set_redun, Chip.set_mirror, Chip.set_build]
    exact ⟨rfl, rfl, rfl, rfl, rfl⟩
  unfold Chip.setLost
  rw [← hy]
  obtain ⟨h1, h2, h3, h4, h5⟩ := y1
  have q := y.quiet_raise E.MIRROR_FAIL
  refine ⟨q.redun.trans h1, by rw [q.mirror, h2], ?_, y.raise_pend _ (mirror_hasPage (h5.trans hb)) (by decide), q.build.trans (h5.trans hb)⟩
  rw [Chip.setPartial, q.mirror, h3, h4]
  rfl

/-- The end of the claim window: the claim, and a set in part given up. -/
theorem Chip.claimComplete_spec (c : Chip) (hb : c.build = .S) (hw : c.redun.window = true) (ho : c.redun.own = true) (hp : c.redun.peer = false) :
    let t := c.claimComplete
    t.redun.window = false ∧ t.redun.claimed = true ∧ t.setPartial = false ∧ (c.setPartial = true → t.pend E.MIRROR_FAIL = true) ∧
      (c.redun.fromSync = true → c.mirror.synced = false → t.pend E.MIRROR_STALE = true) := by
  have hx : ∃ x, x = c.setRedun { c.redun with window := false, claimed := true } := ⟨_, rfl⟩
  obtain ⟨x, hx⟩ := hx
  obtain ⟨x1, x2, x3, x4, x5, x6⟩ : x.redun.window = false ∧ x.redun.claimed = true ∧ x.redun.fromSync = c.redun.fromSync ∧
      x.mirror.synced = c.mirror.synced ∧ x.setPartial = c.setPartial ∧ x.build = .S := by
    rw [hx]
    exact ⟨rfl, rfl, rfl, rfl, rfl, hb⟩
  obtain ⟨y, hy⟩ : ∃ y, y = if x.setPartial then x.setLost else x := ⟨_, rfl⟩
  obtain ⟨y1, y2, y3, y4, y5⟩ : y.redun = x.redun ∧ y.mirror.synced = x.mirror.synced ∧ y.setPartial = false ∧
      (c.setPartial = true → y.pend E.MIRROR_FAIL = true) ∧ y.build = .S := by
    rw [hy]
    cases h : x.setPartial
    · exact ⟨rfl, rfl, h, fun h' => by rw [x5, h'] at h; exact absurd h (by decide), x6⟩
    · obtain ⟨h1, h2, h3, h4, h5⟩ := x.setLost_spec x6
      exact ⟨h1, h2, h3, fun _ => h4, h5⟩
  have he : c.claimComplete = if y.redun.fromSync && !y.mirror.synced then (y.setRedun { y.redun with fromSync := false }).raise E.MIRROR_STALE else y := by
    unfold Chip.claimComplete
    rw [if_neg (by rw [hw, ho, hp]; decide), hy, hx]
  dsimp only
  rw [he]
  by_cases hs : (y.redun.fromSync && !y.mirror.synced) = true
  · rw [if_pos hs]
    have q := (y.setRedun { y.redun with fromSync := false }).quiet_raise E.MIRROR_STALE
    refine ⟨?_, ?_, ?_, fun h => ?_, fun _ _ => Chip.raise_pend _ _ (mirror_hasPage y5) (by decide)⟩
    · rw [q.redun]
      exact y1 ▸ x1
    · rw [q.redun]
      exact y1 ▸ x2
    · rw [Chip.setPartial, q.mirror]
      exact y3
    · exact Chip.pend_raise _ _ _ (y4 h)
  · rw [if_neg hs]
    refine ⟨y1 ▸ x1, y1 ▸ x2, y3, y4, fun h1 h2 => absurd ?_ hs⟩
    rw [y1, x3, h1, y2, x4, h2]
    rfl

/-- Contention left by the unit of slot 1. -/
theorem Chip.contendRelease_spec (c : Chip) (hb : c.build = .S) (ho : c.redun.own = true) (hp : c.redun.peer = true) (hslot : c.pairSlot = 1) :
    let t := c.contendRelease
    t.redun.own = false ∧ t.on F.REDUN_STATUS_OWN = false ∧ t.actBit = false ∧ t.unitState = c.idleState := by
  have he : c.contendRelease = (c.setOwn false).toStandby := by
    unfold Chip.contendRelease
    rw [if_pos (by rw [ho, hp, hslot]; rfl)]
  obtain ⟨h1, h2, h3, h4⟩ := c.setOwn_released hb ho
  dsimp only
  rw [he, Chip.toStandby_eq]
  generalize c.setOwn false = x at *
  have hk : Holds unitView lineFields x (x.setUnitState x.idleState) := Holds.refl.setUnitState
  have hst := x.setUnitState_state _ x.idleState_lt
  have hid : x.idleState = c.idleState := by
    have hw : x.mirror.whole = c.mirror.whole := h4.view
    rw [Chip.idleState, Chip.en, h4.on (F.EN.pg pgRedun), hw]
    rfl
  generalize x.setUnitState x.idleState = y at *
  have hr : y.redun = x.redun := congrArg Prod.fst hk.view
  have ha : y.actBit = x.actBit := congrArg (fun v => v.2.2.1) hk.view
  exact ⟨by rw [hr, h1], (hk.on _).trans h2, ha.trans h3, hst.trans hid⟩

/-- A unit alone drives its line. -/
theorem Chip.soloAssert_spec (c : Chip) (hb : c.build = .S) (hst : c.unitState = rsSolo) (hp : c.redun.peer = false) (ho : c.redun.own = false)
    (hk : c.aon.knell = none) :
    c.soloAssert.redun.own = true ∧ c.soloAssert.on F.REDUN_STATUS_OWN = true ∧ c.soloAssert.unitState = rsSolo := by
  have he : c.soloAssert = c.ownDriven true := by
    unfold Chip.soloAssert
    rw [if_pos (by rw [hb, hst, hp, ho, hk]; decide), c.setOwn_alone hb hp ho]
  obtain ⟨h1, h2, -, h4⟩ := c.ownDriven_spec true
  rw [he]
  refine ⟨by rw [h1], h2, ?_⟩
  rw [Chip.unitState, Chip.state, h4.get (F.STATE.pg pgRedun)]
  exact hst

theorem regAt_redunCmd : ∃ d, regAt .S F.REDUN_CMD_FORCE_RELEASE.addr = .reg d ∧ (∀ v w, d.quiesceChange v w = false) ∧
    d.fields.filter (fun f => decide (f.acc = .rw)) = [] := ⟨_, rfl, fun _ _ => by simp [RegDef.quiesceChange], rfl⟩

/-- The command word of REDUN is zero but for the bit written. -/
theorem Chip.keepWord_redunCmd (c : Chip) (hb : c.build = .S) : c.keepWord F.REDUN_CMD_FORCE_RELEASE.addr = 0 := by
  obtain ⟨d, hd, -, hf⟩ := regAt_redunCmd
  unfold Chip.keepWord
  rw [hb, hd]
  dsimp only
  rw [hf]
  rfl

theorem Holds.setUnitState_path {c d : Chip} {n : Nat} (h : Holds pathView [] c d) : Holds pathView [] c (d.setUnitState n) := .unitStateShown (.set h)

theorem Holds.toStandby_path {c d : Chip} (h : Holds pathView [] c d) : Holds pathView [] c d.toStandby := by
  rw [Chip.toStandby_eq]
  exact h.setUnitState_path

theorem Holds.interlock_path {c d : Chip} (h : Holds pathView [] c d) : Holds pathView [] c d.interlock := by
  have he : d.interlock = if d.actBit && !(d.redun.own && !d.redun.peer) then
      (if d.activeFallen.unitState = rsActive then d.activeFallen.toStandby else d.activeFallen) else d := rfl
  have hf : Holds pathView [] c d.activeFallen := .set (.setMirror (.raise (.set (h.of rfl rfl rfl))))
  rw [he]
  exact .ite (.ite hf.toStandby_path hf) h

theorem Holds.setOwn_path {c d : Chip} {b : Bool} (h : Holds pathView [] c d) : Holds pathView [] c (d.setOwn b) := by
  have h0 : Holds pathView [] c (d.ownDriven b).interlock := Holds.interlock_path (.emit (.set (.setRedun h)))
  by_cases hb : d.redun.own = b
  · rw [Chip.setOwn, if_pos hb]
    exact h
  · rw [d.setOwn_eq b hb]
    exact .ite h0.contend h0

/-- The commands of a word written to REDUN.CMD. -/
def Chip.redunCmd (c : Chip) (w : Word) : Chip :=
  let d := if w.getLsbD 0 then c.forceRelease else c
  if w.getLsbD 1 then d.clearRelease else d

theorem Holds.redunCmd_path (c : Chip) (w : Word) : Holds pathView [] c (c.redunCmd w) := by
  have h0 : Holds pathView [] c (if w.getLsbD 0 then c.forceRelease else c) := .ite (.ite .refl (Holds.setUnitState_path (.setOwn_path .refl))) .refl
  unfold Chip.redunCmd
  dsimp only
  generalize (if w.getLsbD 0 = true then c.forceRelease else c) = x at *
  exact .ite (.ite h0.toStandby_path h0) h0

/-- A word written to REDUN.CMD: its commands, on the block with the record. -/
theorem Chip.writeField_redunCmd (c : Chip) (o : Origin) (f : Fld) (hf : f.addr = F.REDUN_CMD_FORCE_RELEASE.addr) (hb : c.build = .S) (hc : Calm c) :
    ∃ x, Recorded c F.REDUN_CMD_FORCE_RELEASE.addr x ∧
      c.writeField o f 1 = (x.redunCmd (insBits 0 f.hi f.lo 1)).noteMirror F.REDUN_CMD_FORCE_RELEASE.addr := by
  obtain ⟨d, hd, hq, -⟩ := regAt_redunCmd
  rw [← hb] at hd
  obtain ⟨x, hx, -, he⟩ := Chip.write32_recorded (o := o) (w := insBits 0 f.hi f.lo 1) hd (by decide) (hq _ _) hc
    (fun x h => (Holds.redunCmd_path x (insBits 0 f.hi f.lo 1)).calm h)
  refine ⟨x, hx, ?_⟩
  rw [Chip.writeField, hf, c.keepWord_redunCmd hb]
  exact he

theorem Chip.noteMirror_redun (c : Chip) (a : Nat) : (c.noteMirror a).redun = c.redun := c.noteMirror_part a Chip.redun (fun _ _ => rfl)

theorem Chip.noteMirror_unitState (c : Chip) (a : Nat) : (c.noteMirror a).unitState = c.unitState := c.noteMirror_get a _

/-- FORCE_RELEASE of REDUN. -/
theorem Chip.forceRelease_spec (c : Chip) (hb : c.build = .S) : c.forceRelease.redun.own = false ∧ c.forceRelease.unitState = rsReleased := by
  have he : c.forceRelease = (c.setOwn false).setUnitState rsReleased := by
    unfold Chip.forceRelease
    rw [if_neg (by rw [hb]; decide)]
  rw [he]
  obtain ⟨h1, -⟩ := c.setOwn_false hb
  generalize c.setOwn false = x at *
  have hk : Holds unitView lineFields x (x.setUnitState rsReleased) := Holds.refl.setUnitState
  have hr : (x.setUnitState rsReleased).redun = x.redun := congrArg Prod.fst hk.view
  exact ⟨by rw [hr, h1], x.setUnitState_state rsReleased (by decide)⟩

/-- CLEAR_RELEASE of a unit that is RELEASED. -/
theorem Chip.clearRelease_spec (c : Chip) (h : c.unitState = rsReleased) :
    c.clearRelease.redun = c.redun ∧ c.clearRelease.unitState = c.idleState := by
  have he : c.clearRelease = c.setUnitState c.idleState := by rw [Chip.clearRelease, if_pos h, Chip.toStandby_eq]
  rw [he]
  have hk : Holds unitView lineFields c (c.setUnitState c.idleState) := Holds.refl.setUnitState
  exact ⟨congrArg Prod.fst hk.view, c.setUnitState_state _ c.idleState_lt⟩

/-- Settles O42: the lines, the claim and the unit states follow the clapper. -/
theorem clapperAndUnitStates : Obligations.ClapperAndUnitStates := by
  intro s hs hb
  have hin : ∀ f : Chip → Chip, s.chip.inS f = f s.chip := fun f => by rw [Chip.inS, Chip.when, hb]; rfl
  refine ⟨fun level => ?_, fun hm => ?_, fun hw ho hp => ?_, fun ho hp hslot => ?_, fun hst hp ho hk => ?_, fun o hc => ⟨?_, fun hst => ?_⟩⟩
  · exact Completes.live (fun c => c.peerLine level) rfl hs (s.chip.peerLine_spec level hb)
  · exact Completes.live Chip.claim rfl hs (s.chip.claim_spec hm)
  · refine Completes.live (fun c => c.inS Chip.claimComplete) rfl hs ?_
    rw [hin]
    exact s.chip.claimComplete_spec hb hw ho hp
  · refine Completes.live (fun c => c.inS Chip.contendRelease) rfl hs ?_
    rw [hin]
    exact s.chip.contendRelease_spec hb ho hp hslot
  · exact Completes.live Chip.soloAssert rfl hs (s.chip.soloAssert_spec hb hst hp ho hk)
  · refine Completes.serveFor o (fun c => c.writeField o F.REDUN_CMD_FORCE_RELEASE 1) rfl hs ?_
    obtain ⟨x, hx, he⟩ := s.chip.writeField_redunCmd o F.REDUN_CMD_FORCE_RELEASE rfl hb hc
    have hxb : x.build = .S := (hx.part Chip.build (fun _ => rfl)).trans hb
    have hcmd : x.redunCmd (insBits 0 0 0 1) = x.forceRelease := rfl
    rw [he, Chip.noteMirror_redun, Chip.noteMirror_unitState]
    exact hcmd ▸ x.forceRelease_spec hxb
  · refine Completes.serveFor o (fun c => c.writeField o F.REDUN_CMD_CLEAR_RELEASE 1) rfl hs ?_
    obtain ⟨x, hx, he⟩ := s.chip.writeField_redunCmd o F.REDUN_CMD_CLEAR_RELEASE rfl hb hc
    have hcmd : x.redunCmd (insBits 0 1 1 1) = x.clearRelease := rfl
    have hxs : x.unitState = s.chip.unitState := hx.get (F.STATE.pg pgRedun) (by decide) (by decide) (by decide)
    obtain ⟨h1, h2⟩ := x.clearRelease_spec (hxs.trans hst)
    have hid : x.idleState = s.chip.idleState := by
      have hen : x.en pgRedun = s.chip.en pgRedun := by rw [Chip.en, Chip.en, Chip.on, hx.get (F.EN.pg pgRedun) (by decide) (by decide) (by decide), Chip.on]
      rw [Chip.idleState, hen, hx.part (fun c => c.mirror.whole) (fun _ => rfl), Chip.idleState]
    rw [he, Chip.noteMirror_redun, Chip.noteMirror_unitState]
    refine ⟨?_, ?_⟩
    · exact (congrArg RedunSt.own (hcmd ▸ h1 : (x.redunCmd _).redun = x.redun)).trans (hx.part (fun c => c.redun.own) (fun _ => rfl))
    · exact (hcmd ▸ h2 : (x.redunCmd _).unitState = x.idleState).trans hid

end Sys2Proof.Machine
end

