-- ==== Sys2Proof/Proofs/TollsSideband.lean ====
section
-- One proof at a time: proofs that wait for the kernel side by side hold more memory than the check allows.
set_option Elab.async false
/-! PROOF. Tolls, the frames of the sideband and the beats of a pair (R282 to R286). -/

namespace Sys2Proof.Machine

/-! ### A beat that does not come on the sideband (R285) -/

/-- The registers that say that a unit follows its pair. -/
def pairRegs : List Nat := [F.DEVICE_STRAPS_STACK_POS.addr, (F.EN.pg pgRedun).addr, (F.STATE.pg pgRedun).addr]

/-- What the bars and beats of a sender leave to the pair. -/
abbrev PairKept : Chip → Chip → Prop := Keeps (fun c => (c.redun, c.host, c.mem)) pairRegs []

theorem PairKept.follower {c d : Chip} (h : PairKept c d) : d.pairFollower = c.pairFollower := by
  have hr : d.redun = c.redun := congrArg Prod.fst h.view
  simp only [Chip.pairFollower, Chip.isMaster, Chip.stackPos, Chip.en, Chip.state, h.build, hr, h.get F.DEVICE_STRAPS_STACK_POS, h.on (F.EN.pg 0x0C0),
    h.get (F.STATE.pg 0x0C0)]
  rfl

theorem plainReg_pgLt (f : Fld) (n : Nat) (h : plainReg f.addr = true := by decide) : plainReg (f.pg n).addr = true := (plainReg_pg f n).trans h

namespace PairKept
variable {c d : Chip}

theorem setBar {b : BarSt} (h : PairKept c d) : PairKept c { d with bar := b } := h.of rfl rfl rfl

theorem advanceTo {t : Nat} (h : PairKept c d) : PairKept c (d.advanceTo t) := by
  have ht : ∀ x : TimeSt, PairKept c { d with time := x } := fun _ => h.of rfl rfl rfl
  unfold Chip.advanceTo Chip.ticks
  exact ht _

theorem setBarLock {b : Bool} (h : PairKept c d) : PairKept c (d.setBarLock b) := .cond (.set h)

theorem stackMissed (h : PairKept c d) : PairKept c d.stackMissed := by
  have h0 : PairKept c ({ d with bar := { d.bar with masterMiss := d.bar.masterMiss + 1, copying := false } }.set F.STACK_STATUS_LOCK 0) :=
    .set h.setBar
  unfold Chip.stackMissed
  exact .ite (.ite (.cond (.set h0.setBarLock)) (.cond h0.setBarLock)) h0

theorem forgetLoss (h : PairKept c d) : PairKept c d.forgetLoss := by
  have h0 : PairKept c (if d.refUsed = true then d else { d with bar := { d.bar with refLost := false, refMiss := 0, refGood := 0, refPrev12 := none } }) :=
    .ite h h.setBar
  unfold Chip.forgetLoss
  dsimp only
  generalize (if d.refUsed = true then d else { d with bar := { d.bar with refLost := false, refMiss := 0, refGood := 0, refPrev12 := none } }) = x at *
  exact .ite h0 (.cond h0.setBar)

theorem sourceChange {t : Nat} (h : PairKept c d) : PairKept c (d.sourceChange t) := by
  have h0 : PairKept c d.masterMismatch.takeSrc.forgetLoss := forgetLoss (setBar (show PairKept c d.masterMismatch from .ite (.raise h) h))
  unfold Chip.sourceChange
  dsimp only
  generalize d.masterMismatch.takeSrc.forgetLoss = x at *
  exact .ite h0 (.set h0.setBar)

theorem barStartAt {t : Nat} (h : PairKept c d) : PairKept c (d.barStartAt t) := by
  have h0 : PairKept c ((d.advanceTo t).sourceChange t) := sourceChange h.advanceTo
  unfold Chip.barStartAt
  dsimp only
  generalize (d.advanceTo t).sourceChange t = x at *
  have h1 : ∀ (b : BarSt) (e : Nat) (f : Bool), PairKept c (((({ x with bar := b }.bump F.BAR_COUNT_COUNT).set F.BAR_STATUS_BEAT 0).set F.BAR_PHASE_ERR_E e).setSlewing f).showBarLock :=
    fun b e f => setBarLock (.cond (.set (.set (.set (.bump h0.setBar)))))
  have hm : ∀ y, PairKept c y → ∀ p : Bool, PairKept c (if p = true then y.stackMissed else y) := fun y hy p => .ite hy.stackMissed hy
  exact .ite (setBar (hm _ (h1 _ _ _) _)) (hm _ (h1 _ _ _) _)

theorem beatStartAt {t : Nat} (h : PairKept c d) : PairKept c (d.beatStartAt t) := .set h.advanceTo.setBar

theorem scanBeat {s l : Nat} (h : PairKept c d) : PairKept c (d.scanBeat s l) := by
  unfold Chip.scanBeat
  split
  · exact h
  · exact .ite (h.of rfl rfl rfl) (h.of rfl rfl rfl)

theorem previewBar (h : PairKept c d) (hc : d.commitPages = []) : PairKept c (d.previewBar (fun r c => c.applyAt r)) := by
  unfold Chip.previewBar
  simp only [d.applyAt_none _ hc, ite_self]
  exact .ite h (.ite (.raise (.set (.bumpSat h))) (.set (.set (.set (h.of rfl rfl rfl)))))

theorem holdAtBar (h : PairKept c d) : PairKept c d.holdAtBar := by
  have h0 : PairKept c (if (d.upd.holdDue && d.belfry.down.isNone) = true then d.tableHold else d) := .ite (.setUpd h) h
  unfold Chip.holdAtBar
  dsimp only
  generalize (if (d.upd.holdDue && d.belfry.down.isNone) = true then d.tableHold else d) = x at *
  split
  · exact h0
  · exact .ite (.raise h0) (.ite (.setUpd h0) h0)

theorem notMem_pairRegs {a : Nat} (h : a ≠ 0x000048 ∧ a ≠ 0x0C0004 ∧ a ≠ 0x0C0008) : a ∉ pairRegs := by
  obtain ⟨h1, h2, h3⟩ := h
  intro hm
  rcases List.mem_cons.1 hm with h | hm
  · exact h1 h
  rcases List.mem_cons.1 hm with h | hm
  · exact h2 h
  rcases List.mem_cons.1 hm with h | hm
  · exact h3 h
  exact List.not_mem_nil hm

/-- A field of one of eight or sixteen pages that are not those of the pair. -/
theorem setPg {f : Fld} {n v : Nat} (h : PairKept c d) (hn : f.addr + 4096 * n < 0x0C0000 ∨ 0x0C1000 ≤ f.addr + 4096 * n)
    (h0 : 0x001000 ≤ f.addr + 4096 * n) (hf : plainReg f.addr = true := by decide) : PairKept c (d.set (f.pg n) v) := by
  have e : (f.pg n).addr = f.addr + 4096 * n := rfl
  refine h.set (notMem_pairRegs ?_) ((plainReg_pg f n).trans hf)
  rw [e]
  omega

theorem refreshLayers (h : PairKept c d) : PairKept c d.refreshLayers := by
  unfold Chip.refreshLayers
  split
  · exact h
  · refine h.foldl (fun x l hl => ?_)
    have hl : l < 8 := List.mem_range.1 hl
    have e1 : F.LAYER_STATUS_STATE.addr = 0x06105C := by decide
    have e2 : F.LAYER_STATUS_HOLD_LEFT.addr = 0x06105C := by decide
    exact .cond (setPg (setPg .refl (by omega) (by omega)) (by omega) (by omega)) (by decide) (by simp) (show 0 < 32 by decide)

theorem dramUtil (h : PairKept c d) : PairKept c d.dramUtil := by
  refine h.foldl (fun x p hp => ?_)
  have e1 : F.DRAM_UTIL_RT.addr = 0x0E0058 := by decide
  have e2 : F.DRAM_UTIL_BULK.addr = 0x0E0058 := by decide
  have ho : ∀ y : Chip, PairKept x y → PairKept x (y.openValue 7).2 := fun y hy => hy.of rfl rfl rfl
  exact setPg (ho _ (setPg (ho _ .refl) (by omega) (by omega))) (by omega) (by omega)

theorem showDepths (h : PairKept c d) : PairKept c d.showDepths := .set h.setBar

theorem barTurn (h : PairKept c d) (hc : d.commitPages = []) : PairKept c d.barTurn := by
  have h1 : PairKept c ({ d with bar := { d.bar with feedMap := d.feedMapOf d.barCount } }.scanBeat d.bar.start12 (d.bar.beatLens.headD 0)) :=
    h.setBar.scanBeat
  have hc1 : ({ d with bar := { d.bar with feedMap := d.feedMapOf d.barCount } }.scanBeat d.bar.start12 (d.bar.beatLens.headD 0)).commitPages = [] :=
    (Chip.sameTime_scanBeat _ _ _).toSameRegs.commitPages.trans hc
  unfold Chip.barTurn
  dsimp only
  generalize { d with bar := { d.bar with feedMap := d.feedMapOf d.barCount } }.scanBeat d.bar.start12 (d.bar.beatLens.headD 0) = x at *
  rw [x.applyAt_none _ hc1]
  exact (h1.previewBar hc1).holdAtBar.refreshLayers.dramUtil.showDepths

end PairKept

/-- A beat that does not come leaves the lock of the pair at 0. -/
theorem Chip.stackMissed_pairLock (c : Chip) (h : c.get F.REDUN_STATUS_PAIR_LOCK = 0) : c.stackMissed.get F.REDUN_STATUS_PAIR_LOCK = 0 := by
  obtain ⟨x, hx⟩ : ∃ x, x = { c with bar := { c.bar with masterMiss := c.bar.masterMiss + 1, copying := false } }.set F.STACK_STATUS_LOCK 0 := ⟨_, rfl⟩
  have h0 : x.get F.REDUN_STATUS_PAIR_LOCK = 0 := by
    rw [hx, Chip.get_set_ne _ _ _ _ (by decide)]
    exact h
  have h1 : x.showBarLock.get F.REDUN_STATUS_PAIR_LOCK = 0 := by
    have k : Keeps (fun _ => ()) [F.REDUN_STATUS_PAIR_LOCK.addr] [] x x.showBarLock := .cond (.set .refl)
    rw [k.get F.REDUN_STATUS_PAIR_LOCK, h0]
  have e : c.stackMissed = if c.bar.masterMiss + 1 ≥ 3 then
      (if x.showBarLock.pairFollower then (x.showBarLock.set F.REDUN_STATUS_PAIR_LOCK 0).cond E.PAIR_UNLOCK true else x.showBarLock.cond E.STACK_LOST true)
      else x := by
    rw [hx]
    rfl
  rw [e]
  split
  · split
    · rw [Chip.cond_get_of _ _ _ _ (by decide) (by decide), Chip.get_set _ _ _ (by decide) (by decide)]
      rfl
    · rw [Chip.cond_get_of _ _ _ _ (by decide) (by decide), h1]
  · exact h0

/-- The clear of both locks, and with a bar start its miss. -/
theorem Chip.pairUnlocked (c : Chip) (missed : Bool) (hc : missed = false → c.bar.copying = false) :
    let t := if missed then ((c.set F.STACK_STATUS_LOCK 0).set F.REDUN_STATUS_PAIR_LOCK 0).stackMissed else (c.set F.STACK_STATUS_LOCK 0).set F.REDUN_STATUS_PAIR_LOCK 0
    t.bar.copying = false ∧ t.on F.STACK_STATUS_LOCK = false ∧ t.on F.REDUN_STATUS_PAIR_LOCK = false := by
  obtain ⟨y, hy⟩ : ∃ y, y = (c.set F.STACK_STATUS_LOCK 0).set F.REDUN_STATUS_PAIR_LOCK 0 := ⟨_, rfl⟩
  have y1 : y.get F.REDUN_STATUS_PAIR_LOCK = 0 := by rw [hy]; exact Chip.get_set _ F.REDUN_STATUS_PAIR_LOCK 0 (by decide) (by decide)
  have y2 : y.get F.STACK_STATUS_LOCK = 0 := by
    rw [hy, Chip.get_set_ne _ _ _ _ (by decide)]
    exact Chip.get_set _ F.STACK_STATUS_LOCK 0 (by decide) (by decide)
  have y3 : y.bar = c.bar := by rw [hy, Chip.set_bar, Chip.set_bar]
  dsimp only
  rw [← hy]
  cases missed
  · exact ⟨by rw [if_neg (by decide), y3, hc rfl], by rw [if_neg (by decide), Chip.on, y2]; rfl, by rw [if_neg (by decide), Chip.on, y1]; rfl⟩
  · exact ⟨by rw [if_pos rfl, Chip.stackMissed_bar], y.stackMissed_lock, by rw [if_pos rfl, Chip.on, y.stackMissed_pairLock y1]; rfl⟩

theorem Chip.beatStartAt_copying (c : Chip) (t : Nat) : (c.beatStartAt t).bar.copying = c.bar.copying := by
  have hb : (c.advanceTo t).bar = c.bar := c.ticks_bar _
  unfold Chip.beatStartAt
  dsimp only
  rw [Chip.set_bar]
  show (c.advanceTo t).bar.copying = _
  rw [hb]

/-- The bar or beat that a follower begins by itself. -/
def Chip.ownBeat (x : Chip) (t n : Nat) : Chip :=
  if n = 0 then (x.barStartAt t).barTurn else (x.beatStartAt t).scanBeat t (x.bar.beatLens.getD n 0)

theorem Chip.ownBeat_spec (x : Chip) (t n : Nat) (hc : x.commitPages = []) (hx : x.bar.copying = false) :
    PairKept x (x.ownBeat t n) ∧ (n ≠ 0 → (x.ownBeat t n).bar.copying = false) := by
  have hr : PairKept x x := Keeps.refl
  unfold Chip.ownBeat
  refine ⟨?_, fun hn => ?_⟩
  · exact .ite (hr.barStartAt.barTurn ((Chip.commitPages_congr (x.barBegun_barStartAt t).ctrls).trans hc)) hr.beatStartAt.scanBeat
  · rw [if_neg hn, (Chip.sameTime_scanBeat _ _ _).bar]
    show (x.beatStartAt t).bar.copying = false
    rw [Chip.beatStartAt_copying, hx]

/-- A follower that copies no more. -/
def Chip.copyEnd (c : Chip) : Chip := { c with bar := { c.bar with copying := false } }

/-- A follower that goes on by itself, and both locks cleared. -/
def Chip.goneOn (c : Chip) : Chip :=
  let x := c.copyEnd.ownBeat c.bar.next12 c.bar.nextBeat
  let y := (x.advanceTo (c.bar.next12 + period12 x.mode / 16)).set F.STACK_STATUS_LOCK 0
  let y := if y.pairFollower then y.set F.REDUN_STATUS_PAIR_LOCK 0 else y
  if c.bar.nextBeat = 0 then y.stackMissed else y

theorem Chip.missDownbeat_goneOn (c : Chip) (hb : c.build = .S) (hp : c.pairFollower = true) (hr : c.bar.running = true)
    (he : c.bar.everCopied = true) (hcopy : c.bar.copying = true) : c.missDownbeat = c.goneOn := by
  have hl : c.leavesNext = false := by unfold Chip.leavesNext Chip.leavesMaster; simp [hp]
  have hf : c.follower = true := by unfold Chip.follower; simp [hp]
  unfold Chip.missDownbeat
  rw [if_neg (by rw [hb, hf, hr, he, hl]; simp), if_pos hcopy]
  rfl

/-- A follower of its pair that misses the beat it was to copy goes on by itself. -/
theorem Chip.missDownbeat_pair (c : Chip) (hc : c.commitPages = []) (hp : c.pairFollower = true) (hr : c.bar.running = true)
    (he : c.bar.everCopied = true) (hcopy : c.bar.copying = true) :
    c.missDownbeat.bar.copying = false ∧ c.missDownbeat.on F.STACK_STATUS_LOCK = false ∧ c.missDownbeat.on F.REDUN_STATUS_PAIR_LOCK = false := by
  have hb : c.build = .S := by
    simp only [Chip.pairFollower, Bool.and_eq_true, decide_eq_true_eq] at hp
    obtain ⟨⟨⟨⟨hb, -⟩, -⟩, -⟩, -⟩ := hp
    exact hb
  obtain ⟨x, hx⟩ : ∃ x, x = c.copyEnd := ⟨_, rfl⟩
  have x0 : PairKept c x := by rw [hx]; exact PairKept.setBar Keeps.refl
  obtain ⟨hk, hn⟩ := x.ownBeat_spec c.bar.next12 c.bar.nextBeat ((Chip.commitPages_congr x0.ctrls).trans hc) (by rw [hx]; rfl)
  obtain ⟨z, hz⟩ : ∃ z, z = x.ownBeat c.bar.next12 c.bar.nextBeat := ⟨_, rfl⟩
  rw [← hz] at hk hn
  obtain ⟨y, hy⟩ : ∃ y, y = z.advanceTo (c.bar.next12 + period12 z.mode / 16) := ⟨_, rfl⟩
  have y1 : (y.set F.STACK_STATUS_LOCK 0).pairFollower = true := by
    rw [hy]
    exact (PairKept.follower (.set (PairKept.advanceTo (x0.trans hk)))).trans hp
  have y2 : decide (c.bar.nextBeat = 0) = false → y.bar.copying = false := fun h => by
    have hb : y.bar = z.bar := by rw [hy]; exact Chip.ticks_bar _ _
    rw [hb, hn (of_decide_eq_false h)]
  have e : c.goneOn = if c.bar.nextBeat = 0 then ((y.set F.STACK_STATUS_LOCK 0).set F.REDUN_STATUS_PAIR_LOCK 0).stackMissed
      else (y.set F.STACK_STATUS_LOCK 0).set F.REDUN_STATUS_PAIR_LOCK 0 := by
    unfold Chip.goneOn
    dsimp only
    rw [← hx, ← hz, ← hy, if_pos y1]
  have h := y.pairUnlocked (decide (c.bar.nextBeat = 0)) y2
  simp only [decide_eq_true_eq] at h
  rw [c.missDownbeat_goneOn hb hp hr he hcopy, e]
  exact h

/-! ### Tolls (R282, R284, R286) -/

/-- The path that a heartbeat comes on. -/
def RedunSt.path (r : RedunSt) (ring : Bool) : TollPath := if ring then r.ring else r.sideband

def RedunSt.withPath (r : RedunSt) (ring : Bool) (p : TollPath) : RedunSt := if ring then { r with ring := p } else { r with sideband := p }

theorem RedunSt.path_withPath (r : RedunSt) (ring : Bool) (p : TollPath) : (r.withPath ring p).path ring = p := by cases ring <;> rfl

theorem RedunSt.path_withPath_not (r : RedunSt) (ring : Bool) (p : TollPath) : (r.withPath ring p).path (!ring) = r.path (!ring) := by cases ring <;> rfl

/-- The paths and the peer's state as REDUN.STATUS and the events show them. -/
theorem Holds.showPaths {α : Type} {ρ : Chip → α} {c d : Chip} {Fs : List Fld} (h : Holds ρ Fs c d)
    (h1 : Fs.all (fun g => g.apart F.REDUN_STATUS_SB_FAIL) = true := by decide) (h2 : Fs.all (fun g => g.apart F.REDUN_STATUS_RING_FAIL) = true := by decide)
    (h3 : Fs.all (fun g => g.apart F.REDUN_STATUS_PEER_FAIL) = true := by decide) (h4 : Fs.all (fun g => g.apart F.REDUN_STATUS_PEER_STATE) = true := by decide)
    (hc : calmFields Fs = true := by decide) : Holds ρ Fs c d.showPaths :=
  .cond (.cond (.set (.set (.set (.set h h1) h2) h3) h4) hc) hc

theorem Chip.showPaths_peerFail (c : Chip) : c.showPaths.raw E.PEER_FAIL = c.peerFail := by
  unfold Chip.showPaths
  extract_lets x y
  rw [Chip.cond_raw_ne _ _ _ _ (by decide) (by decide), Chip.cond_raw_self]
  rfl
  decide

/-- A heartbeat that a path takes. -/
theorem Chip.heartbeat_taken (c : Chip) (ring : Bool) (seq state slot : Nat) (hb : c.build = .S) (he : c.en pgRedun = true) (hs : slot % 2 ≠ c.pairSlot)
    (ht : (c.redun.path ring).takes seq state = true) (hq : seq < 2 ^ 32) :
    (c.heartbeat ring seq state slot).redun.path ring = { last := some seq, misses := 0, failed := false, peerState := state } ∧
      (c.heartbeat ring seq state slot).get F.REDUN_PEER_SEQ_SEQ = seq := by
  obtain ⟨x, hx⟩ : ∃ x, x = (c.setRedun (c.redun.withPath ring { last := some seq, misses := 0, failed := false, peerState := state })).set F.REDUN_PEER_SEQ_SEQ seq :=
    ⟨_, rfl⟩
  have x1 : x.redun = c.redun.withPath ring { last := some seq, misses := 0, failed := false, peerState := state } := by rw [hx, Chip.set_redun]; rfl
  have x2 : x.get F.REDUN_PEER_SEQ_SEQ = seq := by
    rw [hx, Chip.get_set _ _ _ (by decide) (by decide)]
    exact Nat.mod_eq_of_lt hq
  have e : c.heartbeat ring seq state slot = if x.showPaths.unitState = rsStart && x.showPaths.peerState = some rsActive then x.showPaths.setUnitState rsSyncing
      else x.showPaths := by
    unfold Chip.heartbeat
    rw [if_neg (by rw [hb, he, decide_eq_false hs]; decide)]
    dsimp only
    rw [if_neg (by rw [show (if ring = true then c.redun.ring else c.redun.sideband) = c.redun.path ring from rfl, ht]; decide), hx]
    rfl
  rw [e]
  have h0 : Holds Chip.redun [F.REDUN_PEER_SEQ_SEQ] x x.showPaths := .showPaths .refl
  have h1 : Holds Chip.redun [F.REDUN_PEER_SEQ_SEQ] x (if x.showPaths.unitState = rsStart && x.showPaths.peerState = some rsActive then
      x.showPaths.setUnitState rsSyncing else x.showPaths) := .ite (.unitStateShown (.set h0)) h0
  have h2 : _ = x.redun := h1.view
  exact ⟨(congrArg (RedunSt.path · ring) h2).trans (x1 ▸ RedunSt.path_withPath _ _ _), (h1.get _).trans x2⟩

/-- A heartbeat of the unit's own slot, or one that the path does not take. -/
theorem Chip.heartbeat_left (c : Chip) (ring : Bool) (seq state slot : Nat) (h : ¬ (slot % 2 ≠ c.pairSlot ∧ (c.redun.path ring).takes seq state = true)) :
    c.heartbeat ring seq state slot = c := by
  unfold Chip.heartbeat
  split
  · rfl
  · next hn =>
    simp only [Bool.or_eq_true, decide_eq_true_eq, not_or] at hn
    have ht : (c.redun.path ring).takes seq state = false := by
      cases ht : (c.redun.path ring).takes seq state
      · rfl
      · exact absurd ⟨hn.2, ht⟩ h
    dsimp only
    rw [if_pos (by rw [show (if ring = true then c.redun.ring else c.redun.sideband) = c.redun.path ring from rfl, ht]; decide)]

/-- A path once more without a heartbeat. -/
def TollPath.missed (p : TollPath) (limit : Nat) : TollPath :=
  { p with misses := p.misses + 1, failed := p.failed || decide (limit ≤ p.misses + 1) }

/-- A heartbeat that does not come. -/
theorem Chip.tollMiss_spec (c : Chip) (ring : Bool) (hb : c.build = .S) (he : c.en pgRedun = true) :
    (c.tollMiss ring).redun = c.redun.withPath ring ((c.redun.path ring).missed c.missLimit) ∧
      (c.tollMiss ring).raw E.PEER_FAIL = (c.tollMiss ring).peerFail := by
  obtain ⟨x, hx⟩ : ∃ x, x = (c.setRedun (c.redun.withPath ring ((c.redun.path ring).missed c.missLimit))).bumpSat (if ring then F.REDUN_MISSES_RING else F.REDUN_MISSES_SB) :=
    ⟨_, rfl⟩
  have x1 : x.redun = c.redun.withPath ring ((c.redun.path ring).missed c.missLimit) := by
    rw [hx, Chip.bumpSat, Chip.set_redun]
    rfl
  have e : c.tollMiss ring = x.showPaths := by
    unfold Chip.tollMiss
    rw [if_neg (by rw [hb, he]; decide), hx]
    rfl
  have h0 : Holds Chip.redun [] x x.showPaths := .showPaths .refl
  have h1 : x.showPaths.redun = x.redun := h0.view
  rw [e]
  exact ⟨h1.trans x1, by rw [x.showPaths_peerFail, Chip.peerFail, Chip.peerFail, h1]⟩

theorem Chip.sendChain_frame (c : Chip) (p cell : Nat) : (c.sendChain p cell).redun = c.redun ∧ (c.sendChain p cell).out = c.out := by
  unfold Chip.sendChain
  dsimp only
  split <;> exact ⟨rfl, rfl⟩

/-- What has been sent stays sent. -/
def OutUp (c d : Chip) : Prop := ∀ o ∈ c.out, o ∈ d.out

theorem OutUp.of_eq {c d : Chip} (h : d.out = c.out) : OutUp c d := fun _ ho => h ▸ ho

theorem OutUp.trans {c d e : Chip} (h : OutUp c d) (k : OutUp d e) : OutUp c e := fun o ho => k o (h o ho)

theorem OutUp.emit (c : Chip) (o : Output) : OutUp c (c.emit o) := by
  intro p hp
  unfold Chip.emit
  split
  · exact hp
  · exact List.mem_append_left _ hp

theorem reportRel_outUp : ReportRel OutUp where
  refl _ _ h := h
  trans := OutUp.trans
  wr _ _ _ _ := .of_eq rfl
  emit := OutUp.emit
  evq _ _ := .of_eq rfl
  evqExtra _ _ := .of_eq rfl
  host _ _ := .of_eq rfl
  monitor _ _ _ _ _ := .of_eq rfl

theorem OutUp.raise (c : Chip) (e : Ev) : OutUp c (c.raise e) := reportRel_outUp.raise c e

theorem OutUp.cond (c : Chip) (e : Ev) (b : Bool) : OutUp c (c.cond e b) := by
  unfold Chip.cond
  extract_lets w m was x
  have h0 : OutUp c x := .of_eq (by
    show (if was = b then c else c.wr _ _).out = c.out
    split <;> rfl)
  split
  · exact h0.trans (.raise _ _)
  · exact h0

/-- A message sent is there. -/
theorem Chip.emit_sent (c : Chip) (o : Output) (h : c.rst.extest = false) : o ∈ (c.emit o).out := by
  unfold Chip.emit
  rw [h, Bool.false_and, if_neg (by decide)]
  exact List.mem_append_right _ (List.mem_singleton_self o)

/-- The runs of disagreements counted at a toll. -/
def Chip.tollRuns (c : Chip) : List Nat := (List.range 4).map (fun i => if c.disagreements.getD i false then c.redun.runs.getD i 0 + 1 else 0)

def Chip.tollDual (c : Chip) : Nat := if c.actBit && c.peerState = some rsActive then c.redun.dual + 1 else 0

theorem Chip.tollTests_eq (c : Chip) : c.tollTests =
    let d := ((c.setRedun { c.redun with runs := c.tollRuns, dual := c.tollDual }).set F.REDUN_STATUS_DISAGREE (b2n (c.tollRuns.any (fun n => decide (3 ≤ n))))).cond
      E.PATH_DISAGREE (c.tollRuns.any (fun n => decide (3 ≤ n)))
    if c.tollDual = 3 then d.raise E.DUAL_ACTIVE else d := rfl

theorem Chip.tollTests_frame (c : Chip) : c.tollTests.redun.tollSeq = c.redun.tollSeq ∧ OutUp c c.tollTests := by
  rw [c.tollTests_eq]
  generalize c.tollRuns.any (fun n => decide (3 ≤ n)) = bad
  obtain ⟨x, hx⟩ : ∃ x, x = (c.setRedun { c.redun with runs := c.tollRuns, dual := c.tollDual }).set F.REDUN_STATUS_DISAGREE (b2n bad) := ⟨_, rfl⟩
  have x1 : x.redun.tollSeq = c.redun.tollSeq := by rw [hx, Chip.set_redun]; rfl
  have x2 : OutUp c x := .of_eq (by rw [hx, Chip.set_out]; rfl)
  rw [← hx]
  dsimp only
  have y1 : (x.cond E.PATH_DISAGREE bad).redun = x.redun := (x.quiet_cond _ _).redun
  have y2 : OutUp c (x.cond E.PATH_DISAGREE bad) := x2.trans (.cond _ _ _)
  split
  · exact ⟨by rw [(Chip.quiet_raise _ _).redun, y1, x1], y2.trans (.raise _ _)⟩
  · exact ⟨by rw [y1, x1], y2⟩

/-- The heartbeat that the unit sends on its chains, and what it finds of its peer. -/
def Chip.tollChains (c : Chip) (seq st : Nat) : Chip :=
  (((List.range 8).map (2 * ·)).foldl (fun d p => if d.portMode p = 3 then d.sendChain p (mkToll c.tollEpoch seq st c.stackPos c.pairSlot c.actBit) else d) c).tollTests

theorem Chip.tollChains_frame (c : Chip) (seq st : Nat) : (c.tollChains seq st).redun.tollSeq = c.redun.tollSeq ∧ OutUp c (c.tollChains seq st) := by
  have hf := foldl_rel (fun a b : Chip => b.redun = a.redun ∧ b.out = a.out) (fun _ => ⟨rfl, rfl⟩) (fun h k => ⟨k.1.trans h.1, k.2.trans h.2⟩) id
    (fun d p => if d.portMode p = 3 then d.sendChain p (mkToll c.tollEpoch seq st c.stackPos c.pairSlot c.actBit) else d) ((List.range 8).map (2 * ·))
    (fun d p _ => by
      dsimp only [id]
      split
      · exact d.sendChain_frame _ _
      · exact ⟨rfl, rfl⟩) c
  obtain ⟨h1, h2⟩ := Chip.tollTests_frame (((List.range 8).map (2 * ·)).foldl
    (fun d p => if d.portMode p = 3 then d.sendChain p (mkToll c.tollEpoch seq st c.stackPos c.pairSlot c.actBit) else d) c)
  unfold Chip.tollChains
  exact ⟨h1.trans (congrArg RedunSt.tollSeq hf.1), (OutUp.of_eq hf.2).trans h2⟩

/-- The frame of a heartbeat. -/
def Chip.tollFrame (c : Chip) : Output :=
  .sideband (sbFrame 1 (leBytes 4 c.redun.tollSeq ++ leBytes 4 c.tollEpoch ++ leBytes 1 c.unitState ++ leBytes 1 c.pairSlot))

def Chip.tollCounted (c : Chip) : Chip := c.setRedun { c.redun with tollSeq := (c.redun.tollSeq + 1) % 2 ^ 32 }

theorem Chip.tollSend_eq (c : Chip) (hb : c.build = .S) (he : c.en pgRedun = true) :
    c.tollSend = (c.tollCounted.emit c.tollFrame).tollChains c.redun.tollSeq c.unitState := by
  unfold Chip.tollSend
  rw [if_neg (by rw [hb, he]; decide)]
  rfl

/-- A heartbeat is numbered and goes out on the sideband. -/
theorem Chip.tollSend_spec (c : Chip) (hb : c.build = .S) (he : c.en pgRedun = true) :
    c.tollSend.redun.tollSeq = (c.redun.tollSeq + 1) % 2 ^ 32 ∧ (c.rst.extest = false → c.tollFrame ∈ c.tollSend.out) := by
  have x1 : c.tollCounted.redun.tollSeq = (c.redun.tollSeq + 1) % 2 ^ 32 := rfl
  have x2 : c.tollCounted.rst = c.rst := rfl
  rw [c.tollSend_eq hb he]
  generalize c.tollCounted = x at *
  obtain ⟨h1, h2⟩ := (x.emit c.tollFrame).tollChains_frame c.redun.tollSeq c.unitState
  refine ⟨?_, fun h => h2 _ (x.emit_sent _ (by rw [x2, h]))⟩
  rw [h1, ← x1]
  unfold Chip.emit
  split <;> rfl

/-- A question whether the other unit is there. -/
theorem Chip.sbEchoSend_spec (c : Chip) (hb : c.build = .S) (he : c.en pgRedun = true) :
    c.sbEchoSend.redun.echoOut = some c.redun.echoSeq ∧ c.sbEchoSend.redun.echoSeq = (c.redun.echoSeq + 1) % 256 ∧ (c.rst.extest = false →
      c.sbEchoSend.out = c.out ++ [.sideband (sbFrame 3 (leBytes 1 c.redun.echoSeq ++ leBytes 1 0 ++ leBytes 4 0))]) := by
  have e : c.sbEchoSend = (c.setRedun { c.redun with echoSeq := (c.redun.echoSeq + 1) % 256, echoOut := some c.redun.echoSeq }).emit
      (.sideband (sbFrame 3 (leBytes 1 c.redun.echoSeq ++ leBytes 1 0 ++ leBytes 4 0))) := by
    unfold Chip.sbEchoSend
    rw [if_neg (by rw [hb, he]; decide)]
  rw [e]
  generalize sbFrame 3 _ = f
  refine ⟨?_, ?_, fun h => ?_⟩
  · unfold Chip.emit
    split <;> rfl
  · unfold Chip.emit
    split <;> rfl
  · unfold Chip.emit
    rw [if_neg (by rw [Chip.setRedun, h]; simp)]
    rfl

/-- A frame of the sideband comes in. -/
def Chip.sidebandFrame (bytes : List Byte) (ns interval measured : Nat) (c : Chip) : Chip :=
  c.inS (fun c =>
    match sbParse bytes with
    | none => c.bumpSat F.REDUN_TOLL_CRC_COUNT
    | some (typ, payload) => c.sideband typ payload ns interval measured)

theorem exec_sidebandFrame (bytes : List Byte) (ns interval measured : Nat) (s : State) :
    exec (.sidebandFrameReceive bytes ns interval measured) s = live s (Chip.sidebandFrame bytes ns interval measured) := rfl

theorem live_congr {s : State} {f g : Chip → Chip} (h : f s.chip = g s.chip) : live s f = live s g := by unfold live; rw [h]

/-- One field written is one register changed. -/
theorem OnlyRegs.set (c : Chip) (f : Fld) (v : Nat) : OnlyRegs [f.addr] c (c.set f v) :=
  ⟨rfl, fun _ ha => c.rd_set_ne f v _ (fun h => ha (List.mem_singleton.2 h))⟩

theorem Chip.sidebandFrame_bad {c : Chip} {bytes : List Byte} (hb : c.build = .S) (h : sbParse bytes = none) (ns interval measured : Nat) :
    c.sidebandFrame bytes ns interval measured = c.bumpSat F.REDUN_TOLL_CRC_COUNT := by
  rw [Chip.sidebandFrame, Chip.inS, Chip.when, if_pos (by rw [hb]; rfl), h]

theorem Chip.sidebandFrame_good {c : Chip} {bytes : List Byte} {typ : Nat} {payload : List Byte} (hb : c.build = .S)
    (h : sbParse bytes = some (typ, payload)) (ns interval measured : Nat) :
    c.sidebandFrame bytes ns interval measured = c.sideband typ payload ns interval measured := by
  rw [Chip.sidebandFrame, Chip.inS, Chip.when, if_pos (by rw [hb]; rfl), h]

/-- Settles O43: heartbeats, the frames of the sideband and the beats of a pair. -/
theorem tollsAndSideband : Obligations.TollsAndSideband := by
  intro s hs hb
  refine ⟨fun bytes ns interval measured => ⟨fun h => ?_, fun payload h => ?_, fun payload h ha => ?_⟩, fun hp hr he hcopy hc => ?_, fun he =>
    ⟨?_, fun ring seq state slot hq => ?_, fun ring => ?_, ?_⟩⟩
  · refine Completes.live (Chip.sidebandFrame bytes ns interval measured) rfl hs ?_
    rw [Chip.sidebandFrame_bad hb h]
    exact ⟨Chip.get_bumpSat _ _ _ (by decide) (by decide), OnlyRegs.set _ _ _⟩
  · rw [exec_sidebandFrame]
    exact live_congr (g := fun c => c.heartbeat false _ _ _) (Chip.sidebandFrame_good hb h ns interval measured)
  · refine Completes.live (Chip.sidebandFrame bytes ns interval measured) rfl hs ?_
    rw [Chip.sidebandFrame_good hb h]
    exact if_pos ha
  · refine Completes.live (fun c => c.when c.pairFollower Chip.missDownbeat) rfl hs ?_
    rw [Chip.when, hp]
    exact s.chip.missDownbeat_pair hc.1 hp hr he hcopy
  · exact Completes.live Chip.tollSend rfl hs (s.chip.tollSend_spec hb he)
  · refine Completes.live (fun c => c.heartbeat ring seq state slot) rfl hs ?_
    by_cases h : slot % 2 ≠ s.chip.pairSlot ∧ (s.chip.redun.path ring).takes seq state = true
    · exact (if_pos h).mpr (s.chip.heartbeat_taken ring seq state slot hb he h.1 h.2 hq)
    · exact (if_neg h).mpr (s.chip.heartbeat_left ring seq state slot h)
  · refine Completes.live (fun c => c.tollMiss ring) rfl hs ?_
    obtain ⟨h1, h2⟩ := s.chip.tollMiss_spec ring hb he
    rw [h1]
    refine ⟨?_, ?_, ?_⟩
    · exact RedunSt.path_withPath _ _ _
    · cases ring <;> rfl
    · rw [h2, Chip.peerFail, h1]
  · exact Completes.live Chip.sbEchoSend rfl hs (s.chip.sbEchoSend_spec hb he)

end Sys2Proof.Machine
end

