-- ==== Sys2Proof/Proofs/DramUpkeep.lean ====
section
-- One proof at a time: proofs that wait for the kernel side by side hold more memory than the check allows.
set_option Elab.async false
/-! PROOF. The upkeep of a DRAM port: refresh debts, MR4, power-down, tracking (R336 to R340). -/

namespace Sys2Proof.Machine

/-! ### Fields of a page that is one of several -/

theorem Fld.apart_pg (f g : Fld) (n : Nat) : (g.pg n).apart (f.pg n) = g.apart f := by
  have h : decide ((g.pg n).addr ≠ (f.pg n).addr) = decide (g.addr ≠ f.addr) := by
    rw [decide_eq_decide, Fld.pg, Fld.pg]
    dsimp only
    omega
  rw [Fld.apart, h]
  rfl

theorem Chip.get_set_pg_apart (c : Chip) (f g : Fld) (n v : Nat) (h : g.apart f = true := by decide) :
    (c.set (f.pg n) v).get (g.pg n) = c.get (g.pg n) := c.get_set_apart _ _ v ((Fld.apart_pg f g n).trans h)

/-- A field of each of four pages that no event writes. -/
theorem calmReg_four {f : Fld} {p : Nat} (hp : p < 4) (h : (List.range 4).all (fun q => calmReg (f.pg q).addr) = true := by decide) :
    calmReg (f.pg p).addr = true := List.all_eq_true.1 h p (List.mem_range.2 hp)

theorem calmReg_iff {a : Nat} (h : calmReg a = true) : eventReg a = false ∧ a % 4096 ≠ 0x10 := by
  simpa [calmReg] using h

theorem Chip.raise_get_four (c : Chip) (e : Ev) (f : Fld) {p : Nat} (hp : p < 4) (h : (List.range 4).all (fun q => calmReg (f.pg q).addr) = true := by decide) :
    (c.raise e).get (f.pg p) = c.get (f.pg p) := c.raise_get_of e _ (calmReg_iff (calmReg_four hp h)).1

theorem Chip.cond_get_four (c : Chip) (e : Ev) (b : Bool) (f : Fld) {p : Nat} (hp : p < 4)
    (h : (List.range 4).all (fun q => calmReg (f.pg q).addr) = true := by decide) : (c.cond e b).get (f.pg p) = c.get (f.pg p) :=
  c.cond_get_of e b _ (calmReg_iff (calmReg_four hp h)).1 (calmReg_iff (calmReg_four hp h)).2

theorem Quiet.dramPort {c d : Chip} (h : Quiet c d) (p : Nat) : d.dramPort p = c.dramPort p := by rw [Chip.dramPort, h.mem, Chip.dramPort]

theorem Chip.set_dramPort (c : Chip) (f : Fld) (v p : Nat) : (c.set f v).dramPort p = c.dramPort p := rfl

/-! ### Command bits of a register that stores nothing of its write -/

/-- A command bit written to a register without a field that is stored: the effect, on the block with the record. -/
theorem Chip.writeField_strobe {c : Chip} {o : Origin} {f : Fld} {d : RegDef} (g : Chip → Chip) (hr : regAt c.build f.addr = .reg d)
    (ha : f.addr < 0x400000 ∧ f.addr % 4 = 0 ∧ 0x40 ≤ f.addr % 4096 ∧ f.addr ≠ F.DEBUG_CTRL_UNLOCK.addr ∧ unstored f.addr = false)
    (hq : ∀ v w, d.quiesceChange v w = false) (hf : d.fields.filter (fun f => decide (f.acc = .rw)) = [])
    (hs : ∀ v, d.store v (insBits 0 f.hi f.lo 1) = v) (hc : Calm c)
    (hact : ∀ (x : Chip) (old : Word), x.writeEffect o f.addr old (insBits 0 f.hi f.lo 1) = g x) (hg : ∀ x, Calm x → Calm (g x)) :
    ∃ x, Recorded c f.addr x ∧ x.rd f.addr = c.rd f.addr ∧ c.writeField o f 1 = (g x).noteMirror f.addr := by
  have hk : c.keepWord f.addr = 0 := by
    unfold Chip.keepWord
    rw [hr]
    dsimp only
    rw [hf]
    rfl
  obtain ⟨x, hx, hrd, h⟩ := Chip.write32_recorded (o := o) (w := insBits 0 f.hi f.lo 1) hr ha (hq _ _) hc (fun x h => by rw [hact]; exact hg x h)
  exact ⟨x, hx, by rw [hrd, hs], by rw [Chip.writeField, hk, h, hact]⟩

/-! ### The upkeep of a DRAM port (R336 to R340) -/

/-- The builds with a DRAM port: the T build has the first alone. -/
theorem dramPage_cases {b : Build} {p : Nat} (hp : p < 4) (h : (findPage b (dramPage p)).isSome = true) : b = .S ∨ p = 0 := by
  cases b
  · exact .inl rfl
  · interval_cases p
    · exact .inr rfl
    all_goals exact absurd h (by decide +kernel)

/-- The command register of the refresh debts. -/
def defRef : RegDef := ⟨76, 1, 0, true, true, false, false, [⟨31, 16, .w1cAll, .l, 0, 0⟩, ⟨15, 15, .w1s, .l, 0, 0⟩, ⟨3, 0, .ro, .l, 0, 0⟩]⟩

theorem regAt_dramRef {b : Build} {p : Nat} (hp : p < 4) (h : (findPage b (dramPage p)).isSome = true) : regAt b (F.DRAM_REF_CLR.pg p).addr = .reg defRef := by
  rcases dramPage_cases hp h with rfl | rfl
  · interval_cases p <;> rfl
  · cases b <;> rfl

theorem defRef_store (v : Word) : defRef.store v (insBits 0 15 15 1) = v := by
  have h1 : insBits 0 15 15 1 &&& (⟨31, 16, .w1cAll, .l, 0, 0⟩ : FieldDef).mask = 0 := by decide
  simp only [RegDef.store, defRef, List.foldl_cons, List.foldl_nil, h1, if_true]

theorem Chip.writeEffect_dramRef (c : Chip) (o : Origin) {p : Nat} (hp : p < 4) (old : Word) :
    c.writeEffect o (F.DRAM_REF_CLR.pg p).addr old (insBits 0 15 15 1) = c.set (F.DRAM_REF_DEBT_MAX.pg p) 0 := by
  interval_cases p <;> rfl

/-- The largest debt is cleared; the count of forced refreshes stays. -/
theorem Chip.writeField_dramRefClr (c : Chip) (o : Origin) {p : Nat} (hp : p < 4) (hpg : c.hasPage (dramPage p) = true) (hc : Calm c) :
    (c.writeField o (F.DRAM_REF_CLR.pg p) 1).get (F.DRAM_REF_DEBT_MAX.pg p) = 0 ∧
      (c.writeField o (F.DRAM_REF_CLR.pg p) 1).get (F.DRAM_REF_FORCED.pg p) = c.get (F.DRAM_REF_FORCED.pg p) := by
  have ha : (F.DRAM_REF_CLR.pg p).addr = 0x0E004C + 4096 * p := rfl
  have hun : ∀ q < 4, unstored (F.DRAM_REF_CLR.pg q).addr = false := by decide
  have hdb : 0x0E4000 < F.DEBUG_CTRL_UNLOCK.addr := by decide
  obtain ⟨x, -, hx, he⟩ := Chip.writeField_strobe (o := o) (f := F.DRAM_REF_CLR.pg p) (fun x => x.set (F.DRAM_REF_DEBT_MAX.pg p) 0) (regAt_dramRef hp hpg)
    ⟨by omega, by omega, by omega, by omega, hun p hp⟩ (fun _ _ => rfl) rfl defRef_store hc (fun x old => x.writeEffect_dramRef o hp old)
    (fun x h => h.set _ _ (by rw [show (F.DRAM_REF_DEBT_MAX.pg p).addr = 0x0E004C + 4096 * p from rfl]; omega))
  rw [he, Chip.noteMirror_get, Chip.noteMirror_get, Chip.get_set_pg _ _ _ _ (by decide) (by decide),
    Chip.get_set_pg_apart _ F.DRAM_REF_DEBT_MAX F.DRAM_REF_FORCED]
  have hf : x.rd (F.DRAM_REF_FORCED.pg p).addr = c.rd (F.DRAM_REF_FORCED.pg p).addr := hx
  exact ⟨rfl, by rw [Chip.get, hf, Chip.get]⟩

theorem foldl_max_ge (l : List Nat) (m : Nat) : m ≤ l.foldl max m ∧ ∀ x ∈ l, x ≤ l.foldl max m := by
  induction l generalizing m with
  | nil => exact ⟨Nat.le_refl m, fun x hx => absurd hx List.not_mem_nil⟩
  | cons a l ih =>
    obtain ⟨h1, h2⟩ := ih (max m a)
    refine ⟨by rw [List.foldl_cons]; omega, fun x hx => ?_⟩
    rw [List.foldl_cons]
    rcases List.mem_cons.1 hx with rfl | hx
    · omega
    · exact h2 x hx

theorem foldl_max_le (l : List Nat) (m k : Nat) (hm : m ≤ k) (h : ∀ x ∈ l, x ≤ k) : l.foldl max m ≤ k := by
  induction l generalizing m with
  | nil => exact hm
  | cons a l ih => exact ih _ (max_le hm (h a List.mem_cons_self)) (fun x hx => h x (List.mem_cons_of_mem a hx))

/-- A value set is in the map. -/
theorem mem_smSet {α : Type} (m : SMap α) (k : Nat) (v : α) : (k, v) ∈ smSet m k v := by
  induction m with
  | nil => exact List.mem_singleton_self _
  | cons a m ih =>
    obtain ⟨j, w⟩ := a
    unfold smSet
    split
    · exact List.mem_cons_self
    · split
      · exact List.mem_cons_self
      · exact List.mem_cons_of_mem _ ih

/-- The refresh multiplier of a port is never below that of its temperature band, and of what MR4 of any rank asks for. -/
theorem Chip.showMult_spec (c : Chip) (p : Nat) (h : ∀ x ∈ (c.dramPort p).mr4, x.2 ≤ 4) :
    bandMult (c.get (F.DRAM_STATUS_TB.pg p)) ≤ (c.showMult p).get (F.DRAM_STATUS_REF_MULT.pg p) ∧
      ∀ x ∈ (c.dramPort p).mr4, x.2 ≤ (c.showMult p).get (F.DRAM_STATUS_REF_MULT.pg p) := by
  have hb : bandMult (c.get (F.DRAM_STATUS_TB.pg p)) ≤ 4 := by
    unfold bandMult
    split
    · decide
    · split <;> decide
  have hle := foldl_max_le ((c.dramPort p).mr4.map (·.2)) _ 4 hb (fun x hx => by
    obtain ⟨y, hy, rfl⟩ := List.mem_map.1 hx
    exact h y hy)
  obtain ⟨h1, h2⟩ := foldl_max_ge ((c.dramPort p).mr4.map (·.2)) (bandMult (c.get (F.DRAM_STATUS_TB.pg p)))
  have hs : (c.showMult p).get (F.DRAM_STATUS_REF_MULT.pg p) =
      ((c.dramPort p).mr4.map (·.2)).foldl max (bandMult (c.get (F.DRAM_STATUS_TB.pg p))) := by
    unfold Chip.showMult
    rw [Chip.get_set_pg _ _ _ _ (by decide) (by decide)]
    exact Nat.mod_eq_of_lt (Nat.lt_of_le_of_lt hle (by decide))
  rw [hs]
  exact ⟨h1, fun x hx => h2 _ (List.mem_map_of_mem hx)⟩

/-- The debt of a bank after one more refresh is due. -/
def debtAfter (d : Nat) (rtRun : Bool) : Nat := if rtRun = false ∨ 8 ≤ d then d - 1 else d

theorem Chip.refreshDue_spec (c : Chip) {p : Nat} (rank chan bank : Nat) (rtRun : Bool) (hp : p < 4) :
    let d := smGet 0 (c.dramPort p).debts (debtKey rank chan bank) + 1
    let t := c.refreshDue p rank chan bank rtRun
    smGet 0 (t.dramPort p).debts (debtKey rank chan bank) = debtAfter d rtRun ∧ smGet false (t.dramPort p).powerDown rank = false ∧
      t.get (F.DRAM_REF_DEBT_MAX.pg p) = max (c.get (F.DRAM_REF_DEBT_MAX.pg p)) (min 8 d) ∧ (rtRun = true → 8 ≤ d → t.pend E.REF_FORCED = true) := by
  dsimp only
  obtain ⟨d, hd⟩ : ∃ d, d = smGet 0 (c.dramPort p).debts (debtKey rank chan bank) + 1 := ⟨_, rfl⟩
  obtain ⟨x, hx⟩ : ∃ x, x = (c.setDramPort p { c.dramPort p with
      powerDown := smPut false (c.dramPort p).powerDown rank false,
      debts := smPut 0 (c.dramPort p).debts (debtKey rank chan bank) (if !rtRun || decide (8 ≤ d) then d - 1 else d) }).set (F.DRAM_REF_DEBT_MAX.pg p)
        (max (c.get (F.DRAM_REF_DEBT_MAX.pg p)) (min 8 d)) := ⟨_, rfl⟩
  have he : c.refreshDue p rank chan bank rtRun = if rtRun && decide (8 ≤ d) then (x.bumpSat (F.DRAM_REF_FORCED.pg p)).raise E.REF_FORCED else x := by
    rw [hx, hd]
    rfl
  have x1 : smGet 0 (x.dramPort p).debts (debtKey rank chan bank) = debtAfter d rtRun := by
    rw [hx, Chip.set_dramPort, Chip.dramPort_setDramPort, if_pos rfl, smGet_smPut, if_pos rfl, debtAfter]
    cases rtRun <;> simp
  have x2 : smGet false (x.dramPort p).powerDown rank = false := by
    rw [hx, Chip.set_dramPort, Chip.dramPort_setDramPort, if_pos rfl, smGet_smPut, if_pos rfl]
  have x3 : x.get (F.DRAM_REF_DEBT_MAX.pg p) = max (c.get (F.DRAM_REF_DEBT_MAX.pg p)) (min 8 d) := by
    have hlt : c.get (F.DRAM_REF_DEBT_MAX.pg p) < 16 := c.get_lt _
    rw [hx, Chip.get_set_pg _ _ _ _ (by decide) (by decide)]
    exact Nat.mod_eq_of_lt (show _ < 16 by omega)
  clear hx
  rw [he, ← hd]
  by_cases h : (rtRun && decide (8 ≤ d)) = true
  · rw [if_pos h]
    have q := ((x.bumpSat (F.DRAM_REF_FORCED.pg p)).quiet_raise E.REF_FORCED).dramPort p
    have hb : (x.bumpSat (F.DRAM_REF_FORCED.pg p)).dramPort p = x.dramPort p := x.set_dramPort _ _ p
    rw [q, hb, Chip.raise_get_four _ _ _ hp, Chip.bumpSat, Chip.get_set_pg_apart _ F.DRAM_REF_FORCED F.DRAM_REF_DEBT_MAX]
    exact ⟨x1, x2, x3, fun _ _ => Chip.raise_pend _ _ (dramctl_hasPage _) (by decide)⟩
  · rw [if_neg h]
    refine ⟨x1, x2, x3, fun h1 h2 => absurd ?_ h⟩
    rw [h1, decide_eq_true h2]
    rfl

theorem Chip.mr4Poll_spec (c : Chip) {p : Nat} (rank chan code : Nat) (hot : Bool) (hp : p < 4) :
    let t := c.mr4Poll p rank chan code hot
    smFind (t.dramPort p).mr4 (rank * 4 + chan) = some (min 4 code) ∧
      ((∀ x ∈ (c.dramPort p).mr4, x.2 ≤ 4) → bandMult (c.get (F.DRAM_STATUS_TB.pg p)) ≤ t.get (F.DRAM_STATUS_REF_MULT.pg p) ∧
        min 4 code ≤ t.get (F.DRAM_STATUS_REF_MULT.pg p)) ∧ (hot = true → t.raw E.DRAM_HOT = true) := by
  dsimp only
  obtain ⟨x, hx⟩ : ∃ x, x = c.setDramPort p { c.dramPort p with
      mr4 := smSet (c.dramPort p).mr4 (rank * 4 + chan) (min 4 code), hot := smSet (c.dramPort p).hot (rank * 4 + chan) hot } := ⟨_, rfl⟩
  have x1 : x.dramPort p = { c.dramPort p with
      mr4 := smSet (c.dramPort p).mr4 (rank * 4 + chan) (min 4 code), hot := smSet (c.dramPort p).hot (rank * 4 + chan) hot } := by
    rw [hx, Chip.dramPort_setDramPort, if_pos rfl]
  have x2 : ∀ f, x.get f = c.get f := fun f => by rw [hx]; rfl
  have he : c.mr4Poll p rank chan code hot =
      (x.showMult p).cond E.DRAM_HOT ((List.range 4).any (fun q => (x.dramPort q).hot.any (·.2))) := by
    rw [hx]
    rfl
  clear hx
  obtain ⟨b, hb⟩ : ∃ b, b = (List.range 4).any (fun q => (x.dramPort q).hot.any (·.2)) := ⟨_, rfl⟩
  have hm : (x.showMult p).dramPort p = x.dramPort p := Chip.set_dramPort _ _ _ _
  rw [he, ← hb, ((x.showMult p).quiet_cond _ _).dramPort, Chip.cond_get_four _ _ _ _ hp, hm, x1]
  refine ⟨by rw [smFind_smSet, if_pos rfl], fun h => ?_, fun h => ?_⟩
  · obtain ⟨h1, h2⟩ := x.showMult_spec p (by
      rw [x1]
      intro y hy
      rcases smSet_mem _ _ _ _ hy with rfl | hy
      · exact Nat.min_le_left _ _
      · exact h y hy)
    rw [x2] at h1
    rw [x1] at h2
    exact ⟨h1, h2 _ (mem_smSet _ _ _)⟩
  · have hbt : b = true := by
      rw [hb]
      refine List.any_eq_true.2 ⟨p, List.mem_range.2 hp, List.any_eq_true.2 ⟨(rank * 4 + chan, hot), ?_, h⟩⟩
      rw [x1]
      exact mem_smSet _ _ _
    rw [hbt]
    exact Chip.cond_raw _ _ (by decide)

/-- Settles O51: refresh debts, MR4, power-down and write DQ tracking of a port, and the clear of its largest debt. -/
theorem dramUpkeep : Obligations.DramUpkeep := by
  intro s p hs hp hpg
  have hon : ∀ f : Chip → Chip, s.chip.onDram p f = f s.chip := fun f => by
    rw [Chip.onDram, Chip.when, hpg, decide_eq_true hp]
    rfl
  refine ⟨fun rank chan bank rtRun => ?_, fun rank chan code hot => ?_, fun rank => ?_, fun chan drift => ?_, fun o hc => ?_⟩
  · refine Completes.live (fun c => c.onDram p (fun c => c.refreshDue p rank chan bank rtRun)) rfl hs ?_
    rw [hon]
    exact s.chip.refreshDue_spec rank chan bank rtRun hp
  · refine Completes.live (fun c => c.onDram p (fun c => c.mr4Poll p rank chan code hot)) rfl hs ?_
    rw [hon]
    exact s.chip.mr4Poll_spec rank chan code hot hp
  · refine Completes.live (fun c => c.onDram p (fun c => c.powerDown p rank)) rfl hs ?_
    rw [hon]
    by_cases h : s.chip.get F.DRAMCTL_PD_TIMER_NS = 0 ∨ s.chip.rankAwaited p rank = true
    · rw [if_pos h, Chip.powerDown, if_pos (by simpa using h)]
    · rw [if_neg h, Chip.powerDown, if_neg (by simpa using h), Chip.dramPort_setDramPort, if_pos rfl, smGet_smSet, if_pos rfl]
  · refine Completes.live (fun c => c.onDram p (fun c => c.dqsTrack p chan drift)) rfl hs ?_
    rw [hon, Chip.dqsTrack, Chip.dramPort_setDramPort, if_pos rfl, smGet_smSet, if_pos rfl]
    exact ⟨rfl, rfl⟩
  · refine Completes.serveFor o (fun c => c.onDram p (fun c => c.writeField o (F.DRAM_REF_CLR.pg p) 1)) rfl hs ?_
    rw [hon]
    exact s.chip.writeField_dramRefClr o hp hpg hc

end Sys2Proof.Machine
end

