-- ==== Sys2Proof/Proofs/DramPortStates.lean ====
section
-- One proof at a time: proofs that wait for the kernel side by side hold more memory than the check allows.
set_option Elab.async false
/-! PROOF. A request served and what it leaves, where the words of DRAM lie, and the states of a port (R331, R341 to R345). -/

namespace Sys2Proof.Machine

/-! ### Present states that no report writes -/

/-- A report writes no EVT_RAW word. -/
theorem Chip.report_raw (c : Chip) (pg : Nat) (l : List ErrRec) (e : Ev) : (c.report pg l).raw e = c.raw e := by
  have hw : ∀ (x : Chip) (off : Nat) (w : Word), off < 0x38 → off ≠ 0x10 → (x.wr (pg * 4096 + off) w).raw e = x.raw e := fun x off w h1 h2 => by
    rw [Chip.raw, Chip.rd_wr, if_neg (by omega), Chip.raw]
  have hset : ∀ (x : Chip) (f : Fld) (v : Nat), f.addr % 4096 ≠ 0x10 → (x.set (f.pg pg) v).raw e = x.raw e := fun x f v h => by
    have ha : (f.pg pg).addr = f.addr + 4096 * pg := rfl
    rw [Chip.raw, Chip.rd_set_ne _ _ _ _ (by omega), Chip.raw]
  have hcount : ∀ (x : Chip) (f : Fld), f.addr % 4096 ≠ 0x10 →
      (if x.get (f.pg pg) = 2 ^ ((f.pg pg).hi + 1 - (f.pg pg).lo) - 1 then x.set (F.ERR_OVERFLOW.pg pg) 1 else x.bump (f.pg pg)).raw e = x.raw e := fun x f h => by
    split
    · exact hset x F.ERR_OVERFLOW 1 (by decide)
    · exact hset x f _ h
  refine foldl_rel (fun c d => d.raw e = c.raw e) (fun _ => rfl) (fun h k => k.trans h) id _ _ (fun d r _ => ?_) c
  dsimp only [id]
  unfold Chip.reportOne
  dsimp only
  obtain ⟨x, hx, hxe⟩ : ∃ x, x = (if (d.rd (pg * 4096 + 0x20)).getLsbD 31 = true then d
      else (d.wr (pg * 4096 + 0x20) (r.word0 d.barCount)).wr (pg * 4096 + 0x24) (BitVec.ofNat 32 r.loc)) ∧ x.raw e = d.raw e := by
    refine ⟨_, rfl, ?_⟩
    split
    · rfl
    · exact (hw _ _ _ (by decide) (by decide)).trans (hw _ _ _ (by decide) (by decide))
  rw [← hx]
  obtain ⟨y, hy, hye⟩ : ∃ y, y = (if (r.ue || !((x.rd (pg * 4096 + 0x28)).getLsbD 30)) = true then
      (x.wr (pg * 4096 + 0x28) (r.word0 d.barCount)).wr (pg * 4096 + 0x2C) (BitVec.ofNat 32 r.loc) else x) ∧ y.raw e = x.raw e := by
    refine ⟨_, rfl, ?_⟩
    split
    · exact (hw _ _ _ (by decide) (by decide)).trans (hw _ _ _ (by decide) (by decide))
    · rfl
  rw [← hy]
  cases r.ue
  · exact (hcount y F.ERR_CORR (by decide)).trans (hye.trans hxe)
  · exact (hcount y F.ERR_UNCORR (by decide)).trans (hye.trans hxe)

/-! ### A request served, and what it leaves of the ports -/

/-- What a request leaves of a port: its size, and the steps that wait. -/
def DramPortSt.due (s : DramPortSt) : Nat × Bool × Bool × Bool × Option Nat := (s.rankMib, s.stepDue, s.restoreDue, s.retrainDue, s.wild)

/-- What a request leaves of the block beside `DramOnly`: the steps that wait on the ports, the requests that stall, and the present states. -/
structure PortsDue (c d : Chip) : Prop where
  due : ∀ q, (d.dramPort q).due = (c.dramPort q).due
  stalled : d.mem.stalled = c.mem.stalled
  raw : ∀ e, d.raw e = c.raw e

namespace PortsDue

theorem refl (c : Chip) : PortsDue c c := ⟨fun _ => rfl, rfl, fun _ => rfl⟩

theorem trans {c d e : Chip} (h : PortsDue c d) (k : PortsDue d e) : PortsDue c e :=
  ⟨fun q => (k.due q).trans (h.due q), k.stalled.trans h.stalled, fun x => (k.raw x).trans (h.raw x)⟩

theorem ite {c d e : Chip} {p : Prop} [Decidable p] (h : PortsDue c d) (k : PortsDue c e) : PortsDue c (if p then d else e) := by
  split
  · exact h
  · exact k

theorem foldl {α : Type} (f : Chip → α → Chip) (l : List α) (h : ∀ c x, PortsDue c (f c x)) (c : Chip) : PortsDue c (l.foldl f c) :=
  foldl_rel PortsDue refl trans id f l (fun c x _ => h c x) c

theorem setDramPort (c : Chip) (p : Nat) (s : DramPortSt) (h : s.due = (c.dramPort p).due) : PortsDue c (c.setDramPort p s) := by
  refine ⟨fun q => ?_, rfl, fun _ => rfl⟩
  rw [Chip.dramPort_setDramPort]
  split
  · next hq => rw [hq, h]
  · rfl

theorem reported (c : Chip) (pg : Nat) (l : List ErrRec) (e : Ev) : PortsDue c ((c.report pg l).raise e) := by
  have hm : ((c.report pg l).raise e).mem = c.mem := ((c.quiet_report pg l).trans (Chip.quiet_raise _ e)).mem
  exact ⟨fun q => by rw [Chip.dramPort, hm, Chip.dramPort], by rw [hm], fun x => by rw [Chip.raise_raw, Chip.report_raw]⟩

theorem touchRow (c : Chip) (keep : Bool) (a : Nat) : PortsDue c (c.touchRow keep a) := by
  unfold Chip.touchRow
  exact setDramPort c _ _ rfl

theorem dramTouch (c : Chip) (m : Nat) (h : PageHint) (a n : Nat) : PortsDue c (c.dramTouch m h a n) :=
  foldl _ _ (fun d x => touchRow d (d.leavesOpen m h) x) c

theorem dramRange (c : Chip) (m a n : Nat) : PortsDue c (c.dramRange m a n) := ite (refl c) (reported c _ _ _)

theorem dramUe (c : Chip) (p u k s a : Nat) : PortsDue c (c.dramUe p u k s a) := by
  have h0 := setDramPort c p { c.dramPort p with lastUe := some (a / 16, s) } rfl
  unfold Chip.dramUe
  dsimp only
  generalize c.setDramPort p { c.dramPort p with lastUe := some (a / 16, s) } = d at h0 ⊢
  exact ite (refl c) (h0.trans (reported _ _ _ _))

theorem dramCe (c : Chip) (p u s a : Nat) : PortsDue c (c.dramCe p u s a) := by
  have h0 := setDramPort c p { c.dramPort p with ceWindow := (c.dramPort p).ceWindow + 1 } rfl
  unfold Chip.dramCe
  dsimp only
  generalize c.setDramPort p { c.dramPort p with ceWindow := (c.dramPort p).ceWindow + 1 } = d at h0 ⊢
  exact h0.trans (reported _ _ _ _)

theorem dramReadWord (c : Chip) (m a : Nat) : PortsDue c (c.dramReadWord m a).2 := by
  unfold Chip.dramReadWord
  dsimp only
  split
  · exact refl c
  · split
    · exact refl c
    · split
      · exact dramUe c _ _ _ _ _
      · split
        · exact refl c
        · exact dramCe c _ _ _ _
        · exact refl c
        · exact dramUe c _ _ _ _ _

theorem pair {α : Type} {c d : Chip} (x : α) (h : PortsDue c d) : PortsDue c (x, d).2 := h

theorem dramRead (c : Chip) (m a n : Nat) : PortsDue c (c.dramRead m a n).2 := by
  unfold Chip.dramRead
  dsimp only
  have hr := (dramTouch c m (dramHint m false) a n).trans (dramRange (c.dramTouch m (dramHint m false) a n) m a n)
  generalize (c.dramTouch m (dramHint m false) a n).dramRange m a n = d at hr ⊢
  generalize (wordLanes a (List.replicate n (some 0))).map (·.1) = ws
  refine hr.trans (foldl_rel PortsDue refl trans Prod.snd _ ws (fun r w _ => ?_) (([], false), d))
  exact pair _ (dramReadWord r.2 m (16 * w))

theorem set (c : Chip) (f : Fld) (v : Nat) (h : f.addr % 4096 ≠ 0x10) : PortsDue c (c.set f v) :=
  ⟨fun _ => rfl, rfl, fun e => by rw [Chip.raw, Chip.rd_set_ne _ _ _ _ (by omega), Chip.raw]⟩

theorem dramPut (c : Chip) (k : Nat) (w : Word128) (syn : Nat) : PortsDue c (c.dramPut k w syn) := ⟨fun _ => rfl, rfl, fun _ => rfl⟩

theorem dramStore (c : Chip) (a : Nat) (w : Word128) (syn : Nat) : PortsDue c (c.dramStore a w syn) := by
  unfold Chip.dramStore Chip.dramPuts
  dsimp only
  have hput : ∀ (x : Chip) (l : List Nat) (v : Word128) (s : Nat), PortsDue x (l.foldl (fun c k => c.dramPut k v s) x) := fun x l v s =>
    foldl _ _ (fun d k => dramPut d k v s) x
  split
  · refine (set c (F.FLIP_ARM.pg _) 0 ?_).trans (hput _ _ _ _)
    show (0x34 + 4096 * _) % 4096 ≠ 0x10
    omega
  · exact hput _ _ _ _

theorem dramWriteWord (c : Chip) (m a : Nat) (l : List (Option Byte)) : PortsDue c (c.dramWriteWord m a l) := by
  unfold Chip.dramWriteWord
  dsimp only
  split
  · exact refl c
  · split
    · exact refl c
    · split
      · exact refl c
      · split
        · exact dramStore c _ _ _
        · exact (dramReadWord c m a).trans (dramStore _ _ _ _)

theorem markBlocks (c : Chip) (a n : Nat) : PortsDue c (c.markBlocks a n) := by
  obtain ⟨m, e⟩ := c.markBlocks_eq a n
  rw [e]
  exact ⟨fun _ => rfl, rfl, fun _ => rfl⟩

theorem dramWriteNow (c : Chip) (m : Nat) (h : PageHint) (a : Nat) (l : List (Option Byte)) : PortsDue c (c.dramWriteNow m h a l) := by
  rw [Chip.dramWriteNow_eq]
  exact ((markBlocks c a _).trans (dramTouch _ m h a _)).trans ((dramRange _ m a _).trans (foldl _ _ (fun d x => dramWriteWord d m _ _) _))

theorem emit (c : Chip) (o : Output) : PortsDue c (c.emit o) := by
  unfold Chip.emit
  exact ite (refl c) ⟨fun _ => rfl, rfl, fun _ => rfl⟩

theorem dramServe (c : Chip) (r : DramReq) : PortsDue c (c.dramServe r) := by
  unfold Chip.dramServe
  split
  · exact dramWriteNow c _ _ _ _
  · exact (dramRead c _ _ _).trans (emit _ _)

end PortsDue

theorem DramOnly.emit (c : Chip) (o : Output) : DramOnly c (c.emit o) := by
  unfold Chip.emit
  exact DramOnly.ite (DramOnly.refl c) ⟨rfl, rfl, fun _ _ => rfl, PendUp.refl c⟩

theorem DramOnly.dramServe (c : Chip) (r : DramReq) : DramOnly c (c.dramServe r) := by
  unfold Chip.dramServe
  split
  · exact DramOnly.dramWriteNow c _ _ _ _
  · exact (DramOnly.dramRead c _ _ _).trans (DramOnly.emit _ _)

/-! ### The requests that stalled -/

/-- What the requests that stalled leave of the block, served or stalled again. -/
structure Unstalled (c d : Chip) : Prop where
  only : DramOnly c d
  due : ∀ q, (d.dramPort q).due = (c.dramPort q).due
  raw : ∀ e, d.raw e = c.raw e

theorem Chip.dramUnstall_spec (c : Chip) : Unstalled c c.dramUnstall := by
  have h0 : Unstalled c { c with mem := { c.mem with stalled := [] } } := ⟨DramOnly.setMem c _, fun _ => rfl, fun _ => rfl⟩
  unfold Chip.dramUnstall
  refine foldl_rel (fun a b => Unstalled c a → Unstalled c b) (fun _ h => h) (fun h k x => k (h x)) id _ _ (fun d r _ h => ?_) _ h0
  dsimp only [id] at h ⊢
  split
  · exact ⟨h.only.trans (DramOnly.setMem d _), h.due, h.raw⟩
  · have hd := PortsDue.dramServe d r
    exact ⟨h.only.trans (DramOnly.dramServe d r), fun q => (hd.due q).trans (h.due q), fun e => (hd.raw e).trans (h.raw e)⟩

/-- Where no port steps, nothing stalls again. -/
theorem Chip.dramUnstall_stalled (c : Chip) (h : ∀ q, q < 4 → c.state (dramPage q) ≠ dsStep) : c.dramUnstall.mem.stalled = [] := by
  have hq : ∀ q, q < 4 → quietReg (F.STATE.pg (dramPage q)).addr = true := by decide
  have hstep : ∀ d : Chip, DramOnly c d → ∀ q, q < 4 → d.state (dramPage q) ≠ dsStep := fun d hd q hq4 => by
    rw [Chip.state, hd.get _ (hq q hq4)]
    exact h q hq4
  have hno : ∀ (d : Chip) (r : DramReq), DramOnly c d → d.mem.stalled = [] → d.dramStalls r = false := fun d r hd hs => by
    have ha : (List.range 4).any (fun p => decide (d.state (dramPage p) = dsStep)) = false :=
      List.any_eq_false.2 (fun q hq4 => by simpa using hstep d hd q (List.mem_range.1 hq4))
    rw [Chip.dramStalls, Chip.inStep, ha, hs]
    rfl
  unfold Chip.dramUnstall
  refine (foldl_rel (fun a b => (DramOnly c a ∧ a.mem.stalled = []) → (DramOnly c b ∧ b.mem.stalled = [])) (fun _ h => h) (fun h k x => k (h x)) id _ _
    (fun d r _ h => ?_) _ ⟨DramOnly.setMem c _, rfl⟩).2
  dsimp only [id] at h ⊢
  rw [if_neg (by rw [hno d r h.1 h.2]; decide)]
  exact ⟨h.1.trans (DramOnly.dramServe d r), (PortsDue.dramServe d r).stalled.trans h.2⟩

/-! ### Where the words of DRAM lie -/

/-- The table of remapped rows is that of another block. -/
def SameRemap (c d : Chip) : Prop := ∀ a, 0x1000000 ≤ a → smFind d.regs a = smFind c.regs a

namespace SameRemap

theorem refl (c : Chip) : SameRemap c c := fun _ _ => rfl

theorem trans {c d e : Chip} (h : SameRemap c d) (k : SameRemap d e) : SameRemap c e := fun a ha => (k a ha).trans (h a ha)

theorem of_regs {c d : Chip} (h : d.regs = c.regs) : SameRemap c d := fun _ _ => by rw [h]

theorem ite {c d e : Chip} {p : Prop} [Decidable p] (h : SameRemap c d) (k : SameRemap c e) : SameRemap c (if p then d else e) := by
  split
  · exact h
  · exact k

theorem wr (c : Chip) (a : Nat) (w : Word) (h : a < 0x1000000) : SameRemap c (c.wr a w) := fun b hb => by
  show smFind (smSet c.regs a w) b = _
  rw [smFind_smSet, if_neg (by omega)]

theorem set (c : Chip) (f : Fld) (v : Nat) (h : f.addr < 0x1000000) : SameRemap c (c.set f v) := wr c _ _ h

theorem emit (c : Chip) (o : Output) : SameRemap c (c.emit o) := of_regs (Chip.emit_regs c o)

theorem setPort (c : Chip) (p : Nat) (s : PortSt) : SameRemap c (c.setPort p s) := of_regs rfl

theorem queueMonitor (c : Chip) (x : Nat) : SameRemap c (c.queueMonitor x) := by
  unfold Chip.queueMonitor
  refine trans (setPort c 0 _) (foldl_rel SameRemap refl trans (fun c => c) _ _ (fun d p _ => setPort d p _) _)

theorem monitorEvent (c : Chip) (e : Ev) : SameRemap c (c.monitorEvent e) := by
  unfold Chip.monitorEvent
  split
  · exact refl c
  · exact ite (queueMonitor c _) (set c _ _ (by decide))

theorem alertFall (c : Chip) : SameRemap c c.alertFall := by
  unfold Chip.alertFall
  exact ite ((show SameRemap c _ from of_regs rfl).trans (emit _ _)) (refl c)

theorem raiseWith (push : Chip → EvRec → Chip) (hp : ∀ c r, SameRemap c (push c r)) (c : Chip) (e : Ev) (he : e.page < 0x1000) :
    SameRemap c (Chip.raiseWith push c e) := by
  unfold Chip.raiseWith
  refine ite (refl c) ?_
  refine trans ?_ (alertFall _)
  refine trans ?_ (monitorEvent _ e)
  refine trans ?_ (hp _ _)
  refine (wr c _ _ (by omega)).trans (ite ?_ (refl _))
  exact ite (wr _ _ _ (by decide)) (emit _ _)

theorem evqKeep (c : Chip) (r : EvRec) : SameRemap c (c.evqKeep r) := by
  unfold Chip.evqKeep
  split
  · exact of_regs rfl
  · exact set c _ _ (by decide)

theorem evqLose (c : Chip) : SameRemap c c.evqLose := (set c _ _ (by decide)).trans (raiseWith _ evqKeep _ E.EVQ_LOST (by decide))

theorem pushEv (c : Chip) (r : EvRec) : SameRemap c (c.pushEv r) :=
  ite (evqKeep c r) (ite (of_regs rfl) (ite ((show SameRemap c _ from of_regs rfl).trans (evqLose _)) (evqLose c)))

theorem raise (c : Chip) (e : Ev) (he : e.page < 0x1000) : SameRemap c (c.raise e) := raiseWith _ pushEv c e he

theorem cond (c : Chip) (e : Ev) (b : Bool) (he : e.page < 0x1000) : SameRemap c (c.cond e b) := by
  unfold Chip.cond
  dsimp only
  have h0 : SameRemap c (if c.raw e = b then c else c.wr (e.page * 4096 + 0x10)
      (if b then c.rd (e.page * 4096 + 0x10) ||| ((1 : Word) <<< e.bit) else c.rd (e.page * 4096 + 0x10) &&& ~~~((1 : Word) <<< e.bit))) :=
    ite (refl c) (wr c _ _ (by omega))
  exact ite (h0.trans (raise _ e he)) h0

theorem dremap {c d : Chip} (h : SameRemap c d) (p e : Nat) : d.dremap p e = c.dremap p e := by
  unfold Chip.dremap
  rw [h _ (by show 0x1000000 ≤ 0x1000000 + 64 * p + 4 * e; omega)]

end SameRemap

/-- The words of DRAM lie where they lie in another block. -/
structure SamePlaces (c d : Chip) : Prop where
  build : d.build = c.build
  remap : SameRemap c d
  size : d.get F.DRAMCTL_CAPACITY_MIB = c.get F.DRAMCTL_CAPACITY_MIB
  ports : d.get F.DRAMCTL_MAP_PORTS = c.get F.DRAMCTL_MAP_PORTS
  due : ∀ p, (d.dramPort p).rankMib = (c.dramPort p).rankMib ∧ (d.dramPort p).wild = (c.dramPort p).wild
  remapCopy : d.mem.remapCopy = c.mem.remapCopy

namespace SamePlaces

theorem trans {c d e : Chip} (h : SamePlaces c d) (k : SamePlaces d e) : SamePlaces c e :=
  ⟨k.build.trans h.build, h.remap.trans k.remap, k.size.trans h.size, k.ports.trans h.ports,
    fun p => ⟨(k.due p).1.trans (h.due p).1, (k.due p).2.trans (h.due p).2⟩, k.remapCopy.trans h.remapCopy⟩

variable {c d : Chip} (h : SamePlaces c d)
include h

theorem capacity : d.capacity = c.capacity := by unfold Chip.capacity; rw [h.size]

theorem dramLoc (a : Nat) : d.dramLoc a = c.dramLoc a := by
  unfold Chip.dramLoc Chip.dramPorts Chip.dramNc Chip.rankData
  rw [h.build, h.ports]
  simp only [fun p => (h.due p).1]

theorem dramKeys (a : Nat) : d.dramKeys a = c.dramKeys a := by
  unfold Chip.dramKeys Chip.spareKey Chip.spareOfs Chip.rankBytes
  simp only [h.dramLoc, h.remap.dremap, fun p => (h.due p).1, h.remapCopy]

theorem dramKeyPort (k : Nat) : d.dramKeyPort k = c.dramKeyPort k := by unfold Chip.dramKeyPort; rw [h.dramLoc]

theorem wild (k : Nat) : (d.dramPort (d.dramKeyPort k)).wild = (c.dramPort (c.dramKeyPort k)).wild := by rw [h.dramKeyPort, (h.due _).2]

theorem dramData (k : Nat) (hm : d.mem.dram = c.mem.dram) : d.dramData k = c.dramData k := by unfold Chip.dramData; rw [h.dramKeyPort, (h.due _).2, hm]

theorem dramSynOf (k : Nat) (hm : d.mem.dramSyn = c.mem.dramSyn) : d.dramSynOf k = c.dramSynOf k := by
  unfold Chip.dramSynOf; rw [h.dramKeyPort, (h.due _).2, hm]

end SamePlaces

theorem SameWords.places {c d : Chip} (h : SameWords c d) : SamePlaces c d :=
  ⟨h.build, fun a ha => h.regs a (fun e => absurd (e ▸ ha) (by decide)), h.get _ (by decide), h.get _ (by decide), fun p => ⟨h.rankMib p, h.wild p⟩, h.remapCopy⟩

/-! ### The state of a port (R345) -/

/-- A field that a change of a port's state does not write. -/
def offState (g : Fld) : Bool :=
  (List.range 4).all (fun q => g.apart (F.STATE.pg (dramPage q)) && g.apart (F.FAULT.pg (dramPage q)) && g.apart (F.RUNNING.pg (dramPage q)) &&
    g.apart (F.DRAM_TRAIN_BUSY.pg q)) && calmReg g.addr

/-- A port's state, as its page shows it. -/
def Chip.dramShown (c : Chip) (p st : Nat) : Chip :=
  (((c.set (F.STATE.pg (dramPage p)) st).set (F.FAULT.pg (dramPage p))
      (b2n (decide (st = dsStep) || decide (st = dsFailed) || (c.set (F.STATE.pg (dramPage p)) st).on (F.DRAM_TRAIN_NOFIT.pg p)))).set
    (F.RUNNING.pg (dramPage p)) (b2n (decide (dsRun ≤ st) && decide (st < dsFailed)))).set (F.DRAM_TRAIN_BUSY.pg p)
      (b2n (decide (st = dsRetrain) || decide (st = dsStep)))

theorem Chip.setDramState_eq (c : Chip) (p st : Nat) : c.setDramState p st = (c.dramShown p st).cond E.DRAM_PORT_FAIL
    ((List.range 4).any (fun q => (c.dramShown p st).on (F.DRAM_STATUS_POPULATED.pg q) && decide ((c.dramShown p st).state (dramPage q) = dsFailed))) := rfl

theorem Chip.dramShown_get (c : Chip) {p : Nat} (st : Nat) (hp : p < 4) (g : Fld) (hg : offState g = true) : (c.dramShown p st).get g = c.get g := by
  simp only [offState, Bool.and_eq_true, List.all_eq_true] at hg
  obtain ⟨⟨⟨h1, h2⟩, h3⟩, h4⟩ := hg.1 p (List.mem_range.2 hp)
  unfold Chip.dramShown
  rw [Chip.get_set_apart _ _ _ _ h4, Chip.get_set_apart _ _ _ _ h3, Chip.get_set_apart _ _ _ _ h2, Chip.get_set_apart _ _ _ _ h1]

theorem Chip.dramShown_state (c : Chip) {p : Nat} (st : Nat) (hp : p < 4) (hst : st < 16) :
    (c.dramShown p st).state (dramPage p) = st ∧ (c.dramShown p st).get (F.FAULT.pg (dramPage p)) =
      b2n (decide (st = dsStep) || decide (st = dsFailed) || c.on (F.DRAM_TRAIN_NOFIT.pg p)) ∧
    (c.dramShown p st).get (F.DRAM_TRAIN_BUSY.pg p) = b2n (decide (st = dsRetrain) || decide (st = dsStep)) := by
  have hbit : ∀ b : Bool, b2n b % 2 ^ 1 = b2n b := fun b => by cases b <;> rfl
  have hb : ∀ g ∈ [F.STATE, F.FAULT], ∀ q < 4, (g.pg (dramPage q)).apart (F.DRAM_TRAIN_BUSY.pg q) = true := by decide
  have hn : (c.set (F.STATE.pg (dramPage p)) st).on (F.DRAM_TRAIN_NOFIT.pg p) = c.on (F.DRAM_TRAIN_NOFIT.pg p) := by
    have ha : ∀ q < 4, (F.DRAM_TRAIN_NOFIT.pg q).apart (F.STATE.pg (dramPage q)) = true := by decide
    rw [Chip.on, Chip.get_set_apart _ _ _ _ (ha p hp), Chip.on]
  unfold Chip.dramShown
  rw [hn]
  refine ⟨?_, ?_, ?_⟩
  · rw [Chip.state, Chip.get_set_apart _ _ _ _ (hb F.STATE (by decide) p hp), Chip.get_set_pg_apart _ F.RUNNING F.STATE,
      Chip.get_set_pg_apart _ F.FAULT F.STATE, Chip.get_set_pg _ _ _ _ (by decide) (by decide)]
    exact Nat.mod_eq_of_lt hst
  · rw [Chip.get_set_apart _ _ _ _ (hb F.FAULT (by decide) p hp), Chip.get_set_pg_apart _ F.RUNNING F.FAULT,
      Chip.get_set_pg _ _ _ _ (by decide) (by decide)]
    exact hbit _
  · rw [Chip.get_set_pg _ _ _ _ (by decide) (by decide)]
    exact hbit _

theorem Chip.setDramState_get (c : Chip) {p : Nat} (st : Nat) (hp : p < 4) (g : Fld) (hg : offState g = true) :
    (c.setDramState p st).get g = c.get g := by
  have hc : calmReg g.addr = true := by
    simp only [offState, Bool.and_eq_true] at hg
    exact hg.2
  rw [Chip.setDramState_eq, Chip.cond_get_of _ _ _ _ (calmReg_iff hc).1 (calmReg_iff hc).2, c.dramShown_get st hp g hg]

/-- The state that a port enters. -/
theorem Chip.setDramState_state (c : Chip) {p : Nat} (st : Nat) (hp : p < 4) (hst : st < 16) :
    (c.setDramState p st).state (dramPage p) = st ∧ (c.setDramState p st).get (F.FAULT.pg (dramPage p)) =
      b2n (decide (st = dsStep) || decide (st = dsFailed) || c.on (F.DRAM_TRAIN_NOFIT.pg p)) ∧
    (c.setDramState p st).get (F.DRAM_TRAIN_BUSY.pg p) = b2n (decide (st = dsRetrain) || decide (st = dsStep)) := by
  have hc : ∀ g ∈ [F.STATE.pg (dramPage p), F.FAULT.pg (dramPage p), F.DRAM_TRAIN_BUSY.pg p], calmReg g.addr = true := by
    have h : ∀ q < 4, ∀ g ∈ [F.STATE.pg (dramPage q), F.FAULT.pg (dramPage q), F.DRAM_TRAIN_BUSY.pg q], calmReg g.addr = true := by decide
    exact h p hp
  have hg : ∀ g ∈ [F.STATE.pg (dramPage p), F.FAULT.pg (dramPage p), F.DRAM_TRAIN_BUSY.pg p], (c.setDramState p st).get g = (c.dramShown p st).get g := fun g h => by
    rw [Chip.setDramState_eq, Chip.cond_get_of _ _ _ _ (calmReg_iff (hc g h)).1 (calmReg_iff (hc g h)).2]
  rw [Chip.state, hg _ (by simp), hg (F.FAULT.pg (dramPage p)) (by simp), hg (F.DRAM_TRAIN_BUSY.pg p) (by simp)]
  exact c.dramShown_state st hp hst

/-- A populated port that has failed is shown by its event. -/
theorem Chip.setDramState_failed (c : Chip) {p : Nat} (hp : p < 4) (h : c.on (F.DRAM_STATUS_POPULATED.pg p) = true) :
    (c.setDramState p dsFailed).raw E.DRAM_PORT_FAIL = true := by
  have hpop : ∀ q < 4, offState (F.DRAM_STATUS_POPULATED.pg q) = true := by decide
  have hany : (List.range 4).any (fun q => (c.dramShown p dsFailed).on (F.DRAM_STATUS_POPULATED.pg q) &&
      decide ((c.dramShown p dsFailed).state (dramPage q) = dsFailed)) = true := by
    refine List.any_eq_true.2 ⟨p, List.mem_range.2 hp, ?_⟩
    rw [Chip.on, c.dramShown_get _ hp _ (hpop p hp), (c.dramShown_state dsFailed hp (by decide)).1]
    rw [Chip.on] at h
    rw [h]
    rfl
  rw [Chip.setDramState_eq, hany]
  exact Chip.cond_raw _ _ (by decide)

theorem Chip.setDramState_still (c : Chip) (p st : Nat) : (c.setDramState p st).still = c.still := by
  rw [Chip.setDramState_eq]
  exact (Chip.quiet_cond _ _ _).1

theorem Chip.setDramState_mem (c : Chip) (p st : Nat) : (c.setDramState p st).mem = c.mem := by
  rw [Chip.setDramState_eq]
  exact (Chip.quiet_cond _ _ _).mem

theorem Chip.setDramState_dramPort (c : Chip) (p st q : Nat) : (c.setDramState p st).dramPort q = c.dramPort q := by
  rw [Chip.dramPort, Chip.setDramState_mem, Chip.dramPort]

theorem SameRemap.setDramState (c : Chip) {p : Nat} (st : Nat) (hp : p < 4) : SameRemap c (c.setDramState p st) := by
  have h : ∀ q < 4, ∀ g ∈ [F.STATE.pg (dramPage q), F.FAULT.pg (dramPage q), F.RUNNING.pg (dramPage q), F.DRAM_TRAIN_BUSY.pg q], g.addr < 0x1000000 := by decide
  rw [Chip.setDramState_eq]
  refine SameRemap.trans ?_ (SameRemap.cond _ _ _ (by decide))
  exact (((SameRemap.set _ _ _ (h p hp _ (by simp))).trans (SameRemap.set _ _ _ (h p hp _ (by simp)))).trans (SameRemap.set _ _ _ (h p hp _ (by simp)))).trans
    (SameRemap.set _ _ _ (h p hp _ (by simp)))

/-! ### Commands of a DRAM port (R341, R343) -/

/-- The command register of a DRAM port. -/
def defDramCmd : RegDef := ⟨84, 1, 0, true, true, false, true, [⟨1, 1, .w1s, .l, 0, 0⟩, ⟨0, 0, .w1s, .l, 0, 0⟩]⟩

theorem regAt_dramCmd {b : Build} {p : Nat} (hp : p < 4) (h : (findPage b (dramPage p)).isSome = true) : regAt b (F.DRAM_CMD_RETRAIN.pg p).addr = .reg defDramCmd := by
  rcases dramPage_cases hp h with rfl | rfl
  · interval_cases p <;> rfl
  · cases b <;> rfl

theorem Chip.writeEffect_dramCmd (c : Chip) (o : Origin) {p : Nat} (hp : p < 4) (old : Word) :
    c.writeEffect o (F.DRAM_CMD_RETRAIN.pg p).addr old (insBits 0 0 0 1) = c.retrainStart p ∧
      c.writeEffect o (F.DRAM_CMD_RETRAIN.pg p).addr old (insBits 0 1 1 1) = c.rateRestore p := by
  interval_cases p <;> exact ⟨rfl, rfl⟩

theorem Keeps.setDramState {α : Type} {ρ : Chip → α} {c d : Chip} {p st : Nat} (h : Keeps ρ [] [] c d) (hp : p < 4) : Keeps ρ [] [] c (d.setDramState p st) := by
  have ha : ∀ q < 4, ∀ g ∈ [F.STATE.pg (dramPage q), F.FAULT.pg (dramPage q), F.RUNNING.pg (dramPage q), F.DRAM_TRAIN_BUSY.pg q], plainReg g.addr = true := by decide
  rw [Chip.setDramState_eq]
  exact .cond (.set (.set (.set (.set h (by simp) (ha p hp _ (by simp))) (by simp) (ha p hp _ (by simp))) (by simp) (ha p hp _ (by simp)))
    (by simp) (ha p hp _ (by simp)))

/-- The accesses that wait on the paths and at the banks. -/
def openView (c : Chip) : HostSt × SMap BankSt := (c.host, c.mem.banks)

/-- A block that keeps what waits on its paths stays calm. -/
theorem Keeps.calm {A : List Nat} {R : List Ev} {c d : Chip} (h : Keeps openView A R c d) (k : Calm c) : Calm d := by
  have e : d.still.host = c.still.host := congrArg Prod.fst h.view
  have hh : d.host = { c.host with alertLow := d.host.alertLow } :=
    (show d.host = { d.still.host with alertLow := d.host.alertLow } from rfl).trans (by rw [e]; rfl)
  have hb : d.mem.banks = c.mem.banks := congrArg Prod.snd h.view
  have hp : d.pathsOpen = c.pathsOpen := by
    unfold Chip.pathsOpen Chip.relayFull Chip.relayWrites Chip.bank
    rw [h.build, hh, hb]
  exact ⟨(Chip.commitPages_congr h.ctrls).trans k.1, hp.trans k.2⟩

theorem Chip.retrainStart_calm (c : Chip) {p : Nat} (hp : p < 4) (h : Calm c) : Calm (c.retrainStart p) := by
  have hs : ∀ q < 4, plainReg (F.DRAM_TRAIN_SLICES_LEFT.pg q).addr = true := by decide
  have k : Keeps openView [] [] c (c.retrainStart p) := by
    unfold Chip.retrainStart
    exact .ite (.setDramState (.setDramPort (.set .refl (by simp) (hs p hp))) hp) (.ite .refl (.setDramPort .refl))
  exact k.calm h

theorem Chip.rateRestore_calm (c : Chip) {p : Nat} (h : Calm c) : Calm (c.rateRestore p) := by
  have k : Keeps openView [] [] c (c.rateRestore p) := by
    unfold Chip.rateRestore
    exact .ite (.setDramPort .refl) .refl
  exact k.calm h

/-- A command bit of a DRAM port written: what it does, on a block with the same ports and fields. -/
theorem Chip.writeField_dramCmd (c : Chip) (o : Origin) {p : Nat} (f : Fld) (g : Chip → Chip) (hp : p < 4) (hpg : c.hasPage (dramPage p) = true) (hc : Calm c)
    (hf : f.addr = (F.DRAM_CMD_RETRAIN.pg p).addr) (hs : ∀ v, defDramCmd.store v (insBits 0 f.hi f.lo 1) = v)
    (hact : ∀ (x : Chip) (old : Word), x.writeEffect o f.addr old (insBits 0 f.hi f.lo 1) = g x) (hg : ∀ x, Calm x → Calm (g x)) :
    ∃ x : Chip, x.mem = c.mem ∧ x.build = c.build ∧ (∀ h : Fld, h.addr ≠ f.addr → calmReg h.addr = true → h.addr ≠ F.DEVICE_CHANGE_LOST_COUNT.addr → x.get h = c.get h) ∧
      c.writeField o f 1 = (g x).noteMirror f.addr := by
  have ha : (F.DRAM_CMD_RETRAIN.pg p).addr = 0x0E0054 + 4096 * p := rfl
  have hun : ∀ q < 4, unstored (F.DRAM_CMD_RETRAIN.pg q).addr = false := by decide
  have hdb : 0x0E4000 < F.DEBUG_CTRL_UNLOCK.addr := by decide
  obtain ⟨x, hx, -, he⟩ := Chip.writeField_strobe (o := o) (f := f) g (by rw [hf]; exact regAt_dramCmd hp hpg)
    (by rw [hf]; exact ⟨by omega, by omega, by omega, by omega, hun p hp⟩) (fun _ _ => rfl) rfl hs hc hact hg
  exact ⟨x, hx.part Chip.mem (fun _ => rfl), hx.part Chip.build (fun _ => rfl), fun h h1 h2 h3 => hx.get h h1 (calmReg_iff h2).1 h3, he⟩

/-- The fields of a port that its commands and steps read. -/
def portFields (p : Nat) : List Fld :=
  [F.STATE.pg (dramPage p), F.DRAM_RATE_CFG_RATE_MAX.pg p, F.DRAM_STATUS_RATE.pg p, F.DRAM_TRAIN_SLICES_LEFT.pg p, F.DRAM_TRAIN_NOFIT.pg p]

theorem portFields_calm {p : Nat} (hp : p < 4) : ∀ h ∈ portFields p, h.addr ≠ (F.DRAM_CMD_RETRAIN.pg p).addr ∧ calmReg h.addr = true ∧
    h.addr ≠ F.DEVICE_CHANGE_LOST_COUNT.addr := by
  have h : ∀ q < 4, ∀ h ∈ portFields q, h.addr ≠ (F.DRAM_CMD_RETRAIN.pg q).addr ∧ calmReg h.addr = true ∧ h.addr ≠ F.DEVICE_CHANGE_LOST_COUNT.addr := by decide
  exact h p hp

theorem offState_port {p : Nat} (hp : p < 4) : ∀ g ∈ [F.DRAM_TRAIN_SLICES_LEFT.pg p, F.DRAM_TRAIN_RETRAINS.pg p, F.DRAM_TRAIN_NOFIT.pg p, F.DRAM_STATUS_RATE.pg p,
    F.DRAM_STATUS_POPULATED.pg p], offState g = true := by
  have h : ∀ q < 4, ∀ g ∈ [F.DRAM_TRAIN_SLICES_LEFT.pg q, F.DRAM_TRAIN_RETRAINS.pg q, F.DRAM_TRAIN_NOFIT.pg q, F.DRAM_STATUS_RATE.pg q,
    F.DRAM_STATUS_POPULATED.pg q], offState g = true := by decide
  exact h p hp

/-- A running port begins to retrain: eight slices for each channel. -/
theorem Chip.retrainStart_run (c : Chip) {p : Nat} (hp : p < 4) (h : c.state (dramPage p) = dsRun) :
    (c.retrainStart p).state (dramPage p) = dsRetrain ∧ (c.retrainStart p).get (F.DRAM_TRAIN_SLICES_LEFT.pg p) = 8 * c.dramNc ∧
      (c.retrainStart p).get (F.DRAM_TRAIN_BUSY.pg p) = 1 := by
  obtain ⟨x, hx⟩ : ∃ x, x = (c.set (F.DRAM_TRAIN_SLICES_LEFT.pg p) (8 * c.dramNc)).setDramPort p { c.dramPort p with retrainDue := false } := ⟨_, rfl⟩
  have x1 : x.get (F.DRAM_TRAIN_SLICES_LEFT.pg p) = 8 * c.dramNc := by
    have hn : 8 * c.dramNc < 2 ^ 6 := by unfold Chip.dramNc; cases c.build <;> decide
    rw [hx]
    refine (Chip.get_set_pg c F.DRAM_TRAIN_SLICES_LEFT p _ (by decide) (by decide)).trans ?_
    exact Nat.mod_eq_of_lt hn
  have e : c.retrainStart p = x.setDramState p dsRetrain := by
    unfold Chip.retrainStart
    rw [if_pos h, hx]
  obtain ⟨h1, -, h2⟩ := x.setDramState_state dsRetrain hp (by decide)
  rw [e]
  exact ⟨h1, by rw [x.setDramState_get _ hp _ (offState_port hp _ (by simp)), x1], h2⟩

theorem Chip.rateRestore_due (c : Chip) (p : Nat) : ((c.rateRestore p).dramPort p).restoreDue =
    ((c.dramPort p).restoreDue || decide (c.get (F.DRAM_RATE_CFG_RATE_MAX.pg p) < c.get (F.DRAM_STATUS_RATE.pg p))) := by
  unfold Chip.rateRestore
  by_cases h : c.get (F.DRAM_RATE_CFG_RATE_MAX.pg p) < c.get (F.DRAM_STATUS_RATE.pg p)
  · rw [if_pos h, Chip.dramPort_setDramPort, if_pos rfl, decide_eq_true h, Bool.or_true]
  · rw [if_neg h, decide_eq_false h, Bool.or_false]

/-! ### Slices, windows and steps (R341 to R344) -/

/-- A slice that is not the last. -/
theorem Chip.retrainSlice_next (c : Chip) {p : Nat} (hp : p < 4) (beat : Option (Nat × Bool)) (found : Bool) (hst : c.state (dramPage p) = dsRetrain)
    (hm : c.sliceMay p beat = true) (h : 1 < c.get (F.DRAM_TRAIN_SLICES_LEFT.pg p)) :
    (c.retrainSlice p beat found).get (F.DRAM_TRAIN_SLICES_LEFT.pg p) = c.get (F.DRAM_TRAIN_SLICES_LEFT.pg p) - 1 ∧
      (c.retrainSlice p beat found).state (dramPage p) = dsRetrain := by
  obtain ⟨x, hx⟩ : ∃ x, x = c.setDramPort p { c.dramPort p with sliceBeat := beat.map (·.1) } := ⟨_, rfl⟩
  have x1 : ∀ f, x.get f = c.get f := fun f => by rw [hx]; rfl
  have e : c.retrainSlice p beat found = x.set (F.DRAM_TRAIN_SLICES_LEFT.pg p) (x.get (F.DRAM_TRAIN_SLICES_LEFT.pg p) - 1) := by
    unfold Chip.retrainSlice
    dsimp only
    rw [if_neg (by rw [hst, hm]; decide), ← hx, if_pos (by rw [x1]; exact h)]
  have hlt : c.get (F.DRAM_TRAIN_SLICES_LEFT.pg p) < 2 ^ 6 := c.get_lt _
  have ha : ∀ q < 4, (F.STATE.pg (dramPage q)).apart (F.DRAM_TRAIN_SLICES_LEFT.pg q) = true := by decide
  rw [e]
  refine ⟨?_, ?_⟩
  · rw [Chip.get_set_pg _ _ _ _ (by decide) (by decide), x1]
    exact Nat.mod_eq_of_lt (show _ < 2 ^ 6 by omega)
  · rw [Chip.state, Chip.get_set_apart _ _ _ _ (ha p hp), x1]
    exact hst

/-- A retraining that has ended: its count, its finding and the port's state. -/
def Chip.retrained (c : Chip) (p : Nat) (found : Bool) : Chip :=
  (((c.set (F.DRAM_TRAIN_SLICES_LEFT.pg p) 0).bump (F.DRAM_TRAIN_RETRAINS.pg p)).set (F.DRAM_TRAIN_NOFIT.pg p) (b2n !found)).setDramState p dsRun

theorem Chip.retrained_spec (c : Chip) {p : Nat} (hp : p < 4) (found : Bool) :
    (c.retrained p found).state (dramPage p) = dsRun ∧ (c.retrained p found).on (F.DRAM_TRAIN_NOFIT.pg p) = !found ∧
      (c.retrained p found).get (F.DRAM_TRAIN_RETRAINS.pg p) = (c.get (F.DRAM_TRAIN_RETRAINS.pg p) + 1) % 65536 ∧
      (c.retrained p found).mem = c.mem := by
  unfold Chip.retrained
  refine ⟨(Chip.setDramState_state _ dsRun hp (by decide)).1, ?_, ?_, Chip.setDramState_mem _ _ _⟩
  · rw [Chip.on, Chip.setDramState_get _ _ hp _ (offState_port hp _ (by simp)), Chip.get_set_pg _ _ _ _ (by decide) (by decide)]
    cases found <;> rfl
  · rw [Chip.setDramState_get _ _ hp _ (offState_port hp _ (by simp)), Chip.get_set_pg_apart _ F.DRAM_TRAIN_NOFIT F.DRAM_TRAIN_RETRAINS, Chip.bump,
      Chip.get_set_pg _ _ _ _ (by decide) (by decide), Chip.get_set_pg_apart _ F.DRAM_TRAIN_SLICES_LEFT F.DRAM_TRAIN_RETRAINS]
    rfl

/-- The last slice ends the retraining. -/
theorem Chip.retrainSlice_last (c : Chip) {p : Nat} (hp : p < 4) (beat : Option (Nat × Bool)) (found : Bool) (hst : c.state (dramPage p) = dsRetrain)
    (hm : c.sliceMay p beat = true) (h : c.get (F.DRAM_TRAIN_SLICES_LEFT.pg p) ≤ 1) (hd : (c.dramPort p).retrainDue = false) :
    let t := c.retrainSlice p beat found
    t.state (dramPage p) = dsRun ∧ t.on (F.DRAM_TRAIN_NOFIT.pg p) = !found ∧ t.pend E.DRAM_RETRAIN = true ∧
      (found = false → t.pend E.DRAM_TRAIN_NOFIT = true) ∧ t.get (F.DRAM_TRAIN_RETRAINS.pg p) = (c.get (F.DRAM_TRAIN_RETRAINS.pg p) + 1) % 65536 := by
  obtain ⟨x, hx⟩ : ∃ x, x = c.setDramPort p { c.dramPort p with sliceBeat := beat.map (·.1) } := ⟨_, rfl⟩
  have x1 : ∀ f, x.get f = c.get f := fun f => by rw [hx]; rfl
  have x2 : (x.dramPort p).retrainDue = false := by
    rw [hx, Chip.dramPort_setDramPort, if_pos rfl]
    exact hd
  obtain ⟨y1, y2, y3, y4⟩ := x.retrained_spec hp found
  rw [x1] at y3
  obtain ⟨y, hy⟩ : ∃ y, y = x.retrained p found := ⟨_, rfl⟩
  rw [← hy] at y1 y2 y3 y4
  obtain ⟨z, hz⟩ : ∃ z, z = if found then y.raise E.DRAM_RETRAIN else (y.raise E.DRAM_RETRAIN).raise E.DRAM_TRAIN_NOFIT := ⟨_, rfl⟩
  have hget : ∀ (a : Chip) (v : Ev) (f : Fld), f ∈ [F.STATE.pg (dramPage p), F.DRAM_TRAIN_NOFIT.pg p, F.DRAM_TRAIN_RETRAINS.pg p] →
      (a.raise v).get f = a.get f := fun a v f hf => by
    have hc : ∀ q < 4, ∀ g ∈ [F.STATE.pg (dramPage q), F.DRAM_TRAIN_NOFIT.pg q, F.DRAM_TRAIN_RETRAINS.pg q], calmReg g.addr = true := by decide
    exact a.raise_get_of v f (calmReg_iff (hc p hp f hf)).1
  have zg : ∀ f ∈ [F.STATE.pg (dramPage p), F.DRAM_TRAIN_NOFIT.pg p, F.DRAM_TRAIN_RETRAINS.pg p], z.get f = y.get f := fun f hf => by
    rw [hz]
    split
    · exact hget _ _ _ hf
    · rw [hget _ _ _ hf, hget _ _ _ hf]
  have zp : z.pend E.DRAM_RETRAIN = true := by
    have h0 : (y.raise E.DRAM_RETRAIN).pend E.DRAM_RETRAIN = true := Chip.raise_pend _ _ (dramctl_hasPage _) (by decide)
    rw [hz]
    split
    · exact h0
    · exact Chip.pend_raise _ _ _ h0
  have zn : found = false → z.pend E.DRAM_TRAIN_NOFIT = true := fun hf => by
    rw [hz, if_neg (by rw [hf]; decide)]
    exact Chip.raise_pend _ _ (dramctl_hasPage _) (by decide)
  have zm : z.mem = x.mem := by
    rw [hz]
    split
    · rw [(Chip.quiet_raise _ _).mem, y4]
    · rw [(Chip.quiet_raise _ _).mem, (Chip.quiet_raise _ _).mem, y4]
  have e : c.retrainSlice p beat found = z := by
    have e0 : c.retrainSlice p beat found = z.retrainNext p := by
      unfold Chip.retrainSlice
      dsimp only
      rw [if_neg (by rw [hst, hm]; decide), ← hx, if_neg (by rw [x1]; omega), hz, hy]
      cases found <;> rfl
    have hdue : (z.dramPort p).retrainDue = false := by rw [Chip.dramPort, zm, ← Chip.dramPort, x2]
    rw [e0, Chip.retrainNext, hdue]
    rfl
  dsimp only
  rw [e]
  exact ⟨(zg _ (by simp)).trans y1, by rw [Chip.on, zg _ (by simp)]; exact y2, zp, zn, by rw [zg _ (by simp), y3]⟩

/-! ### Windows, steps and failure of a DRAM port (R343 to R345) -/

theorem Chip.eccWindow_spec (c : Chip) {p : Nat} (hp : p < 4) :
    (c.eccWindow p).get (F.DRAM_ECC_RATE_CE_LAST.pg p) = min 65535 (c.dramPort p).ceWindow ∧ ((c.eccWindow p).dramPort p).ceWindow = 0 ∧
      ((c.eccWindow p).dramPort p).stepDue = ((c.dramPort p).stepDue || (c.on (F.DRAM_TRAIN_NOFIT.pg p) && c.on (F.DRAM_RATE_CFG_STEP_EN.pg p) &&
        decide (c.get (F.DRAM_ECC_RATE_MAX.pg p) < (c.dramPort p).ceWindow) &&
        decide (c.state (dramPage p) = dsRun ∨ c.state (dramPage p) = dsRetrain))) := by
  obtain ⟨x, hx⟩ : ∃ x, x = c.set (F.DRAM_ECC_RATE_CE_LAST.pg p) (min 65535 (c.dramPort p).ceWindow) := ⟨_, rfl⟩
  have ha : ∀ q < 4, (F.STATE.pg (dramPage q)).apart (F.DRAM_ECC_RATE_CE_LAST.pg q) = true := by decide
  have x1 : x.on (F.DRAM_TRAIN_NOFIT.pg p) = c.on (F.DRAM_TRAIN_NOFIT.pg p) := by
    rw [hx, Chip.on, Chip.get_set_pg_apart _ F.DRAM_ECC_RATE_CE_LAST F.DRAM_TRAIN_NOFIT, Chip.on]
  have x2 : x.on (F.DRAM_RATE_CFG_STEP_EN.pg p) = c.on (F.DRAM_RATE_CFG_STEP_EN.pg p) := by
    rw [hx, Chip.on, Chip.get_set_pg_apart _ F.DRAM_ECC_RATE_CE_LAST F.DRAM_RATE_CFG_STEP_EN, Chip.on]
  have x3 : x.get (F.DRAM_ECC_RATE_MAX.pg p) = c.get (F.DRAM_ECC_RATE_MAX.pg p) := by
    rw [hx, Chip.get_set_pg_apart _ F.DRAM_ECC_RATE_CE_LAST F.DRAM_ECC_RATE_MAX]
  have x4 : x.state (dramPage p) = c.state (dramPage p) := by rw [hx, Chip.state, Chip.get_set_apart _ _ _ _ (ha p hp), Chip.state]
  have x5 : x.get (F.DRAM_ECC_RATE_CE_LAST.pg p) = min 65535 (c.dramPort p).ceWindow := by
    rw [hx, Chip.get_set_pg _ _ _ _ (by decide) (by decide)]
    exact Nat.mod_eq_of_lt (show _ < 65536 by omega)
  unfold Chip.eccWindow
  dsimp only
  rw [← hx, Chip.dramPort_setDramPort, if_pos rfl, x1, x2, x3, x4]
  refine ⟨x5, rfl, ?_⟩
  dsimp only
  rw [Bool.decide_or]

/-- A due step begins where the port still runs at a grade above the lowest. -/
theorem Chip.rateStep_begun (c : Chip) {p : Nat} (hp : p < 4) (hd : (c.dramPort p).stepDue = true) (hst : c.state (dramPage p) = dsRun)
    (hr : c.get (F.DRAM_STATUS_RATE.pg p) < 3) :
    (c.rateStep p).state (dramPage p) = dsStep ∧ (c.rateStep p).get (F.FAULT.pg (dramPage p)) = 1 := by
  have e : c.rateStep p = ((c.set (F.DRAM_TRAIN_SLICES_LEFT.pg p) 0).setDramPort p { c.dramPort p with retrainDue := false }).setDramState p dsStep := by
    unfold Chip.rateStep
    dsimp only
    rw [if_neg (by rw [hd, hst, Bool.true_or]; decide), if_neg (by simp; omega)]
  rw [e]
  obtain ⟨h1, h2, -⟩ := Chip.setDramState_state ((c.set (F.DRAM_TRAIN_SLICES_LEFT.pg p) 0).setDramPort p { c.dramPort p with retrainDue := false }) dsStep hp (by decide)
  exact ⟨h1, h2⟩

/-- What the canvas limit shows: two fields of DRAMCTL. -/
theorem Chip.showCanvasLimit_spec (c : Chip) : c.showCanvasLimit.still = c.still ∧ SameRemap c c.showCanvasLimit ∧
    (∀ a, a ≠ F.DRAMCTL_CANVAS_LIMIT_NOW.addr → c.showCanvasLimit.rd a = c.rd a) := by
  unfold Chip.showCanvasLimit
  split
  · exact ⟨rfl, SameRemap.refl c, fun _ _ => rfl⟩
  · refine ⟨rfl, (SameRemap.set _ _ _ (by decide)).trans (SameRemap.set _ _ _ (by decide)), fun a h => ?_⟩
    rw [Chip.rd_set_ne _ F.DRAMCTL_CANVAS_LIMIT_AFTER_RESTART _ _ h, Chip.rd_set_ne _ _ _ _ h]

theorem Chip.showCanvasLimit_get (c : Chip) (f : Fld) (h : f.addr ≠ F.DRAMCTL_CANVAS_LIMIT_NOW.addr) : c.showCanvasLimit.get f = c.get f := by
  rw [Chip.get, c.showCanvasLimit_spec.2.2 _ h, Chip.get]

theorem Chip.showCanvasLimit_raw (c : Chip) (e : Ev) : c.showCanvasLimit.raw e = c.raw e := by
  rw [Chip.raw, c.showCanvasLimit_spec.2.2 _ (by have : F.DRAMCTL_CANVAS_LIMIT_NOW.addr = 0x0E4058 := by decide
                                                 omega), Chip.raw]

theorem Chip.showCanvasLimit_mem (c : Chip) : c.showCanvasLimit.mem = c.mem := by
  have h := congrArg Chip.mem c.showCanvasLimit_spec.1
  exact h

/-- Fields of a port that no report and no other port writes. -/
theorem portQuiet {p : Nat} (hp : p < 4) : ∀ g ∈ [F.STATE.pg (dramPage p), F.FAULT.pg (dramPage p), F.DRAM_STATUS_RATE.pg p, F.DRAM_STATUS_POPULATED.pg p],
    quietReg g.addr = true ∧ calmReg g.addr = true ∧ g.addr ≠ F.DRAMCTL_CANVAS_LIMIT_NOW.addr := by
  have h : ∀ q < 4, ∀ g ∈ [F.STATE.pg (dramPage q), F.FAULT.pg (dramPage q), F.DRAM_STATUS_RATE.pg q, F.DRAM_STATUS_POPULATED.pg q],
    quietReg g.addr = true ∧ calmReg g.addr = true ∧ g.addr ≠ F.DRAMCTL_CANVAS_LIMIT_NOW.addr := by decide
  exact h p hp

/-- What follows a port's new state: the requests that stalled, and the canvas limit. -/
def Chip.portChanged (c : Chip) (p st : Nat) : Chip := ((c.setDramState p st).dramUnstall).showCanvasLimit

theorem Chip.portChanged_get (c : Chip) {p : Nat} (st : Nat) (hp : p < 4) :
    ∀ g ∈ [F.STATE.pg (dramPage p), F.FAULT.pg (dramPage p), F.DRAM_STATUS_RATE.pg p, F.DRAM_STATUS_POPULATED.pg p],
      (c.portChanged p st).get g = (c.setDramState p st).get g := fun g hg => by
  obtain ⟨h1, -, h3⟩ := portQuiet hp g hg
  rw [Chip.portChanged, Chip.showCanvasLimit_get _ _ h3, (Chip.dramUnstall_spec _).only.get _ h1]

/-- A port that fails shows it. -/
theorem Chip.dramFail_spec (c : Chip) {p : Nat} (hp : p < 4) (h0 : c.state (dramPage p) ≠ dsAbsent) (h6 : c.state (dramPage p) ≠ dsFailed)
    (hpop : c.on (F.DRAM_STATUS_POPULATED.pg p) = true) :
    (c.dramFail p).state (dramPage p) = dsFailed ∧ (c.dramFail p).get (F.FAULT.pg (dramPage p)) = 1 ∧ (c.dramFail p).raw E.DRAM_PORT_FAIL = true := by
  obtain ⟨x, hx⟩ : ∃ x, x = ((c.setDramPort p { c.dramPort p with stepDue := false, restoreDue := false, retrainDue := false }).set
      (F.DRAM_TRAIN_SLICES_LEFT.pg p) 0).report (dramPage p) [{ ue := true, kind := 2, unit := 0, syndrome := 0, loc := 0 }] := ⟨_, rfl⟩
  have x1 : x.on (F.DRAM_STATUS_POPULATED.pg p) = true := by
    rw [hx, Chip.on, (Chip.quiet_report _ _ _).get _ (portQuiet hp _ (by simp)).1,
      Chip.get_set_pg_apart _ F.DRAM_TRAIN_SLICES_LEFT F.DRAM_STATUS_POPULATED]
    exact hpop
  have e : c.dramFail p = x.portChanged p dsFailed := by
    unfold Chip.dramFail
    dsimp only
    rw [if_neg (by simp [h0, h6]), hx]
    rfl
  obtain ⟨h1, h2, -⟩ := x.setDramState_state dsFailed hp (by decide)
  rw [e]
  refine ⟨?_, ?_, ?_⟩
  · rw [Chip.state, x.portChanged_get _ hp _ (by simp)]
    exact h1
  · rw [x.portChanged_get _ hp _ (by simp)]
    exact h2
  · rw [Chip.portChanged, Chip.showCanvasLimit_raw, (Chip.dramUnstall_spec _).raw]
    exact x.setDramState_failed hp x1

/-- The ranks found on a port, and their size. -/
def Chip.ranksFound (c : Chip) (p ranks mib : Nat) : Chip :=
  let c := (c.set (F.DRAM_STATUS_POPULATED.pg p) 1).set (F.DRAM_STATUS_RANKS.pg p) (min 2 ranks)
  let c := c.set (F.DRAM_STATUS_CAP_MIB.pg p) (c.dramNc * min 2 ranks * mib)
  c.setDramPort p { c.dramPort p with rankMib := mib }

/-- A port that trained at start waits for the fill. -/
theorem Chip.dramInit_trained (c : Chip) {p : Nat} (hp : p < 4) (hpg : c.hasPage (dramPage p) = true) (ranks mib g : Nat) (hr : 0 < ranks)
    (hf : c.on F.ECC_STATUS_DRAM_FILLED = false) (hst : c.state (dramPage p) = dsAbsent ∨ c.state (dramPage p) = dsTrain) :
    let t := c.dramInit p ranks mib true (some g)
    t.state (dramPage p) = dsFill ∧ t.get (F.DRAM_STATUS_POPULATED.pg p) = 1 ∧
      t.get (F.DRAM_STATUS_RATE.pg p) = min 3 (max g (c.get (F.DRAM_RATE_CFG_RATE_MAX.pg p))) ∧ (t.dramPort p).rankMib = mib := by
  obtain ⟨x, hx⟩ : ∃ x, x = c.ranksFound p ranks mib := ⟨_, rfl⟩
  have x1 : x.get (F.DRAM_STATUS_POPULATED.pg p) = 1 := by
    rw [hx, Chip.ranksFound]
    dsimp only
    rw [Chip.setDramPort_get, Chip.get_set_pg_apart _ F.DRAM_STATUS_CAP_MIB F.DRAM_STATUS_POPULATED, Chip.get_set_pg_apart _ F.DRAM_STATUS_RANKS F.DRAM_STATUS_POPULATED, Chip.get_set_pg _ _ _ _ (by decide) (by decide)]
    rfl
  have x2 : x.get (F.DRAM_RATE_CFG_RATE_MAX.pg p) = c.get (F.DRAM_RATE_CFG_RATE_MAX.pg p) := by
    rw [hx, Chip.ranksFound]
    dsimp only
    rw [Chip.setDramPort_get, Chip.get_set_pg_apart _ F.DRAM_STATUS_CAP_MIB F.DRAM_RATE_CFG_RATE_MAX, Chip.get_set_pg_apart _ F.DRAM_STATUS_RANKS F.DRAM_RATE_CFG_RATE_MAX, Chip.get_set_pg_apart _ F.DRAM_STATUS_POPULATED F.DRAM_RATE_CFG_RATE_MAX]
  have x3 : (x.dramPort p).rankMib = mib := by rw [hx, Chip.ranksFound, Chip.dramPort_setDramPort, if_pos rfl]
  have e : c.dramInit p ranks mib true (some g) =
      (x.set (F.DRAM_STATUS_RATE.pg p) (min 3 (max g (x.get (F.DRAM_RATE_CFG_RATE_MAX.pg p))))).setDramState p dsFill := by
    unfold Chip.dramInit
    dsimp only
    rw [if_neg, if_neg (by omega), if_neg (by decide), hx]
    · rfl
    · rw [hpg, hf, decide_eq_true hp]
      rcases hst with h | h <;> rw [h] <;> decide
  dsimp only
  rw [e, x2]
  obtain ⟨h1, -, -⟩ := Chip.setDramState_state (x.set (F.DRAM_STATUS_RATE.pg p) (min 3 (max g (c.get (F.DRAM_RATE_CFG_RATE_MAX.pg p))))) dsFill hp (by decide)
  refine ⟨h1, ?_, ?_, ?_⟩
  · rw [Chip.setDramState_get _ _ hp _ (offState_port hp _ (by simp)), Chip.get_set_pg_apart _ F.DRAM_STATUS_RATE F.DRAM_STATUS_POPULATED, x1]
  · rw [Chip.setDramState_get _ _ hp _ (offState_port hp _ (by simp)), Chip.get_set_pg _ _ _ _ (by decide) (by decide)]
    exact Nat.mod_eq_of_lt (show _ < 4 by omega)
  · rw [Chip.setDramState_dramPort, Chip.set_dramPort, x3]

/-! ### The end of a step (R343) -/

/-- A port that has stepped to a grade, before what stalled is served. -/
def Chip.stepped (c : Chip) (p new : Nat) : Chip :=
  ((c.setDramPort p { c.dramPort p with stepDue := false, restoreDue := false }).set (F.DRAM_STATUS_RATE.pg p) new).setDramState p dsRun

theorem Chip.stepped_dramPort (c : Chip) (p new q : Nat) : (c.stepped p new).dramPort q =
    if q = p then { c.dramPort p with stepDue := false, restoreDue := false } else c.dramPort q := by
  rw [Chip.stepped, Chip.setDramState_dramPort, Chip.set_dramPort, Chip.dramPort_setDramPort]

theorem Chip.stepped_mem (c : Chip) (p new : Nat) : (c.stepped p new).mem = (c.setDramPort p { c.dramPort p with stepDue := false, restoreDue := false }).mem := by
  rw [Chip.stepped, Chip.setDramState_mem, Chip.set_mem]

/-- A field of no state and no rate of a port. -/
theorem Chip.stepped_get (c : Chip) {p : Nat} (new : Nat) (hp : p < 4) (g : Fld) (hg : offState g = true) (hr : g.apart (F.DRAM_STATUS_RATE.pg p) = true) :
    (c.stepped p new).get g = c.get g := by
  rw [Chip.stepped, Chip.setDramState_get _ _ hp _ hg, Chip.get_set_apart _ _ _ _ hr, Chip.setDramPort_get]

/-- The state of another port stays. -/
theorem Chip.stepped_state_ne (c : Chip) {p q : Nat} (new : Nat) (hp : p < 4) (hq : q < 4) (hne : q ≠ p) :
    (c.stepped p new).state (dramPage q) = c.state (dramPage q) := by
  have h : ∀ p < 4, ∀ q < 4, q ≠ p → ∀ g ∈ [F.STATE.pg (dramPage p), F.FAULT.pg (dramPage p), F.RUNNING.pg (dramPage p), F.DRAM_TRAIN_BUSY.pg p,
    F.DRAM_STATUS_RATE.pg p], (F.STATE.pg (dramPage q)).apart g = true := by decide
  have hc : ∀ q < 4, calmReg (F.STATE.pg (dramPage q)).addr = true := by decide
  rw [Chip.state, Chip.stepped, Chip.setDramState_eq, Chip.cond_get_of _ _ _ _ (calmReg_iff (hc q hq)).1 (calmReg_iff (hc q hq)).2, Chip.dramShown,
    Chip.get_set_apart _ _ _ _ (h p hp q hq hne _ (by simp)), Chip.get_set_apart _ _ _ _ (h p hp q hq hne _ (by simp)),
    Chip.get_set_apart _ _ _ _ (h p hp q hq hne _ (by simp)), Chip.get_set_apart _ _ _ _ (h p hp q hq hne _ (by simp)),
    Chip.get_set_apart _ _ _ _ (h p hp q hq hne _ (by simp)), Chip.setDramPort_get, Chip.state]

theorem Chip.stepped_places (c : Chip) {p : Nat} (new : Nat) (hp : p < 4) : SamePlaces c (c.stepped p new) := by
  have h1 : ∀ g ∈ [F.DRAMCTL_CAPACITY_MIB, F.DRAMCTL_MAP_PORTS], offState g = true ∧ ∀ q < 4, g.apart (F.DRAM_STATUS_RATE.pg q) = true := by decide
  have h2 : ∀ q < 4, (F.DRAM_STATUS_RATE.pg q).addr < 0x1000000 := by decide
  have hs : (c.stepped p new).still = (c.setDramPort p { c.dramPort p with stepDue := false, restoreDue := false }).still := by
    rw [Chip.stepped, Chip.setDramState_still]
    rfl
  refine ⟨?_, ?_, ?_, ?_, fun q => ?_, by rw [c.stepped_mem]; rfl⟩
  · have h := congrArg Chip.build hs
    exact h
  · exact (SameRemap.of_regs rfl).trans ((SameRemap.set _ _ _ (h2 p hp)).trans (SameRemap.setDramState _ _ hp))
  · exact c.stepped_get new hp _ (h1 _ (by simp)).1 ((h1 _ (by simp)).2 p hp)
  · exact c.stepped_get new hp _ (h1 _ (by simp)).1 ((h1 _ (by simp)).2 p hp)
  · rw [c.stepped_dramPort]
    split
    · next hq =>
      subst hq
      exact ⟨rfl, rfl⟩
    · exact ⟨rfl, rfl⟩

theorem Chip.stepped_state (c : Chip) {p : Nat} (new : Nat) (hp : p < 4) : (c.stepped p new).state (dramPage p) = dsRun :=
  (Chip.setDramState_state _ dsRun hp (by decide)).1

/-- One whole word that stalled is written clean once no port steps. -/
theorem Chip.dramUnstall_write (c : Chip) (master a : Nat) (bytes : List Byte) (k : Nat) (hl : bytes.length = 16) (ha : a % 16 = 0)
    (hst : c.mem.stalled = [dramReqOf master true a (bytes.map some)]) (hno : ∀ q, q < 4 → c.state (dramPage q) ≠ dsStep) (hc : a + 16 ≤ c.capacity)
    (hf : c.state (dramPage (c.dramLoc a).port) ≠ dsFailed) (hflip : c.flipArmed (dramPage (c.dramLoc a).port) = false) (hk : (c.dramKeys a).2 = [k])
    (hw : (c.dramPort (c.dramKeyPort k)).wild = none) :
    SamePlaces c c.dramUnstall ∧ c.dramUnstall.dramData k = BitVec.ofNat 128 (ofLe bytes) ∧ c.dramUnstall.dramSynOf k = 0 := by
  obtain ⟨x, hx⟩ : ∃ x : Chip, x = { c with mem := { c.mem with stalled := [] } } := ⟨_, rfl⟩
  have x0 : SamePlaces c x := by
    rw [hx]
    exact ⟨rfl, SameRemap.refl _, rfl, rfl, fun _ => ⟨rfl, rfl⟩, rfl⟩
  have x1 : ∀ f, x.get f = c.get f := fun f => by rw [hx]; rfl
  have x2 : x.mem.stalled = [] := by rw [hx]
  have xs : x.dramStalls (dramReqOf master true a (bytes.map some)) = false := by
    have h : (List.range 4).any (fun p => decide (x.state (dramPage p) = dsStep)) = false :=
      List.any_eq_false.2 (fun q hq => by
        rw [Chip.state, x1, ← Chip.state]
        simpa using hno q (List.mem_range.1 hq))
    rw [Chip.dramStalls, Chip.inStep, h, x2]
    rfl
  have e : c.dramUnstall = x.dramServe (dramReqOf master true a (bytes.map some)) := by
    unfold Chip.dramUnstall
    rw [hst, List.foldl_cons, List.foldl_nil, ← hx, xs]
    rfl
  have hsw := (x.sameWords_markBlocks a 16).trans (Chip.sameWords_dramTouch _ (master % 16) (dramHint master true) a 16)
  have hserve := x.dramServe_write master a bytes hl ha (by rw [x0.capacity]; exact hc)
    (by rw [Chip.state, x1, x0.dramLoc]; exact hf) (by rw [Chip.flipArmed, Chip.on, x1, x0.dramLoc]; exact hflip) k (by rw [x0.dramKeys, hk])
  obtain ⟨y, hy⟩ : ∃ y, y = (x.markBlocks a 16).dramTouch (master % 16) (dramHint master true) a 16 := ⟨_, rfl⟩
  rw [← hy] at hsw hserve
  have y0 : SamePlaces c y := x0.trans hsw.places
  have yw : (y.dramPort (y.dramKeyPort k)).wild = none := by rw [y0.wild, hw]
  rw [e, hserve]
  refine ⟨y0.trans ⟨rfl, SameRemap.refl _, rfl, rfl, fun _ => ⟨rfl, rfl⟩, rfl⟩, ?_, ?_⟩
  · rw [Chip.dramData_dramPut _ _ _ _ _ yw, if_pos rfl]
  · rw [Chip.dramSynOf_dramPut _ _ _ _ _ yw, if_pos rfl]

/-- What follows a port's step: the canvas limit and the event. -/
def Chip.stepReported (c : Chip) (new was : Nat) : Chip := if new = was then c.showCanvasLimit else c.showCanvasLimit.raise E.DRAM_RATE_STEP

theorem Chip.stepReported_mem (c : Chip) (n w : Nat) : (c.stepReported n w).mem = c.mem := by
  unfold Chip.stepReported
  split
  · exact c.showCanvasLimit_mem
  · rw [(Chip.quiet_raise _ _).mem, c.showCanvasLimit_mem]

theorem Chip.stepReported_get (c : Chip) (n w : Nat) (f : Fld) (h1 : calmReg f.addr = true) (h2 : f.addr ≠ F.DRAMCTL_CANVAS_LIMIT_NOW.addr) :
    (c.stepReported n w).get f = c.get f := by
  unfold Chip.stepReported
  split
  · exact c.showCanvasLimit_get f h2
  · rw [Chip.raise_get_of _ _ _ (calmReg_iff h1).1, c.showCanvasLimit_get f h2]

theorem Chip.stepReported_places (c : Chip) (n w : Nat) : SamePlaces c (c.stepReported n w) := by
  have hm := c.stepReported_mem n w
  have hb : c.showCanvasLimit.build = c.build := by
    have h := congrArg Chip.build c.showCanvasLimit_spec.1
    exact h
  refine ⟨?_, ?_, c.stepReported_get n w _ (by decide) (by decide), c.stepReported_get n w _ (by decide) (by decide), fun p => ?_, by rw [hm]⟩
  · unfold Chip.stepReported
    split
    · exact hb
    · rw [(Chip.quiet_raise _ _).build, hb]
  · unfold Chip.stepReported
    exact SameRemap.ite c.showCanvasLimit_spec.2.1 (c.showCanvasLimit_spec.2.1.trans (SameRemap.raise _ _ (by decide)))
  · rw [Chip.dramPort, hm]
    exact ⟨rfl, rfl⟩

theorem Chip.stepDone_some (c : Chip) (p g : Nat) (hst : c.state (dramPage p) = dsStep) :
    c.stepDone p (some g) =
      let was := c.get (F.DRAM_STATUS_RATE.pg p)
      let new := min 3 (max (if (c.dramPort p).restoreDue then c.get (F.DRAM_RATE_CFG_RATE_MAX.pg p) else was + 1) g)
      ((c.stepped p new).dramUnstall.stepReported new was).retrainNext p := by
  unfold Chip.stepDone
  rw [if_neg (by simp [hst])]
  rfl

/-- The grade that a step goes to. -/
def Chip.stepGrade (c : Chip) (p g : Nat) : Nat := min 3 (max (c.get (F.DRAM_STATUS_RATE.pg p) + 1) g)

/-- The end of a step at a grade, with no restore and no retraining due. -/
theorem Chip.stepDone_spec (c : Chip) {p : Nat} (g : Nat) (hst : c.state (dramPage p) = dsStep) (hr : (c.dramPort p).restoreDue = false)
    (hd : (c.dramPort p).retrainDue = false) :
    c.stepDone p (some g) = (c.stepped p (c.stepGrade p g)).dramUnstall.stepReported (c.stepGrade p g) (c.get (F.DRAM_STATUS_RATE.pg p)) := by
  rw [c.stepDone_some p g hst, hr]
  dsimp only
  rw [if_neg (by decide)]
  change ((c.stepped p (c.stepGrade p g)).dramUnstall.stepReported (c.stepGrade p g) (c.get (F.DRAM_STATUS_RATE.pg p))).retrainNext p = _
  generalize c.stepGrade p g = n
  have h1 := congrArg (fun v => v.2.2.2.1) ((c.stepped p n).dramUnstall_spec.due p)
  have h2 : ((c.stepped p n).dramPort p).retrainDue = false := by
    rw [c.stepped_dramPort, if_pos rfl]
    exact hd
  have h3 : (((c.stepped p n).dramUnstall.stepReported n (c.get (F.DRAM_STATUS_RATE.pg p))).dramPort p).retrainDue = false := by
    rw [Chip.dramPort, Chip.stepReported_mem]
    exact h1.trans h2
  rw [Chip.retrainNext, h3]
  rfl

/-- What a port shows after its step. -/
theorem Chip.stepDone_port (c : Chip) {p : Nat} (g : Nat) (hp : p < 4) (hst : c.state (dramPage p) = dsStep) (hr : (c.dramPort p).restoreDue = false)
    (hd : (c.dramPort p).retrainDue = false) :
    (c.stepDone p (some g)).state (dramPage p) = dsRun ∧ ((c.stepDone p (some g)).dramPort p).stepDue = false ∧
      (c.stepDone p (some g)).get (F.DRAM_STATUS_RATE.pg p) = c.stepGrade p g := by
  have hn : c.stepGrade p g < 4 := show min 3 _ < 4 by omega
  rw [c.stepDone_spec g hst hr hd]
  generalize c.stepGrade p g = n at *
  have h1 := congrArg (fun v => v.2.1) ((c.stepped p n).dramUnstall_spec.due p)
  have hq : ∀ f ∈ [F.STATE.pg (dramPage p), F.DRAM_STATUS_RATE.pg p], ((c.stepped p n).dramUnstall.stepReported n (c.get (F.DRAM_STATUS_RATE.pg p))).get f =
      (c.stepped p n).get f := fun f hf => by
    obtain ⟨q1, q2, q3⟩ := portQuiet hp f (by
      rcases List.mem_cons.1 hf with rfl | hf
      · simp
      · rw [List.mem_singleton.1 hf]; simp)
    rw [Chip.stepReported_get _ _ _ _ q2 q3, (Chip.dramUnstall_spec _).only.get _ q1]
  refine ⟨?_, ?_, ?_⟩
  · rw [Chip.state, hq _ (by simp)]
    exact c.stepped_state n hp
  · rw [Chip.dramPort, Chip.stepReported_mem]
    refine h1.trans ?_
    rw [c.stepped_dramPort, if_pos rfl]
    rfl
  · rw [hq _ (by simp), Chip.stepped, Chip.setDramState_get _ _ hp _ (offState_port hp _ (by simp)), Chip.get_set_pg _ _ _ _ (by decide) (by decide)]
    exact Nat.mod_eq_of_lt hn

/-- After the last step, nothing stalls: a word that did is written. -/
theorem Chip.stepDone_stalled (c : Chip) {p : Nat} (g : Nat) (hp : p < 4) (hst : c.state (dramPage p) = dsStep) (hr : (c.dramPort p).restoreDue = false)
    (hd : (c.dramPort p).retrainDue = false) (hno : ∀ q, q < 4 → q ≠ p → c.state (dramPage q) ≠ dsStep) :
    (c.stepDone p (some g)).mem.stalled = [] ∧ ∀ (master a k : Nat) (bytes : List Byte), c.mem.stalled = [dramReqOf master true a (bytes.map some)] →
      bytes.length = 16 → a % 16 = 0 → a + 16 ≤ c.capacity → c.state (dramPage (c.dramLoc a).port) ≠ dsFailed →
      c.flipArmed (dramPage (c.dramLoc a).port) = false → (c.dramKeys a).2 = [k] → (c.dramPort (c.dramKeyPort k)).wild = none →
      (c.stepDone p (some g)).dramData k = BitVec.ofNat 128 (ofLe bytes) ∧ (c.stepDone p (some g)).dramSynOf k = 0 := by
  rw [c.stepDone_spec g hst hr hd]
  generalize c.stepGrade p g = n
  obtain ⟨x, hx⟩ : ∃ x, x = c.stepped p n := ⟨_, rfl⟩
  have x0 : SamePlaces c x := by rw [hx]; exact c.stepped_places n hp
  have xp : x.state (dramPage p) = dsRun := by rw [hx]; exact c.stepped_state n hp
  have xn : ∀ q, q < 4 → q ≠ p → x.state (dramPage q) = c.state (dramPage q) := fun q hq hne => by rw [hx]; exact c.stepped_state_ne n hp hq hne
  have xm : x.mem.stalled = c.mem.stalled := by rw [hx, c.stepped_mem]; rfl
  have xf : ∀ q, q < 4 → x.flipArmed (dramPage q) = c.flipArmed (dramPage q) := fun q hq => by
    have h : ∀ q < 4, offState (F.FLIP_ARM.pg (dramPage q)) = true ∧ ∀ p < 4, (F.FLIP_ARM.pg (dramPage q)).apart (F.DRAM_STATUS_RATE.pg p) = true := by decide
    rw [hx, Chip.flipArmed, Chip.flipArmed, Chip.on, Chip.on, c.stepped_get n hp _ (h q hq).1 ((h q hq).2 p hp)]
  have xno : ∀ q, q < 4 → x.state (dramPage q) ≠ dsStep := fun q hq => by
    by_cases h : q = p
    · rw [h, xp]
      decide
    · rw [xn q hq h]
      exact hno q hq h
  rw [← hx]
  clear hx
  refine ⟨by rw [Chip.stepReported_mem, x.dramUnstall_stalled xno], fun master a k bytes hs hl ha hc hf hflip hk hw => ?_⟩
  have xs : x.state (dramPage (c.dramLoc a).port) ≠ dsFailed := by
    by_cases h : (c.dramLoc a).port = p
    · rw [h, xp]
      decide
    · rw [xn _ (c.dramLoc_port_lt a) h]
      exact hf
  obtain ⟨h1, h2, h3⟩ := x.dramUnstall_write master a bytes k hl ha (by rw [xm, hs]) xno (by rw [x0.capacity]; exact hc)
    (by rw [x0.dramLoc]; exact xs) (by rw [x0.dramLoc, xf _ (c.dramLoc_port_lt a)]; exact hflip) (by rw [x0.dramKeys, hk]) (by rw [x0.wild, hw])
  have h4 := x.dramUnstall.stepReported_places n (c.get (F.DRAM_STATUS_RATE.pg p))
  exact ⟨by rw [h4.dramData k (by rw [Chip.stepReported_mem]), h2], by rw [h4.dramSynOf k (by rw [Chip.stepReported_mem]), h3]⟩

/-- Settles O52: retraining, the window of corrected errors, steps, failure and training at start. -/
theorem dramPortStates : Obligations.DramPortStates := by
  intro s p hs hp hpg
  have hon : ∀ f : Chip → Chip, s.chip.onDram p f = f s.chip := fun f => by
    rw [Chip.onDram, Chip.when, hpg, decide_eq_true hp]
    rfl
  have hidle : ∀ v, defDramCmd.store v (insBits 0 0 0 1) = v ∧ defDramCmd.store v (insBits 0 1 1 1) = v := fun v => ⟨rfl, rfl⟩
  have hfld := portFields_calm hp
  refine ⟨fun o hc => ⟨fun hst => ?_, ?_⟩, fun found h => ?_, fun found hst hm => ⟨fun h => ?_, fun h hd => ?_⟩, ?_, fun hd hst hr => ?_,
    fun g hst hr hd => ?_, fun h0 h6 hpop => ?_, fun ranks mib g hr hf hst => ?_⟩
  · refine Completes.serveFor o (fun c => c.onDram p (fun c => c.writeField o (F.DRAM_CMD_RETRAIN.pg p) 1)) rfl hs ?_
    obtain ⟨x, -, hb, hx, he⟩ := s.chip.writeField_dramCmd o (F.DRAM_CMD_RETRAIN.pg p) (fun x => x.retrainStart p) hp hpg hc rfl (fun v => (hidle v).1)
      (fun x old => (x.writeEffect_dramCmd o hp old).1) (fun x h => x.retrainStart_calm hp h)
    obtain ⟨h1, h2, h3⟩ := hfld (F.STATE.pg (dramPage p)) (by simp [portFields])
    have hn : x.dramNc = s.chip.dramNc := by unfold Chip.dramNc; rw [hb]
    rw [hon, he, Chip.noteMirror_get, Chip.noteMirror_get, ← hn]
    obtain ⟨r1, r2, r3⟩ := x.retrainStart_run hp ((hx _ h1 h2 h3).trans hst)
    exact ⟨(Chip.noteMirror_get _ _ _).trans r1, r2, r3⟩
  · refine Completes.serveFor o (fun c => c.onDram p (fun c => c.writeField o (F.DRAM_CMD_RATE_RESTORE.pg p) 1)) rfl hs ?_
    obtain ⟨x, hm, -, hx, he⟩ := s.chip.writeField_dramCmd o (F.DRAM_CMD_RATE_RESTORE.pg p) (fun x => x.rateRestore p) hp hpg hc rfl (fun v => (hidle v).2)
      (fun x old => (x.writeEffect_dramCmd o hp old).2) (fun x h => x.rateRestore_calm h)
    obtain ⟨a1, a2, a3⟩ := hfld (F.DRAM_RATE_CFG_RATE_MAX.pg p) (by simp [portFields])
    obtain ⟨b1, b2, b3⟩ := hfld (F.DRAM_STATUS_RATE.pg p) (by simp [portFields])
    rw [hon, he, Chip.dramPort, Chip.noteMirror_mem, ← Chip.dramPort, x.rateRestore_due, hx _ a1 a2 a3, hx _ b1 b2 b3, Chip.dramPort, hm, ← Chip.dramPort]
  · refine Completes.live (fun c => c.onDram p (fun c => c.retrainSlice p c.sliceWindow found)) rfl hs ?_
    rw [hon, Chip.retrainSlice, if_pos (by rw [h]; simp)]
  · refine Completes.live (fun c => c.onDram p (fun c => c.retrainSlice p c.sliceWindow found)) rfl hs ?_
    rw [hon]
    exact s.chip.retrainSlice_next hp _ found hst hm h
  · refine Completes.live (fun c => c.onDram p (fun c => c.retrainSlice p c.sliceWindow found)) rfl hs ?_
    rw [hon]
    exact s.chip.retrainSlice_last hp _ found hst hm h hd
  · refine Completes.live (fun c => c.onDram p (fun c => c.eccWindow p)) rfl hs ?_
    rw [hon]
    exact s.chip.eccWindow_spec hp
  · refine Completes.live (fun c => c.onDram p (fun c => c.rateStep p)) rfl hs ?_
    rw [hon]
    exact s.chip.rateStep_begun hp hd hst hr
  · refine Completes.live (fun c => c.onDram p (fun c => c.stepDone p (some g))) rfl hs ?_
    rw [hon]
    obtain ⟨h1, h2, h3⟩ := s.chip.stepDone_port g hp hst hr hd
    refine ⟨h1, h2, h3, fun hno => ?_⟩
    obtain ⟨h4, h5⟩ := s.chip.stepDone_stalled g hp hst hr hd hno
    exact ⟨h4, fun master a bytes hst hl ha hc hf hflip hk hw => h5 master a _ bytes hst hl ha hc hf hflip hk hw⟩
  · refine Completes.live (fun c => c.onDram p (fun c => c.dramFail p)) rfl hs ?_
    rw [hon]
    exact s.chip.dramFail_spec hp h0 h6 hpop
  · refine Completes.live (fun c => c.onDram p (fun c => c.dramInit p ranks mib true (some g))) rfl hs ?_
    rw [hon]
    exact s.chip.dramInit_trained hp hpg ranks mib g hr hf hst

end Sys2Proof.Machine
end

