-- ==== Sys2Proof/Proofs/SensorsAndKnell.lean ====
section
-- One proof at a time: proofs that wait for the kernel side by side hold more memory than the check allows.
set_option Elab.async false
/-! PROOF. Samples of the sensors, the start of the knell, the mask, the throttle of a sender and the rails (R352 to R357, R360, R361, R364). -/

namespace Sys2Proof.Machine

/-! ### A fold over the numbers below a bound, each of which does its own part -/

/-- Each step of a fold over the numbers below `k` turns what holds of its number before into what holds after, and leaves both of the others alone. -/
theorem foldl_range_each {f : Chip → Nat → Chip} {k : Nat} {c : Chip} (Q P : Nat → Chip → Prop) (hQ : ∀ n, n < k → Q n c)
    (hstep : ∀ n, n < k → ∀ x, Q n x → P n (f x n)) (hkeepQ : ∀ n m, n < k → m < k → n ≠ m → ∀ x, Q n x → Q n (f x m))
    (hkeepP : ∀ n m, n < k → m < k → n ≠ m → ∀ x, P n x → P n (f x m)) : ∀ n, n < k → P n ((List.range k).foldl f c) := by
  have key : ∀ j, j ≤ k → (∀ n, n < j → P n ((List.range j).foldl f c)) ∧ (∀ n, j ≤ n → n < k → Q n ((List.range j).foldl f c)) := by
    intro j
    induction j with
    | zero => exact fun _ => ⟨fun n h => absurd h (Nat.not_lt_zero n), fun n _ h => hQ n h⟩
    | succ j ih =>
      intro hj
      obtain ⟨hp, hq⟩ := ih (by omega)
      rw [List.range_succ, List.foldl_append, List.foldl_cons, List.foldl_nil]
      refine ⟨fun n hn => ?_, fun n hn hk => hkeepQ n j hk (by omega) (by omega) _ (hq n (by omega) hk)⟩
      rcases Nat.lt_or_ge n j with h | h
      · exact hkeepP n j (by omega) (by omega) (by omega) _ (hp n h)
      · obtain rfl : n = j := by omega
        exact hstep n (by omega) _ (hq n (Nat.le_refl n) (by omega))
  exact (key k (Nat.le_refl k)).1

theorem Holds.foldl {α β : Type} {ρ : Chip → α} {Fs : List Fld} {c d : Chip} {f : Chip → β → Chip} {l : List β} (h : Holds ρ Fs c d)
    (hf : ∀ x b, b ∈ l → Holds ρ Fs x (f x b)) : Holds ρ Fs c (l.foldl f d) :=
  h.trans (foldl_rel (Holds ρ Fs) (fun _ => .refl) .trans id f l (fun x b hb => hf x b hb) d)

/-! ### What the sensors show of their samples (R352 to R356) -/

/-- What the values in use leave alone: the raw samples and the states of the sensors, and the mask. -/
def sampleFields : List Fld :=
  F.THERMAL_MASK_MASK :: (List.range 20).flatMap (fun n => [F.THERMAL_SENSOR_RAW.plus (4 * n), F.THERMAL_SCFG_STATE.plus (4 * n)])

/-- The parts of the block that the sensors do not touch. -/
def sampleView (c : Chip) : AonSt × TimeSt × HostSt × SMap BankSt × RedunSt := (c.aon, c.time, c.host, c.mem.banks, c.redun)

abbrev Sampled : Chip → Chip → Prop := Holds sampleView sampleFields

theorem mem_sampleFields {n : Nat} (hn : n < 20) : F.THERMAL_SENSOR_RAW.plus (4 * n) ∈ sampleFields ∧ F.THERMAL_SCFG_STATE.plus (4 * n) ∈ sampleFields := by
  have h : ∀ n < 20, F.THERMAL_SENSOR_RAW.plus (4 * n) ∈ sampleFields ∧ F.THERMAL_SCFG_STATE.plus (4 * n) ∈ sampleFields := by decide +kernel
  exact h n hn

theorem sampleFields_calm : calmFields sampleFields = true := by decide +kernel

theorem Sampled.showUse {c d : Chip} (h : Sampled c d) : Sampled c d.showUse := by
  have hu : ∀ n < 20, sampleFields.all (fun g => g.apart (F.THERMAL_SENSOR_USE.plus (4 * n))) = true ∧ plainReg (F.THERMAL_SENSOR_USE.plus (4 * n)).addr = true := by
    decide +kernel
  refine h.foldl (fun x p hp => ?_)
  obtain ⟨n, hn, rfl⟩ := List.mem_map.1 hp
  have hn : n < 20 := by
    unfold Chip.sensors at hn
    have := List.mem_range.1 hn
    split at this <;> omega
  exact .set .refl (hu n hn).1 (hu n hn).2

theorem Holds.setDramState {α : Type} {ρ : Chip → α} {Fs : List Fld} {c d : Chip} {p st : Nat} (h : Holds ρ Fs c d) (hp : p < 4)
    (hF : Fs.all offState = true) : Holds ρ Fs c (d.setDramState p st) := by
  have k : Keeps ρ [] [] d (d.setDramState p st) := Keeps.refl.setDramState hp
  exact h.trans ⟨k.view, k.build, fun f hf => d.setDramState_get st hp f (List.all_eq_true.1 hF f hf), k.ctrls, k.pend⟩

theorem Holds.setDramPort {α : Type} {ρ : Chip → α} {Fs : List Fld} {c d : Chip} {p : Nat} {s : DramPortSt} (h : Holds ρ Fs c d)
    (hv : ρ (d.setDramPort p s).still = ρ d.still := by rfl) : Holds ρ Fs c (d.setDramPort p s) := h.of hv rfl rfl

theorem Holds.setTband {α : Type} {ρ : Chip → α} {Fs : List Fld} {c d : Chip} {k b : Nat} (h : Holds ρ Fs c d)
    (hv : ρ (d.setTband k b).still = ρ d.still := by rfl) : Holds ρ Fs c (d.setTband k b) := h.of hv rfl rfl

theorem portFields_sampled {p : Nat} (hp : p < 4) : ∀ f ∈ [F.DRAM_STATUS_TB.pg p, F.DRAM_STATUS_REF_MULT.pg p, F.DRAM_TRAIN_SLICES_LEFT.pg p],
    sampleFields.all (fun g => g.apart f) = true ∧ plainReg f.addr = true := by
  have h : ∀ q < 4, ∀ f ∈ [F.DRAM_STATUS_TB.pg q, F.DRAM_STATUS_REF_MULT.pg q, F.DRAM_TRAIN_SLICES_LEFT.pg q],
      sampleFields.all (fun g => g.apart f) = true ∧ plainReg f.addr = true := by decide +kernel
  exact h p hp

theorem Sampled.showMult {c d : Chip} {p : Nat} (h : Sampled c d) (hp : p < 4) : Sampled c (d.showMult p) :=
  .set h (portFields_sampled hp _ (by simp)).1 (portFields_sampled hp _ (by simp)).2

theorem Sampled.retrainStart {c d : Chip} {p : Nat} (h : Sampled c d) (hp : p < 4) : Sampled c (d.retrainStart p) := by
  have ho : sampleFields.all offState = true := by decide +kernel
  unfold Chip.retrainStart
  exact .ite (.setDramState (.setDramPort (.set h (portFields_sampled hp _ (by simp)).1 (portFields_sampled hp _ (by simp)).2)) hp ho) (.ite h (.setDramPort h))

theorem Sampled.portBand {c d : Chip} {p b : Nat} (h : Sampled c d) (hp : p < 4) : Sampled c (d.portBand p b) := by
  have h0 : Sampled c (d.set (F.DRAM_STATUS_TB.pg p) b) := .set h (portFields_sampled hp _ (by simp)).1 (portFields_sampled hp _ (by simp)).2
  exact (h0.showMult hp).retrainStart hp

theorem Sampled.dramBand {c d : Chip} {p : Nat} (h : Sampled c d) (hp : p < 4) : Sampled c (d.dramBand p) := by
  unfold Chip.dramBand
  dsimp only
  generalize bandNext (d.tband p) (d.sensorUse (6 + p)) = b
  split
  · exact h
  · exact Sampled.portBand (.setTband h) hp

theorem Sampled.thermalShow {c d : Chip} (h : Sampled c d) : Sampled c d.thermalShow := by
  have hc := sampleFields_calm
  have hk : ∀ f ∈ [F.THERMAL_FAIL_COUNT, F.THERMAL_FAIL_FAILED, F.THERMAL_HOT_TJ, F.THERMAL_HOT_SENSOR, F.THERMAL_HOT_SUBST, F.THERMAL_HOT_TB],
      sampleFields.all (fun g => g.apart f) = true ∧ plainReg f.addr = true := by decide +kernel
  unfold Chip.thermalShow
  extract_lets c1 failed c2 c3 hh c4 c5 c6 b c7 c8
  have h2 : Sampled c c2 := .set (.set h.showUse (hk _ (by simp)).1 (hk _ (by simp)).2) (hk _ (by simp)).1 (hk _ (by simp)).2
  have h3 : Sampled c c3 := .cond (.cond h2 hc) hc
  have h4 : Sampled c c4 := .set (.set h3 (hk _ (by simp)).1 (hk _ (by simp)).2) (hk _ (by simp)).1 (hk _ (by simp)).2
  have h6 : Sampled c c6 := .cond (.set h4 (hk _ (by simp)).1 (hk _ (by simp)).2) hc
  have h7 : Sampled c c7 := .ite h6 (.raise (.set h6.setTband (hk _ (by simp)).1 (hk _ (by simp)).2) hc)
  have h8 : Sampled c c8 := h7.foldl (fun x p hp => Sampled.dramBand .refl (by simp at hp; omega))
  split
  · exact h8
  · exact h8.foldl (fun x n _ => .setTband .refl)

/-! ### A sample of every sensor (R352, R353) -/

theorem sensorRow {n m : Nat} (h : n ≠ m) (f g : Fld) (hf : f.addr = g.addr) : (f.plus (4 * n)).addr ≠ (g.plus (4 * m)).addr := by
  show f.addr + 4 * n ≠ g.addr + 4 * m
  omega

/-- The number of sensors of a build. -/
def Chip.sensorCount (c : Chip) : Nat := match c.build with | .S => 12 | .T => 20

theorem Chip.sensors_eq (c : Chip) : c.sensors = List.range c.sensorCount := rfl

theorem Chip.sensorCount_le (c : Chip) : c.sensorCount ≤ 20 := by
  unfold Chip.sensorCount
  split <;> omega

/-- A sample entered: its raw value, and the states as they were. -/
def Chip.sampleEntered (c : Chip) (raws : List Int) : Chip :=
  (c.sensors.map (fun n => (n, (c.sensor n).raw, raws.getD n 0))).foldl
    (fun c x => (c.sampleNote x.1 x.2.2).set (F.THERMAL_SENSOR_RAW.plus (4 * x.1)) (unsign 16 x.2.2)) c

theorem Chip.sampleEntered_spec (c : Chip) (raws : List Int) :
    (∀ n, n < c.sensorCount → (c.sampleEntered raws).get (F.THERMAL_SENSOR_RAW.plus (4 * n)) = unsign 16 (raws.getD n 0)) ∧
      (∀ n, n < c.sensorCount → (c.sampleEntered raws).sensorState n = c.sensorState n) ∧ Holds sampleView [F.THERMAL_MASK_MASK] c (c.sampleEntered raws) := by
  have hle := c.sensorCount_le
  have hs : ∀ (x : Chip) (n m : Nat), n < 20 → m < 20 → (x.set (F.THERMAL_SENSOR_RAW.plus (4 * m)) (unsign 16 (raws.getD m 0))).sensorState n = x.sensorState n :=
    fun x n m hn hm => by
      refine Chip.get_set_ne _ _ _ _ ?_
      show 0x0110A0 + 4 * n ≠ 0x011040 + 4 * m
      omega
  have hu : ∀ x : Int, unsign 16 x < 2 ^ 16 := fun x => by
    unfold unsign
    omega
  have e : c.sampleEntered raws = (List.range c.sensorCount).foldl (fun x n => (x.sampleNote n (raws.getD n 0)).set (F.THERMAL_SENSOR_RAW.plus (4 * n)) (unsign 16 (raws.getD n 0))) c := by
    unfold Chip.sampleEntered
    rw [List.foldl_map, c.sensors_eq]
  rw [e]
  refine ⟨?_, ?_, ?_⟩
  · refine foldl_range_each (fun _ _ => True) (fun n x => x.get (F.THERMAL_SENSOR_RAW.plus (4 * n)) = unsign 16 (raws.getD n 0)) (fun _ _ => trivial)
      (fun n hn x _ => ?_) (fun _ _ _ _ _ _ _ => trivial) (fun n m hn hm hne x hx => ?_)
    · rw [Chip.get_set _ _ _ (by show 0 ≤ 15; decide) (by show 15 < 32; decide)]
      exact Nat.mod_eq_of_lt (hu _)
    · rw [Chip.get_set_ne _ _ _ _ (sensorRow hne _ _ rfl)]
      exact hx
  · refine foldl_range_each (fun n x => x.sensorState n = c.sensorState n) (fun n x => x.sensorState n = c.sensorState n) (fun _ _ => rfl)
      (fun n hn x hx => ?_) (fun n m hn hm _ x hx => ?_) (fun n m hn hm _ x hx => ?_)
    · exact (hs _ n n (by omega) (by omega)).trans hx
    · exact (hs _ n m (by omega) (by omega)).trans hx
    · exact (hs _ n m (by omega) (by omega)).trans hx
  · have hr : ∀ n < 20, [F.THERMAL_MASK_MASK].all (fun g => g.apart (F.THERMAL_SENSOR_RAW.plus (4 * n))) = true ∧
        plainReg (F.THERMAL_SENSOR_RAW.plus (4 * n)).addr = true := by decide +kernel
    refine Holds.refl.foldl (fun x n hn => ?_)
    have hn := List.mem_range.1 hn
    exact .set (Holds.refl.of rfl rfl rfl) (hr n (by omega)).1 (hr n (by omega)).2

/-- The raw values, and the states of the sensors but one, are those of another block. -/
structure OneSensor (m : Nat) (c d : Chip) : Prop where
  raw : ∀ n, n < 20 → d.get (F.THERMAL_SENSOR_RAW.plus (4 * n)) = c.get (F.THERMAL_SENSOR_RAW.plus (4 * n))
  state : ∀ n, n < 20 → n ≠ m → d.sensorState n = c.sensorState n
  holds : Holds sampleView [F.THERMAL_MASK_MASK] c d

namespace OneSensor
variable {m : Nat} {c d e : Chip}

theorem refl : OneSensor m c c := ⟨fun _ _ => rfl, fun _ _ _ => rfl, .refl⟩

theorem trans (h : OneSensor m c d) (k : OneSensor m d e) : OneSensor m c e :=
  ⟨fun n hn => (k.raw n hn).trans (h.raw n hn), fun n hn hne => (k.state n hn hne).trans (h.state n hn hne), h.holds.trans k.holds⟩

theorem ite {p : Prop} [Decidable p] (h : OneSensor m c d) (k : OneSensor m c e) : OneSensor m c (if p then d else e) := by
  split
  · exact h
  · exact k

theorem setSensor {n : Nat} {s : SensorSt} (h : OneSensor m c d) : OneSensor m c (d.setSensor n s) :=
  h.trans ⟨fun _ _ => rfl, fun _ _ _ => rfl, Holds.refl.of rfl rfl rfl⟩

theorem setState {st : Nat} (h : OneSensor m c d) (hm : m < 20) : OneSensor m c (d.setSensorState m st) := by
  have hf : ∀ n < 20, [F.THERMAL_MASK_MASK].all (fun g => g.apart (F.THERMAL_SCFG_STATE.plus (4 * n))) = true ∧
      plainReg (F.THERMAL_SCFG_STATE.plus (4 * n)).addr = true := by decide +kernel
  refine h.trans ⟨fun n hn => ?_, fun n hn hne => ?_, .set .refl (hf m hm).1 (hf m hm).2⟩
  · refine Chip.get_set_ne _ _ _ _ ?_
    show 0x011040 + 4 * n ≠ 0x0110A0 + 4 * m
    omega
  · exact Chip.get_set_ne _ _ _ _ (sensorRow hne _ _ rfl)

theorem raise {x : Ev} (h : OneSensor m c d) : OneSensor m c (d.raise x) := by
  have hc : ∀ n < 20, eventReg (F.THERMAL_SENSOR_RAW.plus (4 * n)).addr = false ∧ eventReg (F.THERMAL_SCFG_STATE.plus (4 * n)).addr = false := by decide +kernel
  exact h.trans ⟨fun n hn => d.raise_get_of x _ (hc n hn).1, fun n hn _ => d.raise_get_of x _ (hc n hn).2, .raise .refl⟩

theorem sampleJudge {prev : Option Int} {raw : Int} (h : OneSensor m c d) (hm : m < 20) : OneSensor m c (d.sampleJudge m prev raw) := by
  unfold Chip.sampleJudge
  dsimp only
  split
  · exact h
  · split
    · exact .ite (.raise (.setSensor (.setState h hm))) (.setSensor (.setState h hm))
    · exact .ite h (.ite (.raise (.setState (.setSensor h) hm)) (.setState (.setSensor h) hm))

end OneSensor

theorem Chip.sensorState_set (c : Chip) (n st : Nat) (h : st < 8) : (c.setSensorState n st).sensorState n = st := by
  refine (Chip.get_set _ _ _ (by show 29 ≤ 31; decide) (by show 31 < 32; decide)).trans ?_
  exact Nat.mod_eq_of_lt (show st < 2 ^ (31 + 1 - 29) from h)

/-- A sample out of range fails its sensor. -/
theorem Chip.sampleJudge_range (c : Chip) (n : Nat) (prev : Option Int) (raw : Int) (hn : n < 20) (hr : raw < -880 ∨ 2400 < raw) (hm : c.sensorState n ≠ ssMasked) :
    (c.sampleJudge n prev raw).sensorState n = ssRange := by
  have ht : c.sampleTest n prev raw = some ssRange := by
    unfold Chip.sampleTest sampleFault
    rw [if_pos hr]
  have hc : ∀ n < 20, eventReg (F.THERMAL_SCFG_STATE.plus (4 * n)).addr = false := by decide +kernel
  have h0 : ∀ s, ((c.setSensorState n ssRange).setSensor n s).sensorState n = ssRange := fun s => c.sensorState_set n ssRange (by decide)
  unfold Chip.sampleJudge
  dsimp only
  rw [if_neg hm, ht]
  dsimp only
  split
  · exact (Chip.raise_get_of _ _ _ (hc n hn)).trans (h0 _)
  · exact h0 _

/-- The samples judged: the raw values stay, and a sample out of range fails its sensor. -/
def Chip.sampleJudged (c : Chip) (prev : Nat → Option Int) (raws : List Int) : Chip :=
  (List.range c.sensorCount).foldl (fun x n => x.sampleJudge n (prev n) (raws.getD n 0)) c

theorem Chip.sampleJudged_spec (c : Chip) (prev : Nat → Option Int) (raws : List Int) :
    (∀ n, n < 20 → (c.sampleJudged prev raws).get (F.THERMAL_SENSOR_RAW.plus (4 * n)) = c.get (F.THERMAL_SENSOR_RAW.plus (4 * n))) ∧
      (∀ n, n < c.sensorCount → (raws.getD n 0 < -880 ∨ 2400 < raws.getD n 0) → c.sensorState n ≠ ssMasked → (c.sampleJudged prev raws).sensorState n = ssRange) ∧
      Holds sampleView [F.THERMAL_MASK_MASK] c (c.sampleJudged prev raws) := by
  have hle := c.sensorCount_le
  have hfold : ∀ R : Chip → Chip → Prop, (∀ x, R x x) → (∀ {x y z}, R x y → R y z → R x z) → (∀ x m, m < 20 → R x (x.sampleJudge m (prev m) (raws.getD m 0))) →
      R c (c.sampleJudged prev raws) := fun R hr ht hs =>
    foldl_rel R hr ht id _ _ (fun x m hm => hs x m (by have := List.mem_range.1 hm; omega)) c
  refine ⟨fun n hn => ?_, fun n hn hr hm => ?_, ?_⟩
  · exact hfold (fun x y => y.get (F.THERMAL_SENSOR_RAW.plus (4 * n)) = x.get (F.THERMAL_SENSOR_RAW.plus (4 * n))) (fun _ => rfl) (fun h k => k.trans h)
      (fun x m hm => (OneSensor.sampleJudge OneSensor.refl hm).raw n hn)
  · refine foldl_range_each (fun n x => (raws.getD n 0 < -880 ∨ 2400 < raws.getD n 0) → c.sensorState n ≠ ssMasked → x.sensorState n ≠ ssMasked)
      (fun n x => (raws.getD n 0 < -880 ∨ 2400 < raws.getD n 0) → c.sensorState n ≠ ssMasked → x.sensorState n = ssRange) (fun _ _ _ h => h)
      (fun n hn x hx hr hm => ?_) (fun n m hn hm hne x hx hr hc => ?_) (fun n m hn hm hne x hx hr hc => ?_) n hn hr hm
    · exact x.sampleJudge_range n _ _ (by omega) hr (hx hr hm)
    · rw [(OneSensor.sampleJudge OneSensor.refl (by omega)).state n (by omega) hne]
      exact hx hr hc
    · rw [(OneSensor.sampleJudge OneSensor.refl (by omega)).state n (by omega) hne]
      exact hx hr hc
  · exact hfold (Holds sampleView [F.THERMAL_MASK_MASK]) (fun _ => .refl) .trans (fun x m hm => (OneSensor.sampleJudge OneSensor.refl hm).holds)

/-- The samples of all sensors: what they show, and what they leave alone. -/
theorem Chip.sensorSample_spec (c : Chip) (raws : List Int) :
    (∀ n, n < c.sensorCount → (c.sensorSample raws).get (F.THERMAL_SENSOR_RAW.plus (4 * n)) = unsign 16 (raws.getD n 0) ∧
      ((raws.getD n 0 < -880 ∨ 2400 < raws.getD n 0) → c.sensorState n ≠ ssMasked → (c.sensorSample raws).sensorState n = ssRange)) ∧
      Holds sampleView [] c (c.sensorSample raws) := by
  have hle := c.sensorCount_le
  obtain ⟨a1, a2, a3⟩ := c.sampleEntered_spec raws
  have e : c.sensorSample raws = ((c.sampleEntered raws).sampleJudged (fun n => (c.sensor n).raw) raws).thermalShow := by
    unfold Chip.sensorSample Chip.sampleJudged
    dsimp only
    have hn : (c.sampleEntered raws).sensorCount = c.sensorCount := by unfold Chip.sensorCount; rw [a3.build]
    rw [hn]
    refine congrArg Chip.thermalShow ?_
    show List.foldl _ (c.sampleEntered raws) _ = _
    rw [List.foldl_map, c.sensors_eq]
  rw [e]
  generalize c.sampleEntered raws = x at *
  have hn : x.sensorCount = c.sensorCount := by unfold Chip.sensorCount; rw [a3.build]
  obtain ⟨b1, b2, b3⟩ := x.sampleJudged_spec (fun n => (c.sensor n).raw) raws
  generalize x.sampleJudged (fun n => (c.sensor n).raw) raws = y at *
  have hs : Sampled y y.thermalShow := Sampled.thermalShow .refl
  refine ⟨fun n hn' => ⟨?_, fun hr hm => ?_⟩, ?_⟩
  · rw [hs.get _ (mem_sampleFields (by omega)).1, b1 n (by omega), a1 n hn']
  · rw [Chip.sensorState, hs.get _ (mem_sampleFields (by omega)).2]
    exact b2 n (by omega) hr (by rw [a2 n hn']; exact hm)
  · exact ((a3.trans b3).weaken id).trans (hs.weaken id (hF := List.nil_subset _))

/-! ### The knell starts (R274, R360, R361) -/

/-- A field that the release of CLAP_OWN, and the states that follow it, do not write. -/
def offClap (g : Fld) : Bool :=
  g.apart F.REDUN_STATUS_OWN && g.apart F.REDUN_STATUS_ACTIVE && g.apart F.MIRROR_STATUS_SENDING && g.apart (F.STATE.pg pgRedun) &&
    g.apart F.REDUN_STATUS_PAIR_LOCK && calmReg g.addr

theorem offClap_all {Fs : List Fld} (h : Fs.all offClap = true) : Fs.all (fun g => g.apart F.REDUN_STATUS_OWN) = true ∧
    Fs.all (fun g => g.apart F.REDUN_STATUS_ACTIVE) = true ∧ Fs.all (fun g => g.apart F.MIRROR_STATUS_SENDING) = true ∧
    Fs.all (fun g => g.apart (F.STATE.pg pgRedun)) = true ∧ Fs.all (fun g => g.apart F.REDUN_STATUS_PAIR_LOCK) = true ∧ calmFields Fs = true := by
  simp only [List.all_eq_true, offClap, Bool.and_eq_true, calmFields] at h ⊢
  refine ⟨fun g hg => ?_, fun g hg => ?_, fun g hg => ?_, fun g hg => ?_, fun g hg => ?_, fun g hg => ?_⟩ <;>
    obtain ⟨⟨⟨⟨⟨h1, h2⟩, h3⟩, h4⟩, h5⟩, h6⟩ := h g hg <;> assumption

/-- A release of CLAP_OWN leaves the always-on domain and every field off the clapper alone. -/
theorem Holds.setOwnFalse {Fs : List Fld} {c : Chip} (h : Fs.all offClap = true) : Holds Chip.aon Fs c (c.setOwn false) ∧ (c.setOwn false).redun.own = false := by
  obtain ⟨h1, h2, h3, h4, h5, h6⟩ := offClap_all h
  have hint : ∀ d : Chip, Holds (fun c => (c.aon, c.redun)) Fs d d.interlock := fun d => by
    have he : d.interlock = if d.actBit && !(d.redun.own && !d.redun.peer) then
        (if d.activeFallen.unitState = rsActive then d.activeFallen.toStandby else d.activeFallen) else d := rfl
    have hf : Holds (fun c => (c.aon, c.redun)) Fs d d.activeFallen := .set (.setMirror (.raise (.set (Holds.refl.of rfl rfl rfl) h2) h6)) h3
    rw [he]
    refine .ite (.ite ?_ hf) .refl
    rw [Chip.toStandby_eq]
    exact .unitStateShown (.set hf h4) h5 h6
  cases ho : c.redun.own
  · rw [Chip.setOwn, if_pos ho]
    exact ⟨.refl, ho⟩
  · have h0 : Holds Chip.aon Fs c (c.ownDriven false) := .emit (.set (.setRedun .refl) h1)
    have hr := (c.ownDriven_spec false).1
    rw [c.setOwn_eq false (by rw [ho]; decide), if_neg (by decide)]
    have hi := hint (c.ownDriven false)
    generalize c.ownDriven false = x at *
    have hir : x.interlock.redun = x.redun := congrArg Prod.snd hi.view
    exact ⟨h0.trans (hi.weaken Prod.fst (hF := List.Subset.refl _)), by rw [hir, hr]⟩

/-- The registers of the sensors and the state of the drive. -/
def knellFields : List Fld :=
  F.STATE.pg pgDrive :: (List.range 20).flatMap (fun n => [F.THERMAL_SENSOR_RAW.plus (4 * n), F.THERMAL_SENSOR_USE.plus (4 * n), F.THERMAL_SCFG_STATE.plus (4 * n)])

/-- The outputs at the start of a knell. -/
def Chip.knellSafe (c : Chip) : Chip := ((c.driveHalt).setOwn false).driveAlert true

theorem Chip.driveAlert_true (c : Chip) : (c.driveAlert true).host.alertLow = true ∧ Holds (fun c => (c.aon, c.redun)) knellFields c (c.driveAlert true) := by
  unfold Chip.driveAlert
  split
  · next h => exact ⟨h, .refl⟩
  · refine ⟨?_, .emit (Holds.refl.of rfl rfl rfl)⟩
    unfold Chip.emit
    split <;> rfl

/-- The outputs go safe: what the sensors show stays, and the drive of a tile halts. -/
theorem Chip.knellSafe_spec (c : Chip) :
    c.knellSafe.aon = c.aon ∧ c.knellSafe.redun.own = false ∧ c.knellSafe.host.alertLow = true ∧ (c.build = .T → c.knellSafe.driveState = dvHalt) ∧
      (∀ n, n < 20 → c.knellSafe.get (F.THERMAL_SENSOR_RAW.plus (4 * n)) = c.get (F.THERMAL_SENSOR_RAW.plus (4 * n)) ∧
        c.knellSafe.sensorUse n = c.sensorUse n ∧ c.knellSafe.sensorState n = c.sensorState n) := by
  have hd : Holds Chip.aon knellFields.tail c c.driveHalt ∧ (c.build = .T → c.driveHalt.driveState = dvHalt) := by
    unfold Chip.driveHalt
    split
    · next h => exact ⟨.refl, fun h' => by rw [h] at h'; exact absurd h' (by decide)⟩
    · unfold Chip.setDriveState
      refine ⟨.cond (.set .refl (by decide +kernel)) (by decide +kernel), fun _ => ?_⟩
      rw [Chip.driveState, Chip.state, Chip.cond_get_of _ _ _ _ (by decide) (by decide), Chip.get_set_pg _ _ _ _ (by decide) (by decide)]
      rfl
  have hmem : ∀ n < 20, ∀ f ∈ [F.THERMAL_SENSOR_RAW.plus (4 * n), F.THERMAL_SENSOR_USE.plus (4 * n), F.THERMAL_SCFG_STATE.plus (4 * n)],
      f ∈ knellFields ∧ f ∈ knellFields.tail := by decide +kernel
  obtain ⟨h0, hT⟩ := hd
  obtain ⟨h1, h2⟩ := Holds.setOwnFalse (Fs := knellFields) (c := c.driveHalt) (by decide +kernel)
  obtain ⟨h3, h4⟩ := (c.driveHalt.setOwn false).driveAlert_true
  unfold Chip.knellSafe
  generalize c.driveHalt = x at *
  generalize x.setOwn false = y at *
  generalize y.driveAlert true = z at *
  have hg : ∀ f ∈ knellFields, f ∈ knellFields.tail → z.get f = c.get f := fun f hf hft => by rw [h4.gets f hf, h1.gets f hf, h0.gets f hft]
  have za : z.aon = y.aon := congrArg Prod.fst h4.view
  have ya : y.aon = x.aon := h1.view
  have xa : x.aon = c.aon := h0.view
  have zr : z.redun = y.redun := congrArg Prod.snd h4.view
  refine ⟨by rw [za, ya, xa], by rw [zr, h2], h3, fun hb => ?_, fun n hn => ⟨?_, ?_, ?_⟩⟩
  · rw [Chip.driveState, Chip.state, h4.get (F.STATE.pg pgDrive) List.mem_cons_self, h1.get (F.STATE.pg pgDrive) List.mem_cons_self]
    exact hT hb
  · exact hg _ (hmem n hn _ (by simp)).1 (hmem n hn _ (by simp)).2
  · rw [Chip.sensorUse, hg _ (hmem n hn _ (by simp)).1 (hmem n hn _ (by simp)).2, Chip.sensorUse]
  · exact hg _ (hmem n hn _ (by simp)).1 (hmem n hn _ (by simp)).2

/-- What a knell that starts at a sensor latches. -/
def Chip.knellRec (c : Chip) (n : Nat) : KnellRec :=
  { time := c.time64, bar := c.barCount, sensor := n, subst := !c.sensorValid n, value := c.sensorUse n,
    levels := c.get F.THERMAL_THROTTLE_DIG + 4 * c.get F.THERMAL_THROTTLE_D0 + 16 * c.get F.THERMAL_THROTTLE_D1 }

/-- A knell starts once, at the first sensor at or above 115 °C. -/
theorem Chip.knellStart_spec (c : Chip) :
    c.knellStart.aon.knell.isSome = (c.aon.knell.isSome || c.sensors.any (fun n => decide (115 * 16 ≤ c.knellStart.sensorUse n))) ∧
      (∀ k, c.aon.knell = some k → c.knellStart.aon.knell = some k) ∧
      (∀ k, c.aon.knell = none → c.knellStart.aon.knell = some k →
        k.sensor ∈ c.sensors ∧ k.value = c.knellStart.sensorUse k.sensor ∧ 115 * 16 ≤ k.value ∧ k.subst = !c.knellStart.sensorValid k.sensor ∧ k.time = c.time64 ∧
          c.knellStart.redun.own = false ∧ c.knellStart.host.alertLow = true ∧ (c.build = .T → c.knellStart.driveState = dvHalt)) ∧
      (∀ n, n < 20 → c.knellStart.get (F.THERMAL_SENSOR_RAW.plus (4 * n)) = c.get (F.THERMAL_SENSOR_RAW.plus (4 * n)) ∧
        c.knellStart.sensorState n = c.sensorState n) := by
  cases hk : c.aon.knell with
  | some k =>
    have e : c.knellStart = c := by
      unfold Chip.knellStart
      rw [hk]
    rw [e, hk]
    exact ⟨rfl, fun _ h => h, fun _ h => absurd h (by simp), fun _ _ => ⟨rfl, rfl⟩⟩
  | none =>
    cases hs : c.knellSensor with
    | none =>
      have e : c.knellStart = c := by
        unfold Chip.knellStart
        rw [hk, hs]
      have hn : c.sensors.any (fun n => decide (115 * 16 ≤ c.sensorUse n)) = false := by
        rw [List.any_eq_false]
        exact fun n hn => List.find?_eq_none.1 hs n hn
      rw [e, hk, hn]
      exact ⟨rfl, fun _ h => h, fun _ _ h => absurd h (by simp), fun _ _ => ⟨rfl, rfl⟩⟩
    | some n =>
      have hmem : n ∈ c.sensors := List.mem_of_find?_eq_some hs
      have hhot : 115 * 16 ≤ c.sensorUse n := by
        have h := List.find?_some hs
        exact of_decide_eq_true h
      have hn20 : n < 20 := by
        have h := c.sensorCount_le
        rw [c.sensors_eq] at hmem
        have := List.mem_range.1 hmem
        omega
      obtain ⟨x, hx⟩ : ∃ x : Chip, x = { c with aon := { c.aon with knell := some (c.knellRec n), flashBusy := c.flashWorks, hot125 := false } } := ⟨_, rfl⟩
      have x1 : x.aon.knell = some (c.knellRec n) := by rw [hx]
      have x2 : ∀ f, x.get f = c.get f := fun f => by rw [hx]; rfl
      have x3 : x.build = c.build := by rw [hx]
      have e : c.knellStart = x.knellSafe := by
        unfold Chip.knellStart
        rw [hk, hs, hx]
        rfl
      clear hx
      obtain ⟨h1, h2, h3, h4, h5⟩ := x.knellSafe_spec
      rw [e]
      generalize x.knellSafe = z at *
      have hu : z.sensorUse n = c.sensorUse n := by rw [(h5 n hn20).2.1, Chip.sensorUse, x2, Chip.sensorUse]
      have hv : z.sensorValid n = c.sensorValid n := by
        have hst : z.sensorState n = c.sensorState n := (h5 n hn20).2.2.trans (x2 _)
        rw [Chip.sensorValid, hst, Chip.sensorValid]
      refine ⟨?_, fun _ h => absurd h (by simp), fun k _ h => ?_, fun m hm => ⟨?_, ?_⟩⟩
      · have ha : c.sensors.any (fun n => decide (115 * 16 ≤ z.sensorUse n)) = true :=
          List.any_eq_true.2 ⟨n, hmem, by rw [hu]; exact decide_eq_true hhot⟩
        rw [ha, h1, x1]
        rfl
      · rw [h1, x1] at h
        obtain rfl : c.knellRec n = k := Option.some.inj h
        exact ⟨hmem, hu.symm, hhot, congrArg not hv.symm, rfl, h2, h3, fun hb => h4 (x3.trans hb)⟩
      · rw [(h5 m hm).1, x2]
      · rw [(h5 m hm).2.2]
        exact x2 _

/-! ### The mask (R353, R354) -/

theorem regAt_thermMask (b : Build) : ∃ d, regAt b F.THERMAL_MASK_MASK.addr = .reg d ∧ ∀ v w, d.quiesceChange v w = false := by
  cases b <;> exact ⟨_, rfl, fun _ _ => rfl⟩

/-- The mask as it acts on one sensor. -/
def Chip.maskOne (c : Chip) (mask n : Nat) : Chip :=
  if decide (mask / 2 ^ n % 2 = 1) && decide (c.sensorState n ≠ ssMasked) then
    let d := (c.setSensorState n ssMasked).setSensor n { c.sensor n with good := 0 }
    if c.sensorState n = ssValid then d.raise E.SENSOR_FAIL else d
  else if !decide (mask / 2 ^ n % 2 = 1) && decide (c.sensorState n = ssMasked) then
    (c.setSensorState n ssRecovering).setSensor n { c.sensor n with good := 0 }
  else c

theorem OneSensor.maskOne {m : Nat} {c d : Chip} {mask : Nat} (h : OneSensor m c d) (hm : m < 20) : OneSensor m c (d.maskOne mask m) := by
  unfold Chip.maskOne
  exact .ite (.ite (.raise (.setSensor (.setState h hm))) (.setSensor (.setState h hm))) (.ite (.setSensor (.setState h hm)) h)

/-- A sensor whose bit is set fails as masked. -/
theorem Chip.maskOne_masked (c : Chip) (mask n : Nat) (hn : n < 20) (h : mask / 2 ^ n % 2 = 1) : (c.maskOne mask n).sensorState n = ssMasked := by
  have hc : ∀ n < 20, eventReg (F.THERMAL_SCFG_STATE.plus (4 * n)).addr = false := by decide +kernel
  have h0 : ∀ s, ((c.setSensorState n ssMasked).setSensor n s).sensorState n = ssMasked := fun s => c.sensorState_set n ssMasked (by decide)
  unfold Chip.maskOne
  by_cases hm : c.sensorState n = ssMasked
  · rw [if_neg (by simp [hm]), if_neg (by simp [h])]
    exact hm
  · rw [if_pos (by simp [h, hm])]
    dsimp only
    split
    · exact (Chip.raise_get_of _ _ _ (hc n hn)).trans (h0 _)
    · exact h0 _

/-- The mask as it acts on every sensor. -/
def Chip.masked (c : Chip) (mask : Nat) : Chip := (List.range c.sensorCount).foldl (fun x n => x.maskOne mask n) c

theorem Chip.masked_spec (c : Chip) (mask : Nat) : (∀ n, n < c.sensorCount → mask / 2 ^ n % 2 = 1 → (c.masked mask).sensorState n = ssMasked) ∧
    Holds sampleView [F.THERMAL_MASK_MASK] c (c.masked mask) := by
  have hle := c.sensorCount_le
  refine ⟨fun n hn hb => ?_, Holds.refl.foldl (fun x m hm => ?_)⟩
  · refine foldl_range_each (fun _ _ => True) (fun n x => mask / 2 ^ n % 2 = 1 → x.sensorState n = ssMasked) (fun _ _ => trivial)
      (fun n hn x _ h => x.maskOne_masked mask n (by omega) h) (fun _ _ _ _ _ _ _ => trivial) (fun n m hn hm hne x hx h => ?_) n hn hb
    rw [(OneSensor.maskOne OneSensor.refl (by omega)).state n (by omega) hne]
    exact hx h
  · exact (OneSensor.maskOne OneSensor.refl (by have := List.mem_range.1 hm; omega)).holds

theorem Chip.maskWrite_eq (c : Chip) (mask : Nat) : c.maskWrite mask = ((c.set F.THERMAL_MASK_MASK mask).masked mask).thermalShow := rfl

theorem Chip.maskWrite_spec (c : Chip) (mask : Nat) (hm : mask < 2 ^ 20) : (c.maskWrite mask).get F.THERMAL_MASK_MASK = mask ∧
    (∀ n, n < c.sensorCount → mask / 2 ^ n % 2 = 1 → (c.maskWrite mask).sensorState n = ssMasked) ∧ Holds sampleView [] c (c.maskWrite mask) := by
  have hle := c.sensorCount_le
  have h0 : (c.set F.THERMAL_MASK_MASK mask).get F.THERMAL_MASK_MASK = mask := by
    rw [Chip.get_set _ _ _ (by decide) (by decide)]
    exact Nat.mod_eq_of_lt hm
  have hk : Holds sampleView [] c (c.set F.THERMAL_MASK_MASK mask) := .set .refl
  have hn : (c.set F.THERMAL_MASK_MASK mask).sensorCount = c.sensorCount := rfl
  rw [Chip.maskWrite_eq]
  generalize c.set F.THERMAL_MASK_MASK mask = x at *
  obtain ⟨h1, h2⟩ := x.masked_spec mask
  generalize x.masked mask = y at *
  have hs : Sampled y y.thermalShow := Sampled.thermalShow .refl
  refine ⟨?_, fun n hn' hb => ?_, (hk.trans (h2.weaken id)).trans (hs.weaken id (hF := List.nil_subset _))⟩
  · rw [hs.get _ List.mem_cons_self, h2.get F.THERMAL_MASK_MASK, h0]
  · rw [Chip.sensorState, hs.get _ (mem_sampleFields (by omega)).2]
    exact h1 n (by omega) hb

theorem Holds.calmOpen {Fs : List Fld} {c d : Chip} (h : Holds openView Fs c d) (k : Calm c) : Calm d :=
  Keeps.calm (A := []) (R := []) ⟨h.view, h.build, fun _ hx => absurd hx List.not_mem_nil, fun _ hx => absurd hx List.not_mem_nil, h.ctrls, h.pend⟩ k

theorem Chip.write32_mask (c : Chip) (o : Origin) (w : Word) (hc : Calm c) :
    ∃ x, Recorded c F.THERMAL_MASK_MASK.addr x ∧ c.write32 o F.THERMAL_MASK_MASK.addr w = (x.maskWrite (bitsOf w 19 0)).noteMirror F.THERMAL_MASK_MASK.addr := by
  obtain ⟨d, hd, hq⟩ := regAt_thermMask c.build
  have he : ∀ (x : Chip) (old : Word), x.writeEffect o F.THERMAL_MASK_MASK.addr old w = x.maskWrite (bitsOf w 19 0) := fun x old => rfl
  obtain ⟨x, hx, h⟩ := Chip.write32_tabled (o := o) (w := w) hd (by decide) (hq _ _) hc (fun x h => by
    rw [he]
    exact Holds.calmOpen ((x.maskWrite_spec _ (bitsOf_lt _ _ _)).2.2.weaken (fun v => (v.2.2.1, v.2.2.2.1)) (hF := List.Subset.refl _)) h)
  exact ⟨x, hx, by rw [h, he]⟩

/-! ### The throttle of a sender (R357) -/

theorem throttleNext_bounds (tc tth hyst : Int) (own many : Bool) (level held below floor : Nat) (hl : level < 4) (hf : floor < 4) :
    throttleNext tc tth hyst own many level held below floor < 4 ∧ floor ≤ throttleNext tc tth hyst own many level held below floor ∧
      (many = true → throttleNext tc tth hyst own many level held below floor = 3) ∧
      (many = false → throttleNext tc tth hyst own many level held below floor ≤ max (level + 1) floor) := by
  have hdown : ∀ b : Bool, (if b then level - 1 else level) ≤ level := fun b => by cases b <;> simp
  obtain ⟨n, hn, hlt, hmany, hone⟩ : ∃ n, throttleNext tc tth hyst own many level held below floor = max n floor ∧ n < 4 ∧ (many = true → n = 3) ∧
      (many = false → n ≤ level + 1) := by
    refine ⟨_, rfl, ?_, fun h => if_pos h, fun h => ?_⟩
    · split
      · decide
      · split
        · next h =>
          simp only [Bool.and_eq_true, decide_eq_true_eq] at h
          omega
        · exact Nat.lt_of_le_of_lt (hdown _) hl
    · rw [if_neg (by rw [h]; decide)]
      split
      · exact Nat.le_refl _
      · exact Nat.le_succ_of_le (hdown _)
  rw [hn]
  exact ⟨by omega, by omega, fun h => by rw [hmany h]; omega, fun h => by have := hone h; omega⟩

/-- The level of the controller of the fabric after one evaluation. -/
theorem Chip.throttleOne_spec (c : Chip) :
    c.get F.THERMAL_THROTTLE_FLOOR ≤ (c.throttleOne 0).get F.THERMAL_THROTTLE_DIG ∧ (4 < c.get F.THERMAL_FAIL_COUNT → (c.throttleOne 0).get F.THERMAL_THROTTLE_DIG = 3) ∧
      (c.get F.THERMAL_FAIL_COUNT ≤ 4 → (c.throttleOne 0).get F.THERMAL_THROTTLE_DIG ≤ max (c.get F.THERMAL_THROTTLE_DIG + 1) (c.get F.THERMAL_THROTTLE_FLOOR)) := by
  have hl : c.get F.THERMAL_THROTTLE_DIG < 4 := c.get_lt _
  have hf : c.get F.THERMAL_THROTTLE_FLOOR < 4 := c.get_lt _
  obtain ⟨n, x, hn, hx⟩ : ∃ (n : Nat) (x : Chip), (∃ tc tth hyst own held below, n = throttleNext tc tth hyst own (decide (c.get F.THERMAL_FAIL_COUNT > 4))
      (c.get F.THERMAL_THROTTLE_DIG) held below (c.get F.THERMAL_THROTTLE_FLOOR)) ∧ c.throttleOne 0 = x.set F.THERMAL_THROTTLE_DIG n :=
    ⟨_, _, ⟨_, _, _, _, _, _, rfl⟩, rfl⟩
  obtain ⟨tc, tth, hyst, own, held, below, rfl⟩ := hn
  obtain ⟨h1, h2, h3, h4⟩ := throttleNext_bounds tc tth hyst own (decide (c.get F.THERMAL_FAIL_COUNT > 4)) (c.get F.THERMAL_THROTTLE_DIG) held below
    (c.get F.THERMAL_THROTTLE_FLOOR) hl hf
  have hg : (c.throttleOne 0).get F.THERMAL_THROTTLE_DIG = throttleNext tc tth hyst own (decide (c.get F.THERMAL_FAIL_COUNT > 4))
      (c.get F.THERMAL_THROTTLE_DIG) held below (c.get F.THERMAL_THROTTLE_FLOOR) := by
    rw [hx, Chip.get_set _ _ _ (by decide) (by decide)]
    exact Nat.mod_eq_of_lt h1
  rw [hg]
  exact ⟨h2, fun h => h3 (decide_eq_true h), fun h => h4 (decide_eq_false (by omega))⟩

theorem Chip.throttle_spec (c : Chip) (hb : c.build = .S) :
    c.throttle.raw E.THROTTLE = decide (0 < c.throttle.get F.THERMAL_THROTTLE_DIG) ∧
      c.throttle.raw E.THROTTLE_MAX = decide (c.throttle.get F.THERMAL_THROTTLE_DIG = 3) ∧
      c.throttle.get F.THERMAL_THROTTLE_DIG = (c.throttleOne 0).get F.THERMAL_THROTTLE_DIG := by
  have e : c.throttle = ((c.throttleOne 0).cond E.THROTTLE (decide (0 < (c.throttleOne 0).get F.THERMAL_THROTTLE_DIG))).cond E.THROTTLE_MAX
      (decide ((c.throttleOne 0).get F.THERMAL_THROTTLE_DIG = 3)) := by
    unfold Chip.throttle
    rw [hb]
    simp only [List.foldl_cons, List.foldl_nil, List.map_cons, List.map_nil, List.any_cons, List.any_nil, Bool.or_false]
    rfl
  have hg : c.throttle.get F.THERMAL_THROTTLE_DIG = (c.throttleOne 0).get F.THERMAL_THROTTLE_DIG := by
    rw [e, Chip.cond_get_of _ _ _ _ (by decide) (by decide), Chip.cond_get_of _ _ _ _ (by decide) (by decide)]
  refine ⟨?_, ?_, hg⟩
  · rw [hg, e, Chip.cond_raw_ne _ _ _ _ (by decide) (by decide), Chip.cond_raw_self _ _ _ (by decide)]
  · rw [hg, e, Chip.cond_raw_self _ _ _ (by decide)]

/-! ### The rails (R364) -/

/-- A flag of a rail, once seen. -/
def Chip.seenLow (c : Chip) (n : Nat) : Bool := decide (c.get F.THERMAL_VMON_FLAGS_LOW_SEEN / 2 ^ n % 2 = 1)

/-- What the sample of one rail leaves alone: the registers and runs of the others, and flags and events that stand. -/
structure RailKept (m : Nat) (c d : Chip) : Prop where
  rd : ∀ n, n < 16 → n ≠ m → d.rd (F.THERMAL_VMON_MV.plus (4 * n)).addr = c.rd (F.THERMAL_VMON_MV.plus (4 * n)).addr
  thr : ∀ n, n < 16 → d.rd (F.THERMAL_VTHR_LOW.plus (4 * n)).addr = c.rd (F.THERMAL_VTHR_LOW.plus (4 * n)).addr
  run : ∀ n, n ≠ m → smGet 0 d.therm.lowRun n = smGet 0 c.therm.lowRun n
  seen : ∀ n, n < 16 → c.seenLow n = true → d.seenLow n = true
  pend : PendUp c d

namespace RailKept
variable {m : Nat} {c d e : Chip}

theorem refl : RailKept m c c := ⟨fun _ _ _ => rfl, fun _ _ => rfl, fun _ _ => rfl, fun _ _ h => h, PendUp.refl c⟩

theorem trans (h : RailKept m c d) (k : RailKept m d e) : RailKept m c e :=
  ⟨fun n hn hne => (k.rd n hn hne).trans (h.rd n hn hne), fun n hn => (k.thr n hn).trans (h.thr n hn), fun n hne => (k.run n hne).trans (h.run n hne),
    fun n hn hs => k.seen n hn (h.seen n hn hs), h.pend.trans k.pend⟩

theorem ite {p : Prop} [Decidable p] (h : RailKept m c d) (k : RailKept m c e) : RailKept m c (if p then d else e) := by
  split
  · exact h
  · exact k

/-- A field of the rail's own register. -/
theorem setOwn {f : Fld} {v : Nat} (h : RailKept m c d) (hm : m < 16) (hf : f.addr = 0x012040) : RailKept m c (d.set (f.plus (4 * m)) v) := by
  have ha : (f.plus (4 * m)).addr = 0x012040 + 4 * m := by rw [← hf]; rfl
  refine h.trans ⟨fun n hn hne => ?_, fun n hn => ?_, fun _ _ => rfl, fun n hn hs => ?_, PendUp.set _ _ _ (by omega)⟩
  · refine d.rd_set_ne _ v _ ?_
    show 0x012040 + 4 * n ≠ _
    omega
  · refine d.rd_set_ne _ v _ ?_
    show 0x012080 + 4 * n ≠ _
    omega
  · rw [Chip.seenLow, Chip.get_set_ne _ _ _ _ (by show 0x0120C0 ≠ _; omega)]
    exact hs

theorem setRuns {lo hi : Nat} (h : RailKept m c d) :
    RailKept m c { d with therm := { d.therm with lowRun := smPut 0 d.therm.lowRun m lo, highRun := smPut 0 d.therm.highRun m hi } } :=
  h.trans ⟨fun _ _ _ => rfl, fun _ _ => rfl, fun n hne => by
    show smGet 0 (smPut 0 d.therm.lowRun m lo) n = _
    rw [smGet_smPut, if_neg hne], fun _ _ hs => hs, PendUp.refl _⟩

theorem raise {x : Ev} (h : RailKept m c d) : RailKept m c (d.raise x) := by
  have hc : ∀ n < 16, eventReg (F.THERMAL_VMON_MV.plus (4 * n)).addr = false ∧ eventReg (F.THERMAL_VTHR_LOW.plus (4 * n)).addr = false := by decide +kernel
  refine h.trans ⟨fun n hn _ => Chip.raise_rd_of _ _ _ (hc n hn).1, fun n hn => Chip.raise_rd_of _ _ _ (hc n hn).2, fun _ _ => ?_, fun n hn hs => ?_, PendUp.raise _ _⟩
  · rw [(d.quiet_raise x).therm]
  · rw [Chip.seenLow, Chip.raise_get_of _ _ _ (by decide)]
    exact hs

end RailKept

theorem lor_bit (a m n : Nat) (hn : n < 16) : Nat.lor a (2 ^ m) % 2 ^ 16 / 2 ^ n % 2 = 1 ↔ a / 2 ^ n % 2 = 1 ∨ n = m := by
  have h : ∀ x : Nat, x / 2 ^ n % 2 = 1 ↔ x.testBit n = true := fun x => by
    rw [Nat.testBit_eq_decide_div_mod_eq, decide_eq_true_eq]
  rw [h, h, Nat.testBit_mod_two_pow]
  have hl : (Nat.lor a (2 ^ m)).testBit n = (a.testBit n || (2 ^ m).testBit n) := Nat.testBit_or a (2 ^ m) n
  rw [hl, Nat.testBit_two_pow, decide_eq_true hn, Bool.true_and, Bool.or_eq_true, decide_eq_true_eq]
  exact or_congr Iff.rfl eq_comm

theorem Chip.seenLow_set (c : Chip) (m n : Nat) (hn : n < 16) :
    (c.set F.THERMAL_VMON_FLAGS_LOW_SEEN (Nat.lor (c.get F.THERMAL_VMON_FLAGS_LOW_SEEN) (2 ^ m))).seenLow n = true ↔ c.seenLow n = true ∨ n = m := by
  rw [Chip.seenLow, Chip.seenLow, decide_eq_true_eq, decide_eq_true_eq, Chip.get_set _ _ _ (by decide) (by decide)]
  exact lor_bit _ m n hn

/-- The third low sample of a rail is flagged. -/
def Chip.flagLow (c : Chip) (m : Nat) : Chip :=
  (c.set F.THERMAL_VMON_FLAGS_LOW_SEEN (Nat.lor (c.get F.THERMAL_VMON_FLAGS_LOW_SEEN) (2 ^ m))).raise E.VOLT_LOW

def Chip.flagHigh (c : Chip) (m : Nat) : Chip :=
  (c.set F.THERMAL_VMON_FLAGS_HIGH_SEEN (Nat.lor (c.get F.THERMAL_VMON_FLAGS_HIGH_SEEN) (2 ^ m))).raise E.VOLT_HIGH

theorem flags_addr (v : Nat) (c : Chip) (f : Fld) (hf : f.addr = 0x0120C0) (n : Nat) (hn : n < 16) :
    (c.set f v).rd (F.THERMAL_VMON_MV.plus (4 * n)).addr = c.rd (F.THERMAL_VMON_MV.plus (4 * n)).addr ∧
      (c.set f v).rd (F.THERMAL_VTHR_LOW.plus (4 * n)).addr = c.rd (F.THERMAL_VTHR_LOW.plus (4 * n)).addr := by
  refine ⟨c.rd_set_ne _ _ _ ?_, c.rd_set_ne _ _ _ ?_⟩
  · show 0x012040 + 4 * n ≠ _
    omega
  · show 0x012080 + 4 * n ≠ _
    omega

theorem RailKept.flagLow {m : Nat} {c d : Chip} (h : RailKept m c d) : RailKept m c (d.flagLow m) := by
  refine h.trans (RailKept.raise ⟨fun n hn _ => (flags_addr _ d _ rfl n hn).1, fun n hn => (flags_addr _ d _ rfl n hn).2, fun _ _ => rfl, fun n hn hs => ?_,
    PendUp.set _ _ _ (by decide)⟩)
  exact (d.seenLow_set m n hn).2 (Or.inl hs)

theorem RailKept.flagHigh {m : Nat} {c d : Chip} (h : RailKept m c d) : RailKept m c (d.flagHigh m) := by
  refine h.trans (RailKept.raise ⟨fun n hn _ => (flags_addr _ d _ rfl n hn).1, fun n hn => (flags_addr _ d _ rfl n hn).2, fun _ _ => rfl, fun n hn hs => ?_,
    PendUp.set _ _ _ (by decide)⟩)
  rw [Chip.seenLow, Chip.get_set_apart _ _ _ _ (by decide)]
  exact hs

/-- A run of samples outside a threshold. -/
def railRun (out : Bool) (run : Nat) : Nat := if out then run + 1 else 0

/-- The sample of a rail as its register and its runs show it. -/
def Chip.railShown (c : Chip) (m mv : Nat) : Chip :=
  let d := c.set (F.THERMAL_VMON_MV.plus (4 * m)) mv
  let lo := if mv < d.get (F.THERMAL_VTHR_LOW.plus (4 * m)) then smGet 0 d.therm.lowRun m + 1 else 0
  let hi := if d.get (F.THERMAL_VTHR_HIGH.plus (4 * m)) < mv then smGet 0 d.therm.highRun m + 1 else 0
  let d := { d with therm := { d.therm with lowRun := smPut 0 d.therm.lowRun m lo, highRun := smPut 0 d.therm.highRun m hi } }
  (d.set (F.THERMAL_VMON_LOW.plus (4 * m)) (b2n (decide (3 ≤ lo)))).set (F.THERMAL_VMON_HIGH.plus (4 * m)) (b2n (decide (3 ≤ hi)))

theorem Chip.railSample_eq (c : Chip) (m mv : Nat) : c.railSample m mv =
    let d := c.set (F.THERMAL_VMON_MV.plus (4 * m)) mv
    let lo := if mv < d.get (F.THERMAL_VTHR_LOW.plus (4 * m)) then smGet 0 d.therm.lowRun m + 1 else 0
    let hi := if d.get (F.THERMAL_VTHR_HIGH.plus (4 * m)) < mv then smGet 0 d.therm.highRun m + 1 else 0
    let y := if 3 ≤ lo && !d.on (F.THERMAL_VMON_LOW.plus (4 * m)) then (c.railShown m mv).flagLow m else c.railShown m mv
    if 3 ≤ hi && !d.on (F.THERMAL_VMON_HIGH.plus (4 * m)) then y.flagHigh m else y := rfl

theorem RailKept.railSample {m mv : Nat} {c d : Chip} (h : RailKept m c d) (hm : m < 16) : RailKept m c (d.railSample m mv) := by
  have h0 : RailKept m d (d.railShown m mv) := .setOwn (.setOwn (.setRuns (.setOwn .refl hm rfl)) hm rfl) hm rfl
  rw [Chip.railSample_eq]
  generalize d.railShown m mv = x at *
  exact h.trans (.ite (.flagHigh (.ite (.flagLow h0) h0)) (.ite (.flagLow h0) h0))

theorem thermal_hasPage (c : Chip) : c.hasPage 0x012 = true := by unfold Chip.hasPage; cases c.build <;> decide +kernel

/-- The third low sample of a rail in a row flags it. -/
theorem Chip.railSample_spec (c : Chip) (m mv : Nat) (hm : m < 16) :
    (c.railSample m mv).get (F.THERMAL_VMON_MV.plus (4 * m)) = mv % 65536 ∧
      (smGet 0 c.therm.lowRun m = 2 → mv < c.get (F.THERMAL_VTHR_LOW.plus (4 * m)) → c.on (F.THERMAL_VMON_LOW.plus (4 * m)) = false →
        (c.railSample m mv).on (F.THERMAL_VMON_LOW.plus (4 * m)) = true ∧ (c.railSample m mv).pend E.VOLT_LOW = true ∧ (c.railSample m mv).seenLow m = true) := by
  have hflag : ∀ (x : Chip) (f : Fld), f.addr = 0x012040 + 4 * m → (x.flagLow m).get f = x.get f ∧ (x.flagHigh m).get f = x.get f := fun x f hf => by
    have he : eventReg f.addr = false := by
      have hc : ∀ n < 16, eventReg (0x012040 + 4 * n) = false := by decide
      rw [hf]
      exact hc m hm
    refine ⟨(Chip.raise_get_of _ _ _ he).trans (Chip.get_set_ne _ _ _ _ ?_), (Chip.raise_get_of _ _ _ he).trans (Chip.get_set_ne _ _ _ _ ?_)⟩ <;>
    · show f.addr ≠ 0x0120C0
      omega
  have hfld : ∀ (x : Chip) (f g : Fld) (v : Nat), g.apart f = true → f.addr = g.addr → (x.set (f.plus (4 * m)) v).get (g.plus (4 * m)) = x.get (g.plus (4 * m)) :=
    fun x f g v h ha => by
      have hne : decide (g.addr ≠ f.addr) = false := by rw [ha]; simp
      rw [Fld.apart, hne, Bool.false_or] at h
      simp only [Bool.and_eq_true, Bool.or_eq_true, decide_eq_true_eq] at h
      obtain ⟨⟨⟨h1, h2⟩, h3⟩, h4⟩ := h
      exact Chip.get_set_field x (f.plus (4 * m)) (g.plus (4 * m)) v h1 h2 h3 h4
  obtain ⟨d, hd⟩ : ∃ d, d = c.set (F.THERMAL_VMON_MV.plus (4 * m)) mv := ⟨_, rfl⟩
  have d1 : d.get (F.THERMAL_VTHR_LOW.plus (4 * m)) = c.get (F.THERMAL_VTHR_LOW.plus (4 * m)) := by
    rw [hd]
    refine Chip.get_set_ne _ _ _ _ ?_
    show 0x012080 + 4 * m ≠ 0x012040 + 4 * m
    omega
  have d2 : d.on (F.THERMAL_VMON_LOW.plus (4 * m)) = c.on (F.THERMAL_VMON_LOW.plus (4 * m)) := by
    rw [hd, Chip.on, hfld _ F.THERMAL_VMON_MV F.THERMAL_VMON_LOW _ (by decide) rfl, Chip.on]
  have d3 : d.get (F.THERMAL_VMON_MV.plus (4 * m)) = mv % 65536 := by
    rw [hd]
    exact Chip.get_set _ _ _ (by show 0 ≤ 15; decide) (by show 15 < 32; decide)
  have d4 : d.therm = c.therm := by rw [hd, Chip.set_therm]
  obtain ⟨lo, hlo⟩ : ∃ lo, lo = if mv < d.get (F.THERMAL_VTHR_LOW.plus (4 * m)) then smGet 0 d.therm.lowRun m + 1 else 0 := ⟨_, rfl⟩
  obtain ⟨hi, hhi⟩ : ∃ hi, hi = if d.get (F.THERMAL_VTHR_HIGH.plus (4 * m)) < mv then smGet 0 d.therm.highRun m + 1 else 0 := ⟨_, rfl⟩
  obtain ⟨x, hx, x1, x2⟩ : ∃ x, x = c.railShown m mv ∧ x.get (F.THERMAL_VMON_MV.plus (4 * m)) = mv % 65536 ∧
      (x.on (F.THERMAL_VMON_LOW.plus (4 * m)) = decide (3 ≤ lo)) := by
    refine ⟨_, rfl, ?_, ?_⟩
    · unfold Chip.railShown
      dsimp only
      rw [hfld _ F.THERMAL_VMON_HIGH F.THERMAL_VMON_MV _ (by decide) rfl, hfld _ F.THERMAL_VMON_LOW F.THERMAL_VMON_MV _ (by decide) rfl]
      exact hd ▸ d3
    · unfold Chip.railShown
      dsimp only
      rw [← hd, ← hlo, Chip.on, hfld _ F.THERMAL_VMON_HIGH F.THERMAL_VMON_LOW _ (by decide) rfl,
        Chip.get_set _ _ _ (by show 31 ≤ 31; decide) (by show 31 < 32; decide)]
      show decide (b2n (decide (3 ≤ lo)) % 2 ^ (31 + 1 - 31) = 1) = _
      cases decide (3 ≤ lo) <;> rfl
  obtain ⟨y, hy⟩ : ∃ y, y = if 3 ≤ lo && !d.on (F.THERMAL_VMON_LOW.plus (4 * m)) then x.flagLow m else x := ⟨_, rfl⟩
  have e : c.railSample m mv = if 3 ≤ hi && !d.on (F.THERMAL_VMON_HIGH.plus (4 * m)) then y.flagHigh m else y := by
    rw [hy, hx, hhi, hlo, hd]
    rfl
  have yg : ∀ f : Fld, f.addr = 0x012040 + 4 * m → y.get f = x.get f := fun f hf => by
    rw [hy]
    split
    · exact (hflag x f hf).1
    · rfl
  have eg : ∀ f : Fld, f.addr = 0x012040 + 4 * m → (c.railSample m mv).get f = x.get f := fun f hf => by
    rw [e]
    split
    · exact (hflag y f hf).2.trans (yg f hf)
    · exact yg f hf
  refine ⟨(eg _ rfl).trans x1, fun hrun hlow hoff => ?_⟩
  have h3 : lo = 3 := by rw [hlo, d1, if_pos hlow, d4, hrun]
  have y1 : y = x.flagLow m := by rw [hy, h3, d2, hoff]; rfl
  have y2 : y.pend E.VOLT_LOW = true := by
    rw [y1]
    exact Chip.raise_pend _ _ (thermal_hasPage _) (by decide)
  have y3 : y.seenLow m = true := by
    rw [y1, Chip.flagLow, Chip.seenLow, Chip.raise_get_of _ _ _ (by decide)]
    exact (x.seenLow_set m m hm).2 (Or.inr rfl)
  have k : RailKept m y (if 3 ≤ hi && !d.on (F.THERMAL_VMON_HIGH.plus (4 * m)) then y.flagHigh m else y) := .ite (.flagHigh .refl) .refl
  rw [← e] at k
  exact ⟨by rw [Chip.on, eg _ rfl, ← Chip.on, x2, h3]; rfl, k.pend _ y2, k.seen m hm y3⟩

/-- The samples of the sixteen rails. -/
theorem Chip.voltageSample_spec (c : Chip) (mvs : List Nat) (m : Nat) (hm : m < 16) :
    (c.voltageSample mvs).get (F.THERMAL_VMON_MV.plus (4 * m)) = mvs.getD m 0 % 65536 ∧
      (smGet 0 c.therm.lowRun m = 2 → mvs.getD m 0 < c.get (F.THERMAL_VTHR_LOW.plus (4 * m)) → c.on (F.THERMAL_VMON_LOW.plus (4 * m)) = false →
        (c.voltageSample mvs).on (F.THERMAL_VMON_LOW.plus (4 * m)) = true ∧ (c.voltageSample mvs).pend E.VOLT_LOW = true ∧
          (c.voltageSample mvs).seenLow m = true) := by
  have hlow : ∀ (x y : Chip) (n : Nat), y.rd (F.THERMAL_VMON_MV.plus (4 * n)).addr = x.rd (F.THERMAL_VMON_MV.plus (4 * n)).addr →
      y.get (F.THERMAL_VMON_MV.plus (4 * n)) = x.get (F.THERMAL_VMON_MV.plus (4 * n)) ∧
        y.on (F.THERMAL_VMON_LOW.plus (4 * n)) = x.on (F.THERMAL_VMON_LOW.plus (4 * n)) := fun x y n h => by
    have h' : y.rd (F.THERMAL_VMON_LOW.plus (4 * n)).addr = x.rd (F.THERMAL_VMON_LOW.plus (4 * n)).addr := h
    exact ⟨by rw [Chip.get, h, Chip.get], by rw [Chip.on, Chip.get, h', Chip.on, Chip.get]⟩
  refine foldl_range_each
    (fun n x => smGet 0 x.therm.lowRun n = smGet 0 c.therm.lowRun n ∧ x.get (F.THERMAL_VTHR_LOW.plus (4 * n)) = c.get (F.THERMAL_VTHR_LOW.plus (4 * n)) ∧
      x.on (F.THERMAL_VMON_LOW.plus (4 * n)) = c.on (F.THERMAL_VMON_LOW.plus (4 * n)))
    (fun n x => x.get (F.THERMAL_VMON_MV.plus (4 * n)) = mvs.getD n 0 % 65536 ∧
      (smGet 0 c.therm.lowRun n = 2 → mvs.getD n 0 < c.get (F.THERMAL_VTHR_LOW.plus (4 * n)) → c.on (F.THERMAL_VMON_LOW.plus (4 * n)) = false →
        x.on (F.THERMAL_VMON_LOW.plus (4 * n)) = true ∧ x.pend E.VOLT_LOW = true ∧ x.seenLow n = true))
    (fun _ _ => ⟨rfl, rfl, rfl⟩) (fun n hn x hx => ?_) (fun n m hn hm hne x hx => ?_) (fun n m hn hm hne x hx => ?_) m hm
  · obtain ⟨h1, h2, h3⟩ := hx
    rw [← h1, ← h2, ← h3]
    exact x.railSample_spec n _ hn
  · have k : RailKept m x (x.railSample m (mvs.getD m 0)) := .railSample .refl hm
    obtain ⟨h1, h2, h3⟩ := hx
    exact ⟨(k.run n hne).trans h1, by rw [Chip.get, k.thr n hn, ← Chip.get, h2], (hlow _ _ n (k.rd n hn hne)).2.trans h3⟩
  · have k : RailKept m x (x.railSample m (mvs.getD m 0)) := .railSample .refl hm
    obtain ⟨h1, h2⟩ := hx
    refine ⟨(hlow _ _ n (k.rd n hn hne)).1.trans h1, fun a b d => ?_⟩
    obtain ⟨h3, h4, h5⟩ := h2 a b d
    exact ⟨(hlow _ _ n (k.rd n hn hne)).2.trans h3, k.pend _ h4, k.seen n hn h5⟩

theorem bitsOf_mask_bit (w : Word) (n : Nat) (hn : n < 20) (h : w.getLsbD n = true) : bitsOf w 19 0 / 2 ^ n % 2 = 1 := by
  have ht : (bitsOf w 19 0).testBit n = true := by
    rw [bitsOf, Nat.pow_zero, Nat.div_one, Nat.testBit_mod_two_pow, decide_eq_true hn, Bool.true_and]
    exact h
  rw [Nat.testBit_eq_decide_div_mod_eq] at ht
  exact of_decide_eq_true ht

/-- A block that runs has its clocks. -/
theorem Runs.notStopped {s : State} (h : Runs s) : s.chip.aon.stopped = false := by
  have hf := h.notFrozen
  unfold Chip.frozen at hf
  simp only [Bool.or_eq_false_iff] at hf
  grind [Chip.latched, Chip.deaf]

/-- The samples of the sensors with the knell that starts at their end. -/
theorem Chip.sampled_spec (c : Chip) (raws : List Int) :
    let t := ((c.noteHot raws).sensorSample raws).knellStart
    t.aon.knell.isSome = (c.aon.knell.isSome || c.sensors.any (fun n => decide (115 * 16 ≤ t.sensorUse n))) ∧
      (∀ k, c.aon.knell = some k → t.aon.knell = some k) ∧
      (∀ k, c.aon.knell = none → t.aon.knell = some k →
        k.sensor ∈ c.sensors ∧ k.value = t.sensorUse k.sensor ∧ 115 * 16 ≤ k.value ∧ k.subst = !t.sensorValid k.sensor ∧ k.time = c.time64 ∧
          t.redun.own = false ∧ t.host.alertLow = true ∧ (c.build = .T → t.driveState = dvHalt)) ∧
      ∀ n ∈ c.sensors, t.get (F.THERMAL_SENSOR_RAW.plus (4 * n)) = unsign 16 (raws.getD n 0) ∧
        (raws.getD n 0 < -880 ∨ 2400 < raws.getD n 0 → c.sensorState n ≠ ssMasked → t.sensorState n = ssRange) := by
  obtain ⟨x, hx, x1, x2, x3, x4⟩ : ∃ x, x = c.noteHot raws ∧ x.aon.knell = c.aon.knell ∧ x.time = c.time ∧ x.build = c.build ∧ (∀ f, x.get f = c.get f) := by
    refine ⟨_, rfl, ?_⟩
    unfold Chip.noteHot
    split <;> exact ⟨rfl, rfl, rfl, fun _ => rfl⟩
  obtain ⟨y, hy⟩ : ∃ y, y = x.sensorSample raws := ⟨_, rfl⟩
  obtain ⟨s1, s2⟩ := x.sensorSample_spec raws
  dsimp only
  rw [← hx, ← hy]
  rw [← hy] at s1 s2
  clear hx hy
  have ya : y.aon = x.aon := congrArg Prod.fst s2.view
  have yt : y.time = x.time := congrArg (fun v => v.2.1) s2.view
  have yb : y.build = c.build := s2.build.trans x3
  have ysen : y.sensors = c.sensors := by unfold Chip.sensors; rw [yb]
  have yk : y.aon.knell = c.aon.knell := by rw [ya, x1]
  have y64 : y.time64 = c.time64 := by unfold Chip.time64 Chip.ext28; rw [yt, x2]
  have hc20 := c.sensorCount_le
  have hxn : x.sensorCount = c.sensorCount := by unfold Chip.sensorCount; rw [x3]
  obtain ⟨k1, k2, k3, k4⟩ := y.knellStart_spec
  rw [yk, ysen] at k1
  rw [yk] at k2 k3
  refine ⟨k1, k2, fun k h0 h1 => ?_, fun n hn => ?_⟩
  · have h := k3 k h0 h1
    rw [ysen, y64, yb] at h
    exact h
  · have hn : n < c.sensorCount := List.mem_range.1 hn
    obtain ⟨r1, r2⟩ := s1 n (by rw [hxn]; exact hn)
    obtain ⟨q1, q2⟩ := k4 n (by omega)
    exact ⟨q1.trans r1, fun hr hm => q2.trans (r2 hr (by rw [Chip.sensorState, x4, ← Chip.sensorState]; exact hm))⟩

/-- Settles O54: samples and the knell, the mask, the throttle of a sender and the rails. -/
theorem sensorsThrottleAndRails : Obligations.SensorsThrottleAndRails := by
  intro s hs
  have hle := s.chip.sensorCount_le
  refine ⟨fun raws => ?_, fun o w hc => ?_, fun hb => ?_, fun mvs => ?_⟩
  · refine Completes.serve (fun c => ((c.noteHot raws).sensorSample raws).knellStart) ?_ hs.notFrozen (s.chip.sampled_spec raws)
    show execSensorSample raws s = _
    rw [execSensorSample, hs.notStopped]
    rfl
  · refine Completes.serveFor o (fun c => c.write32 o F.THERMAL_MASK_MASK.addr w) rfl hs ?_
    obtain ⟨x, hx, he⟩ := s.chip.write32_mask o w hc
    obtain ⟨h1, h2, -⟩ := x.maskWrite_spec _ (bitsOf_lt w 19 0)
    have hn : x.sensorCount = s.chip.sensorCount := by unfold Chip.sensorCount; rw [hx.part Chip.build (fun _ => rfl)]
    rw [he, Chip.noteMirror_get]
    refine ⟨h1, fun n hn' hbit => (Chip.noteMirror_get _ _ _).trans (h2 n ?_ ?_)⟩
    · rw [hn]
      exact List.mem_range.1 hn'
    · have hn20 : n < 20 := by
        have := List.mem_range.1 hn'
        change n < s.chip.sensorCount at this
        omega
      exact bitsOf_mask_bit w n hn20 hbit
  · refine Completes.serve Chip.throttle rfl hs.notFrozen ?_
    obtain ⟨h1, h2, h3⟩ := s.chip.throttle_spec hb
    obtain ⟨h4, h5, h6⟩ := s.chip.throttleOne_spec
    rw [h1, h2, h3]
    exact ⟨rfl, rfl, h4, h5, h6⟩
  · refine Completes.serve (fun c => c.voltageSample mvs) rfl hs.notFrozen (fun m hm => ?_)
    obtain ⟨h1, h2⟩ := s.chip.voltageSample_spec mvs m hm
    refine ⟨h1, fun a b d => ?_⟩
    obtain ⟨h3, h4, h5⟩ := h2 a b d
    exact ⟨h3, h4, of_decide_eq_true h5⟩

end Sys2Proof.Machine
end

