-- ==== Sys2Proof/Proofs/KnellRecords.lean ====
section
-- One proof at a time: proofs that wait for the kernel side by side hold more memory than the check allows.
set_option Elab.async false
/-! PROOF. The end of the knell: outputs safe, the flash above what is being programmed, the record of the knell, the latch, and the next start
(R361 to R363). -/

namespace Sys2Proof.Machine

/-! ### The knell: outputs safe and clocks stopped (R361) -/

theorem OutUp.pinsSince (c before : Chip) : OutUp c (c.pinsSince before) := by
  unfold Chip.pinsSince
  split
  · exact .of_eq rfl
  · exact fun o ho => List.mem_append_left _ ho

/-- Every transmitter of a list of ports is off, and what was sent before stays sent. -/
theorem Chip.portsOff_spec (c : Chip) (h : c.rst.extest = false) (n : Nat) :
    let d := (List.range n).foldl (fun c p => c.emit (.portTx p false)) c
    OutUp c d ∧ (∀ p, p < n → .portTx p false ∈ d.out) ∧ d.rst = c.rst ∧ d.aon = c.aon := by
  induction n with
  | zero => exact ⟨.of_eq rfl, fun p hp => absurd hp (Nat.not_lt_zero p), rfl, rfl⟩
  | succ n ih =>
    dsimp only at ih ⊢
    rw [List.range_succ, List.foldl_append]
    generalize (List.range n).foldl (fun c p => c.emit (.portTx p false)) c = d at ih
    obtain ⟨ho, hp, hr, ha⟩ := ih
    have hq := d.quiet_emit (.portTx n false)
    refine ⟨ho.trans (.emit _ _), fun p hpn => ?_, (show (d.emit _).rst = d.rst from hq.rst).trans hr, (d.emit_aon _).trans ha⟩
    rcases Nat.lt_succ_iff_lt_or_eq.1 hpn with h' | rfl
    · exact OutUp.emit _ _ _ (hp p h')
    · exact d.emit_sent _ (by rw [hr, h])

theorem Chip.clapPin_rst (c : Chip) (own : Bool) : (c.clapPin own).rst = c.rst ∧ (c.clapPin own).build = c.build := by
  unfold Chip.clapPin
  split
  · exact ⟨(Chip.quiet_emit _ _).rst, (Chip.quiet_emit _ _).build⟩
  · exact ⟨rfl, rfl⟩

/-- The stop of the clocks, its outputs first. -/
theorem Chip.knellStop_spec (c : Chip) (k : KnellRec) (hk : c.aon.knell = some k) (hs : c.aon.stopped = false) :
    let t := c.knellStop
    t.aon.stopped = true ∧ t.aon.knell = some k ∧ .outputsSafe ∈ t.out ∧ ∀ p, p < c.numPorts → .portTx p false ∈ t.out := by
  dsimp only
  obtain ⟨x, hx, ha, hr, hb⟩ : ∃ x : Chip, c.knellStop = ((({ (List.range x.numPorts).foldl (fun c p => c.emit (.portTx p false)) x with
      aon := { ((List.range x.numPorts).foldl (fun c p => c.emit (.portTx p false)) x).aon with stopped := true } } : Chip).emit .outputsSafe).pinsSince c) ∧
      x.aon = c.aon ∧ x.rst.extest = false ∧ x.numPorts = c.numPorts := by
    unfold Chip.knellStop
    rw [if_neg (by rw [hk, hs]; simp)]
    refine ⟨_, rfl, ?_, ?_, ?_⟩
    all_goals
      dsimp only
      split
    · rw [Chip.emit_aon, Chip.clapPin_aon]
    · rfl
    · rw [(Chip.quiet_emit _ _).rst, (Chip.clapPin_rst _ _).1]
    · rfl
    · unfold Chip.numPorts
      rw [(Chip.quiet_emit _ _).build, (Chip.clapPin_rst _ _).2]
    · rfl
  rw [hx, ← hb]
  obtain ⟨-, hp, hr', ha'⟩ := x.portsOff_spec hr x.numPorts
  generalize (List.range x.numPorts).foldl (fun c p => c.emit (.portTx p false)) x = y at hp hr' ha'
  obtain ⟨z, hz⟩ : ∃ z : Chip, z = { y with aon := { y.aon with stopped := true } } := ⟨_, rfl⟩
  have hzo : z.out = y.out := by rw [hz]
  have hza : z.aon = { y.aon with stopped := true } := by rw [hz]
  have hzr : z.rst = y.rst := by rw [hz]
  rw [← hz, Chip.pinsSince_aon, Chip.emit_aon, hza]
  refine ⟨rfl, ?_, OutUp.pinsSince _ _ _ (z.emit_sent _ (by rw [hzr, hr', hr])), fun p h => OutUp.pinsSince _ _ _ (OutUp.emit _ _ _ (hzo ▸ hp p h))⟩
  show y.aon.knell = some k
  rw [ha', ha, hk]

/-! ### The records of the knell in the flash (R361, R363) -/

theorem crc32Bits_lt (n c : Nat) (h : c < 2 ^ 32) : crc32Bits n c < 2 ^ 32 := by
  induction n generalizing c with
  | zero => exact h
  | succ n ih =>
    unfold crc32Bits
    refine ih _ ?_
    split
    · exact Nat.xor_lt_two_pow (by omega) (by decide)
    · omega

theorem crc32_lt (l : List Byte) : crc32 l < 2 ^ 32 := by
  refine Nat.xor_lt_two_pow (List.foldlRecOn l _ (motive := fun c => c < 2 ^ 32) (by decide) fun c hc b _ => ?_) (by decide)
  exact crc32Bits_lt _ _ (Nat.xor_lt_two_pow hc (lt_of_lt_of_le b.isLt (by decide)))

/-- A record as it is programmed is valid. -/
theorem logValid_encode (r : LogRec) (seq : Nat) (ht : r.typ = 3) : logValid (r.encode seq) = true := by
  have key : ∀ l : List Byte, l.length = 28 → l.headD 0xFF = 3 → logValid (l ++ leBytes 4 (crc32 l)) = true := by
    intro l hl h3
    have h1 : (l ++ leBytes 4 (crc32 l)).headD 0xFF = l.headD 0xFF := by
      cases l with
      | nil => simp at hl
      | cons b l => rfl
    unfold logValid slice
    rw [h1, h3, List.drop_left' hl, List.take_left' hl, List.take_of_length_le (by simp), ofLe_leBytes]
    simp only [Bool.and_eq_true, decide_eq_true_eq]
    exact ⟨by decide, Nat.mod_eq_of_lt (crc32_lt l)⟩
  refine key _ (by simp) ?_
  rw [ht]
  rfl

/-- The fields of a record of the knell, read back (R363). -/
theorem knellRecord_fields (k : KnellRec) (o : Nat) (ho : o < 4) :
    let r := LogRec.encode {
      typ := 3, origin := 0, page := 0x010, time := k.time, bar := k.bar, code := b2n k.subst * 32768 + k.sensor % 32,
      detail := unsign 16 k.value * 65536 + o % 4 * 256 + k.levels % 64 * 4 } 0
    slice r 0 2 = [3, 0] ∧ ofLe (slice r 2 2) = 0x010 ∧ ofLe (slice r 4 4) = 0 ∧ ofLe (slice r 8 8) = k.time % 2 ^ 64 ∧
      ofLe (slice r 16 4) = k.bar % 2 ^ 32 ∧ ofLe (slice r 20 2) = b2n k.subst * 2 ^ 15 + k.sensor % 32 ∧ slice r 22 2 = [0, 0] ∧
      ofLe (slice r 24 4) = unsign 16 k.value * 2 ^ 16 + o * 2 ^ 8 + k.levels % 64 * 2 ^ 2 ∧ logValid r = true := by
  have hu : unsign 16 k.value < 65536 := by unfold unsign; omega
  have hb : b2n k.subst ≤ 1 := by cases k.subst <;> decide
  refine ⟨rfl, ofLe_leBytes 2 _, ofLe_leBytes 4 _, ofLe_leBytes 8 _, ofLe_leBytes 4 _, (ofLe_leBytes 2 _).trans ?_, rfl, (ofLe_leBytes 4 _).trans ?_, logValid_encode _ _ rfl⟩
  · exact Nat.mod_eq_of_lt (by dsimp only; omega)
  · dsimp only
    omega

/-! ### What a flash operation leaves above an address (R361, R369, R371) -/

/-- The always-on domain stays, and the flash from an address on. -/
def FlashAbove (hi : Nat) (c d : Chip) : Prop := d.aon = c.aon ∧ ∀ b n, hi ≤ b → d.flashRead b n = c.flashRead b n

namespace FlashAbove
variable {hi lo : Nat} {c d e : Chip}

theorem refl : FlashAbove hi c c := ⟨rfl, fun _ _ _ => rfl⟩

theorem trans (h : FlashAbove hi c d) (k : FlashAbove hi d e) : FlashAbove hi c e :=
  ⟨k.1.trans h.1, fun b n hb => (k.2 b n hb).trans (h.2 b n hb)⟩

theorem weaken (h : FlashAbove lo c d) (hl : lo ≤ hi) : FlashAbove hi c d := ⟨h.1, fun b n hb => h.2 b n (hl.trans hb)⟩

theorem ite {p : Prop} [Decidable p] (h : p → FlashAbove hi c d) (k : ¬ p → FlashAbove hi c e) : FlashAbove hi c (if p then d else e) := by
  split
  · exact h ‹_›
  · exact k ‹_›

/-- A step that changes neither the flash nor the always-on domain. -/
theorem of (h : FlashAbove hi c d) (ha : e.aon = d.aon) (hf : e.belfry.flash = d.belfry.flash) : FlashAbove hi c e :=
  h.trans ⟨ha, fun b n _ => by rw [Chip.flashRead, Chip.flashRead, hf]⟩

theorem program {a : Nat} {l : List Byte} (h : FlashAbove hi c d) (ha : a + l.length ≤ hi) : FlashAbove hi c (d.flashProgram a l) :=
  h.trans ⟨rfl, fun b n hb => d.flashRead_program_apart _ _ _ _ (.inr (ha.trans hb))⟩

theorem erase {a n : Nat} (h : FlashAbove hi c d) (ha : a + n ≤ hi) : FlashAbove hi c (d.flashErase a n) :=
  h.trans ⟨rfl, fun b m hb => d.flashRead_erase_apart _ _ _ _ (.inr (ha.trans hb))⟩

/-- The end of the area of the copies that may be under way when the knell comes: settings, calibration and doses. -/
theorem area_le (area k : Nat) (ha : area = arSettings ∨ area = arCalib ∨ area = arDose) (hk : k ≤ 1) :
    areaAddr area 0 k + areaSize area ≤ knellBase ∧ 64 ≤ areaSize area := by
  interval_cases k <;> rcases ha with rfl | rfl | rfl <;> decide

theorem layCopy {area k format seq : Nat} {payload : List Byte} (h : FlashAbove knellBase c d)
    (ha : area = arSettings ∨ area = arCalib ∨ area = arDose) (hk : k ≤ 1) (hp : payload.length ≤ areaSize area - 64) :
    FlashAbove knellBase c (d.layCopy area 0 k format seq payload) := by
  obtain ⟨he, h64⟩ := area_le area k ha hk
  exact .program (.program (.erase h he) (by omega)) (by simp [copyHeader]; omega)

theorem interruptCopy {area k : Nat} (h : FlashAbove knellBase c d) (ha : area = arSettings ∨ area = arCalib ∨ area = arDose) (hk : k ≤ 1) :
    FlashAbove knellBase c (d.interruptCopy area 0 k) := h.layCopy ha hk (Nat.zero_le _)

theorem commitCopy {area k : Nat} (h : FlashAbove knellBase c d) (ha : area = arSettings ∨ area = arCalib ∨ area = arDose) (hk : k ≤ 1) :
    FlashAbove knellBase c (d.commitCopy area 0 k true) := by
  obtain ⟨he, h64⟩ := area_le area k ha hk
  exact .program h (by rw [leBytes_length]; omega)

theorem writeCopyTo {area k format : Nat} {payload : List Byte} (h : FlashAbove knellBase c d)
    (ha : area = arSettings ∨ area = arCalib ∨ area = arDose) (hk : k ≤ 1) (hp : payload.length ≤ areaSize area - 64) :
    FlashAbove knellBase c (d.writeCopyTo area 0 k format payload true true) := (h.layCopy ha hk hp).commitCopy ha hk

end FlashAbove

theorem Chip.newestCopy_le (c : Chip) (area index k : Nat) (i : CopyInfo) (h : c.newestCopy area index = some (k, i)) : k ≤ 1 := by
  unfold Chip.newestCopy at h
  revert h
  cases c.copyInfo area index 0 <;> cases c.copyInfo area index 1 <;> simp only []
  · simp
  · rintro ⟨⟩; exact Nat.le_refl _
  · rintro ⟨⟩; exact Nat.zero_le _
  · split <;> rintro ⟨⟩
    · exact Nat.le_refl _
    · exact Nat.zero_le _

theorem Chip.otherCopy_le (c : Chip) (area index : Nat) : c.otherCopy area index ≤ 1 := by
  unfold Chip.otherCopy
  split <;> omega

theorem Chip.targetCopy_le (c : Chip) (area index : Nat) : c.targetCopy area index ≤ 1 := by
  unfold Chip.targetCopy
  split
  · exact Nat.le_of_lt_succ (c.get_lt F.SETTINGS_STATUS_COPY)
  · split <;> omega

/-- Where the block under way lies: in the slot of an image, below the copies. -/
def Chip.blockBelow (c : Chip) : Prop := ∀ ofs len block, c.upd.writing = some (ofs, len, block) → ofs + len ≤ 16711680

theorem length_flatMap_leBytes (m n : Nat) (f : Nat → Nat) : ((List.range n).flatMap (fun k => leBytes m (f k))).length = n * m := by
  induction n with
  | zero => simp
  | succ n ih => rw [List.range_succ, List.flatMap_append, List.length_append, ih]; simp; ring

theorem FlashAbove.cutBlock {hi : Nat} {c d : Chip} {b : Bool} (h : FlashAbove hi c d) (hw : d.blockBelow) (hhi : 0x02000000 ≤ hi) :
    FlashAbove hi c (d.cutBlock b) := by
  refine (FlashAbove.trans h ?_)
  unfold Chip.cutBlock
  cases hx : d.upd.writing with
  | none => exact .refl
  | some w =>
    obtain ⟨ofs, len, block⟩ := w
    have hb := hw _ _ _ hx
    have hn : Config.free d.free % max 1 (len / 256) < max 1 (len / 256) := Nat.mod_lt _ (by omega)
    have ho : d.otherSlot ≤ 1 := Nat.sub_le _ _
    dsimp only
    have prog : ∀ (x : Chip) (i : Nat) (l : List Byte), i ≤ Config.free d.free % max 1 (len / 256) → l.length = 256 →
        FlashAbove hi x (if smGet false x.upd.programmed (ofs / 256 + i) then x else x.flashProgram (d.otherSlot * 0x1000000 + ofs + 256 * i) l) := by
      intro x i l hi hl
      exact .ite (fun _ => .refl) (fun _ => .program .refl (by rw [hl]; omega))
    have hpage : ∀ i, ((List.range 64).flatMap (fun k => leBytes 4 (smGet 0 block (64 * i + k)).toNat)).length = 256 := fun i =>
      length_flatMap_leBytes 4 64 (fun k => (smGet 0 block (64 * i + k)).toNat)
    have hfold := foldl_rel (FlashAbove hi) (fun _ => .refl) .trans id _ (List.range (Config.free d.free % max 1 (len / 256)))
      (fun (x : Chip) i hi => prog x i _ (Nat.le_of_lt (List.mem_range.1 hi)) (hpage i)) { d with free := d.free + 2 }
    refine (FlashAbove.of .refl rfl rfl).trans (hfold.trans (prog _ _ _ (Nat.le_refl _) ?_))
    split
    · exact hpage _
    · exact leBytes_length _ _

/-! ### What the settings hold, whatever lies in the slots of the images -/

/-- The block under way is ended: the flash and the open values drawn may differ, and no block is noted. -/
def Chip.blockEnded (c : Chip) (fl : Memory) (n : Nat) : Chip :=
  { c with belfry := { c.belfry with flash := fl }, free := n, upd := { c.upd with writing := none } }

theorem Chip.flashRead_areas {c d : Chip} (h : FlashAbove 0x02000000 c d) (area index k n : Nat) :
    d.flashRead (areaAddr area index k) n = c.flashRead (areaAddr area index k) n ∧
      d.flashRead (areaAddr area index k + 64) n = c.flashRead (areaAddr area index k + 64) n := by
  have ha : 0x02000000 ≤ areaAddr area index k := by
    unfold areaAddr
    split <;> omega
  exact ⟨h.2 _ _ ha, h.2 _ _ (by omega)⟩

theorem FlashAbove.copyInfo {c d : Chip} (h : FlashAbove 0x02000000 c d) (area index k : Nat) : d.copyInfo area index k = c.copyInfo area index k := by
  have hr := c.flashRead_areas h area index k
  unfold Chip.copyInfo
  simp only [(hr _).1, (hr _).2]

theorem FlashAbove.copyPayload {c d : Chip} (h : FlashAbove 0x02000000 c d) (area index k : Nat) (i : CopyInfo) :
    d.copyPayload area index k i = c.copyPayload area index k i := (c.flashRead_areas h area index k _).2

theorem FlashAbove.newestCopy {c d : Chip} (h : FlashAbove 0x02000000 c d) (area index : Nat) : d.newestCopy area index = c.newestCopy area index := by
  unfold Chip.newestCopy
  rw [h.copyInfo, h.copyInfo]

theorem Chip.storedRecords_blockEnded (c : Chip) (fl : Memory) (n : Nat) (h : FlashAbove 0x02000000 c (c.blockEnded fl n)) :
    (c.blockEnded fl n).storedRecords = c.storedRecords := by
  have hr : (c.blockEnded fl n).readableSettings = c.readableSettings := by
    unfold Chip.readableSettings
    simp only [h.copyInfo]
    rfl
  unfold Chip.storedRecords
  rw [hr]
  cases c.readableSettings with
  | none => rfl
  | some ki =>
    obtain ⟨k, i⟩ := ki
    dsimp only
    rw [h.copyPayload]

theorem Chip.settingsPayload_blockEnded (c : Chip) (fl : Memory) (n : Nat) (h : FlashAbove 0x02000000 c (c.blockEnded fl n)) :
    (c.blockEnded fl n).settingsPayload = c.settingsPayload := by
  have hl : ∀ fmt, (c.blockEnded fl n).lanesToStore fmt = c.lanesToStore fmt := fun fmt => by
    unfold Chip.lanesToStore
    rw [c.storedRecords_blockEnded fl n h]
    rfl
  have hm : ∀ fmt, (c.blockEnded fl n).remapRecords fmt = c.remapRecords fmt := fun _ => rfl
  have ht : ∀ fmt, (c.blockEnded fl n).tableRecords fmt = c.tableRecords fmt := fun _ => rfl
  unfold Chip.settingsPayload
  simp only [hl, hm, ht]
  rfl

/-- A tile has at most four bands of 64 rows and 192 columns. -/
theorem Chip.lamps_le (c : Chip) : c.lamps ≤ 49152 := by
  have h1 : c.geoBands ≤ 4 := c.get_lt F.DRIVECTL_GEOMETRY_BANDS
  have h2 : c.geoRows ≤ 64 := by unfold Chip.geoRows; omega
  have h3 : c.geoCols ≤ 192 := by
    unfold Chip.geoCols
    dsimp only
    split
    · exact Nat.le_refl _
    · next h => simp only [Bool.or_eq_true, decide_eq_true_eq] at h; omega
  exact (Nat.mul_le_mul (Nat.mul_le_mul h1 h2) h3 : _ ≤ 4 * 64 * 192)

theorem Chip.dosePayload_length (c : Chip) : c.dosePayload.length ≤ areaSize arDose - 64 := by
  have h := c.lamps_le
  have e : c.dosePayload.length = 3 * c.lamps * 8 := length_flatMap_leBytes 8 (3 * c.lamps) (fun e => smGet 0 c.drive.doseTotals e)
  have ha : areaSize arDose = 2097152 := rfl
  omega

/-! ### The flash operation under way, completed or cut short (R361) -/

theorem Chip.interruptFlash_above (c : Chip) (hw : c.blockBelow) : FlashAbove knellBase c c.interruptFlash ∧ c.interruptFlash.belfry.migrate = none := by
  have key : ∀ x : Chip, FlashAbove knellBase c x →
      let y := ((({ x.setBelfry { x.belfry with journal := [], migrate := none } with upd := { x.upd with gather := [], index := 0, writing := none, calSession := none, calOpen := false, calGather := [], calPages := [] } } : Chip).set
        F.UPDATE_STATUS_BLOCK_BUSY 0).set F.SETTINGS_STATUS_SAVING 0)
      FlashAbove knellBase c y ∧ y.belfry.migrate = none := fun x hx => ⟨hx.of rfl rfl, rfl⟩
  have h0 : FlashAbove knellBase c (c.cutBlock false) := .cutBlock .refl hw (by decide)
  have hS : arSettings = arSettings ∨ arSettings = arCalib ∨ arSettings = arDose := .inl rfl
  unfold Chip.interruptFlash
  refine key _ (FlashAbove.ite (fun _ => FlashAbove.interruptCopy ?_ (.inr (.inr rfl)) (Chip.targetCopy_le _ _ _)) (fun _ => ?_))
  all_goals
    split
    · exact h0.interruptCopy hS (Nat.sub_le _ _)
    · exact .ite (fun _ => h0.interruptCopy hS (Chip.targetCopy_le _ _ _)) (fun _ => h0)

theorem FlashAbove.set {hi : Nat} {c d : Chip} {f : Fld} {v : Nat} (h : FlashAbove hi c d) : FlashAbove hi c (d.set f v) := h.of rfl rfl

theorem FlashOnly.upd {c d : Chip} (h : FlashOnly c d) : d.upd = c.upd := by
  obtain ⟨fl, n, rfl⟩ := h
  rfl

theorem FlashOnly.writeCopyTo {c d : Chip} {area index k format : Nat} {payload : List Byte} (h : FlashOnly c d) :
    FlashOnly c (d.writeCopyTo area index k format payload true true) := h.erase.program.program.program

/-- A copy that is committed although the knell has come. -/
theorem Chip.knellCommit_above (c : Chip) (hs : c.settingsPayload.length ≤ areaSize arSettings - 64)
    (hm : ∀ j payload, c.belfry.migrate = some (j, payload) → payload.length ≤ areaSize arSettings - 64) :
    FlashAbove knellBase c c.knellCommit ∧ c.knellCommit.upd = c.upd := by
  have hS : arSettings = arSettings ∨ arSettings = arCalib ∨ arSettings = arDose := .inl rfl
  have write : ∀ (x : Chip) area k payload, x.aon = c.aon → x.belfry.flash = c.belfry.flash → x.upd = c.upd →
      (area = arSettings ∨ area = arCalib ∨ area = arDose) → k ≤ 1 → payload.length ≤ areaSize area - 64 →
      FlashAbove knellBase c (x.writeCopyTo area 0 k c.upd.settingsFmt payload true true) ∧
        (x.writeCopyTo area 0 k c.upd.settingsFmt payload true true).upd = c.upd := fun x area k payload ha hf hu h1 h2 h3 =>
    ⟨.writeCopyTo (.of .refl ha hf) h1 h2 h3, (FlashOnly.refl.writeCopyTo (c := x)).upd.trans hu⟩
  unfold Chip.knellCommit
  cases hx : c.belfry.migrate with
  | some kp =>
    obtain ⟨x, hx', ha, hf, hu⟩ : ∃ x : Chip, x = c.setBelfry { c.belfry with migrate := none } ∧
        x.aon = c.aon ∧ x.belfry.flash = c.belfry.flash ∧ x.upd = c.upd := ⟨_, rfl, rfl, rfl, rfl⟩
    dsimp only
    rw [← hx']
    exact write x _ _ _ ha hf hu hS (Nat.sub_le _ _) (hm _ _ hx)
  | none =>
    dsimp only
    split
    · obtain ⟨h1, h2⟩ := write c arSettings (c.targetCopy arSettings 0) c.settingsPayload rfl rfl rfl hS (Chip.targetCopy_le _ _ _) hs
      exact ⟨h1.set, (Chip.set_upd _ _ _).trans h2⟩
    · split
      · exact ⟨.commitCopy .refl (.inr (.inl rfl)) (Chip.otherCopy_le _ _ _), (FlashOnly.refl.program (c := c)).upd⟩
      · split
        · obtain ⟨x, hx, ha, hf, hu⟩ : ∃ x : Chip, x = { c with belfry := { c.belfry with journal := c.belfry.journal.filter (fun x => x ≠ (arDose, 0)) } } ∧
              x.aon = c.aon ∧ x.belfry.flash = c.belfry.flash ∧ x.upd = c.upd := ⟨_, rfl, rfl, rfl, rfl⟩
          rw [← hx]
          exact write x _ _ _ ha hf hu (.inr (.inr rfl)) (Chip.targetCopy_le _ _ _) (Chip.dosePayload_length _)
        · exact ⟨.refl, rfl⟩

/-- What the flash does as the knell comes keeps the slot of its records; of what was being programmed nothing is noted any more. -/
theorem Chip.knellFlash_spec (c : Chip) (o : Nat) (hw : c.blockBelow) (hs : c.settingsPayload.length ≤ areaSize arSettings - 64)
    (hm : ∀ j payload, c.belfry.migrate = some (j, payload) → payload.length ≤ areaSize arSettings - 64) :
    let d := c.knellFlash o
    FlashAbove knellBase c d ∧ (o = 0 → d = c) ∧ (o ≠ 0 → d.upd.writing = none ∧ d.belfry.journal = [] ∧ d.belfry.migrate = none) := by
  dsimp only
  unfold Chip.knellFlash
  split
  · next h => exact ⟨.refl, fun _ => rfl, fun h' => absurd h h'⟩
  next h0 =>
  refine ⟨?_, fun h => absurd h h0, fun _ => ?_⟩
  all_goals
    split
  · exact (c.interruptFlash_above hw).1
  · obtain ⟨fl, n, hx⟩ : FlashOnly c (((c.openValue 1).2).cutBlock true) :=
      FlashOnly.trans ⟨c.belfry.flash, c.free + 1, rfl⟩ FlashOnly.refl.cutBlock
    have ha : ∀ hi, 0x02000000 ≤ hi → FlashAbove hi c (((c.openValue 1).2).cutBlock true) := fun hi hh =>
      .cutBlock (.of .refl rfl rfl) (fun ofs len block h => hw ofs len block h) hh
    have hd : ({ ((c.openValue 1).2).cutBlock true with upd := { (((c.openValue 1).2).cutBlock true).upd with writing := none } } : Chip) = c.blockEnded fl n := by
      rw [hx]
      rfl
    have hb : ∀ hi, 0x02000000 ≤ hi → FlashAbove hi c (c.blockEnded fl n) := fun hi hh => hd ▸ (ha hi hh).of rfl rfl
    dsimp only
    rw [hd]
    have hc := (c.blockEnded fl n).knellCommit_above (by rw [c.settingsPayload_blockEnded fl n (hb _ (Nat.le_refl _))]; exact hs) hm
    have hnone : ∀ x : Chip, x.upd.writing = none → x.blockBelow := fun x h ofs len block e => by rw [h] at e; cases e
    refine (hb knellBase (by decide)).trans ?_
    split
    · exact hc.1.trans (Chip.interruptFlash_above _ (hnone _ (by rw [hc.2]; rfl))).1
    · exact (Chip.interruptFlash_above _ (hnone _ rfl)).1
  · obtain ⟨h1, h2, -⟩ := c.interruptFlash_spec
    exact ⟨h1, h2, (c.interruptFlash_above hw).2⟩
  · dsimp only
    generalize (if (c.openValue 1).1 = 1 then _ else _ : Chip) = x
    obtain ⟨h1, h2, -⟩ := x.interruptFlash_spec
    exact ⟨h1, h2, by unfold Chip.interruptFlash; rfl⟩

/-! ### The end of the knell: its record and the latch (R361 to R363) -/

/-- The record that a knell leaves, with the outcome of the flash. -/
def knellRecord (k : KnellRec) (o : Nat) : LogRec :=
  { typ := 3, origin := 0, page := 0x010, time := k.time, bar := k.bar, code := b2n k.subst * 32768 + k.sensor % 32,
    detail := unsign 16 k.value * 65536 + o % 4 * 256 + k.levels % 64 * 4 }

theorem FlashAbove.knellFree {c d : Chip} (h : FlashAbove knellBase c d) : d.knellFree = c.knellFree := by
  unfold Chip.knellFree
  simp only [h.2 _ 32 (Nat.le_add_right _ _)]

theorem Chip.knellFree_lt (c : Chip) (i : Nat) (l : List Nat) (h : c.knellFree = i :: l) : i < 128 := by
  have hi : i ∈ c.knellFree := by rw [h]; exact List.mem_cons_self
  exact List.mem_range.1 (List.mem_filter.1 hi).1

theorem Chip.knellWrite_of (c : Chip) (k : KnellRec) (i : Nat) (l : List Nat) (o : Nat) (hk : c.aon.knell = some k) (hf : c.knellFree = i :: l) :
    c.knellWrite o = c.flashProgram (knellBase + 32 * i) ((knellRecord k o).encode 0) := by
  unfold Chip.knellWrite
  rw [hk, hf]
  rfl

/-- The block as the knell latches it. -/
def Chip.knellLatch (d before : Chip) : Chip := ({ d with aon := { d.aon with latched := true } } : Chip).pinsSince before

theorem Chip.knellLatch_spec (d before : Chip) :
    (d.knellLatch before).aon.latched = true ∧ (d.knellLatch before).belfry = d.belfry ∧ (d.knellLatch before).upd = d.upd ∧
      (d.knellLatch before).regs = d.regs := by
  unfold Chip.knellLatch Chip.pinsSince
  split <;> exact ⟨rfl, rfl, rfl, rfl⟩

theorem Chip.knellEnd_eq (c : Chip) (k : KnellRec) (b : Bool) (hl : c.aon.latched = false) (hs : c.aon.stopped = true) (hk : c.aon.knell = some k) :
    c.knellEnd b = ((c.knellFlash (c.knellOutcome b)).knellWrite (c.knellOutcome b)).knellLatch c := by
  unfold Chip.knellEnd
  rw [if_neg (by rw [hk, hs, hl]; simp)]
  rfl

/-- The record lies in the first erased position of the slot, every other position stays, and what was being programmed is over. -/
theorem Chip.knellEnd_spec (c : Chip) (k : KnellRec) (b : Bool) (i : Nat) (l : List Nat) (hl : c.aon.latched = false) (hs : c.aon.stopped = true)
    (hk : c.aon.knell = some k) (hf : c.knellFree = i :: l) (hw : c.blockBelow) (hp : c.settingsPayload.length ≤ areaSize arSettings - 64)
    (hm : ∀ j payload, c.belfry.migrate = some (j, payload) → payload.length ≤ areaSize arSettings - 64) :
    let o := c.knellOutcome b
    let t := c.knellEnd b
    t.aon.latched = true ∧ t.flashRead (knellBase + 32 * i) 32 = (knellRecord k o).encode 0 ∧
      (∀ j, j < 128 → j ≠ i → t.flashRead (knellBase + 32 * j) 32 = c.flashRead (knellBase + 32 * j) 32) ∧
      (o = 0 → t.regs = c.regs ∧ ∀ a, a < knellBase + 32 * i ∨ knellBase + 32 * i + 32 ≤ a → t.flashRead a 1 = c.flashRead a 1) ∧
      (o ≠ 0 → t.upd.writing = none ∧ t.belfry.journal = [] ∧ t.belfry.migrate = none) := by
  dsimp only
  rw [c.knellEnd_eq k b hl hs hk]
  generalize c.knellOutcome b = o
  obtain ⟨ha, h0, h1⟩ := c.knellFlash_spec o hw hp hm
  generalize c.knellFlash o = x at ha h0 h1
  rw [x.knellWrite_of k i l o (by rw [ha.1, hk]) (by rw [ha.knellFree, hf])]
  obtain ⟨t1, t2, t3, t4⟩ := (x.flashProgram (knellBase + 32 * i) ((knellRecord k o).encode 0)).knellLatch_spec c
  generalize (x.flashProgram (knellBase + 32 * i) ((knellRecord k o).encode 0)).knellLatch c = t at t1 t2 t3 t4
  have hr : ∀ a n, t.flashRead a n = (x.flashProgram (knellBase + 32 * i) ((knellRecord k o).encode 0)).flashRead a n := fun a n => by
    rw [Chip.flashRead, t2, Chip.flashRead]
  have hlen := (knellRecord k o).encode_length 0
  refine ⟨t1, (hr _ _).trans (x.flashRead_program_same _ _ _ hlen), fun j hj hne => ?_, fun ho => ?_, fun ho => ?_⟩
  · rw [hr, x.flashRead_program_apart _ _ _ _ (by rw [hlen]; omega), ha.2 _ _ (Nat.le_add_right _ _)]
  · rw [h0 ho] at hr t4
    exact ⟨t4, fun a h => by rw [hr, c.flashRead_program_apart _ _ _ _ (by rw [hlen]; omega)]⟩
  · obtain ⟨w1, w2, w3⟩ := h1 ho
    rw [t2, t3]
    exact ⟨w1, w2, w3⟩

/-! ### The next start: the records reported, the slot erased (R361) -/

/-- An event record taken into the log buffer. -/
def Chip.logTakeEvent (c : Chip) : Chip :=
  match c.evqExtra, c.evq with
  | some r, [] => { c with evqExtra := none }.logAdd r.log
  | _, r :: t => { c with evq := t }.logAdd r.log
  | none, [] => c

/-- A change record taken into the log buffer. -/
def Chip.logTakeChange (c : Chip) : Chip :=
  match c.changeQ with
  | r :: t => { c with changeQ := t }.logAdd r.log
  | [] => c

theorem Chip.logTake_eq (c : Chip) : c.logTake = c.logTakeEvent.logTakeChange := rfl

theorem Keeps.logTake {c d : Chip} (h : Keeps backView [] [] c d) : Keeps backView [] [] c d.logTake := by
  have k : Keeps backView [] [] c d.logTakeEvent := by
    unfold Chip.logTakeEvent
    split
    · exact .logAdd (h.of rfl rfl rfl)
    · exact .logAdd (h.of rfl rfl rfl)
    · exact h
  rw [Chip.logTake_eq]
  unfold Chip.logTakeChange
  split
  · exact .logAdd (k.of rfl rfl rfl)
  · exact k

/-- A step of the Belfry's own account that leaves whether it runs. -/
theorem Keeps.withBelfry {c d : Chip} {b : BelfrySt} (h : Keeps backView [] [] c d) (hr : b.running = d.belfry.running) (hd : b.down = d.belfry.down) :
    Keeps backView [] [] c (d.setBelfry b) :=
  h.of (by show (_, b.running, b.down) = (_, d.belfry.running, d.belfry.down); rw [hr, hd]; rfl) rfl rfl

theorem Keeps.flashErase {c d : Chip} {a n : Nat} (h : Keeps backView [] [] c d) : Keeps backView [] [] c (d.flashErase a n) := h.withBelfry rfl rfl

theorem Keeps.flashProgram {c d : Chip} {a : Nat} {l : List Byte} (h : Keeps backView [] [] c d) : Keeps backView [] [] c (d.flashProgram a l) :=
  h.withBelfry rfl rfl

theorem Keeps.logProgram {c d : Chip} {r : LogRec} (h : Keeps backView [] [] c d) : Keeps backView [] [] c (d.logProgram r) := by
  have k : Keeps backView [] [] c d.sectorEntered := .ite h.flashErase h
  rw [Chip.logProgram_eq]
  exact .set (.withBelfry k.flashProgram rfl rfl)

theorem Keeps.logFlush {c d : Chip} (h : Keeps backView [] [] c d) : Keeps backView [] [] c d.logFlush := by
  unfold Chip.logFlush
  have k : Keeps backView [] [] c d.logDrain := .foldl h (fun _ _ _ => .logTake .refl)
  generalize d.logDrain = y at k
  dsimp only
  obtain ⟨z, hz⟩ : ∃ z, z = y.setBelfry { y.belfry with logBuf := [] } := ⟨_, rfl⟩
  have kz : Keeps backView [] [] c z := hz ▸ k.withBelfry rfl rfl
  have kl : Keeps backView [] [] c (y.belfry.logBuf.foldl Chip.logProgram z) := .foldl kz (fun _ _ _ => .logProgram .refl)
  rw [← hz]
  exact .ite kl (.set kl)

theorem sensors_hasPage (c : Chip) : c.hasPage 0x010 = true := by unfold Chip.hasPage; cases c.build <;> decide +kernel

/-- Of an erased slot every position is free. -/
theorem Chip.knellFree_erased (c : Chip) : (c.flashErase knellBase 4096).knellFree = List.range 128 := by
  refine List.filter_eq_self.2 fun i hi => ?_
  have hi := List.mem_range.1 hi
  rw [List.all_eq_true]
  intro b hb
  show decide (b = 0xFF) = true
  have hb : b ∈ memRead 0xFF (c.belfry.flash.filter (fun p => decide (p.1 < knellBase) || decide (knellBase + 4096 ≤ p.1))) (knellBase + 32 * i) 32 := hb
  rw [memRead_eq_map] at hb
  obtain ⟨k, hk, rfl⟩ := List.mem_map.1 hb
  have hk := List.mem_range.1 hk
  rw [memGet, smGet, smFind_filter (fun k => decide (k < knellBase) || decide (knellBase + 4096 ≤ k)), if_neg (by simp only [Bool.or_eq_true, decide_eq_true_eq]; omega)]
  rfl

/-- The slot as it is shown, of a block whose slot is erased. -/
theorem Chip.showKnellSlot_erased (c : Chip) (h : c.knellFree = List.range 128) (hp : c.pend E.KNELL_PRIOR = true) :
    let t := c.showKnellSlot
    t.pend E.KNELL_PRIOR = true ∧ t.get F.THERMAL_KNELL_SLOT_FREE = 128 ∧ t.get F.THERMAL_KNELL_SLOT_READY = 1 := by
  have k : Keeps (fun _ => ()) [] [] c c.showKnellSlot := .set (.set .refl)
  refine ⟨k.pend _ hp, ?_, ?_⟩
  all_goals
    unfold Chip.showKnellSlot
    rw [h]
    simp (disch := decide) only [Chip.get_set_field, Chip.get_set, List.length_range]
    rfl

theorem Chip.knellPrior_spec (c : Chip) (i : Nat) (hi : i < 128) (hv : logValid (c.flashRead (knellBase + 32 * i) 32) = true) :
    let t := c.knellPrior
    t.pend E.KNELL_PRIOR = true ∧ t.get F.THERMAL_KNELL_SLOT_FREE = 128 ∧ t.get F.THERMAL_KNELL_SLOT_READY = 1 := by
  dsimp only
  unfold Chip.knellPrior
  dsimp only
  have hm : c.flashRead (knellBase + 32 * i) 32 ∈ ((List.range 128).map (fun i => c.flashRead (knellBase + 32 * i) 32)).filter logValid :=
    List.mem_filter.2 ⟨List.mem_map_of_mem (List.mem_range.2 hi), hv⟩
  rw [if_neg (fun h => by rw [List.isEmpty_iff.1 h] at hm; cases hm)]
  generalize List.foldl _ c _ = x
  have k : Keeps backView [] [] (x.raise E.KNELL_PRIOR) ((x.raise E.KNELL_PRIOR).logFlush.flashErase knellBase 4096) :=
    (Keeps.logFlush .refl).flashErase
  have hp := k.pend _ (Chip.raise_pend x E.KNELL_PRIOR (sensors_hasPage x) (by decide))
  exact Chip.showKnellSlot_erased _ (Chip.knellFree_erased _) hp

/-- Settles O55: the outputs are made safe one by one before the clocks stop; what is programmed when the knell comes lies below the slot of its
records; and of an erased slot every position is free. -/
theorem knellSequence : Obligations.KnellSequence := by
  refine ⟨fun s k hl hs hk => ?_, fun s k ended i l hl hs hk hf hw hp hm => ?_, fun s i hs hup hi hv => ?_⟩
  · exact Completes.powered _ rfl (by rw [Chip.latched, hl, hs]; rfl) (s.chip.knellStop_spec k hk hs)
  · refine ⟨{ s with chip := s.chip.knellEnd (decide (ended = 1)) }, rfl, rfl, ?_⟩
    have ho : (if s.chip.aon.flashBusy = false then 0 else if s.chip.aon.hot125 then 3 else if ended = 1 then 1 else 2) =
        s.chip.knellOutcome (decide (ended = 1)) := by
      unfold Chip.knellOutcome
      cases s.chip.aon.flashBusy <;> simp
    have h4 : s.chip.knellOutcome (decide (ended = 1)) < 4 := by
      rw [← ho]
      split_ifs <;> decide
    dsimp only
    rw [ho]
    obtain ⟨h1, h2, h3⟩ := s.chip.knellEnd_spec k (decide (ended = 1)) i l hl hs hk hf hw hp (fun j payload h => (hm j payload h).2)
    refine ⟨h1, ?_, h3⟩
    rw [h2]
    exact knellRecord_fields k _ h4
  · refine Completes.serve _ rfl hs.notFrozen ?_
    rw [if_pos hup]
    exact s.chip.knellPrior_spec i hi hv

end Sys2Proof.Machine
end

