-- ==== Sys2Proof/Proofs/KindsOfReset.lean ====
section
-- One proof at a time: proofs that wait for the kernel side by side hold more memory than the check allows.
set_option Elab.async false
/-! PROOF. What a reset leaves, the flash operation it aborts, power-good and the TAP (R274, R351, R372, R386, R390, R405, R422, R423). -/

namespace Sys2Proof.Machine

/-! ### What a reset leaves (R274, R351, R386, R390) -/

/-- What is noted of the pins is an output more, at most. -/
theorem Chip.pinsSince_eq (c before : Chip) : c.pinsSince before = { c with out := c.out ++ (if c.outCond = before.outCond then [] else [.pins c.outCond]) } := by
  unfold Chip.pinsSince
  split
  · rw [List.append_nil]
  · rfl

theorem Keeps.through {α β : Type} {ρ : Chip → α} {A : List Nat} {R : List Ev} {c d : Chip} (g : α → β) (h : Keeps ρ A R c d) :
    Keeps (fun x => g (ρ x)) A R c d := ⟨congrArg g h.view, h.build, h.rd, h.raw, h.ctrls, h.pend⟩

/-- What the outputs of a reset and the cause shown leave alone. -/
def resetView (x : Chip) : AonSt × ResetSt × Memory × HostSt × SMap BankSt := (x.aon, x.rst, x.belfry.flash, x.host, x.mem.banks)

theorem Keeps.resetCalm {A : List Nat} {R : List Ev} {c d : Chip} (h : Keeps resetView A R c d) (k : Calm c) : Calm d :=
  (show Keeps openView A R c d from h.through (fun v => v.2.2.2)).calm k

theorem Keeps.clapPin {α : Type} {ρ : Chip → α} {A : List Nat} {R : List Ev} {c d : Chip} {own : Bool} (h : Keeps ρ A R c d) :
    Keeps ρ A R c (d.clapPin own) := by
  unfold Chip.clapPin
  split
  · exact .emit h
  · exact h

theorem OutUp.clapPin (c : Chip) (own : Bool) : OutUp c (c.clapPin own) := by
  unfold Chip.clapPin
  split
  · exact .emit _ _
  · exact .of_eq rfl

theorem Chip.setDriveState_spec (c : Chip) (v : Nat) (hv : v < 16) :
    Keeps resetView [] [] c (c.setDriveState v) ∧ OutUp c (c.setDriveState v) ∧ (c.setDriveState v).driveState = v := by
  unfold Chip.setDriveState
  have h0 : OutUp c (c.set (F.STATE.pg pgDrive) v) := .of_eq rfl
  refine ⟨.cond (.set .refl), h0.trans (OutUp.cond _ _ _), ?_⟩
  rw [Chip.driveState, Chip.state, Chip.cond_get_of _ _ _ _ (by decide) (by decide), Chip.get_set _ _ _ (by decide) (by decide)]
  exact Nat.mod_eq_of_lt (show v < 2 ^ 4 from hv)

/-- That outputs go safe is sent whatever the boundary register holds. -/
theorem Chip.outputsSafe_sent (y : Chip) : .outputsSafe ∈ (y.emit .outputsSafe).out := by
  have e : (y.rst.extest && Output.outputsSafe.scanned) = false := Bool.and_false _
  have h : (y.emit .outputsSafe).out = y.out ++ [.outputsSafe] := by rw [Chip.emit, e, if_neg Bool.false_ne_true]
  rw [h]
  simp

/-- The outputs go safe; a knell holds the drive and ALERT_N. -/
theorem Chip.outputsOff_spec (y : Chip) (low : Bool) :
    let t := y.outputsOff low
    Keeps resetView [] [] y t ∧ .outputsSafe ∈ t.out ∧
      (y.aon.knell.isSome = true → t.host.alertLow = true ∧ (y.build = .T → t.driveState = dvHalt)) := by
  dsimp only
  unfold Chip.outputsOff
  dsimp only
  have ho := y.outputsSafe_sent
  obtain ⟨z, hz, kz, oz⟩ : ∃ z, (List.range ((y.emit .outputsSafe).clapPin false).numPorts).foldl (fun c p => c.emit (.portTx p false)) ((y.emit .outputsSafe).clapPin false) = z ∧
      Keeps resetView [] [] y z ∧ .outputsSafe ∈ z.out :=
    ⟨_, rfl, .foldl (.clapPin (.emit .refl)) (fun _ _ _ => .emit .refl),
      foldl_rel OutUp (fun _ => .of_eq rfl) .trans id _ _ (fun c p _ => .emit c _) _ _ (OutUp.clapPin _ _ _ ho)⟩
  rw [hz]
  have hk : z.aon = y.aon := congrArg Prod.fst kz.view
  rw [hk]
  split
  · next hs =>
    obtain ⟨d, hd, kd, od, sd⟩ : ∃ d, z.driveHalt = d ∧ Keeps resetView [] [] z d ∧ OutUp z d ∧ (z.build = .T → d.driveState = dvHalt) := by
      refine ⟨_, rfl, ?_⟩
      unfold Chip.driveHalt
      cases hb : z.build with
      | S => exact ⟨.refl, .of_eq rfl, fun h => by cases h⟩
      | T =>
        obtain ⟨h1, h2, h3⟩ := z.setDriveState_spec dvHalt (by decide)
        exact ⟨h1, h2, fun _ => h3⟩
    rw [hd]
    exact ⟨(kz.trans kd).of rfl rfl rfl, od _ oz, fun _ => ⟨rfl, fun h => sd (kz.build.trans h)⟩⟩
  · next hs =>
    refine ⟨.ite (.emit kz) kz, ?_, fun h => absurd h hs⟩
    split
    · exact OutUp.emit _ _ _ oz
    · exact oz

/-- The cause as it is shown. -/
theorem Chip.showCause_spec (c : Chip) (h1 : c.aon.resets < 65536) (h2 : c.aon.rail < 16) (h3 : c.aon.cause < 4) (h4 : c.aon.restart < 16) :
    let t := c.showCause
    Keeps resetView [(F.STATE.pg pgDrive).addr] [] c t ∧ t.out = c.out ∧ t.host = c.host ∧ t.get F.RESET_CAUSE_COUNT = c.aon.resets ∧
      t.get F.RESET_CAUSE_RAIL = c.aon.rail ∧ t.get F.RESET_CAUSE_CAUSE = c.aon.cause ∧ t.get F.BELFRY_STATUS_CAUSE = c.aon.restart := by
  refine ⟨.set (.set (.set (.set .refl))), rfl, rfl, ?_, ?_, ?_, ?_⟩
  · unfold Chip.showCause
    rw [Chip.get_set_ne _ _ _ _ (by decide), Chip.get_set_field _ _ _ _ (by decide) (by decide) (by decide) (by decide),
      Chip.get_set_field _ _ _ _ (by decide) (by decide) (by decide) (by decide), Chip.get_set _ _ _ (by decide) (by decide)]
    exact Nat.mod_eq_of_lt h1
  · unfold Chip.showCause
    rw [Chip.get_set_ne _ _ _ _ (by decide), Chip.get_set_field _ _ _ _ (by decide) (by decide) (by decide) (by decide),
      Chip.get_set _ _ _ (by decide) (by decide)]
    exact Nat.mod_eq_of_lt h2
  · unfold Chip.showCause
    rw [Chip.get_set_ne _ _ _ _ (by decide), Chip.get_set _ _ _ (by decide) (by decide)]
    exact Nat.mod_eq_of_lt h3
  · unfold Chip.showCause
    rw [Chip.get_set _ _ _ (by decide) (by decide)]
    exact Nat.mod_eq_of_lt h4

/-- Where CTRL of no page has been written, no page is enabled. -/
theorem Chip.en_of_ctrls {c : Chip} (h : c.ctrls = []) (pg : Nat) : c.en pg = false := by
  have hf : smFind c.ctrls (4 + 4096 * pg) = smFind c.regs (4 + 4096 * pg) := by
    unfold Chip.ctrls
    rw [smFind_filter (fun k => decide (k % 4096 = 4)), if_pos (by simp)]
  have hr : c.rd (F.EN.pg pg).addr = 0 := by
    show (smFind c.regs (4 + 4096 * pg)).getD (resetWord c.build (4 + 4096 * pg)) = 0
    rw [← hf, h, resetWord, resetSpecial_ctrl]
    exact tableReset_ctrl _ pg
  have h0 : bitsOf (0 : Word) (F.EN.pg pg).hi (F.EN.pg pg).lo = 0 := (rfl : bitsOf (0 : Word) 0 0 = 0)
  rw [Chip.en, Chip.on, Chip.get, hr, h0]
  rfl

theorem Chip.cleared_spec (c : Chip) (aon : AonSt) : (c.cleared aon).ctrls = [] ∧ Calm (c.cleared aon) := by
  have hc : ∀ b f, (unfittedRegs b f).filter (fun (p : Nat × Word) => decide (p.1 % 4096 = 4)) = [] := by
    intro b f
    cases b <;> cases f <;> decide
  have h1 : (c.cleared aon).ctrls = [] := hc _ _
  have hp : ∀ b f, (Chip.init b f).pathsOpen = true := by
    intro b f
    cases b <;> cases f <;> decide +kernel
  exact ⟨h1, by rw [Chip.commitPages_ctrls, h1]; rfl, (Chip.pathsOpen_congr (c := Chip.init c.build c.fitted) rfl rfl rfl).trans (hp _ _)⟩

/-- The block as a reset shows it. -/
def Chip.resetShown (c : Chip) (aon : AonSt) (low : Bool) : Chip := ((c.cleared aon).outputsOff low).showCause

theorem Chip.resetShown_spec (c : Chip) (aon : AonSt) (low : Bool) (h1 : aon.resets < 65536) (h2 : aon.rail < 16) (h3 : aon.cause < 4) (h4 : aon.restart < 16) :
    let t := c.resetShown aon low
    (t.get F.RESET_CAUSE_COUNT = aon.resets ∧ t.get F.RESET_CAUSE_RAIL = aon.rail ∧ t.get F.RESET_CAUSE_CAUSE = aon.cause ∧
      t.get F.BELFRY_STATUS_CAUSE = aon.restart) ∧
    (t.aon = aon ∧ t.build = c.build ∧ t.rst.lost = c.rst.lost ∧ t.belfry.flash = c.belfry.flash) ∧ t.ctrls = [] ∧ Calm t ∧ .outputsSafe ∈ t.out ∧
    (aon.knell.isSome = true → t.host.alertLow = true ∧ (c.build = .T → t.driveState = dvHalt)) := by
  dsimp only
  obtain ⟨hc, hcalm⟩ := c.cleared_spec aon
  have hv : resetView (c.cleared aon).still = (aon, { ResetSt.init with extest := c.rst.extest, bsr := c.rst.bsr, lost := c.rst.lost }, c.belfry.flash, HostSt.init, []) := rfl
  have hb : (c.cleared aon).build = c.build := rfl
  have ha' : (c.cleared aon).aon = aon := rfl
  unfold Chip.resetShown
  generalize c.cleared aon = y at hc hcalm hv hb ha'
  obtain ⟨ky, oy, sy⟩ := y.outputsOff_spec low
  generalize y.outputsOff low = z at ky oy sy
  have ez := ky.view.trans hv
  have ha : z.aon = aon := congrArg Prod.fst ez
  obtain ⟨kt, ot, ht, g1, g2, g3, g4⟩ := z.showCause_spec (by rw [ha]; exact h1) (by rw [ha]; exact h2) (by rw [ha]; exact h3) (by rw [ha]; exact h4)
  generalize z.showCause = t at *
  have et := kt.view.trans ez
  have kk : Keeps resetView [] [] y t := ky.trans ⟨kt.view, kt.build, fun _ h => by simp at h, kt.raw, kt.ctrls, kt.pend⟩
  refine ⟨⟨by rw [g1, ha], by rw [g2, ha], by rw [g3, ha], by rw [g4, ha]⟩, ⟨congrArg Prod.fst et, kk.build.trans hb,
    congrArg (fun v => v.2.1.lost) et, congrArg (fun v => v.2.2.1) et⟩, kk.ctrls.trans hc, kk.resetCalm hcalm, ot ▸ oy, fun hk => ?_⟩
  obtain ⟨s1, s2⟩ := sy (by rw [ha']; exact hk)
  refine ⟨ht ▸ s1, fun hT => ?_⟩
  rw [Chip.driveState, Chip.state, kt.get _ (by decide)]
  exact s2 (hb.trans hT)

/-! ### The flash operation that a reset aborts (R372) -/

/-- The block with another account of its supplies and resets. -/
def Chip.withRst (c : Chip) (r : ResetSt) : Chip := { c with rst := r }

theorem Chip.flashProgram_withRst (c : Chip) (r : ResetSt) (a : Nat) (l : List Byte) :
    (c.withRst r).flashProgram a l = (c.flashProgram a l).withRst r := rfl

theorem Chip.cutBlock_withRst (c : Chip) (r : ResetSt) (b : Bool) : (c.withRst r).cutBlock b = (c.cutBlock b).withRst r := by
  have prog : ∀ (ofs base i : Nat) (l : List Byte) (x : Chip),
      (if smGet false (x.withRst r).upd.programmed (ofs / 256 + i) then x.withRst r else (x.withRst r).flashProgram (base + 256 * i) l) =
        (if smGet false x.upd.programmed (ofs / 256 + i) then x else x.flashProgram (base + 256 * i) l).withRst r := by
    intro ofs base i l x
    rw [apply_ite (fun y : Chip => y.withRst r)]
    rfl
  unfold Chip.cutBlock
  cases hw : c.upd.writing with
  | none =>
    rw [show (c.withRst r).upd.writing = none from hw]
  | some w =>
    obtain ⟨ofs, len, block⟩ := w
    rw [show (c.withRst r).upd.writing = some (ofs, len, block) from hw]
    dsimp only
    have hfold : ∀ (l : List Nat) (page : Nat → List Byte) (base : Nat) (x : Chip),
        l.foldl (fun (c : Chip) i => if smGet false c.upd.programmed (ofs / 256 + i) then c else c.flashProgram (base + 256 * i) (page i)) (x.withRst r) =
          (l.foldl (fun (c : Chip) i => if smGet false c.upd.programmed (ofs / 256 + i) then c else c.flashProgram (base + 256 * i) (page i)) x).withRst r :=
      fun l page base x => List.foldl_hom (fun y : Chip => y.withRst r) (fun y i => prog ofs base i (page i) y)
    have hfree : ({ c.withRst r with free := (c.withRst r).free + 2 } : Chip) = ({ c with free := c.free + 2 } : Chip).withRst r := rfl
    rw [hfree]
    have ho : (c.withRst r).otherSlot = c.otherSlot := rfl
    have hn : Config.free (c.withRst r).free = Config.free c.free := rfl
    rw [ho, hn]
    generalize ({ c with free := c.free + 2 } : Chip) = x
    rw [hfold]
    exact prog _ _ _ _ _

theorem Chip.interruptCopy_withRst (c : Chip) (r : ResetSt) (area index k : Nat) :
    (c.withRst r).interruptCopy area index k = (c.interruptCopy area index k).withRst r := rfl

/-- Nothing is noted of what was being programmed. -/
def Chip.nothingNoted (x : Chip) : Chip :=
  { x.setBelfry { x.belfry with journal := [], migrate := none } with upd := { x.upd with gather := [], index := 0, writing := none, calSession := none, calOpen := false, calGather := [], calPages := [] } }

/-- What the abort of a flash operation leaves noted. -/
def Chip.programmingOver (x : Chip) : Chip := (x.nothingNoted.set F.UPDATE_STATUS_BLOCK_BUSY 0).set F.SETTINGS_STATUS_SAVING 0

theorem Chip.set_withRst (x : Chip) (r : ResetSt) (f : Fld) (v : Nat) : (x.withRst r).set f v = (x.set f v).withRst r := rfl

/-- The copies of settings under way, cut short. -/
def Chip.settingsCut (c : Chip) : Chip :=
  match c.belfry.migrate with
  | some (k, _) => c.interruptCopy arSettings 0 (1 - k)
  | none => if c.on F.SETTINGS_STATUS_SAVING then c.interruptCopy arSettings 0 (c.targetCopy arSettings 0) else c

/-- The copy of doses under way, cut short. -/
def Chip.doseCut (c : Chip) : Chip := if c.belfry.journal.contains (arDose, 0) then c.interruptCopy arDose 0 (c.targetCopy arDose 0) else c

theorem Chip.interruptFlash_eq (c : Chip) : c.interruptFlash = (c.cutBlock false).settingsCut.doseCut.programmingOver := rfl

theorem Chip.settingsCut_withRst (c : Chip) (r : ResetSt) : (c.withRst r).settingsCut = c.settingsCut.withRst r := by
  unfold Chip.settingsCut
  cases hm : c.belfry.migrate with
  | some kp =>
    rw [show (c.withRst r).belfry.migrate = some kp from hm]
    rfl
  | none =>
    rw [show (c.withRst r).belfry.migrate = none from hm]
    have hs : (c.withRst r).on F.SETTINGS_STATUS_SAVING = c.on F.SETTINGS_STATUS_SAVING := rfl
    have ht : (c.withRst r).targetCopy arSettings 0 = c.targetCopy arSettings 0 := rfl
    dsimp only
    rw [hs, ht, Chip.interruptCopy_withRst]
    exact (apply_ite (fun y : Chip => y.withRst r) _ _ _).symm

theorem Chip.doseCut_withRst (c : Chip) (r : ResetSt) : (c.withRst r).doseCut = c.doseCut.withRst r := by
  have hs : (c.withRst r).belfry.journal = c.belfry.journal := rfl
  have ht : (c.withRst r).targetCopy arDose 0 = c.targetCopy arDose 0 := rfl
  unfold Chip.doseCut
  rw [hs, ht, Chip.interruptCopy_withRst]
  exact (apply_ite (fun y : Chip => y.withRst r) _ _ _).symm

theorem Chip.programmingOver_withRst (x : Chip) (r : ResetSt) : (x.withRst r).programmingOver = x.programmingOver.withRst r := by
  have h : (x.withRst r).nothingNoted = x.nothingNoted.withRst r := rfl
  rw [Chip.programmingOver, Chip.programmingOver, h, Chip.set_withRst, Chip.set_withRst]

theorem Chip.interruptFlash_withRst (c : Chip) (r : ResetSt) : (c.withRst r).interruptFlash = c.interruptFlash.withRst r := by
  rw [Chip.interruptFlash_eq, Chip.interruptFlash_eq, Chip.cutBlock_withRst, Chip.settingsCut_withRst, Chip.doseCut_withRst,
    Chip.programmingOver_withRst]

theorem Chip.settingsCut_flashOnly (c : Chip) : FlashOnly c c.settingsCut := by
  unfold Chip.settingsCut
  split
  · exact FlashOnly.refl.interruptCopy
  · exact .ite FlashOnly.refl.interruptCopy .refl

theorem Chip.doseCut_flashOnly (c : Chip) : FlashOnly c c.doseCut := .ite FlashOnly.refl.interruptCopy .refl

/-- What a reset goes by: the supplies, the build, and whether the balls are in EXTEST. -/
theorem Chip.interruptFlash_rst (c : Chip) : c.interruptFlash.rst = c.rst ∧ c.interruptFlash.aon = c.aon ∧ c.interruptFlash.build = c.build := by
  obtain ⟨fl, n, h⟩ := (FlashOnly.refl.cutBlock (c := c) (b := false)).trans ((Chip.settingsCut_flashOnly _).trans (Chip.doseCut_flashOnly _))
  rw [Chip.interruptFlash_eq, h]
  exact ⟨rfl, rfl, rfl⟩

/-- Where nothing is being programmed, the abort leaves the flash. -/
theorem Chip.interruptFlash_idle (c : Chip) (h : c.flashWorks = false) : c.interruptFlash.belfry.flash = c.belfry.flash := by
  unfold Chip.flashWorks at h
  simp only [Bool.or_eq_false_iff, decide_eq_false_iff_not, List.any_eq_false] at h
  obtain ⟨⟨⟨⟨-, hw⟩, hs⟩, hm⟩, hj⟩ := h
  have hw : c.upd.writing = none := by cases hx : c.upd.writing with
    | none => rfl
    | some x => rw [hx] at hw; cases hw
  have hm : c.belfry.migrate = none := by cases hx : c.belfry.migrate with
    | none => rfl
    | some x => rw [hx] at hm; cases hm
  have h1 : c.cutBlock false = c := by unfold Chip.cutBlock; rw [hw]
  have h2 : c.settingsCut = c := by
    unfold Chip.settingsCut
    rw [hm, hs]
    rfl
  have h3 : c.doseCut = c := by
    unfold Chip.doseCut
    rw [if_neg]
    intro hc
    exact hj (arDose, 0) (List.contains_iff_mem.1 hc) rfl
  rw [Chip.interruptFlash_eq, h1, h2, h3]
  rfl

/-! ### Device reset (R350, R351, R386) -/

/-- The always-on domain as a device reset leaves it. -/
def Chip.resetAon (c : Chip) (cause rail : Nat) : AonSt :=
  { c.aon with resets := (c.aon.resets + 1) % 65536, cause := cause % 4, rail := if cause % 4 = 1 then rail % 16 else 0 }

theorem Chip.deviceReset_eq (c : Chip) (cause rail : Nat) :
    c.deviceReset cause rail =
      ((c.interruptFlash.resetShown (c.resetAon cause rail) c.host.alertLow).withRst
        { (c.interruptFlash.resetShown (c.resetAon cause rail) c.host.alertLow).rst with held := decide (cause % 4 ≠ 3) }).pinsSince c := rfl

/-- What a reset ends in: held or not, its cause and count, no page enabled. -/
structure AfterReset (t c : Chip) (k rail : Nat) : Prop where
  held : t.rst.held = decide (k ≠ 3)
  cause : t.get F.RESET_CAUSE_CAUSE = k
  rail : t.get F.RESET_CAUSE_RAIL = if k = 1 then rail else 0
  count : t.get F.RESET_CAUSE_COUNT = (c.aon.resets + 1) % 65536
  restart : t.get F.BELFRY_STATUS_CAUSE = c.aon.restart
  lost : t.rst.lost = c.rst.lost
  flash : t.belfry.flash = c.interruptFlash.belfry.flash
  knell : t.aon.knell = c.aon.knell
  en : ∀ pg, t.en pg = false
  safe : .outputsSafe ∈ t.out
  calm : Calm t
  halted : c.aon.knell.isSome = true → t.host.alertLow = true ∧ (c.build = .T → t.driveState = dvHalt)

theorem Chip.deviceReset_spec (c : Chip) (cause rail : Nat) (hc : cause < 4) (hr : cause = 1 → rail < 16) (ha : c.aon.restart < 8) :
    AfterReset (c.deviceReset cause rail) c cause rail := by
  obtain ⟨ir, ia, ib⟩ := c.interruptFlash_rst
  have hcc : cause % 4 = cause := Nat.mod_eq_of_lt hc
  obtain ⟨⟨g1, g2, g3, g4⟩, ⟨a1, a2, a3, a4⟩, hct, hcalm, hsafe, hk⟩ := c.interruptFlash.resetShown_spec (c.resetAon cause rail) c.host.alertLow
    (Nat.mod_lt _ (by decide)) (by
      show (if cause % 4 = 1 then rail % 16 else 0) < 16
      split <;> omega) (Nat.mod_lt _ (by decide)) (lt_of_lt_of_le ha (by decide))
  rw [Chip.deviceReset_eq]
  generalize c.interruptFlash.resetShown (c.resetAon cause rail) c.host.alertLow = x at *
  rw [Chip.pinsSince_eq]
  exact {
    held := by
      show decide (cause % 4 ≠ 3) = _
      rw [hcc]
    cause := g3.trans hcc
    rail := g2.trans (by
      show (if cause % 4 = 1 then rail % 16 else 0) = _
      rw [hcc]
      split
      · exact Nat.mod_eq_of_lt (hr ‹_›)
      · rfl)
    count := g1
    restart := g4
    lost := a3.trans (by rw [ir])
    flash := a4
    knell := by
      show x.aon.knell = _
      rw [a1]
      rfl
    en := fun pg => Chip.en_of_ctrls hct pg
    safe := List.mem_append_left _ hsafe
    calm := hcalm.of_ctrls rfl rfl rfl rfl
    halted := fun h => ⟨(hk h).1, fun hT => (hk h).2 (ib.trans hT)⟩ }

theorem Chip.powerLost_held (c : Chip) (cause rail : Nat) (hl : c.latched = false) (hh : c.rst.held = false)
    (hc : cause = 2 ∨ (cause = 1 ∧ railUsed c.build c.fitted rail = true)) :
    ∃ r, (r.lost = c.rst.lost ∨ r.lost = c.rst.lost ++ [rail]) ∧ (cause = 1 → rail ∈ r.lost) ∧ c.powerLost cause rail = (c.withRst r).deviceReset cause rail := by
  unfold Chip.powerLost
  have h1 : ¬ (!(decide (cause = 2) || (decide (cause = 1) && railUsed c.build c.fitted rail))) = true := by
    rcases hc with rfl | ⟨rfl, h⟩
    · simp
    · simp [h]
  rw [if_neg h1, hl, hh]
  simp only [Bool.or_self, Bool.false_eq_true, if_false]
  split
  · exact ⟨{ c.rst with lost := c.rst.lost ++ [rail] }, .inr rfl, fun _ => by simp, rfl⟩
  · next h =>
    refine ⟨c.rst, .inl rfl, fun h1 => ?_, rfl⟩
    subst h1
    simpa using h

/-! ### POWER_ON_RESET, power-good and the TAP (R390, R405, R422, R423) -/

/-- A reset begun anew, with these supplies lost, held. -/
def Chip.resetAnew (x : Chip) (lost : List Nat) (low : Bool) : Chip :=
  let d := (x.withRst { ResetSt.init with lost := lost }).resetShown AonSt.init low
  d.withRst { d.rst with held := true }

theorem Chip.powerOn_eq (c : Chip) : c.powerOn = (c.interruptFlash.resetAnew c.rst.lost c.host.alertLow).pinsSince c := rfl

theorem Chip.resetAnew_spec (x : Chip) (lost : List Nat) (low : Bool) :
    let t := x.resetAnew lost low
    t.rst.held = true ∧ t.aon = AonSt.init ∧ t.build = x.build ∧ t.belfry.flash = x.belfry.flash ∧ t.get F.RESET_CAUSE_CAUSE = 0 ∧
      t.get F.RESET_CAUSE_COUNT = 0 ∧ t.ctrls = [] ∧ .outputsSafe ∈ t.out := by
  dsimp only
  obtain ⟨⟨g1, -, g3, -⟩, ⟨a1, a2, -, a4⟩, hct, -, hsafe, -⟩ := (x.withRst { ResetSt.init with lost := lost }).resetShown_spec AonSt.init low
    (by decide) (by decide) (by decide) (by decide)
  unfold Chip.resetAnew
  generalize (x.withRst { ResetSt.init with lost := lost }).resetShown AonSt.init low = d at *
  exact ⟨rfl, a1, a2, a4, g3, g1, hct, hsafe⟩

theorem Chip.powerOn_spec (c : Chip) :
    let t := c.powerOn
    t.rst.held = true ∧ t.aon = AonSt.init ∧ t.build = c.build ∧ t.belfry.flash = c.interruptFlash.belfry.flash ∧ t.get F.RESET_CAUSE_CAUSE = 0 ∧
      t.get F.RESET_CAUSE_COUNT = 0 ∧ (∀ pg, t.en pg = false) ∧ .outputsSafe ∈ t.out := by
  dsimp only
  obtain ⟨-, -, ib⟩ := c.interruptFlash_rst
  obtain ⟨h1, h2, h3, h4, h5, h6, h7, h8⟩ := c.interruptFlash.resetAnew_spec c.rst.lost c.host.alertLow
  rw [Chip.powerOn_eq]
  generalize c.interruptFlash.resetAnew c.rst.lost c.host.alertLow = x at *
  rw [Chip.pinsSince_eq]
  exact ⟨h1, h2, h3.trans ib, h4, h5, h6, fun pg => Chip.en_of_ctrls h7 pg, List.mem_append_left _ h8⟩

/-- What differs is the outputs alone. -/
def OutOnly (c d : Chip) : Prop := d = { c with out := d.out }

theorem OutOnly.trans {c d e : Chip} (h : OutOnly c d) (k : OutOnly d e) : OutOnly c e := by
  unfold OutOnly at *
  rw [k, h]

theorem OutOnly.emit (c : Chip) (o : Output) : OutOnly c (c.emit o) := by
  unfold OutOnly Chip.emit
  split <;> rfl

theorem OutOnly.clapPin (c : Chip) (own : Bool) : OutOnly c (c.clapPin own) := by
  unfold Chip.clapPin
  split
  · exact .emit _ _
  · rfl

theorem OutOnly.pinsSince (c before : Chip) : OutOnly c (c.pinsSince before) := by
  rw [Chip.pinsSince_eq]
  rfl

/-- A reset of the TAP gives ALERT_N and CLAP_OWN back to the block. -/
theorem Chip.tapReset_spec (c : Chip) (h : c.rst.extest = true) :
    let t := c.tapReset
    OutOnly (c.withRst { c.rst with extest := false, bsr := [] }) t ∧ .alertN c.host.alertLow ∈ t.out ∧ (c.build = .S → .clapOwn c.redun.own ∈ t.out) := by
  dsimp only
  obtain ⟨d, hd, he, hb⟩ : ∃ d, d = c.withRst { c.rst with extest := false, bsr := [] } ∧ d.rst.extest = false ∧ d.build = c.build := ⟨_, rfl, rfl, rfl⟩
  have e : c.tapReset = ((d.clapPin c.redun.own).emit (.alertN c.host.alertLow)).pinsSince c := by
    unfold Chip.tapReset
    rw [if_pos h, hd]
    rfl
  rw [e, ← hd]
  have hx : (d.clapPin c.redun.own).rst.extest = false := by rw [(Chip.clapPin_rst _ _).1, he]
  have hS : c.build = .S → .clapOwn c.redun.own ∈ (d.clapPin c.redun.own).out := fun h => by
    unfold Chip.clapPin
    rw [hb, h]
    exact d.emit_sent _ he
  have ho := OutOnly.clapPin d c.redun.own
  generalize d.clapPin c.redun.own = y at hx hS ho
  exact ⟨(ho.trans (.emit _ _)).trans (.pinsSince _ _), OutUp.pinsSince _ _ _ (y.emit_sent _ hx), fun h => OutUp.pinsSince _ _ _ (OutUp.emit _ _ _ (hS h))⟩

/-- EXTEST gives the balls of the boundary register their cells. -/
theorem Chip.extest_spec (c : Chip) (own low : Bool) (cells : List Bool) :
    let t := c.extest own low cells
    t.rst.extest = true ∧ t.rst.bsr = cells ∧ t.regs = c.regs ∧ .alertN low ∈ t.out ∧ .scanOut ((bsrBalls c.build).zip cells) ∈ t.out ∧
      (c.build = .S → .clapOwn own ∈ t.out) ∧ (c.build = .T → ∃ v, .scanIn v ∈ t.out) := by
  unfold Chip.extest
  cases c.build <;> dsimp only <;> rw [Chip.pinsSince_eq] <;> refine ⟨rfl, rfl, rfl, ?_, ?_, ?_, ?_⟩
  all_goals simp

/-! ### The kinds of reset (R274, R351, R372, R390) -/

theorem Chip.deviceReset_calm (c : Chip) (cause rail : Nat) : Calm (c.deviceReset cause rail) := by
  have h : Calm (c.interruptFlash.resetShown (c.resetAon cause rail) c.host.alertLow) := by
    obtain ⟨-, hc⟩ := c.interruptFlash.cleared_spec (c.resetAon cause rail)
    unfold Chip.resetShown
    generalize c.interruptFlash.cleared (c.resetAon cause rail) = y at hc
    have ky := (y.outputsOff_spec c.host.alertLow).1
    generalize y.outputsOff c.host.alertLow = z at ky
    have kz : Keeps resetView [] [] z z.showCause := .set (.set (.set (.set .refl)))
    exact (ky.trans kz).resetCalm hc
  rw [Chip.deviceReset_eq]
  generalize c.interruptFlash.resetShown (c.resetAon cause rail) c.host.alertLow = x at *
  rw [Chip.pinsSince_eq]
  exact h.of_ctrls rfl rfl rfl rfl

theorem regAt_resetCmd (b : Build) : ∃ d, regAt b F.RESET_CMD_DEVICE.addr = .reg d ∧ ∀ v w, d.quiesceChange v w = false := by
  cases b <;> exact ⟨_, rfl, fun _ _ => by simp [RegDef.quiesceChange]⟩

/-- Whether a flash operation is under way, of a block that has recorded a command. -/
theorem Recorded.flashWorks {c x : Chip} (h : Recorded c F.RESET_CMD_DEVICE.addr x) : x.flashWorks = c.flashWorks := by
  have hg : ∀ f : Fld, f.addr ≠ F.RESET_CMD_DEVICE.addr → eventReg f.addr = false → f.addr ≠ F.DEVICE_CHANGE_LOST_COUNT.addr → x.get f = c.get f :=
    fun f h1 h2 h3 => h.get f h1 h2 h3
  have hb : x.belfry = c.belfry := h.part Chip.belfry fun _ => rfl
  have hu : x.upd = c.upd := h.part Chip.upd fun _ => rfl
  have hv : ∀ n, x.holdValid n = c.holdValid n := fun n => by
    unfold Chip.holdValid
    rw [h.rd _ (by decide) (by decide) (by decide), h.rd F.TILERX_HOLD_VALID_HI_HI.addr (by decide) (by decide) (by decide)]
  unfold Chip.flashWorks Chip.state Chip.on
  rw [hb, hu, hg _ (by decide) (by decide) (by decide), hg F.SETTINGS_STATUS_SAVING (by decide) (by decide) (by decide)]
  simp only [hv]

/-- Power-good ends the reset and the account of the supplies, but for a latched knell. -/
theorem Chip.powerGood_spec (c : Chip) :
    c.powerGood = { c with rst := { c.rst with lost := [], held := c.rst.held && c.latched }, out := c.powerGood.out } ∧
      c.powerGood.out = c.out ++ (if c.powerGood.outCond = c.outCond then [] else [.pins c.powerGood.outCond]) := by
  have e : c.powerGood = (c.withRst { c.rst with lost := [], held := c.rst.held && c.latched }).pinsSince c := rfl
  have hc : ((c.withRst { c.rst with lost := [], held := c.rst.held && c.latched }).pinsSince c).outCond =
      (c.withRst { c.rst with lost := [], held := c.rst.held && c.latched }).outCond := by
    rw [Chip.pinsSince_eq]
    rfl
  rw [e, hc, Chip.pinsSince_eq]
  exact ⟨rfl, rfl⟩

theorem Chip.withRst_flash (c : Chip) (r : ResetSt) : (c.withRst r).belfry.flash = c.belfry.flash := rfl

/-- Settles O59: every reset begins anew from the reset values, with the flash, the supplies and the always-on domain it keeps; each of the others
changes what it names and the outputs. -/
theorem kindsOfReset : Obligations.KindsOfReset := by
  refine ⟨fun s => ?_, fun s cause rail hl hh hc ha => ?_, fun s cause rail h2 h1 => ?_, fun s o hs hcalm ha => ?_, fun s => ?_, fun s hl he => ?_,
    fun s own low cells hl => ?_⟩
  · obtain ⟨h1, h2, h3, h4, h5, h6, h7, h8⟩ := s.chip.powerOn_spec
    exact ⟨{ s with chip := s.chip.powerOn }, rfl, rfl, h1, h2, h3, h4, fun h => h4.trans (s.chip.interruptFlash_idle h), h5, h6, fun pg _ => h7 pg, h8⟩
  · refine ⟨{ s with chip := s.chip.powerLost cause rail }, rfl, rfl, ?_⟩
    obtain ⟨r, -, hr, he⟩ := s.chip.powerLost_held cause rail hl hh hc
    have hc4 : cause < 4 := by omega
    have hrail : cause = 1 → rail < 16 := fun h1 => by
      rcases hc with rfl | ⟨-, h⟩
      · cases h1
      · unfold railUsed at h
        simp only [Bool.and_eq_true, decide_eq_true_eq] at h
        exact h.1.1
    have hf : (s.chip.withRst r).interruptFlash.belfry.flash = s.chip.interruptFlash.belfry.flash := by
      rw [Chip.interruptFlash_withRst]
      exact Chip.withRst_flash _ _
    have h := (s.chip.withRst r).deviceReset_spec cause rail hc4 hrail ha
    rw [← he] at h
    have h3 : cause ≠ 3 := by omega
    exact ⟨h.held.trans (decide_eq_true h3), h.cause, h.rail, h.count, h.restart, fun h1 => h.lost ▸ hr h1, h.flash.trans hf,
      fun hw => (h.flash.trans hf).trans (s.chip.interruptFlash_idle hw), h.knell, fun pg _ => h.en pg, h.safe, h.halted⟩
  · refine ⟨{ s with chip := s.chip.powerLost cause rail }, rfl, rfl, ?_⟩
    have h : (!(decide (cause = 2) || (decide (cause = 1) && railUsed s.chip.build s.chip.fitted rail))) = true := by
      rcases h1 with h1 | h1 <;> simp [h2, h1]
    exact if_pos h
  · refine Completes.serveFor o _ rfl hs ?_
    obtain ⟨d, hd, hq⟩ := regAt_resetCmd s.chip.build
    obtain ⟨x, hx, he⟩ := Chip.writeField_command (o := o) (fun x => x.deviceReset 3 0) rfl (by decide) hd (by decide) hq hcalm
      (fun x old w hw => (if_pos hw : (if w.getLsbD 0 = true then x.deviceReset 3 0 else x) = _)) (fun x _ => x.deviceReset_calm 3 0)
    rw [he, Chip.noteMirror_other _ _ (by decide)]
    have hao : x.aon = s.chip.aon := hx.part Chip.aon fun _ => rfl
    have hb : x.build = s.chip.build := hx.part Chip.build fun _ => rfl
    have hbel : x.belfry = s.chip.belfry := hx.part Chip.belfry fun _ => rfl
    have h := x.deviceReset_spec 3 0 (by decide) (fun h => by cases h) (by rw [hao]; exact ha)
    generalize x.deviceReset 3 0 = t at h
    refine ⟨h.held, h.cause, hao ▸ h.count, hao ▸ h.restart, fun hw => ?_, fun pg _ => h.en pg, hao ▸ h.knell, fun hk => ?_⟩
    · rw [h.flash, x.interruptFlash_idle (hx.flashWorks.trans hw), hbel]
    · rw [← hao] at hk
      exact hb ▸ h.halted hk
  · refine ⟨{ s with chip := s.chip.powerGood }, rfl, rfl, ?_⟩
    exact s.chip.powerGood_spec
  · refine Completes.powered _ rfl hl ?_
    exact s.chip.tapReset_spec he
  · exact Completes.powered (fun c => c.extest own low cells) rfl hl (s.chip.extest_spec own low cells)

end Sys2Proof.Machine
end

