-- ==== Sys2Proof/Proofs/DpStream.lean ====
section
-- One proof at a time: proofs that wait for the kernel side by side hold more memory than the check allows.
set_option Elab.async false
/-! PROOF. What mapping leaves alone of the DP store, and the DP stream: its lock, its frames, the layers that source it (R63 to R65, R154). -/

namespace Sys2Proof.Machine

/-! ### What the work of mapping leaves alone of the DP store (R63 to R65, R154) -/

/-- The DP stream and its frames. -/
def dpView (x : Chip) : DpSt × MemSt × SMap Word := (x.dp, x.mem, x.inUse)

def dpRegs : List Nat := [F.DPIN_STATUS_LOCK.addr, F.DPIN_SIZE_WIDTH.addr]

/-- Nothing of the DP store differs. -/
abbrev DpKept (c d : Chip) : Prop := Keeps dpView dpRegs [E.DP_LOCK] c d

namespace DpKept
variable {c d : Chip}

theorem setPage {f : Fld} {n v : Nat} (h : DpKept c d) (hf : 0x04A000 ≤ f.addr ∧ plainReg f.addr = true := by decide) : DpKept c (d.set (f.pg n) v) := by
  refine Keeps.set h ?_ (by rw [plainReg_pg]; exact hf.2)
  have ha : (f.pg n).addr = f.addr + 4096 * n := rfl
  have h1 : F.DPIN_STATUS_LOCK.addr < 0x04A000 := by decide
  have h2 : F.DPIN_SIZE_WIDTH.addr < 0x04A000 := by decide
  simp only [dpRegs, List.mem_cons, List.not_mem_nil, or_false]
  omega

theorem layerShow {l st hold : Nat} {b : Bool} (h : DpKept c d) :
    DpKept c (((d.set (F.LAYER_STATUS_STATE.pg l) st).set (F.LAYER_STATUS_HOLD_LEFT.pg l) hold).cond (E.LAYER_FALLBACK l) b) := by
  refine Keeps.cond (setPage (setPage h)) (by decide) ?_ (show 0 < 32 by decide)
  simp only [List.all_cons, List.all_nil, Bool.and_true, Bool.or_eq_true, decide_eq_true_eq]
  left
  show 0x049 ≠ 0x061 + l
  omega

theorem refreshLayers (h : DpKept c d) : DpKept c d.refreshLayers := by
  unfold Chip.refreshLayers
  split
  · exact h
  · exact Keeps.foldl h (fun x l _ => layerShow .refl)

theorem showWaits (h : DpKept c d) : DpKept c d.showWaits := .set (.set h)

theorem noteMixed {x : CanvasSt} (h : DpKept c d) : DpKept c (d.noteMixed x) := by
  unfold Chip.noteMixed
  dsimp only
  split
  · exact .ite (h.of rfl rfl rfl) h
  · exact h

theorem takeTask {e : Nat} (h : DpKept c d) : DpKept c (d.takeTask e) := by
  unfold Chip.takeTask
  split
  · exact h
  · split
    · exact h
    · split
      · exact h
      · dsimp only
        refine setPage (.setMap (.setMap ?_))
        split
        · exact noteMixed h
        · exact h

theorem assignTasks (h : DpKept c d) : DpKept c d.assignTasks := .foldl h (fun _ _ _ => takeTask .refl)

theorem chaseReady (h : DpKept c d) : DpKept c d.chaseReady := assignTasks (showWaits (.setMap h))

theorem rebind {s : Nat} {w : Bool} {p : LayerBind → Bool} (h : DpKept c d) : DpKept c (d.rebind s w p) := by
  unfold Chip.rebind
  dsimp only
  split
  · exact .setMap h
  · refine .foldl (.setMap h) (fun x l _ => ?_)
    split
    · exact setPage .refl
    · exact .refl

theorem chaseWithdraw {s : Nat} (h : DpKept c d) : DpKept c (d.chaseWithdraw s) := by
  obtain ⟨w, e⟩ : ∃ w : Bool, d.chaseWithdraw s = (if w then (d.rebind s true (fun b => !d.frameDone b)).raise E.CHASE_RELEASE
      else d.rebind s true (fun b => !d.frameDone b)).chaseReady := ⟨_, rfl⟩
  rw [e]
  exact chaseReady (.ite (.raise (rebind h)) (rebind h))

theorem sourcesMoved {old : Chip} (h : DpKept c d) : DpKept c (Chip.sourcesMoved old d) := by
  unfold Chip.sourcesMoved
  refine refreshLayers (.foldl h (fun x s _ => ?_))
  split
  · exact rebind .refl
  · exact .refl

theorem dp (h : DpKept c d) : d.dp = c.dp := congrArg Prod.fst h.view

theorem mem (h : DpKept c d) : d.mem = c.mem := congrArg (fun v => v.2.1) h.view

theorem inUse (h : DpKept c d) : d.inUse = c.inUse := congrArg (fun v => v.2.2) h.view

end DpKept

/-- The source of a layer is in use. -/
theorem Chip.layerSrc_congr {c d : Chip} (l : Nat) (hi : d.inUse = c.inUse) (hb : d.build = c.build) :
    d.layerSrc l = c.layerSrc l := by
  unfold Chip.layerSrc Chip.use Chip.rdUse
  rw [hi, hb]

/-- A layer as LAYER.STATUS shows it. -/
def Chip.layerShown (c : Chip) (l st : Nat) : Chip :=
  ((c.set (F.LAYER_STATUS_STATE.pg l) st).set (F.LAYER_STATUS_HOLD_LEFT.pg l) (c.holdLeft l)).cond (E.LAYER_FALLBACK l)
    (decide (st = lyFallback) || decide (st = lyTransparent))

theorem Chip.layerShown_state (c : Chip) (l m st : Nat) (hm : m < 8) :
    (c.layerShown l st).get (F.LAYER_STATUS_STATE.pg m) = if m = l then st % 8 else c.get (F.LAYER_STATUS_STATE.pg m) := by
  have h10 : ∀ q < 8, eventReg (F.LAYER_STATUS_STATE.pg q).addr = false ∧ (F.LAYER_STATUS_STATE.pg q).addr % 4096 ≠ 0x10 := by decide
  unfold Chip.layerShown
  rw [Chip.cond_get_of _ _ _ _ (h10 m hm).1 (h10 m hm).2]
  have ha : ∀ q, (F.LAYER_STATUS_STATE.pg q).addr = 0x06105C + 4096 * q ∧ (F.LAYER_STATUS_HOLD_LEFT.pg q).addr = 0x06105C + 4096 * q := fun _ => ⟨rfl, rfl⟩
  split
  · next h =>
    subst h
    rw [Chip.get_set_field _ _ _ _ (show 0 ≤ 15 by decide) (show 15 < 32 by decide) (show 29 ≤ 31 by decide) (.inr (show 15 < 29 by decide)),
      Chip.get_set _ _ _ (show 29 ≤ 31 by decide) (show 31 < 32 by decide)]
    rfl
  · next h =>
    rw [Chip.get_set_ne _ _ _ _ (by rw [(ha m).1, (ha l).2]; omega), Chip.get_set_ne _ _ _ _ (by rw [(ha m).1, (ha l).1]; omega)]

/-- LAYER.STATUS of every layer that sources the DP store follows it. -/
theorem Chip.refreshLayers_dp (c : Chip) (hb : c.build = .S) (hl : c.on F.DPIN_STATUS_LOCK = false) (l : Nat) (h8 : l < 8) (hs : c.layerSrc l = 16) :
    c.refreshLayers.get (F.LAYER_STATUS_STATE.pg l) = lyTransparent := by
  have e : c.refreshLayers = (List.range 8).foldl (fun c l => c.layerShown l (c.sourceState (c.layerSrc l))) c := by
    unfold Chip.refreshLayers
    rw [hb]
    rfl
  have hst : ∀ x : Chip, DpKept c x → c.layerSrc l = 16 → x.sourceState (x.layerSrc l) = lyTransparent := fun x k h => by
    rw [Chip.layerSrc_congr l k.inUse k.build, h]
    unfold Chip.sourceState
    rw [if_neg (by decide), if_neg (by decide), if_pos rfl, k.on F.DPIN_STATUS_LOCK, hl]
    rfl
  rw [e]
  refine (foldl_range_each (fun _ x => DpKept c x) (fun n x => DpKept c x ∧ (n = l → x.get (F.LAYER_STATUS_STATE.pg l) = lyTransparent)) (fun _ _ => .refl)
    (fun n hn x k => ⟨.layerShow k, fun h => ?_⟩) (fun _ _ _ _ _ x k => .layerShow k) (fun n m _ _ hne x k => ⟨.layerShow k.1, fun h => ?_⟩) l h8).2 rfl
  · subst h
    show (x.layerShown n (x.sourceState (x.layerSrc n))).get _ = _
    rw [x.layerShown_state n n _ hn, if_pos rfl, hst x k hs]
    rfl
  · subst h
    show (x.layerShown m (x.sourceState (x.layerSrc m))).get _ = _
    rw [x.layerShown_state m n _ h8, if_neg hne]
    exact k.2 rfl

/-! ### The DP stream (R63 to R65) -/

theorem dpin_hasPage {c : Chip} (h : c.build = .S) : c.hasPage 0x049 = true := by unfold Chip.hasPage; rw [h]; decide +kernel

/-- LOCK and its present state, and what stays. -/
theorem Chip.setDpLock_spec (c : Chip) (b : Bool) :
    let t := c.setDpLock b
    t.on F.DPIN_STATUS_LOCK = b ∧ t.raw E.DP_LOCK = b ∧ (c.build = .S → c.on F.DPIN_STATUS_LOCK = true → b = false → t.pend E.DP_LOST = true) ∧
      t.get F.DPIN_STATUS_BPC10 = c.get F.DPIN_STATUS_BPC10 ∧ Keeps (fun x => (x.mem, x.inUse)) [F.DPIN_SIZE_WIDTH.addr] [] c t := by
  dsimp only
  unfold Chip.setDpLock
  dsimp only
  obtain ⟨y, hy, hl, hr, hb, hk⟩ : ∃ y, (c.set F.DPIN_STATUS_LOCK (b2n b)).cond E.DP_LOCK b = y ∧ y.on F.DPIN_STATUS_LOCK = b ∧ y.raw E.DP_LOCK = b ∧
      y.get F.DPIN_STATUS_BPC10 = c.get F.DPIN_STATUS_BPC10 ∧ Keeps (fun x => (x.mem, x.inUse)) [F.DPIN_SIZE_WIDTH.addr] [] c y := by
    refine ⟨_, rfl, ?_, Chip.cond_raw_self _ _ _ (by decide), ?_, .cond (.set .refl)⟩
    · rw [Chip.on, Chip.cond_get_of _ _ _ _ (by decide) (by decide), Chip.get_set _ _ _ (by decide) (by decide)]
      cases b <;> rfl
    · rw [Chip.cond_get_of _ _ _ _ (by decide) (by decide), Chip.get_set_field _ _ _ _ (by decide) (by decide) (by decide) (by decide)]
  rw [hy]
  split
  · refine ⟨?_, (y.raise_raw _ _).trans hr, fun hS _ _ => Chip.raise_pend _ _ (dpin_hasPage (hk.build.trans hS)) (by decide), ?_, .raise hk⟩
    · rw [Chip.on, Chip.raise_get_of _ _ _ (by decide)]
      exact hl
    · rw [Chip.raise_get_of _ _ _ (by decide)]
      exact hb
  · next h => exact ⟨hl, hr, fun _ h1 h2 => absurd (by rw [h1, h2]; rfl) h, hb, hk⟩

/-- A stream within the limits, locked. -/
theorem Chip.dpLock_spec (c : Chip) (f : DpFormat) (hr : c.runs 0x049 = true) (hw : c.dpWithin f = true) (h1 : f.width < 65536) (h2 : f.height < 65536) :
    let t := c.dpLock f
    t.on F.DPIN_STATUS_LOCK = true ∧ t.get F.DPIN_SIZE_WIDTH = f.width ∧ t.get F.DPIN_SIZE_HEIGHT = f.height ∧
      t.on F.DPIN_STATUS_BPC10 = decide (f.bpc = 10) ∧ t.raw E.DP_LOCK = true ∧ t.dp = { usable := false, line := 0 } := by
  dsimp only
  unfold Chip.dpLock
  rw [if_pos (by rw [hr, hw]; rfl)]
  dsimp only
  obtain ⟨x, hx, xw, xh, xb⟩ : ∃ x, ((c.set F.DPIN_SIZE_WIDTH f.width).set F.DPIN_SIZE_HEIGHT f.height).set F.DPIN_STATUS_BPC10 (b2n (decide (f.bpc = 10))) = x ∧
      x.get F.DPIN_SIZE_WIDTH = f.width ∧ x.get F.DPIN_SIZE_HEIGHT = f.height ∧ x.get F.DPIN_STATUS_BPC10 = b2n (decide (f.bpc = 10)) := by
    refine ⟨_, rfl, ?_, ?_, ?_⟩
    · rw [Chip.get_set_ne _ _ _ _ (by decide), Chip.get_set_field _ _ _ _ (by decide) (by decide) (by decide) (by decide), Chip.get_set _ _ _ (by decide) (by decide)]
      exact Nat.mod_eq_of_lt h1
    · rw [Chip.get_set_ne _ _ _ _ (by decide), Chip.get_set _ _ _ (by decide) (by decide)]
      exact Nat.mod_eq_of_lt h2
    · rw [Chip.get_set _ _ _ (by decide) (by decide)]
      cases decide (f.bpc = 10) <;> rfl
  rw [hx]
  obtain ⟨t1, t2, -, t4, t5⟩ := x.setDpLock_spec true
  generalize x.setDpLock true = y at *
  refine ⟨t1, (t5.get _ (by decide)).trans xw, (t5.get F.DPIN_SIZE_HEIGHT (by decide)).trans xh, ?_, t2, rfl⟩
  show decide (y.get F.DPIN_STATUS_BPC10 = 1) = _
  rw [t4, xb]
  cases decide (f.bpc = 10) <;> rfl

theorem Chip.dpFormat_spec (c : Chip) (f : DpFormat) (hS : c.build = .S) (hr : c.runs 0x049 = true) (hw : c.dpWithin f = false) :
    let t := c.dpFormat f
    t.on F.DPIN_STATUS_LOCK = false ∧ t.pend E.DP_FORMAT = true ∧ t.mem = c.mem ∧ t.dp.usable = false := by
  dsimp only
  unfold Chip.dpFormat
  rw [if_pos (by rw [hr, hw]; rfl)]
  obtain ⟨t1, -, -, -, t5⟩ := c.setDpLock_spec false
  generalize c.setDpLock false = y at *
  have k : Keeps (fun x => (x.mem, x.inUse)) [F.DPIN_SIZE_WIDTH.addr] [] y (y.raise E.DP_FORMAT) := .raise .refl
  have hl : (y.raise E.DP_FORMAT).on F.DPIN_STATUS_LOCK = false := by
    rw [Chip.on, Chip.raise_get_of _ _ _ (by decide)]
    exact t1
  have hp : (y.raise E.DP_FORMAT).pend E.DP_FORMAT = true := Chip.raise_pend _ _ (dpin_hasPage (t5.build.trans hS)) (by decide)
  have hm := congrArg Prod.fst (t5.trans k).view
  generalize y.raise E.DP_FORMAT = z at *
  exact ⟨hl, hp, hm, rfl⟩

theorem DramOnly.storeBytes (c : Chip) (s : Store) (ofs : Nat) (l : List Byte) : DramOnly c (c.storeBytes s ofs l).2 := by
  unfold Chip.storeBytes
  dsimp only
  split
  · exact DramOnly.refl c
  · exact ⟨rfl, rfl, fun _ _ => rfl, fun _ h => h⟩

/-- The lines of a frame, written to their slot of the store. -/
def Chip.dpLines (c : Chip) (f : DpFrame) : Chip :=
  let slot := c.dpSlot
  f.lines.zipIdx.foldl (fun c l =>
    let ofs := (slot * f.height + c.dp.line + l.2) * c.dpStride
    let r := c.storeBytes c.dpStore ofs (((l.1.map (fun x => leBytes 4 (c.dpPixel f.bpc10 x))).flatten).take (c.dpSpan - ofs))
    r.2.dramWrite dmDp (c.dpBase + ofs) r.1) c

theorem DramOnly.dpLines (c : Chip) (f : DpFrame) : DramOnly c (c.dpLines f) :=
  DramOnly.foldl _ _ (fun x l => (DramOnly.storeBytes x _ _ _).trans (DramOnly.dramWrite _ _ _ _)) c

/-- The block with its DP stream at another place. -/
def Chip.withDp (d : Chip) (p : DpSt) : Chip := { d with dp := p }

theorem Chip.withDp_get (d : Chip) (p : DpSt) (f : Fld) : (d.withDp p).get f = d.get f := rfl

theorem Chip.withDp_dp (d : Chip) (p : DpSt) : (d.withDp p).dp = p := rfl

/-- The watermark of a frame that is not complete. -/
def Chip.dpMarked (d : Chip) (line : Nat) : Chip := d.withDp { d.dp with line := line }

/-- A complete frame, named. -/
def Chip.dpNamed (d : Chip) (slot : Nat) : Chip :=
  ((d.set F.DPIN_STATUS_LAST_FRAME slot).bump F.DPIN_STATUS_FRAME_COUNT).withDp { usable := true, line := 0 }

theorem Chip.dpNamed_spec (d : Chip) (slot : Nat) (h : slot < 3) :
    (d.dpNamed slot).get F.DPIN_STATUS_LAST_FRAME = slot ∧ (d.dpNamed slot).dp = { usable := true, line := 0 } := by
  refine ⟨?_, Chip.withDp_dp _ _⟩
  rw [Chip.dpNamed, Chip.withDp_get, Chip.bump, Chip.get_set_field _ _ _ _ (by decide) (by decide) (by decide) (by decide), Chip.get_set _ _ _ (by decide) (by decide)]
  exact Nat.mod_eq_of_lt (lt_trans h (show 3 < 2 ^ 2 by decide))

theorem Chip.dpFrame_eq (c : Chip) (f : DpFrame) : c.dpFrame f =
    if c.runs 0x049 && c.on F.DPIN_STATUS_LOCK && f.width = c.get F.DPIN_SIZE_WIDTH && f.height = c.get F.DPIN_SIZE_HEIGHT &&
      (b2n f.bpc10 = c.get F.DPIN_STATUS_BPC10) && c.dp.line + f.lines.length ≤ f.height && f.lines.all (fun l => decide (l.length = f.width)) then
      if c.dp.line + f.lines.length < f.height then (c.dpLines f).dpMarked (c.dp.line + f.lines.length) else (c.dpLines f).dpNamed c.dpSlot
    else c := rfl

/-- The lines of a frame written to the store, and the watermark or the frame that is complete. -/
theorem Chip.dpFrame_spec (c : Chip) (f : DpFrame) (hr : c.runs 0x049 = true) (hl : c.on F.DPIN_STATUS_LOCK = true) (h1 : f.width = c.get F.DPIN_SIZE_WIDTH)
    (h2 : f.height = c.get F.DPIN_SIZE_HEIGHT) (h3 : f.bpc10 = c.on F.DPIN_STATUS_BPC10) (h4 : c.dp.line + f.lines.length ≤ f.height)
    (h5 : ∀ l ∈ f.lines, l.length = f.width) :
    let t := c.dpFrame f
    if c.dp.line + f.lines.length < f.height then
      t.dp = { c.dp with line := c.dp.line + f.lines.length } ∧ t.get F.DPIN_STATUS_LAST_FRAME = c.get F.DPIN_STATUS_LAST_FRAME
    else t.get F.DPIN_STATUS_LAST_FRAME = (c.get F.DPIN_STATUS_LAST_FRAME + 1) % 3 ∧ t.dp = { usable := true, line := 0 } := by
  dsimp only
  have hb : b2n f.bpc10 = c.get F.DPIN_STATUS_BPC10 := by
    have hlt : c.get F.DPIN_STATUS_BPC10 < 2 := c.get_lt F.DPIN_STATUS_BPC10
    rw [h3, Chip.on]
    generalize c.get F.DPIN_STATUS_BPC10 = v at *
    interval_cases v <;> rfl
  have hc : (c.runs 0x049 && c.on F.DPIN_STATUS_LOCK && f.width = c.get F.DPIN_SIZE_WIDTH && f.height = c.get F.DPIN_SIZE_HEIGHT &&
      (b2n f.bpc10 = c.get F.DPIN_STATUS_BPC10) && c.dp.line + f.lines.length ≤ f.height && f.lines.all (fun l => decide (l.length = f.width))) = true := by
    simp only [Bool.and_eq_true, decide_eq_true_eq, List.all_eq_true]
    exact ⟨⟨⟨⟨⟨⟨hr, hl⟩, h1⟩, h2⟩, hb⟩, h4⟩, h5⟩
  have k := DramOnly.dpLines c f
  have hlast : (c.dpLines f).get F.DPIN_STATUS_LAST_FRAME = c.get F.DPIN_STATUS_LAST_FRAME := k.get _ (by decide)
  have hdp := k.dp
  rw [Chip.dpFrame_eq, if_pos hc]
  generalize c.dpLines f = d at *
  by_cases h : c.dp.line + f.lines.length < f.height
  · rw [if_pos h, if_pos h, ← hdp]
    exact ⟨rfl, hlast⟩
  · rw [if_neg h, if_neg h]
    exact d.dpNamed_spec _ (Nat.mod_lt _ (by decide))

theorem Completes.liveS {i : Instr} {s : State} {P : Chip → Prop} (f : Chip → Chip) (he : exec i s = Machine.live s (fun c => c.inS f)) (h : Runs s)
    (hS : s.chip.build = .S) (hp : P (f s.chip)) : Completes i s P := by
  refine Completes.live _ he h ?_
  have e : s.chip.inS f = f s.chip := if_pos (decide_eq_true hS)
  rw [e]
  exact hp

/-- Settles O14: LOCK and the watermark are the stream's own, and mapping, which follows them, changes none of them. -/
theorem dpStream : Obligations.DpStream := by
  intro s hs hS
  refine ⟨fun f hr hw h1 h2 => ?_, fun f hr hw => ?_, fun hl => ?_, fun f hr hl h1 h2 h3 h4 h5 => ?_⟩
  · refine Completes.liveS _ rfl hs hS ?_
    obtain ⟨t1, t2, t3, t4, t5, t6⟩ := s.chip.dpLock_spec f hr hw h1 h2
    have k : DpKept (s.chip.dpLock f) (s.chip.dpLock f).refreshLayers := DpKept.refreshLayers .refl
    exact ⟨(k.on _).trans t1, (k.get _).trans t2, (k.get F.DPIN_SIZE_HEIGHT).trans t3, (k.on F.DPIN_STATUS_BPC10).trans t4,
      (k.raw _ (by decide)).trans t5, k.dp.trans t6⟩
  · refine Completes.liveS _ rfl hs hS ?_
    obtain ⟨t1, t2, t3, t4⟩ := s.chip.dpFormat_spec f hS hr hw
    generalize s.chip.dpFormat f = y at *
    have k : DpKept y (y.when (!y.on F.DPIN_STATUS_LOCK) (fun c => c.chaseWithdraw 16)).refreshLayers :=
      DpKept.refreshLayers (.ite (DpKept.chaseWithdraw .refl) .refl)
    exact ⟨(k.on _).trans t1, k.pend _ t2, k.mem.trans t3, by rw [k.dp]; exact t4⟩
  · refine Completes.liveS _ rfl hs hS ?_
    unfold Chip.dpLost
    obtain ⟨t1, t2, t3, -, t5⟩ := s.chip.setDpLock_spec false
    have t3 := t3 hS hl rfl
    generalize s.chip.setDpLock false = y at *
    obtain ⟨z, hz, z1, z2, z3, zb, zu⟩ : ∃ z, z = y.dpClear ∧ z.on F.DPIN_STATUS_LOCK = false ∧ z.raw E.DP_LOCK = false ∧ z.pend E.DP_LOST = true ∧
        z.build = s.chip.build ∧ z.inUse = s.chip.inUse := ⟨_, rfl, t1, t2, t3, t5.build, congrArg Prod.snd t5.view⟩
    rw [← hz]
    have kw : DpKept z (z.chaseWithdraw 16) := DpKept.chaseWithdraw .refl
    generalize z.chaseWithdraw 16 = w at kw
    have k : DpKept z w.refreshLayers := DpKept.refreshLayers kw
    refine ⟨(k.on _).trans z1, k.pend _ z3, (k.raw _ (by decide)).trans z2, fun l hl8 hsrc => ?_⟩
    exact w.refreshLayers_dp ((kw.build.trans zb).trans hS) ((kw.on _).trans z1) l hl8
      ((Chip.layerSrc_congr l (kw.inUse.trans zu) (kw.build.trans zb)).trans hsrc)
  · refine Completes.liveS _ rfl hs hS ?_
    have h := s.chip.dpFrame_spec f hr hl h1 h2 h3 h4 h5
    dsimp only at h
    generalize s.chip.dpFrame f = y at *
    have k : DpKept y (Chip.sourcesMoved s.chip y) := DpKept.sourcesMoved .refl
    rw [k.dp, k.get F.DPIN_STATUS_LAST_FRAME]
    exact h

end Sys2Proof.Machine
end

