-- ==== Sys2Proof/Proofs/SrpBehindRelay.lean ====
section
-- One proof at a time: proofs that wait for the kernel side by side hold more memory than the check allows.
set_option Elab.async false
/-! PROOF. A request of SRP that arrives while a relay read of SRP is out (R70 to R72). -/

namespace Sys2Proof.Machine

/-! ### A request of SRP behind a relay read of SRP (R70 to R72) -/

/-- A peer that asks, and its datagram: one word written to SCRATCH. -/
def srpPeer : NetPeer := { mac := 0x020000000001, ip := 0x0A000002, port := 5000, vlan := none, sub := 0 }

def srpScratch : List Byte := [0x53, 0x52, 1, 2, 0, 0, 0, 7, 0, 0, 0, 0x60, 0, 1, 0, 0, 0x12, 0x34, 0x56, 0x78].map (BitVec.ofNat 8)

/-- SRP is served on path B. -/
def srpServed : Chip := (((Chip.init .S).set (F.EN.pg 0x04A) 1).set F.SRP_IPV4_ADDR 0x0A000001).set F.SRP_PORT_PATH_B 1

/-- A relay read of SRP is out, and no request of SRP is under way. -/
def relayReadOut : State :=
  { chip := { srpServed with host := { srpServed.host with
      relayOut := some { target := 0, addr := 0, data := 0, write := false, lane := 0, size := 4, origin := .ethMgmt, tag := 0, srp := true } } }
    pending := [] }

theorem relayReadOut_calm : Runs relayReadOut ∧ relayReadOut.chip.build = .S ∧ relayReadOut.chip.srpOn 1 = true ∧ relayReadOut.chip.on F.SRP_PORT_VLAN_EN = false ∧
    relayReadOut.chip.host.srpJob = none ∧ relayReadOut.chip.host.srpQ = [] ∧ relayReadOut.chip.host.sessions = [] ∧ Calm relayReadOut.chip ∧
    srpParse 1 srpPeer srpScratch =
      some { path := 1, peer := srpPeer, write := true, seq := 7, addr := F.DEVICE_SCRATCH_VALUE.addr, count := 1, words := [0x12345678] } := by decide +kernel

/-- The request is taken up and waits: it is not answered. -/
theorem relayReadOut_waits : ∀ t, exec (.srpRequest 1 srpPeer srpScratch) relayReadOut = .next t → t.chip.host.srpJob.isSome = true := by
  have h : (match exec (.srpRequest 1 srpPeer srpScratch) relayReadOut with
    | .next t => t.chip.host.srpJob.isSome
    | _ => true) = true := by decide +kernel
  intro t e
  rw [e] at h
  exact h

/-- Refutes O16: a write of one word that arrives while a relay read of SRP is out waits for that read (R72), so its command leaves it under way and
not answered; the statement asks that no request is under way, and not that no relay read of SRP is. -/
theorem not_ethernetRegisterProtocol : ¬ Obligations.EthernetRegisterProtocol := by
  intro h
  obtain ⟨hr, hb, hon, hv, hj, hq, hs, hc, hp⟩ := relayReadOut_calm
  obtain ⟨-, h, -⟩ := h relayReadOut 1 srpPeer srpScratch hr hb (by decide)
  obtain ⟨-, h⟩ := h hon (fun e => by rw [hv] at e; cases e)
  obtain ⟨-, h⟩ := h _ hp hj hq
  obtain ⟨h, -⟩ := h (by rw [hs]; rfl) hc rfl rfl
  obtain ⟨t, he, -, -, -, -, ht, -⟩ := h 0x12345678 rfl rfl
  have h1 := relayReadOut_waits t he
  rw [ht] at h1
  change relayReadOut.chip.host.srpJob.isSome = true at h1
  rw [hj] at h1
  cases h1

end Sys2Proof.Machine
end

