-- ==== Sys2Proof/Proofs/RelayWindow.lean ====
section
-- One proof at a time: proofs that wait for the kernel side by side hold more memory than the check allows.
set_option Elab.async false
/-! PROOF. Accesses of the relay window: refused, queued, sent, answered and timed out (R72 to R74, R350). -/

namespace Sys2Proof.Machine

/-! ### Accesses of the relay window (R72 to R74) -/

/-- What the relay goes by: the accesses of the paths, the Belfry and the ports. -/
def relayView (x : Chip) : HostSt × BelfrySt × SMap Word := (x.host, x.belfry, x.inUse)

def relayRegs : List Nat := [F.DEBUG_CTRL_HALTED.addr, F.DEVICE_STRAPS_STACK_POS.addr]

/-- Nothing of the relay differs. -/
abbrev RelayKept (c d : Chip) : Prop := Keeps relayView relayRegs [] c d

namespace RelayKept
variable {c d : Chip}

theorem host (h : RelayKept c d) : d.still.host = c.still.host := congrArg Prod.fst h.view

theorem relayQ (h : RelayKept c d) : d.host.relayQ = c.host.relayQ := (show d.still.host.relayQ = _ by rw [h.host]; rfl)

theorem relayOut (h : RelayKept c d) : d.host.relayOut = c.host.relayOut := (show d.still.host.relayOut = _ by rw [h.host]; rfl)

theorem relayTag (h : RelayKept c d) : d.host.relayTag = c.host.relayTag := (show d.still.host.relayTag = _ by rw [h.host]; rfl)

theorem held (h : RelayKept c d) : d.host.held = c.host.held := (show d.still.host.held = _ by rw [h.host]; rfl)

theorem srpQ (h : RelayKept c d) : d.host.srpQ = c.host.srpQ := (show d.still.host.srpQ = _ by rw [h.host]; rfl)

theorem srpJob (h : RelayKept c d) : d.host.srpJob = c.host.srpJob := (show d.still.host.srpJob = _ by rw [h.host]; rfl)

theorem belfryUp (h : RelayKept c d) : d.belfryUp = c.belfryUp := by
  have hb : d.belfry = c.belfry := congrArg (fun v => v.2.1) h.view
  rw [Chip.belfryUp, Chip.belfryUp, hb, h.on _]

theorem unreachable (h : RelayKept c d) (hS : c.build = .S) (t : Nat) : d.unreachable t = c.unreachable t := by
  have hu : d.inUse = c.inUse := congrArg (fun v => v.2.2) h.view
  have hm : ∀ p, d.portMode p = c.portMode p := fun p => by
    unfold Chip.portMode Chip.rdUse
    rw [h.build, hS, hu]
  unfold Chip.unreachable Chip.stackPos Chip.tilePort
  rw [h.get F.DEVICE_STRAPS_STACK_POS]
  simp only [hm]

theorem sendChain {p cell : Nat} (h : RelayKept c d) : RelayKept c (d.sendChain p cell) := by
  unfold Chip.sendChain Chip.withSeq
  dsimp only
  exact .ite (.setPort (.setPort (.setPort h))) (.setPort (.setPort h))

end RelayKept

theorem relayPage_hasPage {c : Chip} (h : c.build = .S) : c.hasPage 0x091 = true := by unfold Chip.hasPage; rw [h]; decide +kernel

/-- The result of an access: LAST_RESULT, FAIL_COUNT and its event. -/
theorem Chip.relayResult_spec (c : Chip) (r : Nat) (hr : r < 8) :
    let t := c.relayResult r
    RelayKept c t ∧ OutUp c t ∧ t.get F.RELAY_STATUS_LAST_RESULT = r ∧
      (r ≠ 0 → t.get F.RELAY_FAIL_COUNT_COUNT = min 0xFFFFFFFF (c.get F.RELAY_FAIL_COUNT_COUNT + 1) ∧
        (c.build = .S → t.pend (if r = 1 then E.RELAY_TIMEOUT else E.RELAY_ERROR) = true)) := by
  dsimp only
  have hg : (c.set F.RELAY_STATUS_LAST_RESULT r).get F.RELAY_STATUS_LAST_RESULT = r := by
    rw [Chip.get_set _ _ _ (by decide) (by decide)]
    exact Nat.mod_eq_of_lt (show r < 2 ^ 3 from hr)
  have hf : (c.set F.RELAY_STATUS_LAST_RESULT r).get F.RELAY_FAIL_COUNT_COUNT = c.get F.RELAY_FAIL_COUNT_COUNT := Chip.get_set_ne _ _ _ _ (by decide)
  have k : RelayKept c (c.set F.RELAY_STATUS_LAST_RESULT r) := .set .refl
  have ho : OutUp c (c.set F.RELAY_STATUS_LAST_RESULT r) := .of_eq rfl
  unfold Chip.relayResult
  dsimp only
  generalize c.set F.RELAY_STATUS_LAST_RESULT r = x at *
  split
  · next h => exact ⟨k, ho, hg, fun h' => absurd h h'⟩
  next h =>
  have hn : (x.bumpSat F.RELAY_FAIL_COUNT_COUNT).get F.RELAY_STATUS_LAST_RESULT = r := by
    unfold Chip.bumpSat
    rw [Chip.get_set_ne _ _ _ _ (by decide), hg]
  have hc : (x.bumpSat F.RELAY_FAIL_COUNT_COUNT).get F.RELAY_FAIL_COUNT_COUNT = min 0xFFFFFFFF (c.get F.RELAY_FAIL_COUNT_COUNT + 1) := by
    rw [Chip.get_bumpSat _ _ _ (by decide) (by decide), hf]
    rfl
  have kb : RelayKept c (x.bumpSat F.RELAY_FAIL_COUNT_COUNT) := .bumpSat k
  have hob : OutUp c (x.bumpSat F.RELAY_FAIL_COUNT_COUNT) := ho.trans (.of_eq rfl)
  generalize x.bumpSat F.RELAY_FAIL_COUNT_COUNT = y at *
  refine ⟨.raise kb, hob.trans (OutUp.raise _ _), ?_, fun _ => ⟨?_, fun hS => ?_⟩⟩
  · rw [Chip.raise_get_of _ _ _ (by decide), hn]
  · rw [Chip.raise_get_of _ _ _ (by decide), hc]
  · have hp := relayPage_hasPage (kb.build.trans hS)
    split
    · exact Chip.raise_pend _ _ hp (by decide)
    · exact Chip.raise_pend _ _ hp (by decide)

/-- Data of a read of the relay window reaches its path. -/
theorem Chip.deliver_relay (c : Chip) (o : Origin) (a v : Nat) (hS : c.build = .S) (ha : 0x400000 ≤ a) :
    c.deliver o a v false = c.emit (.readData o a v) := by
  have h1 : ¬ a < 0x400000 := by omega
  simp [Chip.deliver, h1, hS]

theorem Chip.emit_relay (c : Chip) (o : Origin) (a v : Nat) :
    RelayKept c (c.emit (.readData o a v)) ∧ OutUp c (c.emit (.readData o a v)) ∧ .readData o a v ∈ (c.emit (.readData o a v)).out := by
  refine ⟨.emit .refl, .emit _ _, ?_⟩
  have e : (c.rst.extest && (Output.readData o a v).scanned) = false := Bool.and_false _
  have h : (c.emit (.readData o a v)).out = c.out ++ [.readData o a v] := by rw [Chip.emit, e, if_neg Bool.false_ne_true]
  rw [h]
  simp

/-- An aligned read of the relay window, where no path waits. -/
theorem Chip.hostRead_relay (c : Chip) (o : Origin) (a size : Nat) (hS : c.build = .S) (hp : c.pathsOpen = true) (ha : a < 0x400000)
    (hs : size = 1 ∨ size = 2 ∨ size = 4) (hm : a % size = 0) :
    c.hostRead o (0x400000 + a % 0x400000) size =
      match (c.relayRead o (c.get F.RELAY_TARGET_TILE_ID) (0x400000 + a / 4 * 4) (a % 4) size false).1 with
      | none => (c.relayRead o (c.get F.RELAY_TARGET_TILE_ID) (0x400000 + a / 4 * 4) (a % 4) size false).2
      | some w => (c.relayRead o (c.get F.RELAY_TARGET_TILE_ID) (0x400000 + a / 4 * 4) (a % 4) size false).2.deliver o (0x400000 + a)
          (subWord w.toNat (a % 4) size) false := by
  have h1 : a % 0x400000 = a := Nat.mod_eq_of_lt ha
  have h24 : (0x400000 + a) % 2 ^ 24 = 0x400000 + a := Nat.mod_eq_of_lt (by omega)
  have hq : (0x400000 + a) / 4 * 4 = 0x400000 + a / 4 * 4 := by omega
  have hl : (0x400000 + a) % 4 = a % 4 := by omega
  have h24' : (0x400000 + a / 4 * 4) % 2 ^ 24 = 0x400000 + a / 4 * 4 := Nat.mod_eq_of_lt (by omega)
  have hin : (HeldAcc.read o (0x400000 + a) size 0).inSram = false := by
    simp only [HeldAcc.inSram, h24, decide_eq_false_iff_not]
    omega
  have hsz : (0x400000 + a) % size = 0 := by rcases hs with rfl | rfl | rfl <;> omega
  have h8 : size ≠ 8 := by omega
  have hn1 : ¬ 0x800000 ≤ 0x400000 + a := by omega
  have hn2 : ¬ 0x800000 ≤ 0x400000 + a / 4 * 4 := by omega
  have hn3 : ¬ (0x400000 + a / 4 * 4) % 4 ≠ 0 := by omega
  have hn4 : 0x400000 ≤ 0x400000 + a / 4 * 4 := by omega
  rw [h1, Chip.hostRead, c.mustWait_false hp _ (.inl hin), if_neg Bool.false_ne_true, Chip.readNow]
  dsimp only
  rw [h24, if_neg hn1, if_neg (fun h => h hsz), if_neg h8, Chip.readPart, hq, hl, Chip.read32]
  dsimp only
  rw [h24', if_neg hn2, if_neg hn3, if_pos hn4, hS]
  dsimp only
  cases (c.relayRead o (c.get F.RELAY_TARGET_TILE_ID) (0x400000 + a / 4 * 4) (a % 4) size false).1 <;> rfl

/-- A write of the relay window, where no path waits: recorded, and given to the relay. -/
theorem Chip.write32_relay (c : Chip) (o : Origin) (a : Nat) (w : Word) (hS : c.build = .S) (hp : c.pathsOpen = true) (ha : a < 0x400000)
    (h4 : a % 4 = 0) :
    c.write32 o (0x400000 + a % 0x400000) w = (c.logChange o (0x400000 + a) w).relayWrite o (c.get F.RELAY_TARGET_TILE_ID) (0x400000 + a) w := by
  have h1 : a % 0x400000 = a := Nat.mod_eq_of_lt ha
  have h24 : (0x400000 + a) % 2 ^ 24 = 0x400000 + a := Nat.mod_eq_of_lt (by omega)
  have hin : ∀ d : BitVec 64, (HeldAcc.write { origin := o, addr := 0x400000 + a, size := 4, data := d } 0).inSram = false := fun d => by
    simp only [HeldAcc.inSram, h24, decide_eq_false_iff_not]
    omega
  have hn1 : ¬ 0x800000 ≤ 0x400000 + a := by omega
  have hn2 : ¬ 0x400000 + a < 0x400000 := by omega
  have hi : c.ignoredReason (0x400000 + a) 4 = none := by
    have hm : ¬ ((0x400000 + a) % 4 ≠ 0) := by omega
    unfold Chip.ignoredReason
    rw [if_neg hn2, hS]
    simp
    omega
  have hw : (w.setWidth 64).truncate 32 = w := by
    apply BitVec.eq_of_toNat_eq
    have := w.isLt
    simp only [BitVec.truncate_eq_setWidth, BitVec.toNat_setWidth]
    omega
  unfold Chip.write32 Chip.busWrite
  rw [h1, busWords_small _ (show (4 : Nat) ≠ 8 by decide), List.foldl_cons, List.foldl_nil, c.mustWait_false hp _ (.inl (hin _)),
    if_neg Bool.false_ne_true, Chip.busNow, Chip.busAt]
  dsimp only
  rw [h24, if_neg hn1, hi]
  dsimp only
  rw [if_neg hn2, hS, hw]

/-- The queue goes on waiting while an access is out or the Belfry does not serve. -/
theorem Chip.relayNext_waits (c : Chip) (h : c.host.relayOut.isSome = true ∨ c.belfryUp = false) : c.relayNext = c := by
  have hc : (c.host.relayOut.isSome || !c.belfryUp) = true := by rcases h with h | h <;> simp [h]
  unfold Chip.relayNext
  cases c.host.relayQ.length with
  | zero => rfl
  | succ n =>
    unfold Chip.relayGo
    rw [if_pos hc]

/-- An access that leaves: a broadcast write completes, any other waits for its response. -/
def Chip.relayLeaves (x : Chip) (r : RelayReq) : Chip :=
  if r.target = relayAll then (x.chains.foldl (fun c p => c.sendChain p (c.relayCell r)) x).relayResult 0
  else
    let y := x.sendChain (x.seqPort (tilePortOf r.target)) (x.relayCell r)
    { y with host := { y.host with relayOut := some r } }

theorem Chip.relayLeaves_spec (x : Chip) (r : RelayReq) :
    let t := x.relayLeaves r
    t.host.relayQ = x.host.relayQ ∧
      (if r.target = relayAll then t.host.relayOut = x.host.relayOut ∧ t.get F.RELAY_STATUS_LAST_RESULT = 0 else t.host.relayOut = some r) := by
  dsimp only
  unfold Chip.relayLeaves
  split
  · have k : RelayKept x (x.chains.foldl (fun c p => c.sendChain p (c.relayCell r)) x) := Keeps.foldl .refl (fun _ _ _ => RelayKept.sendChain .refl)
    generalize x.chains.foldl (fun c p => c.sendChain p (c.relayCell r)) x = y at k
    obtain ⟨h1, -, h2, -⟩ := y.relayResult_spec 0 (by decide)
    have h : RelayKept x (y.relayResult 0) := k.trans h1
    exact ⟨h.relayQ, h.relayOut, h2⟩
  · have k : RelayKept x (x.sendChain (x.seqPort (tilePortOf r.target)) (x.relayCell r)) := RelayKept.sendChain .refl
    exact ⟨k.relayQ, rfl⟩

/-- The queue after its front is taken, the next tag used up. -/
def Chip.relayTaken (c : Chip) (q : List RelayReq) : Chip :=
  { c with host := { c.host with relayQ := q, relayTag := (c.host.relayTag + 1) % 65536 } }

theorem Chip.relayTaken_host (c : Chip) (q : List RelayReq) : (c.relayTaken q).host.relayQ = q ∧ (c.relayTaken q).host.relayOut = c.host.relayOut := ⟨rfl, rfl⟩

/-- The only access that waits leaves with the next tag. -/
theorem Chip.relayNext_goes (c : Chip) (r : RelayReq) (ho : c.host.relayOut = none) (hq : c.host.relayQ = [r]) (hup : c.belfryUp = true) :
    let t := c.relayNext
    t.host.relayQ = [] ∧
      (if r.target = relayAll then t.host.relayOut = none ∧ t.get F.RELAY_STATUS_LAST_RESULT = 0 else t.host.relayOut = some { r with tag := c.host.relayTag }) := by
  have e : c.relayNext = (c.relayTaken []).relayLeaves { r with tag := c.host.relayTag } := by
    have hc : ¬ (c.host.relayOut.isSome || !c.belfryUp) = true := by rw [ho, hup]; decide
    unfold Chip.relayNext
    rw [hq, List.length_singleton]
    unfold Chip.relayGo
    rw [if_neg hc, hq]
    dsimp only
    unfold Chip.relayLeaves
    rfl
  dsimp only
  rw [e]
  obtain ⟨h1, h2⟩ := c.relayTaken_host []
  have h := (c.relayTaken []).relayLeaves_spec { r with tag := c.host.relayTag }
  dsimp only at h
  rw [h1, h2, ho] at h
  exact h

/-- An access that ends, with nothing left that could go on. -/
theorem Chip.relayEnd_spec (c : Chip) (r : RelayReq) (result data : Nat) (hS : c.build = .S) (hr : result < 8) (hheld : c.host.held = [])
    (hq : c.host.relayQ = [] ∨ c.belfryUp = false) (hsrp : r.srp = false) (hj : c.host.srpJob = none) (hsq : c.host.srpQ = []) :
    let t := c.relayEnd r result data
    t.host.relayOut = none ∧ t.host.relayQ = c.host.relayQ ∧ t.get F.RELAY_STATUS_LAST_RESULT = result ∧
      (result ≠ 0 → t.get F.RELAY_FAIL_COUNT_COUNT = min 0xFFFFFFFF (c.get F.RELAY_FAIL_COUNT_COUNT + 1) ∧
        t.pend (if result = 1 then E.RELAY_TIMEOUT else E.RELAY_ERROR) = true) ∧
      (r.write = false → .readData r.origin (0x400000 + r.addr + r.lane) (subWord data r.lane r.size) ∈ t.out) := by
  dsimp only
  obtain ⟨x, hx, xo, xq, xh, xj, xs, xb, xup, xf⟩ : ∃ x : Chip, x = { c with host := { c.host with relayOut := none } } ∧ x.host.relayOut = none ∧
      x.host.relayQ = c.host.relayQ ∧ x.host.held = [] ∧ x.host.srpJob = none ∧ x.host.srpQ = [] ∧ x.build = .S ∧ x.belfryUp = c.belfryUp ∧
      x.get F.RELAY_FAIL_COUNT_COUNT = c.get F.RELAY_FAIL_COUNT_COUNT := ⟨_, rfl, rfl, rfl, hheld, hj, hsq, hS, rfl, rfl⟩
  obtain ⟨ky, -, yl, yf⟩ := x.relayResult_spec result hr
  obtain ⟨z, hz, kz, zl, zf, zp, zo⟩ : ∃ z, (if r.write then x.relayResult result
        else (x.relayResult result).deliver r.origin (0x400000 + r.addr + r.lane) (subWord data r.lane r.size) false) = z ∧
      RelayKept x z ∧ z.get F.RELAY_STATUS_LAST_RESULT = result ∧ z.get F.RELAY_FAIL_COUNT_COUNT = (x.relayResult result).get F.RELAY_FAIL_COUNT_COUNT ∧
      (∀ e, (x.relayResult result).pend e = true → z.pend e = true) ∧
      (r.write = false → .readData r.origin (0x400000 + r.addr + r.lane) (subWord data r.lane r.size) ∈ z.out) := by
    generalize x.relayResult result = y at *
    refine ⟨_, rfl, ?_⟩
    cases r.write with
    | true => exact ⟨ky, yl, rfl, fun _ h => h, fun h => by cases h⟩
    | false =>
      rw [if_neg Bool.false_ne_true, y.deliver_relay _ _ _ (ky.build.trans xb) (by omega)]
      obtain ⟨k1, -, k3⟩ := y.emit_relay r.origin (0x400000 + r.addr + r.lane) (subWord data r.lane r.size)
      have k : Keeps relayView [F.RELAY_STATUS_LAST_RESULT.addr, F.RELAY_FAIL_COUNT_COUNT.addr] [] y
          (y.emit (.readData r.origin (0x400000 + r.addr + r.lane) (subWord data r.lane r.size))) := .emit .refl
      exact ⟨ky.trans k1, (k.get _).trans yl, k.get _, k.pend, fun _ => k3⟩
  have e : c.relayEnd r result data = z.pathsGo := by
    unfold Chip.relayEnd
    rw [← hx, hsrp, hz.symm]
    rfl
  have hgo : z.pathsGo = z := by
    have e1 : z.relayNext = z := by
      rcases hq with hq | hq
      · unfold Chip.relayNext
        rw [kz.relayQ, xq, hq]
        rfl
      · exact z.relayNext_waits (.inr (by rw [kz.belfryUp, xup, hq]))
    have e2 : z.heldNext = z := by rw [Chip.heldNext, kz.held, xh]; rfl
    have e3 : z.srpRun = z := by
      rw [Chip.srpRun, kz.srpQ, xs]
      simp [Chip.srpQueue, Chip.srpWords, kz.srpQ, kz.srpJob, xs, xj]
    rw [Chip.pathsGo, e1, e2, e3]
  rw [e, hgo]
  refine ⟨kz.relayOut.trans xo, kz.relayQ.trans xq, zl, fun h => ?_, zo⟩
  obtain ⟨f1, f2⟩ := yf h
  exact ⟨by rw [zf, f1, xf], zp _ (f2 xb)⟩

/-- All ones, of an aligned part of a word. -/
theorem subWord_ones (a size : Nat) (hs : size = 1 ∨ size = 2 ∨ size = 4) (hm : a % size = 0) :
    subWord (0xFFFFFFFF : Word).toNat (a % 4) size = 2 ^ (8 * size) - 1 := by
  have h4 : a % 4 < 4 := Nat.mod_lt _ (by decide)
  have hl : a % 4 % size = 0 := by rcases hs with rfl | rfl | rfl <;> omega
  have key : ∀ l < 4, ∀ n ∈ [1, 2, 4], l % n = 0 → subWord (0xFFFFFFFF : Word).toNat l n = 2 ^ (8 * n) - 1 := by decide
  exact key _ h4 _ (by rcases hs with rfl | rfl | rfl <;> decide) hl

/-- A read that is not served is answered with all ones at once. -/
theorem Chip.relayRefused_spec (c : Chip) (o : Origin) (a v r : Nat) (hS : c.build = .S) (hr : r < 8) (h2 : 2 ≤ r) (ha : 0x400000 ≤ a) :
    let t := (c.relayResult r).deliver o a v false
    .readData o a v ∈ t.out ∧ t.pend E.RELAY_ERROR = true ∧ t.host.relayQ = c.host.relayQ ∧ t.get F.RELAY_STATUS_LAST_RESULT = r := by
  dsimp only
  obtain ⟨k, -, h1, h3⟩ := c.relayResult_spec r hr
  have h4 := (h3 (by omega)).2 hS
  rw [if_neg (by omega)] at h4
  generalize c.relayResult r = x at *
  rw [x.deliver_relay _ _ _ (k.build.trans hS) ha]
  obtain ⟨k1, -, k3⟩ := x.emit_relay o a v
  have kg : Keeps relayView [F.RELAY_STATUS_LAST_RESULT.addr] [] x (x.emit (.readData o a v)) := .emit .refl
  have kk : RelayKept c (x.emit (.readData o a v)) := k.trans k1
  exact ⟨k3, k1.pend _ h4, kk.relayQ, (kg.get _).trans h1⟩

/-- An access joins the queue. -/
def Chip.relayQueued (c : Chip) (r : RelayReq) : Chip := { c with host := { c.host with relayQ := c.host.relayQ ++ [r] } }

theorem Chip.relayQueued_host (c : Chip) (r : RelayReq) : (c.relayQueued r).host.relayQ = c.host.relayQ ++ [r] := rfl

theorem relayAddr_mod (a : Nat) (ha : a < 0x400000) : (0x400000 + a / 4 * 4) % 2 ^ 22 = a / 4 * 4 ∧ (0x400000 + a) % 2 ^ 22 = a := by omega

/-- Settles O17: an access that is refused ends at once; any other joins the queue, whose front leaves where no access is out and the Belfry serves;
an access that ends is out no more, and nothing else is left to go on. -/
theorem relayWindow : Obligations.RelayWindow := by
  intro s hs hS hp
  have hheld : s.chip.host.held = [] := by
    have h := hp
    unfold Chip.pathsOpen at h
    simp only [Bool.and_eq_true, List.isEmpty_iff] at h
    exact h.1.1
  refine ⟨fun o a size ha hsz hm => ?_, fun o a w ha h4 => ?_, fun r cell ho hq hsrp hj hsq => ⟨?_, fun hup h1 h2 h3 h5 h6 => ?_⟩,
    fun r q ho hq hup hsrp hj hsq => ?_⟩
  · refine Completes.serveFor o _ rfl hs ?_
    dsimp only
    rw [s.chip.hostRead_relay o a size hS hp ha hsz hm]
    generalize s.chip.get F.RELAY_TARGET_TILE_ID = id
    have hones := subWord_ones a size hsz hm
    unfold Chip.relayRead
    by_cases hall : id = 0x1FFF
    · subst hall
      rw [if_pos (.inl rfl), if_pos (show (0x1FFF : Nat) = relayAll from rfl), if_pos rfl]
      dsimp only
      rw [hones]
      exact s.chip.relayRefused_spec o _ _ 3 hS (by decide) (by decide) (by omega)
    · rw [if_neg hall, if_neg (show ¬ id = relayAll from hall)]
      by_cases hu : s.chip.unreachable id = true
      · rw [if_pos (.inr hu), if_pos hu]
        dsimp only
        rw [hones]
        exact s.chip.relayRefused_spec o _ _ 2 hS (by decide) (by decide) (by omega)
      · rw [if_neg (fun h => h.elim hall hu), if_neg hu]
        dsimp only
        rw [(relayAddr_mod a ha).1]
        refine ⟨fun h1 h2 h3 => ?_, fun h => ?_⟩
        · obtain ⟨g1, g2⟩ := Chip.relayNext_goes (s.chip.relayQueued { target := id, addr := a / 4 * 4, data := 0, write := false, lane := a % 4, size := size, origin := o, tag := 0, srp := false })
            _ h1 (by rw [Chip.relayQueued_host, h2]; rfl) h3
          rw [if_neg (show ¬ id = relayAll from hall)] at g2
          exact ⟨g2, g1⟩
        · exact Chip.relayNext_waits _ h
  · refine Completes.serveFor o _ rfl hs ?_
    dsimp only
    rw [s.chip.write32_relay o a w hS hp ha h4]
    generalize s.chip.get F.RELAY_TARGET_TILE_ID = id
    have k : RelayKept s.chip (s.chip.logChange o (0x400000 + a) w) := .logChange .refl
    generalize s.chip.logChange o (0x400000 + a) w = x at k
    have hu := k.unreachable hS id
    unfold Chip.relayWrite
    by_cases hr : id ≠ 0x1FFF ∧ s.chip.unreachable id = true
    · rw [if_pos hr, if_pos (by rw [hu, hr.2, Bool.and_true, decide_eq_true_eq]; exact hr.1)]
      obtain ⟨kr, -, h1, h3⟩ := x.relayResult_spec 2 (by decide)
      have kk : RelayKept s.chip (x.relayResult 2) := k.trans kr
      exact ⟨(h3 (by decide)).2 (k.build.trans hS), kk.relayQ, h1⟩
    · rw [if_neg hr, if_neg (by rw [hu, Bool.and_eq_true, decide_eq_true_eq]; exact hr)]
      dsimp only
      rw [(relayAddr_mod a ha).2]
      refine ⟨fun h1 h2 h3 => ?_, fun h => ?_⟩
      · obtain ⟨g1, g2⟩ := Chip.relayNext_goes (x.relayQueued { target := id, addr := a, data := w.toNat, write := true, lane := 0, size := 4, origin := o, tag := 0, srp := false })
          _ (k.relayOut.trans h1) (by rw [Chip.relayQueued_host, k.relayQ, h2]; rfl) (k.belfryUp.trans h3)
        refine ⟨g1, ?_⟩
        rw [← k.relayTag]
        exact g2
      · rw [Chip.relayNext_waits _ (by rcases h with h | h; exacts [.inl (by rw [← h]; exact congrArg Option.isSome k.relayOut), .inr (k.belfryUp.trans h)])]
        exact ⟨congrArg (· ++ [_]) k.relayQ, k.relayOut⟩
  · refine Completes.live _ rfl hs ?_
    have e : s.chip.relayTimeout = s.chip.relayEnd r 1 0xFFFFFFFF := by
      unfold Chip.relayTimeout
      rw [ho]
    rw [e]
    obtain ⟨t1, -, t3, t4, t5⟩ := s.chip.relayEnd_spec r 1 0xFFFFFFFF hS (by decide) hheld (.inl hq) hsrp hj hsq
    obtain ⟨t6, t7⟩ := t4 (by decide)
    exact ⟨t1, t3, t7, t6, t5⟩
  · refine Completes.live (fun c => c.relayResponse cell) rfl hs ?_
    have e : s.chip.relayResponse cell = s.chip.relayEnd r (if mgmtIgnored cell then 4 else 0) (mgmtData cell) := by
      unfold Chip.relayResponse
      rw [ho]
      exact if_pos (by simp [hS, hup, h1, h2, h3, h5, h6])
    rw [e]
    obtain ⟨t1, -, t3, -, t5⟩ := s.chip.relayEnd_spec r (if mgmtIgnored cell then 4 else 0) (mgmtData cell) hS (by split <;> decide) hheld (.inl hq) hsrp hj hsq
    exact ⟨t1, t3, t5⟩
  · refine Completes.live _ rfl hs ?_
    obtain ⟨x, hx, xq, xh, xj, xs, xb, xu⟩ : ∃ x : Chip, x = { s.chip with host := { s.chip.host with relayQ := q } } ∧ x.host.relayQ = q ∧ x.host.held = [] ∧
        x.host.srpJob = none ∧ x.host.srpQ = [] ∧ x.build = .S ∧ x.belfryUp = false := ⟨_, rfl, rfl, hheld, hj, hsq, hS, hup⟩
    have e : s.chip.relayTimeout = x.relayEnd r 1 0xFFFFFFFF := by
      unfold Chip.relayTimeout
      rw [ho, hup, hq, hx]
    rw [e]
    obtain ⟨t1, t2, t3, t4, -⟩ := x.relayEnd_spec r 1 0xFFFFFFFF xb (by decide) xh (.inr xu) hsrp xj xs
    exact ⟨t1, t2.trans xq, t3, (t4 (by decide)).2⟩

end Sys2Proof.Machine
end

