-- ==== Sys2Proof/Proofs/PixelCells.lean ====
section
-- One proof at a time: proofs that wait for the kernel side by side hold more memory than the check allows.
set_option Elab.async false
/-! PROOF. Ports beside their reports, reads of the memories, pixel cells from their read to their port, and the preview (R174 to R186). -/

namespace Sys2Proof.Machine

/-! ### Ports beside the reports that wait on them

An event of a tile waits as a report on port 0 (R204); beside those reports the steps below leave every port alone. -/

/-- A port but for the reports that wait on it and the number of its next cell. -/
def PortSt.calm (s : PortSt) : PortSt := { s with cellSeq := 0, insMonitor := [] }

/-- No port differs but in the reports that wait on it and the number of its next cell; the chains have stood still. -/
def PortsCalm (c d : Chip) : Prop := ∀ q, (d.port q).calm = (c.port q).calm ∧ d.chain = c.chain

namespace PortsCalm
variable {c d e : Chip}

theorem refl : PortsCalm c c := fun _ => ⟨rfl, rfl⟩

theorem trans (h : PortsCalm c d) (k : PortsCalm d e) : PortsCalm c e := fun q => ⟨(k q).1.trans (h q).1, (k q).2.trans (h q).2⟩

theorem ite {p : Prop} [Decidable p] (h : PortsCalm c d) (k : PortsCalm c e) : PortsCalm c (if p then d else e) := by
  split
  · exact h
  · exact k

/-- A step that leaves the ports alone. -/
theorem of (h : PortsCalm c d) (hp : e.ports = d.ports := by rfl) (hc : e.chain = d.chain := by rfl) : PortsCalm c e := fun q => by
  rw [Chip.port, hp, hc]
  exact h q

theorem chain (h : PortsCalm c d) : d.chain = c.chain := (h 0).2

theorem foldl {β : Type} {f : Chip → β → Chip} {l : List β} (h : PortsCalm c d) (hf : ∀ x b, b ∈ l → PortsCalm x (f x b)) : PortsCalm c (l.foldl f d) :=
  h.trans (foldl_rel PortsCalm (fun _ => refl) trans id f l (fun x b hb => hf x b hb) d)

/-- What a port holds, but for its reports. -/
theorem part {α : Type} (h : PortsCalm c d) (q : Nat) (g : PortSt → α) (hg : ∀ s : PortSt, g s.calm = g s := by intros; rfl) : g (d.port q) = g (c.port q) := by
  rw [← hg, (h q).1, hg]

/-- A port changed in its reports and the number of its next cell alone. -/
theorem setPort_calm (h : PortsCalm c d) (p : Nat) (s : PortSt) (hs : s.calm = (d.port p).calm) : PortsCalm c (d.setPort p s) := fun q => by
  refine ⟨?_, h.chain⟩
  rw [Chip.port_setPort]
  split
  next hq => rw [hs, hq, (h p).1]
  next => exact (h q).1

end PortsCalm

theorem PortsCalm.queueMonitor (c : Chip) (m : Nat) : PortsCalm c (c.queueMonitor m) :=
  .foldl (.setPort_calm .refl _ _ rfl) fun _ _ _ => .setPort_calm .refl _ _ rfl

theorem PortsCalm.monitorEvent (c : Chip) (e : Ev) : PortsCalm c (c.monitorEvent e) := by
  unfold Chip.monitorEvent
  split
  · exact .refl
  · exact .ite (.queueMonitor _ _) .refl

theorem Chip.emit_ports (c : Chip) (o : Output) : (c.emit o).ports = c.ports := by
  unfold Chip.emit
  split <;> rfl

theorem Chip.emit_chain (c : Chip) (o : Output) : (c.emit o).chain = c.chain := by
  unfold Chip.emit
  split <;> rfl

theorem PortsCalm.alertFall (c : Chip) : PortsCalm c c.alertFall := by
  unfold Chip.alertFall
  exact .ite (.of .refl (Chip.emit_ports _ _) (Chip.emit_chain _ _)) .refl

theorem PortsCalm.sendMsix (c : Chip) (v : Nat) : PortsCalm c (c.sendMsix v) := by
  unfold Chip.sendMsix
  exact .ite .refl (.of .refl (Chip.emit_ports _ _) (Chip.emit_chain _ _))

theorem PortsCalm.raiseWith {push : Chip → EvRec → Chip} (h : ∀ c r, PortsCalm c (push c r)) (c : Chip) (e : Ev) : PortsCalm c (c.raiseWith push e) := by
  unfold Chip.raiseWith
  refine .ite .refl ?_
  dsimp only
  refine .trans (.trans (.trans ?_ (h _ _)) (.monitorEvent _ e)) (.alertFall _)
  exact .ite (.trans .refl (.sendMsix _ _)) .refl

theorem PortsCalm.evqKeep (c : Chip) (r : EvRec) : PortsCalm c (c.evqKeep r) := by
  unfold Chip.evqKeep
  split <;> exact .refl

theorem PortsCalm.evqLose (c : Chip) : PortsCalm c c.evqLose := .trans .refl (.raiseWith .evqKeep _ _)

theorem PortsCalm.pushEv (c : Chip) (r : EvRec) : PortsCalm c (c.pushEv r) := by
  unfold Chip.pushEv
  exact .ite (.evqKeep c r) (.ite .refl (.ite (.trans .refl (.evqLose _)) (.evqLose c)))

namespace PortsCalm
variable {c d : Chip}

theorem raise (h : PortsCalm c d) {e : Ev} : PortsCalm c (d.raise e) := h.trans (.raiseWith .pushEv d e)

theorem cond (h : PortsCalm c d) {e : Ev} {b : Bool} : PortsCalm c (d.cond e b) := by
  unfold Chip.cond
  have hw : PortsCalm c (if d.raw e = b then d else d.wr (e.page * 4096 + 0x10)
      (if b then d.rd (e.page * 4096 + 0x10) ||| (1 : Word) <<< e.bit else d.rd (e.page * 4096 + 0x10) &&& ~~~((1 : Word) <<< e.bit))) := .ite h (.of h)
  exact .ite hw.raise hw

theorem emit (h : PortsCalm c d) {o : Output} : PortsCalm c (d.emit o) := h.of (Chip.emit_ports _ _) (Chip.emit_chain _ _)

theorem reportOne (pg : Nat) (e : ErrRec) : PortsCalm c (c.reportOne pg e) := by
  unfold Chip.reportOne
  dsimp only
  have h1 : PortsCalm c (if (c.rd (pg * 4096 + 0x20)).getLsbD 31 then c else (c.wr (pg * 4096 + 0x20) (e.word0 c.barCount)).wr (pg * 4096 + 0x24)
      (BitVec.ofNat 32 e.loc)) := .ite .refl (.of .refl)
  generalize (if (c.rd (pg * 4096 + 0x20)).getLsbD 31 then c else (c.wr (pg * 4096 + 0x20) (e.word0 c.barCount)).wr (pg * 4096 + 0x24)
      (BitVec.ofNat 32 e.loc)) = x at h1
  refine h1.trans ?_
  have h2 : ∀ y : Chip, PortsCalm x y → ∀ (p : Prop) [Decidable p] (f g : Fld), PortsCalm x (if p then y.set f 1 else y.bump g) :=
    fun y hy p _ f g => .ite (.of hy) (.of hy)
  exact h2 _ (.ite (.of .refl) .refl) _ _ _

theorem report (h : PortsCalm c d) {pg : Nat} {l : List ErrRec} : PortsCalm c (d.report pg l) := .foldl h fun _ _ _ => .reportOne _ _

end PortsCalm

/-! ### Reads of the memories -/

namespace PortsCalm
variable {c d : Chip}

theorem dramRange (c : Chip) (m a n : Nat) : PortsCalm c (c.dramRange m a n) := .ite .refl (.raise (.report .refl))

theorem dramUe (c : Chip) (p u k s a : Nat) : PortsCalm c (c.dramUe p u k s a) := by
  unfold Chip.dramUe
  exact .ite .refl (.raise (.report (.of .refl)))

theorem dramCe (c : Chip) (p u s a : Nat) : PortsCalm c (c.dramCe p u s a) := by
  unfold Chip.dramCe
  exact .raise (.report (.of .refl))

theorem dramReadWord (c : Chip) (m a : Nat) : PortsCalm c (c.dramReadWord m a).2 := by
  unfold Chip.dramReadWord
  dsimp only
  split
  · exact .refl
  · split
    · exact .refl
    · split
      · exact dramUe c _ _ _ _ _
      · split
        · exact .refl
        · exact dramCe c _ _ _ _
        · exact .refl
        · exact dramUe c _ _ _ _ _

theorem pair {α : Type} (x : α) (h : PortsCalm c d) : PortsCalm c (x, d).2 := h

theorem dramRead (c : Chip) (m a n : Nat) : PortsCalm c (c.dramRead m a n).2 := by
  unfold Chip.dramRead
  dsimp only
  have hr : PortsCalm c ((c.dramTouch m (dramHint m false) a n).dramRange m a n) :=
    .trans (.foldl .refl fun _ _ _ => .of .refl) (dramRange _ m a n)
  generalize (c.dramTouch m (dramHint m false) a n).dramRange m a n = d at hr ⊢
  generalize (wordLanes a (List.replicate n (some 0))).map (·.1) = ws
  refine hr.trans (foldl_rel PortsCalm (fun _ => .refl) trans Prod.snd _ ws (fun r w _ => ?_) (([], false), d))
  exact pair _ (dramReadWord r.2 m (16 * w))

end PortsCalm

/-- Nothing differs but the memories, what they record of writes, the open values drawn, registers from those of the banks on, and reports of events. -/
structure MemOnly (c d : Chip) : Prop where
  still : d.still = { c.still with mem := d.mem, mirror := d.mirror, free := d.free }
  ctrls : d.ctrls = c.ctrls
  rd : ∀ a, quietReg a = true → a / 4096 < 0x0D0 → d.rd a = c.rd a
  pend : PendUp c d
  ports : PortsCalm c d

theorem DramOnly.memOnly {c d : Chip} (h : DramOnly c d) (hp : PortsCalm c d) : MemOnly c d := ⟨h.still, h.ctrls, fun a ha _ => h.rd a ha, h.pend, hp⟩

namespace MemOnly
variable {c d e : Chip}

theorem refl : MemOnly c c := ⟨rfl, rfl, fun _ _ _ => rfl, PendUp.refl c, .refl⟩

theorem trans (h : MemOnly c d) (k : MemOnly d e) : MemOnly c e :=
  ⟨by rw [k.still, h.still], k.ctrls.trans h.ctrls, fun a ha hp => (k.rd a ha hp).trans (h.rd a ha hp), h.pend.trans k.pend, h.ports.trans k.ports⟩

theorem ite {p : Prop} [Decidable p] (h : MemOnly c d) (k : MemOnly c e) : MemOnly c (if p then d else e) := by
  split
  · exact h
  · exact k

theorem foldl {β : Type} {f : Chip → β → Chip} {l : List β} (h : MemOnly c d) (hf : ∀ x b, b ∈ l → MemOnly x (f x b)) : MemOnly c (l.foldl f d) :=
  h.trans (foldl_rel MemOnly (fun _ => refl) trans id f l (fun x b hb => hf x b hb) d)

theorem foldl_snd {α β : Type} {f : α × Chip → β → α × Chip} {l : List β} {x : α} (hf : ∀ a b, MemOnly a.2 (f a b).2) : MemOnly c (l.foldl f (x, c)).2 :=
  foldl_rel MemOnly (fun _ => refl) trans Prod.snd f l (fun a b _ => hf a b) (x, c)

theorem setMem (h : MemOnly c d) {m : MemSt} : MemOnly c { d with mem := m } := h.trans ⟨rfl, rfl, fun _ _ _ => rfl, fun _ h => h, .refl⟩

theorem reported (h : MemOnly c d) {pg : Nat} {l : List ErrRec} {e : Ev} : MemOnly c ((d.report pg l).raise e) :=
  h.trans ((DramOnly.reported d pg l e).memOnly (.raise (.report .refl)))

theorem raise (h : MemOnly c d) {e : Ev} : MemOnly c (d.raise e) :=
  h.trans ((d.quiet_raise e).dramOnly (PendUp.raise d e) |>.memOnly (.raise .refl))

theorem report (h : MemOnly c d) {pg : Nat} {l : List ErrRec} : MemOnly c (d.report pg l) :=
  h.trans ((d.quiet_report pg l).dramOnly (PendUp.report d pg l) |>.memOnly (.report .refl))

/-- A register from those of the banks on that is no control and shows no event. -/
theorem wr (h : MemOnly c d) {a : Nat} {w : Word} (ha : 0x0D0 ≤ a / 4096 ∨ quietReg a = false) (h4 : a % 4096 ≠ 4) (h18 : a % 4096 ≠ 0x18) :
    MemOnly c (d.wr a w) := by
  refine h.trans ⟨rfl, d.ctrls_wr a w h4, fun b hq hb => ?_, fun e he => ?_, .refl⟩
  · rw [Chip.rd_wr, if_neg]
    rintro rfl
    rcases ha with ha | ha
    · omega
    · rw [hq] at ha
      exact absurd ha (by decide)
  · rw [Chip.pend, Chip.rd_wr, if_neg (by omega)]
    exact he

theorem sramCe (c : Chip) (w u s : Nat) : MemOnly c (c.sramCe w u s) := by
  unfold Chip.sramCe
  exact .raise (.wr (.report .refl) (Or.inl (by decide)) (by decide) (by decide))

theorem sramUe (c : Chip) (w u s : Nat) : MemOnly c (c.sramUe w u s) := by
  unfold Chip.sramUe
  exact .ite .refl (.reported (.setMem .refl))

theorem sramReadWord (c : Chip) (u w : Nat) : MemOnly c (c.sramReadWord u w).2 := by
  unfold Chip.sramReadWord
  dsimp only
  split
  · exact .refl
  · exact sramCe c _ _ _
  · exact .refl
  · exact sramUe c _ _ _

theorem sramStore (c : Chip) (k : Nat) (w : Word128) (s : Nat) : MemOnly c (c.sramStore k w s) := by
  unfold Chip.sramStore
  dsimp only
  have ha : (F.FLIP_ARM.pg (bankPage (bankOf k))).addr = 0x34 + 4096 * bankPage (bankOf k) := rfl
  refine .ite (.setMem (.wr .refl (Or.inr ?_) (by omega) (by omega))) (.setMem .refl)
  simp only [quietReg, ha, Bool.and_eq_false_iff, Bool.or_eq_false_iff, decide_eq_false_iff_not]
  omega

theorem retireEntry (c : Chip) (b : Nat) (e : MergeEntry) : MemOnly c (c.retireEntry b e) := by
  unfold Chip.retireEntry
  exact .ite (.sramStore _ _ _ _) (.trans (.sramReadWord _ _ _) (.sramStore _ _ _ _))

theorem showMerge (h : MemOnly c d) (b : Nat) : MemOnly c (d.showMerge b) := by
  have ha : (F.BANK_STATUS_MERGE.pg b).addr = 0x0D0044 + 4096 * b := rfl
  exact h.wr (Or.inl (by omega)) (by omega) (by omega)

theorem retireWord (c : Chip) (b w : Nat) : MemOnly c (c.retireWord b w) := by
  unfold Chip.retireWord
  dsimp only
  split
  · exact .refl
  next e _ => exact .showMerge (.trans (.setMem .refl) (.retireEntry _ b e)) b

theorem bankDeny (c : Chip) (b : Nat) : MemOnly c (c.bankDeny b) := by
  have ha : (F.BANK_DENY_COUNT_COUNT.pg b).addr = 0x0D0058 + 4096 * b := rfl
  exact .raise (.wr .refl (Or.inl (by omega)) (by omega) (by omega))

theorem bankReadWord (c : Chip) (m u w : Nat) : MemOnly c (c.bankReadWord m u w).2 := by
  unfold Chip.bankReadWord
  dsimp only
  split
  · exact .trans (.retireWord _ _ _) (.sramReadWord _ _ _)
  · exact .bankDeny _ _

theorem openValue (c : Chip) (w : Nat) : MemOnly c (c.openValue w).2 := ⟨rfl, rfl, fun _ _ _ => rfl, fun _ h => h, .refl⟩

theorem dramRead (c : Chip) (m a n : Nat) : MemOnly c (c.dramRead m a n).2 := (DramOnly.dramRead c m a n).memOnly (.dramRead c m a n)

theorem sramPixel (c : Chip) (w h x y : Nat) : MemOnly c (c.sramPixel w h x y).2 := by
  unfold Chip.sramPixel
  split
  · exact .refl
  · dsimp only
    have hr := MemOnly.bankReadWord c mScan mOwner (4 * (y * h / max 1 c.scan.height * w + x * w / max 1 c.scan.width) / 16)
    split
    · exact hr.trans (.openValue _ _)
    · exact hr

theorem canvasPixel (c : Chip) (m : Nat) (r : ReadCanvas) (x y : Nat) : MemOnly c (c.canvasPixel m r x y).2 := by
  unfold Chip.canvasPixel
  split
  · exact .sramPixel _ _ _ _ _
  · exact .dramRead _ _ _ _

theorem part (h : MemOnly c d) {α : Type} (f : Chip → α) (hf : ∀ (x : Chip) m r n, f { x.still with mem := m, mirror := r, free := n } = f x := by intros; rfl) :
    f d = f c := by
  have h0 : f d = f d.still := (hf d d.mem d.mirror d.free).symm
  rw [h0, h.still, hf]

end MemOnly

/-! ### Cells read for the ports (R174 to R177) -/

theorem MemOnly.cellPayload (c : Chip) (j : ScanJob) (n : Nat) (e : TileEntry) (k : Nat) : MemOnly c (c.cellPayload j n e k).2 := by
  unfold Chip.cellPayload
  split
  · exact .openValue c (32 * (e.cellLamps k).length)
  · exact .foldl_snd fun a l => .canvasPixel _ _ _ _ _

/-- A queue of pixel cells on every port of a list, each named once, grown by one. -/
theorem Chip.queueEach_spec (x : PixelEntry) (l : List Nat) (c : Chip) (hl : l.Nodup) (q : Nat) :
    ((l.foldl (fun c p => c.setPort p { c.port p with qPixel := (c.port p).qPixel ++ [x] }) c).port q).qPixel.length =
      (c.port q).qPixel.length + if q ∈ l then 1 else 0 := by
  induction l generalizing c with
  | nil => simp
  | cons p l ih =>
    obtain ⟨hp, hl⟩ := List.nodup_cons.1 hl
    rw [List.foldl_cons, ih _ hl, Chip.port_setPort]
    by_cases hq : q = p
    · subst hq
      simp [hp]
    · simp [hq]

theorem Chip.chainPorts_nodup (c : Chip) (p : Nat) : (c.chainPorts p).Nodup := by
  unfold Chip.chainPorts
  refine List.Nodup.filter _ ?_
  split
  · exact List.nodup_singleton p
  · split <;> simp

theorem Chip.withSeq_qPixel (c : Chip) (p x q : Nat) : ((c.withSeq p x).2.port q).qPixel = (c.port q).qPixel := by
  have h : PortsCalm c (c.withSeq p x).2 := .setPort_calm .refl _ _ rfl
  exact h.part q PortSt.qPixel

/-- What follows the queues at the end of a read leaves the ports alone. -/
theorem Chip.cellRead_rest (c : Chip) (s : ScanSt) (a b n k : Nat) (e : TileEntry) : (((c.setScan s).keepStrip a b n e k).pruneJobs).ports = c.ports := rfl

theorem Chip.cellRead_spec (c : Chip) (e p : Nat) (hb : c.build = .S) (hp : c.chainPorts p ≠ []) (hl : ∀ q ∈ c.chainPorts p, (c.port q).qPixel.length < 512)
    (hn : (c.nextCell e (c.seqPort p)).isSome = true) (hm : c.myTurn e (c.seqPort p) = true) (q : Nat) (hq : q ∈ c.chainPorts p) :
    ((c.cellRead e p).port q).qPixel.length = (c.port q).qPixel.length + 1 := by
  obtain ⟨⟨i, j, n, x⟩, hx⟩ := Option.isSome_iff_exists.1 hn
  have hany : (c.chainPorts p).any (fun p => decide (512 ≤ (c.port p).qPixel.length)) = false := by
    rw [List.any_eq_false]
    intro r hr
    simpa using hl r hr
  have hne : (c.chainPorts p).isEmpty = false := by simpa using hp
  unfold Chip.cellRead
  simp only [hb, hany, hne, hm, hx, reduceCtorEq, decide_false, Bool.or_self, Bool.not_true, Bool.false_eq_true, if_false]
  rw [Chip.port, Chip.cellRead_rest, ← Chip.port, Chip.queueEach_spec _ _ _ (c.chainPorts_nodup p), Chip.withSeq_qPixel, if_pos hq,
    (MemOnly.cellPayload c j n x _).ports.part q PortSt.qPixel]

/-! ### Data for queued cells: as it comes, poisoned, and late (R181) -/

theorem crc8_lt (n v acc : Nat) (h : acc < 256) : crc8 n v acc < 256 := by
  induction n generalizing acc with
  | zero => exact h
  | succ n ih =>
    refine ih _ ?_
    split
    · exact Nat.xor_lt_two_pow (n := 8) (Nat.mod_lt _ (by decide)) (by decide)
    · exact Nat.mod_lt _ (by decide)

/-- HOLD of a header with its CRC. -/
theorem cellHold_of (k r : Nat) (hk : k / 2 ^ 13 % 2 = 1) (hr : r < 256) : cellHold (k * 256 + r) = true := by
  refine decide_eq_true ?_
  show (k * 256 + r) / 2 ^ 21 % 2 ^ 1 = 1
  omega

theorem cellHold_holdCell (x : Nat) : cellHold (holdCell x) = true := by
  refine cellHold_of _ _ ?_ (crc8_lt _ _ _ (by decide))
  have h1 : nbits x 21 21 = x / 2 ^ 21 % 2 ^ 1 := rfl
  have h2 : nbits x 63 8 = x / 2 ^ 8 % 2 ^ 56 := rfl
  rw [h1, h2]
  omega

theorem partner_ne (p : Nat) : partner p ≠ p := by
  unfold partner
  split <;> omega

/-- The data of a good cell at the head of a queue. -/
theorem Chip.dataReturn_good (c : Chip) (p : Nat) (x : PixelEntry) (l : List PixelEntry) (h0 : (c.port p).pixLate = 0) (hq : (c.port p).qPixel = x :: l)
    (hr : x.ready = false) (hs : c.stepStalls = false) (hb : x.bad = false) (hp : x.poison = []) :
    c.dataReturn p = c.setPort p { c.port p with qPixel := { x with ready := true } :: l } := by
  have hx : ({ x with ready := true, poison := [] } : PixelEntry) = { x with ready := true } := by rw [← hp]
  simp [Chip.dataReturn, hs, h0, hq, hr, hb, hp, mapFirst, Chip.recordPoison]

/-- The data of a poisoned one. -/
theorem Chip.dataReturn_bad (c : Chip) (p : Nat) (x : PixelEntry) (l : List PixelEntry) (h0 : (c.port p).pixLate = 0) (hq : (c.port p).qPixel = x :: l)
    (hr : x.ready = false) (hs : c.stepStalls = false) (hb : x.bad = true) :
    c.dataReturn p = (c.setPort p { c.port p with qPixel := { x with ready := true, cell := holdCell x.cell, poison := [] } :: l }).recordPoison p x := by
  simp [Chip.dataReturn, hs, h0, hq, hr, hb, mapFirst]

theorem scanPage_hasPage (c : Chip) (hb : c.build = .S) : c.hasPage E.SCAN_POISON.page = true := by
  unfold Chip.hasPage
  rw [hb]
  decide +kernel

theorem Chip.recordPoison_spec (c : Chip) (p : Nat) (x : PixelEntry) (hb : c.build = .S) (hp : x.poison ≠ []) :
    ((c.recordPoison p x).port p).qPixel = (c.port p).qPixel ∧ (c.recordPoison p x).pend E.SCAN_POISON = true := by
  have he : x.poison.isEmpty = false := by simpa using hp
  unfold Chip.recordPoison
  simp only [he, Bool.false_eq_true, if_false]
  set d := if c.portMode p = 1 then c else c.setPort (partner p)
    { c.port (partner p) with qPixel := (c.port (partner p)).qPixel.map (fun y => if y.cell = x.cell then { y with poison := [] } else y) } with hd
  have hd' : d.build = .S := by
    rw [hd]
    split <;> exact hb
  have h : PortsCalm d ((d.report (scanPage x.engine) (x.poison.map (fun w => { ue := true, kind := 0, unit := 0, syndrome := w.2, loc := w.1 }))).raise
    E.SCAN_POISON) := .raise (.report .refl)
  refine ⟨?_, Chip.raise_pend _ _ (scanPage_hasPage _ ((MemOnly.part (.report .refl) Chip.build).trans hd')) (by decide)⟩
  rw [h.part p PortSt.qPixel, hd]
  split
  · rfl
  · rw [Chip.port_setPort, if_neg (partner_ne p).symm]

/-- The wait of the head of a queue is over. -/
theorem Chip.underrun_spec (c : Chip) (p : Nat) (x : PixelEntry) (l : List PixelEntry) (hq : (c.port p).qPixel = x :: l) (hr : x.ready = false) :
    c.underrun p = c.setPort p { c.port p with
      qPixel := { x with ready := true, cell := holdCell x.cell, poison := [] } :: l, pixLate := (c.port p).pixLate + 1 } := by
  simp [Chip.underrun, hq, hr]

/-! ### The window of the tile table and PORT_MARGIN (R178, R428) -/

theorem regAt_tiletab : ∃ d, regAt .S F.TILETAB_DATA_DATA.addr = .reg d ∧ ∀ v w, d.quiesceChange v w = false :=
  ⟨_, rfl, fun _ _ => by simp [RegDef.quiesceChange]⟩

/-- The index of the tile table's window after an access. -/
def Chip.tileNext (c : Chip) : Nat := (c.get F.TILETAB_INDEX_INDEX + b2n (c.on F.TILETAB_INDEX_AUTO_INC)) % 4096

theorem Chip.tileAdvance_spec (c : Chip) : c.tileAdvance.scan = c.scan ∧ c.tileAdvance.get F.TILETAB_INDEX_INDEX = c.tileNext := by
  unfold Chip.tileAdvance Chip.tileNext
  by_cases h : c.on F.TILETAB_INDEX_AUTO_INC = true
  · simp only [h, if_true]
    exact ⟨rfl, Chip.get_set _ _ _ (by decide) (by decide)⟩
  · have hlt : c.get F.TILETAB_INDEX_INDEX < 4096 := Nat.mod_lt _ (by decide)
    simp only [h, Bool.false_eq_true, if_false]
    exact ⟨trivial, (Nat.mod_eq_of_lt hlt).symm⟩

theorem Calm.tiletabWrite {c : Chip} (h : Calm c) (w : Word) : Calm (c.tiletabWrite w) := by
  unfold Chip.tiletabWrite Chip.tileAdvance
  split
  · exact Calm.set (h.of_ctrls rfl rfl rfl rfl) _ _ (by decide)
  · exact h.of_ctrls rfl rfl rfl rfl

/-- A word written through the window of the tile table. -/
theorem Chip.write32_tiletab (c : Chip) (o : Origin) (w : Word) (hb : c.build = .S) (hc : Calm c) :
    let t := c.write32 o F.TILETAB_DATA_DATA.addr w
    smGet 0 t.scan.tabShadow (c.get F.TILETAB_INDEX_INDEX) = w ∧ t.scan.tabUse = c.scan.tabUse ∧ t.get F.TILETAB_INDEX_INDEX = c.tileNext := by
  obtain ⟨d, hd, hq⟩ := regAt_tiletab
  rw [← hb] at hd
  obtain ⟨x, hx, he⟩ := Chip.write32_tabled (o := o) (w := w) hd (by decide) (hq _ _) hc (fun x h => h.tiletabWrite w)
  change c.write32 o F.TILETAB_DATA_DATA.addr w = (x.tiletabWrite w).noteMirror _ at he
  have hi : x.get F.TILETAB_INDEX_INDEX = c.get F.TILETAB_INDEX_INDEX := hx.get _ (by decide) (by decide) (by decide)
  have hn : x.tileNext = c.tileNext := by
    unfold Chip.tileNext Chip.on
    rw [hi, hx.get F.TILETAB_INDEX_AUTO_INC (by decide) (by decide) (by decide)]
  have hm : x.scan = c.scan := hx.part Chip.scan (fun _ => rfl)
  obtain ⟨h1, h2⟩ := Chip.tileAdvance_spec (x.setScan { x.scan with tabShadow := smPut 0 x.scan.tabShadow (x.get F.TILETAB_INDEX_INDEX) w })
  dsimp only
  rw [he, Chip.noteMirror_get, Chip.noteMirror_part _ _ Chip.scan (fun _ _ => rfl), Chip.tiletabWrite, h1, h2]
  refine ⟨?_, ?_, hn⟩
  · rw [hi]
    simp [Chip.setScan]
  · change x.scan.tabUse = c.scan.tabUse
    rw [hm]

/-- A word read through it. -/
theorem Chip.hostRead_tiletab (c : Chip) (o : Origin) (hb : c.build = .S) (hp : c.pathsOpen = true) :
    let t := c.hostRead o F.TILETAB_DATA_DATA.addr 4
    t.scan = c.scan ∧ t.get F.TILETAB_INDEX_INDEX = c.tileNext := by
  obtain ⟨d, hd, -⟩ := regAt_tiletab
  rw [← hb] at hd
  have hbuild : ∀ x : Chip, (x.readEffect F.TILETAB_DATA_DATA.addr).build = x.build := by
    intro x
    change x.tileAdvance.build = x.build
    unfold Chip.tileAdvance
    split <;> rfl
  obtain ⟨x, v, hx, he⟩ := c.hostRead_opened o _ d hp (by decide) (by decide) hd hbuild
  have ho : opensAt c.build F.TILETAB_INDEX_INDEX.addr = false := by
    rw [hb]
    decide +kernel
  have hn : x.tileNext = c.tileNext := by
    unfold Chip.tileNext
    rw [hx.get F.TILETAB_INDEX_INDEX rfl ho, hx.on F.TILETAB_INDEX_AUTO_INC rfl ho]
  obtain ⟨h1, h2⟩ := x.tileAdvance_spec
  dsimp only
  rw [he]
  exact ⟨h1.trans (hx.part Chip.scan (fun _ _ _ _ => rfl)), h2.trans hn⟩

theorem regAt_portMargin (p : Nat) (hp : p < 16) :
    ∃ d, regAt .S (F.SCAN_PORT_MARGIN_CLR.plus (4 * p)).addr = .reg d ∧ ∀ v w, d.quiesceChange v w = false := by
  interval_cases p <;> exact ⟨_, rfl, fun _ _ => by simp [RegDef.quiesceChange]⟩

theorem Chip.writeEffect_portMargin (x : Chip) (o : Origin) (p : Nat) (hp : p < 16) (old w : Word) (h : w.getLsbD 31 = true) :
    x.writeEffect o (F.SCAN_PORT_MARGIN_CLR.plus (4 * p)).addr old w = x.set (F.SCAN_PORT_MARGIN_US.plus (4 * p)) 0x7FFF := by
  interval_cases p <;> exact if_pos h

/-- PORT_MARGIN of a port returns to its largest value. -/
theorem Chip.writeField_portMargin (c : Chip) (o : Origin) (p : Nat) (hb : c.build = .S) (hc : Calm c) (hp : p < 16) :
    (c.writeField o (F.SCAN_PORT_MARGIN_CLR.plus (4 * p)) 1).get (F.SCAN_PORT_MARGIN_US.plus (4 * p)) = 0x7FFF := by
  obtain ⟨d, hd, hq⟩ := regAt_portMargin p hp
  rw [← hb] at hd
  have ha : ∀ p < 16, (F.SCAN_PORT_MARGIN_CLR.plus (4 * p)).addr < 0x400000 ∧ (F.SCAN_PORT_MARGIN_CLR.plus (4 * p)).addr % 4 = 0 ∧
      0x40 ≤ (F.SCAN_PORT_MARGIN_CLR.plus (4 * p)).addr % 4096 ∧ (F.SCAN_PORT_MARGIN_CLR.plus (4 * p)).addr ≠ F.DEBUG_CTRL_UNLOCK.addr ∧
      unstored (F.SCAN_PORT_MARGIN_CLR.plus (4 * p)).addr = false := by decide
  have h4 : ∀ p < 16, (F.SCAN_PORT_MARGIN_US.plus (4 * p)).addr % 4096 ≠ 4 := by decide
  obtain ⟨x, -, he⟩ := Chip.writeField_command (o := o) (fun x => x.set (F.SCAN_PORT_MARGIN_US.plus (4 * p)) 0x7FFF) rfl (show 31 < 32 by decide) hd (ha p hp) hq hc
    (fun x old w h => x.writeEffect_portMargin o p hp old w h) (fun x h => h.set _ _ (h4 p hp))
  rw [he, Chip.noteMirror_get, Chip.get_set _ _ _ (show (0 : Nat) ≤ 15 by decide) (show 15 < 32 by decide)]
  exact Nat.mod_eq_of_lt (show 0x7FFF < 2 ^ 16 by decide)

/-! ### Frames of the preview (R185, R186) -/

theorem MemOnly.previewPixel (c : Chip) (r : ReadCanvas) (d i j : Nat) : MemOnly c (c.previewPixel r d i j).2 := by
  unfold Chip.previewPixel
  refine MemOnly.foldl_snd (x := ((0, 0, 0) : Nat × Nat × Nat)) fun a k => ?_
  dsimp only
  split
  · exact .canvasPixel _ _ _ _ _
  · exact .trans (.canvasPixel _ _ _ _ _) (.openValue _ 30)

theorem Chip.previewLine_kept (c : Chip) (r : ReadCanvas) (d wo y : Nat) :
    (c.previewLine r d wo y).preview = c.preview ∧ (c.previewLine r d wo y).build = c.build := by
  have h : ∀ l : List Nat, MemOnly c (l.foldl (fun (a : List Byte × Chip) i =>
      let v := a.2.previewPixel r d i y
      (a.1 ++ leBytes 4 v.1, v.2)) (([] : List Byte), c)).2 := fun l => .foldl_snd fun a i => .previewPixel _ _ _ _ _
  have h := h (List.range wo)
  unfold Chip.previewLine
  dsimp only
  exact ⟨(Chip.emit_preview _ _).trans (h.part Chip.preview), (Chip.emit_build _ _).trans (h.part Chip.build)⟩

theorem Chip.previewLines_kept (c : Chip) (r : ReadCanvas) (d wo : Nat) (l : List Nat) :
    (l.foldl (fun c y => c.previewLine r d wo y) c).preview = c.preview ∧ (l.foldl (fun c y => c.previewLine r d wo y) c).build = c.build := by
  induction l generalizing c with
  | nil => exact ⟨rfl, rfl⟩
  | cons y l ih =>
    obtain ⟨h1, h2⟩ := ih (c.previewLine r d wo y)
    obtain ⟨h3, h4⟩ := c.previewLine_kept r d wo y
    exact ⟨h1.trans h3, h2.trans h4⟩

theorem previewPage_hasPage (c : Chip) (hb : c.build = .S) : c.hasPage 0x072 = true := by
  unfold Chip.hasPage
  rw [hb]
  decide +kernel

/-- A frame over: no canvas, and the buffer that follows. -/
def Chip.withPreview (c : Chip) (s : PreviewSt) : Chip := { c with preview := s }

theorem Chip.withPreview_raise (c : Chip) (s : PreviewSt) (e : Ev) (hb : c.build = .S) (hp : e.page = 0x072) (he : e.bit < 32) :
    ((c.withPreview s).raise e).preview = s ∧ ((c.withPreview s).raise e).pend e = true ∧
      ∀ f : Fld, eventReg f.addr = false → ((c.withPreview s).raise e).get f = c.get f :=
  ⟨MemOnly.part (.raise .refl) Chip.preview, Chip.raise_pend _ _ (hp ▸ previewPage_hasPage _ hb) he, fun f hf => Chip.raise_get_of _ _ _ hf⟩

/-- The registers of a frame that is over. -/
def Chip.previewOver (c : Chip) (buf : Nat) (mixed : Bool) : Chip :=
  (((c.set F.PREVIEW_STATUS_LAST_BUF buf).set F.PREVIEW_STATUS_MIXED (b2n mixed)).bump F.PREVIEW_STATUS_FRAME_COUNT).set F.PREVIEW_STATUS_BUSY 0

theorem Chip.previewOver_get (c : Chip) (buf : Nat) (mixed : Bool) :
    (c.previewOver buf mixed).get F.PREVIEW_STATUS_BUSY = 0 ∧ (c.previewOver buf mixed).get F.PREVIEW_STATUS_LAST_BUF = buf % 2 := by
  unfold Chip.previewOver Chip.bump
  refine ⟨Chip.get_set _ _ _ (by decide) (by decide), ?_⟩
  rw [Chip.get_set_field _ _ _ _ (by decide) (by decide) (by decide) (by decide), Chip.get_set_field _ _ _ _ (by decide) (by decide) (by decide) (by decide),
    Chip.get_set_field _ _ _ _ (by decide) (by decide) (by decide) (by decide)]
  exact Chip.get_set _ _ _ (by decide) (by decide)

/-- The lines of a frame sent. -/
def Chip.previewSent (c : Chip) (r : ReadCanvas) : Chip :=
  let d := match c.use F.PREVIEW_CTRL_DIV with | 1 => 2 | 3 => 8 | 4 => 16 | _ => 4
  (List.range (c.scan.height / d)).foldl (fun x y => x.previewLine r d (c.scan.width / d) y) c

theorem Chip.previewDone_eq (c : Chip) (r : ReadCanvas) (h1 : c.preview.busy = true) (h2 : c.preview.canvas = some r) (h3 : c.previewReady r = true)
    (h4 : c.stepStalls = false) :
    c.previewDone = (((c.previewSent r).previewOver (c.previewSent r).preview.nextBuf (c.previewSent r).preview.mixed).withPreview
      { (c.previewSent r).preview with busy := false, canvas := none, nextBuf := 1 - (c.previewSent r).preview.nextBuf }).raise E.PREVIEW_DONE := by
  unfold Chip.previewDone
  rw [h2]
  simp only [h1, h3, h4, Bool.not_true, Bool.or_self, Bool.false_eq_true, if_false]
  rfl

/-- The last write of a frame. -/
theorem Chip.previewDone_spec (c : Chip) (r : ReadCanvas) (hb : c.build = .S) (h1 : c.preview.busy = true) (h2 : c.preview.canvas = some r)
    (h3 : c.previewReady r = true) (h4 : c.stepStalls = false) :
    let t := c.previewDone
    t.get F.PREVIEW_STATUS_BUSY = 0 ∧ t.preview.busy = false ∧ t.get F.PREVIEW_STATUS_LAST_BUF = c.preview.nextBuf % 2 ∧
      t.preview.nextBuf = 1 - c.preview.nextBuf ∧ t.pend E.PREVIEW_DONE = true := by
  obtain ⟨hp, hbd⟩ : (c.previewSent r).preview = c.preview ∧ (c.previewSent r).build = c.build := c.previewLines_kept _ _ _ _
  dsimp only
  rw [c.previewDone_eq r h1 h2 h3 h4]
  generalize c.previewSent r = x at hp hbd
  obtain ⟨hbusy, hlast⟩ := x.previewOver_get x.preview.nextBuf x.preview.mixed
  obtain ⟨k1, k2, k3⟩ := (x.previewOver x.preview.nextBuf x.preview.mixed).withPreview_raise
    { x.preview with busy := false, canvas := none, nextBuf := 1 - x.preview.nextBuf } E.PREVIEW_DONE (hbd.trans hb) rfl (by decide)
  refine ⟨(k3 _ (by decide)).trans hbusy, by rw [k1], (k3 _ (by decide)).trans (hlast.trans (by rw [hp])), by rw [k1, hp], k2⟩

/-- A host error ends the frame. -/
theorem Chip.previewErr_spec (c : Chip) (hb : c.build = .S) (h : c.preview.busy = true) :
    let t := c.previewErr
    t.get F.PREVIEW_STATUS_BUSY = 0 ∧ t.preview.busy = false ∧ t.pend E.PREVIEW_ERR = true ∧ t.preview.nextBuf = c.preview.nextBuf := by
  have he : c.previewErr = ((c.set F.PREVIEW_STATUS_BUSY 0).withPreview { c.preview with busy := false, canvas := none }).raise E.PREVIEW_ERR := by
    unfold Chip.previewErr
    rw [h]
    rfl
  obtain ⟨k1, k2, k3⟩ := (c.set F.PREVIEW_STATUS_BUSY 0).withPreview_raise { c.preview with busy := false, canvas := none } E.PREVIEW_ERR hb rfl (by decide)
  dsimp only
  rw [he]
  exact ⟨(k3 _ (by decide)).trans (Chip.get_set _ _ _ (by decide) (by decide)), by rw [k1], k2, by rw [k1]⟩

/-- Settles O30: a cell joins the queue of every port of its chain, comes ready or as HOLD, and the windows and the preview do as they say. -/
theorem pixelCellsAndPreview : Obligations.PixelCellsAndPreview := by
  intro s hs hb
  refine ⟨fun e p he hp hne hl hn hm => ?_, fun p x l hp h0 hq hr hst => ⟨fun hbad hpo => ?_, fun hbad hpo => ?_, ?_⟩, fun o w hc => ⟨?_, ?_⟩,
    fun o p hc hp => ?_, fun r h1 h2 h3 h4 => ?_, fun h => ?_⟩
  · refine Completes.live (fun c => c.when (decide (e < 2) && decide (p < 16)) (fun c => c.cellRead e p)) rfl hs ?_
    simp only [he, hp, Chip.when, decide_true, Bool.and_self, if_true]
    exact s.chip.cellRead_spec e p hb hne hl hn hm
  · refine Completes.liveS (fun c => c.when (decide (p < 16)) (fun c => c.dataReturn p)) rfl hs hb ?_
    simp only [hp, Chip.when, decide_true, if_true]
    rw [s.chip.dataReturn_good p x l h0 hq hr hst hbad hpo]
    exact ⟨by rw [Chip.port_setPort, if_pos rfl], rfl, fun _ _ _ => rfl⟩
  · refine Completes.liveS (fun c => c.when (decide (p < 16)) (fun c => c.dataReturn p)) rfl hs hb ?_
    simp only [hp, Chip.when, decide_true, if_true]
    rw [s.chip.dataReturn_bad p x l h0 hq hr hst hbad]
    obtain ⟨k1, k2⟩ := (s.chip.setPort p { s.chip.port p with qPixel := { x with ready := true, cell := holdCell x.cell, poison := [] } :: l }).recordPoison_spec
      p x hb hpo
    exact ⟨by rw [k1, Chip.port_setPort, if_pos rfl], k2⟩
  · refine Completes.liveS (fun c => c.when (decide (p < 16)) (fun c => c.underrun p)) rfl hs hb ?_
    simp only [hp, Chip.when, decide_true, if_true]
    rw [s.chip.underrun_spec p x l hq hr]
    rw [Chip.port_setPort, if_pos rfl]
    exact ⟨by rw [h0], _, rfl, rfl, cellHold_holdCell _, rfl, fun _ _ _ => rfl⟩
  · exact Completes.serveFor o (fun c => c.window o F.TILETAB_DATA_DATA.addr (some w)) rfl hs (s.chip.write32_tiletab o w hb hc)
  · exact Completes.serveFor o (fun c => c.window o F.TILETAB_DATA_DATA.addr none) rfl hs (s.chip.hostRead_tiletab o hb hc.2)
  · refine Completes.serveFor o (fun c => c.when (decide (p < 16)) (fun c => c.writeField o (F.SCAN_PORT_MARGIN_CLR.plus (4 * p)) 1)) rfl hs ?_
    simp only [hp, Chip.when, decide_true, if_true]
    exact s.chip.writeField_portMargin o p hb hc hp
  · exact Completes.liveS Chip.previewDone rfl hs hb (s.chip.previewDone_spec r hb h1 h2 h3 h4)
  · exact Completes.liveS Chip.previewErr rfl hs hb (s.chip.previewErr_spec hb h)

end Sys2Proof.Machine
end

