-- ==== Sys2Proof/Proofs/LaneLock.lean ====
section
-- One proof at a time: proofs that wait for the kernel side by side hold more memory than the check allows.
set_option Elab.async false
/-! PROOF. A lane out of lock with 64 valid headers counted (R192). -/

namespace Sys2Proof.Machine

/-! ### A lane out of lock with 64 valid sync headers counted (R192) -/

/-- A lane that is out of lock, with 64 valid headers in a row counted, on a port that is not OFF. -/
def countedLane : State :=
  { chip := ((Chip.init .S).set (F.STATE.pg (portPage 0)) psTrain).setPort 0 { PortSt.init with lane0 := { LaneSt.init with valids := 64 } }
    pending := [] }

theorem countedLane_calm : Runs countedLane ∧ countedLane.chip.rst.extest = false ∧ 0 < countedLane.chip.numPorts ∧
    countedLane.chip.state (portPage 0) ≠ psOff ∧ ((countedLane.chip.port 0).lane 0).locked = false ∧
    64 ≤ ((countedLane.chip.port 0).lane 0).valids := by decide +kernel

/-- No block changes nothing: the lane stays out of lock. -/
theorem countedLane_unlocked : ∀ t, exec (.blockLockChange 0 0 []) countedLane = .next t → ((t.chip.port 0).lane 0).locked = false := by
  have h : (match exec (.blockLockChange 0 0 []) countedLane with
    | .next t => ((t.chip.port 0).lane 0).locked
    | _ => false) = false := by decide +kernel
  intro t e
  rw [e] at h
  exact h

/-- Refutes O31: a lane is counted out of lock with 64 valid headers in the state, and no block comes; the statement takes the sum of the headers counted
and the blocks to be 64, so it claims lock, but lock is given by a valid header, and there is none. It does not ask that a lane out of lock has counted
fewer than 64. -/
theorem not_slotsAndMarkers : ¬ Obligations.SlotsAndMarkers := by
  intro h
  obtain ⟨hr, hx, hp, hs, hl, hv⟩ := countedLane_calm
  obtain ⟨-, -, h⟩ := h
  obtain ⟨-, -, -, -, h⟩ := h countedLane 0 hr hx hp
  obtain ⟨h, -⟩ := h 0 [] (by decide) hs
  obtain ⟨t, he, -, ht⟩ := h hl hv (fun b hb => absurd hb (List.not_mem_nil))
  rw [countedLane_unlocked t he] at ht
  cases ht

end Sys2Proof.Machine
end

