-- ==== Sys2Proof/Proofs/PortWork.lean ====
section
-- One proof at a time: proofs that wait for the kernel side by side hold more memory than the check allows.
set_option Elab.async false
/-! PROOF. What work on ports keeps: the fields of a page and the parts of a port, and the states and rates of a port (R213, R219 to R222). -/

namespace Sys2Proof.Machine

/-! ### Work on a port: fields of its page and parts of its state that stay -/

/-- PAGE_STAT.STATE, FAULT of port 0. -/
def portState : Fld := F.STATE.pg 0x080

def portFault : Fld := F.FAULT.pg 0x080

theorem portState_pg (p : Nat) : portState.pg p = F.STATE.pg (portPage p) := by
  simp only [portState, Fld.pg, portPage, Fld.mk.injEq, and_true]
  omega

theorem portFault_pg (p : Nat) : portFault.pg p = F.FAULT.pg (portPage p) := by
  simp only [portFault, Fld.pg, portPage, Fld.mk.injEq, and_true]
  omega

theorem Chip.state_port (c : Chip) (p : Nat) : c.state (portPage p) = c.get (portState.pg p) := by rw [portState_pg, Chip.state]

/-- The register of causes of a port. -/
def causeReg (p : Nat) : Nat := 0x080068 + 4096 * p

/-- Fields of the page of port 0 that no event, error record or cause is written to. -/
def pageFields (Fs : List Fld) : Bool := Fs.all (fun f => decide (f.addr / 4096 = 0x080) && quietReg f.addr && decide (f.addr % 4096 ≠ 0x68))

/-- None of the fields written is one of those kept. -/
def sparing (Ws Fs : List Fld) : Bool := Ws.all (fun f => Fs.all (fun g => g.apart f))

/-- Work on ports: of port `p` what `g` shows and the fields `Fs` of its page stay, causes once set stay set, and the modes, page controls,
reset state and open paths of the block stay. -/
structure PortWork {β : Type} (g : PortSt → β) (Fs : List Fld) (p : Nat) (c d : Chip) : Prop where
  build : d.build = c.build
  ctrls : d.ctrls = c.ctrls
  inUse : d.inUse = c.inUse
  rst : d.rst = c.rst
  paths : d.pathsOpen = c.pathsOpen
  gets : ∀ f ∈ Fs, d.get (f.pg p) = c.get (f.pg p)
  cause : ∀ q k, q < 16 → (c.rd (causeReg q)).getLsbD k = true → (d.rd (causeReg q)).getLsbD k = true
  pend : PendUp c d
  port : g (d.port p) = g (c.port p)

namespace PortWork
variable {β : Type} {g : PortSt → β} {Fs : List Fld} {p : Nat} {c d e : Chip}

theorem refl : PortWork g Fs p c c := ⟨rfl, rfl, rfl, rfl, rfl, fun _ _ => rfl, fun _ _ _ h => h, PendUp.refl c, rfl⟩

theorem trans (h : PortWork g Fs p c d) (k : PortWork g Fs p d e) : PortWork g Fs p c e :=
  ⟨k.build.trans h.build, k.ctrls.trans h.ctrls, k.inUse.trans h.inUse, k.rst.trans h.rst, k.paths.trans h.paths, fun f hf => (k.gets f hf).trans (h.gets f hf),
    fun q n hq hc => k.cause q n hq (h.cause q n hq hc), h.pend.trans k.pend, k.port.trans h.port⟩

theorem ite {P : Prop} [Decidable P] (h : PortWork g Fs p c d) (k : PortWork g Fs p c e) : PortWork g Fs p c (if P then d else e) := by
  split
  · exact h
  · exact k

theorem foldl {γ : Type} {f : Chip → γ → Chip} {l : List γ} (h : PortWork g Fs p c d) (hf : ∀ x b, b ∈ l → PortWork g Fs p x (f x b)) :
    PortWork g Fs p c (l.foldl f d) :=
  h.trans (foldl_rel (PortWork g Fs p) (fun _ => refl) trans id f l (fun x b hb => hf x b hb) d)

/-- A step that changes no register and of the ports nothing that is kept. -/
theorem of (h : PortWork g Fs p c d) (hr : e.regs = d.regs := by rfl) (hb : e.build = d.build := by rfl) (hu : e.inUse = d.inUse := by rfl)
    (hs : e.rst = d.rst := by rfl) (hh : e.host = d.host := by rfl) (hm : e.mem = d.mem := by rfl) (hp : g (e.port p) = g (d.port p) := by rfl) : PortWork g Fs p c e := by
  have k : Keeps Chip.inUse [] [] d e := Keeps.of .refl hu hr hb
  have hrd : ∀ a, e.rd a = d.rd a := fun a => by rw [Chip.rd, Chip.rd, hr, hb]
  exact h.trans ⟨hb, k.ctrls, hu, hs, Chip.pathsOpen_congr hb (by rw [hh]) hm, fun f _ => by rw [Chip.get, hrd, Chip.get], fun q n _ hc => by rw [hrd]; exact hc, k.pend, hp⟩

theorem setPort (h : PortWork g Fs p c d) (q : Nat) (s : PortSt) (hs : q = p → g s = g (d.port p)) : PortWork g Fs p c (d.setPort q s) := by
  refine h.of rfl rfl rfl rfl rfl rfl ?_
  rw [Chip.port_setPort]
  split
  next hq => exact hs hq.symm
  next => rfl

/-- A port changed in nothing that is kept, whichever it is. -/
theorem setPort_of (h : PortWork g Fs p c d) (q : Nat) (s : PortSt) (hs : g s = g (d.port q)) : PortWork g Fs p c (d.setPort q s) :=
  h.setPort q s (fun hq => by rw [hs, hq])

/-- A register off the fields kept, that is no cause, no page control, and shows no event. -/
theorem wr (h : PortWork g Fs p c d) {a : Nat} {w : Word} (hF : ∀ f ∈ Fs, (f.pg p).addr ≠ a) (hc : ∀ q, q < 16 → causeReg q ≠ a) (hp : plainReg a = true) :
    PortWork g Fs p c (d.wr a w) := by
  have k : Keeps Chip.inUse [] [] d (d.wr a w) := Keeps.wr .refl (by simp) hp
  exact h.trans ⟨rfl, k.ctrls, rfl, rfl, rfl, fun f hf => by rw [Chip.get, Chip.rd_wr, if_neg (hF f hf), Chip.get],
    fun q n hq hb => by rw [Chip.rd_wr, if_neg (hc q hq)]; exact hb, k.pend, rfl⟩

/-- A field of the page of a port. -/
theorem set_pg (h : PortWork g Fs p c d) {f : Fld} {q v : Nat} (hF : Fs.all (fun g => g.apart f) = true)
    (hf : decide (f.addr / 4096 = 0x080) && decide (f.addr % 4096 ≠ 0x68) && plainReg f.addr = true := by decide) (hFs : pageFields Fs = true := by decide) :
    PortWork g Fs p c (d.set (f.pg q) v) := by
  simp only [Bool.and_eq_true, decide_eq_true_eq] at hf
  obtain ⟨⟨h1, h2⟩, h3⟩ := hf
  have k : Keeps Chip.inUse [] [] d (d.set (f.pg q) v) := Keeps.set .refl (by simp) ((plainReg_pg f q).trans h3)
  refine h.trans ⟨rfl, k.ctrls, rfl, rfl, rfl, fun g' hg => ?_, fun n b _ hb => ?_, k.pend, rfl⟩
  · by_cases hq : q = p
    · rw [hq]
      exact Chip.get_set_pg_apart _ _ _ _ _ (List.all_eq_true.1 hF g' hg)
    · have hp := List.all_eq_true.1 hFs g' hg
      simp only [Bool.and_eq_true, decide_eq_true_eq] at hp
      obtain ⟨⟨hp, -⟩, -⟩ := hp
      refine Chip.get_set_ne _ _ _ _ ?_
      show g'.addr + 4096 * p ≠ f.addr + 4096 * q
      omega
  · rw [Chip.rd_set_ne]
    · exact hb
    · show 0x080068 + 4096 * n ≠ f.addr + 4096 * q
      omega

/-- What the pages of the fields kept are. -/
theorem page_of (hFs : pageFields Fs = true) {f : Fld} (hf : f ∈ Fs) :
    f.addr / 4096 = 0x080 ∧ quietReg f.addr = true ∧ f.addr % 4096 ≠ 0x68 := by
  have hp := List.all_eq_true.1 hFs f hf
  simp only [Bool.and_eq_true, decide_eq_true_eq] at hp
  exact ⟨hp.1.1, hp.1.2, hp.2⟩

/-- A register off the pages of the ports. -/
theorem wr_off (h : PortWork g Fs p c d) {a : Nat} {w : Word} (hp : p < 16)
    (hf : (decide (a / 4096 < 0x080) || decide (0x090 ≤ a / 4096)) && plainReg a = true := by decide) (hFs : pageFields Fs = true := by decide) :
    PortWork g Fs p c (d.wr a w) := by
  simp only [Bool.and_eq_true, Bool.or_eq_true, decide_eq_true_eq] at hf
  obtain ⟨h1, h2⟩ := hf
  refine h.wr (fun f hf => ?_) (fun q hq => ?_) h2
  · obtain ⟨hpg, -, -⟩ := page_of hFs hf
    show f.addr + 4096 * p ≠ a
    omega
  · show 0x080068 + 4096 * q ≠ a
    omega

theorem set_off (h : PortWork g Fs p c d) {f : Fld} {v : Nat} (hp : p < 16)
    (hf : (decide (f.addr / 4096 < 0x080) || decide (0x090 ≤ f.addr / 4096)) && plainReg f.addr = true := by decide)
    (hFs : pageFields Fs = true := by decide) : PortWork g Fs p c (d.set f v) := h.wr_off hp hf hFs

theorem quiet_pg (hFs : pageFields Fs = true) (hp : p < 16) {f : Fld} (hf : f ∈ Fs) : quietReg (f.pg p).addr = true := by
  obtain ⟨hpg, hq, -⟩ := page_of hFs hf
  have ha : (f.pg p).addr = f.addr + 4096 * p := rfl
  simp only [quietReg, Bool.and_eq_true, Bool.or_eq_true, decide_eq_true_eq] at hq ⊢
  obtain ⟨⟨⟨⟨h1, -⟩, -⟩, -⟩, -⟩ := hq
  have k1 : F.USB4_PBA.addr < 0x080000 := by decide
  have k2 : 0x090000 ≤ F.ECC_EVQ_LOST.addr := by decide
  have k3 : 0x090000 ≤ F.CHAINCTL_MON_LOST_COUNT.addr := by decide
  have k4 : F.DEVICE_CHANGE_LOST_COUNT.addr < 0x080000 := by decide
  have k5 : F.DEVICE_BAD_ADDR_VALID.addr < 0x080000 := by decide
  refine ⟨⟨⟨⟨?_, ?_⟩, ?_⟩, ?_⟩, ?_⟩
  · omega
  all_goals omega

theorem quiet_cause {q : Nat} (hq : q < 16) : quietReg (causeReg q) = true := by
  have h : ∀ q < 16, quietReg (causeReg q) = true := by decide
  exact h q hq

/-- A quiet step: what it reports waits on the ports. -/
theorem quiet (h : PortWork g Fs p c d) (hQ : Quiet d e) (hU : PendUp d e) (hP : PortsCalm d e) (hp : p < 16) (hg : ∀ s, g s.calm = g s)
    (hFs : pageFields Fs = true := by decide) : PortWork g Fs p c e := by
  have hr : e.rst = d.rst := by
    have k := congrArg Chip.rst hQ.1
    exact k
  exact h.trans ⟨hQ.build, hQ.2.1, hQ.inUse, hr, Chip.pathsOpen_congr hQ.build hQ.host hQ.mem, fun f hf => hQ.get _ (quiet_pg hFs hp hf), fun q n hq hb => by rw [hQ.2.2 _ (quiet_cause hq)]; exact hb,
    hU, hP.part p g hg⟩

theorem raise (h : PortWork g Fs p c d) {x : Ev} (hp : p < 16) (hg : ∀ s, g s.calm = g s := by intros; rfl) (hFs : pageFields Fs = true := by decide) :
    PortWork g Fs p c (d.raise x) := h.quiet (d.quiet_raise x) (PendUp.raise d x) (.raise .refl) hp hg hFs

theorem cond (h : PortWork g Fs p c d) {x : Ev} {b : Bool} (hp : p < 16) (hg : ∀ s, g s.calm = g s := by intros; rfl)
    (hFs : pageFields Fs = true := by decide) : PortWork g Fs p c (d.cond x b) := h.quiet (d.quiet_cond x b) (PendUp.cond d x b) (.cond .refl) hp hg hFs

theorem report (h : PortWork g Fs p c d) {pg : Nat} {l : List ErrRec} (hp : p < 16) (hg : ∀ s, g s.calm = g s := by intros; rfl)
    (hFs : pageFields Fs = true := by decide) : PortWork g Fs p c (d.report pg l) := h.quiet (d.quiet_report pg l) (PendUp.report d pg l) (.report .refl) hp hg hFs

theorem emit (h : PortWork g Fs p c d) {o : Output} : PortWork g Fs p c (d.emit o) := by
  unfold Chip.emit
  exact .ite h h.of

theorem bit_or (w m : Word) (k : Nat) (h : w.getLsbD k = true) : (w ||| m).getLsbD k = true := by rw [BitVec.getLsbD_or, h, Bool.true_or]

/-- A cause set. -/
theorem addCause (h : PortWork g Fs p c d) (q b : Nat) (hp : p < 16) (hg : ∀ s, g s.calm = g s := by intros; rfl) (hFs : pageFields Fs = true := by decide) :
    PortWork g Fs p c (d.cause q b) := by
  have hw : ∀ w : Word, PortWork g Fs p d (d.wr (0x080068 + 4096 * q) (d.rd (0x080068 + 4096 * q) ||| w)) := fun w => by
    have k : Keeps Chip.inUse [] [] d (d.wr (0x080068 + 4096 * q) (d.rd (0x080068 + 4096 * q) ||| w)) := Keeps.wr .refl (by simp) (by
      simp only [plainReg, Bool.and_eq_true, decide_eq_true_eq]
      omega)
    refine ⟨rfl, k.ctrls, rfl, rfl, rfl, fun f hf => ?_, fun n b _ hb => ?_, k.pend, rfl⟩
    · obtain ⟨hpg, -, h68⟩ := page_of hFs hf
      rw [Chip.get, Chip.rd_wr, if_neg, Chip.get]
      show f.addr + 4096 * p ≠ 0x080068 + 4096 * q
      omega
    · rw [Chip.rd_wr]
      split
      next e => exact bit_or _ _ _ (e ▸ hb)
      next => exact hb
  unfold Chip.cause
  exact .ite ((h.trans (hw _)).raise hp hg hFs) (h.trans (hw _))

theorem mono {γ : Type} {g' : PortSt → γ} {Fs' : List Fld} (h : PortWork g Fs p c d) (hg : g' (d.port p) = g' (c.port p)) (hF : Fs' ⊆ Fs := by decide) :
    PortWork g' Fs' p c d := ⟨h.build, h.ctrls, h.inUse, h.rst, h.paths, fun f hf => h.gets f (hF hf), h.cause, h.pend, hg⟩

theorem get (h : PortWork g Fs p c d) (f : Fld) (hf : f ∈ Fs := by decide) : d.get (f.pg p) = c.get (f.pg p) := h.gets f hf

theorem calm (h : PortWork g Fs p c d) (hc : Calm c) : Calm d := ⟨(Chip.commitPages_congr h.ctrls).trans hc.1, h.paths.trans hc.2⟩

theorem state (h : PortWork g Fs p c d) (hf : portState ∈ Fs := by decide) : d.state (portPage p) = c.state (portPage p) := by
  rw [Chip.state_port, h.gets _ hf, Chip.state_port]

end PortWork

/-- A cause shows in its register. -/
theorem Chip.cause_bit (c : Chip) (p b : Nat) (hp : p < 16) (hb : b < 32) : ((c.cause p b).rd (causeReg p)).getLsbD b = true := by
  have hw : ((c.wr (0x080068 + 4096 * p) (c.rd (0x080068 + 4096 * p) ||| (1 : Word) <<< b)).rd (causeReg p)).getLsbD b = true := by
    have hone : ((1 : Word) <<< b).getLsbD b = true := by simp [hb]
    rw [causeReg, Chip.rd_wr, if_pos rfl, BitVec.getLsbD_or, hone, Bool.or_true]
  unfold Chip.cause
  dsimp only
  split
  · rw [(Chip.quiet_raise _ _).2.2 _ (PortWork.quiet_cause hp)]
    exact hw
  · exact hw

/-- A one-bit field of the register of causes, by its bit. -/
theorem Chip.get_cause (c : Chip) (f : Fld) (p : Nat) (hf : f.addr = 0x080068) (hb : f.hi = f.lo) (h : (c.rd (causeReg p)).getLsbD f.lo = true) :
    c.get (f.pg p) = 1 := by
  have ha : (f.pg p).addr = causeReg p := by rw [causeReg, ← hf]; rfl
  rw [Chip.get, ha]
  show bitsOf _ f.hi f.lo = 1
  rw [hb]
  rw [bitsOf_bit_iff, if_pos h]

/-! ### What the states, lanes and links of ports leave of a port -/

/-- Of a port `g` shows nothing of its reports, its queue of pixel cells, its numbering and its direction. -/
structure Dull {β : Type} (g : PortSt → β) : Prop where
  calm : ∀ s, g s.calm = g s
  link : ∀ (s : PortSt) (a b : Bool), g { s with numbered := a, dirLost := b } = g s
  drop : ∀ s : PortSt, g s.dropPixels = g s

/-- Every part of a port but those, its lanes among them. -/
def PortSt.core (s : PortSt) : PortSt := { s.dropPixels with pixLate := 0, cellSeq := 0, insMonitor := [], numbered := false, dirLost := false }

theorem PortSt.core_dull : Dull PortSt.core := ⟨fun _ => rfl, fun _ _ _ => rfl, fun _ => rfl⟩

theorem Dull.comp {β : Type} (f : PortSt → β) (hf : ∀ s : PortSt, f s.core = f s) : Dull f :=
  ⟨fun s => by rw [← hf s.calm, ← hf s]; rfl, fun s a b => by rw [← hf, ← hf s]; rfl, fun s => by rw [← hf s.dropPixels, ← hf s]; rfl⟩

def portRunning : Fld := F.RUNNING.pg 0x080

theorem portRunning_pg (p : Nat) : portRunning.pg p = F.RUNNING.pg (portPage p) := by
  simp only [portRunning, Fld.pg, portPage, Fld.mk.injEq, and_true]
  omega

/-- The fields that a change of state writes, and those that show the lanes. -/
def stateFields : List Fld := [portState, portFault, portRunning, F.PORT_LINK_REDUCED]

def laneFields : List Fld := [F.PORT_LANES_D0, F.PORT_LANES_D1, F.PORT_LANES_SP]

theorem laneFld_pg (q l : Nat) : ∃ f ∈ laneFields, laneFld q l = f.pg q := by
  unfold laneFld
  split
  · exact ⟨_, by decide, rfl⟩
  · exact ⟨_, by decide, rfl⟩
  · exact ⟨_, by decide, rfl⟩

namespace PortWork
variable {β : Type} {g : PortSt → β} {Fs : List Fld} {p : Nat} {c d : Chip}

theorem setTile (h : PortWork g Fs p c d) (t : TileSt) : PortWork g Fs p c (d.setTile t) := h.of

theorem field_of_sparing {Ws : List Fld} (h : sparing Ws Fs = true) {f : Fld} (hf : f ∈ Ws) : Fs.all (fun g => g.apart f) = true := List.all_eq_true.1 h f hf

theorem showLane (h : PortWork g Fs p c d) (q l : Nat) (hs : sparing laneFields Fs = true) (hFs : pageFields Fs = true) :
    PortWork g Fs p c (d.showLane q l) := by
  obtain ⟨f, hf, he⟩ := laneFld_pg q l
  have hw : ∀ f ∈ laneFields, (decide (f.addr / 4096 = 0x080) && decide (f.addr % 4096 ≠ 0x68) && decide (plainReg f.addr = true)) = true := by decide
  unfold Chip.showLane
  rw [he]
  exact h.set_pg (field_of_sparing hs hf) (hw f hf) hFs

theorem showLanes (h : PortWork g Fs p c d) (q : Nat) (hs : sparing laneFields Fs = true := by decide) (hFs : pageFields Fs = true := by decide) :
    PortWork g Fs p c (d.showLanes q) := ((h.showLane q 0 hs hFs).showLane q 1 hs hFs).showLane q 2 hs hFs

section
variable (hp : p < 16) (hc : ∀ s, g s.calm = g s)
include hp hc

theorem addCause' (h : PortWork g Fs p c d) (q b : Nat) (hFs : pageFields Fs = true := by decide) : PortWork g Fs p c (d.cause q b) :=
  h.addCause q b hp hc hFs

theorem queueMonitor (h : PortWork g Fs p c d) (m : Nat) : PortWork g Fs p c (d.queueMonitor m) := by
  have hf : ∀ (l : List Nat) (cell : Nat) (x : Chip), let y := l.foldl (fun c p => c.setPort p { c.port p with insMonitor := (c.port p).insMonitor ++ [cell] }) x
      y.regs = x.regs ∧ y.build = x.build ∧ y.inUse = x.inUse ∧ y.rst = x.rst ∧ y.host = x.host ∧ y.mem = x.mem := by
    intro l cell
    induction l with
    | nil => exact fun _ => ⟨rfl, rfl, rfl, rfl, rfl, rfl⟩
    | cons b l ih => exact fun x => ih _
  obtain ⟨h1, h2, h3, h4, h5, h6⟩ := hf d.reportPorts _ _
  exact h.of h1 h2 h3 h4 h5 h6 ((PortsCalm.queueMonitor d m).part p g hc)

theorem ringSId (h : PortWork g Fs p c d) (hFs : pageFields Fs = true := by decide) : PortWork g Fs p c d.ringSId := by
  unfold Chip.ringSId
  have hset : ∀ {x : Chip} (f : Fld) (v : Nat), PortWork g Fs p c x → f.addr / 4096 = 0x090 → plainReg f.addr = true → PortWork g Fs p c (x.set f v) :=
    fun f v hx h1 h2 => hx.set_off hp (by rw [h1, h2]; rfl) hFs
  have h1 := fun v => hset F.CHAINCTL_TILE_ID_ID_S v h rfl (by decide)
  refine .ite (.ite ?_ (.ite ?_ ?_)) h
  · exact hset _ _ (h1 _) rfl (by decide)
  · exact h1 _
  · exact addCause' hp hc (hset _ _ (h1 _) rfl (by decide)) _ _ hFs

theorem renumber (h : PortWork g Fs p c d) (hFs : pageFields Fs = true := by decide) : PortWork g Fs p c d.renumber := by
  have hset : ∀ {x : Chip} (f : Fld) (v : Nat), PortWork g Fs p c x → f.addr / 4096 = 0x090 → plainReg f.addr = true → PortWork g Fs p c (x.set f v) :=
    fun f v hx h1 h2 => hx.set_off hp (by rw [h1, h2]; rfl) hFs
  unfold Chip.renumber
  have h1 := fun v => hset F.CHAINCTL_TILE_CFG_TOPO v h rfl (by decide)
  refine .ite ?_ ?_
  · exact addCause' hp hc (hset _ _ (hset _ _ (h1 _) rfl (by decide)) rfl (by decide)) _ _ hFs
  · exact hset _ _ (hset _ _ (h1 _) rfl (by decide)) rfl (by decide)

theorem takeId (h : PortWork g Fs p c d) (i : Identity) (q : Nat) (hFs : pageFields Fs = true := by decide) : PortWork g Fs p c (d.takeId i q) := by
  unfold Chip.takeId
  split
  · exact h
  · refine ringSId hp hc (.ite ?_ h) hFs
    unfold Chip.queueIdentity
    exact (queueMonitor hp hc (renumber hp hc h hFs) _).of

theorem tileShow (h : PortWork g Fs p c d) (hFs : pageFields Fs = true := by decide) : PortWork g Fs p c d.tileShow := by
  unfold Chip.tileShow
  have h0 := h.setTile { d.tile with images := d.tile.images.filter d.imageUsed }
  exact (((h0.set_off hp (by decide) hFs).set_off hp (by decide) hFs).set_off hp (by decide) hFs).set_off hp (by decide) hFs

theorem closeAll (h : PortWork g Fs p c d) (hFs : pageFields Fs = true := by decide) : PortWork g Fs p c d.closeAll := by
  unfold Chip.closeAll
  refine tileShow hp hc (.foldl h fun x b _ => ?_) hFs
  unfold Chip.closeBuild
  split
  · exact .refl
  · dsimp only
    have h0 : ∀ s, PortWork g Fs p x (x.setImage s) := fun s => .of .refl
    exact .ite .refl (.ite (((h0 _).set_off hp (by decide) hFs).raise hp hc hFs) (h0 _))

theorem obeyShow (h : PortWork g Fs p c d) (hFs : pageFields Fs = true := by decide) : PortWork g Fs p c d.obeyShow := by
  unfold Chip.obeyShow
  dsimp only
  have h1 : ∀ v b, PortWork g Fs p c ((d.set F.REDUN_TILE_OBEY v).cond E.NO_ACTIVE b) := fun v b => (h.set_off hp (by decide) hFs).cond hp hc hFs
  refine .ite (h1 _ _) ?_
  have h2 : ∀ v b t, PortWork g Fs p c ((((d.set F.REDUN_TILE_OBEY v).cond E.NO_ACTIVE b).setTile t).bumpSat F.REDUN_TILE_SWITCHES_COUNT) := fun v b t => by
    unfold Chip.bumpSat
    exact ((h1 v b).setTile t).set_off hp (by decide) hFs
  refine .ite (.raise ?_ hp hc hFs) (h2 _ _ _)
  exact (closeAll hp hc (h2 _ _ _) hFs).setTile _

end

variable (hp : p < 16) (hg : Dull g)
include hp hg

theorem setPortState (h : PortWork g Fs p c d) (q st : Nat) (hs : sparing stateFields Fs = true := by decide) (hFs : pageFields Fs = true := by decide) :
    PortWork g Fs p c (d.setPortState q st) := by
  have hset : ∀ {x : Chip} (f : Fld) (v : Nat), PortWork g Fs p c x → f ∈ stateFields → PortWork g Fs p c (x.set (f.pg q) v) := fun f v hx hf =>
    hx.set_pg (field_of_sparing hs hf) (by revert f; decide) hFs
  have h1 : PortWork g Fs p c (if (d.state (portPage q) = psReduced) = (st = psReduced) then d else d.showReduced q (decide (st = psReduced))) := by
    refine .ite h ?_
    unfold Chip.showReduced
    exact .ite ((hset F.PORT_LINK_REDUCED _ h (by decide)).wr_off hp (by decide) hFs) (hset F.PORT_LINK_REDUCED _ h (by decide))
  unfold Chip.setPortState
  dsimp only
  generalize (if (d.state (portPage q) = psReduced) = (st = psReduced) then d else d.showReduced q (decide (st = psReduced))) = x at h1 ⊢
  rw [← portState_pg, ← portFault_pg, ← portRunning_pg]
  have h2 := hset portRunning (b2n (decide (st ≠ psOff))) (hset portFault (b2n (decide (3 ≤ st))) (hset portState st h1 (by decide)) (by decide)) (by decide)
  generalize ((x.set (portState.pg q) st).set (portFault.pg q) (b2n (decide (3 ≤ st)))).set (portRunning.pg q) (b2n (decide (st ≠ psOff))) = y at h2 ⊢
  have h3 : PortWork g Fs p c (if (d.state (portPage q) = psOff) = (st = psOff) then y else y.emit (.portTx q (decide (st ≠ psOff)))) := .ite h2 h2.emit
  generalize (if (d.state (portPage q) = psOff) = (st = psOff) then y else y.emit (.portTx q (decide (st ≠ psOff)))) = z at h3 ⊢
  refine .cond ?_ hp hg.calm hFs
  refine .ite h3 ?_
  unfold Chip.endJobs
  have h4 := h3.setPort_of q _ (hg.drop (z.port q))
  exact .ite h4.of h4

theorem streamLost (h : PortWork g Fs p c d) (q : Nat) (hFs : pageFields Fs = true := by decide) : PortWork g Fs p c (d.streamLost q) := by
  unfold Chip.streamLost
  split
  · exact h
  · have h1 : PortWork g Fs p c ((d.setPort q { d.port q with dirLost := true }).cause q cDirLost) :=
      addCause' hp hg.calm (h.setPort_of q _ (hg.link (d.port q) (d.port q).numbered true)) q _ hFs
    unfold Chip.directionLost
    exact .ite (h1.set_off hp (by decide) hFs) h1

theorem linkUp (h : PortWork g Fs p c d) (i : Identity) (q : Nat) (hFs : pageFields Fs = true := by decide) : PortWork g Fs p c (d.linkUp i q) :=
  takeId hp hg.calm (h.setPort_of q _ (hg.link (d.port q) false false)) i q hFs

/-- What follows the new state in `enterState`. -/
theorem enterState (h : PortWork g Fs p c d) (i : Identity) (q st : Nat) (hs : sparing (stateFields ++ laneFields) Fs = true := by decide)
    (hFs : pageFields Fs = true := by decide) : PortWork g Fs p c (d.enterState i q st) := by
  have hs1 : sparing stateFields Fs = true := List.all_eq_true.2 fun f hf => List.all_eq_true.1 hs f (List.mem_append_left _ hf)
  have hs2 : sparing laneFields Fs = true := List.all_eq_true.2 fun f hf => List.all_eq_true.1 hs f (List.mem_append_right _ hf)
  have h1 := setPortState hp hg h q st hs1 hFs
  unfold Chip.enterState
  dsimp only
  generalize d.setPortState q st = x at h1 ⊢
  have h2 : PortWork g Fs p c (if st = psReduced then x.cause q cReduced else x) := .ite (addCause' hp hg.calm h1 q _ hFs) h1
  generalize (if st = psReduced then x.cause q cReduced else x) = y at h2 ⊢
  have h3 : PortWork g Fs p c (if st = psFenced then (y.cause q cFenced).streamLost q else y) :=
    .ite (streamLost hp hg (addCause' hp hg.calm h2 q _ hFs) q hFs) h2
  generalize (if st = psFenced then (y.cause q cFenced).streamLost q else y) = z at h3 ⊢
  have h4 : PortWork g Fs p c (if st = psFailed then z.streamLost q else z) := .ite (streamLost hp hg h3 q hFs) h3
  generalize (if st = psFailed then z.streamLost q else z) = w at h4 ⊢
  have h5 := h4.showLanes q hs2 hFs
  exact .ite (linkUp hp hg h5 i q hFs) h5

theorem enterLaneState (h : PortWork g Fs p c d) (i : Identity) (q : Nat) (hs : sparing (stateFields ++ laneFields) Fs = true := by decide)
    (hFs : pageFields Fs = true := by decide) : PortWork g Fs p c (d.enterLaneState i q) := enterState hp hg h i q _ hs hFs

end PortWork

/-! ### A page's control, from the registers of control alone -/

theorem Chip.smFind_ctrls (c : Chip) (pg : Nat) : smFind c.ctrls (4 + 4096 * pg) = smFind c.regs (4 + 4096 * pg) := by
  unfold Chip.ctrls
  rw [smFind_filter (fun k => decide (k % 4096 = 4)), if_pos (by simp)]

theorem Chip.en_congr {c d : Chip} (hb : d.build = c.build) (h : d.ctrls = c.ctrls) (pg : Nat) : d.en pg = c.en pg := by
  have hr : ∀ x : Chip, x.rd (F.EN.pg pg).addr = (smFind x.ctrls (4 + 4096 * pg)).getD (resetWord x.build (4 + 4096 * pg)) := fun x => by
    rw [x.smFind_ctrls]
    rfl
  rw [Chip.en, Chip.on, Chip.get, hr, h, hb, ← hr, ← Chip.get, ← Chip.on, ← Chip.en]

theorem Chip.portEnabled_congr {c d : Chip} (hb : d.build = c.build) (h : d.ctrls = c.ctrls) (hu : d.inUse = c.inUse) (p : Nat) :
    d.portEnabled p = c.portEnabled p := by
  rw [Chip.portEnabled, Chip.portEnabled, Chip.en_congr hb h, hb]
  cases hB : c.build with
  | S =>
    have hm : d.portMode p = c.portMode p := by
      rw [Chip.portMode, Chip.portMode, hb, hB]
      simp only [Chip.rdUse, hu, hb]
      rfl
    rw [hm]
  | T => simp only [decide_true, Bool.true_or]

/-! ### The state of a port, entered -/

theorem Chip.port_lt {c : Chip} {p : Nat} (h : p < c.numPorts) : p < 16 := by
  unfold Chip.numPorts at h
  split at h <;> omega

/-- The registers of a state entered, before the transmitters, the queues and the event. -/
def Chip.stateShown (c : Chip) (p st : Nat) : Chip :=
  (((if (c.state (portPage p) = psReduced) = (st = psReduced) then c else c.showReduced p (decide (st = psReduced))).set (F.STATE.pg (portPage p)) st).set
    (F.FAULT.pg (portPage p)) (b2n (decide (3 ≤ st)))).set (F.RUNNING.pg (portPage p)) (b2n (decide (st ≠ psOff)))

/-- The transmitters and the queues, in state `st` after state `was`. -/
def Chip.stateQueues (y : Chip) (p was st : Nat) : Chip :=
  let y := if (was = psOff) = (st = psOff) then y else y.emit (.portTx p (decide (st ≠ psOff)))
  if st = psUp || st = psSpared || st = psReduced then y else (y.setPort p (y.port p).dropPixels).endJobs p

theorem Chip.setPortState_eq (c : Chip) (p st : Nat) :
    c.setPortState p st = ((c.stateShown p st).stateQueues p (c.state (portPage p)) st).cond (E.PORT_STATE p)
      (((c.stateShown p st).stateQueues p (c.state (portPage p)) st).en (portPage p) && decide (st ≠ psUp)) := rfl

theorem PortWork.stateQueues {Fs : List Fld} (y : Chip) (p was st : Nat) : PortWork (fun _ => ()) Fs p y (y.stateQueues p was st) := by
  unfold Chip.stateQueues
  dsimp only
  have h1 : PortWork (fun _ => ()) Fs p y (if (was = psOff) = (st = psOff) then y else y.emit (.portTx p (decide (st ≠ psOff)))) := .ite .refl (.emit .refl)
  generalize (if (was = psOff) = (st = psOff) then y else y.emit (.portTx p (decide (st ≠ psOff)))) = z at h1 ⊢
  refine .ite h1 ?_
  unfold Chip.endJobs
  have h2 := h1.setPort_of p (z.port p).dropPixels rfl
  exact .ite h2.of h2

theorem Chip.stateQueues_rd (y : Chip) (p was st a : Nat) : (y.stateQueues p was st).rd a = y.rd a := by
  have hr : (y.stateQueues p was st).regs = y.regs := by
    unfold Chip.stateQueues Chip.endJobs
    dsimp only
    have h1 : (if (was = psOff) = (st = psOff) then y else y.emit (.portTx p (decide (st ≠ psOff)))).regs = y.regs := by
      split
      · rfl
      · exact Chip.emit_regs _ _
    generalize (if (was = psOff) = (st = psOff) then y else y.emit (.portTx p (decide (st ≠ psOff)))) = z at h1 ⊢
    split
    · exact h1
    · split
      · exact h1
      · exact h1
  exact Chip.rd_congr hr (PortWork.stateQueues (Fs := []) y p was st).build a

/-- A state entered shows, with its fault. -/
theorem Chip.setPortState_shows (c : Chip) (p st : Nat) (hp : p < 16) (hs : st < 16) :
    (c.setPortState p st).state (portPage p) = st ∧ (c.setPortState p st).get (F.FAULT.pg (portPage p)) = b2n (decide (3 ≤ st)) ∧
    ((c.state (portPage p) = psReduced) ≠ (st = psReduced) → (c.setPortState p st).get (F.PORT_LINK_REDUCED.pg p) = b2n (decide (st = psReduced))) := by
  have hW : PortWork (fun _ => ()) [portState, portFault, F.PORT_LINK_REDUCED] p (c.stateShown p st) (c.setPortState p st) := by
    rw [Chip.setPortState_eq]
    exact (PortWork.stateQueues _ _ _ _).cond hp
  have hb : ∀ b, b2n b < 2 := by decide
  rw [hW.state, ← portFault_pg, hW.get portFault, hW.get F.PORT_LINK_REDUCED]
  unfold Chip.stateShown
  rw [← portFault_pg, ← portState_pg, ← portRunning_pg, Chip.state_port]
  refine ⟨?_, ?_, fun hne => ?_⟩
  · rw [Chip.get_set_pg_apart _ _ _ _ _, Chip.get_set_pg_apart _ _ _ _ _, Chip.get_set_pg _ _ _ _ (by decide) (by decide)]
    exact Nat.mod_eq_of_lt hs
  · rw [Chip.get_set_pg_apart _ _ _ _ _, Chip.get_set_pg _ _ _ _ (by decide) (by decide)]
    exact Nat.mod_eq_of_lt (hb _)
  · rw [Chip.get_set_pg_apart _ _ _ _ _, Chip.get_set_pg_apart _ _ _ _ _, Chip.get_set_pg_apart _ _ _ _ _, if_neg hne]
    unfold Chip.showReduced
    dsimp only
    have hr : ∀ w : Word, Chip.get ((c.set (F.PORT_LINK_REDUCED.pg p) (b2n (decide (st = psReduced)))).wr 0x09004C w) (F.PORT_LINK_REDUCED.pg p) =
        Chip.get (c.set (F.PORT_LINK_REDUCED.pg p) (b2n (decide (st = psReduced)))) (F.PORT_LINK_REDUCED.pg p) := fun w => by
      rw [Chip.get, Chip.rd_wr, if_neg, Chip.get]
      show 0x080040 + 4096 * p ≠ 0x09004C
      omega
    have hv : Chip.get (c.set (F.PORT_LINK_REDUCED.pg p) (b2n (decide (st = psReduced)))) (F.PORT_LINK_REDUCED.pg p) = b2n (decide (st = psReduced)) :=
      (Chip.get_set_pg _ _ _ _ (by decide) (by decide)).trans (Nat.mod_eq_of_lt (hb _))
    split
    · rw [hr, hv]
    · exact hv

/-- The map of reduced ports. -/
theorem Chip.setPortState_map (c : Chip) (p st : Nat) (hp : p < 16) (hS : c.build = .S) (hne : (c.state (portPage p) = psReduced) ≠ (st = psReduced)) :
    ((c.setPortState p st).rd 0x09004C).getLsbD p = decide (st = psReduced) := by
  rw [Chip.setPortState_eq, (Chip.quiet_cond _ _ _).2.2 _ (by decide), Chip.stateQueues_rd]
  unfold Chip.stateShown
  rw [← portFault_pg, ← portState_pg, ← portRunning_pg]
  have ha : ∀ k, k ≠ 0x4C → k < 4096 → 0x09004C ≠ 0x080000 + k + 4096 * p := fun k h1 h2 => by omega
  rw [Chip.rd_set_ne _ _ _ _ (ha 0x008 (by decide) (by decide)), Chip.rd_set_ne _ _ _ _ (ha 0x008 (by decide) (by decide)),
    Chip.rd_set_ne _ _ _ _ (ha 0x008 (by decide) (by decide)), if_neg hne]
  unfold Chip.showReduced
  dsimp only
  have hone : ((1 : Word) <<< p).getLsbD p = true := by
    rw [BitVec.getLsbD_shiftLeft]
    simp
    omega
  rw [if_pos (show (c.set _ _).build = Build.S from hS), Chip.rd_wr, if_pos rfl]
  split
  next h => rw [BitVec.getLsbD_or, hone, Bool.or_true, h]
  next h =>
    rw [BitVec.getLsbD_and, BitVec.getLsbD_not, hone, Bool.not_true, Bool.and_false, Bool.and_false]
    exact (Bool.eq_false_iff.2 h).symm

/-! ### Rates (R221) -/

theorem Chip.rd_cause_ne (c : Chip) (p b a : Nat) (ha : a ≠ causeReg p) (hq : quietReg a = true) : (c.cause p b).rd a = c.rd a := by
  have hw : ∀ w : Word, (c.wr (0x080068 + 4096 * p) w).rd a = c.rd a := fun w => by
    rw [Chip.rd_wr, if_neg (show a ≠ 0x080068 + 4096 * p from ha)]
  unfold Chip.cause
  dsimp only
  split
  · rw [(Chip.quiet_raise _ _).2.2 _ hq, hw]
  · exact hw _

theorem Chip.rd_showLanes (c : Chip) (p a : Nat) (ha : a ≠ 0x080044 + 4096 * p) : (c.showLanes p).rd a = c.rd a := by
  have h1 : ∀ (x : Chip) l, (x.showLane p l).rd a = x.rd a := fun x l => by
    obtain ⟨f, hf, he⟩ := laneFld_pg p l
    have h44 : ∀ f ∈ laneFields, f.addr = 0x080044 := by decide
    unfold Chip.showLane
    rw [he]
    refine Chip.rd_set_ne _ _ _ _ ?_
    show a ≠ f.addr + 4096 * p
    rw [h44 f hf]
    exact ha
  unfold Chip.showLanes
  rw [h1, h1, h1]

theorem Chip.portCarries_congr {c d : Chip} {p : Nat} (h : d.state (portPage p) = c.state (portPage p)) : d.portCarries p = c.portCarries p := by
  rw [Chip.portCarries, h, ← Chip.portCarries]

theorem Chip.reduceNow_shows {c : Chip} {p : Nat} (hp : p < c.numPorts) (hm : c.portMode p = 1) (ha : c.reduceAsked p = true)
    (hs : c.state (portPage p) = psUp ∨ c.state (portPage p) = psSpared) :
    (c.reduceNow p).state (portPage p) = psReduced ∧ (c.reduceNow p).get (F.PORT_LINK_REDUCED.pg p) = 1 ∧
    (c.reduceNow p).get (F.PORT_CAUSE_REDUCED.pg p) = 1 ∧ (c.build = .S → ((c.reduceNow p).rd 0x09004C).getLsbD p = true) := by
  have h16 := Chip.port_lt hp
  have hne : (c.state (portPage p) = psReduced) ≠ (psReduced = psReduced) := by
    rcases hs with h | h
    all_goals
      rw [h]
      decide
  have he : c.reduceNow p = ((c.setPortState p psReduced).cause p cReduced).showLanes p := by
    unfold Chip.reduceNow
    dsimp only
    rw [if_neg]
    simp only [Bool.or_eq_true, decide_eq_true_eq, Bool.not_eq_true', decide_not, not_or, ha, hm]
    rcases hs with h | h
    all_goals
      rw [h]
      simp
      omega
  obtain ⟨h1, -, h2⟩ := c.setPortState_shows p psReduced h16 (by decide)
  have hW : PortWork (fun _ => ()) [portState, F.PORT_LINK_REDUCED] p (c.setPortState p psReduced) (c.reduceNow p) := by
    rw [he]
    exact (PortWork.addCause .refl _ _ h16).showLanes p
  have hC : PortWork (fun _ => ()) [] p ((c.setPortState p psReduced).cause p cReduced) (c.reduceNow p) := by
    rw [he]
    exact .showLanes .refl p
  refine ⟨hW.state.trans h1, (hW.get F.PORT_LINK_REDUCED).trans (h2 hne), ?_, fun hS => ?_⟩
  · exact Chip.get_cause _ F.PORT_CAUSE_REDUCED p rfl rfl (hC.cause p _ h16 (Chip.cause_bit _ p cReduced h16 (by decide)))
  · rw [he, Chip.rd_showLanes _ _ _ (by omega), Chip.rd_cause_ne _ _ _ _ (by unfold causeReg; omega) (by decide), c.setPortState_map p _ h16 hS hne]
    rfl

/-- A state that carries the stream, from one that carries it: no link-up. -/
theorem Chip.enterState_carried (c : Chip) (i : Identity) (p st : Nat) (hc : c.portCarries p = true) (hs : st = psUp ∨ st = psSpared) :
    c.enterState i p st = (c.setPortState p st).showLanes p := by
  unfold Chip.enterState
  dsimp only
  have h1 : ¬ st = psReduced ∧ ¬ st = psFenced ∧ ¬ st = psFailed := by
    rcases hs with h | h
    all_goals
      rw [h]
      decide
  rw [if_neg h1.1, if_neg h1.2.1, if_neg h1.2.2, if_neg]
  rw [hc]
  simp

theorem Chip.laneState_full {c : Chip} {p : Nat} (h : 2 ≤ (c.port p).usable) : c.laneState p = psUp ∨ c.laneState p = psSpared := by
  unfold Chip.laneState
  dsimp only
  split
  · omega
  · omega
  · split
    · exact .inl rfl
    · exact .inr rfl
  · exact .inl rfl

theorem Chip.fullRate_shows {c : Chip} {p : Nat} (i : Identity) (hp : p < c.numPorts) (hr : c.state (portPage p) = psReduced) (ha : c.reduceAsked p = false)
    (hu : 2 ≤ (c.port p).usable) :
    (c.fullRate i p).state (portPage p) = c.laneState p ∧ (c.fullRate i p).get (F.PORT_LINK_REDUCED.pg p) = 0 ∧
    (c.build = .S → ((c.fullRate i p).rd 0x09004C).getLsbD p = false) := by
  have h16 := Chip.port_lt hp
  have hst := Chip.laneState_full hu
  have hnr : c.laneState p ≠ psReduced ∧ c.laneState p < 16 := by
    rcases hst with h | h
    all_goals
      rw [h]
      decide
  have hne : (c.state (portPage p) = psReduced) ≠ (c.laneState p = psReduced) := by
    rw [hr]
    simp [hnr.1]
  have hcar : c.portCarries p = true := by
    rw [Chip.portCarries, hr]
    rfl
  have he : c.fullRate i p = (c.setPortState p (c.laneState p)).showLanes p := by
    unfold Chip.fullRate
    rw [if_neg, Chip.enterState_carried _ _ _ _ hcar hst]
    simp [hr, ha]
    omega
  obtain ⟨h1, -, h2⟩ := c.setPortState_shows p (c.laneState p) h16 hnr.2
  have hW : PortWork (fun _ => ()) [portState, F.PORT_LINK_REDUCED] p (c.setPortState p (c.laneState p)) (c.fullRate i p) := by
    rw [he]
    exact .showLanes .refl p
  refine ⟨hW.state.trans h1, ?_, fun hS => ?_⟩
  · rw [hW.get F.PORT_LINK_REDUCED, h2 hne, decide_eq_false hnr.1]
    rfl
  · rw [he, Chip.rd_showLanes _ _ _ (by omega), c.setPortState_map p _ h16 hS hne, decide_eq_false hnr.1]

end Sys2Proof.Machine
end

