-- ==== Sys2Proof/Proofs/PortStates.lean ====
section
-- One proof at a time: proofs that wait for the kernel side by side hold more memory than the check allows.
set_option Elab.async false
/-! PROOF. Blocks, lanes, training, fences, directions and numbering of ports (R22, R213 to R222). -/

namespace Sys2Proof.Machine

/-! ### Blocks that leave a port -/

/-- Of a port `g` shows nothing of the generator states of its lanes nor of its injections. -/
structure Sends {β : Type} (g : PortSt → β) : Prop where
  scr : ∀ (s : PortSt) (l v : Nat), g (s.setLane l { s.lane l with txScr := v }) = g s
  inj : ∀ (s : PortSt) (n : Nat), g { s with injCnt := n } = g s

namespace PortWork
variable {β : Type} {g : PortSt → β} {Fs : List Fld} {p : Nat} {c d : Chip}

theorem ite_snd {α : Type} {P : Prop} [Decidable P] {x y : α × Chip} (h : PortWork g Fs p c x.2) (k : PortWork g Fs p c y.2) :
    PortWork g Fs p c (if P then x else y).2 := by
  split
  · exact h
  · exact k

theorem burst (h : PortWork g Fs p c d) (hg : Sends g) (q l : Nat) (hs : sparing [F.PORT_INJECT_ONCE] Fs = true := by decide)
    (hFs : pageFields Fs = true := by decide) : PortWork g Fs p c (d.burst q l).2 := by
  unfold Chip.burst
  have h1 : ∀ n, PortWork g Fs p c (d.setPort q { d.port q with injCnt := n }) := fun n => h.setPort_of q _ (hg.inj (d.port q) n)
  exact ite_snd h (ite_snd ((h1 _).set_pg (field_of_sparing hs (by decide)) (by decide) hFs) (h1 _))

theorem lineBlock (h : PortWork g Fs p c d) (hg : Sends g) (q : Nat) (b : LineBlock) (hs : sparing [F.PORT_INJECT_ONCE] Fs = true := by decide)
    (hFs : pageFields Fs = true := by decide) : PortWork g Fs p c (d.lineBlock q b).2 := by
  have h1 := h.setPort_of q _ (hg.scr (d.port q) b.lane (prbsAfter 64 ((d.port q).lane b.lane).txScr))
  exact h1.burst hg q b.lane hs hFs

theorem lineBlocks (h : PortWork g Fs p c d) (hg : Sends g) (q : Nat) (l : List LineBlock) (hs : sparing [F.PORT_INJECT_ONCE] Fs = true := by decide)
    (hFs : pageFields Fs = true := by decide) : PortWork g Fs p c (d.lineBlocks q l) := by
  unfold Chip.lineBlocks
  refine .ite h (.emit ?_)
  exact h.trans (foldl_rel (PortWork g Fs p) (fun _ => .refl) .trans Prod.snd
    (fun (a : List LineBlock × Chip) b => let x := a.2.lineBlock q b; (a.1 ++ [x.1], x.2)) l (fun a b _ => lineBlock .refl hg q b hs hFs) ([], d))

theorem trainStream (h : PortWork g Fs p c d) (hg : Sends g) (q : Nat) (r : Bool) (hs : sparing [F.PORT_INJECT_ONCE] Fs = true := by decide)
    (hFs : pageFields Fs = true := by decide) : PortWork g Fs p c (d.trainStream q r) := lineBlocks h hg q _ hs hFs

theorem injectPattern (h : PortWork g Fs p c d) (q : Nat) (hs : sparing [F.PORT_INJECT_ONCE] Fs = true := by decide)
    (hFs : pageFields Fs = true := by decide) : PortWork g Fs p c (d.injectPattern q) := by
  unfold Chip.injectPattern
  exact .ite h (.emit (h.set_pg (field_of_sparing hs (by decide)) (by decide) hFs))

theorem showPatterns (h : PortWork g Fs p c d) (q : Nat) (was : List Nat) (hs : sparing [F.PORT_INJECT_ONCE] Fs = true := by decide)
    (hFs : pageFields Fs = true := by decide) : PortWork g Fs p c (d.showPatterns q was) := by
  unfold Chip.showPatterns
  have h1 := h.foldl (l := [0, 1, 2]) (f := fun c l => let k := c.genPattern q l
    if k = 0 && was.getD l 0 = 0 then c else c.emit (.pattern q l k
      (d.get (F.PORT_USER_LO_USER_LO.pg q) + d.get (F.PORT_USER_HI_USER_HI.pg q) * 2 ^ 32))) (fun x b _ => .ite .refl (.emit .refl))
  exact .ite (h1.injectPattern q hs hFs) h1

end PortWork

theorem Fld.pg_plus (f : Fld) (p k : Nat) : (f.pg p).plus k = (f.plus k).pg p := by
  simp only [Fld.pg, Fld.plus, Fld.mk.injEq, and_true]
  omega

/-! ### A port that starts again, and one that fails -/

/-- A port with its state fresh enters TRAIN or OFF. -/
def Chip.portFresh (c : Chip) (p : Nat) : Chip :=
  let st := if c.portEnabled p then psTrain else psOff
  let c := c.setPortState p st
  let c := ((c.set (F.PORT_LINK_CLK_OK.pg p) 0).set (F.PORT_LINK_ALIGNED.pg p) 0).set (F.PORT_LINK_RX_MAP.pg p) 0
  let code := if st = psTrain then lnTrain else lnOff
  let c := [0, 1, 2].foldl (fun c l => c.set (laneFld p l) (if ((c.port p).lane l).retired then lnRetired else code)) c
  if st = psTrain then c.trainStream p false else c.showPatterns p []

theorem Chip.portRestart_eq (c : Chip) (p : Nat) :
    ∃ s : PortSt, c.portRestart p = ((((((c.testOff p).openValue 31).2.openValue 31).2.openValue 31).2.setPort p s).bulkSettled).portFresh p := ⟨_, rfl⟩

theorem PortWork.testOff {β : Type} {g : PortSt → β} {Fs : List Fld} {p q : Nat} {c d : Chip} (h : PortWork g Fs p c d)
    (hg : ∀ s : PortSt, ∀ f : LaneSt → LaneSt, f = (fun x => { x with chkHist := 0, chkSeen := 0, chkRun := 0, chkFirst := false }) →
      g { s with lane0 := f s.lane0, lane1 := f s.lane1, lane2 := f s.lane2 } = g s)
    (hs : sparing [F.PORT_TEST_ERR1_LOCK, F.PORT_TEST_ERR1_LOCK.plus 8, F.PORT_TEST_ERR1_LOCK.plus 16] Fs = true := by decide)
    (hFs : pageFields Fs = true := by decide) : PortWork g Fs p c (d.testOff q) := by
  have hl : ∀ l ∈ [0, 1, 2], F.PORT_TEST_ERR1_LOCK.plus (8 * l) ∈ [F.PORT_TEST_ERR1_LOCK, F.PORT_TEST_ERR1_LOCK.plus 8, F.PORT_TEST_ERR1_LOCK.plus 16] ∧
    (decide ((F.PORT_TEST_ERR1_LOCK.plus (8 * l)).addr / 4096 = 0x080) && decide ((F.PORT_TEST_ERR1_LOCK.plus (8 * l)).addr % 4096 ≠ 0x68) &&
      decide (plainReg (F.PORT_TEST_ERR1_LOCK.plus (8 * l)).addr = true)) = true := by decide
  unfold Chip.testOff
  refine .foldl (h.setPort_of _ _ (hg _ _ rfl)) fun x l hl' => ?_
  obtain ⟨h1, h2⟩ := hl l hl'
  rw [Fld.pg_plus]
  exact .set_pg .refl (field_of_sparing hs h1) h2 hFs

/-- A port leaves its state for TRAIN where it is enabled, for OFF otherwise. -/
theorem Chip.portFresh_state (c : Chip) (p : Nat) (hp : p < 16) : (c.portFresh p).state (portPage p) = if c.portEnabled p then psTrain else psOff := by
  unfold Chip.portFresh
  dsimp only
  have h1 := (c.setPortState_shows p (if c.portEnabled p then psTrain else psOff) hp (by split <;> decide)).1
  generalize (if c.portEnabled p then psTrain else psOff) = st at h1 ⊢
  have h2 : PortWork (fun _ => ()) [portState] p (c.setPortState p st)
      ((((c.setPortState p st).set (F.PORT_LINK_CLK_OK.pg p) 0).set (F.PORT_LINK_ALIGNED.pg p) 0).set (F.PORT_LINK_RX_MAP.pg p) 0) :=
    ((PortWork.refl.set_pg (by decide)).set_pg (by decide)).set_pg (by decide)
  generalize (((c.setPortState p st).set (F.PORT_LINK_CLK_OK.pg p) 0).set (F.PORT_LINK_ALIGNED.pg p) 0).set (F.PORT_LINK_RX_MAP.pg p) 0 = x at h2 ⊢
  have hl : ∀ f ∈ laneFields, [portState].all (fun g => g.apart f) = true ∧
    (decide (f.addr / 4096 = 0x080) && decide (f.addr % 4096 ≠ 0x68) && decide (plainReg f.addr = true)) = true := by decide
  have h3 := h2.foldl (l := [0, 1, 2]) (f := fun c l => c.set (laneFld p l) (if ((c.port p).lane l).retired then lnRetired else if st = psTrain then lnTrain else lnOff))
    fun y l _ => by
      obtain ⟨f, hf, he⟩ := laneFld_pg p l
      obtain ⟨h1, h2⟩ := hl f hf
      rw [he]
      exact .set_pg .refl h1 h2
  have hg : Sends (fun _ : PortSt => ()) := ⟨fun _ _ _ => rfl, fun _ _ => rfl⟩
  generalize List.foldl _ x [0, 1, 2] = y at h3 ⊢
  exact (PortWork.ite (h3.trainStream hg p false) (h3.showPatterns p [])).state.trans h1

theorem Chip.portRestart_state (c : Chip) (p : Nat) (hp : p < 16) :
    (c.portRestart p).state (portPage p) = if c.portEnabled p then psTrain else psOff := by
  obtain ⟨s, he⟩ := c.portRestart_eq p
  have h1 : PortWork (fun _ => ()) [] p c (c.testOff p) := PortWork.refl.testOff (fun _ _ _ => rfl)
  have h2 : ∀ x : Chip, PortWork (fun _ => ()) [] p x (x.openValue 31).2 := fun x => .of .refl
  have h3 := ((h1.trans (h2 _)).trans (h2 _)).trans (h2 _)
  generalize (((c.testOff p).openValue 31).2.openValue 31).2.openValue 31 = r at h3 he
  have h4 : PortWork (fun _ => ()) [] p c (r.2.setPort p s).bulkSettled := by
    have k := h3.setPort_of p s rfl
    unfold Chip.bulkSettled
    exact .ite (k.set_off hp) k
  rw [he, Chip.portFresh_state _ _ hp, Chip.portEnabled_congr h4.build h4.ctrls h4.inUse]

/-- A port without its forwarded clock. -/
theorem Chip.clkLoss_shows (c : Chip) (p : Nat) (hp : p < 16) (h : c.state (portPage p) ≠ psOff) :
    (c.clkLoss p).state (portPage p) = psFailed ∧ (c.clkLoss p).get (F.PORT_LINK_CLK_OK.pg p) = 0 ∧ ((c.clkLoss p).port p).trained = false := by
  have hg : Dull PortSt.trained := .comp _ (fun _ => rfl)
  unfold Chip.clkLoss
  rw [if_neg h]
  dsimp only
  have h0 : Chip.get ((c.set (F.PORT_LINK_CLK_OK.pg p) 0).set (F.PORT_LINK_ALIGNED.pg p) 0) (F.PORT_LINK_CLK_OK.pg p) = 0 := by
    rw [Chip.get_set_pg_apart _ _ _ _ _, Chip.get_set_pg _ _ _ _ (by decide) (by decide)]
    rfl
  generalize (c.set (F.PORT_LINK_CLK_OK.pg p) 0).set (F.PORT_LINK_ALIGNED.pg p) 0 = x at h0 ⊢
  have h1 : PortWork (fun _ => ()) [F.PORT_LINK_CLK_OK] p x (x.setPort p { x.port p with trained := false, rxMarker := none }) := .setPort_of .refl _ _ rfl
  have ht : ((x.setPort p { x.port p with trained := false, rxMarker := none }).port p).trained = false := by rw [Chip.port_setPort, if_pos rfl]
  generalize x.setPort p { x.port p with trained := false, rxMarker := none } = y at h1 ht ⊢
  have h2 : PortWork PortSt.trained [F.PORT_LINK_CLK_OK] p y (y.setPortState p psFailed) := .setPortState hp hg .refl p _
  have h3 : PortWork PortSt.trained [portState, F.PORT_LINK_CLK_OK] p (y.setPortState p psFailed) (((y.setPortState p psFailed).streamLost p).showLanes p) :=
    .showLanes (.streamLost hp hg .refl p) p
  refine ⟨h3.state.trans (y.setPortState_shows p psFailed hp (by decide)).1, ?_, ?_⟩
  · rw [h3.get F.PORT_LINK_CLK_OK, h2.get F.PORT_LINK_CLK_OK, h1.get F.PORT_LINK_CLK_OK, h0]
  · exact (h3.port.trans h2.port).trans ht

/-- A command that a tile follows by looking which ring it obeys. -/
theorem PortWork.obeying {β : Type} {g : PortSt → β} {Fs : List Fld} {p : Nat} {c : Chip} {f : Chip → Chip} (hp : p < 16)
    (hc : ∀ s, g s.calm = g s := by intros; rfl) (hFs : pageFields Fs = true := by decide) : PortWork g Fs p (f c) (Chip.obeying f c) := by
  unfold Chip.obeying
  split
  · exact .refl
  · exact .obeyShow hp hc .refl hFs

/-! ### The lanes as they show (R217 to R220) -/

/-- The code of a lane. -/
def Chip.laneCode (c : Chip) (p l : Nat) : Nat :=
  let s := c.port p
  let x := s.lane l
  if x.retired then lnRetired
  else if c.state (portPage p) = psFailed then lnFailed
  else if !x.trained then lnTrain
  else if s.recalIn l .live .back then lnRecal
  else if c.laneInUse p l then (if l < 2 && c.rxMap p = l + 1 then lnCopy else lnInUse)
  else lnSpare

theorem Chip.showLane_eq (c : Chip) (p l : Nat) : c.showLane p l = c.set (laneFld p l) (c.laneCode p l) := rfl

theorem Chip.rxMap_congr {c d : Chip} {p : Nat} (hm : d.get (F.PORT_LINK_RX_MAP.pg p) = c.get (F.PORT_LINK_RX_MAP.pg p)) : d.rxMap p = c.rxMap p := by
  rw [Chip.rxMap, hm, ← Chip.rxMap]

theorem Chip.laneCode_congr {c d : Chip} {p : Nat} (hp : d.port p = c.port p) (hs : d.state (portPage p) = c.state (portPage p))
    (hm : d.get (F.PORT_LINK_RX_MAP.pg p) = c.get (F.PORT_LINK_RX_MAP.pg p)) (l : Nat) : d.laneCode p l = c.laneCode p l := by
  have hr := Chip.rxMap_congr hm
  simp only [Chip.laneCode, Chip.laneInUse, Chip.carrier, Chip.onSpare, hp, hs, hr]
  rfl

/-- The lanes of a port as `showLanes` shows them. -/
theorem Chip.showLanes_get (c : Chip) (p l : Nat) (hl : l < 3) : (c.showLanes p).get (laneFld p l) = c.laneCode p l := by
  have hcode : ∀ (x : Chip) l, x.laneCode p l < 16 := fun x l => by
    unfold Chip.laneCode
    dsimp only
    repeat' split
    all_goals decide
  have hstep : ∀ (x : Chip) k, PortWork id [portState, F.PORT_LINK_RX_MAP] p x (x.showLane p k) := fun x k => .showLane .refl p k (by decide) (by decide)
  have hkeep : ∀ (x : Chip) k j, (x.showLane p k).laneCode p j = x.laneCode p j := fun x k j =>
    Chip.laneCode_congr (hstep x k).port (hstep x k).state ((hstep x k).get F.PORT_LINK_RX_MAP) j
  have hself : ∀ (x : Chip) k, (x.showLane p k).get (laneFld p k) = x.laneCode p k := fun x k => by
    obtain ⟨f, hf, he⟩ := laneFld_pg p k
    have hw : ∀ f ∈ laneFields, f.lo ≤ f.hi ∧ f.hi < 32 ∧ 2 ^ (f.hi + 1 - f.lo) = 16 := by decide
    obtain ⟨h1, h2, h3⟩ := hw f hf
    rw [Chip.showLane_eq, he, Chip.get_set_pg _ _ _ _ h1 h2, h3]
    exact Nat.mod_eq_of_lt (hcode x k)
  have hother : ∀ (x : Chip) (j k : Nat), j < 3 → k < 3 → j ≠ k → (x.showLane p k).get (laneFld p j) = x.get (laneFld p j) := fun x j k hj hk hne => by
    have hap : ∀ j < 3, ∀ k < 3, j ≠ k → (laneFld 0 j).apart (laneFld 0 k) = true := by decide
    have hpg : ∀ l, laneFld p l = (laneFld 0 l).pg p := fun l => by
      unfold laneFld
      split <;> rfl
    rw [Chip.showLane_eq, hpg, hpg]
    exact Chip.get_set_pg_apart _ _ _ _ _ (hap j hj k hk hne)
  unfold Chip.showLanes
  interval_cases l
  · rw [hother _ 0 2 (by decide) (by decide) (by decide), hother _ 0 1 (by decide) (by decide) (by decide), hself]
  · rw [hother _ 1 2 (by decide) (by decide) (by decide), hself, hkeep]
  · rw [hself, hkeep, hkeep]

/-! ### A receiver trained (R215) -/

/-- What training shows of a port. -/
def PortSt.trainView (s : PortSt) : Bool × Bool × Option Recal × Option Nat × SMap Word × List (Bool × Bool) :=
  (s.trained, s.peerReady, s.recal, s.spareFor, s.calUse, [s.lane0, s.lane1, s.lane2].map (fun x => (x.trained, x.retired)))

theorem PortSt.trainView_dull : Dull PortSt.trainView := .comp _ (fun _ => rfl)

theorem PortSt.trainView_sends : Sends PortSt.trainView := by
  refine ⟨fun s l v => ?_, fun _ _ => rfl⟩
  match l with
  | 0 => rfl
  | 1 => rfl
  | _ + 2 => rfl

/-- The lanes of a port trained, with the settings found; `ok` says which lanes stay in service. -/
def PortSt.afterTraining (s : PortSt) (r : Training) (ok : Nat → Bool) : PortSt :=
  let lane := fun (l : Nat) =>
    { s.lane l with locked := true, trained := true, retired := !ok l, restore := (s.lane l).restore && !ok l, lowEyes := 0, valids := 0, heads := 0 }
  { s with
    lane0 := lane 0, lane1 := lane 1, lane2 := lane 2, trained := true, spareFor := none,
    calUse := [0, 1, 2].foldl (fun m l => smSet m l (r.settings.getD l 0)) s.calUse }

/-- A lane that may come back, with an eye. -/
def Chip.laneFit (c : Chip) (p : Nat) (r : Training) (l : Nat) : Bool :=
  (!((c.port p).lane l).retired || ((c.port p).lane l).restore) && c.eyeOk p (r.widths.getD l 0) (r.heights.getD l 0)

/-- A port with the eyes of its lanes shown, its clock there and RX_READY on its way. -/
def Chip.ready (c : Chip) (p : Nat) (r : Training) (lost : Bool) : Chip :=
  let c := [0, 1, 2].foldl (fun c l => c.showEye p l (r.widths.getD l 0) (r.heights.getD l 0)) c
  let c := (c.set (F.PORT_LINK_CLK_OK.pg p) 1).trainStream p true
  let c := if lost then c.cause p cLaneRetired else c
  c.showLanes p

theorem Chip.portTrained_eq (c : Chip) (i : Identity) (p : Nat) (r : Training) (h : c.state (portPage p) = psTrain) :
    ∃ b, c.portTrained i p r = ((c.setPort p ((c.port p).afterTraining r (c.laneFit p r)).assignSpare).ready p r b).bothTrained i p := by
  unfold Chip.portTrained
  rw [if_neg (by simpa using h)]
  exact ⟨_, rfl⟩

/-- Training done keeps the state and what training shows, and the clock is there. -/
theorem Chip.ready_shows (c : Chip) (p : Nat) (r : Training) (b : Bool) (hp : p < 16) :
    PortWork PortSt.trainView [portState, F.PORT_LINK_RX_MAP] p c (c.ready p r b) ∧ (c.ready p r b).get (F.PORT_LINK_CLK_OK.pg p) = 1 := by
  unfold Chip.ready
  dsimp only
  have h1 : PortWork PortSt.trainView [portState, F.PORT_LINK_RX_MAP] p c
      ([0, 1, 2].foldl (fun c l => c.showEye p l (r.widths.getD l 0) (r.heights.getD l 0)) c) := by
    refine .foldl .refl fun x l hl => ?_
    have h3 : l < 3 := by
      simp only [List.mem_cons, List.not_mem_nil, or_false] at hl
      omega
    unfold Chip.showEye
    refine .wr .refl (fun f hf => ?_) (fun q _ => ?_) ?_
    · simp only [List.mem_cons, List.not_mem_nil, or_false] at hf
      rcases hf with rfl | rfl
      · show 0x080008 + 4096 * p ≠ _
        omega
      · show 0x080040 + 4096 * p ≠ _
        omega
    · unfold causeReg
      omega
    · simp only [plainReg, Bool.and_eq_true, decide_eq_true_eq]
      omega
  generalize List.foldl _ c [0, 1, 2] = x at h1 ⊢
  have h2 : PortWork PortSt.trainView [portState, F.PORT_LINK_RX_MAP] p c (x.set (F.PORT_LINK_CLK_OK.pg p) 1) := h1.set_pg (by decide)
  have hv : (x.set (F.PORT_LINK_CLK_OK.pg p) 1).get (F.PORT_LINK_CLK_OK.pg p) = 1 := Chip.get_set_pg _ _ _ _ (by decide) (by decide)
  generalize x.set (F.PORT_LINK_CLK_OK.pg p) 1 = y at h2 hv ⊢
  have h3 : PortWork PortSt.trainView [portState, F.PORT_LINK_RX_MAP, F.PORT_LINK_CLK_OK] p y (y.trainStream p true) :=
    .trainStream .refl PortSt.trainView_sends p true
  generalize y.trainStream p true = z at h3 ⊢
  have h4 : PortWork PortSt.trainView [portState, F.PORT_LINK_RX_MAP, F.PORT_LINK_CLK_OK] p y ((if b then z.cause p cLaneRetired else z).showLanes p) :=
    .showLanes (.ite (h3.addCause p _ hp PortSt.trainView_dull.calm) h3) p
  exact ⟨h2.trans (h4.mono h4.port), (h4.get F.PORT_LINK_CLK_OK).trans hv⟩

theorem PortSt.assignSpare_spare (s : PortSt) : ∃ v, s.assignSpare = { s with spareFor := v } := by
  unfold PortSt.assignSpare
  split
  · exact ⟨s.spareFor, rfl⟩
  · split
    · exact ⟨_, rfl⟩
    · split
      · exact ⟨_, rfl⟩
      · exact ⟨s.spareFor, rfl⟩

theorem PortSt.afterTraining_view (s : PortSt) (r : Training) (ok : Nat → Bool) :
    (s.afterTraining r ok).trainView = (true, s.peerReady, s.recal, none, [0, 1, 2].foldl (fun m l => smSet m l (r.settings.getD l 0)) s.calUse,
      [(true, !ok 0), (true, !ok 1), (true, !ok 2)]) := rfl

/-- With every lane in service no spare is assigned. -/
theorem PortSt.assignSpare_none (s : PortSt) (h0 : s.lane0.usable = true) (h1 : s.lane1.usable = true) : s.assignSpare = s := by
  unfold PortSt.assignSpare
  simp only [h0, h1, Bool.not_true, Bool.false_eq_true, if_false, ite_self]

/-- A trained view of three lanes in service, none recalibrated. -/
def PortSt.allIn (s : PortSt) : Prop :=
  s.trained = true ∧ s.recal = none ∧ s.spareFor = none ∧ [s.lane0, s.lane1, s.lane2].map (fun x => (x.trained, x.retired)) = [(true, false), (true, false), (true, false)]

theorem PortSt.allIn_of_view {s t : PortSt} (h : t.trainView = s.trainView) (hs : s.allIn) : t.allIn := by
  obtain ⟨h1, h2, h3, h4⟩ := hs
  simp only [PortSt.trainView, Prod.mk.injEq] at h
  obtain ⟨k1, -, k2, k3, -, k4⟩ := h
  exact ⟨k1.trans h1, k2.trans h2, k3.trans h3, k4.trans h4⟩

theorem PortSt.allIn_lane {s : PortSt} (h : s.allIn) (l : Nat) : (s.lane l).trained = true ∧ (s.lane l).retired = false := by
  obtain ⟨-, -, -, h⟩ := h
  simp only [List.map_cons, List.map_nil, List.cons.injEq, Prod.mk.injEq, and_true] at h
  obtain ⟨h0, h1, h2⟩ := h
  unfold PortSt.lane
  split
  · exact h0
  · exact h1
  · exact h2

theorem PortSt.allIn_usable {s : PortSt} (h : s.allIn) : s.usable = 3 := by
  obtain ⟨a0, b0⟩ := s.allIn_lane h 0
  obtain ⟨a1, b1⟩ := s.allIn_lane h 1
  obtain ⟨a2, b2⟩ := s.allIn_lane h 2
  have e0 : s.lane0.usable = true := by rw [LaneSt.usable, show s.lane0.trained = true from a0, show s.lane0.retired = false from b0]; rfl
  have e1 : s.lane1.usable = true := by rw [LaneSt.usable, show s.lane1.trained = true from a1, show s.lane1.retired = false from b1]; rfl
  have e2 : s.lane2.usable = true := by rw [LaneSt.usable, show s.lane2.trained = true from a2, show s.lane2.retired = false from b2]; rfl
  simp [PortSt.usable, e0, e1, e2]

/-- The codes of three lanes in service under lane map 0. -/
theorem Chip.laneCode_allIn {c : Chip} {p : Nat} (h : (c.port p).allIn) (hs : c.state (portPage p) = psUp) (hm : c.rxMap p = 0) (l : Nat) (hl : l < 3) :
    c.laneCode p l = if l = 2 then lnSpare else lnInUse := by
  obtain ⟨ht, hr⟩ := PortSt.allIn_lane h l
  obtain ⟨-, hrec, -, -⟩ := h
  have hcar : ∀ k, c.carrier p k = k % 2 := fun k => by
    unfold Chip.carrier Chip.onSpare
    simp [hm, mapReduced]
  have hin : c.laneInUse p l = decide (l < 2) := by
    rw [Chip.laneInUse, hcar, hcar, LaneSt.usable, ht, hr]
    interval_cases l <;> rfl
  have hri : (c.port p).recalIn l .live .back = false := by rw [PortSt.recalIn, hrec]
  unfold Chip.laneCode
  simp only [hr, hs, ht, hri, hin, hm]
  interval_cases l <;> rfl

/-- What a port trained from both ends shows. -/
def linkFields : List Fld := [portState, F.PORT_LINK_CLK_OK, F.PORT_LANES_D0, F.PORT_LANES_D1, F.PORT_LANES_SP]

/-- Both directions trained: the port is UP with its lanes in use. -/
theorem Chip.bothTrained_up (c : Chip) (i : Identity) (p : Nat) (hp : p < 16) (hs : c.state (portPage p) = psTrain) (ha : (c.port p).allIn)
    (hr : (c.port p).peerReady = true) (hm : c.rxMap p = 0) :
    (c.bothTrained i p).state (portPage p) = psUp ∧ (∀ l < 3, (c.bothTrained i p).get (laneFld p l) = if l = 2 then lnSpare else lnInUse) ∧
    (c.bothTrained i p).get (F.PORT_LINK_CLK_OK.pg p) = c.get (F.PORT_LINK_CLK_OK.pg p) ∧ ((c.bothTrained i p).port p).calUse = (c.port p).calUse := by
  have hd := PortSt.trainView_dull
  have hcond : (decide (c.state (portPage p) = psTrain) && (c.port p).trained && (c.port p).peerReady) = true := by
    obtain ⟨ht, -, -, -⟩ := ha
    rw [hs, ht, hr]
    rfl
  have h1 : PortWork PortSt.trainView [portState, F.PORT_LINK_CLK_OK, F.PORT_LINK_RX_MAP] p c (c.setPort p { c.port p with dirLost := false }) :=
    .setPort_of .refl p _ rfl
  have he : c.bothTrained i p = (c.setPort p { c.port p with dirLost := false }).enterLaneState i p := by
    unfold Chip.bothTrained
    exact if_pos hcond
  rw [he]
  generalize c.setPort p { c.port p with dirLost := false } = x at h1 ⊢
  have hxs : x.state (portPage p) = psTrain := h1.state.trans hs
  have hx := PortSt.allIn_of_view h1.port ha
  have hst : x.laneState p = psUp := by
    unfold Chip.laneState
    dsimp only
    rw [PortSt.allIn_usable hx]
    rfl
  have he2 : x.enterLaneState i p = ((x.setPortState p psUp).showLanes p).linkUp i p := by
    have he3 : x.enterLaneState i p = x.enterState i p psUp := by
      unfold Chip.enterLaneState
      dsimp only
      rw [hst, hxs]
      rfl
    have hn : ¬ psUp = psReduced ∧ ¬ psUp = psFenced ∧ ¬ psUp = psFailed := by decide
    rw [he3]
    unfold Chip.enterState
    dsimp only
    rw [if_neg hn.1, if_neg hn.2.1, if_neg hn.2.2, if_pos]
    have h2 : PortWork (fun _ => ()) [portState] p (x.setPortState p psUp) ((x.setPortState p psUp).showLanes p) := .showLanes .refl p
    rw [Chip.portCarries, Chip.portCarries, hxs, h2.state, (x.setPortState_shows p psUp hp (by decide)).1]
    rfl
  rw [he2]
  have h2 : PortWork PortSt.trainView [F.PORT_LINK_CLK_OK, F.PORT_LINK_RX_MAP] p x (x.setPortState p psUp) := .setPortState hp hd .refl p _
  have hys := (x.setPortState_shows p psUp hp (by decide)).1
  generalize x.setPortState p psUp = y at h2 hys ⊢
  have h3 : PortWork PortSt.trainView [portState, F.PORT_LINK_CLK_OK] p y (y.showLanes p) := .showLanes .refl p
  have h4 : PortWork PortSt.trainView linkFields p (y.showLanes p) ((y.showLanes p).linkUp i p) := .linkUp hp hd .refl i p
  have hcal : ∀ {a b : Chip}, (b.port p).trainView = (a.port p).trainView → (b.port p).calUse = (a.port p).calUse := fun h => by
    simp only [PortSt.trainView, Prod.mk.injEq] at h
    exact h.2.2.2.2.1
  have hmap : y.rxMap p = 0 := by rw [Chip.rxMap_congr (h2.get F.PORT_LINK_RX_MAP), Chip.rxMap_congr (h1.get F.PORT_LINK_RX_MAP), hm]
  refine ⟨?_, fun l hl => ?_, ?_, ?_⟩
  · rw [h4.state, h3.state, hys]
  · obtain ⟨f, hf, hfe⟩ := laneFld_pg p l
    have hin : ∀ f ∈ laneFields, f ∈ linkFields := by decide
    have hlane : ((y.showLanes p).linkUp i p).get (laneFld p l) = (y.showLanes p).get (laneFld p l) := by
      rw [hfe]
      exact h4.get f (hin f hf)
    rw [hlane, Chip.showLanes_get y p l hl]
    exact Chip.laneCode_allIn (PortSt.allIn_of_view h2.port hx) hys hmap l hl
  · rw [h4.get F.PORT_LINK_CLK_OK, h3.get F.PORT_LINK_CLK_OK, h2.get F.PORT_LINK_CLK_OK, h1.get F.PORT_LINK_CLK_OK]
  · rw [hcal h4.port, hcal h3.port, hcal h2.port, hcal h1.port]

/-- A receiver trained before the other end: the port stays in TRAIN. -/
theorem Chip.portTrained_alone (c : Chip) (i : Identity) (p : Nat) (r : Training) (hp : p < 16) (hs : c.state (portPage p) = psTrain)
    (hr : (c.port p).peerReady = false) :
    (c.portTrained i p r).state (portPage p) = psTrain ∧ ((c.portTrained i p r).port p).trained = true ∧
    (c.portTrained i p r).get (F.PORT_LINK_CLK_OK.pg p) = 1 := by
  obtain ⟨b, he⟩ := c.portTrained_eq i p r hs
  obtain ⟨v, hv⟩ := ((c.port p).afterTraining r (c.laneFit p r)).assignSpare_spare
  rw [hv] at he
  have h0 : PortWork (fun _ => ()) [portState] p c (c.setPort p { (c.port p).afterTraining r (c.laneFit p r) with spareFor := v }) := .setPort_of .refl p _ rfl
  have hport : (c.setPort p { (c.port p).afterTraining r (c.laneFit p r) with spareFor := v }).port p = { (c.port p).afterTraining r (c.laneFit p r) with spareFor := v } := by
    rw [Chip.port_setPort, if_pos rfl]
  generalize c.setPort p { (c.port p).afterTraining r (c.laneFit p r) with spareFor := v } = x at h0 hport he
  obtain ⟨h1, hclk⟩ := x.ready_shows p r b hp
  have hview := h1.port
  rw [hport] at hview
  simp only [PortSt.trainView, Prod.mk.injEq] at hview
  obtain ⟨ht, hpr, -⟩ := hview
  have hno : ((x.ready p r b).bothTrained i p) = x.ready p r b := by
    unfold Chip.bothTrained
    refine if_neg ?_
    rw [hpr, show ({ (c.port p).afterTraining r (c.laneFit p r) with spareFor := v } : PortSt).peerReady = false from hr]
    simp
  rw [he, hno]
  exact ⟨h1.state.trans (h0.state.trans hs), ht, hclk⟩

/-- A receiver trained on all lanes, after the other end. -/
theorem Chip.portTrained_up (c : Chip) (i : Identity) (p : Nat) (r : Training) (hp : p < 16) (hs : c.state (portPage p) = psTrain)
    (hr : (c.port p).peerReady = true) (hm : c.rxMap p = 0) (hrec : (c.port p).recal = none) (hok : ∀ l < 3, c.laneFit p r l = true) :
    (c.portTrained i p r).state (portPage p) = psUp ∧ (∀ l < 3, (c.portTrained i p r).get (laneFld p l) = if l = 2 then lnSpare else lnInUse) ∧
    (c.portTrained i p r).get (F.PORT_LINK_CLK_OK.pg p) = 1 ∧ ∀ l < 3, smGet 0 ((c.portTrained i p r).port p).calUse l = r.settings.getD l 0 := by
  obtain ⟨b, he⟩ := c.portTrained_eq i p r hs
  have hus : ∀ x : LaneSt, x.trained = true → x.retired = false → x.usable = true := fun x h1 h2 => by rw [LaneSt.usable, h1, h2]; rfl
  rw [PortSt.assignSpare_none _ (hus _ rfl (by show (!c.laneFit p r 0) = false; rw [hok 0 (by decide)]; rfl))
    (hus _ rfl (by show (!c.laneFit p r 1) = false; rw [hok 1 (by decide)]; rfl))] at he
  have h0 : PortWork (fun _ => ()) [portState, F.PORT_LINK_RX_MAP] p c (c.setPort p ((c.port p).afterTraining r (c.laneFit p r))) := .setPort_of .refl p _ rfl
  have hport : (c.setPort p ((c.port p).afterTraining r (c.laneFit p r))).port p = (c.port p).afterTraining r (c.laneFit p r) := by
    rw [Chip.port_setPort, if_pos rfl]
  generalize c.setPort p ((c.port p).afterTraining r (c.laneFit p r)) = x at h0 hport he
  obtain ⟨h1, hclk⟩ := x.ready_shows p r b hp
  have hview := h1.port
  rw [hport, PortSt.afterTraining_view, hok 0 (by decide), hok 1 (by decide), hok 2 (by decide), hr, hrec] at hview
  simp only [PortSt.trainView, Prod.mk.injEq] at hview
  obtain ⟨ht, hpr, hre, hsp, hcal, hl⟩ := hview
  have hmap : (x.ready p r b).rxMap p = 0 := by rw [Chip.rxMap_congr (h1.get F.PORT_LINK_RX_MAP), Chip.rxMap_congr (h0.get F.PORT_LINK_RX_MAP), hm]
  obtain ⟨k1, k2, k3, k4⟩ := (x.ready p r b).bothTrained_up i p hp (h1.state.trans (h0.state.trans hs)) ⟨ht, hre, hsp, hl⟩ hpr hmap
  rw [he]
  refine ⟨k1, k2, k3.trans hclk, fun l hl3 => ?_⟩
  rw [k4, hcal]
  simp only [List.foldl_cons, List.foldl_nil]
  interval_cases l <;> simp

/-! ### Fences, directions and numbering (R22, R213, R214, R222) -/

/-- A ring link with one usable lane. -/
theorem Chip.fenced_shows (c : Chip) (i : Identity) (p : Nat) (hp : p < 16) (hm : c.portMode p = 2 ∨ c.portMode p = 3) (hu : (c.port p).usable = 1)
    (hc : c.portCarries p = true) :
    (c.enterLaneState i p).state (portPage p) = psFenced ∧ (c.enterLaneState i p).get (F.PORT_CAUSE_FENCED.pg p) = 1 := by
  have hg : Dull (fun _ : PortSt => ()) := ⟨fun _ => rfl, fun _ _ _ => rfl, fun _ => rfl⟩
  have hst : c.laneState p = psFenced := by
    unfold Chip.laneState
    dsimp only
    rw [hu]
    exact if_pos (by simpa using hm)
  have he : c.enterLaneState i p = c.enterState i p psFenced := by
    unfold Chip.enterLaneState
    dsimp only
    rw [hst, if_neg]
    simp only [Bool.and_eq_true, Bool.or_eq_true, decide_eq_true_eq]
    rintro ⟨-, h | h⟩ <;> exact absurd h (by decide)
  have he2 : c.enterState i p psFenced = (((c.setPortState p psFenced).cause p cFenced).streamLost p).showLanes p := by
    have hn : ¬ psFenced = psReduced ∧ ¬ psFenced = psFailed := by decide
    unfold Chip.enterState
    dsimp only
    rw [if_neg hn.1, if_pos rfl, if_neg hn.2, hc]
    rfl
  rw [he, he2]
  have h1 : PortWork (fun _ => ()) [portState] p (c.setPortState p psFenced) ((c.setPortState p psFenced).cause p cFenced) := .addCause .refl p _ hp
  have h2 : PortWork (fun _ => ()) [portState] p ((c.setPortState p psFenced).cause p cFenced)
      ((((c.setPortState p psFenced).cause p cFenced).streamLost p).showLanes p) := .showLanes (.streamLost hp hg .refl p) p
  refine ⟨(h1.trans h2).state.trans (c.setPortState_shows p _ hp (by decide)).1, ?_⟩
  exact Chip.get_cause _ F.PORT_CAUSE_FENCED p rfl rfl (h2.cause p _ hp (Chip.cause_bit _ p cFenced hp (by decide)))

/-- A direction lost. -/
theorem Chip.directionLost_shows (c : Chip) (p : Nat) (hp : p < 16) :
    ((c.directionLost p).port p).dirLost = true ∧ ((c.directionLost p).rd (causeReg p)).getLsbD cDirLost = true := by
  unfold Chip.directionLost
  dsimp only
  have h0 : ((c.setPort p { c.port p with dirLost := true }).port p).dirLost = true := by rw [Chip.port_setPort, if_pos rfl]
  generalize c.setPort p { c.port p with dirLost := true } = x at h0 ⊢
  have h1 : PortWork PortSt.dirLost [] p x (x.cause p cDirLost) := .addCause .refl p _ hp
  have hb := x.cause_bit p cDirLost hp (by decide)
  generalize x.cause p cDirLost = y at h1 hb ⊢
  have h2 : PortWork PortSt.dirLost [] p y
      (if y.otherDirection p && y.ringInUse p && decide (y.get F.BAR_STATUS_DIR_B = y.portDir p) then y.set F.BAR_STATUS_DIR_B (1 - y.portDir p) else y) :=
    .ite (.set_off .refl hp) .refl
  exact ⟨h2.port.trans (h1.port.trans h0), h2.cause p _ hp hb⟩

/-- A link-up keeps the numbering and the direction it leaves at the port. -/
theorem Chip.linkUp_port (c : Chip) (i : Identity) (p : Nat) (hp : p < 16) :
    ((c.linkUp i p).port p).dirLost = false ∧ ((c.linkUp i p).port p).numbered = false := by
  have h0 : (fun s : PortSt => (s.dirLost, s.numbered)) ((c.setPort p { c.port p with numbered := false, dirLost := false }).port p) = (false, false) := by
    rw [Chip.port_setPort, if_pos rfl]
  unfold Chip.linkUp
  generalize c.setPort p { c.port p with numbered := false, dirLost := false } = x at h0 ⊢
  have h1 : PortWork (fun s : PortSt => (s.dirLost, s.numbered)) [] p x (x.takeId i p) := .takeId hp (fun _ => rfl) .refl i p
  have h2 := h1.port.trans h0
  simpa only [Prod.mk.injEq] using h2

/-- The ID that ring S implies does not change the ID. -/
theorem Chip.ringSId_id (c : Chip) (f : Fld) (hf : f = F.CHAINCTL_TILE_ID_VALID ∨ f = F.CHAINCTL_TILE_ID_ID) : c.ringSId.get f = c.get f := by
  have hset : ∀ (x : Chip) (k : Fld) v, k = F.CHAINCTL_TILE_ID_ID_S ∨ k = F.CHAINCTL_TILE_ID_MISMATCH → (x.set k v).get f = x.get f := fun x k v hk => by
    rcases hk with rfl | rfl <;> rcases hf with rfl | rfl <;> exact Chip.get_set_apart _ _ _ _ (by decide)
  have hcause : ∀ (x : Chip) b, (x.cause 2 b).get f = x.get f := fun x b => by
    rw [Chip.get, Chip.rd_cause_ne, Chip.get]
    · rcases hf with rfl | rfl <;> decide
    · rcases hf with rfl | rfl <;> decide
  unfold Chip.ringSId
  dsimp only
  split
  · split
    · rw [hset _ _ _ (.inr rfl), hset _ _ _ (.inl rfl)]
    · split
      · exact hset _ _ _ (.inl rfl)
      · rw [hcause, hset _ _ _ (.inr rfl), hset _ _ _ (.inl rfl)]
  · rfl

theorem Chip.queueMonitor_get (c : Chip) (m : Nat) (f : Fld) : (c.queueMonitor m).get f = c.get f := by
  have hf : ∀ (l : List Nat) (cell : Nat) (x : Chip),
      (l.foldl (fun c p => c.setPort p { c.port p with insMonitor := (c.port p).insMonitor ++ [cell] }) x).get f = x.get f := by
    intro l cell
    induction l with
    | nil => exact fun _ => rfl
    | cons b l ih => exact fun x => ih _
  exact hf _ _ _

/-- The ID from the fields of the marker of port 0. -/
def Chip.markerId (c : Chip) : Nat := c.get F.PORT_LINK_SENDER_ID * 1024 + c.get F.PORT_LINK_PORT_ID * 64 + c.get F.PORT_LINK_HOPS

/-- A tile numbers itself by the marker of port 0. -/
theorem Chip.renumber_id (c : Chip) (hh : c.get F.PORT_LINK_HOPS < 64) (hs : c.get F.PORT_LINK_SENDER_ID < 7) :
    c.renumber.get F.CHAINCTL_TILE_ID_VALID = 1 ∧ c.renumber.get F.CHAINCTL_TILE_ID_ID = c.markerId := by
  have hp : c.get F.PORT_LINK_PORT_ID < 16 := c.get_lt F.PORT_LINK_PORT_ID
  have h0 : c.get (F.PORT_LINK_SENDER_ID.pg 0) * 1024 + c.get (F.PORT_LINK_PORT_ID.pg 0) * 64 + c.get (F.PORT_LINK_HOPS.pg 0) % 64 = c.markerId := by
    show c.get F.PORT_LINK_SENDER_ID * 1024 + c.get F.PORT_LINK_PORT_ID * 64 + c.get F.PORT_LINK_HOPS % 64 = _
    rw [Nat.mod_eq_of_lt hh, Chip.markerId]
  have hlt : c.markerId < 0x1FFF := by
    rw [Chip.markerId]
    omega
  have hk : (c.set F.CHAINCTL_TILE_CFG_TOPO (c.get F.PORT_LINK_TOPO)).get F.PORT_LINK_HOPS = c.get F.PORT_LINK_HOPS := Chip.get_set_ne _ _ _ _ (by decide)
  unfold Chip.renumber
  dsimp only
  rw [if_neg, h0]
  case hnc =>
    simp only [Bool.or_eq_true, decide_eq_true_eq, hk]
    rw [h0]
    omega
  refine ⟨?_, ?_⟩
  · rw [Chip.get_set_apart _ _ _ _ (by decide), Chip.get_set _ _ _ (by decide) (by decide)]
    rfl
  · rw [Chip.get_set _ _ _ (by decide) (by decide)]
    exact Nat.mod_eq_of_lt (lt_trans hlt (by decide))

/-- At the link-up of its port 0 a tile that has a marker takes its ID. -/
theorem Chip.linkUp_id (c : Chip) (i : Identity) (hT : c.build = .T) (hm : (c.port 0).rxMarker.isSome = true) (hh : c.get F.PORT_LINK_HOPS < 64)
    (hs : c.get F.PORT_LINK_SENDER_ID < 7) :
    (c.linkUp i 0).get F.CHAINCTL_TILE_ID_VALID = 1 ∧ (c.linkUp i 0).get F.CHAINCTL_TILE_ID_ID = c.markerId := by
  obtain ⟨h1, h2⟩ := (c.setPort 0 { c.port 0 with numbered := false, dirLost := false }).renumber_id hh hs
  have hm' : ((c.setPort 0 { c.port 0 with numbered := false, dirLost := false }).port 0).rxMarker.isSome = true := by
    rw [Chip.port_setPort, if_pos rfl]
    exact hm
  have hid : (c.setPort 0 { c.port 0 with numbered := false, dirLost := false }).markerId = c.markerId := rfl
  have hb : (c.setPort 0 { c.port 0 with numbered := false, dirLost := false }).build = .T := hT
  rw [hid] at h2
  unfold Chip.linkUp
  generalize c.setPort 0 { c.port 0 with numbered := false, dirLost := false } = x at h1 h2 hm' hb ⊢
  have hq : ∀ f, (x.renumber.queueIdentity i).get f = x.renumber.get f := fun f => Chip.queueMonitor_get _ _ f
  unfold Chip.takeId
  rw [hb]
  dsimp only
  rw [hm']
  refine ⟨?_, ?_⟩
  · rw [Chip.ringSId_id _ _ (.inl rfl)]
    exact (hq _).trans h1
  · rw [Chip.ringSId_id _ _ (.inr rfl)]
    exact (hq _).trans h2

theorem Chip.onPort_in {c : Chip} {p : Nat} (h : p < c.numPorts) (f : Chip → Chip) : c.onPort p f = f c := if_pos (decide_eq_true h)

theorem Completes.port {i : Instr} {s : State} {p : Nat} {P : Chip → Prop} (f : Chip → Chip) (he : exec i s = Machine.live s (fun c => c.onPort p f)) (h : Runs s)
    (hp : p < s.chip.numPorts) (hP : P (f s.chip)) : Completes i s P := Completes.live _ he h (by rw [Chip.onPort_in hp]; exact hP)

/-- A command on the stream of a port, whose outcome stays where a tile looks which ring it obeys. -/
theorem Completes.stream {i : Instr} {s : State} {p : Nat} {P : Chip → Prop} (f : Chip → Chip)
    (he : exec i s = Machine.live s (fun c => c.onStream p f)) (h : Runs s) (hp : p < s.chip.numPorts)
    (hP : ∀ t, PortWork PortSt.trainView linkFields p (f s.chip) t → (t.port p).dirLost = ((f s.chip).port p).dirLost →
      t.get (F.FAULT.pg (portPage p)) = (f s.chip).get (F.FAULT.pg (portPage p)) → P t) : Completes i s P := by
  have h16 := Chip.port_lt hp
  refine Completes.port (Chip.obeying f) he h hp (hP _ (.obeying h16) ?_ ?_)
  · exact (PortWork.obeying (g := PortSt.dirLost) (Fs := []) h16).port
  · rw [← portFault_pg]
    exact (PortWork.obeying (g := fun _ => ()) (Fs := [portFault]) h16).get portFault

theorem Chip.when_pos (c : Chip) (b : Bool) (f : Chip → Chip) (h : b = true) : c.when b f = f c := if_pos h

/-- Settles O33: a change of state writes its registers last of what they show, and what follows it on the page keeps them. -/
theorem portStates : Obligations.PortStates := by
  intro s p hrun hp
  have h16 := Chip.port_lt hp
  have htr : ∀ {a b : Chip}, (b.port p).trainView = (a.port p).trainView → (b.port p).trained = (a.port p).trained ∧ (b.port p).calUse = (a.port p).calUse :=
    fun h => by
      simp only [PortSt.trainView, Prod.mk.injEq] at h
      exact ⟨h.1, h.2.2.2.2.1⟩
  refine ⟨fun hen hoff => ?_, fun hst => ⟨fun r hr => ?_, fun r hr hm hrec hok => ?_, ?_⟩, fun hst => ?_, fun hst => ?_, fun hm hu hc => ?_,
    fun hm ha hs => ?_, fun hst ha hu => ?_, fun hT => ?_, fun hc => ?_⟩
  case _ =>
    refine Completes.port _ rfl hrun hp ?_
    rw [Chip.when_pos _ _ _ (by rw [hen, hoff]; rfl), s.chip.portRestart_state p h16, if_pos hen]
  case _ =>
    refine Completes.stream _ rfl hrun hp fun t ht _ _ => ?_
    obtain ⟨h1, h2, h3⟩ := s.chip.portTrained_alone s.chip.identity p r h16 hst hr
    exact ⟨ht.state.trans h1, (htr ht.port).1.trans h2, (ht.get F.PORT_LINK_CLK_OK).trans h3⟩
  case _ =>
    refine Completes.stream _ rfl hrun hp fun t ht _ _ => ?_
    have hfit : ∀ l < 3, s.chip.laneFit p r l = true := fun l hl => by
      obtain ⟨h1, h2⟩ := hok l hl
      rw [Chip.laneFit, h2, Bool.and_true, Bool.or_eq_true, Bool.not_eq_true']
      exact h1
    obtain ⟨h1, h2, h3, h4⟩ := s.chip.portTrained_up s.chip.identity p r h16 hst hr hm hrec hfit
    have hlane : ∀ l, t.get (laneFld p l) = (s.chip.portTrained s.chip.identity p r).get (laneFld p l) := fun l => by
      obtain ⟨f, hf, he⟩ := laneFld_pg p l
      have hin : ∀ f ∈ laneFields, f ∈ linkFields := by decide
      rw [he]
      exact ht.get f (hin f hf)
    refine ⟨ht.state.trans h1, (hlane 0).trans (h2 0 (by decide)), (hlane 1).trans (h2 1 (by decide)), (hlane 2).trans (h2 2 (by decide)),
      (ht.get F.PORT_LINK_CLK_OK).trans h3, fun l hl => ?_⟩
    rw [(htr ht.port).2]
    exact h4 l hl
  case _ =>
    refine Completes.stream _ rfl hrun hp fun t ht _ hf => ?_
    have hw := Chip.when_pos s.chip _ (fun c => c.setPortState p psFailed) (decide_eq_true hst)
    rw [hw] at ht hf
    obtain ⟨h1, h2, -⟩ := s.chip.setPortState_shows p psFailed h16 (by decide)
    exact ⟨ht.state.trans h1, hf.trans h2⟩
  case _ =>
    refine Completes.port _ rfl hrun hp ?_
    rw [Chip.when_pos _ _ _ (decide_eq_true hst)]
    exact s.chip.portRestart_state p h16
  case _ =>
    refine Completes.stream _ rfl hrun hp fun t ht _ _ => ?_
    obtain ⟨h1, h2, h3⟩ := s.chip.clkLoss_shows p h16 hst
    exact ⟨ht.state.trans h1, (ht.get F.PORT_LINK_CLK_OK).trans h2, (htr ht.port).1.trans h3⟩
  case _ =>
    refine Completes.port _ rfl hrun hp ?_
    rw [Chip.when_pos _ _ _ (by rw [hu, hc]; simpa using hm)]
    exact s.chip.fenced_shows _ p h16 hm hu hc
  case _ =>
    exact Completes.live (fun c => c.reduceNow p) rfl hrun (Chip.reduceNow_shows hp hm ha hs)
  case _ =>
    exact Completes.live (fun c => c.fullRate c.identity p) rfl hrun (Chip.fullRate_shows _ hp hst ha hu)
  case _ =>
    obtain ⟨h1, h2⟩ := s.chip.directionLost_shows p h16
    have hk := PortWork.obeying (g := fun _ => ()) (Fs := []) (c := s.chip) (f := fun c => c.directionLost p) h16
    have hd := PortWork.obeying (g := PortSt.dirLost) (Fs := []) (c := s.chip) (f := fun c => c.directionLost p) h16
    refine Completes.live (fun c => c.inT (fun c => c.onStream p (fun c => c.directionLost p))) rfl hrun ?_
    unfold Chip.inT
    rw [Chip.when_pos _ _ _ (decide_eq_true hT), Chip.onStream, Chip.onPort_in hp]
    exact ⟨hd.port.trans h1, Chip.get_cause _ F.PORT_CAUSE_DIR_LOST p rfl rfl (hk.cause p _ h16 h2)⟩
  case _ =>
    refine Completes.port _ rfl hrun hp ?_
    rw [Chip.when_pos _ _ _ hc]
    obtain ⟨h1, h2⟩ := s.chip.linkUp_port s.chip.identity p h16
    refine ⟨h1, h2, fun hT h0 hm hh hs => ?_⟩
    rw [h0]
    exact s.chip.linkUp_id _ hT hm hh hs

end Sys2Proof.Machine
end

