-- ==== Sys2Proof/Proofs/LaneUpkeep.lean ====
section
-- One proof at a time: proofs that wait for the kernel side by side hold more memory than the check allows.
set_option Elab.async false
/-! PROOF. Registers of commands of a port, recalibrations, retired lanes and eyes (R216 to R220). -/

namespace Sys2Proof.Machine

/-! ### A write of a register of a port -/

theorem PortsCalm.logged (c : Chip) (o : Origin) (a : Nat) (d : RegDef) (w : Word) : PortsCalm c (c.logged o a d w) := by
  unfold Chip.logged Chip.logChange
  exact .ite (.ite (.of .refl) (.raise (.of .refl))) .refl

theorem PendUp.logged (c : Chip) (o : Origin) (a : Nat) (d : RegDef) (w : Word) : PendUp c (c.logged o a d w) := by
  unfold Chip.logged Chip.logChange
  split
  · split
    · exact fun _ h => h
    · exact PendUp.trans (PendUp.set c F.DEVICE_CHANGE_LOST_COUNT _ (by decide)) (PendUp.raise _ _)
  · exact PendUp.refl c

/-- Register `off` of the page of port `p`. -/
def portReg (p off : Nat) : Nat := 0x080000 + 4096 * p + off

theorem portReg_ne {p off a : Nat} (hp : p < 16) (ho : off < 4096) (ha : a < 0x080000 ∨ 0x090000 ≤ a) : portReg p off ≠ a := by
  unfold portReg
  omega

theorem Chip.writeEffect_port (c : Chip) (o : Origin) (p off : Nat) (old w : Word) (hp : p < 16) (ho : off < 4096) :
    c.writeEffect o (portReg p off) old w = c.portEffect p off old w := by
  have h1 : portReg p off / 4096 = 0x080 + p := by
    unfold portReg
    omega
  have h2 : portReg p off % 4096 = off := by
    unfold portReg
    omega
  have ne : ∀ {a}, a < 0x080000 ∨ 0x090000 ≤ a → ¬ portReg p off = a := fun h => portReg_ne hp ho h
  have pg : ∀ {k}, k < 0x080 → ¬ 0x080 + p = k := fun h => by omega
  have pg2 : ¬ ((decide (0x080 + p = 0x030) || decide (0x080 + p = 0x031)) = true) := by
    simp
    omega
  have pg3 : ¬ ((decide (0x080 + p = 0x070) && decide (0xC0 ≤ off) && decide (off ≤ 0xFC)) = true) := by
    simp
    omega
  have pg4 : (decide (0x080 ≤ 0x080 + p) && decide (0x080 + p ≤ 0x08F)) = true := by
    simp
    omega
  unfold Chip.writeEffect
  dsimp only
  rw [h1, h2, if_neg (ne (by decide)), if_neg (pg (by decide)), if_neg (ne (by decide)), if_neg (ne (by decide)), if_neg (ne (by decide)),
    if_neg (ne (by decide)), if_neg (ne (by decide)), if_neg (ne (by decide)), if_neg (ne (by decide)), if_neg (ne (by decide)), if_neg (ne (by decide)),
    if_neg (ne (by decide)), if_neg (ne (by decide)), if_neg (ne (by decide)), if_neg pg2, if_neg (pg (by decide)), if_neg (ne (by decide)),
    if_neg (ne (by decide)), if_neg pg3, if_neg (ne (by decide)), if_pos pg4, Nat.add_sub_cancel_left]

/-- The fields kept are of other registers of the page than `off`. -/
def offReg (off : Nat) (Fs : List Fld) : Bool := Fs.all (fun f => decide (f.addr ≠ 0x080000 + off))

theorem PortWork.noteMirror {β : Type} {g : PortSt → β} {Fs : List Fld} {p : Nat} {c d : Chip} (h : PortWork g Fs p c d) (a : Nat) :
    PortWork g Fs p c (d.noteMirror a) := by
  unfold Chip.noteMirror
  exact .ite h h.of

theorem Chip.rd_noteMirror (c : Chip) (a b : Nat) : (c.noteMirror a).rd b = c.rd b := by
  rcases c.noteMirror_cases a with h | ⟨m, h⟩
  · rw [h]
  · rw [h]
    rfl

/-- A write of a register of a port that has an effect of its own: the effect on the block with the record and the word stored. -/
theorem Chip.write32_port {c : Chip} {o : Origin} {p off : Nat} {w : Word} {d : RegDef} (hp : p < 16) (hr : regAt c.build (portReg p off) = .reg d)
    (ho : off % 4 = 0 ∧ 0x40 ≤ off ∧ off < 0x100 ∧ off ≠ 0x68 ∧ off ≠ 0x7C) (hq : d.quiesceChange (c.rd (portReg p off)) w = false) (hc : Calm c)
    (he : ∀ x, Calm x → Calm (x.portEffect p off (c.rd (portReg p off)) w)) :
    ∃ x, (∀ Fs, pageFields Fs = true → offReg off Fs = true → PortWork PortSt.calm Fs p c x) ∧ x.rd (portReg p off) = d.store (c.rd (portReg p off)) w ∧
      c.write32 o (portReg p off) w = (x.portEffect p off (c.rd (portReg p off)) w).noteMirror (portReg p off) := by
  obtain ⟨h1, h2, h3, h4, h5⟩ := ho
  have hun : unstored (portReg p off) = false := by
    have h1 : portReg p off / 4096 = 0x080 + p := by
      unfold portReg
      omega
    have h2 : portReg p off % 4096 = off := by
      unfold portReg
      omega
    have ne : ∀ {a}, a < 0x080000 ∨ 0x090000 ≤ a → ¬ portReg p off = a := fun h => portReg_ne hp (by omega) h
    unfold unstored
    simp only [h1, h2, Bool.or_eq_false_iff, Bool.and_eq_false_iff, decide_eq_false_iff_not, decide_eq_decide]
    refine ⟨⟨⟨⟨⟨⟨⟨⟨⟨⟨⟨⟨?_, ?_⟩, ?_⟩, ?_⟩, ?_⟩, ?_⟩, ?_⟩, ?_⟩, ?_⟩, ?_⟩, ?_⟩, ?_⟩, ?_⟩
    case refine_11 => exact .inr h5
    case refine_12 => omega
    case refine_13 => omega
    all_goals exact ne (by decide)
  have hx : ∀ Fs, pageFields Fs = true → offReg off Fs = true →
      PortWork PortSt.calm Fs p c ((c.logged o (portReg p off) d w).wr (portReg p off) (d.store (c.rd (portReg p off)) w)) := fun Fs hFs hoff => by
    refine PortWork.wr (.quiet .refl (c.quiet_logged o _ d w) (PendUp.logged c o _ d w) (.logged c o _ d w) hp (fun _ => rfl) hFs) (fun f hf => ?_) (fun q hq => ?_) ?_
    · have hne := of_decide_eq_true (List.all_eq_true.1 hoff f hf)
      show f.addr + 4096 * p ≠ portReg p off
      unfold portReg
      omega
    · unfold causeReg portReg
      omega
    · unfold portReg
      simp only [plainReg, Bool.and_eq_true, decide_eq_true_eq]
      omega
  refine ⟨_, hx, by rw [Chip.rd_wr, if_pos rfl], ?_⟩
  rw [Chip.write32_stored hr ⟨by unfold portReg; omega, by unfold portReg; omega, by unfold portReg; omega, portReg_ne hp (by omega) (by decide), hun⟩ hq hc.2,
    Chip.writeEffect_port _ _ _ _ _ _ hp (by omega)]
  exact ((he _ ((hx [] rfl rfl).calm hc)).noteMirror _).settle

/-! ### Lane settings by temperature (R216) -/

theorem unsign_signed (n v : Nat) : unsign n (signed n v) = v % 2 ^ n := by
  have hlt : v % 2 ^ n < 2 ^ n := Nat.mod_lt _ (by positivity)
  have hc : ((2 : Int) ^ n) = ((2 ^ n : Nat) : Int) := by push_cast; rfl
  have hm : ((v % 2 ^ n : Nat) : Int) % (2 ^ n : Int) = ((v % 2 ^ n : Nat) : Int) := by
    rw [hc, ← Int.natCast_mod, Nat.mod_eq_of_lt hlt]
  unfold unsign signed
  split
  · rw [hm, Int.toNat_natCast]
  · rw [Int.sub_emod_right, hm, Int.toNat_natCast]

theorem Chip.laneCal_shows (c : Chip) (p : Nat) :
    (c.laneCal p).get (F.PORT_CAL_TEMP_TJ.pg p) = c.get (F.THERMAL_SENSOR_USE.plus (4 * (p / 4))) := by
  have hf : ∀ (l : List Nat) (x : Chip), (l.foldl (fun c k => c.calStep p k) x).get (F.PORT_CAL_TEMP_TJ.pg p) = x.get (F.PORT_CAL_TEMP_TJ.pg p) := by
    intro l
    induction l with
    | nil => exact fun _ => rfl
    | cons k l ih => exact fun x => ih _
  have hlt : c.get (F.THERMAL_SENSOR_USE.plus (4 * (p / 4))) < 2 ^ 16 := c.get_lt _
  have hmod := Nat.mod_eq_of_lt hlt
  unfold Chip.laneCal
  dsimp only
  rw [hf, Chip.get_set_pg _ _ _ _ (by decide) (by decide), Chip.portTemp, unsign_signed]
  exact (Nat.mod_mod _ _).trans hmod

/-! ### A recalibration begun (R217) -/

theorem PortSt.of_calm {α : Type} {s t : PortSt} (h : s.calm = t.calm) (g : PortSt → α) (hg : ∀ s : PortSt, g s.calm = g s := by intros; rfl) : g s = g t := by
  rw [← hg s, h, hg t]

theorem Chip.laneInUse_congr {c d : Chip} {p l : Nat} (hu : ((d.port p).lane l).usable = ((c.port p).lane l).usable)
    (hs : (d.port p).spareFor = (c.port p).spareFor) (hr : (d.port p).recal = (c.port p).recal)
    (hm : d.get (F.PORT_LINK_RX_MAP.pg p) = c.get (F.PORT_LINK_RX_MAP.pg p)) : d.laneInUse p l = c.laneInUse p l := by
  have hc : ∀ k, d.carrier p k = c.carrier p k := fun k => by
    rw [Chip.carrier, Chip.onSpare, PortSt.recalIn, Chip.rxMap_congr hm, hs, hr]
    rfl
  rw [Chip.laneInUse, hu, hc, hc]
  rfl

/-- What a recalibration that begins leaves of the next lane and of the one begun. -/
def RecalBegun (c : Chip) (p : Nat) (t : Chip) : Prop :=
  let l := (c.port p).nextRecal % 3
  let x := (c.port p).lane l
  (t.port p).nextRecal = (l + 1) % 3 ∧
    (x.retired = true → x.restore = true → (t.port p).recal = some { lane := l, phase := .live }) ∧
    (x.retired = false → c.laneInUse p l = false → (t.port p).recal = some { lane := l, phase := .live }) ∧
    (x.retired = false → c.laneInUse p l = true → l < 2 → mapReduced (c.rxMap p) = false → (c.port p).lane2.usable = true →
      (c.port p).spareFor = none → (t.port p).recal = some { lane := l, phase := .asked })

theorem Chip.recalStart_begun (c : Chip) (p : Nat) (hs : c.portCarries p = true ∨ c.state (portPage p) = psFenced) (hr : (c.port p).recal = none) :
    RecalBegun c p (c.recalStart p) := by
  have hsh : ∀ x : Chip, (x.showLanes p).port p = x.port p := fun x => (PortWork.showLanes (g := id) (Fs := []) (p := p) .refl p).port
  have hcond : ¬ ((!(c.portCarries p || decide (c.state (portPage p) = psFenced)) || (c.port p).recal.isSome) = true) := by
    rw [hr]
    simp only [Bool.or_eq_true, Bool.not_eq_true', Option.isSome_none, Bool.false_eq_true, or_false, Bool.or_eq_false_iff, decide_eq_false_iff_not]
    rintro ⟨h1, h2⟩
    rw [h1] at hs
    rcases hs with hs | hs
    · exact absurd hs (by decide)
    · exact h2 hs
  have hport : ∀ s, ((c.setPort p s).showLanes p).port p = s := fun s => by rw [hsh, Chip.port_setPort, if_pos rfl]
  unfold Chip.recalStart
  dsimp only
  rw [if_neg hcond]
  unfold RecalBegun
  dsimp only
  rw [hport]
  refine ⟨rfl, fun h1 h2 => ?_, fun h1 h2 => ?_, fun h1 h2 h3 h4 h5 h6 => ?_⟩
  · rw [h1, h2]
    rfl
  · rw [h1, h2]
    rfl
  · rw [h1, h2, h4, h5, h6, decide_eq_true h3]
    rfl

theorem RecalBegun.congr {c d t : Chip} {p : Nat} (hp : (d.port p).calm = (c.port p).calm)
    (hm : d.get (F.PORT_LINK_RX_MAP.pg p) = c.get (F.PORT_LINK_RX_MAP.pg p)) (h : RecalBegun d p t) : RecalBegun c p t := by
  have h1 : (d.port p).nextRecal = (c.port p).nextRecal := PortSt.of_calm hp PortSt.nextRecal
  have h2 : ∀ l, (d.port p).lane l = (c.port p).lane l := fun l => PortSt.of_calm hp (fun s => s.lane l)
  have h3 : (d.port p).lane2 = (c.port p).lane2 := PortSt.of_calm hp PortSt.lane2
  have h4 : (d.port p).spareFor = (c.port p).spareFor := PortSt.of_calm hp PortSt.spareFor
  have h5 : ∀ l, d.laneInUse p l = c.laneInUse p l := fun l => Chip.laneInUse_congr (by rw [h2]) h4 (PortSt.of_calm hp PortSt.recal) hm
  unfold RecalBegun at h ⊢
  simpa only [h1, h2, h3, h4, h5, Chip.rxMap_congr hm] using h

theorem PortWork.recalStart {Fs : List Fld} {p q : Nat} {c d : Chip} (h : PortWork (fun _ => ()) Fs p c d)
    (hs : sparing laneFields Fs = true := by decide) (hFs : pageFields Fs = true := by decide) : PortWork (fun _ => ()) Fs p c (d.recalStart q) := by
  unfold Chip.recalStart
  exact .ite h ((h.setPort_of q _ rfl).showLanes q hs hFs)

/-- The registers of commands of a port. -/
theorem regAt_port (c : Chip) {p off : Nat} (hp : p < c.numPorts) (ho : off = 0x70 ∨ off = 0x74 ∨ off = 0x94) :
    ∃ d, regAt c.build (portReg p off) = .reg d ∧ ∀ v w, d.quiesceChange v w = false := by
  unfold Chip.numPorts at hp
  cases hb : c.build <;> rw [hb] at hp <;> dsimp only at hp <;> interval_cases p <;> rcases ho with rfl | rfl | rfl <;>
    exact ⟨_, rfl, fun _ _ => by simp [RegDef.quiesceChange]⟩

theorem Chip.noteMirror_port (c : Chip) (a p : Nat) : (c.noteMirror a).port p = c.port p := by
  rcases c.noteMirror_cases a with h | ⟨m, h⟩
  · rw [h]
  · rw [h]
    rfl

theorem Chip.writeField_portReg (c : Chip) (o : Origin) (f : Fld) (p off v : Nat) (hf : f.addr = 0x080000 + off) :
    c.writeField o (f.pg p) v = c.write32 o (portReg p off) (insBits (c.keepWord (portReg p off)) f.hi f.lo v) := by
  have haddr : (f.pg p).addr = portReg p off := by
    show f.addr + 4096 * p = _
    unfold portReg
    omega
  rw [Chip.writeField, haddr]
  rfl

/-- RECAL.NOW. -/
theorem Chip.recalNow_begun (c : Chip) (o : Origin) (p : Nat) (hp : p < c.numPorts) (hc : Calm c)
    (hs : c.portCarries p = true ∨ c.state (portPage p) = psFenced) (hr : (c.port p).recal = none) :
    RecalBegun c p (c.writeField o (F.PORT_RECAL_NOW.pg p) 1) := by
  have h16 := Chip.port_lt hp
  obtain ⟨d, hd, hq⟩ := regAt_port c hp (.inl rfl)
  rw [c.writeField_portReg o F.PORT_RECAL_NOW p 0x70 1 rfl]
  change RecalBegun c p (c.write32 o (portReg p 0x70) (insBits (c.keepWord (portReg p 0x70)) 31 31 1))
  have hbit : (insBits (c.keepWord (portReg p 0x70)) 31 31 1).getLsbD 31 = true := insBits_bit_one _ _ (by decide)
  have he : ∀ (x : Chip) old, x.portEffect p 0x70 old (insBits (c.keepWord (portReg p 0x70)) 31 31 1) = x.recalStart p := fun x old => by
    unfold Chip.portEffect
    rw [if_pos rfl, if_pos hbit]
  obtain ⟨x, hx, -, hw⟩ := Chip.write32_port (o := o) (w := insBits (c.keepWord (portReg p 0x70)) 31 31 1) h16 hd (by decide) (hq _ _) hc
    (fun x h => by
      rw [he]
      exact (PortWork.recalStart (Fs := []) (p := p) .refl).calm h)
  have hk := hx [portState, F.PORT_LINK_RX_MAP] (by decide) (by decide)
  have hxs : x.portCarries p = true ∨ x.state (portPage p) = psFenced := by
    rw [Chip.portCarries_congr hk.state, hk.state]
    exact hs
  have hb := x.recalStart_begun p hxs ((PortSt.of_calm hk.port PortSt.recal).trans hr)
  rw [hw, he]
  refine RecalBegun.congr hk.port (hk.get F.PORT_LINK_RX_MAP) ?_
  unfold RecalBegun at hb ⊢
  rw [Chip.noteMirror_port]
  exact hb

/-! ### A lane retired (R219) -/

theorem PortSt.lane_setLane (s : PortSt) (l : Nat) (x : LaneSt) : (s.setLane l x).lane l = x := by
  match l with
  | 0 => rfl
  | 1 => rfl
  | _ + 2 => rfl

theorem PortSt.lane_setLane_ne (s : PortSt) {l j : Nat} (x : LaneSt) (hl : l < 3) (hj : j < 3) (h : j ≠ l) : (s.setLane l x).lane j = s.lane j := by
  interval_cases l <;> interval_cases j <;> first | rfl | exact absurd rfl h

/-- Of a port `g` shows nothing of its lanes, its spare lane and its recalibration. -/
structure Laneless {β : Type} (g : PortSt → β) : Prop where
  lane : ∀ (s : PortSt) (l : Nat) (x : LaneSt), g (s.setLane l x) = g s
  jobs : ∀ (s : PortSt) (r : Option Recal) (v : Option Nat), g { s with recal := r, spareFor := v } = g s

theorem Laneless.assign {β : Type} {g : PortSt → β} (h : Laneless g) (s : PortSt) : g s.assignSpare = g s := by
  obtain ⟨v, hv⟩ := s.assignSpare_spare
  rw [hv]
  exact h.jobs s s.recal v

/-- The port of a retired lane, and what follows on its page and links. -/
theorem Chip.retireLane_eq (c : Chip) (i : Identity) (p l : Nat) (h : ((c.port p).lane l).retired = false) :
    ∃ s : PortSt, (s.lane l).retired = true ∧ (∀ {β : Type} (g : PortSt → β), Laneless g → g s = g (c.port p)) ∧
      (c.retireLane i p l = ((c.setPort p s).cause p cLaneRetired).showLane p l ∨
        c.retireLane i p l = ((c.setPort p s).cause p cLaneRetired).enterLaneState i p) := by
  unfold Chip.retireLane
  dsimp only
  rw [h, if_neg (by decide)]
  split
  · refine ⟨_, ?_, fun g hg => ?_, .inl rfl⟩
    · split
      · obtain ⟨v, hv⟩ := PortSt.assignSpare_spare { (c.port p).setLane l { (c.port p).lane l with retired := true, restore := false } with spareFor := none }
        rw [hv]
        exact congrArg LaneSt.retired (PortSt.lane_setLane _ _ _)
      · exact congrArg LaneSt.retired (PortSt.lane_setLane _ _ _)
    · split
      · rw [hg.assign]
        exact (hg.jobs _ _ none).trans (hg.lane _ _ _)
      · exact hg.lane _ _ _
  · refine ⟨_, ?_, fun g hg => ?_, .inr rfl⟩
    · have hl := congrArg LaneSt.retired (PortSt.lane_setLane (c.port p) l { (c.port p).lane l with retired := true, restore := false, lowEyes := 0 })
      split
      · exact hl
      · split
        · exact hl
        · exact hl
    · split
      · exact (hg.jobs _ _ none).trans (hg.lane _ _ _)
      · split
        · exact (hg.jobs _ _ (some l)).trans (hg.lane _ _ _)
        · exact (hg.jobs _ _ _).trans (hg.lane _ _ _)

section
variable {β : Type} {g : PortSt → β} {Fs : List Fld} {p : Nat}

theorem PortWork.retireLane {c d : Chip} (hp : p < 16) (hg : Dull g) (hl : Laneless g) (h : PortWork g Fs p c d) (i : Identity) (q l : Nat)
    (hs : sparing (stateFields ++ laneFields) Fs = true := by decide) (hFs : pageFields Fs = true := by decide) :
    PortWork g Fs p c (d.retireLane i q l) := by
  by_cases hr : ((d.port q).lane l).retired = true
  · have he : d.retireLane i q l = d := by
      unfold Chip.retireLane
      dsimp only
      rw [if_pos hr]
    rw [he]
    exact h
  · obtain ⟨s, -, hsg, he⟩ := d.retireLane_eq i q l (by simpa using hr)
    have h1 := addCause' hp hg.calm (h.setPort_of q s (hsg g hl)) q cLaneRetired hFs
    have hs2 : sparing laneFields Fs = true := List.all_eq_true.2 fun f hf => List.all_eq_true.1 hs f (List.mem_append_right _ hf)
    rcases he with he | he
    · rw [he]
      exact h1.showLane q l hs2 hFs
    · rw [he]
      exact enterLaneState hp hg h1 i q hs hFs

end

/-- A lane retired shows, with its cause. -/
theorem Chip.retireLane_shows (c : Chip) (i : Identity) (p l : Nat) (hp : p < 16) (h : ((c.port p).lane l).retired = false) :
    (((c.retireLane i p l).port p).lane l).retired = true ∧ (c.retireLane i p l).get (F.PORT_CAUSE_LANE_RETIRED.pg p) = 1 := by
  have hd := PortSt.trainView_dull
  obtain ⟨s, hs, -, he⟩ := c.retireLane_eq i p l h
  have hport : (c.setPort p s).port p = s := by rw [Chip.port_setPort, if_pos rfl]
  have h1 : PortWork PortSt.trainView [] p (c.setPort p s) ((c.setPort p s).cause p cLaneRetired) := .addCause .refl p _ hp hd.calm
  have hb := (c.setPort p s).cause_bit p cLaneRetired hp (by decide)
  generalize (c.setPort p s).cause p cLaneRetired = x at h1 hb he
  have h2 : PortWork PortSt.trainView [] p x (c.retireLane i p l) := by
    rcases he with he | he
    · rw [he]
      exact .showLane .refl p l (by decide) (by decide)
    · rw [he]
      exact .enterLaneState hp hd .refl i p
  have hret : ∀ {a b : PortSt}, b.trainView = a.trainView → (b.lane l).retired = (a.lane l).retired := fun {a b} hv => by
    simp only [PortSt.trainView, Prod.mk.injEq, List.map_cons, List.map_nil, List.cons.injEq, and_true] at hv
    obtain ⟨-, -, -, -, -, ⟨-, h0⟩, ⟨-, h1⟩, -, h2⟩ := hv
    unfold PortSt.lane
    split
    · exact h0
    · exact h1
    · exact h2
  refine ⟨?_, Chip.get_cause _ F.PORT_CAUSE_LANE_RETIRED p rfl rfl (h2.cause p _ hp hb)⟩
  rw [hret h2.port, hret h1.port, hport, hs]

theorem PortSt.retired_of_view {a b : PortSt} (h : b.trainView = a.trainView) (l : Nat) : (b.lane l).retired = (a.lane l).retired := by
  simp only [PortSt.trainView, Prod.mk.injEq, List.map_cons, List.map_nil, List.cons.injEq, and_true] at h
  obtain ⟨-, -, -, -, -, ⟨-, h0⟩, ⟨-, h1⟩, -, h2⟩ := h
  unfold PortSt.lane
  split
  · exact h0
  · exact h1
  · exact h2

theorem PortSt.calUse_of_view {a b : PortSt} (h : b.trainView = a.trainView) : b.calUse = a.calUse := by
  simp only [PortSt.trainView, Prod.mk.injEq] at h
  exact h.2.2.2.2.1

/-! ### A recalibration complete (R217, R220) -/

theorem Chip.calLearn_calUse (c : Chip) (p l : Nat) (new : Word) :
    ∃ k, (c.calLearn p l new).port p = { c.port p with cal := k, calUse := smSet (c.port p).calUse l new } := by
  unfold Chip.calLearn
  exact ⟨_, (Chip.port_setPort c p p _).trans (if_pos rfl)⟩

/-- The new setting of a lane, learnt with its eye shown. -/
theorem Chip.calLearn_port (c : Chip) (p l w h : Nat) (new : Word) (s : PortSt) (hs : (s.lane l).retired = false) :
    smGet 0 ((((c.setPort p s.assignSpare).calLearn p l new).showEye p l w h).port p).calUse l = new ∧
    (((((c.setPort p s.assignSpare).calLearn p l new).showEye p l w h).port p).lane l).retired = false := by
  obtain ⟨v, hv⟩ := s.assignSpare_spare
  have hp : (c.setPort p s.assignSpare).port p = s.assignSpare := by rw [Chip.port_setPort, if_pos rfl]
  obtain ⟨k, hk⟩ := (c.setPort p s.assignSpare).calLearn_calUse p l new
  rw [hp] at hk
  change smGet 0 (((c.setPort p s.assignSpare).calLearn p l new).port p).calUse l = new ∧
    ((((c.setPort p s.assignSpare).calLearn p l new).port p).lane l).retired = false
  rw [hk, hv]
  refine ⟨?_, hs⟩
  simp

theorem Chip.recalComplete_fit (c : Chip) (i : Identity) (p w h : Nat) (new : Word) (r : Recal) (hp : p < 16) (hr : (c.port p).recal = some r)
    (hl : r.phase = .live) (ho : c.eyeOk p w h = true) :
    smGet 0 ((c.recalComplete i p w h new).port p).calUse r.lane = new ∧ (((c.recalComplete i p w h new).port p).lane r.lane).retired = false := by
  have hd := PortSt.trainView_dull
  have key : ∀ x : Chip, (smGet 0 (x.port p).calUse r.lane = new ∧ ((x.port p).lane r.lane).retired = false) → ∀ b : Bool,
      smGet 0 ((if b then x.enterLaneState i p else x.showLanes p).port p).calUse r.lane = new ∧
      (((if b then x.enterLaneState i p else x.showLanes p).port p).lane r.lane).retired = false := fun x hx b => by
    have hW : PortWork PortSt.trainView [] p x (if b then x.enterLaneState i p else x.showLanes p) := .ite (.enterLaneState hp hd .refl i p) (.showLanes .refl p)
    rw [PortSt.calUse_of_view hW.port, PortSt.retired_of_view hW.port]
    exact hx
  unfold Chip.recalComplete
  rw [hr]
  dsimp only
  rw [if_neg (not_not.2 hl), if_pos ho]
  have hfree : ∀ (s : PortSt) (b : Bool), (s.lane r.lane).retired = false → ((if b then { s with spareFor := none } else s).lane r.lane).retired = false :=
    fun s b hs => by
      split
      · exact hs
      · exact hs
  exact key _ (Chip.calLearn_port _ _ _ _ _ _ _ (hfree _ _ (congrArg LaneSt.retired (PortSt.lane_setLane _ _ _)))) _

theorem Chip.recalComplete_nofit (c : Chip) (i : Identity) (p w h : Nat) (new : Word) (r : Recal) (hp : p < 16) (hr : (c.port p).recal = some r)
    (hl : r.phase = .live) (ho : c.eyeOk p w h = false) :
    (c.recalComplete i p w h new).get (F.PORT_CAUSE_RECAL_NOFIT.pg p) = 1 ∧ ((c.recalComplete i p w h new).port p).calUse = (c.port p).calUse := by
  have hd : Dull PortSt.calUse := .comp _ (fun _ => rfl)
  have hll : Laneless PortSt.calUse := by
    refine ⟨fun s l x => ?_, fun _ _ _ => rfl⟩
    unfold PortSt.setLane
    split <;> rfl
  unfold Chip.recalComplete
  rw [hr]
  dsimp only
  rw [if_neg (not_not.2 hl), ho, if_neg (by decide)]
  generalize (if (c.onSpare p r.lane && (false || !((c.port p).lane r.lane).retired)) = true then _ else none) = v
  have h0 : PortWork PortSt.calUse [] p c (c.setPort p { c.port p with recal := v }) := .setPort_of .refl p _ rfl
  generalize c.setPort p { c.port p with recal := v } = x at h0 ⊢
  have hb := x.cause_bit p cRecalNofit hp (by decide)
  have h1 : PortWork PortSt.calUse [] p x (x.cause p cRecalNofit) := .addCause .refl p _ hp hd.calm
  generalize x.cause p cRecalNofit = y at hb h1 ⊢
  have h2 : PortWork PortSt.calUse [] p y (y.showLanes p) := .showLanes .refl p
  have h3 : ∀ b : Bool, PortWork PortSt.calUse [] p y (if b then y.showLanes p else (y.showLanes p).retireLane i p r.lane) := fun b =>
    .ite h2 (h2.retireLane hp hd hll i p _)
  exact ⟨Chip.get_cause _ F.PORT_CAUSE_RECAL_NOFIT p rfl rfl ((h3 _).cause p _ hp hb), ((h3 _).port.trans h1.port).trans h0.port⟩

/-! ### Eyes measured (R218) -/

theorem PortSt.usable_eq (s : PortSt) : s.usable = b2n (s.lane 0).usable + b2n (s.lane 1).usable + b2n (s.lane 2).usable := by
  show ([s.lane 0, s.lane 1, s.lane 2].filter LaneSt.usable).length = _
  generalize s.lane 0 = a
  generalize s.lane 1 = b
  generalize s.lane 2 = c
  cases ha : a.usable <;> cases hb : b.usable <;> cases hc : c.usable <;> simp [ha, hb, hc, b2n]

/-- The register of the eye of a lane. -/
def eyeReg (p l : Nat) : Nat := 0x080048 + 4096 * p + 4 * l

/-- What a lane in use with an eye large enough leaves of its measurement, and what it keeps. -/
structure EyeSeen (p l w h : Nat) (c d : Chip) : Prop where
  use : ∀ k, d.laneInUse p k = c.laneInUse p k
  eye : ∀ a b, d.eyeOk p a b = c.eyeOk p a b
  usable : (d.port p).usable = (c.port p).usable
  shown : c.laneInUse p l = true → d.rd (eyeReg p l) = BitVec.ofNat 32 (w % 64 * 65536 + h % 1024) ∧ ((d.port p).lane l).lowEyes = 0
  kept : ∀ j < 3, j ≠ l → d.rd (eyeReg p j) = c.rd (eyeReg p j) ∧ ((d.port p).lane j).lowEyes = ((c.port p).lane j).lowEyes
  unused : c.laneInUse p l = false → d = c

theorem Chip.eyeLane_seen (c : Chip) (i : Identity) (p l w h : Nat) (hl : l < 3) (ho : c.laneInUse p l = true → c.eyeOk p w h = true) :
    EyeSeen p l w h c (c.eyeLane i p l w h) := by
  by_cases hu : c.laneInUse p l = true
  · have hrd : ∀ a, (c.showEye p l w h).rd a = if a = eyeReg p l then BitVec.ofNat 32 (w % 64 * 65536 + h % 1024) else c.rd a := fun a => Chip.rd_wr _ _ _ _
    have hget : ∀ f : Fld, f.addr ≠ eyeReg p l → (c.showEye p l w h).get f = c.get f := fun f hf => by rw [Chip.get, hrd, if_neg hf, Chip.get]
    have heye : ∀ a b, (c.showEye p l w h).eyeOk p a b = c.eyeOk p a b := fun a b => by
      rw [Chip.eyeOk, hget _ (by show 0x080054 + 4096 * p ≠ _; unfold eyeReg; omega), hget _ (by show 0x080054 + 4096 * p ≠ _; unfold eyeReg; omega)]
      rfl
    have he : c.eyeLane i p l w h = (c.showEye p l w h).setPort p (((c.showEye p l w h).port p).setLane l { ((c.showEye p l w h).port p).lane l with lowEyes := 0 }) := by
      unfold Chip.eyeLane
      dsimp only
      rw [hu, heye, ho hu]
      rfl
    have hport : (c.showEye p l w h).port p = c.port p := rfl
    rw [hport] at he
    have hmap : (c.showEye p l w h).get (F.PORT_LINK_RX_MAP.pg p) = c.get (F.PORT_LINK_RX_MAP.pg p) :=
      hget _ (by show 0x080040 + 4096 * p ≠ _; unfold eyeReg; omega)
    rw [he]
    generalize hx : c.showEye p l w h = x at *
    have hp2 : (x.setPort p ((c.port p).setLane l { (c.port p).lane l with lowEyes := 0 })).port p = (c.port p).setLane l { (c.port p).lane l with lowEyes := 0 } := by
      rw [Chip.port_setPort, if_pos rfl]
    have hus : ∀ k, (((c.port p).setLane l { (c.port p).lane l with lowEyes := 0 }).lane k).usable = ((c.port p).lane k).usable := fun k => by
      match l, k with
      | 0, 0 => rfl
      | 0, 1 => rfl
      | 0, _ + 2 => rfl
      | 1, 0 => rfl
      | 1, 1 => rfl
      | 1, _ + 2 => rfl
      | _ + 2, 0 => rfl
      | _ + 2, 1 => rfl
      | _ + 2, _ + 2 => rfl
    have hother : ((c.port p).setLane l { (c.port p).lane l with lowEyes := 0 }).spareFor = (c.port p).spareFor ∧
        ((c.port p).setLane l { (c.port p).lane l with lowEyes := 0 }).recal = (c.port p).recal := by
      unfold PortSt.setLane
      split <;> exact ⟨rfl, rfl⟩
    refine ⟨fun k => ?_, fun a b => heye a b, ?_, fun _ => ⟨?_, ?_⟩, fun j hj hne => ⟨?_, ?_⟩, fun hu' => absurd (hu.symm.trans hu') (by decide)⟩
    · exact Chip.laneInUse_congr (by rw [hp2, hus]) (by rw [hp2, hother.1]) (by rw [hp2, hother.2]) hmap
    · rw [hp2]
      rw [PortSt.usable_eq, PortSt.usable_eq, hus, hus, hus]
    · exact (hrd _).trans (if_pos rfl)
    · rw [hp2, PortSt.lane_setLane]
    · exact (hrd _).trans (if_neg (by unfold eyeReg; omega))
    · rw [hp2, PortSt.lane_setLane_ne _ _ hl hj hne]
  · have he : c.eyeLane i p l w h = c := by
      unfold Chip.eyeLane
      rw [if_pos]
      simpa using hu
    rw [he]
    exact ⟨fun _ => rfl, fun _ _ => rfl, rfl, fun h => absurd h hu, fun _ _ _ => ⟨rfl, rfl⟩, fun _ => rfl⟩

/-! ### LANE_CMD (R219) -/

theorem bitsOf_small_word (n : Nat) (hn : n < 4) : bitsOf (BitVec.ofNat 32 n) 1 0 = n ∧ (BitVec.ofNat 32 n).getLsbD 8 = false := by
  interval_cases n <;> decide

/-- LANE_CMD.RETIRE. -/
theorem Chip.laneRetireCmd_shows (c : Chip) (o : Origin) (p l : Nat) (hp : p < c.numPorts) (hl : l < 3) (hc : Calm c)
    (hr : ((c.port p).lane l).retired = false) :
    (((c.write32 o (portReg p 0x74) (BitVec.ofNat 32 (l + 1))).port p).lane l).retired = true ∧
    (c.write32 o (portReg p 0x74) (BitVec.ofNat 32 (l + 1))).get (F.PORT_CAUSE_LANE_RETIRED.pg p) = 1 := by
  have h16 := Chip.port_lt hp
  obtain ⟨d, hd, hq⟩ := regAt_port c hp (.inr (.inl rfl))
  obtain ⟨hw, hw8⟩ := bitsOf_small_word (l + 1) (by omega)
  have he : ∀ (x : Chip) old, x.portEffect p 0x74 old (BitVec.ofNat 32 (l + 1)) = x.retireLane x.identity p l := fun x old => by
    unfold Chip.portEffect
    dsimp only
    rw [if_neg (by decide), if_pos rfl, hw, hw8, if_neg (show ¬ l + 1 = 0 by omega), if_neg (by decide)]
    rfl
  have hcalm : ∀ x : Chip, Calm x → Calm (x.retireLane x.identity p l) := fun x h =>
    (PortWork.retireLane (g := fun _ => ()) (Fs := []) h16 ⟨fun _ => rfl, fun _ _ _ => rfl, fun _ => rfl⟩ ⟨fun _ _ _ => rfl, fun _ _ _ => rfl⟩ .refl x.identity p l).calm h
  obtain ⟨x, hx, -, hw⟩ := Chip.write32_port (o := o) (w := BitVec.ofNat 32 (l + 1)) h16 hd (by decide) (hq _ _) hc (fun x h => by
    rw [he]
    exact hcalm x h)
  have hxr : ((x.port p).lane l).retired = false := (PortSt.of_calm (hx [] rfl rfl).port (fun s => (s.lane l).retired)).trans hr
  obtain ⟨h1, h2⟩ := x.retireLane_shows x.identity p l h16 hxr
  rw [hw, he, Chip.noteMirror_port, Chip.noteMirror_get]
  exact ⟨h1, h2⟩

/-- LANE_CMD.RESTORE. -/
theorem Chip.laneRestore_marks (c : Chip) (o : Origin) (p : Nat) (hp : p < c.numPorts) (hc : Calm c) (l : Nat) :
    (((c.write32 o (portReg p 0x74) 0x100).port p).lane l).restore = (((c.port p).lane l).restore || ((c.port p).lane l).retired) := by
  have h16 := Chip.port_lt hp
  obtain ⟨d, hd, hq⟩ := regAt_port c hp (.inr (.inl rfl))
  have he : ∀ (x : Chip) old, x.portEffect p 0x74 old 0x100 = x.setPort p { x.port p with
      lane0 := { (x.port p).lane0 with restore := (x.port p).lane0.restore || (x.port p).lane0.retired },
      lane1 := { (x.port p).lane1 with restore := (x.port p).lane1.restore || (x.port p).lane1.retired },
      lane2 := { (x.port p).lane2 with restore := (x.port p).lane2.restore || (x.port p).lane2.retired } } := fun x old => by
    unfold Chip.portEffect
    dsimp only
    rw [if_neg (by decide), if_pos rfl, if_pos (show (0x100 : Word).getLsbD 8 = true by decide), if_pos (show bitsOf (0x100 : Word) 1 0 = 0 by decide)]
  obtain ⟨x, hx, -, hw⟩ := Chip.write32_port (o := o) (w := 0x100) h16 hd (by decide) (hq _ _) hc (fun x h => by
    rw [he]
    exact (PortWork.setPort_of (g := fun _ => ()) (Fs := []) (p := p) .refl p _ rfl).calm h)
  have hlane : (x.port p).lane l = (c.port p).lane l := PortSt.of_calm (hx [] rfl rfl).port (fun s => s.lane l)
  rw [hw, he, Chip.noteMirror_port, Chip.port_setPort, if_pos rfl, ← hlane]
  unfold PortSt.lane
  dsimp only
  split <;> rfl

/-- The eyes of the three lanes taken. -/
def Chip.eyesMeasured (c : Chip) (p : Nat) (ws hs : List Nat) : Chip := [0, 1, 2].foldl (fun c l => c.eyeLane c.identity p l (ws.getD l 0) (hs.getD l 0)) c

/-- Eyes measured on the three lanes. -/
theorem Chip.eyeMeasure_shows (c : Chip) (p : Nat) (ws hs : List Nat)
    (ho : ∀ l < 3, c.laneInUse p l = true → c.eyeOk p (ws.getD l 0) (hs.getD l 0) = true) :
    let t := c.eyesMeasured p ws hs
    (t.port p).usable = (c.port p).usable ∧ ∀ l < 3, if c.laneInUse p l then
        t.rd (eyeReg p l) = BitVec.ofNat 32 (ws.getD l 0 % 64 * 65536 + hs.getD l 0 % 1024) ∧ ((t.port p).lane l).lowEyes = 0
      else t.rd (eyeReg p l) = c.rd (eyeReg p l) := by
  unfold Chip.eyesMeasured
  simp only [List.foldl_cons, List.foldl_nil]
  have h0 := c.eyeLane_seen c.identity p 0 (ws.getD 0 0) (hs.getD 0 0) (by decide) (ho 0 (by decide))
  generalize c.eyeLane c.identity p 0 (ws.getD 0 0) (hs.getD 0 0) = x at h0 ⊢
  have h1 := x.eyeLane_seen x.identity p 1 (ws.getD 1 0) (hs.getD 1 0) (by decide) (by rw [h0.use, h0.eye]; exact ho 1 (by decide))
  generalize x.eyeLane x.identity p 1 (ws.getD 1 0) (hs.getD 1 0) = y at h1 ⊢
  have h2 := y.eyeLane_seen y.identity p 2 (ws.getD 2 0) (hs.getD 2 0) (by decide) (by rw [h1.use, h0.use, h1.eye, h0.eye]; exact ho 2 (by decide))
  generalize y.eyeLane y.identity p 2 (ws.getD 2 0) (hs.getD 2 0) = z at h2 ⊢
  have huse1 : ∀ k, x.laneInUse p k = c.laneInUse p k := h0.use
  have huse2 : ∀ k, y.laneInUse p k = c.laneInUse p k := fun k => (h1.use k).trans (h0.use k)
  refine ⟨h2.usable.trans (h1.usable.trans h0.usable), fun l hl => ?_⟩
  interval_cases l
  · obtain ⟨a1, b1⟩ := h1.kept 0 (by decide) (by decide)
    obtain ⟨a2, b2⟩ := h2.kept 0 (by decide) (by decide)
    split
    next h =>
      obtain ⟨a0, b0⟩ := h0.shown h
      exact ⟨a2.trans (a1.trans a0), b2.trans (b1.trans b0)⟩
    next h =>
      rw [a2, a1, h0.unused (by simpa using h)]
  · obtain ⟨a0, -⟩ := h0.kept 1 (by decide) (by decide)
    obtain ⟨a2, b2⟩ := h2.kept 1 (by decide) (by decide)
    split
    next h =>
      obtain ⟨a1, b1⟩ := h1.shown (by rw [huse1, h])
      exact ⟨a2.trans a1, b2.trans b1⟩
    next h =>
      rw [a2, h1.unused (by rw [huse1]; simpa using h), a0]
  · obtain ⟨a0, -⟩ := h0.kept 2 (by decide) (by decide)
    obtain ⟨a1, -⟩ := h1.kept 2 (by decide) (by decide)
    split
    next h => exact h2.shown (by rw [huse2, h])
    next h =>
      rw [h2.unused (by rw [huse2]; simpa using h), a1, a0]

theorem exec_eyeMeasure (s : State) (p : Nat) (ws hs : List Nat) :
    exec (.eyeMeasure p ws hs) s = Machine.live s (fun c => c.onPort p (fun c => c.eyesMeasured p ws hs)) := rfl

theorem laneCmd_addr (p : Nat) : (F.PORT_LANE_CMD_RETIRE.pg p).addr = portReg p 0x74 := by
  show 0x080074 + 4096 * p = _
  unfold portReg
  omega

/-- Settles O34: settings and eyes by the registers they write, recalibrations by the lane begun, retirement by the port it leaves. -/
theorem laneUpkeep : Obligations.LaneUpkeep := by
  intro s p hrun hp
  have h16 := Chip.port_lt hp
  refine ⟨fun h => ?_, fun hs hr => ⟨fun hper => ?_, fun o hc => ?_⟩, fun r w h set hr hl _ => ?_, fun ws hs ho => ?_, fun o l hl hc hr => ?_, fun o hc => ?_⟩
  case _ =>
    refine Completes.port _ rfl hrun hp ?_
    rw [Chip.when_pos _ _ _ (decide_eq_true h)]
    exact s.chip.laneCal_shows p
  case _ =>
    refine Completes.port _ rfl hrun hp ?_
    rw [Chip.when_pos _ _ _ (decide_eq_true hper)]
    exact s.chip.recalStart_begun p hs hr
  case _ =>
    refine Completes.serveFor o (fun c => c.onPort p (fun c => c.writeField o (F.PORT_RECAL_NOW.pg p) 1)) rfl hrun ?_
    rw [Chip.onPort_in hp]
    exact s.chip.recalNow_begun o p hp hc hs hr
  case _ =>
    refine Completes.port (fun c => c.recalComplete c.identity p w h set) rfl hrun hp ?_
    split
    next ho => exact s.chip.recalComplete_fit _ p w h set r h16 hr hl ho
    next ho => exact s.chip.recalComplete_nofit _ p w h set r h16 hr hl (by simpa using ho)
  case _ =>
    exact Completes.port (fun c => c.eyesMeasured p ws hs) (exec_eyeMeasure s p ws hs) hrun hp (s.chip.eyeMeasure_shows p ws hs ho)
  case _ =>
    refine Completes.serveFor o (fun c => c.onPort p (fun c => c.when (decide (l < 3)) (fun c =>
      c.write32 o (F.PORT_LANE_CMD_RETIRE.pg p).addr (BitVec.ofNat 32 (l + 1))))) rfl hrun ?_
    rw [Chip.onPort_in hp, Chip.when_pos _ _ _ (decide_eq_true hl), laneCmd_addr]
    exact s.chip.laneRetireCmd_shows o p l hp hl hc hr
  case _ =>
    refine Completes.serveFor o (fun c => c.onPort p (fun c => c.write32 o (F.PORT_LANE_CMD_RETIRE.pg p).addr 0x100)) rfl hrun ?_
    rw [Chip.onPort_in hp, laneCmd_addr]
    exact fun l _ => s.chip.laneRestore_marks o p hp hc l

end Sys2Proof.Machine
end

