-- ==== Sys2Proof/Proofs/TestAndInjection.lean ====
section
-- One proof at a time: proofs that wait for the kernel side by side hold more memory than the check allows.
set_option Elab.async false
/-! PROOF. Command bits beside fields that are kept, the pattern checker, injections and the calibration window (R216, R223, R224). -/

namespace Sys2Proof.Machine

/-! ### A command bit written beside fields that are kept -/

theorem getLsbD_insBits_bit (w : Word) {k j : Nat} (hk : k < 32) (h : j ≠ k) : (insBits w k k 1).getLsbD j = w.getLsbD j := by
  have hb := bitsOf_insBits_ne w k k 1 j j (le_refl k) hk (le_refl j) (by omega)
  rw [bitsOf_bit_iff, bitsOf_bit_iff] at hb
  cases h1 : (insBits w k k 1).getLsbD j <;> cases h2 : w.getLsbD j <;> simp_all

theorem bitsOf_congr {w v : Word} {hi lo : Nat} (h : ∀ j, lo ≤ j → j ≤ hi → w.getLsbD j = v.getLsbD j) : bitsOf w hi lo = bitsOf v hi lo := by
  unfold bitsOf
  refine Nat.eq_of_testBit_eq fun i => ?_
  rw [Nat.testBit_mod_two_pow, Nat.testBit_mod_two_pow, Nat.testBit_div_two_pow, Nat.testBit_div_two_pow]
  by_cases hi' : i < hi + 1 - lo
  · rw [decide_eq_true hi', Bool.true_and, Bool.true_and]
    exact h (i + lo) (by omega) (by omega)
  · rw [decide_eq_false hi', Bool.false_and, Bool.false_and]

/-- Masks without a common bit. -/
def apartMasks : List Word → Bool
  | [] => true
  | m :: ms => decide (m &&& ms.foldr (· ||| ·) 0 = 0) && apartMasks ms

theorem sum_apartMasks (w : Word) (ms : List Word) (h : apartMasks ms = true) :
    BitVec.ofNat 32 ((ms.map (fun m => (w &&& m).toNat)).sum) = w &&& ms.foldr (· ||| ·) 0 := by
  induction ms with
  | nil => simp
  | cons m ms ih =>
    simp only [apartMasks, Bool.and_eq_true, decide_eq_true_eq] at h
    obtain ⟨h0, h1⟩ := h
    have hz : (w &&& m) &&& (w &&& ms.foldr (· ||| ·) 0) = 0 := by
      have e : (w &&& m) &&& (w &&& ms.foldr (· ||| ·) 0) = w &&& (m &&& ms.foldr (· ||| ·) 0) := by
        ext i
        simp only [BitVec.getElem_and]
        cases w[i] <;> simp
      rw [e, h0]
      simp
    rw [List.map_cons, List.sum_cons, List.foldr_cons, BitVec.ofNat_add, ih h1, BitVec.ofNat_toNat, BitVec.setWidth_eq, BitVec.add_eq_or_of_and_eq_zero _ _ hz]
    ext i
    simp only [BitVec.getElem_or, BitVec.getElem_and, Bool.and_or_distrib_left]

/-- The masks of the fields of a register that a program writes and reads. -/
def RegDef.rwMasks (d : RegDef) : List Word := (d.fields.filter (fun f => f.acc = .rw)).map FieldDef.mask

/-- A register whose bit `k` is a command beside fields that are kept. -/
def RegDef.commandAt (d : RegDef) (k : Nat) : Bool :=
  apartMasks d.rwMasks && decide (k < 32) && d.rwMasks.all (fun m => !m.getLsbD k) &&
    d.fields.all (fun f => f.acc = .rw || f.acc = .w1s || f.acc = .ro)

theorem Chip.keepWord_eq {c : Chip} {a : Nat} {d : RegDef} (hr : regAt c.build a = .reg d) (h : apartMasks d.rwMasks = true) :
    c.keepWord a = c.rd a &&& d.rwMasks.foldr (· ||| ·) 0 := by
  rw [← sum_apartMasks _ _ h, Chip.keepWord, hr]
  dsimp only
  rw [RegDef.rwMasks, List.map_map]
  rfl

theorem mem_foldr_or {ms : List Word} {m : Word} (hm : m ∈ ms) {j : Nat} (hj : m.getLsbD j = true) : (ms.foldr (· ||| ·) 0).getLsbD j = true := by
  induction ms with
  | nil => exact absurd hm (by simp)
  | cons n ms ih =>
    rw [List.foldr_cons, BitVec.getLsbD_or]
    rcases List.mem_cons.1 hm with rfl | h
    · rw [hj, Bool.true_or]
    · rw [ih h, Bool.or_true]

/-- The word that writes a command bit has the fields that are kept. -/
theorem Chip.commandWord_kept {c : Chip} {a k : Nat} {d : RegDef} (hr : regAt c.build a = .reg d) (h : d.commandAt k = true) {m : Word}
    (hm : m ∈ d.rwMasks) : insBits (c.keepWord a) k k 1 &&& m = c.rd a &&& m := by
  simp only [RegDef.commandAt, Bool.and_eq_true, decide_eq_true_eq] at h
  obtain ⟨⟨⟨h1, h2⟩, h3⟩, -⟩ := h
  have hk : m.getLsbD k = false := by simpa using List.all_eq_true.1 h3 m hm
  refine BitVec.eq_of_getLsbD_eq fun j hj => ?_
  rw [BitVec.getLsbD_and, BitVec.getLsbD_and]
  by_cases hmj : m.getLsbD j = true
  · have hne : j ≠ k := fun e => by rw [e, hk] at hmj; exact absurd hmj (by decide)
    rw [getLsbD_insBits_bit _ h2 hne, Chip.keepWord_eq hr h1, BitVec.getLsbD_and, mem_foldr_or hm hmj, Bool.and_true]
  · rw [Bool.eq_false_iff.2 hmj, Bool.and_false, Bool.and_false]

theorem Chip.commandWord_calm {c : Chip} {a k : Nat} {d : RegDef} (hr : regAt c.build a = .reg d) (h : d.commandAt k = true) :
    d.quiesceChange (c.rd a) (insBits (c.keepWord a) k k 1) = false := by
  refine Bool.eq_false_iff.2 fun hq => ?_
  obtain ⟨f, hf, hx⟩ := List.any_eq_true.1 hq
  simp only [Bool.and_eq_true, decide_eq_true_eq] at hx
  obtain ⟨⟨hrw, -⟩, hne⟩ := hx
  exact hne (Chip.commandWord_kept hr h (List.mem_map_of_mem (List.mem_filter.2 ⟨hf, decide_eq_true hrw⟩))).symm

theorem Chip.commandWord_store {c : Chip} {a k : Nat} {d : RegDef} (hr : regAt c.build a = .reg d) (h : d.commandAt k = true) :
    d.store (c.rd a) (insBits (c.keepWord a) k k 1) = c.rd a := by
  have hacc : ∀ f ∈ d.fields, f.acc = .rw ∨ f.acc = .w1s ∨ f.acc = .ro := fun f hf => by
    simp only [RegDef.commandAt, Bool.and_eq_true] at h
    simpa [or_assoc] using List.all_eq_true.1 h.2 f hf
  have hk : ∀ f ∈ d.fields, f.acc = .rw → insBits (c.keepWord a) k k 1 &&& f.mask = c.rd a &&& f.mask := fun f hf hrw =>
    Chip.commandWord_kept hr h (List.mem_map_of_mem (List.mem_filter.2 ⟨hf, decide_eq_true hrw⟩))
  generalize insBits (c.keepWord a) k k 1 = w at hk
  have key : ∀ l : List FieldDef, (∀ f ∈ l, f.acc = .rw ∨ f.acc = .w1s ∨ f.acc = .ro) →
      (∀ f ∈ l, f.acc = .rw → w &&& f.mask = c.rd a &&& f.mask) → RegDef.store { d with fields := l } (c.rd a) w = c.rd a := by
    intro l
    induction l with
    | nil => exact fun _ _ => rfl
    | cons f l ih =>
      intro hacc hk
      have hstep : ∀ x, RegDef.store { d with fields := f :: l } x w = RegDef.store { d with fields := l } (RegDef.store { d with fields := [f] } x w) w :=
        fun _ => rfl
      have hmask : c.rd a &&& ~~~f.mask ||| (c.rd a &&& f.mask) = c.rd a := by
        ext i
        simp only [BitVec.getElem_or, BitVec.getElem_and, BitVec.getElem_not]
        cases f.mask[i] <;> simp
      have hone : RegDef.store { d with fields := [f] } (c.rd a) w = c.rd a := by
        unfold RegDef.store
        rw [List.foldl_cons, List.foldl_nil]
        dsimp only
        rcases hacc f (List.mem_cons_self) with e | e | e
        · rw [e, hk f (List.mem_cons_self) e, hmask]
          cases f.cls <;> rfl
        · rw [e]
          cases f.cls <;> rfl
        · rw [e]
          cases f.cls <;> rfl
      rw [hstep, hone]
      exact ih (fun g hg => hacc g (List.mem_cons_of_mem _ hg)) (fun g hg => hk g (List.mem_cons_of_mem _ hg))
  exact key d.fields hacc hk

/-- A bit of a field that is kept. -/
theorem Chip.commandWord_bit {c : Chip} {a k j : Nat} {d : RegDef} (hr : regAt c.build a = .reg d) (h : d.commandAt k = true) {m : Word}
    (hm : m ∈ d.rwMasks) (hj : m.getLsbD j = true) : (insBits (c.keepWord a) k k 1).getLsbD j = (c.rd a).getLsbD j := by
  have e := congrArg (fun w : Word => w.getLsbD j) (Chip.commandWord_kept hr h hm)
  simpa only [BitVec.getLsbD_and, hj, Bool.and_true] using e

/-! ### Command bits of a port -/

/-- A command bit of a register of a port: its effect on a block where every field of the page stands as before. -/
theorem Chip.writeField_portCommand {c : Chip} {o : Origin} {p off : Nat} {f : Fld} {d : RegDef} (g : Chip → Chip) (hp : p < 16)
    (hf : f.addr = 0x080000 + off) (hb : f.hi = f.lo) (hr : regAt c.build (portReg p off) = .reg d) (hd : d.commandAt f.lo = true)
    (ho : off % 4 = 0 ∧ 0x40 ≤ off ∧ off < 0x100 ∧ off ≠ 0x68 ∧ off ≠ 0x7C) (hc : Calm c)
    (he : ∀ x : Chip, x.portEffect p off (c.rd (portReg p off)) (insBits (c.keepWord (portReg p off)) f.lo f.lo 1) = g x)
    (hg : ∀ x, Calm x → Calm (g x)) :
    ∃ x, (∀ Fs, pageFields Fs = true → PortWork PortSt.calm Fs p c x) ∧ c.writeField o (f.pg p) 1 = (g x).noteMirror (portReg p off) := by
  rw [c.writeField_portReg o f p off 1 hf, hb]
  obtain ⟨x, hx, hrd, hw⟩ := Chip.write32_port (o := o) (w := insBits (c.keepWord (portReg p off)) f.lo f.lo 1) hp hr ho (Chip.commandWord_calm hr hd) hc
    (fun x h => by
      rw [he]
      exact hg x h)
  rw [Chip.commandWord_store hr hd] at hrd
  refine ⟨x, fun Fs hFs => ?_, by rw [hw, he]⟩
  have h0 := hx [] rfl rfl
  refine ⟨h0.build, h0.ctrls, h0.inUse, h0.rst, h0.paths, fun f hf => ?_, h0.cause, h0.pend, h0.port⟩
  by_cases ha : f.addr = 0x080000 + off
  · have haddr : (f.pg p).addr = portReg p off := by
      show f.addr + 4096 * p = _
      unfold portReg
      omega
    rw [Chip.get, haddr, hrd, ← haddr]
    rfl
  · have h1 : pageFields [f] = true := by
      have := List.all_eq_true.1 hFs f hf
      simpa [pageFields] using this
    have h2 : offReg off [f] = true := by simp [offReg, ha]
    exact (hx [f] h1 h2).gets f (List.mem_singleton_self f)

/-! ### The pattern checker (R223) -/

/-- The counter of a lane's errors, low and high. -/
def errLo (p l : Nat) : Fld := (F.PORT_TEST_ERR_ERR_LO.pg p).plus (8 * l)

def errHi (p l : Nat) : Fld := (F.PORT_TEST_ERR1_ERR_HI.pg p).plus (8 * l)

theorem errLo_pg (p l : Nat) : errLo p l = (errLo 0 l).pg p := by
  simp only [errLo, Fld.pg, Fld.plus, Fld.mk.injEq, and_true]
  omega

theorem errHi_pg (p l : Nat) : errHi p l = (errHi 0 l).pg p := by
  simp only [errHi, Fld.pg, Fld.plus, Fld.mk.injEq, and_true]
  omega

theorem lockFld_pg (p l : Nat) : lockFld p l = (lockFld 0 l).pg p := by
  simp only [lockFld, Fld.pg, Fld.plus, Fld.mk.injEq, and_true]
  omega

/-- The errors that a lane's checker has counted. -/
def Chip.errCount (c : Chip) (p l : Nat) : Nat := c.get (errHi p l) * 2 ^ 32 + c.get (errLo p l)

/-- A count shown. -/
def Chip.showErrors (c : Chip) (p l n : Nat) : Chip := (c.set (errLo p l) (n % 2 ^ 32)).set (errHi p l) (n / 2 ^ 32)

theorem Chip.bitError_eq (c : Chip) (p l : Nat) :
    c.bitError p l = if ((c.port p).lane l).chkFirst then c.showErrors p l (min (2 ^ 48 - 1) (c.errCount p l + 1))
      else ((c.showErrors p l (min (2 ^ 48 - 1) (c.errCount p l + 1))).setPort p
        ((c.port p).setLane l { (c.port p).lane l with chkFirst := true })).cause p cTestErr := rfl

/-- The fields of the checker of a lane. -/
def checkFields (l : Nat) : List Fld := [errLo 0 l, errHi 0 l, lockFld 0 l]

theorem checkFields_page {l : Nat} (hl : l < 3) : pageFields (checkFields l) = true := by
  have h : ∀ l < 3, pageFields (checkFields l) = true := by decide
  exact h l hl

theorem Chip.showErrors_count (c : Chip) (p l n : Nat) (hl : l < 3) (hn : n < 2 ^ 48) :
    (c.showErrors p l n).errCount p l = n ∧ (c.showErrors p l n).get (lockFld p l) = c.get (lockFld p l) := by
  have ha : ∀ l < 3, (errLo 0 l).apart (errHi 0 l) = true ∧ (lockFld 0 l).apart (errHi 0 l) = true ∧ (lockFld 0 l).apart (errLo 0 l) = true := by decide
  obtain ⟨h1, h2, h3⟩ := ha l hl
  have hlo : (c.showErrors p l n).get (errLo p l) = n % 2 ^ 32 := by
    unfold Chip.showErrors
    rw [errLo_pg, errHi_pg, Chip.get_set_pg_apart _ _ _ _ _ h1, Chip.get_set_pg _ _ _ _ (show (0 : Nat) ≤ 31 by decide) (show (31 : Nat) < 32 by decide)]
    exact Nat.mod_mod _ _
  have hhi : (c.showErrors p l n).get (errHi p l) = n / 2 ^ 32 := by
    unfold Chip.showErrors
    rw [errHi_pg, Chip.get_set_pg _ _ _ _ (show (0 : Nat) ≤ 15 by decide) (show (15 : Nat) < 32 by decide)]
    exact Nat.mod_eq_of_lt (by show n / 2 ^ 32 < 2 ^ 16; omega)
  refine ⟨?_, ?_⟩
  · rw [Chip.errCount, hlo, hhi]
    omega
  · unfold Chip.showErrors
    rw [lockFld_pg, errLo_pg, errHi_pg, Chip.get_set_pg_apart _ _ _ _ _ h2, Chip.get_set_pg_apart _ _ _ _ _ h3]

/-- A bit error counted. -/
theorem Chip.bitError_shows (c : Chip) (p l : Nat) (hp : p < 16) (hl : l < 3) :
    (c.bitError p l).get (lockFld p l) = c.get (lockFld p l) ∧ (c.bitError p l).errCount p l = min (2 ^ 48 - 1) (c.errCount p l + 1) ∧
    (((c.bitError p l).port p).lane l).chkHist = ((c.port p).lane l).chkHist ∧
    (((c.port p).lane l).chkFirst = false → (c.bitError p l).get (F.PORT_CAUSE_TEST_ERR.pg p) = 1) := by
  have hn : min (2 ^ 48 - 1) (c.errCount p l + 1) < 2 ^ 48 := by omega
  obtain ⟨h1, h2⟩ := c.showErrors_count p l _ hl hn
  have hport : (c.showErrors p l (min (2 ^ 48 - 1) (c.errCount p l + 1))).port p = c.port p := rfl
  rw [Chip.bitError_eq]
  generalize c.showErrors p l (min (2 ^ 48 - 1) (c.errCount p l + 1)) = x at h1 h2 hport ⊢
  split
  next hf => exact ⟨h2, h1, by rw [hport], fun h => by rw [h] at hf; exact absurd hf (by decide)⟩
  next hf =>
    generalize hy : x.setPort p ((c.port p).setLane l { (c.port p).lane l with chkFirst := true }) = y
    have h3 : PortWork (fun s : PortSt => (s.lane l).chkHist) (checkFields l) p x y := by
      rw [← hy]
      refine .setPort .refl p _ fun _ => ?_
      rw [hport]
      show (((c.port p).setLane l _).lane l).chkHist = _
      rw [PortSt.lane_setLane]
    have h4 : PortWork (fun s : PortSt => (s.lane l).chkHist) (checkFields l) p x (y.cause p cTestErr) :=
      h3.addCause p _ hp (fun _ => rfl) (checkFields_page hl)
    have hlo : (y.cause p cTestErr).get (errLo p l) = x.get (errLo p l) := by
      rw [errLo_pg]
      exact h4.gets _ (by simp [checkFields])
    have hhi : (y.cause p cTestErr).get (errHi p l) = x.get (errHi p l) := by
      rw [errHi_pg]
      exact h4.gets _ (by simp [checkFields])
    refine ⟨?_, ?_, h4.port.trans (by rw [hport]), fun _ => ?_⟩
    · rw [← h2, lockFld_pg]
      exact h4.gets _ (by simp [checkFields])
    · rw [Chip.errCount, hlo, hhi, ← Chip.errCount, h1]
    · exact Chip.get_cause _ F.PORT_CAUSE_TEST_ERR p rfl rfl (y.cause_bit p cTestErr hp (by decide))

/-- The bit that a checker expects next. -/
def Chip.expected (c : Chip) (p l : Nat) : Nat := patternNext (c.get (F.PORT_TEST_PATTERN.pg p)) ((c.port p).lane l).chkHist

/-- A bit that reaches a locked checker. -/
theorem Chip.checkBit_locked (c : Chip) (p l : Nat) (b : Bool) (hp : p < 16) (hl : l < 3) (hk : c.on (lockFld p l) = true) :
    (c.checkBit p l b).on (lockFld p l) = true ∧
    (((c.checkBit p l b).port p).lane l).chkHist = (((c.port p).lane l).chkHist * 2 + c.expected p l) % 2 ^ 64 ∧
    (c.checkBit p l b).errCount p l = (if b2n b = c.expected p l then c.errCount p l else min (2 ^ 48 - 1) (c.errCount p l + 1)) ∧
    (b2n b ≠ c.expected p l → ((c.port p).lane l).chkFirst = false → (c.checkBit p l b).get (F.PORT_CAUSE_TEST_ERR.pg p) = 1) := by
  have he : c.checkBit p l b = if b2n b = c.expected p l then
      c.setPort p ((c.port p).setLane l { (c.port p).lane l with chkHist := (((c.port p).lane l).chkHist * 2 + c.expected p l) % 2 ^ 64 })
    else (c.setPort p ((c.port p).setLane l { (c.port p).lane l with chkHist := (((c.port p).lane l).chkHist * 2 + c.expected p l) % 2 ^ 64 })).bitError p l := by
    unfold Chip.checkBit
    dsimp only
    rw [if_pos hk]
    rfl
  rw [he]
  generalize hx : c.setPort p ((c.port p).setLane l { (c.port p).lane l with chkHist := (((c.port p).lane l).chkHist * 2 + c.expected p l) % 2 ^ 64 }) = x
  have hlane : (x.port p).lane l = { (c.port p).lane l with chkHist := (((c.port p).lane l).chkHist * 2 + c.expected p l) % 2 ^ 64 } := by
    rw [← hx, Chip.port_setPort, if_pos rfl, PortSt.lane_setLane]
  have hget : ∀ f, x.get f = c.get f := fun f => by
    rw [← hx]
    rfl
  have hcnt : x.errCount p l = c.errCount p l := by rw [Chip.errCount, hget, hget, Chip.errCount]
  have hlock : x.get (lockFld p l) = 1 := by
    rw [hget]
    simpa [Chip.on] using hk
  split
  next h => exact ⟨by rw [Chip.on, hlock]; rfl, by rw [hlane], hcnt, fun hne => absurd h hne⟩
  next h =>
    obtain ⟨h1, h2, h3, h4⟩ := x.bitError_shows p l hp hl
    refine ⟨by rw [Chip.on, h1, hlock]; rfl, by rw [h3, hlane], by rw [h2, hcnt], fun _ hf => h4 (by rw [hlane]; exact hf)⟩

/-- A lane whose checker follows the bit received, after `run` bits without an error. -/
def LaneSt.checked (x : LaneSt) (b run : Nat) : LaneSt := { x with chkHist := (x.chkHist * 2 + b) % 2 ^ 64, chkSeen := min 64 (x.chkSeen + 1), chkRun := run }

/-- A bit that reaches a checker before its lock, where enough bits have come. -/
theorem Chip.checkBit_unlocked (c : Chip) (p l : Nat) (b : Bool) (hp : p < 16) (hl : l < 3) (hk : c.on (lockFld p l) = false)
    (h5 : c.get (F.PORT_TEST_PATTERN.pg p) ≠ 5) (hd : patternDepth (c.get (F.PORT_TEST_PATTERN.pg p)) ≤ ((c.port p).lane l).chkSeen) :
    (c.checkBit p l b).on (lockFld p l) = (decide (b2n b = c.expected p l) && decide (63 ≤ ((c.port p).lane l).chkRun)) ∧
    (((c.checkBit p l b).port p).lane l).chkRun = (if b2n b = c.expected p l then ((c.port p).lane l).chkRun + 1 else 0) := by
  have hrun : ∀ n : Nat, (if ((c.port p).lane l).chkSeen + b2n (decide (c.get (F.PORT_TEST_PATTERN.pg p) = 5)) < patternDepth (c.get (F.PORT_TEST_PATTERN.pg p))
      then 0 else n) = n := fun n => by
    rw [decide_eq_false h5, if_neg]
    show ¬ ((c.port p).lane l).chkSeen + 0 < _
    omega
  generalize hr : (if b2n b = c.expected p l then ((c.port p).lane l).chkRun + 1 else 0) = run
  have hgood : (if (!decide (b2n b = patternNext (c.get (F.PORT_TEST_PATTERN.pg p)) ((c.port p).lane l).chkHist)) = true then 0
      else ((c.port p).lane l).chkRun + 1) = run := by
    rw [← hr, Chip.expected]
    by_cases h : b2n b = patternNext (c.get (F.PORT_TEST_PATTERN.pg p)) ((c.port p).lane l).chkHist <;> simp [h]
  have he : c.checkBit p l b = if 64 ≤ run then (c.setPort p ((c.port p).setLane l (((c.port p).lane l).checked (b2n b) run))).set (lockFld p l) 1
      else c.setPort p ((c.port p).setLane l (((c.port p).lane l).checked (b2n b) run)) := by
    unfold Chip.checkBit
    dsimp only
    rw [hk, if_neg (by decide)]
    simp only [hrun, if_neg h5, hgood]
    rfl
  have hlane : ((c.setPort p ((c.port p).setLane l (((c.port p).lane l).checked (b2n b) run))).port p).lane l = ((c.port p).lane l).checked (b2n b) run := by
    rw [Chip.port_setPort, if_pos rfl, PortSt.lane_setLane]
  have hoff : (c.setPort p ((c.port p).setLane l (((c.port p).lane l).checked (b2n b) run))).on (lockFld p l) = false := hk
  have hone : decide (64 ≤ run) = (decide (b2n b = c.expected p l) && decide (63 ≤ ((c.port p).lane l).chkRun)) := by
    rw [← hr]
    by_cases h : b2n b = c.expected p l
    · rw [if_pos h, decide_eq_true h, Bool.true_and]
      congr 1
      simp
    · rw [if_neg h, decide_eq_false h]
      rfl
  rw [he, ← hone]
  generalize c.setPort p ((c.port p).setLane l (((c.port p).lane l).checked (b2n b) run)) = x at hlane hoff ⊢
  split
  next h =>
    refine ⟨?_, congrArg LaneSt.chkRun hlane⟩
    rw [decide_eq_true h, Chip.on, lockFld_pg, Chip.get_set_pg _ _ _ _ (show (31 : Nat) ≤ 31 by decide) (show (31 : Nat) < 32 by decide)]
    rfl
  next h => exact ⟨by rw [decide_eq_false h, hoff], congrArg LaneSt.chkRun hlane⟩

/-! ### TEST.CLR (R223) -/

def testFields : List FieldDef := [⟨18, 16, .rw, .q, 0, 0⟩, ⟨14, 12, .rw, .q, 0, 0⟩, ⟨8, 8, .w1s, .l, 0, 0⟩, ⟨2, 0, .rw, .q, 0, 0⟩]

def injectFields : List FieldDef := [⟨31, 31, .w1s, .l, 0, 0⟩, ⟨30, 30, .rw, .l, 0, 0⟩, ⟨29, 28, .rw, .l, 0, 0⟩, ⟨21, 16, .rw, .l, 0, 0⟩]

theorem regAt_test (c : Chip) {p : Nat} (hp : p < c.numPorts) : ∃ d, regAt c.build (portReg p 0x88) = .reg d ∧ d.fields = testFields := by
  unfold Chip.numPorts at hp
  cases hb : c.build <;> rw [hb] at hp <;> dsimp only at hp <;> interval_cases p <;> exact ⟨_, rfl, rfl⟩

theorem regAt_inject (c : Chip) {p : Nat} (hp : p < c.numPorts) : ∃ d, regAt c.build (portReg p 0x94) = .reg d ∧ d.fields = injectFields := by
  unfold Chip.numPorts at hp
  cases hb : c.build <;> rw [hb] at hp <;> dsimp only at hp <;> interval_cases p <;> exact ⟨_, rfl, rfl⟩

theorem commandAt_test {d : RegDef} (h : d.fields = testFields) : d.commandAt 8 = true := by
  unfold RegDef.commandAt RegDef.rwMasks
  rw [h]
  decide

theorem commandAt_inject {d : RegDef} (h : d.fields = injectFields) : d.commandAt 31 = true := by
  unfold RegDef.commandAt RegDef.rwMasks
  rw [h]
  decide

/-- The word of a command bit has a field that is kept. -/
theorem Chip.commandWord_field {c : Chip} {a k hi lo : Nat} {d : RegDef} (hr : regAt c.build a = .reg d) (h : d.commandAt k = true)
    (hm : ∃ f ∈ d.fields, f.acc = .rw ∧ ∀ j, lo ≤ j → j ≤ hi → f.mask.getLsbD j = true) :
    bitsOf (insBits (c.keepWord a) k k 1) hi lo = bitsOf (c.rd a) hi lo := by
  obtain ⟨f, hf, hrw, hb⟩ := hm
  exact bitsOf_congr fun j h1 h2 => Chip.commandWord_bit hr h (List.mem_map_of_mem (List.mem_filter.2 ⟨hf, decide_eq_true hrw⟩)) (hb j h1 h2)

/-- The counters of the three lanes cleared. -/
def Chip.clearErrors (c : Chip) (p : Nat) : Chip := [0, 1, 2].foldl (fun c l => (c.set (errLo p l) 0).set (errHi p l) 0) c

theorem Chip.clearErrors_get (c : Chip) (p l : Nat) (hl : l < 3) : (c.clearErrors p).get (errLo p l) = 0 ∧ (c.clearErrors p).get (errHi p l) = 0 := by
  have hw : ∀ l < 3, ∀ k < 3, (errLo 0 l).apart (errHi 0 k) = true ∧ (errHi 0 l).apart (errLo 0 k) = true ∧
      (l ≠ k → (errLo 0 l).apart (errLo 0 k) = true ∧ (errHi 0 l).apart (errHi 0 k) = true) := by decide
  have hself : ∀ (x : Chip) k, k < 3 → ((x.set (errLo p k) 0).set (errHi p k) 0).get (errLo p k) = 0 ∧ ((x.set (errLo p k) 0).set (errHi p k) 0).get (errHi p k) = 0 :=
    fun x k hk => by
      obtain ⟨h1, -, -⟩ := hw k hk k hk
      rw [errLo_pg, errHi_pg, Chip.get_set_pg_apart _ _ _ _ _ h1, Chip.get_set_pg _ _ _ _ (show (0 : Nat) ≤ 31 by decide) (show (31 : Nat) < 32 by decide),
        Chip.get_set_pg _ _ _ _ (show (0 : Nat) ≤ 15 by decide) (show (15 : Nat) < 32 by decide)]
      exact ⟨rfl, rfl⟩
  have hother : ∀ (x : Chip) k, k < 3 → l ≠ k → ((x.set (errLo p k) 0).set (errHi p k) 0).get (errLo p l) = x.get (errLo p l) ∧
      ((x.set (errLo p k) 0).set (errHi p k) 0).get (errHi p l) = x.get (errHi p l) := fun x k hk hne => by
    obtain ⟨h1, h2, h3⟩ := hw l hl k hk
    obtain ⟨h4, h5⟩ := h3 hne
    rw [errLo_pg p k, errHi_pg p k, errLo_pg p l, errHi_pg p l, Chip.get_set_pg_apart _ _ _ _ _ h1, Chip.get_set_pg_apart _ _ _ _ _ h4,
      Chip.get_set_pg_apart _ _ _ _ _ h5, Chip.get_set_pg_apart _ _ _ _ _ h2]
    exact ⟨rfl, rfl⟩
  unfold Chip.clearErrors
  simp only [List.foldl_cons, List.foldl_nil]
  interval_cases l
  · rw [(hother _ 2 (by decide) (by decide)).1, (hother _ 2 (by decide) (by decide)).2, (hother _ 1 (by decide) (by decide)).1, (hother _ 1 (by decide) (by decide)).2]
    exact hself _ 0 (by decide)
  · rw [(hother _ 2 (by decide) (by decide)).1, (hother _ 2 (by decide) (by decide)).2]
    exact hself _ 1 (by decide)
  · exact hself _ 2 (by decide)

theorem PortWork.clearErrors {c : Chip} {p : Nat} : PortWork (fun _ => ()) [] p c (c.clearErrors p) := by
  unfold Chip.clearErrors
  refine .foldl .refl fun x l hl => ?_
  have h : ∀ l ∈ [0, 1, 2], ∀ f ∈ [errLo 0 l, errHi 0 l],
      (decide (f.addr / 4096 = 0x080) && decide (f.addr % 4096 ≠ 0x68) && decide (plainReg f.addr = true)) = true := by decide
  rw [errLo_pg, errHi_pg]
  exact (PortWork.refl.set_pg rfl (h l hl _ (by simp))).set_pg rfl (h l hl _ (by simp))

/-- TEST.CLR clears the counters of the three lanes. -/
theorem Chip.testClr_clears (c : Chip) (o : Origin) (p : Nat) (hp : p < c.numPorts) (hc : Calm c) (l : Nat) (hl : l < 3) :
    (c.writeField o (F.PORT_TEST_CLR.pg p) 1).get (errLo p l) = 0 ∧ (c.writeField o (F.PORT_TEST_CLR.pg p) 1).get (errHi p l) = 0 := by
  have h16 := Chip.port_lt hp
  obtain ⟨d, hd, hf⟩ := regAt_test c hp
  have hcmd := commandAt_test hf
  have hb : ∀ hi lo, (∃ f ∈ testFields, f.acc = .rw ∧ ∀ j, lo ≤ j → j ≤ hi → f.mask.getLsbD j = true) →
      bitsOf (insBits (c.keepWord (portReg p 0x88)) 8 8 1) hi lo = bitsOf (c.rd (portReg p 0x88)) hi lo := fun hi lo h =>
    Chip.commandWord_field hd hcmd (by rw [hf]; exact h)
  have h1 := hb 18 16 ⟨_, List.mem_cons_self, rfl, fun j h1 h2 => by interval_cases j <;> decide⟩
  have h2 := hb 14 12 ⟨_, List.mem_cons_of_mem _ List.mem_cons_self, rfl, fun j h1 h2 => by interval_cases j <;> decide⟩
  have h3 := hb 2 0 ⟨_, List.mem_cons_of_mem _ (List.mem_cons_of_mem _ (List.mem_cons_of_mem _ List.mem_cons_self)), rfl, fun j h1 h2 => by interval_cases j <;> decide⟩
  have hbit : (insBits (c.keepWord (portReg p 0x88)) 8 8 1).getLsbD 8 = true := insBits_bit_one _ _ (by decide)
  have he : ∀ x : Chip, x.portEffect p 0x88 (c.rd (portReg p 0x88)) (insBits (c.keepWord (portReg p 0x88)) 8 8 1) = x.clearErrors p := fun x => by
    unfold Chip.portEffect
    rw [if_neg (by decide), if_neg (by decide), if_neg (by decide), if_pos rfl]
    dsimp only
    have hx : ∀ a b : Nat, (decide (a ≠ a) || decide (b ≠ b)) = false := by simp
    rw [h1, h2, h3, hbit, hx, hx, if_neg (by decide), if_pos rfl, if_neg (by decide)]
    rfl
  obtain ⟨x, -, hw⟩ := Chip.writeField_portCommand (o := o) (f := F.PORT_TEST_CLR) (fun x => x.clearErrors p) h16 rfl rfl hd hcmd (by decide) hc he
    (fun x h => PortWork.clearErrors.calm h)
  rw [hw, Chip.noteMirror_get, Chip.noteMirror_get]
  exact x.clearErrors_get p l hl

/-! ### Injections (R224) -/

theorem Chip.genPattern_congr {c d : Chip} {p : Nat} (hb : d.build = c.build) (h : d.ctrls = c.ctrls)
    (h1 : d.get (F.PORT_TEST_PATTERN.pg p) = c.get (F.PORT_TEST_PATTERN.pg p)) (h2 : d.get (F.PORT_TEST_GEN_LANES.pg p) = c.get (F.PORT_TEST_GEN_LANES.pg p))
    (l : Nat) : d.genPattern p l = c.genPattern p l := by
  rw [Chip.genPattern, Chip.en_congr hb h, h1, h2]
  rfl

theorem Chip.injectLane_congr {c d : Chip} {p : Nat} (h : d.get (F.PORT_INJECT_LANE.pg p) = c.get (F.PORT_INJECT_LANE.pg p)) :
    d.injectLane p = c.injectLane p := by
  rw [Chip.injectLane, h]
  rfl

/-- An injection under a test pattern. -/
theorem Chip.injectPattern_flips (c : Chip) (p : Nat) (h : c.genPattern p (c.injectLane p) ≠ 0) :
    (c.injectPattern p).get (F.PORT_INJECT_ONCE.pg p) = 0 ∧ (c.rst.extest = false →
      .patternFlip p (c.injectLane p) (c.get (F.PORT_INJECT_BITS.pg p) + 1) ∈ (c.injectPattern p).out) := by
  have he : c.injectPattern p = (c.set (F.PORT_INJECT_ONCE.pg p) 0).emit (.patternFlip p (c.injectLane p) (c.get (F.PORT_INJECT_BITS.pg p) + 1)) := by
    unfold Chip.injectPattern
    dsimp only
    rw [if_neg h]
  rw [he]
  refine ⟨?_, fun hx => ?_⟩
  · rw [Chip.emit_get, Chip.get_set_pg _ _ _ _ (by decide) (by decide)]
    rfl
  · have hx' : (c.set (F.PORT_INJECT_ONCE.pg p) 0).rst.extest = false := hx
    unfold Chip.emit
    rw [hx', if_neg (by simp)]
    exact List.mem_append_right _ (List.mem_singleton_self _)

/-- INJECT.ONCE armed, and what it does under a test pattern. -/
theorem Chip.injectOnce_shows (c : Chip) (o : Origin) (p : Nat) (hp : p < c.numPorts) (hc : Calm c) :
    let t := c.writeField o (F.PORT_INJECT_ONCE.pg p) 1
    t.get (F.PORT_INJECT_LANE.pg p) = c.get (F.PORT_INJECT_LANE.pg p) ∧
      if c.genPattern p (c.injectLane p) = 0 then t.get (F.PORT_INJECT_ONCE.pg p) = 1
      else t.get (F.PORT_INJECT_ONCE.pg p) = 0 ∧ (c.rst.extest = false →
        .patternFlip p (c.injectLane p) (c.get (F.PORT_INJECT_BITS.pg p) + 1) ∈ t.out) := by
  have h16 := Chip.port_lt hp
  obtain ⟨d, hd, hf⟩ := regAt_inject c hp
  have hbit : (insBits (c.keepWord (portReg p 0x94)) 31 31 1).getLsbD 31 = true := insBits_bit_one _ _ (by decide)
  have he : ∀ x : Chip, x.portEffect p 0x94 (c.rd (portReg p 0x94)) (insBits (c.keepWord (portReg p 0x94)) 31 31 1) =
      (x.set (F.PORT_INJECT_ONCE.pg p) 1).injectPattern p := fun x => by
    unfold Chip.portEffect
    rw [if_neg (by decide), if_neg (by decide), if_neg (by decide), if_neg (by decide), if_neg (by simp), if_pos rfl, if_pos hbit]
  have hset : ∀ x : Chip, PortWork (fun _ => ()) [F.PORT_INJECT_LANE, F.PORT_INJECT_BITS, F.PORT_TEST_PATTERN, F.PORT_TEST_GEN_LANES] p x
      (x.set (F.PORT_INJECT_ONCE.pg p) 1) := fun x => .set_pg .refl (by decide)
  obtain ⟨x, hx, hw⟩ := Chip.writeField_portCommand (o := o) (f := F.PORT_INJECT_ONCE) (fun x => (x.set (F.PORT_INJECT_ONCE.pg p) 1).injectPattern p) h16 rfl rfl hd
    (commandAt_inject hf) (by decide) hc he (fun x h => (PortWork.injectPattern (Fs := []) ((hset x).mono (g' := fun _ => ()) rfl) p).calm h)
  have h1 := ((hx [F.PORT_INJECT_LANE, F.PORT_INJECT_BITS, F.PORT_TEST_PATTERN, F.PORT_TEST_GEN_LANES] (by decide)).mono (g' := fun _ => ()) rfl).trans (hset x)
  have hone : (x.set (F.PORT_INJECT_ONCE.pg p) 1).get (F.PORT_INJECT_ONCE.pg p) = 1 := Chip.get_set_pg _ _ _ _ (by decide) (by decide)
  dsimp only
  rw [hw, Chip.noteMirror_get, Chip.noteMirror_get, Chip.noteMirror_part _ _ Chip.out (fun _ _ => rfl)]
  generalize x.set (F.PORT_INJECT_ONCE.pg p) 1 = y at h1 hone ⊢
  have hl : y.injectLane p = c.injectLane p := Chip.injectLane_congr (h1.get F.PORT_INJECT_LANE)
  have hg : y.genPattern p (y.injectLane p) = c.genPattern p (c.injectLane p) := by
    rw [hl]
    exact Chip.genPattern_congr h1.build h1.ctrls (h1.get F.PORT_TEST_PATTERN) (h1.get F.PORT_TEST_GEN_LANES) _
  have h2 : PortWork (fun _ => ()) [F.PORT_INJECT_LANE] p y (y.injectPattern p) := .injectPattern .refl p
  refine ⟨(h2.get F.PORT_INJECT_LANE).trans (h1.get F.PORT_INJECT_LANE), ?_⟩
  split
  next h =>
    have hsame : y.injectPattern p = y := by
      unfold Chip.injectPattern
      dsimp only
      rw [if_pos (hg.trans h)]
    rw [hsame, hone]
  next h =>
    obtain ⟨k1, k2⟩ := y.injectPattern_flips p (by rw [hg]; exact h)
    refine ⟨k1, fun hx => ?_⟩
    rw [← hl, ← h1.get F.PORT_INJECT_BITS]
    exact k2 (by rw [h1.rst]; exact hx)

/-- An injection that REPEAT makes due. -/
theorem Chip.injectDue_shows (c : Chip) (p : Nat) :
    let t := c.injectDue p
    if c.on (F.PORT_INJECT_REPEAT.pg p) = false then t = c
    else if c.genPattern p (c.injectLane p) = 0 then
      (t.port p).injCnt = c.get (F.PORT_INJECT_EVERY_BLOCKS.pg p) ∧ QuietBut [] c t
    else t.get (F.PORT_INJECT_ONCE.pg p) = 0 ∧ (c.rst.extest = false →
      .patternFlip p (c.injectLane p) (c.get (F.PORT_INJECT_BITS.pg p) + 1) ∈ t.out) := by
  dsimp only
  unfold Chip.injectDue
  split
  next h => rw [h]; rfl
  next h =>
    have h' : c.on (F.PORT_INJECT_REPEAT.pg p) = true := by simpa using h
    rw [h']
    split
    next hg =>
      rw [if_neg (by decide), if_neg (by simpa using hg), Chip.port_setPort, if_pos rfl]
      exact ⟨rfl, rfl, fun _ _ _ => rfl⟩
    next hg => exact c.injectPattern_flips p hg

/-! ### The window of the calibration sets (R216) -/

theorem regAt_cal (c : Chip) {p : Nat} (hp : p < c.numPorts) :
    ∃ d, regAt c.build (portReg p 0x7C) = .reg d ∧ ∀ v w, d.quiesceChange v w = false := by
  unfold Chip.numPorts at hp
  cases hb : c.build <;> rw [hb] at hp <;> dsimp only at hp <;> interval_cases p <;> exact ⟨_, rfl, fun _ _ => by simp [RegDef.quiesceChange]⟩

theorem calIdx_pg (p : Nat) : calIdx p = (calIdx 0).pg p := by
  simp only [calIdx, Fld.pg, Fld.mk.injEq, and_true]
  omega

/-- The index of the window after an access. -/
def Chip.calNext (c : Chip) (p : Nat) : Nat := (c.get (calIdx p) + b2n (c.on (F.PORT_CAL_ADDR_AUTO_INC.pg p))) % 16

theorem Chip.calAdvance_index (c : Chip) (p : Nat) : (c.calAdvance p).get (calIdx p) = c.calNext p := by
  unfold Chip.calAdvance Chip.autoInc Chip.calNext
  by_cases h : c.on (F.PORT_CAL_ADDR_AUTO_INC.pg p) = true
  · simp only [h, if_true]
    exact Chip.get_set _ _ _ (show (0 : Nat) ≤ 3 by decide) (show (3 : Nat) < 32 by decide)
  · have hlt : c.get (calIdx p) < 16 := c.get_lt _
    simp only [h, Bool.false_eq_true, if_false]
    exact (Nat.mod_eq_of_lt hlt).symm

theorem Chip.calAdvance_build (c : Chip) (p : Nat) : (c.calAdvance p).build = c.build := by
  unfold Chip.calAdvance Chip.autoInc
  split <;> rfl

theorem Chip.calAdvance_port (c : Chip) (p : Nat) : (c.calAdvance p).port p = c.port p := by
  unfold Chip.calAdvance Chip.autoInc
  split <;> rfl

theorem PortWork.calWrite {c : Chip} {p : Nat} {w : Word} : PortWork (fun _ => ()) [] p c (c.calWrite p w) := by
  have hadv : ∀ x : Chip, PortWork (fun _ => ()) [] p x (x.calAdvance p) := fun x => by
    unfold Chip.calAdvance Chip.autoInc
    refine .ite ?_ .refl
    rw [calIdx_pg]
    exact PortWork.refl.set_pg rfl
  unfold Chip.calWrite
  exact PortWork.trans (.ite .refl (.setPort_of .refl p _ rfl)) (hadv _)

theorem Chip.calNext_congr {c d : Chip} {p : Nat} (hi : d.get (calIdx p) = c.get (calIdx p))
    (ha : d.get (F.PORT_CAL_ADDR_AUTO_INC.pg p) = c.get (F.PORT_CAL_ADDR_AUTO_INC.pg p)) : d.calNext p = c.calNext p := by
  rw [Chip.calNext, Chip.on, hi, ha]
  rfl

/-- A word written to a set. -/
theorem Chip.write32_cal (c : Chip) (o : Origin) (p : Nat) (w : Word) (hp : p < c.numPorts) (hc : Calm c) (hk : c.get (calIdx p) % 4 ≠ 3) :
    smGet 0 ((c.write32 o (portReg p 0x7C) w).port p).cal (c.get (calIdx p)) = w ∧ (c.write32 o (portReg p 0x7C) w).get (calIdx p) = c.calNext p := by
  have h16 := Chip.port_lt hp
  obtain ⟨d, hd, hq⟩ := regAt_cal c hp
  have hu : ∀ p < 16, unstored (portReg p 0x7C) = true := by decide
  have ha : portReg p 0x7C < 0x400000 ∧ portReg p 0x7C % 4 = 0 ∧ 0x40 ≤ portReg p 0x7C % 4096 ∧ portReg p 0x7C ≠ F.DEBUG_CTRL_UNLOCK.addr ∧
      unstored (portReg p 0x7C) = true := by
    refine ⟨by unfold portReg; omega, by unfold portReg; omega, by unfold portReg; omega, portReg_ne h16 (by decide) (by decide), hu p h16⟩
  have hx : PortWork PortSt.calm [calIdx 0, F.PORT_CAL_ADDR_AUTO_INC] p c (c.logged o (portReg p 0x7C) d w) :=
    .quiet .refl (c.quiet_logged o _ d w) (PendUp.logged c o _ d w) (.logged c o _ d w) h16 (fun _ => rfl)
  have hw : c.write32 o (portReg p 0x7C) w = ((c.logged o (portReg p 0x7C) d w).calWrite p w).noteMirror (portReg p 0x7C) := by
    rw [Chip.write32_unstored hd ha (hq _ _) hc.2, Chip.writeEffect_port _ _ _ _ _ _ h16 (by decide)]
    exact ((PortWork.calWrite.calm (hx.calm hc)).noteMirror _).settle
  generalize c.logged o (portReg p 0x7C) d w = x at hx hw
  have hi : x.get (calIdx p) = c.get (calIdx p) := by
    rw [calIdx_pg]
    exact hx.get (calIdx 0)
  have hn : x.calNext p = c.calNext p := Chip.calNext_congr hi (hx.get F.PORT_CAL_ADDR_AUTO_INC)
  have he : x.calWrite p w = (x.setPort p { x.port p with cal := smSet (x.port p).cal (x.get (calIdx p)) w }).calAdvance p := by
    unfold Chip.calWrite
    dsimp only
    rw [if_neg (by rw [hi]; exact hk)]
  rw [hw, he, Chip.noteMirror_port, Chip.noteMirror_get, Chip.calAdvance_port, Chip.calAdvance_index, Chip.port_setPort, if_pos rfl, ← hi]
  refine ⟨?_, ?_⟩
  · simp
  · exact hn

/-- A word read. -/
theorem Chip.hostRead_cal (c : Chip) (o : Origin) (p : Nat) (hp : p < c.numPorts) (hopen : c.pathsOpen = true) :
    ((c.hostRead o (portReg p 0x7C) 4).port p).cal = (c.port p).cal ∧ (c.hostRead o (portReg p 0x7C) 4).get (calIdx p) = c.calNext p := by
  have h16 := Chip.port_lt hp
  obtain ⟨d, hd, -⟩ := regAt_cal c hp
  have h1 : portReg p 0x7C / 4096 = 0x080 + p := by
    unfold portReg
    omega
  have heff : ∀ x : Chip, x.readEffect (portReg p 0x7C) = x.calAdvance p := by
    intro x
    interval_cases p <;> rfl
  obtain ⟨x, v, hx, he⟩ := c.hostRead_opened o (portReg p 0x7C) d hopen (by unfold portReg; omega) (by unfold portReg; omega) hd
    (fun x => by rw [heff, Chip.calAdvance_build])
  have ho : ∀ b : Build, ∀ p < 16, opensAt b (0x080078 + 4096 * p) = false := by
    intro b
    cases b <;> decide +kernel
  have hpg : (calIdx p).addr / 4096 = portReg p 0x7C / 4096 := by
    show (0x080078 + 4096 * p) / 4096 = _
    unfold portReg
    omega
  have hi : x.get (calIdx p) = c.get (calIdx p) := hx.get (calIdx p) hpg (ho _ p h16)
  have hn : x.calNext p = c.calNext p := Chip.calNext_congr hi (hx.get (F.PORT_CAL_ADDR_AUTO_INC.pg p) hpg (ho _ p h16))
  rw [he, heff]
  have hport : x.port p = c.port p := hx.part (fun c => c.port p) (fun _ _ _ _ => rfl)
  refine ⟨?_, ?_⟩
  · show ((x.calAdvance p).port p).cal = _
    rw [Chip.calAdvance_port, hport]
  · show (x.calAdvance p).get (calIdx p) = _
    rw [Chip.calAdvance_index, hn]

/-- Settles O35: the checker by its state and counters, each command by its bit beside the fields it keeps, the sets through their window. -/
theorem testAndInjection : Obligations.TestAndInjection := by
  intro s p hrun hp
  have h16 := Chip.port_lt hp
  have haddr : (F.PORT_CAL_DATA_PHASE.pg p).addr = portReg p 0x7C := by
    show 0x08007C + 4096 * p = _
    unfold portReg
    omega
  have hone : ∀ (c : Chip) l b, p < c.numPorts → l < 3 → c.checks p l = true → ∀ k, c.testErr p l (b :: k) = k.foldl (fun c b => c.checkBit p l b) (c.checkBit p l b) :=
    fun c l b hp hl hc k => by
      unfold Chip.testErr
      rw [if_neg]
      · rfl
      · simp only [Bool.or_eq_true, decide_eq_true_eq, Bool.not_eq_true', not_or]
        exact ⟨⟨by omega, by omega⟩, by rw [hc]; decide⟩
  refine ⟨fun l b hl hc => ⟨fun hk => ?_, fun hk h5 hd => ?_, fun k u hu hru hpu hcu => ?_⟩, fun o hc => ⟨?_, ?_, fun w hk => ?_, ?_⟩, ?_⟩
  case _ =>
    refine Completes.live (fun c => c.testErr p l [b]) rfl hrun ?_
    rw [hone _ l b hp hl hc]
    exact s.chip.checkBit_locked p l b h16 hl hk
  case _ =>
    refine Completes.live (fun c => c.testErr p l [b]) rfl hrun ?_
    rw [hone _ l b hp hl hc]
    exact s.chip.checkBit_unlocked p l b h16 hl hk h5 hd
  case _ =>
    have hlive : ∀ (s : State) (x : Chip → Chip), Runs s → Machine.live s x = .next { s with chip := x s.chip } := fun s x h => by
      unfold Machine.live
      rw [h]
      rfl
    have hx : ∀ (s : State) (m : List Bool), exec (.testErr p l m) s = Machine.live s (fun c => c.testErr p l m) := fun _ _ => rfl
    rw [hx, hlive _ _ hrun, hone _ l b hp hl hc] at hu
    rw [hx, hx, hlive _ _ hrun, hlive _ _ hru, hone _ l b hp hl hc]
    have hu' : u = { s with chip := s.chip.checkBit p l b } := (by simpa using hu.symm)
    subst hu'
    have hall : (s.chip.checkBit p l b).testErr p l k = k.foldl (fun c b => c.checkBit p l b) (s.chip.checkBit p l b) := by
      unfold Chip.testErr
      rw [if_neg]
      simp only [Bool.or_eq_true, decide_eq_true_eq, Bool.not_eq_true', not_or]
      exact ⟨⟨Nat.not_le.2 hpu, by omega⟩, by rw [hcu]; decide⟩
    rw [hall]
  case _ =>
    refine Completes.serveFor o (fun c => c.onPort p (fun c => c.writeField o (F.PORT_TEST_CLR.pg p) 1)) rfl hrun ?_
    rw [Chip.onPort_in hp]
    exact fun l hl => s.chip.testClr_clears o p hp hc l hl
  case _ =>
    refine Completes.serveFor o (fun c => c.onPort p (fun c => c.writeField o (F.PORT_INJECT_ONCE.pg p) 1)) rfl hrun ?_
    rw [Chip.onPort_in hp]
    exact s.chip.injectOnce_shows o p hp hc
  case _ =>
    refine Completes.serveFor o (fun c => c.onPort p (fun c => c.window o (F.PORT_CAL_DATA_PHASE.pg p).addr (some w))) rfl hrun ?_
    rw [Chip.onPort_in hp, haddr]
    exact s.chip.write32_cal o p w hp hc hk
  case _ =>
    refine Completes.serveFor o (fun c => c.onPort p (fun c => c.window o (F.PORT_CAL_DATA_PHASE.pg p).addr none)) rfl hrun ?_
    rw [Chip.onPort_in hp, haddr]
    exact s.chip.hostRead_cal o p hp hc.2
  case _ =>
    refine Completes.port _ rfl hrun hp ?_
    exact s.chip.injectDue_shows p

end Sys2Proof.Machine
end

