-- ==== Sys2Proof/Proofs/CellsReceived.lean ====
section
-- One proof at a time: proofs that wait for the kernel side by side hold more memory than the check allows.
set_option Elab.async false
/-! PROOF. Cells that a port receives, what sending keeps, insertions and MONITOR cells (R189 to R209). -/

namespace Sys2Proof.Machine

/-! ### A cell received (R189, R195, R196) -/

/-- One block received, with the cell that it completes. -/
def Chip.blockStep (c : Chip) (p a m : Nat) (b : LineBlock) : Chip :=
  let r := c.rxBlock c.identity p b
  match r.1 with
  | some nine => r.2.cellArrive p (nine.map (·.1)) (joinBlocks (nine.map (·.2))) a m
  | none => r.2

theorem Chip.cellReceive_fold (c : Chip) (p a m : Nat) (l : List LineBlock) (hp : p < c.numPorts) (hs : c.state (portPage p) ≠ psOff) :
    c.cellReceive p l a m = l.foldl (fun c b => c.blockStep p a m b) c := by
  unfold Chip.cellReceive
  rw [if_neg]
  · rfl
  · simp only [Bool.or_eq_true, decide_eq_true_eq, not_or]
    exact ⟨by omega, hs⟩

/-- What the words of a cell leave alone as a port receives them: the port but for its sequence, its state, the modes, and the host's and the pair's part. -/
structure RxKept {β : Type} (g : PortSt → β) (p : Nat) (c d : Chip) : Prop where
  build : d.build = c.build
  inUse : d.inUse = c.inUse
  state : d.state (portPage p) = c.state (portPage p)
  port : g (d.port p) = g (c.port p)
  relay : d.host.relayOut = c.host.relayOut
  redun : d.redun = c.redun

namespace RxKept
variable {β : Type} {g : PortSt → β} {p : Nat} {c d e : Chip}

theorem refl : RxKept g p c c := ⟨rfl, rfl, rfl, rfl, rfl, rfl⟩

theorem trans (h : RxKept g p c d) (k : RxKept g p d e) : RxKept g p c e :=
  ⟨k.build.trans h.build, k.inUse.trans h.inUse, k.state.trans h.state, k.port.trans h.port, k.relay.trans h.relay, k.redun.trans h.redun⟩

theorem ite {P : Prop} [Decidable P] (h : RxKept g p c d) (k : RxKept g p c e) : RxKept g p c (if P then d else e) := by
  split
  · exact h
  · exact k

theorem wr (h : RxKept g p c d) {a : Nat} {w : Word} (ha : (F.STATE.pg (portPage p)).addr ≠ a) : RxKept g p c (d.wr a w) :=
  h.trans ⟨rfl, rfl, by rw [Chip.state, Chip.get, Chip.rd_wr, if_neg ha, Chip.state, Chip.get], rfl, rfl, rfl⟩

theorem quiet (h : RxKept g p c d) (hQ : Quiet d e) (hP : PortsCalm d e) (hp : p < 16) (hg : ∀ s, g s.calm = g s) : RxKept g p c e := by
  have hs : e.state (portPage p) = d.state (portPage p) := by
    rw [Chip.state_port, Chip.state_port]
    exact hQ.get _ (PortWork.quiet_pg (Fs := [portState]) (by decide) hp (by simp))
  have hr : e.host.relayOut = d.host.relayOut := by rw [hQ.host]
  have hd : e.redun = d.redun := hQ.redun
  exact h.trans ⟨hQ.build, hQ.inUse, hs, hP.part p g hg, hr, hd⟩

theorem setPort (h : RxKept g p c d) (q : Nat) (s : PortSt) (hs : q = p → g s = g (d.port p)) : RxKept g p c (d.setPort q s) := by
  refine h.trans ⟨rfl, rfl, rfl, ?_, rfl, rfl⟩
  rw [Chip.port_setPort]
  split
  next hq => exact hs hq.symm
  next => rfl

theorem cause (h : RxKept g p c d) (q b : Nat) (hp : p < 16) (hg : ∀ s, g s.calm = g s) : RxKept g p c (d.cause q b) := by
  have hne : (F.STATE.pg (portPage p)).addr ≠ 0x080068 + 4096 * q := by
    show 0x008 + 4096 * (0x080 + p) ≠ _
    omega
  unfold Chip.cause
  exact .ite ((h.wr hne).quiet (Chip.quiet_raise _ _) (.raise .refl) hp hg) (h.wr hne)

theorem report (h : RxKept g p c d) {pg : Nat} {l : List ErrRec} (hp : p < 16) (hg : ∀ s, g s.calm = g s) : RxKept g p c (d.report pg l) :=
  h.quiet (d.quiet_report pg l) (.report .refl) hp hg

theorem rxWord (h : RxKept g p c d) (lanes : List Nat) (w : Nat) (x : RawWord) (hp : p < 16) (hg : ∀ s, g s.calm = g s) :
    RxKept g p c (d.rxWord p lanes w x).1 := by
  unfold Chip.rxWord
  split
  · exact h
  · refine h.wr ?_
    show 0x008 + 4096 * (0x080 + p) ≠ 0x080058 + 4096 * p + 4 * _
    omega
  · exact h.cause _ _ hp hg

end RxKept

/-- A slipped cell counted: no direction is lost at a sender. -/
theorem Chip.slip_sender (c : Chip) (p : Nat) (hS : c.build = .S) : c.slip p = (c.bumpSat (F.PORT_CELL_ERR_SLIP.pg p)).cause p cSlip := by
  have hb : ((c.bumpSat (F.PORT_CELL_ERR_SLIP.pg p)).cause p cSlip).build = .S :=
    ((RxKept.refl (g := fun _ => ()) (p := 0)).cause p cSlip (by decide) (fun _ => rfl)).build.trans hS
  unfold Chip.slip Chip.streamLost
  rw [hb]

/-- What the words of a cell leave. -/
theorem Chip.rxWords_spec {β : Type} {g : PortSt → β} (c : Chip) (p : Nat) (lanes : List Nat) (r : RawCell) (hp : p < 16) (hS : c.build = .S)
    (hg : ∀ s, g s.calm = g s) (hseq : ∀ (s : PortSt) v, g { s with rxSeq := v } = g s) :
    RxKept g p c (c.rxWords p lanes r) ∧ ((c.rxWords p lanes r).port p).rxSeq = some ((r.w0.cseq + 1) % 32) ∧
    (rawSlip r ((c.port p).expects r) = true → (c.rxWords p lanes r).get (F.PORT_CAUSE_SLIP.pg p) = 1) := by
  unfold Chip.rxWords
  dsimp only
  have h1 : RxKept g p c (List.foldl (fun (a : Chip × List ErrRec) (x : Nat × RawWord) => let b := a.1.rxWord p lanes x.1 x.2; (b.1, a.2 ++ b.2)) (c, [])
      [(0, r.w0), (1, r.w1), (2, r.w2), (3, r.w3)]).1 :=
    foldl_rel (RxKept g p) (fun _ => .refl) .trans Prod.fst _ _ (fun a x _ => .rxWord .refl lanes x.1 x.2 hp hg) (c, [])
  generalize List.foldl (fun (a : Chip × List ErrRec) (x : Nat × RawWord) => ((a.1.rxWord p lanes x.1 x.2).1, a.2 ++ (a.1.rxWord p lanes x.1 x.2).2)) (c, [])
      [(0, r.w0), (1, r.w1), (2, r.w2), (3, r.w3)] = a at h1 ⊢
  generalize (if rawSlip r ((c.port p).expects r) = true then _ else a.2) = errs
  have h2 : RxKept g p c (a.1.report (portPage p) errs) := h1.report hp hg
  generalize a.1.report (portPage p) errs = x at h2 ⊢
  have h3 : RxKept g p c (x.setPort p { x.port p with rxSeq := some ((r.w0.cseq + 1) % 32) }) := h2.setPort p _ fun _ => hseq _ _
  have hs : ((x.setPort p { x.port p with rxSeq := some ((r.w0.cseq + 1) % 32) }).port p).rxSeq = some ((r.w0.cseq + 1) % 32) := by
    rw [Chip.port_setPort, if_pos rfl]
  generalize x.setPort p { x.port p with rxSeq := some ((r.w0.cseq + 1) % 32) } = y at h3 hs ⊢
  rw [Chip.slip_sender y p (h3.build.trans hS)]
  have hne : (F.STATE.pg (portPage p)).addr ≠ (F.PORT_CELL_ERR_SLIP.pg p).addr := by
    show 0x008 + 4096 * (0x080 + p) ≠ 0x080064 + 4096 * p
    omega
  have h4 : RxKept g p c ((y.bumpSat (F.PORT_CELL_ERR_SLIP.pg p)).cause p cSlip) := (h3.wr hne).cause _ _ hp hg
  have h5 : RxKept PortSt.rxSeq p y ((y.bumpSat (F.PORT_CELL_ERR_SLIP.pg p)).cause p cSlip) := (RxKept.refl.wr hne).cause _ _ hp (fun _ => rfl)
  split
  next h => exact ⟨h4, h5.port.trans hs, fun _ => Chip.get_cause _ F.PORT_CAUSE_SLIP p rfl rfl (Chip.cause_bit _ p cSlip hp (by decide))⟩
  next h => exact ⟨h3, hs, fun h' => absurd h' h⟩

/-! ### What sending on a port keeps -/

/-- The host's relay access and the part of the pair. -/
def Chip.answers (c : Chip) : Option RelayReq × RedunSt := (c.host.relayOut, c.redun)

theorem Keeps.lineBlocks {c d : Chip} (h : Keeps Chip.answers [] [] c d) (q : Nat) (l : List LineBlock) : Keeps Chip.answers [] [] c (d.lineBlocks q l) := by
  have hset : ∀ {x y : Chip} (f : Fld) (v : Nat), Keeps Chip.answers [] [] x y → plainReg f.addr = true → Keeps Chip.answers [] [] x (y.set (f.pg q) v) :=
    fun f v hx hf => hx.set (by simp) ((plainReg_pg f q).trans hf)
  have hone : ∀ (x : Chip) b, Keeps Chip.answers [] [] x (x.lineBlock q b).2 := fun x b => by
    unfold Chip.lineBlock Chip.burst
    dsimp only
    have h1 : Keeps Chip.answers [] [] x (x.setPort q ((x.port q).setLane b.lane { (x.port q).lane b.lane with txScr := prbsAfter 64 ((x.port q).lane b.lane).txScr })) :=
      Keeps.refl.setPort
    generalize x.setPort q ((x.port q).setLane b.lane { (x.port q).lane b.lane with txScr := prbsAfter 64 ((x.port q).lane b.lane).txScr }) = y at h1 ⊢
    rw [apply_ite Prod.snd, apply_ite Prod.snd]
    exact .ite h1 (.ite (hset _ _ h1.setPort (by decide)) h1.setPort)
  unfold Chip.lineBlocks
  refine .ite h (.emit ?_)
  exact h.trans (foldl_rel (Keeps Chip.answers [] []) (fun _ => .refl) .trans Prod.snd
    (fun (a : List LineBlock × Chip) b => let x := a.2.lineBlock q b; (a.1 ++ [x.1], x.2)) l (fun a b _ => hone a.2 b) ([], d))

theorem Keeps.sendCoded {c d : Chip} (h : Keeps Chip.answers [] [] c d) (q : Nat) (r : RawCell) : Keeps Chip.answers [] [] c (d.sendCoded q r) := by
  unfold Chip.sendCoded Chip.stream
  exact .lineBlocks (.setPort (.emit h)) q _

theorem Keeps.stackPass {c d : Chip} (h : Keeps Chip.answers [] [] c d) (p : Nat) (r : RawCell) : Keeps Chip.answers [] [] c (d.stackPass p r) := by
  unfold Chip.stackPass
  refine .ite (.sendCoded ?_ _ _) h
  exact h.setPort

/-- A header CRC that fails is counted. -/
theorem Chip.badHeader_spec (c : Chip) (p : Nat) (r : RawCell) (hp : p < 16) (hS : c.build = .S) :
    (c.badHeader p r).get (F.PORT_CAUSE_HDR_CRC.pg p) = 1 ∧ (c.badHeader p r).answers = c.answers := by
  have h1 : Keeps Chip.answers [] [] c ((c.stackPass p r).bumpSat (F.PORT_CELL_ERR_CRC_FAIL.pg p)) :=
    (Keeps.refl.stackPass p r).set (by simp) ((plainReg_pg _ p).trans (by decide))
  unfold Chip.badHeader
  dsimp only
  generalize (c.stackPass p r).bumpSat (F.PORT_CELL_ERR_CRC_FAIL.pg p) = x at h1 ⊢
  have h2 : RxKept (fun _ => ()) 0 x (x.cause p cHdrCrc) := RxKept.refl.cause p _ (by decide) (fun _ => rfl)
  have hb : (x.cause p cHdrCrc).build = .S := h2.build.trans (h1.build.trans hS)
  rw [if_neg (by rw [hb]; simp)]
  refine ⟨Chip.get_cause _ F.PORT_CAUSE_HDR_CRC p rfl rfl (x.cause_bit p cHdrCrc hp (by decide)), ?_⟩
  have hv : x.answers = c.answers := h1.view
  rw [← hv, Chip.answers, h2.relay, h2.redun, Chip.answers]

/-- A cell arrives at a port of a sender that carries cells. -/
theorem Chip.cellArrive_eq (c : Chip) (p : Nat) (lanes : List Nat) (r : RawCell) (a m : Nat) (hp : p < 16) (hS : c.build = .S) (hc : c.portCarries p = true) :
    c.cellArrive p lanes r a m = if rawSlip r ((c.port p).expects r) then c.rxWords p lanes r else (c.rxWords p lanes r).useCell p r a m := by
  have h1 := (c.rxWords_spec (g := fun _ => ()) p lanes r hp hS (fun _ => rfl) (fun _ _ => rfl)).1
  unfold Chip.cellArrive
  dsimp only
  rw [hc, if_neg (by simp), h1.build, hS]

theorem Chip.portMode_congr {c d : Chip} (hb : d.build = c.build) (hS : c.build = .S) (hu : d.inUse = c.inUse) (p : Nat) : d.portMode p = c.portMode p := by
  rw [Chip.portMode, Chip.portMode, hb, hS]
  simp only [Chip.rdUse, hu, hb]
  rfl

theorem Chip.withSeq_port (c : Chip) (p cell : Nat) :
    ((c.withSeq p cell).2.port p).qEcho = (c.port p).qEcho ∧ ((c.withSeq p cell).2.port p).rxSeq = (c.port p).rxSeq := by
  unfold Chip.withSeq
  dsimp only
  rw [Chip.port_setPort]
  split
  next h => exact ⟨by rw [← h], by rw [← h]⟩
  next h => exact ⟨rfl, rfl⟩

/-- A numbered ECHO cell joins the queue of its port. -/
def Chip.waitEcho (x : Nat × Chip) (p : Nat) (b : Build) : Chip :=
  let s := x.2.port p
  x.2.setPort p (match b with
    | .S => { s with qEcho := s.qEcho ++ [x.1] }
    | .T => { s with insEcho := s.insEcho ++ [x.1] })

theorem Chip.waitEcho_port (x : Nat × Chip) (p : Nat) :
    ((Chip.waitEcho x p .S).port p).qEcho = (x.2.port p).qEcho ++ [x.1] ∧ ((Chip.waitEcho x p .S).port p).rxSeq = (x.2.port p).rxSeq := by
  unfold Chip.waitEcho
  rw [Chip.port_setPort, if_pos rfl]
  exact ⟨rfl, rfl⟩

theorem Chip.echoCell_wait (c : Chip) (p cell m : Nat) (he : echoResp cell = false) :
    c.echoCell p cell m = Chip.waitEcho (c.withSeq p (mkEcho m (echoSeq cell) true)) p c.build := by
  unfold Chip.echoCell Chip.waitEcho
  rw [he, if_neg (by decide)] <;> rfl

/-- The response to an ECHO request waits in the queue of its port. -/
theorem Chip.echoCell_request (c : Chip) (p cell m : Nat) (hS : c.build = .S) (he : echoResp cell = false) :
    ((c.echoCell p cell m).port p).qEcho.length = (c.port p).qEcho.length + 1 ∧ ((c.echoCell p cell m).port p).rxSeq = (c.port p).rxSeq := by
  rw [Chip.echoCell_wait c p cell m he, hS]
  generalize mkEcho m (echoSeq cell) true = v
  obtain ⟨h1, h2⟩ := c.withSeq_port p v
  obtain ⟨k1, k2⟩ := Chip.waitEcho_port (c.withSeq p v) p
  rw [k1, h1, List.length_append]
  exact ⟨rfl, k2.trans h2⟩

theorem Chip.stackUse_echo (c : Chip) (p x a m : Nat) (ht : cellType x = ctEcho) : c.stackUse p x a m = c.echoCell p x m := by
  rw [Chip.stackUse, ht]
  rfl

theorem Chip.senderUse_echo (c : Chip) (p x m : Nat) (ht : cellType x = ctEcho) : c.senderUse p x m = c.echoCell p x m := by
  rw [Chip.senderUse, ht]
  rfl

/-- A good ECHO request at a sender is answered. -/
theorem Chip.useCell_echo (c : Chip) (p : Nat) (r : RawCell) (a m : Nat) (hS : c.build = .S) (hs : c.portCarries p = true) (hw : badWords r = 0)
    (hcrc : cellCrcOk (rawData r) = true) (ht : cellType (rawData r) = ctEcho) : c.useCell p r a m = c.echoCell p (rawData r) m := by
  have hf : c.state (portPage p) ≠ psFenced := fun h => by
    rw [Chip.portCarries, h] at hs
    exact absurd hs (by decide)
  have k1 := c.stackUse_echo p (rawData r) a m ht
  have k2 := c.senderUse_echo p (rawData r) m ht
  unfold Chip.useCell
  generalize rawData r = x at hcrc k1 k2 ⊢
  dsimp only
  rw [hw, hcrc, hS, if_neg (by decide), if_neg (by decide), if_neg hf]
  refine (if_neg (by decide)).trans ?_
  rw [k1, k2, ite_self]

theorem Chip.useCell_bad (c : Chip) (p : Nat) (r : RawCell) (a m : Nat) (hw : badWords r = 0) (hcrc : cellCrcOk (rawData r) = false) :
    c.useCell p r a m = c.badHeader p r := by
  unfold Chip.useCell
  dsimp only
  rw [hw, hcrc, if_neg (by decide)]
  rfl

/-! ### Insertion at a tile (R207) -/

/-- What has been sent stands at the front of what is sent. -/
def SentBefore (c d : Chip) : Prop := ∃ l, d.out = c.out ++ l

theorem SentBefore.refl (c : Chip) : SentBefore c c := ⟨[], (List.append_nil _).symm⟩

theorem SentBefore.trans {c d e : Chip} (h : SentBefore c d) (k : SentBefore d e) : SentBefore c e := by
  obtain ⟨l, hl⟩ := h
  obtain ⟨m, hm⟩ := k
  exact ⟨l ++ m, by rw [hm, hl, List.append_assoc]⟩

theorem SentBefore.of_out {c d : Chip} (h : d.out = c.out) : SentBefore c d := ⟨[], by rw [h, List.append_nil]⟩

theorem SentBefore.ite {P : Prop} [Decidable P] {c d e : Chip} (h : SentBefore c d) (k : SentBefore c e) : SentBefore c (if P then d else e) := by
  split
  · exact h
  · exact k

theorem SentBefore.emit (c : Chip) (o : Output) : SentBefore c (c.emit o) := by
  unfold Chip.emit
  split
  · exact .refl c
  · exact ⟨[o], rfl⟩

theorem SentBefore.lineBlocks (c : Chip) (p : Nat) (l : List LineBlock) : SentBefore c (c.lineBlocks p l) := by
  have hone : ∀ (x : Chip) b, SentBefore x (x.lineBlock p b).2 := fun x b => by
    unfold Chip.lineBlock Chip.burst
    dsimp only
    have h1 : SentBefore x (x.setPort p ((x.port p).setLane b.lane { (x.port p).lane b.lane with txScr := prbsAfter 64 ((x.port p).lane b.lane).txScr })) :=
      .of_out rfl
    generalize x.setPort p ((x.port p).setLane b.lane { (x.port p).lane b.lane with txScr := prbsAfter 64 ((x.port p).lane b.lane).txScr }) = y at h1 ⊢
    rw [apply_ite Prod.snd, apply_ite Prod.snd]
    exact .ite h1 (.ite (h1.trans (.of_out rfl)) (h1.trans (.of_out rfl)))
  unfold Chip.lineBlocks
  split
  · exact .refl c
  · exact .trans (foldl_rel SentBefore .refl .trans Prod.snd
      (fun (a : List LineBlock × Chip) b => let x := a.2.lineBlock p b; (a.1 ++ [x.1], x.2)) l (fun a b _ => hone a.2 b) ([], c)) (.emit _ _)

theorem PortSt.insertion_mgmt (s : PortSt) (x : Nat) (k : List Nat) (ht : s.insToll = []) (hm : s.insMgmt = x :: k) :
    s.insertion = some (x, { s with insMgmt := k }) := by
  unfold PortSt.insertion
  simp only [ht, hm]

theorem Chip.stream_setPort (c : Chip) (p : Nat) (l : List Nat) : ∃ a r b, c.stream p l = (c.setPort p { c.port p with txPos := a, txRest := r }).lineBlocks p b :=
  ⟨_, _, _, rfl⟩

theorem PortWork.sendCoded {α : Type} {g : PortSt → α} {c d : Chip} {p : Nat} (h : PortWork g [] p c d) (hg : Sends g)
    (hs : ∀ s a r, g { s with txPos := a, txRest := r } = g s) (q : Nat) (r : RawCell) : PortWork g [] p c (d.sendCoded q r) := by
  unfold Chip.sendCoded
  have h1 : PortWork g [] p c (d.emit (.cell q r)) := h.emit
  generalize d.emit (.cell q r) = x at h1 ⊢
  obtain ⟨a, t, b, e⟩ := x.stream_setPort q (cellBlocks r)
  rw [e]
  exact (h1.setPort_of q { x.port q with txPos := a, txRest := t } (hs _ _ _)).lineBlocks hg q b

theorem Chip.sendCoded_out (c : Chip) (q : Nat) (r : RawCell) (hx : c.rst.extest = false) : ∃ l, (c.sendCoded q r).out = c.out ++ .cell q r :: l := by
  have he : (c.emit (.cell q r)).out = c.out ++ [.cell q r] := by
    rw [Chip.emit, hx, if_neg (by simp)]
  unfold Chip.sendCoded
  generalize c.emit (.cell q r) = x at he ⊢
  obtain ⟨a, t, b, e⟩ := x.stream_setPort q (cellBlocks r)
  obtain ⟨l, hl⟩ := SentBefore.lineBlocks (x.setPort q { x.port q with txPos := a, txRest := t }) q b
  rw [e, hl]
  refine ⟨l, ?_⟩
  rw [show (x.setPort q { x.port q with txPos := a, txRest := t }).out = x.out from rfl, he, List.append_assoc, List.singleton_append]

theorem Sends.inserted : Sends (fun s : PortSt => (s.insMgmt, s.sinceInsert)) := by
  refine ⟨fun s l v => ?_, fun _ _ => rfl⟩
  unfold PortSt.setLane
  split <;> rfl

theorem Chip.slotPassed_inserted (c : Chip) (p : Nat) (raw : Nat → RawCell) : ∃ s : PortSt, c.slotPassed p raw true = (c.setPort p s).sendCoded p (raw (c.port p).txSeq) ∧
    s.insMgmt = (c.port p).insMgmt ∧ s.sinceInsert = 1 := ⟨_, rfl, rfl, rfl⟩

/-- A slot taken by an insertion. -/
theorem Chip.slotPassed_spec (c : Chip) (p : Nat) (raw : Nat → RawCell) (hx : c.rst.extest = false) :
    ((c.slotPassed p raw true).port p).insMgmt = (c.port p).insMgmt ∧ ((c.slotPassed p raw true).port p).sinceInsert = 1 ∧
    ∃ l, (c.slotPassed p raw true).out = c.out ++ .cell p (raw (c.port p).txSeq) :: l := by
  obtain ⟨s, e, h1, h2⟩ := c.slotPassed_inserted p raw
  have hw : PortWork (fun s : PortSt => (s.insMgmt, s.sinceInsert)) [] p (c.setPort p s) ((c.setPort p s).sendCoded p (raw (c.port p).txSeq)) :=
    PortWork.refl.sendCoded Sends.inserted (fun _ _ _ => rfl) p _
  have hp := hw.port
  rw [Chip.port_setPort, if_pos rfl] at hp
  obtain ⟨k1, k2⟩ := Prod.mk.inj hp
  rw [e]
  exact ⟨k1.trans h1, k2.trans h2, (c.setPort p s).sendCoded_out p _ hx⟩

/-- A response inserted into a free slot. -/
theorem Chip.tileInsert_spec (c : Chip) (p x : Nat) (k : List Nat) (hp : p < 16) (hT : c.build = .T) (hx : c.rst.extest = false) (hc : c.portCarries p = true)
    (hq : c.portCarries (partner p) = false) (hslot : (c.port p).slot % 16 ≠ 0) (hi : 1024 ≤ (c.port p).sinceInsert) (ht : (c.port p).insToll = [])
    (hm : (c.port p).insMgmt = x :: k) :
    ((c.tileInsert p).port p).insMgmt = k ∧ ((c.tileInsert p).port p).sinceInsert = 1 ∧
    ∃ l, (c.tileInsert p).out = c.out ++ .cell p (encodeCell x (c.port p).txSeq) :: l := by
  have hf : c.state (portPage p) ≠ psFenced := fun h => by
    rw [Chip.portCarries, h] at hc
    exact absurd hc (by decide)
  have he : c.tileInsert p = (c.setPort p { c.port p with insMgmt := k }).slotPassed p (encodeCell x) true := by
    have hins := PortSt.insertion_mgmt (c.port p) x k ht hm
    have hsrc : c.sourcesStream p = true := by
      rw [Chip.sourcesStream, hq]
      rfl
    unfold Chip.tileInsert
    rw [if_neg (by rw [hT, hc]; simp), if_pos (by rw [hsrc]; rfl)]
    unfold Chip.freeSlot
    dsimp only
    rw [decide_eq_false hslot, if_neg (show ¬ ((decide ((c.port p).sinceInsert < 1024) || false) = true) by simpa using hi), if_neg hf, hins]
  obtain ⟨h1, h2, h3⟩ := (c.setPort p { c.port p with insMgmt := k }).slotPassed_spec p (encodeCell x) hx
  rw [he]
  rw [Chip.port_setPort, if_pos rfl] at h1 h3
  exact ⟨h1, h2, h3⟩

/-! ### What a MONITOR cell writes at a sender (R204, R205) -/

namespace PortsCalm

theorem dramStore (c : Chip) (a : Nat) (w : Word128) (syn : Nat) : PortsCalm c (c.dramStore a w syn) := by
  unfold Chip.dramStore Chip.dramPuts
  dsimp only
  have hput : ∀ (x : Chip) (l : List Nat) (v : Word128) (s : Nat), PortsCalm x (l.foldl (fun c k => c.dramPut k v s) x) := fun x l v s =>
    .foldl .refl fun y k _ => .of .refl
  split
  · exact .trans (.of .refl) (hput _ _ _ _)
  · exact hput _ _ _ _

theorem dramWriteWord (c : Chip) (m a : Nat) (l : List (Option Byte)) : PortsCalm c (c.dramWriteWord m a l) := by
  unfold Chip.dramWriteWord
  exact .ite .refl (.ite .refl (.ite .refl (.ite (.dramStore c _ _ _) ((dramReadWord c m a).trans (.dramStore _ _ _ _)))))

theorem dramTouch (c : Chip) (m : Nat) (h : PageHint) (a n : Nat) : PortsCalm c (c.dramTouch m h a n) :=
  .foldl .refl fun _ _ _ => .of .refl

theorem dramWriteNow (c : Chip) (m : Nat) (h : PageHint) (a : Nat) (l : List (Option Byte)) : PortsCalm c (c.dramWriteNow m h a l) := by
  rw [Chip.dramWriteNow_eq]
  have h1 : PortsCalm c (c.markBlocks a l.length) := by
    obtain ⟨m, e⟩ := c.markBlocks_eq a l.length
    rw [e]
    exact .of .refl
  exact (h1.trans (.dramTouch _ m h a _)).trans ((dramRange _ m a _).trans (.foldl .refl fun d x _ => .dramWriteWord d m _ _))

theorem dramWrite (c : Chip) (m a : Nat) (l : List Byte) : PortsCalm c (c.dramWrite m a l) := by
  unfold Chip.dramWrite Chip.dramWriteOpt
  exact .ite (.of .refl) (.dramWriteNow c _ _ _ _)

theorem cause (c : Chip) (p b : Nat) : PortsCalm c (c.cause p b) := by
  unfold Chip.cause
  exact .ite (.raise (.of .refl)) (.of .refl)

theorem monRing (c : Chip) (x : Nat) : PortsCalm c (c.monRing x) := by
  unfold Chip.monRing
  exact .ite (.cause _ _ _) (.of (.dramWrite _ _ _ _))

theorem monAccept (c : Chip) (x : Nat) : PortsCalm c (c.monAccept x) := by
  unfold Chip.monAccept
  dsimp only
  split
  · exact .of (.dramWrite c dmChain (c.statusAddr (cellTile x)) (cellBytes x))
  · exact (monRing c x).trans (.cause _ _ _)
  · have h : PortsCalm c (c.dramFetch dmChain (c.statusAddr (cellTile x)) 64).2 := dramRead c _ _ _
    exact .ite ((h.trans (.monRing _ x)).trans (.cause _ _ _)) h
  · exact .refl

end PortsCalm

/-- A second copy of a MONITOR cell is discarded, and the first is noted. -/
theorem Chip.monReceive_spec (c : Chip) (x : Nat) (hS : c.build = .S) (hcrc : cellCrcOk x = true) (ht : cellType x = ctMonitor) :
    if (smFind c.chain.monAccepted (cellTile x)).any (fun k => decide ((k + 256 - cellSeq x) % 256 < 128)) then c.monReceive x = c
    else smFind (c.monReceive x).chain.monAccepted (cellTile x) = some (cellSeq x) := by
  have e : c.monReceive x = if (smFind c.chain.monAccepted (cellTile x)).any (fun k => decide ((k + 256 - cellSeq x) % 256 < 128)) then c
      else { c with chain := { c.chain with monAccepted := smSet c.chain.monAccepted (cellTile x) (cellSeq x) } }.monAccept x := by
    unfold Chip.monReceive
    rw [if_neg (by rw [hS, hcrc, ht]; decide)]
    dsimp only
    cases smFind c.chain.monAccepted (cellTile x) <;> simp only [Option.any_some, Option.any_none]
  rw [e]
  split
  · rfl
  · rw [(PortsCalm.monAccept _ x).chain]
    rw [smFind_smSet, if_pos rfl]

/-! ### The reports of a tile (R197, R204) -/

theorem cellSeq_mkCell (h : Header) (v : Nat) : cellSeq (mkCell h v) = h.seq % 256 := by
  have hv : ∀ n k w : Nat, k < 256 → nbits (n * 256 + k + w * 2 ^ 64) 15 8 = n % 256 := fun n k w hk => by
    show (n * 256 + k + w * 2 ^ 64) / 2 ^ 8 % 2 ^ 8 = n % 256
    omega
  refine (hv _ _ _ (crc8_lt 56 _ 0 (by decide))).trans ?_
  omega

theorem Chip.reportPorts_nodup (c : Chip) : c.reportPorts.Nodup := by
  unfold Chip.reportPorts
  split <;> simp

/-- A report on every port of a list, each named once. -/
theorem Chip.reportEach_spec (x : Nat) (l : List Nat) (c : Chip) (hl : l.Nodup) (q : Nat) :
    ((l.foldl (fun c p => c.setPort p { c.port p with insMonitor := (c.port p).insMonitor ++ [x] }) c).port q).insMonitor =
      (c.port q).insMonitor ++ (if q ∈ l then [x] else []) ∧
    ((l.foldl (fun c p => c.setPort p { c.port p with insMonitor := (c.port p).insMonitor ++ [x] }) c).port q).cellSeq = (c.port q).cellSeq := by
  induction l generalizing c with
  | nil => simp
  | cons p l ih =>
    obtain ⟨hp, hl⟩ := List.nodup_cons.1 hl
    obtain ⟨h1, h2⟩ := ih (c.setPort p { c.port p with insMonitor := (c.port p).insMonitor ++ [x] }) hl
    rw [List.foldl_cons, h1, h2, Chip.port_setPort]
    by_cases hq : q = p
    · subst hq
      simp [hp]
    · simp [hq]

/-- A report goes to every stream towards a sender, and takes one number. -/
theorem Chip.queueMonitor_spec (c : Chip) (m : Nat) : ((c.queueMonitor m).port 0).cellSeq = ((c.port 0).cellSeq + 1) % 256 ∧
    ∃ x, cellSeq x = (c.port 0).cellSeq % 256 ∧ ∀ q ∈ c.reportPorts, ((c.queueMonitor m).port q).insMonitor = (c.port q).insMonitor ++ [x] := by
  unfold Chip.queueMonitor
  dsimp only
  have hx := cellSeq_mkCell { ctype := ctMonitor, tile := c.get F.CHAINCTL_TILE_ID_ID, seq := (c.port 0).cellSeq } m
  generalize mkCell { ctype := ctMonitor, tile := c.get F.CHAINCTL_TILE_ID_ID, seq := (c.port 0).cellSeq } m = x at hx ⊢
  have hports : (c.setPort 0 { c.port 0 with cellSeq := ((c.port 0).cellSeq + 1) % 256 }).reportPorts = c.reportPorts := rfl
  rw [hports]
  have hs := fun q => Chip.reportEach_spec x c.reportPorts (c.setPort 0 { c.port 0 with cellSeq := ((c.port 0).cellSeq + 1) % 256 }) c.reportPorts_nodup q
  refine ⟨?_, x, hx, fun q hq => ?_⟩
  · rw [(hs 0).2, Chip.port_setPort, if_pos rfl]
  · rw [(hs q).1, if_pos hq, Chip.port_setPort]
    split
    next h => rw [h]
    next => rfl

/-! ### Cells received and inserted (R189 to R209) -/

theorem Chip.blockStep_none (c : Chip) (p a m : Nat) (b : LineBlock) (h : (c.rxBlock c.identity p b).1 = none) :
    c.blockStep p a m b = (c.rxBlock c.identity p b).2 := by
  unfold Chip.blockStep
  dsimp only
  rw [h]

theorem Chip.blockStep_some (c : Chip) (p a m : Nat) (b : LineBlock) (nine : List (Nat × Nat)) (h : (c.rxBlock c.identity p b).1 = some nine) :
    c.blockStep p a m b = (c.rxBlock c.identity p b).2.cellArrive p (nine.map (·.1)) (joinBlocks (nine.map (·.2))) a m := by
  unfold Chip.blockStep
  dsimp only
  rw [h]

/-- What a cell leaves by its slip, its CRC or its type. -/
theorem Chip.cellArrive_slip (c : Chip) (p : Nat) (lanes : List Nat) (r : RawCell) (a m : Nat) (hp : p < 16) (hS : c.build = .S) (hc : c.portCarries p = true)
    (hs : rawSlip r ((c.port p).expects r) = true) : (c.cellArrive p lanes r a m).get (F.PORT_CAUSE_SLIP.pg p) = 1 ∧
    ((c.cellArrive p lanes r a m).port p).rxSeq = some ((r.w0.cseq + 1) % 32) ∧ (c.cellArrive p lanes r a m).host.relayOut = c.host.relayOut ∧
    (c.cellArrive p lanes r a m).redun = c.redun := by
  obtain ⟨hk, hq, hslip⟩ := c.rxWords_spec (g := fun _ => ()) p lanes r hp hS (fun _ => rfl) (fun _ _ => rfl)
  rw [c.cellArrive_eq p lanes r a m hp hS hc, if_pos hs]
  exact ⟨hslip hs, hq, hk.relay, hk.redun⟩

theorem Chip.cellArrive_crc (c : Chip) (p : Nat) (lanes : List Nat) (r : RawCell) (a m : Nat) (hp : p < 16) (hS : c.build = .S) (hc : c.portCarries p = true)
    (hs : rawSlip r ((c.port p).expects r) = false) (hw : badWords r = 0) (hcrc : cellCrcOk (rawData r) = false) :
    (c.cellArrive p lanes r a m).get (F.PORT_CAUSE_HDR_CRC.pg p) = 1 ∧ (c.cellArrive p lanes r a m).host.relayOut = c.host.relayOut ∧
    (c.cellArrive p lanes r a m).redun = c.redun := by
  obtain ⟨hk, -, -⟩ := c.rxWords_spec (g := fun _ => ()) p lanes r hp hS (fun _ => rfl) (fun _ _ => rfl)
  rw [c.cellArrive_eq p lanes r a m hp hS hc, if_neg (by rw [hs]; decide), Chip.useCell_bad _ p r a m hw hcrc]
  obtain ⟨h1, h2⟩ := (c.rxWords p lanes r).badHeader_spec p r hp (hk.build.trans hS)
  obtain ⟨h3, h4⟩ := Prod.mk.inj h2
  exact ⟨h1, h3.trans hk.relay, h4.trans hk.redun⟩

theorem Chip.cellArrive_echo (c : Chip) (p : Nat) (lanes : List Nat) (r : RawCell) (a m : Nat) (hp : p < 16) (hS : c.build = .S) (hc : c.portCarries p = true)
    (hs : rawSlip r ((c.port p).expects r) = false) (hw : badWords r = 0) (hcrc : cellCrcOk (rawData r) = true) (ht : cellType (rawData r) = ctEcho)
    (he : echoResp (rawData r) = false) : ((c.cellArrive p lanes r a m).port p).qEcho.length = (c.port p).qEcho.length + 1 ∧
    ((c.cellArrive p lanes r a m).port p).rxSeq = some ((r.w0.cseq + 1) % 32) := by
  obtain ⟨hk, hq, -⟩ := c.rxWords_spec (g := PortSt.qEcho) p lanes r hp hS (fun _ => rfl) (fun _ _ => rfl)
  have hc' : (c.rxWords p lanes r).portCarries p = true := by rw [Chip.portCarries, hk.state, ← Chip.portCarries, hc]
  rw [c.cellArrive_eq p lanes r a m hp hS hc, if_neg (by rw [hs]; decide),
    Chip.useCell_echo _ p r a m (hk.build.trans hS) hc' hw hcrc ht]
  obtain ⟨h1, h2⟩ := (c.rxWords p lanes r).echoCell_request p (rawData r) m (hk.build.trans hS) he
  rw [h1, h2, hk.port]
  exact ⟨rfl, hq⟩

/-- Settles O32: block by block, what the words of a cell leave, and what its use adds. -/
theorem cellsReceivedAndInserted : Obligations.CellsReceivedAndInserted := by
  intro s p hrun hp
  have h16 := Chip.port_lt hp
  have hone : ∀ (c : Chip) b a m, p < c.numPorts → c.state (portPage p) ≠ psOff → c.cellReceive p [b] a m = c.blockStep p a m b := fun c b a m h1 h2 =>
    c.cellReceive_fold p a m [b] h1 h2
  refine ⟨fun b a m hoff => ?_, fun x k hT hx hc hq hslot hi ht hm => ?_, fun x hS htile hc hcrc ht => ?_, fun hT hb => ?_, fun hT hl => ?_⟩
  · have hfst := hone s.chip b a m hp hoff
    have hlive : ∀ {P : Chip → Prop}, P (s.chip.blockStep p a m b) → Completes (.cellReceive p [b] a m) s P := fun hP =>
      Completes.live (fun c => c.cellReceive p [b] a m) rfl hrun (hfst ▸ hP)
    refine ⟨fun hn => hlive (s.chip.blockStep_none p a m b hn), fun l u hu hru hpu hou => ?_, fun nine hn hS hS' hc => ?_⟩
    · have e1 : ∀ t l, Runs t → exec (.cellReceive p l a m) t = .next { t with chip := t.chip.cellReceive p l a m } := fun t l ht => by
        show Machine.live t (fun c => c.cellReceive p l a m) = _
        rw [Machine.live, if_neg (by rw [ht]; decide)]
      rw [e1 s _ hrun] at hu ⊢
      obtain rfl := Host.Outcome.next.inj hu
      rw [e1 _ _ hru, s.chip.cellReceive_fold p a m (b :: l) hp hoff, Chip.cellReceive_fold _ p a m l hpu hou, hfst, List.foldl_cons]
    · refine ⟨fun hs => hlive ?_, fun hs hw hcrc => hlive ?_, fun hs hw hcrc ht he => hlive ?_⟩
      all_goals rw [s.chip.blockStep_some p a m b nine hn]
      · exact Chip.cellArrive_slip _ p _ _ a m h16 hS' hc hs
      · exact Chip.cellArrive_crc _ p _ _ a m h16 hS' hc hs hw hcrc
      · exact Chip.cellArrive_echo _ p _ _ a m h16 hS' hc hs hw hcrc ht he
  · exact Completes.port (fun c => c.tileInsert p) rfl hrun hp (s.chip.tileInsert_spec p x k h16 hT hx hc hq hslot hi ht hm)
  · refine Completes.port (fun c => c.when (c.tilePort p && c.portCarries p) (fun c => c.monReceive x)) rfl hrun hp ?_
    rw [Chip.when_pos _ _ _ (by rw [htile, hc]; rfl)]
    exact s.chip.monReceive_spec x hS hcrc ht
  · refine Completes.live (fun c => c.inT (fun c => c.when (decide (c.get F.CHAINCTL_TILE_CFG_STATUS_BARS ≠ 0)) Chip.queueStatus)) rfl hrun ?_
    rw [Chip.inT, Chip.when_pos _ _ _ (decide_eq_true hT), Chip.when_pos _ _ _ (decide_eq_true hb)]
    exact s.chip.queueMonitor_spec _
  · refine Completes.live (fun c => c.inT (fun c => c.when (decide (0 < c.chain.identityLeft)) (fun c =>
      { c with chain := { c.chain with identityLeft := c.chain.identityLeft - 1 } }.queueIdentity c.identity))) rfl hrun ?_
    rw [Chip.inT, Chip.when_pos _ _ _ (decide_eq_true hT), Chip.when_pos _ _ _ (decide_eq_true hl)]
    unfold Chip.queueIdentity
    generalize pf 224 _ 1 + _ + _ + _ + _ = v
    have hq := { s.chip with chain := { s.chip.chain with identityLeft := s.chip.chain.identityLeft - 1 } }.queueMonitor_spec v
    obtain ⟨-, x, -, hx⟩ := hq
    refine ⟨congrArg ChainSt.identityLeft (PortsCalm.queueMonitor _ v).chain, fun q hq => ?_⟩
    rw [hx q hq, List.length_append]
    rfl

end Sys2Proof.Machine
end

