-- ==== Sys2Proof/Proofs/RowSlots.lean ====
section
-- One proof at a time: proofs that wait for the kernel side by side hold more memory than the check allows.
set_option Elab.async false
/-! PROOF. Outputs one by one, reads of the pipeline of a tile, and row slots within the ceiling (R253, R255, R265, R421). -/

namespace Sys2Proof.Machine

/-! ### What is sent, one by one -/

/-- Outputs sent by a step, each of which meets `P`. -/
def Sent (P : Output → Prop) (c d : Chip) : Prop := ∃ l, d.out = c.out ++ l ∧ ∀ o ∈ l, P o

/-- Messages and ALERT_N meet `P`. -/
def AllowsReports (P : Output → Prop) : Prop := (∀ v, P (.msix v)) ∧ P (.alertN true)

namespace Sent
variable {P : Output → Prop} {c d e : Chip}

theorem refl : Sent P c c := ⟨[], (List.append_nil _).symm, fun _ h => absurd h List.not_mem_nil⟩

theorem trans (h : Sent P c d) (k : Sent P d e) : Sent P c e := by
  obtain ⟨l, hl, h⟩ := h
  obtain ⟨m, hm, k⟩ := k
  exact ⟨l ++ m, by rw [hm, hl, List.append_assoc], fun o ho => (List.mem_append.1 ho).elim (h o) (k o)⟩

theorem ite {p : Prop} [Decidable p] (h : Sent P c d) (k : Sent P c e) : Sent P c (if p then d else e) := by
  split
  · exact h
  · exact k

theorem of (h : Sent P c d) (ho : e.out = d.out := by rfl) : Sent P c e := h.trans ⟨[], by rw [ho, List.append_nil], fun _ h => absurd h List.not_mem_nil⟩

theorem wr (h : Sent P c d) {a : Nat} {w : Word} : Sent P c (d.wr a w) := h.of

theorem set (h : Sent P c d) {f : Fld} {v : Nat} : Sent P c (d.set f v) := h.wr

theorem foldl {β : Type} {f : Chip → β → Chip} {l : List β} (h : Sent P c d) (hf : ∀ x b, b ∈ l → Sent P x (f x b)) : Sent P c (l.foldl f d) :=
  h.trans (foldl_rel (Sent P) (fun _ => refl) trans id f l (fun x b hb => hf x b hb) d)

theorem foldl_snd {α β : Type} {f : α × Chip → β → α × Chip} {l : List β} {x : α} (hf : ∀ a b, Sent P a.2 (f a b).2) : Sent P c (l.foldl f (x, c)).2 :=
  foldl_rel (Sent P) (fun _ => refl) trans Prod.snd f l (fun a b _ => hf a b) (x, c)

theorem emit (h : Sent P c d) {o : Output} (ho : P o) : Sent P c (d.emit o) := by
  unfold Chip.emit
  exact .ite h (h.trans ⟨[o], rfl, fun x hx => List.mem_singleton.1 hx ▸ ho⟩)

theorem mem (h : Sent P c d) {o : Output} (ho : o ∈ c.out) : o ∈ d.out := by
  obtain ⟨l, hl, -⟩ := h
  rw [hl]
  exact List.mem_append_left _ ho

section
variable (hP : AllowsReports P)
include hP

theorem alertFall (h : Sent P c d) : Sent P c d.alertFall := by
  unfold Chip.alertFall
  exact .ite (.emit (.of h) hP.2) h

theorem sendMsix (h : Sent P c d) (v : Nat) : Sent P c (d.sendMsix v) := by
  unfold Chip.sendMsix
  exact .ite (.of h) (.emit h (hP.1 v))

omit hP in

theorem queueMonitor (h : Sent P c d) (m : Nat) : Sent P c (d.queueMonitor m) := by
  unfold Chip.queueMonitor
  exact .foldl (.of h) fun _ _ _ => .of .refl

omit hP in

theorem monitorEvent (h : Sent P c d) (e : Ev) : Sent P c (d.monitorEvent e) := by
  unfold Chip.monitorEvent
  split
  · exact h
  · exact .ite (h.queueMonitor _) (.of h)

theorem raiseWith {push : Chip → EvRec → Chip} (hp : ∀ c r, Sent P c (push c r)) (h : Sent P c d) (e : Ev) : Sent P c (d.raiseWith push e) := by
  unfold Chip.raiseWith
  refine .ite h ?_
  dsimp only
  exact alertFall hP (.monitorEvent (trans (.ite (sendMsix hP (.of h) _) (.of h)) (hp _ _)) e)

omit hP in

theorem evqKeep (h : Sent P c d) (r : EvRec) : Sent P c (d.evqKeep r) := by
  unfold Chip.evqKeep
  split <;> exact .of h

theorem evqLose (h : Sent P c d) : Sent P c d.evqLose := raiseWith hP (fun _ r => .evqKeep .refl r) (.of h) _

theorem pushEv (h : Sent P c d) (r : EvRec) : Sent P c (d.pushEv r) := by
  unfold Chip.pushEv
  exact .ite (h.evqKeep r) (.ite (.of h) (.ite (evqLose hP (.of h)) (evqLose hP h)))

theorem raise (h : Sent P c d) (e : Ev) : Sent P c (d.raise e) := raiseWith hP (fun _ r => pushEv hP .refl r) h e

theorem cond (h : Sent P c d) (e : Ev) (b : Bool) : Sent P c (d.cond e b) := by
  unfold Chip.cond
  have hw : Sent P c (if d.raw e = b then d else d.wr (e.page * 4096 + 0x10)
      (if b then d.rd (e.page * 4096 + 0x10) ||| (1 : Word) <<< e.bit else d.rd (e.page * 4096 + 0x10) &&& ~~~((1 : Word) <<< e.bit))) := .ite h (.of h)
  exact .ite (raise hP hw e) hw

omit hP in

theorem report (h : Sent P c d) (pg : Nat) (l : List ErrRec) : Sent P c (d.report pg l) := by
  refine .foldl h fun x e _ => ?_
  unfold Chip.reportOne
  have h1 : Sent P x (if (x.rd (pg * 4096 + 0x20)).getLsbD 31 then x else (x.wr (pg * 4096 + 0x20) (e.word0 x.barCount)).wr (pg * 4096 + 0x24)
      (BitVec.ofNat 32 e.loc)) := .ite .refl (.wr (.wr .refl))
  exact .ite (.set (.ite (.wr (.wr h1)) h1)) (.set (.ite (.wr (.wr h1)) h1))

end
end Sent

/-! ### Reads of the banks by the pipeline of a tile -/

/-- A word read, with the record that a unit keeps of it. -/
def tileNote (x : (Word128 × Bool) × Chip) (r : TileRec) (e : Bool → ErrRec) : Option Bool → (Word128 × Bool) × Chip
  | none => x
  | some ue =>
    let c := x.2.report r.page [e ue]
    (x.1, match ue, r.ev with | true, some v => c.raise v | _, _ => c)

theorem Chip.tileWord_cases (c : Chip) (w : Nat) (r : TileRec) : c.tileWord w r = ((0, true), c.bankDeny (w / 65536)) ∨
    ∃ e o, c.tileWord w r = tileNote ((c.retireWord (w / 65536) (w % 65536)).sramReadWord mOwner w) r e o := by
  unfold Chip.tileWord
  dsimp only
  split
  · exact .inl rfl
  · let y := c.retireWord (w / 65536) (w % 65536)
    refine .inr ⟨fun ue => ErrRec.mk ue 0 r.unit (y.sramSyn (y.sramWord w)) (sramLoc w), ?_⟩
    generalize (c.retireWord (w / 65536) (w % 65536)).sramReadWord mOwner w = x
    split
    · exact ⟨none, rfl⟩
    next ue _ => exact ⟨some ue, rfl⟩

theorem Sent.pair {α : Type} {P : Output → Prop} {c d : Chip} {x : α} (h : Sent P c d) : Sent P c (x, d).2 := h

theorem MemOnly.pair {α : Type} {c d : Chip} {x : α} (h : MemOnly c d) : MemOnly c (x, d).2 := h

namespace Sent
variable {P : Output → Prop} (hP : AllowsReports P)
include hP

theorem sramReadWord (c : Chip) (u w : Nat) : Sent P c (c.sramReadWord u w).2 := by
  unfold Chip.sramReadWord
  dsimp only
  split
  · exact .refl
  · exact raise hP (.wr (.report .refl _ _)) _
  · exact .refl
  · exact .ite .refl (raise hP (.report (.of .refl) _ _) _)

omit hP in

theorem sramStore (c : Chip) (k : Nat) (w : Word128) (s : Nat) : Sent P c (c.sramStore k w s) := by
  unfold Chip.sramStore
  exact .ite (.of .refl) (.of .refl)

theorem retireEntry (c : Chip) (b : Nat) (e : MergeEntry) : Sent P c (c.retireEntry b e) := by
  unfold Chip.retireEntry
  exact .ite (.sramStore _ _ _ _) (.trans (sramReadWord hP _ _ _) (.sramStore _ _ _ _))

theorem retireWord (c : Chip) (b w : Nat) : Sent P c (c.retireWord b w) := by
  unfold Chip.retireWord
  dsimp only
  split
  · exact .refl
  next e _ => exact .set (.trans (.of .refl) (retireEntry hP _ b e))

theorem bankDeny (c : Chip) (b : Nat) : Sent P c (c.bankDeny b) := raise hP (.set .refl) _

theorem tileNote (x : (Word128 × Bool) × Chip) (r : TileRec) (e : Bool → ErrRec) (o : Option Bool) : Sent P x.2 (tileNote x r e o).2 := by
  cases o with
  | none => exact .refl
  | some ue =>
    show Sent P x.2 (match ue, r.ev with | true, some v => (x.2.report r.page [e ue]).raise v | _, _ => x.2.report r.page [e ue])
    split
    · exact raise hP (.report .refl _ _) _
    · exact .report .refl _ _

theorem tileWord (c : Chip) (w : Nat) (r : TileRec) : Sent P c (c.tileWord w r).2 := by
  rcases c.tileWord_cases w r with e | ⟨x, o, e⟩
  · rw [e]
    exact bankDeny hP _ _
  · rw [e]
    exact .trans ((retireWord hP c _ _).trans (sramReadWord hP _ _ _)) (tileNote hP _ r x o)

theorem tileRead (c : Chip) (b o n : Nat) (r : TileRec) : Sent P c (c.tileRead b o n r).2 := by
  exact .pair (.foldl_snd fun a w => .pair (tileWord hP a.2 w r))

end Sent

theorem MemOnly.tileNote (x : (Word128 × Bool) × Chip) (r : TileRec) (e : Bool → ErrRec) (o : Option Bool) : MemOnly x.2 (tileNote x r e o).2 := by
  cases o with
  | none => exact .refl
  | some ue =>
    show MemOnly x.2 (match ue, r.ev with | true, some v => (x.2.report r.page [e ue]).raise v | _, _ => x.2.report r.page [e ue])
    split
    · exact .raise (.report .refl)
    · exact .report .refl

theorem MemOnly.tileWord (c : Chip) (w : Nat) (r : TileRec) : MemOnly c (c.tileWord w r).2 := by
  rcases c.tileWord_cases w r with e | ⟨x, o, e⟩
  · rw [e]
    exact .bankDeny _ _
  · rw [e]
    exact .trans ((MemOnly.retireWord c _ _).trans (.sramReadWord _ _ _)) (.tileNote _ r x o)

theorem MemOnly.tileRead (c : Chip) (b o n : Nat) (r : TileRec) : MemOnly c (c.tileRead b o n r).2 := by
  exact .pair (.foldl_snd fun a w => .pair (.tileWord a.2 w r))

/-! ### A row slot (R253, R255, R265, R421) -/

/-- The drive but for what row slots write: doses, results with their forces, and the probes. -/
def DriveSt.frame (d : DriveSt) : DriveSt := { d with dose := [], diag := [], forceDue := [], chDue := [], probePass := [], probeRow := [] }

/-- What row slots leave alone: the build, the reset state, the part of the tile, and the drive's frame. -/
def Chip.litFrame (c : Chip) : Build × ResetSt × TileSt × DriveSt := (c.build, c.rst, c.tile, c.drive.frame)

/-- PAGE_STAT of DRIVECTL, which shows FAULT. -/
def driveStat : Nat := (F.STATE.pg pgDrive).addr

/-- The work of a row slot: the frame and the registers off PAGE_STAT stay, and what is sent meets `P`. -/
structure SlotWork (P : Output → Prop) (c d : Chip) : Prop where
  frame : d.litFrame = c.litFrame
  rd : ∀ a, quietReg a = true → a / 4096 < 0x0D0 → a ≠ driveStat → d.rd a = c.rd a
  pend : PendUp c d
  sent : Sent P c d

namespace SlotWork
variable {P : Output → Prop} {c d e : Chip}

theorem refl : SlotWork P c c := ⟨rfl, fun _ _ _ _ => rfl, PendUp.refl c, .refl⟩

theorem trans (h : SlotWork P c d) (k : SlotWork P d e) : SlotWork P c e :=
  ⟨k.frame.trans h.frame, fun a h1 h2 h3 => (k.rd a h1 h2 h3).trans (h.rd a h1 h2 h3), h.pend.trans k.pend, h.sent.trans k.sent⟩

theorem ite {p : Prop} [Decidable p] (h : SlotWork P c d) (k : SlotWork P c e) : SlotWork P c (if p then d else e) := by
  split
  · exact h
  · exact k

theorem pair {α : Type} {x : α} (h : SlotWork P c d) : SlotWork P c (x, d).2 := h

theorem foldl {β : Type} {f : Chip → β → Chip} {l : List β} (h : SlotWork P c d) (hf : ∀ x b, b ∈ l → SlotWork P x (f x b)) : SlotWork P c (l.foldl f d) :=
  h.trans (foldl_rel (SlotWork P) (fun _ => refl) trans id f l (fun x b hb => hf x b hb) d)

theorem mem (h : SlotWork P c d) (hm : MemOnly d e) (hs : Sent P d e) : SlotWork P c e :=
  h.trans ⟨hm.part Chip.litFrame, fun a h1 h2 _ => hm.rd a h1 h2, hm.pend, hs⟩

theorem setDrive (h : SlotWork P c d) {s : DriveSt} (hs : s.frame = d.drive.frame) : SlotWork P c (d.setDrive s) :=
  h.trans ⟨by rw [Chip.litFrame, Chip.litFrame, ← hs]; rfl, fun _ _ _ _ => rfl, PendUp.refl d, .of .refl⟩

theorem emit (h : SlotWork P c d) {o : Output} (ho : P o) : SlotWork P c (d.emit o) :=
  h.trans ⟨by unfold Chip.emit; split <;> rfl, fun a _ _ _ => d.emit_rd o a, fun x hx => by rw [Chip.pend, d.emit_rd]; exact hx, .emit .refl ho⟩

theorem raise (hP : AllowsReports P) (h : SlotWork P c d) (x : Ev) : SlotWork P c (d.raise x) := h.mem (.raise .refl) (.raise hP .refl x)

theorem report (h : SlotWork P c d) (pg : Nat) (l : List ErrRec) : SlotWork P c (d.report pg l) := h.mem (.report .refl) (.report .refl pg l)

theorem cond (hP : AllowsReports P) (h : SlotWork P c d) (x : Ev) (b : Bool) : SlotWork P c (d.cond x b) := by
  have hq := d.quiet_cond x b
  have hf : ∀ y : Chip, y.litFrame = y.still.litFrame := fun _ => rfl
  exact h.trans ⟨by rw [hf, hq.1, ← hf], fun a ha _ _ => hq.2.2 a ha, PendUp.cond d x b, .cond hP .refl x b⟩

theorem setFault (h : SlotWork P c d) {v : Nat} : SlotWork P c (d.set (F.FAULT.pg pgDrive) v) :=
  h.trans ⟨rfl, fun a _ _ ha => Chip.rd_set_ne d (F.FAULT.pg pgDrive) v a ha, fun x hx => by
    rw [Chip.pend, Chip.rd_set_ne]
    · exact hx
    · show x.page * 4096 + 0x18 ≠ 0x008 + 4096 * 0x0B4
      omega, .of .refl⟩

theorem get (h : SlotWork P c d) (f : Fld) (hq : quietReg f.addr = true := by decide) (hp : f.addr / 4096 < 0x0D0 := by decide)
    (hs : f.addr ≠ driveStat := by decide) : d.get f = c.get f := by rw [Chip.get, h.rd _ hq hp hs, Chip.get]

theorem tile (h : SlotWork P c d) : d.tile = c.tile := congrArg (fun x => x.2.2.1) h.frame

theorem build (h : SlotWork P c d) : d.build = c.build := congrArg (fun x => x.1) h.frame

theorem rst (h : SlotWork P c d) : d.rst = c.rst := congrArg (fun x => x.2.1) h.frame

theorem clampLevel (h : SlotWork P c d) (n : Nat) : d.clampLevel n = c.clampLevel n := by
  have hd : d.drive.clampUse = c.drive.clampUse := congrArg (fun x : Build × ResetSt × TileSt × DriveSt => x.2.2.2.clampUse) h.frame
  rw [Chip.clampLevel, hd, Chip.clampLevel]

theorem ceiling (h : SlotWork P c d) : d.ceiling = c.ceiling := h.get _

theorem geoBands (h : SlotWork P c d) : d.geoBands = c.geoBands := by rw [Chip.geoBands, h.get F.DRIVECTL_GEOMETRY_BANDS, Chip.geoBands]

theorem geoRows (h : SlotWork P c d) : d.geoRows = c.geoRows := by rw [Chip.geoRows, h.get F.DRIVECTL_GEOMETRY_ROWS, Chip.geoRows]

/-- The clamp of a band follows its page. -/
theorem bandClamp (h : SlotWork P c d) (n : Nat) (hn : n < 4) : d.bandClamp n = c.bandClamp n := by
  have hq : ∀ k < 4, quietReg (F.BAND_STATUS_TB.pg k).addr = true ∧ (F.BAND_STATUS_TB.pg k).addr / 4096 < 0x0D0 ∧ (F.BAND_STATUS_TB.pg k).addr ≠ driveStat := by
    decide
  obtain ⟨h1, h2, h3⟩ := hq n hn
  rw [Chip.bandClamp, h.get _ h1 h2 h3, Chip.bandClamp]

end SlotWork

theorem Chip.geoBands_le (c : Chip) : c.geoBands ≤ 4 := by
  have h := c.get_lt F.DRIVECTL_GEOMETRY_BANDS
  show c.get F.DRIVECTL_GEOMETRY_BANDS + 1 ≤ 4
  have h2 : 2 ^ (F.DRIVECTL_GEOMETRY_BANDS.hi + 1 - F.DRIVECTL_GEOMETRY_BANDS.lo) = 4 := by decide
  omega

/-! #### Diagnostic results -/

section
variable {P : Output → Prop} (hP : AllowsReports P)
include hP

omit hP in

theorem SlotWork.diagForce (c : Chip) (n row ch st : Nat) (m : Option Nat) : SlotWork P c (c.diagForce n row ch st m) := by
  unfold Chip.diagForce
  split
  · exact .refl
  · exact .setDrive .refl rfl
  · exact .setDrive .refl rfl

theorem SlotWork.diagResult (c : Chip) (n row ch res : Nat) (m : Option Nat) : SlotWork P c (c.diagResult n row ch res m) := by
  unfold Chip.diagResult
  dsimp only
  have hput : ∀ x : DiagEnt, SlotWork P c (c.setDrive { c.drive with diag := smSet c.drive.diag (c.emitterAt n row ch) x }) := fun x => .setDrive .refl rfl
  refine .ite (hput _) (.ite (hput _) ?_)
  have h := (hput ⟨res, 0, 0, c.drive.bars⟩).trans (.diagForce _ n row ch res m)
  split
  · exact h.raise hP _
  · exact h

theorem SlotWork.diagFollow {c d : Chip} (h : SlotWork P c d) (was : Chip) : SlotWork P c (Chip.diagFollow was d) := by
  unfold Chip.diagFollow Chip.diagShow
  exact .ite h (.cond hP (.setFault h) _ _)

omit hP in

theorem SlotWork.levelOut (c : Chip) (v : Nat) : SlotWork P c (c.levelOut v).2 := by
  unfold Chip.levelOut
  rw [apply_ite Prod.snd]
  exact .ite (.mem .refl (.openValue _ _) (.of .refl)) .refl

theorem SlotWork.driveLevel (c : Chip) (buf e : Nat) : SlotWork P c (c.driveLevel buf e).2 := by
  have h : SlotWork P c (c.tileRead (bufBank buf) (bufOfs buf + 2 * e) 2 (imageRec buf)).2 := .mem .refl (.tileRead c _ _ _ _) (.tileRead hP c _ _ _ _)
  exact .pair (h.trans (.levelOut _ _))

theorem SlotWork.linkWords (c : Chip) (link : List (Nat × Nat)) : SlotWork P c (c.linkWords link) := by
  refine .foldl .refl fun x b _ => .ite .refl ?_
  dsimp only
  split
  · exact .refl
  · exact .report .refl _ _
  · exact .raise hP (.report .refl _ _) _

end

theorem SlotWork.setDose {P : Output → Prop} {c d : Chip} (h : SlotWork P c d) (m : SMap Nat) : SlotWork P c (d.setDrive { d.drive with dose := m }) :=
  h.setDrive rfl

section
variable {P : Output → Prop} (hP : AllowsReports P)
include hP

/-- A channel in a row slot: its pulses stay within the ceiling. -/
theorem Chip.slotChannel_spec (c : Chip) (buf n row ch : Nat) (volts : List (Nat × Nat)) :
    SlotWork P c (c.slotChannel buf n row ch volts).2 ∧ ∀ x ∈ (c.slotChannel buf n row ch volts).1, x.na ≤ 985 * c.ceiling := by
  unfold Chip.slotChannel
  extract_lets s k e off r c1 d on src c2 probe mv c3 t own test
  have h1 : SlotWork P c c1 := .driveLevel hP c buf e
  clear_value on c1
  have h2 : SlotWork P c c2 := .ite h1 (.setDose h1 _)
  have h3 : SlotWork P c c3 := .ite (h2.trans (.diagResult hP c2 n row ch _ _)) h2
  have hna : c3.sinkCurrent n ch ≤ 985 * c.ceiling := h3.ceiling ▸ Nat.min_le_right _ _
  refine ⟨h3, fun x hx => ?_⟩
  rcases List.mem_append.1 hx with hx | hx
  · have ho : x ∈ (if on = 0 then [] else [{ ch := ch, start := t, steps := on, na := c3.sinkCurrent n ch }] : List Pulse) := hx
    split at ho
    · exact absurd ho List.not_mem_nil
    · rw [List.mem_singleton.1 ho]
      exact hna
  · have ho : x ∈ (if probe then [{ ch := ch, start := t + s.window - 65, steps := 65, na := c3.sinkCurrent n ch / 16 }] else [] : List Pulse) := hx
    split at ho
    · rw [List.mem_singleton.1 ho]
      exact (Nat.div_le_self _ _).trans hna
    · exact absurd ho List.not_mem_nil

/-- The pulses of a band: none where its link word was bad, and all within the ceiling. -/
theorem Chip.slotPulses_spec (c : Chip) (buf row : Nat) (bad : List Nat) (volts : List (Nat × Nat)) (n : Nat) :
    SlotWork P c (c.slotPulses buf row bad volts n).2 ∧ (∀ x ∈ (c.slotPulses buf row bad volts n).1, x.na ≤ 985 * c.ceiling) ∧
    (n ∈ bad → (c.slotPulses buf row bad volts n).1 = []) := by
  unfold Chip.slotPulses
  split
  next h => exact ⟨.refl, fun x hx => absurd hx List.not_mem_nil, fun _ => rfl⟩
  next h =>
    have hl : ∀ (l : List Nat) (a : List Pulse × Chip), SlotWork P c a.2 → (∀ x ∈ a.1, x.na ≤ 985 * c.ceiling) →
        SlotWork P c (l.foldl (fun (a : List Pulse × Chip) ch => let x := a.2.slotChannel buf n row ch volts; (a.1 ++ x.1, x.2)) a).2 ∧
        ∀ x ∈ (l.foldl (fun (a : List Pulse × Chip) ch => let x := a.2.slotChannel buf n row ch volts; (a.1 ++ x.1, x.2)) a).1, x.na ≤ 985 * c.ceiling := by
      intro l
      induction l with
      | nil => exact fun a h1 h2 => ⟨h1, h2⟩
      | cons ch l ih =>
        intro a h1 h2
        obtain ⟨k1, k2⟩ := a.2.slotChannel_spec hP buf n row ch volts
        refine ih _ (h1.trans k1) fun x hx => ?_
        rcases List.mem_append.1 hx with hx | hx
        · exact h2 x hx
        · exact h1.ceiling ▸ k2 x hx
    obtain ⟨h1, h2⟩ := hl (List.range (3 * c.geoCols)) ([], c) .refl fun x hx => absurd hx List.not_mem_nil
    exact ⟨h1, h2, fun hn => absurd (List.elem_eq_true_of_mem hn) h⟩

end

/-- What a row slot sends: reports, gates, and lights within a limit, without a pulse in the bands of a list. -/
def SlotOut (limit : Nat) (bad : List Nat) (o : Output) : Prop :=
  lightWithin limit o = true ∧ ∀ n ∈ bad, ∀ r cl cs ds ps, o = .light n r cl cs ds ps → ps = []

theorem SlotOut.reports (limit : Nat) (bad : List Nat) : AllowsReports (SlotOut limit bad) :=
  ⟨fun _ => ⟨rfl, fun _ _ _ _ _ _ _ h => nomatch h⟩, ⟨rfl, fun _ _ _ _ _ _ _ h => nomatch h⟩⟩

theorem SlotOut.gate (limit : Nat) (bad : List Nat) (n r : Nat) (on : Bool) (t : Nat) : SlotOut limit bad (.gate n r on t) :=
  ⟨rfl, fun _ _ _ _ _ _ _ h => nomatch h⟩

theorem SlotOut.light {limit : Nat} {bad : List Nat} (n r cl cs ds : Nat) {ps : List Pulse} (h : ∀ x ∈ ps, x.na ≤ limit) (hb : n ∈ bad → ps = []) :
    SlotOut limit bad (.light n r cl cs ds ps) := by
  refine ⟨List.all_eq_true.2 fun x hx => decide_eq_true (h x hx), fun m hm r' cl' cs' ds' ps' e => ?_⟩
  injection e with e1 _ _ _ _ e6
  exact e6 ▸ hb (e1 ▸ hm)

/-- The outputs of a lit band. -/
def Chip.BandLit (c : Chip) (row n : Nat) (d : Chip) : Prop :=
  ∃ ps, .light n row (c.clampLevel n) (c.bandClamp n).1 (c.bandClamp n).2 ps ∈ d.out ∧
    .gate n row true (c.bandClamp n).1 ∈ d.out ∧ .gate n row false c.tile.sched.slotSteps ∈ d.out

section
variable (limit : Nat) (bad : List Nat)

/-- The row slot of a band. -/
theorem Chip.slotBand_spec (c : Chip) (buf row : Nat) (volts : List (Nat × Nat)) (n : Nat) (hc : limit = 985 * c.ceiling) :
    SlotWork (SlotOut limit bad) c (c.slotBand buf row bad volts n) ∧
    (c.rst.extest = false → n < 4 → c.tile.sched.skip.getD n false = false → c.BandLit row n (c.slotBand buf row bad volts n)) := by
  unfold Chip.slotBand
  split
  next h => exact ⟨.refl, fun _ _ hs => absurd h (by rw [hs]; decide)⟩
  next h =>
    obtain ⟨h1, h2, h3⟩ := c.slotPulses_spec (SlotOut.reports limit bad) buf row bad volts n
    dsimp only
    generalize c.slotPulses buf row bad volts n = r at h1 h2 h3 ⊢
    have k1 : SlotWork (SlotOut limit bad) c (r.2.emit (.gate n row true (r.2.bandClamp n).1)) := h1.emit (.gate ..)
    have m1 := r.2.emit_sent (.gate n row true (r.2.bandClamp n).1)
    generalize r.2.emit (.gate n row true (r.2.bandClamp n).1) = x at k1 m1 ⊢
    have ho : SlotOut limit bad (.light n row (x.clampLevel n) (x.bandClamp n).1 (x.bandClamp n).2 r.1) := .light _ _ _ _ _ (hc ▸ h2) h3
    have k2 := k1.emit ho
    have l2 : Sent (SlotOut limit bad) x (x.emit (.light n row (x.clampLevel n) (x.bandClamp n).1 (x.bandClamp n).2 r.1)) := .emit .refl ho
    have m2 := x.emit_sent (.light n row (x.clampLevel n) (x.bandClamp n).1 (x.bandClamp n).2 r.1)
    generalize x.emit (.light n row (x.clampLevel n) (x.bandClamp n).1 (x.bandClamp n).2 r.1) = y at k2 l2 m2 ⊢
    have hg : SlotOut limit bad (.gate n row false y.tile.sched.slotSteps) := .gate ..
    refine ⟨k2.emit hg, fun hx hn _ => ⟨r.1, ?_, ?_, ?_⟩⟩
    · rw [← k1.clampLevel n, ← k1.bandClamp n hn]
      exact Sent.mem (.emit .refl hg) (m2 (k1.rst ▸ hx))
    · rw [← h1.bandClamp n hn]
      exact Sent.mem (.emit .refl hg) (l2.mem (m1 (h1.rst ▸ hx)))
    · rw [← k2.tile]
      exact y.emit_sent _ (k2.rst ▸ hx)

/-- The bands of a row slot, one after the other. -/
theorem Chip.slotBands_spec (c : Chip) (buf row : Nat) (volts : List (Nat × Nat)) (l : List Nat) (hl : ∀ n ∈ l, n < 4) (hc : limit = 985 * c.ceiling) :
    SlotWork (SlotOut limit bad) c (l.foldl (fun c n => c.slotBand buf row bad volts n) c) ∧
    (c.rst.extest = false → ∀ n ∈ l, c.tile.sched.skip.getD n false = false → c.BandLit row n (l.foldl (fun c n => c.slotBand buf row bad volts n) c)) := by
  induction l generalizing c with
  | nil => exact ⟨.refl, fun _ n hn => absurd hn List.not_mem_nil⟩
  | cons m l ih =>
    obtain ⟨h1, h2⟩ := c.slotBand_spec limit bad buf row volts m hc
    obtain ⟨k1, k2⟩ := ih (c.slotBand buf row bad volts m) (fun n hn => hl n (List.mem_cons_of_mem _ hn)) (by rw [h1.ceiling, hc])
    refine ⟨h1.trans k1, fun hx n hn hs => ?_⟩
    rcases List.mem_cons.1 hn with rfl | hn
    · obtain ⟨ps, a1, a2, a3⟩ := h2 hx (hl n (List.mem_cons_self ..)) hs
      exact ⟨ps, k1.sent.mem a1, k1.sent.mem a2, k1.sent.mem a3⟩
    · obtain ⟨ps, a1, a2, a3⟩ := k2 (h1.rst ▸ hx) n hn (by rw [h1.tile]; exact hs)
      have hn4 := hl n (List.mem_cons_of_mem _ hn)
      rw [h1.clampLevel n, h1.bandClamp n hn4] at a1
      rw [h1.bandClamp n hn4] at a2
      rw [h1.tile] at a3
      exact ⟨ps, a1, a2, a3⟩

/-- The lit row slot of every band. -/
theorem Chip.slotLit_spec (c : Chip) (buf row : Nat) (volts : List (Nat × Nat)) (hc : limit = 985 * c.ceiling) :
    SlotWork (SlotOut limit bad) c (c.slotLit buf row bad volts) ∧
    (c.rst.extest = false → ∀ n < c.geoBands, c.tile.sched.skip.getD n false = false → c.BandLit row n (c.slotLit buf row bad volts)) := by
  unfold Chip.slotLit
  have h1 : SlotWork (SlotOut limit bad) c (if row = 0 then c.probeCount else c) := .ite (.foldl .refl fun _ _ _ => .setDrive .refl rfl) .refl
  dsimp only
  generalize (if row = 0 then c.probeCount else c) = x at h1 ⊢
  obtain ⟨h2, h3⟩ := x.slotBands_spec limit bad buf row volts (List.range x.geoBands)
    (fun n hn => Nat.lt_of_lt_of_le (List.mem_range.1 hn) x.geoBands_le) (by rw [h1.ceiling, hc])
  generalize (List.range x.geoBands).foldl (fun c n => c.slotBand buf row bad volts n) x = y at h2 h3 ⊢
  have h4 : SlotWork (SlotOut limit bad) y (if row + 1 = y.geoRows then y.probeNext else y) := .ite (.foldl .refl fun _ _ _ => .setDrive .refl rfl) .refl
  have h5 := h4.diagFollow (SlotOut.reports limit bad) x
  refine ⟨(h1.trans h2).trans h5, fun hx n hn hs => ?_⟩
  obtain ⟨ps, a1, a2, a3⟩ := h3 (h1.rst ▸ hx) n (List.mem_range.2 (h1.geoBands ▸ hn)) (by rw [h1.tile]; exact hs)
  have hn4 := Nat.lt_of_lt_of_le hn c.geoBands_le
  rw [h1.clampLevel n, h1.bandClamp n hn4] at a1
  rw [h1.bandClamp n hn4] at a2
  rw [h1.tile] at a3
  exact ⟨ps, h5.sent.mem a1, h5.sent.mem a2, h5.sent.mem a3⟩

end

theorem drivePage_hasPage {c : Chip} (h : c.build = .T) : c.hasPage pgDrive = true := by
  unfold Chip.hasPage
  rw [h]
  decide +kernel

/-- A link word that is bad is reported (R253). -/
theorem Chip.linkWords_pend (link : List (Nat × Nat)) (c : Chip) (hT : c.build = .T) (n : Nat) (hn : n ∈ linkBad link) (hg : n < c.geoBands) :
    (c.linkWords link).pend E.DRIVE_LINK = true := by
  have hrest : ∀ (l : List (Nat × Nat)) (d : Chip), SlotWork (fun _ => True) d (d.linkWords l) := fun l d => .linkWords ⟨fun _ => trivial, trivial⟩ d l
  induction link generalizing c with
  | nil => exact absurd hn List.not_mem_nil
  | cons x l ih =>
    have h1 := hrest [x] c
    have e : c.linkWords (x :: l) = (c.linkWords [x]).linkWords l := rfl
    rw [e]
    by_cases hl : n ∈ linkBad l
    · exact ih _ (h1.build.trans hT) hl (h1.geoBands ▸ hg)
    · refine (hrest l _).pend _ ?_
      obtain ⟨y, hy, rfl⟩ := List.mem_map.1 hn
      obtain ⟨hy, hbad⟩ := List.mem_filter.1 hy
      rcases List.mem_cons.1 hy with rfl | hy
      · unfold Chip.linkWords
        rw [List.foldl_cons, List.foldl_nil, if_neg (Nat.not_le_of_lt hg)]
        dsimp only
        split at hbad
        · exact absurd hbad (by decide)
        · exact absurd hbad (by decide)
        next h1 h2 =>
          have hp : ∀ r, (c.report pgDrive r).hasPage E.DRIVE_LINK.page = true := fun r => drivePage_hasPage ((c.quiet_report pgDrive r).build.trans hT)
          exact Chip.raise_pend _ _ (hp _) (by decide)
      · exact absurd (List.mem_map_of_mem (f := fun x : Nat × Nat => x.1) (List.mem_filter.2 ⟨hy, hbad⟩)) hl

/-- What a pass shows follows the registers and the parts of the block that link words leave. -/
theorem Chip.passLit_linkWords (c : Chip) (link : List (Nat × Nat)) : (c.linkWords link).passLit = c.passLit := by
  have h : Quiet c (c.linkWords link) := by
    refine foldl_rel Quiet Quiet.refl Quiet.trans id _ link (fun d b _ => ?_) c
    show Quiet d (if d.geoBands ≤ b.1 then d else _)
    split
    · exact .refl d
    · dsimp only
      split
      · exact .refl d
      · exact d.quiet_report _ _
      · exact (d.quiet_report _ _).trans (Chip.quiet_raise _ _)
  generalize c.linkWords link = d at h ⊢
  have hget : ∀ f : Fld, quietReg f.addr = true → d.get f = c.get f := fun f hf => h.get f hf
  have ht : d.tile = c.tile := h.tile
  have hs : d.driveState = c.driveState := hget _ (by decide)
  have hv : ∀ n, d.holdValid n = c.holdValid n := fun n => by
    rw [Chip.holdValid, h.2.2 _ (by decide), h.2.2 _ (by decide), Chip.holdValid]
  have hi : ∀ n, d.image? n = c.image? n := fun n => by rw [Chip.image?, ht, Chip.image?]
  have hr : d.runs pgTilerx = c.runs pgTilerx := by
    have hon : ∀ f : Fld, quietReg f.addr = true → d.on f = c.on f := fun f hf => by rw [Chip.on, hget f hf, Chip.on]
    have hu : d.use F.RESET_SERVICE_SRAM_CANVAS = c.use F.RESET_SERVICE_SRAM_CANVAS := by
      rw [Chip.use, Chip.rdUse, h.inUse, h.build, Chip.use, Chip.rdUse]
    rw [Chip.runs, Chip.runs, Chip.en, Chip.en, Chip.memReady, Chip.memReady, hon _ (by decide), hon F.ECC_STATUS_SRAM_FILLED (by decide),
      hon F.ECC_STATUS_DRAM_FILLED (by decide), h.build, hu]
  have hl : d.litBuffer = c.litBuffer := by
    unfold Chip.litBuffer
    simp only [ht, hv, funext hi, hr]
  rw [Chip.passLit, hs, ht, hl, Chip.passLit]

/-- The row counted as a slot starts. -/
def Chip.rowCounted (c : Chip) : Chip := c.setSched { c.tile.sched with row := c.tile.sched.row + 1 }

theorem Chip.rowSlot_stays (c : Chip) (link volts : List (Nat × Nat))
    (h : ¬ (c.tile.sched.waiting = false ∧ c.tile.sched.index ≠ 0 ∧ c.tile.sched.row < c.geoRows)) : c.rowSlot link volts = c := by
  unfold Chip.rowSlot
  refine if_pos ?_
  simp only [Bool.or_eq_true, decide_eq_true_eq]
  by_cases hw : c.tile.sched.waiting = true
  · exact .inl (.inl hw)
  · by_cases hi : c.tile.sched.index = 0
    · exact .inl (.inr hi)
    · exact .inr (Nat.le_of_not_lt fun hr => h ⟨by simpa using hw, hi, hr⟩)

/-- A slot that starts: what a drive that does not run leaves, and what one that runs does. -/
theorem Chip.rowSlot_starts (c : Chip) (link volts : List (Nat × Nat)) (hw : c.tile.sched.waiting = false) (hi : c.tile.sched.index ≠ 0)
    (hr : c.tile.sched.row < c.geoRows) : (c.driveState ≠ dvRun ∧ c.rowSlot link volts = c.rowCounted) ∨
    (c.driveState = dvRun ∧ c.passLit = none ∧ c.rowSlot link volts = c.rowCounted.linkWords link) ∨
    (c.driveState = dvRun ∧ ∃ buf, c.rowSlot link volts = (c.rowCounted.linkWords link).slotLit buf c.tile.sched.row (linkBad link) volts) := by
  have e : c.rowSlot link volts = match (if c.driveState = dvRun then c.rowCounted.linkWords link else c.rowCounted).passLit with
      | none => if c.driveState = dvRun then c.rowCounted.linkWords link else c.rowCounted
      | some buf => (if c.driveState = dvRun then c.rowCounted.linkWords link else c.rowCounted).slotLit buf c.tile.sched.row (linkBad link) volts := by
    refine (if_neg ?_).trans rfl
    simp only [hw, hi, decide_false, Bool.or_self, Bool.false_or, decide_eq_true_eq]
    exact Nat.not_le_of_lt hr
  rw [e]
  by_cases hd : c.driveState = dvRun
  · rw [if_pos hd, Chip.passLit_linkWords]
    have hp : c.rowCounted.passLit = c.passLit := rfl
    rw [hp]
    cases hl : c.passLit with
    | none => exact .inr (.inl ⟨hd, rfl, rfl⟩)
    | some buf => exact .inr (.inr ⟨hd, buf, rfl⟩)
  · have hp : c.rowCounted.passLit = none := if_neg (by
      rw [Bool.and_eq_true, decide_eq_true_eq]
      exact fun h => hd h.1)
    rw [if_neg hd, hp]
    exact .inl ⟨hd, rfl⟩

/-- Settles O40: the channels, bands and rows of a slot one by one, and what each sends. -/
theorem rowSlotsWithinTheCeiling : Obligations.RowSlotsWithinTheCeiling := by
  intro s link volts hrun hT
  refine Completes.live (fun c => c.inT (fun c => c.rowSlot link volts)) rfl hrun ?_
  rw [Chip.inT, Chip.when_pos _ _ _ (decide_eq_true hT)]
  generalize s.chip = c at hT ⊢
  have hR := SlotOut.reports (985 * c.ceiling) (linkBad link)
  by_cases hgo : c.tile.sched.waiting = false ∧ c.tile.sched.index ≠ 0 ∧ c.tile.sched.row < c.geoRows
  case neg =>
    rw [c.rowSlot_stays link volts hgo]
    exact ⟨⟨[], (List.append_nil _).symm, fun _ h => absurd h List.not_mem_nil⟩, rfl, fun h1 h2 h3 => absurd ⟨h1, h2, h3⟩ hgo⟩
  obtain ⟨hw, hi, hr⟩ := hgo
  have hlink : SlotWork (SlotOut (985 * c.ceiling) (linkBad link)) c.rowCounted (c.rowCounted.linkWords link) := .linkWords hR _ link
  have hwork : SlotWork (SlotOut (985 * c.ceiling) (linkBad link)) c.rowCounted (c.rowSlot link volts) := by
    rcases c.rowSlot_starts link volts hw hi hr with ⟨-, e⟩ | ⟨-, -, e⟩ | ⟨-, buf, e⟩
    · rw [e]
      exact .refl
    · rw [e]
      exact hlink
    · rw [e]
      exact hlink.trans ((c.rowCounted.linkWords link).slotLit_spec _ _ buf _ volts (by rw [hlink.ceiling]; rfl)).1
  obtain ⟨l, hl, hout⟩ := hwork.sent
  refine ⟨⟨l, hl, fun o ho => (hout o ho).1⟩, hwork.ceiling, fun _ _ _ => ⟨?_, fun hd => ?_, fun hd n hn hg => ⟨?_, fun m o hm ho r cl cs ds ps => ?_⟩, fun hlit hx n hn hs => ?_⟩⟩
  · rw [hwork.tile]
    rfl
  · rcases c.rowSlot_starts link volts hw hi hr with ⟨-, e⟩ | ⟨hd', -⟩ | ⟨hd', -⟩
    · exact e
    · exact absurd hd' hd
    · exact absurd hd' hd
  · have hp := c.rowCounted.linkWords_pend link hT n hn hg
    rcases c.rowSlot_starts link volts hw hi hr with ⟨hd', -⟩ | ⟨-, -, e⟩ | ⟨-, buf, e⟩
    · exact absurd hd hd'
    · rw [e]
      exact hp
    · rw [e]
      exact ((c.rowCounted.linkWords link).slotLit_spec _ (linkBad link) buf _ volts rfl).1.pend _ hp
  · have : l = m := List.append_cancel_left (hl.symm.trans hm)
    exact (hout o (this ▸ ho)).2 n hn r cl cs ds ps
  · rcases c.rowSlot_starts link volts hw hi hr with ⟨hd', -⟩ | ⟨-, hp, -⟩ | ⟨-, buf, e⟩
    · exact absurd (if_neg (by rw [Bool.and_eq_true, decide_eq_true_eq]; exact fun h => hd' h.1)) hlit
    · exact absurd hp hlit
    · obtain ⟨ps, a1, a2, a3⟩ := ((c.rowCounted.linkWords link).slotLit_spec _ (linkBad link) buf c.tile.sched.row volts rfl).2 (hlink.rst ▸ hx) n
        (hlink.geoBands ▸ hn) (by rw [hlink.tile]; exact hs)
      have hn4 := Nat.lt_of_lt_of_le hn c.geoBands_le
      rw [hlink.clampLevel n, hlink.bandClamp n hn4] at a1
      rw [hlink.bandClamp n hn4] at a2
      rw [hlink.tile] at a3
      rw [e]
      exact ⟨ps, a1, a2, a3⟩

end Sys2Proof.Machine
end

