-- ==== Sys2Proof/Proofs/DriveUpkeep.lean ====
section
-- One proof at a time: proofs that wait for the kernel side by side hold more memory than the check allows.
set_option Elab.async false
/-! PROOF. The windows of the drive, fades, trim and the neighbour slot (R259, R263 to R273). -/

namespace Sys2Proof.Machine

/-! ### The windows of the drive (R259, R266, R270) -/

/-- An index after an access of its window. -/
theorem Chip.autoInc_get (c : Chip) (auto idx : Fld) (h : idx.lo ≤ idx.hi) (h32 : idx.hi < 32) :
    (c.autoInc auto idx).get idx = (c.get idx + b2n (c.on auto)) % 2 ^ (idx.hi + 1 - idx.lo) := by
  unfold Chip.autoInc
  cases hon : c.on auto
  · rw [if_neg (by decide)]
    exact (Nat.mod_eq_of_lt (c.get_lt idx)).symm
  · rw [if_pos rfl]
    exact Chip.get_set _ _ _ h h32

theorem Chip.autoInc_part (c : Chip) (auto idx : Fld) {α : Type} (f : Chip → α) (hf : ∀ y : Chip, f y.still = f y := by intros; rfl) :
    f (c.autoInc auto idx) = f c := by
  unfold Chip.autoInc
  split
  · rw [← hf, ← hf c]
    rfl
  · rfl

theorem Calm.autoInc {c : Chip} (h : Calm c) (auto idx : Fld) (hi : idx.addr % 4096 ≠ 4) : Calm (c.autoInc auto idx) := by
  unfold Chip.autoInc
  split
  · exact h.set _ _ hi
  · exact h

theorem Recorded.on {c x : Chip} {a : Nat} (h : Recorded c a x) (f : Fld) (ha : f.addr ≠ a) (he : eventReg f.addr = false)
    (hl : f.addr ≠ F.DEVICE_CHANGE_LOST_COUNT.addr) : x.on f = c.on f := by rw [Chip.on, h.get f ha he hl, Chip.on]

theorem regAt_spl : ∃ d, regAt .T F.DRIVECTL_SPL_DATA_Y.addr = .reg d ∧ ∀ v w, d.quiesceChange v w = false :=
  ⟨_, rfl, fun _ _ => by simp [RegDef.quiesceChange]⟩

theorem Calm.splWrite {c : Chip} (h : Calm c) (w : Word) : Calm (c.splWrite w) := by
  unfold Chip.splWrite Chip.splAdvance
  dsimp only
  split
  · exact h.autoInc _ splIdx (by decide)
  · refine Calm.autoInc ?_ _ splIdx (by decide)
    exact h.of_ctrls rfl rfl rfl rfl

/-- A value written through the window of the short-pulse LUT. -/
theorem Chip.write32_spl (c : Chip) (o : Origin) (w : Word) (hb : c.build = .T) (hc : Calm c) (hk : c.get splIdx < 192) :
    let t := c.write32 o F.DRIVECTL_SPL_DATA_Y.addr w
    smGet 0 t.drive.spl (c.get splIdx) = min 2047 w.toNat ∧ t.drive.splUse = c.drive.splUse ∧
      t.get splIdx = c.get splIdx + b2n (c.on F.DRIVECTL_SPL_ADDR_AUTO_INC) := by
  obtain ⟨d, hd, hq⟩ := regAt_spl
  rw [← hb] at hd
  obtain ⟨x, hx, he⟩ := Chip.write32_tabled (o := o) (w := w) hd (by decide) (hq _ _) hc (fun x h => h.splWrite w)
  change c.write32 o F.DRIVECTL_SPL_DATA_Y.addr w = (x.splWrite w).noteMirror _ at he
  have hi : x.get splIdx = c.get splIdx := hx.get _ (by decide) (by decide) (by decide)
  have hd : x.drive = c.drive := hx.part Chip.drive fun _ => rfl
  have hw : x.splWrite w = (x.setDrive { x.drive with spl := smSet x.drive.spl (x.get splIdx) (splValue w.toNat) }).splAdvance := by
    unfold Chip.splWrite
    dsimp only
    rw [if_neg (by omega)]
  have hlt : c.get splIdx + b2n (c.on F.DRIVECTL_SPL_ADDR_AUTO_INC) < 2 ^ 8 := by
    cases c.on F.DRIVECTL_SPL_ADDR_AUTO_INC
    · show c.get splIdx + 0 < _
      omega
    · show c.get splIdx + 1 < _
      omega
  dsimp only
  rw [he, Chip.noteMirror_get, Chip.noteMirror_part _ _ Chip.drive (fun _ _ => rfl), hw, Chip.splAdvance, Chip.autoInc_part _ _ _ Chip.drive,
    Chip.autoInc_get _ _ _ (by decide) (by decide)]
  refine ⟨?_, hd ▸ rfl, ?_⟩
  · rw [← hi]
    exact (smGet_smSet _ _ _ _ _).trans (if_pos rfl)
  · have h1 : (x.setDrive { x.drive with spl := smSet x.drive.spl (x.get splIdx) (splValue w.toNat) }).get splIdx = c.get splIdx := hi
    have h2 : (x.setDrive { x.drive with spl := smSet x.drive.spl (x.get splIdx) (splValue w.toNat) }).on F.DRIVECTL_SPL_ADDR_AUTO_INC =
        c.on F.DRIVECTL_SPL_ADDR_AUTO_INC := hx.on _ (by decide) (by decide) (by decide)
    rw [h1, h2]
    exact Nat.mod_eq_of_lt hlt

/-- A read through it. -/
theorem Chip.hostRead_spl (c : Chip) (o : Origin) (hb : c.build = .T) (hp : c.pathsOpen = true) :
    let t := c.hostRead o F.DRIVECTL_SPL_DATA_Y.addr 4
    t.drive = c.drive ∧ t.get splIdx = (c.get splIdx + b2n (c.on F.DRIVECTL_SPL_ADDR_AUTO_INC)) % 256 := by
  obtain ⟨d, hd, -⟩ := regAt_spl
  rw [← hb] at hd
  have hbuild : ∀ x : Chip, (x.readEffect F.DRIVECTL_SPL_DATA_Y.addr).build = x.build := fun x => x.autoInc_part _ _ Chip.build
  obtain ⟨x, v, hx, he⟩ := c.hostRead_opened o _ d hp (by decide) (by decide) hd hbuild
  have ho : opensAt c.build splIdx.addr = false := by
    rw [hb]
    decide +kernel
  dsimp only
  rw [he]
  refine ⟨(x.autoInc_part _ _ Chip.drive).trans (hx.part Chip.drive fun _ _ _ _ => rfl), (x.autoInc_get _ _ (by decide) (by decide)).trans ?_⟩
  rw [hx.get splIdx rfl ho, hx.on F.DRIVECTL_SPL_ADDR_AUTO_INC rfl ho]
  rfl

/-! #### Trim codes -/

theorem regAt_trim (n : Nat) (hn : n < 4) : ∃ d, regAt .T (0x0B0058 + 4096 * n) = .reg d ∧ ∀ v w, d.quiesceChange v w = false := by
  interval_cases n <;> exact ⟨_, rfl, fun _ _ => by simp [RegDef.quiesceChange]⟩

theorem Chip.writeEffect_trim (x : Chip) (o : Origin) (n : Nat) (hn : n < 4) (old w : Word) : x.writeEffect o (0x0B0058 + 4096 * n) old w = x.trimWrite n w := by
  interval_cases n <;> rfl

theorem Chip.readEffect_trim (x : Chip) (n : Nat) (hn : n < 4) : x.readEffect (0x0B0058 + 4096 * n) = x.trimAdvance n := by
  interval_cases n <;> rfl

theorem Chip.trimAdvance_part (c : Chip) (n : Nat) {α : Type} (f : Chip → α) (hf : ∀ y : Chip, f y.still = f y := by intros; rfl) :
    f (c.trimAdvance n) = f c := by
  unfold Chip.trimAdvance
  split
  · rw [← hf, ← hf c]
    rfl
  · rfl

theorem Calm.trimWrite {c : Chip} (h : Calm c) (n : Nat) (w : Word) : Calm (c.trimWrite n w) := by
  have ha : ∀ x : Chip, Calm x → Calm (x.trimAdvance n) := fun x hx => by
    unfold Chip.trimAdvance
    split
    · refine hx.set _ _ ?_
      show (0x0B0054 + 4096 * n) % 4096 ≠ 4
      omega
    · exact hx
  unfold Chip.trimWrite
  dsimp only
  split
  · exact ha _ h
  · exact ha _ (h.of_ctrls rfl rfl rfl rfl)

theorem trimAddr_plain (n : Nat) (hn : n < 4) : (0x0B0058 + 4096 * n < 0x400000 ∧ (0x0B0058 + 4096 * n) % 4 = 0 ∧ 0x40 ≤ (0x0B0058 + 4096 * n) % 4096 ∧
    0x0B0058 + 4096 * n ≠ F.DEBUG_CTRL_UNLOCK.addr ∧ unstored (0x0B0058 + 4096 * n) = true) ∧
    (F.BAND_TRIM_ADDR_CH.pg n).addr ≠ 0x0B0058 + 4096 * n ∧ eventReg (F.BAND_TRIM_ADDR_CH.pg n).addr = false ∧
    (F.BAND_TRIM_ADDR_CH.pg n).addr ≠ F.DEVICE_CHANGE_LOST_COUNT.addr ∧ opensAt .T (F.BAND_TRIM_ADDR_CH.pg n).addr = false ∧
    (F.BAND_TRIM_ADDR_CH.pg n).addr / 4096 = (0x0B0058 + 4096 * n) / 4096 := by
  interval_cases n <;> decide +kernel

/-- A code written through the window of a band. -/
theorem Chip.write32_trim (c : Chip) (o : Origin) (n : Nat) (w : Word) (hn : n < 4) (hb : c.build = .T) (hc : Calm c)
    (hk : c.get (F.BAND_TRIM_ADDR_CH.pg n) < 576) (hu : c.on (F.BAND_TRIM_ADDR_IN_USE.pg n) = false) :
    let t := c.write32 o (0x0B0058 + 4096 * n) w
    smGet 0 t.drive.trim (trimKey n (c.get (F.BAND_TRIM_ADDR_SET.pg n)) (c.get (F.BAND_TRIM_ADDR_CH.pg n))) = bitsOf w 5 0 ∧
      t.drive.trimUse = c.drive.trimUse := by
  obtain ⟨d, hd, hq⟩ := regAt_trim n hn
  rw [← hb] at hd
  obtain ⟨ha, h1, h2, h3, -, -⟩ := trimAddr_plain n hn
  obtain ⟨x, hx, he⟩ := Chip.write32_tabled (o := o) (w := w) hd ha (hq _ _) hc (fun x h => by rw [x.writeEffect_trim o n hn]; exact h.trimWrite n w)
  rw [x.writeEffect_trim o n hn] at he
  have hch : x.get (F.BAND_TRIM_ADDR_CH.pg n) = c.get (F.BAND_TRIM_ADDR_CH.pg n) := hx.get _ h1 h2 h3
  have hset : x.get (F.BAND_TRIM_ADDR_SET.pg n) = c.get (F.BAND_TRIM_ADDR_SET.pg n) := hx.get _ h1 h2 h3
  have huse : x.on (F.BAND_TRIM_ADDR_IN_USE.pg n) = false := (hx.on (F.BAND_TRIM_ADDR_IN_USE.pg n) h1 h2 h3).trans hu
  have hd : x.drive = c.drive := hx.part Chip.drive fun _ => rfl
  have hw : x.trimWrite n w = (x.setDrive { x.drive with
      trim := smSet x.drive.trim (trimKey n (x.get (F.BAND_TRIM_ADDR_SET.pg n)) (x.get (F.BAND_TRIM_ADDR_CH.pg n))) (bitsOf w 5 0),
      trimDirty := true }).trimAdvance n := by
    unfold Chip.trimWrite
    dsimp only
    rw [if_neg]
    rw [huse, Bool.or_false, decide_eq_true_eq]
    omega
  dsimp only
  rw [he, Chip.noteMirror_part _ _ Chip.drive (fun _ _ => rfl), hw, Chip.trimAdvance_part _ _ Chip.drive, ← hch, ← hset]
  exact ⟨(smGet_smSet _ _ _ _ _).trans (if_pos rfl), hd ▸ rfl⟩

/-- A read through it. -/
theorem Chip.hostRead_trim (c : Chip) (o : Origin) (n : Nat) (hn : n < 4) (hb : c.build = .T) (hp : c.pathsOpen = true) :
    let t := c.hostRead o (0x0B0058 + 4096 * n) 4
    t.drive = c.drive ∧ t.get (F.BAND_TRIM_ADDR_CH.pg n) = (if c.on (F.BAND_TRIM_ADDR_AUTO_INC.pg n) then
      (if c.get (F.BAND_TRIM_ADDR_CH.pg n) = 575 then 0 else c.get (F.BAND_TRIM_ADDR_CH.pg n) + 1) % 1024 else c.get (F.BAND_TRIM_ADDR_CH.pg n)) := by
  obtain ⟨d, hd, -⟩ := regAt_trim n hn
  obtain ⟨⟨ha, h4, -⟩, -, -, -, ho, hpg⟩ := trimAddr_plain n hn
  rw [← hb] at hd ho
  obtain ⟨x, v, hx, he⟩ := c.hostRead_opened o _ d hp ha h4 hd (fun x => by rw [x.readEffect_trim n hn]; exact x.trimAdvance_part n Chip.build)
  rw [x.readEffect_trim n hn] at he
  have hch : x.get (F.BAND_TRIM_ADDR_CH.pg n) = c.get (F.BAND_TRIM_ADDR_CH.pg n) := hx.get _ hpg ho
  have hai : x.on (F.BAND_TRIM_ADDR_AUTO_INC.pg n) = c.on (F.BAND_TRIM_ADDR_AUTO_INC.pg n) := hx.on _ hpg ho
  dsimp only
  rw [he]
  refine ⟨(x.trimAdvance_part n Chip.drive).trans (hx.part Chip.drive fun _ _ _ _ => rfl), ?_⟩
  show (x.trimAdvance n).get (F.BAND_TRIM_ADDR_CH.pg n) = _
  unfold Chip.trimAdvance
  rw [← hch, ← hai]
  split
  · exact Chip.get_set_pg _ F.BAND_TRIM_ADDR_CH n _ (by decide) (by decide)
  · rfl

/-! #### Diagnosis -/

theorem regAt_diagTab : ∃ d, regAt .T F.DIAG_TAB_DATA_STATE.addr = .reg d := ⟨_, rfl⟩

/-- A bit of a word with the fields of another under a mask. -/
theorem getLsbD_masked (a w m : Word) {j : Nat} (hj : j < 32) : (a &&& ~~~m ||| w &&& m).getLsbD j = if m.getLsbD j then w.getLsbD j else a.getLsbD j := by
  rw [BitVec.getLsbD_or, BitVec.getLsbD_and, BitVec.getLsbD_and, BitVec.getLsbD_not]
  cases m.getLsbD j <;> simp [hj]

/-- The fields of FADE. -/
def fadeFields : List FieldDef := [⟨31, 31, .w1s, .l, 0, 0⟩, ⟨30, 30, .ro, .l, 0, 0⟩, ⟨17, 16, .rw, .l, 0, 0⟩, ⟨15, 0, .rw, .l, 0, 0⟩]

theorem regAt_fade : ∃ d, regAt .T F.DRIVECTL_FADE_GO.addr = .reg d ∧ d.fields = fadeFields := ⟨_, rfl, rfl⟩

/-- The duration and the curve written to FADE. -/
theorem fade_store {d : RegDef} (h : d.fields = fadeFields) (v w : Word) :
    bitsOf (d.store v w) 15 0 = bitsOf w 15 0 ∧ bitsOf (d.store v w) 17 16 = bitsOf w 17 16 := by
  have hm : ∀ j < 32, (FieldDef.mask ⟨15, 0, .rw, .l, 0, 0⟩).getLsbD j = decide (j < 16) ∧
      (FieldDef.mask ⟨17, 16, .rw, .l, 0, 0⟩).getLsbD j = decide (16 ≤ j ∧ j < 18) := by decide
  have hs : d.store v w = (v &&& ~~~(FieldDef.mask ⟨17, 16, .rw, .l, 0, 0⟩) ||| w &&& FieldDef.mask ⟨17, 16, .rw, .l, 0, 0⟩) &&&
      ~~~(FieldDef.mask ⟨15, 0, .rw, .l, 0, 0⟩) ||| w &&& FieldDef.mask ⟨15, 0, .rw, .l, 0, 0⟩ := by
    unfold RegDef.store
    rw [h]
    rfl
  rw [hs]
  refine ⟨bitsOf_congr fun j h1 h2 => ?_, bitsOf_congr fun j h1 h2 => ?_⟩
  · rw [getLsbD_masked _ _ _ (by omega), (hm j (by omega)).1, decide_eq_true (by omega), if_pos rfl]
  · rw [getLsbD_masked _ _ _ (by omega), (hm j (by omega)).1, decide_eq_false (by omega), if_neg (by decide), getLsbD_masked _ _ _ (by omega),
      (hm j (by omega)).2, decide_eq_true (by omega), if_pos rfl]

theorem regAt_diagCtrl : ∃ d, regAt .T F.DIAG_CTRL_CLEAR.addr = .reg d ∧ ∀ v w, d.quiesceChange v w = false :=
  ⟨_, rfl, fun _ _ => by simp [RegDef.quiesceChange]⟩

theorem Chip.presentWord_diag (c : Chip) (o : Origin) : c.presentWord o F.DIAG_TAB_DATA_STATE.addr = c.diagRead := by
  unfold Chip.presentWord
  iterate 18 refine (if_neg (by decide)).trans ?_
  exact (if_pos (by decide)).trans (if_pos rfl)

/-- The entry of an emitter read through its window. -/
theorem Chip.hostRead_diag (c : Chip) (o : Origin) (hb : c.build = .T) (hp : c.pathsOpen = true) (hu : pgDiag ∉ c.unpredictable)
    (hl : smFind c.host.latches (latchKey o F.DIAG_TAB_DATA_STATE.addr) = none) :
    let t := c.hostRead o F.DIAG_TAB_DATA_STATE.addr 4
    .readData o F.DIAG_TAB_DATA_STATE.addr c.diagRead.toNat ∈ t.out ∧
      t.get F.DIAG_TAB_ADDR_E = (c.get F.DIAG_TAB_ADDR_E + b2n (c.on F.DIAG_TAB_ADDR_AUTO_INC)) % 2 ^ 18 ∧ t.drive = c.drive := by
  obtain ⟨d, hd⟩ := regAt_diagTab
  rw [← hb] at hd
  have hv : (c.readReg o F.DIAG_TAB_DATA_STATE.addr).1 = c.diagRead := (c.readReg_present o _ hu hl).trans (c.presentWord_diag o)
  have hr : (c.readReg o F.DIAG_TAB_DATA_STATE.addr).2 = (c.keptUppers o F.DIAG_TAB_DATA_STATE.addr).diagAdvance :=
    c.readReg_snd o F.DIAG_TAB_DATA_STATE.addr hu
  have hd' : regAt (c.keptUppers o F.DIAG_TAB_DATA_STATE.addr).diagAdvance.build F.DIAG_TAB_DATA_STATE.addr = .reg d := by
    rw [Chip.diagAdvance, Chip.autoInc_part _ _ _ Chip.build]
    exact hd
  dsimp only
  rw [c.hostRead_reg o _ d hp (by decide) (by decide) hd, hv, hr, Chip.deliver_reg _ _ _ _ d (by decide) (by decide) hd', Chip.emit_readData]
  refine ⟨List.mem_append_right _ (List.mem_singleton.mpr rfl), ?_, ?_⟩
  · exact Chip.autoInc_get _ _ _ (by decide) (by decide)
  · exact Chip.autoInc_part _ _ _ Chip.drive

/-! ### Fades, diagnosis and trim (R263 to R273) -/

theorem Calm.fadeGo {c : Chip} (h : Calm c) : Calm c.fadeGo := by
  unfold Chip.fadeGo
  refine Calm.set ?_ _ _ (by decide)
  exact h.of_ctrls rfl rfl rfl rfl

/-- FADE.GO takes the targets. -/
theorem Chip.write32_fade (c : Chip) (o : Origin) (w : Word) (hb : c.build = .T) (hc : Calm c) :
    let t := c.write32 o F.DRIVECTL_FADE_GO.addr (w ||| 0x80000000)
    t.get F.DRIVECTL_FADE_BUSY = 1 ∧ ∃ f, t.drive.fade = some f ∧ f.taken = 0 ∧
      f.total = (if bitsOf w 15 0 = 0 then 1 else bitsOf w 15 0 * c.passesPerBar) ∧ f.curve = bitsOf w 17 16 % 3 ∧
      f.from3 = [0, 1, 2].map (fun k => c.get (bNowFld k)) ∧ f.to3 = [0, 1, 2].map (fun k => c.get (F.DRIVECTL_DIM_TARGET_R_B.plus (4 * k))) := by
  obtain ⟨d, hd, hf⟩ := regAt_fade
  rw [← hb] at hd
  have h31 : (w ||| 0x80000000).getLsbD 31 = true := by simp [BitVec.getLsbD_or]
  have hlow : ∀ j < 31, (w ||| 0x80000000).getLsbD j = w.getLsbD j := fun j hj => by
    rw [BitVec.getLsbD_or]
    have hz : ∀ j < 31, (0x80000000 : Word).getLsbD j = false := by decide
    rw [hz j hj, Bool.or_false]
  generalize hw' : (w ||| 0x80000000) = w' at h31 hlow
  have he : ∀ x : Chip, x.writeEffect o F.DRIVECTL_FADE_GO.addr (c.rd F.DRIVECTL_FADE_GO.addr) w' = x.fadeGo := fun x =>
    (if_pos h31 : (if w'.getLsbD 31 = true then x.fadeGo else x) = x.fadeGo)
  have hq : d.quiesceChange (c.rd F.DRIVECTL_FADE_GO.addr) w' = false := by
    unfold RegDef.quiesceChange
    rw [hf]
    rfl
  obtain ⟨x, hx, hrd, h⟩ := Chip.write32_recorded (o := o) (w := w') hd (by decide) hq hc (fun x h => by rw [he]; exact h.fadeGo)
  obtain ⟨s1, s2⟩ := fade_store hf (c.rd F.DRIVECTL_FADE_GO.addr) w'
  have hbars : x.get F.DRIVECTL_FADE_BARS = bitsOf w 15 0 := by
    show bitsOf (x.rd F.DRIVECTL_FADE_GO.addr) 15 0 = _
    rw [hrd, s1]
    exact bitsOf_congr fun j _ h2 => hlow j (by omega)
  have hcurve : x.get F.DRIVECTL_FADE_CURVE = bitsOf w 17 16 := by
    show bitsOf (x.rd F.DRIVECTL_FADE_GO.addr) 17 16 = _
    rw [hrd, s2]
    exact bitsOf_congr fun j _ h2 => hlow j (by omega)
  have hper : x.passesPerBar = c.passesPerBar := hx.part Chip.passesPerBar fun _ => rfl
  have hnow : ∀ k ∈ [0, 1, 2], x.get (bNowFld k) = c.get (bNowFld k) := by
    have hk : ∀ k ∈ [0, 1, 2], (bNowFld k).addr ≠ F.DRIVECTL_FADE_GO.addr ∧ eventReg (bNowFld k).addr = false ∧
        (bNowFld k).addr ≠ F.DEVICE_CHANGE_LOST_COUNT.addr := by decide
    intro k hk'
    obtain ⟨h1, h2, h3⟩ := hk k hk'
    exact hx.get _ h1 h2 h3
  have hto : ∀ k ∈ [0, 1, 2], x.get (F.DRIVECTL_DIM_TARGET_R_B.plus (4 * k)) = c.get (F.DRIVECTL_DIM_TARGET_R_B.plus (4 * k)) := by
    have hk : ∀ k ∈ [0, 1, 2], (F.DRIVECTL_DIM_TARGET_R_B.plus (4 * k)).addr ≠ F.DRIVECTL_FADE_GO.addr ∧
        eventReg (F.DRIVECTL_DIM_TARGET_R_B.plus (4 * k)).addr = false ∧
        (F.DRIVECTL_DIM_TARGET_R_B.plus (4 * k)).addr ≠ F.DEVICE_CHANGE_LOST_COUNT.addr := by decide
    intro k hk'
    obtain ⟨h1, h2, h3⟩ := hk k hk'
    exact hx.get _ h1 h2 h3
  dsimp only
  rw [h, he, Chip.noteMirror_get, Chip.noteMirror_part _ _ Chip.drive (fun _ _ => rfl)]
  refine ⟨Chip.get_set _ _ _ (by decide) (by decide), _, rfl, rfl, ?_, ?_, ?_, ?_⟩
  · show (if x.get F.DRIVECTL_FADE_BARS = 0 then 1 else x.get F.DRIVECTL_FADE_BARS * x.passesPerBar) = _
    rw [hbars, hper]
  · show x.get F.DRIVECTL_FADE_CURVE % 3 = _
    rw [hcurve]
  · exact List.map_congr_left hnow
  · exact List.map_congr_left hto

/-- DIAG.CLEAR is due, with nothing cleared yet. -/
theorem Chip.writeField_diagClear (c : Chip) (o : Origin) (hb : c.build = .T) (hc : Calm c) :
    let t := c.writeField o F.DIAG_CTRL_CLEAR 1
    t.drive.clear = true ∧ t.get F.DIAG_CTRL_CLEAR = 1 ∧ t.drive.diag = c.drive.diag := by
  obtain ⟨d, hd, hq⟩ := regAt_diagCtrl
  rw [← hb] at hd
  obtain ⟨x, hx, he⟩ := Chip.writeField_command (o := o) (f := F.DIAG_CTRL_CLEAR) (fun x => { x.set F.DIAG_CTRL_CLEAR 1 with drive := { x.drive with clear := true } })
    rfl (by decide) hd (by decide) hq hc (fun x old w h => (if_pos h : (if w.getLsbD 31 = true then
      { x.set F.DIAG_CTRL_CLEAR 1 with drive := { x.drive with clear := true } } else x) = _))
    (fun x h => by
      have h1 : Calm (x.set F.DIAG_CTRL_CLEAR 1) := h.set _ _ (by decide)
      exact h1.of_ctrls rfl rfl rfl rfl)
  have hd : x.drive = c.drive := hx.part Chip.drive fun _ => rfl
  dsimp only
  rw [he, Chip.noteMirror_get, Chip.noteMirror_part _ _ Chip.drive (fun _ _ => rfl)]
  refine ⟨rfl, ?_, hd ▸ rfl⟩
  show (x.set F.DIAG_CTRL_CLEAR 1).get F.DIAG_CTRL_CLEAR = 1
  exact Chip.get_set _ _ _ (by decide) (by decide)

theorem smFind_map_key {α : Type} (f : Nat → α) (l : List Nat) (k : Nat) (h : k ∈ l) : smFind (l.map (fun i => (i, f i))) k = some (f k) := by
  induction l with
  | nil => exact absurd h List.not_mem_nil
  | cons i l ih =>
    rw [List.map_cons, smFind]
    split
    next hk => rw [hk]
    next hk => exact ih ((List.mem_cons.1 h).resolve_left hk)

/-- The codes of the channels of all bands, interpolated. -/
def Chip.codeTable (c : Chip) (m : Nat) : SMap Nat :=
  (List.range m).map (fun i => (i, unsign 6 (c.trimInterp (i / 576) (i % 576) (c.bandTemp (i / 576)).1)))

theorem Chip.trimCodes_eq (c : Chip) : c.trimCodes = c.setDrive { c.drive with trimNext := c.codeTable 2304 } := by
  unfold Chip.trimCodes Chip.codeTable
  with_reducible rfl

theorem Chip.codeTable_get (c : Chip) (m n ch : Nat) (h : 576 * n + ch < m) (hch : ch < 576) :
    smGet 0 (c.codeTable m) (576 * n + ch) = unsign 6 (c.trimInterp n ch (c.bandTemp n).1) := by
  have h1 : (576 * n + ch) / 576 = n := by omega
  have h2 : (576 * n + ch) % 576 = ch := by omega
  rw [smGet, Chip.codeTable, smFind_map_key _ _ _ (List.mem_range.2 h), h1, h2]
  rfl

/-- The codes computed for the next pass boundary. -/
theorem Chip.trimCodes_spec (c : Chip) : c.trimCodes.drive.trimUse = c.drive.trimUse ∧ ∀ n ch, n < 4 → ch < 576 →
    smGet 0 c.trimCodes.drive.trimNext (576 * n + ch) = unsign 6 (c.trimInterp n ch (c.bandTemp n).1) := by
  have h := fun n ch (hn : n < 4) (hch : ch < 576) => c.codeTable_get 2304 n ch (by omega) hch
  rw [c.trimCodes_eq]
  generalize c.codeTable 2304 = m at h
  exact ⟨rfl, h⟩

theorem Chip.trimCond_drive (c : Chip) (n : Nat) : (c.trimCond n).drive = c.drive := by
  unfold Chip.trimCond
  exact (c.quiet_cond _ _).drive

/-- The worst residual of a band shown after a sweep. -/
theorem Chip.sweepShown_drive (c : Chip) (f g h : Fld) (a b : Nat) : (((c.bump f).set g a).set h b).drive = c.drive := rfl

/-- The sets corrected by a measurement. -/
def Chip.trimCorrect (c : Chip) (n ch : Nat) (r : Int) : Chip :=
  if 2 < r.natAbs then
    let c' := c.trimAdd n (trimBracket (c.bandTemp n).1).1 ch (roundAway (-4 * r) 15)
    if (trimBracket (c.bandTemp n).1).1 = (trimBracket (c.bandTemp n).1).2 then c' else c'.trimAdd n (trimBracket (c.bandTemp n).1).2 ch (roundAway (-4 * r) 15)
  else c

theorem Chip.trimCorrect_spec (c : Chip) (n ch : Nat) (r : Int) : (c.trimCorrect n ch r).drive.resid = c.drive.resid ∧
    (c.trimCorrect n ch r).drive.trimCh = c.drive.trimCh ∧ (c.trimCorrect n ch r).drive.trimUse = c.drive.trimUse ∧
    (-2 ≤ r → r ≤ 2 → (c.trimCorrect n ch r).drive.trim = c.drive.trim) := by
  unfold Chip.trimCorrect
  split
  next h =>
    refine ⟨?_, ?_, ?_, fun h1 h2 => absurd h (by omega)⟩
    all_goals
      dsimp only
      split <;> rfl
  next h => exact ⟨rfl, rfl, rfl, fun _ _ => rfl⟩

theorem Chip.trimMeasured_eq (c : Chip) (n : Nat) (r : Int) (hn : n < 4) (ha : c.on (F.BAND_TRIM_CTRL_AUTO.pg n) = true) (hr : c.driveState = dvRun) :
    let ch := smGet 0 c.drive.trimCh n
    let x := (c.setDrive { c.drive with resid := smSet c.drive.resid (576 * n + ch) (unsign 8 (max (-128) (min 127 r))) }).trimCorrect n ch r
    (c.trimMeasured n r).drive = ((x.setDrive { x.drive with trimCh := smSet x.drive.trimCh n ((ch + 1) % 576) }).trimCond n).drive := by
  unfold Chip.trimMeasured
  rw [ha, hr, if_neg (by simp; omega)]
  dsimp only
  rw [apply_ite Chip.drive, Chip.sweepShown_drive, ite_self]
  rfl

/-- A sink's measurement is kept, and the next sink is measured. -/
theorem Chip.trimMeasured_spec (c : Chip) (n : Nat) (r : Int) (hn : n < 4) (ha : c.on (F.BAND_TRIM_CTRL_AUTO.pg n) = true) (hr : c.driveState = dvRun) :
    let ch := smGet 0 c.drive.trimCh n
    smGet 0 (c.trimMeasured n r).drive.resid (576 * n + ch) = unsign 8 (max (-128) (min 127 r)) ∧
      smGet 0 (c.trimMeasured n r).drive.trimCh n = (ch + 1) % 576 ∧ (-2 ≤ r → r ≤ 2 → (c.trimMeasured n r).drive.trim = c.drive.trim) ∧
      (c.trimMeasured n r).drive.trimUse = c.drive.trimUse := by
  dsimp only
  rw [c.trimMeasured_eq n r hn ha hr, Chip.trimCond_drive]
  generalize smGet 0 c.drive.trimCh n = ch
  obtain ⟨h1, h2, h3, h4⟩ := (c.setDrive { c.drive with resid := smSet c.drive.resid (576 * n + ch) (unsign 8 (max (-128) (min 127 r))) }).trimCorrect_spec n ch r
  generalize (c.setDrive { c.drive with resid := smSet c.drive.resid (576 * n + ch) (unsign 8 (max (-128) (min 127 r))) }).trimCorrect n ch r = x at h1 h2 h3 h4 ⊢
  refine ⟨?_, (smGet_smSet _ _ _ _ _).trans (if_pos rfl), h4, h3⟩
  show smGet 0 x.drive.resid _ = _
  rw [h1]
  exact (smGet_smSet _ _ _ _ _).trans (if_pos rfl)

/-! ### The neighbour slot (R14, R269) -/

theorem SlotWork.neighbourShort {P : Output → Prop} (hP : AllowsReports P) (c : Chip) (n ch : Nat) : SlotWork P c (c.neighbourShort n ch) := by
  refine .foldl .refl fun x r _ => ?_
  have h : ∀ (y : Chip) a b, SlotWork P y (if y.forced n r a then y else y.diagResult n r a dgNeighbour (some b)) := fun y a b =>
    .ite .refl (.diagResult hP y n r a _ _)
  exact (h x ch (ch + 1)).trans (h _ (ch + 1) ch)

/-- The neighbour slot of a band: its phases are sent. -/
theorem Chip.neighbourBand_spec (falls : List (Nat × Nat × Nat × Nat)) (c : Chip) (n : Nat) :
    SlotWork (fun _ => True) c (Chip.neighbourBand falls c n) ∧
    (c.rst.extest = false → .neighbour n (c.clampLevel n) phaseClasses ∈ (Chip.neighbourBand falls c n).out) := by
  unfold Chip.neighbourBand
  have h1 : SlotWork (fun _ => True) c (c.emit (.neighbour n (c.clampLevel n) phaseClasses)) := .emit .refl trivial
  have h2 := c.emit_sent (.neighbour n (c.clampLevel n) phaseClasses)
  generalize c.emit (.neighbour n (c.clampLevel n) phaseClasses) = x at h1 h2 ⊢
  have h3 : SlotWork (fun _ => True) x (((List.range (3 * c.geoCols - 1)).filter (fun ch => pairResult falls n ch = dgNeighbour)).foldl (fun c ch => c.neighbourShort n ch) x) :=
    .foldl .refl fun y ch _ => .neighbourShort ⟨fun _ => trivial, trivial⟩ y n ch
  exact ⟨h1.trans h3, fun hx => h3.sent.mem (h2 hx)⟩

theorem Chip.neighbourBands_spec (falls : List (Nat × Nat × Nat × Nat)) (l : List Nat) (c : Chip) :
    SlotWork (fun _ => True) c (l.foldl (Chip.neighbourBand falls) c) ∧
    (c.rst.extest = false → ∀ n ∈ l, .neighbour n (c.clampLevel n) phaseClasses ∈ (l.foldl (Chip.neighbourBand falls) c).out) := by
  induction l generalizing c with
  | nil => exact ⟨.refl, fun _ n hn => absurd hn List.not_mem_nil⟩
  | cons m l ih =>
    obtain ⟨h1, h2⟩ := Chip.neighbourBand_spec falls c m
    obtain ⟨k1, k2⟩ := ih (Chip.neighbourBand falls c m)
    refine ⟨h1.trans k1, fun hx n hn => ?_⟩
    rcases List.mem_cons.1 hn with rfl | hn
    · exact k1.sent.mem (h2 hx)
    · rw [← h1.clampLevel n]
      exact k2 (h1.rst ▸ hx) n hn

theorem diagPage_hasPage {c : Chip} (h : c.build = .T) : c.hasPage pgDiag = true := by
  unfold Chip.hasPage
  rw [h]
  decide +kernel

/-- The neighbour slot that is due. -/
theorem Chip.neighbourSlot_spec (c : Chip) (falls : List (Nat × Nat × Nat × Nat)) (hT : c.build = .T) (hd : c.drive.slotDue = true) (hr : c.driveState = dvRun)
    (hn : c.on F.DIAG_CTRL_NEIGHBOUR_EN = true) :
    let t := c.neighbourSlot falls
    if c.inSlack = false then t = c
    else if 2048 ≤ c.slackLeft then t.drive.slotDue = false ∧ t.drive.slotMoves = 0 ∧
      (c.rst.extest = false → ∀ n, n < c.geoBands → .neighbour n (c.clampLevel n) [1, 3, 0, 2] ∈ t.out)
    else if c.drive.slotMoves < 63 then t = c.setDrive { c.drive with slotMoves := c.drive.slotMoves + 1 }
    else t.drive.slotMoves = 0 ∧ t.drive.slotDue = true ∧ t.pend E.DIAG_SLOT_SKIP = true := by
  dsimp only
  unfold Chip.neighbourSlot
  rw [hd, hr, hn]
  split
  next h =>
    rw [h, if_pos]
    decide
  next h =>
    have hs : c.inSlack = true := by simpa using h
    rw [hs, if_neg (show ¬ (!true || decide (dvRun ≠ dvRun) || !true || !true) = true by decide)]
    split
    next hl =>
      rw [if_neg (show ¬ c.slackLeft < 2048 by omega)]
      obtain ⟨h1, h2⟩ := Chip.neighbourBands_spec falls (List.range c.geoBands) (c.setDrive { c.drive with slotDue := false, slotMoves := 0 })
      have hf : (c.setDrive { c.drive with slotDue := false, slotMoves := 0 }).drive.slotDue = false ∧
          (c.setDrive { c.drive with slotDue := false, slotMoves := 0 }).drive.slotMoves = 0 := ⟨rfl, rfl⟩
      have hc : ∀ n, (c.setDrive { c.drive with slotDue := false, slotMoves := 0 }).clampLevel n = c.clampLevel n := fun n => rfl
      have hg : (c.setDrive { c.drive with slotDue := false, slotMoves := 0 }).geoBands = c.geoBands := rfl
      have hx : (c.setDrive { c.drive with slotDue := false, slotMoves := 0 }).rst = c.rst := rfl
      dsimp only
      generalize c.setDrive { c.drive with slotDue := false, slotMoves := 0 } = x at h1 h2 hf hc hg hx ⊢
      rw [hg]
      have h3 := h1.diagFollow ⟨fun _ => trivial, trivial⟩ x
      have h4 := (SlotWork.refl (P := fun _ => True) (c := (List.range c.geoBands).foldl (Chip.neighbourBand falls) x)).diagFollow ⟨fun _ => trivial, trivial⟩ x
      generalize Chip.diagFollow x ((List.range c.geoBands).foldl (Chip.neighbourBand falls) x) = y at h3 h4 ⊢
      have hdue : y.drive.slotDue = x.drive.slotDue := congrArg (fun v : Build × ResetSt × TileSt × DriveSt => v.2.2.2.slotDue) h3.frame
      have hmov : y.drive.slotMoves = x.drive.slotMoves := congrArg (fun v : Build × ResetSt × TileSt × DriveSt => v.2.2.2.slotMoves) h3.frame
      refine ⟨hdue.trans hf.1, hmov.trans hf.2, fun he n hn => ?_⟩
      rw [← hc n]
      exact h4.sent.mem (h2 (by rw [hx]; exact he) n (List.mem_range.2 hn))
    next hl =>
      rw [if_pos (show c.slackLeft < 2048 by omega)]
      dsimp only
      by_cases hm : c.drive.slotMoves < 63
      · rw [if_pos hm, if_pos (show c.drive.slotMoves + 1 < 64 by omega), hd]
      · rw [if_neg hm, if_neg (show ¬ c.drive.slotMoves + 1 < 64 by omega)]
        have hq := ((c.setDrive { c.drive with slotMoves := 0 }).quiet_raise E.DIAG_SLOT_SKIP).drive
        refine ⟨?_, ?_, Chip.raise_pend _ _ (diagPage_hasPage hT) (by decide)⟩
        · rw [hq]
          rfl
        · rw [hq]
          exact hd

/-- Settles O41: the slack of a pass, a measurement, the codes, and each window of the drive. -/
theorem driveUpkeep : Obligations.DriveUpkeep := by
  intro s hrun hT
  refine ⟨fun falls hd hr hn => ?_, fun n r hn ha hr => ?_, ?_, fun o w hc => ⟨?_, ?_, fun hk => ?_, ?_, fun n hn hk hu => ?_, fun n hn => ?_⟩, fun o hp hu hl => ?_⟩
  · refine Completes.live (fun c => c.inT (fun c => c.neighbourSlot falls)) rfl hrun ?_
    rw [Chip.inT, Chip.when_pos _ _ _ (decide_eq_true hT)]
    exact s.chip.neighbourSlot_spec falls hT hd hr hn
  · refine Completes.live (fun c => c.inT (fun c => c.when (decide (n < 4)) (fun c => c.trimMeasured n r))) rfl hrun ?_
    rw [Chip.inT, Chip.when_pos _ _ _ (decide_eq_true hT), Chip.when_pos _ _ _ (decide_eq_true hn)]
    exact s.chip.trimMeasured_spec n r hn ha hr
  · refine Completes.live (fun c => c.inT Chip.trimCodes) rfl hrun ?_
    rw [Chip.inT, Chip.when_pos _ _ _ (decide_eq_true hT)]
    exact s.chip.trimCodes_spec
  · exact Completes.serveFor o (fun c => c.write32 o F.DRIVECTL_FADE_GO.addr (w ||| 0x80000000)) rfl hrun (s.chip.write32_fade o w hT hc)
  · exact Completes.serveFor o (fun c => c.writeField o F.DIAG_CTRL_CLEAR 1) rfl hrun (s.chip.writeField_diagClear o hT hc)
  · exact Completes.serveFor o (fun c => c.write32 o F.DRIVECTL_SPL_DATA_Y.addr w) rfl hrun (s.chip.write32_spl o w hT hc hk)
  · exact Completes.serveFor o (fun c => c.hostRead o F.DRIVECTL_SPL_DATA_Y.addr) rfl hrun (s.chip.hostRead_spl o hT hc.2)
  · refine Completes.serveFor o (fun c => c.when (decide (n < 4)) (fun c => c.write32 o (0x0B0058 + 4096 * n) w)) rfl hrun ?_
    rw [Chip.when_pos _ _ _ (decide_eq_true hn)]
    exact s.chip.write32_trim o n w hn hT hc hk hu
  · refine Completes.serveFor o (fun c => c.when (decide (n < 4)) (fun c => c.hostRead o (0x0B0058 + 4096 * n))) rfl hrun ?_
    rw [Chip.when_pos _ _ _ (decide_eq_true hn)]
    exact s.chip.hostRead_trim o n hn hT hc.2
  · exact Completes.serveFor o (fun c => c.hostRead o F.DIAG_TAB_DATA_STATE.addr) rfl hrun (s.chip.hostRead_diag o hT hp hu hl)

end Sys2Proof.Machine
end

