-- ==== Sys2Proof/Proofs/ImagesAndPasses.lean ====
section
-- One proof at a time: proofs that wait for the kernel side by side hold more memory than the check allows.
set_option Elab.async false
/-! PROOF. The receive queue, complete images, pass boundaries and waits (R233 to R240). -/

namespace Sys2Proof.Machine

/-! ### Writes and reads of the banks by the pipeline (R226, R228, R310) -/

namespace MemOnly

theorem retireOldest (c : Chip) (b : Nat) : MemOnly c (c.retireOldest b) := by
  unfold Chip.retireOldest
  split
  · exact .refl
  next e t _ => exact .showMerge (.trans (.setMem .refl) (.retireEntry _ b e)) b

theorem mergeWrite (c : Chip) (b word : Nat) (d : Word128) (mask : Nat) : MemOnly c (c.mergeWrite b word d mask) := by
  unfold Chip.mergeWrite
  dsimp only
  split
  · exact .ite (.trans (.setMem .refl) (.retireWord _ b word)) (.setMem .refl)
  · exact .showMerge (.setMem (.ite .refl (.retireOldest c b))) b

theorem bankWriteWord (c : Chip) (m w : Nat) (l : List (Option Byte)) (o : Option Origin) : MemOnly c (c.bankWriteWord m w l o) := by
  unfold Chip.bankWriteWord
  dsimp only
  exact .ite (.setMem .refl) (.ite (.bankDeny c _) (.ite .refl (.ite (.showMerge (.trans (.setMem .refl) (.sramStore _ _ _ _)) _) (.mergeWrite c _ _ _ _))))

theorem tileWrite (c : Chip) (b o : Nat) (l : List Byte) : MemOnly c (c.tileWrite b o l) := .foldl .refl fun x _ _ => .bankWriteWord x _ _ _ _

theorem levelOut (c : Chip) (v : Nat) : MemOnly c (c.levelOut v).2 := by
  unfold Chip.levelOut
  rw [apply_ite Prod.snd]
  exact .ite (.openValue _ _) .refl

theorem putLamp (c : Chip) (buf lamp : Nat) (lev : List Nat) : MemOnly c (c.putLamp buf lamp lev) := by
  unfold Chip.putLamp
  refine .trans ?_ (.tileWrite _ _ _ _)
  exact .foldl_snd fun a v => .levelOut a.2 v

theorem getLamp (c : Chip) (buf lamp : Nat) : MemOnly c (c.getLamp buf lamp).2 := .pair (.tileRead c _ _ _ _)

theorem ite_snd {α : Type} {p : Prop} [Decidable p] {c : Chip} {x y : α × Chip} (h : MemOnly c x.2) (k : MemOnly c y.2) : MemOnly c (if p then x else y).2 := by
  split
  · exact h
  · exact k

theorem read {c d : Chip} (h : MemOnly c d) {b o n : Nat} {r : TileRec} : MemOnly c (d.tileRead b o n r).2 := h.trans (.tileRead d b o n r)

theorem lampCm (c : Chip) (cfg : TileCfg) (l : Nat) : MemOnly c (c.lampCm cfg l).2 :=
  .ite_snd .refl (.ite_snd (.pair (.read .refl)) (.pair (.read .refl)))

theorem lampGains (c : Chip) (cfg : TileCfg) (l : Nat) : MemOnly c (c.lampGains cfg l).2 :=
  .ite_snd .refl (.pair (.pair (.read (.pair (.read (.pair (.read .refl)))))))

theorem lampValue (c : Chip) (cfg : TileCfg) (e l s : Nat) : MemOnly c (c.lampValue cfg e l s).2 := by
  unfold Chip.lampValue
  exact .ite_snd (.pair .refl) (.ite_snd (.pair .refl) (.ite_snd (.pair .refl) (.pair (.trans (.lampCm c cfg l) (.lampGains _ cfg l)))))

theorem fillImage (c : Chip) (x : ImgSt) : MemOnly c (c.fillImage x) := by
  refine .foldl .refl fun y l _ => .ite .refl ?_
  split
  · exact .putLamp y _ _ _
  next z _ => exact .trans (.getLamp y z.buf l) (.putLamp _ _ _ _)

end MemOnly

/-- A step on the memories, among steps that keep a part of the block and registers below those of the banks. -/
theorem Keeps.mem {α : Type} {ρ : Chip → α} {A : List Nat} {c d e : Chip} (h : Keeps ρ A [] c d) (hm : MemOnly d e)
    (hρ : ∀ (x : Chip) m r n, ρ { x.still with mem := m, mirror := r, free := n } = ρ x.still := by intros; rfl)
    (hA : A.all (fun a => quietReg a && decide (a / 4096 < 0x0D0)) = true := by decide) : Keeps ρ A [] c e := by
  refine h.trans ⟨by rw [hm.still, hρ], hm.part Chip.build, fun a ha => ?_, fun _ he => absurd he List.not_mem_nil, hm.ctrls, hm.pend⟩
  have ha' := List.all_eq_true.1 hA a ha
  simp only [Bool.and_eq_true, decide_eq_true_eq] at ha'
  exact hm.rd a ha'.1 ha'.2

/-! ### The receive queue and complete images (R233 to R237) -/

/-- The part of the tile that cells and builds leave alone. -/
def Chip.tileFrame (c : Chip) : TileSt := { c.tile with images := [], eotfBad := [] }

/-- The counters of an engine, and the geometry. -/
def engineRegs : List Nat :=
  [(F.MAP_STATUS_TASKS.pg 0).addr, (F.MAP_STATUS_TASKS.pg 1).addr, (F.MAP_SAMPLES_COUNT.pg 0).addr, (F.MAP_SAMPLES_COUNT.pg 1).addr, F.DRIVECTL_GEOMETRY_BANDS.addr]

namespace Keeps
variable {c d : Chip}

theorem eotfUpset (h : Keeps Chip.tileFrame engineRegs [] c d) (e : Nat) (u : List (Nat × Nat)) : Keeps Chip.tileFrame engineRegs [] c (d.eotfUpset e u) := by
  refine .foldl h fun x b _ => ?_
  dsimp only
  split
  · exact .refl
  · split
    · exact .refl
    · exact .report .refl
    · exact .raise (.report (.setTile .refl))

theorem writeSlot (h : Keeps Chip.tileFrame engineRegs [] c d) (s e : Nat) (q : RxCell) (k : Nat) : Keeps Chip.tileFrame engineRegs [] c (d.writeSlot s e q k) := by
  unfold Chip.writeSlot
  dsimp only
  split
  · exact h
  next x _ =>
    refine .ite h ?_
    have h1 := h.mem (.lampValue d x.cfg e (cellFirstLamp q.cell + k) (cellPixel q.cell k))
    generalize d.lampValue x.cfg e (cellFirstLamp q.cell + k) (cellPixel q.cell k) = r at h1 ⊢
    split
    · exact h1
    next lev _ =>
      have h2 := h1.mem (.putLamp r.2 x.buf (cellFirstLamp q.cell + k) lev)
      split
      · exact h2
      · exact .setTile h2

theorem tileShow {α : Type} {ρ : Chip → α} {A : List Nat} (h : Keeps ρ A [] c d) (hv : ∀ (x : Chip) l, ρ (x.setTile { x.tile with images := l }).still = ρ x.still := by intros; rfl)
    (hA : A.all (fun a => decide (a ≠ F.TILERX_STATUS_BUF_USED.addr) && decide (a ≠ F.CORRECT_STATUS_OLD_BUSY.addr) && decide (a ≠ F.DOSE_STATUS_OLD_BUSY.addr)) = true := by decide) :
    Keeps ρ A [] c d.tileShow := by
  have hA' : ∀ a ∈ A, a ≠ F.TILERX_STATUS_BUF_USED.addr ∧ a ≠ F.CORRECT_STATUS_OLD_BUSY.addr ∧ a ≠ F.DOSE_STATUS_OLD_BUSY.addr := fun a ha => by
    have := List.all_eq_true.1 hA a ha
    simp only [Bool.and_eq_true, decide_eq_true_eq] at this
    exact ⟨this.1.1, this.1.2, this.2⟩
  unfold Chip.tileShow
  have h1 : Keeps ρ A [] c (d.setTile { d.tile with images := d.tile.images.filter d.imageUsed }) := .setTile h (hv d _)
  generalize d.setTile { d.tile with images := d.tile.images.filter d.imageUsed } = x at h1 ⊢
  refine .set (.set (.set (.set h1 ?_) ?_) ?_) ?_
  · exact fun hm => (hA' _ hm).1 rfl
  · exact fun hm => (hA' _ hm).1 rfl
  · exact fun hm => (hA' _ hm).2.1 rfl
  · exact fun hm => (hA' _ hm).2.2 rfl

theorem closeBuild (h : Keeps Chip.tileFrame engineRegs [] c d) (s : Nat) (b : Bool) : Keeps Chip.tileFrame engineRegs [] c (d.closeBuild s b) := by
  unfold Chip.closeBuild
  split
  · exact h
  next x _ => exact .ite h (.ite (.raise (.bumpSat (.setTile h))) (.setTile h))

end Keeps

/-- The head of the receive queue taken and counted. -/
def Chip.cellTaken (c : Chip) (e : Nat) (q : RxCell) (l : List RxCell) : Chip :=
  ((c.setTile { c.tile with rxq := l }).bump (F.MAP_STATUS_TASKS.pg (e % 2))).bump (F.MAP_SAMPLES_COUNT.pg (e % 2)) (c.cellLamps q)

theorem Chip.cellTaken_counts (c : Chip) (e : Nat) (q : RxCell) (l : List RxCell) :
    (c.cellTaken e q l).get (F.MAP_STATUS_TASKS.pg (e % 2)) = (c.get (F.MAP_STATUS_TASKS.pg (e % 2)) + 1) % 65536 ∧
    (c.cellTaken e q l).get (F.MAP_SAMPLES_COUNT.pg (e % 2)) = (c.get (F.MAP_SAMPLES_COUNT.pg (e % 2)) + c.cellLamps q) % 2 ^ 32 := by
  unfold Chip.cellTaken Chip.bump
  refine ⟨?_, ?_⟩
  · rw [Chip.get_set_pg_apart _ _ _ _ _ (show F.MAP_STATUS_TASKS.apart F.MAP_SAMPLES_COUNT = true by decide), Chip.get_set_pg _ _ _ _ (by decide) (by decide)]
    rfl
  · rw [Chip.get_set_pg _ _ _ _ (by decide) (by decide),
      Chip.get_set_pg_apart _ _ _ _ _ (show F.MAP_SAMPLES_COUNT.apart F.MAP_STATUS_TASKS = true by decide)]
    rfl

theorem Chip.cellTaken_tile (c : Chip) (e : Nat) (q : RxCell) (l : List RxCell) : (c.cellTaken e q l).tile = { c.tile with rxq := l } ∧ (c.cellTaken e q l).mem = c.mem :=
  ⟨rfl, rfl⟩

/-- What follows a cell that has been taken. -/
def Chip.cellUsed (c : Chip) (e : Nat) (q : RxCell) : Chip :=
  let d := if cellHold q.cell then c else (List.range 14).foldl (fun c k => c.writeSlot q.serial (e % 2) q k) c
  if cellLast q.cell then (d.closeBuild q.serial false).tileShow else d

theorem Chip.pixelProcess_eq (c : Chip) (e : Nat) (u : List (Nat × Nat)) (q : RxCell) (l : List RxCell) (he : c.lampEngine e = true)
    (hq : (c.eotfUpset e u).tile.rxq = q :: l) : c.pixelProcess e u = ((c.eotfUpset e u).cellTaken e q l).cellUsed e q := by
  unfold Chip.pixelProcess
  rw [he, if_neg (by decide)]
  dsimp only
  rw [hq]
  rfl

theorem Chip.pixelProcess_spec (c : Chip) (e : Nat) (u : List (Nat × Nat)) (q : RxCell) (l : List RxCell) (hq : c.tile.rxq = q :: l) :
    let t := c.pixelProcess e u
    if c.lampEngine e = false then t = c
    else t.tile.rxq = l ∧ t.tile.newest = c.tile.newest ∧
      t.get (F.MAP_STATUS_TASKS.pg (e % 2)) = (c.get (F.MAP_STATUS_TASKS.pg (e % 2)) + 1) % 65536 ∧
      t.get (F.MAP_SAMPLES_COUNT.pg (e % 2)) = (c.get (F.MAP_SAMPLES_COUNT.pg (e % 2)) + c.cellLamps q) % 2 ^ 32 ∧
      (u = [] → cellHold q.cell = true → cellLast q.cell = false → t.tile = { c.tile with rxq := l } ∧ t.mem = c.mem) := by
  dsimp only
  split
  next h =>
    unfold Chip.pixelProcess
    rw [h, if_pos]
    decide
  next h =>
    have he : c.lampEngine e = true := by simpa using h
    have h1 : Keeps Chip.tileFrame engineRegs [] c (c.eotfUpset e u) := .eotfUpset .refl e u
    have hf1 : (c.eotfUpset e u).tileFrame = c.tileFrame := h1.view
    have hq1 : (c.eotfUpset e u).tile.rxq = q :: l := (congrArg TileSt.rxq hf1).trans hq
    have hm : e % 2 < 2 := Nat.mod_lt _ (by decide)
    have hin : ∀ m < 2, (F.MAP_STATUS_TASKS.pg m).addr ∈ engineRegs ∧ (F.MAP_SAMPLES_COUNT.pg m).addr ∈ engineRegs := by decide
    obtain ⟨i1, i2⟩ := hin _ hm
    have hlamps : (c.eotfUpset e u).cellLamps q = c.cellLamps q := by
      have hl : (c.eotfUpset e u).lamps = c.lamps := by
        rw [Chip.lamps, Chip.geoBands, Chip.geoRows, Chip.geoCols, h1.get F.DRIVECTL_GEOMETRY_BANDS, h1.get F.DRIVECTL_GEOMETRY_ROWS, h1.get F.DRIVECTL_GEOMETRY_COLS]
        rfl
      rw [Chip.cellLamps, hl, Chip.cellLamps]
    have hu : ∀ x : Chip, Keeps Chip.tileFrame engineRegs [] x (x.cellUsed e q) := fun x => by
      have hw : Keeps Chip.tileFrame engineRegs [] x (if cellHold q.cell then x else (List.range 14).foldl (fun c k => c.writeSlot q.serial (e % 2) q k) x) :=
        .ite .refl (.foldl .refl fun y k _ => .writeSlot .refl _ _ _ _)
      exact .ite (.tileShow (hw.closeBuild _ _)) hw
    rw [c.pixelProcess_eq e u q l he hq1]
    obtain ⟨k1, k2⟩ := (c.eotfUpset e u).cellTaken_counts e q l
    obtain ⟨k3, k4⟩ := (c.eotfUpset e u).cellTaken_tile e q l
    have hf2 : (((c.eotfUpset e u).cellTaken e q l).cellUsed e q).tileFrame = ((c.eotfUpset e u).cellTaken e q l).tileFrame := (hu _).view
    refine ⟨?_, ?_, ?_, ?_, fun hnil hh hl => ?_⟩
    · have n1 := congrArg TileSt.rxq k3
      exact (congrArg TileSt.rxq hf2).trans n1
    · have n1 := congrArg TileSt.newest hf1
      have n2 := congrArg TileSt.newest k3
      exact (congrArg TileSt.newest hf2).trans (n2.trans n1)
    · rw [(hu _).get _ i1, k1, h1.get _ i1]
    · rw [(hu _).get _ i2, k2, h1.get _ i2, hlamps]
    · subst hnil
      have hcu : ((c.eotfUpset e []).cellTaken e q l).cellUsed e q = (c.eotfUpset e []).cellTaken e q l := by
        unfold Chip.cellUsed
        rw [hh, hl]
        rfl
      rw [hcu]
      exact ⟨k3, k4⟩

/-! #### A complete image (R237) -/

/-- The newest image of every feed. -/
def Chip.newestNow (c : Chip) : List (Nat × Nat) := c.tile.newest

/-- IMAGES.COUNT. -/
def imagesReg : List Nat := [F.TILERX_IMAGES_COUNT.addr]

/-- What judging an image leaves of the tile. -/
theorem Chip.judgeImage_spec (c : Chip) (x : ImgSt) (hx : c.tile.images = [x]) :
    Keeps Chip.newestNow imagesReg [] c (c.judgeImage x) ∧
    ∃ y, (c.judgeImage x).tile.images = [y] ∧ y.serial = x.serial ∧ y.phase = x.phase ∧ y.done33 = x.done33 := by
  unfold Chip.judgeImage
  split
  · exact ⟨.refl, x, hx, rfl, rfl, rfl⟩
  next due _ =>
    split
    · exact ⟨.refl, x, hx, rfl, rfl, rfl⟩
    · have hi : (c.setImage { x with judged := true }).tile.images = [{ x with judged := true }] := by
        show c.tile.images.map _ = _
        rw [hx]
        simp
      have h1 : Keeps Chip.newestNow imagesReg [] c (c.setImage { x with judged := true }) := .setTile .refl
      dsimp only
      generalize c.setImage { x with judged := true } = y at hi h1 ⊢
      generalize ((due : Int) - x.done33) / (us33 : Int) = m
      have h2 : Keeps Chip.tile imagesReg [] y (if m < signed 16 (y.get F.TILERX_MARGIN_MIN_US) then y.set F.TILERX_MARGIN_MIN_US (unsign 16 (max (-32768) m)) else y) :=
        .ite (.set .refl) .refl
      generalize (if m < signed 16 (y.get F.TILERX_MARGIN_MIN_US) then y.set F.TILERX_MARGIN_MIN_US (unsign 16 (max (-32768) m)) else y) = z at h2 ⊢
      have h3 : Keeps Chip.tile imagesReg [] y (if due < x.done33 then (z.bumpSat F.TILERX_LATE_COUNT_COUNT).raise E.IMAGE_LATE else z) := .ite (.raise (.bumpSat h2)) h2
      have ht : (if due < x.done33 then (z.bumpSat F.TILERX_LATE_COUNT_COUNT).raise E.IMAGE_LATE else z).tile = y.tile := h3.view
      refine ⟨h1.trans (h3.mono (ρ' := Chip.newestNow) (congrArg TileSt.newest ht)), { x with judged := true }, by rw [ht]; exact hi, rfl, rfl, rfl⟩

theorem Chip.finishImage_spec (c : Chip) (x : ImgSt) (at33 : Nat) (hx : c.tile.images = [x]) (hp : x.phase = 1) :
    let t := c.finishImage x.serial at33
    smFind t.tile.newest x.feed = some x.serial ∧ (∃ y, t.tile.images = [y] ∧ y.serial = x.serial ∧ y.phase = 2 ∧ y.done33 = at33) ∧
      t.get F.TILERX_IMAGES_COUNT = (c.get F.TILERX_IMAGES_COUNT + 1) % 2 ^ 32 := by
  have hi : c.image? x.serial = some x := by
    rw [Chip.image?, hx]
    simp
  unfold Chip.finishImage
  rw [hi]
  dsimp only
  rw [if_neg (by rw [hp]; decide)]
  have hm := MemOnly.fillImage c x
  have ht : (c.fillImage x).tile = c.tile := hm.part Chip.tile
  have hcnt : (c.fillImage x).get F.TILERX_IMAGES_COUNT = c.get F.TILERX_IMAGES_COUNT := by rw [Chip.get, hm.rd _ (by decide) (by decide), Chip.get]
  generalize c.fillImage x = d at ht hcnt ⊢
  have h2 : (d.setImage { x with phase := 2, done33 := at33 }).tile.images = [{ x with phase := 2, done33 := at33 }] ∧
      (d.setImage { x with phase := 2, done33 := at33 }).get F.TILERX_IMAGES_COUNT = c.get F.TILERX_IMAGES_COUNT := by
    refine ⟨?_, hcnt⟩
    show d.tile.images.map _ = _
    rw [ht, hx]
    simp
  have hserial : ({ x with phase := 2, done33 := at33 } : ImgSt).serial = x.serial ∧ ({ x with phase := 2, done33 := at33 } : ImgSt).phase = 2 ∧
      ({ x with phase := 2, done33 := at33 } : ImgSt).done33 = at33 := ⟨rfl, rfl, rfl⟩
  generalize ({ x with phase := 2, done33 := at33 } : ImgSt) = x' at h2 hserial ⊢
  generalize d.setImage x' = e at h2 ⊢
  obtain ⟨h2, h3⟩ := h2
  have h4 : (((e.setTile { e.tile with newest := smSet e.tile.newest x.feed x.serial }).bump F.TILERX_IMAGES_COUNT).bump F.MAPCTL_STATUS_CANVAS_SEQ).tile.images = [x'] := h2
  have h5 : smFind (((e.setTile { e.tile with newest := smSet e.tile.newest x.feed x.serial }).bump F.TILERX_IMAGES_COUNT).bump F.MAPCTL_STATUS_CANVAS_SEQ).tile.newest x.feed =
      some x.serial := (smFind_smSet _ _ _ _).trans (if_pos rfl)
  have h6 : (((e.setTile { e.tile with newest := smSet e.tile.newest x.feed x.serial }).bump F.TILERX_IMAGES_COUNT).bump F.MAPCTL_STATUS_CANVAS_SEQ).get F.TILERX_IMAGES_COUNT =
      (c.get F.TILERX_IMAGES_COUNT + 1) % 2 ^ 32 := by
    rw [Chip.bump, Chip.get_set_ne _ _ _ _ (by decide), Chip.bump, Chip.get_set _ _ _ (by decide) (by decide)]
    show (e.get F.TILERX_IMAGES_COUNT + 1) % 2 ^ 32 = _
    rw [h3]
  generalize ((e.setTile { e.tile with newest := smSet e.tile.newest x.feed x.serial }).bump F.TILERX_IMAGES_COUNT).bump F.MAPCTL_STATUS_CANVAS_SEQ = f at h4 h5 h6 ⊢
  obtain ⟨k1, y, ky, ks, kp, kd⟩ := f.judgeImage_spec x' h4
  have kn : (f.judgeImage x').tile.newest = f.tile.newest := k1.view
  have kc := k1.get F.TILERX_IMAGES_COUNT
  generalize f.judgeImage x' = g at k1 ky kn kc ⊢
  have hs : Keeps Chip.newestNow imagesReg [] g g.tileShow := .tileShow .refl
  have hn : g.tileShow.tile.newest = g.tile.newest := hs.view
  have hfind : smFind g.tile.newest x.feed = some x.serial := by rw [kn, h5]
  refine ⟨by rw [hn]; exact hfind, ⟨y, ?_, ks.trans hserial.1, kp.trans hserial.2.1, kd.trans hserial.2.2⟩, (hs.get _).trans (kc.trans h6)⟩
  have hshow : g.tileShow.tile.images = g.tile.images.filter g.imageUsed := rfl
  have hused : g.imageUsed y = true := by
    unfold Chip.imageUsed
    have : g.tile.newest.any (fun p => p.2 = y.serial) = true :=
      List.any_eq_true.2 ⟨_, smFind_mem _ _ _ hfind, decide_eq_true (ks.trans hserial.1).symm⟩
    rw [this, Bool.or_true, Bool.true_or, Bool.true_or]
  rw [hshow, ky, List.filter_cons_of_pos hused, List.filter_nil]

/-- The only build, closed and written, completes. -/
theorem Chip.imageComplete_spec (c : Chip) (ps : Nat) (x : ImgSt) (hx : c.tile.images = [x]) (hp : x.phase = 1) (hq : c.tile.rxq = []) :
    let t := c.imageComplete ps
    smFind t.tile.newest x.feed = some x.serial ∧
      (∃ y, t.tile.images = [y] ∧ y.serial = x.serial ∧ y.phase = 2 ∧ y.done33 = max c.tile.sched.now33 (33 * ps)) ∧
      t.get F.TILERX_IMAGES_COUNT = (c.get F.TILERX_IMAGES_COUNT + 1) % 2 ^ 32 := by
  have e : c.imageComplete ps = (c.setSched { c.tile.sched with now33 := max c.tile.sched.now33 (33 * ps) }).finishImage x.serial (max c.tile.sched.now33 (33 * ps)) := by
    unfold Chip.imageComplete
    rw [hx, hq]
    simp [hp]
  dsimp only
  rw [e]
  exact Chip.finishImage_spec (c.setSched { c.tile.sched with now33 := max c.tile.sched.now33 (33 * ps) }) x _ hx hp

/-! ### Pass boundaries and waits (R238 to R240) -/

/-- The schedule, without what the changes of a boundary set. -/
def Chip.passView (c : Chip) : SchedSt := { c.tile.sched with skip := [], offset33 := 0 }

/-- PASS_COUNT. -/
def passReg : List Nat := [F.DRIVECTL_PASS_COUNT_COUNT.addr]

/-- The dimming of the three colours (R261). -/
def Chip.dimList (c : Chip) : List (Nat × Nat) := [0, 1, 2].map (fun k => dimOf (c.get (bNowFld k)) (c.get F.DRIVECTL_CROSSOVER_BX))

/-- The DAC codes of the three colours shown. -/
def dimDac (l : List (Nat × Nat)) (c : Chip) : Chip := [0, 1, 2].foldl (fun c k => c.set (dacFld k) (l.getD k (255, 65536)).1) c

/-- The PWM scales of the three colours taken. -/
def dimScale (l : List (Nat × Nat)) (c : Chip) : Chip := c.setDrive { c.drive with scale := l.map (·.2) }

theorem Chip.dimStep_eq (c : Chip) : c.dimStep = dimScale c.dimList (dimDac c.dimList c) := by
  unfold Chip.dimStep dimScale dimDac Chip.dimList
  exact rfl

namespace Keeps
variable {c d : Chip}

theorem setTileState (h : Keeps Chip.passView passReg [] c d) (s : Nat) : Keeps Chip.passView passReg [] c (d.setTileState s) := .cond (.set h)

theorem setDriveState (h : Keeps Chip.passView passReg [] c d) (s : Nat) : Keeps Chip.passView passReg [] c (d.setDriveState s) := .cond (.set h)

theorem setOffset (h : Keeps Chip.passView passReg [] c d) (o : Int) : Keeps Chip.passView passReg [] c (d.setOffset o) := by
  have h1 : Keeps Chip.passView passReg [] c (((d.setSched { d.tile.sched with offset33 := o }).set F.TILERX_OFFSET_STEPS (unsign 32 (Int.tdiv o step33))).cond
    E.SCHED_SLEW (decide (o ≠ 0))) := .cond (.set (.setSched h))
  exact .ite (h1.setTileState _) (.ite (h1.setTileState _) h1)

theorem driveBoundary (h : Keeps Chip.passView passReg [] c d) : Keeps Chip.passView passReg [] c d.driveBoundary :=
  .ite h (.ite (.setDriveState (.setDrive h) _) (.ite (.setDriveState (.setDrive h) _) (.ite (.setDriveState (.setDrive h) _) h)))

theorem colours (h : Keeps Chip.passView passReg [] c d) {g : Nat → Fld} {v : Chip → Nat → Nat}
    (hg : ∀ k ∈ [0, 1, 2], plainReg (g k).addr = true ∧ (g k).addr ∉ passReg := by decide) :
    Keeps Chip.passView passReg [] c ([0, 1, 2].foldl (fun c k => c.set (g k) (v c k)) d) :=
  .foldl h fun _ k hk => .set .refl (hg k hk).2 (hg k hk).1

theorem fadeStep (h : Keeps Chip.passView passReg [] c d) : Keeps Chip.passView passReg [] c d.fadeStep := by
  unfold Chip.fadeStep
  split
  · exact h
  next f _ =>
    extract_lets t nits x y f1
    have hx : Keeps Chip.passView passReg [] c x := h.colours
    clear_value x
    exact .ite (.raise (.set (.setDrive hx))) (.setDrive hx)

theorem dimDac (h : Keeps Chip.passView passReg [] c d) (l : List (Nat × Nat)) : Keeps Chip.passView passReg [] c (Machine.dimDac l d) := by
  have hg : ∀ k ∈ [0, 1, 2], plainReg (dacFld k).addr = true ∧ (dacFld k).addr ∉ passReg := by decide
  exact .foldl h fun _ k hk => .set .refl (hg k hk).2 (hg k hk).1

theorem dimScale (h : Keeps Chip.passView passReg [] c d) (l : List (Nat × Nat)) : Keeps Chip.passView passReg [] c (Machine.dimScale l d) := .setDrive h

theorem dimStep (h : Keeps Chip.passView passReg [] c d) : Keeps Chip.passView passReg [] c d.dimStep := by
  rw [Chip.dimStep_eq]
  exact (h.dimDac _).dimScale _

/-- A field of every BAND page is set. -/
theorem bandPages (h : Keeps Chip.passView passReg [] c d) {g : Fld} {v : Chip → Nat → Nat}
    (hg : ∀ n < 4, plainReg (g.pg n).addr = true ∧ (g.pg n).addr ∉ passReg := by decide) :
    Keeps Chip.passView passReg [] c ((List.range 4).foldl (fun c n => c.set (g.pg n) (v c n)) d) :=
  .foldl h fun _ n hn => .set .refl (hg n (List.mem_range.1 hn)).2 (hg n (List.mem_range.1 hn)).1

theorem bandTb (h : Keeps Chip.passView passReg [] c d) {n : Nat} (hn : n < 4) : Keeps Chip.passView passReg [] c (d.bandTb n) := by
  have hg : ∀ n < 4, plainReg (F.BAND_STATUS_TB.pg n).addr = true ∧ (F.BAND_STATUS_TB.pg n).addr ∉ passReg := by decide
  exact .ite h (.raise (.set h (hg n hn).2 (hg n hn).1))

theorem passChanges (h : Keeps Chip.passView passReg [] c d) : Keeps Chip.passView passReg [] c d.passChanges := by
  unfold Chip.passChanges
  have h1 := h.driveBoundary
  generalize d.driveBoundary = d1 at h1 ⊢
  extract_lets d0 skip s1 d2 d3 d4 d5 s5 d6 d7 d8 s8 d9
  have h2 : Keeps Chip.passView passReg [] c d2 := .setSched h1
  have h3 : Keeps Chip.passView passReg [] c d3 := .bandPages h2
  have h4 : Keeps Chip.passView passReg [] c d4 := h3.fadeStep.dimStep
  have h5 : Keeps Chip.passView passReg [] c d5 := .foldl h4 fun _ _ hn => .bandTb .refl (List.mem_range.1 hn)
  have h6 : Keeps Chip.passView passReg [] c d6 := .setDrive h5
  have h7 : Keeps Chip.passView passReg [] c d7 := .setDrive (.ite h6 (.set (.setDrive h6)))
  have h8 : Keeps Chip.passView passReg [] c d8 := .cond h7
  have h9 : Keeps Chip.passView passReg [] c d9 := .ite (.setDrive h8) h8
  exact .cond (.set h9)

end Keeps

/-- The whole schedule. -/
def Chip.schedNow (c : Chip) : SchedSt := c.tile.sched

theorem Chip.tileShow_waiting (c : Chip) : c.tileShow.on F.TILERX_STATUS_WAITING = c.on F.TILERX_STATUS_WAITING := by
  unfold Chip.tileShow Chip.on
  rw [Chip.get_set_ne _ _ _ _ (by decide), Chip.get_set_ne _ _ _ _ (by decide), Chip.get_set_apart _ _ _ _ (by decide), Chip.get_set_apart _ _ _ _ (by decide)]
  rfl

theorem Chip.tileShow_sched (c : Chip) : c.tileShow.tile.sched = c.tile.sched := rfl

theorem Chip.lightNow_kept (c : Chip) : c.lightNow.tile = c.tile ∧ c.lightNow.get F.DRIVECTL_PASS_COUNT_COUNT = c.get F.DRIVECTL_PASS_COUNT_COUNT ∧
    c.lightNow.on F.TILERX_STATUS_WAITING = c.on F.TILERX_STATUS_WAITING := by
  have hr : Keeps Chip.tile [F.DRIVECTL_PASS_COUNT_COUNT.addr, F.TILERX_STATUS_WAITING.addr] [] c c.reducedService := .ite (.set (.set .refl)) .refl
  have h : Keeps Chip.tile [F.DRIVECTL_PASS_COUNT_COUNT.addr, F.TILERX_STATUS_WAITING.addr] [] c c.lightNow := .ite hr .refl
  exact ⟨h.view, h.get _, h.on _⟩

/-- The schedule of a pass that begins, with the image it lights or waits for. -/
def Chip.passBegun (c : Chip) (at33 : Nat) : Chip :=
  let s := c.tile.sched
  let c := c.setSched { s with index := s.index + 1, start33 := at33, now33 := max s.now33 at33, waited33 := 0, row := 0, waiting := false }
  c.setSched { c.tile.sched with waiting := c.passImage.2, image := c.passImage.1 }

/-- A pass that has begun shows in its registers. -/
def Chip.passShown (c : Chip) : Chip :=
  (((c.set F.TILERX_STATUS_WAITING (b2n c.tile.sched.waiting)).showSlack).bump F.DRIVECTL_PASS_COUNT_COUNT).tileShow

theorem Chip.startPass_eq (c : Chip) (at33 : Nat) : c.startPass at33 = (c.passBegun at33).passShown := by
  unfold Chip.startPass Chip.passBegun Chip.passShown
  exact rfl

theorem Chip.passShown_spec (c : Chip) :
    c.passShown.tile.sched = c.tile.sched ∧ c.passShown.get F.DRIVECTL_PASS_COUNT_COUNT = (c.get F.DRIVECTL_PASS_COUNT_COUNT + 1) % 2 ^ 32 ∧
      c.passShown.on F.TILERX_STATUS_WAITING = c.tile.sched.waiting := by
  unfold Chip.passShown
  have hw : (c.set F.TILERX_STATUS_WAITING (b2n c.tile.sched.waiting)).on F.TILERX_STATUS_WAITING = c.tile.sched.waiting :=
    Chip.on_set_b2n _ _ _ (by decide) (by decide)
  have k1 : Keeps Chip.schedNow [F.DRIVECTL_PASS_COUNT_COUNT.addr] [] c (c.set F.TILERX_STATUS_WAITING (b2n c.tile.sched.waiting)) := .set .refl
  generalize c.set F.TILERX_STATUS_WAITING (b2n c.tile.sched.waiting) = d at hw k1 ⊢
  have k2 : Keeps Chip.schedNow [F.DRIVECTL_PASS_COUNT_COUNT.addr, F.TILERX_STATUS_WAITING.addr] [] d d.showSlack := .ite .refl (.set .refl)
  have hv : d.showSlack.tile.sched = c.tile.sched := (show d.showSlack.schedNow = d.schedNow from k2.view).trans k1.view
  have hc : d.showSlack.get F.DRIVECTL_PASS_COUNT_COUNT = c.get F.DRIVECTL_PASS_COUNT_COUNT := (k2.get _).trans (k1.get _)
  have ho : d.showSlack.on F.TILERX_STATUS_WAITING = c.tile.sched.waiting := (k2.on _).trans hw
  generalize d.showSlack = e at hv hc ho ⊢
  have hs : Keeps Chip.schedNow [F.DRIVECTL_PASS_COUNT_COUNT.addr] [] (e.bump F.DRIVECTL_PASS_COUNT_COUNT) (e.bump F.DRIVECTL_PASS_COUNT_COUNT).tileShow := .tileShow .refl
  refine ⟨hs.view.trans hv, ?_, ?_⟩
  · rw [hs.get _, Chip.bump, Chip.get_set _ _ _ (by decide) (by decide), hc]
    rfl
  · rw [Chip.tileShow_waiting, Chip.bump, Chip.on, Chip.get_set_ne _ _ _ _ (by decide)]
    exact ho

theorem Chip.startPass_spec (c : Chip) (at33 : Nat) :
    let t := c.startPass at33
    t.tile.sched.index = c.tile.sched.index + 1 ∧ t.tile.sched.row = 0 ∧ t.tile.sched.start33 = at33 ∧
      t.get F.DRIVECTL_PASS_COUNT_COUNT = (c.get F.DRIVECTL_PASS_COUNT_COUNT + 1) % 2 ^ 32 ∧ t.on F.TILERX_STATUS_WAITING = t.tile.sched.waiting := by
  rw [c.startPass_eq]
  have hc2 : (c.passBegun at33).tile.sched.index = c.tile.sched.index + 1 ∧ (c.passBegun at33).tile.sched.row = 0 ∧
      (c.passBegun at33).tile.sched.start33 = at33 ∧ (c.passBegun at33).tile.sched.waiting = (c.passBegun at33).tile.sched.waiting ∧
      (c.passBegun at33).get F.DRIVECTL_PASS_COUNT_COUNT = c.get F.DRIVECTL_PASS_COUNT_COUNT := ⟨rfl, rfl, rfl, rfl, rfl⟩
  generalize c.passBegun at33 = d at hc2 ⊢
  obtain ⟨i1, i2, i3, -, i5⟩ := hc2
  obtain ⟨m1, m2, m3⟩ := d.passShown_spec
  dsimp only
  rw [m1, m2, m3, i5]
  exact ⟨i1, i2, i3, rfl, rfl⟩

theorem Chip.passBoundary_spec (c : Chip) (h : c.passReady = true) :
    let t := c.passBoundary.lightNow
    t.tile.sched.index = c.tile.sched.index + 1 ∧ t.tile.sched.row = 0 ∧
      t.get F.DRIVECTL_PASS_COUNT_COUNT = (c.get F.DRIVECTL_PASS_COUNT_COUNT + 1) % 2 ^ 32 ∧
      (c.tile.sched.index = 0 → t.tile.sched.start33 = c.tile.sched.start33 + c.tile.sched.gapSteps * step33) ∧
      t.on F.TILERX_STATUS_WAITING = t.tile.sched.waiting := by
  have hp : c.passBoundary = (c.setOffset (if c.tile.sched.index = 0 then c.tile.sched.offset33 else c.passEnd.2)).passChanges.startPass
      (if c.tile.sched.index = 0 then c.tile.sched.start33 + c.tile.sched.gapSteps * step33 else c.passEnd.1) := by
    unfold Chip.passBoundary
    rw [h]
    rfl
  obtain ⟨t1, t2, t3⟩ := c.passBoundary.lightNow_kept
  dsimp only
  rw [t1, t2, t3, hp]
  have hk : Keeps Chip.passView passReg [] c (c.setOffset (if c.tile.sched.index = 0 then c.tile.sched.offset33 else c.passEnd.2)).passChanges := .passChanges (.setOffset .refl _)
  generalize (c.setOffset (if c.tile.sched.index = 0 then c.tile.sched.offset33 else c.passEnd.2)).passChanges = d at hk ⊢
  have hv : d.passView = c.passView := hk.view
  have hidx : d.tile.sched.index = c.tile.sched.index := by
    have := congrArg SchedSt.index hv
    exact this
  obtain ⟨s1, s2, s3, s4, s5⟩ := d.startPass_spec (if c.tile.sched.index = 0 then c.tile.sched.start33 + c.tile.sched.gapSteps * step33 else c.passEnd.1)
  refine ⟨by rw [s1, hidx], s2, by rw [s4, hk.get _], fun h0 => ?_, s5⟩
  rw [s3, if_pos h0]

theorem Chip.waitEnd_spec (c : Chip) (h : c.tile.sched.waiting = true) :
    let t := c.waitEnd
    t.tile.sched.waiting = false ∧ t.on F.TILERX_STATUS_WAITING = false ∧
      let lit := c.litImage c.tile.sched.feed c.tile.sched.bar c.tile.sched.beat
      if lit.any (fun x => decide (x.phase = 2) && decide (x.done33 ≤ c.tile.sched.start33 + c.slack33)) then t.tile.sched.image = lit.map (·.serial)
      else t.tile.sched.image = c.tile.sched.image ∧ t.tile.sched.waited33 = c.slack33 := by
  unfold Chip.waitEnd
  dsimp only
  rw [if_neg (by rw [h]; decide)]
  have hoff : ∀ x : Chip, (x.set F.TILERX_STATUS_WAITING 0).tileShow.on F.TILERX_STATUS_WAITING = false := fun x => by
    rw [Chip.tileShow_waiting]
    exact Chip.on_set_b2n x F.TILERX_STATUS_WAITING false (by decide) (by decide)
  have hsc : ∀ s : SchedSt, ((c.setSched s).set F.TILERX_STATUS_WAITING 0).tileShow.tile.sched = s := fun _ => rfl
  refine ⟨?_, hoff _, ?_⟩
  · rw [hsc]
    split <;> rfl
  · rw [hsc]
    cases c.litImage c.tile.sched.feed c.tile.sched.bar c.tile.sched.beat with
    | none => exact ⟨rfl, rfl⟩
    | some x =>
      simp only [Option.any_some]
      split
      · rfl
      · exact ⟨rfl, rfl⟩

/-- A command of a running tile. -/
theorem Completes.tile {i : Instr} {s : State} {P : Chip → Prop} (f : Chip → Chip) (he : exec i s = Machine.live s (fun c => c.inT f)) (h : Runs s)
    (ht : s.chip.build = .T) (hp : P (f s.chip)) : Completes i s P :=
  .live _ he h (by rw [Chip.inT, Chip.when_pos _ _ _ (decide_eq_true ht)]; exact hp)

/-- Settles O38: a cell taken is counted and written into its image; closing, filling and finishing an image; each pass starts from what the changes of
the boundary keep; and the end of a wait by its two outcomes. -/
theorem imagesAndPasses : Obligations.ImagesAndPasses := by
  unfold Obligations.ImagesAndPasses
  intro s hs ht
  exact ⟨fun e u q l hq => .tile _ rfl hs ht (s.chip.pixelProcess_spec e u q l hq), fun ps x hx hp hq => .tile _ rfl hs ht (s.chip.imageComplete_spec ps x hx hp hq),
    fun h => .tile _ rfl hs ht (s.chip.passBoundary_spec h), fun h => .tile _ rfl hs ht (s.chip.waitEnd_spec h)⟩

end Sys2Proof.Machine
end

