-- ==== Sys2Proof/Proofs/SramWindow.lean ====
section
-- One proof at a time: proofs that wait for the kernel side by side hold more memory than the check allows.
set_option Elab.async false
/-! PROOF. Words of the SRAM and its window (R302, R304, R310, R314). -/

namespace Sys2Proof.Machine

/-! ### Words of the SRAM (R302, R310, R314) -/

@[simp] theorem Chip.bank_setBank (c : Chip) (b n : Nat) (s : BankSt) : (c.setBank b s).bank n = if n = b then s else c.bank n := smGet_smSet _ _ _ _ _

theorem Chip.bank_setBank_same (c : Chip) (b : Nat) (s : BankSt) : (c.setBank b s).bank b = s := by rw [Chip.bank_setBank, if_pos rfl]

/-- A register that an error report leaves alone. -/
theorem Chip.report_rd (c : Chip) (pg : Nat) (l : List ErrRec) (a : Nat) (ha : a % 4096 < 0x20 ∨ 0x34 ≤ a % 4096) : (c.report pg l).rd a = c.rd a := by
  refine foldl_rel (fun c d => d.rd a = c.rd a) (fun _ => rfl) (fun h k => k.trans h) id _ _ (fun d r _ => ?_) c
  have hw : ∀ (x : Chip) (off : Nat) (w : Word), 0x20 ≤ off → off < 0x34 → x.rd a = d.rd a → (x.wr (pg * 4096 + off) w).rd a = d.rd a := fun x off w h1 h2 hx => by
    rw [Chip.rd_wr, if_neg (by omega), hx]
  have hset : ∀ (x : Chip) (f : Fld) (v : Nat), f.addr = 0x30 → x.rd a = d.rd a → (x.set (f.pg pg) v).rd a = d.rd a := fun x f v h hx => by
    have e : (f.pg pg).addr = f.addr + 4096 * pg := rfl
    rw [Chip.rd_set_ne _ _ _ _ (by omega), hx]
  have hite : ∀ (p : Prop) [Decidable p] (x y : Chip), x.rd a = d.rd a → y.rd a = d.rd a → (if p then x else y).rd a = d.rd a := by
    intro p _ x y hx hy
    split
    · exact hx
    · exact hy
  have hcount : ∀ (x : Chip) (f : Fld), f.addr = 0x30 → x.rd a = d.rd a →
      (if x.get (f.pg pg) = 2 ^ ((f.pg pg).hi + 1 - (f.pg pg).lo) - 1 then x.set (F.ERR_OVERFLOW.pg pg) 1 else x.bump (f.pg pg)).rd a = d.rd a := fun x f h hx =>
    hite _ _ _ (hset x F.ERR_OVERFLOW 1 rfl hx) (hset x f _ h hx)
  dsimp only [id]
  unfold Chip.reportOne
  dsimp only
  have h1 := hite ((d.rd (pg * 4096 + 0x20)).getLsbD 31 = true) d ((d.wr (pg * 4096 + 0x20) (r.word0 d.barCount)).wr (pg * 4096 + 0x24) (BitVec.ofNat 32 r.loc)) rfl
    (hw _ _ _ (by decide) (by decide) (hw _ _ _ (by decide) (by decide) rfl))
  generalize (if (d.rd (pg * 4096 + 0x20)).getLsbD 31 = true then d
    else (d.wr (pg * 4096 + 0x20) (r.word0 d.barCount)).wr (pg * 4096 + 0x24) (BitVec.ofNat 32 r.loc)) = x at h1 ⊢
  have h2 := hite ((r.ue || !((x.rd (pg * 4096 + 0x28)).getLsbD 30)) = true)
    ((x.wr (pg * 4096 + 0x28) (r.word0 d.barCount)).wr (pg * 4096 + 0x2C) (BitVec.ofNat 32 r.loc)) x
    (hw _ _ _ (by decide) (by decide) (hw _ _ _ (by decide) (by decide) h1)) h1
  generalize (if (r.ue || !((x.rd (pg * 4096 + 0x28)).getLsbD 30)) = true then
    (x.wr (pg * 4096 + 0x28) (r.word0 d.barCount)).wr (pg * 4096 + 0x2C) (BitVec.ofNat 32 r.loc) else x) = y at h2 ⊢
  cases r.ue
  · exact hcount y F.ERR_CORR rfl h2
  · exact hcount y F.ERR_UNCORR rfl h2

/-- Where a word lies hangs on the remap entries of its bank. -/
theorem Chip.sramWord_congr {c d : Chip} (w : Nat) (h : ∀ e < 8, d.rd (0x0D0080 + 4096 * (w / 65536) + 4 * e) = c.rd (0x0D0080 + 4096 * (w / 65536) + 4 * e)) :
    d.sramWord w = c.sramWord w := by
  unfold Chip.sramWord
  dsimp only
  have : (List.range 8).find? (fun e => ((d.rd (0x0D0080 + 4096 * (w / 65536) + 4 * e)).getLsbD 31 != (d.rd (0x0D0080 + 4096 * (w / 65536) + 4 * e)).getLsbD 30) &&
        decide (bitsOf (d.rd (0x0D0080 + 4096 * (w / 65536) + 4 * e)) 15 0 = w % 65536)) =
      (List.range 8).find? (fun e => ((c.rd (0x0D0080 + 4096 * (w / 65536) + 4 * e)).getLsbD 31 != (c.rd (0x0D0080 + 4096 * (w / 65536) + 4 * e)).getLsbD 30) &&
        decide (bitsOf (c.rd (0x0D0080 + 4096 * (w / 65536) + 4 * e)) 15 0 = w % 65536)) :=
    List.find?_congr fun e he => by rw [h e (List.mem_range.1 he)]
  rw [this]

/-- The registers of the banks that say where a word lies and whether a flip mask is armed, and their owners. -/
def sramReg (a : Nat) : Bool :=
  decide (0x0D0 ≤ a / 4096) && decide (a / 4096 < 0x0D8) && (decide (a % 4096 = 0x34) || decide (a % 4096 = 0x40) || decide (0x80 ≤ a % 4096))

/-- Nothing differs of what the SRAM holds, of the banks but the last error of each, and of where their words lie. -/
structure SramSame (c d : Chip) : Prop where
  rd : ∀ a, sramReg a = true → d.rd a = c.rd a
  sram : d.mem.sram = c.mem.sram
  syn : d.mem.sramSyn = c.mem.sramSyn
  bank : ∀ b, d.bank b = { c.bank b with lastUe := (d.bank b).lastUe }

namespace SramSame
variable {c d e : Chip}

theorem refl : SramSame c c := ⟨fun _ _ => rfl, rfl, rfl, fun _ => rfl⟩

theorem trans (h : SramSame c d) (k : SramSame d e) : SramSame c e :=
  ⟨fun a ha => (k.rd a ha).trans (h.rd a ha), k.sram.trans h.sram, k.syn.trans h.syn, fun b => by rw [k.bank b, h.bank b]⟩

theorem wr (h : SramSame c d) {a : Nat} {w : Word} (ha : sramReg a = false) : SramSame c (d.wr a w) :=
  h.trans ⟨fun b hb => by
    rw [Chip.rd_wr, if_neg]
    rintro rfl
    exact absurd (hb.symm.trans ha) (by decide), rfl, rfl, fun _ => rfl⟩

theorem set (h : SramSame c d) {f : Fld} {v : Nat} (ha : sramReg f.addr = false) : SramSame c (d.set f v) := h.wr ha

/-- A report that leaves the memories leaves them as they are. -/
theorem ofQuiet (h : SramSame c d) (q : Quiet d e) (hr : ∀ a, sramReg a = true → e.rd a = d.rd a) : SramSame c e := by
  have hm : e.mem = d.mem := q.mem
  exact h.trans ⟨hr, by rw [hm], by rw [hm], fun b => by rw [Chip.bank, hm, ← Chip.bank]⟩

theorem raise (h : SramSame c d) {x : Ev} : SramSame c (d.raise x) :=
  h.ofQuiet (d.quiet_raise x) fun a ha => d.raise_rd_of x a (by
    simp only [sramReg, Bool.and_eq_true, Bool.or_eq_true, decide_eq_true_eq] at ha
    simp only [eventReg, Bool.or_eq_false_iff, decide_eq_false_iff_not, List.mem_cons, List.not_mem_nil, or_false, F.USB4_PBA, F.ECC_EVQ_LOST, F.CHAINCTL_MON_LOST_COUNT]
    omega)

theorem report (h : SramSame c d) {pg : Nat} {l : List ErrRec} : SramSame c (d.report pg l) :=
  h.ofQuiet (d.quiet_report pg l) fun a ha => d.report_rd pg l a (by
    simp only [sramReg, Bool.and_eq_true, Bool.or_eq_true, decide_eq_true_eq] at ha
    omega)

theorem sramCe (h : SramSame c d) (w u s : Nat) : SramSame c (d.sramCe w u s) := .raise (.wr (.report h) (by decide))

theorem lastUe (h : SramSame c d) (b : Nat) (u : Option (Nat × Nat)) : SramSame c (d.setBank b { d.bank b with lastUe := u }) := by
  refine h.trans ⟨fun _ _ => rfl, rfl, rfl, fun n => ?_⟩
  generalize hs : ({ d.bank b with lastUe := u } : BankSt) = s
  rw [Chip.bank_setBank]
  by_cases hn : n = b
  · rw [if_pos hn, hn, ← hs]
  · rw [if_neg hn]

theorem sramUe (h : SramSame c d) (w u s : Nat) : SramSame c (d.sramUe w u s) := by
  unfold Chip.sramUe
  dsimp only
  split
  · exact h
  · exact .raise (.report (h.lastUe _ _))

theorem sramReadWord (h : SramSame c d) (u w : Nat) : SramSame c (d.sramReadWord u w).2 := by
  unfold Chip.sramReadWord
  dsimp only
  split
  · exact h
  · exact h.sramCe _ _ _
  · exact h
  · exact h.sramUe _ _ _

theorem merge_addr (b : Nat) : sramReg (F.BANK_STATUS_MERGE.pg b).addr = false := by
  have ha : (F.BANK_STATUS_MERGE.pg b).addr = 0x0D0044 + 4096 * b := rfl
  simp only [sramReg, ha, Bool.and_eq_false_iff, Bool.or_eq_false_iff, decide_eq_false_iff_not]
  omega

theorem showMerge (h : SramSame c d) (b : Nat) : SramSame c (d.showMerge b) := h.set (merge_addr b)

theorem bankDeny (h : SramSame c d) (b : Nat) : SramSame c (d.bankDeny b) := by
  refine .raise (h.wr ?_)
  have ha : (F.BANK_DENY_COUNT_COUNT.pg b).addr = 0x0D0058 + 4096 * b := rfl
  simp only [sramReg, ha, Bool.and_eq_false_iff, Bool.or_eq_false_iff, decide_eq_false_iff_not]
  omega

/-! What a block of the same SRAM reads. -/

theorem sramWord (h : SramSame c d) (w : Nat) (hw : w < 524288) : d.sramWord w = c.sramWord w :=
  Chip.sramWord_congr w fun e he => h.rd _ (by
    simp only [sramReg, Bool.and_eq_true, Bool.or_eq_true, decide_eq_true_eq]
    omega)

theorem wild (h : SramSame c d) (b : Nat) : (d.bank b).wild = (c.bank b).wild := by rw [h.bank b]

theorem merge (h : SramSame c d) (b : Nat) : (d.bank b).merge = (c.bank b).merge := by rw [h.bank b]

theorem owner (h : SramSame c d) (b : Nat) : (d.bank b).owner = (c.bank b).owner := by rw [h.bank b]

theorem stalled (h : SramSame c d) (b : Nat) : (d.bank b).stalled = (c.bank b).stalled := by rw [h.bank b]

theorem sramData (h : SramSame c d) (k : Nat) : d.sramData k = c.sramData k := by
  unfold Chip.sramData
  rw [h.wild, h.sram]

theorem sramSyn (h : SramSame c d) (k : Nat) : d.sramSyn k = c.sramSyn k := by
  unfold Chip.sramSyn
  rw [h.wild, h.syn]

theorem flipArmed (h : SramSame c d) (b : Nat) (hb : b < 8) : d.flipArmed (bankPage b) = c.flipArmed (bankPage b) := by
  have ha : (F.FLIP_ARM.pg (bankPage b)).addr = 0x34 + 4096 * (0x0D0 + b) := rfl
  unfold Chip.flipArmed Chip.on
  rw [Chip.get, h.rd _ (by
    simp only [sramReg, ha, Bool.and_eq_true, Bool.or_eq_true, decide_eq_true_eq]
    omega), Chip.get]

end SramSame

/-- A word and its spare lie in one bank. -/
theorem Chip.bankOf_sramWord (c : Chip) (w : Nat) (hw : w < 524288) : bankOf (c.sramWord w) = w / 65536 := by
  unfold Chip.sramWord
  dsimp only
  split
  next e he =>
    have := List.mem_range.1 (List.mem_of_find?_eq_some he)
    rw [bankOf, if_neg (by omega)]
    omega
  · rw [bankOf, if_pos hw]

theorem Chip.sramData_sramPut (c : Chip) (k j : Nat) (d : Word128) (syn : Nat) (hw : (c.bank (bankOf k)).wild = none) :
    (c.sramPut k d syn).sramData j = if j = k then d else c.sramData j := by
  have hmem : memWord 0 (c.sramPut k d syn).mem.sram (16 * j) = if j = k then d else memWord 0 c.mem.sram (16 * j) := memWord_memWrite ..
  have hbank : (c.sramPut k d syn).bank (bankOf j) = c.bank (bankOf j) := rfl
  unfold Chip.sramData
  rw [hbank, hmem]
  by_cases hj : j = k
  · rw [hj, hw, if_pos rfl]
  · rw [if_neg hj, if_neg hj]

theorem Chip.sramSyn_sramPut (c : Chip) (k j : Nat) (d : Word128) (syn : Nat) (hw : (c.bank (bankOf k)).wild = none) :
    (c.sramPut k d syn).sramSyn j = if j = k then syn else c.sramSyn j := by
  have hmem : smGet 0 (c.sramPut k d syn).mem.sramSyn j = if j = k then syn else smGet 0 c.mem.sramSyn j := smGet_smPut ..
  have hbank : (c.sramPut k d syn).bank (bankOf j) = c.bank (bankOf j) := rfl
  unfold Chip.sramSyn
  rw [hbank, hmem]
  by_cases hj : j = k
  · rw [hj, hw, if_pos rfl]
  · rw [if_neg hj, if_neg hj]

/-- With no flip mask armed a store puts the word. -/
theorem Chip.sramStore_plain (c : Chip) (k : Nat) (d : Word128) (syn : Nat) (hf : c.flipArmed (bankPage (bankOf k)) = false) :
    c.sramStore k d syn = c.sramPut k d syn := by
  unfold Chip.sramStore
  dsimp only
  rw [if_neg (by rw [hf]; decide)]

/-! #### Bytes of a word -/

/-- The bytes of a word, joined. -/
theorem word_of_bytes (d : Word128) : BitVec.ofNat 128 (ofLe ((List.range 16).map (fun i => d.extractLsb' (8 * i) 8))) = d := by
  have h : (List.range 16).map (fun i => d.extractLsb' (8 * i) 8) = leBytes 16 d.toNat := by
    refine List.ext_getElem (by simp) fun i h1 h2 => ?_
    have hle : ∀ (n v i : Nat) (h : i < (leBytes n v).length), (leBytes n v)[i] = BitVec.ofNat 8 (v / 256 ^ i) := by
      intro n
      induction n with
      | zero =>
        intro v i h
        exact absurd h (by simp [leBytes])
      | succ n ih =>
        intro v i h
        cases i with
        | zero => simp [leBytes]
        | succ i =>
          simp only [leBytes, List.getElem_cons_succ]
          rw [ih (v / 256) i, Nat.div_div_eq_div_mul, Nat.pow_succ, Nat.mul_comm]
    rw [List.getElem_map, List.getElem_range, hle]
    apply BitVec.eq_of_toNat_eq
    rw [BitVec.extractLsb'_toNat, BitVec.toNat_ofNat, Nat.shiftRight_eq_div_pow, Nat.pow_mul]
  rw [h, ofLe_leBytes]
  apply BitVec.eq_of_toNat_eq
  rw [BitVec.toNat_ofNat]
  have := d.isLt
  norm_num
  omega

theorem testBit_iff_mod (m i : Nat) : m / 2 ^ i % 2 = 1 ↔ m.testBit i = true := by
  rw [Nat.testBit_eq_decide_div_mod_eq, decide_eq_true_eq]

/-- All bytes written are the word written. -/
theorem mergeBytes_all (old new : Word128) : mergeBytes old new 0xFFFF = new := by
  have h : ∀ i ∈ List.range 16, (if 0xFFFF / 2 ^ i % 2 = 1 then new.extractLsb' (8 * i) 8 else old.extractLsb' (8 * i) 8) = new.extractLsb' (8 * i) 8 := fun i hi => by
    have : ∀ i < 16, 0xFFFF / 2 ^ i % 2 = 1 := by decide
    rw [if_pos (this i (List.mem_range.1 hi))]
  unfold mergeBytes
  rw [List.map_congr_left h, word_of_bytes]

/-! ### The SRAM window (R302, R304, R310, R314) -/

/-! #### The lanes of a write -/

/-- Byte `i` of a word built of bytes. -/
theorem extractLsb'_ofLe (l : List Byte) (i : Nat) (hl : l.length = 16) (hi : i < 16) :
    (BitVec.ofNat 128 (ofLe l)).extractLsb' (8 * i) 8 = l.getD i 0 := by
  have h : ∀ (l : List Byte) (i : Nat), i < l.length → ofLe l / 256 ^ i % 256 = (l.getD i 0).toNat := by
    intro l
    induction l with
    | nil => exact fun i hi => absurd hi (Nat.not_lt_zero _)
    | cons b t ih =>
      intro i hi
      have hb := b.isLt
      cases i with
      | zero =>
        simp only [ofLe, Nat.pow_zero, Nat.div_one, List.getD_cons_zero]
        omega
      | succ i =>
        rw [List.getD_cons_succ, ← ih i (by simpa using hi), Nat.pow_succ', ← Nat.div_div_eq_div_mul, ofLe]
        congr 2
        omega
  apply BitVec.eq_of_toNat_eq
  have hlt : ofLe l < 2 ^ 128 := by
    have := ofLe_lt l
    rw [hl] at this
    exact this
  rw [BitVec.extractLsb'_toNat, BitVec.toNat_ofNat, Nat.mod_eq_of_lt hlt, Nat.shiftRight_eq_div_pow, Nat.pow_mul]
  exact h l i (by omega)

/-- The bytes that a write gives of a word. -/
def laneMask (bytes : List (Option Byte)) : Nat :=
  (List.range 16).foldl (fun m i => match bytes.getD i none with | some _ => m + 2 ^ i | none => m) 0

/-- The word that a write gives. -/
def laneData (bytes : List (Option Byte)) : Word128 := BitVec.ofNat 128 (ofLe ((List.range 16).map (fun i => (bytes.getD i none).getD 0)))

theorem laneMask_eq (bytes : List (Option Byte)) : laneMask bytes = bitSum (fun i => (bytes.getD i none).isSome) 16 := by
  unfold laneMask bitSum
  refine List.foldl_ext _ _ 0 fun m i _ => ?_
  dsimp only
  generalize bytes.getD i none = o
  cases o with
  | none => simp
  | some v => simp

theorem laneMask_testBit (bytes : List (Option Byte)) (i : Nat) (hi : i < 16) : (laneMask bytes).testBit i = (bytes.getD i none).isSome := by
  rw [laneMask_eq, bitSum_testBit _ _ _ hi]

theorem laneMask_whole (bytes : List Byte) (hl : bytes.length = 16) : laneMask (bytes.map some) = 0xFFFF := by
  refine Nat.eq_of_testBit_eq fun i => ?_
  by_cases hi : i < 16
  · rw [laneMask_testBit _ _ hi]
    have : ∀ i < 16, Nat.testBit 0xFFFF i = true := by decide
    rw [this i hi]
    simp [hl, hi]
  · have hlt : laneMask (bytes.map some) < 2 ^ i := by
      rw [laneMask_eq]
      exact Nat.lt_of_lt_of_le (bitSum_lt _ 16) (Nat.pow_le_pow_right (by decide) (by omega))
    have h2 : (0xFFFF : Nat) < 2 ^ i := Nat.lt_of_lt_of_le (by decide : (0xFFFF : Nat) < 2 ^ 16) (Nat.pow_le_pow_right (by decide) (by omega))
    rw [Nat.testBit_lt_two_pow hlt, Nat.testBit_lt_two_pow h2]

theorem laneData_whole (bytes : List Byte) (hl : bytes.length = 16) : laneData (bytes.map some) = BitVec.ofNat 128 (ofLe bytes) := by
  have h : (List.range 16).map (fun i => ((bytes.map some).getD i none).getD 0) = bytes := by
    refine List.ext_getElem (by simp [hl]) fun i h1 h2 => ?_
    simp [h2]
  rw [laneData, h]

theorem laneData_byte (bytes : List (Option Byte)) (i : Nat) (hi : i < 16) (v : Byte) (h : bytes.getD i none = some v) :
    (laneData bytes).extractLsb' (8 * i) 8 = v := by
  rw [laneData, extractLsb'_ofLe _ _ (by simp) hi]
  have e : ((List.range 16).map (fun i => (bytes.getD i none).getD 0)).getD i 0 = (bytes.getD i none).getD 0 := by simp [hi]
  rw [e, h]
  rfl

/-! #### What a write of a word does -/

theorem Chip.bankWriteWord_eq (c : Chip) (m w : Nat) (bytes : List (Option Byte)) (path : Option Origin) :
    c.bankWriteWord m w bytes path =
      if m ≠ 0 && c.ownerToBe (w / 65536) m then c.bankStall (w / 65536) { master := m, path := path, offset := 16 * w, bytes := bytes, atomic := none }
      else if !c.ownsBank (w / 65536) m then c.bankDeny (w / 65536)
      else if laneMask bytes = 0 then c
      else if laneMask bytes = 0xFFFF then
        ((c.setBank (w / 65536) { c.bank (w / 65536) with merge := (c.bank (w / 65536)).merge.filter (fun e => e.word ≠ w % 65536) }).sramStore
          (c.sramWord w) (laneData bytes) 0).showMerge (w / 65536)
      else c.mergeWrite (w / 65536) (w % 65536) (laneData bytes) (laneMask bytes) := rfl

theorem Chip.bankWriteWord_stall (c : Chip) (m w : Nat) (bytes : List (Option Byte)) (path : Option Origin) (hm : m ≠ 0) (h : c.ownerToBe (w / 65536) m = true) :
    c.bankWriteWord m w bytes path = c.bankStall (w / 65536) { master := m, path := path, offset := 16 * w, bytes := bytes, atomic := none } := by
  rw [Chip.bankWriteWord_eq, if_pos (by simp [hm, h])]

theorem Chip.bankWriteWord_deny (c : Chip) (m w : Nat) (bytes : List (Option Byte)) (path : Option Origin) (h : c.ownerToBe (w / 65536) m = false)
    (ho : (c.bank (w / 65536)).owner ≠ m) : c.bankWriteWord m w bytes path = c.bankDeny (w / 65536) := by
  rw [Chip.bankWriteWord_eq, if_neg (by simp [h]), if_pos (by simp [Chip.ownsBank, ho])]

theorem Chip.ownerToBe_off (c : Chip) (b m : Nat) (h : c.on (F.BANK_OWNER_HANDOVER.pg b) = false) : c.ownerToBe b m = false := by
  rw [Chip.ownerToBe, h, Bool.false_and]

/-- A write of a whole word by the owner stores it, and drops what is merged of it. -/
theorem Chip.bankWriteWord_whole (c : Chip) (m w : Nat) (bytes : List Byte) (path : Option Origin) (hl : bytes.length = 16) (hm : m ≠ 0)
    (h : c.ownerToBe (w / 65536) m = false) (ho : (c.bank (w / 65536)).owner = m) :
    c.bankWriteWord m w (bytes.map some) path =
      ((c.setBank (w / 65536) { c.bank (w / 65536) with merge := (c.bank (w / 65536)).merge.filter (fun e => e.word ≠ w % 65536) }).sramStore
          (c.sramWord w) (BitVec.ofNat 128 (ofLe bytes)) 0).showMerge (w / 65536) := by
  rw [Chip.bankWriteWord_eq, if_neg (by simp [h]), if_neg (by simp [Chip.ownsBank, ho, hm]), laneMask_whole _ hl, laneData_whole _ hl, if_neg (by decide),
    if_pos rfl]

/-- A write of a part by the owner is merged. -/
theorem Chip.bankWriteWord_part (c : Chip) (m w : Nat) (bytes : List (Option Byte)) (path : Option Origin) (hm : m ≠ 0)
    (h : c.ownerToBe (w / 65536) m = false) (ho : (c.bank (w / 65536)).owner = m) (hl : bytes.length = 16) (hs : ∃ x ∈ bytes, x.isSome = true)
    (hn : ∃ x ∈ bytes, x.isSome = false) : c.bankWriteWord m w bytes path = c.mergeWrite (w / 65536) (w % 65536) (laneData bytes) (laneMask bytes) := by
  have hbit : ∀ x ∈ bytes, ∃ i < 16, (laneMask bytes).testBit i = x.isSome := fun x hx => by
    obtain ⟨i, hi, rfl⟩ := List.mem_iff_getElem.1 hx
    exact ⟨i, by omega, by rw [laneMask_testBit _ _ (by omega)]; simp [hi]⟩
  have h0 : laneMask bytes ≠ 0 := fun e => by
    obtain ⟨x, hx, hxs⟩ := hs
    obtain ⟨i, -, hb⟩ := hbit x hx
    rw [e, Nat.zero_testBit, hxs] at hb
    exact absurd hb (by decide)
  have h1 : laneMask bytes ≠ 0xFFFF := fun e => by
    obtain ⟨x, hx, hxn⟩ := hn
    obtain ⟨i, hi, hb⟩ := hbit x hx
    have : ∀ i < 16, Nat.testBit 0xFFFF i = true := by decide
    rw [e, this i hi, hxn] at hb
    exact absurd hb (by decide)
  rw [Chip.bankWriteWord_eq, if_neg (by simp [h]), if_neg (by simp [Chip.ownsBank, ho, hm]), if_neg h0, if_neg h1]

/-- The first part of a word to be merged in a bank. -/
theorem Chip.mergeWrite_first (c : Chip) (b word : Nat) (d : Word128) (mask : Nat) (h : (c.bank b).merge = []) :
    c.mergeWrite b word d mask = (c.setBank b { c.bank b with merge := [{ word := word, data := d, mask := mask }] }).showMerge b := by
  unfold Chip.mergeWrite
  simp [h]

/-! #### Merged parts retired -/

/-- The value of a checked read, and whether it is poisoned. -/
def readValue (d : Word128) : EccRead → Word128 × Bool
  | .clean => (d, false)
  | .corrected d' _ => (d', false)
  | .poison => (d, true)
  | .uncorrectable _ => (d, true)

theorem Chip.sramReadWord_val (c : Chip) (u w : Nat) :
    (c.sramReadWord u w).1 = readValue (c.sramData (c.sramWord w)) (eccBySyndrome (c.sramData (c.sramWord w)) (c.sramSyn (c.sramWord w))) := by
  unfold Chip.sramReadWord
  dsimp only
  cases eccBySyndrome (c.sramData (c.sramWord w)) (c.sramSyn (c.sramWord w)) <;> rfl

/-- The merged word that a retirement stores, by what the word reads as. -/
theorem Chip.retireEntry_eq (c : Chip) (b : Nat) (e : MergeEntry) : ∃ x d syn, SramSame c x ∧ c.retireEntry b e = x.sramStore (c.sramWord (b * 65536 + e.word)) d syn ∧
    match eccBySyndrome (c.sramData (c.sramWord (b * 65536 + e.word))) (c.sramSyn (c.sramWord (b * 65536 + e.word))) with
    | .clean => d = mergeBytes (c.sramData (c.sramWord (b * 65536 + e.word))) e.data e.mask ∧ syn = 0
    | .corrected d' _ => d = mergeBytes d' e.data e.mask ∧ syn = 0
    | _ => syn = if e.mask = 0xFFFF then 0 else 0x1FF := by
  unfold Chip.retireEntry
  dsimp only
  by_cases hm : e.mask = 0xFFFF
  · rw [if_pos hm]
    refine ⟨c, e.data, 0, .refl, rfl, ?_⟩
    rw [hm, if_pos rfl]
    split
    · exact ⟨(mergeBytes_all _ _).symm, rfl⟩
    · exact ⟨(mergeBytes_all _ _).symm, rfl⟩
    · rfl
  · rw [if_neg hm, if_neg hm]
    refine ⟨(c.sramReadWord mOwner (b * 65536 + e.word)).2, _, _, .sramReadWord .refl _ _, rfl, ?_⟩
    rw [Chip.sramReadWord_val]
    cases eccBySyndrome (c.sramData (c.sramWord (b * 65536 + e.word))) (c.sramSyn (c.sramWord (b * 65536 + e.word))) with
    | clean => exact ⟨rfl, rfl⟩
    | corrected d' j => exact ⟨rfl, rfl⟩
    | poison => rfl
    | uncorrectable j => rfl

/-- What a bank holds beside its words does not change what they read as. -/
theorem Chip.setBank_words (c : Chip) (b : Nat) (s : BankSt) (h : s.wild = (c.bank b).wild) :
    (∀ n, ((c.setBank b s).bank n).wild = (c.bank n).wild) ∧ (∀ k, (c.setBank b s).sramData k = c.sramData k) ∧
      ∀ k, (c.setBank b s).sramSyn k = c.sramSyn k := by
  have hwild : ∀ n, ((c.setBank b s).bank n).wild = (c.bank n).wild := fun n => by
    rw [Chip.bank_setBank]
    by_cases hn : n = b
    · rw [if_pos hn, hn, h]
    · rw [if_neg hn]
  refine ⟨hwild, fun k => ?_, fun k => ?_⟩
  · unfold Chip.sramData
    rw [hwild]
    rfl
  · unfold Chip.sramSyn
    rw [hwild]
    rfl

/-- The word of a part that is retired while the rest of the merge buffer is `l`. -/
theorem Chip.retired_spec (c : Chip) (b : Nat) (e : MergeEntry) (l : List MergeEntry) (hb : b < 8) (he : e.word < 65536) (hw : (c.bank b).wild = none)
    (hl : l.length < 16)
    (hf : c.flipArmed (bankPage (bankOf (c.sramWord (b * 65536 + e.word)))) = false) :
    let k := c.sramWord (b * 65536 + e.word)
    let t := ((c.setBank b { c.bank b with merge := l }).retireEntry b e).showMerge b
    (t.bank b).merge = l ∧ t.get (F.BANK_STATUS_MERGE.pg b) = l.length ∧ t.sramWord (b * 65536 + e.word) = k ∧
      (t.bank b).wild = none ∧ t.flipArmed (bankPage (bankOf k)) = false ∧
      match eccBySyndrome (c.sramData k) (c.sramSyn k) with
      | .clean => t.sramData k = mergeBytes (c.sramData k) e.data e.mask ∧ t.sramSyn k = 0
      | .corrected d _ => t.sramData k = mergeBytes d e.data e.mask ∧ t.sramSyn k = 0
      | _ => t.sramSyn k = if e.mask = 0xFFFF then 0 else 0x1FF := by
  have hs : (c.setBank b { c.bank b with merge := l }).bank b = { c.bank b with merge := l } := Chip.bank_setBank_same _ _ _
  obtain ⟨hwild, hd, hy⟩ := c.setBank_words b { c.bank b with merge := l } rfl
  have hk : (c.setBank b { c.bank b with merge := l }).sramWord (b * 65536 + e.word) = c.sramWord (b * 65536 + e.word) := rfl
  have hf' : (c.setBank b { c.bank b with merge := l }).flipArmed (bankPage (bankOf (c.sramWord (b * 65536 + e.word)))) = false := hf
  have hbk : bankOf (c.sramWord (b * 65536 + e.word)) = b := by
    rw [Chip.bankOf_sramWord _ _ (by omega)]
    omega
  generalize c.setBank b { c.bank b with merge := l } = y at hs hwild hd hy hk hf' ⊢
  obtain ⟨x, d, syn, hx, hret, hcase⟩ := y.retireEntry_eq b e
  rw [hk, hd, hy] at hcase
  rw [hk] at hret
  dsimp only
  generalize c.sramWord (b * 65536 + e.word) = k at *
  rw [hbk] at hf'
  have hxf : x.flipArmed (bankPage (bankOf k)) = false := by rw [hbk, hx.flipArmed b hb, hf']
  have hxw : (x.bank (bankOf k)).wild = none := by rw [hx.wild, hwild, hbk, hw]
  rw [hret, Chip.sramStore_plain _ _ _ _ hxf]
  have hp : SramSame (x.sramPut k d syn) ((x.sramPut k d syn).showMerge b) := .showMerge .refl b
  have hdata : ((x.sramPut k d syn).showMerge b).sramData k = d := by rw [hp.sramData, Chip.sramData_sramPut _ _ _ _ _ hxw, if_pos rfl]
  have hsyn : ((x.sramPut k d syn).showMerge b).sramSyn k = syn := by rw [hp.sramSyn, Chip.sramSyn_sramPut _ _ _ _ _ hxw, if_pos rfl]
  have hmerge : ((x.sramPut k d syn).bank b).merge = l := by
    show (x.bank b).merge = l
    rw [hx.merge, hs]
  have hword : (x.sramPut k d syn).sramWord (b * 65536 + e.word) = k := by
    show x.sramWord (b * 65536 + e.word) = k
    rw [hx.sramWord _ (by omega), hk]
  have hfl : (x.sramPut k d syn).flipArmed (bankPage (bankOf k)) = false := hxf
  refine ⟨(hp.merge b).trans hmerge, ?_, ?_, ?_, ?_, ?_⟩
  · unfold Chip.showMerge
    rw [Chip.get_set_pg _ _ _ _ (by decide) (by decide), hmerge]
    exact Nat.mod_eq_of_lt hl
  · rw [hp.sramWord _ (by omega), hword]
  · rw [hp.wild]
    exact hbk ▸ hxw
  · rw [hbk] at hfl ⊢
    rw [hp.flipArmed b hb, hfl]
  · rw [hdata, hsyn]
    exact hcase

theorem Chip.retireWord_none (c : Chip) (b word : Nat) (h : (c.bank b).merge = []) : c.retireWord b word = c := by
  unfold Chip.retireWord
  dsimp only
  rw [h]
  rfl

theorem Chip.retireWord_only (c : Chip) (b word : Nat) (e : MergeEntry) (h : (c.bank b).merge = [e]) (he : e.word = word) :
    c.retireWord b word = ((c.setBank b { c.bank b with merge := [] }).retireEntry b e).showMerge b := by
  unfold Chip.retireWord
  simp [h, he]

/-! #### Words read through the window -/

theorem Chip.sramReadWord_clean (c : Chip) (u w : Nat) (h : c.sramSyn (c.sramWord w) = 0) : c.sramReadWord u w = ((c.sramData (c.sramWord w), false), c) := by
  unfold Chip.sramReadWord
  simp [h, eccBySyndrome]

theorem Chip.sramReadWord_poison (c : Chip) (u w : Nat) (h : c.sramSyn (c.sramWord w) = 0x1FF) : c.sramReadWord u w = ((c.sramData (c.sramWord w), true), c) := by
  unfold Chip.sramReadWord
  simp [h, eccBySyndrome]

theorem Chip.bankReadWord_host (c : Chip) (w : Nat) : c.bankReadWord 1 mHost w = (c.retireWord (w / 65536) (w % 65536)).sramReadWord mHost w := by
  unfold Chip.bankReadWord
  dsimp only
  rw [if_pos (by simp)]

/-- A read of one whole word through the window. -/
theorem Chip.windowRead_word (c : Chip) (w : Nat) (hw : w < 524288) (r : (Word128 × Bool) × Chip)
    (hr : (c.retireWord (w / 65536) (w % 65536)).sramReadWord mHost w = r) : c.windowRead (16 * w) 16 = ((leBytes 16 r.1.1.toNat, r.1.2), r.2) := by
  have h16 : 16 * w / 16 = w := by omega
  unfold Chip.windowRead
  dsimp only
  rw [wordLanes_word _ _ (by omega) List.length_replicate, h16, List.map_cons, List.map_nil, List.foldl_cons, List.foldl_nil, if_neg (by omega),
    Chip.bankReadWord_host, hr, show 16 * w % 16 = 0 by omega, slice, List.drop_zero, List.nil_append, List.take_of_length_le (by rw [leBytes_length]), Bool.false_or]

theorem Chip.windowWrite_word (c : Chip) (w : Nat) (bytes : List (Option Byte)) (path : Option Origin) (hw : w < 524288) (hl : bytes.length = 16) :
    c.windowWrite (16 * w) bytes path = c.bankWriteWord 1 w bytes path := by
  have h16 : 16 * w / 16 = w := by omega
  unfold Chip.windowWrite
  rw [wordLanes_word _ _ (by omega) hl, h16, List.foldl_cons, List.foldl_nil, if_neg (by omega)]

theorem Chip.deliver_window (c : Chip) (o : Origin) (a v : Nat) (h : 0x800000 ≤ a) :
    c.deliver o a v false = { c with out := c.out ++ [.readData o a v] } := by
  have h1 : ¬ a < 0x400000 := by omega
  have h2 : ¬ a < 0x800000 := by omega
  simp [Chip.deliver, h1, h2, Chip.emit, Output.scanned]

theorem ecc_hasPage (c : Chip) : c.hasPage E.BANK_DENY.page = true := by unfold Chip.hasPage; cases c.build <;> decide +kernel

theorem Chip.bankDeny_spec (c : Chip) (b : Nat) : (c.bankDeny b).mem = c.mem ∧ (c.bankDeny b).pend E.BANK_DENY = true :=
  ⟨(Chip.quiet_raise (c.bumpSat (F.BANK_DENY_COUNT_COUNT.pg b)) E.BANK_DENY).mem, Chip.raise_pend _ _ (ecc_hasPage _) (by decide)⟩

/-- What a whole word stored leaves: the word clean, every other as it was. -/
theorem Chip.stored_spec (c : Chip) (w : Nat) (l : List MergeEntry) (d : Word128) (hw : w < 524288) (hwild : (c.bank (w / 65536)).wild = none)
    (hf : c.flipArmed (bankPage (bankOf (c.sramWord w))) = false) :
    let k := c.sramWord w
    let t := ((c.setBank (w / 65536) { c.bank (w / 65536) with merge := l }).sramStore k d 0).showMerge (w / 65536)
    t.sramData k = d ∧ t.sramSyn k = 0 ∧ t.sramWord w = k ∧ (∀ j, j ≠ k → t.sramData j = c.sramData j ∧ t.sramSyn j = c.sramSyn j) ∧
      t.mem.belfry = c.mem.belfry ∧ t.mem.dram = c.mem.dram := by
  obtain ⟨h1, h2, h3⟩ := c.setBank_words (w / 65536) { c.bank (w / 65536) with merge := l } rfl
  have hx : (c.setBank (w / 65536) { c.bank (w / 65536) with merge := l }).sramWord w = c.sramWord w ∧
      (c.setBank (w / 65536) { c.bank (w / 65536) with merge := l }).flipArmed (bankPage (bankOf (c.sramWord w))) = false ∧
      (c.setBank (w / 65536) { c.bank (w / 65536) with merge := l }).mem.belfry = c.mem.belfry ∧
      (c.setBank (w / 65536) { c.bank (w / 65536) with merge := l }).mem.dram = c.mem.dram := ⟨rfl, hf, rfl, rfl⟩
  have hbk := c.bankOf_sramWord w hw
  generalize c.setBank (w / 65536) { c.bank (w / 65536) with merge := l } = x at h1 h2 h3 hx ⊢
  obtain ⟨hk, hxf, hbel, hdr⟩ := hx
  have hxw : (x.bank (bankOf (c.sramWord w))).wild = none := by rw [h1, hbk, hwild]
  dsimp only
  generalize c.sramWord w = k at *
  rw [Chip.sramStore_plain _ _ _ _ hxf]
  have hp : SramSame (x.sramPut k d 0) ((x.sramPut k d 0).showMerge (w / 65536)) := .showMerge .refl _
  have hword : (x.sramPut k d 0).sramWord w = k := hk
  have hmem : ((x.sramPut k d 0).showMerge (w / 65536)).mem.belfry = x.mem.belfry ∧ ((x.sramPut k d 0).showMerge (w / 65536)).mem.dram = x.mem.dram := ⟨rfl, rfl⟩
  refine ⟨?_, ?_, ?_, fun j hj => ⟨?_, ?_⟩, hmem.1.trans hbel, hmem.2.trans hdr⟩
  · rw [hp.sramData, Chip.sramData_sramPut _ _ _ _ _ hxw, if_pos rfl]
  · rw [hp.sramSyn, Chip.sramSyn_sramPut _ _ _ _ _ hxw, if_pos rfl]
  · rw [hp.sramWord _ hw, hword]
  · rw [hp.sramData, Chip.sramData_sramPut _ _ _ _ _ hxw, if_neg hj, h2]
  · rw [hp.sramSyn, Chip.sramSyn_sramPut _ _ _ _ _ hxw, if_neg hj, h3]

/-- The first part merged in a bank. -/
theorem Chip.mergedFirst_spec (c : Chip) (b word : Nat) (d : Word128) (mask : Nat) :
    let t := (c.setBank b { c.bank b with merge := [{ word := word, data := d, mask := mask }] }).showMerge b
    t.mem.sram = c.mem.sram ∧ t.mem.sramSyn = c.mem.sramSyn ∧ t.get (F.BANK_STATUS_MERGE.pg b) = 1 ∧
      (t.bank b).merge = [{ word := word, data := d, mask := mask }] := by
  have h : ((c.setBank b { c.bank b with merge := [{ word := word, data := d, mask := mask }] }).bank b).merge = [{ word := word, data := d, mask := mask }] := by
    rw [Chip.bank_setBank_same]
  have hm : (c.setBank b { c.bank b with merge := [{ word := word, data := d, mask := mask }] }).mem.sram = c.mem.sram ∧
      (c.setBank b { c.bank b with merge := [{ word := word, data := d, mask := mask }] }).mem.sramSyn = c.mem.sramSyn := ⟨rfl, rfl⟩
  generalize c.setBank b { c.bank b with merge := [{ word := word, data := d, mask := mask }] } = x at h hm ⊢
  have hp : SramSame x (x.showMerge b) := .showMerge .refl b
  refine ⟨hm.1, hm.2, ?_, (hp.merge b).trans h⟩
  unfold Chip.showMerge
  rw [Chip.get_set_pg _ _ _ _ (by decide) (by decide), h]
  rfl

section
variable {s : State} {P : Chip → Prop}

/-- A write of one word through the window, where nothing waits before it. -/
theorem Completes.windowWrite (w : Nat) (bytes : List (Option Byte)) (hs : Runs s) (hw : w < 524288) (hl : bytes.length = 16)
    (hfill : s.chip.on F.ECC_STATUS_SRAM_FILLED = true) (hopen : s.chip.pathsOpen = true) (hp : P (s.chip.bankWriteWord 1 w bytes (some .usb4))) :
    Completes (.sramWindowWrite (16 * w) bytes) s P := by
  refine .live (fun c => c.sramWrite (16 * w) bytes) rfl hs ?_
  unfold Chip.sramWrite
  rw [if_neg (by rw [Chip.mustWait_false hopen _ (Or.inr hfill)]; decide), Chip.windowWrite_word _ _ _ _ hw hl]
  exact hp

/-- A read of one word through the window, where nothing waits before it. -/
theorem Completes.windowRead (o : Origin) (w : Nat) (hs : Runs s) (hw : w < 524288) (hfill : s.chip.on F.ECC_STATUS_SRAM_FILLED = true)
    (hopen : s.chip.pathsOpen = true) (r : (Word128 × Bool) × Chip) (hr : (s.chip.retireWord (w / 65536) (w % 65536)).sramReadWord mHost w = r)
    (hp : P (r.2.deliver o (0x800000 + 16 * w) (ofLe (leBytes 16 r.1.1.toNat)) r.1.2)) :
    Completes (.sramWindowRead o (16 * w) 16) s P := by
  refine .serveFor o _ rfl hs ?_
  unfold Chip.sramRead
  rw [if_neg (by rw [Chip.mustWait_false hopen _ (Or.inr hfill)]; decide)]
  unfold Chip.windowSend
  dsimp only
  rw [Chip.windowRead_word _ _ hw _ hr]
  exact hp

end

theorem Chip.deliver_poison (c : Chip) (a v : Nat) (h : 0x800000 ≤ a) : c.deliver .usb4 a v true = { c with out := c.out ++ [.readPoison .usb4 a v] } := by
  have h1 : ¬ a < 0x400000 := by omega
  have h2 : ¬ a < 0x800000 := by omega
  simp [Chip.deliver, h1, h2, Chip.emit, Output.scanned]

theorem Chip.deliver_busError (c : Chip) (a v : Nat) (h : 0x800000 ≤ a) :
    let t := c.deliver .belfry a v true
    t.pend E.BELFRY_BUS_ERR = true ∧ .readData .belfry a v ∈ t.out ∧ t.mem = c.mem := by
  have e : c.deliver .belfry a v true = { c.raise E.BELFRY_BUS_ERR with out := (c.raise E.BELFRY_BUS_ERR).out ++ [.readData .belfry a v] } := by
    simp [Chip.deliver, Chip.emit, Output.scanned]
  dsimp only
  rw [e]
  exact ⟨Chip.raise_pend c _ (belfry_hasPage c) (by decide), List.mem_append_right _ (List.mem_singleton_self _), (Chip.quiet_raise c _).mem⟩

/-- Settles O46: a word is one lane of the window; its write is stored, denied, stalled or merged, and its read retires what is merged of it first. -/
theorem sramWindow : Obligations.SramWindow := by
  unfold Obligations.SramWindow
  intro s w hs hw hfill hopen hwild
  dsimp only
  have hword : w / 65536 * 65536 + w % 65536 = w := by omega
  refine ⟨fun bytes hl => ⟨fun hh ho hf => ?_, fun hh ho => ?_, fun ht => ?_⟩, fun bytes hl hsome hnone hh ho hm => ?_, fun o hsyn => ⟨fun hm => ?_, fun e he hew hf => ?_⟩,
    fun hm hsyn => ⟨?_, ?_⟩⟩
  · refine .windowWrite w _ hs hw (by rw [List.length_map, hl]) hfill hopen ?_
    rw [Chip.bankWriteWord_whole _ _ _ _ _ hl (by decide) (Chip.ownerToBe_off _ _ _ hh) ho]
    exact s.chip.stored_spec w _ _ hw hwild hf
  · refine .windowWrite w _ hs hw (by rw [List.length_map, hl]) hfill hopen ?_
    rw [Chip.bankWriteWord_deny _ _ _ _ _ (Chip.ownerToBe_off _ _ _ hh) ho]
    exact s.chip.bankDeny_spec _
  · refine .windowWrite w _ hs hw (by rw [List.length_map, hl]) hfill hopen ?_
    rw [Chip.bankWriteWord_stall _ _ _ _ _ (by decide) ht]
    exact ⟨rfl, congrArg BankSt.stalled (Chip.bank_setBank_same _ _ _)⟩
  · refine .windowWrite w _ hs hw hl hfill hopen ?_
    rw [Chip.bankWriteWord_part _ _ _ _ _ (by decide) (Chip.ownerToBe_off _ _ _ hh) ho hl hsome hnone, Chip.mergeWrite_first _ _ _ _ _ hm]
    obtain ⟨h1, h2, h3, h4⟩ := s.chip.mergedFirst_spec (w / 65536) (w % 65536) (laneData bytes) (laneMask bytes)
    exact ⟨h1, h2, h3, _, h4, rfl, fun i hi => ⟨laneMask_testBit _ _ hi, fun v hv => laneData_byte _ _ hi _ hv⟩⟩
  · refine .windowRead o w hs hw hfill hopen ((s.chip.sramData (s.chip.sramWord w), false), s.chip) ?_ (Chip.deliver_window _ _ _ _ (by omega))
    rw [Chip.retireWord_none _ _ _ hm, Chip.sramReadWord_clean _ _ _ hsyn]
  · obtain ⟨r1, -, r3, r4, -, r6⟩ := s.chip.retired_spec (w / 65536) e [] (by omega) (by omega) hwild (by decide) (by rw [hew, hword]; exact hf)
    rw [hew, hword] at r3 r6
    rw [hsyn, show eccBySyndrome (s.chip.sramData (s.chip.sramWord w)) 0 = .clean from rfl] at r6
    obtain ⟨r6, r7⟩ := r6
    have hr := s.chip.retireWord_only (w / 65536) (w % 65536) e he hew
    generalize ((s.chip.setBank (w / 65536) { s.chip.bank (w / 65536) with merge := [] }).retireEntry (w / 65536) e).showMerge (w / 65536) = t at *
    refine .windowRead o w hs hw hfill hopen ((t.sramData (s.chip.sramWord w), false), t) ?_ ?_
    · rw [hr, Chip.sramReadWord_clean _ _ _ (by rw [r3]; exact r7), r3]
    · rw [Chip.deliver_window _ _ _ _ (by omega)]
      dsimp only
      rw [r6]
      exact ⟨r1, r6, r7, List.mem_append_right _ (List.mem_singleton_self _)⟩
  · refine .windowRead _ w hs hw hfill hopen ((s.chip.sramData (s.chip.sramWord w), true), s.chip) ?_ (Chip.deliver_poison _ _ _ (by omega))
    rw [Chip.retireWord_none _ _ _ hm, Chip.sramReadWord_poison _ _ _ hsyn]
  · refine .windowRead _ w hs hw hfill hopen ((s.chip.sramData (s.chip.sramWord w), true), s.chip) ?_ (Chip.deliver_busError _ _ _ (by omega))
    rw [Chip.retireWord_none _ _ _ hm, Chip.sramReadWord_poison _ _ _ hsyn]

end Sys2Proof.Machine
end

