-- ==== Sys2Proof/Proofs/BankOwnership.lean ====
section
-- One proof at a time: proofs that wait for the kernel side by side hold more memory than the check allows.
set_option Elab.async false
/-! PROOF. Owners of banks, handovers, atomics and retirements (R304 to R310). -/

namespace Sys2Proof.Machine

/-! ### Ownership (R304 to R310) -/

/-- The owner registers of the banks. -/
def ownReg (a : Nat) : Bool := decide (0x0D0 ≤ a / 4096) && decide (a / 4096 < 0x0D8) && decide (a % 4096 = 0x40)

theorem ownReg_sram {a : Nat} (h : ownReg a = true) : sramReg a = true := by
  simp only [ownReg, sramReg, Bool.and_eq_true, Bool.or_eq_true, decide_eq_true_eq] at *
  omega

/-- The owner registers and what the banks hold stay, but for the last error of each. -/
structure BankKept (c d : Chip) : Prop where
  rd : ∀ a, ownReg a = true → d.rd a = c.rd a
  bank : ∀ b, d.bank b = { c.bank b with lastUe := (d.bank b).lastUe }

theorem SramSame.kept {c d : Chip} (h : SramSame c d) : BankKept c d := ⟨fun a ha => h.rd a (ownReg_sram ha), h.bank⟩

namespace BankKept
variable {c d e : Chip}

theorem refl : BankKept c c := ⟨fun _ _ => rfl, fun _ => rfl⟩

theorem trans (h : BankKept c d) (k : BankKept d e) : BankKept c e := ⟨fun a ha => (k.rd a ha).trans (h.rd a ha), fun b => by rw [k.bank b, h.bank b]⟩

theorem foldl {β : Type} {f : Chip → β → Chip} {l : List β} (h : BankKept c d) (hf : ∀ x b, b ∈ l → BankKept x (f x b)) : BankKept c (l.foldl f d) :=
  h.trans (foldl_rel BankKept (fun _ => refl) trans id f l (fun x b hb => hf x b hb) d)

/-- A register that is no owner register. -/
theorem set (h : BankKept c d) {f : Fld} {v : Nat} (ha : ownReg f.addr = false) : BankKept c (d.set f v) :=
  h.trans ⟨fun b hb => by
    rw [Chip.rd_set_ne]
    rintro rfl
    exact absurd (hb.symm.trans ha) (by decide), fun _ => rfl⟩

theorem sramStore (h : BankKept c d) (k : Nat) (w : Word128) (s : Nat) : BankKept c (d.sramStore k w s) := by
  have ha : (F.FLIP_ARM.pg (bankPage (bankOf k))).addr = 0x34 + 4096 * bankPage (bankOf k) := rfl
  have hno : ownReg (F.FLIP_ARM.pg (bankPage (bankOf k))).addr = false := by
    simp only [ownReg, ha, Bool.and_eq_false_iff, decide_eq_false_iff_not]
    omega
  have hput : ∀ (x : Chip) (w : Word128) (s : Nat), BankKept x (x.sramPut k w s) := fun x w s => ⟨fun _ _ => rfl, fun _ => rfl⟩
  unfold Chip.sramStore
  dsimp only
  split
  · exact (h.set hno).trans (hput _ _ _)
  · exact h.trans (hput _ _ _)

theorem retireEntry (h : BankKept c d) (b : Nat) (e : MergeEntry) : BankKept c (d.retireEntry b e) := by
  obtain ⟨x, w, s, hx, he, -⟩ := d.retireEntry_eq b e
  rw [he]
  exact (h.trans hx.kept).sramStore _ _ _

theorem showMerge (h : BankKept c d) (b : Nat) : BankKept c (d.showMerge b) := h.trans (SramSame.showMerge .refl b).kept

theorem merge (h : BankKept c d) (b : Nat) : (d.bank b).merge = (c.bank b).merge := by rw [h.bank b]

theorem owner (h : BankKept c d) (b : Nat) : (d.bank b).owner = (c.bank b).owner := by rw [h.bank b]

theorem stalled (h : BankKept c d) (b : Nat) : (d.bank b).stalled = (c.bank b).stalled := by rw [h.bank b]

end BankKept

/-- A checked read records an error in the bank of its word alone. -/
theorem Chip.sramReadWord_bank (c : Chip) (u w n : Nat) (hn : n ≠ w / 65536) : (c.sramReadWord u w).2.bank n = c.bank n := by
  unfold Chip.sramReadWord
  dsimp only
  split
  · rfl
  · have : (c.sramCe w u (c.sramSyn (c.sramWord w))).mem = c.mem := by
      unfold Chip.sramCe
      exact (Chip.quiet_raise _ _).mem.trans ((Chip.quiet_report c _ _).mem)
    rw [Chip.bank, this, ← Chip.bank]
  · rfl
  · unfold Chip.sramUe
    dsimp only
    split
    · rfl
    · have hm : ∀ (x : Chip) pg l e, ((x.report pg l).raise e).mem = x.mem := fun x pg l e => (Chip.quiet_raise _ _).mem.trans (Chip.quiet_report x _ _).mem
      rw [Chip.bank, hm, ← Chip.bank, Chip.bank_setBank, if_neg hn]

theorem Chip.sramStore_bank (c : Chip) (k : Nat) (w : Word128) (s n : Nat) : (c.sramStore k w s).bank n = c.bank n := by
  unfold Chip.sramStore
  dsimp only
  split <;> rfl

theorem Chip.retireEntry_bank (c : Chip) (b : Nat) (e : MergeEntry) (he : e.word < 65536) (n : Nat) (hn : n ≠ b) : (c.retireEntry b e).bank n = c.bank n := by
  unfold Chip.retireEntry
  dsimp only
  split
  · exact c.sramStore_bank _ _ _ _
  · rw [Chip.sramStore_bank, Chip.sramReadWord_bank _ _ _ _ (by omega)]

theorem Chip.retireAll_spec (c : Chip) (b : Nat) :
    (∀ a, ownReg a = true → (c.retireAll b).rd a = c.rd a) ∧ ((c.retireAll b).bank b).merge = [] ∧ (∀ n, ((c.retireAll b).bank n).stalled = (c.bank n).stalled) ∧
      ((∀ e ∈ (c.bank b).merge, e.word < 65536) → ∀ n, n ≠ b → (c.retireAll b).bank n = c.bank n) := by
  unfold Chip.retireAll
  have hs : (c.setBank b { c.bank b with merge := [] }).bank b = { c.bank b with merge := [] } := Chip.bank_setBank_same _ _ _
  have hn : ∀ n, n ≠ b → (c.setBank b { c.bank b with merge := [] }).bank n = c.bank n := fun n h => by rw [Chip.bank_setBank, if_neg h]
  have hr : ∀ a, (c.setBank b { c.bank b with merge := [] }).rd a = c.rd a := fun _ => rfl
  dsimp only
  generalize c.setBank b { c.bank b with merge := [] } = x at hs hn hr ⊢
  have hk : BankKept x (((c.bank b).merge.foldl (fun c e => c.retireEntry b e) x).showMerge b) := .showMerge (.foldl .refl fun y e _ => .retireEntry .refl b e) b
  refine ⟨fun a ha => (hk.rd a ha).trans (hr a), ?_, fun n => ?_, fun hw n hnb => ?_⟩
  · rw [hk.merge, hs]
  · rw [hk.stalled]
    by_cases h : n = b
    · rw [h, hs]
    · rw [hn n h]
  · have hf : ∀ (l : List MergeEntry) (y : Chip), (∀ e ∈ l, e.word < 65536) → (l.foldl (fun c e => c.retireEntry b e) y).bank n = y.bank n := by
      intro l
      induction l with
      | nil => exact fun _ _ => rfl
      | cons e l ih =>
        intro y hy
        rw [List.foldl_cons, ih _ fun e' he' => hy e' (List.mem_cons_of_mem _ he'), y.retireEntry_bank b e (hy e List.mem_cons_self) n hnb]
    have hsm : ∀ y : Chip, (y.showMerge b).bank n = y.bank n := fun _ => rfl
    rw [hsm, hf _ _ hw, hn n hnb]

theorem Chip.ownerErrors_eq (c : Chip) (b old new : Nat) : ∃ m, c.ownerErrors b old new = { c with mem := { c.mem with upset := m } } := by
  unfold Chip.ownerErrors
  by_cases h : old = new
  · rw [if_pos h]
    exact ⟨c.mem.upset, rfl⟩
  · rw [if_neg h]
    exact ⟨_, rfl⟩

theorem Chip.ownerErrors_bank (c : Chip) (b old new : Nat) : (c.ownerErrors b old new).regs = c.regs ∧ ∀ n, (c.ownerErrors b old new).bank n = c.bank n := by
  obtain ⟨m, e⟩ := c.ownerErrors_eq b old new
  rw [e]
  exact ⟨rfl, fun _ => rfl⟩

theorem ownReg_owner (b : Nat) (hb : b < 8) : ownReg (F.BANK_OWNER_OWNER.pg b).addr = true := by
  have ha : (F.BANK_OWNER_OWNER.pg b).addr = 0x0D0040 + 4096 * b := rfl
  simp only [ownReg, ha, Bool.and_eq_true, decide_eq_true_eq]
  omega

/-- A bank that has lost its owner. -/
def Chip.disown (c : Chip) (b : Nat) : Chip := c.setBank b { c.bank b with owner := 0 }

theorem Chip.disown_bank (c : Chip) (b : Nat) :
    ((c.disown b).bank b).owner = 0 ∧ ((c.disown b).bank b).merge = (c.bank b).merge ∧ (∀ n, ((c.disown b).bank n).stalled = (c.bank n).stalled) ∧
      ∀ n, n ≠ b → (c.disown b).bank n = c.bank n := by
  have h : (c.disown b).bank b = { c.bank b with owner := 0 } := Chip.bank_setBank_same _ _ _
  have hn : ∀ n, n ≠ b → (c.disown b).bank n = c.bank n := fun n hn => by rw [Chip.disown, Chip.bank_setBank, if_neg hn]
  refine ⟨by rw [h], by rw [h], fun n => ?_, hn⟩
  by_cases e : n = b
  · rw [e, h]
  · rw [hn n e]

theorem Chip.ownerWrite_eq (c : Chip) (b v : Nat) : c.ownerWrite b v =
    ((((c.ownerErrors b (c.bank b).owner (c.ownerCode v)).set (F.BANK_OWNER_OWNER.pg b) v).retireAll b).disown b).set (F.BANK_OWNER_HANDOVER.pg b) 1 := rfl

theorem Chip.handoverOn_spec (c : Chip) (b : Nat) :
    (∀ n, (c.set (F.BANK_OWNER_HANDOVER.pg b) 1).bank n = c.bank n) ∧ (c.set (F.BANK_OWNER_HANDOVER.pg b) 1).get (F.BANK_OWNER_HANDOVER.pg b) = 1 ∧
      (c.set (F.BANK_OWNER_HANDOVER.pg b) 1).get (F.BANK_OWNER_OWNER.pg b) = c.get (F.BANK_OWNER_OWNER.pg b) :=
  ⟨fun _ => rfl, Chip.get_set_pg _ F.BANK_OWNER_HANDOVER b 1 (by decide) (by decide), Chip.get_set_pg_apart c F.BANK_OWNER_HANDOVER F.BANK_OWNER_OWNER b 1⟩

theorem Chip.ownerWrite_spec (c : Chip) (b v : Nat) (hb : b < 8) (hv : v < 8) (hm : ∀ e ∈ (c.bank b).merge, e.word < 65536) :
    let t := c.ownerWrite b v
    t.get (F.BANK_OWNER_OWNER.pg b) = v ∧ t.get (F.BANK_OWNER_HANDOVER.pg b) = 1 ∧ (t.bank b).owner = 0 ∧ (t.bank b).merge = [] ∧
      ∀ n, n ≠ b → t.bank n = c.bank n := by
  rw [Chip.ownerWrite_eq]
  obtain ⟨-, h1⟩ := c.ownerErrors_bank b (c.bank b).owner (c.ownerCode v)
  generalize c.ownerErrors b (c.bank b).owner (c.ownerCode v) = d at h1 ⊢
  have h2 : (d.set (F.BANK_OWNER_OWNER.pg b) v).get (F.BANK_OWNER_OWNER.pg b) = v := by
    rw [Chip.get_set_pg _ _ _ _ (by decide) (by decide)]
    exact Nat.mod_eq_of_lt hv
  have h3 : ∀ n, (d.set (F.BANK_OWNER_OWNER.pg b) v).bank n = c.bank n := h1
  generalize d.set (F.BANK_OWNER_OWNER.pg b) v = e at h2 h3 ⊢
  obtain ⟨r1, r2, -, r4⟩ := e.retireAll_spec b
  have h4 : (e.retireAll b).get (F.BANK_OWNER_OWNER.pg b) = v := by rw [Chip.get, r1 _ (ownReg_owner b hb), ← Chip.get, h2]
  have r4 := r4 (by rw [h3]; exact hm)
  generalize e.retireAll b = f at r2 r4 h4 ⊢
  have h5 : (f.disown b).get (F.BANK_OWNER_OWNER.pg b) = v := h4
  obtain ⟨h6, h7, -, h8⟩ := f.disown_bank b
  generalize f.disown b = g at h5 h6 h7 h8 ⊢
  obtain ⟨h9, h10, h11⟩ := g.handoverOn_spec b
  generalize g.set (F.BANK_OWNER_HANDOVER.pg b) 1 = t at h9 h10 h11 ⊢
  exact ⟨h11.trans h5, h10, by rw [h9, h6], by rw [h9, h7, r2], fun n hn => by rw [h9, h8 n hn, r4 n hn, h3]⟩

theorem Calm.ofStalled {c d : Chip} (h : Calm c) (hb : d.build = c.build) (hc : d.ctrls = c.ctrls) (hh : d.host = c.host)
    (hs : ∀ n, (d.bank n).stalled = (c.bank n).stalled) : Calm d := by
  refine ⟨(Chip.commitPages_congr hc).trans h.1, Eq.trans ?_ h.2⟩
  unfold Chip.pathsOpen Chip.relayFull Chip.relayWrites
  rw [hb, hh]
  simp only [hs]

/-! #### An owner written -/

theorem MemOnly.disown (c : Chip) (b : Nat) : MemOnly c (c.disown b) := .setMem .refl

theorem MemOnly.retireAll (c : Chip) (b : Nat) : MemOnly c (c.retireAll b) := by
  unfold Chip.retireAll
  exact .showMerge (.foldl (.setMem .refl) fun x e _ => .retireEntry x b e) b

theorem MemOnly.ownerWrite (c : Chip) (b v : Nat) : MemOnly c (c.ownerWrite b v) := by
  have ha : (F.BANK_OWNER_OWNER.pg b).addr = 0x0D0040 + 4096 * b := rfl
  have hset : ∀ (x : Chip) (f : Fld) (n : Nat), f.addr = 0x0D0040 → MemOnly x (x.set (f.pg b) n) := fun x f n hf => by
    have e : (f.pg b).addr = f.addr + 4096 * b := rfl
    exact .wr .refl (Or.inl (by omega)) (by omega) (by omega)
  rw [Chip.ownerWrite_eq]
  obtain ⟨m, e⟩ := c.ownerErrors_eq b (c.bank b).owner (c.ownerCode v)
  have h0 : MemOnly c (c.ownerErrors b (c.bank b).owner (c.ownerCode v)) := by
    rw [e]
    exact .setMem .refl
  generalize c.ownerErrors b (c.bank b).owner (c.ownerCode v) = d at h0 ⊢
  exact (((h0.trans (hset d _ _ rfl)).trans (.retireAll _ b)).trans (.disown _ b)).trans (hset _ _ _ rfl)

theorem Chip.ownerWrite_stalled (c : Chip) (b v n : Nat) : ((c.ownerWrite b v).bank n).stalled = (c.bank n).stalled := by
  rw [Chip.ownerWrite_eq, (Chip.handoverOn_spec _ b).1]
  obtain ⟨-, h1⟩ := c.ownerErrors_bank b (c.bank b).owner (c.ownerCode v)
  generalize c.ownerErrors b (c.bank b).owner (c.ownerCode v) = d at h1 ⊢
  have h2 : ∀ n, (d.set (F.BANK_OWNER_OWNER.pg b) v).bank n = c.bank n := h1
  generalize d.set (F.BANK_OWNER_OWNER.pg b) v = e at h2 ⊢
  rw [((e.retireAll b).disown_bank b).2.2.1, (e.retireAll_spec b).2.2.1, h2]

theorem Calm.ownerWrite {c : Chip} (h : Calm c) (b v : Nat) : Calm (c.ownerWrite b v) := by
  have hm := MemOnly.ownerWrite c b v
  refine ⟨(Chip.commitPages_congr hm.ctrls).trans h.1, Eq.trans ?_ h.2⟩
  unfold Chip.pathsOpen Chip.relayFull
  rw [hm.part Chip.build, hm.part Chip.relayWrites, show (c.ownerWrite b v).host.held = c.host.held from hm.part fun x => x.host.held]
  simp only [c.ownerWrite_stalled b v]

theorem regAt_owner (t : Build) (b : Nat) (hb : b < 8) : ∃ d, regAt t (F.BANK_OWNER_OWNER.pg b).addr = .reg d ∧ ∀ v w, d.quiesceChange v w = false := by
  cases t <;> interval_cases b <;> exact ⟨_, rfl, fun _ _ => by simp [RegDef.quiesceChange]⟩

theorem ownerAddr_plain (b : Nat) (hb : b < 8) : (F.BANK_OWNER_OWNER.pg b).addr < 0x400000 ∧ (F.BANK_OWNER_OWNER.pg b).addr % 4 = 0 ∧
    0x40 ≤ (F.BANK_OWNER_OWNER.pg b).addr % 4096 ∧ (F.BANK_OWNER_OWNER.pg b).addr ≠ F.DEBUG_CTRL_UNLOCK.addr ∧ unstored (F.BANK_OWNER_OWNER.pg b).addr = true := by
  interval_cases b <;> decide +kernel

theorem Chip.writeEffect_owner (x : Chip) (o : Origin) (b : Nat) (hb : b < 8) (old w : Word) :
    x.writeEffect o (F.BANK_OWNER_OWNER.pg b).addr old w = x.ownerWrite b (bitsOf w 2 0) := by
  interval_cases b <;> rfl

/-- An owner written is an owner write of the block with its record. -/
theorem Chip.write32_owner (c : Chip) (o : Origin) (b v : Nat) (hb : b < 8) (hv : v < 8) (hc : Calm c) :
    ∃ x : Chip, x.mem = c.mem ∧ c.write32 o (F.BANK_OWNER_OWNER.pg b).addr (BitVec.ofNat 32 v) = (x.ownerWrite b v).noteMirror (F.BANK_OWNER_OWNER.pg b).addr := by
  obtain ⟨d, hd, hq⟩ := regAt_owner c.build b hb
  obtain ⟨x, hx, he⟩ := Chip.write32_tabled (o := o) (w := BitVec.ofNat 32 v) hd (ownerAddr_plain b hb) (hq _ _) hc
    (fun x h => by rw [x.writeEffect_owner o b hb]; exact h.ownerWrite b _)
  have hbits : bitsOf (BitVec.ofNat 32 v) 2 0 = v := by
    simp only [bitsOf, BitVec.toNat_ofNat]
    omega
  refine ⟨x, hx.part Chip.mem fun _ => rfl, ?_⟩
  rw [he, x.writeEffect_owner o b hb, hbits]

/-! #### The switch -/

/-- The owner of a bank, its owner register and what stalls for it stay. -/
structure Handed (b : Nat) (c d : Chip) : Prop where
  rd : d.rd (F.BANK_OWNER_OWNER.pg b).addr = c.rd (F.BANK_OWNER_OWNER.pg b).addr
  owner : (d.bank b).owner = (c.bank b).owner
  stalled : (d.bank b).stalled = (c.bank b).stalled

namespace Handed
variable {b : Nat} {c d e : Chip}

theorem refl : Handed b c c := ⟨rfl, rfl, rfl⟩

theorem trans (h : Handed b c d) (k : Handed b d e) : Handed b c e := ⟨k.rd.trans h.rd, k.owner.trans h.owner, k.stalled.trans h.stalled⟩

theorem kept (h : Handed b c d) (hb : b < 8) (k : BankKept d e) : Handed b c e := h.trans ⟨k.rd _ (ownReg_owner b hb), k.owner b, k.stalled b⟩

/-- Merged parts change. -/
theorem setMerge (h : Handed b c d) (n : Nat) (l : List MergeEntry) : Handed b c (d.setBank n { d.bank n with merge := l }) := by
  refine h.trans ⟨rfl, ?_, ?_⟩
  · rw [Chip.bank_setBank]
    by_cases e : b = n
    · rw [if_pos e, e]
    · rw [if_neg e]
  · rw [Chip.bank_setBank]
    by_cases e : b = n
    · rw [if_pos e, e]
    · rw [if_neg e]

theorem retireWord (h : Handed b c d) (hb : b < 8) (n w : Nat) : Handed b c (d.retireWord n w) := by
  unfold Chip.retireWord
  dsimp only
  split
  · exact h
  · exact (h.setMerge n _).kept hb (.showMerge (.retireEntry .refl _ _) _)

theorem retireOldest (h : Handed b c d) (hb : b < 8) (n : Nat) : Handed b c (d.retireOldest n) := by
  unfold Chip.retireOldest
  split
  · exact h
  · exact (h.setMerge n _).kept hb (.showMerge (.retireEntry .refl _ _) _)

theorem mergeWrite (h : Handed b c d) (hb : b < 8) (n w : Nat) (x : Word128) (m : Nat) : Handed b c (d.mergeWrite n w x m) := by
  unfold Chip.mergeWrite
  dsimp only
  split
  · split
    · exact (h.setMerge n _).retireWord hb _ _
    · exact h.setMerge n _
  · have hk : Handed b c (if (d.bank n).merge.length < 8 then d else d.retireOldest n) := by
      split
      · exact h
      · exact h.retireOldest hb n
    generalize (if (d.bank n).merge.length < 8 then d else d.retireOldest n) = y at hk ⊢
    exact (hk.setMerge n _).kept hb (.showMerge .refl _)

/-- A write of a word while the bank has no handover. -/
theorem bankWriteWord (hb : b < 8) (hoff : c.on (F.BANK_OWNER_HANDOVER.pg b) = false) (m w : Nat) (bytes : List (Option Byte)) (path : Option Origin) :
    Handed b c (c.bankWriteWord m w bytes path) := by
  rw [Chip.bankWriteWord_eq]
  split
  next h =>
    have hne : b ≠ w / 65536 := by
      rintro rfl
      rw [Chip.ownerToBe_off _ _ _ hoff, Bool.and_false] at h
      exact absurd h (by decide)
    refine ⟨rfl, ?_, ?_⟩
    · rw [Chip.bankStall, Chip.bank_setBank, if_neg hne]
    · rw [Chip.bankStall, Chip.bank_setBank, if_neg hne]
  · split
    · exact refl.kept hb (SramSame.bankDeny .refl _).kept
    · split
      · exact refl
      · split
        · exact (refl.setMerge _ _).kept hb (.showMerge (.sramStore .refl _ _ _) _)
        · exact refl.mergeWrite hb _ _ _ _

theorem emit (h : Handed b c d) (o : Output) : Handed b c (d.emit o) := by
  refine h.trans ⟨Chip.emit_rd d o _, ?_, ?_⟩
  · unfold Chip.emit
    split <;> rfl
  · unfold Chip.emit
    split <;> rfl

theorem atomicNow (h : Handed b c d) (hb : b < 8) (u : Nat) (add : Bool) (ofs size operand : Nat) : Handed b c (d.atomicNow u add ofs size operand).2 := by
  unfold Chip.atomicNow
  dsimp only
  have h1 := (h.retireWord hb (ofs / 16 / 65536) (ofs / 16 % 65536)).kept hb (SramSame.sramReadWord .refl u (ofs / 16)).kept
  generalize ((d.retireWord (ofs / 16 / 65536) (ofs / 16 % 65536)).sramReadWord u (ofs / 16)) = r at h1 ⊢
  split
  · exact h1.kept hb (.sramStore .refl _ _ _)
  · exact h1.kept hb (.sramStore .refl _ _ _)

theorem bankServe (hb : b < 8) (hoff : c.on (F.BANK_OWNER_HANDOVER.pg b) = false) (r : SramReq) : Handed b c (c.bankServe r) := by
  unfold Chip.bankServe
  split
  · exact bankWriteWord hb hoff _ _ _ _
  · unfold Chip.atomicReturn Chip.atomicAt
    dsimp only
    split
    · exact (refl.kept hb (SramSame.bankDeny .refl _).kept).emit _
    · exact (refl.atomicNow hb _ _ _ _ _).emit _

theorem served (hb : b < 8) (l : List SramReq) (hoff : c.on (F.BANK_OWNER_HANDOVER.pg b) = false) : Handed b c (l.foldl Chip.bankServe c) :=
  foldl_rel (fun x y => x.on (F.BANK_OWNER_HANDOVER.pg b) = false → Handed b x y) (fun _ _ => refl)
    (fun h k hx => (h hx).trans (k (by
      have e : (F.BANK_OWNER_HANDOVER.pg b).addr = (F.BANK_OWNER_OWNER.pg b).addr := rfl
      rw [Chip.on, Chip.get, e, (h hx).rd, ← e, ← Chip.get, ← Chip.on, hx]))) id _ l (fun x r _ hx => bankServe hb hx r) c hoff

end Handed

/-! #### Paths that go on -/

/-- The memories, the Belfry, and what the paths hold. -/
def pathsView (x : Chip) : MemSt × BelfrySt × Bool × List HeldAcc × List SrpReq × Option SrpJob :=
  (x.mem, x.belfry, x.host.recovery, x.host.held, x.host.srpQ, x.host.srpJob)

/-- The front of the queue leaves; after a broadcast the next follows. -/
theorem Chip.relayGo_step (n : Nat) (c : Chip) (r : RelayReq) (q : List RelayReq) (h : ¬ (c.host.relayOut.isSome || !c.belfryUp) = true) (hq : c.host.relayQ = r :: q) :
    Chip.relayGo (n + 1) c = if r.target = relayAll then Chip.relayGo n ((c.relayTaken q).relayLeaves { r with tag := c.host.relayTag })
      else (c.relayTaken q).relayLeaves { r with tag := c.host.relayTag } := by
  rw [Chip.relayGo, if_neg h, hq]
  dsimp only
  unfold Chip.relayLeaves
  by_cases ht : r.target = relayAll
  · rw [if_pos ht, if_pos ht, if_pos ht]
    rfl
  · rw [if_neg ht, if_neg ht, if_neg ht]
    rfl

theorem Keeps.relayLeaves {a : Nat} (ha : a ≠ F.RELAY_STATUS_LAST_RESULT.addr) (c : Chip) (r : RelayReq) : Keeps pathsView [a] [] c (c.relayLeaves r) := by
  have hsend : ∀ (x : Chip) (p cell : Nat), Keeps pathsView [a] [] x (x.sendChain p cell) := fun x p cell => by
    unfold Chip.sendChain Chip.withSeq
    dsimp only
    exact .ite (.setPort (.setPort (.setPort .refl))) (.setPort (.setPort .refl))
  unfold Chip.relayLeaves
  split
  · have h2 : Keeps pathsView [a] [] c (c.chains.foldl (fun c p => c.sendChain p (c.relayCell r)) c) := .foldl .refl fun x p _ => hsend x _ _
    generalize c.chains.foldl (fun c p => c.sendChain p (c.relayCell r)) c = e at h2 ⊢
    exact .set h2 (by simpa using ha.symm)
  · have h2 := hsend c (c.seqPort (tilePortOf r.target)) (c.relayCell r)
    generalize c.sendChain (c.seqPort (tilePortOf r.target)) (c.relayCell r) = e at h2 ⊢
    exact .of h2 rfl rfl rfl

theorem Keeps.relayGo {a : Nat} (ha : a ≠ F.RELAY_STATUS_LAST_RESULT.addr) (n : Nat) (c : Chip) : Keeps pathsView [a] [] c (Chip.relayGo n c) := by
  induction n generalizing c with
  | zero => exact .refl
  | succ n ih =>
    by_cases h : (c.host.relayOut.isSome || !c.belfryUp) = true
    · rw [Chip.relayGo, if_pos h]
      exact .refl
    · cases hq : c.host.relayQ with
      | nil =>
        rw [Chip.relayGo, if_neg h, hq]
        exact .refl
      | cons r q =>
        rw [Chip.relayGo_step n c r q h hq]
        have h1 : Keeps pathsView [a] [] c (c.relayTaken q) := .of .refl rfl rfl rfl
        have h2 := h1.trans (.relayLeaves ha (c.relayTaken q) { r with tag := c.host.relayTag })
        exact .ite (h2.trans (ih _)) h2

/-- Where nothing is held on a path and no SRP job is under way, only accesses of the relay go on. -/
theorem Chip.pathsGo_kept (c : Chip) (a : Nat) (ha : a ≠ F.RELAY_STATUS_LAST_RESULT.addr) (h1 : c.host.held = []) (h2 : c.host.srpJob = none) (h3 : c.host.srpQ = []) :
    c.pathsGo.mem = c.mem ∧ c.pathsGo.rd a = c.rd a ∧ (∀ e, c.pend e = true → c.pathsGo.pend e = true) ∧
      c.pathsGo.belfry = c.belfry ∧ c.pathsGo.host.recovery = c.host.recovery := by
  have hk : Keeps pathsView [a] [] c c.relayNext := Keeps.relayGo ha _ c
  have hv : pathsView c.relayNext = pathsView c := hk.view
  obtain ⟨k1, kb, kr, k2, k3, k4⟩ : c.relayNext.mem = c.mem ∧ c.relayNext.belfry = c.belfry ∧ c.relayNext.host.recovery = c.host.recovery ∧ c.relayNext.host.held = c.host.held ∧ c.relayNext.host.srpQ = c.host.srpQ ∧
      c.relayNext.host.srpJob = c.host.srpJob := by simpa [pathsView] using hv
  have e2 : c.relayNext.heldNext = c.relayNext := by rw [Chip.heldNext, k2, h1]; rfl
  have e3 : c.relayNext.srpRun = c.relayNext := by
    rw [Chip.srpRun, k3, h3]
    simp [Chip.srpQueue, Chip.srpWords, k3, h3, k4, h2]
  rw [Chip.pathsGo, e2, e3]
  exact ⟨k1, hk.rd a (List.mem_singleton_self a), fun e he => hk.pend e he, kb, kr⟩

namespace MemOnly
variable {c d : Chip}

theorem emit (h : MemOnly c d) (o : Output) : MemOnly c (d.emit o) := by
  refine h.trans ⟨?_, ?_, fun a _ _ => Chip.emit_rd d o a, fun e he => ?_, fun q => ?_⟩
  · unfold Chip.emit
    split <;> rfl
  · unfold Chip.emit
    split <;> rfl
  · rw [Chip.pend, Chip.emit_rd]
    exact he
  · unfold Chip.emit
    split <;> exact ⟨rfl, rfl⟩

theorem atomicNow (c : Chip) (u : Nat) (add : Bool) (ofs size operand : Nat) : MemOnly c (c.atomicNow u add ofs size operand).2 := by
  unfold Chip.atomicNow
  dsimp only
  have h1 := (retireWord c (ofs / 16 / 65536) (ofs / 16 % 65536)).trans (.sramReadWord _ u (ofs / 16))
  generalize ((c.retireWord (ofs / 16 / 65536) (ofs / 16 % 65536)).sramReadWord u (ofs / 16)) = r at h1 ⊢
  split
  · exact h1.trans (.sramStore _ _ _ _)
  · exact h1.trans (.sramStore _ _ _ _)

theorem bankServe (c : Chip) (r : SramReq) : MemOnly c (c.bankServe r) := by
  unfold Chip.bankServe
  split
  · exact bankWriteWord c _ _ _ _
  · unfold Chip.atomicReturn Chip.atomicAt
    dsimp only
    split
    · exact (bankDeny c _).emit _
    · exact (atomicNow c _ _ _ _ _).emit _

end MemOnly

/-- A bank given to the owner written, with nothing left to stall. -/
def Chip.handed (c : Chip) (b : Nat) : Chip :=
  (c.setBank b { c.bank b with owner := c.ownerCode (c.get (F.BANK_OWNER_OWNER.pg b)), stalled := [] }).set (F.BANK_OWNER_HANDOVER.pg b) 0

theorem Chip.handed_spec (c : Chip) (b : Nat) :
    (c.handed b).bank b = { c.bank b with owner := c.ownerCode (c.get (F.BANK_OWNER_OWNER.pg b)), stalled := [] } ∧
      (c.handed b).get (F.BANK_OWNER_HANDOVER.pg b) = 0 ∧ (c.handed b).host = c.host ∧ (c.handed b).mem.sram = c.mem.sram ∧
      (c.handed b).mem.sramSyn = c.mem.sramSyn ∧ (∀ w, (c.handed b).sramWord w = c.sramWord w) ∧
      ∀ n, (c.handed b).flipArmed (bankPage n) = c.flipArmed (bankPage n) := by
  have ha : (F.BANK_OWNER_HANDOVER.pg b).addr = 0x0D0040 + 4096 * b := rfl
  have hx : (c.setBank b { c.bank b with owner := c.ownerCode (c.get (F.BANK_OWNER_OWNER.pg b)), stalled := [] }).bank b =
      { c.bank b with owner := c.ownerCode (c.get (F.BANK_OWNER_OWNER.pg b)), stalled := [] } := Chip.bank_setBank_same _ _ _
  have hh : (c.setBank b { c.bank b with owner := c.ownerCode (c.get (F.BANK_OWNER_OWNER.pg b)), stalled := [] }).host = c.host ∧
      (c.setBank b { c.bank b with owner := c.ownerCode (c.get (F.BANK_OWNER_OWNER.pg b)), stalled := [] }).mem.sram = c.mem.sram ∧
      (c.setBank b { c.bank b with owner := c.ownerCode (c.get (F.BANK_OWNER_OWNER.pg b)), stalled := [] }).mem.sramSyn = c.mem.sramSyn := ⟨rfl, rfl, rfl⟩
  have hr : ∀ a, (c.setBank b { c.bank b with owner := c.ownerCode (c.get (F.BANK_OWNER_OWNER.pg b)), stalled := [] }).rd a = c.rd a := fun _ => rfl
  unfold Chip.handed
  generalize c.setBank b { c.bank b with owner := c.ownerCode (c.get (F.BANK_OWNER_OWNER.pg b)), stalled := [] } = x at hx hh hr ⊢
  obtain ⟨h1, h2, h3⟩ := hh
  have hset : ∀ a, a ≠ 0x0D0040 + 4096 * b → (x.set (F.BANK_OWNER_HANDOVER.pg b) 0).rd a = c.rd a := fun a hne => by
    rw [Chip.rd_set_ne _ _ _ _ (by rw [ha]; exact hne), hr]
  refine ⟨hx, ?_, h1, h2, h3, fun w => Chip.sramWord_congr w fun e _ => hset _ (by omega), fun n => ?_⟩
  · exact Chip.get_set_pg x F.BANK_OWNER_HANDOVER b 0 (by decide) (by decide)
  · have hf : (F.FLIP_ARM.pg (bankPage n)).addr = 0x34 + 4096 * (0x0D0 + n) := rfl
    unfold Chip.flipArmed Chip.on
    rw [Chip.get, hset _ (by omega), Chip.get]

theorem Chip.handoverSwitch_eq (c : Chip) (b : Nat) (h : c.on (F.BANK_OWNER_HANDOVER.pg b) = true) :
    c.handoverSwitch b = (c.bank b).stalled.foldl Chip.bankServe (c.handed b) := by
  unfold Chip.handoverSwitch
  rw [h]
  rfl

theorem Chip.on_eq_false {c : Chip} {f : Fld} (h : c.get f = 0) : c.on f = false := by
  rw [Chip.on, h]
  rfl

/-- What a handover's switch leaves, and what it serves. -/
theorem Chip.handoverSwitch_spec (c : Chip) (b : Nat) (hb : b < 8) (h : c.on (F.BANK_OWNER_HANDOVER.pg b) = true) (hheld : c.host.held = [])
    (hjob : c.host.srpJob = none) (hq : c.host.srpQ = []) :
    let new := c.ownerCode (c.get (F.BANK_OWNER_OWNER.pg b))
    let t := (c.handoverSwitch b).pathsGo
    (t.bank b).owner = new ∧ t.get (F.BANK_OWNER_HANDOVER.pg b) = 0 ∧ (t.bank b).stalled = [] ∧
      ((c.bank b).stalled = [] → t.mem.sram = c.mem.sram ∧ t.mem.sramSyn = c.mem.sramSyn) ∧
      ∀ (r : SramReq) (w : Nat) (bytes : List Byte), (c.bank b).stalled = [r] → bytes.length = 16 → w / 65536 = b → r.offset = 16 * w →
        r.bytes = bytes.map some → r.atomic = none → r.master ≠ 0 → (c.bank b).wild = none → c.flipArmed (bankPage b) = false →
        if r.master = new then t.sramData (c.sramWord w) = BitVec.ofNat 128 (ofLe bytes) ∧ t.sramSyn (c.sramWord w) = 0
        else t.mem.sram = c.mem.sram ∧ t.pend E.BANK_DENY = true := by
  dsimp only
  obtain ⟨d1, d2, d3, d4, d5, d6, d7⟩ := c.handed_spec b
  rw [c.handoverSwitch_eq b h]
  generalize c.handed b = d at *
  have hoff : d.on (F.BANK_OWNER_HANDOVER.pg b) = false := Chip.on_eq_false d2
  have hk : Handed b d ((c.bank b).stalled.foldl Chip.bankServe d) := .served hb _ hoff
  have hm : MemOnly d ((c.bank b).stalled.foldl Chip.bankServe d) := .foldl .refl fun x r _ => .bankServe x r
  obtain ⟨p1, p2, p3, -⟩ := ((c.bank b).stalled.foldl Chip.bankServe d).pathsGo_kept (F.BANK_OWNER_OWNER.pg b).addr
    (by
      have ha : (F.BANK_OWNER_OWNER.pg b).addr = 0x0D0040 + 4096 * b := rfl
      have hs : F.RELAY_STATUS_LAST_RESULT.addr % 4096 ≠ 0x40 := by decide
      omega)
    ((hm.part fun x => x.host.held).trans (d3 ▸ hheld)) ((hm.part fun x => x.host.srpJob).trans (d3 ▸ hjob)) ((hm.part fun x => x.host.srpQ).trans (d3 ▸ hq))
  have hbank : ∀ x y : Chip, x.mem = y.mem → ∀ n, x.bank n = y.bank n := fun x y e n => by rw [Chip.bank, e, ← Chip.bank]
  refine ⟨?_, ?_, ?_, fun hs => ?_, fun r w bytes hs hl hw ho hby ha hm0 hwild hf => ?_⟩
  · rw [hbank _ _ p1, hk.owner, d1]
  · have e : (F.BANK_OWNER_HANDOVER.pg b).addr = (F.BANK_OWNER_OWNER.pg b).addr := rfl
    rw [Chip.get, e, p2, hk.rd, ← e, ← Chip.get, d2]
  · rw [hbank _ _ p1, hk.stalled, d1]
  · rw [p1, hs]
    exact ⟨d4, d5⟩
  · rw [hs, List.foldl_cons, List.foldl_nil] at p1 p3 ⊢
    have hserve : d.bankServe r = d.bankWriteWord r.master w (bytes.map some) r.path := by
      unfold Chip.bankServe
      rw [ha, hby, ho, show 16 * w / 16 = w by omega]
    have hst : d.ownerToBe (w / 65536) r.master = false := Chip.ownerToBe_off _ _ _ (hw ▸ hoff)
    have hbo : (d.bank (w / 65536)).owner = c.ownerCode (c.get (F.BANK_OWNER_OWNER.pg b)) := by rw [hw, d1]
    have hdw : (d.bank (w / 65536)).wild = none := by rw [hw, d1, hwild]
    rw [hserve] at p1 p3 ⊢
    split
    next hnew =>
      have hfd : d.flipArmed (bankPage (bankOf (d.sramWord w))) = false := by rw [Chip.bankOf_sramWord _ _ (by omega), hw, d7, hf]
      rw [Chip.bankWriteWord_whole _ _ _ _ _ hl hm0 hst (hbo.trans hnew.symm)] at p1 p3 ⊢
      obtain ⟨s1, s2, -⟩ := d.stored_spec w ((d.bank (w / 65536)).merge.filter (fun e => e.word ≠ w % 65536)) (BitVec.ofNat 128 (ofLe bytes)) (by omega) hdw hfd
      rw [← d6 w]
      generalize ((d.setBank (w / 65536) { d.bank (w / 65536) with merge := (d.bank (w / 65536)).merge.filter (fun e => e.word ≠ w % 65536) }).sramStore (d.sramWord w)
        (BitVec.ofNat 128 (ofLe bytes)) 0).showMerge (w / 65536) = y at *
      have hd : ∀ k, y.pathsGo.sramData k = y.sramData k := fun k => by
        unfold Chip.sramData
        rw [hbank _ _ p1, p1]
      have hy : ∀ k, y.pathsGo.sramSyn k = y.sramSyn k := fun k => by
        unfold Chip.sramSyn
        rw [hbank _ _ p1, p1]
      rw [hd, hy]
      exact ⟨s1, s2⟩
    next hnew =>
      rw [Chip.bankWriteWord_deny _ _ _ _ _ hst (by rw [hbo]; exact fun e => hnew e.symm)] at p1 p3 ⊢
      obtain ⟨b1, b2⟩ := d.bankDeny_spec (w / 65536)
      exact ⟨by rw [p1, b1, d4], p3 _ b2⟩

/-! #### Atomics -/

/-- A field of a word replaced. -/
theorem field_replaced (D lo n new : Nat) (hD : D < 2 ^ 128) (hn : lo + n ≤ 128) (hnew : new < 2 ^ n) :
    ((D - D / 2 ^ lo % 2 ^ n * 2 ^ lo + new * 2 ^ lo) % 2 ^ 128) / 2 ^ lo % 2 ^ n = new := by
  have hlo : 0 < 2 ^ lo := Nat.two_pow_pos lo
  have h1 : D = (2 ^ n * (D / 2 ^ lo / 2 ^ n) + D / 2 ^ lo % 2 ^ n) * 2 ^ lo + D % 2 ^ lo := by
    rw [Nat.div_add_mod, Nat.mul_comm, Nat.div_add_mod]
  have hlow : D % 2 ^ lo < 2 ^ lo := Nat.mod_lt _ hlo
  have hhi : D / 2 ^ lo / 2 ^ n < 2 ^ (128 - (lo + n)) := by
    rw [Nat.div_div_eq_div_mul, ← Nat.pow_add, Nat.div_lt_iff_lt_mul (Nat.two_pow_pos _), ← Nat.pow_add, Nat.sub_add_cancel hn]
    exact hD
  generalize D / 2 ^ lo % 2 ^ n = old at *
  generalize D / 2 ^ lo / 2 ^ n = hi at *
  generalize D % 2 ^ lo = low at *
  have h2 : D - old * 2 ^ lo + new * 2 ^ lo = (2 ^ n * hi + new) * 2 ^ lo + low := by
    rw [h1, Nat.add_mul, Nat.add_mul]
    omega
  have h3 : (2 ^ n * hi + new) * 2 ^ lo + low < 2 ^ 128 := by
    have hm : 2 ^ n * hi + new < 2 ^ (128 - lo) := by
      have e : 2 ^ (128 - lo) = 2 ^ n * 2 ^ (128 - (lo + n)) := by
        rw [← Nat.pow_add]
        congr 1
        omega
      rw [e]
      calc 2 ^ n * hi + new < 2 ^ n * hi + 2 ^ n := Nat.add_lt_add_left hnew _
        _ = 2 ^ n * (hi + 1) := by rw [Nat.mul_succ]
        _ ≤ 2 ^ n * 2 ^ (128 - (lo + n)) := Nat.mul_le_mul_left _ hhi
    have e : 2 ^ 128 = 2 ^ (128 - lo) * 2 ^ lo := by
      rw [← Nat.pow_add]
      congr 1
      omega
    rw [e]
    calc (2 ^ n * hi + new) * 2 ^ lo + low < (2 ^ n * hi + new) * 2 ^ lo + 2 ^ lo := Nat.add_lt_add_left hlow _
      _ = (2 ^ n * hi + new + 1) * 2 ^ lo := by rw [Nat.succ_mul]
      _ ≤ 2 ^ (128 - lo) * 2 ^ lo := Nat.mul_le_mul_right _ hm
  rw [h2, Nat.mod_eq_of_lt h3, Nat.add_comm _ low, Nat.add_mul_div_right _ _ hlo, Nat.div_eq_of_lt hlow, Nat.zero_add, Nat.mul_add_mod, Nat.mod_eq_of_lt hnew]

/-- An atomic of a clean word with nothing merged. -/
theorem Chip.atomicNow_clean (c : Chip) (u : Nat) (add : Bool) (ofs size operand : Nat) (hm : (c.bank (ofs / 16 / 65536)).merge = [])
    (hs : c.sramSyn (c.sramWord (ofs / 16)) = 0) (hf : c.flipArmed (bankPage (bankOf (c.sramWord (ofs / 16)))) = false) :
    let k := c.sramWord (ofs / 16)
    let lo := 8 * (ofs % 16)
    let old := nbits (c.sramData k).toNat (lo + 8 * size - 1) lo
    let new := if add then (old + operand) % 2 ^ (8 * size) else operand % 2 ^ (8 * size)
    c.atomicNow u add ofs size operand = ((old, false), c.sramPut k (BitVec.ofNat 128 ((c.sramData k).toNat - old * 2 ^ lo + new * 2 ^ lo)) 0) := by
  dsimp only
  rw [← Chip.sramStore_plain _ _ _ _ hf]
  unfold Chip.atomicNow
  dsimp only
  rw [Chip.retireWord_none _ _ _ hm, Chip.sramReadWord_clean _ _ _ hs]
  rfl

section
variable {s : State} {P : Chip → Prop} {add : Bool} {master offset size operand : Nat}

/-- A command that acts where its operands are in range. -/
theorem Completes.liveWhen {i : Instr} {p : Bool} (f : Chip → Chip) (he : exec i s = Machine.live s (fun c => c.when p f)) (h : Runs s) (hpt : p = true)
    (hp : P (f s.chip)) : Completes i s P :=
  .live _ he h (by rw [Chip.when_pos _ _ _ hpt]; exact hp)

/-- An atomic of the SRAM that does not stall. -/
theorem Completes.atomic (byBelfry : Bool) (hs : Runs s) (hz : size = 4 ∨ size = 8) (ha : offset % size = 0) (hb : offset / 1048576 < 8)
    (hfill : s.chip.on F.ECC_STATUS_SRAM_FILLED = true) (hst : byBelfry = true ∨ s.chip.on (F.BANK_OWNER_HANDOVER.pg (offset / 1048576)) = false)
    (v : Nat) (bad : Bool) (d : Chip) (hr : s.chip.atomicAt master byBelfry add offset size operand = ((v, bad), d)) (hbad : bad = false ∨ byBelfry = false)
    (hp : P { d with out := d.out ++ [.memData (if byBelfry then 2 else master) offset (leBytes size v) bad] }) :
    Completes (.atomicOp byBelfry add master offset size operand) s P := by
  refine .live (fun c => c.atomicOp byBelfry add master offset size operand) rfl hs ?_
  have h1 : (!((size = 4 || size = 8) && decide (offset % size = 0) && decide (offset < 0x800000)) || !s.chip.on F.ECC_STATUS_SRAM_FILLED) = false := by
    have : offset < 0x800000 := by omega
    rcases hz with rfl | rfl <;> simp [ha, this, hfill]
  have h2 : (!byBelfry && decide (master ≠ 0) && s.chip.ownerToBe (offset / 1048576) master) = false := by
    rcases hst with h | h
    · rw [h]
      rfl
    · rw [Chip.ownerToBe_off _ _ _ h, Bool.and_false]
  unfold Chip.atomicOp
  rw [if_neg (by rw [h1]; decide), if_neg (by rw [h2]; decide)]
  dsimp only
  rw [hr]
  have h3 : (bad && byBelfry) = false := by
    rcases hbad with h | h <;> rw [h]
    · rfl
    · rw [Bool.and_false]
  dsimp only
  rw [if_neg (by rw [h3]; decide), Chip.emit_memData]
  exact hp

/-- An atomic of the owner to be stalls. -/
theorem Completes.atomicStall (hs : Runs s) (hz : size = 4 ∨ size = 8) (ha : offset % size = 0) (hb : offset / 1048576 < 8)
    (hfill : s.chip.on F.ECC_STATUS_SRAM_FILLED = true) (hm : master ≠ 0) (ht : s.chip.ownerToBe (offset / 1048576) master = true)
    (hp : P (s.chip.bankStall (offset / 1048576) { master := master, path := none, offset := offset, bytes := [], atomic := some (add, size, operand) })) :
    Completes (.atomicOp false add master offset size operand) s P := by
  refine .live (fun c => c.atomicOp false add master offset size operand) rfl hs ?_
  have h1 : (!((size = 4 || size = 8) && decide (offset % size = 0) && decide (offset < 0x800000)) || !s.chip.on F.ECC_STATUS_SRAM_FILLED) = false := by
    have : offset < 0x800000 := by omega
    rcases hz with rfl | rfl <;> simp [ha, this, hfill]
  unfold Chip.atomicOp
  rw [if_neg (by rw [h1]; decide), if_pos (by simp [hm, ht])]
  exact hp

end

/-- Settles O47: an owner write retires and disowns; the switch hands over and serves what stalled; an atomic replaces a field of its word; and the
oldest merged part is retired by what its word reads as. -/
theorem bankOwnership : Obligations.BankOwnership := by
  unfold Obligations.BankOwnership
  intro s b hs hb
  refine ⟨fun o v hv hc hm => ?_, fun hh hheld hjob hq => ?_, fun add offset size operand hz ha hob hfill => ⟨fun master hm hh => ?_, fun master hm ht => ?_,
    fun belfry master ho hwild hmg hsyn hf => ?_⟩, fun e l hm he hl hwild hf => ?_⟩
  · refine .serveFor o _ rfl hs ?_
    rw [Chip.when_pos _ _ _ (decide_eq_true hb)]
    obtain ⟨x, hx, e⟩ := s.chip.write32_owner o b v hb hv hc
    have hbk : ∀ n, x.bank n = s.chip.bank n := fun n => by rw [Chip.bank, hx, ← Chip.bank]
    obtain ⟨h1, h2, h3, h4, h5⟩ := x.ownerWrite_spec b v hb hv (by rw [hbk]; exact hm)
    rw [e]
    have hnb : ∀ (y : Chip) a n, (y.noteMirror a).bank n = y.bank n := fun y a n => by rw [Chip.bank, Chip.noteMirror_mem, ← Chip.bank]
    simp only [Chip.noteMirror_get, hnb]
    exact ⟨h1, h2, h3, h4, fun n hn => (h5 n hn).trans (hbk n)⟩
  · exact .liveWhen _ rfl hs (decide_eq_true hb) (s.chip.handoverSwitch_spec b hb hh hheld hjob hq)
  · have hd : offset / 16 / 65536 = b := by omega
    have hno : s.chip.ownsBank b master = false := by
      unfold Chip.ownsBank
      rcases hm with h | h
      · simp [h.symm]
      · simp [h]
    refine .atomic false hs hz ha (by omega) hfill (.inr (hob ▸ hh)) 0 true (s.chip.bankDeny b) ?_ (.inr rfl) ?_
    · unfold Chip.atomicAt
      dsimp only
      rw [hd, if_pos (by rw [hno]; decide)]
    · obtain ⟨h1, h2⟩ := s.chip.bankDeny_spec b
      exact ⟨h1, h2, List.mem_append_right _ (List.mem_singleton_self _)⟩
  · refine .atomicStall hs hz ha (by omega) hfill hm (hob ▸ ht) ?_
    rw [hob]
    exact ⟨rfl, rfl, congrArg BankSt.stalled (Chip.bank_setBank_same _ _ _)⟩
  · have hd : offset / 16 / 65536 = b := by omega
    have hbk : bankOf (s.chip.sramWord (offset / 16)) = b := by rw [Chip.bankOf_sramWord _ _ (by omega), hd]
    have hat := fun u => s.chip.atomicNow_clean u add offset size operand (by rw [hd]; exact hmg) hsyn hf
    have hs8 : 0 < size ∧ 8 * (offset % 16) + 8 * size ≤ 128 := by rcases hz with rfl | rfl <;> omega
    dsimp only at hat ⊢
    have hval : (if add then (nbits (s.chip.sramData (s.chip.sramWord (offset / 16))).toNat (8 * (offset % 16) + 8 * size - 1) (8 * (offset % 16)) + operand) % 2 ^ (8 * size)
        else operand % 2 ^ (8 * size)) < 2 ^ (8 * size) := by split <;> exact Nat.mod_lt _ (Nat.two_pow_pos _)
    have hr : s.chip.atomicAt master belfry add offset size operand = s.chip.atomicNow (if belfry then mBelfry else mOwner) add offset size operand := by
      unfold Chip.atomicAt
      dsimp only
      rw [hd, if_neg]
      rcases ho with h | ⟨h0, h1, -⟩
      · simp [h]
      · simp [Chip.ownsBank, h0, h1]
    rw [hat] at hr
    refine .atomic belfry hs hz ha (by omega) hfill (ho.elim .inl fun h => .inr (hob ▸ h.2.2)) _ false _ hr (.inl rfl) ?_
    have hwk : (s.chip.bank (bankOf (s.chip.sramWord (offset / 16)))).wild = none := by rw [hbk, hwild]
    generalize (if add then (nbits (s.chip.sramData (s.chip.sramWord (offset / 16))).toNat (8 * (offset % 16) + 8 * size - 1) (8 * (offset % 16)) + operand) % 2 ^ (8 * size)
      else operand % 2 ^ (8 * size)) = new at hval ⊢
    generalize s.chip.sramWord (offset / 16) = k at *
    refine ⟨rfl, ?_, (Chip.sramSyn_sramPut _ _ _ _ _ hwk).trans (if_pos rfl), fun j hj => (Chip.sramData_sramPut _ _ _ _ _ hwk).trans (if_neg hj)⟩
    refine (congrArg (fun d : Word128 => nbits d.toNat _ _) ((Chip.sramData_sramPut _ _ _ _ _ hwk).trans (if_pos rfl))).trans ?_
    rw [BitVec.toNat_ofNat, nbits, nbits, show 8 * (offset % 16) + 8 * size - 1 + 1 - 8 * (offset % 16) = 8 * size by omega]
    exact field_replaced _ _ _ _ (s.chip.sramData k).isLt hs8.2 hval
  · refine .liveWhen _ rfl hs (decide_eq_true hb) ?_
    obtain ⟨h1, h2, -, -, -, h6⟩ := s.chip.retired_spec b e l hb he hwild (by omega) hf
    unfold Chip.retireOldest
    rw [hm]
    exact ⟨h1, h2, h6⟩

end Sys2Proof.Machine
end

