-- ==== Sys2Proof/Proofs/UpdateSessions.lean ====
section
-- One proof at a time: proofs that wait for the kernel side by side hold more memory than the check allows.
set_option Elab.async false
/-! PROOF. The session of an update: its commands, erase, blocks, check, trial, BULK and the choice of an image (R373 to R382, R389) -/

namespace Sys2Proof.Machine

/-! ### The session of an update (R373 to R382) -/

theorem upd_hasPage (c : Chip) : c.hasPage 0x0F0 = true := by unfold Chip.hasPage; cases c.build <;> decide +kernel

/-- An erased byte reads as such. -/
theorem Chip.flashRead_erased (c : Chip) (a len b n : Nat) (h1 : a ≤ b) (h2 : b + n ≤ a + len) : (c.flashErase a len).flashRead b n = List.replicate n 0xFF := by
  show memRead _ (c.belfry.flash.filter _) b n = _
  rw [memRead_eq_map, List.eq_replicate_iff]
  refine ⟨by simp, fun x hx => ?_⟩
  obtain ⟨i, hi, rfl⟩ := List.mem_map.1 hx
  have hi := List.mem_range.1 hi
  rw [memGet, smGet, smFind_filter (fun k => decide (k < a) || decide (a + len ≤ k)), if_neg (by simp only [Bool.or_eq_true, decide_eq_true_eq]; omega)]
  rfl

namespace Holds
variable {α : Type} {ρ : Chip → α} {Fs : List Fld} {c d : Chip}

theorem setUpd {s : UpdateSt} (h : Holds ρ Fs c d) (hv : ρ (d.setUpd s).still = ρ d.still := by rfl) : Holds ρ Fs c (d.setUpd s) := h.of hv rfl rfl

theorem setBelfry {s : BelfrySt} (h : Holds ρ Fs c d) (hv : ρ (d.setBelfry s).still = ρ d.still := by rfl) : Holds ρ Fs c (d.setBelfry s) := h.of hv rfl rfl

/-- What the log buffer takes is no part of what is followed. -/
theorem logAdd {r : LogRec} (h : Holds ρ Fs c d) (hv : ∀ (x : Chip) l, ρ (x.setBelfry { x.belfry with logBuf := l }).still = ρ x.still := by intros; rfl)
    (hF : (Fs.all (fun g => g.apart F.LOG_LOST_COUNT) && calmFields Fs) = true := by decide) : Holds ρ Fs c (d.logAdd r) := by
  obtain ⟨h1, h2⟩ := Bool.and_eq_true_iff.1 hF
  unfold Chip.logAdd
  exact .ite (h.of (hv _ _) rfl rfl) (.raise (.bumpSat h h1) h2)

theorem logUpd {code detail : Nat} (h : Holds ρ Fs c d) (hv : ∀ (x : Chip) l, ρ (x.setBelfry { x.belfry with logBuf := l }).still = ρ x.still := by intros; rfl)
    (hF : (Fs.all (fun g => g.apart F.LOG_LOST_COUNT) && calmFields Fs) = true := by decide) : Holds ρ Fs c (d.logUpd code detail) := h.logAdd hv hF

/-- What the flash alone differs in keeps every field. -/
theorem flashOnly {e : Chip} (h : Holds ρ Fs c d) (k : FlashOnly d e)
    (hρ : ∀ (x : Chip) fl n, ρ { x with belfry := { x.belfry with flash := fl }, free := n }.still = ρ x.still := by intros; rfl) : Holds ρ Fs c e := by
  obtain ⟨fl, n, rfl⟩ := k
  exact h.of (hρ d fl n) rfl rfl

/-- A state record of a slot. -/
theorem slotAppend {slot st : Nat} (h : Holds ρ Fs c d)
    (hρ : ∀ (x : Chip) fl n, ρ { x with belfry := { x.belfry with flash := fl }, free := n }.still = ρ x.still := by intros; rfl)
    (hF : calmFields Fs = true := by decide) : Holds ρ Fs c (d.slotAppend slot st) := by
  unfold Chip.slotAppend
  dsimp only
  split
  · exact h.raise hF
  · exact h.flashOnly FlashOnly.refl.program hρ

end Holds

/-- What a command that is refused leaves: the update, the Belfry and the flash, the paths and the memories. -/
def updView (x : Chip) : UpdateSt × BelfrySt × AonSt × HostSt × MemSt := (x.upd, x.belfry, x.aon, x.host, x.mem)

/-- The fields of UPDATE that a session goes by. -/
def updFields : List Fld :=
  [F.STATE.pg updPage, F.UPDATE_STATUS_BLOCK_BUSY, F.UPDATE_STATUS_BULK_BUSY, F.UPDATE_STATUS_TRIAL, F.UPDATE_STATUS_RUN_SLOT, F.UPDATE_STAGED_VERSION_VERSION,
    F.UPDATE_PAGES_PAGES]

/-- A failure: its code, its event, and nothing else. -/
theorem Chip.updFail_spec (c : Chip) (code : Nat) (h : code < 8) :
    (c.updFail code).get F.UPDATE_STATUS_FAIL_CODE = code ∧ (c.updFail code).pend E.UPDATE_FAIL = true ∧ Holds updView updFields c (c.updFail code) := by
  unfold Chip.updFail
  refine ⟨?_, Chip.raise_pend _ _ (upd_hasPage _) (by decide), .raise (.set .refl)⟩
  rw [Chip.raise_get_of _ _ _ (by decide), Chip.get_set _ _ _ (by decide) (by decide)]
  exact Nat.mod_eq_of_lt h

theorem Holds.updCalm {Fs : List Fld} {c d : Chip} (h : Holds updView Fs c d) (k : Calm c) : Calm d :=
  Holds.calm (Fs := []) (h.weaken (ρ' := pathView) (fun v => (v.2.2.2.1, v.2.2.2.2)) (fun _ => rfl) (by simp)) k

theorem Chip.setUpdState_get (c : Chip) (st : Nat) (h : st < 16) : (c.setUpdState st).state updPage = st := by
  unfold Chip.setUpdState Chip.state
  rw [Chip.get_set_pg _ _ _ _ (by decide) (by decide)]
  exact Nat.mod_eq_of_lt h

/-! #### A restart of the Belfry keeps the session -/

/-- The fields that a restart of the Belfry leaves. -/
def restartFields : List Fld := [F.STATE.pg updPage, F.UPDATE_STATUS_TRIAL]

theorem Holds.programmingOver {c d : Chip} (h : Holds (fun x => x.aon.rollback) restartFields c d) : Holds (fun x => x.aon.rollback) restartFields c d.programmingOver :=
  .set (.set (.of h rfl rfl rfl))

theorem Holds.belfryDown (c : Chip) (k : Nat) : Holds (fun x => x.aon.rollback) restartFields c (c.belfryDown k) := by
  rw [Chip.belfryDown_eq]
  have hx : Holds (fun x => x.aon.rollback) restartFields c ((c.setUnlock false).setHalted false) := .cond (.set (.cond (.set .refl)))
  generalize (c.setUnlock false).setHalted false = x at hx ⊢
  have hf : Holds (fun x => x.aon.rollback) restartFields c x.belfryFill := .of hx rfl rfl rfl
  generalize x.belfryFill = y at hf ⊢
  have hi : Holds (fun x => x.aon.rollback) restartFields c y.interruptFlash := by
    rw [Chip.interruptFlash_eq]
    exact .programmingOver (((hf.flashOnly FlashOnly.refl.cutBlock).flashOnly (Chip.settingsCut_flashOnly _)).flashOnly (Chip.doseCut_flashOnly _))
  generalize y.interruptFlash = z at hi ⊢
  exact .bump (.set (.of hi rfl rfl rfl))

theorem Chip.belfryDown_down (c : Chip) (k : Nat) (hk : k < 16) : (c.belfryDown k).belfry.down = some k := (c.belfryDown_spec k hk).1.1

/-! #### The commands of UPDATE -/

theorem regAt_updCmd (b : Build) : ∃ d, regAt b F.UPDATE_CMD_OPEN.addr = .reg d ∧ (∀ v w, d.quiesceChange v w = false) ∧
    d.fields.filter (fun f => decide (f.acc = .rw)) = [] ∧ ∀ v k, k < 7 → d.store v (insBits 0 k k 1) = v := by
  cases b <;> exact ⟨_, rfl, fun _ _ => rfl, rfl, fun v k hk => by interval_cases k <;> rfl⟩

/-- What a block with the record of a command has of the one before. -/
structure CmdBlock (c x : Chip) : Prop where
  upd : x.upd = c.upd
  belfry : x.belfry = c.belfry
  build : x.build = c.build
  aon : x.aon = c.aon
  get : ∀ f ∈ F.UPDATE_STATUS_FAIL_CODE :: F.UPDATE_BLOCK_OFFSET_OFFSET :: F.UPDATE_BLOCK_LEN_LEN :: F.UPDATE_BULK_LEN :: updFields, x.get f = c.get f

/-- A command of UPDATE: its effect, on the block with the record. -/
theorem Chip.writeField_updCmd (c : Chip) (o : Origin) (f : Fld) (g : Chip → Chip) (hc : Calm c) (hf : f.addr = F.UPDATE_CMD_OPEN.addr) (hb : f.hi = f.lo)
    (h7 : f.lo < 7) (hact : ∀ x : Chip, x.updateCmd (insBits 0 f.lo f.lo 1) = g x) (hg : ∀ x, Calm x → Calm (g x)) :
    ∃ x : Chip, CmdBlock c x ∧ c.writeField o f 1 = (g x).noteMirror f.addr := by
  obtain ⟨d, hd, hq, hrw, hs⟩ := regAt_updCmd c.build
  obtain ⟨x, hx, -, he⟩ := Chip.writeField_strobe (o := o) (f := f) g (by rw [hf]; exact hd) (by rw [hf]; decide) hq hrw (by rw [hb]; exact fun v => hs v _ h7) hc
    (fun x old => by rw [hf, hb]; exact hact x) hg
  refine ⟨x, ⟨hx.part Chip.upd fun _ => rfl, hx.part Chip.belfry fun _ => rfl, hx.part Chip.build fun _ => rfl, hx.part Chip.aon fun _ => rfl, fun h hh => ?_⟩, he⟩
  have hall : ∀ h ∈ F.UPDATE_STATUS_FAIL_CODE :: F.UPDATE_BLOCK_OFFSET_OFFSET :: F.UPDATE_BLOCK_LEN_LEN :: F.UPDATE_BULK_LEN :: updFields,
      h.addr ≠ F.UPDATE_CMD_OPEN.addr ∧ eventReg h.addr = false ∧ h.addr ≠ F.DEVICE_CHANGE_LOST_COUNT.addr := by decide
  obtain ⟨h1, h2, h3⟩ := hall h hh
  exact hx.get h (by rw [hf]; exact h1) h2 h3

theorem Chip.noteMirror_upd (c : Chip) (a : Nat) : (c.noteMirror a).upd = c.upd := Chip.noteMirror_part c a Chip.upd (fun _ _ => rfl)

theorem Chip.noteMirror_belfry (c : Chip) (a : Nat) : (c.noteMirror a).belfry = c.belfry := Chip.noteMirror_part c a Chip.belfry (fun _ _ => rfl)

section
variable {s : State} {P : Chip → Prop}

/-- A command of UPDATE, shown on any block with its record. -/
theorem Completes.updCmd {i : Instr} (o : Origin) (f : Fld) (g : Chip → Chip) (he : exec i s = Machine.serveFor o s (fun c : Chip => c.writeField o f 1)) (hs : Runs s)
    (hc : Calm s.chip) (hact : ∀ x : Chip, x.updateCmd (insBits 0 f.lo f.lo 1) = g x) (hg : ∀ x, Calm x → Calm (g x)) (hp : ∀ x, CmdBlock s.chip x → P (g x))
    (hP : ∀ (y : Chip) m, P y → P (y.setMirror m)) (hf : f.addr = F.UPDATE_CMD_OPEN.addr := by rfl) (hb : f.hi = f.lo := by rfl) (h7 : f.lo < 7 := by decide) :
    Completes i s P := by
  refine .serveFor o _ he hs ?_
  obtain ⟨x, hx, e⟩ := s.chip.writeField_updCmd o f g hc hf hb h7 hact hg
  rw [e]
  rcases (g x).noteMirror_cases f.addr with h | ⟨m, h⟩ <;> rw [h]
  · exact hp x hx
  · exact hP _ m (hp x hx)

end

/-! #### OPEN, WRITE, VERIFY, ABORT (R376, R379) -/

theorem CmdBlock.state {c x : Chip} (h : CmdBlock c x) : x.state updPage = c.state updPage := h.get (F.STATE.pg updPage) (by decide)

theorem CmdBlock.onTrial {c x : Chip} (h : CmdBlock c x) : x.onTrial = c.onTrial := by
  rw [Chip.onTrial, Chip.on, h.get F.UPDATE_STATUS_TRIAL (by decide), Chip.onTrial, Chip.on]

theorem CmdBlock.otherSlot {c x : Chip} (h : CmdBlock c x) : x.otherSlot = c.otherSlot := by
  rw [Chip.otherSlot, Chip.runSlot, h.get F.UPDATE_STATUS_RUN_SLOT (by decide), Chip.otherSlot, Chip.runSlot]

/-- A field of a block that is followed. -/
theorem Holds.state {α : Type} {ρ : Chip → α} {Fs : List Fld} {c d : Chip} (h : Holds ρ Fs c d) (hF : F.STATE.pg updPage ∈ Fs := by decide) :
    d.state updPage = c.state updPage := h.get _ hF

theorem Chip.updFail_state (c : Chip) (code : Nat) (h : code < 8) : (c.updFail code).state updPage = c.state updPage := (c.updFail_spec code h).2.2.state

theorem Chip.updOpen_spec (c : Chip) :
    (if (c.state updPage = usIdle ∨ c.state updPage = usVerified ∨ c.state updPage = usFailed) ∧ c.onTrial = false then
      c.updOpen.state updPage = usErasing ∧ c.updOpen.get F.UPDATE_STAGED_VERSION_VERSION = 0 ∧
        ∀ k, k < 0x1000000 → c.updOpen.flashRead (c.otherSlot * 0x1000000 + k) 1 = [0xFF]
    else c.updOpen.state updPage = c.state updPage ∧ c.updOpen.get F.UPDATE_STATUS_FAIL_CODE = 1 ∧ c.updOpen.pend E.UPDATE_FAIL = true) ∧
      Holds pathView [] c c.updOpen := by
  have hcond : ((decide (c.state updPage = usIdle) || decide (c.state updPage = usVerified) || decide (c.state updPage = usFailed)) && !c.onTrial) = true ↔
      (c.state updPage = usIdle ∨ c.state updPage = usVerified ∨ c.state updPage = usFailed) ∧ c.onTrial = false := by simp [or_assoc]
  unfold Chip.updOpen
  dsimp only
  by_cases h : (c.state updPage = usIdle ∨ c.state updPage = usVerified ∨ c.state updPage = usFailed) ∧ c.onTrial = false
  · rw [if_pos h, if_pos (hcond.2 h)]
    have k1 : Holds updView [F.UPDATE_STATUS_RUN_SLOT] c ((c.setUpdState usErasing).set F.UPDATE_STAGED_VERSION_VERSION 0) := .set (.set .refl)
    have k2 : ((c.setUpdState usErasing).set F.UPDATE_STAGED_VERSION_VERSION 0).state updPage = usErasing := by
      rw [Chip.state, Chip.get_set_ne _ _ _ _ (by decide)]
      exact c.setUpdState_get _ (by decide)
    have k3 : ((c.setUpdState usErasing).set F.UPDATE_STAGED_VERSION_VERSION 0).get F.UPDATE_STAGED_VERSION_VERSION = 0 :=
      Chip.get_set _ _ _ (by decide) (by decide)
    generalize (c.setUpdState usErasing).set F.UPDATE_STAGED_VERSION_VERSION 0 = d at k1 k2 k3 ⊢
    have hslot : d.otherSlot = c.otherSlot := by rw [Chip.otherSlot, Chip.runSlot, k1.get F.UPDATE_STATUS_RUN_SLOT, Chip.otherSlot, Chip.runSlot]
    rw [hslot]
    have k4 := d.flashRead_erased (c.otherSlot * 0x1000000) 0x1000000
    have k5 : Holds pathView [F.STATE.pg updPage, F.UPDATE_STAGED_VERSION_VERSION] d (d.flashErase (c.otherSlot * 0x1000000) 0x1000000) :=
      Holds.refl.flashOnly FlashOnly.refl.erase
    generalize d.flashErase (c.otherSlot * 0x1000000) 0x1000000 = e at k4 k5 ⊢
    have k6 : Holds (fun x => (pathView x, x.belfry.flash)) [F.STATE.pg updPage, F.UPDATE_STAGED_VERSION_VERSION] e
        (e.logUpd 1 (e.get F.UPDATE_RUN_VERSION_VERSION)) := .logUpd .refl
    have k7 : (e.logUpd 1 (e.get F.UPDATE_RUN_VERSION_VERSION)).belfry.flash = e.belfry.flash := congrArg Prod.snd k6.view
    refine ⟨⟨?_, ?_, fun k hk => ?_⟩, ?_⟩
    · rw [k6.state, k5.state, k2]
    · rw [k6.get F.UPDATE_STAGED_VERSION_VERSION, k5.get F.UPDATE_STAGED_VERSION_VERSION, k3]
    · rw [Chip.flashRead, k7]
      exact k4 _ _ (by omega) (by omega)
    · exact ((k1.weaken (ρ' := pathView) (Fs' := []) (fun v => (v.2.2.2.1, v.2.2.2.2)) (fun _ => rfl) (by simp)).trans
        (k5.weaken (ρ' := pathView) (Fs' := []) id (fun _ => rfl) (by simp))).trans (k6.weaken (ρ' := pathView) (Fs' := []) Prod.fst (fun _ => rfl) (by simp))
  · rw [if_neg h, if_neg (fun e => h (hcond.1 e))]
    obtain ⟨h1, h2, h3⟩ := c.updFail_spec 1 (by decide)
    exact ⟨⟨h3.state, h1, h2⟩, h3.weaken (fun v => (v.2.2.2.1, v.2.2.2.2)) (fun _ => rfl) (by simp)⟩

theorem Chip.updWrite_spec (c : Chip) :
    (if c.state updPage ≠ usOpen ∨ c.on F.UPDATE_STATUS_BLOCK_BUSY = true then c.updWrite.get F.UPDATE_STATUS_FAIL_CODE = 1 ∧ c.updWrite.upd = c.upd
    else if 16711680 < c.get F.UPDATE_BLOCK_OFFSET_OFFSET + c.get F.UPDATE_BLOCK_LEN_LEN then
      c.updWrite.get F.UPDATE_STATUS_FAIL_CODE = 6 ∧ c.updWrite.upd = c.upd
    else c.updWrite.get F.UPDATE_STATUS_BLOCK_BUSY = 1 ∧ c.updWrite.upd.index = 0 ∧
      c.updWrite.upd.writing = some (c.get F.UPDATE_BLOCK_OFFSET_OFFSET, c.get F.UPDATE_BLOCK_LEN_LEN, c.upd.block)) ∧ Holds pathView [] c c.updWrite := by
  have hfail : ∀ code < 8, (c.updFail code).get F.UPDATE_STATUS_FAIL_CODE = code ∧ (c.updFail code).upd = c.upd ∧ Holds pathView [] c (c.updFail code) := fun code h => by
    obtain ⟨h1, -, h3⟩ := c.updFail_spec code h
    exact ⟨h1, congrArg Prod.fst h3.view, h3.weaken (fun v => (v.2.2.2.1, v.2.2.2.2)) (fun _ => rfl) (by simp)⟩
  have hcond : (decide (c.state updPage ≠ usOpen) || c.on F.UPDATE_STATUS_BLOCK_BUSY) = true ↔
      c.state updPage ≠ usOpen ∨ c.on F.UPDATE_STATUS_BLOCK_BUSY = true := by simp
  unfold Chip.updWrite
  by_cases h : c.state updPage ≠ usOpen ∨ c.on F.UPDATE_STATUS_BLOCK_BUSY = true
  · obtain ⟨h1, h2, h3⟩ := hfail 1 (by decide)
    rw [if_pos h, if_pos (hcond.2 h)]
    exact ⟨⟨h1, h2⟩, h3⟩
  · rw [if_neg h, if_neg (fun e => h (hcond.1 e))]
    by_cases hr : 16711680 < c.get F.UPDATE_BLOCK_OFFSET_OFFSET + c.get F.UPDATE_BLOCK_LEN_LEN
    · obtain ⟨h1, h2, h3⟩ := hfail 6 (by decide)
      rw [if_pos hr, if_pos hr]
      exact ⟨⟨h1, h2⟩, h3⟩
    · rw [if_neg hr, if_neg hr]
      exact ⟨⟨Chip.get_set c F.UPDATE_STATUS_BLOCK_BUSY 1 (by decide) (by decide), rfl, rfl⟩, .setUpd (.set .refl)⟩

theorem Chip.updVerify_spec (c : Chip) :
    (if c.state updPage = usOpen then c.updVerify.state updPage = usVerifying
    else c.updVerify.state updPage = c.state updPage ∧ c.updVerify.get F.UPDATE_STATUS_FAIL_CODE = 1) ∧ Holds pathView [] c c.updVerify := by
  unfold Chip.updVerify
  split
  · exact ⟨c.setUpdState_get _ (by decide), .set .refl⟩
  · obtain ⟨h1, -, h3⟩ := c.updFail_spec 1 (by decide)
    exact ⟨⟨h3.state, h1⟩, h3.weaken (fun v => (v.2.2.2.1, v.2.2.2.2)) (fun _ => rfl) (by simp)⟩

theorem Chip.updAbort_spec (c : Chip) :
    (if c.state updPage = usOpen ∨ c.state updPage = usFailed then c.updAbort.state updPage = usIdle
    else c.updAbort.state updPage = c.state updPage ∧ c.updAbort.get F.UPDATE_STATUS_FAIL_CODE = 1) ∧ Holds pathView [] c c.updAbort := by
  unfold Chip.updAbort
  by_cases h : c.state updPage = usOpen ∨ c.state updPage = usFailed
  · rw [if_pos h, if_pos (by simpa using h)]
    exact ⟨c.setUpdState_get _ (by decide), .setUpd (.set .refl)⟩
  · rw [if_neg h, if_neg (by simpa using h)]
    obtain ⟨h1, -, h3⟩ := c.updFail_spec 1 (by decide)
    exact ⟨⟨h3.state, h1⟩, h3.weaken (fun v => (v.2.2.2.1, v.2.2.2.2)) (fun _ => rfl) (by simp)⟩

/-! #### ACTIVATE and CONFIRM (R380 to R382) -/

theorem Holds.logTakeEvent {c : Chip} : Holds pathView [F.STATE.pg updPage] c c.logTakeEvent := by
  unfold Chip.logTakeEvent
  split
  · exact .logAdd (.of .refl rfl rfl rfl)
  · exact .logAdd (.of .refl rfl rfl rfl)
  · exact .refl

theorem Holds.logTake {c : Chip} : Holds pathView [F.STATE.pg updPage] c c.logTake := by
  have h : Holds pathView [F.STATE.pg updPage] c c.logTakeEvent := .logTakeEvent
  rw [Chip.logTake_eq]
  generalize c.logTakeEvent = d at h ⊢
  unfold Chip.logTakeChange
  split
  · exact .logAdd (.of h rfl rfl rfl)
  · exact h

theorem Holds.logProgram {c : Chip} {r : LogRec} : Holds pathView [F.STATE.pg updPage] c (c.logProgram r) := by
  unfold Chip.logProgram
  dsimp only
  have h : Holds pathView [F.STATE.pg updPage] c
      (if c.belfry.logPos % 2048 = 0 then c.flashErase (logBase + (c.belfry.logPos / 2048 + 1) % 256 * 65536) 65536 else c) :=
    .ite (Holds.refl.flashOnly FlashOnly.refl.erase) .refl
  generalize (if c.belfry.logPos % 2048 = 0 then c.flashErase (logBase + (c.belfry.logPos / 2048 + 1) % 256 * 65536) 65536 else c) = d at h ⊢
  exact .set (.setBelfry (h.flashOnly FlashOnly.refl.program))

theorem Holds.logFlush {c : Chip} : Holds pathView [F.STATE.pg updPage] c c.logFlush := by
  unfold Chip.logFlush
  have h : Holds pathView [F.STATE.pg updPage] c c.logDrain := Holds.foldl .refl fun x _ _ => .logTake
  dsimp only
  generalize c.logDrain = d at h ⊢
  have h2 : Holds pathView [F.STATE.pg updPage] c (d.belfry.logBuf.foldl Chip.logProgram (d.setBelfry { d.belfry with logBuf := [] })) :=
    Holds.foldl (.setBelfry h) fun x _ _ => .logProgram
  exact .ite h2 (.set h2)

theorem Chip.updActivate_spec (c : Chip) :
    (if c.state updPage = usVerified then c.updActivate.state updPage = usActivating ∧ c.updActivate.belfry.down = some 4
    else c.updActivate.state updPage = c.state updPage ∧ c.updActivate.get F.UPDATE_STATUS_FAIL_CODE = 1 ∧ c.updActivate.belfry.down = c.belfry.down) ∧
      (Calm c → Calm c.updActivate) := by
  unfold Chip.updActivate
  by_cases h : c.state updPage = usVerified
  · rw [if_pos h, if_neg (not_not.2 h)]
    dsimp only
    have h1 : (c.setUpdState usActivating).state updPage = usActivating := c.setUpdState_get _ (by decide)
    have k1 : Holds pathView [] c (c.setUpdState usActivating) := .set .refl
    generalize c.setUpdState usActivating = d at h1 k1 ⊢
    have k2 : Holds pathView [F.STATE.pg updPage] d (d.logUpd 4 (imgVersion (d.slotRd c.otherSlot))) := .logUpd .refl
    generalize d.logUpd 4 (imgVersion (d.slotRd c.otherSlot)) = e at k2 ⊢
    have k3 : Holds pathView [F.STATE.pg updPage] d (e.logFlush.slotAppend c.otherSlot slTrial) := (k2.trans .logFlush).slotAppend
    generalize e.logFlush.slotAppend c.otherSlot slTrial = f at k3 ⊢
    have k4 : Holds pathView [F.STATE.pg updPage] d (if imgTablesId (f.slotRd c.otherSlot) = f.upd.tablesId then f else f.tableHold) := .ite k3 (.setUpd k3)
    generalize (if imgTablesId (f.slotRd c.otherSlot) = f.upd.tablesId then f else f.tableHold) = g at k4 ⊢
    exact ⟨⟨(Holds.belfryDown g 4).state.trans (k4.state.trans h1), g.belfryDown_down 4 (by decide)⟩,
      fun hc => ((k1.trans (k4.weaken (Fs' := []) id (fun _ => rfl) (by simp))).calm hc).belfryDown 4⟩
  · rw [if_neg h, if_pos h]
    obtain ⟨h1, -, h3⟩ := c.updFail_spec 1 (by decide)
    have hb : (c.updFail 1).belfry = c.belfry := congrArg (fun v => v.2.1) h3.view
    exact ⟨⟨h3.state, h1, by rw [hb]⟩, fun hc => h3.updCalm hc⟩

theorem Chip.updConfirm_spec (c : Chip) :
    (c.updConfirm.onTrial = false ∧ (c.onTrial = true → c.updConfirm.raw E.UPDATE_TRIAL = false)) ∧ Holds pathView [] c c.updConfirm := by
  unfold Chip.updConfirm
  by_cases h : c.onTrial = true
  · rw [if_neg (by rw [h]; decide)]
    have k1 : Holds pathView [] c (c.slotAppend c.runSlot slConfirmed) := .slotAppend .refl
    dsimp only
    generalize c.slotAppend c.runSlot slConfirmed = d at k1 ⊢
    have h2 : ((d.set F.UPDATE_STATUS_TRIAL 0).cond E.UPDATE_TRIAL false).get F.UPDATE_STATUS_TRIAL = 0 := by
      rw [Chip.cond_get_of _ _ _ _ (by decide) (by decide)]
      exact Chip.get_set d F.UPDATE_STATUS_TRIAL 0 (by decide) (by decide)
    have h3 : ((d.set F.UPDATE_STATUS_TRIAL 0).cond E.UPDATE_TRIAL false).raw E.UPDATE_TRIAL = false := Chip.cond_raw_self _ _ _ (by decide)
    have k2 : Holds pathView [] c ((d.set F.UPDATE_STATUS_TRIAL 0).cond E.UPDATE_TRIAL false) := .cond (.set k1)
    generalize (d.set F.UPDATE_STATUS_TRIAL 0).cond E.UPDATE_TRIAL false = e at h2 h3 k2 ⊢
    have k3 : Holds pathView [F.UPDATE_STATUS_TRIAL] e (e.set F.SETTINGS_STATUS_MIGRATED 0) := .set .refl
    have r3 : Keeps (fun _ => ()) [] [E.UPDATE_TRIAL] e (e.set F.SETTINGS_STATUS_MIGRATED 0) := .set .refl
    generalize e.set F.SETTINGS_STATUS_MIGRATED 0 = f at k3 r3 ⊢
    have k4 := k3.logUpd (code := 5) (detail := e.get F.UPDATE_RUN_VERSION_VERSION)
    have r4 : Keeps (fun _ => ()) [] [E.UPDATE_TRIAL] e (f.logUpd 5 (e.get F.UPDATE_RUN_VERSION_VERSION)) := by
      unfold Chip.logUpd Chip.logNow Chip.logAdd
      exact .ite (.setBelfry r3) (.raise (.bumpSat r3))
    exact ⟨⟨Chip.on_eq_false ((k4.get F.UPDATE_STATUS_TRIAL).trans h2), fun _ => (r4.raw _ (List.mem_singleton_self _)).trans h3⟩,
      k2.trans (k4.weaken (Fs' := []) id (fun _ => rfl) (by simp))⟩
  · have h : c.onTrial = false := by simpa using h
    rw [if_pos (by rw [h]; decide)]
    exact ⟨⟨h, fun e => absurd (e.symm.trans h) (by decide)⟩, .refl⟩

theorem Chip.bulkSend_spec (c : Chip) (hS : c.build = .S) (hb : c.on F.UPDATE_STATUS_BULK_BUSY = false) (hl : c.get F.UPDATE_BULK_LEN ≠ 0) :
    c.bulkSend.get F.UPDATE_STATUS_BULK_BUSY = 1 ∧ c.bulkSend.upd.bulkOfs = 0 := by
  unfold Chip.bulkSend
  rw [hS]
  dsimp only
  rw [if_neg (by rw [hb]; decide), if_neg hl]
  exact ⟨Chip.get_set c F.UPDATE_STATUS_BULK_BUSY 1 (by decide) (by decide), rfl⟩

theorem Calm.bulkSend {c : Chip} (h : Calm c) : Calm c.bulkSend := by
  unfold Chip.bulkSend
  split
  · exact h
  · split
    · exact (c.updFail_spec 1 (by decide)).2.2.updCalm h
    · split
      · exact h
      · exact Holds.calm (Fs := []) (.setUpd (.set .refl)) h

/-! #### BLOCK_DATA (R377) -/

theorem regAt_blockData (b : Build) : ∃ d, regAt b F.UPDATE_BLOCK_DATA_DATA.addr = .reg d ∧ ∀ v w, d.quiesceChange v w = false := by
  cases b <;> exact ⟨_, rfl, fun _ _ => rfl⟩

theorem Calm.blockData {c : Chip} (h : Calm c) (w : Word) : Calm (c.blockData w) := by
  unfold Chip.blockData
  split
  · exact h
  · exact h

/-- A word of the block that is being gathered. -/
theorem Chip.write32_blockData (c : Chip) (o : Origin) (w : Word) (hc : Calm c) (hi : c.upd.index < 1024) :
    let t := c.write32 o F.UPDATE_BLOCK_DATA_DATA.addr w
    smGet 0 t.upd.block c.upd.index = w ∧ t.upd.index = c.upd.index + 1 := by
  obtain ⟨d, hd, hq⟩ := regAt_blockData c.build
  obtain ⟨x, hx, -, he⟩ := Chip.write32_recorded (o := o) (w := w) hd (by decide) (hq _ _) hc (fun x h => h.blockData w)
  change c.write32 o F.UPDATE_BLOCK_DATA_DATA.addr w = (x.blockData w).noteMirror _ at he
  have hu : x.upd = c.upd := hx.part Chip.upd fun _ => rfl
  dsimp only
  rw [he, Chip.noteMirror_upd, Chip.blockData, hu, if_pos hi]
  exact ⟨(smGet_smSet _ _ _ _ _).trans (if_pos rfl), rfl⟩

theorem logPage_hasPage (c : Chip) : c.hasPage 0x0F2 = true := by unfold Chip.hasPage; cases c.build <;> decide +kernel

theorem Holds.wr {α : Type} {ρ : Chip → α} {Fs : List Fld} {c d : Chip} {a : Nat} {w : Word} (h : Holds ρ Fs c d)
    (hF : Fs.all (fun g => decide (g.addr ≠ a)) = true := by decide) (hf : plainReg a = true := by decide) : Holds ρ Fs c (d.wr a w) := by
  have hno : a ∉ Fs.map Fld.addr := fun hm => by
    obtain ⟨g, hg, e⟩ := List.mem_map.1 hm
    exact of_decide_eq_true (List.all_eq_true.1 hF g hg) e
  have k : Keeps ρ (Fs.map Fld.addr) [] d (d.wr a w) := Keeps.refl.wr hno hf
  exact h.trans ⟨k.view, k.build, fun f hf => k.get f (List.mem_map_of_mem hf), k.ctrls, k.pend⟩

/-! #### The erase, a block, the check of the image (R376 to R379) -/

theorem Chip.updErased_done (c : Chip) (hst : c.state updPage = usErasing) (hup : c.belfryUp = true) :
    let t := c.updErased true
    t.state updPage = usOpen ∧ t.upd.programmed = [] ∧ t.get F.UPDATE_PAGES_PAGES = 0 ∧ t.belfry.flash = c.belfry.flash := by
  unfold Chip.updErased
  rw [if_neg (by simp [hst, hup]), if_neg (by decide)]
  dsimp only
  generalize hd : c.setUpd _ = d
  have h0 : d.upd.programmed = [] ∧ d.belfry.flash = c.belfry.flash := by
    rw [← hd]
    exact ⟨rfl, rfl⟩
  have h1 : (d.set F.UPDATE_PAGES_PAGES 0).get F.UPDATE_PAGES_PAGES = 0 := Chip.get_set _ _ _ (by decide) (by decide)
  generalize he : d.set F.UPDATE_PAGES_PAGES 0 = e at h1
  have k1 : Holds (fun x => (x.upd, x.belfry)) [F.UPDATE_PAGES_PAGES] e ((e.wr F.UPDATE_MISSING_COUNT.addr 0).setUpdState usOpen) := .set (.wr .refl)
  have v1 : ((e.wr F.UPDATE_MISSING_COUNT.addr 0).setUpdState usOpen).upd = e.upd := congrArg Prod.fst k1.view
  have v2 : ((e.wr F.UPDATE_MISSING_COUNT.addr 0).setUpdState usOpen).belfry = e.belfry := congrArg Prod.snd k1.view
  refine ⟨Chip.setUpdState_get _ _ (by decide), ?_, (k1.get F.UPDATE_PAGES_PAGES).trans h1, ?_⟩
  · rw [v1, ← he]
    exact h0.1
  · rw [v2, ← he]
    exact h0.2

/-- The flash fails while it is erased or programmed. -/
theorem Chip.updFlashErr_spec (c : Chip) :
    let t := ((c.setUpdState usFailed).raise E.FLASH_ERR).updFail 5
    t.state updPage = usFailed ∧ t.get F.UPDATE_STATUS_FAIL_CODE = 5 ∧ t.pend E.FLASH_ERR = true ∧ t.belfry.flash = c.belfry.flash ∧
      t.get F.UPDATE_STATUS_BLOCK_BUSY = c.get F.UPDATE_STATUS_BLOCK_BUSY := by
  dsimp only
  have h1 := c.setUpdState_get usFailed (by decide)
  have k1 : Holds updView [F.UPDATE_STATUS_BLOCK_BUSY] c (c.setUpdState usFailed) := .set .refl
  generalize c.setUpdState usFailed = d at h1 k1 ⊢
  have h2 : (d.raise E.FLASH_ERR).pend E.FLASH_ERR = true := Chip.raise_pend _ _ (logPage_hasPage _) (by decide)
  have k2 : Holds updView updFields d (d.raise E.FLASH_ERR) := .raise .refl
  generalize d.raise E.FLASH_ERR = e at h2 k2 ⊢
  obtain ⟨f1, -, k3⟩ := e.updFail_spec 5 (by decide)
  have hb : (e.updFail 5).belfry = c.belfry := congrArg (fun v => v.2.1) (k3.view.trans (k2.view.trans k1.view))
  exact ⟨k3.state.trans (k2.state.trans h1), f1, k3.pend _ h2, congrArg BelfrySt.flash hb,
    (k3.get F.UPDATE_STATUS_BLOCK_BUSY).trans ((k2.get F.UPDATE_STATUS_BLOCK_BUSY).trans (k1.get F.UPDATE_STATUS_BLOCK_BUSY))⟩

theorem Chip.updErased_failed (c : Chip) (hst : c.state updPage = usErasing) (hup : c.belfryUp = true) :
    let t := c.updErased false
    t.state updPage = usFailed ∧ t.get F.UPDATE_STATUS_FAIL_CODE = 5 ∧ t.pend E.FLASH_ERR = true ∧ t.belfry.flash = c.belfry.flash := by
  unfold Chip.updErased
  rw [if_neg (by simp [hst, hup]), if_pos (by decide)]
  obtain ⟨h1, h2, h3, h4, -⟩ := c.updFlashErr_spec
  exact ⟨h1, h2, h3, h4⟩

/-- What the pages of a block leave of the session. -/
def stageFields : List Fld := [F.STATE.pg updPage, F.UPDATE_STATUS_BLOCK_BUSY, F.UPDATE_STATUS_RUN_SLOT]

theorem Chip.stagePage_holds (c : Chip) (page : Nat) (l : List Byte) : Holds (fun x => x.upd.writing) stageFields c (c.stagePage page l) := by
  unfold Chip.stagePage
  dsimp only
  refine .ite .refl ?_
  have h : Holds (fun x => x.upd.writing) stageFields c (c.flashProgram (c.otherSlot * 0x1000000 + 256 * page) l) := Holds.refl.flashOnly FlashOnly.refl.program
  generalize c.flashProgram (c.otherSlot * 0x1000000 + 256 * page) l = d at h ⊢
  exact .bump (.setUpd h)

theorem Holds.otherSlot {α : Type} {ρ : Chip → α} {Fs : List Fld} {c d : Chip} (h : Holds ρ Fs c d) (hF : F.UPDATE_STATUS_RUN_SLOT ∈ Fs := by decide) :
    d.otherSlot = c.otherSlot := by rw [Chip.otherSlot, Chip.runSlot, h.get F.UPDATE_STATUS_RUN_SLOT hF, Chip.otherSlot, Chip.runSlot]

/-- A page staged is in the flash, and counted. -/
theorem Chip.stagePage_spec (c : Chip) (page : Nat) (l : List Byte) (hp : smGet false c.upd.programmed page = false) (hl : l.length = 256) :
    smGet false (c.stagePage page l).upd.programmed page = true ∧ (c.stagePage page l).flashRead (c.otherSlot * 0x1000000 + 256 * page) 256 = l := by
  unfold Chip.stagePage
  rw [hp, if_neg (by decide)]
  exact ⟨(smGet_smSet _ _ _ _ _).trans (if_pos rfl), c.flashRead_program_same _ _ _ hl⟩

/-- A page staged leaves every other as it was. -/
theorem Chip.stagePage_apart (c : Chip) (page k : Nat) (l : List Byte) (hk : k ≠ page) (hl : l.length = 256) :
    smGet false (c.stagePage page l).upd.programmed k = smGet false c.upd.programmed k ∧
      (c.stagePage page l).flashRead (c.otherSlot * 0x1000000 + 256 * k) 256 = c.flashRead (c.otherSlot * 0x1000000 + 256 * k) 256 := by
  unfold Chip.stagePage
  split
  · exact ⟨rfl, rfl⟩
  · exact ⟨(smGet_smSet _ _ _ _ _).trans (if_neg hk), c.flashRead_program_apart _ _ _ _ (by omega)⟩

/-- A page of a block, as it is sent. -/
def blockPage (block : SMap Word) (i : Nat) : List Byte := (List.range 64).flatMap (fun k => leBytes 4 (smGet 0 block (64 * i + k)).toNat)

theorem blockPage_length (block : SMap Word) (i : Nat) : (blockPage block i).length = 256 := by
  rw [blockPage, length_flatMap_leBytes]

/-- The pages of a block, from the first. -/
theorem Chip.stagePages_spec (c : Chip) (page n : Nat) (block : SMap Word) :
    let t := (List.range n).foldl (fun c i => c.stagePage (page + i) (blockPage block i)) c
    Holds (fun x => x.upd.writing) stageFields c t ∧
      (0 < n → smGet false c.upd.programmed page = false →
        smGet false t.upd.programmed page = true ∧ t.flashRead (c.otherSlot * 0x1000000 + 256 * page) 256 = blockPage block 0) := by
  refine ⟨Holds.foldl .refl fun x i _ => x.stagePage_holds _ _, fun hn hp => ?_⟩
  obtain ⟨m, rfl⟩ : ∃ m, n = m + 1 := ⟨n - 1, by omega⟩
  rw [List.range_succ_eq_map, List.foldl_cons]
  obtain ⟨h1, h2⟩ := c.stagePage_spec page (blockPage block 0) hp (blockPage_length block 0)
  have h3 := (c.stagePage_holds page (blockPage block 0)).otherSlot
  generalize c.stagePage page (blockPage block 0) = d at h1 h2 h3
  have hk := foldl_rel (fun x y => y.otherSlot = x.otherSlot ∧ smGet false y.upd.programmed page = smGet false x.upd.programmed page ∧
      y.flashRead (x.otherSlot * 0x1000000 + 256 * page) 256 = x.flashRead (x.otherSlot * 0x1000000 + 256 * page) 256)
    (fun _ => ⟨rfl, rfl, rfl⟩) (fun {x y z} ⟨a1, a2, a3⟩ ⟨b1, b2, b3⟩ => ⟨b1.trans a1, b2.trans a2, by rw [← a1, b3, a1, a3]⟩) id
    (fun c i => c.stagePage (page + i) (blockPage block i)) ((List.range m).map Nat.succ)
    (fun x i hi => by
      obtain ⟨j, -, rfl⟩ := List.mem_map.1 hi
      obtain ⟨a1, a2⟩ := x.stagePage_apart (page + j.succ) page (blockPage block j.succ) (by omega) (blockPage_length block _)
      exact ⟨(x.stagePage_holds _ _).otherSlot, a1, a2⟩) d
  obtain ⟨-, k2, k3⟩ := hk
  exact ⟨k2.trans h1, by rw [← h3]; exact k3.trans (h3 ▸ h2)⟩

theorem Chip.showMissing_holds (c : Chip) : Holds (fun x => (x.upd, x.belfry)) stageFields c c.showMissing := by
  unfold Chip.showMissing
  exact .ite (.set (.set .refl)) .refl

/-- A block that is programmed. -/
theorem Chip.blockDone_done (c : Chip) (ofs len : Nat) (block : SMap Word) (hup : c.belfryUp = true) (hw : c.upd.writing = some (ofs, len, block)) :
    let t := c.blockDone true
    t.on F.UPDATE_STATUS_BLOCK_BUSY = false ∧ t.state updPage = c.state updPage ∧ t.upd.writing = none ∧
      (256 ≤ len → smGet false c.upd.programmed (ofs / 256) = false →
        smGet false t.upd.programmed (ofs / 256) = true ∧ t.flashRead (c.otherSlot * 0x1000000 + 256 * (ofs / 256)) 256 = blockPage block 0) := by
  unfold Chip.blockDone
  rw [if_neg (by simp [hup]), hw]
  dsimp only
  rw [if_neg (by decide)]
  have k0 : Holds (fun _ => ()) [F.STATE.pg updPage, F.UPDATE_STATUS_RUN_SLOT] c
      ((c.set F.UPDATE_STATUS_BLOCK_BUSY 0).setUpd { c.upd with writing := none }) := .setUpd (.set .refl)
  have h0 : ((c.set F.UPDATE_STATUS_BLOCK_BUSY 0).setUpd { c.upd with writing := none }).get F.UPDATE_STATUS_BLOCK_BUSY = 0 :=
    Chip.get_set c _ _ (by decide) (by decide)
  have u0 : ((c.set F.UPDATE_STATUS_BLOCK_BUSY 0).setUpd { c.upd with writing := none }).upd = { c.upd with writing := none } := rfl
  generalize ((c.set F.UPDATE_STATUS_BLOCK_BUSY 0).setUpd { c.upd with writing := none }) = d at k0 h0 u0
  obtain ⟨k1, k2⟩ := d.stagePages_spec (ofs / 256) (len / 256) block
  have hfold : (List.range (len / 256)).foldl (fun c i => c.stagePage (ofs / 256 + i)
        ((List.range 64).flatMap (fun k => leBytes 4 (smGet 0 block (64 * i + k)).toNat))) d =
      (List.range (len / 256)).foldl (fun c i => c.stagePage (ofs / 256 + i) (blockPage block i)) d := rfl
  rw [hfold]
  generalize ((List.range (len / 256)).foldl (fun c i => c.stagePage (ofs / 256 + i) (blockPage block i)) d) = e at k1 k2 ⊢
  have k3 := e.showMissing_holds
  have v1 : e.showMissing.upd = e.upd := congrArg Prod.fst k3.view
  have v2 : e.showMissing.belfry = e.belfry := congrArg Prod.snd k3.view
  have v3 : e.upd.writing = d.upd.writing := k1.view
  refine ⟨Chip.on_eq_false ((k3.get F.UPDATE_STATUS_BLOCK_BUSY).trans ((k1.get F.UPDATE_STATUS_BLOCK_BUSY).trans h0)), k3.state.trans (k1.state.trans k0.state), ?_,
    fun hlen hp => ?_⟩
  · rw [v1, v3, u0]
  · rw [v1, Chip.flashRead, v2, ← k0.otherSlot]
    exact k2 (by omega) (by rw [u0]; exact hp)

/-- A block that the flash does not take. -/
theorem Chip.blockDone_failed (c : Chip) (ofs len : Nat) (block : SMap Word) (hup : c.belfryUp = true) (hw : c.upd.writing = some (ofs, len, block)) :
    let t := c.blockDone false
    t.on F.UPDATE_STATUS_BLOCK_BUSY = false ∧ t.state updPage = usFailed ∧ t.get F.UPDATE_STATUS_FAIL_CODE = 5 ∧ t.belfry.flash = c.belfry.flash := by
  unfold Chip.blockDone
  rw [if_neg (by simp [hup]), hw]
  dsimp only
  rw [if_pos (by decide)]
  obtain ⟨h1, h2, -, h4, h5⟩ := ((c.set F.UPDATE_STATUS_BLOCK_BUSY 0).setUpd { c.upd with writing := none }).updFlashErr_spec
  exact ⟨Chip.on_eq_false (h5.trans (Chip.get_set c _ _ (by decide) (by decide))), h1, h2, h4⟩

theorem imgCheck_lt (b : Build) (r : ImageRd) : imgCheck b r < 8 := by
  unfold imgCheck
  split
  · decide
  · split
    · decide
    · split <;> decide

/-- The answer of VERIFY. -/
theorem Chip.verifyDone_spec (c : Chip) (ok : Bool) (hst : c.state updPage = usVerifying) (hup : c.belfryUp = true) :
    let t := c.verifyDone ok
    let code := if ok then imgCheck c.build (c.slotRd c.otherSlot) else 5
    t.get F.UPDATE_STATUS_FAIL_CODE = code ∧ t.state updPage = (if code = 0 then usVerified else usFailed) ∧
      (code = 0 → t.pend E.UPDATE_READY = true) ∧ (code ≠ 0 → t.pend E.UPDATE_FAIL = true) := by
  unfold Chip.verifyDone
  rw [if_neg (by simp [hst, hup])]
  dsimp only
  have hcode : (if ok then imgCheck c.build (c.slotRd c.otherSlot) else 5) < 8 := by
    split
    · exact imgCheck_lt _ _
    · decide
  generalize (if ok then imgCheck c.build (c.slotRd c.otherSlot) else 5) = code at hcode ⊢
  generalize imgVersion (c.slotRd c.otherSlot) = v
  by_cases h0 : code = 0
  · rw [if_pos h0, if_pos h0]
    generalize (c.slotAppend c.otherSlot slStaged).set F.UPDATE_STAGED_VERSION_VERSION v = d
    have h1 : ((d.set F.UPDATE_STATUS_FAIL_CODE 0).setUpdState usVerified).get F.UPDATE_STATUS_FAIL_CODE = 0 := by
      unfold Chip.setUpdState
      rw [Chip.get_set_ne _ _ _ _ (by decide)]
      exact Chip.get_set _ _ _ (by decide) (by decide)
    have h2 := (d.set F.UPDATE_STATUS_FAIL_CODE 0).setUpdState_get usVerified (by decide)
    generalize (d.set F.UPDATE_STATUS_FAIL_CODE 0).setUpdState usVerified = e at h1 h2 ⊢
    have k : Holds (fun _ => ()) [F.STATE.pg updPage, F.UPDATE_STATUS_FAIL_CODE] e ((e.logUpd 2 v).raise E.UPDATE_READY) := .raise (.logUpd .refl)
    exact ⟨(k.get F.UPDATE_STATUS_FAIL_CODE).trans (h1.trans h0.symm), k.state.trans h2, fun _ => Chip.raise_pend _ _ (upd_hasPage _) (by decide),
      fun h => absurd h0 h⟩
  · rw [if_neg h0, if_neg h0]
    generalize (if code = 5 then c.raise E.FLASH_ERR else c) = d
    have h2 := d.setUpdState_get usFailed (by decide)
    generalize d.setUpdState usFailed = e at h2 ⊢
    have k : Holds (fun _ => ()) [F.STATE.pg updPage] e (e.logUpd 3 v) := .logUpd .refl
    obtain ⟨f1, f2, f3⟩ := (e.logUpd 3 v).updFail_spec code hcode
    exact ⟨f1, f3.state.trans (k.state.trans h2), fun h => absurd h h0, fun _ => f2⟩

/-! #### The trial that runs out (R382) -/

theorem Chip.confirmExpire_spec (c : Chip) (ht : c.onTrial = true) (hup : c.belfryUp = true) :
    c.confirmExpire.onTrial = false ∧ c.confirmExpire.aon.rollback = true ∧ c.confirmExpire.belfry.down = some 4 := by
  unfold Chip.confirmExpire
  rw [if_neg (by simp [ht, hup])]
  dsimp only
  generalize c.slotAppend c.runSlot slRejected = d
  have h0 : ({ d with aon := { d.aon with rollback := true } } : Chip).aon.rollback = true := rfl
  generalize ({ d with aon := { d.aon with rollback := true } } : Chip) = e at h0 ⊢
  have h1 : ((e.set F.UPDATE_STATUS_TRIAL 0).cond E.UPDATE_TRIAL false).get F.UPDATE_STATUS_TRIAL = 0 := by
    rw [Chip.cond_get_of _ _ _ _ (by decide) (by decide)]
    exact Chip.get_set e F.UPDATE_STATUS_TRIAL 0 (by decide) (by decide)
  have k1 : Holds (fun x => x.aon.rollback) [] e ((e.set F.UPDATE_STATUS_TRIAL 0).cond E.UPDATE_TRIAL false) := .cond (.set .refl)
  generalize (e.set F.UPDATE_STATUS_TRIAL 0).cond E.UPDATE_TRIAL false = f at h1 k1 ⊢
  have k2 := Holds.belfryDown f 4
  exact ⟨Chip.on_eq_false ((k2.get F.UPDATE_STATUS_TRIAL).trans h1), k2.view.trans (k1.view.trans h0), f.belfryDown_down 4 (by decide)⟩

/-! #### BULK (R377) -/

theorem Holds.dramRead {α : Type} {ρ : Chip → α} {Fs : List Fld} {c d : Chip} {m a n : Nat} (h : Holds ρ Fs c d)
    (hρ : ∀ (x : Chip) m r n, ρ { x.still with mem := m, mirror := r, free := n } = ρ x := by intros; rfl)
    (hF : Fs.all (fun g => quietReg g.addr) = true := by decide) : Holds ρ Fs c (d.dramRead m a n).2 := by
  have k := DramOnly.dramRead d m a n
  have hst : ∀ x : Chip, ρ x.still = ρ x := fun x => hρ x x.mem x.mirror x.free
  exact h.trans ⟨by rw [hst, hst]; exact k.part ρ hρ, k.build, fun f hf => k.get f (List.all_eq_true.1 hF f hf), k.ctrls, k.pend⟩

/-- What a cell of BULK sends to the ports that SESSION names. -/
def Chip.bulkTo (c : Chip) (ports : List Nat) (cell : Nat) : Chip :=
  ports.foldl (fun c p =>
    if c.tilePort p && c.portCarries p then
      let x := c.withSeq p cell
      x.2.setPort p { x.2.port p with qBulk := (x.2.port p).qBulk ++ [x.1] }
    else c) c

theorem Holds.bulkTo {α : Type} {ρ : Chip → α} {Fs : List Fld} {c d : Chip} {ports : List Nat} {cell : Nat} (h : Holds ρ Fs c d)
    (hρ : ∀ (x : Chip) ps, ρ { x with ports := ps }.still = ρ x.still := by intros; rfl) : Holds ρ Fs c (d.bulkTo ports cell) := by
  have hp : ∀ {x y : Chip} {p : Nat} {s : PortSt}, Holds ρ Fs x y → Holds ρ Fs x (y.setPort p s) := fun k => k.of (hρ _ _) rfl rfl
  refine .foldl h fun x p _ => ?_
  unfold Chip.withSeq
  exact .ite (hp (hp .refl)) .refl

/-- The BULK transmitter is done when it has read all, and no port has a cell of it. -/
theorem Chip.bulkSettled_spec (c : Chip) (hb : c.on F.UPDATE_STATUS_BULK_BUSY = true) :
    c.bulkSettled.upd = c.upd ∧ (c.bulkSettled.on F.UPDATE_STATUS_BULK_BUSY = true ↔
      c.upd.bulkOfs < c.get F.UPDATE_BULK_LEN ∨ ∃ p, p < 16 ∧ (c.bulkSettled.port p).qBulk ≠ []) := by
  have hall : (List.range 16).all (fun p => (c.port p).qBulk.isEmpty) = true ↔ ∀ p < 16, (c.port p).qBulk = [] := by
    simp [List.all_eq_true]
  unfold Chip.bulkSettled
  rw [hb, Bool.true_and]
  by_cases h : (decide (c.get F.UPDATE_BULK_LEN ≤ c.upd.bulkOfs) && (List.range 16).all (fun p => (c.port p).qBulk.isEmpty)) = true
  · rw [if_pos h]
    obtain ⟨h1, h2⟩ := Bool.and_eq_true_iff.1 h
    have h0 : (c.set F.UPDATE_STATUS_BULK_BUSY 0).on F.UPDATE_STATUS_BULK_BUSY = false :=
      Chip.on_eq_false (Chip.get_set c _ _ (by decide) (by decide))
    refine ⟨rfl, ?_⟩
    rw [h0]
    refine ⟨fun e => absurd e (by decide), ?_⟩
    rintro (hlt | ⟨p, hp, hne⟩)
    · have := of_decide_eq_true h1
      omega
    · exact absurd (hall.1 h2 p hp) hne
  · rw [if_neg h, hb]
    refine ⟨rfl, fun _ => ?_, fun _ => rfl⟩
    by_contra hn
    rw [not_or] at hn
    obtain ⟨n1, n2⟩ := hn
    refine h (Bool.and_eq_true_iff.2 ⟨decide_eq_true (by omega), hall.2 fun p hp => ?_⟩)
    by_contra hne
    exact n2 ⟨p, hp, hne⟩

/-- A cell of BULK. -/
theorem Chip.bulkCell_spec (c : Chip) (hb : c.on F.UPDATE_STATUS_BULK_BUSY = true) (hl : c.upd.bulkOfs < c.get F.UPDATE_BULK_LEN)
    (hst : c.readStalls dmChain (c.get F.UPDATE_BULK_ADDR * 16 + c.upd.bulkOfs) (min 48 (c.get F.UPDATE_BULK_LEN - c.upd.bulkOfs)) = false) :
    let t := c.bulkCell
    t.upd.bulkOfs = c.upd.bulkOfs + min 48 (c.get F.UPDATE_BULK_LEN - c.upd.bulkOfs) ∧
      (t.on F.UPDATE_STATUS_BULK_BUSY = true ↔ t.upd.bulkOfs < c.get F.UPDATE_BULK_LEN ∨ ∃ p, p < 16 ∧ (t.port p).qBulk ≠ []) := by
  unfold Chip.bulkCell
  dsimp only
  rw [if_neg (by rw [hb, hst]; simp only [Bool.not_true, Bool.false_or, Bool.or_false, decide_eq_true_eq]; omega)]
  generalize min 48 (c.get F.UPDATE_BULK_LEN - c.upd.bulkOfs) = n
  have k1 : Holds (fun _ => ()) [F.UPDATE_STATUS_BULK_BUSY, F.UPDATE_BULK_LEN] c (c.dramRead dmChain (c.get F.UPDATE_BULK_ADDR * 16 + c.upd.bulkOfs) n).2 :=
    .dramRead .refl
  generalize c.dramRead dmChain (c.get F.UPDATE_BULK_ADDR * 16 + c.upd.bulkOfs) n = r at k1 ⊢
  generalize (List.range 16).filter (fun p => r.2.get F.UPDATE_BULK_SESSION_PORTS / 2 ^ p % 2 = 1) = ports
  generalize mkCell _ _ = cell
  have k2 := k1.trans (Holds.refl.bulkTo (ports := ports) (cell := cell))
  have hsettled : ∀ d : Chip, Holds (fun _ => ()) [F.UPDATE_STATUS_BULK_BUSY, F.UPDATE_BULK_LEN] c d → d.upd.bulkOfs = c.upd.bulkOfs + n →
      d.bulkSettled.upd.bulkOfs = c.upd.bulkOfs + n ∧ (d.bulkSettled.on F.UPDATE_STATUS_BULK_BUSY = true ↔
        d.bulkSettled.upd.bulkOfs < c.get F.UPDATE_BULK_LEN ∨ ∃ p, p < 16 ∧ (d.bulkSettled.port p).qBulk ≠ []) := fun d k hn => by
    obtain ⟨h1, h2⟩ := d.bulkSettled_spec ((k.on F.UPDATE_STATUS_BULK_BUSY).trans hb)
    rw [h1, h2, k.get F.UPDATE_BULK_LEN]
    exact ⟨hn, Iff.rfl⟩
  exact hsettled ((r.2.bulkTo ports cell).setUpd { (r.2.bulkTo ports cell).upd with bulkOfs := c.upd.bulkOfs + n }) (.setUpd k2) rfl

/-! #### The start of an image (R373, R375, R389) -/

/-- What the start of an image leaves of the choice: the host's side, that the Belfry runs, and the slot. -/
def bootView (x : Chip) : HostSt × Bool := (x.host, x.belfry.running)

/-- The slot that runs. -/
abbrev slotField : List Fld := [F.UPDATE_STATUS_RUN_SLOT]

theorem Holds.rolledBack {c d : Chip} (h : Holds bootView slotField c d) : Holds bootView slotField c d.rolledBack := by
  unfold Chip.rolledBack
  dsimp only
  have h0 : Holds bootView slotField c (d.set F.SETTINGS_STATUS_MIGRATED 0) := .set h
  generalize d.set F.SETTINGS_STATUS_MIGRATED 0 = x at h0
  refine .raise (.logUpd ?_)
  split
  · exact .ite (.set (.set (.set h0))) h0
  · exact h0

theorem Holds.withAon {c d : Chip} (h : Holds bootView slotField c d) (a : AonSt) : Holds bootView slotField c { d with aon := a } := h.of rfl rfl rfl

theorem Holds.imageStart (c : Chip) : Holds bootView slotField c c.imageStart := by
  unfold Chip.imageStart
  refine .ite .refl ?_
  have h0 : Holds bootView slotField c (c.setBelfry { c.belfry with upFrom := c.time.ticks28, down := none }) := .setBelfry .refl
  generalize c.setBelfry { c.belfry with upFrom := c.time.ticks28, down := none } = x at h0
  extract_lets d staged y z back u a e
  have hy : Holds bootView slotField c y := .set h0
  have hz : Holds bootView slotField c z := .set hy
  have hu : Holds bootView slotField c u := .set hz
  have he : Holds bootView slotField c e := hu.withAon _
  exact .ite he.rolledBack he

theorem Holds.logResume (c : Chip) : Holds bootView slotField c c.logResume := by
  unfold Chip.logResume
  dsimp only
  split
  · exact .setBelfry .refl
  · exact .set (.set (.setBelfry .refl))

/-- What waits on the paths. -/
def waitView (x : Chip) : List HeldAcc × Option SrpJob × List SrpReq := (x.host.held, x.host.srpJob, x.host.srpQ)

/-- The Belfry runs the image of a slot, and recovery is over. -/
theorem Chip.imageTaken_spec (c : Chip) (u : UpdateSt) (a : AonSt) :
    let x := { c.setUpd u with aon := a }
    let y := { x with host := { x.host with recovery := false } }.set F.USB4_LINK_USB2_UP 0
    let t := y.setBelfry { y.belfry with running := true }
    t.belfry.running = true ∧ t.get F.UPDATE_STATUS_RUN_SLOT = c.get F.UPDATE_STATUS_RUN_SLOT ∧ t.host.recovery = false ∧ waitView t = waitView c := by
  intro x y t
  have h : y.get F.UPDATE_STATUS_RUN_SLOT = { x with host := { x.host with recovery := false } }.get F.UPDATE_STATUS_RUN_SLOT :=
    Chip.get_set_ne _ _ _ _ (by decide)
  exact ⟨rfl, h, rfl, rfl⟩

/-- The first image of the order, where the ROM takes it. -/
theorem Chip.bootTry_taken (c : Chip) (sl : Nat) (l : List Nat) (hsl : sl < 2) (hdog : c.aon.dogEarly = false) (hok : imgRomOk c.build (c.slotRd sl) = true) :
    (Chip.bootTry (sl :: l) c).belfry.running = true ∧ (Chip.bootTry (sl :: l) c).get F.UPDATE_STATUS_RUN_SLOT = sl ∧
      (Chip.bootTry (sl :: l) c).host.recovery = false ∧ waitView (Chip.bootTry (sl :: l) c) = waitView c := by
  rw [Chip.bootTry]
  dsimp only
  rw [if_neg (by simp [hdog]), if_pos hok]
  have h0 : (c.set F.UPDATE_STATUS_RUN_SLOT sl).get F.UPDATE_STATUS_RUN_SLOT = sl :=
    (Chip.get_set _ _ _ (by decide) (by decide)).trans (Nat.mod_eq_of_lt hsl)
  have v0 : waitView (c.set F.UPDATE_STATUS_RUN_SLOT sl) = waitView c := rfl
  generalize c.set F.UPDATE_STATUS_RUN_SLOT sl = d at h0 v0 ⊢
  generalize (decide (c.get F.DEVICE_STRAPS_BOOT_SEL = 0) && decide ((c.slotState sl).map (·.1) = some slTrial)) = trial
  have k1 : Holds waitView slotField d (((d.set F.UPDATE_RUN_VERSION_VERSION (imgVersion (d.slotRd sl))).set F.UPDATE_STATUS_TRIAL (b2n trial)).cond
      E.UPDATE_TRIAL trial) := .cond (.set (.set .refl))
  generalize ((d.set F.UPDATE_RUN_VERSION_VERSION (imgVersion (d.slotRd sl))).set F.UPDATE_STATUS_TRIAL (b2n trial)).cond E.UPDATE_TRIAL trial = e at k1 ⊢
  obtain ⟨e1, e2, e3, e4⟩ := e.imageTaken_spec { e.upd with
    settingsFmt := imgSettingsFmt (e.slotRd sl)
    holdDue := e.upd.holdDue || (e.aon.rollback && e.belfry.running && decide (e.upd.tablesId ≠ imgTablesId (e.slotRd sl)))
    tablesId := imgTablesId (e.slotRd sl) } { e.aon with dogEarly := false }
  exact ⟨e1, e2.trans ((k1.get F.UPDATE_STATUS_RUN_SLOT).trans h0), e3, e4.trans (k1.view.trans v0)⟩

theorem Holds.aonWait {c d : Chip} (h : Holds waitView [] c d) (a : AonSt) : Holds waitView [] c { d with aon := a } := h.of rfl rfl rfl

/-- An image that the ROM rejects leaves what waits on the paths. -/
theorem Chip.bootReject_wait (c : Chip) (sl : Nat) (trial : Bool) : waitView (c.bootReject sl trial) = waitView c := by
  have h : Holds waitView [] c (c.bootReject sl trial) := by
    unfold Chip.bootReject
    dsimp only
    refine .ite ?_ .refl
    have k : Holds waitView [] c (c.slotAppend sl slRejected) := .slotAppend .refl
    exact .ite (k.aonWait _) k
  exact h.view

theorem Chip.bootTry_none (c : Chip) :
    (Chip.bootTry [] c).belfry.running = false ∧ (Chip.bootTry [] c).host.recovery = true ∧ waitView (Chip.bootTry [] c) = waitView c := ⟨rfl, rfl, rfl⟩

/-- The last image of the order, where the ROM does not take it: recovery. -/
theorem Chip.bootTry_last (c : Chip) (sl : Nat) (hdog : c.aon.dogEarly = false) (hok : imgRomOk c.build (c.slotRd sl) = false) :
    (Chip.bootTry [sl] c).belfry.running = false ∧ (Chip.bootTry [sl] c).host.recovery = true ∧ waitView (Chip.bootTry [sl] c) = waitView c := by
  rw [Chip.bootTry]
  dsimp only
  rw [if_neg (by simp [hdog]), if_neg (by simp [hok])]
  obtain ⟨h1, h2, h3⟩ := Chip.bootTry_none (c.bootReject sl (decide ((c.slotState sl).map (·.1) = some slTrial)))
  exact ⟨h1, h2, h3.trans (c.bootReject_wait _ _)⟩

theorem Chip.bootOrder_lt (c : Chip) : ∀ sl ∈ c.bootOrder, sl < 2 := by
  unfold Chip.bootOrder
  split
  · decide
  · decide
  · decide
  · dsimp only
    split
    · split <;> decide
    · decide
    · decide
    · decide

/-- What the choice of an image leaves, the start of that image and the paths that go on leave too. -/
theorem Chip.boot_spec (c : Chip) (hr : c.belfry.running = false) (hw : waitView c.bootSelect = ([], none, [])) :
    c.boot.belfry.running = c.bootSelect.belfry.running ∧ c.boot.get F.UPDATE_STATUS_RUN_SLOT = c.bootSelect.get F.UPDATE_STATUS_RUN_SLOT ∧
      c.boot.host.recovery = c.bootSelect.host.recovery := by
  unfold Chip.boot
  rw [if_neg (by simp [hr])]
  dsimp only
  generalize c.bootSelect = d at hw ⊢
  have h1 : Holds bootView slotField d (d.when d.belfry.running Chip.logResume) := .ite (.logResume d) .refl
  generalize d.when d.belfry.running Chip.logResume = e at h1 ⊢
  have h2 : Holds bootView slotField d (e.when e.belfry.down.isNone Chip.imageStart) := .ite (h1.trans (.imageStart e)) h1
  generalize e.when e.belfry.down.isNone Chip.imageStart = f at h2 ⊢
  obtain ⟨v1, v2⟩ : f.still.host = d.still.host ∧ f.belfry.running = d.belfry.running := ⟨congrArg Prod.fst h2.view, congrArg Prod.snd h2.view⟩
  have hwait : waitView f.still = waitView d.still := by rw [waitView, v1, waitView]
  have hrec : f.still.host.recovery = d.still.host.recovery := by rw [v1]
  obtain ⟨w1, w2, w3⟩ : f.host.held = [] ∧ f.host.srpJob = none ∧ f.host.srpQ = [] := by
    simpa [waitView] using (show waitView f = waitView d from hwait).trans hw
  obtain ⟨-, g1, -, g2, g3⟩ := f.pathsGo_kept F.UPDATE_STATUS_RUN_SLOT.addr (by decide) w1 w2 w3
  refine ⟨by rw [g2, v2], ?_, by rw [g3]; exact hrec⟩
  rw [Chip.get, g1, ← Chip.get]
  exact h2.get F.UPDATE_STATUS_RUN_SLOT

/-- The ROM and an image to choose. -/
theorem Chip.boot_image (c : Chip) (sl : Nat) (l : List Nat) (hr : c.belfry.running = false) (ho : c.bootOrder = sl :: l) (hdog : c.aon.dogEarly = false)
    (hw : waitView c = ([], none, [])) :
    if imgRomOk c.build (c.slotRd sl) = true then
      c.boot.belfry.running = true ∧ c.boot.get F.UPDATE_STATUS_RUN_SLOT = sl ∧ c.boot.host.recovery = false
    else l = [] → c.boot.belfry.running = false ∧ c.boot.host.recovery = true := by
  have hsel : c.bootSelect = Chip.bootTry (sl :: l) c := by rw [Chip.bootSelect, ho]
  split
  next hok =>
    obtain ⟨h1, h2, h3, h4⟩ := c.bootTry_taken sl l (c.bootOrder_lt sl (by rw [ho]; simp)) hdog hok
    obtain ⟨b1, b2, b3⟩ := c.boot_spec hr (by rw [hsel, h4, hw])
    rw [b1, b2, b3, hsel]
    exact ⟨h1, h2, h3⟩
  next hok =>
    rintro rfl
    obtain ⟨h1, h2, h3⟩ := c.bootTry_last sl hdog (by simpa using hok)
    obtain ⟨b1, -, b3⟩ := c.boot_spec hr (by rw [hsel, h3, hw])
    rw [b1, b3, hsel]
    exact ⟨h1, h2⟩

/-- The ROM without an image to choose. -/
theorem Chip.boot_recovery (c : Chip) (hr : c.belfry.running = false) (ho : c.bootOrder = []) (hw : waitView c = ([], none, [])) :
    c.boot.belfry.running = false ∧ c.boot.host.recovery = true := by
  have hsel : c.bootSelect = Chip.bootTry [] c := by rw [Chip.bootSelect, ho]
  obtain ⟨h1, h2, h3⟩ := Chip.bootTry_none c
  obtain ⟨b1, -, b3⟩ := c.boot_spec hr (by rw [hsel, h3, hw])
  rw [b1, b3, hsel]
  exact ⟨h1, h2⟩

/-- ACTIVATE alone. -/
theorem Chip.updateCmd_activate (c : Chip) : c.updateCmd (insBits 0 F.UPDATE_CMD_ACTIVATE.lo F.UPDATE_CMD_ACTIVATE.lo 1) = c.updActivate := by
  unfold Chip.updateCmd
  dsimp only
  rw [if_neg (by decide), if_neg (by decide), if_neg (by decide), if_pos (by decide), if_neg (by decide), if_neg (by decide), if_neg (by decide)]

/-- Settles O57: the session by its states, from the choice of an image to CONFIRM, and BULK (R373 to R382). -/
theorem updateSession : Obligations.UpdateSession := by
  unfold Obligations.UpdateSession
  intro s hs
  dsimp only
  have hidle : s.chip.host.held = [] → s.chip.host.srpJob = none → s.chip.host.srpQ = [] → waitView s.chip = ([], none, []) :=
    fun h1 h2 h3 => by rw [waitView, h1, h2, h3]
  refine ⟨fun sl l hr ho hdog h1 h2 h3 => ?_, fun hr ho h1 h2 h3 => ?_, fun o hc => ⟨?_, fun w hi => ?_, ?_, ?_, ?_, ?_, ?_, fun hS hb hl => ?_⟩,
    fun hS hb hl hst => ?_, fun hup => ⟨fun hst => ⟨?_, ?_⟩, fun ofs len block hw => ⟨?_, ?_⟩, fun ok hst => ?_, fun ht => ?_⟩⟩
  · exact Completes.serve Chip.boot rfl hs.notFrozen (s.chip.boot_image sl l hr ho hdog (hidle h1 h2 h3))
  · exact Completes.serve Chip.boot rfl hs.notFrozen (s.chip.boot_recovery hr ho (hidle h1 h2 h3))
  · refine Completes.updCmd o F.UPDATE_CMD_OPEN Chip.updOpen rfl hs hc (fun _ => rfl) (fun x h => Holds.calm x.updOpen_spec.2 h) (fun x hx => ?_) (fun _ _ h => h)
    have h := x.updOpen_spec.1
    rwa [hx.state, hx.onTrial, hx.otherSlot] at h
  · exact Completes.serveFor o _ rfl hs (s.chip.write32_blockData o w hc hi)
  · refine Completes.updCmd o F.UPDATE_CMD_WRITE Chip.updWrite rfl hs hc (fun _ => rfl) (fun x h => Holds.calm x.updWrite_spec.2 h) (fun x hx => ?_) (fun _ _ h => h)
    have h := x.updWrite_spec.1
    rwa [hx.state, Chip.on, hx.get F.UPDATE_STATUS_BLOCK_BUSY (by decide), ← Chip.on, hx.get F.UPDATE_BLOCK_OFFSET_OFFSET (by decide),
      hx.get F.UPDATE_BLOCK_LEN_LEN (by decide), hx.upd] at h
  · refine Completes.updCmd o F.UPDATE_CMD_VERIFY Chip.updVerify rfl hs hc (fun _ => rfl) (fun x h => Holds.calm x.updVerify_spec.2 h) (fun x hx => ?_) (fun _ _ h => h)
    have h := x.updVerify_spec.1
    rwa [hx.state] at h
  · refine Completes.updCmd o F.UPDATE_CMD_ABORT Chip.updAbort rfl hs hc (fun _ => rfl) (fun x h => Holds.calm x.updAbort_spec.2 h) (fun x hx => ?_) (fun _ _ h => h)
    have h := x.updAbort_spec.1
    rwa [hx.state] at h
  · refine Completes.updCmd o F.UPDATE_CMD_ACTIVATE Chip.updActivate rfl hs hc Chip.updateCmd_activate (fun x h => x.updActivate_spec.2 h) (fun x hx => ?_)
      (fun _ _ h => h)
    have h := x.updActivate_spec.1
    rwa [hx.state, hx.belfry] at h
  · refine Completes.updCmd o F.UPDATE_CMD_CONFIRM Chip.updConfirm rfl hs hc (fun _ => rfl) (fun x h => Holds.calm x.updConfirm_spec.2 h) (fun x hx => ?_)
      (fun _ _ h => h)
    have h := x.updConfirm_spec.1
    rwa [hx.onTrial] at h
  · refine Completes.updCmd o F.UPDATE_CMD_SEND Chip.bulkSend rfl hs hc (fun _ => rfl) (fun x h => h.bulkSend) (fun x hx => ?_) (fun _ _ h => h)
    exact x.bulkSend_spec (hx.build.trans hS) (by rw [Chip.on, hx.get F.UPDATE_STATUS_BULK_BUSY (by decide), ← Chip.on, hb])
      (by rwa [hx.get F.UPDATE_BULK_LEN (by decide)])
  · exact Completes.liveS Chip.bulkCell rfl hs hS (s.chip.bulkCell_spec hb hl hst)
  · exact Completes.serve (fun c => c.updErased true) rfl hs.notFrozen (s.chip.updErased_done hst hup)
  · exact Completes.serve (fun c => c.updErased false) rfl hs.notFrozen (s.chip.updErased_failed hst hup)
  · exact Completes.serve (fun c => c.blockDone true) rfl hs.notFrozen (s.chip.blockDone_done ofs len block hup hw)
  · exact Completes.serve (fun c => c.blockDone false) rfl hs.notFrozen (s.chip.blockDone_failed ofs len block hup hw)
  · exact Completes.serve (fun c => c.verifyDone ok) rfl hs.notFrozen (s.chip.verifyDone_spec ok hst hup)
  · exact Completes.serve Chip.confirmExpire rfl hs.notFrozen (s.chip.confirmExpire_spec ht hup)

end Sys2Proof.Machine
end

