-- ==== Sys2Proof/Proofs/ApplyPoints.lean ====
section
-- One proof at a time: proofs that wait for the kernel side by side hold more memory than the check allows.
set_option Elab.async false
/-! PROOF. The apply points of a register file that lists an address twice (R38, R43). -/

namespace Sys2Proof.Machine

/-! ### Apply points (R38, R41, R43) -/

/-- A sender whose register file lists PAGE_CTRL of BAR twice, each time with COMMIT, and MODE with mode 1 selected. -/
def twiceCommitted : Chip := { Chip.init .S with regs := [(0x022004, 0x100), (0x022004, 0x100), (0x022040, 1)] }

theorem twiceCommitted_rdUse : (twiceCommitted.applyAt (.scanLine 0)).rdUse 0x022040 = 0x10001#32 := by decide +kernel

/-- Refutes O8: the register file of a state may list an address twice. BAR takes its shadows once for each entry with COMMIT, and the second time the
mode in use, which the first changed in the same register, goes with them: what is then in use of MODE is not what the register held. -/
theorem not_commitAndApplyPoint : ¬ Obligations.CommitAndApplyPoint := by
  unfold Obligations.CommitAndApplyPoint
  rintro ⟨-, h⟩
  obtain ⟨t, he, -, ht, -⟩ := h { chip := twiceCommitted, pending := [] } (.scanLine 0) (by decide +kernel)
  have hline : twiceCommitted.applyLine 0x022 = 0 := by decide +kernel
  obtain ⟨d, hd, hsh⟩ : ∃ d, regAt .S (4096 * 0x022 + 0x40) = .reg d ∧ d.shadowed = true := ⟨_, rfl, rfl⟩
  have hchip : t.chip = twiceCommitted.applyAt (.scanLine 0) := by
    have e : exec (.applyPoint (.scanLine 0)) { chip := twiceCommitted, pending := [] } =
        .next { chip := twiceCommitted.applyAt (.scanLine 0), pending := [] } := rfl
    rw [e] at he
    injection he with he
    rw [← he]
  obtain ⟨-, hu⟩ := ht 0x022 (by decide +kernel) (by decide +kernel) (.inl ⟨by rw [hline], rfl⟩)
  have h1 := hu 0x40 d (by decide) hd hsh
  rw [hchip] at h1
  exact absurd (twiceCommitted_rdUse.symm.trans h1) (by decide +kernel)

end Sys2Proof.Machine
end

