-- ==== Sys2Proof/Proofs/SettingsCopies.lean ====
section
-- One proof at a time: proofs that wait for the kernel side by side hold more memory than the check allows.
set_option Elab.async false
/-! PROOF. Journaled copies, the list of the settings, and what a start applies (R371, R383, R384). -/

namespace Sys2Proof.Machine

/-! ### Journaled copies (R371) -/

theorem settings_hasPage (c : Chip) : c.hasPage 0x0F1 = true := by unfold Chip.hasPage; cases c.build <;> decide +kernel

theorem memRead_append (fill : Byte) (m : Memory) (a n k : Nat) : memRead fill m a (n + k) = memRead fill m a n ++ memRead fill m (a + n) k := by
  rw [memRead_eq_map, memRead_eq_map, memRead_eq_map, List.range_add, List.map_append, List.map_map]
  congr 1
  exact List.map_congr_left fun i _ => by simp [Nat.add_assoc]

theorem Chip.flashRead_append (c : Chip) (a n k : Nat) : c.flashRead a (n + k) = c.flashRead a n ++ c.flashRead (a + n) k := memRead_append _ _ _ _ _

/-- What is read in an area decides which copy it holds. -/
theorem Chip.copyInfo_congr {c d : Chip} (area index k : Nat) (hs : 64 ≤ areaSize area)
    (h : ∀ b n, areaAddr area index k ≤ b → b + n ≤ areaAddr area index k + areaSize area → d.flashRead b n = c.flashRead b n) :
    d.copyInfo area index k = c.copyInfo area index k := by
  unfold Chip.copyInfo
  dsimp only
  rw [h _ 64 (le_refl _) (by omega)]
  generalize c.flashRead (areaAddr area index k) 64 = l
  by_cases hl : ofLe (slice l 12 4) ≤ areaSize area - 64
  · rw [h _ _ (by omega) (by omega)]
  · simp only [hl, decide_false, Bool.and_false, Bool.false_and]

/-- The fields of a copy's header. -/
theorem copyHeader_fields (area index format seq len q r : Nat) (b0 b1 b2 b3 : Byte) :
    let x := leBytes 4 0x4A435059 ++ leBytes 1 area ++ leBytes 1 index ++ leBytes 2 format ++ leBytes 4 seq ++ leBytes 4 len ++ leBytes 4 q
    let h := x ++ leBytes 4 r ++ List.replicate 36 0 ++ [b0, b1, b2, b3]
    h.take 4 = leBytes 4 0x4A435059 ∧ slice h 6 2 = leBytes 2 format ∧ slice h 8 4 = leBytes 4 seq ∧ slice h 12 4 = leBytes 4 len ∧
      slice h 16 4 = leBytes 4 q ∧ slice h 20 4 = leBytes 4 r ∧ slice h 60 4 = [b0, b1, b2, b3] ∧ h.take 20 = x := ⟨rfl, rfl, rfl, rfl, rfl, rfl, rfl, rfl⟩

theorem copyHeader_length (area index format seq : Nat) (payload : List Byte) : (copyHeader area index format seq payload).length = 24 := rfl

/-- The first bytes of a copy, as it is laid: the header, with no COMMIT. -/
def copyHead (area index format seq : Nat) (payload : List Byte) : List Byte := copyHeader area index format seq payload ++ List.replicate 36 0

theorem copyHead_length (area index format seq : Nat) (payload : List Byte) : (copyHead area index format seq payload).length = 60 := rfl

/-- A copy laid: its header, its payload, no COMMIT; and nothing out of its position. -/
theorem Chip.layCopy_spec (c : Chip) (area index k format seq : Nat) (payload : List Byte) (hl : payload.length ≤ areaSize area - 64) (hs : 64 ≤ areaSize area) :
    (c.layCopy area index k format seq payload).flashRead (areaAddr area index k) 60 = copyHead area index format seq payload ∧
      (c.layCopy area index k format seq payload).flashRead (areaAddr area index k + 60) 4 = List.replicate 4 0xFF ∧
      (c.layCopy area index k format seq payload).flashRead (areaAddr area index k + 64) payload.length = payload ∧
      ∀ b n, b + n ≤ areaAddr area index k ∨ areaAddr area index k + areaSize area ≤ b →
        (c.layCopy area index k format seq payload).flashRead b n = c.flashRead b n := by
  unfold Chip.layCopy
  dsimp only
  have hh := copyHead_length area index format seq payload
  change (copyHead area index format seq payload).length = 60 at hh
  rw [show copyHeader area index format seq payload ++ List.replicate 36 0 = copyHead area index format seq payload from rfl]
  generalize copyHead area index format seq payload = hd at hh ⊢
  generalize areaAddr area index k = a
  refine ⟨Chip.flashRead_program_same _ _ _ _ hh, ?_, ?_, fun b n hb => ?_⟩
  · rw [Chip.flashRead_program_apart _ _ _ _ _ (by omega), Chip.flashRead_program_apart _ _ _ _ _ (by omega), Chip.flashRead_erased _ _ _ _ _ (by omega) (by omega)]
  · rw [Chip.flashRead_program_apart _ _ _ _ _ (by omega), Chip.flashRead_program_same _ _ _ _ rfl]
  · rw [Chip.flashRead_program_apart _ _ _ _ _ (by omega), Chip.flashRead_program_apart _ _ _ _ _ (by omega), Chip.flashRead_erase_apart _ _ _ _ _ (by omega)]

theorem ofLe_leBytes_of_lt {n v : Nat} (h : v < 256 ^ n) : ofLe (leBytes n v) = v := (ofLe_leBytes n v).trans (Nat.mod_eq_of_lt h)

/-- What is valid as a copy, read by its parts. -/
theorem Chip.copyInfo_valid (c : Chip) (area index k format seq : Nat) (payload : List Byte) (hl : payload.length ≤ areaSize area - 64)
    (hlen : payload.length < 2 ^ 32) (hf : format < 65536) (hq : seq < 2 ^ 32)
    (h1 : c.flashRead (areaAddr area index k) 60 = copyHead area index format seq payload)
    (h2 : c.flashRead (areaAddr area index k + 60) 4 = leBytes 4 0x434F4D54)
    (h3 : c.flashRead (areaAddr area index k + 64) payload.length = payload) :
    c.copyInfo area index k = some { format := format, seq := seq, length := payload.length } := by
  have hc : leBytes 4 0x434F4D54 = [BitVec.ofNat 8 0x54, BitVec.ofNat 8 0x4D, BitVec.ofNat 8 0x4F, BitVec.ofNat 8 0x43] := rfl
  have hh : c.flashRead (areaAddr area index k) 64 = copyHead area index format seq payload ++ leBytes 4 0x434F4D54 := by
    rw [show 64 = 60 + 4 from rfl, Chip.flashRead_append, h1, h2]
  rw [copyHead, copyHeader, hc] at hh
  obtain ⟨f1, f2, f3, f4, f5, f6, f7, f8⟩ := copyHeader_fields area index format seq payload.length (crc32 payload)
    (crc32 (leBytes 4 0x4A435059 ++ leBytes 1 area ++ leBytes 1 index ++ leBytes 2 format ++ leBytes 4 seq ++ leBytes 4 payload.length ++ leBytes 4 (crc32 payload)))
    (BitVec.ofNat 8 0x54) (BitVec.ofNat 8 0x4D) (BitVec.ofNat 8 0x4F) (BitVec.ofNat 8 0x43)
  rw [← hh] at f1 f2 f3 f4 f5 f6 f7 f8
  have g4 : ofLe (slice (c.flashRead (areaAddr area index k) 64) 12 4) = payload.length := by rw [f4, ofLe_leBytes_of_lt (by omega)]
  have g2 : ofLe (slice (c.flashRead (areaAddr area index k) 64) 6 2) = format := by rw [f2, ofLe_leBytes_of_lt (by omega)]
  have g3 : ofLe (slice (c.flashRead (areaAddr area index k) 64) 8 4) = seq := by rw [f3, ofLe_leBytes_of_lt (by omega)]
  have g1 : ofLe ((c.flashRead (areaAddr area index k) 64).take 4) = 0x4A435059 := by rw [f1, ofLe_leBytes_of_lt (by decide)]
  have g7 : ofLe (slice (c.flashRead (areaAddr area index k) 64) 60 4) = 0x434F4D54 := by rw [f7, ← hc, ofLe_leBytes_of_lt (by decide)]
  have g6 : ofLe (slice (c.flashRead (areaAddr area index k) 64) 20 4) = crc32 ((c.flashRead (areaAddr area index k) 64).take 20) := by
    rw [f6, f8, ofLe_leBytes_of_lt (crc32_lt _)]
  have g5 : ofLe (slice (c.flashRead (areaAddr area index k) 64) 16 4) = crc32 payload := by rw [f5, ofLe_leBytes_of_lt (crc32_lt _)]
  unfold Chip.copyInfo
  dsimp only
  rw [g4, h3, g1, g7, g5, g6, g2, g3]
  exact if_pos (by simp only [decide_true, Bool.and_true, Bool.true_and, decide_eq_true_eq]; exact hl)

/-- Bytes that lie apart from a position leave its payload and its COMMIT. -/
theorem Chip.copyInfo_none (c : Chip) (area index k : Nat) (h : c.flashRead (areaAddr area index k + 60) 4 = List.replicate 4 0xFF) :
    c.copyInfo area index k = none := by
  have hh : slice (c.flashRead (areaAddr area index k) 64) 60 4 = List.replicate 4 0xFF := by
    rw [show 64 = 60 + 4 from rfl, Chip.flashRead_append, h, slice, List.drop_left' (by rw [Chip.flashRead, memRead_eq_map]; simp), List.take_of_length_le (by simp)]
  have g : ofLe (List.replicate 4 (0xFF : Byte)) = 0x434F4D54 ↔ False := by decide
  unfold Chip.copyInfo
  dsimp only
  rw [hh]
  simp only [g, decide_false, Bool.and_false, Bool.false_and, Bool.false_eq_true, if_false]

theorem Chip.nextSeq_lt (c : Chip) (area index : Nat) : c.nextSeq area index < 2 ^ 32 := by
  unfold Chip.nextSeq
  split
  · exact Nat.mod_lt _ (by decide)
  · decide

/-- A journaled write whose first read-back is good. -/
theorem Chip.writeCopyTo_done (c : Chip) (area index k format : Nat) (payload : List Byte) (ok2 : Bool) (hl : payload.length ≤ areaSize area - 64)
    (hs : 64 ≤ areaSize area ∧ areaSize area < 2 ^ 32) (hf : format < 65536) :
    let t := c.writeCopyTo area index k format payload true ok2
    t.copyInfo area index k = some { format := format, seq := c.nextSeq area index, length := payload.length } ∧
      t.flashRead (areaAddr area index k + 64) payload.length = payload ∧
      ∀ b n, b + n ≤ areaAddr area index k ∨ areaAddr area index k + areaSize area ≤ b → t.flashRead b n = c.flashRead b n := by
  obtain ⟨h1, -, h3, h4⟩ := c.layCopy_spec area index k format (c.nextSeq area index) payload hl hs.1
  dsimp only
  have e : c.writeCopyTo area index k format payload true ok2 =
      (c.layCopy area index k format (c.nextSeq area index) payload).flashProgram (areaAddr area index k + 60) (leBytes 4 0x434F4D54) := rfl
  rw [e]
  generalize c.layCopy area index k format (c.nextSeq area index) payload = d at h1 h3 h4
  have hc : (leBytes 4 0x434F4D54).length = 4 := leBytes_length _ _
  have p3 : (d.flashProgram (areaAddr area index k + 60) (leBytes 4 0x434F4D54)).flashRead (areaAddr area index k + 64) payload.length = payload := by
    rw [Chip.flashRead_program_apart _ _ _ _ _ (by omega), h3]
  refine ⟨Chip.copyInfo_valid _ _ _ _ _ _ _ hl (by omega) hf (c.nextSeq_lt _ _) ?_ (Chip.flashRead_program_same _ _ _ _ hc) p3, p3, fun b n hb => ?_⟩
  · rw [Chip.flashRead_program_apart _ _ _ _ _ (by omega), h1]
  · rw [Chip.flashRead_program_apart _ _ _ _ _ (by omega), h4 b n hb]

/-- A journaled write whose read-backs fail. -/
theorem Chip.writeCopyTo_failed (c : Chip) (area index k format : Nat) (payload : List Byte) (hl : payload.length ≤ areaSize area - 64) (hs : 64 ≤ areaSize area) :
    let t := c.writeCopyTo area index k format payload false false
    t.copyInfo area index k = none ∧ t.pend E.JOURNAL_FAIL = true ∧
      ∀ b n, b + n ≤ areaAddr area index k ∨ areaAddr area index k + areaSize area ≤ b → t.flashRead b n = c.flashRead b n := by
  dsimp only
  have hr : ∀ (x : Chip) b n, (x.raise E.JOURNAL_FAIL).flashRead b n = x.flashRead b n := fun x b n => by rw [Chip.flashRead, (x.quiet_raise _).belfry, Chip.flashRead]
  have e : c.writeCopyTo area index k format payload false false =
      (((c.layCopy area index k format (c.nextSeq area index) payload).raise E.JOURNAL_FAIL).layCopy area index k format (c.nextSeq area index) payload).raise
        E.JOURNAL_FAIL := rfl
  rw [e]
  obtain ⟨-, -, -, h4⟩ := c.layCopy_spec area index k format (c.nextSeq area index) payload hl hs
  generalize c.layCopy area index k format (c.nextSeq area index) payload = d at h4
  obtain ⟨-, k2, -, k4⟩ := (d.raise E.JOURNAL_FAIL).layCopy_spec area index k format (c.nextSeq area index) payload hl hs
  generalize (d.raise E.JOURNAL_FAIL).layCopy area index k format (c.nextSeq area index) payload = x at k2 k4
  exact ⟨Chip.copyInfo_none _ _ _ _ ((hr _ _ _).trans k2), x.raise_pend _ (settings_hasPage _) (by decide), fun b n hb => by rw [hr, k4 b n hb, hr, h4 b n hb]⟩

/-! ### The settings copy that SAVE asks for (R383) -/

theorem settingsCopy_apart {k : Nat} (hk : k < 2) :
    areaAddr arSettings 0 (1 - k) + areaSize arSettings ≤ areaAddr arSettings 0 k ∨ areaAddr arSettings 0 k + areaSize arSettings ≤ areaAddr arSettings 0 (1 - k) := by
  interval_cases k <;> decide

theorem Chip.targetCopy_lt (c : Chip) : c.targetCopy arSettings 0 < 2 := by
  unfold Chip.targetCopy
  split
  · exact c.get_lt F.SETTINGS_STATUS_COPY
  · split
    · omega
    · decide

/-- The other copy is untouched by what stays in a position. -/
theorem Chip.otherCopy_congr {c d : Chip} {k : Nat} (hk : k < 2)
    (h : ∀ b n, b + n ≤ areaAddr arSettings 0 k ∨ areaAddr arSettings 0 k + areaSize arSettings ≤ b → d.flashRead b n = c.flashRead b n) :
    d.copyInfo arSettings 0 (1 - k) = c.copyInfo arSettings 0 (1 - k) := by
  have ha := settingsCopy_apart hk
  exact Chip.copyInfo_congr _ _ _ (by decide) fun b n h1 h2 => h b n (by omega)

theorem Chip.copyInfo_flash {c d : Chip} (h : d.belfry.flash = c.belfry.flash) (area index k : Nat) : d.copyInfo area index k = c.copyInfo area index k := by
  have hr : ∀ a n, d.flashRead a n = c.flashRead a n := fun a n => by rw [Chip.flashRead, h, Chip.flashRead]
  unfold Chip.copyInfo
  simp only [hr]

/-- What is shown of a copy written, and what is noted of it, is no part of the flash. -/
theorem Holds.showSettings {α : Type} {ρ : Chip → α} {c d : Chip} (h : Holds ρ [] c d) : Holds ρ [] c d.showSettings := by
  unfold Chip.showSettings
  split
  · exact h
  · exact .set (.set (.set h))

/-- The flash. -/
def flashView (x : Chip) : Memory := x.belfry.flash

theorem Chip.lanesPut_spec (c : Chip) : flashView c.lanesPut = flashView c ∧ ∀ a, c.lanesPut.rd a = c.rd a := by
  unfold Chip.lanesPut
  split
  · exact ⟨rfl, fun _ => rfl⟩
  · exact ⟨rfl, fun _ => rfl⟩

theorem Chip.journalWrite_settings (c : Chip) (ok1 ok2 : Bool) : c.journalWrite 1 0 ok1 ok2 = if !c.belfryUp then c else c.writeSetArea ok1 ok2 := by
  unfold Chip.journalWrite
  cases c.build <;> rfl

/-- The copy that SAVE asks for, whatever its read-backs say: the journaled write decides the flash. -/
theorem Chip.journalSettings_spec (c : Chip) (ok1 ok2 : Bool) (hup : c.belfryUp = true) (hm : c.belfry.migrate = none)
    (hs : c.on F.SETTINGS_STATUS_SAVING = true) :
    let w := c.writeCopyTo arSettings 0 (c.targetCopy arSettings 0) c.upd.settingsFmt c.settingsPayload ok1 ok2
    let t := c.journalWrite 1 0 ok1 ok2
    t.belfry.flash = w.belfry.flash ∧ t.get F.SETTINGS_STATUS_SAVING = 0 ∧ (w.pend E.JOURNAL_FAIL = true → t.pend E.JOURNAL_FAIL = true) := by
  rw [Chip.journalWrite_settings, if_neg (by simp [hup]), Chip.writeSetArea, hm]
  dsimp only
  rw [if_pos hs, Chip.writeSettings, Chip.putSettings, Chip.writeCopy]
  dsimp only
  generalize c.writeCopyTo arSettings 0 (c.targetCopy arSettings 0) c.upd.settingsFmt c.settingsPayload ok1 ok2 = w
  have k1 : Holds flashView [] w (if (ok1 || ok2) = true then w.showSettings.logUpd 7 (w.showSettings.get F.SETTINGS_SEQ_SEQ) else w) :=
    .ite (.logUpd (.showSettings .refl)) .refl
  generalize (if (ok1 || ok2) = true then w.showSettings.logUpd 7 (w.showSettings.get F.SETTINGS_SEQ_SEQ) else w) = d at k1 ⊢
  have k2 : Holds flashView [] w (d.set F.SETTINGS_STATUS_SAVING 0) := .set k1
  have h2 : (d.set F.SETTINGS_STATUS_SAVING 0).get F.SETTINGS_STATUS_SAVING = 0 := Chip.get_set _ _ _ (by decide) (by decide)
  generalize d.set F.SETTINGS_STATUS_SAVING 0 = e at k2 h2 ⊢
  obtain ⟨l1, hr⟩ := e.lanesPut_spec
  refine ⟨l1.trans k2.view, ?_, fun h => ?_⟩
  · rw [Chip.get, hr, ← Chip.get, h2]
  · rw [Chip.pend, hr, ← Chip.pend]
    exact k2.pend _ h

/-! ### SAVE and LIST_DATA (R383) -/

theorem regAt_settingsSave (b : Build) : ∃ d, regAt b F.SETTINGS_CMD_SAVE.addr = .reg d ∧ (∀ v w, d.quiesceChange v w = false) ∧
    d.fields.filter (fun f => decide (f.acc = .rw)) = [] ∧ ∀ v, d.store v (insBits 0 0 0 1) = v := by
  cases b <;> exact ⟨_, rfl, fun _ _ => rfl, rfl, fun v => rfl⟩

/-- SAVE shows that a copy is to be written, and writes none yet. -/
theorem Chip.writeField_save (c : Chip) (o : Origin) (hc : Calm c) :
    let t := c.writeField o F.SETTINGS_CMD_SAVE 1
    t.get F.SETTINGS_STATUS_SAVING = 1 ∧ t.belfry.flash = c.belfry.flash := by
  obtain ⟨d, hd, hq, hrw, hst⟩ := regAt_settingsSave c.build
  obtain ⟨x, hx, -, he⟩ := Chip.writeField_strobe (o := o) (f := F.SETTINGS_CMD_SAVE) Chip.settingsSave hd (by decide) hq hrw hst hc (fun _ _ => rfl)
    (fun x h => h.set _ _ (by decide))
  dsimp only
  rw [he, Chip.noteMirror_get, Chip.noteMirror_belfry]
  exact ⟨Chip.get_set _ _ _ (by decide) (by decide), congrArg BelfrySt.flash (hx.part Chip.belfry fun _ => rfl)⟩

theorem regAt_listData (b : Build) : ∃ d, regAt b F.SETTINGS_LIST_DATA_ADDR.addr = .reg d ∧ ∀ v w, d.quiesceChange v w = false := by
  cases b <;> exact ⟨_, rfl, fun _ _ => rfl⟩

theorem Calm.listWrite {c : Chip} (h : Calm c) (w : Word) : Calm (c.listWrite w) := by
  unfold Chip.listWrite
  have k : ∀ u, Calm (c.setUpd u) := fun u => h.of_ctrls rfl rfl rfl rfl
  exact (k _).autoInc F.SETTINGS_LIST_ADDR_AUTO_INC F.SETTINGS_LIST_ADDR_INDEX (by decide)

/-- An entry of the list written through its window. -/
theorem Chip.write32_list (c : Chip) (o : Origin) (w : Word) (hc : Calm c) :
    let t := c.write32 o F.SETTINGS_LIST_DATA_ADDR.addr w
    smGet 0 t.upd.saveList (c.get F.SETTINGS_LIST_ADDR_INDEX) = bitsOf w 23 0 ∧
      t.get F.SETTINGS_LIST_ADDR_INDEX = (c.get F.SETTINGS_LIST_ADDR_INDEX + b2n (c.on F.SETTINGS_LIST_ADDR_AUTO_INC)) % 1024 := by
  obtain ⟨d, hd, hq⟩ := regAt_listData c.build
  obtain ⟨x, hx, he⟩ := Chip.write32_tabled (o := o) (w := w) hd (by decide) (hq _ _) hc (fun x h => h.listWrite w)
  change c.write32 o F.SETTINGS_LIST_DATA_ADDR.addr w = (x.listWrite w).noteMirror _ at he
  have hi : x.get F.SETTINGS_LIST_ADDR_INDEX = c.get F.SETTINGS_LIST_ADDR_INDEX := hx.get _ (by decide) (by decide) (by decide)
  have ha : x.on F.SETTINGS_LIST_ADDR_AUTO_INC = c.on F.SETTINGS_LIST_ADDR_AUTO_INC := hx.on _ (by decide) (by decide) (by decide)
  dsimp only
  rw [he, Chip.noteMirror_get, Chip.noteMirror_upd, ← hi, ← ha]
  obtain ⟨y, hy⟩ : ∃ y, y = x.setUpd { x.upd with saveList := smPut 0 x.upd.saveList (x.get F.SETTINGS_LIST_ADDR_INDEX) (bitsOf w 23 0) } := ⟨_, rfl⟩
  have e : x.listWrite w = y.autoInc F.SETTINGS_LIST_ADDR_AUTO_INC F.SETTINGS_LIST_ADDR_INDEX := by
    rw [hy]
    rfl
  have h1 : y.get F.SETTINGS_LIST_ADDR_INDEX = x.get F.SETTINGS_LIST_ADDR_INDEX := by
    rw [hy]
    rfl
  have h2 : y.on F.SETTINGS_LIST_ADDR_AUTO_INC = x.on F.SETTINGS_LIST_ADDR_AUTO_INC := by
    rw [hy]
    rfl
  rw [e, Chip.autoInc_get _ _ _ (by decide) (by decide), Chip.autoInc_part _ _ _ Chip.upd, h1, h2]
  refine ⟨?_, rfl⟩
  rw [hy]
  exact (smGet_smPut _ _ _ _ _).trans (if_pos rfl)

/-- An entry read through it. -/
theorem Chip.hostRead_list (c : Chip) (o : Origin) (hp : c.pathsOpen = true) :
    let t := c.hostRead o F.SETTINGS_LIST_DATA_ADDR.addr
    t.upd = c.upd ∧ t.get F.SETTINGS_LIST_ADDR_INDEX = (c.get F.SETTINGS_LIST_ADDR_INDEX + b2n (c.on F.SETTINGS_LIST_ADDR_AUTO_INC)) % 1024 := by
  obtain ⟨d, hd, -⟩ := regAt_listData c.build
  have hbuild : ∀ x : Chip, (x.readEffect F.SETTINGS_LIST_DATA_ADDR.addr).build = x.build := fun x =>
    Chip.autoInc_part x F.SETTINGS_LIST_ADDR_AUTO_INC F.SETTINGS_LIST_ADDR_INDEX Chip.build
  obtain ⟨x, v, hx, he⟩ := c.hostRead_opened o _ d hp (by decide) (by decide) hd hbuild
  have ho : opensAt c.build F.SETTINGS_LIST_ADDR_INDEX.addr = false := by cases c.build <;> decide +kernel
  dsimp only
  rw [he]
  have e : x.readEffect F.SETTINGS_LIST_DATA_ADDR.addr = x.autoInc F.SETTINGS_LIST_ADDR_AUTO_INC F.SETTINGS_LIST_ADDR_INDEX := rfl
  rw [e]
  refine ⟨(Chip.autoInc_part x F.SETTINGS_LIST_ADDR_AUTO_INC F.SETTINGS_LIST_ADDR_INDEX Chip.upd).trans (hx.part Chip.upd fun _ _ _ _ => rfl), ?_⟩
  refine (x.autoInc_get F.SETTINGS_LIST_ADDR_AUTO_INC F.SETTINGS_LIST_ADDR_INDEX (by decide) (by decide)).trans ?_
  rw [hx.get F.SETTINGS_LIST_ADDR_INDEX rfl ho, hx.on F.SETTINGS_LIST_ADDR_AUTO_INC rfl ho]
  rfl

/-! ### What a commit leaves of the registers of the settings (R38, R383) -/

/-- The registers of the settings, of both builds, the two that show them, and the steps of bring-up. -/
def heldRegs : List Nat :=
  [F.EVENTS_ALERT_MASK_MASK.addr, F.THERMAL_MASK_MASK.addr, F.UPDATE_CONFIRM_TIMEOUT_S.addr] ++
    (List.range 20).map (fun n => F.THERMAL_SCFG_OFFSET.addr + 4 * n) ++
    [F.ETH_MAC_LO_MAC_LO.addr, F.ETH_MAC_LO_MAC_LO.addr + 4, F.ETH_MAC_LO_MAC_LO.addr + 4096, F.ETH_MAC_LO_MAC_LO.addr + 4100] ++
    [F.TILERX_HOLD_VALID_LO_LO.addr, F.TILERX_HOLD_VALID_HI_HI.addr, F.DRIVECTL_CEILING_UA.addr, F.SETTINGS_STATUS_COPY.addr, F.SETTINGS_SEQ_SEQ.addr,
      F.RESET_BRINGUP_DONE.addr]

/-- These, what says that the memories are filled, and the states of the DRAM ports. -/
def pageRegs : List Nat := F.ECC_STATUS_SRAM_FILLED.addr :: (List.range 4).map (fun p => (F.STATE.pg (dramPage p)).addr) ++ heldRegs

theorem Chip.settingsRegs_held (c : Chip) : ∀ a ∈ c.settingsRegs, a ∈ heldRegs := by
  unfold Chip.settingsRegs Chip.sensors
  cases c.build <;> decide +kernel

/-- Nothing that the settings give differs, nothing in use, no step of bring-up, no page control, and no event is lost. -/
abbrev SetKept (c d : Chip) : Prop := Keeps (fun x => (x.rst, x.inUse)) heldRegs [] c d

/-- The same, and the memories and the accesses of the host as they are. -/
abbrev PageKept (c d : Chip) : Prop := Keeps (fun x => (x.rst, x.inUse, x.mem, x.host)) pageRegs [] c d

theorem heldRegs_page : ∀ a ∈ heldRegs, (a / 4096 < 0x060 ∨ 0x0F0 ≤ a / 4096 ∨ a / 4096 = 0x0A0 ∨ a / 4096 = 0x0B4) ∧ 0x40 ≤ a % 4096 ∧ a / 4096 ≠ 0x022 := by
  decide +kernel

theorem pageRegs_page : ∀ a ∈ pageRegs, (a / 4096 < 0x060 ∨ 0x0D8 ≤ a / 4096 ∨ a / 4096 = 0x0A0 ∨ a / 4096 = 0x0B4) ∧ 8 ≤ a % 4096 ∧ a / 4096 ≠ 0x022 := by
  decide +kernel

theorem heldRegs_quiet : heldRegs.all (fun a => quietReg a && calmReg a) = true := by decide +kernel

/-- What a page starts leaves the settings as they are. -/
theorem PageKept.any {c d : Chip} (h : PageKept c d) : SetKept c d :=
  Keeps.mono h (congrArg (fun v => (v.1, v.2.1)) h.view) (List.subset_append_right _ _)

namespace PageKept
variable {c d : Chip}

theorem setPort (h : PageKept c d) {p : Nat} {s : PortSt} : PageKept c (d.setPort p s) := Keeps.setPort h

/-- A field of the page of a port. -/
theorem set_port (h : PageKept c d) {f : Fld} {p v : Nat} (hp : p < 16) (hf : f.addr / 4096 = 0x080 := by decide) (h4 : plainReg f.addr = true := by decide) :
    PageKept c (d.set (f.pg p) v) := by
  have ha : (f.pg p).addr = f.addr + 4096 * p := rfl
  refine Keeps.set h (fun hm => ?_) (by rw [plainReg_pg, h4])
  have := pageRegs_page _ hm
  omega

theorem raise (h : PageKept c d) {e : Ev} : PageKept c (d.raise e) := Keeps.raise h (by decide +kernel)

theorem cond (h : PageKept c d) {e : Ev} {b : Bool} (hx : e.bit < 32) : PageKept c (d.cond e b) := Keeps.cond h (by decide +kernel) rfl hx

theorem openValue (h : PageKept c d) {w : Nat} : PageKept c (d.openValue w).2 := Keeps.of h rfl rfl rfl

theorem testOff (h : PageKept c d) {p : Nat} (hp : p < 16) : PageKept c (d.testOff p) := by
  unfold Chip.testOff
  refine Keeps.foldl (Keeps.setPort h) fun x l hl => ?_
  rw [Fld.pg_plus]
  have hl' : ∀ l ∈ [0, 1, 2], (F.PORT_TEST_ERR1_LOCK.plus (8 * l)).addr / 4096 = 0x080 ∧ plainReg (F.PORT_TEST_ERR1_LOCK.plus (8 * l)).addr = true := by decide
  exact set_port .refl hp (hl' l hl).1 (hl' l hl).2

theorem bulkSettled (h : PageKept c d) : PageKept c d.bulkSettled := Keeps.ite (Keeps.set h) h

theorem ite_snd {α : Type} {P : Prop} [Decidable P] {x y : α × Chip} (h : PageKept c x.2) (k : PageKept c y.2) : PageKept c (if P then x else y).2 := by
  split
  · exact h
  · exact k

theorem burst (h : PageKept c d) {p l : Nat} (hp : p < 16) : PageKept c (d.burst p l).2 := by
  unfold Chip.burst
  have h1 : ∀ n, PageKept c (d.setPort p { d.port p with injCnt := n }) := fun n => setPort h
  exact ite_snd h (ite_snd ((h1 _).set_port hp) (h1 _))

theorem lineBlocks (h : PageKept c d) {p : Nat} (hp : p < 16) (l : List LineBlock) : PageKept c (d.lineBlocks p l) := by
  unfold Chip.lineBlocks
  refine Keeps.ite h (Keeps.emit (h.trans ?_))
  exact foldl_rel PageKept (fun _ => .refl) .trans Prod.snd
    (fun (a : List LineBlock × Chip) b => let x := a.2.lineBlock p b; (a.1 ++ [x.1], x.2)) l (fun a b _ => (setPort .refl).burst hp) ([], d)

theorem showPatterns (h : PageKept c d) {p : Nat} (hp : p < 16) (was : List Nat) : PageKept c (d.showPatterns p was) := by
  unfold Chip.showPatterns
  dsimp only
  have h1 : PageKept c ([0, 1, 2].foldl (fun c l => if c.genPattern p l = 0 && was.getD l 0 = 0 then c else c.emit (.pattern p l (c.genPattern p l)
      (d.get (F.PORT_USER_LO_USER_LO.pg p) + d.get (F.PORT_USER_HI_USER_HI.pg p) * 2 ^ 32))) d) := Keeps.foldl h fun x b _ => .ite .refl (.emit .refl)
  generalize List.foldl _ d [0, 1, 2] = y at h1 ⊢
  refine Keeps.ite ?_ h1
  unfold Chip.injectPattern
  exact Keeps.ite h1 (Keeps.emit (h1.set_port hp))

theorem endJobs (h : PageKept c d) {p : Nat} : PageKept c (d.endJobs p) := Keeps.ite (Keeps.of h rfl rfl rfl) h

theorem setPortState (h : PageKept c d) {p st : Nat} (hp : p < 16) : PageKept c (d.setPortState p st) := by
  have hst : ∀ {x : Chip} {f : Fld} {v : Nat}, PageKept c x → f.addr = 0x008 → PageKept c (x.set (f.pg (portPage p)) v) := fun {x f v} k hf => by
    have ha : (f.pg (portPage p)).addr = f.addr + 4096 * (0x080 + p) := rfl
    refine Keeps.set k (fun hm => ?_) (by rw [plainReg_pg, hf]; decide)
    have := pageRegs_page _ hm
    omega
  unfold Chip.setPortState
  dsimp only
  have hr : PageKept c (d.showReduced p (decide (st = psReduced))) := by
    unfold Chip.showReduced
    exact Keeps.ite (Keeps.wr (set_port h hp)) (set_port h hp)
  have h1 : PageKept c (if (d.state (portPage p) = psReduced) = (st = psReduced) then d else d.showReduced p (decide (st = psReduced))) := Keeps.ite h hr
  generalize (if (d.state (portPage p) = psReduced) = (st = psReduced) then d else d.showReduced p (decide (st = psReduced))) = x at h1 ⊢
  have h2 : PageKept c (((x.set (F.STATE.pg (portPage p)) st).set (F.FAULT.pg (portPage p)) (b2n (decide (3 ≤ st)))).set (F.RUNNING.pg (portPage p))
      (b2n (decide (st ≠ psOff)))) := hst (hst (hst h1 rfl) rfl) rfl
  generalize ((x.set (F.STATE.pg (portPage p)) st).set (F.FAULT.pg (portPage p)) (b2n (decide (3 ≤ st)))).set (F.RUNNING.pg (portPage p))
      (b2n (decide (st ≠ psOff))) = y at h2 ⊢
  have h3 : PageKept c (if (d.state (portPage p) = psOff) = (st = psOff) then y else y.emit (.portTx p (decide (st ≠ psOff)))) := Keeps.ite h2 (Keeps.emit h2)
  generalize (if (d.state (portPage p) = psOff) = (st = psOff) then y else y.emit (.portTx p (decide (st ≠ psOff)))) = z at h3 ⊢
  exact PageKept.cond (Keeps.ite h3 (endJobs (setPort h3))) (show 0 < 32 by decide)

theorem portRestart (h : PageKept c d) {p : Nat} (hp : p < 16) : PageKept c (d.portRestart p) := by
  obtain ⟨s, he⟩ := d.portRestart_eq p
  rw [he]
  have h1 : PageKept c (((((d.testOff p).openValue 31).2.openValue 31).2.openValue 31).2.setPort p s).bulkSettled :=
    bulkSettled (setPort (openValue (openValue (openValue (h.testOff hp)))))
  generalize (((((d.testOff p).openValue 31).2.openValue 31).2.openValue 31).2.setPort p s).bulkSettled = x at h1 ⊢
  unfold Chip.portFresh
  dsimp only
  have h2 := h1.setPortState hp (st := if x.portEnabled p then psTrain else psOff)
  generalize (if x.portEnabled p then psTrain else psOff) = st at h2 ⊢
  have h3 : PageKept c ((((x.setPortState p st).set (F.PORT_LINK_CLK_OK.pg p) 0).set (F.PORT_LINK_ALIGNED.pg p) 0).set (F.PORT_LINK_RX_MAP.pg p) 0) :=
    ((h2.set_port hp).set_port hp).set_port hp
  generalize (((x.setPortState p st).set (F.PORT_LINK_CLK_OK.pg p) 0).set (F.PORT_LINK_ALIGNED.pg p) 0).set (F.PORT_LINK_RX_MAP.pg p) 0 = y at h3 ⊢
  have h4 : PageKept c ([0, 1, 2].foldl (fun c l => c.set (laneFld p l) (if ((c.port p).lane l).retired then lnRetired else if st = psTrain then lnTrain else lnOff)) y) :=
    Keeps.foldl h3 fun z l _ => by
      obtain ⟨f, hf, e⟩ := laneFld_pg p l
      have hl : ∀ f ∈ laneFields, f.addr / 4096 = 0x080 ∧ plainReg f.addr = true := by decide
      rw [e]
      exact set_port .refl hp (hl f hf).1 (hl f hf).2
  generalize List.foldl _ y [0, 1, 2] = z at h4 ⊢
  exact Keeps.ite (h4.lineBlocks hp _) (h4.showPatterns hp _)

end PageKept

namespace PageKept
variable {c d : Chip}

/-! #### A mode change (R86, R183) -/

theorem scan (h : PageKept c d) {s : ScanSt} : PageKept c (d.setScan s) := Keeps.setScan h

theorem scanStop (h : PageKept c d) (st : Nat) : PageKept c (d.scanStop st) := by
  unfold Chip.scanStop Chip.scanHalt Chip.setLag Chip.setScanState
  have h1 : PageKept c d.dropAllPixels := Keeps.foldl h fun _ _ _ => setPort .refl
  generalize d.dropAllPixels = x at h1 ⊢
  exact Keeps.set (Keeps.set (cond (Keeps.set (scan (scan h1))) (by decide)))

theorem scanModeChange (h : PageKept c d) : PageKept c d.scanModeChange := by
  unfold Chip.scanModeChange
  exact Keeps.ite (scanStop (Keeps.setScan h) _) (Keeps.setScan h)

theorem noteMixed (h : PageKept c d) (x : CanvasSt) : PageKept c (d.noteMixed x) := by
  unfold Chip.noteMixed
  dsimp only
  split
  · exact Keeps.ite (Keeps.of h rfl rfl rfl) h
  · exact h

theorem takeTask (h : PageKept c d) {e : Nat} (he : e < 16) : PageKept c (d.takeTask e) := by
  have ha : (F.MAP_STATUS_ACTIVE.pg e).addr = F.MAP_STATUS_ACTIVE.addr + 4096 * e := rfl
  have hp : ∀ e < 16, (F.MAP_STATUS_ACTIVE.pg e).addr ∉ pageRegs ∧ plainReg (F.MAP_STATUS_ACTIVE.pg e).addr = true := by decide +kernel
  unfold Chip.takeTask
  refine Keeps.ite h ?_
  split
  · exact h
  · next b _ =>
    split
    · exact h
    · dsimp only
      split
      · exact Keeps.set (Keeps.setMap (Keeps.setMap (h.noteMixed _))) (hp e he).1 (hp e he).2
      · exact Keeps.set (Keeps.setMap (Keeps.setMap h)) (hp e he).1 (hp e he).2

theorem keepCanvases (h : PageKept c d) (l : List CanvasSt) : PageKept c (d.keepCanvases l) := by
  unfold Chip.keepCanvases Chip.showWaits Chip.assignTasks
  exact Keeps.foldl (Keeps.set (Keeps.set (Keeps.setMap (Keeps.setMap h)))) fun x e he => takeTask .refl (List.mem_range.1 he)

theorem mapModeChange (h : PageKept c d) : PageKept c d.mapModeChange := keepCanvases (Keeps.setMap h) _

theorem withBar (h : PageKept c d) (b : BarSt) : PageKept c { d with bar := b } := Keeps.of h rfl rfl rfl

theorem latticeEntry (h : PageKept c d) : PageKept c d.latticeEntry := by
  have h1 : PageKept c d.masterMismatch := Keeps.ite (raise h) h
  unfold Chip.latticeEntry Chip.takeSrc
  exact Keeps.set ((((h1.withBar _).withBar _).withBar _))

/-! #### Registers left open (R34) -/

/-- A host error of a page leaves what the settings give, where the page holds none of it. -/
def openApart (b : Build) (pg : Nat) : Bool :=
  (findPage b pg).all fun p => p.regs.all fun r => r.offsets.all fun off => decide (pg * 4096 + off ∉ pageRegs) && plainReg (pg * 4096 + off)

theorem hostError (h : PageKept c d) {pg : Nat} (hp : openApart d.build pg = true) : PageKept c (d.hostError pg) := by
  have hs : ∀ x : Chip, x.build = d.build → PageKept x (x.scramble pg) := fun x hb => by
    unfold Chip.scramble
    rw [hb]
    unfold openApart at hp
    cases hf : findPage d.build pg with
    | none => exact .refl
    | some p =>
      rw [hf] at hp
      refine Keeps.foldl .refl fun y r hr => Keeps.foldl .refl fun z off ho => ?_
      have ha := List.all_eq_true.1 (List.all_eq_true.1 hp r hr) off ho
      obtain ⟨a1, a2⟩ := Bool.and_eq_true_iff.1 ha
      refine Keeps.ite .refl (Keeps.foldl .refl fun w f _ => Keeps.ite ?_ .refl)
      exact Keeps.set (openValue .refl) (of_decide_eq_true a1) a2
  unfold Chip.hostError
  dsimp only
  split
  · exact h.trans (hs d rfl)
  · have h1 : PageKept c { d with unpredictable := d.unpredictable ++ [pg] } := Keeps.of h rfl rfl rfl
    exact h1.trans (hs { d with unpredictable := d.unpredictable ++ [pg] } rfl)

theorem modeCommit (h : PageKept c d) (hb : d.build = .S) : PageKept c d.modeCommit := by
  have hp : openApart .S 0x022 = true := by decide +kernel
  unfold Chip.modeCommit
  dsimp only
  have h1 : PageKept c (if 24 ≤ d.use F.BAR_MODE_MODE_SEL then d.hostError 0x022 else d) := Keeps.ite (h.hostError (by rw [hb]; exact hp)) h
  generalize (if 24 ≤ d.use F.BAR_MODE_MODE_SEL then d.hostError 0x022 else d) = x at h1 ⊢
  refine Keeps.ite h1 ?_
  have h2 : PageKept c (x.set F.BAR_MODE_MODE_IN_USE (d.use F.BAR_MODE_MODE_SEL)) := Keeps.set h1
  exact Keeps.ite (withBar (latticeEntry (mapModeChange (scanModeChange h2))) _) h2

/-! #### The other pages -/

theorem tileCommit (h : PageKept c d) : PageKept c d.tileCommit := by
  unfold Chip.tileCommit
  dsimp only
  exact Keeps.ite (Keeps.set (Keeps.set (Keeps.set (Keeps.setScan h)))) (raise (Keeps.set (Keeps.set (Keeps.set (Keeps.setScan h)))))

theorem portModes (h : PageKept c d) (old : List Nat) : PageKept c (d.portModes old) :=
  Keeps.foldl h fun x p hp => Keeps.ite .refl (portRestart .refl (List.mem_range.1 hp))

theorem tempFactors (h : PageKept c d) : PageKept c d.tempFactors := by
  have hp : ∀ n < 4, ∀ f ∈ [F.CORRECT_BAND_TEMP_TJ.plus (4 * n), F.CORRECT_BAND_TEMP_SUBST.plus (4 * n)], f.addr ∉ pageRegs ∧ plainReg f.addr = true := by decide +kernel
  unfold Chip.tempFactors
  refine Keeps.foldl h fun x n hn => ?_
  have hk := hp n (List.mem_range.1 hn)
  dsimp only
  refine Keeps.foldl (Keeps.set (Keeps.set .refl (hk _ (by simp)).1 (hk _ (by simp)).2) (hk _ (by simp)).1 (hk _ (by simp)).2) fun y k _ => Keeps.setTile .refl

end PageKept

namespace SetKept
variable {c d : Chip}

theorem raise (h : SetKept c d) {e : Ev} : SetKept c (d.raise e) := h.trans (PageKept.raise .refl).any

theorem openValue (h : SetKept c d) {w : Nat} : SetKept c (d.openValue w).2 := h.trans (PageKept.openValue .refl).any

end SetKept

/-- What the settings give stays, and no event is lost; a commit may be taken. -/
structure SetHeld (c d : Chip) : Prop where
  rst : d.rst = c.rst
  build : d.build = c.build
  rd : ∀ a ∈ heldRegs, d.rd a = c.rd a
  pend : PendUp c d

namespace SetHeld
variable {c d e : Chip}

theorem refl : SetHeld c c := ⟨rfl, rfl, fun _ _ => rfl, PendUp.refl c⟩

theorem trans (h : SetHeld c d) (k : SetHeld d e) : SetHeld c e := ⟨k.rst.trans h.rst, k.build.trans h.build, fun a ha => (k.rd a ha).trans (h.rd a ha), h.pend.trans k.pend⟩

theorem of_kept (h : SetKept c d) : SetHeld c d := ⟨congrArg Prod.fst h.view, h.build, h.rd, h.pend⟩

theorem ite {p : Prop} [Decidable p] (h : SetHeld c d) (k : SetHeld c e) : SetHeld c (if p then d else e) := by
  split
  · exact h
  · exact k

theorem foldl {β : Type} {f : Chip → β → Chip} {l : List β} (h : SetHeld c d) (hf : ∀ x b, b ∈ l → SetHeld x (f x b)) : SetHeld c (l.foldl f d) :=
  h.trans (foldl_rel SetHeld (fun _ => refl) trans id f l (fun x b hb => hf x b hb) d)

theorem taken (h : SetHeld c d) (pg : Nat) : SetHeld c ((d.takeShadows pg).set (F.COMMIT.pg pg) 0) := by
  have ht : SetHeld d (d.takeShadows pg) := by
    unfold Chip.takeShadows
    split <;> exact ⟨rfl, rfl, fun _ _ => rfl, fun _ h => h⟩
  have ha : (F.COMMIT.pg pg).addr = 0x004 + 4096 * pg := rfl
  refine (h.trans ht).trans ⟨rfl, rfl, fun a hm => Chip.rd_set_ne _ _ _ _ ?_, fun e he => ?_⟩
  · have := heldRegs_page _ hm
    omega
  · rw [Chip.pend, Chip.rd_set_ne _ _ _ _ (by omega)]
    exact he

end SetHeld

/-- What a page starts as it takes its shadows: nothing that the settings give, nothing that is in use, in the memories or of the host, and no page
control changes by it (R38). -/
theorem Chip.applyPage_kept (c : Chip) (pg : Nat) : PageKept ((c.takeShadows pg).set (F.COMMIT.pg pg) 0) (c.applyPage pg) := by
  unfold Chip.applyPage
  dsimp only
  generalize (c.takeShadows pg).set (F.COMMIT.pg pg) 0 = x
  split
  next hb =>
    exact Keeps.ite (PageKept.modeCommit .refl hb) (Keeps.ite (Keeps.setMap .refl) (Keeps.ite (PageKept.tileCommit .refl) (Keeps.ite (PageKept.portModes .refl _) .refl)))
  next hb =>
    refine Keeps.ite (Keeps.tileShow (PageKept.tempFactors (Keeps.setTile .refl)) (hA := by decide +kernel)) (Keeps.ite (Keeps.tileShow .refl (hA := by decide +kernel)) ?_)
    exact Keeps.ite (Keeps.setTile .refl) (Keeps.ite (Keeps.setDrive .refl) .refl)

namespace SetHeld
variable {c d e : Chip}

/-- A page takes its shadows: what the settings give stays as it is written (R38). -/
theorem applyPage (h : SetHeld c d) (pg : Nat) : SetHeld c (d.applyPage pg) := (h.taken pg).trans (.of_kept (d.applyPage_kept pg).any)

theorem settle (h : SetHeld c d) : SetHeld c d.settle := h.foldl fun x pg _ => .ite .refl (applyPage .refl pg)

end SetHeld

/-! ### The banks at start (R225, R395) -/

namespace SetKept
variable {c d : Chip}

/-- A count or a state of a bank. -/
theorem set_bank (h : SetKept c d) {f : Fld} {b v : Nat} (hb : b < 8) (hf : f.addr / 4096 = 0x0D0 := by decide) (h4 : plainReg f.addr = true := by decide) :
    SetKept c (d.set (f.pg b) v) := by
  have ha : (f.pg b).addr = f.addr + 4096 * b := rfl
  refine Keeps.set h (fun hm => ?_) (by rw [plainReg_pg, h4])
  have := heldRegs_page _ hm
  omega

theorem setMem (h : SetKept c d) (m : MemSt) : SetKept c { d with mem := m } := Keeps.of h rfl rfl rfl

theorem setBank (h : SetKept c d) {b : Nat} {s : BankSt} : SetKept c (d.setBank b s) := h.setMem _

theorem report (h : SetKept c d) {pg : Nat} {l : List ErrRec} : SetKept c (d.report pg l) := Keeps.report h (by decide +kernel)

theorem sramReadWord (h : SetKept c d) (u w : Nat) : SetKept c (d.sramReadWord u w).2 := by
  unfold Chip.sramReadWord
  dsimp only
  split
  · exact h
  · unfold Chip.sramCe
    exact raise (Keeps.wr (report h) (by decide +kernel))
  · exact h
  · unfold Chip.sramUe
    exact Keeps.ite h (raise (report (setBank h)))

theorem sramStore (h : SetKept c d) (k : Nat) (w : Word128) (s : Nat) : SetKept c (d.sramStore k w s) := by
  unfold Chip.sramStore
  dsimp only
  have ha : (F.FLIP_ARM.pg (bankPage (bankOf k))).addr = 0x34 + 4096 * bankPage (bankOf k) := rfl
  refine Keeps.ite (setMem (Keeps.set h (fun hm => ?_) (by rw [plainReg_pg]; decide)) _) (h.setMem _)
  have := heldRegs_page _ hm
  omega

theorem retireEntry (h : SetKept c d) (b : Nat) (e : MergeEntry) : SetKept c (d.retireEntry b e) := by
  unfold Chip.retireEntry
  exact Keeps.ite (h.sramStore _ _ _) ((h.sramReadWord _ _).sramStore _ _ _)

theorem showMerge (h : SetKept c d) {b : Nat} (hb : b < 8) : SetKept c (d.showMerge b) := h.set_bank hb

theorem retireWord (h : SetKept c d) {b : Nat} (hb : b < 8) (w : Nat) : SetKept c (d.retireWord b w) := by
  unfold Chip.retireWord
  dsimp only
  split
  · exact h
  · exact showMerge (retireEntry (setBank h) _ _) hb

theorem retireOldest (h : SetKept c d) {b : Nat} (hb : b < 8) : SetKept c (d.retireOldest b) := by
  unfold Chip.retireOldest
  split
  · exact h
  · exact showMerge (retireEntry (setBank h) _ _) hb

theorem mergeWrite (h : SetKept c d) {b : Nat} (hb : b < 8) (w : Nat) (x : Word128) (m : Nat) : SetKept c (d.mergeWrite b w x m) := by
  unfold Chip.mergeWrite
  dsimp only
  split
  · exact Keeps.ite (retireWord (setBank h) hb _) (setBank h)
  · have hk : SetKept c (if (d.bank b).merge.length < 8 then d else d.retireOldest b) := Keeps.ite h (h.retireOldest hb)
    generalize (if (d.bank b).merge.length < 8 then d else d.retireOldest b) = y at hk ⊢
    exact showMerge (setBank hk) hb

/-- A write of a word of the banks. -/
theorem bankWriteWord (h : SetKept c d) {w : Nat} (hw : w < 524288) (m : Nat) (bytes : List (Option Byte)) (path : Option Origin) :
    SetKept c (d.bankWriteWord m w bytes path) := by
  have hb : w / 65536 < 8 := by omega
  rw [Chip.bankWriteWord_eq]
  refine Keeps.ite (setBank h) (Keeps.ite (raise (Keeps.bumpSat h ?_ ?_)) (Keeps.ite h (Keeps.ite (showMerge (sramStore (setBank h) _ _ _) hb) (h.mergeWrite hb _ _ _))))
  · have ha : (F.BANK_DENY_COUNT_COUNT.pg (w / 65536)).addr = 0x0D0058 + 4096 * (w / 65536) := rfl
    intro hm
    have := heldRegs_page _ hm
    omega
  · rw [plainReg_pg]
    decide

theorem retireAll (h : SetKept c d) {b : Nat} (hb : b < 8) : SetKept c (d.retireAll b) := by
  unfold Chip.retireAll
  exact showMerge (Keeps.foldl (setBank h) fun x e _ => retireEntry .refl _ _) hb

theorem ownerWrite (h : SetKept c d) {b : Nat} (hb : b < 8) (v : Nat) : SetKept c (d.ownerWrite b v) := by
  unfold Chip.ownerWrite
  obtain ⟨m, e⟩ := d.ownerErrors_eq b (d.bank b).owner (d.ownerCode v)
  dsimp only
  rw [e]
  exact set_bank (setBank (retireAll (set_bank (h.setMem _) hb) hb)) hb

/-- A word of a run of bytes lies where they lie. -/
theorem wordLanes_lt {ofs : Nat} {l : List (Option Byte)} {n : Nat} (h : ofs + l.length ≤ 16 * n) : ∀ x ∈ wordLanes ofs l, x.1 < n := by
  intro x hx
  unfold wordLanes at hx
  obtain ⟨i, hi, rfl⟩ := List.mem_map.1 hx
  have hi := List.mem_range.1 hi
  dsimp only
  split at hi
  · omega
  · have : 0 < l.length := List.length_pos_iff.2 (by rintro rfl; simp_all)
    omega

theorem belfryWrite (h : SetKept c d) {ofs : Nat} {l : List Byte} (hl : ofs + l.length ≤ 8388608) : SetKept c (d.belfryWrite ofs l) := by
  unfold Chip.belfryWrite
  exact Keeps.foldl h fun x w hw => bankWriteWord .refl (wordLanes_lt (n := 524288) (by rw [List.length_map]; omega) w hw) _ _ _

theorem belfryHolds (h : SetKept c d) {b : Nat} (hb : b < 8) {f : Chip → Chip} (hf : ∀ x, SetKept x (f x)) : SetKept c (d.belfryHolds b f) := by
  unfold Chip.belfryHolds
  exact setBank (retireAll ((setBank (retireAll h hb)).trans (hf _)) hb)

end SetKept

/-- A 32-bit write of a register is carried out, or waits on its path (R72). -/
theorem Chip.write32_cases (c : Chip) (o : Origin) (a : Nat) (w : Word) (d : RegDef) (ha : a < 0x400000) (h4 : a % 4 = 0) (hr : regAt c.build a = .reg d) :
    c.write32 o a w = c.regWrite o a w ∨ ∃ h, c.write32 o a w = c.hold h := by
  have e1 : a % 2 ^ 24 = a := Nat.mod_eq_of_lt (by omega)
  have e2 : ¬ 0x800000 ≤ a := by omega
  unfold Chip.write32 Chip.busWrite busWords
  simp only [show ((4 : Nat) = 8) = False by decide, decide_false, Bool.false_and, Bool.false_eq_true, if_false, List.foldl_cons, List.foldl_nil]
  split
  · exact .inr ⟨_, rfl⟩
  · left
    unfold Chip.busNow Chip.busAt Chip.ignoredReason
    simp only [e1, e2, if_false, ha, if_true, mod_quarter a h4, hr, h4]
    simp

/-- An owner written, whether the path is open or not. -/
theorem SetHeld.write32_owner (c : Chip) (o : Origin) (b : Nat) (w : Word) (hb : b < 8) : SetHeld c (c.write32 o (F.BANK_OWNER_OWNER.pg b).addr w) := by
  obtain ⟨d, hd, hq⟩ := regAt_owner c.build b hb
  obtain ⟨h1, h2, h3, h4, h5⟩ := ownerAddr_plain b hb
  rcases c.write32_cases o _ w d h1 h2 hd with e | ⟨h, e⟩
  · have hl : SetKept c (c.logged o (F.BANK_OWNER_OWNER.pg b).addr d w) := by
      unfold Chip.logged
      exact Keeps.ite (Keeps.logChange .refl (by decide +kernel)) .refl
    have he : c.regWrite o (F.BANK_OWNER_OWNER.pg b).addr w =
        (((c.logged o (F.BANK_OWNER_OWNER.pg b).addr d w).writeEffect o (F.BANK_OWNER_OWNER.pg b).addr (c.rd (F.BANK_OWNER_OWNER.pg b).addr) w).noteMirror
          (F.BANK_OWNER_OWNER.pg b).addr).settle := by
      unfold Chip.regWrite
      rw [hd]
      dsimp only
      rw [if_neg (by omega)]
      unfold Chip.blockWrite Chip.sizeError Chip.logged
      simp only [hq, h4, h5, decide_false, Bool.false_and, Bool.or_false, Bool.false_eq_true, if_false, if_true]
    rw [e, he, Chip.writeEffect_owner _ o b hb]
    have hm : ∀ x : Chip, SetKept x (x.noteMirror (F.BANK_OWNER_OWNER.pg b).addr) := fun x => by
      rcases x.noteMirror_cases (F.BANK_OWNER_OWNER.pg b).addr with h | ⟨m, h⟩ <;> rw [h]
      · exact .refl
      · exact Keeps.setMirror .refl
    exact (SetHeld.of_kept ((hl.ownerWrite hb _).trans (hm _))).settle
  · rw [e]
    exact .of_kept (Keeps.of (.refl : SetKept c c) rfl rfl rfl)

theorem SetHeld.startBanks {c d : Chip} (h : SetHeld c d) (w hh : Nat) (image : List Byte) : SetHeld c (d.startBanks w hh image) := by
  have ho : ∀ (x : Chip) (l : List Nat) v, (∀ b ∈ l, b < 8) → SetHeld x (l.foldl (fun c b => c.writeField .belfry (F.BANK_OWNER_OWNER.pg b) v) x) :=
    fun x l v hl => .foldl .refl fun y b hb => by
      unfold Chip.writeField
      exact .write32_owner y _ b _ (hl b hb)
  unfold Chip.startBanks
  split
  · exact h.trans (ho d _ _ fun b hb => List.mem_range.1 hb)
  · dsimp only
    have hw : SetHeld c (if (decide (w ≤ 1024) && decide (hh ≤ 1024) && decide (0 < 4 * w * hh) && decide (image.length = 4 * w * hh)) = true then
        (((List.range 4).foldl (fun c b => c.belfryHolds b (fun c => c.belfryWrite (b * 1048576) (slice image (b * 1048576) 1048576))) d).set
          F.RESET_HOLD_SIZE_W w).set F.RESET_HOLD_SIZE_H hh else d) := by
      have hf : SetKept d ((List.range 4).foldl (fun c b => c.belfryHolds b (fun c => c.belfryWrite (b * 1048576) (slice image (b * 1048576) 1048576))) d) :=
        Keeps.foldl .refl fun x b hb => by
          have hb := List.mem_range.1 hb
          refine SetKept.belfryHolds .refl (by omega) fun y => SetKept.belfryWrite .refl ?_
          rw [slice, List.length_take]
          omega
      exact .ite (h.trans (.of_kept (Keeps.set (Keeps.set hf)))) h
    generalize (if (decide (w ≤ 1024) && decide (hh ≤ 1024) && decide (0 < 4 * w * hh) && decide (image.length = 4 * w * hh)) = true then
        (((List.range 4).foldl (fun c b => c.belfryHolds b (fun c => c.belfryWrite (b * 1048576) (slice image (b * 1048576) 1048576))) d).set
          F.RESET_HOLD_SIZE_W w).set F.RESET_HOLD_SIZE_H hh else d) = x at hw ⊢
    exact hw.trans (ho x _ _ fun b hb => by have := List.mem_range.1 hb; omega)

/-! ### The settings at start (R384, R398) -/

/-- What the choice of a settings copy goes by, and the paths. -/
def copyView (x : Chip) : Memory × Nat × HostSt × SMap BankSt := (x.belfry.flash, x.upd.settingsFmt, openView x)

theorem Chip.readableSettings_congr {c d : Chip} (h : copyView d.still = copyView c.still) : d.readableSettings = c.readableSettings := by
  have h1 : d.belfry.flash = c.belfry.flash := congrArg (fun x => x.1) h
  have h2 : d.upd.settingsFmt = c.upd.settingsFmt := congrArg (fun x => x.2.1) h
  unfold Chip.readableSettings
  simp only [Chip.copyInfo_flash h1, h2]

theorem Chip.copyBroken_flash {c d : Chip} (h : d.belfry.flash = c.belfry.flash) (area index k : Nat) : d.copyBroken area index k = c.copyBroken area index k := by
  unfold Chip.copyBroken
  rw [Chip.copyInfo_flash h, h]

/-- A broken copy is reported. -/
def Chip.noteCopy (c : Chip) (x : (Nat × Nat) × Nat) : Chip :=
  if c.copyBroken x.1.1 x.1.2 x.2 then (c.raise E.JOURNAL_FAIL).logUpd 12 (ofLe (c.flashRead (areaAddr x.1.1 x.1.2 x.2 + 8) 4)) else c

theorem Keeps.logUpd_held {α : Type} {ρ : Chip → α} {c d : Chip} {code detail : Nat} (h : Keeps ρ heldRegs [] c d)
    (hv : ∀ (x : Chip) l, ρ (x.setBelfry { x.belfry with logBuf := l }).still = ρ x.still := by intros; rfl) : Keeps ρ heldRegs [] c (d.logUpd code detail) := by
  unfold Chip.logUpd Chip.logNow Chip.logAdd
  exact .ite (.setBelfry h (hv _ _)) (.raise (.bumpSat h (by decide +kernel)) (by decide +kernel))

theorem Keeps.noteCopy (c : Chip) (x : (Nat × Nat) × Nat) : Keeps copyView heldRegs [] c (c.noteCopy x) := by
  unfold Chip.noteCopy
  exact .ite (.logUpd_held (.raise .refl (by decide +kernel))) .refl

/-- Broken copies are reported: nothing of the settings differs, and a broken copy of the list is JOURNAL_FAIL. -/
theorem Chip.noteCopies_spec (l : List ((Nat × Nat) × Nat)) (c : Chip) :
    Keeps copyView heldRegs [] c (l.foldl Chip.noteCopy c) ∧
      ∀ x ∈ l, c.copyBroken x.1.1 x.1.2 x.2 = true → (l.foldl Chip.noteCopy c).pend E.JOURNAL_FAIL = true := by
  refine ⟨.foldl .refl fun y x _ => .noteCopy y x, ?_⟩
  induction l generalizing c with
  | nil => exact fun x hx => absurd hx List.not_mem_nil
  | cons y l ih =>
    intro x hx hb
    have hk := Keeps.noteCopy c y
    have hf : (c.noteCopy y).belfry.flash = c.belfry.flash := congrArg Prod.fst hk.view
    have hrest : Keeps copyView heldRegs [] (c.noteCopy y) (l.foldl Chip.noteCopy (c.noteCopy y)) := .foldl .refl fun z w _ => .noteCopy z w
    rcases List.mem_cons.1 hx with rfl | hx
    · refine hrest.pend _ ?_
      unfold Chip.noteCopy
      rw [if_pos hb]
      have h1 : (c.raise E.JOURNAL_FAIL).pend E.JOURNAL_FAIL = true := Chip.raise_pend _ _ (settings_hasPage _) (by decide)
      generalize c.raise E.JOURNAL_FAIL = z at h1 ⊢
      exact (Keeps.logUpd_held (.refl : SetKept z z)).pend _ h1
    · exact ih (c.noteCopy y) x hx (by rw [Chip.copyBroken_flash hf]; exact hb)

theorem Chip.noteBroken_spec (c : Chip) :
    Keeps copyView heldRegs [] c c.noteBroken ∧ ((∃ k, k < 2 ∧ c.copyBroken arSettings 0 k = true) → c.noteBroken.pend E.JOURNAL_FAIL = true) := by
  have hm : ∀ k < 2, ∀ b : Build, ((arSettings, 0), k) ∈ (match b with
      | .S => [(arSettings, 0)]
      | .T => [(arSettings, 0), (arCalib, 0), (arHold, 0), (arHold, 1), (arHold, 2), (arHold, 3), (arDose, 0)]).flatMap (fun a => [(a, 0), (a, 1)]) := by
    intro k hk b
    cases b <;> interval_cases k <;> decide
  obtain ⟨h1, h2⟩ := Chip.noteCopies_spec ((match c.build with
      | .S => [(arSettings, 0)]
      | .T => [(arSettings, 0), (arCalib, 0), (arHold, 0), (arHold, 1), (arHold, 2), (arHold, 3), (arDose, 0)]).flatMap (fun a => [(a, 0), (a, 1)])) c
  exact ⟨h1, fun ⟨k, hk, hb⟩ => h2 _ (hm k hk c.build) hb⟩

/-- The device starts with what the reset left. -/
theorem Chip.settingsDefault_spec (c : Chip) :
    c.settingsDefault.get F.SETTINGS_STATUS_DEFAULTED = 1 ∧ c.settingsDefault.pend E.SETTINGS_FAIL = true ∧ PendUp c c.settingsDefault ∧
      ∀ a ∈ heldRegs, a ≠ F.SETTINGS_STATUS_DEFAULTED.addr → c.settingsDefault.rd a = c.rd a := by
  unfold Chip.settingsDefault
  have h0 : (c.set F.SETTINGS_STATUS_DEFAULTED 1).get F.SETTINGS_STATUS_DEFAULTED = 1 := Chip.get_set _ _ _ (by decide) (by decide)
  have p0 : PendUp c (c.set F.SETTINGS_STATUS_DEFAULTED 1) := (Keeps.set (.refl : Keeps (fun _ => ()) [] [] c c)).pend
  have r0 : ∀ a, a ≠ F.SETTINGS_STATUS_DEFAULTED.addr → (c.set F.SETTINGS_STATUS_DEFAULTED 1).rd a = c.rd a := fun a ha => Chip.rd_set_ne _ _ _ _ ha
  generalize c.set F.SETTINGS_STATUS_DEFAULTED 1 = d at h0 p0 r0 ⊢
  have h1 : (d.raise E.SETTINGS_FAIL).pend E.SETTINGS_FAIL = true := Chip.raise_pend _ _ (settings_hasPage _) (by decide)
  have k1 : SetKept d (d.raise E.SETTINGS_FAIL) := SetKept.raise .refl
  generalize d.raise E.SETTINGS_FAIL = e at h1 k1 ⊢
  have k2 : SetKept e (e.logUpd 9 0) := .logUpd_held .refl
  have k3 := k1.trans k2
  exact ⟨(k3.get F.SETTINGS_STATUS_DEFAULTED (by decide +kernel)).trans h0, k2.pend _ h1, p0.trans k3.pend, fun a ha hne => (k3.rd a ha).trans (r0 a hne)⟩

/-- Settings that do not come, or cannot be read. -/
theorem Chip.settingsApply_default (c : Chip) (timedOut : Bool) (w h : Nat) (image : List Byte) (hr : c.belfry.running = true)
    (hd : c.get F.RESET_BRINGUP_DONE / 32 % 2 = 0) (hn : timedOut = true ∨ c.readableSettings = none) :
    let t := c.settingsApply timedOut w h image
    t.get F.SETTINGS_STATUS_DEFAULTED = 1 ∧ t.pend E.SETTINGS_FAIL = true ∧ (∀ a ∈ c.settingsRegs, t.rd a = c.rd a) ∧
      ((∃ k, k < 2 ∧ c.copyBroken arSettings 0 k = true) → t.pend E.JOURNAL_FAIL = true) := by
  obtain ⟨n1, n2⟩ := c.noteBroken_spec
  have he : c.settingsApply timedOut w h image = c.noteBroken.settingsDefault.startBanks w h image := by
    unfold Chip.settingsApply
    rw [if_neg (by simp [hr, hd])]
    dsimp only
    rcases hn with rfl | hn
    · rw [if_pos rfl]
    · have hn' : c.noteBroken.readableSettings = none := (Chip.readableSettings_congr n1.view).trans hn
      split
      · rfl
      · rw [Chip.settingsRead, hn']
  obtain ⟨d1, d2, d3, d4⟩ := c.noteBroken.settingsDefault_spec
  have hs : SetHeld c.noteBroken.settingsDefault (c.noteBroken.settingsDefault.startBanks w h image) := SetHeld.refl.startBanks w h image
  have hstat : F.SETTINGS_STATUS_DEFAULTED.addr ∈ heldRegs := by decide +kernel
  have hoff : ∀ a ∈ c.settingsRegs, a ≠ F.SETTINGS_STATUS_DEFAULTED.addr := by
    unfold Chip.settingsRegs Chip.sensors
    cases c.build <;> decide +kernel
  dsimp only
  rw [he]
  refine ⟨?_, hs.pend _ d2, fun a ha => ?_, fun hb => hs.pend _ (d3 _ (n2 hb))⟩
  · rw [Chip.get, hs.rd _ hstat, ← Chip.get, d1]
  · have hm := c.settingsRegs_held a ha
    rw [hs.rd a hm, d4 a hm (hoff a ha), n1.rd a hm]

/-! ### The records of a settings copy (R384) -/

/-- The registers that a setting leaves when it is written. -/
def heldBut (a : Nat) : List Nat := heldRegs.filter (· ≠ a)

theorem heldBut_mem {a b : Nat} : b ∈ heldBut a ↔ b ∈ heldRegs ∧ b ≠ a := by simp [heldBut]

theorem heldBut_calm (a : Nat) : (heldBut a).all calmReg = true := by
  have h : ∀ b ∈ heldRegs, calmReg b = true := by decide +kernel
  exact List.all_eq_true.2 fun b hb => h b (heldBut_mem.1 hb).1

theorem settingsRegs_build {c d : Chip} (h : d.build = c.build) : d.settingsRegs = c.settingsRegs := by
  unfold Chip.settingsRegs Chip.sensors
  rw [h]

theorem settingsRegs_reg (c : Chip) : ∀ a ∈ c.settingsRegs, ∃ d, regAt c.build a = .reg d := by
  have h : ∀ b : Build, ∀ a ∈ (Chip.init b).settingsRegs, (match regAt b a with | .reg _ => true | _ => false) = true := by
    intro b
    cases b <;> decide +kernel
  intro a ha
  have := h c.build a ((settingsRegs_build (c := Chip.init c.build) (d := c) rfl) ▸ ha)
  split at this
  case h_1 d hd => exact ⟨d, hd⟩
  case h_2 => exact absurd this (by decide)

theorem settingsRegs_plain : ∀ a ∈ heldRegs, a ≠ F.THERMAL_MASK_MASK.addr → a < 0x400000 ∧ a % 4 = 0 ∧ 0x40 ≤ a % 4096 ∧ a ≠ F.DEBUG_CTRL_UNLOCK.addr ∧
    unstored a = false ∧ plainReg a = true ∧ a ≠ F.MAPCTL_CANVAS_SIZE_WIDTH.addr ∧ a ≠ F.SCAN_SPLIT_SPLIT_X.addr := by
  decide +kernel

/-- What the write of a setting sets off: ALERT_N alone, with the mask of it (R59). -/
theorem Chip.writeEffect_setting (c : Chip) (a : Nat) (old w : Word) (ha : a ∈ heldRegs) (hm : a ≠ F.THERMAL_MASK_MASK.addr) :
    c.writeEffect .belfry a old w = c ∨ c.writeEffect .belfry a old w = c.alertFall := by
  simp only [heldRegs, List.mem_append, List.mem_cons, List.not_mem_nil, or_false] at ha
  rcases ha with ((((rfl | rfl | rfl) | ha) | (rfl | rfl | rfl | rfl)) | (rfl | rfl | rfl | rfl | rfl | rfl))
  · exact .inr rfl
  · exact absurd rfl hm
  · exact .inl rfl
  · obtain ⟨n, hn, rfl⟩ := List.mem_map.1 ha
    have := List.mem_range.1 hn
    left
    unfold Chip.writeEffect
    interval_cases n <;> simp (disch := decide) only [if_neg]
  all_goals
    left
    unfold Chip.writeEffect
    simp (disch := decide) only [if_neg, ite_self]

theorem Keeps.alertFall {α : Type} {ρ : Chip → α} {A : List Nat} {R : List Ev} {c d : Chip} (h : Keeps ρ A R c d) : Keeps ρ A R c d.alertFall := by
  unfold Chip.alertFall
  exact .ite (.emit (.of h rfl rfl rfl)) h

theorem Keeps.noteMirror {A : List Nat} {R : List Ev} {c d : Chip} (h : Keeps openView A R c d) (a : Nat) : Keeps openView A R c (d.noteMirror a) := by
  rcases d.noteMirror_cases a with e | ⟨m, e⟩ <;> rw [e]
  · exact h
  · exact .setMirror h

/-- The change record of the write of a setting, where R51 asks for one. -/
def Chip.noted (c : Chip) (a : Nat) (d : RegDef) (w : Word) : Chip :=
  if d.shadowed || d.quiesceChange (c.rd a) w || d.commandBit w || d.command then c.logChange .belfry a w else c

theorem Chip.blockWrite_setting (c : Chip) (a : Nat) (d : RegDef) (w : Word) (ha : a ∈ heldRegs) (hm : a ≠ F.THERMAL_MASK_MASK.addr)
    (hen : c.en (a / 4096) = false) : c.blockWrite .belfry a d w =
      ((((c.noted a d w).wr a (d.store (c.rd a) w)).writeEffect .belfry a (c.rd a) w).noteMirror a).settle := by
  obtain ⟨-, -, -, hdbg, hu, hp, h1, h2⟩ := settingsRegs_plain a ha hm
  have hn : Keeps (fun _ => ()) [] [] c ((c.noted a d w).wr a (d.store (c.rd a) w)) := .wr (.ite (.logChange .refl) .refl) List.not_mem_nil hp
  have hen' := (Chip.en_congr hn.build hn.ctrls (a / 4096)).trans hen
  unfold Chip.noted at hen' ⊢
  unfold Chip.blockWrite Chip.sizeError
  simp only [hdbg, hu, h1, h2, decide_false, Bool.false_and, Bool.and_false, Bool.or_false, Bool.false_eq_true, if_false, hen']

/-- The write of a setting by the Belfry at start: its register takes the word, every other keeps its own. -/
theorem Chip.write32_setting (c : Chip) (a : Nat) (w : Word) (d : RegDef) (hc : Calm c) (hen : ∀ pg, pg < 1024 → c.en pg = false) (ha : a ∈ heldRegs)
    (hm : a ≠ F.THERMAL_MASK_MASK.addr) (hr : regAt c.build a = .reg d) :
    Keeps openView (heldBut a) [] c (c.write32 .belfry a w) ∧ (c.write32 .belfry a w).rd a = d.store (c.rd a) w := by
  obtain ⟨hlt, h4, h40, -, -, hp, -, -⟩ := settingsRegs_plain a ha hm
  rw [Chip.write32_block c .belfry a w d hlt h4 h40 hr hc.2, c.blockWrite_setting a d w ha hm (hen _ (by omega))]
  have h1 : Keeps openView (heldBut a) [] c ((c.noted a d w).wr a (d.store (c.rd a) w)) :=
    .wr (.ite (.logChange .refl (fun h => absurd (heldBut_mem.1 h).1 (by decide +kernel)) (heldBut_calm a)) .refl) (fun h => (heldBut_mem.1 h).2 rfl) hp
  have e1 : ((c.noted a d w).wr a (d.store (c.rd a) w)).rd a = d.store (c.rd a) w := by rw [Chip.rd_wr, if_pos rfl]
  generalize (c.noted a d w).wr a (d.store (c.rd a) w) = x at h1 e1 ⊢
  have h2 : Keeps openView heldRegs [] x (x.writeEffect .belfry a (c.rd a) w) := by
    rcases x.writeEffect_setting a (c.rd a) w ha hm with e | e <;> rw [e]
    · exact .refl
    · exact .alertFall .refl
  generalize x.writeEffect .belfry a (c.rd a) w = y at h2 ⊢
  have h3 := h2.noteMirror a
  have h4 : Keeps openView (heldBut a) [] c (y.noteMirror a) := h1.trans ⟨h3.view, h3.build, fun b hb => h3.rd b (heldBut_mem.1 hb).1, h3.raw, h3.ctrls, h3.pend⟩
  rw [(h4.calm hc).settle]
  exact ⟨h4, (h3.rd a ha).trans e1⟩

/-! ### The records of a settings copy in turn -/

/-- A record of one word of a register of the settings, other than the mask of the sensors. -/
def SettingRec (c : Chip) (r : SetRec) : Prop :=
  r.typ = 1 ∧ r.words.length = 1 ∧ r.addr ∈ c.settingsRegs ∧ r.addr ≠ F.THERMAL_MASK_MASK.addr

/-- The word of such a record. -/
def SetRec.word (r : SetRec) : Word := BitVec.ofNat 32 (r.words.getD 0 0)

theorem Chip.applyRecord_one (c : Chip) (r : SetRec) (h : r.typ = 1) (hl : r.words.length = 1) : c.applyRecord r = c.write32 .belfry r.addr r.word := by
  obtain ⟨v, hv⟩ := List.length_eq_one_iff.1 hl
  unfold Chip.applyRecord SetRec.word
  rw [h, hv]
  rfl

theorem Chip.applyRecords_spec (l : List SetRec) (c : Chip) (hc : Calm c) (hen : ∀ pg, pg < 1024 → c.en pg = false) (hl : ∀ r ∈ l, SettingRec c r)
    (hn : (l.map (·.addr)).Nodup) :
    Keeps openView [] [] c (l.foldl Chip.applyRecord c) ∧
      (∀ a ∈ heldRegs, (∀ r ∈ l, r.addr ≠ a) → (l.foldl Chip.applyRecord c).rd a = c.rd a) ∧
      ∀ r ∈ l, ∀ d, regAt c.build r.addr = .reg d → (l.foldl Chip.applyRecord c).rd r.addr = d.store (c.rd r.addr) r.word := by
  induction l generalizing c with
  | nil => exact ⟨.refl, fun _ _ _ => rfl, fun r hr => absurd hr List.not_mem_nil⟩
  | cons r l ih =>
    rw [List.foldl_cons]
    obtain ⟨h1, h2, h3, h4⟩ := hl r List.mem_cons_self
    obtain ⟨d, hd⟩ := settingsRegs_reg c r.addr h3
    obtain ⟨k, hw⟩ := c.write32_setting r.addr r.word d hc hen (c.settingsRegs_held _ h3) h4 hd
    rw [← c.applyRecord_one r h1 h2] at k hw
    generalize c.applyRecord r = x at k hw ⊢
    obtain ⟨hnr, hnl⟩ := List.nodup_cons.1 hn
    have hne : ∀ q ∈ l, q.addr ≠ r.addr := fun q hq e => hnr (List.mem_map.2 ⟨q, hq, e⟩)
    have hs : x.settingsRegs = c.settingsRegs := settingsRegs_build k.build
    obtain ⟨i1, i2, i3⟩ := ih x (k.calm hc) (fun pg hp => (Chip.en_congr k.build k.ctrls pg).trans (hen pg hp))
      (fun q hq => by
        have := hl q (List.mem_cons_of_mem _ hq)
        rwa [SettingRec, hs]) hnl
    refine ⟨(k.mono (A' := []) (R' := []) k.view (List.nil_subset _)).trans i1, fun a ha hq => ?_, fun q hq d' hd' => ?_⟩
    · rw [i2 a ha fun q hq' => hq q (List.mem_cons_of_mem _ hq'), k.rd a (heldBut_mem.2 ⟨ha, fun e => hq r List.mem_cons_self e.symm⟩)]
    · rcases List.mem_cons.1 hq with rfl | hq'
      · obtain rfl : d = d' := by
          rw [hd] at hd'
          exact RegAt.reg.inj hd'
        rw [i2 _ (c.settingsRegs_held _ h3) hne, hw]
      · obtain ⟨-, -, hm, -⟩ := hl q hq
        rw [i3 q hq' d' (by rwa [k.build]), k.rd _ (heldBut_mem.2 ⟨c.settingsRegs_held _ hm, hne q hq'⟩)]

/-! ### A start with a settings copy (R384) -/

theorem Chip.showCopy_spec (c : Chip) (k : Nat) (i : CopyInfo) (hk : k < 2) (hi : i.seq < 2 ^ 32) :
    (c.showCopy k i).get F.SETTINGS_STATUS_COPY = k ∧ (c.showCopy k i).get F.SETTINGS_SEQ_SEQ = i.seq ∧ Keeps openView [] [] c (c.showCopy k i) ∧
      ∀ a, a ≠ F.SETTINGS_STATUS_COPY.addr → a ≠ F.SETTINGS_SEQ_SEQ.addr → (c.showCopy k i).rd a = c.rd a := by
  unfold Chip.showCopy
  refine ⟨?_, ?_, .set (.set (.set .refl)), fun a h1 h2 => ?_⟩
  · rw [Chip.get_set_ne _ _ _ _ (by decide), Chip.get_set_field _ _ _ _ (by decide) (by decide) (by decide) (by decide),
      Chip.get_set _ _ _ (by decide) (by decide)]
    exact Nat.mod_eq_of_lt hk
  · rw [Chip.get_set _ _ _ (by decide) (by decide)]
    exact Nat.mod_eq_of_lt hi
  · rw [Chip.rd_set_ne _ _ _ _ h2, Chip.rd_set_ne _ _ _ _ (show a ≠ F.SETTINGS_STATUS_FORMAT.addr from h1), Chip.rd_set_ne _ _ _ _ h1]

theorem Chip.settingsMigrate_spec (c : Chip) (k : Nat) (i : CopyInfo) (recs : List SetRec) :
    (c.settingsMigrate k i recs).get F.SETTINGS_STATUS_COPY = c.get F.SETTINGS_STATUS_COPY ∧
      ∀ a, a ≠ F.SETTINGS_STATUS_COPY.addr → (c.settingsMigrate k i recs).rd a = c.rd a := by
  unfold Chip.settingsMigrate Chip.when
  dsimp only
  split
  · exact ⟨rfl, fun _ _ => rfl⟩
  · split
    · split
      · exact ⟨Chip.get_set_field _ _ _ _ (by decide) (by decide) (by decide) (by decide),
          fun a h => Chip.rd_set_ne _ _ _ _ (show a ≠ F.SETTINGS_STATUS_MIGRATED.addr from h)⟩
      · exact ⟨rfl, fun _ _ => rfl⟩
    · exact ⟨Chip.get_set_field _ _ _ _ (by decide) (by decide) (by decide) (by decide),
        fun a h => Chip.rd_set_ne _ _ _ _ (show a ≠ F.SETTINGS_STATUS_SAVING.addr from h)⟩

theorem Chip.copyInfo_seq {c : Chip} {area index k : Nat} {i : CopyInfo} (h : c.copyInfo area index k = some i) : i.seq < 2 ^ 32 := by
  unfold Chip.copyInfo at h
  dsimp only at h
  split at h
  · obtain rfl := Option.some.inj h
    refine lt_of_lt_of_le (ofLe_lt _) (Nat.pow_le_pow_right (by decide) ?_ |>.trans (show 256 ^ 4 ≤ 2 ^ 32 by decide))
    unfold slice
    rw [List.length_take]
    exact Nat.min_le_left _ _
  · cases h

theorem Chip.readableSettings_some {c : Chip} {k : Nat} {i : CopyInfo} (h : c.readableSettings = some (k, i)) : k < 2 ∧ i.seq < 2 ^ 32 := by
  have hf : ∀ {n : Nat} {j : CopyInfo}, (c.copyInfo arSettings 0 n).filter (fun i => decide (i.format ≤ c.upd.settingsFmt)) = some j → j.seq < 2 ^ 32 :=
    fun h => Chip.copyInfo_seq (Option.filter_eq_some_iff.1 h).1
  unfold Chip.readableSettings at h
  dsimp only at h
  split at h
  case h_1 a b ha hb =>
    split at h
    · obtain ⟨rfl, rfl⟩ := Prod.mk.inj (Option.some.inj h)
      exact ⟨by decide, hf hb⟩
    · obtain ⟨rfl, rfl⟩ := Prod.mk.inj (Option.some.inj h)
      exact ⟨by decide, hf ha⟩
  case h_2 a ha hb =>
    obtain ⟨rfl, rfl⟩ := Prod.mk.inj (Option.some.inj h)
    exact ⟨by decide, hf ha⟩
  case h_3 b ha hb =>
    obtain ⟨rfl, rfl⟩ := Prod.mk.inj (Option.some.inj h)
    exact ⟨by decide, hf hb⟩
  case h_4 => cases h

theorem settingsRegs_apart (c : Chip) : ∀ a ∈ c.settingsRegs, a ≠ F.SETTINGS_STATUS_COPY.addr ∧ a ≠ F.SETTINGS_SEQ_SEQ.addr := by
  unfold Chip.settingsRegs Chip.sensors
  cases c.build <;> decide +kernel

/-- The settings are read from a copy whose records are settings of one word each. -/
theorem Chip.settingsRead_spec (c : Chip) (k : Nat) (i : CopyInfo) (hs : c.readableSettings = some (k, i)) (hc : Calm c)
    (hen : ∀ pg, pg < 1024 → c.en pg = false) (recs : List SetRec)
    (he : setDecode (c.copyPayload arSettings 0 k i).length (c.copyPayload arSettings 0 k i) = recs) (hr : ∀ r ∈ recs, SettingRec c r)
    (hn : (recs.map (·.addr)).Nodup) :
    c.settingsRead.get F.SETTINGS_STATUS_COPY = k ∧ c.settingsRead.get F.SETTINGS_SEQ_SEQ = i.seq ∧
      ∀ r ∈ recs, ∀ d, regAt c.build r.addr = .reg d → c.settingsRead.rd r.addr = d.store (c.rd r.addr) r.word := by
  obtain ⟨hk, hi⟩ := Chip.readableSettings_some hs
  have h3 : recs.filter (fun r => r.typ = 3) = [] := List.filter_eq_nil_iff.2 fun r h => by simp [(hr r h).1]
  have h1 : ∀ x : Chip, recs.filter (fun r => r.typ ≠ 3 && !x.lateRecord r) = recs := fun x => List.filter_eq_self.2 fun r h => by
    simp [Chip.lateRecord, (hr r h).1]
  have hx : c.settingsRead = (recs.foldl Chip.applyRecord (c.showCopy k i)).settingsMigrate k i recs := by
    unfold Chip.settingsRead
    rw [hs]
    dsimp only
    rw [he, h3, List.foldl_nil, h1]
  rw [hx]
  obtain ⟨s1, s2, s3, s4⟩ := c.showCopy_spec k i hk hi
  generalize c.showCopy k i = x at s1 s2 s3 s4 ⊢
  have hreg : x.settingsRegs = c.settingsRegs := settingsRegs_build s3.build
  obtain ⟨-, f2, f3⟩ := x.applyRecords_spec recs (s3.calm hc) (fun pg hp => (Chip.en_congr s3.build s3.ctrls pg).trans (hen pg hp))
    (fun r h => by
      rw [SettingRec, hreg]
      exact hr r h) hn
  have hap : ∀ r ∈ recs, r.addr ≠ F.SETTINGS_STATUS_COPY.addr ∧ r.addr ≠ F.SETTINGS_SEQ_SEQ.addr := fun r h =>
    settingsRegs_apart c _ (hr r h).2.2.1
  generalize recs.foldl Chip.applyRecord x = y at f2 f3 ⊢
  obtain ⟨m1, m2⟩ := y.settingsMigrate_spec k i recs
  refine ⟨?_, ?_, fun r h d hd => ?_⟩
  · rw [m1, Chip.get, f2 _ (by decide +kernel) fun r h => (hap r h).1, ← Chip.get, s1]
  · rw [Chip.get, m2 _ (by decide), f2 _ (by decide +kernel) fun r h => (hap r h).2, ← Chip.get, s2]
  · obtain ⟨n1, n2⟩ := hap r h
    rw [m2 _ n1, f3 r h d (by rwa [s3.build]), s4 _ n1 n2]

theorem Chip.settingsApply_records (c : Chip) (w h : Nat) (image : List Byte) (k : Nat) (i : CopyInfo) (hr : c.belfry.running = true)
    (hd : c.get F.RESET_BRINGUP_DONE / 32 % 2 = 0) (hs : c.readableSettings = some (k, i)) (hc : Calm c) (hen : ∀ pg, pg < 1024 → c.en pg = false)
    (recs : List SetRec) (he : setDecode (c.copyPayload arSettings 0 k i).length (c.copyPayload arSettings 0 k i) = recs)
    (hrec : ∀ r ∈ recs, SettingRec c r) (hn : (recs.map (·.addr)).Nodup) :
    let t := c.settingsApply false w h image
    t.get F.SETTINGS_STATUS_COPY = k ∧ t.get F.SETTINGS_SEQ_SEQ = i.seq ∧
      ∀ r ∈ recs, ∀ d, regAt c.build r.addr = .reg d → t.rd r.addr = d.store (c.rd r.addr) r.word := by
  obtain ⟨n1, -⟩ := c.noteBroken_spec
  have ho : Keeps openView [] [] c c.noteBroken := n1.mono (congrArg (fun x => x.2.2) n1.view) (List.nil_subset _)
  have hflash : c.noteBroken.belfry.flash = c.belfry.flash := congrArg (fun x => x.1) n1.view
  have hpay : c.noteBroken.copyPayload arSettings 0 k i = c.copyPayload arSettings 0 k i := by
    unfold Chip.copyPayload Chip.flashRead
    rw [hflash]
  have hsr : c.noteBroken.settingsRegs = c.settingsRegs := settingsRegs_build n1.build
  obtain ⟨r1, r2, r3⟩ := c.noteBroken.settingsRead_spec k i ((Chip.readableSettings_congr n1.view).trans hs) (ho.calm hc)
    (fun pg hp => (Chip.en_congr n1.build n1.ctrls pg).trans (hen pg hp)) recs (by rw [hpay, he])
    (fun r hm => by
      rw [SettingRec, hsr]
      exact hrec r hm) hn
  have ht : c.settingsApply false w h image = c.noteBroken.settingsRead.startBanks w h image := by
    unfold Chip.settingsApply
    rw [if_neg (by simp [hr, hd])]
    rfl
  have hb : SetHeld c.noteBroken.settingsRead (c.noteBroken.settingsRead.startBanks w h image) := SetHeld.refl.startBanks w h image
  dsimp only
  rw [ht]
  refine ⟨?_, ?_, fun r hm d hd => ?_⟩
  · rw [Chip.get, hb.rd _ (by decide +kernel), ← Chip.get, r1]
  · rw [Chip.get, hb.rd _ (by decide +kernel), ← Chip.get, r2]
  · obtain ⟨-, -, h3, -⟩ := hrec r hm
    rw [hb.rd _ (c.settingsRegs_held _ h3), r3 r hm d (by rwa [n1.build]), n1.rd _ (c.settingsRegs_held _ h3)]

/-! ### The settings of a device (R371, R383, R384) -/

theorem settingsSize : 64 ≤ areaSize arSettings ∧ areaSize arSettings < 2 ^ 32 := by decide

/-- A settings copy that SAVE asked for. -/
theorem Chip.journalSettings_done (c : Chip) (ok2 : Bool) (hup : c.belfryUp = true) (hm : c.belfry.migrate = none) (hs : c.on F.SETTINGS_STATUS_SAVING = true)
    (hl : c.settingsPayload.length ≤ areaSize arSettings - 64) (hf : c.upd.settingsFmt < 65536) :
    let k := c.targetCopy arSettings 0
    let i : CopyInfo := { format := c.upd.settingsFmt, seq := c.nextSeq arSettings 0, length := c.settingsPayload.length }
    let t := c.journalWrite 1 0 true ok2
    t.get F.SETTINGS_STATUS_SAVING = 0 ∧ t.copyInfo arSettings 0 k = some i ∧ t.copyPayload arSettings 0 k i = c.settingsPayload ∧
      t.copyInfo arSettings 0 (1 - k) = c.copyInfo arSettings 0 (1 - k) := by
  obtain ⟨j1, j2, -⟩ := c.journalSettings_spec true ok2 hup hm hs
  obtain ⟨w1, w2, w3⟩ := c.writeCopyTo_done arSettings 0 (c.targetCopy arSettings 0) c.upd.settingsFmt c.settingsPayload ok2 hl settingsSize hf
  refine ⟨j2, (Chip.copyInfo_flash j1 _ _ _).trans w1, ?_, (Chip.copyInfo_flash j1 _ _ _).trans (Chip.otherCopy_congr c.targetCopy_lt w3)⟩
  unfold Chip.copyPayload
  rw [Chip.flashRead, j1]
  exact w2

/-- A settings copy whose read-backs fail. -/
theorem Chip.journalSettings_failed (c : Chip) (hup : c.belfryUp = true) (hm : c.belfry.migrate = none) (hs : c.on F.SETTINGS_STATUS_SAVING = true)
    (hl : c.settingsPayload.length ≤ areaSize arSettings - 64) :
    let k := c.targetCopy arSettings 0
    let t := c.journalWrite 1 0 false false
    t.pend E.JOURNAL_FAIL = true ∧ t.copyInfo arSettings 0 k = none ∧ t.copyInfo arSettings 0 (1 - k) = c.copyInfo arSettings 0 (1 - k) := by
  obtain ⟨j1, -, j3⟩ := c.journalSettings_spec false false hup hm hs
  obtain ⟨w1, w2, w3⟩ := c.writeCopyTo_failed arSettings 0 (c.targetCopy arSettings 0) c.upd.settingsFmt c.settingsPayload hl settingsSize.1
  exact ⟨j3 w2, (Chip.copyInfo_flash j1 _ _ _).trans w1, (Chip.copyInfo_flash j1 _ _ _).trans (Chip.otherCopy_congr c.targetCopy_lt w3)⟩

/-- Settles O58: a copy is laid down in the position that is not in use and read back, and the records of the copy chosen at a start
are written one by one, each to its own register. -/
theorem settingsCopies : Obligations.SettingsCopies := by
  intro s hr
  refine ⟨fun hup hm hs hl hf => ⟨fun ok2 => ?_, ?_⟩, fun o hc => ⟨?_, fun w => ?_, ?_⟩, fun timedOut w h image hrun hd hn => ?_,
    fun w h image k i hrun hd hs hc hen => ?_⟩
  · exact .serve (fun c => c.journalWrite 1 0 true ok2) rfl hr.notFrozen (s.chip.journalSettings_done ok2 hup hm hs hl hf)
  · exact .serve (fun c => c.journalWrite 1 0 false false) rfl hr.notFrozen (s.chip.journalSettings_failed hup hm hs hl)
  · exact .serveFor o (fun c => c.writeField o F.SETTINGS_CMD_SAVE 1) rfl hr (s.chip.writeField_save o hc)
  · exact .serveFor o (fun c => c.window o F.SETTINGS_LIST_DATA_ADDR.addr (some w)) rfl hr (s.chip.write32_list o w hc)
  · exact .serveFor o (fun c => c.window o F.SETTINGS_LIST_DATA_ADDR.addr none) rfl hr (s.chip.hostRead_list o hc.2)
  · obtain ⟨t1, t2, t3, t4⟩ := s.chip.settingsApply_default timedOut w h image hrun hd hn
    exact .serve (fun c => c.settingsApply timedOut w h image) rfl hr.notFrozen ⟨t1, t2, fun a ha => ⟨t3 a ha, fun e => (t3 a ha).trans e⟩, t4⟩
  · intro payload recs hrec hnd
    exact .serve (fun c => c.settingsApply false w h image) rfl hr.notFrozen (s.chip.settingsApply_records w h image k i hrun hd hs hc hen recs rfl hrec hnd)

end Sys2Proof.Machine
end

