-- ==== Sys2Proof/Proofs/BringUp.lean ====
section
-- One proof at a time: proofs that wait for the kernel side by side hold more memory than the check allows.
set_option Elab.async false
/-! PROOF. The control of a page written, the loads of a tile at bring-up, and the ends of the steps (R37, R391, R397). -/

namespace Sys2Proof.Machine

/-! ### The control of a page (R37) -/

/-- The word written to the control of a page. -/
def ctrlWord (en srst : Bool) (mode : Nat) (commit : Bool) : Word := BitVec.ofNat 32 (b2n en + 2 * b2n srst + 4 * mode + 256 * b2n commit)

theorem ctrlWord_bits (en srst commit : Bool) {mode : Nat} (h : mode < 4) :
    (ctrlWord en srst mode commit).getLsbD 0 = en ∧ (ctrlWord en srst mode commit).getLsbD 1 = srst ∧ (ctrlWord en srst mode commit).getLsbD 8 = commit ∧
      bitsOf (ctrlWord en srst mode commit) 3 2 = mode := by
  interval_cases mode <;> cases en <;> cases srst <;> cases commit <;> decide

/-- The change record of a write of the control that resets or commits the page (R51). -/
def Chip.ctrlNoted (c : Chip) (o : Origin) (pg : Nat) (en srst commit : Bool) : Chip :=
  if srst || commit then c.logChange o (pg * 4096 + 4) (ctrlWord en srst (c.get (F.APPLY_MODE.pg pg)) commit) else c

/-- EN as it is written, APPLY_MODE as it was. -/
def Chip.ctrlSet (c : Chip) (o : Origin) (pg : Nat) (en srst commit : Bool) : Chip :=
  ((c.ctrlNoted o pg en srst commit).set (F.EN.pg pg) (b2n en)).set (F.APPLY_MODE.pg pg) (c.get (F.APPLY_MODE.pg pg))

/-- A page that is enabled starts, one that is disabled stops. -/
def Chip.enChange (c : Chip) (pg : Nat) (was now ran : Bool) : Chip :=
  if was = now then c else if now then (if c.runs pg then c.pageStart pg else c) else (if ran then c.pageStop pg else c)

theorem Chip.enChange_same (c : Chip) (pg : Nat) (b ran : Bool) : c.enChange pg b b ran = c := if_pos rfl

theorem ctrl_addr (f : Fld) (pg : Nat) (h : f.addr = 4) : (f.pg pg).addr = pg * 4096 + 4 := by
  change f.addr + 4096 * pg = _
  omega

theorem Chip.ctrlWrite_word (c : Chip) (o : Origin) (pg : Nat) (en srst commit : Bool) (ha : ctrlAbsent pg = false) :
    c.ctrlWrite o pg (ctrlWord en srst (c.get (F.APPLY_MODE.pg pg)) commit) =
      (((if commit then (fun x : Chip => x.set (F.COMMIT.pg pg) 1) else id)
        ((if srst then (fun x : Chip => x.srst pg) else id)
          ((c.ctrlSet o pg en srst commit).enChange pg (c.en pg) en ((c.ctrlNoted o pg en srst commit).runs pg))))).settle := by
  have hm : c.get (F.APPLY_MODE.pg pg) = bitsOf (c.rd (pg * 4096 + 4)) 3 2 := by
    rw [Chip.get, ctrl_addr _ _ rfl]
    rfl
  have he : c.en pg = (c.rd (pg * 4096 + 4)).getLsbD 0 := by
    rw [Chip.en, Chip.on, Chip.get, ctrl_addr _ _ rfl]
    show decide (bitsOf (c.rd (pg * 4096 + 4)) 0 0 = 1) = _
    rw [bitsOf_bit]
    cases (c.rd (pg * 4096 + 4)).getLsbD 0 <;> rfl
  obtain ⟨b0, b1, b8, b3⟩ := ctrlWord_bits en srst commit (mode := c.get (F.APPLY_MODE.pg pg)) (c.get_lt (F.APPLY_MODE.pg pg))
  unfold Chip.ctrlWrite Chip.ctrlSet Chip.enChange Chip.ctrlNoted
  rw [if_neg (by rw [ha]; decide)]
  simp only [b0, b1, b8, b3, ← hm, ← he, ne_eq, not_true_eq_false, decide_false, Bool.false_or, Bool.false_and, Bool.false_eq_true, if_false]
  cases srst <;> cases commit <;> rfl

theorem Chip.regWrite_ctrl (c : Chip) (o : Origin) (pg : Nat) (w : Word) (hp : c.hasPage pg = true) : c.regWrite o (pg * 4096 + 4) w = c.ctrlWrite o pg w := by
  obtain ⟨d, hd⟩ := regAt_header (off := 4) hp (by decide)
  unfold Chip.regWrite
  rw [hd]
  dsimp only
  rw [if_pos (by omega), show (pg * 4096 + 4) / 4096 = pg by omega, show (pg * 4096 + 4) % 4096 = 4 by omega]
  rfl

/-- The control of a page written on an open path. -/
theorem Chip.writeCtrl_eq (c : Chip) (o : Origin) (pg : Nat) (en srst commit : Bool) (hp : c.hasPage pg = true) (hopen : c.pathsOpen = true) :
    c.writeCtrl o pg en srst commit = c.ctrlWrite o pg (ctrlWord en srst (c.get (F.APPLY_MODE.pg pg)) commit) := by
  unfold Chip.writeCtrl
  rw [if_neg (by have := Chip.hasPage_lt hp; omega)]
  exact c.write32_page o pg 4 _ hp (by decide) hopen

/-! ### Loads at a tile's bring-up (R250, R391) -/

theorem SetHeld.set_ctrl {c d : Chip} (h : SetHeld c d) (f : Fld) (pg v : Nat) (hf : f.addr = 4) : SetHeld c (d.set (f.pg pg) v) := by
  refine h.trans ⟨rfl, rfl, fun a hm => Chip.rd_set_ne _ _ _ _ ?_, fun e he => ?_⟩
  · have := heldRegs_page _ hm
    rw [ctrl_addr _ _ hf]
    omega
  · rw [Chip.pend, Chip.rd_set_ne _ _ _ _ (by rw [ctrl_addr _ _ hf]; omega)]
    exact he

theorem Chip.ctrlSet_held (c : Chip) (o : Origin) (pg : Nat) (en srst commit : Bool) : SetHeld c (c.ctrlSet o pg en srst commit) := by
  have hn : SetKept c (c.ctrlNoted o pg en srst commit) := .ite (.logChange .refl (by decide +kernel)) .refl
  exact ((SetHeld.of_kept hn).set_ctrl F.EN pg _ rfl).set_ctrl F.APPLY_MODE pg _ rfl

/-- A commit written, whether the path is open or not. -/
theorem SetHeld.writeCommit (c : Chip) (o : Origin) (pg : Nat) (hp : c.hasPage pg = true) (ha : ctrlAbsent pg = false) : SetHeld c (c.writeCommit o pg) := by
  have hlt := Chip.hasPage_lt hp
  obtain ⟨d, hd⟩ := regAt_header (off := 4) hp (by decide)
  unfold Chip.writeCommit Chip.writeCtrl
  rw [if_neg (by omega)]
  rcases c.write32_cases o (pg * 4096 + 4) (ctrlWord (c.en pg) false (c.get (F.APPLY_MODE.pg pg)) true) d (by omega) (by omega) hd with e | ⟨h, e⟩
  · refine (congrArg (SetHeld c) (e.trans (c.regWrite_ctrl o pg _ hp))).mpr ?_
    rw [c.ctrlWrite_word o pg _ _ _ ha]
    rw [Chip.enChange_same]
    exact ((c.ctrlSet_held o pg _ _ _).set_ctrl F.COMMIT pg 1 rfl).settle
  · refine (congrArg (SetHeld c) e).mpr ?_
    exact .of_kept (Keeps.of (.refl : SetKept c c) rfl rfl rfl)

theorem SetKept.noteMirror {c d : Chip} (h : SetKept c d) (a : Nat) : SetKept c (d.noteMirror a) := by
  rcases d.noteMirror_cases a with e | ⟨m, e⟩ <;> rw [e]
  · exact h
  · exact .setMirror h

/-- A register that a write stores and that starts nothing. -/
structure StoredOnly (b : Build) (a : Nat) : Prop where
  reg : ∃ d, regAt b a = .reg d ∧ ∀ v w, d.quiesceChange v w = false
  addr : a < 0x400000 ∧ a % 4 = 0 ∧ 0x40 ≤ a % 4096 ∧ a ≠ F.DEBUG_CTRL_UNLOCK.addr ∧ unstored a = false
  effect : ∀ (x : Chip) o v w, x.writeEffect o a v w = x
  apart : a ∉ heldRegs ∧ plainReg a = true

/-- Such a register written, whether the path is open or not. -/
theorem SetHeld.write32_stored {c : Chip} {a : Nat} (h : StoredOnly c.build a) (o : Origin) (w : Word) : SetHeld c (c.write32 o a w) := by
  obtain ⟨⟨d, hr, hq⟩, ⟨h1, h2, h3, h4, h5⟩, he, hn, hp⟩ := h
  rcases c.write32_cases o a w d h1 h2 hr with e | ⟨h, e⟩
  · have hl : SetKept c ((c.logged o a d w).wr a (d.store (c.rd a) w)) := by
      unfold Chip.logged
      exact .wr (.ite (.logChange .refl (by decide +kernel)) .refl) hn hp
    have he' : c.regWrite o a w = (((c.logged o a d w).wr a (d.store (c.rd a) w)).noteMirror a).settle := by
      unfold Chip.regWrite
      rw [hr]
      dsimp only
      rw [if_neg (by omega)]
      unfold Chip.blockWrite Chip.sizeError Chip.logged
      simp only [hq, h4, h5, he, decide_false, Bool.false_and, Bool.or_false, Bool.false_eq_true, if_false]
    rw [e, he']
    exact (SetHeld.of_kept (hl.noteMirror a)).settle
  · rw [e]
    exact .of_kept (Keeps.of (.refl : SetKept c c) rfl rfl rfl)

theorem stored_correctCtrl : StoredOnly .T F.CORRECT_CTRL_COEF_SET.addr where
  reg := ⟨_, rfl, fun _ _ => by simp [RegDef.quiesceChange]⟩
  addr := by decide
  effect := fun _ _ _ _ => by
    unfold Chip.writeEffect
    simp (disch := decide) only [if_neg]
  apart := by decide +kernel

theorem stored_doseCtrl : StoredOnly .T F.DOSE_CTRL_GAIN_SEL.addr where
  reg := ⟨_, rfl, fun _ _ => by simp [RegDef.quiesceChange]⟩
  addr := by decide
  effect := fun _ _ _ _ => by
    unfold Chip.writeEffect
    simp (disch := decide) only [if_neg]
  apart := by decide +kernel

/-! ### The calibration and the gains that a start loads (R249, R250, R391) -/

theorem Chip.use_le_one (c : Chip) {f : Fld} (h : f.hi = f.lo := by rfl) : c.use f ≤ 1 := by
  have hlt := bitsOf_lt (c.rdUse f.addr) f.hi f.lo
  rw [h, show f.lo + 1 - f.lo = 1 by omega] at hlt
  rw [Chip.use, h]
  omega

theorem slice_length_le (l : List Byte) (a n : Nat) : (slice l a n).length ≤ n := by
  unfold slice
  rw [List.length_take]
  exact Nat.min_le_left _ _

namespace SetHeld
variable {c d : Chip}

theorem kept (h : SetHeld c d) {e : Chip} (k : SetKept d e) : SetHeld c e := h.trans (.of_kept k)

theorem writeField (h : SetHeld c d) {f : Fld} (hf : StoredOnly d.build f.addr) (o : Origin) (v : Nat) : SetHeld c (d.writeField o f v) :=
  h.trans (write32_stored hf o _)

theorem commit (h : SetHeld c d) {pg : Nat} (hp : d.hasPage pg = true) (ha : ctrlAbsent pg = false) (o : Origin) : SetHeld c (d.writeCommit o pg) :=
  h.trans (writeCommit d o pg hp ha)

end SetHeld

theorem tile_hasPage {c : Chip} (h : c.build = .T) : c.hasPage pgCorrect = true ∧ c.hasPage pgDose = true ∧ c.hasPage pgDrive = true := by
  unfold Chip.hasPage
  rw [h]
  decide

theorem SetHeld.calibLoad (c : Chip) (hb : c.build = .T) : SetHeld c c.calibLoad := by
  unfold Chip.calibLoad
  split
  · exact .of_kept (SetKept.raise .refl)
  · next k i _ =>
    have hset := c.use_le_one (f := F.CORRECT_CTRL_COEF_SET)
    dsimp only
    generalize hs : 1 - c.use F.CORRECT_CTRL_COEF_SET = set
    have h1 : SetKept c (c.belfryHolds (3 + set) fun x => x.belfryWrite ((3 + set) * 1048576) (slice (c.copyPayload arCalib 0 k i) 4 (18 * x.lamps))) :=
      SetKept.belfryHolds .refl (by omega) fun x => .belfryWrite .refl (by
        have := slice_length_le (c.copyPayload arCalib 0 k i) 4 (18 * x.lamps)
        have := x.lamps_le
        omega)
    generalize c.belfryHolds (3 + set) (fun x => x.belfryWrite ((3 + set) * 1048576) (slice (c.copyPayload arCalib 0 k i) 4 (18 * x.lamps))) = x at h1 ⊢
    have h2 : ∀ t, SetKept c (x.setTile t) := fun t => Keeps.setTile h1
    generalize hy : x.setTile _ = y
    have h2' : SetKept c y := hy ▸ h2 _
    have h3 : ∀ t, SetKept c (y.setDrive t) := fun t => Keeps.setDrive h2'
    generalize hz : y.setDrive _ = z
    have h3' : SetKept c z := hz ▸ h3 _
    have hz' : z.build = .T := h3'.build.trans hb
    generalize hf : (if set = 0 then F.CORRECT_CTRL_COEF_VALID_0 else F.CORRECT_CTRL_COEF_VALID_1) = f
    have ha : f.addr = F.CORRECT_CTRL_COEF_SET.addr := by
      rw [← hf]
      split <;> rfl
    have h4 : SetHeld c (z.writeField .belfry f 1) := (SetHeld.of_kept h3').writeField (by rw [hz', ha]; exact stored_correctCtrl) _ _
    have h5 := h4.writeField (f := F.CORRECT_CTRL_COEF_SET) (by rw [h4.build, hb]; exact stored_correctCtrl) .belfry set
    have h6 := h5.commit (tile_hasPage (h5.build.trans hb)).1 (by decide) .belfry
    exact h6.commit (tile_hasPage (h6.build.trans hb)).2.2 (by decide) .belfry

theorem SetHeld.calibStart (c : Chip) (hb : c.build = .T) : SetHeld c c.calibStart :=
  .ite (.of_kept (Keeps.setBelfry .refl)) (.calibLoad c hb)

/-! #### Gains (R249) -/

theorem SetHeld.gainsCommit (c : Chip) (hb : c.build = .T) {fill : Chip → Chip} (hf : ∀ x, SetKept x (fill x)) : SetHeld c (c.gainsCommit fill) := by
  unfold Chip.gainsCommit
  dsimp only
  have h1 : SetHeld c (c.belfryHolds (6 + (1 - c.use F.DOSE_CTRL_GAIN_SEL)) fill) := .of_kept (SetKept.belfryHolds .refl (by omega) hf)
  have h2 := h1.writeField (f := F.DOSE_CTRL_GAIN_SEL) (by rw [h1.build, hb]; exact stored_doseCtrl) .belfry (1 - c.use F.DOSE_CTRL_GAIN_SEL)
  exact h2.commit (tile_hasPage (h2.build.trans hb)).2.1 (by decide) .belfry

theorem SetHeld.gainsUniform (c : Chip) (hb : c.build = .T) : SetHeld c c.gainsUniform :=
  .gainsCommit c hb fun x => SetKept.belfryWrite .refl (by
    have := x.lamps_le
    rw [List.length_flatten, List.map_replicate, List.sum_replicate]
    simp only [List.length_cons, List.length_nil, smul_eq_mul]
    omega)

theorem SetKept.gainsWrite (c : Chip) {g : SMap Nat} (hg : ∀ p ∈ g, p.1 < 147456) : SetKept c (c.gainsWrite g) := by
  unfold Chip.gainsWrite
  refine Keeps.foldl .refl fun x p hp => Keeps.foldl .refl fun y w hw => bankWriteWord .refl (wordLanes_lt (n := 524288) ?_ w hw) _ _ _
  have := hg p hp
  rw [List.length_map, leBytes_length]
  omega

/-- What the gains are computed from: an open value may be taken, and each gain is of a lamp of the tile. -/
theorem Chip.gainsOf_spec (c : Chip) : SetKept c c.gainsOf.2 ∧ ∀ p ∈ c.gainsOf.1, p.1 < 147456 := by
  unfold Chip.gainsOf
  have hl : ∀ e ∈ List.range (3 * c.lamps), e < 147456 := fun e he => by
    have := List.mem_range.1 he
    have := c.lamps_le
    omega
  generalize List.range (3 * c.lamps) = l at hl ⊢
  refine List.foldlRecOn (motive := fun a : SMap Nat × Chip => SetKept c a.2 ∧ ∀ p ∈ a.1, p.1 < 147456) l _ ⟨.refl, fun p hp => absurd hp List.not_mem_nil⟩
    fun a ⟨h1, h2⟩ e he => ?_
  have hp : ∀ v : Nat, ∀ p ∈ a.1 ++ [(e, v)], p.1 < 147456 := fun v p hp => by
    rcases List.mem_append.1 hp with h | h
    · exact h2 p h
    · obtain rfl := List.mem_singleton.1 h
      exact hl e he
  dsimp only
  split
  · exact ⟨h1, hp _⟩
  · exact ⟨SetKept.openValue (w := 16) h1, hp _⟩

theorem SetHeld.ageingGains (c : Chip) (hb : c.build = .T) : SetHeld c c.ageingGains.2 := by
  have hg := c.gainsOf_spec
  unfold Chip.ageingGains
  generalize c.gainsOf = g at hg ⊢
  obtain ⟨h1, h2⟩ := hg
  exact (SetHeld.of_kept h1).trans (.gainsCommit _ (h1.build.trans hb) fun x => SetKept.gainsWrite x h2)

theorem SetHeld.doseLoad (c : Chip) : SetHeld c c.doseLoad := by
  unfold Chip.doseLoad
  split
  · exact .of_kept (SetKept.raise .refl)
  · exact .of_kept (Keeps.setDrive .refl)

theorem SetKept.applyLate (c : Chip) (r : SetRec) (h : r.typ = 2) : SetKept c (c.applyRecord r) := by
  unfold Chip.applyRecord
  rw [h]
  exact Keeps.ite .refl (Keeps.setPort .refl)

theorem SetHeld.laneSets (c : Chip) : SetHeld c c.laneSets := by
  unfold Chip.laneSets
  split
  · exact .refl
  · refine SetHeld.foldl .refl fun x r hr => .of_kept (SetKept.applyLate x r ?_)
    have := (List.mem_filter.1 hr).2
    unfold Chip.lateRecord at this
    simp only [Bool.and_eq_true, decide_eq_true_eq] at this
    exact this.2

/-! ### The ends of the steps (R391) -/

/-- The register of the steps that have ended and of those that failed. -/
def stepRegs : List Nat := [F.RESET_BRINGUP_DONE.addr]

/-- No step ends, and no event is lost. -/
abbrev StepKept (c d : Chip) : Prop := Keeps (fun _ => ()) stepRegs [] c d

theorem Keeps.driveAlert {α : Type} {ρ : Chip → α} {A : List Nat} {R : List Ev} {c d : Chip} {low : Bool} (h : Keeps ρ A R c d) : Keeps ρ A R c (d.driveAlert low) := by
  unfold Chip.driveAlert
  exact .ite h (.emit (.of h rfl rfl rfl))

theorem Keeps.pinsSince {α : Type} {ρ : Chip → α} {A : List Nat} {R : List Ev} {c d b : Chip} (h : Keeps ρ A R c d) : Keeps ρ A R c (d.pinsSince b) := by
  unfold Chip.pinsSince
  exact .ite h (.of h rfl rfl rfl)

theorem StepKept.xtal {c d : Chip} (h : StepKept c d) (l : Bool) : StepKept c (d.xtal l) := by
  unfold Chip.xtal
  dsimp only
  split
  · have h1 : StepKept c ((d.set F.CLOCKS_PLL_LOCK (Nat.lor (d.get F.CLOCKS_PLL_LOCK) 1)).set F.CLOCKS_REF_XTAL_OK 1) := .set (.set h)
    generalize (d.set F.CLOCKS_PLL_LOCK (Nat.lor (d.get F.CLOCKS_PLL_LOCK) 1)).set F.CLOCKS_REF_XTAL_OK 1 = x at h1 ⊢
    have h2 : StepKept c { x with rst := { x.rst with xtalHeld := false } } := .of h1 rfl rfl rfl
    exact .pinsSince (.ite h2 (.driveAlert h2))
  · have h1 : StepKept c (d.set F.CLOCKS_PLL_FAIL (Nat.lor (d.get F.CLOCKS_PLL_FAIL) 1)) := .set h
    generalize d.set F.CLOCKS_PLL_FAIL (Nat.lor (d.get F.CLOCKS_PLL_FAIL) 1) = x at h1 ⊢
    exact .pinsSince (.driveAlert (.emit (.of h1 rfl rfl rfl)))

theorem StepKept.plls {c d : Chip} (h : StepKept c d) (mask : Nat) : StepKept c (d.plls mask) := by
  unfold Chip.plls
  dsimp only
  have h1 : StepKept c (((d.set F.CLOCKS_PLL_LOCK (Nat.lor (d.get F.CLOCKS_PLL_LOCK) (mask % 16 / 2 * 2))).set F.CLOCKS_PLL_FAIL
    (Nat.lor ((d.set F.CLOCKS_PLL_LOCK (Nat.lor (d.get F.CLOCKS_PLL_LOCK) (mask % 16 / 2 * 2))).get F.CLOCKS_PLL_FAIL) (14 - mask % 16 / 2 * 2))).set
      F.CLOCKS_REF_REFA_OK (mask / 2 % 2) |>.set F.CLOCKS_REF_REFB_OK (mask / 4 % 2)) := .set (.set (.set (.set h)))
  exact .of h1 rfl rfl rfl

theorem StepKept.fullService {c d : Chip} (h : StepKept c d) : StepKept c d.fullService := by
  unfold Chip.fullService
  exact .ite (.set (.set (.set h))) h

/-- A bit added to a field of bits that does not hold it. -/
theorem lor_two_pow {v k n : Nat} (hv : v < 2 ^ n) (hk : k < n) (hb : v / 2 ^ k % 2 = 0) : Nat.lor v (2 ^ k) = v + 2 ^ k ∧ v + 2 ^ k < 2 ^ n := by
  have hr : v % 2 ^ k < 2 ^ k := Nat.mod_lt _ (Nat.two_pow_pos k)
  have hp : 2 ^ (k + 1) = 2 * 2 ^ k := by rw [pow_succ, mul_comm]
  have hsum : 2 ^ k + v % 2 ^ k < 2 ^ (k + 1) := by omega
  have hdec : v = 2 ^ (k + 1) * (v / 2 ^ (k + 1)) + v % 2 ^ k := by
    have h1 := Nat.div_add_mod v (2 ^ k)
    have h2 := Nat.div_add_mod (v / 2 ^ k) 2
    rw [hb, add_zero, Nat.div_div_eq_div_mul, ← pow_succ] at h2
    rw [show 2 ^ (k + 1) * (v / 2 ^ (k + 1)) = 2 ^ k * (2 * (v / 2 ^ (k + 1))) by rw [pow_succ, mul_assoc], h2]
    exact h1.symm
  have he : Nat.lor v (2 ^ k) = v + 2 ^ k := by
    change v ||| 2 ^ k = _
    have h1 : 2 ^ (k + 1) * (v / 2 ^ (k + 1)) + v % 2 ^ k = 2 ^ (k + 1) * (v / 2 ^ (k + 1)) ||| v % 2 ^ k :=
      Nat.two_pow_add_eq_or_of_lt (by omega) _
    have h2 : 2 ^ (k + 1) * (v / 2 ^ (k + 1)) + (2 ^ k + v % 2 ^ k) = 2 ^ (k + 1) * (v / 2 ^ (k + 1)) ||| (2 ^ k + v % 2 ^ k) :=
      Nat.two_pow_add_eq_or_of_lt hsum _
    have h3 : 2 ^ k * 1 + v % 2 ^ k = 2 ^ k * 1 ||| v % 2 ^ k := Nat.two_pow_add_eq_or_of_lt hr 1
    rw [mul_one] at h3
    rw [h3, Nat.or_comm (2 ^ k), ← Nat.or_assoc, ← h1, ← hdec, ← Nat.or_comm (2 ^ k), ← h3] at h2
    omega
  refine ⟨he, he ▸ Nat.or_lt_two_pow hv (Nat.pow_lt_pow_right (by decide) hk)⟩

theorem lor_two_pow_bit (v k : Nat) : Nat.lor v (2 ^ k) / 2 ^ k % 2 = 1 := by
  have h : (v ||| 2 ^ k).testBit k = true := by simp
  rw [Nat.testBit_eq_decide_div_mod_eq] at h
  exact of_decide_eq_true h

theorem Chip.get_setStep (c : Chip) {n : Nat} (h1 : 1 ≤ n) (h12 : n ≤ 12) (hb : c.get F.RESET_BRINGUP_DONE / 2 ^ (n - 1) % 2 = 0) :
    (c.setStep n).get F.RESET_BRINGUP_DONE = c.get F.RESET_BRINGUP_DONE + 2 ^ (n - 1) := by
  obtain ⟨he, hlt⟩ := lor_two_pow (n := 12) (k := n - 1) (c.get_lt F.RESET_BRINGUP_DONE) (by omega) hb
  unfold Chip.setStep
  rw [Chip.get_set _ _ _ (by decide) (by decide), he]
  exact Nat.mod_eq_of_lt hlt

/-- A step that has not ended ends. -/
theorem Chip.stepEnd_spec (c : Chip) (n : Nat) (timedOut : Bool) (mask : Nat) (h1 : 1 ≤ n) (h12 : n ≤ 12) (hx : 3 ≤ n → c.rst.xtalHeld = false)
    (hb : c.get F.RESET_BRINGUP_DONE / 2 ^ (n - 1) % 2 = 0) :
    (c.stepEnd n timedOut mask).get F.RESET_BRINGUP_DONE = c.get F.RESET_BRINGUP_DONE + 2 ^ (n - 1) ∧
      (timedOut = true → (c.stepEnd n timedOut mask).get F.RESET_BRINGUP_FAIL / 2 ^ (n - 1) % 2 = 1) ∧
      (timedOut = false → (c.stepEnd n timedOut mask).get F.RESET_BRINGUP_FAIL = c.get F.RESET_BRINGUP_FAIL) ∧ PendUp c (c.stepEnd n timedOut mask) := by
  have hc : ¬ (n = 0 || decide (12 < n) || (c.rst.xtalHeld && decide (3 ≤ n))) = true := by
    by_cases h3 : 3 ≤ n
    · simp [hx h3]
      omega
    · simp [h3]
      omega
  unfold Chip.stepEnd
  rw [if_neg hc, if_neg (by omega)]
  dsimp only
  have hd := c.get_setStep h1 h12 hb
  have hf : (c.setStep n).get F.RESET_BRINGUP_FAIL = c.get F.RESET_BRINGUP_FAIL :=
    Chip.get_set_field _ _ _ _ (by decide) (by decide) (by decide) (by decide)
  have hp : PendUp c (c.setStep n) := (Keeps.set (.refl : Keeps (fun _ => ()) [] [] c c)).pend
  generalize c.setStep n = x at hd hf hp ⊢
  obtain ⟨y, hy⟩ : ∃ y, y = if timedOut = true then x.set F.RESET_BRINGUP_FAIL (Nat.lor (x.get F.RESET_BRINGUP_FAIL) (2 ^ (n - 1))) else x := ⟨_, rfl⟩
  rw [← hy]
  have hk : StepKept y (if n = 2 then y.xtal (!timedOut) else if n = 3 then y.plls (if timedOut = true then mask else 14) else y).fullService :=
    StepKept.fullService (.ite (StepKept.xtal .refl _) (.ite (StepKept.plls .refl _) .refl))
  generalize (if n = 2 then y.xtal (!timedOut) else if n = 3 then y.plls (if timedOut = true then mask else 14) else y).fullService = z at hk ⊢
  rw [hk.get F.RESET_BRINGUP_DONE (by decide), hk.get F.RESET_BRINGUP_FAIL (by decide)]
  cases timedOut with
  | false =>
    obtain rfl : y = x := hy
    exact ⟨hd, nofun, fun _ => hf, hp.trans hk.pend⟩
  | true =>
    obtain rfl : y = x.set F.RESET_BRINGUP_FAIL (Nat.lor (x.get F.RESET_BRINGUP_FAIL) (2 ^ (n - 1))) := hy
    refine ⟨(Chip.get_set_field _ _ _ _ (by decide) (by decide) (by decide) (by decide)).trans hd, fun _ => ?_, nofun, ?_⟩
    · have hlt : Nat.lor (x.get F.RESET_BRINGUP_FAIL) (2 ^ (n - 1)) < 2 ^ 12 :=
        Nat.or_lt_two_pow (x.get_lt F.RESET_BRINGUP_FAIL) (Nat.pow_lt_pow_right (by decide) (by omega))
      rw [Chip.get_set _ _ _ (by decide) (by decide)]
      show Nat.lor (x.get F.RESET_BRINGUP_FAIL) (2 ^ (n - 1)) % 2 ^ 12 / 2 ^ (n - 1) % 2 = 1
      rw [Nat.mod_eq_of_lt hlt]
      exact lor_two_pow_bit _ _
    · exact (hp.trans (Keeps.set (.refl : Keeps (fun _ => ()) [] [] x x)).pend).trans hk.pend

/-! ### The loads of the last steps at a tile -/

/-- What the Belfry loads, or cannot load, at the end of a step. -/
def Chip.tileLoad (c : Chip) (n : Nat) (timedOut : Bool) : Chip :=
  if n = 11 then (if timedOut then c.raise E.JOURNAL_FAIL else c.laneSets.calibStart)
  else if n = 12 then (if timedOut then ((c.raise E.DOSE_FAULT).raise E.JOURNAL_FAIL).gainsUniform else c.doseLoad.ageingGains.2)
  else c

theorem SetHeld.tileLoad (c : Chip) (n : Nat) (timedOut : Bool) (hb : c.build = .T) : SetHeld c (c.tileLoad n timedOut) := by
  have h1 : SetHeld c (c.raise E.JOURNAL_FAIL) := .of_kept (SetKept.raise .refl)
  have h2 : SetHeld c ((c.raise E.DOSE_FAULT).raise E.JOURNAL_FAIL) := .of_kept (SetKept.raise (SetKept.raise .refl))
  have h3 := SetHeld.laneSets c
  have h4 := SetHeld.doseLoad c
  exact .ite (.ite h1 (h3.trans (.calibStart _ (h3.build.trans hb))))
    (.ite (.ite (h2.trans (.gainsUniform _ (h2.build.trans hb))) (h4.trans (.ageingGains _ (h4.build.trans hb)))) .refl)

theorem Chip.tileLoad_failed (c : Chip) (n : Nat) (hb : c.build = .T) :
    (n = 11 ∨ n = 12 → (c.tileLoad n true).pend E.JOURNAL_FAIL = true) ∧ (n = 12 → (c.tileLoad n true).pend E.DOSE_FAULT = true) := by
  have hj : ∀ x : Chip, (x.raise E.JOURNAL_FAIL).pend E.JOURNAL_FAIL = true := fun x => Chip.raise_pend _ _ (settings_hasPage _) (by decide)
  have hd : (c.raise E.DOSE_FAULT).pend E.DOSE_FAULT = true := Chip.raise_pend _ _ (tile_hasPage hb).2.1 (by decide)
  have h2 : SetHeld c ((c.raise E.DOSE_FAULT).raise E.JOURNAL_FAIL) := .of_kept (SetKept.raise (SetKept.raise .refl))
  have hg := SetHeld.gainsUniform _ (h2.build.trans hb)
  refine ⟨?_, ?_⟩
  · rintro (rfl | rfl)
    · exact hj c
    · exact hg.pend _ (hj _)
  · rintro rfl
    have hp : PendUp (c.raise E.DOSE_FAULT) ((c.raise E.DOSE_FAULT).raise E.JOURNAL_FAIL) := (SetKept.raise .refl).pend
    exact hg.pend _ (hp _ hd)

theorem Chip.bringupEnd_eq (c : Chip) (n : Nat) (timedOut : Bool) (mask : Nat) (hb : c.get F.RESET_BRINGUP_DONE / 2 ^ (n - 1) % 2 = 0) (h1 : 1 ≤ n) (h12 : n ≤ 12)
    (hx : 3 ≤ n → c.rst.xtalHeld = false) : c.bringupEnd n timedOut mask = (if c.build = .S then c else c.tileLoad n timedOut).stepEnd n timedOut mask := by
  have h3 : n < 3 → c.tileLoad n timedOut = c := fun h => by
    unfold Chip.tileLoad
    rw [if_neg (by omega), if_neg (by omega)]
  have hn : (n = 0 || decide (12 < n)) = false := by simp; omega
  unfold Chip.bringupEnd
  dsimp only
  rw [hn, hb]
  by_cases h : 3 ≤ n
  · rw [hx h]
    cases hbd : c.build <;> simp [Chip.tileLoad]
  · rw [h3 (by omega)]
    simp only [ite_self]
    congr 1
    split
    · rfl
    · rw [if_neg (by omega), if_neg (by omega)]

/-- A step of bring-up ends. -/
theorem Chip.bringupEnd_spec (c : Chip) (n : Nat) (timedOut : Bool) (mask : Nat) (h1 : 1 ≤ n) (h12 : n ≤ 12) (hx : 3 ≤ n → c.rst.xtalHeld = false)
    (hb : c.get F.RESET_BRINGUP_DONE / 2 ^ (n - 1) % 2 = 0) :
    let t := c.bringupEnd n timedOut mask
    t.get F.RESET_BRINGUP_DONE = c.get F.RESET_BRINGUP_DONE + 2 ^ (n - 1) ∧
      (timedOut = true → t.get F.RESET_BRINGUP_FAIL / 2 ^ (n - 1) % 2 = 1) ∧
      (timedOut = false → t.get F.RESET_BRINGUP_FAIL = c.get F.RESET_BRINGUP_FAIL) ∧
      (c.build = .T → timedOut = true → (n = 11 ∨ n = 12 → t.pend E.JOURNAL_FAIL = true) ∧ (n = 12 → t.pend E.DOSE_FAULT = true)) := by
  have hs : SetHeld c (if c.build = .S then c else c.tileLoad n timedOut) := by
    split
    · exact .refl
    · next h => exact .tileLoad c n timedOut (by cases hc : c.build <;> simp_all)
  have hp : c.build = .T → timedOut = true → (n = 11 ∨ n = 12 → (if c.build = .S then c else c.tileLoad n timedOut).pend E.JOURNAL_FAIL = true) ∧
      (n = 12 → (if c.build = .S then c else c.tileLoad n timedOut).pend E.DOSE_FAULT = true) := by
    rintro h rfl
    rw [if_neg (by rw [h]; decide)]
    exact c.tileLoad_failed n h
  dsimp only
  rw [c.bringupEnd_eq n timedOut mask hb h1 h12 hx]
  generalize (if c.build = .S then c else c.tileLoad n timedOut) = x at hs hp ⊢
  have hr := hs.rd F.RESET_BRINGUP_DONE.addr (by decide +kernel)
  have hd : x.get F.RESET_BRINGUP_DONE = c.get F.RESET_BRINGUP_DONE := by rw [Chip.get, hr, Chip.get]
  have hf : x.get F.RESET_BRINGUP_FAIL = c.get F.RESET_BRINGUP_FAIL := by
    rw [Chip.get, show F.RESET_BRINGUP_FAIL.addr = F.RESET_BRINGUP_DONE.addr from rfl, hr]
    rfl
  obtain ⟨s1, s2, s3, s4⟩ := x.stepEnd_spec n timedOut mask h1 h12 (fun h => by rw [hs.rst, hx h]) (by rw [hd, hb])
  refine ⟨by rw [s1, hd], s2, fun h => by rw [s3 h, hf], fun hb ht => ?_⟩
  obtain ⟨p1, p2⟩ := hp hb ht
  exact ⟨fun h => s4 _ (p1 h), fun h => s4 _ (p2 h)⟩

/-- Without the XTAL PLL no step after the second ends. -/
theorem Chip.bringupEnd_held (c : Chip) (n : Nat) (timedOut : Bool) (mask : Nat) (h3 : 3 ≤ n) (hx : c.rst.xtalHeld = true) : c.bringupEnd n timedOut mask = c := by
  unfold Chip.bringupEnd Chip.stepEnd
  simp [hx, h3]

/-! ### PLL 2 and the fabric (R391) -/

theorem Chip.fullService_rst (c : Chip) : c.fullService.rst = c.rst := by
  rcases c.fullService_cases with e | ⟨t, n, e⟩ <;> rw [e] <;> rfl

/-- The fabric is held while PLL 2 has not locked. -/
theorem Chip.plls_fabric (c : Chip) (mask : Nat) :
    (c.plls mask).rst.fabricHeld = decide (Nat.lor (c.get F.CLOCKS_PLL_LOCK) (mask % 16 / 2 * 2) % 16 / 4 % 2 = 0) := by
  unfold Chip.plls
  dsimp only
  rw [Chip.get_set_ne _ _ _ _ (by decide), Chip.get_set_ne _ _ _ _ (by decide),
    Chip.get_set_field _ _ _ _ (by decide) (by decide) (by decide) (by decide), Chip.get_set _ _ _ (by decide) (by decide)]
  rfl

theorem bit2_lor (v m : Nat) : decide (Nat.lor v m % 16 / 4 % 2 = 0) = (decide (v / 4 % 2 = 0) && decide (m / 4 % 2 = 0)) := by
  have hb : ∀ n : Nat, decide (n / 4 % 2 = 0) = !n.testBit 2 := fun n => by
    rw [Nat.testBit_eq_decide_div_mod_eq]
    have : n / 2 ^ 2 % 2 = 0 ∨ n / 2 ^ 2 % 2 = 1 := by omega
    rcases this with h | h <;> simp_all
  have h16 : Nat.lor v m % 16 / 4 % 2 = Nat.lor v m / 4 % 2 := by omega
  rw [h16, hb, hb, hb, show Nat.lor v m = v ||| m from rfl, Nat.testBit_or, Bool.not_or]

/-- Step 3 ends without PLL 2, or a later end of it finds PLL 2 locked. -/
theorem Chip.bringupEnd_fabric (c : Chip) (mask : Nat) (hx : c.rst.xtalHeld = false) :
    (c.get F.RESET_BRINGUP_DONE / 4 % 2 = 0 → c.get F.CLOCKS_PLL_LOCK / 4 % 2 = 0 → mask / 4 % 2 = 0 →
      (c.bringupEnd 3 true mask).rst.fabricHeld = true) ∧
    (c.get F.RESET_BRINGUP_DONE / 4 % 2 = 1 → c.rst.fabricHeld = true →
      (c.bringupEnd 3 false mask).rst.fabricHeld = false ∧ (c.bringupEnd 3 false mask).get F.RESET_BRINGUP_DONE = c.get F.RESET_BRINGUP_DONE) := by
  refine ⟨fun hb hl hm => ?_, fun hb hf => ?_⟩
  · rw [c.bringupEnd_eq 3 true mask hb (by decide) (by decide) fun _ => hx]
    have ht : (if c.build = .S then c else c.tileLoad 3 true) = c := by
      unfold Chip.tileLoad
      simp
    rw [ht]
    unfold Chip.stepEnd
    rw [if_neg (by simp [hx]), if_neg (show ¬ c.get F.RESET_BRINGUP_DONE / 2 ^ (3 - 1) % 2 = 1 from fun h => absurd (hb.symm.trans h) (by decide))]
    dsimp only
    rw [if_pos rfl, if_neg (by decide), if_pos rfl, if_pos rfl, Chip.fullService_rst, Chip.plls_fabric, bit2_lor]
    have hk : ((c.setStep 3).set F.RESET_BRINGUP_FAIL (Nat.lor ((c.setStep 3).get F.RESET_BRINGUP_FAIL) (2 ^ (3 - 1)))).get F.CLOCKS_PLL_LOCK =
        c.get F.CLOCKS_PLL_LOCK := by
      unfold Chip.setStep
      rw [Chip.get_set_ne _ _ _ _ (by decide), Chip.get_set_ne _ _ _ _ (by decide)]
    rw [hk, hl, show mask % 16 / 2 * 2 / 4 % 2 = 0 by omega]
    rfl
  · have he : c.bringupEnd 3 false mask = c.plls 14 := by
      unfold Chip.bringupEnd Chip.stepEnd
      simp [hx, hb, hf]
    rw [he, Chip.plls_fabric, bit2_lor]
    exact ⟨by simp, (StepKept.plls .refl 14).get F.RESET_BRINGUP_DONE (by decide)⟩

/-! ### The retry of the XTAL PLL, and PWM8 (R391, R397) -/

theorem Chip.driveAlert_parts (c : Chip) (low : Bool) :
    (c.driveAlert low).rst = c.rst ∧ (c.driveAlert low).aon = c.aon ∧ (c.driveAlert low).regs = c.regs ∧ (c.driveAlert low).build = c.build := by
  have he : ∀ (x : Chip) o, (x.emit o).rst = x.rst ∧ (x.emit o).aon = x.aon ∧ (x.emit o).regs = x.regs ∧ (x.emit o).build = x.build := fun x o => by
    unfold Chip.emit
    split <;> exact ⟨rfl, rfl, rfl, rfl⟩
  unfold Chip.driveAlert
  split
  · exact ⟨rfl, rfl, rfl, rfl⟩
  · exact he _ _

theorem Chip.pinsSince_parts (c b : Chip) :
    (c.pinsSince b).rst = c.rst ∧ (c.pinsSince b).aon = c.aon ∧ (c.pinsSince b).regs = c.regs ∧ (c.pinsSince b).build = c.build := by
  unfold Chip.pinsSince
  split <;> exact ⟨rfl, rfl, rfl, rfl⟩

/-- What the lock of the XTAL PLL changes: its fields, and that the part is not held any more. -/
theorem Chip.xtal_locked (c : Chip) :
    (c.xtal true).rst = { c.rst with xtalHeld := false } ∧ (c.xtal true).aon = c.aon ∧ (c.xtal true).build = c.build ∧
      (c.xtal true).regs = ((c.set F.CLOCKS_PLL_LOCK (Nat.lor (c.get F.CLOCKS_PLL_LOCK) 1)).set F.CLOCKS_REF_XTAL_OK 1).regs := by
  have h : ∀ (y b : Chip) (p : Bool), let z := (if p = true then y else y.driveAlert false).pinsSince b
      z.rst = y.rst ∧ z.aon = y.aon ∧ z.build = y.build ∧ z.regs = y.regs := fun y b p => by
    dsimp only
    obtain ⟨a1, a2, a3, a4⟩ := (if p = true then y else y.driveAlert false).pinsSince_parts b
    rw [a1, a2, a3, a4]
    obtain ⟨d1, d2, d3, d4⟩ := y.driveAlert_parts false
    cases p
    · exact ⟨d1, d2, d4, d3⟩
    · exact ⟨rfl, rfl, rfl, rfl⟩
  exact h { ((c.set F.CLOCKS_PLL_LOCK (Nat.lor (c.get F.CLOCKS_PLL_LOCK) 1)).set F.CLOCKS_REF_XTAL_OK 1) with rst := { c.rst with xtalHeld := false } } c _

/-- Full service, where every step has ended and nothing holds the part back. -/
theorem Chip.fullService_level (c : Chip) (hd : c.get F.RESET_BRINGUP_DONE = 4095) (hp : c.build = .T → c.on F.RESET_SERVICE_PWM8 = false)
    (hx : c.rst.xtalHeld = false) : c.fullService.get F.RESET_SERVICE_LEVEL = 2 := by
  unfold Chip.fullService
  split
  · rw [Chip.get_set_ne _ _ _ _ (by decide), Chip.get_set_ne _ _ _ _ (by decide), Chip.get_set _ _ _ (by decide) (by decide)]
    rfl
  · next h =>
    have hb : (decide (c.build = .T) && c.on F.RESET_SERVICE_PWM8) = false := by
      cases hc : c.build
      · rfl
      · rw [hp hc]
        rfl
    rw [hd, hb, hx] at h
    simpa using h

/-- The XTAL PLL locks at a retry. -/
theorem Chip.xtalRetry_locked (c : Chip) (hdeaf : c.deaf = false) (hx : c.rst.xtalHeld = true) :
    let t := c.xtalRetry true
    t.rst.xtalHeld = false ∧ t.get F.CLOCKS_REF_XTAL_OK = 1 ∧ t.frozen = false ∧ t.idle = c.rst.fabricHeld ∧
      (c.get F.RESET_BRINGUP_DONE = 4095 → (c.build = .T → c.on F.RESET_SERVICE_PWM8 = false) → t.get F.RESET_SERVICE_LEVEL = 2) := by
  obtain ⟨x1, x2, x3, x4⟩ := c.xtal_locked
  have hrd : ∀ a, (c.xtal true).rd a = ((c.set F.CLOCKS_PLL_LOCK (Nat.lor (c.get F.CLOCKS_PLL_LOCK) 1)).set F.CLOCKS_REF_XTAL_OK 1).rd a := fun a => by
    rw [Chip.rd, x4, x3]
    rfl
  have hok : (c.xtal true).get F.CLOCKS_REF_XTAL_OK = 1 := by
    rw [Chip.get, hrd, ← Chip.get, Chip.get_set _ _ _ (by decide) (by decide)]
    rfl
  have hkeep : ∀ a, a ≠ F.CLOCKS_PLL_LOCK.addr → a ≠ F.CLOCKS_REF_XTAL_OK.addr → (c.xtal true).rd a = c.rd a := fun a h1 h2 => by
    rw [hrd, Chip.rd_set_ne _ _ _ _ h2, Chip.rd_set_ne _ _ _ _ h1]
  have hl : (c.xtal true).latched = c.latched := by rw [Chip.latched, x2, ← Chip.latched]
  dsimp only
  unfold Chip.xtalRetry
  rw [if_pos hx]
  generalize c.xtal true = y at x1 x2 x3 hok hkeep hl
  have hrst : y.fullService.rst = { c.rst with xtalHeld := false } := y.fullService_rst.trans x1
  have hd : y.deaf = c.deaf := by rw [Chip.deaf, hl, x1, ← Chip.deaf]
  have hdf : y.fullService.deaf = c.deaf := by
    rw [← hd]
    rcases y.fullService_cases with e | ⟨t, n, e⟩ <;> rw [e] <;> rfl
  have hfz : y.fullService.frozen = false := by rw [Chip.frozen, hdf, hdeaf, hrst]; rfl
  refine ⟨by rw [hrst], ?_, hfz, ?_, fun h1 h2 => ?_⟩
  · rcases y.fullService_cases with e | ⟨t, n, e⟩ <;> rw [e]
    · exact hok
    · rw [Chip.get_set_ne _ _ _ _ (by decide), Chip.get_set_ne _ _ _ _ (by decide), Chip.get_set_ne _ _ _ _ (by decide), hok]
  · rw [Chip.idle, hfz, hrst]
    rfl
  · refine y.fullService_level ?_ (fun hb => ?_) (by rw [x1])
    · rw [Chip.get, hkeep _ (by decide) (by decide), ← Chip.get, h1]
    · rw [Chip.on, Chip.get, hkeep _ (by decide) (by decide), ← Chip.get, ← Chip.on, h2 (x3.symm.trans hb)]

/-- A tile leaves PWM8. -/
theorem Chip.pwm8Off_spec (c : Chip) (hb : c.build = .T) (hu : c.belfryUp = true) (hd : c.get F.RESET_BRINGUP_DONE / 1024 % 2 = 1)
    (hc : c.belfry.calibDue = false) : c.pwm8Off.get F.RESET_SERVICE_PWM8 = 0 := by
  unfold Chip.pwm8Off
  rw [if_pos (by simp [hb, hu, hd, hc]), Chip.fullService_pwm8, Chip.get_set _ _ _ (by decide) (by decide)]
  rfl

/-- The straps, while the first step has not ended. -/
theorem Chip.strapSample_spec (c : Chip) (pos slot boot : Nat) (hd : c.get F.RESET_BRINGUP_DONE % 2 = 0) (hp : pos < 8) (hs : slot < 2) (hb : boot < 4) :
    let t := c.strapSample pos slot boot
    t.get F.DEVICE_STRAPS_STACK_POS = pos ∧ t.get F.DEVICE_STRAPS_PAIR_SLOT = slot ∧ t.get F.DEVICE_STRAPS_BOOT_SEL = boot := by
  dsimp only
  unfold Chip.strapSample
  rw [if_neg (by omega)]
  refine ⟨?_, ?_, ?_⟩
  · rw [Chip.get_set_field _ _ _ _ (by decide) (by decide) (by decide) (by decide),
      Chip.get_set_field _ _ _ _ (by decide) (by decide) (by decide) (by decide), Chip.get_set _ _ _ (by decide) (by decide)]
    exact Nat.mod_eq_of_lt hp
  · rw [Chip.get_set_field _ _ _ _ (by decide) (by decide) (by decide) (by decide), Chip.get_set _ _ _ (by decide) (by decide)]
    exact Nat.mod_eq_of_lt hs
  · rw [Chip.get_set _ _ _ (by decide) (by decide)]
    exact Nat.mod_eq_of_lt hb

/-- Settles O60: the loads of a tile at the last two steps leave the steps as they were, and each end adds its own bit. -/
theorem bringUp : Obligations.BringUp := by
  refine ⟨fun s pos slot boot hd h1 h2 h3 h4 => ?_, fun s n timedOut mask hd h1 h12 hx hb => ?_, fun s n timedOut mask hd h3 hx => ?_, fun s hd hx => ?_,
    fun s mask hd hx => ⟨fun h1 h2 h3 => ?_, fun h1 h2 => ?_⟩, fun s hr hb hu hd hc => ?_⟩
  · exact .awake (fun c => c.strapSample pos slot boot) rfl hd (s.chip.strapSample_spec pos slot boot h1 h2 h3 h4)
  · exact .awake (fun c => c.bringupEnd n timedOut mask) rfl hd (s.chip.bringupEnd_spec n timedOut mask h1 h12 hx hb)
  · exact .awake (fun c => c.bringupEnd n timedOut mask) rfl hd (s.chip.bringupEnd_held n timedOut mask h3 hx)
  · exact .awake (fun c => c.xtalRetry true) rfl hd (s.chip.xtalRetry_locked hd hx)
  · have hf := (s.chip.bringupEnd_fabric mask hx).1 h1 h2 h3
    exact .awake (fun c => c.bringupEnd 3 true mask) rfl hd ⟨hf, by rw [Chip.idle, hf, Bool.or_true]⟩
  · exact .awake (fun c => c.bringupEnd 3 false mask) rfl hd ((s.chip.bringupEnd_fabric mask hx).2 h1 h2)
  · exact .serve Chip.pwm8Off rfl hr.notFrozen (s.chip.pwm8Off_spec hb hu hd hc)

end Sys2Proof.Machine
end

