-- ==== Sys2Proof/Proofs/MirrorEpochs.lean ====
section
-- One proof at a time: proofs that wait for the kernel side by side hold more memory than the check allows.
set_option Elab.async false
/-! PROOF. Mirror epochs: sent, received, discarded, applied and acknowledged, and the commit of a page (R38, R284, R290 to R294). -/

namespace Sys2Proof.Machine

/-! ### Mirror epochs: sending, acknowledging, discarding (R290, R293, R294) -/

theorem mirror_page {c : Chip} (h : c.build = .S) (e : Ev) (he : e.page = 0x0C1 := by rfl) : c.hasPage e.page = true := he ▸ mirror_hasPage h

/-- Frames sent leave the block as it is. -/
theorem Holds.emits {α β : Type} {ρ : Chip → α} {Fs : List Fld} {c d : Chip} (h : Holds ρ Fs c d) (l : List β) (f : β → Output) :
    Holds ρ Fs c (l.foldl (fun c b => c.emit (f b)) d) := by
  induction l generalizing d with
  | nil => exact h
  | cons b l ih => exact ih h.emit

/-- An epoch starts. -/
theorem Chip.epochStart_spec (c : Chip) (hb : c.build = .S) (hr : c.runs pgMirror = true) (he : c.en pgRedun = true) (ha : c.actBit = true)
    (hs : c.mirror.sending = none) :
    c.epochStart.mirror.epoch = (c.mirror.epoch + 1) % 2 ^ 32 ∧ c.epochStart.mirror.sending = some c.epochStart.mirror.epoch ∧
      c.epochStart.get F.MIRROR_STATUS_SENDING = 1 := by
  have hg : ¬ (c.build = .T || !c.runs pgMirror || !c.en pgRedun || !c.actBit || c.mirror.sending.isSome) = true := by simp [hb, hr, he, ha, hs]
  unfold Chip.epochStart
  rw [if_neg hg]
  dsimp only
  have hm : ∀ (x : Chip) (m : MirrorSt) (l : List (List Byte)),
      let t := l.foldl (fun c f => c.emit (.sideband f)) ((x.setMirror m).set F.MIRROR_STATUS_SENDING 1)
      t.mirror = m ∧ t.get F.MIRROR_STATUS_SENDING = 1 := fun x m l => by
    have h : Holds (fun y => y.mirror) [F.MIRROR_STATUS_SENDING] ((x.setMirror m).set F.MIRROR_STATUS_SENDING 1)
        (l.foldl (fun c f => c.emit (.sideband f)) ((x.setMirror m).set F.MIRROR_STATUS_SENDING 1)) := Holds.emits .refl l Output.sideband
    exact ⟨h.view, (h.get _).trans (Chip.get_set _ _ _ (by decide) (by decide))⟩
  obtain ⟨h1, h2⟩ := hm _ _ _
  rw [h1, h2]
  exact ⟨rfl, rfl, rfl⟩

/-- An epoch has gone. -/
theorem Chip.mirrorSent_spec (c : Chip) (hb : c.build = .S) (n : Nat) (hn : c.mirror.sending = some n) :
    c.mirrorSent.mirror.sending = none ∧ c.mirrorSent.get F.MIRROR_EPOCH_SENT_SENT = n % 2 ^ 32 ∧ c.mirrorSent.get F.MIRROR_STATUS_SENDING = 0 ∧
      c.mirrorSent.pend E.MIRROR_SENT = true := by
  unfold Chip.mirrorSent
  rw [hn]
  dsimp only
  obtain ⟨x, hx⟩ : ∃ x, x = ((c.setMirror { c.mirror with sending := none }).set F.MIRROR_STATUS_SENDING 0).set F.MIRROR_EPOCH_SENT_SENT n := ⟨_, rfl⟩
  have h1 : x.get F.MIRROR_EPOCH_SENT_SENT = n % 2 ^ 32 := by rw [hx, Chip.get_set _ _ _ (by decide) (by decide)]; rfl
  have h2 : x.get F.MIRROR_STATUS_SENDING = 0 := by
    rw [hx, Chip.get_set_ne _ _ _ _ (by decide), Chip.get_set _ _ _ (by decide) (by decide)]
    rfl
  have hk : Holds (fun y => y.mirror) [F.MIRROR_EPOCH_SENT_SENT, F.MIRROR_STATUS_SENDING] x (x.raise E.MIRROR_SENT) := .raise .refl
  rw [← hx, hk.get F.MIRROR_EPOCH_SENT_SENT, hk.get F.MIRROR_STATUS_SENDING]
  refine ⟨?_, h1, h2, Chip.raise_pend _ _ (mirror_page (by rw [hx]; exact hb) _) (by decide)⟩
  have := hk.view
  rw [show (x.raise E.MIRROR_SENT).mirror = x.mirror from this, hx]
  rfl

/-! #### CMD.FULL (R292) -/

theorem regAt_mirrorFull : ∃ d, regAt .S F.MIRROR_CMD_FULL.addr = .reg d ∧ ∀ v w, d.quiesceChange v w = false :=
  ⟨_, rfl, fun _ _ => by simp [RegDef.quiesceChange]⟩

theorem Chip.runs_congr {c d : Chip} {pg : Nat} (hb : d.build = c.build) (hen : d.en pg = c.en pg) (hu : d.inUse = c.inUse)
    (hr : d.rd F.ECC_STATUS_SRAM_FILLED.addr = c.rd F.ECC_STATUS_SRAM_FILLED.addr) : d.runs pg = c.runs pg := by
  have hs : d.on F.ECC_STATUS_SRAM_FILLED = c.on F.ECC_STATUS_SRAM_FILLED := by rw [Chip.on, Chip.get, hr, ← Chip.get, ← Chip.on]
  have hd : d.on F.ECC_STATUS_DRAM_FILLED = c.on F.ECC_STATUS_DRAM_FILLED := by
    rw [Chip.on, Chip.get, show F.ECC_STATUS_DRAM_FILLED.addr = F.ECC_STATUS_SRAM_FILLED.addr from rfl, hr]
    rfl
  unfold Chip.runs Chip.memReady Chip.use Chip.rdUse
  rw [hb, hen, hs, hd, hu]

/-- What the record of a write leaves of what runs. -/
theorem Recorded.runs {c x : Chip} {a : Nat} (h : Recorded c a x) (pg : Nat) (ha : a % 4096 ≠ 4) (hs : F.ECC_STATUS_SRAM_FILLED.addr ≠ a)
    (he : eventReg (F.EN.pg pg).addr = false) : x.runs pg = c.runs pg := by
  refine Chip.runs_congr ?_ ?_ (h.part Chip.inUse fun _ => rfl) (h.rd _ hs (by decide) (by decide))
  · exact h.part Chip.build fun _ => rfl
  · have hm : (F.EN.pg pg).addr % 4096 = 4 := by
      rw [ctrl_addr _ _ rfl]
      omega
    rw [Chip.en, Chip.on, h.get _ (fun e => ha (e ▸ hm)) he fun e => absurd (e ▸ hm) (by decide), ← Chip.on, ← Chip.en]

theorem Chip.mirrorFull_spec (c : Chip) (o : Origin) (hb : c.build = .S) (hc : Calm c) :
    let t := c.writeField o F.MIRROR_CMD_FULL 1
    if c.actBit then t.mirror = { c.mirror with fullDue := true }
    else t.mirror = c.mirror ∧ (c.runs pgMirror = true → c.rst.extest = false → .sideband (sbFrame 5 []) ∈ t.out) := by
  obtain ⟨d, hd, hq⟩ := regAt_mirrorFull
  rw [← hb] at hd
  have hcalm : ∀ x : Chip, Calm x → Calm x.mirrorFull := fun x h => by
    unfold Chip.mirrorFull Chip.requestFull
    have k : Holds pathView [] x (if x.build = .T then x else if x.actBit = true then x.setMirror { x.mirror with fullDue := true } else
      if x.runs pgMirror = true then x.emit (.sideband (sbFrame 5 [])) else x) := .ite .refl (.ite (.setMirror .refl) (.ite (.emit .refl) .refl))
    exact k.calm h
  obtain ⟨x, hx, -, he⟩ := Chip.write32_recorded (o := o) (w := insBits (c.keepWord F.MIRROR_CMD_FULL.addr) 0 0 1) hd (by decide) (hq _ _) hc
    (fun x h => by
      show Calm (if (insBits (c.keepWord F.MIRROR_CMD_FULL.addr) 0 0 1).getLsbD 0 then x.mirrorFull else x)
      split
      · exact hcalm x h
      · exact h)
  have hact : x.writeEffect o F.MIRROR_CMD_FULL.addr (c.rd F.MIRROR_CMD_FULL.addr) (insBits (c.keepWord F.MIRROR_CMD_FULL.addr) 0 0 1) = x.mirrorFull :=
    if_pos (insBits_bit_one _ 0 (by decide))
  have ht : c.writeField o F.MIRROR_CMD_FULL 1 = x.mirrorFull := by
    refine he.trans ?_
    rw [hact, Chip.noteMirror_other _ _ (by decide)]
  have hm : x.mirror = c.mirror := hx.part Chip.mirror fun _ => rfl
  have hab : x.actBit = c.actBit := hx.part Chip.actBit fun _ => rfl
  have hxb : x.build = .S := (hx.part Chip.build fun _ => rfl).trans hb
  have hext : x.rst = c.rst := hx.part Chip.rst fun _ => rfl
  have hrun : x.runs pgMirror = c.runs pgMirror := hx.runs pgMirror (by decide) (by decide) (by decide)
  have hf : x.mirrorFull = if c.actBit then x.setMirror { x.mirror with fullDue := true } else x.requestFull := by
    rw [Chip.mirrorFull, if_neg (show ¬ x.build = .T by rw [hxb]; decide), hab]
  dsimp only
  rw [ht, hf]
  cases c.actBit with
  | true => exact congrArg (fun m : MirrorSt => { m with fullDue := true }) hm
  | false =>
    refine ⟨?_, fun h1 h2 => ?_⟩
    · have k : Holds (fun y => y.mirror) [] x x.requestFull := .requestFull .refl
      have hv : x.requestFull.mirror = x.mirror := k.view
      exact hv.trans hm
    · show _ ∈ x.requestFull.out
      rw [Chip.requestFull, if_pos (hrun.trans h1)]
      exact x.emit_sent _ (by rw [hext, h2])

/-! #### What was applied, and what is discarded (R293, R294) -/

theorem Chip.setUnitState_redun_view {α : Type} (ρ : Chip → α) (c : Chip) (n : Nat) (Fs : List Fld) (h : Holds ρ Fs c (c.set (F.STATE.pg pgRedun) n))
    (hF : Fs.all (fun g => g.apart F.REDUN_STATUS_PAIR_LOCK) = true := by decide) (hc : calmFields Fs = true := by decide) :
    Holds ρ Fs c (c.setUnitState n) := .unitStateShown h hF hc

/-- The fields that show what is applied. -/
def appliedFields : List Fld := [F.MIRROR_EPOCH_APPLIED_APPLIED, F.MIRROR_STATUS_SYNCED, F.MIRROR_STATUS_APPLYING]

/-- The parts of the block that an acknowledgement leaves. -/
def ackView (c : Chip) : MirrorSt × List LaunchEntry × MemSt := (c.mirror, c.launchQ, c.mem)

theorem OutUp.setUnitState (c : Chip) (n : Nat) : OutUp c (c.setUnitState n) := by
  have hp : ∀ x : Chip, OutUp x x.pairShow := fun x => by
    unfold Chip.pairShow
    split
    · exact .of_eq rfl
    · have h1 : OutUp x (x.set F.REDUN_STATUS_PAIR_LOCK 0) := .of_eq rfl
      exact h1.trans (.cond _ _ _)
  have hr : ∀ x : Chip, OutUp x x.requestFull := fun x => by
    unfold Chip.requestFull
    split
    · exact .emit _ _
    · exact .of_eq rfl
  have hc : ∀ x : Chip, OutUp x x.contend := fun x => by
    unfold Chip.contend
    split
    · exact .raise _ _
    · exact .of_eq rfl
  have h1 : OutUp c (c.set (F.STATE.pg pgRedun) n) := .of_eq rfl
  have h0 : OutUp c ((c.set (F.STATE.pg pgRedun) n).pairShow) := h1.trans (hp _)
  unfold Chip.setUnitState
  dsimp only
  split
  · exact h0
  · split
    · exact h0.trans (hr _)
    · split
      · exact h0.trans (hc _)
      · exact h0

/-- An acknowledgement. -/
theorem Chip.applied_spec (c : Chip) (hb : c.build = .S) (n : Nat) (hn : c.mirror.applying = some n) :
    let t := c.applied
    t.mirror.applying = none ∧ t.get F.MIRROR_EPOCH_APPLIED_APPLIED = n % 2 ^ 32 ∧ t.on F.MIRROR_STATUS_SYNCED = true ∧ t.mirror.synced = true ∧
      t.mirror.whole = (c.mirror.whole || c.mirror.applyFull) ∧ t.get F.MIRROR_STATUS_APPLYING = 0 ∧ t.pend E.MIRROR_APPLIED = true ∧
      (c.rst.extest = false → .sideband (sbFrame 6 (leBytes 4 n)) ∈ t.out) ∧ t.launchQ = c.launchQ ∧ t.mem = c.mem ∧
      t.unitState = (if c.unitState = rsSyncing ∧ (c.mirror.whole || c.mirror.applyFull) = true then rsStandby else c.unitState) := by
  obtain ⟨m, hm⟩ : ∃ m : MirrorSt, m = { c.mirror with applying := none, applyFull := false, synced := true, whole := c.mirror.whole || c.mirror.applyFull } := ⟨_, rfl⟩
  obtain ⟨x, hx⟩ : ∃ x, x = (((c.setMirror m).set F.MIRROR_STATUS_APPLYING 0).set F.MIRROR_EPOCH_APPLIED_APPLIED n).set F.MIRROR_STATUS_SYNCED 1 := ⟨_, rfl⟩
  have x1 : x.get F.MIRROR_EPOCH_APPLIED_APPLIED = n % 2 ^ 32 := by
    rw [hx, Chip.get_set_ne _ _ _ _ (by decide), Chip.get_set _ _ _ (by decide) (by decide)]
    rfl
  have x2 : x.get F.MIRROR_STATUS_SYNCED = 1 := by
    rw [hx, Chip.get_set _ _ _ (by decide) (by decide)]
    rfl
  have x3 : x.get F.MIRROR_STATUS_APPLYING = 0 := by
    rw [hx, Chip.get_set_field _ _ _ _ (by decide) (by decide) (by decide) (by decide), Chip.get_set_ne _ _ _ _ (by decide),
      Chip.get_set _ _ _ (by decide) (by decide)]
    rfl
  have x4 : x.unitState = c.unitState := by
    rw [hx]
    unfold Chip.unitState Chip.state
    rw [Chip.get_set_ne _ _ _ _ (by decide), Chip.get_set_ne _ _ _ _ (by decide), Chip.get_set_ne _ _ _ _ (by decide)]
    rfl
  have x5 : ackView x.still = (m, c.launchQ, c.mem) := by
    rw [hx]
    rfl
  have xb : x.build = .S := by
    rw [hx]
    exact hb
  have xr : x.rst = c.rst := by
    rw [hx]
    rfl
  have he : c.applied = (let y := (x.emit (.sideband (sbFrame 6 (leBytes 4 n)))).raise E.MIRROR_APPLIED
      if y.unitState = rsSyncing && y.mirror.whole then y.setUnitState rsStandby else y) := by
    unfold Chip.applied
    rw [hn]
    dsimp only
    rw [hx, hm]
  have hy : Holds ackView (F.STATE.pg pgRedun :: appliedFields) x ((x.emit (.sideband (sbFrame 6 (leBytes 4 n)))).raise E.MIRROR_APPLIED) := .raise (.emit .refl)
  have ho : OutUp (x.emit (.sideband (sbFrame 6 (leBytes 4 n)))) ((x.emit (.sideband (sbFrame 6 (leBytes 4 n)))).raise E.MIRROR_APPLIED) := .raise _ _
  have hp : ((x.emit (.sideband (sbFrame 6 (leBytes 4 n)))).raise E.MIRROR_APPLIED).pend E.MIRROR_APPLIED = true :=
    Chip.raise_pend _ _ (mirror_page ((Chip.emit_build _ _).trans xb) _) (by decide)
  have hs := x.emit_sent (.sideband (sbFrame 6 (leBytes 4 n)))
  dsimp only
  rw [he]
  generalize (x.emit (.sideband (sbFrame 6 (leBytes 4 n)))).raise E.MIRROR_APPLIED = y at hy ho hp ⊢
  have hyv : ackView y.still = (m, c.launchQ, c.mem) := hy.view.trans x5
  have hyu : y.unitState = c.unitState := by
    rw [← x4]
    exact hy.get (F.STATE.pg pgRedun)
  have hyw : y.mirror.whole = (c.mirror.whole || c.mirror.applyFull) := by
    have := congrArg (fun v => v.1.whole) hyv
    exact this.trans (by rw [hm])
  obtain ⟨t, ht⟩ : ∃ t, t = if y.unitState = rsSyncing && y.mirror.whole then y.setUnitState rsStandby else y := ⟨_, rfl⟩
  have hk : Holds ackView appliedFields y t := by
    rw [ht]
    exact .ite (y.setUnitState_redun_view ackView rsStandby appliedFields (.set .refl)) .refl
  have hko : OutUp y t := by
    rw [ht]
    split
    · exact .setUnitState _ _
    · exact .of_eq rfl
  have hv : ackView t.still = (m, c.launchQ, c.mem) := hk.view.trans hyv
  have hm' : t.mirror = m := congrArg (fun v => v.1) hv
  have hf : ∀ f ∈ appliedFields, t.get f = x.get f := fun f h => (hk.gets f h).trans (hy.gets f (List.mem_cons_of_mem _ h))
  rw [← ht]
  refine ⟨by rw [hm', hm], (hf _ (by decide)).trans x1, ?_, by rw [hm', hm], by rw [hm', hm], (hf _ (by decide)).trans x3, hk.pend _ hp,
    fun h => hko _ (ho _ (hs (by rw [xr, h]))), congrArg (fun v => v.2.1) hv, congrArg (fun v => v.2.2) hv, ?_⟩
  · rw [Chip.on, hf _ (by decide), x2]
    rfl
  · rw [ht]
    rw [hyu, hyw]
    by_cases h : c.unitState = rsSyncing ∧ (c.mirror.whole || c.mirror.applyFull) = true
    · rw [if_pos (by simp only [h.1, h.2, decide_true, Bool.and_self]), if_pos h, Chip.setUnitState_state _ _ (by decide)]
    · rw [if_neg (by simpa using h), if_neg h, hyu]

/-! #### A set in progress is discarded (R294) -/

/-- A set that is discarded. -/
theorem Chip.setFail_spec (c : Chip) (hb : c.build = .S) (num : Nat) (full : Bool) :
    let t := c.setFail num full
    t.mirror.rxNum = none ∧ t.mirror.setLen = 0 ∧ t.mirror.ready = c.mirror.ready ∧ t.mirror.rxDrop = some num ∧ t.pend E.MIRROR_FAIL = true ∧
      t.get F.MIRROR_FAIL_COUNT_COUNT = min 0xFFFFFFFF (c.get F.MIRROR_FAIL_COUNT_COUNT + 1) ∧
      (c.unitState = rsStandby → t.unitState = rsSyncing) := by
  obtain ⟨m, hm⟩ : ∃ m : MirrorSt, m = { c.mirror with setLen := 0, rxLen := 0, rxNum := none, rxBase := none, setFull := false } := ⟨_, rfl⟩
  obtain ⟨x, hx⟩ : ∃ x, x = ((c.setMirror m).set F.MIRROR_STATUS_RECEIVING 0).bumpSat F.MIRROR_FAIL_COUNT_COUNT := ⟨_, rfl⟩
  have x1 : x.get F.MIRROR_FAIL_COUNT_COUNT = min 0xFFFFFFFF (c.get F.MIRROR_FAIL_COUNT_COUNT + 1) := by
    rw [hx, Chip.get_bumpSat _ _ _ (by decide) (by decide), Chip.get_set_ne _ _ _ _ (by decide)]
    rfl
  have x2 : x.unitState = c.unitState := by
    rw [hx]
    unfold Chip.unitState Chip.state
    rw [Chip.get, Chip.bumpSat_rd_ne _ _ _ _ (by decide), ← Chip.get, Chip.get_set_ne _ _ _ _ (by decide)]
    rfl
  have x3 : x.mirror = m := by
    rw [hx]
    rfl
  have xb : x.build = .S := by
    rw [hx]
    exact hb
  have he : c.setFail num full = (let y := (x.raise E.MIRROR_FAIL)
      let z := y.setMirror { y.mirror with whole := false, rxDrop := some num, dropFull := full }
      if z.unitState = rsStandby then z.setUnitState rsSyncing else z.requestFull) := by
    rw [hx, hm]
    rfl
  have hy : Holds (fun y => y.mirror) [F.STATE.pg pgRedun, F.MIRROR_FAIL_COUNT_COUNT] x (x.raise E.MIRROR_FAIL) := .raise .refl
  have hp : (x.raise E.MIRROR_FAIL).pend E.MIRROR_FAIL = true := Chip.raise_pend _ _ (mirror_page xb _) (by decide)
  dsimp only
  rw [he]
  generalize x.raise E.MIRROR_FAIL = y at hy hp ⊢
  have hym : y.mirror = m := (show y.mirror = x.mirror from hy.view).trans x3
  obtain ⟨z, hz⟩ : ∃ z, z = y.setMirror { y.mirror with whole := false, rxDrop := some num, dropFull := full } := ⟨_, rfl⟩
  have zu : z.unitState = c.unitState := by
    rw [← x2, hz]
    exact hy.get (F.STATE.pg pgRedun)
  have zc : z.get F.MIRROR_FAIL_COUNT_COUNT = min 0xFFFFFFFF (c.get F.MIRROR_FAIL_COUNT_COUNT + 1) := by
    rw [← x1, hz]
    exact hy.get F.MIRROR_FAIL_COUNT_COUNT
  have zm : z.mirror = { m with whole := false, rxDrop := some num, dropFull := full } := by
    rw [hz, ← hym]
    rfl
  have zp : z.pend E.MIRROR_FAIL = true := by
    rw [hz]
    exact hp
  obtain ⟨t, ht⟩ : ∃ t, t = if z.unitState = rsStandby then z.setUnitState rsSyncing else z.requestFull := ⟨_, rfl⟩
  have hk : Holds (fun y => y.mirror) [F.MIRROR_FAIL_COUNT_COUNT] z t := by
    rw [ht]
    exact .ite (z.setUnitState_redun_view _ rsSyncing _ (.set .refl)) (.requestFull .refl)
  have htm : t.mirror = { m with whole := false, rxDrop := some num, dropFull := full } := (show t.mirror = z.mirror from hk.view).trans zm
  dsimp only
  rw [← hz, ← ht, htm, hm]
  refine ⟨rfl, rfl, rfl, rfl, hk.pend _ zp, (hk.get _).trans zc, fun h => ?_⟩
  rw [ht, if_pos (zu.trans h), Chip.setUnitState_state _ _ (by decide)]

/-- A frame that is late. -/
theorem Chip.epochLate_spec (c : Chip) (hb : c.build = .S) (h : c.setPartial = true) :
    let t := c.epochLate
    t.mirror.rxNum = none ∧ t.mirror.setLen = 0 ∧ t.mirror.ready = c.mirror.ready ∧ t.pend E.MIRROR_FAIL = true ∧
      t.get F.MIRROR_FAIL_COUNT_COUNT = min 0xFFFFFFFF (c.get F.MIRROR_FAIL_COUNT_COUNT + 1) ∧ (c.unitState = rsStandby → t.unitState = rsSyncing) := by
  dsimp only
  unfold Chip.epochLate
  rw [if_pos h]
  obtain ⟨h1, h2, h3, -, h5, h6, h7⟩ := c.setFail_spec hb (c.mirror.rxNum.getD ((c.mirror.rxBase.getD 0 + 1) % 2 ^ 32))
    ((c.mirror.setFull || c.mirror.rxFull) && !(c.mirror.rxNum.isSome && c.mirror.rxFinal))
  exact ⟨h1, h2, h3, h5, h6, h7⟩

/-- An epoch whose first frame does not come. -/
theorem Chip.epochData_lost (c : Chip) (payload : List Byte) (hb : c.build = .S) (hr : c.runs pgMirror = true) (ha : c.actBit = false)
    (hs : c.unitState ≠ rsSolo) (hn : c.mirror.rxNum = none) (hd : c.mirror.rxDrop = none) (ho : ofLe (slice payload 4 4) ≠ 0) :
    (c.epochData payload).mirror.setLen = 0 ∧ (c.epochData payload).mirror.rxDrop = some (ofLe (slice payload 0 4)) ∧
      (c.epochData payload).pend E.MIRROR_FAIL = true := by
  have he : c.epochData payload = c.setFail (ofLe (slice payload 0 4)) false := by
    unfold Chip.epochData
    rw [if_neg (by simp [hr, ha, hs])]
    dsimp only
    rw [hn]
    unfold Chip.epochFirst
    simp [hd, ho]
  obtain ⟨-, h2, -, h4, h5, -⟩ := c.setFail_spec hb (ofLe (slice payload 0 4)) false
  rw [he]
  exact ⟨h2, h4, h5⟩

/-! ### A commit written (R38) -/

theorem smSet_smSet {α : Type} (m : SMap α) (k : Nat) (v w : α) : smSet (smSet m k v) k w = smSet m k w := by
  induction m with
  | nil => simp [smSet]
  | cons p t ih =>
    obtain ⟨j, x⟩ := p
    simp only [smSet]
    split
    · simp [smSet]
    · split
      · simp [smSet]
      · simp only [smSet]
        rw [if_neg ‹_›, if_neg ‹_›, ih]

theorem filter_smSet_of_none {α : Type} (P : Nat × α → Bool) (m : SMap α) (k : Nat) (v : α) (h : m.filter P = []) :
    (smSet m k v).filter P = if P (k, v) then [(k, v)] else [] := by
  induction m with
  | nil =>
    simp only [smSet, List.filter_cons, List.filter_nil]
  | cons p t ih =>
    obtain ⟨j, x⟩ := p
    have hp : P (j, x) = false := by
      by_contra hc
      rw [List.filter_cons_of_pos (by simpa using hc)] at h
      cases h
    have ht : t.filter P = [] := by
      rwa [List.filter_cons_of_neg (by rw [hp]; decide)] at h
    simp only [smSet]
    split
    · rw [List.filter_cons, h]
    · split
      · rw [List.filter_cons, ht]
      · rw [List.filter_cons_of_neg (by rw [hp]; decide), ih ht]

theorem Chip.wr_wr (c : Chip) (a : Nat) (v w : Word) : (c.wr a v).wr a w = c.wr a w := by
  unfold Chip.wr
  rw [smSet_smSet]

/-- The pages that wait for a commit, after the control of one is written. -/
theorem Chip.commitPages_wr (c : Chip) (h : c.commitPages = []) (pg : Nat) (hpg : pg < 1024) (w : Word) :
    (c.wr (pg * 4096 + 4) w).commitPages = if ctrlReady pg w then [pg] else [] := by
  have h0 : c.regs.filter (fun p => decide (p.1 % 4096 = 4) && decide (p.1 < 0x400000) && ctrlReady (p.1 / 4096) p.2) = [] := List.map_eq_nil_iff.1 h
  have e1 : (pg * 4096 + 4) % 4096 = 4 := by omega
  have e2 : pg * 4096 + 4 < 0x400000 := by omega
  have e3 : (pg * 4096 + 4) / 4096 = pg := by omega
  unfold Chip.commitPages Chip.wr
  rw [filter_smSet_of_none _ _ _ _ h0]
  simp only [e1, e2, e3, decide_true, Bool.true_and]
  split
  · simp only [List.map_cons, List.map_nil, e3]
  · rfl

theorem Chip.set_ctrl_wr (c : Chip) (f : Fld) (pg v : Nat) (hf : f.addr = 4) :
    c.set (f.pg pg) v = c.wr (pg * 4096 + 4) (insBits (c.rd (pg * 4096 + 4)) f.hi f.lo v) := by
  have ha : (f.pg pg).addr = pg * 4096 + 4 := ctrl_addr f pg hf
  rw [Chip.set, ha]
  rfl

/-- The word of a control with EN, APPLY_MODE and COMMIT written. -/
def committedWord (w : Word) (en : Bool) (mode : Nat) : Word := insBits (insBits (insBits w 0 0 (b2n en)) 3 2 mode) 8 8 1

theorem Chip.ctrlSet_commit (c : Chip) (o : Origin) (pg : Nat) (en srst commit : Bool) :
    (c.ctrlSet o pg en srst commit).set (F.COMMIT.pg pg) 1 =
      (c.ctrlNoted o pg en srst commit).wr (pg * 4096 + 4)
        (committedWord ((c.ctrlNoted o pg en srst commit).rd (pg * 4096 + 4)) en (c.get (F.APPLY_MODE.pg pg))) := by
  unfold Chip.ctrlSet
  generalize c.ctrlNoted o pg en srst commit = x
  rw [Chip.set_ctrl_wr _ F.EN _ _ rfl, Chip.set_ctrl_wr _ F.APPLY_MODE _ _ rfl, Chip.set_ctrl_wr _ F.COMMIT _ _ rfl, Chip.wr_wr, Chip.wr_wr, Chip.rd_wr, if_pos rfl,
    Chip.rd_wr, if_pos rfl]
  rfl

theorem committedWord_bits (w : Word) (en : Bool) (mode : Nat) :
    bitsOf (committedWord w en mode) 8 8 = 1 ∧ bitsOf (committedWord w en mode) 1 1 = bitsOf w 1 1 ∧ bitsOf (committedWord w en mode) 0 0 = b2n en := by
  unfold committedWord
  refine ⟨?_, ?_, ?_⟩
  · rw [bitsOf_insBits _ _ _ _ (by decide) (by decide)]
    rfl
  · rw [bitsOf_insBits_ne _ _ _ _ _ _ (by decide) (by decide) (by decide) (by decide),
      bitsOf_insBits_ne _ _ _ _ _ _ (by decide) (by decide) (by decide) (by decide),
      bitsOf_insBits_ne _ _ _ _ _ _ (by decide) (by decide) (by decide) (by decide)]
  · rw [bitsOf_insBits_ne _ _ _ _ _ _ (by decide) (by decide) (by decide) (by decide),
      bitsOf_insBits_ne _ _ _ _ _ _ (by decide) (by decide) (by decide) (by decide),
      bitsOf_insBits _ _ _ _ (by decide) (by decide)]
    cases en <;> rfl

theorem Chip.rd_ctrl_congr {c d : Chip} (hb : d.build = c.build) (h : d.ctrls = c.ctrls) (pg : Nat) : d.rd (pg * 4096 + 4) = c.rd (pg * 4096 + 4) := by
  have hr : ∀ x : Chip, x.rd (pg * 4096 + 4) = (smFind x.ctrls (4 + 4096 * pg)).getD (resetWord x.build (4 + 4096 * pg)) := fun x => by
    rw [x.smFind_ctrls, Nat.add_comm (pg * 4096), Nat.mul_comm pg]
    rfl
  rw [hr, h, hb, ← hr]

/-- What says that the reference of a page runs. -/
def refRegs : List Nat := [F.ECC_STATUS_SRAM_FILLED.addr, (F.STATE.pg (scanPage 0)).addr]

theorem Chip.refRuns_congr {c d : Chip} (hb : d.build = c.build) (hen : ∀ pg, d.en pg = c.en pg) (hu : d.inUse = c.inUse) (hbar : d.bar = c.bar)
    (hr : ∀ a ∈ refRegs, d.rd a = c.rd a) (r : PageRef) : d.refRuns r = c.refRuns r := by
  have hs : d.scanState = c.scanState := by
    unfold Chip.scanState Chip.state
    rw [Chip.get, hr _ (by decide), ← Chip.get]
  have h70 : d.runs 0x070 = c.runs 0x070 := Chip.runs_congr hb (hen _) hu (hr _ (by decide))
  unfold Chip.refRuns Chip.counterRuns
  rw [h70, hbar, hs, hb]
  simp only [hen]

/-- A block in which a commit of a page has just been written. -/
structure Committing (c : Chip) (pg : Nat) (z : Chip) : Prop where
  still : z.still = c.still
  rd : ∀ a, a % 4096 ≠ 4 → eventReg a = false → a ≠ F.DEVICE_CHANGE_LOST_COUNT.addr → z.rd a = c.rd a
  en : ∀ p, z.en p = c.en p
  commit : z.get (F.COMMIT.pg pg) = 1
  pages : z.commitPages = [pg]

theorem Committing.part {c z : Chip} {pg : Nat} (h : Committing c pg z) {α : Type} (f : Chip → α) (hf : ∀ y : Chip, f y.still = f y) : f z = f c := by
  rw [← hf z, h.still, hf c]

theorem Committing.refRuns {c z : Chip} {pg : Nat} (h : Committing c pg z) (r : PageRef) : z.refRuns r = c.refRuns r := by
  have hr : ∀ a ∈ refRegs, a % 4096 ≠ 4 ∧ eventReg a = false ∧ a ≠ F.DEVICE_CHANGE_LOST_COUNT.addr := by decide
  exact Chip.refRuns_congr (h.part Chip.build fun _ => rfl) h.en (h.part Chip.inUse fun _ => rfl) (h.part Chip.bar fun _ => rfl)
    (fun a ha => h.rd a (hr a ha).1 (hr a ha).2.1 (hr a ha).2.2) r

theorem Chip.committing (c : Chip) (o : Origin) (pg : Nat) (hc : Calm c) (hpg : pg < 1024) (hs : c.on (F.SRST.pg pg) = false ∨ srstInert pg = true) :
    Committing c pg ((c.ctrlSet o pg (c.en pg) false true).set (F.COMMIT.pg pg) 1) := by
  rw [c.ctrlSet_commit]
  have hq : Quiet c (c.ctrlNoted o pg (c.en pg) false true) := c.quiet_logChange _ _ _
  have hrd : ∀ b, eventReg b = false → b ≠ F.DEVICE_CHANGE_LOST_COUNT.addr → (c.ctrlNoted o pg (c.en pg) false true).rd b = c.rd b := fun b h1 h2 =>
    c.logChange_rd _ _ _ _ h1 h2
  generalize c.ctrlNoted o pg (c.en pg) false true = x at hq hrd ⊢
  have hx : x.rd (pg * 4096 + 4) = c.rd (pg * 4096 + 4) := Chip.rd_ctrl_congr hq.build hq.2.1 pg
  obtain ⟨b8, b1, b0⟩ := committedWord_bits (x.rd (pg * 4096 + 4)) (c.en pg) (c.get (F.APPLY_MODE.pg pg))
  have hget : ∀ f : Fld, f.addr = 4 → (x.wr (pg * 4096 + 4) (committedWord (x.rd (pg * 4096 + 4)) (c.en pg) (c.get (F.APPLY_MODE.pg pg)))).get (f.pg pg) =
      bitsOf (committedWord (x.rd (pg * 4096 + 4)) (c.en pg) (c.get (F.APPLY_MODE.pg pg))) f.hi f.lo := fun f hf => by
    rw [Chip.get, ctrl_addr _ _ hf, Chip.rd_wr, if_pos rfl]
    rfl
  have hold : bitsOf (x.rd (pg * 4096 + 4)) 1 1 = c.get (F.SRST.pg pg) := by
    rw [hx, Chip.get, ctrl_addr _ _ rfl]
    rfl
  generalize committedWord (x.rd (pg * 4096 + 4)) (c.en pg) (c.get (F.APPLY_MODE.pg pg)) = w at b8 b1 b0 hget ⊢
  refine ⟨hq.1, fun a h1 h2 h3 => ?_, fun p => ?_, (hget F.COMMIT rfl).trans b8, ?_⟩
  · rw [Chip.rd_wr, if_neg (by omega), hrd a h2 h3]
  · by_cases hp : p = pg
    · subst hp
      rw [Chip.en, Chip.on, hget F.EN rfl, show bitsOf w F.EN.hi F.EN.lo = bitsOf w 0 0 from rfl, b0]
      cases c.en p <;> rfl
    · rw [Chip.en, Chip.on, Chip.get, ctrl_addr _ _ rfl, Chip.rd_wr, if_neg (by omega), Chip.rd_ctrl_congr hq.build hq.2.1, ← ctrl_addr F.EN _ rfl, ← Chip.get,
        ← Chip.on, ← Chip.en]
  · rw [Chip.commitPages_wr _ ((Chip.commitPages_congr hq.2.1).trans hc.1) _ hpg]
    rw [bitsOf_bit] at b8 b1 
    refine if_pos ?_
    have h8 : w.getLsbD 8 = true := by
      cases h : w.getLsbD 8
      · rw [h] at b8
        cases b8
      · rfl
    unfold ctrlReady
    rw [h8]
    rcases hs with h | h
    · have h0 : w.getLsbD 1 = false := by
        rw [hold] at b1
        cases hw : w.getLsbD 1
        · rfl
        · rw [hw] at b1
          rw [Chip.on, ← b1] at h
          cases h
      rw [h0]
      rfl
    · rw [h]
      simp

/-- A commit of a page whose reset does not hold it: it waits for the reference, or is taken (R38, R43). -/
theorem Chip.writeCommit_eq (c : Chip) (o : Origin) (pg : Nat) (hp : c.hasPage pg = true) (ha : ctrlAbsent pg = false) (hc : Calm c)
    (hs : c.on (F.SRST.pg pg) = false ∨ srstInert pg = true) :
    ∃ z, Committing c pg z ∧ c.writeCommit o pg = if c.refRuns (pageRef c.build pg) then z else z.applyPage pg := by
  have hz := c.committing o pg hc (Chip.hasPage_lt hp) hs
  refine ⟨_, hz, ?_⟩
  unfold Chip.writeCommit
  rw [c.writeCtrl_eq o pg _ _ _ hp hc.2, c.ctrlWrite_word o pg _ _ _ ha, Chip.enChange_same]
  show ((c.ctrlSet o pg (c.en pg) false true).set (F.COMMIT.pg pg) 1).settle = _
  generalize (c.ctrlSet o pg (c.en pg) false true).set (F.COMMIT.pg pg) 1 = z at hz ⊢
  have hb : z.build = c.build := hz.part Chip.build fun _ => rfl
  unfold Chip.settle
  rw [hz.pages, List.foldl_cons, List.foldl_nil, hz.refRuns, hb]

/-! ### Shadows taken (R38) -/

/-- Whether a build has a register. -/
def RegDef.inBuild (d : RegDef) (b : Build) : Bool := match b with | .S => d.inS | .T => d.inT

theorem regAt_inBuild {b : Build} {a : Nat} {d : RegDef} (h : regAt b a = .reg d) : d.inBuild b = true := by
  cases hp : findPage b (a / 4096) with
  | none => simp [regAt, hp] at h
  | some p =>
    cases hf : (headerRegs ++ p.regs).find? (fun r => r.covers (a % 4096)) with
    | none => simp [regAt, hp, hf] at h
    | some r =>
      cases b
      all_goals
        simp only [regAt, hp, hf] at h
        split at h
        case isTrue hc =>
          cases h
          exact (Bool.and_eq_true_iff.1 hc).1
        case isFalse =>
          split at h
          case h_1 r' hf' =>
            cases h
            have hc' := List.find?_some hf'
            simp only [Bool.and_eq_true] at hc'
            exact hc'.1.2
          case h_2 => cases h

theorem smFind_foldl_smSet {α : Type} (l : List Nat) (k : Nat → Nat) (v : Nat → α) (m : SMap α) (o : Nat) (ho : o ∈ l) (hk : ∀ x ∈ l, k x = k o → x = o) :
    smFind (l.foldl (fun m x => smSet m (k x) (v x)) m) (k o) = some (v o) := by
  have hkeep : ∀ (l : List Nat) (m : SMap α), (∀ x ∈ l, k x = k o → x = o) → smFind m (k o) = some (v o) →
      smFind (l.foldl (fun m x => smSet m (k x) (v x)) m) (k o) = some (v o) := by
    intro l
    induction l with
    | nil => exact fun m _ h => h
    | cons x l ih =>
      intro m hk h
      rw [List.foldl_cons]
      refine ih _ (fun y hy => hk y (List.mem_cons_of_mem _ hy)) ?_
      rw [smFind_smSet]
      split
      · next e => rw [hk x List.mem_cons_self e.symm]
      · exact h
  induction l generalizing m with
  | nil => cases ho
  | cons x l ih =>
    rw [List.foldl_cons]
    rcases List.mem_cons.1 ho with rfl | ho
    · exact hkeep l _ (fun y hy => hk y (List.mem_cons_of_mem _ hy)) (by rw [smFind_smSet, if_pos rfl])
    · exact ih _ ho fun y hy => hk y (List.mem_cons_of_mem _ hy)

theorem Chip.takeShadows_rdUse (c : Chip) (a : Nat) (d : RegDef) (hr : regAt c.build a = .reg d) (hs : d.shadowed = true) :
    (c.takeShadows (a / 4096)).rdUse a = c.rd a := by
  obtain ⟨p, hp, hd, hc⟩ := regAt_reg hr
  have hd : d ∈ p.regs := by
    refine (List.mem_append.1 hd).resolve_left fun hh => ?_
    have : ∀ r ∈ headerRegs, r.shadowed = false := by decide
    rw [this d hh] at hs
    cases hs
  have hb := regAt_inBuild hr
  have he : a / 4096 * 4096 + a % 4096 = a := by omega
  unfold Chip.takeShadows
  rw [hp]
  unfold Chip.rdUse
  have ho : a % 4096 ∈ (p.regs.filter (fun r => r.shadowed && (match c.build with | .S => r.inS | .T => r.inT))).flatMap RegDef.offsets :=
    List.mem_flatMap.2 ⟨d, List.mem_filter.2 ⟨hd, by rw [hs]; exact hb⟩, RegDef.mem_offsets_of_covers hc⟩
  have h := smFind_foldl_smSet _ (fun o => a / 4096 * 4096 + o) (fun o => c.rd (a / 4096 * 4096 + o)) c.inUse (a % 4096) ho
    fun x _ e => Nat.add_left_cancel e
  rw [he] at h
  have h' := congrArg (fun o : Option Word => o.getD (resetWord c.build a)) h
  exact h'

/-! ### The register records of a mirror set (R293) -/

/-- What the write of shadowed registers leaves: only the registers at the addresses of a list, and what the record of a change writes, differ. -/
structure ShadowsWritten (A : List Nat) (c x : Chip) : Prop where
  build : x.build = c.build
  inUse : x.inUse = c.inUse
  bar : x.bar = c.bar
  time : x.time = c.time
  mem : x.mem = c.mem
  launchQ : x.launchQ = c.launchQ
  ctrls : x.ctrls = c.ctrls
  calm : Calm x
  rd : ∀ a, a ∉ A → eventReg a = false → a ≠ F.DEVICE_CHANGE_LOST_COUNT.addr → x.rd a = c.rd a

theorem ShadowsWritten.refl {c : Chip} (h : Calm c) : ShadowsWritten [] c c := ⟨rfl, rfl, rfl, rfl, rfl, rfl, rfl, h, fun _ _ _ _ => rfl⟩

theorem ShadowsWritten.trans {A B : List Nat} {c d e : Chip} (h : ShadowsWritten A c d) (k : ShadowsWritten B d e) : ShadowsWritten (A ++ B) c e :=
  ⟨k.build.trans h.build, k.inUse.trans h.inUse, k.bar.trans h.bar, k.time.trans h.time, k.mem.trans h.mem, k.launchQ.trans h.launchQ, k.ctrls.trans h.ctrls, k.calm,
    fun a ha h1 h2 => by
      rw [List.mem_append, not_or] at ha
      rw [k.rd a ha.2 h1 h2, h.rd a ha.1 h1 h2]⟩

/-- A shadowed register that a mirror set writes, other than RESET.SERVICE. -/
structure MirrorReg (b : Build) (a : Nat) (d : RegDef) : Prop where
  reg : regAt b a = .reg d
  shadowed : d.shadowed = true
  addr : a % 4 = 0 ∧ 0x40 ≤ a % 4096
  stored : unstored a = false
  other : a ≠ F.RESET_SERVICE_PWM8.addr

theorem shadowAddrs_quiet (b : Build) : ∀ a ∈ shadowAddrs b, eventReg a = false ∧ a ≠ F.DEVICE_CHANGE_LOST_COUNT.addr ∧ a ∉ refRegs := by
  cases b <;> decide +kernel

theorem Chip.write32_mirror (c : Chip) (o : Origin) (a : Nat) (w : Word) (d : RegDef) (hc : Calm c) (h : MirrorReg c.build a d) :
    ShadowsWritten [a] c (c.write32 o a w) ∧ (c.write32 o a w).rd a = d.store (c.rd a) w := by
  obtain ⟨hr, hs, ⟨h4, h40⟩, hu, hne⟩ := h
  obtain ⟨-, -, hact⟩ := shadowAddrs_plain c.build a (mem_shadowAddrs hr hs)
  have hact : mayAct a = false := by
    rcases hact with h | h | h
    · rw [hu] at h
      cases h
    · exact absurd h hne
    · exact h
  rw [Chip.write32_shadowed c o a w d hc h40 h4 hr hs hu, Chip.writeEffect_none _ _ _ _ _ hact]
  have hq := c.quiet_logChange o a w
  have hx : Calm ((c.logChange o a w).wr a (d.store (c.rd a) w)) := (hq.calm hc).wr _ _ (by omega)
  have hrd : ∀ b, b ≠ a → eventReg b = false → b ≠ F.DEVICE_CHANGE_LOST_COUNT.addr → ((c.logChange o a w).wr a (d.store (c.rd a) w)).rd b = c.rd b :=
    fun b hb h1 h2 => by rw [Chip.rd_wr, if_neg hb, c.logChange_rd o a b w h1 h2]
  have hself : ((c.logChange o a w).wr a (d.store (c.rd a) w)).rd a = d.store (c.rd a) w := by rw [Chip.rd_wr, if_pos rfl]
  have hst : ((c.logChange o a w).wr a (d.store (c.rd a) w)).still = c.still := hq.1
  have hct : ((c.logChange o a w).wr a (d.store (c.rd a) w)).ctrls = c.ctrls := (Chip.ctrls_wr _ _ _ (by omega)).trans hq.2.1
  generalize (c.logChange o a w).wr a (d.store (c.rd a) w) = x at hx hrd hself hst hct ⊢
  have hp : ∀ {α : Type} (f : Chip → α), (∀ y : Chip, f y.still = f y) → f x = f c := fun f hf => by rw [← hf x, hst, hf c]
  have hn : ∀ {α : Type} (f : Chip → α), (∀ (y : Chip) m, f (y.setMirror m) = f y) → f (x.noteMirror a) = f x := fun f hf => by
    rcases x.noteMirror_cases a with e | ⟨m, e⟩ <;> rw [e]
    exact hf x m
  rw [(hx.noteMirror a).settle]
  refine ⟨⟨?_, ?_, ?_, ?_, ?_, ?_, ?_, hx.noteMirror a, fun b hb h1 h2 => ?_⟩, ?_⟩
  · exact (hn Chip.build fun _ _ => rfl).trans (hp Chip.build fun _ => rfl)
  · exact (hn Chip.inUse fun _ _ => rfl).trans (hp Chip.inUse fun _ => rfl)
  · exact (hn Chip.bar fun _ _ => rfl).trans (hp Chip.bar fun _ => rfl)
  · exact (hn Chip.time fun _ _ => rfl).trans (hp Chip.time fun _ => rfl)
  · exact (hn Chip.mem fun _ _ => rfl).trans (hp Chip.mem fun _ => rfl)
  · exact (hn Chip.launchQ fun _ _ => rfl).trans (hp Chip.launchQ fun _ => rfl)
  · exact (hn Chip.ctrls fun _ _ => rfl).trans hct
  · rw [Chip.noteMirror_rd]
    exact hrd b (fun e => hb (e ▸ List.mem_singleton_self _)) h1 h2
  · rw [Chip.noteMirror_rd, hself]

/-- The words of a record of registers written in turn. -/
theorem Chip.mirrorRun_spec (addr : Nat) (l : List (Nat × Nat)) (c : Chip) (hc : Calm c) (hl : ∀ w ∈ l, ∃ d, MirrorReg c.build (addr + 4 * w.2) d)
    (hn : (l.map Prod.snd).Nodup) :
    ShadowsWritten (l.map fun w => addr + 4 * w.2) c (l.foldl (fun c w => c.write32 .mirror (addr + 4 * w.2) (BitVec.ofNat 32 w.1)) c) ∧
      ∀ w ∈ l, ∀ d, regAt c.build (addr + 4 * w.2) = .reg d →
        (l.foldl (fun c w => c.write32 .mirror (addr + 4 * w.2) (BitVec.ofNat 32 w.1)) c).rd (addr + 4 * w.2) = d.store (c.rd (addr + 4 * w.2)) (BitVec.ofNat 32 w.1) := by
  induction l generalizing c with
  | nil => exact ⟨.refl hc, fun w hw => absurd hw List.not_mem_nil⟩
  | cons v l ih =>
    rw [List.foldl_cons]
    obtain ⟨d, hd⟩ := hl v List.mem_cons_self
    obtain ⟨h1, h2⟩ := c.write32_mirror .mirror (addr + 4 * v.2) (BitVec.ofNat 32 v.1) d hc hd
    generalize c.write32 .mirror (addr + 4 * v.2) (BitVec.ofNat 32 v.1) = x at h1 h2 ⊢
    obtain ⟨hnv, hnl⟩ := List.nodup_cons.1 hn
    have hne : ∀ w ∈ l, addr + 4 * w.2 ≠ addr + 4 * v.2 := fun w hw e => hnv (List.mem_map.2 ⟨w, hw, by omega⟩)
    obtain ⟨i1, i2⟩ := ih x h1.calm (fun w hw => by
      rw [h1.build]
      exact hl w (List.mem_cons_of_mem _ hw)) hnl
    refine ⟨h1.trans i1, fun w hw d' hd' => ?_⟩
    obtain ⟨q1, q2, -⟩ := shadowAddrs_quiet c.build _ (mem_shadowAddrs hd.reg hd.shadowed)
    rcases List.mem_cons.1 hw with rfl | hw
    · obtain rfl : d = d' := RegAt.reg.inj (hd.reg.symm.trans hd')
      rw [i1.rd _ (fun hm => by
        obtain ⟨w, hw, e⟩ := List.mem_map.1 hm
        exact hne w hw e) q1 q2, h2]
    · obtain ⟨e, he⟩ := hl w (List.mem_cons_of_mem _ hw)
      obtain ⟨p1, p2, -⟩ := shadowAddrs_quiet c.build _ (mem_shadowAddrs he.reg he.shadowed)
      rw [i2 w hw d' (by rwa [h1.build]), h1.rd _ (fun hm => hne w hw (List.mem_singleton.1 hm)) p1 p2]

/-! ### The commit of a page that a set touches (R293) -/

theorem SetItem.words_zipIdx {r : SetItem} {w : Nat × Nat} : w ∈ r.words.zipIdx ↔ w.2 < r.count ∧ w.1 = ofLe (slice r.payload (4 * w.2) 4) := by
  unfold SetItem.words
  rw [List.mem_zipIdx_iff_getElem?, List.getElem?_map]
  constructor
  · intro h
    obtain ⟨k, hk, e⟩ := Option.map_eq_some_iff.1 h
    obtain ⟨hlt, rfl⟩ := List.getElem?_eq_some_iff.1 hk
    rw [List.length_range] at hlt
    rw [List.getElem_range] at e
    exact ⟨hlt, e.symm⟩
  · rintro ⟨h1, h2⟩
    rw [List.getElem?_range h1]
    exact congrArg some h2.symm

theorem eraseDups_const (l : List Nat) (a : Nat) (h : ∀ x ∈ l, x = a) (hl : l ≠ []) : l.eraseDups = [a] := by
  obtain ⟨x, t, rfl⟩ := List.exists_cons_of_ne_nil hl
  obtain rfl : x = a := h x List.mem_cons_self
  rw [List.eraseDups_cons, List.filter_eq_nil_iff.2 fun y hy => by simp [h y (List.mem_cons_of_mem _ hy)]]
  rfl

/-- A record of registers of one page, each of them shadowed. -/
structure PageRecord (r : SetItem) (pg : Nat) : Prop where
  typ : r.typ = 1
  count : 0 < r.count
  page : ∀ k, k < r.count → (r.addr + 4 * k) / 4096 = pg
  reg : ∀ k, k < r.count → ∃ d, MirrorReg .S (r.addr + 4 * k) d

theorem Chip.mirrorWrites_one (c : Chip) (r : SetItem) : Chip.mirrorWrites [r] c =
    ((r.words.zipIdx.map (fun w => r.wordAddr w.2 / 4096)).eraseDups).foldl (fun c pg => c.writeCommit .mirror pg)
      (r.words.zipIdx.foldl (fun c w => c.write32 .mirror (r.wordAddr w.2) (BitVec.ofNat 32 w.1)) c) := by
  unfold Chip.mirrorWrites
  simp only [List.foldl_cons, List.foldl_nil, List.flatMap_cons, List.flatMap_nil, List.append_nil]

theorem ShadowsWritten.refRuns {A : List Nat} {c x : Chip} (h : ShadowsWritten A c x) (hA : ∀ a ∈ A, a ∉ refRegs) (p : PageRef) : x.refRuns p = c.refRuns p := by
  have hr : ∀ a ∈ refRegs, eventReg a = false ∧ a ≠ F.DEVICE_CHANGE_LOST_COUNT.addr := by decide
  exact Chip.refRuns_congr h.build (fun pg => Chip.en_congr h.build h.ctrls pg) h.inUse h.bar
    (fun a ha => h.rd a (fun hm => hA a hm ha) (hr a ha).1 (hr a ha).2) p

/-- A record of registers of one page written, and the commit of the page. -/
theorem Chip.mirrorWrites_page (c : Chip) (hb : c.build = .S) (hc : Calm c) (r : SetItem) (pg : Nat) (hr : PageRecord r pg) (hp : c.hasPage pg = true)
    (ha : ctrlAbsent pg = false) (hs : c.on (F.SRST.pg pg) = false ∨ srstInert pg = true) :
    ∃ x z, ShadowsWritten (r.words.zipIdx.map fun w => r.addr + 4 * w.2) c x ∧
      (∀ k d, k < r.count → regAt .S (r.addr + 4 * k) = .reg d → x.rd (r.addr + 4 * k) = d.store (c.rd (r.addr + 4 * k)) (BitVec.ofNat 32 (ofLe (slice r.payload (4 * k) 4)))) ∧
      Committing x pg z ∧ Chip.mirrorWrites [r] c = if c.refRuns (pageRef .S pg) then z else z.applyPage pg := by
  have hw : ∀ i, r.wordAddr i = r.addr + 4 * i := fun i => if_pos hr.typ
  have hpages : (r.words.zipIdx.map (fun w => r.wordAddr w.2 / 4096)).eraseDups = [pg] := by
    refine eraseDups_const _ _ (fun y hy => ?_) ?_
    · obtain ⟨w, hm, rfl⟩ := List.mem_map.1 hy
      rw [hw]
      exact hr.page _ (SetItem.words_zipIdx.1 hm).1
    · intro h
      have hl := congrArg List.length h
      rw [List.length_map, List.length_zipIdx] at hl
      unfold SetItem.words at hl
      rw [List.length_map, List.length_range] at hl
      exact absurd hl (Nat.ne_of_gt hr.count)
  obtain ⟨h1, h2⟩ := Chip.mirrorRun_spec r.addr r.words.zipIdx c hc
    (fun w hm => by
      rw [hb]
      exact hr.reg _ (SetItem.words_zipIdx.1 hm).1)
    (by
      rw [List.zipIdx_map_snd]
      exact List.nodup_range')
  rw [c.mirrorWrites_one, hpages, List.foldl_cons, List.foldl_nil]
  simp only [hw]
  generalize r.words.zipIdx.foldl (fun c w => c.write32 .mirror (r.addr + 4 * w.2) (BitVec.ofNat 32 w.1)) c = x at h1 h2 ⊢
  have hA : ∀ a ∈ r.words.zipIdx.map (fun w => r.addr + 4 * w.2), a ∉ refRegs := fun a ha => by
    obtain ⟨w, hm, rfl⟩ := List.mem_map.1 ha
    obtain ⟨d, hd⟩ := hr.reg _ (SetItem.words_zipIdx.1 hm).1
    exact (shadowAddrs_quiet .S _ (mem_shadowAddrs hd.reg hd.shadowed)).2.2
  have hsx : x.on (F.SRST.pg pg) = c.on (F.SRST.pg pg) := by
    rw [Chip.on, Chip.get, ctrl_addr _ _ rfl, Chip.rd_ctrl_congr h1.build h1.ctrls, ← ctrl_addr F.SRST pg rfl, ← Chip.get, ← Chip.on]
  have hpx : x.hasPage pg = true := by
    unfold Chip.hasPage at hp ⊢
    rwa [h1.build]
  obtain ⟨z, hz, e⟩ := x.writeCommit_eq .mirror pg hpx ha h1.calm (by rwa [hsx])
  refine ⟨x, z, h1, fun k d hk hd => ?_, hz, ?_⟩
  · exact h2 (_, k) (SetItem.words_zipIdx.2 ⟨hk, rfl⟩) d (by rwa [hb])
  · rw [e, h1.refRuns hA, h1.build, hb]

theorem Chip.rdUse_congr {c d : Chip} (hb : d.build = c.build) (hu : d.inUse = c.inUse) (a : Nat) : d.rdUse a = c.rdUse a := by
  unfold Chip.rdUse
  rw [hu, hb]

/-- The records stand in their shadows while the reference runs, and are in use where it does not. -/
theorem Chip.mirrorWrites_taken (c : Chip) (hb : c.build = .S) (hc : Calm c) (r : SetItem) (pg : Nat) (hr : PageRecord r pg) (hp : c.hasPage pg = true)
    (ha : ctrlAbsent pg = false) (hs : c.on (F.SRST.pg pg) = false ∨ srstInert pg = true) :
    let waits := c.refRuns (pageRef .S pg)
    let w := Chip.mirrorWrites [r] c
    w.get (F.COMMIT.pg pg) = b2n waits ∧ (waits = true → w.inUse = c.inUse) ∧
      ∀ k d, k < r.count → regAt .S (r.addr + 4 * k) = .reg d →
        (if waits then w.rd (r.addr + 4 * k) else w.rdUse (r.addr + 4 * k)) =
          d.store (c.rd (r.addr + 4 * k)) (BitVec.ofNat 32 (ofLe (slice r.payload (4 * k) 4))) := by
  obtain ⟨x, z, hx, hv, hz, he⟩ := c.mirrorWrites_page hb hc r pg hr hp ha hs
  have hzb : z.build = .S := (hz.part Chip.build fun _ => rfl).trans (hx.build.trans hb)
  have hzu : z.inUse = x.inUse := hz.part Chip.inUse fun _ => rfl
  have hzr : ∀ k d, k < r.count → regAt .S (r.addr + 4 * k) = .reg d → z.rd (r.addr + 4 * k) =
      d.store (c.rd (r.addr + 4 * k)) (BitVec.ofNat 32 (ofLe (slice r.payload (4 * k) 4))) := fun k d hk hd => by
    obtain ⟨d', hd'⟩ := hr.reg k hk
    obtain ⟨q1, q2, -⟩ := shadowAddrs_quiet .S _ (mem_shadowAddrs hd'.reg hd'.shadowed)
    have := hd'.addr.2
    rw [hz.rd _ (by omega) q1 q2, hv k d hk hd]
  dsimp only
  rw [he]
  cases c.refRuns (pageRef .S pg) with
  | true =>
    rw [if_pos rfl]
    exact ⟨hz.commit, fun _ => hzu.trans hx.inUse, fun k d hk hd => by rw [if_pos rfl, hzr k d hk hd]⟩
  | false =>
    rw [if_neg (by decide)]
    have hk := (z.applyPage_kept pg).any
    have ht : ((z.takeShadows pg).set (F.COMMIT.pg pg) 0).build = z.build := by
      unfold Chip.takeShadows
      split <;> rfl
    have hc0 : ((z.takeShadows pg).set (F.COMMIT.pg pg) 0).get (F.COMMIT.pg pg) = 0 := by
      rw [Chip.get_set_pg _ _ _ _ (by decide) (by decide)]
      rfl
    refine ⟨?_, nofun, fun i d hi hd => ?_⟩
    · rw [Chip.get, ctrl_addr _ _ rfl, Chip.rd_ctrl_congr hk.build hk.ctrls, ← ctrl_addr F.COMMIT pg rfl, ← Chip.get, hc0]
      rfl
    · obtain ⟨d', hd'⟩ := hr.reg i hi
      obtain rfl : d' = d := RegAt.reg.inj (hd'.reg.symm.trans hd)
      have hu : (z.applyPage pg).inUse = ((z.takeShadows pg).set (F.COMMIT.pg pg) 0).inUse := congrArg Prod.snd hk.view
      have hs := z.takeShadows_rdUse (r.addr + 4 * i) d' (by rwa [hzb]) hd'.shadowed
      rw [hr.page i hi] at hs
      rw [if_neg (by decide), Chip.rdUse_congr hk.build hu, ← hzr i d' hi hd, ← hs]
      rfl

/-! ### A set applied (R293) -/

theorem Chip.setApply_eq (c : Chip) (writes : List SetItem → Chip → Chip) (l : List ReadySet) (x : ReadySet) (hr : c.mirror.ready = l ++ [x]) (ha : c.actBit = false)
    (hn : c.mirror.applying = none) :
    c.setApply writes = (((l ++ [x]).foldl (fun c y => c.applySet writes y) c).setMirror { ((l ++ [x]).foldl (fun c y => c.applySet writes y) c).mirror with
      ready := [], applying := some x.num, applyFull := (l ++ [x]).any (·.full), synced := true, aged := true }).set F.MIRROR_STATUS_APPLYING 1 := by
  have hne : (l ++ [x]).isEmpty = false := by cases l <;> rfl
  unfold Chip.setApply
  rw [hr, ha, hn, hne, if_neg (by decide)]
  dsimp only
  rw [List.getLast?_append, List.getLast?_singleton]
  rfl

theorem Chip.applySet_mirror (c : Chip) (writes : List SetItem → Chip → Chip) (y : ReadySet) :
    (c.applySet writes y).mirror.epoch = y.num ∧ (c.applySet writes y).mirror.snapshot = y.snapshot := ⟨rfl, rfl⟩

/-- Complete sets applied together. -/
theorem Chip.setApply_spec (c : Chip) (writes : List SetItem → Chip → Chip) (l : List ReadySet) (x : ReadySet) (hr : c.mirror.ready = l ++ [x]) (ha : c.actBit = false)
    (hn : c.mirror.applying = none) :
    let t := c.setApply writes
    let d := (l ++ [x]).foldl (fun c y => c.applySet writes y) c
    t.mirror.ready = [] ∧ t.mirror.applying = some x.num ∧ t.mirror.applyFull = (l ++ [x]).any (·.full) ∧ t.mirror.synced = true ∧
      t.get F.MIRROR_STATUS_APPLYING = 1 ∧ t.mirror.epoch = x.num ∧ t.mirror.snapshot = x.snapshot ∧ t.mem = d.mem ∧ t.launchQ = d.launchQ ∧
      t.inUse = d.inUse ∧ t.build = d.build ∧ ∀ a, a ≠ F.MIRROR_STATUS_APPLYING.addr → t.rd a = d.rd a := by
  have hd : (l ++ [x]).foldl (fun c y => c.applySet writes y) c = (l.foldl (fun c y => c.applySet writes y) c).applySet writes x := by
    rw [List.foldl_append, List.foldl_cons, List.foldl_nil]
  obtain ⟨e1, e2⟩ := (l.foldl (fun c y => c.applySet writes y) c).applySet_mirror writes x
  rw [← hd] at e1 e2
  dsimp only
  rw [c.setApply_eq writes l x hr ha hn]
  generalize (l ++ [x]).foldl (fun c y => c.applySet writes y) c = d at e1 e2 ⊢
  exact ⟨rfl, rfl, rfl, rfl, Chip.get_set _ _ _ (by decide) (by decide), e1, e2, rfl, rfl, rfl, rfl, fun a h => Chip.rd_set_ne _ _ _ _ h⟩

theorem DramOnly.dramWrites (l : List SetItem) (c : Chip) : DramOnly c (l.foldl (fun c i => c.dramWrite dmBelfry (4096 * i.addr) i.payload) c) :=
  foldl_rel DramOnly DramOnly.refl DramOnly.trans id _ l (fun x i _ => .dramWrite x _ _ _) c

/-- One set applied, read from the staging area without error. -/
theorem Chip.applySet_read (c : Chip) (x : ReadySet) (bytes : List Byte) (hs : c.stageRead x.half 0 x.len = ((bytes, false), c)) :
    let items := setItems x.len bytes
    let w := Chip.mirrorWrites (items.filter (fun i => i.typ = 1 || i.typ = 2)) c
    let v := (items.filter (fun i => i.typ = 3)).foldl (fun c i => c.dramWrite dmBelfry (4096 * i.addr) i.payload) w
    (c.applySet Chip.mirrorWrites x).mem = v.mem ∧ (c.applySet Chip.mirrorWrites x).inUse = v.inUse ∧ (c.applySet Chip.mirrorWrites x).build = v.build ∧
      (∀ a, (c.applySet Chip.mirrorWrites x).rd a = v.rd a) ∧
      (c.applySet Chip.mirrorWrites x).launchQ = (match (items.filter (fun i => i.typ = 4)).getLast? with
        | some i => (i.entries.filter (fun e => !launchDue w.timeNs e)).take 64
        | none => w.launchQ) := by
  dsimp only
  unfold Chip.applySet
  rw [hs]
  dsimp only
  generalize hw : Chip.mirrorWrites ((setItems x.len bytes).filter fun i => i.typ = 1 || i.typ = 2) c = w
  have hk := DramOnly.dramWrites ((setItems x.len bytes).filter fun i => i.typ = 3) w
  generalize ((setItems x.len bytes).filter fun i => i.typ = 3).foldl (fun c i => c.dramWrite dmBelfry (4096 * i.addr) i.payload) w = v at hk ⊢
  have ht : v.timeNs = w.timeNs := by
    rw [hk.part Chip.timeNs fun _ _ _ _ => rfl]
  cases ((setItems x.len bytes).filter fun i => i.typ = 4).getLast? with
  | none => exact ⟨rfl, rfl, rfl, fun _ => rfl, hk.part Chip.launchQ fun _ _ _ _ => rfl⟩
  | some i => exact ⟨rfl, rfl, rfl, fun _ => rfl, by rw [← ht]; rfl⟩

/-! ### Sets applied, and the epochs of a mirror (R290 to R294) -/

/-- One set applied whose staging area reads without error, by what its records do. -/
theorem Chip.setApply_one (c : Chip) (x : ReadySet) (hr : c.mirror.ready = [x]) (ha : c.actBit = false) (hn : c.mirror.applying = none) (bytes : List Byte)
    (hs : c.stageRead x.half 0 x.len = ((bytes, false), c)) :
    let t := c.setApply Chip.mirrorWrites
    let items := setItems x.len bytes
    let w := Chip.mirrorWrites (items.filter (fun i => i.typ = 1 || i.typ = 2)) c
    t.mem = ((items.filter (fun i => i.typ = 3)).foldl (fun c i => c.dramWrite dmBelfry (4096 * i.addr) i.payload) w).mem ∧
      t.launchQ = (match (items.filter (fun i => i.typ = 4)).getLast? with
        | some i => (i.entries.filter (fun e => !launchDue w.timeNs e)).take 64
        | none => w.launchQ) ∧
      ((∀ i ∈ items, i.typ ≠ 3) → t.inUse = w.inUse ∧ t.build = w.build ∧ ∀ a, a ≠ F.MIRROR_STATUS_APPLYING.addr → t.rd a = w.rd a) := by
  obtain ⟨-, -, -, -, -, -, -, s1, s2, s3, s4, s5⟩ := c.setApply_spec Chip.mirrorWrites [] x hr ha hn
  obtain ⟨r1, r2, r3, r4, r5⟩ := c.applySet_read x bytes hs
  rw [List.nil_append, List.foldl_cons, List.foldl_nil] at s1 s2 s3 s4 s5
  dsimp only
  refine ⟨s1.trans r1, s2.trans r5, fun h3 => ?_⟩
  have hnil : (setItems x.len bytes).filter (fun i => i.typ = 3) = [] := List.filter_eq_nil_iff.2 fun i hi => by simp [h3 i hi]
  rw [hnil, List.foldl_nil] at r2 r3 r4
  exact ⟨s3.trans r2, s4.trans r3, fun a h => (s5 a h).trans (r4 a)⟩

theorem ctrl_not_applying (f : Fld) (pg : Nat) (hf : f.addr = 4) : (f.pg pg).addr ≠ F.MIRROR_STATUS_APPLYING.addr := by
  rw [ctrl_addr _ _ hf]
  intro h
  have := congrArg (· % 4096) h
  simp only [show (pg * 4096 + 4) % 4096 = 4 by omega] at this
  exact absurd this (by decide)

/-- No register of MIRROR's status is shadowed. -/
theorem applying_unshadowed (d : RegDef) (h : regAt .S F.MIRROR_STATUS_APPLYING.addr = .reg d) : d.shadowed = false := by
  have hd : regAt .S F.MIRROR_STATUS_APPLYING.addr = .reg d := h
  obtain ⟨e, he, hs⟩ : ∃ e, regAt .S F.MIRROR_STATUS_APPLYING.addr = .reg e ∧ e.shadowed = false := ⟨_, rfl, rfl⟩
  rw [← RegAt.reg.inj (he.symm.trans hd)]
  exact hs

/-- The records of one page in a set: they stand in their shadows, or are in use. -/
theorem Chip.setApply_page (c : Chip) (hb : c.build = .S) (x : ReadySet) (hr : c.mirror.ready = [x]) (ha : c.actBit = false) (hn : c.mirror.applying = none)
    (bytes : List Byte) (hs : c.stageRead x.half 0 x.len = ((bytes, false), c)) (r : SetItem) (pg : Nat) (hc : Calm c)
    (h3 : ∀ i ∈ setItems x.len bytes, i.typ ≠ 3) (hone : (setItems x.len bytes).filter (fun i => i.typ = 1 || i.typ = 2) = [r]) (hp : c.hasPage pg = true)
    (hab : ctrlAbsent pg = false) (hsr : c.on (F.SRST.pg pg) = false ∨ srstInert pg = true) (hrec : PageRecord r pg) :
    let t := c.setApply Chip.mirrorWrites
    let waits := c.refRuns (pageRef .S pg)
    t.get (F.COMMIT.pg pg) = b2n waits ∧ (waits = true → t.inUse = c.inUse) ∧
      ∀ k d, k < r.count → regAt .S (r.addr + 4 * k) = .reg d →
        (if waits then t.rd (r.addr + 4 * k) else t.rdUse (r.addr + 4 * k)) =
          d.store (c.rd (r.addr + 4 * k)) (BitVec.ofNat 32 (ofLe (slice r.payload (4 * k) 4))) := by
  obtain ⟨-, -, h⟩ := c.setApply_one x hr ha hn bytes hs
  obtain ⟨u1, u2, u3⟩ := h h3
  rw [hone] at u1 u2 u3
  obtain ⟨w1, w2, w3⟩ := c.mirrorWrites_taken hb hc r pg hrec hp hab hsr
  dsimp only
  refine ⟨?_, fun h => u1.trans (w2 h), fun k d hk hd => ?_⟩
  · rw [Chip.get, u3 _ (ctrl_not_applying _ _ rfl), ← Chip.get, w1]
  · obtain ⟨d', hd'⟩ := hrec.reg k hk
    have hne : r.addr + 4 * k ≠ F.MIRROR_STATUS_APPLYING.addr := fun e => by
      have h1 := applying_unshadowed d' (e ▸ hd'.reg)
      rw [hd'.shadowed] at h1
      cases h1
    rw [u3 _ hne, Chip.rdUse_congr u2 u1, w3 k d hk hd]

/-- Settles O44: the registers of a set are written one by one, each to its own shadow, before the one commit of their page. -/
theorem mirrorEpochs : Obligations.MirrorEpochs := by
  intro s hr hb
  refine ⟨fun h1 h2 h3 h4 => ?_, fun n hn => ?_, fun o hc => ?_, fun l x h1 h2 h3 => ?_, fun n hn => ?_, fun bytes payload ns interval measured hp h1 h2 h3 h4 h5 h6 => ?_,
    fun h => ?_⟩
  · exact .live Chip.epochStart rfl hr (s.chip.epochStart_spec hb h1 h2 h3 h4)
  · exact .live Chip.mirrorSent rfl hr (s.chip.mirrorSent_spec hb n hn)
  · exact .serveFor o (fun c => c.writeField o F.MIRROR_CMD_FULL 1) rfl hr (s.chip.mirrorFull_spec o hb hc)
  · obtain ⟨t1, t2, t3, t4, t5, t6, t7, t8, t9, t10, -, t11⟩ := s.chip.setApply_spec Chip.mirrorWrites l x h1 h2 h3
    refine .liveS (fun c => c.setApply Chip.mirrorWrites) rfl hr hb ⟨t1, t2, t3, t4, t5, t6, t7, ⟨t8, t9, t10, t11⟩, fun bytes hl hs => ?_⟩
    subst hl
    obtain ⟨r1, r2, -⟩ := s.chip.setApply_one x h1 h2 h3 bytes hs
    refine ⟨r1, r2, fun r pg hc i3 hone htyp hcount hp hab hsr hreg => ?_⟩
    exact s.chip.setApply_page hb x h1 h2 h3 bytes hs r pg hc i3 hone hp hab hsr
      { typ := htyp, count := hcount, page := fun k hk => (hreg k hk).2.2.1
        reg := fun k hk => by
          obtain ⟨a1, a2, -, a4, a5, d, a6, a7⟩ := hreg k hk
          exact ⟨d, a6, a7, ⟨a1, a2⟩, a4, a5⟩ }
  · exact .liveS Chip.applied rfl hr hb (s.chip.applied_spec hb n hn)
  · refine .liveS _ rfl hr hb ?_
    rw [hp]
    exact s.chip.epochData_lost payload hb h1 h2 h3 h4 h5 h6
  · exact .liveS Chip.epochLate rfl hr hb (s.chip.epochLate_spec hb h)

end Sys2Proof.Machine
end

