-- ==== Sys2Proof/Proofs/PageControl.lean ====
section
-- One proof at a time: proofs that wait for the kernel side by side hold more memory than the check allows.
set_option Elab.async false
/-! PROOF. What a page starts, stops and resets leaves of the rest, and the control of a page (R35, R37, R97). -/

namespace Sys2Proof.Machine

/-! ### What a page starts, stops and resets leaves of the rest (R37, R97) -/

theorem Keeps.ite_of {α : Type} {ρ : Chip → α} {A : List Nat} {R : List Ev} {c d e : Chip} {p : Prop} [Decidable p] (h : p → Keeps ρ A R c d) (k : Keeps ρ A R c e) :
    Keeps ρ A R c (if p then d else e) := by
  split
  next hp => exact h hp
  · exact k

namespace PageKept
variable {c d : Chip}

/-! #### Flows and DP -/

/-- The fields of a flow that its states and frames write. -/
def flowFields : List Fld := [F.FLOW_WATERMARK_LINES, F.FLOW_WATERMARK_LAST_VALID, F.FLOW_SKEW_SKEW]

theorem set_flow (h : PageKept c d) {f : Fld} {n v : Nat} (hn : n < 16) (hf : f ∈ flowFields := by decide) : PageKept c (d.set (f.pg n) v) := by
  have hp : ∀ n < 16, ∀ f ∈ flowFields, (f.pg n).addr ∉ pageRegs ∧ plainReg (f.pg n).addr = true := by decide +kernel
  exact Keeps.set h (hp n hn f hf).1 (hp n hn f hf).2

theorem setFlowState (h : PageKept c d) {n : Nat} (hn : n < 16) (st : Nat) : PageKept c (d.setFlowState n st) := by
  have hp : ∀ n < 16, (F.STATE.pg (flowPage n)).addr ∉ pageRegs ∧ plainReg (F.STATE.pg (flowPage n)).addr = true := by decide +kernel
  unfold Chip.setFlowState
  refine Keeps.set (Keeps.set h (hp n hn).1 (hp n hn).2) ?_ ?_
  · exact show F.MERGE_FLOW_STATE_STATE.addr ∉ pageRegs by decide +kernel
  · exact show plainReg F.MERGE_FLOW_STATE_STATE.addr = true by decide

theorem flowStart (h : PageKept c d) {n : Nat} (hn : n < 16) : PageKept c (d.flowStart n) := by
  unfold Chip.flowStart
  exact setFlowState (set_flow (set_flow (set_flow (Keeps.setFlow h) hn) hn) hn) hn _

theorem pathHeard (h : PageKept c d) (n path : Nat) : PageKept c (d.pathHeard n path) := by
  have ha : (if path % 2 = 0 then (⟨F.MERGE_PATH_LOSS_A_SILENT.addr, n, n⟩ : Fld) else ⟨F.MERGE_PATH_LOSS_A_SILENT.addr, 16 + n, 16 + n⟩).addr =
      F.MERGE_PATH_LOSS_A_SILENT.addr := by split <;> rfl
  exact cond (Keeps.set h (by rw [ha]; decide +kernel) (by rw [ha]; decide)) (by decide)

theorem flowOff (h : PageKept c d) {n : Nat} (hn : n < 16) : PageKept c (d.flowOff n) := by
  unfold Chip.flowOff Chip.pathLossClear Chip.dropFrame
  exact setFlowState (pathHeard (pathHeard (set_flow (Keeps.setFlow h) hn) _ _) _ _) hn _

theorem rebind (h : PageKept c d) (s : Nat) (w : Bool) (p : LayerBind → Bool) : PageKept c (d.rebind s w p) := by
  have hp : ∀ l < 8, (F.LAYER_STATUS_BOUND_SLOT.pg l).addr ∉ pageRegs ∧ plainReg (F.LAYER_STATUS_BOUND_SLOT.pg l).addr = true := by decide +kernel
  unfold Chip.rebind
  dsimp only
  split
  · exact Keeps.setMap h
  · refine Keeps.foldl (Keeps.setMap h) fun x l hl => Keeps.ite ?_ .refl
    exact Keeps.set .refl (hp l (List.mem_range.1 hl)).1 (hp l (List.mem_range.1 hl)).2

theorem showWaits (h : PageKept c d) : PageKept c d.showWaits := Keeps.set (Keeps.set h)

theorem assignTasks (h : PageKept c d) : PageKept c d.assignTasks := Keeps.foldl h fun _ _ he => takeTask .refl (List.mem_range.1 he)

theorem chaseWithdraw (h : PageKept c d) (s : Nat) : PageKept c (d.chaseWithdraw s) := by
  obtain ⟨w, e⟩ : ∃ w : Bool, d.chaseWithdraw s = (if w then (d.rebind s true (fun b => !d.frameDone b)).raise E.CHASE_RELEASE
      else d.rebind s true (fun b => !d.frameDone b)).chaseReady := ⟨_, rfl⟩
  rw [e]
  have h1 := h.rebind s true (fun b => !d.frameDone b)
  exact assignTasks (showWaits (Keeps.setMap (Keeps.ite (raise h1) h1)))

theorem dpLost (h : PageKept c d) : PageKept c d.dpLost := by
  unfold Chip.dpLost Chip.setDpLock
  have h1 : PageKept c ((d.set F.DPIN_STATUS_LOCK (b2n false)).cond E.DP_LOCK false) := cond (Keeps.set h) (by decide)
  exact Keeps.of (Keeps.ite (raise h1) h1) rfl rfl rfl

/-! #### Mapping and scan-out -/

theorem dropFmap (h : PageKept c d) (l : List CanvasSt) : PageKept c (d.dropFmap l) := Keeps.setMap h

theorem mapRestart (h : PageKept c d) : PageKept c d.mapRestart := Keeps.setMap (dropFmap h _)

theorem mapStop (h : PageKept c d) : PageKept c d.mapStop := keepCanvases (dropFmap (mapRestart h) _) _

theorem scanHalt (h : PageKept c d) (st : Nat) : PageKept c (d.scanHalt st) := by
  unfold Chip.scanHalt Chip.setLag Chip.setScanState
  exact Keeps.set (Keeps.set (cond (Keeps.set (scan h)) (by decide)))

theorem scanWait (h : PageKept c d) : PageKept c d.scanWait := Keeps.ite (scanHalt h _) h

theorem generatorStop (h : PageKept c d) : PageKept c d.generatorStop := by
  unfold Chip.generatorStop Chip.setBarLock Chip.setSlewing
  exact cond (Keeps.set (cond (Keeps.set (withBar h _)) (by decide))) (by decide)

theorem scanStart (h : PageKept c d) : PageKept c d.scanStart := scan (scanStop h _)

theorem engineBStop (h : PageKept c d) : PageKept c d.engineBStop := by
  unfold Chip.engineBStop Chip.pruneJobs
  exact scan (scan (Keeps.foldl h fun _ _ _ => setPort .refl))

theorem engineBReset (h : PageKept c d) : PageKept c d.engineBReset := engineBStop (scan h)

/-! #### The pipeline and the drive of a tile -/

theorem setTileState (h : PageKept c d) (s : Nat) : PageKept c (d.setTileState s) := cond (Keeps.set h) (by decide)

theorem show_ (h : PageKept c d) : PageKept c d.tileShow := Keeps.tileShow h (hA := by decide +kernel)

theorem tilerxOff (h : PageKept c d) : PageKept c d.tilerxOff := show_ (Keeps.set (setTileState (Keeps.setSched (Keeps.setTile h)) _))

theorem closeBuild (h : PageKept c d) (s : Nat) (b : Bool) : PageKept c (d.closeBuild s b) := by
  unfold Chip.closeBuild
  split
  · exact h
  · refine Keeps.ite h ?_
    dsimp only
    have h1 : ∀ x : ImgSt, PageKept c (d.setImage x) := fun x => Keeps.of h rfl rfl rfl
    exact Keeps.ite (raise (Keeps.bumpSat (h1 _))) (h1 _)

theorem tilerxReset (h : PageKept c d) : PageKept c d.tilerxReset := by
  have h1 : PageKept c d.closeAll := show_ (Keeps.foldl h fun _ _ _ => closeBuild .refl _ _)
  exact Keeps.ite (setTileState h1 _) h1

theorem setDriveState (h : PageKept c d) (s : Nat) : PageKept c (d.setDriveState s) := cond (Keeps.set h) (by decide)

theorem driveOn (h : PageKept c d) : PageKept c d.driveOn := by
  unfold Chip.driveOn
  exact Keeps.ite (setDriveState (Keeps.set h) _) (setDriveState (Keeps.set h) _)

theorem driveOff (h : PageKept c d) : PageKept c d.driveOff := Keeps.ite (setDriveState h _) (setDriveState h _)

theorem driveReset (h : PageKept c d) : PageKept c d.driveReset := Keeps.set (Keeps.setDrive h)

/-! #### The pair -/

theorem setUnitState (h : PageKept c d) (n : Nat) : PageKept c (d.setUnitState n) := by
  have h1 : PageKept c (d.set (F.STATE.pg pgRedun) n).pairShow := Keeps.ite (Keeps.set h) (cond (Keeps.set (Keeps.set h)) (by decide))
  unfold Chip.setUnitState
  extract_lets x
  exact Keeps.ite h1 (Keeps.ite (Keeps.ite (Keeps.emit h1) h1) (Keeps.ite (Keeps.ite (raise h1) h1) h1))

theorem interlock (h : PageKept c d) : PageKept c d.interlock := by
  have he : d.interlock = if d.actBit && !(d.redun.own && !d.redun.peer) then
      (if d.activeFallen.unitState = rsActive then d.activeFallen.toStandby else d.activeFallen) else d := rfl
  have h0 : PageKept c { d with actBit := false } := Keeps.of h rfl rfl rfl
  have hf : PageKept c d.activeFallen := Keeps.set (Keeps.setMirror (raise (Keeps.set h0)))
  rw [he, Chip.toStandby_eq]
  exact Keeps.ite (Keeps.ite (setUnitState hf _) hf) h

theorem setOwn (h : PageKept c d) (b : Bool) : PageKept c (d.setOwn b) := by
  have h0 : PageKept c (d.ownDriven b).interlock := interlock (Keeps.emit (Keeps.set (Keeps.setRedun h)))
  by_cases hb : d.redun.own = b
  · rw [Chip.setOwn, if_pos hb]
    exact h
  · rw [d.setOwn_eq b hb]
    exact Keeps.ite (Keeps.ite (raise h0) h0) h0

theorem redunOn (h : PageKept c d) : PageKept c d.redunOn := by
  obtain ⟨r, m, e⟩ : ∃ r m, d.redunOn = if d.build = .T then d else
      ((((((d.setRedun r).setMirror m).set F.MIRROR_STATUS_SYNCED 0).setUnitState rsStart).showPaths.set F.REDUN_STATUS_DISAGREE 0).cond E.PATH_DISAGREE false) :=
    ⟨_, _, rfl⟩
  rw [e]
  refine Keeps.ite h ?_
  have hy : PageKept c (((d.setRedun r).setMirror m).set F.MIRROR_STATUS_SYNCED 0) := Keeps.set (Keeps.setMirror (Keeps.setRedun h))
  generalize ((d.setRedun r).setMirror m).set F.MIRROR_STATUS_SYNCED 0 = y at hy ⊢
  have h1 := setUnitState hy rsStart
  generalize y.setUnitState rsStart = z at h1 ⊢
  unfold Chip.showPaths
  exact cond (Keeps.set (cond (cond (Keeps.set (Keeps.set (Keeps.set (Keeps.set h1)))) (by decide)) (by decide))) (by decide)

theorem redunOff (h : PageKept c d) : PageKept c d.redunOff := Keeps.ite h (setUnitState h _)

theorem redunReset (h : PageKept c d) : PageKept c d.redunReset :=
  Keeps.ite h (Keeps.ite (redunOn (setOwn h _)) (redunOff (setOwn h _)))

theorem setDrop (h : PageKept c d) : PageKept c d.setDrop := Keeps.set (Keeps.setMirror h)

theorem evDown_bit (n : Nat) : (evDown n).bit < 32 := by
  unfold evDown
  split <;> decide

/-- What a page starts as it begins to run. -/
theorem pageStart (h : PageKept c d) (pg : Nat) : PageKept c (d.pageStart pg) := by
  refine h.trans ?_
  unfold Chip.pageStart
  refine Keeps.ite ?_ (Keeps.ite ?_ ?_)
  · split
    · exact latticeEntry .refl
    · exact .refl
  · exact cond .refl (evDown_bit _)
  refine Keeps.ite_of (fun h => ?_) ?_
  · simp only [Bool.and_eq_true, decide_eq_true_eq] at h
    exact flowStart .refl (by omega)
  refine Keeps.ite (Keeps.of .refl rfl rfl rfl) (Keeps.ite (scanStart .refl) (Keeps.ite (Keeps.of .refl rfl rfl rfl) ?_))
  refine Keeps.ite_of (fun h => ?_) ?_
  · simp only [Bool.and_eq_true, decide_eq_true_eq] at h
    exact portRestart .refl (by omega)
  exact Keeps.ite (setTileState .refl _) (Keeps.ite (driveOn .refl) (Keeps.ite (redunOn .refl) .refl))

/-- What a page stops as it ends. -/
theorem pageStop (h : PageKept c d) (pg : Nat) : PageKept c (d.pageStop pg) := by
  refine h.trans ?_
  unfold Chip.pageStop
  refine Keeps.ite ?_ (Keeps.ite ?_ ?_)
  · split
    · exact scanWait (generatorStop .refl)
    · exact .refl
  · exact cond .refl (evDown_bit _)
  refine Keeps.ite_of (fun h => ?_) ?_
  · simp only [Bool.and_eq_true, decide_eq_true_eq] at h
    exact chaseWithdraw (flowOff .refl (by omega)) _
  refine Keeps.ite (chaseWithdraw (dpLost .refl) _) (Keeps.ite (mapStop .refl) (Keeps.ite (scanStop .refl _) (Keeps.ite (engineBStop .refl) (Keeps.ite ?_ ?_))))
  · exact Keeps.set (Keeps.of .refl rfl rfl rfl)
  refine Keeps.ite_of (fun h => ?_) ?_
  · simp only [Bool.and_eq_true, decide_eq_true_eq] at h
    exact portRestart .refl (by omega)
  exact Keeps.ite (tilerxOff .refl) (Keeps.ite (driveOff .refl) (Keeps.ite (redunOff .refl) (Keeps.ite (setDrop .refl) .refl)))

theorem relayReset (d : Chip) : SetKept d d.relayReset := by
  unfold Chip.relayReset
  have h1 : SetKept d { d with host := { d.host with relayQ := [], relayOut := none } } := Keeps.of .refl rfl rfl rfl
  exact Keeps.foldl h1 fun x r _ => Keeps.ite (Keeps.of .refl rfl rfl rfl) (Keeps.emit .refl)

/-- What a reset of a page undoes; a bank retires its merge buffer, and the scrubber begins again. -/
theorem pageReset (d : Chip) (pg : Nat) : SetKept d (d.pageReset pg) := by
  unfold Chip.pageReset
  refine Keeps.ite (Keeps.of .refl rfl rfl rfl) (Keeps.ite (Keeps.of .refl rfl rfl rfl) (Keeps.ite ?_ (Keeps.ite (Keeps.of .refl rfl rfl rfl) ?_)))
  · split
    · have h1 : PageKept d d.generatorStop.scanWait := scanWait (generatorStop .refl)
      exact PageKept.any (Keeps.ite (latticeEntry h1) h1)
    · exact .refl
  refine Keeps.ite (Keeps.set (Keeps.of .refl rfl rfl rfl) (by decide +kernel)) (Keeps.ite (Keeps.set (Keeps.of .refl rfl rfl rfl) (by decide +kernel)) ?_)
  refine Keeps.ite_of (fun h => ?_) ?_
  · simp only [Bool.and_eq_true, decide_eq_true_eq] at h
    exact PageKept.any (Keeps.ite (chaseWithdraw (flowStart .refl (by omega)) _) .refl)
  refine Keeps.ite (Keeps.set (Keeps.set (Keeps.of .refl rfl rfl rfl) (by decide +kernel)) (by decide +kernel)) (Keeps.ite (chaseWithdraw (dpLost .refl) _).any (Keeps.ite ?_ ?_))
  · exact Keeps.of .refl rfl rfl rfl
  refine Keeps.ite (mapRestart .refl).any (Keeps.ite (PageKept.any (Keeps.ite (scanStop .refl _) .refl)) (Keeps.ite (engineBReset .refl).any (Keeps.ite ?_ ?_)))
  · exact Keeps.set (Keeps.of .refl rfl rfl rfl)
  refine Keeps.ite_of (fun h => ?_) ?_
  · simp only [Bool.and_eq_true, decide_eq_true_eq] at h
    exact (portRestart .refl (by omega)).any
  refine Keeps.ite (relayReset d) (Keeps.ite (tilerxReset .refl).any (Keeps.ite (driveReset .refl).any (Keeps.ite (redunReset .refl).any (Keeps.ite ?_ ?_))))
  · exact Keeps.setMirror (setDrop .refl).any
  refine Keeps.ite_of (fun h => ?_) ?_
  · simp only [Bool.and_eq_true, decide_eq_true_eq] at h
    exact SetKept.retireAll .refl (by omega)
  exact Keeps.ite (Keeps.of .refl rfl rfl rfl) .refl

end PageKept

/-! ### The control of a page: EN, SRST and its completion (R37, R97) -/

/-- A page control that no commit waits in. -/
theorem Chip.ctrl_notReady (c : Chip) (h : c.commitPages = []) (pg : Nat) (hpg : pg < 1024) : ctrlReady pg (c.rd (pg * 4096 + 4)) = false := by
  have e1 : (pg * 4096 + 4) / 4096 = pg := by omega
  rw [Chip.rd]
  cases hw : smFind c.regs (pg * 4096 + 4) with
  | none =>
    rw [Option.getD_none, show pg * 4096 + 4 = 4 + 4096 * pg by omega, resetWord, resetSpecial_ctrl, Option.getD_none, tableReset_ctrl]
    rfl
  | some w =>
    rw [Option.getD_some]
    by_contra hc
    have hm : pg ∈ c.commitPages := (c.mem_commitPages pg).2 ⟨_, smFind_mem _ _ _ hw, by omega, by omega, by rw [e1]; simpa using hc, e1⟩
    rw [h] at hm
    cases hm

theorem ctrlReady_insBits (pg : Nat) (w : Word) (hi lo v : Nat) (h : lo ≤ hi) (hh : hi < 32) (h1 : 1 < lo ∨ hi < 1) (h8 : 8 < lo ∨ hi < 8) :
    ctrlReady pg (insBits w hi lo v) = ctrlReady pg w := by
  have hbit : ∀ k, k < 32 → (k < lo ∨ hi < k) → (insBits w hi lo v).getLsbD k = w.getLsbD k := fun k hk hd => by
    have hb := bitsOf_insBits_ne w hi lo v k k h hh (Nat.le_refl k) (by omega)
    rw [bitsOf_bit, bitsOf_bit] at hb
    revert hb
    cases (insBits w hi lo v).getLsbD k <;> cases w.getLsbD k <;> simp
  unfold ctrlReady
  rw [hbit 8 (by decide) h8, hbit 1 (by decide) h1]

/-- A field of a page control that is neither SRST nor COMMIT: no commit begins to wait. -/
theorem Chip.commitPages_set_ctrl (c : Chip) (h : c.commitPages = []) (f : Fld) (pg v : Nat) (hpg : pg < 1024) (hf : f ∈ [F.EN, F.APPLY_MODE]) :
    (c.set (f.pg pg) v).commitPages = [] := by
  have ha : f.addr = 4 ∧ f.lo ≤ f.hi ∧ f.hi < 32 ∧ (1 < f.lo ∨ f.hi < 1) ∧ (8 < f.lo ∨ f.hi < 8) := by
    revert hf
    revert f
    decide
  obtain ⟨h4, h1, h2, h3, h5⟩ := ha
  rw [c.set_ctrl_wr f pg v h4, c.commitPages_wr h pg hpg, ctrlReady_insBits pg _ _ _ _ h1 h2 h3 h5, c.ctrl_notReady h pg hpg]
  rfl

theorem Chip.settle_calm (c : Chip) (h : c.commitPages = []) : c.settle = c := by
  unfold Chip.settle
  rw [h]
  rfl

theorem Chip.get_ctrl_congr {c d : Chip} (hb : d.build = c.build) (h : d.ctrls = c.ctrls) (f : Fld) (pg : Nat) (hf : f.addr = 4) :
    d.get (f.pg pg) = c.get (f.pg pg) := by
  rw [Chip.get, Chip.get, ctrl_addr f pg hf, Chip.rd_ctrl_congr hb h]

/-- EN and APPLY_MODE as they are written. -/
theorem Chip.ctrlSet_spec (c : Chip) (o : Origin) (pg : Nat) (en srst : Bool) (hc : c.commitPages = []) (hpg : pg < 1024) :
    (c.ctrlSet o pg en srst false).commitPages = [] ∧ (c.ctrlSet o pg en srst false).get (F.EN.pg pg) = b2n en ∧
      (c.ctrlSet o pg en srst false).get (F.APPLY_MODE.pg pg) = c.get (F.APPLY_MODE.pg pg) := by
  have hq : Quiet c (c.ctrlNoted o pg en srst false) := by
    unfold Chip.ctrlNoted
    split
    · exact c.quiet_logChange _ _ _
    · exact .refl c
  have hn : (c.ctrlNoted o pg en srst false).commitPages = [] := (Chip.commitPages_congr hq.2.1).trans hc
  have hm : c.get (F.APPLY_MODE.pg pg) < 4 := c.get_lt (F.APPLY_MODE.pg pg)
  unfold Chip.ctrlSet
  generalize c.ctrlNoted o pg en srst false = x at hn ⊢
  have h1 := x.commitPages_set_ctrl hn F.EN pg (b2n en) hpg (by decide)
  refine ⟨Chip.commitPages_set_ctrl _ h1 F.APPLY_MODE pg _ hpg (by decide), ?_, ?_⟩
  · rw [Chip.get_set_pg_apart _ F.APPLY_MODE F.EN, Chip.get_set_pg _ _ _ _ (by decide) (by decide)]
    cases en <;> rfl
  · rw [Chip.get_set_pg _ _ _ _ (by decide) (by decide)]
    exact Nat.mod_eq_of_lt hm

theorem PageKept.enChange {c d : Chip} (h : PageKept c d) (pg : Nat) (was now ran : Bool) : PageKept c (d.enChange pg was now ran) :=
  Keeps.ite h (Keeps.ite (Keeps.ite (PageKept.pageStart h pg) h) (Keeps.ite (PageKept.pageStop h pg) h))

/-- EN written by its command (R35, R97). -/
theorem Chip.writeCtrl_en (c : Chip) (o : Origin) (pg : Nat) (en : Bool) (hc : Calm c) (hp : c.hasPage pg = true) (ha : ctrlAbsent pg = false) :
    (c.writeCtrl o pg en false false).get (F.EN.pg pg) = b2n en ∧
      (c.writeCtrl o pg en false false).get (F.APPLY_MODE.pg pg) = c.get (F.APPLY_MODE.pg pg) := by
  have hpg := Chip.hasPage_lt hp
  obtain ⟨h1, h2, h3⟩ := c.ctrlSet_spec o pg en false hc.1 hpg
  rw [c.writeCtrl_eq o pg _ _ _ hp hc.2, c.ctrlWrite_word o pg _ _ _ ha]
  have hk : PageKept (c.ctrlSet o pg en false false) ((c.ctrlSet o pg en false false).enChange pg (c.en pg) en ((c.ctrlNoted o pg en false false).runs pg)) :=
    .enChange .refl _ _ _ _
  have hs := Chip.settle_calm _ ((Chip.commitPages_congr hk.ctrls).trans h1)
  simp only [Bool.false_eq_true, if_false, id]
  rw [hs, Chip.get_ctrl_congr hk.build hk.ctrls F.EN pg rfl, Chip.get_ctrl_congr hk.build hk.ctrls F.APPLY_MODE pg rfl]
  exact ⟨h2, h3⟩

/-- A page whose control is absent takes no command. -/
theorem Chip.writeCtrl_absent (c : Chip) (o : Origin) (pg : Nat) (en srst : Bool) (hc : Calm c) (hp : c.hasPage pg = true) (ha : ctrlAbsent pg = true) :
    c.writeCtrl o pg en srst false = c := by
  rw [c.writeCtrl_eq o pg _ _ _ hp hc.2, Chip.ctrlWrite, if_pos ha]

/-! #### SRST -/

/-- SRST written; where it acts, a commit is discarded and EVT_RAW cleared. -/
def Chip.srstSet (c : Chip) (o : Origin) (pg : Nat) : Chip :=
  let c := (c.ctrlSet o pg (c.en pg) true false).set (F.SRST.pg pg) 1
  if srstInert pg then c else (c.set (F.COMMIT.pg pg) 0).wr (pg * 4096 + 0x10) 0

theorem getLsbD_insBits_self (w : Word) (k v : Nat) (hk : k < 32) : (insBits w k k v).getLsbD k = decide (v % 2 = 1) := by
  have hb := bitsOf_insBits w k k v (Nat.le_refl k) hk
  rw [bitsOf_bit, Nat.add_sub_cancel_left, Nat.pow_one] at hb
  cases h : (insBits w k k v).getLsbD k <;> rw [h] at hb <;> simp at hb ⊢ <;> omega

theorem Chip.srstSet_spec (c : Chip) (o : Origin) (pg : Nat) (hc : c.commitPages = []) (hpg : pg < 1024) :
    (c.srstSet o pg).commitPages = [] ∧ (c.srstSet o pg).get (F.SRST.pg pg) = 1 ∧ (c.srstSet o pg).get (F.EN.pg pg) = c.get (F.EN.pg pg) ∧
      (srstInert pg = false → (c.srstSet o pg).get (F.COMMIT.pg pg) = 0) := by
  have he : c.get (F.EN.pg pg) < 2 := c.get_lt (F.EN.pg pg)
  obtain ⟨h1, h2, -⟩ := c.ctrlSet_spec o pg (c.en pg) true hc hpg
  have hen : b2n (c.en pg) = c.get (F.EN.pg pg) := by
    rw [Chip.en, Chip.on]
    rcases (by omega : c.get (F.EN.pg pg) = 0 ∨ c.get (F.EN.pg pg) = 1) with h | h <;> rw [h] <;> rfl
  unfold Chip.srstSet
  generalize c.ctrlSet o pg (c.en pg) true false = y at h1 h2 ⊢
  have hy := y.ctrl_notReady h1 pg hpg
  have hs : (y.set (F.SRST.pg pg) 1).commitPages = [] := by
    rw [y.set_ctrl_wr F.SRST pg 1 rfl, y.commitPages_wr h1 pg hpg]
    refine if_neg ?_
    have h8' : (insBits (y.rd (pg * 4096 + 4)) F.SRST.hi F.SRST.lo 1).getLsbD 8 = (y.rd (pg * 4096 + 4)).getLsbD 8 := getLsbD_insBits_bit _ (by decide) (by decide)
    have h1' : (insBits (y.rd (pg * 4096 + 4)) F.SRST.hi F.SRST.lo 1).getLsbD 1 = true := getLsbD_insBits_self _ 1 1 (by decide)
    unfold ctrlReady at hy ⊢
    rw [h8', h1']
    cases hi : srstInert pg <;> rw [hi] at hy <;> simp_all
  dsimp only
  refine ⟨?_, ?_, ?_, fun hi => ?_⟩
  · split
    · exact hs
    · rw [Chip.commitPages_congr (Chip.ctrls_wr _ _ _ (by omega)), Chip.set_ctrl_wr _ F.COMMIT pg 0 rfl, Chip.commitPages_wr _ hs pg hpg]
      refine if_neg ?_
      unfold ctrlReady
      rw [show (insBits ((y.set (F.SRST.pg pg) 1).rd (pg * 4096 + 4)) F.COMMIT.hi F.COMMIT.lo 0).getLsbD 8 = false from getLsbD_insBits_self _ 8 0 (by decide)]
      simp
  · have h0 : (y.set (F.SRST.pg pg) 1).get (F.SRST.pg pg) = 1 := by rw [Chip.get_set_pg _ _ _ _ (by decide) (by decide)]; rfl
    split
    · exact h0
    · rw [Chip.get, Chip.rd_wr, if_neg (by rw [ctrl_addr _ _ rfl]; omega), ← Chip.get, Chip.get_set_pg_apart _ F.COMMIT F.SRST, h0]
  · have h0 : (y.set (F.SRST.pg pg) 1).get (F.EN.pg pg) = c.get (F.EN.pg pg) := by rw [Chip.get_set_pg_apart _ F.SRST F.EN, h2, hen]
    split
    · exact h0
    · rw [Chip.get, Chip.rd_wr, if_neg (by rw [ctrl_addr _ _ rfl]; omega), ← Chip.get, Chip.get_set_pg_apart _ F.COMMIT F.EN, h0]
  · rw [hi]
    simp only [Bool.false_eq_true, if_false]
    rw [Chip.get, Chip.rd_wr, if_neg (by rw [ctrl_addr _ _ rfl]; omega), ← Chip.get, Chip.get_set_pg _ _ _ _ (by decide) (by decide)]
    rfl

/-- SRST by its command: the page is reset where it acts. -/
theorem Chip.writeCtrl_srst (c : Chip) (o : Origin) (pg : Nat) (hc : Calm c) (hp : c.hasPage pg = true) (ha : ctrlAbsent pg = false) :
    c.writeCtrl o pg (c.en pg) true false = if srstInert pg then c.srstSet o pg else (c.srstSet o pg).pageReset pg := by
  have h1 := (c.srstSet_spec o pg hc.1 (Chip.hasPage_lt hp)).1
  have hk := PageKept.pageReset (c.srstSet o pg) pg
  have e : (c.ctrlSet o pg (c.en pg) true false).srst pg = if srstInert pg then c.srstSet o pg else (c.srstSet o pg).pageReset pg := by
    unfold Chip.srst Chip.srstSet
    rw [if_neg (by rw [ha]; decide)]
    generalize (c.ctrlSet o pg (c.en pg) true false).set (F.SRST.pg pg) 1 = y
    dsimp only
    split
    · rfl
    · rfl
  rw [c.writeCtrl_eq o pg _ _ _ hp hc.2, c.ctrlWrite_word o pg _ _ _ ha, Chip.enChange_same]
  simp only [Bool.false_eq_true, if_false, if_true, id]
  rw [e]
  refine Chip.settle_calm _ ?_
  split
  · exact h1
  · exact (Chip.commitPages_congr hk.ctrls).trans h1

theorem Chip.srst_control (c : Chip) (o : Origin) (pg : Nat) (hc : Calm c) (hp : c.hasPage pg = true) (ha : ctrlAbsent pg = false) :
    let t := c.writeCtrl o pg (c.en pg) true false
    t.get (F.SRST.pg pg) = 1 ∧ t.get (F.EN.pg pg) = c.get (F.EN.pg pg) ∧ (srstInert pg = false → t.get (F.COMMIT.pg pg) = 0) := by
  obtain ⟨-, h2, h3, h4⟩ := c.srstSet_spec o pg hc.1 (Chip.hasPage_lt hp)
  have hk := PageKept.pageReset (c.srstSet o pg) pg
  dsimp only
  rw [c.writeCtrl_srst o pg hc hp ha]
  split
  · exact ⟨h2, h3, h4⟩
  · rw [Chip.get_ctrl_congr hk.build hk.ctrls F.SRST pg rfl, Chip.get_ctrl_congr hk.build hk.ctrls F.EN pg rfl, Chip.get_ctrl_congr hk.build hk.ctrls F.COMMIT pg rfl]
    exact ⟨h2, h3, h4⟩

/-! #### SRST of the launch queue (R97) -/

/-- The pending bits of the launch queue, which no report touches. -/
def launchPend : Nat := 0x021 * 4096 + 0x18

theorem Chip.raiseWith_pend {push : Chip → EvRec → Chip} (hp : ∀ x r, (push x r).rd launchPend = x.rd launchPend) (c : Chip) (e : Ev) (he : e.page ≠ 0x021) :
    (c.raiseWith push e).rd launchPend = c.rd launchPend := by
  have hs : ∀ (x : Chip) v, (x.sendMsix v).rd launchPend = x.rd launchPend := fun x v => by
    unfold Chip.sendMsix
    split
    · rw [Chip.rd_wr, if_neg (by decide)]
    · exact x.emit_rd _ _
  have hw : ∀ w, (c.wr (e.page * 4096 + 0x18) w).rd launchPend = c.rd launchPend := fun w => by
    rw [Chip.rd_wr, if_neg (by show 0x021 * 4096 + 0x18 ≠ _; omega)]
  unfold Chip.raiseWith
  split
  · rfl
  · dsimp only
    rw [Chip.alertFall_rd, Chip.monitorEvent_rd _ _ _ (by decide), hp]
    split
    · rw [hs, hw]
    · exact hw _

theorem Chip.evqKeep_pend (c : Chip) (r : EvRec) : (c.evqKeep r).rd launchPend = c.rd launchPend := by
  unfold Chip.evqKeep
  split
  · rfl
  · exact Chip.rd_set_ne _ _ _ _ (by decide)

theorem Chip.evqLose_pend (c : Chip) : c.evqLose.rd launchPend = c.rd launchPend := by
  unfold Chip.evqLose
  rw [Chip.raiseWith_pend Chip.evqKeep_pend _ _ (by decide)]
  exact Chip.rd_set_ne _ _ _ _ (by decide)

theorem Chip.pushEv_pend (c : Chip) (r : EvRec) : (c.pushEv r).rd launchPend = c.rd launchPend := by
  unfold Chip.pushEv
  split
  · exact c.evqKeep_pend r
  · split
    · rfl
    · split
      · exact (Chip.evqLose_pend _).trans rfl
      · exact c.evqLose_pend

theorem Chip.logChange_pend (c : Chip) (o : Origin) (a : Nat) (w : Word) : (c.logChange o a w).rd launchPend = c.rd launchPend := by
  unfold Chip.logChange
  split
  · rfl
  · rw [Chip.raise, Chip.raiseWith_pend Chip.pushEv_pend _ _ (by decide)]
    exact Chip.rd_set_ne _ _ _ _ (by decide)

theorem Chip.pageReset_launch (c : Chip) : c.pageReset 0x021 = { c with launchQ := [] } := rfl

theorem Chip.srstSet_rd (c : Chip) (o : Origin) (pg a : Nat) (hi : srstInert pg = false) (h4 : a ≠ pg * 4096 + 4) :
    (c.srstSet o pg).rd a = if a = pg * 4096 + 0x10 then 0 else (c.ctrlNoted o pg (c.en pg) true false).rd a := by
  have h : ∀ (x : Chip) (f : Fld) v, f.addr = 4 → (x.set (f.pg pg) v).rd a = x.rd a := fun x f v hf => Chip.rd_set_ne _ _ _ _ (by rw [ctrl_addr f pg hf]; exact h4)
  unfold Chip.srstSet Chip.ctrlSet
  rw [hi]
  simp only [Bool.false_eq_true, if_false]
  rw [Chip.rd_wr, h _ F.COMMIT _ rfl, h _ F.SRST _ rfl, h _ F.APPLY_MODE _ rfl, h _ F.EN _ rfl]

theorem Chip.srst_launch (c : Chip) (o : Origin) (hc : Calm c) :
    let t := c.writeCtrl o 0x021 (c.en 0x021) true false
    t.launchQ = [] ∧ t.rd (0x021 * 4096 + 0x10) = 0 ∧ t.rd launchPend = c.rd launchPend ∧ t.rd F.LAUNCH_TIME_TIME.addr = c.rd F.LAUNCH_TIME_TIME.addr := by
  have hn : c.ctrlNoted o 0x021 (c.en 0x021) true false = c.logChange o (0x021 * 4096 + 4) (ctrlWord (c.en 0x021) true (c.get (F.APPLY_MODE.pg 0x021)) false) := if_pos rfl
  dsimp only
  rw [c.writeCtrl_srst o 0x021 hc (launch_hasPage c) rfl, if_neg (by decide), Chip.pageReset_launch]
  refine ⟨rfl, ?_, ?_, ?_⟩
  · exact (c.srstSet_rd o 0x021 _ rfl (by decide)).trans (if_pos rfl)
  · refine (c.srstSet_rd o 0x021 _ rfl (by decide)).trans ((if_neg (by decide)).trans ?_)
    rw [hn, c.logChange_pend]
  · refine (c.srstSet_rd o 0x021 _ rfl (by decide)).trans ((if_neg (by decide)).trans ?_)
    rw [hn, c.logChange_rd _ _ _ _ (by decide) (by decide)]

/-! #### The completion (R37) -/

/-- Where nothing is held on a path and no SRP job is under way, nothing follows. -/
theorem Chip.pathsRest (c : Chip) (h1 : c.host.held = []) (h2 : c.host.srpJob = none) (h3 : c.host.srpQ = []) : c.heldNext.srpRun = c := by
  have e : c.heldNext = c := by rw [Chip.heldNext, h1]; rfl
  rw [e, Chip.srpRun, h3]
  simp [Chip.srpQueue, Chip.srpWords, h2, h3]

/-- SRST cleared, and what was committed with it waits, or is taken. -/
theorem Chip.srstDone_eq (c : Chip) (pg : Nat) (hc : c.commitPages = []) (hpg : pg < 1024) :
    c.srstDone pg = if c.on (F.COMMIT.pg pg) && !c.refRuns (pageRef c.build pg) then (c.set (F.SRST.pg pg) 0).applyPage pg else c.set (F.SRST.pg pg) 0 := by
  have hw : ctrlReady pg (insBits (c.rd (pg * 4096 + 4)) F.SRST.hi F.SRST.lo 0) = c.on (F.COMMIT.pg pg) := by
    have h8 := bitsOf_insBits_ne (c.rd (pg * 4096 + 4)) 1 1 0 8 8 (by decide) (by decide) (by decide) (by decide)
    have h1 : (insBits (c.rd (pg * 4096 + 4)) F.SRST.hi F.SRST.lo 0).getLsbD 1 = false := getLsbD_insBits_self _ 1 0 (by decide)
    have ho : c.on (F.COMMIT.pg pg) = decide (bitsOf (c.rd (pg * 4096 + 4)) 8 8 = 1) := by
      rw [Chip.on, Chip.get, ctrl_addr _ _ rfl]
      rfl
    unfold ctrlReady
    rw [h1, ho, ← h8, bitsOf_bit]
    show ((insBits (c.rd (pg * 4096 + 4)) 1 1 0).getLsbD 8 && !(false && !srstInert pg)) = _
    cases (insBits (c.rd (pg * 4096 + 4)) 1 1 0).getLsbD 8 <;> rfl
  have hz : (c.set (F.SRST.pg pg) 0).commitPages = if c.on (F.COMMIT.pg pg) then [pg] else [] := by
    rw [c.set_ctrl_wr F.SRST pg 0 rfl, c.commitPages_wr hc pg hpg, hw]
  have hen : ∀ p, (c.set (F.SRST.pg pg) 0).en p = c.en p := fun p => by
    by_cases hp : p = pg
    · subst hp
      rw [Chip.en, Chip.on, Chip.get_set_pg_apart _ F.SRST F.EN, ← Chip.on, ← Chip.en]
    · rw [Chip.en, Chip.on, Chip.get_set_ne _ _ _ _ (by rw [ctrl_addr _ _ rfl, ctrl_addr _ _ rfl]; omega), ← Chip.on, ← Chip.en]
  have hrd : ∀ a ∈ refRegs, (c.set (F.SRST.pg pg) 0).rd a = c.rd a := fun a ha => by
    have hq : ∀ a ∈ refRegs, a % 4096 ≠ 4 := by decide
    refine Chip.rd_set_ne _ _ _ _ ?_
    rw [ctrl_addr _ _ rfl]
    have := hq a ha
    omega
  have hr : (c.set (F.SRST.pg pg) 0).refRuns (pageRef c.build pg) = c.refRuns (pageRef c.build pg) :=
    Chip.refRuns_congr (c := c) (d := c.set (F.SRST.pg pg) 0) rfl hen rfl rfl hrd _
  unfold Chip.srstDone Chip.settle
  rw [hz]
  cases c.on (F.COMMIT.pg pg) with
  | false => rfl
  | true =>
    rw [if_pos rfl, List.foldl_cons, List.foldl_nil, show (c.set (F.SRST.pg pg) 0).build = c.build from rfl, hr]
    cases c.refRuns (pageRef c.build pg) <;> rfl

theorem Chip.pathsOpen_held {c : Chip} (h : c.pathsOpen = true) : c.host.held = [] := by
  unfold Chip.pathsOpen at h
  simp only [Bool.and_eq_true] at h
  exact List.isEmpty_iff.1 h.1.1

/-- A page that takes its shadows, its control. -/
theorem Chip.applyPage_ctrl (c : Chip) (pg : Nat) :
    (c.applyPage pg).get (F.COMMIT.pg pg) = 0 ∧ (c.applyPage pg).get (F.SRST.pg pg) = c.get (F.SRST.pg pg) ∧ (c.applyPage pg).host.held = c.host.held ∧
      (c.applyPage pg).host.srpJob = c.host.srpJob ∧ (c.applyPage pg).host.srpQ = c.host.srpQ := by
  have hk := c.applyPage_kept pg
  have ht : ((c.takeShadows pg).host = c.host ∧ (c.takeShadows pg).regs = c.regs) ∧ (c.takeShadows pg).build = c.build := by
    unfold Chip.takeShadows
    split <;> exact ⟨⟨rfl, rfl⟩, rfl⟩
  obtain ⟨⟨hh, hr⟩, hb⟩ := ht
  have hs : (c.takeShadows pg).get (F.SRST.pg pg) = c.get (F.SRST.pg pg) := by rw [Chip.get, Chip.rd_congr hr hb, ← Chip.get]
  have hv : (c.applyPage pg).still.host = (c.takeShadows pg).still.host := congrArg (fun v => v.2.2.2) hk.view
  have hst : ∀ x : Chip, x.still.host = { x.host with alertLow := false } := fun _ => rfl
  rw [hst, hst, hh] at hv
  refine ⟨?_, ?_, congrArg (fun h => h.held) hv, congrArg (fun h => h.srpJob) hv, congrArg (fun h => h.srpQ) hv⟩
  · rw [Chip.get_ctrl_congr hk.build hk.ctrls F.COMMIT pg rfl, Chip.get_set_pg _ _ _ _ (by decide) (by decide)]
    rfl
  · rw [Chip.get_ctrl_congr hk.build hk.ctrls F.SRST pg rfl, Chip.get_set_pg_apart _ F.COMMIT F.SRST, hs]

theorem Chip.srstComplete_spec (c : Chip) (pg : Nat) (hc : Calm c) (hpg : pg < 1024) (h2 : c.host.srpJob = none) (h3 : c.host.srpQ = []) :
    (c.srstDone pg).heldNext.srpRun.get (F.SRST.pg pg) = 0 ∧
      (c.on (F.COMMIT.pg pg) = false → OnlyRegs [F.SRST.addr + 4096 * pg] c (c.srstDone pg).heldNext.srpRun) ∧
      (c.on (F.COMMIT.pg pg) = true → c.refRuns (pageRef c.build pg) = false → (c.srstDone pg).heldNext.srpRun.get (F.COMMIT.pg pg) = 0) := by
  have h1 := Chip.pathsOpen_held hc.2
  have h0 : (c.set (F.SRST.pg pg) 0).get (F.SRST.pg pg) = 0 := by
    rw [Chip.get_set_pg _ _ _ _ (by decide) (by decide)]
    rfl
  obtain ⟨a1, a2, a3, a4, a5⟩ := (c.set (F.SRST.pg pg) 0).applyPage_ctrl pg
  have hd : (c.srstDone pg).heldNext.srpRun = c.srstDone pg := by
    rw [c.srstDone_eq pg hc.1 hpg]
    split
    · exact Chip.pathsRest _ (a3.trans h1) (a4.trans h2) (a5.trans h3)
    · exact Chip.pathsRest _ h1 h2 h3
  rw [hd, c.srstDone_eq pg hc.1 hpg]
  refine ⟨?_, fun ho => ?_, fun ho hr => ?_⟩
  · split
    · exact a2.trans h0
    · exact h0
  · rw [ho, Bool.false_and, if_neg (by decide)]
    exact ⟨rfl, fun a ha => Chip.rd_set_ne _ _ _ _ fun e => ha (List.mem_singleton.2 e)⟩
  · rw [ho, hr]
    exact a1

/-- Settles O9: what is written to a page control, from the word written. -/
theorem pageControl : Obligations.PageControl := by
  unfold Obligations.PageControl
  refine ⟨fun s o pg hr hc hp => ⟨fun ha => ⟨?_, ?_, ?_⟩, fun ha => ⟨?_, ?_, ?_⟩⟩, fun s o hr hc => ?_, fun s pg hr hc hpg hs h2 h3 => ?_⟩
  · exact .serveFor o _ rfl hr (s.chip.writeCtrl_absent o pg _ _ hc hp ha)
  · exact .serveFor o _ rfl hr (s.chip.writeCtrl_absent o pg _ _ hc hp ha)
  · exact .serveFor o (fun c => c.writeCtrl o pg (c.en pg) true false) rfl hr (s.chip.writeCtrl_absent o pg _ _ hc hp ha)
  · exact .serveFor o _ rfl hr (s.chip.writeCtrl_en o pg true hc hp ha)
  · exact .serveFor o _ rfl hr (s.chip.writeCtrl_en o pg false hc hp ha)
  · exact .serveFor o (fun c => c.writeCtrl o pg (c.en pg) true false) rfl hr (s.chip.srst_control o pg hc hp ha)
  · exact .serveFor o (fun c => c.writeCtrl o 0x021 (c.en 0x021) true false) rfl hr (s.chip.srst_launch o hc)
  · refine .live (fun c => c.when (decide (pg < 1024) && c.on (F.SRST.pg pg)) (fun c => (c.srstDone pg).heldNext.srpRun)) rfl hr ?_
    rw [hs, decide_eq_true hpg, Bool.and_self, Chip.when, if_pos rfl]
    obtain ⟨p1, p2, p3⟩ := s.chip.srstComplete_spec pg hc hpg h2 h3
    exact ⟨p1, p2, fun ho _ hrf => p3 ho hrf⟩

end Sys2Proof.Machine
end
